-- ==== Sys2Proof/Word.lean ====
section
/-! DEFINITION. The words of the device: 16-bit register and memory words, and the index ranges of the hierarchy of
phases, clusters, rails and domains (00_scope.md, R2, R3). -/
namespace Sys2Proof

/-- A 16-bit word of a register or of memory. -/
abbrev W16 := BitVec 16
/-- A byte of a frame, a transaction or a memory. -/
abbrev Byte := BitVec 8
/-- A word address of the 32-bit DMA address space; core addresses are its low 24 bits (R3, R342). -/
abbrev Addr := BitVec 32
/-- A rail, 0 to 15. -/
abbrev Rail := Fin 16
/-- A phase, 0 to 127. -/
abbrev Phase := Fin 128
/-- A cluster, 0 to 15. -/
abbrev Cluster := Fin 16
/-- A domain, 0 to 7; demand lanes are numbered alike. -/
abbrev Domain := Fin 8
/-- A core: 0 to 4 are TC0 to TC4, 5 is the management core. -/
abbrev CoreId := Fin 6
/-- A weir, 0 to 183. -/
abbrev Weir := Fin 184
/-- An event channel, 0 to 63. -/
abbrev Channel := Fin 64
/-- A turnout, 0 to 143. -/
abbrev Turnout := Fin 144
/-- A capture timer, 0 to 31. -/
abbrev Timer := Fin 32
/-- A DMA channel, 0 to 15. -/
abbrev DmaCh := Fin 16
/-- A Headgate port, 0 to 5: 0 PMBus, 1 to 4 AVSBus, 5 MSPI. -/
abbrev Port := Fin 6
/-- A slot of a rail's phase map, 0 to 63. -/
abbrev Slot := Fin 64
/-- An interrupt source, 0 to 253. -/
abbrev Source := Fin 254

end Sys2Proof
end

