-- ==== Sys2Proof/Syntax.lean ====
section
/-! DEFINITION. The commands of the block: what its clock, its pins, its analogue inputs, its cores and its hosts can do
to it, one constructor of `Instr` per row of spec/opcode_table.json, with the operands that carry the inputs. -/
namespace Sys2Proof

/-- Who makes a register access: a core at its present privilege, a DMA channel, or JTAG debug access (R9, R37). -/
inductive Agent where
  | core (k : CoreId)
  | dma (c : DmaCh)
  | jtag
  deriving DecidableEq, Repr

/-- What the analogue front end and the digital pins give the block in one control tick (R32, R39, R44): the raw codes
of the slice serving each phase, the sensed voltage of each rail in codes of 125 µV, the raw codes and voltages of the
off-line converters that shadow an input (R58), and the levels of the ENn and TFLTn pins. A channel that is not listed
reads 0, as an unconnected input does (R41, R45). -/
structure TickInput where
  cur : List (Nat × List Int)
  volt : List (Nat × List Int)
  shadow : List (Nat × List Int)
  en : BitVec 16
  tflt : BitVec 16
  deriving DecidableEq, Repr

/-- A sense channel of the Flume (R38): a phase's current input, a rail's sense pair, an auxiliary channel or a
cluster's temperature channel. -/
inductive SenseChannel where
  | phase (p : Phase)
  | rail (r : Rail)
  | aux (a : Fin 8)
  | temp (c : Cluster)
  deriving DecidableEq, Repr

/-- A PMBus access of a command that is both read and written (R385): a read, or a write of a value with its packet error
check absent (0), right (1) or wrong (2). -/
inductive PmbAccess where
  | read
  | write (v : BitVec 16) (pec : Fin 3)
  deriving DecidableEq, Repr

/-- What a JTAG debug instruction asks of the cores (R267, R339, R439): a management-core reset request, or the resuming
of a core that is halted. Halting a core is a command of its own. -/
inductive DebugAct where
  | none
  | reset
  | resume (k : CoreId)
  deriving DecidableEq, Repr


/-- What a cold start takes from the board and from the self-tests of its steps 1 and 2 (R332, R344, R394, R399): the
contents of the boot flash (none: the flash stands as the device left it), its size and whether it has a valid SFDP
header; the straps PMB_ADR and CLKSEL; the SRAM rows that the memory self-test repairs; the pairs whose comparator fails
the injection test; and the durations of steps 1 to 5 in µs. -/
structure StartInput where
  flash : Option (List (Nat × Byte))
  flashSize : Nat
  sfdp : Bool
  pmbAdr : Fin 8
  clkSel : Bool
  repairs : List (Fin 7 × Fin 2048)
  injection : List CoreId
  times : List Nat
  deriving DecidableEq, Repr

/-- The address modes of LD and ST (R256), in the order of their codes: (pm), (pm)+, -(pm), (pm, #u2), (pm, #s16),
(pm, dk), (#a16) and (sp, #u5). -/
inductive AddrMode where
  | ind (m : Fin 8)
  | post (m : Fin 8)
  | pre (m : Fin 8)
  | off2 (m : Fin 8) (u : BitVec 2)
  | off16 (m : Fin 8) (o : BitVec 16)
  | idx (m : Fin 8) (d : Fin 4)
  | abs (a : BitVec 16)
  | sp (u : BitVec 5)
  deriving DecidableEq, Repr

/-- The address modes of the 32-bit moves (R257): (pm), (pm)+ by 2, -(pm) by 2 and (pm, #s16). -/
inductive PairMode where
  | ind (m : Fin 8)
  | post (m : Fin 8)
  | pre (m : Fin 8)
  | off16 (m : Fin 8) (o : BitVec 16)
  deriving DecidableEq, Repr

/-- The commands of the block, one constructor per row of spec/opcode_table.json, in the order of the table. -/
inductive Instr where
  /-- CONTROL_TICK (R32): At each control-tick boundary the data plane hands over the window reductions, runs the loop lanes and evaluates every rail's state. -/
  | controlTick (inp : TickInput)
  /-- MANAGEMENT_TICK_BOUNDARY (R35): DM_MTICK increments and every per-management-tick budget restarts. -/
  | managementTickBoundary
  /-- REGISTER_WRITE (R33): A write to a register field without behaviour of its own is stored and takes effect at the next boundary. -/
  | registerWrite (by_ : Agent) (a : Addr) (v : W16)
  /-- HOLDING_LOW_WRITE (R6): A write of a lower word of a holding register is kept in the holding register. -/
  | holdingLowWrite (by_ : Agent) (a : Addr) (v : W16)
  /-- HOLDING_HIGH_WRITE (R6): A write of the highest word stores all words of a holding register together. -/
  | holdingHighWrite (by_ : Agent) (a : Addr) (v : W16)
  /-- LATCHING_READ (R6): A read of the lowest word of a latching register latches the other words into a snapshot. -/
  | latchingRead (by_ : Agent) (a : Addr)
  /-- TICK_READ (R34): A read of DM_TICKLO word 0 returns TICK[15:0] and latches TICK[63:16]. -/
  | tickRead (by_ : Agent)
  /-- REDUCTION_READ (R49): A read of a MEAN register latches the window's LAST, MIN, MAX and WREF. -/
  | reductionRead (by_ : Agent) (ch : SenseChannel)
  /-- JTAG_DEBUG_READ (R9): A JTAG debug read uses its own snapshot and clears no RC field. -/
  | jtagDebugRead (a : Addr)
  /-- RC_READ (R7): A read of an RC field returns its value and clears it. -/
  | rcRead (by_ : Agent) (a : Addr)
  /-- FCLR (R24): A write of DM_RAILCTL.FCLR clears a latched fault and takes the rail to OFF. -/
  | fclr (r : Rail)
  /-- RSREQ (R24): A write of DM_RAILCTL.RSREQ requests per-rail re-structure. -/
  | rsreq (r : Rail)
  /-- START_TIMEOUT (R24): The start timeout STMO expires before the rail reaches REGULATING and the rail enters FAULT. -/
  | startTimeout (r : Rail)
  /-- STOP_DELAY_EXPIRY (R24): The stop delay PDLY elapses and the rail goes to RAMP_DOWN. -/
  | stopDelayExpiry (r : Rail)
  /-- START_DELAY_EXPIRY (R27): The start delay SDLY elapses after the last predecessor PGOOD and the predecessors are satisfied. -/
  | startDelayExpiry (r : Rail)
  /-- OFF_DWELL_EXPIRY (R24): A rail has been 16,000 ticks in OFF and may start. -/
  | offDwellExpiry (r : Rail)
  /-- EN_FILTER_ACCEPT (R26): ENn has been stable for ENFILT times 8 ticks and the filtered level changes. -/
  | enFilterAccept (r : Rail)
  /-- EN_STUCK_TIMEOUT (R26): ENn has gone 1 ms without an accepted level and ENSTUCK is set. -/
  | enStuckTimeout (r : Rail)
  /-- PGOOD_ASSERT (R31): After 16 consecutive in-window ticks in REGULATING PGOODn asserts. -/
  | pgoodAssert (r : Rail)
  /-- PGOOD_DEASSERT (R31): After 4 consecutive out-of-window ticks PGOODn deasserts. -/
  | pgoodDeassert (r : Rail)
  /-- DOMAIN_EXCESS (R21): A domain current exceeds IALLOT for XPERS ticks and DOMX is set. -/
  | domainExcess (d : Domain)
  /-- DEVICE_EXCESS (R21): Device power exceeds PALLOT for 16 ticks and DEVX is set. -/
  | deviceExcess
  /-- AUX_RESULT (R50): An auxiliary channel completes its average and replaces FL_AUXRES. -/
  | auxResult (a : Fin 8) (codes : List (BitVec 12))
  /-- TEMP_SAMPLE (R51): A cluster TMON sample is taken every 128 ticks and replaces FL_CLTEMPc. -/
  | tempSample (c : Cluster) (raw : BitVec 12)
  /-- CHANNEL_STUCK (R53): A channel returns the same code for STKT ticks and its STUCK flag is set. -/
  | channelStuck (ch : SenseChannel)
  /-- VOLTAGE_OPEN_TEST (R55): A scheduled open-sense test window is made on a rail's voltage sense pair. -/
  | voltageOpenTest (r : Rail) (codes : List Int)
  /-- CURRENT_INJECTION_TEST (R56): A scheduled injection test window is made on a non-switching phase input. -/
  | currentInjectionTest (p : Phase) (codes : List Int)
  /-- RIPPLE_WINDOW_END (R56): A ripple window ends and each switching phase's ripple is judged against RIPMIN. -/
  | rippleWindowEnd
  /-- ROTATION_STEP (R60): A write of FL_ROTCTL.STEP starts a rotation step in the target cluster or group. -/
  | rotationStep (g : Fin 18)
  /-- CALIBRATION_DONE (R58): The off-line converter's calibration ends and it is either failed or connected to the target input. -/
  | calibrationDone (g : Fin 18) (good : Bool)
  /-- HANDOVER (R58): The shadow period ends and the calibrated converter takes over the input or the step aborts. -/
  | handover (g : Fin 18)
  /-- CONVERTER_SUBSTITUTION (R61): An in-service converter fails and the healthy off-line converter takes over its input. -/
  | converterSubstitution (ch : SenseChannel)
  /-- DECLARE_CONVERTER_FAILED (R61): A write of FL_SUBCTL.GO declares the converter serving a phase or rail failed. -/
  | declareConverterFailed (idx : Fin 128) (kind : Bool)
  /-- FLUME_STARTUP_CAL (R64): Start-up calibration of every powered converter completes and FL_STATUS.RDY sets. -/
  | flumeStartupCal (slices : List (Nat × Nat)) (convs : List Nat)
  /-- SETPOINT_WRITE (R77): A write of LN_VSET is checked against bounds and admissibility and stored or refused. -/
  | setpointWrite (r : Rail) (v : BitVec 14)
  /-- COMMIT (R84): A write of LN_BANKCTL.COMMIT or a COMMIT turnout event validates and exchanges the coefficient banks. -/
  | commit (r : Rail)
  /-- COPY (R85): A write of LN_BANKCTL.COPY copies the active bank into the inactive bank. -/
  | copy (r : Rail)
  /-- TIMEBASE_WRAP (R93): A rail timebase returns to 0 and applies any new period and SYNCIN correction. -/
  | timebaseWrap (r : Rail)
  /-- CARRIER_START (R94): TB reaches a phase's offset and the phase's carrier cycle starts with its on-edge. -/
  | carrierStart (p : Phase)
  /-- SCHEDULED_EDGE (R91): A scheduled edge (duty or valley off-edge, minimum-time end, inserted pulse) fires at its position. -/
  | scheduledEdge (p : Phase)
  /-- PEAK_COMPARE (R100): A compared current reaches the peak threshold and the off-edge takes the compare path. -/
  | peakCompare (p : Phase) (raw prev : BitVec 12) (at_ : Fin 320)
  /-- VALLEY_COMPARE (R101): A compared current falls to the valley threshold and the on-edge takes the compare path. -/
  | valleyCompare (p : Phase) (raw prev : BitVec 12) (at_ : Fin 320)
  /-- ZERO_CROSSING (R106): A compared value falls to ZCDTH in an off interval and the phase goes to mid-level. -/
  | zeroCrossing (p : Phase) (raw prev : BitVec 12) (at_ : Fin 320)
  /-- SYNCIN_EDGE (R96): A rising SYNCIN edge is measured and tracking rails update their target period. -/
  | syncinEdge (at_ : Fin 320) (width : Nat)
  /-- SYNC_LOSS (R97): No SYNCIN edge arrives within four periods and tracking rails hold their period. -/
  | syncLoss
  /-- PULSE_INSERT (R108): A write of SL_PINS.INS requests an inserted pulse on one phase. -/
  | pulseInsert (p : Phase)
  /-- RAIL_PULSE_INSERT (R108): SL_RINS.ALL or the rail's insertion turnout requests a pulse on every active phase. -/
  | railPulseInsert (r : Rail)
  /-- PHASE_ADD (R110): A write of SL_RADD requests slots to be added at the next boundary. -/
  | phaseAdd (r : Rail) (slots : BitVec 64)
  /-- PHASE_DROP (R110): A write of SL_RDROP requests slots to be dropped at the next boundary. -/
  | phaseDrop (r : Rail) (slots : BitVec 64)
  /-- DROP_HOLD_END (R112): A dropped phase's low hold ends by ZCDTH or after DRPT ticks and it goes to mid-level. -/
  | dropHoldEnd (p : Phase)
  /-- READBACK_CHECK (R114): A PWM pad readback is checked against the commanded level after its settling time. -/
  | readbackCheck (p : Phase) (level : Fin 3)
  /-- DECLARE_GENERATOR_FAILED (R115): A write of SL_CSUB.GO declares a phase's edge generator failed. -/
  | declareGeneratorFailed (c : Cluster) (k : Fin 8)
  /-- INTERPOLATOR_SELFTEST (R116): The interpolator sweep and substitutions complete and SL_STATUS.RDY sets. -/
  | interpolatorSelftest (failed : List (Nat × Nat))
  /-- WEIR_CROSSING (R159): A weir input crosses a threshold and the weir output changes. -/
  | weirCrossing (w : Weir) (nv : Int) (at_ : Fin 320)
  /-- BURST_PHASE_EXIT (R120): A phase's compared value reaches LN_BILIM and it leaves the burst. -/
  | burstPhaseExit (p : Phase) (raw prev : BitVec 12) (at_ : Fin 320)
  /-- BURST_LENGTH_EXPIRY (R121): The BLEN-th boundary after the crossing ends the burst. -/
  | burstLengthExpiry (r : Rail)
  /-- BURST_BUDGET_EXHAUSTED (R121): LN_BUSED reaches LN_BBUDGET and the burst ends. -/
  | burstBudgetExhausted (r : Rail)
  /-- ALL_OFF_LENGTH_EXPIRY (R123): The OFFLEN-th boundary after the crossing ends a transient all-off. -/
  | allOffLengthExpiry (r : Rail)
  /-- WEIR_ENABLE (R160): A weir is enabled and holds INIT or its present output for 2 settling ticks. -/
  | weirEnable (w : Weir)
  /-- WEIR_SETTLE_END (R160): A weir's settling hold ends and it makes its first comparison against the bare thresholds. -/
  | weirSettleEnd (w : Weir) (nv : Int)
  /-- WEIR_FALLBACK_COMPARE (R162): A fall-back mode weir makes its self-timed comparison. -/
  | weirFallbackCompare (w : Weir) (nv : Int)
  /-- OV_PERSISTENCE (R171): The protection weir has been ABOVE for OVPERS ticks and OVPOL is applied. -/
  | ovPersistence (r : Rail)
  /-- UV_PERSISTENCE (R171): The protection weir has been BELOW for UVPERS ticks in REGULATING and UVPOL is applied. -/
  | uvPersistence (r : Rail)
  /-- ROC_PERSISTENCE (R171): Rail current exceeds ROCLIM for ROCPERS windows and ROCPOL is applied. -/
  | rocPersistence (r : Rail)
  /-- PHASE_OC_COUNT (R171): A phase reaches OCCNT consecutive terminated carrier cycles and PHOCPOL is applied. -/
  | phaseOcCount (p : Phase)
  /-- LOOP_SATURATION (R171): The CMDHI condition holds for LSATPERS ticks and LSATPOL is applied. -/
  | loopSaturation (r : Rail)
  /-- TFLT_ACTIVE (R168): TFLTn becomes filtered-active and the cluster's phases go to mid-level under TFPOL. -/
  | tfltActive (c : Cluster)
  /-- TFLT_INACTIVE (R168): TFLTn becomes filtered-inactive after TFFILT inactive samples. -/
  | tfltInactive (c : Cluster)
  /-- TFLT_CHATTER (R168): Eight raw changes without a filtered change make the filtered level active and set TFCHAT. -/
  | tfltChatter (c : Cluster)
  /-- TFLT_STUCK (R169): TFLTn stays active for TFTMO times 256 ticks and the stuck policy applies. -/
  | tfltStuck (c : Cluster)
  /-- RETRY_EXPIRY (R174): The retry delay after a FAULT entry elapses and the rail returns to OFF if retries remain. -/
  | retryExpiry (r : Rail)
  /-- AUX_FAULT_CLEAR (R174): An auxiliary weir has been INSIDE for RTDLY times 16,000 ticks and a code 6 fault leaves FAULT. -/
  | auxFaultClear (r : Rail)
  /-- RETRY_RESTORE (R174): A rail REGULATING through 160 management-tick boundaries has RLEFT restored. -/
  | retryRestore (r : Rail)
  /-- WEIR_SUBSTITUTION (R178): A failed weir is replaced by a spare weir, or its loss is acted on. -/
  | weirSubstitution (w : Weir)
  /-- DECLARE_WEIR_FAILED (R179): A write of WP_SUB.GO declares a weir failed. -/
  | declareWeirFailed (w : Weir)
  /-- WEIR_SELFTEST (R179): Weir self-test and substitutions complete and WP_STATUS.RDY sets. -/
  | weirSelftest (failed : List Nat)
  /-- SHED_DWELL_EXPIRY (R187): The drop test has held for SHDWELL ticks and one phase is dropped. -/
  | shedDwellExpiry (r : Rail)
  /-- COUNT_LOCK (R185): A write of PH_CTRL.LOCK locks the wear counts. -/
  | countLock
  /-- SNAP (R195): A write of PH_CTRL.SNAP starts assembly of the spare-use summary. -/
  | snap
  /-- SUMMARY_DONE (R195): The spare-use summary assembly completes and SUMBUSY clears. -/
  | summaryDone
  /-- RETIRE (R188): A write of PH_PCTL.RETIRE retires or restores the retirement of a phase. -/
  | retire (p : Phase) (rcin : BitVec 4)
  /-- UNRET (R189): A write of PH_PCTL.UNRET clears a phase's retirement on a stopped rail. -/
  | unret (p : Phase)
  /-- PROBE_WAIT_END (R193): TFLTn has been inactive for 16 ticks and the next probed phase is returned to service. -/
  | probeWaitEnd (c : Cluster)
  /-- PROBE_WATCH_END (R193): A probed phase passes its PRBT watch and the probe moves on or ends. -/
  | probeWatchEnd (c : Cluster)
  /-- EV_PUB (R205): A write of EV_PUB publishes on a channel subject to ownership. -/
  | evPub (k : CoreId) (ch : Channel)
  /-- EV_PROXYPUB (R205): A supervisor write of EV_PROXYPUB publishes for the host on a proxy-owned channel. -/
  | evProxypub (k : CoreId) (ch : Channel)
  /-- EV_UPUB (R205): A write of EV_UPUB publishes from MC user code on a non-secure MC channel. -/
  | evUpub (k : CoreId) (ch : Channel)
  /-- TURNOUT_DELIVERY (R199): An event synchronised at a turnout executes the block's task. -/
  | turnoutDelivery (t : Turnout) (more : Fin 16) (sub : Fin 20)
  /-- STORM_REARM (R211): A write of 1 to an EV_TRIP bit re-arms the channel. -/
  | stormRearm (ch : Channel)
  /-- CHANNEL_LOCK (R208): A write of EV_LOCK locks a channel's settings until reset. -/
  | channelLock (ch : Channel)
  /-- TURNOUT_CONFIG (R207): A write of EV_TOCFG changes a turnout's channel under security and lock checks. -/
  | turnoutConfig (k : CoreId) (t : Turnout) (ch : Channel) (en : Bool)
  /-- CAPTURE (R213): An event on a CAP turnout records its arrival time. -/
  | capture (u : Timer) (sub : Fin 20)
  /-- CAPTURE_RELEASE (R213): A write of 1 to CT_STAT.CAPV releases the capture register. -/
  | captureRelease (u : Timer)
  /-- COMPARE_START (R214): An event on a START turnout arms the compare at its arrival tick plus CT_DLY. -/
  | compareStart (u : Timer)
  /-- COMPARE_MATCH (R214): A capture timer reaches its compare tick, publishes on OUTCH and re-arms or disarms. -/
  | compareMatch (u : Timer)
  /-- PAIRED_WORD (R245): A paired word executes two short register operations in one cycle. -/
  | pairedWord (k : CoreId) (w : BitVec 15)
  /-- NOP (R248): No operation. -/
  | nop (k : CoreId)
  /-- BAR (R235): Barrier waits for long operations and the store buffer to drain. -/
  | bar (k : CoreId)
  /-- FENCEI (R241): Instruction fence drains stores and empties fetch queue, loop buffer and instruction cache. -/
  | fencei (k : CoreId)
  /-- WFE (R264): Wait for event tests and clears the core's event latch or waits for it. -/
  | wfe (k : CoreId)
  /-- WFE_WAKE (R264): The event latch of a waiting core is set and its WFE completes. -/
  | wfeWake (k : CoreId)
  /-- GRET (R285): Return from a gate restores pc and privilege after the record check. -/
  | gret (k : CoreId)
  /-- RETI (R282): Return from exception restores the saved context, ending an interrupt's service. -/
  | reti (k : CoreId)
  /-- HALT (R267): Completes older instructions, drains stores and stops the core. -/
  | halt (k : CoreId)
  /-- SEV (R265): Publishes on an immediate channel. -/
  | sev (k : CoreId) (ch : Channel)
  /-- SEV_REG (R265): Publishes on the channel held in dn[5:0]. -/
  | sevReg (k : CoreId) (n : Fin 8)
  /-- WAITU (R266): Waits until tkl reaches the target held in dn. -/
  | waitu (k : CoreId) (n : Fin 8)
  /-- WAITU_DONE (R266): tkl reaches the target and a waiting WAITU completes. -/
  | waituDone (k : CoreId)
  /-- TRAP (R267): Raises the software-trap exception k. -/
  | trap (k : CoreId) (n : Fin 16)
  /-- GATE (R283): Calls through a gate descriptor with argument checks and raises privilege. -/
  | gate (k : CoreId) (g : BitVec 8)
  /-- MOV (R249): d = s. -/
  | mov (k : CoreId) (d r : Fin 8)
  /-- ADD (R249): d = d + s. -/
  | add (k : CoreId) (d r : Fin 8)
  /-- ADC (R249): d = d + s + C. -/
  | adc (k : CoreId) (d r : Fin 8)
  /-- SUB (R249): d = d − s. -/
  | sub (k : CoreId) (d r : Fin 8)
  /-- SBC (R249): d = d − s − (1 − C). -/
  | sbc (k : CoreId) (d r : Fin 8)
  /-- AND (R249): d = d AND s. -/
  | andReg (k : CoreId) (d r : Fin 8)
  /-- OR (R249): d = d OR s. -/
  | orReg (k : CoreId) (d r : Fin 8)
  /-- XOR (R249): d = d XOR s. -/
  | xorReg (k : CoreId) (d r : Fin 8)
  /-- CMP (R249): Sets flags from d − s. -/
  | cmp (k : CoreId) (d r : Fin 8)
  /-- TST (R249): Sets flags from d AND s. -/
  | tst (k : CoreId) (d r : Fin 8)
  /-- ADDS (R249): Signed saturating addition. -/
  | adds (k : CoreId) (d r : Fin 8)
  /-- SUBS (R249): Signed saturating subtraction. -/
  | subs (k : CoreId) (d r : Fin 8)
  /-- NEG (R249): d = 0 − s. -/
  | neg (k : CoreId) (d r : Fin 8)
  /-- NOT (R249): d = NOT s. -/
  | notReg (k : CoreId) (d r : Fin 8)
  /-- ABS (R249): d = |s|. -/
  | abs (k : CoreId) (d r : Fin 8)
  /-- MIN (R249): Signed minimum. -/
  | minReg (k : CoreId) (d r : Fin 8)
  /-- MAX (R249): Signed maximum. -/
  | maxReg (k : CoreId) (d r : Fin 8)
  /-- MINU (R249): Unsigned minimum. -/
  | minu (k : CoreId) (d r : Fin 8)
  /-- MAXU (R249): Unsigned maximum. -/
  | maxu (k : CoreId) (d r : Fin 8)
  /-- SWAPB (R249): Swaps the bytes of s into d. -/
  | swapb (k : CoreId) (d r : Fin 8)
  /-- MFS (R250): Reads a special register into d. -/
  | mfs (k : CoreId) (d x : Fin 8)
  /-- MTS (R250): Writes d to a special register. -/
  | mts (k : CoreId) (x d : Fin 8)
  /-- MFA (R250): Reads an accumulator part into d. -/
  | mfa (k : CoreId) (d y : Fin 8)
  /-- MTA (R250): Writes d to an accumulator part. -/
  | mta (k : CoreId) (y d : Fin 8)
  /-- MOVQ (R251): d = zext(u4). -/
  | movq (k : CoreId) (d : Fin 8) (u : BitVec 4)
  /-- ADDQ (R251): d = d + u4. -/
  | addq (k : CoreId) (d : Fin 8) (u : BitVec 4)
  /-- SUBQ (R251): d = d − u4. -/
  | subq (k : CoreId) (d : Fin 8) (u : BitVec 4)
  /-- CMPQ (R251): Sets flags from d − u4. -/
  | cmpq (k : CoreId) (d : Fin 8) (u : BitVec 4)
  /-- MOVN (R251): d = sext(s4). -/
  | movn (k : CoreId) (d : Fin 8) (u : BitVec 4)
  /-- ADDSQ (R251): d = sat16(d + u4). -/
  | addsq (k : CoreId) (d : Fin 8) (u : BitVec 4)
  /-- SUBSQ (R251): d = sat16(d − u4). -/
  | subsq (k : CoreId) (d : Fin 8) (u : BitVec 4)
  /-- MOV_IMM (R251): Major 3 move of imm16 into d. -/
  | movImm (k : CoreId) (d : Fin 8) (v : W16)
  /-- ADD_IMM (R251): Major 3 addition of imm16. -/
  | addImm (k : CoreId) (d : Fin 8) (v : W16)
  /-- ADC_IMM (R251): Major 3 addition of imm16 with carry. -/
  | adcImm (k : CoreId) (d : Fin 8) (v : W16)
  /-- SUB_IMM (R251): Major 3 subtraction of imm16. -/
  | subImm (k : CoreId) (d : Fin 8) (v : W16)
  /-- SBC_IMM (R251): Major 3 subtraction of imm16 with borrow. -/
  | sbcImm (k : CoreId) (d : Fin 8) (v : W16)
  /-- AND_IMM (R251): Major 3 AND with imm16. -/
  | andImm (k : CoreId) (d : Fin 8) (v : W16)
  /-- OR_IMM (R251): Major 3 OR with imm16. -/
  | orImm (k : CoreId) (d : Fin 8) (v : W16)
  /-- XOR_IMM (R251): Major 3 XOR with imm16. -/
  | xorImm (k : CoreId) (d : Fin 8) (v : W16)
  /-- CMP_IMM (R251): Major 3 compare with imm16. -/
  | cmpImm (k : CoreId) (d : Fin 8) (v : W16)
  /-- TST_IMM (R251): Major 3 test with imm16. -/
  | tstImm (k : CoreId) (d : Fin 8) (v : W16)
  /-- ADDS_IMM (R251): Major 3 saturating addition of imm16. -/
  | addsImm (k : CoreId) (d : Fin 8) (v : W16)
  /-- SUBS_IMM (R251): Major 3 saturating subtraction of imm16. -/
  | subsImm (k : CoreId) (d : Fin 8) (v : W16)
  /-- MIN_IMM (R251): Major 3 signed minimum with imm16. -/
  | minImm (k : CoreId) (d : Fin 8) (v : W16)
  /-- MAX_IMM (R251): Major 3 signed maximum with imm16. -/
  | maxImm (k : CoreId) (d : Fin 8) (v : W16)
  /-- MINU_IMM (R251): Major 3 unsigned minimum with imm16. -/
  | minuImm (k : CoreId) (d : Fin 8) (v : W16)
  /-- MAXU_IMM (R251): Major 3 unsigned maximum with imm16. -/
  | maxuImm (k : CoreId) (d : Fin 8) (v : W16)
  /-- ASR (R252): Arithmetic right shift by an immediate count. -/
  | asr (k : CoreId) (d : Fin 8) (n : Fin 16)
  /-- ASR_REG (R252): Arithmetic right shift by the value of s. -/
  | asrReg (k : CoreId) (d r : Fin 8)
  /-- LSR (R252): Logical right shift by an immediate count. -/
  | lsr (k : CoreId) (d : Fin 8) (n : Fin 16)
  /-- LSR_REG (R252): Logical right shift by the value of s. -/
  | lsrReg (k : CoreId) (d r : Fin 8)
  /-- SHL (R252): Left shift by an immediate count. -/
  | shl (k : CoreId) (d : Fin 8) (n : Fin 16)
  /-- SHL_REG (R252): Left shift by the value of s. -/
  | shlReg (k : CoreId) (d r : Fin 8)
  /-- ROR (R252): Rotate right by an immediate count. -/
  | ror (k : CoreId) (d : Fin 8) (n : Fin 16)
  /-- ROR_REG (R252): Rotate right by the value of s. -/
  | rorReg (k : CoreId) (d r : Fin 8)
  /-- ROL (R252): Rotate left by an immediate count. -/
  | rol (k : CoreId) (d : Fin 8) (n : Fin 16)
  /-- ROL_REG (R252): Rotate left by the value of s. -/
  | rolReg (k : CoreId) (d r : Fin 8)
  /-- BSET (R252): Sets bit b of d. -/
  | bset (k : CoreId) (d : Fin 8) (b : Fin 16)
  /-- BCLR (R252): Clears bit b of d. -/
  | bclr (k : CoreId) (d : Fin 8) (b : Fin 16)
  /-- BTGL (R252): Toggles bit b of d. -/
  | btgl (k : CoreId) (d : Fin 8) (b : Fin 16)
  /-- BTST (R252): Tests bit b of d. -/
  | btst (k : CoreId) (d : Fin 8) (b : Fin 16)
  /-- CLZ (R252): Counts the leading zeros of s. -/
  | clz (k : CoreId) (d r : Fin 8)
  /-- SHLS (R252): Signed saturating left shift. -/
  | shls (k : CoreId) (d : Fin 8) (n : Fin 16)
  /-- MPY (R253): Signed multiply into an accumulator. -/
  | mpy (k : CoreId) (a : Fin 2) (x y : Fin 8)
  /-- MPYU (R253): Unsigned multiply into an accumulator. -/
  | mpyu (k : CoreId) (a : Fin 2) (x y : Fin 8)
  /-- MPYSU (R253): Signed by unsigned multiply into an accumulator. -/
  | mpysu (k : CoreId) (a : Fin 2) (x y : Fin 8)
  /-- MAC (R253): Multiply-accumulate, wrapping at 40 bits. -/
  | mac (k : CoreId) (a : Fin 2) (x y : Fin 8)
  /-- MSU (R253): Multiply-subtract, wrapping. -/
  | msu (k : CoreId) (a : Fin 2) (x y : Fin 8)
  /-- MACS (R253): Saturating multiply-accumulate. -/
  | macs (k : CoreId) (a : Fin 2) (x y : Fin 8)
  /-- MPYF (R253): Fractional Q1.15 multiply. -/
  | mpyf (k : CoreId) (a : Fin 2) (x y : Fin 8)
  /-- MACF (R253): Fractional saturating multiply-accumulate. -/
  | macf (k : CoreId) (a : Fin 2) (x y : Fin 8)
  /-- MACL (R253): Long 32 by 16 multiply-accumulate, a long operation. -/
  | macl (k : CoreId) (a : Fin 2) (x z : Fin 8)
  /-- MPYL (R253): Long 32 by 16 multiply, a long operation. -/
  | mpyl (k : CoreId) (a : Fin 2) (x z : Fin 8)
  /-- MSUL (R253): Long 32 by 16 multiply-subtract, a long operation. -/
  | msul (k : CoreId) (a : Fin 2) (x z : Fin 8)
  /-- CLRA (R253): Clears an accumulator. -/
  | clra (k : CoreId) (a : Fin 2)
  /-- NEGA (R253): Negates an accumulator with saturation. -/
  | nega (k : CoreId) (a : Fin 2)
  /-- RNDA (R253): Rounds an accumulator to bit 16. -/
  | rnda (k : CoreId) (a : Fin 2)
  /-- SAT32 (R253): Limits an accumulator to 32 signed bits. -/
  | sat32 (k : CoreId) (a : Fin 2)
  /-- MOVA (R253): Copies the other accumulator. -/
  | mova (k : CoreId) (a : Fin 2)
  /-- ADDA (R253): Adds the other accumulator with saturation. -/
  | adda (k : CoreId) (a : Fin 2)
  /-- SUBA (R253): Subtracts the other accumulator with saturation. -/
  | suba (k : CoreId) (a : Fin 2)
  /-- ASRA (R253): Arithmetic right shift of an accumulator. -/
  | asra (k : CoreId) (a : Fin 2) (n : Fin 64)
  /-- SHLA (R253): Saturating left shift of an accumulator. -/
  | shla (k : CoreId) (a : Fin 2) (n : Fin 64)
  /-- STSAT (R253): Stores the saturated high half of an accumulator into dn. -/
  | stsat (k : CoreId) (d : Fin 8) (a : Fin 2)
  /-- DIVS (R255): Signed divide, a long operation of 18 cycles. -/
  | divs (k : CoreId) (q r n : Fin 8)
  /-- DIVU (R255): Unsigned divide, a long operation of 18 cycles. -/
  | divu (k : CoreId) (q r n : Fin 8)
  /-- LONG_OP_RETIRE (R234): A divide or long MAC retires and writes its destination, V and sticky bits. -/
  | longOpRetire (k : CoreId) (div : Bool)
  /-- LD (R256): Loads a word into dn. -/
  | ld (k : CoreId) (d : Fin 8) (m : AddrMode)
  /-- ST (R256): Stores dn into the store buffer or own TCM. -/
  | st (k : CoreId) (d : Fin 8) (m : AddrMode)
  /-- LD_DPAIR (R257): Loads 32 bits into a d register pair. -/
  | ldDpair (k : CoreId) (n : Fin 8) (m : PairMode)
  /-- ST_DPAIR (R257): Stores a d register pair as 32 bits. -/
  | stDpair (k : CoreId) (n : Fin 8) (m : PairMode)
  /-- LD_PREG (R257): Loads a 24-bit p register from 32 bits. -/
  | ldPreg (k : CoreId) (n : Fin 8) (m : PairMode)
  /-- ST_PREG (R257): Stores a p register as 32 bits. -/
  | stPreg (k : CoreId) (n : Fin 8) (m : PairMode)
  /-- LD_ACC (R257): Loads an accumulator from 32 bits, sign-extended. -/
  | ldAcc (k : CoreId) (n : Fin 8) (m : PairMode)
  /-- ST_ACC (R257): Stores the low 32 bits of an accumulator. -/
  | stAcc (k : CoreId) (n : Fin 8) (m : PairMode)
  /-- STORE_BUFFER_DRAIN (R237): A buffered store drains to its target. -/
  | storeBufferDrain (k : CoreId)
  /-- MOVP (R258): pn = zext(imm16). -/
  | movp (k : CoreId) (n : Fin 8) (v : W16)
  /-- MOVPH (R258): pn = imm16 × 0x100. -/
  | movph (k : CoreId) (n : Fin 8) (v : W16)
  /-- ADDP (R258): pn = pn + sext(s16). -/
  | addp (k : CoreId) (n : Fin 8) (o : BitVec 16)
  /-- ADDP_S5 (R258): pn = pn + sext(s5). -/
  | addpS5 (k : CoreId) (n : Fin 8) (o : BitVec 5)
  /-- MOVP_P (R258): pn = pm. -/
  | movpP (k : CoreId) (n m : Fin 8)
  /-- ADDP_D (R258): pn = pn + sext(dm). -/
  | addpD (k : CoreId) (n d : Fin 8)
  /-- MOVP_D (R258): pn = zext(dm). -/
  | movpD (k : CoreId) (n d : Fin 8)
  /-- CMPP (R258): Sets flags from pn − pm. -/
  | cmpp (k : CoreId) (n m : Fin 8)
  /-- MOV_DP (R258): dm = pn[15:0]. -/
  | movDp (k : CoreId) (d n : Fin 8)
  /-- MOVDH (R258): dm = zext(pn[23:16]). -/
  | movdh (k : CoreId) (d n : Fin 8)
  /-- MOVPH_D (R258): pn[23:16] = dm[7:0]. -/
  | movphD (k : CoreId) (n d : Fin 8)
  /-- LEA (R258): pn = pc-relative address. -/
  | lea (k : CoreId) (n : Fin 8) (o : BitVec 16)
  /-- BCC (R260): Short conditional relative branch. -/
  | bcc (k : CoreId) (c : Fin 8) (o : BitVec 8)
  /-- BCC_L (R260): Long conditional relative branch. -/
  | bccL (k : CoreId) (c : Fin 16) (o : BitVec 16)
  /-- BRA (R260): Unconditional relative branch. -/
  | bra (k : CoreId) (o : BitVec 8)
  /-- JMP (R260): Absolute jump. -/
  | jmp (k : CoreId) (a : BitVec 24)
  /-- JMP_IND (R260): Jump to the address in pn. -/
  | jmpInd (k : CoreId) (n : Fin 8)
  /-- CALL (R260): Absolute call pushing the return address. -/
  | call (k : CoreId) (a : BitVec 24)
  /-- CALL_IND (R260): Call to the address in pn. -/
  | callInd (k : CoreId) (n : Fin 8)
  /-- RET (R260): Pops the return address into pc. -/
  | ret (k : CoreId)
  /-- REP (R262): Repeats the following instruction rc or k times. -/
  | rep (k : CoreId) (n : Option (Fin 512)) (ok : Bool)
  /-- LOOP (R263): Sets up a hardware loop over a body. -/
  | loop (k : CoreId) (n : Sum (Fin 512) (Fin 8)) (len : BitVec 16)
  /-- MOVB (R270): Block move with overlap-safe semantics. -/
  | movb (k : CoreId) (pd ps : Fin 8) (c : Fin 4)
  /-- FILB (R269): Block fill. -/
  | filb (k : CoreId) (pd : Fin 8) (v : Fin 8) (c : Fin 4)
  /-- CRCB (R271): Folds a block of words into a CRC accumulator. -/
  | crcb (k : CoreId) (ps : Fin 8) (a : Fin 2) (c : Fin 4) (w : Fin 4)
  /-- CUSTOM_INSTRUCTION (R272): A major-15 word runs microcode from its decode entry until END commits. -/
  | customInstruction (k : CoreId) (e : Fin 32) (op : BitVec 6)
  /-- LDPT (R289): Reads a page-table entry during refill. -/
  | ldpt (k : CoreId) (n : Fin 4) (lvl : Fin 4) (m : Fin 4)
  /-- TLBWR (R291): Writes a TLB entry from the walk result. -/
  | tlbwr (k : CoreId) (n : Fin 4) (sz : Fin 4)
  /-- TLBINV_ALL (R291): Invalidates every TLB entry. -/
  | tlbinvAll (k : CoreId)
  /-- TLBINV_ASID (R291): Invalidates the non-global entries of an ASID. -/
  | tlbinvAsid (k : CoreId) (n : Fin 8)
  /-- TLBINV_VA (R291): Invalidates the entries matching a VA. -/
  | tlbinvVa (k : CoreId) (n : Fin 8)
  /-- TLBOP (R298): A write of XC_TLBOP reads or writes TLB entry TLBIDX. -/
  | tlbop (by_ : Agent) (rd wr : Bool)
  /-- ASID_WRITE (R292): A write of XC_ASID changes the ASID and with FLUSH clears non-global entries. -/
  | asidWrite (by_ : Agent) (asid : BitVec 8) (flush : Bool)
  /-- XC_LOCK (R296): A write of XC_CTRL.LOCK locks a core window's RW/L fields. -/
  | xcLock (by_ : Agent) (k : CoreId)
  /-- MICROWORD_WRITE (R310): A store of UC_MW's high word writes a microword to every WCS copy, subject to checks. -/
  | microwordWrite (by_ : Agent) (m : Fin 1024) (w : BitVec 64)
  /-- DECODE_ENTRY_WRITE (R311): A write of UC_DECe changes a decode entry in every core. -/
  | decodeEntryWrite (by_ : Agent) (e : Fin 32) (v : W16)
  /-- DECODE_ENTRY_TAKEN (R311): A core takes a pending decode-entry write at its next boundary and EPEND clears when all have. -/
  | decodeEntryTaken (k : CoreId)
  /-- VLOCK (R310): A write of UC_CTRL.VLOCK locks the vendor pages and entries. -/
  | vlock (by_ : Agent)
  /-- INTERRUPT_ASSERT (R316): A source asserts or gives an edge and becomes pending. -/
  | interruptAssert (n : Source)
  /-- SPEND (R317): A write of IR_SRCST.SPEND makes a source soft-pending. -/
  | spend (k : CoreId) (n : Source)
  /-- CLR (R317): A write of IR_SRCCLR.CLR clears soft-pending state and a latched edge. -/
  | clr (k : CoreId) (n : Source)
  /-- RETARGET (R324): A write of IR_SRCCFG.TGT moves a source to a new target. -/
  | retarget (k : CoreId) (n : Source) (t : Fin 8)
  /-- INTERRUPT_ENTRY (R319): A core takes the presented request at a boundary and claims it in the vector cycle. -/
  | interruptEntry (k : CoreId)
  /-- RATE_LIMIT_WINDOW_END (R323): A source's rate-limit window ends and it competes again. -/
  | rateLimitWindowEnd (n : Source)
  /-- STRAND_TIMEOUT (R326): A source pending for an unavailable target for STRTMO strands to the MC. -/
  | strandTimeout (n : Source)
  /-- MISMATCH_FREEZE (R333): A lock-step mismatch freezes the pair and starts LBIST. -/
  | mismatchFreeze (k : CoreId) (g : Fin 6)
  /-- LBIST_DONE (R334): LBIST completes and sets the pair's state. -/
  | lbistDone (k : CoreId) (primary checker : Bool)
  /-- TAKEOVER_RELEASE (R336): TC4 is released at the frozen core's start address 64 cycles after the freeze. -/
  | takeoverRelease (k : CoreId)
  /-- DONE (R336): A write of LS_TKOVER.DONE ends the takeover. -/
  | done (k : CoreId)
  /-- DEBUG_HALT (R339): A JTAG debug halt splits the pair. -/
  | debugHalt (k : CoreId)
  /-- ROW_REPAIR (R344): An SRAM row with 4 corrected errors is copied into a repair row. -/
  | rowRepair (m : Fin 7) (row : Fin 2048)
  /-- ROW_REPAIR_DONE (R344): A run-time row repair copy completes and the row is switched. -/
  | rowRepairDone (m : Fin 7) (bad : List (Fin 512))
  /-- TRAINING_DONE (R345): DDR4 training completes with RDY or TRAINERR. -/
  | trainingDone (good : Bool)
  /-- REFRESH (R345): A periodic DDR4 refresh is issued. -/
  | refresh
  /-- ZQCS (R345): A periodic ZQ short calibration runs every 128 ms. -/
  | zqcs
  /-- PAGE_RETIRE (R348): A DDR4 page is retired and remapped into the spare pool or listed. -/
  | pageRetire (a : BitVec 31) (unc : Bool)
  /-- PAGE_RETIRE_DONE (R349): A retirement copy completes and the page's addresses reach the pool page. -/
  | pageRetireDone (bad : List (Fin 1024))
  /-- RETADD (R348): A write of D4_RETADD restores or declares a page retirement. -/
  | retadd (pg : BitVec 20)
  /-- DDR_LOCK (R348): A write of D4_CTRL.LOCK switches RETADD from restoring to declaring. -/
  | ddrLock
  /-- DMA_TRIGGER (R354): TRIG or a DMA turnout event starts a burst or list, or counts as pending. -/
  | dmaTrigger (by_ : Agent) (c : DmaCh)
  /-- DMA_WORD (R352): A DMA channel copies one word in its round-robin turn. -/
  | dmaWord (c : DmaCh)
  /-- DMA_DESCRIPTOR (R355): A scatter-gather channel reads and checks its next descriptor. -/
  | dmaDescriptor (c : DmaCh)
  /-- DMA_RETRY (R357): A failed DMA access is retried 16 core cycles later, halting after the last retry. -/
  | dmaRetry (c : DmaCh)
  /-- RESUME (R357): A write of DMA_CTL.RESUME continues a halted channel at the failed word. -/
  | resume (by_ : Agent) (c : DmaCh)
  /-- ABORT (R357): A write of DMA_CTL.ABORT ends the channel's transfer. -/
  | abort (by_ : Agent) (c : DmaCh)
  /-- RECORD_WRITE (R362): A queued record is written to the ring in DDR4. -/
  | recordWrite
  /-- RING_FROZEN (R364): FRZPOST further records are written and the ring stops. -/
  | ringFrozen
  /-- FRZNOW (R364): A write of RC_CTRL.FRZNOW freezes the ring now. -/
  | frznow
  /-- RC_RESUME (R364): A write of RC_CTRL.RESUME unfreezes the ring. -/
  | rcResume
  /-- STGARM (R363): A write of RC_CTRL.STGARM arms the staging window. -/
  | stgarm
  /-- TRIG (R363): A write of RC_CTRL.TRIG triggers the staging window. -/
  | trig
  /-- STAGING_WINDOW_DONE (R363): The staging window takes its last record after the trigger and WINV sets. -/
  | stagingWindowDone
  /-- MSGGO (R366): A write of RC_MSGGO generates a message record. -/
  | msggo (by_ : CoreId) (k : CoreId)
  /-- BLOCK_LOCK_GAINED (R130): A demand lane gains block lock in TRAIN and goes to ACQUIRE. -/
  | blockLockGained (d : Domain)
  /-- BLOCK_LOCK_LOST (R133): A demand lane loses block lock and returns to TRAIN. -/
  | blockLockLost (d : Domain)
  /-- LANE_ENABLE (R130): A write of DL_CTRL.EN trains or powers down a lane. -/
  | laneEnable (d : Domain)
  /-- HELLO (R131): A HELLO flit sets or updates the lane's epoch and RXSEQ. -/
  | hello (d : Domain) (f : BitVec 128)
  /-- FORECAST (R141): A FORECAST announcement is posted and admitted under R19. -/
  | forecast (d : Domain) (f : BitVec 128) (ago cyc : Fin 4)
  /-- GRANT_REQUEST (R144): A FORECAST with ASK = 1 is granted at once or held for a tick-core decision. -/
  | grantRequest (d : Domain) (f : BitVec 128) (ago cyc : Fin 4)
  /-- FORECAST_CANCEL (R151): A FORECAST with CANCEL = 1 unwinds or frees the named slot. -/
  | forecastCancel (d : Domain) (f : BitVec 128)
  /-- ACTIVITY (R135): An ACTIVITY body is stored and its event published. -/
  | activity (d : Domain) (f : BitVec 128)
  /-- SETREQ (R136): A SETREQ writes a rail's LN_VSET. -/
  | setreq (d : Domain) (f : BitVec 128)
  /-- FLIT_CRC_ERROR (R128): A flit with a bad CRC is discarded and counted. -/
  | flitCrcError (d : Domain) (f : BitVec 128)
  /-- RESERVED_FLIT (R129): A flit of a reserved or device-to-load type is discarded with BADMSG. -/
  | reservedFlit (d : Domain) (f : BitVec 128)
  /-- KEEPALIVE_TIMEOUT (R133): No flit is accepted for KATMO times 256 ticks and the lane is lost. -/
  | keepaliveTimeout (d : Domain)
  /-- HELLO_TRANSMIT (R130): In ACQUIRE a HELLO is sent every 256 ticks. -/
  | helloTransmit (d : Domain)
  /-- TELEM_TRANSMIT (R139): A TELEM is queued every TPER ticks. -/
  | telemTransmit (d : Domain)
  /-- FLIT_TRANSMIT (R139): The lane sends the next queued flit. -/
  | flitTransmit (d : Domain)
  /-- RAMP_START (R146): A slot reaches its tick s and enters RAMP. -/
  | rampStart (d : Domain) (k : Fin 8)
  /-- HOLD_START (R146): A slot reaches its tick e and enters HOLD. -/
  | holdStart (d : Domain) (k : Fin 8)
  /-- FORECAST_MET (R148): The load estimate meets the forecast and its contribution moves into the integrator. -/
  | forecastMet (d : Domain) (k : Fin 8)
  /-- FORECAST_MISSED (R149): A forecast is missed and its slot unwinds. -/
  | forecastMissed (d : Domain) (k : Fin 8)
  /-- UNWIND_DONE (R151): An unwinding slot's contribution reaches 0 and the slot is freed. -/
  | unwindDone (d : Domain) (k : Fin 8)
  /-- GRANT_TIMEOUT (R144): A slot in GPEND for GTMO ticks is freed with TIMEOUT. -/
  | grantTimeout (d : Domain) (k : Fin 8)
  /-- GRANT (R144): A DD_GRANT high-word write with GO decides the pending grant request. -/
  | grant (d : Domain) (amt : BitVec 22)
  /-- OPEN (R375): The MSPI OPEN message sets the port epoch and discards other epochs. -/
  | openPort (tag : BitVec 8) (epoch : BitVec 4)
  /-- HG_ABORT (R374): The ABORT message removes or disowns a tagged request. -/
  | hgAbort (tag t : BitVec 8)
  /-- TAG_QUIET_END (R374): An aborted tag's 2 ms quiet time ends and the tag is free. -/
  | tagQuietEnd (t : BitVec 8)
  /-- GET_TELEM (R388): Returns a rail's telemetry from the read cache. -/
  | getTelem
  /-- GET_STATUS (R386): Returns a rail's status bytes. -/
  | getStatus
  /-- SET_VOUT (R371): Writes a rail's LN_VSET under R77. -/
  | setVout
  /-- SET_ENABLE (R371): Writes a rail's HOSTEN. -/
  | setEnable
  /-- CLEAR_FAULT (R371): Writes a rail's FCLR. -/
  | clearFault
  /-- SET_SLEW (R371): Writes a rail's slew slopes. -/
  | setSlew
  /-- SET_LIMIT_ILIM (R17): SET_LIMIT of kind 0 writes a rail's ILIM. -/
  | setLimitIlim
  /-- SET_LIMIT_IALLOT (R17): SET_LIMIT of kind 1 writes a domain's IALLOT. -/
  | setLimitIallot
  /-- SET_LIMIT_PALLOT (R17): SET_LIMIT of kind 2 writes the device PALLOT. -/
  | setLimitPallot
  /-- REC_READ (R379): Returns ring records from an index. -/
  | recRead
  /-- REC_CTRL_FRZNOW (R371): REC_CTRL 0 freezes the ring. -/
  | recCtrlFrznow
  /-- REC_CTRL_RESUME (R371): REC_CTRL 1 unfreezes the ring. -/
  | recCtrlResume
  /-- REC_CTRL_STGARM (R371): REC_CTRL 2 arms the staging window. -/
  | recCtrlStgarm
  /-- REC_CTRL_TRIG (R371): REC_CTRL 3 triggers the staging window. -/
  | recCtrlTrig
  /-- STG_READ (R371): Returns staging records from an index. -/
  | stgRead
  /-- EVENT (R371): Publishes an event for the host through EV_PROXYPUB. -/
  | event
  /-- EXEC_TIMEOUT (R370): A message not completed within EXTMO is completed TIMEOUT by hardware. -/
  | execTimeout (p : Port)
  /-- TAKE (R369): A write of HG_XCTL.TAKE takes the next queued message. -/
  | take
  /-- HG_DONE (R369): A write of HG_XCTL.DONE completes the taken message. -/
  | hgDone
  /-- PRST (R376): A write of HG_PCTL.PRST resets a port and advances its epoch. -/
  | prst (p : Port)
  /-- MSPI_WRITE (R378): The MSPI WRITE command takes one request frame. -/
  | mspiWrite (l : List (BitVec 8))
  /-- MSPI_READ (R377): The MSPI READ command sends the oldest completion frame. -/
  | mspiRead (whole : Bool)
  /-- MSPI_STAT (R377): The MSPI STAT command sends slot counts and the epoch. -/
  | mspiStat
  /-- FRAME_TIMEOUT (R378): A frame not complete 100 ms after its first byte is discarded. -/
  | frameTimeout
  /-- SMBUS_TIMEOUT (R381): An SCL-low or unterminated transaction timeout resets the SMBus interface. -/
  | smbusTimeout
  /-- PAGE (R383): PMBus PAGE selects the rail addressed. -/
  | pmbPage (a : PmbAccess)
  /-- OPERATION_OFF (R385): OPERATION 0x00 or 0x40 sends SET_ENABLE 0, clearing a fault first. -/
  | operationOff (a : PmbAccess)
  /-- OPERATION_ON (R385): OPERATION 0x80 sends SET_ENABLE 1 with the nominal setpoint. -/
  | operationOn (a : PmbAccess)
  /-- OPERATION_MARGIN_LOW (R385): OPERATION 0x94 or 0x98 enables at VOUT_MARGIN_LOW. -/
  | operationMarginLow (a : PmbAccess)
  /-- OPERATION_MARGIN_HIGH (R385): OPERATION 0xA4 or 0xA8 enables at VOUT_MARGIN_HIGH. -/
  | operationMarginHigh (a : PmbAccess)
  /-- ON_OFF_CONFIG (R383): Sets the rail's host enable source. -/
  | onOffConfig (a : PmbAccess)
  /-- CLEAR_FAULTS (R385): Clears the page's status copies. -/
  | clearFaults (pec : Fin 3)
  /-- PHASE (R383): Selects a slot for READ_IOUT. -/
  | pmbPhase (a : PmbAccess)
  /-- WRITE_PROTECT (R384): Sets port 0's write protection. -/
  | writeProtect (a : PmbAccess)
  /-- CAPABILITY (R385): Returns 0xD4. -/
  | capability
  /-- VOUT_MODE (R385): Returns 0x40, direct format. -/
  | voutMode
  /-- VOUT_COMMAND (R385): Sends SET_VOUT and sets the nominal setpoint. -/
  | voutCommand (a : PmbAccess)
  /-- VOUT_MAX (R385): Returns the image maximum setpoint. -/
  | voutMax
  /-- VOUT_MARGIN_HIGH (R385): Holds the high margin setpoint. -/
  | voutMarginHigh (a : PmbAccess)
  /-- VOUT_MARGIN_LOW (R385): Holds the low margin setpoint. -/
  | voutMarginLow (a : PmbAccess)
  /-- VOUT_TRANSITION_RATE (R385): Sends SET_SLEW with both slopes from a mV/µs rate. -/
  | voutTransitionRate (a : PmbAccess)
  /-- COEFFICIENTS (R385): Process call returning the direct-format coefficients. -/
  | coefficients (code : BitVec 8)
  /-- IOUT_OC_FAULT_LIMIT (R385): Sends SET_LIMIT of ILIM. -/
  | ioutOcFaultLimit (a : PmbAccess)
  /-- STATUS_BYTE (R386): Returns the low byte of STATUS_WORD. -/
  | statusByte
  /-- STATUS_WORD (R386): Returns the page's status word. -/
  | statusWord
  /-- STATUS_VOUT (R386): Returns the page's VOUT status. -/
  | statusVout
  /-- STATUS_IOUT (R386): Returns the page's IOUT status. -/
  | statusIout
  /-- STATUS_INPUT (R386): Returns the page's input status. -/
  | statusInput
  /-- STATUS_TEMPERATURE (R386): Returns the page's temperature status. -/
  | statusTemperature
  /-- STATUS_CML (R386): Returns the communication status. -/
  | statusCml
  /-- STATUS_MFR_SPECIFIC (R386): Returns the manufacturer status. -/
  | statusMfrSpecific
  /-- READ_VIN (R388): Returns VIN from the read cache. -/
  | readVin
  /-- READ_VOUT (R388): Returns the mean voltage from the read cache. -/
  | readVout
  /-- READ_IOUT (R388): Returns the rail or slot mean current. -/
  | readIout
  /-- READ_TEMPERATURE_1 (R388): Returns the rail's highest cluster temperature. -/
  | readTemperature1
  /-- READ_POUT (R388): Returns the mean power. -/
  | readPout
  /-- PMBUS_REVISION (R385): Returns 0x44. -/
  | pmbusRevision
  /-- MFR_ID (R385): Returns HUATIV. -/
  | mfrId
  /-- MFR_MODEL (R385): Returns VKP-7128. -/
  | mfrModel
  /-- MFR_HG_LAST (R385): Returns the status of the port's last completed message. -/
  | mfrHgLast
  /-- ALERT_RESPONSE (R386): A read of the Alert Response Address is answered without deasserting PMB_ALERT#. -/
  | alertResponse
  /-- PMB_CTRL_CHANGE (R383): A filtered change of PMB_CTRL queues a SET_ENABLE for every rail. -/
  | pmbCtrlChange (level : Bool)
  /-- AVS_VOLTAGE_WRITE (R387): An AVSBus Voltage write queues SET_VOUT. -/
  | avsVoltageWrite (p : Fin 4) (sel : Fin 16) (hold : Bool) (mv : BitVec 16)
  /-- AVS_VOLTAGE_READ (R387): Returns the rail voltage in mV. -/
  | avsVoltageRead (p : Fin 4) (sel : Fin 16)
  /-- AVS_VOUTTRANSRATE_WRITE (R387): An AVSBus VoutTransRate write queues SET_SLEW. -/
  | avsVouttransrateWrite (p : Fin 4) (sel : Fin 16) (hold : Bool) (rise fall : BitVec 8)
  /-- AVS_VOUTTRANSRATE_READ (R387): Returns the rise and fall rates. -/
  | avsVouttransrateRead (p : Fin 4) (sel : Fin 16)
  /-- AVS_CURRENT (R387): Returns the rail current from the read cache. -/
  | avsCurrent (p : Fin 4) (sel : Fin 16)
  /-- AVS_TEMPERATURE (R387): Returns the rail temperature from the read cache. -/
  | avsTemperature (p : Fin 4) (sel : Fin 16)
  /-- AVS_RESETVOLTAGE (R387): Queues SET_VOUT of the image setpoint. -/
  | avsResetvoltage (p : Fin 4) (sel : Fin 16) (hold : Bool)
  /-- AVS_STATUS_READ (R387): Returns VDone and StatusAlert. -/
  | avsStatusRead (p : Fin 4) (sel : Fin 16)
  /-- AVS_STATUS_WRITE (R387): Writing 1 clears StatusAlert. -/
  | avsStatusWrite (p : Fin 4) (sel : Fin 16) (one : Bool)
  /-- AVS_VERSION (R387): Returns 0. -/
  | avsVersion (p : Fin 4) (sel : Fin 16)
  /-- AVS_COMMIT (R387): A commit applies the held AVSBus writes as one message. -/
  | avsCommit (p : Fin 4)
  /-- AVS_CRC_ERROR (R387): A frame with a bad CRC-3 is answered 0b10. -/
  | avsCrcError (p : Fin 4)
  /-- SCRUB_GO (R418): A write of MS_SCRUBCTL.GO scrubs one unit of a memory. -/
  | scrubGo
  /-- SCRUB_DONE (R418): A scrub unit completes and DONE is set. -/
  | scrubDone (ce : Nat) (bad : List Nat)
  /-- IMG_BEGIN (R407): Opens an update and erases the slot not in force. -/
  | imgBegin
  /-- IMG_WRITE (R407): Programs image bytes at the update offset. -/
  | imgWrite
  /-- IMG_VERIFY (R393): Verifies the written image. -/
  | imgVerify
  /-- IMG_ACTIVATE (R407): Makes the verified slot preferred and for firmware requests a warm start. -/
  | imgActivate
  /-- IMG_ACCEPT (R398): Stops a trial and raises the anti-rollback counter. -/
  | imgAccept (failed : List (Fin 128))
  /-- IMG_STATUS (R409): Returns slots, versions, counters and the update offset. -/
  | imgStatus
  /-- RESTRUCTURE (R405): Writes the differing words of a new structure image for masked rails. -/
  | restructure
  /-- IM_SLDATA (R406): A write of IM_SLDATA stores a word at IM_SLADDR for a re-structuring rail. -/
  | imSldata (v : W16)
  /-- IM_RSDONE (R406): A write of IM_RSDONE checks the device and ends re-structure of the masked rails. -/
  | imRsdone (rails : W16)
  /-- ATTEST (R410): Returns a signed attestation report. -/
  | attest
  /-- GET_IDENTITY (R409): Returns the identity public key and certificate. -/
  | getIdentity
  /-- GET_CHALLENGE (R409): Returns a fresh 48-byte challenge. -/
  | getChallenge
  /-- KEY_PROGRAM (R397): Programs the next customer key slot. -/
  | keyProgram
  /-- KEY_REVOKE (R397): Revokes the active customer key slot. -/
  | keyRevoke
  /-- DBG_LOCK (R397): Programs the production debug lock. -/
  | dbgLock
  /-- IMAGE_VERIFIED (R393): The crypto engine completes an image verification with its code. -/
  | imageVerified
  /-- TRIAL_EXPIRY (R396): A firmware trial expires and a management-core reset is requested. -/
  | trialExpiry
  /-- COLD_START (R399): PORST# release runs the start-up steps. -/
  | coldStart (inp : StartInput)
  /-- WARM_START (R399): The ROM runs a warm start after a management-core reset. -/
  | warmStart (times : List Nat)
  /-- GO (R400): A write of IM_CTRL.GO ends start-up and programs the fabric at the next boundary. -/
  | go
  /-- PLL_LOCK (R437): A PLL locks. -/
  | pllLock (p : Fin 6)
  /-- PORST (R439): PORST# assertion gives a cold reset. -/
  | porst
  /-- SUPPLY_RESET (R436): A supply monitor trip acts as PORST#. -/
  | supplyReset (n : Fin 8)
  /-- CLOCK_FAILURE (R438): A lost reference or main PLL lock forces mid-level and a cold reset. -/
  | clockFailure
  /-- DDR_PLL_UNLOCK (R438): The DDR PLL loses lock and DDR4 is treated as failed training. -/
  | ddrPllUnlock
  /-- LANE_PLL_UNLOCK (R438): A lane PLL loses lock and its lanes lose block lock. -/
  | lanePllUnlock (j : Fin 4)
  /-- MCRST (R439): A write of PW_CTRL.MCRST resets the management core. -/
  | mcrst
  /-- TICK_CORE_RUN (R439): A write of PW_TCCTL.RUN releases or holds a tick core. -/
  | tickCoreRun (k : Fin 5) (run : Bool)
  /-- TAP_RESET (R439): TRST# or five TMS-high cycles reset the JTAG TAP. -/
  | tapReset
  /-- WATCHDOG_KICK (R441): A write of 0x00A5 to PW_WDKICK restarts the countdown. -/
  | watchdogKick (v : W16)
  /-- WATCHDOG_EXPIRY (R441): The watchdog expires and raises a management-core reset. -/
  | watchdogExpiry
  /-- SLEEP_REQUEST (R444): A write of PW_CTRL.SLEEP requests STANDBY or DEEP SLEEP. -/
  | sleepRequest (m : Fin 4)
  /-- SLEEP_ENTRY (R444): When the MC's WFE waits, the sleep entry steps run or are undone. -/
  | sleepEntry
  /-- WAKE (R446): A wake source wakes the device from STANDBY or DEEP SLEEP. -/
  | wake (t : BitVec 32)
  /-- RESUME_START (R447): 100 µs after every monitor reads good following a DEEP SLEEP wake, a resume start runs. -/
  | resumeStart (kept : Bool) (times : List Nat)
  /-- EXTEST (R470): JTAG EXTEST drives boundary cells while every rail is stopped. -/
  | extest
  /-- IDCODE (R470): JTAG IDCODE selects the identification register. -/
  | idcode
  /-- SAMPLE_PRELOAD (R470): JTAG SAMPLE/PRELOAD samples and preloads the boundary register. -/
  | samplePreload (cells : BitVec 1024)
  /-- CLAMP (R470): JTAG CLAMP holds outputs with BYPASS selected. -/
  | clamp
  /-- HIGHZ (R470): JTAG HIGHZ places outputs at high impedance. -/
  | highz
  /-- BYPASS (R470): JTAG BYPASS selects the bypass register. -/
  | bypass
  /-- DEBUG_ACCESS (R470): JTAG debug codes 0x10–0x1F reach the cores unless DBGLOCK is set. -/
  | debugAccess (code : Fin 16) (act : DebugAct)
  /-- WAKE_FALLING_EDGE (R478): A falling edge on the WAKE# pin publishes on the channel of hardware publisher 92. -/
  | wakeFallingEdge
  /-- PMBUS_UNSUPPORTED_COMMAND (R382): A PMBus command code outside R385 is NACKed at the command byte and STATUS_CML bit 7 is set. -/
  | pmbusUnsupportedCommand
  /-- SMBUS_MID_BYTE_START_STOP (R381): A repeated START or STOP in the middle of a byte resets the SMBus interface, discards the transaction and increments PARTIAL. -/
  | smbusMidByteStartStop
  /-- MSPI_OTHER_COMMAND_BYTE (R377): An MSPI command byte other than WRITE, READ or STAT is ignored until MSPI_CS# deasserts and FRAMEERR increments. -/
  | mspiOtherCommandByte
  /-- AVS_UNSUPPORTED_DATA_TYPE (R387): An AVSBus frame with another data type or command group 1 is answered 0b11. -/
  | avsUnsupportedDataType (p : Fin 4)
  /-- SIGNING_DONE (R411): The crypto engine completes the identity-key signature of an attestation report, up to 3 ms after it began. -/
  | signingDone
  /-- FLASH_BUSY_END (R430): A boot-flash erase or program through the QSPI controller completes, freeing the controller for the next log or image operation. -/
  | flashBusyEnd
  deriving DecidableEq, Repr

end Sys2Proof
end

