-- ==== Sys2Proof/Decode.lean ====
section
/-! DEFINITION. The commands that a word spells. No row of spec/opcode_table.json gives bits: a command comes to the block
from its clock, its pins, its buses and its cores, not as a word of a program. -/
namespace Sys2Proof

/-- The command that an instruction word of `nbits` bits spells by the table's bits: none, for no row gives bits. -/
def decodeTableWord (_nbits _w : Nat) : Option Instr := none

end Sys2Proof
end

