-- ==== Sys2Proof/Config.lean ====
section
/-! DEFINITION. What the spec leaves open: free values, taken with a fresh number each time (log entry 9); the primitives
of cryptography that the spec names by their standards and does not define (log entry 10); and the contents that the
spec gives the device without stating them: the boot ROM, the device's keys, the layouts inside an image (log entry 11).
None has a body: nothing can be proved about a value of any of them. -/
namespace Sys2Proof.Config

/-- A word whose value the spec does not state. -/
opaque freeWord : Nat → BitVec 16
/-- A byte string of unstated contents, of the given length. -/
opaque freeBytes : Nat → Nat → List (BitVec 8)
/-- A truth value that the spec does not state. -/
opaque freeBit : Nat → Bool
/-- A number that the spec does not state. -/
opaque freeInt : Nat → Int
/-- Whether the storm-guard window of a channel, timed by the always-on oscillator while the device sleeps, has ended at its event
number `n` in a tick (R210). -/
opaque stormEnded : Nat → Nat → Int → Bool
/-- The single-bit errors that a management tick brings (R309, R343, R346): the stored words of memory, and the microwords of the
cores' copies, that they stand in. -/
opaque strikes : Nat → List Nat × List (Nat × Nat)
/-- How many of the tasks after the first the budget of a round of the Ditch Rider leaves time for (R414). -/
opaque budgetTasks : Nat → Nat
/-- What the system codes 28 to 31 of the vendor microcode carry out (R303): 0 the table walk, 1 the TLB write, else the invalidation. -/
opaque systemCode : Nat → Nat
/-- SHA-384 of a byte string (FIPS 180-4, named by 17_images_startup_attestation.md). -/
opaque sha384 : List (BitVec 8) → List (BitVec 8)
/-- ECDSA P-384 verification of a digest: public key, digest, signature (FIPS 186-5, named by 17). -/
opaque ecdsaVerify : List (BitVec 8) → List (BitVec 8) → List (BitVec 8) → Bool
/-- The device's ECDSA P-384 signature of a digest with its `n`-th nonce. -/
opaque ecdsaSign : List (BitVec 8) → Nat → List (BitVec 8)
/-- The public key whose SHA-384 stands in OTP (R397: a message is signed by a key of which OTP holds the hash). -/
opaque keyOfHash : List (BitVec 8) → List (BitVec 8)
/-- The vendor root key hash in OTP (R397). -/
opaque vendorHash : List (BitVec 8)
/-- The identity public key in OTP (R397). -/
opaque identityKey : List (BitVec 8)
/-- The words of the boot ROM (R342). -/
opaque romWord : Nat → BitVec 16
/-- The SHA-384 digest of the boot ROM (R399). -/
opaque romDigest : List (BitVec 8)
/-- The tick-core programs in the body of a firmware image (R391): the core, the TCM word address, the words, and the
entry address. -/
opaque tickPrograms : List (BitVec 8) → List (Nat × Nat × List (BitVec 16) × Nat)
/-- The microwords and the decode entries of a microcode image's body (R312), each with its index. -/
opaque microcodeOf : List (BitVec 8) → List (Nat × Nat) × List (Nat × Nat)

/-- The page mask of a microcode image's body (R312). -/
opaque pageMask : List (BitVec 8) → Nat
/-- What a structure image holds that no register of the tables shows, from its body: item 0 the domain set of domain `i`
(R336), 1 to 3 the class mask, the rail-write mask and the event mask of port `i` (R372), 4 ISTART of rail `i` (R372),
5 the default input-bus value (R50), 6 WRITE_PROTECT (R384), 7 the sampling timer (R416). -/
opaque imageHidden : List (BitVec 8) → Nat → Nat → Int
/-- The interrupt source that a structure image assigns to a block output, none where it assigns none (R315, R402); the outputs
are numbered as `allOutputs` lists them. -/
opaque imageSource : List (BitVec 8) → Nat → Option Nat
/-- RESMAX of the plant identification, which no register of the tables holds (R425). -/
opaque resMax : Nat → Int

end Sys2Proof.Config
end

