-- ==== Sys2Proof/Machine/Arith.lean ====
section
/-! DEFINITION. Bit fields, signs, saturation and rounding on integers: the exact arithmetic that the rules narrow at
the end (R2, 00_scope.md). -/
namespace Sys2Proof.Machine

/-- Bits `hi` to `lo` of an integer taken in two's complement. -/
def field (x : Int) (hi lo : Nat) : Int := (x / (2 ^ lo : Int)) % (2 ^ (hi + 1 - lo) : Int)

/-- Bit `n` of an integer. -/
def bitAt (x : Int) (n : Nat) : Bool := (x / (2 ^ n : Int)) % 2 = 1

/-- The low `n` bits read as a signed number. -/
def signed (n : Nat) (x : Int) : Int :=
  let y := x % (2 ^ n : Int)
  if y < (2 ^ (n - 1) : Int) then y else y - (2 ^ n : Int)

/-- The low `n` bits read as an unsigned number. -/
def unsigned (n : Nat) (x : Int) : Int := x % (2 ^ n : Int)

/-- `x` limited to the range `lo` to `hi`. -/
def clampTo (lo hi x : Int) : Int := if x < lo then lo else if hi < x then hi else x

/-- Saturation to `n` signed bits. -/
def satS (n : Nat) (x : Int) : Int := clampTo (-(2 ^ (n - 1) : Int)) ((2 ^ (n - 1) : Int) - 1) x

/-- Saturation to `n` unsigned bits. -/
def satU (n : Nat) (x : Int) : Int := clampTo 0 ((2 ^ n : Int) - 1) x

/-- Arithmetic right shift: division by a power of two, rounded down. -/
def shr (x : Int) (n : Nat) : Int := x / (2 ^ n : Int)

/-- Left shift: multiplication by a power of two. -/
def shl (x : Int) (n : Nat) : Int := x * (2 ^ n : Int)

/-- Division rounded up (positive divisor). -/
def ceilDiv (x d : Int) : Int := -((-x) / d)

/-- Division rounded to nearest, halves up (positive divisor). -/
def roundDiv (x d : Int) : Int := (2 * x + d) / (2 * d)

/-- Division rounded to nearest, halves away from zero (positive divisor). -/
def roundAway (x d : Int) : Int := if x < 0 then -((2 * (-x) + d) / (2 * d)) else (2 * x + d) / (2 * d)

/-- Division that truncates towards zero (positive divisor). -/
def truncDiv (x d : Int) : Int := if x < 0 then -((-x) / d) else x / d

/-- Magnitude. -/
def absI (x : Int) : Int := if x < 0 then -x else x

/-- Bit-wise OR, AND and AND-NOT of two non-negative integers. -/
def orI (x y : Int) : Int := ((x.toNat ||| y.toNat : Nat) : Int)
def andI (x y : Int) : Int := ((x.toNat &&& y.toNat : Nat) : Int)
def andNotI (x y : Int) : Int := ((x.toNat ^^^ (x.toNat &&& y.toNat) : Nat) : Int)
def xorI (x y : Int) : Int := ((x.toNat ^^^ y.toNat : Nat) : Int)

/-- One where the condition holds, else zero. -/
def bit01 (b : Bool) : Int := if b then 1 else 0

/-- The sum of a list of integers. -/
def sumI (l : List Int) : Int := l.foldl (· + ·) 0

/-- Least and greatest of a list (0 of an empty list). -/
def minI : List Int → Int
  | [] => 0
  | x :: l => l.foldl min x
def maxI : List Int → Int
  | [] => 0
  | x :: l => l.foldl max x

end Sys2Proof.Machine
end

