-- ==== Sys2Proof/Machine/Fields.lean ====
section
/-! DEFINITION. The names of every register field of the register tables, and of every hidden piece of state that
the rules name. A register field keeps the manual's name REGISTER_FIELD; a hidden piece has a lower-case name. -/
namespace Sys2Proof.Machine

/-- One name per register field (RAILCTL and the like are arrays: their indices stand beside the name, see `State.get`)
and one per hidden counter, mark or latch that a rule gives the block. -/
inductive Fld where
  /-- 01 R37: bits 31 to 0, RO. -/
  | DM_TICKLO
  /-- 01 R37: bits 31 to 0, RO. -/
  | DM_TICKHI
  /-- 01 R37: bits 31 to 0, RO. -/
  | DM_MTICK
  /-- 01 R37: bits 15 to 0, RW. -/
  | DM_DEV_PALLOT
  /-- 01 R37: bits 31 to 16, RO. -/
  | DM_DEV_PNOW
  /-- 01 R37: bits 7 to 0, W1C. -/
  | DM_STATUS_DOMX
  /-- 01 R37: bits 8 to 8, W1C. -/
  | DM_STATUS_DEVX
  /-- 01 R37: bits 9 to 9, W1C. -/
  | DM_STATUS_CEILERR
  /-- 01 R37: bits 10 to 10, W1C. -/
  | DM_STATUS_REQERR
  /-- 01 R37: bits 15 to 0, RW. -/
  | DM_DOM_IALLOT
  /-- 01 R37: bits 31 to 16, RO. -/
  | DM_DOM_INOW
  /-- 01 R37: bits 2 to 0, RO. -/
  | DM_DOMCFG_LANE
  /-- 01 R37: bits 3 to 3, RO. -/
  | DM_DOMCFG_LANEV
  /-- 01 R37: bits 4 to 4, RO. -/
  | DM_DOMCFG_USED
  /-- 01 R37: bits 15 to 8, RO. -/
  | DM_DOMCFG_XPERS
  /-- 01 R37: bits 2 to 0, RO. -/
  | DM_RAILCFG_DOMAIN
  /-- 01 R37: bits 4 to 3, RO. -/
  | DM_RAILCFG_IQSEL
  /-- 01 R37: bits 6 to 5, RO. -/
  | DM_RAILCFG_ENSRC
  /-- 01 R37: bits 8 to 7, RO. -/
  | DM_RAILCFG_FSCOPE
  /-- 01 R37: bits 9 to 9, RO. -/
  | DM_RAILCFG_OFFDRV
  /-- 01 R37: bits 15 to 10, RO. -/
  | DM_RAILCFG_NPHM1
  /-- 01 R37: bits 0 to 0, RW. -/
  | DM_RAILCTL_HOSTEN
  /-- 01 R37: bits 1 to 1, WO. -/
  | DM_RAILCTL_FCLR
  /-- 01 R37: bits 2 to 2, WO. -/
  | DM_RAILCTL_RSREQ
  /-- 01 R37: bits 2 to 0, RO. -/
  | DM_RAILSTAT_STATE
  /-- 01 R37: bits 3 to 3, RO. -/
  | DM_RAILSTAT_PGOOD
  /-- 01 R37: bits 4 to 4, RO. -/
  | DM_RAILSTAT_ENF
  /-- 01 R37: bits 5 to 5, W1C. -/
  | DM_RAILSTAT_ENSTUCK
  /-- 01 R37: bits 6 to 6, RO. -/
  | DM_RAILSTAT_PREDOK
  /-- 01 R37: bits 7 to 7, W1C. -/
  | DM_RAILSTAT_LIMSAT
  /-- 01 R37: bits 8 to 8, W1C. -/
  | DM_RAILSTAT_STARTTMO
  /-- 01 R37: bits 11 to 9, RO. -/
  | DM_RAILSTAT_CAUSE
  /-- 01 R37: bits 11 to 0, RO. -/
  | DM_RAILPHL_PHIMAX
  /-- 01 R37: bits 17 to 0, RW. -/
  | DM_RAILLIM_ILIM
  /-- 01 R37: bits 31 to 0, RO. -/
  | DM_RAILCUR_ICUR
  /-- 01 R37: bits 7 to 0, RW. -/
  | DM_RAILPG_PGLO
  /-- 01 R37: bits 15 to 8, RW. -/
  | DM_RAILPG_PGHI
  /-- 01 R37: bits 3 to 0, RO. -/
  | DM_RAILSEQ_PRED0
  /-- 01 R37: bits 4 to 4, RO. -/
  | DM_RAILSEQ_PV0
  /-- 01 R37: bits 8 to 5, RO. -/
  | DM_RAILSEQ_PRED1
  /-- 01 R37: bits 9 to 9, RO. -/
  | DM_RAILSEQ_PV1
  /-- 01 R37: bits 13 to 10, RO. -/
  | DM_RAILSEQ_PRED2
  /-- 01 R37: bits 14 to 14, RO. -/
  | DM_RAILSEQ_PV2
  /-- 01 R37: bits 18 to 15, RO. -/
  | DM_RAILSEQ_PRED3
  /-- 01 R37: bits 19 to 19, RO. -/
  | DM_RAILSEQ_PV3
  /-- 01 R37: bits 13 to 0, RO. -/
  | DM_RAILDLY_SDLY
  /-- 01 R37: bits 29 to 16, RO. -/
  | DM_RAILDLY_PDLY
  /-- 01 R37: bits 7 to 0, RO. -/
  | DM_RAILTMO_STMO
  /-- 01 R37: bits 15 to 8, RO. -/
  | DM_RAILTMO_ENFILT
  /-- 02 R65: bits 0 to 0, RW. -/
  | FL_CTRL_OSEN
  /-- 02 R65: bits 1 to 1, RW. -/
  | FL_CTRL_ROTEN
  /-- 02 R65: bits 7 to 4, RW. -/
  | FL_CTRL_OSCNT
  /-- 02 R65: bits 15 to 8, RW. -/
  | FL_CTRL_VPER
  /-- 02 R65: bits 0 to 0, RO. -/
  | FL_STATUS_RDY
  /-- 02 R65: bits 1 to 1, RO. -/
  | FL_STATUS_ROTBUSY
  /-- 02 R65: bits 2 to 2, W1C. -/
  | FL_STATUS_CFGERR
  /-- 02 R65: bits 7 to 0, RW. -/
  | FL_RIPCFG_RIPMIN
  /-- 02 R65: bits 10 to 8, RW. -/
  | FL_RIPCFG_RIPWIN
  /-- 02 R65: bits 11 to 0, RW. -/
  | FL_STKCFG_STKT
  /-- 02 R65: bits 4 to 0, RW. -/
  | FL_ROTCTL_TGT
  /-- 02 R65: bits 5 to 5, WO. -/
  | FL_ROTCTL_STEP
  /-- 02 R65: bits 15 to 8, RW. -/
  | FL_ROTCTL_ROTPER
  /-- 02 R65: bits 6 to 0, RW. -/
  | FL_SUBCTL_IDX
  /-- 02 R65: bits 7 to 7, RW. -/
  | FL_SUBCTL_KIND
  /-- 02 R65: bits 15 to 15, WO. -/
  | FL_SUBCTL_GO
  /-- 02 R65: bits 17 to 0, RO. -/
  | FL_VFAIL
  /-- 02 R65: bits 4 to 0, RO. -/
  | FL_VGSTAT_SPARE
  /-- 02 R65: bits 7 to 5, RO. -/
  | FL_VGSTAT_POS
  /-- 02 R65: bits 9 to 8, RO. -/
  | FL_VGSTAT_RSTATE
  /-- 02 R65: bits 10 to 10, RO. -/
  | FL_VGSTAT_NOSPARE
  /-- 02 R65: bits 11 to 11, W1C. -/
  | FL_VGSTAT_ABORT
  /-- 02 R65: bits 15 to 12, RO. -/
  | FL_VGSTAT_ABORTS
  /-- 02 R65: bits 31 to 0, RO. -/
  | FL_CLMAP
  /-- 02 R65: bits 3 to 0, RO. -/
  | FL_CLSTAT_SPARE
  /-- 02 R65: bits 6 to 4, RO. -/
  | FL_CLSTAT_POS
  /-- 02 R65: bits 8 to 7, RO. -/
  | FL_CLSTAT_RSTATE
  /-- 02 R65: bits 9 to 9, RO. -/
  | FL_CLSTAT_NOSPARE
  /-- 02 R65: bits 10 to 10, W1C. -/
  | FL_CLSTAT_ABORT
  /-- 02 R65: bits 14 to 11, RO. -/
  | FL_CLSTAT_ABORTS
  /-- 02 R65: bits 8 to 0, RO. -/
  | FL_CLFAIL
  /-- 02 R65: bits 15 to 0, RO. -/
  | FL_CLTEMP
  /-- 02 R65: bits 15 to 0, RW. -/
  | FL_TMGAIN
  /-- 02 R65: bits 11 to 0, RW. -/
  | FL_TMOFS
  /-- 02 R65: bits 0 to 0, W1C. -/
  | FL_TMFLAG_RANGE
  /-- 02 R65: bits 1 to 1, W1C. -/
  | FL_TMFLAG_STUCK
  /-- 02 R65: bits 2 to 2, W1C. -/
  | FL_TMFLAG_TRIMSAT
  /-- 02 R65: bits 15 to 0, RW. -/
  | FL_PHGAIN
  /-- 02 R65: bits 11 to 0, RW. -/
  | FL_PHOFS
  /-- 02 R65: bits 0 to 0, W1C. -/
  | FL_PHFLAG_CLIP
  /-- 02 R65: bits 1 to 1, W1C. -/
  | FL_PHFLAG_STUCK
  /-- 02 R65: bits 2 to 2, W1C. -/
  | FL_PHFLAG_OPEN
  /-- 02 R65: bits 3 to 3, W1C. -/
  | FL_PHFLAG_TRIMSAT
  /-- 02 R65: bits 4 to 4, RO. -/
  | FL_PHFLAG_HOLD
  /-- 02 R65: bits 5 to 5, RO. -/
  | FL_PHFLAG_SLFAIL
  /-- 02 R65: bits 15 to 0, RO. -/
  | FL_PHMEAN
  /-- 02 R65: bits 15 to 0, RO. -/
  | FL_PHLAST
  /-- 02 R65: bits 15 to 0, RO. -/
  | FL_PHMIN
  /-- 02 R65: bits 15 to 0, RO. -/
  | FL_PHMAX
  /-- 02 R65: bits 11 to 0, RO. -/
  | FL_PHRIP
  /-- 02 R65: bits 15 to 0, RO. -/
  | FL_VMEAN
  /-- 02 R65: bits 15 to 0, RO. -/
  | FL_VLAST
  /-- 02 R65: bits 15 to 0, RO. -/
  | FL_VMIN
  /-- 02 R65: bits 15 to 0, RO. -/
  | FL_VMAX
  /-- 02 R65: bits 13 to 0, RO. -/
  | FL_VWREF
  /-- 02 R65: bits 0 to 0, W1C. -/
  | FL_VFLAG_CLIP
  /-- 02 R65: bits 1 to 1, W1C. -/
  | FL_VFLAG_STUCK
  /-- 02 R65: bits 2 to 2, W1C. -/
  | FL_VFLAG_OPEN
  /-- 02 R65: bits 3 to 3, RO. -/
  | FL_VFLAG_HOLD
  /-- 02 R65: bits 4 to 4, RO. -/
  | FL_VFLAG_CVFAIL
  /-- 02 R65: bits 4 to 0, RO. -/
  | FL_VCONV
  /-- 02 R65: bits 1 to 0, RO. -/
  | FL_AUXCFG_KIND
  /-- 02 R65: bits 5 to 2, RW. -/
  | FL_AUXCFG_AVG
  /-- 02 R65: bits 15 to 0, RW. -/
  | FL_AUXGAIN
  /-- 02 R65: bits 11 to 0, RW. -/
  | FL_AUXOFS
  /-- 02 R65: bits 15 to 0, RO. -/
  | FL_AUXRES
  /-- 02 R65: bits 15 to 0, RW. -/
  | FL_AUXRLO
  /-- 02 R65: bits 15 to 0, RW. -/
  | FL_AUXRHI
  /-- 02 R65: bits 0 to 0, W1C. -/
  | FL_AUXFLAG_RANGE
  /-- 02 R65: bits 1 to 1, W1C. -/
  | FL_AUXFLAG_STUCK
  /-- 02 R65: bits 2 to 2, W1C. -/
  | FL_AUXFLAG_TRIMSAT
  /-- 02 R65: bits 15 to 0, RW. -/
  | FL_TMRLO
  /-- 02 R65: bits 15 to 0, RW. -/
  | FL_TMRHI
  /-- 03 R89: bits 0 to 0, RO. -/
  | LN_CTRL_ESRC
  /-- 03 R89: bits 1 to 1, RO. -/
  | LN_CTRL_PREBIAS
  /-- 03 R89: bits 2 to 2, RW. -/
  | LN_CTRL_FFEN
  /-- 03 R89: bits 0 to 0, RO. -/
  | LN_STATUS_ACTBANK
  /-- 03 R89: bits 1 to 1, RO. -/
  | LN_STATUS_COMMITPEND
  /-- 03 R89: bits 2 to 2, RO. -/
  | LN_STATUS_RUN
  /-- 03 R89: bits 9 to 3, RO. -/
  | LN_STATUS_NACT
  /-- 03 R89: bits 12 to 0, W1C. -/
  | LN_FLAG
  /-- 03 R89: bits 0 to 0, WO. -/
  | LN_BANKCTL_COMMIT
  /-- 03 R89: bits 1 to 1, WO. -/
  | LN_BANKCTL_COPY
  /-- 03 R89: bits 13 to 0, RW. -/
  | LN_VSET
  /-- 03 R89: bits 13 to 0, RO. -/
  | LN_STOPLVL
  /-- 03 R89: bits 15 to 0, RW. -/
  | LN_SSLOPE
  /-- 03 R89: bits 15 to 0, RW. -/
  | LN_SLEWUP
  /-- 03 R89: bits 15 to 0, RW. -/
  | LN_SLEWDN
  /-- 03 R89: bits 15 to 0, RW. -/
  | LN_SDSLOPE
  /-- 03 R89: bits 23 to 0, RO. -/
  | LN_REF
  /-- 03 R89: bits 31 to 0, RW. -/
  | LN_CMDMIN
  /-- 03 R89: bits 31 to 0, RO. -/
  | LN_FFC
  /-- 03 R89: bits 31 to 0, RO. -/
  | LN_CMD
  /-- 03 R89: bits 31 to 0, RO. -/
  | LN_INTEG
  /-- 03 R89: bits 15 to 0, RO. -/
  | LN_ERR
  /-- 03 R89: bits 7 to 0, RW. -/
  | LN_BALCFG_KBAL
  /-- 03 R89: bits 15 to 8, RW. -/
  | LN_BALCFG_BALLIM
  /-- 03 R89: bits 12 to 0, RW. -/
  | LN_FLAGEN
  /-- 03 R89: bits 31 to 0, RW. -/
  | LN_B0
  /-- 03 R89: bits 31 to 0, RW. -/
  | LN_B1
  /-- 03 R89: bits 31 to 0, RW. -/
  | LN_B2
  /-- 03 R89: bits 31 to 0, RW. -/
  | LN_A1
  /-- 03 R89: bits 31 to 0, RW. -/
  | LN_A2
  /-- 03 R89: bits 31 to 0, RW. -/
  | LN_KI
  /-- 03 R89: bits 3 to 0, RW. -/
  | LN_GEXP
  /-- 03 R89: bits 15 to 0, RW. -/
  | LN_AVPK
  /-- 03 R89: bits 31 to 0, RW. -/
  | LN_IMAX
  /-- 03 R89: bits 31 to 0, RW. -/
  | LN_IMIN
  /-- 03 R89: bits 6 to 0, RO. -/
  | LN_MAP_PHASE
  /-- 03 R89: bits 7 to 7, RO. -/
  | LN_MAP_VALID
  /-- 03 R89: bits 8 to 8, RO. -/
  | LN_MAP_SPARE
  /-- 03 R89: bits 9 to 9, RO. -/
  | LN_MAP_ACT
  /-- 03 R89: bits 15 to 0, RW. -/
  | LN_BALOFS
  /-- 03 R89: bits 15 to 0, RO. -/
  | LN_BAL
  /-- 03 R89: bits 15 to 0, RO. -/
  | LN_PCMD
  /-- 05 R156: bits 1 to 0, RW. -/
  | LN_TRCFG_LOACT
  /-- 05 R156: bits 2 to 2, RW. -/
  | LN_TRCFG_HIACT
  /-- 05 R156: bits 3 to 3, RW. -/
  | LN_TRCFG_ADDALL
  /-- 05 R156: bits 7 to 0, RW. -/
  | LN_BURST_BLEN
  /-- 05 R156: bits 15 to 8, RW. -/
  | LN_BURST_BGAP
  /-- 05 R156: bits 15 to 0, RW. -/
  | LN_BBUDGET
  /-- 05 R156: bits 15 to 0, RO. -/
  | LN_BUSED
  /-- 05 R156: bits 15 to 0, RW. -/
  | LN_BILIM
  /-- 05 R156: bits 7 to 0, RW. -/
  | LN_OFFLEN
  /-- 05 R156: bits 0 to 0, W1C. -/
  | LN_TRFLAG_BURST
  /-- 05 R156: bits 1 to 1, W1C. -/
  | LN_TRFLAG_BUDEX
  /-- 05 R156: bits 2 to 2, W1C. -/
  | LN_TRFLAG_GAPREF
  /-- 05 R156: bits 3 to 3, W1C. -/
  | LN_TRFLAG_BLENEND
  /-- 05 R156: bits 4 to 4, W1C. -/
  | LN_TRFLAG_OFFEND
  /-- 05 R156: bits 7 to 0, RW. -/
  | LN_FCCFG_PRAMP
  /-- 05 R156: bits 15 to 8, RW. -/
  | LN_FCCFG_ADV
  /-- 05 R156: bits 7 to 0, RW. -/
  | LN_MISSWIN_MISSLO
  /-- 05 R156: bits 15 to 8, RW. -/
  | LN_MISSWIN_MISSHI
  /-- 05 R156: bits 15 to 0, RW. -/
  | LN_UNWIND
  /-- 05 R156: bits 15 to 0, RW. -/
  | LN_KCAP
  /-- 05 R156: bits 3 to 0, RW. -/
  | LN_MATCH_MATCH
  /-- 05 R156: bits 11 to 4, RW. -/
  | LN_MATCH_MSKIP
  /-- 05 R156: bits 0 to 0, W1C. -/
  | LN_FCFLAG_FSAT
  /-- 05 R156: bits 1 to 1, W1C. -/
  | LN_FCFLAG_MISS
  /-- 05 R156: bits 2 to 2, W1C. -/
  | LN_FCFLAG_NOADD
  /-- 05 R156: bits 15 to 0, RO. -/
  | LN_FCMET
  /-- 05 R156: bits 15 to 0, RO. -/
  | LN_FCMISS
  /-- 05 R156: bits 31 to 0, RO. -/
  | LN_ILE
  /-- 05 R156: bits 0 to 0, RW. -/
  | DL_CTRL_EN
  /-- 05 R156: bits 15 to 8, RW. -/
  | DL_CTRL_KATMO
  /-- 05 R156: bits 11 to 0, RW. -/
  | DL_TEL_TPER
  /-- 05 R156: bits 2 to 0, RO. -/
  | DL_STATE_STATE
  /-- 05 R156: bits 6 to 3, RO. -/
  | DL_STATE_EPOCH
  /-- 05 R156: bits 15 to 8, RO. -/
  | DL_STATE_RXSEQ
  /-- 05 R156: bits 0 to 0, W1C. -/
  | DL_FLAG_LOSS
  /-- 05 R156: bits 1 to 1, W1C. -/
  | DL_FLAG_CRCRUN
  /-- 05 R156: bits 2 to 2, W1C. -/
  | DL_FLAG_KATO
  /-- 05 R156: bits 3 to 3, W1C. -/
  | DL_FLAG_STALE
  /-- 05 R156: bits 4 to 4, W1C. -/
  | DL_FLAG_DUP
  /-- 05 R156: bits 5 to 5, W1C. -/
  | DL_FLAG_GAP
  /-- 05 R156: bits 6 to 6, W1C. -/
  | DL_FLAG_BADMSG
  /-- 05 R156: bits 7 to 7, W1C. -/
  | DL_FLAG_TXOVF
  /-- 05 R156: bits 8 to 8, W1C. -/
  | DL_FLAG_NEWEPOCH
  /-- 05 R156: bits 9 to 9, W1C. -/
  | DL_FLAG_CFGERR
  /-- 05 R156: bits 15 to 0, RO. -/
  | DL_CRCERR
  /-- 05 R156: bits 15 to 0, RO. -/
  | DL_STALECNT
  /-- 05 R156: bits 15 to 0, RO. -/
  | DL_DUPCNT
  /-- 05 R156: bits 15 to 0, RO. -/
  | DL_LOSTCNT
  /-- 05 R156: bits 15 to 0, RO. -/
  | DL_ACT
  /-- 05 R156: bits 7 to 0, RO. -/
  | DL_TXSEQ
  /-- 05 R156: bits 0 to 0, RW. -/
  | DD_CFG_GAUTO
  /-- 05 R156: bits 1 to 1, RW. -/
  | DD_CFG_SETEN
  /-- 05 R156: bits 15 to 8, RW. -/
  | DD_CFG_GTMO
  /-- 05 R156: bits 2 to 0, RO. -/
  | DD_GREQ_SLOT
  /-- 05 R156: bits 3 to 3, RO. -/
  | DD_GREQ_PEND
  /-- 05 R156: bits 7 to 4, RO. -/
  | DD_GREQ_RAIL
  /-- 05 R156: bits 8 to 8, W1C. -/
  | DD_GREQ_CFGERR
  /-- 05 R156: bits 31 to 0, RO. -/
  | DD_GREQDI
  /-- 05 R156: bits 31 to 0, RO. -/
  | DD_GREQMAX
  /-- 05 R156: bits 21 to 0, RW. -/
  | DD_GRANT_AMT
  /-- 05 R156: bits 31 to 31, WO. -/
  | DD_GRANT_GO
  /-- 05 R156: bits 2 to 0, RO. -/
  | DD_SSTAT_STATE
  /-- 05 R156: bits 6 to 3, RO. -/
  | DD_SSTAT_RAIL
  /-- 05 R156: bits 15 to 8, RO. -/
  | DD_SSTAT_SEQ
  /-- 05 R156: bits 31 to 0, RO. -/
  | DD_SDI
  /-- 05 R156: bits 31 to 0, RO. -/
  | DD_SS
  /-- 05 R156: bits 31 to 0, RO. -/
  | DD_SE
  /-- 05 R156: bits 31 to 0, RO. -/
  | DD_SDL
  /-- 05 R156: bits 31 to 0, RO. -/
  | DD_SCON
  /-- 05 R156: bits 31 to 0, RO. -/
  | DD_SILE0
  /-- 04 R117: bits 1 to 0, RO. -/
  | SL_PSTAT_LEVEL
  /-- 04 R117: bits 2 to 2, RO. -/
  | SL_PSTAT_ACT
  /-- 04 R117: bits 8 to 3, RO. -/
  | SL_PSTAT_POS
  /-- 04 R117: bits 9 to 9, RO. -/
  | SL_PSTAT_EGSP
  /-- 04 R117: bits 10 to 10, RO. -/
  | SL_PSTAT_PADFLT
  /-- 04 R117: bits 11 to 11, RO. -/
  | SL_PSTAT_EGFAIL
  /-- 04 R117: bits 0 to 0, W1C. -/
  | SL_PFLAG_TONMINHIT
  /-- 04 R117: bits 1 to 1, W1C. -/
  | SL_PFLAG_TOFFMINHIT
  /-- 04 R117: bits 2 to 2, W1C. -/
  | SL_PFLAG_DMAXHIT
  /-- 04 R117: bits 3 to 3, W1C. -/
  | SL_PFLAG_PSKIP
  /-- 04 R117: bits 4 to 4, W1C. -/
  | SL_PFLAG_PIDEFER
  /-- 04 R117: bits 5 to 5, W1C. -/
  | SL_PFLAG_PIDROP
  /-- 04 R117: bits 6 to 6, W1C. -/
  | SL_PFLAG_RBMIS
  /-- 04 R117: bits 15 to 0, RW. -/
  | SL_PZCD
  /-- 04 R117: bits 15 to 0, RW. -/
  | SL_PPIW
  /-- 04 R117: bits 0 to 0, WO. -/
  | SL_PINS_INS
  /-- 04 R117: bits 31 to 0, RO. -/
  | SL_POFS
  /-- 04 R117: bits 31 to 0, RO. -/
  | SL_PTON
  /-- 04 R117: bits 31 to 0, RO. -/
  | SL_PCYC
  /-- 04 R117: bits 1 to 0, RW. -/
  | SL_PTEST_FORCE
  /-- 04 R117: bits 1 to 0, RO. -/
  | SL_RMODE_MODE
  /-- 04 R117: bits 2 to 2, RW. -/
  | SL_RMODE_DCMEN
  /-- 04 R117: bits 3 to 3, RW. -/
  | SL_RMODE_SYNCEN
  /-- 04 R117: bits 4 to 4, RW. -/
  | SL_RMODE_DROPDRV
  /-- 04 R117: bits 10 to 5, RW. -/
  | SL_RMODE_CPRED
  /-- 04 R117: bits 7 to 0, RW. -/
  | SL_RSLOPE_SLOPEC
  /-- 04 R117: bits 15 to 8, RW. -/
  | SL_RSLOPE_PSLEW
  /-- 04 R117: bits 17 to 0, RW. -/
  | SL_RPER
  /-- 04 R117: bits 11 to 0, RW. -/
  | SL_RTONMIN
  /-- 04 R117: bits 11 to 0, RW. -/
  | SL_RTOFFMIN
  /-- 04 R117: bits 11 to 0, RW. -/
  | SL_RDMAXT
  /-- 04 R117: bits 15 to 0, RW. -/
  | SL_RDUTYK
  /-- 04 R117: bits 17 to 0, RW. -/
  | SL_RVLEAD
  /-- 04 R117: bits 15 to 0, RW. -/
  | SL_RTONADJ
  /-- 04 R117: bits 3 to 0, RW. -/
  | SL_RSYNC_SYNCM
  /-- 04 R117: bits 7 to 4, RW. -/
  | SL_RSYNC_SYNCD
  /-- 04 R117: bits 15 to 8, RW. -/
  | SL_RSYNC_DRPT
  /-- 04 R117: bits 17 to 0, RW. -/
  | SL_RSYNCOFS
  /-- 04 R117: bits 17 to 0, RO. -/
  | SL_RTON
  /-- 04 R117: bits 17 to 0, RO. -/
  | SL_RTB
  /-- 04 R117: bits 63 to 0, RO. -/
  | SL_RACT
  /-- 04 R117: bits 63 to 0, WO. -/
  | SL_RADD
  /-- 04 R117: bits 63 to 0, WO. -/
  | SL_RDROP
  /-- 04 R117: bits 0 to 0, WO. -/
  | SL_RINS_ALL
  /-- 04 R117: bits 6 to 0, RO. -/
  | SL_RSTAT_NACT
  /-- 04 R117: bits 7 to 7, RO. -/
  | SL_RSTAT_LOCK
  /-- 04 R117: bits 14 to 8, RO. -/
  | SL_RSTAT_NMIN
  /-- 04 R117: bits 0 to 0, W1C. -/
  | SL_RFLAG_NMINREF
  /-- 04 R117: bits 1 to 1, W1C. -/
  | SL_RFLAG_ADDREF
  /-- 04 R117: bits 2 to 2, W1C. -/
  | SL_RFLAG_SYNCLOSS
  /-- 04 R117: bits 3 to 3, W1C. -/
  | SL_RFLAG_SYNCRANGE
  /-- 04 R117: bits 4 to 4, W1C. -/
  | SL_RFLAG_VINLOW
  /-- 04 R117: bits 2 to 0, RO. -/
  | SL_CEG_SPFOR
  /-- 04 R117: bits 3 to 3, RO. -/
  | SL_CEG_SPUSE
  /-- 04 R117: bits 12 to 4, RO. -/
  | SL_CEG_FAIL
  /-- 04 R117: bits 2 to 0, RW. -/
  | SL_CSUB_K
  /-- 04 R117: bits 15 to 15, WO. -/
  | SL_CSUB_GO
  /-- 04 R117: bits 0 to 0, W1C. -/
  | SL_STATUS_CFGERR
  /-- 04 R117: bits 1 to 1, RO. -/
  | SL_STATUS_RDY
  /-- 04 R117: bits 2 to 2, RO. -/
  | SL_STATUS_SYNCACT
  /-- 04 R117: bits 23 to 0, RO. -/
  | SL_SYNCPER
  /-- 06 R180: bits 0 to 0, RW. -/
  | WR_CFG_EN
  /-- 06 R180: bits 3 to 1, RW. -/
  | WR_CFG_MODE
  /-- 06 R180: bits 6 to 4, RW. -/
  | WR_CFG_SMODE
  /-- 06 R180: bits 8 to 7, RW. -/
  | WR_CFG_INIT
  /-- 06 R180: bits 12 to 9, RW. -/
  | WR_CFG_HYS
  /-- 06 R180: bits 13 to 13, RO. -/
  | WR_CFG_ABS
  /-- 06 R180: bits 9 to 0, RW. -/
  | WR_LO
  /-- 06 R180: bits 9 to 0, RW. -/
  | WR_HI
  /-- 06 R180: bits 5 to 0, RO. -/
  | WR_ROUTE_CHA
  /-- 06 R180: bits 6 to 6, RO. -/
  | WR_ROUTE_ENA
  /-- 06 R180: bits 7 to 7, RO. -/
  | WR_ROUTE_RETA
  /-- 06 R180: bits 13 to 8, RO. -/
  | WR_ROUTE_CHB
  /-- 06 R180: bits 14 to 14, RO. -/
  | WR_ROUTE_ENB
  /-- 06 R180: bits 15 to 15, RO. -/
  | WR_ROUTE_RETB
  /-- 06 R180: bits 0 to 0, RW. -/
  | WR_CTRL_IRQEN
  /-- 06 R180: bits 1 to 1, RW. -/
  | WR_CTRL_WAKE
  /-- 06 R180: bits 8 to 4, RO. -/
  | WR_CTRL_SEL
  /-- 06 R180: bits 10 to 9, RO. -/
  | WR_CTRL_AACT
  /-- 06 R180: bits 15 to 0, RO. -/
  | WR_AMASK
  /-- 06 R180: bits 1 to 0, RO. -/
  | WR_STAT_OUT
  /-- 06 R180: bits 4 to 2, RO. -/
  | WR_STAT_EFFMODE
  /-- 06 R180: bits 5 to 5, RO. -/
  | WR_STAT_SETTLE
  /-- 06 R180: bits 6 to 6, RO. -/
  | WR_STAT_FAIL
  /-- 06 R180: bits 7 to 7, RO. -/
  | WR_STAT_SUBST
  /-- 06 R180: bits 10 to 8, RO. -/
  | WR_STAT_SPIDX
  /-- 06 R180: bits 0 to 0, W1C. -/
  | WR_FLAG_ABOVE
  /-- 06 R180: bits 1 to 1, W1C. -/
  | WR_FLAG_BELOW
  /-- 06 R180: bits 2 to 2, W1C. -/
  | WR_FLAG_TERM
  /-- 06 R180: bits 3 to 3, W1C. -/
  | WR_FLAG_NEGOC
  /-- 06 R180: bits 4 to 4, W1C. -/
  | WR_FLAG_OCRET
  /-- 06 R180: bits 1 to 0, RW. -/
  | WP_RCFG_OVPOL
  /-- 06 R180: bits 3 to 2, RW. -/
  | WP_RCFG_UVPOL
  /-- 06 R180: bits 5 to 4, RW. -/
  | WP_RCFG_ROCPOL
  /-- 06 R180: bits 7 to 6, RW. -/
  | WP_RCFG_OPENPOL
  /-- 06 R180: bits 9 to 8, RW. -/
  | WP_RCFG_STKPOL
  /-- 06 R180: bits 11 to 10, RW. -/
  | WP_RCFG_LSATPOL
  /-- 06 R180: bits 12 to 12, RW. -/
  | WP_RCFG_OVDRV
  /-- 06 R180: bits 1 to 0, RW. -/
  | WP_RCFG2_PHOCPOL
  /-- 06 R180: bits 3 to 2, RW. -/
  | WP_RCFG2_PHSNSPOL
  /-- 06 R180: bits 7 to 0, RW. -/
  | WP_RPERS_OVPERS
  /-- 06 R180: bits 15 to 8, RW. -/
  | WP_RPERS_UVPERS
  /-- 06 R180: bits 7 to 0, RW. -/
  | WP_RPERS2_ROCPERS
  /-- 06 R180: bits 15 to 8, RW. -/
  | WP_RPERS2_OCCNT
  /-- 06 R180: bits 17 to 0, RW. -/
  | WP_ROCLIM
  /-- 06 R180: bits 2 to 0, RW. -/
  | WP_RETRY_RETRY
  /-- 06 R180: bits 15 to 4, RW. -/
  | WP_RETRY_RTDLY
  /-- 06 R180: bits 2 to 0, RO. -/
  | WP_RSTAT_RLEFT
  /-- 06 R180: bits 6 to 3, RO. -/
  | WP_RSTAT_FCAUSE
  /-- 06 R180: bits 0 to 0, W1C. -/
  | WP_RFLAG_OV
  /-- 06 R180: bits 1 to 1, W1C. -/
  | WP_RFLAG_UV
  /-- 06 R180: bits 2 to 2, W1C. -/
  | WP_RFLAG_ROC
  /-- 06 R180: bits 3 to 3, W1C. -/
  | WP_RFLAG_OVGLITCH
  /-- 06 R180: bits 4 to 4, W1C. -/
  | WP_RFLAG_OVOFF
  /-- 06 R180: bits 5 to 5, W1C. -/
  | WP_RFLAG_SENSE
  /-- 06 R180: bits 6 to 6, W1C. -/
  | WP_RFLAG_LSAT
  /-- 06 R180: bits 7 to 7, W1C. -/
  | WP_RFLAG_WLOST
  /-- 06 R180: bits 8 to 8, W1C. -/
  | WP_RFLAG_TRLOST
  /-- 06 R180: bits 9 to 9, W1C. -/
  | WP_RFLAG_RTEXH
  /-- 06 R180: bits 10 to 10, W1C. -/
  | WP_RFLAG_AUX
  /-- 06 R180: bits 15 to 0, RW. -/
  | WP_LSAT
  /-- 06 R180: bits 0 to 0, RW. -/
  | WP_CCFG_TFEN
  /-- 06 R180: bits 1 to 1, RO. -/
  | WP_CCFG_TFINV
  /-- 06 R180: bits 3 to 2, RW. -/
  | WP_CCFG_TFPOL
  /-- 06 R180: bits 5 to 4, RW. -/
  | WP_CCFG_OTPOL
  /-- 06 R180: bits 6 to 6, RW. -/
  | WP_CCFG_TFSTK
  /-- 06 R180: bits 15 to 8, RW. -/
  | WP_CCFG_TFFILT
  /-- 06 R180: bits 15 to 0, RW. -/
  | WP_CTF
  /-- 06 R180: bits 15 to 0, RW. -/
  | WP_CTWARN
  /-- 06 R180: bits 15 to 0, RW. -/
  | WP_CTSHUT
  /-- 06 R180: bits 7 to 0, RW. -/
  | WP_COT
  /-- 06 R180: bits 0 to 0, RO. -/
  | WP_CSTAT_TFRAW
  /-- 06 R180: bits 1 to 1, RO. -/
  | WP_CSTAT_TFACT
  /-- 06 R180: bits 2 to 2, RO. -/
  | WP_CSTAT_ISOL
  /-- 06 R180: bits 0 to 0, W1C. -/
  | WP_CFLAG_TFLT
  /-- 06 R180: bits 1 to 1, W1C. -/
  | WP_CFLAG_TFSTUCK
  /-- 06 R180: bits 2 to 2, W1C. -/
  | WP_CFLAG_TFCHAT
  /-- 06 R180: bits 3 to 3, W1C. -/
  | WP_CFLAG_OTWARN
  /-- 06 R180: bits 4 to 4, W1C. -/
  | WP_CFLAG_OTSHUT
  /-- 06 R180: bits 0 to 0, W1C. -/
  | WP_STATUS_CFGERR
  /-- 06 R180: bits 1 to 1, RO. -/
  | WP_STATUS_RDY
  /-- 06 R180: bits 9 to 2, RO. -/
  | WP_STATUS_SPUSE
  /-- 06 R180: bits 7 to 0, RW. -/
  | WP_SUB_IDX
  /-- 06 R180: bits 15 to 15, WO. -/
  | WP_SUB_GO
  /-- 06 R180: bits 7 to 0, RO. -/
  | WP_SPFAIL
  /-- 07 R196: bits 0 to 0, W1S. -/
  | PH_CTRL_LOCK
  /-- 07 R196: bits 1 to 1, WO. -/
  | PH_CTRL_SNAP
  /-- 07 R196: bits 0 to 0, W1C. -/
  | PH_STATUS_CFGERR
  /-- 07 R196: bits 1 to 1, RO. -/
  | PH_STATUS_SUMBUSY
  /-- 07 R196: bits 15 to 0, RW. -/
  | PH_WCHG
  /-- 07 R196: bits 15 to 0, RW. -/
  | PH_WCYC
  /-- 07 R196: bits 15 to 0, RW. -/
  | PH_WSTART
  /-- 07 R196: bits 15 to 0, RO. -/
  | PH_SUM
  /-- 07 R196: bits 0 to 0, RW. -/
  | PH_SHCFG_SHEN
  /-- 07 R196: bits 7 to 1, RW. -/
  | PH_SHCFG_NFLOOR
  /-- 07 R196: bits 15 to 0, RW. -/
  | PH_SHDWELL
  /-- 07 R196: bits 11 to 0, RW. -/
  | PH_SHADD
  /-- 07 R196: bits 11 to 0, RW. -/
  | PH_SHDROP
  /-- 07 R196: bits 6 to 0, RO. -/
  | PH_RSTAT_NRET
  /-- 07 R196: bits 10 to 7, RO. -/
  | PH_RSTAT_NSPAV
  /-- 07 R196: bits 0 to 0, W1C. -/
  | PH_RFLAG_SUBST
  /-- 07 R196: bits 1 to 1, W1C. -/
  | PH_RFLAG_NOSPARE
  /-- 07 R196: bits 2 to 2, W1C. -/
  | PH_RFLAG_BELOWMIN
  /-- 07 R196: bits 3 to 3, W1C. -/
  | PH_RFLAG_EMPTY
  /-- 07 R196: bits 4 to 4, W1C. -/
  | PH_RFLAG_SHDROP
  /-- 07 R196: bits 5 to 5, W1C. -/
  | PH_RFLAG_SHADD
  /-- 07 R196: bits 31 to 0, RWL. -/
  | PH_CHG
  /-- 07 R196: bits 31 to 0, RWL. -/
  | PH_HCYC
  /-- 07 R196: bits 31 to 0, RWL. -/
  | PH_STARTS
  /-- 07 R196: bits 31 to 0, RO. -/
  | PH_STRESS
  /-- 07 R196: bits 0 to 0, RO. -/
  | PH_PSTAT_RET
  /-- 07 R196: bits 4 to 1, RO. -/
  | PH_PSTAT_RCAUSE
  /-- 07 R196: bits 5 to 5, RO. -/
  | PH_PSTAT_SPARE
  /-- 07 R196: bits 6 to 6, RO. -/
  | PH_PSTAT_SUBV
  /-- 07 R196: bits 13 to 7, RO. -/
  | PH_PSTAT_SUBFOR
  /-- 07 R196: bits 0 to 0, WO. -/
  | PH_PCTL_RETIRE
  /-- 07 R196: bits 1 to 1, WO. -/
  | PH_PCTL_UNRET
  /-- 07 R196: bits 7 to 4, WO. -/
  | PH_PCTL_RCIN
  /-- 07 R196: bits 6 to 0, RO. -/
  | PH_RANK
  /-- 07 R196: bits 15 to 0, RW. -/
  | PH_CTCYC
  /-- 07 R196: bits 7 to 0, RW. -/
  | PH_CPRB
  /-- 07 R196: bits 1 to 0, RO. -/
  | PH_CSTAT_PSTATE
  /-- 07 R196: bits 4 to 2, RO. -/
  | PH_CSTAT_PK
  /-- 07 R196: bits 6 to 5, RO. -/
  | PH_CSTAT_NOIDC
  /-- 07 R196: bits 0 to 0, W1C. -/
  | PH_CFLAG_FOUND
  /-- 07 R196: bits 1 to 1, W1C. -/
  | PH_CFLAG_NOID
  /-- 08 R216: bits 0 to 0, W1C. -/
  | EV_STATUS_OWNERR
  /-- 08 R216: bits 1 to 1, W1C. -/
  | EV_STATUS_SECERR
  /-- 08 R216: bits 2 to 2, W1C. -/
  | EV_STATUS_LOCKERR
  /-- 08 R216: bits 3 to 3, W1C. -/
  | EV_STATUS_CFGERR
  /-- 08 R216: bits 9 to 4, RO. -/
  | EV_STATUS_LASTCH
  /-- 08 R216: bits 5 to 0, WO. -/
  | EV_PUB_CH
  /-- 08 R216: bits 15 to 15, WO. -/
  | EV_PUB_GO
  /-- 08 R216: bits 5 to 0, WO. -/
  | EV_PROXYPUB_CH
  /-- 08 R216: bits 15 to 15, WO. -/
  | EV_PROXYPUB_GO
  /-- 08 R216: bits 63 to 0, W1C. -/
  | EV_WATCH
  /-- 08 R216: bits 63 to 0, W1C. -/
  | EV_TRIP
  /-- 08 R216: bits 63 to 0, W1S. -/
  | EV_LOCK
  /-- 08 R216: bits 63 to 0, RW. -/
  | EV_WAKE
  /-- 08 R216: bits 63 to 0, RW. -/
  | EV_WFEMASK
  /-- 08 R216: bits 2 to 0, RW. -/
  | EV_CHCFG_OWNER
  /-- 08 R216: bits 3 to 3, RW. -/
  | EV_CHCFG_SEC
  /-- 08 R216: bits 7 to 0, RW. -/
  | EV_CHSG_SGMAX
  /-- 08 R216: bits 15 to 8, RW. -/
  | EV_CHSG_SGWIN
  /-- 08 R216: bits 15 to 0, RO. -/
  | EV_CHPUB
  /-- 08 R216: bits 15 to 0, RC. -/
  | EV_CHSUPP
  /-- 08 R216: bits 5 to 0, RW. -/
  | EV_TOCFG_CH
  /-- 08 R216: bits 6 to 6, RW. -/
  | EV_TOCFG_EN
  /-- 08 R216: bits 15 to 0, RC. -/
  | EV_TOCOAL
  /-- 08 R216: bits 5 to 0, RO. -/
  | EV_HWPUB_CH
  /-- 08 R216: bits 6 to 6, RO. -/
  | EV_HWPUB_EN
  /-- 08 R216: bits 5 to 0, WO. -/
  | EV_UPUB_CH
  /-- 08 R216: bits 15 to 15, WO. -/
  | EV_UPUB_GO
  /-- 08 R216: bits 63 to 0, RO. -/
  | EV_UWATCH
  /-- 08 R216: bits 0 to 0, RW. -/
  | CT_CFG_CAPEN
  /-- 08 R216: bits 1 to 1, RW. -/
  | CT_CFG_CMPEN
  /-- 08 R216: bits 2 to 2, RO. -/
  | CT_CFG_OUTEN
  /-- 08 R216: bits 8 to 3, RO. -/
  | CT_CFG_OUTCH
  /-- 08 R216: bits 13 to 9, RW. -/
  | CT_CFG_CFINE
  /-- 08 R216: bits 0 to 0, W1C. -/
  | CT_STAT_CAPV
  /-- 08 R216: bits 1 to 1, W1C. -/
  | CT_STAT_OVR
  /-- 08 R216: bits 2 to 2, W1C. -/
  | CT_STAT_MATCH
  /-- 08 R216: bits 3 to 3, W1C. -/
  | CT_STAT_LATE
  /-- 08 R216: bits 63 to 0, RO. -/
  | CT_CAP
  /-- 08 R216: bits 4 to 0, RO. -/
  | CT_SUB
  /-- 08 R216: bits 63 to 0, RW. -/
  | CT_CMP
  /-- 08 R216: bits 31 to 0, RW. -/
  | CT_PER
  /-- 08 R216: bits 31 to 0, RW. -/
  | CT_DLY
  /-- 08 R216: bits 15 to 0, RC. -/
  | CT_LOST
  /-- 11 R296: bits 23 to 11, RWL. -/
  | XC_VBASE
  /-- 11 R296: bits 0 to 0, W1S. -/
  | XC_CTRL_LOCK
  /-- 11 R296: bits 5 to 0, RO. -/
  | XC_STATUS_DEPTH
  /-- 11 R296: bits 6 to 6, RO. -/
  | XC_STATUS_RM
  /-- 11 R296: bits 7 to 7, RO. -/
  | XC_STATUS_MCIP
  /-- 11 R296: bits 9 to 8, RO. -/
  | XC_STATUS_SB
  /-- 11 R296: bits 10 to 10, RO. -/
  | XC_STATUS_DFHALT
  /-- 11 R297: bits 23 to 0, RO. -/
  | XC_XPC
  /-- 11 R297: bits 15 to 0, RO. -/
  | XC_XSW
  /-- 11 R297: bits 1 to 1, RO. -/
  | XC_XENT_REPV
  /-- 11 R297: bits 2 to 2, RO. -/
  | XC_XENT_LOOPV
  /-- 11 R297: bits 23 to 0, RO. -/
  | XC_XLS
  /-- 11 R297: bits 23 to 0, RO. -/
  | XC_XLE
  /-- 11 R298: bits 15 to 0, RO. -/
  | XC_XCAUSE
  /-- 11 R297: bits 23 to 0, RO. -/
  | XC_XFADDR
  /-- 11 R298: bits 23 to 0, RWL. -/
  | XC_GTBASE
  /-- 11 R298: bits 7 to 0, RW. -/
  | XC_ASID_ASID
  /-- 11 R298: bits 15 to 15, WO. -/
  | XC_ASID_FLUSH
  /-- 11 R298: bits 0 to 0, RW. -/
  | XC_MMU_TEN
  /-- 11 R298: bits 6 to 1, RWL. -/
  | XC_MMU_WIRED
  /-- 11 R298: bits 7 to 7, W1C. -/
  | XC_MMU_MULTI
  /-- 11 R298: bits 13 to 8, RO. -/
  | XC_MMU_RP
  /-- 11 R298: bits 23 to 0, RW. -/
  | XC_PTROOT
  /-- 11 R298: bits 23 to 0, RO. -/
  | XC_TLBVA_VA
  /-- 11 R298: bits 31 to 24, RO. -/
  | XC_TLBVA_ASID
  /-- 11 R298: bits 23 to 0, RO. -/
  | XC_TLBWADDR
  /-- 11 R298: bits 5 to 0, RW. -/
  | XC_TLBIDX
  /-- 11 R298: bits 13 to 0, RW. -/
  | XC_TLBTAG_VPN
  /-- 11 R298: bits 21 to 14, RW. -/
  | XC_TLBTAG_ASID
  /-- 11 R298: bits 23 to 22, RW. -/
  | XC_TLBTAG_SZ
  /-- 11 R298: bits 24 to 24, RW. -/
  | XC_TLBTAG_G
  /-- 11 R298: bits 25 to 25, RW. -/
  | XC_TLBTAG_V
  /-- 11 R298: bits 31 to 0, RW. -/
  | XC_TLBPTE
  /-- 11 R298: bits 0 to 0, WO. -/
  | XC_TLBOP_RD
  /-- 11 R298: bits 1 to 1, WO. -/
  | XC_TLBOP_WR
  /-- 11 R298: bits 0 to 0, RWL. -/
  | MPU_BASE_EN
  /-- 11 R298: bits 1 to 1, RWL. -/
  | MPU_BASE_R
  /-- 11 R298: bits 2 to 2, RWL. -/
  | MPU_BASE_W
  /-- 11 R298: bits 3 to 3, RWL. -/
  | MPU_BASE_X
  /-- 11 R298: bits 23 to 6, RWL. -/
  | MPU_BASE_BASE
  /-- 11 R298: bits 23 to 6, RWL. -/
  | MPU_LIM
  /-- 11 R298: bits 0 to 0, RWL. -/
  | XC_MPUCTL_EN
  /-- 12 R314: bits 63 to 0, RW. -/
  | UC_MW
  /-- 12 R314: bits 5 to 0, RW. -/
  | UC_DEC_START
  /-- 12 R314: bits 9 to 6, RW. -/
  | UC_DEC_PAGE
  /-- 12 R314: bits 10 to 10, RW. -/
  | UC_DEC_VALID
  /-- 12 R314: bits 11 to 11, RW. -/
  | UC_DEC_MCONLY
  /-- 12 R314: bits 12 to 12, RW. -/
  | UC_DEC_PRIV
  /-- 12 R314: bits 0 to 0, RW. -/
  | UC_CTRL_LDEN
  /-- 12 R314: bits 1 to 1, W1S. -/
  | UC_CTRL_VLOCK
  /-- 12 R314: bits 0 to 0, W1C. -/
  | UC_STATUS_LDERR
  /-- 12 R314: bits 1 to 1, W1C. -/
  | UC_STATUS_LIVEERR
  /-- 12 R314: bits 2 to 2, W1C. -/
  | UC_STATUS_FMTERR
  /-- 12 R314: bits 3 to 3, RO. -/
  | UC_STATUS_EPEND
  /-- 12 R314: bits 15 to 0, RC. -/
  | UC_ECC
  /-- 12 R314: bits 9 to 0, RO. -/
  | UC_UEADDR_MW
  /-- 12 R314: bits 12 to 10, RO. -/
  | UC_UEADDR_CORE
  /-- 12 R314: bits 13 to 13, W1C. -/
  | UC_UEADDR_V
  /-- 12 R314: bits 15 to 0, RO. -/
  | UC_PAGEUSE
  /-- 13 R329: bits 0 to 0, RW. -/
  | IR_SRCCFG_EN
  /-- 13 R329: bits 2 to 1, RW. -/
  | IR_SRCCFG_SENSE
  /-- 13 R329: bits 6 to 3, RW. -/
  | IR_SRCCFG_PRIO
  /-- 13 R329: bits 9 to 7, RW. -/
  | IR_SRCCFG_TGT
  /-- 13 R329: bits 10 to 10, RW. -/
  | IR_SRCCFG_WAKE
  /-- 13 R329: bits 7 to 0, RW. -/
  | IR_SRCRL_RLMAX
  /-- 13 R329: bits 15 to 8, RW. -/
  | IR_SRCRL_RLWIN
  /-- 13 R329: bits 0 to 0, RO. -/
  | IR_SRCST_PEND
  /-- 13 R329: bits 1 to 1, W1S. -/
  | IR_SRCST_SPEND
  /-- 13 R329: bits 2 to 2, RO. -/
  | IR_SRCST_ACT
  /-- 13 R329: bits 3 to 3, RO. -/
  | IR_SRCST_RAW
  /-- 13 R329: bits 4 to 4, W1C. -/
  | IR_SRCST_RLIM
  /-- 13 R329: bits 5 to 5, W1C. -/
  | IR_SRCST_STRAND
  /-- 13 R329: bits 8 to 6, RO. -/
  | IR_SRCST_ETGT
  /-- 13 R329: bits 0 to 0, WO. -/
  | IR_SRCCLR_CLR
  /-- 13 R329: bits 4 to 0, RO. -/
  | IR_CRUN_RUN
  /-- 13 R329: bits 9 to 5, RO. -/
  | IR_CRUN_NACT
  /-- 13 R329: bits 7 to 0, RO. -/
  | IR_CBEST_SRC
  /-- 13 R329: bits 11 to 8, RO. -/
  | IR_CBEST_PRIO
  /-- 13 R329: bits 7 to 0, RO. -/
  | IR_CLAST_SRC
  /-- 13 R329: bits 15 to 0, RC. -/
  | IR_CSPUR
  /-- 13 R329: bits 7 to 0, RW. -/
  | IR_CTRL_STRTMO
  /-- 13 R329: bits 0 to 0, W1C. -/
  | IR_STATUS_CFGERR
  /-- 13 R329: bits 1 to 1, W1C. -/
  | IR_STATUS_RLIM
  /-- 13 R329: bits 2 to 2, W1C. -/
  | IR_STATUS_STRAND
  /-- 14 R341: bits 2 to 0, RO. -/
  | LS_PAIR_STATE
  /-- 14 R341: bits 3 to 3, RO. -/
  | LS_PAIR_SURV
  /-- 14 R341: bits 4 to 4, RO. -/
  | LS_PAIR_COMPFAIL
  /-- 14 R341: bits 5 to 5, RO. -/
  | LS_PAIR_LBP
  /-- 14 R341: bits 6 to 6, RO. -/
  | LS_PAIR_LBC
  /-- 14 R341: bits 9 to 7, RO. -/
  | LS_PAIR_DUTY
  /-- 14 R341: bits 2 to 0, RO. -/
  | LS_MM_GROUP
  /-- 14 R341: bits 3 to 3, W1C. -/
  | LS_MM_V
  /-- 14 R341: bits 11 to 4, RO. -/
  | LS_MM_COUNT
  /-- 14 R341: bits 15 to 0, RO. -/
  | LS_MMT
  /-- 14 R341: bits 0 to 0, RO. -/
  | LS_STATUS_DBGSPLIT
  /-- 14 R341: bits 1 to 1, RO. -/
  | LS_STATUS_TKOVER
  /-- 14 R341: bits 4 to 2, RO. -/
  | LS_STATUS_TKFOR
  /-- 14 R341: bits 5 to 5, RO. -/
  | LS_STATUS_INJDONE
  /-- 14 R341: bits 0 to 0, WO. -/
  | LS_TKOVER_DONE
  /-- 15 R367: bits 0 to 0, RW. -/
  | DMA_CFG_EN
  /-- 15 R367: bits 1 to 1, RW. -/
  | DMA_CFG_TRGEN
  /-- 15 R367: bits 3 to 2, RW. -/
  | DMA_CFG_WRAPSEL
  /-- 15 R367: bits 8 to 4, RW. -/
  | DMA_CFG_WRAP
  /-- 15 R367: bits 11 to 9, RW. -/
  | DMA_CFG_RETRY
  /-- 15 R367: bits 14 to 12, RO. -/
  | DMA_CFG_OWNER
  /-- 15 R367: bits 0 to 0, RO. -/
  | DMA_STAT_BUSY
  /-- 15 R367: bits 1 to 1, RO. -/
  | DMA_STAT_HALT
  /-- 15 R367: bits 4 to 2, RO. -/
  | DMA_STAT_ERR
  /-- 15 R367: bits 8 to 5, RO. -/
  | DMA_STAT_PEND
  /-- 15 R367: bits 9 to 9, W1C. -/
  | DMA_STAT_OVR
  /-- 15 R367: bits 10 to 10, W1C. -/
  | DMA_STAT_DONE
  /-- 15 R367: bits 0 to 0, WO. -/
  | DMA_CTL_TRIG
  /-- 15 R367: bits 1 to 1, WO. -/
  | DMA_CTL_RESUME
  /-- 15 R367: bits 2 to 2, WO. -/
  | DMA_CTL_ABORT
  /-- 15 R367: bits 31 to 0, RW. -/
  | DMA_SRC
  /-- 15 R367: bits 31 to 0, RW. -/
  | DMA_DST
  /-- 15 R367: bits 31 to 0, RW. -/
  | DMA_LIST
  /-- 15 R367: bits 31 to 0, RO. -/
  | DMA_ERRADDR
  /-- 15 R367: bits 12 to 0, RW. -/
  | DMA_CNT_BURST
  /-- 15 R367: bits 1 to 0, RO. -/
  | D4_CFG_SIZE
  /-- 15 R367: bits 2 to 2, RW. -/
  | D4_CFG_CORRWB
  /-- 15 R367: bits 7 to 3, RO. -/
  | D4_CFG_TSRC
  /-- 15 R367: bits 0 to 0, W1S. -/
  | D4_CTRL_LOCK
  /-- 15 R367: bits 0 to 0, RO. -/
  | D4_STATUS_RDY
  /-- 15 R367: bits 1 to 1, RO. -/
  | D4_STATUS_TRAINERR
  /-- 15 R367: bits 2 to 2, RO. -/
  | D4_STATUS_SREF
  /-- 15 R367: bits 3 to 3, RO. -/
  | D4_STATUS_RETBUSY
  /-- 15 R367: bits 4 to 4, W1C. -/
  | D4_STATUS_POOLEX
  /-- 15 R367: bits 5 to 5, W1C. -/
  | D4_STATUS_CFGERR
  /-- 15 R367: bits 6 to 6, W1C. -/
  | D4_STATUS_LISTFULL
  /-- 15 R367: bits 15 to 0, RC. -/
  | D4_CECNT
  /-- 15 R367: bits 15 to 0, RC. -/
  | D4_UECNT
  /-- 15 R367: bits 3 to 0, RW. -/
  | D4_RETCFG_CETHR
  /-- 15 R367: bits 31 to 0, RO. -/
  | D4_ERRADDR
  /-- 15 R367: bits 19 to 0, WO. -/
  | D4_RETADD_PAGE
  /-- 15 R367: bits 10 to 0, RO. -/
  | D4_NRET
  /-- 15 R367: bits 19 to 0, RO. -/
  | D4_RET_PAGE
  /-- 15 R367: bits 31 to 31, RO. -/
  | D4_RET_V
  /-- 15 R367: bits 19 to 0, RO. -/
  | D4_RETX_PAGE
  /-- 15 R367: bits 31 to 31, RO. -/
  | D4_RETX_V
  /-- 15 R367: bits 15 to 0, RC. -/
  | MS_CE
  /-- 15 R367: bits 15 to 0, RC. -/
  | MS_UE
  /-- 15 R367: bits 6 to 0, RO. -/
  | MS_REP_REPUSED
  /-- 15 R367: bits 7 to 7, RO. -/
  | MS_REP_NOREP
  /-- 15 R367: bits 15 to 0, RO. -/
  | MS_UEADDR
  /-- 15 R367: bits 0 to 0, RW. -/
  | RC_CTRL_EN
  /-- 15 R367: bits 1 to 1, WO. -/
  | RC_CTRL_RESUME
  /-- 15 R367: bits 2 to 2, WO. -/
  | RC_CTRL_FRZNOW
  /-- 15 R367: bits 3 to 3, WO. -/
  | RC_CTRL_STGARM
  /-- 15 R367: bits 4 to 4, WO. -/
  | RC_CTRL_TRIG
  /-- 15 R367: bits 0 to 0, RO. -/
  | RC_STATUS_FROZEN
  /-- 15 R367: bits 1 to 1, RO. -/
  | RC_STATUS_NODDR
  /-- 15 R367: bits 2 to 2, RO. -/
  | RC_STATUS_WINV
  /-- 15 R367: bits 3 to 3, RO. -/
  | RC_STATUS_STGARMED
  /-- 15 R367: bits 4 to 4, RO. -/
  | RC_STATUS_WRAPPED
  /-- 15 R367: bits 5 to 5, W1C. -/
  | RC_STATUS_CFGERR
  /-- 15 R367: bits 31 to 0, RW. -/
  | RC_BASE
  /-- 15 R367: bits 23 to 0, RO. -/
  | RC_WIDX
  /-- 15 R367: bits 23 to 0, RO. -/
  | RC_FRZIDX
  /-- 15 R367: bits 23 to 0, RW. -/
  | RC_FRZPOST
  /-- 15 R367: bits 15 to 0, RW. -/
  | RC_RAILPER
  /-- 15 R367: bits 15 to 0, RW. -/
  | RC_PHPER
  /-- 15 R367: bits 15 to 0, RW. -/
  | RC_RAILMASK
  /-- 15 R367: bits 15 to 0, RW. -/
  | RC_FRZMASK
  /-- 15 R367: bits 15 to 0, RC. -/
  | RC_DROP
  /-- 15 R367: bits 15 to 0, RC. -/
  | RC_DROPF
  /-- 15 R367: bits 63 to 0, RW. -/
  | RC_EVMASK
  /-- 15 R367: bits 15 to 0, RW. -/
  | RC_STGMASK
  /-- 15 R367: bits 15 to 0, RW. -/
  | RC_STGTRGMASK
  /-- 15 R367: bits 15 to 0, RW. -/
  | RC_STGPRE
  /-- 15 R367: bits 15 to 0, RO. -/
  | RC_STGTRIG
  /-- 15 R367: bits 15 to 0, RW. -/
  | RC_MSG
  /-- 15 R367: bits 0 to 0, WO. -/
  | RC_MSGGO_GO
  /-- 16 R390: bits 7 to 0, RW. -/
  | HG_CTRL_EXTMO
  /-- 16 R390: bits 0 to 0, RO. -/
  | HG_STATUS_RQAV
  /-- 16 R390: bits 1 to 1, RO. -/
  | HG_STATUS_CPLFULL
  /-- 16 R390: bits 2 to 2, W1C. -/
  | HG_STATUS_CFGERR
  /-- 16 R390: bits 7 to 0, RO. -/
  | HG_XHDR0_TYPE
  /-- 16 R390: bits 15 to 8, RO. -/
  | HG_XHDR0_TAG
  /-- 16 R390: bits 3 to 0, RO. -/
  | HG_XHDR1_EPOCH
  /-- 16 R390: bits 6 to 4, RO. -/
  | HG_XHDR1_PORT
  /-- 16 R390: bits 7 to 7, RO. -/
  | HG_XHDR1_XV
  /-- 16 R390: bits 15 to 8, RO. -/
  | HG_XHDR1_TARGET
  /-- 16 R390: bits 15 to 0, RO. -/
  | HG_XHDR2_LEN
  /-- 16 R390: bits 0 to 0, WO. -/
  | HG_XCTL_TAKE
  /-- 16 R390: bits 1 to 1, WO. -/
  | HG_XCTL_DONE
  /-- 16 R390: bits 7 to 4, RW. -/
  | HG_XCTL_STATUS
  /-- 16 R390: bits 12 to 0, RW. -/
  | HG_XCLEN_LEN
  /-- 16 R390: bits 0 to 0, RO. -/
  | HG_PCFG_EN
  /-- 16 R390: bits 1 to 1, RW. -/
  | HG_PCFG_PECREQ
  /-- 16 R390: bits 3 to 2, RO. -/
  | HG_PCFG_SPEED
  /-- 16 R390: bits 3 to 0, RO. -/
  | HG_PSTAT_EPOCH
  /-- 16 R390: bits 8 to 4, RO. -/
  | HG_PSTAT_QUSED
  /-- 16 R390: bits 12 to 9, RO. -/
  | HG_PSTAT_LAST
  /-- 16 R390: bits 0 to 0, WO. -/
  | HG_PCTL_PRST
  /-- 16 R390: bits 15 to 0, RC. -/
  | HG_FRAMEERR
  /-- 16 R390: bits 15 to 0, RC. -/
  | HG_PARTIAL
  /-- 16 R390: bits 15 to 0, RC. -/
  | HG_STALE
  /-- 16 R390: bits 15 to 0, RC. -/
  | HG_TAGDUP
  /-- 16 R390: bits 15 to 0, RC. -/
  | HG_QFULL
  /-- 16 R390: bits 3 to 0, RO. -/
  | HG_AVSMAP_RAIL0
  /-- 16 R390: bits 4 to 4, RO. -/
  | HG_AVSMAP_V0
  /-- 16 R390: bits 11 to 8, RO. -/
  | HG_AVSMAP_RAIL1
  /-- 16 R390: bits 12 to 12, RO. -/
  | HG_AVSMAP_V1
  /-- 16 R390: bits 15 to 0, RO. -/
  | HG_XBUF
  /-- 16 R390: bits 15 to 0, RW. -/
  | HG_CBUF
  /-- 16 R390: bits 15 to 0, RW. -/
  | HG_CACHE
  /-- 17 R413: bits 2 to 0, RO. -/
  | IM_STATE_STEP
  /-- 17 R413: bits 3 to 3, RO. -/
  | IM_STATE_WARM
  /-- 17 R413: bits 4 to 4, RO. -/
  | IM_STATE_PROV
  /-- 17 R413: bits 5 to 5, RO. -/
  | IM_STATE_NOFW
  /-- 17 R413: bits 6 to 6, RO. -/
  | IM_STATE_NOSI
  /-- 17 R413: bits 7 to 7, RO. -/
  | IM_STATE_NOCM
  /-- 17 R413: bits 11 to 8, RO. -/
  | IM_STATE_SLOT
  /-- 17 R413: bits 15 to 12, RO. -/
  | IM_STATE_FALLBK
  /-- 17 R413: bits 15 to 0, RO. -/
  | IM_STEPT
  /-- 17 R413: bits 0 to 0, WO. -/
  | IM_CTRL_GO
  /-- 17 R413: bits 0 to 0, W1C. -/
  | IM_ERR_GOERR
  /-- 17 R413: bits 1 to 1, W1C. -/
  | IM_ERR_SLERR
  /-- 17 R413: bits 2 to 2, W1C. -/
  | IM_ERR_RSERR
  /-- 17 R413: bits 7 to 0, RO. -/
  | IM_TRIAL_LEFT
  /-- 17 R413: bits 8 to 8, RO. -/
  | IM_TRIAL_RUN
  /-- 17 R413: bits 9 to 9, W1C. -/
  | IM_TRIAL_FAIL
  /-- 17 R413: bits 10 to 10, WO. -/
  | IM_TRIAL_STOP
  /-- 17 R413: bits 2 to 0, RO. -/
  | IM_VRES_CODE
  /-- 17 R413: bits 6 to 4, RO. -/
  | IM_VRES_KIND
  /-- 17 R413: bits 23 to 0, RW. -/
  | IM_UPD_OFS
  /-- 17 R413: bits 26 to 24, RW. -/
  | IM_UPD_KIND
  /-- 17 R413: bits 27 to 27, RW. -/
  | IM_UPD_SLOT
  /-- 17 R413: bits 31 to 0, RW. -/
  | IM_SLADDR
  /-- 17 R413: bits 15 to 0, WO. -/
  | IM_SLDATA
  /-- 17 R413: bits 15 to 0, WO. -/
  | IM_RSDONE
  /-- 17 R413: bits 0 to 0, RO. -/
  | OT_STATUS_DBGLOCK
  /-- 17 R413: bits 3 to 1, RO. -/
  | OT_STATUS_KSACT
  /-- 17 R413: bits 7 to 4, RO. -/
  | OT_STATUS_KSPROG
  /-- 17 R413: bits 11 to 8, RO. -/
  | OT_STATUS_KSREV
  /-- 17 R413: bits 7 to 0, RO. -/
  | OT_CNT_VAL
  /-- 17 R413: bits 8 to 8, RO. -/
  | OT_CNT_B1
  /-- 17 R413: bits 9 to 9, RO. -/
  | OT_CNT_EXH
  /-- 18 R432: bits 0 to 0, RW. -/
  | DR_CFG_SCRUB
  /-- 18 R432: bits 1 to 1, RW. -/
  | DR_CFG_ROT
  /-- 18 R432: bits 2 to 2, RW. -/
  | DR_CFG_ID
  /-- 18 R432: bits 3 to 3, RW. -/
  | DR_CFG_IDSTG
  /-- 18 R432: bits 15 to 8, RW. -/
  | DR_CFG_SRAMU
  /-- 18 R432: bits 15 to 0, RW. -/
  | DR_BUDGET
  /-- 18 R432: bits 7 to 0, RW. -/
  | DR_SCRUB2_DDR4INT
  /-- 18 R432: bits 15 to 8, RW. -/
  | DR_SCRUB2_WCSU
  /-- 18 R432: bits 15 to 0, RW. -/
  | DR_LOG_LOGPER
  /-- 18 R432: bits 15 to 0, RC. -/
  | DR_STAT_OVR
  /-- 18 R432: bits 0 to 0, RW. -/
  | DR_IDCFG_IDEN
  /-- 18 R432: bits 7 to 1, RW. -/
  | DR_IDCFG_AMP
  /-- 18 R432: bits 15 to 8, RW. -/
  | DR_IDCFG_PER
  /-- 18 R432: bits 15 to 0, RW. -/
  | DR_IDCDES
  /-- 18 R432: bits 15 to 0, RW. -/
  | DR_IDCMIN
  /-- 18 R432: bits 15 to 0, RW. -/
  | DR_IDCMAX
  /-- 18 R432: bits 7 to 0, RW. -/
  | DR_IDTUNE_STEP
  /-- 18 R432: bits 15 to 8, RW. -/
  | DR_IDTUNE_WATCH
  /-- 18 R432: bits 3 to 0, RW. -/
  | DR_IDSTAT_CODE
  /-- 18 R432: bits 15 to 8, RW. -/
  | DR_IDSTAT_WLEFT
  /-- 18 R432: bits 13 to 0, RW. -/
  | DR_IDBASE
  /-- 18 R432: bits 15 to 0, RW. -/
  | DR_IDSLEWUP
  /-- 18 R432: bits 15 to 0, RW. -/
  | DR_IDSLEWDN
  /-- 18 R432: bits 15 to 0, RW. -/
  | DR_IDC
  /-- 18 R432: bits 15 to 0, RW. -/
  | DR_IDESR
  /-- 18 R432: bits 15 to 0, RW. -/
  | DR_IDL
  /-- 18 R433: bits 3 to 0, RW. -/
  | MS_SCRUBCTL_MEM
  /-- 18 R433: bits 4 to 4, WO. -/
  | MS_SCRUBCTL_GO
  /-- 18 R433: bits 5 to 5, RO. -/
  | MS_SCRUBCTL_BUSY
  /-- 18 R433: bits 6 to 6, W1C. -/
  | MS_SCRUBCTL_DONE
  /-- 18 R433: bits 7 to 7, W1C. -/
  | MS_SCRUBCTL_ERR
  /-- 18 R433: bits 31 to 0, RW. -/
  | MS_SCRUBADDR
  /-- 18 R433: bits 9 to 0, RO. -/
  | MS_SCRUBRES_CE
  /-- 18 R433: bits 10 to 10, RO. -/
  | MS_SCRUBRES_UE
  /-- 19 R449: bits 1 to 0, RW. -/
  | PW_CTRL_SLEEP
  /-- 19 R449: bits 2 to 2, WO. -/
  | PW_CTRL_MCRST
  /-- 19 R449: bits 0 to 0, RO. -/
  | PW_STATE_IDLE
  /-- 19 R449: bits 2 to 1, RO. -/
  | PW_STATE_LAST
  /-- 19 R449: bits 5 to 3, RO. -/
  | PW_STATE_WSRC
  /-- 19 R449: bits 6 to 6, W1C. -/
  | PW_STATE_REQERR
  /-- 19 R449: bits 7 to 7, W1C. -/
  | PW_STATE_ABORT
  /-- 19 R449: bits 7 to 0, RO. -/
  | PW_WAKEID
  /-- 19 R449: bits 31 to 0, RO. -/
  | PW_SLEEPT
  /-- 19 R449: bits 2 to 0, RO. -/
  | PW_RSTCAUSE_CCAUSE
  /-- 19 R449: bits 5 to 3, RO. -/
  | PW_RSTCAUSE_SUPIDX
  /-- 19 R449: bits 9 to 6, RO. -/
  | PW_RSTCAUSE_MCCAUSE
  /-- 19 R449: bits 15 to 0, RO. -/
  | PW_MCCNT
  /-- 19 R449: bits 7 to 0, RWL. -/
  | PW_WDOG_TMO
  /-- 19 R449: bits 15 to 0, WO. -/
  | PW_WDKICK
  /-- 19 R449: bits 7 to 0, RO. -/
  | PW_SUP_OK
  /-- 19 R449: bits 0 to 0, RO. -/
  | PW_CLK_CLKSEL
  /-- 19 R449: bits 1 to 1, RO. -/
  | PW_CLK_MPLOCK
  /-- 19 R449: bits 2 to 2, RO. -/
  | PW_CLK_DPLOCK
  /-- 19 R449: bits 6 to 3, RO. -/
  | PW_CLK_LPLOCK
  /-- 19 R449: bits 0 to 0, RW. -/
  | PW_TCCTL_RUN
  /-- 19 R449: bits 1 to 1, RO. -/
  | PW_TCCTL_HELD
  /-- 19 R449: bits 23 to 0, RW. -/
  | PW_TCSTART
  /-- 01 R34: TICK, the count of control ticks. -/
  | tick
  /-- 00 R6: latched snapshot word served to core and DMA reads. -/
  | latchWord
  /-- 00 R9: latched snapshot word served to JTAG debug reads. -/
  | latchDbg
  /-- 00 R6: lower word kept in a holding register. -/
  | holdWord
  /-- 00 R6: the lower word has been written since the last store. -/
  | holdMark
  /-- 00 R7: MODEL'S view of the bus: the word the last read returned. -/
  | readData
  /-- 00 R10: MODEL'S view of the bus: the last access ended in a bus error. -/
  | readError
  /-- 01 R23: the rail has taken its one transition of the coming boundary. -/
  | railMoved
  /-- 01 R24: tick at which the rail entered OFF. -/
  | offSince
  /-- 01 R24: tick at which the rail entered RAMP_UP. -/
  | rampSince
  /-- 01 R28: a stop request stands for the next boundary. -/
  | stopReq
  /-- 01 R29: a fault scope reaches the rail at the next boundary. -/
  | scopeReq
  /-- 01 R24: FCLR has been written in this tick. -/
  | fclrReq
  /-- 01 R24: RSREQ has been written in this tick. -/
  | rsReq
  /-- 01 R24: re-structure complete: 1 to OFF, 2 to UNUSED. -/
  | rsDone
  /-- 01 R27: tick of the last PGOOD assertion of the rail. -/
  | predPgAt
  /-- 01 R26: the ENn level being timed. -/
  | enCand
  /-- 01 R26: ticks the level has been stable. -/
  | enStable
  /-- 01 R26: ticks without a stable level being accepted. -/
  | enWait
  /-- 01 R31: consecutive in-window ticks. -/
  | pgIn
  /-- 01 R31: consecutive out-of-window ticks. -/
  | pgOut
  /-- 01 R21: consecutive ticks of domain excess. -/
  | domXCnt
  /-- 01 R21: consecutive ticks of device excess. -/
  | devXCnt
  /-- 17 R400: the fabric is programmed. -/
  | fabricOn
  /-- 08 R202: core event latch tested by WFE. -/
  | evLatch
  /-- 08 R210: events of the channel in its storm-guard window. -/
  | sgCount
  /-- 08 R210: end of the channel's storm-guard window. -/
  | sgEnd
  /-- 08 R210: a storm-guard window is running. -/
  | sgOpen
  /-- 08 R214: a START waits for the boundary. -/
  | startPend
  /-- 08 R214: compare tick that the START gives. -/
  | startCmp
  /-- 08 R203: channel of the first wake event while the device sleeps, plus one. -/
  | evWakeReq
  /-- 19 R444: 0 RUN or IDLE, 1 STANDBY, 2 DEEP SLEEP. -/
  | sleepMode
  /-- 02 R53: raw code of the uniform windows being counted. -/
  | phStuckCode
  /-- 02 R53: consecutive uniform windows of one code. -/
  | phStuckCnt
  /-- 02 R53: deviation code of the uniform windows being counted. -/
  | vStuckCode
  /-- 02 R53: consecutive uniform windows of one code. -/
  | vStuckCnt
  /-- 02 R53: code of the equal auxiliary samples being counted. -/
  | auxStuckCode
  /-- 02 R53: consecutive equal auxiliary samples. -/
  | auxStuckCnt
  /-- 02 R53: code of the equal temperature samples being counted. -/
  | tmStuckCode
  /-- 02 R53: consecutive equal temperature samples. -/
  | tmStuckCnt
  /-- 02 R56: least raw code of the ripple window. -/
  | ripMin
  /-- 02 R56: greatest raw code of the ripple window. -/
  | ripMax
  /-- 02 R477: boundary at which the last ripple window was judged. -/
  | ripEnded
  /-- 02 R56: PWMn has been high in this ripple window. -/
  | pwmHigh
  /-- 02 R56: consecutive failed tests of a current input. -/
  | openFail
  /-- 02 R55: consecutive failed tests of a sense pair. -/
  | vOpenFail
  /-- 02 R48: the present window of the current input is held. -/
  | phHold
  /-- 02 R48: the present window of the sense pair is held. -/
  | vHold
  /-- 02 R63: 1 a current test waits for the handover, else the tick in whose window it is made. -/
  | phDefer
  /-- 02 R63: 1 a voltage test waits for the handover, else the tick in whose window it is made. -/
  | vDefer
  /-- 02 R58: t0 of the rotation step of the cluster or group. -/
  | rotT0
  /-- 02 R58: shadow ticks that disagreed. -/
  | rotDis
  /-- 02 R59: 1 after an abort, 2 when the first aborted input is the next target. -/
  | rotRetry
  /-- 02 R59: position whose step was aborted first. -/
  | rotFirst
  /-- 02 R60: a step has been made, so that POS is the last target. -/
  | rotAny
  /-- 02 R44: window reference of the window being taken. -/
  | wref
  /-- 02 R50: most recent VIN result, 10 mV units. -/
  | vin
  /-- 02 R50: a VIN result exists. -/
  | vinValid
  /-- 02 R50: image default of the input-bus value. -/
  | vinDefault
  /-- 02 R64: the Flume is powered. -/
  | flumeOn
  /-- 02 R64: tick at which the Flume was powered. -/
  | flumeFrom
  /-- 03 R69: compensator error of the previous run. -/
  | lnE1
  /-- 03 R69: compensator error of the run before. -/
  | lnE2
  /-- 03 R69: filter state w1. -/
  | lnW1
  /-- 03 R69: filter state w2. -/
  | lnW2
  /-- 03 R69: integrator, Q23.17. -/
  | lnInteg
  /-- 03 R82: balance accumulator of the slot, Q12.12. -/
  | lnBalAcc
  /-- 03 R82: boundary from which the slot's balance may update. -/
  | lnBalFrom
  /-- 03 R85: a COPY waits for the boundary. -/
  | copyReq
  /-- 01 R28: rail state before the last boundary. -/
  | prevState
  /-- 03 R73: a Spillway action forces a phase of the rail in this tick: 1 from its boundary on, 2 from inside it. -/
  | forced
  /-- 07 R188: mask of the retirement causes that wait for the boundary. -/
  | retReq
  /-- 04 R98: phase command delivered to the modulator at the last boundary. -/
  | sluiceCmd
  /-- 03 R78: forecast feed-forward that the domain's forecast logic supplies. -/
  | ffcIn
  /-- 06 R171: the CMDHI condition held in the last run. -/
  | cmdHiNow
  /-- 20 R470: EXTEST, CLAMP or HIGHZ in force holds every enable false. -/
  | enableHold
  /-- 04 R93: instant of the rail's last wrap, in steps since TICK 0. -/
  | tbWrap
  /-- 04 R96: SYNCIN correction of the cycle in progress. -/
  | tbAdj
  /-- 04 R93: stored PER that the next wrap takes. -/
  | perNext
  /-- 04 R96: instant of the last SYNCIN rising edge. -/
  | syncLast
  /-- 04 R96: a SYNCIN edge has been seen. -/
  | syncAny
  /-- 04 R97: SYNCIN is being tracked. -/
  | syncTrack
  /-- 04 R97: consecutive measured periods within 1 percent of each other. -/
  | syncGood
  /-- 04 R97: least of those periods. -/
  | syncLo
  /-- 04 R97: greatest of those periods. -/
  | syncHi
  /-- 04 R96: SYNCIN edges since the rail's last aligning edge. -/
  | syncEdges
  /-- 04 R96: instant of the rail's last aligning SYNCIN edge. -/
  | syncRef
  /-- 04 R97: consecutive wraps within the lock limits. -/
  | lockCnt
  /-- 04 R94: start of the phase's carrier cycle. -/
  | cycStart
  /-- 04 R94: a carrier cycle has started. -/
  | cycAny
  /-- 04 R113: horizon of the boundary at which the phase was added. -/
  | addFrom
  /-- 04 R105: the modulator's pulse is high. -/
  | modHigh
  /-- 04 R98: last on-edge. -/
  | onAt
  /-- 04 R103: last off-edge, or release of a higher level. -/
  | offAt
  /-- 04 R103: delayed on-edge. -/
  | onSched
  /-- 04 R91: scheduled off-edge. -/
  | offSched
  /-- 04 R103: 1 the scheduled off-edge is the minimum on-time's, 2 the maximum duty's. -/
  | offCause
  /-- 04 R100: the cycle's compare-caused off-edge has been used. -/
  | cmpUsed
  /-- 04 R106: mid-level after a zero crossing. -/
  | midZc
  /-- 04 R108: a pulse insertion waits for the boundary. -/
  | insReq
  /-- 04 R108: an insertion on every active phase waits for the boundary. -/
  | insAllReq
  /-- 04 R108: start of an inserted pulse. -/
  | insStart
  /-- 04 R108: end of an inserted pulse. -/
  | insEnd
  /-- 04 R108: the inserted pulse is high. -/
  | insOn
  /-- 04 R110: slots named in SL_RADD in this tick. -/
  | addReq
  /-- 04 R110: slots named in SL_RDROP in this tick. -/
  | dropReq
  /-- 04 R112: 1 a dropped phase ends its pulse, 2 it is held low. -/
  | dropState
  /-- 04 R112: tick from which the low hold runs. -/
  | dropFrom
  /-- 04 R117: rise of the present pulse at the output. -/
  | highAt
  /-- 04 R109: a level of rows 1 to 3 of R109 stands. -/
  | blocked
  /-- 04 R109: all-off on the rail: 1 low, 2 mid-level. -/
  | allOff
  /-- 04 R109: the phase is in an all-on burst. -/
  | inBurst
  /-- 04 R109: level of the rail's phases in FAULT: 0 mid-level, 1 low. -/
  | faultLevel
  /-- 04 R114: a level change waits for its readback check. -/
  | rbArmed
  /-- 04 R114: consecutive changes whose readback disagreed. -/
  | rbCnt
  /-- 04 R115: the phase waits at mid-level for its next carrier start under EG8. -/
  | egWait
  /-- 04 R115: EG8 serves the phase and no readback under it has agreed yet. -/
  | egTrial
  /-- 04 R116: the Sluice is being programmed. -/
  | sluiceOn
  /-- 06 R173: the phase is held isolated with its cluster. -/
  | isolated
  /-- 06 R168: mid-level by an active TFLTn before the boundary judges it. -/
  | tfMid
  /-- 06 R171: the present carrier cycle's pulse has been terminated by the weir. -/
  | termCyc
  /-- 06 R171: consecutive terminated carrier cycles. -/
  | ocCnt
  /-- 04 R97: SYNCIN has been lost and not yet regained. -/
  | syncLost
  /-- 06 R175: mask of the matrix codes that ask for FAULT at the next boundary. -/
  | faultCodes
  /-- 06 R175: one of those codes is latched. -/
  | faultLatchReq
  /-- 06 R174: boundary at which the rail entered FAULT. -/
  | faultAt
  /-- 06 R175: mask of the codes the rail entered FAULT with. -/
  | faultIn
  /-- 06 R174: the fault is latched. -/
  | faultLatched
  /-- 06 R176: rail that caused the scope. -/
  | scopeFrom
  /-- 06 R174: consecutive ticks in which the rail's input weirs are INSIDE. -/
  | auxIn
  /-- 06 R174: consecutive management-tick boundaries in REGULATING. -/
  | regMt
  /-- 06 R160: EN as it stood at the last boundary. -/
  | wrOn
  /-- 06 R161: the weir compares (its rail lets it). -/
  | wrRun
  /-- 06 R160: boundary or tick at which the settling hold began. -/
  | wrSettle
  /-- 06 R162: tick of the last sampled-mode comparison. -/
  | wrSampled
  /-- 06 R178: the loss of the failed weir has been acted on. -/
  | wrLoss
  /-- 06 R166: protection all-off in force. -/
  | ovOff
  /-- 06 R167: the all-off began while the rail ran; 2 once OVOFF has been set for it. -/
  | ovRun
  /-- 06 R167: all-off of auxiliary weir a in force until it is INSIDE. -/
  | auxOff
  /-- 05 R123: transient all-off in force. -/
  | trOff
  /-- 05 R123: tick of the crossing that began it. -/
  | trFrom
  /-- 06 R178: the transient weir is lost. -/
  | trLost
  /-- 06 R178: the protection weir is lost. -/
  | protLost
  /-- 05 R120: an all-on burst is in force. -/
  | burstOn
  /-- 05 R121: tick of the crossing that began the burst. -/
  | burstFrom
  /-- 05 R122: tick at which the last burst ended. -/
  | burstEnd
  /-- 05 R122: a burst was in force in this tick. -/
  | burstTick
  /-- 06 R165: consecutive ticks in ABOVE. -/
  | ovCnt
  /-- 06 R165: consecutive ticks in BELOW. -/
  | uvCnt
  /-- 06 R171: consecutive windows over ROCLIM. -/
  | rocCnt
  /-- 06 R171: consecutive ticks of the CMDHI condition. -/
  | lsatCnt
  /-- 06 R168: consecutive equal TFLTn samples. -/
  | tfRun
  /-- 06 R168: raw changes since the filtered level changed. -/
  | tfChg
  /-- 06 R169: ticks the filtered level has been active. -/
  | tfAct
  /-- 06 R193: consecutive ticks the filtered level has been inactive. -/
  | tfIn
  /-- 06 R169: a stuck line blocks retries of the cluster's rails. -/
  | tfStuckOn
  /-- 06 R170: consecutive results at or above TSHUT. -/
  | otCnt
  /-- 06 R173: an isolation waits for the boundary. -/
  | isolReq
  /-- 07 R193: the phase was active at the isolation and is yet to be tried. -/
  | probed
  /-- 06 R179: the weirs are being programmed. -/
  | weirsOn
  /-- 19 R446: weir that has changed output while the device sleeps, plus one. -/
  | wakeReq
  /-- 01 R28: a stop request made at the coming boundary, which acts at the boundary after it. -/
  | stopNext
  /-- 01 R29: a fault scope made at the coming boundary, which acts at the boundary after it. -/
  | scopeNext
  /-- 01 R29: rail that makes the waiting scope. -/
  | scopeBy
  /-- 01 R29: rail that makes the scope of the boundary after. -/
  | scopeByNext
  /-- 01 R27: PGOOD before the rail's transition of the coming boundary. -/
  | prevPg
  /-- 01 R24: the enable was judged false at the last boundary. -/
  | enOff
  /-- 01 R24: boundary at which the enable was first judged false. -/
  | enOffAt
  /-- 01 R24: boundary at which the rail came to OFF, FAULT or UNUSED. -/
  | downAt
  /-- 06 R174: auxiliary weirs that ask for FAULT with code 6. -/
  | auxReq
  /-- 06 R174: auxiliary weirs that brought the rail into FAULT with code 6. -/
  | auxCause
  /-- 06 R169: the stuck policy has been applied to this active spell. -/
  | tfStkDone
  /-- 02 R477: tick of the last temperature sample. -/
  | tmLast
  /-- 07 R182: extreme X of the cluster's temperature reversals. -/
  | hcX
  /-- 07 R182: direction D is falling. -/
  | hcFall
  /-- 07 R182: a first result has been taken. -/
  | hcAny
  /-- 07 R193: boundary at which the watched phase was returned. -/
  | probeFrom
  /-- 07 R193: a stage has been found in this probe. -/
  | probeFound
  /-- 07 R193: the phase was active at the cluster's present isolation. -/
  | probeAll
  /-- 07 R193: the phase was skipped and returns at the end of the probe. -/
  | probeSkip
  /-- 07 R193: management-tick boundaries passed without an isolation. -/
  | noidMt
  /-- 07 R187: consecutive ticks of the drop test. -/
  | shCnt
  /-- 07 R181: low bits of the charge accumulator. -/
  | chgLow
  /-- 07 R189: UNRET has been written in this tick. -/
  | unretReq
  /-- 07 R195: a SNAP waits for its summary. -/
  | snapReq
  /-- 14 R336: domain set (tick core TC0 to TC3) that supervises the domain. -/
  | domSet
  /-- 05 R146: s of the forecast slot, in full. -/
  | slS
  /-- 05 R146: e of the forecast slot, in full. -/
  | slE
  /-- 05 R149: A + RISE + HOLD of the forecast slot, in full. -/
  | slDl
  /-- 05 R144: tick of posting of the slot. -/
  | slPost
  /-- 05 R144: amount that the grant request names. -/
  | slReq
  /-- 05 R144: amount admissible at posting. -/
  | slAdm
  /-- 05 R144: order of the grant requests that wait. -/
  | slOrd
  /-- 05 R150: met in a forced tick; transfers at the first run free of forcing. -/
  | slMet
  /-- 05 R144: grant requests that have been held. -/
  | greqCtr
  /-- 05 R124: the lane has block lock. -/
  | lkLock
  /-- 05 R133: a loss takes the lane to TRAIN at the next boundary. -/
  | lossReq
  /-- 05 R133: tick of the last accepted flit. -/
  | katAt
  /-- 05 R128: consecutive flits discarded for their CRC. -/
  | crcRun
  /-- 05 R130: tick from which the next HELLO of ACQUIRE is sent. -/
  | helloAt
  /-- 05 R139: tick from which TPER runs. -/
  | telAt
  /-- 05 R139: next rail in turn for TELEM. -/
  | telNext
  /-- 05 R139: a burst was in force since the rail's last TELEM. -/
  | telBurst
  /-- 05 R153: the domain falls back in the next run. -/
  | fbReq
  /-- 05 R126: MODEL'S view of the wire: the flit last sent on the lane. -/
  | txLast
  /-- 05 R148: v16 of the last eight windows, by tick modulo 8. -/
  | v16h
  /-- 05 R150: last tick in which R73 held the integrator. -/
  | forcedAt
  /-- 09 R218: data register d0 to d7 of a core's bank (second index bank x 8 + n). -/
  | coreD
  /-- 09 R218: address register p0 to p7 of a core's bank; p7 of the MC is the supervisor stack pointer. -/
  | coreP
  /-- 09 R218: user stack pointer of the management core. -/
  | coreUsp
  /-- 09 R218: accumulator a0 or a1 of a core's bank (second index bank x 2 + n). -/
  | coreA
  /-- 09 R218: repeat count rc of a core's bank. -/
  | coreRc
  /-- 10 R262: hidden repeat count of a core's bank. -/
  | repCnt
  /-- 10 R263: hidden loop count of a core's bank. -/
  | loopCnt
  /-- 09 R218: program counter, a word address. -/
  | corePc
  /-- 09 R220: sw.C, carry or not-borrow. -/
  | swC
  /-- 09 R220: sw.V, signed overflow. -/
  | swV
  /-- 09 R220: sw.Z, result zero. -/
  | swZ
  /-- 09 R220: sw.N, result negative. -/
  | swN
  /-- 09 R220: sw.SAT, sticky. -/
  | swSat
  /-- 09 R220: sw.DZ, sticky. -/
  | swDz
  /-- 09 R220: sw.DZT. -/
  | swDzt
  /-- 09 R220: sw.IE. -/
  | swIe
  /-- 09 R220: sw.PRIV (1 supervisor). -/
  | swPriv
  /-- 10 R262: a REP is active and pc stands at the repeated instruction. -/
  | repOn
  /-- 10 R263: a loop context is active. -/
  | loopOn
  /-- 10 R263: start of the loop context. -/
  | loopStart
  /-- 10 R263: end of the loop context: the last word of the body. -/
  | loopEnd
  /-- 17 R400: the core is out of reset. -/
  | coreOn
  /-- 10 R267: the core is halted by HALT, by a double fault or at depth 32. -/
  | coreHalt
  /-- 14 R339: the core is halted by JTAG debug. -/
  | coreDbg
  /-- 10 R264: 1 the core waits in WFE, 2 in WAITU. -/
  | coreWait
  /-- 10 R266: data register that the waiting WAITU names. -/
  | waitReg
  /-- 14 R336: tick core whose TCM stands at the alias 0x00_0000. -/
  | tcmOf
  /-- 14 R336: core whose EV_WFEMASK feeds the event latch. -/
  | maskOf
  /-- 09 R233: a divide is outstanding. -/
  | divOn
  /-- 10 R255: its quotient register. -/
  | divQ
  /-- 10 R255: its remainder register. -/
  | divR
  /-- 10 R255: its quotient. -/
  | divQv
  /-- 10 R255: its remainder. -/
  | divRv
  /-- 10 R255: its V. -/
  | divV
  /-- 10 R255: it divides by zero. -/
  | divDz
  /-- 09 R234: a younger instruction has written V since it issued. -/
  | divOld
  /-- 09 R233: a long MAC is outstanding. -/
  | macOn
  /-- 10 R253: its accumulator. -/
  | macA
  /-- 10 R253: its result. -/
  | macVal
  /-- 10 R253: its V, which is ORed into SAT where the operation saturates. -/
  | macV
  /-- 09 R234: a younger instruction has written V since it issued. -/
  | macOld
  /-- 11 R284: kind of the hidden record: 0 exception, 1 machine check, 2 gate. -/
  | recKind
  /-- 11 R284: entry privilege of the hidden record. -/
  | recPriv
  /-- 11 R288: the record is that of the refill. -/
  | recRm
  /-- 11 R288: the record is that of the machine check in progress. -/
  | recMc
  /-- 13 R321: the record is that of an interrupt entry that claimed a source. -/
  | recClaim
  /-- 11 R288: supervisor stack pointer at the frame of the refill in progress. -/
  | frameAt
  /-- 11 R288: access kind latched at the refill: the missing access was a write. -/
  | missWr
  /-- 11 R286: V of the TLB entry. -/
  | tlbV
  /-- 11 R286: VPN of the TLB entry, as VA[23:10]. -/
  | tlbVpn
  /-- 11 R286: ASID of the TLB entry. -/
  | tlbAsid
  /-- 11 R286: SZ of the TLB entry. -/
  | tlbSz
  /-- 11 R286: G of the TLB entry. -/
  | tlbG
  /-- 11 R290: data of the TLB entry. -/
  | tlbPte
  /-- 12 R299: the core's own copy of decode entry e. -/
  | decCopy
  /-- 12 R311: the core has not yet taken the write of decode entry e. -/
  | decPend
  /-- 13 R316: latched edge of the source. -/
  | irEdge
  /-- 13 R316: level of the source when it was last sampled. -/
  | irPrev
  /-- 13 R319: core that has claimed the active source. -/
  | irOwner
  /-- 13 R323: claims in the rate-limit window. -/
  | irCnt
  /-- 13 R323: a rate-limit window is running. -/
  | irWin
  /-- 13 R323: end of the rate-limit window. -/
  | irWinEnd
  /-- 13 R323: the source is held by the rate limiter. -/
  | irHeld
  /-- 13 R326: the stranding time runs. -/
  | irStrOn
  /-- 13 R326: tick from which the stranding time runs. -/
  | irStrAt
  /-- 13 R326: the source is stranded until it is claimed. -/
  | irStrand
  /-- 13 R320: a request presented at the core's present boundary has been withdrawn. -/
  | irPres
  /-- 14 R333: tick at which the pair froze and LBIST began. -/
  | lbistAt
  /-- 14 R336: tick at which the pair's takeover sequence began. -/
  | tkAt
  /-- 14 R336: the pair is held in reset for the takeover sequence. -/
  | tkHold
  /-- 14 R336: pair that does the duties of domain set n. -/
  | dutyPair
  /-- 08 R214: first tick in which a late compare may publish. -/
  | cmpFrom
  /-- 13 R326: wake-enabled source pending for a target whose clocks are stopped, plus one. -/
  | irWakeReq
  /-- 03 R72: the integrator was held in the last run. -/
  | frzNow
  /-- 15 R349: the stored word is uncorrectable or carries the poison pattern. -/
  | memBad
  /-- 15 R344: a row repair copy of the memory runs. -/
  | rrBusy
  /-- 15 R344: row being repaired. -/
  | rrRow
  /-- 15 R345: tick of the last refresh. -/
  | d4RefAt
  /-- 15 R345: refresh runs at double rate. -/
  | d4Double
  /-- 15 R345: tick of the last ZQCS. -/
  | d4ZqAt
  /-- 15 R353: words left of the burst or descriptor. -/
  | dmaLeft
  /-- 15 R355: address of the next descriptor. -/
  | dmaNext
  /-- 15 R355: the channel reads its next descriptor before it copies. -/
  | dmaNeed
  /-- 15 R355: the descriptor in hand is the last. -/
  | dmaLast
  /-- 15 R355: the descriptor in hand raises the channel interrupt. -/
  | dmaIrq
  /-- 15 R357: a failed access waits for its retry: 1 a read, 2 a write. -/
  | dmaFail
  /-- 15 R357: retries made of the failed access. -/
  | dmaTries
  /-- 15 R357: word of the failed write. -/
  | dmaData
  /-- 15 R357: the channel has raised its interrupt source and DMA_STAT.DONE or HALT has not been cleared since. -/
  | dmaRaised
  /-- 15 R361: events on the channel since the last tick boundary. -/
  | recEv
  /-- 15 R359: count of records generated. -/
  | recSeq
  /-- 15 R364: a post-count runs. -/
  | recPosting
  /-- 15 R364: records left of the post-count. -/
  | recPost
  /-- 15 R366: tick of the last freeze cause. -/
  | recFrzAt
  /-- 15 R366: tick of the core's last message GO. -/
  | recMsgAt
  /-- 15 R363: staging index j. -/
  | stgJ
  /-- 15 R363: the staging window has been triggered. -/
  | stgOn
  /-- 15 R363: records left of the staging window. -/
  | stgLeft
  /-- 07 R189: boundary at which the phase was retired. -/
  | retAt
  /-- 15 R366: EN of the recorder as it stood at the last boundary. -/
  | recEnab
  /-- 16 R372: class mask of the port: bit 0 TELEM, 1 CONTROL, 2 LIMIT, 3 RECORD, 4 EVENT, 5 IMAGE. -/
  | hgClass
  /-- 16 R372: rail-write mask of the port. -/
  | hgRails
  /-- 16 R372: event-channel mask of the port. -/
  | hgEvents
  /-- 16 R372: ISTART, the image's start current of the rail. -/
  | istart
  /-- 16 R387: image setpoint of the rail. -/
  | imgVset
  /-- 16 R369: port at which the round robin looks first. -/
  | hgNext
  /-- 16 R376: tag counter of the port. -/
  | hgTag
  /-- 16 R370: the message taken has been completed by the hardware. -/
  | hgDead
  /-- 16 R374: the MSPI tag is 1 in use, 2 in quiet time. -/
  | tagUse
  /-- 16 R374: completions of the tag are discarded after an ABORT. -/
  | tagDead
  /-- 16 R374: tick at which the tag's quiet time ends. -/
  | tagQuiet
  /-- 16 R381: PMB_ADR[2:0] sampled at PORST# release. -/
  | pmbAdr
  /-- 16 R383: PAGE. -/
  | pmbPage
  /-- 16 R383: PHASE. -/
  | pmbPhase
  /-- 16 R384: WRITE_PROTECT. -/
  | pmbWp
  /-- 16 R383: ON_OFF_CONFIG of the page; 0 until it is written. -/
  | pmbOnOff
  /-- 16 R385: OPERATION of the page. -/
  | pmbOper
  /-- 16 R385: nominal setpoint of the page. -/
  | pmbNom
  /-- 16 R385: VOUT_MARGIN_HIGH of the page. -/
  | pmbHigh
  /-- 16 R385: VOUT_MARGIN_LOW of the page. -/
  | pmbLow
  /-- 16 R385: VOUT_TRANSITION_RATE of the page as written. -/
  | pmbRate
  /-- 16 R385: IOUT_OC_FAULT_LIMIT of the page as written. -/
  | pmbLim
  /-- 16 R383: filtered level of PMB_CTRL. -/
  | pmbCtrl
  /-- 16 R382: STATUS_CML. -/
  | pmbCml
  /-- 16 R387: StatusAlert of the AVSBus port. -/
  | avsAlert
  /-- 16 R387: a voltage write of the rail has been accepted on AVSBus (2: and its message is done) and REF has not reached it. -/
  | vdPend
  /-- 16 R387: VSET code of that write. -/
  | vdCode
  /-- 16 R387: MODEL'S view of the wires: the last acknowledge (AVSBus code; on PMBus 0 ACK, 1 NACK). -/
  | hostAck
  /-- 19 R439: a management-core reset holds the core and its warm start is due. -/
  | warmDue
  /-- 19 R439: tick of the last management-core reset. -/
  | mcRstAt
  /-- 17 R399: the cold start has run its steps 1 to 3. -/
  | started
  /-- 17 R399: tick at which the present start-up step began. -/
  | stepAt
  /-- 19 R441: the watchdog counts down. -/
  | wdOn
  /-- 19 R441: what is left of the countdown. -/
  | wdLeft
  /-- 19 R447: SUPEN is high. -/
  | supen
  /-- 19 R447: a wake from DEEP SLEEP waits for its resume start. -/
  | resumeDue
  /-- 19 R447: DDR4 was trained and in self-refresh when DEEP SLEEP began. -/
  | srefKept
  /-- 20 R470: JTAG instruction in force. -/
  | tapIr
  /-- 20 R470: bit 2 of the next instruction capture. -/
  | tapErr
  /-- 20 R470: MODEL'S view of the wires: the data register last captured. -/
  | tapOut
  /-- 17 R400: an accepted GO waits for the boundary. -/
  | goDue
  /-- 17 R409: the kind's last IMG_VERIFY gave code 0. -/
  | verOk
  /-- 17 R405: slot of the image then verified. -/
  | verSlot
  /-- 17 R409: its VERSION. -/
  | verVer
  /-- 17 R412: its KEYSLOT. -/
  | verKey
  /-- 17 R410: VERSION of the image of the kind in force. -/
  | imgVer
  /-- 17 R398: bits of the counter's two banks used or skipped. -/
  | otpPos
  /-- 17 R396: tick at which the trial expires. -/
  | trialEnd
  /-- 17 R394: density of the boot flash. -/
  | flashSize
  /-- 17 R394: the flash has no valid SFDP header and is never written. -/
  | flashRo
  /-- 18 R430: the QSPI controller programs or erases. -/
  | flashBusy
  /-- 17 R411: an ATTEST waits for its signature. -/
  | attPend
  /-- 17 R410: signatures made by the identity key. -/
  | sigNo
  /-- 12 R309: the core's copy of the microword is uncorrectable. -/
  | ucBad
  /-- 20 R470: boundary-scan register as last preloaded. -/
  | tapCells
  /-- 17 R393: kind of the image that the crypto engine verifies for an IMG_VERIFY. -/
  | verDue
  /-- 18 R430: the flash log shows the phase as retired. -/
  | retLogged
  /-- 18 R430: retired DDR4 pages that the flash log shows. -/
  | nretLogged
  /-- 18 R430: tick of the last round's look for events to log. -/
  | logAt
  /-- 18 R430: tick of the last CHECKPOINT. -/
  | ckAt
  /-- 18 R430: a CHECKPOINT is due after a start. -/
  | ckDue
  /-- 18 R416: the sampling timer. -/
  | sampleTimer
  /-- 18 R416: samples of the present round. -/
  | telN
  /-- 18 R416: samples of the present round that read the phase means. -/
  | telPn
  /-- 18 R416: samples taken, of which every eighth reads the phase means. -/
  | telAll
  /-- 18 R417: sum of the rail's active phases. -/
  | telAct
  /-- 18 R417: sum of 16 x WREF + VMEAN. -/
  | telV
  /-- 18 R417: least WREF + VMIN. -/
  | telVmin
  /-- 18 R417: greatest WREF + VMAX. -/
  | telVmax
  /-- 18 R417: sum of ICUR. -/
  | telI
  /-- 18 R417: greatest ICUR. -/
  | telImax
  /-- 18 R417: sum of the products of voltage and current. -/
  | telP
  /-- 18 R417: sum of the phase's means. -/
  | telPh
  /-- 18 R419: next SRAM unit. -/
  | scrubU
  /-- 18 R419: next WCS unit. -/
  | scrubW
  /-- 18 R419: next DDR4 page. -/
  | scrubP
  /-- 18 R419: SRAM units of the round still to start. -/
  | scrubLeftU
  /-- 18 R419: WCS units of the round still to start. -/
  | scrubLeftW
  /-- 18 R419: DDR4 pages of the round still to start. -/
  | scrubLeftP
  /-- 18 R419: rounds since the last DDR4 page. -/
  | scrubRounds
  /-- 18 R420: target whose turn of calibration pacing it is. -/
  | rotTurn
  /-- 18 R421: rounds since the rail's last identification run. -/
  | idCount
  /-- 18 R421: the rail was REGULATING at every look of the round. -/
  | idReg
  /-- 18 R422: tick of the capture's trigger. -/
  | idAt
  /-- 18 R422: offset of the capture's next write of VSET. -/
  | idNext
  /-- 18 R423: value of LN_VSET that the capture last wrote. -/
  | idLast
  /-- 18 R423: RC_STGMASK, RC_STGTRGMASK and RC_STGPRE as the structure image gives them. -/
  | idStg
  /-- 18 R424: sums of the least-squares fit. -/
  | idFit
  /-- 18 R427: values that a retune replaced: B0, B1, B2, KI, GEXP, KCAP. -/
  | idOld
  /-- 18 R427: CDES that a watched retune will give. -/
  | idCdes
  /-- 01 R35: TICK at the last management-tick boundary. -/
  | mtAt
  /-- 02 R63: tick in which the group last handed over. -/
  | rotEnd
  /-- 04 R95: instant of the recomputation that last changed the phase's offset. -/
  | ofsFrom
  /-- 04 R109: instant at which rows 1 to 4 last released the phase. -/
  | relAt
  /-- 04 R91: instant at which the last off-edge became known. -/
  | offKnown
  /-- 04 R97: the rail holds PER after SYNCRANGE: measured periods within 1 percent since, plus one. -/
  | syncHold
  /-- 04 R115: SL_CSUB.GO for the phase waits for the boundary. -/
  | csubReq
  /-- 06 R179: WP_SUB.GO for the weir waits for the boundary. -/
  | declReq
  /-- 05 R148: DI of the slot: as announced, or as granted. -/
  | slDi
  /-- 05 R144: order of the grant request that DD_GREQ shows, plus one. -/
  | greqShown
  /-- 05 R143: forecasts whose post completes at the coming boundary. -/
  | postNum
  /-- 05 R143: flit of such a forecast. -/
  | postFlit
  /-- 05 R143: its domain, and 8 x the ticks since its arrival. -/
  | postFrom
  /-- 08 R197: publications of this instant on one channel form one event. -/
  | pubOnce
  /-- 08 R197: channels that have an event of this instant. -/
  | pubSeen
  /-- 12 R311: pages that a VALID entry named and that no write has freed since, an entry write being pending. -/
  | ucHeld
  /-- 09 R227: address of the first word in the fetch queue. -/
  | fqBase
  /-- 09 R227: words that stand in the fetch queue from that address on. -/
  | fqLen
  /-- 09 R240: the words in the fetch queue. -/
  | fqWord
  /-- 09 R239: loop buffer: 0 empty, 1 capturing an iteration, 2 supplying the later ones. -/
  | lbPhase
  /-- 09 R239: words of the body that the loop buffer has captured. -/
  | lbOn
  /-- 09 R239: the captured words. -/
  | lbWord
  /-- 09 R240: MODEL view: the words of the last instruction as the core fetched them. -/
  | fetched
  /-- 09 R217: the MC instruction cache holds a copy of the word. -/
  | icOn
  /-- 09 R240: the copy in the instruction cache. -/
  | icWord
  /-- 09 R217: the MC data cache holds a copy of the word. -/
  | dcOn
  /-- 09 R217: the copy in the data cache. -/
  | dcWord
  /-- 12 R312: a live load waits for EPEND = 0 before it clears LDEN. -/
  | ucWait
  /-- 19 R440: what the structure image gives the fields of a core window: of a tick core six for each MPU region, of the management core the gate table and WIRED. -/
  | imgWin
  /-- 15 R349: the retirement copy of entry i has not ended. -/
  | retCopy
  /-- 18 R427: the active bank of the rail has been copied for a retune. -/
  | idStage
  /-- 18 R427: the Ditch Rider clears ACCSAT and INTCLP after the exchange of banks. -/
  | idClr
  /-- 18 R414: the task, counted from the second, that the next round of the Ditch Rider goes on with. -/
  | drFrom
  /-- 15 R344: a corrected error has occurred at the SRAM word since its row came into use. -/
  | ceSeen
  /-- 15 R344: corrected errors of the row that a scrub has counted beside those. -/
  | ceMore
  /-- 20 R472: the rail's enable at the last boundary. -/
  | enWas
  /-- 20 R472: 1 more than the tick in which EXTEST, CLAMP or HIGHZ came into force. -/
  | tapAt
  deriving DecidableEq, Repr

/-- The number of a name in the list above: the key that orders the register file. -/
def Fld.num (f : Fld) : Nat := f.ctorIdx

/-- The value each register field has after reset, as the register tables give it (`i` is the index in the array). A
field whose reset the tables give as "image" stands at 0 (a source's target at 5, which ETGT shows after reset, R329) until start-up loads it (DESIGN CHOICE, log entry 1, unsafe);
a hidden piece of state stands at 0 (log entry 2). -/
def Fld.reset (f : Fld) (i _j : Nat) : Int :=
  match f with
  | .FL_VGSTAT_SPARE => 16 + (i : Int)
  | .FL_CLMAP => 0x76543210
  | .FL_CLSTAT_SPARE => 8
  | .FL_VCONV => (i : Int)
  | .SL_PSTAT_LEVEL => 2
  | .PH_RANK => 127
  | .XC_VBASE => 1
  | .IR_SRCCFG_TGT => 5
  | .IR_SRCST_ETGT => 5
  | .IR_CRUN_RUN => 16
  | .IR_CBEST_SRC => 255
  | .IR_CLAST_SRC => 255
  | .IR_CTRL_STRTMO => 10
  | .DMA_CFG_RETRY => 3
  | .IM_STATE_STEP => 1
  | .OT_STATUS_KSACT => 7
  | .PW_RSTCAUSE_CCAUSE => 1
  | .PW_SUP_OK => 255
  | .ripMin => 2047
  | .ripMax => -2048
  | .wrSampled => -1
  | .burstEnd => -256
  | .tmLast => -1
  | .forcedAt => -1000
  | .swPriv => 1
  | .tcmOf => (i : Int)
  | .maskOf => (i : Int)
  | .dutyPair => (i : Int)
  | .recFrzAt => -1
  | .recMsgAt => -1
  | .retAt => -1
  | .pmbPhase => 255
  | .supen => 1
  | .tapIr => 1
  | .rotEnd => -1
  | _ => 0

end Sys2Proof.Machine
end

