-- ==== Sys2Proof/Machine/Store.lean ====
section
/-! DEFINITION. The two stores that State is made of: the register file (a sparse list of register fields that differ
from their reset value, in the order of their names) and memory (a sparse list of bytes in the order of their
addresses). Both have ONE canonical form: keys strictly rising, and no entry that equals what an unlisted key reads as. -/
namespace Sys2Proof.Machine

/-- The name of one value of the register file: a field and its two array indices. -/
structure Key where
  fld : Fld
  i : Nat
  j : Nat
  deriving DecidableEq, Repr

/-- The order of the register file: by field, then by the first index, then by the second. -/
def Key.lt (a b : Key) : Bool :=
  a.fld.num < b.fld.num || (a.fld.num = b.fld.num && (a.i < b.i || (a.i = b.i && a.j < b.j)))

/-- What an unlisted key reads as: the field's reset value. -/
def Key.reset (k : Key) : Int := k.fld.reset k.i k.j

/-- One entry of the register file. -/
abbrev RegEntry := Key × Int

/-- The value a key holds. -/
def regGet (l : List RegEntry) (k : Key) : Int :=
  match l with
  | [] => k.reset
  | e :: t => if e.1 = k then e.2 else regGet t k

/-- Put an entry in its place in the order. -/
def regInsert (l : List RegEntry) (k : Key) (v : Int) : List RegEntry :=
  match l with
  | [] => [(k, v)]
  | e :: t => if k.lt e.1 then (k, v) :: e :: t else e :: regInsert t k v

/-- Remove every entry of a key. -/
def regRemove (l : List RegEntry) (k : Key) : List RegEntry := l.filter fun e => e.1 ≠ k

/-- Write a key: the entry goes where the order puts it; writing the reset value removes the entry. -/
def regSet (l : List RegEntry) (k : Key) (v : Int) : List RegEntry :=
  if v = k.reset then regRemove l k else regInsert (regRemove l k) k v

/-- Keys strictly rising. -/
def regSorted : List RegEntry → Bool
  | [] => true
  | [_] => true
  | a :: b :: t => a.1.lt b.1 && regSorted (b :: t)

/-- The canonical form of the register file. -/
def regWf (l : List RegEntry) : Bool := regSorted l && l.all fun e => decide (e.2 ≠ e.1.reset)

/-- What a byte of memory that nothing has written reads as: the spec gives no contents after power-on (DESIGN CHOICE
zero, log entry 3, unsafe). -/
def memDefault : BitVec 8 := 0

/-- The byte at an address. -/
def cellGet (l : List Host.Cell) (a : Nat) : BitVec 8 :=
  match l with
  | [] => memDefault
  | c :: t => if c.1 = a then c.2 else cellGet t a

/-- Put a byte in its place in the order of addresses. -/
def cellInsert (l : List Host.Cell) (a : Nat) (b : BitVec 8) : List Host.Cell :=
  match l with
  | [] => [(a, b)]
  | c :: t => if a < c.1 then (a, b) :: c :: t else c :: cellInsert t a b

/-- Remove every entry of an address. -/
def cellRemove (l : List Host.Cell) (a : Nat) : List Host.Cell := l.filter fun c => c.1 ≠ a

/-- Write a byte, keeping the canonical form. -/
def cellSet (l : List Host.Cell) (a : Nat) (b : BitVec 8) : List Host.Cell :=
  if b = memDefault then cellRemove l a else cellInsert (cellRemove l a) a b

/-- Addresses strictly rising. -/
def cellSorted : List Host.Cell → Bool
  | [] => true
  | [_] => true
  | a :: b :: t => decide (a.1 < b.1) && cellSorted (b :: t)

/-- The canonical form of memory. -/
def Memory.wf (l : List Host.Cell) : Bool := cellSorted l && l.all fun c => decide (c.2 ≠ memDefault)

end Sys2Proof.Machine
end

