-- ==== Sys2Proof/Machine/State.lean ====
section
/-! DEFINITION. The state of the block as plain data, its faults and refusals, and the state right after reset. -/
namespace Sys2Proof.Machine

/-- A write of a data-plane register field that waits for the next control-tick boundary (R33, 01_delivery_model.md). -/
structure PendWrite where
  key : Key
  val : Int
  deriving DecidableEq, Repr

/-- An event that has reached a turnout and is not yet delivered to the block's task (R199, 08_event_network.md): the
turnout, the channel it came on and the tick of its arrival. -/
structure Arrival where
  turnout : Nat
  chan : Nat
  at_ : Int
  deriving DecidableEq, Repr

/-- The least and greatest value the structure image allows a field (R36, R43, R88: 01, 02, 03). -/
structure Bound where
  key : Key
  lo : Int
  hi : Int
  deriving DecidableEq, Repr

/-- A block output that the structure image can assign to an interrupt source (R315, 13_interrupts.md): the Flume's combined kinds
`k` per cluster, voltage group and for the auxiliary channels (R57), the allotments (R21), the enable-stuck flags (R26), the
flags of a loop lane (R87), of a rail in the Sluice (R117), of a demand lane, the weir groups (R164), the protection flags
(R180), the phase-health flags (R196), the storm guard (R210), a DMA channel (R354), and the lock-step pairs (R333). -/
inductive BlockOutput where
  | flumeCluster (c k : Nat)
  | flumeGroup (g k : Nat)
  | flumeAux (k : Nat)
  | allotment
  | enableStuck
  | lane (r : Nat)
  | sluice (r : Nat)
  | demandLane (l : Nat)
  | weirCluster (c : Nat)
  | weirRail (r : Nat)
  | weirAux
  | protectionRail (r : Nat)
  | protectionCluster (c : Nat)
  | healthRail (r : Nat)
  | healthCluster (c : Nat)
  | stormGuard
  | dma (c : Nat)
  | lockStep
  deriving DecidableEq, Repr

/-- The block output `out` that the structure image assigns to interrupt source `src`, 32 to 251 (R315, 13_interrupts.md). -/
structure IrqLine where
  src : Nat
  out : BlockOutput
  deriving DecidableEq, Repr

/-- What a commitment comes from: a setpoint increase to a new setpoint (R77), or slot `n` of domain `d` (R143). -/
inductive CommitSource where
  | setpoint (vnew : Int)
  | slot (d n : Nat)
  deriving DecidableEq, Repr

/-- An accepted planned change that is not yet completed (R19): the rail, the extra current in IQ and its source. -/
structure Commitment where
  rail : Nat
  di : Int
  source : CommitSource
  deriving DecidableEq, Repr

/-- A flit that waits in a lane's transmit queue (R139): the lane, the message type and the body, bits 111 to 16. -/
structure TxFlit where
  lane : Nat
  typ : Nat
  body : Nat
  deriving DecidableEq, Repr

/-- A store that waits in a core's store buffer (R237, 09_nerten_core.md): the core, the physical word addresses and their
words (two for a double-word store, the first half first), the address the core issued, the privilege it issued it with,
and whether it writes an exception frame (R280). -/
structure StoreEnt where
  core : Nat
  cells : List (Nat × W16)
  issued : Nat
  sup : Bool
  frame : Bool
  deriving DecidableEq, Repr

/-- An imprecise trap that waits for its core's next instruction boundary (R235, R276): its exception number, whether
the access was a write, and the address. -/
structure CoreTrap where
  core : Nat
  vec : Nat
  wr : Bool
  faddr : Nat
  deriving DecidableEq, Repr

/-- A record in the recorder's write queue (R362, 15_memory_dma_recorder.md): its sixteen words, and whether it is the
fault record that freezes the ring (R364). -/
structure QRec where
  words : List W16
  freeze : Bool
  deriving DecidableEq, Repr

/-- One write that a headgate message asks for: its type, target and payload (R371, 16_headgate_host.md). -/
structure HgPart where
  typ : Nat
  target : Nat
  payload : List Byte
  deriving DecidableEq, Repr

/-- A headgate message (R368, R371): its port, tag and epoch, what it asks for (more than one write only for a broadcast
or a commit of held writes on AVSBus, R387), the PMBus command it came from (0 for none) with the setpoint that goes with
an OPERATION (0 none, 1 nominal, 2 low margin, 3 high margin), and the tick in which it was queued. -/
structure HgMsg where
  port : Nat
  tag : Nat
  epoch : Nat
  parts : List HgPart
  cmd : Nat
  margin : Nat
  at_ : Int
  deriving DecidableEq, Repr

/-- An undelivered completion of the MSPI port (R373, R374): `victim` is the tag that an ABORT names. -/
structure HgCpl where
  typ : Nat
  tag : Nat
  epoch : Nat
  status : Nat
  target : Nat
  payload : List Byte
  victim : Option Nat
  deriving DecidableEq, Repr

/-- No command ends in a fault: the spec gives the block no behaviour that stops it. The one constructor stands for the
reads and writes of R10 outside the device regions' address space, raised by no command (safe). -/
inductive Fault where
  | unreachable
  deriving DecidableEq, Repr

/-- Why a command is refused. `notModelled` is raised by Dispatch alone, for a command that has no meaning yet (safe). -/
inductive Refusal where
  | notModelled (mnemonic : String)
  deriving DecidableEq, Repr

/-- The state of the block. -/
structure State where
  /-- The commands that wait, first in, first out (the interface of a block). -/
  pending : List Instr
  /-- Every register field and every hidden counter, mark and latch (see Fields.lean). -/
  rf : List RegEntry
  /-- The addressed memories (R342, 15_memory_dma_recorder.md) as bytes. -/
  mem : List Host.Cell
  /-- Field writes of this tick that wait for the next boundary (R33). -/
  writes : List PendWrite
  /-- Events that have reached a turnout and wait for its task (R199). -/
  arrivals : List Arrival
  /-- Bounds of the adjustable fields, from the structure image (R36). -/
  bounds : List Bound
  /-- Interrupt sources assigned by the structure image (R315). -/
  irqLines : List IrqLine
  /-- Accepted planned changes not yet completed (R19). -/
  commits : List Commitment
  /-- The transmit queues of the demand lanes (R139). -/
  txFlits : List TxFlit
  /-- The store buffers of the cores, oldest store first (R237). -/
  stores : List StoreEnt
  /-- Imprecise traps that wait for a boundary, oldest first (R276). -/
  traps : List CoreTrap
  /-- The write queue of the recorder, oldest record first (R362). -/
  recQueue : List QRec
  /-- The headgate messages queued at the six ports, in the order of their arrival (R369). -/
  hgQueue : List HgMsg
  /-- The message that the firmware has taken and not completed (R369, R370). -/
  hgTaken : Option HgMsg
  /-- The undelivered completions of the MSPI port, oldest first (R377). -/
  hgCpl : List HgCpl
  /-- The AVSBus writes that a write-and-hold holds, by port (R387). -/
  avsHeld : List (Nat × HgPart)
  /-- MODEL'S view of the host's wires: the bytes that the device last sent (R377, R382, R387). -/
  hostOut : List Byte
  /-- The boot flash (R394 to R396, 17_images_startup_attestation.md), each byte as the bits programmed to 0, so that an
  erased byte is unlisted. -/
  flash : List Host.Cell
  /-- SHA-384 digests: of the ROM, formed at the last start, and of the images of kinds 1 to 4 in force (R399, R410). -/
  digests : List (List Byte)
  /-- The current challenge (R397). -/
  challenge : List Byte
  /-- The key hashes of the customer slots 0 to 3 in OTP (R397). -/
  keyHashes : List (List Byte)
  /-- Records of the flash log that wait for the QSPI controller, in MC SRAM: type and payload (R430,
  18_background_services.md). -/
  logQueue : List (Nat × List Byte)
  /-- The stored words of memory that hold a single-bit error (R343, R346), and the microwords that do, each with its core
  (R309): where such errors arise is left open (log entry 66). -/
  soft : List Nat
  softUc : List (Nat × Nat)
  /-- The pages whose corrected errors the DDR4 controller counts, with their counts, least recently incremented first (R348). -/
  ceTrack : List (Nat × Nat)
  /-- The tasks after the first that the budget of the Ditch Rider's round leaves time for: how long tasks take is left open (R414,
  log entry 128). -/
  drRoom : Nat
  /-- The model's own counter that free values are taken with (log entry 9). -/
  freeCtr : Nat
  deriving DecidableEq, Repr

/-- The machine right after reset: every register field at its reset value, nothing queued, nothing listed in memory. -/
def State.reset : State where
  pending := []
  rf := []
  mem := []
  writes := []
  arrivals := []
  bounds := []
  irqLines := []
  commits := []
  txFlits := []
  stores := []
  traps := []
  recQueue := []
  hgQueue := []
  hgTaken := none
  hgCpl := []
  avsHeld := []
  hostOut := []
  flash := []
  digests := []
  challenge := []
  keyHashes := []
  logQueue := []
  soft := []
  softUc := []
  ceTrack := []
  drRoom := 4
  freeCtr := 0

end Sys2Proof.Machine
end

