-- ==== Sys2Proof/Machine/Ops.lean ====
section
/-! DEFINITION. The named operations over the register file and memory that every meaning is written with. -/
namespace Sys2Proof.Machine

/-- The outcome type of every meaning. -/
abbrev Out := Host.Outcome State Fault Refusal

/-- The value of a field at its indices. -/
def State.get (s : State) (f : Fld) (i : Nat := 0) (j : Nat := 0) : Int := regGet s.rf ⟨f, i, j⟩

/-- Store a value in a field. -/
def State.put (s : State) (f : Fld) (v : Int) (i : Nat := 0) (j : Nat := 0) : State :=
  { s with rf := regSet s.rf ⟨f, i, j⟩ v }

/-- The field read as a truth value. -/
def State.bit (s : State) (f : Fld) (i : Nat := 0) (j : Nat := 0) : Bool := s.get f i j != 0

/-- The field read as a natural number. -/
def State.nat (s : State) (f : Fld) (i : Nat := 0) (j : Nat := 0) : Nat := (s.get f i j).toNat

/-- Set a one-bit field. -/
def State.raise (s : State) (f : Fld) (i : Nat := 0) (j : Nat := 0) : State := s.put f 1 i j

/-- Clear a field. -/
def State.clear (s : State) (f : Fld) (i : Nat := 0) (j : Nat := 0) : State := s.put f 0 i j

/-- Set the bits of a mask in a field. -/
def State.setBits (s : State) (f : Fld) (m : Int) (i : Nat := 0) (j : Nat := 0) : State :=
  s.put f (orI (s.get f i j) m) i j

/-- Clear the bits of a mask in a field. -/
def State.clrBits (s : State) (f : Fld) (m : Int) (i : Nat := 0) (j : Nat := 0) : State :=
  s.put f (andNotI (s.get f i j) m) i j

/-- Bit `n` of a field. -/
def State.bitOf (s : State) (f : Fld) (n : Nat) (i : Nat := 0) (j : Nat := 0) : Bool := bitAt (s.get f i j) n

/-- Count up, saturating at `top`. -/
def State.bump (s : State) (f : Fld) (top : Int) (i : Nat := 0) (j : Nat := 0) (by_ : Int := 1) : State :=
  s.put f (min top (s.get f i j + by_)) i j

/-- TICK, the count of control ticks (R34). -/
def State.now (s : State) : Int := s.get .tick

/-- The byte at a byte address of memory (byte 2a and 2a + 1 make word a, low byte first; log entry 4). -/
def State.byteAt (s : State) (a : Nat) : BitVec 8 := cellGet s.mem a

/-- Store a byte. -/
def State.setByte (s : State) (a : Nat) (b : BitVec 8) : State := { s with mem := cellSet s.mem a b }

/-- The word at a word address of memory. -/
def State.wordAt (s : State) (a : Nat) : W16 := s.byteAt (2 * a + 1) ++ s.byteAt (2 * a)

/-- Store a word. -/
def State.setWord (s : State) (a : Nat) (w : W16) : State :=
  (s.setByte (2 * a) (w.setWidth 8)).setByte (2 * a + 1) ((w >>> 8).setWidth 8)

/-- Apply a state change for each element of a list, in order. -/
def State.each {α : Type} (s : State) (l : List α) (f : State → α → State) : State := l.foldl f s

/-- Apply a change where a condition holds. -/
def State.when (s : State) (c : Bool) (f : State → State) : State := if c then f s else s

/-- The bound the structure image gives a field, if it gives one (R36). -/
def State.boundOf (s : State) (k : Key) : Option (Int × Int) :=
  (s.bounds.find? fun b => b.key = k).map fun b => (b.lo, b.hi)

/-- A value lies within the bound that the structure image gives the field (true where it gives none). -/
def State.inBound (s : State) (k : Key) (v : Int) : Bool :=
  match s.boundOf k with
  | none => true
  | some (lo, hi) => decide (lo ≤ v ∧ v ≤ hi)

/-- Queue a field write for the next control-tick boundary (R33). -/
def State.later (s : State) (f : Fld) (v : Int) (i : Nat := 0) (j : Nat := 0) : State :=
  { s with writes := s.writes ++ [⟨⟨f, i, j⟩, v⟩] }

/-- The value last written to a field: the last waiting write, or the value it holds (R7). -/
def State.written (s : State) (k : Key) : Int :=
  match (s.writes.filter fun w => w.key = k).getLast? with
  | some w => w.val
  | none => regGet s.rf k

/-- A fresh index for a free value, and the state with the counter advanced (log entry 9). -/
def State.fresh (s : State) : Nat × State := (s.freeCtr, { s with freeCtr := s.freeCtr + 1 })

end Sys2Proof.Machine
end

