-- ==== Sys2Proof/Machine/Publish.lean ====
section
/-! DEFINITION. Publishing on the event network (08_event_network.md): the storm guard, the watch flags, the event
latches, the wake mask and the turnouts that an event reaches; and the sticky flags that publish when they become set. -/
namespace Sys2Proof.Machine

/-- The turnout names the channel, is enabled and its block has power: in DEEP SLEEP all but the distributor are without
(R199, R215). -/
def turnoutTakes (s : State) (t ch : Nat) : Bool :=
  s.bit .EV_TOCFG_EN t && s.nat .EV_TOCFG_CH t == ch && !(t < 112 && s.get .sleepMode == 2)

/-- An event reaches every enabled turnout that names its channel (R198, R199). -/
def reachTurnouts (s : State) (ch : Nat) : State :=
  { s with arrivals := s.arrivals ++ ((List.range 144).filter fun t => turnoutTakes s t ch).map fun t => ⟨t, ch, s.now⟩ }

/-- An event on a channel sets the event latch of every core whose mask holds the channel (R202). -/
def reachLatches (s : State) (ch : Nat) : State :=
  s.each (List.range 6) fun s k => s.when (s.bitOf .EV_WFEMASK ch (s.nat .maskOf k)) (·.raise .evLatch k)

/-- The device sleeps, or enters sleep: a request is stored and the management core waits in WFE (R444). -/
def sleeping (s : State) : Bool := s.bit .sleepMode || (s.bit .PW_CTRL_SLEEP && s.get .coreWait 5 == 1)

/-- A wake source fires: the first one's identity is kept, as its number plus one (R446). -/
def wakeSeen (s : State) (f : Fld) (id : Nat) (c : Bool) : State :=
  s.when (c && sleeping s && !s.bit f) fun s => s.put f ((id : Int) + 1)

/-- An event that the storm guard lets through: it is counted and watched, and it reaches masks and turnouts
(R202, R203, R209, R212), and the recorder observes it (R361). -/
def deliverEvent (s : State) (ch : Nat) : State :=
  let s := s.put .EV_CHPUB ((s.get .EV_CHPUB ch + 1) % 65536) ch
  let s := s.setBits .EV_WATCH (2 ^ ch)
  let s := if s.bitOf .RC_EVMASK ch then s.bump .recEv 0xFFFF ch else s
  let s := reachLatches s ch
  let s := wakeSeen s .evWakeReq ch (s.bitOf .EV_WAKE ch)
  reachTurnouts s ch

/-- The storm-guard window of a channel still runs (R210): by the tick in RUN, within 20 % of it in STANDBY, and in DEEP SLEEP, where no
tick counts, by the oscillator alone; what the tolerance leaves open is free (log entry 118). -/
def windowRuns (s : State) (ch : Nat) : Bool :=
  let len := 16 * s.get .EV_CHSG_SGWIN ch
  let gone := s.now - (s.get .sgEnd ch - len)
  let open_ := !Config.stormEnded ch (s.nat .EV_CHPUB ch) s.now
  s.bit .sgOpen ch &&
    (if s.get .sleepMode == 0 then decide (gone < len)
     else if s.get .sleepMode == 1 then decide (5 * gone < 4 * len) || (decide (5 * gone < 6 * len) && open_)
     else open_)

/-- The storm-guard window of a channel restarts at the first event after the previous window has ended (R210). -/
def openWindow (s : State) (ch : Nat) : State :=
  if windowRuns s ch then s
  else ((s.raise .sgOpen ch).put .sgEnd (s.now + 16 * s.get .EV_CHSG_SGWIN ch) ch).clear .sgCount ch

/-- What `f` publishes starts in one instant, so that its publications on one channel form one event (R197). -/
def together (s : State) (f : State → State) : State :=
  ((f ((s.raise .pubOnce).clear .pubSeen)).clear .pubOnce).clear .pubSeen

/-- A publication on a channel (R197, R210, R212); one that starts with an earlier one of the channel is part of its event. -/
def publish (s : State) (ch : Nat) : State :=
  if s.bit .pubOnce && s.bitOf .pubSeen ch then s
  else
    let s := s.when (s.bit .pubOnce) (·.setBits .pubSeen (2 ^ ch))
    if s.bitOf .EV_TRIP ch then s.bump .EV_CHSUPP 0xFFFF ch
    else
      let s := openWindow s ch
      if s.bit .EV_CHSG_SGMAX ch && decide (s.get .sgCount ch + 1 > s.get .EV_CHSG_SGMAX ch) then
        (s.setBits .EV_TRIP (2 ^ ch)).bump .EV_CHSUPP 0xFFFF ch
      else deliverEvent (s.put .sgCount (s.get .sgCount ch + 1) ch) ch

/-- Hardware publisher `h` publishes on the channel of its EV_HWPUB register (R478). -/
def hwPublish (s : State) (h : Nat) : State :=
  if s.bit .EV_HWPUB_EN h then publish s (s.nat .EV_HWPUB_CH h) else s

/-- Hardware sets a one-bit sticky flag; where the flag becomes set, publisher `h` publishes (R57, R478). -/
def flagPub (s : State) (f : Fld) (i : Nat) (h : Nat) : State :=
  if s.bit f i then s else hwPublish (s.raise f i) h

/-- Hardware sets bit `n` of LN_FLAG of lane `r`; a bit enabled in LN_FLAGEN that becomes set publishes (R87). -/
def laneFlag (s : State) (r n : Nat) : State :=
  if s.bitOf .LN_FLAG n r then s
  else
    let s := s.setBits .LN_FLAG (2 ^ n) r
    if s.bitOf .LN_FLAGEN n r then hwPublish s (96 + r) else s

/-- The bits of LN_FLAG (R89). -/
def lnESAT := 0
def lnACCSAT := 1
def lnINTCLP := 2
def lnFREEZE := 3
def lnCMDHI := 4
def lnCMDLO := 5
def lnPHSAT := 6
def lnBALSAT := 7
def lnNOPH := 8
def lnBANKERR := 9
def lnBNDERR := 10
def lnCOMMITERR := 11
def lnSETREF := 12

/-- The core that counts as the owner of a channel (R205, R206): a tick core whose duties another pair has taken over
is stood for by that pair. -/
def ownerCore (s : State) (ch : Nat) : Int :=
  let o := s.get .EV_CHCFG_OWNER ch
  if 0 ≤ o ∧ o < 4 then s.get .dutyPair o.toNat else o

/-- Software publication is accepted by R205: by the channel's owner, and on the management core at supervisor
privilege (`sup`) or on a channel that is not secure. -/
def coreMayPublish (s : State) (k : Nat) (sup : Bool) (ch : Nat) : Bool :=
  ownerCore s ch == k && (k != 5 || sup || !s.bit .EV_CHCFG_SEC ch)

/-- A refused publication publishes nothing and is recorded (R205). -/
def refusePublish (s : State) (ch : Nat) : State := (s.raise .EV_STATUS_OWNERR).put .EV_STATUS_LASTCH ch

/-- SEV or a write of EV_PUB from core `k` (R205). -/
def corePublish (s : State) (k : Nat) (sup : Bool) (ch : Nat) : State :=
  if coreMayPublish s k sup ch then publish s ch else refusePublish s ch

/-- A write of EV_PROXYPUB: accepted from the management core at supervisor privilege on a proxy-owned channel (R205). -/
def proxyPublish (s : State) (k : Nat) (sup : Bool) (ch : Nat) : State :=
  if k = 5 && sup && s.nat .EV_CHCFG_OWNER ch == 6 then publish s ch else refusePublish s ch

/-- A write of EV_UPUB: accepted from the management core on a non-secure channel of its own (R205). -/
def userPublish (s : State) (k : Nat) (ch : Nat) : State :=
  if k = 5 && s.nat .EV_CHCFG_OWNER ch == 5 && !s.bit .EV_CHCFG_SEC ch then publish s ch else refusePublish s ch

end Sys2Proof.Machine
end

