-- ==== Sys2Proof/Machine/CoreState.lean ====
section
/-! DEFINITION. The registers of the cores (09_nerten_core.md): banks, the status word, the program counter, and when a
core can issue. Cores 0 to 4 are TC0 to TC4, core 5 is the management core. -/
namespace Sys2Proof.Machine

/-- Bank in use: sw.SB on a tick core, 0 on the management core (R218, R220). -/
def bankOf (s : State) (k : Nat) : Nat := s.nat .XC_STATUS_SB k

/-- Supervisor privilege: always on a tick core, sw.PRIV on the management core (R217, R220). -/
def supervisor (s : State) (k : Nat) : Bool := k != 5 || s.bit .swPriv k

/-- Data register dn (R218). -/
def dReg (s : State) (k n : Nat) : Int := s.get .coreD k (bankOf s k * 8 + n)

/-- Write dn; the value is taken modulo 2^16. -/
def setD (s : State) (k n : Nat) (v : Int) : State := s.put .coreD (unsigned 16 v) k (bankOf s k * 8 + n)

/-- Address register pn; p7 of the management core at user privilege is the user stack pointer (R218). -/
def pReg (s : State) (k n : Nat) : Int :=
  if k = 5 ∧ n = 7 ∧ s.get .swPriv k = 0 then s.get .coreUsp else s.get .coreP k (bankOf s k * 8 + n)

/-- Write pn; the value is taken modulo 2^24 (R219). -/
def setP (s : State) (k n : Nat) (v : Int) : State :=
  if k = 5 ∧ n = 7 ∧ s.get .swPriv k = 0 then s.put .coreUsp (unsigned 24 v)
  else s.put .coreP (unsigned 24 v) k (bankOf s k * 8 + n)

/-- Accumulator, as a signed 40-bit number (R218). -/
def aReg (s : State) (k n : Nat) : Int := s.get .coreA k (bankOf s k * 2 + n)

/-- Write an accumulator; the value is taken modulo 2^40 (R218). -/
def setA (s : State) (k n : Nat) (v : Int) : State := s.put .coreA (signed 40 v) k (bankOf s k * 2 + n)

/-- rc, the repeat count of the bank (R218). -/
def rcReg (s : State) (k : Nat) : Int := s.get .coreRc k (bankOf s k)

/-- Write rc. -/
def setRc (s : State) (k : Nat) (v : Int) : State := s.put .coreRc (unsigned 16 v) k (bankOf s k)

/-- The program counter. -/
def pcOf (s : State) (k : Nat) : Int := s.get .corePc k

/-- Write the program counter (24 bits). -/
def setPc (s : State) (k : Nat) (v : Int) : State := s.put .corePc (unsigned 24 v) k

/-- The status word as software reads it (R220). -/
def swWord (s : State) (k : Nat) : Int :=
  s.get .swC k + 2 * s.get .swV k + 4 * s.get .swZ k + 8 * s.get .swN k + 16 * s.get .swSat k + 32 * s.get .swDz k +
  64 * s.get .swDzt k + 128 * s.get .swIe k + 256 * bit01 (supervisor s k) + 512 * s.get .XC_STATUS_SB k

/-- The arithmetic and sticky bits of the status word from a word (R220). -/
def putFlags (s : State) (k : Nat) (w : Int) : State :=
  (((((s.put .swC (bit01 (bitAt w 0)) k).put .swV (bit01 (bitAt w 1)) k).put .swZ (bit01 (bitAt w 2)) k).put .swN
    (bit01 (bitAt w 3)) k).put .swSat (bit01 (bitAt w 4)) k).put .swDz (bit01 (bitAt w 5)) k

/-- An explicit write of sw (R221): at user privilege DZT, IE and PRIV keep their values; on a tick core PRIV does. -/
def writeSw (s : State) (k : Nat) (w : Int) : State :=
  let sup := supervisor s k
  let s := putFlags s k w
  if sup then
    let s := (s.put .swDzt (bit01 (bitAt w 6)) k).put .swIe (bit01 (bitAt w 7)) k
    if k = 5 then s.put .swPriv (bit01 (bitAt w 8)) k else s
  else s

/-- The whole status word restored by a return (R279, R282): SB is not part of the restored word. -/
def restoreSw (s : State) (k : Nat) (w : Int) : State :=
  let s := ((putFlags s k w).put .swDzt (bit01 (bitAt w 6)) k).put .swIe (bit01 (bitAt w 7)) k
  if k = 5 then s.put .swPriv (bit01 (bitAt w 8)) k else s

/-- Set N and Z from a result of 16 bits (R244). -/
def putNZ (s : State) (k : Nat) (r : Int) : State :=
  (s.put .swN (bit01 (bitAt r 15)) k).put .swZ (bit01 (unsigned 16 r == 0)) k

/-- Write V; a long operation that has not retired loses its own V (R234). -/
def putV (s : State) (k : Nat) (v : Bool) : State :=
  let s := s.put .swV (bit01 v) k
  let s := if s.bit .divOn k then s.raise .divOld k else s
  if s.bit .macOn k then s.raise .macOld k else s

/-- Write V and OR it into SAT (R244). -/
def putVSat (s : State) (k : Nat) (v : Bool) : State :=
  let s := putV s k v
  if v then s.raise .swSat k else s

/-- The state of a core's lock-step pair (R341). -/
def pairLOCKSTEP : Int := 0
def pairFROZEN : Int := 1
def pairSINGLE : Int := 2
def pairFUSED : Int := 3
def pairSPLIT : Int := 4
def pairUNVERIFIED : Int := 5

/-- The pair can execute: a frozen or fused-out pair does not, and of the pairs that failed the injection test only
the management core's does (R332, R333, R334). -/
def pairRuns (s : State) (k : Nat) : Bool :=
  let st := s.get .LS_PAIR_STATE k
  st == pairLOCKSTEP || st == pairSINGLE || st == pairSPLIT || (st == pairUNVERIFIED && k == 5)

/-- The core is out of reset, not halted, and its pair and its clocks run (R267, R326, R333). -/
def coreRuns (s : State) (k : Nat) : Bool :=
  s.bit .coreOn k && !s.bit .coreHalt k && !s.bit .coreDbg k && pairRuns s k && !s.bit .sleepMode

/-- The core can issue an instruction: it runs and does not wait in WFE or WAITU (R264, R266). -/
def canIssue (s : State) (k : Nat) : Bool := coreRuns s k && !s.bit .coreWait k

/-- The hidden counts of the bank in use (R218). -/
def repCount (s : State) (k : Nat) : Int := s.get .repCnt k (bankOf s k)
def loopCount (s : State) (k : Nat) : Int := s.get .loopCnt k (bankOf s k)

/-- Address `a` lies in the body of the loop context. -/
def inBody (s : State) (k : Nat) (a : Int) : Bool :=
  decide (unsigned 24 (a - s.get .loopStart k) ≤ unsigned 24 (s.get .loopEnd k - s.get .loopStart k))

/-- The fetch queue is emptied: fetch goes on elsewhere (R230, R241). -/
def dropQueue (s : State) (k : Nat) : State := s.clear .fqLen k

/-- The loop buffer is emptied (R239). -/
def dropLoopBuffer (s : State) (k : Nat) : State := (s.clear .lbPhase k).clear .lbOn k

/-- The body of the loop context fits the loop buffer (R239). -/
def loopFits (s : State) (k : Nat) : Bool := decide (unsigned 24 (s.get .loopEnd k - s.get .loopStart k) < 32)

/-- A call leaves the straight line: the fetch queue is emptied, and so is the loop buffer, while the context stays (R239, R263;
DEDUCED, log entry 88). -/
def leaveBody (s : State) (k : Nat) : State := dropQueue (dropLoopBuffer s k) k

/-- A loop-back (R239, R263): the hidden count decrements and fetch goes to the start. A buffer that has captured an iteration
supplies the next ones; one that was emptied captures the next. -/
def loopBack (s : State) (k : Nat) : State :=
  let s := s.put .loopCnt (loopCount s k - 1) k (bankOf s k)
  let s := if !loopFits s k then s
    else if s.get .lbPhase k == 0 then (s.put .lbPhase 1 k).clear .lbOn k else s.put .lbPhase 2 k
  setPc (dropQueue s k) k (s.get .loopStart k)

/-- The pc moves past the `len` words at it; after the instruction that holds the last word of the loop's body, the loop
returns to its start or ends (R263). -/
def advance (s : State) (k len : Nat) : State :=
  if s.bit .loopOn k && decide (unsigned 24 (s.get .loopEnd k - pcOf s k) < len) then
    if loopCount s k > 1 then loopBack s k
    else setPc (dropLoopBuffer (s.clear .loopOn k) k) k (pcOf s k + len)
  else setPc s k (pcOf s k + len)

/-- The fields of a core's register state (R218), which a reset of the core returns to their reset values. -/
def coreFld (f : Fld) : Bool :=
  f == .coreD || f == .coreP || f == .coreA || f == .coreRc || f == .repCnt || f == .loopCnt || f == .corePc ||
  f == .swC || f == .swV || f == .swZ || f == .swN || f == .swSat || f == .swDz || f == .swDzt || f == .swIe ||
  f == .swPriv || f == .repOn || f == .loopOn || f == .loopStart || f == .loopEnd || f == .coreHalt || f == .coreDbg ||
  f == .coreWait || f == .waitReg || f == .divOn || f == .divQ || f == .divR || f == .divQv || f == .divRv ||
  f == .divV || f == .divDz || f == .divOld || f == .macOn || f == .macA || f == .macVal || f == .macV || f == .macOld ||
  f == .irPres || f == .fqBase || f == .fqLen || f == .fqWord || f == .lbPhase || f == .lbOn || f == .lbWord || f == .fetched

/-- The exception registers of a core's window that a reset of the core clears (R296 to R298): the lock and the fields
it protects, the status and the entry records. -/
def coreWindowFld (f : Fld) : Bool :=
  f == .XC_VBASE || f == .XC_CTRL_LOCK || f == .XC_STATUS_DEPTH || f == .XC_STATUS_RM || f == .XC_STATUS_MCIP ||
  f == .XC_STATUS_SB || f == .XC_STATUS_DFHALT || f == .XC_XPC || f == .XC_XSW || f == .XC_XENT_REPV ||
  f == .XC_XENT_LOOPV || f == .XC_XLS || f == .XC_XLE || f == .XC_XCAUSE || f == .XC_XFADDR || f == .XC_MPUCTL_EN

/-- The state that only the management core has: its stack pointer, translation registers, TLB, hidden records and caches. -/
def mcFld (f : Fld) : Bool :=
  f == .coreUsp || f == .XC_ASID_ASID || f == .XC_MMU_TEN || f == .XC_MMU_WIRED || f == .XC_MMU_MULTI ||
  f == .XC_MMU_RP || f == .XC_PTROOT || f == .XC_TLBVA_VA || f == .XC_TLBVA_ASID || f == .XC_TLBWADDR ||
  f == .XC_TLBIDX || f == .XC_TLBTAG_VPN || f == .XC_TLBTAG_ASID || f == .XC_TLBTAG_SZ || f == .XC_TLBTAG_G ||
  f == .XC_TLBTAG_V || f == .XC_TLBPTE || f == .XC_GTBASE || f == .recKind || f == .recPriv || f == .recRm || f == .recMc ||
  f == .recClaim || f == .frameAt || f == .missWr || f == .tlbV || f == .tlbVpn || f == .tlbAsid || f == .tlbSz || f == .tlbG || f == .tlbPte ||
  f == .icOn || f == .icWord || f == .dcOn || f == .dcWord

/-- Return every entry that `p` names to its reset value. -/
def State.resetKeys (s : State) (p : Key → Bool) : State := { s with rf := s.rf.filter fun e => !p e.1 }

/-- The registers of core `k` return to their reset values; its store buffer and its waiting traps are lost. -/
def resetRegs (s : State) (k : Nat) : State :=
  let s := s.resetKeys fun x => (coreFld x.fld && x.i == k) || x.fld == .XC_STATUS_SB && x.i == k
  { s with stores := s.stores.filter (fun e => e.core != k), traps := s.traps.filter fun e => e.core != k }

/-- A reset of core `k`: its registers and its exception window (R296), on the management core its translation state. -/
def resetCore (s : State) (k : Nat) : State :=
  let s := resetRegs s k
  s.resetKeys fun x => (coreWindowFld x.fld && x.i == k) || (k == 5 && mcFld x.fld)

end Sys2Proof.Machine
end

