-- ==== Sys2Proof/Machine/Flume.lean ====
section
/-! DEFINITION. The Flume converter array (02_flume_sensing.md): trims, the per-tick reduction, channel checks,
open-sense tests, calibration rotation and converter substitution. -/
namespace Sys2Proof.Machine

/-- The slots of rail `r` that hold a member phase (R89). -/
def railSlots (s : State) (r : Nat) : List Nat := (List.range 64).filter fun j => s.bit .LN_MAP_VALID r j

/-- The phase of slot `j` of rail `r`. -/
def slotPhase (s : State) (r j : Nat) : Nat := s.nat .LN_MAP_PHASE r j

/-- The rail and slot that a phase belongs to (R12). -/
def memberOf (s : State) (p : Nat) : Option (Nat × Nat) :=
  (List.range 16).findSome? fun r => ((railSlots s r).find? fun j => slotPhase s r j == p).map fun j => (r, j)

/-- The rail states of R22. -/
def stUNUSED : Int := 0
def stOFF : Int := 1
def stRAMPUP : Int := 2
def stREG : Int := 3
def stRAMPDN : Int := 4
def stFAULT : Int := 5
def stRESTR : Int := 6

/-- The state of rail `r` (R22). -/
def railState (s : State) (r : Nat) : Int := s.get .DM_RAILSTAT_STATE r

/-- The rail is in RAMP_UP, REGULATING or RAMP_DOWN. -/
def railRuns (s : State) (r : Nat) : Bool :=
  railState s r == stRAMPUP || railState s r == stREG || railState s r == stRAMPDN

/-- A list of samples of an input: the listed ones, completed with 0 to the window's length (R39). -/
def samplesOf (l : List (Nat × List Int)) (ch n : Nat) : List Int :=
  match l.find? fun e => e.1 = ch with
  | some e => (e.2 ++ List.replicate n 0).take n
  | none => List.replicate n 0

/-- The trim of R42 before saturation, from four times the raw code. -/
def trimRaw (raw4 offs gain : Int) : Int := shr ((raw4 - offs) * gain + 2048) 12

/-- The trimmed sample of R42. -/
def trim (raw4 offs gain : Int) : Int := clampTo (-32768) 32767 (trimRaw raw4 offs gain)

/-- The clip codes of R41. -/
def isClip (raw : Int) : Bool := raw == -2048 || raw == 2047

/-- The current MEAN of R46. -/
def currentMean (l : List Int) : Int := clampTo (-32768) 32767 (shr (sumI l * 6554 + 32768) 16)

/-- The voltage MEAN of R46. -/
def voltageMean (l : List Int) : Int := shr (sumI l * 52429 + 32768) 16

/-- All codes of the window are equal and none is a clip code (R53). -/
def uniformCode (l : List Int) : Option Int :=
  match l with
  | [] => none
  | x :: t => if t.all (· == x) && !isClip x then some x else none

/-- Count a window towards the stuck check of R53. -/
def countStuck (s : State) (code cnt : Fld) (ch : Nat) (l : List Int) : State :=
  match uniformCode l with
  | none => s.clear cnt ch
  | some x =>
    if s.get code ch == x && s.bit cnt ch then s.bump cnt 4095 ch
    else (s.put code x ch).put cnt 1 ch

/-- One window of a current input (R42, R46, R48, R52, R53, R56). The codes of a held window do not count for the ripple window
(DEDUCED, log entry 108). -/
def currentWindow (s : State) (inp : TickInput) (p : Nat) : State :=
  if s.bit .FL_PHFLAG_SLFAIL p then s
  else if s.bit .phHold p then (s.clear .phHold p).raise .FL_PHFLAG_HOLD p
  else
    let raw := (samplesOf inp.cur p 10).map (clampTo (-2048) 2047)
    let offs := s.get .FL_PHOFS p
    let gain := s.get .FL_PHGAIN p
    let smp := raw.map fun x => trim (4 * x) offs gain
    let s := s.clear .FL_PHFLAG_HOLD p
    let s := s.when (raw.any fun x => trimRaw (4 * x) offs gain != trim (4 * x) offs gain)
      fun s => flagPub s .FL_PHFLAG_TRIMSAT p (5 * (p / 8) + 3)
    let s := s.when (raw.any isClip) fun s => flagPub s .FL_PHFLAG_CLIP p (5 * (p / 8))
    let s := countStuck s .phStuckCode .phStuckCnt p raw
    let s := s.put .FL_PHMEAN (currentMean smp) p
    let s := s.put .FL_PHLAST (smp.getLastD 0) p
    let s := s.put .FL_PHMIN (minI smp) p
    let s := s.put .FL_PHMAX (maxI smp) p
    let s := s.put .ripMin (min (s.get .ripMin p) (minI raw)) p
    s.put .ripMax (max (s.get .ripMax p) (maxI raw)) p

/-- One window of a rail's sense pair (R44, R45, R46, R48, R52, R53, R62). -/
def voltageWindow (s : State) (inp : TickInput) (r : Nat) : State :=
  if s.bit .FL_VFLAG_CVFAIL r then
    let s := (((s.clear .FL_VMEAN r).clear .FL_VLAST r).clear .FL_VMIN r).clear .FL_VMAX r
    (s.put .FL_VWREF (s.get .wref r) r).raise .FL_VFLAG_HOLD r
  else if s.bit .vHold r then (s.clear .vHold r).raise .FL_VFLAG_HOLD r
  else
    let code := (samplesOf inp.volt r 20).map fun v => clampTo (-2048) 2047 (v - s.get .wref r)
    let s := s.clear .FL_VFLAG_HOLD r
    let s := s.when (code.any isClip) fun s => flagPub s .FL_VFLAG_CLIP r (80 + 3 * (r / 8))
    let s := countStuck s .vStuckCode .vStuckCnt r code
    let s := s.put .FL_VMEAN (voltageMean code) r
    let s := s.put .FL_VLAST (code.getLastD 0) r
    let s := s.put .FL_VMIN (minI code) r
    let s := s.put .FL_VMAX (maxI code) r
    s.put .FL_VWREF (s.get .wref r) r

/-- The state of the rotation step of cluster `g` (0 to 15) or voltage group `g` minus 16 (R58). -/
def rotState (s : State) (g : Nat) : Int :=
  if g < 16 then s.get .FL_CLSTAT_RSTATE g else s.get .FL_VGSTAT_RSTATE (g - 16)
def setRotState (s : State) (g : Nat) (v : Int) : State :=
  if g < 16 then s.put .FL_CLSTAT_RSTATE v g else s.put .FL_VGSTAT_RSTATE v (g - 16)
def rotPos (s : State) (g : Nat) : Nat :=
  if g < 16 then s.nat .FL_CLSTAT_POS g else s.nat .FL_VGSTAT_POS (g - 16)
def setRotPos (s : State) (g k : Nat) : State :=
  if g < 16 then s.put .FL_CLSTAT_POS k g else s.put .FL_VGSTAT_POS k (g - 16)
def noSpare (s : State) (g : Nat) : Bool :=
  if g < 16 then s.bit .FL_CLSTAT_NOSPARE g else s.bit .FL_VGSTAT_NOSPARE (g - 16)

/-- The phase or rail at position `k` of a cluster or voltage group. -/
def rotInput (g k : Nat) : Nat := if g < 16 then 8 * g + k else 8 * (g - 16) + k

/-- FL_STATUS.ROTBUSY shows a step in progress somewhere (R65). -/
def refreshRotBusy (s : State) : State :=
  s.put .FL_STATUS_ROTBUSY (bit01 ((List.range 18).any fun g => rotState s g != 0))

/-- The slice serving position `k` of cluster `c` (R65, FL_CLMAP). -/
def sliceOf (s : State) (c k : Nat) : Int := field (s.get .FL_CLMAP c) (4 * k + 3) (4 * k)
def setSlice (s : State) (c k : Nat) (v : Int) : State :=
  s.put .FL_CLMAP (s.get .FL_CLMAP c + (v - sliceOf s c k) * 2 ^ (4 * k)) c

/-- The input at position `k` of the group is a member phase, or a rail that is not UNUSED (R60). -/
def rotMember (s : State) (g k : Nat) : Bool :=
  if g < 16 then (memberOf s (rotInput g k)).isSome else railState s (rotInput g k) != stUNUSED

/-- The next position of the rotation order after `k` (R60). -/
def rotNext (s : State) (g k : Nat) : Option Nat :=
  ((List.range 8).map fun d => (k + 1 + d) % 8).find? (rotMember s g)

/-- The first position of the rotation order at or after 0. -/
def rotTarget (s : State) (g : Nat) : Option Nat :=
  if s.get .rotRetry g == 2 && rotMember s g (s.nat .rotFirst g) then some (s.nat .rotFirst g)
  else if s.bit .rotAny g then rotNext s g (rotPos s g)
  else rotNext s g 7

/-- Start a rotation step at tick `t0` (R58, R60); nothing starts without a healthy off-line converter (R62) or before
RDY, and such a STEP leaves CFGERR as it is (DESIGN CHOICE, log entry 103). -/
def startRotation (s : State) (g : Nat) (t0 : Int) : State :=
  if noSpare s g || !s.bit .FL_STATUS_RDY then s
  else match rotTarget s g with
    | none => s
    | some k =>
      let s := s.when (s.get .rotRetry g == 2) (·.clear .rotRetry g)
      let s := ((setRotPos s g k).put .rotT0 t0 g).clear .rotDis g
      refreshRotBusy ((setRotState s g 1).raise .rotAny g)

/-- The group loses its off-line converter (R62): NOSPARE, and the spare field names none. -/
def loseSpare (s : State) (g : Nat) : State :=
  let s := if g < 16 then (s.put .FL_CLSTAT_SPARE 0xF g).raise .FL_CLSTAT_NOSPARE g
           else (s.put .FL_VGSTAT_SPARE 0x1F (g - 16)).raise .FL_VGSTAT_NOSPARE (g - 16)
  refreshRotBusy (setRotState s g 0)

/-- The number of the off-line converter of the group. -/
def spareOf (s : State) (g : Nat) : Nat :=
  if g < 16 then s.nat .FL_CLSTAT_SPARE g else s.nat .FL_VGSTAT_SPARE (g - 16)

/-- Mark a converter of the group failed (R61). -/
def markFailed (s : State) (g n : Nat) : State :=
  if g < 16 then s.setBits .FL_CLFAIL (2 ^ n) g else s.setBits .FL_VFAIL (2 ^ n)

/-- The off-line converter of the group fails (R58, R59). -/
def failSpare (s : State) (g : Nat) : State := loseSpare ((markFailed s g (spareOf s g)).clear .rotRetry g) g

/-- The tick lies in the shadow of the group's step: t0 + 2,052 to t0 + 2,111 (R58). -/
def inShadow (s : State) (g : Nat) (n : Int) : Bool :=
  rotState s g == 2 && decide (s.get .rotT0 g + 2052 ≤ n ∧ n ≤ s.get .rotT0 g + 2111)

/-- The tick lies in the shadow or handover ticks of a step on the input, t0 + 2,052 to t0 + 2,112 (R58, R63). -/
def underShadow (s : State) (g k : Nat) : Bool :=
  rotPos s g == k && (inShadow s g s.now || rotState s g == 3 || s.get .rotEnd g == s.now)

/-- A shadow of at least one tick runs on the input and has not disagreed in more than 2 ticks (R58, R59; DEDUCED, log
entry 104). -/
def shadowAgrees (s : State) (g k : Nat) : Bool :=
  rotPos s g == k && (rotState s g == 2 || rotState s g == 3) && decide (s.now > s.get .rotT0 g + 2052) &&
    decide (s.get .rotDis g ≤ 2)

/-- A shadow tick compares the means of the two converters' raw codes exactly (DEDUCED, log entry 105); more than 4 codes
apart disagree (R58). -/
def shadowTick (s : State) (inp : TickInput) (n : Int) (g : Nat) : State :=
  let input := rotInput g (rotPos s g)
  let held := if g < 16 then s.bit .phHold input else s.bit .vHold input
  if inShadow s g n && !held then
    let len := if g < 16 then 10 else 20
    let conv := fun (v : Int) => if g < 16 then clampTo (-2048) 2047 v else clampTo (-2048) 2047 (v - s.get .wref input)
    let a := (samplesOf (if g < 16 then inp.cur else inp.volt) input len).map conv
    let b := (samplesOf inp.shadow g len).map conv
    if absI (sumI a - sumI b) > 4 * len then s.bump .rotDis 60 g else s
  else s

/-- The deferred tests of the step's input in group `g` wait no longer (R63): they are made in the window of tick `t` after the
handover, or (`t` = 0) not at all (DEDUCED, log entry 106). -/
def deferTo (s : State) (g : Nat) (t : Int) : State :=
  let input := rotInput g (rotPos s g)
  if g < 16 then s.when (s.get .phDefer input == 1) (·.put .phDefer t input)
  else s.when (s.get .vDefer input == 1) (·.put .vDefer t input)

/-- The step in progress in group `g` ends without a handover (R61, R63). -/
def dropStep (s : State) (g : Nat) : State := setRotState (deferTo s g 0) g 0

/-- A step whose target input has left its rail, or whose rail is in RESTRUCTURE, is abandoned (R63). -/
def abandonSteps (s : State) : State :=
  refreshRotBusy (s.each (List.range 18) fun s g =>
    if rotState s g == 0 then s
    else
      let input := rotInput g (rotPos s g)
      let gone :=
        if g < 16 then
          match memberOf s input with
          | none => true
          | some (r, _) => railState s r == stRESTR
        else railState s input == stUNUSED || railState s input == stRESTR
      if gone then dropStep s g else s)

/-- The shadow of group `g` has ended at the boundary of tick `n`: its step waits for the handover (R58). -/
def shadowEnd (s : State) (n : Int) (g : Nat) : State :=
  s.when (rotState s g == 2 && decide (n ≥ s.get .rotT0 g + 2112)) (setRotState · g 3)

/-- All windows of one tick: shadows, current inputs of member phases, sense pairs of rails that are not UNUSED
(R12, R46, R60). -/
def flumeTick (s : State) (inp : TickInput) (n : Int) : State :=
  if !s.bit .flumeOn then s
  else
    let s := s.each (List.range 18) fun s g => shadowEnd (shadowTick s inp n g) (n + 1) g
    let s := s.each (List.range 16) fun s r =>
      (s.each (railSlots s r) fun s j => currentWindow s inp (slotPhase s r j))
    s.each (List.range 16) fun s r => if railState s r == stUNUSED then s else voltageWindow s inp r

/-- A retirement cause reaches a phase; it is judged at the coming boundary (R188). -/
def requestRetire (s : State) (p cause : Nat) : State := s.setBits .retReq (2 ^ cause) p

/-- An in-service converter fails (R61, R62): the off-line converter takes over its input; without one the input goes
unserved: SLFAIL and a retirement request for a phase, CVFAIL and an open-sense response for a rail. -/
def failConverter (s : State) (g k : Nat) : State :=
  let input := rotInput g k
  let serving : Nat := if g < 16 then (sliceOf s g k).toNat else s.nat .FL_VCONV input
  let s := refreshRotBusy (dropStep (markFailed s g serving) g)
  if noSpare s g then
    if g < 16 then requestRetire ((setSlice s g k 0xF).raise .FL_PHFLAG_SLFAIL input) input 3
    else (s.put .FL_VCONV 0x1F input).raise .FL_VFLAG_CVFAIL input
  else
    let n := spareOf s g
    let s := if g < 16 then setSlice s g k n else s.put .FL_VCONV n input
    loseSpare s g

/-- The group and position of a sense channel that has a converter of the rotated kind. -/
def groupOf : SenseChannel → Option (Nat × Nat)
  | .phase p => some (p.val / 8, p.val % 8)
  | .rail r => some (16 + r.val / 8, r.val % 8)
  | _ => none

/-- AUX_RESULT (R50, R52, R53): the channel's average, trimmed by its kind, replaces FL_AUXRES. -/
def auxResult (s : State) (a : Nat) (codes : List Int) : State :=
  let avg := s.nat .FL_AUXCFG_AVG a
  if !s.bit .flumeOn || codes.length ≠ 2 ^ avg then s
  else
    let s := s.each codes fun s x =>
      if s.get .auxStuckCode a == x && s.bit .auxStuckCnt a then s.bump .auxStuckCnt 4096 a
      else (s.put .auxStuckCode x a).put .auxStuckCnt 1 a
    let mean := shr (4 * sumI codes + (if avg = 0 then 0 else 2 ^ avg / 2)) avg
    let kind := s.get .FL_AUXCFG_KIND a
    let full := trimRaw mean (s.get .FL_AUXOFS a) (s.get .FL_AUXGAIN a)
    let sat := clampTo (-32768) 32767 full
    let vin := kind == 1
    let res := if kind == 0 then mean else if vin && sat < 0 then 0 else sat
    let s := s.when (kind != 0 && (full != sat || (vin && sat < 0))) fun s => flagPub s .FL_AUXFLAG_TRIMSAT a 88
    let s := s.put .FL_AUXRES (unsigned 16 res) a
    let s := s.when vin fun s => (s.put .vin res).raise .vinValid
    let lo := if kind == 2 then signed 16 (s.get .FL_AUXRLO a) else s.get .FL_AUXRLO a
    let hi := if kind == 2 then signed 16 (s.get .FL_AUXRHI a) else s.get .FL_AUXRHI a
    s.when (res < lo || hi < res) fun s => flagPub s .FL_AUXFLAG_RANGE a 86

/-- The input-bus value the lanes and the Sluice use (R50). -/
def vinValue (s : State) : Int := if s.bit .vinValid then s.get .vin else s.get .vinDefault

/-- The trimmed result of a cluster temperature sample (R42, R51). -/
def tempValue (s : State) (c : Nat) (raw : Int) : Int :=
  clampTo (-32768) 32767 (trimRaw (4 * raw) (s.get .FL_TMOFS c) (s.get .FL_TMGAIN c))

/-- The result of a cluster temperature sample (R51, R52, R53), which replaces FL_CLTEMP at the next boundary (R477). -/
def tempResult (s : State) (c : Nat) (raw : Int) : State :=
  let s :=
    if s.get .tmStuckCode c == raw && s.bit .tmStuckCnt c then s.bump .tmStuckCnt 4096 c
    else (s.put .tmStuckCode raw c).put .tmStuckCnt 1 c
  let full := trimRaw (4 * raw) (s.get .FL_TMOFS c) (s.get .FL_TMGAIN c)
  let res := tempValue s c raw
  let s := s.when (full != res) fun s => flagPub s .FL_TMFLAG_TRIMSAT c (5 * c + 3)
  let s := s.later .FL_CLTEMP res c
  s.when (res < s.get .FL_TMRLO c || s.get .FL_TMRHI c < res) fun s => flagPub s .FL_TMFLAG_RANGE c (5 * c + 4)

/-- CHANNEL_STUCK (R53): the channel's STUCK flag is set once its count has reached STKT windows, or 4,096 samples. -/
def channelStuck (s : State) : SenseChannel → State
  | .phase p =>
    s.when (s.get .phStuckCnt p ≥ s.get .FL_STKCFG_STKT && s.bit .phStuckCnt p)
      fun s => flagPub s .FL_PHFLAG_STUCK p (5 * (p.val / 8) + 1)
  | .rail r =>
    s.when (s.get .vStuckCnt r ≥ s.get .FL_STKCFG_STKT && s.bit .vStuckCnt r)
      fun s => flagPub s .FL_VFLAG_STUCK r (80 + 3 * (r.val / 8) + 1)
  | .aux a => s.when (s.get .auxStuckCnt a ≥ 4096) fun s => flagPub s .FL_AUXFLAG_STUCK a 87
  | .temp c => s.when (s.get .tmStuckCnt c ≥ 4096) fun s => flagPub s .FL_TMFLAG_STUCK c (5 * c.val + 1)

/-- Count one judged test; OSCNT consecutive failures set OPEN, a pass restarts the count (R55, R56). -/
def judgeOpen (s : State) (cnt flag : Fld) (ch h : Nat) (failed : Bool) : State :=
  if failed then
    let s := s.bump cnt 15 ch
    s.when (s.get cnt ch ≥ s.get .FL_CTRL_OSCNT) fun s => flagPub s flag ch h
  else s.clear cnt ch

/-- The present window is a test window of rail `r`'s sense pair (R477). -/
def vTestDue (s : State) (r : Nat) : Bool :=
  let per := if railState s r == stOFF then 256 else 256 * s.get .FL_CTRL_VPER
  per != 0 && s.now % per == 2 * r

/-- VOLTAGE_OPEN_TEST (R54, R55, R63, R477): the window is held and judged; a test on an input under a shadow is
deferred to the window after the handover. -/
def voltageOpenTest (s : State) (r : Nat) (codes : List Int) : State :=
  let due := vTestDue s r || (s.bit .vDefer r && s.get .vDefer r == s.now)
  if !s.bit .FL_CTRL_OSEN || !due || railState s r == stUNUSED || !s.bit .flumeOn || s.bit .FL_VFLAG_CVFAIL r
      || s.bit .FL_VFLAG_HOLD r then s
  else if underShadow s (16 + r / 8) (r % 8) then
    s.put .vDefer (if s.get .rotEnd (16 + r / 8) == s.now then s.now + 1 else 1) r
  else
    let s := (s.clear .vDefer r).raise .vHold r
    judgeOpen s .vOpenFail .FL_VFLAG_OPEN r (80 + 3 * (r / 8) + 2) (codes.length = 20 && codes.all (· == 2047))

/-- CURRENT_INJECTION_TEST (R54, R56, R63, R477): made on a phase that has not been high so far in the ripple window
(DESIGN CHOICE, log entry 107). -/
def currentInjectionTest (s : State) (p : Nat) (codes : List Int) : State :=
  let due := s.now % 256 == 32 + (p : Int) || (s.bit .phDefer p && s.get .phDefer p == s.now)
  if !s.bit .FL_CTRL_OSEN || !due || (memberOf s p).isNone || !s.bit .flumeOn || s.bit .FL_PHFLAG_SLFAIL p
      || s.bit .pwmHigh p || s.bit .FL_PHFLAG_HOLD p then s
  else if underShadow s (p / 8) (p % 8) then
    s.put .phDefer (if s.get .rotEnd (p / 8) == s.now then s.now + 1 else 1) p
  else
    let s := (s.clear .phDefer p).raise .phHold p
    judgeOpen s .openFail .FL_PHFLAG_OPEN p (5 * (p / 8) + 2) (codes.length = 10 && codes.all (· == 2047))

/-- The ripple window's length in ticks (R56). -/
def ripLen (s : State) : Int := 64 * 2 ^ s.nat .FL_RIPCFG_RIPWIN

/-- RIPPLE_WINDOW_END (R56, R477): at a multiple of the window's length every member phase reports its ripple; a phase
that has been high is judged against RIPMIN, and one that is high at the boundary is high in the window that begins. -/
def rippleWindowEnd (s : State) : State :=
  if s.now % ripLen s != 0 || s.now == s.get .ripEnded || !s.bit .flumeOn then s
  else
    let s := s.put .ripEnded s.now
    s.each (List.range 128) fun s p =>
      if (memberOf s p).isNone then s
      else
        let rip := if s.get .ripMin p ≤ s.get .ripMax p then s.get .ripMax p - s.get .ripMin p else 0
        let s := s.put .FL_PHRIP rip p
        let s := s.when (s.bit .pwmHigh p && s.bit .FL_CTRL_OSEN) fun s =>
          judgeOpen s .openFail .FL_PHFLAG_OPEN p (5 * (p / 8) + 2) (rip < s.get .FL_RIPCFG_RIPMIN)
        ((s.put .pwmHigh (bit01 (s.get .SL_PSTAT_LEVEL p == 1)) p).put .ripMin 2047 p).put .ripMax (-2048) p

/-- CALIBRATION_DONE (R58): 2,048 ticks after t0 the off-line converter is either failed or connected to the input. -/
def calibrationDone (s : State) (g : Nat) (good : Bool) : State :=
  if rotState s g != 1 || s.now < s.get .rotT0 g + 2048 then s
  else if good then setRotState s g 2
  else failSpare s g

/-- HANDOVER (R58, R59): 2,112 ticks after t0 the two converters change places, or the step is aborted. -/
def handover (s : State) (g : Nat) : State :=
  if (rotState s g != 2 && rotState s g != 3) || s.now < s.get .rotT0 g + 2112 then s
  else
    let k := rotPos s g
    if s.get .rotDis g ≤ 2 then
      let s := (deferTo s g (s.now + 1)).put .rotEnd s.now g
      let n := spareOf s g
      let s :=
        if g < 16 then (setSlice s g k n).put .FL_CLSTAT_SPARE (sliceOf s g k) g
        else (s.put .FL_VCONV n (rotInput g k)).put .FL_VGSTAT_SPARE (s.get .FL_VCONV (rotInput g k)) (g - 16)
      let s := if s.get .rotRetry g == 1 then s.put .rotRetry 2 g else s
      refreshRotBusy (setRotState s g 0)
    else
      let s := if g < 16 then (s.raise .FL_CLSTAT_ABORT g).bump .FL_CLSTAT_ABORTS 15 g
               else (s.raise .FL_VGSTAT_ABORT (g - 16)).bump .FL_VGSTAT_ABORTS 15 (g - 16)
      let s := deferTo s g 0
      if s.get .rotRetry g == 1 then failSpare s g
      else refreshRotBusy (setRotState ((s.put .rotRetry 1 g).put .rotFirst k g) g 0)

/-- ROTATION_STEP (R60): a write of FL_ROTCTL.STEP starts a step in the named cluster or group at the next boundary; a
step already in progress there refuses it and sets CFGERR. -/
def rotationStep (s : State) (g : Nat) : State :=
  let s := s.put .FL_ROTCTL_TGT g
  if rotState s g != 0 then s.raise .FL_STATUS_CFGERR else startRotation s g (s.now + 1)

/-- Every ROTPER-th management-tick boundary starts a step in each cluster and group (R60). -/
def automaticRotation (s : State) : State :=
  if s.bit .FL_CTRL_ROTEN && s.bit .FL_ROTCTL_ROTPER && s.get .DM_MTICK % s.get .FL_ROTCTL_ROTPER == 0 then
    s.each (List.range 18) fun s g => if rotState s g == 0 then startRotation s g s.now else s
  else s

/-- DECLARE_CONVERTER_FAILED (R61): a write of FL_SUBCTL.GO; one that names no converter in service is illegal. -/
def declareConverter (s : State) (idx : Nat) (isRail : Bool) : State :=
  let s := (s.put .FL_SUBCTL_IDX idx).put .FL_SUBCTL_KIND (bit01 isRail)
  if isRail then
    if idx < 16 && railState s idx != stUNUSED && s.get .FL_VCONV idx != 0x1F then failConverter s (16 + idx / 8) (idx % 8)
    else s.raise .FL_STATUS_CFGERR
  else if (memberOf s idx).isSome && sliceOf s (idx / 8) (idx % 8) != 0xF then failConverter s (idx / 8) (idx % 8)
  else s.raise .FL_STATUS_CFGERR

/-- CONVERTER_SUBSTITUTION (R61): the stream of an in-service converter is stuck while a shadow from another converter
of its group agrees with the input. -/
def converterSubstitution (s : State) (ch : SenseChannel) : State :=
  let stuck := match ch with
    | .phase p => s.get .phStuckCnt p ≥ s.get .FL_STKCFG_STKT && s.bit .phStuckCnt p
    | .rail r => s.get .vStuckCnt r ≥ s.get .FL_STKCFG_STKT && s.bit .vStuckCnt r
    | _ => false
  match groupOf ch with
  | none => s
  | some (g, k) => if stuck && shadowAgrees s g k then failConverter s g k else s

/-- The slices, and the voltage converters, that stand failed (R61, R445). -/
def failedSlices (s : State) : List (Nat × Nat) :=
  (List.range 16).flatMap fun c => ((List.range 9).filter fun n => s.bitOf .FL_CLFAIL n c).map fun n => (c, n)
def failedConvs (s : State) : List Nat := (List.range 18).filter fun v => s.bitOf .FL_VFAIL v

/-- FLUME_STARTUP_CAL (R64): 1,600 ticks after the Flume is powered every powered converter is calibrated for 2,048 ticks (R58);
one outside its factory limit is marked failed, one that stands failed serves no input (R62), and RDY sets. -/
def flumeStartupCal (s : State) (slices : List (Nat × Nat)) (convs : List Nat) : State :=
  if !s.bit .flumeOn || s.bit .FL_STATUS_RDY || s.now < s.get .flumeFrom + 3648 then s
  else
    let slices := failedSlices s ++ slices
    let convs := failedConvs s ++ convs
    let s := s.each slices fun s e =>
      if s.get .FL_CLSTAT_SPARE e.1 == e.2 then failSpare s e.1
      else match (List.range 8).find? fun k => sliceOf s e.1 k == e.2 with
        | some k => failConverter s e.1 k
        | none => s
    let s := s.each convs fun s v =>
      let g := if v < 8 || v == 16 then 16 else 17
      if s.get .FL_VGSTAT_SPARE (g - 16) == v then failSpare s g
      else match (List.range 16).find? fun r => s.get .FL_VCONV r == v with
        | some r => failConverter s g (r % 8)
        | none => s
    s.raise .FL_STATUS_RDY

/-! The meanings of the Flume's commands. -/

def execAuxResult (a : Fin 8) (codes : List (BitVec 12)) (s : State) : Out :=
  .next (auxResult s a (codes.map fun c => (c.toNat : Int)))
def execChannelStuck (ch : SenseChannel) (s : State) : Out := .next (channelStuck s ch)
def execVoltageOpenTest (r : Rail) (codes : List Int) (s : State) : Out := .next (voltageOpenTest s r codes)
def execCurrentInjectionTest (p : Phase) (codes : List Int) (s : State) : Out := .next (currentInjectionTest s p codes)
def execRippleWindowEnd (s : State) : Out := .next (rippleWindowEnd s)
def execRotationStep (g : Fin 18) (s : State) : Out := .next (rotationStep s g)
def execDeclareConverterFailed (idx : Fin 128) (kind : Bool) (s : State) : Out := .next (declareConverter s idx kind)
def execCalibrationDone (g : Fin 18) (good : Bool) (s : State) : Out := .next (calibrationDone s g good)
def execHandover (g : Fin 18) (s : State) : Out := .next (handover s g)
def execConverterSubstitution (ch : SenseChannel) (s : State) : Out := .next (converterSubstitution s ch)
def execFlumeStartupCal (slices : List (Nat × Nat)) (convs : List Nat) (s : State) : Out :=
  .next (flumeStartupCal s slices convs)

end Sys2Proof.Machine
end

