-- ==== Sys2Proof/Machine/Delivery.lean ====
section
/-! DEFINITION. The power-delivery model (01_delivery_model.md): currents, totals and allotments, admissibility of
planned changes, the ENn filter, sequencing predicates and PGOOD. -/
namespace Sys2Proof.Machine

/-- The rail current of the last window: the saturated sum of the MEANs of the member phases that are not retired
(R15, R47). -/
def railCurrent (s : State) (r : Nat) : Int :=
  clampTo (-2097151) 2097151 (sumI ((railSlots s r).map fun j =>
    let p := slotPhase s r j
    if s.bit .PH_PSTAT_RET p then 0 else s.get .FL_PHMEAN p))

/-- The shift that converts a Q18.4 rail current to 125 mA units (R16). -/
def iqShift (s : State) (r : Nat) : Nat :=
  if s.get .DM_RAILCFG_IQSEL r == 0 then 6 else if s.get .DM_RAILCFG_IQSEL r == 1 then 5 else 4

/-- A rail's contribution to domain current, from a Q18.4 current (R16). -/
def contribution (s : State) (r : Nat) (cur : Int) : Int := shr (max cur 0) (iqShift s r)

/-- The reference code of a rail: the upper 14 bits of REF (R16, R44). -/
def refCode (s : State) (r : Nat) : Int := shr (s.get .LN_REF r) 10

/-- The rails of domain `d` (R14). -/
def domainRails (s : State) (d : Nat) : List Nat :=
  (List.range 16).filter fun r => railState s r != stUNUSED && s.get .DM_RAILCFG_DOMAIN r == d

/-- Domain current from a current per rail (R16). -/
def domainTotal (s : State) (cur : Nat → Int) (d : Nat) : Int :=
  min 0xFFFF (sumI ((domainRails s d).map fun r => contribution s r (cur r)))

/-- The sum of the power products of all rails, in units of 15.625 µW (R16). -/
def powerProducts (s : State) (cur : Nat → Int) : Int :=
  sumI (((List.range 16).filter fun r => railState s r != stUNUSED).map fun r => refCode s r * contribution s r (cur r))

/-- Device power from a current per rail (R16). -/
def deviceTotal (s : State) (cur : Nat → Int) : Int := min 0xFFFF (shr (powerProducts s cur) 14)

/-- Form the rail, domain and device totals of the tick (R15, R16), and count the ticks of excess (R21). -/
def totalsUpdate (s : State) : State :=
  let s := s.each (List.range 16) fun s r =>
    if railState s r == stUNUSED then s else s.put .DM_RAILCUR_ICUR (railCurrent s r) r
  let cur := fun r => s.get .DM_RAILCUR_ICUR r
  let t := s.each (List.range 8) fun t d => t.put .DM_DOM_INOW (domainTotal s cur d) d
  let t := t.put .DM_DEV_PNOW (deviceTotal s cur)
  let t := t.each (List.range 8) fun t d =>
    if t.get .DM_DOM_INOW d > t.get .DM_DOM_IALLOT d then t.bump .domXCnt 255 d else t.clear .domXCnt d
  if t.get .DM_DEV_PNOW > t.get .DM_DEV_PALLOT then t.bump .devXCnt 16 else t.clear .devXCnt

/-- Planned current of a rail in Q18.4: the present current plus the accepted commitments (R19). -/
def planned (s : State) (r : Nat) : Int :=
  s.get .DM_RAILCUR_ICUR r + 16 * sumI ((s.commits.filter fun c => c.rail = r).map fun c => c.di)

/-- The three tests of R19 for a planned change of `di` IQ on rail `r`. -/
def admissible (s : State) (r : Nat) (di : Int) : Bool :=
  let d := s.nat .DM_RAILCFG_DOMAIN r
  let pl := planned s
  decide (pl r + 16 * di ≤ 16 * s.get .DM_RAILLIM_ILIM r) &&
  decide (domainTotal s pl d + contribution s r (16 * di) ≤ s.get .DM_DOM_IALLOT d) &&
  decide (shr (powerProducts s pl + refCode s r * contribution s r (16 * di)) 14 ≤ s.get .DM_DEV_PALLOT)

/-- The fewest phases a rail may run (R20). -/
def nMin (s : State) (r : Nat) : Int :=
  max 1 (ceilDiv (ceilDiv (max 0 (planned s r)) 16) (s.get .DM_RAILPHL_PHIMAX r))

/-- A write of ILIM, IALLOT or PALLOT (R17): above its ceiling it is not stored and CEILERR is set; else it takes effect
at the next boundary. -/
def limitWrite (s : State) (f : Fld) (i : Nat) (v : Int) : State :=
  if s.inBound ⟨f, i, 0⟩ v then s.later f v i else s.raise .DM_STATUS_CEILERR

/-- DOMAIN_EXCESS (R21): XPERS consecutive ticks above IALLOT set DOMX and publish. -/
def domainExcess (s : State) (d : Nat) : State :=
  if s.bit .domXCnt d && s.get .domXCnt d ≥ s.get .DM_DOMCFG_XPERS d && !s.bitOf .DM_STATUS_DOMX d then
    hwPublish (s.setBits .DM_STATUS_DOMX (2 ^ d)) 89
  else s

/-- DEVICE_EXCESS (R21): 16 consecutive ticks above PALLOT set DEVX and publish. -/
def deviceExcess (s : State) : State :=
  if s.get .devXCnt ≥ 16 then flagPub s .DM_STATUS_DEVX 0 89 else s

/-- A management-tick boundary stands at the present TICK and has not been made (R35). -/
def mtickDue (s : State) : Bool :=
  s.now != 0 && s.now % 1000000 == 0 && s.get .mtAt != s.now && s.get .sleepMode != 2

/-- The ENn filter samples its pin once per tick from the boundary at which the fabric is programmed (R26). -/
def enSample (s : State) (r : Nat) (level : Bool) : State :=
  let v := bit01 level
  let s := if s.get .enCand r == v then s.bump .enStable 2048 r else (s.put .enCand v r).put .enStable 1 r
  if s.get .enStable r ≥ 8 * s.get .DM_RAILTMO_ENFILT r then s.clear .enWait r else s.bump .enWait 160000 r

/-- EN_STUCK_TIMEOUT (R26). -/
def enStuck (s : State) (r : Nat) : State :=
  if s.get .enWait r ≥ 160000 then s.raise .DM_RAILSTAT_ENSTUCK r else s

/-- The rail's enable as its source gives it (R25). -/
def enableLevel (s : State) (r : Nat) : Bool :=
  let src := s.get .DM_RAILCFG_ENSRC r
  if src == 0 then s.bit .DM_RAILSTAT_ENF r
  else if src == 1 then s.bit .DM_RAILCTL_HOSTEN r
  else if src == 2 then s.bit .DM_RAILSTAT_ENF r && s.bit .DM_RAILCTL_HOSTEN r
  else s.bit .fabricOn

/-- The rail's enable (R25); EXTEST, CLAMP and HIGHZ hold it false (R470). -/
def enabled (s : State) (r : Nat) : Bool := !s.bit .enableHold && enableLevel s r

/-- The rail, in OFF, has an enable that has become true in this tick (R472). -/
def enableRises (s : State) (r : Nat) : Bool := railState s r == stOFF && enabled s r && !s.bit .enWas r

/-- An enable that becomes true in the tick in which EXTEST, CLAMP or HIGHZ was loaded ends it: it acts as BYPASS (R472). -/
def tapYields (s t : State) (r : Nat) : State :=
  if s.bit .enableHold && s.get .tapAt == s.now + 1 && railState s r == stOFF && !enableLevel s r && enableLevel t r then
    ((t.clear .enableHold).put .tapIr 0xFF).raise .tapErr
  else t

/-- EN_FILTER_ACCEPT (R26). -/
def enAccept (s : State) (r : Nat) : State :=
  if s.bit .fabricOn && s.get .enStable r ≥ 8 * s.get .DM_RAILTMO_ENFILT r then
    tapYields s (s.put .DM_RAILSTAT_ENF (s.get .enCand r) r) r
  else s

/-- The valid predecessor entries of a rail (R27). -/
def predecessors (s : State) (r : Nat) : List Nat :=
  [(Fld.DM_RAILSEQ_PV0, Fld.DM_RAILSEQ_PRED0), (.DM_RAILSEQ_PV1, .DM_RAILSEQ_PRED1),
   (.DM_RAILSEQ_PV2, .DM_RAILSEQ_PRED2), (.DM_RAILSEQ_PV3, .DM_RAILSEQ_PRED3)].filterMap fun e =>
    if s.bit e.1 r then some (s.nat e.2 r) else none

/-- The rails that list `r` as a predecessor (R28). -/
def dependents (s : State) (r : Nat) : List Nat :=
  (List.range 16).filter fun d => railState s d != stUNUSED && (predecessors s d).contains r

/-- The state of a rail as the coming boundary finds it (R23): a rail that a command has already moved keeps its state
from before. -/
def oldState (s : State) (r : Nat) : Int := if s.bit .railMoved r then s.get .prevState r else railState s r

/-- PGOOD of a rail as the coming boundary finds it. -/
def oldPgood (s : State) (r : Nat) : Bool := if s.bit .railMoved r then s.bit .prevPg r else s.bit .DM_RAILSTAT_PGOOD r

/-- The predecessors of `r` are satisfied at tick `t` (R27). -/
def predsSatisfied (s : State) (r : Nat) (t : Int) : Bool :=
  (predecessors s r).all fun q =>
    oldState s q == stREG && oldPgood s q &&
      decide (t - s.get .predPgAt q ≥ 160 * s.get .DM_RAILDLY_SDLY r)

/-- Every dependent of `r` is in OFF, FAULT or UNUSED (R24, row 5). -/
def dependentsDown (s : State) (r : Nat) : Bool :=
  (dependents s r).all fun d => oldState s d == stOFF || oldState s d == stFAULT || oldState s d == stUNUSED

/-- START_DELAY_EXPIRY (R27): the predecessors are satisfied at the coming boundary, and PREDOK shows it. -/
def startDelayExpiry (s : State) (r : Nat) : State :=
  if predsSatisfied s r (s.now + 1) then s.raise .DM_RAILSTAT_PREDOK r else s

/-- The mean voltage of the last window lies inside the PGOOD window of rail `r` (R31); the window's own reference is
added to the deviation first (R45), and an unserved sense pair is out of window (R62). -/
def inPgoodWindow (s : State) (r : Nat) : Bool :=
  let v := 64 * (16 * s.get .FL_VWREF r + s.get .FL_VMEAN r)
  let ref := s.get .LN_REF r
  !s.bit .FL_VFLAG_CVFAIL r && decide (ref - 8192 * s.get .DM_RAILPG_PGLO r ≤ v) &&
    decide (v ≤ ref + 8192 * s.get .DM_RAILPG_PGHI r)

/-- Count the in-window and out-of-window ticks of a rail in REGULATING (R31). -/
def pgoodCount (s : State) (r : Nat) : State :=
  if railState s r == stREG then
    if inPgoodWindow s r then (s.bump .pgIn 16 r).clear .pgOut r else (s.bump .pgOut 4 r).clear .pgIn r
  else (s.clear .pgIn r).clear .pgOut r

/-- PGOOD_ASSERT (R31): 16 consecutive in-window ticks in REGULATING. -/
def pgoodAssert (s : State) (r : Nat) : State :=
  if railState s r == stREG && s.get .pgIn r ≥ 16 && !s.bit .DM_RAILSTAT_PGOOD r then
    (s.raise .DM_RAILSTAT_PGOOD r).put .predPgAt s.now r
  else s

/-- PGOOD_DEASSERT (R31): 4 consecutive out-of-window ticks, or the rail has left REGULATING. -/
def pgoodDeassert (s : State) (r : Nat) : State :=
  if s.get .pgOut r ≥ 4 || railState s r != stREG then (s.clear .DM_RAILSTAT_PGOOD r).clear .pgIn r else s

def execDomainExcess (d : Domain) (s : State) : Out := .next (domainExcess s d)
def execDeviceExcess (s : State) : Out := .next (deviceExcess s)
def execEnFilterAccept (r : Rail) (s : State) : Out := .next (enAccept s r)
def execEnStuckTimeout (r : Rail) (s : State) : Out := .next (enStuck s r)
def execStartDelayExpiry (r : Rail) (s : State) : Out := .next (startDelayExpiry s r)
def execPgoodAssert (r : Rail) (s : State) : Out := .next (pgoodAssert s r)
def execPgoodDeassert (r : Rail) (s : State) : Out := .next (pgoodDeassert s r)

end Sys2Proof.Machine
end

