-- ==== Sys2Proof/Machine/Lane.lean ====
section
/-! DEFINITION. Loop lanes (03_loop_lanes.md): the compensator, the command limits and anti-windup, the reference, the
split over the active phases, the balance trim and the coefficient banks. -/
namespace Sys2Proof.Machine

/-- The reciprocal table of R79: 2^17 / N rounded to nearest. -/
def recip (n : Nat) : Int := if n = 0 then 0 else ((2 ^ 18 + n) / (2 * n) : Nat)

/-- The active slots of a rail (SL_RACT, R110). -/
def activeSlots (s : State) (r : Nat) : List Nat := (railSlots s r).filter fun j => s.bitOf .SL_RACT j r

/-- Set a lane flag where a condition holds. -/
def laneFlagIf (s : State) (c : Bool) (r n : Nat) : State := if c then laneFlag s r n else s

/-- The droop of the load line (R68), in Q12.4 codes. -/
def droop (s : State) (r : Nat) : Int :=
  min 32767 (shr (max (s.get .DM_RAILCUR_ICUR r) 0 * s.get .LN_AVPK r (s.nat .LN_STATUS_ACTBANK r) + 2 ^ 19) 20)

/-- The error before the clamp of R67. -/
def errorRaw (s : State) (r : Nat) : Int :=
  let dev := if s.bit .LN_CTRL_ESRC r then 16 * s.get .FL_VLAST r else s.get .FL_VMEAN r
  shr (-dev - droop s r + 8) 4

/-- The upper command bound of R71. -/
def cmdHi (s : State) (r : Nat) : Int := min (16 * s.get .DM_RAILLIM_ILIM r) (2 ^ 21 - 1)

/-- The lower command bound of R71. -/
def cmdLo (s : State) (r : Nat) : Int :=
  if oldState s r == stRAMPUP && s.bit .LN_CTRL_PREBIAS r then 0 else s.get .LN_CMDMIN r

/-- The forecast feed-forward the lane takes (R78). -/
def laneFfc (s : State) (r : Nat) : Int :=
  if s.bit .LN_CTRL_FFEN r && oldState s r == stREG then s.get .ffcIn r else 0

/-- The command before limiting for integrator value `i` (R69, R71): u(i) + ffc, and whether u was limited (R70). -/
def cmdPre (acc i ffc : Int) : Int × Bool :=
  let raw := acc + i
  let u0 := shr (satS 40 raw + 2 ^ 16) 17
  let u := satS 22 u0
  (u + ffc, raw != satS 40 raw || u != u0)

/-- One run of the compensator of a running lane (R67 to R73). -/
def compensate (s : State) (r : Nat) : State :=
  let b := s.nat .LN_STATUS_ACTBANK r
  let er := errorRaw s r
  let e := clampTo (-2048) 2047 er
  let s := laneFlagIf s (e != er) r lnESAT
  let g := s.nat .LN_GEXP r b
  let e1 := s.get .lnE1 r
  let w1 := s.get .lnW1 r
  let pn0 := shl (s.get .LN_B0 r b * e + s.get .LN_B1 r b * e1 + s.get .LN_B2 r b * s.get .lnE2 r) g
  let pd0 := shr (2 * s.get .LN_A1 r b * w1 + s.get .LN_A2 r b * s.get .lnW2 r) 2
  let pn := satS 40 pn0
  let pd := satS 40 pd0
  let acc := satS 40 (pn - pd)
  let w0 := shr (acc + 2 ^ 14) 15
  let w := satS 24 w0
  let inc := shl (s.get .LN_KI r b * e) g
  let integ := s.get .lnInteg r
  let sum := satS 40 (integ + inc)
  let itry := clampTo (shl (s.get .LN_IMIN r b) 17) (shl (s.get .LN_IMAX r b) 17) sum
  let ffc := laneFfc s r
  let hi := cmdHi s r
  let lo := cmdLo s r
  let first := cmdPre acc itry ffc
  let freeze := (first.1 > hi && inc > 0) || (first.1 < lo && inc < 0) || s.bit .forced r
  let inew := if freeze then integ else itry
  let used := cmdPre acc inew ffc
  let cmd := clampTo lo hi used.1
  let s := laneFlagIf s (pn != pn0 || pd != pd0 || acc != pn - pd || w != w0 || first.2 || used.2) r lnACCSAT
  let s := laneFlagIf s (itry != sum) r lnINTCLP
  let s := laneFlagIf s freeze r lnFREEZE
  let s := s.put .frzNow (bit01 freeze) r
  let s := laneFlagIf s (used.1 > hi) r lnCMDHI
  let s := laneFlagIf s (used.1 < lo) r lnCMDLO
  let s := s.put .cmdHiNow (bit01 (used.1 > hi)) r
  let s := s.when (used.1 > hi && 16 * s.get .DM_RAILLIM_ILIM r ≤ 2 ^ 21 - 1) (·.raise .DM_RAILSTAT_LIMSAT r)
  let s := (s.put .lnE2 e1 r).put .lnE1 e r
  let s := (s.put .lnW2 w1 r).put .lnW1 w r
  let s := (s.put .lnInteg inew r).put .LN_INTEG (shr (inew + 2 ^ 16) 17) r
  let s := (s.put .LN_ERR e r).put .LN_FFC ffc r
  s.put .LN_CMD cmd r

/-- The phase command of slot `j` before its clamp (R80). -/
def splitRaw (s : State) (r j : Nat) (base : Int) : Int := base + s.get .LN_BALOFS r j + s.get .LN_BAL r j

/-- Divide the limited command over the active phases (R80, R81). With none active, NACT reads 0 and no slot reads as active in
the last split (DESIGN CHOICE, log entry 109). -/
def commandSplit (s : State) (r : Nat) : State :=
  let act := activeSlots s r
  let n := act.length
  let b0 := shr (s.get .LN_CMD r * recip n + 2 ^ 16) 17
  let base := clampTo (-32768) 32767 b0
  let s := s.put .LN_STATUS_NACT n r
  let s := laneFlagIf s (n == 0) r lnNOPH
  let s := laneFlagIf s (n != 0 && base != b0) r lnPHSAT
  s.each (railSlots s r) fun s j =>
    if act.contains j then
      let raw := splitRaw s r j base
      let c := clampTo (-32768) 32767 raw
      let s := laneFlagIf s (c != raw) r lnPHSAT
      (s.put .LN_PCMD c r j).raise .LN_MAP_ACT r j
    else (s.put .LN_PCMD 0 r j).clear .LN_MAP_ACT r j

/-- Update the balance accumulators of the active phases (R82). -/
def balanceUpdate (s : State) (r : Nat) : State :=
  let kbal := s.get .LN_BALCFG_KBAL r
  if oldState s r != stREG || kbal == 0 then s
  else
    let act := activeSlots s r
    let mean := fun j => s.get .FL_PHMEAN (slotPhase s r j)
    let avg := clampTo (-32768) 32767 (shr (sumI (act.map mean) * recip act.length + 2 ^ 16) 17)
    let lim := shl (s.get .LN_BALCFG_BALLIM r) 12
    s.each act fun t j =>
      if t.now < t.get .lnBalFrom r j then t
      else
        let raw := t.get .lnBalAcc r j + (avg - mean j) * kbal
        let v := clampTo (-lim) lim raw
        let t := laneFlagIf t (v != raw) r lnBALSAT
        (t.put .lnBalAcc v r j).put .LN_BAL (shr (v + 128) 8) r j

/-- A lane whose rail is stopped holds its states at 0 (R74). -/
def laneStop (s : State) (r : Nat) : State :=
  let s := (((s.clear .lnE1 r).clear .lnE2 r).clear .lnW1 r).clear .lnW2 r
  let s := ((s.clear .lnInteg r).clear .LN_INTEG r).clear .LN_CMD r
  let s := ((s.clear .LN_FFC r).clear .cmdHiNow r).clear .LN_STATUS_RUN r
  s.each (railSlots s r) fun s j => ((s.clear .lnBalAcc r j).clear .LN_BAL r j).clear .LN_PCMD r j

/-- The rail has run in the tick that a boundary is about to end (R23). -/
def railRan (s : State) (r : Nat) : Bool := oldState s r == stRAMPUP || oldState s r == stREG || oldState s r == stRAMPDN

/-- The lane's work of one tick (R66). -/
def laneTick (s : State) (r : Nat) : State := s.when (railRan s r) fun s => balanceUpdate (commandSplit (compensate s r) r) r

/-- The lane takes the rail's state at a boundary: it runs, or holds its states at 0 (R74). -/
def laneGate (s : State) (r : Nat) : State :=
  if railState s r == stUNUSED then s else if railRuns s r then s.raise .LN_STATUS_RUN r else laneStop s r

/-- The reference moves towards its target at a boundary (R74, R75). -/
def refNext (s : State) (r : Nat) : Int :=
  let ref := s.get .LN_REF r
  let st := railState s r
  if st == stRAMPUP || st == stREG then
    let target := 1024 * s.get .LN_VSET r
    let up := if st == stRAMPUP then s.get .LN_SSLOPE r else s.get .LN_SLEWUP r
    if ref < target then min (ref + up) target
    else if ref > target then max (ref - s.get .LN_SLEWDN r) target else ref
  else if st == stRAMPDN then
    let target := 1024 * s.get .LN_STOPLVL r
    if ref > target then max (ref - s.get .LN_SDSLOPE r) target else target
  else 0

/-- Move the reference of rail `r`; the window taken in the tick that begins keeps the reference before (R44). -/
def refMove (s : State) (r : Nat) : State :=
  if railState s r == stUNUSED then s
  else (s.put .wref (refCode s r) r).put .LN_REF (refNext s r) r

/-- A setpoint commitment ends when REF reaches it, a lower VSET is stored or the rail leaves RAMP_UP and REGULATING
(R77). -/
def commitEnds (s : State) (c : Commitment) : Bool :=
  match c.source with
  | .slot _ _ => false
  | .setpoint v =>
    decide (s.get .LN_REF c.rail ≥ 1024 * v) || decide (s.written ⟨.LN_VSET, c.rail, 0⟩ < v) ||
      (railState s c.rail != stREG && railState s c.rail != stRAMPUP)

/-- A stored value of LN_VSET below that of a commitment of the rail ends the commitment (R77). -/
def endCommits (s : State) (r : Nat) (v : Int) : State :=
  { s with commits := s.commits.filter fun c =>
      match c.source with
      | .slot _ _ => true
      | .setpoint w => c.rail ≠ r || decide (w ≤ v) }

/-- Drop the commitments that have ended. -/
def pruneCommits (s : State) : State := { s with commits := s.commits.filter fun c => !commitEnds s c }

/-- The outcome of a setpoint write. -/
inductive SetOutcome where
  | stored | bound | refused
  deriving DecidableEq, Repr

/-- The extra current that a setpoint increase plans (R77), in IQ. -/
def setpointDelta (s : State) (r : Nat) (v : Int) : Int :=
  let old := s.written ⟨.LN_VSET, r, 0⟩
  ceilDiv (max (s.get .DM_RAILCUR_ICUR r) 0 * (v - old)) (16 * old)

/-- How a write of LN_VSET is judged in the tick in which it is accepted (R77). -/
def setpointJudge (s : State) (r : Nat) (v : Int) : SetOutcome :=
  if v < 1600 || v > 15200 || !s.inBound ⟨.LN_VSET, r, 0⟩ v then .bound
  else if v > s.written ⟨.LN_VSET, r, 0⟩ && !admissible s r (setpointDelta s r v) then .refused
  else .stored

/-- SETPOINT_WRITE (R77): stored for the next boundary, or refused with its lane flag. -/
def setpointWrite (s : State) (r : Nat) (v : Int) : State :=
  match setpointJudge s r v with
  | .bound => laneFlag s r lnBNDERR
  | .refused => laneFlag s r lnSETREF
  | .stored =>
    let s := endCommits s r v
    let s :=
      if v > s.written ⟨.LN_VSET, r, 0⟩ then
        { s with commits := s.commits ++ [⟨r, setpointDelta s r v, .setpoint v⟩] }
      else s
    s.later .LN_VSET v r

/-- The fields of a coefficient bank (R83). -/
def bankFields : List Fld :=
  [.LN_B0, .LN_B1, .LN_B2, .LN_A1, .LN_A2, .LN_KI, .LN_GEXP, .LN_AVPK, .LN_IMAX, .LN_IMIN]

/-- The bank passes the validation of R84. -/
def bankValid (s : State) (r b : Nat) : Bool :=
  s.get .LN_A2 r b != -131072 && decide (absI (2 * s.get .LN_A1 r b) < 131072 + s.get .LN_A2 r b) &&
    decide (s.get .LN_IMIN r b ≤ s.get .LN_IMAX r b)

/-- A write of a bank field (R83): to the active bank it is not stored and sets BANKERR; outside its bound it is not
stored and sets BNDERR; else it is stored at once. -/
def bankWrite (s : State) (f : Fld) (r b : Nat) (v : Int) : State :=
  if s.nat .LN_STATUS_ACTBANK r = b then laneFlag s r lnBANKERR
  else if (f == .LN_GEXP && v > 10) || !s.inBound ⟨f, r, b⟩ v then laneFlag s r lnBNDERR
  else s.put f v r b

/-- COMMIT (R84): validation and exchange at the next boundary. -/
def commitBank (s : State) (r : Nat) : State := s.raise .LN_STATUS_COMMITPEND r

/-- COPY (R85): the active bank is copied at the next boundary. -/
def copyBank (s : State) (r : Nat) : State := s.raise .copyReq r

/-- What COMMIT and COPY do at the boundary (R84, R85); after the exchange of a retune the Ditch Rider clears ACCSAT and INTCLP (R427).
BANKERR of the two written together is set there too (DESIGN CHOICE, log
entry 110). -/
def bankBoundary (s : State) (r : Nat) : State :=
  let act := s.nat .LN_STATUS_ACTBANK r
  let other := 1 - act
  if s.bit .LN_STATUS_COMMITPEND r then
    let s := laneFlagIf s (s.bit .copyReq r) r lnBANKERR
    let s := (s.clear .LN_STATUS_COMMITPEND r).clear .copyReq r
    if bankValid s r other then
      let s := s.put .LN_STATUS_ACTBANK other r
      if s.bit .idClr r then (s.clrBits .LN_FLAG (2 ^ lnACCSAT + 2 ^ lnINTCLP) r).clear .idClr r else s
    else laneFlag s r lnCOMMITERR
  else if s.bit .copyReq r then
    (s.each bankFields fun t f => t.put f (s.get f r act) r other).clear .copyReq r
  else s

def execSetpointWrite (r : Rail) (v : BitVec 14) (s : State) : Out := .next (setpointWrite s r v.toNat)
def execCommit (r : Rail) (s : State) : Out := .next (commitBank s r)
def execCopy (r : Rail) (s : State) : Out := .next (copyBank s r)

end Sys2Proof.Machine
end

