-- ==== Sys2Proof/Machine/Sluice.lean ====
section
/-! DEFINITION. Sluice modulators and phase outputs (04_sluice_modulators.md): timebases and interleave, SYNCIN,
modulation, timing limits, output precedence, pulse insertion, phase add and drop, readback and spare generators.
Instants are counted in edge steps since TICK 0, 320 to a tick (R90). -/
namespace Sys2Proof.Machine

/-- The first edge step of the present tick. -/
def tickStep (s : State) : Int := 320 * s.now

/-- An instant lies before the end of the present tick. -/
def reached (s : State) (t : Int) : Bool := decide (t < tickStep s + 320)

/-- The rail of a phase, if it is a member. -/
def railOf (s : State) (p : Nat) : Option Nat := (memberOf s p).map (·.1)

/-- A Sluice flag of a phase becomes set: its rail's publisher publishes (R117, R478). -/
def phaseFlag (s : State) (f : Fld) (p : Nat) : State :=
  if s.bit f p then s
  else match railOf s p with
    | some r => hwPublish (s.raise f p) (112 + r)
    | none => s.raise f p

/-- A Sluice flag of a rail becomes set (R117, R478). -/
def sluiceFlag (s : State) (f : Fld) (r : Nat) : State := flagPub s f r (112 + r)

/-- The fixed level of row 1 of R109, from the first source of its list that applies (0 low, 2 mid-level). -/
def fixedLevel (s : State) (p : Nat) : Option Int :=
  if !s.bit .fabricOn then some 2
  else if s.bit .WP_CSTAT_ISOL (p / 8) && s.bit .isolated p || s.bit .PH_PSTAT_RET p || s.bit .SL_PSTAT_EGFAIL p
      || s.bit .egWait p || s.bit .tfMid p then some 2
  else if s.get .SL_PTEST_FORCE p == 1 then some 0
  else if s.get .SL_PTEST_FORCE p == 2 then some 2
  else match memberOf s p with
  | none => some 2
  | some (r, j) =>
    let st := oldState s r
    if s.bit .ovOff r && (st == stFAULT || st == stOFF || st == stRESTR) then
      some (if s.bit .WP_RCFG_OVDRV r then 2 else 0)
    else if st == stFAULT then some (if s.bit .faultLevel r then 0 else 2)
    else if st == stOFF then some (if s.bit .DM_RAILCFG_OFFDRV r then 0 else 2)
    else if st == stUNUSED || st == stRESTR then some 2
    else if s.bitOf .SL_RACT j r then none
    else if s.get .dropState p == 1 && s.bit .modHigh p then none
    else if s.get .dropState p == 2 then some 0
    else some 2

/-- The level of rows 1 to 3 of R109. -/
def forcedLevel (s : State) (p : Nat) : Option Int :=
  match fixedLevel s p with
  | some l => some l
  | none =>
    match railOf s p with
    | none => some 2
    | some r =>
      if s.get .allOff r == 1 then some 0
      else if s.get .allOff r == 2 then some 2
      else if s.bit .inBurst p then some 1
      else none

/-- The output level of a phase by the precedence of R109 (0 low, 1 high, 2 mid-level). -/
def outputLevel (s : State) (p : Nat) : Int :=
  match forcedLevel s p with
  | some l => l
  | none => if s.bit .insOn p || s.bit .modHigh p then 1 else if s.bit .midZc p then 2 else 0

/-- The pulse of a phase that was dropped while high has ended (R112): its low hold begins, or with DROPDRV it needs none. -/
def dropPulseEnd (s : State) (p : Nat) : State :=
  if s.get .dropState p == 1 then
    match railOf s p with
    | some r => if s.bit .SL_RMODE_DROPDRV r then s.clear .dropState p else (s.put .dropState 2 p).put .dropFrom s.now p
    | none => s.clear .dropState p
  else s

/-- Bring the output of a phase to what R109 gives at instant `t`: a forced level ends the modulator's pulse and its
schedule, its release starts the minimum off-time, and a level change asks for a readback check (R109, R114). -/
def refreshPhase (s : State) (p : Nat) (t : Int) : State :=
  let forced := (forcedLevel s p).isSome
  let s :=
    if forced then
      let s := s.when (s.bit .modHigh p) (dropPulseEnd · p)
      let s := (((s.clear .modHigh p).clear .onSched p).clear .offSched p).clear .insOn p
      ((s.clear .insStart p).clear .insEnd p).raise .blocked p
    else if s.bit .blocked p then (((s.clear .blocked p).put .offAt t p).put .relAt t p).put .offKnown t p
    else s
  let l := outputLevel s p
  if s.get .SL_PSTAT_LEVEL p == l then s
  else
    let s := s.when (l == 1) fun s => (s.raise .pwmHigh p).put .highAt t p
    let s := s.when (s.get .SL_PSTAT_LEVEL p == 1) fun s => s.put .SL_PTON (max 0 (t - s.get .highAt p)) p
    (s.put .SL_PSTAT_LEVEL l p).raise .rbArmed p

/-- Bring the outputs of all phases of a rail up to date. -/
def refreshRail (s : State) (r : Nat) (t : Int) : State :=
  s.each (railSlots s r) fun s j => refreshPhase s (slotPhase s r j) t

/-- The end of the maximum duty of the phase's carrier cycle (R103). -/
def maxEnd (s : State) (r p : Nat) : Int := s.get .cycStart p + s.get .SL_RPER r - s.get .SL_RDMAXT r

/-- Schedule the off-edge of the present pulse at `t`, a position known at instant `known` (R91), within the minimum on-time and the
maximum duty (R103). -/
def scheduleOff (s : State) (r p : Nat) (t known : Int) : State :=
  let lo := s.get .onAt p + s.get .SL_RTONMIN r
  let hi := maxEnd s r p
  let t := max t (known + 160)
  let t1 := max t lo
  let t2 := min t1 hi
  let cause : Int := if t2 < t1 then 2 else if t < t1 then 1 else 0
  (s.put .offSched (t2 + 1) p).put .offCause cause p

/-- The duty-mode on-time of R102. -/
def dutyTon (s : State) (r p : Nat) : Int :=
  clampTo 0 (s.get .SL_RPER r - s.get .SL_RDMAXT r) (shr (max (s.get .sluiceCmd p) 0 * s.get .SL_RDUTYK r + 2 ^ 9) 10)

/-- Where the off-edge of a pulse that begins at `onAt` is scheduled when nothing ends it earlier (R98, R103). -/
def naturalOff (s : State) (r p : Nat) : Int :=
  let mode := s.get .SL_RMODE_MODE r
  if mode == 2 then s.get .cycStart p + dutyTon s r p
  else if mode == 1 then s.get .onAt p + s.get .SL_RTON r
  else maxEnd s r p + 1

/-- A phase weir's pulse termination (R109 row 4, R166, R171 code 4): the present high pulse ends, TERM is set, and the
first termination of a carrier cycle counts. -/
def terminatePulse (s : State) (p : Nat) (t : Int) : State :=
  let s := s.when (s.bit .modHigh p) (dropPulseEnd · p)
  let s := (((s.clear .modHigh p).clear .offSched p).clear .insOn p).clear .insEnd p
  let s := ((s.put .offAt t p).put .offKnown t p).raise .WR_FLAG_TERM p
  let s := if s.bit .termCyc p then s else (s.raise .termCyc p).bump .ocCnt 255 p
  refreshPhase s p t

/-- EG8 begins to serve a phase that has waited for it at mid-level (R115). -/
def serveSpare (s : State) (p : Nat) : State :=
  s.when (s.bit .egWait p) fun s => (s.clear .egWait p).raise .SL_PSTAT_EGSP p

/-- The on-edge of the modulator at instant `t` (R98, R103): refused when the pulse would break the maximum duty. The off-edge of a
valley on-edge is known from that edge on, the others from the start of the carrier cycle (R91). -/
def onEdge (s : State) (r p : Nat) (t : Int) : State :=
  let s := serveSpare (s.clear .onSched p) p
  if t + s.get .SL_RTONMIN r > maxEnd s r p then phaseFlag s .SL_PFLAG_PSKIP p
  else
    let s := ((s.raise .modHigh p).put .onAt t p).clear .midZc p
    let s := s.put .SL_PCYC ((s.get .SL_PCYC p + 1) % 2 ^ 32) p
    let s := scheduleOff s r p (naturalOff s r p) (if s.get .SL_RMODE_MODE r == 1 then t else t - 160)
    let s := refreshPhase s p t
    if s.get .WR_STAT_OUT p == 2 then terminatePulse s p t else s

/-- A pulse that ends while the phase weir is BELOW ends in mid-level (R166). -/
def lowEnd (s : State) (p : Nat) : State :=
  s.when (s.get .WR_STAT_OUT p == 1) fun s => (s.raise .midZc p).raise .WR_FLAG_NEGOC p

/-- The off-edge of the modulator at instant `t`, known at instant `known`. -/
def offEdge (s : State) (p : Nat) (t known : Int) : State :=
  let s := (((s.clear .modHigh p).clear .offSched p).put .offAt t p).put .offKnown known p
  refreshPhase (dropPulseEnd (lowEnd s p) p) p t

/-- A carrier on-edge asked for at instant `t`: not before the horizon of the recomputation that gave the phase its offset, or of
its last release (R91), and delayed by the minimum off-time where that has not elapsed (R103). -/
def askOn (s : State) (r p : Nat) (t : Int) : State :=
  let hor := max t (max (s.get .ofsFrom p + 160) (s.get .relAt p + 160))
  let free := s.get .offAt p + s.get .SL_RTOFFMIN r
  if hor < free then
    let at_ := max free (s.get .offKnown p + 160)
    let s := phaseFlag s .SL_PFLAG_TOFFMINHIT p
    if at_ + s.get .SL_RTONMIN r > maxEnd s r p then phaseFlag s .SL_PFLAG_PSKIP p
    else s.put .onSched (at_ + 1) p
  else if t < hor then s.put .onSched (hor + 1) p
  else onEdge s r p t

/-- Position of a slot among the active slots in ascending order (R94). -/
def positionOf (s : State) (r j : Nat) : Nat := ((activeSlots s r).filter (· < j)).length

/-- The carrier offset of position `m` of `n` (R94). -/
def carrierOffset (per : Int) (m n : Nat) : Int := shr (m * per * recip n + 2 ^ 16) 17

/-- Recompute positions and offsets of the active phases at instant `at_` (R94); an offset that changes is known from then on. -/
def recomputeOffsets (s : State) (r : Nat) (at_ : Int) : State :=
  let n := (activeSlots s r).length
  s.each (activeSlots s r) fun t j =>
    let p := slotPhase s r j
    let m := positionOf s r j
    let v := carrierOffset (s.get .SL_RPER r) m n
    let t := t.when (s.get .SL_POFS p != v) (·.put .ofsFrom at_ p)
    (t.put .SL_PSTAT_POS m p).put .SL_POFS v p

/-- The instant at which the timebase next returns to 0 (R93, R96). -/
def wrapAt (s : State) (r : Nat) : Int := s.get .tbWrap r + s.get .SL_RPER r + s.get .tbAdj r

/-- TB at an instant (R93). -/
def timebase (s : State) (r : Nat) (t : Int) : Int :=
  if s.get .SL_RPER r ≤ 0 then 0 else (t - s.get .tbWrap r) % s.get .SL_RPER r

/-- The target period of a tracking rail (R96). -/
def syncTarget (s : State) (r : Nat) : Int :=
  let m := s.get .SL_RSYNC_SYNCM r + 1
  let d := s.get .SL_RSYNC_SYNCD r + 1
  (s.get .SL_SYNCPER * d + m / 2) / m

/-- The phase error of a wrap at instant `t` against the rail's aligning edge, within half a period (R96). -/
def syncError (s : State) (r : Nat) (t per : Int) : Int :=
  let e := (t - (s.get .syncRef r + s.get .SL_RSYNCOFS r)) % per
  if 2 * e > per then e - per else e

/-- SYNCIN tracking at a wrap (R96, R97). LOCK and its count stay as they are while SYNCEN is clear (DESIGN CHOICE, log entry 111); a
rail that SYNCRANGE has stopped tracks again after 16 measured periods. -/
def syncWrap (s : State) (r : Nat) (t : Int) : State :=
  if !s.bit .SL_RMODE_SYNCEN r then s.put .SL_RPER (s.get .perNext r) r
  else if !s.bit .syncTrack then s.clear .SL_RSTAT_LOCK r
  else
    let pert := syncTarget s r
    if pert < 4267 || 204800 < pert then
      (((sluiceFlag s .SL_RFLAG_SYNCRANGE r).clear .SL_RSTAT_LOCK r).clear .lockCnt r).put .syncHold 1 r
    else if s.bit .syncHold r then s.clear .SL_RSTAT_LOCK r
    else
      let slew := s.get .SL_RSLOPE_PSLEW r
      let per0 := s.get .SL_RPER r
      let per := per0 + clampTo (-slew) slew (pert - per0)
      let align := s.get .SL_RSYNC_SYNCM r == 0
      let err := if align then syncError s r t per else 0
      let ok := decide (absI (per - pert) ≤ 2) && decide (absI err ≤ 64)
      let s := (s.put .SL_RPER per r).put .tbAdj (clampTo (-slew) slew (-err)) r
      if ok then
        let s := s.bump .lockCnt 16 r
        s.when (s.get .lockCnt r ≥ 16) (·.raise .SL_RSTAT_LOCK r)
      else (s.clear .lockCnt r).clear .SL_RSTAT_LOCK r

/-- TIMEBASE_WRAP (R93 to R97, R478): TB returns to 0; a new period and the SYNCIN correction are taken, and the wrap
is published. -/
def timebaseWrap (s : State) (r : Nat) : State :=
  let t := wrapAt s r
  if !s.bit .fabricOn || s.get .SL_RPER r ≤ 0 || !reached s t || s.bit .sleepMode then s
  else
    let per0 := s.get .SL_RPER r
    let s := syncWrap ((s.put .tbWrap t r).clear .tbAdj r) r t
    let s := s.when (s.get .SL_RPER r != per0) fun s => recomputeOffsets s r t
    hwPublish s (128 + r)

/-- CARRIER_START (R94, R95, R98, R103, R113, R115): TB reaches the phase's offset, not before the recomputation that gave it, at
least half a period after the old start; in the peak and duty modes, and in valley mode after a zero crossing, the on-edge is asked for. -/
def carrierStart (s : State) (p : Nat) : State :=
  match memberOf s p with
  | none => s
  | some (r, j) =>
    let per := s.get .SL_RPER r
    let t := s.get .tbWrap r + s.get .SL_POFS p
    if !s.bit .fabricOn || !s.bitOf .SL_RACT j r || !reached s t || t < s.get .addFrom p || t < s.get .ofsFrom p || s.bit .sleepMode
        || (s.bit .cycAny p && 2 * (t - s.get .cycStart p) < per) then s
    else
      let mode := s.get .SL_RMODE_MODE r
      let s := ((s.put .cycStart t p).raise .cycAny p).clear .cmpUsed p
      let s := if s.bit .egWait p && (mode != 1 || s.bit .midZc p) then refreshPhase (serveSpare s p) p t else s
      let s := if s.bit .termCyc p then s.clear .termCyc p else s.clear .ocCnt p
      if s.bit .blocked p || s.bit .modHigh p then s
      else if mode == 2 && dutyTon s r p == 0 then s
      else if mode == 1 && !s.bit .midZc p then s
      else askOn s r p t

/-- An inserted pulse begins at instant `t` (R108): where the phase is low and its minimum off-time has not elapsed it waits until
then; where the phase weir is ABOVE it is terminated at once (R109 row 4). -/
def startInsertion (s : State) (r p : Nat) (t : Int) : State :=
  let free := s.get .offAt p + s.get .SL_RTOFFMIN r
  if !s.bit .modHigh p && decide (t < free) then
    let s := phaseFlag s .SL_PFLAG_PIDEFER p
    (s.put .insStart (free + 1) p).put .insEnd (free + s.get .SL_PPIW p + 1) p
  else
    let s := refreshPhase (((s.clear .insStart p).raise .insOn p).clear .midZc p) p t
    if s.get .WR_STAT_OUT p == 2 then terminatePulse s p t else s

/-- SCHEDULED_EDGE (R91): the phase's earliest scheduled edge that has been reached fires at its position. -/
def scheduledEdge (s : State) (p : Nat) : State :=
  match railOf s p with
  | none => s
  | some r =>
    let due := fun (f : Fld) => s.bit f p && reached s (s.get f p - 1)
    let at_ := fun (f : Fld) => s.get f p - 1
    if due .offSched && s.bit .modHigh p then
      let s := if s.get .offCause p == 1 then phaseFlag s .SL_PFLAG_TONMINHIT p
               else if s.get .offCause p == 2 then phaseFlag s .SL_PFLAG_DMAXHIT p else s
      offEdge s p (at_ .offSched) (at_ .offSched - 160)
    else if due .insEnd && s.bit .insOn p then
      let t := at_ .insEnd
      let s := (s.clear .insOn p).clear .insEnd p
      refreshPhase (if s.bit .modHigh p then s else lowEnd ((s.put .offAt t p).put .offKnown (t - 160) p) p) p t
    else if due .insStart then startInsertion s r p (at_ .insStart)
    else if due .onSched then onEdge s r p (at_ .onSched)
    else s

/-- The compared value of R99 from a sample at step `at_` of the tick and the sample before it; the first sample after a held window
has none before it. -/
def comparedValue (s : State) (r p : Nat) (raw prev : Int) (at_ : Nat) : Int :=
  let tr := fun x => trim (4 * x) (s.get .FL_PHOFS p) (s.get .FL_PHGAIN p)
  let s0 := tr raw
  let s1 := if s.bit .FL_PHFLAG_HOLD p && decide (at_ < 32) then s0 else tr prev
  satS 16 (s0 + shr ((s0 - s1) * s.get .SL_RMODE_CPRED r) 2)

/-- Samples since an edge at instant `e`, for a sample compared at instant `t` (32 steps to a sample, R39, R99). -/
def samplesSince (t e : Int) : Int := max 0 (t - e) / 32

/-- The peak threshold of R99. -/
def peakThreshold (s : State) (r p : Nat) (t : Int) : Int :=
  satS 16 (s.get .sluiceCmd p - shr (s.get .SL_RSLOPE_SLOPEC r * samplesSince t (s.get .onAt p)) 4)

/-- The valley threshold of R99. -/
def valleyThreshold (s : State) (r p : Nat) (t : Int) : Int :=
  satS 16 (s.get .sluiceCmd p + shr (s.get .SL_RSLOPE_SLOPEC r * samplesSince t (s.get .offAt p)) 4)

/-- PEAK_COMPARE (R99, R100, R104): a sample is compared while the pulse is high. After the minimum on-time a value at the threshold
makes the edge on the compare path; before it the off-edge is scheduled at the end of the minimum on-time, and a later sample below
the threshold takes it back. -/
def peakCompare (s : State) (p : Nat) (raw prev : Int) (at_ : Nat) : State :=
  match railOf s p with
  | none => s
  | some r =>
    let t := tickStep s + at_
    let hit := decide (comparedValue s r p raw prev at_ ≥ peakThreshold s r p t)
    if s.get .SL_RMODE_MODE r != 0 || !s.bit .modHigh p || s.bit .phHold p then s
    else if t < s.get .onAt p + s.get .SL_RTONMIN r then
      if hit then scheduleOff (s.raise .cmpUsed p) r p t t
      else s.when (s.bit .cmpUsed p) fun s => scheduleOff (s.clear .cmpUsed p) r p (naturalOff s r p) (t - 160)
    else if hit && !s.bit .cmpUsed p then offEdge (s.raise .cmpUsed p) p t t
    else s

/-- The valley gate of R101 is open: TB has reached the offset minus VLEAD since the last on-edge; VLEAD of a whole
period leaves the minimum off-time alone. -/
def valleyGate (s : State) (r p : Nat) (t : Int) : Bool :=
  let per := s.get .SL_RPER r
  let lead := min per (s.get .SL_RVLEAD r)
  if lead == per then true
  else
    let back := (t - s.get .tbWrap r - s.get .SL_POFS p + lead) % per
    decide (t - back ≥ s.get .onAt p)

/-- VALLEY_COMPARE (R99, R101, R104): the compared value falls to the threshold in an off interval; a phase that waits for EG8 alone
takes this on-edge from EG8 (R115). -/
def valleyCompare (s : State) (p : Nat) (raw prev : Int) (at_ : Nat) : State :=
  match memberOf s p with
  | none => s
  | some (r, j) =>
    let t := tickStep s + at_
    let waits := s.bit .egWait p && (forcedLevel (s.clear .egWait p) p).isNone
    if s.get .SL_RMODE_MODE r != 1 || s.bit .modHigh p || (s.bit .blocked p && !waits) || s.bit .midZc p || s.bit .phHold p
        || !s.bitOf .SL_RACT j r || s.bit .onSched p
        || t < s.get .offAt p + s.get .SL_RTOFFMIN r || !valleyGate s r p t
        || comparedValue s r p raw prev at_ > valleyThreshold s r p t then s
    else onEdge (s.when waits (·.clear .blocked p)) r p t

/-- ZERO_CROSSING (R106, R112): the compared value falls to ZCDTH in an off interval of a rail with DCMEN. -/
def zeroCrossing (s : State) (p : Nat) (raw prev : Int) (at_ : Nat) : State :=
  match railOf s p with
  | none => s
  | some r =>
    if !s.bit .SL_RMODE_DCMEN r || s.bit .modHigh p || s.bit .blocked p || s.bit .phHold p || s.bit .insOn p
        || comparedValue s r p raw prev at_ > s.get .SL_PZCD p then s
    else refreshPhase (s.raise .midZc p) p (tickStep s + at_)

/-- SYNCIN_EDGE (R96, R97): a rising edge at step `at_` of the tick, of a pulse of `width` steps. The first tracking, with no loss
before, begins with the first measured period (DESIGN CHOICE, log entry 112). -/
def syncinEdge (s : State) (at_ width : Nat) : State :=
  let t := tickStep s + at_
  if width < 512 then s
  else if !s.bit .syncAny then (s.put .syncLast t).raise .syncAny
  else
    let per := t - s.get .syncLast
    let s := s.put .syncLast t
    if per < 2134 || 204800 < per then
      (s.clear .syncGood).each (List.range 16) fun s r => s.when (s.bit .syncHold r) (·.put .syncHold 1 r)
    else
      let s := (s.put .SL_SYNCPER per).raise .SL_STATUS_SYNCACT
      let lo := if s.bit .syncGood then min per (s.get .syncLo) else per
      let hi := if s.bit .syncGood then max per (s.get .syncHi) else per
      let s :=
        if 100 * (hi - lo) ≤ lo then ((s.bump .syncGood 16).put .syncLo lo).put .syncHi hi
        else ((s.put .syncGood 1).put .syncLo per).put .syncHi per
      let s := s.when (s.get .syncGood ≥ 16 || !s.bit .syncLost) fun s => (s.raise .syncTrack).clear .syncLost
      s.each (List.range 16) fun s r =>
        let s := s.when (s.bit .syncHold r) fun s =>
          let n := min (s.get .syncHold r) (s.get .syncGood)
          s.put .syncHold (if n ≥ 16 then 0 else n + 1) r
        let s := s.bump .syncEdges 16 r
        if s.get .syncEdges r ≥ s.get .SL_RSYNC_SYNCD r + 1 then (s.clear .syncEdges r).put .syncRef t r else s

/-- SYNC_LOSS (R97): no edge has come for four periods. -/
def syncLoss (s : State) : State :=
  if !s.bit .SL_STATUS_SYNCACT || tickStep s + 320 < s.get .syncLast + 4 * s.get .SL_SYNCPER then s
  else
    let s := ((s.clear .SL_STATUS_SYNCACT).clear .syncTrack).clear .syncGood
    let s := (s.raise .syncLost).clear .syncAny
    s.each (List.range 16) fun s r =>
      let s := (s.clear .SL_RSTAT_LOCK r).clear .lockCnt r
      if s.bit .SL_RMODE_SYNCEN r then sluiceFlag s .SL_RFLAG_SYNCLOSS r else s

/-- The valley on-time of a tick (R101). -/
def valleyTon (s : State) (r : Nat) : State :=
  if s.get .SL_RMODE_MODE r != 1 then s
  else
    let v0 := vinValue s
    let low := decide (v0 < 100)
    let vin := if low then s.get .vinDefault else v0
    let s := if low then sluiceFlag s .SL_RFLAG_VINLOW r else s
    let per := s.get .SL_RPER r
    let ton := (per * s.get .wref r * 2 + 80 * vin) / (160 * vin) + s.get .SL_RTONADJ r
    s.put .SL_RTON (clampTo (s.get .SL_RTONMIN r) (per - s.get .SL_RDMAXT r) ton) r

/-- A new command or on-time moves an off-edge that has not been issued: one before the horizon of the boundary has been issued and
keeps its place; a new position before the horizon goes to the horizon (R91, R104). -/
def moveOff (s : State) (r p : Nat) : State :=
  if s.get .SL_RMODE_MODE r == 0 || !s.bit .modHigh p || !s.bit .offSched p || s.get .offSched p - 1 < tickStep s + 160 then s
  else scheduleOff s r p (naturalOff s r p) (tickStep s)

/-- Deliver the phase commands of the last tick to the modulators (R32, R104); a dropped phase that is still high keeps the last
command that it received (R112). -/
def deliverCommands (s : State) (r : Nat) : State :=
  s.each (railSlots s r) fun t j =>
    let p := slotPhase s r j
    if s.get .dropState p == 1 then t else t.put .sluiceCmd (s.get .LN_PCMD r j) p

/-- A slot enters the active set at this boundary (R82, R113, R183). -/
def enterActive (s : State) (r j : Nat) : State :=
  let p := slotPhase s r j
  let s := s.setBits .SL_RACT (2 ^ j) r
  let s := (((s.raise .SL_PSTAT_ACT p).clear .dropState p).put .addFrom (tickStep s + 160) p).clear .cycAny p
  let s := ((s.clear .lnBalAcc r j).clear .LN_BAL r j).put .lnBalFrom (s.now + 64) r j
  s.when (railRuns s r) fun s => s.bump .PH_STARTS 0xFFFFFFFF p

/-- A slot leaves the active set at this boundary (R82, R112); its code 4 count restarts (R177). -/
def leaveActive (s : State) (r j : Nat) : State :=
  let p := slotPhase s r j
  let s := s.clrBits .SL_RACT (2 ^ j) r
  let s := ((s.clear .SL_PSTAT_ACT p).clear .SL_PSTAT_POS p).clear .onSched p
  let s := (s.clear .ocCnt p).clear .termCyc p
  let s := (s.clear .lnBalAcc r j).clear .LN_BAL r j
  if s.bit .modHigh p then s.put .dropState 1 p
  else if s.bit .SL_RMODE_DROPDRV r then s.clear .dropState p
  else (s.put .dropState 2 p).put .dropFrom s.now p

/-- Report the size of the active set and recompute the carriers after it has changed (R94, R110). -/
def activeChanged (s : State) (r : Nat) : State :=
  recomputeOffsets (s.put .SL_RSTAT_NACT (activeSlots s r).length r) r (tickStep s)

/-- The adds and drops of the tick at a boundary (R110, R111). -/
def addDropBoundary (s : State) (r : Nat) : State :=
  let slots := railSlots s r
  let drops := slots.filter fun j => s.bitOf .dropReq j r && s.bitOf .SL_RACT j r
  let want := slots.filter fun j => s.bitOf .addReq j r && !s.bitOf .dropReq j r && !s.bitOf .SL_RACT j r
  let adds := want.filter fun j => !s.bit .PH_PSTAT_RET (slotPhase s r j)
  let refused := want.any fun j => s.bit .PH_PSTAT_RET (slotPhase s r j)
  let n := (activeSlots s r).length
  let low := decide ((n : Int) + adds.length - drops.length < nMin s r) && !drops.isEmpty
  let s := (s.clear .addReq r).clear .dropReq r
  let s := s.put .SL_RSTAT_NMIN (min 127 (nMin s r)) r
  let s := s.when refused fun s => sluiceFlag s .SL_RFLAG_ADDREF r
  let s := s.when low fun s => sluiceFlag s .SL_RFLAG_NMINREF r
  let s := s.each adds fun s j => enterActive s r j
  let s := if low then s else s.each drops fun s j => leaveActive s r j
  if adds.isEmpty && (low || drops.isEmpty) then s else activeChanged s r

/-- The pulse insertions of the tick at a boundary (R108). -/
def insertBoundary (s : State) (r : Nat) : State :=
  let all := s.bit .insAllReq r
  let s := s.clear .insAllReq r
  s.each (railSlots s r) fun s j =>
    let p := slotPhase s r j
    let act := s.bitOf .SL_RACT j r
    if !(s.bit .insReq p || (all && act)) then s
    else
      let s := s.clear .insReq p
      if !act || !railRuns s r || (forcedLevel s p).isSome then phaseFlag s .SL_PFLAG_PIDROP p
      else
        let hor := tickStep s + 160
        let free := s.get .offAt p + s.get .SL_RTOFFMIN r
        let wait := !s.bit .modHigh p && !s.bit .insOn p && hor < free
        let start := if wait then free else hor
        let s := s.when wait fun s => phaseFlag s .SL_PFLAG_PIDEFER p
        let e := start + s.get .SL_PPIW p
        let s := s.put .insEnd (max (s.get .insEnd p) (e + 1)) p
        if s.bit .insOn p then s else s.put .insStart (start + 1) p

/-- What the Sluice does at a boundary (R101, R104, R110), after the rail states are known. -/
def sluiceBoundary (s : State) (r : Nat) : State :=
  if railState s r == stUNUSED then s
  else
    let s := deliverCommands s r
    let s := addDropBoundary s r
    let s := valleyTon s r
    s.each (railSlots s r) fun s j => moveOff s r (slotPhase s r j)

/-- A phase of no rail at the boundary (R12, R108, R109): an insertion asked of it is discarded, and it takes its fixed level. -/
def looseStage (s : State) (p : Nat) : State :=
  if (s.bit .insReq p || s.bit .SL_PTEST_FORCE p || s.get .SL_PSTAT_LEVEL p != 2) && (memberOf s p).isNone then
    let s := s.when (s.bit .insReq p) fun s => phaseFlag (s.clear .insReq p) .SL_PFLAG_PIDROP p
    refreshPhase s p (tickStep s)
  else s

/-- The insertions of the tick, and the outputs of the rail brought up to date (R108, R109). -/
def insertStage (s : State) (r : Nat) : State :=
  if railState s r == stUNUSED then s else refreshRail (insertBoundary s r) r (tickStep s)

/-- The boundary at which the fabric is programmed (R93, R94, R400): the timebase starts at the first boundary after it, and
the active phases have their positions. -/
def programRail (s : State) (r : Nat) : State :=
  refreshRail (activeChanged (s.put .tbWrap (tickStep s + 320) r) r) r (tickStep s)

/-- DROP_HOLD_END (R112): the low hold of a dropped phase ends. -/
def dropHoldEnd (s : State) (p : Nat) : State :=
  match railOf s p with
  | none => s
  | some r =>
    if s.get .dropState p == 2 &&
        (s.get .FL_PHMEAN p ≤ s.get .SL_PZCD p || s.now ≥ s.get .dropFrom p + s.get .SL_RSYNC_DRPT r) then
      refreshPhase (s.clear .dropState p) p (tickStep s)
    else s

/-- EG8 of the cluster is healthy and free (R115). -/
def spareGenFree (s : State) (c : Nat) : Bool := !s.bit .SL_CEG_SPUSE c && !bitAt (s.get .SL_CEG_FAIL c) 8

/-- EG8 is taken for a phase: it waits at mid-level for its next carrier start, or its next on-edge in valley mode, from which EG8
serves it (R115). -/
def takeSpareGen (s : State) (p : Nat) (t : Int) : State :=
  let c := p / 8
  let s := (s.put .SL_CEG_SPFOR (p % 8) c).raise .SL_CEG_SPUSE c
  refreshPhase ((s.clear .rbCnt p).raise .egWait p) p t

/-- A phase is left without a generator (R116): mid-level, EGFAIL, retired. -/
def loseGenerator (s : State) (p : Nat) : State :=
  refreshPhase (requestRetire (s.raise .SL_PSTAT_EGFAIL p) p 5) p (tickStep s)

/-- READBACK_CHECK (R114, R115, R116): the pad is read after its settling time and compared with the commanded level. A check that
falls while the phase waits for EG8 is dropped (DESIGN CHOICE, log entry 113). -/
def readbackCheck (s : State) (p : Nat) (level : Int) : State :=
  if !s.bit .rbArmed p then s
  else if s.bit .egWait p then s.clear .rbArmed p
  else
    let c := p / 8
    let s := s.clear .rbArmed p
    if level == s.get .SL_PSTAT_LEVEL p then
      let s := s.clear .rbCnt p
      if s.bit .SL_PSTAT_EGSP p && s.bit .egTrial p then
        (s.clear .egTrial p).setBits .SL_CEG_FAIL (2 ^ (p % 8)) c
      else s
    else
      let s := s.bump .rbCnt 3 p
      if s.get .rbCnt p < 3 then s
      else
        let s := (phaseFlag s .SL_PFLAG_RBMIS p).clear .rbCnt p
        if s.bit .SL_PSTAT_EGSP p then
          let s := ((s.clear .SL_CEG_SPUSE c).clear .SL_CEG_SPFOR c).clear .egTrial p
          requestRetire ((s.clear .SL_PSTAT_EGSP p).raise .SL_PSTAT_PADFLT p) p 4
        else if spareGenFree s c then (takeSpareGen s p (tickStep s)).raise .egTrial p
        else loseGenerator (s.setBits .SL_CEG_FAIL (2 ^ (p % 8)) c) p

/-- The generator serving phase 8c + k is declared failed (R115, R116): EG8 where it serves the phase or the phase waits for it
(DESIGN CHOICE, log entry 114), else the phase's own. -/
def declareGenerator (s : State) (c k : Nat) : State :=
  let p := 8 * c + k
  if s.bit .SL_PSTAT_EGSP p || s.bit .egWait p then
    let s := ((s.setBits .SL_CEG_FAIL (2 ^ 8) c).clear .SL_CEG_SPUSE c).clear .egTrial p
    loseGenerator (((s.clear .SL_CEG_SPFOR c).clear .SL_PSTAT_EGSP p).clear .egWait p) p
  else
    let s := s.setBits .SL_CEG_FAIL (2 ^ k) c
    if spareGenFree s c then takeSpareGen s p (tickStep s) else loseGenerator s p

/-- DECLARE_GENERATOR_FAILED (R33, R115, R117): a write of SL_CSUB.GO acts at the coming boundary. -/
def csubWrite (s : State) (c k : Nat) : State := (s.later .SL_CSUB_K k c).raise .csubReq (8 * c + k)

/-- The generators of cluster `c` declared failed in the tick (R33, R115). -/
def csubBoundary (s : State) (c : Nat) : State :=
  s.each ((List.range 8).filter fun k => s.bit .csubReq (8 * c + k)) fun s k =>
    declareGenerator (s.clear .csubReq (8 * c + k)) c k

/-- INTERPOLATOR_SELFTEST (R116): the generators that fail their sweep are substituted and RDY sets. -/
def interpolatorSelftest (s : State) (failed : List (Nat × Nat)) : State :=
  if !s.bit .sluiceOn || s.bit .SL_STATUS_RDY then s
  else
    let s := s.each (failed.filter fun e => e.2 = 8) fun s e => s.setBits .SL_CEG_FAIL (2 ^ 8) e.1
    let s := s.each (failed.filter fun e => e.2 < 8) fun s e => declareGenerator s e.1 e.2
    s.raise .SL_STATUS_RDY

/-- A write of SL_RPER (R93): outside the range it is illegal; a legal value waits for the next wrap. -/
def legalPeriod (v : Int) : Bool := decide (4267 ≤ v ∧ v ≤ 204800)

def execTimebaseWrap (r : Rail) (s : State) : Out := .next (timebaseWrap s r)
def execCarrierStart (p : Phase) (s : State) : Out := .next (carrierStart s p)
def execScheduledEdge (p : Phase) (s : State) : Out := .next (scheduledEdge s p)
def execPeakCompare (p : Phase) (raw prev : BitVec 12) (at_ : Fin 320) (s : State) : Out :=
  .next (peakCompare s p raw.toInt prev.toInt at_)
def execValleyCompare (p : Phase) (raw prev : BitVec 12) (at_ : Fin 320) (s : State) : Out :=
  .next (valleyCompare s p raw.toInt prev.toInt at_)
def execZeroCrossing (p : Phase) (raw prev : BitVec 12) (at_ : Fin 320) (s : State) : Out :=
  .next (zeroCrossing s p raw.toInt prev.toInt at_)
def execSyncinEdge (at_ : Fin 320) (width : Nat) (s : State) : Out := .next (syncinEdge s at_ width)
def execSyncLoss (s : State) : Out := .next (syncLoss s)
def execPulseInsert (p : Phase) (s : State) : Out := .next (s.raise .insReq p)
def execRailPulseInsert (r : Rail) (s : State) : Out := .next (s.raise .insAllReq r)
def execPhaseAdd (r : Rail) (slots : BitVec 64) (s : State) : Out := .next (s.setBits .addReq slots.toNat r)
def execPhaseDrop (r : Rail) (slots : BitVec 64) (s : State) : Out := .next (s.setBits .dropReq slots.toNat r)
def execDropHoldEnd (p : Phase) (s : State) : Out := .next (dropHoldEnd s p)
def execReadbackCheck (p : Phase) (level : Fin 3) (s : State) : Out := .next (readbackCheck s p level.val)
def execDeclareGeneratorFailed (c : Cluster) (k : Fin 8) (s : State) : Out := .next (csubWrite s c k)
def execInterpolatorSelftest (failed : List (Nat × Nat)) (s : State) : Out := .next (interpolatorSelftest s failed)

end Sys2Proof.Machine
end

