-- ==== Sys2Proof/Machine/WeirMap.lean ====
section
/-! DEFINITION. The weirs by number, the spare that serves in a weir's place (06_weirs_protection.md, R157, R178), and the block
outputs that raise interrupt sources (13_interrupts.md, R315). -/
namespace Sys2Proof.Machine

/-- What a weir watches (R157). -/
inductive WeirKind where
  | phase (p : Nat)
  | protection (r : Nat)
  | transient (r : Nat)
  | auxiliary (a : Nat)
  | spare (k : Nat)
  deriving DecidableEq, Repr

/-- The kind of weir `w` (R157). -/
def weirKind (w : Nat) : WeirKind :=
  if w < 128 then .phase w
  else if w < 160 then (if w % 2 = 0 then .protection ((w - 128) / 2) else .transient ((w - 128) / 2))
  else if w < 176 then .auxiliary (w - 160)
  else .spare (w - 176)

/-- The weir's thresholds are relative to its rail's window reference (R157). -/
def weirRelative (s : State) (w : Nat) : Bool :=
  match weirKind w with
  | .protection _ => !s.bit .WR_CFG_ABS w
  | .transient _ => true
  | _ => false

/-- The weir that spare weir Sk serves (R178). -/
def servedBy (s : State) (k : Nat) : Option Nat :=
  (List.range 176).find? fun w => s.bit .WR_STAT_SUBST w && s.nat .WR_STAT_SPIDX w == k

/-- The weir whose threshold format a weir has: a spare has that of the weir it serves (R157). -/
def formatWeir (s : State) (w : Nat) : Nat :=
  match weirKind w with
  | .spare k => (servedBy s k).getD w
  | _ => w

/-- The weir whose configuration a weir runs on: that of the spare that serves its input (R178). -/
def configWeir (s : State) (w : Nat) : Nat := if s.bit .WR_STAT_SUBST w then 176 + s.nat .WR_STAT_SPIDX w else w

/-! Block outputs (R315): the flags and the outputs that the chapters combine onto one interrupt source. -/

/-- The groups that the weirs' interrupts are combined in: per cluster, per rail, and the auxiliary weirs (R164). -/
def weirOutput (w : Nat) : Option BlockOutput :=
  match weirKind w with
  | .phase p => some (.weirCluster (p / 8))
  | .protection r | .transient r => some (.weirRail r)
  | .auxiliary _ => some .weirAux
  | .spare _ => none

/-- A weir raises the interrupt of its group while its output is outside the window and IRQEN of its configuration is set (R164;
DEDUCED, log entry 122). -/
def weirRaises (s : State) (w : Nat) : Bool := s.bit .WR_STAT_OUT w && s.bit .WR_CTRL_IRQEN (configWeir s w)

/-- A field of a list is set at one of the indices. -/
def anySet (s : State) (l : List Fld) (is : List Nat) : Bool := is.any fun i => l.any fun f => s.bit f i

/-- The flags of SL_PFLAG and SL_RFLAG, WP_RFLAG and WP_CFLAG, PH_RFLAG and PH_CFLAG, and DL_FLAG (R117, R156, R180, R196). -/
def sluicePhaseFlags : List Fld :=
  [.SL_PFLAG_TONMINHIT, .SL_PFLAG_TOFFMINHIT, .SL_PFLAG_DMAXHIT, .SL_PFLAG_PSKIP, .SL_PFLAG_PIDEFER, .SL_PFLAG_PIDROP, .SL_PFLAG_RBMIS]
def sluiceRailFlags : List Fld :=
  [.SL_RFLAG_NMINREF, .SL_RFLAG_ADDREF, .SL_RFLAG_SYNCLOSS, .SL_RFLAG_SYNCRANGE, .SL_RFLAG_VINLOW]
def protectionRailFlags : List Fld :=
  [.WP_RFLAG_OV, .WP_RFLAG_UV, .WP_RFLAG_ROC, .WP_RFLAG_OVGLITCH, .WP_RFLAG_OVOFF, .WP_RFLAG_SENSE, .WP_RFLAG_LSAT, .WP_RFLAG_WLOST,
   .WP_RFLAG_TRLOST, .WP_RFLAG_RTEXH, .WP_RFLAG_AUX]
def protectionClusterFlags : List Fld :=
  [.WP_CFLAG_TFLT, .WP_CFLAG_TFSTUCK, .WP_CFLAG_TFCHAT, .WP_CFLAG_OTWARN, .WP_CFLAG_OTSHUT]
def healthRailFlags : List Fld :=
  [.PH_RFLAG_SUBST, .PH_RFLAG_NOSPARE, .PH_RFLAG_BELOWMIN, .PH_RFLAG_EMPTY, .PH_RFLAG_SHDROP, .PH_RFLAG_SHADD]
def demandLaneFlags : List Fld :=
  [.DL_FLAG_LOSS, .DL_FLAG_CRCRUN, .DL_FLAG_KATO, .DL_FLAG_STALE, .DL_FLAG_DUP, .DL_FLAG_GAP, .DL_FLAG_BADMSG, .DL_FLAG_TXOVF,
   .DL_FLAG_NEWEPOCH, .DL_FLAG_CFGERR]

/-- The Flume's flags of one kind in a cluster, a voltage group, or the auxiliary channels (R57). -/
def flumeClusterRaised (s : State) (c k : Nat) : Bool :=
  let ph := (List.range 8).map (8 * c + ·)
  match k with
  | 0 => anySet s [.FL_PHFLAG_CLIP] ph
  | 1 => anySet s [.FL_PHFLAG_STUCK] ph || s.bit .FL_TMFLAG_STUCK c
  | 2 => anySet s [.FL_PHFLAG_OPEN] ph
  | 3 => anySet s [.FL_PHFLAG_TRIMSAT] ph || s.bit .FL_TMFLAG_TRIMSAT c
  | 4 => s.bit .FL_TMFLAG_RANGE c
  | _ => false
def flumeGroupRaised (s : State) (g k : Nat) : Bool :=
  let ch := (List.range 8).map (8 * g + ·)
  match k with
  | 0 => anySet s [.FL_VFLAG_CLIP] ch
  | 1 => anySet s [.FL_VFLAG_STUCK] ch
  | 2 => anySet s [.FL_VFLAG_OPEN] ch
  | _ => false
def flumeAuxRaised (s : State) (k : Nat) : Bool :=
  match k with
  | 0 => anySet s [.FL_AUXFLAG_RANGE] (List.range 8)
  | 1 => anySet s [.FL_AUXFLAG_STUCK] (List.range 8)
  | 2 => anySet s [.FL_AUXFLAG_TRIMSAT] (List.range 8)
  | _ => false

/-- A block output is asserted: while one of the sticky flags that its chapter combines onto it is set (R21, R26, R57, R87, R117,
R180, R196, R210, R333), a weir of the group raises it (R164), or the DMA channel has raised it (R354, R357). -/
def outputAsserted (s : State) (o : BlockOutput) : Bool :=
  match o with
  | .flumeCluster c k => flumeClusterRaised s c k
  | .flumeGroup g k => flumeGroupRaised s g k
  | .flumeAux k => flumeAuxRaised s k
  | .allotment => s.bit .DM_STATUS_DOMX || s.bit .DM_STATUS_DEVX
  | .enableStuck => anySet s [.DM_RAILSTAT_ENSTUCK] (List.range 16)
  | .lane r => andI (s.get .LN_FLAG r) (s.get .LN_FLAGEN r) != 0
  | .sluice r => anySet s sluiceRailFlags [r] || anySet s sluicePhaseFlags ((railSlots s r).map (slotPhase s r))
  | .demandLane l => anySet s demandLaneFlags [l]
  | .weirCluster c => (List.range 8).any fun p => weirRaises s (8 * c + p)
  | .weirRail r => weirRaises s (128 + 2 * r) || weirRaises s (129 + 2 * r)
  | .weirAux => (List.range 16).any fun a => weirRaises s (160 + a)
  | .protectionRail r => anySet s protectionRailFlags [r]
  | .protectionCluster c => anySet s protectionClusterFlags [c]
  | .healthRail r => anySet s healthRailFlags [r]
  | .healthCluster c => anySet s [.PH_CFLAG_FOUND, .PH_CFLAG_NOID] [c]
  | .stormGuard => s.bit .EV_TRIP
  | .dma c => s.bit .dmaRaised c
  | .lockStep => anySet s [.LS_MM_V] (List.range 6)

/-- Present level of a source (IR_SRCST.RAW; R315). An EVI source is a pulse, so that its level reads 0. -/
def rawLevel (s : State) (n : Nat) : Bool :=
  if n < 32 then false
  else if n = 252 then s.bit .IR_STATUS_RLIM || s.bit .IR_STATUS_STRAND
  else if n = 253 then (List.range 5).any fun k => s.bit .XC_STATUS_DFHALT k
  else s.irqLines.any fun l => l.src == n && outputAsserted s l.out

/-- The source of an assigned weir group: with the EVI sources and source 252 the sources whose producer runs from VDDAO (R327). -/
def weirSource (s : State) (n : Nat) : Bool :=
  s.irqLines.any fun l => l.src == n && (match l.out with
    | .weirCluster _ | .weirRail _ | .weirAux => true
    | _ => false)
def vddaoSource (s : State) (n : Nat) : Bool := decide (n < 32) || n == 252 || weirSource s n

/-- The sources that weir `w` can raise. -/
def weirSources (s : State) (w : Nat) : List Nat := (s.irqLines.filter fun l => some l.out == weirOutput w).map (·.src)

end Sys2Proof.Machine
end

