-- ==== Sys2Proof/Machine/Interrupts.lean ====
section
/-! DEFINITION. The interrupt distributor (13_interrupts.md): sources, pending states, selection, claims, the end of
service, rate limiting, effective targets and stranding. -/
namespace Sys2Proof.Machine

/-- The source is pending (R316, R317). -/
def irPending (s : State) (n : Nat) : Bool :=
  s.bit .IR_SRCST_SPEND n || (if s.get .IR_SRCCFG_SENSE n == 0 then rawLevel s n else s.bit .irEdge n)

/-- The target that the source's configuration names; sources 252 and 253 always name the management core (R315). -/
def irTarget (s : State) (n : Nat) : Nat := if n ≥ 252 then 5 else s.nat .IR_SRCCFG_TGT n

/-- The effective target of a source (R325): the management core once stranded, else the core of TGT or the pair that
has taken over its duties. -/
def effTarget (s : State) (n : Nat) : Nat :=
  if s.bit .irStrand n then 5
  else
    let t := irTarget s n
    if t < 4 && s.get .dutyPair t != 7 then s.nat .dutyPair t else t

/-- The core is unavailable to interrupts (R326). -/
def unavailable (s : State) (k : Nat) : Bool := !coreRuns s k

/-- The source is held by the rate limiter: the window in which it reached RLMAX has not ended (R323). -/
def rateHeld (s : State) (n : Nat) : Bool := s.bit .irHeld n && decide (s.now < s.get .irWinEnd n)

/-- The source could compete for core `k` if it were pending: enabled, its effective target, of better priority than the one
running, not held, and not in service (R318, R324, R328). -/
def competes (s : State) (k n : Nat) (run : Int) : Bool :=
  s.bit .IR_SRCCFG_EN n && effTarget s n == k && decide (s.get .IR_SRCCFG_PRIO n < run) && !rateHeld s n && !s.bit .IR_SRCST_ACT n

/-- The source competes for core `k` (R318). -/
def eligible (s : State) (k n : Nat) (run : Int) : Bool := competes s k n run && irPending s n

/-- The better of two sources: the numerically lower priority, and of equals the lower number (R318). -/
def better (s : State) (best : Option Nat) (n : Nat) : Option Nat :=
  match best with
  | none => some n
  | some b => if s.get .IR_SRCCFG_PRIO n < s.get .IR_SRCCFG_PRIO b then some n else some b

/-- The best request for core `k` under running priority `run` (R318). -/
def bestRequest (s : State) (k : Nat) (run : Int) : Option Nat :=
  ((List.range 254).filter fun n => eligible s k n run).foldl (better s) none

/-- The request presented to core `k` (R318, IR_CBEST). -/
def presented (s : State) (k : Nat) : Option Nat := bestRequest s k (s.get .IR_CRUN_RUN k)

/-- The running priority from the active sources of a core (R318, R321). -/
def runningFrom (s : State) (k : Nat) : Int :=
  ((List.range 254).filter fun n => s.bit .IR_SRCST_ACT n && s.get .irOwner n == k).foldl
    (fun m n => min m (s.get .IR_SRCCFG_PRIO n)) 16

/-- The claim of source `n` by core `k` (R319, R323, R326). -/
def claim (s : State) (k n : Nat) : State :=
  let s := (s.clear .irEdge n).clear .IR_SRCST_SPEND n
  let s := ((s.raise .IR_SRCST_ACT n).put .irOwner k n).clear .irStrand n
  let s := (s.put .IR_CRUN_RUN (s.get .IR_SRCCFG_PRIO n) k).put .IR_CRUN_NACT (min 16 (s.get .IR_CRUN_NACT k + 1)) k
  let s := s.put .IR_CLAST_SRC n k
  let s := if s.bit .irWin n && decide (s.now < s.get .irWinEnd n) then s
    else ((s.raise .irWin n).put .irWinEnd (s.now + 160 * s.get .IR_SRCRL_RLWIN n) n).clear .irCnt n
  let s := s.put .irCnt (s.get .irCnt n + 1) n
  if s.bit .IR_SRCRL_RLMAX n && decide (s.get .irCnt n ≥ s.get .IR_SRCRL_RLMAX n) then
    ((s.raise .irHeld n).raise .IR_SRCST_RLIM n).raise .IR_STATUS_RLIM
  else s.clear .irHeld n

/-- The vector cycle of an interrupt entry of core `k`: the number delivered, and the claim (R319, R320). -/
def vectorCycle (s : State) (k : Nat) (run : Int) : Nat × State :=
  match bestRequest s k run with
  | some n => (n, claim s k n)
  | none => (255, (s.bump .IR_CSPUR 0xFFFF k).put .IR_CLAST_SRC 255 k)

/-- The end of service of the best active source of core `k` (R321). -/
def endService (s : State) (k : Nat) : State :=
  match ((List.range 254).filter fun n => s.bit .IR_SRCST_ACT n && s.get .irOwner n == k).foldl (better s) none with
  | none => s
  | some n =>
    let s := (s.clear .IR_SRCST_ACT n).clear .irOwner n
    (s.put .IR_CRUN_RUN (runningFrom s k) k).put .IR_CRUN_NACT (max 0 (s.get .IR_CRUN_NACT k - 1)) k

/-- The active sources of core `k` are cleared, as if ended without a new sample (R325, R326). -/
def clearActive (s : State) (k : Nat) : State :=
  let s := s.each ((List.range 254).filter fun n => s.bit .IR_SRCST_ACT n && s.get .irOwner n == k) fun s n =>
    (s.clear .IR_SRCST_ACT n).clear .irOwner n
  (s.put .IR_CRUN_RUN 16 k).put .IR_CRUN_NACT 0 k

/-- The core would take a presented request at its present boundary (R318, R276, R278, R288). -/
def takesInterrupts (s : State) (k : Nat) : Bool :=
  coreRuns s k && s.bit .swIe k && !(k != 5 && bankOf s k == 2) && !(k == 5 && s.bit .XC_STATUS_RM 5)

/-- A change that may withdraw a request which a core was about to take: the core may yet make its entry, and finds no
request in the vector cycle (R320). -/
def withdrawing (s : State) (f : State → State) : State :=
  let t := f s
  t.each ((List.range 6).filter fun k => takesInterrupts s k && (presented s k).isSome && (presented t k).isNone)
    fun t k => t.raise .irPres k

/-- A pending source that its target's stopped clocks keep waiting asks for the wake path (R326, R446). -/
def irWake (s : State) (n : Nat) : State :=
  wakeSeen s .irWakeReq n (s.bit .IR_SRCCFG_WAKE n && irPending s n)

/-- The sense modes that take an edge (R316). -/
def takesEdge (m : Int) (rising : Bool) : Bool := m == 3 || (m == 1 && rising) || (m == 2 && !rising)

/-- An edge of a source: latched under the sense modes that take it (R316). -/
def irLatch (s : State) (n : Nat) (rising : Bool) : State :=
  irWake (s.when (takesEdge (s.get .IR_SRCCFG_SENSE n) rising) (·.raise .irEdge n)) n

/-- A source whose producer does not run from VDDAO, while the distributor's clock is stopped (R326, R327, R446): in STANDBY it
wakes the device where it would become pending, and nothing is latched. -/
def sleepSample (s : State) (n : Nat) : State :=
  let l := rawLevel s n
  let m := s.get .IR_SRCCFG_SENSE n
  let seen := s.bit .IR_SRCST_SPEND n || (if m == 0 then l else l != s.bit .irPrev n && takesEdge m l)
  wakeSeen s .irWakeReq n (s.get .sleepMode == 1 && s.bit .IR_SRCCFG_WAKE n && seen)

/-- The level of a source is sampled: an edge since the last sample is latched (R316). A level source that falls while it is
presented may leave its core without a request in the vector cycle (R320). -/
def sampleSource (s : State) (n : Nat) : State :=
  let l := rawLevel s n
  if s.bit .sleepMode && !vddaoSource s n then sleepSample s n
  else if l == s.bit .irPrev n then irWake s n
  else
    let t := irLatch (s.put .irPrev (bit01 l) n) n l
    let k := effTarget s n
    let was := competes s k n (s.get .IR_CRUN_RUN k)
    if !l && s.get .IR_SRCCFG_SENSE n == 0 && was && takesInterrupts s k && (presented t k).isNone then t.raise .irPres k else t

/-- The sources that weir `w` raises are sampled; in a change that raises no interrupt the new level only takes the place of the
old (R160, R161, R164). -/
def sampleWeir (s : State) (w : Nat) : State := s.each (weirSources s w) sampleSource
def settleWeir (s : State) (w : Nat) : State := s.each (weirSources s w) fun s n => s.put .irPrev (bit01 (rawLevel s n)) n

/-- An event delivered at turnout 112 + i: a pulse, so a rising and a falling edge, on source EVIi (R201, R315). -/
def eviPulse (s : State) (i : Nat) : State := irLatch (irLatch s i true) i false

/-- SPEND (R317). -/
def spend (s : State) (n : Nat) : State := irWake (s.raise .IR_SRCST_SPEND n) n

/-- CLR: the soft-pending state and a latched edge are cleared (R317). -/
def clearPending (s : State) (n : Nat) : State :=
  withdrawing s fun s => (s.clear .IR_SRCST_SPEND n).clear .irEdge n

/-- A write of IR_SRCCFG.TGT: 6 and 7 are illegal and leave TGT as it was; it is read-only for sources 252 and 253
(R324, R329). -/
def retarget (s : State) (n : Nat) (t : Int) : State :=
  if n ≥ 252 then s
  else if t ≥ 6 then s.raise .IR_STATUS_CFGERR
  else withdrawing s fun s => s.put .IR_SRCCFG_TGT t n

/-- A write of IR_SRCCFG (R329). -/
def irCfgWrite (s : State) (n : Nat) (v : Int) : State :=
  let s := withdrawing s fun s =>
    let s := (s.put .IR_SRCCFG_EN (field v 0 0) n).put .IR_SRCCFG_SENSE (field v 2 1) n
    let s := (s.put .IR_SRCCFG_PRIO (field v 6 3) n).put .IR_SRCCFG_WAKE (field v 10 10) n
    let k := s.nat .irOwner n
    s.when (s.bit .IR_SRCST_ACT n) fun s => s.put .IR_CRUN_RUN (runningFrom s k) k
  retarget s n (field v 9 7)

/-- A write of IR_SRCRL: RLWIN 0 is illegal (R329). -/
def irRlWrite (s : State) (n : Nat) (v : Int) : State :=
  let s := s.put .IR_SRCRL_RLMAX (field v 7 0) n
  if field v 15 8 == 0 then s.raise .IR_STATUS_CFGERR else s.put .IR_SRCRL_RLWIN (field v 15 8) n

/-- The stranding time of a source: it runs while the source is pending for an unavailable target that its wake does not
reach (R326). -/
def strandTick (s : State) (n : Nat) : State :=
  let t := effTarget s n
  let runs := irPending s n && t != 5 && unavailable s t && !s.bit .sleepMode
  if runs then (if s.bit .irStrOn n then s else (s.raise .irStrOn n).put .irStrAt s.now n)
  else s.clear .irStrOn n

/-- The end of the stranding time (R326): the source's effective target becomes the management core. -/
def strandExpiry (s : State) (n : Nat) : State :=
  if !s.bit .sleepMode && s.bit .irStrOn n && irPending s n && effTarget s n != 5 && unavailable s (effTarget s n)
      && decide (s.now ≥ s.get .irStrAt n + 160 * s.get .IR_CTRL_STRTMO) then
    (((s.raise .irStrand n).raise .IR_SRCST_STRAND n).raise .IR_STATUS_STRAND).clear .irStrOn n
  else s

/-- The end of a rate-limit window (R323). -/
def rateWindowEnd (s : State) (n : Nat) : State :=
  if !s.bit .sleepMode && s.bit .irWin n && decide (s.now ≥ s.get .irWinEnd n) then ((s.clear .irWin n).clear .irHeld n).clear .irCnt n else s

/-- A write of the source registers from core `k` (R329): the management core writes all; a tick core only sets SPEND
and CLR of sources whose effective target is itself. -/
def irMayWrite (s : State) (k n : Nat) (soft : Bool) : Bool := k == 5 || (soft && effTarget s n == k)

/-- A register access of a core that R329 refuses. -/
def irRefuse (s : State) : State := s.raise .IR_STATUS_CFGERR

/-- A write of core `k` to the registers of source `n` (R329): user code of the management core does not reach them. -/
def irCommand (s : State) (k n : Nat) (soft : Bool) (f : State → State) : State :=
  if !supervisor s k then s else if irMayWrite s k n soft then f s else irRefuse s

/-- INTERRUPT_ASSERT (R316): the level of a source is seen at the distributor. -/
def execInterruptAssert (n : Source) (s : State) : Out := .next (sampleSource s n)

/-- SPEND (R317, R329). -/
def execSpend (k : CoreId) (n : Source) (s : State) : Out :=
  .next (irCommand s k n true (spend · n))

/-- CLR (R317, R329). -/
def execClr (k : CoreId) (n : Source) (s : State) : Out :=
  .next (irCommand s k n true (clearPending · n))

/-- RETARGET (R324, R329). -/
def execRetarget (k : CoreId) (n : Source) (t : Fin 8) (s : State) : Out :=
  .next (irCommand s k n false (retarget · n (t : Nat)))

/-- RATE_LIMIT_WINDOW_END (R323). -/
def execRateLimitWindowEnd (n : Source) (s : State) : Out := .next (rateWindowEnd s n)

/-- STRAND_TIMEOUT (R326). -/
def execStrandTimeout (n : Source) (s : State) : Out := .next (strandExpiry s n)

end Sys2Proof.Machine
end

