-- ==== Sys2Proof/Machine/Weirs.lean ====
section
/-! DEFINITION. Weirs and the Spillway (06_weirs_protection.md, R157 to R167, R178, R179) with the transient responses
(05_transients_forecast.md, R118 to R123). Inputs of comparisons are given in nanovolts. -/
namespace Sys2Proof.Machine

/-- A threshold code of the weir as a number: signed for phase, relative and unserving spare weirs, else unsigned
(R157). -/
def thresholdCode (s : State) (w : Nat) (c : Int) : Int :=
  let f := formatWeir s w
  match weirKind f with
  | .auxiliary _ => c
  | .protection _ => if s.bit .WR_CFG_ABS f then c else signed 10 c
  | _ => signed 10 c

/-- The number that a field's value stands for where values and bounds are compared (R36, R157, R158). -/
def numberOf (s : State) (f : Fld) (i : Nat) (v : Int) : Int :=
  if f == .WR_LO || f == .WR_HI then thresholdCode s i v else v

/-- The threshold LSB of the weir in nanovolts (R157). -/
def thresholdLsb (s : State) (w : Nat) : Int :=
  match weirKind w with
  | .protection _ => if s.bit .WR_CFG_ABS w then 2000000 else 500000
  | .transient _ => 500000
  | _ => 1171875

/-- The input of a comparison: the applied voltage, less the window reference for a relative weir (R157). -/
def weirInput (s : State) (w : Nat) (nv : Int) : Int :=
  match weirKind w with
  | .protection r => if s.bit .WR_CFG_ABS w then nv else nv - 125000 * s.get .wref r
  | .transient r => nv - 125000 * s.get .wref r
  | _ => nv

/-- The output of a weir from its present output and its input (R159): 0 INSIDE, 1 BELOW, 2 ABOVE. -/
def weirJudge (s : State) (w : Nat) (out nv : Int) : Int :=
  let x := weirInput s w nv
  let lsb := thresholdLsb s w
  let c := configWeir s w
  let hi := thresholdCode s w (s.get .WR_HI c) * lsb
  let lo := thresholdCode s w (s.get .WR_LO c) * lsb
  let hys := s.get .WR_CFG_HYS c * lsb
  if x > hi then 2
  else if x < lo then 1
  else if out == 2 && x ≥ hi - hys then 2
  else if out == 1 && x ≤ lo + hys then 1
  else 0

/-- The weir may compare: enabled, not lost, and not held by its rail's state (R12, R160, R161). -/
def weirActive (s : State) (w : Nat) : Bool :=
  s.bit .wrOn w && (!s.bit .WR_STAT_FAIL w || s.bit .WR_STAT_SUBST w) &&
  (match weirKind w with
   | .phase p => (memberOf s p).isSome
   | .protection r => if s.bit .WR_CFG_ABS w then railState s r != stUNUSED else railRuns s r
   | .transient r => railRuns s r
   | .auxiliary _ => true
   | .spare _ => false)

/-- The mode in force (R162, R163); 5 is disabled. -/
def weirMode (s : State) (w : Nat) : Int :=
  if s.get .sleepMode == 0 then
    let cont := match weirKind w with
      | .phase p => s.bit .SL_PSTAT_ACT p
      | .protection r => railRuns s r
      | .transient r => railRuns s r
      | .auxiliary _ => s.bit .WR_CTRL_AACT w
      | .spare _ => false
    if cont then 0 else s.get .WR_CFG_MODE (configWeir s w)
  else
    let m := s.get .WR_CFG_SMODE (configWeir s w)
    if s.get .sleepMode == 2 && m ≤ 1 then 2 else m

/-- The all-off level of rail `r` from its sources: low if any of them names low (R166, R167): 0 none, 1 low, 2 mid. -/
def allOffLevel (s : State) (r : Nat) : Int :=
  let drv : Int := if s.bit .WP_RCFG_OVDRV r then 2 else 1
  let own := s.bit .ovOff r || s.bit .trOff r
  let aux := railRuns s r && (List.range 16).any fun a =>
    let w := 160 + a
    weirActive s w && s.bitOf .WR_AMASK r w &&
      ((s.get .WR_CTRL_AACT w == 1 && s.get .WR_STAT_OUT w == 1) ||
       (s.get .WR_CTRL_AACT w == 2 && s.get .WR_STAT_OUT w == 2) || s.bit .auxOff a)
  if own && drv == 1 then 1 else if own || aux then 2 else 0

/-- A Spillway all-off or burst forces a phase of the rail (R73). -/
def spillForces (s : State) (r : Nat) : Bool := s.bit .allOff r || (railSlots s r).any fun j => s.bit .inBurst (slotPhase s r j)

/-- The tick counts as one in which a Spillway action forces a phase of the rail (R73) when the action stands in any part of it; one
that ends at the boundary itself, at instant `t`, does not count. -/
def noteForced (s : State) (r : Nat) (t : Int) : State :=
  if spillForces s r then s.when (!s.bit .forced r) (·.put .forced 2 r)
  else s.when (s.get .forced r == 1 && decide (t ≤ tickStep s)) (·.clear .forced r)

/-- Bring a rail's Spillway level and its outputs up to date at instant `t`. -/
def refreshSpill (s : State) (r : Nat) (t : Int) : State :=
  noteForced (refreshRail (s.put .allOff (allOffLevel s r) r) r t) r t

/-- LN_BUSED as a budget test finds it (R121, R122): a management-tick boundary that is due has returned it to 0. -/
def burstUsed (s : State) (r : Nat) : Int := if mtickDue s then 0 else s.get .LN_BUSED r

/-- A burst starts on every active phase (R120), unless the budget is spent or the gap since the last burst has not passed (R122);
a phase that stood at mid-level after a zero crossing is low when it leaves the burst. -/
def startBurst (s : State) (r : Nat) (t : Int) : State :=
  if s.bit .burstOn r || !s.bit .LN_BBUDGET r then s
  else
    let spent := decide (burstUsed s r ≥ s.get .LN_BBUDGET r)
    let soon := decide (s.now < s.get .burstEnd r + s.get .LN_BURST_BGAP r)
    if spent || soon then
      (s.when spent (·.raise .LN_TRFLAG_BUDEX r)).when soon (·.raise .LN_TRFLAG_GAPREF r)
    else
      let s := ((s.raise .burstOn r).put .burstFrom s.now r).raise .burstTick r
      let s := s.raise .LN_TRFLAG_BURST r
      let s := s.each (activeSlots s r) fun s j =>
        (s.raise .inBurst (slotPhase s r j)).clear .midZc (slotPhase s r j)
      noteForced (refreshRail s r t) r t

/-- A burst ends for all its phases (R121). -/
def endBurst (s : State) (r : Nat) (t : Int) : State :=
  if !s.bit .burstOn r then s
  else
    let s := (s.clear .burstOn r).put .burstEnd s.now r
    let s := s.each (railSlots s r) fun s j => s.clear .inBurst (slotPhase s r j)
    noteForced (refreshRail s r t) r t

/-- The transient response to a low crossing (R118, R119). -/
def lowCrossing (s : State) (r : Nat) (t : Int) : State :=
  if railState s r != stREG || s.bit .trLost r then s
  else
    let s := s.when (s.bit .LN_TRCFG_ADDALL r) fun s =>
      s.each (railSlots s r) fun s j =>
        if s.bitOf .SL_RACT j r || s.bit .PH_PSTAT_RET (slotPhase s r j) then s
        else s.setBits .addReq (2 ^ j) r
    let act := s.get .LN_TRCFG_LOACT r
    if act == 1 then startBurst s r t else if act == 2 then s.raise .insAllReq r else s

/-- The transient response to a high crossing (R119, R123). -/
def highCrossing (s : State) (r : Nat) (t : Int) : State :=
  if railState s r != stREG || s.bit .trLost r || !s.bit .LN_TRCFG_HIACT r then s
  else refreshSpill ((s.raise .trOff r).put .trFrom s.now r) r t

/-- A protection all-off ends (R167): OVGLITCH if it began while the rail ran. -/
def endAllOff (s : State) (r : Nat) (t : Int) : State :=
  let s := s.when (s.bit .ovRun r) (·.raise .WP_RFLAG_OVGLITCH r)
  refreshSpill ((s.clear .ovOff r).clear .ovRun r) r t

/-- What the boundary makes of a protection all-off of a rail outside its running states (R167): it lasts only while the weir stays
ABOVE, and one that began while the rail ran sets OVOFF. -/
def allOffBoundary (s : State) (r : Nat) : State :=
  if !s.bit .ovOff r || railRuns s r then s
  else if s.get .WR_STAT_OUT (128 + 2 * r) != 2 then endAllOff s r (tickStep s)
  else if s.get .ovRun r == 1 then (s.raise .WP_RFLAG_OVOFF r).put .ovRun 2 r
  else s

/-- What a new output does to the Spillway (R121, R123, R166, R167): an all-off lasts while its weir is out of its window. -/
def spillAction (s : State) (w : Nat) (old new t : Int) : State :=
  match weirKind w with
  | .phase p =>
    if new == 2 && s.get .SL_PSTAT_LEVEL p == 1 && !(forcedLevel s p).isSome then terminatePulse s p t
    else if new == 1 && s.get .SL_PSTAT_LEVEL p == 0 && !(forcedLevel s p).isSome then
      refreshPhase ((s.raise .midZc p).raise .WR_FLAG_NEGOC p) p t
    else s
  | .protection r =>
    let run := railRuns s r
    if s.bit .ovOff r then (if new == 0 || (new == 1 && !run) then endAllOff s r t else s)
    else if new == 2 then
      let s := (s.raise .ovOff r).put .ovRun (bit01 run) r
      refreshSpill (if run then s else s.raise .WP_RFLAG_OVOFF r) r t
    else s
  | .transient r =>
    let s := if old == 1 then endBurst s r t else s
    let s := if old == 2 then refreshSpill (s.clear .trOff r) r t else s
    if new == 1 then lowCrossing s r t else if new == 2 then highCrossing s r t else s
  | .auxiliary a =>
    let on := new != 0 && (s.bit .auxOff a || (s.get .WR_CTRL_AACT w == 1 && new == 1) || (s.get .WR_CTRL_AACT w == 2 && new == 2))
    let s := s.put .auxOff (bit01 on) a
    s.each ((List.range 16).filter fun r => s.bitOf .WR_AMASK r w) fun s r => refreshSpill s r t
  | .spare _ => s

/-- A weir's output changes (R159, R164): flags, event channels, wake and the Spillway. The entry and the departure that it publishes start
together (R197). -/
def weirChange (s : State) (w : Nat) (new t : Int) : State :=
  let old := s.get .WR_STAT_OUT w
  if old == new then s
  else
    let s := s.put .WR_STAT_OUT new w
    let s := if new == 2 then s.raise .WR_FLAG_ABOVE w else if new == 1 then s.raise .WR_FLAG_BELOW w else s
    let c := configWeir s w
    let s := wakeSeen (sampleWeir s w) .wakeReq w (s.bit .WR_CTRL_WAKE c)
    let cha := s.nat .WR_ROUTE_CHA c
    let chb := s.nat .WR_ROUTE_CHB c
    let s := together s fun s =>
      let s := s.when (s.bit .WR_ROUTE_ENA c && (new == 2 || (old == 2 && s.bit .WR_ROUTE_RETA c))) (publish · cha)
      s.when (s.bit .WR_ROUTE_ENB c && (new == 1 || (old == 1 && s.bit .WR_ROUTE_RETB c))) (publish · chb)
    spillAction s w old new t

/-- The persistence counts of a weir restart when a settling hold begins (R160). -/
def restartCounts (s : State) (w : Nat) : State :=
  match weirKind w with
  | .protection r => (s.clear .ovCnt r).clear .uvCnt r
  | _ => s

/-- A weir is enabled (R160): its output holds `out` for 2 ticks. -/
def enableWeir (s : State) (w : Nat) (out : Int) : State :=
  if !weirActive s w then s
  else
    let s := restartCounts ((s.raise .WR_STAT_SETTLE w).put .wrSettle s.now w) w
    weirChange s w out (tickStep s)

/-- A weir's output is forced INSIDE without event, flag, interrupt or wake, and drives nothing (R160, R161). An all-off that this
ends while the rail runs, or of an absolute weir, ends without FAULT (R167); R161's change is none. -/
def quietInside (s : State) (w : Nat) : State :=
  let s := settleWeir ((s.clear .WR_STAT_OUT w).clear .WR_STAT_SETTLE w) w
  match weirKind w with
  | .protection r =>
    let s := s.when (s.bit .ovRun r && (railRuns s r || s.bit .WR_CFG_ABS w)) (·.raise .WP_RFLAG_OVGLITCH r)
    refreshSpill ((s.clear .ovOff r).clear .ovRun r) r (tickStep s)
  | .transient r =>
    let s := endBurst s r (tickStep s)
    refreshSpill (s.clear .trOff r) r (tickStep s)
  | .auxiliary a =>
    (s.clear .auxOff a).each ((List.range 16).filter fun r => s.bitOf .WR_AMASK r w) fun s r => refreshSpill s r (tickStep s)
  | _ => s

/-- What a boundary does to a weir (R160 to R163): EN as it stands now, the rail's state and the mode in force. -/
def weirBoundary (s : State) (w : Nat) : State :=
  let was := s.bit .wrRun w
  let enWas := s.bit .wrOn w
  let s := s.put .wrOn (s.get .WR_CFG_EN (configWeir s w)) w
  let now_ := weirActive s w
  let mode := weirMode s w
  let modeWas := s.get .WR_STAT_EFFMODE w
  let s := (s.put .wrRun (bit01 now_) w).put .WR_STAT_EFFMODE (min mode 7) w
  if !now_ || mode == 5 then (if was || s.bit .WR_STAT_OUT w then quietInside s w else s)
  else if !was || !enWas then enableWeir s w (s.get .WR_CFG_INIT (configWeir s w))
  else if mode != modeWas then enableWeir s w (s.get .WR_STAT_OUT w)
  else s

/-- WEIR_CROSSING (R159): a continuous comparison, or the sampled mode's one comparison of the tick (R162). -/
def weirCrossing (s : State) (w : Nat) (nv t : Int) : State :=
  let mode := s.get .WR_STAT_EFFMODE w
  if !s.bit .wrRun w || s.bit .WR_STAT_SETTLE w then s
  else if mode == 0 then weirChange s w (weirJudge s w (s.get .WR_STAT_OUT w) nv) t
  else if mode == 1 && s.get .wrSampled w != s.now then
    weirChange (s.put .wrSampled s.now w) w (weirJudge s w (s.get .WR_STAT_OUT w) nv) (tickStep s)
  else s

/-- WEIR_FALLBACK_COMPARE (R162): the self-timed comparison of a fall-back mode. -/
def weirFallback (s : State) (w : Nat) (nv : Int) : State :=
  let mode := s.get .WR_STAT_EFFMODE w
  if !s.bit .wrRun w || s.bit .WR_STAT_SETTLE w || mode < 2 || 4 < mode then s
  else weirChange s w (weirJudge s w (s.get .WR_STAT_OUT w) nv) (tickStep s)

/-- WEIR_SETTLE_END (R160): after 2 ticks the first comparison is made against the bare thresholds. In DEEP SLEEP no tick counts, and the
sender times the hold (DESIGN CHOICE, log entry 120). -/
def weirSettleEnd (s : State) (w : Nat) (nv : Int) : State :=
  if !s.bit .WR_STAT_SETTLE w || (s.now < s.get .wrSettle w + 2 && s.get .sleepMode != 2) then s
  else weirChange (s.clear .WR_STAT_SETTLE w) w (weirJudge s w 0 nv) (tickStep s)

/-- WEIR_ENABLE (R160): EN that has been written 1 takes effect at the coming boundary. -/
def weirEnable (s : State) (w : Nat) : State :=
  if s.bit .WR_CFG_EN (configWeir s w) && !s.bit .wrOn w then weirBoundary s w else s

/-- The spare weir that reaches the input of weir `w` (R178). -/
def spareFor (w : Nat) : Nat :=
  match weirKind w with
  | .phase p => p / 16
  | .protection r => r / 2
  | .transient r => r / 2
  | .auxiliary a => a / 2
  | .spare k => k

/-- The configuration of a weir that a spare takes over (R178). -/
def weirConfig : List Fld :=
  [.WR_CFG_EN, .WR_CFG_MODE, .WR_CFG_SMODE, .WR_CFG_INIT, .WR_CFG_HYS, .WR_CFG_ABS, .WR_LO, .WR_HI,
   .WR_ROUTE_CHA, .WR_ROUTE_ENA, .WR_ROUTE_RETA, .WR_ROUTE_CHB, .WR_ROUTE_ENB, .WR_ROUTE_RETB, .WR_CTRL_IRQEN, .WR_CTRL_WAKE, .WR_CTRL_SEL, .WR_CTRL_AACT, .WR_AMASK]

/-- The loss of a weir that no spare serves (R178). -/
def weirLoss (s : State) (w : Nat) : State :=
  let s := s.raise .wrLoss w
  let s := quietInside (s.clear .wrRun w) w
  match weirKind w with
  | .phase p => requestRetire s p 8
  | .protection r => (s.raise .protLost r).raise .WP_RFLAG_WLOST r
  | .transient r => (s.raise .trLost r).raise .WP_RFLAG_TRLOST r
  | _ => s

/-- WEIR_SUBSTITUTION (R178): a failed weir is replaced by a spare weir that reaches its input, or its loss is acted
on. -/
def weirSubstitution (s : State) (w : Nat) : State :=
  if !s.bit .WR_STAT_FAIL w || s.bit .WR_STAT_SUBST w || s.bit .wrLoss w then s
  else
    let k := spareFor w
    if s.bitOf .WP_STATUS_SPUSE k || s.bitOf .WP_SPFAIL k then weirLoss s w
    else
      let s := (s.raise .WR_STAT_SUBST w).put .WR_STAT_SPIDX k w
      let s := s.setBits .WP_STATUS_SPUSE (2 ^ k)
      let s := s.each weirConfig fun t f => t.put f (t.get f w) (176 + k)
      enableWeir s w (s.get .WR_STAT_OUT w)

/-- A weir fails (R178, R179); a spare that serves it fails with it. -/
def failWeir (s : State) (w : Nat) : State :=
  if 176 ≤ w then
    let k := w - 176
    let s := (s.setBits .WP_SPFAIL (2 ^ k)).raise .WR_STAT_FAIL w
    match servedBy s k with
    | none => s
    | some v => weirLoss (((s.clrBits .WP_STATUS_SPUSE (2 ^ k)).clear .WR_STAT_SUBST v).clear .WR_STAT_SPIDX v) v
  else if s.bit .WR_STAT_SUBST w then
    let k := s.nat .WR_STAT_SPIDX w
    let s := ((s.setBits .WP_SPFAIL (2 ^ k)).raise .WR_STAT_FAIL (176 + k)).clrBits .WP_STATUS_SPUSE (2 ^ k)
    weirLoss ((s.clear .WR_STAT_SUBST w).clear .WR_STAT_SPIDX w) w
  else s.raise .WR_STAT_FAIL w

/-- DECLARE_WEIR_FAILED (R33, R179): a write of WP_SUB.GO acts at the coming boundary; an IDX of 176 or more is illegal. -/
def declareWeir (s : State) (w : Nat) : State :=
  if 176 ≤ w then s.raise .WP_STATUS_CFGERR else (s.later .WP_SUB_IDX w).raise .declReq w

/-- The weirs declared failed in the tick (R33, R179). -/
def declaredBoundary (s : State) : State :=
  s.each ((List.range 176).filter fun w => s.bit .declReq w) fun s w => failWeir (s.clear .declReq w) w

/-- WEIR_SELFTEST (R179): the weirs that fail are substituted and RDY sets. -/
def weirSelftest (s : State) (failed : List Nat) : State :=
  if !s.bit .weirsOn || s.bit .WP_STATUS_RDY then s
  else
    let s := s.each failed failWeir
    (s.each failed fun s w => weirSubstitution s w).raise .WP_STATUS_RDY

/-- BURST_PHASE_EXIT (R48, R120): the compared value of a phase in a burst reaches BILIM; samples of a held window are not compared. -/
def burstPhaseExit (s : State) (p : Nat) (raw prev : Int) (at_ : Nat) : State :=
  match railOf s p with
  | none => s
  | some r =>
    if s.bit .inBurst p && !s.bit .phHold p && comparedValue s r p raw prev at_ ≥ s.get .LN_BILIM r then
      noteForced (refreshPhase (s.clear .inBurst p) p (tickStep s + at_)) r (tickStep s + at_)
    else s

/-- BURST_LENGTH_EXPIRY (R121). -/
def burstLength (s : State) (r : Nat) : State :=
  if s.bit .burstOn r && s.now ≥ s.get .burstFrom r + s.get .LN_BURST_BLEN r then
    ((endBurst s r (tickStep s)).clear .burstTick r).raise .LN_TRFLAG_BLENEND r
  else s

/-- BURST_BUDGET_EXHAUSTED (R121, R122). -/
def burstBudget (s : State) (r : Nat) : State :=
  if s.bit .burstOn r && burstUsed s r ≥ s.get .LN_BBUDGET r then
    ((endBurst s r (tickStep s)).clear .burstTick r).raise .LN_TRFLAG_BUDEX r
  else s

/-- ALL_OFF_LENGTH_EXPIRY (R123). -/
def allOffLength (s : State) (r : Nat) : State :=
  if s.bit .trOff r && s.now ≥ s.get .trFrom r + s.get .LN_OFFLEN r then
    (refreshSpill (s.clear .trOff r) r (tickStep s)).raise .LN_TRFLAG_OFFEND r
  else s

/-- A tick in which a burst was in force counts against the budget (R122). -/
def burstCount (s : State) (r : Nat) : State :=
  let s := s.when (s.bit .burstTick r) fun s => s.bump .LN_BUSED 0xFFFF r
  s.put .burstTick (s.get .burstOn r) r

def execWeirCrossing (w : Weir) (nv : Int) (at_ : Fin 320) (s : State) : Out :=
  .next (weirCrossing s w nv (tickStep s + at_))
def execWeirEnable (w : Weir) (s : State) : Out := .next (weirEnable s w)
def execWeirSettleEnd (w : Weir) (nv : Int) (s : State) : Out := .next (weirSettleEnd s w nv)
def execWeirFallbackCompare (w : Weir) (nv : Int) (s : State) : Out := .next (weirFallback s w nv)
def execWeirSubstitution (w : Weir) (s : State) : Out := .next (weirSubstitution s w)
def execDeclareWeirFailed (w : Weir) (s : State) : Out := .next (declareWeir s w)
def execWeirSelftest (failed : List Nat) (s : State) : Out := .next (weirSelftest s failed)
def execBurstPhaseExit (p : Phase) (raw prev : BitVec 12) (at_ : Fin 320) (s : State) : Out :=
  .next (burstPhaseExit s p raw.toInt prev.toInt at_)
def execBurstLengthExpiry (r : Rail) (s : State) : Out := .next (burstLength s r)
def execBurstBudgetExhausted (r : Rail) (s : State) : Out := .next (burstBudget s r)
def execAllOffLengthExpiry (r : Rail) (s : State) : Out := .next (allOffLength s r)

end Sys2Proof.Machine
end

