-- ==== Sys2Proof/Machine/Protection.lean ====
section
/-! DEFINITION. The protection matrix (06_weirs_protection.md, R165, R168 to R177): the conditions that ask for FAULT,
isolation or retirement, entering and leaving FAULT, the TFLTn filter and the temperature checks. -/
namespace Sys2Proof.Machine

/-- A matrix code asks for FAULT on a running rail at the next boundary; in any other state it changes nothing
(R24 row 1, R175). -/
def askFault (s : State) (r code : Nat) (latched : Bool) : State :=
  if railRuns s r then (s.setBits .faultCodes (2 ^ code) r).when latched (·.raise .faultLatchReq r) else s

/-- A rail policy (R172): 0 flag only, 1 FAULT with retry, 2 FAULT latched. -/
def railPolicy (s : State) (r code : Nat) (pol : Int) : State :=
  if pol == 0 then s else askFault s r code (pol == 2)

/-- A phase policy (R172): 1 retire the phase, 2 rail FAULT with retry, 3 rail FAULT latched. -/
def phasePolicy (s : State) (r p code cause : Nat) (pol : Int) : State :=
  if pol == 0 then s else if pol == 1 then requestRetire s p cause else askFault s r code (pol == 3)

/-- The phases of cluster `c`. -/
def clusterPhases (c : Nat) : List Nat := (List.range 8).map fun k => 8 * c + k

/-- The phase is a member of a rail and in its active set. -/
def phaseActive (s : State) (p : Nat) : Bool :=
  match memberOf s p with
  | none => false
  | some (r, j) => s.bitOf .SL_RACT j r

/-- The rails with a member phase in cluster `c`. -/
def clusterRails (s : State) (c : Nat) : List Nat :=
  (List.range 16).filter fun r => (clusterPhases c).any fun p => railOf s p == some r

/-- The rails with an active phase in cluster `c`. -/
def clusterActiveRails (s : State) (c : Nat) : List Nat :=
  (List.range 16).filter fun r => (clusterPhases c).any fun p => railOf s p == some r && phaseActive s p

/-- An isolation of the cluster is asked for at the next boundary (R173). -/
def askIsolation (s : State) (c : Nat) : State := if s.bit .WP_CSTAT_ISOL c then s else s.raise .isolReq c

/-- FAULT for each rail with an active phase in the cluster (R172). -/
def clusterFault (s : State) (c code : Nat) (latched : Bool) : State :=
  s.each (clusterActiveRails s c) fun s r => askFault s r code latched

/-- The over-temperature policy (R170, R172). -/
def tempPolicy (s : State) (c : Nat) : State :=
  let pol := s.get .WP_CCFG_OTPOL c
  if pol == 0 then s else if pol == 1 then askIsolation s c else clusterFault s c 8 (pol == 3)

/-- The power-stage fault policy while TFLTn is filtered active (R171 code 9, R172). -/
def stagePolicy (s : State) (c : Nat) : State :=
  let pol := s.get .WP_CCFG_TFPOL c
  if pol == 0 then s
  else
    let s := askIsolation s c
    if pol == 1 then s else clusterFault s c 9 (pol == 3)

/-- The tick state of a weir that holds no settling hold (R160, R165). -/
def tickOut (s : State) (w : Nat) : Int := if s.bit .WR_STAT_SETTLE w then 0 else s.get .WR_STAT_OUT w

/-- The count of consecutive ticks in ABOVE, with the present tick (R165). -/
def ovTicks (s : State) (r : Nat) : Int := if tickOut s (128 + 2 * r) == 2 then s.get .ovCnt r + 1 else 0

/-- The count of consecutive ticks in BELOW while REGULATING, with the present tick (R165, R171 code 2). -/
def uvTicks (s : State) (r : Nat) : Int :=
  if tickOut s (128 + 2 * r) == 1 && railState s r == stREG then s.get .uvCnt r + 1 else 0

/-- The tick ends: its tick states enter the persistence counts (R165). -/
def countTickStates (s : State) (r : Nat) : State :=
  (s.put .ovCnt (min 255 (ovTicks s r)) r).put .uvCnt (min 255 (uvTicks s r)) r

/-- OV_PERSISTENCE (R171 code 1). -/
def ovPersistence (s : State) (r : Nat) : State :=
  let n := max (ovTicks s r) (s.get .ovCnt r)
  if 0 < n && s.get .WP_RPERS_OVPERS r ≤ n then
    railPolicy (s.raise .WP_RFLAG_OV r) r 1 (s.get .WP_RCFG_OVPOL r)
  else s

/-- UV_PERSISTENCE (R171 code 2). -/
def uvPersistence (s : State) (r : Nat) : State :=
  let n := max (uvTicks s r) (s.get .uvCnt r)
  if 0 < n && s.get .WP_RPERS_UVPERS r ≤ n && railState s r == stREG then
    railPolicy (s.raise .WP_RFLAG_UV r) r 2 (s.get .WP_RCFG_UVPOL r)
  else s

/-- A window over the rail over-current limit counts; any other restarts the count (R171 code 3). -/
def rocCount (s : State) (r : Nat) : State :=
  if railRuns s r && shr (s.get .DM_RAILCUR_ICUR r) 4 > s.get .WP_ROCLIM r then s.bump .rocCnt 255 r
  else s.clear .rocCnt r

/-- ROC_PERSISTENCE (R171 code 3). -/
def rocPersistence (s : State) (r : Nat) : State :=
  let n := s.get .rocCnt r
  if 0 < n && s.get .WP_RPERS2_ROCPERS r ≤ n && railRuns s r then
    railPolicy (s.raise .WP_RFLAG_ROC r) r 3 (s.get .WP_RCFG_ROCPOL r)
  else s

/-- PHASE_OC_COUNT (R171 code 4): OCCNT consecutive carrier cycles with a termination. -/
def phaseOcCount (s : State) (p : Nat) : State :=
  match railOf s p with
  | none => s
  | some r =>
    let n := s.get .ocCnt p
    if 0 < n && s.get .WP_RPERS2_OCCNT r ≤ n && phaseActive s p && !s.bit .PH_PSTAT_RET p then
      phasePolicy ((s.clear .ocCnt p).raise .WR_FLAG_OCRET p) r p 4 1 (s.get .WP_RCFG2_PHOCPOL r)
    else s

/-- A tick of the CMDHI condition in REGULATING counts, in its F3 (R171 code 13). -/
def lsatCount (s : State) (r : Nat) : State :=
  if oldState s r == stREG && s.bit .cmdHiNow r then s.bump .lsatCnt 0xFFFF r else s.clear .lsatCnt r

/-- LOOP_SATURATION (R171 code 13): the run of the present tick, as it stands, completes the count. -/
def loopSaturation (s : State) (r : Nat) : State :=
  let n := max (s.get .lsatCnt r) ((lsatCount (laneTick s r) r).get .lsatCnt r)
  if 0 < n && s.get .WP_LSAT r ≤ n && railState s r == stREG then
    railPolicy (s.raise .WP_RFLAG_LSAT r) r 13 (s.get .WP_RCFG_LSATPOL r)
  else s

/-- The sense pair of the rail is open or unserved (R171 code 10). -/
def senseOpen (s : State) (r : Nat) : Bool := s.bit .FL_VFLAG_OPEN r || s.bit .FL_VFLAG_CVFAIL r

/-- In OFF a rail with an open sense pair may not start, unless OPENPOL is flag only (R171 code 10). -/
def startBlocked (s : State) (r : Nat) : Bool := senseOpen s r && s.bit .WP_RCFG_OPENPOL r

/-- Codes 10, 11, 12 and 14 are judged from the flags of the preceding tick (R171). -/
def senseFaults (s : State) (r : Nat) : State :=
  if railState s r == stUNUSED then s
  else
    let s := if senseOpen s r then railPolicy (s.raise .WP_RFLAG_SENSE r) r 10 (s.get .WP_RCFG_OPENPOL r) else s
    let s := if railRuns s r && s.bit .FL_VFLAG_STUCK r then
        railPolicy (s.raise .WP_RFLAG_SENSE r) r 11 (s.get .WP_RCFG_STKPOL r) else s
    let s := if s.bit .protLost r then askFault (s.raise .WP_RFLAG_WLOST r) r 14 true else s
    s.each (railSlots s r) fun s j =>
      let p := slotPhase s r j
      if !s.bit .PH_PSTAT_RET p && (s.bit .FL_PHFLAG_OPEN p || s.bit .FL_PHFLAG_STUCK p) then
        phasePolicy s r p 12 2 (s.get .WP_RCFG2_PHSNSPOL r)
      else s

/-- Codes 6 and 7: an auxiliary weir out of its window asks for FAULT on the running rails of its mask (R171). -/
def auxFaults (s : State) (a : Nat) : State :=
  let w := 160 + a
  let act := s.get .WR_CTRL_AACT w
  let hit := s.bit .wrRun w && ((act == 1 && tickOut s w == 1) || (act == 2 && tickOut s w == 2))
  if !hit then s
  else
    s.each ((List.range 16).filter fun r => s.bitOf .WR_AMASK r w && railRuns s r) fun s r =>
      let s := s.raise .WP_RFLAG_AUX r
      if act == 1 then askFault (s.setBits .auxReq (2 ^ a) r) r 6 false else askFault s r 7 true

/-- Code 9 as a level: a cluster filtered active outside a probe stands under its policy (R171, R193). -/
def stageFault (s : State) (c : Nat) : State :=
  if s.bit .WP_CSTAT_TFACT c && !s.bit .PH_CSTAT_PSTATE c then stagePolicy s c else s

/-- The judgements that a boundary makes from the preceding tick (SENSE_FAULT, R171). -/
def judgeFaults (s : State) : State :=
  let s := s.each (List.range 16) senseFaults
  let s := s.each (List.range 16) auxFaults
  s.each (List.range 16) stageFault

/-! TFLTn (R168, R169). -/

/-- The cluster's pin is sampled once per tick (R168); with TFEN = 0 it is ignored. -/
def tfltSample (s : State) (c : Nat) (level : Bool) : State :=
  if !s.bit .WP_CCFG_TFEN c then
    let s := (((s.clear .tfRun c).clear .tfChg c).clear .tfAct c).clear .WP_CSTAT_TFACT c
    let s := (s.each (clusterPhases c) fun s p => s.clear .tfMid p).bump .tfIn 16 c
    s.when (s.get .tfIn c ≥ 16) (·.clear .tfStuckOn c)
  else
    let raw := bit01 (level != s.bit .WP_CCFG_TFINV c)
    let s :=
      if s.bit .tfRun c && s.get .WP_CSTAT_TFRAW c != raw then (s.bump .tfChg 8 c).put .tfRun 1 c
      else s.bump .tfRun 255 c
    let s := s.put .WP_CSTAT_TFRAW raw c
    if s.bit .WP_CSTAT_TFACT c then (s.bump .tfAct 16776960 c).clear .tfIn c
    else
      let s := (s.bump .tfIn 16 c).clear .tfAct c
      s.when (s.get .tfIn c ≥ 16) (·.clear .tfStuckOn c)

/-- The watched phase of a probe faults its stage: mid-level at once, retired with RCAUSE 6, and the probe waits again
(R193). -/
def probeAssert (s : State) (c : Nat) : State :=
  let p := 8 * c + s.nat .PH_CSTAT_PK c
  let s := refreshPhase (s.raise .tfMid p) p (tickStep s)
  let s := requestRetire s p 6
  let s := flagPub (s.raise .probeFound c) .PH_CFLAG_FOUND c (160 + c)
  s.put .PH_CSTAT_PSTATE 1 c

/-- The filtered level becomes active: mid-level on the cluster's phases and the policy, or the watched phase of a
probe (R168, R171 code 9, R193). -/
def tfltActivate (s : State) (c : Nat) : State :=
  let s := ((s.raise .WP_CSTAT_TFACT c).raise .WP_CFLAG_TFLT c).put .tfAct 1 c
  let s := ((s.clear .tfChg c).clear .tfIn c).clear .tfStkDone c
  if s.get .PH_CSTAT_PSTATE c == 2 then probeAssert s c
  else if s.get .PH_CSTAT_PSTATE c == 1 then s
  else
    let s := s.each (clusterPhases c) fun s p => refreshPhase (s.raise .tfMid p) p (tickStep s)
    stagePolicy s c

/-- TFLT_ACTIVE (R168). -/
def tfltActive (s : State) (c : Nat) : State :=
  if s.bit .WP_CCFG_TFEN c && !s.bit .WP_CSTAT_TFACT c && s.bit .WP_CSTAT_TFRAW c
      && s.bit .tfRun c && s.get .WP_CCFG_TFFILT c ≤ s.get .tfRun c then tfltActivate s c
  else s

/-- TFLT_CHATTER (R168): eight raw changes without a change of the filtered level. -/
def tfltChatter (s : State) (c : Nat) : State :=
  if s.bit .WP_CCFG_TFEN c && !s.bit .WP_CSTAT_TFACT c && s.get .tfChg c ≥ 8 then
    tfltActivate (s.raise .WP_CFLAG_TFCHAT c) c
  else s

/-- TFLT_INACTIVE (R168, R172): the filtered level becomes inactive and releases the phases that it alone held. -/
def tfltInactive (s : State) (c : Nat) : State :=
  if s.bit .WP_CSTAT_TFACT c && !s.bit .WP_CSTAT_TFRAW c && s.bit .tfRun c
      && s.get .WP_CCFG_TFFILT c ≤ s.get .tfRun c then
    let s := (((s.clear .WP_CSTAT_TFACT c).clear .tfChg c).clear .tfAct c).clear .tfStkDone c
    let s := s.put .tfIn 1 c
    if s.bit .isolReq c then s
    else s.each (clusterPhases c) fun s p => refreshPhase (s.clear .tfMid p) p (tickStep s)
  else s

/-- TFLT_STUCK (R169): the line has been filtered active for TFTMO × 256 ticks. -/
def tfltStuck (s : State) (c : Nat) : State :=
  if s.bit .WP_CSTAT_TFACT c && !s.bit .tfStkDone c && s.get .tfAct c ≥ 256 * s.get .WP_CTF c then
    let s := ((s.raise .tfStkDone c).raise .WP_CFLAG_TFSTUCK c).raise .tfStuckOn c
    if s.bit .WP_CCFG_TFSTK c then s.each (clusterRails s c) fun s r => askFault s r 9 true
    else s.each ((clusterPhases c).filter fun p => (memberOf s p).isSome) fun s p => requestRetire s p 7
  else s

/-! Cluster temperature (R170, R182). -/

/-- Temperature reversals (R182): the cluster's extreme and direction, and a counted half-cycle. -/
def halfCycle (s : State) (c : Nat) (t : Int) : State :=
  if !s.bit .hcAny c then (s.raise .hcAny c).put .hcX t c
  else
    let x := s.get .hcX c
    let fall := s.bit .hcFall c
    let dt := s.get .PH_CTCYC c
    if !fall && t > x || fall && t < x then s.put .hcX t c
    else if (if fall then t - x else x - t) ≥ dt then
      let s := (s.put .hcX t c).put .hcFall (bit01 (!fall)) c
      if s.get .tmStuckCnt c ≥ 4096 then s
      else
        s.each (clusterPhases c) fun s p =>
          match memberOf s p with
          | none => s
          | some (r, j) =>
            if s.bitOf .SL_RACT j r && railRuns s r then s.bump .PH_HCYC 0xFFFFFFFF p else s
    else s

/-- The checks of a temperature result (R170): a stuck channel counts as at or above TSHUT. -/
def overTemp (s : State) (c : Nat) (t : Int) : State :=
  let s := s.when (t ≥ s.get .WP_CTWARN c) (·.raise .WP_CFLAG_OTWARN c)
  if t ≥ s.get .WP_CTSHUT c || s.get .tmStuckCnt c ≥ 4096 then
    let s := s.bump .otCnt 255 c
    if s.get .WP_COT c ≤ s.get .otCnt c then tempPolicy (s.raise .WP_CFLAG_OTSHUT c) c else s
  else s.clear .otCnt c

/-- TEMP_SAMPLE (R51, R170, R182, R477): taken once, in a tick n with n mod 128 = 8 × c. -/
def tempSample (s : State) (c : Nat) (raw : Int) : State :=
  if s.now % 128 != 8 * (c : Int) || s.get .tmLast c == s.now || !s.bit .flumeOn then s
  else
    let t := tempValue s c raw
    halfCycle (overTemp (tempResult (s.put .tmLast s.now c) c raw) c t) c t

/-! Entering and leaving FAULT (R173 to R176). -/

/-- The codes of a mask, ascending; code 0 stands for a start timeout (R174). -/
def codesOf (m : Int) : List Nat := (List.range 16).filter fun n => bitAt m n

/-- The codes use RLEFT and RTDLY (R174): all but code 6 and the scoped code 15. -/
def usesRetries (m : Int) : Bool := (codesOf m).any fun n => n != 6 && n != 15

/-- Enter FAULT at boundary `t` with the codes of mask `m` (R173, R174, R175): the level of the FAULT response takes over from an
all-off (R167). -/
def enterFault (s : State) (r : Nat) (m : Int) (latched : Bool) (t : Int) : State :=
  let code := (codesOf m).headD 0
  let spent := !latched && usesRetries m && !s.bit .WP_RSTAT_RLEFT r
  let s := s.when spent (·.raise .WP_RFLAG_RTEXH r)
  let s := ((s.put .faultIn m r).put .faultLatched (bit01 (latched || spent)) r).put .faultAt t r
  let s := ((s.clear .auxIn r).put .auxCause (s.get .auxReq r) r).put .WP_RSTAT_FCAUSE code r
  (((s.put .faultLevel (bit01 (code == 1 && !s.bit .WP_RCFG_OVDRV r)) r).clear .ovOff r).clear .ovRun r)

/-- The auxiliary weirs that brought the rail into FAULT are INSIDE in this tick (R174 code 6); a tick of settling does not count
(R160). -/
def auxInside (s : State) (r : Nat) : Bool :=
  (List.range 16).all fun a =>
    !s.bitOf .auxCause a r || (!s.bit .WR_STAT_SETTLE (160 + a) && s.get .WR_STAT_OUT (160 + a) == 0)

/-- A tick in FAULT counts towards the return of the input (R174 code 6). -/
def auxCount (s : State) (r : Nat) : State :=
  if railState s r == stFAULT && auxInside s r then s.bump .auxIn 65520000 r else s.clear .auxIn r

/-- A stuck TFLTn blocks the retries of every rail with a member phase in its cluster (R169). -/
def retryBlocked (s : State) (r : Nat) : Bool :=
  (List.range 16).any fun c => s.bit .tfStuckOn c && (clusterRails s c).contains r

/-- The retry delay in ticks (R174). -/
def retryTicks (s : State) (r : Nat) : Int := 16000 * s.get .WP_RETRY_RTDLY r

/-- The automatic return of a rail in FAULT fires at boundary `t` (R24 row 9, R174 to R176): `leaves q` says whether
rail `q` is out of FAULT before the boundary or leaves it there. The tick before a coming boundary is counted with the others. -/
def retryDue (s : State) (r : Nat) (t : Int) (leaves : Nat → Bool) : Bool :=
  let m := s.get .faultIn r
  if s.bit .faultLatched r then false
  else
    (!bitAt m 15 || (decide (t > s.get .faultAt r) && leaves (s.nat .scopeFrom r))) &&
    (!usesRetries m || (decide (t ≥ s.get .faultAt r + retryTicks s r) && s.bit .WP_RSTAT_RLEFT r)) &&
    (!bitAt m 6 || decide (s.get .auxIn r + bit01 (s.now < t && auxInside s r) ≥ retryTicks s r)) &&
    (m == 2 ^ 15 || !retryBlocked s r)

/-- What leaving FAULT does (R174, R167): a retry spends RLEFT, an FCLR restores it, a scoped rail leaves it alone; an
absolute protection weir that still stands ABOVE drives the rail's phases in OFF. -/
def leaveFault (s : State) (r : Nat) (cleared : Bool) : State :=
  let m := s.get .faultIn r
  let s :=
    if m == 2 ^ 15 then s
    else if cleared then s.put .WP_RSTAT_RLEFT (s.get .WP_RETRY_RETRY r) r
    else if usesRetries m then s.put .WP_RSTAT_RLEFT (max 0 (s.get .WP_RSTAT_RLEFT r - 1)) r
    else s
  let s := ((s.clear .faultIn r).clear .faultLatched r).clear .auxCause r
  let w := 128 + 2 * r
  if s.bit .WR_CFG_ABS w && s.get .WR_STAT_OUT w == 2 then
    ((s.raise .ovOff r).clear .ovRun r).raise .WP_RFLAG_OVOFF r
  else s

/-- RETRY_RESTORE (R174): 160 consecutive management-tick boundaries in REGULATING restore RLEFT. -/
def retryRestore (s : State) (r : Nat) : State :=
  if s.get .regMt r ≥ 160 then s.put .WP_RSTAT_RLEFT (s.get .WP_RETRY_RETRY r) r else s

/-- Isolation of a cluster at a boundary (R173, R193): its phases leave their active sets, those that were active are
to be probed, and an over-current retirement of the same tick gives way (R177). -/
def isolateCluster (s : State) (c : Nat) : State :=
  if !s.bit .isolReq c then s
  else
    let s := (((s.clear .isolReq c).raise .WP_CSTAT_ISOL c).put .PH_CSTAT_PSTATE 1 c).clear .probeFound c
    let s := (s.clear .noidMt c).put .tfIn (bit01 (!s.bit .WP_CSTAT_TFACT c)) c
    let s := s.each (clusterPhases c) fun s p =>
      let was := phaseActive s p && !s.bit .PH_PSTAT_RET p
      let s := ((s.raise .isolated p).clear .tfMid p).clrBits .retReq (2 ^ 1) p
      let s := ((s.put .probed (bit01 was) p).put .probeAll (bit01 was) p).clear .probeSkip p
      match memberOf s p with
      | none => s
      | some (r, j) =>
        let s := s.clrBits .addReq (2 ^ j) r
        if s.bitOf .SL_RACT j r then leaveActive s r j else s
    s.each (clusterRails s c) activeChanged

def execTempSample (c : Cluster) (raw : BitVec 12) (s : State) : Out := .next (tempSample s c raw.toNat)
def execOvPersistence (r : Rail) (s : State) : Out := .next (ovPersistence s r)
def execUvPersistence (r : Rail) (s : State) : Out := .next (uvPersistence s r)
def execRocPersistence (r : Rail) (s : State) : Out := .next (rocPersistence s r)
def execPhaseOcCount (p : Phase) (s : State) : Out := .next (phaseOcCount s p)
def execLoopSaturation (r : Rail) (s : State) : Out := .next (loopSaturation s r)
def execTfltActive (c : Cluster) (s : State) : Out := .next (tfltActive s c)
def execTfltInactive (c : Cluster) (s : State) : Out := .next (tfltInactive s c)
def execTfltChatter (c : Cluster) (s : State) : Out := .next (tfltChatter s c)
def execTfltStuck (c : Cluster) (s : State) : Out := .next (tfltStuck s c)
def execRetryRestore (r : Rail) (s : State) : Out := .next (retryRestore s r)

end Sys2Proof.Machine
end

