-- ==== Sys2Proof/Machine/Health.lean ====
section
/-! DEFINITION. Phase health, wear accounting and spares (07_phase_health_spares.md, R181 to R195). -/
namespace Sys2Proof.Machine

/-- A PH_RFLAG bit of a rail becomes set and publishes (R196, R478). -/
def healthFlag (s : State) (f : Fld) (r : Nat) : State := flagPub s f r (144 + r)

/-- Phase `p` adds the magnitude of its MEAN to its 72-bit charge accumulator (R181). -/
def addCharge (s : State) (p : Nat) : State :=
  let acc := min (2 ^ 72 - 1) (s.get .PH_CHG p * 2 ^ 40 + s.get .chgLow p + absI (s.get .FL_PHMEAN p))
  (s.put .PH_CHG (shr acc 40) p).put .chgLow (acc % 2 ^ 40) p

/-- Stress accounting of one tick on rail `r` (R181, R185). -/
def stressAccumulate (s : State) (r : Nat) : State :=
  if railRuns s r then
    s.each ((railSlots s r).filter fun j => !s.bit .PH_PSTAT_RET (slotPhase s r j)) fun s j =>
      addCharge s (slotPhase s r j)
  else s

/-- PH_STARTS counts for the active set of a rail that enters RAMP_UP (R183). -/
def countStarts (s : State) (r : Nat) : State :=
  s.each (activeSlots s r) fun s j => s.bump .PH_STARTS 0xFFFFFFFF (slotPhase s r j)

/-- The stress of a phase (R184). -/
def stressOf (s : State) (p : Nat) : Int :=
  satU 32 (s.get .PH_CHG p * s.get .PH_WCHG + s.get .PH_HCYC p * s.get .PH_WCYC + s.get .PH_STARTS p * s.get .PH_WSTART)

/-- The sort key of a slot's rank (R186): spares that do not substitute after all others, then stress, then slot. -/
def rankKey (s : State) (r j : Nat) : Nat × Int × Nat :=
  let p := slotPhase s r j
  if s.bit .PH_PSTAT_SPARE p && !s.bit .PH_PSTAT_SUBV p then (1, 0, j) else (0, s.get .PH_STRESS p, j)

/-- The order of rank keys. -/
def keyLt (a b : Nat × Int × Nat) : Bool :=
  a.1 < b.1 || (a.1 = b.1 && (a.2.1 < b.2.1 || (a.2.1 = b.2.1 && a.2.2 < b.2.2)))

/-- Put a key in its place. -/
def keyInsert (k : Nat × Int × Nat) : List (Nat × Int × Nat) → List (Nat × Int × Nat)
  | [] => [k]
  | x :: t => if keyLt k x then k :: x :: t else x :: keyInsert k t

/-- The unretired member slots of a rail in rank order (R186). -/
def rankOrder (s : State) (r : Nat) : List Nat :=
  let live := (railSlots s r).filter fun j => !s.bit .PH_PSTAT_RET (slotPhase s r j)
  ((live.map (rankKey s r)).foldl (fun l k => keyInsert k l) []).map fun k => k.2.2

/-- Report the ranks and the counts of retired and available phases (R186, R196). -/
def rankRail (s : State) (r : Nat) : State :=
  let order := rankOrder s r
  let slots := railSlots s r
  let s := s.each slots fun s j => s.put .PH_RANK 127 (slotPhase s r j)
  let s := s.each order.zipIdx fun s e => s.put .PH_RANK e.2 (slotPhase s r e.1)
  let s := s.put .PH_RSTAT_NRET (slots.filter fun j => s.bit .PH_PSTAT_RET (slotPhase s r j)).length r
  s.put .PH_RSTAT_NSPAV (slots.filter fun j =>
    let p := slotPhase s r j
    s.bit .PH_PSTAT_SPARE p && !s.bit .PH_PSTAT_RET p && !s.bit .PH_PSTAT_SUBV p).length r

/-- After a change of membership: a phase of no rail reads 127, and every rail is ranked and counted (R186, R196, R406). -/
def rankAll (s : State) : State :=
  let s := s.each ((List.range 128).filter fun p => (memberOf s p).isNone) fun s p => s.put .PH_RANK 127 p
  s.each (List.range 16) rankRail

/-- The slots of a rail in the order of their reported ranks. -/
def rankedSlots (s : State) (r : Nat) : List Nat :=
  (List.range 64).filterMap fun m => (railSlots s r).find? fun j => s.nat .PH_RANK (slotPhase s r j) == m

/-- The add order (R186): the rank order over the inactive slots; isolated slots are not in it (R192). -/
def addOrder (s : State) (r : Nat) : List Nat :=
  (rankedSlots s r).filter fun j => !s.bitOf .SL_RACT j r && !s.bit .isolated (slotPhase s r j)

/-- The drop order (R186): the rank order over the active slots, reversed. -/
def dropOrder (s : State) (r : Nat) : List Nat := ((rankedSlots s r).filter fun j => s.bitOf .SL_RACT j r).reverse

/-- The phase lies in a cluster whose probe runs (R193). -/
def probing (s : State) (p : Nat) : Bool := s.bit .PH_CSTAT_PSTATE (p / 8)

/-- The rail's planned current in whole IQ, rounded up (R187). -/
def plannedIq (s : State) (r : Nat) : Int := ceilDiv (planned s r) 16

/-- The shedding engine's evaluation of a tick (R187): adds are requested at once, the drop test is counted. -/
def shedEvaluate (s : State) (r : Nat) : State :=
  if railState s r != stREG || !s.bit .PH_SHCFG_SHEN r then s.clear .shCnt r
  else
    let n : Int := (activeSlots s r).length
    let i := plannedIq s r
    let add := s.get .PH_SHADD r
    if i > n * add then
      let s := s.clear .shCnt r
      let cand := ((addOrder s r).filter fun j => !probing s (slotPhase s r j)).take (ceilDiv i add - n).toNat
      if cand.isEmpty then s
      else
        let s := s.each cand fun s j => s.setBits .addReq (2 ^ j) r
        healthFlag s .PH_RFLAG_SHADD r
    else if i < (n - 1) * s.get .PH_SHDROP r && n - 1 ≥ max (nMin s r) (s.get .PH_SHCFG_NFLOOR r) then
      s.bump .shCnt 0xFFFF r
    else s.clear .shCnt r

/-- SHED_DWELL_EXPIRY (R187): the drop test has held for SHDWELL ticks; the first slot of the drop order is dropped. -/
def shedDwell (s : State) (r : Nat) : State :=
  if !s.bit .shCnt r || s.get .shCnt r < s.get .PH_SHDWELL r then s
  else
    let s := s.clear .shCnt r
    match (dropOrder s r).find? fun j => !probing s (slotPhase s r j) with
    | none => s
    | some j => healthFlag (s.setBits .dropReq (2 ^ j) r) .PH_RFLAG_SHDROP r

/-! Retirement and substitution (R188 to R192). -/

/-- The FCAUSE that an empty rail takes from a retirement cause (R191). -/
def emptyCode (cause : Nat) : Nat := if cause = 1 then 4 else if cause = 6 || cause = 7 || cause = 11 then 9 else 12

/-- The configured spares that may replace a phase (R190, steps 1 and 3). -/
def freeSpare (s : State) (r : Nat) (active : Bool) : Option Nat :=
  (railSlots s r).find? fun j =>
    let p := slotPhase s r j
    s.bit .PH_PSTAT_SPARE p && s.bitOf .SL_RACT j r == active && !s.bit .PH_PSTAT_RET p && !s.bit .PH_PSTAT_SUBV p
      && !s.bit .isolated p

/-- Mark slot `j` as substituting for phase `p` (R190). -/
def markSubstitute (s : State) (r j p : Nat) : State :=
  let q := slotPhase s r j
  healthFlag ((s.raise .PH_PSTAT_SUBV q).put .PH_PSTAT_SUBFOR p q) .PH_RFLAG_SUBST r

/-- Choose the replacement of retired phase `p` (R190); answers whether a slot was added. -/
def substitute (s : State) (r p : Nat) : State × Bool :=
  match freeSpare s r false with
  | some j => (markSubstitute (enterActive s r j) r j p, true)
  | none =>
    match (addOrder s r).find? fun j => !s.bit .PH_PSTAT_RET (slotPhase s r j) with
    | some j => (enterActive s r j, true)
    | none =>
      match freeSpare s r true with
      | some j => (markSubstitute s r j p, false)
      | none => (healthFlag s .PH_RFLAG_NOSPARE r, false)

/-- The phase becomes retired (R188, R189): its cause is the lowest that reached it; a substituting spare's mark
clears (R192). -/
def markRetired (s : State) (p : Nat) : State :=
  let s := ((s.raise .PH_PSTAT_RET p).put .retAt s.now p).put .PH_PSTAT_RCAUSE ((codesOf (s.get .retReq p)).headD 0) p
  (s.clear .PH_PSTAT_SUBV p).clear .PH_PSTAT_SUBFOR p

/-- A retired phase leaves the active set and is replaced (R189, R190, R191). -/
def replaceRetired (s : State) (r j : Nat) : State :=
  let p := slotPhase s r j
  if !s.bitOf .SL_RACT j r then s
  else
    let (s, added) := substitute (leaveActive s r j) r p
    if !added && ((activeSlots s r).length : Int) < nMin s r then healthFlag s .PH_RFLAG_BELOWMIN r else s

/-- The retirements of one rail at a boundary (R188 to R192), in ascending phase number. -/
def retireRail (s : State) (r : Nat) : State :=
  let want := (railSlots s r).filter fun j =>
    s.bit .retReq (slotPhase s r j) && !s.bit .PH_PSTAT_RET (slotPhase s r j)
  if want.isEmpty then s
  else
    let order := (List.range 128).filterMap fun p => want.find? fun j => slotPhase s r j == p
    let causes := order.map fun j => (codesOf (s.get .retReq (slotPhase s r j))).headD 0
    let s := s.each order fun s j => markRetired s (slotPhase s r j)
    let s := s.each order fun s j => replaceRetired s r j
    let s := activeChanged (rankRail s r) r
    let s := refreshRail s r (tickStep s)
    if (railSlots s r).all fun j => s.bit .PH_PSTAT_RET (slotPhase s r j) then
      s.each causes fun s c => askFault (healthFlag s .PH_RFLAG_EMPTY r) r (emptyCode c) true
    else s

/-- Cleared retirements re-enter as inactive slots (R189). -/
def unretireRail (s : State) (r : Nat) : State :=
  let back := (railSlots s r).filter fun j => s.bit .unretReq (slotPhase s r j)
  if back.isEmpty then s
  else
    rankRail (s.each back fun s j =>
      let p := slotPhase s r j
      ((s.clear .unretReq p).clear .PH_PSTAT_RET p).clear .PH_PSTAT_RCAUSE p) r

/-- The same for a phase that is a member of no rail: nothing else depends on it. -/
def retireLoose (s : State) (p : Nat) : State :=
  if (memberOf s p).isSome then s
  else
    let s := s.when (s.bit .unretReq p) fun s => (s.clear .PH_PSTAT_RET p).clear .PH_PSTAT_RCAUSE p
    s.when (s.bit .retReq p && !s.bit .PH_PSTAT_RET p) fun s => refreshPhase (markRetired s p) p (tickStep s)

/-- Retirements and their reversals at a boundary, on every rail and on the phases of none. -/
def retireBoundary (s : State) : State :=
  let s := s.each (List.range 16) unretireRail
  let s := s.each (List.range 16) retireRail
  let s := s.each (List.range 128) retireLoose
  s.each (List.range 128) fun s p => (s.clear .retReq p).clear .unretReq p

/-- RETIRE (R185, R188): a write of PH_PCTL.RETIRE with cause RCIN; a write with RCIN 12 to 15 is not stored. -/
def retirePhase (s : State) (p rcin : Nat) : State :=
  if rcin > 11 then s.raise .PH_STATUS_CFGERR
  else if s.bit .PH_CTRL_LOCK then requestRetire s p 9
  else requestRetire s p (if rcin = 0 then 10 else rcin)

/-- UNRET (R189): accepted while the phase's rail is UNUSED, OFF or RESTRUCTURE. -/
def unretPhase (s : State) (p : Nat) : State :=
  match railOf s p with
  | none => s.raise .unretReq p
  | some r =>
    if railState s r == stUNUSED || railState s r == stOFF || railState s r == stRESTR then s.raise .unretReq p
    else s.raise .PH_STATUS_CFGERR

/-! The cluster probe (R193). -/

/-- The probe returns phase `p` to service: it is no longer isolated and is added at the next boundary. -/
def returnPhase (s : State) (p : Nat) : State :=
  let s := (s.clear .isolated p).clear .tfMid p
  match memberOf s p with
  | none => s
  | some (r, j) => if s.bit .PH_PSTAT_RET p then s else s.setBits .addReq (2 ^ j) r

/-- The end of a probe (R193). -/
def probeEnd (s : State) (c : Nat) : State :=
  let s := s.each (clusterPhases c) fun s p =>
    let s := if s.bit .probeSkip p then returnPhase (s.clear .probeSkip p) p else s
    refreshPhase (((s.clear .isolated p).clear .tfMid p).clear .probed p) p (tickStep s)
  let s := ((s.clear .WP_CSTAT_ISOL c).clear .PH_CSTAT_PSTATE c).clear .noidMt c
  if s.bit .probeFound c then s.clear .PH_CSTAT_NOIDC c
  else
    let again := s.bit .PH_CSTAT_NOIDC c
    let s := (flagPub s .PH_CFLAG_NOID c (160 + c)).bump .PH_CSTAT_NOIDC 3 c
    if again then s.each ((clusterPhases c).filter fun p => s.bit .probeAll p) fun s p => requestRetire s p 11 else s

/-- The probe moves to its next phase, or ends (R193): retired phases are passed over, and a phase whose rail has left
REGULATING and RAMP_UP is skipped. -/
def probeNext (s : State) (c : Nat) : List Nat → State
  | [] => probeEnd s c
  | p :: rest =>
    if !s.bit .probed p then probeNext s c rest
    else
      let s := s.clear .probed p
      if s.bit .PH_PSTAT_RET p || s.bit .retReq p then probeNext s c rest
      else match railOf s p with
        | none => probeNext s c rest
        | some r =>
          if railState s r == stREG || railState s r == stRAMPUP then
            let s := (s.put .PH_CSTAT_PSTATE 2 c).put .PH_CSTAT_PK (p % 8) c
            refreshPhase (returnPhase (s.put .probeFrom (s.now + 1) c) p) p (tickStep s)
          else probeNext (s.raise .probeSkip p) c rest

/-- PROBE_WAIT_END (R193): TFLTn has been filtered-inactive for 16 consecutive ticks. -/
def probeWaitEnd (s : State) (c : Nat) : State :=
  if s.get .PH_CSTAT_PSTATE c == 1 && !s.bit .WP_CSTAT_TFACT c && s.get .tfIn c ≥ 16 then
    probeNext s c (clusterPhases c)
  else s

/-- PROBE_WATCH_END (R193): the watched phase has passed PRBT × 16 ticks and stays in service. -/
def probeWatchEnd (s : State) (c : Nat) : State :=
  if s.get .PH_CSTAT_PSTATE c == 2 && s.now + 1 ≥ s.get .probeFrom c + 16 * s.get .PH_CPRB c then
    probeNext s c (clusterPhases c)
  else s

/-! Management-tick work and the summary (R184, R195). -/

/-- Stress of every member phase, and the ranks (R184, R186). -/
def stressRank (s : State) : State :=
  s.each (List.range 16) fun s r =>
    rankRail (s.each (railSlots s r) fun t j => t.put .PH_STRESS (stressOf s (slotPhase s r j)) (slotPhase s r j)) r

/-- A management-tick boundary without an isolation of the cluster; 160 of them end the NOID count (R193). -/
def noidBoundary (s : State) (c : Nat) : State :=
  if s.bit .WP_CSTAT_ISOL c then s
  else
    let s := s.bump .noidMt 160 c
    s.when (s.get .noidMt c ≥ 160) (·.clear .PH_CSTAT_NOIDC c)

/-- A mask of the indices below `n` that satisfy a test. -/
def maskOf (n : Nat) (f : Nat → Bool) : Int := sumI ((List.range n).map fun i => if f i then (2 ^ i : Int) else 0)

/-- The number of the indices below `n` that satisfy a test. -/
def countOf (n : Nat) (f : Nat → Bool) : Int := ((List.range n).filter f).length

/-- Word `w` of the spare-use summary (R195). -/
def summaryWord (s : State) (w : Nat) : Int :=
  let ret := fun p => s.bit .PH_PSTAT_RET p
  let sub := fun p => s.bit .PH_PSTAT_SUBV p
  if w = 0 then 1
  else if w = 1 then countOf 128 ret + 256 * countOf 128 sub
  else if w < 10 then maskOf 16 fun b => ret (16 * (w - 2) + b)
  else if w < 18 then maskOf 16 fun b => sub (16 * (w - 10) + b)
  else if w = 18 then maskOf 16 fun c => s.bit .FL_CLSTAT_NOSPARE c
  else if w = 19 then maskOf 16 fun c => s.bit .SL_CEG_SPUSE c
  else if w = 20 then s.get .WP_STATUS_SPUSE + 256 * maskOf 2 fun g => s.bit .FL_VGSTAT_NOSPARE g
  else if w = 21 then
    countOf 144 (fun k => s.bitOf .FL_CLFAIL (k % 9) (k / 9)) + 256 * countOf 18 fun v => s.bitOf .FL_VFAIL v
  else if w = 22 then
    countOf 144 (fun k => s.bitOf .SL_CEG_FAIL (k % 9) (k / 9)) +
      256 * (countOf 176 (fun w => s.bit .WR_STAT_FAIL w) + countOf 8 fun k => s.bitOf .WP_SPFAIL k)
  else if w = 23 then
    maskOf 5 (fun n => s.get .LS_PAIR_STATE n == 2) + 32 * bit01 (s.get .LS_PAIR_DUTY 4 < 4) +
      64 * bit01 (s.get .LS_PAIR_STATE 5 == 2)
  else if w = 24 then sumI ((List.range 7).map fun m => s.get .MS_REP_REPUSED m)
  else if w = 25 then s.get .D4_NRET
  else if w = 26 then s.get .OT_STATUS_KSPROG + 16 * maskOf 4 fun k => s.bit .OT_CNT_B1 k
  else 0

/-- The summary is assembled (R195). -/
def summaryAssemble (s : State) : State :=
  (s.each (List.range 32) fun t w => t.put .PH_SUM (summaryWord s w) w).clear .PH_STATUS_SUMBUSY

/-- SNAP (R195). -/
def snapStart (s : State) : State := (s.raise .PH_STATUS_SUMBUSY).raise .snapReq

/-- SUMMARY_DONE (R195): within 64 fabric cycles of SNAP the summary stands. -/
def summaryDone (s : State) : State := if s.bit .snapReq then summaryAssemble (s.clear .snapReq) else s

def execShedDwellExpiry (r : Rail) (s : State) : Out := .next (shedDwell s r)
def execCountLock (s : State) : Out := .next (s.raise .PH_CTRL_LOCK)
def execSnap (s : State) : Out := .next (snapStart s)
def execSummaryDone (s : State) : Out := .next (summaryDone s)
def execRetire (p : Phase) (rcin : BitVec 4) (s : State) : Out := .next (retirePhase s p rcin.toNat)
def execUnret (p : Phase) (s : State) : Out := .next (unretPhase s p)
def execProbeWaitEnd (c : Cluster) (s : State) : Out := .next (probeWaitEnd s c)
def execProbeWatchEnd (c : Cluster) (s : State) : Out := .next (probeWatchEnd s c)

end Sys2Proof.Machine
end

