-- ==== Sys2Proof/Machine/Demand.lean ====
section
/-! DEFINITION. Demand lanes and forecasts (05_transients_forecast.md, R124 to R155): flits, lane states, epochs, the
messages of the load and the device, admission and grants, the pre-ramp, met, missed and cancelled forecasts, and
fallback. -/
namespace Sys2Proof.Machine

/-! Flits (R127 to R129). -/

/-- One step of the CRC of R128. -/
def crcStep (reg : BitVec 16) (b : Bool) : BitVec 16 :=
  let sh := reg <<< 1
  if reg.msb != b then sh ^^^ 0x1021#16 else sh

/-- The CRC-16 of a flit's bits 111 to 0, from bit 0 (R128). -/
def flitCrc (f : BitVec 128) : BitVec 16 :=
  (List.range 112).foldl (fun reg i => crcStep reg (f.getLsbD i)) 0xFFFF#16

/-- A field of a flit. -/
def flitField (f : BitVec 128) (hi lo : Nat) : Nat := (f.toNat / 2 ^ lo) % 2 ^ (hi + 1 - lo)
def flitType (f : BitVec 128) : Nat := flitField f 3 0
def flitEpoch (f : BitVec 128) : Nat := flitField f 7 4
def flitSeq (f : BitVec 128) : Nat := flitField f 15 8

/-- The flit's CRC matches (R128). -/
def flitGood (f : BitVec 128) : Bool := flitCrc f == f.extractLsb' 112 16

/-- A flit of the device: header, body and CRC (R127, R128). -/
def makeFlit (typ epoch seq body : Nat) : BitVec 128 :=
  let x : BitVec 128 := BitVec.ofNat 128 (typ % 16 + 16 * (epoch % 16) + 256 * (seq % 256) + 2 ^ 16 * (body % 2 ^ 96))
  x ||| ((flitCrc x).setWidth 128 <<< 112)

/-! Lanes and domains (R14, R130). -/

/-- The lane states of R130. -/
def lnOFF : Int := 0
def lnTRAIN : Int := 1
def lnACQUIRE : Int := 2
def lnRUN : Int := 3

/-- The state of lane `l`. -/
def laneState (s : State) (l : Nat) : Int := s.get .DL_STATE_STATE l

/-- The domain that lane `l` is bound to (R14). -/
def laneDomain (s : State) (l : Nat) : Option Nat :=
  (List.range 8).find? fun d => s.bit .DM_DOMCFG_LANEV d && s.nat .DM_DOMCFG_LANE d == l

/-- The lane of domain `d`. -/
def domainLane (s : State) (d : Nat) : Option Nat :=
  if s.bit .DM_DOMCFG_LANEV d then some (s.nat .DM_DOMCFG_LANE d) else none

/-- The grant requests of the domain answer TIMEOUT: its domain set is under takeover (R153, R336), or no pair in
service holds its duties (R338). -/
def noGrants (s : State) (d : Nat) : Bool :=
  (s.bit .LS_STATUS_TKOVER && s.get .LS_STATUS_TKFOR == s.get .domSet d) ||
  !((List.range 5).any fun k => s.get .LS_PAIR_DUTY k == s.get .domSet d &&
      (s.get .LS_PAIR_STATE k == 0 || s.get .LS_PAIR_STATE k == 2 || s.get .LS_PAIR_STATE k == 4))

/-- Queue a flit for transmission (R139): 32 per lane; an ACK or GRANT that finds the queue full sets TXOVF. -/
def queueFlit (s : State) (l typ body : Nat) : State :=
  if (s.txFlits.filter fun t => t.lane = l).length ≥ 32 then
    if typ = 9 || typ = 10 then s.raise .DL_FLAG_TXOVF l else s
  else { s with txFlits := s.txFlits ++ [⟨l, typ, body⟩] }

/-- The device's HELLO: the domain's number and the mask of its rails (R131). -/
def queueHello (s : State) (l : Nat) : State :=
  match laneDomain s l with
  | none => s
  | some d => queueFlit s l 8 (d + 2 ^ 4 * ((domainRails s d).foldl (fun m r => m + 2 ^ r) 0))

/-- Statuses of R138. -/
def fsACCEPTED := 0
def fsREDUCED := 1
def fsREFUSED := 2
def fsFULL := 3
def fsBADRAIL := 4
def fsDISABLED := 5
def fsLATE := 6
def fsBADMSG := 7
def fsBOUND := 8
def fsTIMEOUT := 9
def fsMET := 10
def fsMISSED := 11
def fsCANCELLED := 12
def fsNOREF := 13

/-- The shift between command LSBs and 0.25 A on a rail (R140). -/
def quarterShift (s : State) (r : Nat) : Nat := 7 - s.nat .DM_RAILCFG_IQSEL r

/-- An ACK (type 9) or GRANT (type 10) of domain `d` (R137); it is sent in RUN only. -/
def reply (s : State) (d typ refseq status r : Nat) (amount : Int) : State :=
  match domainLane s d with
  | none => s
  | some l =>
    if laneState s l != lnRUN then s
    else
      queueFlit s l typ (refseq % 256 + 2 ^ 8 * status + 2 ^ 12 * r +
        2 ^ 16 * (unsigned 16 (shr amount (quarterShift s r))).toNat + 2 ^ 32 * (unsigned 16 s.now).toNat)

/-! Slots (R142, R144, R152). -/

/-- The slot states of R152. -/
def slFREE : Int := 0
def slGPEND : Int := 1
def slWAIT : Int := 2
def slRAMP : Int := 3
def slHOLD : Int := 4
def slUNWIND : Int := 5

def slotState (s : State) (d k : Nat) : Int := s.get .DD_SSTAT_STATE d k
def slotRail (s : State) (d k : Nat) : Nat := s.nat .DD_SSTAT_RAIL d k

/-- DD_GREQ shows the oldest slot in GPEND, and the domain's grant-request channel is published for each request that it comes to
show (R144, R478). -/
def showRequest (s : State) (d : Nat) : State :=
  let wait := (List.range 8).filter fun k => slotState s d k == slGPEND
  match wait.find? fun k => wait.all fun j => s.get .slOrd d k ≤ s.get .slOrd d j with
  | none => (s.clear .DD_GREQ_PEND d).clear .greqShown d
  | some k =>
    let ord := s.get .slOrd d k + 1
    let fresh := s.get .greqShown d != ord
    let s := ((s.raise .DD_GREQ_PEND d).put .DD_GREQ_SLOT k d).put .DD_GREQ_RAIL (slotRail s d k) d
    let s := ((s.put .DD_GREQDI (s.get .slReq d k) d).put .DD_GREQMAX (s.get .slAdm d k) d).put .greqShown ord d
    s.when fresh (hwPublish · (176 + d))

/-- The commitment of a slot ends (R142). -/
def releaseSlot (s : State) (d k : Nat) : State :=
  { s with commits := s.commits.filter fun c => c.source ≠ .slot d k }

/-- A slot becomes FREE (R142, R152). -/
def freeSlot (s : State) (d k : Nat) : State :=
  let s := releaseSlot (((s.put .DD_SSTAT_STATE slFREE d k).clear .DD_SCON d k).clear .slMet d k) d k
  showRequest s d

/-- The integrator takes over a contribution (R148): limited to 40 bits, then to the clamps of the active bank. -/
def transfer (s : State) (r : Nat) (con : Int) : State :=
  let b := s.nat .LN_STATUS_ACTBANK r
  let sum := satS 40 (s.get .lnInteg r + shl con 17)
  let v := clampTo (shl (s.get .LN_IMIN r b) 17) (shl (s.get .LN_IMAX r b) 17) sum
  let s := laneFlagIf s (v != sum) r lnINTCLP
  (s.put .lnInteg v r).put .LN_INTEG (shr (v + 2 ^ 16) 17) r

/-- The largest number of steps of `step` IQ, up to `n`, whose sum R19 admits (R141). -/
def maxSteps (s : State) (r : Nat) (step : Int) (n : Int) : Int :=
  [14, 13, 12, 11, 10, 9, 8, 7, 6, 5, 4, 3, 2, 1, 0].foldl (fun acc (b : Nat) =>
    let t := acc + 2 ^ b
    if t ≤ n && admissible s r (t * step) then t else acc) 0

/-- The amount admitted of `want` command LSBs: a multiple of 0.25 A (R140, R141). -/
def grantable (s : State) (r : Nat) (want : Int) : Int :=
  let sh := quarterShift s r
  maxSteps s r (2 ^ (sh - 4)) (shr want sh) * 2 ^ sh

/-- The forecast engine's additions for a raised N_min (R145). -/
def forecastAdds (s : State) (r : Nat) : State :=
  let need := (nMin s r - (activeSlots s r).length).toNat
  let cand := (addOrder s r).take need
  let s := s.each cand fun s j => s.setBits .addReq (2 ^ j) r
  if cand.length < need then s.raise .LN_FCFLAG_NOADD r else s

/-- A slot runs as an admitted announcement of `amt` command LSBs (R141, R142, R144), or is refused. -/
def startSlot (s : State) (d k typ : Nat) (amt : Int) (late : Bool) : State :=
  let r := slotRail s d k
  let seq := s.nat .DD_SSTAT_SEQ d k
  if amt == 0 then freeSlot (reply s d typ seq fsREFUSED r 0) d k
  else
    let s := reply s d typ seq (if amt == s.get .slReq d k then fsACCEPTED else fsREDUCED) r amt
    let s := (s.put .slDi (if typ == 9 then s.get .slReq d k else amt) d k).put .DD_SDI amt d k
    let s := s.put .DD_SSTAT_STATE slWAIT d k
    let s := { s with commits := s.commits ++ [⟨r, max 0 (shr amt 4), .slot d k⟩] }
    let s := if late && s.get .slS d k ≤ s.now then
        (s.put .slS (s.now + 1) d k).put .DD_SS (unsigned 32 (s.now + 1)) d k else s
    let s := showRequest s d
    if amt > 0 then forecastAdds s r else s

/-- The lane and domain of a received flit, when the lane is in RUN, the flit bears its epoch and its SEQ is new
(R131, R132): the state with the sequence number taken, else the state with the discard counted. -/
def acceptFlit (s : State) (l : Nat) (f : BitVec 128) : State × Option Nat :=
  let st := laneState s l
  if st != lnRUN && st != lnACQUIRE then (s, none)
  else
    let s := s.clear .crcRun l
    if st != lnRUN || (flitEpoch f : Int) != s.get .DL_STATE_EPOCH l then
      ((s.bump .DL_STALECNT 0xFFFF l).raise .DL_FLAG_STALE l, none)
    else
      let dlt := ((flitSeq f : Int) - s.get .DL_STATE_RXSEQ l) % 256
      if dlt == 0 || dlt ≥ 128 then ((s.bump .DL_DUPCNT 0xFFFF l).raise .DL_FLAG_DUP l, none)
      else
        let s := if dlt > 1 then (s.bump .DL_LOSTCNT 0xFFFF l 0 (dlt - 1)).raise .DL_FLAG_GAP l else s
        ((s.put .DL_STATE_RXSEQ (flitSeq f) l).put .katAt s.now l, laneDomain s l)

/-- A forecast message's rail is refused (R138, R155). -/
def badForecastRail (s : State) (d r : Nat) : Bool :=
  r ≥ 16 || oldState s r != stREG || s.get .DM_RAILCFG_DOMAIN r != d

/-- The post of a forecast (R134, R141, R143, R144), `ago` ticks after its arrival tick and before the F3 of the present tick, which is
then its first usable tick. -/
def postForecast (s : State) (d : Nat) (f : BitVec 128) (ago : Nat) : State :=
  let ask := flitField f 20 20 = 1
  let typ := if ask then 10 else 9
  let r := flitField f 19 16
  let seq := flitSeq f
  let di := signed 16 (flitField f 39 24)
  let lead : Int := flitField f 55 40
  let rise : Int := flitField f 71 56
  let hold : Int := flitField f 87 72
  let first := s.now
  let moment := s.now - ago + lead
  if di == 0 then
    let s := match domainLane s d with | some l => s.raise .DL_FLAG_BADMSG l | none => s
    reply s d typ seq fsBADMSG r 0
  else if badForecastRail s d r then reply s d typ seq fsBADRAIL r 0
  else if !s.bit .LN_CTRL_FFEN r then reply s d typ seq fsDISABLED r 0
  else if moment < first then reply s d typ seq fsLATE r 0
  else if ask && di > 0 && !s.bit .DD_CFG_GAUTO d && noGrants s d then reply s d typ seq fsTIMEOUT r 0
  else match (List.range 8).find? fun k => slotState s d k == slFREE with
    | none => reply s d typ seq fsFULL r 0
    | some k =>
      let want := di * 2 ^ quarterShift s r
      let e := moment + rise - s.get .LN_FCCFG_ADV r
      let st := max (e - max rise (s.get .LN_FCCFG_PRAMP r)) first
      let dl := moment + rise + hold
      let amt := if di < 0 then want else grantable s r want
      let s := (s.put .DD_SSTAT_RAIL r d k).put .DD_SSTAT_SEQ seq d k
      let s := ((s.put .slS st d k).put .slE e d k).put .slDl dl d k
      let s := ((s.put .DD_SS (unsigned 32 st) d k).put .DD_SE (unsigned 32 e) d k).put .DD_SDL (unsigned 32 dl) d k
      let s := ((s.put .slReq want d k).put .slAdm amt d k).put .slPost s.now d k
      let s := ((s.put .DD_SILE0 (s.get .LN_ILE r) d k).clear .DD_SCON d k).clear .DD_SDI d k
      if ask && di > 0 && !s.bit .DD_CFG_GAUTO d then
        let s := (s.put .DD_SSTAT_STATE slGPEND d k).put .slOrd (s.get .greqCtr d) d k
        showRequest (s.put .greqCtr (s.get .greqCtr d + 1) d) d
      else startSlot s d k typ amt false

/-- The post of a forecast complete at the end of fabric cycle `cyc` (R143): one that completes at the coming boundary is made there,
after the rails have been evaluated (R155). -/
def takeForecast (s : State) (d : Nat) (f : BitVec 128) (ago cyc : Nat) : State :=
  if cyc ≤ 2 then postForecast s d f ago
  else
    let n := s.nat .postNum
    ((s.put .postNum (n + 1)).put .postFlit f.toNat n).put .postFrom (8 * ago + d) n

/-- The posts that complete at the boundary, in the order of their arrival (R141, R143). -/
def postStage (s : State) : State :=
  (s.each (List.range (s.nat .postNum)) fun s n =>
    let x := s.nat .postFrom n
    postForecast s (x % 8) (BitVec.ofNat 128 (s.nat .postFlit n)) (x / 8 + 1)).clear .postNum

/-- A cancellation (R134, R151, R155). The RAIL of a NOREF, which concerns no slot, is 0 (DESIGN CHOICE, log entry 117). -/
def cancelForecast (s : State) (d : Nat) (f : BitVec 128) : State :=
  let cseq := flitField f 95 88
  let live := fun k =>
    let st := slotState s d k
    (st == slGPEND || st == slWAIT || st == slRAMP || st == slHOLD) && s.get .DD_SSTAT_SEQ d k == cseq
  match (List.range 8).find? live with
  | none => reply s d 9 (flitSeq f) fsNOREF 0 0
  | some k =>
    let t := reply s d 9 cseq fsCANCELLED (slotRail s d k) 0
    if slotState s d k == slGPEND then freeSlot t d k
    else (t.put .DD_SSTAT_STATE slUNWIND d k).clear .slMet d k

/-- What the FORECAST command takes: a good flit of type 2 with neither ASK nor CANCEL (R134). -/
def isForecast (f : BitVec 128) : Bool :=
  flitGood f && flitType f = 2 && flitField f 21 21 = 0 && flitField f 20 20 = 0
/-- What the GRANT_REQUEST command takes: ASK = 1. -/
def isGrantRequest (f : BitVec 128) : Bool :=
  flitGood f && flitType f = 2 && flitField f 21 21 = 0 && flitField f 20 20 = 1
/-- What the FORECAST_CANCEL command takes: CANCEL = 1. -/
def isCancel (f : BitVec 128) : Bool := flitGood f && flitType f = 2 && flitField f 21 21 = 1

/-- FORECAST (R141). -/
def forecast (s : State) (l : Nat) (f : BitVec 128) (ago cyc : Nat) : State :=
  if !isForecast f then s
  else match acceptFlit s l f with
    | (s, none) => s
    | (s, some d) => takeForecast s d f ago cyc

/-- GRANT_REQUEST (R144). -/
def grantRequest (s : State) (l : Nat) (f : BitVec 128) (ago cyc : Nat) : State :=
  if !isGrantRequest f then s
  else match acceptFlit s l f with
    | (s, none) => s
    | (s, some d) => takeForecast s d f ago cyc

/-- FORECAST_CANCEL (R151). -/
def forecastCancel (s : State) (l : Nat) (f : BitVec 128) : State :=
  if !isCancel f then s
  else match acceptFlit s l f with
    | (s, none) => s
    | (s, some d) => cancelForecast s d f

/-- ACTIVITY (R135): the body is stored and published. -/
def activity (s : State) (l : Nat) (f : BitVec 128) : State :=
  if !(flitGood f && flitType f = 3) then s
  else match acceptFlit s l f with
    | (s, none) => s
    | (s, some d) =>
      let s := s.each (List.range 5) fun s w => s.put .DL_ACT (flitField f (31 + 16 * w) (16 + 16 * w)) l w
      hwPublish s (184 + d)

/-- SETREQ (R136). One that SETEN = 0 and a bad rail both turn away is answered DISABLED (DESIGN CHOICE, log entry 116). -/
def setreq (s : State) (l : Nat) (f : BitVec 128) : State :=
  if !(flitGood f && flitType f = 4) then s
  else match acceptFlit s l f with
    | (s, none) => s
    | (s, some d) =>
      let r := flitField f 19 16
      let v : Int := flitField f 33 20
      if !s.bit .DD_CFG_SETEN d then reply s d 9 (flitSeq f) fsDISABLED r 0
      else if railState s r == stUNUSED || s.get .DM_RAILCFG_DOMAIN r != d then reply s d 9 (flitSeq f) fsBADRAIL r 0
      else
        let st := match setpointJudge s r v with
          | .stored => fsACCEPTED
          | .bound => fsBOUND
          | .refused => fsREFUSED
        reply (setpointWrite s r v) d 9 (flitSeq f) st r 0

/-- A new epoch: every slot of the domain that is not FREE unwinds, without a miss and without an ACK (R131). -/
def newEpoch (s : State) (d : Nat) : State :=
  let s := s.each ((List.range 8).filter fun k => slotState s d k != slFREE) fun s k =>
    (s.put .DD_SSTAT_STATE slUNWIND d k).clear .slMet d k
  showRequest s d

/-- HELLO (R130, R131): sets or updates the epoch and RXSEQ, and is answered. -/
def hello (s : State) (l : Nat) (f : BitVec 128) : State :=
  let st := laneState s l
  if !(flitGood f && flitType f = 1) || (st != lnRUN && st != lnACQUIRE) then s
  else
    let old := s.get .DL_STATE_EPOCH l
    let s := (s.clear .crcRun l).put .katAt s.now l
    let s := (s.put .DL_STATE_EPOCH (flitEpoch f) l).put .DL_STATE_RXSEQ (flitSeq f) l
    let s :=
      if st == lnACQUIRE then (s.put .DL_STATE_STATE lnRUN l).put .telAt s.now l
      else if old == (flitEpoch f : Int) then s
      else
        let s := s.raise .DL_FLAG_NEWEPOCH l
        match laneDomain s l with
        | none => s
        | some d => newEpoch s d
    queueHello s l

/-- A loss in RUN takes the lane to TRAIN at the next boundary (R133). -/
def laneLoss (s : State) (l : Nat) : State := if laneState s l == lnRUN then s.raise .lossReq l else s

/-- FLIT_CRC_ERROR (R128): discarded and counted; eight in a row count as a loss. -/
def flitCrcError (s : State) (l : Nat) (f : BitVec 128) : State :=
  let st := laneState s l
  if flitGood f || (st != lnRUN && st != lnACQUIRE) then s
  else
    let s := (s.bump .DL_CRCERR 0xFFFF l).bump .crcRun 8 l
    if s.get .crcRun l ≥ 8 then laneLoss ((s.clear .crcRun l).raise .DL_FLAG_CRCRUN l) l else s

/-- RESERVED_FLIT (R129): discarded with BADMSG; in ACQUIRE, and in RUN with another epoch, it also counts as stale (R131). -/
def reservedFlit (s : State) (l : Nat) (f : BitVec 128) : State :=
  let st := laneState s l
  if !flitGood f || (1 ≤ flitType f && flitType f ≤ 4) || (st != lnRUN && st != lnACQUIRE) then s
  else
    let s := (s.clear .crcRun l).raise .DL_FLAG_BADMSG l
    if st == lnACQUIRE || (flitEpoch f : Int) != s.get .DL_STATE_EPOCH l then
      (s.bump .DL_STALECNT 0xFFFF l).raise .DL_FLAG_STALE l
    else s

/-- The slots in GPEND that `p` selects by domain and slot are freed without a GRANT (R153). -/
def freeWaiting (s : State) (p : Nat → Nat → Bool) : State :=
  s.each ((List.range 64).filter fun n => slotState s (n / 8) (n % 8) == slGPEND && p (n / 8) (n % 8)) fun s n =>
    freeSlot s (n / 8) (n % 8)

/-- The lane has left RUN and its domain falls back (R153): its queued flits go with the lane, and the slots in GPEND are freed. -/
def dropLane (s : State) (l : Nat) : State :=
  let s := { s with txFlits := s.txFlits.filter fun t => t.lane ≠ l }
  match laneDomain s l with
  | none => s
  | some d => freeWaiting (s.raise .fbReq d) fun e _ => e == d

/-- LANE_ENABLE (R130): EN as it stands takes the lane out of OFF, or powers it down. -/
def laneEnable (s : State) (l : Nat) : State :=
  let st := laneState s l
  if !s.bit .DL_CTRL_EN l || (laneDomain s l).isNone then
    let s := ((s.put .DL_STATE_STATE lnOFF l).clear .lkLock l).clear .lossReq l
    s.when (st == lnRUN) (dropLane · l)
  else if st == lnOFF then ((s.put .DL_STATE_STATE lnTRAIN l).clear .lkLock l).clear .crcRun l
  else s

/-- BLOCK_LOCK_GAINED (R124, R130). -/
def blockLockGained (s : State) (l : Nat) : State :=
  if laneState s l == lnOFF then s
  else
    let s := s.raise .lkLock l
    if laneState s l == lnTRAIN then (s.put .DL_STATE_STATE lnACQUIRE l).put .helloAt s.now l else s

/-- BLOCK_LOCK_LOST (R130, R133). -/
def blockLockLost (s : State) (l : Nat) : State :=
  let s := s.clear .lkLock l
  if laneState s l == lnACQUIRE then s.put .DL_STATE_STATE lnTRAIN l else laneLoss s l

/-- KEEPALIVE_TIMEOUT (R133). -/
def keepaliveTimeout (s : State) (l : Nat) : State :=
  if laneState s l == lnRUN && s.now - s.get .katAt l ≥ 256 * s.get .DL_CTRL_KATMO l then
    laneLoss (s.raise .DL_FLAG_KATO l) l
  else s

/-- A lost lane goes to TRAIN at the boundary, sets LOSS, and its domain falls back (R133, R153). -/
def laneBoundary (s : State) (l : Nat) : State :=
  if !s.bit .lossReq l then s
  else
    let s := s.clear .lossReq l
    if laneState s l != lnRUN then s
    else dropLane (((s.put .DL_STATE_STATE lnTRAIN l).raise .DL_FLAG_LOSS l).clear .lkLock l) l

/-- HELLO_TRANSMIT (R130): in ACQUIRE a HELLO is queued every 256 ticks. -/
def helloTransmit (s : State) (l : Nat) : State :=
  if laneState s l == lnACQUIRE && s.now ≥ s.get .helloAt l then
    queueHello (s.put .helloAt (s.get .helloAt l + 256) l) l
  else s

/-- The body of a TELEM of rail `r`, with the values of the last completed tick (R139). -/
def telemBody (s : State) (d r : Nat) (cur : BitVec 16) : Nat :=
  let volt := clampTo 0 0x3FFF (shr (16 * s.get .FL_VWREF r + s.get .FL_VMEAN r + 8) 4)
  let head := max 0 (shr (s.get .DM_DOM_IALLOT d - domainTotal s (planned s) d) 1)
  r + 2 ^ 4 * (railState s r).toNat + 2 ^ 7 * s.nat .DM_RAILSTAT_PGOOD r + 2 ^ 8 * volt.toNat +
    2 ^ 24 * cur.toNat + 2 ^ 40 * head.toNat + 2 ^ 56 * (unsigned 16 (s.now - 1)).toNat +
    2 ^ 72 * s.nat .telBurst r + 2 ^ 73 * (if s.bitOf .DM_STATUS_DOMX d then 1 else 0)

/-- TELEM_TRANSMIT (R139): one TELEM every TPER ticks, for the domain's rails in turn; a rail current that 16 bits do
not hold is reported as a free value. -/
def telemTransmit (s : State) (l : Nat) : State :=
  let tper := s.get .DL_TEL_TPER l
  match laneDomain s l with
  | none => s
  | some d =>
    let rails := domainRails s d
    if laneState s l != lnRUN || tper == 0 || s.now < s.get .telAt l + tper || rails.isEmpty then s
    else
      let n := s.nat .telNext l % rails.length
      let r := rails.getD n 0
      let s := (s.put .telAt s.now l).put .telNext ((n + 1) % rails.length) l
      let iq := shr (s.get .DM_RAILCUR_ICUR r) (quarterShift s r)
      let (cur, s) :=
        if satS 16 iq == iq then (BitVec.ofInt 16 iq, s)
        else
          let (n, s) := s.fresh
          (Config.freeWord n, s)
      (queueFlit s l 11 (telemBody s d r cur)).clear .telBurst r

/-- FLIT_TRANSMIT (R132, R139): the lane sends its next flit: a HELLO, then ACK and GRANT, then TELEM. -/
def flitTransmit (s : State) (l : Nat) : State :=
  let st := laneState s l
  let mine := s.txFlits.filter fun t => t.lane = l
  let next :=
    match mine.find? fun t => t.typ = 8 with
    | some t => some t
    | none => match mine.find? fun t => t.typ ≠ 11 with
      | some t => some t
      | none => mine.head?
  match next with
  | none => s
  | some t =>
    if st != lnRUN && st != lnACQUIRE then s
    else
      let seq := s.nat .DL_TXSEQ l
      let s := { s with txFlits := s.txFlits.erase t }
      let s := s.put .txLast (makeFlit t.typ (s.nat .DL_STATE_EPOCH l) seq t.body).toNat l
      if st == lnRUN then s.put .DL_TXSEQ ((seq + 1) % 256 : Nat) l else s

/-! The run of a tick (R146, R148, R150, R151, R153, R154). -/

/-- The contribution of a slot in the run of tick `k` (R146). -/
def contributionAt (di st e k : Int) : Int :=
  if k < st then 0
  else if e ≤ st || e ≤ k then di
  else truncDiv (di * (k - st)) (e - st)

/-- The load estimate of the window just completed (R148). -/
def loadEstimate (s : State) (r : Nat) : State :=
  if railState s r == stUNUSED then s
  else
    let v := 16 * s.get .FL_VWREF r + s.get .FL_VMEAN r
    let j := (s.now % 8).toNat
    let ile := railCurrent s r - shr (s.get .LN_KCAP r * (v - s.get .v16h r j)) 6
    (s.put .v16h v r j).put .LN_ILE (satS 22 ile) r

/-- The slots of a stopped rail are freed without transfer (R154). -/
def freeStopped (s : State) : State :=
  s.each ((List.range 64).filter fun n => slotState s (n / 8) (n % 8) != slFREE && !railRuns s (slotRail s (n / 8) (n % 8)))
    fun s n => freeSlot s (n / 8) (n % 8)

/-- One slot in the run of the present tick (R146, R148, R151, R153, R154): a met slot transfers in the first run free of forcing, or
with its lane or its rail's FFEN. -/
def slotRun (s : State) (d k : Nat) : State :=
  let st := slotState s d k
  let r := slotRail s d k
  let rs := oldState s r
  let con := s.get .DD_SCON d k
  let back := s.bit .fbReq d || !s.bit .LN_CTRL_FFEN r
  if st == slFREE then s
  else if s.bit .slMet d k && rs == stREG && (!s.bit .forced r || back) then
    let s := (transfer s r con).bump .LN_FCMET 0xFFFF r
    freeSlot (reply s d 9 (s.nat .DD_SSTAT_SEQ d k) fsMET r 0) d k
  else if back || rs != stREG then
    freeSlot (if con == 0 then s else transfer s r con) d k
  else if st == slGPEND then s
  else if st == slUNWIND then
    let u := s.get .LN_UNWIND r
    s.put .DD_SCON (if con > u then con - u else if con < -u then con + u else 0) d k
  else s.put .DD_SCON (contributionAt (s.get .DD_SDI d k) (s.get .slS d k) (s.get .slE d k) s.now) d k

/-- The feed-forward of a rail: the sum of the contributions of its slots, limited to 22 bits (R146). -/
def feedForward (s : State) (r : Nat) : State :=
  let sum := sumI ((List.range 64).map fun n =>
    if slotState s (n / 8) (n % 8) != slFREE && slotRail s (n / 8) (n % 8) == r then s.get .DD_SCON (n / 8) (n % 8)
    else 0)
  (s.when (satS 22 sum != sum) (·.raise .LN_FCFLAG_FSAT r)).put .ffcIn (satS 22 sum) r

/-- The forecast logic's part of a tick, before the lanes run. -/
def forecastRun (s : State) : State :=
  let s := s.each (List.range 16) fun s r => s.when (s.bit .forced r) fun s => s.put .forcedAt s.now r
  let s := s.each (List.range 64) fun s n => slotRun s (n / 8) (n % 8)
  let s := s.each (List.range 8) fun s d => s.clear .fbReq d
  s.each (List.range 16) feedForward

/-- RAMP_START (R146, R152). -/
def rampStart (s : State) (d k : Nat) : State :=
  if slotState s d k == slWAIT && s.now ≥ s.get .slS d k && s.now < s.get .slE d k then
    s.put .DD_SSTAT_STATE slRAMP d k
  else s

/-- HOLD_START (R146, R152). -/
def holdStart (s : State) (d k : Nat) : State :=
  if (slotState s d k == slWAIT || slotState s d k == slRAMP) && s.now ≥ s.get .slS d k && s.now ≥ s.get .slE d k then
    s.put .DD_SSTAT_STATE slHOLD d k
  else s

/-- The met test of R148. -/
def metTest (s : State) (d k : Nat) : Bool :=
  let r := slotRail s d k
  let chg := s.get .LN_ILE r - s.get .DD_SILE0 d k
  let di := s.get .slDi d k
  slotState s d k == slHOLD && decide (s.now > s.get .slE d k) &&
    ((decide (di > 0) && decide (chg > 0)) || (decide (di < 0) && decide (chg < 0))) &&
    decide (16 * absI chg ≥ s.get .LN_MATCH_MATCH r * absI di)

/-- The miss tests are not made (R150). -/
def missHeld (s : State) (r : Nat) : Bool :=
  s.bit .forced r || decide (s.now - s.get .forcedAt r ≤ s.get .LN_MATCH_MSKIP r)

/-- The miss test of R149. -/
def missTest (s : State) (d k : Nat) : Bool :=
  let r := slotRail s d k
  let di := s.get .DD_SDI d k
  let v := 16 * s.get .FL_VWREF r + s.get .FL_VMEAN r
  (slotState s d k == slRAMP || slotState s d k == slHOLD) && !missHeld s r && !s.bit .slMet d k &&
    ((decide (di > 0) && decide (v > 16 * (refCode s r + 8 * s.get .LN_MISSWIN_MISSHI r))) ||
     (decide (di < 0) && decide (v < 16 * (refCode s r - 8 * s.get .LN_MISSWIN_MISSLO r))) ||
     (decide (s.now > s.get .slE d k) && decide (s.now > s.get .slDl d k) && !metTest s d k))

/-- FORECAST_MET (R148, R150, R155): the slot is met, and transfers in the run of the tick, or in the first one free of forcing. A miss
test that also passes wins. -/
def forecastMet (s : State) (d k : Nat) : State :=
  if !metTest s d k || missTest s d k || oldState s (slotRail s d k) != stREG then s else s.raise .slMet d k

/-- FORECAST_MISSED (R149, R151). -/
def forecastMissed (s : State) (d k : Nat) : State :=
  let r := slotRail s d k
  if !missTest s d k || oldState s r != stREG then s
  else
    let s := (s.bump .LN_FCMISS 0xFFFF r).raise .LN_FCFLAG_MISS r
    (reply s d 9 (s.nat .DD_SSTAT_SEQ d k) fsMISSED r 0).put .DD_SSTAT_STATE slUNWIND d k

/-- UNWIND_DONE (R151). -/
def unwindDone (s : State) (d k : Nat) : State :=
  if slotState s d k == slUNWIND && !s.bit .DD_SCON d k then freeSlot s d k else s

/-- GRANT_TIMEOUT (R144). -/
def grantTimeout (s : State) (d k : Nat) : State :=
  if slotState s d k == slGPEND && s.now - s.get .slPost d k ≥ s.get .DD_CFG_GTMO d then
    freeSlot (reply s d 10 (s.nat .DD_SSTAT_SEQ d k) fsTIMEOUT (slotRail s d k) 0) d k
  else s

/-- Grant requests that wait answer TIMEOUT when the domain loses its tick core (R153, R336). -/
def timeoutGrants (s : State) (d : Nat) : State :=
  s.each ((List.range 8).filter fun k => slotState s d k == slGPEND) fun s k =>
    freeSlot (reply s d 10 (s.nat .DD_SSTAT_SEQ d k) fsTIMEOUT (slotRail s d k) 0) d k

/-- GRANT (R144): DD_GRANT is written with an amount of 0 or more; the request shown is decided. A negative amount is illegal (R11,
R156). -/
def grantDecide (s : State) (d : Nat) (amt : Int) : State :=
  if 2 ^ 21 ≤ amt then s.raise .DD_GREQ_CFGERR d
  else
  let s := s.put .DD_GRANT_AMT amt d
  if !s.bit .DD_GREQ_PEND d then s
  else
    let k := s.nat .DD_GREQ_SLOT d
    let r := slotRail s d k
    startSlot s d k 10 (grantable s r (min amt (s.get .slReq d k))) true

def execBlockLockGained (d : Domain) (s : State) : Out := .next (blockLockGained s d)
def execBlockLockLost (d : Domain) (s : State) : Out := .next (blockLockLost s d)
def execLaneEnable (d : Domain) (s : State) : Out := .next (laneEnable s d)
def execHello (d : Domain) (f : BitVec 128) (s : State) : Out := .next (hello s d f)
def execForecast (d : Domain) (f : BitVec 128) (ago cyc : Fin 4) (s : State) : Out := .next (forecast s d f ago cyc)
def execGrantRequest (d : Domain) (f : BitVec 128) (ago cyc : Fin 4) (s : State) : Out :=
  .next (grantRequest s d f ago cyc)
def execForecastCancel (d : Domain) (f : BitVec 128) (s : State) : Out := .next (forecastCancel s d f)
def execActivity (d : Domain) (f : BitVec 128) (s : State) : Out := .next (activity s d f)
def execSetreq (d : Domain) (f : BitVec 128) (s : State) : Out := .next (setreq s d f)
def execFlitCrcError (d : Domain) (f : BitVec 128) (s : State) : Out := .next (flitCrcError s d f)
def execReservedFlit (d : Domain) (f : BitVec 128) (s : State) : Out := .next (reservedFlit s d f)
def execKeepaliveTimeout (d : Domain) (s : State) : Out := .next (keepaliveTimeout s d)
def execHelloTransmit (d : Domain) (s : State) : Out := .next (helloTransmit s d)
def execTelemTransmit (d : Domain) (s : State) : Out := .next (telemTransmit s d)
def execFlitTransmit (d : Domain) (s : State) : Out := .next (flitTransmit s d)
def execRampStart (d : Domain) (k : Fin 8) (s : State) : Out := .next (rampStart s d k)
def execHoldStart (d : Domain) (k : Fin 8) (s : State) : Out := .next (holdStart s d k)
def execForecastMet (d : Domain) (k : Fin 8) (s : State) : Out := .next (forecastMet s d k)
def execForecastMissed (d : Domain) (k : Fin 8) (s : State) : Out := .next (forecastMissed s d k)
def execUnwindDone (d : Domain) (k : Fin 8) (s : State) : Out := .next (unwindDone s d k)
def execGrantTimeout (d : Domain) (k : Fin 8) (s : State) : Out := .next (grantTimeout s d k)
def execGrant (d : Domain) (amt : BitVec 22) (s : State) : Out := .next (grantDecide s d amt.toNat)

end Sys2Proof.Machine
end

