-- ==== Sys2Proof/Machine/Memory.lean ====
section
/-! DEFINITION. The physical memory map, on-chip SRAM with its repair, DDR4 with its page retirement, and the tick-core
MPU (15_memory_dma_recorder.md, R342 to R351; 11_exceptions_translation.md, R294). -/
namespace Sys2Proof.Machine

/-- What stands at a physical word address (R342, R476). `hole` covers every address that no row of the map covers. -/
inductive Region where
  | rom | sram | tcm (n : Nat) | wcs | device | staging | ddr | hole
  deriving DecidableEq, Repr

/-- The region of a physical word address (R342). -/
def region (a : Nat) : Region :=
  if a < 0x20000 then .rom
  else if 0x100000 ≤ a ∧ a < 0x200000 then .sram
  else if 0x200000 ≤ a ∧ a < 0x2A0000 then (if (a - 0x200000) % 0x20000 < 0x10000 then .tcm ((a - 0x200000) / 0x20000) else .hole)
  else if 0x300000 ≤ a ∧ a < 0x302000 then .wcs
  else if 0x400000 ≤ a ∧ a < 0x480000 then .device
  else if 0x800000 ≤ a ∧ a < 0x880000 then .device
  else if 0x1000000 ≤ a ∧ a < 0x1100000 then .staging
  else if 0x80000000 ≤ a ∧ a < 0x100000000 then .ddr
  else .hole

/-- A device region, window or not (R226, R342). -/
def isDevice (a : Nat) : Bool := decide (0x400000 ≤ a ∧ a < 0x1000000)

/-- The number of the SRAM that a word lies in (MS_SRAM, R367), and its first address. -/
def sramOf (a : Nat) : Option (Nat × Nat) :=
  match region a with
  | .sram => some (0, 0x100000)
  | .tcm n => some (1 + n, 0x200000 + 0x20000 * n)
  | .staging => some (6, 0x1000000)
  | _ => none

/-- Words of DDR4 fitted (R345). -/
def ddrWords (s : State) : Nat :=
  if s.get .D4_CFG_SIZE == 1 then 2 ^ 29 else if s.get .D4_CFG_SIZE == 2 then 2 ^ 30
  else if s.get .D4_CFG_SIZE == 3 then 2 ^ 31 else 0

/-- The device runs with DDR4: fitted, trained, and not failed (R345, R350). -/
def ddrReady (s : State) : Bool := s.bit .D4_CFG_SIZE && s.bit .D4_STATUS_RDY && !s.bit .D4_STATUS_TRAINERR

/-- A DDR4 address that a requester may reach: below the spare pool of the fitted size (R342, R349). -/
def ddrUsable (s : State) (a : Nat) : Bool := ddrReady s && decide (0x80000000 ≤ a ∧ a - 0x80000000 + 0x100000 < ddrWords s)

/-- The page of a DDR4 address: address bits 30 to 11 (R348). -/
def pageOf (a : Nat) : Nat := (a % 2 ^ 31) / 2048

/-- The pool page that a retired page is remapped to (R349): retirement `i` takes pool page `i`. -/
def poolPage (s : State) (i : Nat) : Nat := (ddrWords s - 0x100000) / 2048 + i

/-- The place of a page among the remapped retirements, if it is one (R349). -/
def retiredAt (s : State) (pg : Nat) : Option Nat :=
  (List.range (min 512 (s.nat .D4_NRET))).find? fun i => s.bit .D4_RET_V i && s.get .D4_RET_PAGE i == pg

/-- The retirement copy of an entry runs, or waits for the one before it (R349). -/
def copyPending (s : State) (i : Nat) : Bool := s.bit .retCopy i

/-- The word of DDR4 that an address reaches: in the pool once the page's retirement copy has ended (R349). -/
def ddrWord (s : State) (a : Nat) : Nat :=
  match retiredAt s (pageOf a) with
  | none => a
  | some i => if copyPending s i then a else 0x80000000 + poolPage s i * 2048 + a % 2048

/-- The stored word that a memory address reaches. -/
def storageOf (s : State) (a : Nat) : Nat := if region a = .ddr then ddrWord s a else a

/-- A stored word takes a value with fresh check bits (R343). -/
def State.storeFresh (s : State) (a : Nat) (v : W16) : State :=
  { (s.setWord a v).clear .memBad a with soft := s.soft.filter (· != a) }

/-- The single-bit error of a stored word is corrected in memory. -/
def State.dropSoft (s : State) (p : Nat → Bool) : State := { s with soft := s.soft.filter fun a => !p a }

/-! Page retirement (R348, R349). -/

/-- The page is already recorded as retired (R348). -/
def isRetired (s : State) (pg : Nat) : Bool :=
  (retiredAt s pg).isSome ||
  (List.range (s.nat .D4_NRET - 512)).any fun i => s.bit .D4_RETX_V i && s.get .D4_RETX_PAGE i == pg

/-- A page is retired (R348, R349): remapped into the pool, its copy begun, or listed once the pool is exhausted, or not recorded
once the list is full as well. -/
def retirePage (s : State) (pg : Nat) : State :=
  let n := s.nat .D4_NRET
  if isRetired s pg then s
  else if n < 512 then
    let s := ((s.put .D4_RET_PAGE pg n).raise .D4_RET_V n).raise .retCopy n
    let s := (s.put .D4_NRET (n + 1 : Nat)).raise .D4_STATUS_RETBUSY
    if n = 511 then s.raise .D4_STATUS_POOLEX else s
  else
    let s := s.raise .D4_STATUS_POOLEX
    if n < 1024 then
      ((s.put .D4_RETX_PAGE pg (n - 512)).raise .D4_RETX_V (n - 512)).put .D4_NRET (n + 1 : Nat)
    else s.raise .D4_STATUS_LISTFULL

/-- `n` corrected errors of a page are counted (R346, R348); at CETHR the page is retired. A tracker that is full drops the page least
recently incremented. -/
def trackCE (s : State) (pg n : Nat) : State :=
  if n = 0 then s
  else
    let s := s.bump .D4_CECNT 0xFFFF 0 0 n
    let c := ((s.ceTrack.find? fun e => e.1 == pg).map (·.2)).getD 0 + n
    let rest := s.ceTrack.filter fun e => e.1 != pg
    let rest := if rest.length ≥ 64 then rest.drop 1 else rest
    if (c : Int) ≥ s.get .D4_RETCFG_CETHR then retirePage { s with ceTrack := rest } pg else { s with ceTrack := rest ++ [(pg, c)] }

/-- An uncorrectable error that a read finds is counted and its address recorded (R343, R346); its DDR4 page is retired (R348). -/
def countUE (s : State) (a : Nat) : State :=
  match sramOf a with
  | some (m, base) => (s.bump .MS_UE 0xFFFF m).put .MS_UEADDR (((a - base) / 16 : Nat) : Int) m
  | none => if region a = .ddr then retirePage ((s.bump .D4_UECNT 0xFFFF).put .D4_ERRADDR a) (pageOf a) else s

/-- A read that finds a single-bit error corrects and counts it (R343, R346, R348). An SRAM keeps it; a beat of DDR4 is written back
with CORRWB. -/
def countCE (s : State) (a : Nat) : State :=
  if !s.soft.contains (storageOf s a) then s
  else
    match sramOf a with
    | some (m, _) => (s.bump .MS_CE 0xFFFF m).raise .ceSeen a
    | none =>
      if region a = .ddr then
        let w := storageOf s a
        trackCE (if s.bit .D4_CFG_CORRWB then s.dropSoft fun x => x / 2 == w / 2 else s) (pageOf a) 1
      else s

/-- A read of one word of memory: none where it ends in a bus error or is uncorrectable (R342, R343, R346). -/
def memRead (s : State) (a : Nat) : Option W16 × State :=
  let ok := match region a with
    | .ddr => ddrUsable s a
    | .rom | .sram | .tcm _ | .staging => true
    | _ => false
  if !ok then (none, s)
  else if region a = .rom then (some (Config.romWord a), s)
  else if s.bit .memBad (storageOf s a) then (none, countUE s a)
  else (some (s.wordAt (storageOf s a)), countCE s a)

/-- A store of one word of memory, with fresh check bits: false where it ends in a bus error (R342, R343). Whether a
store to the boot ROM ends in a bus error is left open, and the ROM keeps its word (log entry 9). -/
def memWrite (s : State) (a : Nat) (v : W16) : Bool × State :=
  match region a with
  | .rom => let (n, s) := s.fresh; (Config.freeBit n, s)
  | .ddr =>
    if ddrUsable s a then
      let w := storageOf s a
      (true, ((s.storeFresh w v).clear .memBad (w ^^^ 1)).dropSoft fun x => x == w ^^^ 1)
    else (false, s)
  | .sram | .tcm _ | .staging => (true, s.storeFresh a v)
  | _ => (false, s)

/-! The tick-core MPU (R294). -/

/-- The kind of an access: fetch, read or write. -/
inductive Access where
  | fetch | read | write
  deriving DecidableEq, Repr

/-- The MPU of tick core `k` allows an access to address `a`: the lowest-numbered matching region decides (R294). -/
def mpuAllows (s : State) (k a : Nat) (x : Access) : Bool :=
  if !s.bit .XC_MPUCTL_EN k then true
  else
    let u : Int := ((a / 64 : Nat) : Int)
    match (List.range 8).find? fun i => s.bit .MPU_BASE_EN k i && decide (s.get .MPU_BASE_BASE k i ≤ u ∧ u ≤ s.get .MPU_LIM k i) with
    | none => false
    | some i =>
      match x with
      | .fetch => s.bit .MPU_BASE_X k i
      | .read => s.bit .MPU_BASE_R k i
      | .write => s.bit .MPU_BASE_W k i

/-! Repair of SRAM rows (R344). -/

/-- Rows and repair rows of SRAM `m` (R344). -/
def sramRows (m : Nat) : Nat := if m = 0 ∨ m = 6 then 2048 else 128
def repairRows (m : Nat) : Int := if m = 0 then 64 else if m = 6 then 32 else 16
def sramBase (m : Nat) : Nat := if m = 0 then 0x100000 else if m = 6 then 0x1000000 else 0x200000 + 0x20000 * (m - 1)

/-- The copy of a row repair ends: the row's address reaches the repair row, whose words that were uncorrectable read as
such (R344). -/
def rowRepairDone (s : State) (m : Nat) (bad : List Nat) : State :=
  if !s.bit .rrBusy m then s
  else
    let base := sramBase m + 512 * s.nat .rrRow m
    let s := (s.each bad fun s w => s.raise .memBad (base + w % 512)).dropSoft fun a => decide (base ≤ a ∧ a < base + 512)
    let s := (s.each (List.range 512) fun s w => s.clear .ceSeen (base + w)).clear .ceMore m (s.nat .rrRow m)
    let s := s.bump .MS_REP_REPUSED (repairRows m) m
    let s := s.put .MS_REP_NOREP (bit01 (s.get .MS_REP_REPUSED m ≥ repairRows m)) m
    s.clear .rrBusy m

/-- A row repair begins (R344). -/
def beginRepair (s : State) (m row : Nat) : State :=
  let s := rowRepairDone s m []
  if row ≥ sramRows m then s
  else if s.get .MS_REP_REPUSED m ≥ repairRows m then s.raise .MS_REP_NOREP m
  else (s.raise .rrBusy m).put .rrRow row m

/-- The addresses of a row at which corrected errors have occurred (R344): those of reads, and those that scrubs have counted (log
entry 140). -/
def rowErrors (s : State) (m row : Nat) : Int :=
  ((List.range 512).filter fun w => s.bit .ceSeen (sramBase m + 512 * row + w)).length + s.get .ceMore m row

/-- ROW_REPAIR: a row with corrected errors at 4 addresses is repaired at run time (R344). -/
def rowRepair (s : State) (m row : Nat) : State := if rowErrors s m row < 4 then s else beginRepair s m row

/-! DDR4 (R345 to R351). -/

/-- Copy the words of a page into another, corrected, with the words that cannot be read poisoned (R349). -/
def copyPage (s : State) (src dst : Nat) (bad : List Nat) : State :=
  s.each (List.range 2048) fun s w =>
    if s.bit .memBad (src + w) || bad.contains (w / 2) then s.raise .memBad (dst + w)
    else s.storeFresh (dst + w) (s.wordAt (src + w))

/-- The oldest retirement copy ends: beats that were uncorrectable are poisoned, and the page's addresses reach the pool page
(R349). -/
def retireCopyDone (s : State) (bad : List Nat) : State :=
  match (List.range 512).find? (copyPending s) with
  | none => s.clear .D4_STATUS_RETBUSY
  | some i =>
    let s := copyPage s (0x80000000 + 2048 * s.nat .D4_RET_PAGE i) (0x80000000 + 2048 * poolPage s i) bad
    let s := s.clear .retCopy i
    s.put .D4_STATUS_RETBUSY (bit01 ((List.range 512).any (copyPending s)))

/-- Every retirement copy ends. -/
def retireCopiesDone (s : State) : State := s.each ((List.range 512).filter (copyPending s)) fun s _ => retireCopyDone s []

/-- An uncorrectable or a corrected error that is found at a word of DDR4 (R346, R348). -/
def errorRetire (s : State) (a : Nat) (unc : Bool) : State :=
  if !ddrUsable s (0x80000000 + a) then s
  else if unc then
    let w := ddrWord s (0x80000000 + a)
    ((countUE s (0x80000000 + a)).raise .memBad w).raise .memBad (w ^^^ 1)
  else trackCE s (pageOf a) 1

/-- A write of D4_RETADD retires the page: before LOCK as a retirement restored from the flash log, after it as one
that firmware declares (R348). -/
def retAdd (s : State) (pg : Nat) : State := retirePage s pg

/-- Training ends (R345, R350); a controller that has failed training stays so until the next cold start (R438). -/
def trainingDone (s : State) (good : Bool) : State :=
  if s.get .D4_CFG_SIZE == 0 then (s.raise .RC_STATUS_NODDR).clear .RC_CTRL_EN
  else if good then (if s.bit .D4_STATUS_TRAINERR then s else s.raise .D4_STATUS_RDY)
  else ((s.raise .D4_STATUS_TRAINERR).raise .RC_STATUS_NODDR).clear .RC_CTRL_EN

/-- Refresh runs at double rate (R345): the named temperature channel reads above 85 °C (in units of 0.0625 °C), is stuck
or, an auxiliary channel, does not measure temperature; or no channel is named. -/
def refreshDoubled (s : State) : Bool :=
  let c := s.nat .D4_CFG_TSRC
  if c < 8 then
    s.get .FL_AUXCFG_KIND c != 2 || s.bit .FL_AUXFLAG_STUCK c || decide (signed 16 (s.get .FL_AUXRES c) > 1360)
  else if c < 24 then s.bit .FL_TMFLAG_STUCK (c - 8) || decide (s.get .FL_CLTEMP (c - 8) > 1360)
  else true

/-- A periodic refresh is issued (R345); no register shows it. -/
def refresh (s : State) : State :=
  if ddrReady s && !s.bit .D4_STATUS_SREF then (s.put .d4RefAt s.now).put .d4Double (bit01 (refreshDoubled s)) else s

/-- A periodic ZQ short calibration, every 128 ms of 20,480,000 ticks (R345). -/
def zqcs (s : State) : State :=
  if ddrReady s && !s.bit .D4_STATUS_SREF && decide (s.now ≥ s.get .d4ZqAt + 20480000) then s.put .d4ZqAt s.now else s

def execRowRepair (m : Fin 7) (row : Fin 2048) (s : State) : Out := .next (rowRepair s m row)
def execRowRepairDone (m : Fin 7) (bad : List (Fin 512)) (s : State) : Out :=
  .next (rowRepairDone s m (bad.map fun (w : Fin 512) => (w : Nat)))
def execTrainingDone (good : Bool) (s : State) : Out := .next (trainingDone s good)
def execRefresh (s : State) : Out := .next (refresh s)
def execZqcs (s : State) : Out := .next (zqcs s)
def execPageRetire (a : BitVec 31) (unc : Bool) (s : State) : Out := .next (errorRetire s a.toNat unc)
def execPageRetireDone (bad : List (Fin 1024)) (s : State) : Out :=
  .next (retireCopyDone s (bad.map fun (b : Fin 1024) => (b : Nat)))
def execRetadd (pg : BitVec 20) (s : State) : Out := .next (retAdd s pg.toNat)
def execDdrLock (s : State) : Out := .next (s.raise .D4_CTRL_LOCK)

end Sys2Proof.Machine
end

