-- ==== Sys2Proof/Machine/Dma.lean ====
section
/-! DEFINITION. The DMA engine's channels (15_memory_dma_recorder.md, R352 to R358): triggers, starts and ends of bursts
and lists, and the writes of their registers. The copying of words is in DmaRun.lean. -/
namespace Sys2Proof.Machine

/-- Channels 12 to 15 are scatter-gather channels (R352). -/
def isSg (c : Nat) : Bool := decide (c ≥ 12)

/-- The core that owns a channel; the pair that has taken over a tick core's duties stands for it (R352). -/
def dmaOwner (s : State) (c : Nat) : Nat :=
  if c ≥ 12 then 5
  else
    let o := s.nat .DMA_CFG_OWNER c
    if o < 4 && s.get .dutyPair o != 7 then s.nat .dutyPair o else o

/-- The channel's image-assigned interrupt source is raised (R354, R355, R357). -/
def dmaRaise (s : State) (c : Nat) : State := s.raise .dmaRaised c

/-- A burst begins, or the channel turns to its first descriptor (R353, R355). -/
def dmaStart (s : State) (c : Nat) : State :=
  let s := s.raise .DMA_STAT_BUSY c
  if isSg c then (s.raise .dmaNeed c).put .dmaNext (s.get .DMA_LIST c) c
  else s.put .dmaLeft (s.get .DMA_CNT_BURST c) c

/-- A trigger (R354): ignored with EN or TRGEN 0, counted while the channel is busy or halted, lost with PEND at 15. -/
def dmaTrigger (s : State) (c : Nat) : State :=
  if !s.bit .DMA_CFG_EN c || !s.bit .DMA_CFG_TRGEN c then s
  else if s.bit .DMA_STAT_BUSY c || s.bit .DMA_STAT_HALT c then
    if s.get .DMA_STAT_PEND c < 15 then s.put .DMA_STAT_PEND (s.get .DMA_STAT_PEND c + 1) c else s.raise .DMA_STAT_OVR c
  else dmaStart s c

/-- The end of a burst or of a list (R354). -/
def dmaEnd (s : State) (c : Nat) : State :=
  let s := dmaRaise (hwPublish ((s.raise .DMA_STAT_DONE c).clear .DMA_STAT_BUSY c) (192 + c)) c
  if s.get .DMA_STAT_PEND c > 0 then dmaStart (s.put .DMA_STAT_PEND (s.get .DMA_STAT_PEND c - 1) c) c else s

/-- The channel halts with an error (R352, R355, R357). -/
def dmaHalt (s : State) (c : Nat) (err : Int) : State :=
  ((s.raise .DMA_STAT_HALT c).put .DMA_STAT_ERR err c).clear .dmaFail c

/-- A trigger that an ABORT left pending starts a burst at the channel's next turn (R358; DEDUCED, log entry 127). -/
def dmaPending (s : State) (c : Nat) : State :=
  if s.bit .DMA_STAT_BUSY c || s.bit .DMA_STAT_HALT c || !s.bit .DMA_STAT_PEND c then s
  else dmaStart (s.put .DMA_STAT_PEND (s.get .DMA_STAT_PEND c - 1) c) c

/-- RESUME: a halted channel continues at the failed word (R357). -/
def dmaResume (s : State) (c : Nat) : State :=
  if s.bit .DMA_STAT_HALT c then (((s.clear .DMA_STAT_HALT c).clear .dmaFail c).clear .dmaTries c).clear .dmaRaised c else s

/-- ABORT: the transfer ends, PEND, BUSY and HALT clear, and the addresses stand (R357). -/
def dmaAbort (s : State) (c : Nat) : State :=
  let s := (((s.clear .DMA_STAT_PEND c).clear .DMA_STAT_BUSY c).clear .DMA_STAT_HALT c).clear .dmaRaised c
  (((s.clear .dmaLeft c).clear .dmaNeed c).clear .dmaFail c).clear .dmaTries c

/-- The core on whose behalf an agent writes, and whether at supervisor privilege; JTAG debug access and a DMA channel
of the management core act as the management core at supervisor privilege. -/
def agentCore (s : State) (a : Agent) : Nat × Bool :=
  match a with
  | .core k => (k, supervisor s k)
  | .dma c => (dmaOwner s c, true)
  | .jtag => (5, true)

/-- A write of channel `c`'s registers is accepted from its owner and from the management core at supervisor privilege
(R352). -/
def dmaMayWrite (s : State) (a : Agent) (c : Nat) : Bool :=
  let (k, sup) := agentCore s a
  (k == 5 && sup) || (k != 5 && k == dmaOwner s c)

/-- A refused write is ignored and sets ERR = 4 without halting (R352, R358). -/
def dmaRefuse (s : State) (c : Nat) : State := s.put .DMA_STAT_ERR 4 c

/-- A write of DMA_CFG (R367): WRAP outside 4 to 20 is illegal; WRAPSEL reads 0 on channels 12 to 15. -/
def dmaCfgWrite (s : State) (c : Nat) (v : Int) : State :=
  let s := ((s.put .DMA_CFG_EN (field v 0 0) c).put .DMA_CFG_TRGEN (field v 1 1) c).put .DMA_CFG_RETRY (field v 11 9) c
  let s := if isSg c then s else s.put .DMA_CFG_WRAPSEL (field v 3 2) c
  let w := field v 8 4
  if 4 ≤ w ∧ w ≤ 20 then s.put .DMA_CFG_WRAP w c else s

/-- A write of DMA_SRC, DMA_DST or DMA_CNT is not stored while the channel is busy (R358). -/
def dmaAddrWrite (s : State) (f : Fld) (c : Nat) (v : Int) : State :=
  if s.bit .DMA_STAT_BUSY c then dmaRefuse s c else s.put f v c

/-- A write of DMA_CNT: 0 and values above 4,096 are illegal (R367). -/
def dmaCntWrite (s : State) (c : Nat) (v : Int) : State :=
  if s.bit .DMA_STAT_BUSY c then dmaRefuse s c
  else if 1 ≤ field v 12 0 ∧ field v 12 0 ≤ 4096 then s.put .DMA_CNT_BURST (field v 12 0) c else s

/-- A write of DMA_CTL (R367): a trigger that comes with an ABORT counts in PEND (R358). -/
def dmaCtlWrite (s : State) (c : Nat) (v : Int) : State :=
  if bitAt v 2 then
    let s := dmaAbort s c
    if bitAt v 0 && s.bit .DMA_CFG_EN c && s.bit .DMA_CFG_TRGEN c then s.put .DMA_STAT_PEND 1 c else s
  else
    let s := if bitAt v 1 then dmaResume s c else s
    if bitAt v 0 then dmaTrigger s c else s

/-- DMA_TRIGGER (R354): a write of TRIG. -/
def execDmaTrigger (by_ : Agent) (c : DmaCh) (s : State) : Out :=
  .next (if dmaMayWrite s by_ c then dmaTrigger s c else dmaRefuse s c)

/-- RESUME (R357). -/
def execResume (by_ : Agent) (c : DmaCh) (s : State) : Out :=
  .next (if dmaMayWrite s by_ c then dmaResume s c else dmaRefuse s c)

/-- ABORT (R357). -/
def execAbort (by_ : Agent) (c : DmaCh) (s : State) : Out :=
  .next (if dmaMayWrite s by_ c then dmaAbort s c else dmaRefuse s c)

end Sys2Proof.Machine
end

