-- ==== Sys2Proof/Machine/Events.lean ====
section
/-! DEFINITION. The event network's registers and turnouts and the capture timers (08_event_network.md, R199 to R215). -/
namespace Sys2Proof.Machine

/-- Channel `c` is locked (R208). -/
def chLocked (s : State) (c : Nat) : Bool := s.bitOf .EV_LOCK c

/-- A write of EV_CHCFG (R208, R11): refused as a whole on a locked channel; OWNER 7 is illegal. -/
def chCfgWrite (s : State) (c : Nat) (v : Int) : State :=
  if chLocked s c then s.raise .EV_STATUS_LOCKERR
  else
    let s := s.put .EV_CHCFG_SEC (field v 3 3) c
    if field v 2 0 == 7 then s.raise .EV_STATUS_CFGERR else s.put .EV_CHCFG_OWNER (field v 2 0) c

/-- A write of EV_CHSG (R208, R210): refused on a locked channel; SGWIN 0 is illegal. -/
def chSgWrite (s : State) (c : Nat) (v : Int) : State :=
  if chLocked s c then s.raise .EV_STATUS_LOCKERR
  else
    let s := s.put .EV_CHSG_SGMAX (field v 7 0) c
    if field v 15 8 == 0 then s.raise .EV_STATUS_CFGERR else s.put .EV_CHSG_SGWIN (field v 15 8) c

/-- A write of EV_WAKE or of an EV_WFEMASK: the bits of locked channels keep their values, and LOCKERR is set where the
write would have changed one (R208). -/
def maskWrite (s : State) (f : Fld) (i : Nat) (v : Int) : State :=
  let old := s.get f i
  let lk := s.get .EV_LOCK
  let s := s.when (andI (xorI old v) lk != 0) (·.raise .EV_STATUS_LOCKERR)
  s.put f (orI (andI old lk) (andNotI v lk)) i

/-- Who may write a turnout (R207): the management core at supervisor privilege; a tick core only where the present and
the new channel are its own and not secure. -/
def turnoutAllowed (s : State) (k : Nat) (sup : Bool) (t c : Nat) : Bool :=
  let o := s.nat .EV_TOCFG_CH t
  if k = 5 then sup
  else ownerCore s o == k && ownerCore s c == k && !s.bit .EV_CHCFG_SEC o && !s.bit .EV_CHCFG_SEC c

/-- A write of EV_TOCFG (R207, R208); user code of the management core does not reach the register (R216). -/
def turnoutWrite (s : State) (k : Nat) (sup : Bool) (t c : Nat) (en : Bool) : State :=
  if k = 5 && !sup then s
  else if !turnoutAllowed s k sup t c then s.raise .EV_STATUS_SECERR
  else if chLocked s c || chLocked s (s.nat .EV_TOCFG_CH t) then s.raise .EV_STATUS_LOCKERR
  else (s.put .EV_TOCFG_CH c t).put .EV_TOCFG_EN (bit01 en) t

/-- Re-arming a channel: the count restarts at 0 and a new window begins with the next event (R211). -/
def rearm (s : State) (c : Nat) : State := ((s.clrBits .EV_TRIP (2 ^ c)).clear .sgOpen c).clear .sgCount c

/-- A write of EV_TRIP: every bit written 1 re-arms its channel (R211). -/
def tripWrite (s : State) (m : Int) : State := s.each ((List.range 64).filter fun c => bitAt m c) rearm

/-- EV_WATCH as user code sees it (R207). -/
def userWatch (s : State) : Int :=
  sumI ((List.range 64).map fun c => if s.bitOf .EV_WATCH c && !s.bit .EV_CHCFG_SEC c then 2 ^ c else 0)

/-- The capture task of timer `u` for an event that arrived in tick `t`, `sub` SCLK periods after its boundary (R213). -/
def captureTask (s : State) (u : Nat) (t sub : Int) : State :=
  if !s.bit .CT_CFG_CAPEN u then s
  else if s.bit .CT_STAT_CAPV u then (s.raise .CT_STAT_OVR u).bump .CT_LOST 0xFFFF u
  else ((s.raise .CT_STAT_CAPV u).put .CT_CAP t u).put .CT_SUB sub u

/-- The START task of timer `u` for an event that arrived in tick `t`: CMP takes the tick plus CT_DLY and the compare is
armed, both at the next boundary (R214). -/
def startTask (s : State) (u : Nat) (t : Int) : State :=
  (s.put .startCmp (unsigned 64 (t + s.get .CT_DLY u)) u).raise .startPend u

/-- What a rail's insertion task does: a pulse insertion on every active phase (R201, R108). -/
def insertTask (s : State) (r : Nat) : State := s.raise .insAllReq r

/-- The task of turnout `t` (R201). `at_` is the tick of the event's arrival and `sub` its SCLK period. -/
def turnoutTask (s : State) (t : Nat) (at_ sub : Int) : State :=
  if t < 64 then (if t % 2 = 0 then captureTask s (t / 2) at_ sub else startTask s (t / 2) at_)
  else if t < 80 then dmaTrigger s (t - 64)
  else if t < 96 then commitBank s (t - 80)
  else if t < 112 then insertTask s (t - 96)
  else eviPulse s (t - 112)

/-- The arrivals at turnout `t`, oldest first. -/
def arrivalsAt (s : State) (t : Nat) : List Arrival := s.arrivals.filter fun a => a.turnout == t

/-- Remove the oldest `n` arrivals of turnout `t`. -/
def dropArrivals (l : List Arrival) (t n : Nat) : List Arrival :=
  match l, n with
  | [], _ => []
  | l, 0 => l
  | a :: l, n + 1 => if a.turnout = t then dropArrivals l t n else a :: dropArrivals l t (n + 1)

/-- The oldest arrival at turnout `t`, with `more` further ones whose synchronised arrivals fall in the same fabric
cycle, executes the task once (R199, R200). The turnout is judged as it stands when the event is synchronised (R204, log entry
119); in STANDBY the clocks of the blocks of turnouts 64 to 111 stand, and their events wait (log entry 119). -/
def deliver (s : State) (t more : Nat) (sub : Int) : State :=
  match arrivalsAt s t with
  | [] => s
  | a :: rest =>
    if 64 ≤ t && t < 112 && s.get .sleepMode == 1 then s
    else
      let m := min more rest.length
      let taken := ((a :: rest).take (m + 1)).filter fun e => turnoutTakes s t e.chan
      let s := { s with arrivals := dropArrivals s.arrivals t (m + 1) }
      match taken with
      | [] => s
      | e :: l => turnoutTask (s.bump .EV_TOCOAL 0xFFFF t 0 l.length) t e.at_ sub

/-- A compare that lies at or before the tick in which it takes effect publishes at the next boundary, and LATE is set
(R214). -/
def judgeLate (s : State) (u : Nat) : State :=
  if s.bit .CT_CFG_CMPEN u && decide (s.get .CT_CMP u ≤ s.now) then (s.raise .CT_STAT_LATE u).put .cmpFrom (s.now + 1) u
  else s.put .cmpFrom 0 u

/-- Timers whose CMP a write of the tick stores, or whose compare it arms (R214). -/
def comparesWritten (s : State) : List Nat :=
  (List.range 32).filter fun u =>
    s.writes.any fun w => w.key.i == u && (w.key.fld == .CT_CMP || (w.key.fld == .CT_CFG_CMPEN && w.val == 1 && !s.bit .CT_CFG_CMPEN u))

/-- At a control-tick boundary, after the tick's writes: a START gives its compare, and a compare that took effect is
judged against the tick (R214). -/
def compareBoundary (s : State) (wrote : List Nat) : State :=
  s.each (List.range 32) fun s u =>
    if s.bit .startPend u then
      judgeLate (((s.put .CT_CMP (s.get .startCmp u) u).raise .CT_CFG_CMPEN u).clear .startPend u) u
    else if wrote.contains u then judgeLate s u
    else s

/-- The compare of timer `u` is due: armed, its tick has come, and a late one has waited for its boundary (R214). -/
def compareDue (s : State) (u : Nat) : Bool :=
  s.bit .CT_CFG_CMPEN u && decide (s.get .CT_CMP u ≤ s.now) && decide (s.get .cmpFrom u ≤ s.now) &&
  s.get .sleepMode != 2

/-- A compare match: MATCH, the publication on OUTCH, and the next compare or the disarming (R214). -/
def compareMatch (s : State) (u : Nat) : State :=
  if !compareDue s u then s
  else
    let s := s.raise .CT_STAT_MATCH u
    let s := if s.bit .CT_CFG_OUTEN u then publish s (s.nat .CT_CFG_OUTCH u) else s
    if s.bit .CT_PER u then judgeLate (s.put .CT_CMP (unsigned 64 (s.get .CT_CMP u + s.get .CT_PER u)) u) u
    else s.clear .CT_CFG_CMPEN u

/-- On return to RUN a compare whose tick has passed meanwhile is late (R215). -/
def compareResume (s : State) : State :=
  s.each ((List.range 32).filter fun u => s.bit .CT_CFG_CMPEN u && decide (s.get .CT_CMP u < s.now)) judgeLate

/-- EV_PUB (R205). -/
def execEvPub (k : CoreId) (ch : Channel) (s : State) : Out := .next (corePublish s k (supervisor s k) ch)

/-- EV_PROXYPUB (R205). -/
def execEvProxypub (k : CoreId) (ch : Channel) (s : State) : Out := .next (proxyPublish s k (supervisor s k) ch)

/-- EV_UPUB (R205). -/
def execEvUpub (k : CoreId) (ch : Channel) (s : State) : Out := .next (userPublish s k ch)

/-- TURNOUT_DELIVERY (R199, R200). -/
def execTurnoutDelivery (t : Turnout) (more : Fin 16) (sub : Fin 20) (s : State) : Out :=
  .next (deliver s t more (sub : Nat))

/-- STORM_REARM (R211). -/
def execStormRearm (ch : Channel) (s : State) : Out := .next (rearm s ch)

/-- CHANNEL_LOCK (R208). -/
def execChannelLock (ch : Channel) (s : State) : Out := .next (s.setBits .EV_LOCK (2 ^ (ch : Nat)))

/-- TURNOUT_CONFIG (R207, R208). -/
def execTurnoutConfig (k : CoreId) (t : Turnout) (ch : Channel) (en : Bool) (s : State) : Out :=
  .next (turnoutWrite s k (supervisor s k) t ch en)

/-- CAPTURE (R213): the oldest event at the CAP turnout is recorded. -/
def execCapture (u : Timer) (sub : Fin 20) (s : State) : Out := .next (deliver s (2 * u) 0 (sub : Nat))

/-- CAPTURE_RELEASE (R213). -/
def execCaptureRelease (u : Timer) (s : State) : Out := .next (s.clear .CT_STAT_CAPV u)

/-- COMPARE_START (R214): the oldest event at the START turnout arms the compare. -/
def execCompareStart (u : Timer) (s : State) : Out := .next (deliver s (2 * u + 1) 0 0)

/-- COMPARE_MATCH (R214). -/
def execCompareMatch (u : Timer) (s : State) : Out := .next (compareMatch s u)

end Sys2Proof.Machine
end

