-- ==== Sys2Proof/Machine/Rails.lean ====
section
/-! DEFINITION. Rail transitions (01_delivery_model.md, R22 to R31): the rows of R24, stop requests, fault scopes and the
evaluation of every rail at a boundary. -/
namespace Sys2Proof.Machine

/-- The reference equals `level` codes (R24 rows 7 and 8, R75). -/
def refAt (s : State) (r : Nat) (level : Int) : Bool := s.get .LN_REF r == 1024 * level

/-- The boundary from which a false enable runs, judged at boundary `t` (R24 row 5). -/
def enableOffAt (s : State) (r : Nat) (t : Int) : Int := if s.bit .enOff r then s.get .enOffAt r else t

/-- The boundary from which the stop delay runs (R24 row 5). -/
def stopDelayFrom (s : State) (r : Nat) (t : Int) : Int :=
  (dependents s r).foldl (fun m d => max m (s.get .downAt d)) (enableOffAt s r t)

/-- Self-tests that let rails leave OFF are complete (R64, R116, R179, R400). -/
def fabricReady (s : State) : Bool :=
  s.bit .fabricOn && s.bit .FL_STATUS_RDY && s.bit .SL_STATUS_RDY && s.bit .WP_STATUS_RDY

/-- A rail in FAULT is out of it at boundary `t`: before it, or by a transition made there (R176). -/
def leavesFault (s : State) (t : Int) (q : Nat) : Bool :=
  oldState s q != stFAULT || s.bit .railMoved q || s.bit .fclrReq q || retryDue s q t fun _ => false

/-- The first row of R24 that matches rail `r` at boundary `t`: the new state and its CAUSE. -/
def railRow (s : State) (r : Nat) (t : Int) : Option (Int × Int) :=
  let st := oldState s r
  let runs := st == stRAMPUP || st == stREG || st == stRAMPDN
  let up := st == stRAMPUP || st == stREG
  if runs && (s.bit .faultCodes r || s.bit .scopeReq r) then some (stFAULT, if s.bit .faultCodes r then 5 else 4)
  else if st == stRAMPUP && t ≥ s.get .rampSince r + 40000 * s.get .DM_RAILTMO_STMO r then some (stFAULT, 6)
  else if (st == stOFF && fabricReady s || st == stUNUSED) && s.bit .rsReq r then some (stRESTR, 7)
  else if up && s.bit .stopReq r then some (stRAMPDN, 3)
  else if up && !enabled s r && dependentsDown s r && t ≥ stopDelayFrom s r t + 160 * s.get .DM_RAILDLY_PDLY r then
    some (stRAMPDN, 2)
  else if st == stOFF && enabled s r && predsSatisfied s r t && t ≥ s.get .offSince r + 16000
      && fabricReady s && !startBlocked s r then some (stRAMPUP, 1)
  else if st == stRAMPUP && refAt s r (s.get .LN_VSET r) && inPgoodWindow s r then some (stREG, 1)
  else if st == stRAMPDN && refAt s r (s.get .LN_STOPLVL r) then some (stOFF, 2)
  else if st == stFAULT && (s.bit .fclrReq r || retryDue s r t (leavesFault s t)) then some (stOFF, 0)
  else if st == stRESTR && s.bit .rsDone r then some (if s.get .rsDone r == 2 then stUNUSED else stOFF, 0)
  else none

/-- Send a stop request to each dependent of rail `r`; it acts at the boundary after the coming one (R28). -/
def stopDependents (s : State) (r : Nat) : State := s.each (dependents s r) fun s d => s.raise .stopNext d

/-- The fault scope of rail `r` reaches the other rails of its domain, or of the device (R29). -/
def extendScope (s : State) (r : Nat) : State :=
  let fs := s.get .DM_RAILCFG_FSCOPE r
  if fs != 1 && fs != 2 then s
  else
    s.each ((List.range 16).filter fun q =>
        q ≠ r && !s.bit .scopeNext q && (fs == 2 || s.get .DM_RAILCFG_DOMAIN q == s.get .DM_RAILCFG_DOMAIN r))
      fun s q => (s.raise .scopeNext q).put .scopeByNext r q

/-- What entering FAULT does beyond the transition (R24, R29, R174). -/
def faultEntry (s : State) (r : Nat) (cause t : Int) : State :=
  let s := if cause == 6 then s.raise .DM_RAILSTAT_STARTTMO r else s
  let m := if cause == 6 then 1 else s.get .faultCodes r + (if s.bit .scopeReq r then 2 ^ 15 else 0)
  let s := s.put .scopeFrom (s.get .scopeBy r) r
  let s := enterFault s r m (s.bit .faultLatchReq r) t
  let s := ((s.clear .faultCodes r).clear .faultLatchReq r).clear .auxReq r
  if cause == 4 then s else extendScope s r

/-- What entering RAMP_UP does beyond the transition (R24 row 2, R82, R117, R183). -/
def rampEntry (s : State) (r : Nat) (t : Int) : State :=
  let s := countStarts (s.put .rampSince t r) r
  s.each (railSlots s r) fun s j => (s.clear .SL_PTEST_FORCE (slotPhase s r j)).clear .lnBalFrom r j

/-- Rail `r` takes its transition of boundary `t` (R24, R28, R29, R31). -/
def moveRail (s : State) (r : Nat) (dest cause t : Int) : State :=
  let st := railState s r
  let s := ((s.put .prevState st r).put .prevPg (s.get .DM_RAILSTAT_PGOOD r) r).raise .railMoved r
  let s := (s.put .DM_RAILSTAT_STATE dest r).put .DM_RAILSTAT_CAUSE cause r
  let s := if st == stREG || cause == 3 then stopDependents s r else s
  let s := if st == stREG then
      (((s.clear .DM_RAILSTAT_PGOOD r).clear .pgIn r).clear .pgOut r).clear .regMt r else s
  let down := fun (x : Int) => x == stOFF || x == stFAULT || x == stUNUSED
  let s := if down dest && !down st then s.put .downAt t r else s
  let s := if st == stFAULT then leaveFault s r (s.bit .fclrReq r) else s
  let s := if dest == stOFF then s.put .offSince t r else s
  let s := if st == stRESTR then activeChanged s r else s
  let s := if dest == stRAMPUP then rampEntry s r t else s
  if dest == stFAULT then faultEntry s r cause t else s

/-- The enable is judged at boundary `t` (R24 row 5, R28): first judged false in RAMP_UP or REGULATING, it sends a stop
request to each dependent. -/
def judgeEnable (s : State) (r : Nat) (t : Int) : State :=
  if railState s r == stUNUSED then s
  else if enabled s r then s.clear .enOff r
  else if s.bit .enOff r then s
  else
    let s := (s.raise .enOff r).put .enOffAt t r
    if oldState s r == stRAMPUP || oldState s r == stREG then stopDependents s r else s

/-- The requests of a rail for the boundary that has passed end; those it made act at the next one. -/
def clearRequests (s : State) (r : Nat) : State :=
  let keep := s.bit .railMoved r && railRuns s r && s.bit .faultCodes r
  let s := if keep then s else ((s.clear .faultCodes r).clear .faultLatchReq r).clear .auxReq r
  let s := ((s.clear .fclrReq r).clear .rsReq r).clear .rsDone r
  let s := (s.put .stopReq (s.get .stopNext r) r).clear .stopNext r
  let s := (s.put .scopeReq (s.get .scopeNext r) r).clear .scopeNext r
  (s.put .scopeBy (s.get .scopeByNext r) r).clear .railMoved r

/-- Every rail is evaluated once at boundary `t`, on the inputs of the tick before (R23). -/
def railBoundary (s : State) (t : Int) : State :=
  let s := s.each (List.range 16) fun s r => judgeEnable s r t
  let rows := (List.range 16).map fun r => (r, if s.bit .railMoved r then none else railRow s r t)
  let s := s.each (List.range 16) fun u r =>
    u.put .DM_RAILSTAT_PREDOK (bit01 (railState s r != stUNUSED && predsSatisfied s r t)) r
  let s := s.each rows fun s e =>
    match e.2 with
    | none => s
    | some (dest, cause) => moveRail s e.1 dest cause t
  s.each (List.range 16) clearRequests

/-- A row of R24 taken for the coming boundary when it is the one that matches. -/
def takeRow (s : State) (r : Nat) (dest cause : Int) : State :=
  if !s.bit .railMoved r && railRow s r (s.now + 1) == some (dest, cause) then moveRail s r dest cause (s.now + 1) else s

/-- FCLR (R24 row 9): ignored in any state other than FAULT. -/
def fclrWrite (s : State) (r : Nat) : State := if railState s r == stFAULT then s.raise .fclrReq r else s

/-- RSREQ (R24 row 3): in any state other than OFF or UNUSED it sets REQERR. -/
def rsreqWrite (s : State) (r : Nat) : State :=
  if railState s r == stOFF || railState s r == stUNUSED then s.raise .rsReq r else s.raise .DM_STATUS_REQERR

/-- START_TIMEOUT (R24 row 2). -/
def startTimeout (s : State) (r : Nat) : State := takeRow s r stFAULT 6

/-- STOP_DELAY_EXPIRY (R24 row 5). -/
def stopDelayExpiry (s : State) (r : Nat) : State := takeRow s r stRAMPDN 2

/-- OFF_DWELL_EXPIRY (R24 row 6). -/
def offDwellExpiry (s : State) (r : Nat) : State := takeRow s r stRAMPUP 1

/-- RETRY_EXPIRY (R24 row 9, R174): the retry delay of a rail that uses its retries has elapsed. -/
def retryExpiry (s : State) (r : Nat) : State :=
  if s.bit .fclrReq r || !usesRetries (s.get .faultIn r) then s else takeRow s r stOFF 0

/-- AUX_FAULT_CLEAR (R174): the input that brought the rail into FAULT with code 6 has stayed INSIDE. -/
def auxFaultClear (s : State) (r : Nat) : State :=
  if s.bit .fclrReq r || !bitAt (s.get .faultIn r) 6 then s else takeRow s r stOFF 0

def execFclr (r : Rail) (s : State) : Out := .next (fclrWrite s r)
def execRsreq (r : Rail) (s : State) : Out := .next (rsreqWrite s r)
def execStartTimeout (r : Rail) (s : State) : Out := .next (startTimeout s r)
def execStopDelayExpiry (r : Rail) (s : State) : Out := .next (stopDelayExpiry s r)
def execOffDwellExpiry (r : Rail) (s : State) : Out := .next (offDwellExpiry s r)
def execRetryExpiry (r : Rail) (s : State) : Out := .next (retryExpiry s r)
def execAuxFaultClear (r : Rail) (s : State) : Out := .next (auxFaultClear s r)

end Sys2Proof.Machine
end

