-- ==== Sys2Proof/Machine/Recorder.lean ====
section
/-! DEFINITION. The Tailwater recorder (15_memory_dma_recorder.md, R359 to R366): records, the write queue, the ring and
its freeze, and the staging window. -/
namespace Sys2Proof.Machine

/-- An integer as a 16-bit word (two's complement). -/
def w16 (v : Int) : W16 := BitVec.ofInt 16 v

/-- A 32-bit integer as its low and high words (R3). -/
def w32 (v : Int) : List W16 := [w16 v, w16 (shr v 16)]

/-- The CRC of R271 variant 0 folded over words, each word bit 0 first. -/
def crcWords (reg : BitVec 16) (l : List W16) : BitVec 16 :=
  l.foldl (fun reg w => (List.range 16).foldl (fun reg i => crcStep reg (w.getLsbD i)) reg) reg

/-- A record (R359): its header, the tick and its body, filled up with zeros to word 14, and the CRC. -/
def mkRecord (typ index seq : Nat) (tick : Int) (body : List W16) : List W16 :=
  let l := [w16 ((typ + 16 * index + 256 * seq : Nat) : Int), w16 tick, w16 (shr tick 16), w16 (shr tick 32)] ++
    (List.range 11).map fun i => body.getD i 0#16
  l ++ [crcWords 0xFFFF#16 l]

/-- A post-count begins; a freeze while one runs, or while the ring is frozen, does not restart it (R364). -/
def startPost (s : State) : State :=
  if s.bit .recPosting || s.bit .RC_STATUS_FROZEN then s else (s.raise .recPosting).put .recPost (s.get .RC_FRZPOST)

/-- A generated record enters the write queue, or is dropped and counted (R362, R364). -/
def enqueue (s : State) (typ index : Nat) (snap freeze : Bool) (body : List W16) : State :=
  let rec_ := mkRecord typ index (s.nat .recSeq) s.now body
  let s := s.put .recSeq ((s.get .recSeq + 1) % 256)
  let n := s.recQueue.length
  if s.bit .RC_STATUS_FROZEN then s
  else if snap && decide (n ≥ 56) then s.bump .RC_DROP 0xFFFF
  else if n ≥ 64 then
    let s := s.bump .RC_DROPF 0xFFFF
    if freeze then startPost s else s
  else { s with recQueue := s.recQueue ++ [⟨rec_, freeze⟩] }

/-- The body of a rail snapshot (R360). -/
def railBody (s : State) (r : Nat) : List W16 :=
  [w16 (s.get .DM_RAILSTAT_STATE r + 8 * s.get .DM_RAILSTAT_PGOOD r + 16 * (s.get .LN_STATUS_NACT r % 128) +
      2048 * s.get .frzNow r + 4096 * s.get .burstOn r),
   w16 (s.get .FL_VWREF r), w16 (s.get .FL_VMEAN r), w16 (s.get .FL_VMIN r), w16 (s.get .FL_VMAX r)] ++
  w32 (s.get .DM_RAILCUR_ICUR r) ++ w32 (s.get .LN_CMD r) ++ w32 (s.get .LN_FFC r)

/-- The number of member slots of a rail (R13). -/
def memberCount (s : State) (r : Nat) : Nat := (railSlots s r).length

/-- The body of a phase snapshot of the eight slots from `j` (R360). -/
def phaseBody (s : State) (r j : Nat) : List W16 :=
  let slot := fun i => j + i
  let mem := fun i => decide (slot i < memberCount s r)
  [w16 (j + 256 * sumI ((List.range 8).map fun i => if mem i && s.bitOf .SL_RACT (slot i) r then (2 : Int) ^ i else 0))] ++
  ((List.range 8).map fun i => if mem i then w16 (s.get .FL_PHMEAN (slotPhase s r (slot i))) else 0#16) ++
  [w16 (sumI ((List.range 8).map fun i =>
    if mem i then s.get .SL_PSTAT_LEVEL (slotPhase s r (slot i)) * (4 : Int) ^ i else 0))]

/-- WP_RFLAG as software reads it (R180). -/
def wpRflag (s : State) (r : Nat) : Int :=
  sumI ([Fld.WP_RFLAG_OV, .WP_RFLAG_UV, .WP_RFLAG_ROC, .WP_RFLAG_OVGLITCH, .WP_RFLAG_OVOFF, .WP_RFLAG_SENSE, .WP_RFLAG_LSAT,
    .WP_RFLAG_WLOST, .WP_RFLAG_TRLOST, .WP_RFLAG_RTEXH, .WP_RFLAG_AUX].zipIdx.map fun e => s.get e.1 r * (2 : Int) ^ e.2)

/-- The body of a fault record: KIND 0 a rail FAULT entry, KIND 1 a phase retirement (R360). -/
def faultBody (s : State) (r : Nat) (p : Option Nat) : List W16 :=
  let (kind, cause, ph) : Int × Int × Int := match p with
    | none => (0, s.get .WP_RSTAT_FCAUSE r, 0)
    | some p => (1, s.get .PH_PSTAT_RCAUSE p, (p : Int))
  [w16 (kind + 16 * cause + 256 * s.get .DM_RAILSTAT_CAUSE r), w16 ph, w16 (wpRflag s r), w16 (s.get .LN_FLAG r),
   w16 (s.get .FL_VMEAN r)] ++ w32 (s.get .DM_RAILCUR_ICUR r) ++ [w16 (s.get .FL_VWREF r)]

/-- Rail `r` has entered FAULT at the present boundary. -/
def faultedNow (s : State) (r : Nat) : Bool := railState s r == stFAULT && s.get .faultAt r == s.now

/-- Phases of rail `r`, or of no rail, retired at the present boundary. -/
def retiredNow (s : State) (r : Option Nat) : List Nat :=
  (List.range 128).filter fun p => s.bit .PH_PSTAT_RET p && s.get .retAt p == s.now && railOf s p == r

/-- The records of a tick, in the order of R361: fault, event, rail and phase records (message records come with their
GO). Of a phase that no rail holds the spec states no INDEX and no rail values: those of a free rail (log entry 129). A rail of RC_FRZMASK that enters FAULT freezes the ring (R364). -/
def generateRecords (s : State) : State :=
  let s := s.each (List.range 16) fun s r =>
    let s := if faultedNow s r then
        let f := s.bitOf .RC_FRZMASK r && !s.bit .recPosting && !s.bit .RC_STATUS_FROZEN
        let s := if s.bitOf .RC_FRZMASK r then s.put .recFrzAt s.now else s
        enqueue s 4 r false f (faultBody s r none)
      else s
    s.each (retiredNow s (some r)) fun s p => enqueue s 4 r false false (faultBody s r (some p))
  let s := s.each (retiredNow s none) fun s p =>
    let (i, s) := s.fresh
    let r := (Config.freeInt i % 16).toNat
    enqueue s 4 r false false (faultBody s r (some p))
  let s := s.each ((List.range 64).filter fun c => s.bitOf .RC_EVMASK c && s.bit .recEv c) fun s c =>
    enqueue s 3 0 false false [w16 (c : Int), w16 (s.get .recEv c)]
  let masked := (List.range 16).filter fun r => s.bitOf .RC_RAILMASK r
  let per := s.get .RC_RAILPER
  let s := s.each (masked.filter fun (r : Nat) => per > 0 && s.now % per == (r : Int) % per) fun s r =>
    enqueue s 1 r true false (railBody s r)
  let php := s.get .RC_PHPER
  if php > 0 && s.now % php == 0 then
    s.each masked fun s r =>
      s.each ((List.range 8).filter fun g => 8 * g < memberCount s r) fun s g =>
        enqueue s 2 r true false (phaseBody s r (8 * g))
  else s

/-- The ring and the staging window are disabled without DDR4 (R350). -/
def noDdr (s : State) : Bool := s.bit .RC_STATUS_NODDR

/-- A staging trigger (R363): the index is recorded and 65,536 − STGPRE further records are taken. -/
def stgTrigger (s : State) : State :=
  if !s.bit .RC_STATUS_STGARMED || s.bit .stgOn then s
  else ((s.put .RC_STGTRIG (s.get .stgJ)).raise .stgOn).put .stgLeft (65536 - s.get .RC_STGPRE)

/-- A snapshot of rail `r` is written to the staging SRAM (R363). -/
def stgRecord (s : State) (r : Nat) : State :=
  if noDdr s || !s.bit .RC_STATUS_STGARMED || (s.bit .stgOn && s.get .stgLeft == 0) then s
  else
    let j := s.nat .stgJ
    let l := mkRecord 1 r (s.nat .recSeq) s.now (railBody s r)
    let s := s.each l.zipIdx fun s e => s.storeFresh (0x1000000 + 16 * j + e.2) e.1
    let s := s.put .stgJ ((s.get .stgJ + 1) % 65536)
    if s.bit .stgOn then s.put .stgLeft (s.get .stgLeft - 1) else s

/-- The staging window of a tick (R363): a rail of RC_STGTRGMASK that enters FAULT triggers; then every masked rail is
recorded, in ascending order. -/
def stgTick (s : State) : State :=
  let s := if (List.range 16).any fun r => faultedNow s r && s.bitOf .RC_STGTRGMASK r then stgTrigger s else s
  let s := if (List.range 16).any fun r => faultedNow s r && s.bitOf .RC_FRZMASK r then stgTrigger s else s
  s.each ((List.range 16).filter fun r => s.bitOf .RC_STGMASK r) stgRecord

/-- The recorder's part of a control tick (R361, R363). -/
def recorderTick (s : State) : State :=
  let s := s.put .recEnab (s.get .RC_CTRL_EN)
  let s := if s.bit .recEnab then generateRecords s else s
  let s := s.each (List.range 64) fun s c => s.clear .recEv c
  stgTick s

/-- The oldest queued record is written to the ring (R361, R364). -/
def recordWrite (s : State) : State :=
  match s.recQueue with
  | [] => s
  | q :: rest =>
    if s.bit .RC_STATUS_FROZEN || (s.bit .recPosting && s.get .recPost == 0) || !ddrReady s then s
    else
      let i := s.nat .RC_WIDX
      let s := { s with recQueue := rest }
      let s := s.each q.words.zipIdx fun s e => (memWrite s (s.nat .RC_BASE + 16 * i + e.2) e.1).2
      let s := s.put .RC_WIDX ((s.get .RC_WIDX + 1) % 2 ^ 24)
      let s := if i + 1 = 2 ^ 24 then s.raise .RC_STATUS_WRAPPED else s
      if q.freeze && !s.bit .recPosting then startPost (s.put .RC_FRZIDX i)
      else if s.bit .recPosting then s.put .recPost (s.get .recPost - 1) else s

/-- The post-count is complete and the ring stops (R364). -/
def ringFrozen (s : State) : State :=
  if s.bit .recPosting && s.get .recPost == 0 then (s.raise .RC_STATUS_FROZEN).clear .recPosting else s

/-- FRZNOW: the ring freezes now, which is also a staging trigger; FRZPOST further records are written (R363, R364; DEDUCED, log
entry 130). -/
def freezeNow (s : State) : State :=
  if noDdr s then s else stgTrigger ((startPost s).put .recFrzAt s.now)

/-- RESUME clears FROZEN; in the tick of a new freeze cause the freeze stands (R364, R366). -/
def recResume (s : State) : State :=
  if s.get .recFrzAt == s.now then s else s.clear .RC_STATUS_FROZEN

/-- STGARM re-arms the window and clears WINV (R363). -/
def stgArm (s : State) : State :=
  if noDdr s then s else ((s.raise .RC_STATUS_STGARMED).clear .RC_STATUS_WINV).clear .stgOn

/-- The window has taken its last record (R363). -/
def stgDone (s : State) : State :=
  if s.bit .RC_STATUS_STGARMED && s.bit .stgOn && s.get .stgLeft == 0 then
    ((s.clear .RC_STATUS_STGARMED).clear .stgOn).raise .RC_STATUS_WINV
  else s

/-- A write of RC_MSGGO of core `k` (R366): a second one in the tick is ignored and sets CFGERR. -/
def msgGo (s : State) (k : Nat) : State :=
  if s.get .recMsgAt k == s.now then s.raise .RC_STATUS_CFGERR
  else
    let s := s.put .recMsgAt s.now k
    if s.bit .recEnab then enqueue s 5 k false false ((List.range 11).map fun w => w16 (s.get .RC_MSG k w)) else s

/-- A write of RC_CTRL (R367): EN is not stored without DDR4 (R350). -/
def recCtrlWrite (s : State) (v : Int) : State :=
  let s := if noDdr s then s.when (bitAt v 0) (·.raise .RC_STATUS_CFGERR) else s.put .RC_CTRL_EN (field v 0 0)
  let s := if bitAt v 1 then recResume s else s
  let s := if bitAt v 2 then freezeNow s else s
  let s := if bitAt v 3 then stgArm s else s
  if bitAt v 4 then stgTrigger s else s

/-- A write of RC_BASE (R361): stored only while EN = 0, and only a base whose ring lies below the spare pool. -/
def recBaseWrite (s : State) (v : Int) : State :=
  let b := v.toNat
  if s.bit .RC_CTRL_EN then s.raise .RC_STATUS_CFGERR
  else if b % 0x10000000 = 0 ∧ 0x80000000 ≤ b ∧ b + 0x10000000 ≤ 0x80000000 + ddrWords s - 0x100000 then s.put .RC_BASE v
  else s.raise .RC_STATUS_CFGERR

/-- A write of RC_FRZPOST: values above 2^24 − 1 are illegal (R364). -/
def frzPostWrite (s : State) (v : Int) : State := if v < 2 ^ 24 then s.put .RC_FRZPOST v else s.raise .RC_STATUS_CFGERR

/-- The bits set in a mask of 16. -/
def popCount (v : Int) : Nat := ((List.range 16).filter fun i => bitAt v i).length

/-- Core `by_` may write the message words and the GO of core `k`: tick cores only their own (R366, R367). -/
def mayMessage (by_ k : Nat) : Bool := by_ == 5 || by_ == k

def execRecordWrite (s : State) : Out := .next (recordWrite s)
def execRingFrozen (s : State) : Out := .next (ringFrozen s)
def execFrznow (s : State) : Out := .next (freezeNow s)
def execRcResume (s : State) : Out := .next (recResume s)
def execStgarm (s : State) : Out := .next (stgArm s)
def execTrig (s : State) : Out := .next (stgTrigger s)
def execStagingWindowDone (s : State) : Out := .next (stgDone s)
/-- MSGGO (R366): a write of RC_MSGGOk by core `by_`. -/
def execMsggo (by_ k : CoreId) (s : State) : Out := .next (if mayMessage by_ k then msgGo s k else s)

end Sys2Proof.Machine
end

