-- ==== Sys2Proof/Machine/Headgate.lean ====
section
/-! DEFINITION. The Headgate (16_headgate_host.md, R368 to R376 and R386): message queues, tags and epochs, the checks of
R372 and the firmware's execution of the messages of R371, completions, and the status copies. -/
namespace Sys2Proof.Machine

/-! Bytes. -/

/-- A little-endian number from bytes. -/
def leNat (l : List Byte) : Nat := l.foldr (fun b n => b.toNat + 256 * n) 0

/-- The `n` low bytes of a number, low byte first. -/
def leBytes (n : Nat) (v : Int) : List Byte := (List.range n).map fun i => BitVec.ofInt 8 (shr v (8 * i))

/-- The bytes of words, low byte first. -/
def wordBytes (l : List W16) : List Byte := l.flatMap fun (w : W16) => [w.setWidth 8, (w >>> 8).setWidth 8]

/-- Words `a` to `a + n - 1` of the read cache of rail `r`, as bytes (R388, R390). -/
def cacheBytes (s : State) (r a n : Nat) : List Byte :=
  (List.range n).flatMap fun i => leBytes 2 (s.get .HG_CACHE r (a + i))

/-- A little-endian value of `n` bytes at byte `b` of the read cache. -/
def cacheVal (s : State) (r b n : Nat) : Int := leNat (((cacheBytes s r 0 16).drop b).take n)

/-! Completion status codes (R373). -/
def hgDONE : Int := 0
def hgPOLICY : Int := 1
def hgWPROT : Int := 2
def hgRANGE : Int := 3
def hgALLOT : Int := 4
def hgBADTARGET : Int := 5
def hgBADOP : Int := 6
def hgSTATE : Int := 7
def hgNOTHOST : Int := 8
def hgTIMEOUT : Int := 10
def hgRESTART : Int := 12

/-! Queues and completions (R369, R370, R374). -/

/-- Queue depth of a port (R369). -/
def hgDepth (p : Nat) : Nat := if p = 0 then 8 else if p = 5 then 16 else 4

/-- The messages queued at a port. -/
def queuedAt (s : State) (p : Nat) : List HgMsg := s.hgQueue.filter fun m => m.port == p

/-- The registers that show the queues (R390). -/
def hgSync (s : State) : State :=
  let s := s.each (List.range 6) fun s p => s.put .HG_PSTAT_QUSED (queuedAt s p).length p
  (s.put .HG_STATUS_RQAV (bit01 (!s.hgQueue.isEmpty))).put .HG_STATUS_CPLFULL (bit01 (decide (s.hgCpl.length ≥ 16)))

/-- The queue of a port is full. -/
def hgFull (s : State) (p : Nat) : Bool := decide ((queuedAt s p).length ≥ hgDepth p)

/-- A message joins its port's queue. -/
def hgPush (s : State) (m : HgMsg) : State := hgSync { s with hgQueue := s.hgQueue ++ [m] }

/-- A message of port 0 to 4, tagged and stamped by the hardware (R376). -/
def hgQueueOwn (s : State) (p cmd margin : Nat) (parts : List HgPart) : State :=
  let t := s.nat .hgTag p
  let s := s.put .hgTag ((t + 1) % 256 : Nat) p
  hgPush s ⟨p, t, s.nat .HG_PSTAT_EPOCH p, parts, cmd, margin, s.now⟩

/-- The STATUS_CML bit that a status other than DONE sets (R382). -/
def cmlBit (st : Int) : Int :=
  if st == hgPOLICY || st == hgWPROT then 128 else if st == hgTIMEOUT || st == hgRESTART then 2 else 64

/-- Set bits of STATUS_CML. -/
def setCml (s : State) (m : Int) : State := s.setBits .pmbCml m

/-- The completion of a message of a port (R370 to R375, R382, R387): one of an earlier epoch is discarded and counted;
on the MSPI it joins the completions, unless its tag has been aborted. -/
def hgComplete (s : State) (m : HgMsg) (st : Int) (payload : List Byte) : State :=
  if m.epoch ≠ s.nat .HG_PSTAT_EPOCH m.port then s.bump .HG_STALE 0xFFFF m.port
  else if m.port = 5 then
    if s.bit .tagDead m.tag then s
    else
      let q := m.parts.headD ⟨0, 0, []⟩
      let s := s.put .HG_PSTAT_LAST st 5
      hgSync { s with hgCpl := s.hgCpl ++ [⟨q.typ, m.tag, m.epoch, st.toNat, q.target, payload, none⟩] }
  else
    let s := s.put .HG_PSTAT_LAST st m.port
    if m.port = 0 then s.when (st != hgDONE) fun s => setCml s (cmlBit st)
    else
      let done := st == hgDONE
      (s.when (!done) fun s => s.raise .avsAlert m.port).each (m.parts.filter fun q => q.typ == 0x20 && s.bit .vdPend q.target)
        fun s q => s.put .vdPend (if done then 2 else 0) q.target

/-- Ports in round-robin order from the one that comes next (R369). -/
def portOrder (s : State) : List Nat := (List.range 6).map fun i => (s.nat .hgNext + i) % 6

/-- The message bears an epoch that is no longer its port's (R375, R376). -/
def staleIn (s : State) (m : HgMsg) : Bool := m.epoch != s.nat .HG_PSTAT_EPOCH m.port

/-- Discard the stale messages of some ports, counting them (R375, R376). -/
def dropStale (s : State) (due : Nat → Bool) : State :=
  let drop := fun m : HgMsg => due m.port && staleIn s m
  let s' := s.each (s.hgQueue.filter drop) fun t m => t.bump .HG_STALE 0xFFFF m.port
  { s' with hgQueue := s.hgQueue.filter fun m => !drop m }

/-- A port is served: without verified firmware or structure image only port 5 (R401), and port 5 while one of its completion slots
is free (R378). -/
def served (s : State) (p : Nat) : Bool :=
  if p = 5 then decide (s.hgCpl.length < 16) else !s.bit .IM_STATE_NOFW && !s.bit .IM_STATE_NOSI

/-- The port whose message is next: the first, in round-robin order, that holds one of its present epoch (R369). -/
def nextPort (s : State) : Option Nat :=
  (portOrder s).find? fun p => served s p && (queuedAt s p).any fun m => !staleIn s m

/-- The stale messages that come due while the firmware looks for the next message: those of the ports up to the one it takes
(R376). -/
def dropDue (s : State) : State :=
  match nextPort s with
  | none => dropStale s (served s)
  | some q => dropStale s fun p => served s p && decide ((portOrder s).idxOf p ≤ (portOrder s).idxOf q)

/-- Types that R371 lists; others are answered BADOP. -/
def knownType (t : Nat) : Bool :=
  [0x10, 0x11, 0x20, 0x21, 0x22, 0x23, 0x24, 0x30, 0x31, 0x32, 0x40].contains t || decide (0x50 ≤ t ∧ t ≤ 0x5C)

/-- A message that one of the commands of R371 carries out: its type is known and, of SET_LIMIT and REC_CTRL, its kind. -/
def servedType (q : HgPart) : Bool :=
  let k := (q.payload.getD 0 0).toNat
  knownType q.typ && (q.typ != 0x24 || decide (k ≤ 2)) && (q.typ != 0x31 || decide (k ≤ 3))

/-- Write bytes into the words of a buffer, low byte first. -/
def putBuf (s : State) (f : Fld) (l : List Byte) : State :=
  s.each (List.range ((l.length + 1) / 2)) fun s i => s.put f (leNat ((l.drop (2 * i)).take 2)) i

/-- The status and the completion payload that the firmware gives the message taken (HG_XCTL.STATUS, HG_XCLEN, HG_CBUF). -/
def hgAnswer (s : State) (st : Int) (payload : List Byte) : State :=
  putBuf ((s.put .HG_XCTL_STATUS st).put .HG_XCLEN_LEN payload.length) .HG_CBUF payload

/-- The management core is fused out: no host message is answered (R335). -/
def unmanaged (s : State) : Bool := s.get .LS_PAIR_STATE 5 == pairFUSED

/-- A write of HG_XCTL.TAKE (R369): the next message goes to HG_XHDR and HG_XBUF. One that is taken is completed first. -/
def hgTake (s : State) : State :=
  if s.hgTaken.isSome || unmanaged s then s
  else
    let s := dropDue s
    match (nextPort s).bind fun p => (queuedAt s p).head? with
    | none => hgSync s
    | some m =>
      let q := m.parts.headD ⟨0, 0, []⟩
      let s := { s with hgQueue := s.hgQueue.erase m, hgTaken := some m }
      let s := ((s.put .hgNext ((m.port + 1) % 6 : Nat)).put .HG_XHDR0_TYPE q.typ).put .HG_XHDR0_TAG m.tag
      let s := ((s.put .HG_XHDR1_EPOCH m.epoch).put .HG_XHDR1_PORT m.port).raise .HG_XHDR1_XV
      let s := ((s.put .HG_XHDR1_TARGET q.target).put .HG_XHDR2_LEN q.payload.length).clear .hgDead
      let s := putBuf s .HG_XBUF q.payload
      hgSync (if servedType q then s else hgAnswer s hgBADOP [])

/-- The message taken is no longer held. -/
def hgDrop (s : State) : State := ({ s with hgTaken := none }.clear .HG_XHDR1_XV).clear .hgDead

/-- The bytes of the completion payload in HG_CBUF. -/
def cbufBytes (s : State) : List Byte :=
  ((List.range ((s.nat .HG_XCLEN_LEN + 1) / 2)).flatMap fun i => leBytes 2 (s.get .HG_CBUF i)).take (s.nat .HG_XCLEN_LEN)

/-- A write of HG_XCTL.DONE (R369, R370): the message taken is completed, unless the hardware has completed it. -/
def hgDone (s : State) : State :=
  match (if unmanaged s then none else s.hgTaken) with
  | none => s
  | some m =>
    let dead := s.bit .hgDead
    let s := hgDrop s
    if dead then s else hgComplete s m (s.get .HG_XCTL_STATUS) (cbufBytes s)

/-- A message is overdue: not completed within EXTMO ms of its queueing (R370). -/
def overdue (s : State) (m : HgMsg) : Bool := decide (s.now ≥ m.at_ + 160000 * s.get .HG_CTRL_EXTMO)

/-- The hardware completes the oldest overdue message of a port with TIMEOUT (R370). -/
def execTimeout (s : State) (p : Nat) : State :=
  match s.hgTaken with
  | some m =>
    if m.port = p ∧ overdue s m = true ∧ s.get .hgDead = 0 then hgComplete (s.raise .hgDead) m hgTIMEOUT []
    else
      match (queuedAt s p).head? with
      | none => s
      | some m => if overdue s m then hgComplete { s with hgQueue := s.hgQueue.erase m } m hgTIMEOUT [] |> hgSync else s
  | none =>
    match (queuedAt s p).head? with
    | none => s
    | some m => if overdue s m then hgComplete { s with hgQueue := s.hgQueue.erase m } m hgTIMEOUT [] |> hgSync else s

/-- A management-core reset: a message that the firmware had taken is completed with RESTART (R370). -/
def hgRestart (s : State) : State :=
  match s.hgTaken with
  | none => s
  | some m =>
    let dead := s.bit .hgDead
    let s := hgDrop s
    if dead then s else hgComplete s m hgRESTART []

/-- A write of HG_PCTL.PRST (R376). Whether it falls into a transaction on the port, which is then discarded and counts in PARTIAL
(R389), is left open (log entry 133). -/
def portReset (s : State) (p : Nat) : State :=
  let (n, s) := s.fresh
  let s := s.when (Config.freeBit n && s.bit .HG_PCFG_EN p) fun s => s.bump .HG_PARTIAL 0xFFFF p
  let s := s.put .HG_PSTAT_EPOCH ((s.get .HG_PSTAT_EPOCH p + 1) % 16) p
  { s with avsHeld := s.avsHeld.filter fun e => e.1 != p }

/-! OPEN and ABORT of the MSPI port (R374, R375), which the hardware carries out at their arrival. -/

/-- OPEN: the epoch is set, what belongs to other epochs is discarded and its tags are free. -/
def hgOpen (s : State) (tag epoch : Nat) : State :=
  let old := (queuedAt s 5).filter fun m => m.epoch != epoch
  let oldC := s.hgCpl.filter fun c => c.epoch != epoch
  let tags := old.map (·.tag) ++ oldC.map (·.tag) ++ oldC.filterMap (·.victim) ++ (match s.hgTaken with
    | some m => if m.port = 5 ∧ m.epoch ≠ epoch then [m.tag] else []
    | none => [])
  let s := s.each tags fun s t => (s.clear .tagUse t).clear .tagDead t
  let s := (s.put .HG_PSTAT_EPOCH epoch 5).put .HG_PSTAT_LAST hgDONE 5
  let s := { s with hgQueue := s.hgQueue.filter (fun m => m.port != 5 || m.epoch == epoch),
                    hgCpl := (s.hgCpl.filter fun (c : HgCpl) => c.epoch == epoch) ++ [(⟨1, tag, epoch, 0, 0, [], none⟩ : HgCpl)] }
  hgSync (s.put .tagUse 1 tag)

/-- ABORT of tag `t` (R374, R389): a queued request is removed; of one taken or completed the effect stands and the
completion is discarded; of a tag not in use nothing is done. -/
def hgAbort (s : State) (tag epoch t : Nat) : State :=
  let s := (s.put .tagUse 1 tag).put .HG_PSTAT_LAST hgDONE 5
  if s.get .tagUse t != 1 || t = tag then
    hgSync { s with hgCpl := s.hgCpl ++ [⟨2, tag, epoch, 0, 0, [0], none⟩] }
  else
    let queued := s.hgQueue.any fun m => m.port == 5 && m.tag == t
    let taken := match s.hgTaken with
      | some m => m.port == 5 && m.tag == t
      | none => false
    let s := (s.raise .tagDead t).when taken (·.raise .hgDead)
    let s := { s with hgQueue := s.hgQueue.filter (fun m => !(m.port == 5 && m.tag == t)),
                      hgCpl := s.hgCpl.filter (fun c => c.tag != t) ++ [⟨2, tag, epoch, 0, 0, [if queued then 1 else 0], some t⟩] }
    hgSync s

/-- The quiet time of an aborted tag ends (R374). -/
def tagQuietEnd (s : State) (t : Nat) : State :=
  if s.get .tagUse t == 2 && decide (s.now ≥ s.get .tagQuiet t) then (s.clear .tagUse t).clear .tagDead t else s

/-! The checks and actions of R371 and R372. -/

/-- The class of a message type, as a bit of the port's class mask (R371). -/
def classOf (t : Nat) : Nat :=
  if t < 0x20 then 0 else if t < 0x24 then 1 else if t = 0x24 then 2 else if t < 0x40 then 3 else if t = 0x40 then 4 else 5

/-- The payload has the length and the values of R371 (check 1). -/
def payloadGood (q : HgPart) : Bool :=
  let n := q.payload.length
  let b0 := (q.payload.getD 0 0).toNat
  match q.typ with
  | 0x10 | 0x11 | 0x22 | 0x40 => n == 0
  | 0x20 => n == 2
  | 0x21 => n == 1 && decide (b0 ≤ 1)
  | 0x23 => n == 4
  | 0x24 => n == 5 && decide (b0 ≤ 2)
  | 0x30 => n == 6 && (let c := leNat (q.payload.drop 4); decide (1 ≤ c ∧ c ≤ 128))
  | 0x31 => n == 1 && decide (b0 ≤ 3)
  | 0x32 => n == 4 && (let c := leNat (q.payload.drop 2); decide (1 ≤ c ∧ c ≤ 128))
  | _ => false

/-- WRITE_PROTECT lets the PMBus command through (R384). -/
def wpAllows (s : State) (cmd : Nat) : Bool :=
  let wp := s.get .pmbWp
  if wp == 0x80 then false
  else if wp == 0x40 then [0x00, 0x01, 0x04].contains cmd
  else if wp == 0x20 then [0x00, 0x01, 0x02, 0x04, 0x21].contains cmd
  else true

/-- The rail exists and is not UNUSED (check 3). -/
def railExists (s : State) (r : Nat) : Bool := decide (r < 16) && railState s r != stUNUSED

/-- Checks 3 to 5 of a CONTROL message for rail `r`. -/
def ctlChecks (s : State) (m : HgMsg) (r : Nat) : Option Int :=
  if !railExists s r then some hgBADTARGET
  else if !s.bitOf .hgRails r m.port then some hgPOLICY
  else if m.port = 0 ∧ wpAllows s m.cmd = false then some hgWPROT
  else none

/-- A setpoint is within the image minimum and maximum (check 7), and admissible (check 8). -/
def voutCheck (s : State) (r : Nat) (v : Int) : Option Int :=
  match setpointJudge s r v with
  | .bound => some hgRANGE
  | .refused => some hgALLOT
  | .stored => none

/-- SET_VOUT on one rail. -/
def doVout (s : State) (m : HgMsg) (r : Nat) (v : Int) : Int × State :=
  match ctlChecks s m r with
  | some st => (st, s)
  | none =>
    match voutCheck s r v with
    | some st => (st, s)
    | none => (hgDONE, setpointWrite s r v)

/-- ENSRC lets the host enable the rail (check 6). -/
def hostEnables (s : State) (r : Nat) : Bool := s.get .DM_RAILCFG_ENSRC r == 1 || s.get .DM_RAILCFG_ENSRC r == 2

/-- The message is of a change of PMB_CTRL (R383). -/
def fromCtrl (m : HgMsg) : Bool := decide (m.margin ≥ 4)

/-- What an enable message of port 0 asks of rail `r` by its ON_OFF_CONFIG (R383): PMB_CTRL, OPERATION or both, the one that the
message brings as it brings it; the message's own value where no configuration has been written. -/
def hostEnable (s : State) (m : HgMsg) (r : Nat) (on : Bool) : Bool :=
  if m.port ≠ 0 then on
  else
    let c := s.get .pmbOnOff r
    let oper := if fromCtrl m then decide (s.get .pmbOper r ≥ 0x80) else on
    let ctrl := if fromCtrl m then on else s.bit .pmbCtrl
    if c == 0x16 || c == 0x17 then ctrl
    else if c == 0x1A || c == 0x1B then oper
    else if c == 0x1E || c == 0x1F then oper && ctrl
    else on

/-- The setpoint that goes with an OPERATION or with PMB_CTRL high (R383, R385). -/
def marginSet (s : State) (margin r : Nat) : Option Int :=
  if margin = 1 ∨ margin = 5 then some (s.get .pmbNom r) else if margin = 2 then some (s.get .pmbLow r)
  else if margin = 3 then some (s.get .pmbHigh r) else none

/-- SET_ENABLE on one rail (R371, R372, R386). -/
def doEnable (s : State) (m : HgMsg) (r : Nat) (on : Bool) : Int × State :=
  match ctlChecks s m r with
  | some st => (st, s)
  | none =>
    let clears := !on && m.cmd == 1 && railState s r == stFAULT
    if !hostEnables s r && !clears then (hgNOTHOST, s)
    else if on then
      match (marginSet s m.margin r).bind (voutCheck s r) with
      | some st => (st, s)
      | none =>
        if !admissible s r (s.get .istart r) then (hgALLOT, s)
        else
          let s := match marginSet s m.margin r with
            | some v => setpointWrite s r v
            | none => s
          (hgDONE, s.later .DM_RAILCTL_HOSTEN (bit01 (hostEnable s m r true)) r)
    else
      let s := if clears then fclrWrite s r else s
      (hgDONE, if hostEnables s r then s.later .DM_RAILCTL_HOSTEN (bit01 (hostEnable s m r false)) r else s)

/-- CLEAR_FAULT on one rail. -/
def doClear (s : State) (m : HgMsg) (r : Nat) : Int × State :=
  match ctlChecks s m r with
  | some st => (st, s)
  | none => if railState s r == stFAULT then (hgDONE, fclrWrite s r) else (hgSTATE, s)

/-- Slopes within the bounds of R88 and legal (check 7 of R372). -/
def slopesGood (s : State) (r : Nat) (up dn : Int) : Bool :=
  up != 0 && dn != 0 && s.inBound ⟨.LN_SLEWUP, r, 0⟩ up && s.inBound ⟨.LN_SLEWDN, r, 0⟩ dn

/-- SET_SLEW on one rail. -/
def doSlew (s : State) (m : HgMsg) (r : Nat) (up dn : Int) : Int × State :=
  match ctlChecks s m r with
  | some st => (st, s)
  | none =>
    if slopesGood s r up dn then
      (hgDONE, (s.later .LN_SLEWUP up r).later .LN_SLEWDN dn r)
    else (hgRANGE, s)

/-- A CONTROL message on its target, or on every rail that the port may write and that is not UNUSED (R371). -/
def onRails (s : State) (m : HgMsg) (target : Nat) (f : State → Nat → Int × State) : Int × State :=
  if target = 0xFF then
    ((List.range 16).filter fun r => s.bitOf .hgRails r m.port && railState s r != stUNUSED).foldl
      (fun a r => let b := f a.2 r; (if a.1 == hgDONE then b.1 else a.1, b.2)) (hgDONE, s)
  else f s target

/-- The rail-write mask of a port covers every rail of a list. -/
def covers (s : State) (p : Nat) (l : List Nat) : Bool := l.all fun r => s.bitOf .hgRails r p

/-- SET_LIMIT (R17, R371, R372). -/
def doLimit (s : State) (m : HgMsg) (kind target : Nat) (v : Int) : Int × State :=
  let wp := m.port = 0 ∧ wpAllows s m.cmd = false
  let write := fun (f : Fld) (i : Nat) =>
    if s.inBound ⟨f, i, 0⟩ v then (hgDONE, limitWrite s f i v) else (hgRANGE, s)
  if kind = 0 then
    onRails s m target fun s r =>
      match ctlChecks s m r with
      | some st => (st, s)
      | none => if s.inBound ⟨.DM_RAILLIM_ILIM, r, 0⟩ v then (hgDONE, limitWrite s .DM_RAILLIM_ILIM r v) else (hgRANGE, s)
  else if kind = 1 then
    if target ≥ 8 ∨ s.get .DM_DOMCFG_USED target = 0 then (hgBADTARGET, s)
    else if !covers s m.port (domainRails s target) then (hgPOLICY, s)
    else if wp then (hgWPROT, s)
    else write .DM_DOM_IALLOT target
  else if target ≠ 0 then (hgBADTARGET, s)
  else if !covers s m.port ((List.range 16).filter fun r => railState s r != stUNUSED) then (hgPOLICY, s)
  else if wp then (hgWPROT, s)
  else write .DM_DEV_PALLOT 0

/-- Words of memory read for the host; a word that cannot be read is left open (R379). -/
def readWords (s : State) (a n : Nat) : List W16 × State :=
  (List.range n).foldl (fun x i =>
    match memRead x.2 (a + i) with
    | (some w, s) => (x.1 ++ [w], s)
    | (none, s) => let (k, s) := s.fresh; (x.1 ++ [Config.freeWord k], s)) ([], s)

/-- One record as the host reads it; a staging record whose read was uncorrectable carries CRC 0x0000 (R360, R379). -/
def readRecord (s : State) (a : Nat) (staging : Bool) : List W16 × State :=
  let bad := staging && (List.range 16).any fun i => s.bit .memBad (a + i)
  let (l, s) := readWords s a 16
  (if bad then l.take 15 ++ [0#16] else l, s)

/-- Records read one after another. -/
def readRecords (s : State) (addr : Nat → Nat) (n : Nat) (staging : Bool) : List Byte × State :=
  (List.range n).foldl (fun x i =>
    let (l, s) := readRecord x.2 (addr i) staging
    (x.1 ++ wordBytes l, s)) ([], s)

/-- The rail is neither in RAMP_UP nor in REGULATING: OFF of STATUS_WORD (R386). -/
def railOff (s : State) (r : Nat) : Bool := railState s r != stRAMPUP && railState s r != stREG

/-- Bytes of a rail's status copies, with STATUS_CML as the port holds it and the stale mark, OFF and POWER_GOOD# as they stand (R386,
R388). -/
def statusBytes (s : State) (r : Nat) : List Byte :=
  let l := cacheBytes s r 0x10 4
  let stale := decide (s.get .DM_MTICK - cacheVal s r 0 4 ≥ 4)
  let w0 := ((l.getD 0 0) &&& 0xBF#8) ||| (if s.bit .pmbCml then 2#8 else 0#8) ||| (if railOff s r then 0x40#8 else 0#8)
  let mfr := (l.getD 7 0) ||| (if stale then 1#8 else 0#8)
  let w1 := ((l.getD 1 0) &&& 0xF7#8) ||| (if mfr != 0#8 then 0x10#8 else 0#8) ||| (if s.bit .DM_RAILSTAT_PGOOD r then 0#8 else 8#8)
  [w0, w1, l.getD 2 0, l.getD 3 0, l.getD 4 0, l.getD 5 0, BitVec.ofInt 8 (s.get .pmbCml), mfr]

/-- One write or read that a message asks for: checks 2 to 8 and the action (R371, R372). -/
def runPart (s : State) (m : HgMsg) (q : HgPart) : Int × List Byte × State :=
  let le := fun a n => ((leNat ((q.payload.drop a).take n) : Nat) : Int)
  let ctl := fun (x : Int × State) => (x.1, ([] : List Byte), x.2)
  if s.bit .IM_STATE_NOFW || !payloadGood q then (hgBADOP, [], s)
  else if !s.bitOf .hgClass (classOf q.typ) m.port then (hgPOLICY, [], s)
  else
    match q.typ with
    | 0x10 => if railExists s q.target then (hgDONE, cacheBytes s q.target 0 16, s) else (hgBADTARGET, [], s)
    | 0x11 => if railExists s q.target then (hgDONE, statusBytes s q.target, s) else (hgBADTARGET, [], s)
    | 0x20 => ctl (onRails s m q.target fun s r => doVout s m r (le 0 2))
    | 0x21 => ctl (onRails s m q.target fun s r => doEnable s m r (le 0 1 == 1))
    | 0x22 => ctl (onRails s m q.target fun s r => doClear s m r)
    | 0x23 => ctl (onRails s m q.target fun s r => doSlew s m r (le 0 2) (le 2 2))
    | 0x24 => ctl (doLimit s m (le 0 1).toNat q.target (le 1 4))
    | 0x30 =>
      if q.target ≠ 0 then (hgBADTARGET, [], s)
      else
        let (l, s) := readRecords s (fun i => s.nat .RC_BASE + 16 * (((le 0 4).toNat + i) % 2 ^ 24)) (le 4 2).toNat false
        (hgDONE, l, s)
    | 0x31 =>
      if q.target ≠ 0 then (hgBADTARGET, [], s)
      else
        let k := le 0 1
        (hgDONE, [], if k == 0 then freezeNow s else if k == 1 then recResume s else if k == 2 then stgArm s else stgTrigger s)
    | 0x32 =>
      if q.target ≠ 0 then (hgBADTARGET, [], s)
      else
        let (l, s) := readRecords s (fun i => 0x1000000 + 16 * (((le 0 2).toNat + i) % 65536)) (le 2 2).toNat true
        (hgDONE, l, s)
    | 0x40 =>
      if q.target ≥ 64 || !s.bitOf .hgEvents q.target m.port then (hgPOLICY, [], s)
      else (hgDONE, [], proxyPublish s 5 true q.target)
    | _ => (hgBADOP, [], s)

/-- The firmware executes the message taken, if it is of the given type (and, of REC_CTRL and SET_LIMIT, of the given
kind): its writes in order; the status is that of the first that was not done. -/
def hgExecute (s : State) (typ : Nat) (kind : Option Nat) : State :=
  match s.hgTaken with
  | none => s
  | some m =>
    let q := m.parts.headD ⟨0, 0, []⟩
    if unmanaged s ∨ q.typ ≠ typ ∨ (kind.isSome ∧ kind ≠ some (q.payload.getD 0 0).toNat) then s
    else
      let r := m.parts.foldl (fun (a : Int × List Byte × State) q =>
        let b := runPart a.2.2 m q
        (if a.1 == hgDONE then b.1 else a.1, a.2.1 ++ b.2.1, b.2.2)) (hgDONE, [], s)
      hgAnswer r.2.2 r.1 r.2.1

/-- The voltage writes that AVSBus accepted are done where REF has reached them (R387). -/
def voltageReached (s : State) (r : Nat) : State :=
  let ref := s.get .LN_REF r
  let done := ref == 1024 * s.get .vdCode r || (s.get .vdPend r == 2 && ref == 1024 * s.get .LN_VSET r)
  s.when (s.bit .vdPend r && done) (·.clear .vdPend r)

/-! The status copies (R386). -/

/-- The clusters of a rail's phases. -/
def railClusters (s : State) (r : Nat) : List Nat :=
  (List.range 16).filter fun c => (railSlots s r).any fun j => slotPhase s r j / 8 == c

/-- The status copies of a rail at a management-tick boundary (R386): bits are set from the flags and stay set; OFF and
POWER_GOOD# follow the present state. -/
def statusUpdate (s : State) (r : Nat) : State :=
  let old := cacheBytes s r 0x10 4
  let b := fun i => ((old.getD i 0).toNat : Int)
  let fc := s.get .WP_RSTAT_FCAUSE r
  let cl := railClusters s r
  let ow := cl.any fun c => s.bit .WP_CFLAG_OTWARN c
  let ot := cl.any fun c => s.bit .WP_CFLAG_OTSHUT c
  let oc := s.bit .WP_RFLAG_ROC r || ((railSlots s r).any fun j => s.get .PH_PSTAT_RCAUSE (slotPhase s r j) == 1)
  let other := s.bit .WP_RFLAG_UV r || s.bit .WP_RFLAG_OVGLITCH r || s.bit .WP_RFLAG_OVOFF r || s.bit .WP_RFLAG_SENSE r ||
    s.bit .WP_RFLAG_LSAT r || s.bit .WP_RFLAG_WLOST r || s.bit .WP_RFLAG_TRLOST r || s.bit .WP_RFLAG_RTEXH r ||
    s.bit .WP_RFLAG_AUX r || s.bit .PH_RFLAG_NOSPARE r
  let bitv := fun (c : Bool) (v : Int) => if c then v else 0
  let vout := orI (b 2) (bitv (fc == 1) 0x80 + bitv (fc == 2) 0x10)
  let iout := orI (b 3) (bitv (fc == 3) 0x80)
  let inp := orI (b 4) (bitv (fc == 6) 0x10)
  let temp := orI (b 5) (bitv (fc == 7 || fc == 8) 0x80 + bitv ow 0x40)
  let stale := decide (s.get .DM_MTICK - cacheVal s r 0 4 ≥ 4)
  let mfr := orI (b 7) (bitv stale 1)
  let w0 := orI (andNotI (b 0) 0x40) (bitv (railOff s r) 0x40 + bitv (s.bit .WP_RFLAG_OV r) 0x20 +
    bitv oc 0x10 + bitv (fc == 6) 8 + bitv (ow || ot || fc == 7) 4 + bitv (s.bit .pmbCml) 2 + bitv other 1)
  let w1 := orI (andNotI (b 1) 8) (bitv (vout != 0) 0x80 + bitv (iout != 0) 0x40 + bitv (inp != 0) 0x20 +
    bitv (mfr != 0) 0x10 + bitv (!s.bit .DM_RAILSTAT_PGOOD r) 8)
  let s := (s.put .HG_CACHE (w0 + 256 * w1) r 0x10).put .HG_CACHE (vout + 256 * iout) r 0x11
  (s.put .HG_CACHE (inp + 256 * temp) r 0x12).put .HG_CACHE (s.get .pmbCml + 256 * mfr) r 0x13

/-- PMB_ALERT# is asserted (R386): a page holds a copied bit, or STATUS_CML is not zero. OFF and POWER_GOOD# follow the
present state and are not copied bits. -/
def pmbAlert (s : State) : Bool :=
  s.bit .pmbCml || (List.range 16).any fun r =>
    let l := cacheBytes s r 0x10 4
    (l.getD 0 0 &&& 0xBF#8) != 0#8 || (l.getD 1 0 &&& 0xF7#8) != 0#8 || ((l.drop 2).any fun b => b != 0#8)

/-! The commands. -/

def execOpenPort (tag : BitVec 8) (epoch : BitVec 4) (s : State) : Out := .next (hgOpen s tag.toNat epoch.toNat)
def execHgAbort (tag t : BitVec 8) (s : State) : Out := .next (hgAbort s tag.toNat (s.nat .HG_PSTAT_EPOCH 5) t.toNat)
def execTagQuietEnd (t : BitVec 8) (s : State) : Out := .next (tagQuietEnd s t.toNat)
def execGetTelem (s : State) : Out := .next (hgExecute s 0x10 none)
def execGetStatus (s : State) : Out := .next (hgExecute s 0x11 none)
def execSetVout (s : State) : Out := .next (hgExecute s 0x20 none)
def execSetEnable (s : State) : Out := .next (hgExecute s 0x21 none)
def execClearFault (s : State) : Out := .next (hgExecute s 0x22 none)
def execSetSlew (s : State) : Out := .next (hgExecute s 0x23 none)
def execSetLimitIlim (s : State) : Out := .next (hgExecute s 0x24 (some 0))
def execSetLimitIallot (s : State) : Out := .next (hgExecute s 0x24 (some 1))
def execSetLimitPallot (s : State) : Out := .next (hgExecute s 0x24 (some 2))
def execRecRead (s : State) : Out := .next (hgExecute s 0x30 none)
def execRecCtrlFrznow (s : State) : Out := .next (hgExecute s 0x31 (some 0))
def execRecCtrlResume (s : State) : Out := .next (hgExecute s 0x31 (some 1))
def execRecCtrlStgarm (s : State) : Out := .next (hgExecute s 0x31 (some 2))
def execRecCtrlTrig (s : State) : Out := .next (hgExecute s 0x31 (some 3))
def execStgRead (s : State) : Out := .next (hgExecute s 0x32 none)
def execEvent (s : State) : Out := .next (hgExecute s 0x40 none)
def execExecTimeout (p : Port) (s : State) : Out := .next (execTimeout s p)
def execTake (s : State) : Out := .next (hgTake s)
def execHgDone (s : State) : Out := .next (hgDone s)
def execPrst (p : Port) (s : State) : Out := .next (portReset s p)

end Sys2Proof.Machine
end

