-- ==== Sys2Proof/Machine/HostBus.lean ====
section
/-! DEFINITION. The host interfaces of the Headgate (16_headgate_host.md): frames of the management SPI (R377, R378), the
PMBus commands (R380 to R386) and AVSBus (R387). -/
namespace Sys2Proof.Machine

/-! The management SPI (R377, R378). -/

/-- The CRC-32 of IEEE 802.3 in reflected form, folded over one byte (R271, R378). -/
def crc32Byte (reg : BitVec 32) (b : Byte) : BitVec 32 :=
  (List.range 8).foldl (fun r _ => if r.getLsbD 0 then (r >>> 1) ^^^ 0xEDB88320#32 else r >>> 1) (reg ^^^ b.setWidth 32)

/-- The CRC-32 of a frame (R378). -/
def crc32 (l : List Byte) : BitVec 32 := l.foldl crc32Byte 0xFFFFFFFF#32 ^^^ 0xFFFFFFFF#32

/-- A frame of the device: header, payload and CRC (R378). -/
def mspiFrame (typ tag epoch status target : Nat) (payload : List Byte) : List Byte :=
  let h : List Byte := [0x5A, BitVec.ofNat 8 typ, BitVec.ofNat 8 tag, BitVec.ofNat 8 (epoch % 16 + 16 * (status % 16)),
    BitVec.ofNat 8 target, 0] ++ leBytes 2 payload.length
  let l := h ++ payload
  l ++ leBytes 4 (crc32 l).toNat

/-- A request frame is whole and right (R378). -/
def frameGood (l : List Byte) : Bool :=
  let n := leNat ((l.drop 6).take 2)
  decide (12 ≤ l.length) && decide (n ≤ 4096) && l.length == 12 + n && l.getD 0 0 == 0x5A#8 && l.getD 5 0 == 0#8 &&
  ((l.getD 3 0) &&& 0xF0#8) == 0#8 && leNat (l.drop (8 + n)) == (crc32 (l.take (8 + n))).toNat

/-- A request of the MSPI port that has arrived whole (R374, R375, R378). -/
def mspiRequest (s : State) (typ tag epoch target : Nat) (payload : List Byte) : State :=
  if hgFull s 5 then s.bump .HG_QFULL 0xFFFF 5
  else if typ ≠ 1 ∧ epoch ≠ s.nat .HG_PSTAT_EPOCH 5 then s.bump .HG_STALE 0xFFFF 5
  else if s.bit .tagUse tag then s.bump .HG_TAGDUP 0xFFFF 5
  else if typ = 1 ∧ payload = [] then hgOpen s tag epoch
  else if typ = 2 ∧ payload.length = 1 then hgAbort s tag epoch (leNat payload)
  else hgPush (s.put .tagUse 1 tag) ⟨5, tag, epoch, [⟨typ, target, payload⟩], 0, 0, s.now⟩

/-- The WRITE command with the bytes that the host sends until it deasserts MSPI_CS# (R377, R378). -/
def mspiWrite (s : State) (l : List Byte) : State :=
  if !s.bit .HG_PCFG_EN 5 then s
  else if !frameGood l then s.bump .HG_FRAMEERR 0xFFFF 5
  else
    let b := fun i => (l.getD i 0).toNat
    mspiRequest s (b 1) (b 2) (b 3 % 16) (b 4) ((l.drop 8).take (leNat ((l.drop 6).take 2)))

/-- A completion has been read (R374): its tag is free, or, of an ABORT, the quiet time of the tag it names begins. -/
def cplRead (s : State) (c : HgCpl) : State :=
  let s := (s.clear .tagUse c.tag).clear .tagDead c.tag
  match c.victim with
  | none => s
  | some t => (s.put .tagUse 2 t).put .tagQuiet (s.now + 320000) t

/-- The READ command; `whole`: the last CRC byte has been clocked out (R377). -/
def mspiRead (s : State) (whole : Bool) : State :=
  if !s.bit .HG_PCFG_EN 5 then s
  else
    match s.hgCpl with
    | [] => { s with hostOut := mspiFrame 0 0 (s.nat .HG_PSTAT_EPOCH 5) 0 0 [] }
    | c :: rest =>
      let s := { s with hostOut := mspiFrame c.typ c.tag c.epoch c.status c.target c.payload }
      if whole then hgSync (cplRead { s with hgCpl := rest } c) else s

/-- The STAT command (R377). -/
def mspiStat (s : State) : State :=
  if !s.bit .HG_PCFG_EN 5 then s
  else { s with hostOut := leBytes 1 (16 - (queuedAt s 5).length : Nat) ++ leBytes 1 s.hgCpl.length ++
           leBytes 1 (s.get .HG_PSTAT_EPOCH 5) ++ [0] }

/-! LINEAR11 (R385). -/

/-- A rational number `num / den` rounded to nearest in units of 2^e. -/
def mantissa (num den : Int) (e : Int) : Int :=
  if e ≥ 0 then roundAway num (den * (2 : Int) ^ e.toNat) else roundAway (num * (2 : Int) ^ (-e).toNat) den

/-- LINEAR11 of `num / den`: the smallest exponent from −8 to 7 whose rounded mantissa fits 11 signed bits (R385). A value
too large for every exponent is given the greatest mantissa. -/
def linear11 (num den : Int) : Int :=
  let exps : List Int := (List.range 16).map fun (i : Nat) => (i : Int) - 8
  match exps.find? fun e => decide (-1024 ≤ mantissa num den e ∧ mantissa num den e ≤ 1023) with
  | some e => unsigned 11 (mantissa num den e) + 2048 * unsigned 5 e
  | none => unsigned 11 (if num < 0 then -1024 else 1023) + 2048 * 7

/-- A LINEAR11 word as a fraction: numerator and denominator (R385). -/
def fromLinear11 (w : Int) : Int × Int :=
  let m := signed 11 w
  let e := signed 5 (shr w 11)
  if e ≥ 0 then (m * (2 : Int) ^ e.toNat, 1) else (m, (2 : Int) ^ (-e).toNat)

/-! PMBus (R380 to R386). -/

/-- A write reaches the command: the port is in use, its queue is not full (else the address is not acknowledged), and its
PEC is right or not required (R381, R382). -/
def pmbWrite (s : State) (pec : Fin 3) (f : State → State) : State :=
  if !s.bit .HG_PCFG_EN 0 then s
  else if hgFull s 0 then s.put .hostAck 1
  else
    let s := s.put .hostAck 0
    if pec = 2 ∨ (pec = 0 ∧ s.get .HG_PCFG_PECREQ 0 = 1) then setCml s 32 else f s

/-- A write that PMBus itself takes, under WRITE_PROTECT (R384): refused with WPROT. -/
def pmbHeld (s : State) (cmd : Nat) (f : State → State) : State :=
  if wpAllows s cmd then f s else setCml (s.put .HG_PSTAT_LAST hgWPROT 0) 128

/-- The target that PAGE selects. -/
def pageTarget (s : State) : Nat := s.nat .pmbPage

/-- The rails that PAGE selects for a write that the port holds. -/
def pageRails (s : State) : List Nat := if pageTarget s = 0xFF then List.range 16 else [pageTarget s % 16]

/-- A read of `n` bytes from the page's rail: PAGE 0xFF reads 0xFF in every byte and sets STATUS_CML bit 6 (R382). -/
def pmbRead (s : State) (n : Nat) (f : State → Nat → List Byte) : State :=
  if !s.bit .HG_PCFG_EN 0 then s
  else
    let s := s.put .hostAck 0
    if pageTarget s = 0xFF then setCml { s with hostOut := List.replicate n 0xFF } 64
    else { s with hostOut := f s (pageTarget s) }

/-- A read whose value does not depend on the page. -/
def pmbConst (s : State) (l : List Byte) : State :=
  if !s.bit .HG_PCFG_EN 0 then s else { s.put .hostAck 0 with hostOut := l }

/-- Queue a message of port 0 for the page (R382). -/
def pmbMessage (s : State) (cmd margin typ : Nat) (payload : List Byte) : State :=
  hgQueueOwn s 0 cmd margin [⟨typ, pageTarget s, payload⟩]

/-- A write of PAGE (R382, R383). -/
def pageWrite (s : State) (v : Nat) : State :=
  if v = 0xFF ∨ (v < 16 ∧ railState s v ≠ stUNUSED) then s.put .pmbPage v else setCml s 64

/-- The value that a written command reads back, held for the page's rails where WRITE_PROTECT lets the write through (R384, R385). -/
def pmbKeep (s : State) (cmd : Nat) (f : Fld) (v : Int) : State :=
  s.when (wpAllows s cmd) fun s => s.each (pageRails s) fun s r => s.put f v r

/-- A write of OPERATION (R385): the value is kept, and a SET_ENABLE is queued. -/
def operationWrite (s : State) (v : Nat) : State :=
  let keep := fun s : State => pmbKeep s 1 .pmbOper v
  if v = 0x00 ∨ v = 0x40 then pmbMessage (keep s) 1 0 0x21 [0]
  else if v = 0x80 then pmbMessage (keep s) 1 1 0x21 [1]
  else if v = 0x94 ∨ v = 0x98 then pmbMessage (keep s) 1 2 0x21 [1]
  else if v = 0xA4 ∨ v = 0xA8 then pmbMessage (keep s) 1 3 0x21 [1]
  else setCml s 64

/-- A write of ON_OFF_CONFIG (R383). -/
def onOffWrite (s : State) (v : Nat) : State :=
  if [0x16, 0x17, 0x1A, 0x1B, 0x1E, 0x1F].contains v then s.each (pageRails s) fun s r => s.put .pmbOnOff v r
  else setCml s 64

/-- A write of WRITE_PROTECT (R384). -/
def wpWrite (s : State) (v : Nat) : State :=
  if [0x80, 0x40, 0x20, 0x00].contains v then s.put .pmbWp v else setCml s 64

/-- CLEAR_FAULTS (R386): the page's status copies and STATUS_CML are cleared, OFF and POWER_GOOD# follow the present state; no
message. -/
def clearFaults (s : State) : State :=
  let s := s.each (pageRails s) fun s r =>
    (s.each [0x11, 0x12, 0x13] fun s w => s.clear .HG_CACHE r w).put .HG_CACHE
      (bit01 (railOff s r) * 0x40 + bit01 (!s.bit .DM_RAILSTAT_PGOOD r) * 0x800) r 0x10
  s.clear .pmbCml

/-- The slew of a rate in mV/µs: ⌊value / 19.53125 µV/µs⌋, that is value × 256 / 5 (R385), within the 16 bits of the
message's payload (log entry 20). -/
def slewOf (num den : Int) : Int := clampTo 0 65535 ((num * 256) / (den * 5))

/-- A current in A as whole IQ of rail `r`, rounded down (R15, R385): IQ is 31.25, 62.5 or 125 mA. -/
def ampsToIq (s : State) (r : Nat) (num den : Int) : Int :=
  clampTo 0 0xFFFFFFFF ((num * 32) / (den * (2 : Int) ^ (min 2 (s.nat .DM_RAILCFG_IQSEL r))))

/-- A write of VOUT_TRANSITION_RATE: SET_SLEW with both slopes (R385). -/
def rateWrite (s : State) (v : Int) : State :=
  let (n, d) := fromLinear11 v
  let x := slewOf n d
  pmbMessage (pmbKeep s 0x27 .pmbRate v) 0x27 0 0x23 (leBytes 2 x ++ leBytes 2 x)

/-- A write of IOUT_OC_FAULT_LIMIT: SET_LIMIT ILIM (R385). With PAGE 0xFF it is one message of a write for each rail that the port may
write, in the rail's own IQ (R371, R383). -/
def limWrite (s : State) (v : Int) : State :=
  let (n, d) := fromLinear11 v
  let part := fun (target r : Nat) => (⟨0x24, target, [0] ++ leBytes 4 (ampsToIq s r n d)⟩ : HgPart)
  let rails := (List.range 16).filter fun r => s.bitOf .hgRails r 0 && railState s r != stUNUSED
  let parts := if pageTarget s = 0xFF then rails.map fun r => part r r else [part (pageTarget s) (pageTarget s % 16)]
  hgQueueOwn (pmbKeep s 0x46 .pmbLim v) 0 0x46 0 (if parts.isEmpty then [part 0xFF 0] else parts)

/-- A write of VOUT_COMMAND: SET_VOUT, and the nominal setpoint of OPERATION 0x80 (R385). -/
def voutCommandWrite (s : State) (v : Int) : State :=
  pmbMessage (pmbKeep s 0x21 .pmbNom v) 0x21 0 0x20 (leBytes 2 v)

/-- Dispatch of a command that is read and written. -/
def pmbRW (s : State) (a : PmbAccess) (rd : State → State) (wr : State → Int → State) : State :=
  match a with
  | .read => rd s
  | .write v pec => pmbWrite s pec fun s => wr s v.toNat

/-- The image's greatest setpoint of a rail (VOUT_MAX, R36). -/
def voutMaxOf (s : State) (r : Nat) : Int :=
  match s.boundOf ⟨.LN_VSET, r, 0⟩ with
  | some b => b.2
  | none => 15200

/-- COEFFICIENTS (R385): m = 8,000, b = 0, R = 0 for the voltage commands; other codes set STATUS_CML bit 6. -/
def coefficientsCall (s : State) (code : Nat) : State :=
  if !s.bit .HG_PCFG_EN 0 then s
  else if [0x21, 0x24, 0x25, 0x26, 0x8B].contains code then
    { s.put .hostAck 0 with hostOut := leBytes 2 8000 ++ [0, 0, 0] }
  else setCml s 64

/-- READ_IOUT (R388): the rail's mean current, or the mean of the slot that PHASE selects, in A. -/
def ioutWord (s : State) (r : Nat) : Int :=
  let ph := s.nat .pmbPhase
  let ma := if ph = 0xFF then signed 32 (cacheVal s r 12 4)
    else signed 32 (leNat (cacheBytes s r (0x80 + 2 * (ph % 64)) 2))
  linear11 ma 1000

/-- The Alert Response Address (R386): the device answers with its address while it asserts PMB_ALERT#. -/
def alertResponse (s : State) : State :=
  if !s.bit .HG_PCFG_EN 0 then s
  else if pmbAlert s then { s.put .hostAck 0 with hostOut := leBytes 1 (2 * (0x40 + s.get .pmbAdr)) }
  else s.put .hostAck 1

/-- A filtered change of PMB_CTRL queues a SET_ENABLE for every rail, as OPERATION does (R383, R385). -/
def ctrlChange (s : State) (level : Bool) : State :=
  if s.bit .pmbCtrl == level then s
  else
    let s := s.put .pmbCtrl (bit01 level)
    if !s.bit .HG_PCFG_EN 0 || hgFull s 0 then s
    else hgQueueOwn s 0 1 (if level then 5 else 4) [⟨0x21, 0xFF, [if level then 1 else 0]⟩]

/-- The SMBus interface is reset and the partial transaction discarded (R381). -/
def smbusReset (s : State) : State := s.when (s.bit .HG_PCFG_EN 0) fun s => s.bump .HG_PARTIAL 0xFFFF 0

/-! AVSBus (R387). -/

/-- The rails that a select code of AVSBus port `p` (1 to 4) names: one for 0 to 3 where it is bound, every bound rail for
0xF. -/
def avsRails (s : State) (p sel : Nat) : List Nat :=
  let bound := fun k => if k % 2 = 0 then s.bit .HG_AVSMAP_V0 p (k / 2) else s.bit .HG_AVSMAP_V1 p (k / 2)
  let rail := fun k => if k % 2 = 0 then s.nat .HG_AVSMAP_RAIL0 p (k / 2) else s.nat .HG_AVSMAP_RAIL1 p (k / 2)
  if sel < 4 then (if bound sel then [rail sel] else [])
  else if sel = 0xF then (((List.range 4).filter bound).map rail).eraseDups
  else []

/-- The acknowledge code that answers an AVSBus frame. -/
def avsAck (s : State) (c : Int) : State := s.put .hostAck c

/-- Queue the writes of a frame, or hold them for a commit (R387). -/
def avsQueue (s : State) (p : Nat) (hold : Bool) (parts : List HgPart) : State :=
  if hold then avsAck { s with avsHeld := s.avsHeld ++ parts.map fun q => (p, q) } 0
  else if hgFull s p then avsAck (s.bump .HG_QFULL 0xFFFF p) 3
  else avsAck (hgQueueOwn s p 0 0 parts) 0

/-- A write on AVSBus (R387): refused with 0b11 where the select is not bound or a value fails checks 3 or 7. -/
def avsWrite (s : State) (p sel : Nat) (hold : Bool) (good : Nat → Bool) (part : Nat → HgPart) (mark : State → Nat → State) :
    State :=
  if !s.bit .HG_PCFG_EN p then s
  else
    let rails := avsRails s p sel
    if rails.isEmpty || !(rails.all fun r => railExists s r && good r) then avsAck s 3
    else
      let t := avsQueue s p hold (rails.map part)
      if t.get .hostAck == 0 then t.each rails mark else t

/-- A voltage within the image's bounds (check 7 of R372). -/
def avsRange (s : State) (r : Nat) (v : Int) : Bool :=
  decide (1600 ≤ v ∧ v ≤ 15200) && s.inBound ⟨.LN_VSET, r, 0⟩ v

/-- The VDone of a rail restarts with a voltage write (R387). -/
def vdStart (s : State) (r : Nat) (v : Int) : State := (s.raise .vdPend r).put .vdCode v r

/-- A SET_VOUT of `v r` for each rail. -/
def avsVout (s : State) (p sel : Nat) (hold : Bool) (v : Nat → Int) : State :=
  avsWrite s p sel hold (fun r => avsRange s r (v r)) (fun r => ⟨0x20, r, leBytes 2 (v r)⟩) fun s r => vdStart s r (v r)

/-- A read on AVSBus from the one rail that a select code binds (R387). -/
def avsRead (s : State) (p sel : Nat) (f : Nat → Int) : State :=
  if !s.bit .HG_PCFG_EN p then s
  else
    match (if sel < 4 then avsRails s p sel else []).head? with
    | none => avsAck s 3
    | some r => avsAck { s with hostOut := leBytes 2 (f r) } 0

/-- VDone of a rail: 0 from an accepted voltage write until REF = 1024 × VSET (R387). -/
def vDone (s : State) (r : Nat) : Bool := !s.bit .vdPend r || s.get .LN_REF r == 1024 * s.get .vdCode r

/-- AVSBus status: bit 0 VDone, bit 1 StatusAlert, in the model's own places (the spec gives none). -/
def avsStatus (s : State) (p r : Nat) : Int := bit01 (vDone s r) + 2 * s.get .avsAlert p

/-- A commit applies the writes that the port holds as one message (R387). -/
def avsCommit (s : State) (p : Nat) : State :=
  if !s.bit .HG_PCFG_EN p then s
  else
    let parts := (s.avsHeld.filter fun e => e.1 == p).map (·.2)
    let s := { s with avsHeld := s.avsHeld.filter fun e => e.1 != p }
    if parts.isEmpty then avsAck s 0 else avsQueue s p false parts

/-- The number of an AVSBus port as a Headgate port. -/
def avsPort (p : Fin 4) : Nat := 1 + p

/-! The commands. -/

def execMspiWrite (l : List (BitVec 8)) (s : State) : Out := .next (mspiWrite s l)
def execMspiRead (whole : Bool) (s : State) : Out := .next (mspiRead s whole)
def execMspiStat (s : State) : Out := .next (mspiStat s)
/-- FRAME_TIMEOUT (R378): the partial frame is discarded. -/
def execFrameTimeout (s : State) : Out := .next (s.when (s.bit .HG_PCFG_EN 5) fun s => s.bump .HG_PARTIAL 0xFFFF 5)
/-- MSPI_OTHER_COMMAND_BYTE (R377). -/
def execMspiOtherCommandByte (s : State) : Out := .next (s.when (s.bit .HG_PCFG_EN 5) fun s => s.bump .HG_FRAMEERR 0xFFFF 5)
def execSmbusTimeout (s : State) : Out := .next (smbusReset s)
def execSmbusMidByteStartStop (s : State) : Out := .next (smbusReset s)
/-- PMBUS_UNSUPPORTED_COMMAND (R382): the command byte is not acknowledged. -/
def execPmbusUnsupportedCommand (s : State) : Out := .next (if s.bit .HG_PCFG_EN 0 then setCml (s.put .hostAck 1) 128 else s)
def execPmbPage (a : PmbAccess) (s : State) : Out :=
  .next (pmbRW s a (fun s => pmbConst s (leBytes 1 (s.get .pmbPage)))
    fun s v => pmbHeld s 0x00 fun s => pageWrite s (v.toNat % 256))
def operationAccess (s : State) (a : PmbAccess) : State :=
  pmbRW s a (fun s => pmbRead s 1 fun s r => leBytes 1 (s.get .pmbOper r)) fun s v => operationWrite s (v.toNat % 256)
def execOperationOff (a : PmbAccess) (s : State) : Out := .next (operationAccess s a)
def execOperationOn (a : PmbAccess) (s : State) : Out := .next (operationAccess s a)
def execOperationMarginLow (a : PmbAccess) (s : State) : Out := .next (operationAccess s a)
def execOperationMarginHigh (a : PmbAccess) (s : State) : Out := .next (operationAccess s a)
def execOnOffConfig (a : PmbAccess) (s : State) : Out :=
  .next (pmbRW s a (fun s => pmbRead s 1 fun s r => leBytes 1 (s.get .pmbOnOff r))
    fun s v => pmbHeld s 0x02 fun s => onOffWrite s (v.toNat % 256))
def execClearFaults (pec : Fin 3) (s : State) : Out := .next (pmbWrite s pec fun s => pmbHeld s 0x03 clearFaults)
def execPmbPhase (a : PmbAccess) (s : State) : Out :=
  .next (pmbRW s a (fun s => pmbConst s (leBytes 1 (s.get .pmbPhase)))
    fun s v => pmbHeld s 0x04 fun s => s.put .pmbPhase (v % 256))
def execWriteProtect (a : PmbAccess) (s : State) : Out :=
  .next (pmbRW s a (fun s => pmbConst s (leBytes 1 (s.get .pmbWp))) fun s v => wpWrite s (v.toNat % 256))
def execCapability (s : State) : Out := .next (pmbConst s [0xD4])
def execVoutMode (s : State) : Out := .next (pmbConst s [0x40])
def execVoutCommand (a : PmbAccess) (s : State) : Out :=
  .next (pmbRW s a (fun s => pmbRead s 2 fun s r => leBytes 2 (s.get .pmbNom r)) voutCommandWrite)
def execVoutMax (s : State) : Out := .next (pmbRead s 2 fun s r => leBytes 2 (voutMaxOf s r))
def execVoutMarginHigh (a : PmbAccess) (s : State) : Out :=
  .next (pmbRW s a (fun s => pmbRead s 2 fun s r => leBytes 2 (s.get .pmbHigh r))
    fun s v => pmbHeld s 0x25 fun s => s.each (pageRails s) fun s r => s.put .pmbHigh v r)
def execVoutMarginLow (a : PmbAccess) (s : State) : Out :=
  .next (pmbRW s a (fun s => pmbRead s 2 fun s r => leBytes 2 (s.get .pmbLow r))
    fun s v => pmbHeld s 0x26 fun s => s.each (pageRails s) fun s r => s.put .pmbLow v r)
def execVoutTransitionRate (a : PmbAccess) (s : State) : Out :=
  .next (pmbRW s a (fun s => pmbRead s 2 fun s r => leBytes 2 (s.get .pmbRate r)) rateWrite)
def execCoefficients (code : BitVec 8) (s : State) : Out := .next (coefficientsCall s code.toNat)
def execIoutOcFaultLimit (a : PmbAccess) (s : State) : Out :=
  .next (pmbRW s a (fun s => pmbRead s 2 fun s r => leBytes 2 (s.get .pmbLim r)) limWrite)
def execStatusByte (s : State) : Out := .next (pmbRead s 1 fun s r => (statusBytes s r).take 1)
def execStatusWord (s : State) : Out := .next (pmbRead s 2 fun s r => (statusBytes s r).take 2)
def execStatusVout (s : State) : Out := .next (pmbRead s 1 fun s r => ((statusBytes s r).drop 2).take 1)
def execStatusIout (s : State) : Out := .next (pmbRead s 1 fun s r => ((statusBytes s r).drop 3).take 1)
def execStatusInput (s : State) : Out := .next (pmbRead s 1 fun s r => ((statusBytes s r).drop 4).take 1)
def execStatusTemperature (s : State) : Out := .next (pmbRead s 1 fun s r => ((statusBytes s r).drop 5).take 1)
def execStatusCml (s : State) : Out := .next (pmbRead s 1 fun s r => ((statusBytes s r).drop 6).take 1)
def execStatusMfrSpecific (s : State) : Out := .next (pmbRead s 1 fun s r => ((statusBytes s r).drop 7).take 1)
def execReadVin (s : State) : Out := .next (pmbRead s 2 fun s r => leBytes 2 (linear11 (cacheVal s r 24 2) 100))
def execReadVout (s : State) : Out := .next (pmbRead s 2 fun s r => leBytes 2 (cacheVal s r 6 2))
def execReadIout (s : State) : Out := .next (pmbRead s 2 fun s r => leBytes 2 (ioutWord s r))
def execReadTemperature1 (s : State) : Out :=
  .next (pmbRead s 2 fun s r => leBytes 2 (linear11 (signed 16 (cacheVal s r 26 2)) 16))
def execReadPout (s : State) : Out := .next (pmbRead s 2 fun s r => leBytes 2 (linear11 (cacheVal s r 20 4) 1000))
def execPmbusRevision (s : State) : Out := .next (pmbConst s [0x44])
/-- MFR_ID: a block of "HUATIV" (R385). -/
def execMfrId (s : State) : Out := .next (pmbConst s [6, 0x48, 0x55, 0x41, 0x54, 0x49, 0x56])
/-- MFR_MODEL: a block of "VKP-7128" (R385). -/
def execMfrModel (s : State) : Out := .next (pmbConst s [8, 0x56, 0x4B, 0x50, 0x2D, 0x37, 0x31, 0x32, 0x38])
def execMfrHgLast (s : State) : Out := .next (pmbConst s (leBytes 1 (s.get .HG_PSTAT_LAST 0)))
def execAlertResponse (s : State) : Out := .next (alertResponse s)
def execPmbCtrlChange (level : Bool) (s : State) : Out := .next (ctrlChange s level)
def execAvsVoltageWrite (p : Fin 4) (sel : Fin 16) (hold : Bool) (mv : BitVec 16) (s : State) : Out :=
  .next (avsVout s (avsPort p) sel hold fun _ => 8 * (mv.toNat : Int))
def execAvsVoltageRead (p : Fin 4) (sel : Fin 16) (s : State) : Out :=
  .next (avsRead s (avsPort p) sel fun r => roundDiv (cacheVal s r 6 2) 8)
def execAvsVouttransrateWrite (p : Fin 4) (sel : Fin 16) (hold : Bool) (rise fall : BitVec 8) (s : State) : Out :=
  .next (
    let up := slewOf rise.toNat 1
    let dn := slewOf fall.toNat 1
    avsWrite s (avsPort p) sel hold
      (fun r => slopesGood s r up dn)
      (fun r => ⟨0x23, r, leBytes 2 up ++ leBytes 2 dn⟩) fun s _ => s)
def execAvsVouttransrateRead (p : Fin 4) (sel : Fin 16) (s : State) : Out :=
  .next (avsRead s (avsPort p) sel fun r =>
    min 255 (s.get .LN_SLEWUP r * 5 / 256) + 256 * min 255 (s.get .LN_SLEWDN r * 5 / 256))
def execAvsCurrent (p : Fin 4) (sel : Fin 16) (s : State) : Out :=
  .next (avsRead s (avsPort p) sel fun r => roundDiv (signed 32 (cacheVal s r 12 4)) 10)
def execAvsTemperature (p : Fin 4) (sel : Fin 16) (s : State) : Out :=
  .next (avsRead s (avsPort p) sel fun r => roundDiv (signed 16 (cacheVal s r 26 2) * 10) 16)
def execAvsResetvoltage (p : Fin 4) (sel : Fin 16) (hold : Bool) (s : State) : Out :=
  .next (avsVout s (avsPort p) sel hold fun r => s.get .imgVset r)
def execAvsStatusRead (p : Fin 4) (sel : Fin 16) (s : State) : Out :=
  .next (avsRead s (avsPort p) sel fun r => avsStatus s (avsPort p) r)
/-- AVS_STATUS_WRITE (R387): writing 1 clears StatusAlert. -/
def execAvsStatusWrite (p : Fin 4) (sel : Fin 16) (one : Bool) (s : State) : Out :=
  .next (
    if !s.bit .HG_PCFG_EN (avsPort p) then s
    else if (avsRails s (avsPort p) sel).isEmpty then avsAck s 3
    else avsAck (if one then s.clear .avsAlert (avsPort p) else s) 0)
def execAvsVersion (p : Fin 4) (sel : Fin 16) (s : State) : Out := .next (avsRead s (avsPort p) sel fun _ => 0)
def execAvsCommit (p : Fin 4) (s : State) : Out := .next (avsCommit s (avsPort p))
/-- AVS_CRC_ERROR (R387). -/
def execAvsCrcError (p : Fin 4) (s : State) : Out :=
  .next (if s.bit .HG_PCFG_EN (avsPort p) then avsAck (s.bump .HG_FRAMEERR 0xFFFF (avsPort p)) 2 else s)
/-- AVS_UNSUPPORTED_DATA_TYPE (R387). -/
def execAvsUnsupportedDataType (p : Fin 4) (s : State) : Out :=
  .next (if s.bit .HG_PCFG_EN (avsPort p) then avsAck s 3 else s)

end Sys2Proof.Machine
end

