-- ==== Sys2Proof/Machine/Resets.lean ====
section
/-! DEFINITION. The resets of R439 and R440 (19_device_power_clocks.md), and the wake from STANDBY that a reset request
makes (R448). -/
namespace Sys2Proof.Machine

/-- The field lies between two fields of the register tables, both included. -/
def fldIn (f a b : Fld) : Bool := decide (a.num ≤ f.num ∧ f.num ≤ b.num)

/-- OTP: its registers, and the bits of the counters already used (R397, R398). -/
def otpFld (f : Fld) : Bool := fldIn f .OT_STATUS_DBGLOCK .OT_CNT_EXH || f == .otpPos

/-- The JTAG TAP, which only its own reset touches (R439). -/
def tapFld (f : Fld) : Bool := f == .tapIr || f == .tapErr || f == .tapAt || f == .tapOut || f == .tapCells || f == .enableHold

/-- A cold reset (R439, R440): everything returns to its reset value but OTP, the flash and the TAP; memory stands as
after power-on (log entry 3). `cause` is CCAUSE, `idx` the supply of a supply reset. -/
def coldReset (s : State) (cause idx : Int) : State :=
  let s := { State.reset with
    pending := s.pending
    rf := s.rf.filter fun e => otpFld e.1.fld || tapFld e.1.fld
    flash := s.flash
    keyHashes := s.keyHashes
    freeCtr := s.freeCtr }
  (s.put .PW_RSTCAUSE_CCAUSE cause).put .PW_RSTCAUSE_SUPIDX idx

/-- The watchdog's countdown restarts from TMO; 0 disables it (R441). -/
def wdRestart (s : State) : State :=
  (s.put .wdOn (bit01 (s.bit .PW_WDOG_TMO))).put .wdLeft (160000 * s.get .PW_WDOG_TMO)

/-- Stranding times and rate-limit windows that were running restart from 0 (R327). -/
def irRestart (s : State) : State :=
  s.each (List.range 254) fun s n =>
    let s := if s.bit .irStrOn n then s.put .irStrAt s.now n else s
    if s.bit .irWin n then s.put .irWinEnd (s.now + 160 * s.get .IR_SRCRL_RLWIN n) n else s

/-- The return from STANDBY to RUN (R447): the clocks run, the distributor merges its latched edges and samples its
level sources, DDR4 leaves self-refresh, the Flume is powered and calibrates, the lanes train again and the management
core's event latch is set. The request is consumed (DEDUCED, log entry 40), and the timebases go on from their last wrap (DESIGN CHOICE,
log entry 134). -/
def standbyWake (s : State) (wsrc id : Int) : State :=
  let s := (s.put .sleepMode 0).put .PW_CTRL_SLEEP 0
  let s := (s.put .PW_STATE_WSRC wsrc).put .PW_WAKEID id
  let s := (s.clear .D4_STATUS_SREF).raise .flumeOn
  let s := ((s.put .flumeFrom s.now).clear .FL_STATUS_RDY).raise .evLatch 5
  let s := ((s.clear .evWakeReq).clear .wakeReq).clear .irWakeReq
  let s := irRestart s
  let s := s.each (List.range 254) sampleSource
  wdRestart (s.each (List.range 8) laneEnable)

/-- A pair that JTAG debug has split resynchronises at a reset that reaches the core (R339). -/
def resync (s : State) (k : Nat) : State :=
  if s.get .LS_PAIR_STATE k == pairSPLIT then s.put .LS_PAIR_STATE pairLOCKSTEP k else s

/-- The fields of a core window whose reset column reads "image", each with its second index: of a tick core the MPU regions, of
the management core the gate table and WIRED (R298). -/
def imageWindow (k : Nat) : List (Nat × Fld × Nat) :=
  if k = 5 then [(48, .XC_GTBASE, 0), (49, .XC_MMU_WIRED, 0)]
  else
    (List.range 8).flatMap fun i =>
      [(6 * i, .MPU_BASE_EN, i), (6 * i + 1, .MPU_BASE_R, i), (6 * i + 2, .MPU_BASE_W, i), (6 * i + 3, .MPU_BASE_X, i),
        (6 * i + 4, .MPU_BASE_BASE, i), (6 * i + 5, .MPU_LIM, i)]

/-- What the structure image gives those fields is kept, for a reset of the core. -/
def keepWindow (s : State) (k : Nat) : State :=
  let idx := fun (j : Nat) => if k = 5 then (0, 0) else (k, j)
  s.each (imageWindow k) fun s e => s.put .imgWin (s.get e.2.1 (idx e.2.2).1 (idx e.2.2).2) k e.1

/-- A reset of the core returns them to the image's values (R440; DEDUCED, log entry 126). -/
def restoreWindow (s : State) (k : Nat) : State :=
  let idx := fun (j : Nat) => if k = 5 then (0, 0) else (k, j)
  s.each (imageWindow k) fun s e => s.put e.2.1 (s.get .imgWin k e.1) (idx e.2.2).1 (idx e.2.2).2

/-- A management-core reset with the cause of PW_RSTCAUSE.MCCAUSE (R439, R440). In STANDBY it first wakes the device
with WSRC 0 (R448). -/
def mcReset (s : State) (cause : Int) : State :=
  let s := if s.get .sleepMode == 1 then standbyWake s 0 0 else s
  let s := resync (clearActive (restoreWindow (resetCore s 5) 5) 5) 5
  let s := ((s.clear .UC_CTRL_LDEN).clear .ucWait).clear .coreOn 5
  let s := { hgRestart s with logQueue := [] }
  let s := (s.put .PW_RSTCAUSE_MCCAUSE cause).bump .PW_MCCNT 0xFFFF
  (((s.raise .warmDue).put .mcRstAt s.now).clear .attPend).clear .verDue

/-- A tick-core reset (R439, R440). -/
def tickCoreReset (s : State) (k : Nat) : State :=
  let s := resync (clearActive (restoreWindow (resetCore s k) k) k) k
  ((s.clear .coreOn k).clear .evLatch k)

/-- The start address of the pair: its own, or that of the tick core whose duties it does (R336). -/
def startOf (s : State) (k : Nat) : Int := s.get .PW_TCSTART (s.nat .tcmOf k)

/-- Tick core `k` leaves reset at its start address in bank 0, with the registers of R218 at their reset values. -/
def releaseCore (s : State) (k : Nat) : State :=
  ((resetRegs s k).put .corePc (startOf s k) k).raise .coreOn k

end Sys2Proof.Machine
end

