-- ==== Sys2Proof/Machine/Microcode.lean ====
section
/-! DEFINITION. The writable control store and the decode table (12_microcode.md, R299, R301, R309 to R312, R314): the
writes, their refusals, and the taking of a decode entry by the cores. The execution of microcode is in CoreCustom.lean. -/
namespace Sys2Proof.Machine

/-- The core's copy of decode entry `e`, as UC_DECe lays it out (R299, R314). -/
def decEntry (s : State) (k e : Nat) : Int := s.get .decCopy k e

/-- UC_DECe as last written. -/
def decWord (s : State) (e : Nat) : Int :=
  s.get .UC_DEC_START e + 64 * s.get .UC_DEC_PAGE e + 1024 * s.get .UC_DEC_VALID e + 2048 * s.get .UC_DEC_MCONLY e +
    4096 * s.get .UC_DEC_PRIV e

/-- Page `pg` is named by a VALID entry, as last written or as a core still holds it, or was named and is not freed, since an entry
write is still pending (R311, UC_PAGEUSE). -/
def pageLive (s : State) (pg : Nat) : Bool :=
  s.bitOf .ucHeld pg ||
  (List.range 32).any fun e => (s.bit .UC_DEC_VALID e && s.nat .UC_DEC_PAGE e == pg) ||
    (List.range 6).any fun k => bitAt (decEntry s k e) 10 && field (decEntry s k e) 9 6 == pg

/-- UC_PAGEUSE (R314). -/
def pageUse (s : State) : Int := sumI ((List.range 16).map fun pg => if pageLive s pg then (2 ^ pg : Int) else 0)

/-- UC_STATUS.EPEND: an entry write is not yet taken by every core (R311). -/
def entriesPend (s : State) : Bool := (List.range 6).any fun k => (List.range 32).any fun e => s.bit .decPend k e

/-- The selector codes that name a source only (R302). -/
def sourceOnly (c : Int) : Bool := c == 25 || c == 26 || c == 28 || c == 29

/-- The microword has no reserved code, no source-only destination, and no system operation outside the vendor pages
(R310). -/
def microwordLegal (m : Nat) (w : Int) : Bool :=
  let op := field w 38 34
  decide (op ≤ 18 ∨ (op ≥ 28 ∧ m ≥ 768)) && field w 45 44 != 3 &&
  field w 28 24 != 31 && field w 33 29 != 31 && field w 43 39 != 31 && !sourceOnly (field w 43 39) &&
  (List.range 4).all fun i => decide (field w (11 + 4 * i) (8 + 4 * i) ≤ 12)

/-- A write by core `k` at supervisor privilege `sup` is accepted (R310): LDEN is set, and the target is not locked. -/
def ucMayWrite (s : State) (k : Nat) (sup vendor : Bool) : Bool :=
  k == 5 && sup && s.bit .UC_CTRL_LDEN && !(s.bit .UC_CTRL_VLOCK && vendor)

/-- A microword is stored in every copy with fresh check bits (R299, R314). -/
def storeMicroword (s : State) (m : Nat) (w : Int) : State :=
  let s := (s.put .UC_MW w m).each (List.range 6) fun s c => s.clear .ucBad c m
  { s with softUc := s.softUc.filter fun e => e.2 != m }

/-- MICROWORD_WRITE (R310): a refused write has no other effect than its flag. Reserved bit 7 is not stored. -/
def microwordWrite (s : State) (k : Nat) (sup : Bool) (m : Nat) (w : Int) : State :=
  if !ucMayWrite s k sup (decide (m ≥ 768)) then s.raise .UC_STATUS_LDERR
  else if pageLive s (m / 64) then s.raise .UC_STATUS_LIVEERR
  else if !microwordLegal m w then s.raise .UC_STATUS_FMTERR
  else storeMicroword s m (w - (if bitAt w 7 then 128 else 0))

/-- A live load that waits for EPEND = 0 ends with LDEN written 0 (R312). -/
def endLoad (s : State) : State :=
  s.when (s.bit .ucWait && !entriesPend s) fun s => (s.clear .ucWait).clear .UC_CTRL_LDEN

/-- Core `k` takes the entry writes that it has not taken; with the last of them the pages that no entry names are freed
(R311). -/
def takeEntries (s : State) (k : Nat) : State :=
  let s := s.each ((List.range 32).filter fun e => s.bit .decPend k e) fun s e =>
    (s.put .decCopy (decWord s e) k e).clear .decPend k e
  s.when (!entriesPend s) (·.clear .ucHeld)

/-- A core that is halted, waits or is not out of reset takes an entry write at once (R311). -/
def takesAtOnce (s : State) (k : Nat) : Bool := !coreRuns s k || s.bit .coreWait k

/-- DECODE_ENTRY_WRITE (R310, R311). -/
def decodeEntryWrite (s : State) (k : Nat) (sup : Bool) (e : Nat) (v : Int) : State :=
  if !ucMayWrite s k sup (decide (e ≥ 24)) then s.raise .UC_STATUS_LDERR
  else
    let s := s.when (s.bit .UC_DEC_VALID e) (·.setBits .ucHeld (2 ^ s.nat .UC_DEC_PAGE e))
    let s := ((s.put .UC_DEC_START (field v 5 0) e).put .UC_DEC_PAGE (field v 9 6) e).put .UC_DEC_VALID (field v 10 10) e
    let s := (s.put .UC_DEC_MCONLY (field v 11 11) e).put .UC_DEC_PRIV (field v 12 12) e
    s.each (List.range 6) fun s c =>
      let s := s.raise .decPend c e
      if takesAtOnce s c then takeEntries s c else s

/-- An uncorrectable error in core `k`'s copy of microword `m` (R309): VALID clears in that core's copy of every entry
whose page holds it. -/
def microwordError (s : State) (k m : Nat) : State :=
  let s := ((s.put .UC_UEADDR_MW m).put .UC_UEADDR_CORE k).raise .UC_UEADDR_V
  (s.raise .ucBad k m).each (List.range 32) fun s e =>
    if field (decEntry s k e) 9 6 == ((m / 64 : Nat) : Int) && bitAt (decEntry s k e) 10 then
      s.put .decCopy (decEntry s k e - 1024) k e
    else s

/-- VLOCK (R310, R312): only the management core at supervisor privilege writes it. -/
def execVlock (by_ : Agent) (s : State) : Out :=
  let (k, sup) := agentCore s by_
  .next (if k == 5 && sup then s.raise .UC_CTRL_VLOCK else s.raise .UC_STATUS_LDERR)
def execMicrowordWrite (by_ : Agent) (m : Fin 1024) (w : BitVec 64) (s : State) : Out :=
  let (k, sup) := agentCore s by_
  .next (microwordWrite s k sup m w.toNat)
def execDecodeEntryWrite (by_ : Agent) (e : Fin 32) (v : W16) (s : State) : Out :=
  let (k, sup) := agentCore s by_
  .next (decodeEntryWrite s k sup e v.toNat)
def execDecodeEntryTaken (k : CoreId) (s : State) : Out := .next (endLoad (takeEntries s k))

end Sys2Proof.Machine
end

