-- ==== Sys2Proof/Machine/Legal.lean ====
section
/-! DEFINITION. The values that the register tables mark as illegal (R11, 00_scope.md), and the flag by which each block
reports a write that was not stored. -/
namespace Sys2Proof.Machine

/-- Fields of which 0 is illegal, as their tables say. -/
def nonZero : List Fld :=
  [.DM_RAILPHL_PHIMAX, .DM_RAILPG_PGLO, .DM_RAILPG_PGHI, .FL_CTRL_OSCNT, .FL_RIPCFG_RIPMIN, .FL_ROTCTL_ROTPER,
   .FL_PHGAIN, .FL_TMGAIN, .FL_AUXGAIN, .LN_SSLOPE, .LN_SLEWUP, .LN_SLEWDN, .LN_SDSLOPE, .SL_PPIW, .SL_RSLOPE_PSLEW, .SL_RSYNC_DRPT,
   .LN_BURST_BLEN, .LN_OFFLEN, .LN_FCCFG_PRAMP, .LN_MISSWIN_MISSLO, .LN_MISSWIN_MISSHI, .LN_UNWIND, .LN_MATCH_MATCH,
   .DL_CTRL_KATMO, .DD_CFG_GTMO, .WP_RPERS_OVPERS, .WP_RPERS_UVPERS, .WP_RPERS2_ROCPERS, .WP_RPERS2_OCCNT,
   .WP_RETRY_RTDLY, .WP_LSAT, .WP_CCFG_TFFILT, .WP_CTF, .WP_COT, .PH_SHCFG_NFLOOR, .PH_SHDWELL, .PH_CTCYC, .PH_CPRB,
   .EV_CHSG_SGWIN, .IR_SRCRL_RLWIN, .IR_CTRL_STRTMO, .DMA_CNT_BURST, .D4_RETCFG_CETHR, .RC_RAILPER, .HG_CTRL_EXTMO,
   .DR_LOG_LOGPER, .DR_IDCFG_AMP, .DR_IDCFG_PER]

/-- The least and the greatest legal value of the other fields whose tables mark values as illegal. -/
def legalRange (f : Fld) : Option (Int × Int) :=
  match f with
  | .FL_RIPCFG_RIPWIN => some (0, 6)
  | .FL_STKCFG_STKT => some (16, 4095)
  | .FL_ROTCTL_TGT => some (0, 17)
  | .FL_AUXCFG_AVG => some (0, 12)
  | .LN_VSET => some (1600, 15200)
  | .LN_GEXP => some (0, 10)
  | .LN_CMDMIN => some (-(2 ^ 31), 0)
  | .DD_GRANT_AMT => some (0, 2 ^ 21 - 1)
  | .SL_PTEST_FORCE | .SL_RMODE_MODE | .LN_TRCFG_LOACT | .WR_CFG_INIT | .PW_CTRL_SLEEP => some (0, 2)
  | .SL_RPER => some (4267, 204800)
  | .SL_RTONMIN | .SL_RTOFFMIN | .SL_RDMAXT => some (0, 2048)
  | .WR_CFG_MODE => some (0, 4)
  | .WR_CFG_SMODE => some (0, 5)
  | .WP_RCFG_OVPOL | .WP_RCFG_UVPOL | .WP_RCFG_ROCPOL | .WP_RCFG_OPENPOL | .WP_RCFG_STKPOL | .WP_RCFG_LSATPOL => some (0, 2)
  | .WP_SUB_IDX => some (0, 175)
  | .PH_SHCFG_NFLOOR => some (1, 64)
  | .PH_PCTL_RCIN => some (0, 11)
  | .EV_CHCFG_OWNER => some (0, 6)
  | .CT_CFG_CFINE => some (0, 19)
  | .IR_SRCCFG_TGT => some (0, 5)
  | .DMA_CFG_WRAP => some (4, 20)
  | .DMA_CNT_BURST => some (1, 4096)
  | .HG_XCLEN_LEN => some (0, 4096)
  | .DR_BUDGET => some (100, 6000)
  | .MS_SCRUBCTL_MEM => some (0, 13)
  | .XC_TLBTAG_SZ => some (0, 2)
  | _ => none

/-- The value is legal for the field (R11). -/
def legal (f : Fld) (v : Int) : Bool :=
  !(v == 0 && nonZero.contains f) &&
  match legalRange f with
  | some (lo, hi) => decide (lo ≤ v ∧ v ≤ hi)
  | none => true

/-- The block's report of a write that was not stored, for a field of index `i` (R11 and the blocks' chapters). The DMA
channels' configuration, the scrub engine and the power block have no such flag. -/
def reportIllegal (s : State) (f : Fld) (i : Nat) : State :=
  if fldIn f .DM_TICKLO .DM_RAILTMO_ENFILT then s.raise .DM_STATUS_CEILERR
  else if fldIn f .FL_CTRL_OSEN .FL_TMRHI then s.raise .FL_STATUS_CFGERR
  else if fldIn f .LN_CTRL_ESRC .LN_ILE then laneFlag s i lnBNDERR
  else if fldIn f .DL_CTRL_EN .DL_TXSEQ then s.raise .DL_FLAG_CFGERR i
  else if fldIn f .DD_CFG_GAUTO .DD_SILE0 then s.raise .DD_GREQ_CFGERR i
  else if fldIn f .SL_PSTAT_LEVEL .SL_SYNCPER then s.raise .SL_STATUS_CFGERR
  else if fldIn f .WR_CFG_EN .WP_SPFAIL then s.raise .WP_STATUS_CFGERR
  else if fldIn f .PH_CTRL_LOCK .PH_CFLAG_NOID then s.raise .PH_STATUS_CFGERR
  else if fldIn f .EV_STATUS_OWNERR .CT_LOST then s.raise .EV_STATUS_CFGERR
  else if fldIn f .IR_SRCCFG_EN .IR_STATUS_STRAND then s.raise .IR_STATUS_CFGERR
  else if fldIn f .D4_CFG_SIZE .D4_RETX_V then s.raise .D4_STATUS_CFGERR
  else if fldIn f .RC_CTRL_EN .RC_MSGGO_GO then s.raise .RC_STATUS_CFGERR
  else if fldIn f .HG_CTRL_EXTMO .HG_CACHE then s.raise .HG_STATUS_CFGERR
  else if fldIn f .DR_CFG_SCRUB .DR_IDL then s.raise .HG_STATUS_CFGERR
  else s

end Sys2Proof.Machine
end

