-- ==== Sys2Proof/Machine/LockStep.lean ====
section
/-! DEFINITION. The lock-step pairs (14_lockstep.md): freezing, LBIST and its outcome, the takeover of a tick core's
duties, the debug split and the start-up injection test. -/
namespace Sys2Proof.Machine

/-- The domain set whose duties pair `k` does, if any (R336). -/
def dutyOf (s : State) (k : Nat) : Option Nat := (List.range 4).find? fun n => s.get .dutyPair n == k

/-- TC4 can take duties over: in LOCKSTEP with DUTY 7, and not already in a takeover sequence (R336, R340). -/
def spareFree (s : State) : Bool :=
  s.get .LS_PAIR_STATE 4 == pairLOCKSTEP && s.get .LS_PAIR_DUTY 4 == 7 && !s.bit .tkHold 4

/-- The reserve pair that R338 gives duties to: the lowest-numbered of TC0 to TC3 with DUTY 7 in LOCKSTEP or SINGLE. -/
def reserveFor (s : State) : Option Nat :=
  (List.range 4).find? fun q => s.get .LS_PAIR_DUTY q == 7 && !s.bit .tkHold q &&
    (s.get .LS_PAIR_STATE q == pairLOCKSTEP || s.get .LS_PAIR_STATE q == pairSINGLE)

/-- The pair that takes over from pair `k` (R336, R338, R340): none while TC4 runs LBIST after another pair's freeze. -/
def takerOf (s : State) (k : Nat) : Option Nat :=
  if k ≠ 4 && spareFree s then some 4
  else if k ≠ 4 && s.get .LS_PAIR_STATE 4 == pairFROZEN then none
  else reserveFor s

/-- The fields of a core window that a takeover copies (R336). -/
def copyWindow (s : State) (q n : Nat) : State :=
  let s := ((s.put .XC_VBASE (s.get .XC_VBASE n) q).put .XC_MPUCTL_EN (s.get .XC_MPUCTL_EN n) q)
  let s := s.put .XC_CTRL_LOCK (s.get .XC_CTRL_LOCK n) q
  s.each (List.range 8) fun s i =>
    s.each [Fld.MPU_BASE_EN, .MPU_BASE_R, .MPU_BASE_W, .MPU_BASE_X, .MPU_BASE_BASE, .MPU_LIM] fun s f =>
      s.put f (s.get f n i) q i

/-- Pair `q` has TCn's TCM at its alias, TCn's window and TCn's event mask (R336). -/
def takeSet (s : State) (n q : Nat) : State := copyWindow ((s.put .tcmOf n q).put .maskOf n q) q n

/-- Pair `q` is given the duties of domain set `n` (R336): its channels and interrupt sources count as `q`'s, and `q` is held in
reset with what it takes over from TCn. -/
def giveDuties (s : State) (n q : Nat) : State :=
  let s := (s.put .dutyPair q n).raise .tkHold q
  let s := (s.put .tkAt s.now q).raise .PW_TCCTL_HELD q
  takeSet (tickCoreReset s q) n q

/-- A takeover of domain set `n` by pair `q`, or by none (R336, R338). -/
def takeover (s : State) (k n : Nat) (q : Option Nat) : State :=
  let s := s.each ((List.range 8).filter fun d => s.nat .domSet d == n && !s.bit .DD_CFG_GAUTO d) timeoutGrants
  match q with
  | some q => giveDuties (clearActive ((s.raise .LS_STATUS_TKOVER).put .LS_STATUS_TKFOR n) k) n q
  | none => if k = 4 then clearActive (s.put .dutyPair 7 n) k else s

/-- MISMATCH_FREEZE (R333, R336): a difference in group `g` freezes a pair in LOCKSTEP that runs. What it held under R331
is lost, LBIST destroys its registers, a tick core's reset is held, and its duties go to TC4 or to a reserve (R439). -/
def mismatchFreeze (s : State) (k g : Nat) : State :=
  if s.get .LS_PAIR_STATE k != pairLOCKSTEP || !s.bit .coreOn k || s.bit .sleepMode then s
  else
    let s := ((s.put .LS_PAIR_STATE pairFROZEN k).put .LS_MM_GROUP g k).raise .LS_MM_V k
    let s := (s.bump .LS_MM_COUNT 255 k).put .LS_MMT (s.now % 65536) k
    let s := (s.put .lbistAt s.now k).clear .coreOn k
    let s := hwPublish (resetRegs s k) 91
    let s := if k < 5 then s.raise .PW_TCCTL_HELD k else s
    let s := match (if k < 5 then dutyOf s k else none) with
      | some n => takeover s k n (takerOf s k)
      | none => s
    if k < 5 then tickCoreReset s k else s

/-- TAKEOVER_RELEASE (R336): 64 core cycles after the freeze the pair is released at TCn's start address. -/
def takeoverRelease (s : State) (q : Nat) : State :=
  if !s.bit .tkHold q || s.now < s.get .tkAt q + 12 then s
  else
    let s := (s.clear .tkHold q).clear .PW_TCCTL_HELD q
    let s := match dutyOf s q with
      | some n => s.put .LS_PAIR_DUTY n q
      | none => s
    if pairRuns s q then releaseCore s q else s

/-- The state that LBIST leaves a pair in (R334). -/
def lbistState (p c : Bool) : Int :=
  if p && c then pairLOCKSTEP else if p || c then pairSINGLE else pairFUSED

/-- LBIST_DONE (R334, R335): 1.2 ms after the freeze. -/
def lbistDone (s : State) (k : Nat) (p c : Bool) : State :=
  if s.get .LS_PAIR_STATE k != pairFROZEN || s.now < s.get .lbistAt k + 192000 then s
  else
    let st := lbistState p c
    let s := (s.put .LS_PAIR_STATE st k).put .LS_PAIR_SURV (bit01 (!p && c)) k
    let s := (s.put .LS_PAIR_LBP (bit01 p) k).put .LS_PAIR_LBC (bit01 c) k
    if k = 5 then
      if st == pairFUSED then s
      else if s.get .IM_STATE_STEP == 7 then mcReset s 5
      else (mcReset s 5).clear .warmDue |>.clear .started
    else if k = 4 then (s.put .LS_PAIR_DUTY 7 k).clear .PW_TCCTL_HELD k
    else
      match dutyOf s k with
      | none => s.put .LS_PAIR_DUTY 7 k
      | some _ =>
        if st == pairFUSED then s
        else
          let s := s.clear .PW_TCCTL_HELD k
          if s.bit .PW_TCCTL_RUN k then releaseCore s k else s

/-- A write of LS_TKOVER.DONE by pair `k` (R336, R341): only the core whose DUTY names the set under takeover. -/
def takeoverDone (s : State) (k : Nat) : State :=
  if s.bit .LS_STATUS_TKOVER && s.get .LS_PAIR_DUTY k == s.get .LS_STATUS_TKFOR && k != 5 then
    s.clear .LS_STATUS_TKOVER
  else s

/-- DEBUG_HALT (R339, R340): refused with the production debug lock and of a pair that is frozen. A pair in LOCKSTEP
splits; one already without its comparator only halts (DEDUCED, log entry 41). -/
def debugHalt (s : State) (k : Nat) : State :=
  if s.bit .OT_STATUS_DBGLOCK || s.get .LS_PAIR_STATE k == pairFROZEN then s
  else
    let s := s.raise .coreDbg k
    if s.get .LS_PAIR_STATE k == pairLOCKSTEP then (s.put .LS_PAIR_STATE pairSPLIT k).raise .LS_STATUS_DBGSPLIT else s

/-- The start-up injection test with the pairs that failed it (R332): they enter UNVERIFIED, and TC4 is given the duties
of the lowest-numbered tick pair that failed, if TC4 passed. -/
def injectionTest (s : State) (failed : List Nat) : State :=
  let s := s.each ((List.range 6).filter failed.contains) fun s k =>
    (s.raise .LS_PAIR_COMPFAIL k).put .LS_PAIR_STATE pairUNVERIFIED k
  s.raise .LS_STATUS_INJDONE

/-- The duties of tick pair `k` that failed the injection test (R332): TC4 is given them from the start, unless it is UNVERIFIED or
already has duties; then no pair does them. -/
def unverifiedDuty (s : State) (k : Nat) : State :=
  let n := s.nat .LS_PAIR_DUTY k
  if s.get .LS_PAIR_STATE k != pairUNVERIFIED || n > 3 then s
  else
    let s := s.put .LS_PAIR_DUTY 7 k
    if k ≠ 4 && s.get .LS_PAIR_STATE 4 == pairLOCKSTEP && s.get .LS_PAIR_DUTY 4 == 7 then
      ((takeSet s n 4).put .dutyPair 4 n).put .LS_PAIR_DUTY n 4
    else s.put .dutyPair 7 n

/-- The duties of the pairs that failed the injection test (R332): a failed TC4 holds none. -/
def unverifiedDuties (s : State) : State := (unverifiedDuty s 4).each (List.range 4) unverifiedDuty

/-- A core with duties that is not the set's own keeps what it took over (R337). -/
def keepTaken (s : State) : State :=
  s.each ((List.range 5).filter fun q => s.get .LS_PAIR_DUTY q != 7 && s.nat .tcmOf q != q) fun s q => copyWindow s q (s.nat .tcmOf q)

/-- The tick cores with duties are released (R296, R399). -/
def releaseTicks (s : State) : State :=
  s.each ((List.range 5).filter fun k => s.get .LS_PAIR_DUTY k != 7 && pairRuns s k) fun s k =>
    releaseCore (s.raise .PW_TCCTL_RUN k) k

def execMismatchFreeze (k : CoreId) (g : Fin 6) (s : State) : Out := .next (mismatchFreeze s k g)
def execLbistDone (k : CoreId) (primary checker : Bool) (s : State) : Out := .next (lbistDone s k primary checker)
def execTakeoverRelease (k : CoreId) (s : State) : Out := .next (takeoverRelease s k)
def execDone (k : CoreId) (s : State) : Out := .next (takeoverDone s k)
def execDebugHalt (k : CoreId) (s : State) : Out := .next (debugHalt s k)

end Sys2Proof.Machine
end

