-- ==== Sys2Proof/Machine/Scrub.lean ====
section
/-! DEFINITION. The scrub engine (18_background_services.md, R418, R433). -/
namespace Sys2Proof.Machine

/-- The words (of WCS copies, the microwords) of memory `m` of R418, and of one unit of it. -/
def scrubSize (s : State) (m : Nat) : Nat :=
  if m < 7 then 512 * sramRows m else if m = 7 then ddrWords s - 0x100000 else 1024
def scrubUnit (m : Nat) : Nat := if m < 7 then 512 else if m = 7 then 2048 else 64

/-- A write of MS_SCRUBCTL.GO (R433): refused while a unit is in progress or where ADDR lies beyond the memory. -/
def scrubGo (s : State) : State :=
  let m := s.nat .MS_SCRUBCTL_MEM
  if s.bit .MS_SCRUBCTL_BUSY || s.nat .MS_SCRUBADDR ≥ scrubSize s m then s.raise .MS_SCRUBCTL_ERR
  else s.raise .MS_SCRUBCTL_BUSY

/-- The first word of the unit being scrubbed (R433: bits below the unit size are ignored). -/
def scrubBase (s : State) : Nat :=
  let u := scrubUnit (s.nat .MS_SCRUBCTL_MEM)
  s.nat .MS_SCRUBADDR / u * u

/-- Word `i` of the unit being scrubbed is known to be uncorrectable. -/
def scrubKnown (s : State) (i : Nat) : Bool :=
  let m := s.nat .MS_SCRUBCTL_MEM
  if m < 7 then s.bit .memBad (sramBase m + scrubBase s + i)
  else if m = 7 then s.bit .memBad (ddrWord s (0x80000000 + scrubBase s + i))
  else s.bit .ucBad (m - 8) (scrubBase s + i)

/-- The words of the unit being scrubbed in which a single-bit error stands, and which are not uncorrectable. -/
def scrubSoft (s : State) : List Nat :=
  let m := s.nat .MS_SCRUBCTL_MEM
  (List.range (scrubUnit m)).filter fun i =>
    !scrubKnown s i &&
      (if m < 7 then s.soft.contains (sramBase m + scrubBase s + i)
       else if m = 7 then s.soft.contains (ddrWord s (0x80000000 + scrubBase s + i))
       else s.softUc.contains (m - 8, scrubBase s + i))

/-- The corrected errors of the unit: those that stood in it, counted by word and in DDR4 by beat, and `ce` more. -/
def scrubErrors (s : State) (ce : Nat) : Nat :=
  ce + (if s.nat .MS_SCRUBCTL_MEM = 7 then ((scrubSoft s).map (· / 2)).eraseDups.length else (scrubSoft s).length)

/-- The unit ends (R418): the single-bit errors that stood in it and `ce` more were corrected and written back, and the words (of DDR4,
the words of the beats; of the WCS, the microwords) at the offsets `bad` were uncorrectable, beside those already known to be. Those of
an SRAM row count towards its repair (R344). -/
def scrubDone (s : State) (ce : Nat) (bad : List Nat) : State :=
  if !s.bit .MS_SCRUBCTL_BUSY then s
  else
    let m := s.nat .MS_SCRUBCTL_MEM
    let base := scrubBase s
    let u := scrubUnit m
    let known := (List.range u).filter (scrubKnown s)
    let place := fun i => if m < 7 then sramBase m + base + i else ddrWord s (0x80000000 + base + i)
    let soft := scrubSoft s
    let found := scrubErrors s ce
    let s := s.when (m < 7) fun s =>
      (s.each (soft.map place) fun s a => s.raise .ceSeen a).put .ceMore (s.get .ceMore m (base / 512) + ce) m (base / 512)
    let s := { s with soft := if m < 8 then s.soft.filter fun a => !(soft.map place).contains a else s.soft }
    let s := { s with softUc := if m < 8 then s.softUc else s.softUc.filter fun e => !(soft.map fun i => (m - 8, base + i)).contains e }
    let bads := (List.range u).filter fun i => known.contains i || (bad.map (· % u)).contains i
    let s :=
      if m < 7 then
        let s := s.bump .MS_CE 0xFFFF m 0 found
        s.each bads fun s i => countUE (s.raise .memBad (sramBase m + base + i)) (sramBase m + base + i)
      else if m = 7 then
        let s := trackCE s (pageOf base) found
        s.each ((List.range (u / 2)).filter fun b => bads.contains (2 * b) || bads.contains (2 * b + 1)) fun s b =>
          errorRetire s (base + 2 * b) true
      else
        let s := s.bump .UC_ECC 0xFFFF 0 0 found
        s.each bads fun s i => microwordError s (m - 8) (base + i)
    let s := (s.put .MS_SCRUBRES_CE (min 1023 (found : Int))).put .MS_SCRUBRES_UE (bit01 (!bads.isEmpty))
    (s.clear .MS_SCRUBCTL_BUSY).raise .MS_SCRUBCTL_DONE

/-! The units of a round (R419): the firmware starts each one when the one before it has ended. -/

/-- The memory and the address of SRAM unit `u` of the 4,736 rows, in ascending order (R418, R419). -/
def sramUnit (u : Nat) : Nat × Nat :=
  if u < 2048 then (0, 512 * u)
  else if u < 2688 then (1 + (u - 2048) / 128, 512 * ((u - 2048) % 128))
  else (6, 512 * (u - 2688))

/-- A unit is started through MS_SCRUBCTL. -/
def startUnit (s : State) (m a : Nat) : State := scrubGo ((s.put .MS_SCRUBCTL_MEM m).put .MS_SCRUBADDR a)

/-- The next unit that the round still owes (R419): SRAM rows, then WCS pages, then a page of DDR4; the orders wrap. -/
def scrubNext (s : State) : State :=
  if s.bit .MS_SCRUBCTL_BUSY || !coreRuns s 5 then s
  else if s.bit .scrubLeftU then
    let u := s.nat .scrubU
    let s := (s.put .scrubLeftU (s.get .scrubLeftU - 1)).put .scrubU ((u + 1) % 4736 : Nat)
    startUnit s (sramUnit u).1 (sramUnit u).2
  else if s.bit .scrubLeftW then
    let u := s.nat .scrubW
    let s := (s.put .scrubLeftW (s.get .scrubLeftW - 1)).put .scrubW ((u + 1) % 96 : Nat)
    startUnit s (8 + u / 16) (64 * (u % 16))
  else if s.bit .scrubLeftP && s.bit .D4_STATUS_RDY then
    let u := s.nat .scrubP
    let s := (s.put .scrubLeftP (s.get .scrubLeftP - 1)).put .scrubP ((u + 1) % (max 1 (scrubSize s 7 / 2048)) : Nat)
    startUnit s 7 (2048 * u)
  else s

def execScrubGo (s : State) : Out := .next (scrubGo s)
/-- SCRUB_DONE (R418), after which the next unit of a round starts (R419). -/
def execScrubDone (ce : Nat) (bad : List Nat) (s : State) : Out := .next (scrubNext (scrubDone s ce bad))

end Sys2Proof.Machine
end

