-- ==== Sys2Proof/Machine/Power.lean ====
section
/-! DEFINITION. Supplies, clocks, the watchdog, sleep and wake (19_device_power_clocks.md, R434 to R449). -/
namespace Sys2Proof.Machine

/-! Clocks and cold resets. -/

/-- PLL_LOCK (R437): PLL 0 is the main PLL, 1 the DDR PLL, 2 to 5 the lane PLLs. -/
def pllLock (s : State) (p : Nat) : State :=
  if p = 0 then s.raise .PW_CLK_MPLOCK else if p = 1 then s.raise .PW_CLK_DPLOCK
  else s.setBits .PW_CLK_LPLOCK (2 ^ (p - 2))

/-- The DDR PLL loses lock (R438): the controller is treated as having failed training. -/
def ddrPllUnlock (s : State) : State := trainingDone ((s.clear .PW_CLK_DPLOCK).clear .D4_STATUS_RDY) false

/-- Lane PLL `j` loses lock (R438): lanes 2j and 2j + 1 lose block lock. -/
def lanePllUnlock (s : State) (j : Nat) : State :=
  blockLockLost (blockLockLost (s.clrBits .PW_CLK_LPLOCK (2 ^ j)) (2 * j)) (2 * j + 1)

/-- A monitor trips (R436): a supply reset, but in DEEP SLEEP only VDDAO's monitor counts. -/
def supplyReset (s : State) (i : Nat) : State :=
  if s.get .sleepMode == 2 && i != 1 then s else coldReset s 2 i

/-- A clock failure (R438): in RUN, IDLE and STANDBY. -/
def clockFailure (s : State) : State := if s.get .sleepMode == 2 then s else coldReset s 3 0

/-! Tick-core release (R439, R449). -/

/-- A write of PW_TCCTLk.RUN: stored; it acts unless the hardware holds the core. -/
def tickCoreRun (s : State) (k : Nat) (run : Bool) : State :=
  let s := s.put .PW_TCCTL_RUN (bit01 run) k
  if s.bit .PW_TCCTL_HELD k then s
  else if !run then tickCoreReset s k
  else if s.bit .coreOn k || !pairRuns s k then s
  else releaseCore s k

/-! The watchdog (R441). -/

/-- A write of PW_WDKICK. -/
def watchdogKick (s : State) (v : Int) : State := if v == 0xA5 && s.bit .PW_WDOG_TMO then wdRestart s else s

/-- The countdown of one control tick; it stops while debug halts the management core. -/
def watchdogTick (s : State) : State :=
  if s.bit .wdOn && !s.bit .coreDbg 5 then s.put .wdLeft (max 0 (s.get .wdLeft - 1)) else s

/-- The expiry. -/
def watchdogExpiry (s : State) : State :=
  if s.bit .wdOn && s.get .wdLeft == 0 && !s.bit .coreDbg 5 && !s.bit .sleepMode then mcReset (s.clear .wdOn) 2 else s

/-! Sleep (R444, R445). -/

/-- The conditions of a sleep request (R444). -/
def sleepOk (s : State) : Bool :=
  ((List.range 16).all fun r => (railState s r == stOFF || railState s r == stUNUSED) && !enabled s r) &&
  ((List.range 5).all fun k => !s.bit .coreOn k || s.bit .coreHalt k || s.bit .coreDbg k || s.get .coreWait k == 1) &&
  ((List.range 16).all fun c => !s.bit .DMA_STAT_BUSY c) && s.hgQueue.isEmpty && s.hgCpl.isEmpty

/-- A write of PW_CTRL.SLEEP (R444): 3 is illegal and not stored; a request whose conditions do not hold is refused. -/
def sleepRequest (s : State) (m : Nat) : State :=
  if m = 3 then s
  else if m ≠ 0 && !sleepOk s then s.raise .PW_STATE_REQERR
  else s.put .PW_CTRL_SLEEP m

/-- A wake source of R446 that has fired: its code and its identity. The lower code comes first (R448). -/
def wakeSource (s : State) : Option (Int × Int) :=
  let deep := s.get .sleepMode == 2
  if s.bit .evWakeReq then some (1, s.get .evWakeReq - 1)
  else if s.bit .wakeReq then some (2, s.get .wakeReq - 1)
  else if s.bit .irWakeReq then some (3, s.get .irWakeReq - 1)
  else if deep then none
  else
    match s.hgQueue with
    | m :: _ => some (4, m.port)
    | [] => ((List.range 16).find? fun r => enabled s r).map fun (r : Nat) => (5, (r : Int))

/-- The entry is undone (R444). -/
def sleepUndo (s : State) : State :=
  let s := (((s.put .PW_CTRL_SLEEP 0).raise .PW_STATE_ABORT).raise .evLatch 5)
  ((s.clear .evWakeReq).clear .wakeReq).clear .irWakeReq

/-- Steps 1 to 3 (R444): the recorder's queue drains, scrubbing and retirement copies end, DDR4 enters self-refresh, the
lanes go to OFF and the Flume loses its power, with the rotation steps in progress. The weirs take SMODE at the next boundary. -/
def standbyEntry (s : State) : State :=
  let s := s.each s.recQueue fun s _ => recordWrite s
  let s := retireCopiesDone (scrubDone s 0 [])
  let s := if ddrReady s then s.raise .D4_STATUS_SREF else s
  let s := s.each (List.range 8) fun s l =>
    let run := laneState s l == lnRUN
    let s := ((s.put .DL_STATE_STATE lnOFF l).clear .lkLock l).clear .lossReq l
    s.when run (dropLane · l)
  let s := (s.clear .flumeOn).clear .FL_STATUS_RDY
  let s := s.each (List.range 18) dropStep
  (s.put .sleepMode 1).put .PW_STATE_LAST 1

/-- The fields that VDDAO keeps through DEEP SLEEP (R445), with the hidden state of their blocks. -/
def keptAsleep (f : Fld) : Bool :=
  fldIn f .EV_STATUS_OWNERR .CT_LOST || fldIn f .WR_CFG_EN .PH_CFLAG_NOID ||
  fldIn f .IR_SRCCFG_EN .IR_SRCST_ETGT || fldIn f .IR_CRUN_RUN .IR_CRUN_NACT || f == .IR_CTRL_STRTMO || fldIn f .IR_STATUS_CFGERR .IR_STATUS_STRAND ||
  f == .FL_CLFAIL || f == .FL_VFAIL || fldIn f .SL_CEG_SPFOR .SL_CEG_FAIL ||
  fldIn f .LS_PAIR_STATE .LS_PAIR_DUTY || f == .LS_STATUS_DBGSPLIT || f == .MS_REP_REPUSED || f == .MS_REP_NOREP ||
  f == .D4_NRET || fldIn f .D4_RET_PAGE .D4_RETX_V || f == .RC_WIDX || f == .RC_STATUS_WRAPPED ||
  f == .RC_STATUS_FROZEN || fldIn f .IM_STATE_STEP .OT_CNT_EXH || fldIn f .PW_STATE_IDLE .PW_CLK_CLKSEL ||
  f == .tick || f == .DM_MTICK || f == .sgCount || f == .sgEnd || f == .sgOpen || f == .startPend ||
  f == .startCmp || f == .cmpFrom || f == .evWakeReq || f == .wakeReq || f == .irWakeReq || f == .irEdge ||
  f == .irPrev || f == .irOwner || f == .irCnt || f == .irWin || f == .irWinEnd || f == .irHeld || f == .irStrOn ||
  f == .irStrAt || f == .irStrand || f == .wrOn || f == .wrRun || f == .wrSettle || f == .wrSampled || f == .wrLoss ||
  f == .dutyPair || f == .tcmOf || f == .maskOf || f == .otpPos || f == .verOk || f == .verSlot || f == .verVer ||
  f == .verKey || f == .imgVer || f == .flashSize || f == .flashRo || f == .sigNo || f == .chgLow || f == .hcX ||
  f == .hcFall || f == .hcAny || f == .retAt || f == .trialEnd || f == .memBad || f == .protLost || f == .trLost ||
  f == .isolated || f == .tfRun || f == .tfChg || f == .tfAct || f == .tfIn || f == .tfStuckOn || f == .tfStkDone ||
  f == .otCnt || f == .ovCnt || f == .probed || f == .probeAll || f == .probeSkip || f == .probeFound || f == .probeFrom ||
  f == .noidMt || f == .auxOff || f == .ovOff || f == .ovRun || f == .regMt

/-- Step 4 (R162, R444, R445): the weirs take their modes of DEEP SLEEP, then every register and memory that is not kept is lost, DDR4
but for what its board may keep; SUPEN goes low. The self-test of the weirs is due again (R447). -/
def deepEntry (s : State) : State :=
  let s := ((s.put .sleepMode 2).each (List.range 184) weirBoundary).clear .WP_STATUS_RDY
  let wasReady := s.bit .D4_STATUS_SREF
  let t := { State.reset with
    pending := s.pending
    rf := s.rf.filter fun e => keptAsleep e.1.fld && !(e.1.fld == Fld.memBad && e.1.i < 0x80000000)
    mem := s.mem.filter fun c => decide (c.1 ≥ 0x100000000)
    soft := s.soft.filter fun a => decide (a ≥ 0x80000000)
    flash := s.flash, keyHashes := s.keyHashes, digests := s.digests, challenge := s.challenge
    irqLines := s.irqLines
    arrivals := s.arrivals.filter fun a => 112 ≤ a.turnout
    freeCtr := s.freeCtr }
  ((t.put .srefKept (bit01 wasReady)).put .sleepMode 2).put .PW_STATE_LAST 2 |>.clear .supen

/-- SLEEP_ENTRY (R444): it begins when the management core's WFE waits with a request stored; a wake source that fires, or
a condition that fails, before the last step undoes it. -/
def sleepEntry (s : State) : State :=
  if !s.bit .PW_CTRL_SLEEP || s.get .coreWait 5 != 1 || s.bit .sleepMode then s
  else if !sleepOk s || (wakeSource s).isSome then sleepUndo s
  else if s.get .PW_CTRL_SLEEP == 2 then deepEntry (standbyEntry s)
  else standbyEntry s

/-- WAKE (R446, R447), with the length of the sleep in always-on oscillator periods. From DEEP SLEEP SUPEN goes high, and
the resume start waits for the supplies. -/
def wakeUp (s : State) (t : Int) : State :=
  if s.get .sleepMode == 0 || s.bit .resumeDue then s
  else
    match wakeSource s with
    | none => s
    | some (src, id) =>
      let s := s.put .PW_SLEEPT t
      if s.get .sleepMode == 1 then standbyWake s src id
      else
        let s := ((s.put .PW_STATE_WSRC src).put .PW_WAKEID id).raise .supen
        ((s.clear .evWakeReq).clear .wakeReq).clear .irWakeReq |>.raise .resumeDue

/-- The device is in IDLE (R443): every released core waits or is halted. -/
def deviceIdle (s : State) : Bool :=
  !s.bit .sleepMode && (List.range 6).all fun k => !s.bit .coreOn k || s.bit .coreHalt k || s.bit .coreDbg k || s.bit .coreWait k

/-- PW_STATE.IDLE as the management core reads it (R449): the other cores hold the condition of R443. -/
def othersIdle (s : State) : Bool :=
  (List.range 5).all fun k => !s.bit .coreOn k || s.bit .coreHalt k || s.bit .coreDbg k || s.bit .coreWait k

/-- WAKE# falls (R478): a hardware publication, which wakes the device where its channel is a wake channel. -/
def wakeFalling (s : State) : State := hwPublish s 92

def execPllLock (p : Fin 6) (s : State) : Out := .next (pllLock s p)
def execPorst (s : State) : Out := .next (coldReset s 1 0)
def execSupplyReset (i : Fin 8) (s : State) : Out := .next (supplyReset s i)
def execClockFailure (s : State) : Out := .next (clockFailure s)
def execDdrPllUnlock (s : State) : Out := .next (ddrPllUnlock s)
def execLanePllUnlock (j : Fin 4) (s : State) : Out := .next (lanePllUnlock s j)
def execMcrst (s : State) : Out := .next (mcReset s 1)
def execTickCoreRun (k : Fin 5) (run : Bool) (s : State) : Out := .next (tickCoreRun s k run)
def execWatchdogKick (v : W16) (s : State) : Out := .next (watchdogKick s v.toNat)
def execWatchdogExpiry (s : State) : Out := .next (watchdogExpiry s)
def execSleepRequest (m : Fin 4) (s : State) : Out := .next (sleepRequest s m)
def execSleepEntry (s : State) : Out := .next (sleepEntry s)
def execWake (t : BitVec 32) (s : State) : Out := .next (wakeUp s t.toNat)
def execWakeFallingEdge (s : State) : Out := .next (wakeFalling s)

end Sys2Proof.Machine
end

