-- ==== Sys2Proof/Machine/RegMap.lean ====
section
/-! DEFINITION. The register map: every register of the register tables with its address, its array steps, its words,
its holding and latching order (R6) and the place, access code and sign of each of its fields (R7). -/
namespace Sys2Proof.Machine

/-- The access codes of R7 (00_scope.md). -/
inductive Acc where
  | ro | rw | rwl | w1c | w1s | wo | rc
  deriving DecidableEq, Repr

/-- One field of a register: its name, its highest and lowest bit, its access code, where it is signed the width
of the signed number (0: unsigned), and whether its reset column reads "image" (R403). -/
structure FieldRow where
  fld : Fld
  hi : Nat
  lo : Nat
  acc : Acc
  sgn : Nat
  img : Bool
  deriving DecidableEq, Repr

/-- One register (or array of registers): the word address of the first, the steps and counts of its two indices, its
number of words, whether writes hold and reads latch (R6), the section of the structure
image that holds it (R402; 0 for a weir, whose section its index gives), and its fields. -/
structure RegRow where
  base : Nat
  iStep : Nat
  iCount : Nat
  jStep : Nat
  jCount : Nat
  words : Nat
  hold : Bool
  latch : Bool
  sec : Nat
  fields : List FieldRow
  deriving DecidableEq, Repr

/-- Registers DM_TICKLO to DM_RAILLIM (01 R37). -/
def regsDM0 : List RegRow := [
  ⟨0x414000, 0, 1, 0, 1, 2, false, true, 1,
    [⟨.DM_TICKLO, 31, 0, .ro, 0, false⟩]⟩,
  ⟨0x414002, 0, 1, 0, 1, 2, false, false, 1,
    [⟨.DM_TICKHI, 31, 0, .ro, 0, false⟩]⟩,
  ⟨0x414004, 0, 1, 0, 1, 2, false, true, 1,
    [⟨.DM_MTICK, 31, 0, .ro, 0, false⟩]⟩,
  ⟨0x414006, 0, 1, 0, 1, 2, false, false, 1,
    [⟨.DM_DEV_PALLOT, 15, 0, .rw, 0, true⟩, ⟨.DM_DEV_PNOW, 31, 16, .ro, 0, false⟩]⟩,
  ⟨0x414008, 0, 1, 0, 1, 1, false, false, 1,
    [⟨.DM_STATUS_DOMX, 7, 0, .w1c, 0, false⟩, ⟨.DM_STATUS_DEVX, 8, 8, .w1c, 0, false⟩, ⟨.DM_STATUS_CEILERR, 9, 9, .w1c, 0, false⟩, ⟨.DM_STATUS_REQERR, 10, 10, .w1c, 0, false⟩]⟩,
  ⟨0x414010, 2, 8, 0, 1, 2, false, false, 2,
    [⟨.DM_DOM_IALLOT, 15, 0, .rw, 0, true⟩, ⟨.DM_DOM_INOW, 31, 16, .ro, 0, false⟩]⟩,
  ⟨0x414020, 1, 8, 0, 1, 1, false, false, 2,
    [⟨.DM_DOMCFG_LANE, 2, 0, .ro, 0, true⟩, ⟨.DM_DOMCFG_LANEV, 3, 3, .ro, 0, true⟩, ⟨.DM_DOMCFG_USED, 4, 4, .ro, 0, true⟩, ⟨.DM_DOMCFG_XPERS, 15, 8, .ro, 0, true⟩]⟩,
  ⟨0x414100, 16, 16, 0, 1, 1, false, false, 3,
    [⟨.DM_RAILCFG_DOMAIN, 2, 0, .ro, 0, true⟩, ⟨.DM_RAILCFG_IQSEL, 4, 3, .ro, 0, true⟩, ⟨.DM_RAILCFG_ENSRC, 6, 5, .ro, 0, true⟩, ⟨.DM_RAILCFG_FSCOPE, 8, 7, .ro, 0, true⟩, ⟨.DM_RAILCFG_OFFDRV, 9, 9, .ro, 0, true⟩, ⟨.DM_RAILCFG_NPHM1, 15, 10, .ro, 0, true⟩]⟩,
  ⟨0x414101, 16, 16, 0, 1, 1, false, false, 3,
    [⟨.DM_RAILCTL_HOSTEN, 0, 0, .rw, 0, true⟩, ⟨.DM_RAILCTL_FCLR, 1, 1, .wo, 0, false⟩, ⟨.DM_RAILCTL_RSREQ, 2, 2, .wo, 0, false⟩]⟩,
  ⟨0x414102, 16, 16, 0, 1, 1, false, false, 3,
    [⟨.DM_RAILSTAT_STATE, 2, 0, .ro, 0, true⟩, ⟨.DM_RAILSTAT_PGOOD, 3, 3, .ro, 0, false⟩, ⟨.DM_RAILSTAT_ENF, 4, 4, .ro, 0, false⟩, ⟨.DM_RAILSTAT_ENSTUCK, 5, 5, .w1c, 0, false⟩, ⟨.DM_RAILSTAT_PREDOK, 6, 6, .ro, 0, false⟩, ⟨.DM_RAILSTAT_LIMSAT, 7, 7, .w1c, 0, false⟩, ⟨.DM_RAILSTAT_STARTTMO, 8, 8, .w1c, 0, false⟩, ⟨.DM_RAILSTAT_CAUSE, 11, 9, .ro, 0, false⟩]⟩,
  ⟨0x414103, 16, 16, 0, 1, 1, false, false, 3,
    [⟨.DM_RAILPHL_PHIMAX, 11, 0, .ro, 0, true⟩]⟩,
  ⟨0x414104, 16, 16, 0, 1, 2, true, false, 3,
    [⟨.DM_RAILLIM_ILIM, 17, 0, .rw, 0, true⟩]⟩]

/-- Registers DM_RAILCUR to DM_RAILTMO (01 R37). -/
def regsDM1 : List RegRow := [
  ⟨0x414106, 16, 16, 0, 1, 2, false, true, 3,
    [⟨.DM_RAILCUR_ICUR, 31, 0, .ro, 32, false⟩]⟩,
  ⟨0x414108, 16, 16, 0, 1, 1, false, false, 3,
    [⟨.DM_RAILPG_PGLO, 7, 0, .rw, 0, true⟩, ⟨.DM_RAILPG_PGHI, 15, 8, .rw, 0, true⟩]⟩,
  ⟨0x41410A, 16, 16, 0, 1, 2, false, false, 3,
    [⟨.DM_RAILSEQ_PRED0, 3, 0, .ro, 0, true⟩, ⟨.DM_RAILSEQ_PV0, 4, 4, .ro, 0, true⟩, ⟨.DM_RAILSEQ_PRED1, 8, 5, .ro, 0, true⟩, ⟨.DM_RAILSEQ_PV1, 9, 9, .ro, 0, true⟩, ⟨.DM_RAILSEQ_PRED2, 13, 10, .ro, 0, true⟩, ⟨.DM_RAILSEQ_PV2, 14, 14, .ro, 0, true⟩, ⟨.DM_RAILSEQ_PRED3, 18, 15, .ro, 0, true⟩, ⟨.DM_RAILSEQ_PV3, 19, 19, .ro, 0, true⟩]⟩,
  ⟨0x41410C, 16, 16, 0, 1, 2, false, false, 3,
    [⟨.DM_RAILDLY_SDLY, 13, 0, .ro, 0, true⟩, ⟨.DM_RAILDLY_PDLY, 29, 16, .ro, 0, true⟩]⟩,
  ⟨0x41410E, 16, 16, 0, 1, 1, false, false, 3,
    [⟨.DM_RAILTMO_STMO, 7, 0, .ro, 0, true⟩, ⟨.DM_RAILTMO_ENFILT, 15, 8, .ro, 0, true⟩]⟩]

/-- Registers FL_CTRL to FL_CLTEMP (02 R65). -/
def regsFL0 : List RegRow := [
  ⟨0x400000, 0, 1, 0, 1, 1, false, false, 1,
    [⟨.FL_CTRL_OSEN, 0, 0, .rw, 0, true⟩, ⟨.FL_CTRL_ROTEN, 1, 1, .rw, 0, true⟩, ⟨.FL_CTRL_OSCNT, 7, 4, .rw, 0, true⟩, ⟨.FL_CTRL_VPER, 15, 8, .rw, 0, true⟩]⟩,
  ⟨0x400001, 0, 1, 0, 1, 1, false, false, 1,
    [⟨.FL_STATUS_RDY, 0, 0, .ro, 0, false⟩, ⟨.FL_STATUS_ROTBUSY, 1, 1, .ro, 0, false⟩, ⟨.FL_STATUS_CFGERR, 2, 2, .w1c, 0, false⟩]⟩,
  ⟨0x400002, 0, 1, 0, 1, 1, false, false, 1,
    [⟨.FL_RIPCFG_RIPMIN, 7, 0, .rw, 0, true⟩, ⟨.FL_RIPCFG_RIPWIN, 10, 8, .rw, 0, true⟩]⟩,
  ⟨0x400003, 0, 1, 0, 1, 1, false, false, 1,
    [⟨.FL_STKCFG_STKT, 11, 0, .rw, 0, true⟩]⟩,
  ⟨0x400004, 0, 1, 0, 1, 1, false, false, 1,
    [⟨.FL_ROTCTL_TGT, 4, 0, .rw, 0, false⟩, ⟨.FL_ROTCTL_STEP, 5, 5, .wo, 0, false⟩, ⟨.FL_ROTCTL_ROTPER, 15, 8, .rw, 0, true⟩]⟩,
  ⟨0x400005, 0, 1, 0, 1, 1, false, false, 1,
    [⟨.FL_SUBCTL_IDX, 6, 0, .rw, 0, false⟩, ⟨.FL_SUBCTL_KIND, 7, 7, .rw, 0, false⟩, ⟨.FL_SUBCTL_GO, 15, 15, .wo, 0, false⟩]⟩,
  ⟨0x400006, 0, 1, 0, 1, 2, false, false, 1,
    [⟨.FL_VFAIL, 17, 0, .ro, 0, false⟩]⟩,
  ⟨0x400008, 1, 2, 0, 1, 1, false, false, 1,
    [⟨.FL_VGSTAT_SPARE, 4, 0, .ro, 0, false⟩, ⟨.FL_VGSTAT_POS, 7, 5, .ro, 0, false⟩, ⟨.FL_VGSTAT_RSTATE, 9, 8, .ro, 0, false⟩, ⟨.FL_VGSTAT_NOSPARE, 10, 10, .ro, 0, false⟩, ⟨.FL_VGSTAT_ABORT, 11, 11, .w1c, 0, false⟩, ⟨.FL_VGSTAT_ABORTS, 15, 12, .ro, 0, false⟩]⟩,
  ⟨0x400100, 8, 16, 0, 1, 2, false, false, 5,
    [⟨.FL_CLMAP, 31, 0, .ro, 0, false⟩]⟩,
  ⟨0x400102, 8, 16, 0, 1, 1, false, false, 5,
    [⟨.FL_CLSTAT_SPARE, 3, 0, .ro, 0, false⟩, ⟨.FL_CLSTAT_POS, 6, 4, .ro, 0, false⟩, ⟨.FL_CLSTAT_RSTATE, 8, 7, .ro, 0, false⟩, ⟨.FL_CLSTAT_NOSPARE, 9, 9, .ro, 0, false⟩, ⟨.FL_CLSTAT_ABORT, 10, 10, .w1c, 0, false⟩, ⟨.FL_CLSTAT_ABORTS, 14, 11, .ro, 0, false⟩]⟩,
  ⟨0x400103, 8, 16, 0, 1, 1, false, false, 5,
    [⟨.FL_CLFAIL, 8, 0, .ro, 0, false⟩]⟩,
  ⟨0x400104, 8, 16, 0, 1, 1, false, false, 5,
    [⟨.FL_CLTEMP, 15, 0, .ro, 16, false⟩]⟩]

/-- Registers FL_TMGAIN to FL_VMEAN (02 R65). -/
def regsFL1 : List RegRow := [
  ⟨0x400105, 8, 16, 0, 1, 1, false, false, 5,
    [⟨.FL_TMGAIN, 15, 0, .rw, 0, true⟩]⟩,
  ⟨0x400106, 8, 16, 0, 1, 1, false, false, 5,
    [⟨.FL_TMOFS, 11, 0, .rw, 12, true⟩]⟩,
  ⟨0x400107, 8, 16, 0, 1, 1, false, false, 5,
    [⟨.FL_TMFLAG_RANGE, 0, 0, .w1c, 0, false⟩, ⟨.FL_TMFLAG_STUCK, 1, 1, .w1c, 0, false⟩, ⟨.FL_TMFLAG_TRIMSAT, 2, 2, .w1c, 0, false⟩]⟩,
  ⟨0x400400, 8, 128, 0, 1, 1, false, false, 4,
    [⟨.FL_PHGAIN, 15, 0, .rw, 0, true⟩]⟩,
  ⟨0x400401, 8, 128, 0, 1, 1, false, false, 4,
    [⟨.FL_PHOFS, 11, 0, .rw, 12, true⟩]⟩,
  ⟨0x400402, 8, 128, 0, 1, 1, false, false, 4,
    [⟨.FL_PHFLAG_CLIP, 0, 0, .w1c, 0, false⟩, ⟨.FL_PHFLAG_STUCK, 1, 1, .w1c, 0, false⟩, ⟨.FL_PHFLAG_OPEN, 2, 2, .w1c, 0, false⟩, ⟨.FL_PHFLAG_TRIMSAT, 3, 3, .w1c, 0, false⟩, ⟨.FL_PHFLAG_HOLD, 4, 4, .ro, 0, false⟩, ⟨.FL_PHFLAG_SLFAIL, 5, 5, .ro, 0, false⟩]⟩,
  ⟨0x400403, 8, 128, 0, 1, 1, false, false, 4,
    [⟨.FL_PHMEAN, 15, 0, .ro, 16, false⟩]⟩,
  ⟨0x400404, 8, 128, 0, 1, 1, false, false, 4,
    [⟨.FL_PHLAST, 15, 0, .ro, 16, false⟩]⟩,
  ⟨0x400405, 8, 128, 0, 1, 1, false, false, 4,
    [⟨.FL_PHMIN, 15, 0, .ro, 16, false⟩]⟩,
  ⟨0x400406, 8, 128, 0, 1, 1, false, false, 4,
    [⟨.FL_PHMAX, 15, 0, .ro, 16, false⟩]⟩,
  ⟨0x400407, 8, 128, 0, 1, 1, false, false, 4,
    [⟨.FL_PHRIP, 11, 0, .ro, 0, false⟩]⟩,
  ⟨0x400800, 8, 16, 0, 1, 1, false, false, 3,
    [⟨.FL_VMEAN, 15, 0, .ro, 16, false⟩]⟩]

/-- Registers FL_VLAST to FL_AUXRHI (02 R65). -/
def regsFL2 : List RegRow := [
  ⟨0x400801, 8, 16, 0, 1, 1, false, false, 3,
    [⟨.FL_VLAST, 15, 0, .ro, 16, false⟩]⟩,
  ⟨0x400802, 8, 16, 0, 1, 1, false, false, 3,
    [⟨.FL_VMIN, 15, 0, .ro, 16, false⟩]⟩,
  ⟨0x400803, 8, 16, 0, 1, 1, false, false, 3,
    [⟨.FL_VMAX, 15, 0, .ro, 16, false⟩]⟩,
  ⟨0x400804, 8, 16, 0, 1, 1, false, false, 3,
    [⟨.FL_VWREF, 13, 0, .ro, 0, false⟩]⟩,
  ⟨0x400805, 8, 16, 0, 1, 1, false, false, 3,
    [⟨.FL_VFLAG_CLIP, 0, 0, .w1c, 0, false⟩, ⟨.FL_VFLAG_STUCK, 1, 1, .w1c, 0, false⟩, ⟨.FL_VFLAG_OPEN, 2, 2, .w1c, 0, false⟩, ⟨.FL_VFLAG_HOLD, 3, 3, .ro, 0, false⟩, ⟨.FL_VFLAG_CVFAIL, 4, 4, .ro, 0, false⟩]⟩,
  ⟨0x400806, 8, 16, 0, 1, 1, false, false, 3,
    [⟨.FL_VCONV, 4, 0, .ro, 0, false⟩]⟩,
  ⟨0x400A00, 8, 8, 0, 1, 1, false, false, 6,
    [⟨.FL_AUXCFG_KIND, 1, 0, .ro, 0, true⟩, ⟨.FL_AUXCFG_AVG, 5, 2, .rw, 0, true⟩]⟩,
  ⟨0x400A01, 8, 8, 0, 1, 1, false, false, 6,
    [⟨.FL_AUXGAIN, 15, 0, .rw, 0, true⟩]⟩,
  ⟨0x400A02, 8, 8, 0, 1, 1, false, false, 6,
    [⟨.FL_AUXOFS, 11, 0, .rw, 12, true⟩]⟩,
  ⟨0x400A03, 8, 8, 0, 1, 1, false, false, 6,
    [⟨.FL_AUXRES, 15, 0, .ro, 0, false⟩]⟩,
  ⟨0x400A04, 8, 8, 0, 1, 1, false, false, 6,
    [⟨.FL_AUXRLO, 15, 0, .rw, 0, true⟩]⟩,
  ⟨0x400A05, 8, 8, 0, 1, 1, false, false, 6,
    [⟨.FL_AUXRHI, 15, 0, .rw, 0, true⟩]⟩]

/-- Registers FL_AUXFLAG to FL_TMRHI (02 R65). -/
def regsFL3 : List RegRow := [
  ⟨0x400A06, 8, 8, 0, 1, 1, false, false, 6,
    [⟨.FL_AUXFLAG_RANGE, 0, 0, .w1c, 0, false⟩, ⟨.FL_AUXFLAG_STUCK, 1, 1, .w1c, 0, false⟩, ⟨.FL_AUXFLAG_TRIMSAT, 2, 2, .w1c, 0, false⟩]⟩,
  ⟨0x400C00, 2, 16, 0, 1, 1, false, false, 5,
    [⟨.FL_TMRLO, 15, 0, .rw, 16, true⟩]⟩,
  ⟨0x400C01, 2, 16, 0, 1, 1, false, false, 5,
    [⟨.FL_TMRHI, 15, 0, .rw, 16, true⟩]⟩]

/-- Registers LN_CTRL to LN_CMDMIN (03 R89). -/
def regsLN0 : List RegRow := [
  ⟨0x410000, 1024, 16, 0, 1, 1, false, false, 3,
    [⟨.LN_CTRL_ESRC, 0, 0, .ro, 0, true⟩, ⟨.LN_CTRL_PREBIAS, 1, 1, .ro, 0, true⟩, ⟨.LN_CTRL_FFEN, 2, 2, .rw, 0, true⟩]⟩,
  ⟨0x410001, 1024, 16, 0, 1, 1, false, false, 3,
    [⟨.LN_STATUS_ACTBANK, 0, 0, .ro, 0, false⟩, ⟨.LN_STATUS_COMMITPEND, 1, 1, .ro, 0, false⟩, ⟨.LN_STATUS_RUN, 2, 2, .ro, 0, false⟩, ⟨.LN_STATUS_NACT, 9, 3, .ro, 0, false⟩]⟩,
  ⟨0x410002, 1024, 16, 0, 1, 1, false, false, 3,
    [⟨.LN_FLAG, 12, 0, .w1c, 0, false⟩]⟩,
  ⟨0x410003, 1024, 16, 0, 1, 1, false, false, 3,
    [⟨.LN_BANKCTL_COMMIT, 0, 0, .wo, 0, false⟩, ⟨.LN_BANKCTL_COPY, 1, 1, .wo, 0, false⟩]⟩,
  ⟨0x410004, 1024, 16, 0, 1, 1, false, false, 3,
    [⟨.LN_VSET, 13, 0, .rw, 0, true⟩]⟩,
  ⟨0x410005, 1024, 16, 0, 1, 1, false, false, 3,
    [⟨.LN_STOPLVL, 13, 0, .ro, 0, true⟩]⟩,
  ⟨0x410006, 1024, 16, 0, 1, 1, false, false, 3,
    [⟨.LN_SSLOPE, 15, 0, .rw, 0, true⟩]⟩,
  ⟨0x410007, 1024, 16, 0, 1, 1, false, false, 3,
    [⟨.LN_SLEWUP, 15, 0, .rw, 0, true⟩]⟩,
  ⟨0x410008, 1024, 16, 0, 1, 1, false, false, 3,
    [⟨.LN_SLEWDN, 15, 0, .rw, 0, true⟩]⟩,
  ⟨0x410009, 1024, 16, 0, 1, 1, false, false, 3,
    [⟨.LN_SDSLOPE, 15, 0, .rw, 0, true⟩]⟩,
  ⟨0x41000A, 1024, 16, 0, 1, 2, false, true, 3,
    [⟨.LN_REF, 23, 0, .ro, 0, false⟩]⟩,
  ⟨0x41000C, 1024, 16, 0, 1, 2, true, true, 3,
    [⟨.LN_CMDMIN, 31, 0, .rw, 22, true⟩]⟩]

/-- Registers LN_FFC to LN_KI (03 R89). -/
def regsLN1 : List RegRow := [
  ⟨0x41000E, 1024, 16, 0, 1, 2, false, true, 3,
    [⟨.LN_FFC, 31, 0, .ro, 32, false⟩]⟩,
  ⟨0x410010, 1024, 16, 0, 1, 2, false, true, 3,
    [⟨.LN_CMD, 31, 0, .ro, 32, false⟩]⟩,
  ⟨0x410012, 1024, 16, 0, 1, 2, false, true, 3,
    [⟨.LN_INTEG, 31, 0, .ro, 32, false⟩]⟩,
  ⟨0x410014, 1024, 16, 0, 1, 1, false, false, 3,
    [⟨.LN_ERR, 15, 0, .ro, 16, false⟩]⟩,
  ⟨0x410015, 1024, 16, 0, 1, 1, false, false, 3,
    [⟨.LN_BALCFG_KBAL, 7, 0, .rw, 0, true⟩, ⟨.LN_BALCFG_BALLIM, 15, 8, .rw, 0, true⟩]⟩,
  ⟨0x410016, 1024, 16, 0, 1, 1, false, false, 3,
    [⟨.LN_FLAGEN, 12, 0, .rw, 0, true⟩]⟩,
  ⟨0x410040, 1024, 16, 32, 2, 2, true, true, 3,
    [⟨.LN_B0, 31, 0, .rw, 18, true⟩]⟩,
  ⟨0x410042, 1024, 16, 32, 2, 2, true, true, 3,
    [⟨.LN_B1, 31, 0, .rw, 18, true⟩]⟩,
  ⟨0x410044, 1024, 16, 32, 2, 2, true, true, 3,
    [⟨.LN_B2, 31, 0, .rw, 18, true⟩]⟩,
  ⟨0x410046, 1024, 16, 32, 2, 2, true, true, 3,
    [⟨.LN_A1, 31, 0, .rw, 18, true⟩]⟩,
  ⟨0x410048, 1024, 16, 32, 2, 2, true, true, 3,
    [⟨.LN_A2, 31, 0, .rw, 18, true⟩]⟩,
  ⟨0x41004A, 1024, 16, 32, 2, 2, true, true, 3,
    [⟨.LN_KI, 31, 0, .rw, 18, true⟩]⟩]

/-- Registers LN_GEXP to LN_BUSED (03 R89). -/
def regsLN2 : List RegRow := [
  ⟨0x41004C, 1024, 16, 32, 2, 1, false, false, 3,
    [⟨.LN_GEXP, 3, 0, .rw, 0, true⟩]⟩,
  ⟨0x41004D, 1024, 16, 32, 2, 1, false, false, 3,
    [⟨.LN_AVPK, 15, 0, .rw, 0, true⟩]⟩,
  ⟨0x41004E, 1024, 16, 32, 2, 2, true, true, 3,
    [⟨.LN_IMAX, 31, 0, .rw, 22, true⟩]⟩,
  ⟨0x410050, 1024, 16, 32, 2, 2, true, true, 3,
    [⟨.LN_IMIN, 31, 0, .rw, 22, true⟩]⟩,
  ⟨0x410100, 1024, 16, 1, 64, 1, false, false, 3,
    [⟨.LN_MAP_PHASE, 6, 0, .ro, 0, true⟩, ⟨.LN_MAP_VALID, 7, 7, .ro, 0, true⟩, ⟨.LN_MAP_SPARE, 8, 8, .ro, 0, true⟩, ⟨.LN_MAP_ACT, 9, 9, .ro, 0, false⟩]⟩,
  ⟨0x410140, 1024, 16, 1, 64, 1, false, false, 3,
    [⟨.LN_BALOFS, 15, 0, .rw, 16, true⟩]⟩,
  ⟨0x410180, 1024, 16, 1, 64, 1, false, false, 3,
    [⟨.LN_BAL, 15, 0, .ro, 16, false⟩]⟩,
  ⟨0x4101C0, 1024, 16, 1, 64, 1, false, false, 3,
    [⟨.LN_PCMD, 15, 0, .ro, 16, false⟩]⟩,
  ⟨0x410200, 1024, 16, 0, 1, 1, false, false, 3,
    [⟨.LN_TRCFG_LOACT, 1, 0, .rw, 0, true⟩, ⟨.LN_TRCFG_HIACT, 2, 2, .rw, 0, true⟩, ⟨.LN_TRCFG_ADDALL, 3, 3, .rw, 0, true⟩]⟩,
  ⟨0x410201, 1024, 16, 0, 1, 1, false, false, 3,
    [⟨.LN_BURST_BLEN, 7, 0, .rw, 0, true⟩, ⟨.LN_BURST_BGAP, 15, 8, .rw, 0, true⟩]⟩,
  ⟨0x410202, 1024, 16, 0, 1, 1, false, false, 3,
    [⟨.LN_BBUDGET, 15, 0, .rw, 0, true⟩]⟩,
  ⟨0x410203, 1024, 16, 0, 1, 1, false, false, 3,
    [⟨.LN_BUSED, 15, 0, .ro, 0, false⟩]⟩]

/-- Registers LN_BILIM to LN_ILE (05 R156). -/
def regsLN3 : List RegRow := [
  ⟨0x410204, 1024, 16, 0, 1, 1, false, false, 3,
    [⟨.LN_BILIM, 15, 0, .rw, 16, true⟩]⟩,
  ⟨0x410205, 1024, 16, 0, 1, 1, false, false, 3,
    [⟨.LN_OFFLEN, 7, 0, .rw, 0, true⟩]⟩,
  ⟨0x410206, 1024, 16, 0, 1, 1, false, false, 3,
    [⟨.LN_TRFLAG_BURST, 0, 0, .w1c, 0, false⟩, ⟨.LN_TRFLAG_BUDEX, 1, 1, .w1c, 0, false⟩, ⟨.LN_TRFLAG_GAPREF, 2, 2, .w1c, 0, false⟩, ⟨.LN_TRFLAG_BLENEND, 3, 3, .w1c, 0, false⟩, ⟨.LN_TRFLAG_OFFEND, 4, 4, .w1c, 0, false⟩]⟩,
  ⟨0x410210, 1024, 16, 0, 1, 1, false, false, 3,
    [⟨.LN_FCCFG_PRAMP, 7, 0, .rw, 0, true⟩, ⟨.LN_FCCFG_ADV, 15, 8, .rw, 0, true⟩]⟩,
  ⟨0x410211, 1024, 16, 0, 1, 1, false, false, 3,
    [⟨.LN_MISSWIN_MISSLO, 7, 0, .rw, 0, true⟩, ⟨.LN_MISSWIN_MISSHI, 15, 8, .rw, 0, true⟩]⟩,
  ⟨0x410212, 1024, 16, 0, 1, 1, false, false, 3,
    [⟨.LN_UNWIND, 15, 0, .rw, 0, true⟩]⟩,
  ⟨0x410213, 1024, 16, 0, 1, 1, false, false, 3,
    [⟨.LN_KCAP, 15, 0, .rw, 0, true⟩]⟩,
  ⟨0x410214, 1024, 16, 0, 1, 1, false, false, 3,
    [⟨.LN_MATCH_MATCH, 3, 0, .rw, 0, true⟩, ⟨.LN_MATCH_MSKIP, 11, 4, .rw, 0, true⟩]⟩,
  ⟨0x410215, 1024, 16, 0, 1, 1, false, false, 3,
    [⟨.LN_FCFLAG_FSAT, 0, 0, .w1c, 0, false⟩, ⟨.LN_FCFLAG_MISS, 1, 1, .w1c, 0, false⟩, ⟨.LN_FCFLAG_NOADD, 2, 2, .w1c, 0, false⟩]⟩,
  ⟨0x410216, 1024, 16, 0, 1, 1, false, false, 3,
    [⟨.LN_FCMET, 15, 0, .ro, 0, false⟩]⟩,
  ⟨0x410217, 1024, 16, 0, 1, 1, false, false, 3,
    [⟨.LN_FCMISS, 15, 0, .ro, 0, false⟩]⟩,
  ⟨0x410218, 1024, 16, 0, 1, 2, false, true, 3,
    [⟨.LN_ILE, 31, 0, .ro, 32, false⟩]⟩]

/-- Registers DL_CTRL to DL_TXSEQ (05 R156). -/
def regsDL0 : List RegRow := [
  ⟨0x440000, 256, 8, 0, 1, 1, false, false, 2,
    [⟨.DL_CTRL_EN, 0, 0, .rw, 0, true⟩, ⟨.DL_CTRL_KATMO, 15, 8, .rw, 0, true⟩]⟩,
  ⟨0x440001, 256, 8, 0, 1, 1, false, false, 2,
    [⟨.DL_TEL_TPER, 11, 0, .rw, 0, true⟩]⟩,
  ⟨0x440002, 256, 8, 0, 1, 1, false, false, 2,
    [⟨.DL_STATE_STATE, 2, 0, .ro, 0, false⟩, ⟨.DL_STATE_EPOCH, 6, 3, .ro, 0, false⟩, ⟨.DL_STATE_RXSEQ, 15, 8, .ro, 0, false⟩]⟩,
  ⟨0x440003, 256, 8, 0, 1, 1, false, false, 2,
    [⟨.DL_FLAG_LOSS, 0, 0, .w1c, 0, false⟩, ⟨.DL_FLAG_CRCRUN, 1, 1, .w1c, 0, false⟩, ⟨.DL_FLAG_KATO, 2, 2, .w1c, 0, false⟩, ⟨.DL_FLAG_STALE, 3, 3, .w1c, 0, false⟩, ⟨.DL_FLAG_DUP, 4, 4, .w1c, 0, false⟩, ⟨.DL_FLAG_GAP, 5, 5, .w1c, 0, false⟩, ⟨.DL_FLAG_BADMSG, 6, 6, .w1c, 0, false⟩, ⟨.DL_FLAG_TXOVF, 7, 7, .w1c, 0, false⟩, ⟨.DL_FLAG_NEWEPOCH, 8, 8, .w1c, 0, false⟩, ⟨.DL_FLAG_CFGERR, 9, 9, .w1c, 0, false⟩]⟩,
  ⟨0x440004, 256, 8, 0, 1, 1, false, false, 2,
    [⟨.DL_CRCERR, 15, 0, .ro, 0, false⟩]⟩,
  ⟨0x440005, 256, 8, 0, 1, 1, false, false, 2,
    [⟨.DL_STALECNT, 15, 0, .ro, 0, false⟩]⟩,
  ⟨0x440006, 256, 8, 0, 1, 1, false, false, 2,
    [⟨.DL_DUPCNT, 15, 0, .ro, 0, false⟩]⟩,
  ⟨0x440007, 256, 8, 0, 1, 1, false, false, 2,
    [⟨.DL_LOSTCNT, 15, 0, .ro, 0, false⟩]⟩,
  ⟨0x440008, 256, 8, 1, 5, 1, false, false, 2,
    [⟨.DL_ACT, 15, 0, .ro, 0, false⟩]⟩,
  ⟨0x44000E, 256, 8, 0, 1, 1, false, false, 2,
    [⟨.DL_TXSEQ, 7, 0, .ro, 0, false⟩]⟩]

/-- Registers DD_CFG to DD_SILE0 (05 R156). -/
def regsDD0 : List RegRow := [
  ⟨0x440800, 256, 8, 0, 1, 1, false, false, 2,
    [⟨.DD_CFG_GAUTO, 0, 0, .rw, 0, true⟩, ⟨.DD_CFG_SETEN, 1, 1, .rw, 0, true⟩, ⟨.DD_CFG_GTMO, 15, 8, .rw, 0, true⟩]⟩,
  ⟨0x440801, 256, 8, 0, 1, 1, false, false, 2,
    [⟨.DD_GREQ_SLOT, 2, 0, .ro, 0, false⟩, ⟨.DD_GREQ_PEND, 3, 3, .ro, 0, false⟩, ⟨.DD_GREQ_RAIL, 7, 4, .ro, 0, false⟩, ⟨.DD_GREQ_CFGERR, 8, 8, .w1c, 0, false⟩]⟩,
  ⟨0x440802, 256, 8, 0, 1, 2, false, true, 2,
    [⟨.DD_GREQDI, 31, 0, .ro, 32, false⟩]⟩,
  ⟨0x440804, 256, 8, 0, 1, 2, false, true, 2,
    [⟨.DD_GREQMAX, 31, 0, .ro, 32, false⟩]⟩,
  ⟨0x440806, 256, 8, 0, 1, 2, true, false, 2,
    [⟨.DD_GRANT_AMT, 21, 0, .rw, 0, false⟩, ⟨.DD_GRANT_GO, 31, 31, .wo, 0, false⟩]⟩,
  ⟨0x440810, 256, 8, 16, 8, 1, false, false, 2,
    [⟨.DD_SSTAT_STATE, 2, 0, .ro, 0, false⟩, ⟨.DD_SSTAT_RAIL, 6, 3, .ro, 0, false⟩, ⟨.DD_SSTAT_SEQ, 15, 8, .ro, 0, false⟩]⟩,
  ⟨0x440812, 256, 8, 16, 8, 2, false, true, 2,
    [⟨.DD_SDI, 31, 0, .ro, 32, false⟩]⟩,
  ⟨0x440814, 256, 8, 16, 8, 2, false, true, 2,
    [⟨.DD_SS, 31, 0, .ro, 0, false⟩]⟩,
  ⟨0x440816, 256, 8, 16, 8, 2, false, true, 2,
    [⟨.DD_SE, 31, 0, .ro, 0, false⟩]⟩,
  ⟨0x440818, 256, 8, 16, 8, 2, false, true, 2,
    [⟨.DD_SDL, 31, 0, .ro, 0, false⟩]⟩,
  ⟨0x44081A, 256, 8, 16, 8, 2, false, true, 2,
    [⟨.DD_SCON, 31, 0, .ro, 32, false⟩]⟩,
  ⟨0x44081C, 256, 8, 16, 8, 2, false, true, 2,
    [⟨.DD_SILE0, 31, 0, .ro, 32, false⟩]⟩]

/-- Registers SL_PSTAT to SL_RPER (04 R117). -/
def regsSL0 : List RegRow := [
  ⟨0x420000, 64, 128, 0, 1, 1, false, false, 4,
    [⟨.SL_PSTAT_LEVEL, 1, 0, .ro, 0, false⟩, ⟨.SL_PSTAT_ACT, 2, 2, .ro, 0, true⟩, ⟨.SL_PSTAT_POS, 8, 3, .ro, 0, false⟩, ⟨.SL_PSTAT_EGSP, 9, 9, .ro, 0, false⟩, ⟨.SL_PSTAT_PADFLT, 10, 10, .ro, 0, false⟩, ⟨.SL_PSTAT_EGFAIL, 11, 11, .ro, 0, false⟩]⟩,
  ⟨0x420001, 64, 128, 0, 1, 1, false, false, 4,
    [⟨.SL_PFLAG_TONMINHIT, 0, 0, .w1c, 0, false⟩, ⟨.SL_PFLAG_TOFFMINHIT, 1, 1, .w1c, 0, false⟩, ⟨.SL_PFLAG_DMAXHIT, 2, 2, .w1c, 0, false⟩, ⟨.SL_PFLAG_PSKIP, 3, 3, .w1c, 0, false⟩, ⟨.SL_PFLAG_PIDEFER, 4, 4, .w1c, 0, false⟩, ⟨.SL_PFLAG_PIDROP, 5, 5, .w1c, 0, false⟩, ⟨.SL_PFLAG_RBMIS, 6, 6, .w1c, 0, false⟩]⟩,
  ⟨0x420002, 64, 128, 0, 1, 1, false, false, 4,
    [⟨.SL_PZCD, 15, 0, .rw, 16, true⟩]⟩,
  ⟨0x420003, 64, 128, 0, 1, 1, false, false, 4,
    [⟨.SL_PPIW, 15, 0, .rw, 0, true⟩]⟩,
  ⟨0x420004, 64, 128, 0, 1, 1, false, false, 4,
    [⟨.SL_PINS_INS, 0, 0, .wo, 0, false⟩]⟩,
  ⟨0x420006, 64, 128, 0, 1, 2, false, true, 4,
    [⟨.SL_POFS, 31, 0, .ro, 0, false⟩]⟩,
  ⟨0x420008, 64, 128, 0, 1, 2, false, true, 4,
    [⟨.SL_PTON, 31, 0, .ro, 0, false⟩]⟩,
  ⟨0x42000A, 64, 128, 0, 1, 2, false, true, 4,
    [⟨.SL_PCYC, 31, 0, .ro, 0, false⟩]⟩,
  ⟨0x42000C, 64, 128, 0, 1, 1, false, false, 4,
    [⟨.SL_PTEST_FORCE, 1, 0, .rw, 0, false⟩]⟩,
  ⟨0x422000, 64, 16, 0, 1, 1, false, false, 3,
    [⟨.SL_RMODE_MODE, 1, 0, .ro, 0, true⟩, ⟨.SL_RMODE_DCMEN, 2, 2, .rw, 0, true⟩, ⟨.SL_RMODE_SYNCEN, 3, 3, .rw, 0, true⟩, ⟨.SL_RMODE_DROPDRV, 4, 4, .rw, 0, true⟩, ⟨.SL_RMODE_CPRED, 10, 5, .rw, 0, true⟩]⟩,
  ⟨0x422001, 64, 16, 0, 1, 1, false, false, 3,
    [⟨.SL_RSLOPE_SLOPEC, 7, 0, .rw, 0, true⟩, ⟨.SL_RSLOPE_PSLEW, 15, 8, .rw, 0, true⟩]⟩,
  ⟨0x422002, 64, 16, 0, 1, 2, true, false, 3,
    [⟨.SL_RPER, 17, 0, .rw, 0, true⟩]⟩]

/-- Registers SL_RTONMIN to SL_RADD (04 R117). -/
def regsSL1 : List RegRow := [
  ⟨0x422004, 64, 16, 0, 1, 1, false, false, 3,
    [⟨.SL_RTONMIN, 11, 0, .rw, 0, true⟩]⟩,
  ⟨0x422005, 64, 16, 0, 1, 1, false, false, 3,
    [⟨.SL_RTOFFMIN, 11, 0, .rw, 0, true⟩]⟩,
  ⟨0x422006, 64, 16, 0, 1, 1, false, false, 3,
    [⟨.SL_RDMAXT, 11, 0, .rw, 0, true⟩]⟩,
  ⟨0x422007, 64, 16, 0, 1, 1, false, false, 3,
    [⟨.SL_RDUTYK, 15, 0, .rw, 0, true⟩]⟩,
  ⟨0x422008, 64, 16, 0, 1, 2, true, false, 3,
    [⟨.SL_RVLEAD, 17, 0, .rw, 0, true⟩]⟩,
  ⟨0x42200A, 64, 16, 0, 1, 1, false, false, 3,
    [⟨.SL_RTONADJ, 15, 0, .rw, 16, true⟩]⟩,
  ⟨0x42200B, 64, 16, 0, 1, 1, false, false, 3,
    [⟨.SL_RSYNC_SYNCM, 3, 0, .rw, 0, true⟩, ⟨.SL_RSYNC_SYNCD, 7, 4, .rw, 0, true⟩, ⟨.SL_RSYNC_DRPT, 15, 8, .rw, 0, true⟩]⟩,
  ⟨0x42200C, 64, 16, 0, 1, 2, true, false, 3,
    [⟨.SL_RSYNCOFS, 17, 0, .rw, 0, true⟩]⟩,
  ⟨0x422010, 64, 16, 0, 1, 2, false, true, 3,
    [⟨.SL_RTON, 17, 0, .ro, 0, false⟩]⟩,
  ⟨0x422012, 64, 16, 0, 1, 2, false, true, 3,
    [⟨.SL_RTB, 17, 0, .ro, 0, false⟩]⟩,
  ⟨0x422014, 64, 16, 0, 1, 4, false, false, 3,
    [⟨.SL_RACT, 63, 0, .ro, 0, true⟩]⟩,
  ⟨0x422018, 64, 16, 0, 1, 4, false, false, 3,
    [⟨.SL_RADD, 63, 0, .wo, 0, false⟩]⟩]

/-- Registers SL_RDROP to SL_SYNCPER (04 R117). -/
def regsSL2 : List RegRow := [
  ⟨0x42201C, 64, 16, 0, 1, 4, false, false, 3,
    [⟨.SL_RDROP, 63, 0, .wo, 0, false⟩]⟩,
  ⟨0x422020, 64, 16, 0, 1, 1, false, false, 3,
    [⟨.SL_RINS_ALL, 0, 0, .wo, 0, false⟩]⟩,
  ⟨0x422021, 64, 16, 0, 1, 1, false, false, 3,
    [⟨.SL_RSTAT_NACT, 6, 0, .ro, 0, true⟩, ⟨.SL_RSTAT_LOCK, 7, 7, .ro, 0, false⟩, ⟨.SL_RSTAT_NMIN, 14, 8, .ro, 0, false⟩]⟩,
  ⟨0x422022, 64, 16, 0, 1, 1, false, false, 3,
    [⟨.SL_RFLAG_NMINREF, 0, 0, .w1c, 0, false⟩, ⟨.SL_RFLAG_ADDREF, 1, 1, .w1c, 0, false⟩, ⟨.SL_RFLAG_SYNCLOSS, 2, 2, .w1c, 0, false⟩, ⟨.SL_RFLAG_SYNCRANGE, 3, 3, .w1c, 0, false⟩, ⟨.SL_RFLAG_VINLOW, 4, 4, .w1c, 0, false⟩]⟩,
  ⟨0x422400, 16, 16, 0, 1, 1, false, false, 5,
    [⟨.SL_CEG_SPFOR, 2, 0, .ro, 0, false⟩, ⟨.SL_CEG_SPUSE, 3, 3, .ro, 0, false⟩, ⟨.SL_CEG_FAIL, 12, 4, .ro, 0, false⟩]⟩,
  ⟨0x422401, 16, 16, 0, 1, 1, false, false, 5,
    [⟨.SL_CSUB_K, 2, 0, .rw, 0, false⟩, ⟨.SL_CSUB_GO, 15, 15, .wo, 0, false⟩]⟩,
  ⟨0x422800, 0, 1, 0, 1, 1, false, false, 1,
    [⟨.SL_STATUS_CFGERR, 0, 0, .w1c, 0, false⟩, ⟨.SL_STATUS_RDY, 1, 1, .ro, 0, false⟩, ⟨.SL_STATUS_SYNCACT, 2, 2, .ro, 0, false⟩]⟩,
  ⟨0x422802, 0, 1, 0, 1, 2, false, true, 1,
    [⟨.SL_SYNCPER, 23, 0, .ro, 0, false⟩]⟩]

/-- Registers WR_CFG to WR_FLAG (06 R180). -/
def regsWR0 : List RegRow := [
  ⟨0x430000, 8, 184, 0, 1, 1, false, false, 0,
    [⟨.WR_CFG_EN, 0, 0, .rw, 0, true⟩, ⟨.WR_CFG_MODE, 3, 1, .rw, 0, true⟩, ⟨.WR_CFG_SMODE, 6, 4, .rw, 0, true⟩, ⟨.WR_CFG_INIT, 8, 7, .rw, 0, true⟩, ⟨.WR_CFG_HYS, 12, 9, .rw, 0, true⟩, ⟨.WR_CFG_ABS, 13, 13, .ro, 0, true⟩]⟩,
  ⟨0x430001, 8, 184, 0, 1, 1, false, false, 0,
    [⟨.WR_LO, 9, 0, .rw, 0, true⟩]⟩,
  ⟨0x430002, 8, 184, 0, 1, 1, false, false, 0,
    [⟨.WR_HI, 9, 0, .rw, 0, true⟩]⟩,
  ⟨0x430003, 8, 184, 0, 1, 1, false, false, 0,
    [⟨.WR_ROUTE_CHA, 5, 0, .ro, 0, true⟩, ⟨.WR_ROUTE_ENA, 6, 6, .ro, 0, true⟩, ⟨.WR_ROUTE_RETA, 7, 7, .ro, 0, true⟩, ⟨.WR_ROUTE_CHB, 13, 8, .ro, 0, true⟩, ⟨.WR_ROUTE_ENB, 14, 14, .ro, 0, true⟩, ⟨.WR_ROUTE_RETB, 15, 15, .ro, 0, true⟩]⟩,
  ⟨0x430004, 8, 184, 0, 1, 1, false, false, 0,
    [⟨.WR_CTRL_IRQEN, 0, 0, .rw, 0, true⟩, ⟨.WR_CTRL_WAKE, 1, 1, .rw, 0, true⟩, ⟨.WR_CTRL_SEL, 8, 4, .ro, 0, true⟩, ⟨.WR_CTRL_AACT, 10, 9, .ro, 0, true⟩]⟩,
  ⟨0x430005, 8, 184, 0, 1, 1, false, false, 0,
    [⟨.WR_AMASK, 15, 0, .ro, 0, true⟩]⟩,
  ⟨0x430006, 8, 184, 0, 1, 1, false, false, 0,
    [⟨.WR_STAT_OUT, 1, 0, .ro, 0, false⟩, ⟨.WR_STAT_EFFMODE, 4, 2, .ro, 0, false⟩, ⟨.WR_STAT_SETTLE, 5, 5, .ro, 0, false⟩, ⟨.WR_STAT_FAIL, 6, 6, .ro, 0, false⟩, ⟨.WR_STAT_SUBST, 7, 7, .ro, 0, false⟩, ⟨.WR_STAT_SPIDX, 10, 8, .ro, 0, false⟩]⟩,
  ⟨0x430007, 8, 184, 0, 1, 1, false, false, 0,
    [⟨.WR_FLAG_ABOVE, 0, 0, .w1c, 0, false⟩, ⟨.WR_FLAG_BELOW, 1, 1, .w1c, 0, false⟩, ⟨.WR_FLAG_TERM, 2, 2, .w1c, 0, false⟩, ⟨.WR_FLAG_NEGOC, 3, 3, .w1c, 0, false⟩, ⟨.WR_FLAG_OCRET, 4, 4, .w1c, 0, false⟩]⟩]

/-- Registers WP_RCFG to WP_CTWARN (06 R180). -/
def regsWP0 : List RegRow := [
  ⟨0x430800, 16, 16, 0, 1, 1, false, false, 3,
    [⟨.WP_RCFG_OVPOL, 1, 0, .rw, 0, true⟩, ⟨.WP_RCFG_UVPOL, 3, 2, .rw, 0, true⟩, ⟨.WP_RCFG_ROCPOL, 5, 4, .rw, 0, true⟩, ⟨.WP_RCFG_OPENPOL, 7, 6, .rw, 0, true⟩, ⟨.WP_RCFG_STKPOL, 9, 8, .rw, 0, true⟩, ⟨.WP_RCFG_LSATPOL, 11, 10, .rw, 0, true⟩, ⟨.WP_RCFG_OVDRV, 12, 12, .rw, 0, true⟩]⟩,
  ⟨0x430801, 16, 16, 0, 1, 1, false, false, 3,
    [⟨.WP_RCFG2_PHOCPOL, 1, 0, .rw, 0, true⟩, ⟨.WP_RCFG2_PHSNSPOL, 3, 2, .rw, 0, true⟩]⟩,
  ⟨0x430802, 16, 16, 0, 1, 1, false, false, 3,
    [⟨.WP_RPERS_OVPERS, 7, 0, .rw, 0, true⟩, ⟨.WP_RPERS_UVPERS, 15, 8, .rw, 0, true⟩]⟩,
  ⟨0x430803, 16, 16, 0, 1, 1, false, false, 3,
    [⟨.WP_RPERS2_ROCPERS, 7, 0, .rw, 0, true⟩, ⟨.WP_RPERS2_OCCNT, 15, 8, .rw, 0, true⟩]⟩,
  ⟨0x430804, 16, 16, 0, 1, 2, true, false, 3,
    [⟨.WP_ROCLIM, 17, 0, .rw, 0, true⟩]⟩,
  ⟨0x430806, 16, 16, 0, 1, 1, false, false, 3,
    [⟨.WP_RETRY_RETRY, 2, 0, .rw, 0, true⟩, ⟨.WP_RETRY_RTDLY, 15, 4, .rw, 0, true⟩]⟩,
  ⟨0x430807, 16, 16, 0, 1, 1, false, false, 3,
    [⟨.WP_RSTAT_RLEFT, 2, 0, .ro, 0, true⟩, ⟨.WP_RSTAT_FCAUSE, 6, 3, .ro, 0, false⟩]⟩,
  ⟨0x430808, 16, 16, 0, 1, 1, false, false, 3,
    [⟨.WP_RFLAG_OV, 0, 0, .w1c, 0, false⟩, ⟨.WP_RFLAG_UV, 1, 1, .w1c, 0, false⟩, ⟨.WP_RFLAG_ROC, 2, 2, .w1c, 0, false⟩, ⟨.WP_RFLAG_OVGLITCH, 3, 3, .w1c, 0, false⟩, ⟨.WP_RFLAG_OVOFF, 4, 4, .w1c, 0, false⟩, ⟨.WP_RFLAG_SENSE, 5, 5, .w1c, 0, false⟩, ⟨.WP_RFLAG_LSAT, 6, 6, .w1c, 0, false⟩, ⟨.WP_RFLAG_WLOST, 7, 7, .w1c, 0, false⟩, ⟨.WP_RFLAG_TRLOST, 8, 8, .w1c, 0, false⟩, ⟨.WP_RFLAG_RTEXH, 9, 9, .w1c, 0, false⟩, ⟨.WP_RFLAG_AUX, 10, 10, .w1c, 0, false⟩]⟩,
  ⟨0x430809, 16, 16, 0, 1, 1, false, false, 3,
    [⟨.WP_LSAT, 15, 0, .rw, 0, true⟩]⟩,
  ⟨0x430A00, 8, 16, 0, 1, 1, false, false, 5,
    [⟨.WP_CCFG_TFEN, 0, 0, .rw, 0, true⟩, ⟨.WP_CCFG_TFINV, 1, 1, .ro, 0, true⟩, ⟨.WP_CCFG_TFPOL, 3, 2, .rw, 0, true⟩, ⟨.WP_CCFG_OTPOL, 5, 4, .rw, 0, true⟩, ⟨.WP_CCFG_TFSTK, 6, 6, .rw, 0, true⟩, ⟨.WP_CCFG_TFFILT, 15, 8, .rw, 0, true⟩]⟩,
  ⟨0x430A01, 8, 16, 0, 1, 1, false, false, 5,
    [⟨.WP_CTF, 15, 0, .rw, 0, true⟩]⟩,
  ⟨0x430A02, 8, 16, 0, 1, 1, false, false, 5,
    [⟨.WP_CTWARN, 15, 0, .rw, 16, true⟩]⟩]

/-- Registers WP_CTSHUT to WP_SPFAIL (06 R180). -/
def regsWP1 : List RegRow := [
  ⟨0x430A03, 8, 16, 0, 1, 1, false, false, 5,
    [⟨.WP_CTSHUT, 15, 0, .rw, 16, true⟩]⟩,
  ⟨0x430A04, 8, 16, 0, 1, 1, false, false, 5,
    [⟨.WP_COT, 7, 0, .rw, 0, true⟩]⟩,
  ⟨0x430A05, 8, 16, 0, 1, 1, false, false, 5,
    [⟨.WP_CSTAT_TFRAW, 0, 0, .ro, 0, false⟩, ⟨.WP_CSTAT_TFACT, 1, 1, .ro, 0, false⟩, ⟨.WP_CSTAT_ISOL, 2, 2, .ro, 0, false⟩]⟩,
  ⟨0x430A06, 8, 16, 0, 1, 1, false, false, 5,
    [⟨.WP_CFLAG_TFLT, 0, 0, .w1c, 0, false⟩, ⟨.WP_CFLAG_TFSTUCK, 1, 1, .w1c, 0, false⟩, ⟨.WP_CFLAG_TFCHAT, 2, 2, .w1c, 0, false⟩, ⟨.WP_CFLAG_OTWARN, 3, 3, .w1c, 0, false⟩, ⟨.WP_CFLAG_OTSHUT, 4, 4, .w1c, 0, false⟩]⟩,
  ⟨0x430C00, 0, 1, 0, 1, 1, false, false, 1,
    [⟨.WP_STATUS_CFGERR, 0, 0, .w1c, 0, false⟩, ⟨.WP_STATUS_RDY, 1, 1, .ro, 0, false⟩, ⟨.WP_STATUS_SPUSE, 9, 2, .ro, 0, false⟩]⟩,
  ⟨0x430C01, 0, 1, 0, 1, 1, false, false, 1,
    [⟨.WP_SUB_IDX, 7, 0, .rw, 0, false⟩, ⟨.WP_SUB_GO, 15, 15, .wo, 0, false⟩]⟩,
  ⟨0x430C02, 0, 1, 0, 1, 1, false, false, 1,
    [⟨.WP_SPFAIL, 7, 0, .ro, 0, false⟩]⟩]

/-- Registers PH_CTRL to PH_RFLAG (07 R196). -/
def regsPH0 : List RegRow := [
  ⟨0x470000, 0, 1, 0, 1, 1, false, false, 1,
    [⟨.PH_CTRL_LOCK, 0, 0, .w1s, 0, false⟩, ⟨.PH_CTRL_SNAP, 1, 1, .wo, 0, false⟩]⟩,
  ⟨0x470001, 0, 1, 0, 1, 1, false, false, 1,
    [⟨.PH_STATUS_CFGERR, 0, 0, .w1c, 0, false⟩, ⟨.PH_STATUS_SUMBUSY, 1, 1, .ro, 0, false⟩]⟩,
  ⟨0x470002, 0, 1, 0, 1, 1, false, false, 1,
    [⟨.PH_WCHG, 15, 0, .rw, 0, true⟩]⟩,
  ⟨0x470003, 0, 1, 0, 1, 1, false, false, 1,
    [⟨.PH_WCYC, 15, 0, .rw, 0, true⟩]⟩,
  ⟨0x470004, 0, 1, 0, 1, 1, false, false, 1,
    [⟨.PH_WSTART, 15, 0, .rw, 0, true⟩]⟩,
  ⟨0x470040, 1, 32, 0, 1, 1, false, false, 1,
    [⟨.PH_SUM, 15, 0, .ro, 0, false⟩]⟩,
  ⟨0x470100, 16, 16, 0, 1, 1, false, false, 3,
    [⟨.PH_SHCFG_SHEN, 0, 0, .rw, 0, true⟩, ⟨.PH_SHCFG_NFLOOR, 7, 1, .rw, 0, true⟩]⟩,
  ⟨0x470101, 16, 16, 0, 1, 1, false, false, 3,
    [⟨.PH_SHDWELL, 15, 0, .rw, 0, true⟩]⟩,
  ⟨0x470102, 16, 16, 0, 1, 1, false, false, 3,
    [⟨.PH_SHADD, 11, 0, .rw, 0, true⟩]⟩,
  ⟨0x470103, 16, 16, 0, 1, 1, false, false, 3,
    [⟨.PH_SHDROP, 11, 0, .rw, 0, true⟩]⟩,
  ⟨0x470104, 16, 16, 0, 1, 1, false, false, 3,
    [⟨.PH_RSTAT_NRET, 6, 0, .ro, 0, false⟩, ⟨.PH_RSTAT_NSPAV, 10, 7, .ro, 0, true⟩]⟩,
  ⟨0x470105, 16, 16, 0, 1, 1, false, false, 3,
    [⟨.PH_RFLAG_SUBST, 0, 0, .w1c, 0, false⟩, ⟨.PH_RFLAG_NOSPARE, 1, 1, .w1c, 0, false⟩, ⟨.PH_RFLAG_BELOWMIN, 2, 2, .w1c, 0, false⟩, ⟨.PH_RFLAG_EMPTY, 3, 3, .w1c, 0, false⟩, ⟨.PH_RFLAG_SHDROP, 4, 4, .w1c, 0, false⟩, ⟨.PH_RFLAG_SHADD, 5, 5, .w1c, 0, false⟩]⟩]

/-- Registers PH_CHG to PH_CFLAG (07 R196). -/
def regsPH1 : List RegRow := [
  ⟨0x470400, 16, 128, 0, 1, 2, false, true, 4,
    [⟨.PH_CHG, 31, 0, .rwl, 0, false⟩]⟩,
  ⟨0x470402, 16, 128, 0, 1, 2, false, true, 4,
    [⟨.PH_HCYC, 31, 0, .rwl, 0, false⟩]⟩,
  ⟨0x470404, 16, 128, 0, 1, 2, false, true, 4,
    [⟨.PH_STARTS, 31, 0, .rwl, 0, false⟩]⟩,
  ⟨0x470406, 16, 128, 0, 1, 2, false, true, 4,
    [⟨.PH_STRESS, 31, 0, .ro, 0, false⟩]⟩,
  ⟨0x470408, 16, 128, 0, 1, 1, false, false, 4,
    [⟨.PH_PSTAT_RET, 0, 0, .ro, 0, false⟩, ⟨.PH_PSTAT_RCAUSE, 4, 1, .ro, 0, false⟩, ⟨.PH_PSTAT_SPARE, 5, 5, .ro, 0, true⟩, ⟨.PH_PSTAT_SUBV, 6, 6, .ro, 0, false⟩, ⟨.PH_PSTAT_SUBFOR, 13, 7, .ro, 0, false⟩]⟩,
  ⟨0x470409, 16, 128, 0, 1, 1, false, false, 4,
    [⟨.PH_PCTL_RETIRE, 0, 0, .wo, 0, false⟩, ⟨.PH_PCTL_UNRET, 1, 1, .wo, 0, false⟩, ⟨.PH_PCTL_RCIN, 7, 4, .wo, 0, false⟩]⟩,
  ⟨0x47040A, 16, 128, 0, 1, 1, false, false, 4,
    [⟨.PH_RANK, 6, 0, .ro, 0, false⟩]⟩,
  ⟨0x470C00, 8, 16, 0, 1, 1, false, false, 5,
    [⟨.PH_CTCYC, 15, 0, .rw, 0, true⟩]⟩,
  ⟨0x470C01, 8, 16, 0, 1, 1, false, false, 5,
    [⟨.PH_CPRB, 7, 0, .rw, 0, true⟩]⟩,
  ⟨0x470C02, 8, 16, 0, 1, 1, false, false, 5,
    [⟨.PH_CSTAT_PSTATE, 1, 0, .ro, 0, false⟩, ⟨.PH_CSTAT_PK, 4, 2, .ro, 0, false⟩, ⟨.PH_CSTAT_NOIDC, 6, 5, .ro, 0, false⟩]⟩,
  ⟨0x470C03, 8, 16, 0, 1, 1, false, false, 5,
    [⟨.PH_CFLAG_FOUND, 0, 0, .w1c, 0, false⟩, ⟨.PH_CFLAG_NOID, 1, 1, .w1c, 0, false⟩]⟩]

/-- Registers EV_STATUS to EV_CHSUPP (08 R216). -/
def regsEV0 : List RegRow := [
  ⟨0x450000, 0, 1, 0, 1, 1, false, false, 7,
    [⟨.EV_STATUS_OWNERR, 0, 0, .w1c, 0, false⟩, ⟨.EV_STATUS_SECERR, 1, 1, .w1c, 0, false⟩, ⟨.EV_STATUS_LOCKERR, 2, 2, .w1c, 0, false⟩, ⟨.EV_STATUS_CFGERR, 3, 3, .w1c, 0, false⟩, ⟨.EV_STATUS_LASTCH, 9, 4, .ro, 0, false⟩]⟩,
  ⟨0x450004, 0, 1, 0, 1, 1, false, false, 7,
    [⟨.EV_PUB_CH, 5, 0, .wo, 0, false⟩, ⟨.EV_PUB_GO, 15, 15, .wo, 0, false⟩]⟩,
  ⟨0x450005, 0, 1, 0, 1, 1, false, false, 7,
    [⟨.EV_PROXYPUB_CH, 5, 0, .wo, 0, false⟩, ⟨.EV_PROXYPUB_GO, 15, 15, .wo, 0, false⟩]⟩,
  ⟨0x450010, 0, 1, 0, 1, 4, false, false, 7,
    [⟨.EV_WATCH, 63, 0, .w1c, 0, false⟩]⟩,
  ⟨0x450014, 0, 1, 0, 1, 4, false, false, 7,
    [⟨.EV_TRIP, 63, 0, .w1c, 0, false⟩]⟩,
  ⟨0x450018, 0, 1, 0, 1, 4, false, false, 7,
    [⟨.EV_LOCK, 63, 0, .w1s, 0, false⟩]⟩,
  ⟨0x45001C, 0, 1, 0, 1, 4, false, false, 7,
    [⟨.EV_WAKE, 63, 0, .rw, 0, true⟩]⟩,
  ⟨0x450020, 4, 6, 0, 1, 4, false, false, 7,
    [⟨.EV_WFEMASK, 63, 0, .rw, 0, true⟩]⟩,
  ⟨0x450100, 4, 64, 0, 1, 1, false, false, 7,
    [⟨.EV_CHCFG_OWNER, 2, 0, .rw, 0, true⟩, ⟨.EV_CHCFG_SEC, 3, 3, .rw, 0, true⟩]⟩,
  ⟨0x450101, 4, 64, 0, 1, 1, false, false, 7,
    [⟨.EV_CHSG_SGMAX, 7, 0, .rw, 0, true⟩, ⟨.EV_CHSG_SGWIN, 15, 8, .rw, 0, true⟩]⟩,
  ⟨0x450102, 4, 64, 0, 1, 1, false, false, 7,
    [⟨.EV_CHPUB, 15, 0, .ro, 0, false⟩]⟩,
  ⟨0x450103, 4, 64, 0, 1, 1, false, false, 7,
    [⟨.EV_CHSUPP, 15, 0, .rc, 0, false⟩]⟩]

/-- Registers EV_TOCFG to EV_UWATCH (08 R216). -/
def regsEV1 : List RegRow := [
  ⟨0x450200, 2, 144, 0, 1, 1, false, false, 7,
    [⟨.EV_TOCFG_CH, 5, 0, .rw, 0, true⟩, ⟨.EV_TOCFG_EN, 6, 6, .rw, 0, true⟩]⟩,
  ⟨0x450201, 2, 144, 0, 1, 1, false, false, 7,
    [⟨.EV_TOCOAL, 15, 0, .rc, 0, false⟩]⟩,
  ⟨0x450400, 1, 256, 0, 1, 1, false, false, 7,
    [⟨.EV_HWPUB_CH, 5, 0, .ro, 0, true⟩, ⟨.EV_HWPUB_EN, 6, 6, .ro, 0, true⟩]⟩,
  ⟨0x450800, 0, 1, 0, 1, 1, false, false, 7,
    [⟨.EV_UPUB_CH, 5, 0, .wo, 0, false⟩, ⟨.EV_UPUB_GO, 15, 15, .wo, 0, false⟩]⟩,
  ⟨0x450804, 0, 1, 0, 1, 4, false, false, 7,
    [⟨.EV_UWATCH, 63, 0, .ro, 0, false⟩]⟩]

/-- Registers CT_CFG to CT_LOST (08 R216). -/
def regsCT0 : List RegRow := [
  ⟨0x460000, 32, 32, 0, 1, 1, false, false, 7,
    [⟨.CT_CFG_CAPEN, 0, 0, .rw, 0, true⟩, ⟨.CT_CFG_CMPEN, 1, 1, .rw, 0, true⟩, ⟨.CT_CFG_OUTEN, 2, 2, .ro, 0, true⟩, ⟨.CT_CFG_OUTCH, 8, 3, .ro, 0, true⟩, ⟨.CT_CFG_CFINE, 13, 9, .rw, 0, true⟩]⟩,
  ⟨0x460001, 32, 32, 0, 1, 1, false, false, 7,
    [⟨.CT_STAT_CAPV, 0, 0, .w1c, 0, false⟩, ⟨.CT_STAT_OVR, 1, 1, .w1c, 0, false⟩, ⟨.CT_STAT_MATCH, 2, 2, .w1c, 0, false⟩, ⟨.CT_STAT_LATE, 3, 3, .w1c, 0, false⟩]⟩,
  ⟨0x460004, 32, 32, 0, 1, 4, false, true, 7,
    [⟨.CT_CAP, 63, 0, .ro, 0, false⟩]⟩,
  ⟨0x460008, 32, 32, 0, 1, 1, false, false, 7,
    [⟨.CT_SUB, 4, 0, .ro, 0, false⟩]⟩,
  ⟨0x46000C, 32, 32, 0, 1, 4, true, false, 7,
    [⟨.CT_CMP, 63, 0, .rw, 0, false⟩]⟩,
  ⟨0x460010, 32, 32, 0, 1, 2, true, false, 7,
    [⟨.CT_PER, 31, 0, .rw, 0, false⟩]⟩,
  ⟨0x460012, 32, 32, 0, 1, 2, true, false, 7,
    [⟨.CT_DLY, 31, 0, .rw, 0, false⟩]⟩,
  ⟨0x460014, 32, 32, 0, 1, 1, false, false, 7,
    [⟨.CT_LOST, 15, 0, .rc, 0, false⟩]⟩]

/-- Registers XC_VBASE to XC_ASID (11 R296). -/
def regsXC0 : List RegRow := [
  ⟨0x871000, 256, 6, 0, 1, 2, true, true, 9,
    [⟨.XC_VBASE, 23, 11, .rwl, 0, false⟩]⟩,
  ⟨0x871002, 256, 6, 0, 1, 1, false, false, 9,
    [⟨.XC_CTRL_LOCK, 0, 0, .w1s, 0, false⟩]⟩,
  ⟨0x871003, 256, 6, 0, 1, 1, false, false, 9,
    [⟨.XC_STATUS_DEPTH, 5, 0, .ro, 0, false⟩, ⟨.XC_STATUS_RM, 6, 6, .ro, 0, false⟩, ⟨.XC_STATUS_MCIP, 7, 7, .ro, 0, false⟩, ⟨.XC_STATUS_SB, 9, 8, .ro, 0, false⟩, ⟨.XC_STATUS_DFHALT, 10, 10, .ro, 0, false⟩]⟩,
  ⟨0x871010, 256, 6, 16, 2, 2, false, true, 9,
    [⟨.XC_XPC, 23, 0, .ro, 0, false⟩]⟩,
  ⟨0x871012, 256, 6, 16, 2, 1, false, false, 9,
    [⟨.XC_XSW, 15, 0, .ro, 0, false⟩]⟩,
  ⟨0x871013, 256, 6, 16, 2, 1, false, false, 9,
    [⟨.XC_XENT_REPV, 1, 1, .ro, 0, false⟩, ⟨.XC_XENT_LOOPV, 2, 2, .ro, 0, false⟩]⟩,
  ⟨0x871014, 256, 6, 16, 2, 2, false, true, 9,
    [⟨.XC_XLS, 23, 0, .ro, 0, false⟩]⟩,
  ⟨0x871016, 256, 6, 16, 2, 2, false, true, 9,
    [⟨.XC_XLE, 23, 0, .ro, 0, false⟩]⟩,
  ⟨0x871018, 256, 6, 16, 2, 1, false, false, 9,
    [⟨.XC_XCAUSE, 15, 0, .ro, 0, false⟩]⟩,
  ⟨0x87101A, 256, 6, 16, 2, 2, false, true, 9,
    [⟨.XC_XFADDR, 23, 0, .ro, 0, false⟩]⟩,
  ⟨0x871540, 0, 1, 0, 1, 2, true, true, 9,
    [⟨.XC_GTBASE, 23, 0, .rwl, 0, true⟩]⟩,
  ⟨0x871542, 0, 1, 0, 1, 1, false, false, 9,
    [⟨.XC_ASID_ASID, 7, 0, .rw, 0, false⟩, ⟨.XC_ASID_FLUSH, 15, 15, .wo, 0, false⟩]⟩]

/-- Registers XC_MMU to XC_MPUCTL (11 R298). -/
def regsXC1 : List RegRow := [
  ⟨0x871543, 0, 1, 0, 1, 1, false, false, 9,
    [⟨.XC_MMU_TEN, 0, 0, .rw, 0, false⟩, ⟨.XC_MMU_WIRED, 6, 1, .rwl, 0, true⟩, ⟨.XC_MMU_MULTI, 7, 7, .w1c, 0, false⟩, ⟨.XC_MMU_RP, 13, 8, .ro, 0, false⟩]⟩,
  ⟨0x871544, 0, 1, 0, 1, 2, true, true, 9,
    [⟨.XC_PTROOT, 23, 0, .rw, 0, false⟩]⟩,
  ⟨0x871546, 0, 1, 0, 1, 2, false, true, 9,
    [⟨.XC_TLBVA_VA, 23, 0, .ro, 0, false⟩, ⟨.XC_TLBVA_ASID, 31, 24, .ro, 0, false⟩]⟩,
  ⟨0x871548, 0, 1, 0, 1, 2, false, true, 9,
    [⟨.XC_TLBWADDR, 23, 0, .ro, 0, false⟩]⟩,
  ⟨0x87154A, 0, 1, 0, 1, 1, false, false, 9,
    [⟨.XC_TLBIDX, 5, 0, .rw, 0, false⟩]⟩,
  ⟨0x87154C, 0, 1, 0, 1, 2, true, true, 9,
    [⟨.XC_TLBTAG_VPN, 13, 0, .rw, 0, false⟩, ⟨.XC_TLBTAG_ASID, 21, 14, .rw, 0, false⟩, ⟨.XC_TLBTAG_SZ, 23, 22, .rw, 0, false⟩, ⟨.XC_TLBTAG_G, 24, 24, .rw, 0, false⟩, ⟨.XC_TLBTAG_V, 25, 25, .rw, 0, false⟩]⟩,
  ⟨0x87154E, 0, 1, 0, 1, 2, true, true, 9,
    [⟨.XC_TLBPTE, 31, 0, .rw, 0, false⟩]⟩,
  ⟨0x871550, 0, 1, 0, 1, 1, false, false, 9,
    [⟨.XC_TLBOP_RD, 0, 0, .wo, 0, false⟩, ⟨.XC_TLBOP_WR, 1, 1, .wo, 0, false⟩]⟩,
  ⟨0x8710A0, 256, 5, 0, 1, 1, false, false, 9,
    [⟨.XC_MPUCTL_EN, 0, 0, .rwl, 0, false⟩]⟩]

/-- Registers MPU_BASE to MPU_LIM (11 R298). -/
def regsMPU0 : List RegRow := [
  ⟨0x871080, 256, 5, 4, 8, 2, true, true, 9,
    [⟨.MPU_BASE_EN, 0, 0, .rwl, 0, true⟩, ⟨.MPU_BASE_R, 1, 1, .rwl, 0, true⟩, ⟨.MPU_BASE_W, 2, 2, .rwl, 0, true⟩, ⟨.MPU_BASE_X, 3, 3, .rwl, 0, true⟩, ⟨.MPU_BASE_BASE, 23, 6, .rwl, 0, true⟩]⟩,
  ⟨0x871082, 256, 5, 4, 8, 2, true, true, 9,
    [⟨.MPU_LIM, 23, 6, .rwl, 0, true⟩]⟩]

/-- Registers UC_MW to UC_PAGEUSE (12 R314). -/
def regsUC0 : List RegRow := [
  ⟨0x300000, 4, 1024, 0, 1, 4, true, false, 1,
    [⟨.UC_MW, 63, 0, .rw, 0, false⟩]⟩,
  ⟨0x301000, 1, 32, 0, 1, 1, false, false, 1,
    [⟨.UC_DEC_START, 5, 0, .rw, 0, false⟩, ⟨.UC_DEC_PAGE, 9, 6, .rw, 0, false⟩, ⟨.UC_DEC_VALID, 10, 10, .rw, 0, false⟩, ⟨.UC_DEC_MCONLY, 11, 11, .rw, 0, false⟩, ⟨.UC_DEC_PRIV, 12, 12, .rw, 0, false⟩]⟩,
  ⟨0x301100, 0, 1, 0, 1, 1, false, false, 1,
    [⟨.UC_CTRL_LDEN, 0, 0, .rw, 0, false⟩, ⟨.UC_CTRL_VLOCK, 1, 1, .w1s, 0, false⟩]⟩,
  ⟨0x301101, 0, 1, 0, 1, 1, false, false, 1,
    [⟨.UC_STATUS_LDERR, 0, 0, .w1c, 0, false⟩, ⟨.UC_STATUS_LIVEERR, 1, 1, .w1c, 0, false⟩, ⟨.UC_STATUS_FMTERR, 2, 2, .w1c, 0, false⟩, ⟨.UC_STATUS_EPEND, 3, 3, .ro, 0, false⟩]⟩,
  ⟨0x301102, 0, 1, 0, 1, 1, false, false, 1,
    [⟨.UC_ECC, 15, 0, .rc, 0, false⟩]⟩,
  ⟨0x301103, 0, 1, 0, 1, 1, false, false, 1,
    [⟨.UC_UEADDR_MW, 9, 0, .ro, 0, false⟩, ⟨.UC_UEADDR_CORE, 12, 10, .ro, 0, false⟩, ⟨.UC_UEADDR_V, 13, 13, .w1c, 0, false⟩]⟩,
  ⟨0x301104, 0, 1, 0, 1, 1, false, false, 1,
    [⟨.UC_PAGEUSE, 15, 0, .ro, 0, false⟩]⟩]

/-- Registers IR_SRCCFG to IR_STATUS (13 R329). -/
def regsIR0 : List RegRow := [
  ⟨0x800000, 4, 254, 0, 1, 1, false, false, 8,
    [⟨.IR_SRCCFG_EN, 0, 0, .rw, 0, true⟩, ⟨.IR_SRCCFG_SENSE, 2, 1, .rw, 0, true⟩, ⟨.IR_SRCCFG_PRIO, 6, 3, .rw, 0, true⟩, ⟨.IR_SRCCFG_TGT, 9, 7, .rw, 0, true⟩, ⟨.IR_SRCCFG_WAKE, 10, 10, .rw, 0, true⟩]⟩,
  ⟨0x800001, 4, 254, 0, 1, 1, false, false, 8,
    [⟨.IR_SRCRL_RLMAX, 7, 0, .rw, 0, true⟩, ⟨.IR_SRCRL_RLWIN, 15, 8, .rw, 0, true⟩]⟩,
  ⟨0x800002, 4, 254, 0, 1, 1, false, false, 8,
    [⟨.IR_SRCST_PEND, 0, 0, .ro, 0, false⟩, ⟨.IR_SRCST_SPEND, 1, 1, .w1s, 0, false⟩, ⟨.IR_SRCST_ACT, 2, 2, .ro, 0, false⟩, ⟨.IR_SRCST_RAW, 3, 3, .ro, 0, false⟩, ⟨.IR_SRCST_RLIM, 4, 4, .w1c, 0, false⟩, ⟨.IR_SRCST_STRAND, 5, 5, .w1c, 0, false⟩, ⟨.IR_SRCST_ETGT, 8, 6, .ro, 0, false⟩]⟩,
  ⟨0x800003, 4, 254, 0, 1, 1, false, false, 8,
    [⟨.IR_SRCCLR_CLR, 0, 0, .wo, 0, false⟩]⟩,
  ⟨0x800400, 16, 6, 0, 1, 1, false, false, 8,
    [⟨.IR_CRUN_RUN, 4, 0, .ro, 0, false⟩, ⟨.IR_CRUN_NACT, 9, 5, .ro, 0, false⟩]⟩,
  ⟨0x800401, 16, 6, 0, 1, 1, false, false, 8,
    [⟨.IR_CBEST_SRC, 7, 0, .ro, 0, false⟩, ⟨.IR_CBEST_PRIO, 11, 8, .ro, 0, false⟩]⟩,
  ⟨0x800402, 16, 6, 0, 1, 1, false, false, 8,
    [⟨.IR_CLAST_SRC, 7, 0, .ro, 0, false⟩]⟩,
  ⟨0x800403, 16, 6, 0, 1, 1, false, false, 8,
    [⟨.IR_CSPUR, 15, 0, .rc, 0, false⟩]⟩,
  ⟨0x800480, 0, 1, 0, 1, 1, false, false, 8,
    [⟨.IR_CTRL_STRTMO, 7, 0, .rw, 0, false⟩]⟩,
  ⟨0x800481, 0, 1, 0, 1, 1, false, false, 8,
    [⟨.IR_STATUS_CFGERR, 0, 0, .w1c, 0, false⟩, ⟨.IR_STATUS_RLIM, 1, 1, .w1c, 0, false⟩, ⟨.IR_STATUS_STRAND, 2, 2, .w1c, 0, false⟩]⟩]

/-- Registers LS_PAIR to LS_TKOVER (14 R341). -/
def regsLS0 : List RegRow := [
  ⟨0x870000, 16, 6, 0, 1, 1, false, false, 9,
    [⟨.LS_PAIR_STATE, 2, 0, .ro, 0, false⟩, ⟨.LS_PAIR_SURV, 3, 3, .ro, 0, false⟩, ⟨.LS_PAIR_COMPFAIL, 4, 4, .ro, 0, false⟩, ⟨.LS_PAIR_LBP, 5, 5, .ro, 0, false⟩, ⟨.LS_PAIR_LBC, 6, 6, .ro, 0, false⟩, ⟨.LS_PAIR_DUTY, 9, 7, .ro, 0, true⟩]⟩,
  ⟨0x870001, 16, 6, 0, 1, 1, false, false, 9,
    [⟨.LS_MM_GROUP, 2, 0, .ro, 0, false⟩, ⟨.LS_MM_V, 3, 3, .w1c, 0, false⟩, ⟨.LS_MM_COUNT, 11, 4, .ro, 0, false⟩]⟩,
  ⟨0x870002, 16, 6, 0, 1, 1, false, false, 9,
    [⟨.LS_MMT, 15, 0, .ro, 0, false⟩]⟩,
  ⟨0x870080, 0, 1, 0, 1, 1, false, false, 9,
    [⟨.LS_STATUS_DBGSPLIT, 0, 0, .ro, 0, false⟩, ⟨.LS_STATUS_TKOVER, 1, 1, .ro, 0, false⟩, ⟨.LS_STATUS_TKFOR, 4, 2, .ro, 0, false⟩, ⟨.LS_STATUS_INJDONE, 5, 5, .ro, 0, false⟩]⟩,
  ⟨0x870081, 0, 1, 0, 1, 1, false, false, 9,
    [⟨.LS_TKOVER_DONE, 0, 0, .wo, 0, false⟩]⟩]

/-- Registers DMA_CFG to DMA_CNT (15 R367). -/
def regsDMA0 : List RegRow := [
  ⟨0x810000, 16, 16, 0, 1, 1, false, false, 1,
    [⟨.DMA_CFG_EN, 0, 0, .rw, 0, true⟩, ⟨.DMA_CFG_TRGEN, 1, 1, .rw, 0, true⟩, ⟨.DMA_CFG_WRAPSEL, 3, 2, .rw, 0, true⟩, ⟨.DMA_CFG_WRAP, 8, 4, .rw, 0, true⟩, ⟨.DMA_CFG_RETRY, 11, 9, .rw, 0, false⟩, ⟨.DMA_CFG_OWNER, 14, 12, .ro, 0, true⟩]⟩,
  ⟨0x810001, 16, 16, 0, 1, 1, false, false, 1,
    [⟨.DMA_STAT_BUSY, 0, 0, .ro, 0, false⟩, ⟨.DMA_STAT_HALT, 1, 1, .ro, 0, false⟩, ⟨.DMA_STAT_ERR, 4, 2, .ro, 0, false⟩, ⟨.DMA_STAT_PEND, 8, 5, .ro, 0, false⟩, ⟨.DMA_STAT_OVR, 9, 9, .w1c, 0, false⟩, ⟨.DMA_STAT_DONE, 10, 10, .w1c, 0, false⟩]⟩,
  ⟨0x810002, 16, 16, 0, 1, 1, false, false, 1,
    [⟨.DMA_CTL_TRIG, 0, 0, .wo, 0, false⟩, ⟨.DMA_CTL_RESUME, 1, 1, .wo, 0, false⟩, ⟨.DMA_CTL_ABORT, 2, 2, .wo, 0, false⟩]⟩,
  ⟨0x810004, 16, 16, 0, 1, 2, true, true, 1,
    [⟨.DMA_SRC, 31, 0, .rw, 0, false⟩]⟩,
  ⟨0x810006, 16, 16, 0, 1, 2, true, true, 1,
    [⟨.DMA_DST, 31, 0, .rw, 0, false⟩]⟩,
  ⟨0x810008, 16, 16, 0, 1, 2, true, true, 1,
    [⟨.DMA_LIST, 31, 0, .rw, 0, false⟩]⟩,
  ⟨0x81000A, 16, 16, 0, 1, 2, false, true, 1,
    [⟨.DMA_ERRADDR, 31, 0, .ro, 0, false⟩]⟩,
  ⟨0x81000C, 16, 16, 0, 1, 1, false, false, 1,
    [⟨.DMA_CNT_BURST, 12, 0, .rw, 0, true⟩]⟩]

/-- Registers D4_CFG to D4_RETX (15 R367). -/
def regsD40 : List RegRow := [
  ⟨0x820000, 0, 1, 0, 1, 1, false, false, 1,
    [⟨.D4_CFG_SIZE, 1, 0, .ro, 0, true⟩, ⟨.D4_CFG_CORRWB, 2, 2, .rw, 0, true⟩, ⟨.D4_CFG_TSRC, 7, 3, .ro, 0, true⟩]⟩,
  ⟨0x820001, 0, 1, 0, 1, 1, false, false, 1,
    [⟨.D4_CTRL_LOCK, 0, 0, .w1s, 0, false⟩]⟩,
  ⟨0x820002, 0, 1, 0, 1, 1, false, false, 1,
    [⟨.D4_STATUS_RDY, 0, 0, .ro, 0, false⟩, ⟨.D4_STATUS_TRAINERR, 1, 1, .ro, 0, false⟩, ⟨.D4_STATUS_SREF, 2, 2, .ro, 0, false⟩, ⟨.D4_STATUS_RETBUSY, 3, 3, .ro, 0, false⟩, ⟨.D4_STATUS_POOLEX, 4, 4, .w1c, 0, false⟩, ⟨.D4_STATUS_CFGERR, 5, 5, .w1c, 0, false⟩, ⟨.D4_STATUS_LISTFULL, 6, 6, .w1c, 0, false⟩]⟩,
  ⟨0x820003, 0, 1, 0, 1, 1, false, false, 1,
    [⟨.D4_CECNT, 15, 0, .rc, 0, false⟩]⟩,
  ⟨0x820004, 0, 1, 0, 1, 1, false, false, 1,
    [⟨.D4_UECNT, 15, 0, .rc, 0, false⟩]⟩,
  ⟨0x820005, 0, 1, 0, 1, 1, false, false, 1,
    [⟨.D4_RETCFG_CETHR, 3, 0, .rw, 0, true⟩]⟩,
  ⟨0x820006, 0, 1, 0, 1, 2, false, true, 1,
    [⟨.D4_ERRADDR, 31, 0, .ro, 0, false⟩]⟩,
  ⟨0x820008, 0, 1, 0, 1, 2, true, false, 1,
    [⟨.D4_RETADD_PAGE, 19, 0, .wo, 0, false⟩]⟩,
  ⟨0x82000A, 0, 1, 0, 1, 1, false, false, 1,
    [⟨.D4_NRET, 10, 0, .ro, 0, false⟩]⟩,
  ⟨0x820400, 2, 512, 0, 1, 2, false, true, 1,
    [⟨.D4_RET_PAGE, 19, 0, .ro, 0, false⟩, ⟨.D4_RET_V, 31, 31, .ro, 0, false⟩]⟩,
  ⟨0x821000, 2, 512, 0, 1, 2, false, true, 1,
    [⟨.D4_RETX_PAGE, 19, 0, .ro, 0, false⟩, ⟨.D4_RETX_V, 31, 31, .ro, 0, false⟩]⟩]

/-- Registers MS_CE to MS_SCRUBRES (15 R367). -/
def regsMS0 : List RegRow := [
  ⟨0x820800, 4, 7, 0, 1, 1, false, false, 1,
    [⟨.MS_CE, 15, 0, .rc, 0, false⟩]⟩,
  ⟨0x820801, 4, 7, 0, 1, 1, false, false, 1,
    [⟨.MS_UE, 15, 0, .rc, 0, false⟩]⟩,
  ⟨0x820802, 4, 7, 0, 1, 1, false, false, 1,
    [⟨.MS_REP_REPUSED, 6, 0, .ro, 0, false⟩, ⟨.MS_REP_NOREP, 7, 7, .ro, 0, false⟩]⟩,
  ⟨0x820803, 4, 7, 0, 1, 1, false, false, 1,
    [⟨.MS_UEADDR, 15, 0, .ro, 0, false⟩]⟩,
  ⟨0x820840, 0, 1, 0, 1, 1, false, false, 1,
    [⟨.MS_SCRUBCTL_MEM, 3, 0, .rw, 0, false⟩, ⟨.MS_SCRUBCTL_GO, 4, 4, .wo, 0, false⟩, ⟨.MS_SCRUBCTL_BUSY, 5, 5, .ro, 0, false⟩, ⟨.MS_SCRUBCTL_DONE, 6, 6, .w1c, 0, false⟩, ⟨.MS_SCRUBCTL_ERR, 7, 7, .w1c, 0, false⟩]⟩,
  ⟨0x820842, 0, 1, 0, 1, 2, true, true, 1,
    [⟨.MS_SCRUBADDR, 31, 0, .rw, 0, false⟩]⟩,
  ⟨0x820844, 0, 1, 0, 1, 1, false, false, 1,
    [⟨.MS_SCRUBRES_CE, 9, 0, .ro, 0, false⟩, ⟨.MS_SCRUBRES_UE, 10, 10, .ro, 0, false⟩]⟩]

/-- Registers RC_CTRL to RC_DROPF (15 R367). -/
def regsRC0 : List RegRow := [
  ⟨0x830000, 0, 1, 0, 1, 1, false, false, 1,
    [⟨.RC_CTRL_EN, 0, 0, .rw, 0, true⟩, ⟨.RC_CTRL_RESUME, 1, 1, .wo, 0, false⟩, ⟨.RC_CTRL_FRZNOW, 2, 2, .wo, 0, false⟩, ⟨.RC_CTRL_STGARM, 3, 3, .wo, 0, false⟩, ⟨.RC_CTRL_TRIG, 4, 4, .wo, 0, false⟩]⟩,
  ⟨0x830001, 0, 1, 0, 1, 1, false, false, 1,
    [⟨.RC_STATUS_FROZEN, 0, 0, .ro, 0, false⟩, ⟨.RC_STATUS_NODDR, 1, 1, .ro, 0, false⟩, ⟨.RC_STATUS_WINV, 2, 2, .ro, 0, false⟩, ⟨.RC_STATUS_STGARMED, 3, 3, .ro, 0, false⟩, ⟨.RC_STATUS_WRAPPED, 4, 4, .ro, 0, false⟩, ⟨.RC_STATUS_CFGERR, 5, 5, .w1c, 0, false⟩]⟩,
  ⟨0x830002, 0, 1, 0, 1, 2, true, true, 1,
    [⟨.RC_BASE, 31, 0, .rw, 0, true⟩]⟩,
  ⟨0x830004, 0, 1, 0, 1, 2, false, true, 1,
    [⟨.RC_WIDX, 23, 0, .ro, 0, false⟩]⟩,
  ⟨0x830006, 0, 1, 0, 1, 2, false, true, 1,
    [⟨.RC_FRZIDX, 23, 0, .ro, 0, false⟩]⟩,
  ⟨0x830008, 0, 1, 0, 1, 2, true, true, 1,
    [⟨.RC_FRZPOST, 23, 0, .rw, 0, true⟩]⟩,
  ⟨0x83000A, 0, 1, 0, 1, 1, false, false, 1,
    [⟨.RC_RAILPER, 15, 0, .rw, 0, true⟩]⟩,
  ⟨0x83000B, 0, 1, 0, 1, 1, false, false, 1,
    [⟨.RC_PHPER, 15, 0, .rw, 0, true⟩]⟩,
  ⟨0x83000C, 0, 1, 0, 1, 1, false, false, 1,
    [⟨.RC_RAILMASK, 15, 0, .rw, 0, true⟩]⟩,
  ⟨0x83000D, 0, 1, 0, 1, 1, false, false, 1,
    [⟨.RC_FRZMASK, 15, 0, .rw, 0, true⟩]⟩,
  ⟨0x83000E, 0, 1, 0, 1, 1, false, false, 1,
    [⟨.RC_DROP, 15, 0, .rc, 0, false⟩]⟩,
  ⟨0x83000F, 0, 1, 0, 1, 1, false, false, 1,
    [⟨.RC_DROPF, 15, 0, .rc, 0, false⟩]⟩]

/-- Registers RC_EVMASK to RC_MSGGO (15 R367). -/
def regsRC1 : List RegRow := [
  ⟨0x830010, 0, 1, 0, 1, 4, false, false, 1,
    [⟨.RC_EVMASK, 63, 0, .rw, 0, true⟩]⟩,
  ⟨0x830014, 0, 1, 0, 1, 1, false, false, 1,
    [⟨.RC_STGMASK, 15, 0, .rw, 0, true⟩]⟩,
  ⟨0x830015, 0, 1, 0, 1, 1, false, false, 1,
    [⟨.RC_STGTRGMASK, 15, 0, .rw, 0, true⟩]⟩,
  ⟨0x830016, 0, 1, 0, 1, 1, false, false, 1,
    [⟨.RC_STGPRE, 15, 0, .rw, 0, true⟩]⟩,
  ⟨0x830017, 0, 1, 0, 1, 1, false, false, 1,
    [⟨.RC_STGTRIG, 15, 0, .ro, 0, false⟩]⟩,
  ⟨0x830100, 16, 6, 1, 11, 1, false, false, 1,
    [⟨.RC_MSG, 15, 0, .rw, 0, false⟩]⟩,
  ⟨0x83010F, 16, 6, 0, 1, 1, false, false, 1,
    [⟨.RC_MSGGO_GO, 0, 0, .wo, 0, false⟩]⟩]

/-- Registers HG_CTRL to HG_PARTIAL (16 R390). -/
def regsHG0 : List RegRow := [
  ⟨0x840000, 0, 1, 0, 1, 1, false, false, 10,
    [⟨.HG_CTRL_EXTMO, 7, 0, .rw, 0, true⟩]⟩,
  ⟨0x840001, 0, 1, 0, 1, 1, false, false, 10,
    [⟨.HG_STATUS_RQAV, 0, 0, .ro, 0, false⟩, ⟨.HG_STATUS_CPLFULL, 1, 1, .ro, 0, false⟩, ⟨.HG_STATUS_CFGERR, 2, 2, .w1c, 0, false⟩]⟩,
  ⟨0x840004, 0, 1, 0, 1, 1, false, false, 10,
    [⟨.HG_XHDR0_TYPE, 7, 0, .ro, 0, false⟩, ⟨.HG_XHDR0_TAG, 15, 8, .ro, 0, false⟩]⟩,
  ⟨0x840005, 0, 1, 0, 1, 1, false, false, 10,
    [⟨.HG_XHDR1_EPOCH, 3, 0, .ro, 0, false⟩, ⟨.HG_XHDR1_PORT, 6, 4, .ro, 0, false⟩, ⟨.HG_XHDR1_XV, 7, 7, .ro, 0, false⟩, ⟨.HG_XHDR1_TARGET, 15, 8, .ro, 0, false⟩]⟩,
  ⟨0x840006, 0, 1, 0, 1, 1, false, false, 10,
    [⟨.HG_XHDR2_LEN, 15, 0, .ro, 0, false⟩]⟩,
  ⟨0x840008, 0, 1, 0, 1, 1, false, false, 10,
    [⟨.HG_XCTL_TAKE, 0, 0, .wo, 0, false⟩, ⟨.HG_XCTL_DONE, 1, 1, .wo, 0, false⟩, ⟨.HG_XCTL_STATUS, 7, 4, .rw, 0, false⟩]⟩,
  ⟨0x840009, 0, 1, 0, 1, 1, false, false, 10,
    [⟨.HG_XCLEN_LEN, 12, 0, .rw, 0, false⟩]⟩,
  ⟨0x840040, 16, 6, 0, 1, 1, false, false, 10,
    [⟨.HG_PCFG_EN, 0, 0, .ro, 0, true⟩, ⟨.HG_PCFG_PECREQ, 1, 1, .rw, 0, true⟩, ⟨.HG_PCFG_SPEED, 3, 2, .ro, 0, true⟩]⟩,
  ⟨0x840041, 16, 6, 0, 1, 1, false, false, 10,
    [⟨.HG_PSTAT_EPOCH, 3, 0, .ro, 0, false⟩, ⟨.HG_PSTAT_QUSED, 8, 4, .ro, 0, false⟩, ⟨.HG_PSTAT_LAST, 12, 9, .ro, 0, false⟩]⟩,
  ⟨0x840042, 16, 6, 0, 1, 1, false, false, 10,
    [⟨.HG_PCTL_PRST, 0, 0, .wo, 0, false⟩]⟩,
  ⟨0x840043, 16, 6, 0, 1, 1, false, false, 10,
    [⟨.HG_FRAMEERR, 15, 0, .rc, 0, false⟩]⟩,
  ⟨0x840044, 16, 6, 0, 1, 1, false, false, 10,
    [⟨.HG_PARTIAL, 15, 0, .rc, 0, false⟩]⟩]

/-- Registers HG_STALE to HG_CACHE (16 R390). -/
def regsHG1 : List RegRow := [
  ⟨0x840045, 16, 6, 0, 1, 1, false, false, 10,
    [⟨.HG_STALE, 15, 0, .rc, 0, false⟩]⟩,
  ⟨0x840046, 16, 6, 0, 1, 1, false, false, 10,
    [⟨.HG_TAGDUP, 15, 0, .rc, 0, false⟩]⟩,
  ⟨0x840047, 16, 6, 0, 1, 1, false, false, 10,
    [⟨.HG_QFULL, 15, 0, .rc, 0, false⟩]⟩,
  ⟨0x840048, 16, 6, 1, 2, 1, false, false, 10,
    [⟨.HG_AVSMAP_RAIL0, 3, 0, .ro, 0, true⟩, ⟨.HG_AVSMAP_V0, 4, 4, .ro, 0, true⟩, ⟨.HG_AVSMAP_RAIL1, 11, 8, .ro, 0, true⟩, ⟨.HG_AVSMAP_V1, 12, 12, .ro, 0, true⟩]⟩,
  ⟨0x840400, 1, 2048, 0, 1, 1, false, false, 10,
    [⟨.HG_XBUF, 15, 0, .ro, 0, false⟩]⟩,
  ⟨0x840C00, 1, 2048, 0, 1, 1, false, false, 10,
    [⟨.HG_CBUF, 15, 0, .rw, 0, false⟩]⟩,
  ⟨0x842000, 256, 16, 1, 256, 1, false, false, 10,
    [⟨.HG_CACHE, 15, 0, .rw, 0, false⟩]⟩]

/-- Registers IM_STATE to IM_RSDONE (17 R413). -/
def regsIM0 : List RegRow := [
  ⟨0x851000, 0, 1, 0, 1, 1, false, false, 1,
    [⟨.IM_STATE_STEP, 2, 0, .ro, 0, false⟩, ⟨.IM_STATE_WARM, 3, 3, .ro, 0, false⟩, ⟨.IM_STATE_PROV, 4, 4, .ro, 0, false⟩, ⟨.IM_STATE_NOFW, 5, 5, .ro, 0, false⟩, ⟨.IM_STATE_NOSI, 6, 6, .ro, 0, false⟩, ⟨.IM_STATE_NOCM, 7, 7, .ro, 0, false⟩, ⟨.IM_STATE_SLOT, 11, 8, .ro, 0, false⟩, ⟨.IM_STATE_FALLBK, 15, 12, .ro, 0, false⟩]⟩,
  ⟨0x851001, 1, 6, 0, 1, 1, false, false, 1,
    [⟨.IM_STEPT, 15, 0, .ro, 0, false⟩]⟩,
  ⟨0x851008, 0, 1, 0, 1, 1, false, false, 1,
    [⟨.IM_CTRL_GO, 0, 0, .wo, 0, false⟩]⟩,
  ⟨0x851009, 0, 1, 0, 1, 1, false, false, 1,
    [⟨.IM_ERR_GOERR, 0, 0, .w1c, 0, false⟩, ⟨.IM_ERR_SLERR, 1, 1, .w1c, 0, false⟩, ⟨.IM_ERR_RSERR, 2, 2, .w1c, 0, false⟩]⟩,
  ⟨0x85100A, 0, 1, 0, 1, 1, false, false, 1,
    [⟨.IM_TRIAL_LEFT, 7, 0, .ro, 0, false⟩, ⟨.IM_TRIAL_RUN, 8, 8, .ro, 0, false⟩, ⟨.IM_TRIAL_FAIL, 9, 9, .w1c, 0, false⟩, ⟨.IM_TRIAL_STOP, 10, 10, .wo, 0, false⟩]⟩,
  ⟨0x85100B, 0, 1, 0, 1, 1, false, false, 1,
    [⟨.IM_VRES_CODE, 2, 0, .ro, 0, false⟩, ⟨.IM_VRES_KIND, 6, 4, .ro, 0, false⟩]⟩,
  ⟨0x85100C, 0, 1, 0, 1, 2, false, false, 1,
    [⟨.IM_UPD_OFS, 23, 0, .rw, 0, false⟩, ⟨.IM_UPD_KIND, 26, 24, .rw, 0, false⟩, ⟨.IM_UPD_SLOT, 27, 27, .rw, 0, false⟩]⟩,
  ⟨0x851010, 0, 1, 0, 1, 2, false, false, 1,
    [⟨.IM_SLADDR, 31, 0, .rw, 0, false⟩]⟩,
  ⟨0x851012, 0, 1, 0, 1, 1, false, false, 1,
    [⟨.IM_SLDATA, 15, 0, .wo, 0, false⟩]⟩,
  ⟨0x851013, 0, 1, 0, 1, 1, false, false, 1,
    [⟨.IM_RSDONE, 15, 0, .wo, 0, false⟩]⟩]

/-- Registers OT_STATUS to OT_CNT (17 R413). -/
def regsOT0 : List RegRow := [
  ⟨0x851040, 0, 1, 0, 1, 1, false, false, 1,
    [⟨.OT_STATUS_DBGLOCK, 0, 0, .ro, 0, false⟩, ⟨.OT_STATUS_KSACT, 3, 1, .ro, 0, false⟩, ⟨.OT_STATUS_KSPROG, 7, 4, .ro, 0, false⟩, ⟨.OT_STATUS_KSREV, 11, 8, .ro, 0, false⟩]⟩,
  ⟨0x851041, 1, 4, 0, 1, 1, false, false, 1,
    [⟨.OT_CNT_VAL, 7, 0, .ro, 0, false⟩, ⟨.OT_CNT_B1, 8, 8, .ro, 0, false⟩, ⟨.OT_CNT_EXH, 9, 9, .ro, 0, false⟩]⟩]

/-- Registers DR_CFG to DR_IDBASE (18 R432). -/
def regsDR0 : List RegRow := [
  ⟨0x843000, 0, 1, 0, 1, 1, false, false, 10,
    [⟨.DR_CFG_SCRUB, 0, 0, .rw, 0, true⟩, ⟨.DR_CFG_ROT, 1, 1, .rw, 0, true⟩, ⟨.DR_CFG_ID, 2, 2, .rw, 0, true⟩, ⟨.DR_CFG_IDSTG, 3, 3, .rw, 0, true⟩, ⟨.DR_CFG_SRAMU, 15, 8, .rw, 0, true⟩]⟩,
  ⟨0x843001, 0, 1, 0, 1, 1, false, false, 10,
    [⟨.DR_BUDGET, 15, 0, .rw, 0, true⟩]⟩,
  ⟨0x843002, 0, 1, 0, 1, 1, false, false, 10,
    [⟨.DR_SCRUB2_DDR4INT, 7, 0, .rw, 0, true⟩, ⟨.DR_SCRUB2_WCSU, 15, 8, .rw, 0, true⟩]⟩,
  ⟨0x843003, 0, 1, 0, 1, 1, false, false, 10,
    [⟨.DR_LOG_LOGPER, 15, 0, .rw, 0, true⟩]⟩,
  ⟨0x843004, 0, 1, 0, 1, 1, false, false, 10,
    [⟨.DR_STAT_OVR, 15, 0, .rc, 0, false⟩]⟩,
  ⟨0x843100, 16, 16, 0, 1, 1, false, false, 10,
    [⟨.DR_IDCFG_IDEN, 0, 0, .rw, 0, true⟩, ⟨.DR_IDCFG_AMP, 7, 1, .rw, 0, true⟩, ⟨.DR_IDCFG_PER, 15, 8, .rw, 0, true⟩]⟩,
  ⟨0x843101, 16, 16, 0, 1, 1, false, false, 10,
    [⟨.DR_IDCDES, 15, 0, .rw, 0, true⟩]⟩,
  ⟨0x843102, 16, 16, 0, 1, 1, false, false, 10,
    [⟨.DR_IDCMIN, 15, 0, .rw, 0, true⟩]⟩,
  ⟨0x843103, 16, 16, 0, 1, 1, false, false, 10,
    [⟨.DR_IDCMAX, 15, 0, .rw, 0, true⟩]⟩,
  ⟨0x843104, 16, 16, 0, 1, 1, false, false, 10,
    [⟨.DR_IDTUNE_STEP, 7, 0, .rw, 0, true⟩, ⟨.DR_IDTUNE_WATCH, 15, 8, .rw, 0, true⟩]⟩,
  ⟨0x843105, 16, 16, 0, 1, 1, false, false, 10,
    [⟨.DR_IDSTAT_CODE, 3, 0, .rw, 0, false⟩, ⟨.DR_IDSTAT_WLEFT, 15, 8, .rw, 0, false⟩]⟩,
  ⟨0x843106, 16, 16, 0, 1, 1, false, false, 10,
    [⟨.DR_IDBASE, 13, 0, .rw, 0, false⟩]⟩]

/-- Registers DR_IDSLEWUP to DR_IDL (18 R432). -/
def regsDR1 : List RegRow := [
  ⟨0x843107, 16, 16, 0, 1, 1, false, false, 10,
    [⟨.DR_IDSLEWUP, 15, 0, .rw, 0, false⟩]⟩,
  ⟨0x843108, 16, 16, 0, 1, 1, false, false, 10,
    [⟨.DR_IDSLEWDN, 15, 0, .rw, 0, false⟩]⟩,
  ⟨0x843109, 16, 16, 0, 1, 1, false, false, 10,
    [⟨.DR_IDC, 15, 0, .rw, 0, false⟩]⟩,
  ⟨0x84310A, 16, 16, 0, 1, 1, false, false, 10,
    [⟨.DR_IDESR, 15, 0, .rw, 0, false⟩]⟩,
  ⟨0x84310B, 16, 16, 0, 1, 1, false, false, 10,
    [⟨.DR_IDL, 15, 0, .rw, 0, false⟩]⟩]

/-- Registers PW_CTRL to PW_TCSTART (19 R449). -/
def regsPW0 : List RegRow := [
  ⟨0x860000, 0, 1, 0, 1, 1, false, false, 1,
    [⟨.PW_CTRL_SLEEP, 1, 0, .rw, 0, false⟩, ⟨.PW_CTRL_MCRST, 2, 2, .wo, 0, false⟩]⟩,
  ⟨0x860001, 0, 1, 0, 1, 1, false, false, 1,
    [⟨.PW_STATE_IDLE, 0, 0, .ro, 0, false⟩, ⟨.PW_STATE_LAST, 2, 1, .ro, 0, false⟩, ⟨.PW_STATE_WSRC, 5, 3, .ro, 0, false⟩, ⟨.PW_STATE_REQERR, 6, 6, .w1c, 0, false⟩, ⟨.PW_STATE_ABORT, 7, 7, .w1c, 0, false⟩]⟩,
  ⟨0x860002, 0, 1, 0, 1, 1, false, false, 1,
    [⟨.PW_WAKEID, 7, 0, .ro, 0, false⟩]⟩,
  ⟨0x860004, 0, 1, 0, 1, 2, false, true, 1,
    [⟨.PW_SLEEPT, 31, 0, .ro, 0, false⟩]⟩,
  ⟨0x860006, 0, 1, 0, 1, 1, false, false, 1,
    [⟨.PW_RSTCAUSE_CCAUSE, 2, 0, .ro, 0, false⟩, ⟨.PW_RSTCAUSE_SUPIDX, 5, 3, .ro, 0, false⟩, ⟨.PW_RSTCAUSE_MCCAUSE, 9, 6, .ro, 0, false⟩]⟩,
  ⟨0x860007, 0, 1, 0, 1, 1, false, false, 1,
    [⟨.PW_MCCNT, 15, 0, .ro, 0, false⟩]⟩,
  ⟨0x860008, 0, 1, 0, 1, 1, false, false, 1,
    [⟨.PW_WDOG_TMO, 7, 0, .rwl, 0, false⟩]⟩,
  ⟨0x860009, 0, 1, 0, 1, 1, false, false, 1,
    [⟨.PW_WDKICK, 15, 0, .wo, 0, false⟩]⟩,
  ⟨0x86000A, 0, 1, 0, 1, 1, false, false, 1,
    [⟨.PW_SUP_OK, 7, 0, .ro, 0, false⟩]⟩,
  ⟨0x86000B, 0, 1, 0, 1, 1, false, false, 1,
    [⟨.PW_CLK_CLKSEL, 0, 0, .ro, 0, false⟩, ⟨.PW_CLK_MPLOCK, 1, 1, .ro, 0, false⟩, ⟨.PW_CLK_DPLOCK, 2, 2, .ro, 0, false⟩, ⟨.PW_CLK_LPLOCK, 6, 3, .ro, 0, false⟩]⟩,
  ⟨0x860010, 4, 5, 0, 1, 1, false, false, 1,
    [⟨.PW_TCCTL_RUN, 0, 0, .rw, 0, false⟩, ⟨.PW_TCCTL_HELD, 1, 1, .ro, 0, false⟩]⟩,
  ⟨0x860012, 4, 5, 0, 1, 2, false, false, 1,
    [⟨.PW_TCSTART, 23, 0, .rw, 0, false⟩]⟩]

/-- Every register of the device. -/
def regTable : List RegRow :=
  regsDM0 ++
  regsDM1 ++
  regsFL0 ++
  regsFL1 ++
  regsFL2 ++
  regsFL3 ++
  regsLN0 ++
  regsLN1 ++
  regsLN2 ++
  regsLN3 ++
  regsDL0 ++
  regsDD0 ++
  regsSL0 ++
  regsSL1 ++
  regsSL2 ++
  regsWR0 ++
  regsWP0 ++
  regsWP1 ++
  regsPH0 ++
  regsPH1 ++
  regsEV0 ++
  regsEV1 ++
  regsCT0 ++
  regsXC0 ++
  regsXC1 ++
  regsMPU0 ++
  regsUC0 ++
  regsIR0 ++
  regsLS0 ++
  regsDMA0 ++
  regsD40 ++
  regsMS0 ++
  regsRC0 ++
  regsRC1 ++
  regsHG0 ++
  regsHG1 ++
  regsIM0 ++
  regsOT0 ++
  regsDR0 ++
  regsDR1 ++
  regsPW0

/-- Where a word address falls in a register's array: its two indices and the word within the register. -/
def RegRow.locate (r : RegRow) (a : Nat) : Option (Nat × Nat × Nat) :=
  if a < r.base then none
  else
    let d := a - r.base
    let i := if r.iStep = 0 then 0 else d / r.iStep
    let e := if r.iStep = 0 then d else d % r.iStep
    let j := if r.jStep = 0 then 0 else e / r.jStep
    let w := if r.jStep = 0 then e else e % r.jStep
    if i < r.iCount ∧ j < r.jCount ∧ w < r.words then some (i, j, w) else none

/-- The register at a word address, with its indices and the word within it (none: a reserved offset of R10 or no
register). -/
def findReg (a : Nat) : Option (RegRow × Nat × Nat × Nat) :=
  regTable.findSome? fun r => (r.locate a).map fun p => (r, p)

end Sys2Proof.Machine
end

