-- ==== Sys2Proof/Machine/ImageForm.lean ====
section
/-! DEFINITION. The form of the signed images and of the boot flash (17_images_startup_attestation.md, R391 to R398 and
R402 to R404): the flash and its directory, the header, the verification checks, and the content of a structure image. -/
namespace Sys2Proof.Machine

/-! The boot flash (R394). Each byte stands in State as the bits that are programmed to 0. -/

/-- The byte at a flash address. -/
def State.flashByte (s : State) (a : Nat) : Byte := 0xFF#8 ^^^ cellGet s.flash a

/-- `n` bytes from a flash address. -/
def flashBytes (s : State) (a n : Nat) : List Byte := (List.range n).map fun i => s.flashByte (a + i)

/-- Programming a byte clears bits and sets none. -/
def flashProgram (s : State) (a : Nat) (b : Byte) : State :=
  { s with flash := cellSet s.flash a (cellGet s.flash a ||| (0xFF#8 ^^^ b)) }

/-- Program bytes from an address on. -/
def flashWrite (s : State) (a : Nat) (l : List Byte) : State :=
  s.each (List.range l.length) fun s i => flashProgram s (a + i) (l.getD i 0)

/-- Erase `n` bytes from an address on. -/
def flashErase (s : State) (a n : Nat) : State := { s with flash := s.flash.filter fun c => !(decide (a ≤ c.1 ∧ c.1 < a + n)) }

/-- The device may write the flash: it has a valid SFDP header (R394), and no operation is in progress (R430). -/
def flashFree (s : State) : Bool := !s.bit .flashRo && !s.bit .flashBusy

/-! The directory (R395). -/

/-- A number of `n` bytes at an offset of the directory copy at `base`. -/
def dirNat (s : State) (base off n : Nat) : Nat := leNat (flashBytes s (base + off) n)

/-- The regions of a directory copy: the eight slots, the log and the identity region, as offset and size. -/
def dirRegions (s : State) (base : Nat) : List (Nat × Nat) :=
  (List.range 10).map fun i =>
    let off := if i < 8 then 8 + 8 * i else 76 + 8 * (i - 8)
    (dirNat s base off 4, dirNat s base (off + 4) 4)

/-- Two regions share a byte. -/
def overlaps (a b : Nat × Nat) : Bool := decide (a.1 < b.1 + b.2 ∧ b.1 < a.1 + a.2)

/-- No two of a list overlap. -/
def disjoint : List (Nat × Nat) → Bool
  | [] => true
  | a :: l => !(l.any fun b => overlaps a b) && disjoint l

/-- A directory copy is valid (R395). -/
def dirValid (s : State) (base : Nat) : Bool :=
  flashBytes s base 4 == [0x57#8, 0x44#8, 0x49#8, 0x52#8] &&
  crc32 (flashBytes s base 4092) == BitVec.ofNat 32 (dirNat s base 4092 4) &&
  disjoint ((0, 0x2000) :: dirRegions s base) &&
  (dirRegions s base).all fun g => decide (g.1 + g.2 ≤ s.nat .flashSize)

/-- The copy in use: the valid one of the higher SEQ (R395). -/
def dirInUse (s : State) : Option Nat :=
  let a := dirValid s 0
  let b := dirValid s 0x1000
  if a && b then some (if dirNat s 0 4 4 < dirNat s 0x1000 4 4 then 0x1000 else 0)
  else if a then some 0 else if b then some 0x1000 else none

/-- Offset and size of slot `sl` (0 A, 1 B) of kind `k` (R395). -/
def slotRegion (s : State) (base k sl : Nat) : Nat × Nat :=
  (dirNat s base (8 + 8 * (2 * (k - 1) + sl)) 4, dirNat s base (12 + 8 * (2 * (k - 1) + sl)) 4)

/-- The preferred slot of a kind, and whether the preferred firmware slot is on trial (R395). -/
def preferred (s : State) (base k : Nat) : Nat := (s.flashByte (base + 72) >>> (k - 1)).toNat % 2
def onTrial (s : State) (base : Nat) : Bool := (s.flashByte (base + 73)).toNat % 2 == 1

/-- The directory is written to the other copy, with SEQ + 1 and new PREF and TRIAL bytes (R395). -/
def dirWrite (s : State) (base : Nat) (pref trial : Byte) : State :=
  if s.bit .flashRo then s
  else
    let other := 0x1000 - base
    let seq := leBytes 4 ((dirNat s base 4 4 + 1 : Nat) : Int)
    let l := (flashBytes s base 4) ++ seq ++ (flashBytes s (base + 8) 64) ++ [pref, trial] ++ flashBytes s (base + 74) 4018
    let crc := leBytes 4 (((crc32 l).toNat : Nat) : Int)
    flashWrite (flashErase s other 0x1000) other (l ++ crc)

/-- PREF with kind `k` preferring slot `sl`. -/
def prefByte (s : State) (base k sl : Nat) : Byte :=
  let old := s.flashByte (base + 72)
  let m : Byte := 1#8 <<< (k - 1)
  if sl = 1 then old ||| m else old &&& (0xFF#8 ^^^ m)

/-! Images (R391 to R393). -/

/-- The largest body of a kind (R391). -/
def largestBody (k : Nat) : Nat := if k = 1 then 0x80000 else if k = 3 then 0x40000 else 0x4000

/-- An image as read from flash: its header and its body. -/
structure Image where
  head : List Byte
  body : List Byte
  deriving DecidableEq, Repr

/-- The image in slot `sl` of kind `k`. -/
def readImage (s : State) (base k sl : Nat) : Image :=
  let (off, size) := slotRegion s base k sl
  let head := flashBytes s off 256
  let len := leNat ((head.drop 8).take 4)
  ⟨head, flashBytes s (off + 256) (min len (min (largestBody k) (size - 256)))⟩

/-- A header field of `n` bytes. -/
def Image.num (m : Image) (off n : Nat) : Nat := leNat ((m.head.drop off).take n)
/-- The key slot, the version, the public key and the signature of an image. -/
def Image.keySlot (m : Image) : Nat := m.num 5 1
def Image.version (m : Image) : Nat := m.num 6 1
def Image.pubKey (m : Image) : List Byte := (m.head.drop 20).take 97
def Image.sig (m : Image) : List Byte := (m.head.drop 128).take 96
/-- The image digest: SHA-384 over header bytes 0 to 127 followed by the body (R392). -/
def Image.digest (m : Image) : List Byte := Config.sha384 (m.head.take 128 ++ m.body)

/-- Check 1 (R393). -/
def imageForm (m : Image) (k : Nat) : Bool :=
  m.head.take 4 == [0x57#8, 0x52#8, 0x44#8, 0x31#8] && m.num 4 1 == k && m.num 7 1 == 0 &&
  m.num 8 4 % 4 == 0 && decide (m.num 8 4 ≤ largestBody k) && m.body.length == m.num 8 4 &&
  (k == 1 || (m.num 12 4 == 0 && m.num 16 4 == 0)) &&
  ((m.head.drop 117).take 11).all (· == 0#8) && ((m.head.drop 224).take 32).all (· == 0#8)

/-- The active customer slot, 7 where there is none (R397). -/
def activeSlot (s : State) : Nat :=
  ((List.range 4).find? fun i => s.bitOf .OT_STATUS_KSPROG i && !s.bitOf .OT_STATUS_KSREV i).getD 7

/-- Provisioning mode: no customer slot is programmed (R393). -/
def provisioning (s : State) : Bool := s.get .OT_STATUS_KSPROG == 0

/-- The key hash of a customer slot. -/
def keyHash (s : State) (i : Nat) : List Byte := s.keyHashes.getD i []

/-- Check 2 (R393, R391): kinds 1 and 2 take the vendor key, kinds 3 and 4 the active customer key, and the vendor key in
provisioning mode only. -/
def imageKey (s : State) (m : Image) (k : Nat) : Bool :=
  let h := Config.sha384 m.pubKey
  if k = 1 ∨ k = 2 ∨ provisioning s = true then m.keySlot == 0xFF && h == Config.vendorHash
  else m.keySlot == activeSlot s && decide (activeSlot s < 4) && h == keyHash s m.keySlot

/-! Microcode images (R312, R393). -/

/-- Every microword and entry would be accepted under R310; the page mask names the pages written, within the image's own range
(R299, R312). -/
def microcodeGood (k : Nat) (body : List Byte) : Bool :=
  let (mw, en) := Config.microcodeOf body
  let mask := Config.pageMask body
  let own := fun (m lim : Nat) => if k = 2 then decide (m ≥ lim) else decide (m < lim)
  decide (mask < 2 ^ 16) && ((List.range 16).all fun pg => !mask.testBit pg || own pg 12) &&
  (mw.all fun e => decide (e.1 < 1024) && mask.testBit (e.1 / 64) && microwordLegal e.1 e.2) &&
  en.all fun e => decide (e.1 < 32) && own e.1 24

/-! Structure images (R402 to R404). -/

/-- A record of a structure image with its section. -/
structure ImgRec where
  sec : Nat
  inst : Nat
  addr : Nat
  kind : Nat
  lsb : Nat
  val : Nat
  deriving DecidableEq, Repr

/-- The records of a section's content. -/
def sectionRecs (sec inst : Nat) (l : List Byte) : List ImgRec :=
  (List.range (l.length / 8)).map fun i =>
    let r := l.drop (8 * i)
    ⟨sec, inst, leNat (r.take 4), leNat ((r.drop 4).take 1), leNat ((r.drop 5).take 1), leNat ((r.drop 6).take 2)⟩

/-- The records of a body, section by section; none where a section is not whole, its length is no multiple of 8, or the
sections are not in ascending order. `fuel` is at least the number of sections. -/
def bodyRecs : Nat → Nat → List Byte → Option (List ImgRec)
  | 0, _, l => if l.isEmpty then some [] else none
  | fuel + 1, last, l =>
    if l.isEmpty then some []
    else
      let id := leNat (l.take 2)
      let inst := leNat ((l.drop 2).take 2)
      let len := leNat ((l.drop 4).take 4)
      if l.length < 8 + len ∨ len % 8 ≠ 0 ∨ 65536 * id + inst < last then none
      else (bodyRecs fuel (65536 * id + inst + 1) (l.drop (8 + len))).map (sectionRecs id inst ((l.drop 8).take len) ++ ·)

/-- The records of a structure image's body. -/
def imageRecs (body : List Byte) : Option (List ImgRec) := bodyRecs (body.length / 8) 0 body

/-- The value that a field shows as a number: its bits, or the signed number in them. -/
def FieldRow.show (f : FieldRow) (raw : Int) : Int := if f.sgn = 0 then raw else signed f.sgn raw

/-- A field that a record names: the field at its address and bit, and the part of the field's bits that it gives. -/
structure ImgField where
  row : FieldRow
  key : Key
  kind : Nat
  part : Int
  deriving DecidableEq, Repr

/-- The fields that an image loads although their tables give a reset value: the lock list (R402, R208) and the vector bases
(R402). -/
def imageExtra : List Fld := [.EV_LOCK, .XC_VBASE]

/-- The field of a record, if its address and bit name one and its value fits the field's bits in that word. -/
def recField (r : ImgRec) : Option ImgField :=
  match findReg r.addr with
  | none => none
  | some (reg, i, j, w) =>
    let b := 16 * w + r.lsb
    match reg.fields.find? fun f => decide (f.lo ≤ b ∧ b ≤ f.hi) && (f.img || imageExtra.contains f.fld) with
    | none => none
    | some f =>
      let room := min f.hi (16 * w + 15) + 1 - b
      if r.lsb > 15 ∨ r.val ≥ 2 ^ room then none
      else some ⟨f, ⟨f.fld, i, j⟩, r.kind, shl r.val (b - f.lo)⟩

/-- The fields that the records of an image name. -/
def imageFields (l : List ImgRec) : List ImgField := l.filterMap recField

/-- The value, minimum or maximum (`kind` 0, 1, 2) that an image gives a field, if it names one. -/
def imageValue (l : List ImgField) (row : FieldRow) (k : Key) (kind : Nat) : Option Int :=
  match l.filter fun e => e.key = k ∧ e.kind = kind with
  | [] => none
  | es => some (row.show (sumI (es.map (·.part))))

/-- Every field whose reset column reads "image", with each of its indices. -/
def imageKeys : List (FieldRow × Key) :=
  regTable.flatMap fun r => (r.fields.filter (·.img)).flatMap fun f =>
    (List.range r.iCount).flatMap fun i => (List.range r.jCount).map fun j => (f, ⟨f.fld, i, j⟩)

/-- The rail is defined: it has member phases. -/
def railDefined (t : State) (r : Nat) : Bool := !(railSlots t r).isEmpty

/-- Publisher numbers that no block has (R478). -/
def reservedPublisher (h : Nat) : Bool := decide (93 ≤ h ∧ h ≤ 95) || decide (208 ≤ h)

/-- The fields whose reset column reads "image" and whose values follow from other fields. -/
def derivedFields : List Fld := [.DM_RAILSTAT_STATE, .PH_RSTAT_NSPAV, .WP_RSTAT_RLEFT]

/-- The values that the tables fix for some instances of a field whose reset column reads "image": the owner and the WRAPSEL of a
scatter-gather channel (R367), and the DUTY of the management core (R341). -/
def loadFixed (s : State) (p : Fld → Bool) : State :=
  let s := s.when (p .DMA_CFG_OWNER) (·.each [12, 13, 14, 15] fun s c => (s.put .DMA_CFG_OWNER 5 c).clear .DMA_CFG_WRAPSEL c)
  s.when (p .LS_PAIR_DUTY) (·.put .LS_PAIR_DUTY 7 5)

/-- The values at reset that follow from other fields: the state of a rail (R37), the spares available (R196), the
retries left (R180), and the enable of a reserved publisher (R478). -/
def loadDerived (s : State) (p : Fld → Bool) : State :=
  let s := s.when (p .DM_RAILSTAT_STATE) (·.each (List.range 16) fun s r => s.put .DM_RAILSTAT_STATE (bit01 (railDefined s r)) r)
  let s := s.when (p .PH_RSTAT_NSPAV) (·.each (List.range 16) fun s r =>
    s.put .PH_RSTAT_NSPAV ((railSlots s r).filter fun j => s.bit .PH_PSTAT_SPARE (slotPhase s r j)).length r)
  let s := s.when (p .WP_RSTAT_RLEFT) (·.each (List.range 16) fun s r => s.put .WP_RSTAT_RLEFT (s.get .WP_RETRY_RETRY r) r)
  s.when (p .EV_HWPUB_EN) (·.each ((List.range 256).filter reservedPublisher) fun s h => s.clear .EV_HWPUB_EN h)

/-- Load the fields that an image names, and 0 where it names none, for the fields that `p` picks (R403). -/
def loadFields (s : State) (l : List ImgField) (p : Fld → Bool) : State :=
  let s := s.each (imageKeys.filter fun e => p e.2.fld) fun s e => s.put e.2.fld ((imageValue l e.1 e.2 0).getD 0) e.2.i e.2.j
  loadFixed (loadDerived s p) p

/-- Load those of the other fields that an image names. -/
def loadExtra (s : State) (l : List ImgField) (p : Fld → Bool) : State :=
  s.each (l.filter fun e => !e.row.img && e.kind == 0 && p e.key.fld) fun s e =>
    s.put e.key.fld ((imageValue l e.row e.key 0).getD 0) e.key.i e.key.j

/-- The bounds that an image gives (R36, R403). -/
def imageBounds (l : List ImgField) : List Bound :=
  (imageKeys.filter fun e => l.any fun x => x.key = e.2 ∧ x.kind ≠ 0).map fun e =>
    ⟨e.2, (imageValue l e.1 e.2 1).getD (-(2 ^ 63)), (imageValue l e.1 e.2 2).getD (2 ^ 63)⟩

/-- Every block output, in the order in which an image's assignments are numbered. -/
def allOutputs : List BlockOutput :=
  let per := fun (n : Nat) (f : Nat → BlockOutput) => (List.range n).map f
  (List.range 16).flatMap (fun c => per 5 (.flumeCluster c)) ++ (List.range 2).flatMap (fun g => per 3 (.flumeGroup g)) ++
  per 3 .flumeAux ++ [.allotment, .enableStuck] ++ per 16 .lane ++ per 16 .sluice ++ per 8 .demandLane ++ per 16 .weirCluster ++
  per 16 .weirRail ++ [.weirAux] ++ per 16 .protectionRail ++ per 16 .protectionCluster ++ per 16 .healthRail ++
  per 16 .healthCluster ++ [.stormGuard] ++ per 16 .dma ++ [.lockStep]

/-- The block outputs that an image assigns to interrupt sources (R315, log entry 11). -/
def imageLines (body : List Byte) : List IrqLine :=
  allOutputs.zipIdx.filterMap fun (o, x) =>
    match Config.imageSource body x with
    | some src => if 32 ≤ src ∧ src < 252 then some ⟨src, o⟩ else none
    | none => none

/-! The content checks of code 5 (R404), over the state that the image would load. -/

/-- The section and the instance that hold a register with index `i` (R402). -/
def ownSection (t : State) (reg : RegRow) (i : Nat) : Nat × Nat :=
  if reg.sec = 0 then
    (if i < 128 then (4, i) else if i < 160 then (3, (i - 128) / 2) else if i < 176 then (6, 0) else (1, 0))
  else if reg.sec = 2 then
    (2, if reg.base < 0x440800 ∧ reg.base ≥ 0x440000 then (laneDomain t i).getD 8 else i)
  else if reg.sec = 3 ∨ reg.sec = 4 ∨ reg.sec = 5 ∨ reg.sec = 9 then (reg.sec, i)
  else (reg.sec, 0)

/-- A record's address lies in the block and instance of its section. The layout of what no register of the tables shows
is not given: such an address lies in the section's own block (log entry 11). -/
def recordPlaced (t : State) (r : ImgRec) : Bool :=
  decide (1 ≤ r.sec ∧ r.sec ≤ 11) && decide (r.kind ≤ 2) &&
  (if r.sec = 11 then r.inst == 0 && r.kind == 0 && r.lsb == 0 && region r.addr == .sram
  else
    match findReg r.addr with
    | some (reg, i, _, _) =>
      if r.addr = 0x871540 ∨ r.addr = 0x871541 ∨ r.addr = 0x871543 then r.sec == 9 && r.inst == 5 && (recField r).isSome
      else ownSection t reg i == (r.sec, r.inst) && (recField r).isSome
    | none => (r.sec == 8 && decide (0x800000 ≤ r.addr ∧ r.addr < 0x810000)) ||
        (r.sec == 10 && decide (0x840000 ≤ r.addr ∧ r.addr < 0x850000)) || (r.sec == 2 && decide (0x414000 ≤ r.addr ∧ r.addr < 0x414100)))

/-- A bound that an image gives a field may stand there: those of a set-point are legal set-points (R77). -/
def boundGood (f : Fld) (b : Option Int) : Bool :=
  match b with
  | some v => f != .LN_VSET || legal f v
  | none => true

/-- Every value is legal and within its bounds, every minimum at most its maximum (R404). -/
def valuesGood (t : State) (l : List ImgField) : Bool :=
  (imageKeys.all fun e =>
    let v := t.get e.2.fld e.2.i e.2.j
    legal e.2.fld v && boundGood e.2.fld (imageValue l e.1 e.2 1) && boundGood e.2.fld (imageValue l e.1 e.2 2) &&
    (let num := numberOf t e.2.fld e.2.i
     let lo := imageValue l e.1 e.2 1
     let hi := imageValue l e.1 e.2 2
     (match lo with | some lo => decide (num lo ≤ num v) | none => true) &&
     (match hi with | some hi => decide (num v ≤ num hi) | none => true) &&
     (match lo, hi with | some lo, some hi => decide (num lo ≤ num hi) | _, _ => true)))

/-- No value stands twice in a list. -/
def noRepeat : List Nat → Bool
  | [] => true
  | x :: l => !l.contains x && noRepeat l

/-- Membership (R12 to R14): a phase in at most one rail; at most 8 spares and at least one other member; a domain is used
where it has rails; a lane is bound to at most one domain. -/
def membershipGood (t : State) : Bool :=
  noRepeat ((List.range 16).flatMap fun r => (railSlots t r).map (slotPhase t r)) &&
  ((List.range 16).all fun r => !railDefined t r ||
    (decide (((railSlots t r).filter fun j => t.bit .LN_MAP_SPARE r j).length ≤ 8) &&
      (railSlots t r).any fun j => !t.bit .LN_MAP_SPARE r j)) &&
  ((List.range 8).all fun d => t.bit .DM_DOMCFG_USED d ==
    (List.range 16).any fun r => railDefined t r && t.nat .DM_RAILCFG_DOMAIN r == d) &&
  noRepeat (((List.range 8).filter fun d => t.bit .DM_DOMCFG_LANEV d).map fun d => t.nat .DM_DOMCFG_LANE d)

/-- The rails whose predecessors can all be settled, after `n` rounds. -/
def settled (t : State) : Nat → List Nat
  | 0 => []
  | n + 1 =>
    let l := settled t n
    (List.range 16).filter fun r => (predecessors t r).all l.contains

/-- The sequencing graph (R30): no cycle, no entry naming the rail itself or a rail that is not defined. -/
def graphGood (t : State) : Bool :=
  ((List.range 16).all fun r => (predecessors t r).all fun q => q != r && railDefined t q) &&
  (settled t 16).length == 16

/-- The channels that an event on channel `ch` leads to by configuration alone (R201, R478): a started capture timer that
publishes, a triggered DMA channel, a commit and an insertion. -/
def routesFrom (t : State) (ch : Nat) : List Nat :=
  let armed := fun n => t.bit .EV_TOCFG_EN n && t.nat .EV_TOCFG_CH n == ch
  let pub := fun h => if t.bit .EV_HWPUB_EN h then [t.nat .EV_HWPUB_CH h] else []
  ((List.range 32).flatMap fun u => if armed (2 * u + 1) && t.bit .CT_CFG_OUTEN u then [t.nat .CT_CFG_OUTCH u] else []) ++
  ((List.range 16).flatMap fun i => (if armed (64 + i) then pub (192 + i) else []) ++
    (if armed (80 + i) then pub (96 + i) else []) ++ (if armed (96 + i) then pub (112 + i) else []))

/-- The channels from which no route goes on for ever, after `n` rounds. -/
def routesEnd (t : State) : Nat → List Nat
  | 0 => []
  | n + 1 =>
    let l := routesEnd t n
    (List.range 64).filter fun ch => (routesFrom t ch).all l.contains

/-- No static cycle through the event routes (R404). -/
def routesGood (t : State) : Bool := (routesEnd t 64).length == 64

/-- The bases that must lie in their memories (R404, R283, R361). -/
def placesGood (t : State) : Bool :=
  let b := t.nat .RC_BASE
  decide (popCount (t.get .RC_STGMASK) ≤ 8) &&
  (t.get .D4_CFG_SIZE == 0 || (b % 0x10000000 == 0 && decide (0x80000000 ≤ b ∧ b + 0x10000000 ≤ 0x80000000 + ddrWords t - 0x100000))) &&
  (t.get .XC_GTBASE == 0 || (region (t.nat .XC_GTBASE) == .sram && region (t.nat .XC_GTBASE + 15) == .sram))

/-- HI > LO on every weir and PHDROP < PHADD on every rail (R404) (R158). -/
def windowsGood (t : State) : Bool :=
  ((List.range 184).all fun w => decide (thresholdCode t w (t.get .WR_HI w) > thresholdCode t w (t.get .WR_LO w))) &&
  ((List.range 16).all fun r => decide (t.get .PH_SHDROP r < t.get .PH_SHADD r))

/-- A state that an image alone makes: what the device knows of its board, and the image's fields. -/
def scratch (l : List ImgField) : State := loadFields State.reset l fun _ => true

/-- The content checks of a structure image (R404). -/
def structureGood (body : List Byte) : Bool :=
  match imageRecs body with
  | none => false
  | some recs =>
    let l := imageFields recs
    let t := scratch l
    recs.all (recordPlaced t) && valuesGood t l && membershipGood t && graphGood t && windowsGood t && routesGood t && placesGood t

/-- The code of the first check that an image fails, 0 where it is verified (R393). -/
def verifyCode (s : State) (m : Image) (k : Nat) : Int :=
  if !imageForm m k then 1
  else if !imageKey s m k then 2
  else if !Config.ecdsaVerify m.pubKey m.digest m.sig then 3
  else if (m.version : Int) < s.get .OT_CNT_VAL (k - 1) then 4
  else if k = 3 then (if structureGood m.body then 0 else 5)
  else if k = 1 then 0
  else if microcodeGood k m.body then 0 else 5

/-- The crypto engine's result (IM_VRES). -/
def putResult (s : State) (code : Int) (k : Nat) : State := (s.put .IM_VRES_CODE code).put .IM_VRES_KIND k

end Sys2Proof.Machine
end

