-- ==== Sys2Proof/Machine/FlashLog.lean ====
section
/-! DEFINITION. The wear-levelled flash log (18_background_services.md, R429 to R431): its sectors and records, the
records that events ask for, and the restoring of counts and retirements at start-up. -/
namespace Sys2Proof.Machine

/-- A valid record of the log. -/
structure LogRec where
  typ : Nat
  seq : Nat
  payload : List Byte
  deriving DecidableEq, Repr

/-- The log region: its first address and its number of 4 KiB sectors (R395, R429). -/
def logRegion (s : State) : Nat × Nat :=
  match dirInUse s with
  | some base => (dirNat s base 76 4, dirNat s base 80 4 / 4096)
  | none => (0, 0)

/-- First address of a sector. -/
def sectorAt (s : State) (i : Nat) : Nat := (logRegion s).1 + 4096 * i

/-- The sector has a header. -/
def sectorValid (s : State) (i : Nat) : Bool := flashBytes s (sectorAt s i) 4 == [0x4C#8, 0x4F#8, 0x47#8, 0x31#8]

/-- Sector SEQ and erase count of a sector's header. -/
def sectorSeq (s : State) (i : Nat) : Nat := leNat (flashBytes s (sectorAt s i + 4) 4)
def sectorErases (s : State) (i : Nat) : Nat := leNat (flashBytes s (sectorAt s i + 8) 4)

/-- The records from offset `o` of the sector at address `a`: those whose CRC is good, and the offset at which the next one
would stand, if the rest is erased. A record with a bad CRC is passed over (R431). -/
def recordsFrom (s : State) (a : Nat) : Nat → Nat → List LogRec × Option Nat
  | 0, _ => ([], none)
  | fuel + 1, o =>
    if o + 12 > 4096 then ([], some o)
    else
      let h := flashBytes s (a + o) 8
      if h.all (· == 0xFF#8) then
        ([], if (flashBytes s (a + o) (4096 - o)).all (· == 0xFF#8) then some o else none)
      else
        let len := leNat ((h.drop 2).take 2)
        if o + 12 + len > 4096 then ([], none)
        else
          let r := flashBytes s (a + o) (8 + len)
          let (l, e) := recordsFrom s a fuel (o + 12 + len)
          if crc32 r == BitVec.ofNat 32 (leNat (flashBytes s (a + o + 8 + len) 4)) then
            (⟨leNat (h.take 2), leNat (h.drop 4), r.drop 8⟩ :: l, e)
          else (l, e)

/-- A sector's records, and where the next one goes. -/
def sectorRecords (s : State) (i : Nat) : List LogRec × Option Nat :=
  if sectorValid s i then recordsFrom s (sectorAt s i) 341 16 else ([], none)

/-- Every valid record of the log. -/
def logRecords (s : State) : List LogRec := (List.range (logRegion s).2).flatMap fun i => (sectorRecords s i).1

/-- The sector being written: the one of the highest SEQ. -/
def currentSector (s : State) : Option Nat :=
  ((List.range (logRegion s).2).filter (sectorValid s)).foldl
    (fun b i => match b with
      | none => some i
      | some j => if sectorSeq s j < sectorSeq s i then some i else some j) none

/-- The SEQ of the next record. -/
def nextSeq (s : State) : Nat := ((logRecords s).map (·.seq)).foldl max 0 + 1

/-- The SEQ of the newest CHECKPOINT. -/
def checkpointSeq (s : State) : Nat := (((logRecords s).filter (·.typ == 1)).map (·.seq)).foldl max 0

/-! Records (R429). -/

/-- A mask of 128 phases as 16 bytes. -/
def phaseMask (f : Nat → Bool) : List Byte := leBytes 16 (maskOf 128 f)

/-- Member phases in ascending order. -/
def memberPhases (s : State) : List Nat := (List.range 128).filter fun p => (memberOf s p).isSome

/-- The retired DDR4 pages that stand in the remap list, and those beyond it (R349). -/
def listedPages (s : State) : List Nat :=
  ((List.range (min 512 (s.nat .D4_NRET))).filter fun i => s.bit .D4_RET_V i).map fun i => s.nat .D4_RET_PAGE i
def overflowPages (s : State) : List Nat :=
  ((List.range (s.nat .D4_NRET - 512)).filter fun i => s.bit .D4_RETX_V i).map fun i => s.nat .D4_RETX_PAGE i

/-- The payload of a CHECKPOINT (R429). -/
def checkpointBody (s : State) : List Byte :=
  let ph := memberPhases s
  let pg := listedPages s
  let ret := fun p => s.bit .PH_PSTAT_RET p
  leBytes 2 ph.length ++ leBytes 2 pg.length ++ leBytes 12 0 ++
  (ph.flatMap fun p => leBytes 4 (s.get .PH_CHG p) ++ leBytes 4 (s.get .PH_HCYC p) ++ leBytes 4 (s.get .PH_STARTS p)) ++
  phaseMask ret ++
  ((List.range 64).flatMap fun b => leBytes 1 ((if ret (2 * b) then s.get .PH_PSTAT_RCAUSE (2 * b) else 0) +
    16 * (if ret (2 * b + 1) then s.get .PH_PSTAT_RCAUSE (2 * b + 1) else 0))) ++
  pg.flatMap fun p => leBytes 4 (p : Nat)

/-- The bytes of a record. -/
def recordBytes (typ seq : Nat) (payload : List Byte) : List Byte :=
  let r := leBytes 2 typ ++ leBytes 2 payload.length ++ leBytes 4 seq ++ payload
  r ++ leBytes 4 (((crc32 r).toNat : Nat) : Int)

/-- Append to sector `i` at offset `o`. -/
def putRecord (s : State) (i o typ : Nat) (payload : List Byte) : State :=
  flashWrite s (sectorAt s i + o) (recordBytes typ (nextSeq s) payload)

/-- A record of a payload fits a sector from offset `o`. -/
def recordFits (o : Nat) (payload : List Byte) : Bool := decide (o + 12 + payload.length ≤ 4096)

/-- Open the sector after `i`: erase it and write its header. Where it holds the newest CHECKPOINT or anything after it, a
new CHECKPOINT is written first: in the sector in hand where it has room, else at the head of the new one (R430). -/
def openSector (s : State) (cur : Option Nat) : State × Nat × Nat :=
  let n := (logRegion s).2
  let i := match cur with
    | some j => (j + 1) % n
    | none => 0
  let seq := match cur with
    | some j => sectorSeq s j + 1
    | none => 1
  let needs := (sectorRecords s i).1.any fun r => decide (r.seq ≥ checkpointSeq s) && decide (checkpointSeq s > 0)
  let room := match cur with
    | some j => (sectorRecords s j).2.filter fun o => recordFits o (checkpointBody s)
    | none => none
  let s := match cur, room with
    | some j, some o => if needs then putRecord s j o 1 (checkpointBody s) else s
    | _, _ => s
  let late := needs && room.isNone
  let erases := if sectorValid s i then sectorErases s i + 1 else 1
  let next := nextSeq s
  let s := flashErase s (sectorAt s i) 4096
  let s := flashWrite s (sectorAt s i) ([0x4C#8, 0x4F#8, 0x47#8, 0x31#8] ++ leBytes 4 seq ++ leBytes 4 erases)
  if late then
    let r := recordBytes 1 next (checkpointBody s)
    (flashWrite s (sectorAt s i + 16) r, i, 16 + r.length)
  else (s, i, 16)

/-- LOG_RECORD (R430): the oldest record that waits is appended, where the controller is free; it is then busy. -/
def logNext (s : State) : State :=
  match s.logQueue with
  | [] => s
  | (typ, body) :: rest =>
    if !flashFree s || (logRegion s).2 == 0 then s
    else
      let s := { s with logQueue := rest }
      let cur := currentSector s
      let place := match cur with
        | some i => ((sectorRecords s i).2.filter fun o => recordFits o body).map fun o => (i, o)
        | none => none
      let s := match place with
        | some (i, o) => putRecord s i o typ body
        | none =>
          let (s, i, o) := openSector s cur
          putRecord s i o typ body
      s.raise .flashBusy

/-- A record joins those that wait. -/
def logPush (s : State) (typ : Nat) (body : List Byte) : State := { s with logQueue := s.logQueue ++ [(typ, body)] }

/-- A CHECKPOINT is queued, with a DDRPAGE record for each page of the overflow list after it (R429). -/
def logCheckpoint (s : State) : State :=
  let s := logPush s 1 (checkpointBody s)
  let s := s.each (overflowPages s) fun s p => logPush s 4 (leBytes 4 (p : Nat))
  let s := s.each (List.range 128) fun s p => s.put .retLogged (s.get .PH_PSTAT_RET p) p
  ((s.put .nretLogged (s.get .D4_NRET)).put .ckAt s.now).clear .ckDue

/-- The records of the events since the last round (R430): retirements, returns, retired pages and faults. -/
def logEvents (s : State) : State :=
  let tick := fun (t : Int) => leBytes 6 (unsigned 48 t)
  let s := s.each (List.range 128) fun s p =>
    if s.bit .PH_PSTAT_RET p && !s.bit .retLogged p then
      (logPush s 2 (leBytes 1 (p : Nat) ++ leBytes 1 (s.get .PH_PSTAT_RCAUSE p) ++ tick (s.get .retAt p))).raise .retLogged p
    else if !s.bit .PH_PSTAT_RET p && s.bit .retLogged p then
      (logPush s 3 (leBytes 1 (p : Nat) ++ leBytes 7 0)).clear .retLogged p
    else s
  let pages := (listedPages s ++ overflowPages s).drop (s.nat .nretLogged)
  let s := (s.each pages fun s p => logPush s 4 (leBytes 4 (p : Nat))).put .nretLogged (s.get .D4_NRET)
  let s := s.each ((List.range 16).filter fun r => decide (s.get .faultAt r > s.get .logAt)) fun s r =>
    logPush s 5 (leBytes 1 (r : Nat) ++ leBytes 1 (s.get .WP_RSTAT_FCAUSE r) ++ tick (s.get .faultAt r))
  s.put .logAt s.now

/-- Task 2 of a round (R414, R430). -/
def logTask (s : State) : State :=
  let due := s.bit .ckDue || decide (s.now ≥ s.get .ckAt + 160000000 * s.get .DR_LOG_LOGPER)
  logNext (logEvents (if due then logCheckpoint s else s))

/-- FLASH_BUSY_END: the QSPI controller is free for the next operation (R430). -/
def flashBusyEnd (s : State) : State := if s.bit .flashBusy then logNext (s.clear .flashBusy) else s

/-! Restoring (R431). -/

/-- Records in ascending SEQ. -/
def seqInsert (r : LogRec) : List LogRec → List LogRec
  | [] => [r]
  | x :: l => if r.seq < x.seq then r :: x :: l else x :: seqInsert r l

/-- The retired phases with their causes, and the retired pages, after a record. -/
def applyRecord (a : List (Nat × Nat) × List Nat) (r : LogRec) : List (Nat × Nat) × List Nat :=
  let b0 := leNat (r.payload.take 1)
  match r.typ with
  | 2 => ((a.1.filter fun e => e.1 != b0) ++ [(b0, leNat ((r.payload.drop 1).take 1))], a.2)
  | 3 => (a.1.filter fun e => e.1 != b0, a.2)
  | 4 => (a.1, a.2 ++ [leNat (r.payload.take 4)])
  | _ => a

/-- What a CHECKPOINT holds beside the counts: the retired phases with their causes, and the pages. -/
def checkpointState (b : List Byte) : List (Nat × Nat) × List Nat :=
  let n := leNat (b.take 2)
  let pages := leNat ((b.drop 2).take 2)
  let mask := leNat ((b.drop (16 + 12 * n)).take 16)
  let cause := fun p => leNat ((b.drop (32 + 12 * n + p / 2)).take 1) / (if p % 2 = 0 then 1 else 16) % 16
  (((List.range 128).filter fun p => mask.testBit p).map fun p => (p, cause p),
    (List.range pages).map fun i => leNat ((b.drop (96 + 12 * n + 4 * i)).take 4))

/-- The counts of a CHECKPOINT go to the member phases in ascending order (DEDUCED, log entry 50). -/
def restoreCounts (s : State) (b : List Byte) : State :=
  s.each ((memberPhases s).zipIdx.filter fun e => decide (e.2 < leNat (b.take 2))) fun s e =>
    let at_ := fun o => (leNat ((b.drop (16 + 12 * e.2 + o)).take 4) : Int)
    ((((s.put .PH_CHG (at_ 0) e.1).clear .chgLow e.1).put .PH_HCYC (at_ 4) e.1).put .PH_STARTS (at_ 8) e.1)

/-- Start-up step 6 restores the newest CHECKPOINT and the records after it: counts, retirements, pages (R431). -/
def restoreLog (s : State) : State :=
  let l := logRecords s
  let cp := (l.filter (·.typ == 1)).foldl (fun (b : Option LogRec) r =>
    match b with
    | none => some r
    | some x => if x.seq < r.seq then some r else some x) none
  let seq := (cp.map (·.seq)).getD 0
  let later := (l.filter fun r => decide (r.seq > seq)).foldl (fun a r => seqInsert r a) []
  let body := (cp.map (·.payload)).getD []
  let (ret, pages) := later.foldl applyRecord (checkpointState body)
  let s := restoreCounts s body
  let s := s.each (ret.filter fun e => (memberOf s e.1).isSome) fun s e => retirePhase s e.1 e.2
  s.each pages fun s p => retAdd s p

def execFlashBusyEnd (s : State) : Out := .next (flashBusyEnd s)

end Sys2Proof.Machine
end

