-- ==== Sys2Proof/Machine/Ident.lean ====
section
/-! DEFINITION. Plant identification of the Ditch Rider (18_background_services.md, R421 to R428): the capture, the fit, its
judgement, the retune and its watch. The state of a run is the rail's DR_IDSTAT.CODE (R415, R432). -/
namespace Sys2Proof.Machine

/-- The codes of DR_IDSTAT (R432). -/
def idIdle : Int := 0
def idCapture : Int := 1
def idProcess : Int := 2
def idWatch : Int := 3
def idCommitted : Int := 4
def idNoChange : Int := 5
def idEnded : Int := 6
def idWindow : Int := 7
def idBadFit : Int := 8
def idBound : Int := 9
def idCommitErr : Int := 10
def idReverted : Int := 11

def idCode (s : State) (r : Nat) : Int := s.get .DR_IDSTAT_CODE r
def setIdCode (s : State) (r : Nat) (c : Int) : State := s.put .DR_IDSTAT_CODE c r

/-- The rail in capture or in processing: at most one (R421). -/
def idRail (s : State) : Option Nat := (List.range 16).find? fun r => idCode s r == idCapture || idCode s r == idProcess

/-- Every forecast slot on the rail is FREE (R421). -/
def slotsFree (s : State) (r : Nat) : Bool :=
  (List.range 8).all fun d => (List.range 8).all fun k => slotState s d k == slFREE || slotRail s d k != r

/-! The capture (R422, R423). -/

/-- The greatest value that the image allows an adjustable field of 16 bits. -/
def imageMax (s : State) (f : Fld) (r : Nat) : Int := ((s.boundOf ⟨f, r, 0⟩).map (·.2)).getD 0xFFFF

/-- The staging window is re-armed with the image's values (R423). -/
def idRearm (s : State) : State :=
  stgArm (((s.put .RC_STGMASK (s.get .idStg 0)).put .RC_STGTRGMASK (s.get .idStg 1)).put .RC_STGPRE (s.get .idStg 2))

/-- The slews are restored. -/
def idSlews (s : State) (r : Nat) : State :=
  (s.later .LN_SLEWUP (s.get .DR_IDSLEWUP r) r).later .LN_SLEWDN (s.get .DR_IDSLEWDN r) r

/-- A capture ends early with code 6 (R423); through FAULT the window is kept as a fault window. -/
def idAbort (s : State) (r : Nat) : State :=
  let s := setIdCode (idSlews s r) r idEnded
  if railState s r == stFAULT then s else idRearm s

/-- A run begins (R421, R422): the setpoint and the slews are saved, staging is borrowed and triggered. -/
def idStart (s : State) (r : Nat) : State :=
  let s := ((s.put .DR_IDBASE (s.written ⟨.LN_VSET, r, 0⟩) r).put .DR_IDSLEWUP (s.written ⟨.LN_SLEWUP, r, 0⟩) r).put .DR_IDSLEWDN
    (s.written ⟨.LN_SLEWDN, r, 0⟩) r
  let s := (s.later .LN_SLEWUP (imageMax s .LN_SLEWUP r) r).later .LN_SLEWDN (imageMax s .LN_SLEWDN r) r
  let s := stgTrigger (stgArm (((s.put .RC_STGMASK (2 ^ r)).put .RC_STGTRGMASK 0).put .RC_STGPRE 0))
  let s := ((s.put .idAt s.now).put .idNext 8192).put .idLast (s.get .DR_IDBASE r)
  setIdCode (s.clear .idCount r) r idCapture

/-- The conditions of a run at a round (R421). -/
def idMayStart (s : State) (r : Nat) : Bool :=
  s.bit .DR_CFG_ID && s.bit .DR_IDCFG_IDEN r && decide (s.get .idCount r ≥ s.get .DR_IDCFG_PER r) && (idRail s).isNone &&
  idCode s r != idWatch && s.bit .idReg r && railState s r == stREG && slotsFree s r && !s.bit .LN_TRFLAG_BURST r &&
  s.bit .DR_CFG_IDSTG && s.bit .RC_STATUS_STGARMED

/-- Half a period of the setpoint's square wave at an offset of the capture, in ticks (R422). -/
def idHalf (o : Nat) : Nat := 4096 / 2 ^ (o / 8192)

/-- The setpoint written at offset `o`. -/
def idValue (s : State) (r o : Nat) : Int :=
  let base := s.get .DR_IDBASE r
  let amp := s.get .DR_IDCFG_AMP r
  if o ≥ 65536 then base else if (o % 8192) / idHalf o % 2 = 0 then base + amp else base - amp

/-- A record of the window: its body's word `w` (counted from word 4). -/
def idWord (s : State) (k w : Nat) : Int :=
  (s.wordAt (0x1000000 + 16 * ((s.nat .RC_STGTRIG + k) % 65536) + 4 + w)).toNat

/-- A record shows a freeze or a burst in force (R360, R423). -/
def idDisturbed (s : State) : Bool :=
  (List.range 65536).any fun k => bitAt (idWord s k 0) 11 || bitAt (idWord s k 0) 12

/-- v(k) and i(k) of the fit (R424). -/
def idV (s : State) (k : Nat) : Int := 16 * idWord s k 1 + signed 16 (idWord s k 2)
def idI (s : State) (k : Nat) : Int := signed 32 (idWord s k 5 + 65536 * idWord s k 6)

/-- The sums of the least-squares fit over k = 1 to 65,535 (R424), with x = i(k−1), z = i(k) − i(k−1), y = v(k) − v(k−1): in order
xx, xz, x, zz, z, yy, xy, zy, y. -/
def idSums (s : State) : List Int :=
  (List.range 65535).foldl (fun l k =>
    let x := idI s k
    let z := idI s (k + 1) - x
    let y := idV s (k + 1) - idV s k
    List.zipWith (· + ·) l [x * x, x * z, x, z * z, z, y * y, x * y, z * y, y]) (List.replicate 9 0)

/-- The capture is complete: the window's sums are formed, and staging is re-armed (R422 to R424). -/
def idComplete (s : State) (r : Nat) : State :=
  if idDisturbed s then idAbort s r
  else
    let s := s.each (idSums s).zipIdx fun s e => s.put .idFit e.1 e.2
    setIdCode (idRearm (idSlews s r)) r idProcess

/-- The capture's next write of LN_VSET is due (R422, R423): another writer's value, a refusal, or a rail that has left its
conditions ends the run. -/
def idStep (s : State) : State :=
  match (List.range 16).find? fun r => idCode s r == idCapture with
  | none => s
  | some r =>
    let o := s.nat .idNext
    if s.now < s.get .idAt + o then s
    else if s.written ⟨.LN_VSET, r, 0⟩ != s.get .idLast || railState s r != stREG || !slotsFree s r || s.bit .burstOn r ||
        s.bit .frzNow r then idAbort s r
    else
      let v := idValue s r o
      let s := (setpointWrite s r v).put .idLast v
      if o ≥ 65536 then idComplete s r else s.put .idNext ((o + idHalf o : Nat) : Int)

/-! The fit and its judgement (R424, R425). A fraction is a numerator and a positive denominator. -/

/-- The determinant of a 3 × 3 matrix given by rows. -/
def det3 (a b c d e f g h i : Int) : Int := a * (e * i - f * h) - b * (d * i - f * g) + c * (d * h - e * g)

/-- The solution of the normal equations over their determinant: a, b, c and the determinant. -/
def idSolve (s : State) : Int × Int × Int × Int :=
  let f := fun i => s.get .idFit i
  let n : Int := 65535
  let d := det3 (f 0) (f 1) (f 2) (f 1) (f 3) (f 4) (f 2) (f 4) n
  (det3 (f 6) (f 1) (f 2) (f 7) (f 3) (f 4) (f 8) (f 4) n, det3 (f 0) (f 6) (f 2) (f 1) (f 7) (f 4) (f 2) (f 8) n,
    det3 (f 0) (f 1) (f 6) (f 1) (f 3) (f 7) (f 2) (f 4) (f 8), d)

/-- The squared residuals, times the determinant. -/
def idResidual (s : State) (a b c d : Int) : Int :=
  let f := fun i => s.get .idFit i
  d * f 5 - a * f 6 - b * f 7 - c * f 8

/-- 2^IQSEL of a rail: the IQ LSB is 31.25 mA times it (R14). -/
def iqScale (s : State) (r : Nat) : Int := 2 ^ min 2 (s.nat .DM_RAILCFG_IQSEL r)

/-- L of a phase in 10 pH, rounded to nearest (R424): (VIN − V) × V / (VIN × f × ΔIpp); none where it is not defined. -/
def phaseL (s : State) (r p : Nat) : Option Int :=
  let vin := 80 * vinValue s
  let v := s.get .FL_VWREF r
  let d := vin * s.get .FL_PHRIP p * s.get .FL_PHGAIN p * iqScale s r
  if d ≤ 0 then none else some (roundAway (128 * (vin - v) * v * s.get .SL_RPER r) d)

/-- An insertion into a rising list. -/
def riseInsert (x : Int) : List Int → List Int
  | [] => [x]
  | y :: l => if x < y then x :: y :: l else y :: riseInsert x l

/-- The median over the active phases: of an even number, the mean of the middle two (log entry 44). Where no phase has a defined
value the spec states none: a free value (log entry 9). -/
def medianL (s : State) (r : Nat) : Int × State :=
  let l := ((activeSlots s r).filterMap fun j => phaseL s r (slotPhase s r j)).foldl (fun l x => riseInsert x l) []
  match l with
  | [] => let (i, s) := s.fresh; (Config.freeInt i, s)
  | _ => (roundAway (l.getD ((l.length - 1) / 2) 0 + l.getD (l.length / 2) 0) 2, s)

/-- k of R426 as a fraction: C / CDES limited to 1 ± STEP/256, with C = 5 × 2^IQSEL × det / (32 × a) in 10 µF. -/
def retuneK (s : State) (r : Nat) (cn cd : Int) : Int × Int :=
  let n := cn
  let d := cd * s.get .DR_IDCDES r
  let st := s.get .DR_IDTUNE_STEP r
  if 256 * n < (256 - st) * d then (256 - st, 256) else if 256 * n > (256 + st) * d then (256 + st, 256) else (n, d)

/-- The fields that a retune scales. -/
def tuneFields : List Fld := [.LN_B0, .LN_B1, .LN_B2, .LN_KI]

/-- The retuned values and GEXP (R426): none where a value, or GEXP, falls outside its bounds. -/
def retuneValues (s : State) (r : Nat) (kn kd : Int) : Option (List Int × Int) :=
  let b := s.nat .LN_STATUS_ACTBANK r
  let old := tuneFields.map fun f => s.get f r b
  let out := fun (x : Int) => decide (x < -131072 ∨ 131071 < x)
  let first := old.map fun x => roundAway (x * kn) kd
  let g := s.get .LN_GEXP r b
  let (vals, g) := if first.any out then (old.map fun x => roundAway (x * kn) (2 * kd), g + 1) else (first, g)
  let good := g ≤ 10 && (s.inBound ⟨.LN_GEXP, r, 1 - b⟩ g) && !vals.any out &&
    (tuneFields.zip vals).all fun e => s.inBound ⟨e.1, r, 1 - b⟩ e.2
  if good then some (vals, g) else none

/-- Values are written into the inactive bank, COMMIT and KCAP follow (R427, R428). -/
def commitTune (s : State) (r : Nat) (vals : List Int) (g kcap : Int) : State :=
  let b := 1 - s.nat .LN_STATUS_ACTBANK r
  let s := s.each (tuneFields.zip vals) fun s e => bankWrite s e.1 r b e.2
  let s := bankWrite s .LN_GEXP r b g
  commitBank s r |>.later .LN_KCAP kcap r

/-- A retune (R426, R427): the active bank is copied; at the next round the new fields are written, committed and watched, and the
flags are cleared after the exchange. -/
def idRetune (s : State) (r : Nat) (kn kd : Int) : State :=
  match retuneValues s r kn kd with
  | none => setIdCode (s.clear .idStage r) r idBound
  | some (vals, g) =>
    if !s.bit .idStage r then copyBank (s.raise .idStage r) r
    else
    let s := s.clear .idStage r
    let act := s.nat .LN_STATUS_ACTBANK r
    let kcap := s.written ⟨.LN_KCAP, r, 0⟩
    let s := s.each (tuneFields.zipIdx) fun s e => s.put .idOld (s.get e.1 r act) r e.2
    let s := (s.put .idOld (s.get .LN_GEXP r act) r 4).put .idOld kcap r 5
    let s := s.put .idCdes (satU 16 (roundAway (s.get .DR_IDCDES r * kn) kd)) r
    let valid := bankValid s r (1 - act)
    let s := if valid then commitTune s r vals g (satU 16 (roundAway (kcap * kn) kd)) else commitBank s r
    if !valid then setIdCode s r idCommitErr
    else
      let s := s.raise .idClr r
      setIdCode (s.put .DR_IDSTAT_WLEFT (s.get .DR_IDTUNE_WATCH r) r) r idWatch

/-- k of the retune from the fit (R426). -/
def idScale (s : State) (r : Nat) : Int × Int :=
  let (a, _, _, d) := idSolve s
  retuneK s r (5 * iqScale s r * d) (32 * a)

/-- The end of processing: the results are reported and judged (R424, R425). A singular fit counts as a failed one. -/
def idJudge (s : State) (r : Nat) : State :=
  let (a, b, c, d) := idSolve s
  let q := iqScale s r
  if d ≤ 0 || a ≤ 0 || decide (idResidual s a b c d > 65535 * d * Config.resMax r * Config.resMax r) then setIdCode s r idBadFit
  else
    let cn := 5 * q * d
    let cd := 32 * a
    let (l, s) := medianL s r
    let s := ((s.put .DR_IDC (satU 16 (roundAway cn cd)) r).put .DR_IDESR (satU 16 (roundAway (4000 * b) (d * q))) r).put .DR_IDL
      (satU 16 l) r
    let des := s.get .DR_IDCDES r
    if cn < s.get .DR_IDCMIN r * cd || cn > s.get .DR_IDCMAX r * cd then setIdCode s r idWindow
    else if 256 * absI (cn - des * cd) < des * cd then setIdCode s r idNoChange
    else idRetune s r (idScale s r).1 (idScale s r).2

/-- The processing runs over later rounds, of which the spec gives no number: whether it ends in this one is a free value. -/
def idProcessing (s : State) (r : Nat) : State :=
  if railState s r == stRESTR then setIdCode (s.clear .idStage r) r idEnded
  else if s.bit .idStage r then idRetune s r (idScale s r).1 (idScale s r).2
  else
    let (i, s) := s.fresh
    if Config.freeBit i then idJudge s r else s

/-- A round of a watch (R428). -/
def idWatching (s : State) (r : Nat) : State :=
  if railState s r == stRESTR then setIdCode s r idEnded
  else if s.bitOf .LN_FLAG lnACCSAT r || s.bitOf .LN_FLAG lnINTCLP r || s.bit .WP_RFLAG_OV r || s.bit .WP_RFLAG_UV r ||
      railState s r == stFAULT then
    setIdCode (commitTune s r ((List.range 4).map fun i => s.get .idOld r i) (s.get .idOld r 4) (s.get .idOld r 5)) r idReverted
  else
    let s := s.put .DR_IDSTAT_WLEFT (max 0 (s.get .DR_IDSTAT_WLEFT r - 1)) r
    if s.get .DR_IDSTAT_WLEFT r == 0 then setIdCode (s.put .DR_IDCDES (s.get .idCdes r) r) r idCommitted else s

/-- The rail's part of task 5 of a round. -/
def idRound (s : State) (r : Nat) : State :=
  let s := s.bump .idCount 0xFFFF r
  let code := idCode s r
  let s :=
    if code == idCapture then (if railState s r == stRESTR then idAbort s r else s)
    else if code == idProcess then idProcessing s r
    else if code == idWatch then idWatching s r
    else s
  let s := if idMayStart s r then idStart s r else s
  (s.clear .LN_TRFLAG_BURST r).put .idReg (bit01 (railState s r == stREG)) r

/-- Task 5 of a round (R414). -/
def idTask (s : State) : State := s.each ((List.range 16).filter fun r => railState s r != stUNUSED) idRound

/-- A warm start ends a run found in capture, writing BASE and the saved slews back, and discards one in processing (R415,
R423). -/
def idWarm (s : State) : State :=
  s.each (List.range 16) fun s r =>
    if idCode s r == idCapture then idAbort (setpointWrite s r (s.get .DR_IDBASE r)) r
    else if idCode s r == idProcess then setIdCode (s.clear .idStage r) r idEnded
    else s

end Sys2Proof.Machine
end

