-- ==== Sys2Proof/Machine/DitchRider.lean ====
section
/-! DEFINITION. The Ditch Rider (18_background_services.md): the telemetry samples and their closing into the read cache
(R416, R417; 16_headgate_host.md, R388), the pacing of scrubbing and calibration (R419, R420), and the round (R414). -/
namespace Sys2Proof.Machine

/-- Rails that are not UNUSED. -/
def usedRails (s : State) : List Nat := (List.range 16).filter fun r => railState s r != stUNUSED

/-! Telemetry (R416, R417). -/

/-- The firmware reads a rail at a sampling interrupt (R416). -/
def sampleRail (s : State) (r : Nat) : State :=
  let v := 16 * s.get .FL_VWREF r + s.get .FL_VMEAN r
  let i := s.get .DM_RAILCUR_ICUR r
  let lo := s.get .FL_VWREF r + s.get .FL_VMIN r
  let hi := s.get .FL_VWREF r + s.get .FL_VMAX r
  let first := !s.bit .telN
  let s := ((s.put .telAct (s.get .telAct r + s.get .SL_RSTAT_NACT r) r).put .telV (s.get .telV r + v) r).put .telI (s.get .telI r + i) r
  let s := (s.put .telVmin (if first then lo else min lo (s.get .telVmin r)) r).put .telVmax (if first then hi else max hi (s.get .telVmax r)) r
  let s := (s.put .telImax (if first then i else max i (s.get .telImax r)) r).put .telP (s.get .telP r + v * i) r
  if railState s r == stREG then s else s.clear .idReg r

/-- TELEMETRY_SAMPLE (R416): every eighth sample also reads the phase means. -/
def telemetrySample (s : State) : State :=
  let s := s.each (usedRails s) sampleRail
  let s := (s.put .telN (s.get .telN + 1)).put .telAll (s.get .telAll + 1)
  if s.get .telAll % 8 != 0 then s
  else
    let s := s.each (List.range 128) fun s p =>
      if (memberOf s p).isSome then s.put .telPh (s.get .telPh p + s.get .FL_PHMEAN p) p else s
    s.put .telPn (s.get .telPn + 1)

/-- The sums of a round are cleared. -/
def clearTelemetry (s : State) : State :=
  s.resetKeys fun k => fldIn k.fld .telN .telPn || fldIn k.fld .telAct .telPh

/-- A mean over `n` samples, rounded to nearest with halves away from zero; none is stated for no sample: a free value. -/
def meanOf (s : State) (sum n : Int) : Int × State :=
  if n = 0 then
    let (i, s) := s.fresh
    (Config.freeInt i, s)
  else (roundAway sum n, s)

/-- Store words of a rail's read cache from word `w` (R388). -/
def cachePut (s : State) (r w : Nat) (l : List Int) : State := s.each l.zipIdx fun s e => s.put .HG_CACHE (unsigned 16 e.1) r (w + e.2)

/-- A 32-bit value as its low and high words. -/
def words2 (v : Int) : List Int := [field v 15 0, field v 31 16]

/-- The input voltage of the read cache: the result of the KIND 0b01 channel (R417). -/
def cacheVin (s : State) : Int :=
  match (List.range 8).find? fun a => s.get .FL_AUXCFG_KIND a == 1 with
  | some a => s.get .FL_AUXRES a
  | none => vinValue s

/-- The highest temperature of the clusters of the rail's phases (R417). -/
def cacheTemp (s : State) (r : Nat) : Int := maxI ((railClusters s r).map fun c => s.get .FL_CLTEMP c)

/-- The sums of a rail are closed and written to the read cache (R388, R417). ICUR × 125 × 2^IQSEL / 64 is the current in mA. -/
def closeRail (s : State) (r : Nat) : State :=
  let n := s.get .telN
  let q := 125 * iqScale s r
  let (act, s) := meanOf s (s.get .telAct r) n
  let (v, s) := meanOf s (s.get .telV r) (16 * n)
  let (i, s) := meanOf s (s.get .telI r * q) (64 * n)
  let (p, s) := meanOf s (s.get .telP r * q) (8192000 * n)
  let (lo, s) := meanOf s (s.get .telVmin r) (min n 1)
  let (hi, s) := meanOf s (s.get .telVmax r) (min n 1)
  let (im, s) := meanOf s (s.get .telImax r * q) (64 * min n 1)
  let state := railState s r + 8 * s.get .DM_RAILSTAT_PGOOD r
  let s := cachePut s r 0 (words2 (s.get .DM_MTICK) ++ [state + 256 * unsigned 8 act, v, lo, hi] ++ words2 i ++ words2 im ++ words2 p ++
    [cacheVin s, cacheTemp s r, wpRflag s r, 0])
  s.each (railSlots s r) fun s j =>
    let (m, s) := meanOf s (s.get .telPh (slotPhase s r j) * q) (64 * s.get .telPn)
    cachePut s r (0x80 + 2 * j) (words2 m)

/-- Task 1 (R414, R417): the read cache and the status copies of every rail. -/
def telemetryClose (s : State) : State :=
  clearTelemetry (s.each (usedRails s) fun s r => statusUpdate (closeRail s r) r)

/-! Pacing (R419, R420). -/

/-- Task 3: the units of the round become due, and the first starts (R419). -/
def scrubTask (s : State) : State :=
  if !s.bit .DR_CFG_SCRUB then s
  else
    let s := (s.put .scrubLeftU (s.get .DR_CFG_SRAMU)).put .scrubLeftW (s.get .DR_SCRUB2_WCSU)
    let s := s.put .scrubRounds (s.get .scrubRounds + 1)
    let int := s.get .DR_SCRUB2_DDR4INT
    let s := if int > 0 && s.get .scrubRounds ≥ int && s.bit .D4_STATUS_RDY then (s.clear .scrubRounds).put .scrubLeftP 1 else s
    scrubNext s

/-- A cluster with member phases, or a voltage group with rails that are not UNUSED (R420). -/
def rotTargetExists (s : State) (g : Nat) : Bool := (List.range 8).any fun k => rotMember s g k

/-- A target is skipped (R420). -/
def rotSkipped (s : State) (g : Nat) : Bool :=
  rotState s g != 0 || (g < 16 && s.bit .PH_CSTAT_PSTATE g) ||
  (g ≥ 16 && (List.range 8).any fun k => idCode s (8 * (g - 16) + k) == idCapture)

/-- Task 4 (R420): one target a round; a skipped one keeps its turn. -/
def rotTask (s : State) : State :=
  if s.bit .FL_CTRL_ROTEN || !s.bit .DR_CFG_ROT then s
  else
    match ((List.range 18).map fun d => (s.nat .rotTurn + d) % 18).find? (rotTargetExists s) with
    | none => s
    | some g =>
      if rotSkipped s g then s.put .rotTurn g
      else rotationStep (s.put .rotTurn ((g + 1) % 18 : Nat)) g

/-- The Ditch Rider runs: the management core runs its firmware (R335, R414, R415). -/
def ditchRuns (s : State) : Bool := coreRuns s 5 && !s.bit .IM_STATE_NOFW && s.get .IM_STATE_STEP == 7

/-- The tasks of a round after the first, in their order (R414). -/
def ditchTask (s : State) (n : Nat) : State :=
  match n with
  | 0 => logTask s
  | 1 => scrubTask s
  | 2 => rotTask s
  | _ => idTask s

/-- DITCH_RIDER_ROUND (R414): task 1 always runs; of the others, in their order from where the last round stopped, those that the
budget leaves time for, and the rest move to the next round. -/
def ditchRound (s : State) : State :=
  if !ditchRuns s then s
  else
    let s := telemetryClose s
    let from_ := s.nat .drFrom
    let room := min 4 s.drRoom
    let s := s.each (List.range room) fun s i => ditchTask s ((from_ + i) % 4)
    let (n, s) := s.fresh
    let s := { s with drRoom := Config.budgetTasks n }
    if room < 4 then (s.put .drFrom ((from_ + room) % 4 : Nat)).bump .DR_STAT_OVR 0xFFFF else s.clear .drFrom

/-- A warm start (R415): the sums of the round are lost, and a run in capture or in processing ends. -/
def ditchWarm (s : State) : State := idWarm (clearTelemetry s)

end Sys2Proof.Machine
end

