-- ==== Sys2Proof/Machine/Images.lean ====
section
/-! DEFINITION. Start-up, updates, re-structure and attestation (17_images_startup_attestation.md, R396 to R413;
19_device_power_clocks.md, R447): the starts, the messages of class IMAGE as the firmware executes them, and GO. -/
namespace Sys2Proof.Machine

/-! Loading what an image holds. -/

/-- The slot in force of a kind (IM_STATE.SLOT). -/
def slotInForce (s : State) (k : Nat) : Nat := if s.bitOf .IM_STATE_SLOT (k - 1) then 1 else 0

/-- Put bit `k - 1` of a mask. -/
def putKindBit (s : State) (f : Fld) (k : Nat) (b : Bool) : State :=
  if b then s.setBits f (2 ^ (k - 1)) else s.clrBits f (2 ^ (k - 1))

/-- The first verified slot of a kind from `tries` on, with the engine's result of each verification (R393, R396). -/
def tryKind (s : State) (base k : Nat) : List Nat → State × Option (Nat × Image)
  | [] => (s, none)
  | sl :: rest =>
    let m := readImage s base k sl
    let code := verifyCode s m k
    let s := putResult s code k
    if code == 0 then (s, some (sl, m)) else tryKind s base k rest

/-- Start-up tries the preferred slot of a kind and then the other one (R396). -/
def startKind (s : State) (base k : Nat) : State × Option (Nat × Image) :=
  let p := preferred s base k
  tryKind s base k [p, 1 - p]

/-- Put one of the digests (0 the ROM, 1 to 4 the images in force). -/
def putDigest (s : State) (n : Nat) (d : List Byte) : State :=
  { s with digests := (List.range 5).map fun i => if i = n then d else s.digests.getD i [] }

/-- An image comes into force (R410). -/
def bringInForce (s : State) (base k sl : Nat) (m : Image) : State :=
  let s := putKindBit s .IM_STATE_SLOT k (sl == 1)
  let s := putKindBit s .IM_STATE_FALLBK k (sl != preferred s base k)
  (putDigest s k m.digest).put .imgVer m.version k

/-- The words of a body, low byte first. -/
def bodyWords (l : List Byte) : List W16 :=
  (List.range ((l.length + 1) / 2)).map fun i => BitVec.ofNat 16 (leNat ((l.drop (2 * i)).take 2))

/-- Words go to memory from a word address on. -/
def putWords (s : State) (a : Nat) (l : List W16) : State :=
  s.each l.zipIdx fun s e => s.storeFresh (a + e.2) e.1

/-- The microwords and entries of a microcode image are loaded into the WCS and into every core's decode table (R312). -/
def loadMicrocode (s : State) (body : List Byte) : State :=
  let (mw, en) := Config.microcodeOf body
  let s := s.each mw fun s e => storeMicroword s e.1 e.2
  s.each en fun s e =>
    let s := ((s.put .UC_DEC_START (field e.2 5 0) e.1).put .UC_DEC_PAGE (field e.2 9 6) e.1).put .UC_DEC_VALID (field e.2 10 10) e.1
    let s := (s.put .UC_DEC_MCONLY (field e.2 11 11) e.1).put .UC_DEC_PRIV (field e.2 12 12) e.1
    s.each (List.range 6) fun s c => (s.put .decCopy (decWord s e.1) c e.1).clear .decPend c e.1

/-- The ROM loads the firmware and jumps to ENTRY (R392, R399). -/
def loadFirmware (s : State) (m : Image) : State :=
  let s := putWords s (m.num 12 4) (bodyWords m.body)
  setPc (s.raise .coreOn 5) 5 (m.num 16 4)

/-- The management core leaves reset in the ROM (R218). -/
def enterRom (s : State) : State := if pairRuns s 5 then ((resetRegs s 5).raise .coreOn 5) else s

/-- The trial is armed where the firmware starts from a preferred slot on trial (R396). -/
def armTrial (s : State) (base sl : Nat) : State :=
  if onTrial s base && sl == preferred s base 1 then
    let t := ((s.flashByte (base + 74)).toNat : Int)
    (s.raise .IM_TRIAL_RUN).put .trialEnd (s.now + 160000000 * t)
  else s

/-- Durations of the steps (IM_STEPTs), saturating, from step `from_` on. -/
def putTimes (s : State) (l : List Nat) : State :=
  s.each (List.range 6) fun s i => s.put .IM_STEPT (min 0xFFFF (l.getD i 0 : Nat)) i

/-- What the structure image holds and no register shows (R336, R372, R50, R384; log entry 11). -/
def loadHidden (s : State) (body : List Byte) : State :=
  let h := Config.imageHidden body
  let s := s.each (List.range 8) fun s d => s.put .domSet (h 0 d) d
  let s := s.each (List.range 6) fun s p => ((s.put .hgClass (h 1 p) p).put .hgRails (h 2 p) p).put .hgEvents (h 3 p) p
  let s := s.each (List.range 16) fun s r =>
    let v := s.get .LN_VSET r
    ((s.put .istart (h 4 r) r).put .imgVset v r).put .pmbNom v r |>.put .perNext (s.get .SL_RPER r) r
  let s := s.each [Fld.RC_STGMASK, .RC_STGTRGMASK, .RC_STGPRE].zipIdx fun s e => s.put .idStg (s.get e.1) e.2
  ((s.put .vinDefault (h 5 0)).put .pmbWp (h 6 0)).put .sampleTimer (h 7 0)

/-- Which pair does the duties of each domain set, from LS_PAIRk.DUTY as loaded (R336). -/
def loadDuties (s : State) : State :=
  s.each (List.range 4) fun s n =>
    s.put .dutyPair ((((List.range 5).find? fun k => s.nat .LS_PAIR_DUTY k == n).map fun (k : Nat) => (k : Int)).getD 7) n

/-- The EXT section is loaded into MC SRAM (R402). -/
def loadExt (s : State) (recs : List ImgRec) : State :=
  s.each (recs.filter fun r => r.sec == 11) fun s r => putWords s r.addr [BitVec.ofNat 16 r.val]

/-- Step 4 (R399, R403): the fields that `p` picks, the bounds and the rest are loaded, and the Flume, the Sluice and the
weirs are set going. Their self-tests and DDR4 training end by commands of their own. -/
def startStep4 (s : State) (m : Image) (p : Fld → Bool) : State :=
  let recs := (imageRecs m.body).getD []
  let l := imageFields recs
  let s := loadExt (loadFields s l p) recs
  let s := { loadHidden s m.body with bounds := imageBounds l, irqLines := imageLines m.body }
  let s := s.each (List.range 6) keepWindow
  let s := if p .LS_PAIR_DUTY then loadDuties s else s
  let s := if s.get .D4_CFG_SIZE == 0 then trainingDone s false else s
  (((s.raise .flumeOn).put .flumeFrom s.now).raise .sluiceOn).raise .weirsOn

/-- Step 5 and the core windows of step 6 (R208, R298, R399): the lock list, the vector bases, the MPU of each tick core in force,
the windows locked; then the duties of the pairs that failed the injection test, which TC4 takes with the window of their set. -/
def startLocks (s : State) (m : Image) (p : Fld → Bool) : State :=
  let s := loadExtra s (imageFields ((imageRecs m.body).getD [])) p
  let s := s.each (List.range 5) fun s k => s.raise .XC_MPUCTL_EN k
  let s := s.each (List.range 6) fun s k => s.raise .XC_CTRL_LOCK k
  keepTaken (s.when (p .LS_PAIR_DUTY) unverifiedDuties)

/-- The LOCK writes of step 6, after the counts and retirements are restored (R185, R348, R399). -/
def logLocks (s : State) : State := (s.raise .PH_CTRL_LOCK).raise .D4_CTRL_LOCK

/-- Step 6: the programs of the tick cores go to their TCMs, with their start addresses (R391, R399). -/
def loadPrograms (s : State) (m : Image) : State :=
  s.each ((Config.tickPrograms m.body).filter fun e => decide (e.1 < 5)) fun s e =>
    (putWords s (0x200000 + 0x20000 * e.1 + e.2.1 % 0x10000) e.2.2.1).put .PW_TCSTART (unsigned 24 e.2.2.2) e.1

/-- Steps 3 to 6 of a cold or a resume start (R399, R401). `p` picks the fields that step 4 loads. -/
def runStart (s : State) (p : Fld → Bool) (restore : Bool) : State :=
  let s := { s with digests := [Config.romDigest, [], [], [], []] }
  let s := (s.put .IM_STATE_STEP 3).put .IM_STATE_PROV (bit01 (provisioning s))
  match dirInUse s with
  | none => s.raise .IM_STATE_NOFW
  | some base =>
    let (s, fw) := startKind s base 1
    match fw with
    | none => s.raise .IM_STATE_NOFW
    | some (sf, mf) =>
      let (s, vm) := startKind s base 2
      match vm with
      | none => s.raise .IM_STATE_NOFW
      | some (sv, mv) =>
        let s := bringInForce (bringInForce s base 1 sf mf) base 2 sv mv
        let s := (loadMicrocode s mv.body).raise .UC_CTRL_VLOCK
        let (s, si) := startKind s base 3
        let (s, cm) := startKind s base 4
        let s := match cm with
          | some (sc, mc) => loadMicrocode (bringInForce s base 4 sc mc) mc.body
          | none => s.raise .IM_STATE_NOCM
        let s := armTrial (loadFirmware s mf) base sf
        match si with
        | none => s.raise .IM_STATE_NOSI
        | some (ss, ms) =>
          let s := startStep4 (bringInForce s base 3 ss ms) ms p
          let s := startLocks s ms p
          let s := logLocks (if restore then restoreLog s else s)
          ((releaseTicks (loadPrograms s mf)).put .IM_STATE_STEP 6).raise .ckDue

/-- The boot flash as the board fits it, as canonical cells. -/
def fitFlash (s : State) (inp : StartInput) : State :=
  let s := match inp.flash with
    | none => s
    | some l => { s with flash := l.foldl (fun f (e : Nat × Byte) => cellSet f e.1 (0xFF#8 ^^^ e.2)) [] }
  (s.put .flashSize inp.flashSize).put .flashRo (bit01 (!inp.sfdp))

/-- COLD_START (R399): at PORST# release. -/
def coldStart (s : State) (inp : StartInput) : State :=
  if s.bit .started then s
  else
    let s := fitFlash (s.raise .started) inp
    let s := (s.put .pmbAdr ((inp.pmbAdr : Nat) : Int)).put .PW_CLK_CLKSEL (bit01 inp.clkSel)
    let s := s.each inp.repairs fun s (e : Fin 7 × Fin 2048) => rowRepairDone (beginRepair s e.1 e.2) e.1 []
    let s := injectionTest s (inp.injection.map fun (k : CoreId) => (k : Nat))
    let s := runStart (enterRom s) (fun _ => true) true
    (wdRestart (putTimes s inp.times)).put .stepAt s.now

/-- RESUME_START (R447), with whether the board kept DDR4. The supplies have been good for 100 µs, longer than any storm-guard window
(R210). -/
def resumeStart (s : State) (kept : Bool) (times : List Nat) : State :=
  if !s.bit .resumeDue then s
  else
    let live := kept && s.bit .srefKept
    let s := ((s.clear .resumeDue).put .sleepMode 0).put .PW_RSTCAUSE_CCAUSE 4
    let s := (s.raise .started).clear .srefKept
    let s := if live then s else
      let s := { s with mem := s.mem.filter fun c => decide (c.1 < 0x100000000) }
      State.resetKeys { s with soft := [] } fun k =>
        k.fld == Fld.memBad && decide (k.i ≥ 0x80000000)
    let s := runStart (enterRom (s.clear .IM_STATE_WARM)) (fun f => !keptAsleep f) false
    let s := if live then s.raise .D4_STATUS_RDY else s
    let s := irRestart (compareResume (s.each (List.range 64) fun s c => (s.clear .sgOpen c).clear .sgCount c))
    let s := s.each (List.range 254) sampleSource
    (wdRestart (putTimes s times)).put .stepAt s.now

/-- The other firmware slot is preferred and its trial ended, where a trial has failed (R396). -/
def failedTrial (s : State) (base : Nat) : State :=
  if s.bit .IM_TRIAL_FAIL && onTrial s base then
    let p := 1 - preferred s base 1
    (dirWrite s base (prefByte s base 1 p) (s.flashByte (base + 73) &&& 0xFE#8)).clear .IM_TRIAL_FAIL
  else s

/-- WARM_START (R399, R396, R415): 64 core cycles after a management-core reset the ROM starts the firmware again. -/
def warmStart (s : State) (times : List Nat) : State :=
  if !s.bit .warmDue || s.now < s.get .mcRstAt + 12 || !pairRuns s 5 then s
  else
    let s := putDigest (wdRestart (enterRom (ditchWarm (s.clear .warmDue)))) 0 Config.romDigest
    let s := (s.raise .IM_STATE_WARM).clear .IM_STATE_NOFW
    let s := putTimes s [times.getD 0 0, 0, times.getD 1 0, 0, 0, times.getD 2 0]
    match dirInUse s with
    | none => s.raise .IM_STATE_NOFW
    | some base =>
      let s := failedTrial s base
      let base := (dirInUse s).getD base
      let (s, fw) := startKind s base 1
      match fw with
      | none => s.raise .IM_STATE_NOFW
      | some (sf, mf) =>
        let s := { armTrial (loadFirmware (bringInForce s base 1 sf mf) mf) base sf with logQueue := [] }
        s.raise .ckDue

/-- GO (R400): refused unless the self-tests have ended and DDR4 is trained, failed or not fitted. -/
def goWrite (s : State) : State :=
  if s.bit .FL_STATUS_RDY && s.bit .SL_STATUS_RDY && s.bit .WP_STATUS_RDY &&
      (s.bit .D4_STATUS_RDY || s.bit .D4_STATUS_TRAINERR || s.get .D4_CFG_SIZE == 0) then s.raise .goDue
  else s.raise .IM_ERR_GOERR

/-- The boundary after an accepted GO: the fabric is programmed (R400). -/
def goBoundary (s : State) : State :=
  if !s.bit .goDue then s
  else
    let s := if s.get .IM_STATE_STEP == 7 then s
      else s.put .IM_STEPT (min 0xFFFF ((s.now - s.get .stepAt) / 160)) 5
    ((s.clear .goDue).put .IM_STATE_STEP 7).raise .fabricOn

/-! The trial (R396). -/

/-- The trial has run out. -/
def trialDue (s : State) : Bool := s.bit .IM_TRIAL_RUN && decide (s.now ≥ s.get .trialEnd)

/-- TRIAL_EXPIRY. -/
def trialExpiry (s : State) : State :=
  if trialDue s then mcReset ((s.clear .IM_TRIAL_RUN).raise .IM_TRIAL_FAIL) 6 else s

/-- Seconds left (IM_TRIAL.LEFT). -/
def trialLeft (s : State) : Int :=
  if s.bit .IM_TRIAL_RUN then clampTo 0 255 (ceilDiv (s.get .trialEnd - s.now) 160000000) else 0

/-! Messages of class IMAGE (R409). -/

/-- The types that the ROM serves without firmware (R401). -/
def romServes (t : Nat) : Bool := decide (0x50 ≤ t ∧ t ≤ 0x55) || t == 0x58 || t == 0x59

/-- The firmware (or the ROM) executes a message of class IMAGE that it has taken: port 5 only, with the class; `ok` judges
the payload. -/
def imgMessage (s : State) (typ : Nat) (ok : List Byte → Bool) (f : State → List Byte → State) : State :=
  match s.hgTaken with
  | none => s
  | some m =>
    let q := m.parts.headD ⟨0, 0, []⟩
    if unmanaged s || q.typ != typ then s
    else if (s.bit .IM_STATE_NOFW && !romServes typ) || !ok q.payload then hgAnswer s hgBADOP []
    else if m.port ≠ 5 || !(s.bit .IM_STATE_NOFW || s.bit .IM_STATE_NOSI || s.bitOf .hgClass 5 5) then hgAnswer s hgPOLICY []
    else f s q.payload

/-- A payload of one byte that names a kind. -/
def kindByte (l : List Byte) : Bool := l.length == 1 && decide (1 ≤ (l.headD 0).toNat ∧ (l.headD 0).toNat ≤ 4)

/-- IMG_BEGIN (R407, R409): the slot that is not in force is erased and the update is open. -/
def imgBegin (s : State) (k : Nat) : State :=
  match dirInUse s with
  | none => hgAnswer s hgSTATE []
  | some base =>
    if s.bit .flashRo then hgAnswer s hgSTATE []
    else if s.bit .flashBusy then s
    else
      let sl := 1 - slotInForce s k
      let (off, size) := slotRegion s base k sl
      let s := (flashErase s off size).raise .flashBusy
      let s := ((s.put .IM_UPD_OFS 0).put .IM_UPD_KIND k).put .IM_UPD_SLOT sl
      hgAnswer s hgDONE (leBytes 1 (sl : Nat))

/-- IMG_WRITE (R407, R409): the bytes are programmed and OFS advances. -/
def imgWrite (s : State) (l : List Byte) : State :=
  let k := s.nat .IM_UPD_KIND
  match dirInUse s with
  | none => hgAnswer s hgSTATE []
  | some base =>
    if k = 0 || s.bit .flashRo then hgAnswer s hgSTATE []
    else if s.bit .flashBusy then s
    else
      let (off, size) := slotRegion s base k (s.nat .IM_UPD_SLOT)
      let o := leNat (l.take 4)
      let d := l.drop 4
      if (o : Int) ≠ s.get .IM_UPD_OFS ∨ o + d.length > size then hgAnswer s hgRANGE []
      else
        let s := (flashWrite s (off + o) d).raise .flashBusy
        hgAnswer (s.put .IM_UPD_OFS ((o + d.length : Nat) : Int)) hgDONE []

/-- IMG_VERIFY (R393, R407): the crypto engine is given the slot being written. -/
def imgVerify (s : State) : State :=
  if s.get .IM_UPD_KIND == 0 then hgAnswer s hgSTATE []
  else if s.bit .flashBusy || s.bit .verDue then s
  else s.put .verDue (s.get .IM_UPD_KIND)

/-- IMAGE_VERIFIED (R393): the engine's code, and the completion of the IMG_VERIFY that waits for it. -/
def imageVerified (s : State) : State :=
  let k := s.nat .verDue
  if k = 0 then s
  else
    let sl := s.nat .IM_UPD_SLOT
    let m := match dirInUse s with
      | some base => readImage s base k sl
      | none => ⟨[], []⟩
    let code := verifyCode s m k
    let s := putResult (s.clear .verDue) code k
    let s := (s.put .verOk (bit01 (code == 0)) k).put .verSlot sl k
    let s := (s.put .verVer m.version k).put .verKey m.keySlot k
    hgAnswer s hgDONE (leBytes 1 code ++ leBytes 1 (m.version : Nat))

/-- Every page that a microcode image writes is free (R311, R312). -/
def pagesFree (s : State) (body : List Byte) : Bool :=
  (List.range 16).all fun pg => !(Config.pageMask body).testBit pg || !pageLive s pg

/-- A live load of customer microcode (R312): the new microwords go into free pages, the entries name them, and LDEN is cleared
once every core has taken the entries. -/
def liveMicrocode (s : State) (body : List Byte) : State :=
  let (mw, en) := Config.microcodeOf body
  let s := (s.raise .UC_CTRL_LDEN).raise .ucWait
  let s := s.each mw fun s e => microwordWrite s 5 true e.1 e.2
  endLoad (s.each en fun s e => decodeEntryWrite s 5 true e.1 e.2)

/-- IMG_ACTIVATE (R407, R409, R412). -/
def imgActivate (s : State) (k : Nat) : State :=
  match dirInUse s with
  | none => hgAnswer s hgSTATE []
  | some base =>
    let sl := s.nat .verSlot k
    if !s.bit .verOk k || s.bit .IM_TRIAL_RUN || sl == slotInForce s k then hgAnswer s hgSTATE []
    else if s.bit .flashBusy then s
    else
      let trial := s.flashByte (base + 73)
      let s := dirWrite (s.clear .verOk k) base (prefByte s base k sl) (if k = 1 then trial ||| 1#8 else trial)
      let s := if s.bit .flashRo then s else s.raise .flashBusy
      if k = 1 then mcReset (hgDone (hgAnswer s hgDONE [])) 7
      else if k = 4 then
        let m := readImage s base 4 sl
        if !pagesFree s m.body then hgAnswer s hgDONE []
        else
        let s := (putDigest (liveMicrocode s m.body) 4 m.digest).put .imgVer m.version 4
        hgAnswer ((putKindBit s .IM_STATE_SLOT 4 (sl == 1)).clear .IM_STATE_NOCM) hgDONE []
      else hgAnswer s hgDONE []

/-- Bits of counter `k` are programmed until it reaches the version; a bit of `failed` reads back unprogrammed and is
skipped (R398). -/
def raiseCounter (s : State) (k : Nat) (target : Int) (failed : List Nat) : State :=
  let s := (List.range 128).foldl (fun s b =>
    if s.nat .otpPos k ≤ b && s.get .OT_CNT_VAL (k - 1) < target then
      let s := s.put .otpPos ((b + 1 : Nat) : Int) k
      let s := if b ≥ 64 then s.raise .OT_CNT_B1 (k - 1) else s
      if failed.contains b then s else s.put .OT_CNT_VAL (s.get .OT_CNT_VAL (k - 1) + 1) (k - 1)
    else s) s
  if s.get .OT_CNT_VAL (k - 1) < target then s.raise .OT_CNT_EXH (k - 1) else s

/-- IMG_ACCEPT (R396, R398); where the trial has run out, its expiry comes first (R412). -/
def imgAccept (s : State) (k : Nat) (failed : List Nat) : State :=
  if k = 1 && trialDue s then trialExpiry s
  else
    let s := if k = 1 then s.clear .IM_TRIAL_RUN else s
    hgAnswer (raiseCounter s k (s.get .imgVer k) failed) hgDONE []

/-- IMG_STATUS (R409). -/
def imgStatus (s : State) : State :=
  let one := fun k =>
    leBytes 1 ((slotInForce s k : Nat) : Int) ++ leBytes 1 (s.get .imgVer k) ++ leBytes 1 (s.get .OT_CNT_VAL (k - 1)) ++
    leBytes 1 (bit01 (k == 1 && s.bit .IM_TRIAL_RUN) + 2 * bit01 (s.bitOf .IM_STATE_FALLBK (k - 1)))
  hgAnswer s hgDONE ([1, 2, 3, 4].flatMap one ++ leBytes 4 (s.get .IM_UPD_OFS))

/-! Per-rail re-structure (R405, R406). -/

/-- The word belongs to a rail in RESTRUCTURE, or to a phase that is a member of such a rail or of none (R406). -/
def slAllowed (s : State) (a : Nat) : Bool :=
  match findReg a with
  | none => false
  | some (reg, i, _, _) =>
    match ownSection s reg i with
    | (3, r) => railState s r == stRESTR
    | (4, p) =>
      match memberOf s p with
      | some (r, _) => railState s r == stRESTR
      | none => true
    | _ => false

/-- The bits that a value gives a field when the word `w` of its register is stored. -/
def mergeWord (f : FieldRow) (old : Int) (w : Nat) (v : Int) : Int :=
  let raw := unsigned (f.hi + 1 - f.lo) old
  let lo := max f.lo (16 * w)
  let hi := min f.hi (16 * w + 15)
  let keep := raw - shl (field raw (hi - f.lo) (lo - f.lo)) (lo - f.lo)
  f.show (keep + shl (field v (hi - 16 * w) (lo - 16 * w)) (lo - f.lo))

/-- The field has bits in the word `w` of its register. -/
def inWord (f : FieldRow) (w : Nat) : Bool := decide (f.lo ≤ 16 * w + 15 ∧ 16 * w ≤ f.hi)

/-- A write of IM_SLDATA (R406): every field of the word that an image holds, structural ones included; an illegal value is not stored
(R11). -/
def slWrite (s : State) (a : Nat) (v : Int) : State :=
  if !slAllowed s a then s.raise .IM_ERR_SLERR
  else
    match findReg a with
    | none => s
    | some (reg, i, j, w) =>
      s.each (reg.fields.filter fun f => f.img && inWord f w && !derivedFields.contains f.fld) fun s f =>
        let x := mergeWord f (s.get f.fld i j) w v
        if !legal f.fld x then reportIllegal s f.fld i
        else
          let s := s.put f.fld x i j
          let s := s.when (f.fld == .SL_RPER) fun s => s.put .perNext x i
          let s := s.when (f.fld == .WP_RETRY_RETRY) fun s => s.put .WP_RSTAT_RLEFT x i
          let s := s.when (fldIn f.fld .LN_MAP_PHASE .LN_MAP_ACT || f.fld == .PH_PSTAT_SPARE) rankAll
          s.when (f.fld == .LN_VSET) fun s => (s.put .imgVset x i).put .pmbNom x i

/-- The check of IM_RSDONE over the whole device (R406). -/
def rsCheck (s : State) : Bool := membershipGood s && graphGood s

/-- A write of IM_RSDONE (R406): the masked rails in RESTRUCTURE go under row 10 of R24 at the next boundary, to UNUSED where
they have no phases, or RSERR is set. -/
def rsDoneWrite (s : State) (mask : Int) : State :=
  if rsCheck s then
    s.each ((List.range 16).filter fun r => bitAt mask r && railState s r == stRESTR) fun s r =>
      s.put .rsDone (if railDefined s r then 1 else 2) r
  else s.raise .IM_ERR_RSERR

/-- The members of the masked rails in an image's fields. -/
def maskedPhases (t : State) (mask : Nat) : List Nat :=
  (List.range 128).filter fun p =>
    match memberOf t p with
    | some (r, _) => mask.testBit r
    | none => false

/-- The words of the register map that hold an image's field, in the RAIL and PHASE sections. -/
def structureWords : List Nat :=
  regTable.flatMap fun r =>
    if r.sec = 0 ∨ r.sec = 3 ∨ r.sec = 4 then
      (List.range r.iCount).flatMap fun i => (List.range r.jCount).flatMap fun j =>
        ((List.range r.words).filter fun w => r.fields.any fun f => f.img && inWord f w).map fun w =>
          r.base + r.iStep * i + r.jStep * j + w
    else []

/-- The image value of a word in a state. -/
def structureWord (t : State) (a : Nat) : Int :=
  match findReg a with
  | none => 0
  | some (reg, i, j, w) =>
    sumI ((reg.fields.filter fun f => f.img && inWord f w).map fun f =>
      let raw := unsigned (f.hi + 1 - f.lo) (t.get f.fld i j)
      let lo := max f.lo (16 * w)
      let hi := min f.hi (16 * w + 15)
      shl (field raw (hi - f.lo) (lo - f.lo)) (lo - 16 * w))

/-- The words of the structure at which the image `rn` differs from the image `ro`, with their new values. -/
def structureChanges (ro rn : List ImgRec) : List (Nat × Int) :=
  let t := scratch (imageFields ro)
  let u := scratch (imageFields rn)
  (structureWords.filter fun a => structureWord t a != structureWord u a).map fun a => (a, structureWord u a)

/-- The two images differ only in the RAIL sections of masked rails, and in the PHASE sections of phases that belong, in
either image, to a masked rail or to no rail (R405). -/
def restructureGood (old new : List ImgRec) (mask : Nat) : Bool :=
  let t := scratch (imageFields old)
  let u := scratch (imageFields new)
  let free := fun (x : State) p => (memberOf x p).isNone || (maskedPhases x mask).contains p
  let loose := fun (r : ImgRec) => (r.sec == 3 && mask.testBit r.inst) || (r.sec == 4 && (free t r.inst || free u r.inst))
  (old.filter fun r => !loose r) == new.filter fun r => !loose r

/-- RESTRUCTURE (R405, R406): the firmware writes each differing word and then the mask to IM_RSDONE. -/
def restructure (s : State) (mask : Nat) : State :=
  let sl := s.nat .verSlot 3
  match dirInUse s with
  | none => hgAnswer s hgSTATE []
  | some base =>
    let old := readImage s base 3 (slotInForce s 3)
    let new := readImage s base 3 sl
    match imageRecs old.body, imageRecs new.body with
    | some ro, some rn =>
      if !s.bit .verOk 3 || sl == slotInForce s 3 || !(List.range 16).all (fun r => !mask.testBit r || railState s r == stRESTR) ||
          !restructureGood ro rn mask then hgAnswer s hgSTATE []
      else if s.bit .flashBusy then s
      else
        let s := s.each (structureChanges ro rn) fun s w => slWrite (s.put .IM_SLADDR w.1) w.1 w.2
        if rsCheck s then
          let s := { rsDoneWrite s mask with bounds := imageBounds (imageFields rn) }
          let s := (putDigest s 3 new.digest).put .imgVer new.version 3
          let s := (putKindBit s .IM_STATE_SLOT 3 (sl == 1)).clear .verOk 3
          let s := dirWrite s base (prefByte s base 3 sl) (s.flashByte (base + 73))
          hgAnswer (if s.bit .flashRo then s else s.raise .flashBusy) hgDONE []
        else hgAnswer (rsDoneWrite s mask) hgSTATE []
    | _, _ => hgAnswer s hgSTATE []

/-! Attestation (R410, R411). -/

/-- ATTEST: the summary is assembled afresh before the report is formed. -/
def attest (s : State) : State := if s.bit .attPend then s else (snapStart s).raise .attPend

/-- The digest of the spare-use summary (R195). -/
def summaryDigest (s : State) : List Byte :=
  Config.sha384 ((List.range 32).flatMap fun w => leBytes 2 (s.get .PH_SUM w))

/-- The ROM digest and the digests of the four kinds (R410). Of a kind of which no image is in force the manual gives none: 48 free
bytes stand there (log entry 132). -/
def reportDigests (s : State) : List Byte × State :=
  (List.range 5).foldl (fun x i =>
    let d := x.2.digests.getD i []
    if d.isEmpty then
      let (n, t) := x.2.fresh
      (x.1 ++ Config.freeBytes 48 n, t)
    else (x.1 ++ d, x.2)) ([], s)

/-- Bytes 0 to 367 of the report, with its five digests (R410). -/
def reportBody (s : State) (nonce digests : List Byte) : List Byte :=
  let pair := fun k => leBytes 1 (s.get .LS_PAIR_STATE k + 8 * s.get .LS_PAIR_SURV k + 16 * s.get .LS_PAIR_COMPFAIL k +
    32 * s.get .LS_PAIR_DUTY k)
  leBytes 2 1 ++ leBytes 2 464 ++ nonce ++ leBytes 8 s.now ++
  digests ++ summaryDigest s ++ ((List.range 6).flatMap pair) ++
  leBytes 1 (s.get .LS_STATUS_DBGSPLIT + 2 * s.get .OT_STATUS_DBGLOCK + 4 * bit01 (provisioning s) +
    8 * s.get .IM_TRIAL_RUN + 16 * s.get .IM_STATE_WARM) ++
  leBytes 1 (s.get .OT_STATUS_KSACT + 16 * s.get .OT_STATUS_KSREV) ++
  ([1, 2, 3, 4].flatMap fun k => leBytes 1 (s.get .imgVer k)) ++
  ((List.range 4).flatMap fun i => leBytes 1 (s.get .OT_CNT_VAL i)) ++ leBytes 1 (s.get .IM_STATE_SLOT) ++ leBytes 3 0

/-- SIGNING_DONE: the report with its signature completes the ATTEST (R410, R411). -/
def signingDone (s : State) : State :=
  if !s.bit .attPend || s.bit .PH_STATUS_SUMBUSY then s
  else
    match s.hgTaken with
    | none => s.clear .attPend
    | some m =>
      let nonce := (m.parts.headD ⟨0, 0, []⟩).payload
      let (digests, s) := reportDigests s
      let body := reportBody s nonce digests
      let sig := Config.ecdsaSign (Config.sha384 body) (s.nat .sigNo)
      hgAnswer ((s.clear .attPend).put .sigNo (s.get .sigNo + 1)) hgDONE (body ++ sig)

/-- GET_IDENTITY (R409): the identity public key and the certificate of the identity region. -/
def getIdentity (s : State) : State :=
  let cert := match dirInUse s with
    | some base => flashBytes s (dirNat s base 84 4) (min 3999 (dirNat s base 88 4))
    | none => []
  hgAnswer s hgDONE (Config.identityKey ++ cert)

/-- A fresh challenge from the TRNG: 48 free bytes (R397, R409). -/
def newChallenge (s : State) : State :=
  let (n, s) := s.fresh
  { s with challenge := Config.freeBytes 48 n }

/-- GET_CHALLENGE. -/
def getChallenge (s : State) : State :=
  let s := newChallenge s
  hgAnswer s hgDONE s.challenge

/-! OTP (R397). -/

/-- The active slot and provisioning mode as their registers show them. -/
def keySync (s : State) : State :=
  (s.put .OT_STATUS_KSACT (activeSlot s)).put .IM_STATE_PROV (bit01 (provisioning s))

/-- A signature over SHA-384 of the challenge and `fields` by the key of slot `k`. -/
def signedBy (s : State) (k : Nat) (fields sig : List Byte) : Bool :=
  decide (k < 4) && Config.ecdsaVerify (Config.keyOfHash (keyHash s k)) (Config.sha384 (s.challenge ++ fields)) sig

/-- KEY_PROGRAM (R397, R409). -/
def keyProgram (s : State) (l : List Byte) : State :=
  match (List.range 4).find? fun i => !s.bitOf .OT_STATUS_KSPROG i with
  | none => hgAnswer s hgSTATE []
  | some n =>
    let hash := l.take 48
    let ok := provisioning s || signedBy s (activeSlot s) (leBytes 1 (n : Nat) ++ hash) (l.drop 48)
    let s := if provisioning s then s else newChallenge s
    if !ok then hgAnswer s hgPOLICY []
    else
      let s := { s with keyHashes := (List.range 4).map fun i => if i = n then hash else keyHash s i }
      hgAnswer (keySync (s.setBits .OT_STATUS_KSPROG (2 ^ n))) hgDONE (leBytes 1 (n : Nat))

/-- KEY_REVOKE (R397, R412): an image verified under the revoked key waits no longer. -/
def keyRevoke (s : State) (l : List Byte) : State :=
  let a := activeSlot s
  match (List.range 4).find? fun i => decide (a < i) && s.bitOf .OT_STATUS_KSPROG i && !s.bitOf .OT_STATUS_KSREV i with
  | none => hgAnswer s hgSTATE []
  | some n =>
    let ok := signedBy s n (leBytes 1 (a : Nat)) l
    let s := newChallenge s
    if !ok then hgAnswer s hgPOLICY []
    else
      let s := keySync (s.setBits .OT_STATUS_KSREV (2 ^ a))
      let s := s.each ([3, 4].filter fun k => s.nat .verKey k == a) fun s k => s.clear .verOk k
      hgAnswer s hgDONE (leBytes 1 ((activeSlot s : Nat) : Int))

/-- DBG_LOCK (R397). -/
def dbgLock (s : State) (l : List Byte) : State :=
  let ok := provisioning s || signedBy s (activeSlot s) [] l
  let s := if provisioning s then s else newChallenge s
  if ok then hgAnswer (s.raise .OT_STATUS_DBGLOCK) hgDONE [] else hgAnswer s hgPOLICY []

/-- The length of a payload whose signature is omitted in provisioning mode (R409). -/
def signedLen (s : State) (n : Nat) (l : List Byte) : Bool := l.length == (if provisioning s then n else n + 96)

/-! The commands. -/

def execImgBegin (s : State) : Out := .next (imgMessage s 0x50 kindByte fun s l => imgBegin s (l.headD 0).toNat)
def execImgWrite (s : State) : Out :=
  .next (imgMessage s 0x51 (fun l => decide (5 ≤ l.length ∧ l.length ≤ 4092)) imgWrite)
def execImgVerify (s : State) : Out := .next (imgMessage s 0x52 List.isEmpty fun s _ => imgVerify s)
def execImgActivate (s : State) : Out := .next (imgMessage s 0x53 kindByte fun s l => imgActivate s (l.headD 0).toNat)
def execImgAccept (failed : List (Fin 128)) (s : State) : Out :=
  .next (imgMessage s 0x54 kindByte fun s l => imgAccept s (l.headD 0).toNat (failed.map fun (b : Fin 128) => (b : Nat)))
def execImgStatus (s : State) : Out := .next (imgMessage s 0x55 List.isEmpty fun s _ => imgStatus s)
def execRestructure (s : State) : Out := .next (imgMessage s 0x56 (fun l => l.length == 2) fun s l => restructure s (leNat l))
def execAttest (s : State) : Out := .next (imgMessage s 0x57 (fun l => l.length == 48) fun s _ => attest s)
def execGetIdentity (s : State) : Out := .next (imgMessage s 0x58 List.isEmpty fun s _ => getIdentity s)
def execGetChallenge (s : State) : Out := .next (imgMessage s 0x59 List.isEmpty fun s _ => getChallenge s)
def execKeyProgram (s : State) : Out := .next (imgMessage s 0x5A (signedLen s 48) keyProgram)
def execKeyRevoke (s : State) : Out := .next (imgMessage s 0x5B (fun l => l.length == 96) keyRevoke)
def execDbgLock (s : State) : Out := .next (imgMessage s 0x5C (signedLen s 0) dbgLock)
def execImSldata (v : W16) (s : State) : Out := .next (slWrite s (s.nat .IM_SLADDR) v.toNat)
def execImRsdone (rails : W16) (s : State) : Out := .next (rsDoneWrite s rails.toNat)
def execImageVerified (s : State) : Out := .next (imageVerified s)
def execSigningDone (s : State) : Out := .next (signingDone s)
def execTrialExpiry (s : State) : Out := .next (trialExpiry s)
def execColdStart (inp : StartInput) (s : State) : Out := .next (coldStart s inp)
def execWarmStart (times : List Nat) (s : State) : Out := .next (warmStart s times)
def execResumeStart (kept : Bool) (times : List Nat) (s : State) : Out := .next (resumeStart s kept times)
def execGo (s : State) : Out := .next (goWrite s)

end Sys2Proof.Machine
end

