-- ==== Sys2Proof/Machine/Tlb.lean ====
section
/-! DEFINITION. The TLB of the management core (11_exceptions_translation.md, R286, R287, R290 to R293): matching,
permissions, and the writes and invalidations of entries. -/
namespace Sys2Proof.Machine

/-- The bits of a word address within a page of size code `sz` (R286). -/
def pageBits (sz : Int) : Nat := if sz == 0 then 10 else if sz == 1 then 16 else 22

/-- The least bit of VPN, as VA[23:10], that a page of size `sz` compares. -/
def vpnShift (sz : Int) : Nat := pageBits sz - 10

/-- Entry `i` matches virtual address `va` under `asid` (R286). -/
def tlbMatch (s : State) (i : Nat) (va asid : Int) : Bool :=
  let n := vpnShift (s.get .tlbSz i)
  s.bit .tlbV i && shr (s.get .tlbVpn i) n == shr (shr va 10) n && (s.bit .tlbG i || s.get .tlbAsid i == asid)

/-- The entries that match an address, lowest first. -/
def tlbHits (s : State) (va : Int) : List Nat := (List.range 64).filter fun i => tlbMatch s i va (s.get .XC_ASID_ASID)

/-- The physical word address that entry `i` gives (R286). -/
def tlbPhysical (s : State) (i : Nat) (va : Int) : Nat :=
  let n := pageBits (s.get .tlbSz i)
  (shl (shr (shl (field (s.get .tlbPte i) 31 10) 10) n) n + va % 2 ^ n).toNat

/-- Entry `i` allows an access at the privilege `sup` (R286, R290). -/
def tlbAllows (s : State) (i : Nat) (sup : Bool) (x : Access) : Bool :=
  let p := s.get .tlbPte i
  (sup || bitAt p 5) &&
  match x with
  | .read => bitAt p 2
  | .write => bitAt p 3
  | .fetch => bitAt p 4

/-- What translation answers: a physical word address, no entry, or an entry that denies the access. -/
inductive Translated where
  | hit (pa : Nat)
  | miss
  | denied
  deriving DecidableEq, Repr

/-- The management core is translated: TEN, and not in refill mode (R286, R288). -/
def translating (s : State) : Bool := s.bit .XC_MMU_TEN && !s.bit .XC_STATUS_RM 5

/-- Translation of an access (R286); MULTI is set where several entries match. -/
def translate (s : State) (va : Int) (sup : Bool) (x : Access) : Translated × State :=
  if !translating s then (.hit va.toNat, s)
  else
    match tlbHits s va with
    | [] => (.miss, s)
    | i :: rest =>
      let s := if rest.isEmpty then s else s.raise .XC_MMU_MULTI
      (if tlbAllows s i sup x then .hit (tlbPhysical s i va) else .denied, s)

/-- A page-table entry as the TLB stores it (R287): a page with any word of the data-plane and system registers is a device
page and not cacheable, one with any TCM or WCS word is not cacheable. -/
def tlbData (pte sz : Int) : Int :=
  let n := pageBits sz
  let lo := shl (shr (shl (field pte 31 10) 10) n) n
  let hi := lo + 2 ^ n
  let meets := fun (a b : Int) => decide (lo < b ∧ a < hi)
  let dev := meets 0x400000 0x1000000
  let local_ := (List.range 5).any (fun k => meets (0x200000 + 0x20000 * k) (0x210000 + 0x20000 * k)) || meets 0x300000 0x302000
  let p := pte - 128 * field pte 7 7 - 256 * field pte 8 8
  if dev then p + 256 else if local_ then p else p + 128 * field pte 7 7

/-- Write entry `i`. -/
def tlbPut (s : State) (i : Nat) (vpn asid sz : Int) (g v : Bool) (pte : Int) : State :=
  let s := ((s.put .tlbV (bit01 v) i).put .tlbVpn vpn i).put .tlbAsid asid i
  ((s.put .tlbSz sz i).put .tlbG (bit01 g) i).put .tlbPte (tlbData pte sz) i

/-- Entry `i` covers some of the page of `vpn` with size `sz` for the same address space. -/
def tlbMeets (s : State) (i : Nat) (vpn asid sz : Int) (g : Bool) : Bool :=
  let n := max (vpnShift (s.get .tlbSz i)) (vpnShift sz)
  s.bit .tlbV i && shr (s.get .tlbVpn i) n == shr vpn n && (s.bit .tlbG i || g || s.get .tlbAsid i == asid)

/-- TLBWR (R291): entries that match the new page are invalidated, entry RP is written, and RP advances over WIRED to 63. -/
def tlbwr (s : State) (pte sz : Int) : State :=
  let vpn := field (s.get .XC_TLBVA_VA) 23 10
  let asid := s.get .XC_TLBVA_ASID
  let g := bitAt pte 6
  let s := s.each ((List.range 64).filter fun i => tlbMeets s i vpn asid sz g) fun s i => s.clear .tlbV i
  let i := max (s.nat .XC_MMU_RP) (s.nat .XC_MMU_WIRED)
  let s := tlbPut s i vpn asid sz g (bitAt pte 0) pte
  s.put .XC_MMU_RP (if i ≥ 63 then s.get .XC_MMU_WIRED else ((i + 1 : Nat) : Int))

/-- TLBINV (R291): of all entries, of the non-global entries of an ASID, or of the entries matching an address. -/
def tlbinvAll (s : State) : State := s.each (List.range 64) fun s i => s.clear .tlbV i
def tlbinvAsid (s : State) (asid : Int) : State :=
  s.each ((List.range 64).filter fun i => !s.bit .tlbG i && s.get .tlbAsid i == asid) fun s i => s.clear .tlbV i
def tlbinvVa (s : State) (va : Int) : State := s.each (tlbHits s va) fun s i => s.clear .tlbV i

/-- A write of XC_ASID (R292, R298): with FLUSH every non-global entry is cleared. -/
def asidWrite (s : State) (v : Int) : State :=
  let s := s.put .XC_ASID_ASID (field v 7 0)
  if bitAt v 15 then s.each ((List.range 64).filter fun i => !s.bit .tlbG i) fun s i => s.clear .tlbV i else s

/-- A write of XC_TLBOP (R298): RD reads entry TLBIDX into TAG and PTE, WR writes it from them. -/
def tlbOp (s : State) (rd wr : Bool) : State :=
  let i := s.nat .XC_TLBIDX
  let s := if rd then
      let s := ((s.put .XC_TLBTAG_VPN (s.get .tlbVpn i)).put .XC_TLBTAG_ASID (s.get .tlbAsid i)).put .XC_TLBTAG_SZ (s.get .tlbSz i)
      ((s.put .XC_TLBTAG_G (s.get .tlbG i)).put .XC_TLBTAG_V (s.get .tlbV i)).put .XC_TLBPTE (s.get .tlbPte i)
    else s
  if wr then
    tlbPut s i (s.get .XC_TLBTAG_VPN) (s.get .XC_TLBTAG_ASID) (s.get .XC_TLBTAG_SZ) (s.bit .XC_TLBTAG_G) (s.bit .XC_TLBTAG_V)
      (s.get .XC_TLBPTE)
  else s

end Sys2Proof.Machine
end

