-- ==== Sys2Proof/Machine/Access.lean ====
section
/-! DEFINITION. Register accesses (00_scope.md R6 to R11; 15_memory_dma_recorder.md R476; the access rules of the chapters):
who reaches a register, what a read returns and latches, and what a write stores or does. -/
namespace Sys2Proof.Machine

/-- How a bus access ends: done, a bus error (R10), or a protection fault. -/
inductive AccRes where
  | ok | bus | prot
  deriving DecidableEq, Repr

/-! Who reaches what. -/

/-- The user page of the event network (R216). -/
def userPage (a : Nat) : Bool := decide (0x450800 ≤ a ∧ a < 0x450C00)

/-- Tick core `k` supervises domain `d`: it does the duties of the set that the domain belongs to (R336). -/
def supervises (s : State) (k d : Nat) : Bool :=
  s.bit .DM_DOMCFG_USED d && s.nat .dutyPair (s.nat .domSet d) == k

/-- Tick core `k` supervises the domain of rail `r`. -/
def supervisesRail (s : State) (k r : Nat) : Bool := railDefined s r && supervises s k (s.nat .DM_RAILCFG_DOMAIN r)

/-- The data-plane register at `a` belongs to a domain, a rail, a phase or a cluster that tick core `k` supervises (R37, R65);
of a block's reserved offsets there is no owner (R476, DEDUCED, log entry 121). -/
def planeReach (s : State) (k a : Nat) : Bool :=
  match findReg a with
  | none => true
  | some (reg, i, _, _) =>
    match ownSection s reg i with
    | (2, d) => decide (d < 8) && supervises s k d
    | (3, r) => supervisesRail s k r
    | (4, p) => (memberOf s p).any fun m => supervisesRail s k m.1
    | (5, c) => (List.range 16).any fun r => supervisesRail s k r && (railSlots s r).any fun j => slotPhase s r j / 8 == c
    | _ => false

/-- A tick core reaches the register at `a` (R37, R65, R196, R216, R296, R314, R329, R341, R352, R367): the data plane of its
domains and the event network as its MPU allows, its own copy of the WCS, the distributor, the DMA windows of its channels, its
own message words, its own LS_PAIR and core window; a write that a chapter refuses with a flag of its own arrives. -/
def tickReach (s : State) (k a : Nat) (wr : Bool) : Bool :=
  if (0x400000 ≤ a ∧ a < 0x450000) ∨ (0x470000 ≤ a ∧ a < 0x480000) then planeReach s k a
  else if a < 0x810000 then true
  else if a < 0x820000 then wr || a ≥ 0x810100 || dmaOwner s ((a - 0x810000) / 16) == k
  else if 0x830000 ≤ a ∧ a < 0x840000 then decide (0x830100 + 16 * k ≤ a ∧ a < 0x830110 + 16 * k)
  else if 0x870000 ≤ a ∧ a < 0x871000 then wr || decide (a = 0x870000 + 16 * k)
  else if 0x871000 ≤ a ∧ a < 0x880000 then !wr && decide (0x871000 + 256 * k ≤ a ∧ a < 0x871100 + 256 * k)
  else false

/-- User code of the management core reaches the register at `a`: the user page (R216); a write of EV_PROXYPUB arrives, to be
refused with a flag (R205). -/
def userReach (a : Nat) (wr : Bool) : Bool := userPage a || (wr && a == 0x450005)

/-- The agent reaches the register at `a`: the management core at supervisor privilege reaches all of them, its user code
the user page, and the WCS, which refuses its writes with a flag (R310). -/
def mayReach (s : State) (ag : Agent) (a : Nat) (wr : Bool) : Bool :=
  let (k, sup) := agentCore s ag
  if k = 5 then sup || userReach a wr || region a == .wcs else tickReach s k a wr

/-- A register access at `a` ends in a bus error (R10, R476): no window of a device region and not the WCS region. -/
def noRegister (a : Nat) : Bool := region a != .device && region a != .wcs

/-! Reads. -/

/-- TICK[63:16] and the other values that a register forms at the read; SL_RTB shows TB as it stood at the start of the tick (DESIGN
CHOICE, log entry 115). -/
def shown (s : State) (ag : Agent) (f : Fld) (i j : Nat) : Int :=
  match f with
  | .DM_TICKLO => s.now % 2 ^ 32
  | .DM_TICKHI => shr s.now 32 % 2 ^ 32
  | .SL_RTB => timebase s i (320 * s.now)
  | .IR_SRCST_PEND => bit01 (irPending s i)
  | .IR_SRCST_RAW => bit01 (rawLevel s i)
  | .IR_SRCST_ETGT => effTarget s i
  | .IR_SRCCFG_TGT => irTarget s i
  | .IR_CBEST_SRC => ((presented s i).map fun (n : Nat) => (n : Int)).getD 255
  | .IR_CBEST_PRIO => ((presented s i).map fun n => s.get .IR_SRCCFG_PRIO n).getD 0
  | .EV_UWATCH => userWatch s
  | .IM_TRIAL_LEFT => trialLeft s
  | .UC_PAGEUSE => pageUse s
  | .UC_STATUS_EPEND => bit01 (entriesPend s)
  | .UC_DEC_START => field (decEntry s (agentCore s ag).1 i) 5 0
  | .UC_DEC_PAGE => field (decEntry s (agentCore s ag).1 i) 9 6
  | .UC_DEC_VALID => field (decEntry s (agentCore s ag).1 i) 10 10
  | .UC_DEC_MCONLY => field (decEntry s (agentCore s ag).1 i) 11 11
  | .UC_DEC_PRIV => field (decEntry s (agentCore s ag).1 i) 12 12
  | .PW_STATE_IDLE => bit01 (othersIdle s)
  | _ => s.get f i j

/-- The fields that a lane holds for each of its slots; a slot at or above the member count reads 0 (R88). -/
def slotField (f : Fld) : Bool := fldIn f .LN_MAP_PHASE .LN_MAP_ACT || f == .LN_BALOFS || f == .LN_BAL || f == .LN_PCMD

/-- What a field returns on a read (R7): WO fields read 0, RW fields the value last written. -/
def readField (s : State) (ag : Agent) (f : FieldRow) (i j : Nat) : Int :=
  if slotField f.fld && !s.bit .LN_MAP_VALID i j then 0
  else match f.acc with
  | .wo => 0
  | .rw | .rwl => if f.fld == .SL_RPER || fldIn f.fld .UC_DEC_START .UC_DEC_PRIV || f.fld == .IR_SRCCFG_TGT then shown s ag f.fld i j
      else s.written ⟨f.fld, i, j⟩
  | _ => shown s ag f.fld i j

/-- The bits of a register as a read finds them; reserved bits read 0 (R10). -/
def regRaw (s : State) (ag : Agent) (reg : RegRow) (i j : Nat) : Int :=
  sumI (reg.fields.map fun f => shl (unsigned (f.hi + 1 - f.lo) (readField s ag f i j)) f.lo)

/-- Word `w` of a register's bits. -/
def rawWord (v : Int) (w : Nat) : Int := field v (16 * w + 15) (16 * w)

/-- The live value of the word at `a`; a reserved offset reads 0. -/
def liveWord (s : State) (ag : Agent) (a : Nat) : Int :=
  match findReg a with
  | none => 0
  | some (reg, i, j, w) => rawWord (regRaw s ag reg i j) w

/-- The addresses whose values a read of `a` latches (R6, R34, R49 and the tables' own latching). -/
def latchedBy (a : Nat) : List Nat :=
  if a = 0x414000 then [0x414001, 0x414002, 0x414003]
  else if 0x400400 ≤ a ∧ a < 0x400800 ∧ a % 8 = 3 then [a + 1, a + 2, a + 3]
  else if 0x400800 ≤ a ∧ a < 0x400880 ∧ a % 8 = 0 then [a + 1, a + 2, a + 3, a + 4]
  else if 0x460000 ≤ a ∧ a < 0x460400 ∧ a % 32 = 4 then [a + 1, a + 2, a + 3, a + 4]
  else
    match findReg a with
    | some (reg, _, _, 0) => if reg.latch then (List.range (reg.words - 1)).map fun x => a + x + 1 else []
    | _ => []

/-- The word at `a` is served from a snapshot. -/
def fromLatch (a : Nat) : Bool :=
  if 0x414001 ≤ a ∧ a ≤ 0x414003 then true
  else if 0x400400 ≤ a ∧ a < 0x400800 then a % 8 = 4 || a % 8 = 5 || a % 8 = 6
  else if 0x400800 ≤ a ∧ a < 0x400880 then a % 8 = 1 || a % 8 = 2 || a % 8 = 3 || a % 8 = 4
  else if 0x460000 ≤ a ∧ a < 0x460400 ∧ a % 32 = 8 then true
  else
    match findReg a with
    | some (reg, _, _, w) => reg.latch && decide (w > 0)
    | none => false

/-- The RC fields of the word at `a` are cleared by the read (R7). -/
def clearOnRead (s : State) (a : Nat) : State :=
  match findReg a with
  | none => s
  | some (reg, i, j, w) => s.each (reg.fields.filter fun f => f.acc == .rc && inWord f w) fun s f => s.clear f.fld i j

/-- A read of the register word at `a`: what it returns and what it latches and clears. JTAG debug reads have a snapshot
of their own and clear nothing (R9). -/
def regRead (s : State) (ag : Agent) (a : Nat) : Int × State :=
  let f := if ag = .jtag then Fld.latchDbg else Fld.latchWord
  if fromLatch a then (s.get f a, s)
  else
    let v := liveWord s ag a
    let t := s.each (latchedBy a) fun t x => t.put f (liveWord s ag x) x
    (v, if ag = .jtag then t else clearOnRead t a)

/-- A read access of an agent. -/
def busRead (s : State) (ag : Agent) (a : Nat) : AccRes × Int × State :=
  if noRegister a then (.bus, 0, s)
  else if !mayReach s ag a false then (.prot, 0, s)
  else
    let (v, s) := regRead s ag a
    (.ok, v, s)

/-! Writes. -/

/-- The RW/L field is locked: the counts by PH_CTRL.LOCK (R185), the core windows and the watchdog by XC_CTRL.LOCK (R296,
R441). -/
def rwlLocked (s : State) (f : Fld) (i : Nat) : Bool :=
  if f == .PH_CHG || f == .PH_HCYC || f == .PH_STARTS then s.bit .PH_CTRL_LOCK
  else if f == .XC_GTBASE || f == .XC_MMU_WIRED || f == .PW_WDOG_TMO then s.bit .XC_CTRL_LOCK 5
  else s.bit .XC_CTRL_LOCK i

/-- A write to the register takes effect at the next control-tick boundary (R33): the data plane and the capture timers. -/
def tickTimed (a : Nat) : Bool := decide ((0x400000 ≤ a ∧ a < 0x450000) ∨ (0x460000 ≤ a ∧ a < 0x480000))

/-- A written value is within the bounds of the image and legal (R11, R36). -/
def writable (s : State) (f : Fld) (v : Int) (i j : Nat) : Bool := legal f v && s.inBound ⟨f, i, j⟩ v

/-- The bits that a write gives a field, at their place in the field: of the whole register (`w` none) or of one word. -/
def givenBits (f : FieldRow) (w : Option Nat) (v : Int) : Int :=
  match w with
  | none => field v f.hi f.lo
  | some w =>
    let lo := max f.lo (16 * w)
    let hi := min f.hi (16 * w + 15)
    shl (field v (hi - 16 * w) (lo - 16 * w)) (lo - f.lo)

/-- The value that a write gives a stored field. -/
def newValue (s : State) (f : FieldRow) (i j : Nat) (w : Option Nat) (v : Int) : Int :=
  match w with
  | none => f.show (field v f.hi f.lo)
  | some w => mergeWord f (s.written ⟨f.fld, i, j⟩) w v

/-- A field as R7 stores it; a value that is not stored is reported (R11). -/
def storeField (s : State) (a : Nat) (f : FieldRow) (i j : Nat) (w : Option Nat) (v : Int) : State :=
  match f.acc with
  | .ro | .rc | .wo => s
  | .w1c => s.clrBits f.fld (givenBits f w v) i j
  | .w1s => s.setBits f.fld (givenBits f w v) i j
  | .rw =>
    let x := newValue s f i j w v
    if !writable s f.fld x i j then reportIllegal s f.fld i
    else if tickTimed a then s.later f.fld x i j else s.put f.fld x i j
  | .rwl =>
    if rwlLocked s f.fld i then s
    else
      let x := newValue s f i j w v
      if !writable s f.fld x i j then reportIllegal s f.fld i
      else if tickTimed a then s.later f.fld x i j else s.put f.fld x i j

/-- The fields of a register that a write of the whole of it, or of one word, reaches. -/
def touched (reg : RegRow) (w : Option Nat) : List FieldRow :=
  match w with
  | none => reg.fields
  | some w => reg.fields.filter fun f => inWord f w

/-- The fields of a register as R7 stores them. -/
def storeFields (s : State) (reg : RegRow) (i j : Nat) (w : Option Nat) (v : Int) : State :=
  s.each (touched reg w) fun s f => storeField s reg.base f i j w v

/-- The weir's window would stay open, and a relative transient window inside its relative protection window, with the
values as they will stand at the next boundary (R158). The registers are those in use: a serving spare's stand for those of the
weir served (R178). -/
def windowLegal (s : State) (f : Fld) (w : Nat) (v : Int) : Bool :=
  let code := fun (g : Fld) (x : Nat) => thresholdCode s x (if g == f && x == w then v else s.written ⟨g, x, 0⟩)
  let served := formatWeir s w
  decide (code .WR_LO w < code .WR_HI w) &&
  (if 128 ≤ served ∧ served < 160 ∧ configWeir s served = w then
    let p := configWeir s (served / 2 * 2)
    let t := configWeir s (served / 2 * 2 + 1)
    s.bit .WR_CFG_ABS p || s.bit .WR_CFG_ABS t || decide (code .WR_LO p ≤ code .WR_LO t ∧ code .WR_HI t ≤ code .WR_HI p)
  else true)

/-- A threshold lies within the image's bounds, all compared in the format that R157 gives the weir (R158). -/
def thresholdBound (s : State) (f : Fld) (w : Nat) (v : Int) : Bool :=
  let code := thresholdCode s w
  match s.boundOf ⟨f, w, 0⟩ with
  | none => true
  | some (lo, hi) => (decide (lo < 0) || decide (code lo ≤ code v)) && (decide (1023 < hi) || decide (code v ≤ code hi))

/-- A write of a threshold (R158). -/
def thresholdWrite (s : State) (f : Fld) (w : Nat) (v : Int) : State :=
  let x := field v 9 0
  if thresholdBound s f w x && windowLegal s f w x then s.later f x w else s.raise .WP_STATUS_CFGERR

/-- A write of a cluster's temperature limit: the lower one above the upper is illegal (R52). -/
def tempLimitWrite (s : State) (f : Fld) (c : Nat) (v : Int) : State :=
  let x := signed 16 v
  let lo := if f == .FL_TMRLO then x else s.written ⟨.FL_TMRLO, c, 0⟩
  let hi := if f == .FL_TMRHI then x else s.written ⟨.FL_TMRHI, c, 0⟩
  if writable s f x c 0 && decide (lo ≤ hi) then s.later f x c else s.raise .FL_STATUS_CFGERR

/-- A write of PH_SHADD or PH_SHDROP: PHDROP at or above PHADD is illegal (R187, R404). -/
def shedWrite (s : State) (f : Fld) (r : Nat) (v : Int) : State :=
  let x := field v 11 0
  let add := if f == .PH_SHADD then x else s.written ⟨.PH_SHADD, r, 0⟩
  let drop := if f == .PH_SHDROP then x else s.written ⟨.PH_SHDROP, r, 0⟩
  if writable s f x r 0 && decide (drop < add) then s.later f x r else s.raise .PH_STATUS_CFGERR

/-- A write of SL_PTEST.FORCE: not stored while the phase's rail runs (R117). -/
def forceWrite (s : State) (p : Nat) (v : Int) : State :=
  let runs := match memberOf s p with
    | some (r, _) => railRuns s r
    | none => false
  if runs || !legal .SL_PTEST_FORCE (field v 1 0) then s.raise .SL_STATUS_CFGERR else s.later .SL_PTEST_FORCE (field v 1 0) p

/-- Registers of the data plane whose writes do more than store (none: an ordinary register). -/
def dataWrite (s : State) (base i j : Nat) (reg : RegRow) (w : Option Nat) (v : Int) : Option State :=
  let stored := storeFields s reg i j w v
  match base with
  | 0x400004 => some (if bitAt v 5 && legal .FL_ROTCTL_TGT (field v 4 0) then rotationStep stored (field v 4 0).toNat else stored)
  | 0x400005 => some (if bitAt v 15 then declareConverter stored (field v 6 0).toNat (bitAt v 7) else stored)
  | 0x400C00 => some (tempLimitWrite s .FL_TMRLO i v)
  | 0x400C01 => some (tempLimitWrite s .FL_TMRHI i v)
  | 0x410140 => some (if s.bit .LN_MAP_VALID i j then stored else s)
  | 0x410003 => some ((s.when (bitAt v 0) fun s => commitBank s i).when (bitAt v 1) fun s => copyBank s i)
  | 0x410004 => some (if legal .LN_VSET (field v 13 0) then setpointWrite s i (field v 13 0) else reportIllegal s .LN_VSET i)
  | 0x414101 =>
    let s := stored.when (bitAt v 1) fun s => fclrWrite s i
    some (s.when (bitAt v 2) fun s => rsreqWrite s i)
  | 0x420004 => some (s.when (bitAt v 0) fun s => s.raise .insReq i)
  | 0x42000C => some (forceWrite s i v)
  | 0x422002 =>
    let x := field v 17 0
    some (if writable s .SL_RPER x i 0 then s.later .perNext x i else s.raise .SL_STATUS_CFGERR)
  | 0x422018 => some (s.each reg.fields fun s f => s.setBits .addReq (givenBits f w v) i)
  | 0x42201C => some (s.each reg.fields fun s f => s.setBits .dropReq (givenBits f w v) i)
  | 0x422020 => some (s.when (bitAt v 0) fun s => s.raise .insAllReq i)
  | 0x422401 => some (if bitAt v 15 then csubWrite stored i (field v 2 0).toNat else stored)
  | 0x430001 => some (thresholdWrite s .WR_LO i v)
  | 0x430002 => some (thresholdWrite s .WR_HI i v)
  | 0x430C01 => some (if bitAt v 15 && legal .WP_SUB_IDX (field v 7 0) then declareWeir stored (field v 7 0).toNat else stored)
  | 0x440806 => some (if bitAt v 31 then grantDecide stored i (field v 21 0) else stored)
  | 0x470000 => some (stored.when (bitAt v 1) snapStart)
  | 0x470102 => some (shedWrite s .PH_SHADD i v)
  | 0x470103 => some (shedWrite s .PH_SHDROP i v)
  | 0x470400 => some (if s.bit .PH_CTRL_LOCK then s else stored.later .chgLow 0 i)
  | 0x470409 =>
    let s := s.when (bitAt v 0) fun s => retirePhase s i (field v 7 4).toNat
    some (s.when (bitAt v 1) fun s => unretPhase s i)
  | _ =>
    match reg.fields.head? with
    | some f => if bankFields.contains f.fld then some (bankWrite s f.fld i j (newValue s f i j w v)) else none
    | none => none

/-- Registers of the event network whose writes do more than store (R204 to R208). -/
def eventWrite (s : State) (ag : Agent) (base i : Nat) (reg : RegRow) (w : Option Nat) (v : Int) : Option State :=
  let (k, sup) := agentCore s ag
  let go := bitAt v 15
  let ch := (field v 5 0).toNat
  let bits := sumI (reg.fields.map fun f => givenBits f w v)
  let whole := unsigned 64 (sumI (reg.fields.map fun f => newValue s f i 0 w v))
  match base with
  | 0x450004 => some (if go then corePublish s k sup ch else s)
  | 0x450005 => some (if go then proxyPublish s k sup ch else s)
  | 0x450800 => some (if go then userPublish s k ch else s)
  | 0x450014 => some (tripWrite s bits)
  | 0x45001C => some (maskWrite s .EV_WAKE 0 whole)
  | 0x450020 => some (maskWrite s .EV_WFEMASK i whole)
  | 0x450100 => some (chCfgWrite s i v)
  | 0x450101 => some (chSgWrite s i v)
  | 0x450200 => some (turnoutWrite s k sup i ch (bitAt v 6))
  | _ => none

/-- Registers of the interrupt distributor (R329). -/
def irWrite (s : State) (ag : Agent) (base i : Nat) (reg : RegRow) (w : Option Nat) (v : Int) : State :=
  let k := (agentCore s ag).1
  match base with
  | 0x800000 => if irMayWrite s k i false then irCfgWrite s i v else irRefuse s
  | 0x800001 => if irMayWrite s k i false then irRlWrite s i v else irRefuse s
  | 0x800002 =>
    if irMayWrite s k i (!bitAt v 4 && !bitAt v 5) then
      let s := s.when (bitAt v 1) fun s => spend s i
      let s := s.when (bitAt v 4) fun s => s.clear .IR_SRCST_RLIM i
      s.when (bitAt v 5) fun s => s.clear .IR_SRCST_STRAND i
    else irRefuse s
  | 0x800003 => if irMayWrite s k i true then s.when (bitAt v 0) fun s => clearPending s i else irRefuse s
  | _ => if k = 5 then storeFields s reg i 0 w v else irRefuse s

/-- Registers of a DMA channel (R352, R358, R367). -/
def dmaWrite (s : State) (ag : Agent) (base c : Nat) (reg : RegRow) (w : Option Nat) (v : Int) : State :=
  if !dmaMayWrite s ag c then dmaRefuse s c
  else
    match base with
    | 0x810000 => dmaCfgWrite s c v
    | 0x810001 =>
      let s := storeFields s reg c 0 w v
      s.when (bitAt v 10) fun s => s.clear .dmaRaised c
    | 0x810002 => dmaCtlWrite s c v
    | 0x810004 => dmaAddrWrite s .DMA_SRC c v
    | 0x810006 => dmaAddrWrite s .DMA_DST c v
    | 0x810008 => if isSg c then storeFields s reg c 0 w v else s
    | 0x81000C => dmaCntWrite s c v
    | _ => storeFields s reg c 0 w v

/-- Registers of the WCS and the decode tables (R310, R314). -/
def ucWrite (s : State) (ag : Agent) (base i : Nat) (reg : RegRow) (w : Option Nat) (v : Int) : State :=
  let (k, sup) := agentCore s ag
  match base with
  | 0x300000 => microwordWrite s k sup i v
  | 0x301000 => decodeEntryWrite s k sup i v
  | _ => if k = 5 && sup then storeFields s reg i 0 w v else s.raise .UC_STATUS_LDERR

/-- The other system registers whose writes do more than store. -/
def systemWrite (s : State) (ag : Agent) (base i : Nat) (reg : RegRow) (w : Option Nat) (v : Int) : Option State :=
  let k := (agentCore s ag).1
  let stored := storeFields s reg i 0 w v
  match base with
  | 0x820008 => some (retAdd s (field v 19 0).toNat)
  | 0x820840 => some (stored.when (bitAt v 4) scrubGo)
  | 0x830000 => some (recCtrlWrite s v)
  | 0x830002 => some (recBaseWrite s v)
  | 0x830008 => some (frzPostWrite s v)
  | 0x830014 => some (if popCount v ≤ 8 then stored else s.raise .RC_STATUS_CFGERR)
  | 0x83010F => some (s.when (bitAt v 0) fun s => msgGo s i)
  | 0x840008 => some ((stored.when (bitAt v 0) hgTake).when (bitAt v 1) hgDone)
  | 0x840042 => some (s.when (bitAt v 0) fun s => portReset s i)
  | 0x851008 => some (s.when (bitAt v 0) goWrite)
  | 0x85100A => some (stored.when (bitAt v 10) fun s => s.clear .IM_TRIAL_RUN)
  | 0x851012 => some (slWrite s (s.nat .IM_SLADDR) v)
  | 0x851013 => some (rsDoneWrite s v)
  | 0x860000 => some ((sleepRequest s (field v 1 0).toNat).when (bitAt v 2) fun s => mcReset s 1)
  | 0x860008 => some (if rwlLocked s .PW_WDOG_TMO 0 then s else wdRestart stored)
  | 0x860009 => some (watchdogKick s v)
  | 0x860010 => some (tickCoreRun s i (bitAt v 0))
  | 0x870081 => some (s.when (bitAt v 0) fun s => takeoverDone s k)
  | 0x871542 => some (asidWrite s v)
  | 0x871550 => some (tlbOp s (bitAt v 0) (bitAt v 1))
  | _ => none

/-- A register, or one word of it, is stored. Writes of the lock-step registers by another than the management core are
ignored but for LS_TKOVER (R341). -/
def regStore (s : State) (ag : Agent) (reg : RegRow) (i j : Nat) (w : Option Nat) (v : Int) : State :=
  let base := reg.base
  if base < 0x310000 then ucWrite s ag base i reg w v
  else if 0x800000 ≤ base ∧ base < 0x810000 then irWrite s ag base i reg w v
  else if 0x810000 ≤ base ∧ base < 0x820000 then dmaWrite s ag base i reg w v
  else if 0x870000 ≤ base ∧ base < 0x870081 ∧ (agentCore s ag).1 ≠ 5 then s
  else
    let special :=
      if 0x450000 ≤ base ∧ base < 0x460000 then eventWrite s ag base i reg w v
      else if base < 0x800000 then dataWrite s base i j reg w v
      else systemWrite s ag base i reg w v
    special.getD (storeFields s reg i j w v)

/-- A write at a reserved offset has no effect (R10) but in the distributor, where every write of a tick core is refused (R329). -/
def reservedWrite (s : State) (ag : Agent) (a : Nat) : State :=
  if 0x800000 ≤ a ∧ a < 0x810000 ∧ (agentCore s ag).1 ≠ 5 then irRefuse s else s

/-- A write of the register word at `a` (R6): the lower words of a holding register are held, its highest word stores them
all; a word that has not been written since the last store is taken from the present value. A microword's words are held only
from who may write it (R310). -/
def regWrite (s : State) (ag : Agent) (a : Nat) (v : Int) : State :=
  match findReg a with
  | none => reservedWrite s ag a
  | some (reg, i, j, w) =>
    let (k, sup) := agentCore s ag
    if reg.base == 0x300000 && !ucMayWrite s k sup (decide (i ≥ 768)) then s.raise .UC_STATUS_LDERR
    else if reg.hold && decide (w + 1 < reg.words) then (s.put .holdWord v a).raise .holdMark a
    else if reg.hold then
      let cur := regRaw s ag reg i j
      let low := (List.range w).map fun x =>
        let b := a - w + x
        shl (if s.bit .holdMark b then s.get .holdWord b else rawWord cur x) (16 * x)
      let s := s.each (List.range w) fun s x => (s.clear .holdMark (a - w + x)).clear .holdWord (a - w + x)
      regStore s ag reg i j none (sumI low + shl v (16 * w))
    else regStore s ag reg i j (if reg.words = 1 then none else some w) v

/-- A write access of an agent. -/
def busWrite (s : State) (ag : Agent) (a : Nat) (v : Int) : AccRes × State :=
  if noRegister a then (.bus, s)
  else if !mayReach s ag a true then (.prot, s)
  else (.ok, regWrite s ag a v)

/-! The commands. The model's view of the bus shows what the last read returned, and whether the last access failed. -/

/-- Show the end of an access. -/
def showEnd (s : State) (r : AccRes) : State := s.put .readError (bit01 (r != .ok))

/-- The MPU of a tick core that accesses the bus by a command allows the access (R37, R294). -/
def agentAllows (s : State) (ag : Agent) (a : Nat) (x : Access) : Bool :=
  let (k, _) := agentCore s ag
  k == 5 || mpuAllows s k a x

/-- A read as a command. -/
def readCommand (s : State) (ag : Agent) (a : Nat) : State :=
  let (r, v, s) := if agentAllows s ag a .read then busRead s ag a else (.prot, 0, s)
  (showEnd s r).put .readData v

/-- A write as a command. -/
def writeCommand (s : State) (ag : Agent) (a : Nat) (v : Int) : State :=
  let (r, s) := if agentAllows s ag a .write then busWrite s ag a v else (.prot, s)
  showEnd s r

/-- The word is a lower word, or the highest word, of a holding register. -/
def holdsLow (a : Nat) : Bool :=
  match findReg a with
  | some (reg, _, _, w) => reg.hold && decide (w + 1 < reg.words)
  | none => false
def holdsHigh (a : Nat) : Bool :=
  match findReg a with
  | some (reg, _, _, w) => reg.hold && decide (w + 1 = reg.words)
  | none => false

/-- The address of a sense channel's MEAN register, or of its one result (R49, R65). -/
def meanAddr : SenseChannel → Nat
  | .phase p => 0x400403 + 8 * (p : Nat)
  | .rail r => 0x400800 + 8 * (r : Nat)
  | .aux a => 0x400A03 + 8 * (a : Nat)
  | .temp c => 0x400104 + 8 * (c : Nat)

def execRegisterWrite (by_ : Agent) (a : Addr) (v : W16) (s : State) : Out := .next (writeCommand s by_ a.toNat v.toNat)
def execHoldingLowWrite (by_ : Agent) (a : Addr) (v : W16) (s : State) : Out :=
  .next (if holdsLow a.toNat then writeCommand s by_ a.toNat v.toNat else s)
def execHoldingHighWrite (by_ : Agent) (a : Addr) (v : W16) (s : State) : Out :=
  .next (if holdsHigh a.toNat then writeCommand s by_ a.toNat v.toNat else s)
def execLatchingRead (by_ : Agent) (a : Addr) (s : State) : Out :=
  .next (if (latchedBy a.toNat).isEmpty then s else readCommand s by_ a.toNat)
def execTickRead (by_ : Agent) (s : State) : Out := .next (readCommand s by_ 0x414000)
def execReductionRead (by_ : Agent) (ch : SenseChannel) (s : State) : Out := .next (readCommand s by_ (meanAddr ch))
def execRcRead (by_ : Agent) (a : Addr) (s : State) : Out := .next (readCommand s by_ a.toNat)
/-- JTAG_DEBUG_READ (R9): refused with the production debug lock (R397). -/
def execJtagDebugRead (a : Addr) (s : State) : Out :=
  .next (if s.bit .OT_STATUS_DBGLOCK then showEnd s .prot else readCommand s .jtag a.toNat)
/-- XC_LOCK (R296): only the management core at supervisor privilege writes the core windows. -/
def execXcLock (by_ : Agent) (k : CoreId) (s : State) : Out :=
  .next (writeCommand s by_ (0x871002 + 256 * (k : Nat)) 1)
def execAsidWrite (by_ : Agent) (asid : BitVec 8) (flush : Bool) (s : State) : Out :=
  .next (writeCommand s by_ 0x871542 (asid.toNat + if flush then 0x8000 else 0))
def execTlbop (by_ : Agent) (rd wr : Bool) (s : State) : Out :=
  .next (writeCommand s by_ 0x871550 (bit01 rd + 2 * bit01 wr))

end Sys2Proof.Machine
end

