-- ==== Sys2Proof/Machine/DmaRun.lean ====
section
/-! DEFINITION. The copying of the DMA engine (15_memory_dma_recorder.md, R352 to R358): words, descriptors and retries. -/
namespace Sys2Proof.Machine

/-- An access to the word waits for a retirement copy of its page or a repair copy of its row (R344, R358). -/
def accessWaits (s : State) (a : Nat) : Bool :=
  match region a with
  | .ddr => (retiredAt s (pageOf a)).any (copyPending s)
  | _ =>
    match sramOf a with
    | some (m, base) => s.bit .rrBusy m && s.get .rrRow m == (((a - base) / 512 : Nat) : Int)
    | none => false

/-- A physical read of a word by an agent: of memory, or of a register; none where it fails. -/
def physRead (s : State) (ag : Agent) (a : Nat) : Option W16 × State :=
  match region a with
  | .device | .wcs =>
    match busRead s ag a with
    | (.ok, v, s) => (some (BitVec.ofInt 16 v), s)
    | (_, _, s) => (none, s)
  | _ => memRead s a

/-- A physical write of a word by an agent: false where it fails. -/
def physWrite (s : State) (ag : Agent) (a : Nat) (v : W16) : Bool × State :=
  match region a with
  | .device | .wcs =>
    match busWrite s ag a v.toNat with
    | (.ok, s) => (true, s)
    | (_, s) => (false, s)
  | _ => memWrite s a v

/-- The address check of a channel that a tick core owns (R352). -/
def dmaAllows (s : State) (c a : Nat) (x : Access) : Bool :=
  let k := dmaOwner s c
  k == 5 || (decide (a < 0x1000000) && mpuAllows s k a x)

/-- The channel can make an access now. -/
def dmaRuns (s : State) (c : Nat) : Bool := s.bit .DMA_STAT_BUSY c && !s.bit .DMA_STAT_HALT c

/-- The next address (R353): one that WRAPSEL selects (bit 0 the source, bit 1 the destination) wraps in its block. -/
def dmaStep (s : State) (c a : Nat) (b : Nat) : Nat :=
  let n := 2 ^ s.nat .DMA_CFG_WRAP c
  if !isSg c && s.bitOf .DMA_CFG_WRAPSEL b c then a / n * n + (a + 1) % n else (a + 1) % 2 ^ 32

/-- The end of a descriptor's span (R355), or of a burst (R354). -/
def dmaSpanEnd (s : State) (c : Nat) : State :=
  if !isSg c then dmaEnd s c
  else
    let s := if s.bit .dmaIrq c then dmaRaise s c else s
    if s.bit .dmaLast c then dmaEnd s c else s.raise .dmaNeed c

/-- A word has been copied: the addresses advance (R353). -/
def dmaAdvance (s : State) (c : Nat) : State :=
  let s := (s.put .DMA_SRC (dmaStep s c (s.nat .DMA_SRC c) 0) c).put .DMA_DST (dmaStep s c (s.nat .DMA_DST c) 1) c
  let s := (s.clear .dmaFail c).clear .dmaTries c
  let s := s.put .dmaLeft (s.get .dmaLeft c - 1) c
  if s.get .dmaLeft c ≤ 0 then dmaSpanEnd s c else s

/-- A failed access (R357): it waits for its retry, or the channel halts when none is left. -/
def dmaFailed (s : State) (c : Nat) (kind : Int) (a : Nat) : State :=
  if s.get .dmaTries c ≥ s.get .DMA_CFG_RETRY c then dmaRaise (dmaHalt ((s.put .DMA_ERRADDR a c).clear .dmaTries c) c kind) c
  else s.put .dmaFail kind c

/-- The write half of a word (R352). -/
def dmaStore (s : State) (c : Nat) (v : W16) : State :=
  let d := s.nat .DMA_DST c
  if !dmaAllows s c d .write then dmaHalt s c 4
  else
    match physWrite s (.dma (Fin.ofNat 16 c)) d v with
    | (true, s) => dmaAdvance s c
    | (false, s) => dmaFailed (s.put .dmaData v.toNat c) c 2 d

/-- The whole word: read, then written (R352). -/
def dmaCopy (s : State) (c : Nat) : State :=
  let a := s.nat .DMA_SRC c
  if accessWaits s a || accessWaits s (s.nat .DMA_DST c) then s
  else if !dmaAllows s c a .read then dmaHalt s c 4
  else
    match physRead s (.dma (Fin.ofNat 16 c)) a with
    | (some v, s) => dmaStore s c v
    | (none, s) => dmaFailed s c 1 a

/-- DMA_WORD (R352). -/
def dmaWord (s : State) (c : Nat) : State :=
  let s := dmaPending s c
  if !dmaRuns s c || s.bit .dmaNeed c || s.bit .dmaFail c then s else dmaCopy s c

/-- Eight words of a descriptor: none where one cannot be read, with its address. -/
def readDescriptor (s : State) (a : Nat) : Except Nat (List Int) × State :=
  (List.range 8).foldl (fun x i =>
    match x with
    | (.error e, s) => (.error e, s)
    | (.ok l, s) =>
      match memRead s (a + i) with
      | (some v, s) => (.ok (l ++ [(v.toNat : Int)]), s)
      | (none, s) => (.error (a + i), s)) (.ok [], s)

/-- A descriptor lies in MC SRAM or DDR4 (R355). -/
def descriptorPlaced (s : State) (a : Nat) : Bool :=
  let in_ := fun (x : Nat) => region x == .sram || (region x == .ddr && ddrUsable s x)
  in_ a && in_ (a + 7) && region a == region (a + 7)

/-- A descriptor is read and checked (R355). -/
def dmaFetch (s : State) (c : Nat) : State :=
  let a := s.nat .dmaNext c
  if accessWaits s a || accessWaits s (a + 7) then s
  else if !descriptorPlaced s a then dmaHalt s c 3
  else
    match readDescriptor s a with
    | (.error e, s) => dmaFailed s c 1 e
    | (.ok l, s) =>
      let w := fun i => l.getD i 0
      let s := (s.clear .dmaFail c).clear .dmaTries c
      if w 4 == 0 || w 5 ≥ 4 then dmaHalt s c 3
      else
        let s := ((s.put .DMA_SRC (w 0 + 65536 * w 1) c).put .DMA_DST (w 2 + 65536 * w 3) c).put .dmaLeft (w 4) c
        let s := (s.put .dmaLast (field (w 5) 0 0) c).put .dmaIrq (field (w 5) 1 1) c
        (s.put .dmaNext (w 6 + 65536 * w 7) c).clear .dmaNeed c

/-- DMA_DESCRIPTOR (R355). -/
def dmaDescriptor (s : State) (c : Nat) : State :=
  let s := dmaPending s c
  if !dmaRuns s c || !isSg c || !s.bit .dmaNeed c || s.bit .dmaFail c then s else dmaFetch s c

/-- DMA_RETRY (R357): the failed access is repeated. -/
def dmaRetry (s : State) (c : Nat) : State :=
  let kind := s.get .dmaFail c
  let a := if s.bit .dmaNeed c then s.nat .dmaNext c else if kind == 2 then s.nat .DMA_DST c else s.nat .DMA_SRC c
  if !dmaRuns s c || !s.bit .dmaFail c || accessWaits s a then s
  else
    let s := (s.put .dmaTries (s.get .dmaTries c + 1) c).clear .dmaFail c
    if s.bit .dmaNeed c then dmaFetch s c
    else if kind == 2 then dmaStore s c (BitVec.ofInt 16 (s.get .dmaData c))
    else dmaCopy s c

def execDmaWord (c : DmaCh) (s : State) : Out := .next (dmaWord s c)
def execDmaDescriptor (c : DmaCh) (s : State) : Out := .next (dmaDescriptor s c)
def execDmaRetry (c : DmaCh) (s : State) : Out := .next (dmaRetry s c)

end Sys2Proof.Machine
end

