-- ==== Sys2Proof/Machine/Flags.lean ====
section
/-! DEFINITION. What the arithmetic of the cores computes and which flags it gives (10_nerten_instructions.md, R244, R249 to
R255, R261): pure functions of the operands, shared by the long instructions, the paired words and the microcode. -/
namespace Sys2Proof.Machine

/-- A result of 16 bits with the flags that the instruction writes (none: unchanged), and whether it saturated. -/
structure Alu where
  r : Int
  n : Option Bool := none
  z : Option Bool := none
  c : Option Bool := none
  v : Option Bool := none
  sat : Bool := false
  deriving DecidableEq, Repr

/-- N and Z of a 16-bit result (R244). -/
def topBit (r : Int) : Bool := bitAt r 15
def isZero (r : Int) : Bool := unsigned 16 r == 0

/-- A number does not fit in 16 signed bits. -/
def outOf16 (x : Int) : Bool := satS 16 x != x

/-- Logic and moves: N and Z of the result, V cleared, C unchanged (R244). -/
def aluLogic (r : Int) : Alu := { r := unsigned 16 r, n := some (topBit r), z := some (isZero r), v := some false }

/-- The arithmetic class (R244): the exact result and the carry; V is the signed overflow of `exact`. -/
def aluArith (r : Int) (carry : Bool) (exact : Int) : Alu :=
  { r := unsigned 16 r, n := some (topBit r), z := some (isZero r), c := some carry, v := some (outOf16 exact) }

/-- d + s + cin, with operands of 16 bits: C is the carry out of bit 15 (R244). -/
def aluAdd (d s cin : Int) : Alu := aluArith (d + s + cin) (decide (d + s + cin ≥ 65536)) (signed 16 d + signed 16 s + cin)

/-- d − s − (1 − cin): C is 1 when there is no borrow (R244). -/
def aluSub (d s cin : Int) : Alu := aluArith (d - s - (1 - cin)) (decide (d - s - (1 - cin) ≥ 0)) (signed 16 d - signed 16 s - (1 - cin))

/-- A saturating form of an addition or subtraction: C as the plain operation, V and SAT where it saturated (R244). -/
def aluSat (a : Alu) (exact : Int) : Alu :=
  let r := satS 16 exact
  { r := unsigned 16 r, n := some (topBit r), z := some (isZero r), c := a.c, v := some (outOf16 exact), sat := outOf16 exact }
def aluAdds (d s : Int) : Alu := aluSat (aluAdd d s 0) (signed 16 d + signed 16 s)
def aluSubs (d s : Int) : Alu := aluSat (aluSub d s 1) (signed 16 d - signed 16 s)

/-- NEG s: 0 − s (R249, R261). -/
def aluNeg (s : Int) : Alu := aluSub 0 s 1

/-- ABS s: 0x8000 gives 0x8000 with V (R249, R261). -/
def aluAbs (s : Int) : Alu :=
  let r := absI (signed 16 s)
  { r := unsigned 16 r, n := some (topBit r), z := some (isZero r), v := some (s == 0x8000) }

/-- MIN, MAX and their unsigned forms: N and Z only (R249). -/
def aluPick (r : Int) : Alu := { r := unsigned 16 r, n := some (topBit r), z := some (isZero r) }
def aluMin (d s : Int) : Alu := aluPick (if signed 16 s < signed 16 d then s else d)
def aluMax (d s : Int) : Alu := aluPick (if signed 16 d < signed 16 s then s else d)
def aluMinu (d s : Int) : Alu := aluPick (if s < d then s else d)
def aluMaxu (d s : Int) : Alu := aluPick (if d < s then s else d)

/-- SWAPB s (R249). -/
def swapBytes (s : Int) : Int := field s 7 0 * 256 + field s 15 8

/-! Shifts and bits (R252). -/

/-- A shift's result with its C; a count of 0 leaves C unchanged. -/
def aluShift (r : Int) (c : Bool) (k : Nat) : Alu :=
  { r := unsigned 16 r, n := some (topBit r), z := some (isZero r), c := if k = 0 then none else some c, v := some false }

/-- ASR: the sign fills; from a count of 16 the result and C are the sign. -/
def aluAsr (d : Int) (k : Nat) : Alu :=
  aluShift (shr (signed 16 d) (min k 16)) (if k ≥ 16 then bitAt d 15 else bitAt d (k - 1)) k

/-- LSR: 0 from a count of 16, with C d[15] at 16 and 0 above. -/
def aluLsr (d : Int) (k : Nat) : Alu :=
  aluShift (if k ≥ 16 then 0 else shr d k) (if k > 16 then false else bitAt d (k - 1)) k

/-- SHL: 0 from a count of 16, with C d[0] at 16 and 0 above. -/
def aluShl (d : Int) (k : Nat) : Alu :=
  aluShift (if k ≥ 16 then 0 else shl d k) (if k > 16 then false else bitAt d (16 - k)) k

/-- ROR and ROL: the count modulo 16; C is r[15] for ROR and r[0] for ROL. -/
def aluRor (d : Int) (k : Nat) : Alu :=
  let n := k % 16
  let r := shr d n + unsigned 16 (shl d (16 - n))
  let r := if n = 0 then d else r
  aluShift r (bitAt r 15) n
def aluRol (d : Int) (k : Nat) : Alu :=
  let n := k % 16
  let r := if n = 0 then d else unsigned 16 (shl d n) + shr d (16 - n)
  aluShift r (bitAt r 0) n

/-- BSET, BCLR, BTGL and BTST: Z is the complement of the old bit, no other flag is written. -/
def aluBit (d : Int) (b : Nat) (f : Bool → Bool) : Alu :=
  let old := bitAt d b
  { r := d - (if old then 2 ^ b else 0) + (if f old then 2 ^ b else 0), z := some !old }

/-- Leading zeros of 16 bits, 0 to 16. -/
def leadingZeros (s : Int) : Nat := ((List.range 16).find? fun i => bitAt s (15 - i)).getD 16

/-- CLZ: N is cleared and Z set from the result (R252). -/
def aluClz (s : Int) : Alu := { r := leadingZeros s, n := some false, z := some (leadingZeros s == 0) }

/-- SHLS: a signed left shift that saturates by the sign of d (R252). -/
def aluShls (d : Int) (k : Nat) : Alu :=
  let x := shl (signed 16 d) k
  let r := satS 16 x
  { r := unsigned 16 r, n := some (topBit r), z := some (isZero r), v := some (outOf16 x), sat := outOf16 x }

/-! Multiplication and accumulators (R253). -/

/-- An accumulator result of 40 signed bits: whether N and Z are written, V, and whether V is ORed into SAT. -/
structure AccOut where
  a : Int
  nz : Bool := false
  v : Bool := false
  sticky : Bool := false
  deriving DecidableEq, Repr

/-- sat40 of an exact value; a limit that acts sets V and SAT. -/
def accSat (x : Int) (nz : Bool := false) (also : Bool := false) : AccOut :=
  { a := satS 40 x, nz := nz, v := satS 40 x != x || also, sticky := true }

/-- A value that wraps at 40 bits, with V its signed overflow and SAT unchanged. -/
def accWrap (x : Int) : AccOut := { a := signed 40 x, v := satS 40 x != x }

/-- The exact product of two d registers, by the signedness of each. -/
def product (sx sy : Bool) (x y : Int) : Int :=
  (if sx then signed 16 x else x) * (if sy then signed 16 y else y)

/-- The product of MPYF and MACF: 2 × p, with 0x8000 × 0x8000 limited to 0x7FFFFFFF. -/
def fractProduct (x y : Int) : Int := min (2 * product true true x y) 0x7FFFFFFF
def fractLimited (x y : Int) : Bool := x == 0x8000 && y == 0x8000

/-- The shifted product of the long MAC group: ((sext({d(x+1), dx}) × dz) >> 16), arithmetic. -/
def longProduct (hi lo z : Int) : Int := shr (signed 32 (hi * 65536 + lo) * signed 16 z) 16

/-- RNDA: a + 2^15 limited, with bits 15 to 0 cleared. -/
def accRound (a : Int) : AccOut :=
  let x := accSat (a + 32768) true
  { x with a := shl (shr x.a 16) 16 }

/-- SAT32: a limited to 32 signed bits. -/
def accSat32 (a : Int) : AccOut := { a := satS 32 a, nz := true, v := satS 32 a != a, sticky := true }

/-- STSAT: sat16 of a >> 16 (R253). -/
def aluStsat (a : Int) : Alu :=
  let x := shr a 16
  let r := satS 16 x
  { r := unsigned 16 r, n := some (topBit r), z := some (isZero r), v := some (outOf16 x), sat := outOf16 x }

/-! Division (R255): quotient, remainder, V and DZ. -/

/-- DIVS. -/
def divSigned (q s : Int) : Int × Int × Bool × Bool :=
  let n := signed 16 q
  let d := signed 16 s
  if d = 0 then (if n ≥ 0 then 0x7FFF else 0x8000, q, true, true)
  else if n = -32768 ∧ d = -1 then (0x8000, 0, true, false)
  else (unsigned 16 (Int.tdiv n d), unsigned 16 (Int.tmod n d), false, false)

/-- DIVU. -/
def divUnsigned (q s : Int) : Int × Int × Bool × Bool :=
  if s = 0 then (0xFFFF, q, true, true) else (q / s, q % s, false, false)

/-! Writing the flags. -/

/-- A flag that an instruction writes, or leaves. -/
def putFlag (s : State) (f : Fld) (k : Nat) (b : Option Bool) : State :=
  match b with
  | some b => s.put f (bit01 b) k
  | none => s

/-- Write the flags of a result; SAT is sticky (R244). -/
def putAlu (s : State) (k : Nat) (a : Alu) : State :=
  let s := putFlag (putFlag (putFlag s .swN k a.n) .swZ k a.z) .swC k a.c
  let s := match a.v with
    | some v => putV s k v
    | none => s
  if a.sat then s.raise .swSat k else s

/-- Write an accumulator result's flags (R253). -/
def putAcc (s : State) (k : Nat) (x : AccOut) : State :=
  let s := if x.nz then (s.put .swN (bit01 (x.a < 0)) k).put .swZ (bit01 (x.a == 0)) k else s
  if x.sticky then putVSat s k x.v else putV s k x.v

/-- A condition of R259 on the flags of core `k`, by its 4-bit code; 15 is illegal. -/
def condition (s : State) (k c : Nat) : Bool :=
  let n := s.bit .swN k
  let z := s.bit .swZ k
  let cy := s.bit .swC k
  let v := s.bit .swV k
  match c with
  | 0 => z
  | 1 => !z
  | 2 => cy
  | 3 => !cy
  | 4 => n
  | 5 => !n
  | 6 => v
  | 7 => !v
  | 8 => cy && !z
  | 9 => !cy || z
  | 10 => n == v
  | 11 => n != v
  | 12 => !z && n == v
  | 13 => z || n != v
  | _ => true

/-- The 4-bit code of a 3-bit condition (R259). -/
def longCondition (c : Nat) : Nat := if c < 4 then c else if c = 4 then 11 else if c = 5 then 10 else if c = 6 then 13 else 12

end Sys2Proof.Machine
end

