-- ==== Sys2Proof/Machine/Operands.lean ====
section
/-! DEFINITION. How a core reaches memory (09_nerten_core.md, R223 to R226, R235 to R238; 10_nerten_instructions.md, R256,
R257; 11_exceptions_translation.md, R286, R294): address modes, the checks of an access, the store buffer, loads and stores;
and the outstanding long operations (R233, R234). -/
namespace Sys2Proof.Machine

/-- An exception as it is raised (R274, R298): its number, INFO, whether the faulting access was a write, and the faulting
address. -/
structure Exc where
  vec : Nat
  info : Nat := 0
  wr : Bool := false
  faddr : Int := 0
  deriving DecidableEq, Repr

/-- The exceptions of R274. -/
def excMachineCheck := 0
def excIllegal := 1
def excPairing := 2
def excPrivileged := 3
def excOverrun := 4
def excFetch := 5
def excBus := 6
def excLate := 7
def excArith := 8
def excGate := 9
def excReturn := 10
def excRefill := 11
def excProt := 12
def excWalk := 13
def excTrap := 16

/-- A 24-bit address (R219). -/
def a24 (x : Int) : Int := unsigned 24 x

/-! Addresses (R256, R257). -/

/-- The address that a mode of LD and ST forms, the pointer that it writes with its new value, and its words. -/
def modeAddress (s : State) (k : Nat) (m : AddrMode) : Int × Option (Nat × Int) × Nat :=
  match m with
  | .ind p => (pReg s k p, none, 1)
  | .post p => (pReg s k p, some (p, a24 (pReg s k p + 1)), 1)
  | .pre p => (a24 (pReg s k p - 1), some (p, a24 (pReg s k p - 1)), 1)
  | .off2 p u => (a24 (pReg s k p + u.toNat), none, 1)
  | .off16 p o => (a24 (pReg s k p + o.toInt), none, 2)
  | .idx p d => (a24 (pReg s k p + signed 16 (dReg s k d)), none, 1)
  | .abs a => (a.toNat, none, 2)
  | .sp u => (a24 (pReg s k 7 + u.toNat), none, 1)

/-- The data register that a mode reads. -/
def modeReads (m : AddrMode) : List Nat :=
  match m with
  | .idx _ d => [(d : Nat)]
  | _ => []

/-- The address that a mode of the 32-bit moves forms, the pointer that it writes, and its words. -/
def pairAddress (s : State) (k : Nat) (m : PairMode) : Int × Option (Nat × Int) × Nat :=
  match m with
  | .ind p => (pReg s k p, none, 1)
  | .post p => (pReg s k p, some (p, a24 (pReg s k p + 2)), 1)
  | .pre p => (a24 (pReg s k p - 2), some (p, a24 (pReg s k p - 2)), 1)
  | .off16 p o => (a24 (pReg s k p + o.toInt), none, 2)

/-- The pointer that modes 1 and 2 of the 32-bit moves update. -/
def pairUpdates (m : PairMode) : Option Nat :=
  match m with
  | .post p | .pre p => some (p : Nat)
  | _ => none

/-- Write the pointer of a mode. -/
def putPointer (s : State) (k : Nat) (p : Option (Nat × Int)) : State :=
  match p with
  | some (n, v) => setP s k n v
  | none => s

/-! The checks of an access. -/

/-- The physical address of a tick core's address: its own TCM is aliased at 0x00_0000 (R217, R336). -/
def tickPhysical (s : State) (k : Nat) (va : Int) : Nat :=
  if va < 0x10000 then 0x200000 + 0x20000 * s.nat .tcmOf k + va.toNat else va.toNat

/-- The physical address lies in the tick core's own TCM. -/
def ownTcm (s : State) (k pa : Nat) : Bool := k != 5 && region pa == .tcm (s.nat .tcmOf k)

/-- A register at `pa` may be reached by core `k` at the privilege `sup`; an address with no register is left to the bus. -/
def registerReach (s : State) (k : Nat) (sup : Bool) (pa : Nat) (wr : Bool) : Bool :=
  if region pa == .device then (if k = 5 then sup || userReach pa wr else tickReach s k pa wr) else true

/-- The physical address that the TLB or the MPU lets a data access have, or the exception: a refill comes before a protection
fault (R276, R286, R294). -/
def place (s : State) (k : Nat) (sup : Bool) (va : Int) (x : Access) : Except Exc Nat × State :=
  let wr := x == .write
  let prot : Exc := { vec := excProt, wr := wr, faddr := va }
  if k = 5 then
    match translate s va sup x with
    | (.miss, s) => (.error { vec := excRefill, wr := wr, faddr := va }, s)
    | (.denied, s) => (.error prot, s)
    | (.hit pa, s) => (.ok pa, s)
  else (if mpuAllows s k va.toNat x then .ok (tickPhysical s k va) else .error prot, s)

/-- The physical address of a data access, of a register that the core reaches, or the exception. -/
def reach (s : State) (k : Nat) (sup : Bool) (va : Int) (x : Access) : Except Exc Nat × State :=
  match place s k sup va x with
  | (.error e, s) => (.error e, s)
  | (.ok pa, s) =>
    (if registerReach s k sup pa (x == .write) then .ok pa else .error { vec := excProt, wr := x == .write, faddr := va }, s)

/-- Check every word of an access, the first before the second, before any is issued (R238). -/
def reachAll (s : State) (k : Nat) (sup : Bool) (va : Int) (x : Access) (n : Nat) : Except Exc (List Nat) × State :=
  (List.range n).foldl (fun r (i : Nat) =>
    match r with
    | (.error e, s) => (.error e, s)
    | (.ok l, s) =>
      match reach s k sup (a24 (va + i)) x with
      | (.ok pa, s) => (.ok (l ++ [pa]), s)
      | (.error e, s) => (.error e, s)) (.ok [], s)

/-! The store buffer (R237). -/

/-- The buffered stores of core `k`, oldest first. -/
def storesOf (s : State) (k : Nat) : List StoreEnt := s.stores.filter fun e => e.core == k

/-- The buffer's entries: 4 on a tick core, 8 on the management core (R217). -/
def bufferSize (k : Nat) : Nat := if k = 5 then 8 else 4

/-- The agent of core `k`. -/
def coreAgent (k : Nat) : Agent := .core (Fin.ofNat 6 k)

/-- A store reaches its target with the privilege that it was issued with. -/
def asIssued (s : State) (e : StoreEnt) (f : State → Bool × State) : Bool × State :=
  let old := s.get .swPriv e.core
  let (ok, t) := f (s.put .swPriv (bit01 e.sup) e.core)
  (ok, if t.bit .coreOn e.core then t.put .swPriv old e.core else t)

/-- A store of one half of a DDR4 beat reads the beat to form its check bits: that fill fails where the beat is uncorrectable and
its other half is not stored with it (R274, R346; DEDUCED, log entry 124). -/
def fillFails (s : State) (pas : List Nat) (pa : Nat) : Bool :=
  region pa == .ddr && ddrUsable s pa && s.bit .memBad (ddrWord s pa) && !pas.contains (pa ^^^ 1)

/-- One word of a store; the data cache of the management core is written through (R217). -/
def storeWord (s : State) (k : Nat) (pas : List Nat) (pa : Nat) (v : W16) : Bool × State :=
  if fillFails s pas pa then (false, countUE s pa)
  else
    let (ok, s) := physWrite s (coreAgent k) pa v
    (ok, s.when (ok && k == 5 && s.bit .dcOn pa) fun s => s.put .dcWord v.toNat pa)

/-- The words of a store are written in order, up to the first that fails (R237, R238). -/
def writeCells (s : State) (k : Nat) (l : List (Nat × W16)) : Bool × State :=
  l.foldl (fun r c => if r.1 then storeWord r.2 k (l.map (·.1)) c.1 c.2 else r) (true, s)

/-- A buffered store drains; a bus error is reported late (R235), of an exception frame as a machine check (R281). -/
def drainEntry (s : State) (e : StoreEnt) : State :=
  let (ok, s) := asIssued s e fun s => writeCells s e.core e.cells
  if ok then s
  else { s with traps := s.traps ++ [⟨e.core, if e.frame then excMachineCheck else excLate, true, e.issued⟩] }

/-- Remove the first element that `p` selects. -/
def removeFirst {α : Type} (p : α → Bool) : List α → List α
  | [] => []
  | x :: l => if p x then l else x :: removeFirst p l

/-- The oldest store of core `k` drains. -/
def drainOldest (s : State) (k : Nat) : State :=
  match storesOf s k with
  | [] => s
  | e :: _ => drainEntry { s with stores := removeFirst (fun e => e.core == k) s.stores } e

/-- `n` stores of core `k` drain, or every one. -/
def drainN (s : State) (k n : Nat) : State := s.each (List.range n) fun s _ => drainOldest s k
def drainAll (s : State) (k : Nat) : State := drainN s k (storesOf s k).length

/-- The stores drain up to the last one to a device region: a younger device access waits for it (R226). -/
def drainDevice (s : State) (k : Nat) : State :=
  let l := (storesOf s k).map fun e => e.cells.any fun c => isDevice c.1
  drainN s k (l.length - (l.reverse.findIdx? id).getD l.length)

/-- A store enters the buffer; where the buffer is full it waits until the oldest entry has drained (R237). -/
def bufferStore (s : State) (e : StoreEnt) : State :=
  let s := if (storesOf s e.core).length ≥ bufferSize e.core then drainOldest s e.core else s
  { s with stores := s.stores ++ [e] }

/-- The word that a load takes from the youngest buffered store to the same address of normal memory (R226). -/
def forwarded (s : State) (k pa : Nat) : Option W16 :=
  if isDevice pa then none
  else (((storesOf s k).flatMap fun e => e.cells).filter fun c => c.1 == pa).getLast?.map fun c => c.2

/-! Loads and stores. -/

/-! The caches of the management core (R217, R240): lines of 16 words. Which older lines a cache still holds its replacement
decides, which is not stated: a free value (log entry 65). -/

/-- The words of the line that holds an address. -/
def lineOf (pa : Nat) : List Nat := (List.range 16).map (pa / 16 * 16 + ·)

/-- The management core caches the word: by C of its TLB entry, or untranslated the boot ROM and MC SRAM (R287, R342). -/
def cacheable (s : State) (va : Int) (pa : Nat) : Bool :=
  if translating s then
    match tlbHits s va with
    | i :: _ => bitAt (s.get .tlbPte i) 7
    | [] => false
  else region pa == .rom || region pa == .sram

/-- The cache still holds its copy of a word; a line that it does not hold is forgotten. -/
def lineHeld (s : State) (on : Fld) (pa : Nat) : Bool × State :=
  if s.bit on pa then
    let (n, s) := s.fresh
    if Config.freeBit n then (true, s) else (false, s.each (lineOf pa) fun s a => s.clear on a)
  else (false, s)

/-- A line is filled with the words that `view` gives. -/
def fillLine (s : State) (on word : Fld) (pa : Nat) (view : Nat → Option W16) : State :=
  s.each (lineOf pa) fun s a =>
    match view a with
    | some v => (s.raise on a).put word v.toNat a
    | none => s.clear on a

/-- A load through the data cache. -/
def cachedRead (s : State) (pa : Nat) : Option W16 × State :=
  match lineHeld s .dcOn pa with
  | (true, s) => (some (BitVec.ofInt 16 (s.get .dcWord pa)), s)
  | (false, s) =>
    match memRead s pa with
    | (some v, s) => (some v, fillLine s .dcOn .dcWord pa fun a => (memRead s a).1)
    | (none, s) => (none, s)

/-- One word from a physical address; `cached` where the management core reads it through its data cache. -/
def loadWord (s : State) (k : Nat) (cached : Bool) (pa : Nat) : Option W16 × State :=
  match forwarded s k pa with
  | some v => (some v, s)
  | none => if k = 5 && cached then cachedRead s pa else physRead s (coreAgent k) pa

/-- Read the words at physical addresses in order; a bus error names the address that was issued. -/
def loadCells (s : State) (k : Nat) (va : Int) (pas : List Nat) : Except Exc (List Int) × State :=
  (List.range pas.length).foldl (fun r (i : Nat) =>
    match r with
    | (.error e, s) => (.error e, s)
    | (.ok l, s) =>
      match loadWord s k (cacheable s (a24 (va + i)) (pas.getD i 0)) (pas.getD i 0) with
      | (some v, s) => (.ok (l ++ [(v.toNat : Int)]), s)
      | (none, s) => (.error { vec := excBus, faddr := a24 (va + i) }, s)) (.ok [], s)

/-- A load of `n` words at address `va` with the privilege `sup` (R223, R226, R238). -/
def load (s : State) (k : Nat) (sup : Bool) (va : Int) (n : Nat) : Except Exc (List Int) × State :=
  match reachAll s k sup va .read n with
  | (.error e, s) => (.error e, s)
  | (.ok pas, s) => loadCells (if pas.any isDevice then drainDevice s k else s) k va pas

/-- The words of a store that are written at once: a tick core's first words in its own TCM, where no buffered store to the same
word is older (R237). -/
def directCells (s : State) (k : Nat) (l : List (Nat × W16)) : List (Nat × W16) :=
  l.takeWhile fun c => ownTcm s k c.1 && (forwarded s k c.1).isNone

/-- A store of words at address `va` (R223, R237, R238): a tick core's store to its own TCM writes it at once. -/
def store (s : State) (k : Nat) (sup : Bool) (va : Int) (vals : List Int) (frame : Bool := false) : Except Exc State × State :=
  match reachAll s k sup va .write vals.length with
  | (.error e, s) => (.error e, s)
  | (.ok pas, s) =>
    let cells := pas.zip (vals.map fun v => BitVec.ofInt 16 v)
    let now_ := directCells s k cells
    let rest := cells.drop now_.length
    let t := (writeCells s k now_).2
    (.ok (if rest.isEmpty then t else bufferStore t ⟨k, rest, va.toNat, sup, frame⟩), s)

/-! Long operations (R233, R234). -/

/-- The outstanding long MAC retires: its accumulator, its V unless a younger instruction has written V, and SAT. -/
def retireMac (s : State) (k : Nat) : State :=
  if !s.bit .macOn k then s
  else
    let v := s.bit .macV k
    let s := (setA s k (s.nat .macA k) (s.get .macVal k)).clear .macOn k
    let s := if s.bit .macOld k then s else putV s k v
    if v then s.raise .swSat k else s

/-- The outstanding divide retires: quotient, remainder, V unless a younger instruction has written V, and DZ; with DZT a
divide by zero raises the arithmetic trap (R235, R255). -/
def retireDiv (s : State) (k : Nat) : State :=
  if !s.bit .divOn k then s
  else
    let s := (setD (setD s k (s.nat .divQ k) (s.get .divQv k)) k (s.nat .divR k) (s.get .divRv k)).clear .divOn k
    let s := if s.bit .divOld k then s else s.put .swV (s.get .divV k) k
    if !s.bit .divDz k then s
    else
      let s := s.raise .swDz k
      if s.bit .swDzt k then { s with traps := s.traps ++ [⟨k, excArith, false, 0⟩] } else s

/-- Both retire; a long MAC that is outstanding beside a divide is the younger of the two. -/
def retireAll (s : State) (k : Nat) : State := retireMac (retireDiv s k) k

/-- What an instruction waits for: the data registers and accumulators it reads or writes, the status word that it reads or
writes explicitly, the multiplier and the divider, and for a barrier the store buffer (R228, R229, R235). -/
structure Use where
  d : List Nat := []
  a : List Nat := []
  sw : Bool := false
  mul : Bool := false
  div : Bool := false
  drain : Bool := false

/-- The stalls of R228 are waited out: the long operations that the instruction depends on retire, and before a barrier the
store buffer drains (R235). -/
def settle (s : State) (k : Nat) (u : Use) : State :=
  let s := if u.drain then drainAll s k else s
  let s := if s.bit .divOn k && (u.sw || u.div || u.d.contains (s.nat .divQ k) || u.d.contains (s.nat .divR k)) then retireDiv s k
    else s
  if s.bit .macOn k && (u.sw || u.mul || u.div || u.a.contains (s.nat .macA k)) then retireMac s k else s

end Sys2Proof.Machine
end

