-- ==== Sys2Proof/Machine/Exceptions.lean ====
section
/-! DEFINITION. Taking an exception or an interrupt, and returning from one (11_exceptions_translation.md, R274 to R285,
R288, R289; 13_interrupts.md, R319 to R322). -/
namespace Sys2Proof.Machine

/-- XCAUSE of an exception (R298): the imprecise ones are the late bus error and the arithmetic trap. -/
def causeOf (e : Exc) : Int :=
  (e.vec : Int) + 32 * bit01 (e.vec == excLate || e.vec == excArith) + 64 * bit01 e.wr + 256 * e.info

/-- XCAUSE of an interrupt entry that received number `n` (R319). -/
def causeInt (n : Nat) : Int := 128 + 256 * n

/-- The address at an offset of the vector block (R274). -/
def vectorAt (s : State) (k : Nat) (off : Int) : Int := 2048 * s.get .XC_VBASE k + off

/-- The vector offsets of exception `n` and of interrupt number `n` (R274). -/
def excOffset (n : Nat) : Int := 4 * n
def intOffset (n : Nat) : Int := 128 + 4 * n

/-- The context is left: interrupts are off, the loop context and the REP state are clear, no wait stands, and fetch starts at
the vector (R277, R280). -/
def leaveContext (s : State) (k : Nat) (off : Int) : State :=
  let s := dropLoopBuffer (dropQueue (((s.put .swIe 0 k).clear .loopOn k).clear .repOn k) k) k
  ((s.clear .coreWait k).clear .irPres k).put .corePc (vectorAt s k off) k

/-! Tick cores (R277 to R279). -/

/-- The entry record of the next bank is written, and the bank switches (R277); record `j` is that of bank j + 1. -/
def tickEnter (s : State) (k : Nat) (pc cause faddr off : Int) : State :=
  let j := bankOf s k
  let s := ((s.put .XC_XPC (a24 pc) k j).put .XC_XSW (swWord s k) k j).put .XC_XENT_REPV (s.get .repOn k) k j
  let s := (s.put .XC_XENT_LOOPV (s.get .loopOn k) k j).put .XC_XLS (s.get .loopStart k) k j
  let s := ((s.put .XC_XLE (s.get .loopEnd k) k j).put .XC_XCAUSE cause k j).put .XC_XFADDR (a24 faddr) k j
  leaveContext (s.put .XC_STATUS_SB (j + 1) k) k off

/-- An exception of a tick core; in bank 2 it is a double fault, which halts the core (R278). -/
def tickException (s : State) (k : Nat) (pc : Int) (e : Exc) : State :=
  if bankOf s k = 2 then
    let s := ((s.raise .coreHalt k).clear .coreWait k).raise .XC_STATUS_DFHALT k
    sampleSource (s.put .XC_XCAUSE (causeOf e) k 1) 253
  else tickEnter s k pc (causeOf e) e.faddr (excOffset e.vec)

/-! The management core (R280, R281, R284). -/

/-- The supervisor stack pointer (R218). -/
def supSp (s : State) : Int := s.get .coreP 5 7
def setSupSp (s : State) (v : Int) : State := s.put .coreP (a24 v) 5 7

/-- A 24-bit value as its two words (R257 class 1). -/
def pWords (v : Int) : List Int := [unsigned 16 v, field v 23 16]
def pOfWords (lo hi : Int) : Int := lo + 65536 * field hi 7 0

/-- The 14 words of a frame (R280). -/
def frameWords (s : State) (pc cause faddr : Int) : List Int :=
  pWords pc ++ [swWord s 5, bit01 (supervisor s 5) + 2 * s.get .repOn 5 + 4 * s.get .loopOn 5, s.get .repCnt 5, s.get .loopCnt 5] ++
    pWords (s.get .loopStart 5) ++ pWords (s.get .loopEnd 5) ++ pWords faddr ++ [cause, 0]

/-- A store to a physical address, one of the words `pas` that are stored together, ends in no bus error; of the boot ROM that is
left open (log entry 9). -/
def storable (s : State) (pas : List Nat) (pa : Nat) (rom : Bool) : Bool :=
  match region pa with
  | .ddr => ddrUsable s pa && !fillFails s pas pa
  | .hole => false
  | .rom => rom
  | _ => true

/-- The words cannot be stored without a bus error. -/
def storeRefused (s : State) (pas : List Nat) : Bool × State :=
  let (n, s) := if pas.any (fun pa => region pa == .rom) then s.fresh else (0, s)
  (!pas.all fun pa => storable s pas pa (Config.freeBit n), s)

/-- A frame store at these addresses misses the TLB, is denied, or ends in a bus error (R281). -/
def frameFails (s : State) (sp : Int) : Bool × State :=
  match reachAll s 5 true sp .write 14 with
  | (.error _, s) => (true, s)
  | (.ok pas, s) => storeRefused s pas

/-- A double word of a frame is stored, translated or, where `plain`, untranslated. -/
def frameStore (s : State) (plain : Bool) (va : Int) (l : List Int) : State :=
  let direct := bufferStore s ⟨5, (l.mapIdx fun i v => ((a24 (va + i)).toNat, BitVec.ofInt 16 v)), va.toNat, true, true⟩
  if plain then direct
  else
    match store s 5 true va l true with
    | (.ok s, _) => s
    | (.error _, _) => direct

/-- A frame is pushed as seven double-word stores, and a record onto the hidden stack (R280). -/
def pushFrame (s : State) (plain : Bool) (pc cause faddr : Int) (mc claimed : Bool) : State :=
  let sp := a24 (supSp s - 14)
  let w := frameWords s pc cause faddr
  let d := s.nat .XC_STATUS_DEPTH 5
  let s := ((s.put .recKind (bit01 mc) d).put .recPriv (bit01 (supervisor s 5)) d).put .recClaim (bit01 claimed) d
  let s := ((s.clear .recRm d).put .recMc (bit01 mc) d).put .XC_STATUS_DEPTH (d + 1 : Nat) 5
  let s := s.each (List.range 7) fun s i => frameStore s plain (a24 (sp + 2 * i)) [w.getD (2 * i) 0, w.getD (2 * i + 1) 0]
  (setSupSp s sp).put .swPriv 1 5

/-- A machine check with the number of the inner exception (R281, R288): while one is in progress the management core halts
and is reset, as at depth 32 (R284). -/
def machineCheck (s : State) (pc : Int) (inner : Nat) (faddr : Int) : State :=
  if s.bit .XC_STATUS_MCIP 5 then mcReset s 4
  else if s.nat .XC_STATUS_DEPTH 5 ≥ 32 then mcReset s 3
  else
    let (bad, s) := frameFails s (a24 (supSp s - 14))
    let s := pushFrame s bad pc (256 * inner) faddr true false
    leaveContext (s.raise .XC_STATUS_MCIP 5) 5 (excOffset excMachineCheck)

/-- Entry of the management core: `prep` gives XCAUSE, the faulting address, the vector offset and whether a source was claimed,
once the frame is known to be writable; otherwise the entry fails in a machine check (R280, R281, R284). -/
def mcEnter (s : State) (pc : Int) (inner : Nat) (faddr : Int) (prep : State → Int × Int × Bool × State) : State :=
  if s.nat .XC_STATUS_DEPTH 5 ≥ 32 then mcReset s 3
  else
    match frameFails s (a24 (supSp s - 14)) with
    | (true, s) => machineCheck s pc inner faddr
    | (false, s) =>
      let (cause, off, claimed, s) := prep s
      leaveContext (pushFrame s false pc cause faddr false claimed) 5 off

/-- A TLB refill has been entered: refill mode, with its frame's place and its record marked, and XC_TLBVA latched (R288). -/
def refillMode (s : State) (e : Exc) : State :=
  let s := (s.put .XC_TLBVA_VA (a24 e.faddr)).put .XC_TLBVA_ASID (s.get .XC_ASID_ASID)
  let s := ((s.raise .XC_STATUS_RM 5).put .frameAt (supSp s)).put .missWr (bit01 e.wr)
  s.raise .recRm (s.nat .XC_STATUS_DEPTH 5 - 1)

/-- The refill frame is reused with a new XCAUSE and the stack pointer back at it (R288, R289). -/
def reuseRefill (s : State) (cause off : Int) : State :=
  let s := setSupSp s (s.get .frameAt)
  let s := frameStore (s.put .swPriv 1 5) true (a24 (s.get .frameAt + 12)) [cause]
  leaveContext s 5 off

/-- An exception in refill mode (R288, R289): a walk-region fault ends the mode and is reported against the missing access;
any other is a double fault, delivered as a machine check. -/
def refillException (s : State) (e : Exc) : State :=
  let top := s.nat .XC_STATUS_DEPTH 5 - 1
  if e.vec = excWalk then reuseRefill ((s.clear .XC_STATUS_RM 5).clear .recRm top) (causeOf e) (excOffset excWalk)
  else if s.bit .XC_STATUS_MCIP 5 then mcReset s 4
  else reuseRefill (((s.put .recKind 1 top).raise .recMc top).raise .XC_STATUS_MCIP 5) (256 * e.vec) (excOffset excMachineCheck)

/-- An exception of the management core. -/
def mcException (s : State) (pc : Int) (e : Exc) : State :=
  if s.bit .XC_STATUS_RM 5 then refillException s e
  else if e.vec = excMachineCheck then machineCheck s pc e.info e.faddr
  else
    let t := mcEnter s pc e.vec e.faddr fun s => (causeOf e, excOffset e.vec, false, s)
    if e.vec = excRefill && t.bit .coreOn 5 && t.get .XC_STATUS_MCIP 5 == s.get .XC_STATUS_MCIP 5 then refillMode t e else t

/-- An exception of core `k` with the saved pc. -/
def enterException (s : State) (k : Nat) (pc : Int) (e : Exc) : State :=
  if k = 5 then mcException s pc e else tickException s k pc e

/-- The trap that is taken first at a boundary of core `k`: a machine check, or the oldest imprecise trap (R276). -/
def firstTrap (s : State) (k : Nat) : Option CoreTrap :=
  let l := s.traps.filter fun t => t.core == k
  match l.find? fun t => t.vec == excMachineCheck with
  | some t => some t
  | none => l.head?

/-- The pending imprecise trap is taken with the boundary as the saved pc (R235, R276). -/
def takeTrap (s : State) (k : Nat) (t : CoreTrap) : State :=
  enterException { s with traps := removeFirst (fun x => x == t) s.traps } k (pcOf s k)
    { vec := t.vec, info := if t.vec = excMachineCheck then excLate else 0, wr := t.wr, faddr := t.faddr }

/-- Entry waits for the outstanding long operations; a trap that is pending then is taken, else `enter` (R236). -/
def afterTraps (s : State) (k : Nat) (enter : State → State) : State :=
  let s := retireAll s k
  match firstTrap s k with
  | some t => takeTrap s k t
  | none => enter s

/-- A precise exception. -/
def takeException (s : State) (k : Nat) (pc : Int) (e : Exc) : State := afterTraps s k fun s => enterException s k pc e

/-- A trap that waits at the boundary. -/
def takePending (s : State) (k : Nat) : State := afterTraps s k id

/-! Interrupts (R319, R320). -/

/-- The entry of an interrupt at a boundary. -/
def enterInterrupt (s : State) (k : Nat) : State :=
  let run := s.get .IR_CRUN_RUN k
  if k = 5 then
    mcEnter s (pcOf s 5) 0 0 fun s =>
      let (n, s) := vectorCycle s 5 run
      (causeInt n, intOffset n, n != 255, s)
  else
    let (n, s) := vectorCycle s k run
    tickEnter s k (pcOf s k) (causeInt n) 0 (intOffset n)

/-- INTERRUPT_ENTRY: a core that takes interrupts and to which a request is, or has just been, presented enters it; a trap that
waits goes first (R236, R276, R318, R320). -/
def interruptEntry (s : State) (k : Nat) : State :=
  if !takesInterrupts s k || !((presented s k).isSome || s.bit .irPres k) then s
  else afterTraps s k fun s => enterInterrupt s k

/-! Returns (R279, R282, R285, R321, R322). -/

/-- How an instruction ends: with its effect, staying at the instruction (an element of a block instruction, a wait), with the
pc already set, or with an exception and the state of the preceding boundary. -/
inductive Res where
  | done (s : State)
  | stay (s : State)
  | jump (s : State)
  | fault (e : Exc) (s : State)

/-- RETI on a tick core: the end of service, then the exit without unstacking or the restore of record SB. -/
def tickReti (s : State) (k : Nat) : Res :=
  let b := bankOf s k
  if b = 0 then .fault { vec := excIllegal } s
  else
    let j := b - 1
    let cause := s.get .XC_XCAUSE k j
    let s := if bitAt cause 7 && field cause 15 8 != 255 then endService s k else s
    let run := s.get .IR_CRUN_RUN k
    if bitAt (s.get .XC_XSW k j) 7 && (bestRequest s k run).isSome then
      let (n, s) := vectorCycle s k run
      .jump (leaveContext (s.put .XC_XCAUSE (causeInt n) k j) k (intOffset n))
    else
      let s := (restoreSw s k (s.get .XC_XSW k j)).put .XC_STATUS_SB j k
      let s := ((s.put .repOn (s.get .XC_XENT_REPV k j) k).put .loopOn (s.get .XC_XENT_LOOPV k j) k)
      let s := (s.put .loopStart (s.get .XC_XLS k j) k).put .loopEnd (s.get .XC_XLE k j) k
      .jump (setPc (dropQueue (dropLoopBuffer s k) k) k (s.get .XC_XPC k j))

/-- The restore of a frame (R282). -/
def restoreFrame (s : State) (w : List Int) : State :=
  let g := fun i => w.getD i 0
  let s := restoreSw s 5 (g 2)
  let s := ((s.put .repOn (field (g 3) 1 1) 5).put .loopOn (field (g 3) 2 2) 5).put .repCnt (g 4) 5
  let s := ((s.put .loopCnt (g 5) 5).put .loopStart (pOfWords (g 6) (g 7)) 5).put .loopEnd (pOfWords (g 8) (g 9)) 5
  setPc (dropQueue (dropLoopBuffer (setSupSp s (supSp s + 14)) 5) 5) 5 (pOfWords (g 0) (g 1))

/-- The hidden record is popped: refill mode and the machine check in progress end with theirs (R288). -/
def popRecord (s : State) : State :=
  let d := s.nat .XC_STATUS_DEPTH 5
  if d = 0 then s
  else
    let s := if s.bit .recRm (d - 1) then s.clear .XC_STATUS_RM 5 else s
    let s := if s.bit .recMc (d - 1) then s.clear .XC_STATUS_MCIP 5 else s
    let s := ((s.clear .recRm (d - 1)).clear .recMc (d - 1)).clear .recClaim (d - 1)
    s.put .XC_STATUS_DEPTH (d - 1 : Nat) 5

/-- The word at `va` cannot be rewritten: its store misses the TLB, is denied, or ends in a bus error (R281). -/
def rewriteFails (s : State) (va : Int) : Bool × State :=
  match reachAll s 5 true va .write 1 with
  | (.error _, s) => (true, s)
  | (.ok pas, s) => storeRefused s pas

/-- The exit without unstacking of the management core (R282, R322): the frame's XCAUSE is rewritten, the record stays and
becomes that of the interrupt; a rewrite that fails is a machine check at the RETI, before the claim (R281, DEDUCED, log
entry 123). At the RETI of a refill the exit rule applies and refill mode ends (R295). -/
def mcExit (s : State) : State :=
  let top := s.nat .XC_STATUS_DEPTH 5 - 1
  let run := s.get .IR_CRUN_RUN 5
  let s := if s.bit .recRm top then (s.clear .recRm top).clear .XC_STATUS_RM 5 else s
  match rewriteFails s (a24 (supSp s + 12)) with
  | (true, s) => machineCheck s (pcOf s 5) 0 0
  | (false, s) =>
    let (n, s) := vectorCycle s 5 run
    let s := frameStore s false (a24 (supSp s + 12)) [causeInt n]
    let s := if s.bit .XC_STATUS_DEPTH 5 then s.put .recClaim (bit01 (n != 255)) top else s
    leaveContext (s.put .swPriv 1 5) 5 (intOffset n)

/-- RETI on the management core. -/
def mcReti (s : State) : Res :=
  let d := s.nat .XC_STATUS_DEPTH 5
  if d > 0 && s.get .recKind (d - 1) == 2 then .fault { vec := excReturn } s
  else
    match load s 5 true (supSp s) 14 with
    | (.error e, s) => .fault e s
    | (.ok w, s) =>
      if d > 0 && bitAt (w.getD 2 0) 8 && !s.bit .recPriv (d - 1) then .fault { vec := excReturn } s
      else
        let s := if d > 0 && s.bit .recClaim (d - 1) then (endService s 5).clear .recClaim (d - 1) else s
        if bitAt (w.getD 2 0) 7 && (bestRequest s 5 (s.get .IR_CRUN_RUN 5)).isSome then .jump (mcExit s)
        else .jump (popRecord (restoreFrame s w))

/-- GRET (R285). -/
def gateReturn (s : State) : Res :=
  let d := s.nat .XC_STATUS_DEPTH 5
  if d = 0 || s.get .recKind (d - 1) != 2 then .fault { vec := excReturn } s
  else
    match load s 5 true (supSp s) 8 with
    | (.error e, s) => .fault e s
    | (.ok w, s) =>
      let sw := w.getD 6 0
      if bitAt sw 8 && !s.bit .recPriv (d - 1) then .fault { vec := excReturn } s
      else
        let s := setSupSp s (supSp s + 8)
        let s := (s.put .swPriv (field sw 8 8) 5).put .swIe (field sw 7 7) 5
        .jump (setPc (dropQueue (popRecord s) 5) 5 (pOfWords (w.getD 4 0) (w.getD 5 0)))

/-! Call gates (R283). -/

/-- A gate fault with its reason and argument index (R283). -/
def gateFault (g reason arg : Nat) : Exc := { vec := excGate, info := g, faddr := ((reason + 16 * arg : Nat) : Int) }

/-- The words of an argument by its KIND: none 0, pointer 2, range 1. -/
def argWords (kind : Int) : Nat := if kind == 0 then 0 else if kind == 1 then 2 else 1

/-- The kinds of the four arguments of a descriptor (word 3): bits 4i + 1 and 4i, with W in bit 4i + 2. -/
def gateKinds (w : Int) : List (Int × Bool) := (List.range 4).map fun i => (field w (4 * i + 1) (4 * i), bitAt w (4 * i + 2))

/-- The descriptor is valid (R283): ARGC is at most 4, the kinds use exactly that many words with none after a KIND of none,
and each LEN is 1 to 1,024. -/
def gateValid (d : List Int) : Bool :=
  let g := fun i => d.getD i 0
  let ks := (gateKinds (g 3)).map Prod.fst
  let argc := (field (g 2) 4 2).toNat
  bitAt (g 2) 0 && decide (argc ≤ 4) && (ks.map argWords).sum == argc &&
    (ks.dropWhile fun x => x != 0).all (fun x => x == 0) &&
    (List.range 4).all fun i => ks.getD i 0 != 1 || decide (1 ≤ g (4 + 2 * i) ∧ g (4 + 2 * i) ≤ 1024)

/-- A word of a pointer's span lacks a permission for the caller, or its translation is missing (R283). -/
def spanCheck (s : State) (sup : Bool) (va : Int) (wr : Bool) : Option Translated × State :=
  match translate s va sup .read with
  | (.hit _, s) =>
    if wr then
      match translate s va sup .write with
      | (.hit _, s) => (none, s)
      | (x, s) => (some x, s)
    else (none, s)
  | (x, s) => (some x, s)

/-- The check of one argument, whose words on the caller's stack are `v` (R283): reason 3 or 4, or a refill. -/
def argCheck (s : State) (sup : Bool) (g i : Nat) (kind : Int) (wr : Bool) (p0 p1 : Int) (v : List Int) : Option Exc × State :=
  if kind == 1 then
    let va := pOfWords (v.getD 0 0) (v.getD 1 0)
    let last := a24 (va + p0 - 1)
    let out := fun (a : Int) (x : Option Translated) => x.map fun x =>
      if x = .miss then ({ vec := excRefill, wr := wr, faddr := a } : Exc) else gateFault g 4 i
    match spanCheck s sup va wr with
    | (some x, s) => (out va (some x), s)
    | (none, s) =>
      let (x, s) := spanCheck s sup last wr
      (out last x, s)
  else
    let x := v.getD 0 0
    let ok := if kind == 2 then decide (signed 16 p0 ≤ signed 16 x ∧ signed 16 x ≤ signed 16 p1) else decide (p0 ≤ x ∧ x ≤ p1)
    (if ok then none else some (gateFault g 3 i), s)

/-- The argument words from the caller's stack, checked argument by argument (R283). -/
def gateArgs (s : State) (sup : Bool) (g : Nat) (d : List Int) : Except Exc (List Int) × State :=
  (List.range 4).foldl (fun r i =>
    match r with
    | (.error e, s) => (.error e, s)
    | (.ok l, s) =>
      let (kind, wr) := (gateKinds (d.getD 3 0)).getD i (0, false)
      if kind == 0 then (.ok l, s)
      else
        match load s 5 sup (a24 (pReg s 5 7 + l.length)) (argWords kind) with
        | (.error e, s) => (.error (if e.vec = excProt then gateFault g 5 i else e), s)
        | (.ok v, s) =>
          match argCheck s sup g i kind wr (d.getD (4 + 2 * i) 0) (d.getD (5 + 2 * i) 0) v with
          | (some e, s) => (.error e, s)
          | (none, s) => (.ok (l ++ v), s)) (.ok [], s)

/-- The descriptor of gate `g`: none where it does not lie in MC SRAM (R283). -/
def gateDescriptor (s : State) (g : Nat) : Except Exc (List Int) × State :=
  let a := s.nat .XC_GTBASE + 16 * g
  if region a != .sram || region (a + 15) != .sram then (.error (gateFault g 1 0), s)
  else
    (List.range 16).foldl (fun r i =>
      match r with
      | (.error e, s) => (.error e, s)
      | (.ok l, s) =>
        match loadWord s 5 true (a + i) with
        | (some v, s) => (.ok (l ++ [(v.toNat : Int)]), s)
        | (none, s) => (.error { vec := excBus, faddr := ((a + i : Nat) : Int) }, s)) (.ok [], s)

/-- The eight words that a gate writes below the supervisor stack pointer (R283): translated as supervisor stores. -/
def gateFrame (s : State) (sp : Int) (w : List Int) : Except Exc State × State :=
  (List.range 4).foldl (fun r (i : Nat) =>
    match r with
    | (.error e, s) => (.error e, s)
    | (.ok t, s0) =>
      match store t 5 true (a24 (sp + 2 * i)) [w.getD (2 * i) 0, w.getD (2 * i + 1) 0] with
      | (.ok t, _) => (.ok t, s0)
      | (.error e, _) => (.error e, s0)) (.ok s, s)

/-- GATE on the management core (R283). It returns to the next instruction, after the last word of a loop's body to the start
(R263). -/
def gateCall (s : State) (g : Nat) : Res :=
  let sup := supervisor s 5
  let ret := pcOf (advance s 5 1) 5
  match gateDescriptor s g with
  | (.error e, s) => .fault e s
  | (.ok d, s) =>
    if !gateValid d then .fault (gateFault g 1 0) s
    else if !bitAt (d.getD 2 0) 1 && !sup then .fault (gateFault g 2 0) s
    else
      match gateArgs s sup g d with
      | (.error e, s) => .fault e s
      | (.ok args, s) =>
        let depth := s.nat .XC_STATUS_DEPTH 5
        let sp := a24 (supSp s - 8)
        let w := (List.range 4).map (fun i => args.getD i 0) ++ pWords ret ++ [swWord s 5, (g : Int)]
        if depth ≥ 32 then .jump (mcReset s 3)
        else
          match gateFrame s sp w with
          | (.error e, s) => .fault e s
          | (.ok s, _) =>
            let s := ((s.put .recKind 2 depth).put .recPriv (bit01 sup) depth).put .XC_STATUS_DEPTH (depth + 1 : Nat) 5
            let s := ((s.clear .recRm depth).clear .recMc depth).clear .recClaim depth
            let s := leaveBody (advance s 5 1) 5
            .jump (setPc ((setSupSp s sp).put .swPriv 1 5) 5 (pOfWords (d.getD 0 0) (d.getD 1 0)))

end Sys2Proof.Machine
end

