-- ==== Sys2Proof/Machine/CoreRun.lean ====
section
/-! DEFINITION. How a core runs one instruction: what comes at the boundary before it, its fetch, REP and LOOP at its end, and
transfers of control (09_nerten_core.md, R224, R229, R232; 10_nerten_instructions.md, R243, R259 to R263; 11, R276). A command
names the instruction that the core executes; the core's pc says where it stands. -/
namespace Sys2Proof.Machine

/-- The physical address of word `va` can be fetched from: a tick core's own TCM, or the boot ROM, MC SRAM or DDR4 (R224). -/
def fetchable (s : State) (k pa : Nat) : Bool :=
  if k = 5 then
    match region pa with
    | .rom | .sram => true
    | .ddr => ddrUsable s pa
    | _ => false
  else ownTcm s k pa

/-- The physical place that a fetch reaches, or its exception in the order of R276: a refill or the instruction-fetch fault, then the
protection fault (R224, R286, R294). -/
def fetchPlace (s : State) (k : Nat) (va : Int) : Except Exc Nat × State :=
  let fault : Exc := { vec := excFetch, faddr := va }
  let prot : Exc := { vec := excProt, faddr := va }
  if k = 5 then
    match translate s va (supervisor s 5) .fetch with
    | (.miss, s) => (.error { vec := excRefill, faddr := va }, s)
    | (.denied, s) => (.error (if (tlbHits s va).any fun i => !fetchable s 5 (tlbPhysical s i va) then fault else prot), s)
    | (.hit pa, s) => (if fetchable s 5 pa then .ok pa else .error fault, s)
  else
    let pa := tickPhysical s k va
    (if !fetchable s k pa then .error fault else if mpuAllows s k va.toNat .fetch then .ok pa else .error prot, s)

/-- The word that a line fill or an uncached fetch sees: the youngest buffered store, or memory (R240). -/
def fetchView (s : State) (k pa : Nat) : Option W16 × State :=
  match forwarded s k pa with
  | some v => (some v, s)
  | none => memRead s pa

/-- The word that was read for a fetch; an uncorrectable error is a data bus error. -/
def fetchEnd (s : State) (va : Int) (v : Option W16) : Except Exc Int × State :=
  match v with
  | some v => (.ok ((v.toNat : Nat) : Int), s)
  | none => (.error { vec := excBus, faddr := va }, s)

/-- A word is fetched anew, by the management core through its instruction cache (R217, R240). -/
def fetchNew (s : State) (k : Nat) (va : Int) : Except Exc Int × State :=
  match fetchPlace s k va with
  | (.error e, s) => (.error e, s)
  | (.ok pa, s) =>
    if k = 5 && cacheable s va pa then
      match lineHeld s .icOn pa with
      | (true, s) => (.ok (s.get .icWord pa), s)
      | (false, s) =>
        match fetchView s k pa with
        | (some v, s) => fetchEnd (fillLine s .icOn .icWord pa fun a => (fetchView s k a).1) va (some v)
        | (none, s) => fetchEnd s va none
    else
      match fetchView s k pa with
      | (v, s) => fetchEnd s va v

/-- The word that stands in the loop buffer, where the buffer supplies the body (R239). -/
def loopWord (s : State) (k : Nat) (va : Int) : Option Int :=
  let d := (a24 (va - s.get .loopStart k)).toNat
  if s.bit .loopOn k && s.get .lbPhase k == 2 && inBody s k va && s.bitOf .lbOn d k then some (s.get .lbWord k d) else none

/-- The word that stands in the fetch queue. -/
def queueWord (s : State) (k : Nat) (va : Int) : Option Int :=
  let d := a24 (va - s.get .fqBase k)
  if d < s.get .fqLen k then some (s.get .fqWord k d.toNat) else none

/-- The word that the fetch queue holds, or the word fetched anew. -/
def aheadWord (s : State) (k : Nat) (va : Int) : Except Exc Int × State :=
  match queueWord s k va with
  | some v => (.ok v, s)
  | none => fetchNew s k va

/-- The copy of a word that the core executes: that of the loop buffer, that of the fetch queue, or the word fetched anew
(R239, R240). -/
def fetchWord (s : State) (k : Nat) (va : Int) : Except Exc Int × State :=
  match loopWord s k va with
  | some v => (.ok v, s)
  | none => aheadWord s k va

/-- The iteration that the loop buffer captures leaves a word of the body in it (R239). -/
def captureWord (s : State) (k : Nat) (va v : Int) : State :=
  let d := (a24 (va - s.get .loopStart k)).toNat
  if s.bit .loopOn k && s.bit .lbPhase k && loopFits s k && inBody s k va then
    (s.put .lbWord v k d).setBits .lbOn (2 ^ d) k
  else s

/-- The words of an instruction of `len` words, the first word first (R243). -/
def fetchInstr (s : State) (k len : Nat) : Except Exc (List Int) × State :=
  (List.range len).foldl (fun r (i : Nat) =>
    match r with
    | (.error e, s) => (.error e, s)
    | (.ok l, s) =>
      let va := a24 (pcOf s k + i)
      match fetchWord s k va with
      | (.ok v, s) => (.ok (l ++ [v]), (captureWord s k va v).put .fetched v k i)
      | (.error e, s) => (.error e, s)) (.ok [], s)

/-- Sequential fetch ahead: up to `n` words from `va` on; one that would fault is dropped without a trace (R224, R287). -/
def fetchAhead (s : State) (k : Nat) (va : Int) : Nat → List Int → List Int × State
  | 0, l => (l, s)
  | n + 1, l =>
    match aheadWord s k va with
    | (.ok v, t) => fetchAhead t k (a24 (va + 1)) n (l ++ [v])
    | (.error _, _) => (l, s)

/-- The fetch of an instruction: the exception that it raises, if it does; the four words that follow it stand in the fetch queue,
but where the loop buffer supplies the body and memory is switched off (R227, R239, R240). -/
def fetch (s : State) (k len : Nat) : Option Exc × State :=
  match fetchInstr s k len with
  | (.error e, s) => (some e, s)
  | (.ok l, s) =>
    let off := s.bit .loopOn k && s.get .lbPhase k == 2 && inBody s k (pcOf s k)
    let (l, s) := if off then (l, s) else fetchAhead s k (a24 (pcOf s k + len)) 4 l
    let s := s.each l.zipIdx fun s e => s.put .fqWord e.1 k e.2
    (none, (s.put .fqBase (pcOf s k) k).put .fqLen l.length k)

/-- The end of an instruction: an iteration of REP counts, and the last one moves on (R262). -/
def endInstr (s : State) (k len : Nat) : State :=
  if s.bit .repOn k then
    let c := repCount s k - 1
    let s := s.put .repCnt c k (bankOf s k)
    if c ≤ 0 then advance (s.clear .repOn k) k len else s
  else advance s k len

/-- A taken branch, jump or return: out of the body it clears the loop context and empties the loop buffer (R239, R263). -/
def branchTo (s : State) (k : Nat) (target : Int) : State :=
  let s := if s.bit .loopOn k && inBody s k (pcOf s k) && !inBody s k (a24 target) then dropLoopBuffer (s.clear .loopOn k) k else s
  setPc (dropQueue s k) k target

/-- What an instruction is: its words, whether REP may repeat it (R262), what it waits for, and whether it is privileged on the
management core (R268). -/
structure Form where
  len : Nat := 1
  rep : Bool := false
  use : Use := {}
  priv : Bool := false

/-- A core that a reset has reached while an instruction ran keeps none of the instruction's register writes. -/
def ifOn (s : State) (k : Nat) (f : State → State) : State := if s.bit .coreOn k then f s else resetRegs s k

/-- The instruction executes at the pc: its meaning `f`, then the end that it gives. -/
def execute (s : State) (k : Nat) (m : Form) (f : State → Res) : State :=
  match f s with
  | .done t => ifOn t k fun t => endInstr t k m.len
  | .stay t => ifOn t k id
  | .jump t => ifOn t k id
  | .fault e t => ifOn t k fun t => takeException t k (pcOf t k) e

/-- The checks before the instruction executes: its fetch, a REP that it cannot follow, its privilege (R262, R268, R276). -/
def decodeAndRun (s : State) (k : Nat) (m : Form) (f : State → Res) : State :=
  match fetch s k m.len with
  | (some e, s) => takeException s k (pcOf s k) e
  | (none, s) =>
    if s.bit .repOn k && !(m.rep && m.len == 1) then
      takeException (s.clear .repOn k) k (a24 (pcOf s k - 1)) { vec := excIllegal }
    else if m.priv && !supervisor s k then takeException s k (pcOf s k) { vec := excPrivileged }
    else execute s k m f

/-- One instruction of core `k`, which nothing happens to unless the core can issue: at the boundary written decode entries are
taken (R311) and a pending trap comes first, whose entry waits for the outstanding long operations (R236, R276). -/
def runCore (s : State) (k : Nat) (m : Form) (f : State → Res) : State :=
  if !canIssue s k then s
  else
    let s := settle ((endLoad (takeEntries s k)).clear .irPres k) k m.use
    ifOn s k fun s =>
      match firstTrap s k with
      | some _ => takePending s k
      | none => decodeAndRun s k m f

/-- The same as a command's outcome. -/
def coreStep (s : State) (k : Nat) (m : Form) (f : State → Res) : Out := .next (runCore s k m f)

/-- An instruction that computes a result of 16 bits into a data register, or only flags. -/
def aluStep (s : State) (k : Nat) (m : Form) (d : Nat) (write : Bool) (f : State → Alu) : Out :=
  coreStep s k m fun s =>
    let x := f s
    .done (putAlu (if write then setD s k d x.r else s) k x)

/-- An instruction that computes an accumulator. -/
def accStep (s : State) (k : Nat) (m : Form) (a : Nat) (f : State → AccOut) : Out :=
  coreStep s k m fun s =>
    let x := f s
    .done (putAcc (setA s k a x.a) k x)

end Sys2Proof.Machine
end

