-- ==== Sys2Proof/Machine/CoreArith.lean ====
section
/-! DEFINITION. The arithmetic instructions of the cores (10_nerten_instructions.md): paired words (R245, R246), register and
immediate arithmetic (R249 to R251), shifts and bits (R252), multiplication (R253, R254) and division (R255). -/
namespace Sys2Proof.Machine

/-! Paired words. -/

/-- What a slot of a paired word does (R245): the result with its flags, and whether the destination is written. -/
def slotResult (s : State) (k op d r : Nat) : Alu × Bool :=
  let x := dReg s k d
  let y := dReg s k r
  match op with
  | 0 => (aluLogic y, d != r)
  | 1 => (aluAdd x y 0, true)
  | 2 => (aluSub x y 1, true)
  | 3 => (aluLogic (andI x y), true)
  | 4 => (aluLogic (orI x y), true)
  | 5 => (aluLogic (xorI x y), true)
  | 6 => (if r = 0 then aluAsr x 1 else if r = 1 then aluLsr x 1 else if r = 2 then aluShl x 1 else aluNeg x, true)
  | _ => (aluSub x y 1, false)

/-- A slot's opcode, destination field and source field. -/
def slotFields (w : Nat) (lo : Nat) : Nat × Nat × Nat := (w / 2 ^ (lo + 4) % 8, w / 2 ^ (lo + 2) % 4, w / 2 ^ lo % 4)

/-- The destination register of a slot, if it writes one (R246). -/
def slotDest (f : Nat × Nat × Nat) : Option Nat :=
  let (op, d, r) := f
  if op = 7 ∨ (op = 0 ∧ d = r) then none else some d

/-- The registers that a slot reads: MOV its source, a unary operation d, the others both (R245, R246). -/
def slotReads (f : Nat × Nat × Nat) : List Nat :=
  let (op, d, r) := f
  if op = 0 then [r] else if op = 6 then [d] else [d, r]

/-- The slots share a destination, or slot B reads slot A's (R231). -/
def pairingFault (a b : Nat × Nat × Nat) : Bool :=
  match slotDest a with
  | some d => slotDest b == some d || (slotReads b).contains d
  | none => false

/-- PAIRED_WORD (R231, R245): bits 14 to 0 of the word. Both slots read before either writes; slot B gives the flags. -/
def execPairedWord (k : CoreId) (w : BitVec 15) (s : State) : Out :=
  let a := slotFields w.toNat 8
  let b := slotFields w.toNat 1
  coreStep s k { rep := true, use := { d := [a.2.1, a.2.2, b.2.1, b.2.2] } } fun s =>
    if w.getLsbD 0 then .fault { vec := excIllegal } s
    else if pairingFault a b then .fault { vec := excPairing } s
    else
      let (x, wx) := slotResult s k a.1 a.2.1 a.2.2
      let (y, wy) := slotResult s k b.1 b.2.1 b.2.2
      let s := if wx then setD s k a.2.1 x.r else s
      let s := if wy then setD s k b.2.1 y.r else s
      .done (putAlu s k y)

/-! Major 1 (R249), and major 3 with imm16 in place of s (R251). -/

/-- A register instruction of major 1. -/
def regOp (s : State) (k d r : Nat) (sw write : Bool) (f : State → Int → Int → Alu) : Out :=
  aluStep s k { rep := true, use := { d := [d, r], sw := sw } } d write fun s => f s (dReg s k d) (dReg s k r)

/-- An immediate instruction of major 3. -/
def immOp (s : State) (k d : Nat) (v : BitVec 16) (sw write : Bool) (f : State → Int → Int → Alu) : Out :=
  aluStep s k { len := 2, use := { d := [d], sw := sw } } d write fun s => f s (dReg s k d) v.toNat

/-- A quick instruction of major 2. -/
def quickOp (s : State) (k d : Nat) (v : Int) (write : Bool) (f : Int → Int → Alu) : Out :=
  aluStep s k { rep := true, use := { d := [d] } } d write fun s => f (dReg s k d) v

def execMov (k : CoreId) (d r : Fin 8) (s : State) : Out := regOp s k d r false true fun _ _ y => aluLogic y
def execAdd (k : CoreId) (d r : Fin 8) (s : State) : Out := regOp s k d r false true fun _ x y => aluAdd x y 0
def execAdc (k : CoreId) (d r : Fin 8) (s : State) : Out := regOp s k d r true true fun s x y => aluAdd x y (s.get .swC k)
def execSub (k : CoreId) (d r : Fin 8) (s : State) : Out := regOp s k d r false true fun _ x y => aluSub x y 1
def execSbc (k : CoreId) (d r : Fin 8) (s : State) : Out := regOp s k d r true true fun s x y => aluSub x y (s.get .swC k)
def execAndReg (k : CoreId) (d r : Fin 8) (s : State) : Out := regOp s k d r false true fun _ x y => aluLogic (andI x y)
def execOrReg (k : CoreId) (d r : Fin 8) (s : State) : Out := regOp s k d r false true fun _ x y => aluLogic (orI x y)
def execXorReg (k : CoreId) (d r : Fin 8) (s : State) : Out := regOp s k d r false true fun _ x y => aluLogic (xorI x y)
def execCmp (k : CoreId) (d r : Fin 8) (s : State) : Out := regOp s k d r false false fun _ x y => aluSub x y 1
def execTst (k : CoreId) (d r : Fin 8) (s : State) : Out := regOp s k d r false false fun _ x y => aluLogic (andI x y)
def execAdds (k : CoreId) (d r : Fin 8) (s : State) : Out := regOp s k d r false true fun _ x y => aluAdds x y
def execSubs (k : CoreId) (d r : Fin 8) (s : State) : Out := regOp s k d r false true fun _ x y => aluSubs x y
def execNeg (k : CoreId) (d r : Fin 8) (s : State) : Out := regOp s k d r false true fun _ _ y => aluNeg y
def execNotReg (k : CoreId) (d r : Fin 8) (s : State) : Out := regOp s k d r false true fun _ _ y => aluLogic (65535 - y)
def execAbs (k : CoreId) (d r : Fin 8) (s : State) : Out := regOp s k d r false true fun _ _ y => aluAbs y
def execSwapb (k : CoreId) (d r : Fin 8) (s : State) : Out := regOp s k d r false true fun _ _ y => aluLogic (swapBytes y)
def execMinReg (k : CoreId) (d r : Fin 8) (s : State) : Out := regOp s k d r false true fun _ x y => aluMin x y
def execMaxReg (k : CoreId) (d r : Fin 8) (s : State) : Out := regOp s k d r false true fun _ x y => aluMax x y
def execMinu (k : CoreId) (d r : Fin 8) (s : State) : Out := regOp s k d r false true fun _ x y => aluMinu x y
def execMaxu (k : CoreId) (d r : Fin 8) (s : State) : Out := regOp s k d r false true fun _ x y => aluMaxu x y

def execMovImm (k : CoreId) (d : Fin 8) (v : W16) (s : State) : Out := immOp s k d v false true fun _ _ y => aluLogic y
def execAddImm (k : CoreId) (d : Fin 8) (v : W16) (s : State) : Out := immOp s k d v false true fun _ x y => aluAdd x y 0
def execAdcImm (k : CoreId) (d : Fin 8) (v : W16) (s : State) : Out := immOp s k d v true true fun s x y => aluAdd x y (s.get .swC k)
def execSubImm (k : CoreId) (d : Fin 8) (v : W16) (s : State) : Out := immOp s k d v false true fun _ x y => aluSub x y 1
def execSbcImm (k : CoreId) (d : Fin 8) (v : W16) (s : State) : Out := immOp s k d v true true fun s x y => aluSub x y (s.get .swC k)
def execAndImm (k : CoreId) (d : Fin 8) (v : W16) (s : State) : Out := immOp s k d v false true fun _ x y => aluLogic (andI x y)
def execOrImm (k : CoreId) (d : Fin 8) (v : W16) (s : State) : Out := immOp s k d v false true fun _ x y => aluLogic (orI x y)
def execXorImm (k : CoreId) (d : Fin 8) (v : W16) (s : State) : Out := immOp s k d v false true fun _ x y => aluLogic (xorI x y)
def execCmpImm (k : CoreId) (d : Fin 8) (v : W16) (s : State) : Out := immOp s k d v false false fun _ x y => aluSub x y 1
def execTstImm (k : CoreId) (d : Fin 8) (v : W16) (s : State) : Out := immOp s k d v false false fun _ x y => aluLogic (andI x y)
def execAddsImm (k : CoreId) (d : Fin 8) (v : W16) (s : State) : Out := immOp s k d v false true fun _ x y => aluAdds x y
def execSubsImm (k : CoreId) (d : Fin 8) (v : W16) (s : State) : Out := immOp s k d v false true fun _ x y => aluSubs x y
def execMinImm (k : CoreId) (d : Fin 8) (v : W16) (s : State) : Out := immOp s k d v false true fun _ x y => aluMin x y
def execMaxImm (k : CoreId) (d : Fin 8) (v : W16) (s : State) : Out := immOp s k d v false true fun _ x y => aluMax x y
def execMinuImm (k : CoreId) (d : Fin 8) (v : W16) (s : State) : Out := immOp s k d v false true fun _ x y => aluMinu x y
def execMaxuImm (k : CoreId) (d : Fin 8) (v : W16) (s : State) : Out := immOp s k d v false true fun _ x y => aluMaxu x y

/-- MFS and MTS (R249, R250): special registers 0 sw, 1 rc, 2 tkl; the other indices, and MTS of tkl, are illegal. -/
def execMfs (k : CoreId) (d x : Fin 8) (s : State) : Out :=
  coreStep s k { rep := true, use := { d := [(d : Nat)], sw := x == 0 } } fun s =>
    match (x : Nat) with
    | 0 => .done (setD s k d (swWord s k))
    | 1 => .done (setD s k d (rcReg s k))
    | 2 => .done (setD s k d s.now)
    | _ => .fault { vec := excIllegal } s
def execMts (k : CoreId) (x d : Fin 8) (s : State) : Out :=
  coreStep s k { rep := true, use := { d := [(d : Nat)], sw := x == 0 } } fun s =>
    match (x : Nat) with
    | 0 => .done (writeSw s k (dReg s k d))
    | 1 => .done (setRc s k (dReg s k d))
    | _ => .fault { vec := excIllegal } s

/-- The accumulator and the part that an index of R250 names: 0 low, 1 high, 2 guard; 3 and 7 name none. -/
def accPart (y : Nat) : Option (Nat × Nat) := if y % 4 = 3 then none else some (y / 4, y % 4)

/-- A part as it is read (R219): the guard part is sign-extended. -/
def readPart (a : Int) (p : Nat) : Int :=
  if p = 0 then field a 15 0 else if p = 1 then field a 31 16 else unsigned 16 (shr a 32)

/-- An accumulator with a part written (R219). -/
def writePart (a : Int) (p : Nat) (v : Int) : Int :=
  if p = 0 then a - field a 15 0 + v
  else if p = 1 then a - 65536 * field a 31 16 + 65536 * v
  else field a 31 0 + shl (field v 7 0) 32

/-- MFA and MTA (R249, R250). -/
def execMfa (k : CoreId) (d y : Fin 8) (s : State) : Out :=
  coreStep s k { rep := true, use := { d := [(d : Nat)], a := [(y : Nat) / 4] } } fun s =>
    match accPart y with
    | some (a, p) => .done (setD s k d (readPart (aReg s k a) p))
    | none => .fault { vec := excIllegal } s
def execMta (k : CoreId) (y d : Fin 8) (s : State) : Out :=
  coreStep s k { rep := true, use := { d := [(d : Nat)], a := [(y : Nat) / 4] } } fun s =>
    match accPart y with
    | some (a, p) => .done (setA s k a (writePart (aReg s k a) p (dReg s k d)))
    | none => .fault { vec := excIllegal } s

/-! Major 2 (R251). -/

def execMovq (k : CoreId) (d : Fin 8) (u : BitVec 4) (s : State) : Out := quickOp s k d u.toNat true fun _ y => aluLogic y
def execAddq (k : CoreId) (d : Fin 8) (u : BitVec 4) (s : State) : Out := quickOp s k d u.toNat true fun x y => aluAdd x y 0
def execSubq (k : CoreId) (d : Fin 8) (u : BitVec 4) (s : State) : Out := quickOp s k d u.toNat true fun x y => aluSub x y 1
def execCmpq (k : CoreId) (d : Fin 8) (u : BitVec 4) (s : State) : Out := quickOp s k d u.toNat false fun x y => aluSub x y 1
def execMovn (k : CoreId) (d : Fin 8) (u : BitVec 4) (s : State) : Out := quickOp s k d u.toInt true fun _ y => aluLogic y
def execAddsq (k : CoreId) (d : Fin 8) (u : BitVec 4) (s : State) : Out := quickOp s k d u.toNat true fun x y => aluAdds x y
def execSubsq (k : CoreId) (d : Fin 8) (u : BitVec 4) (s : State) : Out := quickOp s k d u.toNat true fun x y => aluSubs x y

/-! Major 4 (R252). -/

/-- A shift by a register: the count is the whole value of s. -/
def shiftReg (s : State) (k d r : Nat) (f : Int → Nat → Alu) : Out :=
  aluStep s k { rep := true, use := { d := [d, r] } } d true fun s => f (dReg s k d) (dReg s k r).toNat

/-- A shift by an immediate count, or an operation on one bit. -/
def shiftImm (s : State) (k d : Nat) (n : Nat) (write : Bool) (f : Int → Nat → Alu) : Out :=
  aluStep s k { rep := true, use := { d := [d] } } d write fun s => f (dReg s k d) n

def execAsr (k : CoreId) (d : Fin 8) (n : Fin 16) (s : State) : Out := shiftImm s k d n true aluAsr
def execAsrReg (k : CoreId) (d r : Fin 8) (s : State) : Out := shiftReg s k d r aluAsr
def execLsr (k : CoreId) (d : Fin 8) (n : Fin 16) (s : State) : Out := shiftImm s k d n true aluLsr
def execLsrReg (k : CoreId) (d r : Fin 8) (s : State) : Out := shiftReg s k d r aluLsr
def execShl (k : CoreId) (d : Fin 8) (n : Fin 16) (s : State) : Out := shiftImm s k d n true aluShl
def execShlReg (k : CoreId) (d r : Fin 8) (s : State) : Out := shiftReg s k d r aluShl
def execRor (k : CoreId) (d : Fin 8) (n : Fin 16) (s : State) : Out := shiftImm s k d n true aluRor
def execRorReg (k : CoreId) (d r : Fin 8) (s : State) : Out := shiftReg s k d r aluRor
def execRol (k : CoreId) (d : Fin 8) (n : Fin 16) (s : State) : Out := shiftImm s k d n true aluRol
def execRolReg (k : CoreId) (d r : Fin 8) (s : State) : Out := shiftReg s k d r aluRol
def execBset (k : CoreId) (d : Fin 8) (b : Fin 16) (s : State) : Out := shiftImm s k d b true fun x n => aluBit x n fun _ => true
def execBclr (k : CoreId) (d : Fin 8) (b : Fin 16) (s : State) : Out := shiftImm s k d b true fun x n => aluBit x n fun _ => false
def execBtgl (k : CoreId) (d : Fin 8) (b : Fin 16) (s : State) : Out := shiftImm s k d b true fun x n => aluBit x n fun b => !b
def execBtst (k : CoreId) (d : Fin 8) (b : Fin 16) (s : State) : Out := shiftImm s k d b false fun x n => aluBit x n fun b => b
def execClz (k : CoreId) (d r : Fin 8) (s : State) : Out :=
  aluStep s k { rep := true, use := { d := [(d : Nat), r] } } d true fun s => aluClz (dReg s k r)
def execShls (k : CoreId) (d : Fin 8) (n : Fin 16) (s : State) : Out := shiftImm s k d n true aluShls

/-! Major 5 (R253, R254). -/

/-- A multiplication of two data registers into an accumulator. -/
def mulOp (s : State) (k a x y : Nat) (f : Int → Int → Int → AccOut) : Out :=
  accStep s k { rep := true, use := { d := [x, y], a := [a], mul := true } } a fun s => f (aReg s k a) (dReg s k x) (dReg s k y)

def execMpy (k : CoreId) (a : Fin 2) (x y : Fin 8) (s : State) : Out :=
  mulOp s k a x y fun _ x y => { a := product true true x y }
def execMpyu (k : CoreId) (a : Fin 2) (x y : Fin 8) (s : State) : Out :=
  mulOp s k a x y fun _ x y => { a := product false false x y }
def execMpysu (k : CoreId) (a : Fin 2) (x y : Fin 8) (s : State) : Out :=
  mulOp s k a x y fun _ x y => { a := product true false x y }
def execMac (k : CoreId) (a : Fin 2) (x y : Fin 8) (s : State) : Out :=
  mulOp s k a x y fun a x y => accWrap (a + product true true x y)
def execMsu (k : CoreId) (a : Fin 2) (x y : Fin 8) (s : State) : Out :=
  mulOp s k a x y fun a x y => accWrap (a - product true true x y)
def execMacs (k : CoreId) (a : Fin 2) (x y : Fin 8) (s : State) : Out :=
  mulOp s k a x y fun a x y => accSat (a + product true true x y)
def execMpyf (k : CoreId) (a : Fin 2) (x y : Fin 8) (s : State) : Out :=
  mulOp s k a x y fun _ x y => accSat (fractProduct x y) false (fractLimited x y)
def execMacf (k : CoreId) (a : Fin 2) (x y : Fin 8) (s : State) : Out :=
  mulOp s k a x y fun a x y => accSat (a + fractProduct x y) false (fractLimited x y)

/-- The long MAC group issues (R233, R234, R254): an odd x is illegal; the result, V and SAT are written at retirement. -/
def longMac (s : State) (k a x z : Nat) (f : Int → Int → AccOut) : Out :=
  coreStep s k { use := { d := [x, x + 1, z], a := [a], mul := true } } fun s =>
    if x % 2 = 1 then .fault { vec := excIllegal } s
    else
      let r := f (aReg s k a) (longProduct (dReg s k (x + 1)) (dReg s k x) (dReg s k z))
      let s := ((s.raise .macOn k).put .macA a k).put .macVal r.a k
      .done ((s.put .macV (bit01 r.v) k).clear .macOld k)
def execMacl (k : CoreId) (a : Fin 2) (x z : Fin 8) (s : State) : Out := longMac s k a x z fun a p => accSat (a + p)
def execMpyl (k : CoreId) (a : Fin 2) (x z : Fin 8) (s : State) : Out := longMac s k a x z fun _ p => { a := signed 40 p }
def execMsul (k : CoreId) (a : Fin 2) (x z : Fin 8) (s : State) : Out := longMac s k a x z fun a p => accSat (a - p)

/-- An operation of the accumulator group, on the accumulator and the other one. -/
def accGroup (s : State) (k a : Nat) (f : Int → Int → AccOut) : Out :=
  accStep s k { rep := true, use := { a := [0, 1] } } a fun s => f (aReg s k a) (aReg s k (1 - a))
def execClra (k : CoreId) (a : Fin 2) (s : State) : Out := accGroup s k a fun _ _ => accSat 0 true
def execNega (k : CoreId) (a : Fin 2) (s : State) : Out := accGroup s k a fun x _ => accSat (-x) true
def execRnda (k : CoreId) (a : Fin 2) (s : State) : Out := accGroup s k a fun x _ => accRound x
def execSat32 (k : CoreId) (a : Fin 2) (s : State) : Out := accGroup s k a fun x _ => accSat32 x
def execMova (k : CoreId) (a : Fin 2) (s : State) : Out := accGroup s k a fun _ y => accSat y true
def execAdda (k : CoreId) (a : Fin 2) (s : State) : Out := accGroup s k a fun x y => accSat (x + y) true
def execSuba (k : CoreId) (a : Fin 2) (s : State) : Out := accGroup s k a fun x y => accSat (x - y) true
def execAsra (k : CoreId) (a : Fin 2) (n : Fin 64) (s : State) : Out := accGroup s k a fun x _ => accSat (shr x (n : Nat)) true
def execShla (k : CoreId) (a : Fin 2) (n : Fin 64) (s : State) : Out := accGroup s k a fun x _ => accSat (shl x (n : Nat)) true
def execStsat (k : CoreId) (d : Fin 8) (a : Fin 2) (s : State) : Out :=
  aluStep s k { rep := true, use := { d := [(d : Nat)], a := [(a : Nat)] } } d true fun s => aluStsat (aReg s k a)

/-! Major 6 (R255). -/

/-- A divide issues: q = r is illegal; the operands are read now, and the results are written at retirement (R234). -/
def divide (s : State) (k q r n : Nat) (f : Int → Int → Int × Int × Bool × Bool) : Out :=
  coreStep s k { use := { d := [q, r, n], div := true } } fun s =>
    if q = r then .fault { vec := excIllegal } s
    else
      let (x, y, v, z) := f (dReg s k q) (dReg s k n)
      let s := ((s.raise .divOn k).put .divQ q k).put .divR r k
      let s := (s.put .divQv x k).put .divRv y k
      .done (((s.put .divV (bit01 v) k).put .divDz (bit01 z) k).clear .divOld k)
def execDivs (k : CoreId) (q r n : Fin 8) (s : State) : Out := divide s k q r n divSigned
def execDivu (k : CoreId) (q r n : Fin 8) (s : State) : Out := divide s k q r n divUnsigned

/-- LONG_OP_RETIRE (R234): the outstanding divide, or the outstanding long MAC, of a core retires. -/
def execLongOpRetire (k : CoreId) (div : Bool) (s : State) : Out := .next (if div then retireDiv s k else retireMac s k)

end Sys2Proof.Machine
end

