-- ==== Sys2Proof/Machine/CoreFlow.lean ====
section
/-! DEFINITION. Transfers of control, REP and LOOP, and the system instructions of the cores (10_nerten_instructions.md, R248,
R259 to R268). -/
namespace Sys2Proof.Machine

/-- A wait for every older long operation; with `drain` for the store buffer too (R235, R267). -/
def useAll (drain : Bool) : Use := { sw := true, mul := true, div := true, drain := drain }

/-! Branches, jumps and calls (R259, R260). -/

/-- A relative branch of `len` words where the condition holds. -/
def branchIf (s : State) (k len : Nat) (o : Int) (c : Bool) : Res :=
  if c then .jump (branchTo s k (pcOf s k + len + o)) else .done s

def execBcc (k : CoreId) (c : Fin 8) (o : BitVec 8) (s : State) : Out :=
  coreStep s k { use := useAll false } fun s => branchIf s k 1 o.toInt (condition s k (longCondition c))
/-- BCC_L: condition 15 is illegal. -/
def execBccL (k : CoreId) (c : Fin 16) (o : BitVec 16) (s : State) : Out :=
  coreStep s k { len := 2, use := useAll false } fun s =>
    if (c : Nat) = 15 then .fault { vec := excIllegal } s else branchIf s k 2 o.toInt (condition s k c)
def execBra (k : CoreId) (o : BitVec 8) (s : State) : Out := coreStep s k {} fun s => branchIf s k 1 o.toInt true
def execJmp (k : CoreId) (a : BitVec 24) (s : State) : Out := coreStep s k { len := 2 } fun s => .jump (branchTo s k a.toNat)
def execJmpInd (k : CoreId) (n : Fin 8) (s : State) : Out := coreStep s k {} fun s => .jump (branchTo s k (pReg s k n))

/-- A call pushes the address of the next instruction, and keeps the loop context; in the last word of a loop's body the loop
goes on, so that the call returns to the start of the next iteration or past the body (R260, R263). -/
def callTo (s : State) (k len : Nat) (target : Int) : Res :=
  let sp := a24 (pReg s k 7 - 2)
  match store s k (supervisor s k) sp (pWords (pcOf (advance s k len) k)) with
  | (.error e, s) => .fault e s
  | (.ok s, _) => .jump (setPc (setP (leaveBody (advance s k len) k) k 7 sp) k target)
def execCall (k : CoreId) (a : BitVec 24) (s : State) : Out := coreStep s k { len := 2 } fun s => callTo s k 2 a.toNat
def execCallInd (k : CoreId) (n : Fin 8) (s : State) : Out := coreStep s k {} fun s => callTo s k 1 (pReg s k n)
def execRet (k : CoreId) (s : State) : Out :=
  coreStep s k {} fun s =>
    let sp := pReg s k 7
    match load s k (supervisor s k) sp 2 with
    | (.error e, s) => .fault e s
    | (.ok w, s) => .jump (branchTo (setP s k 7 (sp + 2)) k (pOfWords (w.getD 0 0) (w.getD 1 0)))

/-! REP and LOOP (R262, R263). -/

/-- REP with count rc (none) or #k, and whether the instruction that follows may be repeated: it is illegal otherwise, and in the
last word of a loop's body. With a count of 0 the repeated instruction is skipped. -/
def execRep (k : CoreId) (n : Option (Fin 512)) (ok : Bool) (s : State) : Out :=
  coreStep s k {} fun s =>
    let c : Int := match n with
      | some n => ((n : Nat) : Int) + 1
      | none => rcReg s k
    if !ok || (s.bit .loopOn k && s.get .loopEnd k == pcOf s k) then .fault { vec := excIllegal } s
    else if c == 0 then .jump (advance s k 2)
    else .jump (setPc ((s.put .repCnt c k (bankOf s k)).raise .repOn k) k (pcOf s k + 1))

/-- LOOP with its count, #c or dn, and the length of its body; a length of 0 is illegal, and so is a LOOP while a context is
active. With a count of 0 the body is skipped. -/
def execLoop (k : CoreId) (n : Sum (Fin 512) (Fin 8)) (len : BitVec 16) (s : State) : Out :=
  let d : List Nat := match n with
    | .inl _ => []
    | .inr r => [(r : Nat)]
  coreStep s k { len := 2, use := { d := d } } fun s =>
    let c : Int := match n with
      | .inl c => ((c : Nat) : Int) + 1
      | .inr r => dReg s k r
    let start := a24 (pcOf s k + 2)
    if s.bit .loopOn k || len == 0 then .fault { vec := excIllegal } s
    else if c == 0 then .jump (setPc (dropQueue s k) k (start + len.toNat))
    else
      let s := ((s.raise .loopOn k).put .loopStart start k).put .loopEnd (a24 (start + len.toNat - 1)) k
      let s := (s.put .lbPhase (bit01 (decide (len.toNat ≤ 32))) k).clear .lbOn k
      .jump (setPc (s.put .loopCnt c k (bankOf s k)) k start)

/-! System instructions (R248, R264 to R268). -/

def execNop (k : CoreId) (s : State) : Out := coreStep s k {} .done
/-- BAR (R235): what it waits for has retired and drained before it executes, and a trap of it is taken at BAR. -/
def execBar (k : CoreId) (s : State) : Out := coreStep s k { use := useAll true } .done
/-- FENCEI (R239, R241): the store buffer drains, then the fetch queue and the loop buffer are emptied, and on the management core
the instruction cache is invalidated. -/
def fencei (s : State) (k : Nat) : State :=
  let s := dropLoopBuffer (dropQueue (drainAll s k) k) k
  s.when (k == 5) fun s => s.resetKeys fun x => x.fld == .icOn || x.fld == .icWord
def execFencei (k : CoreId) (s : State) : Out := coreStep s k {} fun s => .done (fencei s k)

/-- WFE (R264). -/
def execWfe (k : CoreId) (s : State) : Out :=
  coreStep s k {} fun s => if s.bit .evLatch k then .done (s.clear .evLatch k) else .stay (s.put .coreWait 1 k)

/-- WFE_WAKE (R264): the latch of a waiting core is set, and its WFE completes. A sleep entry that waits on it is undone (R444,
DEDUCED, log entry 43). -/
def execWfeWake (k : CoreId) (s : State) : Out :=
  .next (if !coreRuns s k || s.get .coreWait k != 1 || !s.bit .evLatch k then s
    else
      let s := if (k : Nat) = 5 && s.bit .PW_CTRL_SLEEP then sleepUndo s else s
      endInstr ((s.clear .evLatch k).clear .coreWait k) k 1)

/-- The target of a WAITU is the present tick or lies in the past half-range (R266). -/
def waitOver (s : State) (k n : Nat) : Bool :=
  let d := unsigned 16 (dReg s k n - s.now)
  d == 0 || decide (d ≥ 32768)

/-- WAITU and WAITU_DONE (R266). -/
def execWaitu (k : CoreId) (n : Fin 8) (s : State) : Out :=
  coreStep s k { use := { d := [(n : Nat)] } } fun s =>
    if waitOver s k n then .done s else .stay ((s.put .coreWait 2 k).put .waitReg (n : Nat) k)
def waituDone (s : State) (k : Nat) : State :=
  if !coreRuns s k || s.get .coreWait k != 2 || !waitOver s k (s.nat .waitReg k) then s
  else endInstr (s.clear .coreWait k) k 1

def execSev (k : CoreId) (ch : Channel) (s : State) : Out :=
  coreStep s k {} fun s => .done (corePublish s k (supervisor s k) ch)
def execSevReg (k : CoreId) (n : Fin 8) (s : State) : Out :=
  coreStep s k { use := { d := [(n : Nat)] } } fun s => .done (corePublish s k (supervisor s k) (dReg s k n % 64).toNat)

/-- HALT (R267): the older instructions complete and the store buffer drains. -/
def execHalt (k : CoreId) (s : State) : Out :=
  coreStep s k { use := useAll true, priv := true } fun s => .done (s.raise .coreHalt k)

/-- TRAP #n (R267): the saved pc is the next instruction, after the last word of a loop's body that of the loop (R263). -/
def execTrap (k : CoreId) (n : Fin 16) (s : State) : Out :=
  coreStep s k {} fun s =>
    let s := advance s k 1
    .jump (takeException s k (pcOf s k) { vec := excTrap + n, info := n })

/-- GATE #g (R283); a tick core has no gates (R274). -/
def execGate (k : CoreId) (g : BitVec 8) (s : State) : Out :=
  coreStep s k { use := useAll false } fun s =>
    if (k : Nat) = 5 then gateCall s g.toNat else .fault { vec := excIllegal } s

/-- GRET and RETI (R279, R282, R285). -/
def execGret (k : CoreId) (s : State) : Out :=
  coreStep s k { use := useAll false, priv := true } fun s =>
    if (k : Nat) = 5 then gateReturn s else .fault { vec := excIllegal } s
def execReti (k : CoreId) (s : State) : Out :=
  coreStep s k { use := useAll false, priv := true } fun s => if (k : Nat) = 5 then mcReti s else tickReti s k

end Sys2Proof.Machine
end

