-- ==== Sys2Proof/Machine/Translation.lean ====
section
/-! DEFINITION. The system instructions of decode entries 29 to 31 (11_exceptions_translation.md, R289, R291): the table walk,
the TLB write and the TLB invalidations. -/
namespace Sys2Proof.Machine

/-- The decode of an instruction of vendor entry `e` (R274, R291, R300): illegal on a tick core and while the entry is not valid,
privileged at user privilege. -/
def vendorCheck (s : State) (k e : Nat) : Option Exc :=
  if k ≠ 5 || !bitAt (decEntry s k e) 10 then some { vec := excIllegal }
  else if !supervisor s k then some { vec := excPrivileged } else none

/-- What the read of a microword gives: the word, the data bus error, or a mismatch of the pair in an output group. -/
inductive MicroRead where
  | word
  | fault (e : Exc)
  | mismatch (g : Nat)

/-- A microword is read for execution (R309): a single-bit error is corrected and counted; an uncorrectable one raises the data bus
error. Each core of a pair holds a copy: in lock-step an error in one copy alone is a mismatch (R313, R330). Whether the error lies in
one copy or in both, and the group, are not stated: free values (log entry 125). -/
def readMicroword (s : State) (k i : Nat) : MicroRead × State :=
  if s.bit .ucBad k i then
    let (n, s) := s.fresh
    let (g, s) := s.fresh
    if s.get .LS_PAIR_STATE k == pairLOCKSTEP && Config.freeBit n then
      (.mismatch ((Config.freeInt g) % 6).toNat, microwordError s k i)
    else (.fault { vec := excBus, faddr := ((0x300000 + 4 * i : Nat) : Int) }, microwordError s k i)
  else (.word, s.when (s.softUc.contains (k, i)) fun s => s.bump .UC_ECC 0xFFFF)

/-- An instruction of vendor entry `e`. -/
def vendorStep (s : State) (k e : Nat) (d : List Nat) (f : State → Res) : Out :=
  coreStep s k { use := { d := d } } fun s =>
    match vendorCheck s k e with
    | some x => .fault x s
    | none =>
      let w := decEntry s k e
      match readMicroword s k (64 * (field w 9 6).toNat + (field w 5 0).toNat) with
      | (.fault x, s) => .fault x s
      | (.mismatch g, s) => .stay (mismatchFreeze s k g)
      | (.word, s) => f s

/-- The address of the table entry that LDPT reads at a level (R289). -/
def walkAddress (s : State) (lvl m : Nat) : Int :=
  let va := s.get .XC_TLBVA_VA
  let base := shl (field (pReg s 5 m) 23 10) 10
  match lvl with
  | 0 => pReg s 5 m
  | 1 => a24 (s.get .XC_PTROOT + 2 * field va 23 22)
  | 2 => a24 (base + 2 * field va 21 16)
  | _ => a24 (base + 2 * field va 15 10)

/-- A table entry may be read there: the boot ROM or MC SRAM. -/
def walkRegion (a : Nat) : Bool := region a == .rom || region a == .sram

/-- LDPT into dn and dn+1, translated outside refill mode as every access (R286): outside the boot ROM and MC SRAM the
walk-region fault, against the missing access (R289). -/
def ldpt (s : State) (n lvl m : Nat) : Res :=
  let a := walkAddress s lvl m
  match reachAll s 5 true a .read 2 with
  | (.error e, s) => .fault e s
  | (.ok pas, s) =>
    if !pas.all fun pa => walkRegion pa then
      .fault { vec := excWalk, wr := s.bit .missWr, faddr := s.get .XC_TLBVA_VA } (s.put .XC_TLBWADDR a)
    else
      match loadCells s 5 a pas with
      | (.error e, s) => .fault e s
      | (.ok w, s) => .done (setD (setD s 5 n (w.getD 0 0)) 5 (n + 1) (w.getD 1 0))

/-- TLBWR from {dn+1, dn}: size 3 is illegal (R291). -/
def tlbWrite (s : State) (n sz : Nat) : Res :=
  if sz = 3 then .fault { vec := excIllegal } s else .done (tlbwr s (dReg s 5 n + 65536 * dReg s 5 (n + 1)) sz)

def execLdpt (k : CoreId) (n : Fin 4) (lvl : Fin 4) (m : Fin 4) (s : State) : Out :=
  vendorStep s k 29 [2 * (n : Nat), 2 * (n : Nat) + 1] fun s => ldpt s (2 * (n : Nat)) lvl m
def execTlbwr (k : CoreId) (n : Fin 4) (sz : Fin 4) (s : State) : Out :=
  vendorStep s k 30 [2 * (n : Nat), 2 * (n : Nat) + 1] fun s => tlbWrite s (2 * (n : Nat)) sz
def execTlbinvAll (k : CoreId) (s : State) : Out := vendorStep s k 31 [] fun s => .done (tlbinvAll s)
def execTlbinvAsid (k : CoreId) (n : Fin 8) (s : State) : Out :=
  vendorStep s k 31 [(n : Nat)] fun s => .done (tlbinvAsid s (field (dReg s 5 n) 7 0))
def execTlbinvVa (k : CoreId) (n : Fin 8) (s : State) : Out :=
  vendorStep s k 31 [] fun s => .done (tlbinvVa s (pReg s 5 n))

end Sys2Proof.Machine
end

