-- ==== Sys2Proof/Machine/CoreCustom.lean ====
section
/-! DEFINITION. Custom instructions: the execution of microcode (12_microcode.md, R300 to R309; 10_nerten_instructions.md,
R272). A custom instruction runs from its decode entry to the microword marked END, which commits it, or raises an exception
and leaves no effect. -/
namespace Sys2Proof.Machine

/-- What a custom instruction holds while it runs: the temporaries, the micro-flags N, Z, C, V, the pending flags with their SAT,
and the stores that wait for commit, each with its issued address, its physical address and its word. -/
structure Micro where
  t0 : Int := 0
  t1 : Int := 0
  n : Bool
  z : Bool
  c : Bool
  v : Bool
  pn : Bool
  pz : Bool
  pc : Bool
  pv : Bool
  psat : Bool := false
  stores : List (Int × Nat × W16) := []

/-- The micro-flags and the pending flags at entry (R305). -/
def microStart (s : State) (k : Nat) : Micro :=
  let n := s.bit .swN k
  let z := s.bit .swZ k
  let c := s.bit .swC k
  let v := s.bit .swV k
  { n := n, z := z, c := c, v := v, pn := n, pz := z, pc := c, pv := v }

/-- A register code with DX, DY, PX, PY and AX resolved by the operand bits (R302). -/
def resolveSel (c op : Nat) : Nat :=
  if c = 20 then op / 8 else if c = 21 then op % 8 else if c = 22 then 8 + op / 8 else if c = 23 then 8 + op % 8
  else if c = 24 then 16 + op % 2 else c

/-- A source as 40 bits (R302): d registers and LIT are sign-extended, the others zero-extended. -/
def microSource (s : State) (k : Nat) (m : Micro) (op : Nat) (lit : Int) (c : Nat) : Int :=
  let c := resolveSel c op
  if c < 8 then signed 16 (dReg s k c)
  else if c < 16 then pReg s k (c - 8)
  else if c < 18 then aReg s k (c - 16)
  else if c = 18 then m.t0 else if c = 19 then m.t1
  else if c = 25 then signed 16 lit
  else if c = 26 then op
  else if c = 27 then rcReg s k
  else if c = 28 then unsigned 16 s.now
  else if c = 29 then a24 (pcOf s k + 1)
  else 0

/-- The width of a destination; ZERO counts as 16 bits (R305). -/
def selWidth (c : Nat) : Nat := if c < 8 then 16 else if c < 16 then 24 else if c < 20 then 40 else 16

/-- Write a destination; a result written to ZERO is lost. -/
def microWrite (s : State) (k : Nat) (m : Micro) (c : Nat) (v : Int) : State × Micro :=
  if c < 8 then (setD s k c v, m)
  else if c < 16 then (setP s k (c - 8) v, m)
  else if c < 18 then (setA s k (c - 16) v, m)
  else if c = 18 then (s, { m with t0 := signed 40 v })
  else if c = 19 then (s, { m with t1 := signed 40 v })
  else if c = 27 then (setRc s k v, m)
  else (s, m)

/-- The result of ALUOP on 40 bits (R303), exact for the additions and subtractions. That of a system code is not stated: a free
value (log entry 91). -/
def microAlu (s : State) (code : Nat) (a b cin : Int) : Int × State :=
  let ua := unsigned 40 a
  let ub := unsigned 40 b
  let n := (unsigned 6 b).toNat
  let lo := field a 15 0
  match code with
  | 0 => (a, s)
  | 1 => (b, s)
  | 2 => (a + b, s)
  | 3 => (a + b + cin, s)
  | 4 => (a - b, s)
  | 5 => (a - b - (1 - cin), s)
  | 6 => (signed 40 (andI ua ub), s)
  | 7 => (signed 40 (orI ua ub), s)
  | 8 => (signed 40 (xorI ua ub), s)
  | 9 => (-a - 1, s)
  | 10 => (signed 40 (shl a n), s)
  | 11 => (signed 40 (shr ua n), s)
  | 12 => (shr (signed 40 a) (min n 40), s)
  | 13 => (product true true lo (field b 15 0), s)
  | 14 => (product false false lo (field b 15 0), s)
  | 15 => (min (signed 40 a) (signed 40 b), s)
  | 16 => (max (signed 40 a) (signed 40 b), s)
  | 17 => (leadingZeros lo, s)
  | 18 => (swapBytes lo, s)
  | _ => let (i, s) := s.fresh; (Config.freeInt i, s)

/-- The carry out of width `w` of an addition, or not-borrow of a subtraction (R305). -/
def microCarry (code w : Nat) (a b cin : Int) : Bool :=
  let x := unsigned w a
  let y := unsigned w b
  match code with
  | 2 => decide (x + y ≥ 2 ^ w)
  | 3 => decide (x + y + cin ≥ 2 ^ w)
  | 4 => decide (x - y ≥ 0)
  | _ => decide (x - y - (1 - cin) ≥ 0)

/-- Signed overflow of an addition or subtraction at width `w` (R305). -/
def microOverflow (code w : Nat) (a b cin : Int) : Bool :=
  let x := signed w a
  let y := signed w b
  let r := match code with
    | 2 => x + y
    | 3 => x + y + cin
    | 4 => x - y
    | _ => x - y - (1 - cin)
  satS w r != r

/-- The micro-flags after a microword (R305): at width `w`, of the result `x`; `acted` where SAT limited it. -/
def microFlags (m : Micro) (code w : Nat) (a b x : Int) (cin : Int) (acted : Bool) : Micro :=
  let m := { m with n := bitAt x (w - 1), z := unsigned w x == 0 }
  if code ≤ 1 then m
  else if code ≤ 5 then
    { m with c := microCarry code w a b cin, v := microOverflow code w a b cin || acted, psat := m.psat || acted }
  else { m with v := false }

/-- A condition of R304. -/
def microCond (s : State) (k : Nat) (m : Micro) (op c : Nat) : Bool :=
  match c with
  | 1 => m.z
  | 2 => m.n
  | 3 => m.c
  | 4 => m.v
  | 11 => supervisor s k
  | 12 => k == 5
  | _ => decide (5 ≤ c ∧ c ≤ 10) && bitAt op (c - 5)

/-- The next offset (R304). -/
def microNext (s : State) (k : Nat) (m : Micro) (op : Nat) (w : Int) : Nat :=
  let c := fun i => bit01 (microCond s k m op (field w (11 + 4 * i) (8 + 4 * i)).toNat) * 2 ^ i
  (orI (field w 5 0) (c 0 + c 1 + c 2 + c 3)).toNat

/-- What a microword ends in: the next offset, the commit, an exception, or a mismatch of the pair. -/
inductive MicroEnd where
  | next (off : Nat)
  | commit
  | fault (e : Exc)
  | mismatch (g : Nat)

/-- The memory half of a microword at address `va` (R307): a device region raises the data bus error before it is issued, and
a fifth store overruns (R308). -/
def microMem (s : State) (k : Nat) (m : Micro) (op : Nat) (w : Int) (va : Int) : Option Exc × State × Micro :=
  let dst := resolveSel (field w 43 39).toNat op
  let wr := field w 45 44 == 2
  if wr && decide (m.stores.length ≥ 4) then (some { vec := excOverrun, info := 1 }, s, m)
  else
    match place s k (supervisor s k) va (if wr then .write else .read) with
    | (.error e, s) => (some e, s, m)
    | (.ok pa, s) =>
      if isDevice pa then (some { vec := excBus, wr := wr, faddr := va }, s, m)
      else if wr then
        let v := microSource s k m op 0 dst
        (none, s, { m with stores := m.stores ++ [(va, pa, BitVec.ofInt 16 v)] })
      else
        match loadWord s k (cacheable s va pa) pa with
        | (none, s) => (some { vec := excBus, faddr := va }, s, m)
        | (some v, s) =>
          let (s, m) := microWrite s k m dst v.toInt
          (none, s, m)

/-- The system operation of a code 28 to 31 (R303): the table walk, the TLB write or a TLB invalidation, on the operands that the
operand bits name (R291). Which code carries out which is not stated (log entry 91); a tick core has none of them (R274). -/
def systemRun (s : State) (k code op : Nat) : Res :=
  let ill := Res.fault { vec := excIllegal } s
  let c := Config.systemCode code
  if k ≠ 5 then ill
  else if c = 0 then ldpt s (2 * (op / 4 % 4)) (op / 16) (op % 4)
  else if c = 1 then (if op / 16 ≠ 0 then ill else tlbWrite s (2 * (op / 4 % 4)) (op % 4))
  else if op = 0 then .done (tlbinvAll s)
  else if op / 16 = 1 ∧ op % 16 < 8 then .done (tlbinvAsid s (field (dReg s k (op % 8)) 7 0))
  else if op / 16 = 2 ∧ op % 16 < 8 then .done (tlbinvVa s (pReg s k (op % 8)))
  else ill

/-- What a microword does with its result `res` (R301, R303, R307): it writes DST, or accesses memory; a system code does its
operation and nothing else. -/
def microEffect (s : State) (k : Nat) (m : Micro) (op : Nat) (w res : Int) : Option Exc × State × Micro :=
  let code := (field w 38 34).toNat
  if code ≥ 28 then
    match systemRun s k code op with
    | .fault e s => (some e, s, m)
    | .done s | .stay s | .jump s => (none, s, m)
  else if field w 45 44 == 0 then
    let (s, m) := microWrite s k m (resolveSel (field w 43 39).toNat op) res
    (none, s, m)
  else microMem s k m op w (a24 res)

/-- One microword (R301 to R305). -/
def microStep (s : State) (k op : Nat) (w : Int) (m : Micro) : MicroEnd × State × Micro :=
  let lit := field w 63 48
  let a := microSource s k m op lit (field w 28 24).toNat
  let b := microSource s k m op lit (field w 33 29).toNat
  let code := (field w 38 34).toNat
  let dst := resolveSel (field w 43 39).toNat op
  let width := if field w 45 44 == 2 then 16 else selWidth dst
  let cin := bit01 m.c
  let (r, s) := microAlu s code a b cin
  let res := if bitAt w 47 && decide (2 ≤ code ∧ code ≤ 5) then satS (selWidth dst) r else r
  let m' := microFlags m code width a b res cin (res != r)
  let m' := if bitAt w 46 then { m' with pn := m'.n, pz := m'.z, pc := m'.c, pv := m'.v } else m'
  let (x, s, m') := microEffect s k m' op w res
  match x with
  | some e => (.fault e, s, m')
  | none => (if bitAt w 6 then .commit else .next (microNext s k m' op w), s, m')

/-- The microwords from offset `off` of a page, at most `n` of them; one more overruns (R308). A microword that is uncorrectable
raises the data bus error and clears the entries of its page in this core's table (R309). -/
def microRun (k op page : Nat) : Nat → Nat → State → Micro → MicroEnd × State × Micro
  | 0, _, s, m => (.fault { vec := excOverrun }, s, m)
  | n + 1, off, s, m =>
    let i := 64 * page + off
    match readMicroword s k i with
    | (.fault e, s) => (.fault e, s, m)
    | (.mismatch g, s) => (.mismatch g, s, m)
    | (.word, s) =>
      match microStep s k op (s.get .UC_MW i) m with
      | (.next off, s, m) => microRun k op page n off s m
      | x => x

/-- The TLB as it stood. -/
def undoTlb (s t : State) : State :=
  (t.each (List.range 64) fun t i =>
    t.each [Fld.tlbV, .tlbVpn, .tlbAsid, .tlbSz, .tlbG, .tlbPte] fun t f => t.put f (s.get f i) i).put .XC_MMU_RP (s.get .XC_MMU_RP)

/-- The writes of an instruction that does not commit are discarded (R306). -/
def undoRegs (s t : State) (k : Nat) : State :=
  let b := bankOf s k
  let t := t.each (List.range 8) fun t n => (t.put .coreD (s.get .coreD k (b * 8 + n)) k (b * 8 + n)).put .coreP
    (s.get .coreP k (b * 8 + n)) k (b * 8 + n)
  let t := t.each (List.range 2) fun t n => t.put .coreA (s.get .coreA k (b * 2 + n)) k (b * 2 + n)
  undoTlb s ((t.put .coreRc (s.get .coreRc k b) k b).put .coreUsp (s.get .coreUsp))

/-- The commit (R306): the stores enter the store buffer in order, and the pending flags are written. -/
def microCommit (s : State) (k : Nat) (m : Micro) : State :=
  let s := s.each m.stores fun s x =>
    if (directCells s k [(x.2.1, x.2.2)]).isEmpty then bufferStore s ⟨k, [(x.2.1, x.2.2)], x.1.toNat, supervisor s k, false⟩
    else (writeCells s k [(x.2.1, x.2.2)]).2
  let s := (((s.put .swN (bit01 m.pn) k).put .swZ (bit01 m.pz) k).put .swC (bit01 m.pc) k)
  let s := putV s k m.pv
  if m.psat then s.raise .swSat k else s

/-- The check of a decode entry (R300). -/
def entryCheck (s : State) (k e : Nat) : Option Exc :=
  let w := decEntry s k e
  if !bitAt w 10 then some { vec := excIllegal }
  else if bitAt w 11 && k != 5 then some { vec := excIllegal }
  else if bitAt w 12 && !supervisor s k then some { vec := excPrivileged } else none

/-- A custom instruction by microcode. -/
def customRun (s : State) (k e op : Nat) : Res :=
  let w := decEntry s k e
  match microRun k op (field w 9 6).toNat 64 (field w 5 0).toNat s (microStart s k) with
  | (.commit, t, m) => .done (microCommit t k m)
  | (.fault x, t, _) => .fault x (undoRegs s t k)
  | (.mismatch g, t, _) => .stay (mismatchFreeze (undoRegs s t k) k g)
  | (.next _, t, _) => .fault { vec := excOverrun } (undoRegs s t k)

/-- CUSTOM_INSTRUCTION (R272): decode entry `e` with operand bits `op`. -/
def execCustomInstruction (k : CoreId) (e : Fin 32) (op : BitVec 6) (s : State) : Out :=
  coreStep s k { use := useAll false } fun s =>
    match entryCheck s k e with
    | some x => .fault x s
    | none => customRun s k e op.toNat

end Sys2Proof.Machine
end

