-- ==== Sys2Proof/Machine/CoreMem.lean ====
section
/-! DEFINITION. Loads and stores (10_nerten_instructions.md, R256, R257), address arithmetic (R258), the block instructions
(R269 to R271) and the drain of the store buffer (09_nerten_core.md, R237). -/
namespace Sys2Proof.Machine

/-! Loads and stores of a word (R256). -/

/-- The words of an instruction with a mode. -/
def modeLen (m : AddrMode) : Nat :=
  match m with
  | .off16 _ _ | .abs _ => 2
  | _ => 1

/-- LD: the loaded word goes to dn after the pointer has been updated. -/
def execLd (k : CoreId) (d : Fin 8) (m : AddrMode) (s : State) : Out :=
  coreStep s k { len := modeLen m, rep := true, use := { d := (d : Nat) :: modeReads m } } fun s =>
    let (va, p, _) := modeAddress s k m
    match load s k (supervisor s k) va 1 with
    | (.error e, s) => .fault e s
    | (.ok w, s) => .done (setD (putPointer s k p) k d (w.getD 0 0))

/-- ST: dn is read before the pointer is updated. -/
def execSt (k : CoreId) (d : Fin 8) (m : AddrMode) (s : State) : Out :=
  coreStep s k { len := modeLen m, rep := true, use := { d := (d : Nat) :: modeReads m } } fun s =>
    let (va, p, _) := modeAddress s k m
    match store s k (supervisor s k) va [dReg s k d] with
    | (.error e, s) => .fault e s
    | (.ok s, _) => .done (putPointer s k p)

/-! Moves of 32 bits (R257). -/

/-- The words of an instruction with a mode of the 32-bit moves. -/
def pairLen (m : PairMode) : Nat :=
  match m with
  | .off16 _ _ => 2
  | _ => 1

/-- A 32-bit load: `bad` names an operand that is illegal, `put` writes the register from the low and the high word. -/
def pairLoad (s : State) (k : Nat) (m : PairMode) (u : Use) (bad : Bool) (put : State → Int → Int → State) : Out :=
  coreStep s k { len := pairLen m, rep := true, use := u } fun s =>
    if bad then .fault { vec := excIllegal } s
    else
      let (va, p, _) := pairAddress s k m
      match load s k (supervisor s k) va 2 with
      | (.error e, s) => .fault e s
      | (.ok w, s) => .done (put (putPointer s k p) (w.getD 0 0) (w.getD 1 0))

/-- A 32-bit store of the words that `get` reads. -/
def pairStore (s : State) (k : Nat) (m : PairMode) (u : Use) (bad : Bool) (get : State → List Int) : Out :=
  coreStep s k { len := pairLen m, rep := true, use := u } fun s =>
    if bad then .fault { vec := excIllegal } s
    else
      let (va, p, _) := pairAddress s k m
      match store s k (supervisor s k) va (get s) with
      | (.error e, s) => .fault e s
      | (.ok s, _) => .done (putPointer s k p)

def oddReg (n : Nat) : Bool := n % 2 == 1

def execLdDpair (k : CoreId) (n : Fin 8) (m : PairMode) (s : State) : Out :=
  pairLoad s k m { d := [(n : Nat), (n : Nat) + 1] } (oddReg n) fun s lo hi => setD (setD s k n lo) k ((n : Nat) + 1) hi
def execStDpair (k : CoreId) (n : Fin 8) (m : PairMode) (s : State) : Out :=
  pairStore s k m { d := [(n : Nat), (n : Nat) + 1] } (oddReg n) fun s => [dReg s k n, dReg s k ((n : Nat) + 1)]
/-- LD_PREG: a load of the pointer that its own mode updates is illegal. -/
def execLdPreg (k : CoreId) (n : Fin 8) (m : PairMode) (s : State) : Out :=
  pairLoad s k m {} (pairUpdates m == some (n : Nat)) fun s lo hi => setP s k n (pOfWords lo hi)
def execStPreg (k : CoreId) (n : Fin 8) (m : PairMode) (s : State) : Out :=
  pairStore s k m {} false fun s => pWords (pReg s k n)
def execLdAcc (k : CoreId) (n : Fin 8) (m : PairMode) (s : State) : Out :=
  pairLoad s k m { a := [(n : Nat)] } (decide ((n : Nat) ≥ 2)) fun s lo hi => setA s k n (signed 32 (lo + 65536 * hi))
def execStAcc (k : CoreId) (n : Fin 8) (m : PairMode) (s : State) : Out :=
  pairStore s k m { a := [(n : Nat)] } (decide ((n : Nat) ≥ 2)) fun s => [field (aReg s k n) 15 0, field (aReg s k n) 31 16]

/-- STORE_BUFFER_DRAIN (R237). -/
def execStoreBufferDrain (k : CoreId) (s : State) : Out := .next (drainOldest s k)

/-! Address arithmetic (R258): no flag but those of CMPP. -/

/-- An instruction that writes a pointer. -/
def pointerOp (s : State) (k len : Nat) (d : List Nat) (n : Nat) (f : State → Int) : Out :=
  coreStep s k { len := len, rep := true, use := { d := d } } fun s => .done (setP s k n (f s))

def execMovp (k : CoreId) (n : Fin 8) (v : W16) (s : State) : Out := pointerOp s k 2 [] n fun _ => v.toNat
def execMovph (k : CoreId) (n : Fin 8) (v : W16) (s : State) : Out := pointerOp s k 2 [] n fun _ => v.toNat * 256
def execAddp (k : CoreId) (n : Fin 8) (o : BitVec 16) (s : State) : Out := pointerOp s k 2 [] n fun s => pReg s k n + o.toInt
def execAddpS5 (k : CoreId) (n : Fin 8) (o : BitVec 5) (s : State) : Out := pointerOp s k 1 [] n fun s => pReg s k n + o.toInt
def execMovpP (k : CoreId) (n m : Fin 8) (s : State) : Out := pointerOp s k 1 [] n fun s => pReg s k m
def execAddpD (k : CoreId) (n d : Fin 8) (s : State) : Out :=
  pointerOp s k 1 [(d : Nat)] n fun s => pReg s k n + signed 16 (dReg s k d)
def execMovpD (k : CoreId) (n d : Fin 8) (s : State) : Out := pointerOp s k 1 [(d : Nat)] n fun s => dReg s k d
def execMovphD (k : CoreId) (n d : Fin 8) (s : State) : Out :=
  pointerOp s k 1 [(d : Nat)] n fun s => field (pReg s k n) 15 0 + 65536 * field (dReg s k d) 7 0
def execLea (k : CoreId) (n : Fin 8) (o : BitVec 16) (s : State) : Out :=
  pointerOp s k 2 [] n fun s => pcOf s k + 2 + o.toInt
def execCmpp (k : CoreId) (n m : Fin 8) (s : State) : Out :=
  coreStep s k { rep := true } fun s =>
    let r := a24 (pReg s k n - pReg s k m)
    let s := (s.put .swN (bit01 (bitAt r 23)) k).put .swZ (bit01 (r == 0)) k
    .done (putV (s.put .swC (bit01 (decide (pReg s k m ≤ pReg s k n))) k) k false)
def execMovDp (k : CoreId) (d n : Fin 8) (s : State) : Out :=
  coreStep s k { rep := true, use := { d := [(d : Nat)] } } fun s => .done (setD s k d (field (pReg s k n) 15 0))
def execMovdh (k : CoreId) (d n : Fin 8) (s : State) : Out :=
  coreStep s k { rep := true, use := { d := [(d : Nat)] } } fun s => .done (setD s k d (field (pReg s k n) 23 16))

/-! Block instructions (R269 to R271): one element a command; pc stays at the instruction until the count is 0. -/

/-- The end of an element: the count goes down, and the instruction completes at 0. -/
def elementDone (s : State) (k c : Nat) : Res :=
  let s := setD s k c (dReg s k c - 1)
  if dReg s k c == 0 then .done s else .stay s

/-- MOVB (R270): the last remaining word first while the parts overlap forwards, else upwards. -/
def execMovb (k : CoreId) (pd ps : Fin 8) (c : Fin 4) (s : State) : Out :=
  coreStep s k { use := { d := [(c : Nat)] } } fun s =>
    let n := dReg s k c
    let x := pReg s k pd
    let y := pReg s k ps
    let down := decide (0 < a24 (x - y) ∧ a24 (x - y) < n)
    let o := if down then n - 1 else 0
    if pd = ps then .fault { vec := excIllegal } s
    else if n == 0 then .done s
    else
      match load s k (supervisor s k) (a24 (y + o)) 1 with
      | (.error e, s) => .fault e s
      | (.ok w, s) =>
        match store s k (supervisor s k) (a24 (x + o)) w with
        | (.error e, s) => .fault e s
        | (.ok s, _) => elementDone (if down then s else setP (setP s k pd (x + 1)) k ps (y + 1)) k c

/-- FILB (R269): v may not name the count register. -/
def execFilb (k : CoreId) (pd : Fin 8) (v : Fin 8) (c : Fin 4) (s : State) : Out :=
  coreStep s k { use := { d := [(v : Nat), (c : Nat)] } } fun s =>
    if (v : Nat) = (c : Nat) then .fault { vec := excIllegal } s
    else if dReg s k c == 0 then .done s
    else
      match store s k (supervisor s k) (pReg s k pd) [dReg s k v] with
      | (.error e, s) => .fault e s
      | (.ok s, _) => elementDone (setP s k pd (pReg s k pd + 1)) k c

/-- The word folded into a CRC register (R271): variant 0 the CRC-16 of R128, variant 1 the reflected CRC-32. -/
def crcFold (a : Int) (w : Int) (variant : Nat) : Int :=
  if variant = 0 then (crcWords (BitVec.ofInt 16 a) [BitVec.ofInt 16 w]).toNat
  else (crc32Byte (crc32Byte (BitVec.ofInt 32 a) (BitVec.ofInt 8 w)) (BitVec.ofInt 8 (field w 15 8))).toNat

/-- CRCB (R271): variants 2 and 3 are illegal. -/
def execCrcb (k : CoreId) (ps : Fin 8) (a : Fin 2) (c : Fin 4) (w : Fin 4) (s : State) : Out :=
  coreStep s k { use := { d := [(c : Nat)], a := [(a : Nat)] } } fun s =>
    if (w : Nat) ≥ 2 then .fault { vec := excIllegal } s
    else if dReg s k c == 0 then .done s
    else
      match load s k (supervisor s k) (pReg s k ps) 1 with
      | (.error e, s) => .fault e s
      | (.ok v, s) =>
        let s := setA s k a (crcFold (aReg s k a) (v.getD 0 0) w)
        elementDone (setP s k ps (pReg s k ps + 1)) k c

end Sys2Proof.Machine
end

