-- ==== Sys2Proof/Machine/Jtag.lean ====
section
/-! DEFINITION. The JTAG port (20_pins_electrical_package.md, R470; 14_lockstep.md, R339; 19_device_power_clocks.md, R439).
-/
namespace Sys2Proof.Machine

/-- An instruction is loaded: the capture shifts out 0b0000_0x01, and `code` comes into force (R470). -/
def tapLoad (s : State) (code : Int) (blocked hold : Bool) : State :=
  let s := s.put .tapOut (1 + 4 * s.get .tapErr)
  ((s.put .tapErr (bit01 blocked)).put .tapIr code).put .enableHold (bit01 hold)

/-- Every rail is OFF or UNUSED (R470). -/
def railsStopped (s : State) : Bool :=
  (List.range 16).all fun r => railState s r == stOFF || railState s r == stUNUSED

/-- EXTEST, CLAMP and HIGHZ may take effect: every rail is stopped, and no enable has become true in this tick (R470, R472). -/
def tapMayDrive (s : State) : Bool := railsStopped s && !(List.range 16).any (enableRises s)

/-- EXTEST, CLAMP and HIGHZ take effect only while every rail is OFF or UNUSED, and hold every enable false; at any other
time they act as BYPASS, and bit 2 of the next capture reads 1 (R470). -/
def tapDrive (s : State) (code : Int) : State :=
  if tapMayDrive s then (tapLoad s code false true).put .tapAt (s.now + 1) else tapLoad s 0xFF true false

/-- TAP reset (R439): IDCODE is in force; the TAP alone is touched. -/
def tapReset (s : State) : State := ((s.put .tapIr 1).clear .tapErr).clear .enableHold

/-- A debug instruction (R339, R397, R439, R470): with the production debug lock it acts as BYPASS. -/
def debugAccess (s : State) (code : Nat) (act : DebugAct) : State :=
  if s.bit .OT_STATUS_DBGLOCK then tapLoad s 0xFF false false
  else
    let s := tapLoad s (16 + code) false false
    match act with
    | .none => s
    | .reset => mcReset s 8
    | .resume k => (s.clear .coreHalt (k : Nat)).clear .coreDbg (k : Nat)

def execTapReset (s : State) : Out := .next (tapReset s)
def execExtest (s : State) : Out := .next (tapDrive s 0)
/-- IDCODE (R470): the identification register is selected and reads 0x1712_85CB. -/
def execIdcode (s : State) : Out := .next ((tapLoad s 1 false false).put .tapOut 0x171285CB)
/-- SAMPLE/PRELOAD (R470): the boundary-scan register is preloaded. -/
def execSamplePreload (cells : BitVec 1024) (s : State) : Out :=
  .next ((tapLoad s 2 false false).put .tapCells cells.toNat)
def execClamp (s : State) : Out := .next (tapDrive s 3)
def execHighz (s : State) : Out := .next (tapDrive s 4)
/-- BYPASS (R470): code 0xFF and every code that names no other instruction. -/
def execBypass (s : State) : Out := .next (tapLoad s 0xFF false false)
def execDebugAccess (code : Fin 16) (act : DebugAct) (s : State) : Out := .next (debugAccess s code act)

end Sys2Proof.Machine
end

