-- ==== Sys2Proof/Machine/Tick.lean ====
section
/-! DEFINITION. What happens at a control-tick boundary (01_delivery_model.md, R32, R33) and at a management-tick boundary
(R35), and the two entries of the management core that the Ditch Rider hears of (18_background_services.md, R416, R422). -/
namespace Sys2Proof.Machine

/-- TFLTn is sampled once in the tick that ends (R168), and its states are counted (R122, R165, R174). -/
def endOfTick (s : State) (inp : TickInput) : State :=
  let s := s.each (List.range 16) fun s r =>
    let s := auxCount (countTickStates s r) r
    s.when (s.bit .burstTick r) (·.raise .telBurst r)
  s.each (List.range 16) fun s c => tfltSample s c (inp.tflt.getLsbD c)

/-- TICK counts (R34), and the writes of the tick that has ended take effect, the last one to a field standing (R33). -/
def tickWrites (s : State) : State :=
  let wrote := comparesWritten s
  let s := s.put .tick (unsigned 64 (s.now + 1))
  let s := s.each s.writes fun s w => s.put w.key.fld w.val w.key.i w.key.j
  compareBoundary { s with writes := [] } wrote

/-- Every rail's state, reference and PGOOD counts at the boundary (R23, R31, R75, R84). -/
def railStage (s : State) : State :=
  let s := s.each (List.range 16) bankBoundary
  let s := s.each (List.range 16) pgoodCount
  let s := railBoundary s s.now
  let s := s.each (List.range 16) fun s r => voltageReached (refMove s r) r
  let s := freeStopped (s.each (List.range 16) laneGate)
  let s := s.each (List.range 8) laneBoundary
  freeWaiting s fun d k => !s.bit .LN_CTRL_FFEN (slotRail s d k)

/-- Isolation, retirement, Sluice, weirs and Spillway at the boundary (R33, R94, R110, R115, R160, R173, R179, R188). -/
def outputStage (s : State) : State :=
  let s := s.each (List.range 16) isolateCluster
  let s := abandonSteps (retireBoundary s)
  let s := s.each (List.range 16) csubBoundary
  let s := s.each (List.range 16) sluiceBoundary
  let s := (declaredBoundary s).each (List.range 184) weirBoundary
  let s := s.each (List.range 16) fun s r => refreshSpill (allOffBoundary s r) r (tickStep s)
  let s := s.each (List.range 16) insertStage
  let s := s.each (List.range 128) looseStage
  s.each (List.range 16) fun s r => s.put .forced (bit01 (spillForces s r)) r

/-- The F3 of the tick that ends: the forecasts and the loop lanes run, and the saturation of the run is counted (R66, R73, R78, R146,
R171 code 13). -/
def lateStage (s : State) : State :=
  let s := (forecastRun s).each (List.range 16) laneTick
  s.each (List.range 16) lsatCount

/-- What a boundary computes from the window (R16, R121, R148, R171, R181, R187), and the posts that complete there (R143). -/
def computeStage (s : State) : State :=
  let s := (totalsUpdate s).each (List.range 16) rocCount
  let s := s.each (List.range 16) loadEstimate
  postStage (s.each (List.range 16) fun s r => stressAccumulate (shedEvaluate (burstCount s r) r) r)

/-- The recorder, the distributor's stranding times, the commitments and the watchdog of the tick (R19, R326, R361, R441). -/
def serviceStage (s : State) : State :=
  let s := (recorderTick s).each (List.range 254) strandTick
  watchdogTick (pruneCommits s)

/-- The boundary after GO programs the fabric (R400), and the outputs follow. -/
def programStage (s : State) : State :=
  if s.bit .goDue then (goBoundary s).each (List.range 16) programRail else s

/-- The enables at the boundary (R472). -/
def noteEnables (s : State) : State := s.each (List.range 16) fun s r => s.put .enWas (bit01 (enabled s r)) r

/-- The pins ENn are sampled once in the tick that ends (R26). -/
def sampleEnables (s : State) (inp : TickInput) : State :=
  s.when (s.bit .fabricOn) fun s => s.each (List.range 16) fun s r => enSample s r (inp.en.getLsbD r)

/-- CONTROL_TICK (R32, R33): TICK counts from PORST# release on (R4). In STANDBY only TICK, the writes, the compares, the filters of
ENn and the weirs go on (R444, R446), and in DEEP SLEEP nothing (R445). What the F3 of the ending tick publishes starts together, and
so does what the boundary publishes (R8, R197). -/
def controlTick (s : State) (inp : TickInput) : State :=
  if s.get .sleepMode == 2 || !s.bit .started then s
  else if s.bit .sleepMode then noteEnables ((tickWrites (sampleEnables s inp)).each (List.range 184) weirBoundary)
  else
    let n := s.now
    let s := together s fun s => flumeTick (judgeFaults (endOfTick (sampleEnables (lateStage s) inp) inp)) inp n
    together (tickWrites s) fun s => noteEnables (programStage (serviceStage (computeStage (outputStage (railStage s)))))

/-- The single-bit errors that have arisen since the last management tick: where they do is left open (log entry 66). -/
def softErrors (s : State) : State :=
  let (n, s) := s.fresh
  let (m, u) := Config.strikes n
  { s with soft := s.soft ++ m.filter (!s.soft.contains ·), softUc := s.softUc ++ u.filter (!s.softUc.contains ·) }

/-- MANAGEMENT_TICK_BOUNDARY (R35): the count, the budgets, the ranks and the summary, then the Ditch Rider's round. -/
def managementTick (s : State) : State :=
  if !mtickDue s then s
  else
    let s := (s.put .mtAt s.now).put .DM_MTICK (unsigned 32 (s.get .DM_MTICK + 1))
    let s := hwPublish s 90
    let s := s.each (List.range 16) fun s r =>
      let s := s.clear .LN_BUSED r
      if railState s r == stREG then s.bump .regMt 0xFFFF r else s.clear .regMt r
    let s := (stressRank s).each (List.range 16) noidBoundary
    ditchRound (automaticRotation (summaryAssemble (softErrors s)))

/-- EVI source `i` carries the match of the sampling timer (R416). -/
def samplingSource (s : State) (i : Nat) : Bool :=
  let u := s.nat .sampleTimer
  s.bit .CT_CFG_OUTEN u && s.bit .EV_TOCFG_EN (112 + i) && s.get .EV_TOCFG_CH (112 + i) == s.get .CT_CFG_OUTCH u

/-- An interrupt entry; at a sampling interrupt of the management core the Ditch Rider takes its sample (R319, R416). -/
def entryOf (s : State) (k : Nat) : State :=
  let t := interruptEntry s k
  let sampled := (List.range 32).any fun i =>
    t.bit .IR_SRCST_ACT i && !s.bit .IR_SRCST_ACT i && t.get .irOwner i == 5 && samplingSource s i
  if k = 5 && sampled && ditchRuns s then telemetrySample t else t

/-- The end of a WAITU; those that pace a capture of the Ditch Rider write the setpoint (R266, R422). -/
def waituEnd (s : State) (k : Nat) : State :=
  let t := waituDone s k
  if k = 5 && ditchRuns s then idStep t else t

def execControlTick (inp : TickInput) (s : State) : Out := .next (controlTick s inp)
def execManagementTickBoundary (s : State) : Out := .next (managementTick s)
def execInterruptEntry (k : CoreId) (s : State) : Out := .next (entryOf s k)
def execWaituDone (k : CoreId) (s : State) : Out := .next (waituEnd s k)

end Sys2Proof.Machine
end

