-- ==== Sys2Proof/Machine/Dispatch.lean ====
section
/-! DEFINITION. The dispatch: one arm per command, each ONE direct call of the command's meaning. -/
namespace Sys2Proof.Machine

/-- The effect of a command on everything but the queue. -/
def exec (i : Instr) (s : State) : Host.Outcome State Fault Refusal :=
  match i with
  | .controlTick inp => Sys2Proof.Machine.execControlTick inp s
  | .managementTickBoundary => Sys2Proof.Machine.execManagementTickBoundary s
  | .registerWrite by_ a v => Sys2Proof.Machine.execRegisterWrite by_ a v s
  | .holdingLowWrite by_ a v => Sys2Proof.Machine.execHoldingLowWrite by_ a v s
  | .holdingHighWrite by_ a v => Sys2Proof.Machine.execHoldingHighWrite by_ a v s
  | .latchingRead by_ a => Sys2Proof.Machine.execLatchingRead by_ a s
  | .tickRead by_ => Sys2Proof.Machine.execTickRead by_ s
  | .reductionRead by_ ch => Sys2Proof.Machine.execReductionRead by_ ch s
  | .jtagDebugRead a => Sys2Proof.Machine.execJtagDebugRead a s
  | .rcRead by_ a => Sys2Proof.Machine.execRcRead by_ a s
  | .fclr r => Sys2Proof.Machine.execFclr r s
  | .rsreq r => Sys2Proof.Machine.execRsreq r s
  | .startTimeout r => Sys2Proof.Machine.execStartTimeout r s
  | .stopDelayExpiry r => Sys2Proof.Machine.execStopDelayExpiry r s
  | .startDelayExpiry r => Sys2Proof.Machine.execStartDelayExpiry r s
  | .offDwellExpiry r => Sys2Proof.Machine.execOffDwellExpiry r s
  | .enFilterAccept r => Sys2Proof.Machine.execEnFilterAccept r s
  | .enStuckTimeout r => Sys2Proof.Machine.execEnStuckTimeout r s
  | .pgoodAssert r => Sys2Proof.Machine.execPgoodAssert r s
  | .pgoodDeassert r => Sys2Proof.Machine.execPgoodDeassert r s
  | .domainExcess d => Sys2Proof.Machine.execDomainExcess d s
  | .deviceExcess => Sys2Proof.Machine.execDeviceExcess s
  | .auxResult a codes => Sys2Proof.Machine.execAuxResult a codes s
  | .tempSample c raw => Sys2Proof.Machine.execTempSample c raw s
  | .channelStuck ch => Sys2Proof.Machine.execChannelStuck ch s
  | .voltageOpenTest r codes => Sys2Proof.Machine.execVoltageOpenTest r codes s
  | .currentInjectionTest p codes => Sys2Proof.Machine.execCurrentInjectionTest p codes s
  | .rippleWindowEnd => Sys2Proof.Machine.execRippleWindowEnd s
  | .rotationStep g => Sys2Proof.Machine.execRotationStep g s
  | .calibrationDone g good => Sys2Proof.Machine.execCalibrationDone g good s
  | .handover g => Sys2Proof.Machine.execHandover g s
  | .converterSubstitution ch => Sys2Proof.Machine.execConverterSubstitution ch s
  | .declareConverterFailed idx kind => Sys2Proof.Machine.execDeclareConverterFailed idx kind s
  | .flumeStartupCal slices convs => Sys2Proof.Machine.execFlumeStartupCal slices convs s
  | .setpointWrite r v => Sys2Proof.Machine.execSetpointWrite r v s
  | .commit r => Sys2Proof.Machine.execCommit r s
  | .copy r => Sys2Proof.Machine.execCopy r s
  | .timebaseWrap r => Sys2Proof.Machine.execTimebaseWrap r s
  | .carrierStart p => Sys2Proof.Machine.execCarrierStart p s
  | .scheduledEdge p => Sys2Proof.Machine.execScheduledEdge p s
  | .peakCompare p raw prev at_ => Sys2Proof.Machine.execPeakCompare p raw prev at_ s
  | .valleyCompare p raw prev at_ => Sys2Proof.Machine.execValleyCompare p raw prev at_ s
  | .zeroCrossing p raw prev at_ => Sys2Proof.Machine.execZeroCrossing p raw prev at_ s
  | .syncinEdge at_ width => Sys2Proof.Machine.execSyncinEdge at_ width s
  | .syncLoss => Sys2Proof.Machine.execSyncLoss s
  | .pulseInsert p => Sys2Proof.Machine.execPulseInsert p s
  | .railPulseInsert r => Sys2Proof.Machine.execRailPulseInsert r s
  | .phaseAdd r slots => Sys2Proof.Machine.execPhaseAdd r slots s
  | .phaseDrop r slots => Sys2Proof.Machine.execPhaseDrop r slots s
  | .dropHoldEnd p => Sys2Proof.Machine.execDropHoldEnd p s
  | .readbackCheck p level => Sys2Proof.Machine.execReadbackCheck p level s
  | .declareGeneratorFailed c k => Sys2Proof.Machine.execDeclareGeneratorFailed c k s
  | .interpolatorSelftest failed => Sys2Proof.Machine.execInterpolatorSelftest failed s
  | .weirCrossing w nv at_ => Sys2Proof.Machine.execWeirCrossing w nv at_ s
  | .burstPhaseExit p raw prev at_ => Sys2Proof.Machine.execBurstPhaseExit p raw prev at_ s
  | .burstLengthExpiry r => Sys2Proof.Machine.execBurstLengthExpiry r s
  | .burstBudgetExhausted r => Sys2Proof.Machine.execBurstBudgetExhausted r s
  | .allOffLengthExpiry r => Sys2Proof.Machine.execAllOffLengthExpiry r s
  | .weirEnable w => Sys2Proof.Machine.execWeirEnable w s
  | .weirSettleEnd w nv => Sys2Proof.Machine.execWeirSettleEnd w nv s
  | .weirFallbackCompare w nv => Sys2Proof.Machine.execWeirFallbackCompare w nv s
  | .ovPersistence r => Sys2Proof.Machine.execOvPersistence r s
  | .uvPersistence r => Sys2Proof.Machine.execUvPersistence r s
  | .rocPersistence r => Sys2Proof.Machine.execRocPersistence r s
  | .phaseOcCount p => Sys2Proof.Machine.execPhaseOcCount p s
  | .loopSaturation r => Sys2Proof.Machine.execLoopSaturation r s
  | .tfltActive c => Sys2Proof.Machine.execTfltActive c s
  | .tfltInactive c => Sys2Proof.Machine.execTfltInactive c s
  | .tfltChatter c => Sys2Proof.Machine.execTfltChatter c s
  | .tfltStuck c => Sys2Proof.Machine.execTfltStuck c s
  | .retryExpiry r => Sys2Proof.Machine.execRetryExpiry r s
  | .auxFaultClear r => Sys2Proof.Machine.execAuxFaultClear r s
  | .retryRestore r => Sys2Proof.Machine.execRetryRestore r s
  | .weirSubstitution w => Sys2Proof.Machine.execWeirSubstitution w s
  | .declareWeirFailed w => Sys2Proof.Machine.execDeclareWeirFailed w s
  | .weirSelftest failed => Sys2Proof.Machine.execWeirSelftest failed s
  | .shedDwellExpiry r => Sys2Proof.Machine.execShedDwellExpiry r s
  | .countLock => Sys2Proof.Machine.execCountLock s
  | .snap => Sys2Proof.Machine.execSnap s
  | .summaryDone => Sys2Proof.Machine.execSummaryDone s
  | .retire p rcin => Sys2Proof.Machine.execRetire p rcin s
  | .unret p => Sys2Proof.Machine.execUnret p s
  | .probeWaitEnd c => Sys2Proof.Machine.execProbeWaitEnd c s
  | .probeWatchEnd c => Sys2Proof.Machine.execProbeWatchEnd c s
  | .evPub k ch => Sys2Proof.Machine.execEvPub k ch s
  | .evProxypub k ch => Sys2Proof.Machine.execEvProxypub k ch s
  | .evUpub k ch => Sys2Proof.Machine.execEvUpub k ch s
  | .turnoutDelivery t more sub => Sys2Proof.Machine.execTurnoutDelivery t more sub s
  | .stormRearm ch => Sys2Proof.Machine.execStormRearm ch s
  | .channelLock ch => Sys2Proof.Machine.execChannelLock ch s
  | .turnoutConfig k t ch en => Sys2Proof.Machine.execTurnoutConfig k t ch en s
  | .capture u sub => Sys2Proof.Machine.execCapture u sub s
  | .captureRelease u => Sys2Proof.Machine.execCaptureRelease u s
  | .compareStart u => Sys2Proof.Machine.execCompareStart u s
  | .compareMatch u => Sys2Proof.Machine.execCompareMatch u s
  | .pairedWord k w => Sys2Proof.Machine.execPairedWord k w s
  | .nop k => Sys2Proof.Machine.execNop k s
  | .bar k => Sys2Proof.Machine.execBar k s
  | .fencei k => Sys2Proof.Machine.execFencei k s
  | .wfe k => Sys2Proof.Machine.execWfe k s
  | .wfeWake k => Sys2Proof.Machine.execWfeWake k s
  | .gret k => Sys2Proof.Machine.execGret k s
  | .reti k => Sys2Proof.Machine.execReti k s
  | .halt k => Sys2Proof.Machine.execHalt k s
  | .sev k ch => Sys2Proof.Machine.execSev k ch s
  | .sevReg k n => Sys2Proof.Machine.execSevReg k n s
  | .waitu k n => Sys2Proof.Machine.execWaitu k n s
  | .waituDone k => Sys2Proof.Machine.execWaituDone k s
  | .trap k n => Sys2Proof.Machine.execTrap k n s
  | .gate k g => Sys2Proof.Machine.execGate k g s
  | .mov k d r => Sys2Proof.Machine.execMov k d r s
  | .add k d r => Sys2Proof.Machine.execAdd k d r s
  | .adc k d r => Sys2Proof.Machine.execAdc k d r s
  | .sub k d r => Sys2Proof.Machine.execSub k d r s
  | .sbc k d r => Sys2Proof.Machine.execSbc k d r s
  | .andReg k d r => Sys2Proof.Machine.execAndReg k d r s
  | .orReg k d r => Sys2Proof.Machine.execOrReg k d r s
  | .xorReg k d r => Sys2Proof.Machine.execXorReg k d r s
  | .cmp k d r => Sys2Proof.Machine.execCmp k d r s
  | .tst k d r => Sys2Proof.Machine.execTst k d r s
  | .adds k d r => Sys2Proof.Machine.execAdds k d r s
  | .subs k d r => Sys2Proof.Machine.execSubs k d r s
  | .neg k d r => Sys2Proof.Machine.execNeg k d r s
  | .notReg k d r => Sys2Proof.Machine.execNotReg k d r s
  | .abs k d r => Sys2Proof.Machine.execAbs k d r s
  | .minReg k d r => Sys2Proof.Machine.execMinReg k d r s
  | .maxReg k d r => Sys2Proof.Machine.execMaxReg k d r s
  | .minu k d r => Sys2Proof.Machine.execMinu k d r s
  | .maxu k d r => Sys2Proof.Machine.execMaxu k d r s
  | .swapb k d r => Sys2Proof.Machine.execSwapb k d r s
  | .mfs k d x => Sys2Proof.Machine.execMfs k d x s
  | .mts k x d => Sys2Proof.Machine.execMts k x d s
  | .mfa k d y => Sys2Proof.Machine.execMfa k d y s
  | .mta k y d => Sys2Proof.Machine.execMta k y d s
  | .movq k d u => Sys2Proof.Machine.execMovq k d u s
  | .addq k d u => Sys2Proof.Machine.execAddq k d u s
  | .subq k d u => Sys2Proof.Machine.execSubq k d u s
  | .cmpq k d u => Sys2Proof.Machine.execCmpq k d u s
  | .movn k d u => Sys2Proof.Machine.execMovn k d u s
  | .addsq k d u => Sys2Proof.Machine.execAddsq k d u s
  | .subsq k d u => Sys2Proof.Machine.execSubsq k d u s
  | .movImm k d v => Sys2Proof.Machine.execMovImm k d v s
  | .addImm k d v => Sys2Proof.Machine.execAddImm k d v s
  | .adcImm k d v => Sys2Proof.Machine.execAdcImm k d v s
  | .subImm k d v => Sys2Proof.Machine.execSubImm k d v s
  | .sbcImm k d v => Sys2Proof.Machine.execSbcImm k d v s
  | .andImm k d v => Sys2Proof.Machine.execAndImm k d v s
  | .orImm k d v => Sys2Proof.Machine.execOrImm k d v s
  | .xorImm k d v => Sys2Proof.Machine.execXorImm k d v s
  | .cmpImm k d v => Sys2Proof.Machine.execCmpImm k d v s
  | .tstImm k d v => Sys2Proof.Machine.execTstImm k d v s
  | .addsImm k d v => Sys2Proof.Machine.execAddsImm k d v s
  | .subsImm k d v => Sys2Proof.Machine.execSubsImm k d v s
  | .minImm k d v => Sys2Proof.Machine.execMinImm k d v s
  | .maxImm k d v => Sys2Proof.Machine.execMaxImm k d v s
  | .minuImm k d v => Sys2Proof.Machine.execMinuImm k d v s
  | .maxuImm k d v => Sys2Proof.Machine.execMaxuImm k d v s
  | .asr k d n => Sys2Proof.Machine.execAsr k d n s
  | .asrReg k d r => Sys2Proof.Machine.execAsrReg k d r s
  | .lsr k d n => Sys2Proof.Machine.execLsr k d n s
  | .lsrReg k d r => Sys2Proof.Machine.execLsrReg k d r s
  | .shl k d n => Sys2Proof.Machine.execShl k d n s
  | .shlReg k d r => Sys2Proof.Machine.execShlReg k d r s
  | .ror k d n => Sys2Proof.Machine.execRor k d n s
  | .rorReg k d r => Sys2Proof.Machine.execRorReg k d r s
  | .rol k d n => Sys2Proof.Machine.execRol k d n s
  | .rolReg k d r => Sys2Proof.Machine.execRolReg k d r s
  | .bset k d b => Sys2Proof.Machine.execBset k d b s
  | .bclr k d b => Sys2Proof.Machine.execBclr k d b s
  | .btgl k d b => Sys2Proof.Machine.execBtgl k d b s
  | .btst k d b => Sys2Proof.Machine.execBtst k d b s
  | .clz k d r => Sys2Proof.Machine.execClz k d r s
  | .shls k d n => Sys2Proof.Machine.execShls k d n s
  | .mpy k a x y => Sys2Proof.Machine.execMpy k a x y s
  | .mpyu k a x y => Sys2Proof.Machine.execMpyu k a x y s
  | .mpysu k a x y => Sys2Proof.Machine.execMpysu k a x y s
  | .mac k a x y => Sys2Proof.Machine.execMac k a x y s
  | .msu k a x y => Sys2Proof.Machine.execMsu k a x y s
  | .macs k a x y => Sys2Proof.Machine.execMacs k a x y s
  | .mpyf k a x y => Sys2Proof.Machine.execMpyf k a x y s
  | .macf k a x y => Sys2Proof.Machine.execMacf k a x y s
  | .macl k a x z => Sys2Proof.Machine.execMacl k a x z s
  | .mpyl k a x z => Sys2Proof.Machine.execMpyl k a x z s
  | .msul k a x z => Sys2Proof.Machine.execMsul k a x z s
  | .clra k a => Sys2Proof.Machine.execClra k a s
  | .nega k a => Sys2Proof.Machine.execNega k a s
  | .rnda k a => Sys2Proof.Machine.execRnda k a s
  | .sat32 k a => Sys2Proof.Machine.execSat32 k a s
  | .mova k a => Sys2Proof.Machine.execMova k a s
  | .adda k a => Sys2Proof.Machine.execAdda k a s
  | .suba k a => Sys2Proof.Machine.execSuba k a s
  | .asra k a n => Sys2Proof.Machine.execAsra k a n s
  | .shla k a n => Sys2Proof.Machine.execShla k a n s
  | .stsat k d a => Sys2Proof.Machine.execStsat k d a s
  | .divs k q r n => Sys2Proof.Machine.execDivs k q r n s
  | .divu k q r n => Sys2Proof.Machine.execDivu k q r n s
  | .longOpRetire k div => Sys2Proof.Machine.execLongOpRetire k div s
  | .ld k d m => Sys2Proof.Machine.execLd k d m s
  | .st k d m => Sys2Proof.Machine.execSt k d m s
  | .ldDpair k n m => Sys2Proof.Machine.execLdDpair k n m s
  | .stDpair k n m => Sys2Proof.Machine.execStDpair k n m s
  | .ldPreg k n m => Sys2Proof.Machine.execLdPreg k n m s
  | .stPreg k n m => Sys2Proof.Machine.execStPreg k n m s
  | .ldAcc k n m => Sys2Proof.Machine.execLdAcc k n m s
  | .stAcc k n m => Sys2Proof.Machine.execStAcc k n m s
  | .storeBufferDrain k => Sys2Proof.Machine.execStoreBufferDrain k s
  | .movp k n v => Sys2Proof.Machine.execMovp k n v s
  | .movph k n v => Sys2Proof.Machine.execMovph k n v s
  | .addp k n o => Sys2Proof.Machine.execAddp k n o s
  | .addpS5 k n o => Sys2Proof.Machine.execAddpS5 k n o s
  | .movpP k n m => Sys2Proof.Machine.execMovpP k n m s
  | .addpD k n d => Sys2Proof.Machine.execAddpD k n d s
  | .movpD k n d => Sys2Proof.Machine.execMovpD k n d s
  | .cmpp k n m => Sys2Proof.Machine.execCmpp k n m s
  | .movDp k d n => Sys2Proof.Machine.execMovDp k d n s
  | .movdh k d n => Sys2Proof.Machine.execMovdh k d n s
  | .movphD k n d => Sys2Proof.Machine.execMovphD k n d s
  | .lea k n o => Sys2Proof.Machine.execLea k n o s
  | .bcc k c o => Sys2Proof.Machine.execBcc k c o s
  | .bccL k c o => Sys2Proof.Machine.execBccL k c o s
  | .bra k o => Sys2Proof.Machine.execBra k o s
  | .jmp k a => Sys2Proof.Machine.execJmp k a s
  | .jmpInd k n => Sys2Proof.Machine.execJmpInd k n s
  | .call k a => Sys2Proof.Machine.execCall k a s
  | .callInd k n => Sys2Proof.Machine.execCallInd k n s
  | .ret k => Sys2Proof.Machine.execRet k s
  | .rep k n ok => Sys2Proof.Machine.execRep k n ok s
  | .loop k n len => Sys2Proof.Machine.execLoop k n len s
  | .movb k pd ps c => Sys2Proof.Machine.execMovb k pd ps c s
  | .filb k pd v c => Sys2Proof.Machine.execFilb k pd v c s
  | .crcb k ps a c w => Sys2Proof.Machine.execCrcb k ps a c w s
  | .customInstruction k e op => Sys2Proof.Machine.execCustomInstruction k e op s
  | .ldpt k n lvl m => Sys2Proof.Machine.execLdpt k n lvl m s
  | .tlbwr k n sz => Sys2Proof.Machine.execTlbwr k n sz s
  | .tlbinvAll k => Sys2Proof.Machine.execTlbinvAll k s
  | .tlbinvAsid k n => Sys2Proof.Machine.execTlbinvAsid k n s
  | .tlbinvVa k n => Sys2Proof.Machine.execTlbinvVa k n s
  | .tlbop by_ rd wr => Sys2Proof.Machine.execTlbop by_ rd wr s
  | .asidWrite by_ asid flush => Sys2Proof.Machine.execAsidWrite by_ asid flush s
  | .xcLock by_ k => Sys2Proof.Machine.execXcLock by_ k s
  | .microwordWrite by_ m w => Sys2Proof.Machine.execMicrowordWrite by_ m w s
  | .decodeEntryWrite by_ e v => Sys2Proof.Machine.execDecodeEntryWrite by_ e v s
  | .decodeEntryTaken k => Sys2Proof.Machine.execDecodeEntryTaken k s
  | .vlock by_ => Sys2Proof.Machine.execVlock by_ s
  | .interruptAssert n => Sys2Proof.Machine.execInterruptAssert n s
  | .spend k n => Sys2Proof.Machine.execSpend k n s
  | .clr k n => Sys2Proof.Machine.execClr k n s
  | .retarget k n t => Sys2Proof.Machine.execRetarget k n t s
  | .interruptEntry k => Sys2Proof.Machine.execInterruptEntry k s
  | .rateLimitWindowEnd n => Sys2Proof.Machine.execRateLimitWindowEnd n s
  | .strandTimeout n => Sys2Proof.Machine.execStrandTimeout n s
  | .mismatchFreeze k g => Sys2Proof.Machine.execMismatchFreeze k g s
  | .lbistDone k primary checker => Sys2Proof.Machine.execLbistDone k primary checker s
  | .takeoverRelease k => Sys2Proof.Machine.execTakeoverRelease k s
  | .done k => Sys2Proof.Machine.execDone k s
  | .debugHalt k => Sys2Proof.Machine.execDebugHalt k s
  | .rowRepair m row => Sys2Proof.Machine.execRowRepair m row s
  | .rowRepairDone m bad => Sys2Proof.Machine.execRowRepairDone m bad s
  | .trainingDone good => Sys2Proof.Machine.execTrainingDone good s
  | .refresh => Sys2Proof.Machine.execRefresh s
  | .zqcs => Sys2Proof.Machine.execZqcs s
  | .pageRetire a unc => Sys2Proof.Machine.execPageRetire a unc s
  | .pageRetireDone bad => Sys2Proof.Machine.execPageRetireDone bad s
  | .retadd pg => Sys2Proof.Machine.execRetadd pg s
  | .ddrLock => Sys2Proof.Machine.execDdrLock s
  | .dmaTrigger by_ c => Sys2Proof.Machine.execDmaTrigger by_ c s
  | .dmaWord c => Sys2Proof.Machine.execDmaWord c s
  | .dmaDescriptor c => Sys2Proof.Machine.execDmaDescriptor c s
  | .dmaRetry c => Sys2Proof.Machine.execDmaRetry c s
  | .resume by_ c => Sys2Proof.Machine.execResume by_ c s
  | .abort by_ c => Sys2Proof.Machine.execAbort by_ c s
  | .recordWrite => Sys2Proof.Machine.execRecordWrite s
  | .ringFrozen => Sys2Proof.Machine.execRingFrozen s
  | .frznow => Sys2Proof.Machine.execFrznow s
  | .rcResume => Sys2Proof.Machine.execRcResume s
  | .stgarm => Sys2Proof.Machine.execStgarm s
  | .trig => Sys2Proof.Machine.execTrig s
  | .stagingWindowDone => Sys2Proof.Machine.execStagingWindowDone s
  | .msggo by_ k => Sys2Proof.Machine.execMsggo by_ k s
  | .blockLockGained d => Sys2Proof.Machine.execBlockLockGained d s
  | .blockLockLost d => Sys2Proof.Machine.execBlockLockLost d s
  | .laneEnable d => Sys2Proof.Machine.execLaneEnable d s
  | .hello d f => Sys2Proof.Machine.execHello d f s
  | .forecast d f ago cyc => Sys2Proof.Machine.execForecast d f ago cyc s
  | .grantRequest d f ago cyc => Sys2Proof.Machine.execGrantRequest d f ago cyc s
  | .forecastCancel d f => Sys2Proof.Machine.execForecastCancel d f s
  | .activity d f => Sys2Proof.Machine.execActivity d f s
  | .setreq d f => Sys2Proof.Machine.execSetreq d f s
  | .flitCrcError d f => Sys2Proof.Machine.execFlitCrcError d f s
  | .reservedFlit d f => Sys2Proof.Machine.execReservedFlit d f s
  | .keepaliveTimeout d => Sys2Proof.Machine.execKeepaliveTimeout d s
  | .helloTransmit d => Sys2Proof.Machine.execHelloTransmit d s
  | .telemTransmit d => Sys2Proof.Machine.execTelemTransmit d s
  | .flitTransmit d => Sys2Proof.Machine.execFlitTransmit d s
  | .rampStart d k => Sys2Proof.Machine.execRampStart d k s
  | .holdStart d k => Sys2Proof.Machine.execHoldStart d k s
  | .forecastMet d k => Sys2Proof.Machine.execForecastMet d k s
  | .forecastMissed d k => Sys2Proof.Machine.execForecastMissed d k s
  | .unwindDone d k => Sys2Proof.Machine.execUnwindDone d k s
  | .grantTimeout d k => Sys2Proof.Machine.execGrantTimeout d k s
  | .grant d amt => Sys2Proof.Machine.execGrant d amt s
  | .openPort tag epoch => Sys2Proof.Machine.execOpenPort tag epoch s
  | .hgAbort tag t => Sys2Proof.Machine.execHgAbort tag t s
  | .tagQuietEnd t => Sys2Proof.Machine.execTagQuietEnd t s
  | .getTelem => Sys2Proof.Machine.execGetTelem s
  | .getStatus => Sys2Proof.Machine.execGetStatus s
  | .setVout => Sys2Proof.Machine.execSetVout s
  | .setEnable => Sys2Proof.Machine.execSetEnable s
  | .clearFault => Sys2Proof.Machine.execClearFault s
  | .setSlew => Sys2Proof.Machine.execSetSlew s
  | .setLimitIlim => Sys2Proof.Machine.execSetLimitIlim s
  | .setLimitIallot => Sys2Proof.Machine.execSetLimitIallot s
  | .setLimitPallot => Sys2Proof.Machine.execSetLimitPallot s
  | .recRead => Sys2Proof.Machine.execRecRead s
  | .recCtrlFrznow => Sys2Proof.Machine.execRecCtrlFrznow s
  | .recCtrlResume => Sys2Proof.Machine.execRecCtrlResume s
  | .recCtrlStgarm => Sys2Proof.Machine.execRecCtrlStgarm s
  | .recCtrlTrig => Sys2Proof.Machine.execRecCtrlTrig s
  | .stgRead => Sys2Proof.Machine.execStgRead s
  | .event => Sys2Proof.Machine.execEvent s
  | .execTimeout p => Sys2Proof.Machine.execExecTimeout p s
  | .take => Sys2Proof.Machine.execTake s
  | .hgDone => Sys2Proof.Machine.execHgDone s
  | .prst p => Sys2Proof.Machine.execPrst p s
  | .mspiWrite l => Sys2Proof.Machine.execMspiWrite l s
  | .mspiRead whole => Sys2Proof.Machine.execMspiRead whole s
  | .mspiStat => Sys2Proof.Machine.execMspiStat s
  | .frameTimeout => Sys2Proof.Machine.execFrameTimeout s
  | .smbusTimeout => Sys2Proof.Machine.execSmbusTimeout s
  | .pmbPage a => Sys2Proof.Machine.execPmbPage a s
  | .operationOff a => Sys2Proof.Machine.execOperationOff a s
  | .operationOn a => Sys2Proof.Machine.execOperationOn a s
  | .operationMarginLow a => Sys2Proof.Machine.execOperationMarginLow a s
  | .operationMarginHigh a => Sys2Proof.Machine.execOperationMarginHigh a s
  | .onOffConfig a => Sys2Proof.Machine.execOnOffConfig a s
  | .clearFaults pec => Sys2Proof.Machine.execClearFaults pec s
  | .pmbPhase a => Sys2Proof.Machine.execPmbPhase a s
  | .writeProtect a => Sys2Proof.Machine.execWriteProtect a s
  | .capability => Sys2Proof.Machine.execCapability s
  | .voutMode => Sys2Proof.Machine.execVoutMode s
  | .voutCommand a => Sys2Proof.Machine.execVoutCommand a s
  | .voutMax => Sys2Proof.Machine.execVoutMax s
  | .voutMarginHigh a => Sys2Proof.Machine.execVoutMarginHigh a s
  | .voutMarginLow a => Sys2Proof.Machine.execVoutMarginLow a s
  | .voutTransitionRate a => Sys2Proof.Machine.execVoutTransitionRate a s
  | .coefficients code => Sys2Proof.Machine.execCoefficients code s
  | .ioutOcFaultLimit a => Sys2Proof.Machine.execIoutOcFaultLimit a s
  | .statusByte => Sys2Proof.Machine.execStatusByte s
  | .statusWord => Sys2Proof.Machine.execStatusWord s
  | .statusVout => Sys2Proof.Machine.execStatusVout s
  | .statusIout => Sys2Proof.Machine.execStatusIout s
  | .statusInput => Sys2Proof.Machine.execStatusInput s
  | .statusTemperature => Sys2Proof.Machine.execStatusTemperature s
  | .statusCml => Sys2Proof.Machine.execStatusCml s
  | .statusMfrSpecific => Sys2Proof.Machine.execStatusMfrSpecific s
  | .readVin => Sys2Proof.Machine.execReadVin s
  | .readVout => Sys2Proof.Machine.execReadVout s
  | .readIout => Sys2Proof.Machine.execReadIout s
  | .readTemperature1 => Sys2Proof.Machine.execReadTemperature1 s
  | .readPout => Sys2Proof.Machine.execReadPout s
  | .pmbusRevision => Sys2Proof.Machine.execPmbusRevision s
  | .mfrId => Sys2Proof.Machine.execMfrId s
  | .mfrModel => Sys2Proof.Machine.execMfrModel s
  | .mfrHgLast => Sys2Proof.Machine.execMfrHgLast s
  | .alertResponse => Sys2Proof.Machine.execAlertResponse s
  | .pmbCtrlChange level => Sys2Proof.Machine.execPmbCtrlChange level s
  | .avsVoltageWrite p sel hold mv => Sys2Proof.Machine.execAvsVoltageWrite p sel hold mv s
  | .avsVoltageRead p sel => Sys2Proof.Machine.execAvsVoltageRead p sel s
  | .avsVouttransrateWrite p sel hold rise fall => Sys2Proof.Machine.execAvsVouttransrateWrite p sel hold rise fall s
  | .avsVouttransrateRead p sel => Sys2Proof.Machine.execAvsVouttransrateRead p sel s
  | .avsCurrent p sel => Sys2Proof.Machine.execAvsCurrent p sel s
  | .avsTemperature p sel => Sys2Proof.Machine.execAvsTemperature p sel s
  | .avsResetvoltage p sel hold => Sys2Proof.Machine.execAvsResetvoltage p sel hold s
  | .avsStatusRead p sel => Sys2Proof.Machine.execAvsStatusRead p sel s
  | .avsStatusWrite p sel one => Sys2Proof.Machine.execAvsStatusWrite p sel one s
  | .avsVersion p sel => Sys2Proof.Machine.execAvsVersion p sel s
  | .avsCommit p => Sys2Proof.Machine.execAvsCommit p s
  | .avsCrcError p => Sys2Proof.Machine.execAvsCrcError p s
  | .scrubGo => Sys2Proof.Machine.execScrubGo s
  | .scrubDone ce bad => Sys2Proof.Machine.execScrubDone ce bad s
  | .imgBegin => Sys2Proof.Machine.execImgBegin s
  | .imgWrite => Sys2Proof.Machine.execImgWrite s
  | .imgVerify => Sys2Proof.Machine.execImgVerify s
  | .imgActivate => Sys2Proof.Machine.execImgActivate s
  | .imgAccept failed => Sys2Proof.Machine.execImgAccept failed s
  | .imgStatus => Sys2Proof.Machine.execImgStatus s
  | .restructure => Sys2Proof.Machine.execRestructure s
  | .imSldata v => Sys2Proof.Machine.execImSldata v s
  | .imRsdone rails => Sys2Proof.Machine.execImRsdone rails s
  | .attest => Sys2Proof.Machine.execAttest s
  | .getIdentity => Sys2Proof.Machine.execGetIdentity s
  | .getChallenge => Sys2Proof.Machine.execGetChallenge s
  | .keyProgram => Sys2Proof.Machine.execKeyProgram s
  | .keyRevoke => Sys2Proof.Machine.execKeyRevoke s
  | .dbgLock => Sys2Proof.Machine.execDbgLock s
  | .imageVerified => Sys2Proof.Machine.execImageVerified s
  | .trialExpiry => Sys2Proof.Machine.execTrialExpiry s
  | .coldStart inp => Sys2Proof.Machine.execColdStart inp s
  | .warmStart times => Sys2Proof.Machine.execWarmStart times s
  | .go => Sys2Proof.Machine.execGo s
  | .pllLock p => Sys2Proof.Machine.execPllLock p s
  | .porst => Sys2Proof.Machine.execPorst s
  | .supplyReset n => Sys2Proof.Machine.execSupplyReset n s
  | .clockFailure => Sys2Proof.Machine.execClockFailure s
  | .ddrPllUnlock => Sys2Proof.Machine.execDdrPllUnlock s
  | .lanePllUnlock j => Sys2Proof.Machine.execLanePllUnlock j s
  | .mcrst => Sys2Proof.Machine.execMcrst s
  | .tickCoreRun k run => Sys2Proof.Machine.execTickCoreRun k run s
  | .tapReset => Sys2Proof.Machine.execTapReset s
  | .watchdogKick v => Sys2Proof.Machine.execWatchdogKick v s
  | .watchdogExpiry => Sys2Proof.Machine.execWatchdogExpiry s
  | .sleepRequest m => Sys2Proof.Machine.execSleepRequest m s
  | .sleepEntry => Sys2Proof.Machine.execSleepEntry s
  | .wake t => Sys2Proof.Machine.execWake t s
  | .resumeStart kept times => Sys2Proof.Machine.execResumeStart kept times s
  | .extest => Sys2Proof.Machine.execExtest s
  | .idcode => Sys2Proof.Machine.execIdcode s
  | .samplePreload cells => Sys2Proof.Machine.execSamplePreload cells s
  | .clamp => Sys2Proof.Machine.execClamp s
  | .highz => Sys2Proof.Machine.execHighz s
  | .bypass => Sys2Proof.Machine.execBypass s
  | .debugAccess code act => Sys2Proof.Machine.execDebugAccess code act s
  | .wakeFallingEdge => Sys2Proof.Machine.execWakeFallingEdge s
  | .pmbusUnsupportedCommand => Sys2Proof.Machine.execPmbusUnsupportedCommand s
  | .smbusMidByteStartStop => Sys2Proof.Machine.execSmbusMidByteStartStop s
  | .mspiOtherCommandByte => Sys2Proof.Machine.execMspiOtherCommandByte s
  | .avsUnsupportedDataType p => Sys2Proof.Machine.execAvsUnsupportedDataType p s
  | .signingDone => Sys2Proof.Machine.execSigningDone s
  | .flashBusyEnd => Sys2Proof.Machine.execFlashBusyEnd s

end Sys2Proof.Machine
end

