-- ==== Sys2Proof/Safety.lean ====
section
/-! DEFINITION. What counts as a safe state of the block, in the terms that statements use: both stores and the flash in
their one canonical form, so that equal contents are equal data; what counts as a safe run: one that never stops; and what
it means that a command leaves the rest of the state as it was. -/
namespace Sys2Proof

/-- The canonical forms hold (log entries 3 and 4). -/
def Machine.State.Canonical (s : Machine.State) : Prop :=
  Machine.regWf s.rf = true ∧ Machine.Memory.wf s.mem = true ∧ Machine.Memory.wf s.flash = true

/-- An outcome is a next state in which `P` holds. -/
def Machine.Leads (o : Machine.Out) (P : Machine.State → Prop) : Prop := ∃ t, o = .next t ∧ P t

/-- The parts of the state other than the queue: one for each register field (all its instances), and the lists. -/
inductive Machine.Part where
  /-- Every instance of a field. -/
  | fld (f : Machine.Fld)
  /-- The addressed memories. -/
  | mem
  /-- The field writes that wait for the next boundary. -/
  | writes
  /-- The events at turnouts. -/
  | arrivals
  /-- The bounds of the adjustable fields. -/
  | bounds
  /-- The interrupt sources assigned by the image. -/
  | irqLines
  /-- The accepted planned changes. -/
  | commits
  /-- The transmit queues of the demand lanes. -/
  | txFlits
  /-- The store buffers of the cores. -/
  | stores
  /-- The waiting imprecise traps. -/
  | traps
  /-- The write queue of the recorder. -/
  | recQueue
  /-- The queued headgate messages. -/
  | hgQueue
  /-- The headgate message taken. -/
  | hgTaken
  /-- The undelivered completions of the MSPI port. -/
  | hgCpl
  /-- The held AVSBus writes. -/
  | avsHeld
  /-- The bytes last sent to the host. -/
  | hostOut
  /-- The boot flash. -/
  | flash
  /-- The digests. -/
  | digests
  /-- The current challenge. -/
  | challenge
  /-- The key hashes of the customer slots. -/
  | keyHashes
  /-- The records that wait for the flash log. -/
  | logQueue
  /-- The stored words with a single-bit error. -/
  | soft
  /-- The microwords with a single-bit error. -/
  | softUc
  /-- The pages whose corrected errors are counted. -/
  | ceTrack
  /-- The room of the Ditch Rider's round. -/
  | drRoom
  /-- The model's counter of free values. -/
  | freeCtr
  deriving DecidableEq, Repr

/-- The states `s` and `t` differ in no part outside the set `may`, and their queues are equal. -/
structure Machine.State.SameBut (may : Machine.Part → Bool) (s t : Machine.State) : Prop where
  pending : t.pending = s.pending
  fld : ∀ f i j, may (.fld f) = false → t.get f i j = s.get f i j
  mem : may .mem = false → t.mem = s.mem
  writes : may .writes = false → t.writes = s.writes
  arrivals : may .arrivals = false → t.arrivals = s.arrivals
  bounds : may .bounds = false → t.bounds = s.bounds
  irqLines : may .irqLines = false → t.irqLines = s.irqLines
  commits : may .commits = false → t.commits = s.commits
  txFlits : may .txFlits = false → t.txFlits = s.txFlits
  stores : may .stores = false → t.stores = s.stores
  traps : may .traps = false → t.traps = s.traps
  recQueue : may .recQueue = false → t.recQueue = s.recQueue
  hgQueue : may .hgQueue = false → t.hgQueue = s.hgQueue
  hgTaken : may .hgTaken = false → t.hgTaken = s.hgTaken
  hgCpl : may .hgCpl = false → t.hgCpl = s.hgCpl
  avsHeld : may .avsHeld = false → t.avsHeld = s.avsHeld
  hostOut : may .hostOut = false → t.hostOut = s.hostOut
  flash : may .flash = false → t.flash = s.flash
  digests : may .digests = false → t.digests = s.digests
  challenge : may .challenge = false → t.challenge = s.challenge
  keyHashes : may .keyHashes = false → t.keyHashes = s.keyHashes
  logQueue : may .logQueue = false → t.logQueue = s.logQueue
  soft : may .soft = false → t.soft = s.soft
  softUc : may .softUc = false → t.softUc = s.softUc
  ceTrack : may .ceTrack = false → t.ceTrack = s.ceTrack
  drRoom : may .drRoom = false → t.drRoom = s.drRoom
  freeCtr : may .freeCtr = false → t.freeCtr = s.freeCtr

/-! The boundary before an instruction of a core, and how an instruction ends. -/

/-- The state at the boundary before an instruction of core `k`: it has taken the decode entries that wait for it, a live load that
waited for that has ended (R311, R312), and no withdrawn request is remembered (R320). -/
def Machine.State.atBoundary (s : Machine.State) (k : Nat) : Machine.State :=
  (Machine.endLoad (Machine.takeEntries s k)).clear .irPres k

/-- The state when core `k` has fetched an instruction of `len` words: the fetch has left its marks on the fetch queue, the loop buffer,
the instruction cache and the error counts of the memory (R239, R240). -/
def Machine.State.fetched (b : Machine.State) (k len : Nat) : Machine.State := (Machine.fetch b k len).2

/-- At a boundary of core `k`, nothing keeps an instruction of `len` words from executing: the core can issue, no long operation is
outstanding, no trap waits, its words are fetched, and no REP is active unless `rep` says that it may repeat this instruction. -/
structure Machine.State.Ready (b : Machine.State) (k len : Nat) (rep : Bool) : Prop where
  issue : Machine.canIssue b k = true
  noDiv : b.get .divOn k = 0
  noMac : b.get .macOn k = 0
  noTrap : ∀ x ∈ b.traps, x.core ≠ k
  fetches : (Machine.fetch b k len).1 = none
  repeated : b.get .repOn k = 0 ∨ rep = true

/-- An instruction of `len` words of core `k` ends with its effect `P`: then comes the end of the instruction, where the pc moves on
unless REP or LOOP turns it (R262, R263). -/
def Machine.Ends (o : Machine.Out) (k len : Nat) (P : Machine.State → Prop) : Prop :=
  ∃ t, o = .next (Machine.endInstr t k len) ∧ P t

/-- A one-bit field of core `k` takes the value given, or with none keeps its own; of the other cores it keeps its own. -/
def Machine.FlagAt (s t : Machine.State) (k : Nat) (f : Machine.Fld) (b : Option Bool) : Prop :=
  ∀ i j, t.get f i j = if i = k ∧ j = 0 then b.elim (s.get f i j) Machine.bit01 else s.get f i j

/-- What an instruction of core `k` on 16 bits leaves: register `d` (none: no register) of the bank in use holds `r` modulo 2^16, the
flags that are given are written, SAT is set where `sat`, and the state is otherwise as it was (R218, R244). -/
structure Machine.State.Wrote16 (s t : Machine.State) (k : Nat) (d : Option Nat) (r : Int) (n z c v : Option Bool) (sat : Bool) :
    Prop where
  same : s.SameBut (fun p => p ∈ [.fld .coreD, .fld .swN, .fld .swZ, .fld .swC, .fld .swV, .fld .swSat]) t
  reg : ∀ i j, t.get .coreD i j =
    if i = k ∧ d.map (Machine.bankOf s k * 8 + ·) = some j then r % 65536 else s.get .coreD i j
  fn : Machine.FlagAt s t k .swN n
  fz : Machine.FlagAt s t k .swZ z
  fc : Machine.FlagAt s t k .swC c
  fv : Machine.FlagAt s t k .swV v
  fsat : Machine.FlagAt s t k .swSat (if sat then some true else none)

/-- What an accumulator instruction of core `k` leaves: accumulator `a` of the bank in use holds `r`, N and Z are those of `r` where
`nz`, V is `v`, ORed into SAT where `sticky`, and the state is otherwise as it was (R218, R253). -/
structure Machine.State.WroteAcc (s t : Machine.State) (k a : Nat) (r : Int) (nz v sticky : Bool) : Prop where
  same : s.SameBut (fun p => p ∈ [.fld .coreA, .fld .swN, .fld .swZ, .fld .swV, .fld .swSat]) t
  acc : ∀ i j, t.get .coreA i j =
    if i = k ∧ j = Machine.bankOf s k * 2 + a then Machine.signed 40 r else s.get .coreA i j
  fn : Machine.FlagAt s t k .swN (if nz then some (decide (r < 0)) else none)
  fz : Machine.FlagAt s t k .swZ (if nz then some (decide (r = 0)) else none)
  fv : Machine.FlagAt s t k .swV (some v)
  fsat : Machine.FlagAt s t k .swSat (if sticky && v then some true else none)

/-- A run is safe: the machine reaches a next state at each of its steps. -/
def SafeRun (k : Nat) (s : Machine.State) : Prop := ∃ t, core.run k s = .next t

end Sys2Proof
end

