-- ==== Sys2Proof/Machine/Touches.lean ====
section
/-! DEFINITION. The frame of the commands with a small reach: the parts of the state that each may change. A command that is not
listed reaches, by way of a core's instruction, a bus access or a reset, most of the state; its frame stands in its own statements. -/
namespace Sys2Proof.Machine

/-- The parts that hold these register fields. -/
def flds (l : List Fld) : List Part := l.map Part.fld

/-- The parts of the state that a command may change; none: it is not listed here. -/
def touches (c : Instr) : Option (List Part) :=
  match c with
  | .fclr _ => some (flds [.fclrReq])
  | .rsreq _ => some (flds [.DM_STATUS_REQERR, .rsReq])
  | .startTimeout _ =>
    some (flds [.DM_RAILSTAT_STATE, .DM_RAILSTAT_PGOOD, .DM_RAILSTAT_STARTTMO, .DM_RAILSTAT_CAUSE, .SL_PSTAT_POS, .SL_POFS,
      .SL_PTEST_FORCE, .SL_RSTAT_NACT, .WP_RSTAT_RLEFT, .WP_RSTAT_FCAUSE, .WP_RFLAG_OVOFF, .WP_RFLAG_RTEXH, .PH_STARTS,
      .railMoved, .offSince, .rampSince, .pgIn, .pgOut, .lnBalFrom, .prevState, .faultLevel, .faultCodes, .faultLatchReq,
      .faultAt, .faultIn, .faultLatched, .scopeFrom, .auxIn, .regMt, .ovOff, .ovRun, .stopNext, .scopeNext, .scopeByNext, .prevPg,
      .downAt, .auxReq, .auxCause, .ofsFrom])
  | .stopDelayExpiry _ =>
    some (flds [.DM_RAILSTAT_STATE, .DM_RAILSTAT_PGOOD, .DM_RAILSTAT_STARTTMO, .DM_RAILSTAT_CAUSE, .SL_PSTAT_POS, .SL_POFS,
      .SL_PTEST_FORCE, .SL_RSTAT_NACT, .WP_RSTAT_RLEFT, .WP_RSTAT_FCAUSE, .WP_RFLAG_OVOFF, .WP_RFLAG_RTEXH, .PH_STARTS,
      .railMoved, .offSince, .rampSince, .pgIn, .pgOut, .lnBalFrom, .prevState, .faultLevel, .faultCodes, .faultLatchReq,
      .faultAt, .faultIn, .faultLatched, .scopeFrom, .auxIn, .regMt, .ovOff, .ovRun, .stopNext, .scopeNext, .scopeByNext, .prevPg,
      .downAt, .auxReq, .auxCause, .ofsFrom])
  | .startDelayExpiry _ => some (flds [.DM_RAILSTAT_PREDOK])
  | .offDwellExpiry _ =>
    some (flds [.DM_RAILSTAT_STATE, .DM_RAILSTAT_PGOOD, .DM_RAILSTAT_STARTTMO, .DM_RAILSTAT_CAUSE, .SL_PSTAT_POS, .SL_POFS,
      .SL_PTEST_FORCE, .SL_RSTAT_NACT, .WP_RSTAT_RLEFT, .WP_RSTAT_FCAUSE, .WP_RFLAG_OVOFF, .WP_RFLAG_RTEXH, .PH_STARTS,
      .railMoved, .offSince, .rampSince, .pgIn, .pgOut, .lnBalFrom, .prevState, .faultLevel, .faultCodes, .faultLatchReq,
      .faultAt, .faultIn, .faultLatched, .scopeFrom, .auxIn, .regMt, .ovOff, .ovRun, .stopNext, .scopeNext, .scopeByNext, .prevPg,
      .downAt, .auxReq, .auxCause, .ofsFrom])
  | .enFilterAccept _ => some (flds [.DM_RAILSTAT_ENF, .enableHold, .tapIr, .tapErr])
  | .enStuckTimeout _ => some (flds [.DM_RAILSTAT_ENSTUCK])
  | .pgoodAssert _ => some (flds [.DM_RAILSTAT_PGOOD, .predPgAt])
  | .pgoodDeassert _ => some (flds [.DM_RAILSTAT_PGOOD, .pgIn])
  | .domainExcess _ =>
    some (flds [.DM_STATUS_DOMX, .EV_WATCH, .EV_TRIP, .EV_CHPUB, .EV_CHSUPP, .evLatch, .sgCount, .sgEnd, .sgOpen, .evWakeReq,
      .recEv, .pubSeen] ++ [.arrivals])
  | .deviceExcess =>
    some (flds [.DM_STATUS_DEVX, .EV_WATCH, .EV_TRIP, .EV_CHPUB, .EV_CHSUPP, .evLatch, .sgCount, .sgEnd, .sgOpen, .evWakeReq,
      .recEv, .pubSeen] ++ [.arrivals])
  | .auxResult _ _ =>
    some (flds [.FL_AUXRES, .FL_AUXFLAG_RANGE, .FL_AUXFLAG_TRIMSAT, .EV_WATCH, .EV_TRIP, .EV_CHPUB, .EV_CHSUPP, .evLatch,
      .sgCount, .sgEnd, .sgOpen, .evWakeReq, .auxStuckCode, .auxStuckCnt, .vin, .vinValid, .recEv, .pubSeen] ++ [.arrivals])
  | .tempSample _ _ =>
    some (flds [.FL_TMFLAG_RANGE, .FL_TMFLAG_TRIMSAT, .WP_CFLAG_OTWARN, .WP_CFLAG_OTSHUT, .PH_HCYC, .EV_WATCH, .EV_TRIP,
      .EV_CHPUB, .EV_CHSUPP, .evLatch, .sgCount, .sgEnd, .sgOpen, .evWakeReq, .tmStuckCode, .tmStuckCnt, .faultCodes,
      .faultLatchReq, .otCnt, .isolReq, .tmLast, .hcX, .hcFall, .hcAny, .recEv, .pubSeen] ++ [.writes, .arrivals])
  | .channelStuck _ =>
    some (flds [.FL_TMFLAG_STUCK, .FL_PHFLAG_STUCK, .FL_VFLAG_STUCK, .FL_AUXFLAG_STUCK, .EV_WATCH, .EV_TRIP, .EV_CHPUB,
      .EV_CHSUPP, .evLatch, .sgCount, .sgEnd, .sgOpen, .evWakeReq, .recEv, .pubSeen] ++ [.arrivals])
  | .voltageOpenTest _ _ =>
    some (flds [.FL_VFLAG_OPEN, .EV_WATCH, .EV_TRIP, .EV_CHPUB, .EV_CHSUPP, .evLatch, .sgCount, .sgEnd, .sgOpen, .evWakeReq,
      .vOpenFail, .vHold, .vDefer, .recEv, .pubSeen] ++ [.arrivals])
  | .currentInjectionTest _ _ =>
    some (flds [.FL_PHFLAG_OPEN, .EV_WATCH, .EV_TRIP, .EV_CHPUB, .EV_CHSUPP, .evLatch, .sgCount, .sgEnd, .sgOpen, .evWakeReq,
      .openFail, .phHold, .phDefer, .recEv, .pubSeen] ++ [.arrivals])
  | .rippleWindowEnd =>
    some (flds [.FL_PHFLAG_OPEN, .FL_PHRIP, .EV_WATCH, .EV_TRIP, .EV_CHPUB, .EV_CHSUPP, .evLatch, .sgCount, .sgEnd, .sgOpen,
      .evWakeReq, .ripMin, .ripMax, .ripEnded, .pwmHigh, .openFail, .recEv, .pubSeen] ++ [.arrivals])
  | .rotationStep _ =>
    some (flds [.FL_STATUS_ROTBUSY, .FL_STATUS_CFGERR, .FL_ROTCTL_TGT, .FL_VGSTAT_POS, .FL_VGSTAT_RSTATE, .FL_CLSTAT_POS,
      .FL_CLSTAT_RSTATE, .rotT0, .rotDis, .rotRetry, .rotAny])
  | .calibrationDone _ _ =>
    some (flds [.FL_STATUS_ROTBUSY, .FL_VFAIL, .FL_VGSTAT_SPARE, .FL_VGSTAT_RSTATE, .FL_VGSTAT_NOSPARE, .FL_CLSTAT_SPARE,
      .FL_CLSTAT_RSTATE, .FL_CLSTAT_NOSPARE, .FL_CLFAIL, .rotRetry])
  | .handover _ =>
    some (flds [.FL_STATUS_ROTBUSY, .FL_VFAIL, .FL_VGSTAT_SPARE, .FL_VGSTAT_RSTATE, .FL_VGSTAT_NOSPARE, .FL_VGSTAT_ABORT,
      .FL_VGSTAT_ABORTS, .FL_CLMAP, .FL_CLSTAT_SPARE, .FL_CLSTAT_RSTATE, .FL_CLSTAT_NOSPARE, .FL_CLSTAT_ABORT, .FL_CLSTAT_ABORTS,
      .FL_CLFAIL, .FL_VCONV, .phDefer, .vDefer, .rotRetry, .rotFirst, .rotEnd])
  | .converterSubstitution _ =>
    some (flds [.FL_STATUS_ROTBUSY, .FL_VFAIL, .FL_VGSTAT_SPARE, .FL_VGSTAT_RSTATE, .FL_VGSTAT_NOSPARE, .FL_CLMAP,
      .FL_CLSTAT_SPARE, .FL_CLSTAT_RSTATE, .FL_CLSTAT_NOSPARE, .FL_CLFAIL, .FL_PHFLAG_SLFAIL, .FL_VFLAG_CVFAIL, .FL_VCONV,
      .phDefer, .vDefer, .retReq])
  | .declareConverterFailed _ _ =>
    some (flds [.FL_STATUS_ROTBUSY, .FL_STATUS_CFGERR, .FL_SUBCTL_IDX, .FL_SUBCTL_KIND, .FL_VFAIL, .FL_VGSTAT_SPARE,
      .FL_VGSTAT_RSTATE, .FL_VGSTAT_NOSPARE, .FL_CLMAP, .FL_CLSTAT_SPARE, .FL_CLSTAT_RSTATE, .FL_CLSTAT_NOSPARE, .FL_CLFAIL,
      .FL_PHFLAG_SLFAIL, .FL_VFLAG_CVFAIL, .FL_VCONV, .phDefer, .vDefer, .retReq])
  | .flumeStartupCal _ _ =>
    some (flds [.FL_STATUS_RDY, .FL_STATUS_ROTBUSY, .FL_VFAIL, .FL_VGSTAT_SPARE, .FL_VGSTAT_RSTATE, .FL_VGSTAT_NOSPARE, .FL_CLMAP,
      .FL_CLSTAT_SPARE, .FL_CLSTAT_RSTATE, .FL_CLSTAT_NOSPARE, .FL_CLFAIL, .FL_PHFLAG_SLFAIL, .FL_VFLAG_CVFAIL, .FL_VCONV,
      .phDefer, .vDefer, .rotRetry, .retReq])
  | .setpointWrite _ _ =>
    some (flds [.LN_FLAG, .EV_WATCH, .EV_TRIP, .EV_CHPUB, .EV_CHSUPP, .evLatch, .sgCount, .sgEnd, .sgOpen, .evWakeReq, .recEv,
      .pubSeen] ++ [.writes, .arrivals, .commits])
  | .commit _ => some (flds [.LN_STATUS_COMMITPEND])
  | .copy _ => some (flds [.copyReq])
  | .timebaseWrap _ =>
    some (flds [.SL_PSTAT_POS, .SL_POFS, .SL_RPER, .SL_RSTAT_LOCK, .SL_RFLAG_SYNCRANGE, .EV_WATCH, .EV_TRIP, .EV_CHPUB,
      .EV_CHSUPP, .evLatch, .sgCount, .sgEnd, .sgOpen, .evWakeReq, .tbWrap, .tbAdj, .lockCnt, .recEv, .ofsFrom, .syncHold,
      .pubSeen] ++ [.arrivals])
  | .carrierStart _ =>
    some (flds [.SL_PSTAT_LEVEL, .SL_PSTAT_EGSP, .SL_PFLAG_TOFFMINHIT, .SL_PFLAG_PSKIP, .SL_PTON, .SL_PCYC, .WR_FLAG_TERM,
      .EV_WATCH, .EV_TRIP, .EV_CHPUB, .EV_CHSUPP, .evLatch, .sgCount, .sgEnd, .sgOpen, .evWakeReq, .pwmHigh, .cycStart, .cycAny,
      .modHigh, .onAt, .offAt, .onSched, .offSched, .offCause, .cmpUsed, .midZc, .insStart, .insEnd, .insOn, .dropState,
      .dropFrom, .highAt, .blocked, .rbArmed, .egWait, .termCyc, .ocCnt, .recEv, .relAt, .offKnown, .pubSeen] ++ [.arrivals])
  | .scheduledEdge _ =>
    some (flds [.SL_PSTAT_LEVEL, .SL_PSTAT_EGSP, .SL_PFLAG_TONMINHIT, .SL_PFLAG_DMAXHIT, .SL_PFLAG_PSKIP, .SL_PFLAG_PIDEFER,
      .SL_PTON, .SL_PCYC, .WR_FLAG_TERM, .WR_FLAG_NEGOC, .EV_WATCH, .EV_TRIP, .EV_CHPUB, .EV_CHSUPP, .evLatch, .sgCount, .sgEnd,
      .sgOpen, .evWakeReq, .pwmHigh, .modHigh, .onAt, .offAt, .onSched, .offSched, .offCause, .midZc, .insStart, .insEnd, .insOn,
      .dropState, .dropFrom, .highAt, .blocked, .rbArmed, .egWait, .termCyc, .ocCnt, .recEv, .relAt, .offKnown,
      .pubSeen] ++ [.arrivals])
  | .peakCompare _ _ _ _ =>
    some (flds [.SL_PSTAT_LEVEL, .SL_PTON, .WR_FLAG_NEGOC, .pwmHigh, .modHigh, .offAt, .onSched, .offSched, .offCause, .cmpUsed,
      .midZc, .insStart, .insEnd, .insOn, .dropState, .dropFrom, .highAt, .blocked, .rbArmed, .relAt, .offKnown])
  | .valleyCompare _ _ _ _ =>
    some (flds [.SL_PSTAT_LEVEL, .SL_PSTAT_EGSP, .SL_PFLAG_PSKIP, .SL_PTON, .SL_PCYC, .WR_FLAG_TERM, .EV_WATCH, .EV_TRIP,
      .EV_CHPUB, .EV_CHSUPP, .evLatch, .sgCount, .sgEnd, .sgOpen, .evWakeReq, .pwmHigh, .modHigh, .onAt, .offAt, .onSched,
      .offSched, .offCause, .midZc, .insStart, .insEnd, .insOn, .dropState, .dropFrom, .highAt, .blocked, .rbArmed, .egWait,
      .termCyc, .ocCnt, .recEv, .relAt, .offKnown, .pubSeen] ++ [.arrivals])
  | .zeroCrossing _ _ _ _ =>
    some (flds [.SL_PSTAT_LEVEL, .SL_PTON, .pwmHigh, .modHigh, .offAt, .onSched, .offSched, .midZc, .insStart, .insEnd, .insOn,
      .dropState, .dropFrom, .highAt, .blocked, .rbArmed, .relAt, .offKnown])
  | .syncinEdge _ _ =>
    some (flds [.SL_STATUS_SYNCACT, .SL_SYNCPER, .syncLast, .syncAny, .syncTrack, .syncGood, .syncLo, .syncHi, .syncEdges,
      .syncRef, .syncLost, .syncHold])
  | .syncLoss =>
    some (flds [.SL_RSTAT_LOCK, .SL_RFLAG_SYNCLOSS, .SL_STATUS_SYNCACT, .EV_WATCH, .EV_TRIP, .EV_CHPUB, .EV_CHSUPP, .evLatch,
      .sgCount, .sgEnd, .sgOpen, .evWakeReq, .syncAny, .syncTrack, .syncGood, .lockCnt, .syncLost, .recEv,
      .pubSeen] ++ [.arrivals])
  | .pulseInsert _ => some (flds [.insReq])
  | .railPulseInsert _ => some (flds [.insAllReq])
  | .phaseAdd _ _ => some (flds [.addReq])
  | .phaseDrop _ _ => some (flds [.dropReq])
  | .dropHoldEnd _ =>
    some (flds [.SL_PSTAT_LEVEL, .SL_PTON, .pwmHigh, .modHigh, .offAt, .onSched, .offSched, .insStart, .insEnd, .insOn,
      .dropState, .dropFrom, .highAt, .blocked, .rbArmed, .relAt, .offKnown])
  | .readbackCheck _ _ =>
    some (flds [.SL_PSTAT_LEVEL, .SL_PSTAT_EGSP, .SL_PSTAT_PADFLT, .SL_PSTAT_EGFAIL, .SL_PFLAG_RBMIS, .SL_PTON, .SL_CEG_SPFOR,
      .SL_CEG_SPUSE, .SL_CEG_FAIL, .EV_WATCH, .EV_TRIP, .EV_CHPUB, .EV_CHSUPP, .evLatch, .sgCount, .sgEnd, .sgOpen, .evWakeReq,
      .pwmHigh, .retReq, .modHigh, .offAt, .onSched, .offSched, .insStart, .insEnd, .insOn, .dropState, .dropFrom, .highAt,
      .blocked, .rbArmed, .rbCnt, .egWait, .egTrial, .recEv, .relAt, .offKnown, .pubSeen] ++ [.arrivals])
  | .declareGeneratorFailed _ _ => some (flds [.csubReq] ++ [.writes])
  | .interpolatorSelftest _ =>
    some (flds [.SL_PSTAT_LEVEL, .SL_PSTAT_EGSP, .SL_PSTAT_EGFAIL, .SL_PTON, .SL_CEG_SPFOR, .SL_CEG_SPUSE, .SL_CEG_FAIL,
      .SL_STATUS_RDY, .pwmHigh, .retReq, .modHigh, .offAt, .onSched, .offSched, .insStart, .insEnd, .insOn, .dropState, .dropFrom,
      .highAt, .blocked, .rbArmed, .rbCnt, .egWait, .egTrial, .relAt, .offKnown])
  | .weirCrossing _ _ _ =>
    some (flds [.LN_TRFLAG_BURST, .LN_TRFLAG_BUDEX, .LN_TRFLAG_GAPREF, .SL_PSTAT_LEVEL, .SL_PTON, .WR_STAT_OUT, .WR_FLAG_ABOVE,
      .WR_FLAG_BELOW, .WR_FLAG_TERM, .WR_FLAG_NEGOC, .WP_RFLAG_OVGLITCH, .WP_RFLAG_OVOFF, .EV_WATCH, .EV_TRIP, .EV_CHPUB,
      .EV_CHSUPP, .evLatch, .sgCount, .sgEnd, .sgOpen, .evWakeReq, .pwmHigh, .forced, .modHigh, .offAt, .onSched, .offSched,
      .midZc, .insAllReq, .insStart, .insEnd, .insOn, .addReq, .dropState, .dropFrom, .highAt, .blocked, .allOff, .inBurst,
      .rbArmed, .termCyc, .ocCnt, .wrSampled, .ovOff, .ovRun, .auxOff, .trOff, .trFrom, .burstOn, .burstFrom, .burstEnd,
      .burstTick, .wakeReq, .irEdge, .irPrev, .irPres, .irWakeReq, .recEv, .relAt, .offKnown, .pubOnce, .pubSeen] ++ [.arrivals])
  | .burstPhaseExit _ _ _ _ =>
    some (flds [.SL_PSTAT_LEVEL, .SL_PTON, .pwmHigh, .forced, .modHigh, .offAt, .onSched, .offSched, .insStart, .insEnd, .insOn,
      .dropState, .dropFrom, .highAt, .blocked, .inBurst, .rbArmed, .relAt, .offKnown])
  | .burstLengthExpiry _ =>
    some (flds [.LN_TRFLAG_BLENEND, .SL_PSTAT_LEVEL, .SL_PTON, .pwmHigh, .forced, .modHigh, .offAt, .onSched, .offSched,
      .insStart, .insEnd, .insOn, .dropState, .dropFrom, .highAt, .blocked, .inBurst, .rbArmed, .burstOn, .burstEnd, .burstTick,
      .relAt, .offKnown])
  | .burstBudgetExhausted _ =>
    some (flds [.LN_TRFLAG_BUDEX, .SL_PSTAT_LEVEL, .SL_PTON, .pwmHigh, .forced, .modHigh, .offAt, .onSched, .offSched, .insStart,
      .insEnd, .insOn, .dropState, .dropFrom, .highAt, .blocked, .inBurst, .rbArmed, .burstOn, .burstEnd, .burstTick, .relAt,
      .offKnown])
  | .allOffLengthExpiry _ =>
    some (flds [.LN_TRFLAG_OFFEND, .SL_PSTAT_LEVEL, .SL_PTON, .pwmHigh, .forced, .modHigh, .offAt, .onSched, .offSched, .insStart,
      .insEnd, .insOn, .dropState, .dropFrom, .highAt, .blocked, .allOff, .rbArmed, .trOff, .relAt, .offKnown])
  | .weirEnable _ =>
    some (flds [.LN_TRFLAG_BURST, .LN_TRFLAG_BUDEX, .LN_TRFLAG_GAPREF, .SL_PSTAT_LEVEL, .SL_PTON, .WR_STAT_OUT, .WR_STAT_EFFMODE,
      .WR_STAT_SETTLE, .WR_FLAG_ABOVE, .WR_FLAG_BELOW, .WR_FLAG_TERM, .WR_FLAG_NEGOC, .WP_RFLAG_OVGLITCH, .WP_RFLAG_OVOFF,
      .EV_WATCH, .EV_TRIP, .EV_CHPUB, .EV_CHSUPP, .evLatch, .sgCount, .sgEnd, .sgOpen, .evWakeReq, .pwmHigh, .forced, .modHigh,
      .offAt, .onSched, .offSched, .midZc, .insAllReq, .insStart, .insEnd, .insOn, .addReq, .dropState, .dropFrom, .highAt,
      .blocked, .allOff, .inBurst, .rbArmed, .termCyc, .ocCnt, .wrOn, .wrRun, .wrSettle, .ovOff, .ovRun, .auxOff, .trOff, .trFrom,
      .burstOn, .burstFrom, .burstEnd, .burstTick, .ovCnt, .uvCnt, .wakeReq, .irEdge, .irPrev, .irPres, .irWakeReq, .recEv,
      .relAt, .offKnown, .pubOnce, .pubSeen] ++ [.arrivals])
  | .weirSettleEnd _ _ =>
    some (flds [.LN_TRFLAG_BURST, .LN_TRFLAG_BUDEX, .LN_TRFLAG_GAPREF, .SL_PSTAT_LEVEL, .SL_PTON, .WR_STAT_OUT, .WR_STAT_SETTLE,
      .WR_FLAG_ABOVE, .WR_FLAG_BELOW, .WR_FLAG_TERM, .WR_FLAG_NEGOC, .WP_RFLAG_OVGLITCH, .WP_RFLAG_OVOFF, .EV_WATCH, .EV_TRIP,
      .EV_CHPUB, .EV_CHSUPP, .evLatch, .sgCount, .sgEnd, .sgOpen, .evWakeReq, .pwmHigh, .forced, .modHigh, .offAt, .onSched,
      .offSched, .midZc, .insAllReq, .insStart, .insEnd, .insOn, .addReq, .dropState, .dropFrom, .highAt, .blocked, .allOff,
      .inBurst, .rbArmed, .termCyc, .ocCnt, .ovOff, .ovRun, .auxOff, .trOff, .trFrom, .burstOn, .burstFrom, .burstEnd, .burstTick,
      .wakeReq, .irEdge, .irPrev, .irPres, .irWakeReq, .recEv, .relAt, .offKnown, .pubOnce, .pubSeen] ++ [.arrivals])
  | .weirFallbackCompare _ _ =>
    some (flds [.LN_TRFLAG_BURST, .LN_TRFLAG_BUDEX, .LN_TRFLAG_GAPREF, .SL_PSTAT_LEVEL, .SL_PTON, .WR_STAT_OUT, .WR_FLAG_ABOVE,
      .WR_FLAG_BELOW, .WR_FLAG_TERM, .WR_FLAG_NEGOC, .WP_RFLAG_OVGLITCH, .WP_RFLAG_OVOFF, .EV_WATCH, .EV_TRIP, .EV_CHPUB,
      .EV_CHSUPP, .evLatch, .sgCount, .sgEnd, .sgOpen, .evWakeReq, .pwmHigh, .forced, .modHigh, .offAt, .onSched, .offSched,
      .midZc, .insAllReq, .insStart, .insEnd, .insOn, .addReq, .dropState, .dropFrom, .highAt, .blocked, .allOff, .inBurst,
      .rbArmed, .termCyc, .ocCnt, .ovOff, .ovRun, .auxOff, .trOff, .trFrom, .burstOn, .burstFrom, .burstEnd, .burstTick, .wakeReq,
      .irEdge, .irPrev, .irPres, .irWakeReq, .recEv, .relAt, .offKnown, .pubOnce, .pubSeen] ++ [.arrivals])
  | .ovPersistence _ => some (flds [.WP_RFLAG_OV, .faultCodes, .faultLatchReq])
  | .uvPersistence _ => some (flds [.WP_RFLAG_UV, .faultCodes, .faultLatchReq])
  | .rocPersistence _ => some (flds [.WP_RFLAG_ROC, .faultCodes, .faultLatchReq])
  | .phaseOcCount _ => some (flds [.WR_FLAG_OCRET, .retReq, .ocCnt, .faultCodes, .faultLatchReq])
  | .loopSaturation _ =>
    some (flds [.DM_RAILSTAT_LIMSAT, .LN_STATUS_NACT, .LN_FLAG, .LN_FFC, .LN_CMD, .LN_INTEG, .LN_ERR, .LN_MAP_ACT, .LN_BAL,
      .LN_PCMD, .WP_RFLAG_LSAT, .EV_WATCH, .EV_TRIP, .EV_CHPUB, .EV_CHSUPP, .evLatch, .sgCount, .sgEnd, .sgOpen, .evWakeReq,
      .lnE1, .lnE2, .lnW1, .lnW2, .lnInteg, .lnBalAcc, .cmdHiNow, .faultCodes, .faultLatchReq, .lsatCnt, .frzNow, .recEv,
      .pubSeen] ++ [.arrivals])
  | .tfltActive _ =>
    some (flds [.SL_PSTAT_LEVEL, .SL_PTON, .WP_CSTAT_TFACT, .WP_CFLAG_TFLT, .PH_CSTAT_PSTATE, .PH_CFLAG_FOUND, .EV_WATCH,
      .EV_TRIP, .EV_CHPUB, .EV_CHSUPP, .evLatch, .sgCount, .sgEnd, .sgOpen, .evWakeReq, .pwmHigh, .retReq, .modHigh, .offAt,
      .onSched, .offSched, .insStart, .insEnd, .insOn, .dropState, .dropFrom, .highAt, .blocked, .rbArmed, .tfMid, .faultCodes,
      .faultLatchReq, .tfChg, .tfAct, .tfIn, .isolReq, .tfStkDone, .probeFound, .recEv, .relAt, .offKnown,
      .pubSeen] ++ [.arrivals])
  | .tfltInactive _ =>
    some (flds [.SL_PSTAT_LEVEL, .SL_PTON, .WP_CSTAT_TFACT, .pwmHigh, .modHigh, .offAt, .onSched, .offSched, .insStart, .insEnd,
      .insOn, .dropState, .dropFrom, .highAt, .blocked, .rbArmed, .tfMid, .tfChg, .tfAct, .tfIn, .tfStkDone, .relAt, .offKnown])
  | .tfltChatter _ =>
    some (flds [.SL_PSTAT_LEVEL, .SL_PTON, .WP_CSTAT_TFACT, .WP_CFLAG_TFLT, .WP_CFLAG_TFCHAT, .PH_CSTAT_PSTATE, .PH_CFLAG_FOUND,
      .EV_WATCH, .EV_TRIP, .EV_CHPUB, .EV_CHSUPP, .evLatch, .sgCount, .sgEnd, .sgOpen, .evWakeReq, .pwmHigh, .retReq, .modHigh,
      .offAt, .onSched, .offSched, .insStart, .insEnd, .insOn, .dropState, .dropFrom, .highAt, .blocked, .rbArmed, .tfMid,
      .faultCodes, .faultLatchReq, .tfChg, .tfAct, .tfIn, .isolReq, .tfStkDone, .probeFound, .recEv, .relAt, .offKnown,
      .pubSeen] ++ [.arrivals])
  | .tfltStuck _ => some (flds [.WP_CFLAG_TFSTUCK, .retReq, .faultCodes, .faultLatchReq, .tfStuckOn, .tfStkDone])
  | .retryExpiry _ =>
    some (flds [.DM_RAILSTAT_STATE, .DM_RAILSTAT_PGOOD, .DM_RAILSTAT_STARTTMO, .DM_RAILSTAT_CAUSE, .SL_PSTAT_POS, .SL_POFS,
      .SL_PTEST_FORCE, .SL_RSTAT_NACT, .WP_RSTAT_RLEFT, .WP_RSTAT_FCAUSE, .WP_RFLAG_OVOFF, .WP_RFLAG_RTEXH, .PH_STARTS,
      .railMoved, .offSince, .rampSince, .pgIn, .pgOut, .lnBalFrom, .prevState, .faultLevel, .faultCodes, .faultLatchReq,
      .faultAt, .faultIn, .faultLatched, .scopeFrom, .auxIn, .regMt, .ovOff, .ovRun, .stopNext, .scopeNext, .scopeByNext, .prevPg,
      .downAt, .auxReq, .auxCause, .ofsFrom])
  | .auxFaultClear _ =>
    some (flds [.DM_RAILSTAT_STATE, .DM_RAILSTAT_PGOOD, .DM_RAILSTAT_STARTTMO, .DM_RAILSTAT_CAUSE, .SL_PSTAT_POS, .SL_POFS,
      .SL_PTEST_FORCE, .SL_RSTAT_NACT, .WP_RSTAT_RLEFT, .WP_RSTAT_FCAUSE, .WP_RFLAG_OVOFF, .WP_RFLAG_RTEXH, .PH_STARTS,
      .railMoved, .offSince, .rampSince, .pgIn, .pgOut, .lnBalFrom, .prevState, .faultLevel, .faultCodes, .faultLatchReq,
      .faultAt, .faultIn, .faultLatched, .scopeFrom, .auxIn, .regMt, .ovOff, .ovRun, .stopNext, .scopeNext, .scopeByNext, .prevPg,
      .downAt, .auxReq, .auxCause, .ofsFrom])
  | .retryRestore _ => some (flds [.WP_RSTAT_RLEFT])
  | .weirSubstitution _ =>
    some (flds [.LN_TRFLAG_BURST, .LN_TRFLAG_BUDEX, .LN_TRFLAG_GAPREF, .SL_PSTAT_LEVEL, .SL_PTON, .WR_CFG_EN, .WR_CFG_MODE,
      .WR_CFG_SMODE, .WR_CFG_INIT, .WR_CFG_HYS, .WR_CFG_ABS, .WR_LO, .WR_HI, .WR_ROUTE_CHA, .WR_ROUTE_ENA, .WR_ROUTE_RETA,
      .WR_ROUTE_CHB, .WR_ROUTE_ENB, .WR_ROUTE_RETB, .WR_CTRL_IRQEN, .WR_CTRL_WAKE, .WR_CTRL_SEL, .WR_CTRL_AACT, .WR_AMASK,
      .WR_STAT_OUT, .WR_STAT_SETTLE, .WR_STAT_SUBST, .WR_STAT_SPIDX, .WR_FLAG_ABOVE, .WR_FLAG_BELOW, .WR_FLAG_TERM,
      .WR_FLAG_NEGOC, .WP_RFLAG_OVGLITCH, .WP_RFLAG_OVOFF, .WP_RFLAG_WLOST, .WP_RFLAG_TRLOST, .WP_STATUS_SPUSE, .EV_WATCH,
      .EV_TRIP, .EV_CHPUB, .EV_CHSUPP, .evLatch, .sgCount, .sgEnd, .sgOpen, .evWakeReq, .pwmHigh, .forced, .retReq, .modHigh,
      .offAt, .onSched, .offSched, .midZc, .insAllReq, .insStart, .insEnd, .insOn, .addReq, .dropState, .dropFrom, .highAt,
      .blocked, .allOff, .inBurst, .rbArmed, .termCyc, .ocCnt, .wrRun, .wrSettle, .wrLoss, .ovOff, .ovRun, .auxOff, .trOff,
      .trFrom, .trLost, .protLost, .burstOn, .burstFrom, .burstEnd, .burstTick, .ovCnt, .uvCnt, .wakeReq, .irEdge, .irPrev,
      .irPres, .irWakeReq, .recEv, .relAt, .offKnown, .pubOnce, .pubSeen] ++ [.arrivals])
  | .declareWeirFailed _ => some (flds [.WP_STATUS_CFGERR, .declReq] ++ [.writes])
  | .weirSelftest _ =>
    some (flds [.LN_TRFLAG_BURST, .LN_TRFLAG_BUDEX, .LN_TRFLAG_GAPREF, .SL_PSTAT_LEVEL, .SL_PTON, .WR_CFG_EN, .WR_CFG_MODE,
      .WR_CFG_SMODE, .WR_CFG_INIT, .WR_CFG_HYS, .WR_CFG_ABS, .WR_LO, .WR_HI, .WR_ROUTE_CHA, .WR_ROUTE_ENA, .WR_ROUTE_RETA,
      .WR_ROUTE_CHB, .WR_ROUTE_ENB, .WR_ROUTE_RETB, .WR_CTRL_IRQEN, .WR_CTRL_WAKE, .WR_CTRL_SEL, .WR_CTRL_AACT, .WR_AMASK,
      .WR_STAT_OUT, .WR_STAT_SETTLE, .WR_STAT_FAIL, .WR_STAT_SUBST, .WR_STAT_SPIDX, .WR_FLAG_ABOVE, .WR_FLAG_BELOW, .WR_FLAG_TERM,
      .WR_FLAG_NEGOC, .WP_RFLAG_OVGLITCH, .WP_RFLAG_OVOFF, .WP_RFLAG_WLOST, .WP_RFLAG_TRLOST, .WP_STATUS_RDY, .WP_STATUS_SPUSE,
      .WP_SPFAIL, .EV_WATCH, .EV_TRIP, .EV_CHPUB, .EV_CHSUPP, .evLatch, .sgCount, .sgEnd, .sgOpen, .evWakeReq, .pwmHigh, .forced,
      .retReq, .modHigh, .offAt, .onSched, .offSched, .midZc, .insAllReq, .insStart, .insEnd, .insOn, .addReq, .dropState,
      .dropFrom, .highAt, .blocked, .allOff, .inBurst, .rbArmed, .termCyc, .ocCnt, .wrRun, .wrSettle, .wrLoss, .ovOff, .ovRun,
      .auxOff, .trOff, .trFrom, .trLost, .protLost, .burstOn, .burstFrom, .burstEnd, .burstTick, .ovCnt, .uvCnt, .wakeReq,
      .irEdge, .irPrev, .irPres, .irWakeReq, .recEv, .relAt, .offKnown, .pubOnce, .pubSeen] ++ [.arrivals])
  | .shedDwellExpiry _ =>
    some (flds [.PH_RFLAG_SHDROP, .EV_WATCH, .EV_TRIP, .EV_CHPUB, .EV_CHSUPP, .evLatch, .sgCount, .sgEnd, .sgOpen, .evWakeReq,
      .dropReq, .shCnt, .recEv, .pubSeen] ++ [.arrivals])
  | .countLock => some (flds [.PH_CTRL_LOCK])
  | .snap => some (flds [.PH_STATUS_SUMBUSY, .snapReq])
  | .summaryDone => some (flds [.PH_STATUS_SUMBUSY, .PH_SUM, .snapReq])
  | .retire _ _ => some (flds [.PH_STATUS_CFGERR, .retReq])
  | .unret _ => some (flds [.PH_STATUS_CFGERR, .unretReq])
  | .probeWaitEnd _ =>
    some (flds [.SL_PSTAT_LEVEL, .SL_PTON, .WP_CSTAT_ISOL, .PH_CSTAT_PSTATE, .PH_CSTAT_PK, .PH_CSTAT_NOIDC, .PH_CFLAG_NOID,
      .EV_WATCH, .EV_TRIP, .EV_CHPUB, .EV_CHSUPP, .evLatch, .sgCount, .sgEnd, .sgOpen, .evWakeReq, .pwmHigh, .retReq, .modHigh,
      .offAt, .onSched, .offSched, .insStart, .insEnd, .insOn, .addReq, .dropState, .dropFrom, .highAt, .blocked, .rbArmed,
      .isolated, .tfMid, .probed, .probeFrom, .probeSkip, .noidMt, .recEv, .relAt, .offKnown, .pubSeen] ++ [.arrivals])
  | .probeWatchEnd _ =>
    some (flds [.SL_PSTAT_LEVEL, .SL_PTON, .WP_CSTAT_ISOL, .PH_CSTAT_PSTATE, .PH_CSTAT_PK, .PH_CSTAT_NOIDC, .PH_CFLAG_NOID,
      .EV_WATCH, .EV_TRIP, .EV_CHPUB, .EV_CHSUPP, .evLatch, .sgCount, .sgEnd, .sgOpen, .evWakeReq, .pwmHigh, .retReq, .modHigh,
      .offAt, .onSched, .offSched, .insStart, .insEnd, .insOn, .addReq, .dropState, .dropFrom, .highAt, .blocked, .rbArmed,
      .isolated, .tfMid, .probed, .probeFrom, .probeSkip, .noidMt, .recEv, .relAt, .offKnown, .pubSeen] ++ [.arrivals])
  | .evPub _ _ =>
    some (flds [.EV_STATUS_OWNERR, .EV_STATUS_LASTCH, .EV_WATCH, .EV_TRIP, .EV_CHPUB, .EV_CHSUPP, .evLatch, .sgCount, .sgEnd,
      .sgOpen, .evWakeReq, .recEv, .pubSeen] ++ [.arrivals])
  | .evProxypub _ _ =>
    some (flds [.EV_STATUS_OWNERR, .EV_STATUS_LASTCH, .EV_WATCH, .EV_TRIP, .EV_CHPUB, .EV_CHSUPP, .evLatch, .sgCount, .sgEnd,
      .sgOpen, .evWakeReq, .recEv, .pubSeen] ++ [.arrivals])
  | .evUpub _ _ =>
    some (flds [.EV_STATUS_OWNERR, .EV_STATUS_LASTCH, .EV_WATCH, .EV_TRIP, .EV_CHPUB, .EV_CHSUPP, .evLatch, .sgCount, .sgEnd,
      .sgOpen, .evWakeReq, .recEv, .pubSeen] ++ [.arrivals])
  | .turnoutDelivery _ _ _ =>
    some (flds [.LN_STATUS_COMMITPEND, .EV_TOCOAL, .CT_STAT_CAPV, .CT_STAT_OVR, .CT_CAP, .CT_SUB, .CT_LOST, .DMA_STAT_BUSY,
      .DMA_STAT_PEND, .DMA_STAT_OVR, .startPend, .startCmp, .insAllReq, .irEdge, .irWakeReq, .dmaLeft, .dmaNext,
      .dmaNeed] ++ [.arrivals])
  | .stormRearm _ => some (flds [.EV_TRIP, .sgCount, .sgOpen])
  | .channelLock _ => some (flds [.EV_LOCK])
  | .turnoutConfig _ _ _ _ => some (flds [.EV_STATUS_SECERR, .EV_STATUS_LOCKERR, .EV_TOCFG_CH, .EV_TOCFG_EN])
  | .capture _ _ =>
    some (flds [.LN_STATUS_COMMITPEND, .EV_TOCOAL, .CT_STAT_CAPV, .CT_STAT_OVR, .CT_CAP, .CT_SUB, .CT_LOST, .DMA_STAT_BUSY,
      .DMA_STAT_PEND, .DMA_STAT_OVR, .startPend, .startCmp, .insAllReq, .irEdge, .irWakeReq, .dmaLeft, .dmaNext,
      .dmaNeed] ++ [.arrivals])
  | .captureRelease _ => some (flds [.CT_STAT_CAPV])
  | .compareStart _ =>
    some (flds [.LN_STATUS_COMMITPEND, .EV_TOCOAL, .CT_STAT_CAPV, .CT_STAT_OVR, .CT_CAP, .CT_SUB, .CT_LOST, .DMA_STAT_BUSY,
      .DMA_STAT_PEND, .DMA_STAT_OVR, .startPend, .startCmp, .insAllReq, .irEdge, .irWakeReq, .dmaLeft, .dmaNext,
      .dmaNeed] ++ [.arrivals])
  | .compareMatch _ =>
    some (flds [.EV_WATCH, .EV_TRIP, .EV_CHPUB, .EV_CHSUPP, .CT_CFG_CMPEN, .CT_STAT_MATCH, .CT_STAT_LATE, .CT_CMP, .evLatch,
      .sgCount, .sgEnd, .sgOpen, .evWakeReq, .cmpFrom, .recEv, .pubSeen] ++ [.arrivals])
  | .wfeWake _ =>
    some (flds [.PW_CTRL_SLEEP, .PW_STATE_ABORT, .evLatch, .evWakeReq, .wakeReq, .repCnt, .loopCnt, .corePc, .repOn, .loopOn,
      .coreWait, .irWakeReq, .fqLen, .lbPhase, .lbOn])
  | .waituDone _ =>
    some (flds [.LN_FLAG, .EV_WATCH, .EV_TRIP, .EV_CHPUB, .EV_CHSUPP, .RC_STATUS_WINV, .RC_STATUS_STGARMED, .RC_STGMASK,
      .RC_STGTRGMASK, .RC_STGPRE, .DR_IDSTAT_CODE, .evLatch, .sgCount, .sgEnd, .sgOpen, .evWakeReq, .repCnt, .loopCnt, .corePc,
      .repOn, .loopOn, .coreWait, .recEv, .stgOn, .idNext, .idLast, .idFit, .pubSeen, .fqLen, .lbPhase, .lbOn] ++ [.writes,
      .arrivals, .commits])
  | .longOpRetire _ _ => some (flds [.coreD, .coreA, .swV, .swSat, .swDz, .divOn, .divOld, .macOn, .macOld] ++ [.traps])
  | .microwordWrite _ _ _ => some (flds [.UC_MW, .UC_STATUS_LDERR, .UC_STATUS_LIVEERR, .UC_STATUS_FMTERR, .ucBad] ++ [.softUc])
  | .decodeEntryWrite _ _ _ =>
    some (flds [.UC_DEC_START, .UC_DEC_PAGE, .UC_DEC_VALID, .UC_DEC_MCONLY, .UC_DEC_PRIV, .UC_STATUS_LDERR, .decCopy, .decPend,
      .ucHeld])
  | .decodeEntryTaken _ => some (flds [.UC_CTRL_LDEN, .decCopy, .decPend, .ucHeld, .ucWait])
  | .vlock _ => some (flds [.UC_CTRL_VLOCK, .UC_STATUS_LDERR])
  | .interruptAssert _ => some (flds [.irEdge, .irPrev, .irPres, .irWakeReq])
  | .spend _ _ => some (flds [.IR_SRCST_SPEND, .IR_STATUS_CFGERR, .irWakeReq])
  | .clr _ _ => some (flds [.IR_SRCST_SPEND, .IR_STATUS_CFGERR, .irEdge, .irPres])
  | .retarget _ _ _ => some (flds [.IR_SRCCFG_TGT, .IR_STATUS_CFGERR, .irPres])
  | .rateLimitWindowEnd _ => some (flds [.irCnt, .irWin, .irHeld])
  | .strandTimeout _ => some (flds [.IR_SRCST_STRAND, .IR_STATUS_STRAND, .irStrOn, .irStrand])
  | .takeoverRelease _ =>
    some (flds [.XC_STATUS_SB, .LS_PAIR_DUTY, .PW_TCCTL_HELD, .coreD, .coreP, .coreA, .coreRc, .repCnt, .loopCnt, .corePc, .swC,
      .swV, .swZ, .swN, .swSat, .swDz, .swDzt, .swIe, .swPriv, .repOn, .loopOn, .loopStart, .loopEnd, .coreOn, .coreHalt,
      .coreDbg, .coreWait, .waitReg, .divOn, .divQ, .divR, .divQv, .divRv, .divV, .divDz, .divOld, .macOn, .macA, .macVal, .macV,
      .macOld, .irPres, .tkHold, .fqBase, .fqLen, .fqWord, .lbPhase, .lbOn, .lbWord, .fetched] ++ [.stores, .traps])
  | .done _ => some (flds [.LS_STATUS_TKOVER])
  | .debugHalt _ => some (flds [.LS_PAIR_STATE, .LS_STATUS_DBGSPLIT, .coreDbg])
  | .rowRepair _ _ => some (flds [.MS_REP_REPUSED, .MS_REP_NOREP, .memBad, .rrBusy, .rrRow, .ceSeen, .ceMore] ++ [.soft])
  | .rowRepairDone _ _ => some (flds [.MS_REP_REPUSED, .MS_REP_NOREP, .memBad, .rrBusy, .ceSeen, .ceMore] ++ [.soft])
  | .trainingDone _ => some (flds [.D4_STATUS_RDY, .D4_STATUS_TRAINERR, .RC_CTRL_EN, .RC_STATUS_NODDR])
  | .refresh => some (flds [.d4RefAt, .d4Double])
  | .zqcs => some (flds [.d4ZqAt])
  | .pageRetire _ _ =>
    some (flds [.D4_STATUS_RETBUSY, .D4_STATUS_POOLEX, .D4_STATUS_LISTFULL, .D4_CECNT, .D4_UECNT, .D4_ERRADDR, .D4_NRET,
      .D4_RET_PAGE, .D4_RET_V, .D4_RETX_PAGE, .D4_RETX_V, .MS_UE, .MS_UEADDR, .memBad, .retCopy] ++ [.ceTrack])
  | .pageRetireDone _ => some (flds [.D4_STATUS_RETBUSY, .memBad, .retCopy] ++ [.mem, .soft])
  | .retadd _ =>
    some (flds [.D4_STATUS_RETBUSY, .D4_STATUS_POOLEX, .D4_STATUS_LISTFULL, .D4_NRET, .D4_RET_PAGE, .D4_RET_V, .D4_RETX_PAGE,
      .D4_RETX_V, .retCopy])
  | .ddrLock => some (flds [.D4_CTRL_LOCK])
  | .dmaTrigger _ _ => some (flds [.DMA_STAT_BUSY, .DMA_STAT_ERR, .DMA_STAT_PEND, .DMA_STAT_OVR, .dmaLeft, .dmaNext, .dmaNeed])
  | .dmaDescriptor _ =>
    some (flds [.DMA_STAT_BUSY, .DMA_STAT_HALT, .DMA_STAT_ERR, .DMA_STAT_PEND, .DMA_SRC, .DMA_DST, .DMA_ERRADDR,
      .D4_STATUS_RETBUSY, .D4_STATUS_POOLEX, .D4_STATUS_LISTFULL, .D4_CECNT, .D4_UECNT, .D4_ERRADDR, .D4_NRET, .D4_RET_PAGE,
      .D4_RET_V, .D4_RETX_PAGE, .D4_RETX_V, .MS_CE, .ceSeen, .MS_UE, .MS_UEADDR, .dmaLeft, .dmaNext, .dmaNeed, .dmaLast, .dmaIrq, .dmaFail,
      .dmaTries, .dmaRaised, .retCopy] ++ [.soft, .ceTrack])
  | .resume _ _ => some (flds [.DMA_STAT_HALT, .DMA_STAT_ERR, .dmaFail, .dmaTries, .dmaRaised])
  | .abort _ _ =>
    some (flds [.DMA_STAT_BUSY, .DMA_STAT_HALT, .DMA_STAT_ERR, .DMA_STAT_PEND, .dmaLeft, .dmaNeed, .dmaFail, .dmaTries,
      .dmaRaised])
  | .recordWrite =>
    some (flds [.RC_STATUS_WRAPPED, .RC_WIDX, .RC_FRZIDX, .memBad, .recPosting, .recPost] ++ [.mem, .recQueue, .soft, .freeCtr])
  | .ringFrozen => some (flds [.RC_STATUS_FROZEN, .recPosting])
  | .frznow => some (flds [.RC_STGTRIG, .recPosting, .recPost, .recFrzAt, .stgOn, .stgLeft])
  | .rcResume => some (flds [.RC_STATUS_FROZEN])
  | .stgarm => some (flds [.RC_STATUS_WINV, .RC_STATUS_STGARMED, .stgOn])
  | .trig => some (flds [.RC_STGTRIG, .stgOn, .stgLeft])
  | .stagingWindowDone => some (flds [.RC_STATUS_WINV, .RC_STATUS_STGARMED, .stgOn])
  | .msggo _ _ => some (flds [.RC_STATUS_CFGERR, .RC_DROP, .RC_DROPF, .recSeq, .recPosting, .recPost, .recMsgAt] ++ [.recQueue])
  | .blockLockGained _ => some (flds [.DL_STATE_STATE, .lkLock, .helloAt])
  | .blockLockLost _ => some (flds [.DL_STATE_STATE, .lkLock, .lossReq])
  | .laneEnable _ =>
    some (flds [.DL_STATE_STATE, .DD_GREQ_SLOT, .DD_GREQ_PEND, .DD_GREQ_RAIL, .DD_GREQDI, .DD_GREQMAX, .DD_SSTAT_STATE, .DD_SCON,
      .EV_WATCH, .EV_TRIP, .EV_CHPUB, .EV_CHSUPP, .evLatch, .sgCount, .sgEnd, .sgOpen, .evWakeReq, .slMet, .lkLock, .lossReq,
      .crcRun, .fbReq, .recEv, .greqShown, .pubSeen] ++ [.arrivals, .commits, .txFlits])
  | .hello _ _ =>
    some (flds [.DL_STATE_STATE, .DL_STATE_EPOCH, .DL_STATE_RXSEQ, .DL_FLAG_TXOVF, .DL_FLAG_NEWEPOCH, .DD_GREQ_SLOT,
      .DD_GREQ_PEND, .DD_GREQ_RAIL, .DD_GREQDI, .DD_GREQMAX, .DD_SSTAT_STATE, .EV_WATCH, .EV_TRIP, .EV_CHPUB, .EV_CHSUPP,
      .evLatch, .sgCount, .sgEnd, .sgOpen, .evWakeReq, .slMet, .katAt, .crcRun, .telAt, .recEv, .greqShown,
      .pubSeen] ++ [.arrivals, .txFlits])
  | .forecast _ _ _ _ =>
    some (flds [.LN_FCFLAG_NOADD, .DL_STATE_RXSEQ, .DL_FLAG_STALE, .DL_FLAG_DUP, .DL_FLAG_GAP, .DL_FLAG_BADMSG, .DL_FLAG_TXOVF,
      .DL_STALECNT, .DL_DUPCNT, .DL_LOSTCNT, .DD_GREQ_SLOT, .DD_GREQ_PEND, .DD_GREQ_RAIL, .DD_GREQDI, .DD_GREQMAX,
      .DD_SSTAT_STATE, .DD_SSTAT_RAIL, .DD_SSTAT_SEQ, .DD_SDI, .DD_SS, .DD_SE, .DD_SDL, .DD_SCON, .DD_SILE0, .EV_WATCH, .EV_TRIP,
      .EV_CHPUB, .EV_CHSUPP, .evLatch, .sgCount, .sgEnd, .sgOpen, .evWakeReq, .addReq, .slS, .slE, .slDl, .slPost, .slReq, .slAdm,
      .slOrd, .slMet, .greqCtr, .katAt, .crcRun, .recEv, .slDi, .greqShown, .postNum, .postFlit, .postFrom,
      .pubSeen] ++ [.arrivals, .commits, .txFlits])
  | .grantRequest _ _ _ _ =>
    some (flds [.LN_FCFLAG_NOADD, .DL_STATE_RXSEQ, .DL_FLAG_STALE, .DL_FLAG_DUP, .DL_FLAG_GAP, .DL_FLAG_BADMSG, .DL_FLAG_TXOVF,
      .DL_STALECNT, .DL_DUPCNT, .DL_LOSTCNT, .DD_GREQ_SLOT, .DD_GREQ_PEND, .DD_GREQ_RAIL, .DD_GREQDI, .DD_GREQMAX,
      .DD_SSTAT_STATE, .DD_SSTAT_RAIL, .DD_SSTAT_SEQ, .DD_SDI, .DD_SS, .DD_SE, .DD_SDL, .DD_SCON, .DD_SILE0, .EV_WATCH, .EV_TRIP,
      .EV_CHPUB, .EV_CHSUPP, .evLatch, .sgCount, .sgEnd, .sgOpen, .evWakeReq, .addReq, .slS, .slE, .slDl, .slPost, .slReq, .slAdm,
      .slOrd, .slMet, .greqCtr, .katAt, .crcRun, .recEv, .slDi, .greqShown, .postNum, .postFlit, .postFrom,
      .pubSeen] ++ [.arrivals, .commits, .txFlits])
  | .forecastCancel _ _ =>
    some (flds [.DL_STATE_RXSEQ, .DL_FLAG_STALE, .DL_FLAG_DUP, .DL_FLAG_GAP, .DL_FLAG_TXOVF, .DL_STALECNT, .DL_DUPCNT,
      .DL_LOSTCNT, .DD_GREQ_SLOT, .DD_GREQ_PEND, .DD_GREQ_RAIL, .DD_GREQDI, .DD_GREQMAX, .DD_SSTAT_STATE, .DD_SCON, .EV_WATCH,
      .EV_TRIP, .EV_CHPUB, .EV_CHSUPP, .evLatch, .sgCount, .sgEnd, .sgOpen, .evWakeReq, .slMet, .katAt, .crcRun, .recEv,
      .greqShown, .pubSeen] ++ [.arrivals, .commits, .txFlits])
  | .activity _ _ =>
    some (flds [.DL_STATE_RXSEQ, .DL_FLAG_STALE, .DL_FLAG_DUP, .DL_FLAG_GAP, .DL_STALECNT, .DL_DUPCNT, .DL_LOSTCNT, .DL_ACT,
      .EV_WATCH, .EV_TRIP, .EV_CHPUB, .EV_CHSUPP, .evLatch, .sgCount, .sgEnd, .sgOpen, .evWakeReq, .katAt, .crcRun, .recEv,
      .pubSeen] ++ [.arrivals])
  | .setreq _ _ =>
    some (flds [.LN_FLAG, .DL_STATE_RXSEQ, .DL_FLAG_STALE, .DL_FLAG_DUP, .DL_FLAG_GAP, .DL_FLAG_TXOVF, .DL_STALECNT, .DL_DUPCNT,
      .DL_LOSTCNT, .EV_WATCH, .EV_TRIP, .EV_CHPUB, .EV_CHSUPP, .evLatch, .sgCount, .sgEnd, .sgOpen, .evWakeReq, .katAt, .crcRun,
      .recEv, .pubSeen] ++ [.writes, .arrivals, .commits, .txFlits])
  | .flitCrcError _ _ => some (flds [.DL_FLAG_CRCRUN, .DL_CRCERR, .lossReq, .crcRun])
  | .reservedFlit _ _ => some (flds [.DL_FLAG_STALE, .DL_FLAG_BADMSG, .DL_STALECNT, .crcRun])
  | .keepaliveTimeout _ => some (flds [.DL_FLAG_KATO, .lossReq])
  | .helloTransmit _ => some (flds [.DL_FLAG_TXOVF, .helloAt] ++ [.txFlits])
  | .telemTransmit _ => some (flds [.DL_FLAG_TXOVF, .telAt, .telNext, .telBurst] ++ [.txFlits, .freeCtr])
  | .flitTransmit _ => some (flds [.DL_TXSEQ, .txLast] ++ [.txFlits])
  | .rampStart _ _ => some (flds [.DD_SSTAT_STATE])
  | .holdStart _ _ => some (flds [.DD_SSTAT_STATE])
  | .forecastMet _ _ => some (flds [.slMet])
  | .forecastMissed _ _ => some (flds [.LN_FCFLAG_MISS, .LN_FCMISS, .DL_FLAG_TXOVF, .DD_SSTAT_STATE] ++ [.txFlits])
  | .unwindDone _ _ =>
    some (flds [.DD_GREQ_SLOT, .DD_GREQ_PEND, .DD_GREQ_RAIL, .DD_GREQDI, .DD_GREQMAX, .DD_SSTAT_STATE, .DD_SCON, .EV_WATCH,
      .EV_TRIP, .EV_CHPUB, .EV_CHSUPP, .evLatch, .sgCount, .sgEnd, .sgOpen, .evWakeReq, .slMet, .recEv, .greqShown,
      .pubSeen] ++ [.arrivals, .commits])
  | .grantTimeout _ _ =>
    some (flds [.DL_FLAG_TXOVF, .DD_GREQ_SLOT, .DD_GREQ_PEND, .DD_GREQ_RAIL, .DD_GREQDI, .DD_GREQMAX, .DD_SSTAT_STATE, .DD_SCON,
      .EV_WATCH, .EV_TRIP, .EV_CHPUB, .EV_CHSUPP, .evLatch, .sgCount, .sgEnd, .sgOpen, .evWakeReq, .slMet, .recEv, .greqShown,
      .pubSeen] ++ [.arrivals, .commits, .txFlits])
  | .grant _ _ =>
    some (flds [.LN_FCFLAG_NOADD, .DL_FLAG_TXOVF, .DD_GREQ_SLOT, .DD_GREQ_PEND, .DD_GREQ_RAIL, .DD_GREQ_CFGERR, .DD_GREQDI,
      .DD_GREQMAX, .DD_GRANT_AMT, .DD_SSTAT_STATE, .DD_SDI, .DD_SS, .DD_SCON, .EV_WATCH, .EV_TRIP, .EV_CHPUB, .EV_CHSUPP,
      .evLatch, .sgCount, .sgEnd, .sgOpen, .evWakeReq, .addReq, .slS, .slMet, .recEv, .slDi, .greqShown, .pubSeen] ++ [.arrivals,
      .commits, .txFlits])
  | .openPort _ _ =>
    some (flds [.HG_STATUS_RQAV, .HG_STATUS_CPLFULL, .HG_PSTAT_EPOCH, .HG_PSTAT_QUSED, .HG_PSTAT_LAST, .tagUse,
      .tagDead] ++ [.hgQueue, .hgCpl])
  | .hgAbort _ _ =>
    some (flds [.HG_STATUS_RQAV, .HG_STATUS_CPLFULL, .HG_PSTAT_QUSED, .HG_PSTAT_LAST, .hgDead, .tagUse, .tagDead] ++ [.hgQueue,
      .hgCpl])
  | .tagQuietEnd _ => some (flds [.tagUse, .tagDead])
  | .getTelem =>
    some (flds [.DM_STATUS_CEILERR, .LN_FLAG, .EV_STATUS_OWNERR, .EV_STATUS_LASTCH, .EV_WATCH, .EV_TRIP, .EV_CHPUB, .EV_CHSUPP,
      .D4_STATUS_RETBUSY, .D4_STATUS_POOLEX, .D4_STATUS_LISTFULL, .D4_CECNT, .D4_UECNT, .D4_ERRADDR, .D4_NRET, .D4_RET_PAGE,
      .D4_RET_V, .D4_RETX_PAGE, .D4_RETX_V, .MS_CE, .ceSeen, .MS_UE, .MS_UEADDR, .RC_STATUS_FROZEN, .RC_STATUS_WINV, .RC_STATUS_STGARMED,
      .RC_STGTRIG, .HG_XCTL_STATUS, .HG_XCLEN_LEN, .HG_CBUF, .fclrReq, .evLatch, .sgCount, .sgEnd, .sgOpen, .evWakeReq, .recEv,
      .recPosting, .recPost, .recFrzAt, .stgOn, .stgLeft, .pubSeen, .retCopy] ++ [.writes, .arrivals, .commits, .soft, .ceTrack,
      .freeCtr])
  | .getStatus =>
    some (flds [.DM_STATUS_CEILERR, .LN_FLAG, .EV_STATUS_OWNERR, .EV_STATUS_LASTCH, .EV_WATCH, .EV_TRIP, .EV_CHPUB, .EV_CHSUPP,
      .D4_STATUS_RETBUSY, .D4_STATUS_POOLEX, .D4_STATUS_LISTFULL, .D4_CECNT, .D4_UECNT, .D4_ERRADDR, .D4_NRET, .D4_RET_PAGE,
      .D4_RET_V, .D4_RETX_PAGE, .D4_RETX_V, .MS_CE, .ceSeen, .MS_UE, .MS_UEADDR, .RC_STATUS_FROZEN, .RC_STATUS_WINV, .RC_STATUS_STGARMED,
      .RC_STGTRIG, .HG_XCTL_STATUS, .HG_XCLEN_LEN, .HG_CBUF, .fclrReq, .evLatch, .sgCount, .sgEnd, .sgOpen, .evWakeReq, .recEv,
      .recPosting, .recPost, .recFrzAt, .stgOn, .stgLeft, .pubSeen, .retCopy] ++ [.writes, .arrivals, .commits, .soft, .ceTrack,
      .freeCtr])
  | .setVout =>
    some (flds [.DM_STATUS_CEILERR, .LN_FLAG, .EV_STATUS_OWNERR, .EV_STATUS_LASTCH, .EV_WATCH, .EV_TRIP, .EV_CHPUB, .EV_CHSUPP,
      .D4_STATUS_RETBUSY, .D4_STATUS_POOLEX, .D4_STATUS_LISTFULL, .D4_CECNT, .D4_UECNT, .D4_ERRADDR, .D4_NRET, .D4_RET_PAGE,
      .D4_RET_V, .D4_RETX_PAGE, .D4_RETX_V, .MS_CE, .ceSeen, .MS_UE, .MS_UEADDR, .RC_STATUS_FROZEN, .RC_STATUS_WINV, .RC_STATUS_STGARMED,
      .RC_STGTRIG, .HG_XCTL_STATUS, .HG_XCLEN_LEN, .HG_CBUF, .fclrReq, .evLatch, .sgCount, .sgEnd, .sgOpen, .evWakeReq, .recEv,
      .recPosting, .recPost, .recFrzAt, .stgOn, .stgLeft, .pubSeen, .retCopy] ++ [.writes, .arrivals, .commits, .soft, .ceTrack,
      .freeCtr])
  | .setEnable =>
    some (flds [.DM_STATUS_CEILERR, .LN_FLAG, .EV_STATUS_OWNERR, .EV_STATUS_LASTCH, .EV_WATCH, .EV_TRIP, .EV_CHPUB, .EV_CHSUPP,
      .D4_STATUS_RETBUSY, .D4_STATUS_POOLEX, .D4_STATUS_LISTFULL, .D4_CECNT, .D4_UECNT, .D4_ERRADDR, .D4_NRET, .D4_RET_PAGE,
      .D4_RET_V, .D4_RETX_PAGE, .D4_RETX_V, .MS_CE, .ceSeen, .MS_UE, .MS_UEADDR, .RC_STATUS_FROZEN, .RC_STATUS_WINV, .RC_STATUS_STGARMED,
      .RC_STGTRIG, .HG_XCTL_STATUS, .HG_XCLEN_LEN, .HG_CBUF, .fclrReq, .evLatch, .sgCount, .sgEnd, .sgOpen, .evWakeReq, .recEv,
      .recPosting, .recPost, .recFrzAt, .stgOn, .stgLeft, .pubSeen, .retCopy] ++ [.writes, .arrivals, .commits, .soft, .ceTrack,
      .freeCtr])
  | .clearFault =>
    some (flds [.DM_STATUS_CEILERR, .LN_FLAG, .EV_STATUS_OWNERR, .EV_STATUS_LASTCH, .EV_WATCH, .EV_TRIP, .EV_CHPUB, .EV_CHSUPP,
      .D4_STATUS_RETBUSY, .D4_STATUS_POOLEX, .D4_STATUS_LISTFULL, .D4_CECNT, .D4_UECNT, .D4_ERRADDR, .D4_NRET, .D4_RET_PAGE,
      .D4_RET_V, .D4_RETX_PAGE, .D4_RETX_V, .MS_CE, .ceSeen, .MS_UE, .MS_UEADDR, .RC_STATUS_FROZEN, .RC_STATUS_WINV, .RC_STATUS_STGARMED,
      .RC_STGTRIG, .HG_XCTL_STATUS, .HG_XCLEN_LEN, .HG_CBUF, .fclrReq, .evLatch, .sgCount, .sgEnd, .sgOpen, .evWakeReq, .recEv,
      .recPosting, .recPost, .recFrzAt, .stgOn, .stgLeft, .pubSeen, .retCopy] ++ [.writes, .arrivals, .commits, .soft, .ceTrack,
      .freeCtr])
  | .setSlew =>
    some (flds [.DM_STATUS_CEILERR, .LN_FLAG, .EV_STATUS_OWNERR, .EV_STATUS_LASTCH, .EV_WATCH, .EV_TRIP, .EV_CHPUB, .EV_CHSUPP,
      .D4_STATUS_RETBUSY, .D4_STATUS_POOLEX, .D4_STATUS_LISTFULL, .D4_CECNT, .D4_UECNT, .D4_ERRADDR, .D4_NRET, .D4_RET_PAGE,
      .D4_RET_V, .D4_RETX_PAGE, .D4_RETX_V, .MS_CE, .ceSeen, .MS_UE, .MS_UEADDR, .RC_STATUS_FROZEN, .RC_STATUS_WINV, .RC_STATUS_STGARMED,
      .RC_STGTRIG, .HG_XCTL_STATUS, .HG_XCLEN_LEN, .HG_CBUF, .fclrReq, .evLatch, .sgCount, .sgEnd, .sgOpen, .evWakeReq, .recEv,
      .recPosting, .recPost, .recFrzAt, .stgOn, .stgLeft, .pubSeen, .retCopy] ++ [.writes, .arrivals, .commits, .soft, .ceTrack,
      .freeCtr])
  | .setLimitIlim =>
    some (flds [.DM_STATUS_CEILERR, .LN_FLAG, .EV_STATUS_OWNERR, .EV_STATUS_LASTCH, .EV_WATCH, .EV_TRIP, .EV_CHPUB, .EV_CHSUPP,
      .D4_STATUS_RETBUSY, .D4_STATUS_POOLEX, .D4_STATUS_LISTFULL, .D4_CECNT, .D4_UECNT, .D4_ERRADDR, .D4_NRET, .D4_RET_PAGE,
      .D4_RET_V, .D4_RETX_PAGE, .D4_RETX_V, .MS_CE, .ceSeen, .MS_UE, .MS_UEADDR, .RC_STATUS_FROZEN, .RC_STATUS_WINV, .RC_STATUS_STGARMED,
      .RC_STGTRIG, .HG_XCTL_STATUS, .HG_XCLEN_LEN, .HG_CBUF, .fclrReq, .evLatch, .sgCount, .sgEnd, .sgOpen, .evWakeReq, .recEv,
      .recPosting, .recPost, .recFrzAt, .stgOn, .stgLeft, .pubSeen, .retCopy] ++ [.writes, .arrivals, .commits, .soft, .ceTrack,
      .freeCtr])
  | .setLimitIallot =>
    some (flds [.DM_STATUS_CEILERR, .LN_FLAG, .EV_STATUS_OWNERR, .EV_STATUS_LASTCH, .EV_WATCH, .EV_TRIP, .EV_CHPUB, .EV_CHSUPP,
      .D4_STATUS_RETBUSY, .D4_STATUS_POOLEX, .D4_STATUS_LISTFULL, .D4_CECNT, .D4_UECNT, .D4_ERRADDR, .D4_NRET, .D4_RET_PAGE,
      .D4_RET_V, .D4_RETX_PAGE, .D4_RETX_V, .MS_CE, .ceSeen, .MS_UE, .MS_UEADDR, .RC_STATUS_FROZEN, .RC_STATUS_WINV, .RC_STATUS_STGARMED,
      .RC_STGTRIG, .HG_XCTL_STATUS, .HG_XCLEN_LEN, .HG_CBUF, .fclrReq, .evLatch, .sgCount, .sgEnd, .sgOpen, .evWakeReq, .recEv,
      .recPosting, .recPost, .recFrzAt, .stgOn, .stgLeft, .pubSeen, .retCopy] ++ [.writes, .arrivals, .commits, .soft, .ceTrack,
      .freeCtr])
  | .setLimitPallot =>
    some (flds [.DM_STATUS_CEILERR, .LN_FLAG, .EV_STATUS_OWNERR, .EV_STATUS_LASTCH, .EV_WATCH, .EV_TRIP, .EV_CHPUB, .EV_CHSUPP,
      .D4_STATUS_RETBUSY, .D4_STATUS_POOLEX, .D4_STATUS_LISTFULL, .D4_CECNT, .D4_UECNT, .D4_ERRADDR, .D4_NRET, .D4_RET_PAGE,
      .D4_RET_V, .D4_RETX_PAGE, .D4_RETX_V, .MS_CE, .ceSeen, .MS_UE, .MS_UEADDR, .RC_STATUS_FROZEN, .RC_STATUS_WINV, .RC_STATUS_STGARMED,
      .RC_STGTRIG, .HG_XCTL_STATUS, .HG_XCLEN_LEN, .HG_CBUF, .fclrReq, .evLatch, .sgCount, .sgEnd, .sgOpen, .evWakeReq, .recEv,
      .recPosting, .recPost, .recFrzAt, .stgOn, .stgLeft, .pubSeen, .retCopy] ++ [.writes, .arrivals, .commits, .soft, .ceTrack,
      .freeCtr])
  | .recRead =>
    some (flds [.DM_STATUS_CEILERR, .LN_FLAG, .EV_STATUS_OWNERR, .EV_STATUS_LASTCH, .EV_WATCH, .EV_TRIP, .EV_CHPUB, .EV_CHSUPP,
      .D4_STATUS_RETBUSY, .D4_STATUS_POOLEX, .D4_STATUS_LISTFULL, .D4_CECNT, .D4_UECNT, .D4_ERRADDR, .D4_NRET, .D4_RET_PAGE,
      .D4_RET_V, .D4_RETX_PAGE, .D4_RETX_V, .MS_CE, .ceSeen, .MS_UE, .MS_UEADDR, .RC_STATUS_FROZEN, .RC_STATUS_WINV, .RC_STATUS_STGARMED,
      .RC_STGTRIG, .HG_XCTL_STATUS, .HG_XCLEN_LEN, .HG_CBUF, .fclrReq, .evLatch, .sgCount, .sgEnd, .sgOpen, .evWakeReq, .recEv,
      .recPosting, .recPost, .recFrzAt, .stgOn, .stgLeft, .pubSeen, .retCopy] ++ [.writes, .arrivals, .commits, .soft, .ceTrack,
      .freeCtr])
  | .recCtrlFrznow =>
    some (flds [.DM_STATUS_CEILERR, .LN_FLAG, .EV_STATUS_OWNERR, .EV_STATUS_LASTCH, .EV_WATCH, .EV_TRIP, .EV_CHPUB, .EV_CHSUPP,
      .D4_STATUS_RETBUSY, .D4_STATUS_POOLEX, .D4_STATUS_LISTFULL, .D4_CECNT, .D4_UECNT, .D4_ERRADDR, .D4_NRET, .D4_RET_PAGE,
      .D4_RET_V, .D4_RETX_PAGE, .D4_RETX_V, .MS_CE, .ceSeen, .MS_UE, .MS_UEADDR, .RC_STATUS_FROZEN, .RC_STATUS_WINV, .RC_STATUS_STGARMED,
      .RC_STGTRIG, .HG_XCTL_STATUS, .HG_XCLEN_LEN, .HG_CBUF, .fclrReq, .evLatch, .sgCount, .sgEnd, .sgOpen, .evWakeReq, .recEv,
      .recPosting, .recPost, .recFrzAt, .stgOn, .stgLeft, .pubSeen, .retCopy] ++ [.writes, .arrivals, .commits, .soft, .ceTrack,
      .freeCtr])
  | .recCtrlResume =>
    some (flds [.DM_STATUS_CEILERR, .LN_FLAG, .EV_STATUS_OWNERR, .EV_STATUS_LASTCH, .EV_WATCH, .EV_TRIP, .EV_CHPUB, .EV_CHSUPP,
      .D4_STATUS_RETBUSY, .D4_STATUS_POOLEX, .D4_STATUS_LISTFULL, .D4_CECNT, .D4_UECNT, .D4_ERRADDR, .D4_NRET, .D4_RET_PAGE,
      .D4_RET_V, .D4_RETX_PAGE, .D4_RETX_V, .MS_CE, .ceSeen, .MS_UE, .MS_UEADDR, .RC_STATUS_FROZEN, .RC_STATUS_WINV, .RC_STATUS_STGARMED,
      .RC_STGTRIG, .HG_XCTL_STATUS, .HG_XCLEN_LEN, .HG_CBUF, .fclrReq, .evLatch, .sgCount, .sgEnd, .sgOpen, .evWakeReq, .recEv,
      .recPosting, .recPost, .recFrzAt, .stgOn, .stgLeft, .pubSeen, .retCopy] ++ [.writes, .arrivals, .commits, .soft, .ceTrack,
      .freeCtr])
  | .recCtrlStgarm =>
    some (flds [.DM_STATUS_CEILERR, .LN_FLAG, .EV_STATUS_OWNERR, .EV_STATUS_LASTCH, .EV_WATCH, .EV_TRIP, .EV_CHPUB, .EV_CHSUPP,
      .D4_STATUS_RETBUSY, .D4_STATUS_POOLEX, .D4_STATUS_LISTFULL, .D4_CECNT, .D4_UECNT, .D4_ERRADDR, .D4_NRET, .D4_RET_PAGE,
      .D4_RET_V, .D4_RETX_PAGE, .D4_RETX_V, .MS_CE, .ceSeen, .MS_UE, .MS_UEADDR, .RC_STATUS_FROZEN, .RC_STATUS_WINV, .RC_STATUS_STGARMED,
      .RC_STGTRIG, .HG_XCTL_STATUS, .HG_XCLEN_LEN, .HG_CBUF, .fclrReq, .evLatch, .sgCount, .sgEnd, .sgOpen, .evWakeReq, .recEv,
      .recPosting, .recPost, .recFrzAt, .stgOn, .stgLeft, .pubSeen, .retCopy] ++ [.writes, .arrivals, .commits, .soft, .ceTrack,
      .freeCtr])
  | .recCtrlTrig =>
    some (flds [.DM_STATUS_CEILERR, .LN_FLAG, .EV_STATUS_OWNERR, .EV_STATUS_LASTCH, .EV_WATCH, .EV_TRIP, .EV_CHPUB, .EV_CHSUPP,
      .D4_STATUS_RETBUSY, .D4_STATUS_POOLEX, .D4_STATUS_LISTFULL, .D4_CECNT, .D4_UECNT, .D4_ERRADDR, .D4_NRET, .D4_RET_PAGE,
      .D4_RET_V, .D4_RETX_PAGE, .D4_RETX_V, .MS_CE, .ceSeen, .MS_UE, .MS_UEADDR, .RC_STATUS_FROZEN, .RC_STATUS_WINV, .RC_STATUS_STGARMED,
      .RC_STGTRIG, .HG_XCTL_STATUS, .HG_XCLEN_LEN, .HG_CBUF, .fclrReq, .evLatch, .sgCount, .sgEnd, .sgOpen, .evWakeReq, .recEv,
      .recPosting, .recPost, .recFrzAt, .stgOn, .stgLeft, .pubSeen, .retCopy] ++ [.writes, .arrivals, .commits, .soft, .ceTrack,
      .freeCtr])
  | .stgRead =>
    some (flds [.DM_STATUS_CEILERR, .LN_FLAG, .EV_STATUS_OWNERR, .EV_STATUS_LASTCH, .EV_WATCH, .EV_TRIP, .EV_CHPUB, .EV_CHSUPP,
      .D4_STATUS_RETBUSY, .D4_STATUS_POOLEX, .D4_STATUS_LISTFULL, .D4_CECNT, .D4_UECNT, .D4_ERRADDR, .D4_NRET, .D4_RET_PAGE,
      .D4_RET_V, .D4_RETX_PAGE, .D4_RETX_V, .MS_CE, .ceSeen, .MS_UE, .MS_UEADDR, .RC_STATUS_FROZEN, .RC_STATUS_WINV, .RC_STATUS_STGARMED,
      .RC_STGTRIG, .HG_XCTL_STATUS, .HG_XCLEN_LEN, .HG_CBUF, .fclrReq, .evLatch, .sgCount, .sgEnd, .sgOpen, .evWakeReq, .recEv,
      .recPosting, .recPost, .recFrzAt, .stgOn, .stgLeft, .pubSeen, .retCopy] ++ [.writes, .arrivals, .commits, .soft, .ceTrack,
      .freeCtr])
  | .event =>
    some (flds [.DM_STATUS_CEILERR, .LN_FLAG, .EV_STATUS_OWNERR, .EV_STATUS_LASTCH, .EV_WATCH, .EV_TRIP, .EV_CHPUB, .EV_CHSUPP,
      .D4_STATUS_RETBUSY, .D4_STATUS_POOLEX, .D4_STATUS_LISTFULL, .D4_CECNT, .D4_UECNT, .D4_ERRADDR, .D4_NRET, .D4_RET_PAGE,
      .D4_RET_V, .D4_RETX_PAGE, .D4_RETX_V, .MS_CE, .ceSeen, .MS_UE, .MS_UEADDR, .RC_STATUS_FROZEN, .RC_STATUS_WINV, .RC_STATUS_STGARMED,
      .RC_STGTRIG, .HG_XCTL_STATUS, .HG_XCLEN_LEN, .HG_CBUF, .fclrReq, .evLatch, .sgCount, .sgEnd, .sgOpen, .evWakeReq, .recEv,
      .recPosting, .recPost, .recFrzAt, .stgOn, .stgLeft, .pubSeen, .retCopy] ++ [.writes, .arrivals, .commits, .soft, .ceTrack,
      .freeCtr])
  | .execTimeout _ =>
    some (flds [.HG_STATUS_RQAV, .HG_STATUS_CPLFULL, .HG_PSTAT_QUSED, .HG_PSTAT_LAST, .HG_STALE, .hgDead, .pmbCml, .avsAlert,
      .vdPend] ++ [.hgQueue, .hgCpl])
  | .take =>
    some (flds [.HG_STATUS_RQAV, .HG_STATUS_CPLFULL, .HG_XHDR0_TYPE, .HG_XHDR0_TAG, .HG_XHDR1_EPOCH, .HG_XHDR1_PORT, .HG_XHDR1_XV,
      .HG_XHDR1_TARGET, .HG_XHDR2_LEN, .HG_XCTL_STATUS, .HG_XCLEN_LEN, .HG_PSTAT_QUSED, .HG_STALE, .HG_XBUF, .HG_CBUF, .hgNext,
      .hgDead] ++ [.hgQueue, .hgTaken])
  | .hgDone =>
    some (flds [.HG_STATUS_RQAV, .HG_STATUS_CPLFULL, .HG_XHDR1_XV, .HG_PSTAT_QUSED, .HG_PSTAT_LAST, .HG_STALE, .hgDead, .pmbCml,
      .avsAlert, .vdPend] ++ [.hgTaken, .hgCpl])
  | .prst _ => some (flds [.HG_PSTAT_EPOCH, .HG_PARTIAL] ++ [.avsHeld, .freeCtr])
  | .mspiWrite _ =>
    some (flds [.HG_STATUS_RQAV, .HG_STATUS_CPLFULL, .HG_PSTAT_EPOCH, .HG_PSTAT_QUSED, .HG_PSTAT_LAST, .HG_FRAMEERR, .HG_STALE,
      .HG_TAGDUP, .HG_QFULL, .hgDead, .tagUse, .tagDead] ++ [.hgQueue, .hgCpl])
  | .mspiRead _ =>
    some (flds [.HG_STATUS_RQAV, .HG_STATUS_CPLFULL, .HG_PSTAT_QUSED, .tagUse, .tagDead, .tagQuiet] ++ [.hgCpl, .hostOut])
  | .mspiStat => some ([.hostOut])
  | .frameTimeout => some (flds [.HG_PARTIAL])
  | .smbusTimeout => some (flds [.HG_PARTIAL])
  | .pmbPage _ => some (flds [.HG_PSTAT_LAST, .pmbPage, .pmbCml, .hostAck] ++ [.hostOut])
  | .operationOff _ =>
    some (flds [.HG_STATUS_RQAV, .HG_STATUS_CPLFULL, .HG_PSTAT_QUSED, .hgTag, .pmbOper, .pmbCml, .hostAck] ++ [.hgQueue,
      .hostOut])
  | .operationOn _ =>
    some (flds [.HG_STATUS_RQAV, .HG_STATUS_CPLFULL, .HG_PSTAT_QUSED, .hgTag, .pmbOper, .pmbCml, .hostAck] ++ [.hgQueue,
      .hostOut])
  | .operationMarginLow _ =>
    some (flds [.HG_STATUS_RQAV, .HG_STATUS_CPLFULL, .HG_PSTAT_QUSED, .hgTag, .pmbOper, .pmbCml, .hostAck] ++ [.hgQueue,
      .hostOut])
  | .operationMarginHigh _ =>
    some (flds [.HG_STATUS_RQAV, .HG_STATUS_CPLFULL, .HG_PSTAT_QUSED, .hgTag, .pmbOper, .pmbCml, .hostAck] ++ [.hgQueue,
      .hostOut])
  | .onOffConfig _ => some (flds [.HG_PSTAT_LAST, .pmbOnOff, .pmbCml, .hostAck] ++ [.hostOut])
  | .clearFaults _ => some (flds [.HG_PSTAT_LAST, .HG_CACHE, .pmbCml, .hostAck])
  | .pmbPhase _ => some (flds [.HG_PSTAT_LAST, .pmbPhase, .pmbCml, .hostAck] ++ [.hostOut])
  | .writeProtect _ => some (flds [.pmbWp, .pmbCml, .hostAck] ++ [.hostOut])
  | .capability => some (flds [.hostAck] ++ [.hostOut])
  | .voutMode => some (flds [.hostAck] ++ [.hostOut])
  | .voutCommand _ =>
    some (flds [.HG_STATUS_RQAV, .HG_STATUS_CPLFULL, .HG_PSTAT_QUSED, .hgTag, .pmbNom, .pmbCml, .hostAck] ++ [.hgQueue, .hostOut])
  | .voutMax => some (flds [.pmbCml, .hostAck] ++ [.hostOut])
  | .voutMarginHigh _ => some (flds [.HG_PSTAT_LAST, .pmbHigh, .pmbCml, .hostAck] ++ [.hostOut])
  | .voutMarginLow _ => some (flds [.HG_PSTAT_LAST, .pmbLow, .pmbCml, .hostAck] ++ [.hostOut])
  | .voutTransitionRate _ =>
    some (flds [.HG_STATUS_RQAV, .HG_STATUS_CPLFULL, .HG_PSTAT_QUSED, .hgTag, .pmbRate, .pmbCml, .hostAck] ++ [.hgQueue,
      .hostOut])
  | .coefficients _ => some (flds [.pmbCml, .hostAck] ++ [.hostOut])
  | .ioutOcFaultLimit _ =>
    some (flds [.HG_STATUS_RQAV, .HG_STATUS_CPLFULL, .HG_PSTAT_QUSED, .hgTag, .pmbLim, .pmbCml, .hostAck] ++ [.hgQueue, .hostOut])
  | .statusByte => some (flds [.pmbCml, .hostAck] ++ [.hostOut])
  | .statusWord => some (flds [.pmbCml, .hostAck] ++ [.hostOut])
  | .statusVout => some (flds [.pmbCml, .hostAck] ++ [.hostOut])
  | .statusIout => some (flds [.pmbCml, .hostAck] ++ [.hostOut])
  | .statusInput => some (flds [.pmbCml, .hostAck] ++ [.hostOut])
  | .statusTemperature => some (flds [.pmbCml, .hostAck] ++ [.hostOut])
  | .statusCml => some (flds [.pmbCml, .hostAck] ++ [.hostOut])
  | .statusMfrSpecific => some (flds [.pmbCml, .hostAck] ++ [.hostOut])
  | .readVin => some (flds [.pmbCml, .hostAck] ++ [.hostOut])
  | .readVout => some (flds [.pmbCml, .hostAck] ++ [.hostOut])
  | .readIout => some (flds [.pmbCml, .hostAck] ++ [.hostOut])
  | .readTemperature1 => some (flds [.pmbCml, .hostAck] ++ [.hostOut])
  | .readPout => some (flds [.pmbCml, .hostAck] ++ [.hostOut])
  | .pmbusRevision => some (flds [.hostAck] ++ [.hostOut])
  | .mfrId => some (flds [.hostAck] ++ [.hostOut])
  | .mfrModel => some (flds [.hostAck] ++ [.hostOut])
  | .mfrHgLast => some (flds [.hostAck] ++ [.hostOut])
  | .alertResponse => some (flds [.hostAck] ++ [.hostOut])
  | .pmbCtrlChange _ => some (flds [.HG_STATUS_RQAV, .HG_STATUS_CPLFULL, .HG_PSTAT_QUSED, .hgTag, .pmbCtrl] ++ [.hgQueue])
  | .avsVoltageWrite _ _ _ _ =>
    some (flds [.HG_STATUS_RQAV, .HG_STATUS_CPLFULL, .HG_PSTAT_QUSED, .HG_QFULL, .hgTag, .vdPend, .vdCode, .hostAck] ++ [.hgQueue,
      .avsHeld])
  | .avsVoltageRead _ _ => some (flds [.hostAck] ++ [.hostOut])
  | .avsVouttransrateWrite _ _ _ _ _ =>
    some (flds [.HG_STATUS_RQAV, .HG_STATUS_CPLFULL, .HG_PSTAT_QUSED, .HG_QFULL, .hgTag, .hostAck] ++ [.hgQueue, .avsHeld])
  | .avsVouttransrateRead _ _ => some (flds [.hostAck] ++ [.hostOut])
  | .avsCurrent _ _ => some (flds [.hostAck] ++ [.hostOut])
  | .avsTemperature _ _ => some (flds [.hostAck] ++ [.hostOut])
  | .avsResetvoltage _ _ _ =>
    some (flds [.HG_STATUS_RQAV, .HG_STATUS_CPLFULL, .HG_PSTAT_QUSED, .HG_QFULL, .hgTag, .vdPend, .vdCode, .hostAck] ++ [.hgQueue,
      .avsHeld])
  | .avsStatusRead _ _ => some (flds [.hostAck] ++ [.hostOut])
  | .avsStatusWrite _ _ _ => some (flds [.avsAlert, .hostAck])
  | .avsVersion _ _ => some (flds [.hostAck] ++ [.hostOut])
  | .avsCommit _ =>
    some (flds [.HG_STATUS_RQAV, .HG_STATUS_CPLFULL, .HG_PSTAT_QUSED, .HG_QFULL, .hgTag, .hostAck] ++ [.hgQueue, .avsHeld])
  | .avsCrcError _ => some (flds [.HG_FRAMEERR, .hostAck])
  | .scrubGo => some (flds [.MS_SCRUBCTL_BUSY, .MS_SCRUBCTL_ERR])
  | .scrubDone _ _ =>
    some (flds [.UC_ECC, .UC_UEADDR_MW, .UC_UEADDR_CORE, .UC_UEADDR_V, .D4_STATUS_RETBUSY, .D4_STATUS_POOLEX, .D4_STATUS_LISTFULL,
      .D4_CECNT, .D4_UECNT, .D4_ERRADDR, .D4_NRET, .D4_RET_PAGE, .D4_RET_V, .D4_RETX_PAGE, .D4_RETX_V, .MS_CE, .ceSeen, .ceMore, .MS_UE,
      .MS_UEADDR, .MS_SCRUBCTL_MEM, .MS_SCRUBCTL_BUSY, .MS_SCRUBCTL_DONE, .MS_SCRUBCTL_ERR, .MS_SCRUBADDR, .MS_SCRUBRES_CE, .MS_SCRUBRES_UE,
      .decCopy, .memBad, .ucBad, .scrubU, .scrubW, .scrubP, .scrubLeftU, .scrubLeftW, .scrubLeftP, .retCopy] ++ [.soft, .softUc,
      .ceTrack])
  | .imgBegin =>
    some (flds [.HG_XCTL_STATUS, .HG_XCLEN_LEN, .HG_CBUF, .IM_UPD_OFS, .IM_UPD_KIND, .IM_UPD_SLOT, .flashBusy] ++ [.flash])
  | .imgWrite => some (flds [.HG_XCTL_STATUS, .HG_XCLEN_LEN, .HG_CBUF, .IM_UPD_OFS, .flashBusy] ++ [.flash])
  | .imgVerify => some (flds [.HG_XCTL_STATUS, .HG_XCLEN_LEN, .HG_CBUF, .verDue])
  | .imgStatus => some (flds [.HG_XCTL_STATUS, .HG_XCLEN_LEN, .HG_CBUF])
  | .imRsdone _ => some (flds [.IM_ERR_RSERR, .rsDone])
  | .attest => some (flds [.PH_STATUS_SUMBUSY, .HG_XCTL_STATUS, .HG_XCLEN_LEN, .HG_CBUF, .snapReq, .attPend])
  | .getIdentity => some (flds [.HG_XCTL_STATUS, .HG_XCLEN_LEN, .HG_CBUF])
  | .getChallenge => some (flds [.HG_XCTL_STATUS, .HG_XCLEN_LEN, .HG_CBUF] ++ [.challenge, .freeCtr])
  | .keyProgram =>
    some (flds [.HG_XCTL_STATUS, .HG_XCLEN_LEN, .HG_CBUF, .IM_STATE_PROV, .OT_STATUS_KSACT, .OT_STATUS_KSPROG] ++ [.challenge,
      .keyHashes, .freeCtr])
  | .keyRevoke =>
    some (flds [.HG_XCTL_STATUS, .HG_XCLEN_LEN, .HG_CBUF, .IM_STATE_PROV, .OT_STATUS_KSACT, .OT_STATUS_KSREV,
      .verOk] ++ [.challenge, .freeCtr])
  | .dbgLock => some (flds [.HG_XCTL_STATUS, .HG_XCLEN_LEN, .HG_CBUF, .OT_STATUS_DBGLOCK] ++ [.challenge, .freeCtr])
  | .imageVerified =>
    some (flds [.HG_XCTL_STATUS, .HG_XCLEN_LEN, .HG_CBUF, .IM_VRES_CODE, .IM_VRES_KIND, .verOk, .verSlot, .verVer, .verKey,
      .verDue])
  | .warmStart _ =>
    some (flds [.LN_FLAG, .EV_WATCH, .EV_TRIP, .EV_CHPUB, .EV_CHSUPP, .XC_STATUS_SB, .RC_STATUS_WINV, .RC_STATUS_STGARMED,
      .RC_STGMASK, .RC_STGTRGMASK, .RC_STGPRE, .IM_STATE_WARM, .IM_STATE_NOFW, .IM_STATE_SLOT, .IM_STATE_FALLBK, .IM_STEPT,
      .IM_TRIAL_RUN, .IM_TRIAL_FAIL, .IM_VRES_CODE, .IM_VRES_KIND, .DR_IDSTAT_CODE, .evLatch, .sgCount, .sgEnd, .sgOpen,
      .evWakeReq, .coreD, .coreP, .coreA, .coreRc, .repCnt, .loopCnt, .corePc, .swC, .swV, .swZ, .swN, .swSat, .swDz, .swDzt,
      .swIe, .swPriv, .repOn, .loopOn, .loopStart, .loopEnd, .coreOn, .coreHalt, .coreDbg, .coreWait, .waitReg, .divOn, .divQ,
      .divR, .divQv, .divRv, .divV, .divDz, .divOld, .macOn, .macA, .macVal, .macV, .macOld, .irPres, .memBad, .recEv, .stgOn,
      .warmDue, .wdOn, .wdLeft, .imgVer, .trialEnd, .ckDue, .telN, .telPn, .telAct, .telV, .telVmin, .telVmax, .telI, .telImax,
      .telP, .telPh, .pubSeen, .fqBase, .fqLen, .fqWord, .lbPhase, .lbOn, .lbWord, .fetched, .idStage] ++ [.mem, .writes,
      .arrivals, .commits, .stores, .traps, .flash, .digests, .logQueue, .soft])
  | .go => some (flds [.IM_ERR_GOERR, .goDue])
  | .pllLock _ => some (flds [.PW_CLK_MPLOCK, .PW_CLK_DPLOCK, .PW_CLK_LPLOCK])
  | .ddrPllUnlock => some (flds [.D4_STATUS_RDY, .D4_STATUS_TRAINERR, .RC_CTRL_EN, .RC_STATUS_NODDR, .PW_CLK_DPLOCK])
  | .lanePllUnlock _ => some (flds [.DL_STATE_STATE, .PW_CLK_LPLOCK, .lkLock, .lossReq])
  | .tickCoreRun _ _ =>
    some (flds [.XC_VBASE, .XC_CTRL_LOCK, .XC_STATUS_DEPTH, .XC_STATUS_RM, .XC_STATUS_MCIP, .XC_STATUS_SB, .XC_STATUS_DFHALT,
      .XC_XPC, .XC_XSW, .XC_XENT_REPV, .XC_XENT_LOOPV, .XC_XLS, .XC_XLE, .XC_XCAUSE, .XC_XFADDR, .XC_GTBASE, .XC_ASID_ASID,
      .XC_MMU_TEN, .XC_MMU_WIRED, .XC_MMU_MULTI, .XC_MMU_RP, .XC_PTROOT, .XC_TLBVA_VA, .XC_TLBVA_ASID, .XC_TLBWADDR, .XC_TLBIDX,
      .XC_TLBTAG_VPN, .XC_TLBTAG_ASID, .XC_TLBTAG_SZ, .XC_TLBTAG_G, .XC_TLBTAG_V, .XC_TLBPTE, .MPU_BASE_EN, .MPU_BASE_R,
      .MPU_BASE_W, .MPU_BASE_X, .MPU_BASE_BASE, .MPU_LIM, .XC_MPUCTL_EN, .IR_SRCST_ACT, .IR_CRUN_RUN, .IR_CRUN_NACT,
      .LS_PAIR_STATE, .PW_TCCTL_RUN, .evLatch, .coreD, .coreP, .coreUsp, .coreA, .coreRc, .repCnt, .loopCnt, .corePc, .swC, .swV,
      .swZ, .swN, .swSat, .swDz, .swDzt, .swIe, .swPriv, .repOn, .loopOn, .loopStart, .loopEnd, .coreOn, .coreHalt, .coreDbg,
      .coreWait, .waitReg, .divOn, .divQ, .divR, .divQv, .divRv, .divV, .divDz, .divOld, .macOn, .macA, .macVal, .macV, .macOld,
      .recKind, .recPriv, .recRm, .recMc, .recClaim, .frameAt, .missWr, .tlbV, .tlbVpn, .tlbAsid, .tlbSz, .tlbG, .tlbPte,
      .irOwner, .irPres, .fqBase, .fqLen, .fqWord, .lbPhase, .lbOn, .lbWord, .fetched, .icOn, .icWord, .dcOn,
      .dcWord] ++ [.stores, .traps])
  | .tapReset => some (flds [.enableHold, .tapIr, .tapErr])
  | .watchdogKick _ => some (flds [.wdOn, .wdLeft])
  | .sleepRequest _ => some (flds [.PW_CTRL_SLEEP, .PW_STATE_REQERR])
  | .wake _ =>
    some (flds [.FL_STATUS_RDY, .DL_STATE_STATE, .DD_GREQ_SLOT, .DD_GREQ_PEND, .DD_GREQ_RAIL, .DD_GREQDI, .DD_GREQMAX,
      .DD_SSTAT_STATE, .DD_SCON, .EV_WATCH, .EV_TRIP, .EV_CHPUB, .EV_CHSUPP, .D4_STATUS_SREF, .PW_CTRL_SLEEP, .PW_STATE_WSRC,
      .PW_WAKEID, .PW_SLEEPT, .evLatch, .sgCount, .sgEnd, .sgOpen, .evWakeReq, .sleepMode, .flumeOn, .flumeFrom, .wakeReq, .slMet,
      .lkLock, .lossReq, .crcRun, .fbReq, .irEdge, .irPrev, .irWinEnd, .irStrAt, .irPres, .irWakeReq, .recEv, .wdOn, .wdLeft,
      .supen, .resumeDue, .greqShown, .pubSeen] ++ [.arrivals, .commits, .txFlits])
  | .extest => some (flds [.enableHold, .tapIr, .tapErr, .tapAt, .tapOut])
  | .idcode => some (flds [.enableHold, .tapIr, .tapErr, .tapOut])
  | .samplePreload _ => some (flds [.enableHold, .tapIr, .tapErr, .tapOut, .tapCells])
  | .clamp => some (flds [.enableHold, .tapIr, .tapErr, .tapAt, .tapOut])
  | .highz => some (flds [.enableHold, .tapIr, .tapErr, .tapAt, .tapOut])
  | .bypass => some (flds [.enableHold, .tapIr, .tapErr, .tapOut])
  | .wakeFallingEdge =>
    some (flds [.EV_WATCH, .EV_TRIP, .EV_CHPUB, .EV_CHSUPP, .evLatch, .sgCount, .sgEnd, .sgOpen, .evWakeReq, .recEv,
      .pubSeen] ++ [.arrivals])
  | .pmbusUnsupportedCommand => some (flds [.pmbCml, .hostAck])
  | .smbusMidByteStartStop => some (flds [.HG_PARTIAL])
  | .mspiOtherCommandByte => some (flds [.HG_FRAMEERR])
  | .avsUnsupportedDataType _ => some (flds [.hostAck])
  | .signingDone => some (flds [.HG_XCTL_STATUS, .HG_XCLEN_LEN, .HG_CBUF, .attPend, .sigNo] ++ [.freeCtr])
  | .flashBusyEnd => some (flds [.flashBusy] ++ [.flash, .logQueue])
  | _ => none

end Sys2Proof.Machine
end

