-- ==== Sys2Proof/Certificates/Slice0/Obligations.lean ====
section
/-! DEFINITION. What the provers prove of the model: one statement per group of commands or kind of state, and the statements about
every command and every step. Each docstring names the rules of spec/ that a statement rests on; OBLIGATIONS.json lists them. -/
open Sys2Proof Sys2Proof.Machine

/-- A step runs the command at the front of the queue on the state with the queue's rest, and idles on an empty queue.
A step takes the command at the front of the queue and runs it on the state with the queue's rest; on an empty queue the block idles
(the model's choice, log entry 6).
Rests on the model's choices: the idle step (log entry 6). -/
def Obligations.StepRunsTheFrontCommand : Prop := ∀ (c : Instr) (rest : List Instr) (s : State),
  (s.pending = c :: rest → step s = exec c { s with pending := rest }) ∧ (s.pending = [] → step s = .next s)

/-- What the state holds right after reset.
The state after reset: nothing waits, memory and flash list nothing, the canonical forms hold, and the registers whose reset value
the tables give as other than 0 hold it, with others that the tables give as 0 (the tables of 01 to 19; R286, R296, R329, R439). -/
def Obligations.ResetState : Prop :=
  State.reset.Canonical ∧ State.reset.pending = [] ∧ State.reset.mem = [] ∧ State.reset.flash = [] ∧ State.reset.stores = [] ∧
  State.reset.traps = [] ∧ State.reset.arrivals = [] ∧ State.reset.writes = [] ∧ State.reset.hgQueue = [] ∧
  ∀ i j : Nat,
    (∀ q ∈ [(Fld.XC_VBASE, 1), (.XC_STATUS_SB, 0), (.XC_STATUS_DEPTH, 0), (.XC_MMU_TEN, 0), (.XC_CTRL_LOCK, 0), (.IR_CRUN_RUN, 16),
      (.IR_CLAST_SRC, 255), (.IR_CTRL_STRTMO, 10), (.DMA_CFG_RETRY, 3), (.SL_PSTAT_LEVEL, 2), (.PH_RANK, 127), (.FL_CLMAP, 0x76543210),
      (.FL_CLSTAT_SPARE, 8), (.FL_VGSTAT_SPARE, 16 + (i : Int)), (.FL_VCONV, (i : Int)), (.IM_STATE_STEP, 1), (.tick, 0),
      (.DM_RAILSTAT_STATE, 0), (.DM_RAILSTAT_PGOOD, 0), (.EV_TRIP, 0), (.EV_WATCH, 0), (.sleepMode, 0), (.coreOn, 0)],
      State.reset.get q.1 i j = q.2) ∧
    State.reset.byteAt i = 0

/-- Cold start, warm start, resume, and GO with the programming of the fabric.
R396, R399, R400, R401, R415, R431, R447: the starts: PORST# release takes the straps and runs the ROM, which without a valid
directory leaves NOFW set, and with a verified firmware and vendor microcode enters the firmware at its ENTRY; a warm start and a
resume start do so again; GO needs the self-tests; and the flash log writes its next record when the controller is free.
Completes: coldStart, warmStart, go, resumeStart, flashBusyEnd.
Rests on the model's choices: the start's durations as data (log entry 79). a command that is not due leaves the state as it is (log
entry 7). -/
def Obligations.StartsAndGo : Prop := ∀ (inp : StartInput) (times : List Nat) (kept : Bool) (base : Nat) (s : State),
  let u := fitFlash (s.raise .started) inp
  let best (x : State) (k : Nat) := readImage x base k (preferred x base k)
  (s.get .started ≠ 0 → exec (.coldStart inp) s = .next s) ∧
  (s.get .started = 0 → Leads (exec (.coldStart inp) s) fun t => t.get .started = 1 ∧ t.get .pmbAdr = ((inp.pmbAdr : Nat) : Int) ∧
    t.get .LS_STATUS_INJDONE = 1 ∧ t.get .stepAt = s.now ∧ (dirInUse u = none → t.get .IM_STATE_NOFW = 1) ∧
    (dirInUse u = some base → verifyCode u (best u 1) 1 = 0 → verifyCode u (best u 2) 2 = 0 → t.get .coreOn 5 = 1 ∧
      t.get .corePc 5 = (((best u 1).num 16 4 : Nat) : Int) % 2 ^ 24 ∧ t.get .UC_CTRL_VLOCK = 1)) ∧
  (s.get .warmDue ≠ 0 → s.now ≥ s.get .mcRstAt + 12 → pairRuns s 5 = true → Leads (exec (.warmStart times) s) fun t =>
    t.get .warmDue = 0 ∧ t.get .IM_STATE_WARM = 1 ∧ (dirInUse s = none → t.get .IM_STATE_NOFW = 1) ∧
    (dirInUse s = some base → s.get .IM_TRIAL_FAIL = 0 → verifyCode s (best s 1) 1 = 0 → t.get .coreOn 5 = 1 ∧
      t.get .corePc 5 = (((best s 1).num 16 4 : Nat) : Int) % 2 ^ 24 ∧ t.get .IM_STATE_NOFW = 0)) ∧
  (s.get .warmDue = 0 ∨ s.now < s.get .mcRstAt + 12 → exec (.warmStart times) s = .next s) ∧
  (s.get .resumeDue ≠ 0 → Leads (exec (.resumeStart kept times) s) fun t => t.get .sleepMode = 0 ∧ t.get .resumeDue = 0 ∧
    t.get .PW_RSTCAUSE_CCAUSE = 4 ∧ t.get .started = 1 ∧ t.get .stepAt = s.now ∧ (dirInUse s = none → t.get .IM_STATE_NOFW = 1)) ∧
  (s.get .resumeDue = 0 → exec (.resumeStart kept times) s = .next s) ∧
  (s.get .FL_STATUS_RDY ≠ 0 → s.get .SL_STATUS_RDY ≠ 0 → s.get .WP_STATUS_RDY ≠ 0 →
    s.get .D4_STATUS_RDY ≠ 0 ∨ s.get .D4_STATUS_TRAINERR ≠ 0 ∨ s.get .D4_CFG_SIZE = 0 → exec .go s = .next (s.put .goDue 1)) ∧
  (s.get .FL_STATUS_RDY = 0 ∨ s.get .SL_STATUS_RDY = 0 ∨ s.get .WP_STATUS_RDY = 0 ∨
    s.get .D4_STATUS_RDY = 0 ∧ s.get .D4_STATUS_TRAINERR = 0 ∧ s.get .D4_CFG_SIZE ≠ 0 →
    exec .go s = .next (s.put .IM_ERR_GOERR 1)) ∧
  (s.get .flashBusy ≠ 0 → s.logQueue = [] → exec .flashBusyEnd s = .next (s.put .flashBusy 0)) ∧
  (∀ (e : Nat × List Byte) (l : List (Nat × List Byte)), s.get .flashBusy ≠ 0 → s.logQueue = e :: l → s.get .flashRo = 0 → (logRegion s).2 ≠ 0 →
    Leads (exec .flashBusyEnd s) fun t => t.logQueue = l ∧ t.get .flashBusy = 1) ∧
  (s.get .flashBusy = 0 → exec .flashBusyEnd s = .next s)

/-- Cold resets, the management-core reset, the watchdog and the clock monitor.
R436 to R441, R448, R449: locks, resets and the watchdog: a cold reset (PORST#, a supply, a clock failure) returns everything to its
reset value but OTP, the flash and the TAP, and records its cause; a management-core reset records its cause, counts and leads to a
warm start; a tick core runs from its start address or is held in reset.
Completes: pllLock, porst, supplyReset, clockFailure, ddrPllUnlock, lanePllUnlock, mcrst, tickCoreRun, watchdogKick, watchdogExpiry.
Rests on the model's choices: a command that is not due leaves the state as it is (log entry 7). -/
def Obligations.ResetsAndClocks : Prop := ∀ (p : Fin 6) (i : Fin 8) (j : Fin 4) (k : Fin 5) (v : W16) (s : State),
  let cold (c n : Int) (t : State) := t.flash = s.flash ∧ t.keyHashes = s.keyHashes ∧ t.mem = [] ∧ t.writes = [] ∧ t.commits = [] ∧
    t.get .PW_RSTCAUSE_CCAUSE = c ∧ t.get .PW_RSTCAUSE_SUPIDX = n ∧
    (∀ f a b, otpFld f = true ∨ tapFld f = true → t.get f a b = s.get f a b) ∧
    ∀ f a b, otpFld f = false → tapFld f = false → f ≠ .PW_RSTCAUSE_CCAUSE → f ≠ .PW_RSTCAUSE_SUPIDX →
      t.get f a b = State.reset.get f a b
  let mc (c : Int) (t : State) := t.get .PW_RSTCAUSE_MCCAUSE = c ∧ t.get .PW_MCCNT = min 0xFFFF (s.get .PW_MCCNT + 1) ∧
    t.get .coreOn 5 = 0 ∧ t.get .warmDue = 1 ∧ t.get .mcRstAt = s.now ∧ t.hgTaken = none ∧ (∀ n, t.get .coreD 5 n = 0) ∧
    (s.get .sleepMode = 1 → t.get .sleepMode = 0 ∧ t.get .PW_STATE_WSRC = 0)
  (p = 0 → exec (.pllLock p) s = .next (s.put .PW_CLK_MPLOCK 1)) ∧
  (p = 1 → exec (.pllLock p) s = .next (s.put .PW_CLK_DPLOCK 1)) ∧
  (1 < (p : Nat) → Leads (exec (.pllLock p) s) fun t => bitAt (t.get .PW_CLK_LPLOCK) ((p : Nat) - 2) = true) ∧
  (Leads (exec .porst s) (cold 1 0)) ∧
  (s.get .sleepMode ≠ 2 ∨ i = 1 → Leads (exec (.supplyReset i) s) (cold 2 (i : Nat))) ∧
  (s.get .sleepMode = 2 → i ≠ 1 → exec (.supplyReset i) s = .next s) ∧
  (s.get .sleepMode ≠ 2 → Leads (exec .clockFailure s) (cold 3 0)) ∧
  (s.get .sleepMode = 2 → exec .clockFailure s = .next s) ∧
  (s.get .D4_CFG_SIZE ≠ 0 → Leads (exec .ddrPllUnlock s) fun t => t.get .PW_CLK_DPLOCK = 0 ∧ t.get .D4_STATUS_RDY = 0 ∧
    t.get .D4_STATUS_TRAINERR = 1 ∧ ddrReady t = false) ∧
  (Leads (exec (.lanePllUnlock j) s) fun t => bitAt (t.get .PW_CLK_LPLOCK) j = false ∧ ∀ l : Nat, l / 2 = j →
    (laneState s l = lnACQUIRE → laneState t l = lnTRAIN) ∧ (laneState s l = lnRUN → t.get .lossReq l = 1) ∧ t.get .lkLock l = 0) ∧
  (Leads (exec .mcrst s) (mc 1)) ∧
  (s.get .PW_TCCTL_HELD k ≠ 0 → ∀ run, exec (.tickCoreRun k run) s = .next (s.put .PW_TCCTL_RUN (if run then 1 else 0) k)) ∧
  (s.get .PW_TCCTL_HELD k = 0 → Leads (exec (.tickCoreRun k false) s) fun t => t.get .PW_TCCTL_RUN k = 0 ∧ t.get .coreOn k = 0 ∧
    ∀ n, t.get .coreD k n = 0) ∧
  (s.get .PW_TCCTL_HELD k = 0 → s.get .coreOn k = 0 → pairRuns s k = true → Leads (exec (.tickCoreRun k true) s) fun t =>
    t.get .PW_TCCTL_RUN k = 1 ∧ t.get .coreOn k = 1 ∧ t.get .corePc k = s.get .PW_TCSTART (s.nat .tcmOf k)) ∧
  (v = 0xA5 → s.get .PW_WDOG_TMO ≠ 0 → exec (.watchdogKick v) s =
    .next ((s.put .wdOn 1).put .wdLeft (160000 * s.get .PW_WDOG_TMO))) ∧
  (v ≠ 0xA5 ∨ s.get .PW_WDOG_TMO = 0 → exec (.watchdogKick v) s = .next s) ∧
  (s.get .wdOn ≠ 0 → s.get .wdLeft = 0 → s.get .coreDbg 5 = 0 → s.get .sleepMode = 0 →
    Leads (exec .watchdogExpiry s) fun t => mc 2 t ∧ t.get .wdOn = 0) ∧
  (s.get .wdOn = 0 ∨ s.get .wdLeft ≠ 0 → exec .watchdogExpiry s = .next s)

/-- The sleep request, the entry of STANDBY and DEEP SLEEP, and the wake.
R444 to R448, R478: sleep and wake: a request whose conditions do not hold is refused, and 3 is not stored; the entry is undone
where a condition fails or a wake source has fired; STANDBY stops the lanes and the Flume, DEEP SLEEP keeps only what VDDAO feeds; a
wake records its source.
Completes: sleepRequest, sleepEntry, wake, wakeFallingEdge.
Rests on the model's choices: a command that is not due leaves the state as it is (log entry 7). -/
def Obligations.SleepAndWake : Prop := ∀ (m : Fin 4) (len : BitVec 32) (src id : Int) (s : State),
  let entering := s.get .coreWait 5 = 1 ∧ s.get .sleepMode = 0
  (m = 3 → exec (.sleepRequest m) s = .next s) ∧
  (m = 1 ∨ m = 2 → sleepOk s = false → exec (.sleepRequest m) s = .next (s.put .PW_STATE_REQERR 1)) ∧
  (m = 0 ∨ (m = 1 ∨ m = 2) ∧ sleepOk s = true → exec (.sleepRequest m) s = .next (s.put .PW_CTRL_SLEEP (m : Nat))) ∧
  (entering → s.get .PW_CTRL_SLEEP = 1 → sleepOk s = true → wakeSource s = none → Leads (exec .sleepEntry s) fun t =>
    t.get .sleepMode = 1 ∧ t.get .PW_STATE_LAST = 1 ∧ t.get .flumeOn = 0 ∧ t.get .FL_STATUS_RDY = 0 ∧
    ∀ l < 8, laneState t l = lnOFF) ∧
  (entering → s.get .PW_CTRL_SLEEP = 2 → sleepOk s = true → wakeSource s = none → Leads (exec .sleepEntry s) fun t =>
    t.get .sleepMode = 2 ∧ t.get .PW_STATE_LAST = 2 ∧ t.get .supen = 0 ∧ t.flash = s.flash ∧
    (∀ c ∈ t.mem, 0x100000000 ≤ c.1) ∧
    ∀ f i j, keptAsleep f = false → f ≠ .srefKept → f ≠ .sleepMode → f ≠ .supen → t.get f i j = State.reset.get f i j) ∧
  (entering → s.get .PW_CTRL_SLEEP ≠ 0 → sleepOk s = false ∨ (wakeSource s).isSome = true → Leads (exec .sleepEntry s) fun t =>
    t.get .PW_CTRL_SLEEP = 0 ∧ t.get .PW_STATE_ABORT = 1 ∧ t.get .evLatch 5 = 1 ∧ t.get .sleepMode = 0) ∧
  (¬entering ∨ s.get .PW_CTRL_SLEEP = 0 → exec .sleepEntry s = .next s) ∧
  (s.get .sleepMode = 1 → s.get .resumeDue = 0 → wakeSource s = some (src, id) → Leads (exec (.wake len) s) fun t =>
    t.get .sleepMode = 0 ∧ t.get .PW_STATE_WSRC = src ∧ t.get .PW_WAKEID = id ∧ t.get .PW_SLEEPT = len.toNat ∧
    t.get .flumeOn = 1 ∧ t.get .evLatch 5 = 1 ∧ t.get .PW_CTRL_SLEEP = 0) ∧
  (s.get .sleepMode = 2 → s.get .resumeDue = 0 → wakeSource s = some (src, id) → Leads (exec (.wake len) s) fun t =>
    t.get .supen = 1 ∧ t.get .resumeDue = 1 ∧ t.get .PW_STATE_WSRC = src ∧ t.get .PW_WAKEID = id ∧
    t.get .PW_SLEEPT = len.toNat) ∧
  (s.get .sleepMode = 0 ∨ wakeSource s = none → exec (.wake len) s = .next s) ∧
  (s.get .EV_HWPUB_EN 92 ≠ 0 → exec .wakeFallingEdge s = .next (publish s (s.nat .EV_HWPUB_CH 92))) ∧
  (s.get .EV_HWPUB_EN 92 = 0 → exec .wakeFallingEdge s = .next s)

/-- The JTAG instructions and the debug lock.
R397, R439, R470, R472: the JTAG port: IDCODE reads 0x1712_85CB and is in force after a TAP reset; EXTEST, CLAMP and HIGHZ hold
every enable false, and act as BYPASS unless every rail is stopped and no enable of a rail in OFF has become true in this tick; the
debug instructions act as BYPASS under the debug lock.
Completes: resume, tapReset, extest, idcode, samplePreload, clamp, highz, bypass, debugAccess.
Rests on the model's choices: EXTEST, CLAMP and HIGHZ in the tick of an enable (log entry 144). -/
def Obligations.JtagPort : Prop := ∀ (cells : BitVec 1024) (code : Fin 16) (act : DebugAct) (k : CoreId) (s : State),
  (Leads (exec .tapReset s) fun t => t.get .tapIr = 1 ∧ t.get .tapErr = 0 ∧ t.get .enableHold = 0) ∧
  (Leads (exec .idcode s) fun t => t.get .tapIr = 1 ∧ t.get .tapOut = 0x171285CB ∧ t.get .enableHold = 0) ∧
  (Leads (exec (.samplePreload cells) s) fun t => t.get .tapIr = 2 ∧ t.get .tapCells = cells.toNat ∧ t.get .enableHold = 0) ∧
  (Leads (exec .bypass s) fun t => t.get .tapIr = 0xFF ∧ t.get .tapErr = 0 ∧ t.get .enableHold = 0) ∧
  (∀ p ∈ [(Instr.extest, (0 : Int)), (.clamp, 3), (.highz, 4)],
    (tapMayDrive s = true → Leads (exec p.1 s) fun t => t.get .tapIr = p.2 ∧ t.get .tapErr = 0 ∧ ∀ r, enabled t r = false) ∧
    (tapMayDrive s = false → Leads (exec p.1 s) fun t => t.get .tapIr = 0xFF ∧ t.get .tapErr = 1 ∧ t.get .enableHold = 0) ∧
    (Leads (exec p.1 s) fun t => t.get .tapOut = 1 + 4 * s.get .tapErr)) ∧
  (s.get .OT_STATUS_DBGLOCK ≠ 0 → exec (.debugAccess code act) s = exec .bypass s) ∧
  (s.get .OT_STATUS_DBGLOCK = 0 →
    (Leads (exec (.debugAccess code .none) s) fun t => t.get .tapIr = 16 + ((code : Nat) : Int)) ∧
    (Leads (exec (.debugAccess code .reset) s) fun t => t.get .tapIr = 16 + ((code : Nat) : Int) ∧
      t.get .PW_RSTCAUSE_MCCAUSE = 8 ∧ t.get .coreOn 5 = 0) ∧
    (Leads (exec (.debugAccess code (.resume k)) s) fun t => t.get .tapIr = 16 + ((code : Nat) : Int) ∧
      t.get .coreHalt k = 0 ∧ t.get .coreDbg k = 0))

/-- The control-tick boundary and the management-tick boundary.
R4, R32 to R35, R444, R445: at a control-tick boundary TICK counts by one and the writes of the tick take effect, the last one to a
field standing (shown for LN_VSET, whose boundary work does not write it); before PORST# is released and in DEEP SLEEP nothing
ticks. A management-tick boundary counts and restarts the burst budgets.
Completes: controlTick, managementTickBoundary.
Rests on the model's choices: a command that is not due leaves the state as it is (log entry 7). -/
def Obligations.TickBoundaries : Prop := ∀ (inp : TickInput) (s : State),
  (s.get .started ≠ 0 → s.get .sleepMode ≠ 2 → (∀ w ∈ s.writes, w.key.fld ≠ .tick) → Leads (exec (.controlTick inp) s) fun t =>
    t.now = (s.now + 1) % 2 ^ 64 ∧ t.writes = [] ∧ ∀ r : Nat, t.get .LN_VSET r = s.written ⟨.LN_VSET, r, 0⟩) ∧
  (s.get .started = 0 ∨ s.get .sleepMode = 2 → exec (.controlTick inp) s = .next s) ∧
  (mtickDue s = true → Leads (exec .managementTickBoundary s) fun t => t.get .DM_MTICK = (s.get .DM_MTICK + 1) % 2 ^ 32 ∧
    t.get .mtAt = s.now ∧ ∀ r < 16, t.get .LN_BUSED r = 0) ∧
  (mtickDue s = false → exec .managementTickBoundary s = .next s)

/-- Register reads and writes: bus errors, protection, latching and holding order, W1C, the boundary.
R6 to R11, R33, R34, R37, R49, R476: register accesses: an address with no register is a bus error, one that the agent does not
reach a protection fault; a write of the data plane waits for the boundary, one of a system register is stored at once, W1C bits
clear, an illegal value is reported; the lower word of a holding register is held and its highest word stores it; a read of TICK or
of a channel's MEAN latches what goes with it; a read clears an RC count, but not a debug read.
Completes: registerWrite, holdingLowWrite, holdingHighWrite, latchingRead, tickRead, reductionRead, jtagDebugRead, rcRead.
Rests on the model's choices: a command that is not due leaves the state as it is (log entry 7). -/
def Obligations.RegisterAccess : Prop := ∀ (ag : Agent) (a : Addr) (r : Rail) (p : Phase) (ch : Channel) (v hi : W16) (s : State),
  let lane := 0x410000 + 1024 * (r : Nat)
  let stat := 0x414102 + 16 * (r : Nat)
  let ilim := 0x414104 + 16 * (r : Nat)
  let mean := 0x400403 + 8 * (p : Nat)
  let supp := 0x450103 + 4 * (ch : Nat)
  let at_ (n : Nat) : Addr := BitVec.ofNat 32 n
  let low := if s.get .holdMark ilim ≠ 0 then s.get .holdWord ilim else s.written ⟨.DM_RAILLIM_ILIM, r, 0⟩ % 65536
  let whole := (low + 65536 * (hi.toNat : Int)) % 2 ^ 18
  (noRegister a.toNat = true ∨ mayReach s ag a.toNat true = false →
    exec (.registerWrite ag a v) s = .next (s.put .readError 1)) ∧
  (noRegister a.toNat = true ∨ mayReach s ag a.toNat false = false →
    exec (.rcRead ag a) s = .next ((s.put .readError 1).put .readData 0)) ∧
  (mayReach s ag lane true = true → s.inBound ⟨.LN_CTRL_FFEN, r, 0⟩ (field v.toNat 2 2) = true →
    exec (.registerWrite ag (at_ lane) v) s = .next ((s.later .LN_CTRL_FFEN (field v.toNat 2 2) r).put .readError 0)) ∧
  (mayReach s ag stat true = true → Leads (exec (.registerWrite ag (at_ stat) v) s) fun t => t.get .readError = 0 ∧
    (v.getLsbD 5 = true → bitAt (t.get .DM_RAILSTAT_ENSTUCK r) 0 = false) ∧
    (v.getLsbD 8 = true → bitAt (t.get .DM_RAILSTAT_STARTTMO r) 0 = false) ∧ t.writes = s.writes ∧
    ∀ f i j, f ≠ .DM_RAILSTAT_ENSTUCK → f ≠ .DM_RAILSTAT_LIMSAT → f ≠ .DM_RAILSTAT_STARTTMO → f ≠ .readError →
      t.get f i j = s.get f i j) ∧
  (mayReach s ag 0x840000 true = true → v.toNat % 256 ≠ 0 → s.inBound ⟨.HG_CTRL_EXTMO, 0, 0⟩ (field v.toNat 7 0) = true →
    exec (.registerWrite ag 0x840000 v) s = .next ((s.put .HG_CTRL_EXTMO (field v.toNat 7 0)).put .readError 0)) ∧
  (mayReach s ag 0x840000 true = true → v.toNat % 256 = 0 →
    exec (.registerWrite ag 0x840000 v) s = .next ((s.put .HG_STATUS_CFGERR 1).put .readError 0)) ∧
  (mayReach s ag ilim true = true → exec (.holdingLowWrite ag (at_ ilim) v) s =
    .next (((s.put .holdWord v.toNat ilim).put .holdMark 1 ilim).put .readError 0)) ∧
  (mayReach s ag (ilim + 1) true = true → s.inBound ⟨.DM_RAILLIM_ILIM, r, 0⟩ whole = true →
    Leads (exec (.holdingHighWrite ag (at_ (ilim + 1)) hi) s) fun t => t.get .holdMark ilim = 0 ∧ t.get .readError = 0 ∧
      t.written ⟨.DM_RAILLIM_ILIM, r, 0⟩ = whole ∧ t.get .DM_RAILLIM_ILIM r = s.get .DM_RAILLIM_ILIM r) ∧
  (mayReach s ag (ilim + 1) true = true → s.inBound ⟨.DM_RAILLIM_ILIM, r, 0⟩ whole = false →
    Leads (exec (.holdingHighWrite ag (at_ (ilim + 1)) hi) s) fun t => t.get .DM_STATUS_CEILERR = 1 ∧ t.writes = s.writes) ∧
  (holdsLow a.toNat = false → exec (.holdingLowWrite ag a v) s = .next s) ∧
  (holdsHigh a.toNat = false → exec (.holdingHighWrite ag a v) s = .next s) ∧
  (ag ≠ .jtag → mayReach s ag 0x414000 false = true → ∀ i ∈ [Instr.tickRead ag, .latchingRead ag 0x414000],
    Leads (exec i s) fun t => t.get .readError = 0 ∧ t.get .readData = s.now % 65536 ∧
      t.get .latchWord 0x414001 = s.now / 2 ^ 16 % 65536 ∧ t.get .latchWord 0x414002 = s.now / 2 ^ 32 % 65536 ∧
      t.get .latchWord 0x414003 = s.now / 2 ^ 48 % 65536) ∧
  (latchedBy a.toNat = [] → exec (.latchingRead ag a) s = .next s) ∧
  (ag ≠ .jtag → mayReach s ag 0x414001 false = true → Leads (exec (.rcRead ag 0x414001) s) fun t =>
    t.get .readData = s.get .latchWord 0x414001 ∧ t.get .readError = 0) ∧
  (ag ≠ .jtag → mayReach s ag mean false = true → Leads (exec (.reductionRead ag (.phase p)) s) fun t =>
    t.get .readError = 0 ∧ t.get .readData = s.get .FL_PHMEAN p % 65536 ∧ t.get .latchWord (mean + 2) = s.get .FL_PHMIN p % 65536 ∧
    t.get .latchWord (mean + 3) = s.get .FL_PHMAX p % 65536) ∧
  (ag ≠ .jtag → mayReach s ag supp false = true → Leads (exec (.rcRead ag (at_ supp)) s) fun t =>
    t.get .readError = 0 ∧ t.get .readData = s.get .EV_CHSUPP ch % 65536 ∧ t.get .EV_CHSUPP ch = 0) ∧
  (s.get .OT_STATUS_DBGLOCK = 0 → Leads (exec (.jtagDebugRead (at_ supp)) s) fun t =>
    t.get .readError = 0 ∧ t.get .readData = s.get .EV_CHSUPP ch % 65536 ∧ t.get .EV_CHSUPP ch = s.get .EV_CHSUPP ch) ∧
  (s.get .OT_STATUS_DBGLOCK ≠ 0 → exec (.jtagDebugRead a) s = .next (s.put .readError 1))

/-- The commands of the core windows, the MMU registers and the writable control store.
R292, R296, R298, R310 to R312: the system registers that have commands of their own: the lock of a core's window, ASID and TLBOP,
and the writable control store: a microword or an entry is stored only by the management core at supervisor privilege with LDEN set
and outside the locked vendor pages; cores take a new entry at their next boundary.
Completes: tlbop, asidWrite, xcLock, microwordWrite, decodeEntryWrite, decodeEntryTaken, vlock. -/
def Obligations.SystemRegisterCommands : Prop := ∀ (ag : Agent) (k : CoreId) (asid : BitVec 8) (m : Fin 1024) (w : BitVec 64)
    (e : Fin 32) (v : W16) (s : State),
  let sup := agentCore s ag = (5, true)
  let open_ (vendor : Prop) := sup ∧ s.get .UC_CTRL_LDEN ≠ 0 ∧ ¬(s.get .UC_CTRL_VLOCK ≠ 0 ∧ vendor)
  (sup → s.get .XC_CTRL_LOCK k = 0 → Leads (exec (.xcLock ag k) s) fun t => t.get .XC_CTRL_LOCK k = 1 ∧ t.get .readError = 0) ∧
  (agentCore s ag ≠ (5, true) → Leads (exec (.xcLock ag k) s) fun t => t.get .readError = 1 ∧
    t.get .XC_CTRL_LOCK k = s.get .XC_CTRL_LOCK k) ∧
  (sup → ∀ flush, Leads (exec (.asidWrite ag asid flush) s) fun t => t.get .XC_ASID_ASID = asid.toNat ∧
    (flush = true → ∀ i < 64, s.get .tlbG i = 0 → t.get .tlbV i = 0) ∧ (flush = false → ∀ i, t.get .tlbV i = s.get .tlbV i) ∧
    ∀ i, s.get .tlbG i ≠ 0 → t.get .tlbV i = s.get .tlbV i) ∧
  (sup → Leads (exec (.tlbop ag true false) s) fun t => let i := s.nat .XC_TLBIDX
    t.get .XC_TLBTAG_VPN = s.get .tlbVpn i ∧ t.get .XC_TLBTAG_ASID = s.get .tlbAsid i ∧ t.get .XC_TLBTAG_SZ = s.get .tlbSz i ∧
    t.get .XC_TLBTAG_G = s.get .tlbG i ∧ t.get .XC_TLBTAG_V = s.get .tlbV i ∧ t.get .XC_TLBPTE = s.get .tlbPte i) ∧
  (sup → Leads (exec (.tlbop ag false true) s) fun t => let i := s.nat .XC_TLBIDX
    t.get .tlbVpn i = s.get .XC_TLBTAG_VPN ∧ t.get .tlbAsid i = s.get .XC_TLBTAG_ASID ∧ t.get .tlbSz i = s.get .XC_TLBTAG_SZ ∧
    (t.get .tlbV i ≠ 0 ↔ s.get .XC_TLBTAG_V ≠ 0) ∧ t.get .tlbPte i = tlbData (s.get .XC_TLBPTE) (s.get .XC_TLBTAG_SZ)) ∧
  (agentCore s ag ≠ (5, true) → ∀ rd wr, Leads (exec (.tlbop ag rd wr) s) fun t => t.get .readError = 1 ∧
    ∀ i, t.get .tlbV i = s.get .tlbV i ∧ t.get .tlbPte i = s.get .tlbPte i) ∧
  (¬open_ (768 ≤ (m : Nat)) → exec (.microwordWrite ag m w) s = .next (s.put .UC_STATUS_LDERR 1)) ∧
  (open_ (768 ≤ (m : Nat)) → pageLive s (m / 64) = true → exec (.microwordWrite ag m w) s = .next (s.put .UC_STATUS_LIVEERR 1)) ∧
  (open_ (768 ≤ (m : Nat)) → pageLive s (m / 64) = false → microwordLegal m w.toNat = false →
    exec (.microwordWrite ag m w) s = .next (s.put .UC_STATUS_FMTERR 1)) ∧
  (open_ (768 ≤ (m : Nat)) → pageLive s (m / 64) = false → microwordLegal m w.toNat = true →
    Leads (exec (.microwordWrite ag m w) s) fun t =>
      t.get .UC_MW m = (w.toNat : Int) - (if w.getLsbD 7 then 128 else 0) ∧ ∀ c < 6, t.get .ucBad c m = 0) ∧
  (¬open_ (24 ≤ (e : Nat)) → exec (.decodeEntryWrite ag e v) s = .next (s.put .UC_STATUS_LDERR 1)) ∧
  (open_ (24 ≤ (e : Nat)) → Leads (exec (.decodeEntryWrite ag e v) s) fun t => decWord t e = v.toNat % 8192 ∧
    ∀ c < 6, if takesAtOnce s c then decEntry t c e = v.toNat % 8192 ∧ t.get .decPend c e = 0 else t.get .decPend c e = 1) ∧
  (Leads (exec (.decodeEntryTaken k) s) fun t => ∀ n < 32, t.get .decPend k n = 0 ∧
    (s.get .decPend k n ≠ 0 → decEntry t k n = decWord s n) ∧ (s.get .decPend k n = 0 → decEntry t k n = decEntry s k n)) ∧
  (sup → exec (.vlock ag) s = .next (s.put .UC_CTRL_VLOCK 1)) ∧
  (agentCore s ag ≠ (5, true) → exec (.vlock ag) s = .next (s.put .UC_STATUS_LDERR 1))

/-- What moves a rail between its states on a command of its own, and the filters and persistence counts of rails and totals.
R24 rows 2, 3, 5, 6 and 9, R174: what moves a rail between its states on a command of its own: the enable row's dwell and delays,
the start timeout, the retry delay and the cleared auxiliary fault take the row's transition for the coming boundary, with the row's
CAUSE; FCLR is kept for the boundary in FAULT and ignored elsewhere; RSREQ is kept in OFF and UNUSED and sets REQERR elsewhere.
`railMoved` marks a rail whose transition of the coming boundary is already made.
R21, R26, R27, R31, R472: the filters and persistence counts of a rail and of the totals.
Completes: fclr, rsreq, startTimeout, stopDelayExpiry, startDelayExpiry, offDwellExpiry, enFilterAccept, enStuckTimeout,
pgoodAssert, pgoodDeassert, domainExcess, deviceExcess, retryExpiry, auxFaultClear.
Rests on the model's choices: EXTEST in the tick of an enable (log entry 144). a command that is not due leaves the state as it is
(log entry 7). -/
def Obligations.RailTransitionsAndFilters : Prop :=
  (∀ (r : Rail) (s : State),
  (railState s r = stFAULT → exec (.fclr r) s = .next (s.raise .fclrReq r)) ∧
  (railState s r ≠ stFAULT → exec (.fclr r) s = .next s) ∧
  (railState s r = stOFF ∨ railState s r = stUNUSED → exec (.rsreq r) s = .next (s.raise .rsReq r)) ∧
  (railState s r ≠ stOFF ∧ railState s r ≠ stUNUSED → exec (.rsreq r) s = .next (s.raise .DM_STATUS_REQERR)) ∧
  (s.get .railMoved r = 0 → railState s r = stRAMPUP → s.get .faultCodes r = 0 → s.get .scopeReq r = 0 →
    s.now + 1 ≥ s.get .rampSince r + 40000 * s.get .DM_RAILTMO_STMO r →
    Leads (exec (.startTimeout r) s) fun t => railState t r = stFAULT ∧ t.get .DM_RAILSTAT_CAUSE r = 6 ∧
      t.get .DM_RAILSTAT_STARTTMO r = 1) ∧
  (s.get .railMoved r = 0 → railState s r = stREG → s.get .faultCodes r = 0 → s.get .scopeReq r = 0 → s.get .stopReq r = 0 →
    enabled s r = false → dependentsDown s r = true →
    s.now + 1 ≥ stopDelayFrom s r (s.now + 1) + 160 * s.get .DM_RAILDLY_PDLY r →
    Leads (exec (.stopDelayExpiry r) s) fun t => railState t r = stRAMPDN ∧ t.get .DM_RAILSTAT_CAUSE r = 2 ∧
      t.get .DM_RAILSTAT_PGOOD r = 0) ∧
  (s.get .railMoved r = 0 → railState s r = stOFF → s.get .rsReq r = 0 → enabled s r = true →
    predsSatisfied s r (s.now + 1) = true → s.now + 1 ≥ s.get .offSince r + 16000 → fabricReady s = true →
    startBlocked s r = false →
    Leads (exec (.offDwellExpiry r) s) fun t => railState t r = stRAMPUP ∧ t.get .DM_RAILSTAT_CAUSE r = 1 ∧
      t.get .rampSince r = s.now + 1) ∧
  (s.get .railMoved r = 0 → railState s r = stFAULT → s.get .fclrReq r = 0 → usesRetries (s.get .faultIn r) = true →
    retryDue s r (s.now + 1) (leavesFault s (s.now + 1)) = true →
    Leads (exec (.retryExpiry r) s) fun t => railState t r = stOFF ∧ t.get .DM_RAILSTAT_CAUSE r = 0 ∧
      t.get .offSince r = s.now + 1) ∧
  (s.get .railMoved r = 0 → railState s r = stFAULT → s.get .fclrReq r = 0 → bitAt (s.get .faultIn r) 6 = true →
    retryDue s r (s.now + 1) (leavesFault s (s.now + 1)) = true →
    Leads (exec (.auxFaultClear r) s) fun t => railState t r = stOFF ∧ t.get .DM_RAILSTAT_CAUSE r = 0 ∧
      t.get .offSince r = s.now + 1)) ∧
  (∀ (r : Rail) (d : Domain) (s : State),
  (s.get .fabricOn = 1 → s.get .enStable r ≥ 8 * s.get .DM_RAILTMO_ENFILT r →
    let t := s.put .DM_RAILSTAT_ENF (s.get .enCand r) r
    (s.get .enableHold = 0 ∨ s.get .tapAt ≠ s.now + 1 ∨ railState s r ≠ stOFF ∨ enableLevel s r = true ∨ enableLevel t r = false →
      exec (.enFilterAccept r) s = .next t) ∧
    (s.get .enableHold ≠ 0 → s.get .tapAt = s.now + 1 → railState s r = stOFF → enableLevel s r = false → enableLevel t r = true →
      exec (.enFilterAccept r) s = .next (((t.clear .enableHold).put .tapIr 0xFF).raise .tapErr))) ∧
  (s.get .enWait r ≥ 160000 → exec (.enStuckTimeout r) s = .next (s.raise .DM_RAILSTAT_ENSTUCK r)) ∧
  ((∀ q ∈ predecessors s r, oldState s q = stREG ∧ oldPgood s q = true ∧
      s.now + 1 - s.get .predPgAt q ≥ 160 * s.get .DM_RAILDLY_SDLY r) →
    exec (.startDelayExpiry r) s = .next (s.raise .DM_RAILSTAT_PREDOK r)) ∧
  (railState s r = stREG → s.get .pgIn r ≥ 16 → s.get .DM_RAILSTAT_PGOOD r = 0 →
    exec (.pgoodAssert r) s = .next ((s.raise .DM_RAILSTAT_PGOOD r).put .predPgAt s.now r)) ∧
  (s.get .pgOut r ≥ 4 ∨ railState s r ≠ stREG →
    exec (.pgoodDeassert r) s = .next ((s.clear .DM_RAILSTAT_PGOOD r).clear .pgIn r)) ∧
  (0 < s.get .domXCnt d → s.get .domXCnt d ≥ s.get .DM_DOMCFG_XPERS d → bitAt (s.get .DM_STATUS_DOMX) d = false →
    exec (.domainExcess d) s = .next (hwPublish (s.put .DM_STATUS_DOMX (orI (s.get .DM_STATUS_DOMX) (2 ^ (d : Nat)))) 89)) ∧
  (s.get .devXCnt ≥ 16 → s.get .DM_STATUS_DEVX = 0 →
    exec .deviceExcess s = .next (hwPublish (s.raise .DM_STATUS_DEVX) 89)))

/-- The results of the auxiliary and temperature channels and the slow flags.
R39 to R42, R46, R50 to R53: the results of the slow channels. An auxiliary channel's result is the rounded average of its 2^AVG
codes in units of a quarter code, trimmed unless KIND is 0, and never negative for KIND 1; a cluster's temperature result is written
for the next boundary; a channel whose codes have not changed for STKT windows (4,096 samples) sets its STUCK flag.
Completes: auxResult, tempSample, channelStuck. -/
def Obligations.SlowChannelResults : Prop := ∀ (a : Fin 8) (c : Cluster) (codes : List (BitVec 12)) (raw : BitVec 12) (s : State),
  (s.get .flumeOn = 1 → codes.length = 2 ^ s.nat .FL_AUXCFG_AVG a → Leads (exec (.auxResult a codes) s) fun t =>
    let n := s.nat .FL_AUXCFG_AVG a
    let mean := (4 * sumI (codes.map fun x => (x.toNat : Int)) + (if n = 0 then 0 else 2 ^ n / 2)) / 2 ^ n
    let sat := clampTo (-32768) 32767 (((mean - s.get .FL_AUXOFS a) * s.get .FL_AUXGAIN a + 2048) / 4096)
    t.get .FL_AUXRES a =
      (if s.get .FL_AUXCFG_KIND a = 0 then mean else if s.get .FL_AUXCFG_KIND a = 1 ∧ sat < 0 then 0 else sat) % 65536) ∧
  (s.get .flumeOn = 1 → s.now % 128 = 8 * (c : Int) → s.get .tmLast c ≠ s.now →
    Leads (exec (.tempSample c raw) s) fun t =>
    t.written ⟨.FL_CLTEMP, c, 0⟩ =
      clampTo (-32768) 32767 (((4 * raw.toNat - s.get .FL_TMOFS c) * s.get .FL_TMGAIN c + 2048) / 4096)) ∧
  (∀ p : Phase, s.get .phStuckCnt p ≠ 0 → s.get .phStuckCnt p ≥ s.get .FL_STKCFG_STKT →
    Leads (exec (.channelStuck (.phase p)) s) fun t => t.get .FL_PHFLAG_STUCK p ≠ 0) ∧
  (∀ r : Rail, s.get .vStuckCnt r ≠ 0 → s.get .vStuckCnt r ≥ s.get .FL_STKCFG_STKT →
    Leads (exec (.channelStuck (.rail r)) s) fun t => t.get .FL_VFLAG_STUCK r ≠ 0) ∧
  (s.get .auxStuckCnt a ≥ 4096 → Leads (exec (.channelStuck (.aux a)) s) fun t => t.get .FL_AUXFLAG_STUCK a ≠ 0) ∧
  (s.get .tmStuckCnt c ≥ 4096 → Leads (exec (.channelStuck (.temp c)) s) fun t => t.get .FL_TMFLAG_STUCK c ≠ 0)

/-- Open-sense and ripple tests, the rotation of converters, and the Flume's start and requests.
R55, R56, R58 to R64: the sense tests and the converters. A due open-sense test window is held and judged, and while a calibrated
converter shadows the input the test is put off to the handover; a ripple window's end reports the ripple of every member phase; a
rotation step starts at the next boundary, connects the calibrated off-line converter and hands over; a converter that fails is
replaced by the off-line converter of its cluster; start-up calibration makes the Flume ready 3,648 ticks after its power-up (1,600
of R64 and the 2,048 of a calibration, R58).
Completes: voltageOpenTest, currentInjectionTest, rippleWindowEnd, rotationStep, calibrationDone, handover, converterSubstitution,
declareConverterFailed, flumeStartupCal.
Rests on the model's choices: the measure of agreement inside a shadow (log entry 104) and the test chosen as the ripple window
stands (log entry 107). -/
def Obligations.FlumeTestsAndRotation : Prop := ∀ (r : Rail) (p : Phase) (g : Fin 18) (s : State),
  (∀ codes, s.get .FL_CTRL_OSEN = 1 → vTestDue s r = true → railState s r ≠ stUNUSED → s.get .flumeOn = 1 →
    s.get .FL_VFLAG_CVFAIL r = 0 → s.get .FL_VFLAG_HOLD r = 0 → underShadow s (16 + r / 8) (r % 8) = false →
    Leads (exec (.voltageOpenTest r codes) s) fun t => t.get .vHold r = 1 ∧ t.get .vOpenFail r =
      if codes.length = 20 ∧ ∀ x ∈ codes, x = 2047 then min 15 (s.get .vOpenFail r + 1) else 0) ∧
  (∀ codes, s.get .FL_CTRL_OSEN = 1 → s.now % 256 = 32 + (p : Int) → (memberOf s p).isSome → s.get .flumeOn = 1 →
    s.get .FL_PHFLAG_SLFAIL p = 0 → s.get .pwmHigh p = 0 → s.get .FL_PHFLAG_HOLD p = 0 →
    underShadow s (p / 8) (p % 8) = false →
    Leads (exec (.currentInjectionTest p codes) s) fun t => t.get .phHold p = 1 ∧ t.get .openFail p =
      if codes.length = 10 ∧ ∀ x ∈ codes, x = 2047 then min 15 (s.get .openFail p + 1) else 0) ∧
  (∀ codes, s.get .FL_CTRL_OSEN = 1 → vTestDue s r = true → railState s r ≠ stUNUSED → s.get .flumeOn = 1 →
    s.get .FL_VFLAG_CVFAIL r = 0 → s.get .FL_VFLAG_HOLD r = 0 → underShadow s (16 + r / 8) (r % 8) = true →
    Leads (exec (.voltageOpenTest r codes) s) fun t => t.get .vDefer r ≠ 0 ∧ s.SameBut (fun x => x = .fld .vDefer) t) ∧
  (∀ codes, s.get .FL_CTRL_OSEN = 1 → s.now % 256 = 32 + (p : Int) → (memberOf s p).isSome → s.get .flumeOn = 1 →
    s.get .FL_PHFLAG_SLFAIL p = 0 → s.get .pwmHigh p = 0 → s.get .FL_PHFLAG_HOLD p = 0 →
    underShadow s (p / 8) (p % 8) = true →
    Leads (exec (.currentInjectionTest p codes) s) fun t => t.get .phDefer p ≠ 0 ∧ s.SameBut (fun x => x = .fld .phDefer) t) ∧
  (s.now % ripLen s = 0 → s.now ≠ s.get .ripEnded → s.get .flumeOn = 1 → (memberOf s p).isSome →
    s.get .ripMin p ≤ s.get .ripMax p →
    Leads (exec .rippleWindowEnd s) fun t => t.get .ripEnded = s.now ∧
      t.get .FL_PHRIP p = s.get .ripMax p - s.get .ripMin p ∧
      t.get .pwmHigh p = if s.get .SL_PSTAT_LEVEL p = 1 then 1 else 0) ∧
  (∀ k, rotState s g = 0 → noSpare s g = false → s.get .FL_STATUS_RDY = 1 → rotTarget s g = some k →
    Leads (exec (.rotationStep g) s) fun t => t.get .FL_ROTCTL_TGT = (g : Int) ∧ rotState t g = 1 ∧ rotPos t g = k ∧
      t.get .rotT0 g = s.now + 1) ∧
  (rotState s g ≠ 0 → Leads (exec (.rotationStep g) s) fun t => t.get .FL_STATUS_CFGERR = 1 ∧ rotState t g = rotState s g) ∧
  (rotState s g = 1 → s.now ≥ s.get .rotT0 g + 2048 →
    Leads (exec (.calibrationDone g true) s) (fun t => rotState t g = 2) ∧
    Leads (exec (.calibrationDone g false) s) (fun t => rotState t g = 0 ∧ noSpare t g = true)) ∧
  (∀ c : Cluster, s.get .FL_CLSTAT_RSTATE c = 2 ∨ s.get .FL_CLSTAT_RSTATE c = 3 → s.now ≥ s.get .rotT0 c + 2112 → s.get .rotDis c ≤ 2 →
    Leads (exec (.handover ⟨c, by omega⟩) s) fun t => t.get .FL_CLSTAT_RSTATE c = 0 ∧
      t.get .FL_CLSTAT_SPARE c = sliceOf s c (rotPos s c) ∧
      t.get .FL_CLMAP c = s.get .FL_CLMAP c + (spareOf s c - sliceOf s c (rotPos s c)) * 2 ^ (4 * rotPos s c)) ∧
  (s.get .phStuckCnt p ≠ 0 → s.get .phStuckCnt p ≥ s.get .FL_STKCFG_STKT → shadowAgrees s (p / 8) (p % 8) = true →
    noSpare s (p / 8) = false → Leads (exec (.converterSubstitution (.phase p)) s) fun t =>
      t.get .FL_CLSTAT_NOSPARE (p / 8) = 1 ∧ t.get .FL_CLMAP (p / 8) = s.get .FL_CLMAP (p / 8) +
        (spareOf s (p / 8) - sliceOf s (p / 8) (p % 8)) * 2 ^ (4 * ((p : Nat) % 8))) ∧
  ((memberOf s p).isSome → sliceOf s (p / 8) (p % 8) ≠ 0xF → noSpare s (p / 8) = false →
    Leads (exec (.declareConverterFailed p false) s) fun t => t.get .FL_SUBCTL_IDX = (p : Int) ∧
      t.get .FL_CLSTAT_NOSPARE (p / 8) = 1 ∧ t.get .FL_CLMAP (p / 8) = s.get .FL_CLMAP (p / 8) +
        (spareOf s (p / 8) - sliceOf s (p / 8) (p % 8)) * 2 ^ (4 * ((p : Nat) % 8))) ∧
  (∀ slices convs, s.get .flumeOn = 1 → s.get .FL_STATUS_RDY = 0 → s.now ≥ s.get .flumeFrom + 3648 →
    Leads (exec (.flumeStartupCal slices convs) s) fun t => t.get .FL_STATUS_RDY = 1)

/-- Setpoint writes, bank commit and copy, and what the boundary makes of them.
R77, R84, R85: a setpoint outside 1,600 to 15,200 is not stored and sets BNDERR; an increase that is not admissible is not stored
and sets SETREF; a value that is stored becomes VSET at the next boundary, and an increase is a commitment. COMMIT and COPY are kept
for the boundary.
R84, R85: what the boundary makes of COMMIT and COPY: a valid inactive bank becomes the active one, an invalid one sets COMMITERR
and the active bank stays; COPY makes the inactive bank equal to the active one; of both, COMMIT is done.
Completes: setpointWrite, commit, copy. -/
def Obligations.SetpointAndBanks : Prop :=
  (∀ (r : Rail) (v : BitVec 14) (s : State),
  ((v.toNat : Int) < 1600 ∨ 15200 < (v.toNat : Int) → Leads (exec (.setpointWrite r v) s) fun t =>
    bitAt (t.get .LN_FLAG r) 10 = true ∧ t.writes = s.writes ∧ t.commits = s.commits) ∧
  (1600 ≤ (v.toNat : Int) → (v.toNat : Int) ≤ 15200 → s.inBound ⟨.LN_VSET, r, 0⟩ v.toNat = true →
    s.written ⟨.LN_VSET, r, 0⟩ < v.toNat → admissible s r (setpointDelta s r v.toNat) = false →
    Leads (exec (.setpointWrite r v) s) fun t => bitAt (t.get .LN_FLAG r) 12 = true ∧ t.writes = s.writes ∧
      t.commits = s.commits) ∧
  (1600 ≤ (v.toNat : Int) → (v.toNat : Int) ≤ 15200 → s.inBound ⟨.LN_VSET, r, 0⟩ v.toNat = true →
    s.written ⟨.LN_VSET, r, 0⟩ < v.toNat → admissible s r (setpointDelta s r v.toNat) = true →
    Leads (exec (.setpointWrite r v) s) fun t => t.written ⟨.LN_VSET, r, 0⟩ = v.toNat ∧
      t.commits = s.commits ++ [⟨r, setpointDelta s r v.toNat, .setpoint v.toNat⟩] ∧ ∀ f i j, t.get f i j = s.get f i j) ∧
  (1600 ≤ (v.toNat : Int) → (v.toNat : Int) ≤ 15200 → s.inBound ⟨.LN_VSET, r, 0⟩ v.toNat = true →
    (v.toNat : Int) ≤ s.written ⟨.LN_VSET, r, 0⟩ →
    exec (.setpointWrite r v) s = .next (s.later .LN_VSET v.toNat r)) ∧
  exec (.commit r) s = .next (s.put .LN_STATUS_COMMITPEND 1 r) ∧
  exec (.copy r) s = .next (s.put .copyReq 1 r)) ∧
  (∀ (r : Rail) (s : State),
  let act := s.nat .LN_STATUS_ACTBANK r
  (s.get .LN_STATUS_COMMITPEND r = 1 → bankValid s r (1 - act) = true →
    (bankBoundary s r).get .LN_STATUS_ACTBANK r = ((1 - act : Nat) : Int)) ∧
  (s.get .LN_STATUS_COMMITPEND r = 1 → bankValid s r (1 - act) = false →
    (bankBoundary s r).get .LN_STATUS_ACTBANK r = s.get .LN_STATUS_ACTBANK r ∧
    bitAt ((bankBoundary s r).get .LN_FLAG r) 11 = true) ∧
  (s.get .LN_STATUS_COMMITPEND r = 0 → s.get .copyReq r = 1 → act ≤ 1 → ∀ f ∈ bankFields,
    (bankBoundary s r).get f r (1 - act) = s.get f r act) ∧
  (bankBoundary s r).get .LN_STATUS_COMMITPEND r = 0)

/-- One run of a lane's compensator.
R67 to R72: one run of a lane's compensator: the error is the deviation less the droop, clamped; the recursive filter's numerator
and denominator saturate to 40 bits; the integrator is limited to its bank's range; and the command is limited to its bounds.
Rests on the model's choices: the tick over which forcing is judged (log entry 15) and the run at the end of its tick (log entry
102). -/
def Obligations.CompensatorRun : Prop := ∀ (r : Rail) (s : State),
  let b := s.nat .LN_STATUS_ACTBANK r
  let e := clampTo (-2048) 2047 (errorRaw s r)
  let pn := satS 40 ((s.get .LN_B0 r b * e + s.get .LN_B1 r b * s.get .lnE1 r + s.get .LN_B2 r b * s.get .lnE2 r) *
    2 ^ s.nat .LN_GEXP r b)
  let pd := satS 40 ((2 * s.get .LN_A1 r b * s.get .lnW1 r + s.get .LN_A2 r b * s.get .lnW2 r) / 4)
  let acc := satS 40 (pn - pd)
  (compensate s r).get .LN_ERR r = e ∧
  (compensate s r).get .lnE1 r = e ∧ (compensate s r).get .lnE2 r = s.get .lnE1 r ∧
  (compensate s r).get .lnW1 r = satS 24 ((acc + 16384) / 32768) ∧ (compensate s r).get .lnW2 r = s.get .lnW1 r ∧
  (cmdLo s r ≤ cmdHi s r → cmdLo s r ≤ (compensate s r).get .LN_CMD r ∧ (compensate s r).get .LN_CMD r ≤ cmdHi s r) ∧
  (s.get .forced r ≠ 0 → (compensate s r).get .lnInteg r = s.get .lnInteg r)

/-- The modulator's instants and the tracking of SYNCIN.
R91, R93, R94, R98 to R101, R103, R104, R106: the modulator's instants. A timebase returns to 0 at its wrap and takes a waiting
period; a carrier cycle starts at the phase's offset with its on-edge; a scheduled off-edge fires at its position; a compared
current ends the pulse of peak mode, begins the pulse of valley mode, and in an off interval sends the output to mid-level. Times
are edge steps, 320 to a tick.
R96, R97: SYNCIN. A pulse shorter than 512 edge steps is no edge; the first edge only marks its instant; a later one whose period is
within 2,134 to 204,800 edge steps becomes SYNCPER; and without an edge for four periods SYNCACT clears and every tracking rail's
lock is lost.
Completes: timebaseWrap, carrierStart, scheduledEdge, peakCompare, valleyCompare, zeroCrossing, syncinEdge, syncLoss.
Rests on the model's choices: a command that is not due leaves the state as it is (log entry 7). -/
def Obligations.ModulatorEdgesAndSyncin : Prop :=
  (∀ (r : Rail) (p : Phase) (raw prev : BitVec 12) (x : Fin 320) (s : State),
  let now := 320 * s.now + (x : Int)
  (s.get .fabricOn = 1 → s.get .sleepMode = 0 → 0 < s.get .SL_RPER r → wrapAt s r < 320 * s.now + 320 →
    s.get .SL_RMODE_SYNCEN r = 0 →
    Leads (exec (.timebaseWrap r) s) fun t => t.get .tbWrap r = s.get .tbWrap r + s.get .SL_RPER r + s.get .tbAdj r ∧
      t.get .tbAdj r = 0 ∧ t.get .SL_RPER r = s.get .perNext r) ∧
  (∀ j, memberOf s p = some ((r : Nat), j) → s.get .fabricOn = 1 → s.get .sleepMode = 0 → s.bitOf .SL_RACT j r = true →
    s.get .tbWrap r + s.get .SL_POFS p < 320 * s.now + 320 → s.get .addFrom p ≤ s.get .tbWrap r + s.get .SL_POFS p →
    s.get .ofsFrom p + 160 ≤ s.get .tbWrap r + s.get .SL_POFS p → s.get .relAt p + 160 ≤ s.get .tbWrap r + s.get .SL_POFS p →
    s.get .cycAny p = 0 → s.get .egWait p = 0 → s.get .blocked p = 0 → s.get .modHigh p = 0 → s.get .SL_RMODE_MODE r = 0 →
    s.get .offAt p + s.get .SL_RTOFFMIN r ≤ s.get .tbWrap r + s.get .SL_POFS p →
    s.get .SL_RTONMIN r ≤ s.get .SL_RPER r - s.get .SL_RDMAXT r →
    Leads (exec (.carrierStart p) s) fun t => t.get .cycStart p = s.get .tbWrap r + s.get .SL_POFS p ∧
      t.get .onAt p = s.get .tbWrap r + s.get .SL_POFS p ∧ t.get .SL_PCYC p = (s.get .SL_PCYC p + 1) % 2 ^ 32) ∧
  (railOf s p = some (r : Nat) → s.get .modHigh p = 1 → 0 < s.get .offSched p → s.get .offSched p - 1 < 320 * s.now + 320 →
    Leads (exec (.scheduledEdge p) s) fun t => t.get .offAt p = s.get .offSched p - 1 ∧ t.get .modHigh p = 0) ∧
  (railOf s p = some (r : Nat) → s.get .SL_RMODE_MODE r = 0 → s.get .modHigh p = 1 → s.get .cmpUsed p = 0 →
    s.get .phHold p = 0 → comparedValue s r p raw.toInt prev.toInt x ≥ peakThreshold s r p now →
    now ≥ s.get .onAt p + s.get .SL_RTONMIN r →
    Leads (exec (.peakCompare p raw prev x) s) fun t => t.get .cmpUsed p = 1 ∧ t.get .offAt p = now ∧ t.get .modHigh p = 0) ∧
  (∀ j, memberOf s p = some ((r : Nat), j) → s.get .SL_RMODE_MODE r = 1 → s.get .modHigh p = 0 → s.get .blocked p = 0 →
    s.get .midZc p = 0 → s.get .phHold p = 0 → s.bitOf .SL_RACT j r = true → s.get .onSched p = 0 →
    now ≥ s.get .offAt p + s.get .SL_RTOFFMIN r → valleyGate s r p now = true →
    comparedValue s r p raw.toInt prev.toInt x ≤ valleyThreshold s r p now →
    now + s.get .SL_RTONMIN r ≤ s.get .cycStart p + s.get .SL_RPER r - s.get .SL_RDMAXT r →
    Leads (exec (.valleyCompare p raw prev x) s) fun t => t.get .onAt p = now ∧
      t.get .SL_PCYC p = (s.get .SL_PCYC p + 1) % 2 ^ 32) ∧
  (railOf s p = some (r : Nat) → s.get .SL_RMODE_DCMEN r = 1 → s.get .modHigh p = 0 → s.get .blocked p = 0 →
    s.get .phHold p = 0 → s.get .insOn p = 0 → comparedValue s r p raw.toInt prev.toInt x ≤ s.get .SL_PZCD p →
    Leads (exec (.zeroCrossing p raw prev x) s) fun t => t.get .midZc p = 1)) ∧
  (∀ (x : Fin 320) (width : Nat) (r : Rail) (s : State),
  let now := 320 * s.now + (x : Int)
  (width < 512 → exec (.syncinEdge x width) s = .next s) ∧
  (512 ≤ width → s.get .syncAny = 0 → exec (.syncinEdge x width) s = .next ((s.put .syncLast now).raise .syncAny)) ∧
  (512 ≤ width → s.get .syncAny = 1 → 2134 ≤ now - s.get .syncLast → now - s.get .syncLast ≤ 204800 →
    Leads (exec (.syncinEdge x width) s) fun t => t.get .SL_SYNCPER = now - s.get .syncLast ∧ t.get .SL_STATUS_SYNCACT = 1 ∧
      t.get .syncLast = now) ∧
  (s.get .SL_STATUS_SYNCACT = 1 → 320 * s.now + 320 ≥ s.get .syncLast + 4 * s.get .SL_SYNCPER →
    Leads (exec .syncLoss s) fun t => t.get .SL_STATUS_SYNCACT = 0 ∧ t.get .SL_RSTAT_LOCK r = 0))

/-- Requests on phases that wait for the boundary, readback and the edge generators.
R108, R110, R112, R114 to R116: requests that wait for the boundary (an inserted pulse, adds and drops by slot mask), the end of a
dropped phase's hold, the readback comparison, and the edge generators: a write of SL_CSUB.GO acts at the coming boundary, where the
failed generator's phase waits for EG8 of its cluster.
Completes: pulseInsert, railPulseInsert, phaseAdd, phaseDrop, dropHoldEnd, readbackCheck, declareGeneratorFailed,
interpolatorSelftest. -/
def Obligations.PhaseRequestsAndGenerators : Prop := ∀ (r : Rail) (p : Phase) (c : Cluster) (k : Fin 8) (m : BitVec 64) (s : State),
  exec (.pulseInsert p) s = .next (s.put .insReq 1 p) ∧
  exec (.railPulseInsert r) s = .next (s.put .insAllReq 1 r) ∧
  exec (.phaseAdd r m) s = .next (s.put .addReq (orI (s.get .addReq r) m.toNat) r) ∧
  exec (.phaseDrop r m) s = .next (s.put .dropReq (orI (s.get .dropReq r) m.toNat) r) ∧
  (railOf s p = some (r : Nat) → s.get .dropState p = 2 →
    (s.get .FL_PHMEAN p ≤ s.get .SL_PZCD p ∨ s.now ≥ s.get .dropFrom p + s.get .SL_RSYNC_DRPT r) →
    Leads (exec (.dropHoldEnd p) s) fun t => t.get .dropState p = 0) ∧
  (∀ l : Fin 3, s.get .rbArmed p = 1 → s.get .egWait p = 0 → ((l : Nat) : Int) = s.get .SL_PSTAT_LEVEL p →
    s.get .SL_PSTAT_EGSP p = 0 → exec (.readbackCheck p l) s = .next ((s.put .rbArmed 0 p).put .rbCnt 0 p)) ∧
  (∀ l : Fin 3, s.get .rbArmed p = 1 → s.get .egWait p = 0 → ((l : Nat) : Int) ≠ s.get .SL_PSTAT_LEVEL p →
    s.get .rbCnt p < 2 → exec (.readbackCheck p l) s = .next ((s.put .rbArmed 0 p).put .rbCnt (s.get .rbCnt p + 1) p)) ∧
  (∀ l : Fin 3, s.get .rbArmed p = 1 → s.get .egWait p = 0 → ((l : Nat) : Int) ≠ s.get .SL_PSTAT_LEVEL p →
    s.get .rbCnt p = 2 → Leads (exec (.readbackCheck p l) s) fun t => t.get .SL_PFLAG_RBMIS p ≠ 0) ∧
  exec (.declareGeneratorFailed c k) s = .next ((s.later .SL_CSUB_K (k : Nat) c).put .csubReq 1 (8 * c + k)) ∧
  (s.get .SL_PSTAT_EGSP (8 * c + k) = 0 → s.get .egWait (8 * c + k) = 0 → s.get .SL_CEG_SPUSE c = 0 →
    bitAt (orI (s.get .SL_CEG_FAIL c) (2 ^ (k : Nat))) 8 = false → s.get .csubReq (8 * c + k) = 1 →
    (∀ i : Fin 8, i ≠ k → s.get .csubReq (8 * c + i) = 0) →
    let t := csubBoundary s c
    t.get .SL_CEG_FAIL c = orI (s.get .SL_CEG_FAIL c) (2 ^ (k : Nat)) ∧ t.get .csubReq (8 * c + k) = 0 ∧
      t.get .SL_CEG_SPUSE c = 1 ∧ t.get .SL_CEG_SPFOR c = (k : Int) ∧ t.get .egWait (8 * c + k) = 1) ∧
  (∀ failed, s.get .sluiceOn = 1 → s.get .SL_STATUS_RDY = 0 →
    Leads (exec (.interpolatorSelftest failed) s) fun t => t.get .SL_STATUS_RDY = 1)

/-- What ends an all-on burst and a transient all-off.
R120, R121, R123: what ends a burst or a transient all-off: a phase whose compared current reaches BILIM leaves the burst; the
length and the budget end it for the rail, with their flags; OFFLEN ends an all-off.
Completes: burstPhaseExit, burstLengthExpiry, burstBudgetExhausted, allOffLengthExpiry. -/
def Obligations.BurstAndAllOffEnds : Prop := ∀ (r : Rail) (p : Phase) (raw prev : BitVec 12) (x : Fin 320) (s : State),
  (railOf s p = some (r : Nat) → s.get .inBurst p = 1 → s.get .phHold p = 0 →
    comparedValue s r p raw.toInt prev.toInt x ≥ s.get .LN_BILIM r →
    Leads (exec (.burstPhaseExit p raw prev x) s) fun t => t.get .inBurst p = 0) ∧
  (s.get .burstOn r = 1 → s.now ≥ s.get .burstFrom r + s.get .LN_BURST_BLEN r →
    Leads (exec (.burstLengthExpiry r) s) fun t => t.get .burstOn r = 0 ∧ t.get .LN_TRFLAG_BLENEND r = 1 ∧
      t.get .burstEnd r = s.now) ∧
  (s.get .burstOn r = 1 → burstUsed s r ≥ s.get .LN_BBUDGET r →
    Leads (exec (.burstBudgetExhausted r) s) fun t => t.get .burstOn r = 0 ∧ t.get .LN_TRFLAG_BUDEX r = 1 ∧
      t.get .burstEnd r = s.now) ∧
  (s.get .trOff r = 1 → s.now ≥ s.get .trFrom r + s.get .LN_OFFLEN r →
    Leads (exec (.allOffLengthExpiry r) s) fun t => t.get .trOff r = 0 ∧ t.get .LN_TRFLAG_OFFEND r = 1)

/-- A weir's comparisons and modes, and the spare weirs.
R157, R159 to R162, R166, R167: a weir's comparisons. In the continuous mode a comparison above the high threshold makes the output
ABOVE (2) and one below the low threshold BELOW (1), with their flags; a comparison between the thresholds less the hysteresis makes
it INSIDE (0); the fall-back modes compare in the same way; a weir that is enabled holds INIT while it settles, and after 2 ticks is
compared against the bare thresholds. The all-off of a protection weir whose rail runs begins at ABOVE and lasts while the weir is
out of its window. A weir that a spare serves runs on the spare's configuration (R178). Inputs are in nanovolts.
R178, R179: a failed weir is replaced by the spare weir that reaches its input, which takes its configuration; a write of WP_SUB.GO
declares a weir failed, which acts at the coming boundary; self-test makes the weirs ready.
Completes: weirCrossing, weirEnable, weirSettleEnd, weirFallbackCompare, weirSubstitution, declareWeirFailed, weirSelftest.
Rests on the model's choices: spare weirs (log entry 26) and OVOFF of an all-off that goes on into FAULT (log entry 21). -/
def Obligations.WeirsAndSpares : Prop :=
  (∀ (w : Weir) (nv : Int) (x : Fin 320) (s : State),
  let c := configWeir s w
  let hi := thresholdCode s w (s.get .WR_HI c) * thresholdLsb s w
  let lo := thresholdCode s w (s.get .WR_LO c) * thresholdLsb s w
  let hys := s.get .WR_CFG_HYS c * thresholdLsb s w
  let v := weirInput s w nv
  let compares := s.get .wrRun w = 1 ∧ s.get .WR_STAT_SETTLE w = 0
  (compares → s.get .WR_STAT_EFFMODE w = 0 → hi < v → s.get .WR_STAT_OUT w ≠ 2 →
    Leads (exec (.weirCrossing w nv x) s) fun t => t.get .WR_STAT_OUT w = 2 ∧ t.get .WR_FLAG_ABOVE w = 1) ∧
  (compares → s.get .WR_STAT_EFFMODE w = 0 → v ≤ hi → v < lo → s.get .WR_STAT_OUT w ≠ 1 →
    Leads (exec (.weirCrossing w nv x) s) fun t => t.get .WR_STAT_OUT w = 1 ∧ t.get .WR_FLAG_BELOW w = 1) ∧
  (compares → s.get .WR_STAT_EFFMODE w = 0 → v < hi - hys → lo + hys < v → 0 ≤ hys →
    Leads (exec (.weirCrossing w nv x) s) fun t => t.get .WR_STAT_OUT w = 0) ∧
  (compares → 2 ≤ s.get .WR_STAT_EFFMODE w → s.get .WR_STAT_EFFMODE w ≤ 4 →
    Leads (exec (.weirFallbackCompare w nv) s) fun t => t.get .WR_STAT_OUT w = weirJudge s w (s.get .WR_STAT_OUT w) nv) ∧
  (s.get .WR_STAT_SETTLE w = 1 → s.now ≥ s.get .wrSettle w + 2 →
    Leads (exec (.weirSettleEnd w nv) s) fun t => t.get .WR_STAT_SETTLE w = 0 ∧
      t.get .WR_STAT_OUT w = if v > hi then 2 else if v < lo then 1 else 0) ∧
  (s.get .WR_CFG_EN c = 1 → s.get .wrOn w = 0 → weirActive (s.put .wrOn 1 w) w = true → weirMode s w ≠ 5 →
    Leads (exec (.weirEnable w) s) fun t => t.get .wrOn w = 1 ∧ t.get .WR_STAT_SETTLE w = 1 ∧ t.get .wrSettle w = s.now ∧
      t.get .WR_STAT_OUT w = s.get .WR_CFG_INIT c) ∧
  (∀ r : Rail, (w : Nat) = 128 + 2 * r → compares → s.get .WR_STAT_EFFMODE w = 0 → railRuns s r = true →
    s.get .ovOff r = 0 ∨ s.get .ovOff r = 1 → (s.get .WR_STAT_OUT w = 0 → s.get .ovOff r = 0) →
    (s.get .WR_STAT_OUT w = 2 → s.get .ovOff r = 1) →
    Leads (exec (.weirCrossing w nv x) s) fun t => t.get .ovOff r = (if t.get .WR_STAT_OUT w = 0 then 0
      else if t.get .WR_STAT_OUT w = 2 then 1 else s.get .ovOff r))) ∧
  (∀ (w : Weir) (s : State),
  (s.get .WR_STAT_FAIL w = 1 → s.get .WR_STAT_SUBST w = 0 → s.get .wrLoss w = 0 →
    s.bitOf .WP_STATUS_SPUSE (spareFor w) = false → s.bitOf .WP_SPFAIL (spareFor w) = false →
    Leads (exec (.weirSubstitution w) s) fun t => t.get .WR_STAT_SUBST w = 1 ∧ t.get .WR_STAT_SPIDX w = (spareFor w : Int) ∧
      t.get .WP_STATUS_SPUSE = orI (s.get .WP_STATUS_SPUSE) (2 ^ spareFor w) ∧
      ∀ f ∈ weirConfig, t.get f (176 + spareFor w) = s.get f w) ∧
  ((w : Nat) < 176 →
    exec (.declareWeirFailed w) s = .next ((s.later .WP_SUB_IDX w).put .declReq 1 w)) ∧
  ((w : Nat) < 176 → s.get .declReq w = 1 → (∀ i < 176, i ≠ (w : Nat) → s.get .declReq i = 0) → s.get .WR_STAT_SUBST w = 0 →
    declaredBoundary s = (s.put .declReq 0 w).put .WR_STAT_FAIL 1 w) ∧
  (176 ≤ (w : Nat) → exec (.declareWeirFailed w) s = .next (s.put .WP_STATUS_CFGERR 1)) ∧
  (∀ failed, s.get .weirsOn = 1 → s.get .WP_STATUS_RDY = 0 →
    Leads (exec (.weirSelftest failed) s) fun t => t.get .WP_STATUS_RDY = 1))

/-- The persistence rows of the protection matrix and the power-stage fault input.
R171, R172: the persistence rows of the protection matrix. A condition that has lasted sets its rail flag and applies the rail's
policy: 0 only flags, 1 asks for FAULT with retry and 2 for FAULT latched at the next boundary (bit n of `faultCodes` for code n). A
phase that terminates OCCNT consecutive carrier cycles is retired under policy 1.
R168, R169: the power-stage fault input of a cluster. A filtered active level, or eight raw changes without one, sends every phase
of a cluster that runs no probe to mid-level and sets its flags; the inactive level releases them; a level active for TFTMO times
256 ticks is stuck.
Completes: ovPersistence, uvPersistence, rocPersistence, phaseOcCount, loopSaturation, tfltActive, tfltInactive, tfltChatter,
tfltStuck, retryRestore. -/
def Obligations.ProtectionAndStageFaults : Prop :=
  (∀ (r : Rail) (p : Phase) (s : State),
  let asks := fun (u : State) (code : Nat) (latched : Bool) =>
    let v := u.put .faultCodes (orI (s.get .faultCodes r) (2 ^ code)) r
    if latched then v.put .faultLatchReq 1 r else v
  (0 < s.get .ovCnt r → s.get .WP_RPERS_OVPERS r ≤ s.get .ovCnt r →
    let u := s.put .WP_RFLAG_OV 1 r
    (s.get .WP_RCFG_OVPOL r = 0 → exec (.ovPersistence r) s = .next u) ∧
    (s.get .WP_RCFG_OVPOL r = 1 → railRuns s r = true → exec (.ovPersistence r) s = .next (asks u 1 false)) ∧
    (s.get .WP_RCFG_OVPOL r = 2 → railRuns s r = true → exec (.ovPersistence r) s = .next (asks u 1 true))) ∧
  (0 < s.get .uvCnt r → s.get .WP_RPERS_UVPERS r ≤ s.get .uvCnt r → railState s r = stREG →
    let u := s.put .WP_RFLAG_UV 1 r
    (s.get .WP_RCFG_UVPOL r = 0 → exec (.uvPersistence r) s = .next u) ∧
    (s.get .WP_RCFG_UVPOL r = 1 → exec (.uvPersistence r) s = .next (asks u 2 false)) ∧
    (s.get .WP_RCFG_UVPOL r = 2 → exec (.uvPersistence r) s = .next (asks u 2 true))) ∧
  (0 < s.get .rocCnt r → s.get .WP_RPERS2_ROCPERS r ≤ s.get .rocCnt r → railRuns s r = true →
    let u := s.put .WP_RFLAG_ROC 1 r
    (s.get .WP_RCFG_ROCPOL r = 0 → exec (.rocPersistence r) s = .next u) ∧
    (s.get .WP_RCFG_ROCPOL r = 1 → exec (.rocPersistence r) s = .next (asks u 3 false)) ∧
    (s.get .WP_RCFG_ROCPOL r = 2 → exec (.rocPersistence r) s = .next (asks u 3 true))) ∧
  (0 < s.get .lsatCnt r → s.get .WP_LSAT r ≤ s.get .lsatCnt r → railState s r = stREG →
    let u := s.put .WP_RFLAG_LSAT 1 r
    (s.get .WP_RCFG_LSATPOL r = 0 → exec (.loopSaturation r) s = .next u) ∧
    (s.get .WP_RCFG_LSATPOL r = 1 → exec (.loopSaturation r) s = .next (asks u 13 false)) ∧
    (s.get .WP_RCFG_LSATPOL r = 2 → exec (.loopSaturation r) s = .next (asks u 13 true))) ∧
  (railOf s p = some (r : Nat) → 0 < s.get .ocCnt p → s.get .WP_RPERS2_OCCNT r ≤ s.get .ocCnt p → phaseActive s p = true →
    s.get .PH_PSTAT_RET p = 0 → s.get .WP_RCFG2_PHOCPOL r = 1 → exec (.phaseOcCount p) s =
      .next (((s.put .ocCnt 0 p).put .WR_FLAG_OCRET 1 p).put .retReq (orI (s.get .retReq p) 2) p)) ∧
  (s.get .regMt r ≥ 160 → exec (.retryRestore r) s = .next (s.put .WP_RSTAT_RLEFT (s.get .WP_RETRY_RETRY r) r))) ∧
  (∀ (c : Cluster) (k : Fin 8) (s : State),
  (s.get .WP_CCFG_TFEN c = 1 → s.get .WP_CSTAT_TFACT c = 0 → s.get .WP_CSTAT_TFRAW c = 1 → 0 < s.get .tfRun c →
    s.get .WP_CCFG_TFFILT c ≤ s.get .tfRun c → s.get .PH_CSTAT_PSTATE c = 0 →
    Leads (exec (.tfltActive c) s) fun t => t.get .WP_CSTAT_TFACT c = 1 ∧ t.get .WP_CFLAG_TFLT c = 1 ∧
      t.get .tfMid (8 * c + k) = 1) ∧
  (s.get .WP_CCFG_TFEN c = 1 → s.get .WP_CSTAT_TFACT c = 0 → 8 ≤ s.get .tfChg c → s.get .PH_CSTAT_PSTATE c = 0 →
    Leads (exec (.tfltChatter c) s) fun t => t.get .WP_CFLAG_TFCHAT c = 1 ∧ t.get .WP_CSTAT_TFACT c = 1 ∧
      t.get .tfMid (8 * c + k) = 1) ∧
  (s.get .WP_CSTAT_TFACT c = 1 → s.get .WP_CSTAT_TFRAW c = 0 → 0 < s.get .tfRun c →
    s.get .WP_CCFG_TFFILT c ≤ s.get .tfRun c → s.get .isolReq c = 0 →
    Leads (exec (.tfltInactive c) s) fun t => t.get .WP_CSTAT_TFACT c = 0 ∧ t.get .tfMid (8 * c + k) = 0) ∧
  (s.get .WP_CSTAT_TFACT c = 1 → s.get .tfStkDone c = 0 → 256 * s.get .WP_CTF c ≤ s.get .tfAct c →
    Leads (exec (.tfltStuck c) s) fun t => t.get .WP_CFLAG_TFSTUCK c = 1 ∧ t.get .tfStuckOn c = 1))

/-- Retirement of phases, the wear counts, the spare-use summary, shedding and the probe.
R185, R188, R189, R195: the wear counts' lock, the retirement of a phase and its reversal as requests for the boundary, and the
spare-use summary. A retirement by RCIN 0 has cause 10; with the counts locked the cause is 9; an RCIN above 11 is refused.
R187, R193: shedding drops the first slot of the drop order when its test has held for SHDWELL ticks; the probe of an isolated
cluster returns its first phase that was active, and ends when the last one has passed its watch.
Completes: shedDwellExpiry, countLock, snap, summaryDone, retire, unret, probeWaitEnd, probeWatchEnd.
Rests on the model's choices: the probe's wait counted from the boundary of the isolation (log entry 23) and summary words 23 and 26
(log entry 35). -/
def Obligations.PhaseRetirementAndShedding : Prop :=
  (∀ (p : Phase) (rcin : BitVec 4) (r : Rail) (w : Fin 32) (s : State),
  exec .countLock s = .next (s.put .PH_CTRL_LOCK 1) ∧
  exec .snap s = .next ((s.put .PH_STATUS_SUMBUSY 1).put .snapReq 1) ∧
  (s.get .snapReq = 1 → Leads (exec .summaryDone s) fun t => t.get .PH_STATUS_SUMBUSY = 0 ∧ t.get .snapReq = 0 ∧
    t.get .PH_SUM w = summaryWord s w) ∧
  (s.get .PH_CTRL_LOCK = 0 → rcin.toNat ≤ 11 → exec (.retire p rcin) s = .next
    (s.put .retReq (orI (s.get .retReq p) (2 ^ (if rcin = 0 then 10 else rcin.toNat))) p)) ∧
  (11 < rcin.toNat →
    exec (.retire p rcin) s = .next (s.put .PH_STATUS_CFGERR 1)) ∧
  (s.get .PH_CTRL_LOCK = 1 → rcin.toNat ≤ 11 →
    exec (.retire p rcin) s = .next (s.put .retReq (orI (s.get .retReq p) (2 ^ 9)) p)) ∧
  (railOf s p = none ∨ (railOf s p = some (r : Nat) ∧ (railState s r = stUNUSED ∨ railState s r = stOFF ∨ railState s r = stRESTR)) →
    exec (.unret p) s = .next (s.put .unretReq 1 p)) ∧
  (railOf s p = some (r : Nat) → railState s r ≠ stUNUSED → railState s r ≠ stOFF → railState s r ≠ stRESTR →
    exec (.unret p) s = .next (s.put .PH_STATUS_CFGERR 1))) ∧
  (∀ (r : Rail) (c : Cluster) (k : Fin 8) (j : Nat) (s : State),
  (0 < s.get .shCnt r → s.get .PH_SHDWELL r ≤ s.get .shCnt r →
    (dropOrder s r).find? (fun j => !probing s (slotPhase s r j)) = some j →
    Leads (exec (.shedDwellExpiry r) s) fun t => t.get .shCnt r = 0 ∧ t.get .dropReq r = orI (s.get .dropReq r) (2 ^ j) ∧
      t.get .PH_RFLAG_SHDROP r ≠ 0) ∧
  (s.get .PH_CSTAT_PSTATE c = 1 → s.get .WP_CSTAT_TFACT c = 0 → 16 ≤ s.get .tfIn c →
    (∀ i < (k : Nat), s.get .probed (8 * c + i) = 0) → s.get .probed (8 * c + k) = 1 →
    s.get .PH_PSTAT_RET (8 * c + k) = 0 → s.get .retReq (8 * c + k) = 0 → railOf s (8 * c + k) = some (r : Nat) →
    railState s r = stREG ∨ railState s r = stRAMPUP →
    Leads (exec (.probeWaitEnd c) s) fun t => t.get .PH_CSTAT_PSTATE c = 2 ∧ t.get .PH_CSTAT_PK c = (k : Int) ∧
      t.get .probeFrom c = s.now + 1 ∧ t.get .isolated (8 * c + k) = 0) ∧
  (s.get .PH_CSTAT_PSTATE c = 2 → s.now + 1 ≥ s.get .probeFrom c + 16 * s.get .PH_CPRB c →
    (∀ i < 8, s.get .probed (8 * c + i) = 0) →
    Leads (exec (.probeWatchEnd c) s) fun t => t.get .PH_CSTAT_PSTATE c = 0 ∧ t.get .WP_CSTAT_ISOL c = 0))

/-- The states of a demand lane.
R128, R129, R130, R131, R133: the states of a demand lane and what moves it between them: enabling, block lock, HELLO, the keepalive
timeout and eight bad CRCs in a row; a lane lost in RUN falls back at the next boundary (`lossReq`).
Completes: blockLockGained, blockLockLost, laneEnable, hello, flitCrcError, reservedFlit, keepaliveTimeout.
Rests on the model's choices: a command that is not due leaves the state as it is (log entry 7). -/
def Obligations.LaneStates : Prop := ∀ (d : Domain) (f : BitVec 128) (s : State),
  (s.get .DL_CTRL_EN d = 0 ∨ laneDomain s d = none → Leads (exec (.laneEnable d) s) fun t => laneState t d = lnOFF ∧
    (laneState s d = lnRUN → ∀ x ∈ t.txFlits, x.lane ≠ (d : Nat))) ∧
  (s.get .DL_CTRL_EN d ≠ 0 → laneDomain s d ≠ none → laneState s d = lnOFF →
    Leads (exec (.laneEnable d) s) fun t => laneState t d = lnTRAIN) ∧
  (s.get .DL_CTRL_EN d ≠ 0 → laneDomain s d ≠ none → laneState s d ≠ lnOFF → exec (.laneEnable d) s = .next s) ∧
  (laneState s d = lnTRAIN → Leads (exec (.blockLockGained d) s) fun t => laneState t d = lnACQUIRE ∧ t.get .lkLock d = 1 ∧
    t.get .helloAt d = s.now) ∧
  (laneState s d = lnACQUIRE → Leads (exec (.blockLockLost d) s) fun t => laneState t d = lnTRAIN ∧ t.get .lkLock d = 0) ∧
  (laneState s d = lnRUN → Leads (exec (.blockLockLost d) s) fun t => t.get .lossReq d = 1 ∧ t.get .lkLock d = 0) ∧
  (laneState s d = lnRUN → s.now - s.get .katAt d ≥ 256 * s.get .DL_CTRL_KATMO d →
    exec (.keepaliveTimeout d) s = .next ((s.put .DL_FLAG_KATO 1 d).put .lossReq 1 d)) ∧
  (flitGood f = true → flitType f = 1 → laneState s d = lnACQUIRE → Leads (exec (.hello d f) s) fun t =>
    laneState t d = lnRUN ∧ t.get .DL_STATE_EPOCH d = ((flitEpoch f : Nat) : Int) ∧
    t.get .DL_STATE_RXSEQ d = ((flitSeq f : Nat) : Int)) ∧
  (flitGood f = true → flitType f = 1 → laneState s d = lnRUN → s.get .DL_STATE_EPOCH d ≠ ((flitEpoch f : Nat) : Int) →
    Leads (exec (.hello d f) s) fun t => t.get .DL_STATE_EPOCH d = ((flitEpoch f : Nat) : Int) ∧
      t.get .DL_STATE_RXSEQ d = ((flitSeq f : Nat) : Int) ∧ t.get .DL_FLAG_NEWEPOCH d = 1 ∧
      ∀ e, laneDomain s d = some e → ∀ k < 8, slotState s e k ≠ slFREE → slotState t e k = slUNWIND) ∧
  (flitGood f = false → laneState s d = lnRUN → Leads (exec (.flitCrcError d f) s) fun t =>
    t.get .DL_CRCERR d = min 0xFFFF (s.get .DL_CRCERR d + 1) ∧
    (7 ≤ s.get .crcRun d → t.get .DL_FLAG_CRCRUN d = 1 ∧ t.get .lossReq d = 1)) ∧
  (flitGood f = true → flitType f = 0 ∨ 4 < flitType f → laneState s d = lnRUN → (flitEpoch f : Int) = s.get .DL_STATE_EPOCH d →
    exec (.reservedFlit d f) s = .next ((s.put .crcRun 0 d).put .DL_FLAG_BADMSG 1 d)) ∧
  (flitGood f = true → flitType f = 0 ∨ 4 < flitType f → laneState s d = lnACQUIRE ∨
      (laneState s d = lnRUN ∧ (flitEpoch f : Int) ≠ s.get .DL_STATE_EPOCH d) →
    Leads (exec (.reservedFlit d f) s) fun t => t.get .DL_FLAG_BADMSG d = 1 ∧ t.get .DL_FLAG_STALE d = 1 ∧
      t.get .DL_STALECNT d = min 0xFFFF (s.get .DL_STALECNT d + 1))

/-- What a demand lane sends, and the form of its flits.
R130, R132, R139: what a lane sends: in ACQUIRE a HELLO every 256 ticks; in RUN the queued flits, a HELLO first and TELEM last,
under a sequence number that counts modulo 256; and a TELEM every TPER ticks for the domain's rails in turn.
R127, R128: a flit of the device bears its type, epoch, sequence number and body, and a CRC that matches.
Completes: helloTransmit, telemTransmit, flitTransmit. -/
def Obligations.LaneTransmissionAndFlits : Prop :=
  (∀ (d : Domain) (x : TxFlit) (e : Nat) (s : State),
  (laneState s d = lnACQUIRE → s.now ≥ s.get .helloAt d → laneDomain s d = some e →
    (s.txFlits.filter fun t => t.lane = (d : Nat)).length < 32 → Leads (exec (.helloTransmit d) s) fun t =>
      t.get .helloAt d = s.get .helloAt d + 256 ∧ ∃ b, t.txFlits = s.txFlits ++ [⟨d, 8, b⟩]) ∧
  (laneState s d = lnRUN → s.get .DL_TEL_TPER d ≠ 0 → s.now ≥ s.get .telAt d + s.get .DL_TEL_TPER d →
    laneDomain s d = some e → domainRails s e ≠ [] → (s.txFlits.filter fun t => t.lane = (d : Nat)).length < 32 →
    Leads (exec (.telemTransmit d) s) fun t => t.get .telAt d = s.now ∧
      ∃ b, t.txFlits = s.txFlits ++ [⟨d, 11, b⟩] ∧
        b % 16 = (domainRails s e).getD (s.nat .telNext d % (domainRails s e).length) 0) ∧
  (laneState s d = lnRUN → (((s.txFlits.filter fun t => t.lane = (d : Nat)).find? fun t => t.typ = 8) <|>
      ((s.txFlits.filter fun t => t.lane = (d : Nat)).find? fun t => t.typ ≠ 11) <|>
      (s.txFlits.filter fun t => t.lane = (d : Nat)).head?) = some x → Leads (exec (.flitTransmit d) s) fun t =>
    t.txFlits = s.txFlits.erase x ∧ t.get .DL_TXSEQ d = ((s.nat .DL_TXSEQ d + 1) % 256 : Nat) ∧
    t.get .txLast d = ((makeFlit x.typ (s.nat .DL_STATE_EPOCH d) (s.nat .DL_TXSEQ d) x.body).toNat : Int))) ∧
  (∀ typ epoch seq body : Nat,
  let f := makeFlit typ epoch seq body
  flitGood f = true ∧ flitType f = typ % 16 ∧ flitEpoch f = epoch % 16 ∧ flitSeq f = seq % 256 ∧
    flitField f 111 16 = body % 2 ^ 96)

/-- The messages a demand lane receives.
R131, R132, R135, R136, R141, R144, R151: a received message of the lane's domain in RUN: one of another epoch is stale and one with
an old sequence number a duplicate, each discarded and counted; a new one is taken: an ACTIVITY body is stored, a SETREQ asks for a
setpoint, a FORECAST or a GRANT_REQUEST takes the first FREE slot (one complete in the tick's last cycle is posted at the boundary),
a cancellation unwinds or frees its slot.
Completes: forecast, grantRequest, forecastCancel, activity, setreq.
Rests on the model's choices: the order of the checks of a forecast (log entry 36) and posts of the last cycle (log entry 102). -/
def Obligations.ReceivedMessages : Prop := ∀ (l : Domain) (f : BitVec 128) (ago cyc : Fin 4) (d : Nat) (s : State),
  let dlt := ((flitSeq f : Int) - s.get .DL_STATE_RXSEQ l) % 256
  let r := flitField f 19 16
  let s' := (acceptFlit s l f).1
  (∀ p ∈ [(Instr.forecast l f ago cyc, isForecast f), (.grantRequest l f ago cyc, isGrantRequest f),
      (.forecastCancel l f, isCancel f), (.activity l f, flitGood f && flitType f == 3),
      (.setreq l f, flitGood f && flitType f == 4)], p.2 = true → laneState s l = lnRUN →
    ((flitEpoch f : Int) ≠ s.get .DL_STATE_EPOCH l → exec p.1 s =
      .next (((s.put .crcRun 0 l).bump .DL_STALECNT 0xFFFF l).put .DL_FLAG_STALE 1 l)) ∧
    ((flitEpoch f : Int) = s.get .DL_STATE_EPOCH l → dlt = 0 ∨ 128 ≤ dlt → exec p.1 s =
      .next (((s.put .crcRun 0 l).bump .DL_DUPCNT 0xFFFF l).put .DL_FLAG_DUP 1 l)) ∧
    ((flitEpoch f : Int) = s.get .DL_STATE_EPOCH l → 0 < dlt → dlt < 128 → Leads (exec p.1 s) fun t =>
      t.get .DL_STATE_RXSEQ l = ((flitSeq f : Nat) : Int) ∧ t.get .katAt l = s.now)) ∧
  (laneState s l = lnRUN → (flitEpoch f : Int) = s.get .DL_STATE_EPOCH l → 0 < dlt → dlt < 128 → laneDomain s l = some d →
    (flitGood f = true → flitType f = 3 → Leads (exec (.activity l f) s) fun t => ∀ w < 5,
      t.get .DL_ACT l w = ((flitField f (31 + 16 * w) (16 + 16 * w) : Nat) : Int)) ∧
    (flitGood f = true → flitType f = 4 → s.get .DD_CFG_SETEN d = 0 → Leads (exec (.setreq l f) s) fun t =>
      t.writes = s.writes ∧ t.commits = s.commits) ∧
    (flitGood f = true → flitType f = 4 → s.get .DD_CFG_SETEN d ≠ 0 → railState s r ≠ stUNUSED →
      s.get .DM_RAILCFG_DOMAIN r = d → setpointJudge s' r (flitField f 33 20 : Nat) = .stored →
      Leads (exec (.setreq l f) s) fun t => t.written ⟨.LN_VSET, r, 0⟩ = ((flitField f 33 20 : Nat) : Int)) ∧
    ((cyc : Nat) = 3 → isForecast f = true → exec (.forecast l f ago cyc) s = .next (((s'.put .postNum (s'.nat .postNum + 1 : Nat)).put .postFlit
      f.toNat (s'.nat .postNum)).put .postFrom (8 * ago + d : Nat) (s'.nat .postNum))) ∧
    (∀ k, (cyc : Nat) ≤ 2 → (List.range 8).find? (fun k => slotState s d k == slFREE) = some k → oldState s r = stREG →
      s.get .DM_RAILCFG_DOMAIN r = d → s.get .LN_CTRL_FFEN r ≠ 0 → signed 16 (flitField f 39 24) ≠ 0 →
      s.now - (ago : Nat) + (flitField f 55 40 : Nat) ≥ s.now →
      let want := signed 16 (flitField f 39 24) * 2 ^ quarterShift s r
      (isForecast f = true → want < 0 → Leads (exec (.forecast l f ago cyc) s) fun t => slotState t d k = slWAIT ∧
        t.get .DD_SDI d k = want ∧ slotRail t d k = r ∧ t.get .DD_SSTAT_SEQ d k = ((flitSeq f : Nat) : Int)) ∧
      (isForecast f = true → 0 < want → 0 < grantable s' r want → Leads (exec (.forecast l f ago cyc) s) fun t =>
        slotState t d k = slWAIT ∧ t.get .DD_SDI d k = grantable s' r want ∧ grantable s' r want ≤ want ∧
        t.commits = s.commits ++ [⟨r, max 0 (shr (grantable s' r want) 4), .slot d k⟩]) ∧
      (isGrantRequest f = true → 0 < want → s.get .DD_CFG_GAUTO d = 0 → noGrants s d = false →
        Leads (exec (.grantRequest l f ago cyc) s) fun t => slotState t d k = slGPEND ∧ t.get .slReq d k = want ∧
          t.get .DD_GREQ_PEND d = 1)) ∧
    (∀ k, isCancel f = true → (List.range 8).find? (fun k => (slotState s d k == slGPEND || slotState s d k == slWAIT ||
        slotState s d k == slRAMP || slotState s d k == slHOLD) && s.get .DD_SSTAT_SEQ d k == (flitField f 95 88 : Nat)) = some k →
      Leads (exec (.forecastCancel l f) s) fun t =>
        slotState t d k = if slotState s d k = slGPEND then slFREE else slUNWIND))

/-- The life of a forecast slot.
R144, R146, R148, R149, R150, R151: the life of a slot on its own commands: RAMP from its start, HOLD from its end, met (in the run
of its tick, or the first free of forcing, the contribution moves into the integrator, which stays in its bank's range, and the slot
becomes FREE), missed (it unwinds), unwound (it becomes FREE), and the timeout and the decision of a grant request.
Completes: rampStart, holdStart, forecastMet, forecastMissed, unwindDone, grantTimeout, grant.
Rests on the model's choices: the run at the end of its tick (log entry 102) and a grant of at most the amount requested (log entry
37). -/
def Obligations.ForecastSlots : Prop := ∀ (d : Domain) (k : Fin 8) (amt : BitVec 22) (s : State),
  let r := slotRail s d k
  let b := s.nat .LN_STATUS_ACTBANK r
  (slotState s d k = slWAIT → s.get .slS d k ≤ s.now → s.now < s.get .slE d k →
    exec (.rampStart d k) s = .next (s.put .DD_SSTAT_STATE slRAMP d k)) ∧
  (slotState s d k = slWAIT ∨ slotState s d k = slRAMP → s.get .slS d k ≤ s.now → s.get .slE d k ≤ s.now →
    exec (.holdStart d k) s = .next (s.put .DD_SSTAT_STATE slHOLD d k)) ∧
  (metTest s d k = true → missTest s d k = false → oldState s r = stREG →
    exec (.forecastMet d k) s = .next (s.put .slMet 1 d k)) ∧
  (slotState s d k ≠ slFREE → s.get .slMet d k = 1 → oldState s r = stREG → s.get .forced r = 0 →
    let t := slotRun s d k
    slotState t d k = slFREE ∧ t.get .DD_SCON d k = 0 ∧ t.get .LN_FCMET r = min 0xFFFF (s.get .LN_FCMET r + 1) ∧
      t.get .lnInteg r = clampTo (s.get .LN_IMIN r b * 2 ^ 17) (s.get .LN_IMAX r b * 2 ^ 17)
        (satS 40 (s.get .lnInteg r + s.get .DD_SCON d k * 2 ^ 17))) ∧
  (missTest s d k = true → oldState s r = stREG → Leads (exec (.forecastMissed d k) s) fun t =>
    slotState t d k = slUNWIND ∧ t.get .LN_FCMISS r = min 0xFFFF (s.get .LN_FCMISS r + 1) ∧ t.get .LN_FCFLAG_MISS r = 1) ∧
  (slotState s d k = slUNWIND → s.get .DD_SCON d k = 0 → Leads (exec (.unwindDone d k) s) fun t =>
    slotState t d k = slFREE ∧ ∀ c ∈ t.commits, c.source ≠ .slot d k) ∧
  (slotState s d k = slGPEND → s.now - s.get .slPost d k ≥ s.get .DD_CFG_GTMO d → Leads (exec (.grantTimeout d k) s) fun t =>
    slotState t d k = slFREE) ∧
  (2 ^ 21 ≤ amt.toNat → exec (.grant d amt) s = .next (s.put .DD_GREQ_CFGERR 1 d)) ∧
  (amt.toNat < 2 ^ 21 → s.get .DD_GREQ_PEND d = 0 → exec (.grant d amt) s = .next (s.put .DD_GRANT_AMT amt.toNat d)) ∧
  (amt.toNat < 2 ^ 21 → s.get .DD_GREQ_PEND d ≠ 0 → s.nat .DD_GREQ_SLOT d = k → Leads (exec (.grant d amt) s) fun t =>
    (grantable (s.put .DD_GRANT_AMT amt.toNat d) r (min amt.toNat (s.get .slReq d k)) = 0 → slotState t d k = slFREE) ∧
    (grantable (s.put .DD_GRANT_AMT amt.toNat d) r (min amt.toNat (s.get .slReq d k)) ≠ 0 → slotState t d k = slWAIT ∧
      t.get .DD_SDI d k = grantable (s.put .DD_GRANT_AMT amt.toNat d) r (min amt.toNat (s.get .slReq d k))))

/-- Publication of events, the storm guard, channel re-arming and locks, and turnout writes.
R205, R197, R210, R202, R199: who may publish, and what a publication does: a tripped channel suppresses it, a count above SGMAX
trips the channel, and any other one is counted, watched, latched for the cores whose masks hold the channel, and queued at every
enabled turnout of the channel. A refused publication publishes nothing and sets OWNERR and LASTCH.
R207, R208, R211: re-arming a channel, locking it, and the checks of a write of a turnout.
Completes: evPub, evProxypub, evUpub, stormRearm, channelLock, turnoutConfig.
Rests on the model's choices: one event for the publications of one command (log entry 118) and the time at which an event is judged
(log entry 119). a command that is not due leaves the state as it is (log entry 7). -/
def Obligations.EventPublicationAndWrites : Prop :=
  (∀ (k : CoreId) (ch : Channel) (s : State),
  (coreMayPublish s k (supervisor s k) ch = true → exec (.evPub k ch) s = .next (publish s ch)) ∧
  (coreMayPublish s k (supervisor s k) ch = false →
    exec (.evPub k ch) s = .next ((s.raise .EV_STATUS_OWNERR).put .EV_STATUS_LASTCH (ch : Nat))) ∧
  (k = 5 ∧ supervisor s k = true ∧ s.nat .EV_CHCFG_OWNER ch = 6 → exec (.evProxypub k ch) s = .next (publish s ch)) ∧
  (¬(k = 5 ∧ supervisor s k = true ∧ s.nat .EV_CHCFG_OWNER ch = 6) →
    exec (.evProxypub k ch) s = .next ((s.raise .EV_STATUS_OWNERR).put .EV_STATUS_LASTCH (ch : Nat))) ∧
  (k = 5 ∧ s.nat .EV_CHCFG_OWNER ch = 5 ∧ s.get .EV_CHCFG_SEC ch = 0 → exec (.evUpub k ch) s = .next (publish s ch)) ∧
  (¬(k = 5 ∧ s.nat .EV_CHCFG_OWNER ch = 5 ∧ s.get .EV_CHCFG_SEC ch = 0) →
    exec (.evUpub k ch) s = .next ((s.raise .EV_STATUS_OWNERR).put .EV_STATUS_LASTCH (ch : Nat))) ∧
  (s.get .pubOnce = 0 → bitAt (s.get .EV_TRIP) ch = true → publish s ch = s.bump .EV_CHSUPP 0xFFFF ch) ∧
  (s.get .pubOnce = 0 → bitAt (s.get .EV_TRIP) ch = false → s.get .EV_CHSG_SGMAX ch ≠ 0 → windowRuns s ch = true →
    s.get .EV_CHSG_SGMAX ch ≤ s.get .sgCount ch →
    bitAt ((publish s ch).get .EV_TRIP) ch = true ∧
    (publish s ch).get .EV_CHSUPP ch = min 0xFFFF (s.get .EV_CHSUPP ch + 1) ∧
    (publish s ch).get .EV_CHPUB ch = s.get .EV_CHPUB ch ∧ (publish s ch).arrivals = s.arrivals) ∧
  (s.get .pubOnce = 0 → bitAt (s.get .EV_TRIP) ch = false → s.get .EV_CHSG_SGMAX ch = 0 →
    (publish s ch).get .EV_CHPUB ch = (s.get .EV_CHPUB ch + 1) % 65536 ∧
    bitAt ((publish s ch).get .EV_WATCH) ch = true ∧
    (∀ c < 6, bitAt (s.get .EV_WFEMASK (s.nat .maskOf c)) ch = true → (publish s ch).get .evLatch c = 1) ∧
    (s.get .sleepMode ≠ 2 → (publish s ch).arrivals = s.arrivals ++ ((List.range 144).filter fun t =>
      s.get .EV_TOCFG_EN t ≠ 0 ∧ s.nat .EV_TOCFG_CH t = ch).map fun t => ⟨t, ch, s.now⟩))) ∧
  (∀ (k : CoreId) (t : Turnout) (ch : Channel) (en : Bool) (s : State),
  (Leads (exec (.stormRearm ch) s) fun x => bitAt (x.get .EV_TRIP) ch = false ∧ x.get .sgOpen ch = 0 ∧ x.get .sgCount ch = 0) ∧
  (Leads (exec (.channelLock ch) s) fun x => bitAt (x.get .EV_LOCK) ch = true) ∧
  (k = 5 → supervisor s k = false → exec (.turnoutConfig k t ch en) s = .next s) ∧
  ((k = 5 → supervisor s k = true) → turnoutAllowed s k (supervisor s k) t ch = false →
    exec (.turnoutConfig k t ch en) s = .next (s.put .EV_STATUS_SECERR 1)) ∧
  (turnoutAllowed s k (supervisor s k) t ch = true →
    bitAt (s.get .EV_LOCK) ch = true ∨ bitAt (s.get .EV_LOCK) (s.nat .EV_TOCFG_CH t) = true →
    exec (.turnoutConfig k t ch en) s = .next (s.put .EV_STATUS_LOCKERR 1)) ∧
  (turnoutAllowed s k (supervisor s k) t ch = true → bitAt (s.get .EV_LOCK) ch = false →
    bitAt (s.get .EV_LOCK) (s.nat .EV_TOCFG_CH t) = false →
    exec (.turnoutConfig k t ch en) s = .next ((s.put .EV_TOCFG_CH (ch : Nat) t).put .EV_TOCFG_EN (if en then 1 else 0) t)))

/-- The tasks of turnouts and the capture timers.
R199, R200, R201, R204, R213, R214: a turnout's task is executed once for the oldest arrival and those that merge with it, each
judged by the turnout as it stands: a capture, the start of a compare, a commit, a pulse insertion on a rail; and what the capture
timers do.
Completes: turnoutDelivery, capture, captureRelease, compareStart, compareMatch.
Rests on the model's choices: arrivals that the deliverer merges (log entry 48) and the time at which they are judged (log entry
119). a command that is not due leaves the state as it is (log entry 7). -/
def Obligations.TurnoutsAndTimers : Prop := ∀ (u : Timer) (r : Rail) (more : Fin 16) (sub : Fin 20) (t : Turnout) (a : Arrival)
    (l : List Arrival) (s : State),
  (arrivalsAt s t = [] → exec (.turnoutDelivery t more sub) s = .next s) ∧
  (arrivalsAt s t = a :: l → s.get .sleepMode = 0 → (∀ e ∈ a :: l, turnoutTakes s t e.chan = true) →
    Leads (exec (.turnoutDelivery t more sub) s) fun x =>
    x.get .EV_TOCOAL t = min 0xFFFF (s.get .EV_TOCOAL t + (min (more : Nat) l.length : Nat))) ∧
  (arrivalsAt s t = [a] → s.get .sleepMode = 0 → turnoutTakes s t a.chan = false →
    exec (.turnoutDelivery t more sub) s = .next { s with arrivals := dropArrivals s.arrivals t 1 }) ∧
  (arrivalsAt s (2 * u) = a :: l → turnoutTakes s (2 * u) a.chan = true → s.get .CT_CFG_CAPEN u ≠ 0 → s.get .CT_STAT_CAPV u = 0 →
    Leads (exec (.capture u sub) s) fun x => x.get .CT_STAT_CAPV u = 1 ∧ x.get .CT_CAP u = a.at_ ∧
      x.get .CT_SUB u = ((sub : Nat) : Int) ∧ arrivalsAt x (2 * u) = l) ∧
  (arrivalsAt s (2 * u) = a :: l → turnoutTakes s (2 * u) a.chan = true → s.get .CT_CFG_CAPEN u ≠ 0 → s.get .CT_STAT_CAPV u ≠ 0 →
    Leads (exec (.capture u sub) s) fun x => x.get .CT_STAT_OVR u = 1 ∧ x.get .CT_LOST u = min 0xFFFF (s.get .CT_LOST u + 1) ∧
      x.get .CT_CAP u = s.get .CT_CAP u) ∧
  (arrivalsAt s (2 * u + 1) = a :: l → turnoutTakes s (2 * u + 1) a.chan = true → Leads (exec (.compareStart u) s) fun x => x.get .startPend u = 1 ∧
      x.get .startCmp u = (a.at_ + s.get .CT_DLY u) % 2 ^ 64 ∧ arrivalsAt x (2 * u + 1) = l) ∧
  (∀ n : Turnout, (n : Nat) = 80 + (r : Nat) → arrivalsAt s n = a :: l → s.get .sleepMode = 0 → turnoutTakes s n a.chan = true →
    Leads (exec (.turnoutDelivery n more sub) s) fun x =>
    x.get .LN_STATUS_COMMITPEND r = 1) ∧
  (∀ n : Turnout, (n : Nat) = 96 + (r : Nat) → arrivalsAt s n = a :: l → s.get .sleepMode = 0 → turnoutTakes s n a.chan = true →
    Leads (exec (.turnoutDelivery n more sub) s) fun x =>
    x.get .insAllReq r = 1) ∧
  exec (.captureRelease u) s = .next (s.put .CT_STAT_CAPV 0 u) ∧
  (s.get .sleepMode ≠ 2 → s.get .CT_CFG_CMPEN u ≠ 0 → s.get .CT_CMP u ≤ s.now → s.get .cmpFrom u ≤ s.now →
    s.get .CT_PER u = 0 → Leads (exec (.compareMatch u) s) fun x => x.get .CT_STAT_MATCH u = 1 ∧ x.get .CT_CFG_CMPEN u = 0) ∧
  (s.get .sleepMode ≠ 2 → s.get .CT_CFG_CMPEN u ≠ 0 → s.get .CT_CMP u ≤ s.now → s.get .cmpFrom u ≤ s.now →
    s.get .CT_PER u ≠ 0 → Leads (exec (.compareMatch u) s) fun x => x.get .CT_STAT_MATCH u = 1 ∧
      x.get .CT_CMP u = (s.get .CT_CMP u + s.get .CT_PER u) % 2 ^ 64 ∧ x.get .CT_CFG_CMPEN u = s.get .CT_CFG_CMPEN u) ∧
  (s.get .sleepMode ≠ 2 → s.get .CT_CFG_CMPEN u ≠ 0 → s.get .CT_CMP u ≤ s.now → s.get .cmpFrom u ≤ s.now →
    s.get .CT_CFG_OUTEN u ≠ 0 → Leads (exec (.compareMatch u) s) fun x =>
      x.arrivals = (publish (s.raise .CT_STAT_MATCH u) (s.nat .CT_CFG_OUTCH u)).arrivals) ∧
  (s.get .CT_CFG_CMPEN u = 0 ∨ s.now < s.get .CT_CMP u → exec (.compareMatch u) s = .next s)

/-- Pending states, rate limits and timeouts of interrupt sources, and the request presented to a core.
R316, R317, R323, R324, R326, R329: the commands of the interrupt distributor: a source's level is sampled and its edges are latched
under the sense modes that take them; SPEND, CLR and TGT are written by those who may (user code of the management core does not
reach them); the ends of the rate-limit window and of the stranding time.
R318: the request presented to a core is an eligible source, and no eligible source is better: of equal priorities the lower number
wins; where none is presented, none is eligible.
Completes: interruptAssert, spend, clr, retarget, rateLimitWindowEnd, strandTimeout.
Rests on the model's choices: levels taken at INTERRUPT_ASSERT (log entry 67). a command that is not due leaves the state as it is
(log entry 7). -/
def Obligations.InterruptSources : Prop :=
  (∀ (k : CoreId) (n : Source) (t : Fin 8) (s : State),
  (s.get .sleepMode = 0 ∨ vddaoSource s n = true → rawLevel s n = true → s.get .irPrev n = 0 → s.get .IR_SRCCFG_SENSE n = 1 ∨ s.get .IR_SRCCFG_SENSE n = 3 →
    Leads (exec (.interruptAssert n) s) fun x => x.get .irEdge n = 1 ∧ x.get .irPrev n = 1) ∧
  (s.get .sleepMode = 0 ∨ vddaoSource s n = true → rawLevel s n = false → s.get .irPrev n ≠ 0 → s.get .IR_SRCCFG_SENSE n = 2 ∨ s.get .IR_SRCCFG_SENSE n = 3 →
    Leads (exec (.interruptAssert n) s) fun x => x.get .irEdge n = 1 ∧ x.get .irPrev n = 0) ∧
  (rawLevel s n = true ∧ s.get .irPrev n ≠ 0 ∨ rawLevel s n = false ∧ s.get .irPrev n = 0 →
    Leads (exec (.interruptAssert n) s) fun x => x.get .irEdge n = s.get .irEdge n ∧ x.get .irPrev n = s.get .irPrev n) ∧
  (supervisor s k = true → k = 5 ∨ effTarget s n = k → Leads (exec (.spend k n) s) fun x => x.get .IR_SRCST_SPEND n = 1 ∧ irPending x n = true) ∧
  (supervisor s k = true → ¬(k = 5 ∨ effTarget s n = k) → exec (.spend k n) s = .next (s.put .IR_STATUS_CFGERR 1)) ∧
  (supervisor s k = true → k = 5 ∨ effTarget s n = k → Leads (exec (.clr k n) s) fun x => x.get .IR_SRCST_SPEND n = 0 ∧ x.get .irEdge n = 0) ∧
  (supervisor s k = true → ¬(k = 5 ∨ effTarget s n = k) → exec (.clr k n) s = .next (s.put .IR_STATUS_CFGERR 1)) ∧
  (supervisor s k = false → exec (.spend k n) s = .next s ∧ exec (.clr k n) s = .next s ∧ exec (.retarget k n t) s = .next s) ∧
  (supervisor s 5 = true → (n : Nat) < 252 → (t : Nat) < 6 → Leads (exec (.retarget 5 n t) s) fun x => x.get .IR_SRCCFG_TGT n = ((t : Nat) : Int)) ∧
  (supervisor s 5 = true → (n : Nat) < 252 → 6 ≤ (t : Nat) → exec (.retarget 5 n t) s = .next (s.put .IR_STATUS_CFGERR 1)) ∧
  (252 ≤ (n : Nat) → exec (.retarget 5 n t) s = .next s) ∧
  (k ≠ 5 → supervisor s k = true → exec (.retarget k n t) s = .next (s.put .IR_STATUS_CFGERR 1)) ∧
  (s.get .sleepMode = 0 → s.get .irWin n ≠ 0 → s.now ≥ s.get .irWinEnd n → Leads (exec (.rateLimitWindowEnd n) s) fun x =>
    rateHeld x n = false ∧ x.get .irCnt n = 0 ∧ x.get .irWin n = 0) ∧
  (s.get .sleepMode = 0 → s.get .irStrOn n ≠ 0 → irPending s n = true → effTarget s n ≠ 5 → unavailable s (effTarget s n) = true →
    s.now ≥ s.get .irStrAt n + 160 * s.get .IR_CTRL_STRTMO → Leads (exec (.strandTimeout n) s) fun x =>
      effTarget x n = 5 ∧ x.get .IR_SRCST_STRAND n = 1 ∧ x.get .IR_STATUS_STRAND = 1)) ∧
  (∀ (k : Nat) (s : State),
  (∀ n, presented s k = some n → n < 254 ∧ eligible s k n (s.get .IR_CRUN_RUN k) = true ∧
    ∀ m < 254, eligible s k m (s.get .IR_CRUN_RUN k) = true → s.get .IR_SRCCFG_PRIO n < s.get .IR_SRCCFG_PRIO m ∨
      s.get .IR_SRCCFG_PRIO n = s.get .IR_SRCCFG_PRIO m ∧ n ≤ m) ∧
  (presented s k = none → ∀ m < 254, eligible s k m (s.get .IR_CRUN_RUN k) = false))

/-- Freeze, LBIST and takeover of the lock-step pairs.
R333, R334, R336, R339, R340: the lock-step pairs: a difference freezes the pair, records its group and time and loses its
registers, and a free TC4 takes its duties over; LBIST ends 1.2 ms after the freeze and says what the pair becomes; the taking pair
is released at the start address of the core whose duties it does; DONE ends the takeover; a debug halt splits the pair.
Completes: mismatchFreeze, lbistDone, takeoverRelease, done, debugHalt.
Rests on the model's choices: what a takeover gives TC4 (log entry 64). a command that is not due leaves the state as it is (log
entry 7). -/
def Obligations.LockStepPairs : Prop := ∀ (k : CoreId) (g : Fin 6) (p c : Bool) (s : State),
  (s.get .LS_PAIR_STATE k = pairLOCKSTEP → s.get .coreOn k ≠ 0 → s.get .sleepMode = 0 →
    Leads (exec (.mismatchFreeze k g) s) fun t => t.get .LS_PAIR_STATE k = pairFROZEN ∧
      t.get .LS_MM_GROUP k = ((g : Nat) : Int) ∧ t.get .LS_MM_V k = 1 ∧ t.get .LS_MM_COUNT k = min 255 (s.get .LS_MM_COUNT k + 1) ∧
      t.get .LS_MMT k = s.now % 65536 ∧ t.get .coreOn k = 0 ∧ t.get .lbistAt k = s.now ∧ ∀ n, t.get .coreD k n = 0) ∧
  (s.get .LS_PAIR_STATE k = pairLOCKSTEP → s.get .coreOn k ≠ 0 → s.get .sleepMode = 0 → (k : Nat) < 4 → spareFree s = true →
    ∀ n, dutyOf s k = some n → Leads (exec (.mismatchFreeze k g) s) fun t => t.get .dutyPair n = 4 ∧
      t.get .LS_STATUS_TKOVER = 1 ∧ t.get .LS_STATUS_TKFOR = n ∧ t.get .tkHold 4 = 1 ∧ t.get .tkAt 4 = s.now ∧
      t.get .coreOn 4 = 0 ∧ t.get .tcmOf 4 = n ∧ t.get .maskOf 4 = n) ∧
  (s.get .LS_PAIR_STATE k ≠ pairLOCKSTEP → exec (.mismatchFreeze k g) s = .next s) ∧
  (s.get .LS_PAIR_STATE k = pairFROZEN → s.now ≥ s.get .lbistAt k + 192000 → Leads (exec (.lbistDone k p c) s) fun t =>
    t.get .LS_PAIR_STATE k = (if p && c then pairLOCKSTEP else if p || c then pairSINGLE else pairFUSED) ∧
    t.get .LS_PAIR_LBP k = (if p then 1 else 0) ∧ t.get .LS_PAIR_LBC k = (if c then 1 else 0) ∧
    t.get .LS_PAIR_SURV k = (if !p && c then 1 else 0) ∧ (k = 5 → p || c → t.get .PW_RSTCAUSE_MCCAUSE = 5)) ∧
  (s.get .LS_PAIR_STATE k = pairFROZEN → s.now < s.get .lbistAt k + 192000 → exec (.lbistDone k p c) s = .next s) ∧
  (s.get .tkHold k ≠ 0 → s.now ≥ s.get .tkAt k + 12 → Leads (exec (.takeoverRelease k) s) fun t => t.get .tkHold k = 0 ∧
    t.get .PW_TCCTL_HELD k = 0 ∧ (∀ n, dutyOf s k = some n → t.get .LS_PAIR_DUTY k = n) ∧
    (pairRuns s k = true → t.get .coreOn k = 1 ∧ t.get .corePc k = s.get .PW_TCSTART (s.nat .tcmOf k))) ∧
  (s.get .LS_STATUS_TKOVER ≠ 0 → s.get .LS_PAIR_DUTY k = s.get .LS_STATUS_TKFOR → k ≠ 5 →
    exec (.done k) s = .next (s.put .LS_STATUS_TKOVER 0)) ∧
  (s.get .LS_PAIR_DUTY k ≠ s.get .LS_STATUS_TKFOR → exec (.done k) s = .next s) ∧
  (s.get .OT_STATUS_DBGLOCK = 0 → s.get .LS_PAIR_STATE k = pairLOCKSTEP → exec (.debugHalt k) s =
    .next (((s.put .coreDbg 1 k).put .LS_PAIR_STATE pairSPLIT k).put .LS_STATUS_DBGSPLIT 1)) ∧
  (s.get .OT_STATUS_DBGLOCK ≠ 0 ∨ s.get .LS_PAIR_STATE k = pairFROZEN → exec (.debugHalt k) s = .next s)

/-- Row repair, page retirement in DDR4 and the scrub units.
R418, R419, R433: a scrub unit starts where none is in progress and its address lies in the memory, and at its end the result
registers hold its corrected errors, those that stood in its words and `ce` more, and whether a word was or is uncorrectable.
R344 to R346, R348 to R350: row repair of the SRAMs and the DDR4 controller: a row with corrected errors at 4 addresses is repaired
while a repair row is left; an uncorrectable error, or the CETHR-th corrected one, retires the page; it is remapped into the pool,
whose page holds the old one's words once the copy has ended, with the unreadable beats poisoned; training, refresh, calibration and
the lock.
Completes: rowRepair, rowRepairDone, trainingDone, refresh, zqcs, pageRetire, pageRetireDone, retadd, ddrLock, scrubGo, scrubDone.
Rests on the model's choices: which corrected errors count towards a repair (log entry 140). a command that is not due leaves the
state as it is (log entry 7). -/
def Obligations.RepairScrubAndRetirement : Prop :=
  (∀ (ce : Nat) (bad : List Nat) (s : State),
  let m := s.nat .MS_SCRUBCTL_MEM
  (s.get .MS_SCRUBCTL_BUSY = 0 → s.nat .MS_SCRUBADDR < scrubSize s m → exec .scrubGo s = .next (s.put .MS_SCRUBCTL_BUSY 1)) ∧
  (s.get .MS_SCRUBCTL_BUSY ≠ 0 ∨ scrubSize s m ≤ s.nat .MS_SCRUBADDR → exec .scrubGo s = .next (s.put .MS_SCRUBCTL_ERR 1)) ∧
  (s.get .MS_SCRUBCTL_BUSY ≠ 0 → Leads (exec (.scrubDone ce bad) s) fun t => t.get .MS_SCRUBCTL_DONE = 1 ∧
    t.get .MS_SCRUBRES_CE = min 1023 (scrubErrors s ce : Int) ∧
    (t.get .MS_SCRUBRES_UE = 1 ↔ bad ≠ [] ∨ ∃ i < scrubUnit m, scrubKnown s i = true) ∧
    (m < 7 → t.get .MS_CE m = min 0xFFFF (s.get .MS_CE m + scrubErrors s ce) ∧
      (∀ w ∈ bad, t.get .memBad (sramBase m + scrubBase s + w % 512) = 1) ∧
      (∀ i ∈ scrubSoft s, t.soft.contains (sramBase m + scrubBase s + i) = false)) ∧
    (m = 7 → 0 < scrubErrors s ce → t.get .D4_CECNT = min 0xFFFF (s.get .D4_CECNT + scrubErrors s ce)) ∧
    (8 ≤ m → t.get .UC_ECC = min 0xFFFF (s.get .UC_ECC + scrubErrors s ce) ∧
      ∀ w ∈ bad, t.get .ucBad (m - 8) (scrubBase s + w % 64) = 1))) ∧
  (∀ (m : Fin 7) (row : Fin 2048) (badR : List (Fin 512)) (a : BitVec 31)
    (badP : List (Fin 1024)) (pg : BitVec 20) (good : Bool) (i : Nat) (s : State),
  let page := s.nat .D4_RET_PAGE i
  let src := 0x80000000 + 2048 * page
  let dst := 0x80000000 + 2048 * poolPage s i
  (rowErrors s m row < 4 → exec (.rowRepair m row) s = .next s) ∧
  (s.get .rrBusy m = 0 → (row : Nat) < sramRows m → 4 ≤ rowErrors s m row → s.get .MS_REP_REPUSED m < repairRows m →
    exec (.rowRepair m row) s = .next ((s.put .rrBusy 1 m).put .rrRow (row : Nat) m)) ∧
  (s.get .rrBusy m = 0 → (row : Nat) < sramRows m → 4 ≤ rowErrors s m row → s.get .MS_REP_REPUSED m ≥ repairRows m →
    exec (.rowRepair m row) s = .next (s.put .MS_REP_NOREP 1 m)) ∧
  (s.get .rrBusy m ≠ 0 → Leads (exec (.rowRepairDone m badR) s) fun t => t.get .rrBusy m = 0 ∧
    t.get .MS_REP_REPUSED m = min (repairRows m) (s.get .MS_REP_REPUSED m + 1) ∧
    ∀ w ∈ badR, t.get .memBad (sramBase m + 512 * s.nat .rrRow m + (w : Nat)) = 1) ∧
  (ddrUsable s (0x80000000 + a.toNat) = true → Leads (exec (.pageRetire a true) s) fun t =>
    t.get .D4_UECNT = min 0xFFFF (s.get .D4_UECNT + 1) ∧ t.get .D4_ERRADDR = ((0x80000000 + a.toNat : Nat) : Int) ∧
    (s.nat .D4_NRET < 1024 → isRetired t (pageOf a.toNat) = true)) ∧
  (ddrUsable s (0x80000000 + a.toNat) = true → Leads (exec (.pageRetire a false) s) fun t =>
    let c := ((s.ceTrack.find? fun e => e.1 == pageOf a.toNat).map (·.2)).getD 0 + 1
    t.get .D4_CECNT = min 0xFFFF (s.get .D4_CECNT + 1) ∧
    (s.get .D4_RETCFG_CETHR ≤ (c : Nat) → s.nat .D4_NRET < 1024 → isRetired t (pageOf a.toNat) = true) ∧
    ((c : Int) < s.get .D4_RETCFG_CETHR → t.ceTrack.getLast? = some (pageOf a.toNat, c) ∧ t.get .D4_NRET = s.get .D4_NRET)) ∧
  (Leads (exec (.retadd pg) s) fun t => (s.nat .D4_NRET < 1024 → isRetired t pg.toNat = true) ∧
    (isRetired s pg.toNat = false → 1024 ≤ s.nat .D4_NRET → t.get .D4_STATUS_LISTFULL = 1)) ∧
  ((List.range 512).find? (copyPending s) = some i → retiredAt s page = some i → Leads (exec (.pageRetireDone badP) s) fun t =>
    ((∀ j < 512, j ≠ i → copyPending s j = false) → t.get .D4_STATUS_RETBUSY = 0) ∧ copyPending t i = false ∧
    (∀ w < 2048, (s.get .memBad (src + w) ≠ 0 ∨ ∃ b ∈ badP, (b : Nat) = w / 2) → t.get .memBad (dst + w) = 1) ∧
    (∀ w < 2048, s.get .memBad (src + w) = 0 → (∀ b ∈ badP, (b : Nat) ≠ w / 2) →
      t.wordAt (dst + w) = s.wordAt (src + w) ∧ t.get .memBad (dst + w) = 0) ∧
    (∀ x, pageOf x = page → ddrWord t x = dst + x % 2048)) ∧
  (s.get .D4_CFG_SIZE ≠ 0 → s.get .D4_STATUS_TRAINERR = 0 → exec (.trainingDone true) s = .next (s.put .D4_STATUS_RDY 1)) ∧
  (s.get .D4_CFG_SIZE ≠ 0 → exec (.trainingDone false) s =
    .next (((s.put .D4_STATUS_TRAINERR 1).put .RC_STATUS_NODDR 1).put .RC_CTRL_EN 0)) ∧
  (s.get .D4_CFG_SIZE = 0 → exec (.trainingDone good) s = .next ((s.put .RC_STATUS_NODDR 1).put .RC_CTRL_EN 0)) ∧
  (ddrReady s = true → s.get .D4_STATUS_SREF = 0 → exec .refresh s =
    .next ((s.put .d4RefAt s.now).put .d4Double (if refreshDoubled s then 1 else 0))) ∧
  (ddrReady s = true → s.get .D4_STATUS_SREF = 0 → s.now ≥ s.get .d4ZqAt + 20480000 → exec .zqcs s =
    .next (s.put .d4ZqAt s.now)) ∧
  exec .ddrLock s = .next (s.put .D4_CTRL_LOCK 1))

/-- The control of DMA channels and what a running channel copies.
R352, R354, R357, R358: the commands of a DMA channel's registers: a trigger starts an idle channel, is counted while it is busy or
halted, and is lost with 15 pending; RESUME and ABORT; a write that is not the owner's is refused with ERR 4.
R352, R353, R355, R357: what a running channel does: it copies one word between memories and steps both addresses, its burst ends
with the last word; a scatter-gather channel reads its next descriptor of eight words, and halts on a malformed one; a failed access
is repeated, a failed write with the word already read.
Completes: dmaTrigger, dmaWord, dmaDescriptor, dmaRetry, resume, abort.
Rests on the model's choices: RESUME keeps ERR, and retries of descriptors (log entry 63). a command that is not due leaves the
state as it is (log entry 7). -/
def Obligations.DmaChannels : Prop :=
  (∀ (ag : Agent) (c : DmaCh) (s : State),
  (dmaMayWrite s ag c = false → exec (.dmaTrigger ag c) s = .next (s.put .DMA_STAT_ERR 4 c) ∧
    exec (.resume ag c) s = .next (s.put .DMA_STAT_ERR 4 c) ∧ exec (.abort ag c) s = .next (s.put .DMA_STAT_ERR 4 c)) ∧
  (dmaMayWrite s ag c = true →
    (s.get .DMA_CFG_EN c = 0 ∨ s.get .DMA_CFG_TRGEN c = 0 → exec (.dmaTrigger ag c) s = .next s) ∧
    (s.get .DMA_CFG_EN c ≠ 0 → s.get .DMA_CFG_TRGEN c ≠ 0 → s.get .DMA_STAT_BUSY c = 0 → s.get .DMA_STAT_HALT c = 0 →
      ((c : Nat) < 12 → exec (.dmaTrigger ag c) s =
        .next ((s.put .DMA_STAT_BUSY 1 c).put .dmaLeft (s.get .DMA_CNT_BURST c) c)) ∧
      (12 ≤ (c : Nat) → exec (.dmaTrigger ag c) s =
        .next (((s.put .DMA_STAT_BUSY 1 c).put .dmaNeed 1 c).put .dmaNext (s.get .DMA_LIST c) c))) ∧
    (s.get .DMA_CFG_EN c ≠ 0 → s.get .DMA_CFG_TRGEN c ≠ 0 → s.get .DMA_STAT_BUSY c ≠ 0 ∨ s.get .DMA_STAT_HALT c ≠ 0 →
      (s.get .DMA_STAT_PEND c < 15 → exec (.dmaTrigger ag c) s = .next (s.put .DMA_STAT_PEND (s.get .DMA_STAT_PEND c + 1) c)) ∧
      (15 ≤ s.get .DMA_STAT_PEND c → exec (.dmaTrigger ag c) s = .next (s.put .DMA_STAT_OVR 1 c))) ∧
    (s.get .DMA_STAT_HALT c ≠ 0 → Leads (exec (.resume ag c) s) fun t => t.get .DMA_STAT_HALT c = 0 ∧ t.get .dmaFail c = 0 ∧
      t.get .dmaTries c = 0 ∧ t.get .DMA_SRC c = s.get .DMA_SRC c ∧ t.get .dmaLeft c = s.get .dmaLeft c) ∧
    (s.get .DMA_STAT_HALT c = 0 → exec (.resume ag c) s = .next s) ∧
    (Leads (exec (.abort ag c) s) fun t => t.get .DMA_STAT_PEND c = 0 ∧ t.get .DMA_STAT_BUSY c = 0 ∧
      t.get .DMA_STAT_HALT c = 0 ∧ t.get .DMA_SRC c = s.get .DMA_SRC c ∧ t.get .DMA_DST c = s.get .DMA_DST c))) ∧
  (∀ (c : DmaCh) (s : State),
  let src := s.nat .DMA_SRC c
  let dst := s.nat .DMA_DST c
  let d := s.nat .dmaNext c
  let w := fun i => ((s.wordAt (d + i)).toNat : Int)
  let retried := (s.put .dmaTries (s.get .dmaTries c + 1) c).put .dmaFail 0 c
  (dmaRuns s c = true → s.get .dmaNeed c = 0 → s.get .dmaFail c = 0 → sramOf src ≠ none → sramOf dst ≠ none →
    accessWaits s src = false → accessWaits s dst = false → dmaAllows s c src .read = true → dmaAllows s c dst .write = true →
    s.get .memBad src = 0 → Leads (exec (.dmaWord c) s) fun t =>
      t.wordAt dst = s.wordAt src ∧ (∀ a, a ≠ dst → t.wordAt a = s.wordAt a) ∧
      t.get .DMA_SRC c = ((dmaStep s c src 0 : Nat) : Int) ∧ t.get .DMA_DST c = ((dmaStep s c dst 1 : Nat) : Int) ∧
      (1 < s.get .dmaLeft c → t.get .dmaLeft c = s.get .dmaLeft c - 1 ∧ t.get .DMA_STAT_BUSY c = s.get .DMA_STAT_BUSY c) ∧
      (s.get .dmaLeft c = 1 → (c : Nat) < 12 → t.get .DMA_STAT_DONE c = 1 ∧
        (s.get .DMA_STAT_PEND c = 0 → t.get .DMA_STAT_BUSY c = 0))) ∧
  (dmaRuns s c = true → 12 ≤ (c : Nat) → s.get .dmaNeed c ≠ 0 → s.get .dmaFail c = 0 → region d = .sram → region (d + 7) = .sram →
    (∀ i < 8, s.get .memBad (d + i) = 0) →
    (w 4 ≠ 0 → w 5 < 4 → Leads (exec (.dmaDescriptor c) s) fun t => t.get .dmaNeed c = 0 ∧
      t.get .DMA_SRC c = w 0 + 65536 * w 1 ∧ t.get .DMA_DST c = w 2 + 65536 * w 3 ∧ t.get .dmaLeft c = w 4 ∧
      t.get .dmaLast c = w 5 % 2 ∧ t.get .dmaIrq c = w 5 / 2 ∧ t.get .dmaNext c = w 6 + 65536 * w 7) ∧
    (w 4 = 0 ∨ 4 ≤ w 5 → Leads (exec (.dmaDescriptor c) s) fun t => t.get .DMA_STAT_HALT c = 1 ∧ t.get .DMA_STAT_ERR c = 3)) ∧
  (dmaRuns s c = true → s.get .dmaFail c ≠ 0 → s.get .dmaFail c ≠ 2 → s.get .dmaNeed c = 0 →
    exec (.dmaRetry c) s = exec (.dmaWord c) retried) ∧
  (dmaRuns s c = true → 12 ≤ (c : Nat) → s.get .dmaFail c ≠ 0 → s.get .dmaNeed c ≠ 0 →
    exec (.dmaRetry c) s = exec (.dmaDescriptor c) retried) ∧
  (dmaRuns s c = true → s.get .dmaFail c = 2 → s.get .dmaNeed c = 0 → sramOf dst ≠ none → dmaAllows s c dst .write = true →
    Leads (exec (.dmaRetry c) s) fun t => t.wordAt dst = BitVec.ofInt 16 (s.get .dmaData c) ∧
      t.get .DMA_DST c = ((dmaStep s c dst 1 : Nat) : Int)))

/-- The Tailwater recorder's ring, freeze, window and message records.
R359, R361 to R364, R366: the recorder: the oldest queued record goes into the ring at the write index, which then advances; a
frozen ring takes none; FRZNOW, RESUME and the end of the post-count; the staging window; and a message record of a core.
Completes: recordWrite, ringFrozen, frznow, rcResume, stgarm, trig, stagingWindowDone, msggo.
Rests on the model's choices: FRZNOW freezes after the post-count (log entry 130). a command that is not due leaves the state as it
is (log entry 7). -/
def Obligations.RecorderCommands : Prop := ∀ (q : QRec) (rest : List QRec) (by_ k : CoreId) (s : State),
  let at_ := s.nat .RC_BASE + 16 * s.nat .RC_WIDX
  (s.recQueue = q :: rest → s.get .RC_STATUS_FROZEN = 0 → s.get .recPosting = 0 ∨ s.get .recPost ≠ 0 →
    (∀ n < q.words.length, ddrUsable s (at_ + n) = true) → q.words ≠ [] → Leads (exec .recordWrite s) fun t =>
      t.recQueue = rest ∧ t.get .RC_WIDX = (s.get .RC_WIDX + 1) % 2 ^ 24 ∧
      (∀ n (h : n < q.words.length), t.wordAt (storageOf s (at_ + n)) = q.words[n]) ∧
      (s.nat .RC_WIDX = 2 ^ 24 - 1 → t.get .RC_STATUS_WRAPPED = 1) ∧
      (q.freeze = true → s.get .recPosting = 0 → t.get .recPosting = 1 ∧ t.get .recPost = s.get .RC_FRZPOST) ∧
      (s.get .recPosting ≠ 0 → t.get .recPost = s.get .recPost - 1)) ∧
  (s.recQueue = [] ∨ s.get .RC_STATUS_FROZEN ≠ 0 → exec .recordWrite s = .next s) ∧
  (s.get .recPosting ≠ 0 → s.get .recPost = 0 → exec .ringFrozen s = .next ((s.put .RC_STATUS_FROZEN 1).put .recPosting 0)) ∧
  (s.get .RC_STATUS_NODDR = 0 → s.get .RC_STATUS_FROZEN = 0 → s.get .recPosting = 0 → Leads (exec .frznow s) fun t =>
    t.get .recPosting = 1 ∧ t.get .recPost = s.get .RC_FRZPOST ∧ t.get .recFrzAt = s.now) ∧
  (s.get .RC_STATUS_NODDR = 0 → s.get .RC_STATUS_FROZEN ≠ 0 ∨ s.get .recPosting ≠ 0 → Leads (exec .frznow s) fun t =>
    t.get .recPosting = s.get .recPosting ∧ t.get .recPost = s.get .recPost ∧ t.get .recFrzAt = s.now) ∧
  (s.get .recFrzAt ≠ s.now → exec .rcResume s = .next (s.put .RC_STATUS_FROZEN 0)) ∧
  (s.get .recFrzAt = s.now → exec .rcResume s = .next s) ∧
  (s.get .RC_STATUS_NODDR = 0 → exec .stgarm s =
    .next (((s.put .RC_STATUS_STGARMED 1).put .RC_STATUS_WINV 0).put .stgOn 0)) ∧
  (s.get .RC_STATUS_NODDR ≠ 0 → exec .stgarm s = .next s ∧ exec .frznow s = .next s) ∧
  (s.get .RC_STATUS_STGARMED ≠ 0 → s.get .stgOn = 0 → exec .trig s =
    .next (((s.put .RC_STGTRIG (s.get .stgJ)).put .stgOn 1).put .stgLeft (65536 - s.get .RC_STGPRE))) ∧
  (s.get .RC_STATUS_STGARMED = 0 ∨ s.get .stgOn ≠ 0 → exec .trig s = .next s) ∧
  (s.get .RC_STATUS_STGARMED ≠ 0 → s.get .stgOn ≠ 0 → s.get .stgLeft = 0 → exec .stagingWindowDone s =
    .next (((s.put .RC_STATUS_STGARMED 0).put .stgOn 0).put .RC_STATUS_WINV 1)) ∧
  (by_ = 5 ∨ by_ = k → s.get .recMsgAt k = s.now → exec (.msggo by_ k) s = .next (s.put .RC_STATUS_CFGERR 1)) ∧
  (by_ = 5 ∨ by_ = k → s.get .recMsgAt k ≠ s.now → s.get .recEnab ≠ 0 → s.get .RC_STATUS_FROZEN = 0 → s.recQueue.length < 64 →
    Leads (exec (.msggo by_ k) s) fun t => t.get .recSeq = (s.get .recSeq + 1) % 256 ∧ t.recQueue = s.recQueue ++
      [⟨mkRecord 5 k (s.nat .recSeq) s.now ((List.range 11).map fun n => BitVec.ofInt 16 (s.get .RC_MSG k n)), false⟩]) ∧
  (by_ ≠ 5 → by_ ≠ k → exec (.msggo by_ k) s = .next s)

/-- The arithmetic of majors 1 to 3, with results, flags and frame.
R218, R244, R249, R251, R261, R262: the arithmetic of majors 1 to 3, with a register, a 16-bit or a quick operand: the result, N and
Z of it, C and V by class, SAT where a saturating form limits; comparisons write no register; nothing else changes but the pc.
Completes: mov, add, adc, sub, sbc, andReg, orReg, xorReg, cmp, tst, adds, subs, neg, notReg, abs, minReg, maxReg, minu, maxu,
swapb, movq, addq, subq, cmpq, movn, addsq, subsq, movImm, addImm, adcImm, subImm, sbcImm, andImm, orImm, xorImm, cmpImm, tstImm,
addsImm, subsImm, minImm, maxImm, minuImm, maxuImm. -/
def Obligations.RegisterArithmetic : Prop := ∀ (k : CoreId) (d r : Fin 8) (im : W16) (u : BitVec 4) (s : State),
  let b := s.atBoundary k
  let x := dReg b k d
  let sx := signed 16 x
  let cy := b.get .swC k
  let reg := dReg b k r
  let imm : Int := im.toNat
  let quick : Int := u.toNat
  let out (z : Int) : Bool := decide (z < -32768 ∨ 32767 < z)
  let lim (z : Int) : Int := clampTo (-32768) 32767 z
  let rule (i : Instr) (len : Nat) (dst : Option Nat) (z : Int) (c v : Option Bool) (sat : Bool) : Prop :=
    b.Ready k len (len == 1) → Ends (exec i s) k len fun t =>
      (b.fetched k len).Wrote16 t k dst z (some (bitAt z 15)) (some (decide (z % 65536 = 0))) c v sat
  let dst : Option Nat := some (d : Nat)
  let logic (i : Instr) (len : Nat) (z : Int) : Prop := rule i len dst z none (some false) false
  let add (i : Instr) (len : Nat) (y c : Int) : Prop :=
    rule i len dst (x + y + c) (some (decide (65536 ≤ x + y + c))) (some (out (sx + signed 16 y + c))) false
  let sub (i : Instr) (len : Nat) (dest : Option Nat) (x y c : Int) : Prop :=
    rule i len dest (x - y - (1 - c)) (some (decide (0 ≤ x - y - (1 - c)))) (some (out (signed 16 x - signed 16 y - (1 - c)))) false
  let adds (i : Instr) (len : Nat) (y : Int) : Prop :=
    rule i len dst (lim (sx + signed 16 y)) (some (decide (65536 ≤ x + y))) (some (out (sx + signed 16 y))) (out (sx + signed 16 y))
  let subs (i : Instr) (len : Nat) (y : Int) : Prop :=
    rule i len dst (lim (sx - signed 16 y)) (some (decide (y ≤ x))) (some (out (sx - signed 16 y))) (out (sx - signed 16 y))
  let pick (i : Instr) (len : Nat) (z : Int) : Prop := rule i len dst z none none false
  logic (.mov k d r) 1 reg ∧ logic (.movImm k d im) 2 imm ∧ logic (.movq k d u) 1 quick ∧ logic (.movn k d u) 1 (signed 4 quick) ∧
  logic (.notReg k d r) 1 (65535 - reg) ∧ logic (.swapb k d r) 1 (reg % 256 * 256 + reg / 256 % 256) ∧
  logic (.andReg k d r) 1 (andI x reg) ∧ logic (.andImm k d im) 2 (andI x imm) ∧
  logic (.orReg k d r) 1 (orI x reg) ∧ logic (.orImm k d im) 2 (orI x imm) ∧
  logic (.xorReg k d r) 1 (xorI x reg) ∧ logic (.xorImm k d im) 2 (xorI x imm) ∧
  rule (.tst k d r) 1 none (andI x reg % 65536) none (some false) false ∧
  rule (.tstImm k d im) 2 none (andI x imm % 65536) none (some false) false ∧
  add (.add k d r) 1 reg 0 ∧ add (.addImm k d im) 2 imm 0 ∧ add (.addq k d u) 1 quick 0 ∧
  add (.adc k d r) 1 reg cy ∧ add (.adcImm k d im) 2 imm cy ∧
  sub (.sub k d r) 1 dst x reg 1 ∧ sub (.subImm k d im) 2 dst x imm 1 ∧ sub (.subq k d u) 1 dst x quick 1 ∧
  sub (.sbc k d r) 1 dst x reg cy ∧ sub (.sbcImm k d im) 2 dst x imm cy ∧
  sub (.cmp k d r) 1 none x reg 1 ∧ sub (.cmpImm k d im) 2 none x imm 1 ∧ sub (.cmpq k d u) 1 none x quick 1 ∧
  sub (.neg k d r) 1 dst 0 reg 1 ∧
  adds (.adds k d r) 1 reg ∧ adds (.addsImm k d im) 2 imm ∧ adds (.addsq k d u) 1 quick ∧
  subs (.subs k d r) 1 reg ∧ subs (.subsImm k d im) 2 imm ∧ subs (.subsq k d u) 1 quick ∧
  rule (.abs k d r) 1 dst (if signed 16 reg < 0 then -signed 16 reg else signed 16 reg) none (some (decide (reg = 0x8000))) false ∧
  pick (.minReg k d r) 1 (if signed 16 reg < sx then reg else x) ∧ pick (.minImm k d im) 2 (if signed 16 imm < sx then imm else x) ∧
  pick (.maxReg k d r) 1 (if sx < signed 16 reg then reg else x) ∧ pick (.maxImm k d im) 2 (if sx < signed 16 imm then imm else x) ∧
  pick (.minu k d r) 1 (if reg < x then reg else x) ∧ pick (.minuImm k d im) 2 (if imm < x then imm else x) ∧
  pick (.maxu k d r) 1 (if x < reg then reg else x) ∧ pick (.maxuImm k d im) 2 (if x < imm then imm else x)

/-- Shifts, rotates and operations on one bit, with results, flags and frame.
R244, R252, R261: shifts by an immediate count or by the whole value of a register, the rotates modulo 16, the operations on one
bit, CLZ and the saturating shift: their results and flags at every count, C unchanged at a count of 0; nothing else changes.
Completes: asr, asrReg, lsr, lsrReg, shl, shlReg, ror, rorReg, rol, rolReg, bset, bclr, btgl, btst, clz, shls. -/
def Obligations.ShiftsAndBits : Prop := ∀ (k : CoreId) (d r : Fin 8) (n : Fin 16) (s : State),
  let b := s.atBoundary k
  let x := dReg b k d
  let y := dReg b k r
  let sx := signed 16 x
  let rule (i : Instr) (dst : Option Nat) (z : Int) (fn fz c v : Option Bool) (sat : Bool) : Prop :=
    b.Ready k 1 true → Ends (exec i s) k 1 fun t => (b.fetched k 1).Wrote16 t k dst z fn fz c v sat
  let dst : Option Nat := some (d : Nat)
  let shift (i : Instr) (z : Int) (c : Option Bool) : Prop :=
    rule i dst z (some (bitAt z 15)) (some (decide (z % 65536 = 0))) c (some false) false
  let counts : List (Bool × Nat) := [(false, (n : Nat)), (true, y.toNat)]
  let bit (i : Instr) (w : Bool) (z : Int) : Prop :=
    rule i (if w then dst else none) z none (some (!bitAt x n)) none none false
  let one := (2 : Int) ^ (n : Nat)
  let old : Int := if bitAt x n then one else 0
  let zeros := ((List.range 16).find? fun i => bitAt y (15 - i)).getD 16
  (∀ q ∈ counts,
    let c := q.2
    let m := c % 16
    let ror := if m = 0 then x else x / 2 ^ m + x * 2 ^ (16 - m) % 65536
    let rol := if m = 0 then x else x * 2 ^ m % 65536 + x / 2 ^ (16 - m)
    let ifShifted (v : Bool) : Option Bool := if c = 0 then none else some v
    shift (if q.1 then .asrReg k d r else .asr k d n) (sx / 2 ^ min c 16)
      (ifShifted (if 16 ≤ c then bitAt x 15 else bitAt x (c - 1))) ∧
    shift (if q.1 then .lsrReg k d r else .lsr k d n) (if 16 ≤ c then 0 else x / 2 ^ c)
      (ifShifted (decide (c ≤ 16) && bitAt x (c - 1))) ∧
    shift (if q.1 then .shlReg k d r else .shl k d n) (if 16 ≤ c then 0 else x * 2 ^ c)
      (ifShifted (decide (c ≤ 16) && bitAt x (16 - c))) ∧
    shift (if q.1 then .rorReg k d r else .ror k d n) ror (if m = 0 then none else some (bitAt ror 15)) ∧
    shift (if q.1 then .rolReg k d r else .rol k d n) rol (if m = 0 then none else some (bitAt rol 0))) ∧
  bit (.bset k d n) true (x - old + one) ∧ bit (.bclr k d n) true (x - old) ∧ bit (.btgl k d n) true (x - old + (one - old)) ∧
  bit (.btst k d n) false x ∧
  rule (.clz k d r) dst zeros (some false) (some (decide (zeros = 0))) none none false ∧
  (let z := sx * 2 ^ (n : Nat)
   let out : Bool := decide (z < -32768 ∨ 32767 < z)
   let w := clampTo (-32768) 32767 z
   rule (.shls k d n) dst w (some (bitAt w 15)) (some (decide (w % 65536 = 0))) none (some out) out)

/-- Moves between data registers and sw, rc, tkl or accumulator parts; tkl as a destination and the other illegal indices.
R218 to R222, R249, R250: the moves between a data register and sw, rc, the tick counter or a part of an accumulator, with the
layout of sw, what a write of it may change by privilege, the sign of the guard part, and the indices that are illegal.
Completes: mfs, mts, mfa, mta. -/
def Obligations.SpecialRegisterMoves : Prop := ∀ (k : CoreId) (d y : Fin 8) (s : State),
  let b0 := s.atBoundary k
  let b := b0.fetched k 1
  let w := dReg b k d
  let part := (y : Nat) % 4
  let a := (y : Nat) / 4
  let acc := aReg b k a
  let illegal (i : Instr) : Prop := exec i s = .next (takeException b k (pcOf b k) { vec := 1 })
  let loads (i : Instr) (v : Int) : Prop := Ends (exec i s) k 1 fun t => b.Wrote16 t k (some (d : Nat)) v none none none none false
  let flags := [(Fld.swC, 0), (.swV, 1), (.swZ, 2), (.swN, 3), (.swSat, 4), (.swDz, 5)]
  let control := [(Fld.swDzt, 6), (.swIe, 7)] ++ (if (k : Nat) = 5 then [(Fld.swPriv, 8)] else [])
  b0.Ready k 1 true →
  loads (.mfs k d 0) (b.get .swC k + 2 * b.get .swV k + 4 * b.get .swZ k + 8 * b.get .swN k + 16 * b.get .swSat k + 32 * b.get .swDz k +
    64 * b.get .swDzt k + 128 * b.get .swIe k + (if (k : Nat) = 5 ∧ b.get .swPriv k = 0 then 0 else 256) + 512 * b.get .XC_STATUS_SB k) ∧
  loads (.mfs k d 1) (b.get .coreRc k (bankOf b k)) ∧ loads (.mfs k d 2) (s.get .tick) ∧
  (∀ x : Fin 8, 3 ≤ (x : Nat) → illegal (.mfs k d x)) ∧ (∀ x : Fin 8, 2 ≤ (x : Nat) → illegal (.mts k x d)) ∧
  Ends (exec (.mts k 1 d) s) k 1 (fun t => t.get .coreRc k (bankOf b k) = w % 65536 ∧ b.SameBut (fun p => p == .fld .coreRc) t ∧
    ∀ i j, (i ≠ k ∨ j ≠ bankOf b k) → t.get .coreRc i j = b.get .coreRc i j) ∧
  Ends (exec (.mts k 0 d) s) k 1 (fun t =>
    (∀ q ∈ flags, FlagAt b t k q.1 (some (bitAt w q.2))) ∧
    (∀ q ∈ control, FlagAt b t k q.1 (if supervisor b k then some (bitAt w q.2) else none)) ∧
    b.SameBut (fun p => (flags ++ control).any fun q => p == .fld q.1) t) ∧
  (part ≠ 3 → loads (.mfa k d y) (acc / 65536 ^ part)) ∧ (part = 3 → illegal (.mfa k d y) ∧ illegal (.mta k y d)) ∧
  (part ≠ 3 → Ends (exec (.mta k y d) s) k 1 fun t => b.SameBut (fun p => p == .fld .coreA) t ∧
    aReg t k a = (if part = 0 then signed 40 (acc - acc % 65536 + w)
      else if part = 1 then signed 40 (acc - 65536 * (acc / 65536 % 65536) + 65536 * w) else acc % 2 ^ 32 + 2 ^ 32 * signed 8 w) ∧
    ∀ i j, (i ≠ k ∨ j ≠ bankOf b k * 2 + a) → t.get .coreA i j = b.get .coreA i j)

/-- A paired word: the pairing fault by the slots' destinations, both results, and slot B's flags.
R231, R245, R246: a paired word: bit 0 set is illegal; slots that share a destination, or where slot B reads the register that slot
A writes, raise the pairing fault with no effect; else both results come from the registers as they were, and the flags are slot
B's.
Completes: pairedWord. -/
def Obligations.PairedWords : Prop := ∀ (k : CoreId) (w : BitVec 15) (s : State),
  let b0 := s.atBoundary k
  let b := b0.fetched k 1
  let writes (op d r : Nat) : Bool := !(op == 7 || (op == 0 && d == r))
  let reads (op d r n : Nat) : Bool := if op == 0 then n == r else if op == 6 then n == d else n == d || n == r
  let x (d : Nat) := dReg b k d
  let sg (d : Nat) := signed 16 (x d)
  let value (op d r : Nat) : Int := match op with
    | 0 => x r
    | 1 => x d + x r
    | 2 | 7 => x d - x r
    | 3 => andI (x d) (x r)
    | 4 => orI (x d) (x r)
    | 5 => xorI (x d) (x r)
    | _ => if r = 0 then sg d / 2 else if r = 1 then x d / 2 else if r = 2 then x d * 2 else 0 - x d
  let exact (op d r : Nat) : Option Int := match op with
    | 1 => some (sg d + sg r)
    | 2 | 7 => some (sg d - sg r)
    | 6 => if r = 3 then some (0 - sg d) else none
    | _ => none
  let carry (op d r : Nat) : Option Bool := match op with
    | 1 => some (decide (65536 ≤ x d + x r))
    | 2 | 7 => some (decide (x r ≤ x d))
    | 6 => some (if r = 3 then decide (x d ≤ 0) else if r = 2 then bitAt (x d) 15 else bitAt (x d) 0)
    | _ => none
  let opA := w.toNat / 2 ^ 12 % 8
  let dA := w.toNat / 2 ^ 10 % 4
  let rA := w.toNat / 2 ^ 8 % 4
  let opB := w.toNat / 2 ^ 5 % 8
  let dB := w.toNat / 2 ^ 3 % 4
  let rB := w.toNat / 2 % 4
  let clash := writes opA dA rA && ((writes opB dB rB && dA == dB) || reads opB dB rB dA)
  b0.Ready k 1 true →
  (w.getLsbD 0 = true → exec (.pairedWord k w) s = .next (takeException b k (pcOf b k) { vec := 1 })) ∧
  (w.getLsbD 0 = false → clash = true → exec (.pairedWord k w) s = .next (takeException b k (pcOf b k) { vec := 2 })) ∧
  (w.getLsbD 0 = false → clash = false → Ends (exec (.pairedWord k w) s) k 1 fun t =>
    (∀ n < 8, dReg t k n = if writes opA dA rA && n == dA then value opA dA rA % 65536
      else if writes opB dB rB && n == dB then value opB dB rB % 65536 else dReg b k n) ∧
    FlagAt b t k .swN (some (bitAt (value opB dB rB) 15)) ∧ FlagAt b t k .swZ (some (decide (value opB dB rB % 65536 = 0))) ∧
    FlagAt b t k .swC (carry opB dB rB) ∧
    FlagAt b t k .swV (some ((exact opB dB rB).any fun z => decide (z < -32768 ∨ 32767 < z))) ∧
    b.SameBut (fun p => p ∈ [.fld .coreD, .fld .swN, .fld .swZ, .fld .swC, .fld .swV]) t ∧
    ∀ i j, (i ≠ k ∨ j < bankOf b k * 8 ∨ bankOf b k * 8 + 8 ≤ j) → t.get .coreD i j = b.get .coreD i j)

/-- Multiplications and accumulations, with results, flags and frame.
R253, R261: multiplications into an accumulator, accumulations that wrap or saturate at 40 bits, the fractional forms with their one
limit, the accumulator group and STSAT: results, N and Z of the group, V, and SAT of the forms that limit; nothing else changes.
Completes: mpy, mpyu, mpysu, mac, msu, macs, mpyf, macf, clra, nega, rnda, sat32, mova, adda, suba, asra, shla, stsat. -/
def Obligations.Accumulators : Prop := ∀ (k : CoreId) (a : Fin 2) (x y d : Fin 8) (n : Fin 64) (s : State),
  let b0 := s.atBoundary k
  let b := b0.fetched k 1
  let ux := dReg b k x
  let uy := dReg b k y
  let p := signed 16 ux * signed 16 uy
  let acc := aReg b k a
  let other := aReg b k (1 - (a : Nat))
  let out (z : Int) : Bool := decide (z < -2 ^ 39 ∨ 2 ^ 39 - 1 < z)
  let lim (z : Int) : Int := clampTo (-2 ^ 39) (2 ^ 39 - 1) z
  let corner : Bool := decide (ux = 0x8000 ∧ uy = 0x8000)
  let f := min (2 * p) 0x7FFFFFFF
  let rule (i : Instr) (z : Int) (nz v sticky : Bool) : Prop :=
    Ends (exec i s) k 1 fun t => b.WroteAcc t k a z nz v sticky
  let group (i : Instr) (z : Int) : Prop := rule i (lim z) true (out z) true
  b0.Ready k 1 true →
  rule (.mpy k a x y) p false false false ∧ rule (.mpyu k a x y) (ux * uy) false false false ∧
  rule (.mpysu k a x y) (signed 16 ux * uy) false false false ∧
  rule (.mac k a x y) (acc + p) false (out (acc + p)) false ∧ rule (.msu k a x y) (acc - p) false (out (acc - p)) false ∧
  rule (.macs k a x y) (lim (acc + p)) false (out (acc + p)) true ∧
  rule (.mpyf k a x y) f false corner true ∧ rule (.macf k a x y) (lim (acc + f)) false (out (acc + f) || corner) true ∧
  group (.clra k a) 0 ∧ group (.nega k a) (-acc) ∧ group (.mova k a) other ∧ group (.adda k a) (acc + other) ∧
  group (.suba k a) (acc - other) ∧ group (.asra k a n) (acc / 2 ^ (n : Nat)) ∧ group (.shla k a n) (acc * 2 ^ (n : Nat)) ∧
  rule (.rnda k a) (lim (acc + 32768) / 65536 * 65536) true (out (acc + 32768)) true ∧
  rule (.sat32 k a) (clampTo (-2 ^ 31) (2 ^ 31 - 1) acc) true (decide (acc < -2 ^ 31 ∨ 2 ^ 31 - 1 < acc)) true ∧
  (let z := acc / 65536
   let o : Bool := decide (z < -32768 ∨ 32767 < z)
   let w := clampTo (-32768) 32767 z
   Ends (exec (.stsat k d a) s) k 1 fun t =>
    b.Wrote16 t k (some (d : Nat)) w (some (bitAt w 15)) (some (decide (w % 65536 = 0))) none (some o) o)

/-- The divide and the long MAC: issue and retirement.
R233, R234, R254, R255, R261: a divide or a long MAC issues from the operands as they are and stays outstanding, with no register
written; when it retires, its result, V (unless a younger instruction wrote V), SAT or DZ and the trap of DZT follow; odd x and q =
r are illegal; a second one of its unit waits for the first.
Completes: macl, mpyl, msul, divs, divu, longOpRetire.
Rests on the model's choices: a command that is not due leaves the state as it is (log entry 7). -/
def Obligations.LongOperations : Prop := ∀ (k : CoreId) (a : Fin 2) (x z q r n : Fin 8) (s : State),
  let b0 := s.atBoundary k
  let b := b0.fetched k 1
  let acc := aReg b k a
  let p := signed 32 (dReg b k ((x : Nat) + 1) * 65536 + dReg b k x) * signed 16 (dReg b k z) / 65536
  let out (w : Int) : Bool := decide (w < -2 ^ 39 ∨ 2 ^ 39 - 1 < w)
  let lim (w : Int) : Int := clampTo (-2 ^ 39) (2 ^ 39 - 1) w
  let illegal (i : Instr) : Prop := exec i s = .next (takeException b k (pcOf b k) { vec := 1 })
  let mac (i : Instr) (w : Int) (v : Bool) : Prop := b0.Ready k 1 false →
    ((x : Nat) % 2 = 1 → illegal i) ∧
    ((x : Nat) % 2 = 0 → Ends (exec i s) k 1 fun t => t.get .macOn k = 1 ∧ t.get .macA k = (a : Nat) ∧ t.get .macVal k = w ∧
      t.get .macV k = bit01 v ∧ t.get .macOld k = 0 ∧
      b.SameBut (fun p => p ∈ [.fld .macOn, .fld .macA, .fld .macVal, .fld .macV, .fld .macOld]) t)
  let num := dReg b k q
  let den := dReg b k n
  let sn := signed 16 num
  let sd := signed 16 den
  let div (i : Instr) (qv rv : Int) (v dz : Bool) : Prop := b0.Ready k 1 false →
    (q = r → illegal i) ∧
    (q ≠ r → Ends (exec i s) k 1 fun t => t.get .divOn k = 1 ∧ t.get .divQ k = (q : Nat) ∧ t.get .divR k = (r : Nat) ∧
      t.get .divQv k = qv ∧ t.get .divRv k = rv ∧ t.get .divV k = bit01 v ∧ t.get .divDz k = bit01 dz ∧ t.get .divOld k = 0 ∧
      b.SameBut (fun p => p ∈ [.fld .divOn, .fld .divQ, .fld .divR, .fld .divQv, .fld .divRv, .fld .divV, .fld .divDz, .fld .divOld]) t)
  mac (.macl k a x z) (lim (acc + p)) (out (acc + p)) ∧ mac (.msul k a x z) (lim (acc - p)) (out (acc - p)) ∧
  mac (.mpyl k a x z) (signed 40 p) false ∧
  (den = 0 → div (.divu k q r n) 0xFFFF num true true) ∧ (den ≠ 0 → div (.divu k q r n) (num / den) (num % den) false false) ∧
  (sd = 0 → div (.divs k q r n) (if 0 ≤ sn then 0x7FFF else 0x8000) num true true) ∧
  (sd = -1 → sn = -32768 → div (.divs k q r n) 0x8000 0 true false) ∧
  (sd ≠ 0 → ¬(sd = -1 ∧ sn = -32768) → div (.divs k q r n) (Int.tdiv sn sd % 65536) (Int.tmod sn sd % 65536) false false) ∧
  (s.get .macOn k = 0 → exec (.longOpRetire k false) s = .next s) ∧ (s.get .divOn k = 0 → exec (.longOpRetire k true) s = .next s) ∧
  (s.get .macOn k ≠ 0 → Leads (exec (.longOpRetire k false) s) fun t => t.get .macOn k = 0 ∧
    aReg t k (s.nat .macA k) = signed 40 (s.get .macVal k) ∧
    t.get .swV k = (if s.get .macOld k = 0 then bit01 (s.get .macV k != 0) else s.get .swV k) ∧
    t.get .swSat k = (if s.get .macV k = 0 then s.get .swSat k else 1) ∧
    s.SameBut (fun p => p ∈ [.fld .coreA, .fld .macOn, .fld .swV, .fld .swSat, .fld .divOld]) t) ∧
  (s.get .divOn k ≠ 0 → Leads (exec (.longOpRetire k true) s) fun t => t.get .divOn k = 0 ∧
    dReg t k (s.nat .divR k) = s.get .divRv k % 65536 ∧ (s.nat .divQ k ≠ s.nat .divR k →
      dReg t k (s.nat .divQ k) = s.get .divQv k % 65536) ∧
    t.get .swV k = (if s.get .divOld k = 0 then s.get .divV k else s.get .swV k) ∧
    t.get .swDz k = (if s.get .divDz k = 0 then s.get .swDz k else 1) ∧
    t.traps = s.traps ++ (if s.get .divDz k ≠ 0 ∧ s.get .swDzt k ≠ 0 then [⟨k, 8, false, 0⟩] else []) ∧
    s.SameBut (fun p => p ∈ [.fld .coreD, .fld .divOn, .fld .swV, .fld .swDz, .traps]) t)

/-- Loads and stores of 16 and 32 bits: addresses, pointers, results and exceptions.
R219, R223, R256, R257: loads and stores of 16 and of 32 bits: the address of each mode, the pointer it updates (after the access
and, on a load, before the register), the words, the illegal operands; an access that raises an exception has no other effect. The
access itself is the model's `load` or `store`, which MemoryAccesses states.
Completes: ld, st, ldDpair, stDpair, ldPreg, stPreg, ldAcc, stAcc. -/
def Obligations.LoadsAndStores : Prop := ∀ (k : CoreId) (d n : Fin 8) (m : AddrMode) (pm : PairMode) (e : Exc) (w lo hi : Int)
    (s u v : State),
  let a := s.atBoundary k
  let P (n : Fin 8) := pReg a k n
  let wrap (z : Int) := z % 2 ^ 24
  let at1 : Int × Option (Nat × Int) × Nat := match m with
    | .ind p => (P p, none, 1)
    | .post p => (P p, some ((p : Nat), wrap (P p + 1)), 1)
    | .pre p => (wrap (P p - 1), some ((p : Nat), wrap (P p - 1)), 1)
    | .off2 p o => (wrap (P p + o.toNat), none, 1)
    | .off16 p o => (wrap (P p + o.toInt), none, 2)
    | .idx p x => (wrap (P p + signed 16 (dReg a k x)), none, 1)
    | .abs a => (a.toNat, none, 2)
    | .sp o => (wrap (P 7 + o.toNat), none, 1)
  let va := at1.1
  let upd := at1.2.1
  let len := at1.2.2
  let at2 : Int × Option (Nat × Int) × Nat := match pm with
    | .ind p => (P p, none, 1)
    | .post p => (P p, some ((p : Nat), wrap (P p + 2)), 1)
    | .pre p => (wrap (P p - 2), some ((p : Nat), wrap (P p - 2)), 1)
    | .off16 p o => (wrap (P p + o.toInt), none, 2)
  let va2 := at2.1
  let upd2 := at2.2.1
  let len2 := at2.2.2
  let b := a.fetched k len
  let b2 := a.fetched k len2
  let point (t : State) (q : Option (Nat × Int)) : State := q.elim t fun q => setP t k q.1 q.2
  let sup := supervisor a k
  let ends (i : Instr) (t : State) (len : Nat) : Prop := t.bit .coreOn k = true → exec i s = .next (endInstr t k len)
  let raises (i : Instr) (u : State) (e : Exc) : Prop := u.bit .coreOn k = true → exec i s = .next (takeException u k (pcOf u k) e)
  let odd := (n : Nat) % 2 = 1
  let own := upd2.any fun q => q.1 == (n : Nat)
  let loads := [(Instr.ldDpair k n pm, decide odd, setD (setD (point u upd2) k n lo) k ((n : Nat) + 1) hi),
    (.ldPreg k n pm, own, setP (point u upd2) k n (lo + 65536 * (hi % 256))),
    (.ldAcc k n pm, decide (2 ≤ (n : Nat)), setA (point u upd2) k n (signed 32 (lo + 65536 * hi)))]
  let acc := aReg a k n
  let stores := [(Instr.stDpair k n pm, decide odd, [dReg a k n, dReg a k ((n : Nat) + 1)]),
    (.stPreg k n pm, false, [P n % 65536, P n / 65536 % 256]),
    (.stAcc k n pm, decide (2 ≤ (n : Nat)), [acc % 65536, acc / 65536 % 65536])]
  (a.Ready k len (len == 1) →
    (load b k sup va 1 = (.ok [w], u) → ends (.ld k d m) (setD (point u upd) k d w) len) ∧
    (load b k sup va 1 = (.error e, u) → raises (.ld k d m) u e) ∧
    (store b k sup va [dReg a k d] = (.ok u, v) → ends (.st k d m) (point u upd) len) ∧
    (store b k sup va [dReg a k d] = (.error e, v) → raises (.st k d m) v e)) ∧
  (a.Ready k len2 (len2 == 1) →
    (∀ q ∈ loads, (q.2.1 = true → raises q.1 b2 { vec := 1 }) ∧
      (q.2.1 = false → load b2 k sup va2 2 = (.ok [lo, hi], u) → ends q.1 q.2.2 len2) ∧
      (q.2.1 = false → load b2 k sup va2 2 = (.error e, u) → raises q.1 u e)) ∧
    (∀ q ∈ stores, (q.2.1 = true → raises q.1 b2 { vec := 1 }) ∧
      (q.2.1 = false → store b2 k sup va2 q.2.2 = (.ok u, v) → ends q.1 (point u upd2) len2) ∧
      (q.2.1 = false → store b2 k sup va2 q.2.2 = (.error e, v) → raises q.1 v e)))

/-- What a data access of one word reaches.
R217, R223, R226, R237, R336, R342, R343: what a data access of one word reaches where no translation or MPU stands in its way: a
tick core's own TCM through its alias at 0, else the physical word; a load sees the core's youngest buffered store; the management
core reads through its data cache, which holds what it last filled or was written through; a store to a tick core's own TCM writes
it, any other waits in the store buffer, whose oldest entry a drain writes; a full buffer drains its oldest entry first. Whether the
data cache still holds a line is a free value (log entry 65).
Completes: storeBufferDrain.
Rests on the model's choices: which cached lines are still held is free (log entry 65), and where memory errors arise (log entry
66). -/
def Obligations.MemoryAccesses : Prop := ∀ (k : CoreId) (va : Int) (v : W16) (l r : List StoreEnt) (e : StoreEnt) (b : State),
  let tcm := 0x200000 + 0x20000 * b.nat .tcmOf k
  let pa : Nat := if (k : Nat) ≠ 5 ∧ va < 0x10000 then tcm + va.toNat else va.toNat
  let sup := supervisor b k
  let bare := ∀ x ∈ b.stores, x.core = (k : Nat) → ∀ c ∈ x.cells, c.1 ≠ pa
  let direct := (k : Nat) ≠ 5 ∧ tcm ≤ pa ∧ pa < tcm + 0x10000 ∧ bare
  let uncached := (k : Nat) ≠ 5 ∨ b.get .dcOn pa = 0
  let ram (a : Nat) := (0x100000 ≤ a ∧ a < 0x200000) ∨ (0x200000 ≤ a ∧ a < 0x2A0000 ∧ (a - 0x200000) % 0x20000 < 0x10000)
  let mine (x : StoreEnt) : Bool := x.core == (k : Nat)
  let size := if (k : Nat) = 5 then 8 else 4
  let entry : StoreEnt := ⟨k, [(pa, v)], va.toNat, sup, false⟩
  let drained (s t : State) : Prop := s.stores = l ++ e :: r → l.all (fun x => !mine x) = true → mine e = true → e.cells = [(pa, v)] →
    t.stores = l ++ r ∧ t.wordAt pa = v ∧ (∀ a, a ≠ 2 * pa → a ≠ 2 * pa + 1 → t.byteAt a = s.byteAt a) ∧ t.get .memBad pa = 0 ∧
    (s.get .dcOn pa ≠ 0 → (k : Nat) = 5 → t.get .dcWord pa = (v.toNat : Nat)) ∧ t.traps = s.traps
  0 ≤ va → va < 0x1000000 → ram pa → ((k : Nat) = 5 ∨ b.nat .tcmOf k < 5) →
  (if (k : Nat) = 5 then b.get .XC_MMU_TEN = 0 else b.get .XC_MPUCTL_EN k = 0) →
  (b.get .memBad pa = 0 → bare → uncached → (load b k sup va 1).1 = .ok [((b.wordAt pa).toNat : Int)]) ∧
  (b.get .memBad pa ≠ 0 → bare → uncached → (load b k sup va 1).1 = .error { vec := 6, faddr := va }) ∧
  (b.get .memBad pa = 0 → bare → ¬uncached → (load b k sup va 1).1 = .ok [((b.wordAt pa).toNat : Int)] ∨
    (load b k sup va 1).1 = .ok [b.get .dcWord pa % 65536]) ∧
  b.SameBut (fun p => p ∈ [.fld .dcOn, .fld .dcWord, .fld .MS_CE, .fld .MS_UE, .fld .MS_UEADDR, .freeCtr]) (load b k sup va 1).2 ∧
  (b.stores = l ++ [entry] → load b k sup va 1 = (.ok [(v.toNat : Int)], b)) ∧
  (direct → ∃ t, store b k sup va [(v.toNat : Int)] = (.ok t, b) ∧ t.wordAt pa = v ∧ t.stores = b.stores ∧
    ∀ a, a ≠ 2 * pa → a ≠ 2 * pa + 1 → t.byteAt a = b.byteAt a) ∧
  (¬direct → (b.stores.filter mine).length < size →
    store b k sup va [(v.toNat : Int)] = (.ok { b with stores := b.stores ++ [entry] }, b)) ∧
  (¬direct → size ≤ (b.stores.filter mine).length → ∃ t, store b k sup va [(v.toNat : Int)] = (.ok t, b) ∧
    exec (.storeBufferDrain k) b = .next { t with stores := t.stores.dropLast } ∧ t.stores.getLast? = some entry) ∧
  (b.stores.all (fun x => !mine x) = true → exec (.storeBufferDrain k) b = .next b) ∧
  Leads (exec (.storeBufferDrain k) b) (drained b)

/-- Address arithmetic on pointers.
R218, R219, R258: address arithmetic: a pointer takes its new value modulo 2^24 (p7 of the management core at user privilege is the
user stack pointer), CMPP gives N, Z and C of the 24-bit difference and clears V, and no other flag or register changes.
Completes: movp, movph, addp, addpS5, movpP, addpD, movpD, cmpp, movDp, movdh, movphD, lea. -/
def Obligations.AddressArithmetic : Prop := ∀ (k : CoreId) (n m d : Fin 8) (im : W16) (o : BitVec 5) (s : State),
  let b := s.atBoundary k
  let pn := pReg b k n
  let pm := pReg b k m
  let x := dReg b k d
  let user := (k : Nat) = 5 ∧ (n : Nat) = 7 ∧ b.get .swPriv k = 0
  let rule (i : Instr) (len : Nat) (z : Int) : Prop := b.Ready k len (len == 1) → Ends (exec i s) k len fun t =>
    pReg t k n = z % 2 ^ 24 ∧ (∀ q < 8, q ≠ (n : Nat) → pReg t k q = pReg b k q) ∧
    (b.fetched k len).SameBut (fun p => p == if user then .fld .coreUsp else .fld .coreP) t ∧
    ∀ i j, (i ≠ k ∨ j ≠ bankOf b k * 8 + n) → t.get .coreP i j = b.get .coreP i j
  let moves (i : Instr) (z : Int) : Prop := b.Ready k 1 true →
    Ends (exec i s) k 1 fun t => (b.fetched k 1).Wrote16 t k (some (d : Nat)) z none none none none false
  rule (.movp k n im) 2 im.toNat ∧ rule (.movph k n im) 2 (im.toNat * 256) ∧ rule (.addp k n im) 2 (pn + im.toInt) ∧
  rule (.addpS5 k n o) 1 (pn + o.toInt) ∧ rule (.movpP k n m) 1 pm ∧ rule (.addpD k n d) 1 (pn + signed 16 x) ∧
  rule (.movpD k n d) 1 x ∧ rule (.movphD k n d) 1 (pn % 65536 + 65536 * (x % 256)) ∧ rule (.lea k n im) 2 (pcOf b k + 2 + im.toInt) ∧
  moves (.movDp k d n) pn ∧ moves (.movdh k d n) (pn / 65536 % 256) ∧
  (b.Ready k 1 true → Ends (exec (.cmpp k n m) s) k 1 fun t =>
    let z := (pn - pm) % 2 ^ 24
    (b.fetched k 1).Wrote16 t k none 0 (some (bitAt z 23)) (some (decide (z = 0))) (some (decide (pm ≤ pn))) (some false) false)

/-- Branches on the conditions, jumps, calls and returns.
R219, R228, R259, R260, R263: branches by each condition on flags that every older long operation has settled, jumps, calls and
returns: the target, the return address pushed or popped on p7 (of a call in the last word of a loop's body, where the loop goes
on), the loop context cleared where a branch, jump or return leaves the loop's body but not by a call, the fetch queue and the loop
buffer emptied, and no other effect; condition 15 is illegal. That a call in the last word of the body counts the iteration is the
model's reading (log entry 88).
Completes: bcc, bccL, bra, jmp, jmpInd, call, callInd, ret.
Rests on the model's choices: how a loop is left (log entry 88). -/
def Obligations.TransfersOfControl : Prop := ∀ (k : CoreId) (c3 n : Fin 8) (c4 : Fin 16) (o8 : BitVec 8) (o16 : BitVec 16)
    (a : BitVec 24) (e : Exc) (lo hi : Int) (s t v : State),
  let b0 := s.atBoundary k
  let u0 := retireAll b0 k
  let fetched (x : State) (len : Nat) : State := x.fetched k len
  let b := fetched b0 1
  let u := fetched u0 1
  let u2 := fetched u0 2
  let flag (f : Fld) : Bool := u0.get f k != 0
  let N := flag .swN
  let Z := flag .swZ
  let C := flag .swC
  let V := flag .swV
  let table : List Bool := [Z, !Z, C, !C, N, !N, V, !V, C && !Z, !C || Z, N == V, N != V, !Z && N == V, Z || N != V, true]
  let short : List Bool := [Z, !Z, C, !C, N != V, N == V, Z || N != V, !Z && N == V]
  let inside (x : State) (z : Int) := (z - x.get .loopStart k) % 2 ^ 24 ≤ (x.get .loopEnd k - x.get .loopStart k) % 2 ^ 24
  let goes (x : State) (z : Int) : State :=
    let leaves := x.get .loopOn k ≠ 0 ∧ inside x (pcOf x k) ∧ ¬inside x (z % 2 ^ 24)
    let y := if leaves then ((x.put .loopOn 0 k).put .lbPhase 0 k).put .lbOn 0 k else x
    (y.put .fqLen 0 k).put .corePc (z % 2 ^ 24) k
  let sp := pReg b0 k 7
  let sup := supervisor b0 k
  let pushed (len : Nat) : List Int :=
    let r := pcOf (endInstr (fetched b0 len) k len) k
    [r % 65536, r / 65536 % 256]
  let calls (i : Instr) (len : Nat) (z : Int) : Prop := b0.Ready k len false →
    (store (fetched b0 len) k sup ((sp - 2) % 2 ^ 24) (pushed len) = (.ok t, v) → t.get .coreOn k ≠ 0 →
      let x := (((endInstr t k len).put .lbPhase 0 k).put .lbOn 0 k).put .fqLen 0 k
      exec i s = .next ((setP x k 7 (sp - 2)).put .corePc (z % 2 ^ 24) k)) ∧
    (store (fetched b0 len) k sup ((sp - 2) % 2 ^ 24) (pushed len) = (.error e, v) → v.get .coreOn k ≠ 0 →
      exec i s = .next (takeException v k (pcOf v k) e))
  (canIssue b0 k = true → u0.Ready k 1 false →
    (table.length = 15 ∧ (short[(c3 : Nat)]? = some true → exec (.bcc k c3 o8) s = .next (goes u (pcOf u k + 1 + o8.toInt))) ∧
    (short[(c3 : Nat)]? = some false → exec (.bcc k c3 o8) s = .next (endInstr u k 1)))) ∧
  (canIssue b0 k = true → u0.Ready k 2 false →
    (table[(c4 : Nat)]? = some true → exec (.bccL k c4 o16) s = .next (goes u2 (pcOf u0 k + 2 + o16.toInt))) ∧
    (table[(c4 : Nat)]? = some false → exec (.bccL k c4 o16) s = .next (endInstr u2 k 2)) ∧
    ((c4 : Nat) = 15 → exec (.bccL k c4 o16) s = .next (takeException u2 k (pcOf u0 k) { vec := 1 }))) ∧
  (b0.Ready k 1 false → exec (.bra k o8) s = .next (goes b (pcOf b k + 1 + o8.toInt)) ∧
    exec (.jmpInd k n) s = .next (goes b (pReg b k n)) ∧
    (load b k sup sp 2 = (.ok [lo, hi], t) → t.get .coreOn k ≠ 0 →
      exec (.ret k) s = .next (goes (setP t k 7 (sp + 2)) (lo + 65536 * (hi % 256)))) ∧
    (load b k sup sp 2 = (.error e, t) → t.get .coreOn k ≠ 0 → exec (.ret k) s = .next (takeException t k (pcOf t k) e))) ∧
  (b0.Ready k 2 false → exec (.jmp k a) s = .next (goes (fetched b0 2) a.toNat)) ∧
  calls (.call k a) 2 a.toNat ∧ calls (.callInd k n) 1 (pReg b0 k n)

/-- REP and LOOP, and the end of every instruction.
R243, R262, R263: REP and LOOP, and the end of every instruction: an iteration of REP counts down and stays until its count is used
up; at the end of a loop's body the loop returns to its start while its count is above 1, else its context is cleared; elsewhere the
pc moves on. The illegal cases, the counts of 0 and the contexts that REP and LOOP set up.
Completes: rep, loop. -/
def Obligations.RepAndLoop : Prop := ∀ (k : CoreId) (n : Option (Fin 512)) (ok : Bool) (m : Sum (Fin 512) (Fin 8)) (w : BitVec 16)
    (len : Nat) (s t : State),
  let b0 := s.atBoundary k
  let b := b0.fetched k 1
  let b2 := b0.fetched k 2
  let bank := bankOf b k
  let illegal (i : Instr) : Prop := exec i s = .next (takeException b k (pcOf b k) { vec := 1 })
  let moves (x : State) (len : Nat) (y : State) : Prop :=
    let ends := x.get .loopOn k ≠ 0 ∧ (x.get .loopEnd k - pcOf x k) % 2 ^ 24 < len
    let c := x.get .loopCnt k (bankOf x k)
    let fits := (x.get .loopEnd k - x.get .loopStart k) % 2 ^ 24 < 32
    y.SameBut (fun p => p ∈ [.fld .corePc, .fld .loopOn, .fld .loopCnt, .fld .lbPhase, .fld .lbOn, .fld .fqLen]) x ∧
    (∀ f i j, i ≠ k → y.get f i j = x.get f i j) ∧
    (ends → 1 < c → pcOf y k = x.get .loopStart k % 2 ^ 24 ∧ y.get .loopCnt k (bankOf x k) = c - 1 ∧ y.get .loopOn k = x.get .loopOn k ∧
      y.get .fqLen k = 0 ∧ y.get .lbPhase k = (if ¬fits then x.get .lbPhase k else if x.get .lbPhase k = 0 then 1 else 2)) ∧
    (ends → c ≤ 1 → pcOf y k = (pcOf x k + len) % 2 ^ 24 ∧ y.get .loopOn k = 0 ∧ y.get .loopCnt k (bankOf x k) = c ∧
      y.get .lbPhase k = 0 ∧ y.get .lbOn k = 0) ∧
    (¬ends → y = x.put .corePc ((pcOf x k + len) % 2 ^ 24) k)
  let count : Int := match n with
    | some n => (n : Nat) + 1
    | none => b.get .coreRc k bank
  let times : Int := match m with
    | .inl c => (c : Nat) + 1
    | .inr r => dReg b k r
  let last := b.get .loopOn k ≠ 0 ∧ b.get .loopEnd k = pcOf b k
  let start := (pcOf b k + 2) % 2 ^ 24
  (t.get .repOn k = 0 → moves t len (endInstr t k len)) ∧
  (t.get .repOn k ≠ 0 → 1 < t.get .repCnt k (bankOf t k) →
    endInstr t k len = t.put .repCnt (t.get .repCnt k (bankOf t k) - 1) k (bankOf t k)) ∧
  (t.get .repOn k ≠ 0 → t.get .repCnt k (bankOf t k) ≤ 1 →
    moves ((t.put .repCnt (t.get .repCnt k (bankOf t k) - 1) k (bankOf t k)).put .repOn 0 k) len (endInstr t k len)) ∧
  (b0.Ready k 1 false →
    (ok = false ∨ last → illegal (.rep k n ok)) ∧
    (ok = true → ¬last → count = 0 → Leads (exec (.rep k n ok) s) (moves b 2)) ∧
    (ok = true → ¬last → count ≠ 0 → exec (.rep k n ok) s =
      .next (((b.put .repCnt count k bank).put .repOn 1 k).put .corePc ((pcOf b k + 1) % 2 ^ 24) k))) ∧
  (b0.Ready k 2 false →
    (b0.get .loopOn k ≠ 0 ∨ w = 0 → exec (.loop k m w) s = .next (takeException b2 k (pcOf b0 k) { vec := 1 })) ∧
    (b0.get .loopOn k = 0 → w ≠ 0 → times = 0 →
      exec (.loop k m w) s = .next ((b2.put .fqLen 0 k).put .corePc ((start + w.toNat) % 2 ^ 24) k)) ∧
    (b0.get .loopOn k = 0 → w ≠ 0 → times ≠ 0 → Leads (exec (.loop k m w) s) fun t => t.get .loopOn k = 1 ∧ t.get .loopStart k = start ∧
      t.get .loopEnd k = (start + w.toNat - 1) % 2 ^ 24 ∧ t.get .loopCnt k bank = times ∧ pcOf t k = start ∧
      t.get .lbPhase k = (if w.toNat ≤ 32 then 1 else 0) ∧ t.get .lbOn k = 0 ∧ (∀ f i j, i ≠ k → t.get f i j = b2.get f i j) ∧
      b2.SameBut (fun p => p ∈ [.fld .corePc, .fld .loopOn, .fld .loopCnt, .fld .loopStart, .fld .loopEnd, .fld .lbPhase, .fld .lbOn]) t))

/-- The elements of the block instructions.
R269 to R271: an element of a block instruction: the accesses that MOVB, FILB and CRCB make, the pointers, the count and, at a count
of 0, the end of the instruction; the pc else stays; a failed access leaves the preceding boundary; the illegal operands.
Completes: movb, filb, crcb. -/
def Obligations.BlockInstructions : Prop := ∀ (k : CoreId) (p q v : Fin 8) (a : Fin 2) (c w : Fin 4) (x : Int) (e : Exc)
    (s t t' u u' : State),
  let b0 := s.atBoundary k
  let b := b0.fetched k 1
  let n := dReg b k c
  let P (m : Fin 8) := pReg b k m
  let sup := supervisor b k
  let illegal (i : Instr) : Prop := exec i s = .next (takeException b k (pcOf b k) { vec := 1 })
  let raises (i : Instr) (y : State) : Prop := y.get .coreOn k ≠ 0 → exec i s = .next (takeException y k (pcOf y k) e)
  let element (i : Instr) (y : State) : Prop :=
    let z := setD y k c (dReg y k c - 1)
    y.get .coreOn k ≠ 0 → exec i s = .next (if (dReg y k c - 1) % 65536 = 0 then endInstr z k 1 else z)
  let gap := (P p - P q) % 2 ^ 24
  let down := 0 < gap ∧ gap < n
  let off := if down then n - 1 else 0
  let src := (P q + off) % 2 ^ 24
  let dst := (P p + off) % 2 ^ 24
  b0.Ready k 1 false →
  (p = q → illegal (.movb k p q c)) ∧ ((v : Nat) = (c : Nat) → illegal (.filb k p v c)) ∧ (2 ≤ (w : Nat) → illegal (.crcb k q a c w)) ∧
  (n = 0 → (p ≠ q → exec (.movb k p q c) s = .next (endInstr b k 1)) ∧
    ((v : Nat) ≠ (c : Nat) → exec (.filb k p v c) s = .next (endInstr b k 1)) ∧
    ((w : Nat) < 2 → exec (.crcb k q a c w) s = .next (endInstr b k 1))) ∧
  (n ≠ 0 → p ≠ q →
    (load b k sup src 1 = (.error e, u) → raises (.movb k p q c) u) ∧
    (load b k sup src 1 = (.ok [x], u) → store u k (supervisor u k) dst [x] = (.error e, t') → raises (.movb k p q c) t') ∧
    (load b k sup src 1 = (.ok [x], u) → store u k (supervisor u k) dst [x] = (.ok t, t') →
      element (.movb k p q c) (if down then t else setP (setP t k p (P p + 1)) k q (P q + 1)))) ∧
  (n ≠ 0 → (v : Nat) ≠ (c : Nat) →
    (store b k sup (P p) [dReg b k v] = (.error e, t') → raises (.filb k p v c) t') ∧
    (store b k sup (P p) [dReg b k v] = (.ok t, t') → element (.filb k p v c) (setP t k p (pReg t k p + 1)))) ∧
  (n ≠ 0 → (w : Nat) < 2 →
    (load b k sup (P q) 1 = (.error e, u') → raises (.crcb k q a c w) u') ∧
    (load b k sup (P q) 1 = (.ok [x], u') →
      let reg := aReg u' k a
      let word := BitVec.ofInt 16 x
      let folded : Int := if (w : Nat) = 0 then (crcWords (BitVec.ofInt 16 reg) [word]).toNat
        else (crc32Byte (crc32Byte (BitVec.ofInt 32 reg) (BitVec.ofInt 8 x)) (BitVec.ofInt 8 (x / 256))).toNat
      element (.crcb k q a c w) (setP (setA u' k a folded) k q (pReg (setA u' k a folded) k q + 1))))

/-- Barriers, events, waits and HALT.
R235, R241, R248, R264 to R268: NOP, the barriers, the events and waits of a core, and HALT: BAR and HALT execute once every older
long operation has retired and the store buffer has drained; FENCEI drains it and empties the fetch queue, the loop buffer and, on
the management core, the instruction cache; WFE consumes a set latch or waits for it; WAITU waits for the tick of its register; SEV
publishes by the ownership rules; HALT stops the core, and at user privilege raises the privileged-instruction exception. That the
waking WFE of a sleep entry undoes it is the model's reading (log entry 43).
Completes: nop, bar, fencei, wfe, wfeWake, halt, sev, sevReg, waitu, waituDone.
Rests on the model's choices: the clause in which a WFE with a stored sleep request is undone at its wake (log entry 43). a command
that is not due leaves the state as it is (log entry 7). -/
def Obligations.SystemInstructions : Prop := ∀ (k : CoreId) (n : Fin 8) (ch : Channel) (s : State),
  let b0 := s.atBoundary k
  let u0 := retireAll (drainAll b0 k) k
  let b := b0.fetched k 1
  let u := u0.fetched k 1
  let empty (x : State) : State := ((x.put .fqLen 0 k).put .lbPhase 0 k).put .lbOn 0 k
  let due (x : State) (n : Nat) : Prop := let d := (dReg x k n - x.get .tick) % 65536; d = 0 ∨ 32768 ≤ d
  let ends (i : Instr) (t : State) : Prop := exec i s = .next (endInstr t k 1)
  let runs := coreRuns s k = true
  (canIssue b0 k = true → u0.Ready k 1 false → ends (.bar k) u ∧
    (supervisor u k = true → Ends (exec (.halt k) s) k 1 fun t => t.get .coreHalt k = 1 ∧ canIssue t k = false ∧
      u.SameBut (fun p => p == .fld .coreHalt) t ∧ ∀ i j, (i ≠ k ∨ j ≠ 0) → t.get .coreHalt i j = u.get .coreHalt i j) ∧
    (supervisor u k = false → exec (.halt k) s = .next (takeException u k (pcOf u k) { vec := 3 }))) ∧
  (b0.Ready k 1 false → ends (.nop k) b ∧
    ((drainAll b k).get .coreOn k ≠ 0 → (k : Nat) ≠ 5 → ends (.fencei k) (empty (drainAll b k))) ∧
    ((drainAll b k).get .coreOn k ≠ 0 → (k : Nat) = 5 → Ends (exec (.fencei k) s) k 1 fun t => (∀ i j, t.get .icOn i j = 0) ∧
      (empty (drainAll b k)).SameBut (fun p => p ∈ [.fld .icOn, .fld .icWord]) t) ∧
    (b.get .evLatch k ≠ 0 → ends (.wfe k) (b.put .evLatch 0 k)) ∧
    (b.get .evLatch k = 0 → exec (.wfe k) s = .next (b.put .coreWait 1 k)) ∧
    (due b n → ends (.waitu k n) b) ∧
    (¬due b n → exec (.waitu k n) s = .next ((b.put .coreWait 2 k).put .waitReg (n : Nat) k)) ∧
    (let c := (dReg b k n % 64).toNat
     let may (c : Nat) := coreMayPublish b k (supervisor b k) c = true
     (may ch → ends (.sev k ch) (publish b ch)) ∧ (¬may ch → ends (.sev k ch) (refusePublish b ch)) ∧
     (may c → ends (.sevReg k n) (publish b c)) ∧ (¬may c → ends (.sevReg k n) (refusePublish b c)))) ∧
  (runs → s.get .coreWait k = 1 → s.get .evLatch k ≠ 0 → ¬((k : Nat) = 5 ∧ s.get .PW_CTRL_SLEEP ≠ 0) →
    exec (.wfeWake k) s = .next (endInstr ((s.put .evLatch 0 k).put .coreWait 0 k) k 1)) ∧
  (runs → s.get .coreWait k = 1 → s.get .evLatch k ≠ 0 → (k : Nat) = 5 → s.get .PW_CTRL_SLEEP ≠ 0 →
    Ends (exec (.wfeWake k) s) k 1 fun t => t.get .coreWait k = 0 ∧ t.get .evLatch k = 0 ∧ t.get .PW_CTRL_SLEEP = 0 ∧
      t.get .PW_STATE_ABORT = 1) ∧
  (¬runs ∨ s.get .coreWait k ≠ 1 ∨ s.get .evLatch k = 0 → exec (.wfeWake k) s = .next s) ∧
  (runs → s.get .coreWait k = 2 → due s (s.nat .waitReg k) → exec (.waituDone k) s = .next (endInstr (s.put .coreWait 0 k) k 1)) ∧
  (¬runs ∨ s.get .coreWait k ≠ 2 ∨ ¬due s (s.nat .waitReg k) → exec (.waituDone k) s = .next s)

/-- What comes at the boundary before every instruction.
R224, R228, R232, R235, R236, R262, R264, R267, R268, R276: what comes at the boundary before every instruction, in this order: a
core that does not run, or waits, executes nothing; a waiting trap is taken once every outstanding long operation has retired; a
failed fetch raises its exception; a REP that may not repeat the instruction is illegal, with the pc at the REP; a privileged
instruction at user privilege raises its exception; else it executes. -/
def Obligations.InstructionBoundary : Prop := ∀ (k : CoreId) (m : Form) (f : State → Res) (x : CoreTrap) (e : Exc) (s t v : State),
  let b := s.atBoundary k
  let u := settle b k m.use
  let runs := canIssue b k = true ∧ u.get .coreOn k ≠ 0
  let clear := firstTrap u k = none
  let rep := v.get .repOn k ≠ 0
  let may := m.rep = true ∧ m.len = 1
  let priv := m.priv = true ∧ (k : Nat) = 5 ∧ v.get .swPriv k = 0
  (s.get .coreOn k = 0 ∨ s.get .coreHalt k ≠ 0 ∨ s.get .coreDbg k ≠ 0 ∨ s.get .coreWait k ≠ 0 ∨ s.get .sleepMode ≠ 0 ∨
    s.get .LS_PAIR_STATE k = 1 ∨ s.get .LS_PAIR_STATE k = 3 → coreStep s k m f = .next s) ∧
  (runs → firstTrap u k = some x → coreStep s k m f = .next (takeTrap (retireAll u k) k x)) ∧
  (runs → clear → fetch u k m.len = (some e, v) → coreStep s k m f = .next (takeException v k (pcOf v k) e)) ∧
  (runs → clear → fetch u k m.len = (none, v) → rep → ¬may →
    coreStep s k m f = .next (takeException (v.put .repOn 0 k) k ((pcOf v k - 1) % 2 ^ 24) { vec := 1 })) ∧
  (runs → clear → fetch u k m.len = (none, v) → (rep → may) → priv →
    coreStep s k m f = .next (takeException v k (pcOf v k) { vec := 3 })) ∧
  (runs → clear → fetch u k m.len = (none, v) → (rep → may) → ¬priv → t.get .coreOn k ≠ 0 →
    (f v = Res.done t → coreStep s k m f = .next (endInstr t k m.len)) ∧ (f v = Res.stay t → coreStep s k m f = .next t) ∧
    (f v = Res.jump t → coreStep s k m f = .next t) ∧
    (f v = Res.fault e t → coreStep s k m f = .next (takeException t k (pcOf t k) e))) ∧
  (∀ d r : Fin 8, canIssue s k = false → ∀ i ∈ [Instr.add k d r, .movq k d 0, .asrReg k d r, .mpy k 0 d r, .divs k d r r, .ld k d (.ind r),
    .movpP k d r, .bcc k d 0, .ret k, .rep k none true, .movb k d r 0, .customInstruction k 0 0, .tlbinvAll k, .pairedWord k 0, .nop k,
    .reti k], exec i s = .next s) ∧
  (∀ d r : Fin 8, (runs ∧ firstTrap u k = some x) → m.use = {} → ∀ i ∈ [Instr.bra k 0, .jmpInd k d, .ret k, .movpP k d r, .trap k 0],
    exec i s = .next (takeTrap (retireAll b k) k x))

/-- Exceptions, interrupts and RETI of a tick core.
R235, R236, R267, R274, R276 to R279, R297, R298, R318 to R322: exceptions and interrupts of a tick core: the entry record that is
written, the switch to the next bank and the vector; the double fault in bank 2; TRAP, whose saved pc is where the pc moves on; the
entry of an interrupt with the claim of its source, or of none (spurious); RETI: the end of service, the exit rule and the restore;
RETI in bank 0 is illegal.
Completes: reti, trap, interruptEntry.
Rests on the model's choices: failed fetches (log entry 87). a command that is not due leaves the state as it is (log entry 7). -/
def Obligations.TickCoreExceptions : Prop := ∀ (k : CoreId) (n : Fin 16) (src : Nat) (e : Exc) (pc : Int) (s : State),
  let b0 := s.atBoundary k
  let b := b0.fetched k 1
  let quiet (x : State) : Prop := x.get .divOn k = 0 ∧ x.get .macOn k = 0 ∧ ∀ y ∈ x.traps, y.core ≠ k
  let cause := (e.vec : Int) + (if e.vec = 7 ∨ e.vec = 8 then 32 else 0) + (if e.wr then 64 else 0) + 256 * e.info
  let enters (x : State) (pc cause faddr off : Int) (t : State) : Prop :=
    let j := bankOf x k
    t.get .XC_XPC k j = pc % 2 ^ 24 ∧ t.get .XC_XSW k j = swWord x k ∧ t.get .XC_XENT_REPV k j = x.get .repOn k ∧
    t.get .XC_XENT_LOOPV k j = x.get .loopOn k ∧ t.get .XC_XLS k j = x.get .loopStart k ∧ t.get .XC_XLE k j = x.get .loopEnd k ∧
    t.get .XC_XCAUSE k j = cause ∧ t.get .XC_XFADDR k j = faddr % 2 ^ 24 ∧ t.get .XC_STATUS_SB k = j + 1 ∧ t.get .swIe k = 0 ∧
    t.get .loopOn k = 0 ∧ t.get .repOn k = 0 ∧ t.get .coreWait k = 0 ∧ pcOf t k = 2048 * x.get .XC_VBASE k + off ∧
    ∀ f ∈ [Fld.coreD, .coreP, .coreA, .coreRc, .repCnt, .loopCnt, .swN, .swZ, .swC, .swV, .swSat, .swDz, .swDzt, .loopStart, .loopEnd],
      ∀ i j, t.get f i j = x.get f i j
  let doubleFault (t : State) : Prop := t.get .coreHalt k = 1 ∧ t.get .XC_STATUS_DFHALT k = 1 ∧ t.get .XC_XCAUSE k 1 = cause ∧
    pcOf t k = pcOf s k ∧ bankOf t k = 2 ∧ canIssue t k = false
  let u0 := retireAll b0 k
  let u := u0.fetched k 1
  let next := endInstr b k 1
  let j := bankOf u k - 1
  let old := u.get .XC_XCAUSE k j
  let v := if bitAt old 7 = true ∧ old / 256 % 256 ≠ 255 then endService u k else u
  let sw := u.get .XC_XSW k j
  let run := v.get .IR_CRUN_RUN k
  (k : Nat) ≠ 5 →
  (quiet s → bankOf s k ≠ 2 → enters s pc cause e.faddr (4 * e.vec) (takeException s k pc e) ∧
    (takeException s k pc e).mem = s.mem ∧ (takeException s k pc e).stores = s.stores) ∧
  (quiet s → bankOf s k = 2 → doubleFault (takeException s k pc e)) ∧
  (b0.Ready k 1 false → exec (.trap k n) s = .next (takeException next k (pcOf next k) { vec := 16 + n, info := n })) ∧
  (takesInterrupts s k = false → exec (.interruptEntry k) s = .next s) ∧
  (presented s k = none → s.get .irPres k = 0 → exec (.interruptEntry k) s = .next s) ∧
  (takesInterrupts s k = true → quiet s → presented s k = some src → Leads (exec (.interruptEntry k) s) fun t =>
    enters s (pcOf s k) (128 + 256 * src) 0 (128 + 4 * src) t ∧ t.get .IR_SRCST_ACT src = 1 ∧ t.get .IR_SRCST_SPEND src = 0 ∧
    t.get .IR_CRUN_RUN k = s.get .IR_SRCCFG_PRIO src ∧ t.get .IR_CLAST_SRC k = src) ∧
  (takesInterrupts s k = true → quiet s → presented s k = none → s.get .irPres k ≠ 0 → Leads (exec (.interruptEntry k) s) fun t =>
    enters s (pcOf s k) (128 + 256 * 255) 0 (128 + 4 * 255) t ∧ t.get .IR_CLAST_SRC k = 255 ∧
    t.get .IR_CSPUR k = min 0xFFFF (s.get .IR_CSPUR k + 1)) ∧
  (canIssue b0 k = true → u0.Ready k 1 false →
    (bankOf u k = 0 → exec (.reti k) s = .next (takeException u k (pcOf u k) { vec := 1 })) ∧
    (bankOf u k ≠ 0 → bitAt sw 7 = false ∨ bestRequest v k run = none → Leads (exec (.reti k) s) fun t =>
      pcOf t k = u.get .XC_XPC k j % 2 ^ 24 ∧ bankOf t k = j ∧ t.get .repOn k = u.get .XC_XENT_REPV k j ∧
      t.get .loopOn k = u.get .XC_XENT_LOOPV k j ∧ t.get .loopStart k = u.get .XC_XLS k j ∧ t.get .loopEnd k = u.get .XC_XLE k j ∧
      (∀ q ∈ [(Fld.swC, 0), (.swV, 1), (.swZ, 2), (.swN, 3), (.swSat, 4), (.swDz, 5), (.swDzt, 6), (.swIe, 7)],
        FlagAt u t k q.1 (some (bitAt sw q.2))) ∧
      ∀ f ∈ [Fld.coreD, .coreP, .coreA, .coreRc, .repCnt, .loopCnt], ∀ i j, t.get f i j = u.get f i j) ∧
    (bankOf u k ≠ 0 → bitAt sw 7 = true → bestRequest v k run = some src → Leads (exec (.reti k) s) fun t =>
      t.get .XC_XCAUSE k j = 128 + 256 * src ∧ pcOf t k = 2048 * u.get .XC_VBASE k + 128 + 4 * src ∧ bankOf t k = bankOf u k ∧
      t.get .swIe k = 0 ∧ t.get .IR_SRCST_ACT src = 1 ∧ t.get .XC_XPC k j = u.get .XC_XPC k j))

/-- Exceptions, returns, refill mode and gates of the management core.
R267, R280 to R285, R288, R298: exceptions, returns and gates of the management core (shown with the supervisor stack in MC SRAM,
translation off and an empty store buffer): the frame of 14 words, the hidden record, privilege and vector; refill mode; RETI and
GRET with the checks of the record; GATE without arguments, and its faults; an entry at depth 32 resets the core.
Completes: gret, reti, trap, gate, interruptEntry.
Rests on the model's choices: machine checks (log entry 90) and refill mode (log entry 89). -/
def Obligations.ManagementCoreExceptions : Prop := ∀ (g : BitVec 8) (n : Fin 16) (src : Nat) (e : Exc) (pc : Int) (w d : List Int)
    (s v : State),
  let sp := s.get .coreP 5 7
  let depth := s.nat .XC_STATUS_DEPTH 5
  let plain (x : State) : Prop := x.get .XC_MMU_TEN = 0 ∧ x.get .XC_STATUS_RM 5 = 0 ∧ x.get .XC_STATUS_MCIP 5 = 0 ∧ x.stores = []
  let quiet (x : State) : Prop := x.get .coreOn 5 ≠ 0 ∧ x.get .divOn 5 = 0 ∧ x.get .macOn 5 = 0 ∧ ∀ y ∈ x.traps, y.core ≠ 5
  let two (z : Int) : List Int := [z % 65536, z / 65536 % 256]
  let sup (x : State) : Int := if x.get .swPriv 5 = 0 then 0 else 1
  let words (frame : Bool) (sp : Int) (w : List Int) : List StoreEnt := (List.range (w.length / 2)).map fun (i : Nat) =>
    ⟨5, [((sp + 2 * i).toNat, BitVec.ofInt 16 (w.getD (2 * i) 0)), ((sp + 2 * i + 1).toNat, BitVec.ofInt 16 (w.getD (2 * i + 1) 0))],
      (sp + 2 * i).toNat, true, frame⟩
  let enters (x : State) (pc cause faddr off : Int) (claimed : Int) (t : State) : Prop :=
    let sp := x.get .coreP 5 7
    let depth := x.nat .XC_STATUS_DEPTH 5
    t.stores = words true (sp - 14) (two pc ++ [swWord x 5, sup x + 2 * x.get .repOn 5 + 4 * x.get .loopOn 5, x.get .repCnt 5,
      x.get .loopCnt 5] ++ two (x.get .loopStart 5) ++ two (x.get .loopEnd 5) ++ two faddr ++ [cause, 0]) ∧
    t.get .coreP 5 7 = sp - 14 ∧ t.get .XC_STATUS_DEPTH 5 = depth + 1 ∧ t.get .recKind depth = 0 ∧ t.get .recPriv depth = sup x ∧
    t.get .recClaim depth = claimed ∧ t.get .swPriv 5 = 1 ∧ t.get .swIe 5 = 0 ∧ t.get .loopOn 5 = 0 ∧ t.get .repOn 5 = 0 ∧
    pcOf t 5 = 2048 * x.get .XC_VBASE 5 + off
  let cause := (e.vec : Int) + (if e.vec = 7 ∨ e.vec = 8 then 32 else 0) + (if e.wr then 64 else 0) + 256 * e.info
  let refills (t : State) : Prop := enters s pc cause e.faddr 44 0 t ∧ t.get .XC_STATUS_RM 5 = 1 ∧
    t.get .XC_TLBVA_VA = e.faddr % 2 ^ 24 ∧ t.get .XC_TLBVA_ASID = s.get .XC_ASID_ASID
  let room := 0x10000E ≤ sp ∧ sp ≤ 0x200000
  let b0 := s.atBoundary 5
  let b := b0.fetched 5 1
  let u0 := retireAll b0 5
  let u := u0.fetched 5 1
  let next (x : State) : State := endInstr x 5 1
  let frame := u.get .coreP 5 7
  let top := u.nat .XC_STATUS_DEPTH 5 - 1
  let deep := u.nat .XC_STATUS_DEPTH 5 ≠ 0
  let kind := u.get .recKind top
  let word (i : Nat) := w.getD i 0
  let ready := canIssue b0 5 = true ∧ u0.Ready 5 1 false ∧ u.get .swPriv 5 ≠ 0
  let returnFault (i : Instr) : Prop := exec i s = .next (takeException u 5 (pcOf u 5) { vec := 10 })
  let popped (t : State) : Prop := t.get .XC_STATUS_DEPTH 5 = u.get .XC_STATUS_DEPTH 5 - 1
  (quiet s → plain s → room → depth < 32 → e.vec ≠ 0 → e.vec ≠ 11 → enters s pc cause e.faddr (4 * e.vec) 0 (takeException s 5 pc e)) ∧
  (quiet s → plain s → room → depth < 32 → e.vec = 11 → refills (takeException s 5 pc e)) ∧
  (quiet s → s.get .XC_STATUS_RM 5 = 0 → 32 ≤ depth → e.vec ≠ 0 → takeException s 5 pc e = mcReset s 3) ∧
  (b0.Ready 5 1 false → plain b → 0x10000E ≤ b.get .coreP 5 7 → b.get .coreP 5 7 ≤ 0x200000 → b.nat .XC_STATUS_DEPTH 5 < 32 →
    Leads (exec (.trap 5 n) s) (enters (next b) (pcOf (next b) 5) (16 + n + 256 * n) 0 (4 * (16 + n)) 0)) ∧
  (takesInterrupts s 5 = true → quiet s → plain s → room → depth < 32 → presented s 5 = some src →
    Leads (exec (.interruptEntry 5) s) fun t => enters s (pcOf s 5) (128 + 256 * src) 0 (128 + 4 * src) 1 t ∧
      t.get .IR_SRCST_ACT src = 1) ∧
  (ready → deep → kind = 2 → returnFault (.reti 5)) ∧
  (ready → ¬deep ∨ kind ≠ 2 → returnFault (.gret 5)) ∧
  (ready → ¬deep ∨ kind ≠ 2 → load u 5 true frame 14 = (.ok w, v) → v.get .coreOn 5 ≠ 0 → w.length = 14 →
    (deep → bitAt (word 2) 8 = true → v.get .recPriv top = 0 → exec (.reti 5) s = .next (takeException v 5 (pcOf v 5) { vec := 10 })) ∧
    (deep → v.get .recClaim top = 0 → bitAt (word 2) 8 = false ∨ v.get .recPriv top ≠ 0 → bitAt (word 2) 7 = false →
      Leads (exec (.reti 5) s) fun t => pcOf t 5 = (word 0 + 65536 * (word 1 % 256)) % 2 ^ 24 ∧
      t.get .coreP 5 7 = (frame + 14) % 2 ^ 24 ∧ popped t ∧
      t.get .repOn 5 = word 3 / 2 % 2 ∧ t.get .loopOn 5 = word 3 / 4 % 2 ∧ t.get .repCnt 5 = word 4 ∧ t.get .loopCnt 5 = word 5 ∧
      t.get .loopStart 5 = word 6 + 65536 * (word 7 % 256) ∧ t.get .loopEnd 5 = word 8 + 65536 * (word 9 % 256) ∧
      ∀ q ∈ [(Fld.swC, 0), (.swV, 1), (.swZ, 2), (.swN, 3), (.swSat, 4), (.swDz, 5), (.swDzt, 6), (.swIe, 7), (.swPriv, 8)],
        FlagAt v t 5 q.1 (some (bitAt (word 2) q.2)))) ∧
  (ready → deep → kind = 2 → load u 5 true frame 8 = (.ok w, v) → v.get .coreOn 5 ≠ 0 → w.length = 8 →
    (bitAt (word 6) 8 = true → v.get .recPriv top = 0 → exec (.gret 5) s = .next (takeException v 5 (pcOf v 5) { vec := 10 })) ∧
    (bitAt (word 6) 8 = false ∨ v.get .recPriv top ≠ 0 → Leads (exec (.gret 5) s) fun t =>
      pcOf t 5 = (word 4 + 65536 * (word 5 % 256)) % 2 ^ 24 ∧ t.get .coreP 5 7 = (frame + 8) % 2 ^ 24 ∧ popped t ∧
      t.get .swPriv 5 = word 6 / 256 % 2 ∧ t.get .swIe 5 = word 6 / 128 % 2 ∧
      ∀ f ∈ [Fld.swN, .swZ, .swC, .swV, .swSat, .swDz, .swDzt], t.get f 5 = v.get f 5)) ∧
  (∀ k : CoreId, (k : Nat) ≠ 5 → canIssue (s.atBoundary k) k = true → (retireAll (s.atBoundary k) k).Ready k 1 false →
    let x := (retireAll (s.atBoundary k) k).fetched k 1;
    ∀ i ∈ [Instr.gate k g, .gret k], exec i s = .next (takeException x k (pcOf x k) { vec := 1 })) ∧
  (canIssue b0 5 = true → u0.Ready 5 1 false →
    (¬(0x100000 ≤ u.nat .XC_GTBASE + 16 * g.toNat ∧ u.nat .XC_GTBASE + 16 * g.toNat + 15 < 0x200000) →
      exec (.gate 5 g) s = .next (takeException u 5 (pcOf u 5) { vec := 9, info := g.toNat, faddr := 1 })) ∧
    (gateDescriptor u g.toNat = (.ok d, v) → v.get .coreOn 5 ≠ 0 → bitAt (d.getD 2 0) 0 = false →
      exec (.gate 5 g) s = .next (takeException v 5 (pcOf v 5) { vec := 9, info := g.toNat, faddr := 1 })) ∧
    (gateDescriptor u g.toNat = (.ok d, v) → v.get .coreOn 5 ≠ 0 → d.getD 2 0 = 1 → d.getD 3 0 = 0 → u.get .swPriv 5 = 0 →
      exec (.gate 5 g) s = .next (takeException v 5 (pcOf v 5) { vec := 9, info := g.toNat, faddr := 2 })) ∧
    (gateDescriptor u g.toNat = (.ok d, v) → d.getD 2 0 = 3 ∨ (d.getD 2 0 = 1 ∧ u.get .swPriv 5 ≠ 0) → d.getD 3 0 = 0 → plain u → u.get .coreOn 5 ≠ 0 →
      0x100008 ≤ frame → frame ≤ 0x200000 → u.nat .XC_STATUS_DEPTH 5 < 32 → Leads (exec (.gate 5 g) s) fun t =>
      pcOf t 5 = (d.getD 0 0 + 65536 * (d.getD 1 0 % 256)) % 2 ^ 24 ∧ t.get .swPriv 5 = 1 ∧ t.get .swIe 5 = u.get .swIe 5 ∧
      t.get .coreP 5 7 = frame - 8 ∧ t.get .coreUsp = u.get .coreUsp ∧ t.get .XC_STATUS_DEPTH 5 = top + (if deep then 2 else 1) ∧
      t.get .recKind (if deep then top + 1 else 0) = 2 ∧ t.get .recPriv (if deep then top + 1 else 0) = sup u ∧
      t.stores = words false (frame - 8) ([0, 0, 0, 0] ++ two (pcOf (next u) 5) ++ [swWord u 5, g.toNat])))

/-- Custom instructions: the decode checks, microcode, and its exceptions.
R243, R268, R272, R300 to R308: a custom instruction: the checks of its decode entry; microcode of one microword that adds two data
registers, with its flags; and, for any microcode, an exception that leaves every register and flag of the core, its store buffer
and memory as they were.
Completes: customInstruction.
Rests on the model's choices: microcode sees memory without its own stores (log entry 92), and in which copy an error lies is free
(log entry 125). -/
def Obligations.CustomInstructions : Prop := ∀ (k : CoreId) (e : Fin 32) (op : BitVec 6) (x y z : Fin 8) (c : Exc) (s t : State),
  let b0 := s.atBoundary k
  let u0 := retireAll b0 k
  let u := u0.fetched k 1
  let entry := u.get .decCopy k e
  let raises (v : Nat) : Prop := exec (.customInstruction k e op) s = .next (takeException u k (pcOf u k) { vec := v })
  let page := (entry / 64 % 16).toNat
  let m := 64 * page + (entry % 64).toNat
  let w := u.get .UC_MW m
  let part (hi lo : Nat) := w / 2 ^ lo % 2 ^ (hi + 1 - lo)
  let allowed := bitAt entry 10 = true ∧ (bitAt entry 11 = false ∨ (k : Nat) = 5) ∧ (bitAt entry 12 = false ∨ supervisor u k = true)
  let sum := signed 16 (dReg u k x) + signed 16 (dReg u k y)
  let flags := bitAt w 46
  canIssue b0 k = true → u0.Ready k 1 false →
  (bitAt entry 10 = false → raises 1) ∧ (bitAt entry 10 = true → bitAt entry 11 = true → (k : Nat) ≠ 5 → raises 1) ∧
  (bitAt entry 10 = true → (bitAt entry 11 = false ∨ (k : Nat) = 5) → bitAt entry 12 = true → supervisor u k = false → raises 3) ∧
  (allowed → u.get .ucBad k m = 0 → part 28 24 = (x : Nat) → part 33 29 = (y : Nat) → part 38 34 = 2 →
    part 43 39 = (z : Nat) → part 45 44 = 0 → bitAt w 47 = false → bitAt w 6 = true →
    Ends (exec (.customInstruction k e op) s) k 1 fun t =>
      dReg t k z = sum % 65536 ∧ (∀ n < 8, n ≠ (z : Nat) → dReg t k n = dReg u k n) ∧ t.stores = u.stores ∧ t.mem = u.mem ∧
      (flags = true → FlagAt u t k .swN (some (bitAt sum 15)) ∧ FlagAt u t k .swZ (some (decide (sum % 65536 = 0))) ∧
        FlagAt u t k .swC (some (decide (65536 ≤ signed 16 (dReg u k x) % 65536 + signed 16 (dReg u k y) % 65536))) ∧
        FlagAt u t k .swV (some (decide (sum < -32768 ∨ 32767 < sum)))) ∧
      (flags = false → ∀ f ∈ [Fld.swN, .swZ, .swC, .swV], t.bit f k = u.bit f k)) ∧
  (customRun u k e op.toNat = .fault c t → (∀ n < 8, dReg t k n = dReg u k n ∧ pReg t k n = pReg u k n) ∧
    (∀ n < 2, aReg t k n = aReg u k n) ∧ rcReg t k = rcReg u k ∧ pcOf t k = pcOf u k ∧ t.stores = u.stores ∧ t.mem = u.mem ∧
    ∀ f ∈ [Fld.swN, .swZ, .swC, .swV, .swSat, .swDz, .swIe, .swPriv], t.get f k = u.get f k)

/-- Translation by the TLB, the walk instruction, TLBWR and the invalidations.
R268, R286 to R289, R291: translation by the TLB (the lowest-numbered match, its page size and permissions, MULTI), the walk
instruction LDPT, translated outside refill mode, with the table of its levels and the walk-region fault, TLBWR into the replacement
entry, and the invalidations; illegal on a tick core or while their entry is not valid, privileged at user privilege. That TLBWR
invalidates every overlapping entry, and not only one of the same page size, is the model's reading.
Completes: ldpt, tlbwr, tlbinvAll, tlbinvAsid, tlbinvVa.
Rests on the model's choices: the clause in which TLBWR invalidates overlapping pages, a reading of R289 and R291 (log entry 82). -/
def Obligations.TranslationAndTlb : Prop := ∀ (k : CoreId) (n lvl m : Fin 4) (q : Fin 8) (va : Int) (sup : Bool) (acc : Access) (i : Nat)
    (lo hi : Int) (e : Exc) (s u : State),
  let b0 := s.atBoundary 5
  let b := b0.fetched 5 1
  let size (i : Nat) : Nat := if s.get .tlbSz i = 0 then 10 else if s.get .tlbSz i = 1 then 16 else 22
  let hit (i : Nat) : Prop := s.get .tlbV i ≠ 0 ∧ s.get .tlbVpn i / 2 ^ (size i - 10) = va / 2 ^ 10 / 2 ^ (size i - 10) ∧
    (s.get .tlbG i ≠ 0 ∨ s.get .tlbAsid i = s.get .XC_ASID_ASID)
  let pte := s.get .tlbPte i
  let allows := (sup = true ∨ bitAt pte 5 = true) ∧ bitAt pte (match acc with | .read => 2 | .write => 3 | .fetch => 4) = true
  let on := s.get .XC_MMU_TEN ≠ 0 ∧ s.get .XC_STATUS_RM 5 = 0
  let start (k : Nat) : State := (s.atBoundary k).fetched k 1
  let illegal (j : Instr) (k : Nat) (v : Nat) : Prop := exec j s = .next (takeException (start k) k (pcOf (start k) k) { vec := v })
  let all (k : CoreId) := [(29, Instr.ldpt k n lvl m), (30, .tlbwr k n m), (31, .tlbinvAll k), (31, .tlbinvAsid k q), (31, .tlbinvVa k q)]
  let valid (e : Nat) := bitAt (b.get .decCopy 5 e) 10 = true
  let word (e : Nat) : Nat := (b.get .decCopy 5 e % 1024 / 64 * 64 + b.get .decCopy 5 e % 64).toNat
  let ok (e : Nat) := valid e ∧ b.get .swPriv 5 ≠ 0 ∧ b0.Ready 5 1 false ∧ b.get .ucBad 5 (word e) = 0 ∧ (5, word e) ∉ b.softUc
  let plain := b.get .XC_MMU_TEN = 0 ∨ b.get .XC_STATUS_RM 5 ≠ 0
  let miss := b.get .XC_TLBVA_VA
  let base := pReg b 5 m / 1024 % 16384 * 1024
  let a : Int := match (lvl : Nat) with
    | 0 => pReg b 5 m
    | 1 => (b.get .XC_PTROOT + 2 * (miss / 2 ^ 22 % 4)) % 2 ^ 24
    | 2 => (base + 2 * (miss / 2 ^ 16 % 64)) % 2 ^ 24
    | _ => (base + 2 * (miss / 2 ^ 10 % 64)) % 2 ^ 24
  let next := (a + 1) % 2 ^ 24
  let tables (z : Int) := z.toNat < 0x20000 ∨ (0x100000 ≤ z.toNat ∧ z.toNat < 0x200000)
  let low : Nat := 2 * (n : Nat)
  let new := dReg b 5 low + 65536 * dReg b 5 (low + 1)
  let place := max (b.nat .XC_MMU_RP) (b.nat .XC_MMU_WIRED)
  let vpn := miss / 2 ^ 10 % 2 ^ 14
  let drops (t : State) (p : Nat → Bool) : Prop := ∀ i < 64, t.get .tlbV i = if p i then 0 else b.get .tlbV i
  (¬on → translate s va sup acc = (.hit va.toNat, s)) ∧
  (on → (∀ i < 64, ¬hit i) → translate s va sup acc = (.miss, s)) ∧
  (on → i < 64 → hit i → (∀ j < i, ¬hit j) → (translate s va sup acc).1 = if allows then
    .hit ((pte / 1024 % 2 ^ 22 * 1024) / 2 ^ size i * 2 ^ size i + va % 2 ^ size i).toNat else .denied) ∧
  (on → i < 64 → hit i → (∀ j < 64, j ≠ i → ¬hit j) → (translate s va sup acc).2 = s) ∧
  (on → i < 64 → hit i → (∃ j < 64, j ≠ i ∧ hit j) → (translate s va sup acc).2 = s.put .XC_MMU_MULTI 1) ∧
  ((k : Nat) ≠ 5 → (s.atBoundary k).Ready k 1 false → ∀ j ∈ all k, illegal j.2 k 1) ∧
  (b0.Ready 5 1 false → ∀ j ∈ all 5, (¬valid j.1 → illegal j.2 5 1) ∧ (valid j.1 → b.get .swPriv 5 = 0 → illegal j.2 5 3)) ∧
  (ok 29 → reachAll b 5 true a .read 2 = (.error e, u) → exec (.ldpt 5 n lvl m) s = .next (takeException u 5 (pcOf u 5) e)) ∧
  (ok 29 → plain → ¬(tables a ∧ tables next) → exec (.ldpt 5 n lvl m) s = .next (takeException (b.put .XC_TLBWADDR a) 5 (pcOf b 5)
    { vec := 13, wr := b.bit .missWr, faddr := miss })) ∧
  (ok 29 → plain → tables a → tables next →
    (loadCells b 5 a [a.toNat, next.toNat] = (.error e, u) → u.get .coreOn 5 ≠ 0 →
      exec (.ldpt 5 n lvl m) s = .next (takeException u 5 (pcOf u 5) e)) ∧
    (loadCells b 5 a [a.toNat, next.toNat] = (.ok [lo, hi], u) → u.get .coreOn 5 ≠ 0 →
      exec (.ldpt 5 n lvl m) s = .next (endInstr (setD (setD u 5 low lo) 5 (low + 1) hi) 5 1))) ∧
  (ok 30 → (m : Nat) = 3 → illegal (.tlbwr 5 n m) 5 1) ∧
  (ok 30 → (m : Nat) ≠ 3 → place < 64 → Ends (exec (.tlbwr 5 n m) s) 5 1 fun t =>
    t.get .tlbV place = new % 2 ∧ t.get .tlbVpn place = vpn ∧ t.get .tlbAsid place = b.get .XC_TLBVA_ASID ∧
    t.get .tlbSz place = (m : Nat) ∧ t.get .tlbG place = new / 64 % 2 ∧ t.get .tlbPte place / 1024 = new / 1024 ∧
    (∀ bit ∈ [1, 2, 3, 4, 5], bitAt (t.get .tlbPte place) bit = bitAt new bit) ∧
    t.get .XC_MMU_RP = (if place = 63 then b.get .XC_MMU_WIRED else place + 1) ∧
    (∀ i < 64, i ≠ place → t.get .tlbV i = if tlbMeets b i vpn (b.get .XC_TLBVA_ASID) (m : Nat) (bitAt new 6) then 0 else b.get .tlbV i) ∧
    b.SameBut (fun p => p ∈ [.fld .tlbV, .fld .tlbVpn, .fld .tlbAsid, .fld .tlbSz, .fld .tlbG, .fld .tlbPte, .fld .XC_MMU_RP]) t) ∧
  (ok 31 → Ends (exec (.tlbinvAll 5) s) 5 1 (fun t => drops t (fun _ => true) ∧ b.SameBut (fun p => p == .fld .tlbV) t) ∧
    Ends (exec (.tlbinvAsid 5 q) s) 5 1 (fun t => b.SameBut (fun p => p == .fld .tlbV) t ∧
      drops t fun i => decide (b.get .tlbG i = 0 ∧ b.get .tlbAsid i = dReg b 5 q % 256)) ∧
    Ends (exec (.tlbinvVa 5 q) s) 5 1 fun t => b.SameBut (fun p => p == .fld .tlbV) t ∧
      drops t fun i => tlbMatch b i (pReg b 5 q) (b.get .XC_ASID_ASID))

/-- The queues of the Headgate.
R369, R370, R373 to R376: the queues of the Headgate: OPEN sets the epoch of the MSPI port and discards what belongs to others,
ABORT removes a queued request, TAKE hands the next message to the firmware, DONE completes it, an overdue one is completed by the
hardware, and a port reset begins the next epoch. With the management core fused out no message is answered (R335).
Completes: openPort, hgAbort, tagQuietEnd, getTelem, getStatus, setVout, setEnable, clearFault, setSlew, setLimitIlim, recRead,
recCtrlFrznow, stgRead, event, execTimeout, take, hgDone, prst, attest.
Rests on the model's choices: a command that is not due leaves the state as it is (log entry 7). -/
def Obligations.HeadgateQueues : Prop := ∀ (tag n : BitVec 8) (epoch : BitVec 4) (p : Port) (m : HgMsg) (s : State),
  let q := m.parts.headD ⟨0, 0, []⟩
  let cpl (st : Nat) (l : List Byte) : HgCpl := ⟨q.typ, m.tag, m.epoch, st, q.target, l, none⟩
  (Leads (exec (.openPort tag epoch) s) fun t => t.get .HG_PSTAT_EPOCH 5 = epoch.toNat ∧
    t.hgQueue = s.hgQueue.filter (fun x => x.port ≠ 5 ∨ x.epoch = epoch.toNat) ∧
    t.hgCpl = s.hgCpl.filter (fun x => x.epoch = epoch.toNat) ++ [⟨1, tag.toNat, epoch.toNat, 0, 0, [], none⟩] ∧
    t.get .tagUse tag.toNat = 1) ∧
  (n ≠ tag → s.get .tagUse n.toNat = 1 → Leads (exec (.hgAbort tag n) s) fun t =>
    t.hgQueue = s.hgQueue.filter (fun x => ¬(x.port = 5 ∧ x.tag = n.toNat)) ∧ t.get .tagDead n.toNat = 1 ∧
    t.hgCpl = s.hgCpl.filter (fun x => x.tag ≠ n.toNat) ++ [⟨2, tag.toNat, s.nat .HG_PSTAT_EPOCH 5, 0, 0,
      [if s.hgQueue.any (fun x => x.port == 5 && x.tag == n.toNat) then 1 else 0], some n.toNat⟩]) ∧
  (n = tag ∨ s.get .tagUse n.toNat ≠ 1 → Leads (exec (.hgAbort tag n) s) fun t => t.hgQueue = s.hgQueue ∧
    t.hgCpl = s.hgCpl ++ [⟨2, tag.toNat, s.nat .HG_PSTAT_EPOCH 5, 0, 0, [0], none⟩]) ∧
  (s.get .tagUse n.toNat = 2 → s.now ≥ s.get .tagQuiet n.toNat → exec (.tagQuietEnd n) s =
    .next ((s.put .tagUse 0 n.toNat).put .tagDead 0 n.toNat)) ∧
  (s.get .tagUse n.toNat ≠ 2 ∨ s.now < s.get .tagQuiet n.toNat → exec (.tagQuietEnd n) s = .next s) ∧
  (s.hgTaken = none → unmanaged s = false → (∀ x ∈ s.hgQueue, x.epoch = s.nat .HG_PSTAT_EPOCH x.port) → s.get .IM_STATE_NOFW = 0 →
    s.get .IM_STATE_NOSI = 0 → s.hgCpl.length < 16 → ((portOrder s).find? fun p => (queuedAt s p) ≠ []) = some p →
    (queuedAt s p).head? = some m → Leads (exec .take s) fun t => t.hgTaken = some m ∧ t.hgQueue = s.hgQueue.erase m ∧
      t.get .HG_XHDR1_XV = 1 ∧ t.get .HG_XHDR0_TYPE = q.typ ∧ t.get .HG_XHDR0_TAG = m.tag ∧ t.get .HG_XHDR1_EPOCH = m.epoch ∧
      t.get .HG_XHDR1_PORT = m.port ∧ t.get .HG_XHDR1_TARGET = q.target ∧ t.get .HG_XHDR2_LEN = q.payload.length ∧
      t.get .hgNext = ((m.port + 1) % 6 : Nat) ∧ (servedType q = false → t.get .HG_XCTL_STATUS = 6)) ∧
  (s.hgTaken = some m → exec .take s = .next s) ∧
  (s.hgTaken = some m → unmanaged s = false → s.get .hgDead = 0 → m.epoch = s.nat .HG_PSTAT_EPOCH m.port → Leads (exec .hgDone s) fun t =>
    t.hgTaken = none ∧ t.get .HG_XHDR1_XV = 0 ∧
    (m.port = 5 → s.get .tagDead m.tag = 0 → t.hgCpl = s.hgCpl ++ [cpl (s.nat .HG_XCTL_STATUS) (cbufBytes s)]) ∧
    (m.port ≠ 5 → t.get .HG_PSTAT_LAST m.port = s.get .HG_XCTL_STATUS ∧ t.hgCpl = s.hgCpl)) ∧
  (s.hgTaken = some m → unmanaged s = false → s.get .hgDead = 0 → m.epoch ≠ s.nat .HG_PSTAT_EPOCH m.port → Leads (exec .hgDone s) fun t =>
    t.hgTaken = none ∧ t.hgCpl = s.hgCpl ∧ t.get .HG_STALE m.port = min 0xFFFF (s.get .HG_STALE m.port + 1)) ∧
  (s.hgTaken = none → exec .hgDone s = .next s) ∧
  (s.hgTaken = none → (queuedAt s p).head? = some m → overdue s m = true → m.epoch = s.nat .HG_PSTAT_EPOCH p →
    Leads (exec (.execTimeout p) s) fun t => t.hgQueue = s.hgQueue.erase m ∧
      (p = 5 → s.get .tagDead m.tag = 0 → t.hgCpl = s.hgCpl ++ [cpl 10 []]) ∧ (p ≠ 5 → t.get .HG_PSTAT_LAST p = 10)) ∧
  (s.hgTaken = some m → m.port = p → s.get .hgDead = 0 → overdue s m = true → m.epoch = s.nat .HG_PSTAT_EPOCH p →
    Leads (exec (.execTimeout p) s) fun t => t.get .hgDead = 1 ∧ t.hgTaken = some m ∧
      (p = 5 → s.get .tagDead m.tag = 0 → t.hgCpl = s.hgCpl ++ [cpl 10 []]) ∧ (p ≠ 5 → t.get .HG_PSTAT_LAST p = 10)) ∧
  (Leads (exec (.prst p) s) fun t => t.get .HG_PSTAT_EPOCH p = (s.get .HG_PSTAT_EPOCH p + 1) % 16 ∧
    t.avsHeld = s.avsHeld.filter fun x => x.1 ≠ (p : Nat)) ∧
  (unmanaged s = true → ∀ i ∈ [Instr.take, .hgDone, .getTelem, .getStatus, .setVout, .setEnable, .clearFault, .setSlew, .setLimitIlim,
    .recRead, .recCtrlFrznow, .stgRead, .event, .attest], exec i s = .next s)

/-- The messages that the firmware executes for the host.
R371, R372: the messages that the firmware executes for the host: what each may be refused for, with the status of R373, and what
each does: it reads telemetry, status or records, writes a setpoint, an enable, a slew or a limit for the next boundary, clears a
fault, commands the recorder, or publishes an event.
Completes: getTelem, getStatus, setVout, setEnable, clearFault, setSlew, setLimitIlim, setLimitIallot, setLimitPallot, recRead,
recCtrlFrznow, recCtrlResume, recCtrlStgarm, recCtrlTrig, stgRead, event. -/
def Obligations.HeadgateMessages : Prop := ∀ (m : HgMsg) (q : HgPart) (s : State), s.hgTaken = some m → m.parts = [q] → unmanaged s = false →
  let r := q.target
  let v := ((leNat (q.payload.take 2) : Nat) : Int)
  let w := ((leNat ((q.payload.drop 2).take 2) : Nat) : Int)
  let lim := ((leNat ((q.payload.drop 1).take 4) : Nat) : Int)
  let kind := (q.payload.getD 0 0).toNat
  let status (i : Instr) (st : Int) := Leads (exec i s) fun t => t.get .HG_XCTL_STATUS = st ∧ t.writes = s.writes ∧
    t.commits = s.commits
  (∀ p ∈ [(Instr.getTelem, 0x10), (.getStatus, 0x11), (.setVout, 0x20), (.setEnable, 0x21), (.clearFault, 0x22),
      (.setSlew, 0x23), (.recRead, 0x30), (.stgRead, 0x32), (.event, 0x40)],
    (q.typ ≠ p.2 → exec p.1 s = .next s) ∧
    (q.typ = p.2 → s.get .IM_STATE_NOFW ≠ 0 ∨ payloadGood q = false → status p.1 6) ∧
    (q.typ = p.2 → s.get .IM_STATE_NOFW = 0 → payloadGood q = true → bitAt (s.get .hgClass m.port) (classOf q.typ) = false →
      status p.1 1)) ∧
  (∀ p ∈ [(Instr.setLimitIlim, 0x24, 0), (.setLimitIallot, 0x24, 1), (.setLimitPallot, 0x24, 2), (.recCtrlFrznow, 0x31, 0),
      (.recCtrlResume, 0x31, 1), (.recCtrlStgarm, 0x31, 2), (.recCtrlTrig, 0x31, 3)],
    (q.typ ≠ p.2.1 ∨ kind ≠ p.2.2 → exec p.1 s = .next s) ∧
    (q.typ = p.2.1 → kind = p.2.2 → s.get .IM_STATE_NOFW ≠ 0 ∨ payloadGood q = false → status p.1 6) ∧
    (q.typ = p.2.1 → kind = p.2.2 → s.get .IM_STATE_NOFW = 0 → payloadGood q = true →
      bitAt (s.get .hgClass m.port) (classOf q.typ) = false → status p.1 1)) ∧
  (s.get .IM_STATE_NOFW = 0 → payloadGood q = true → bitAt (s.get .hgClass m.port) (classOf q.typ) = true →
    (q.typ = 0x10 → railExists s r = true → Leads (exec .getTelem s) fun t => t.get .HG_XCTL_STATUS = 0 ∧
      cbufBytes t = cacheBytes s r 0 16) ∧
    (q.typ = 0x11 → railExists s r = true → Leads (exec .getStatus s) fun t => t.get .HG_XCTL_STATUS = 0 ∧
      cbufBytes t = statusBytes s r) ∧
    (railExists s r = false → (q.typ = 0x10 → status .getTelem 5) ∧ (q.typ = 0x11 → status .getStatus 5)) ∧
    (r ≠ 0xFF → ∀ st, ctlChecks s m r = some st → (q.typ = 0x20 → status .setVout st) ∧ (q.typ = 0x21 → status .setEnable st) ∧
      (q.typ = 0x22 → status .clearFault st) ∧ (q.typ = 0x23 → status .setSlew st)) ∧
    (r ≠ 0xFF → ctlChecks s m r = none →
      (q.typ = 0x20 → (setpointJudge s r v = .bound → status .setVout 3) ∧ (setpointJudge s r v = .refused → status .setVout 4) ∧
        (setpointJudge s r v = .stored → Leads (exec .setVout s) fun t => t.get .HG_XCTL_STATUS = 0 ∧
          t.written ⟨.LN_VSET, r, 0⟩ = v)) ∧
      (q.typ = 0x21 → hostEnables s r = false → (kind = 1 ∨ m.cmd ≠ 1 ∨ railState s r ≠ stFAULT) → status .setEnable 8) ∧
      (q.typ = 0x21 → hostEnables s r = true → kind = 1 → (marginSet s m.margin r).bind (voutCheck s r) = none →
        (admissible s r (s.get .istart r) = false → status .setEnable 4) ∧
        (admissible s r (s.get .istart r) = true → Leads (exec .setEnable s) fun t => t.get .HG_XCTL_STATUS = 0 ∧
          t.written ⟨.DM_RAILCTL_HOSTEN, r, 0⟩ = (if hostEnable s m r true then 1 else 0))) ∧
      (q.typ = 0x21 → hostEnables s r = true → kind = 0 → Leads (exec .setEnable s) fun t => t.get .HG_XCTL_STATUS = 0 ∧
        t.written ⟨.DM_RAILCTL_HOSTEN, r, 0⟩ = (if hostEnable s m r false then 1 else 0)) ∧
      (q.typ = 0x22 → railState s r = stFAULT → Leads (exec .clearFault s) fun t => t.get .HG_XCTL_STATUS = 0 ∧
        t.get .fclrReq r = 1) ∧
      (q.typ = 0x22 → railState s r ≠ stFAULT → status .clearFault 7) ∧
      (q.typ = 0x23 → slopesGood s r v w = true →
        Leads (exec .setSlew s) fun t => t.get .HG_XCTL_STATUS = 0 ∧ t.written ⟨.LN_SLEWUP, r, 0⟩ = v ∧
          t.written ⟨.LN_SLEWDN, r, 0⟩ = w) ∧
      (q.typ = 0x23 → slopesGood s r v w = false → status .setSlew 3) ∧
      (q.typ = 0x24 → kind = 0 → (s.inBound ⟨.DM_RAILLIM_ILIM, r, 0⟩ lim = true → Leads (exec .setLimitIlim s) fun t =>
          t.get .HG_XCTL_STATUS = 0 ∧ t.written ⟨.DM_RAILLIM_ILIM, r, 0⟩ = lim) ∧
        (s.inBound ⟨.DM_RAILLIM_ILIM, r, 0⟩ lim = false → status .setLimitIlim 3))) ∧
    (q.typ = 0x22 → r = 0xFF → ∀ x < 16, bitAt (s.get .hgRails m.port) x = true → railState s x = stFAULT →
      m.port ≠ 0 ∨ wpAllows s m.cmd = true → Leads (exec .clearFault s) fun t => t.get .fclrReq x = 1) ∧
    (q.typ = 0x24 → m.port ≠ 0 ∨ wpAllows s m.cmd = true →
      (kind = 1 → r < 8 → s.get .DM_DOMCFG_USED r ≠ 0 → covers s m.port (domainRails s r) = true →
        s.inBound ⟨.DM_DOM_IALLOT, r, 0⟩ lim = true → Leads (exec .setLimitIallot s) fun t => t.get .HG_XCTL_STATUS = 0 ∧
          t.written ⟨.DM_DOM_IALLOT, r, 0⟩ = lim) ∧
      (kind = 2 → r = 0 → covers s m.port ((List.range 16).filter fun x => railState s x != stUNUSED) = true →
        s.inBound ⟨.DM_DEV_PALLOT, 0, 0⟩ lim = true → Leads (exec .setLimitPallot s) fun t => t.get .HG_XCTL_STATUS = 0 ∧
          t.written ⟨.DM_DEV_PALLOT, 0, 0⟩ = lim)) ∧
    (r = 0 → (q.typ = 0x30 → Leads (exec .recRead s) fun t => t.get .HG_XCTL_STATUS = 0 ∧ cbufBytes t = (readRecords s
        (fun i => s.nat .RC_BASE + 16 * ((leNat (q.payload.take 4) + i) % 2 ^ 24)) (leNat ((q.payload.drop 4).take 2)) false).1) ∧
      (q.typ = 0x32 → Leads (exec .stgRead s) fun t => t.get .HG_XCTL_STATUS = 0 ∧ cbufBytes t = (readRecords s
        (fun i => 0x1000000 + 16 * ((leNat (q.payload.take 2) + i) % 65536)) (leNat ((q.payload.drop 2).take 2)) true).1) ∧
      (∀ p ∈ [(Instr.recCtrlFrznow, 0, freezeNow s), (.recCtrlResume, 1, recResume s), (.recCtrlStgarm, 2, stgArm s),
          (.recCtrlTrig, 3, stgTrigger s)], q.typ = 0x31 → kind = p.2.1 → Leads (exec p.1 s) fun t =>
        t.get .HG_XCTL_STATUS = 0 ∧ ∀ f i j, f ≠ .HG_XCTL_STATUS → f ≠ .HG_XCLEN_LEN → t.get f i j = p.2.2.get f i j)) ∧
    (r ≠ 0 → (q.typ = 0x30 → status .recRead 5) ∧ (q.typ = 0x32 → status .stgRead 5)) ∧
    (q.typ = 0x40 → 64 ≤ r ∨ bitAt (s.get .hgEvents m.port) r = false → status .event 1) ∧
    (q.typ = 0x40 → r < 64 → bitAt (s.get .hgEvents m.port) r = true → Leads (exec .event s) fun t =>
      t.get .HG_XCTL_STATUS = 0 ∧ t.arrivals = (proxyPublish s 5 true r).arrivals ∧
      t.get .EV_CHPUB r = (proxyPublish s 5 true r).get .EV_CHPUB r))

/-- The management SPI: its frames, requests and completions.
R374, R375, R377, R378, R381: the management SPI and the discarded transactions: a bad frame is counted, a good one is queued unless
its port is full, its epoch old or its tag in use; OPEN and ABORT are carried out at once; READ clocks out the oldest completion,
and the last byte of its CRC frees the tag; STAT reports the queue.
R378: the frames of both directions have one form: a frame that the device sends, with status 0, is one that it would take.
Completes: openPort, hgAbort, mspiWrite, mspiRead, mspiStat, frameTimeout, smbusTimeout, smbusMidByteStartStop,
mspiOtherCommandByte.
Rests on the model's choices: a command that is not due leaves the state as it is (log entry 7). -/
def Obligations.ManagementSpi : Prop :=
  (∀ (l : List (BitVec 8)) (c : HgCpl) (rest : List HgCpl) (whole : Bool) (s : State),
  let typ := (l.getD 1 0).toNat
  let tag := (l.getD 2 0).toNat
  let epoch := (l.getD 3 0).toNat % 16
  let payload := (l.drop 8).take (leNat ((l.drop 6).take 2))
  let live := s.get .HG_PCFG_EN 5 ≠ 0
  let report := leBytes 1 (16 - (queuedAt s 5).length : Nat) ++ leBytes 1 s.hgCpl.length ++
    leBytes 1 (s.get .HG_PSTAT_EPOCH 5) ++ [0]
  (live → frameGood l = false → exec (.mspiWrite l) s = .next (s.bump .HG_FRAMEERR 0xFFFF 5)) ∧
  (live → frameGood l = true → 16 ≤ (queuedAt s 5).length →
    exec (.mspiWrite l) s = .next (s.bump .HG_QFULL 0xFFFF 5)) ∧
  (live → frameGood l = true → (queuedAt s 5).length < 16 →
    (typ ≠ 1 → epoch ≠ s.nat .HG_PSTAT_EPOCH 5 → exec (.mspiWrite l) s = .next (s.bump .HG_STALE 0xFFFF 5)) ∧
    (typ = 1 ∨ epoch = s.nat .HG_PSTAT_EPOCH 5 → s.get .tagUse tag ≠ 0 →
      exec (.mspiWrite l) s = .next (s.bump .HG_TAGDUP 0xFFFF 5)) ∧
    (typ = 1 → payload = [] → s.get .tagUse tag = 0 →
      exec (.mspiWrite l) s = exec (.openPort (BitVec.ofNat 8 tag) (BitVec.ofNat 4 epoch)) s) ∧
    (typ = 2 → payload.length = 1 → epoch = s.nat .HG_PSTAT_EPOCH 5 → s.get .tagUse tag = 0 →
      exec (.mspiWrite l) s = exec (.hgAbort (BitVec.ofNat 8 tag) (BitVec.ofNat 8 (leNat payload))) s) ∧
    (typ ≠ 1 ∨ payload ≠ [] → typ ≠ 2 ∨ payload.length ≠ 1 → typ = 1 ∨ epoch = s.nat .HG_PSTAT_EPOCH 5 → s.get .tagUse tag = 0 →
      Leads (exec (.mspiWrite l) s) fun t => t.get .tagUse tag = 1 ∧ t.hgQueue = s.hgQueue ++
        [⟨5, tag, epoch, [⟨typ, (l.getD 4 0).toNat, payload⟩], 0, 0, s.now⟩])) ∧
  (live → s.hgCpl = [] → exec (.mspiRead whole) s =
    .next { s with hostOut := mspiFrame 0 0 (s.nat .HG_PSTAT_EPOCH 5) 0 0 [] }) ∧
  (live → s.hgCpl = c :: rest → Leads (exec (.mspiRead whole) s) fun t =>
    t.hostOut = mspiFrame c.typ c.tag c.epoch c.status c.target c.payload ∧ t.hgCpl = (if whole then rest else c :: rest) ∧
    (whole = true → c.victim = none → t.get .tagUse c.tag = 0) ∧
    (∀ n, whole = true → c.victim = some n → t.get .tagUse n = 2 ∧ t.get .tagQuiet n = s.now + 320000)) ∧
  (live → exec .mspiStat s = .next { s with hostOut := report }) ∧
  (¬live → exec (.mspiWrite l) s = .next s ∧ exec (.mspiRead whole) s = .next s ∧ exec .mspiStat s = .next s) ∧
  (live → exec .frameTimeout s = .next (s.bump .HG_PARTIAL 0xFFFF 5) ∧
    exec .mspiOtherCommandByte s = .next (s.bump .HG_FRAMEERR 0xFFFF 5)) ∧
  (¬live → exec .frameTimeout s = .next s ∧ exec .mspiOtherCommandByte s = .next s) ∧
  (s.get .HG_PCFG_EN 0 ≠ 0 → exec .smbusTimeout s = .next (s.bump .HG_PARTIAL 0xFFFF 0) ∧
    exec .smbusMidByteStartStop s = .next (s.bump .HG_PARTIAL 0xFFFF 0)) ∧
  (s.get .HG_PCFG_EN 0 = 0 → exec .smbusTimeout s = .next s ∧ exec .smbusMidByteStartStop s = .next s)) ∧
  (∀ (typ tag epoch target : Nat) (payload : List Byte), payload.length ≤ 4096 →
  let l := mspiFrame typ tag epoch 0 target payload
  frameGood l = true ∧ (l.getD 1 0).toNat = typ % 256 ∧ (l.getD 2 0).toNat = tag % 256 ∧ (l.getD 3 0).toNat = epoch % 16 ∧
    (l.getD 4 0).toNat = target % 256 ∧ (l.drop 8).take (leNat ((l.drop 6).take 2)) = payload)

/-- What PMBus reads.
R382, R385, R386, R388: what PMBus reads: constants, the held settings, and the values of the page's rail; PAGE 0xFF reads 0xFF in
every byte and sets STATUS_CML bit 6; a port not in use answers nothing.
Completes: pmbPage, operationOff, operationOn, operationMarginLow, operationMarginHigh, onOffConfig, pmbPhase, writeProtect,
capability, voutMode, voutCommand, voutMax, voutMarginHigh, voutMarginLow, voutTransitionRate, coefficients, ioutOcFaultLimit,
statusByte, statusWord, statusVout, statusIout, statusInput, statusTemperature, statusCml, statusMfrSpecific, readVin, readVout,
readIout, readTemperature1, readPout, pmbusRevision, mfrId, mfrModel, mfrHgLast, alertResponse, pmbusUnsupportedCommand. -/
def Obligations.PmbusReads : Prop := ∀ (r : Nat) (code : BitVec 8) (s : State),
  let live := s.get .HG_PCFG_EN 0 ≠ 0
  (∀ p ∈ [(Instr.capability, ([0xD4] : List Byte)), (.voutMode, [0x40]), (.pmbusRevision, [0x44]),
      (.mfrId, [6, 0x48, 0x55, 0x41, 0x54, 0x49, 0x56]), (.mfrModel, [8, 0x56, 0x4B, 0x50, 0x2D, 0x37, 0x31, 0x32, 0x38]),
      (.mfrHgLast, leBytes 1 (s.get .HG_PSTAT_LAST 0)), (.pmbPage .read, leBytes 1 (s.get .pmbPage)),
      (.pmbPhase .read, leBytes 1 (s.get .pmbPhase)), (.writeProtect .read, leBytes 1 (s.get .pmbWp))],
    (live → Leads (exec p.1 s) fun t => t.hostOut = p.2 ∧ t.get .hostAck = 0) ∧ (¬live → exec p.1 s = .next s)) ∧
  (∀ p ∈ [(Instr.operationOff .read, leBytes 1 (s.get .pmbOper r)), (.operationOn .read, leBytes 1 (s.get .pmbOper r)),
      (.operationMarginLow .read, leBytes 1 (s.get .pmbOper r)), (.operationMarginHigh .read, leBytes 1 (s.get .pmbOper r)),
      (.onOffConfig .read, leBytes 1 (s.get .pmbOnOff r)), (.voutCommand .read, leBytes 2 (s.get .pmbNom r)),
      (.voutMarginHigh .read, leBytes 2 (s.get .pmbHigh r)), (.voutMarginLow .read, leBytes 2 (s.get .pmbLow r)),
      (.voutTransitionRate .read, leBytes 2 (s.get .pmbRate r)), (.ioutOcFaultLimit .read, leBytes 2 (s.get .pmbLim r)),
      (.voutMax, leBytes 2 (voutMaxOf s r)), (.statusByte, (statusBytes s r).take 1), (.statusWord, (statusBytes s r).take 2),
      (.statusVout, [(statusBytes s r).getD 2 0]), (.statusIout, [(statusBytes s r).getD 3 0]),
      (.statusInput, [(statusBytes s r).getD 4 0]), (.statusTemperature, [(statusBytes s r).getD 5 0]),
      (.statusCml, [BitVec.ofInt 8 (s.get .pmbCml)]), (.statusMfrSpecific, [(statusBytes s r).getD 7 0]),
      (.readVin, leBytes 2 (linear11 (cacheVal s r 24 2) 100)), (.readVout, leBytes 2 (cacheVal s r 6 2)),
      (.readIout, leBytes 2 (ioutWord s r)), (.readTemperature1, leBytes 2 (linear11 (signed 16 (cacheVal s r 26 2)) 16)),
      (.readPout, leBytes 2 (linear11 (cacheVal s r 20 4) 1000))],
    (live → s.nat .pmbPage = r → r ≠ 0xFF → Leads (exec p.1 s) fun t => t.hostOut = p.2 ∧ t.get .hostAck = 0) ∧
    (live → s.nat .pmbPage = 0xFF → Leads (exec p.1 s) fun t => (∀ b ∈ t.hostOut, b = 0xFF) ∧ t.hostOut.length = p.2.length ∧
      bitAt (t.get .pmbCml) 6 = true) ∧ (¬live → exec p.1 s = .next s)) ∧
  (live → code ∈ [0x21#8, 0x24#8, 0x25#8, 0x26#8, 0x8B#8] → Leads (exec (.coefficients code) s) fun t =>
    t.hostOut = [0x40, 0x1F, 0, 0, 0] ∧ t.get .hostAck = 0) ∧
  (live → code ∉ [0x21#8, 0x24#8, 0x25#8, 0x26#8, 0x8B#8] → Leads (exec (.coefficients code) s) fun t =>
    t.hostOut = s.hostOut ∧ bitAt (t.get .pmbCml) 6 = true) ∧
  (live → pmbAlert s = true → Leads (exec .alertResponse s) fun t =>
    t.hostOut = [BitVec.ofInt 8 (2 * (0x40 + s.get .pmbAdr))] ∧ t.get .hostAck = 0) ∧
  (live → pmbAlert s = false → exec .alertResponse s = .next (s.put .hostAck 1)) ∧
  (live → Leads (exec .pmbusUnsupportedCommand s) fun t => t.get .hostAck = 1 ∧ bitAt (t.get .pmbCml) 7 = true)

/-- What PMBus writes.
R382 to R386: what PMBus writes: a port not in use, a full queue and a bad packet check come first; WRITE_PROTECT refuses what it
protects; PAGE, PHASE, WRITE_PROTECT, ON_OFF_CONFIG, the margins and CLEAR_FAULTS are held by the port; the others queue one message
of the port for the page, and what they read back is kept where WRITE_PROTECT lets the write through.
Completes: pmbPage, operationOff, operationOn, operationMarginLow, operationMarginHigh, onOffConfig, clearFaults, pmbPhase,
writeProtect, voutCommand, voutMarginHigh, voutMarginLow, voutTransitionRate, ioutOcFaultLimit, pmbCtrlChange.
Rests on the model's choices: a command that is not due leaves the state as it is (log entry 7). -/
def Obligations.PmbusWrites : Prop := ∀ (v : BitVec 16) (pec : Fin 3) (level : Bool) (s : State),
  let b := v.toNat % 256
  let live := s.get .HG_PCFG_EN 0 ≠ 0
  let sound := pec = 1 ∨ pec = 0 ∧ s.get .HG_PCFG_PECREQ 0 ≠ 1
  let msg (cmd margin typ : Nat) (l : List Byte) : HgMsg :=
    ⟨0, s.nat .hgTag 0, s.nat .HG_PSTAT_EPOCH 0, [⟨typ, s.nat .pmbPage, l⟩], cmd, margin, s.now⟩
  (∀ i ∈ [Instr.pmbPage (.write v pec), .operationOff (.write v pec), .operationOn (.write v pec),
      .operationMarginLow (.write v pec), .operationMarginHigh (.write v pec), .onOffConfig (.write v pec), .clearFaults pec,
      .pmbPhase (.write v pec), .writeProtect (.write v pec), .voutCommand (.write v pec), .voutMarginHigh (.write v pec),
      .voutMarginLow (.write v pec), .voutTransitionRate (.write v pec), .ioutOcFaultLimit (.write v pec)],
    (¬live → exec i s = .next s) ∧ (live → 8 ≤ (queuedAt s 0).length → exec i s = .next (s.put .hostAck 1)) ∧
    (live → (queuedAt s 0).length < 8 → ¬sound → Leads (exec i s) fun t => t.get .hostAck = 0 ∧
      bitAt (t.get .pmbCml) 5 = true ∧ t.hgQueue = s.hgQueue)) ∧
  (live → (queuedAt s 0).length < 8 → sound →
    (∀ p ∈ [(Instr.pmbPage (.write v pec), 0x00), (.onOffConfig (.write v pec), 0x02), (.clearFaults pec, 0x03),
        (.pmbPhase (.write v pec), 0x04), (.voutMarginHigh (.write v pec), 0x25), (.voutMarginLow (.write v pec), 0x26)],
      wpAllows s p.2 = false → Leads (exec p.1 s) fun t => bitAt (t.get .pmbCml) 7 = true ∧ t.get .HG_PSTAT_LAST 0 = 2 ∧
        ∀ f i j, f ≠ .pmbCml → f ≠ .HG_PSTAT_LAST → f ≠ .hostAck → t.get f i j = s.get f i j) ∧
    (wpAllows s 0x00 = true → b = 0xFF ∨ b < 16 ∧ railState s b ≠ stUNUSED → Leads (exec (.pmbPage (.write v pec)) s) fun t =>
      t.get .pmbPage = b) ∧
    (wpAllows s 0x00 = true → ¬(b = 0xFF ∨ b < 16 ∧ railState s b ≠ stUNUSED) →
      Leads (exec (.pmbPage (.write v pec)) s) fun t => bitAt (t.get .pmbCml) 6 = true ∧ t.get .pmbPage = s.get .pmbPage) ∧
    (b ∈ [0x80, 0x40, 0x20, 0x00] → Leads (exec (.writeProtect (.write v pec)) s) fun t => t.get .pmbWp = b) ∧
    (b ∉ [0x80, 0x40, 0x20, 0x00] → Leads (exec (.writeProtect (.write v pec)) s) fun t => bitAt (t.get .pmbCml) 6 = true ∧
      t.get .pmbWp = s.get .pmbWp) ∧
    (wpAllows s 0x02 = true → b ∈ [0x16, 0x17, 0x1A, 0x1B, 0x1E, 0x1F] → Leads (exec (.onOffConfig (.write v pec)) s) fun t =>
      ∀ r ∈ pageRails s, t.get .pmbOnOff r = b) ∧
    (wpAllows s 0x04 = true → Leads (exec (.pmbPhase (.write v pec)) s) fun t => t.get .pmbPhase = b) ∧
    (wpAllows s 0x25 = true → Leads (exec (.voutMarginHigh (.write v pec)) s) fun t =>
      ∀ r ∈ pageRails s, t.get .pmbHigh r = v.toNat) ∧
    (wpAllows s 0x26 = true → Leads (exec (.voutMarginLow (.write v pec)) s) fun t =>
      ∀ r ∈ pageRails s, t.get .pmbLow r = v.toNat) ∧
    (wpAllows s 0x03 = true → Leads (exec (.clearFaults pec) s) fun t => t.get .pmbCml = 0 ∧
      ∀ r ∈ pageRails s, (∀ w ∈ [0x11, 0x12, 0x13], t.get .HG_CACHE r w = 0) ∧ t.get .HG_CACHE r 0x10 =
        (if railOff s r then 0x40 else 0) + (if s.get .DM_RAILSTAT_PGOOD r = 0 then 0x800 else 0)) ∧
    (∀ i ∈ [Instr.operationOff (.write v pec), .operationOn (.write v pec), .operationMarginLow (.write v pec),
        .operationMarginHigh (.write v pec)],
      (∀ e ∈ [(0x00, 0, (0 : Byte)), (0x40, 0, 0), (0x80, 1, 1), (0x94, 2, 1), (0x98, 2, 1), (0xA4, 3, 1), (0xA8, 3, 1)],
        b = e.1 → Leads (exec i s) fun t => t.hgQueue = s.hgQueue ++ [msg 1 e.2.1 0x21 [e.2.2]] ∧
          ∀ r ∈ pageRails s, t.get .pmbOper r = if wpAllows s 0x01 then (b : Int) else s.get .pmbOper r) ∧
      (b ∉ [0x00, 0x40, 0x80, 0x94, 0x98, 0xA4, 0xA8] → Leads (exec i s) fun t => t.hgQueue = s.hgQueue ∧
        bitAt (t.get .pmbCml) 6 = true)) ∧
    (Leads (exec (.voutCommand (.write v pec)) s) fun t => t.hgQueue = s.hgQueue ++ [msg 0x21 0 0x20 (leBytes 2 v.toNat)] ∧
      ∀ r ∈ pageRails s, t.get .pmbNom r = if wpAllows s 0x21 then (v.toNat : Int) else s.get .pmbNom r) ∧
    (Leads (exec (.voutTransitionRate (.write v pec)) s) fun t =>
      let x := slewOf (fromLinear11 v.toNat).1 (fromLinear11 v.toNat).2
      t.hgQueue = s.hgQueue ++ [msg 0x27 0 0x23 (leBytes 2 x ++ leBytes 2 x)] ∧
      ∀ r ∈ pageRails s, t.get .pmbRate r = if wpAllows s 0x27 then (v.toNat : Int) else s.get .pmbRate r) ∧
    (Leads (exec (.ioutOcFaultLimit (.write v pec)) s) fun t =>
      let iq (r : Nat) := [0] ++ leBytes 4 (ampsToIq s r (fromLinear11 v.toNat).1 (fromLinear11 v.toNat).2)
      let rails := (List.range 16).filter fun r => s.bitOf .hgRails r 0 ∧ railState s r ≠ stUNUSED
      (s.nat .pmbPage < 16 → t.hgQueue = s.hgQueue ++ [msg 0x46 0 0x24 (iq (s.nat .pmbPage))]) ∧
      (s.nat .pmbPage = 0xFF → rails ≠ [] → t.hgQueue = s.hgQueue ++ [⟨0, s.nat .hgTag 0, s.nat .HG_PSTAT_EPOCH 0,
        rails.map fun r => ⟨0x24, r, iq r⟩, 0x46, 0, s.now⟩]) ∧
      ∀ r ∈ pageRails s, t.get .pmbLim r = if wpAllows s 0x46 then (v.toNat : Int) else s.get .pmbLim r)) ∧
  (s.get .pmbCtrl = (if level then 1 else 0) → exec (.pmbCtrlChange level) s = .next s) ∧
  ((s.get .pmbCtrl ≠ 0 ↔ level = false) → live → (queuedAt s 0).length < 8 → Leads (exec (.pmbCtrlChange level) s) fun t =>
    t.get .pmbCtrl = (if level then 1 else 0) ∧ t.hgQueue = s.hgQueue ++ [⟨0, s.nat .hgTag 0, s.nat .HG_PSTAT_EPOCH 0,
      [⟨0x21, 0xFF, [if level then 1 else 0]⟩], 1, if level then 5 else 4, s.now⟩])

/-- AVSBus writes, reads and StatusAlert.
R387: AVSBus: a write names the bound rails of its select code, is refused with 0b11 where none is bound or a value is out of range,
and is queued as one message or held for a commit; a read answers from the one rail that is bound; StatusAlert is cleared by writing
1; a bad CRC is counted and answered 0b10.
Completes: avsVoltageWrite, avsVoltageRead, avsVouttransrateWrite, avsVouttransrateRead, avsCurrent, avsTemperature,
avsResetvoltage, avsStatusRead, avsStatusWrite, avsVersion, avsCommit, avsCrcError, avsUnsupportedDataType.
Rests on the model's choices: the places of the status bits (log entry 60) and VDone (log entry 137). -/
def Obligations.AvsBus : Prop := ∀ (p : Fin 4) (sel : Fin 16) (hold one : Bool) (mv : BitVec 16) (rise fall : BitVec 8) (r : Nat)
    (s : State),
  let n := 1 + (p : Nat)
  let rails := avsRails s n sel
  let live := s.get .HG_PCFG_EN n ≠ 0
  let up := slewOf rise.toNat 1
  let dn := slewOf fall.toNat 1
  let writes : List (Instr × (Nat → Bool) × (Nat → HgPart)) :=
    [(.avsVoltageWrite p sel hold mv, (fun r => avsRange s r (8 * mv.toNat)), fun r => ⟨0x20, r, leBytes 2 (8 * mv.toNat)⟩),
     (.avsResetvoltage p sel hold, (fun r => avsRange s r (s.get .imgVset r)), fun r => ⟨0x20, r, leBytes 2 (s.get .imgVset r)⟩),
     (.avsVouttransrateWrite p sel hold rise fall,
       (fun r => slopesGood s r up dn),
       fun r => ⟨0x23, r, leBytes 2 up ++ leBytes 2 dn⟩)]
  let msg (parts : List HgPart) : HgMsg := ⟨n, s.nat .hgTag n, s.nat .HG_PSTAT_EPOCH n, parts, 0, 0, s.now⟩
  (∀ w ∈ writes, live →
    (rails = [] ∨ (∃ x ∈ rails, railExists s x = false ∨ w.2.1 x = false) → exec w.1 s = .next (s.put .hostAck 3)) ∧
    (rails ≠ [] → (∀ x ∈ rails, railExists s x = true ∧ w.2.1 x = true) →
      (hold = true → Leads (exec w.1 s) fun t => t.get .hostAck = 0 ∧ t.hgQueue = s.hgQueue ∧
        t.avsHeld = s.avsHeld ++ rails.map fun x => (n, w.2.2 x)) ∧
      (hold = false → (queuedAt s n).length < 4 → Leads (exec w.1 s) fun t => t.get .hostAck = 0 ∧
        t.hgQueue = s.hgQueue ++ [msg (rails.map w.2.2)]) ∧
      (hold = false → 4 ≤ (queuedAt s n).length → Leads (exec w.1 s) fun t => t.get .hostAck = 3 ∧ t.hgQueue = s.hgQueue ∧
        t.get .HG_QFULL n = min 0xFFFF (s.get .HG_QFULL n + 1)))) ∧
  (live → rails ≠ [] → (∀ x ∈ rails, railExists s x = true ∧ avsRange s x (8 * mv.toNat) = true) → (queuedAt s n).length < 4 →
    Leads (exec (.avsVoltageWrite p sel hold mv) s) fun t => ∀ x ∈ rails, t.get .vdPend x = 1 ∧ t.get .vdCode x = 8 * mv.toNat) ∧
  (∀ x ∈ [(Instr.avsVoltageRead p sel, roundDiv (cacheVal s r 6 2) 8),
      (.avsVouttransrateRead p sel, min 255 (s.get .LN_SLEWUP r * 5 / 256) + 256 * min 255 (s.get .LN_SLEWDN r * 5 / 256)),
      (.avsCurrent p sel, roundDiv (signed 32 (cacheVal s r 12 4)) 10),
      (.avsTemperature p sel, roundDiv (signed 16 (cacheVal s r 26 2) * 10) 16),
      (.avsStatusRead p sel, (if vDone s r then 1 else 0) + 2 * s.get .avsAlert n), (.avsVersion p sel, 0)],
    (live → (sel : Nat) < 4 → rails = [r] → exec x.1 s = .next ({ s with hostOut := leBytes 2 x.2 }.put .hostAck 0)) ∧
    (live → (sel : Nat) ≥ 4 ∨ rails = [] → exec x.1 s = .next (s.put .hostAck 3))) ∧
  (live → rails ≠ [] → Leads (exec (.avsStatusWrite p sel one) s) fun t => t.get .hostAck = 0 ∧
    t.get .avsAlert n = if one then 0 else s.get .avsAlert n) ∧
  (live → rails = [] → exec (.avsStatusWrite p sel one) s = .next (s.put .hostAck 3)) ∧
  (live → ((s.avsHeld.filter fun e => e.1 = n).map (·.2)) ≠ [] → (queuedAt s n).length < 4 → Leads (exec (.avsCommit p) s) fun t =>
    t.get .hostAck = 0 ∧ t.avsHeld = s.avsHeld.filter (fun e => e.1 ≠ n) ∧
    t.hgQueue = s.hgQueue ++ [msg ((s.avsHeld.filter fun e => e.1 = n).map (·.2))]) ∧
  (live → exec (.avsCrcError p) s = .next ((s.bump .HG_FRAMEERR 0xFFFF n).put .hostAck 2)) ∧
  (live → exec (.avsUnsupportedDataType p) s = .next (s.put .hostAck 3)) ∧
  (¬live → ∀ i ∈ [Instr.avsVoltageWrite p sel hold mv, .avsResetvoltage p sel hold, .avsVouttransrateWrite p sel hold rise fall,
    .avsVoltageRead p sel, .avsCurrent p sel, .avsStatusWrite p sel one, .avsCommit p, .avsCrcError p], exec i s = .next s)

/-- The messages of an image update.
R393, R396, R398, R407, R409: the messages of an update, as the firmware carries out the one it has taken: it erases the slot that
is not in force, programs the bytes in their order, has the slot verified, makes it the preferred one and raises the anti-rollback
counter; a message of another port or with a wrong payload has no effect but its status. On a flash that the device never writes
IMG_BEGIN and IMG_WRITE answer STATE: the model's choice (log entry 143).
Completes: imgBegin, imgWrite, imgVerify, imgActivate, imgAccept, imgStatus, restructure, attest, getIdentity, getChallenge,
keyProgram, keyRevoke, dbgLock, imageVerified.
Rests on the model's choices: the status of IMG_BEGIN and IMG_WRITE on a flash that is not written (log entry 143). a command that
is not due leaves the state as it is (log entry 7). -/
def Obligations.UpdateMessages : Prop := ∀ (m : HgMsg) (q : HgPart) (failed : List (Fin 128)) (base k : Nat) (s : State),
  s.hgTaken = some m → m.parts = [q] → unmanaged s = false →
  let served := s.get .IM_STATE_NOFW = 0 ∧ m.port = 5 ∧ bitAt (s.get .hgClass 5) 5 = true
  let d := q.payload.drop 4
  let o := leNat (q.payload.take 4)
  let now := slotInForce s k
  (∀ p ∈ [(Instr.imgBegin, 0x50, kindByte q.payload), (.imgWrite, 0x51, decide (5 ≤ q.payload.length ∧ q.payload.length ≤ 4092)),
      (.imgVerify, 0x52, q.payload.isEmpty), (.imgActivate, 0x53, kindByte q.payload), (.imgAccept failed, 0x54, kindByte q.payload),
      (.imgStatus, 0x55, q.payload.isEmpty), (.restructure, 0x56, q.payload.length == 2), (.attest, 0x57, q.payload.length == 48),
      (.getIdentity, 0x58, q.payload.isEmpty), (.getChallenge, 0x59, q.payload.isEmpty),
      (.keyProgram, 0x5A, signedLen s 48 q.payload), (.keyRevoke, 0x5B, q.payload.length == 96), (.dbgLock, 0x5C, signedLen s 0 q.payload)],
    (q.typ ≠ p.2.1 → exec p.1 s = .next s) ∧
    (q.typ = p.2.1 → p.2.2 = false → Leads (exec p.1 s) fun t => t.get .HG_XCTL_STATUS = 6 ∧ t.flash = s.flash ∧
      t.keyHashes = s.keyHashes) ∧
    (q.typ = p.2.1 → p.2.2 = true → s.get .IM_STATE_NOFW = 0 → m.port ≠ 5 → Leads (exec p.1 s) fun t =>
      t.get .HG_XCTL_STATUS = 1 ∧ t.flash = s.flash ∧ t.keyHashes = s.keyHashes)) ∧
  (served → dirInUse s = some base → s.get .flashBusy = 0 → 1 ≤ k → k ≤ 4 →
    (q.typ = 0x50 → q.payload = [BitVec.ofNat 8 k] → s.get .flashRo = 0 → Leads (exec .imgBegin s) fun t =>
      t.get .HG_XCTL_STATUS = 0 ∧ t.get .IM_UPD_OFS = 0 ∧ t.get .IM_UPD_KIND = k ∧ t.get .IM_UPD_SLOT = ((1 - now : Nat) : Int) ∧
      t.get .flashBusy = 1 ∧ let g := slotRegion s base k (1 - now)
        ∀ a, t.flashByte a = if g.1 ≤ a ∧ a < g.1 + g.2 then 0xFF else s.flashByte a) ∧
    (q.typ = 0x51 → 5 ≤ q.payload.length → q.payload.length ≤ 4092 → s.nat .IM_UPD_KIND = k → s.get .flashRo = 0 →
      let g := slotRegion s base k (s.nat .IM_UPD_SLOT)
      ((o : Int) = s.get .IM_UPD_OFS → o + d.length ≤ g.2 → Leads (exec .imgWrite s) fun t => t.get .HG_XCTL_STATUS = 0 ∧
        t.get .IM_UPD_OFS = ((o + d.length : Nat) : Int) ∧ t.get .flashBusy = 1 ∧
        (∀ i (h : i < d.length), t.flashByte (g.1 + o + i) = s.flashByte (g.1 + o + i) &&& d[i]) ∧
        ∀ a, a < g.1 + o ∨ g.1 + o + d.length ≤ a → t.flashByte a = s.flashByte a) ∧
      ((o : Int) ≠ s.get .IM_UPD_OFS ∨ g.2 < o + d.length → Leads (exec .imgWrite s) fun t => t.get .HG_XCTL_STATUS = 3 ∧
        t.flash = s.flash)) ∧
    (q.typ = 0x50 → q.payload = [BitVec.ofNat 8 k] → s.get .flashRo ≠ 0 → Leads (exec .imgBegin s) fun t =>
      t.get .HG_XCTL_STATUS = 7 ∧ t.flash = s.flash) ∧
    (q.typ = 0x51 → 5 ≤ q.payload.length → q.payload.length ≤ 4092 → s.get .flashRo ≠ 0 → Leads (exec .imgWrite s) fun t =>
      t.get .HG_XCTL_STATUS = 7 ∧ t.flash = s.flash) ∧
    (q.typ = 0x52 → q.payload = [] → s.nat .IM_UPD_KIND = k → s.get .verDue = 0 →
      exec .imgVerify s = .next (s.put .verDue k)) ∧
    (q.typ = 0x53 → q.payload = [BitVec.ofNat 8 k] → s.get .IM_TRIAL_RUN = 0 → s.get .verOk k ≠ 0 → s.nat .verSlot k ≠ now →
      s.nat .verSlot k ≤ 1 → Leads (exec .imgActivate s) fun t => t.get .verOk k = 0 ∧
        (k = 1 → t.get .PW_RSTCAUSE_MCCAUSE = 7) ∧ (k ≠ 1 → t.get .HG_XCTL_STATUS = 0) ∧
        (s.get .flashRo = 0 → preferred t (0x1000 - base) k = s.nat .verSlot k ∧
          ∀ a, base ≤ a → a < base + 0x1000 → t.flashByte a = s.flashByte a)) ∧
    (q.typ = 0x53 → q.payload = [BitVec.ofNat 8 k] → s.get .IM_TRIAL_RUN ≠ 0 ∨ s.get .verOk k = 0 ∨ s.nat .verSlot k = now →
      Leads (exec .imgActivate s) fun t => t.get .HG_XCTL_STATUS = 7 ∧ t.flash = s.flash)) ∧
  (served → 1 ≤ k → k ≤ 4 → q.typ = 0x54 → q.payload = [BitVec.ofNat 8 k] → k ≠ 1 ∨ trialDue s = false →
    Leads (exec (.imgAccept failed) s) fun t => t.get .HG_XCTL_STATUS = 0 ∧ (k = 1 → t.get .IM_TRIAL_RUN = 0) ∧
      s.get .OT_CNT_VAL (k - 1) ≤ t.get .OT_CNT_VAL (k - 1) ∧
      (s.get .imgVer k ≤ t.get .OT_CNT_VAL (k - 1) ∨ t.get .OT_CNT_EXH (k - 1) = 1)) ∧
  (served → q.typ = 0x55 → q.payload = [] → Leads (exec .imgStatus s) fun t => t.get .HG_XCTL_STATUS = 0 ∧
    (cbufBytes t).length = 20 ∧ (cbufBytes t).drop 16 = leBytes 4 (s.get .IM_UPD_OFS) ∧ ∀ i < 4,
      (cbufBytes t).getD (4 * i) 0 = BitVec.ofNat 8 (slotInForce s (i + 1)) ∧
      (cbufBytes t).getD (4 * i + 1) 0 = BitVec.ofInt 8 (s.get .imgVer (i + 1)) ∧
      (cbufBytes t).getD (4 * i + 2) 0 = BitVec.ofInt 8 (s.get .OT_CNT_VAL i)) ∧
  (s.nat .verDue = k → k ≠ 0 → dirInUse s = some base → Leads (exec .imageVerified s) fun t =>
    let c := verifyCode s (readImage s base k (s.nat .IM_UPD_SLOT)) k
    t.get .HG_XCTL_STATUS = 0 ∧ t.get .verDue = 0 ∧ t.get .IM_VRES_CODE = c ∧ t.get .IM_VRES_KIND = k ∧
    (t.get .verOk k = 1 ↔ c = 0)) ∧
  (s.get .verDue = 0 → exec .imageVerified s = .next s)

/-- Re-structuring a stopped rail, attestation, and the keys.
R195, R397, R405, R406, R409 to R411: re-structuring a stopped rail, the attestation report, the challenge and the keys.
Completes: restructure, imSldata, imRsdone, attest, getIdentity, getChallenge, keyProgram, keyRevoke, dbgLock, trialExpiry,
signingDone.
Rests on the model's choices: a command that is not due leaves the state as it is (log entry 7). -/
def Obligations.RestructureAndKeys : Prop := ∀ (m : HgMsg) (q : HgPart) (v mask : W16) (base : Nat) (s : State),
  s.hgTaken = some m → m.parts = [q] → unmanaged s = false →
  let served := s.get .IM_STATE_NOFW = 0 ∧ m.port = 5 ∧ bitAt (s.get .hgClass 5) 5 = true
  let sl := s.nat .verSlot 3
  (served → q.typ = 0x56 → q.payload.length = 2 → dirInUse s = some base → ∀ ro rn,
    imageRecs (readImage s base 3 (slotInForce s 3)).body = some ro → imageRecs (readImage s base 3 sl).body = some rn →
    let asked := leNat q.payload
    let fit := s.get .verOk 3 ≠ 0 ∧ sl ≠ slotInForce s 3 ∧ (∀ r < 16, asked.testBit r = true → railState s r = stRESTR) ∧
      restructureGood ro rn asked = true
    let u := s.each (structureChanges ro rn) fun s w => slWrite (s.put .IM_SLADDR w.1) w.1 w.2
    (¬fit → Leads (exec .restructure s) fun t => t.get .HG_XCTL_STATUS = 7 ∧ t.flash = s.flash) ∧
    (fit → s.get .flashBusy = 0 → rsCheck u = true → Leads (exec .restructure s) fun t => t.get .HG_XCTL_STATUS = 0 ∧
      t.get .verOk 3 = 0 ∧ t.bounds = imageBounds (imageFields rn) ∧
      ∀ r < 16, asked.testBit r = true → railState u r = stRESTR → t.get .rsDone r = if railDefined u r then 1 else 2) ∧
    (fit → s.get .flashBusy = 0 → rsCheck u = false → Leads (exec .restructure s) fun t => t.get .HG_XCTL_STATUS = 7 ∧
      t.get .IM_ERR_RSERR = 1)) ∧
  (slAllowed s (s.nat .IM_SLADDR) = false → exec (.imSldata v) s = .next (s.put .IM_ERR_SLERR 1)) ∧
  (slAllowed s (s.nat .IM_SLADDR) = true → ∀ reg i j w, findReg (s.nat .IM_SLADDR) = some (reg, i, j, w) →
    Leads (exec (.imSldata v) s) fun t => ∀ f ∈ reg.fields, f.img = true → inWord f w = true → f.fld ∉ derivedFields →
      let x := mergeWord f (s.get f.fld i j) w v.toNat
      t.get f.fld i j = if legal f.fld x then x else s.get f.fld i j) ∧
  (rsCheck s = true → Leads (exec (.imRsdone mask) s) fun t => ∀ r < 16, mask.toNat.testBit r = true → railState s r = stRESTR →
    t.get .rsDone r = if railDefined s r then 1 else 2) ∧
  (rsCheck s = false → exec (.imRsdone mask) s = .next (s.put .IM_ERR_RSERR 1)) ∧
  (served → q.typ = 0x57 → q.payload.length = 48 → s.get .attPend = 0 → Leads (exec .attest s) fun t => t.get .attPend = 1 ∧
    t.get .PH_STATUS_SUMBUSY = 1) ∧
  (s.get .attPend ≠ 0 → s.get .PH_STATUS_SUMBUSY = 0 → Leads (exec .signingDone s) fun t => t.get .HG_XCTL_STATUS = 0 ∧
    t.get .attPend = 0 ∧ let body := reportBody s q.payload (reportDigests s).1
      cbufBytes t = body ++ Config.ecdsaSign (Config.sha384 body) (s.nat .sigNo)) ∧
  (s.get .attPend = 0 ∨ s.get .PH_STATUS_SUMBUSY ≠ 0 → exec .signingDone s = .next s) ∧
  (served → q.typ = 0x58 → q.payload = [] → Leads (exec .getIdentity s) fun t => t.get .HG_XCTL_STATUS = 0 ∧
    (cbufBytes t).take Config.identityKey.length = Config.identityKey) ∧
  (served → q.typ = 0x59 → q.payload = [] → Leads (exec .getChallenge s) fun t => t.get .HG_XCTL_STATUS = 0 ∧
    cbufBytes t = t.challenge ∧ t.freeCtr = s.freeCtr + 1) ∧
  (served → q.typ = 0x5A → signedLen s 48 q.payload = true → ∀ n < 4, bitAt (s.get .OT_STATUS_KSPROG) n = false →
    (∀ i < n, bitAt (s.get .OT_STATUS_KSPROG) i = true) →
    (provisioning s = true ∨ signedBy s (activeSlot s) (leBytes 1 n ++ q.payload.take 48) (q.payload.drop 48) = true →
      Leads (exec .keyProgram s) fun t => t.get .HG_XCTL_STATUS = 0 ∧ bitAt (t.get .OT_STATUS_KSPROG) n = true ∧
        keyHash t n = q.payload.take 48 ∧ provisioning t = false) ∧
    (provisioning s = false → signedBy s (activeSlot s) (leBytes 1 n ++ q.payload.take 48) (q.payload.drop 48) = false →
      Leads (exec .keyProgram s) fun t => t.get .HG_XCTL_STATUS = 1 ∧ t.keyHashes = s.keyHashes ∧
        t.get .OT_STATUS_KSPROG = s.get .OT_STATUS_KSPROG)) ∧
  (served → q.typ = 0x5B → q.payload.length = 96 → ∀ n < 4, activeSlot s < n → bitAt (s.get .OT_STATUS_KSPROG) n = true →
    bitAt (s.get .OT_STATUS_KSREV) n = false →
    (∀ i, activeSlot s < i → i < n → ¬(bitAt (s.get .OT_STATUS_KSPROG) i = true ∧ bitAt (s.get .OT_STATUS_KSREV) i = false)) →
    (signedBy s n (leBytes 1 (activeSlot s)) q.payload = true → Leads (exec .keyRevoke s) fun t => t.get .HG_XCTL_STATUS = 0 ∧
      bitAt (t.get .OT_STATUS_KSREV) (activeSlot s) = true ∧ t.get .OT_STATUS_KSACT = n) ∧
    (signedBy s n (leBytes 1 (activeSlot s)) q.payload = false → Leads (exec .keyRevoke s) fun t => t.get .HG_XCTL_STATUS = 1 ∧
      t.get .OT_STATUS_KSREV = s.get .OT_STATUS_KSREV)) ∧
  (served → q.typ = 0x5C → signedLen s 0 q.payload = true →
    (provisioning s = true ∨ signedBy s (activeSlot s) [] q.payload = true → Leads (exec .dbgLock s) fun t =>
      t.get .HG_XCTL_STATUS = 0 ∧ t.get .OT_STATUS_DBGLOCK = 1) ∧
    (provisioning s = false → signedBy s (activeSlot s) [] q.payload = false → Leads (exec .dbgLock s) fun t =>
      t.get .HG_XCTL_STATUS = 1 ∧ t.get .OT_STATUS_DBGLOCK = s.get .OT_STATUS_DBGLOCK)) ∧
  (trialDue s = true → Leads (exec .trialExpiry s) fun t => t.get .IM_TRIAL_FAIL = 1 ∧ t.get .IM_TRIAL_RUN = 0 ∧
    t.get .PW_RSTCAUSE_MCCAUSE = 6 ∧ t.get .coreOn 5 = 0) ∧
  (trialDue s = false → exec .trialExpiry s = .next s)

/-- Every step from a state in canonical form answers a next state in canonical form.
Both register file and memories keep their one canonical form at every step from every state that has it, and no step stops. -/
def Obligations.StepsKeepTheCanonicalForm : Prop := ∀ s : State, s.Canonical → ∃ t, step s = .next t ∧ t.Canonical

/-- A run of any length never stops and takes the commands in the order of the queue.
Every command has an effect in every state: a run of any length never stops, takes the commands in the order of the queue, and lets
no command add to or take from the queue's rest. -/
def Obligations.RunsNeverStop : Prop := ∀ (n : Nat) (s : State), ∃ t, core.run n s = .next t ∧ t.pending = s.pending.drop n

/-- The frame of the commands that `touches` lists.
The frame of the 258 commands that `touches` lists: from every state the command answers a next state that differs from it in the
listed parts alone, and so in no other register, queue, memory or flag. -/
def Obligations.CommandFrames : Prop := ∀ (c : Instr) (l : List Part) (s : State),
  touches c = some l → ∃ t, exec c s = .next t ∧ s.SameBut (fun p => l.contains p) t
end

