-- ==== Sys2Proof/Laws/Store.lean ====
section
/-! SUPPORT. The laws of the two stores: a read after a write to the same place gives the value written, a write leaves every
other place alone, and every operation keeps the canonical form. -/
namespace Sys2Proof.Machine
set_option Elab.async false

/-! The order of keys. -/

theorem Fld.num_inj {a b : Fld} (h : a.num = b.num) : a = b := by
  have := congrArg Fld.ofNat h
  rwa [Fld.num, Fld.num, Fld.ofNat_ctorIdx, Fld.ofNat_ctorIdx] at this

theorem Key.lt_irrefl (a : Key) : a.lt a = false := by simp [Key.lt]

theorem Key.lt_trans {a b c : Key} (h1 : a.lt b = true) (h2 : b.lt c = true) : a.lt c = true := by
  simp only [Key.lt, Bool.or_eq_true, Bool.and_eq_true, decide_eq_true_eq] at *
  omega

theorem Key.lt_total (a b : Key) (h1 : a.lt b = false) (h2 : a ≠ b) : b.lt a = true := by
  have hne : ¬ (a.fld.num = b.fld.num ∧ a.i = b.i ∧ a.j = b.j) := by
    rintro ⟨h, hi, hj⟩
    apply h2
    cases a; cases b
    simp only at h hi hj
    rw [Fld.num_inj h, hi, hj]
  simp only [Key.lt, Bool.or_eq_true, Bool.and_eq_true, Bool.or_eq_false_iff, Bool.and_eq_false_iff, decide_eq_true_eq,
    decide_eq_false_iff_not] at *
  omega

/-! Reading what was written. -/

theorem regGet_remove (l : List RegEntry) (k k' : Key) :
    regGet (regRemove l k) k' = if k' = k then k.reset else regGet l k' := by
  induction l with
  | nil => simp only [regRemove, List.filter_nil, regGet]; split <;> simp_all
  | cons e t ih =>
    unfold regRemove at *
    by_cases he : e.1 = k
    · simp only [List.filter_cons, he, ne_eq, not_true_eq_false, decide_false, Bool.false_eq_true, if_false, ih, regGet]
      split
      · rfl
      · next h => rw [if_neg (fun h' => h h'.symm)]
    · simp only [List.filter_cons, he, ne_eq, not_false_eq_true, decide_true, if_true, regGet, ih]
      by_cases h : e.1 = k'
      · simp only [h, if_true]
        rw [if_neg (fun h' => he (h.trans h'))]
      · simp only [h, if_false]

theorem regGet_insert (l : List RegEntry) (k k' : Key) (v : Int) (h : ∀ e ∈ l, e.1 ≠ k) :
    regGet (regInsert l k v) k' = if k' = k then v else regGet l k' := by
  induction l with
  | nil =>
    simp only [regInsert, regGet]
    by_cases hk : k' = k
    · simp [hk]
    · rw [if_neg hk, if_neg (fun h' => hk h'.symm)]
  | cons e t ih =>
    have ht := ih (fun x hx => h x (List.mem_cons_of_mem e hx))
    unfold regInsert
    by_cases hk : k' = k
    · subst hk
      have he : e.1 ≠ k' := h e (List.mem_cons_self ..)
      split
      · simp [regGet]
      · simp only [regGet, if_neg he, ht, if_true]
    · have hk' : k ≠ k' := fun h' => hk h'.symm
      split
      · simp only [regGet, if_neg hk']
      · simp only [regGet, ht, if_neg hk]

theorem regRemove_ne (l : List RegEntry) (k : Key) : ∀ e ∈ regRemove l k, e.1 ≠ k := by
  intro e he
  simp only [regRemove, ne_eq, decide_not, List.mem_filter, Bool.not_eq_eq_eq_not, Bool.not_true, decide_eq_false_iff_not] at he
  exact he.2

/-- A read after a write. -/
theorem regGet_set (l : List RegEntry) (k k' : Key) (v : Int) :
    regGet (regSet l k v) k' = if k' = k then v else regGet l k' := by
  unfold regSet
  split
  · next h => rw [regGet_remove, h]
  · rw [regGet_insert _ _ _ _ (regRemove_ne l k), regGet_remove]
    split <;> rfl

/-- An entry that a filter keeps reads as before, one that it drops reads as its reset value. -/
theorem regGet_filter (l : List RegEntry) (p : Key → Bool) (k : Key) :
    regGet (l.filter fun e => p e.1) k = if p k then regGet l k else k.reset := by
  induction l with
  | nil => simp [regGet]
  | cons e t ih =>
    simp only [List.filter_cons]
    by_cases he : e.1 = k
    · subst he
      by_cases hp : p e.1 = true
      · simp [hp, regGet]
      · simp only [hp, Bool.false_eq_true, if_false, ih]
    · by_cases hp : p e.1 = true
      · simp only [hp, if_true, regGet, if_neg he, ih]
      · simp only [hp, Bool.false_eq_true, if_false, ih, regGet, if_neg he]

/-! The canonical form of the register file. -/

/-- Every key of the list comes after `k`. -/
def regAfter (k : Key) (l : List RegEntry) : Prop := ∀ e ∈ l, k.lt e.1 = true

theorem regSorted_cons {a : RegEntry} {l : List RegEntry} :
    regSorted (a :: l) = true ↔ regAfter a.1 l ∧ regSorted l = true := by
  induction l generalizing a with
  | nil => simp [regSorted, regAfter]
  | cons b t ih =>
    simp only [regSorted, Bool.and_eq_true]
    constructor
    · rintro ⟨h1, h2⟩
      refine ⟨?_, h2⟩
      intro e he
      rcases List.mem_cons.mp he with rfl | he
      · exact h1
      · exact Key.lt_trans h1 ((ih.mp h2).1 e he)
    · rintro ⟨h1, h2⟩
      exact ⟨h1 b (List.mem_cons_self ..), h2⟩

theorem regSorted_filter {l : List RegEntry} (p : RegEntry → Bool) (h : regSorted l = true) : regSorted (l.filter p) = true := by
  induction l with
  | nil => rfl
  | cons a t ih =>
    obtain ⟨h1, h2⟩ := regSorted_cons.mp h
    simp only [List.filter_cons]
    split
    · exact regSorted_cons.mpr ⟨fun e he => h1 e ((List.mem_filter.mp he).1), ih h2⟩
    · exact ih h2

theorem mem_regInsert {l : List RegEntry} {k : Key} {v : Int} {e : RegEntry} (h : e ∈ regInsert l k v) : e = (k, v) ∨ e ∈ l := by
  induction l with
  | nil => simpa [regInsert] using h
  | cons a t ih =>
    unfold regInsert at h
    split at h
    · simpa using h
    · rcases List.mem_cons.mp h with rfl | h
      · simp
      · rcases ih h with h | h
        · exact .inl h
        · exact .inr (List.mem_cons_of_mem _ h)

theorem regSorted_insert {l : List RegEntry} {k : Key} {v : Int} (h : regSorted l = true) (hk : ∀ e ∈ l, e.1 ≠ k) :
    regSorted (regInsert l k v) = true := by
  induction l with
  | nil => rfl
  | cons a t ih =>
    obtain ⟨h1, h2⟩ := regSorted_cons.mp h
    unfold regInsert
    split
    · next hlt =>
      refine regSorted_cons.mpr ⟨?_, h⟩
      intro e he
      rcases List.mem_cons.mp he with rfl | he
      · exact hlt
      · exact Key.lt_trans hlt (h1 e he)
    · next hlt =>
      refine regSorted_cons.mpr ⟨?_, ih h2 fun e he => hk e (List.mem_cons_of_mem _ he)⟩
      intro e he
      rcases mem_regInsert he with rfl | he
      · exact Key.lt_total _ _ (by simpa using hlt) (fun h' => hk a (List.mem_cons_self ..) h'.symm)
      · exact h1 e he

theorem regWf_filter {l : List RegEntry} (p : RegEntry → Bool) (h : regWf l = true) : regWf (l.filter p) = true := by
  simp only [regWf, Bool.and_eq_true, List.all_eq_true] at *
  exact ⟨regSorted_filter p h.1, fun e he => h.2 e ((List.mem_filter.mp he).1)⟩

/-- A write keeps the canonical form. -/
theorem regWf_set {l : List RegEntry} (k : Key) (v : Int) (h : regWf l = true) : regWf (regSet l k v) = true := by
  have h' : regWf (regRemove l k) = true := regWf_filter _ h
  unfold regSet
  split
  · exact h'
  · next hv =>
    simp only [regWf, Bool.and_eq_true, List.all_eq_true] at *
    refine ⟨regSorted_insert h'.1 (regRemove_ne l k), fun e he => ?_⟩
    rcases mem_regInsert he with rfl | he
    · simpa using hv
    · exact h'.2 e he

/-! The same of the memories. -/

theorem cellGet_remove (l : List Host.Cell) (a a' : Nat) :
    cellGet (cellRemove l a) a' = if a' = a then memDefault else cellGet l a' := by
  induction l with
  | nil => simp only [cellRemove, List.filter_nil, cellGet]; split <;> rfl
  | cons e t ih =>
    unfold cellRemove at *
    by_cases he : e.1 = a
    · simp only [List.filter_cons, he, ne_eq, not_true_eq_false, decide_false, Bool.false_eq_true, if_false, ih, cellGet]
      split
      · rfl
      · next h => rw [if_neg (fun h' => h h'.symm)]
    · simp only [List.filter_cons, he, ne_eq, not_false_eq_true, decide_true, if_true, cellGet, ih]
      by_cases h : e.1 = a'
      · simp only [h, if_true]
        rw [if_neg (fun h' => he (h.trans h'))]
      · simp only [h, if_false]

theorem cellGet_insert (l : List Host.Cell) (a a' : Nat) (b : BitVec 8) (h : ∀ e ∈ l, e.1 ≠ a) :
    cellGet (cellInsert l a b) a' = if a' = a then b else cellGet l a' := by
  induction l with
  | nil =>
    simp only [cellInsert, cellGet]
    by_cases hk : a' = a
    · simp [hk]
    · rw [if_neg hk, if_neg (fun h' => hk h'.symm)]
  | cons e t ih =>
    have ht := ih (fun x hx => h x (List.mem_cons_of_mem e hx))
    unfold cellInsert
    by_cases hk : a' = a
    · subst hk
      have he : e.1 ≠ a' := h e (List.mem_cons_self ..)
      split
      · simp [cellGet]
      · simp only [cellGet, if_neg he, ht, if_true]
    · have hk' : a ≠ a' := fun h' => hk h'.symm
      split
      · simp only [cellGet, if_neg hk']
      · simp only [cellGet, ht, if_neg hk]

theorem cellRemove_ne (l : List Host.Cell) (a : Nat) : ∀ e ∈ cellRemove l a, e.1 ≠ a := by
  intro e he
  simp only [cellRemove, ne_eq, decide_not, List.mem_filter, Bool.not_eq_eq_eq_not, Bool.not_true, decide_eq_false_iff_not] at he
  exact he.2

/-- A read after a write. -/
theorem cellGet_set (l : List Host.Cell) (a a' : Nat) (b : BitVec 8) :
    cellGet (cellSet l a b) a' = if a' = a then b else cellGet l a' := by
  unfold cellSet
  split
  · next h => rw [cellGet_remove, h]
  · rw [cellGet_insert _ _ _ _ (cellRemove_ne l a), cellGet_remove]
    split <;> rfl

/-- Every address of the list lies above `a`. -/
def cellAfter (a : Nat) (l : List Host.Cell) : Prop := ∀ e ∈ l, a < e.1

theorem cellSorted_cons {a : Host.Cell} {l : List Host.Cell} :
    cellSorted (a :: l) = true ↔ cellAfter a.1 l ∧ cellSorted l = true := by
  induction l generalizing a with
  | nil => simp [cellSorted, cellAfter]
  | cons b t ih =>
    simp only [cellSorted, Bool.and_eq_true, decide_eq_true_eq]
    constructor
    · rintro ⟨h1, h2⟩
      refine ⟨?_, h2⟩
      intro e he
      rcases List.mem_cons.mp he with rfl | he
      · exact h1
      · exact Nat.lt_trans h1 ((ih.mp h2).1 e he)
    · rintro ⟨h1, h2⟩
      exact ⟨h1 b (List.mem_cons_self ..), h2⟩

theorem cellSorted_filter {l : List Host.Cell} (p : Host.Cell → Bool) (h : cellSorted l = true) : cellSorted (l.filter p) = true := by
  induction l with
  | nil => rfl
  | cons a t ih =>
    obtain ⟨h1, h2⟩ := cellSorted_cons.mp h
    simp only [List.filter_cons]
    split
    · exact cellSorted_cons.mpr ⟨fun e he => h1 e ((List.mem_filter.mp he).1), ih h2⟩
    · exact ih h2

theorem mem_cellInsert {l : List Host.Cell} {a : Nat} {b : BitVec 8} {e : Host.Cell} (h : e ∈ cellInsert l a b) :
    e = (a, b) ∨ e ∈ l := by
  induction l with
  | nil => simpa [cellInsert] using h
  | cons c t ih =>
    unfold cellInsert at h
    split at h
    · simpa using h
    · rcases List.mem_cons.mp h with rfl | h
      · simp
      · rcases ih h with h | h
        · exact .inl h
        · exact .inr (List.mem_cons_of_mem _ h)

theorem cellSorted_insert {l : List Host.Cell} {a : Nat} {b : BitVec 8} (h : cellSorted l = true) (ha : ∀ e ∈ l, e.1 ≠ a) :
    cellSorted (cellInsert l a b) = true := by
  induction l with
  | nil => rfl
  | cons c t ih =>
    obtain ⟨h1, h2⟩ := cellSorted_cons.mp h
    unfold cellInsert
    split
    · next hlt =>
      refine cellSorted_cons.mpr ⟨?_, h⟩
      intro e he
      rcases List.mem_cons.mp he with rfl | he
      · exact hlt
      · exact Nat.lt_trans hlt (h1 e he)
    · next hlt =>
      refine cellSorted_cons.mpr ⟨?_, ih h2 fun e he => ha e (List.mem_cons_of_mem _ he)⟩
      intro e he
      rcases mem_cellInsert he with rfl | he
      · have := ha c (List.mem_cons_self ..)
        show c.1 < a
        omega
      · exact h1 e he

theorem memWf_filter {l : List Host.Cell} (p : Host.Cell → Bool) (h : Memory.wf l = true) : Memory.wf (l.filter p) = true := by
  simp only [Memory.wf, Bool.and_eq_true, List.all_eq_true] at *
  exact ⟨cellSorted_filter p h.1, fun e he => h.2 e ((List.mem_filter.mp he).1)⟩

/-- A write keeps the canonical form. -/
theorem memWf_set {l : List Host.Cell} (a : Nat) (b : BitVec 8) (h : Memory.wf l = true) : Memory.wf (cellSet l a b) = true := by
  have h' : Memory.wf (cellRemove l a) = true := memWf_filter _ h
  unfold cellSet
  split
  · exact h'
  · next hv =>
    simp only [Memory.wf, Bool.and_eq_true, List.all_eq_true] at *
    refine ⟨cellSorted_insert h'.1 (cellRemove_ne l a), fun e he => ?_⟩
    rcases mem_cellInsert he with rfl | he
    · simpa using hv
    · exact h'.2 e he

end Sys2Proof.Machine
end

