-- ==== Sys2Proof/Laws/State.lean ====
section
/-! SUPPORT. What each named operation leaves of each part of the state, and the reads of the register file after each of
them, so that no later proof unfolds a record update. -/
namespace Sys2Proof.Machine

/-! `put`. -/

@[simp] theorem State.put_pending (s : State) (f : Fld) (v : Int) (i j : Nat) : (s.put f v i j).pending = s.pending := rfl
@[simp] theorem State.put_mem (s : State) (f : Fld) (v : Int) (i j : Nat) : (s.put f v i j).mem = s.mem := rfl
@[simp] theorem State.put_writes (s : State) (f : Fld) (v : Int) (i j : Nat) : (s.put f v i j).writes = s.writes := rfl
@[simp] theorem State.put_arrivals (s : State) (f : Fld) (v : Int) (i j : Nat) : (s.put f v i j).arrivals = s.arrivals := rfl
@[simp] theorem State.put_bounds (s : State) (f : Fld) (v : Int) (i j : Nat) : (s.put f v i j).bounds = s.bounds := rfl
@[simp] theorem State.put_irqLines (s : State) (f : Fld) (v : Int) (i j : Nat) : (s.put f v i j).irqLines = s.irqLines := rfl
@[simp] theorem State.put_commits (s : State) (f : Fld) (v : Int) (i j : Nat) : (s.put f v i j).commits = s.commits := rfl
@[simp] theorem State.put_txFlits (s : State) (f : Fld) (v : Int) (i j : Nat) : (s.put f v i j).txFlits = s.txFlits := rfl
@[simp] theorem State.put_stores (s : State) (f : Fld) (v : Int) (i j : Nat) : (s.put f v i j).stores = s.stores := rfl
@[simp] theorem State.put_traps (s : State) (f : Fld) (v : Int) (i j : Nat) : (s.put f v i j).traps = s.traps := rfl
@[simp] theorem State.put_recQueue (s : State) (f : Fld) (v : Int) (i j : Nat) : (s.put f v i j).recQueue = s.recQueue := rfl
@[simp] theorem State.put_hgQueue (s : State) (f : Fld) (v : Int) (i j : Nat) : (s.put f v i j).hgQueue = s.hgQueue := rfl
@[simp] theorem State.put_hgTaken (s : State) (f : Fld) (v : Int) (i j : Nat) : (s.put f v i j).hgTaken = s.hgTaken := rfl
@[simp] theorem State.put_hgCpl (s : State) (f : Fld) (v : Int) (i j : Nat) : (s.put f v i j).hgCpl = s.hgCpl := rfl
@[simp] theorem State.put_avsHeld (s : State) (f : Fld) (v : Int) (i j : Nat) : (s.put f v i j).avsHeld = s.avsHeld := rfl
@[simp] theorem State.put_hostOut (s : State) (f : Fld) (v : Int) (i j : Nat) : (s.put f v i j).hostOut = s.hostOut := rfl
@[simp] theorem State.put_flash (s : State) (f : Fld) (v : Int) (i j : Nat) : (s.put f v i j).flash = s.flash := rfl
@[simp] theorem State.put_digests (s : State) (f : Fld) (v : Int) (i j : Nat) : (s.put f v i j).digests = s.digests := rfl
@[simp] theorem State.put_challenge (s : State) (f : Fld) (v : Int) (i j : Nat) : (s.put f v i j).challenge = s.challenge := rfl
@[simp] theorem State.put_keyHashes (s : State) (f : Fld) (v : Int) (i j : Nat) : (s.put f v i j).keyHashes = s.keyHashes := rfl
@[simp] theorem State.put_logQueue (s : State) (f : Fld) (v : Int) (i j : Nat) : (s.put f v i j).logQueue = s.logQueue := rfl
@[simp] theorem State.put_soft (s : State) (f : Fld) (v : Int) (i j : Nat) : (s.put f v i j).soft = s.soft := rfl
@[simp] theorem State.put_softUc (s : State) (f : Fld) (v : Int) (i j : Nat) : (s.put f v i j).softUc = s.softUc := rfl
@[simp] theorem State.put_ceTrack (s : State) (f : Fld) (v : Int) (i j : Nat) : (s.put f v i j).ceTrack = s.ceTrack := rfl
@[simp] theorem State.put_drRoom (s : State) (f : Fld) (v : Int) (i j : Nat) : (s.put f v i j).drRoom = s.drRoom := rfl
@[simp] theorem State.put_freeCtr (s : State) (f : Fld) (v : Int) (i j : Nat) : (s.put f v i j).freeCtr = s.freeCtr := rfl

/-! `raise`. -/

@[simp] theorem State.raise_pending (s : State) (f : Fld) (i j : Nat) : (s.raise f i j).pending = s.pending := rfl
@[simp] theorem State.raise_mem (s : State) (f : Fld) (i j : Nat) : (s.raise f i j).mem = s.mem := rfl
@[simp] theorem State.raise_writes (s : State) (f : Fld) (i j : Nat) : (s.raise f i j).writes = s.writes := rfl
@[simp] theorem State.raise_arrivals (s : State) (f : Fld) (i j : Nat) : (s.raise f i j).arrivals = s.arrivals := rfl
@[simp] theorem State.raise_bounds (s : State) (f : Fld) (i j : Nat) : (s.raise f i j).bounds = s.bounds := rfl
@[simp] theorem State.raise_irqLines (s : State) (f : Fld) (i j : Nat) : (s.raise f i j).irqLines = s.irqLines := rfl
@[simp] theorem State.raise_commits (s : State) (f : Fld) (i j : Nat) : (s.raise f i j).commits = s.commits := rfl
@[simp] theorem State.raise_txFlits (s : State) (f : Fld) (i j : Nat) : (s.raise f i j).txFlits = s.txFlits := rfl
@[simp] theorem State.raise_stores (s : State) (f : Fld) (i j : Nat) : (s.raise f i j).stores = s.stores := rfl
@[simp] theorem State.raise_traps (s : State) (f : Fld) (i j : Nat) : (s.raise f i j).traps = s.traps := rfl
@[simp] theorem State.raise_recQueue (s : State) (f : Fld) (i j : Nat) : (s.raise f i j).recQueue = s.recQueue := rfl
@[simp] theorem State.raise_hgQueue (s : State) (f : Fld) (i j : Nat) : (s.raise f i j).hgQueue = s.hgQueue := rfl
@[simp] theorem State.raise_hgTaken (s : State) (f : Fld) (i j : Nat) : (s.raise f i j).hgTaken = s.hgTaken := rfl
@[simp] theorem State.raise_hgCpl (s : State) (f : Fld) (i j : Nat) : (s.raise f i j).hgCpl = s.hgCpl := rfl
@[simp] theorem State.raise_avsHeld (s : State) (f : Fld) (i j : Nat) : (s.raise f i j).avsHeld = s.avsHeld := rfl
@[simp] theorem State.raise_hostOut (s : State) (f : Fld) (i j : Nat) : (s.raise f i j).hostOut = s.hostOut := rfl
@[simp] theorem State.raise_flash (s : State) (f : Fld) (i j : Nat) : (s.raise f i j).flash = s.flash := rfl
@[simp] theorem State.raise_digests (s : State) (f : Fld) (i j : Nat) : (s.raise f i j).digests = s.digests := rfl
@[simp] theorem State.raise_challenge (s : State) (f : Fld) (i j : Nat) : (s.raise f i j).challenge = s.challenge := rfl
@[simp] theorem State.raise_keyHashes (s : State) (f : Fld) (i j : Nat) : (s.raise f i j).keyHashes = s.keyHashes := rfl
@[simp] theorem State.raise_logQueue (s : State) (f : Fld) (i j : Nat) : (s.raise f i j).logQueue = s.logQueue := rfl
@[simp] theorem State.raise_soft (s : State) (f : Fld) (i j : Nat) : (s.raise f i j).soft = s.soft := rfl
@[simp] theorem State.raise_softUc (s : State) (f : Fld) (i j : Nat) : (s.raise f i j).softUc = s.softUc := rfl
@[simp] theorem State.raise_ceTrack (s : State) (f : Fld) (i j : Nat) : (s.raise f i j).ceTrack = s.ceTrack := rfl
@[simp] theorem State.raise_drRoom (s : State) (f : Fld) (i j : Nat) : (s.raise f i j).drRoom = s.drRoom := rfl
@[simp] theorem State.raise_freeCtr (s : State) (f : Fld) (i j : Nat) : (s.raise f i j).freeCtr = s.freeCtr := rfl

/-! `clear`. -/

@[simp] theorem State.clear_pending (s : State) (f : Fld) (i j : Nat) : (s.clear f i j).pending = s.pending := rfl
@[simp] theorem State.clear_mem (s : State) (f : Fld) (i j : Nat) : (s.clear f i j).mem = s.mem := rfl
@[simp] theorem State.clear_writes (s : State) (f : Fld) (i j : Nat) : (s.clear f i j).writes = s.writes := rfl
@[simp] theorem State.clear_arrivals (s : State) (f : Fld) (i j : Nat) : (s.clear f i j).arrivals = s.arrivals := rfl
@[simp] theorem State.clear_bounds (s : State) (f : Fld) (i j : Nat) : (s.clear f i j).bounds = s.bounds := rfl
@[simp] theorem State.clear_irqLines (s : State) (f : Fld) (i j : Nat) : (s.clear f i j).irqLines = s.irqLines := rfl
@[simp] theorem State.clear_commits (s : State) (f : Fld) (i j : Nat) : (s.clear f i j).commits = s.commits := rfl
@[simp] theorem State.clear_txFlits (s : State) (f : Fld) (i j : Nat) : (s.clear f i j).txFlits = s.txFlits := rfl
@[simp] theorem State.clear_stores (s : State) (f : Fld) (i j : Nat) : (s.clear f i j).stores = s.stores := rfl
@[simp] theorem State.clear_traps (s : State) (f : Fld) (i j : Nat) : (s.clear f i j).traps = s.traps := rfl
@[simp] theorem State.clear_recQueue (s : State) (f : Fld) (i j : Nat) : (s.clear f i j).recQueue = s.recQueue := rfl
@[simp] theorem State.clear_hgQueue (s : State) (f : Fld) (i j : Nat) : (s.clear f i j).hgQueue = s.hgQueue := rfl
@[simp] theorem State.clear_hgTaken (s : State) (f : Fld) (i j : Nat) : (s.clear f i j).hgTaken = s.hgTaken := rfl
@[simp] theorem State.clear_hgCpl (s : State) (f : Fld) (i j : Nat) : (s.clear f i j).hgCpl = s.hgCpl := rfl
@[simp] theorem State.clear_avsHeld (s : State) (f : Fld) (i j : Nat) : (s.clear f i j).avsHeld = s.avsHeld := rfl
@[simp] theorem State.clear_hostOut (s : State) (f : Fld) (i j : Nat) : (s.clear f i j).hostOut = s.hostOut := rfl
@[simp] theorem State.clear_flash (s : State) (f : Fld) (i j : Nat) : (s.clear f i j).flash = s.flash := rfl
@[simp] theorem State.clear_digests (s : State) (f : Fld) (i j : Nat) : (s.clear f i j).digests = s.digests := rfl
@[simp] theorem State.clear_challenge (s : State) (f : Fld) (i j : Nat) : (s.clear f i j).challenge = s.challenge := rfl
@[simp] theorem State.clear_keyHashes (s : State) (f : Fld) (i j : Nat) : (s.clear f i j).keyHashes = s.keyHashes := rfl
@[simp] theorem State.clear_logQueue (s : State) (f : Fld) (i j : Nat) : (s.clear f i j).logQueue = s.logQueue := rfl
@[simp] theorem State.clear_soft (s : State) (f : Fld) (i j : Nat) : (s.clear f i j).soft = s.soft := rfl
@[simp] theorem State.clear_softUc (s : State) (f : Fld) (i j : Nat) : (s.clear f i j).softUc = s.softUc := rfl
@[simp] theorem State.clear_ceTrack (s : State) (f : Fld) (i j : Nat) : (s.clear f i j).ceTrack = s.ceTrack := rfl
@[simp] theorem State.clear_drRoom (s : State) (f : Fld) (i j : Nat) : (s.clear f i j).drRoom = s.drRoom := rfl
@[simp] theorem State.clear_freeCtr (s : State) (f : Fld) (i j : Nat) : (s.clear f i j).freeCtr = s.freeCtr := rfl

/-! `setBits`. -/

@[simp] theorem State.setBits_pending (s : State) (f : Fld) (m : Int) (i j : Nat) : (s.setBits f m i j).pending = s.pending := rfl
@[simp] theorem State.setBits_mem (s : State) (f : Fld) (m : Int) (i j : Nat) : (s.setBits f m i j).mem = s.mem := rfl
@[simp] theorem State.setBits_writes (s : State) (f : Fld) (m : Int) (i j : Nat) : (s.setBits f m i j).writes = s.writes := rfl
@[simp] theorem State.setBits_arrivals (s : State) (f : Fld) (m : Int) (i j : Nat) : (s.setBits f m i j).arrivals = s.arrivals := rfl
@[simp] theorem State.setBits_bounds (s : State) (f : Fld) (m : Int) (i j : Nat) : (s.setBits f m i j).bounds = s.bounds := rfl
@[simp] theorem State.setBits_irqLines (s : State) (f : Fld) (m : Int) (i j : Nat) : (s.setBits f m i j).irqLines = s.irqLines := rfl
@[simp] theorem State.setBits_commits (s : State) (f : Fld) (m : Int) (i j : Nat) : (s.setBits f m i j).commits = s.commits := rfl
@[simp] theorem State.setBits_txFlits (s : State) (f : Fld) (m : Int) (i j : Nat) : (s.setBits f m i j).txFlits = s.txFlits := rfl
@[simp] theorem State.setBits_stores (s : State) (f : Fld) (m : Int) (i j : Nat) : (s.setBits f m i j).stores = s.stores := rfl
@[simp] theorem State.setBits_traps (s : State) (f : Fld) (m : Int) (i j : Nat) : (s.setBits f m i j).traps = s.traps := rfl
@[simp] theorem State.setBits_recQueue (s : State) (f : Fld) (m : Int) (i j : Nat) : (s.setBits f m i j).recQueue = s.recQueue := rfl
@[simp] theorem State.setBits_hgQueue (s : State) (f : Fld) (m : Int) (i j : Nat) : (s.setBits f m i j).hgQueue = s.hgQueue := rfl
@[simp] theorem State.setBits_hgTaken (s : State) (f : Fld) (m : Int) (i j : Nat) : (s.setBits f m i j).hgTaken = s.hgTaken := rfl
@[simp] theorem State.setBits_hgCpl (s : State) (f : Fld) (m : Int) (i j : Nat) : (s.setBits f m i j).hgCpl = s.hgCpl := rfl
@[simp] theorem State.setBits_avsHeld (s : State) (f : Fld) (m : Int) (i j : Nat) : (s.setBits f m i j).avsHeld = s.avsHeld := rfl
@[simp] theorem State.setBits_hostOut (s : State) (f : Fld) (m : Int) (i j : Nat) : (s.setBits f m i j).hostOut = s.hostOut := rfl
@[simp] theorem State.setBits_flash (s : State) (f : Fld) (m : Int) (i j : Nat) : (s.setBits f m i j).flash = s.flash := rfl
@[simp] theorem State.setBits_digests (s : State) (f : Fld) (m : Int) (i j : Nat) : (s.setBits f m i j).digests = s.digests := rfl
@[simp] theorem State.setBits_challenge (s : State) (f : Fld) (m : Int) (i j : Nat) : (s.setBits f m i j).challenge = s.challenge := rfl
@[simp] theorem State.setBits_keyHashes (s : State) (f : Fld) (m : Int) (i j : Nat) : (s.setBits f m i j).keyHashes = s.keyHashes := rfl
@[simp] theorem State.setBits_logQueue (s : State) (f : Fld) (m : Int) (i j : Nat) : (s.setBits f m i j).logQueue = s.logQueue := rfl
@[simp] theorem State.setBits_soft (s : State) (f : Fld) (m : Int) (i j : Nat) : (s.setBits f m i j).soft = s.soft := rfl
@[simp] theorem State.setBits_softUc (s : State) (f : Fld) (m : Int) (i j : Nat) : (s.setBits f m i j).softUc = s.softUc := rfl
@[simp] theorem State.setBits_ceTrack (s : State) (f : Fld) (m : Int) (i j : Nat) : (s.setBits f m i j).ceTrack = s.ceTrack := rfl
@[simp] theorem State.setBits_drRoom (s : State) (f : Fld) (m : Int) (i j : Nat) : (s.setBits f m i j).drRoom = s.drRoom := rfl
@[simp] theorem State.setBits_freeCtr (s : State) (f : Fld) (m : Int) (i j : Nat) : (s.setBits f m i j).freeCtr = s.freeCtr := rfl

/-! `clrBits`. -/

@[simp] theorem State.clrBits_pending (s : State) (f : Fld) (m : Int) (i j : Nat) : (s.clrBits f m i j).pending = s.pending := rfl
@[simp] theorem State.clrBits_mem (s : State) (f : Fld) (m : Int) (i j : Nat) : (s.clrBits f m i j).mem = s.mem := rfl
@[simp] theorem State.clrBits_writes (s : State) (f : Fld) (m : Int) (i j : Nat) : (s.clrBits f m i j).writes = s.writes := rfl
@[simp] theorem State.clrBits_arrivals (s : State) (f : Fld) (m : Int) (i j : Nat) : (s.clrBits f m i j).arrivals = s.arrivals := rfl
@[simp] theorem State.clrBits_bounds (s : State) (f : Fld) (m : Int) (i j : Nat) : (s.clrBits f m i j).bounds = s.bounds := rfl
@[simp] theorem State.clrBits_irqLines (s : State) (f : Fld) (m : Int) (i j : Nat) : (s.clrBits f m i j).irqLines = s.irqLines := rfl
@[simp] theorem State.clrBits_commits (s : State) (f : Fld) (m : Int) (i j : Nat) : (s.clrBits f m i j).commits = s.commits := rfl
@[simp] theorem State.clrBits_txFlits (s : State) (f : Fld) (m : Int) (i j : Nat) : (s.clrBits f m i j).txFlits = s.txFlits := rfl
@[simp] theorem State.clrBits_stores (s : State) (f : Fld) (m : Int) (i j : Nat) : (s.clrBits f m i j).stores = s.stores := rfl
@[simp] theorem State.clrBits_traps (s : State) (f : Fld) (m : Int) (i j : Nat) : (s.clrBits f m i j).traps = s.traps := rfl
@[simp] theorem State.clrBits_recQueue (s : State) (f : Fld) (m : Int) (i j : Nat) : (s.clrBits f m i j).recQueue = s.recQueue := rfl
@[simp] theorem State.clrBits_hgQueue (s : State) (f : Fld) (m : Int) (i j : Nat) : (s.clrBits f m i j).hgQueue = s.hgQueue := rfl
@[simp] theorem State.clrBits_hgTaken (s : State) (f : Fld) (m : Int) (i j : Nat) : (s.clrBits f m i j).hgTaken = s.hgTaken := rfl
@[simp] theorem State.clrBits_hgCpl (s : State) (f : Fld) (m : Int) (i j : Nat) : (s.clrBits f m i j).hgCpl = s.hgCpl := rfl
@[simp] theorem State.clrBits_avsHeld (s : State) (f : Fld) (m : Int) (i j : Nat) : (s.clrBits f m i j).avsHeld = s.avsHeld := rfl
@[simp] theorem State.clrBits_hostOut (s : State) (f : Fld) (m : Int) (i j : Nat) : (s.clrBits f m i j).hostOut = s.hostOut := rfl
@[simp] theorem State.clrBits_flash (s : State) (f : Fld) (m : Int) (i j : Nat) : (s.clrBits f m i j).flash = s.flash := rfl
@[simp] theorem State.clrBits_digests (s : State) (f : Fld) (m : Int) (i j : Nat) : (s.clrBits f m i j).digests = s.digests := rfl
@[simp] theorem State.clrBits_challenge (s : State) (f : Fld) (m : Int) (i j : Nat) : (s.clrBits f m i j).challenge = s.challenge := rfl
@[simp] theorem State.clrBits_keyHashes (s : State) (f : Fld) (m : Int) (i j : Nat) : (s.clrBits f m i j).keyHashes = s.keyHashes := rfl
@[simp] theorem State.clrBits_logQueue (s : State) (f : Fld) (m : Int) (i j : Nat) : (s.clrBits f m i j).logQueue = s.logQueue := rfl
@[simp] theorem State.clrBits_soft (s : State) (f : Fld) (m : Int) (i j : Nat) : (s.clrBits f m i j).soft = s.soft := rfl
@[simp] theorem State.clrBits_softUc (s : State) (f : Fld) (m : Int) (i j : Nat) : (s.clrBits f m i j).softUc = s.softUc := rfl
@[simp] theorem State.clrBits_ceTrack (s : State) (f : Fld) (m : Int) (i j : Nat) : (s.clrBits f m i j).ceTrack = s.ceTrack := rfl
@[simp] theorem State.clrBits_drRoom (s : State) (f : Fld) (m : Int) (i j : Nat) : (s.clrBits f m i j).drRoom = s.drRoom := rfl
@[simp] theorem State.clrBits_freeCtr (s : State) (f : Fld) (m : Int) (i j : Nat) : (s.clrBits f m i j).freeCtr = s.freeCtr := rfl

/-! `bump`. -/

@[simp] theorem State.bump_pending (s : State) (f : Fld) (top : Int) (i j : Nat) (n : Int) : (s.bump f top i j n).pending = s.pending := rfl
@[simp] theorem State.bump_mem (s : State) (f : Fld) (top : Int) (i j : Nat) (n : Int) : (s.bump f top i j n).mem = s.mem := rfl
@[simp] theorem State.bump_writes (s : State) (f : Fld) (top : Int) (i j : Nat) (n : Int) : (s.bump f top i j n).writes = s.writes := rfl
@[simp] theorem State.bump_arrivals (s : State) (f : Fld) (top : Int) (i j : Nat) (n : Int) : (s.bump f top i j n).arrivals = s.arrivals := rfl
@[simp] theorem State.bump_bounds (s : State) (f : Fld) (top : Int) (i j : Nat) (n : Int) : (s.bump f top i j n).bounds = s.bounds := rfl
@[simp] theorem State.bump_irqLines (s : State) (f : Fld) (top : Int) (i j : Nat) (n : Int) : (s.bump f top i j n).irqLines = s.irqLines := rfl
@[simp] theorem State.bump_commits (s : State) (f : Fld) (top : Int) (i j : Nat) (n : Int) : (s.bump f top i j n).commits = s.commits := rfl
@[simp] theorem State.bump_txFlits (s : State) (f : Fld) (top : Int) (i j : Nat) (n : Int) : (s.bump f top i j n).txFlits = s.txFlits := rfl
@[simp] theorem State.bump_stores (s : State) (f : Fld) (top : Int) (i j : Nat) (n : Int) : (s.bump f top i j n).stores = s.stores := rfl
@[simp] theorem State.bump_traps (s : State) (f : Fld) (top : Int) (i j : Nat) (n : Int) : (s.bump f top i j n).traps = s.traps := rfl
@[simp] theorem State.bump_recQueue (s : State) (f : Fld) (top : Int) (i j : Nat) (n : Int) : (s.bump f top i j n).recQueue = s.recQueue := rfl
@[simp] theorem State.bump_hgQueue (s : State) (f : Fld) (top : Int) (i j : Nat) (n : Int) : (s.bump f top i j n).hgQueue = s.hgQueue := rfl
@[simp] theorem State.bump_hgTaken (s : State) (f : Fld) (top : Int) (i j : Nat) (n : Int) : (s.bump f top i j n).hgTaken = s.hgTaken := rfl
@[simp] theorem State.bump_hgCpl (s : State) (f : Fld) (top : Int) (i j : Nat) (n : Int) : (s.bump f top i j n).hgCpl = s.hgCpl := rfl
@[simp] theorem State.bump_avsHeld (s : State) (f : Fld) (top : Int) (i j : Nat) (n : Int) : (s.bump f top i j n).avsHeld = s.avsHeld := rfl
@[simp] theorem State.bump_hostOut (s : State) (f : Fld) (top : Int) (i j : Nat) (n : Int) : (s.bump f top i j n).hostOut = s.hostOut := rfl
@[simp] theorem State.bump_flash (s : State) (f : Fld) (top : Int) (i j : Nat) (n : Int) : (s.bump f top i j n).flash = s.flash := rfl
@[simp] theorem State.bump_digests (s : State) (f : Fld) (top : Int) (i j : Nat) (n : Int) : (s.bump f top i j n).digests = s.digests := rfl
@[simp] theorem State.bump_challenge (s : State) (f : Fld) (top : Int) (i j : Nat) (n : Int) : (s.bump f top i j n).challenge = s.challenge := rfl
@[simp] theorem State.bump_keyHashes (s : State) (f : Fld) (top : Int) (i j : Nat) (n : Int) : (s.bump f top i j n).keyHashes = s.keyHashes := rfl
@[simp] theorem State.bump_logQueue (s : State) (f : Fld) (top : Int) (i j : Nat) (n : Int) : (s.bump f top i j n).logQueue = s.logQueue := rfl
@[simp] theorem State.bump_soft (s : State) (f : Fld) (top : Int) (i j : Nat) (n : Int) : (s.bump f top i j n).soft = s.soft := rfl
@[simp] theorem State.bump_softUc (s : State) (f : Fld) (top : Int) (i j : Nat) (n : Int) : (s.bump f top i j n).softUc = s.softUc := rfl
@[simp] theorem State.bump_ceTrack (s : State) (f : Fld) (top : Int) (i j : Nat) (n : Int) : (s.bump f top i j n).ceTrack = s.ceTrack := rfl
@[simp] theorem State.bump_drRoom (s : State) (f : Fld) (top : Int) (i j : Nat) (n : Int) : (s.bump f top i j n).drRoom = s.drRoom := rfl
@[simp] theorem State.bump_freeCtr (s : State) (f : Fld) (top : Int) (i j : Nat) (n : Int) : (s.bump f top i j n).freeCtr = s.freeCtr := rfl

/-! `setByte`. -/

@[simp] theorem State.setByte_pending (s : State) (a : Nat) (b : BitVec 8) : (s.setByte a b).pending = s.pending := rfl
@[simp] theorem State.setByte_rf (s : State) (a : Nat) (b : BitVec 8) : (s.setByte a b).rf = s.rf := rfl
@[simp] theorem State.setByte_writes (s : State) (a : Nat) (b : BitVec 8) : (s.setByte a b).writes = s.writes := rfl
@[simp] theorem State.setByte_arrivals (s : State) (a : Nat) (b : BitVec 8) : (s.setByte a b).arrivals = s.arrivals := rfl
@[simp] theorem State.setByte_bounds (s : State) (a : Nat) (b : BitVec 8) : (s.setByte a b).bounds = s.bounds := rfl
@[simp] theorem State.setByte_irqLines (s : State) (a : Nat) (b : BitVec 8) : (s.setByte a b).irqLines = s.irqLines := rfl
@[simp] theorem State.setByte_commits (s : State) (a : Nat) (b : BitVec 8) : (s.setByte a b).commits = s.commits := rfl
@[simp] theorem State.setByte_txFlits (s : State) (a : Nat) (b : BitVec 8) : (s.setByte a b).txFlits = s.txFlits := rfl
@[simp] theorem State.setByte_stores (s : State) (a : Nat) (b : BitVec 8) : (s.setByte a b).stores = s.stores := rfl
@[simp] theorem State.setByte_traps (s : State) (a : Nat) (b : BitVec 8) : (s.setByte a b).traps = s.traps := rfl
@[simp] theorem State.setByte_recQueue (s : State) (a : Nat) (b : BitVec 8) : (s.setByte a b).recQueue = s.recQueue := rfl
@[simp] theorem State.setByte_hgQueue (s : State) (a : Nat) (b : BitVec 8) : (s.setByte a b).hgQueue = s.hgQueue := rfl
@[simp] theorem State.setByte_hgTaken (s : State) (a : Nat) (b : BitVec 8) : (s.setByte a b).hgTaken = s.hgTaken := rfl
@[simp] theorem State.setByte_hgCpl (s : State) (a : Nat) (b : BitVec 8) : (s.setByte a b).hgCpl = s.hgCpl := rfl
@[simp] theorem State.setByte_avsHeld (s : State) (a : Nat) (b : BitVec 8) : (s.setByte a b).avsHeld = s.avsHeld := rfl
@[simp] theorem State.setByte_hostOut (s : State) (a : Nat) (b : BitVec 8) : (s.setByte a b).hostOut = s.hostOut := rfl
@[simp] theorem State.setByte_flash (s : State) (a : Nat) (b : BitVec 8) : (s.setByte a b).flash = s.flash := rfl
@[simp] theorem State.setByte_digests (s : State) (a : Nat) (b : BitVec 8) : (s.setByte a b).digests = s.digests := rfl
@[simp] theorem State.setByte_challenge (s : State) (a : Nat) (b : BitVec 8) : (s.setByte a b).challenge = s.challenge := rfl
@[simp] theorem State.setByte_keyHashes (s : State) (a : Nat) (b : BitVec 8) : (s.setByte a b).keyHashes = s.keyHashes := rfl
@[simp] theorem State.setByte_logQueue (s : State) (a : Nat) (b : BitVec 8) : (s.setByte a b).logQueue = s.logQueue := rfl
@[simp] theorem State.setByte_soft (s : State) (a : Nat) (b : BitVec 8) : (s.setByte a b).soft = s.soft := rfl
@[simp] theorem State.setByte_softUc (s : State) (a : Nat) (b : BitVec 8) : (s.setByte a b).softUc = s.softUc := rfl
@[simp] theorem State.setByte_ceTrack (s : State) (a : Nat) (b : BitVec 8) : (s.setByte a b).ceTrack = s.ceTrack := rfl
@[simp] theorem State.setByte_drRoom (s : State) (a : Nat) (b : BitVec 8) : (s.setByte a b).drRoom = s.drRoom := rfl
@[simp] theorem State.setByte_freeCtr (s : State) (a : Nat) (b : BitVec 8) : (s.setByte a b).freeCtr = s.freeCtr := rfl

/-! `setWord`. -/

@[simp] theorem State.setWord_pending (s : State) (a : Nat) (w : W16) : (s.setWord a w).pending = s.pending := rfl
@[simp] theorem State.setWord_rf (s : State) (a : Nat) (w : W16) : (s.setWord a w).rf = s.rf := rfl
@[simp] theorem State.setWord_writes (s : State) (a : Nat) (w : W16) : (s.setWord a w).writes = s.writes := rfl
@[simp] theorem State.setWord_arrivals (s : State) (a : Nat) (w : W16) : (s.setWord a w).arrivals = s.arrivals := rfl
@[simp] theorem State.setWord_bounds (s : State) (a : Nat) (w : W16) : (s.setWord a w).bounds = s.bounds := rfl
@[simp] theorem State.setWord_irqLines (s : State) (a : Nat) (w : W16) : (s.setWord a w).irqLines = s.irqLines := rfl
@[simp] theorem State.setWord_commits (s : State) (a : Nat) (w : W16) : (s.setWord a w).commits = s.commits := rfl
@[simp] theorem State.setWord_txFlits (s : State) (a : Nat) (w : W16) : (s.setWord a w).txFlits = s.txFlits := rfl
@[simp] theorem State.setWord_stores (s : State) (a : Nat) (w : W16) : (s.setWord a w).stores = s.stores := rfl
@[simp] theorem State.setWord_traps (s : State) (a : Nat) (w : W16) : (s.setWord a w).traps = s.traps := rfl
@[simp] theorem State.setWord_recQueue (s : State) (a : Nat) (w : W16) : (s.setWord a w).recQueue = s.recQueue := rfl
@[simp] theorem State.setWord_hgQueue (s : State) (a : Nat) (w : W16) : (s.setWord a w).hgQueue = s.hgQueue := rfl
@[simp] theorem State.setWord_hgTaken (s : State) (a : Nat) (w : W16) : (s.setWord a w).hgTaken = s.hgTaken := rfl
@[simp] theorem State.setWord_hgCpl (s : State) (a : Nat) (w : W16) : (s.setWord a w).hgCpl = s.hgCpl := rfl
@[simp] theorem State.setWord_avsHeld (s : State) (a : Nat) (w : W16) : (s.setWord a w).avsHeld = s.avsHeld := rfl
@[simp] theorem State.setWord_hostOut (s : State) (a : Nat) (w : W16) : (s.setWord a w).hostOut = s.hostOut := rfl
@[simp] theorem State.setWord_flash (s : State) (a : Nat) (w : W16) : (s.setWord a w).flash = s.flash := rfl
@[simp] theorem State.setWord_digests (s : State) (a : Nat) (w : W16) : (s.setWord a w).digests = s.digests := rfl
@[simp] theorem State.setWord_challenge (s : State) (a : Nat) (w : W16) : (s.setWord a w).challenge = s.challenge := rfl
@[simp] theorem State.setWord_keyHashes (s : State) (a : Nat) (w : W16) : (s.setWord a w).keyHashes = s.keyHashes := rfl
@[simp] theorem State.setWord_logQueue (s : State) (a : Nat) (w : W16) : (s.setWord a w).logQueue = s.logQueue := rfl
@[simp] theorem State.setWord_soft (s : State) (a : Nat) (w : W16) : (s.setWord a w).soft = s.soft := rfl
@[simp] theorem State.setWord_softUc (s : State) (a : Nat) (w : W16) : (s.setWord a w).softUc = s.softUc := rfl
@[simp] theorem State.setWord_ceTrack (s : State) (a : Nat) (w : W16) : (s.setWord a w).ceTrack = s.ceTrack := rfl
@[simp] theorem State.setWord_drRoom (s : State) (a : Nat) (w : W16) : (s.setWord a w).drRoom = s.drRoom := rfl
@[simp] theorem State.setWord_freeCtr (s : State) (a : Nat) (w : W16) : (s.setWord a w).freeCtr = s.freeCtr := rfl

/-! `later`. -/

@[simp] theorem State.later_pending (s : State) (f : Fld) (v : Int) (i j : Nat) : (s.later f v i j).pending = s.pending := rfl
@[simp] theorem State.later_rf (s : State) (f : Fld) (v : Int) (i j : Nat) : (s.later f v i j).rf = s.rf := rfl
@[simp] theorem State.later_mem (s : State) (f : Fld) (v : Int) (i j : Nat) : (s.later f v i j).mem = s.mem := rfl
@[simp] theorem State.later_arrivals (s : State) (f : Fld) (v : Int) (i j : Nat) : (s.later f v i j).arrivals = s.arrivals := rfl
@[simp] theorem State.later_bounds (s : State) (f : Fld) (v : Int) (i j : Nat) : (s.later f v i j).bounds = s.bounds := rfl
@[simp] theorem State.later_irqLines (s : State) (f : Fld) (v : Int) (i j : Nat) : (s.later f v i j).irqLines = s.irqLines := rfl
@[simp] theorem State.later_commits (s : State) (f : Fld) (v : Int) (i j : Nat) : (s.later f v i j).commits = s.commits := rfl
@[simp] theorem State.later_txFlits (s : State) (f : Fld) (v : Int) (i j : Nat) : (s.later f v i j).txFlits = s.txFlits := rfl
@[simp] theorem State.later_stores (s : State) (f : Fld) (v : Int) (i j : Nat) : (s.later f v i j).stores = s.stores := rfl
@[simp] theorem State.later_traps (s : State) (f : Fld) (v : Int) (i j : Nat) : (s.later f v i j).traps = s.traps := rfl
@[simp] theorem State.later_recQueue (s : State) (f : Fld) (v : Int) (i j : Nat) : (s.later f v i j).recQueue = s.recQueue := rfl
@[simp] theorem State.later_hgQueue (s : State) (f : Fld) (v : Int) (i j : Nat) : (s.later f v i j).hgQueue = s.hgQueue := rfl
@[simp] theorem State.later_hgTaken (s : State) (f : Fld) (v : Int) (i j : Nat) : (s.later f v i j).hgTaken = s.hgTaken := rfl
@[simp] theorem State.later_hgCpl (s : State) (f : Fld) (v : Int) (i j : Nat) : (s.later f v i j).hgCpl = s.hgCpl := rfl
@[simp] theorem State.later_avsHeld (s : State) (f : Fld) (v : Int) (i j : Nat) : (s.later f v i j).avsHeld = s.avsHeld := rfl
@[simp] theorem State.later_hostOut (s : State) (f : Fld) (v : Int) (i j : Nat) : (s.later f v i j).hostOut = s.hostOut := rfl
@[simp] theorem State.later_flash (s : State) (f : Fld) (v : Int) (i j : Nat) : (s.later f v i j).flash = s.flash := rfl
@[simp] theorem State.later_digests (s : State) (f : Fld) (v : Int) (i j : Nat) : (s.later f v i j).digests = s.digests := rfl
@[simp] theorem State.later_challenge (s : State) (f : Fld) (v : Int) (i j : Nat) : (s.later f v i j).challenge = s.challenge := rfl
@[simp] theorem State.later_keyHashes (s : State) (f : Fld) (v : Int) (i j : Nat) : (s.later f v i j).keyHashes = s.keyHashes := rfl
@[simp] theorem State.later_logQueue (s : State) (f : Fld) (v : Int) (i j : Nat) : (s.later f v i j).logQueue = s.logQueue := rfl
@[simp] theorem State.later_soft (s : State) (f : Fld) (v : Int) (i j : Nat) : (s.later f v i j).soft = s.soft := rfl
@[simp] theorem State.later_softUc (s : State) (f : Fld) (v : Int) (i j : Nat) : (s.later f v i j).softUc = s.softUc := rfl
@[simp] theorem State.later_ceTrack (s : State) (f : Fld) (v : Int) (i j : Nat) : (s.later f v i j).ceTrack = s.ceTrack := rfl
@[simp] theorem State.later_drRoom (s : State) (f : Fld) (v : Int) (i j : Nat) : (s.later f v i j).drRoom = s.drRoom := rfl
@[simp] theorem State.later_freeCtr (s : State) (f : Fld) (v : Int) (i j : Nat) : (s.later f v i j).freeCtr = s.freeCtr := rfl

/-! `fresh`. -/

@[simp] theorem State.fresh_pending (s : State) : (s.fresh.2).pending = s.pending := rfl
@[simp] theorem State.fresh_rf (s : State) : (s.fresh.2).rf = s.rf := rfl
@[simp] theorem State.fresh_mem (s : State) : (s.fresh.2).mem = s.mem := rfl
@[simp] theorem State.fresh_writes (s : State) : (s.fresh.2).writes = s.writes := rfl
@[simp] theorem State.fresh_arrivals (s : State) : (s.fresh.2).arrivals = s.arrivals := rfl
@[simp] theorem State.fresh_bounds (s : State) : (s.fresh.2).bounds = s.bounds := rfl
@[simp] theorem State.fresh_irqLines (s : State) : (s.fresh.2).irqLines = s.irqLines := rfl
@[simp] theorem State.fresh_commits (s : State) : (s.fresh.2).commits = s.commits := rfl
@[simp] theorem State.fresh_txFlits (s : State) : (s.fresh.2).txFlits = s.txFlits := rfl
@[simp] theorem State.fresh_stores (s : State) : (s.fresh.2).stores = s.stores := rfl
@[simp] theorem State.fresh_traps (s : State) : (s.fresh.2).traps = s.traps := rfl
@[simp] theorem State.fresh_recQueue (s : State) : (s.fresh.2).recQueue = s.recQueue := rfl
@[simp] theorem State.fresh_hgQueue (s : State) : (s.fresh.2).hgQueue = s.hgQueue := rfl
@[simp] theorem State.fresh_hgTaken (s : State) : (s.fresh.2).hgTaken = s.hgTaken := rfl
@[simp] theorem State.fresh_hgCpl (s : State) : (s.fresh.2).hgCpl = s.hgCpl := rfl
@[simp] theorem State.fresh_avsHeld (s : State) : (s.fresh.2).avsHeld = s.avsHeld := rfl
@[simp] theorem State.fresh_hostOut (s : State) : (s.fresh.2).hostOut = s.hostOut := rfl
@[simp] theorem State.fresh_flash (s : State) : (s.fresh.2).flash = s.flash := rfl
@[simp] theorem State.fresh_digests (s : State) : (s.fresh.2).digests = s.digests := rfl
@[simp] theorem State.fresh_challenge (s : State) : (s.fresh.2).challenge = s.challenge := rfl
@[simp] theorem State.fresh_keyHashes (s : State) : (s.fresh.2).keyHashes = s.keyHashes := rfl
@[simp] theorem State.fresh_logQueue (s : State) : (s.fresh.2).logQueue = s.logQueue := rfl
@[simp] theorem State.fresh_soft (s : State) : (s.fresh.2).soft = s.soft := rfl
@[simp] theorem State.fresh_softUc (s : State) : (s.fresh.2).softUc = s.softUc := rfl
@[simp] theorem State.fresh_ceTrack (s : State) : (s.fresh.2).ceTrack = s.ceTrack := rfl
@[simp] theorem State.fresh_drRoom (s : State) : (s.fresh.2).drRoom = s.drRoom := rfl

/-! Reads after writes. -/

/-- A read after a write. -/
theorem State.get_put (s : State) (f g : Fld) (v : Int) (i j i' j' : Nat) :
    (s.put f v i j).get g i' j' = if g = f ∧ i' = i ∧ j' = j then v else s.get g i' j' := by
  unfold State.get State.put
  rw [regGet_set]
  simp only [Key.mk.injEq]

@[simp] theorem State.get_put_same (s : State) (f : Fld) (v : Int) (i j : Nat) : (s.put f v i j).get f i j = v := by
  simp [State.get_put]

@[simp] theorem State.get_put_fld (s : State) (f g : Fld) (v : Int) (i j i' j' : Nat) (h : g ≠ f) :
    (s.put f v i j).get g i' j' = s.get g i' j' := by
  simp [State.get_put, h]

theorem State.get_put_idx (s : State) (f g : Fld) (v : Int) (i j i' j' : Nat) (h : i' ≠ i) :
    (s.put f v i j).get g i' j' = s.get g i' j' := by
  simp [State.get_put, h]

theorem State.get_put_idx2 (s : State) (f g : Fld) (v : Int) (i j i' j' : Nat) (h : j' ≠ j) :
    (s.put f v i j).get g i' j' = s.get g i' j' := by
  simp [State.get_put, h]

@[simp] theorem State.get_raise_same (s : State) (f : Fld) (i j : Nat) : (s.raise f i j).get f i j = 1 := State.get_put_same ..

@[simp] theorem State.get_raise_fld (s : State) (g : Fld) (i' j' : Nat) (f : Fld) (i j : Nat) (h : g ≠ f) : (s.raise f i j).get g i' j' = s.get g i' j' :=
  State.get_put_fld _ _ _ _ _ _ _ _ h

theorem State.get_raise (s : State) (g : Fld) (i' j' : Nat) (f : Fld) (i j : Nat) :
    (s.raise f i j).get g i' j' = if g = f ∧ i' = i ∧ j' = j then 1 else s.get g i' j' := State.get_put ..

@[simp] theorem State.get_clear_same (s : State) (f : Fld) (i j : Nat) : (s.clear f i j).get f i j = 0 := State.get_put_same ..

@[simp] theorem State.get_clear_fld (s : State) (g : Fld) (i' j' : Nat) (f : Fld) (i j : Nat) (h : g ≠ f) : (s.clear f i j).get g i' j' = s.get g i' j' :=
  State.get_put_fld _ _ _ _ _ _ _ _ h

theorem State.get_clear (s : State) (g : Fld) (i' j' : Nat) (f : Fld) (i j : Nat) :
    (s.clear f i j).get g i' j' = if g = f ∧ i' = i ∧ j' = j then 0 else s.get g i' j' := State.get_put ..

@[simp] theorem State.get_setBits_same (s : State) (f : Fld) (m : Int) (i j : Nat) : (s.setBits f m i j).get f i j = orI (s.get f i j) m := State.get_put_same ..

@[simp] theorem State.get_setBits_fld (s : State) (g : Fld) (i' j' : Nat) (f : Fld) (m : Int) (i j : Nat) (h : g ≠ f) : (s.setBits f m i j).get g i' j' = s.get g i' j' :=
  State.get_put_fld _ _ _ _ _ _ _ _ h

theorem State.get_setBits (s : State) (g : Fld) (i' j' : Nat) (f : Fld) (m : Int) (i j : Nat) :
    (s.setBits f m i j).get g i' j' = if g = f ∧ i' = i ∧ j' = j then orI (s.get f i j) m else s.get g i' j' := State.get_put ..

@[simp] theorem State.get_clrBits_same (s : State) (f : Fld) (m : Int) (i j : Nat) : (s.clrBits f m i j).get f i j = andNotI (s.get f i j) m := State.get_put_same ..

@[simp] theorem State.get_clrBits_fld (s : State) (g : Fld) (i' j' : Nat) (f : Fld) (m : Int) (i j : Nat) (h : g ≠ f) : (s.clrBits f m i j).get g i' j' = s.get g i' j' :=
  State.get_put_fld _ _ _ _ _ _ _ _ h

theorem State.get_clrBits (s : State) (g : Fld) (i' j' : Nat) (f : Fld) (m : Int) (i j : Nat) :
    (s.clrBits f m i j).get g i' j' = if g = f ∧ i' = i ∧ j' = j then andNotI (s.get f i j) m else s.get g i' j' := State.get_put ..

@[simp] theorem State.get_bump_same (s : State) (f : Fld) (top : Int) (i j : Nat) (n : Int) : (s.bump f top i j n).get f i j = min top (s.get f i j + n) := State.get_put_same ..

@[simp] theorem State.get_bump_fld (s : State) (g : Fld) (i' j' : Nat) (f : Fld) (top : Int) (i j : Nat) (n : Int) (h : g ≠ f) : (s.bump f top i j n).get g i' j' = s.get g i' j' :=
  State.get_put_fld _ _ _ _ _ _ _ _ h

theorem State.get_bump (s : State) (g : Fld) (i' j' : Nat) (f : Fld) (top : Int) (i j : Nat) (n : Int) :
    (s.bump f top i j n).get g i' j' = if g = f ∧ i' = i ∧ j' = j then min top (s.get f i j + n) else s.get g i' j' := State.get_put ..

@[simp] theorem State.get_setByte (s : State) (g : Fld) (i' j' : Nat) (a : Nat) (b : BitVec 8) : (s.setByte a b).get g i' j' = s.get g i' j' := rfl
@[simp] theorem State.get_setWord (s : State) (g : Fld) (i' j' : Nat) (a : Nat) (w : W16) : (s.setWord a w).get g i' j' = s.get g i' j' := rfl
@[simp] theorem State.get_later (s : State) (g : Fld) (i' j' : Nat) (f : Fld) (v : Int) (i j : Nat) : (s.later f v i j).get g i' j' = s.get g i' j' := rfl
@[simp] theorem State.get_fresh (s : State) (g : Fld) (i' j' : Nat) : (s.fresh.2).get g i' j' = s.get g i' j' := rfl
@[simp] theorem State.get_with_pending (s : State) (x) (g : Fld) (i j : Nat) : ({ s with pending := x } : State).get g i j = s.get g i j := rfl
@[simp] theorem State.get_with_mem (s : State) (x) (g : Fld) (i j : Nat) : ({ s with mem := x } : State).get g i j = s.get g i j := rfl
@[simp] theorem State.get_with_writes (s : State) (x) (g : Fld) (i j : Nat) : ({ s with writes := x } : State).get g i j = s.get g i j := rfl
@[simp] theorem State.get_with_arrivals (s : State) (x) (g : Fld) (i j : Nat) : ({ s with arrivals := x } : State).get g i j = s.get g i j := rfl
@[simp] theorem State.get_with_bounds (s : State) (x) (g : Fld) (i j : Nat) : ({ s with bounds := x } : State).get g i j = s.get g i j := rfl
@[simp] theorem State.get_with_irqLines (s : State) (x) (g : Fld) (i j : Nat) : ({ s with irqLines := x } : State).get g i j = s.get g i j := rfl
@[simp] theorem State.get_with_commits (s : State) (x) (g : Fld) (i j : Nat) : ({ s with commits := x } : State).get g i j = s.get g i j := rfl
@[simp] theorem State.get_with_txFlits (s : State) (x) (g : Fld) (i j : Nat) : ({ s with txFlits := x } : State).get g i j = s.get g i j := rfl
@[simp] theorem State.get_with_stores (s : State) (x) (g : Fld) (i j : Nat) : ({ s with stores := x } : State).get g i j = s.get g i j := rfl
@[simp] theorem State.get_with_traps (s : State) (x) (g : Fld) (i j : Nat) : ({ s with traps := x } : State).get g i j = s.get g i j := rfl
@[simp] theorem State.get_with_recQueue (s : State) (x) (g : Fld) (i j : Nat) : ({ s with recQueue := x } : State).get g i j = s.get g i j := rfl
@[simp] theorem State.get_with_hgQueue (s : State) (x) (g : Fld) (i j : Nat) : ({ s with hgQueue := x } : State).get g i j = s.get g i j := rfl
@[simp] theorem State.get_with_hgTaken (s : State) (x) (g : Fld) (i j : Nat) : ({ s with hgTaken := x } : State).get g i j = s.get g i j := rfl
@[simp] theorem State.get_with_hgCpl (s : State) (x) (g : Fld) (i j : Nat) : ({ s with hgCpl := x } : State).get g i j = s.get g i j := rfl
@[simp] theorem State.get_with_avsHeld (s : State) (x) (g : Fld) (i j : Nat) : ({ s with avsHeld := x } : State).get g i j = s.get g i j := rfl
@[simp] theorem State.get_with_hostOut (s : State) (x) (g : Fld) (i j : Nat) : ({ s with hostOut := x } : State).get g i j = s.get g i j := rfl
@[simp] theorem State.get_with_flash (s : State) (x) (g : Fld) (i j : Nat) : ({ s with flash := x } : State).get g i j = s.get g i j := rfl
@[simp] theorem State.get_with_digests (s : State) (x) (g : Fld) (i j : Nat) : ({ s with digests := x } : State).get g i j = s.get g i j := rfl
@[simp] theorem State.get_with_challenge (s : State) (x) (g : Fld) (i j : Nat) : ({ s with challenge := x } : State).get g i j = s.get g i j := rfl
@[simp] theorem State.get_with_keyHashes (s : State) (x) (g : Fld) (i j : Nat) : ({ s with keyHashes := x } : State).get g i j = s.get g i j := rfl
@[simp] theorem State.get_with_logQueue (s : State) (x) (g : Fld) (i j : Nat) : ({ s with logQueue := x } : State).get g i j = s.get g i j := rfl
@[simp] theorem State.get_with_soft (s : State) (x) (g : Fld) (i j : Nat) : ({ s with soft := x } : State).get g i j = s.get g i j := rfl
@[simp] theorem State.get_with_softUc (s : State) (x) (g : Fld) (i j : Nat) : ({ s with softUc := x } : State).get g i j = s.get g i j := rfl
@[simp] theorem State.get_with_ceTrack (s : State) (x) (g : Fld) (i j : Nat) : ({ s with ceTrack := x } : State).get g i j = s.get g i j := rfl
@[simp] theorem State.get_with_drRoom (s : State) (x) (g : Fld) (i j : Nat) : ({ s with drRoom := x } : State).get g i j = s.get g i j := rfl
@[simp] theorem State.get_with_freeCtr (s : State) (x) (g : Fld) (i j : Nat) : ({ s with freeCtr := x } : State).get g i j = s.get g i j := rfl

/-! Memory. -/

@[simp] theorem State.byteAt_put (s : State) (f : Fld) (v : Int) (i j a : Nat) : (s.put f v i j).byteAt a = s.byteAt a := rfl

/-- A read of a byte after a write of a byte. -/
theorem State.byteAt_setByte (s : State) (a a' : Nat) (b : BitVec 8) :
    (s.setByte a b).byteAt a' = if a' = a then b else s.byteAt a' := cellGet_set ..

/-- A word reads as it was written. -/
theorem State.wordAt_setWord (s : State) (a : Nat) (w : W16) : (s.setWord a w).wordAt a = w := by
  unfold State.wordAt State.setWord
  rw [State.byteAt_setByte, if_pos rfl, State.byteAt_setByte, if_neg (by omega), State.byteAt_setByte, if_pos rfl]
  ext i hi
  simp only [BitVec.getElem_append, BitVec.getElem_setWidth, BitVec.getLsbD_ushiftRight]
  split
  · rw [BitVec.getLsbD_eq_getElem]
  · rw [show 8 + (i - 8) = i from by omega, BitVec.getLsbD_eq_getElem]

/-- A write of a word leaves every byte outside it. -/
theorem State.byteAt_setWord (s : State) (a b : Nat) (w : W16) (h0 : b ≠ 2 * a) (h1 : b ≠ 2 * a + 1) :
    (s.setWord a w).byteAt b = s.byteAt b := by
  unfold State.setWord
  rw [State.byteAt_setByte, State.byteAt_setByte, if_neg h1, if_neg h0]

/-- A write of a word leaves every other word. -/
theorem State.wordAt_setWord_ne (s : State) (a b : Nat) (w : W16) (h : b ≠ a) : (s.setWord a w).wordAt b = s.wordAt b := by
  unfold State.wordAt
  rw [State.byteAt_setWord _ _ _ _ (by omega) (by omega), State.byteAt_setWord _ _ _ _ (by omega) (by omega)]

end Sys2Proof.Machine
end

