-- ==== Sys2Proof/Laws/Closed.lean ====
section
/-! SUPPORT. Properties of states that every change a meaning can make keeps: `Closed K P` says that `P` survives a write of any
field of the set `K`, every change of the memories by their own operations, and every change of the rest of the state but the
queue. `Foot.<f> K` says that `K` holds every field that the function `f` can write; `<f>_closed` then says, once for each
function, that `f` keeps every such property. The canonical form of the stores, the queue and every single field outside the
footprint are such properties. -/
namespace Sys2Proof.Machine
set_option Elab.async false

/-- The lists other than the queue and the memories agree where they are outside the set `K`. -/
structure SameLists (K : Part → Bool) (s t : State) : Prop where
  writes : K .writes = true ∨ t.writes = s.writes
  arrivals : K .arrivals = true ∨ t.arrivals = s.arrivals
  bounds : K .bounds = true ∨ t.bounds = s.bounds
  irqLines : K .irqLines = true ∨ t.irqLines = s.irqLines
  commits : K .commits = true ∨ t.commits = s.commits
  txFlits : K .txFlits = true ∨ t.txFlits = s.txFlits
  stores : K .stores = true ∨ t.stores = s.stores
  traps : K .traps = true ∨ t.traps = s.traps
  recQueue : K .recQueue = true ∨ t.recQueue = s.recQueue
  hgQueue : K .hgQueue = true ∨ t.hgQueue = s.hgQueue
  hgTaken : K .hgTaken = true ∨ t.hgTaken = s.hgTaken
  hgCpl : K .hgCpl = true ∨ t.hgCpl = s.hgCpl
  avsHeld : K .avsHeld = true ∨ t.avsHeld = s.avsHeld
  hostOut : K .hostOut = true ∨ t.hostOut = s.hostOut
  digests : K .digests = true ∨ t.digests = s.digests
  challenge : K .challenge = true ∨ t.challenge = s.challenge
  keyHashes : K .keyHashes = true ∨ t.keyHashes = s.keyHashes
  logQueue : K .logQueue = true ∨ t.logQueue = s.logQueue
  soft : K .soft = true ∨ t.soft = s.soft
  softUc : K .softUc = true ∨ t.softUc = s.softUc
  ceTrack : K .ceTrack = true ∨ t.ceTrack = s.ceTrack
  drRoom : K .drRoom = true ∨ t.drRoom = s.drRoom
  freeCtr : K .freeCtr = true ∨ t.freeCtr = s.freeCtr

/-- `P` survives every change of the parts in `K`, made by the operations over them. -/
structure Closed (K : Part → Bool) (P : State → Prop) : Prop where
  put : ∀ (s : State) (f : Fld) (v : Int) (i j : Nat), K (.fld f) = true → P s → P (s.put f v i j)
  byte : ∀ (s : State) (a : Nat) (b : BitVec 8), K .mem = true → P s → P (s.setByte a b)
  flash : ∀ (s : State) (a : Nat) (b : BitVec 8), K .flash = true → P s → P { s with flash := cellSet s.flash a b }
  flashNew : ∀ (s : State) (l : List Host.Cell), K .flash = true → Memory.wf l = true → P s → P { s with flash := l }
  drop : ∀ (s : State) (p : Key → Bool), (∀ k, p k = false → K (.fld k.fld) = true) → P s →
    P { s with rf := s.rf.filter fun e => p e.1 }
  memDrop : ∀ (s : State) (p : Host.Cell → Bool), K .mem = true → P s → P { s with mem := s.mem.filter p }
  flashDrop : ∀ (s : State) (p : Host.Cell → Bool), K .flash = true → P s → P { s with flash := s.flash.filter p }
  rest : ∀ s t : State, t.rf = s.rf → t.mem = s.mem → t.flash = s.flash → t.pending = s.pending → SameLists K s t → P s → P t

/-- Every field passes. -/
def allFld (p : Fld → Bool) : Bool := (List.range 3000).all fun n => p (Fld.ofNat n)

theorem allFld_spec {p : Fld → Bool} (h : allFld p = true) (f : Fld) : p f = true := by
  have hf : f.ctorIdx < 3000 := by cases f <;> decide
  have := List.all_eq_true.mp h f.ctorIdx (List.mem_range.mpr hf)
  rwa [Fld.ofNat_ctorIdx] at this

theorem allFld_fld {K : Part → Bool} (h : allFld (fun f => K (.fld f)) = true) (f : Fld) : K (.fld f) = true :=
  allFld_spec h f

theorem listK {l : List Fld} {K : Part → Bool} (h : l.all (fun f => K (.fld f)) = true) {f : Fld} (hf : f ∈ l) :
    K (.fld f) = true := List.all_eq_true.mp h f hf

theorem allFld_imp {q : Fld → Bool} {K : Part → Bool} (h : allFld (fun f => !q f || K (.fld f)) = true) {f : Fld}
    (hq : q f = true) : K (.fld f) = true := by
  have := allFld_spec h f
  rw [hq] at this
  exact this

theorem allFld_keep {q : Fld → Bool} {K : Part → Bool} (h : allFld (fun f => q f || K (.fld f)) = true) {f : Fld}
    (hq : q f = false) : K (.fld f) = true := by
  have := allFld_spec h f
  rw [hq] at this
  exact this

theorem allFld_true : allFld (fun _ => true) = true := List.all_eq_true.mpr fun _ _ => rfl

/-! What `P` says of the results of functions that answer more than a state. -/

/-- `P` of the next state, where there is one. -/
def OutAll (P : State → Prop) (o : Out) : Prop := ∀ t, o = .next t → P t

/-- `P` of the state that an option holds. -/
def OptAll (P : State → Prop) (o : Option State) : Prop := ∀ t, o = some t → P t

/-- `P` of both states of a store: the one after it, where it succeeds, and the one that a failed check leaves. -/
def ExcAll {ε : Type} (P : State → Prop) (x : Except ε State × State) : Prop := (∀ t, x.1 = .ok t → P t) ∧ P x.2

/-- The state of an instruction's end. -/
def Res.st : Res → State
  | .done s => s
  | .stay s => s
  | .jump s => s
  | .fault _ s => s

variable {K : Part → Bool} {P : State → Prop}

theorem OutAll.mk {s : State} (h : P s) : OutAll P (.next s) := fun t ht => by cases ht; exact h

theorem OptAll.mk {s : State} (h : P s) : OptAll P (some s) := fun t ht => by cases ht; exact h

theorem OptAll.none : OptAll P Option.none := fun t ht => by cases ht

theorem get_ite {c : Prop} [Decidable c] {a b : State} {f : Fld} {i j : Nat} :
    (if c then a else b).get f i j = if c then a.get f i j else b.get f i j := by split <;> rfl

theorem OptAll.getD {o : Option State} {d : State} (h : OptAll P o) (hd : P d) : P (o.getD d) := by
  cases o with
  | none => exact hd
  | some t => exact h t rfl

theorem ExcAll.ok {ε : Type} {t s : State} (ht : P t) (hs : P s) : ExcAll P ((.ok t : Except ε State), s) :=
  ⟨fun _ hu => by cases hu; exact ht, hs⟩

theorem ExcAll.err {ε : Type} {e : ε} {s : State} (hs : P s) : ExcAll P ((.error e : Except ε State), s) :=
  ⟨fun _ hu => (nomatch hu), hs⟩

theorem of_ok {ε : Type} {x : Except ε State × State} {t s : State} (h : x = (.ok t, s)) (hx : ExcAll P x) : P t :=
  hx.1 t (by rw [h])

theorem of_okSnd {ε : Type} {x : Except ε State × State} {t s : State} (h : x = (.ok t, s)) (hx : ExcAll P x) : P s := by
  subst h; exact hx.2

theorem of_err {ε : Type} {x : Except ε State × State} {e : ε} {s : State} (h : x = (.error e, s)) (hx : ExcAll P x) : P s := by
  subst h; exact hx.2

theorem ExcAll.snd {ε : Type} {x : Except ε State × State} (h : ExcAll P x) : P x.2 := h.2

theorem foldl_exc {α ε : Type} {f : Except ε State × State → α → Except ε State × State} {l : List α}
    {b : Except ε State × State} (hf : ∀ b x, ExcAll P b → ExcAll P (f b x)) (hb : ExcAll P b) : ExcAll P (l.foldl f b) := by
  induction l generalizing b with
  | nil => exact hb
  | cons x l ih => exact ih (hf b x hb)

theorem fitted_wf (l : List (Nat × Byte)) :
    Memory.wf (l.foldl (fun f (e : Nat × Byte) => cellSet f e.1 (0xFF#8 ^^^ e.2)) []) = true := by
  suffices h : ∀ f, Memory.wf f = true → Memory.wf (l.foldl (fun f (e : Nat × Byte) => cellSet f e.1 (0xFF#8 ^^^ e.2)) f) = true from
    h [] rfl
  induction l with
  | nil => exact fun f hf => hf
  | cons e l ih => exact fun f hf => ih _ (memWf_set _ _ hf)

theorem thenHave {p q : Prop} (hp : p) (hq : p → q) : q := hq hp

theorem of_snd {α : Type} {x : α × State} {a : α} {t : State} (h : x = (a, t)) (hx : P x.2) : P t := by
  subst h; exact hx

theorem of_fst {α : Type} {x : State × α} {a : α} {t : State} (h : x = (t, a)) (hx : P x.1) : P t := by
  subst h; exact hx

theorem of_mid {α β : Type} {x : α × State × β} {a : α} {b : β} {t : State} (h : x = (a, t, b)) (hx : P x.2.1) : P t := by
  subst h; exact hx

theorem of_trd {α β : Type} {x : α × β × State} {a : α} {b : β} {t : State} (h : x = (a, b, t)) (hx : P x.2.2) : P t := by
  subst h; exact hx

theorem of_fth {α β γ : Type} {x : α × β × γ × State} {a : α} {b : β} {c : γ} {t : State} (h : x = (a, b, c, t))
    (hx : P x.2.2.2) : P t := by
  subst h; exact hx

theorem of_some {x : Option State} {t : State} (h : x = some t) (hx : OptAll P x) : P t := hx t h

theorem of_done {x : Res} {t : State} (h : x = .done t) (hx : P x.st) : P t := by subst h; exact hx

theorem of_stay {x : Res} {t : State} (h : x = .stay t) (hx : P x.st) : P t := by subst h; exact hx

theorem of_jump {x : Res} {t : State} (h : x = .jump t) (hx : P x.st) : P t := by subst h; exact hx

theorem of_fault {x : Res} {e : Exc} {t : State} (h : x = .fault e t) (hx : P x.st) : P t := by subst h; exact hx

theorem snd_mk {α : Type} {a : α} {s : State} (h : P s) : P (a, s).2 := h

theorem fst_mk {α : Type} {a : α} {s : State} (h : P s) : P (s, a).1 := h

theorem res_done {s : State} (h : P s) : P (Res.done s).st := h

theorem res_stay {s : State} (h : P s) : P (Res.stay s).st := h

theorem res_jump {s : State} (h : P s) : P (Res.jump s).st := h

theorem res_fault {e : Exc} {s : State} (h : P s) : P (Res.fault e s).st := h

theorem foldl_all {α : Type} {f : State → α → State} {l : List α} {b : State} (hf : ∀ b x, P b → P (f b x)) (hb : P b) :
    P (l.foldl f b) := by
  induction l generalizing b with
  | nil => exact hb
  | cons x l ih => exact ih (hf b x hb)

theorem foldl_snd {α β : Type} {f : β × State → α → β × State} {l : List α} {b : β × State} (hf : ∀ b x, P b.2 → P (f b x).2)
    (hb : P b.2) : P (l.foldl f b).2 := by
  induction l generalizing b with
  | nil => exact hb
  | cons x l ih => exact ih (hf b x hb)

theorem foldl_fst {α β : Type} {f : State × β → α → State × β} {l : List α} {b : State × β} (hf : ∀ b x, P b.1 → P (f b x).1)
    (hb : P b.1) : P (l.foldl f b).1 := by
  induction l generalizing b with
  | nil => exact hb
  | cons x l ih => exact ih (hf b x hb)

theorem foldl_trd {α β γ : Type} {f : β × γ × State → α → β × γ × State} {l : List α} {b : β × γ × State}
    (hf : ∀ b x, P b.2.2 → P (f b x).2.2) (hb : P b.2.2) : P (l.foldl f b).2.2 := by
  induction l generalizing b with
  | nil => exact hb
  | cons x l ih => exact ih (hf b x hb)

theorem ite_closed {c : Prop} [Decidable c] {a b : State} (ha : P a) (hb : P b) : P (if c then a else b) := by
  split <;> assumption

theorem res_ite {c : Prop} [Decidable c] {a b : Res} (ha : P a.st) (hb : P b.st) : P (if c then a else b).st := by
  split <;> assumption

namespace Closed

variable (hP : Closed K P)
include hP

theorem raise {s : State} {f : Fld} {i j : Nat} (hf : K (.fld f) = true) (hs : P s) : P (s.raise f i j) := hP.put _ _ _ _ _ hf hs

theorem clear {s : State} {f : Fld} {i j : Nat} (hf : K (.fld f) = true) (hs : P s) : P (s.clear f i j) := hP.put _ _ _ _ _ hf hs

theorem setBits {s : State} {f : Fld} {m : Int} {i j : Nat} (hf : K (.fld f) = true) (hs : P s) : P (s.setBits f m i j) :=
  hP.put _ _ _ _ _ hf hs

theorem clrBits {s : State} {f : Fld} {m : Int} {i j : Nat} (hf : K (.fld f) = true) (hs : P s) : P (s.clrBits f m i j) :=
  hP.put _ _ _ _ _ hf hs

theorem bump {s : State} {f : Fld} {top : Int} {i j : Nat} {n : Int} (hf : K (.fld f) = true) (hs : P s) : P (s.bump f top i j n) :=
  hP.put _ _ _ _ _ hf hs

theorem setWord {s : State} {a : Nat} {w : W16} (hm : K .mem = true) (hs : P s) : P (s.setWord a w) :=
  hP.byte _ _ _ hm (hP.byte _ _ _ hm hs)

/-- A change of parts other than the register file, the memories and the queue. -/
theorem remake {s : State} (writes_ : List PendWrite) (arrivals_ : List Arrival) (bounds_ : List Bound) (irqLines_ : List IrqLine) (commits_ : List Commitment) (txFlits_ : List TxFlit) (stores_ : List StoreEnt) (traps_ : List CoreTrap) (recQueue_ : List QRec) (hgQueue_ : List HgMsg) (hgTaken_ : Option HgMsg) (hgCpl_ : List HgCpl) (avsHeld_ : List (Nat × HgPart)) (hostOut_ : List Byte) (digests_ : List (List Byte)) (challenge_ : List Byte) (keyHashes_ : List (List Byte)) (logQueue_ : List (Nat × List Byte)) (soft_ : List Nat) (softUc_ : List (Nat × Nat)) (ceTrack_ : List (Nat × Nat)) (drRoom_ : Nat) (freeCtr_ : Nat)
    (h_writes : K .writes = true ∨ writes_ = s.writes := by first | exact .inr rfl | exact .inl (by assumption))
    (h_arrivals : K .arrivals = true ∨ arrivals_ = s.arrivals := by first | exact .inr rfl | exact .inl (by assumption))
    (h_bounds : K .bounds = true ∨ bounds_ = s.bounds := by first | exact .inr rfl | exact .inl (by assumption))
    (h_irqLines : K .irqLines = true ∨ irqLines_ = s.irqLines := by first | exact .inr rfl | exact .inl (by assumption))
    (h_commits : K .commits = true ∨ commits_ = s.commits := by first | exact .inr rfl | exact .inl (by assumption))
    (h_txFlits : K .txFlits = true ∨ txFlits_ = s.txFlits := by first | exact .inr rfl | exact .inl (by assumption))
    (h_stores : K .stores = true ∨ stores_ = s.stores := by first | exact .inr rfl | exact .inl (by assumption))
    (h_traps : K .traps = true ∨ traps_ = s.traps := by first | exact .inr rfl | exact .inl (by assumption))
    (h_recQueue : K .recQueue = true ∨ recQueue_ = s.recQueue := by first | exact .inr rfl | exact .inl (by assumption))
    (h_hgQueue : K .hgQueue = true ∨ hgQueue_ = s.hgQueue := by first | exact .inr rfl | exact .inl (by assumption))
    (h_hgTaken : K .hgTaken = true ∨ hgTaken_ = s.hgTaken := by first | exact .inr rfl | exact .inl (by assumption))
    (h_hgCpl : K .hgCpl = true ∨ hgCpl_ = s.hgCpl := by first | exact .inr rfl | exact .inl (by assumption))
    (h_avsHeld : K .avsHeld = true ∨ avsHeld_ = s.avsHeld := by first | exact .inr rfl | exact .inl (by assumption))
    (h_hostOut : K .hostOut = true ∨ hostOut_ = s.hostOut := by first | exact .inr rfl | exact .inl (by assumption))
    (h_digests : K .digests = true ∨ digests_ = s.digests := by first | exact .inr rfl | exact .inl (by assumption))
    (h_challenge : K .challenge = true ∨ challenge_ = s.challenge := by first | exact .inr rfl | exact .inl (by assumption))
    (h_keyHashes : K .keyHashes = true ∨ keyHashes_ = s.keyHashes := by first | exact .inr rfl | exact .inl (by assumption))
    (h_logQueue : K .logQueue = true ∨ logQueue_ = s.logQueue := by first | exact .inr rfl | exact .inl (by assumption))
    (h_soft : K .soft = true ∨ soft_ = s.soft := by first | exact .inr rfl | exact .inl (by assumption))
    (h_softUc : K .softUc = true ∨ softUc_ = s.softUc := by first | exact .inr rfl | exact .inl (by assumption))
    (h_ceTrack : K .ceTrack = true ∨ ceTrack_ = s.ceTrack := by first | exact .inr rfl | exact .inl (by assumption))
    (h_drRoom : K .drRoom = true ∨ drRoom_ = s.drRoom := by first | exact .inr rfl | exact .inl (by assumption))
    (h_freeCtr : K .freeCtr = true ∨ freeCtr_ = s.freeCtr := by first | exact .inr rfl | exact .inl (by assumption))
    (hs : P s) :
    P (State.mk s.pending s.rf s.mem writes_ arrivals_ bounds_ irqLines_ commits_ txFlits_ stores_ traps_ recQueue_ hgQueue_ hgTaken_ hgCpl_ avsHeld_ hostOut_ s.flash digests_ challenge_ keyHashes_ logQueue_ soft_ softUc_ ceTrack_ drRoom_ freeCtr_) :=
  hP.rest s _ rfl rfl rfl rfl ⟨h_writes, h_arrivals, h_bounds, h_irqLines, h_commits, h_txFlits, h_stores, h_traps, h_recQueue, h_hgQueue, h_hgTaken, h_hgCpl, h_avsHeld, h_hostOut, h_digests, h_challenge, h_keyHashes, h_logQueue, h_soft, h_softUc, h_ceTrack, h_drRoom, h_freeCtr⟩ hs

theorem later {s : State} {f : Fld} {v : Int} {i j : Nat} (hw : K .writes = true) (hs : P s) : P (s.later f v i j) :=
  hP.rest s _ rfl rfl rfl rfl ⟨.inl hw, .inr rfl, .inr rfl, .inr rfl, .inr rfl, .inr rfl, .inr rfl, .inr rfl, .inr rfl, .inr rfl, .inr rfl, .inr rfl, .inr rfl, .inr rfl, .inr rfl, .inr rfl, .inr rfl, .inr rfl, .inr rfl, .inr rfl, .inr rfl, .inr rfl, .inr rfl⟩ hs

theorem fresh {s : State} (hw : K .freeCtr = true) (hs : P s) : P s.fresh.2 :=
  hP.rest s _ rfl rfl rfl rfl ⟨.inr rfl, .inr rfl, .inr rfl, .inr rfl, .inr rfl, .inr rfl, .inr rfl, .inr rfl, .inr rfl, .inr rfl, .inr rfl, .inr rfl, .inr rfl, .inr rfl, .inr rfl, .inr rfl, .inr rfl, .inr rfl, .inr rfl, .inr rfl, .inr rfl, .inr rfl, .inl hw⟩ hs

omit hP in
theorem each {α : Type} {f : State → α → State} (hf : ∀ s x, P s → P (f s x)) (l : List α) {s : State} (hs : P s) :
    P (s.each l f) := by
  unfold State.each
  induction l generalizing s with
  | nil => exact hs
  | cons x l ih => exact ih (hf s x hs)

omit hP in
theorem eachMem {α : Type} {f : State → α → State} {l : List α} (hf : ∀ s x, x ∈ l → P s → P (f s x)) {s : State} (hs : P s) :
    P (s.each l f) := by
  unfold State.each
  induction l generalizing s with
  | nil => exact hs
  | cons x l ih =>
    exact ih (fun s y hy => hf s y (List.mem_cons_of_mem _ hy)) (hf s x List.mem_cons_self hs)

omit hP in
theorem when {c : Bool} {f : State → State} (hf : ∀ s, P s → P (f s)) {s : State} (hs : P s) : P (s.when c f) := by
  unfold State.when
  split
  · exact hf s hs
  · exact hs

theorem resetKeys {s : State} {p : Key → Bool} (hp : ∀ k, p k = true → K (.fld k.fld) = true) (hs : P s) : P (s.resetKeys p) :=
  hP.drop s (fun k => !p k) (fun k hk => hp k (by simpa using hk)) hs

end Closed

/-! The properties. -/

theorem canonical_closed : Closed (fun _ => true) State.Canonical where
  put _ _ _ _ _ _ h := ⟨regWf_set _ _ h.1, h.2.1, h.2.2⟩
  byte _ _ _ _ h := ⟨h.1, memWf_set _ _ h.2.1, h.2.2⟩
  flash _ _ _ _ h := ⟨h.1, h.2.1, memWf_set _ _ h.2.2⟩
  flashNew _ _ _ hl h := ⟨h.1, h.2.1, hl⟩
  drop _ _ _ h := ⟨regWf_filter _ h.1, h.2.1, h.2.2⟩
  memDrop _ _ _ h := ⟨h.1, memWf_filter _ h.2.1, h.2.2⟩
  flashDrop _ _ _ h := ⟨h.1, h.2.1, memWf_filter _ h.2.2⟩
  rest s t h1 h2 h3 _ _ h := by unfold State.Canonical at *; rw [h1, h2, h3]; exact h

/-- Every part outside `K` keeps its contents. -/
theorem sameBut_closed (K : Part → Bool) (s0 : State) : Closed K (s0.SameBut K) where
  put s g w i' j' hg h := { h with
    fld := fun f i j hf => by
      rw [State.get_put_fld _ _ _ _ _ _ _ _ (fun e => by rw [e, hg] at hf; cases hf)]
      exact h.fld f i j hf }
  byte s a b hm h := { h with mem := fun hf => by rw [hm] at hf; cases hf }
  flash s a b hm h := { h with flash := fun hf => by rw [hm] at hf; cases hf }
  flashNew s l hm _ h := { h with flash := fun hf => by rw [hm] at hf; cases hf }
  drop s p hp h := { h with
    fld := fun f i j hf => by
      rw [← h.fld f i j hf]
      unfold State.get
      rw [regGet_filter]
      split
      · rfl
      · next hk =>
        have := hp ⟨f, i, j⟩ (by simpa using hk)
        rw [show (⟨f, i, j⟩ : Key).fld = f from rfl, hf] at this
        cases this }
  memDrop s p hm h := { h with mem := fun hf => by rw [hm] at hf; cases hf }
  flashDrop s p hm h := { h with flash := fun hf => by rw [hm] at hf; cases hf }
  rest s t h1 h2 h3 h4 hl h := {
    pending := h4.trans h.pending
    fld := fun f i j hf => by
      have := h.fld f i j hf
      unfold State.get at *
      rw [h1]; exact this
    mem := fun hf => h2.trans (h.mem hf)
    flash := fun hf => h3.trans (h.flash hf)
    writes := fun hf => (hl.writes.resolve_left (by rw [hf]; exact Bool.false_ne_true)).trans (h.writes hf)
    arrivals := fun hf => (hl.arrivals.resolve_left (by rw [hf]; exact Bool.false_ne_true)).trans (h.arrivals hf)
    bounds := fun hf => (hl.bounds.resolve_left (by rw [hf]; exact Bool.false_ne_true)).trans (h.bounds hf)
    irqLines := fun hf => (hl.irqLines.resolve_left (by rw [hf]; exact Bool.false_ne_true)).trans (h.irqLines hf)
    commits := fun hf => (hl.commits.resolve_left (by rw [hf]; exact Bool.false_ne_true)).trans (h.commits hf)
    txFlits := fun hf => (hl.txFlits.resolve_left (by rw [hf]; exact Bool.false_ne_true)).trans (h.txFlits hf)
    stores := fun hf => (hl.stores.resolve_left (by rw [hf]; exact Bool.false_ne_true)).trans (h.stores hf)
    traps := fun hf => (hl.traps.resolve_left (by rw [hf]; exact Bool.false_ne_true)).trans (h.traps hf)
    recQueue := fun hf => (hl.recQueue.resolve_left (by rw [hf]; exact Bool.false_ne_true)).trans (h.recQueue hf)
    hgQueue := fun hf => (hl.hgQueue.resolve_left (by rw [hf]; exact Bool.false_ne_true)).trans (h.hgQueue hf)
    hgTaken := fun hf => (hl.hgTaken.resolve_left (by rw [hf]; exact Bool.false_ne_true)).trans (h.hgTaken hf)
    hgCpl := fun hf => (hl.hgCpl.resolve_left (by rw [hf]; exact Bool.false_ne_true)).trans (h.hgCpl hf)
    avsHeld := fun hf => (hl.avsHeld.resolve_left (by rw [hf]; exact Bool.false_ne_true)).trans (h.avsHeld hf)
    hostOut := fun hf => (hl.hostOut.resolve_left (by rw [hf]; exact Bool.false_ne_true)).trans (h.hostOut hf)
    digests := fun hf => (hl.digests.resolve_left (by rw [hf]; exact Bool.false_ne_true)).trans (h.digests hf)
    challenge := fun hf => (hl.challenge.resolve_left (by rw [hf]; exact Bool.false_ne_true)).trans (h.challenge hf)
    keyHashes := fun hf => (hl.keyHashes.resolve_left (by rw [hf]; exact Bool.false_ne_true)).trans (h.keyHashes hf)
    logQueue := fun hf => (hl.logQueue.resolve_left (by rw [hf]; exact Bool.false_ne_true)).trans (h.logQueue hf)
    soft := fun hf => (hl.soft.resolve_left (by rw [hf]; exact Bool.false_ne_true)).trans (h.soft hf)
    softUc := fun hf => (hl.softUc.resolve_left (by rw [hf]; exact Bool.false_ne_true)).trans (h.softUc hf)
    ceTrack := fun hf => (hl.ceTrack.resolve_left (by rw [hf]; exact Bool.false_ne_true)).trans (h.ceTrack hf)
    drRoom := fun hf => (hl.drRoom.resolve_left (by rw [hf]; exact Bool.false_ne_true)).trans (h.drRoom hf)
    freeCtr := fun hf => (hl.freeCtr.resolve_left (by rw [hf]; exact Bool.false_ne_true)).trans (h.freeCtr hf)
  }

/-- Every part but one field. -/
def notFld (f : Fld) : Part → Bool := fun p => p != .fld f

theorem notFld_true {f g : Fld} (h : decide (g = f) = false) : notFld f (.fld g) = true := by
  have : g ≠ f := of_decide_eq_false h
  simp [notFld, this]

/-- A field keeps its value under every function whose footprint leaves it out. -/
theorem field_closed (f : Fld) (i j : Nat) (v : Int) : Closed (notFld f) (fun s => s.get f i j = v) where
  put s g w i' j' hg h := by
    rw [State.get_put_fld _ _ _ _ _ _ _ _ (fun e => by rw [e] at hg; simp [notFld] at hg)]
    exact h
  byte _ _ _ _ h := h
  flash _ _ _ _ h := h
  flashNew _ _ _ _ h := h
  drop s p hp h := by
    unfold State.get at *
    rw [regGet_filter]
    split
    · exact h
    · next hk =>
      have := hp ⟨f, i, j⟩ (by simpa using hk)
      simp [notFld] at this
  memDrop _ _ _ h := h
  flashDrop _ _ _ h := h
  rest s t h1 _ _ _ _ h := by unfold State.get at *; rw [h1]; exact h

theorem SameBut_refl (K : Part → Bool) (s : State) : s.SameBut K s :=
  ⟨rfl, fun _ _ _ _ => rfl, fun _ => rfl, fun _ => rfl, fun _ => rfl, fun _ => rfl, fun _ => rfl, fun _ => rfl, fun _ => rfl, fun _ => rfl, fun _ => rfl, fun _ => rfl, fun _ => rfl, fun _ => rfl, fun _ => rfl, fun _ => rfl, fun _ => rfl, fun _ => rfl, fun _ => rfl, fun _ => rfl, fun _ => rfl, fun _ => rfl, fun _ => rfl, fun _ => rfl, fun _ => rfl, fun _ => rfl, fun _ => rfl⟩

end Sys2Proof.Machine
end

