-- ==== Sys2Proof/Laws/ClosedPublish.lean ====
section
/-! SUPPORT. What the functions of Machine/Publish.lean can write, and that they keep every closed property (Laws/Closed.lean). -/
namespace Sys2Proof.Machine

set_option Elab.async false
set_option linter.all false

def Foot.openWindow (K : Part → Bool) : Bool := K (.fld .sgCount) && (K (.fld .sgEnd) && (K (.fld .sgOpen)))

theorem openWindow_closed {K : Part → Bool} {P : State → Prop} {s : State} {ch : Nat} (hP : Closed K P) (hK : Foot.openWindow
    K = true) (hs_s : P s) :
    P (openWindow s ch) := by
  simp only [Foot.openWindow, Bool.and_eq_true] at hK
  obtain ⟨hK0, hK1, hK2⟩ := hK
  unfold openWindow
  with_reducible repeat' first
    | assumption
    | refine hP.put _ _ _ _ _ ?_ ?_
    | refine hP.clear ?_ ?_
    | refine hP.raise ?_ ?_
    | refine ite_closed ?_ ?_
    | split

theorem openWindow_get {s : State} {ch : Nat} {fld0 : Fld} {i0 j0 : Nat} (hK : Foot.openWindow (notFld fld0) = true)  :
    (openWindow s ch).get fld0 i0 j0 = s.get fld0 i0 j0 :=
  openWindow_closed (P := fun x => x.get fld0 i0 j0 = s.get fld0 i0 j0) (field_closed fld0 i0 j0 _) hK  rfl

def Foot.reachLatches (K : Part → Bool) : Bool := K (.fld .evLatch)

theorem reachLatches_closed {K : Part → Bool} {P : State → Prop} {s : State} {ch : Nat} (hP : Closed K P) (hK :
    Foot.reachLatches K = true) (hs_s : P s) :
    P (reachLatches s ch) := by
  simp only [Foot.reachLatches, Bool.and_eq_true] at hK
  unfold reachLatches
  with_reducible repeat' first
    | assumption
    | refine hP.raise ?_ ?_
    | refine Closed.each ?_ _ ?_
    | refine Closed.when ?_ ?_
    | intro _

theorem reachLatches_get {s : State} {ch : Nat} {fld0 : Fld} {i0 j0 : Nat} (hK : Foot.reachLatches (notFld fld0) = true)  :
    (reachLatches s ch).get fld0 i0 j0 = s.get fld0 i0 j0 :=
  reachLatches_closed (P := fun x => x.get fld0 i0 j0 = s.get fld0 i0 j0) (field_closed fld0 i0 j0 _) hK  rfl

def Foot.wakeSeen (K : Part → Bool) : Bool := true

theorem wakeSeen_closed {K : Part → Bool} {P : State → Prop} {s : State} {f : Fld} {id : Nat} {c : Bool} (hP : Closed K P)
    (hK : Foot.wakeSeen K = true) (hK_f : K (.fld f) = true) (hs_s : P s) :
    P (wakeSeen s f id c) := by
  unfold wakeSeen
  with_reducible repeat' first
    | assumption
    | refine hP.put _ _ _ _ _ ?_ ?_
    | refine Closed.when ?_ ?_
    | intro _

theorem wakeSeen_get {s : State} {f : Fld} {id : Nat} {c : Bool} {fld0 : Fld} {i0 j0 : Nat} (hK : Foot.wakeSeen (notFld fld0)
    = true) (hg_f : (decide (f = fld0)) = false) : (wakeSeen s f id c).get fld0 i0 j0 = s.get fld0 i0 j0 :=
  wakeSeen_closed (P := fun x => x.get fld0 i0 j0 = s.get fld0 i0 j0) (field_closed fld0 i0 j0 _) hK (notFld_true hg_f) rfl

def Foot.reachTurnouts (K : Part → Bool) : Bool := K .arrivals

theorem reachTurnouts_closed {K : Part → Bool} {P : State → Prop} {s : State} {ch : Nat} (hP : Closed K P) (hK :
    Foot.reachTurnouts K = true) (hs_s : P s) :
    P (reachTurnouts s ch) := by
  simp only [Foot.reachTurnouts, Bool.and_eq_true] at hK
  unfold reachTurnouts
  with_reducible repeat' first
    | assumption
    | intro _
    | (extract_lets +onlyGivenNames x; apply thenHave (p := P x); (unfold x; clear x); rotate_left 1; (intro hx; clear_value x))
    | (extract_lets +onlyGivenNames x; clear_value x)
    | (extract_lets +onlyGivenNames x)
    | refine hP.remake _ _ _ _ _ _ _ _ _ _ _ _ _ _ _ _ _ _ _ _ _ _ _ (hs := ?_); first | assumption
    | refine ite_closed ?_ ?_
    | split

theorem reachTurnouts_get {s : State} {ch : Nat} {fld0 : Fld} {i0 j0 : Nat} (hK : Foot.reachTurnouts (notFld fld0) = true)  :
    (reachTurnouts s ch).get fld0 i0 j0 = s.get fld0 i0 j0 :=
  reachTurnouts_closed (P := fun x => x.get fld0 i0 j0 = s.get fld0 i0 j0) (field_closed fld0 i0 j0 _) hK  rfl

def Foot.deliverEvent (K : Part → Bool) : Bool := K (.fld .EV_CHPUB) && (K (.fld .EV_WATCH) && (K (.fld .recEv) &&
    (Foot.reachLatches K && (Foot.wakeSeen K && (Foot.reachTurnouts K && (K (.fld .evWakeReq)))))))

theorem deliverEvent_closed {K : Part → Bool} {P : State → Prop} {s : State} {ch : Nat} (hP : Closed K P) (hK :
    Foot.deliverEvent K = true) (hs_s : P s) :
    P (deliverEvent s ch) := by
  simp only [Foot.deliverEvent, Bool.and_eq_true] at hK
  obtain ⟨hK0, hK1, hK2, hK3, hK4, hK5, hK6⟩ := hK
  unfold deliverEvent
  with_reducible repeat' first
    | assumption
    | refine reachLatches_closed hP ?_ ?_
    | refine wakeSeen_closed hP ?_ ?_ ?_
    | refine reachTurnouts_closed hP ?_ ?_
    | refine hP.put _ _ _ _ _ ?_ ?_
    | refine hP.bump ?_ ?_
    | refine hP.setBits ?_ ?_
    | (extract_lets +onlyGivenNames x; apply thenHave (p := P x); (unfold x; clear x); rotate_left 1; (intro hx; clear_value x))
    | (extract_lets +onlyGivenNames x; clear_value x)
    | refine ite_closed ?_ ?_
    | split

theorem deliverEvent_get {s : State} {ch : Nat} {fld0 : Fld} {i0 j0 : Nat} (hK : Foot.deliverEvent (notFld fld0) = true)  :
    (deliverEvent s ch).get fld0 i0 j0 = s.get fld0 i0 j0 :=
  deliverEvent_closed (P := fun x => x.get fld0 i0 j0 = s.get fld0 i0 j0) (field_closed fld0 i0 j0 _) hK  rfl

def Foot.publish (K : Part → Bool) : Bool := K (.fld .pubSeen) && (K (.fld .EV_CHSUPP) && (K (.fld .EV_TRIP) && (K (.fld
    .sgCount) && (Foot.openWindow K && (Foot.deliverEvent K)))))

theorem publish_closed {K : Part → Bool} {P : State → Prop} {s : State} {ch : Nat} (hP : Closed K P) (hK : Foot.publish K =
    true) (hs_s : P s) :
    P (publish s ch) := by
  simp only [Foot.publish, Bool.and_eq_true] at hK
  obtain ⟨hK0, hK1, hK2, hK3, hK4, hK5⟩ := hK
  unfold publish
  with_reducible repeat' first
    | assumption
    | refine openWindow_closed hP ?_ ?_
    | refine deliverEvent_closed hP ?_ ?_
    | refine hP.put _ _ _ _ _ ?_ ?_
    | refine hP.clear ?_ ?_
    | refine hP.raise ?_ ?_
    | refine hP.bump ?_ ?_
    | refine hP.setBits ?_ ?_
    | refine hP.clrBits ?_ ?_
    | refine Closed.when ?_ ?_
    | intro _
    | (extract_lets +onlyGivenNames x; apply thenHave (p := P x); (unfold x; clear x); rotate_left 1; (intro hx; clear_value x))
    | (extract_lets +onlyGivenNames x; clear_value x)
    | (extract_lets +onlyGivenNames x)
    | refine ite_closed ?_ ?_
    | split

theorem publish_get {s : State} {ch : Nat} {fld0 : Fld} {i0 j0 : Nat} (hK : Foot.publish (notFld fld0) = true)  : (publish s
    ch).get fld0 i0 j0 = s.get fld0 i0 j0 :=
  publish_closed (P := fun x => x.get fld0 i0 j0 = s.get fld0 i0 j0) (field_closed fld0 i0 j0 _) hK  rfl

def Foot.hwPublish (K : Part → Bool) : Bool := Foot.publish K

theorem hwPublish_closed {K : Part → Bool} {P : State → Prop} {s : State} {h : Nat} (hP : Closed K P) (hK : Foot.hwPublish K
    = true) (hs_s : P s) :
    P (hwPublish s h) := by
  simp only [Foot.hwPublish, Bool.and_eq_true] at hK
  unfold hwPublish
  with_reducible repeat' first
    | assumption
    | refine publish_closed hP ?_ ?_
    | refine ite_closed ?_ ?_
    | split

theorem hwPublish_get {s : State} {h : Nat} {fld0 : Fld} {i0 j0 : Nat} (hK : Foot.hwPublish (notFld fld0) = true)  :
    (hwPublish s h).get fld0 i0 j0 = s.get fld0 i0 j0 :=
  hwPublish_closed (P := fun x => x.get fld0 i0 j0 = s.get fld0 i0 j0) (field_closed fld0 i0 j0 _) hK  rfl

def Foot.laneFlag (K : Part → Bool) : Bool := K (.fld .LN_FLAG) && (Foot.hwPublish K)

theorem laneFlag_closed {K : Part → Bool} {P : State → Prop} {s : State} {r : Nat} {n : Nat} (hP : Closed K P) (hK :
    Foot.laneFlag K = true) (hs_s : P s) :
    P (laneFlag s r n) := by
  simp only [Foot.laneFlag, Bool.and_eq_true] at hK
  obtain ⟨hK0, hK1⟩ := hK
  unfold laneFlag
  with_reducible repeat' first
    | assumption
    | refine hwPublish_closed hP ?_ ?_
    | refine hP.setBits ?_ ?_
    | (extract_lets +onlyGivenNames x; apply thenHave (p := P x); (unfold x; clear x); rotate_left 1; (intro hx; clear_value x))
    | (extract_lets +onlyGivenNames x; clear_value x)
    | refine ite_closed ?_ ?_
    | split

theorem laneFlag_get {s : State} {r : Nat} {n : Nat} {fld0 : Fld} {i0 j0 : Nat} (hK : Foot.laneFlag (notFld fld0) = true)  :
    (laneFlag s r n).get fld0 i0 j0 = s.get fld0 i0 j0 :=
  laneFlag_closed (P := fun x => x.get fld0 i0 j0 = s.get fld0 i0 j0) (field_closed fld0 i0 j0 _) hK  rfl

def Foot.refusePublish (K : Part → Bool) : Bool := K (.fld .EV_STATUS_LASTCH) && (K (.fld .EV_STATUS_OWNERR))

theorem refusePublish_closed {K : Part → Bool} {P : State → Prop} {s : State} {ch : Nat} (hP : Closed K P) (hK :
    Foot.refusePublish K = true) (hs_s : P s) :
    P (refusePublish s ch) := by
  simp only [Foot.refusePublish, Bool.and_eq_true] at hK
  obtain ⟨hK0, hK1⟩ := hK
  unfold refusePublish
  with_reducible repeat' first
    | assumption
    | refine hP.put _ _ _ _ _ ?_ ?_
    | refine hP.raise ?_ ?_

theorem refusePublish_get {s : State} {ch : Nat} {fld0 : Fld} {i0 j0 : Nat} (hK : Foot.refusePublish (notFld fld0) = true)  :
    (refusePublish s ch).get fld0 i0 j0 = s.get fld0 i0 j0 :=
  refusePublish_closed (P := fun x => x.get fld0 i0 j0 = s.get fld0 i0 j0) (field_closed fld0 i0 j0 _) hK  rfl

def Foot.corePublish (K : Part → Bool) : Bool := Foot.publish K && (Foot.refusePublish K)

theorem corePublish_closed {K : Part → Bool} {P : State → Prop} {s : State} {k : Nat} {sup : Bool} {ch : Nat} (hP : Closed K
    P) (hK : Foot.corePublish K = true) (hs_s : P s) :
    P (corePublish s k sup ch) := by
  simp only [Foot.corePublish, Bool.and_eq_true] at hK
  obtain ⟨hK0, hK1⟩ := hK
  unfold corePublish
  with_reducible repeat' first
    | assumption
    | refine publish_closed hP ?_ ?_
    | refine refusePublish_closed hP ?_ ?_
    | refine ite_closed ?_ ?_
    | split

theorem corePublish_get {s : State} {k : Nat} {sup : Bool} {ch : Nat} {fld0 : Fld} {i0 j0 : Nat} (hK : Foot.corePublish
    (notFld fld0) = true)  : (corePublish s k sup ch).get fld0 i0 j0 = s.get fld0 i0 j0 :=
  corePublish_closed (P := fun x => x.get fld0 i0 j0 = s.get fld0 i0 j0) (field_closed fld0 i0 j0 _) hK  rfl

def Foot.proxyPublish (K : Part → Bool) : Bool := Foot.publish K && (Foot.refusePublish K)

theorem proxyPublish_closed {K : Part → Bool} {P : State → Prop} {s : State} {k : Nat} {sup : Bool} {ch : Nat} (hP : Closed K
    P) (hK : Foot.proxyPublish K = true) (hs_s : P s) :
    P (proxyPublish s k sup ch) := by
  simp only [Foot.proxyPublish, Bool.and_eq_true] at hK
  obtain ⟨hK0, hK1⟩ := hK
  unfold proxyPublish
  with_reducible repeat' first
    | assumption
    | refine publish_closed hP ?_ ?_
    | refine refusePublish_closed hP ?_ ?_
    | refine ite_closed ?_ ?_
    | split

theorem proxyPublish_get {s : State} {k : Nat} {sup : Bool} {ch : Nat} {fld0 : Fld} {i0 j0 : Nat} (hK : Foot.proxyPublish
    (notFld fld0) = true)  : (proxyPublish s k sup ch).get fld0 i0 j0 = s.get fld0 i0 j0 :=
  proxyPublish_closed (P := fun x => x.get fld0 i0 j0 = s.get fld0 i0 j0) (field_closed fld0 i0 j0 _) hK  rfl

def Foot.userPublish (K : Part → Bool) : Bool := Foot.publish K && (Foot.refusePublish K)

theorem userPublish_closed {K : Part → Bool} {P : State → Prop} {s : State} {k : Nat} {ch : Nat} (hP : Closed K P) (hK :
    Foot.userPublish K = true) (hs_s : P s) :
    P (userPublish s k ch) := by
  simp only [Foot.userPublish, Bool.and_eq_true] at hK
  obtain ⟨hK0, hK1⟩ := hK
  unfold userPublish
  with_reducible repeat' first
    | assumption
    | refine publish_closed hP ?_ ?_
    | refine refusePublish_closed hP ?_ ?_
    | refine ite_closed ?_ ?_
    | split

theorem userPublish_get {s : State} {k : Nat} {ch : Nat} {fld0 : Fld} {i0 j0 : Nat} (hK : Foot.userPublish (notFld fld0) =
    true)  : (userPublish s k ch).get fld0 i0 j0 = s.get fld0 i0 j0 :=
  userPublish_closed (P := fun x => x.get fld0 i0 j0 = s.get fld0 i0 j0) (field_closed fld0 i0 j0 _) hK  rfl

def Foot.flagPub (K : Part → Bool) : Bool := Foot.hwPublish K

theorem flagPub_closed {K : Part → Bool} {P : State → Prop} {s : State} {f : Fld} {i : Nat} {h : Nat} (hP : Closed K P) (hK :
    Foot.flagPub K = true) (hK_f : K (.fld f) = true) (hs_s : P s) :
    P (flagPub s f i h) := by
  simp only [Foot.flagPub, Bool.and_eq_true] at hK
  unfold flagPub
  with_reducible repeat' first
    | assumption
    | refine hwPublish_closed hP ?_ ?_
    | refine hP.raise ?_ ?_
    | refine ite_closed ?_ ?_
    | split

theorem flagPub_get {s : State} {f : Fld} {i : Nat} {h : Nat} {fld0 : Fld} {i0 j0 : Nat} (hK : Foot.flagPub (notFld fld0) =
    true) (hg_f : (decide (f = fld0)) = false) : (flagPub s f i h).get fld0 i0 j0 = s.get fld0 i0 j0 :=
  flagPub_closed (P := fun x => x.get fld0 i0 j0 = s.get fld0 i0 j0) (field_closed fld0 i0 j0 _) hK (notFld_true hg_f) rfl

def Foot.together (K : Part → Bool) : Bool := K (.fld .pubSeen) && (K (.fld .pubOnce))

theorem together_closed {K : Part → Bool} {P : State → Prop} {s : State} {f : State → State} (hP : Closed K P) (hK :
    Foot.together K = true) (h_f : ∀ x0, P x0 → P (f x0)) (hs_s : P s) :
    P (together s f) := by
  simp only [Foot.together, Bool.and_eq_true] at hK
  obtain ⟨hK0, hK1⟩ := hK
  unfold together
  with_reducible repeat' first
    | assumption
    | apply h_f
    | refine hP.clear ?_ ?_
    | refine hP.raise ?_ ?_

end Sys2Proof.Machine
end

