-- ==== Sys2Proof/Laws/ClosedCoreState.lean ====
section
/-! SUPPORT. What the functions of Machine/CoreState.lean can write, and that they keep every closed property (Laws/Closed.lean). -/
namespace Sys2Proof.Machine

set_option Elab.async false
set_option linter.all false

def Foot.resetRegs (K : Part → Bool) : Bool := (allFld fun f => !(coreFld f || f == .XC_STATUS_SB) || K (.fld f)) && (K
    .stores && (K .traps))

theorem resetRegs_closed {K : Part → Bool} {P : State → Prop} {s : State} {k : Nat} (hP : Closed K P) (hK : Foot.resetRegs K
    = true) (hs_s : P s) :
    P (resetRegs s k) := by
  simp only [Foot.resetRegs, Bool.and_eq_true] at hK
  obtain ⟨hK0, hK1, hK2⟩ := hK
  unfold resetRegs
  with_reducible repeat' first
    | assumption
    | refine hP.resetKeys (fun k hk => allFld_imp hK0 (by revert hk; cases coreFld k.fld <;> cases (k.fld == Fld.XC_STATUS_SB) <;> simp)) ?_
    | intro _
    | (extract_lets +onlyGivenNames x; apply thenHave (p := P x); (unfold x; clear x); rotate_left 1; (intro hx; clear_value x))
    | (extract_lets +onlyGivenNames x; clear_value x)
    | refine hP.remake _ _ _ _ _ _ _ _ _ _ _ _ _ _ _ _ _ _ _ _ _ _ _ (hs := ?_); first | assumption

theorem resetRegs_get {s : State} {k : Nat} {fld0 : Fld} {i0 j0 : Nat} (hK : Foot.resetRegs (notFld fld0) = true)  :
    (resetRegs s k).get fld0 i0 j0 = s.get fld0 i0 j0 :=
  resetRegs_closed (P := fun x => x.get fld0 i0 j0 = s.get fld0 i0 j0) (field_closed fld0 i0 j0 _) hK  rfl

def Foot.resetCore (K : Part → Bool) : Bool := Foot.resetRegs K && ((allFld fun f => !(coreWindowFld f || mcFld f) || K (.fld
    f)))

theorem resetCore_closed {K : Part → Bool} {P : State → Prop} {s : State} {k : Nat} (hP : Closed K P) (hK : Foot.resetCore K
    = true) (hs_s : P s) :
    P (resetCore s k) := by
  simp only [Foot.resetCore, Bool.and_eq_true] at hK
  obtain ⟨hK0, hK1⟩ := hK
  unfold resetCore
  with_reducible repeat' first
    | assumption
    | refine resetRegs_closed hP ?_ ?_
    | refine hP.resetKeys (fun k hk => allFld_imp hK1 (by revert hk; cases coreWindowFld k.fld <;> cases mcFld k.fld <;> simp)) ?_
    | intro _
    | (extract_lets +onlyGivenNames x; apply thenHave (p := P x); (unfold x; clear x); rotate_left 1; (intro hx; clear_value x))
    | (extract_lets +onlyGivenNames x; clear_value x)

theorem resetCore_get {s : State} {k : Nat} {fld0 : Fld} {i0 j0 : Nat} (hK : Foot.resetCore (notFld fld0) = true)  :
    (resetCore s k).get fld0 i0 j0 = s.get fld0 i0 j0 :=
  resetCore_closed (P := fun x => x.get fld0 i0 j0 = s.get fld0 i0 j0) (field_closed fld0 i0 j0 _) hK  rfl

def Foot.setD (K : Part → Bool) : Bool := K (.fld .coreD)

theorem setD_closed {K : Part → Bool} {P : State → Prop} {s : State} {k : Nat} {n : Nat} {v : Int} (hP : Closed K P) (hK :
    Foot.setD K = true) (hs_s : P s) :
    P (setD s k n v) := by
  simp only [Foot.setD, Bool.and_eq_true] at hK
  unfold setD
  with_reducible repeat' first
    | assumption
    | refine hP.put _ _ _ _ _ ?_ ?_

theorem setD_get {s : State} {k : Nat} {n : Nat} {v : Int} {fld0 : Fld} {i0 j0 : Nat} (hK : Foot.setD (notFld fld0) = true) 
    : (setD s k n v).get fld0 i0 j0 = s.get fld0 i0 j0 :=
  setD_closed (P := fun x => x.get fld0 i0 j0 = s.get fld0 i0 j0) (field_closed fld0 i0 j0 _) hK  rfl

def Foot.setA (K : Part → Bool) : Bool := K (.fld .coreA)

theorem setA_closed {K : Part → Bool} {P : State → Prop} {s : State} {k : Nat} {n : Nat} {v : Int} (hP : Closed K P) (hK :
    Foot.setA K = true) (hs_s : P s) :
    P (setA s k n v) := by
  simp only [Foot.setA, Bool.and_eq_true] at hK
  unfold setA
  with_reducible repeat' first
    | assumption
    | refine hP.put _ _ _ _ _ ?_ ?_

theorem setA_get {s : State} {k : Nat} {n : Nat} {v : Int} {fld0 : Fld} {i0 j0 : Nat} (hK : Foot.setA (notFld fld0) = true) 
    : (setA s k n v).get fld0 i0 j0 = s.get fld0 i0 j0 :=
  setA_closed (P := fun x => x.get fld0 i0 j0 = s.get fld0 i0 j0) (field_closed fld0 i0 j0 _) hK  rfl

def Foot.putV (K : Part → Bool) : Bool := K (.fld .swV) && (K (.fld .divOld) && (K (.fld .macOld)))

theorem putV_closed {K : Part → Bool} {P : State → Prop} {s : State} {k : Nat} {v : Bool} (hP : Closed K P) (hK : Foot.putV K
    = true) (hs_s : P s) :
    P (putV s k v) := by
  simp only [Foot.putV, Bool.and_eq_true] at hK
  obtain ⟨hK0, hK1, hK2⟩ := hK
  unfold putV
  with_reducible repeat' first
    | assumption
    | refine hP.put _ _ _ _ _ ?_ ?_
    | refine hP.raise ?_ ?_
    | (extract_lets +onlyGivenNames x; apply thenHave (p := P x); (unfold x; clear x); rotate_left 1; (intro hx; clear_value x))
    | (extract_lets +onlyGivenNames x; clear_value x)
    | refine ite_closed ?_ ?_
    | refine res_ite ?_ ?_
    | split

theorem putV_get {s : State} {k : Nat} {v : Bool} {fld0 : Fld} {i0 j0 : Nat} (hK : Foot.putV (notFld fld0) = true)  : (putV s
    k v).get fld0 i0 j0 = s.get fld0 i0 j0 :=
  putV_closed (P := fun x => x.get fld0 i0 j0 = s.get fld0 i0 j0) (field_closed fld0 i0 j0 _) hK  rfl

def Foot.dropLoopBuffer (K : Part → Bool) : Bool := K (.fld .lbOn) && (K (.fld .lbPhase))

theorem dropLoopBuffer_closed {K : Part → Bool} {P : State → Prop} {s : State} {k : Nat} (hP : Closed K P) (hK :
    Foot.dropLoopBuffer K = true) (hs_s : P s) :
    P (dropLoopBuffer s k) := by
  simp only [Foot.dropLoopBuffer, Bool.and_eq_true] at hK
  obtain ⟨hK0, hK1⟩ := hK
  unfold dropLoopBuffer
  with_reducible repeat' first
    | assumption
    | refine hP.clear ?_ ?_

theorem dropLoopBuffer_get {s : State} {k : Nat} {fld0 : Fld} {i0 j0 : Nat} (hK : Foot.dropLoopBuffer (notFld fld0) = true) 
    : (dropLoopBuffer s k).get fld0 i0 j0 = s.get fld0 i0 j0 :=
  dropLoopBuffer_closed (P := fun x => x.get fld0 i0 j0 = s.get fld0 i0 j0) (field_closed fld0 i0 j0 _) hK  rfl

def Foot.dropQueue (K : Part → Bool) : Bool := K (.fld .fqLen)

theorem dropQueue_closed {K : Part → Bool} {P : State → Prop} {s : State} {k : Nat} (hP : Closed K P) (hK : Foot.dropQueue K
    = true) (hs_s : P s) :
    P (dropQueue s k) := by
  simp only [Foot.dropQueue, Bool.and_eq_true] at hK
  unfold dropQueue
  with_reducible repeat' first
    | assumption
    | refine hP.clear ?_ ?_

theorem dropQueue_get {s : State} {k : Nat} {fld0 : Fld} {i0 j0 : Nat} (hK : Foot.dropQueue (notFld fld0) = true)  :
    (dropQueue s k).get fld0 i0 j0 = s.get fld0 i0 j0 :=
  dropQueue_closed (P := fun x => x.get fld0 i0 j0 = s.get fld0 i0 j0) (field_closed fld0 i0 j0 _) hK  rfl

def Foot.setPc (K : Part → Bool) : Bool := K (.fld .corePc)

theorem setPc_closed {K : Part → Bool} {P : State → Prop} {s : State} {k : Nat} {v : Int} (hP : Closed K P) (hK : Foot.setPc
    K = true) (hs_s : P s) :
    P (setPc s k v) := by
  simp only [Foot.setPc, Bool.and_eq_true] at hK
  unfold setPc
  with_reducible repeat' first
    | assumption
    | refine hP.put _ _ _ _ _ ?_ ?_

theorem setPc_get {s : State} {k : Nat} {v : Int} {fld0 : Fld} {i0 j0 : Nat} (hK : Foot.setPc (notFld fld0) = true)  : (setPc
    s k v).get fld0 i0 j0 = s.get fld0 i0 j0 :=
  setPc_closed (P := fun x => x.get fld0 i0 j0 = s.get fld0 i0 j0) (field_closed fld0 i0 j0 _) hK  rfl

def Foot.loopBack (K : Part → Bool) : Bool := K (.fld .loopCnt) && (K (.fld .lbOn) && (K (.fld .lbPhase) && (Foot.setPc K &&
    (Foot.dropQueue K))))

theorem loopBack_closed {K : Part → Bool} {P : State → Prop} {s : State} {k : Nat} (hP : Closed K P) (hK : Foot.loopBack K =
    true) (hs_s : P s) :
    P (loopBack s k) := by
  simp only [Foot.loopBack, Bool.and_eq_true] at hK
  obtain ⟨hK0, hK1, hK2, hK3, hK4⟩ := hK
  unfold loopBack
  with_reducible repeat' first
    | assumption
    | refine setPc_closed hP ?_ ?_
    | refine dropQueue_closed hP ?_ ?_
    | refine hP.put _ _ _ _ _ ?_ ?_
    | refine hP.clear ?_ ?_
    | (extract_lets +onlyGivenNames x; apply thenHave (p := P x); (unfold x; clear x); rotate_left 1; (intro hx; clear_value x))
    | (extract_lets +onlyGivenNames x; clear_value x)
    | refine ite_closed ?_ ?_
    | refine res_ite ?_ ?_
    | split

theorem loopBack_get {s : State} {k : Nat} {fld0 : Fld} {i0 j0 : Nat} (hK : Foot.loopBack (notFld fld0) = true)  : (loopBack
    s k).get fld0 i0 j0 = s.get fld0 i0 j0 :=
  loopBack_closed (P := fun x => x.get fld0 i0 j0 = s.get fld0 i0 j0) (field_closed fld0 i0 j0 _) hK  rfl

def Foot.advance (K : Part → Bool) : Bool := K (.fld .loopOn) && (Foot.loopBack K && (Foot.setPc K && (Foot.dropLoopBuffer
    K)))

theorem advance_closed {K : Part → Bool} {P : State → Prop} {s : State} {k : Nat} {len : Nat} (hP : Closed K P) (hK :
    Foot.advance K = true) (hs_s : P s) :
    P (advance s k len) := by
  simp only [Foot.advance, Bool.and_eq_true] at hK
  obtain ⟨hK0, hK1, hK2, hK3⟩ := hK
  unfold advance
  with_reducible repeat' first
    | assumption
    | refine loopBack_closed hP ?_ ?_
    | refine setPc_closed hP ?_ ?_
    | refine dropLoopBuffer_closed hP ?_ ?_
    | refine hP.clear ?_ ?_
    | refine ite_closed ?_ ?_
    | refine res_ite ?_ ?_
    | split

theorem advance_get {s : State} {k : Nat} {len : Nat} {fld0 : Fld} {i0 j0 : Nat} (hK : Foot.advance (notFld fld0) = true)  :
    (advance s k len).get fld0 i0 j0 = s.get fld0 i0 j0 :=
  advance_closed (P := fun x => x.get fld0 i0 j0 = s.get fld0 i0 j0) (field_closed fld0 i0 j0 _) hK  rfl

def Foot.putVSat (K : Part → Bool) : Bool := K (.fld .swSat) && (Foot.putV K)

theorem putVSat_closed {K : Part → Bool} {P : State → Prop} {s : State} {k : Nat} {v : Bool} (hP : Closed K P) (hK :
    Foot.putVSat K = true) (hs_s : P s) :
    P (putVSat s k v) := by
  simp only [Foot.putVSat, Bool.and_eq_true] at hK
  obtain ⟨hK0, hK1⟩ := hK
  unfold putVSat
  with_reducible repeat' first
    | assumption
    | refine putV_closed hP ?_ ?_
    | refine hP.raise ?_ ?_
    | (extract_lets +onlyGivenNames x; apply thenHave (p := P x); (unfold x; clear x); rotate_left 1; (intro hx; clear_value x))
    | (extract_lets +onlyGivenNames x; clear_value x)
    | refine ite_closed ?_ ?_
    | refine res_ite ?_ ?_
    | split

theorem putVSat_get {s : State} {k : Nat} {v : Bool} {fld0 : Fld} {i0 j0 : Nat} (hK : Foot.putVSat (notFld fld0) = true)  :
    (putVSat s k v).get fld0 i0 j0 = s.get fld0 i0 j0 :=
  putVSat_closed (P := fun x => x.get fld0 i0 j0 = s.get fld0 i0 j0) (field_closed fld0 i0 j0 _) hK  rfl

def Foot.setP (K : Part → Bool) : Bool := K (.fld .coreUsp) && (K (.fld .coreP))

theorem setP_closed {K : Part → Bool} {P : State → Prop} {s : State} {k : Nat} {n : Nat} {v : Int} (hP : Closed K P) (hK :
    Foot.setP K = true) (hs_s : P s) :
    P (setP s k n v) := by
  simp only [Foot.setP, Bool.and_eq_true] at hK
  obtain ⟨hK0, hK1⟩ := hK
  unfold setP
  with_reducible repeat' first
    | assumption
    | refine hP.put _ _ _ _ _ ?_ ?_
    | refine ite_closed ?_ ?_
    | refine res_ite ?_ ?_
    | split

theorem setP_get {s : State} {k : Nat} {n : Nat} {v : Int} {fld0 : Fld} {i0 j0 : Nat} (hK : Foot.setP (notFld fld0) = true) 
    : (setP s k n v).get fld0 i0 j0 = s.get fld0 i0 j0 :=
  setP_closed (P := fun x => x.get fld0 i0 j0 = s.get fld0 i0 j0) (field_closed fld0 i0 j0 _) hK  rfl

def Foot.leaveBody (K : Part → Bool) : Bool := Foot.dropQueue K && (Foot.dropLoopBuffer K)

theorem leaveBody_closed {K : Part → Bool} {P : State → Prop} {s : State} {k : Nat} (hP : Closed K P) (hK : Foot.leaveBody K
    = true) (hs_s : P s) :
    P (leaveBody s k) := by
  simp only [Foot.leaveBody, Bool.and_eq_true] at hK
  obtain ⟨hK0, hK1⟩ := hK
  unfold leaveBody
  with_reducible repeat' first
    | assumption
    | refine dropQueue_closed hP ?_ ?_
    | refine dropLoopBuffer_closed hP ?_ ?_

theorem leaveBody_get {s : State} {k : Nat} {fld0 : Fld} {i0 j0 : Nat} (hK : Foot.leaveBody (notFld fld0) = true)  :
    (leaveBody s k).get fld0 i0 j0 = s.get fld0 i0 j0 :=
  leaveBody_closed (P := fun x => x.get fld0 i0 j0 = s.get fld0 i0 j0) (field_closed fld0 i0 j0 _) hK  rfl

def Foot.setRc (K : Part → Bool) : Bool := K (.fld .coreRc)

theorem setRc_closed {K : Part → Bool} {P : State → Prop} {s : State} {k : Nat} {v : Int} (hP : Closed K P) (hK : Foot.setRc
    K = true) (hs_s : P s) :
    P (setRc s k v) := by
  simp only [Foot.setRc, Bool.and_eq_true] at hK
  unfold setRc
  with_reducible repeat' first
    | assumption
    | refine hP.put _ _ _ _ _ ?_ ?_

theorem setRc_get {s : State} {k : Nat} {v : Int} {fld0 : Fld} {i0 j0 : Nat} (hK : Foot.setRc (notFld fld0) = true)  : (setRc
    s k v).get fld0 i0 j0 = s.get fld0 i0 j0 :=
  setRc_closed (P := fun x => x.get fld0 i0 j0 = s.get fld0 i0 j0) (field_closed fld0 i0 j0 _) hK  rfl

def Foot.putFlags (K : Part → Bool) : Bool := K (.fld .swDz) && (K (.fld .swSat) && (K (.fld .swN) && (K (.fld .swZ) && (K
    (.fld .swV) && (K (.fld .swC))))))

theorem putFlags_closed {K : Part → Bool} {P : State → Prop} {s : State} {k : Nat} {w : Int} (hP : Closed K P) (hK :
    Foot.putFlags K = true) (hs_s : P s) :
    P (putFlags s k w) := by
  simp only [Foot.putFlags, Bool.and_eq_true] at hK
  obtain ⟨hK0, hK1, hK2, hK3, hK4, hK5⟩ := hK
  unfold putFlags
  with_reducible repeat' first
    | assumption
    | refine hP.put _ _ _ _ _ ?_ ?_

theorem putFlags_get {s : State} {k : Nat} {w : Int} {fld0 : Fld} {i0 j0 : Nat} (hK : Foot.putFlags (notFld fld0) = true)  :
    (putFlags s k w).get fld0 i0 j0 = s.get fld0 i0 j0 :=
  putFlags_closed (P := fun x => x.get fld0 i0 j0 = s.get fld0 i0 j0) (field_closed fld0 i0 j0 _) hK  rfl

def Foot.writeSw (K : Part → Bool) : Bool := K (.fld .swIe) && (K (.fld .swDzt) && (K (.fld .swPriv) && (Foot.putFlags K)))

theorem writeSw_closed {K : Part → Bool} {P : State → Prop} {s : State} {k : Nat} {w : Int} (hP : Closed K P) (hK :
    Foot.writeSw K = true) (hs_s : P s) :
    P (writeSw s k w) := by
  simp only [Foot.writeSw, Bool.and_eq_true] at hK
  obtain ⟨hK0, hK1, hK2, hK3⟩ := hK
  unfold writeSw
  with_reducible repeat' first
    | assumption
    | refine putFlags_closed hP ?_ ?_
    | refine hP.put _ _ _ _ _ ?_ ?_
    | (extract_lets +onlyGivenNames x; apply thenHave (p := P x); (unfold x; clear x); rotate_left 1; (intro hx; clear_value x))
    | (extract_lets +onlyGivenNames x; clear_value x)
    | refine ite_closed ?_ ?_
    | refine res_ite ?_ ?_
    | split

theorem writeSw_get {s : State} {k : Nat} {w : Int} {fld0 : Fld} {i0 j0 : Nat} (hK : Foot.writeSw (notFld fld0) = true)  :
    (writeSw s k w).get fld0 i0 j0 = s.get fld0 i0 j0 :=
  writeSw_closed (P := fun x => x.get fld0 i0 j0 = s.get fld0 i0 j0) (field_closed fld0 i0 j0 _) hK  rfl

def Foot.restoreSw (K : Part → Bool) : Bool := K (.fld .swIe) && (K (.fld .swDzt) && (K (.fld .swPriv) && (Foot.putFlags K)))

theorem restoreSw_closed {K : Part → Bool} {P : State → Prop} {s : State} {k : Nat} {w : Int} (hP : Closed K P) (hK :
    Foot.restoreSw K = true) (hs_s : P s) :
    P (restoreSw s k w) := by
  simp only [Foot.restoreSw, Bool.and_eq_true] at hK
  obtain ⟨hK0, hK1, hK2, hK3⟩ := hK
  unfold restoreSw
  with_reducible repeat' first
    | assumption
    | refine putFlags_closed hP ?_ ?_
    | refine hP.put _ _ _ _ _ ?_ ?_
    | (extract_lets +onlyGivenNames x; apply thenHave (p := P x); (unfold x; clear x); rotate_left 1; (intro hx; clear_value x))
    | (extract_lets +onlyGivenNames x; clear_value x)
    | refine ite_closed ?_ ?_
    | refine res_ite ?_ ?_
    | split

theorem restoreSw_get {s : State} {k : Nat} {w : Int} {fld0 : Fld} {i0 j0 : Nat} (hK : Foot.restoreSw (notFld fld0) = true) 
    : (restoreSw s k w).get fld0 i0 j0 = s.get fld0 i0 j0 :=
  restoreSw_closed (P := fun x => x.get fld0 i0 j0 = s.get fld0 i0 j0) (field_closed fld0 i0 j0 _) hK  rfl

def Foot.putNZ (K : Part → Bool) : Bool := K (.fld .swZ) && (K (.fld .swN))

theorem putNZ_closed {K : Part → Bool} {P : State → Prop} {s : State} {k : Nat} {r : Int} (hP : Closed K P) (hK : Foot.putNZ
    K = true) (hs_s : P s) :
    P (putNZ s k r) := by
  simp only [Foot.putNZ, Bool.and_eq_true] at hK
  obtain ⟨hK0, hK1⟩ := hK
  unfold putNZ
  with_reducible repeat' first
    | assumption
    | refine hP.put _ _ _ _ _ ?_ ?_

theorem putNZ_get {s : State} {k : Nat} {r : Int} {fld0 : Fld} {i0 j0 : Nat} (hK : Foot.putNZ (notFld fld0) = true)  : (putNZ
    s k r).get fld0 i0 j0 = s.get fld0 i0 j0 :=
  putNZ_closed (P := fun x => x.get fld0 i0 j0 = s.get fld0 i0 j0) (field_closed fld0 i0 j0 _) hK  rfl

end Sys2Proof.Machine
end

