-- ==== Sys2Proof/Laws/ClosedFlume.lean ====
section
/-! SUPPORT. What the functions of Machine/Flume.lean can write, and that they keep every closed property (Laws/Closed.lean). -/
namespace Sys2Proof.Machine

set_option Elab.async false
set_option linter.all false

def Foot.refreshRotBusy (K : Part → Bool) : Bool := K (.fld .FL_STATUS_ROTBUSY)

theorem refreshRotBusy_closed {K : Part → Bool} {P : State → Prop} {s : State} (hP : Closed K P) (hK : Foot.refreshRotBusy K
    = true) (hs_s : P s) :
    P (refreshRotBusy s) := by
  simp only [Foot.refreshRotBusy, Bool.and_eq_true] at hK
  unfold refreshRotBusy
  with_reducible repeat' first
    | assumption
    | refine hP.put _ _ _ _ _ ?_ ?_
    | intro _

theorem refreshRotBusy_get {s : State} {fld0 : Fld} {i0 j0 : Nat} (hK : Foot.refreshRotBusy (notFld fld0) = true)  :
    (refreshRotBusy s).get fld0 i0 j0 = s.get fld0 i0 j0 :=
  refreshRotBusy_closed (P := fun x => x.get fld0 i0 j0 = s.get fld0 i0 j0) (field_closed fld0 i0 j0 _) hK  rfl

def Foot.setRotState (K : Part → Bool) : Bool := K (.fld .FL_CLSTAT_RSTATE) && (K (.fld .FL_VGSTAT_RSTATE))

theorem setRotState_closed {K : Part → Bool} {P : State → Prop} {s : State} {g : Nat} {v : Int} (hP : Closed K P) (hK :
    Foot.setRotState K = true) (hs_s : P s) :
    P (setRotState s g v) := by
  simp only [Foot.setRotState, Bool.and_eq_true] at hK
  obtain ⟨hK0, hK1⟩ := hK
  unfold setRotState
  with_reducible repeat' first
    | assumption
    | refine hP.put _ _ _ _ _ ?_ ?_
    | refine ite_closed ?_ ?_
    | split

theorem setRotState_get {s : State} {g : Nat} {v : Int} {fld0 : Fld} {i0 j0 : Nat} (hK : Foot.setRotState (notFld fld0) =
    true)  : (setRotState s g v).get fld0 i0 j0 = s.get fld0 i0 j0 :=
  setRotState_closed (P := fun x => x.get fld0 i0 j0 = s.get fld0 i0 j0) (field_closed fld0 i0 j0 _) hK  rfl

def Foot.deferTo (K : Part → Bool) : Bool := K (.fld .phDefer) && (K (.fld .vDefer))

theorem deferTo_closed {K : Part → Bool} {P : State → Prop} {s : State} {g : Nat} {t : Int} (hP : Closed K P) (hK :
    Foot.deferTo K = true) (hs_s : P s) :
    P (deferTo s g t) := by
  simp only [Foot.deferTo, Bool.and_eq_true] at hK
  obtain ⟨hK0, hK1⟩ := hK
  unfold deferTo
  with_reducible repeat' first
    | assumption
    | refine hP.put _ _ _ _ _ ?_ ?_
    | refine hP.clear ?_ ?_
    | refine hP.raise ?_ ?_
    | refine hP.bump ?_ ?_
    | refine hP.setBits ?_ ?_
    | refine hP.clrBits ?_ ?_
    | refine Closed.when ?_ ?_
    | intro _
    | (extract_lets +onlyGivenNames x; apply thenHave (p := P x); (unfold x; clear x); rotate_left 1; (intro hx; clear_value x))
    | (extract_lets +onlyGivenNames x; clear_value x)
    | (extract_lets +onlyGivenNames x)
    | refine ite_closed ?_ ?_
    | split

theorem deferTo_get {s : State} {g : Nat} {t : Int} {fld0 : Fld} {i0 j0 : Nat} (hK : Foot.deferTo (notFld fld0) = true)  :
    (deferTo s g t).get fld0 i0 j0 = s.get fld0 i0 j0 :=
  deferTo_closed (P := fun x => x.get fld0 i0 j0 = s.get fld0 i0 j0) (field_closed fld0 i0 j0 _) hK  rfl

def Foot.dropStep (K : Part → Bool) : Bool := Foot.setRotState K && (Foot.deferTo K)

theorem dropStep_closed {K : Part → Bool} {P : State → Prop} {s : State} {g : Nat} (hP : Closed K P) (hK : Foot.dropStep K =
    true) (hs_s : P s) :
    P (dropStep s g) := by
  simp only [Foot.dropStep, Bool.and_eq_true] at hK
  obtain ⟨hK0, hK1⟩ := hK
  unfold dropStep
  with_reducible repeat' first
    | assumption
    | refine setRotState_closed hP ?_ ?_
    | refine deferTo_closed hP ?_ ?_

theorem dropStep_get {s : State} {g : Nat} {fld0 : Fld} {i0 j0 : Nat} (hK : Foot.dropStep (notFld fld0) = true)  : (dropStep
    s g).get fld0 i0 j0 = s.get fld0 i0 j0 :=
  dropStep_closed (P := fun x => x.get fld0 i0 j0 = s.get fld0 i0 j0) (field_closed fld0 i0 j0 _) hK  rfl

def Foot.abandonSteps (K : Part → Bool) : Bool := Foot.refreshRotBusy K && (Foot.dropStep K)

theorem abandonSteps_closed {K : Part → Bool} {P : State → Prop} {s : State} (hP : Closed K P) (hK : Foot.abandonSteps K =
    true) (hs_s : P s) :
    P (abandonSteps s) := by
  simp only [Foot.abandonSteps, Bool.and_eq_true] at hK
  obtain ⟨hK0, hK1⟩ := hK
  unfold abandonSteps
  with_reducible repeat' first
    | assumption
    | refine refreshRotBusy_closed hP ?_ ?_
    | refine dropStep_closed hP ?_ ?_
    | refine Closed.each ?_ _ ?_
    | intro _
    | (extract_lets +onlyGivenNames x; apply thenHave (p := P x); (unfold x; clear x); rotate_left 1; (intro hx; clear_value x))
    | (extract_lets +onlyGivenNames x; clear_value x)
    | refine ite_closed ?_ ?_
    | split

theorem abandonSteps_get {s : State} {fld0 : Fld} {i0 j0 : Nat} (hK : Foot.abandonSteps (notFld fld0) = true)  :
    (abandonSteps s).get fld0 i0 j0 = s.get fld0 i0 j0 :=
  abandonSteps_closed (P := fun x => x.get fld0 i0 j0 = s.get fld0 i0 j0) (field_closed fld0 i0 j0 _) hK  rfl

def Foot.setRotPos (K : Part → Bool) : Bool := K (.fld .FL_CLSTAT_POS) && (K (.fld .FL_VGSTAT_POS))

theorem setRotPos_closed {K : Part → Bool} {P : State → Prop} {s : State} {g : Nat} {k : Nat} (hP : Closed K P) (hK :
    Foot.setRotPos K = true) (hs_s : P s) :
    P (setRotPos s g k) := by
  simp only [Foot.setRotPos, Bool.and_eq_true] at hK
  obtain ⟨hK0, hK1⟩ := hK
  unfold setRotPos
  with_reducible repeat' first
    | assumption
    | refine hP.put _ _ _ _ _ ?_ ?_
    | refine ite_closed ?_ ?_
    | split

theorem setRotPos_get {s : State} {g : Nat} {k : Nat} {fld0 : Fld} {i0 j0 : Nat} (hK : Foot.setRotPos (notFld fld0) = true) 
    : (setRotPos s g k).get fld0 i0 j0 = s.get fld0 i0 j0 :=
  setRotPos_closed (P := fun x => x.get fld0 i0 j0 = s.get fld0 i0 j0) (field_closed fld0 i0 j0 _) hK  rfl

def Foot.startRotation (K : Part → Bool) : Bool := K (.fld .rotRetry) && (K (.fld .rotDis) && (K (.fld .rotT0) && (K (.fld
    .rotAny) && (Foot.setRotPos K && (Foot.refreshRotBusy K && (Foot.setRotState K))))))

theorem startRotation_closed {K : Part → Bool} {P : State → Prop} {s : State} {g : Nat} {t0 : Int} (hP : Closed K P) (hK :
    Foot.startRotation K = true) (hs_s : P s) :
    P (startRotation s g t0) := by
  simp only [Foot.startRotation, Bool.and_eq_true] at hK
  obtain ⟨hK0, hK1, hK2, hK3, hK4, hK5, hK6⟩ := hK
  unfold startRotation
  with_reducible repeat' first
    | assumption
    | refine setRotPos_closed hP ?_ ?_
    | refine refreshRotBusy_closed hP ?_ ?_
    | refine setRotState_closed hP ?_ ?_
    | refine hP.put _ _ _ _ _ ?_ ?_
    | refine hP.clear ?_ ?_
    | refine hP.raise ?_ ?_
    | refine hP.bump ?_ ?_
    | refine hP.setBits ?_ ?_
    | refine hP.clrBits ?_ ?_
    | refine Closed.when ?_ ?_
    | intro _
    | (extract_lets +onlyGivenNames x; apply thenHave (p := P x); (unfold x; clear x); rotate_left 1; (intro hx; clear_value x))
    | (extract_lets +onlyGivenNames x; clear_value x)
    | (extract_lets +onlyGivenNames x)
    | refine ite_closed ?_ ?_
    | split

theorem startRotation_get {s : State} {g : Nat} {t0 : Int} {fld0 : Fld} {i0 j0 : Nat} (hK : Foot.startRotation (notFld fld0)
    = true)  : (startRotation s g t0).get fld0 i0 j0 = s.get fld0 i0 j0 :=
  startRotation_closed (P := fun x => x.get fld0 i0 j0 = s.get fld0 i0 j0) (field_closed fld0 i0 j0 _) hK  rfl

def Foot.rotationStep (K : Part → Bool) : Bool := K (.fld .FL_ROTCTL_TGT) && (K (.fld .FL_STATUS_CFGERR) &&
    (Foot.startRotation K))

theorem rotationStep_closed {K : Part → Bool} {P : State → Prop} {s : State} {g : Nat} (hP : Closed K P) (hK :
    Foot.rotationStep K = true) (hs_s : P s) :
    P (rotationStep s g) := by
  simp only [Foot.rotationStep, Bool.and_eq_true] at hK
  obtain ⟨hK0, hK1, hK2⟩ := hK
  unfold rotationStep
  with_reducible repeat' first
    | assumption
    | refine startRotation_closed hP ?_ ?_
    | refine hP.put _ _ _ _ _ ?_ ?_
    | refine hP.raise ?_ ?_
    | (extract_lets +onlyGivenNames x; apply thenHave (p := P x); (unfold x; clear x); rotate_left 1; (intro hx; clear_value x))
    | (extract_lets +onlyGivenNames x; clear_value x)
    | refine ite_closed ?_ ?_
    | split

theorem rotationStep_get {s : State} {g : Nat} {fld0 : Fld} {i0 j0 : Nat} (hK : Foot.rotationStep (notFld fld0) = true)  :
    (rotationStep s g).get fld0 i0 j0 = s.get fld0 i0 j0 :=
  rotationStep_closed (P := fun x => x.get fld0 i0 j0 = s.get fld0 i0 j0) (field_closed fld0 i0 j0 _) hK  rfl

def Foot.markFailed (K : Part → Bool) : Bool := K (.fld .FL_CLFAIL) && (K (.fld .FL_VFAIL))

theorem markFailed_closed {K : Part → Bool} {P : State → Prop} {s : State} {g : Nat} {n : Nat} (hP : Closed K P) (hK :
    Foot.markFailed K = true) (hs_s : P s) :
    P (markFailed s g n) := by
  simp only [Foot.markFailed, Bool.and_eq_true] at hK
  obtain ⟨hK0, hK1⟩ := hK
  unfold markFailed
  with_reducible repeat' first
    | assumption
    | refine hP.setBits ?_ ?_
    | refine ite_closed ?_ ?_
    | split

theorem markFailed_get {s : State} {g : Nat} {n : Nat} {fld0 : Fld} {i0 j0 : Nat} (hK : Foot.markFailed (notFld fld0) = true)
     : (markFailed s g n).get fld0 i0 j0 = s.get fld0 i0 j0 :=
  markFailed_closed (P := fun x => x.get fld0 i0 j0 = s.get fld0 i0 j0) (field_closed fld0 i0 j0 _) hK  rfl

def Foot.requestRetire (K : Part → Bool) : Bool := K (.fld .retReq)

theorem requestRetire_closed {K : Part → Bool} {P : State → Prop} {s : State} {p : Nat} {cause : Nat} (hP : Closed K P) (hK :
    Foot.requestRetire K = true) (hs_s : P s) :
    P (requestRetire s p cause) := by
  simp only [Foot.requestRetire, Bool.and_eq_true] at hK
  unfold requestRetire
  with_reducible repeat' first
    | assumption
    | refine hP.setBits ?_ ?_

theorem requestRetire_get {s : State} {p : Nat} {cause : Nat} {fld0 : Fld} {i0 j0 : Nat} (hK : Foot.requestRetire (notFld
    fld0) = true)  : (requestRetire s p cause).get fld0 i0 j0 = s.get fld0 i0 j0 :=
  requestRetire_closed (P := fun x => x.get fld0 i0 j0 = s.get fld0 i0 j0) (field_closed fld0 i0 j0 _) hK  rfl

def Foot.setSlice (K : Part → Bool) : Bool := K (.fld .FL_CLMAP)

theorem setSlice_closed {K : Part → Bool} {P : State → Prop} {s : State} {c : Nat} {k : Nat} {v : Int} (hP : Closed K P) (hK
    : Foot.setSlice K = true) (hs_s : P s) :
    P (setSlice s c k v) := by
  simp only [Foot.setSlice, Bool.and_eq_true] at hK
  unfold setSlice
  with_reducible repeat' first
    | assumption
    | refine hP.put _ _ _ _ _ ?_ ?_

theorem setSlice_get {s : State} {c : Nat} {k : Nat} {v : Int} {fld0 : Fld} {i0 j0 : Nat} (hK : Foot.setSlice (notFld fld0) =
    true)  : (setSlice s c k v).get fld0 i0 j0 = s.get fld0 i0 j0 :=
  setSlice_closed (P := fun x => x.get fld0 i0 j0 = s.get fld0 i0 j0) (field_closed fld0 i0 j0 _) hK  rfl

def Foot.loseSpare (K : Part → Bool) : Bool := K (.fld .FL_CLSTAT_NOSPARE) && (K (.fld .FL_CLSTAT_SPARE) && (K (.fld
    .FL_VGSTAT_NOSPARE) && (K (.fld .FL_VGSTAT_SPARE) && (Foot.refreshRotBusy K && (Foot.setRotState K)))))

theorem loseSpare_closed {K : Part → Bool} {P : State → Prop} {s : State} {g : Nat} (hP : Closed K P) (hK : Foot.loseSpare K
    = true) (hs_s : P s) :
    P (loseSpare s g) := by
  simp only [Foot.loseSpare, Bool.and_eq_true] at hK
  obtain ⟨hK0, hK1, hK2, hK3, hK4, hK5⟩ := hK
  unfold loseSpare
  with_reducible repeat' first
    | assumption
    | refine refreshRotBusy_closed hP ?_ ?_
    | refine setRotState_closed hP ?_ ?_
    | refine hP.put _ _ _ _ _ ?_ ?_
    | refine hP.raise ?_ ?_
    | (extract_lets +onlyGivenNames x; apply thenHave (p := P x); (unfold x; clear x); rotate_left 1; (intro hx; clear_value x))
    | (extract_lets +onlyGivenNames x; clear_value x)
    | refine ite_closed ?_ ?_
    | split

theorem loseSpare_get {s : State} {g : Nat} {fld0 : Fld} {i0 j0 : Nat} (hK : Foot.loseSpare (notFld fld0) = true)  :
    (loseSpare s g).get fld0 i0 j0 = s.get fld0 i0 j0 :=
  loseSpare_closed (P := fun x => x.get fld0 i0 j0 = s.get fld0 i0 j0) (field_closed fld0 i0 j0 _) hK  rfl

def Foot.failConverter (K : Part → Bool) : Bool := K (.fld .FL_PHFLAG_SLFAIL) && (K (.fld .FL_VFLAG_CVFAIL) && (K (.fld
    .FL_VCONV) && (Foot.refreshRotBusy K && (Foot.dropStep K && (Foot.markFailed K && (Foot.requestRetire K && (Foot.setSlice
    K && (Foot.loseSpare K))))))))

theorem failConverter_closed {K : Part → Bool} {P : State → Prop} {s : State} {g : Nat} {k : Nat} (hP : Closed K P) (hK :
    Foot.failConverter K = true) (hs_s : P s) :
    P (failConverter s g k) := by
  simp only [Foot.failConverter, Bool.and_eq_true] at hK
  obtain ⟨hK0, hK1, hK2, hK3, hK4, hK5, hK6, hK7, hK8⟩ := hK
  unfold failConverter
  with_reducible repeat' first
    | assumption
    | refine refreshRotBusy_closed hP ?_ ?_
    | refine dropStep_closed hP ?_ ?_
    | refine markFailed_closed hP ?_ ?_
    | refine requestRetire_closed hP ?_ ?_
    | refine setSlice_closed hP ?_ ?_
    | refine loseSpare_closed hP ?_ ?_
    | refine hP.put _ _ _ _ _ ?_ ?_
    | refine hP.raise ?_ ?_
    | (extract_lets +onlyGivenNames x; apply thenHave (p := P x); (unfold x; clear x); rotate_left 1; (intro hx; clear_value x))
    | (extract_lets +onlyGivenNames x; clear_value x)
    | refine ite_closed ?_ ?_
    | split

theorem failConverter_get {s : State} {g : Nat} {k : Nat} {fld0 : Fld} {i0 j0 : Nat} (hK : Foot.failConverter (notFld fld0) =
    true)  : (failConverter s g k).get fld0 i0 j0 = s.get fld0 i0 j0 :=
  failConverter_closed (P := fun x => x.get fld0 i0 j0 = s.get fld0 i0 j0) (field_closed fld0 i0 j0 _) hK  rfl

def Foot.declareConverter (K : Part → Bool) : Bool := K (.fld .FL_SUBCTL_KIND) && (K (.fld .FL_SUBCTL_IDX) && (K (.fld
    .FL_STATUS_CFGERR) && (Foot.failConverter K)))

theorem declareConverter_closed {K : Part → Bool} {P : State → Prop} {s : State} {idx : Nat} {isRail : Bool} (hP : Closed K
    P) (hK : Foot.declareConverter K = true) (hs_s : P s) :
    P (declareConverter s idx isRail) := by
  simp only [Foot.declareConverter, Bool.and_eq_true] at hK
  obtain ⟨hK0, hK1, hK2, hK3⟩ := hK
  unfold declareConverter
  with_reducible repeat' first
    | assumption
    | refine failConverter_closed hP ?_ ?_
    | refine hP.put _ _ _ _ _ ?_ ?_
    | refine hP.raise ?_ ?_
    | (extract_lets +onlyGivenNames x; apply thenHave (p := P x); (unfold x; clear x); rotate_left 1; (intro hx; clear_value x))
    | (extract_lets +onlyGivenNames x; clear_value x)
    | refine ite_closed ?_ ?_
    | split

theorem declareConverter_get {s : State} {idx : Nat} {isRail : Bool} {fld0 : Fld} {i0 j0 : Nat} (hK : Foot.declareConverter
    (notFld fld0) = true)  : (declareConverter s idx isRail).get fld0 i0 j0 = s.get fld0 i0 j0 :=
  declareConverter_closed (P := fun x => x.get fld0 i0 j0 = s.get fld0 i0 j0) (field_closed fld0 i0 j0 _) hK  rfl

def Foot.automaticRotation (K : Part → Bool) : Bool := Foot.startRotation K

theorem automaticRotation_closed {K : Part → Bool} {P : State → Prop} {s : State} (hP : Closed K P) (hK :
    Foot.automaticRotation K = true) (hs_s : P s) :
    P (automaticRotation s) := by
  simp only [Foot.automaticRotation, Bool.and_eq_true] at hK
  unfold automaticRotation
  with_reducible repeat' first
    | assumption
    | refine startRotation_closed hP ?_ ?_
    | refine Closed.each ?_ _ ?_
    | intro _
    | refine ite_closed ?_ ?_
    | split

theorem automaticRotation_get {s : State} {fld0 : Fld} {i0 j0 : Nat} (hK : Foot.automaticRotation (notFld fld0) = true)  :
    (automaticRotation s).get fld0 i0 j0 = s.get fld0 i0 j0 :=
  automaticRotation_closed (P := fun x => x.get fld0 i0 j0 = s.get fld0 i0 j0) (field_closed fld0 i0 j0 _) hK  rfl

def Foot.auxResult (K : Part → Bool) : Bool := K (.fld .auxStuckCnt) && (K (.fld .auxStuckCode) && (K (.fld .FL_AUXRES) && (K
    (.fld .vinValid) && (K (.fld .vin) && (Foot.flagPub K && (K (.fld .FL_AUXFLAG_TRIMSAT) && (K (.fld
    .FL_AUXFLAG_RANGE))))))))

theorem auxResult_closed {K : Part → Bool} {P : State → Prop} {s : State} {a : Nat} {codes : List Int} (hP : Closed K P) (hK
    : Foot.auxResult K = true) (hs_s : P s) :
    P (auxResult s a codes) := by
  simp only [Foot.auxResult, Bool.and_eq_true] at hK
  obtain ⟨hK0, hK1, hK2, hK3, hK4, hK5, hK6, hK7⟩ := hK
  unfold auxResult
  with_reducible repeat' first
    | assumption
    | refine flagPub_closed hP ?_ ?_ ?_
    | refine hP.put _ _ _ _ _ ?_ ?_
    | refine hP.raise ?_ ?_
    | refine hP.bump ?_ ?_
    | refine Closed.each ?_ _ ?_
    | refine Closed.when ?_ ?_
    | intro _
    | (extract_lets +onlyGivenNames x; apply thenHave (p := P x); (unfold x; clear x); rotate_left 1; (intro hx; clear_value x))
    | (extract_lets +onlyGivenNames x; clear_value x)
    | refine ite_closed ?_ ?_
    | split

theorem auxResult_get {s : State} {a : Nat} {codes : List Int} {fld0 : Fld} {i0 j0 : Nat} (hK : Foot.auxResult (notFld fld0)
    = true)  : (auxResult s a codes).get fld0 i0 j0 = s.get fld0 i0 j0 :=
  auxResult_closed (P := fun x => x.get fld0 i0 j0 = s.get fld0 i0 j0) (field_closed fld0 i0 j0 _) hK  rfl

def Foot.failSpare (K : Part → Bool) : Bool := K (.fld .rotRetry) && (Foot.loseSpare K && (Foot.markFailed K))

theorem failSpare_closed {K : Part → Bool} {P : State → Prop} {s : State} {g : Nat} (hP : Closed K P) (hK : Foot.failSpare K
    = true) (hs_s : P s) :
    P (failSpare s g) := by
  simp only [Foot.failSpare, Bool.and_eq_true] at hK
  obtain ⟨hK0, hK1, hK2⟩ := hK
  unfold failSpare
  with_reducible repeat' first
    | assumption
    | refine loseSpare_closed hP ?_ ?_
    | refine markFailed_closed hP ?_ ?_
    | refine hP.clear ?_ ?_

theorem failSpare_get {s : State} {g : Nat} {fld0 : Fld} {i0 j0 : Nat} (hK : Foot.failSpare (notFld fld0) = true)  :
    (failSpare s g).get fld0 i0 j0 = s.get fld0 i0 j0 :=
  failSpare_closed (P := fun x => x.get fld0 i0 j0 = s.get fld0 i0 j0) (field_closed fld0 i0 j0 _) hK  rfl

def Foot.calibrationDone (K : Part → Bool) : Bool := Foot.setRotState K && (Foot.failSpare K)

theorem calibrationDone_closed {K : Part → Bool} {P : State → Prop} {s : State} {g : Nat} {good : Bool} (hP : Closed K P) (hK
    : Foot.calibrationDone K = true) (hs_s : P s) :
    P (calibrationDone s g good) := by
  simp only [Foot.calibrationDone, Bool.and_eq_true] at hK
  obtain ⟨hK0, hK1⟩ := hK
  unfold calibrationDone
  with_reducible repeat' first
    | assumption
    | refine setRotState_closed hP ?_ ?_
    | refine failSpare_closed hP ?_ ?_
    | refine ite_closed ?_ ?_
    | split

theorem calibrationDone_get {s : State} {g : Nat} {good : Bool} {fld0 : Fld} {i0 j0 : Nat} (hK : Foot.calibrationDone (notFld
    fld0) = true)  : (calibrationDone s g good).get fld0 i0 j0 = s.get fld0 i0 j0 :=
  calibrationDone_closed (P := fun x => x.get fld0 i0 j0 = s.get fld0 i0 j0) (field_closed fld0 i0 j0 _) hK  rfl

def Foot.channelStuck (K : Part → Bool) : Bool := Foot.flagPub K && (K (.fld .FL_PHFLAG_STUCK) && (K (.fld .FL_VFLAG_STUCK)
    && (K (.fld .FL_AUXFLAG_STUCK) && (K (.fld .FL_TMFLAG_STUCK)))))

theorem channelStuck_closed {K : Part → Bool} {P : State → Prop} {s : State} {y1 : SenseChannel} (hP : Closed K P) (hK :
    Foot.channelStuck K = true) (hs_s : P s) :
    P (channelStuck s y1) := by
  simp only [Foot.channelStuck, Bool.and_eq_true] at hK
  obtain ⟨hK0, hK1, hK2, hK3, hK4⟩ := hK
  unfold channelStuck
  with_reducible repeat' first
    | assumption
    | refine flagPub_closed hP ?_ ?_ ?_
    | refine Closed.when ?_ ?_
    | intro _
    | (extract_lets +onlyGivenNames x; apply thenHave (p := P x); (unfold x; clear x); rotate_left 1; (intro hx; clear_value x))
    | (extract_lets +onlyGivenNames x; clear_value x)
    | (extract_lets +onlyGivenNames x)
    | refine ite_closed ?_ ?_
    | split

theorem channelStuck_get {s : State} {y1 : SenseChannel} {fld0 : Fld} {i0 j0 : Nat} (hK : Foot.channelStuck (notFld fld0) =
    true)  : (channelStuck s y1).get fld0 i0 j0 = s.get fld0 i0 j0 :=
  channelStuck_closed (P := fun x => x.get fld0 i0 j0 = s.get fld0 i0 j0) (field_closed fld0 i0 j0 _) hK  rfl

def Foot.shadowEnd (K : Part → Bool) : Bool := Foot.setRotState K

theorem shadowEnd_closed {K : Part → Bool} {P : State → Prop} {s : State} {n : Int} {g : Nat} (hP : Closed K P) (hK :
    Foot.shadowEnd K = true) (hs_s : P s) :
    P (shadowEnd s n g) := by
  simp only [Foot.shadowEnd, Bool.and_eq_true] at hK
  unfold shadowEnd
  with_reducible repeat' first
    | assumption
    | refine setRotState_closed hP ?_ ?_
    | refine Closed.when ?_ ?_
    | intro _
    | (extract_lets +onlyGivenNames x; apply thenHave (p := P x); (unfold x; clear x); rotate_left 1; (intro hx; clear_value x))
    | (extract_lets +onlyGivenNames x; clear_value x)
    | (extract_lets +onlyGivenNames x)
    | refine ite_closed ?_ ?_
    | split

theorem shadowEnd_get {s : State} {n : Int} {g : Nat} {fld0 : Fld} {i0 j0 : Nat} (hK : Foot.shadowEnd (notFld fld0) = true) 
    : (shadowEnd s n g).get fld0 i0 j0 = s.get fld0 i0 j0 :=
  shadowEnd_closed (P := fun x => x.get fld0 i0 j0 = s.get fld0 i0 j0) (field_closed fld0 i0 j0 _) hK  rfl

def Foot.shadowTick (K : Part → Bool) : Bool := K (.fld .rotDis)

theorem shadowTick_closed {K : Part → Bool} {P : State → Prop} {s : State} {inp : TickInput} {n : Int} {g : Nat} (hP : Closed
    K P) (hK : Foot.shadowTick K = true) (hs_s : P s) :
    P (shadowTick s inp n g) := by
  simp only [Foot.shadowTick, Bool.and_eq_true] at hK
  unfold shadowTick
  with_reducible repeat' first
    | assumption
    | refine hP.bump ?_ ?_
    | intro _
    | (extract_lets +onlyGivenNames x; apply thenHave (p := P x); (unfold x; clear x); rotate_left 1; (intro hx; clear_value x))
    | (extract_lets +onlyGivenNames x; clear_value x)
    | refine ite_closed ?_ ?_
    | split

theorem shadowTick_get {s : State} {inp : TickInput} {n : Int} {g : Nat} {fld0 : Fld} {i0 j0 : Nat} (hK : Foot.shadowTick
    (notFld fld0) = true)  : (shadowTick s inp n g).get fld0 i0 j0 = s.get fld0 i0 j0 :=
  shadowTick_closed (P := fun x => x.get fld0 i0 j0 = s.get fld0 i0 j0) (field_closed fld0 i0 j0 _) hK  rfl

def Foot.countStuck (K : Part → Bool) : Bool := true

theorem countStuck_closed {K : Part → Bool} {P : State → Prop} {s : State} {code : Fld} {cnt : Fld} {ch : Nat} {l : List Int}
    (hP : Closed K P) (hK : Foot.countStuck K = true) (hK_code : K (.fld code) = true) (hK_cnt : K (.fld cnt) = true) (hs_s :
    P s) :
    P (countStuck s code cnt ch l) := by
  unfold countStuck
  with_reducible repeat' first
    | assumption
    | refine hP.put _ _ _ _ _ ?_ ?_
    | refine hP.clear ?_ ?_
    | refine hP.bump ?_ ?_
    | refine ite_closed ?_ ?_
    | split

theorem countStuck_get {s : State} {code : Fld} {cnt : Fld} {ch : Nat} {l : List Int} {fld0 : Fld} {i0 j0 : Nat} (hK :
    Foot.countStuck (notFld fld0) = true) (hg_code : (decide (code = fld0)) = false) (hg_cnt : (decide (cnt = fld0)) = false)
    : (countStuck s code cnt ch l).get fld0 i0 j0 = s.get fld0 i0 j0 :=
  countStuck_closed (P := fun x => x.get fld0 i0 j0 = s.get fld0 i0 j0) (field_closed fld0 i0 j0 _) hK (notFld_true hg_code) (notFld_true hg_cnt) rfl

def Foot.currentWindow (K : Part → Bool) : Bool := K (.fld .FL_PHFLAG_HOLD) && (K (.fld .phHold) && (K (.fld .FL_PHMEAN) &&
    (K (.fld .FL_PHLAST) && (K (.fld .FL_PHMIN) && (K (.fld .FL_PHMAX) && (K (.fld .ripMin) && (K (.fld .ripMax) &&
    (Foot.flagPub K && (Foot.countStuck K && (K (.fld .FL_PHFLAG_TRIMSAT) && (K (.fld .FL_PHFLAG_CLIP) && (K (.fld
    .phStuckCode) && (K (.fld .phStuckCnt))))))))))))))

theorem currentWindow_closed {K : Part → Bool} {P : State → Prop} {s : State} {inp : TickInput} {p : Nat} (hP : Closed K P)
    (hK : Foot.currentWindow K = true) (hs_s : P s) :
    P (currentWindow s inp p) := by
  simp only [Foot.currentWindow, Bool.and_eq_true] at hK
  obtain ⟨hK0, hK1, hK2, hK3, hK4, hK5, hK6, hK7, hK8, hK9, hK10, hK11, hK12, hK13⟩ := hK
  unfold currentWindow
  with_reducible repeat' first
    | assumption
    | refine flagPub_closed hP ?_ ?_ ?_
    | refine countStuck_closed hP ?_ ?_ ?_ ?_
    | refine hP.put _ _ _ _ _ ?_ ?_
    | refine hP.clear ?_ ?_
    | refine hP.raise ?_ ?_
    | refine Closed.when ?_ ?_
    | intro _
    | (extract_lets +onlyGivenNames x; apply thenHave (p := P x); (unfold x; clear x); rotate_left 1; (intro hx; clear_value x))
    | (extract_lets +onlyGivenNames x; clear_value x)
    | refine ite_closed ?_ ?_
    | split

theorem currentWindow_get {s : State} {inp : TickInput} {p : Nat} {fld0 : Fld} {i0 j0 : Nat} (hK : Foot.currentWindow (notFld
    fld0) = true)  : (currentWindow s inp p).get fld0 i0 j0 = s.get fld0 i0 j0 :=
  currentWindow_closed (P := fun x => x.get fld0 i0 j0 = s.get fld0 i0 j0) (field_closed fld0 i0 j0 _) hK  rfl

def Foot.voltageWindow (K : Part → Bool) : Bool := K (.fld .FL_VMAX) && (K (.fld .FL_VMIN) && (K (.fld .FL_VLAST) && (K (.fld
    .FL_VMEAN) && (K (.fld .FL_VFLAG_HOLD) && (K (.fld .FL_VWREF) && (K (.fld .vHold) && (Foot.flagPub K && (Foot.countStuck
    K && (K (.fld .FL_VFLAG_CLIP) && (K (.fld .vStuckCode) && (K (.fld .vStuckCnt))))))))))))

theorem voltageWindow_closed {K : Part → Bool} {P : State → Prop} {s : State} {inp : TickInput} {r : Nat} (hP : Closed K P)
    (hK : Foot.voltageWindow K = true) (hs_s : P s) :
    P (voltageWindow s inp r) := by
  simp only [Foot.voltageWindow, Bool.and_eq_true] at hK
  obtain ⟨hK0, hK1, hK2, hK3, hK4, hK5, hK6, hK7, hK8, hK9, hK10, hK11⟩ := hK
  unfold voltageWindow
  with_reducible repeat' first
    | assumption
    | refine flagPub_closed hP ?_ ?_ ?_
    | refine countStuck_closed hP ?_ ?_ ?_ ?_
    | refine hP.put _ _ _ _ _ ?_ ?_
    | refine hP.clear ?_ ?_
    | refine hP.raise ?_ ?_
    | refine Closed.when ?_ ?_
    | intro _
    | (extract_lets +onlyGivenNames x; apply thenHave (p := P x); (unfold x; clear x); rotate_left 1; (intro hx; clear_value x))
    | (extract_lets +onlyGivenNames x; clear_value x)
    | refine ite_closed ?_ ?_
    | split

theorem voltageWindow_get {s : State} {inp : TickInput} {r : Nat} {fld0 : Fld} {i0 j0 : Nat} (hK : Foot.voltageWindow (notFld
    fld0) = true)  : (voltageWindow s inp r).get fld0 i0 j0 = s.get fld0 i0 j0 :=
  voltageWindow_closed (P := fun x => x.get fld0 i0 j0 = s.get fld0 i0 j0) (field_closed fld0 i0 j0 _) hK  rfl

def Foot.flumeTick (K : Part → Bool) : Bool := Foot.shadowEnd K && (Foot.shadowTick K && (Foot.currentWindow K &&
    (Foot.voltageWindow K)))

theorem flumeTick_closed {K : Part → Bool} {P : State → Prop} {s : State} {inp : TickInput} {n : Int} (hP : Closed K P) (hK :
    Foot.flumeTick K = true) (hs_s : P s) :
    P (flumeTick s inp n) := by
  simp only [Foot.flumeTick, Bool.and_eq_true] at hK
  obtain ⟨hK0, hK1, hK2, hK3⟩ := hK
  unfold flumeTick
  with_reducible repeat' first
    | assumption
    | refine shadowEnd_closed hP ?_ ?_
    | refine shadowTick_closed hP ?_ ?_
    | refine currentWindow_closed hP ?_ ?_
    | refine voltageWindow_closed hP ?_ ?_
    | refine Closed.each ?_ _ ?_
    | intro _
    | (extract_lets +onlyGivenNames x; apply thenHave (p := P x); (unfold x; clear x); rotate_left 1; (intro hx; clear_value x))
    | (extract_lets +onlyGivenNames x; clear_value x)
    | refine ite_closed ?_ ?_
    | split

theorem flumeTick_get {s : State} {inp : TickInput} {n : Int} {fld0 : Fld} {i0 j0 : Nat} (hK : Foot.flumeTick (notFld fld0) =
    true)  : (flumeTick s inp n).get fld0 i0 j0 = s.get fld0 i0 j0 :=
  flumeTick_closed (P := fun x => x.get fld0 i0 j0 = s.get fld0 i0 j0) (field_closed fld0 i0 j0 _) hK  rfl

def Foot.converterSubstitution (K : Part → Bool) : Bool := Foot.failConverter K

theorem converterSubstitution_closed {K : Part → Bool} {P : State → Prop} {s : State} {ch : SenseChannel} (hP : Closed K P)
    (hK : Foot.converterSubstitution K = true) (hs_s : P s) :
    P (converterSubstitution s ch) := by
  simp only [Foot.converterSubstitution, Bool.and_eq_true] at hK
  unfold converterSubstitution
  with_reducible repeat' first
    | assumption
    | refine failConverter_closed hP ?_ ?_
    | (extract_lets +onlyGivenNames x; apply thenHave (p := P x); (unfold x; clear x); rotate_left 1; (intro hx; clear_value x))
    | (extract_lets +onlyGivenNames x; clear_value x)
    | refine ite_closed ?_ ?_
    | split

theorem converterSubstitution_get {s : State} {ch : SenseChannel} {fld0 : Fld} {i0 j0 : Nat} (hK : Foot.converterSubstitution
    (notFld fld0) = true)  : (converterSubstitution s ch).get fld0 i0 j0 = s.get fld0 i0 j0 :=
  converterSubstitution_closed (P := fun x => x.get fld0 i0 j0 = s.get fld0 i0 j0) (field_closed fld0 i0 j0 _) hK  rfl

def Foot.judgeOpen (K : Part → Bool) : Bool := Foot.flagPub K

theorem judgeOpen_closed {K : Part → Bool} {P : State → Prop} {s : State} {cnt : Fld} {flag : Fld} {ch : Nat} {h : Nat}
    {failed : Bool} (hP : Closed K P) (hK : Foot.judgeOpen K = true) (hK_cnt : K (.fld cnt) = true) (hK_flag : K (.fld flag)
    = true) (hs_s : P s) :
    P (judgeOpen s cnt flag ch h failed) := by
  simp only [Foot.judgeOpen, Bool.and_eq_true] at hK
  unfold judgeOpen
  with_reducible repeat' first
    | assumption
    | refine flagPub_closed hP ?_ ?_ ?_
    | refine hP.clear ?_ ?_
    | refine hP.bump ?_ ?_
    | refine Closed.when ?_ ?_
    | intro _
    | (extract_lets +onlyGivenNames x; apply thenHave (p := P x); (unfold x; clear x); rotate_left 1; (intro hx; clear_value x))
    | (extract_lets +onlyGivenNames x; clear_value x)
    | refine ite_closed ?_ ?_
    | split

theorem judgeOpen_get {s : State} {cnt : Fld} {flag : Fld} {ch : Nat} {h : Nat} {failed : Bool} {fld0 : Fld} {i0 j0 : Nat}
    (hK : Foot.judgeOpen (notFld fld0) = true) (hg_cnt : (decide (cnt = fld0)) = false) (hg_flag : (decide (flag = fld0)) =
    false) : (judgeOpen s cnt flag ch h failed).get fld0 i0 j0 = s.get fld0 i0 j0 :=
  judgeOpen_closed (P := fun x => x.get fld0 i0 j0 = s.get fld0 i0 j0) (field_closed fld0 i0 j0 _) hK (notFld_true hg_cnt) (notFld_true hg_flag) rfl

def Foot.currentInjectionTest (K : Part → Bool) : Bool := K (.fld .phDefer) && (K (.fld .phHold) && (Foot.judgeOpen K && (K
    (.fld .openFail) && (K (.fld .FL_PHFLAG_OPEN)))))

theorem currentInjectionTest_closed {K : Part → Bool} {P : State → Prop} {s : State} {p : Nat} {codes : List Int} (hP :
    Closed K P) (hK : Foot.currentInjectionTest K = true) (hs_s : P s) :
    P (currentInjectionTest s p codes) := by
  simp only [Foot.currentInjectionTest, Bool.and_eq_true] at hK
  obtain ⟨hK0, hK1, hK2, hK3, hK4⟩ := hK
  unfold currentInjectionTest
  with_reducible repeat' first
    | assumption
    | refine judgeOpen_closed hP ?_ ?_ ?_ ?_
    | refine hP.put _ _ _ _ _ ?_ ?_
    | refine hP.clear ?_ ?_
    | refine hP.raise ?_ ?_
    | (extract_lets +onlyGivenNames x; apply thenHave (p := P x); (unfold x; clear x); rotate_left 1; (intro hx; clear_value x))
    | (extract_lets +onlyGivenNames x; clear_value x)
    | refine ite_closed ?_ ?_
    | split

theorem currentInjectionTest_get {s : State} {p : Nat} {codes : List Int} {fld0 : Fld} {i0 j0 : Nat} (hK :
    Foot.currentInjectionTest (notFld fld0) = true)  : (currentInjectionTest s p codes).get fld0 i0 j0 = s.get fld0 i0 j0 :=
  currentInjectionTest_closed (P := fun x => x.get fld0 i0 j0 = s.get fld0 i0 j0) (field_closed fld0 i0 j0 _) hK  rfl

def Foot.execAuxResult (K : Part → Bool) : Bool := Foot.auxResult K

theorem execAuxResult_closed {K : Part → Bool} {P : State → Prop} {a : Fin 8} {codes : List (BitVec 12)} {s : State} (hP :
    Closed K P) (hK : Foot.execAuxResult K = true) (hs_s : P s) :
    OutAll P (execAuxResult a codes s) := by
  simp only [Foot.execAuxResult, Bool.and_eq_true] at hK
  unfold execAuxResult
  with_reducible repeat' first
    | assumption
    | refine auxResult_closed hP ?_ ?_
    | refine OutAll.mk ?_
    | intro _

def Foot.execCalibrationDone (K : Part → Bool) : Bool := Foot.calibrationDone K

theorem execCalibrationDone_closed {K : Part → Bool} {P : State → Prop} {g : Fin 18} {good : Bool} {s : State} (hP : Closed K
    P) (hK : Foot.execCalibrationDone K = true) (hs_s : P s) :
    OutAll P (execCalibrationDone g good s) := by
  simp only [Foot.execCalibrationDone, Bool.and_eq_true] at hK
  unfold execCalibrationDone
  with_reducible repeat' first
    | assumption
    | refine calibrationDone_closed hP ?_ ?_
    | refine OutAll.mk ?_

def Foot.execChannelStuck (K : Part → Bool) : Bool := Foot.channelStuck K

theorem execChannelStuck_closed {K : Part → Bool} {P : State → Prop} {ch : SenseChannel} {s : State} (hP : Closed K P) (hK :
    Foot.execChannelStuck K = true) (hs_s : P s) :
    OutAll P (execChannelStuck ch s) := by
  simp only [Foot.execChannelStuck, Bool.and_eq_true] at hK
  unfold execChannelStuck
  with_reducible repeat' first
    | assumption
    | refine channelStuck_closed hP ?_ ?_
    | refine OutAll.mk ?_

def Foot.execConverterSubstitution (K : Part → Bool) : Bool := Foot.converterSubstitution K

theorem execConverterSubstitution_closed {K : Part → Bool} {P : State → Prop} {ch : SenseChannel} {s : State} (hP : Closed K
    P) (hK : Foot.execConverterSubstitution K = true) (hs_s : P s) :
    OutAll P (execConverterSubstitution ch s) := by
  simp only [Foot.execConverterSubstitution, Bool.and_eq_true] at hK
  unfold execConverterSubstitution
  with_reducible repeat' first
    | assumption
    | refine converterSubstitution_closed hP ?_ ?_
    | refine OutAll.mk ?_

def Foot.execCurrentInjectionTest (K : Part → Bool) : Bool := Foot.currentInjectionTest K

theorem execCurrentInjectionTest_closed {K : Part → Bool} {P : State → Prop} {p : Phase} {codes : List Int} {s : State} (hP :
    Closed K P) (hK : Foot.execCurrentInjectionTest K = true) (hs_s : P s) :
    OutAll P (execCurrentInjectionTest p codes s) := by
  simp only [Foot.execCurrentInjectionTest, Bool.and_eq_true] at hK
  unfold execCurrentInjectionTest
  with_reducible repeat' first
    | assumption
    | refine currentInjectionTest_closed hP ?_ ?_
    | refine OutAll.mk ?_

def Foot.execDeclareConverterFailed (K : Part → Bool) : Bool := Foot.declareConverter K

theorem execDeclareConverterFailed_closed {K : Part → Bool} {P : State → Prop} {idx : Fin 128} {kind : Bool} {s : State} (hP
    : Closed K P) (hK : Foot.execDeclareConverterFailed K = true) (hs_s : P s) :
    OutAll P (execDeclareConverterFailed idx kind s) := by
  simp only [Foot.execDeclareConverterFailed, Bool.and_eq_true] at hK
  unfold execDeclareConverterFailed
  with_reducible repeat' first
    | assumption
    | refine declareConverter_closed hP ?_ ?_
    | refine OutAll.mk ?_

def Foot.flumeStartupCal (K : Part → Bool) : Bool := K (.fld .FL_STATUS_RDY) && (Foot.failSpare K && (Foot.failConverter K))

theorem flumeStartupCal_closed {K : Part → Bool} {P : State → Prop} {s : State} {slices : List (Nat × Nat)} {convs : List
    Nat} (hP : Closed K P) (hK : Foot.flumeStartupCal K = true) (hs_s : P s) :
    P (flumeStartupCal s slices convs) := by
  simp only [Foot.flumeStartupCal, Bool.and_eq_true] at hK
  obtain ⟨hK0, hK1, hK2⟩ := hK
  unfold flumeStartupCal
  with_reducible repeat' first
    | assumption
    | refine failSpare_closed hP ?_ ?_
    | refine failConverter_closed hP ?_ ?_
    | refine hP.raise ?_ ?_
    | refine Closed.each ?_ _ ?_
    | intro _
    | (extract_lets +onlyGivenNames x; apply thenHave (p := P x); (unfold x; clear x); rotate_left 1; (intro hx; clear_value x))
    | (extract_lets +onlyGivenNames x; clear_value x)
    | refine ite_closed ?_ ?_
    | split

theorem flumeStartupCal_get {s : State} {slices : List (Nat × Nat)} {convs : List Nat} {fld0 : Fld} {i0 j0 : Nat} (hK :
    Foot.flumeStartupCal (notFld fld0) = true)  : (flumeStartupCal s slices convs).get fld0 i0 j0 = s.get fld0 i0 j0 :=
  flumeStartupCal_closed (P := fun x => x.get fld0 i0 j0 = s.get fld0 i0 j0) (field_closed fld0 i0 j0 _) hK  rfl

def Foot.execFlumeStartupCal (K : Part → Bool) : Bool := Foot.flumeStartupCal K

theorem execFlumeStartupCal_closed {K : Part → Bool} {P : State → Prop} {slices : List (Nat × Nat)} {convs : List Nat} {s :
    State} (hP : Closed K P) (hK : Foot.execFlumeStartupCal K = true) (hs_s : P s) :
    OutAll P (execFlumeStartupCal slices convs s) := by
  simp only [Foot.execFlumeStartupCal, Bool.and_eq_true] at hK
  unfold execFlumeStartupCal
  with_reducible repeat' first
    | assumption
    | refine flumeStartupCal_closed hP ?_ ?_
    | refine OutAll.mk ?_

def Foot.handover (K : Part → Bool) : Bool := K (.fld .rotEnd) && (K (.fld .FL_CLSTAT_SPARE) && (K (.fld .FL_VGSTAT_SPARE) &&
    (K (.fld .FL_VCONV) && (K (.fld .rotRetry) && (K (.fld .FL_CLSTAT_ABORTS) && (K (.fld .FL_CLSTAT_ABORT) && (K (.fld
    .FL_VGSTAT_ABORTS) && (K (.fld .FL_VGSTAT_ABORT) && (K (.fld .rotFirst) && (Foot.deferTo K && (Foot.setSlice K &&
    (Foot.refreshRotBusy K && (Foot.setRotState K && (Foot.failSpare K))))))))))))))

theorem handover_closed {K : Part → Bool} {P : State → Prop} {s : State} {g : Nat} (hP : Closed K P) (hK : Foot.handover K =
    true) (hs_s : P s) :
    P (handover s g) := by
  simp only [Foot.handover, Bool.and_eq_true] at hK
  obtain ⟨hK0, hK1, hK2, hK3, hK4, hK5, hK6, hK7, hK8, hK9, hK10, hK11, hK12, hK13, hK14⟩ := hK
  unfold handover
  with_reducible repeat' first
    | assumption
    | refine deferTo_closed hP ?_ ?_
    | refine setSlice_closed hP ?_ ?_
    | refine refreshRotBusy_closed hP ?_ ?_
    | refine setRotState_closed hP ?_ ?_
    | refine failSpare_closed hP ?_ ?_
    | refine hP.put _ _ _ _ _ ?_ ?_
    | refine hP.raise ?_ ?_
    | refine hP.bump ?_ ?_
    | (extract_lets +onlyGivenNames x; apply thenHave (p := P x); (unfold x; clear x); rotate_left 1; (intro hx; clear_value x))
    | (extract_lets +onlyGivenNames x; clear_value x)
    | refine ite_closed ?_ ?_
    | split

theorem handover_get {s : State} {g : Nat} {fld0 : Fld} {i0 j0 : Nat} (hK : Foot.handover (notFld fld0) = true)  : (handover
    s g).get fld0 i0 j0 = s.get fld0 i0 j0 :=
  handover_closed (P := fun x => x.get fld0 i0 j0 = s.get fld0 i0 j0) (field_closed fld0 i0 j0 _) hK  rfl

def Foot.execHandover (K : Part → Bool) : Bool := Foot.handover K

theorem execHandover_closed {K : Part → Bool} {P : State → Prop} {g : Fin 18} {s : State} (hP : Closed K P) (hK :
    Foot.execHandover K = true) (hs_s : P s) :
    OutAll P (execHandover g s) := by
  simp only [Foot.execHandover, Bool.and_eq_true] at hK
  unfold execHandover
  with_reducible repeat' first
    | assumption
    | refine handover_closed hP ?_ ?_
    | refine OutAll.mk ?_

def Foot.rippleWindowEnd (K : Part → Bool) : Bool := K (.fld .ripEnded) && (K (.fld .FL_PHRIP) && (K (.fld .ripMax) && (K
    (.fld .ripMin) && (K (.fld .pwmHigh) && (Foot.judgeOpen K && (K (.fld .openFail) && (K (.fld .FL_PHFLAG_OPEN))))))))

theorem rippleWindowEnd_closed {K : Part → Bool} {P : State → Prop} {s : State} (hP : Closed K P) (hK : Foot.rippleWindowEnd
    K = true) (hs_s : P s) :
    P (rippleWindowEnd s) := by
  simp only [Foot.rippleWindowEnd, Bool.and_eq_true] at hK
  obtain ⟨hK0, hK1, hK2, hK3, hK4, hK5, hK6, hK7⟩ := hK
  unfold rippleWindowEnd
  with_reducible repeat' first
    | assumption
    | refine judgeOpen_closed hP ?_ ?_ ?_ ?_
    | refine hP.put _ _ _ _ _ ?_ ?_
    | refine Closed.each ?_ _ ?_
    | refine Closed.when ?_ ?_
    | intro _
    | (extract_lets +onlyGivenNames x; apply thenHave (p := P x); (unfold x; clear x); rotate_left 1; (intro hx; clear_value x))
    | (extract_lets +onlyGivenNames x; clear_value x)
    | refine ite_closed ?_ ?_
    | split

theorem rippleWindowEnd_get {s : State} {fld0 : Fld} {i0 j0 : Nat} (hK : Foot.rippleWindowEnd (notFld fld0) = true)  :
    (rippleWindowEnd s).get fld0 i0 j0 = s.get fld0 i0 j0 :=
  rippleWindowEnd_closed (P := fun x => x.get fld0 i0 j0 = s.get fld0 i0 j0) (field_closed fld0 i0 j0 _) hK  rfl

def Foot.execRippleWindowEnd (K : Part → Bool) : Bool := Foot.rippleWindowEnd K

theorem execRippleWindowEnd_closed {K : Part → Bool} {P : State → Prop} {s : State} (hP : Closed K P) (hK :
    Foot.execRippleWindowEnd K = true) (hs_s : P s) :
    OutAll P (execRippleWindowEnd s) := by
  simp only [Foot.execRippleWindowEnd, Bool.and_eq_true] at hK
  unfold execRippleWindowEnd
  with_reducible repeat' first
    | assumption
    | refine rippleWindowEnd_closed hP ?_ ?_
    | refine OutAll.mk ?_

def Foot.execRotationStep (K : Part → Bool) : Bool := Foot.rotationStep K

theorem execRotationStep_closed {K : Part → Bool} {P : State → Prop} {g : Fin 18} {s : State} (hP : Closed K P) (hK :
    Foot.execRotationStep K = true) (hs_s : P s) :
    OutAll P (execRotationStep g s) := by
  simp only [Foot.execRotationStep, Bool.and_eq_true] at hK
  unfold execRotationStep
  with_reducible repeat' first
    | assumption
    | refine rotationStep_closed hP ?_ ?_
    | refine OutAll.mk ?_

def Foot.tempResult (K : Part → Bool) : Bool := K (.fld .tmStuckCnt) && (K (.fld .tmStuckCode) && (K .writes && (Foot.flagPub
    K && (K (.fld .FL_TMFLAG_TRIMSAT) && (K (.fld .FL_TMFLAG_RANGE))))))

theorem tempResult_closed {K : Part → Bool} {P : State → Prop} {s : State} {c : Nat} {raw : Int} (hP : Closed K P) (hK :
    Foot.tempResult K = true) (hs_s : P s) :
    P (tempResult s c raw) := by
  simp only [Foot.tempResult, Bool.and_eq_true] at hK
  obtain ⟨hK0, hK1, hK2, hK3, hK4, hK5⟩ := hK
  unfold tempResult
  with_reducible repeat' first
    | assumption
    | refine flagPub_closed hP ?_ ?_ ?_
    | refine hP.put _ _ _ _ _ ?_ ?_
    | refine hP.bump ?_ ?_
    | refine Closed.when ?_ ?_
    | refine hP.later ?_ ?_
    | intro _
    | (extract_lets +onlyGivenNames x; apply thenHave (p := P x); (unfold x; clear x); rotate_left 1; (intro hx; clear_value x))
    | (extract_lets +onlyGivenNames x; clear_value x)
    | refine ite_closed ?_ ?_
    | split

theorem tempResult_get {s : State} {c : Nat} {raw : Int} {fld0 : Fld} {i0 j0 : Nat} (hK : Foot.tempResult (notFld fld0) =
    true)  : (tempResult s c raw).get fld0 i0 j0 = s.get fld0 i0 j0 :=
  tempResult_closed (P := fun x => x.get fld0 i0 j0 = s.get fld0 i0 j0) (field_closed fld0 i0 j0 _) hK  rfl

def Foot.voltageOpenTest (K : Part → Bool) : Bool := K (.fld .vDefer) && (K (.fld .vHold) && (Foot.judgeOpen K && (K (.fld
    .vOpenFail) && (K (.fld .FL_VFLAG_OPEN)))))

theorem voltageOpenTest_closed {K : Part → Bool} {P : State → Prop} {s : State} {r : Nat} {codes : List Int} (hP : Closed K
    P) (hK : Foot.voltageOpenTest K = true) (hs_s : P s) :
    P (voltageOpenTest s r codes) := by
  simp only [Foot.voltageOpenTest, Bool.and_eq_true] at hK
  obtain ⟨hK0, hK1, hK2, hK3, hK4⟩ := hK
  unfold voltageOpenTest
  with_reducible repeat' first
    | assumption
    | refine judgeOpen_closed hP ?_ ?_ ?_ ?_
    | refine hP.put _ _ _ _ _ ?_ ?_
    | refine hP.clear ?_ ?_
    | refine hP.raise ?_ ?_
    | (extract_lets +onlyGivenNames x; apply thenHave (p := P x); (unfold x; clear x); rotate_left 1; (intro hx; clear_value x))
    | (extract_lets +onlyGivenNames x; clear_value x)
    | refine ite_closed ?_ ?_
    | split

theorem voltageOpenTest_get {s : State} {r : Nat} {codes : List Int} {fld0 : Fld} {i0 j0 : Nat} (hK : Foot.voltageOpenTest
    (notFld fld0) = true)  : (voltageOpenTest s r codes).get fld0 i0 j0 = s.get fld0 i0 j0 :=
  voltageOpenTest_closed (P := fun x => x.get fld0 i0 j0 = s.get fld0 i0 j0) (field_closed fld0 i0 j0 _) hK  rfl

def Foot.execVoltageOpenTest (K : Part → Bool) : Bool := Foot.voltageOpenTest K

theorem execVoltageOpenTest_closed {K : Part → Bool} {P : State → Prop} {r : Rail} {codes : List Int} {s : State} (hP :
    Closed K P) (hK : Foot.execVoltageOpenTest K = true) (hs_s : P s) :
    OutAll P (execVoltageOpenTest r codes s) := by
  simp only [Foot.execVoltageOpenTest, Bool.and_eq_true] at hK
  unfold execVoltageOpenTest
  with_reducible repeat' first
    | assumption
    | refine voltageOpenTest_closed hP ?_ ?_
    | refine OutAll.mk ?_

end Sys2Proof.Machine
end

