-- ==== Sys2Proof/Laws/ClosedDelivery.lean ====
section
/-! SUPPORT. What the functions of Machine/Delivery.lean can write, and that they keep every closed property (Laws/Closed.lean). -/
namespace Sys2Proof.Machine

set_option Elab.async false
set_option linter.all false

def Foot.totalsUpdate (K : Part → Bool) : Bool := K (.fld .DM_RAILCUR_ICUR) && (K (.fld .DM_DOM_INOW) && (K (.fld
    .DM_DEV_PNOW) && (K (.fld .domXCnt) && (K (.fld .devXCnt)))))

theorem totalsUpdate_closed {K : Part → Bool} {P : State → Prop} {s : State} (hP : Closed K P) (hK : Foot.totalsUpdate K =
    true) (hs_s : P s) :
    P (totalsUpdate s) := by
  simp only [Foot.totalsUpdate, Bool.and_eq_true] at hK
  obtain ⟨hK0, hK1, hK2, hK3, hK4⟩ := hK
  unfold totalsUpdate
  with_reducible repeat' first
    | assumption
    | refine hP.put _ _ _ _ _ ?_ ?_
    | refine hP.clear ?_ ?_
    | refine hP.bump ?_ ?_
    | refine Closed.each ?_ _ ?_
    | intro _
    | (extract_lets +onlyGivenNames x; apply thenHave (p := P x); (unfold x; clear x); rotate_left 1; (intro hx; clear_value x))
    | (extract_lets +onlyGivenNames x; clear_value x)
    | refine ite_closed ?_ ?_
    | split

theorem totalsUpdate_get {s : State} {fld0 : Fld} {i0 j0 : Nat} (hK : Foot.totalsUpdate (notFld fld0) = true)  :
    (totalsUpdate s).get fld0 i0 j0 = s.get fld0 i0 j0 :=
  totalsUpdate_closed (P := fun x => x.get fld0 i0 j0 = s.get fld0 i0 j0) (field_closed fld0 i0 j0 _) hK  rfl

def Foot.enSample (K : Part → Bool) : Bool := K (.fld .enStable) && (K (.fld .enCand) && (K (.fld .enWait)))

theorem enSample_closed {K : Part → Bool} {P : State → Prop} {s : State} {r : Nat} {level : Bool} (hP : Closed K P) (hK :
    Foot.enSample K = true) (hs_s : P s) :
    P (enSample s r level) := by
  simp only [Foot.enSample, Bool.and_eq_true] at hK
  obtain ⟨hK0, hK1, hK2⟩ := hK
  unfold enSample
  with_reducible repeat' first
    | assumption
    | refine hP.put _ _ _ _ _ ?_ ?_
    | refine hP.clear ?_ ?_
    | refine hP.bump ?_ ?_
    | (extract_lets +onlyGivenNames x; apply thenHave (p := P x); (unfold x; clear x); rotate_left 1; (intro hx; clear_value x))
    | (extract_lets +onlyGivenNames x; clear_value x)
    | refine ite_closed ?_ ?_
    | split

theorem enSample_get {s : State} {r : Nat} {level : Bool} {fld0 : Fld} {i0 j0 : Nat} (hK : Foot.enSample (notFld fld0) =
    true)  : (enSample s r level).get fld0 i0 j0 = s.get fld0 i0 j0 :=
  enSample_closed (P := fun x => x.get fld0 i0 j0 = s.get fld0 i0 j0) (field_closed fld0 i0 j0 _) hK  rfl

def Foot.pgoodCount (K : Part → Bool) : Bool := K (.fld .pgOut) && (K (.fld .pgIn))

theorem pgoodCount_closed {K : Part → Bool} {P : State → Prop} {s : State} {r : Nat} (hP : Closed K P) (hK : Foot.pgoodCount
    K = true) (hs_s : P s) :
    P (pgoodCount s r) := by
  simp only [Foot.pgoodCount, Bool.and_eq_true] at hK
  obtain ⟨hK0, hK1⟩ := hK
  unfold pgoodCount
  with_reducible repeat' first
    | assumption
    | refine hP.clear ?_ ?_
    | refine hP.bump ?_ ?_
    | refine ite_closed ?_ ?_
    | split

theorem pgoodCount_get {s : State} {r : Nat} {fld0 : Fld} {i0 j0 : Nat} (hK : Foot.pgoodCount (notFld fld0) = true)  :
    (pgoodCount s r).get fld0 i0 j0 = s.get fld0 i0 j0 :=
  pgoodCount_closed (P := fun x => x.get fld0 i0 j0 = s.get fld0 i0 j0) (field_closed fld0 i0 j0 _) hK  rfl

def Foot.deviceExcess (K : Part → Bool) : Bool := Foot.flagPub K && (K (.fld .DM_STATUS_DEVX))

theorem deviceExcess_closed {K : Part → Bool} {P : State → Prop} {s : State} (hP : Closed K P) (hK : Foot.deviceExcess K =
    true) (hs_s : P s) :
    P (deviceExcess s) := by
  simp only [Foot.deviceExcess, Bool.and_eq_true] at hK
  obtain ⟨hK0, hK1⟩ := hK
  unfold deviceExcess
  with_reducible repeat' first
    | assumption
    | refine flagPub_closed hP ?_ ?_ ?_
    | refine ite_closed ?_ ?_
    | split

theorem deviceExcess_get {s : State} {fld0 : Fld} {i0 j0 : Nat} (hK : Foot.deviceExcess (notFld fld0) = true)  :
    (deviceExcess s).get fld0 i0 j0 = s.get fld0 i0 j0 :=
  deviceExcess_closed (P := fun x => x.get fld0 i0 j0 = s.get fld0 i0 j0) (field_closed fld0 i0 j0 _) hK  rfl

def Foot.limitWrite (K : Part → Bool) : Bool := K .writes && (K (.fld .DM_STATUS_CEILERR))

theorem limitWrite_closed {K : Part → Bool} {P : State → Prop} {s : State} {f : Fld} {i : Nat} {v : Int} (hP : Closed K P)
    (hK : Foot.limitWrite K = true) (hs_s : P s) :
    P (limitWrite s f i v) := by
  simp only [Foot.limitWrite, Bool.and_eq_true] at hK
  obtain ⟨hK0, hK1⟩ := hK
  unfold limitWrite
  with_reducible repeat' first
    | assumption
    | refine hP.raise ?_ ?_
    | refine hP.later ?_ ?_
    | refine ite_closed ?_ ?_
    | split

theorem limitWrite_get {s : State} {f : Fld} {i : Nat} {v : Int} {fld0 : Fld} {i0 j0 : Nat} (hK : Foot.limitWrite (notFld
    fld0) = true)  : (limitWrite s f i v).get fld0 i0 j0 = s.get fld0 i0 j0 :=
  limitWrite_closed (P := fun x => x.get fld0 i0 j0 = s.get fld0 i0 j0) (field_closed fld0 i0 j0 _) hK  rfl

def Foot.domainExcess (K : Part → Bool) : Bool := K (.fld .DM_STATUS_DOMX) && (Foot.hwPublish K)

theorem domainExcess_closed {K : Part → Bool} {P : State → Prop} {s : State} {d : Nat} (hP : Closed K P) (hK :
    Foot.domainExcess K = true) (hs_s : P s) :
    P (domainExcess s d) := by
  simp only [Foot.domainExcess, Bool.and_eq_true] at hK
  obtain ⟨hK0, hK1⟩ := hK
  unfold domainExcess
  with_reducible repeat' first
    | assumption
    | refine hwPublish_closed hP ?_ ?_
    | refine hP.setBits ?_ ?_
    | refine ite_closed ?_ ?_
    | split

theorem domainExcess_get {s : State} {d : Nat} {fld0 : Fld} {i0 j0 : Nat} (hK : Foot.domainExcess (notFld fld0) = true)  :
    (domainExcess s d).get fld0 i0 j0 = s.get fld0 i0 j0 :=
  domainExcess_closed (P := fun x => x.get fld0 i0 j0 = s.get fld0 i0 j0) (field_closed fld0 i0 j0 _) hK  rfl

def Foot.tapYields (K : Part → Bool) : Bool := K (.fld .tapErr) && (K (.fld .tapIr) && (K (.fld .enableHold)))

theorem tapYields_closed {K : Part → Bool} {P : State → Prop} {s : State} {t : State} {r : Nat} (hP : Closed K P) (hK :
    Foot.tapYields K = true) (hs_s : P s) (hs_t : P t) :
    P (tapYields s t r) := by
  simp only [Foot.tapYields, Bool.and_eq_true] at hK
  obtain ⟨hK0, hK1, hK2⟩ := hK
  unfold tapYields
  with_reducible repeat' first
    | assumption
    | refine hP.put _ _ _ _ _ ?_ ?_
    | refine hP.clear ?_ ?_
    | refine hP.raise ?_ ?_
    | refine ite_closed ?_ ?_
    | split

def Foot.enAccept (K : Part → Bool) : Bool := K (.fld .DM_RAILSTAT_ENF) && (Foot.tapYields K)

theorem enAccept_closed {K : Part → Bool} {P : State → Prop} {s : State} {r : Nat} (hP : Closed K P) (hK : Foot.enAccept K =
    true) (hs_s : P s) :
    P (enAccept s r) := by
  simp only [Foot.enAccept, Bool.and_eq_true] at hK
  obtain ⟨hK0, hK1⟩ := hK
  unfold enAccept
  with_reducible repeat' first
    | assumption
    | refine tapYields_closed hP ?_ ?_ ?_
    | refine hP.put _ _ _ _ _ ?_ ?_
    | refine ite_closed ?_ ?_
    | split

theorem enAccept_get {s : State} {r : Nat} {fld0 : Fld} {i0 j0 : Nat} (hK : Foot.enAccept (notFld fld0) = true)  : (enAccept
    s r).get fld0 i0 j0 = s.get fld0 i0 j0 :=
  enAccept_closed (P := fun x => x.get fld0 i0 j0 = s.get fld0 i0 j0) (field_closed fld0 i0 j0 _) hK  rfl

def Foot.enStuck (K : Part → Bool) : Bool := K (.fld .DM_RAILSTAT_ENSTUCK)

theorem enStuck_closed {K : Part → Bool} {P : State → Prop} {s : State} {r : Nat} (hP : Closed K P) (hK : Foot.enStuck K =
    true) (hs_s : P s) :
    P (enStuck s r) := by
  simp only [Foot.enStuck, Bool.and_eq_true] at hK
  unfold enStuck
  with_reducible repeat' first
    | assumption
    | refine hP.raise ?_ ?_
    | refine ite_closed ?_ ?_
    | split

theorem enStuck_get {s : State} {r : Nat} {fld0 : Fld} {i0 j0 : Nat} (hK : Foot.enStuck (notFld fld0) = true)  : (enStuck s
    r).get fld0 i0 j0 = s.get fld0 i0 j0 :=
  enStuck_closed (P := fun x => x.get fld0 i0 j0 = s.get fld0 i0 j0) (field_closed fld0 i0 j0 _) hK  rfl

def Foot.execDeviceExcess (K : Part → Bool) : Bool := Foot.deviceExcess K

theorem execDeviceExcess_closed {K : Part → Bool} {P : State → Prop} {s : State} (hP : Closed K P) (hK :
    Foot.execDeviceExcess K = true) (hs_s : P s) :
    OutAll P (execDeviceExcess s) := by
  simp only [Foot.execDeviceExcess, Bool.and_eq_true] at hK
  unfold execDeviceExcess
  with_reducible repeat' first
    | assumption
    | refine deviceExcess_closed hP ?_ ?_
    | refine OutAll.mk ?_

def Foot.execDomainExcess (K : Part → Bool) : Bool := Foot.domainExcess K

theorem execDomainExcess_closed {K : Part → Bool} {P : State → Prop} {d : Domain} {s : State} (hP : Closed K P) (hK :
    Foot.execDomainExcess K = true) (hs_s : P s) :
    OutAll P (execDomainExcess d s) := by
  simp only [Foot.execDomainExcess, Bool.and_eq_true] at hK
  unfold execDomainExcess
  with_reducible repeat' first
    | assumption
    | refine domainExcess_closed hP ?_ ?_
    | refine OutAll.mk ?_

def Foot.execEnFilterAccept (K : Part → Bool) : Bool := Foot.enAccept K

theorem execEnFilterAccept_closed {K : Part → Bool} {P : State → Prop} {r : Rail} {s : State} (hP : Closed K P) (hK :
    Foot.execEnFilterAccept K = true) (hs_s : P s) :
    OutAll P (execEnFilterAccept r s) := by
  simp only [Foot.execEnFilterAccept, Bool.and_eq_true] at hK
  unfold execEnFilterAccept
  with_reducible repeat' first
    | assumption
    | refine enAccept_closed hP ?_ ?_
    | refine OutAll.mk ?_

def Foot.execEnStuckTimeout (K : Part → Bool) : Bool := Foot.enStuck K

theorem execEnStuckTimeout_closed {K : Part → Bool} {P : State → Prop} {r : Rail} {s : State} (hP : Closed K P) (hK :
    Foot.execEnStuckTimeout K = true) (hs_s : P s) :
    OutAll P (execEnStuckTimeout r s) := by
  simp only [Foot.execEnStuckTimeout, Bool.and_eq_true] at hK
  unfold execEnStuckTimeout
  with_reducible repeat' first
    | assumption
    | refine enStuck_closed hP ?_ ?_
    | refine OutAll.mk ?_

def Foot.pgoodAssert (K : Part → Bool) : Bool := K (.fld .predPgAt) && (K (.fld .DM_RAILSTAT_PGOOD))

theorem pgoodAssert_closed {K : Part → Bool} {P : State → Prop} {s : State} {r : Nat} (hP : Closed K P) (hK :
    Foot.pgoodAssert K = true) (hs_s : P s) :
    P (pgoodAssert s r) := by
  simp only [Foot.pgoodAssert, Bool.and_eq_true] at hK
  obtain ⟨hK0, hK1⟩ := hK
  unfold pgoodAssert
  with_reducible repeat' first
    | assumption
    | refine hP.put _ _ _ _ _ ?_ ?_
    | refine hP.raise ?_ ?_
    | refine ite_closed ?_ ?_
    | split

theorem pgoodAssert_get {s : State} {r : Nat} {fld0 : Fld} {i0 j0 : Nat} (hK : Foot.pgoodAssert (notFld fld0) = true)  :
    (pgoodAssert s r).get fld0 i0 j0 = s.get fld0 i0 j0 :=
  pgoodAssert_closed (P := fun x => x.get fld0 i0 j0 = s.get fld0 i0 j0) (field_closed fld0 i0 j0 _) hK  rfl

def Foot.execPgoodAssert (K : Part → Bool) : Bool := Foot.pgoodAssert K

theorem execPgoodAssert_closed {K : Part → Bool} {P : State → Prop} {r : Rail} {s : State} (hP : Closed K P) (hK :
    Foot.execPgoodAssert K = true) (hs_s : P s) :
    OutAll P (execPgoodAssert r s) := by
  simp only [Foot.execPgoodAssert, Bool.and_eq_true] at hK
  unfold execPgoodAssert
  with_reducible repeat' first
    | assumption
    | refine pgoodAssert_closed hP ?_ ?_
    | refine OutAll.mk ?_

def Foot.pgoodDeassert (K : Part → Bool) : Bool := K (.fld .pgIn) && (K (.fld .DM_RAILSTAT_PGOOD))

theorem pgoodDeassert_closed {K : Part → Bool} {P : State → Prop} {s : State} {r : Nat} (hP : Closed K P) (hK :
    Foot.pgoodDeassert K = true) (hs_s : P s) :
    P (pgoodDeassert s r) := by
  simp only [Foot.pgoodDeassert, Bool.and_eq_true] at hK
  obtain ⟨hK0, hK1⟩ := hK
  unfold pgoodDeassert
  with_reducible repeat' first
    | assumption
    | refine hP.clear ?_ ?_
    | refine ite_closed ?_ ?_
    | split

theorem pgoodDeassert_get {s : State} {r : Nat} {fld0 : Fld} {i0 j0 : Nat} (hK : Foot.pgoodDeassert (notFld fld0) = true)  :
    (pgoodDeassert s r).get fld0 i0 j0 = s.get fld0 i0 j0 :=
  pgoodDeassert_closed (P := fun x => x.get fld0 i0 j0 = s.get fld0 i0 j0) (field_closed fld0 i0 j0 _) hK  rfl

def Foot.execPgoodDeassert (K : Part → Bool) : Bool := Foot.pgoodDeassert K

theorem execPgoodDeassert_closed {K : Part → Bool} {P : State → Prop} {r : Rail} {s : State} (hP : Closed K P) (hK :
    Foot.execPgoodDeassert K = true) (hs_s : P s) :
    OutAll P (execPgoodDeassert r s) := by
  simp only [Foot.execPgoodDeassert, Bool.and_eq_true] at hK
  unfold execPgoodDeassert
  with_reducible repeat' first
    | assumption
    | refine pgoodDeassert_closed hP ?_ ?_
    | refine OutAll.mk ?_

def Foot.startDelayExpiry (K : Part → Bool) : Bool := K (.fld .DM_RAILSTAT_PREDOK)

theorem startDelayExpiry_closed {K : Part → Bool} {P : State → Prop} {s : State} {r : Nat} (hP : Closed K P) (hK :
    Foot.startDelayExpiry K = true) (hs_s : P s) :
    P (startDelayExpiry s r) := by
  simp only [Foot.startDelayExpiry, Bool.and_eq_true] at hK
  unfold startDelayExpiry
  with_reducible repeat' first
    | assumption
    | refine hP.raise ?_ ?_
    | refine ite_closed ?_ ?_
    | split

theorem startDelayExpiry_get {s : State} {r : Nat} {fld0 : Fld} {i0 j0 : Nat} (hK : Foot.startDelayExpiry (notFld fld0) =
    true)  : (startDelayExpiry s r).get fld0 i0 j0 = s.get fld0 i0 j0 :=
  startDelayExpiry_closed (P := fun x => x.get fld0 i0 j0 = s.get fld0 i0 j0) (field_closed fld0 i0 j0 _) hK  rfl

def Foot.execStartDelayExpiry (K : Part → Bool) : Bool := Foot.startDelayExpiry K

theorem execStartDelayExpiry_closed {K : Part → Bool} {P : State → Prop} {r : Rail} {s : State} (hP : Closed K P) (hK :
    Foot.execStartDelayExpiry K = true) (hs_s : P s) :
    OutAll P (execStartDelayExpiry r s) := by
  simp only [Foot.execStartDelayExpiry, Bool.and_eq_true] at hK
  unfold execStartDelayExpiry
  with_reducible repeat' first
    | assumption
    | refine startDelayExpiry_closed hP ?_ ?_
    | refine OutAll.mk ?_

end Sys2Proof.Machine
end

