-- ==== Sys2Proof/Laws/ClosedLane.lean ====
section
/-! SUPPORT. What the functions of Machine/Lane.lean can write, and that they keep every closed property (Laws/Closed.lean). -/
namespace Sys2Proof.Machine

set_option Elab.async false
set_option linter.all false

def Foot.commitBank (K : Part → Bool) : Bool := K (.fld .LN_STATUS_COMMITPEND)

theorem commitBank_closed {K : Part → Bool} {P : State → Prop} {s : State} {r : Nat} (hP : Closed K P) (hK : Foot.commitBank
    K = true) (hs_s : P s) :
    P (commitBank s r) := by
  simp only [Foot.commitBank, Bool.and_eq_true] at hK
  unfold commitBank
  with_reducible repeat' first
    | assumption
    | refine hP.raise ?_ ?_

theorem commitBank_get {s : State} {r : Nat} {fld0 : Fld} {i0 j0 : Nat} (hK : Foot.commitBank (notFld fld0) = true)  :
    (commitBank s r).get fld0 i0 j0 = s.get fld0 i0 j0 :=
  commitBank_closed (P := fun x => x.get fld0 i0 j0 = s.get fld0 i0 j0) (field_closed fld0 i0 j0 _) hK  rfl

def Foot.copyBank (K : Part → Bool) : Bool := K (.fld .copyReq)

theorem copyBank_closed {K : Part → Bool} {P : State → Prop} {s : State} {r : Nat} (hP : Closed K P) (hK : Foot.copyBank K =
    true) (hs_s : P s) :
    P (copyBank s r) := by
  simp only [Foot.copyBank, Bool.and_eq_true] at hK
  unfold copyBank
  with_reducible repeat' first
    | assumption
    | refine hP.raise ?_ ?_

theorem copyBank_get {s : State} {r : Nat} {fld0 : Fld} {i0 j0 : Nat} (hK : Foot.copyBank (notFld fld0) = true)  : (copyBank
    s r).get fld0 i0 j0 = s.get fld0 i0 j0 :=
  copyBank_closed (P := fun x => x.get fld0 i0 j0 = s.get fld0 i0 j0) (field_closed fld0 i0 j0 _) hK  rfl

def Foot.endCommits (K : Part → Bool) : Bool := K .commits

theorem endCommits_closed {K : Part → Bool} {P : State → Prop} {s : State} {r : Nat} {v : Int} (hP : Closed K P) (hK :
    Foot.endCommits K = true) (hs_s : P s) :
    P (endCommits s r v) := by
  simp only [Foot.endCommits, Bool.and_eq_true] at hK
  unfold endCommits
  with_reducible repeat' first
    | assumption
    | intro _
    | refine hP.remake _ _ _ _ _ _ _ _ _ _ _ _ _ _ _ _ _ _ _ _ _ _ _ (hs := ?_); first | assumption
    | split

theorem endCommits_get {s : State} {r : Nat} {v : Int} {fld0 : Fld} {i0 j0 : Nat} (hK : Foot.endCommits (notFld fld0) = true)
     : (endCommits s r v).get fld0 i0 j0 = s.get fld0 i0 j0 :=
  endCommits_closed (P := fun x => x.get fld0 i0 j0 = s.get fld0 i0 j0) (field_closed fld0 i0 j0 _) hK  rfl

def Foot.setpointWrite (K : Part → Bool) : Bool := K .commits && (K .writes && (Foot.laneFlag K && (Foot.endCommits K)))

theorem setpointWrite_closed {K : Part → Bool} {P : State → Prop} {s : State} {r : Nat} {v : Int} (hP : Closed K P) (hK :
    Foot.setpointWrite K = true) (hs_s : P s) :
    P (setpointWrite s r v) := by
  simp only [Foot.setpointWrite, Bool.and_eq_true] at hK
  obtain ⟨hK0, hK1, hK2, hK3⟩ := hK
  unfold setpointWrite
  with_reducible repeat' first
    | assumption
    | refine laneFlag_closed hP ?_ ?_
    | refine endCommits_closed hP ?_ ?_
    | refine hP.later ?_ ?_
    | (extract_lets +onlyGivenNames x; apply thenHave (p := P x); (unfold x; clear x); rotate_left 1; (intro hx; clear_value x))
    | (extract_lets +onlyGivenNames x; clear_value x)
    | refine hP.remake _ _ _ _ _ _ _ _ _ _ _ _ _ _ _ _ _ _ _ _ _ _ _ (hs := ?_); first | assumption | (with_reducible refine laneFlag_closed hP ?_ ?_) | (with_reducible refine endCommits_closed hP ?_ ?_) | (with_reducible refine hP.later ?_ ?_)
    | refine ite_closed ?_ ?_
    | split

theorem setpointWrite_get {s : State} {r : Nat} {v : Int} {fld0 : Fld} {i0 j0 : Nat} (hK : Foot.setpointWrite (notFld fld0) =
    true)  : (setpointWrite s r v).get fld0 i0 j0 = s.get fld0 i0 j0 :=
  setpointWrite_closed (P := fun x => x.get fld0 i0 j0 = s.get fld0 i0 j0) (field_closed fld0 i0 j0 _) hK  rfl

def Foot.bankWrite (K : Part → Bool) : Bool := Foot.laneFlag K

theorem bankWrite_closed {K : Part → Bool} {P : State → Prop} {s : State} {f : Fld} {r : Nat} {b : Nat} {v : Int} (hP :
    Closed K P) (hK : Foot.bankWrite K = true) (hK_f : K (.fld f) = true) (hs_s : P s) :
    P (bankWrite s f r b v) := by
  simp only [Foot.bankWrite, Bool.and_eq_true] at hK
  unfold bankWrite
  with_reducible repeat' first
    | assumption
    | refine laneFlag_closed hP ?_ ?_
    | refine hP.put _ _ _ _ _ ?_ ?_
    | refine ite_closed ?_ ?_
    | split

theorem bankWrite_get {s : State} {f : Fld} {r : Nat} {b : Nat} {v : Int} {fld0 : Fld} {i0 j0 : Nat} (hK : Foot.bankWrite
    (notFld fld0) = true) (hg_f : (decide (f = fld0)) = false) : (bankWrite s f r b v).get fld0 i0 j0 = s.get fld0 i0 j0 :=
  bankWrite_closed (P := fun x => x.get fld0 i0 j0 = s.get fld0 i0 j0) (field_closed fld0 i0 j0 _) hK (notFld_true hg_f) rfl

def Foot.laneFlagIf (K : Part → Bool) : Bool := Foot.laneFlag K

theorem laneFlagIf_closed {K : Part → Bool} {P : State → Prop} {s : State} {c : Bool} {r : Nat} {n : Nat} (hP : Closed K P)
    (hK : Foot.laneFlagIf K = true) (hs_s : P s) :
    P (laneFlagIf s c r n) := by
  simp only [Foot.laneFlagIf, Bool.and_eq_true] at hK
  unfold laneFlagIf
  with_reducible repeat' first
    | assumption
    | refine laneFlag_closed hP ?_ ?_
    | refine ite_closed ?_ ?_
    | split

theorem laneFlagIf_get {s : State} {c : Bool} {r : Nat} {n : Nat} {fld0 : Fld} {i0 j0 : Nat} (hK : Foot.laneFlagIf (notFld
    fld0) = true)  : (laneFlagIf s c r n).get fld0 i0 j0 = s.get fld0 i0 j0 :=
  laneFlagIf_closed (P := fun x => x.get fld0 i0 j0 = s.get fld0 i0 j0) (field_closed fld0 i0 j0 _) hK  rfl

def Foot.balanceUpdate (K : Part → Bool) : Bool := K (.fld .LN_BAL) && (K (.fld .lnBalAcc) && (Foot.laneFlagIf K))

theorem balanceUpdate_closed {K : Part → Bool} {P : State → Prop} {s : State} {r : Nat} (hP : Closed K P) (hK :
    Foot.balanceUpdate K = true) (hs_s : P s) :
    P (balanceUpdate s r) := by
  simp only [Foot.balanceUpdate, Bool.and_eq_true] at hK
  obtain ⟨hK0, hK1, hK2⟩ := hK
  unfold balanceUpdate
  with_reducible repeat' first
    | assumption
    | refine laneFlagIf_closed hP ?_ ?_
    | refine hP.put _ _ _ _ _ ?_ ?_
    | refine Closed.each ?_ _ ?_
    | intro _
    | (extract_lets +onlyGivenNames x; apply thenHave (p := P x); (unfold x; clear x); rotate_left 1; (intro hx; clear_value x))
    | (extract_lets +onlyGivenNames x; clear_value x)
    | refine ite_closed ?_ ?_
    | split

theorem balanceUpdate_get {s : State} {r : Nat} {fld0 : Fld} {i0 j0 : Nat} (hK : Foot.balanceUpdate (notFld fld0) = true)  :
    (balanceUpdate s r).get fld0 i0 j0 = s.get fld0 i0 j0 :=
  balanceUpdate_closed (P := fun x => x.get fld0 i0 j0 = s.get fld0 i0 j0) (field_closed fld0 i0 j0 _) hK  rfl

def Foot.bankBoundary (K : Part → Bool) : Bool := K (.fld .copyReq) && (K (.fld .LN_STATUS_COMMITPEND) && (K (.fld
    .LN_STATUS_ACTBANK) && (K (.fld .idClr) && (K (.fld .LN_FLAG) && (Foot.laneFlagIf K && (Foot.laneFlag K &&
    ((bankFields.all fun f => K (.fld f)))))))))

theorem bankBoundary_closed {K : Part → Bool} {P : State → Prop} {s : State} {r : Nat} (hP : Closed K P) (hK :
    Foot.bankBoundary K = true) (hs_s : P s) :
    P (bankBoundary s r) := by
  simp only [Foot.bankBoundary, Bool.and_eq_true] at hK
  obtain ⟨hK0, hK1, hK2, hK3, hK4, hK5, hK6, hK7⟩ := hK
  unfold bankBoundary
  with_reducible repeat' first
    | assumption
    | refine laneFlagIf_closed hP ?_ ?_
    | refine laneFlag_closed hP ?_ ?_
    | refine hP.put _ _ _ _ _ ?_ ?_
    | refine hP.clear ?_ ?_
    | refine hP.clrBits ?_ ?_
    | refine Closed.eachMem (fun _ _ _ _ => ?_) ?_
    | (exact listK (by assumption) (by assumption))
    | intro _
    | (extract_lets +onlyGivenNames x; apply thenHave (p := P x); (unfold x; clear x); rotate_left 1; (intro hx; clear_value x))
    | (extract_lets +onlyGivenNames x; clear_value x)
    | refine ite_closed ?_ ?_
    | split

theorem bankBoundary_get {s : State} {r : Nat} {fld0 : Fld} {i0 j0 : Nat} (hK : Foot.bankBoundary (notFld fld0) = true)  :
    (bankBoundary s r).get fld0 i0 j0 = s.get fld0 i0 j0 :=
  bankBoundary_closed (P := fun x => x.get fld0 i0 j0 = s.get fld0 i0 j0) (field_closed fld0 i0 j0 _) hK  rfl

def Foot.commandSplit (K : Part → Bool) : Bool := K (.fld .LN_STATUS_NACT) && (K (.fld .LN_MAP_ACT) && (K (.fld .LN_PCMD) &&
    (Foot.laneFlagIf K)))

theorem commandSplit_closed {K : Part → Bool} {P : State → Prop} {s : State} {r : Nat} (hP : Closed K P) (hK :
    Foot.commandSplit K = true) (hs_s : P s) :
    P (commandSplit s r) := by
  simp only [Foot.commandSplit, Bool.and_eq_true] at hK
  obtain ⟨hK0, hK1, hK2, hK3⟩ := hK
  unfold commandSplit
  with_reducible repeat' first
    | assumption
    | refine laneFlagIf_closed hP ?_ ?_
    | refine hP.put _ _ _ _ _ ?_ ?_
    | refine hP.clear ?_ ?_
    | refine hP.raise ?_ ?_
    | refine Closed.each ?_ _ ?_
    | intro _
    | (extract_lets +onlyGivenNames x; apply thenHave (p := P x); (unfold x; clear x); rotate_left 1; (intro hx; clear_value x))
    | (extract_lets +onlyGivenNames x; clear_value x)
    | refine ite_closed ?_ ?_
    | split

theorem commandSplit_get {s : State} {r : Nat} {fld0 : Fld} {i0 j0 : Nat} (hK : Foot.commandSplit (notFld fld0) = true)  :
    (commandSplit s r).get fld0 i0 j0 = s.get fld0 i0 j0 :=
  commandSplit_closed (P := fun x => x.get fld0 i0 j0 = s.get fld0 i0 j0) (field_closed fld0 i0 j0 _) hK  rfl

def Foot.compensate (K : Part → Bool) : Bool := K (.fld .frzNow) && (K (.fld .cmdHiNow) && (K (.fld .DM_RAILSTAT_LIMSAT) &&
    (K (.fld .lnE1) && (K (.fld .lnE2) && (K (.fld .lnW1) && (K (.fld .lnW2) && (K (.fld .LN_INTEG) && (K (.fld .lnInteg) &&
    (K (.fld .LN_FFC) && (K (.fld .LN_ERR) && (K (.fld .LN_CMD) && (Foot.laneFlagIf K))))))))))))

theorem compensate_closed {K : Part → Bool} {P : State → Prop} {s : State} {r : Nat} (hP : Closed K P) (hK : Foot.compensate
    K = true) (hs_s : P s) :
    P (compensate s r) := by
  simp only [Foot.compensate, Bool.and_eq_true] at hK
  obtain ⟨hK0, hK1, hK2, hK3, hK4, hK5, hK6, hK7, hK8, hK9, hK10, hK11, hK12⟩ := hK
  unfold compensate
  with_reducible repeat' first
    | assumption
    | refine laneFlagIf_closed hP ?_ ?_
    | refine hP.put _ _ _ _ _ ?_ ?_
    | refine hP.clear ?_ ?_
    | refine hP.raise ?_ ?_
    | refine hP.bump ?_ ?_
    | refine hP.setBits ?_ ?_
    | refine hP.clrBits ?_ ?_
    | refine Closed.when ?_ ?_
    | intro _
    | (extract_lets +onlyGivenNames x; apply thenHave (p := P x); (unfold x; clear x); rotate_left 1; (intro hx; clear_value x))
    | (extract_lets +onlyGivenNames x; clear_value x)
    | (extract_lets +onlyGivenNames x)
    | refine ite_closed ?_ ?_
    | split

theorem compensate_get {s : State} {r : Nat} {fld0 : Fld} {i0 j0 : Nat} (hK : Foot.compensate (notFld fld0) = true)  :
    (compensate s r).get fld0 i0 j0 = s.get fld0 i0 j0 :=
  compensate_closed (P := fun x => x.get fld0 i0 j0 = s.get fld0 i0 j0) (field_closed fld0 i0 j0 _) hK  rfl

def Foot.laneTick (K : Part → Bool) : Bool := Foot.balanceUpdate K && (Foot.commandSplit K && (Foot.compensate K))

theorem laneTick_closed {K : Part → Bool} {P : State → Prop} {s : State} {r : Nat} (hP : Closed K P) (hK : Foot.laneTick K =
    true) (hs_s : P s) :
    P (laneTick s r) := by
  simp only [Foot.laneTick, Bool.and_eq_true] at hK
  obtain ⟨hK0, hK1, hK2⟩ := hK
  unfold laneTick
  with_reducible repeat' first
    | assumption
    | refine balanceUpdate_closed hP ?_ ?_
    | refine commandSplit_closed hP ?_ ?_
    | refine compensate_closed hP ?_ ?_
    | refine Closed.when ?_ ?_
    | intro _

theorem laneTick_get {s : State} {r : Nat} {fld0 : Fld} {i0 j0 : Nat} (hK : Foot.laneTick (notFld fld0) = true)  : (laneTick
    s r).get fld0 i0 j0 = s.get fld0 i0 j0 :=
  laneTick_closed (P := fun x => x.get fld0 i0 j0 = s.get fld0 i0 j0) (field_closed fld0 i0 j0 _) hK  rfl

def Foot.pruneCommits (K : Part → Bool) : Bool := K .commits

theorem pruneCommits_closed {K : Part → Bool} {P : State → Prop} {s : State} (hP : Closed K P) (hK : Foot.pruneCommits K =
    true) (hs_s : P s) :
    P (pruneCommits s) := by
  simp only [Foot.pruneCommits, Bool.and_eq_true] at hK
  unfold pruneCommits
  with_reducible repeat' first
    | assumption
    | intro _
    | refine hP.remake _ _ _ _ _ _ _ _ _ _ _ _ _ _ _ _ _ _ _ _ _ _ _ (hs := ?_); first | assumption

theorem pruneCommits_get {s : State} {fld0 : Fld} {i0 j0 : Nat} (hK : Foot.pruneCommits (notFld fld0) = true)  :
    (pruneCommits s).get fld0 i0 j0 = s.get fld0 i0 j0 :=
  pruneCommits_closed (P := fun x => x.get fld0 i0 j0 = s.get fld0 i0 j0) (field_closed fld0 i0 j0 _) hK  rfl

def Foot.refMove (K : Part → Bool) : Bool := K (.fld .LN_REF) && (K (.fld .wref))

theorem refMove_closed {K : Part → Bool} {P : State → Prop} {s : State} {r : Nat} (hP : Closed K P) (hK : Foot.refMove K =
    true) (hs_s : P s) :
    P (refMove s r) := by
  simp only [Foot.refMove, Bool.and_eq_true] at hK
  obtain ⟨hK0, hK1⟩ := hK
  unfold refMove
  with_reducible repeat' first
    | assumption
    | refine hP.put _ _ _ _ _ ?_ ?_
    | refine ite_closed ?_ ?_
    | split

theorem refMove_get {s : State} {r : Nat} {fld0 : Fld} {i0 j0 : Nat} (hK : Foot.refMove (notFld fld0) = true)  : (refMove s
    r).get fld0 i0 j0 = s.get fld0 i0 j0 :=
  refMove_closed (P := fun x => x.get fld0 i0 j0 = s.get fld0 i0 j0) (field_closed fld0 i0 j0 _) hK  rfl

def Foot.laneStop (K : Part → Bool) : Bool := K (.fld .lnW2) && (K (.fld .lnW1) && (K (.fld .lnE2) && (K (.fld .lnE1) && (K
    (.fld .LN_CMD) && (K (.fld .LN_INTEG) && (K (.fld .lnInteg) && (K (.fld .LN_STATUS_RUN) && (K (.fld .cmdHiNow) && (K
    (.fld .LN_FFC) && (K (.fld .LN_PCMD) && (K (.fld .LN_BAL) && (K (.fld .lnBalAcc)))))))))))))

theorem laneStop_closed {K : Part → Bool} {P : State → Prop} {s : State} {r : Nat} (hP : Closed K P) (hK : Foot.laneStop K =
    true) (hs_s : P s) :
    P (laneStop s r) := by
  simp only [Foot.laneStop, Bool.and_eq_true] at hK
  obtain ⟨hK0, hK1, hK2, hK3, hK4, hK5, hK6, hK7, hK8, hK9, hK10, hK11, hK12⟩ := hK
  unfold laneStop
  with_reducible repeat' first
    | assumption
    | refine hP.clear ?_ ?_
    | refine Closed.each ?_ _ ?_
    | intro _
    | (extract_lets +onlyGivenNames x; apply thenHave (p := P x); (unfold x; clear x); rotate_left 1; (intro hx; clear_value x))
    | (extract_lets +onlyGivenNames x; clear_value x)

theorem laneStop_get {s : State} {r : Nat} {fld0 : Fld} {i0 j0 : Nat} (hK : Foot.laneStop (notFld fld0) = true)  : (laneStop
    s r).get fld0 i0 j0 = s.get fld0 i0 j0 :=
  laneStop_closed (P := fun x => x.get fld0 i0 j0 = s.get fld0 i0 j0) (field_closed fld0 i0 j0 _) hK  rfl

def Foot.laneGate (K : Part → Bool) : Bool := K (.fld .LN_STATUS_RUN) && (Foot.laneStop K)

theorem laneGate_closed {K : Part → Bool} {P : State → Prop} {s : State} {r : Nat} (hP : Closed K P) (hK : Foot.laneGate K =
    true) (hs_s : P s) :
    P (laneGate s r) := by
  simp only [Foot.laneGate, Bool.and_eq_true] at hK
  obtain ⟨hK0, hK1⟩ := hK
  unfold laneGate
  with_reducible repeat' first
    | assumption
    | refine laneStop_closed hP ?_ ?_
    | refine hP.raise ?_ ?_
    | refine ite_closed ?_ ?_
    | split

theorem laneGate_get {s : State} {r : Nat} {fld0 : Fld} {i0 j0 : Nat} (hK : Foot.laneGate (notFld fld0) = true)  : (laneGate
    s r).get fld0 i0 j0 = s.get fld0 i0 j0 :=
  laneGate_closed (P := fun x => x.get fld0 i0 j0 = s.get fld0 i0 j0) (field_closed fld0 i0 j0 _) hK  rfl

def Foot.execCommit (K : Part → Bool) : Bool := Foot.commitBank K

theorem execCommit_closed {K : Part → Bool} {P : State → Prop} {r : Rail} {s : State} (hP : Closed K P) (hK : Foot.execCommit
    K = true) (hs_s : P s) :
    OutAll P (execCommit r s) := by
  simp only [Foot.execCommit, Bool.and_eq_true] at hK
  unfold execCommit
  with_reducible repeat' first
    | assumption
    | refine commitBank_closed hP ?_ ?_
    | refine OutAll.mk ?_

def Foot.execCopy (K : Part → Bool) : Bool := Foot.copyBank K

theorem execCopy_closed {K : Part → Bool} {P : State → Prop} {r : Rail} {s : State} (hP : Closed K P) (hK : Foot.execCopy K =
    true) (hs_s : P s) :
    OutAll P (execCopy r s) := by
  simp only [Foot.execCopy, Bool.and_eq_true] at hK
  unfold execCopy
  with_reducible repeat' first
    | assumption
    | refine copyBank_closed hP ?_ ?_
    | refine OutAll.mk ?_

def Foot.execSetpointWrite (K : Part → Bool) : Bool := Foot.setpointWrite K

theorem execSetpointWrite_closed {K : Part → Bool} {P : State → Prop} {r : Rail} {v : BitVec 14} {s : State} (hP : Closed K
    P) (hK : Foot.execSetpointWrite K = true) (hs_s : P s) :
    OutAll P (execSetpointWrite r v s) := by
  simp only [Foot.execSetpointWrite, Bool.and_eq_true] at hK
  unfold execSetpointWrite
  with_reducible repeat' first
    | assumption
    | refine setpointWrite_closed hP ?_ ?_
    | refine OutAll.mk ?_
    | intro _
    | (extract_lets +onlyGivenNames x; apply thenHave (p := P x); (unfold x; clear x); rotate_left 1; (intro hx; clear_value x))
    | (extract_lets +onlyGivenNames x; clear_value x)
    | (extract_lets +onlyGivenNames x)
    | refine ite_closed ?_ ?_
    | split

end Sys2Proof.Machine
end

