-- ==== Sys2Proof/Laws/ClosedSluice.lean ====
section
/-! SUPPORT. What the functions of Machine/Sluice.lean can write, and that they keep every closed property (Laws/Closed.lean). -/
namespace Sys2Proof.Machine

set_option Elab.async false
set_option linter.all false

def Foot.csubWrite (K : Part → Bool) : Bool := K (.fld .csubReq) && (K .writes)

theorem csubWrite_closed {K : Part → Bool} {P : State → Prop} {s : State} {c : Nat} {k : Nat} (hP : Closed K P) (hK :
    Foot.csubWrite K = true) (hs_s : P s) :
    P (csubWrite s c k) := by
  simp only [Foot.csubWrite, Bool.and_eq_true] at hK
  obtain ⟨hK0, hK1⟩ := hK
  unfold csubWrite
  with_reducible repeat' first
    | assumption
    | refine hP.raise ?_ ?_
    | refine hP.later ?_ ?_

theorem csubWrite_get {s : State} {c : Nat} {k : Nat} {fld0 : Fld} {i0 j0 : Nat} (hK : Foot.csubWrite (notFld fld0) = true) 
    : (csubWrite s c k).get fld0 i0 j0 = s.get fld0 i0 j0 :=
  csubWrite_closed (P := fun x => x.get fld0 i0 j0 = s.get fld0 i0 j0) (field_closed fld0 i0 j0 _) hK  rfl

def Foot.recomputeOffsets (K : Part → Bool) : Bool := K (.fld .ofsFrom) && (K (.fld .SL_POFS) && (K (.fld .SL_PSTAT_POS)))

theorem recomputeOffsets_closed {K : Part → Bool} {P : State → Prop} {s : State} {r : Nat} {at_ : Int} (hP : Closed K P) (hK
    : Foot.recomputeOffsets K = true) (hs_s : P s) :
    P (recomputeOffsets s r at_) := by
  simp only [Foot.recomputeOffsets, Bool.and_eq_true] at hK
  obtain ⟨hK0, hK1, hK2⟩ := hK
  unfold recomputeOffsets
  with_reducible repeat' first
    | assumption
    | refine hP.put _ _ _ _ _ ?_ ?_
    | refine Closed.each ?_ _ ?_
    | refine Closed.when ?_ ?_
    | intro _
    | (extract_lets +onlyGivenNames x; apply thenHave (p := P x); (unfold x; clear x); rotate_left 1; (intro hx; clear_value x))
    | (extract_lets +onlyGivenNames x; clear_value x)

theorem recomputeOffsets_get {s : State} {r : Nat} {at_ : Int} {fld0 : Fld} {i0 j0 : Nat} (hK : Foot.recomputeOffsets (notFld
    fld0) = true)  : (recomputeOffsets s r at_).get fld0 i0 j0 = s.get fld0 i0 j0 :=
  recomputeOffsets_closed (P := fun x => x.get fld0 i0 j0 = s.get fld0 i0 j0) (field_closed fld0 i0 j0 _) hK  rfl

def Foot.activeChanged (K : Part → Bool) : Bool := K (.fld .SL_RSTAT_NACT) && (Foot.recomputeOffsets K)

theorem activeChanged_closed {K : Part → Bool} {P : State → Prop} {s : State} {r : Nat} (hP : Closed K P) (hK :
    Foot.activeChanged K = true) (hs_s : P s) :
    P (activeChanged s r) := by
  simp only [Foot.activeChanged, Bool.and_eq_true] at hK
  obtain ⟨hK0, hK1⟩ := hK
  unfold activeChanged
  with_reducible repeat' first
    | assumption
    | refine recomputeOffsets_closed hP ?_ ?_
    | refine hP.put _ _ _ _ _ ?_ ?_

theorem activeChanged_get {s : State} {r : Nat} {fld0 : Fld} {i0 j0 : Nat} (hK : Foot.activeChanged (notFld fld0) = true)  :
    (activeChanged s r).get fld0 i0 j0 = s.get fld0 i0 j0 :=
  activeChanged_closed (P := fun x => x.get fld0 i0 j0 = s.get fld0 i0 j0) (field_closed fld0 i0 j0 _) hK  rfl

def Foot.sluiceFlag (K : Part → Bool) : Bool := Foot.flagPub K

theorem sluiceFlag_closed {K : Part → Bool} {P : State → Prop} {s : State} {f : Fld} {r : Nat} (hP : Closed K P) (hK :
    Foot.sluiceFlag K = true) (hK_f : K (.fld f) = true) (hs_s : P s) :
    P (sluiceFlag s f r) := by
  simp only [Foot.sluiceFlag, Bool.and_eq_true] at hK
  unfold sluiceFlag
  with_reducible repeat' first
    | assumption
    | refine flagPub_closed hP ?_ ?_ ?_

theorem sluiceFlag_get {s : State} {f : Fld} {r : Nat} {fld0 : Fld} {i0 j0 : Nat} (hK : Foot.sluiceFlag (notFld fld0) = true)
    (hg_f : (decide (f = fld0)) = false) : (sluiceFlag s f r).get fld0 i0 j0 = s.get fld0 i0 j0 :=
  sluiceFlag_closed (P := fun x => x.get fld0 i0 j0 = s.get fld0 i0 j0) (field_closed fld0 i0 j0 _) hK (notFld_true hg_f) rfl

def Foot.enterActive (K : Part → Bool) : Bool := K (.fld .SL_RACT) && (K (.fld .cycAny) && (K (.fld .addFrom) && (K (.fld
    .dropState) && (K (.fld .SL_PSTAT_ACT) && (K (.fld .lnBalFrom) && (K (.fld .LN_BAL) && (K (.fld .lnBalAcc) && (K (.fld
    .PH_STARTS)))))))))

theorem enterActive_closed {K : Part → Bool} {P : State → Prop} {s : State} {r : Nat} {j : Nat} (hP : Closed K P) (hK :
    Foot.enterActive K = true) (hs_s : P s) :
    P (enterActive s r j) := by
  simp only [Foot.enterActive, Bool.and_eq_true] at hK
  obtain ⟨hK0, hK1, hK2, hK3, hK4, hK5, hK6, hK7, hK8⟩ := hK
  unfold enterActive
  with_reducible repeat' first
    | assumption
    | refine hP.put _ _ _ _ _ ?_ ?_
    | refine hP.clear ?_ ?_
    | refine hP.raise ?_ ?_
    | refine hP.bump ?_ ?_
    | refine hP.setBits ?_ ?_
    | refine Closed.when ?_ ?_
    | intro _
    | (extract_lets +onlyGivenNames x; apply thenHave (p := P x); (unfold x; clear x); rotate_left 1; (intro hx; clear_value x))
    | (extract_lets +onlyGivenNames x; clear_value x)

theorem enterActive_get {s : State} {r : Nat} {j : Nat} {fld0 : Fld} {i0 j0 : Nat} (hK : Foot.enterActive (notFld fld0) =
    true)  : (enterActive s r j).get fld0 i0 j0 = s.get fld0 i0 j0 :=
  enterActive_closed (P := fun x => x.get fld0 i0 j0 = s.get fld0 i0 j0) (field_closed fld0 i0 j0 _) hK  rfl

def Foot.leaveActive (K : Part → Bool) : Bool := K (.fld .SL_RACT) && (K (.fld .onSched) && (K (.fld .SL_PSTAT_POS) && (K
    (.fld .SL_PSTAT_ACT) && (K (.fld .termCyc) && (K (.fld .ocCnt) && (K (.fld .LN_BAL) && (K (.fld .lnBalAcc) && (K (.fld
    .dropState) && (K (.fld .dropFrom))))))))))

theorem leaveActive_closed {K : Part → Bool} {P : State → Prop} {s : State} {r : Nat} {j : Nat} (hP : Closed K P) (hK :
    Foot.leaveActive K = true) (hs_s : P s) :
    P (leaveActive s r j) := by
  simp only [Foot.leaveActive, Bool.and_eq_true] at hK
  obtain ⟨hK0, hK1, hK2, hK3, hK4, hK5, hK6, hK7, hK8, hK9⟩ := hK
  unfold leaveActive
  with_reducible repeat' first
    | assumption
    | refine hP.put _ _ _ _ _ ?_ ?_
    | refine hP.clear ?_ ?_
    | refine hP.clrBits ?_ ?_
    | (extract_lets +onlyGivenNames x; apply thenHave (p := P x); (unfold x; clear x); rotate_left 1; (intro hx; clear_value x))
    | (extract_lets +onlyGivenNames x; clear_value x)
    | refine ite_closed ?_ ?_
    | split

theorem leaveActive_get {s : State} {r : Nat} {j : Nat} {fld0 : Fld} {i0 j0 : Nat} (hK : Foot.leaveActive (notFld fld0) =
    true)  : (leaveActive s r j).get fld0 i0 j0 = s.get fld0 i0 j0 :=
  leaveActive_closed (P := fun x => x.get fld0 i0 j0 = s.get fld0 i0 j0) (field_closed fld0 i0 j0 _) hK  rfl

def Foot.addDropBoundary (K : Part → Bool) : Bool := K (.fld .dropReq) && (K (.fld .addReq) && (K (.fld .SL_RSTAT_NMIN) &&
    (Foot.sluiceFlag K && (Foot.enterActive K && (Foot.leaveActive K && (Foot.activeChanged K && (K (.fld .SL_RFLAG_ADDREF)
    && (K (.fld .SL_RFLAG_NMINREF)))))))))

theorem addDropBoundary_closed {K : Part → Bool} {P : State → Prop} {s : State} {r : Nat} (hP : Closed K P) (hK :
    Foot.addDropBoundary K = true) (hs_s : P s) :
    P (addDropBoundary s r) := by
  simp only [Foot.addDropBoundary, Bool.and_eq_true] at hK
  obtain ⟨hK0, hK1, hK2, hK3, hK4, hK5, hK6, hK7, hK8⟩ := hK
  unfold addDropBoundary
  with_reducible repeat' first
    | assumption
    | refine sluiceFlag_closed hP ?_ ?_ ?_
    | refine enterActive_closed hP ?_ ?_
    | refine leaveActive_closed hP ?_ ?_
    | refine activeChanged_closed hP ?_ ?_
    | refine hP.put _ _ _ _ _ ?_ ?_
    | refine hP.clear ?_ ?_
    | refine Closed.each ?_ _ ?_
    | refine Closed.when ?_ ?_
    | intro _
    | (extract_lets +onlyGivenNames x; apply thenHave (p := P x); (unfold x; clear x); rotate_left 1; (intro hx; clear_value x))
    | (extract_lets +onlyGivenNames x; clear_value x)
    | refine ite_closed ?_ ?_
    | split

theorem addDropBoundary_get {s : State} {r : Nat} {fld0 : Fld} {i0 j0 : Nat} (hK : Foot.addDropBoundary (notFld fld0) = true)
     : (addDropBoundary s r).get fld0 i0 j0 = s.get fld0 i0 j0 :=
  addDropBoundary_closed (P := fun x => x.get fld0 i0 j0 = s.get fld0 i0 j0) (field_closed fld0 i0 j0 _) hK  rfl

def Foot.dropPulseEnd (K : Part → Bool) : Bool := K (.fld .dropState) && (K (.fld .dropFrom))

theorem dropPulseEnd_closed {K : Part → Bool} {P : State → Prop} {s : State} {p : Nat} (hP : Closed K P) (hK :
    Foot.dropPulseEnd K = true) (hs_s : P s) :
    P (dropPulseEnd s p) := by
  simp only [Foot.dropPulseEnd, Bool.and_eq_true] at hK
  obtain ⟨hK0, hK1⟩ := hK
  unfold dropPulseEnd
  with_reducible repeat' first
    | assumption
    | refine hP.put _ _ _ _ _ ?_ ?_
    | refine hP.clear ?_ ?_
    | refine ite_closed ?_ ?_
    | split

theorem dropPulseEnd_get {s : State} {p : Nat} {fld0 : Fld} {i0 j0 : Nat} (hK : Foot.dropPulseEnd (notFld fld0) = true)  :
    (dropPulseEnd s p).get fld0 i0 j0 = s.get fld0 i0 j0 :=
  dropPulseEnd_closed (P := fun x => x.get fld0 i0 j0 = s.get fld0 i0 j0) (field_closed fld0 i0 j0 _) hK  rfl

def Foot.refreshPhase (K : Part → Bool) : Bool := K (.fld .insOn) && (K (.fld .offSched) && (K (.fld .onSched) && (K (.fld
    .modHigh) && (K (.fld .blocked) && (K (.fld .insEnd) && (K (.fld .insStart) && (K (.fld .offKnown) && (K (.fld .relAt) &&
    (K (.fld .offAt) && (K (.fld .highAt) && (K (.fld .pwmHigh) && (K (.fld .SL_PTON) && (K (.fld .rbArmed) && (K (.fld
    .SL_PSTAT_LEVEL) && (Foot.dropPulseEnd K)))))))))))))))

theorem refreshPhase_closed {K : Part → Bool} {P : State → Prop} {s : State} {p : Nat} {t : Int} (hP : Closed K P) (hK :
    Foot.refreshPhase K = true) (hs_s : P s) :
    P (refreshPhase s p t) := by
  simp only [Foot.refreshPhase, Bool.and_eq_true] at hK
  obtain ⟨hK0, hK1, hK2, hK3, hK4, hK5, hK6, hK7, hK8, hK9, hK10, hK11, hK12, hK13, hK14, hK15⟩ := hK
  unfold refreshPhase
  with_reducible repeat' first
    | assumption
    | refine dropPulseEnd_closed hP ?_ ?_
    | refine hP.put _ _ _ _ _ ?_ ?_
    | refine hP.clear ?_ ?_
    | refine hP.raise ?_ ?_
    | refine Closed.when ?_ ?_
    | intro _
    | (extract_lets +onlyGivenNames x; apply thenHave (p := P x); (unfold x; clear x); rotate_left 1; (intro hx; clear_value x))
    | (extract_lets +onlyGivenNames x; clear_value x)
    | refine ite_closed ?_ ?_
    | split

theorem refreshPhase_get {s : State} {p : Nat} {t : Int} {fld0 : Fld} {i0 j0 : Nat} (hK : Foot.refreshPhase (notFld fld0) =
    true)  : (refreshPhase s p t).get fld0 i0 j0 = s.get fld0 i0 j0 :=
  refreshPhase_closed (P := fun x => x.get fld0 i0 j0 = s.get fld0 i0 j0) (field_closed fld0 i0 j0 _) hK  rfl

def Foot.refreshRail (K : Part → Bool) : Bool := Foot.refreshPhase K

theorem refreshRail_closed {K : Part → Bool} {P : State → Prop} {s : State} {r : Nat} {t : Int} (hP : Closed K P) (hK :
    Foot.refreshRail K = true) (hs_s : P s) :
    P (refreshRail s r t) := by
  simp only [Foot.refreshRail, Bool.and_eq_true] at hK
  unfold refreshRail
  with_reducible repeat' first
    | assumption
    | refine refreshPhase_closed hP ?_ ?_
    | refine Closed.each ?_ _ ?_
    | intro _

theorem refreshRail_get {s : State} {r : Nat} {t : Int} {fld0 : Fld} {i0 j0 : Nat} (hK : Foot.refreshRail (notFld fld0) =
    true)  : (refreshRail s r t).get fld0 i0 j0 = s.get fld0 i0 j0 :=
  refreshRail_closed (P := fun x => x.get fld0 i0 j0 = s.get fld0 i0 j0) (field_closed fld0 i0 j0 _) hK  rfl

def Foot.phaseFlag (K : Part → Bool) : Bool := Foot.hwPublish K

theorem phaseFlag_closed {K : Part → Bool} {P : State → Prop} {s : State} {f : Fld} {p : Nat} (hP : Closed K P) (hK :
    Foot.phaseFlag K = true) (hK_f : K (.fld f) = true) (hs_s : P s) :
    P (phaseFlag s f p) := by
  simp only [Foot.phaseFlag, Bool.and_eq_true] at hK
  unfold phaseFlag
  with_reducible repeat' first
    | assumption
    | refine hwPublish_closed hP ?_ ?_
    | refine hP.raise ?_ ?_
    | refine ite_closed ?_ ?_
    | split

theorem phaseFlag_get {s : State} {f : Fld} {p : Nat} {fld0 : Fld} {i0 j0 : Nat} (hK : Foot.phaseFlag (notFld fld0) = true)
    (hg_f : (decide (f = fld0)) = false) : (phaseFlag s f p).get fld0 i0 j0 = s.get fld0 i0 j0 :=
  phaseFlag_closed (P := fun x => x.get fld0 i0 j0 = s.get fld0 i0 j0) (field_closed fld0 i0 j0 _) hK (notFld_true hg_f) rfl

def Foot.serveSpare (K : Part → Bool) : Bool := K (.fld .SL_PSTAT_EGSP) && (K (.fld .egWait))

theorem serveSpare_closed {K : Part → Bool} {P : State → Prop} {s : State} {p : Nat} (hP : Closed K P) (hK : Foot.serveSpare
    K = true) (hs_s : P s) :
    P (serveSpare s p) := by
  simp only [Foot.serveSpare, Bool.and_eq_true] at hK
  obtain ⟨hK0, hK1⟩ := hK
  unfold serveSpare
  with_reducible repeat' first
    | assumption
    | refine hP.clear ?_ ?_
    | refine hP.raise ?_ ?_
    | refine Closed.when ?_ ?_
    | intro _

theorem serveSpare_get {s : State} {p : Nat} {fld0 : Fld} {i0 j0 : Nat} (hK : Foot.serveSpare (notFld fld0) = true)  :
    (serveSpare s p).get fld0 i0 j0 = s.get fld0 i0 j0 :=
  serveSpare_closed (P := fun x => x.get fld0 i0 j0 = s.get fld0 i0 j0) (field_closed fld0 i0 j0 _) hK  rfl

def Foot.scheduleOff (K : Part → Bool) : Bool := K (.fld .offCause) && (K (.fld .offSched))

theorem scheduleOff_closed {K : Part → Bool} {P : State → Prop} {s : State} {r : Nat} {p : Nat} {t : Int} {known : Int} (hP :
    Closed K P) (hK : Foot.scheduleOff K = true) (hs_s : P s) :
    P (scheduleOff s r p t known) := by
  simp only [Foot.scheduleOff, Bool.and_eq_true] at hK
  obtain ⟨hK0, hK1⟩ := hK
  unfold scheduleOff
  with_reducible repeat' first
    | assumption
    | refine hP.put _ _ _ _ _ ?_ ?_
    | (extract_lets +onlyGivenNames x; apply thenHave (p := P x); (unfold x; clear x); rotate_left 1; (intro hx; clear_value x))
    | (extract_lets +onlyGivenNames x; clear_value x)
    | refine ite_closed ?_ ?_
    | split

theorem scheduleOff_get {s : State} {r : Nat} {p : Nat} {t : Int} {known : Int} {fld0 : Fld} {i0 j0 : Nat} (hK :
    Foot.scheduleOff (notFld fld0) = true)  : (scheduleOff s r p t known).get fld0 i0 j0 = s.get fld0 i0 j0 :=
  scheduleOff_closed (P := fun x => x.get fld0 i0 j0 = s.get fld0 i0 j0) (field_closed fld0 i0 j0 _) hK  rfl

def Foot.terminatePulse (K : Part → Bool) : Bool := K (.fld .insEnd) && (K (.fld .insOn) && (K (.fld .offSched) && (K (.fld
    .modHigh) && (K (.fld .WR_FLAG_TERM) && (K (.fld .offKnown) && (K (.fld .offAt) && (K (.fld .ocCnt) && (K (.fld .termCyc)
    && (Foot.dropPulseEnd K && (Foot.refreshPhase K))))))))))

theorem terminatePulse_closed {K : Part → Bool} {P : State → Prop} {s : State} {p : Nat} {t : Int} (hP : Closed K P) (hK :
    Foot.terminatePulse K = true) (hs_s : P s) :
    P (terminatePulse s p t) := by
  simp only [Foot.terminatePulse, Bool.and_eq_true] at hK
  obtain ⟨hK0, hK1, hK2, hK3, hK4, hK5, hK6, hK7, hK8, hK9, hK10⟩ := hK
  unfold terminatePulse
  with_reducible repeat' first
    | assumption
    | refine dropPulseEnd_closed hP ?_ ?_
    | refine refreshPhase_closed hP ?_ ?_
    | refine hP.put _ _ _ _ _ ?_ ?_
    | refine hP.clear ?_ ?_
    | refine hP.raise ?_ ?_
    | refine hP.bump ?_ ?_
    | refine hP.setBits ?_ ?_
    | refine hP.clrBits ?_ ?_
    | refine Closed.when ?_ ?_
    | intro _
    | (extract_lets +onlyGivenNames x; apply thenHave (p := P x); (unfold x; clear x); rotate_left 1; (intro hx; clear_value x))
    | (extract_lets +onlyGivenNames x; clear_value x)
    | (extract_lets +onlyGivenNames x)
    | refine ite_closed ?_ ?_
    | split

theorem terminatePulse_get {s : State} {p : Nat} {t : Int} {fld0 : Fld} {i0 j0 : Nat} (hK : Foot.terminatePulse (notFld fld0)
    = true)  : (terminatePulse s p t).get fld0 i0 j0 = s.get fld0 i0 j0 :=
  terminatePulse_closed (P := fun x => x.get fld0 i0 j0 = s.get fld0 i0 j0) (field_closed fld0 i0 j0 _) hK  rfl

def Foot.onEdge (K : Part → Bool) : Bool := K (.fld .onSched) && (K (.fld .midZc) && (K (.fld .onAt) && (K (.fld .modHigh) &&
    (K (.fld .SL_PCYC) && (Foot.serveSpare K && (Foot.phaseFlag K && (Foot.scheduleOff K && (Foot.refreshPhase K &&
    (Foot.terminatePulse K && (K (.fld .SL_PFLAG_PSKIP)))))))))))

theorem onEdge_closed {K : Part → Bool} {P : State → Prop} {s : State} {r : Nat} {p : Nat} {t : Int} (hP : Closed K P) (hK :
    Foot.onEdge K = true) (hs_s : P s) :
    P (onEdge s r p t) := by
  simp only [Foot.onEdge, Bool.and_eq_true] at hK
  obtain ⟨hK0, hK1, hK2, hK3, hK4, hK5, hK6, hK7, hK8, hK9, hK10⟩ := hK
  unfold onEdge
  with_reducible repeat' first
    | assumption
    | refine serveSpare_closed hP ?_ ?_
    | refine phaseFlag_closed hP ?_ ?_ ?_
    | refine scheduleOff_closed hP ?_ ?_
    | refine refreshPhase_closed hP ?_ ?_
    | refine terminatePulse_closed hP ?_ ?_
    | refine hP.put _ _ _ _ _ ?_ ?_
    | refine hP.clear ?_ ?_
    | refine hP.raise ?_ ?_
    | (extract_lets +onlyGivenNames x; apply thenHave (p := P x); (unfold x; clear x); rotate_left 1; (intro hx; clear_value x))
    | (extract_lets +onlyGivenNames x; clear_value x)
    | refine ite_closed ?_ ?_
    | split

theorem onEdge_get {s : State} {r : Nat} {p : Nat} {t : Int} {fld0 : Fld} {i0 j0 : Nat} (hK : Foot.onEdge (notFld fld0) =
    true)  : (onEdge s r p t).get fld0 i0 j0 = s.get fld0 i0 j0 :=
  onEdge_closed (P := fun x => x.get fld0 i0 j0 = s.get fld0 i0 j0) (field_closed fld0 i0 j0 _) hK  rfl

def Foot.askOn (K : Part → Bool) : Bool := K (.fld .onSched) && (Foot.phaseFlag K && (Foot.onEdge K && (K (.fld
    .SL_PFLAG_TOFFMINHIT) && (K (.fld .SL_PFLAG_PSKIP)))))

theorem askOn_closed {K : Part → Bool} {P : State → Prop} {s : State} {r : Nat} {p : Nat} {t : Int} (hP : Closed K P) (hK :
    Foot.askOn K = true) (hs_s : P s) :
    P (askOn s r p t) := by
  simp only [Foot.askOn, Bool.and_eq_true] at hK
  obtain ⟨hK0, hK1, hK2, hK3, hK4⟩ := hK
  unfold askOn
  with_reducible repeat' first
    | assumption
    | refine phaseFlag_closed hP ?_ ?_ ?_
    | refine onEdge_closed hP ?_ ?_
    | refine hP.put _ _ _ _ _ ?_ ?_
    | (extract_lets +onlyGivenNames x; apply thenHave (p := P x); (unfold x; clear x); rotate_left 1; (intro hx; clear_value x))
    | (extract_lets +onlyGivenNames x; clear_value x)
    | refine ite_closed ?_ ?_
    | split

theorem askOn_get {s : State} {r : Nat} {p : Nat} {t : Int} {fld0 : Fld} {i0 j0 : Nat} (hK : Foot.askOn (notFld fld0) = true)
     : (askOn s r p t).get fld0 i0 j0 = s.get fld0 i0 j0 :=
  askOn_closed (P := fun x => x.get fld0 i0 j0 = s.get fld0 i0 j0) (field_closed fld0 i0 j0 _) hK  rfl

def Foot.carrierStart (K : Part → Bool) : Bool := K (.fld .cmpUsed) && (K (.fld .cycAny) && (K (.fld .cycStart) && (K (.fld
    .termCyc) && (K (.fld .ocCnt) && (Foot.refreshPhase K && (Foot.serveSpare K && (Foot.askOn K)))))))

theorem carrierStart_closed {K : Part → Bool} {P : State → Prop} {s : State} {p : Nat} (hP : Closed K P) (hK :
    Foot.carrierStart K = true) (hs_s : P s) :
    P (carrierStart s p) := by
  simp only [Foot.carrierStart, Bool.and_eq_true] at hK
  obtain ⟨hK0, hK1, hK2, hK3, hK4, hK5, hK6, hK7⟩ := hK
  unfold carrierStart
  with_reducible repeat' first
    | assumption
    | refine refreshPhase_closed hP ?_ ?_
    | refine serveSpare_closed hP ?_ ?_
    | refine askOn_closed hP ?_ ?_
    | refine hP.put _ _ _ _ _ ?_ ?_
    | refine hP.clear ?_ ?_
    | refine hP.raise ?_ ?_
    | (extract_lets +onlyGivenNames x; apply thenHave (p := P x); (unfold x; clear x); rotate_left 1; (intro hx; clear_value x))
    | (extract_lets +onlyGivenNames x; clear_value x)
    | refine ite_closed ?_ ?_
    | split

theorem carrierStart_get {s : State} {p : Nat} {fld0 : Fld} {i0 j0 : Nat} (hK : Foot.carrierStart (notFld fld0) = true)  :
    (carrierStart s p).get fld0 i0 j0 = s.get fld0 i0 j0 :=
  carrierStart_closed (P := fun x => x.get fld0 i0 j0 = s.get fld0 i0 j0) (field_closed fld0 i0 j0 _) hK  rfl

def Foot.programRail (K : Part → Bool) : Bool := K (.fld .tbWrap) && (Foot.refreshRail K && (Foot.activeChanged K))

theorem programRail_closed {K : Part → Bool} {P : State → Prop} {s : State} {r : Nat} (hP : Closed K P) (hK :
    Foot.programRail K = true) (hs_s : P s) :
    P (programRail s r) := by
  simp only [Foot.programRail, Bool.and_eq_true] at hK
  obtain ⟨hK0, hK1, hK2⟩ := hK
  unfold programRail
  with_reducible repeat' first
    | assumption
    | refine refreshRail_closed hP ?_ ?_
    | refine activeChanged_closed hP ?_ ?_
    | refine hP.put _ _ _ _ _ ?_ ?_

theorem programRail_get {s : State} {r : Nat} {fld0 : Fld} {i0 j0 : Nat} (hK : Foot.programRail (notFld fld0) = true)  :
    (programRail s r).get fld0 i0 j0 = s.get fld0 i0 j0 :=
  programRail_closed (P := fun x => x.get fld0 i0 j0 = s.get fld0 i0 j0) (field_closed fld0 i0 j0 _) hK  rfl

def Foot.loseGenerator (K : Part → Bool) : Bool := K (.fld .SL_PSTAT_EGFAIL) && (Foot.refreshPhase K && (Foot.requestRetire
    K))

theorem loseGenerator_closed {K : Part → Bool} {P : State → Prop} {s : State} {p : Nat} (hP : Closed K P) (hK :
    Foot.loseGenerator K = true) (hs_s : P s) :
    P (loseGenerator s p) := by
  simp only [Foot.loseGenerator, Bool.and_eq_true] at hK
  obtain ⟨hK0, hK1, hK2⟩ := hK
  unfold loseGenerator
  with_reducible repeat' first
    | assumption
    | refine refreshPhase_closed hP ?_ ?_
    | refine requestRetire_closed hP ?_ ?_
    | refine hP.raise ?_ ?_

theorem loseGenerator_get {s : State} {p : Nat} {fld0 : Fld} {i0 j0 : Nat} (hK : Foot.loseGenerator (notFld fld0) = true)  :
    (loseGenerator s p).get fld0 i0 j0 = s.get fld0 i0 j0 :=
  loseGenerator_closed (P := fun x => x.get fld0 i0 j0 = s.get fld0 i0 j0) (field_closed fld0 i0 j0 _) hK  rfl

def Foot.takeSpareGen (K : Part → Bool) : Bool := K (.fld .SL_CEG_SPUSE) && (K (.fld .SL_CEG_SPFOR) && (K (.fld .egWait) &&
    (K (.fld .rbCnt) && (Foot.refreshPhase K))))

theorem takeSpareGen_closed {K : Part → Bool} {P : State → Prop} {s : State} {p : Nat} {t : Int} (hP : Closed K P) (hK :
    Foot.takeSpareGen K = true) (hs_s : P s) :
    P (takeSpareGen s p t) := by
  simp only [Foot.takeSpareGen, Bool.and_eq_true] at hK
  obtain ⟨hK0, hK1, hK2, hK3, hK4⟩ := hK
  unfold takeSpareGen
  with_reducible repeat' first
    | assumption
    | refine refreshPhase_closed hP ?_ ?_
    | refine hP.put _ _ _ _ _ ?_ ?_
    | refine hP.clear ?_ ?_
    | refine hP.raise ?_ ?_
    | (extract_lets +onlyGivenNames x; apply thenHave (p := P x); (unfold x; clear x); rotate_left 1; (intro hx; clear_value x))
    | (extract_lets +onlyGivenNames x; clear_value x)

theorem takeSpareGen_get {s : State} {p : Nat} {t : Int} {fld0 : Fld} {i0 j0 : Nat} (hK : Foot.takeSpareGen (notFld fld0) =
    true)  : (takeSpareGen s p t).get fld0 i0 j0 = s.get fld0 i0 j0 :=
  takeSpareGen_closed (P := fun x => x.get fld0 i0 j0 = s.get fld0 i0 j0) (field_closed fld0 i0 j0 _) hK  rfl

def Foot.declareGenerator (K : Part → Bool) : Bool := K (.fld .egTrial) && (K (.fld .SL_CEG_SPUSE) && (K (.fld .SL_CEG_FAIL)
    && (K (.fld .egWait) && (K (.fld .SL_PSTAT_EGSP) && (K (.fld .SL_CEG_SPFOR) && (Foot.loseGenerator K &&
    (Foot.takeSpareGen K)))))))

theorem declareGenerator_closed {K : Part → Bool} {P : State → Prop} {s : State} {c : Nat} {k : Nat} (hP : Closed K P) (hK :
    Foot.declareGenerator K = true) (hs_s : P s) :
    P (declareGenerator s c k) := by
  simp only [Foot.declareGenerator, Bool.and_eq_true] at hK
  obtain ⟨hK0, hK1, hK2, hK3, hK4, hK5, hK6, hK7⟩ := hK
  unfold declareGenerator
  with_reducible repeat' first
    | assumption
    | refine loseGenerator_closed hP ?_ ?_
    | refine takeSpareGen_closed hP ?_ ?_
    | refine hP.clear ?_ ?_
    | refine hP.setBits ?_ ?_
    | (extract_lets +onlyGivenNames x; apply thenHave (p := P x); (unfold x; clear x); rotate_left 1; (intro hx; clear_value x))
    | (extract_lets +onlyGivenNames x; clear_value x)
    | refine ite_closed ?_ ?_
    | split

theorem declareGenerator_get {s : State} {c : Nat} {k : Nat} {fld0 : Fld} {i0 j0 : Nat} (hK : Foot.declareGenerator (notFld
    fld0) = true)  : (declareGenerator s c k).get fld0 i0 j0 = s.get fld0 i0 j0 :=
  declareGenerator_closed (P := fun x => x.get fld0 i0 j0 = s.get fld0 i0 j0) (field_closed fld0 i0 j0 _) hK  rfl

def Foot.csubBoundary (K : Part → Bool) : Bool := K (.fld .csubReq) && (Foot.declareGenerator K)

theorem csubBoundary_closed {K : Part → Bool} {P : State → Prop} {s : State} {c : Nat} (hP : Closed K P) (hK :
    Foot.csubBoundary K = true) (hs_s : P s) :
    P (csubBoundary s c) := by
  simp only [Foot.csubBoundary, Bool.and_eq_true] at hK
  obtain ⟨hK0, hK1⟩ := hK
  unfold csubBoundary
  with_reducible repeat' first
    | assumption
    | refine declareGenerator_closed hP ?_ ?_
    | refine hP.clear ?_ ?_
    | refine Closed.each ?_ _ ?_
    | intro _

theorem csubBoundary_get {s : State} {c : Nat} {fld0 : Fld} {i0 j0 : Nat} (hK : Foot.csubBoundary (notFld fld0) = true)  :
    (csubBoundary s c).get fld0 i0 j0 = s.get fld0 i0 j0 :=
  csubBoundary_closed (P := fun x => x.get fld0 i0 j0 = s.get fld0 i0 j0) (field_closed fld0 i0 j0 _) hK  rfl

def Foot.deliverCommands (K : Part → Bool) : Bool := K (.fld .sluiceCmd)

theorem deliverCommands_closed {K : Part → Bool} {P : State → Prop} {s : State} {r : Nat} (hP : Closed K P) (hK :
    Foot.deliverCommands K = true) (hs_s : P s) :
    P (deliverCommands s r) := by
  simp only [Foot.deliverCommands, Bool.and_eq_true] at hK
  unfold deliverCommands
  with_reducible repeat' first
    | assumption
    | refine hP.put _ _ _ _ _ ?_ ?_
    | refine Closed.each ?_ _ ?_
    | intro _
    | (extract_lets +onlyGivenNames x; apply thenHave (p := P x); (unfold x; clear x); rotate_left 1; (intro hx; clear_value x))
    | (extract_lets +onlyGivenNames x; clear_value x)
    | refine ite_closed ?_ ?_
    | split

theorem deliverCommands_get {s : State} {r : Nat} {fld0 : Fld} {i0 j0 : Nat} (hK : Foot.deliverCommands (notFld fld0) = true)
     : (deliverCommands s r).get fld0 i0 j0 = s.get fld0 i0 j0 :=
  deliverCommands_closed (P := fun x => x.get fld0 i0 j0 = s.get fld0 i0 j0) (field_closed fld0 i0 j0 _) hK  rfl

def Foot.valleyTon (K : Part → Bool) : Bool := K (.fld .SL_RTON) && (Foot.sluiceFlag K && (K (.fld .SL_RFLAG_VINLOW)))

theorem valleyTon_closed {K : Part → Bool} {P : State → Prop} {s : State} {r : Nat} (hP : Closed K P) (hK : Foot.valleyTon K
    = true) (hs_s : P s) :
    P (valleyTon s r) := by
  simp only [Foot.valleyTon, Bool.and_eq_true] at hK
  obtain ⟨hK0, hK1, hK2⟩ := hK
  unfold valleyTon
  with_reducible repeat' first
    | assumption
    | refine sluiceFlag_closed hP ?_ ?_ ?_
    | refine hP.put _ _ _ _ _ ?_ ?_
    | (extract_lets +onlyGivenNames x; apply thenHave (p := P x); (unfold x; clear x); rotate_left 1; (intro hx; clear_value x))
    | (extract_lets +onlyGivenNames x; clear_value x)
    | refine ite_closed ?_ ?_
    | split

theorem valleyTon_get {s : State} {r : Nat} {fld0 : Fld} {i0 j0 : Nat} (hK : Foot.valleyTon (notFld fld0) = true)  :
    (valleyTon s r).get fld0 i0 j0 = s.get fld0 i0 j0 :=
  valleyTon_closed (P := fun x => x.get fld0 i0 j0 = s.get fld0 i0 j0) (field_closed fld0 i0 j0 _) hK  rfl

def Foot.moveOff (K : Part → Bool) : Bool := Foot.scheduleOff K

theorem moveOff_closed {K : Part → Bool} {P : State → Prop} {s : State} {r : Nat} {p : Nat} (hP : Closed K P) (hK :
    Foot.moveOff K = true) (hs_s : P s) :
    P (moveOff s r p) := by
  simp only [Foot.moveOff, Bool.and_eq_true] at hK
  unfold moveOff
  with_reducible repeat' first
    | assumption
    | refine scheduleOff_closed hP ?_ ?_
    | refine ite_closed ?_ ?_
    | split

theorem moveOff_get {s : State} {r : Nat} {p : Nat} {fld0 : Fld} {i0 j0 : Nat} (hK : Foot.moveOff (notFld fld0) = true)  :
    (moveOff s r p).get fld0 i0 j0 = s.get fld0 i0 j0 :=
  moveOff_closed (P := fun x => x.get fld0 i0 j0 = s.get fld0 i0 j0) (field_closed fld0 i0 j0 _) hK  rfl

def Foot.sluiceBoundary (K : Part → Bool) : Bool := Foot.deliverCommands K && (Foot.addDropBoundary K && (Foot.valleyTon K &&
    (Foot.moveOff K)))

theorem sluiceBoundary_closed {K : Part → Bool} {P : State → Prop} {s : State} {r : Nat} (hP : Closed K P) (hK :
    Foot.sluiceBoundary K = true) (hs_s : P s) :
    P (sluiceBoundary s r) := by
  simp only [Foot.sluiceBoundary, Bool.and_eq_true] at hK
  obtain ⟨hK0, hK1, hK2, hK3⟩ := hK
  unfold sluiceBoundary
  with_reducible repeat' first
    | assumption
    | refine deliverCommands_closed hP ?_ ?_
    | refine addDropBoundary_closed hP ?_ ?_
    | refine valleyTon_closed hP ?_ ?_
    | refine moveOff_closed hP ?_ ?_
    | refine Closed.each ?_ _ ?_
    | intro _
    | (extract_lets +onlyGivenNames x; apply thenHave (p := P x); (unfold x; clear x); rotate_left 1; (intro hx; clear_value x))
    | (extract_lets +onlyGivenNames x; clear_value x)
    | refine ite_closed ?_ ?_
    | split

theorem sluiceBoundary_get {s : State} {r : Nat} {fld0 : Fld} {i0 j0 : Nat} (hK : Foot.sluiceBoundary (notFld fld0) = true) 
    : (sluiceBoundary s r).get fld0 i0 j0 = s.get fld0 i0 j0 :=
  sluiceBoundary_closed (P := fun x => x.get fld0 i0 j0 = s.get fld0 i0 j0) (field_closed fld0 i0 j0 _) hK  rfl

def Foot.insertBoundary (K : Part → Bool) : Bool := K (.fld .insAllReq) && (K (.fld .insReq) && (K (.fld .insEnd) && (K (.fld
    .insStart) && (Foot.phaseFlag K && (K (.fld .SL_PFLAG_PIDROP) && (K (.fld .SL_PFLAG_PIDEFER)))))))

theorem insertBoundary_closed {K : Part → Bool} {P : State → Prop} {s : State} {r : Nat} (hP : Closed K P) (hK :
    Foot.insertBoundary K = true) (hs_s : P s) :
    P (insertBoundary s r) := by
  simp only [Foot.insertBoundary, Bool.and_eq_true] at hK
  obtain ⟨hK0, hK1, hK2, hK3, hK4, hK5, hK6⟩ := hK
  unfold insertBoundary
  with_reducible repeat' first
    | assumption
    | refine phaseFlag_closed hP ?_ ?_ ?_
    | refine hP.put _ _ _ _ _ ?_ ?_
    | refine hP.clear ?_ ?_
    | refine Closed.each ?_ _ ?_
    | refine Closed.when ?_ ?_
    | intro _
    | (extract_lets +onlyGivenNames x; apply thenHave (p := P x); (unfold x; clear x); rotate_left 1; (intro hx; clear_value x))
    | (extract_lets +onlyGivenNames x; clear_value x)
    | refine ite_closed ?_ ?_
    | split

theorem insertBoundary_get {s : State} {r : Nat} {fld0 : Fld} {i0 j0 : Nat} (hK : Foot.insertBoundary (notFld fld0) = true) 
    : (insertBoundary s r).get fld0 i0 j0 = s.get fld0 i0 j0 :=
  insertBoundary_closed (P := fun x => x.get fld0 i0 j0 = s.get fld0 i0 j0) (field_closed fld0 i0 j0 _) hK  rfl

def Foot.insertStage (K : Part → Bool) : Bool := Foot.refreshRail K && (Foot.insertBoundary K)

theorem insertStage_closed {K : Part → Bool} {P : State → Prop} {s : State} {r : Nat} (hP : Closed K P) (hK :
    Foot.insertStage K = true) (hs_s : P s) :
    P (insertStage s r) := by
  simp only [Foot.insertStage, Bool.and_eq_true] at hK
  obtain ⟨hK0, hK1⟩ := hK
  unfold insertStage
  with_reducible repeat' first
    | assumption
    | refine refreshRail_closed hP ?_ ?_
    | refine insertBoundary_closed hP ?_ ?_
    | refine ite_closed ?_ ?_
    | split

theorem insertStage_get {s : State} {r : Nat} {fld0 : Fld} {i0 j0 : Nat} (hK : Foot.insertStage (notFld fld0) = true)  :
    (insertStage s r).get fld0 i0 j0 = s.get fld0 i0 j0 :=
  insertStage_closed (P := fun x => x.get fld0 i0 j0 = s.get fld0 i0 j0) (field_closed fld0 i0 j0 _) hK  rfl

def Foot.looseStage (K : Part → Bool) : Bool := K (.fld .insReq) && (Foot.phaseFlag K && (Foot.refreshPhase K && (K (.fld
    .SL_PFLAG_PIDROP))))

theorem looseStage_closed {K : Part → Bool} {P : State → Prop} {s : State} {p : Nat} (hP : Closed K P) (hK : Foot.looseStage
    K = true) (hs_s : P s) :
    P (looseStage s p) := by
  simp only [Foot.looseStage, Bool.and_eq_true] at hK
  obtain ⟨hK0, hK1, hK2, hK3⟩ := hK
  unfold looseStage
  with_reducible repeat' first
    | assumption
    | refine phaseFlag_closed hP ?_ ?_ ?_
    | refine refreshPhase_closed hP ?_ ?_
    | refine hP.clear ?_ ?_
    | refine Closed.when ?_ ?_
    | intro _
    | (extract_lets +onlyGivenNames x; apply thenHave (p := P x); (unfold x; clear x); rotate_left 1; (intro hx; clear_value x))
    | (extract_lets +onlyGivenNames x; clear_value x)
    | refine ite_closed ?_ ?_
    | split

theorem looseStage_get {s : State} {p : Nat} {fld0 : Fld} {i0 j0 : Nat} (hK : Foot.looseStage (notFld fld0) = true)  :
    (looseStage s p).get fld0 i0 j0 = s.get fld0 i0 j0 :=
  looseStage_closed (P := fun x => x.get fld0 i0 j0 = s.get fld0 i0 j0) (field_closed fld0 i0 j0 _) hK  rfl

def Foot.dropHoldEnd (K : Part → Bool) : Bool := K (.fld .dropState) && (Foot.refreshPhase K)

theorem dropHoldEnd_closed {K : Part → Bool} {P : State → Prop} {s : State} {p : Nat} (hP : Closed K P) (hK :
    Foot.dropHoldEnd K = true) (hs_s : P s) :
    P (dropHoldEnd s p) := by
  simp only [Foot.dropHoldEnd, Bool.and_eq_true] at hK
  obtain ⟨hK0, hK1⟩ := hK
  unfold dropHoldEnd
  with_reducible repeat' first
    | assumption
    | refine refreshPhase_closed hP ?_ ?_
    | refine hP.clear ?_ ?_
    | refine ite_closed ?_ ?_
    | split

theorem dropHoldEnd_get {s : State} {p : Nat} {fld0 : Fld} {i0 j0 : Nat} (hK : Foot.dropHoldEnd (notFld fld0) = true)  :
    (dropHoldEnd s p).get fld0 i0 j0 = s.get fld0 i0 j0 :=
  dropHoldEnd_closed (P := fun x => x.get fld0 i0 j0 = s.get fld0 i0 j0) (field_closed fld0 i0 j0 _) hK  rfl

def Foot.execCarrierStart (K : Part → Bool) : Bool := Foot.carrierStart K

theorem execCarrierStart_closed {K : Part → Bool} {P : State → Prop} {p : Phase} {s : State} (hP : Closed K P) (hK :
    Foot.execCarrierStart K = true) (hs_s : P s) :
    OutAll P (execCarrierStart p s) := by
  simp only [Foot.execCarrierStart, Bool.and_eq_true] at hK
  unfold execCarrierStart
  with_reducible repeat' first
    | assumption
    | refine carrierStart_closed hP ?_ ?_
    | refine OutAll.mk ?_

def Foot.execDeclareGeneratorFailed (K : Part → Bool) : Bool := Foot.csubWrite K

theorem execDeclareGeneratorFailed_closed {K : Part → Bool} {P : State → Prop} {c : Cluster} {k : Fin 8} {s : State} (hP :
    Closed K P) (hK : Foot.execDeclareGeneratorFailed K = true) (hs_s : P s) :
    OutAll P (execDeclareGeneratorFailed c k s) := by
  simp only [Foot.execDeclareGeneratorFailed, Bool.and_eq_true] at hK
  unfold execDeclareGeneratorFailed
  with_reducible repeat' first
    | assumption
    | refine csubWrite_closed hP ?_ ?_
    | refine OutAll.mk ?_
    | intro _
    | (extract_lets +onlyGivenNames x; apply thenHave (p := P x); (unfold x; clear x); rotate_left 1; (intro hx; clear_value x))
    | (extract_lets +onlyGivenNames x; clear_value x)
    | (extract_lets +onlyGivenNames x)
    | refine ite_closed ?_ ?_
    | split

def Foot.execDropHoldEnd (K : Part → Bool) : Bool := Foot.dropHoldEnd K

theorem execDropHoldEnd_closed {K : Part → Bool} {P : State → Prop} {p : Phase} {s : State} (hP : Closed K P) (hK :
    Foot.execDropHoldEnd K = true) (hs_s : P s) :
    OutAll P (execDropHoldEnd p s) := by
  simp only [Foot.execDropHoldEnd, Bool.and_eq_true] at hK
  unfold execDropHoldEnd
  with_reducible repeat' first
    | assumption
    | refine dropHoldEnd_closed hP ?_ ?_
    | refine OutAll.mk ?_

def Foot.interpolatorSelftest (K : Part → Bool) : Bool := K (.fld .SL_CEG_FAIL) && (K (.fld .SL_STATUS_RDY) &&
    (Foot.declareGenerator K))

theorem interpolatorSelftest_closed {K : Part → Bool} {P : State → Prop} {s : State} {failed : List (Nat × Nat)} (hP : Closed
    K P) (hK : Foot.interpolatorSelftest K = true) (hs_s : P s) :
    P (interpolatorSelftest s failed) := by
  simp only [Foot.interpolatorSelftest, Bool.and_eq_true] at hK
  obtain ⟨hK0, hK1, hK2⟩ := hK
  unfold interpolatorSelftest
  with_reducible repeat' first
    | assumption
    | refine declareGenerator_closed hP ?_ ?_
    | refine hP.raise ?_ ?_
    | refine hP.setBits ?_ ?_
    | refine Closed.each ?_ _ ?_
    | intro _
    | (extract_lets +onlyGivenNames x; apply thenHave (p := P x); (unfold x; clear x); rotate_left 1; (intro hx; clear_value x))
    | (extract_lets +onlyGivenNames x; clear_value x)
    | refine ite_closed ?_ ?_
    | split

theorem interpolatorSelftest_get {s : State} {failed : List (Nat × Nat)} {fld0 : Fld} {i0 j0 : Nat} (hK :
    Foot.interpolatorSelftest (notFld fld0) = true)  : (interpolatorSelftest s failed).get fld0 i0 j0 = s.get fld0 i0 j0 :=
  interpolatorSelftest_closed (P := fun x => x.get fld0 i0 j0 = s.get fld0 i0 j0) (field_closed fld0 i0 j0 _) hK  rfl

def Foot.execInterpolatorSelftest (K : Part → Bool) : Bool := Foot.interpolatorSelftest K

theorem execInterpolatorSelftest_closed {K : Part → Bool} {P : State → Prop} {failed : List (Nat × Nat)} {s : State} (hP :
    Closed K P) (hK : Foot.execInterpolatorSelftest K = true) (hs_s : P s) :
    OutAll P (execInterpolatorSelftest failed s) := by
  simp only [Foot.execInterpolatorSelftest, Bool.and_eq_true] at hK
  unfold execInterpolatorSelftest
  with_reducible repeat' first
    | assumption
    | refine interpolatorSelftest_closed hP ?_ ?_
    | refine OutAll.mk ?_

def Foot.lowEnd (K : Part → Bool) : Bool := K (.fld .WR_FLAG_NEGOC) && (K (.fld .midZc))

theorem lowEnd_closed {K : Part → Bool} {P : State → Prop} {s : State} {p : Nat} (hP : Closed K P) (hK : Foot.lowEnd K =
    true) (hs_s : P s) :
    P (lowEnd s p) := by
  simp only [Foot.lowEnd, Bool.and_eq_true] at hK
  obtain ⟨hK0, hK1⟩ := hK
  unfold lowEnd
  with_reducible repeat' first
    | assumption
    | refine hP.raise ?_ ?_
    | refine Closed.when ?_ ?_
    | intro _

theorem lowEnd_get {s : State} {p : Nat} {fld0 : Fld} {i0 j0 : Nat} (hK : Foot.lowEnd (notFld fld0) = true)  : (lowEnd s
    p).get fld0 i0 j0 = s.get fld0 i0 j0 :=
  lowEnd_closed (P := fun x => x.get fld0 i0 j0 = s.get fld0 i0 j0) (field_closed fld0 i0 j0 _) hK  rfl

def Foot.offEdge (K : Part → Bool) : Bool := K (.fld .offKnown) && (K (.fld .offAt) && (K (.fld .offSched) && (K (.fld
    .modHigh) && (Foot.refreshPhase K && (Foot.dropPulseEnd K && (Foot.lowEnd K))))))

theorem offEdge_closed {K : Part → Bool} {P : State → Prop} {s : State} {p : Nat} {t : Int} {known : Int} (hP : Closed K P)
    (hK : Foot.offEdge K = true) (hs_s : P s) :
    P (offEdge s p t known) := by
  simp only [Foot.offEdge, Bool.and_eq_true] at hK
  obtain ⟨hK0, hK1, hK2, hK3, hK4, hK5, hK6⟩ := hK
  unfold offEdge
  with_reducible repeat' first
    | assumption
    | refine refreshPhase_closed hP ?_ ?_
    | refine dropPulseEnd_closed hP ?_ ?_
    | refine lowEnd_closed hP ?_ ?_
    | refine hP.put _ _ _ _ _ ?_ ?_
    | refine hP.clear ?_ ?_
    | (extract_lets +onlyGivenNames x; apply thenHave (p := P x); (unfold x; clear x); rotate_left 1; (intro hx; clear_value x))
    | (extract_lets +onlyGivenNames x; clear_value x)

theorem offEdge_get {s : State} {p : Nat} {t : Int} {known : Int} {fld0 : Fld} {i0 j0 : Nat} (hK : Foot.offEdge (notFld fld0)
    = true)  : (offEdge s p t known).get fld0 i0 j0 = s.get fld0 i0 j0 :=
  offEdge_closed (P := fun x => x.get fld0 i0 j0 = s.get fld0 i0 j0) (field_closed fld0 i0 j0 _) hK  rfl

def Foot.peakCompare (K : Part → Bool) : Bool := K (.fld .cmpUsed) && (Foot.scheduleOff K && (Foot.offEdge K))

theorem peakCompare_closed {K : Part → Bool} {P : State → Prop} {s : State} {p : Nat} {raw : Int} {prev : Int} {at_ : Nat}
    (hP : Closed K P) (hK : Foot.peakCompare K = true) (hs_s : P s) :
    P (peakCompare s p raw prev at_) := by
  simp only [Foot.peakCompare, Bool.and_eq_true] at hK
  obtain ⟨hK0, hK1, hK2⟩ := hK
  unfold peakCompare
  with_reducible repeat' first
    | assumption
    | refine scheduleOff_closed hP ?_ ?_
    | refine offEdge_closed hP ?_ ?_
    | refine hP.clear ?_ ?_
    | refine hP.raise ?_ ?_
    | refine Closed.when ?_ ?_
    | intro _
    | (extract_lets +onlyGivenNames x; apply thenHave (p := P x); (unfold x; clear x); rotate_left 1; (intro hx; clear_value x))
    | (extract_lets +onlyGivenNames x; clear_value x)
    | refine ite_closed ?_ ?_
    | split

theorem peakCompare_get {s : State} {p : Nat} {raw : Int} {prev : Int} {at_ : Nat} {fld0 : Fld} {i0 j0 : Nat} (hK :
    Foot.peakCompare (notFld fld0) = true)  : (peakCompare s p raw prev at_).get fld0 i0 j0 = s.get fld0 i0 j0 :=
  peakCompare_closed (P := fun x => x.get fld0 i0 j0 = s.get fld0 i0 j0) (field_closed fld0 i0 j0 _) hK  rfl

def Foot.execPeakCompare (K : Part → Bool) : Bool := Foot.peakCompare K

theorem execPeakCompare_closed {K : Part → Bool} {P : State → Prop} {p : Phase} {raw : BitVec 12} {prev : BitVec 12} {at_ :
    Fin 320} {s : State} (hP : Closed K P) (hK : Foot.execPeakCompare K = true) (hs_s : P s) :
    OutAll P (execPeakCompare p raw prev at_ s) := by
  simp only [Foot.execPeakCompare, Bool.and_eq_true] at hK
  unfold execPeakCompare
  with_reducible repeat' first
    | assumption
    | refine peakCompare_closed hP ?_ ?_
    | refine OutAll.mk ?_

def Foot.execPhaseAdd (K : Part → Bool) : Bool := K (.fld .addReq)

theorem execPhaseAdd_closed {K : Part → Bool} {P : State → Prop} {r : Rail} {slots : BitVec 64} {s : State} (hP : Closed K P)
    (hK : Foot.execPhaseAdd K = true) (hs_s : P s) :
    OutAll P (execPhaseAdd r slots s) := by
  simp only [Foot.execPhaseAdd, Bool.and_eq_true] at hK
  unfold execPhaseAdd
  with_reducible repeat' first
    | assumption
    | refine hP.setBits ?_ ?_
    | refine OutAll.mk ?_

def Foot.execPhaseDrop (K : Part → Bool) : Bool := K (.fld .dropReq)

theorem execPhaseDrop_closed {K : Part → Bool} {P : State → Prop} {r : Rail} {slots : BitVec 64} {s : State} (hP : Closed K
    P) (hK : Foot.execPhaseDrop K = true) (hs_s : P s) :
    OutAll P (execPhaseDrop r slots s) := by
  simp only [Foot.execPhaseDrop, Bool.and_eq_true] at hK
  unfold execPhaseDrop
  with_reducible repeat' first
    | assumption
    | refine hP.setBits ?_ ?_
    | refine OutAll.mk ?_

def Foot.execPulseInsert (K : Part → Bool) : Bool := K (.fld .insReq)

theorem execPulseInsert_closed {K : Part → Bool} {P : State → Prop} {p : Phase} {s : State} (hP : Closed K P) (hK :
    Foot.execPulseInsert K = true) (hs_s : P s) :
    OutAll P (execPulseInsert p s) := by
  simp only [Foot.execPulseInsert, Bool.and_eq_true] at hK
  unfold execPulseInsert
  with_reducible repeat' first
    | assumption
    | refine hP.raise ?_ ?_
    | refine OutAll.mk ?_

def Foot.execRailPulseInsert (K : Part → Bool) : Bool := K (.fld .insAllReq)

theorem execRailPulseInsert_closed {K : Part → Bool} {P : State → Prop} {r : Rail} {s : State} (hP : Closed K P) (hK :
    Foot.execRailPulseInsert K = true) (hs_s : P s) :
    OutAll P (execRailPulseInsert r s) := by
  simp only [Foot.execRailPulseInsert, Bool.and_eq_true] at hK
  unfold execRailPulseInsert
  with_reducible repeat' first
    | assumption
    | refine hP.raise ?_ ?_
    | refine OutAll.mk ?_

def Foot.readbackCheck (K : Part → Bool) : Bool := K (.fld .rbArmed) && (K (.fld .rbCnt) && (K (.fld .SL_CEG_FAIL) && (K
    (.fld .egTrial) && (K (.fld .SL_CEG_SPFOR) && (K (.fld .SL_CEG_SPUSE) && (K (.fld .SL_PSTAT_PADFLT) && (K (.fld
    .SL_PSTAT_EGSP) && (Foot.phaseFlag K && (Foot.requestRetire K && (Foot.takeSpareGen K && (Foot.loseGenerator K && (K
    (.fld .SL_PFLAG_RBMIS)))))))))))))

theorem readbackCheck_closed {K : Part → Bool} {P : State → Prop} {s : State} {p : Nat} {level : Int} (hP : Closed K P) (hK :
    Foot.readbackCheck K = true) (hs_s : P s) :
    P (readbackCheck s p level) := by
  simp only [Foot.readbackCheck, Bool.and_eq_true] at hK
  obtain ⟨hK0, hK1, hK2, hK3, hK4, hK5, hK6, hK7, hK8, hK9, hK10, hK11, hK12⟩ := hK
  unfold readbackCheck
  with_reducible repeat' first
    | assumption
    | refine phaseFlag_closed hP ?_ ?_ ?_
    | refine requestRetire_closed hP ?_ ?_
    | refine takeSpareGen_closed hP ?_ ?_
    | refine loseGenerator_closed hP ?_ ?_
    | refine hP.clear ?_ ?_
    | refine hP.raise ?_ ?_
    | refine hP.bump ?_ ?_
    | refine hP.setBits ?_ ?_
    | (extract_lets +onlyGivenNames x; apply thenHave (p := P x); (unfold x; clear x); rotate_left 1; (intro hx; clear_value x))
    | (extract_lets +onlyGivenNames x; clear_value x)
    | refine ite_closed ?_ ?_
    | split

theorem readbackCheck_get {s : State} {p : Nat} {level : Int} {fld0 : Fld} {i0 j0 : Nat} (hK : Foot.readbackCheck (notFld
    fld0) = true)  : (readbackCheck s p level).get fld0 i0 j0 = s.get fld0 i0 j0 :=
  readbackCheck_closed (P := fun x => x.get fld0 i0 j0 = s.get fld0 i0 j0) (field_closed fld0 i0 j0 _) hK  rfl

def Foot.execReadbackCheck (K : Part → Bool) : Bool := Foot.readbackCheck K

theorem execReadbackCheck_closed {K : Part → Bool} {P : State → Prop} {p : Phase} {level : Fin 3} {s : State} (hP : Closed K
    P) (hK : Foot.execReadbackCheck K = true) (hs_s : P s) :
    OutAll P (execReadbackCheck p level s) := by
  simp only [Foot.execReadbackCheck, Bool.and_eq_true] at hK
  unfold execReadbackCheck
  with_reducible repeat' first
    | assumption
    | refine readbackCheck_closed hP ?_ ?_
    | refine OutAll.mk ?_

def Foot.startInsertion (K : Part → Bool) : Bool := K (.fld .insEnd) && (K (.fld .insStart) && (K (.fld .midZc) && (K (.fld
    .insOn) && (Foot.phaseFlag K && (Foot.refreshPhase K && (Foot.terminatePulse K && (K (.fld .SL_PFLAG_PIDEFER))))))))

theorem startInsertion_closed {K : Part → Bool} {P : State → Prop} {s : State} {r : Nat} {p : Nat} {t : Int} (hP : Closed K
    P) (hK : Foot.startInsertion K = true) (hs_s : P s) :
    P (startInsertion s r p t) := by
  simp only [Foot.startInsertion, Bool.and_eq_true] at hK
  obtain ⟨hK0, hK1, hK2, hK3, hK4, hK5, hK6, hK7⟩ := hK
  unfold startInsertion
  with_reducible repeat' first
    | assumption
    | refine phaseFlag_closed hP ?_ ?_ ?_
    | refine refreshPhase_closed hP ?_ ?_
    | refine terminatePulse_closed hP ?_ ?_
    | refine hP.put _ _ _ _ _ ?_ ?_
    | refine hP.clear ?_ ?_
    | refine hP.raise ?_ ?_
    | (extract_lets +onlyGivenNames x; apply thenHave (p := P x); (unfold x; clear x); rotate_left 1; (intro hx; clear_value x))
    | (extract_lets +onlyGivenNames x; clear_value x)
    | refine ite_closed ?_ ?_
    | split

theorem startInsertion_get {s : State} {r : Nat} {p : Nat} {t : Int} {fld0 : Fld} {i0 j0 : Nat} (hK : Foot.startInsertion
    (notFld fld0) = true)  : (startInsertion s r p t).get fld0 i0 j0 = s.get fld0 i0 j0 :=
  startInsertion_closed (P := fun x => x.get fld0 i0 j0 = s.get fld0 i0 j0) (field_closed fld0 i0 j0 _) hK  rfl

def Foot.scheduledEdge (K : Part → Bool) : Bool := K (.fld .insEnd) && (K (.fld .insOn) && (K (.fld .offKnown) && (K (.fld
    .offAt) && (Foot.phaseFlag K && (Foot.offEdge K && (Foot.refreshPhase K && (Foot.lowEnd K && (Foot.startInsertion K &&
    (Foot.onEdge K && (K (.fld .SL_PFLAG_TONMINHIT) && (K (.fld .SL_PFLAG_DMAXHIT))))))))))))

theorem scheduledEdge_closed {K : Part → Bool} {P : State → Prop} {s : State} {p : Nat} (hP : Closed K P) (hK :
    Foot.scheduledEdge K = true) (hs_s : P s) :
    P (scheduledEdge s p) := by
  simp only [Foot.scheduledEdge, Bool.and_eq_true] at hK
  obtain ⟨hK0, hK1, hK2, hK3, hK4, hK5, hK6, hK7, hK8, hK9, hK10, hK11⟩ := hK
  unfold scheduledEdge
  with_reducible repeat' first
    | assumption
    | refine phaseFlag_closed hP ?_ ?_ ?_
    | refine offEdge_closed hP ?_ ?_
    | refine refreshPhase_closed hP ?_ ?_
    | refine lowEnd_closed hP ?_ ?_
    | refine startInsertion_closed hP ?_ ?_
    | refine onEdge_closed hP ?_ ?_
    | refine hP.put _ _ _ _ _ ?_ ?_
    | refine hP.clear ?_ ?_
    | intro _
    | (extract_lets +onlyGivenNames x; apply thenHave (p := P x); (unfold x; clear x); rotate_left 1; (intro hx; clear_value x))
    | (extract_lets +onlyGivenNames x; clear_value x)
    | refine ite_closed ?_ ?_
    | split

theorem scheduledEdge_get {s : State} {p : Nat} {fld0 : Fld} {i0 j0 : Nat} (hK : Foot.scheduledEdge (notFld fld0) = true)  :
    (scheduledEdge s p).get fld0 i0 j0 = s.get fld0 i0 j0 :=
  scheduledEdge_closed (P := fun x => x.get fld0 i0 j0 = s.get fld0 i0 j0) (field_closed fld0 i0 j0 _) hK  rfl

def Foot.execScheduledEdge (K : Part → Bool) : Bool := Foot.scheduledEdge K

theorem execScheduledEdge_closed {K : Part → Bool} {P : State → Prop} {p : Phase} {s : State} (hP : Closed K P) (hK :
    Foot.execScheduledEdge K = true) (hs_s : P s) :
    OutAll P (execScheduledEdge p s) := by
  simp only [Foot.execScheduledEdge, Bool.and_eq_true] at hK
  unfold execScheduledEdge
  with_reducible repeat' first
    | assumption
    | refine scheduledEdge_closed hP ?_ ?_
    | refine OutAll.mk ?_

def Foot.syncLoss (K : Part → Bool) : Bool := K (.fld .syncGood) && (K (.fld .syncTrack) && (K (.fld .SL_STATUS_SYNCACT) &&
    (K (.fld .syncAny) && (K (.fld .syncLost) && (K (.fld .lockCnt) && (K (.fld .SL_RSTAT_LOCK) && (Foot.sluiceFlag K && (K
    (.fld .SL_RFLAG_SYNCLOSS)))))))))

theorem syncLoss_closed {K : Part → Bool} {P : State → Prop} {s : State} (hP : Closed K P) (hK : Foot.syncLoss K = true)
    (hs_s : P s) :
    P (syncLoss s) := by
  simp only [Foot.syncLoss, Bool.and_eq_true] at hK
  obtain ⟨hK0, hK1, hK2, hK3, hK4, hK5, hK6, hK7, hK8⟩ := hK
  unfold syncLoss
  with_reducible repeat' first
    | assumption
    | refine sluiceFlag_closed hP ?_ ?_ ?_
    | refine hP.clear ?_ ?_
    | refine hP.raise ?_ ?_
    | refine Closed.each ?_ _ ?_
    | intro _
    | (extract_lets +onlyGivenNames x; apply thenHave (p := P x); (unfold x; clear x); rotate_left 1; (intro hx; clear_value x))
    | (extract_lets +onlyGivenNames x; clear_value x)
    | refine ite_closed ?_ ?_
    | split

theorem syncLoss_get {s : State} {fld0 : Fld} {i0 j0 : Nat} (hK : Foot.syncLoss (notFld fld0) = true)  : (syncLoss s).get
    fld0 i0 j0 = s.get fld0 i0 j0 :=
  syncLoss_closed (P := fun x => x.get fld0 i0 j0 = s.get fld0 i0 j0) (field_closed fld0 i0 j0 _) hK  rfl

def Foot.execSyncLoss (K : Part → Bool) : Bool := Foot.syncLoss K

theorem execSyncLoss_closed {K : Part → Bool} {P : State → Prop} {s : State} (hP : Closed K P) (hK : Foot.execSyncLoss K =
    true) (hs_s : P s) :
    OutAll P (execSyncLoss s) := by
  simp only [Foot.execSyncLoss, Bool.and_eq_true] at hK
  unfold execSyncLoss
  with_reducible repeat' first
    | assumption
    | refine syncLoss_closed hP ?_ ?_
    | refine OutAll.mk ?_

def Foot.syncinEdge (K : Part → Bool) : Bool := K (.fld .syncAny) && (K (.fld .syncLast) && (K (.fld .syncGood) && (K (.fld
    .syncHold) && (K (.fld .SL_STATUS_SYNCACT) && (K (.fld .SL_SYNCPER) && (K (.fld .syncHi) && (K (.fld .syncLo) && (K (.fld
    .syncLost) && (K (.fld .syncTrack) && (K (.fld .syncEdges) && (K (.fld .syncRef))))))))))))

theorem syncinEdge_closed {K : Part → Bool} {P : State → Prop} {s : State} {at_ : Nat} {width : Nat} (hP : Closed K P) (hK :
    Foot.syncinEdge K = true) (hs_s : P s) :
    P (syncinEdge s at_ width) := by
  simp only [Foot.syncinEdge, Bool.and_eq_true] at hK
  obtain ⟨hK0, hK1, hK2, hK3, hK4, hK5, hK6, hK7, hK8, hK9, hK10, hK11⟩ := hK
  unfold syncinEdge
  with_reducible repeat' first
    | assumption
    | refine hP.put _ _ _ _ _ ?_ ?_
    | refine hP.clear ?_ ?_
    | refine hP.raise ?_ ?_
    | refine hP.bump ?_ ?_
    | refine Closed.each ?_ _ ?_
    | refine Closed.when ?_ ?_
    | intro _
    | (extract_lets +onlyGivenNames x; apply thenHave (p := P x); (unfold x; clear x); rotate_left 1; (intro hx; clear_value x))
    | (extract_lets +onlyGivenNames x; clear_value x)
    | refine ite_closed ?_ ?_
    | split

theorem syncinEdge_get {s : State} {at_ : Nat} {width : Nat} {fld0 : Fld} {i0 j0 : Nat} (hK : Foot.syncinEdge (notFld fld0) =
    true)  : (syncinEdge s at_ width).get fld0 i0 j0 = s.get fld0 i0 j0 :=
  syncinEdge_closed (P := fun x => x.get fld0 i0 j0 = s.get fld0 i0 j0) (field_closed fld0 i0 j0 _) hK  rfl

def Foot.execSyncinEdge (K : Part → Bool) : Bool := Foot.syncinEdge K

theorem execSyncinEdge_closed {K : Part → Bool} {P : State → Prop} {at_ : Fin 320} {width : Nat} {s : State} (hP : Closed K
    P) (hK : Foot.execSyncinEdge K = true) (hs_s : P s) :
    OutAll P (execSyncinEdge at_ width s) := by
  simp only [Foot.execSyncinEdge, Bool.and_eq_true] at hK
  unfold execSyncinEdge
  with_reducible repeat' first
    | assumption
    | refine syncinEdge_closed hP ?_ ?_
    | refine OutAll.mk ?_

def Foot.syncWrap (K : Part → Bool) : Bool := K (.fld .SL_RPER) && (K (.fld .SL_RSTAT_LOCK) && (K (.fld .syncHold) && (K
    (.fld .lockCnt) && (K (.fld .tbAdj) && (Foot.sluiceFlag K && (K (.fld .SL_RFLAG_SYNCRANGE)))))))

theorem syncWrap_closed {K : Part → Bool} {P : State → Prop} {s : State} {r : Nat} {t : Int} (hP : Closed K P) (hK :
    Foot.syncWrap K = true) (hs_s : P s) :
    P (syncWrap s r t) := by
  simp only [Foot.syncWrap, Bool.and_eq_true] at hK
  obtain ⟨hK0, hK1, hK2, hK3, hK4, hK5, hK6⟩ := hK
  unfold syncWrap
  with_reducible repeat' first
    | assumption
    | refine sluiceFlag_closed hP ?_ ?_ ?_
    | refine hP.put _ _ _ _ _ ?_ ?_
    | refine hP.clear ?_ ?_
    | refine hP.raise ?_ ?_
    | refine hP.bump ?_ ?_
    | refine hP.setBits ?_ ?_
    | refine hP.clrBits ?_ ?_
    | refine Closed.when ?_ ?_
    | intro _
    | (extract_lets +onlyGivenNames x; apply thenHave (p := P x); (unfold x; clear x); rotate_left 1; (intro hx; clear_value x))
    | (extract_lets +onlyGivenNames x; clear_value x)
    | (extract_lets +onlyGivenNames x)
    | refine ite_closed ?_ ?_
    | split

theorem syncWrap_get {s : State} {r : Nat} {t : Int} {fld0 : Fld} {i0 j0 : Nat} (hK : Foot.syncWrap (notFld fld0) = true)  :
    (syncWrap s r t).get fld0 i0 j0 = s.get fld0 i0 j0 :=
  syncWrap_closed (P := fun x => x.get fld0 i0 j0 = s.get fld0 i0 j0) (field_closed fld0 i0 j0 _) hK  rfl

def Foot.timebaseWrap (K : Part → Bool) : Bool := K (.fld .tbAdj) && (K (.fld .tbWrap) && (Foot.syncWrap K &&
    (Foot.recomputeOffsets K && (Foot.hwPublish K))))

theorem timebaseWrap_closed {K : Part → Bool} {P : State → Prop} {s : State} {r : Nat} (hP : Closed K P) (hK :
    Foot.timebaseWrap K = true) (hs_s : P s) :
    P (timebaseWrap s r) := by
  simp only [Foot.timebaseWrap, Bool.and_eq_true] at hK
  obtain ⟨hK0, hK1, hK2, hK3, hK4⟩ := hK
  unfold timebaseWrap
  with_reducible repeat' first
    | assumption
    | refine syncWrap_closed hP ?_ ?_
    | refine recomputeOffsets_closed hP ?_ ?_
    | refine hwPublish_closed hP ?_ ?_
    | refine hP.put _ _ _ _ _ ?_ ?_
    | refine hP.clear ?_ ?_
    | refine Closed.when ?_ ?_
    | intro _
    | (extract_lets +onlyGivenNames x; apply thenHave (p := P x); (unfold x; clear x); rotate_left 1; (intro hx; clear_value x))
    | (extract_lets +onlyGivenNames x; clear_value x)
    | refine ite_closed ?_ ?_
    | split

theorem timebaseWrap_get {s : State} {r : Nat} {fld0 : Fld} {i0 j0 : Nat} (hK : Foot.timebaseWrap (notFld fld0) = true)  :
    (timebaseWrap s r).get fld0 i0 j0 = s.get fld0 i0 j0 :=
  timebaseWrap_closed (P := fun x => x.get fld0 i0 j0 = s.get fld0 i0 j0) (field_closed fld0 i0 j0 _) hK  rfl

def Foot.execTimebaseWrap (K : Part → Bool) : Bool := Foot.timebaseWrap K

theorem execTimebaseWrap_closed {K : Part → Bool} {P : State → Prop} {r : Rail} {s : State} (hP : Closed K P) (hK :
    Foot.execTimebaseWrap K = true) (hs_s : P s) :
    OutAll P (execTimebaseWrap r s) := by
  simp only [Foot.execTimebaseWrap, Bool.and_eq_true] at hK
  unfold execTimebaseWrap
  with_reducible repeat' first
    | assumption
    | refine timebaseWrap_closed hP ?_ ?_
    | refine OutAll.mk ?_

def Foot.valleyCompare (K : Part → Bool) : Bool := K (.fld .egWait) && (K (.fld .blocked) && (Foot.onEdge K))

theorem valleyCompare_closed {K : Part → Bool} {P : State → Prop} {s : State} {p : Nat} {raw : Int} {prev : Int} {at_ : Nat}
    (hP : Closed K P) (hK : Foot.valleyCompare K = true) (hs_s : P s) :
    P (valleyCompare s p raw prev at_) := by
  simp only [Foot.valleyCompare, Bool.and_eq_true] at hK
  obtain ⟨hK0, hK1, hK2⟩ := hK
  unfold valleyCompare
  with_reducible repeat' first
    | assumption
    | refine onEdge_closed hP ?_ ?_
    | refine hP.put _ _ _ _ _ ?_ ?_
    | refine hP.clear ?_ ?_
    | refine hP.raise ?_ ?_
    | refine hP.bump ?_ ?_
    | refine hP.setBits ?_ ?_
    | refine hP.clrBits ?_ ?_
    | refine Closed.when ?_ ?_
    | intro _
    | (extract_lets +onlyGivenNames x; apply thenHave (p := P x); (unfold x; clear x); rotate_left 1; (intro hx; clear_value x))
    | (extract_lets +onlyGivenNames x; clear_value x)
    | (extract_lets +onlyGivenNames x)
    | refine ite_closed ?_ ?_
    | split

theorem valleyCompare_get {s : State} {p : Nat} {raw : Int} {prev : Int} {at_ : Nat} {fld0 : Fld} {i0 j0 : Nat} (hK :
    Foot.valleyCompare (notFld fld0) = true)  : (valleyCompare s p raw prev at_).get fld0 i0 j0 = s.get fld0 i0 j0 :=
  valleyCompare_closed (P := fun x => x.get fld0 i0 j0 = s.get fld0 i0 j0) (field_closed fld0 i0 j0 _) hK  rfl

def Foot.execValleyCompare (K : Part → Bool) : Bool := Foot.valleyCompare K

theorem execValleyCompare_closed {K : Part → Bool} {P : State → Prop} {p : Phase} {raw : BitVec 12} {prev : BitVec 12} {at_ :
    Fin 320} {s : State} (hP : Closed K P) (hK : Foot.execValleyCompare K = true) (hs_s : P s) :
    OutAll P (execValleyCompare p raw prev at_ s) := by
  simp only [Foot.execValleyCompare, Bool.and_eq_true] at hK
  unfold execValleyCompare
  with_reducible repeat' first
    | assumption
    | refine valleyCompare_closed hP ?_ ?_
    | refine OutAll.mk ?_

def Foot.zeroCrossing (K : Part → Bool) : Bool := K (.fld .midZc) && (Foot.refreshPhase K)

theorem zeroCrossing_closed {K : Part → Bool} {P : State → Prop} {s : State} {p : Nat} {raw : Int} {prev : Int} {at_ : Nat}
    (hP : Closed K P) (hK : Foot.zeroCrossing K = true) (hs_s : P s) :
    P (zeroCrossing s p raw prev at_) := by
  simp only [Foot.zeroCrossing, Bool.and_eq_true] at hK
  obtain ⟨hK0, hK1⟩ := hK
  unfold zeroCrossing
  with_reducible repeat' first
    | assumption
    | refine refreshPhase_closed hP ?_ ?_
    | refine hP.raise ?_ ?_
    | refine ite_closed ?_ ?_
    | split

theorem zeroCrossing_get {s : State} {p : Nat} {raw : Int} {prev : Int} {at_ : Nat} {fld0 : Fld} {i0 j0 : Nat} (hK :
    Foot.zeroCrossing (notFld fld0) = true)  : (zeroCrossing s p raw prev at_).get fld0 i0 j0 = s.get fld0 i0 j0 :=
  zeroCrossing_closed (P := fun x => x.get fld0 i0 j0 = s.get fld0 i0 j0) (field_closed fld0 i0 j0 _) hK  rfl

def Foot.execZeroCrossing (K : Part → Bool) : Bool := Foot.zeroCrossing K

theorem execZeroCrossing_closed {K : Part → Bool} {P : State → Prop} {p : Phase} {raw : BitVec 12} {prev : BitVec 12} {at_ :
    Fin 320} {s : State} (hP : Closed K P) (hK : Foot.execZeroCrossing K = true) (hs_s : P s) :
    OutAll P (execZeroCrossing p raw prev at_ s) := by
  simp only [Foot.execZeroCrossing, Bool.and_eq_true] at hK
  unfold execZeroCrossing
  with_reducible repeat' first
    | assumption
    | refine zeroCrossing_closed hP ?_ ?_
    | refine OutAll.mk ?_

end Sys2Proof.Machine
end

