-- ==== Sys2Proof/Laws/ClosedInterrupts.lean ====
section
/-! SUPPORT. What the functions of Machine/Interrupts.lean can write, and that they keep every closed property (Laws/Closed.lean). -/
namespace Sys2Proof.Machine

set_option Elab.async false
set_option linter.all false

def Foot.irRefuse (K : Part → Bool) : Bool := K (.fld .IR_STATUS_CFGERR)

theorem irRefuse_closed {K : Part → Bool} {P : State → Prop} {s : State} (hP : Closed K P) (hK : Foot.irRefuse K = true)
    (hs_s : P s) :
    P (irRefuse s) := by
  simp only [Foot.irRefuse, Bool.and_eq_true] at hK
  unfold irRefuse
  with_reducible repeat' first
    | assumption
    | refine hP.raise ?_ ?_

theorem irRefuse_get {s : State} {fld0 : Fld} {i0 j0 : Nat} (hK : Foot.irRefuse (notFld fld0) = true)  : (irRefuse s).get
    fld0 i0 j0 = s.get fld0 i0 j0 :=
  irRefuse_closed (P := fun x => x.get fld0 i0 j0 = s.get fld0 i0 j0) (field_closed fld0 i0 j0 _) hK  rfl

def Foot.withdrawing (K : Part → Bool) : Bool := K (.fld .irPres)

theorem withdrawing_closed {K : Part → Bool} {P : State → Prop} {s : State} {f : State → State} (hP : Closed K P) (hK :
    Foot.withdrawing K = true) (h_f : ∀ x0, P x0 → P (f x0)) (hs_s : P s) :
    P (withdrawing s f) := by
  simp only [Foot.withdrawing, Bool.and_eq_true] at hK
  unfold withdrawing
  with_reducible repeat' first
    | assumption
    | apply h_f
    | refine hP.raise ?_ ?_
    | refine Closed.each ?_ _ ?_
    | intro _
    | (extract_lets +onlyGivenNames x; apply thenHave (p := P x); (unfold x; clear x); rotate_left 1; (intro hx; clear_value x))
    | (extract_lets +onlyGivenNames x; clear_value x)

def Foot.retarget (K : Part → Bool) : Bool := K (.fld .IR_STATUS_CFGERR) && (K (.fld .IR_SRCCFG_TGT) && (Foot.withdrawing K))

theorem retarget_closed {K : Part → Bool} {P : State → Prop} {s : State} {n : Nat} {t : Int} (hP : Closed K P) (hK :
    Foot.retarget K = true) (hs_s : P s) :
    P (retarget s n t) := by
  simp only [Foot.retarget, Bool.and_eq_true] at hK
  obtain ⟨hK0, hK1, hK2⟩ := hK
  unfold retarget
  with_reducible repeat' first
    | assumption
    | refine withdrawing_closed hP ?_ ?_ ?_
    | refine hP.put _ _ _ _ _ ?_ ?_
    | refine hP.raise ?_ ?_
    | intro _
    | refine ite_closed ?_ ?_
    | split

theorem retarget_get {s : State} {n : Nat} {t : Int} {fld0 : Fld} {i0 j0 : Nat} (hK : Foot.retarget (notFld fld0) = true)  :
    (retarget s n t).get fld0 i0 j0 = s.get fld0 i0 j0 :=
  retarget_closed (P := fun x => x.get fld0 i0 j0 = s.get fld0 i0 j0) (field_closed fld0 i0 j0 _) hK  rfl

def Foot.irCfgWrite (K : Part → Bool) : Bool := K (.fld .IR_SRCCFG_SENSE) && (K (.fld .IR_SRCCFG_EN) && (K (.fld
    .IR_SRCCFG_WAKE) && (K (.fld .IR_SRCCFG_PRIO) && (K (.fld .IR_CRUN_RUN) && (Foot.withdrawing K && (Foot.retarget K))))))

theorem irCfgWrite_closed {K : Part → Bool} {P : State → Prop} {s : State} {n : Nat} {v : Int} (hP : Closed K P) (hK :
    Foot.irCfgWrite K = true) (hs_s : P s) :
    P (irCfgWrite s n v) := by
  simp only [Foot.irCfgWrite, Bool.and_eq_true] at hK
  obtain ⟨hK0, hK1, hK2, hK3, hK4, hK5, hK6⟩ := hK
  unfold irCfgWrite
  with_reducible repeat' first
    | assumption
    | refine withdrawing_closed hP ?_ ?_ ?_
    | refine retarget_closed hP ?_ ?_
    | refine hP.put _ _ _ _ _ ?_ ?_
    | refine Closed.when ?_ ?_
    | intro _
    | (extract_lets +onlyGivenNames x; apply thenHave (p := P x); (unfold x; clear x); rotate_left 1; (intro hx; clear_value x))
    | (extract_lets +onlyGivenNames x; clear_value x)

theorem irCfgWrite_get {s : State} {n : Nat} {v : Int} {fld0 : Fld} {i0 j0 : Nat} (hK : Foot.irCfgWrite (notFld fld0) = true)
     : (irCfgWrite s n v).get fld0 i0 j0 = s.get fld0 i0 j0 :=
  irCfgWrite_closed (P := fun x => x.get fld0 i0 j0 = s.get fld0 i0 j0) (field_closed fld0 i0 j0 _) hK  rfl

def Foot.irRlWrite (K : Part → Bool) : Bool := K (.fld .IR_SRCRL_RLMAX) && (K (.fld .IR_STATUS_CFGERR) && (K (.fld
    .IR_SRCRL_RLWIN)))

theorem irRlWrite_closed {K : Part → Bool} {P : State → Prop} {s : State} {n : Nat} {v : Int} (hP : Closed K P) (hK :
    Foot.irRlWrite K = true) (hs_s : P s) :
    P (irRlWrite s n v) := by
  simp only [Foot.irRlWrite, Bool.and_eq_true] at hK
  obtain ⟨hK0, hK1, hK2⟩ := hK
  unfold irRlWrite
  with_reducible repeat' first
    | assumption
    | refine hP.put _ _ _ _ _ ?_ ?_
    | refine hP.raise ?_ ?_
    | (extract_lets +onlyGivenNames x; apply thenHave (p := P x); (unfold x; clear x); rotate_left 1; (intro hx; clear_value x))
    | (extract_lets +onlyGivenNames x; clear_value x)
    | refine ite_closed ?_ ?_
    | split

theorem irRlWrite_get {s : State} {n : Nat} {v : Int} {fld0 : Fld} {i0 j0 : Nat} (hK : Foot.irRlWrite (notFld fld0) = true) 
    : (irRlWrite s n v).get fld0 i0 j0 = s.get fld0 i0 j0 :=
  irRlWrite_closed (P := fun x => x.get fld0 i0 j0 = s.get fld0 i0 j0) (field_closed fld0 i0 j0 _) hK  rfl

def Foot.irWake (K : Part → Bool) : Bool := Foot.wakeSeen K && (K (.fld .irWakeReq))

theorem irWake_closed {K : Part → Bool} {P : State → Prop} {s : State} {n : Nat} (hP : Closed K P) (hK : Foot.irWake K =
    true) (hs_s : P s) :
    P (irWake s n) := by
  simp only [Foot.irWake, Bool.and_eq_true] at hK
  obtain ⟨hK0, hK1⟩ := hK
  unfold irWake
  with_reducible repeat' first
    | assumption
    | refine wakeSeen_closed hP ?_ ?_ ?_

theorem irWake_get {s : State} {n : Nat} {fld0 : Fld} {i0 j0 : Nat} (hK : Foot.irWake (notFld fld0) = true)  : (irWake s
    n).get fld0 i0 j0 = s.get fld0 i0 j0 :=
  irWake_closed (P := fun x => x.get fld0 i0 j0 = s.get fld0 i0 j0) (field_closed fld0 i0 j0 _) hK  rfl

def Foot.spend (K : Part → Bool) : Bool := K (.fld .IR_SRCST_SPEND) && (Foot.irWake K)

theorem spend_closed {K : Part → Bool} {P : State → Prop} {s : State} {n : Nat} (hP : Closed K P) (hK : Foot.spend K = true)
    (hs_s : P s) :
    P (spend s n) := by
  simp only [Foot.spend, Bool.and_eq_true] at hK
  obtain ⟨hK0, hK1⟩ := hK
  unfold spend
  with_reducible repeat' first
    | assumption
    | refine irWake_closed hP ?_ ?_
    | refine hP.raise ?_ ?_

theorem spend_get {s : State} {n : Nat} {fld0 : Fld} {i0 j0 : Nat} (hK : Foot.spend (notFld fld0) = true)  : (spend s n).get
    fld0 i0 j0 = s.get fld0 i0 j0 :=
  spend_closed (P := fun x => x.get fld0 i0 j0 = s.get fld0 i0 j0) (field_closed fld0 i0 j0 _) hK  rfl

def Foot.clearPending (K : Part → Bool) : Bool := K (.fld .irEdge) && (K (.fld .IR_SRCST_SPEND) && (Foot.withdrawing K))

theorem clearPending_closed {K : Part → Bool} {P : State → Prop} {s : State} {n : Nat} (hP : Closed K P) (hK :
    Foot.clearPending K = true) (hs_s : P s) :
    P (clearPending s n) := by
  simp only [Foot.clearPending, Bool.and_eq_true] at hK
  obtain ⟨hK0, hK1, hK2⟩ := hK
  unfold clearPending
  with_reducible repeat' first
    | assumption
    | refine withdrawing_closed hP ?_ ?_ ?_
    | refine hP.clear ?_ ?_
    | intro _

theorem clearPending_get {s : State} {n : Nat} {fld0 : Fld} {i0 j0 : Nat} (hK : Foot.clearPending (notFld fld0) = true)  :
    (clearPending s n).get fld0 i0 j0 = s.get fld0 i0 j0 :=
  clearPending_closed (P := fun x => x.get fld0 i0 j0 = s.get fld0 i0 j0) (field_closed fld0 i0 j0 _) hK  rfl

def Foot.sleepSample (K : Part → Bool) : Bool := Foot.wakeSeen K && (K (.fld .irWakeReq))

theorem sleepSample_closed {K : Part → Bool} {P : State → Prop} {s : State} {n : Nat} (hP : Closed K P) (hK :
    Foot.sleepSample K = true) (hs_s : P s) :
    P (sleepSample s n) := by
  simp only [Foot.sleepSample, Bool.and_eq_true] at hK
  obtain ⟨hK0, hK1⟩ := hK
  unfold sleepSample
  with_reducible repeat' first
    | assumption
    | refine wakeSeen_closed hP ?_ ?_ ?_
    | (extract_lets +onlyGivenNames x; apply thenHave (p := P x); (unfold x; clear x); rotate_left 1; (intro hx; clear_value x))
    | (extract_lets +onlyGivenNames x; clear_value x)
    | refine ite_closed ?_ ?_
    | split

theorem sleepSample_get {s : State} {n : Nat} {fld0 : Fld} {i0 j0 : Nat} (hK : Foot.sleepSample (notFld fld0) = true)  :
    (sleepSample s n).get fld0 i0 j0 = s.get fld0 i0 j0 :=
  sleepSample_closed (P := fun x => x.get fld0 i0 j0 = s.get fld0 i0 j0) (field_closed fld0 i0 j0 _) hK  rfl

def Foot.irLatch (K : Part → Bool) : Bool := K (.fld .irEdge) && (Foot.irWake K)

theorem irLatch_closed {K : Part → Bool} {P : State → Prop} {s : State} {n : Nat} {rising : Bool} (hP : Closed K P) (hK :
    Foot.irLatch K = true) (hs_s : P s) :
    P (irLatch s n rising) := by
  simp only [Foot.irLatch, Bool.and_eq_true] at hK
  obtain ⟨hK0, hK1⟩ := hK
  unfold irLatch
  with_reducible repeat' first
    | assumption
    | refine irWake_closed hP ?_ ?_
    | refine hP.put _ _ _ _ _ ?_ ?_
    | refine hP.clear ?_ ?_
    | refine hP.raise ?_ ?_
    | refine hP.bump ?_ ?_
    | refine hP.setBits ?_ ?_
    | refine hP.clrBits ?_ ?_
    | refine Closed.when ?_ ?_
    | intro _
    | (extract_lets +onlyGivenNames x; apply thenHave (p := P x); (unfold x; clear x); rotate_left 1; (intro hx; clear_value x))
    | (extract_lets +onlyGivenNames x; clear_value x)
    | (extract_lets +onlyGivenNames x)
    | refine ite_closed ?_ ?_
    | split

theorem irLatch_get {s : State} {n : Nat} {rising : Bool} {fld0 : Fld} {i0 j0 : Nat} (hK : Foot.irLatch (notFld fld0) = true)
     : (irLatch s n rising).get fld0 i0 j0 = s.get fld0 i0 j0 :=
  irLatch_closed (P := fun x => x.get fld0 i0 j0 = s.get fld0 i0 j0) (field_closed fld0 i0 j0 _) hK  rfl

def Foot.sampleSource (K : Part → Bool) : Bool := K (.fld .irPrev) && (K (.fld .irPres) && (Foot.sleepSample K &&
    (Foot.irWake K && (Foot.irLatch K))))

theorem sampleSource_closed {K : Part → Bool} {P : State → Prop} {s : State} {n : Nat} (hP : Closed K P) (hK :
    Foot.sampleSource K = true) (hs_s : P s) :
    P (sampleSource s n) := by
  simp only [Foot.sampleSource, Bool.and_eq_true] at hK
  obtain ⟨hK0, hK1, hK2, hK3, hK4⟩ := hK
  unfold sampleSource
  with_reducible repeat' first
    | assumption
    | refine sleepSample_closed hP ?_ ?_
    | refine irWake_closed hP ?_ ?_
    | refine irLatch_closed hP ?_ ?_
    | refine hP.put _ _ _ _ _ ?_ ?_
    | refine hP.raise ?_ ?_
    | (extract_lets +onlyGivenNames x; apply thenHave (p := P x); (unfold x; clear x); rotate_left 1; (intro hx; clear_value x))
    | (extract_lets +onlyGivenNames x; clear_value x)
    | refine ite_closed ?_ ?_
    | split

theorem sampleSource_get {s : State} {n : Nat} {fld0 : Fld} {i0 j0 : Nat} (hK : Foot.sampleSource (notFld fld0) = true)  :
    (sampleSource s n).get fld0 i0 j0 = s.get fld0 i0 j0 :=
  sampleSource_closed (P := fun x => x.get fld0 i0 j0 = s.get fld0 i0 j0) (field_closed fld0 i0 j0 _) hK  rfl

def Foot.clearActive (K : Part → Bool) : Bool := K (.fld .irOwner) && (K (.fld .IR_SRCST_ACT) && (K (.fld .IR_CRUN_NACT) &&
    (K (.fld .IR_CRUN_RUN))))

theorem clearActive_closed {K : Part → Bool} {P : State → Prop} {s : State} {k : Nat} (hP : Closed K P) (hK :
    Foot.clearActive K = true) (hs_s : P s) :
    P (clearActive s k) := by
  simp only [Foot.clearActive, Bool.and_eq_true] at hK
  obtain ⟨hK0, hK1, hK2, hK3⟩ := hK
  unfold clearActive
  with_reducible repeat' first
    | assumption
    | refine hP.put _ _ _ _ _ ?_ ?_
    | refine hP.clear ?_ ?_
    | refine Closed.each ?_ _ ?_
    | intro _
    | (extract_lets +onlyGivenNames x; apply thenHave (p := P x); (unfold x; clear x); rotate_left 1; (intro hx; clear_value x))
    | (extract_lets +onlyGivenNames x; clear_value x)

theorem clearActive_get {s : State} {k : Nat} {fld0 : Fld} {i0 j0 : Nat} (hK : Foot.clearActive (notFld fld0) = true)  :
    (clearActive s k).get fld0 i0 j0 = s.get fld0 i0 j0 :=
  clearActive_closed (P := fun x => x.get fld0 i0 j0 = s.get fld0 i0 j0) (field_closed fld0 i0 j0 _) hK  rfl

def Foot.claim (K : Part → Bool) : Bool := K (.fld .IR_SRCST_SPEND) && (K (.fld .irEdge) && (K (.fld .irStrand) && (K (.fld
    .irOwner) && (K (.fld .IR_SRCST_ACT) && (K (.fld .IR_CRUN_NACT) && (K (.fld .IR_CRUN_RUN) && (K (.fld .IR_CLAST_SRC) &&
    (K (.fld .irCnt) && (K (.fld .irWinEnd) && (K (.fld .irWin) && (K (.fld .IR_STATUS_RLIM) && (K (.fld .IR_SRCST_RLIM) &&
    (K (.fld .irHeld))))))))))))))

theorem claim_closed {K : Part → Bool} {P : State → Prop} {s : State} {k : Nat} {n : Nat} (hP : Closed K P) (hK : Foot.claim
    K = true) (hs_s : P s) :
    P (claim s k n) := by
  simp only [Foot.claim, Bool.and_eq_true] at hK
  obtain ⟨hK0, hK1, hK2, hK3, hK4, hK5, hK6, hK7, hK8, hK9, hK10, hK11, hK12, hK13⟩ := hK
  unfold claim
  with_reducible repeat' first
    | assumption
    | refine hP.put _ _ _ _ _ ?_ ?_
    | refine hP.clear ?_ ?_
    | refine hP.raise ?_ ?_
    | (extract_lets +onlyGivenNames x; apply thenHave (p := P x); (unfold x; clear x); rotate_left 1; (intro hx; clear_value x))
    | (extract_lets +onlyGivenNames x; clear_value x)
    | refine ite_closed ?_ ?_
    | split

theorem claim_get {s : State} {k : Nat} {n : Nat} {fld0 : Fld} {i0 j0 : Nat} (hK : Foot.claim (notFld fld0) = true)  : (claim
    s k n).get fld0 i0 j0 = s.get fld0 i0 j0 :=
  claim_closed (P := fun x => x.get fld0 i0 j0 = s.get fld0 i0 j0) (field_closed fld0 i0 j0 _) hK  rfl

def Foot.settleWeir (K : Part → Bool) : Bool := K (.fld .irPrev)

theorem settleWeir_closed {K : Part → Bool} {P : State → Prop} {s : State} {w : Nat} (hP : Closed K P) (hK : Foot.settleWeir
    K = true) (hs_s : P s) :
    P (settleWeir s w) := by
  simp only [Foot.settleWeir, Bool.and_eq_true] at hK
  unfold settleWeir
  with_reducible repeat' first
    | assumption
    | refine hP.put _ _ _ _ _ ?_ ?_
    | refine Closed.each ?_ _ ?_
    | intro _

theorem settleWeir_get {s : State} {w : Nat} {fld0 : Fld} {i0 j0 : Nat} (hK : Foot.settleWeir (notFld fld0) = true)  :
    (settleWeir s w).get fld0 i0 j0 = s.get fld0 i0 j0 :=
  settleWeir_closed (P := fun x => x.get fld0 i0 j0 = s.get fld0 i0 j0) (field_closed fld0 i0 j0 _) hK  rfl

def Foot.sampleWeir (K : Part → Bool) : Bool := Foot.sampleSource K

theorem sampleWeir_closed {K : Part → Bool} {P : State → Prop} {s : State} {w : Nat} (hP : Closed K P) (hK : Foot.sampleWeir
    K = true) (hs_s : P s) :
    P (sampleWeir s w) := by
  simp only [Foot.sampleWeir, Bool.and_eq_true] at hK
  unfold sampleWeir
  with_reducible repeat' first
    | assumption
    | refine sampleSource_closed hP ?_ ?_
    | refine Closed.each ?_ _ ?_
    | intro _
    | (extract_lets +onlyGivenNames x; apply thenHave (p := P x); (unfold x; clear x); rotate_left 1; (intro hx; clear_value x))
    | (extract_lets +onlyGivenNames x; clear_value x)
    | (extract_lets +onlyGivenNames x)
    | refine ite_closed ?_ ?_
    | split

theorem sampleWeir_get {s : State} {w : Nat} {fld0 : Fld} {i0 j0 : Nat} (hK : Foot.sampleWeir (notFld fld0) = true)  :
    (sampleWeir s w).get fld0 i0 j0 = s.get fld0 i0 j0 :=
  sampleWeir_closed (P := fun x => x.get fld0 i0 j0 = s.get fld0 i0 j0) (field_closed fld0 i0 j0 _) hK  rfl

def Foot.strandTick (K : Part → Bool) : Bool := K (.fld .irStrAt) && (K (.fld .irStrOn))

theorem strandTick_closed {K : Part → Bool} {P : State → Prop} {s : State} {n : Nat} (hP : Closed K P) (hK : Foot.strandTick
    K = true) (hs_s : P s) :
    P (strandTick s n) := by
  simp only [Foot.strandTick, Bool.and_eq_true] at hK
  obtain ⟨hK0, hK1⟩ := hK
  unfold strandTick
  with_reducible repeat' first
    | assumption
    | refine hP.put _ _ _ _ _ ?_ ?_
    | refine hP.clear ?_ ?_
    | refine hP.raise ?_ ?_
    | (extract_lets +onlyGivenNames x; apply thenHave (p := P x); (unfold x; clear x); rotate_left 1; (intro hx; clear_value x))
    | (extract_lets +onlyGivenNames x; clear_value x)
    | refine ite_closed ?_ ?_
    | split

theorem strandTick_get {s : State} {n : Nat} {fld0 : Fld} {i0 j0 : Nat} (hK : Foot.strandTick (notFld fld0) = true)  :
    (strandTick s n).get fld0 i0 j0 = s.get fld0 i0 j0 :=
  strandTick_closed (P := fun x => x.get fld0 i0 j0 = s.get fld0 i0 j0) (field_closed fld0 i0 j0 _) hK  rfl

def Foot.eviPulse (K : Part → Bool) : Bool := Foot.irLatch K

theorem eviPulse_closed {K : Part → Bool} {P : State → Prop} {s : State} {i : Nat} (hP : Closed K P) (hK : Foot.eviPulse K =
    true) (hs_s : P s) :
    P (eviPulse s i) := by
  simp only [Foot.eviPulse, Bool.and_eq_true] at hK
  unfold eviPulse
  with_reducible repeat' first
    | assumption
    | refine irLatch_closed hP ?_ ?_

theorem eviPulse_get {s : State} {i : Nat} {fld0 : Fld} {i0 j0 : Nat} (hK : Foot.eviPulse (notFld fld0) = true)  : (eviPulse
    s i).get fld0 i0 j0 = s.get fld0 i0 j0 :=
  eviPulse_closed (P := fun x => x.get fld0 i0 j0 = s.get fld0 i0 j0) (field_closed fld0 i0 j0 _) hK  rfl

def Foot.endService (K : Part → Bool) : Bool := K (.fld .irOwner) && (K (.fld .IR_SRCST_ACT) && (K (.fld .IR_CRUN_NACT) && (K
    (.fld .IR_CRUN_RUN))))

theorem endService_closed {K : Part → Bool} {P : State → Prop} {s : State} {k : Nat} (hP : Closed K P) (hK : Foot.endService
    K = true) (hs_s : P s) :
    P (endService s k) := by
  simp only [Foot.endService, Bool.and_eq_true] at hK
  obtain ⟨hK0, hK1, hK2, hK3⟩ := hK
  unfold endService
  with_reducible repeat' first
    | assumption
    | refine hP.put _ _ _ _ _ ?_ ?_
    | refine hP.clear ?_ ?_
    | intro _
    | (extract_lets +onlyGivenNames x; apply thenHave (p := P x); (unfold x; clear x); rotate_left 1; (intro hx; clear_value x))
    | (extract_lets +onlyGivenNames x; clear_value x)
    | split

theorem endService_get {s : State} {k : Nat} {fld0 : Fld} {i0 j0 : Nat} (hK : Foot.endService (notFld fld0) = true)  :
    (endService s k).get fld0 i0 j0 = s.get fld0 i0 j0 :=
  endService_closed (P := fun x => x.get fld0 i0 j0 = s.get fld0 i0 j0) (field_closed fld0 i0 j0 _) hK  rfl

def Foot.vectorCycle (K : Part → Bool) : Bool := K (.fld .IR_CLAST_SRC) && (K (.fld .IR_CSPUR) && (Foot.claim K))

theorem vectorCycle_closed {K : Part → Bool} {P : State → Prop} {s : State} {k : Nat} {run : Int} (hP : Closed K P) (hK :
    Foot.vectorCycle K = true) (hs_s : P s) :
    P (vectorCycle s k run).2 := by
  simp only [Foot.vectorCycle, Bool.and_eq_true] at hK
  obtain ⟨hK0, hK1, hK2⟩ := hK
  unfold vectorCycle
  with_reducible repeat' first
    | assumption
    | refine claim_closed hP ?_ ?_
    | refine hP.put _ _ _ _ _ ?_ ?_
    | refine hP.bump ?_ ?_
    | split

def Foot.irCommand (K : Part → Bool) : Bool := Foot.irRefuse K

theorem irCommand_closed {K : Part → Bool} {P : State → Prop} {s : State} {k : Nat} {n : Nat} {soft : Bool} {f : State →
    State} (hP : Closed K P) (hK : Foot.irCommand K = true) (h_f : ∀ x0, P x0 → P (f x0)) (hs_s : P s) :
    P (irCommand s k n soft f) := by
  simp only [Foot.irCommand, Bool.and_eq_true] at hK
  unfold irCommand
  with_reducible repeat' first
    | assumption
    | apply h_f
    | refine irRefuse_closed hP ?_ ?_
    | refine ite_closed ?_ ?_
    | split

def Foot.execClr (K : Part → Bool) : Bool := Foot.irCommand K && (Foot.clearPending K)

theorem execClr_closed {K : Part → Bool} {P : State → Prop} {k : CoreId} {n : Source} {s : State} (hP : Closed K P) (hK :
    Foot.execClr K = true) (hs_s : P s) :
    OutAll P (execClr k n s) := by
  simp only [Foot.execClr, Bool.and_eq_true] at hK
  obtain ⟨hK0, hK1⟩ := hK
  unfold execClr
  with_reducible repeat' first
    | assumption
    | refine irCommand_closed hP ?_ ?_ ?_
    | refine clearPending_closed hP ?_ ?_
    | refine OutAll.mk ?_
    | intro _
    | (extract_lets +onlyGivenNames x; apply thenHave (p := P x); (unfold x; clear x); rotate_left 1; (intro hx; clear_value x))
    | (extract_lets +onlyGivenNames x; clear_value x)
    | (extract_lets +onlyGivenNames x)
    | refine ite_closed ?_ ?_
    | split

def Foot.execInterruptAssert (K : Part → Bool) : Bool := Foot.sampleSource K

theorem execInterruptAssert_closed {K : Part → Bool} {P : State → Prop} {n : Source} {s : State} (hP : Closed K P) (hK :
    Foot.execInterruptAssert K = true) (hs_s : P s) :
    OutAll P (execInterruptAssert n s) := by
  simp only [Foot.execInterruptAssert, Bool.and_eq_true] at hK
  unfold execInterruptAssert
  with_reducible repeat' first
    | assumption
    | refine sampleSource_closed hP ?_ ?_
    | refine OutAll.mk ?_

def Foot.rateWindowEnd (K : Part → Bool) : Bool := K (.fld .irCnt) && (K (.fld .irHeld) && (K (.fld .irWin)))

theorem rateWindowEnd_closed {K : Part → Bool} {P : State → Prop} {s : State} {n : Nat} (hP : Closed K P) (hK :
    Foot.rateWindowEnd K = true) (hs_s : P s) :
    P (rateWindowEnd s n) := by
  simp only [Foot.rateWindowEnd, Bool.and_eq_true] at hK
  obtain ⟨hK0, hK1, hK2⟩ := hK
  unfold rateWindowEnd
  with_reducible repeat' first
    | assumption
    | refine hP.clear ?_ ?_
    | refine ite_closed ?_ ?_
    | split

theorem rateWindowEnd_get {s : State} {n : Nat} {fld0 : Fld} {i0 j0 : Nat} (hK : Foot.rateWindowEnd (notFld fld0) = true)  :
    (rateWindowEnd s n).get fld0 i0 j0 = s.get fld0 i0 j0 :=
  rateWindowEnd_closed (P := fun x => x.get fld0 i0 j0 = s.get fld0 i0 j0) (field_closed fld0 i0 j0 _) hK  rfl

def Foot.execRateLimitWindowEnd (K : Part → Bool) : Bool := Foot.rateWindowEnd K

theorem execRateLimitWindowEnd_closed {K : Part → Bool} {P : State → Prop} {n : Source} {s : State} (hP : Closed K P) (hK :
    Foot.execRateLimitWindowEnd K = true) (hs_s : P s) :
    OutAll P (execRateLimitWindowEnd n s) := by
  simp only [Foot.execRateLimitWindowEnd, Bool.and_eq_true] at hK
  unfold execRateLimitWindowEnd
  with_reducible repeat' first
    | assumption
    | refine rateWindowEnd_closed hP ?_ ?_
    | refine OutAll.mk ?_

def Foot.execRetarget (K : Part → Bool) : Bool := Foot.irCommand K && (Foot.retarget K)

theorem execRetarget_closed {K : Part → Bool} {P : State → Prop} {k : CoreId} {n : Source} {t : Fin 8} {s : State} (hP :
    Closed K P) (hK : Foot.execRetarget K = true) (hs_s : P s) :
    OutAll P (execRetarget k n t s) := by
  simp only [Foot.execRetarget, Bool.and_eq_true] at hK
  obtain ⟨hK0, hK1⟩ := hK
  unfold execRetarget
  with_reducible repeat' first
    | assumption
    | refine irCommand_closed hP ?_ ?_ ?_
    | refine retarget_closed hP ?_ ?_
    | refine OutAll.mk ?_
    | intro _
    | (extract_lets +onlyGivenNames x; apply thenHave (p := P x); (unfold x; clear x); rotate_left 1; (intro hx; clear_value x))
    | (extract_lets +onlyGivenNames x; clear_value x)
    | (extract_lets +onlyGivenNames x)
    | refine ite_closed ?_ ?_
    | split

def Foot.execSpend (K : Part → Bool) : Bool := Foot.irCommand K && (Foot.spend K)

theorem execSpend_closed {K : Part → Bool} {P : State → Prop} {k : CoreId} {n : Source} {s : State} (hP : Closed K P) (hK :
    Foot.execSpend K = true) (hs_s : P s) :
    OutAll P (execSpend k n s) := by
  simp only [Foot.execSpend, Bool.and_eq_true] at hK
  obtain ⟨hK0, hK1⟩ := hK
  unfold execSpend
  with_reducible repeat' first
    | assumption
    | refine irCommand_closed hP ?_ ?_ ?_
    | refine spend_closed hP ?_ ?_
    | refine OutAll.mk ?_
    | intro _
    | (extract_lets +onlyGivenNames x; apply thenHave (p := P x); (unfold x; clear x); rotate_left 1; (intro hx; clear_value x))
    | (extract_lets +onlyGivenNames x; clear_value x)
    | (extract_lets +onlyGivenNames x)
    | refine ite_closed ?_ ?_
    | split

def Foot.strandExpiry (K : Part → Bool) : Bool := K (.fld .irStrOn) && (K (.fld .IR_STATUS_STRAND) && (K (.fld
    .IR_SRCST_STRAND) && (K (.fld .irStrand))))

theorem strandExpiry_closed {K : Part → Bool} {P : State → Prop} {s : State} {n : Nat} (hP : Closed K P) (hK :
    Foot.strandExpiry K = true) (hs_s : P s) :
    P (strandExpiry s n) := by
  simp only [Foot.strandExpiry, Bool.and_eq_true] at hK
  obtain ⟨hK0, hK1, hK2, hK3⟩ := hK
  unfold strandExpiry
  with_reducible repeat' first
    | assumption
    | refine hP.clear ?_ ?_
    | refine hP.raise ?_ ?_
    | refine ite_closed ?_ ?_
    | split

theorem strandExpiry_get {s : State} {n : Nat} {fld0 : Fld} {i0 j0 : Nat} (hK : Foot.strandExpiry (notFld fld0) = true)  :
    (strandExpiry s n).get fld0 i0 j0 = s.get fld0 i0 j0 :=
  strandExpiry_closed (P := fun x => x.get fld0 i0 j0 = s.get fld0 i0 j0) (field_closed fld0 i0 j0 _) hK  rfl

def Foot.execStrandTimeout (K : Part → Bool) : Bool := Foot.strandExpiry K

theorem execStrandTimeout_closed {K : Part → Bool} {P : State → Prop} {n : Source} {s : State} (hP : Closed K P) (hK :
    Foot.execStrandTimeout K = true) (hs_s : P s) :
    OutAll P (execStrandTimeout n s) := by
  simp only [Foot.execStrandTimeout, Bool.and_eq_true] at hK
  unfold execStrandTimeout
  with_reducible repeat' first
    | assumption
    | refine strandExpiry_closed hP ?_ ?_
    | refine OutAll.mk ?_

end Sys2Proof.Machine
end

