-- ==== Sys2Proof/Laws/ClosedWeirs.lean ====
section
/-! SUPPORT. What the functions of Machine/Weirs.lean can write, and that they keep every closed property (Laws/Closed.lean). -/
namespace Sys2Proof.Machine

set_option Elab.async false
set_option linter.all false

def Foot.declareWeir (K : Part → Bool) : Bool := K (.fld .WP_STATUS_CFGERR) && (K (.fld .declReq) && (K .writes))

theorem declareWeir_closed {K : Part → Bool} {P : State → Prop} {s : State} {w : Nat} (hP : Closed K P) (hK :
    Foot.declareWeir K = true) (hs_s : P s) :
    P (declareWeir s w) := by
  simp only [Foot.declareWeir, Bool.and_eq_true] at hK
  obtain ⟨hK0, hK1, hK2⟩ := hK
  unfold declareWeir
  with_reducible repeat' first
    | assumption
    | refine hP.raise ?_ ?_
    | refine hP.later ?_ ?_
    | refine ite_closed ?_ ?_
    | split

theorem declareWeir_get {s : State} {w : Nat} {fld0 : Fld} {i0 j0 : Nat} (hK : Foot.declareWeir (notFld fld0) = true)  :
    (declareWeir s w).get fld0 i0 j0 = s.get fld0 i0 j0 :=
  declareWeir_closed (P := fun x => x.get fld0 i0 j0 = s.get fld0 i0 j0) (field_closed fld0 i0 j0 _) hK  rfl

def Foot.noteForced (K : Part → Bool) : Bool := K (.fld .forced)

theorem noteForced_closed {K : Part → Bool} {P : State → Prop} {s : State} {r : Nat} {t : Int} (hP : Closed K P) (hK :
    Foot.noteForced K = true) (hs_s : P s) :
    P (noteForced s r t) := by
  simp only [Foot.noteForced, Bool.and_eq_true] at hK
  unfold noteForced
  with_reducible repeat' first
    | assumption
    | refine hP.put _ _ _ _ _ ?_ ?_
    | refine hP.clear ?_ ?_
    | refine hP.raise ?_ ?_
    | refine hP.bump ?_ ?_
    | refine hP.setBits ?_ ?_
    | refine hP.clrBits ?_ ?_
    | refine Closed.when ?_ ?_
    | intro _
    | (extract_lets +onlyGivenNames x; apply thenHave (p := P x); (unfold x; clear x); rotate_left 1; (intro hx; clear_value x))
    | (extract_lets +onlyGivenNames x; clear_value x)
    | (extract_lets +onlyGivenNames x)
    | refine ite_closed ?_ ?_
    | split

theorem noteForced_get {s : State} {r : Nat} {t : Int} {fld0 : Fld} {i0 j0 : Nat} (hK : Foot.noteForced (notFld fld0) = true)
     : (noteForced s r t).get fld0 i0 j0 = s.get fld0 i0 j0 :=
  noteForced_closed (P := fun x => x.get fld0 i0 j0 = s.get fld0 i0 j0) (field_closed fld0 i0 j0 _) hK  rfl

def Foot.refreshSpill (K : Part → Bool) : Bool := K (.fld .allOff) && (Foot.noteForced K && (Foot.refreshRail K))

theorem refreshSpill_closed {K : Part → Bool} {P : State → Prop} {s : State} {r : Nat} {t : Int} (hP : Closed K P) (hK :
    Foot.refreshSpill K = true) (hs_s : P s) :
    P (refreshSpill s r t) := by
  simp only [Foot.refreshSpill, Bool.and_eq_true] at hK
  obtain ⟨hK0, hK1, hK2⟩ := hK
  unfold refreshSpill
  with_reducible repeat' first
    | assumption
    | refine noteForced_closed hP ?_ ?_
    | refine refreshRail_closed hP ?_ ?_
    | refine hP.put _ _ _ _ _ ?_ ?_

theorem refreshSpill_get {s : State} {r : Nat} {t : Int} {fld0 : Fld} {i0 j0 : Nat} (hK : Foot.refreshSpill (notFld fld0) =
    true)  : (refreshSpill s r t).get fld0 i0 j0 = s.get fld0 i0 j0 :=
  refreshSpill_closed (P := fun x => x.get fld0 i0 j0 = s.get fld0 i0 j0) (field_closed fld0 i0 j0 _) hK  rfl

def Foot.endAllOff (K : Part → Bool) : Bool := K (.fld .WP_RFLAG_OVGLITCH) && (K (.fld .ovRun) && (K (.fld .ovOff) &&
    (Foot.refreshSpill K)))

theorem endAllOff_closed {K : Part → Bool} {P : State → Prop} {s : State} {r : Nat} {t : Int} (hP : Closed K P) (hK :
    Foot.endAllOff K = true) (hs_s : P s) :
    P (endAllOff s r t) := by
  simp only [Foot.endAllOff, Bool.and_eq_true] at hK
  obtain ⟨hK0, hK1, hK2, hK3⟩ := hK
  unfold endAllOff
  with_reducible repeat' first
    | assumption
    | refine refreshSpill_closed hP ?_ ?_
    | refine hP.put _ _ _ _ _ ?_ ?_
    | refine hP.clear ?_ ?_
    | refine hP.raise ?_ ?_
    | refine hP.bump ?_ ?_
    | refine hP.setBits ?_ ?_
    | refine hP.clrBits ?_ ?_
    | refine Closed.when ?_ ?_
    | intro _
    | (extract_lets +onlyGivenNames x; apply thenHave (p := P x); (unfold x; clear x); rotate_left 1; (intro hx; clear_value x))
    | (extract_lets +onlyGivenNames x; clear_value x)
    | (extract_lets +onlyGivenNames x)
    | refine ite_closed ?_ ?_
    | split

theorem endAllOff_get {s : State} {r : Nat} {t : Int} {fld0 : Fld} {i0 j0 : Nat} (hK : Foot.endAllOff (notFld fld0) = true) 
    : (endAllOff s r t).get fld0 i0 j0 = s.get fld0 i0 j0 :=
  endAllOff_closed (P := fun x => x.get fld0 i0 j0 = s.get fld0 i0 j0) (field_closed fld0 i0 j0 _) hK  rfl

def Foot.allOffBoundary (K : Part → Bool) : Bool := K (.fld .ovRun) && (K (.fld .WP_RFLAG_OVOFF) && (Foot.endAllOff K))

theorem allOffBoundary_closed {K : Part → Bool} {P : State → Prop} {s : State} {r : Nat} (hP : Closed K P) (hK :
    Foot.allOffBoundary K = true) (hs_s : P s) :
    P (allOffBoundary s r) := by
  simp only [Foot.allOffBoundary, Bool.and_eq_true] at hK
  obtain ⟨hK0, hK1, hK2⟩ := hK
  unfold allOffBoundary
  with_reducible repeat' first
    | assumption
    | refine endAllOff_closed hP ?_ ?_
    | refine hP.put _ _ _ _ _ ?_ ?_
    | refine hP.raise ?_ ?_
    | refine ite_closed ?_ ?_
    | split

theorem allOffBoundary_get {s : State} {r : Nat} {fld0 : Fld} {i0 j0 : Nat} (hK : Foot.allOffBoundary (notFld fld0) = true) 
    : (allOffBoundary s r).get fld0 i0 j0 = s.get fld0 i0 j0 :=
  allOffBoundary_closed (P := fun x => x.get fld0 i0 j0 = s.get fld0 i0 j0) (field_closed fld0 i0 j0 _) hK  rfl

def Foot.allOffLength (K : Part → Bool) : Bool := K (.fld .LN_TRFLAG_OFFEND) && (K (.fld .trOff) && (Foot.refreshSpill K))

theorem allOffLength_closed {K : Part → Bool} {P : State → Prop} {s : State} {r : Nat} (hP : Closed K P) (hK :
    Foot.allOffLength K = true) (hs_s : P s) :
    P (allOffLength s r) := by
  simp only [Foot.allOffLength, Bool.and_eq_true] at hK
  obtain ⟨hK0, hK1, hK2⟩ := hK
  unfold allOffLength
  with_reducible repeat' first
    | assumption
    | refine refreshSpill_closed hP ?_ ?_
    | refine hP.clear ?_ ?_
    | refine hP.raise ?_ ?_
    | refine ite_closed ?_ ?_
    | split

theorem allOffLength_get {s : State} {r : Nat} {fld0 : Fld} {i0 j0 : Nat} (hK : Foot.allOffLength (notFld fld0) = true)  :
    (allOffLength s r).get fld0 i0 j0 = s.get fld0 i0 j0 :=
  allOffLength_closed (P := fun x => x.get fld0 i0 j0 = s.get fld0 i0 j0) (field_closed fld0 i0 j0 _) hK  rfl

def Foot.endBurst (K : Part → Bool) : Bool := K (.fld .burstEnd) && (K (.fld .burstOn) && (K (.fld .inBurst) &&
    (Foot.noteForced K && (Foot.refreshRail K))))

theorem endBurst_closed {K : Part → Bool} {P : State → Prop} {s : State} {r : Nat} {t : Int} (hP : Closed K P) (hK :
    Foot.endBurst K = true) (hs_s : P s) :
    P (endBurst s r t) := by
  simp only [Foot.endBurst, Bool.and_eq_true] at hK
  obtain ⟨hK0, hK1, hK2, hK3, hK4⟩ := hK
  unfold endBurst
  with_reducible repeat' first
    | assumption
    | refine noteForced_closed hP ?_ ?_
    | refine refreshRail_closed hP ?_ ?_
    | refine hP.put _ _ _ _ _ ?_ ?_
    | refine hP.clear ?_ ?_
    | refine Closed.each ?_ _ ?_
    | intro _
    | (extract_lets +onlyGivenNames x; apply thenHave (p := P x); (unfold x; clear x); rotate_left 1; (intro hx; clear_value x))
    | (extract_lets +onlyGivenNames x; clear_value x)
    | refine ite_closed ?_ ?_
    | split

theorem endBurst_get {s : State} {r : Nat} {t : Int} {fld0 : Fld} {i0 j0 : Nat} (hK : Foot.endBurst (notFld fld0) = true)  :
    (endBurst s r t).get fld0 i0 j0 = s.get fld0 i0 j0 :=
  endBurst_closed (P := fun x => x.get fld0 i0 j0 = s.get fld0 i0 j0) (field_closed fld0 i0 j0 _) hK  rfl

def Foot.burstBudget (K : Part → Bool) : Bool := K (.fld .LN_TRFLAG_BUDEX) && (K (.fld .burstTick) && (Foot.endBurst K))

theorem burstBudget_closed {K : Part → Bool} {P : State → Prop} {s : State} {r : Nat} (hP : Closed K P) (hK :
    Foot.burstBudget K = true) (hs_s : P s) :
    P (burstBudget s r) := by
  simp only [Foot.burstBudget, Bool.and_eq_true] at hK
  obtain ⟨hK0, hK1, hK2⟩ := hK
  unfold burstBudget
  with_reducible repeat' first
    | assumption
    | refine endBurst_closed hP ?_ ?_
    | refine hP.clear ?_ ?_
    | refine hP.raise ?_ ?_
    | refine ite_closed ?_ ?_
    | split

theorem burstBudget_get {s : State} {r : Nat} {fld0 : Fld} {i0 j0 : Nat} (hK : Foot.burstBudget (notFld fld0) = true)  :
    (burstBudget s r).get fld0 i0 j0 = s.get fld0 i0 j0 :=
  burstBudget_closed (P := fun x => x.get fld0 i0 j0 = s.get fld0 i0 j0) (field_closed fld0 i0 j0 _) hK  rfl

def Foot.burstCount (K : Part → Bool) : Bool := K (.fld .LN_BUSED) && (K (.fld .burstTick))

theorem burstCount_closed {K : Part → Bool} {P : State → Prop} {s : State} {r : Nat} (hP : Closed K P) (hK : Foot.burstCount
    K = true) (hs_s : P s) :
    P (burstCount s r) := by
  simp only [Foot.burstCount, Bool.and_eq_true] at hK
  obtain ⟨hK0, hK1⟩ := hK
  unfold burstCount
  with_reducible repeat' first
    | assumption
    | refine hP.put _ _ _ _ _ ?_ ?_
    | refine hP.bump ?_ ?_
    | refine Closed.when ?_ ?_
    | intro _
    | (extract_lets +onlyGivenNames x; apply thenHave (p := P x); (unfold x; clear x); rotate_left 1; (intro hx; clear_value x))
    | (extract_lets +onlyGivenNames x; clear_value x)

theorem burstCount_get {s : State} {r : Nat} {fld0 : Fld} {i0 j0 : Nat} (hK : Foot.burstCount (notFld fld0) = true)  :
    (burstCount s r).get fld0 i0 j0 = s.get fld0 i0 j0 :=
  burstCount_closed (P := fun x => x.get fld0 i0 j0 = s.get fld0 i0 j0) (field_closed fld0 i0 j0 _) hK  rfl

def Foot.burstLength (K : Part → Bool) : Bool := K (.fld .LN_TRFLAG_BLENEND) && (K (.fld .burstTick) && (Foot.endBurst K))

theorem burstLength_closed {K : Part → Bool} {P : State → Prop} {s : State} {r : Nat} (hP : Closed K P) (hK :
    Foot.burstLength K = true) (hs_s : P s) :
    P (burstLength s r) := by
  simp only [Foot.burstLength, Bool.and_eq_true] at hK
  obtain ⟨hK0, hK1, hK2⟩ := hK
  unfold burstLength
  with_reducible repeat' first
    | assumption
    | refine endBurst_closed hP ?_ ?_
    | refine hP.clear ?_ ?_
    | refine hP.raise ?_ ?_
    | refine ite_closed ?_ ?_
    | split

theorem burstLength_get {s : State} {r : Nat} {fld0 : Fld} {i0 j0 : Nat} (hK : Foot.burstLength (notFld fld0) = true)  :
    (burstLength s r).get fld0 i0 j0 = s.get fld0 i0 j0 :=
  burstLength_closed (P := fun x => x.get fld0 i0 j0 = s.get fld0 i0 j0) (field_closed fld0 i0 j0 _) hK  rfl

def Foot.burstPhaseExit (K : Part → Bool) : Bool := K (.fld .inBurst) && (Foot.noteForced K && (Foot.refreshPhase K))

theorem burstPhaseExit_closed {K : Part → Bool} {P : State → Prop} {s : State} {p : Nat} {raw : Int} {prev : Int} {at_ : Nat}
    (hP : Closed K P) (hK : Foot.burstPhaseExit K = true) (hs_s : P s) :
    P (burstPhaseExit s p raw prev at_) := by
  simp only [Foot.burstPhaseExit, Bool.and_eq_true] at hK
  obtain ⟨hK0, hK1, hK2⟩ := hK
  unfold burstPhaseExit
  with_reducible repeat' first
    | assumption
    | refine noteForced_closed hP ?_ ?_
    | refine refreshPhase_closed hP ?_ ?_
    | refine hP.clear ?_ ?_
    | refine ite_closed ?_ ?_
    | split

theorem burstPhaseExit_get {s : State} {p : Nat} {raw : Int} {prev : Int} {at_ : Nat} {fld0 : Fld} {i0 j0 : Nat} (hK :
    Foot.burstPhaseExit (notFld fld0) = true)  : (burstPhaseExit s p raw prev at_).get fld0 i0 j0 = s.get fld0 i0 j0 :=
  burstPhaseExit_closed (P := fun x => x.get fld0 i0 j0 = s.get fld0 i0 j0) (field_closed fld0 i0 j0 _) hK  rfl

def Foot.quietInside (K : Part → Bool) : Bool := K (.fld .WR_STAT_SETTLE) && (K (.fld .WR_STAT_OUT) && (K (.fld
    .WP_RFLAG_OVGLITCH) && (K (.fld .ovRun) && (K (.fld .ovOff) && (K (.fld .trOff) && (K (.fld .auxOff) && (Foot.settleWeir
    K && (Foot.refreshSpill K && (Foot.endBurst K)))))))))

theorem quietInside_closed {K : Part → Bool} {P : State → Prop} {s : State} {w : Nat} (hP : Closed K P) (hK :
    Foot.quietInside K = true) (hs_s : P s) :
    P (quietInside s w) := by
  simp only [Foot.quietInside, Bool.and_eq_true] at hK
  obtain ⟨hK0, hK1, hK2, hK3, hK4, hK5, hK6, hK7, hK8, hK9⟩ := hK
  unfold quietInside
  with_reducible repeat' first
    | assumption
    | refine settleWeir_closed hP ?_ ?_
    | refine refreshSpill_closed hP ?_ ?_
    | refine endBurst_closed hP ?_ ?_
    | refine hP.clear ?_ ?_
    | refine hP.raise ?_ ?_
    | refine Closed.each ?_ _ ?_
    | refine Closed.when ?_ ?_
    | intro _
    | (extract_lets +onlyGivenNames x; apply thenHave (p := P x); (unfold x; clear x); rotate_left 1; (intro hx; clear_value x))
    | (extract_lets +onlyGivenNames x; clear_value x)
    | split

theorem quietInside_get {s : State} {w : Nat} {fld0 : Fld} {i0 j0 : Nat} (hK : Foot.quietInside (notFld fld0) = true)  :
    (quietInside s w).get fld0 i0 j0 = s.get fld0 i0 j0 :=
  quietInside_closed (P := fun x => x.get fld0 i0 j0 = s.get fld0 i0 j0) (field_closed fld0 i0 j0 _) hK  rfl

def Foot.restartCounts (K : Part → Bool) : Bool := K (.fld .uvCnt) && (K (.fld .ovCnt))

theorem restartCounts_closed {K : Part → Bool} {P : State → Prop} {s : State} {w : Nat} (hP : Closed K P) (hK :
    Foot.restartCounts K = true) (hs_s : P s) :
    P (restartCounts s w) := by
  simp only [Foot.restartCounts, Bool.and_eq_true] at hK
  obtain ⟨hK0, hK1⟩ := hK
  unfold restartCounts
  with_reducible repeat' first
    | assumption
    | refine hP.clear ?_ ?_
    | split

theorem restartCounts_get {s : State} {w : Nat} {fld0 : Fld} {i0 j0 : Nat} (hK : Foot.restartCounts (notFld fld0) = true)  :
    (restartCounts s w).get fld0 i0 j0 = s.get fld0 i0 j0 :=
  restartCounts_closed (P := fun x => x.get fld0 i0 j0 = s.get fld0 i0 j0) (field_closed fld0 i0 j0 _) hK  rfl

def Foot.startBurst (K : Part → Bool) : Bool := K (.fld .LN_TRFLAG_BUDEX) && (K (.fld .LN_TRFLAG_GAPREF) && (K (.fld
    .burstTick) && (K (.fld .burstFrom) && (K (.fld .burstOn) && (K (.fld .LN_TRFLAG_BURST) && (K (.fld .midZc) && (K (.fld
    .inBurst) && (Foot.noteForced K && (Foot.refreshRail K)))))))))

theorem startBurst_closed {K : Part → Bool} {P : State → Prop} {s : State} {r : Nat} {t : Int} (hP : Closed K P) (hK :
    Foot.startBurst K = true) (hs_s : P s) :
    P (startBurst s r t) := by
  simp only [Foot.startBurst, Bool.and_eq_true] at hK
  obtain ⟨hK0, hK1, hK2, hK3, hK4, hK5, hK6, hK7, hK8, hK9⟩ := hK
  unfold startBurst
  with_reducible repeat' first
    | assumption
    | refine noteForced_closed hP ?_ ?_
    | refine refreshRail_closed hP ?_ ?_
    | refine hP.put _ _ _ _ _ ?_ ?_
    | refine hP.clear ?_ ?_
    | refine hP.raise ?_ ?_
    | refine Closed.each ?_ _ ?_
    | refine Closed.when ?_ ?_
    | intro _
    | (extract_lets +onlyGivenNames x; apply thenHave (p := P x); (unfold x; clear x); rotate_left 1; (intro hx; clear_value x))
    | (extract_lets +onlyGivenNames x; clear_value x)
    | refine ite_closed ?_ ?_
    | split

theorem startBurst_get {s : State} {r : Nat} {t : Int} {fld0 : Fld} {i0 j0 : Nat} (hK : Foot.startBurst (notFld fld0) = true)
     : (startBurst s r t).get fld0 i0 j0 = s.get fld0 i0 j0 :=
  startBurst_closed (P := fun x => x.get fld0 i0 j0 = s.get fld0 i0 j0) (field_closed fld0 i0 j0 _) hK  rfl

def Foot.lowCrossing (K : Part → Bool) : Bool := K (.fld .addReq) && (K (.fld .insAllReq) && (Foot.startBurst K))

theorem lowCrossing_closed {K : Part → Bool} {P : State → Prop} {s : State} {r : Nat} {t : Int} (hP : Closed K P) (hK :
    Foot.lowCrossing K = true) (hs_s : P s) :
    P (lowCrossing s r t) := by
  simp only [Foot.lowCrossing, Bool.and_eq_true] at hK
  obtain ⟨hK0, hK1, hK2⟩ := hK
  unfold lowCrossing
  with_reducible repeat' first
    | assumption
    | refine startBurst_closed hP ?_ ?_
    | refine hP.raise ?_ ?_
    | refine hP.setBits ?_ ?_
    | refine Closed.each ?_ _ ?_
    | refine Closed.when ?_ ?_
    | intro _
    | (extract_lets +onlyGivenNames x; apply thenHave (p := P x); (unfold x; clear x); rotate_left 1; (intro hx; clear_value x))
    | (extract_lets +onlyGivenNames x; clear_value x)
    | refine ite_closed ?_ ?_
    | split

theorem lowCrossing_get {s : State} {r : Nat} {t : Int} {fld0 : Fld} {i0 j0 : Nat} (hK : Foot.lowCrossing (notFld fld0) =
    true)  : (lowCrossing s r t).get fld0 i0 j0 = s.get fld0 i0 j0 :=
  lowCrossing_closed (P := fun x => x.get fld0 i0 j0 = s.get fld0 i0 j0) (field_closed fld0 i0 j0 _) hK  rfl

def Foot.highCrossing (K : Part → Bool) : Bool := K (.fld .trFrom) && (K (.fld .trOff) && (Foot.refreshSpill K))

theorem highCrossing_closed {K : Part → Bool} {P : State → Prop} {s : State} {r : Nat} {t : Int} (hP : Closed K P) (hK :
    Foot.highCrossing K = true) (hs_s : P s) :
    P (highCrossing s r t) := by
  simp only [Foot.highCrossing, Bool.and_eq_true] at hK
  obtain ⟨hK0, hK1, hK2⟩ := hK
  unfold highCrossing
  with_reducible repeat' first
    | assumption
    | refine refreshSpill_closed hP ?_ ?_
    | refine hP.put _ _ _ _ _ ?_ ?_
    | refine hP.raise ?_ ?_
    | refine ite_closed ?_ ?_
    | split

theorem highCrossing_get {s : State} {r : Nat} {t : Int} {fld0 : Fld} {i0 j0 : Nat} (hK : Foot.highCrossing (notFld fld0) =
    true)  : (highCrossing s r t).get fld0 i0 j0 = s.get fld0 i0 j0 :=
  highCrossing_closed (P := fun x => x.get fld0 i0 j0 = s.get fld0 i0 j0) (field_closed fld0 i0 j0 _) hK  rfl

def Foot.spillAction (K : Part → Bool) : Bool := K (.fld .WR_FLAG_NEGOC) && (K (.fld .midZc) && (K (.fld .ovRun) && (K (.fld
    .ovOff) && (K (.fld .WP_RFLAG_OVOFF) && (K (.fld .trOff) && (K (.fld .auxOff) && (Foot.terminatePulse K &&
    (Foot.refreshPhase K && (Foot.endAllOff K && (Foot.refreshSpill K && (Foot.endBurst K && (Foot.lowCrossing K &&
    (Foot.highCrossing K)))))))))))))

theorem spillAction_closed {K : Part → Bool} {P : State → Prop} {s : State} {w : Nat} {old : Int} {new : Int} {t : Int} (hP :
    Closed K P) (hK : Foot.spillAction K = true) (hs_s : P s) :
    P (spillAction s w old new t) := by
  simp only [Foot.spillAction, Bool.and_eq_true] at hK
  obtain ⟨hK0, hK1, hK2, hK3, hK4, hK5, hK6, hK7, hK8, hK9, hK10, hK11, hK12, hK13⟩ := hK
  unfold spillAction
  with_reducible repeat' first
    | assumption
    | refine terminatePulse_closed hP ?_ ?_
    | refine refreshPhase_closed hP ?_ ?_
    | refine endAllOff_closed hP ?_ ?_
    | refine refreshSpill_closed hP ?_ ?_
    | refine endBurst_closed hP ?_ ?_
    | refine lowCrossing_closed hP ?_ ?_
    | refine highCrossing_closed hP ?_ ?_
    | refine hP.put _ _ _ _ _ ?_ ?_
    | refine hP.clear ?_ ?_
    | refine hP.raise ?_ ?_
    | refine Closed.each ?_ _ ?_
    | intro _
    | (extract_lets +onlyGivenNames x; apply thenHave (p := P x); (unfold x; clear x); rotate_left 1; (intro hx; clear_value x))
    | (extract_lets +onlyGivenNames x; clear_value x)
    | refine ite_closed ?_ ?_
    | split

theorem spillAction_get {s : State} {w : Nat} {old : Int} {new : Int} {t : Int} {fld0 : Fld} {i0 j0 : Nat} (hK :
    Foot.spillAction (notFld fld0) = true)  : (spillAction s w old new t).get fld0 i0 j0 = s.get fld0 i0 j0 :=
  spillAction_closed (P := fun x => x.get fld0 i0 j0 = s.get fld0 i0 j0) (field_closed fld0 i0 j0 _) hK  rfl

def Foot.weirChange (K : Part → Bool) : Bool := K (.fld .WR_STAT_OUT) && (K (.fld .WR_FLAG_ABOVE) && (K (.fld .WR_FLAG_BELOW)
    && (Foot.wakeSeen K && (Foot.sampleWeir K && (Foot.together K && (Foot.publish K && (Foot.spillAction K && (K (.fld
    .wakeReq)))))))))

theorem weirChange_closed {K : Part → Bool} {P : State → Prop} {s : State} {w : Nat} {new : Int} {t : Int} (hP : Closed K P)
    (hK : Foot.weirChange K = true) (hs_s : P s) :
    P (weirChange s w new t) := by
  simp only [Foot.weirChange, Bool.and_eq_true] at hK
  obtain ⟨hK0, hK1, hK2, hK3, hK4, hK5, hK6, hK7, hK8⟩ := hK
  unfold weirChange
  with_reducible repeat' first
    | assumption
    | refine wakeSeen_closed hP ?_ ?_ ?_
    | refine sampleWeir_closed hP ?_ ?_
    | refine together_closed hP ?_ ?_ ?_
    | refine publish_closed hP ?_ ?_
    | refine spillAction_closed hP ?_ ?_
    | refine hP.put _ _ _ _ _ ?_ ?_
    | refine hP.clear ?_ ?_
    | refine hP.raise ?_ ?_
    | refine hP.bump ?_ ?_
    | refine hP.setBits ?_ ?_
    | refine hP.clrBits ?_ ?_
    | refine Closed.when ?_ ?_
    | intro _
    | (extract_lets +onlyGivenNames x; apply thenHave (p := P x); (unfold x; clear x); rotate_left 1; (intro hx; clear_value x))
    | (extract_lets +onlyGivenNames x; clear_value x)
    | (extract_lets +onlyGivenNames x)
    | refine ite_closed ?_ ?_
    | split

theorem weirChange_get {s : State} {w : Nat} {new : Int} {t : Int} {fld0 : Fld} {i0 j0 : Nat} (hK : Foot.weirChange (notFld
    fld0) = true)  : (weirChange s w new t).get fld0 i0 j0 = s.get fld0 i0 j0 :=
  weirChange_closed (P := fun x => x.get fld0 i0 j0 = s.get fld0 i0 j0) (field_closed fld0 i0 j0 _) hK  rfl

def Foot.enableWeir (K : Part → Bool) : Bool := K (.fld .wrSettle) && (K (.fld .WR_STAT_SETTLE) && (Foot.restartCounts K &&
    (Foot.weirChange K)))

theorem enableWeir_closed {K : Part → Bool} {P : State → Prop} {s : State} {w : Nat} {out : Int} (hP : Closed K P) (hK :
    Foot.enableWeir K = true) (hs_s : P s) :
    P (enableWeir s w out) := by
  simp only [Foot.enableWeir, Bool.and_eq_true] at hK
  obtain ⟨hK0, hK1, hK2, hK3⟩ := hK
  unfold enableWeir
  with_reducible repeat' first
    | assumption
    | refine restartCounts_closed hP ?_ ?_
    | refine weirChange_closed hP ?_ ?_
    | refine hP.put _ _ _ _ _ ?_ ?_
    | refine hP.raise ?_ ?_
    | (extract_lets +onlyGivenNames x; apply thenHave (p := P x); (unfold x; clear x); rotate_left 1; (intro hx; clear_value x))
    | (extract_lets +onlyGivenNames x; clear_value x)
    | refine ite_closed ?_ ?_
    | split

theorem enableWeir_get {s : State} {w : Nat} {out : Int} {fld0 : Fld} {i0 j0 : Nat} (hK : Foot.enableWeir (notFld fld0) =
    true)  : (enableWeir s w out).get fld0 i0 j0 = s.get fld0 i0 j0 :=
  enableWeir_closed (P := fun x => x.get fld0 i0 j0 = s.get fld0 i0 j0) (field_closed fld0 i0 j0 _) hK  rfl

def Foot.weirBoundary (K : Part → Bool) : Bool := K (.fld .wrOn) && (K (.fld .WR_STAT_EFFMODE) && (K (.fld .wrRun) &&
    (Foot.quietInside K && (Foot.enableWeir K))))

theorem weirBoundary_closed {K : Part → Bool} {P : State → Prop} {s : State} {w : Nat} (hP : Closed K P) (hK :
    Foot.weirBoundary K = true) (hs_s : P s) :
    P (weirBoundary s w) := by
  simp only [Foot.weirBoundary, Bool.and_eq_true] at hK
  obtain ⟨hK0, hK1, hK2, hK3, hK4⟩ := hK
  unfold weirBoundary
  with_reducible repeat' first
    | assumption
    | refine quietInside_closed hP ?_ ?_
    | refine enableWeir_closed hP ?_ ?_
    | refine hP.put _ _ _ _ _ ?_ ?_
    | (extract_lets +onlyGivenNames x; apply thenHave (p := P x); (unfold x; clear x); rotate_left 1; (intro hx; clear_value x))
    | (extract_lets +onlyGivenNames x; clear_value x)
    | refine ite_closed ?_ ?_
    | split

theorem weirBoundary_get {s : State} {w : Nat} {fld0 : Fld} {i0 j0 : Nat} (hK : Foot.weirBoundary (notFld fld0) = true)  :
    (weirBoundary s w).get fld0 i0 j0 = s.get fld0 i0 j0 :=
  weirBoundary_closed (P := fun x => x.get fld0 i0 j0 = s.get fld0 i0 j0) (field_closed fld0 i0 j0 _) hK  rfl

def Foot.weirLoss (K : Part → Bool) : Bool := K (.fld .wrLoss) && (K (.fld .wrRun) && (K (.fld .WP_RFLAG_WLOST) && (K (.fld
    .protLost) && (K (.fld .WP_RFLAG_TRLOST) && (K (.fld .trLost) && (Foot.quietInside K && (Foot.requestRetire K)))))))

theorem weirLoss_closed {K : Part → Bool} {P : State → Prop} {s : State} {w : Nat} (hP : Closed K P) (hK : Foot.weirLoss K =
    true) (hs_s : P s) :
    P (weirLoss s w) := by
  simp only [Foot.weirLoss, Bool.and_eq_true] at hK
  obtain ⟨hK0, hK1, hK2, hK3, hK4, hK5, hK6, hK7⟩ := hK
  unfold weirLoss
  with_reducible repeat' first
    | assumption
    | refine quietInside_closed hP ?_ ?_
    | refine requestRetire_closed hP ?_ ?_
    | refine hP.clear ?_ ?_
    | refine hP.raise ?_ ?_
    | (extract_lets +onlyGivenNames x; apply thenHave (p := P x); (unfold x; clear x); rotate_left 1; (intro hx; clear_value x))
    | (extract_lets +onlyGivenNames x; clear_value x)
    | split

theorem weirLoss_get {s : State} {w : Nat} {fld0 : Fld} {i0 j0 : Nat} (hK : Foot.weirLoss (notFld fld0) = true)  : (weirLoss
    s w).get fld0 i0 j0 = s.get fld0 i0 j0 :=
  weirLoss_closed (P := fun x => x.get fld0 i0 j0 = s.get fld0 i0 j0) (field_closed fld0 i0 j0 _) hK  rfl

def Foot.failWeir (K : Part → Bool) : Bool := K (.fld .WR_STAT_FAIL) && (K (.fld .WP_SPFAIL) && (K (.fld .WR_STAT_SPIDX) &&
    (K (.fld .WR_STAT_SUBST) && (K (.fld .WP_STATUS_SPUSE) && (Foot.weirLoss K)))))

theorem failWeir_closed {K : Part → Bool} {P : State → Prop} {s : State} {w : Nat} (hP : Closed K P) (hK : Foot.failWeir K =
    true) (hs_s : P s) :
    P (failWeir s w) := by
  simp only [Foot.failWeir, Bool.and_eq_true] at hK
  obtain ⟨hK0, hK1, hK2, hK3, hK4, hK5⟩ := hK
  unfold failWeir
  with_reducible repeat' first
    | assumption
    | refine weirLoss_closed hP ?_ ?_
    | refine hP.clear ?_ ?_
    | refine hP.raise ?_ ?_
    | refine hP.setBits ?_ ?_
    | refine hP.clrBits ?_ ?_
    | (extract_lets +onlyGivenNames x; apply thenHave (p := P x); (unfold x; clear x); rotate_left 1; (intro hx; clear_value x))
    | (extract_lets +onlyGivenNames x; clear_value x)
    | refine ite_closed ?_ ?_
    | split

theorem failWeir_get {s : State} {w : Nat} {fld0 : Fld} {i0 j0 : Nat} (hK : Foot.failWeir (notFld fld0) = true)  : (failWeir
    s w).get fld0 i0 j0 = s.get fld0 i0 j0 :=
  failWeir_closed (P := fun x => x.get fld0 i0 j0 = s.get fld0 i0 j0) (field_closed fld0 i0 j0 _) hK  rfl

def Foot.declaredBoundary (K : Part → Bool) : Bool := K (.fld .declReq) && (Foot.failWeir K)

theorem declaredBoundary_closed {K : Part → Bool} {P : State → Prop} {s : State} (hP : Closed K P) (hK :
    Foot.declaredBoundary K = true) (hs_s : P s) :
    P (declaredBoundary s) := by
  simp only [Foot.declaredBoundary, Bool.and_eq_true] at hK
  obtain ⟨hK0, hK1⟩ := hK
  unfold declaredBoundary
  with_reducible repeat' first
    | assumption
    | refine failWeir_closed hP ?_ ?_
    | refine hP.clear ?_ ?_
    | refine Closed.each ?_ _ ?_
    | intro _

theorem declaredBoundary_get {s : State} {fld0 : Fld} {i0 j0 : Nat} (hK : Foot.declaredBoundary (notFld fld0) = true)  :
    (declaredBoundary s).get fld0 i0 j0 = s.get fld0 i0 j0 :=
  declaredBoundary_closed (P := fun x => x.get fld0 i0 j0 = s.get fld0 i0 j0) (field_closed fld0 i0 j0 _) hK  rfl

def Foot.execAllOffLengthExpiry (K : Part → Bool) : Bool := Foot.allOffLength K

theorem execAllOffLengthExpiry_closed {K : Part → Bool} {P : State → Prop} {r : Rail} {s : State} (hP : Closed K P) (hK :
    Foot.execAllOffLengthExpiry K = true) (hs_s : P s) :
    OutAll P (execAllOffLengthExpiry r s) := by
  simp only [Foot.execAllOffLengthExpiry, Bool.and_eq_true] at hK
  unfold execAllOffLengthExpiry
  with_reducible repeat' first
    | assumption
    | refine allOffLength_closed hP ?_ ?_
    | refine OutAll.mk ?_

def Foot.execBurstBudgetExhausted (K : Part → Bool) : Bool := Foot.burstBudget K

theorem execBurstBudgetExhausted_closed {K : Part → Bool} {P : State → Prop} {r : Rail} {s : State} (hP : Closed K P) (hK :
    Foot.execBurstBudgetExhausted K = true) (hs_s : P s) :
    OutAll P (execBurstBudgetExhausted r s) := by
  simp only [Foot.execBurstBudgetExhausted, Bool.and_eq_true] at hK
  unfold execBurstBudgetExhausted
  with_reducible repeat' first
    | assumption
    | refine burstBudget_closed hP ?_ ?_
    | refine OutAll.mk ?_

def Foot.execBurstLengthExpiry (K : Part → Bool) : Bool := Foot.burstLength K

theorem execBurstLengthExpiry_closed {K : Part → Bool} {P : State → Prop} {r : Rail} {s : State} (hP : Closed K P) (hK :
    Foot.execBurstLengthExpiry K = true) (hs_s : P s) :
    OutAll P (execBurstLengthExpiry r s) := by
  simp only [Foot.execBurstLengthExpiry, Bool.and_eq_true] at hK
  unfold execBurstLengthExpiry
  with_reducible repeat' first
    | assumption
    | refine burstLength_closed hP ?_ ?_
    | refine OutAll.mk ?_

def Foot.execBurstPhaseExit (K : Part → Bool) : Bool := Foot.burstPhaseExit K

theorem execBurstPhaseExit_closed {K : Part → Bool} {P : State → Prop} {p : Phase} {raw : BitVec 12} {prev : BitVec 12} {at_
    : Fin 320} {s : State} (hP : Closed K P) (hK : Foot.execBurstPhaseExit K = true) (hs_s : P s) :
    OutAll P (execBurstPhaseExit p raw prev at_ s) := by
  simp only [Foot.execBurstPhaseExit, Bool.and_eq_true] at hK
  unfold execBurstPhaseExit
  with_reducible repeat' first
    | assumption
    | refine burstPhaseExit_closed hP ?_ ?_
    | refine OutAll.mk ?_

def Foot.execDeclareWeirFailed (K : Part → Bool) : Bool := Foot.declareWeir K

theorem execDeclareWeirFailed_closed {K : Part → Bool} {P : State → Prop} {w : Weir} {s : State} (hP : Closed K P) (hK :
    Foot.execDeclareWeirFailed K = true) (hs_s : P s) :
    OutAll P (execDeclareWeirFailed w s) := by
  simp only [Foot.execDeclareWeirFailed, Bool.and_eq_true] at hK
  unfold execDeclareWeirFailed
  with_reducible repeat' first
    | assumption
    | refine declareWeir_closed hP ?_ ?_
    | refine OutAll.mk ?_

def Foot.weirCrossing (K : Part → Bool) : Bool := K (.fld .wrSampled) && (Foot.weirChange K)

theorem weirCrossing_closed {K : Part → Bool} {P : State → Prop} {s : State} {w : Nat} {nv : Int} {t : Int} (hP : Closed K P)
    (hK : Foot.weirCrossing K = true) (hs_s : P s) :
    P (weirCrossing s w nv t) := by
  simp only [Foot.weirCrossing, Bool.and_eq_true] at hK
  obtain ⟨hK0, hK1⟩ := hK
  unfold weirCrossing
  with_reducible repeat' first
    | assumption
    | refine weirChange_closed hP ?_ ?_
    | refine hP.put _ _ _ _ _ ?_ ?_
    | (extract_lets +onlyGivenNames x; apply thenHave (p := P x); (unfold x; clear x); rotate_left 1; (intro hx; clear_value x))
    | (extract_lets +onlyGivenNames x; clear_value x)
    | refine ite_closed ?_ ?_
    | split

theorem weirCrossing_get {s : State} {w : Nat} {nv : Int} {t : Int} {fld0 : Fld} {i0 j0 : Nat} (hK : Foot.weirCrossing
    (notFld fld0) = true)  : (weirCrossing s w nv t).get fld0 i0 j0 = s.get fld0 i0 j0 :=
  weirCrossing_closed (P := fun x => x.get fld0 i0 j0 = s.get fld0 i0 j0) (field_closed fld0 i0 j0 _) hK  rfl

def Foot.execWeirCrossing (K : Part → Bool) : Bool := Foot.weirCrossing K

theorem execWeirCrossing_closed {K : Part → Bool} {P : State → Prop} {w : Weir} {nv : Int} {at_ : Fin 320} {s : State} (hP :
    Closed K P) (hK : Foot.execWeirCrossing K = true) (hs_s : P s) :
    OutAll P (execWeirCrossing w nv at_ s) := by
  simp only [Foot.execWeirCrossing, Bool.and_eq_true] at hK
  unfold execWeirCrossing
  with_reducible repeat' first
    | assumption
    | refine weirCrossing_closed hP ?_ ?_
    | refine OutAll.mk ?_

def Foot.weirEnable (K : Part → Bool) : Bool := Foot.weirBoundary K

theorem weirEnable_closed {K : Part → Bool} {P : State → Prop} {s : State} {w : Nat} (hP : Closed K P) (hK : Foot.weirEnable
    K = true) (hs_s : P s) :
    P (weirEnable s w) := by
  simp only [Foot.weirEnable, Bool.and_eq_true] at hK
  unfold weirEnable
  with_reducible repeat' first
    | assumption
    | refine weirBoundary_closed hP ?_ ?_
    | refine ite_closed ?_ ?_
    | split

theorem weirEnable_get {s : State} {w : Nat} {fld0 : Fld} {i0 j0 : Nat} (hK : Foot.weirEnable (notFld fld0) = true)  :
    (weirEnable s w).get fld0 i0 j0 = s.get fld0 i0 j0 :=
  weirEnable_closed (P := fun x => x.get fld0 i0 j0 = s.get fld0 i0 j0) (field_closed fld0 i0 j0 _) hK  rfl

def Foot.execWeirEnable (K : Part → Bool) : Bool := Foot.weirEnable K

theorem execWeirEnable_closed {K : Part → Bool} {P : State → Prop} {w : Weir} {s : State} (hP : Closed K P) (hK :
    Foot.execWeirEnable K = true) (hs_s : P s) :
    OutAll P (execWeirEnable w s) := by
  simp only [Foot.execWeirEnable, Bool.and_eq_true] at hK
  unfold execWeirEnable
  with_reducible repeat' first
    | assumption
    | refine weirEnable_closed hP ?_ ?_
    | refine OutAll.mk ?_

def Foot.weirFallback (K : Part → Bool) : Bool := Foot.weirChange K

theorem weirFallback_closed {K : Part → Bool} {P : State → Prop} {s : State} {w : Nat} {nv : Int} (hP : Closed K P) (hK :
    Foot.weirFallback K = true) (hs_s : P s) :
    P (weirFallback s w nv) := by
  simp only [Foot.weirFallback, Bool.and_eq_true] at hK
  unfold weirFallback
  with_reducible repeat' first
    | assumption
    | refine weirChange_closed hP ?_ ?_
    | (extract_lets +onlyGivenNames x; apply thenHave (p := P x); (unfold x; clear x); rotate_left 1; (intro hx; clear_value x))
    | (extract_lets +onlyGivenNames x; clear_value x)
    | refine ite_closed ?_ ?_
    | split

theorem weirFallback_get {s : State} {w : Nat} {nv : Int} {fld0 : Fld} {i0 j0 : Nat} (hK : Foot.weirFallback (notFld fld0) =
    true)  : (weirFallback s w nv).get fld0 i0 j0 = s.get fld0 i0 j0 :=
  weirFallback_closed (P := fun x => x.get fld0 i0 j0 = s.get fld0 i0 j0) (field_closed fld0 i0 j0 _) hK  rfl

def Foot.execWeirFallbackCompare (K : Part → Bool) : Bool := Foot.weirFallback K

theorem execWeirFallbackCompare_closed {K : Part → Bool} {P : State → Prop} {w : Weir} {nv : Int} {s : State} (hP : Closed K
    P) (hK : Foot.execWeirFallbackCompare K = true) (hs_s : P s) :
    OutAll P (execWeirFallbackCompare w nv s) := by
  simp only [Foot.execWeirFallbackCompare, Bool.and_eq_true] at hK
  unfold execWeirFallbackCompare
  with_reducible repeat' first
    | assumption
    | refine weirFallback_closed hP ?_ ?_
    | refine OutAll.mk ?_

def Foot.weirSubstitution (K : Part → Bool) : Bool := K (.fld .WR_STAT_SPIDX) && (K (.fld .WR_STAT_SUBST) && (K (.fld
    .WP_STATUS_SPUSE) && (Foot.weirLoss K && (Foot.enableWeir K && ((weirConfig.all fun f => K (.fld f)))))))

theorem weirSubstitution_closed {K : Part → Bool} {P : State → Prop} {s : State} {w : Nat} (hP : Closed K P) (hK :
    Foot.weirSubstitution K = true) (hs_s : P s) :
    P (weirSubstitution s w) := by
  simp only [Foot.weirSubstitution, Bool.and_eq_true] at hK
  obtain ⟨hK0, hK1, hK2, hK3, hK4, hK5⟩ := hK
  unfold weirSubstitution
  with_reducible repeat' first
    | assumption
    | refine weirLoss_closed hP ?_ ?_
    | refine enableWeir_closed hP ?_ ?_
    | refine hP.put _ _ _ _ _ ?_ ?_
    | refine hP.raise ?_ ?_
    | refine hP.setBits ?_ ?_
    | refine Closed.eachMem (fun _ _ _ _ => ?_) ?_
    | (exact listK (by assumption) (by assumption))
    | intro _
    | (extract_lets +onlyGivenNames x; apply thenHave (p := P x); (unfold x; clear x); rotate_left 1; (intro hx; clear_value x))
    | (extract_lets +onlyGivenNames x; clear_value x)
    | refine ite_closed ?_ ?_
    | split

theorem weirSubstitution_get {s : State} {w : Nat} {fld0 : Fld} {i0 j0 : Nat} (hK : Foot.weirSubstitution (notFld fld0) =
    true)  : (weirSubstitution s w).get fld0 i0 j0 = s.get fld0 i0 j0 :=
  weirSubstitution_closed (P := fun x => x.get fld0 i0 j0 = s.get fld0 i0 j0) (field_closed fld0 i0 j0 _) hK  rfl

def Foot.weirSelftest (K : Part → Bool) : Bool := K (.fld .WP_STATUS_RDY) && (Foot.failWeir K && (Foot.weirSubstitution K))

theorem weirSelftest_closed {K : Part → Bool} {P : State → Prop} {s : State} {failed : List Nat} (hP : Closed K P) (hK :
    Foot.weirSelftest K = true) (hs_s : P s) :
    P (weirSelftest s failed) := by
  simp only [Foot.weirSelftest, Bool.and_eq_true] at hK
  obtain ⟨hK0, hK1, hK2⟩ := hK
  unfold weirSelftest
  with_reducible repeat' first
    | assumption
    | refine failWeir_closed hP ?_ ?_
    | refine weirSubstitution_closed hP ?_ ?_
    | refine hP.raise ?_ ?_
    | refine Closed.each ?_ _ ?_
    | intro _
    | (extract_lets +onlyGivenNames x; apply thenHave (p := P x); (unfold x; clear x); rotate_left 1; (intro hx; clear_value x))
    | (extract_lets +onlyGivenNames x; clear_value x)
    | refine ite_closed ?_ ?_
    | split

theorem weirSelftest_get {s : State} {failed : List Nat} {fld0 : Fld} {i0 j0 : Nat} (hK : Foot.weirSelftest (notFld fld0) =
    true)  : (weirSelftest s failed).get fld0 i0 j0 = s.get fld0 i0 j0 :=
  weirSelftest_closed (P := fun x => x.get fld0 i0 j0 = s.get fld0 i0 j0) (field_closed fld0 i0 j0 _) hK  rfl

def Foot.execWeirSelftest (K : Part → Bool) : Bool := Foot.weirSelftest K

theorem execWeirSelftest_closed {K : Part → Bool} {P : State → Prop} {failed : List Nat} {s : State} (hP : Closed K P) (hK :
    Foot.execWeirSelftest K = true) (hs_s : P s) :
    OutAll P (execWeirSelftest failed s) := by
  simp only [Foot.execWeirSelftest, Bool.and_eq_true] at hK
  unfold execWeirSelftest
  with_reducible repeat' first
    | assumption
    | refine weirSelftest_closed hP ?_ ?_
    | refine OutAll.mk ?_

def Foot.weirSettleEnd (K : Part → Bool) : Bool := K (.fld .WR_STAT_SETTLE) && (Foot.weirChange K)

theorem weirSettleEnd_closed {K : Part → Bool} {P : State → Prop} {s : State} {w : Nat} {nv : Int} (hP : Closed K P) (hK :
    Foot.weirSettleEnd K = true) (hs_s : P s) :
    P (weirSettleEnd s w nv) := by
  simp only [Foot.weirSettleEnd, Bool.and_eq_true] at hK
  obtain ⟨hK0, hK1⟩ := hK
  unfold weirSettleEnd
  with_reducible repeat' first
    | assumption
    | refine weirChange_closed hP ?_ ?_
    | refine hP.clear ?_ ?_
    | refine ite_closed ?_ ?_
    | split

theorem weirSettleEnd_get {s : State} {w : Nat} {nv : Int} {fld0 : Fld} {i0 j0 : Nat} (hK : Foot.weirSettleEnd (notFld fld0)
    = true)  : (weirSettleEnd s w nv).get fld0 i0 j0 = s.get fld0 i0 j0 :=
  weirSettleEnd_closed (P := fun x => x.get fld0 i0 j0 = s.get fld0 i0 j0) (field_closed fld0 i0 j0 _) hK  rfl

def Foot.execWeirSettleEnd (K : Part → Bool) : Bool := Foot.weirSettleEnd K

theorem execWeirSettleEnd_closed {K : Part → Bool} {P : State → Prop} {w : Weir} {nv : Int} {s : State} (hP : Closed K P) (hK
    : Foot.execWeirSettleEnd K = true) (hs_s : P s) :
    OutAll P (execWeirSettleEnd w nv s) := by
  simp only [Foot.execWeirSettleEnd, Bool.and_eq_true] at hK
  unfold execWeirSettleEnd
  with_reducible repeat' first
    | assumption
    | refine weirSettleEnd_closed hP ?_ ?_
    | refine OutAll.mk ?_

def Foot.execWeirSubstitution (K : Part → Bool) : Bool := Foot.weirSubstitution K

theorem execWeirSubstitution_closed {K : Part → Bool} {P : State → Prop} {w : Weir} {s : State} (hP : Closed K P) (hK :
    Foot.execWeirSubstitution K = true) (hs_s : P s) :
    OutAll P (execWeirSubstitution w s) := by
  simp only [Foot.execWeirSubstitution, Bool.and_eq_true] at hK
  unfold execWeirSubstitution
  with_reducible repeat' first
    | assumption
    | refine weirSubstitution_closed hP ?_ ?_
    | refine OutAll.mk ?_

end Sys2Proof.Machine
end

