-- ==== Sys2Proof/Laws/ClosedProtection.lean ====
section
/-! SUPPORT. What the functions of Machine/Protection.lean can write, and that they keep every closed property (Laws/Closed.lean). -/
namespace Sys2Proof.Machine

set_option Elab.async false
set_option linter.all false

def Foot.askFault (K : Part → Bool) : Bool := K (.fld .faultCodes) && (K (.fld .faultLatchReq))

theorem askFault_closed {K : Part → Bool} {P : State → Prop} {s : State} {r : Nat} {code : Nat} {latched : Bool} (hP : Closed
    K P) (hK : Foot.askFault K = true) (hs_s : P s) :
    P (askFault s r code latched) := by
  simp only [Foot.askFault, Bool.and_eq_true] at hK
  obtain ⟨hK0, hK1⟩ := hK
  unfold askFault
  with_reducible repeat' first
    | assumption
    | refine hP.put _ _ _ _ _ ?_ ?_
    | refine hP.clear ?_ ?_
    | refine hP.raise ?_ ?_
    | refine hP.bump ?_ ?_
    | refine hP.setBits ?_ ?_
    | refine hP.clrBits ?_ ?_
    | refine Closed.when ?_ ?_
    | intro _
    | (extract_lets +onlyGivenNames x; apply thenHave (p := P x); (unfold x; clear x); rotate_left 1; (intro hx; clear_value x))
    | (extract_lets +onlyGivenNames x; clear_value x)
    | (extract_lets +onlyGivenNames x)
    | refine ite_closed ?_ ?_
    | split

theorem askFault_get {s : State} {r : Nat} {code : Nat} {latched : Bool} {fld0 : Fld} {i0 j0 : Nat} (hK : Foot.askFault
    (notFld fld0) = true)  : (askFault s r code latched).get fld0 i0 j0 = s.get fld0 i0 j0 :=
  askFault_closed (P := fun x => x.get fld0 i0 j0 = s.get fld0 i0 j0) (field_closed fld0 i0 j0 _) hK  rfl

def Foot.askIsolation (K : Part → Bool) : Bool := K (.fld .isolReq)

theorem askIsolation_closed {K : Part → Bool} {P : State → Prop} {s : State} {c : Nat} (hP : Closed K P) (hK :
    Foot.askIsolation K = true) (hs_s : P s) :
    P (askIsolation s c) := by
  simp only [Foot.askIsolation, Bool.and_eq_true] at hK
  unfold askIsolation
  with_reducible repeat' first
    | assumption
    | refine hP.raise ?_ ?_
    | refine ite_closed ?_ ?_
    | split

theorem askIsolation_get {s : State} {c : Nat} {fld0 : Fld} {i0 j0 : Nat} (hK : Foot.askIsolation (notFld fld0) = true)  :
    (askIsolation s c).get fld0 i0 j0 = s.get fld0 i0 j0 :=
  askIsolation_closed (P := fun x => x.get fld0 i0 j0 = s.get fld0 i0 j0) (field_closed fld0 i0 j0 _) hK  rfl

def Foot.auxCount (K : Part → Bool) : Bool := K (.fld .auxIn)

theorem auxCount_closed {K : Part → Bool} {P : State → Prop} {s : State} {r : Nat} (hP : Closed K P) (hK : Foot.auxCount K =
    true) (hs_s : P s) :
    P (auxCount s r) := by
  simp only [Foot.auxCount, Bool.and_eq_true] at hK
  unfold auxCount
  with_reducible repeat' first
    | assumption
    | refine hP.clear ?_ ?_
    | refine hP.bump ?_ ?_
    | refine ite_closed ?_ ?_
    | split

theorem auxCount_get {s : State} {r : Nat} {fld0 : Fld} {i0 j0 : Nat} (hK : Foot.auxCount (notFld fld0) = true)  : (auxCount
    s r).get fld0 i0 j0 = s.get fld0 i0 j0 :=
  auxCount_closed (P := fun x => x.get fld0 i0 j0 = s.get fld0 i0 j0) (field_closed fld0 i0 j0 _) hK  rfl

def Foot.leaveFault (K : Part → Bool) : Bool := K (.fld .WP_RSTAT_RLEFT) && (K (.fld .auxCause) && (K (.fld .faultLatched) &&
    (K (.fld .faultIn) && (K (.fld .WP_RFLAG_OVOFF) && (K (.fld .ovRun) && (K (.fld .ovOff)))))))

theorem leaveFault_closed {K : Part → Bool} {P : State → Prop} {s : State} {r : Nat} {cleared : Bool} (hP : Closed K P) (hK :
    Foot.leaveFault K = true) (hs_s : P s) :
    P (leaveFault s r cleared) := by
  simp only [Foot.leaveFault, Bool.and_eq_true] at hK
  obtain ⟨hK0, hK1, hK2, hK3, hK4, hK5, hK6⟩ := hK
  unfold leaveFault
  with_reducible repeat' first
    | assumption
    | refine hP.put _ _ _ _ _ ?_ ?_
    | refine hP.clear ?_ ?_
    | refine hP.raise ?_ ?_
    | (extract_lets +onlyGivenNames x; apply thenHave (p := P x); (unfold x; clear x); rotate_left 1; (intro hx; clear_value x))
    | (extract_lets +onlyGivenNames x; clear_value x)
    | refine ite_closed ?_ ?_
    | split

theorem leaveFault_get {s : State} {r : Nat} {cleared : Bool} {fld0 : Fld} {i0 j0 : Nat} (hK : Foot.leaveFault (notFld fld0)
    = true)  : (leaveFault s r cleared).get fld0 i0 j0 = s.get fld0 i0 j0 :=
  leaveFault_closed (P := fun x => x.get fld0 i0 j0 = s.get fld0 i0 j0) (field_closed fld0 i0 j0 _) hK  rfl

def Foot.enterFault (K : Part → Bool) : Bool := K (.fld .WP_RFLAG_RTEXH) && (K (.fld .faultAt) && (K (.fld .faultLatched) &&
    (K (.fld .faultIn) && (K (.fld .WP_RSTAT_FCAUSE) && (K (.fld .auxCause) && (K (.fld .auxIn) && (K (.fld .ovRun) && (K
    (.fld .ovOff) && (K (.fld .faultLevel))))))))))

theorem enterFault_closed {K : Part → Bool} {P : State → Prop} {s : State} {r : Nat} {m : Int} {latched : Bool} {t : Int} (hP
    : Closed K P) (hK : Foot.enterFault K = true) (hs_s : P s) :
    P (enterFault s r m latched t) := by
  simp only [Foot.enterFault, Bool.and_eq_true] at hK
  obtain ⟨hK0, hK1, hK2, hK3, hK4, hK5, hK6, hK7, hK8, hK9⟩ := hK
  unfold enterFault
  with_reducible repeat' first
    | assumption
    | refine hP.put _ _ _ _ _ ?_ ?_
    | refine hP.clear ?_ ?_
    | refine hP.raise ?_ ?_
    | refine hP.bump ?_ ?_
    | refine hP.setBits ?_ ?_
    | refine hP.clrBits ?_ ?_
    | refine Closed.when ?_ ?_
    | intro _
    | (extract_lets +onlyGivenNames x; apply thenHave (p := P x); (unfold x; clear x); rotate_left 1; (intro hx; clear_value x))
    | (extract_lets +onlyGivenNames x; clear_value x)
    | (extract_lets +onlyGivenNames x)
    | refine ite_closed ?_ ?_
    | split

theorem enterFault_get {s : State} {r : Nat} {m : Int} {latched : Bool} {t : Int} {fld0 : Fld} {i0 j0 : Nat} (hK :
    Foot.enterFault (notFld fld0) = true)  : (enterFault s r m latched t).get fld0 i0 j0 = s.get fld0 i0 j0 :=
  enterFault_closed (P := fun x => x.get fld0 i0 j0 = s.get fld0 i0 j0) (field_closed fld0 i0 j0 _) hK  rfl

def Foot.auxFaults (K : Part → Bool) : Bool := K (.fld .WP_RFLAG_AUX) && (K (.fld .auxReq) && (Foot.askFault K))

theorem auxFaults_closed {K : Part → Bool} {P : State → Prop} {s : State} {a : Nat} (hP : Closed K P) (hK : Foot.auxFaults K
    = true) (hs_s : P s) :
    P (auxFaults s a) := by
  simp only [Foot.auxFaults, Bool.and_eq_true] at hK
  obtain ⟨hK0, hK1, hK2⟩ := hK
  unfold auxFaults
  with_reducible repeat' first
    | assumption
    | refine askFault_closed hP ?_ ?_
    | refine hP.raise ?_ ?_
    | refine hP.setBits ?_ ?_
    | refine Closed.each ?_ _ ?_
    | intro _
    | (extract_lets +onlyGivenNames x; apply thenHave (p := P x); (unfold x; clear x); rotate_left 1; (intro hx; clear_value x))
    | (extract_lets +onlyGivenNames x; clear_value x)
    | refine ite_closed ?_ ?_
    | split

theorem auxFaults_get {s : State} {a : Nat} {fld0 : Fld} {i0 j0 : Nat} (hK : Foot.auxFaults (notFld fld0) = true)  :
    (auxFaults s a).get fld0 i0 j0 = s.get fld0 i0 j0 :=
  auxFaults_closed (P := fun x => x.get fld0 i0 j0 = s.get fld0 i0 j0) (field_closed fld0 i0 j0 _) hK  rfl

def Foot.clusterFault (K : Part → Bool) : Bool := Foot.askFault K

theorem clusterFault_closed {K : Part → Bool} {P : State → Prop} {s : State} {c : Nat} {code : Nat} {latched : Bool} (hP :
    Closed K P) (hK : Foot.clusterFault K = true) (hs_s : P s) :
    P (clusterFault s c code latched) := by
  simp only [Foot.clusterFault, Bool.and_eq_true] at hK
  unfold clusterFault
  with_reducible repeat' first
    | assumption
    | refine askFault_closed hP ?_ ?_
    | refine Closed.each ?_ _ ?_
    | intro _

theorem clusterFault_get {s : State} {c : Nat} {code : Nat} {latched : Bool} {fld0 : Fld} {i0 j0 : Nat} (hK :
    Foot.clusterFault (notFld fld0) = true)  : (clusterFault s c code latched).get fld0 i0 j0 = s.get fld0 i0 j0 :=
  clusterFault_closed (P := fun x => x.get fld0 i0 j0 = s.get fld0 i0 j0) (field_closed fld0 i0 j0 _) hK  rfl

def Foot.rocCount (K : Part → Bool) : Bool := K (.fld .rocCnt)

theorem rocCount_closed {K : Part → Bool} {P : State → Prop} {s : State} {r : Nat} (hP : Closed K P) (hK : Foot.rocCount K =
    true) (hs_s : P s) :
    P (rocCount s r) := by
  simp only [Foot.rocCount, Bool.and_eq_true] at hK
  unfold rocCount
  with_reducible repeat' first
    | assumption
    | refine hP.clear ?_ ?_
    | refine hP.bump ?_ ?_
    | refine ite_closed ?_ ?_
    | split

theorem rocCount_get {s : State} {r : Nat} {fld0 : Fld} {i0 j0 : Nat} (hK : Foot.rocCount (notFld fld0) = true)  : (rocCount
    s r).get fld0 i0 j0 = s.get fld0 i0 j0 :=
  rocCount_closed (P := fun x => x.get fld0 i0 j0 = s.get fld0 i0 j0) (field_closed fld0 i0 j0 _) hK  rfl

def Foot.railPolicy (K : Part → Bool) : Bool := Foot.askFault K

theorem railPolicy_closed {K : Part → Bool} {P : State → Prop} {s : State} {r : Nat} {code : Nat} {pol : Int} (hP : Closed K
    P) (hK : Foot.railPolicy K = true) (hs_s : P s) :
    P (railPolicy s r code pol) := by
  simp only [Foot.railPolicy, Bool.and_eq_true] at hK
  unfold railPolicy
  with_reducible repeat' first
    | assumption
    | refine askFault_closed hP ?_ ?_
    | refine ite_closed ?_ ?_
    | split

theorem railPolicy_get {s : State} {r : Nat} {code : Nat} {pol : Int} {fld0 : Fld} {i0 j0 : Nat} (hK : Foot.railPolicy
    (notFld fld0) = true)  : (railPolicy s r code pol).get fld0 i0 j0 = s.get fld0 i0 j0 :=
  railPolicy_closed (P := fun x => x.get fld0 i0 j0 = s.get fld0 i0 j0) (field_closed fld0 i0 j0 _) hK  rfl

def Foot.phasePolicy (K : Part → Bool) : Bool := Foot.requestRetire K && (Foot.askFault K)

theorem phasePolicy_closed {K : Part → Bool} {P : State → Prop} {s : State} {r : Nat} {p : Nat} {code : Nat} {cause : Nat}
    {pol : Int} (hP : Closed K P) (hK : Foot.phasePolicy K = true) (hs_s : P s) :
    P (phasePolicy s r p code cause pol) := by
  simp only [Foot.phasePolicy, Bool.and_eq_true] at hK
  obtain ⟨hK0, hK1⟩ := hK
  unfold phasePolicy
  with_reducible repeat' first
    | assumption
    | refine requestRetire_closed hP ?_ ?_
    | refine askFault_closed hP ?_ ?_
    | refine ite_closed ?_ ?_
    | split

theorem phasePolicy_get {s : State} {r : Nat} {p : Nat} {code : Nat} {cause : Nat} {pol : Int} {fld0 : Fld} {i0 j0 : Nat} (hK
    : Foot.phasePolicy (notFld fld0) = true)  : (phasePolicy s r p code cause pol).get fld0 i0 j0 = s.get fld0 i0 j0 :=
  phasePolicy_closed (P := fun x => x.get fld0 i0 j0 = s.get fld0 i0 j0) (field_closed fld0 i0 j0 _) hK  rfl

def Foot.senseFaults (K : Part → Bool) : Bool := K (.fld .WP_RFLAG_SENSE) && (K (.fld .WP_RFLAG_WLOST) && (Foot.railPolicy K
    && (Foot.askFault K && (Foot.phasePolicy K))))

theorem senseFaults_closed {K : Part → Bool} {P : State → Prop} {s : State} {r : Nat} (hP : Closed K P) (hK :
    Foot.senseFaults K = true) (hs_s : P s) :
    P (senseFaults s r) := by
  simp only [Foot.senseFaults, Bool.and_eq_true] at hK
  obtain ⟨hK0, hK1, hK2, hK3, hK4⟩ := hK
  unfold senseFaults
  with_reducible repeat' first
    | assumption
    | refine railPolicy_closed hP ?_ ?_
    | refine askFault_closed hP ?_ ?_
    | refine phasePolicy_closed hP ?_ ?_
    | refine hP.raise ?_ ?_
    | refine Closed.each ?_ _ ?_
    | intro _
    | (extract_lets +onlyGivenNames x; apply thenHave (p := P x); (unfold x; clear x); rotate_left 1; (intro hx; clear_value x))
    | (extract_lets +onlyGivenNames x; clear_value x)
    | refine ite_closed ?_ ?_
    | split

theorem senseFaults_get {s : State} {r : Nat} {fld0 : Fld} {i0 j0 : Nat} (hK : Foot.senseFaults (notFld fld0) = true)  :
    (senseFaults s r).get fld0 i0 j0 = s.get fld0 i0 j0 :=
  senseFaults_closed (P := fun x => x.get fld0 i0 j0 = s.get fld0 i0 j0) (field_closed fld0 i0 j0 _) hK  rfl

def Foot.stagePolicy (K : Part → Bool) : Bool := Foot.askIsolation K && (Foot.clusterFault K)

theorem stagePolicy_closed {K : Part → Bool} {P : State → Prop} {s : State} {c : Nat} (hP : Closed K P) (hK :
    Foot.stagePolicy K = true) (hs_s : P s) :
    P (stagePolicy s c) := by
  simp only [Foot.stagePolicy, Bool.and_eq_true] at hK
  obtain ⟨hK0, hK1⟩ := hK
  unfold stagePolicy
  with_reducible repeat' first
    | assumption
    | refine askIsolation_closed hP ?_ ?_
    | refine clusterFault_closed hP ?_ ?_
    | (extract_lets +onlyGivenNames x; apply thenHave (p := P x); (unfold x; clear x); rotate_left 1; (intro hx; clear_value x))
    | (extract_lets +onlyGivenNames x; clear_value x)
    | refine ite_closed ?_ ?_
    | split

theorem stagePolicy_get {s : State} {c : Nat} {fld0 : Fld} {i0 j0 : Nat} (hK : Foot.stagePolicy (notFld fld0) = true)  :
    (stagePolicy s c).get fld0 i0 j0 = s.get fld0 i0 j0 :=
  stagePolicy_closed (P := fun x => x.get fld0 i0 j0 = s.get fld0 i0 j0) (field_closed fld0 i0 j0 _) hK  rfl

def Foot.stageFault (K : Part → Bool) : Bool := Foot.stagePolicy K

theorem stageFault_closed {K : Part → Bool} {P : State → Prop} {s : State} {c : Nat} (hP : Closed K P) (hK : Foot.stageFault
    K = true) (hs_s : P s) :
    P (stageFault s c) := by
  simp only [Foot.stageFault, Bool.and_eq_true] at hK
  unfold stageFault
  with_reducible repeat' first
    | assumption
    | refine stagePolicy_closed hP ?_ ?_
    | refine ite_closed ?_ ?_
    | split

theorem stageFault_get {s : State} {c : Nat} {fld0 : Fld} {i0 j0 : Nat} (hK : Foot.stageFault (notFld fld0) = true)  :
    (stageFault s c).get fld0 i0 j0 = s.get fld0 i0 j0 :=
  stageFault_closed (P := fun x => x.get fld0 i0 j0 = s.get fld0 i0 j0) (field_closed fld0 i0 j0 _) hK  rfl

def Foot.judgeFaults (K : Part → Bool) : Bool := Foot.senseFaults K && (Foot.auxFaults K && (Foot.stageFault K))

theorem judgeFaults_closed {K : Part → Bool} {P : State → Prop} {s : State} (hP : Closed K P) (hK : Foot.judgeFaults K =
    true) (hs_s : P s) :
    P (judgeFaults s) := by
  simp only [Foot.judgeFaults, Bool.and_eq_true] at hK
  obtain ⟨hK0, hK1, hK2⟩ := hK
  unfold judgeFaults
  with_reducible repeat' first
    | assumption
    | refine senseFaults_closed hP ?_ ?_
    | refine auxFaults_closed hP ?_ ?_
    | refine stageFault_closed hP ?_ ?_
    | refine Closed.each ?_ _ ?_
    | intro _
    | (extract_lets +onlyGivenNames x; apply thenHave (p := P x); (unfold x; clear x); rotate_left 1; (intro hx; clear_value x))
    | (extract_lets +onlyGivenNames x; clear_value x)
    | (extract_lets +onlyGivenNames x)
    | refine ite_closed ?_ ?_
    | split

theorem judgeFaults_get {s : State} {fld0 : Fld} {i0 j0 : Nat} (hK : Foot.judgeFaults (notFld fld0) = true)  : (judgeFaults
    s).get fld0 i0 j0 = s.get fld0 i0 j0 :=
  judgeFaults_closed (P := fun x => x.get fld0 i0 j0 = s.get fld0 i0 j0) (field_closed fld0 i0 j0 _) hK  rfl

def Foot.countTickStates (K : Part → Bool) : Bool := K (.fld .uvCnt) && (K (.fld .ovCnt))

theorem countTickStates_closed {K : Part → Bool} {P : State → Prop} {s : State} {r : Nat} (hP : Closed K P) (hK :
    Foot.countTickStates K = true) (hs_s : P s) :
    P (countTickStates s r) := by
  simp only [Foot.countTickStates, Bool.and_eq_true] at hK
  obtain ⟨hK0, hK1⟩ := hK
  unfold countTickStates
  with_reducible repeat' first
    | assumption
    | refine hP.put _ _ _ _ _ ?_ ?_

theorem countTickStates_get {s : State} {r : Nat} {fld0 : Fld} {i0 j0 : Nat} (hK : Foot.countTickStates (notFld fld0) = true)
     : (countTickStates s r).get fld0 i0 j0 = s.get fld0 i0 j0 :=
  countTickStates_closed (P := fun x => x.get fld0 i0 j0 = s.get fld0 i0 j0) (field_closed fld0 i0 j0 _) hK  rfl

def Foot.tfltSample (K : Part → Bool) : Bool := K (.fld .WP_CSTAT_TFACT) && (K (.fld .tfAct) && (K (.fld .tfChg) && (K (.fld
    .tfRun) && (K (.fld .tfIn) && (K (.fld .tfMid) && (K (.fld .tfStuckOn) && (K (.fld .WP_CSTAT_TFRAW))))))))

theorem tfltSample_closed {K : Part → Bool} {P : State → Prop} {s : State} {c : Nat} {level : Bool} (hP : Closed K P) (hK :
    Foot.tfltSample K = true) (hs_s : P s) :
    P (tfltSample s c level) := by
  simp only [Foot.tfltSample, Bool.and_eq_true] at hK
  obtain ⟨hK0, hK1, hK2, hK3, hK4, hK5, hK6, hK7⟩ := hK
  unfold tfltSample
  with_reducible repeat' first
    | assumption
    | refine hP.put _ _ _ _ _ ?_ ?_
    | refine hP.clear ?_ ?_
    | refine hP.bump ?_ ?_
    | refine Closed.each ?_ _ ?_
    | refine Closed.when ?_ ?_
    | intro _
    | (extract_lets +onlyGivenNames x; apply thenHave (p := P x); (unfold x; clear x); rotate_left 1; (intro hx; clear_value x))
    | (extract_lets +onlyGivenNames x; clear_value x)
    | refine ite_closed ?_ ?_
    | split

theorem tfltSample_get {s : State} {c : Nat} {level : Bool} {fld0 : Fld} {i0 j0 : Nat} (hK : Foot.tfltSample (notFld fld0) =
    true)  : (tfltSample s c level).get fld0 i0 j0 = s.get fld0 i0 j0 :=
  tfltSample_closed (P := fun x => x.get fld0 i0 j0 = s.get fld0 i0 j0) (field_closed fld0 i0 j0 _) hK  rfl

def Foot.lsatCount (K : Part → Bool) : Bool := K (.fld .lsatCnt)

theorem lsatCount_closed {K : Part → Bool} {P : State → Prop} {s : State} {r : Nat} (hP : Closed K P) (hK : Foot.lsatCount K
    = true) (hs_s : P s) :
    P (lsatCount s r) := by
  simp only [Foot.lsatCount, Bool.and_eq_true] at hK
  unfold lsatCount
  with_reducible repeat' first
    | assumption
    | refine hP.clear ?_ ?_
    | refine hP.bump ?_ ?_
    | refine ite_closed ?_ ?_
    | split

theorem lsatCount_get {s : State} {r : Nat} {fld0 : Fld} {i0 j0 : Nat} (hK : Foot.lsatCount (notFld fld0) = true)  :
    (lsatCount s r).get fld0 i0 j0 = s.get fld0 i0 j0 :=
  lsatCount_closed (P := fun x => x.get fld0 i0 j0 = s.get fld0 i0 j0) (field_closed fld0 i0 j0 _) hK  rfl

def Foot.isolateCluster (K : Part → Bool) : Bool := K (.fld .probeFound) && (K (.fld .PH_CSTAT_PSTATE) && (K (.fld
    .WP_CSTAT_ISOL) && (K (.fld .isolReq) && (K (.fld .tfIn) && (K (.fld .noidMt) && (K (.fld .retReq) && (K (.fld .tfMid) &&
    (K (.fld .isolated) && (K (.fld .probeSkip) && (K (.fld .probeAll) && (K (.fld .probed) && (K (.fld .addReq) &&
    (Foot.leaveActive K && (Foot.activeChanged K))))))))))))))

theorem isolateCluster_closed {K : Part → Bool} {P : State → Prop} {s : State} {c : Nat} (hP : Closed K P) (hK :
    Foot.isolateCluster K = true) (hs_s : P s) :
    P (isolateCluster s c) := by
  simp only [Foot.isolateCluster, Bool.and_eq_true] at hK
  obtain ⟨hK0, hK1, hK2, hK3, hK4, hK5, hK6, hK7, hK8, hK9, hK10, hK11, hK12, hK13, hK14⟩ := hK
  unfold isolateCluster
  with_reducible repeat' first
    | assumption
    | refine leaveActive_closed hP ?_ ?_
    | refine activeChanged_closed hP ?_ ?_
    | refine hP.put _ _ _ _ _ ?_ ?_
    | refine hP.clear ?_ ?_
    | refine hP.raise ?_ ?_
    | refine hP.clrBits ?_ ?_
    | refine Closed.each ?_ _ ?_
    | intro _
    | (extract_lets +onlyGivenNames x; apply thenHave (p := P x); (unfold x; clear x); rotate_left 1; (intro hx; clear_value x))
    | (extract_lets +onlyGivenNames x; clear_value x)
    | refine ite_closed ?_ ?_
    | split

theorem isolateCluster_get {s : State} {c : Nat} {fld0 : Fld} {i0 j0 : Nat} (hK : Foot.isolateCluster (notFld fld0) = true) 
    : (isolateCluster s c).get fld0 i0 j0 = s.get fld0 i0 j0 :=
  isolateCluster_closed (P := fun x => x.get fld0 i0 j0 = s.get fld0 i0 j0) (field_closed fld0 i0 j0 _) hK  rfl

def Foot.loopSaturation (K : Part → Bool) : Bool := K (.fld .WP_RFLAG_LSAT) && (Foot.lsatCount K && (Foot.laneTick K &&
    (Foot.railPolicy K)))

theorem loopSaturation_closed {K : Part → Bool} {P : State → Prop} {s : State} {r : Nat} (hP : Closed K P) (hK :
    Foot.loopSaturation K = true) (hs_s : P s) :
    P (loopSaturation s r) := by
  simp only [Foot.loopSaturation, Bool.and_eq_true] at hK
  obtain ⟨hK0, hK1, hK2, hK3⟩ := hK
  unfold loopSaturation
  with_reducible repeat' first
    | assumption
    | refine lsatCount_closed hP ?_ ?_
    | refine laneTick_closed hP ?_ ?_
    | refine railPolicy_closed hP ?_ ?_
    | refine hP.raise ?_ ?_
    | (extract_lets +onlyGivenNames x; apply thenHave (p := P x); (unfold x; clear x); rotate_left 1; (intro hx; clear_value x))
    | (extract_lets +onlyGivenNames x; clear_value x)
    | refine ite_closed ?_ ?_
    | split

theorem loopSaturation_get {s : State} {r : Nat} {fld0 : Fld} {i0 j0 : Nat} (hK : Foot.loopSaturation (notFld fld0) = true) 
    : (loopSaturation s r).get fld0 i0 j0 = s.get fld0 i0 j0 :=
  loopSaturation_closed (P := fun x => x.get fld0 i0 j0 = s.get fld0 i0 j0) (field_closed fld0 i0 j0 _) hK  rfl

def Foot.execLoopSaturation (K : Part → Bool) : Bool := Foot.loopSaturation K

theorem execLoopSaturation_closed {K : Part → Bool} {P : State → Prop} {r : Rail} {s : State} (hP : Closed K P) (hK :
    Foot.execLoopSaturation K = true) (hs_s : P s) :
    OutAll P (execLoopSaturation r s) := by
  simp only [Foot.execLoopSaturation, Bool.and_eq_true] at hK
  unfold execLoopSaturation
  with_reducible repeat' first
    | assumption
    | refine loopSaturation_closed hP ?_ ?_
    | refine OutAll.mk ?_

def Foot.ovPersistence (K : Part → Bool) : Bool := K (.fld .WP_RFLAG_OV) && (Foot.railPolicy K)

theorem ovPersistence_closed {K : Part → Bool} {P : State → Prop} {s : State} {r : Nat} (hP : Closed K P) (hK :
    Foot.ovPersistence K = true) (hs_s : P s) :
    P (ovPersistence s r) := by
  simp only [Foot.ovPersistence, Bool.and_eq_true] at hK
  obtain ⟨hK0, hK1⟩ := hK
  unfold ovPersistence
  with_reducible repeat' first
    | assumption
    | refine railPolicy_closed hP ?_ ?_
    | refine hP.raise ?_ ?_
    | (extract_lets +onlyGivenNames x; apply thenHave (p := P x); (unfold x; clear x); rotate_left 1; (intro hx; clear_value x))
    | (extract_lets +onlyGivenNames x; clear_value x)
    | refine ite_closed ?_ ?_
    | split

theorem ovPersistence_get {s : State} {r : Nat} {fld0 : Fld} {i0 j0 : Nat} (hK : Foot.ovPersistence (notFld fld0) = true)  :
    (ovPersistence s r).get fld0 i0 j0 = s.get fld0 i0 j0 :=
  ovPersistence_closed (P := fun x => x.get fld0 i0 j0 = s.get fld0 i0 j0) (field_closed fld0 i0 j0 _) hK  rfl

def Foot.execOvPersistence (K : Part → Bool) : Bool := Foot.ovPersistence K

theorem execOvPersistence_closed {K : Part → Bool} {P : State → Prop} {r : Rail} {s : State} (hP : Closed K P) (hK :
    Foot.execOvPersistence K = true) (hs_s : P s) :
    OutAll P (execOvPersistence r s) := by
  simp only [Foot.execOvPersistence, Bool.and_eq_true] at hK
  unfold execOvPersistence
  with_reducible repeat' first
    | assumption
    | refine ovPersistence_closed hP ?_ ?_
    | refine OutAll.mk ?_

def Foot.phaseOcCount (K : Part → Bool) : Bool := K (.fld .WR_FLAG_OCRET) && (K (.fld .ocCnt) && (Foot.phasePolicy K))

theorem phaseOcCount_closed {K : Part → Bool} {P : State → Prop} {s : State} {p : Nat} (hP : Closed K P) (hK :
    Foot.phaseOcCount K = true) (hs_s : P s) :
    P (phaseOcCount s p) := by
  simp only [Foot.phaseOcCount, Bool.and_eq_true] at hK
  obtain ⟨hK0, hK1, hK2⟩ := hK
  unfold phaseOcCount
  with_reducible repeat' first
    | assumption
    | refine phasePolicy_closed hP ?_ ?_
    | refine hP.clear ?_ ?_
    | refine hP.raise ?_ ?_
    | (extract_lets +onlyGivenNames x; apply thenHave (p := P x); (unfold x; clear x); rotate_left 1; (intro hx; clear_value x))
    | (extract_lets +onlyGivenNames x; clear_value x)
    | refine ite_closed ?_ ?_
    | split

theorem phaseOcCount_get {s : State} {p : Nat} {fld0 : Fld} {i0 j0 : Nat} (hK : Foot.phaseOcCount (notFld fld0) = true)  :
    (phaseOcCount s p).get fld0 i0 j0 = s.get fld0 i0 j0 :=
  phaseOcCount_closed (P := fun x => x.get fld0 i0 j0 = s.get fld0 i0 j0) (field_closed fld0 i0 j0 _) hK  rfl

def Foot.execPhaseOcCount (K : Part → Bool) : Bool := Foot.phaseOcCount K

theorem execPhaseOcCount_closed {K : Part → Bool} {P : State → Prop} {p : Phase} {s : State} (hP : Closed K P) (hK :
    Foot.execPhaseOcCount K = true) (hs_s : P s) :
    OutAll P (execPhaseOcCount p s) := by
  simp only [Foot.execPhaseOcCount, Bool.and_eq_true] at hK
  unfold execPhaseOcCount
  with_reducible repeat' first
    | assumption
    | refine phaseOcCount_closed hP ?_ ?_
    | refine OutAll.mk ?_

def Foot.retryRestore (K : Part → Bool) : Bool := K (.fld .WP_RSTAT_RLEFT)

theorem retryRestore_closed {K : Part → Bool} {P : State → Prop} {s : State} {r : Nat} (hP : Closed K P) (hK :
    Foot.retryRestore K = true) (hs_s : P s) :
    P (retryRestore s r) := by
  simp only [Foot.retryRestore, Bool.and_eq_true] at hK
  unfold retryRestore
  with_reducible repeat' first
    | assumption
    | refine hP.put _ _ _ _ _ ?_ ?_
    | refine ite_closed ?_ ?_
    | split

theorem retryRestore_get {s : State} {r : Nat} {fld0 : Fld} {i0 j0 : Nat} (hK : Foot.retryRestore (notFld fld0) = true)  :
    (retryRestore s r).get fld0 i0 j0 = s.get fld0 i0 j0 :=
  retryRestore_closed (P := fun x => x.get fld0 i0 j0 = s.get fld0 i0 j0) (field_closed fld0 i0 j0 _) hK  rfl

def Foot.execRetryRestore (K : Part → Bool) : Bool := Foot.retryRestore K

theorem execRetryRestore_closed {K : Part → Bool} {P : State → Prop} {r : Rail} {s : State} (hP : Closed K P) (hK :
    Foot.execRetryRestore K = true) (hs_s : P s) :
    OutAll P (execRetryRestore r s) := by
  simp only [Foot.execRetryRestore, Bool.and_eq_true] at hK
  unfold execRetryRestore
  with_reducible repeat' first
    | assumption
    | refine retryRestore_closed hP ?_ ?_
    | refine OutAll.mk ?_

def Foot.rocPersistence (K : Part → Bool) : Bool := K (.fld .WP_RFLAG_ROC) && (Foot.railPolicy K)

theorem rocPersistence_closed {K : Part → Bool} {P : State → Prop} {s : State} {r : Nat} (hP : Closed K P) (hK :
    Foot.rocPersistence K = true) (hs_s : P s) :
    P (rocPersistence s r) := by
  simp only [Foot.rocPersistence, Bool.and_eq_true] at hK
  obtain ⟨hK0, hK1⟩ := hK
  unfold rocPersistence
  with_reducible repeat' first
    | assumption
    | refine railPolicy_closed hP ?_ ?_
    | refine hP.raise ?_ ?_
    | (extract_lets +onlyGivenNames x; apply thenHave (p := P x); (unfold x; clear x); rotate_left 1; (intro hx; clear_value x))
    | (extract_lets +onlyGivenNames x; clear_value x)
    | refine ite_closed ?_ ?_
    | split

theorem rocPersistence_get {s : State} {r : Nat} {fld0 : Fld} {i0 j0 : Nat} (hK : Foot.rocPersistence (notFld fld0) = true) 
    : (rocPersistence s r).get fld0 i0 j0 = s.get fld0 i0 j0 :=
  rocPersistence_closed (P := fun x => x.get fld0 i0 j0 = s.get fld0 i0 j0) (field_closed fld0 i0 j0 _) hK  rfl

def Foot.execRocPersistence (K : Part → Bool) : Bool := Foot.rocPersistence K

theorem execRocPersistence_closed {K : Part → Bool} {P : State → Prop} {r : Rail} {s : State} (hP : Closed K P) (hK :
    Foot.execRocPersistence K = true) (hs_s : P s) :
    OutAll P (execRocPersistence r s) := by
  simp only [Foot.execRocPersistence, Bool.and_eq_true] at hK
  unfold execRocPersistence
  with_reducible repeat' first
    | assumption
    | refine rocPersistence_closed hP ?_ ?_
    | refine OutAll.mk ?_

def Foot.halfCycle (K : Part → Bool) : Bool := K (.fld .hcX) && (K (.fld .hcAny) && (K (.fld .hcFall) && (K (.fld .PH_HCYC))))

theorem halfCycle_closed {K : Part → Bool} {P : State → Prop} {s : State} {c : Nat} {t : Int} (hP : Closed K P) (hK :
    Foot.halfCycle K = true) (hs_s : P s) :
    P (halfCycle s c t) := by
  simp only [Foot.halfCycle, Bool.and_eq_true] at hK
  obtain ⟨hK0, hK1, hK2, hK3⟩ := hK
  unfold halfCycle
  with_reducible repeat' first
    | assumption
    | refine hP.put _ _ _ _ _ ?_ ?_
    | refine hP.raise ?_ ?_
    | refine hP.bump ?_ ?_
    | refine Closed.each ?_ _ ?_
    | intro _
    | (extract_lets +onlyGivenNames x; apply thenHave (p := P x); (unfold x; clear x); rotate_left 1; (intro hx; clear_value x))
    | (extract_lets +onlyGivenNames x; clear_value x)
    | refine ite_closed ?_ ?_
    | split

theorem halfCycle_get {s : State} {c : Nat} {t : Int} {fld0 : Fld} {i0 j0 : Nat} (hK : Foot.halfCycle (notFld fld0) = true) 
    : (halfCycle s c t).get fld0 i0 j0 = s.get fld0 i0 j0 :=
  halfCycle_closed (P := fun x => x.get fld0 i0 j0 = s.get fld0 i0 j0) (field_closed fld0 i0 j0 _) hK  rfl

def Foot.tempPolicy (K : Part → Bool) : Bool := Foot.askIsolation K && (Foot.clusterFault K)

theorem tempPolicy_closed {K : Part → Bool} {P : State → Prop} {s : State} {c : Nat} (hP : Closed K P) (hK : Foot.tempPolicy
    K = true) (hs_s : P s) :
    P (tempPolicy s c) := by
  simp only [Foot.tempPolicy, Bool.and_eq_true] at hK
  obtain ⟨hK0, hK1⟩ := hK
  unfold tempPolicy
  with_reducible repeat' first
    | assumption
    | refine askIsolation_closed hP ?_ ?_
    | refine clusterFault_closed hP ?_ ?_
    | (extract_lets +onlyGivenNames x; apply thenHave (p := P x); (unfold x; clear x); rotate_left 1; (intro hx; clear_value x))
    | (extract_lets +onlyGivenNames x; clear_value x)
    | refine ite_closed ?_ ?_
    | split

theorem tempPolicy_get {s : State} {c : Nat} {fld0 : Fld} {i0 j0 : Nat} (hK : Foot.tempPolicy (notFld fld0) = true)  :
    (tempPolicy s c).get fld0 i0 j0 = s.get fld0 i0 j0 :=
  tempPolicy_closed (P := fun x => x.get fld0 i0 j0 = s.get fld0 i0 j0) (field_closed fld0 i0 j0 _) hK  rfl

def Foot.overTemp (K : Part → Bool) : Bool := K (.fld .WP_CFLAG_OTWARN) && (K (.fld .otCnt) && (K (.fld .WP_CFLAG_OTSHUT) &&
    (Foot.tempPolicy K)))

theorem overTemp_closed {K : Part → Bool} {P : State → Prop} {s : State} {c : Nat} {t : Int} (hP : Closed K P) (hK :
    Foot.overTemp K = true) (hs_s : P s) :
    P (overTemp s c t) := by
  simp only [Foot.overTemp, Bool.and_eq_true] at hK
  obtain ⟨hK0, hK1, hK2, hK3⟩ := hK
  unfold overTemp
  with_reducible repeat' first
    | assumption
    | refine tempPolicy_closed hP ?_ ?_
    | refine hP.put _ _ _ _ _ ?_ ?_
    | refine hP.clear ?_ ?_
    | refine hP.raise ?_ ?_
    | refine hP.bump ?_ ?_
    | refine hP.setBits ?_ ?_
    | refine hP.clrBits ?_ ?_
    | refine Closed.when ?_ ?_
    | intro _
    | (extract_lets +onlyGivenNames x; apply thenHave (p := P x); (unfold x; clear x); rotate_left 1; (intro hx; clear_value x))
    | (extract_lets +onlyGivenNames x; clear_value x)
    | (extract_lets +onlyGivenNames x)
    | refine ite_closed ?_ ?_
    | split

theorem overTemp_get {s : State} {c : Nat} {t : Int} {fld0 : Fld} {i0 j0 : Nat} (hK : Foot.overTemp (notFld fld0) = true)  :
    (overTemp s c t).get fld0 i0 j0 = s.get fld0 i0 j0 :=
  overTemp_closed (P := fun x => x.get fld0 i0 j0 = s.get fld0 i0 j0) (field_closed fld0 i0 j0 _) hK  rfl

def Foot.tempSample (K : Part → Bool) : Bool := K (.fld .tmLast) && (Foot.halfCycle K && (Foot.overTemp K && (Foot.tempResult
    K)))

theorem tempSample_closed {K : Part → Bool} {P : State → Prop} {s : State} {c : Nat} {raw : Int} (hP : Closed K P) (hK :
    Foot.tempSample K = true) (hs_s : P s) :
    P (tempSample s c raw) := by
  simp only [Foot.tempSample, Bool.and_eq_true] at hK
  obtain ⟨hK0, hK1, hK2, hK3⟩ := hK
  unfold tempSample
  with_reducible repeat' first
    | assumption
    | refine halfCycle_closed hP ?_ ?_
    | refine overTemp_closed hP ?_ ?_
    | refine tempResult_closed hP ?_ ?_
    | refine hP.put _ _ _ _ _ ?_ ?_
    | (extract_lets +onlyGivenNames x; apply thenHave (p := P x); (unfold x; clear x); rotate_left 1; (intro hx; clear_value x))
    | (extract_lets +onlyGivenNames x; clear_value x)
    | refine ite_closed ?_ ?_
    | split

theorem tempSample_get {s : State} {c : Nat} {raw : Int} {fld0 : Fld} {i0 j0 : Nat} (hK : Foot.tempSample (notFld fld0) =
    true)  : (tempSample s c raw).get fld0 i0 j0 = s.get fld0 i0 j0 :=
  tempSample_closed (P := fun x => x.get fld0 i0 j0 = s.get fld0 i0 j0) (field_closed fld0 i0 j0 _) hK  rfl

def Foot.execTempSample (K : Part → Bool) : Bool := Foot.tempSample K

theorem execTempSample_closed {K : Part → Bool} {P : State → Prop} {c : Cluster} {raw : BitVec 12} {s : State} (hP : Closed K
    P) (hK : Foot.execTempSample K = true) (hs_s : P s) :
    OutAll P (execTempSample c raw s) := by
  simp only [Foot.execTempSample, Bool.and_eq_true] at hK
  unfold execTempSample
  with_reducible repeat' first
    | assumption
    | refine tempSample_closed hP ?_ ?_
    | refine OutAll.mk ?_

def Foot.probeAssert (K : Part → Bool) : Bool := K (.fld .tfMid) && (K (.fld .probeFound) && (K (.fld .PH_CSTAT_PSTATE) &&
    (Foot.refreshPhase K && (Foot.requestRetire K && (Foot.flagPub K && (K (.fld .PH_CFLAG_FOUND)))))))

theorem probeAssert_closed {K : Part → Bool} {P : State → Prop} {s : State} {c : Nat} (hP : Closed K P) (hK :
    Foot.probeAssert K = true) (hs_s : P s) :
    P (probeAssert s c) := by
  simp only [Foot.probeAssert, Bool.and_eq_true] at hK
  obtain ⟨hK0, hK1, hK2, hK3, hK4, hK5, hK6⟩ := hK
  unfold probeAssert
  with_reducible repeat' first
    | assumption
    | refine refreshPhase_closed hP ?_ ?_
    | refine requestRetire_closed hP ?_ ?_
    | refine flagPub_closed hP ?_ ?_ ?_
    | refine hP.put _ _ _ _ _ ?_ ?_
    | refine hP.raise ?_ ?_
    | (extract_lets +onlyGivenNames x; apply thenHave (p := P x); (unfold x; clear x); rotate_left 1; (intro hx; clear_value x))
    | (extract_lets +onlyGivenNames x; clear_value x)

theorem probeAssert_get {s : State} {c : Nat} {fld0 : Fld} {i0 j0 : Nat} (hK : Foot.probeAssert (notFld fld0) = true)  :
    (probeAssert s c).get fld0 i0 j0 = s.get fld0 i0 j0 :=
  probeAssert_closed (P := fun x => x.get fld0 i0 j0 = s.get fld0 i0 j0) (field_closed fld0 i0 j0 _) hK  rfl

def Foot.tfltActivate (K : Part → Bool) : Bool := K (.fld .tfAct) && (K (.fld .WP_CFLAG_TFLT) && (K (.fld .WP_CSTAT_TFACT) &&
    (K (.fld .tfStkDone) && (K (.fld .tfIn) && (K (.fld .tfChg) && (K (.fld .tfMid) && (Foot.probeAssert K &&
    (Foot.refreshPhase K && (Foot.stagePolicy K)))))))))

theorem tfltActivate_closed {K : Part → Bool} {P : State → Prop} {s : State} {c : Nat} (hP : Closed K P) (hK :
    Foot.tfltActivate K = true) (hs_s : P s) :
    P (tfltActivate s c) := by
  simp only [Foot.tfltActivate, Bool.and_eq_true] at hK
  obtain ⟨hK0, hK1, hK2, hK3, hK4, hK5, hK6, hK7, hK8, hK9⟩ := hK
  unfold tfltActivate
  with_reducible repeat' first
    | assumption
    | refine probeAssert_closed hP ?_ ?_
    | refine refreshPhase_closed hP ?_ ?_
    | refine stagePolicy_closed hP ?_ ?_
    | refine hP.put _ _ _ _ _ ?_ ?_
    | refine hP.clear ?_ ?_
    | refine hP.raise ?_ ?_
    | refine Closed.each ?_ _ ?_
    | intro _
    | (extract_lets +onlyGivenNames x; apply thenHave (p := P x); (unfold x; clear x); rotate_left 1; (intro hx; clear_value x))
    | (extract_lets +onlyGivenNames x; clear_value x)
    | refine ite_closed ?_ ?_
    | split

theorem tfltActivate_get {s : State} {c : Nat} {fld0 : Fld} {i0 j0 : Nat} (hK : Foot.tfltActivate (notFld fld0) = true)  :
    (tfltActivate s c).get fld0 i0 j0 = s.get fld0 i0 j0 :=
  tfltActivate_closed (P := fun x => x.get fld0 i0 j0 = s.get fld0 i0 j0) (field_closed fld0 i0 j0 _) hK  rfl

def Foot.tfltActive (K : Part → Bool) : Bool := Foot.tfltActivate K

theorem tfltActive_closed {K : Part → Bool} {P : State → Prop} {s : State} {c : Nat} (hP : Closed K P) (hK : Foot.tfltActive
    K = true) (hs_s : P s) :
    P (tfltActive s c) := by
  simp only [Foot.tfltActive, Bool.and_eq_true] at hK
  unfold tfltActive
  with_reducible repeat' first
    | assumption
    | refine tfltActivate_closed hP ?_ ?_
    | refine ite_closed ?_ ?_
    | split

theorem tfltActive_get {s : State} {c : Nat} {fld0 : Fld} {i0 j0 : Nat} (hK : Foot.tfltActive (notFld fld0) = true)  :
    (tfltActive s c).get fld0 i0 j0 = s.get fld0 i0 j0 :=
  tfltActive_closed (P := fun x => x.get fld0 i0 j0 = s.get fld0 i0 j0) (field_closed fld0 i0 j0 _) hK  rfl

def Foot.execTfltActive (K : Part → Bool) : Bool := Foot.tfltActive K

theorem execTfltActive_closed {K : Part → Bool} {P : State → Prop} {c : Cluster} {s : State} (hP : Closed K P) (hK :
    Foot.execTfltActive K = true) (hs_s : P s) :
    OutAll P (execTfltActive c s) := by
  simp only [Foot.execTfltActive, Bool.and_eq_true] at hK
  unfold execTfltActive
  with_reducible repeat' first
    | assumption
    | refine tfltActive_closed hP ?_ ?_
    | refine OutAll.mk ?_

def Foot.tfltChatter (K : Part → Bool) : Bool := K (.fld .WP_CFLAG_TFCHAT) && (Foot.tfltActivate K)

theorem tfltChatter_closed {K : Part → Bool} {P : State → Prop} {s : State} {c : Nat} (hP : Closed K P) (hK :
    Foot.tfltChatter K = true) (hs_s : P s) :
    P (tfltChatter s c) := by
  simp only [Foot.tfltChatter, Bool.and_eq_true] at hK
  obtain ⟨hK0, hK1⟩ := hK
  unfold tfltChatter
  with_reducible repeat' first
    | assumption
    | refine tfltActivate_closed hP ?_ ?_
    | refine hP.raise ?_ ?_
    | refine ite_closed ?_ ?_
    | split

theorem tfltChatter_get {s : State} {c : Nat} {fld0 : Fld} {i0 j0 : Nat} (hK : Foot.tfltChatter (notFld fld0) = true)  :
    (tfltChatter s c).get fld0 i0 j0 = s.get fld0 i0 j0 :=
  tfltChatter_closed (P := fun x => x.get fld0 i0 j0 = s.get fld0 i0 j0) (field_closed fld0 i0 j0 _) hK  rfl

def Foot.execTfltChatter (K : Part → Bool) : Bool := Foot.tfltChatter K

theorem execTfltChatter_closed {K : Part → Bool} {P : State → Prop} {c : Cluster} {s : State} (hP : Closed K P) (hK :
    Foot.execTfltChatter K = true) (hs_s : P s) :
    OutAll P (execTfltChatter c s) := by
  simp only [Foot.execTfltChatter, Bool.and_eq_true] at hK
  unfold execTfltChatter
  with_reducible repeat' first
    | assumption
    | refine tfltChatter_closed hP ?_ ?_
    | refine OutAll.mk ?_

def Foot.tfltInactive (K : Part → Bool) : Bool := K (.fld .tfStkDone) && (K (.fld .tfAct) && (K (.fld .tfChg) && (K (.fld
    .WP_CSTAT_TFACT) && (K (.fld .tfIn) && (K (.fld .tfMid) && (Foot.refreshPhase K))))))

theorem tfltInactive_closed {K : Part → Bool} {P : State → Prop} {s : State} {c : Nat} (hP : Closed K P) (hK :
    Foot.tfltInactive K = true) (hs_s : P s) :
    P (tfltInactive s c) := by
  simp only [Foot.tfltInactive, Bool.and_eq_true] at hK
  obtain ⟨hK0, hK1, hK2, hK3, hK4, hK5, hK6⟩ := hK
  unfold tfltInactive
  with_reducible repeat' first
    | assumption
    | refine refreshPhase_closed hP ?_ ?_
    | refine hP.put _ _ _ _ _ ?_ ?_
    | refine hP.clear ?_ ?_
    | refine Closed.each ?_ _ ?_
    | intro _
    | (extract_lets +onlyGivenNames x; apply thenHave (p := P x); (unfold x; clear x); rotate_left 1; (intro hx; clear_value x))
    | (extract_lets +onlyGivenNames x; clear_value x)
    | refine ite_closed ?_ ?_
    | split

theorem tfltInactive_get {s : State} {c : Nat} {fld0 : Fld} {i0 j0 : Nat} (hK : Foot.tfltInactive (notFld fld0) = true)  :
    (tfltInactive s c).get fld0 i0 j0 = s.get fld0 i0 j0 :=
  tfltInactive_closed (P := fun x => x.get fld0 i0 j0 = s.get fld0 i0 j0) (field_closed fld0 i0 j0 _) hK  rfl

def Foot.execTfltInactive (K : Part → Bool) : Bool := Foot.tfltInactive K

theorem execTfltInactive_closed {K : Part → Bool} {P : State → Prop} {c : Cluster} {s : State} (hP : Closed K P) (hK :
    Foot.execTfltInactive K = true) (hs_s : P s) :
    OutAll P (execTfltInactive c s) := by
  simp only [Foot.execTfltInactive, Bool.and_eq_true] at hK
  unfold execTfltInactive
  with_reducible repeat' first
    | assumption
    | refine tfltInactive_closed hP ?_ ?_
    | refine OutAll.mk ?_

def Foot.tfltStuck (K : Part → Bool) : Bool := K (.fld .tfStuckOn) && (K (.fld .WP_CFLAG_TFSTUCK) && (K (.fld .tfStkDone) &&
    (Foot.askFault K && (Foot.requestRetire K))))

theorem tfltStuck_closed {K : Part → Bool} {P : State → Prop} {s : State} {c : Nat} (hP : Closed K P) (hK : Foot.tfltStuck K
    = true) (hs_s : P s) :
    P (tfltStuck s c) := by
  simp only [Foot.tfltStuck, Bool.and_eq_true] at hK
  obtain ⟨hK0, hK1, hK2, hK3, hK4⟩ := hK
  unfold tfltStuck
  with_reducible repeat' first
    | assumption
    | refine askFault_closed hP ?_ ?_
    | refine requestRetire_closed hP ?_ ?_
    | refine hP.raise ?_ ?_
    | refine Closed.each ?_ _ ?_
    | intro _
    | (extract_lets +onlyGivenNames x; apply thenHave (p := P x); (unfold x; clear x); rotate_left 1; (intro hx; clear_value x))
    | (extract_lets +onlyGivenNames x; clear_value x)
    | refine ite_closed ?_ ?_
    | split

theorem tfltStuck_get {s : State} {c : Nat} {fld0 : Fld} {i0 j0 : Nat} (hK : Foot.tfltStuck (notFld fld0) = true)  :
    (tfltStuck s c).get fld0 i0 j0 = s.get fld0 i0 j0 :=
  tfltStuck_closed (P := fun x => x.get fld0 i0 j0 = s.get fld0 i0 j0) (field_closed fld0 i0 j0 _) hK  rfl

def Foot.execTfltStuck (K : Part → Bool) : Bool := Foot.tfltStuck K

theorem execTfltStuck_closed {K : Part → Bool} {P : State → Prop} {c : Cluster} {s : State} (hP : Closed K P) (hK :
    Foot.execTfltStuck K = true) (hs_s : P s) :
    OutAll P (execTfltStuck c s) := by
  simp only [Foot.execTfltStuck, Bool.and_eq_true] at hK
  unfold execTfltStuck
  with_reducible repeat' first
    | assumption
    | refine tfltStuck_closed hP ?_ ?_
    | refine OutAll.mk ?_

def Foot.uvPersistence (K : Part → Bool) : Bool := K (.fld .WP_RFLAG_UV) && (Foot.railPolicy K)

theorem uvPersistence_closed {K : Part → Bool} {P : State → Prop} {s : State} {r : Nat} (hP : Closed K P) (hK :
    Foot.uvPersistence K = true) (hs_s : P s) :
    P (uvPersistence s r) := by
  simp only [Foot.uvPersistence, Bool.and_eq_true] at hK
  obtain ⟨hK0, hK1⟩ := hK
  unfold uvPersistence
  with_reducible repeat' first
    | assumption
    | refine railPolicy_closed hP ?_ ?_
    | refine hP.raise ?_ ?_
    | (extract_lets +onlyGivenNames x; apply thenHave (p := P x); (unfold x; clear x); rotate_left 1; (intro hx; clear_value x))
    | (extract_lets +onlyGivenNames x; clear_value x)
    | refine ite_closed ?_ ?_
    | split

theorem uvPersistence_get {s : State} {r : Nat} {fld0 : Fld} {i0 j0 : Nat} (hK : Foot.uvPersistence (notFld fld0) = true)  :
    (uvPersistence s r).get fld0 i0 j0 = s.get fld0 i0 j0 :=
  uvPersistence_closed (P := fun x => x.get fld0 i0 j0 = s.get fld0 i0 j0) (field_closed fld0 i0 j0 _) hK  rfl

def Foot.execUvPersistence (K : Part → Bool) : Bool := Foot.uvPersistence K

theorem execUvPersistence_closed {K : Part → Bool} {P : State → Prop} {r : Rail} {s : State} (hP : Closed K P) (hK :
    Foot.execUvPersistence K = true) (hs_s : P s) :
    OutAll P (execUvPersistence r s) := by
  simp only [Foot.execUvPersistence, Bool.and_eq_true] at hK
  unfold execUvPersistence
  with_reducible repeat' first
    | assumption
    | refine uvPersistence_closed hP ?_ ?_
    | refine OutAll.mk ?_

end Sys2Proof.Machine
end

