-- ==== Sys2Proof/Laws/ClosedHealth.lean ====
section
/-! SUPPORT. What the functions of Machine/Health.lean can write, and that they keep every closed property (Laws/Closed.lean). -/
namespace Sys2Proof.Machine

set_option Elab.async false
set_option linter.all false

def Foot.snapStart (K : Part → Bool) : Bool := K (.fld .snapReq) && (K (.fld .PH_STATUS_SUMBUSY))

theorem snapStart_closed {K : Part → Bool} {P : State → Prop} {s : State} (hP : Closed K P) (hK : Foot.snapStart K = true)
    (hs_s : P s) :
    P (snapStart s) := by
  simp only [Foot.snapStart, Bool.and_eq_true] at hK
  obtain ⟨hK0, hK1⟩ := hK
  unfold snapStart
  with_reducible repeat' first
    | assumption
    | refine hP.raise ?_ ?_

theorem snapStart_get {s : State} {fld0 : Fld} {i0 j0 : Nat} (hK : Foot.snapStart (notFld fld0) = true)  : (snapStart s).get
    fld0 i0 j0 = s.get fld0 i0 j0 :=
  snapStart_closed (P := fun x => x.get fld0 i0 j0 = s.get fld0 i0 j0) (field_closed fld0 i0 j0 _) hK  rfl

def Foot.retirePhase (K : Part → Bool) : Bool := K (.fld .PH_STATUS_CFGERR) && (Foot.requestRetire K)

theorem retirePhase_closed {K : Part → Bool} {P : State → Prop} {s : State} {p : Nat} {rcin : Nat} (hP : Closed K P) (hK :
    Foot.retirePhase K = true) (hs_s : P s) :
    P (retirePhase s p rcin) := by
  simp only [Foot.retirePhase, Bool.and_eq_true] at hK
  obtain ⟨hK0, hK1⟩ := hK
  unfold retirePhase
  with_reducible repeat' first
    | assumption
    | refine requestRetire_closed hP ?_ ?_
    | refine hP.raise ?_ ?_
    | refine ite_closed ?_ ?_
    | split

theorem retirePhase_get {s : State} {p : Nat} {rcin : Nat} {fld0 : Fld} {i0 j0 : Nat} (hK : Foot.retirePhase (notFld fld0) =
    true)  : (retirePhase s p rcin).get fld0 i0 j0 = s.get fld0 i0 j0 :=
  retirePhase_closed (P := fun x => x.get fld0 i0 j0 = s.get fld0 i0 j0) (field_closed fld0 i0 j0 _) hK  rfl

def Foot.unretPhase (K : Part → Bool) : Bool := K (.fld .unretReq) && (K (.fld .PH_STATUS_CFGERR))

theorem unretPhase_closed {K : Part → Bool} {P : State → Prop} {s : State} {p : Nat} (hP : Closed K P) (hK : Foot.unretPhase
    K = true) (hs_s : P s) :
    P (unretPhase s p) := by
  simp only [Foot.unretPhase, Bool.and_eq_true] at hK
  obtain ⟨hK0, hK1⟩ := hK
  unfold unretPhase
  with_reducible repeat' first
    | assumption
    | refine hP.raise ?_ ?_
    | refine ite_closed ?_ ?_
    | split

theorem unretPhase_get {s : State} {p : Nat} {fld0 : Fld} {i0 j0 : Nat} (hK : Foot.unretPhase (notFld fld0) = true)  :
    (unretPhase s p).get fld0 i0 j0 = s.get fld0 i0 j0 :=
  unretPhase_closed (P := fun x => x.get fld0 i0 j0 = s.get fld0 i0 j0) (field_closed fld0 i0 j0 _) hK  rfl

def Foot.rankRail (K : Part → Bool) : Bool := K (.fld .PH_RANK) && (K (.fld .PH_RSTAT_NRET) && (K (.fld .PH_RSTAT_NSPAV)))

theorem rankRail_closed {K : Part → Bool} {P : State → Prop} {s : State} {r : Nat} (hP : Closed K P) (hK : Foot.rankRail K =
    true) (hs_s : P s) :
    P (rankRail s r) := by
  simp only [Foot.rankRail, Bool.and_eq_true] at hK
  obtain ⟨hK0, hK1, hK2⟩ := hK
  unfold rankRail
  with_reducible repeat' first
    | assumption
    | refine hP.put _ _ _ _ _ ?_ ?_
    | refine Closed.each ?_ _ ?_
    | intro _
    | (extract_lets +onlyGivenNames x; apply thenHave (p := P x); (unfold x; clear x); rotate_left 1; (intro hx; clear_value x))
    | (extract_lets +onlyGivenNames x; clear_value x)

theorem rankRail_get {s : State} {r : Nat} {fld0 : Fld} {i0 j0 : Nat} (hK : Foot.rankRail (notFld fld0) = true)  : (rankRail
    s r).get fld0 i0 j0 = s.get fld0 i0 j0 :=
  rankRail_closed (P := fun x => x.get fld0 i0 j0 = s.get fld0 i0 j0) (field_closed fld0 i0 j0 _) hK  rfl

def Foot.rankAll (K : Part → Bool) : Bool := K (.fld .PH_RANK) && (Foot.rankRail K)

theorem rankAll_closed {K : Part → Bool} {P : State → Prop} {s : State} (hP : Closed K P) (hK : Foot.rankAll K = true) (hs_s
    : P s) :
    P (rankAll s) := by
  simp only [Foot.rankAll, Bool.and_eq_true] at hK
  obtain ⟨hK0, hK1⟩ := hK
  unfold rankAll
  with_reducible repeat' first
    | assumption
    | refine rankRail_closed hP ?_ ?_
    | refine hP.put _ _ _ _ _ ?_ ?_
    | refine Closed.each ?_ _ ?_
    | intro _
    | (extract_lets +onlyGivenNames x; apply thenHave (p := P x); (unfold x; clear x); rotate_left 1; (intro hx; clear_value x))
    | (extract_lets +onlyGivenNames x; clear_value x)

theorem rankAll_get {s : State} {fld0 : Fld} {i0 j0 : Nat} (hK : Foot.rankAll (notFld fld0) = true)  : (rankAll s).get fld0
    i0 j0 = s.get fld0 i0 j0 :=
  rankAll_closed (P := fun x => x.get fld0 i0 j0 = s.get fld0 i0 j0) (field_closed fld0 i0 j0 _) hK  rfl

def Foot.addCharge (K : Part → Bool) : Bool := K (.fld .chgLow) && (K (.fld .PH_CHG))

theorem addCharge_closed {K : Part → Bool} {P : State → Prop} {s : State} {p : Nat} (hP : Closed K P) (hK : Foot.addCharge K
    = true) (hs_s : P s) :
    P (addCharge s p) := by
  simp only [Foot.addCharge, Bool.and_eq_true] at hK
  obtain ⟨hK0, hK1⟩ := hK
  unfold addCharge
  with_reducible repeat' first
    | assumption
    | refine hP.put _ _ _ _ _ ?_ ?_
    | (extract_lets +onlyGivenNames x; apply thenHave (p := P x); (unfold x; clear x); rotate_left 1; (intro hx; clear_value x))
    | (extract_lets +onlyGivenNames x; clear_value x)

theorem addCharge_get {s : State} {p : Nat} {fld0 : Fld} {i0 j0 : Nat} (hK : Foot.addCharge (notFld fld0) = true)  :
    (addCharge s p).get fld0 i0 j0 = s.get fld0 i0 j0 :=
  addCharge_closed (P := fun x => x.get fld0 i0 j0 = s.get fld0 i0 j0) (field_closed fld0 i0 j0 _) hK  rfl

def Foot.countStarts (K : Part → Bool) : Bool := K (.fld .PH_STARTS)

theorem countStarts_closed {K : Part → Bool} {P : State → Prop} {s : State} {r : Nat} (hP : Closed K P) (hK :
    Foot.countStarts K = true) (hs_s : P s) :
    P (countStarts s r) := by
  simp only [Foot.countStarts, Bool.and_eq_true] at hK
  unfold countStarts
  with_reducible repeat' first
    | assumption
    | refine hP.bump ?_ ?_
    | refine Closed.each ?_ _ ?_
    | intro _

theorem countStarts_get {s : State} {r : Nat} {fld0 : Fld} {i0 j0 : Nat} (hK : Foot.countStarts (notFld fld0) = true)  :
    (countStarts s r).get fld0 i0 j0 = s.get fld0 i0 j0 :=
  countStarts_closed (P := fun x => x.get fld0 i0 j0 = s.get fld0 i0 j0) (field_closed fld0 i0 j0 _) hK  rfl

def Foot.stressAccumulate (K : Part → Bool) : Bool := Foot.addCharge K

theorem stressAccumulate_closed {K : Part → Bool} {P : State → Prop} {s : State} {r : Nat} (hP : Closed K P) (hK :
    Foot.stressAccumulate K = true) (hs_s : P s) :
    P (stressAccumulate s r) := by
  simp only [Foot.stressAccumulate, Bool.and_eq_true] at hK
  unfold stressAccumulate
  with_reducible repeat' first
    | assumption
    | refine addCharge_closed hP ?_ ?_
    | refine Closed.each ?_ _ ?_
    | intro _
    | refine ite_closed ?_ ?_
    | split

theorem stressAccumulate_get {s : State} {r : Nat} {fld0 : Fld} {i0 j0 : Nat} (hK : Foot.stressAccumulate (notFld fld0) =
    true)  : (stressAccumulate s r).get fld0 i0 j0 = s.get fld0 i0 j0 :=
  stressAccumulate_closed (P := fun x => x.get fld0 i0 j0 = s.get fld0 i0 j0) (field_closed fld0 i0 j0 _) hK  rfl

def Foot.healthFlag (K : Part → Bool) : Bool := Foot.flagPub K

theorem healthFlag_closed {K : Part → Bool} {P : State → Prop} {s : State} {f : Fld} {r : Nat} (hP : Closed K P) (hK :
    Foot.healthFlag K = true) (hK_f : K (.fld f) = true) (hs_s : P s) :
    P (healthFlag s f r) := by
  simp only [Foot.healthFlag, Bool.and_eq_true] at hK
  unfold healthFlag
  with_reducible repeat' first
    | assumption
    | refine flagPub_closed hP ?_ ?_ ?_

theorem healthFlag_get {s : State} {f : Fld} {r : Nat} {fld0 : Fld} {i0 j0 : Nat} (hK : Foot.healthFlag (notFld fld0) = true)
    (hg_f : (decide (f = fld0)) = false) : (healthFlag s f r).get fld0 i0 j0 = s.get fld0 i0 j0 :=
  healthFlag_closed (P := fun x => x.get fld0 i0 j0 = s.get fld0 i0 j0) (field_closed fld0 i0 j0 _) hK (notFld_true hg_f) rfl

def Foot.shedEvaluate (K : Part → Bool) : Bool := K (.fld .shCnt) && (K (.fld .addReq) && (Foot.healthFlag K && (K (.fld
    .PH_RFLAG_SHADD))))

theorem shedEvaluate_closed {K : Part → Bool} {P : State → Prop} {s : State} {r : Nat} (hP : Closed K P) (hK :
    Foot.shedEvaluate K = true) (hs_s : P s) :
    P (shedEvaluate s r) := by
  simp only [Foot.shedEvaluate, Bool.and_eq_true] at hK
  obtain ⟨hK0, hK1, hK2, hK3⟩ := hK
  unfold shedEvaluate
  with_reducible repeat' first
    | assumption
    | refine healthFlag_closed hP ?_ ?_ ?_
    | refine hP.clear ?_ ?_
    | refine hP.bump ?_ ?_
    | refine hP.setBits ?_ ?_
    | refine Closed.each ?_ _ ?_
    | intro _
    | (extract_lets +onlyGivenNames x; apply thenHave (p := P x); (unfold x; clear x); rotate_left 1; (intro hx; clear_value x))
    | (extract_lets +onlyGivenNames x; clear_value x)
    | refine ite_closed ?_ ?_
    | split

theorem shedEvaluate_get {s : State} {r : Nat} {fld0 : Fld} {i0 j0 : Nat} (hK : Foot.shedEvaluate (notFld fld0) = true)  :
    (shedEvaluate s r).get fld0 i0 j0 = s.get fld0 i0 j0 :=
  shedEvaluate_closed (P := fun x => x.get fld0 i0 j0 = s.get fld0 i0 j0) (field_closed fld0 i0 j0 _) hK  rfl

def Foot.unretireRail (K : Part → Bool) : Bool := K (.fld .PH_PSTAT_RCAUSE) && (K (.fld .PH_PSTAT_RET) && (K (.fld .unretReq)
    && (Foot.rankRail K)))

theorem unretireRail_closed {K : Part → Bool} {P : State → Prop} {s : State} {r : Nat} (hP : Closed K P) (hK :
    Foot.unretireRail K = true) (hs_s : P s) :
    P (unretireRail s r) := by
  simp only [Foot.unretireRail, Bool.and_eq_true] at hK
  obtain ⟨hK0, hK1, hK2, hK3⟩ := hK
  unfold unretireRail
  with_reducible repeat' first
    | assumption
    | refine rankRail_closed hP ?_ ?_
    | refine hP.clear ?_ ?_
    | refine Closed.each ?_ _ ?_
    | intro _
    | (extract_lets +onlyGivenNames x; apply thenHave (p := P x); (unfold x; clear x); rotate_left 1; (intro hx; clear_value x))
    | (extract_lets +onlyGivenNames x; clear_value x)
    | refine ite_closed ?_ ?_
    | split

theorem unretireRail_get {s : State} {r : Nat} {fld0 : Fld} {i0 j0 : Nat} (hK : Foot.unretireRail (notFld fld0) = true)  :
    (unretireRail s r).get fld0 i0 j0 = s.get fld0 i0 j0 :=
  unretireRail_closed (P := fun x => x.get fld0 i0 j0 = s.get fld0 i0 j0) (field_closed fld0 i0 j0 _) hK  rfl

def Foot.markRetired (K : Part → Bool) : Bool := K (.fld .PH_PSTAT_RCAUSE) && (K (.fld .retAt) && (K (.fld .PH_PSTAT_RET) &&
    (K (.fld .PH_PSTAT_SUBFOR) && (K (.fld .PH_PSTAT_SUBV)))))

theorem markRetired_closed {K : Part → Bool} {P : State → Prop} {s : State} {p : Nat} (hP : Closed K P) (hK :
    Foot.markRetired K = true) (hs_s : P s) :
    P (markRetired s p) := by
  simp only [Foot.markRetired, Bool.and_eq_true] at hK
  obtain ⟨hK0, hK1, hK2, hK3, hK4⟩ := hK
  unfold markRetired
  with_reducible repeat' first
    | assumption
    | refine hP.put _ _ _ _ _ ?_ ?_
    | refine hP.clear ?_ ?_
    | refine hP.raise ?_ ?_
    | (extract_lets +onlyGivenNames x; apply thenHave (p := P x); (unfold x; clear x); rotate_left 1; (intro hx; clear_value x))
    | (extract_lets +onlyGivenNames x; clear_value x)

theorem markRetired_get {s : State} {p : Nat} {fld0 : Fld} {i0 j0 : Nat} (hK : Foot.markRetired (notFld fld0) = true)  :
    (markRetired s p).get fld0 i0 j0 = s.get fld0 i0 j0 :=
  markRetired_closed (P := fun x => x.get fld0 i0 j0 = s.get fld0 i0 j0) (field_closed fld0 i0 j0 _) hK  rfl

def Foot.markSubstitute (K : Part → Bool) : Bool := K (.fld .PH_PSTAT_SUBFOR) && (K (.fld .PH_PSTAT_SUBV) && (Foot.healthFlag
    K && (K (.fld .PH_RFLAG_SUBST))))

theorem markSubstitute_closed {K : Part → Bool} {P : State → Prop} {s : State} {r : Nat} {j : Nat} {p : Nat} (hP : Closed K
    P) (hK : Foot.markSubstitute K = true) (hs_s : P s) :
    P (markSubstitute s r j p) := by
  simp only [Foot.markSubstitute, Bool.and_eq_true] at hK
  obtain ⟨hK0, hK1, hK2, hK3⟩ := hK
  unfold markSubstitute
  with_reducible repeat' first
    | assumption
    | refine healthFlag_closed hP ?_ ?_ ?_
    | refine hP.put _ _ _ _ _ ?_ ?_
    | refine hP.raise ?_ ?_
    | (extract_lets +onlyGivenNames x; apply thenHave (p := P x); (unfold x; clear x); rotate_left 1; (intro hx; clear_value x))
    | (extract_lets +onlyGivenNames x; clear_value x)

theorem markSubstitute_get {s : State} {r : Nat} {j : Nat} {p : Nat} {fld0 : Fld} {i0 j0 : Nat} (hK : Foot.markSubstitute
    (notFld fld0) = true)  : (markSubstitute s r j p).get fld0 i0 j0 = s.get fld0 i0 j0 :=
  markSubstitute_closed (P := fun x => x.get fld0 i0 j0 = s.get fld0 i0 j0) (field_closed fld0 i0 j0 _) hK  rfl

def Foot.substitute (K : Part → Bool) : Bool := Foot.markSubstitute K && (Foot.enterActive K && (Foot.healthFlag K && (K
    (.fld .PH_RFLAG_NOSPARE))))

theorem substitute_closed {K : Part → Bool} {P : State → Prop} {s : State} {r : Nat} {p : Nat} (hP : Closed K P) (hK :
    Foot.substitute K = true) (hs_s : P s) :
    P (substitute s r p).1 := by
  simp only [Foot.substitute, Bool.and_eq_true] at hK
  obtain ⟨hK0, hK1, hK2, hK3⟩ := hK
  unfold substitute
  with_reducible repeat' first
    | assumption
    | refine markSubstitute_closed hP ?_ ?_
    | refine enterActive_closed hP ?_ ?_
    | refine healthFlag_closed hP ?_ ?_ ?_
    | intro _
    | split

def Foot.replaceRetired (K : Part → Bool) : Bool := Foot.substitute K && (Foot.leaveActive K && (Foot.healthFlag K && (K
    (.fld .PH_RFLAG_BELOWMIN))))

theorem replaceRetired_closed {K : Part → Bool} {P : State → Prop} {s : State} {r : Nat} {j : Nat} (hP : Closed K P) (hK :
    Foot.replaceRetired K = true) (hs_s : P s) :
    P (replaceRetired s r j) := by
  simp only [Foot.replaceRetired, Bool.and_eq_true] at hK
  obtain ⟨hK0, hK1, hK2, hK3⟩ := hK
  unfold replaceRetired
  with_reducible repeat' first
    | assumption
    | refine substitute_closed hP ?_ ?_
    | refine leaveActive_closed hP ?_ ?_
    | refine healthFlag_closed hP ?_ ?_ ?_
    | (extract_lets +onlyGivenNames x; apply thenHave (p := P x); (unfold x; clear x); rotate_left 1; (intro hx; clear_value x))
    | (extract_lets +onlyGivenNames x; clear_value x)
    | refine ite_closed ?_ ?_
    | split

theorem replaceRetired_get {s : State} {r : Nat} {j : Nat} {fld0 : Fld} {i0 j0 : Nat} (hK : Foot.replaceRetired (notFld fld0)
    = true)  : (replaceRetired s r j).get fld0 i0 j0 = s.get fld0 i0 j0 :=
  replaceRetired_closed (P := fun x => x.get fld0 i0 j0 = s.get fld0 i0 j0) (field_closed fld0 i0 j0 _) hK  rfl

def Foot.retireRail (K : Part → Bool) : Bool := Foot.markRetired K && (Foot.replaceRetired K && (Foot.activeChanged K &&
    (Foot.rankRail K && (Foot.refreshRail K && (Foot.askFault K && (Foot.healthFlag K && (K (.fld .PH_RFLAG_EMPTY))))))))

theorem retireRail_closed {K : Part → Bool} {P : State → Prop} {s : State} {r : Nat} (hP : Closed K P) (hK : Foot.retireRail
    K = true) (hs_s : P s) :
    P (retireRail s r) := by
  simp only [Foot.retireRail, Bool.and_eq_true] at hK
  obtain ⟨hK0, hK1, hK2, hK3, hK4, hK5, hK6, hK7⟩ := hK
  unfold retireRail
  with_reducible repeat' first
    | assumption
    | refine markRetired_closed hP ?_ ?_
    | refine replaceRetired_closed hP ?_ ?_
    | refine activeChanged_closed hP ?_ ?_
    | refine rankRail_closed hP ?_ ?_
    | refine refreshRail_closed hP ?_ ?_
    | refine askFault_closed hP ?_ ?_
    | refine healthFlag_closed hP ?_ ?_ ?_
    | refine Closed.each ?_ _ ?_
    | intro _
    | (extract_lets +onlyGivenNames x; apply thenHave (p := P x); (unfold x; clear x); rotate_left 1; (intro hx; clear_value x))
    | (extract_lets +onlyGivenNames x; clear_value x)
    | refine ite_closed ?_ ?_
    | split

theorem retireRail_get {s : State} {r : Nat} {fld0 : Fld} {i0 j0 : Nat} (hK : Foot.retireRail (notFld fld0) = true)  :
    (retireRail s r).get fld0 i0 j0 = s.get fld0 i0 j0 :=
  retireRail_closed (P := fun x => x.get fld0 i0 j0 = s.get fld0 i0 j0) (field_closed fld0 i0 j0 _) hK  rfl

def Foot.retireLoose (K : Part → Bool) : Bool := K (.fld .PH_PSTAT_RCAUSE) && (K (.fld .PH_PSTAT_RET) && (Foot.refreshPhase K
    && (Foot.markRetired K)))

theorem retireLoose_closed {K : Part → Bool} {P : State → Prop} {s : State} {p : Nat} (hP : Closed K P) (hK :
    Foot.retireLoose K = true) (hs_s : P s) :
    P (retireLoose s p) := by
  simp only [Foot.retireLoose, Bool.and_eq_true] at hK
  obtain ⟨hK0, hK1, hK2, hK3⟩ := hK
  unfold retireLoose
  with_reducible repeat' first
    | assumption
    | refine refreshPhase_closed hP ?_ ?_
    | refine markRetired_closed hP ?_ ?_
    | refine hP.clear ?_ ?_
    | refine Closed.when ?_ ?_
    | intro _
    | (extract_lets +onlyGivenNames x; apply thenHave (p := P x); (unfold x; clear x); rotate_left 1; (intro hx; clear_value x))
    | (extract_lets +onlyGivenNames x; clear_value x)
    | refine ite_closed ?_ ?_
    | split

theorem retireLoose_get {s : State} {p : Nat} {fld0 : Fld} {i0 j0 : Nat} (hK : Foot.retireLoose (notFld fld0) = true)  :
    (retireLoose s p).get fld0 i0 j0 = s.get fld0 i0 j0 :=
  retireLoose_closed (P := fun x => x.get fld0 i0 j0 = s.get fld0 i0 j0) (field_closed fld0 i0 j0 _) hK  rfl

def Foot.retireBoundary (K : Part → Bool) : Bool := K (.fld .unretReq) && (K (.fld .retReq) && (Foot.unretireRail K &&
    (Foot.retireRail K && (Foot.retireLoose K))))

theorem retireBoundary_closed {K : Part → Bool} {P : State → Prop} {s : State} (hP : Closed K P) (hK : Foot.retireBoundary K
    = true) (hs_s : P s) :
    P (retireBoundary s) := by
  simp only [Foot.retireBoundary, Bool.and_eq_true] at hK
  obtain ⟨hK0, hK1, hK2, hK3, hK4⟩ := hK
  unfold retireBoundary
  with_reducible repeat' first
    | assumption
    | refine unretireRail_closed hP ?_ ?_
    | refine retireRail_closed hP ?_ ?_
    | refine retireLoose_closed hP ?_ ?_
    | refine hP.clear ?_ ?_
    | refine Closed.each ?_ _ ?_
    | intro _
    | (extract_lets +onlyGivenNames x; apply thenHave (p := P x); (unfold x; clear x); rotate_left 1; (intro hx; clear_value x))
    | (extract_lets +onlyGivenNames x; clear_value x)

theorem retireBoundary_get {s : State} {fld0 : Fld} {i0 j0 : Nat} (hK : Foot.retireBoundary (notFld fld0) = true)  :
    (retireBoundary s).get fld0 i0 j0 = s.get fld0 i0 j0 :=
  retireBoundary_closed (P := fun x => x.get fld0 i0 j0 = s.get fld0 i0 j0) (field_closed fld0 i0 j0 _) hK  rfl

def Foot.execCountLock (K : Part → Bool) : Bool := K (.fld .PH_CTRL_LOCK)

theorem execCountLock_closed {K : Part → Bool} {P : State → Prop} {s : State} (hP : Closed K P) (hK : Foot.execCountLock K =
    true) (hs_s : P s) :
    OutAll P (execCountLock s) := by
  simp only [Foot.execCountLock, Bool.and_eq_true] at hK
  unfold execCountLock
  with_reducible repeat' first
    | assumption
    | refine hP.raise ?_ ?_
    | refine OutAll.mk ?_

def Foot.stressRank (K : Part → Bool) : Bool := K (.fld .PH_STRESS) && (Foot.rankRail K)

theorem stressRank_closed {K : Part → Bool} {P : State → Prop} {s : State} (hP : Closed K P) (hK : Foot.stressRank K = true)
    (hs_s : P s) :
    P (stressRank s) := by
  simp only [Foot.stressRank, Bool.and_eq_true] at hK
  obtain ⟨hK0, hK1⟩ := hK
  unfold stressRank
  with_reducible repeat' first
    | assumption
    | refine rankRail_closed hP ?_ ?_
    | refine hP.put _ _ _ _ _ ?_ ?_
    | refine Closed.each ?_ _ ?_
    | intro _

theorem stressRank_get {s : State} {fld0 : Fld} {i0 j0 : Nat} (hK : Foot.stressRank (notFld fld0) = true)  : (stressRank
    s).get fld0 i0 j0 = s.get fld0 i0 j0 :=
  stressRank_closed (P := fun x => x.get fld0 i0 j0 = s.get fld0 i0 j0) (field_closed fld0 i0 j0 _) hK  rfl

def Foot.noidBoundary (K : Part → Bool) : Bool := K (.fld .noidMt) && (K (.fld .PH_CSTAT_NOIDC))

theorem noidBoundary_closed {K : Part → Bool} {P : State → Prop} {s : State} {c : Nat} (hP : Closed K P) (hK :
    Foot.noidBoundary K = true) (hs_s : P s) :
    P (noidBoundary s c) := by
  simp only [Foot.noidBoundary, Bool.and_eq_true] at hK
  obtain ⟨hK0, hK1⟩ := hK
  unfold noidBoundary
  with_reducible repeat' first
    | assumption
    | refine hP.put _ _ _ _ _ ?_ ?_
    | refine hP.clear ?_ ?_
    | refine hP.raise ?_ ?_
    | refine hP.bump ?_ ?_
    | refine hP.setBits ?_ ?_
    | refine hP.clrBits ?_ ?_
    | refine Closed.when ?_ ?_
    | intro _
    | (extract_lets +onlyGivenNames x; apply thenHave (p := P x); (unfold x; clear x); rotate_left 1; (intro hx; clear_value x))
    | (extract_lets +onlyGivenNames x; clear_value x)
    | (extract_lets +onlyGivenNames x)
    | refine ite_closed ?_ ?_
    | split

theorem noidBoundary_get {s : State} {c : Nat} {fld0 : Fld} {i0 j0 : Nat} (hK : Foot.noidBoundary (notFld fld0) = true)  :
    (noidBoundary s c).get fld0 i0 j0 = s.get fld0 i0 j0 :=
  noidBoundary_closed (P := fun x => x.get fld0 i0 j0 = s.get fld0 i0 j0) (field_closed fld0 i0 j0 _) hK  rfl

def Foot.summaryAssemble (K : Part → Bool) : Bool := K (.fld .PH_STATUS_SUMBUSY) && (K (.fld .PH_SUM))

theorem summaryAssemble_closed {K : Part → Bool} {P : State → Prop} {s : State} (hP : Closed K P) (hK : Foot.summaryAssemble
    K = true) (hs_s : P s) :
    P (summaryAssemble s) := by
  simp only [Foot.summaryAssemble, Bool.and_eq_true] at hK
  obtain ⟨hK0, hK1⟩ := hK
  unfold summaryAssemble
  with_reducible repeat' first
    | assumption
    | refine hP.put _ _ _ _ _ ?_ ?_
    | refine hP.clear ?_ ?_
    | refine Closed.each ?_ _ ?_
    | intro _

theorem summaryAssemble_get {s : State} {fld0 : Fld} {i0 j0 : Nat} (hK : Foot.summaryAssemble (notFld fld0) = true)  :
    (summaryAssemble s).get fld0 i0 j0 = s.get fld0 i0 j0 :=
  summaryAssemble_closed (P := fun x => x.get fld0 i0 j0 = s.get fld0 i0 j0) (field_closed fld0 i0 j0 _) hK  rfl

def Foot.returnPhase (K : Part → Bool) : Bool := K (.fld .tfMid) && (K (.fld .isolated) && (K (.fld .addReq)))

theorem returnPhase_closed {K : Part → Bool} {P : State → Prop} {s : State} {p : Nat} (hP : Closed K P) (hK :
    Foot.returnPhase K = true) (hs_s : P s) :
    P (returnPhase s p) := by
  simp only [Foot.returnPhase, Bool.and_eq_true] at hK
  obtain ⟨hK0, hK1, hK2⟩ := hK
  unfold returnPhase
  with_reducible repeat' first
    | assumption
    | refine hP.clear ?_ ?_
    | refine hP.setBits ?_ ?_
    | (extract_lets +onlyGivenNames x; apply thenHave (p := P x); (unfold x; clear x); rotate_left 1; (intro hx; clear_value x))
    | (extract_lets +onlyGivenNames x; clear_value x)
    | refine ite_closed ?_ ?_
    | split

theorem returnPhase_get {s : State} {p : Nat} {fld0 : Fld} {i0 j0 : Nat} (hK : Foot.returnPhase (notFld fld0) = true)  :
    (returnPhase s p).get fld0 i0 j0 = s.get fld0 i0 j0 :=
  returnPhase_closed (P := fun x => x.get fld0 i0 j0 = s.get fld0 i0 j0) (field_closed fld0 i0 j0 _) hK  rfl

def Foot.probeEnd (K : Part → Bool) : Bool := K (.fld .probeSkip) && (K (.fld .probed) && (K (.fld .tfMid) && (K (.fld
    .isolated) && (K (.fld .noidMt) && (K (.fld .PH_CSTAT_PSTATE) && (K (.fld .WP_CSTAT_ISOL) && (K (.fld .PH_CSTAT_NOIDC) &&
    (Foot.returnPhase K && (Foot.refreshPhase K && (Foot.flagPub K && (Foot.requestRetire K && (K (.fld
    .PH_CFLAG_NOID)))))))))))))

theorem probeEnd_closed {K : Part → Bool} {P : State → Prop} {s : State} {c : Nat} (hP : Closed K P) (hK : Foot.probeEnd K =
    true) (hs_s : P s) :
    P (probeEnd s c) := by
  simp only [Foot.probeEnd, Bool.and_eq_true] at hK
  obtain ⟨hK0, hK1, hK2, hK3, hK4, hK5, hK6, hK7, hK8, hK9, hK10, hK11, hK12⟩ := hK
  unfold probeEnd
  with_reducible repeat' first
    | assumption
    | refine returnPhase_closed hP ?_ ?_
    | refine refreshPhase_closed hP ?_ ?_
    | refine flagPub_closed hP ?_ ?_ ?_
    | refine requestRetire_closed hP ?_ ?_
    | refine hP.clear ?_ ?_
    | refine hP.bump ?_ ?_
    | refine Closed.each ?_ _ ?_
    | intro _
    | (extract_lets +onlyGivenNames x; apply thenHave (p := P x); (unfold x; clear x); rotate_left 1; (intro hx; clear_value x))
    | (extract_lets +onlyGivenNames x; clear_value x)
    | refine ite_closed ?_ ?_
    | split

theorem probeEnd_get {s : State} {c : Nat} {fld0 : Fld} {i0 j0 : Nat} (hK : Foot.probeEnd (notFld fld0) = true)  : (probeEnd
    s c).get fld0 i0 j0 = s.get fld0 i0 j0 :=
  probeEnd_closed (P := fun x => x.get fld0 i0 j0 = s.get fld0 i0 j0) (field_closed fld0 i0 j0 _) hK  rfl

def Foot.probeNext (K : Part → Bool) : Bool := K (.fld .probed) && (K (.fld .probeFrom) && (K (.fld .probeSkip) && (K (.fld
    .PH_CSTAT_PSTATE) && (K (.fld .PH_CSTAT_PK) && (Foot.probeEnd K && (Foot.refreshPhase K && (Foot.returnPhase K)))))))

theorem probeNext_closed {K : Part → Bool} {P : State → Prop} {s : State} {c : Nat} {y2 : List Nat} (hP : Closed K P) (hK :
    Foot.probeNext K = true) (hs_s : P s) :
    P (probeNext s c y2) := by
  simp only [Foot.probeNext, Bool.and_eq_true] at hK
  obtain ⟨hK0, hK1, hK2, hK3, hK4, hK5, hK6, hK7⟩ := hK
  induction y2 generalizing s with
  | nil =>
    unfold probeNext
    with_reducible repeat' first
      | assumption
      | refine probeEnd_closed hP ?_ ?_
      | refine refreshPhase_closed hP ?_ ?_
      | refine returnPhase_closed hP ?_ ?_
      | refine hP.put _ _ _ _ _ ?_ ?_
      | refine hP.clear ?_ ?_
      | refine hP.raise ?_ ?_
      | (extract_lets +onlyGivenNames x; apply thenHave (p := P x); (unfold x; clear x); rotate_left 1; (intro hx; clear_value x))
      | (extract_lets +onlyGivenNames x; clear_value x)
      | refine ite_closed ?_ ?_
      | split
  | cons p rest ih =>
    unfold probeNext
    with_reducible repeat' first
      | (with_reducible refine ih ?_)
      | assumption
      | refine probeEnd_closed hP ?_ ?_
      | refine refreshPhase_closed hP ?_ ?_
      | refine returnPhase_closed hP ?_ ?_
      | refine hP.put _ _ _ _ _ ?_ ?_
      | refine hP.clear ?_ ?_
      | refine hP.raise ?_ ?_
      | (extract_lets +onlyGivenNames x; apply thenHave (p := P x); (unfold x; clear x); rotate_left 1; (intro hx; clear_value x))
      | (extract_lets +onlyGivenNames x; clear_value x)
      | refine ite_closed ?_ ?_
      | split

theorem probeNext_get {s : State} {c : Nat} {y2 : List Nat} {fld0 : Fld} {i0 j0 : Nat} (hK : Foot.probeNext (notFld fld0) =
    true)  : (probeNext s c y2).get fld0 i0 j0 = s.get fld0 i0 j0 :=
  probeNext_closed (P := fun x => x.get fld0 i0 j0 = s.get fld0 i0 j0) (field_closed fld0 i0 j0 _) hK  rfl

def Foot.probeWaitEnd (K : Part → Bool) : Bool := Foot.probeNext K

theorem probeWaitEnd_closed {K : Part → Bool} {P : State → Prop} {s : State} {c : Nat} (hP : Closed K P) (hK :
    Foot.probeWaitEnd K = true) (hs_s : P s) :
    P (probeWaitEnd s c) := by
  simp only [Foot.probeWaitEnd, Bool.and_eq_true] at hK
  unfold probeWaitEnd
  with_reducible repeat' first
    | assumption
    | refine probeNext_closed hP ?_ ?_
    | refine ite_closed ?_ ?_
    | split

theorem probeWaitEnd_get {s : State} {c : Nat} {fld0 : Fld} {i0 j0 : Nat} (hK : Foot.probeWaitEnd (notFld fld0) = true)  :
    (probeWaitEnd s c).get fld0 i0 j0 = s.get fld0 i0 j0 :=
  probeWaitEnd_closed (P := fun x => x.get fld0 i0 j0 = s.get fld0 i0 j0) (field_closed fld0 i0 j0 _) hK  rfl

def Foot.execProbeWaitEnd (K : Part → Bool) : Bool := Foot.probeWaitEnd K

theorem execProbeWaitEnd_closed {K : Part → Bool} {P : State → Prop} {c : Cluster} {s : State} (hP : Closed K P) (hK :
    Foot.execProbeWaitEnd K = true) (hs_s : P s) :
    OutAll P (execProbeWaitEnd c s) := by
  simp only [Foot.execProbeWaitEnd, Bool.and_eq_true] at hK
  unfold execProbeWaitEnd
  with_reducible repeat' first
    | assumption
    | refine probeWaitEnd_closed hP ?_ ?_
    | refine OutAll.mk ?_

def Foot.probeWatchEnd (K : Part → Bool) : Bool := Foot.probeNext K

theorem probeWatchEnd_closed {K : Part → Bool} {P : State → Prop} {s : State} {c : Nat} (hP : Closed K P) (hK :
    Foot.probeWatchEnd K = true) (hs_s : P s) :
    P (probeWatchEnd s c) := by
  simp only [Foot.probeWatchEnd, Bool.and_eq_true] at hK
  unfold probeWatchEnd
  with_reducible repeat' first
    | assumption
    | refine probeNext_closed hP ?_ ?_
    | refine ite_closed ?_ ?_
    | split

theorem probeWatchEnd_get {s : State} {c : Nat} {fld0 : Fld} {i0 j0 : Nat} (hK : Foot.probeWatchEnd (notFld fld0) = true)  :
    (probeWatchEnd s c).get fld0 i0 j0 = s.get fld0 i0 j0 :=
  probeWatchEnd_closed (P := fun x => x.get fld0 i0 j0 = s.get fld0 i0 j0) (field_closed fld0 i0 j0 _) hK  rfl

def Foot.execProbeWatchEnd (K : Part → Bool) : Bool := Foot.probeWatchEnd K

theorem execProbeWatchEnd_closed {K : Part → Bool} {P : State → Prop} {c : Cluster} {s : State} (hP : Closed K P) (hK :
    Foot.execProbeWatchEnd K = true) (hs_s : P s) :
    OutAll P (execProbeWatchEnd c s) := by
  simp only [Foot.execProbeWatchEnd, Bool.and_eq_true] at hK
  unfold execProbeWatchEnd
  with_reducible repeat' first
    | assumption
    | refine probeWatchEnd_closed hP ?_ ?_
    | refine OutAll.mk ?_

def Foot.execRetire (K : Part → Bool) : Bool := Foot.retirePhase K

theorem execRetire_closed {K : Part → Bool} {P : State → Prop} {p : Phase} {rcin : BitVec 4} {s : State} (hP : Closed K P)
    (hK : Foot.execRetire K = true) (hs_s : P s) :
    OutAll P (execRetire p rcin s) := by
  simp only [Foot.execRetire, Bool.and_eq_true] at hK
  unfold execRetire
  with_reducible repeat' first
    | assumption
    | refine retirePhase_closed hP ?_ ?_
    | refine OutAll.mk ?_

def Foot.shedDwell (K : Part → Bool) : Bool := K (.fld .shCnt) && (K (.fld .dropReq) && (Foot.healthFlag K && (K (.fld
    .PH_RFLAG_SHDROP))))

theorem shedDwell_closed {K : Part → Bool} {P : State → Prop} {s : State} {r : Nat} (hP : Closed K P) (hK : Foot.shedDwell K
    = true) (hs_s : P s) :
    P (shedDwell s r) := by
  simp only [Foot.shedDwell, Bool.and_eq_true] at hK
  obtain ⟨hK0, hK1, hK2, hK3⟩ := hK
  unfold shedDwell
  with_reducible repeat' first
    | assumption
    | refine healthFlag_closed hP ?_ ?_ ?_
    | refine hP.clear ?_ ?_
    | refine hP.setBits ?_ ?_
    | intro _
    | (extract_lets +onlyGivenNames x; apply thenHave (p := P x); (unfold x; clear x); rotate_left 1; (intro hx; clear_value x))
    | (extract_lets +onlyGivenNames x; clear_value x)
    | refine ite_closed ?_ ?_
    | split

theorem shedDwell_get {s : State} {r : Nat} {fld0 : Fld} {i0 j0 : Nat} (hK : Foot.shedDwell (notFld fld0) = true)  :
    (shedDwell s r).get fld0 i0 j0 = s.get fld0 i0 j0 :=
  shedDwell_closed (P := fun x => x.get fld0 i0 j0 = s.get fld0 i0 j0) (field_closed fld0 i0 j0 _) hK  rfl

def Foot.execShedDwellExpiry (K : Part → Bool) : Bool := Foot.shedDwell K

theorem execShedDwellExpiry_closed {K : Part → Bool} {P : State → Prop} {r : Rail} {s : State} (hP : Closed K P) (hK :
    Foot.execShedDwellExpiry K = true) (hs_s : P s) :
    OutAll P (execShedDwellExpiry r s) := by
  simp only [Foot.execShedDwellExpiry, Bool.and_eq_true] at hK
  unfold execShedDwellExpiry
  with_reducible repeat' first
    | assumption
    | refine shedDwell_closed hP ?_ ?_
    | refine OutAll.mk ?_

def Foot.execSnap (K : Part → Bool) : Bool := Foot.snapStart K

theorem execSnap_closed {K : Part → Bool} {P : State → Prop} {s : State} (hP : Closed K P) (hK : Foot.execSnap K = true)
    (hs_s : P s) :
    OutAll P (execSnap s) := by
  simp only [Foot.execSnap, Bool.and_eq_true] at hK
  unfold execSnap
  with_reducible repeat' first
    | assumption
    | refine snapStart_closed hP ?_ ?_
    | refine OutAll.mk ?_

def Foot.summaryDone (K : Part → Bool) : Bool := K (.fld .snapReq) && (Foot.summaryAssemble K)

theorem summaryDone_closed {K : Part → Bool} {P : State → Prop} {s : State} (hP : Closed K P) (hK : Foot.summaryDone K =
    true) (hs_s : P s) :
    P (summaryDone s) := by
  simp only [Foot.summaryDone, Bool.and_eq_true] at hK
  obtain ⟨hK0, hK1⟩ := hK
  unfold summaryDone
  with_reducible repeat' first
    | assumption
    | refine summaryAssemble_closed hP ?_ ?_
    | refine hP.clear ?_ ?_
    | refine ite_closed ?_ ?_
    | split

theorem summaryDone_get {s : State} {fld0 : Fld} {i0 j0 : Nat} (hK : Foot.summaryDone (notFld fld0) = true)  : (summaryDone
    s).get fld0 i0 j0 = s.get fld0 i0 j0 :=
  summaryDone_closed (P := fun x => x.get fld0 i0 j0 = s.get fld0 i0 j0) (field_closed fld0 i0 j0 _) hK  rfl

def Foot.execSummaryDone (K : Part → Bool) : Bool := Foot.summaryDone K

theorem execSummaryDone_closed {K : Part → Bool} {P : State → Prop} {s : State} (hP : Closed K P) (hK : Foot.execSummaryDone
    K = true) (hs_s : P s) :
    OutAll P (execSummaryDone s) := by
  simp only [Foot.execSummaryDone, Bool.and_eq_true] at hK
  unfold execSummaryDone
  with_reducible repeat' first
    | assumption
    | refine summaryDone_closed hP ?_ ?_
    | refine OutAll.mk ?_

def Foot.execUnret (K : Part → Bool) : Bool := Foot.unretPhase K

theorem execUnret_closed {K : Part → Bool} {P : State → Prop} {p : Phase} {s : State} (hP : Closed K P) (hK : Foot.execUnret
    K = true) (hs_s : P s) :
    OutAll P (execUnret p s) := by
  simp only [Foot.execUnret, Bool.and_eq_true] at hK
  unfold execUnret
  with_reducible repeat' first
    | assumption
    | refine unretPhase_closed hP ?_ ?_
    | refine OutAll.mk ?_

end Sys2Proof.Machine
end

