-- ==== Sys2Proof/Laws/ClosedDemand.lean ====
section
/-! SUPPORT. What the functions of Machine/Demand.lean can write, and that they keep every closed property (Laws/Closed.lean). -/
namespace Sys2Proof.Machine

set_option Elab.async false
set_option linter.all false

def Foot.releaseSlot (K : Part → Bool) : Bool := K .commits

theorem releaseSlot_closed {K : Part → Bool} {P : State → Prop} {s : State} {d : Nat} {k : Nat} (hP : Closed K P) (hK :
    Foot.releaseSlot K = true) (hs_s : P s) :
    P (releaseSlot s d k) := by
  simp only [Foot.releaseSlot, Bool.and_eq_true] at hK
  unfold releaseSlot
  with_reducible repeat' first
    | assumption
    | intro _
    | refine hP.remake _ _ _ _ _ _ _ _ _ _ _ _ _ _ _ _ _ _ _ _ _ _ _ (hs := ?_); first | assumption

theorem releaseSlot_get {s : State} {d : Nat} {k : Nat} {fld0 : Fld} {i0 j0 : Nat} (hK : Foot.releaseSlot (notFld fld0) =
    true)  : (releaseSlot s d k).get fld0 i0 j0 = s.get fld0 i0 j0 :=
  releaseSlot_closed (P := fun x => x.get fld0 i0 j0 = s.get fld0 i0 j0) (field_closed fld0 i0 j0 _) hK  rfl

def Foot.showRequest (K : Part → Bool) : Bool := K (.fld .greqShown) && (K (.fld .DD_GREQ_PEND) && (K (.fld .DD_GREQ_RAIL) &&
    (K (.fld .DD_GREQ_SLOT) && (K (.fld .DD_GREQMAX) && (K (.fld .DD_GREQDI) && (Foot.hwPublish K))))))

theorem showRequest_closed {K : Part → Bool} {P : State → Prop} {s : State} {d : Nat} (hP : Closed K P) (hK :
    Foot.showRequest K = true) (hs_s : P s) :
    P (showRequest s d) := by
  simp only [Foot.showRequest, Bool.and_eq_true] at hK
  obtain ⟨hK0, hK1, hK2, hK3, hK4, hK5, hK6⟩ := hK
  unfold showRequest
  with_reducible repeat' first
    | assumption
    | refine hwPublish_closed hP ?_ ?_
    | refine hP.put _ _ _ _ _ ?_ ?_
    | refine hP.clear ?_ ?_
    | refine hP.raise ?_ ?_
    | refine Closed.when ?_ ?_
    | intro _
    | (extract_lets +onlyGivenNames x; apply thenHave (p := P x); (unfold x; clear x); rotate_left 1; (intro hx; clear_value x))
    | (extract_lets +onlyGivenNames x; clear_value x)
    | split

theorem showRequest_get {s : State} {d : Nat} {fld0 : Fld} {i0 j0 : Nat} (hK : Foot.showRequest (notFld fld0) = true)  :
    (showRequest s d).get fld0 i0 j0 = s.get fld0 i0 j0 :=
  showRequest_closed (P := fun x => x.get fld0 i0 j0 = s.get fld0 i0 j0) (field_closed fld0 i0 j0 _) hK  rfl

def Foot.freeSlot (K : Part → Bool) : Bool := K (.fld .slMet) && (K (.fld .DD_SCON) && (K (.fld .DD_SSTAT_STATE) &&
    (Foot.releaseSlot K && (Foot.showRequest K))))

theorem freeSlot_closed {K : Part → Bool} {P : State → Prop} {s : State} {d : Nat} {k : Nat} (hP : Closed K P) (hK :
    Foot.freeSlot K = true) (hs_s : P s) :
    P (freeSlot s d k) := by
  simp only [Foot.freeSlot, Bool.and_eq_true] at hK
  obtain ⟨hK0, hK1, hK2, hK3, hK4⟩ := hK
  unfold freeSlot
  with_reducible repeat' first
    | assumption
    | refine releaseSlot_closed hP ?_ ?_
    | refine showRequest_closed hP ?_ ?_
    | refine hP.put _ _ _ _ _ ?_ ?_
    | refine hP.clear ?_ ?_
    | (extract_lets +onlyGivenNames x; apply thenHave (p := P x); (unfold x; clear x); rotate_left 1; (intro hx; clear_value x))
    | (extract_lets +onlyGivenNames x; clear_value x)

theorem freeSlot_get {s : State} {d : Nat} {k : Nat} {fld0 : Fld} {i0 j0 : Nat} (hK : Foot.freeSlot (notFld fld0) = true)  :
    (freeSlot s d k).get fld0 i0 j0 = s.get fld0 i0 j0 :=
  freeSlot_closed (P := fun x => x.get fld0 i0 j0 = s.get fld0 i0 j0) (field_closed fld0 i0 j0 _) hK  rfl

def Foot.queueFlit (K : Part → Bool) : Bool := K (.fld .DL_FLAG_TXOVF) && (K .txFlits)

theorem queueFlit_closed {K : Part → Bool} {P : State → Prop} {s : State} {l : Nat} {typ : Nat} {body : Nat} (hP : Closed K
    P) (hK : Foot.queueFlit K = true) (hs_s : P s) :
    P (queueFlit s l typ body) := by
  simp only [Foot.queueFlit, Bool.and_eq_true] at hK
  obtain ⟨hK0, hK1⟩ := hK
  unfold queueFlit
  with_reducible repeat' first
    | assumption
    | refine hP.raise ?_ ?_
    | intro _
    | refine hP.remake _ _ _ _ _ _ _ _ _ _ _ _ _ _ _ _ _ _ _ _ _ _ _ (hs := ?_); first | assumption | (with_reducible refine hP.put _ _ _ _ _ ?_ ?_) | (with_reducible refine hP.clear ?_ ?_) | (with_reducible refine hP.raise ?_ ?_) | (with_reducible refine hP.bump ?_ ?_) | (with_reducible refine hP.setBits ?_ ?_) | (with_reducible refine hP.clrBits ?_ ?_)
    | refine ite_closed ?_ ?_
    | split

theorem queueFlit_get {s : State} {l : Nat} {typ : Nat} {body : Nat} {fld0 : Fld} {i0 j0 : Nat} (hK : Foot.queueFlit (notFld
    fld0) = true)  : (queueFlit s l typ body).get fld0 i0 j0 = s.get fld0 i0 j0 :=
  queueFlit_closed (P := fun x => x.get fld0 i0 j0 = s.get fld0 i0 j0) (field_closed fld0 i0 j0 _) hK  rfl

def Foot.reply (K : Part → Bool) : Bool := Foot.queueFlit K

theorem reply_closed {K : Part → Bool} {P : State → Prop} {s : State} {d : Nat} {typ : Nat} {refseq : Nat} {status : Nat} {r
    : Nat} {amount : Int} (hP : Closed K P) (hK : Foot.reply K = true) (hs_s : P s) :
    P (reply s d typ refseq status r amount) := by
  simp only [Foot.reply, Bool.and_eq_true] at hK
  unfold reply
  with_reducible repeat' first
    | assumption
    | refine queueFlit_closed hP ?_ ?_
    | refine ite_closed ?_ ?_
    | split

theorem reply_get {s : State} {d : Nat} {typ : Nat} {refseq : Nat} {status : Nat} {r : Nat} {amount : Int} {fld0 : Fld} {i0
    j0 : Nat} (hK : Foot.reply (notFld fld0) = true)  : (reply s d typ refseq status r amount).get fld0 i0 j0 = s.get fld0 i0
    j0 :=
  reply_closed (P := fun x => x.get fld0 i0 j0 = s.get fld0 i0 j0) (field_closed fld0 i0 j0 _) hK  rfl

def Foot.forecastAdds (K : Part → Bool) : Bool := K (.fld .addReq) && (K (.fld .LN_FCFLAG_NOADD))

theorem forecastAdds_closed {K : Part → Bool} {P : State → Prop} {s : State} {r : Nat} (hP : Closed K P) (hK :
    Foot.forecastAdds K = true) (hs_s : P s) :
    P (forecastAdds s r) := by
  simp only [Foot.forecastAdds, Bool.and_eq_true] at hK
  obtain ⟨hK0, hK1⟩ := hK
  unfold forecastAdds
  with_reducible repeat' first
    | assumption
    | refine hP.raise ?_ ?_
    | refine hP.setBits ?_ ?_
    | refine Closed.each ?_ _ ?_
    | intro _
    | (extract_lets +onlyGivenNames x; apply thenHave (p := P x); (unfold x; clear x); rotate_left 1; (intro hx; clear_value x))
    | (extract_lets +onlyGivenNames x; clear_value x)
    | refine ite_closed ?_ ?_
    | split

theorem forecastAdds_get {s : State} {r : Nat} {fld0 : Fld} {i0 j0 : Nat} (hK : Foot.forecastAdds (notFld fld0) = true)  :
    (forecastAdds s r).get fld0 i0 j0 = s.get fld0 i0 j0 :=
  forecastAdds_closed (P := fun x => x.get fld0 i0 j0 = s.get fld0 i0 j0) (field_closed fld0 i0 j0 _) hK  rfl

def Foot.startSlot (K : Part → Bool) : Bool := K (.fld .DD_SDI) && (K (.fld .slDi) && (K (.fld .DD_SSTAT_STATE) && (K
    .commits && (K (.fld .DD_SS) && (K (.fld .slS) && (Foot.freeSlot K && (Foot.reply K && (Foot.showRequest K &&
    (Foot.forecastAdds K)))))))))

theorem startSlot_closed {K : Part → Bool} {P : State → Prop} {s : State} {d : Nat} {k : Nat} {typ : Nat} {amt : Int} {late :
    Bool} (hP : Closed K P) (hK : Foot.startSlot K = true) (hs_s : P s) :
    P (startSlot s d k typ amt late) := by
  simp only [Foot.startSlot, Bool.and_eq_true] at hK
  obtain ⟨hK0, hK1, hK2, hK3, hK4, hK5, hK6, hK7, hK8, hK9⟩ := hK
  unfold startSlot
  with_reducible repeat' first
    | assumption
    | refine freeSlot_closed hP ?_ ?_
    | refine reply_closed hP ?_ ?_
    | refine showRequest_closed hP ?_ ?_
    | refine forecastAdds_closed hP ?_ ?_
    | refine hP.put _ _ _ _ _ ?_ ?_
    | (extract_lets +onlyGivenNames x; apply thenHave (p := P x); (unfold x; clear x); rotate_left 1; (intro hx; clear_value x))
    | (extract_lets +onlyGivenNames x; clear_value x)
    | refine hP.remake _ _ _ _ _ _ _ _ _ _ _ _ _ _ _ _ _ _ _ _ _ _ _ (hs := ?_); first | assumption | (with_reducible refine freeSlot_closed hP ?_ ?_) | (with_reducible refine reply_closed hP ?_ ?_) | (with_reducible refine showRequest_closed hP ?_ ?_) | (with_reducible refine forecastAdds_closed hP ?_ ?_) | (with_reducible refine hP.put _ _ _ _ _ ?_ ?_) | (with_reducible refine hP.clear ?_ ?_) | (with_reducible refine hP.raise ?_ ?_) | (with_reducible refine hP.bump ?_ ?_) | (with_reducible refine hP.setBits ?_ ?_) | (with_reducible refine hP.clrBits ?_ ?_)
    | refine ite_closed ?_ ?_
    | split

theorem startSlot_get {s : State} {d : Nat} {k : Nat} {typ : Nat} {amt : Int} {late : Bool} {fld0 : Fld} {i0 j0 : Nat} (hK :
    Foot.startSlot (notFld fld0) = true)  : (startSlot s d k typ amt late).get fld0 i0 j0 = s.get fld0 i0 j0 :=
  startSlot_closed (P := fun x => x.get fld0 i0 j0 = s.get fld0 i0 j0) (field_closed fld0 i0 j0 _) hK  rfl

def Foot.grantDecide (K : Part → Bool) : Bool := K (.fld .DD_GREQ_CFGERR) && (K (.fld .DD_GRANT_AMT) && (Foot.startSlot K))

theorem grantDecide_closed {K : Part → Bool} {P : State → Prop} {s : State} {d : Nat} {amt : Int} (hP : Closed K P) (hK :
    Foot.grantDecide K = true) (hs_s : P s) :
    P (grantDecide s d amt) := by
  simp only [Foot.grantDecide, Bool.and_eq_true] at hK
  obtain ⟨hK0, hK1, hK2⟩ := hK
  unfold grantDecide
  with_reducible repeat' first
    | assumption
    | refine startSlot_closed hP ?_ ?_
    | refine hP.put _ _ _ _ _ ?_ ?_
    | refine hP.raise ?_ ?_
    | (extract_lets +onlyGivenNames x; apply thenHave (p := P x); (unfold x; clear x); rotate_left 1; (intro hx; clear_value x))
    | (extract_lets +onlyGivenNames x; clear_value x)
    | refine ite_closed ?_ ?_
    | split

theorem grantDecide_get {s : State} {d : Nat} {amt : Int} {fld0 : Fld} {i0 j0 : Nat} (hK : Foot.grantDecide (notFld fld0) =
    true)  : (grantDecide s d amt).get fld0 i0 j0 = s.get fld0 i0 j0 :=
  grantDecide_closed (P := fun x => x.get fld0 i0 j0 = s.get fld0 i0 j0) (field_closed fld0 i0 j0 _) hK  rfl

def Foot.freeWaiting (K : Part → Bool) : Bool := Foot.freeSlot K

theorem freeWaiting_closed {K : Part → Bool} {P : State → Prop} {s : State} {p : Nat → Nat → Bool} (hP : Closed K P) (hK :
    Foot.freeWaiting K = true) (hs_s : P s) :
    P (freeWaiting s p) := by
  simp only [Foot.freeWaiting, Bool.and_eq_true] at hK
  unfold freeWaiting
  with_reducible repeat' first
    | assumption
    | refine freeSlot_closed hP ?_ ?_
    | refine Closed.each ?_ _ ?_
    | intro _

def Foot.dropLane (K : Part → Bool) : Bool := K .txFlits && (K (.fld .fbReq) && (Foot.freeWaiting K))

theorem dropLane_closed {K : Part → Bool} {P : State → Prop} {s : State} {l : Nat} (hP : Closed K P) (hK : Foot.dropLane K =
    true) (hs_s : P s) :
    P (dropLane s l) := by
  simp only [Foot.dropLane, Bool.and_eq_true] at hK
  obtain ⟨hK0, hK1, hK2⟩ := hK
  unfold dropLane
  with_reducible repeat' first
    | assumption
    | refine freeWaiting_closed hP ?_ ?_
    | refine hP.raise ?_ ?_
    | intro _
    | (extract_lets +onlyGivenNames x; apply thenHave (p := P x); (unfold x; clear x); rotate_left 1; (intro hx; clear_value x))
    | (extract_lets +onlyGivenNames x; clear_value x)
    | refine hP.remake _ _ _ _ _ _ _ _ _ _ _ _ _ _ _ _ _ _ _ _ _ _ _ (hs := ?_); first | assumption | (with_reducible refine freeWaiting_closed hP ?_ ?_) | (with_reducible refine hP.put _ _ _ _ _ ?_ ?_) | (with_reducible refine hP.clear ?_ ?_) | (with_reducible refine hP.raise ?_ ?_) | (with_reducible refine hP.bump ?_ ?_) | (with_reducible refine hP.setBits ?_ ?_) | (with_reducible refine hP.clrBits ?_ ?_)
    | split

theorem dropLane_get {s : State} {l : Nat} {fld0 : Fld} {i0 j0 : Nat} (hK : Foot.dropLane (notFld fld0) = true)  : (dropLane
    s l).get fld0 i0 j0 = s.get fld0 i0 j0 :=
  dropLane_closed (P := fun x => x.get fld0 i0 j0 = s.get fld0 i0 j0) (field_closed fld0 i0 j0 _) hK  rfl

def Foot.laneEnable (K : Part → Bool) : Bool := K (.fld .lossReq) && (K (.fld .lkLock) && (K (.fld .DL_STATE_STATE) && (K
    (.fld .crcRun) && (Foot.dropLane K))))

theorem laneEnable_closed {K : Part → Bool} {P : State → Prop} {s : State} {l : Nat} (hP : Closed K P) (hK : Foot.laneEnable
    K = true) (hs_s : P s) :
    P (laneEnable s l) := by
  simp only [Foot.laneEnable, Bool.and_eq_true] at hK
  obtain ⟨hK0, hK1, hK2, hK3, hK4⟩ := hK
  unfold laneEnable
  with_reducible repeat' first
    | assumption
    | refine dropLane_closed hP ?_ ?_
    | refine hP.put _ _ _ _ _ ?_ ?_
    | refine hP.clear ?_ ?_
    | refine hP.raise ?_ ?_
    | refine hP.bump ?_ ?_
    | refine hP.setBits ?_ ?_
    | refine hP.clrBits ?_ ?_
    | refine Closed.when ?_ ?_
    | intro _
    | (extract_lets +onlyGivenNames x; apply thenHave (p := P x); (unfold x; clear x); rotate_left 1; (intro hx; clear_value x))
    | (extract_lets +onlyGivenNames x; clear_value x)
    | (extract_lets +onlyGivenNames x)
    | refine ite_closed ?_ ?_
    | split

theorem laneEnable_get {s : State} {l : Nat} {fld0 : Fld} {i0 j0 : Nat} (hK : Foot.laneEnable (notFld fld0) = true)  :
    (laneEnable s l).get fld0 i0 j0 = s.get fld0 i0 j0 :=
  laneEnable_closed (P := fun x => x.get fld0 i0 j0 = s.get fld0 i0 j0) (field_closed fld0 i0 j0 _) hK  rfl

def Foot.acceptFlit (K : Part → Bool) : Bool := K (.fld .crcRun) && (K (.fld .DL_FLAG_STALE) && (K (.fld .DL_STALECNT) && (K
    (.fld .DL_FLAG_DUP) && (K (.fld .DL_DUPCNT) && (K (.fld .DL_FLAG_GAP) && (K (.fld .DL_LOSTCNT) && (K (.fld .katAt) && (K
    (.fld .DL_STATE_RXSEQ)))))))))

theorem acceptFlit_closed {K : Part → Bool} {P : State → Prop} {s : State} {l : Nat} {f : BitVec 128} (hP : Closed K P) (hK :
    Foot.acceptFlit K = true) (hs_s : P s) :
    P (acceptFlit s l f).1 := by
  simp only [Foot.acceptFlit, Bool.and_eq_true] at hK
  obtain ⟨hK0, hK1, hK2, hK3, hK4, hK5, hK6, hK7, hK8⟩ := hK
  unfold acceptFlit
  with_reducible repeat' first
    | assumption
    | refine hP.put _ _ _ _ _ ?_ ?_
    | refine hP.clear ?_ ?_
    | refine hP.raise ?_ ?_
    | refine hP.bump ?_ ?_
    | (extract_lets +onlyGivenNames x; apply thenHave (p := P x); (unfold x; clear x); rotate_left 1; (intro hx; clear_value x))
    | (extract_lets +onlyGivenNames x; clear_value x)
    | refine ite_closed ?_ ?_
    | split

def Foot.activity (K : Part → Bool) : Bool := K (.fld .DL_ACT) && (Foot.acceptFlit K && (Foot.hwPublish K))

theorem activity_closed {K : Part → Bool} {P : State → Prop} {s : State} {l : Nat} {f : BitVec 128} (hP : Closed K P) (hK :
    Foot.activity K = true) (hs_s : P s) :
    P (activity s l f) := by
  simp only [Foot.activity, Bool.and_eq_true] at hK
  obtain ⟨hK0, hK1, hK2⟩ := hK
  unfold activity
  with_reducible repeat' first
    | assumption
    | refine acceptFlit_closed hP ?_ ?_
    | refine hwPublish_closed hP ?_ ?_
    | refine hP.put _ _ _ _ _ ?_ ?_
    | refine hP.clear ?_ ?_
    | refine hP.raise ?_ ?_
    | refine hP.bump ?_ ?_
    | refine hP.setBits ?_ ?_
    | refine hP.clrBits ?_ ?_
    | refine Closed.each ?_ _ ?_
    | (dsimp -zeta only)
    | refine of_snd (by assumption) ?_
    | refine of_fst (by assumption) ?_
    | refine of_mid (by assumption) ?_
    | refine of_trd (by assumption) ?_
    | refine of_fth (by assumption) ?_
    | intro _
    | (extract_lets +onlyGivenNames x; apply thenHave (p := P x); (unfold x; clear x); rotate_left 1; (intro hx; clear_value x))
    | (extract_lets +onlyGivenNames x; apply thenHave (p := P x.2); (unfold x; clear x); rotate_left 1; (intro hx; clear_value x))
    | (extract_lets +onlyGivenNames x; apply thenHave (p := P x.1); (unfold x; clear x); rotate_left 1; (intro hx; clear_value x))
    | (extract_lets +onlyGivenNames x; apply thenHave (p := P x.2.1); (unfold x; clear x); rotate_left 1; (intro hx; clear_value x))
    | (extract_lets +onlyGivenNames x; apply thenHave (p := P x.2.2); (unfold x; clear x); rotate_left 1; (intro hx; clear_value x))
    | (extract_lets +onlyGivenNames x; clear_value x)
    | (extract_lets +onlyGivenNames x)
    | refine ite_closed ?_ ?_
    | split

theorem activity_get {s : State} {l : Nat} {f : BitVec 128} {fld0 : Fld} {i0 j0 : Nat} (hK : Foot.activity (notFld fld0) =
    true)  : (activity s l f).get fld0 i0 j0 = s.get fld0 i0 j0 :=
  activity_closed (P := fun x => x.get fld0 i0 j0 = s.get fld0 i0 j0) (field_closed fld0 i0 j0 _) hK  rfl

def Foot.blockLockGained (K : Part → Bool) : Bool := K (.fld .lkLock) && (K (.fld .helloAt) && (K (.fld .DL_STATE_STATE)))

theorem blockLockGained_closed {K : Part → Bool} {P : State → Prop} {s : State} {l : Nat} (hP : Closed K P) (hK :
    Foot.blockLockGained K = true) (hs_s : P s) :
    P (blockLockGained s l) := by
  simp only [Foot.blockLockGained, Bool.and_eq_true] at hK
  obtain ⟨hK0, hK1, hK2⟩ := hK
  unfold blockLockGained
  with_reducible repeat' first
    | assumption
    | refine hP.put _ _ _ _ _ ?_ ?_
    | refine hP.raise ?_ ?_
    | (extract_lets +onlyGivenNames x; apply thenHave (p := P x); (unfold x; clear x); rotate_left 1; (intro hx; clear_value x))
    | (extract_lets +onlyGivenNames x; clear_value x)
    | refine ite_closed ?_ ?_
    | split

theorem blockLockGained_get {s : State} {l : Nat} {fld0 : Fld} {i0 j0 : Nat} (hK : Foot.blockLockGained (notFld fld0) = true)
     : (blockLockGained s l).get fld0 i0 j0 = s.get fld0 i0 j0 :=
  blockLockGained_closed (P := fun x => x.get fld0 i0 j0 = s.get fld0 i0 j0) (field_closed fld0 i0 j0 _) hK  rfl

def Foot.laneLoss (K : Part → Bool) : Bool := K (.fld .lossReq)

theorem laneLoss_closed {K : Part → Bool} {P : State → Prop} {s : State} {l : Nat} (hP : Closed K P) (hK : Foot.laneLoss K =
    true) (hs_s : P s) :
    P (laneLoss s l) := by
  simp only [Foot.laneLoss, Bool.and_eq_true] at hK
  unfold laneLoss
  with_reducible repeat' first
    | assumption
    | refine hP.raise ?_ ?_
    | refine ite_closed ?_ ?_
    | split

theorem laneLoss_get {s : State} {l : Nat} {fld0 : Fld} {i0 j0 : Nat} (hK : Foot.laneLoss (notFld fld0) = true)  : (laneLoss
    s l).get fld0 i0 j0 = s.get fld0 i0 j0 :=
  laneLoss_closed (P := fun x => x.get fld0 i0 j0 = s.get fld0 i0 j0) (field_closed fld0 i0 j0 _) hK  rfl

def Foot.blockLockLost (K : Part → Bool) : Bool := K (.fld .lkLock) && (K (.fld .DL_STATE_STATE) && (Foot.laneLoss K))

theorem blockLockLost_closed {K : Part → Bool} {P : State → Prop} {s : State} {l : Nat} (hP : Closed K P) (hK :
    Foot.blockLockLost K = true) (hs_s : P s) :
    P (blockLockLost s l) := by
  simp only [Foot.blockLockLost, Bool.and_eq_true] at hK
  obtain ⟨hK0, hK1, hK2⟩ := hK
  unfold blockLockLost
  with_reducible repeat' first
    | assumption
    | refine laneLoss_closed hP ?_ ?_
    | refine hP.put _ _ _ _ _ ?_ ?_
    | refine hP.clear ?_ ?_
    | (extract_lets +onlyGivenNames x; apply thenHave (p := P x); (unfold x; clear x); rotate_left 1; (intro hx; clear_value x))
    | (extract_lets +onlyGivenNames x; clear_value x)
    | refine ite_closed ?_ ?_
    | split

theorem blockLockLost_get {s : State} {l : Nat} {fld0 : Fld} {i0 j0 : Nat} (hK : Foot.blockLockLost (notFld fld0) = true)  :
    (blockLockLost s l).get fld0 i0 j0 = s.get fld0 i0 j0 :=
  blockLockLost_closed (P := fun x => x.get fld0 i0 j0 = s.get fld0 i0 j0) (field_closed fld0 i0 j0 _) hK  rfl

def Foot.cancelForecast (K : Part → Bool) : Bool := K (.fld .slMet) && (K (.fld .DD_SSTAT_STATE) && (Foot.reply K &&
    (Foot.freeSlot K)))

theorem cancelForecast_closed {K : Part → Bool} {P : State → Prop} {s : State} {d : Nat} {f : BitVec 128} (hP : Closed K P)
    (hK : Foot.cancelForecast K = true) (hs_s : P s) :
    P (cancelForecast s d f) := by
  simp only [Foot.cancelForecast, Bool.and_eq_true] at hK
  obtain ⟨hK0, hK1, hK2, hK3⟩ := hK
  unfold cancelForecast
  with_reducible repeat' first
    | assumption
    | refine reply_closed hP ?_ ?_
    | refine freeSlot_closed hP ?_ ?_
    | refine hP.put _ _ _ _ _ ?_ ?_
    | refine hP.clear ?_ ?_
    | intro _
    | (extract_lets +onlyGivenNames x; apply thenHave (p := P x); (unfold x; clear x); rotate_left 1; (intro hx; clear_value x))
    | (extract_lets +onlyGivenNames x; clear_value x)
    | refine ite_closed ?_ ?_
    | split

theorem cancelForecast_get {s : State} {d : Nat} {f : BitVec 128} {fld0 : Fld} {i0 j0 : Nat} (hK : Foot.cancelForecast
    (notFld fld0) = true)  : (cancelForecast s d f).get fld0 i0 j0 = s.get fld0 i0 j0 :=
  cancelForecast_closed (P := fun x => x.get fld0 i0 j0 = s.get fld0 i0 j0) (field_closed fld0 i0 j0 _) hK  rfl

def Foot.loadEstimate (K : Part → Bool) : Bool := K (.fld .LN_ILE) && (K (.fld .v16h))

theorem loadEstimate_closed {K : Part → Bool} {P : State → Prop} {s : State} {r : Nat} (hP : Closed K P) (hK :
    Foot.loadEstimate K = true) (hs_s : P s) :
    P (loadEstimate s r) := by
  simp only [Foot.loadEstimate, Bool.and_eq_true] at hK
  obtain ⟨hK0, hK1⟩ := hK
  unfold loadEstimate
  with_reducible repeat' first
    | assumption
    | refine hP.put _ _ _ _ _ ?_ ?_
    | (extract_lets +onlyGivenNames x; apply thenHave (p := P x); (unfold x; clear x); rotate_left 1; (intro hx; clear_value x))
    | (extract_lets +onlyGivenNames x; clear_value x)
    | refine ite_closed ?_ ?_
    | split

theorem loadEstimate_get {s : State} {r : Nat} {fld0 : Fld} {i0 j0 : Nat} (hK : Foot.loadEstimate (notFld fld0) = true)  :
    (loadEstimate s r).get fld0 i0 j0 = s.get fld0 i0 j0 :=
  loadEstimate_closed (P := fun x => x.get fld0 i0 j0 = s.get fld0 i0 j0) (field_closed fld0 i0 j0 _) hK  rfl

def Foot.postForecast (K : Part → Bool) : Bool := K (.fld .DL_FLAG_BADMSG) && (K (.fld .DD_SSTAT_SEQ) && (K (.fld
    .DD_SSTAT_RAIL) && (K (.fld .slDl) && (K (.fld .slE) && (K (.fld .slS) && (K (.fld .DD_SDL) && (K (.fld .DD_SE) && (K
    (.fld .DD_SS) && (K (.fld .slPost) && (K (.fld .slAdm) && (K (.fld .slReq) && (K (.fld .DD_SDI) && (K (.fld .DD_SCON) &&
    (K (.fld .DD_SILE0) && (K (.fld .slOrd) && (K (.fld .DD_SSTAT_STATE) && (K (.fld .greqCtr) && (Foot.reply K &&
    (Foot.showRequest K && (Foot.startSlot K))))))))))))))))))))

theorem postForecast_closed {K : Part → Bool} {P : State → Prop} {s : State} {d : Nat} {f : BitVec 128} {ago : Nat} (hP :
    Closed K P) (hK : Foot.postForecast K = true) (hs_s : P s) :
    P (postForecast s d f ago) := by
  simp only [Foot.postForecast, Bool.and_eq_true] at hK
  obtain ⟨hK0, hK1, hK2, hK3, hK4, hK5, hK6, hK7, hK8, hK9, hK10, hK11, hK12, hK13, hK14, hK15, hK16, hK17, hK18, hK19, hK20⟩ := hK
  unfold postForecast
  with_reducible repeat' first
    | assumption
    | refine reply_closed hP ?_ ?_
    | refine showRequest_closed hP ?_ ?_
    | refine startSlot_closed hP ?_ ?_
    | refine hP.put _ _ _ _ _ ?_ ?_
    | refine hP.clear ?_ ?_
    | refine hP.raise ?_ ?_
    | intro _
    | (extract_lets +onlyGivenNames x; apply thenHave (p := P x); (unfold x; clear x); rotate_left 1; (intro hx; clear_value x))
    | (extract_lets +onlyGivenNames x; clear_value x)
    | refine ite_closed ?_ ?_
    | split

theorem postForecast_get {s : State} {d : Nat} {f : BitVec 128} {ago : Nat} {fld0 : Fld} {i0 j0 : Nat} (hK :
    Foot.postForecast (notFld fld0) = true)  : (postForecast s d f ago).get fld0 i0 j0 = s.get fld0 i0 j0 :=
  postForecast_closed (P := fun x => x.get fld0 i0 j0 = s.get fld0 i0 j0) (field_closed fld0 i0 j0 _) hK  rfl

def Foot.postStage (K : Part → Bool) : Bool := K (.fld .postNum) && (Foot.postForecast K)

theorem postStage_closed {K : Part → Bool} {P : State → Prop} {s : State} (hP : Closed K P) (hK : Foot.postStage K = true)
    (hs_s : P s) :
    P (postStage s) := by
  simp only [Foot.postStage, Bool.and_eq_true] at hK
  obtain ⟨hK0, hK1⟩ := hK
  unfold postStage
  with_reducible repeat' first
    | assumption
    | refine postForecast_closed hP ?_ ?_
    | refine hP.clear ?_ ?_
    | refine Closed.each ?_ _ ?_
    | intro _
    | (extract_lets +onlyGivenNames x; apply thenHave (p := P x); (unfold x; clear x); rotate_left 1; (intro hx; clear_value x))
    | (extract_lets +onlyGivenNames x; clear_value x)

theorem postStage_get {s : State} {fld0 : Fld} {i0 j0 : Nat} (hK : Foot.postStage (notFld fld0) = true)  : (postStage s).get
    fld0 i0 j0 = s.get fld0 i0 j0 :=
  postStage_closed (P := fun x => x.get fld0 i0 j0 = s.get fld0 i0 j0) (field_closed fld0 i0 j0 _) hK  rfl

def Foot.transfer (K : Part → Bool) : Bool := K (.fld .LN_INTEG) && (K (.fld .lnInteg) && (Foot.laneFlagIf K))

theorem transfer_closed {K : Part → Bool} {P : State → Prop} {s : State} {r : Nat} {con : Int} (hP : Closed K P) (hK :
    Foot.transfer K = true) (hs_s : P s) :
    P (transfer s r con) := by
  simp only [Foot.transfer, Bool.and_eq_true] at hK
  obtain ⟨hK0, hK1, hK2⟩ := hK
  unfold transfer
  with_reducible repeat' first
    | assumption
    | refine laneFlagIf_closed hP ?_ ?_
    | refine hP.put _ _ _ _ _ ?_ ?_
    | (extract_lets +onlyGivenNames x; apply thenHave (p := P x); (unfold x; clear x); rotate_left 1; (intro hx; clear_value x))
    | (extract_lets +onlyGivenNames x; clear_value x)

theorem transfer_get {s : State} {r : Nat} {con : Int} {fld0 : Fld} {i0 j0 : Nat} (hK : Foot.transfer (notFld fld0) = true) 
    : (transfer s r con).get fld0 i0 j0 = s.get fld0 i0 j0 :=
  transfer_closed (P := fun x => x.get fld0 i0 j0 = s.get fld0 i0 j0) (field_closed fld0 i0 j0 _) hK  rfl

def Foot.slotRun (K : Part → Bool) : Bool := K (.fld .LN_FCMET) && (K (.fld .DD_SCON) && (Foot.transfer K && (Foot.freeSlot K
    && (Foot.reply K))))

theorem slotRun_closed {K : Part → Bool} {P : State → Prop} {s : State} {d : Nat} {k : Nat} (hP : Closed K P) (hK :
    Foot.slotRun K = true) (hs_s : P s) :
    P (slotRun s d k) := by
  simp only [Foot.slotRun, Bool.and_eq_true] at hK
  obtain ⟨hK0, hK1, hK2, hK3, hK4⟩ := hK
  unfold slotRun
  with_reducible repeat' first
    | assumption
    | refine transfer_closed hP ?_ ?_
    | refine freeSlot_closed hP ?_ ?_
    | refine reply_closed hP ?_ ?_
    | refine hP.put _ _ _ _ _ ?_ ?_
    | refine hP.bump ?_ ?_
    | (extract_lets +onlyGivenNames x; apply thenHave (p := P x); (unfold x; clear x); rotate_left 1; (intro hx; clear_value x))
    | (extract_lets +onlyGivenNames x; clear_value x)
    | refine ite_closed ?_ ?_
    | split

theorem slotRun_get {s : State} {d : Nat} {k : Nat} {fld0 : Fld} {i0 j0 : Nat} (hK : Foot.slotRun (notFld fld0) = true)  :
    (slotRun s d k).get fld0 i0 j0 = s.get fld0 i0 j0 :=
  slotRun_closed (P := fun x => x.get fld0 i0 j0 = s.get fld0 i0 j0) (field_closed fld0 i0 j0 _) hK  rfl

def Foot.feedForward (K : Part → Bool) : Bool := K (.fld .ffcIn) && (K (.fld .LN_FCFLAG_FSAT))

theorem feedForward_closed {K : Part → Bool} {P : State → Prop} {s : State} {r : Nat} (hP : Closed K P) (hK :
    Foot.feedForward K = true) (hs_s : P s) :
    P (feedForward s r) := by
  simp only [Foot.feedForward, Bool.and_eq_true] at hK
  obtain ⟨hK0, hK1⟩ := hK
  unfold feedForward
  with_reducible repeat' first
    | assumption
    | refine hP.put _ _ _ _ _ ?_ ?_
    | refine hP.raise ?_ ?_
    | refine Closed.when ?_ ?_
    | intro _
    | (extract_lets +onlyGivenNames x; apply thenHave (p := P x); (unfold x; clear x); rotate_left 1; (intro hx; clear_value x))
    | (extract_lets +onlyGivenNames x; clear_value x)
    | refine ite_closed ?_ ?_
    | split

theorem feedForward_get {s : State} {r : Nat} {fld0 : Fld} {i0 j0 : Nat} (hK : Foot.feedForward (notFld fld0) = true)  :
    (feedForward s r).get fld0 i0 j0 = s.get fld0 i0 j0 :=
  feedForward_closed (P := fun x => x.get fld0 i0 j0 = s.get fld0 i0 j0) (field_closed fld0 i0 j0 _) hK  rfl

def Foot.forecastRun (K : Part → Bool) : Bool := K (.fld .forcedAt) && (K (.fld .fbReq) && (Foot.slotRun K &&
    (Foot.feedForward K)))

theorem forecastRun_closed {K : Part → Bool} {P : State → Prop} {s : State} (hP : Closed K P) (hK : Foot.forecastRun K =
    true) (hs_s : P s) :
    P (forecastRun s) := by
  simp only [Foot.forecastRun, Bool.and_eq_true] at hK
  obtain ⟨hK0, hK1, hK2, hK3⟩ := hK
  unfold forecastRun
  with_reducible repeat' first
    | assumption
    | refine slotRun_closed hP ?_ ?_
    | refine feedForward_closed hP ?_ ?_
    | refine hP.put _ _ _ _ _ ?_ ?_
    | refine hP.clear ?_ ?_
    | refine Closed.each ?_ _ ?_
    | refine Closed.when ?_ ?_
    | intro _
    | (extract_lets +onlyGivenNames x; apply thenHave (p := P x); (unfold x; clear x); rotate_left 1; (intro hx; clear_value x))
    | (extract_lets +onlyGivenNames x; clear_value x)

theorem forecastRun_get {s : State} {fld0 : Fld} {i0 j0 : Nat} (hK : Foot.forecastRun (notFld fld0) = true)  : (forecastRun
    s).get fld0 i0 j0 = s.get fld0 i0 j0 :=
  forecastRun_closed (P := fun x => x.get fld0 i0 j0 = s.get fld0 i0 j0) (field_closed fld0 i0 j0 _) hK  rfl

def Foot.freeStopped (K : Part → Bool) : Bool := Foot.freeSlot K

theorem freeStopped_closed {K : Part → Bool} {P : State → Prop} {s : State} (hP : Closed K P) (hK : Foot.freeStopped K =
    true) (hs_s : P s) :
    P (freeStopped s) := by
  simp only [Foot.freeStopped, Bool.and_eq_true] at hK
  unfold freeStopped
  with_reducible repeat' first
    | assumption
    | refine freeSlot_closed hP ?_ ?_
    | refine Closed.each ?_ _ ?_
    | intro _

theorem freeStopped_get {s : State} {fld0 : Fld} {i0 j0 : Nat} (hK : Foot.freeStopped (notFld fld0) = true)  : (freeStopped
    s).get fld0 i0 j0 = s.get fld0 i0 j0 :=
  freeStopped_closed (P := fun x => x.get fld0 i0 j0 = s.get fld0 i0 j0) (field_closed fld0 i0 j0 _) hK  rfl

def Foot.laneBoundary (K : Part → Bool) : Bool := K (.fld .lossReq) && (K (.fld .lkLock) && (K (.fld .DL_FLAG_LOSS) && (K
    (.fld .DL_STATE_STATE) && (Foot.dropLane K))))

theorem laneBoundary_closed {K : Part → Bool} {P : State → Prop} {s : State} {l : Nat} (hP : Closed K P) (hK :
    Foot.laneBoundary K = true) (hs_s : P s) :
    P (laneBoundary s l) := by
  simp only [Foot.laneBoundary, Bool.and_eq_true] at hK
  obtain ⟨hK0, hK1, hK2, hK3, hK4⟩ := hK
  unfold laneBoundary
  with_reducible repeat' first
    | assumption
    | refine dropLane_closed hP ?_ ?_
    | refine hP.put _ _ _ _ _ ?_ ?_
    | refine hP.clear ?_ ?_
    | refine hP.raise ?_ ?_
    | (extract_lets +onlyGivenNames x; apply thenHave (p := P x); (unfold x; clear x); rotate_left 1; (intro hx; clear_value x))
    | (extract_lets +onlyGivenNames x; clear_value x)
    | refine ite_closed ?_ ?_
    | split

theorem laneBoundary_get {s : State} {l : Nat} {fld0 : Fld} {i0 j0 : Nat} (hK : Foot.laneBoundary (notFld fld0) = true)  :
    (laneBoundary s l).get fld0 i0 j0 = s.get fld0 i0 j0 :=
  laneBoundary_closed (P := fun x => x.get fld0 i0 j0 = s.get fld0 i0 j0) (field_closed fld0 i0 j0 _) hK  rfl

def Foot.timeoutGrants (K : Part → Bool) : Bool := Foot.freeSlot K && (Foot.reply K)

theorem timeoutGrants_closed {K : Part → Bool} {P : State → Prop} {s : State} {d : Nat} (hP : Closed K P) (hK :
    Foot.timeoutGrants K = true) (hs_s : P s) :
    P (timeoutGrants s d) := by
  simp only [Foot.timeoutGrants, Bool.and_eq_true] at hK
  obtain ⟨hK0, hK1⟩ := hK
  unfold timeoutGrants
  with_reducible repeat' first
    | assumption
    | refine freeSlot_closed hP ?_ ?_
    | refine reply_closed hP ?_ ?_
    | refine Closed.each ?_ _ ?_
    | intro _

theorem timeoutGrants_get {s : State} {d : Nat} {fld0 : Fld} {i0 j0 : Nat} (hK : Foot.timeoutGrants (notFld fld0) = true)  :
    (timeoutGrants s d).get fld0 i0 j0 = s.get fld0 i0 j0 :=
  timeoutGrants_closed (P := fun x => x.get fld0 i0 j0 = s.get fld0 i0 j0) (field_closed fld0 i0 j0 _) hK  rfl

def Foot.execActivity (K : Part → Bool) : Bool := Foot.activity K

theorem execActivity_closed {K : Part → Bool} {P : State → Prop} {d : Domain} {f : BitVec 128} {s : State} (hP : Closed K P)
    (hK : Foot.execActivity K = true) (hs_s : P s) :
    OutAll P (execActivity d f s) := by
  simp only [Foot.execActivity, Bool.and_eq_true] at hK
  unfold execActivity
  with_reducible repeat' first
    | assumption
    | refine activity_closed hP ?_ ?_
    | refine OutAll.mk ?_

def Foot.execBlockLockGained (K : Part → Bool) : Bool := Foot.blockLockGained K

theorem execBlockLockGained_closed {K : Part → Bool} {P : State → Prop} {d : Domain} {s : State} (hP : Closed K P) (hK :
    Foot.execBlockLockGained K = true) (hs_s : P s) :
    OutAll P (execBlockLockGained d s) := by
  simp only [Foot.execBlockLockGained, Bool.and_eq_true] at hK
  unfold execBlockLockGained
  with_reducible repeat' first
    | assumption
    | refine blockLockGained_closed hP ?_ ?_
    | refine OutAll.mk ?_

def Foot.execBlockLockLost (K : Part → Bool) : Bool := Foot.blockLockLost K

theorem execBlockLockLost_closed {K : Part → Bool} {P : State → Prop} {d : Domain} {s : State} (hP : Closed K P) (hK :
    Foot.execBlockLockLost K = true) (hs_s : P s) :
    OutAll P (execBlockLockLost d s) := by
  simp only [Foot.execBlockLockLost, Bool.and_eq_true] at hK
  unfold execBlockLockLost
  with_reducible repeat' first
    | assumption
    | refine blockLockLost_closed hP ?_ ?_
    | refine OutAll.mk ?_

def Foot.flitCrcError (K : Part → Bool) : Bool := K (.fld .crcRun) && (K (.fld .DL_CRCERR) && (K (.fld .DL_FLAG_CRCRUN) &&
    (Foot.laneLoss K)))

theorem flitCrcError_closed {K : Part → Bool} {P : State → Prop} {s : State} {l : Nat} {f : BitVec 128} (hP : Closed K P) (hK
    : Foot.flitCrcError K = true) (hs_s : P s) :
    P (flitCrcError s l f) := by
  simp only [Foot.flitCrcError, Bool.and_eq_true] at hK
  obtain ⟨hK0, hK1, hK2, hK3⟩ := hK
  unfold flitCrcError
  with_reducible repeat' first
    | assumption
    | refine laneLoss_closed hP ?_ ?_
    | refine hP.clear ?_ ?_
    | refine hP.raise ?_ ?_
    | refine hP.bump ?_ ?_
    | (extract_lets +onlyGivenNames x; apply thenHave (p := P x); (unfold x; clear x); rotate_left 1; (intro hx; clear_value x))
    | (extract_lets +onlyGivenNames x; clear_value x)
    | refine ite_closed ?_ ?_
    | split

theorem flitCrcError_get {s : State} {l : Nat} {f : BitVec 128} {fld0 : Fld} {i0 j0 : Nat} (hK : Foot.flitCrcError (notFld
    fld0) = true)  : (flitCrcError s l f).get fld0 i0 j0 = s.get fld0 i0 j0 :=
  flitCrcError_closed (P := fun x => x.get fld0 i0 j0 = s.get fld0 i0 j0) (field_closed fld0 i0 j0 _) hK  rfl

def Foot.execFlitCrcError (K : Part → Bool) : Bool := Foot.flitCrcError K

theorem execFlitCrcError_closed {K : Part → Bool} {P : State → Prop} {d : Domain} {f : BitVec 128} {s : State} (hP : Closed K
    P) (hK : Foot.execFlitCrcError K = true) (hs_s : P s) :
    OutAll P (execFlitCrcError d f s) := by
  simp only [Foot.execFlitCrcError, Bool.and_eq_true] at hK
  unfold execFlitCrcError
  with_reducible repeat' first
    | assumption
    | refine flitCrcError_closed hP ?_ ?_
    | refine OutAll.mk ?_

def Foot.flitTransmit (K : Part → Bool) : Bool := K .txFlits && (K (.fld .txLast) && (K (.fld .DL_TXSEQ)))

theorem flitTransmit_closed {K : Part → Bool} {P : State → Prop} {s : State} {l : Nat} (hP : Closed K P) (hK :
    Foot.flitTransmit K = true) (hs_s : P s) :
    P (flitTransmit s l) := by
  simp only [Foot.flitTransmit, Bool.and_eq_true] at hK
  obtain ⟨hK0, hK1, hK2⟩ := hK
  unfold flitTransmit
  with_reducible repeat' first
    | assumption
    | refine hP.put _ _ _ _ _ ?_ ?_
    | intro _
    | (extract_lets +onlyGivenNames x; apply thenHave (p := P x); (unfold x; clear x); rotate_left 1; (intro hx; clear_value x))
    | (extract_lets +onlyGivenNames x; clear_value x)
    | refine hP.remake _ _ _ _ _ _ _ _ _ _ _ _ _ _ _ _ _ _ _ _ _ _ _ (hs := ?_); first | assumption | (with_reducible refine hP.put _ _ _ _ _ ?_ ?_) | (with_reducible refine hP.clear ?_ ?_) | (with_reducible refine hP.raise ?_ ?_) | (with_reducible refine hP.bump ?_ ?_) | (with_reducible refine hP.setBits ?_ ?_) | (with_reducible refine hP.clrBits ?_ ?_)
    | refine ite_closed ?_ ?_
    | split

theorem flitTransmit_get {s : State} {l : Nat} {fld0 : Fld} {i0 j0 : Nat} (hK : Foot.flitTransmit (notFld fld0) = true)  :
    (flitTransmit s l).get fld0 i0 j0 = s.get fld0 i0 j0 :=
  flitTransmit_closed (P := fun x => x.get fld0 i0 j0 = s.get fld0 i0 j0) (field_closed fld0 i0 j0 _) hK  rfl

def Foot.execFlitTransmit (K : Part → Bool) : Bool := Foot.flitTransmit K

theorem execFlitTransmit_closed {K : Part → Bool} {P : State → Prop} {d : Domain} {s : State} (hP : Closed K P) (hK :
    Foot.execFlitTransmit K = true) (hs_s : P s) :
    OutAll P (execFlitTransmit d s) := by
  simp only [Foot.execFlitTransmit, Bool.and_eq_true] at hK
  unfold execFlitTransmit
  with_reducible repeat' first
    | assumption
    | refine flitTransmit_closed hP ?_ ?_
    | refine OutAll.mk ?_

def Foot.takeForecast (K : Part → Bool) : Bool := K (.fld .postFrom) && (K (.fld .postFlit) && (K (.fld .postNum) &&
    (Foot.postForecast K)))

theorem takeForecast_closed {K : Part → Bool} {P : State → Prop} {s : State} {d : Nat} {f : BitVec 128} {ago : Nat} {cyc :
    Nat} (hP : Closed K P) (hK : Foot.takeForecast K = true) (hs_s : P s) :
    P (takeForecast s d f ago cyc) := by
  simp only [Foot.takeForecast, Bool.and_eq_true] at hK
  obtain ⟨hK0, hK1, hK2, hK3⟩ := hK
  unfold takeForecast
  with_reducible repeat' first
    | assumption
    | refine postForecast_closed hP ?_ ?_
    | refine hP.put _ _ _ _ _ ?_ ?_
    | (extract_lets +onlyGivenNames x; apply thenHave (p := P x); (unfold x; clear x); rotate_left 1; (intro hx; clear_value x))
    | (extract_lets +onlyGivenNames x; clear_value x)
    | refine ite_closed ?_ ?_
    | split

theorem takeForecast_get {s : State} {d : Nat} {f : BitVec 128} {ago : Nat} {cyc : Nat} {fld0 : Fld} {i0 j0 : Nat} (hK :
    Foot.takeForecast (notFld fld0) = true)  : (takeForecast s d f ago cyc).get fld0 i0 j0 = s.get fld0 i0 j0 :=
  takeForecast_closed (P := fun x => x.get fld0 i0 j0 = s.get fld0 i0 j0) (field_closed fld0 i0 j0 _) hK  rfl

def Foot.forecast (K : Part → Bool) : Bool := Foot.acceptFlit K && (Foot.takeForecast K)

theorem forecast_closed {K : Part → Bool} {P : State → Prop} {s : State} {l : Nat} {f : BitVec 128} {ago : Nat} {cyc : Nat}
    (hP : Closed K P) (hK : Foot.forecast K = true) (hs_s : P s) :
    P (forecast s l f ago cyc) := by
  simp only [Foot.forecast, Bool.and_eq_true] at hK
  obtain ⟨hK0, hK1⟩ := hK
  unfold forecast
  with_reducible repeat' first
    | assumption
    | refine acceptFlit_closed hP ?_ ?_
    | refine takeForecast_closed hP ?_ ?_
    | (dsimp -zeta only)
    | refine of_snd (by assumption) ?_
    | refine of_fst (by assumption) ?_
    | refine of_mid (by assumption) ?_
    | refine of_trd (by assumption) ?_
    | refine of_fth (by assumption) ?_
    | intro _
    | (extract_lets +onlyGivenNames x; apply thenHave (p := P x); (unfold x; clear x); rotate_left 1; (intro hx; clear_value x))
    | (extract_lets +onlyGivenNames x; apply thenHave (p := P x.2); (unfold x; clear x); rotate_left 1; (intro hx; clear_value x))
    | (extract_lets +onlyGivenNames x; apply thenHave (p := P x.1); (unfold x; clear x); rotate_left 1; (intro hx; clear_value x))
    | (extract_lets +onlyGivenNames x; apply thenHave (p := P x.2.1); (unfold x; clear x); rotate_left 1; (intro hx; clear_value x))
    | (extract_lets +onlyGivenNames x; apply thenHave (p := P x.2.2); (unfold x; clear x); rotate_left 1; (intro hx; clear_value x))
    | (extract_lets +onlyGivenNames x; clear_value x)
    | (extract_lets +onlyGivenNames x)
    | refine ite_closed ?_ ?_
    | split

theorem forecast_get {s : State} {l : Nat} {f : BitVec 128} {ago : Nat} {cyc : Nat} {fld0 : Fld} {i0 j0 : Nat} (hK :
    Foot.forecast (notFld fld0) = true)  : (forecast s l f ago cyc).get fld0 i0 j0 = s.get fld0 i0 j0 :=
  forecast_closed (P := fun x => x.get fld0 i0 j0 = s.get fld0 i0 j0) (field_closed fld0 i0 j0 _) hK  rfl

def Foot.execForecast (K : Part → Bool) : Bool := Foot.forecast K

theorem execForecast_closed {K : Part → Bool} {P : State → Prop} {d : Domain} {f : BitVec 128} {ago : Fin 4} {cyc : Fin 4} {s
    : State} (hP : Closed K P) (hK : Foot.execForecast K = true) (hs_s : P s) :
    OutAll P (execForecast d f ago cyc s) := by
  simp only [Foot.execForecast, Bool.and_eq_true] at hK
  unfold execForecast
  with_reducible repeat' first
    | assumption
    | refine forecast_closed hP ?_ ?_
    | refine OutAll.mk ?_

def Foot.forecastCancel (K : Part → Bool) : Bool := Foot.acceptFlit K && (Foot.cancelForecast K)

theorem forecastCancel_closed {K : Part → Bool} {P : State → Prop} {s : State} {l : Nat} {f : BitVec 128} (hP : Closed K P)
    (hK : Foot.forecastCancel K = true) (hs_s : P s) :
    P (forecastCancel s l f) := by
  simp only [Foot.forecastCancel, Bool.and_eq_true] at hK
  obtain ⟨hK0, hK1⟩ := hK
  unfold forecastCancel
  with_reducible repeat' first
    | assumption
    | refine acceptFlit_closed hP ?_ ?_
    | refine cancelForecast_closed hP ?_ ?_
    | (dsimp -zeta only)
    | refine of_snd (by assumption) ?_
    | refine of_fst (by assumption) ?_
    | refine of_mid (by assumption) ?_
    | refine of_trd (by assumption) ?_
    | refine of_fth (by assumption) ?_
    | intro _
    | (extract_lets +onlyGivenNames x; apply thenHave (p := P x); (unfold x; clear x); rotate_left 1; (intro hx; clear_value x))
    | (extract_lets +onlyGivenNames x; apply thenHave (p := P x.2); (unfold x; clear x); rotate_left 1; (intro hx; clear_value x))
    | (extract_lets +onlyGivenNames x; apply thenHave (p := P x.1); (unfold x; clear x); rotate_left 1; (intro hx; clear_value x))
    | (extract_lets +onlyGivenNames x; apply thenHave (p := P x.2.1); (unfold x; clear x); rotate_left 1; (intro hx; clear_value x))
    | (extract_lets +onlyGivenNames x; apply thenHave (p := P x.2.2); (unfold x; clear x); rotate_left 1; (intro hx; clear_value x))
    | (extract_lets +onlyGivenNames x; clear_value x)
    | (extract_lets +onlyGivenNames x)
    | refine ite_closed ?_ ?_
    | split

theorem forecastCancel_get {s : State} {l : Nat} {f : BitVec 128} {fld0 : Fld} {i0 j0 : Nat} (hK : Foot.forecastCancel
    (notFld fld0) = true)  : (forecastCancel s l f).get fld0 i0 j0 = s.get fld0 i0 j0 :=
  forecastCancel_closed (P := fun x => x.get fld0 i0 j0 = s.get fld0 i0 j0) (field_closed fld0 i0 j0 _) hK  rfl

def Foot.execForecastCancel (K : Part → Bool) : Bool := Foot.forecastCancel K

theorem execForecastCancel_closed {K : Part → Bool} {P : State → Prop} {d : Domain} {f : BitVec 128} {s : State} (hP : Closed
    K P) (hK : Foot.execForecastCancel K = true) (hs_s : P s) :
    OutAll P (execForecastCancel d f s) := by
  simp only [Foot.execForecastCancel, Bool.and_eq_true] at hK
  unfold execForecastCancel
  with_reducible repeat' first
    | assumption
    | refine forecastCancel_closed hP ?_ ?_
    | refine OutAll.mk ?_

def Foot.forecastMet (K : Part → Bool) : Bool := K (.fld .slMet)

theorem forecastMet_closed {K : Part → Bool} {P : State → Prop} {s : State} {d : Nat} {k : Nat} (hP : Closed K P) (hK :
    Foot.forecastMet K = true) (hs_s : P s) :
    P (forecastMet s d k) := by
  simp only [Foot.forecastMet, Bool.and_eq_true] at hK
  unfold forecastMet
  with_reducible repeat' first
    | assumption
    | refine hP.raise ?_ ?_
    | refine ite_closed ?_ ?_
    | split

theorem forecastMet_get {s : State} {d : Nat} {k : Nat} {fld0 : Fld} {i0 j0 : Nat} (hK : Foot.forecastMet (notFld fld0) =
    true)  : (forecastMet s d k).get fld0 i0 j0 = s.get fld0 i0 j0 :=
  forecastMet_closed (P := fun x => x.get fld0 i0 j0 = s.get fld0 i0 j0) (field_closed fld0 i0 j0 _) hK  rfl

def Foot.execForecastMet (K : Part → Bool) : Bool := Foot.forecastMet K

theorem execForecastMet_closed {K : Part → Bool} {P : State → Prop} {d : Domain} {k : Fin 8} {s : State} (hP : Closed K P)
    (hK : Foot.execForecastMet K = true) (hs_s : P s) :
    OutAll P (execForecastMet d k s) := by
  simp only [Foot.execForecastMet, Bool.and_eq_true] at hK
  unfold execForecastMet
  with_reducible repeat' first
    | assumption
    | refine forecastMet_closed hP ?_ ?_
    | refine OutAll.mk ?_

def Foot.forecastMissed (K : Part → Bool) : Bool := K (.fld .LN_FCFLAG_MISS) && (K (.fld .LN_FCMISS) && (K (.fld
    .DD_SSTAT_STATE) && (Foot.reply K)))

theorem forecastMissed_closed {K : Part → Bool} {P : State → Prop} {s : State} {d : Nat} {k : Nat} (hP : Closed K P) (hK :
    Foot.forecastMissed K = true) (hs_s : P s) :
    P (forecastMissed s d k) := by
  simp only [Foot.forecastMissed, Bool.and_eq_true] at hK
  obtain ⟨hK0, hK1, hK2, hK3⟩ := hK
  unfold forecastMissed
  with_reducible repeat' first
    | assumption
    | refine reply_closed hP ?_ ?_
    | refine hP.put _ _ _ _ _ ?_ ?_
    | refine hP.raise ?_ ?_
    | refine hP.bump ?_ ?_
    | (extract_lets +onlyGivenNames x; apply thenHave (p := P x); (unfold x; clear x); rotate_left 1; (intro hx; clear_value x))
    | (extract_lets +onlyGivenNames x; clear_value x)
    | refine ite_closed ?_ ?_
    | split

theorem forecastMissed_get {s : State} {d : Nat} {k : Nat} {fld0 : Fld} {i0 j0 : Nat} (hK : Foot.forecastMissed (notFld fld0)
    = true)  : (forecastMissed s d k).get fld0 i0 j0 = s.get fld0 i0 j0 :=
  forecastMissed_closed (P := fun x => x.get fld0 i0 j0 = s.get fld0 i0 j0) (field_closed fld0 i0 j0 _) hK  rfl

def Foot.execForecastMissed (K : Part → Bool) : Bool := Foot.forecastMissed K

theorem execForecastMissed_closed {K : Part → Bool} {P : State → Prop} {d : Domain} {k : Fin 8} {s : State} (hP : Closed K P)
    (hK : Foot.execForecastMissed K = true) (hs_s : P s) :
    OutAll P (execForecastMissed d k s) := by
  simp only [Foot.execForecastMissed, Bool.and_eq_true] at hK
  unfold execForecastMissed
  with_reducible repeat' first
    | assumption
    | refine forecastMissed_closed hP ?_ ?_
    | refine OutAll.mk ?_

def Foot.execGrant (K : Part → Bool) : Bool := Foot.grantDecide K

theorem execGrant_closed {K : Part → Bool} {P : State → Prop} {d : Domain} {amt : BitVec 22} {s : State} (hP : Closed K P)
    (hK : Foot.execGrant K = true) (hs_s : P s) :
    OutAll P (execGrant d amt s) := by
  simp only [Foot.execGrant, Bool.and_eq_true] at hK
  unfold execGrant
  with_reducible repeat' first
    | assumption
    | refine grantDecide_closed hP ?_ ?_
    | refine OutAll.mk ?_

def Foot.grantRequest (K : Part → Bool) : Bool := Foot.acceptFlit K && (Foot.takeForecast K)

theorem grantRequest_closed {K : Part → Bool} {P : State → Prop} {s : State} {l : Nat} {f : BitVec 128} {ago : Nat} {cyc :
    Nat} (hP : Closed K P) (hK : Foot.grantRequest K = true) (hs_s : P s) :
    P (grantRequest s l f ago cyc) := by
  simp only [Foot.grantRequest, Bool.and_eq_true] at hK
  obtain ⟨hK0, hK1⟩ := hK
  unfold grantRequest
  with_reducible repeat' first
    | assumption
    | refine acceptFlit_closed hP ?_ ?_
    | refine takeForecast_closed hP ?_ ?_
    | (dsimp -zeta only)
    | refine of_snd (by assumption) ?_
    | refine of_fst (by assumption) ?_
    | refine of_mid (by assumption) ?_
    | refine of_trd (by assumption) ?_
    | refine of_fth (by assumption) ?_
    | intro _
    | (extract_lets +onlyGivenNames x; apply thenHave (p := P x); (unfold x; clear x); rotate_left 1; (intro hx; clear_value x))
    | (extract_lets +onlyGivenNames x; apply thenHave (p := P x.2); (unfold x; clear x); rotate_left 1; (intro hx; clear_value x))
    | (extract_lets +onlyGivenNames x; apply thenHave (p := P x.1); (unfold x; clear x); rotate_left 1; (intro hx; clear_value x))
    | (extract_lets +onlyGivenNames x; apply thenHave (p := P x.2.1); (unfold x; clear x); rotate_left 1; (intro hx; clear_value x))
    | (extract_lets +onlyGivenNames x; apply thenHave (p := P x.2.2); (unfold x; clear x); rotate_left 1; (intro hx; clear_value x))
    | (extract_lets +onlyGivenNames x; clear_value x)
    | (extract_lets +onlyGivenNames x)
    | refine ite_closed ?_ ?_
    | split

theorem grantRequest_get {s : State} {l : Nat} {f : BitVec 128} {ago : Nat} {cyc : Nat} {fld0 : Fld} {i0 j0 : Nat} (hK :
    Foot.grantRequest (notFld fld0) = true)  : (grantRequest s l f ago cyc).get fld0 i0 j0 = s.get fld0 i0 j0 :=
  grantRequest_closed (P := fun x => x.get fld0 i0 j0 = s.get fld0 i0 j0) (field_closed fld0 i0 j0 _) hK  rfl

def Foot.execGrantRequest (K : Part → Bool) : Bool := Foot.grantRequest K

theorem execGrantRequest_closed {K : Part → Bool} {P : State → Prop} {d : Domain} {f : BitVec 128} {ago : Fin 4} {cyc : Fin
    4} {s : State} (hP : Closed K P) (hK : Foot.execGrantRequest K = true) (hs_s : P s) :
    OutAll P (execGrantRequest d f ago cyc s) := by
  simp only [Foot.execGrantRequest, Bool.and_eq_true] at hK
  unfold execGrantRequest
  with_reducible repeat' first
    | assumption
    | refine grantRequest_closed hP ?_ ?_
    | refine OutAll.mk ?_

def Foot.grantTimeout (K : Part → Bool) : Bool := Foot.freeSlot K && (Foot.reply K)

theorem grantTimeout_closed {K : Part → Bool} {P : State → Prop} {s : State} {d : Nat} {k : Nat} (hP : Closed K P) (hK :
    Foot.grantTimeout K = true) (hs_s : P s) :
    P (grantTimeout s d k) := by
  simp only [Foot.grantTimeout, Bool.and_eq_true] at hK
  obtain ⟨hK0, hK1⟩ := hK
  unfold grantTimeout
  with_reducible repeat' first
    | assumption
    | refine freeSlot_closed hP ?_ ?_
    | refine reply_closed hP ?_ ?_
    | refine ite_closed ?_ ?_
    | split

theorem grantTimeout_get {s : State} {d : Nat} {k : Nat} {fld0 : Fld} {i0 j0 : Nat} (hK : Foot.grantTimeout (notFld fld0) =
    true)  : (grantTimeout s d k).get fld0 i0 j0 = s.get fld0 i0 j0 :=
  grantTimeout_closed (P := fun x => x.get fld0 i0 j0 = s.get fld0 i0 j0) (field_closed fld0 i0 j0 _) hK  rfl

def Foot.execGrantTimeout (K : Part → Bool) : Bool := Foot.grantTimeout K

theorem execGrantTimeout_closed {K : Part → Bool} {P : State → Prop} {d : Domain} {k : Fin 8} {s : State} (hP : Closed K P)
    (hK : Foot.execGrantTimeout K = true) (hs_s : P s) :
    OutAll P (execGrantTimeout d k s) := by
  simp only [Foot.execGrantTimeout, Bool.and_eq_true] at hK
  unfold execGrantTimeout
  with_reducible repeat' first
    | assumption
    | refine grantTimeout_closed hP ?_ ?_
    | refine OutAll.mk ?_

def Foot.newEpoch (K : Part → Bool) : Bool := K (.fld .slMet) && (K (.fld .DD_SSTAT_STATE) && (Foot.showRequest K))

theorem newEpoch_closed {K : Part → Bool} {P : State → Prop} {s : State} {d : Nat} (hP : Closed K P) (hK : Foot.newEpoch K =
    true) (hs_s : P s) :
    P (newEpoch s d) := by
  simp only [Foot.newEpoch, Bool.and_eq_true] at hK
  obtain ⟨hK0, hK1, hK2⟩ := hK
  unfold newEpoch
  with_reducible repeat' first
    | assumption
    | refine showRequest_closed hP ?_ ?_
    | refine hP.put _ _ _ _ _ ?_ ?_
    | refine hP.clear ?_ ?_
    | refine Closed.each ?_ _ ?_
    | intro _
    | (extract_lets +onlyGivenNames x; apply thenHave (p := P x); (unfold x; clear x); rotate_left 1; (intro hx; clear_value x))
    | (extract_lets +onlyGivenNames x; clear_value x)

theorem newEpoch_get {s : State} {d : Nat} {fld0 : Fld} {i0 j0 : Nat} (hK : Foot.newEpoch (notFld fld0) = true)  : (newEpoch
    s d).get fld0 i0 j0 = s.get fld0 i0 j0 :=
  newEpoch_closed (P := fun x => x.get fld0 i0 j0 = s.get fld0 i0 j0) (field_closed fld0 i0 j0 _) hK  rfl

def Foot.queueHello (K : Part → Bool) : Bool := Foot.queueFlit K

theorem queueHello_closed {K : Part → Bool} {P : State → Prop} {s : State} {l : Nat} (hP : Closed K P) (hK : Foot.queueHello
    K = true) (hs_s : P s) :
    P (queueHello s l) := by
  simp only [Foot.queueHello, Bool.and_eq_true] at hK
  unfold queueHello
  with_reducible repeat' first
    | assumption
    | refine queueFlit_closed hP ?_ ?_
    | intro _
    | split

theorem queueHello_get {s : State} {l : Nat} {fld0 : Fld} {i0 j0 : Nat} (hK : Foot.queueHello (notFld fld0) = true)  :
    (queueHello s l).get fld0 i0 j0 = s.get fld0 i0 j0 :=
  queueHello_closed (P := fun x => x.get fld0 i0 j0 = s.get fld0 i0 j0) (field_closed fld0 i0 j0 _) hK  rfl

def Foot.hello (K : Part → Bool) : Bool := K (.fld .katAt) && (K (.fld .crcRun) && (K (.fld .DL_STATE_RXSEQ) && (K (.fld
    .DL_STATE_EPOCH) && (K (.fld .telAt) && (K (.fld .DL_STATE_STATE) && (K (.fld .DL_FLAG_NEWEPOCH) && (Foot.newEpoch K &&
    (Foot.queueHello K))))))))

theorem hello_closed {K : Part → Bool} {P : State → Prop} {s : State} {l : Nat} {f : BitVec 128} (hP : Closed K P) (hK :
    Foot.hello K = true) (hs_s : P s) :
    P (hello s l f) := by
  simp only [Foot.hello, Bool.and_eq_true] at hK
  obtain ⟨hK0, hK1, hK2, hK3, hK4, hK5, hK6, hK7, hK8⟩ := hK
  unfold hello
  with_reducible repeat' first
    | assumption
    | refine newEpoch_closed hP ?_ ?_
    | refine queueHello_closed hP ?_ ?_
    | refine hP.put _ _ _ _ _ ?_ ?_
    | refine hP.clear ?_ ?_
    | refine hP.raise ?_ ?_
    | (extract_lets +onlyGivenNames x; apply thenHave (p := P x); (unfold x; clear x); rotate_left 1; (intro hx; clear_value x))
    | (extract_lets +onlyGivenNames x; clear_value x)
    | refine ite_closed ?_ ?_
    | split

theorem hello_get {s : State} {l : Nat} {f : BitVec 128} {fld0 : Fld} {i0 j0 : Nat} (hK : Foot.hello (notFld fld0) = true)  :
    (hello s l f).get fld0 i0 j0 = s.get fld0 i0 j0 :=
  hello_closed (P := fun x => x.get fld0 i0 j0 = s.get fld0 i0 j0) (field_closed fld0 i0 j0 _) hK  rfl

def Foot.execHello (K : Part → Bool) : Bool := Foot.hello K

theorem execHello_closed {K : Part → Bool} {P : State → Prop} {d : Domain} {f : BitVec 128} {s : State} (hP : Closed K P) (hK
    : Foot.execHello K = true) (hs_s : P s) :
    OutAll P (execHello d f s) := by
  simp only [Foot.execHello, Bool.and_eq_true] at hK
  unfold execHello
  with_reducible repeat' first
    | assumption
    | refine hello_closed hP ?_ ?_
    | refine OutAll.mk ?_

def Foot.helloTransmit (K : Part → Bool) : Bool := K (.fld .helloAt) && (Foot.queueHello K)

theorem helloTransmit_closed {K : Part → Bool} {P : State → Prop} {s : State} {l : Nat} (hP : Closed K P) (hK :
    Foot.helloTransmit K = true) (hs_s : P s) :
    P (helloTransmit s l) := by
  simp only [Foot.helloTransmit, Bool.and_eq_true] at hK
  obtain ⟨hK0, hK1⟩ := hK
  unfold helloTransmit
  with_reducible repeat' first
    | assumption
    | refine queueHello_closed hP ?_ ?_
    | refine hP.put _ _ _ _ _ ?_ ?_
    | refine ite_closed ?_ ?_
    | split

theorem helloTransmit_get {s : State} {l : Nat} {fld0 : Fld} {i0 j0 : Nat} (hK : Foot.helloTransmit (notFld fld0) = true)  :
    (helloTransmit s l).get fld0 i0 j0 = s.get fld0 i0 j0 :=
  helloTransmit_closed (P := fun x => x.get fld0 i0 j0 = s.get fld0 i0 j0) (field_closed fld0 i0 j0 _) hK  rfl

def Foot.execHelloTransmit (K : Part → Bool) : Bool := Foot.helloTransmit K

theorem execHelloTransmit_closed {K : Part → Bool} {P : State → Prop} {d : Domain} {s : State} (hP : Closed K P) (hK :
    Foot.execHelloTransmit K = true) (hs_s : P s) :
    OutAll P (execHelloTransmit d s) := by
  simp only [Foot.execHelloTransmit, Bool.and_eq_true] at hK
  unfold execHelloTransmit
  with_reducible repeat' first
    | assumption
    | refine helloTransmit_closed hP ?_ ?_
    | refine OutAll.mk ?_

def Foot.holdStart (K : Part → Bool) : Bool := K (.fld .DD_SSTAT_STATE)

theorem holdStart_closed {K : Part → Bool} {P : State → Prop} {s : State} {d : Nat} {k : Nat} (hP : Closed K P) (hK :
    Foot.holdStart K = true) (hs_s : P s) :
    P (holdStart s d k) := by
  simp only [Foot.holdStart, Bool.and_eq_true] at hK
  unfold holdStart
  with_reducible repeat' first
    | assumption
    | refine hP.put _ _ _ _ _ ?_ ?_
    | refine ite_closed ?_ ?_
    | split

theorem holdStart_get {s : State} {d : Nat} {k : Nat} {fld0 : Fld} {i0 j0 : Nat} (hK : Foot.holdStart (notFld fld0) = true) 
    : (holdStart s d k).get fld0 i0 j0 = s.get fld0 i0 j0 :=
  holdStart_closed (P := fun x => x.get fld0 i0 j0 = s.get fld0 i0 j0) (field_closed fld0 i0 j0 _) hK  rfl

def Foot.execHoldStart (K : Part → Bool) : Bool := Foot.holdStart K

theorem execHoldStart_closed {K : Part → Bool} {P : State → Prop} {d : Domain} {k : Fin 8} {s : State} (hP : Closed K P) (hK
    : Foot.execHoldStart K = true) (hs_s : P s) :
    OutAll P (execHoldStart d k s) := by
  simp only [Foot.execHoldStart, Bool.and_eq_true] at hK
  unfold execHoldStart
  with_reducible repeat' first
    | assumption
    | refine holdStart_closed hP ?_ ?_
    | refine OutAll.mk ?_

def Foot.keepaliveTimeout (K : Part → Bool) : Bool := K (.fld .DL_FLAG_KATO) && (Foot.laneLoss K)

theorem keepaliveTimeout_closed {K : Part → Bool} {P : State → Prop} {s : State} {l : Nat} (hP : Closed K P) (hK :
    Foot.keepaliveTimeout K = true) (hs_s : P s) :
    P (keepaliveTimeout s l) := by
  simp only [Foot.keepaliveTimeout, Bool.and_eq_true] at hK
  obtain ⟨hK0, hK1⟩ := hK
  unfold keepaliveTimeout
  with_reducible repeat' first
    | assumption
    | refine laneLoss_closed hP ?_ ?_
    | refine hP.raise ?_ ?_
    | refine ite_closed ?_ ?_
    | split

theorem keepaliveTimeout_get {s : State} {l : Nat} {fld0 : Fld} {i0 j0 : Nat} (hK : Foot.keepaliveTimeout (notFld fld0) =
    true)  : (keepaliveTimeout s l).get fld0 i0 j0 = s.get fld0 i0 j0 :=
  keepaliveTimeout_closed (P := fun x => x.get fld0 i0 j0 = s.get fld0 i0 j0) (field_closed fld0 i0 j0 _) hK  rfl

def Foot.execKeepaliveTimeout (K : Part → Bool) : Bool := Foot.keepaliveTimeout K

theorem execKeepaliveTimeout_closed {K : Part → Bool} {P : State → Prop} {d : Domain} {s : State} (hP : Closed K P) (hK :
    Foot.execKeepaliveTimeout K = true) (hs_s : P s) :
    OutAll P (execKeepaliveTimeout d s) := by
  simp only [Foot.execKeepaliveTimeout, Bool.and_eq_true] at hK
  unfold execKeepaliveTimeout
  with_reducible repeat' first
    | assumption
    | refine keepaliveTimeout_closed hP ?_ ?_
    | refine OutAll.mk ?_

def Foot.execLaneEnable (K : Part → Bool) : Bool := Foot.laneEnable K

theorem execLaneEnable_closed {K : Part → Bool} {P : State → Prop} {d : Domain} {s : State} (hP : Closed K P) (hK :
    Foot.execLaneEnable K = true) (hs_s : P s) :
    OutAll P (execLaneEnable d s) := by
  simp only [Foot.execLaneEnable, Bool.and_eq_true] at hK
  unfold execLaneEnable
  with_reducible repeat' first
    | assumption
    | refine laneEnable_closed hP ?_ ?_
    | refine OutAll.mk ?_

def Foot.rampStart (K : Part → Bool) : Bool := K (.fld .DD_SSTAT_STATE)

theorem rampStart_closed {K : Part → Bool} {P : State → Prop} {s : State} {d : Nat} {k : Nat} (hP : Closed K P) (hK :
    Foot.rampStart K = true) (hs_s : P s) :
    P (rampStart s d k) := by
  simp only [Foot.rampStart, Bool.and_eq_true] at hK
  unfold rampStart
  with_reducible repeat' first
    | assumption
    | refine hP.put _ _ _ _ _ ?_ ?_
    | refine ite_closed ?_ ?_
    | split

theorem rampStart_get {s : State} {d : Nat} {k : Nat} {fld0 : Fld} {i0 j0 : Nat} (hK : Foot.rampStart (notFld fld0) = true) 
    : (rampStart s d k).get fld0 i0 j0 = s.get fld0 i0 j0 :=
  rampStart_closed (P := fun x => x.get fld0 i0 j0 = s.get fld0 i0 j0) (field_closed fld0 i0 j0 _) hK  rfl

def Foot.execRampStart (K : Part → Bool) : Bool := Foot.rampStart K

theorem execRampStart_closed {K : Part → Bool} {P : State → Prop} {d : Domain} {k : Fin 8} {s : State} (hP : Closed K P) (hK
    : Foot.execRampStart K = true) (hs_s : P s) :
    OutAll P (execRampStart d k s) := by
  simp only [Foot.execRampStart, Bool.and_eq_true] at hK
  unfold execRampStart
  with_reducible repeat' first
    | assumption
    | refine rampStart_closed hP ?_ ?_
    | refine OutAll.mk ?_

def Foot.reservedFlit (K : Part → Bool) : Bool := K (.fld .DL_FLAG_BADMSG) && (K (.fld .crcRun) && (K (.fld .DL_FLAG_STALE)
    && (K (.fld .DL_STALECNT))))

theorem reservedFlit_closed {K : Part → Bool} {P : State → Prop} {s : State} {l : Nat} {f : BitVec 128} (hP : Closed K P) (hK
    : Foot.reservedFlit K = true) (hs_s : P s) :
    P (reservedFlit s l f) := by
  simp only [Foot.reservedFlit, Bool.and_eq_true] at hK
  obtain ⟨hK0, hK1, hK2, hK3⟩ := hK
  unfold reservedFlit
  with_reducible repeat' first
    | assumption
    | refine hP.clear ?_ ?_
    | refine hP.raise ?_ ?_
    | refine hP.bump ?_ ?_
    | (extract_lets +onlyGivenNames x; apply thenHave (p := P x); (unfold x; clear x); rotate_left 1; (intro hx; clear_value x))
    | (extract_lets +onlyGivenNames x; clear_value x)
    | refine ite_closed ?_ ?_
    | split

theorem reservedFlit_get {s : State} {l : Nat} {f : BitVec 128} {fld0 : Fld} {i0 j0 : Nat} (hK : Foot.reservedFlit (notFld
    fld0) = true)  : (reservedFlit s l f).get fld0 i0 j0 = s.get fld0 i0 j0 :=
  reservedFlit_closed (P := fun x => x.get fld0 i0 j0 = s.get fld0 i0 j0) (field_closed fld0 i0 j0 _) hK  rfl

def Foot.execReservedFlit (K : Part → Bool) : Bool := Foot.reservedFlit K

theorem execReservedFlit_closed {K : Part → Bool} {P : State → Prop} {d : Domain} {f : BitVec 128} {s : State} (hP : Closed K
    P) (hK : Foot.execReservedFlit K = true) (hs_s : P s) :
    OutAll P (execReservedFlit d f s) := by
  simp only [Foot.execReservedFlit, Bool.and_eq_true] at hK
  unfold execReservedFlit
  with_reducible repeat' first
    | assumption
    | refine reservedFlit_closed hP ?_ ?_
    | refine OutAll.mk ?_

def Foot.setreq (K : Part → Bool) : Bool := Foot.acceptFlit K && (Foot.reply K && (Foot.setpointWrite K))

theorem setreq_closed {K : Part → Bool} {P : State → Prop} {s : State} {l : Nat} {f : BitVec 128} (hP : Closed K P) (hK :
    Foot.setreq K = true) (hs_s : P s) :
    P (setreq s l f) := by
  simp only [Foot.setreq, Bool.and_eq_true] at hK
  obtain ⟨hK0, hK1, hK2⟩ := hK
  unfold setreq
  with_reducible repeat' first
    | assumption
    | refine acceptFlit_closed hP ?_ ?_
    | refine reply_closed hP ?_ ?_
    | refine setpointWrite_closed hP ?_ ?_
    | (dsimp -zeta only)
    | refine of_snd (by assumption) ?_
    | refine of_fst (by assumption) ?_
    | refine of_mid (by assumption) ?_
    | refine of_trd (by assumption) ?_
    | refine of_fth (by assumption) ?_
    | intro _
    | (extract_lets +onlyGivenNames x; apply thenHave (p := P x); (unfold x; clear x); rotate_left 1; (intro hx; clear_value x))
    | (extract_lets +onlyGivenNames x; apply thenHave (p := P x.2); (unfold x; clear x); rotate_left 1; (intro hx; clear_value x))
    | (extract_lets +onlyGivenNames x; apply thenHave (p := P x.1); (unfold x; clear x); rotate_left 1; (intro hx; clear_value x))
    | (extract_lets +onlyGivenNames x; apply thenHave (p := P x.2.1); (unfold x; clear x); rotate_left 1; (intro hx; clear_value x))
    | (extract_lets +onlyGivenNames x; apply thenHave (p := P x.2.2); (unfold x; clear x); rotate_left 1; (intro hx; clear_value x))
    | (extract_lets +onlyGivenNames x; clear_value x)
    | (extract_lets +onlyGivenNames x)
    | refine ite_closed ?_ ?_
    | split

theorem setreq_get {s : State} {l : Nat} {f : BitVec 128} {fld0 : Fld} {i0 j0 : Nat} (hK : Foot.setreq (notFld fld0) = true) 
    : (setreq s l f).get fld0 i0 j0 = s.get fld0 i0 j0 :=
  setreq_closed (P := fun x => x.get fld0 i0 j0 = s.get fld0 i0 j0) (field_closed fld0 i0 j0 _) hK  rfl

def Foot.execSetreq (K : Part → Bool) : Bool := Foot.setreq K

theorem execSetreq_closed {K : Part → Bool} {P : State → Prop} {d : Domain} {f : BitVec 128} {s : State} (hP : Closed K P)
    (hK : Foot.execSetreq K = true) (hs_s : P s) :
    OutAll P (execSetreq d f s) := by
  simp only [Foot.execSetreq, Bool.and_eq_true] at hK
  unfold execSetreq
  with_reducible repeat' first
    | assumption
    | refine setreq_closed hP ?_ ?_
    | refine OutAll.mk ?_

def Foot.telemTransmit (K : Part → Bool) : Bool := K (.fld .telNext) && (K (.fld .telAt) && (K .freeCtr && (K (.fld
    .telBurst) && (Foot.queueFlit K))))

theorem telemTransmit_closed {K : Part → Bool} {P : State → Prop} {s : State} {l : Nat} (hP : Closed K P) (hK :
    Foot.telemTransmit K = true) (hs_s : P s) :
    P (telemTransmit s l) := by
  simp only [Foot.telemTransmit, Bool.and_eq_true] at hK
  obtain ⟨hK0, hK1, hK2, hK3, hK4⟩ := hK
  unfold telemTransmit
  with_reducible repeat' first
    | assumption
    | refine queueFlit_closed hP ?_ ?_
    | refine hP.put _ _ _ _ _ ?_ ?_
    | refine hP.clear ?_ ?_
    | refine hP.fresh ?_ ?_
    | (extract_lets +onlyGivenNames x; apply thenHave (p := P x); (unfold x; clear x); rotate_left 1; (intro hx; clear_value x))
    | (extract_lets +onlyGivenNames x; clear_value x)
    | refine ite_closed ?_ ?_
    | split

theorem telemTransmit_get {s : State} {l : Nat} {fld0 : Fld} {i0 j0 : Nat} (hK : Foot.telemTransmit (notFld fld0) = true)  :
    (telemTransmit s l).get fld0 i0 j0 = s.get fld0 i0 j0 :=
  telemTransmit_closed (P := fun x => x.get fld0 i0 j0 = s.get fld0 i0 j0) (field_closed fld0 i0 j0 _) hK  rfl

def Foot.execTelemTransmit (K : Part → Bool) : Bool := Foot.telemTransmit K

theorem execTelemTransmit_closed {K : Part → Bool} {P : State → Prop} {d : Domain} {s : State} (hP : Closed K P) (hK :
    Foot.execTelemTransmit K = true) (hs_s : P s) :
    OutAll P (execTelemTransmit d s) := by
  simp only [Foot.execTelemTransmit, Bool.and_eq_true] at hK
  unfold execTelemTransmit
  with_reducible repeat' first
    | assumption
    | refine telemTransmit_closed hP ?_ ?_
    | refine OutAll.mk ?_

def Foot.unwindDone (K : Part → Bool) : Bool := Foot.freeSlot K

theorem unwindDone_closed {K : Part → Bool} {P : State → Prop} {s : State} {d : Nat} {k : Nat} (hP : Closed K P) (hK :
    Foot.unwindDone K = true) (hs_s : P s) :
    P (unwindDone s d k) := by
  simp only [Foot.unwindDone, Bool.and_eq_true] at hK
  unfold unwindDone
  with_reducible repeat' first
    | assumption
    | refine freeSlot_closed hP ?_ ?_
    | refine ite_closed ?_ ?_
    | split

theorem unwindDone_get {s : State} {d : Nat} {k : Nat} {fld0 : Fld} {i0 j0 : Nat} (hK : Foot.unwindDone (notFld fld0) = true)
     : (unwindDone s d k).get fld0 i0 j0 = s.get fld0 i0 j0 :=
  unwindDone_closed (P := fun x => x.get fld0 i0 j0 = s.get fld0 i0 j0) (field_closed fld0 i0 j0 _) hK  rfl

def Foot.execUnwindDone (K : Part → Bool) : Bool := Foot.unwindDone K

theorem execUnwindDone_closed {K : Part → Bool} {P : State → Prop} {d : Domain} {k : Fin 8} {s : State} (hP : Closed K P) (hK
    : Foot.execUnwindDone K = true) (hs_s : P s) :
    OutAll P (execUnwindDone d k s) := by
  simp only [Foot.execUnwindDone, Bool.and_eq_true] at hK
  unfold execUnwindDone
  with_reducible repeat' first
    | assumption
    | refine unwindDone_closed hP ?_ ?_
    | refine OutAll.mk ?_

end Sys2Proof.Machine
end

