-- ==== Sys2Proof/Laws/ClosedMemory.lean ====
section
/-! SUPPORT. What the functions of Machine/Memory.lean can write, and that they keep every closed property (Laws/Closed.lean). -/
namespace Sys2Proof.Machine

set_option Elab.async false
set_option linter.all false

def Foot.State.dropSoft (K : Part → Bool) : Bool := K .soft

theorem State.dropSoft_closed {K : Part → Bool} {P : State → Prop} {s : State} {p : Nat → Bool} (hP : Closed K P) (hK :
    Foot.State.dropSoft K = true) (hs_s : P s) :
    P (State.dropSoft s p) := by
  simp only [Foot.State.dropSoft, Bool.and_eq_true] at hK
  unfold State.dropSoft
  with_reducible repeat' first
    | assumption
    | intro _
    | refine hP.remake _ _ _ _ _ _ _ _ _ _ _ _ _ _ _ _ _ _ _ _ _ _ _ (hs := ?_); first | assumption

def Foot.State.storeFresh (K : Part → Bool) : Bool := K (.fld .memBad) && (K .mem && (K .soft))

theorem State.storeFresh_closed {K : Part → Bool} {P : State → Prop} {s : State} {a : Nat} {v : W16} (hP : Closed K P) (hK :
    Foot.State.storeFresh K = true) (hs_s : P s) :
    P (State.storeFresh s a v) := by
  simp only [Foot.State.storeFresh, Bool.and_eq_true] at hK
  obtain ⟨hK0, hK1, hK2⟩ := hK
  unfold State.storeFresh
  with_reducible repeat' first
    | assumption
    | refine hP.clear ?_ ?_
    | refine hP.setWord ?_ ?_
    | refine hP.remake _ _ _ _ _ _ _ _ _ _ _ _ _ _ _ _ _ _ _ _ _ _ _ (hs := ?_); first | assumption | (with_reducible refine hP.put _ _ _ _ _ ?_ ?_) | (with_reducible refine hP.clear ?_ ?_) | (with_reducible refine hP.raise ?_ ?_) | (with_reducible refine hP.bump ?_ ?_) | (with_reducible refine hP.setBits ?_ ?_) | (with_reducible refine hP.clrBits ?_ ?_) | (with_reducible refine hP.setWord ?_ ?_)

theorem State.storeFresh_get {s : State} {a : Nat} {v : W16} {fld0 : Fld} {i0 j0 : Nat} (hK : Foot.State.storeFresh (notFld
    fld0) = true)  : (State.storeFresh s a v).get fld0 i0 j0 = s.get fld0 i0 j0 :=
  State.storeFresh_closed (P := fun x => x.get fld0 i0 j0 = s.get fld0 i0 j0) (field_closed fld0 i0 j0 _) hK  rfl

def Foot.retirePage (K : Part → Bool) : Bool := K (.fld .retCopy) && (K (.fld .D4_RET_V) && (K (.fld .D4_RET_PAGE) && (K
    (.fld .D4_STATUS_RETBUSY) && (K (.fld .D4_NRET) && (K (.fld .D4_STATUS_POOLEX) && (K (.fld .D4_RETX_V) && (K (.fld
    .D4_RETX_PAGE) && (K (.fld .D4_STATUS_LISTFULL)))))))))

theorem retirePage_closed {K : Part → Bool} {P : State → Prop} {s : State} {pg : Nat} (hP : Closed K P) (hK : Foot.retirePage
    K = true) (hs_s : P s) :
    P (retirePage s pg) := by
  simp only [Foot.retirePage, Bool.and_eq_true] at hK
  obtain ⟨hK0, hK1, hK2, hK3, hK4, hK5, hK6, hK7, hK8⟩ := hK
  unfold retirePage
  with_reducible repeat' first
    | assumption
    | refine hP.put _ _ _ _ _ ?_ ?_
    | refine hP.raise ?_ ?_
    | (extract_lets +onlyGivenNames x; apply thenHave (p := P x); (unfold x; clear x); rotate_left 1; (intro hx; clear_value x))
    | (extract_lets +onlyGivenNames x; clear_value x)
    | refine ite_closed ?_ ?_
    | split

theorem retirePage_get {s : State} {pg : Nat} {fld0 : Fld} {i0 j0 : Nat} (hK : Foot.retirePage (notFld fld0) = true)  :
    (retirePage s pg).get fld0 i0 j0 = s.get fld0 i0 j0 :=
  retirePage_closed (P := fun x => x.get fld0 i0 j0 = s.get fld0 i0 j0) (field_closed fld0 i0 j0 _) hK  rfl

def Foot.countUE (K : Part → Bool) : Bool := K (.fld .MS_UEADDR) && (K (.fld .MS_UE) && (K (.fld .D4_ERRADDR) && (K (.fld
    .D4_UECNT) && (Foot.retirePage K))))

theorem countUE_closed {K : Part → Bool} {P : State → Prop} {s : State} {a : Nat} (hP : Closed K P) (hK : Foot.countUE K =
    true) (hs_s : P s) :
    P (countUE s a) := by
  simp only [Foot.countUE, Bool.and_eq_true] at hK
  obtain ⟨hK0, hK1, hK2, hK3, hK4⟩ := hK
  unfold countUE
  with_reducible repeat' first
    | assumption
    | refine retirePage_closed hP ?_ ?_
    | refine hP.put _ _ _ _ _ ?_ ?_
    | refine hP.bump ?_ ?_
    | refine ite_closed ?_ ?_
    | split

theorem countUE_get {s : State} {a : Nat} {fld0 : Fld} {i0 j0 : Nat} (hK : Foot.countUE (notFld fld0) = true)  : (countUE s
    a).get fld0 i0 j0 = s.get fld0 i0 j0 :=
  countUE_closed (P := fun x => x.get fld0 i0 j0 = s.get fld0 i0 j0) (field_closed fld0 i0 j0 _) hK  rfl

def Foot.retAdd (K : Part → Bool) : Bool := Foot.retirePage K

theorem retAdd_closed {K : Part → Bool} {P : State → Prop} {s : State} {pg : Nat} (hP : Closed K P) (hK : Foot.retAdd K =
    true) (hs_s : P s) :
    P (retAdd s pg) := by
  simp only [Foot.retAdd, Bool.and_eq_true] at hK
  unfold retAdd
  with_reducible repeat' first
    | assumption
    | refine retirePage_closed hP ?_ ?_

theorem retAdd_get {s : State} {pg : Nat} {fld0 : Fld} {i0 j0 : Nat} (hK : Foot.retAdd (notFld fld0) = true)  : (retAdd s
    pg).get fld0 i0 j0 = s.get fld0 i0 j0 :=
  retAdd_closed (P := fun x => x.get fld0 i0 j0 = s.get fld0 i0 j0) (field_closed fld0 i0 j0 _) hK  rfl

def Foot.memWrite (K : Part → Bool) : Bool := K .freeCtr && (K (.fld .memBad) && (Foot.State.dropSoft K &&
    (Foot.State.storeFresh K)))

theorem memWrite_closed {K : Part → Bool} {P : State → Prop} {s : State} {a : Nat} {v : W16} (hP : Closed K P) (hK :
    Foot.memWrite K = true) (hs_s : P s) :
    P (memWrite s a v).2 := by
  simp only [Foot.memWrite, Bool.and_eq_true] at hK
  obtain ⟨hK0, hK1, hK2, hK3⟩ := hK
  unfold memWrite
  with_reducible repeat' first
    | assumption
    | refine State.dropSoft_closed hP ?_ ?_
    | refine State.storeFresh_closed hP ?_ ?_
    | refine hP.clear ?_ ?_
    | refine hP.fresh ?_ ?_
    | intro _
    | (extract_lets +onlyGivenNames x; apply thenHave (p := P x); (unfold x; clear x); rotate_left 1; (intro hx; clear_value x))
    | (extract_lets +onlyGivenNames x; clear_value x)
    | refine ite_closed ?_ ?_
    | split

def Foot.trackCE (K : Part → Bool) : Bool := K (.fld .D4_CECNT) && (K .ceTrack && (Foot.retirePage K))

theorem trackCE_closed {K : Part → Bool} {P : State → Prop} {s : State} {pg : Nat} {n : Nat} (hP : Closed K P) (hK :
    Foot.trackCE K = true) (hs_s : P s) :
    P (trackCE s pg n) := by
  simp only [Foot.trackCE, Bool.and_eq_true] at hK
  obtain ⟨hK0, hK1, hK2⟩ := hK
  unfold trackCE
  with_reducible repeat' first
    | assumption
    | refine retirePage_closed hP ?_ ?_
    | refine hP.bump ?_ ?_
    | intro _
    | (extract_lets +onlyGivenNames x; apply thenHave (p := P x); (unfold x; clear x); rotate_left 1; (intro hx; clear_value x))
    | (extract_lets +onlyGivenNames x; clear_value x)
    | refine hP.remake _ _ _ _ _ _ _ _ _ _ _ _ _ _ _ _ _ _ _ _ _ _ _ (hs := ?_); first | assumption | (with_reducible refine retirePage_closed hP ?_ ?_) | (with_reducible refine hP.put _ _ _ _ _ ?_ ?_) | (with_reducible refine hP.clear ?_ ?_) | (with_reducible refine hP.raise ?_ ?_) | (with_reducible refine hP.bump ?_ ?_) | (with_reducible refine hP.setBits ?_ ?_) | (with_reducible refine hP.clrBits ?_ ?_)
    | refine ite_closed ?_ ?_
    | split

theorem trackCE_get {s : State} {pg : Nat} {n : Nat} {fld0 : Fld} {i0 j0 : Nat} (hK : Foot.trackCE (notFld fld0) = true)  :
    (trackCE s pg n).get fld0 i0 j0 = s.get fld0 i0 j0 :=
  trackCE_closed (P := fun x => x.get fld0 i0 j0 = s.get fld0 i0 j0) (field_closed fld0 i0 j0 _) hK  rfl

def Foot.countCE (K : Part → Bool) : Bool := K (.fld .ceSeen) && (K (.fld .MS_CE) && (Foot.trackCE K && (Foot.State.dropSoft
    K)))

theorem countCE_closed {K : Part → Bool} {P : State → Prop} {s : State} {a : Nat} (hP : Closed K P) (hK : Foot.countCE K =
    true) (hs_s : P s) :
    P (countCE s a) := by
  simp only [Foot.countCE, Bool.and_eq_true] at hK
  obtain ⟨hK0, hK1, hK2, hK3⟩ := hK
  unfold countCE
  with_reducible repeat' first
    | assumption
    | refine trackCE_closed hP ?_ ?_
    | refine State.dropSoft_closed hP ?_ ?_
    | refine hP.raise ?_ ?_
    | refine hP.bump ?_ ?_
    | intro _
    | (extract_lets +onlyGivenNames x; apply thenHave (p := P x); (unfold x; clear x); rotate_left 1; (intro hx; clear_value x))
    | (extract_lets +onlyGivenNames x; clear_value x)
    | refine ite_closed ?_ ?_
    | split

theorem countCE_get {s : State} {a : Nat} {fld0 : Fld} {i0 j0 : Nat} (hK : Foot.countCE (notFld fld0) = true)  : (countCE s
    a).get fld0 i0 j0 = s.get fld0 i0 j0 :=
  countCE_closed (P := fun x => x.get fld0 i0 j0 = s.get fld0 i0 j0) (field_closed fld0 i0 j0 _) hK  rfl

def Foot.memRead (K : Part → Bool) : Bool := Foot.countUE K && (Foot.countCE K)

theorem memRead_closed {K : Part → Bool} {P : State → Prop} {s : State} {a : Nat} (hP : Closed K P) (hK : Foot.memRead K =
    true) (hs_s : P s) :
    P (memRead s a).2 := by
  simp only [Foot.memRead, Bool.and_eq_true] at hK
  obtain ⟨hK0, hK1⟩ := hK
  unfold memRead
  with_reducible repeat' first
    | assumption
    | refine countUE_closed hP ?_ ?_
    | refine countCE_closed hP ?_ ?_
    | (extract_lets +onlyGivenNames x; apply thenHave (p := P x); (unfold x; clear x); rotate_left 1; (intro hx; clear_value x))
    | (extract_lets +onlyGivenNames x; clear_value x)
    | refine ite_closed ?_ ?_
    | split

def Foot.rowRepairDone (K : Part → Bool) : Bool := K (.fld .memBad) && (K (.fld .ceMore) && (K (.fld .ceSeen) && (K (.fld
    .MS_REP_REPUSED) && (K (.fld .MS_REP_NOREP) && (K (.fld .rrBusy) && (Foot.State.dropSoft K))))))

theorem rowRepairDone_closed {K : Part → Bool} {P : State → Prop} {s : State} {m : Nat} {bad : List Nat} (hP : Closed K P)
    (hK : Foot.rowRepairDone K = true) (hs_s : P s) :
    P (rowRepairDone s m bad) := by
  simp only [Foot.rowRepairDone, Bool.and_eq_true] at hK
  obtain ⟨hK0, hK1, hK2, hK3, hK4, hK5, hK6⟩ := hK
  unfold rowRepairDone
  with_reducible repeat' first
    | assumption
    | refine State.dropSoft_closed hP ?_ ?_
    | refine hP.put _ _ _ _ _ ?_ ?_
    | refine hP.clear ?_ ?_
    | refine hP.raise ?_ ?_
    | refine hP.bump ?_ ?_
    | refine Closed.each ?_ _ ?_
    | intro _
    | (extract_lets +onlyGivenNames x; apply thenHave (p := P x); (unfold x; clear x); rotate_left 1; (intro hx; clear_value x))
    | (extract_lets +onlyGivenNames x; clear_value x)
    | refine ite_closed ?_ ?_
    | split

theorem rowRepairDone_get {s : State} {m : Nat} {bad : List Nat} {fld0 : Fld} {i0 j0 : Nat} (hK : Foot.rowRepairDone (notFld
    fld0) = true)  : (rowRepairDone s m bad).get fld0 i0 j0 = s.get fld0 i0 j0 :=
  rowRepairDone_closed (P := fun x => x.get fld0 i0 j0 = s.get fld0 i0 j0) (field_closed fld0 i0 j0 _) hK  rfl

def Foot.beginRepair (K : Part → Bool) : Bool := K (.fld .MS_REP_NOREP) && (K (.fld .rrRow) && (K (.fld .rrBusy) &&
    (Foot.rowRepairDone K)))

theorem beginRepair_closed {K : Part → Bool} {P : State → Prop} {s : State} {m : Nat} {row : Nat} (hP : Closed K P) (hK :
    Foot.beginRepair K = true) (hs_s : P s) :
    P (beginRepair s m row) := by
  simp only [Foot.beginRepair, Bool.and_eq_true] at hK
  obtain ⟨hK0, hK1, hK2, hK3⟩ := hK
  unfold beginRepair
  with_reducible repeat' first
    | assumption
    | refine rowRepairDone_closed hP ?_ ?_
    | refine hP.put _ _ _ _ _ ?_ ?_
    | refine hP.raise ?_ ?_
    | (extract_lets +onlyGivenNames x; apply thenHave (p := P x); (unfold x; clear x); rotate_left 1; (intro hx; clear_value x))
    | (extract_lets +onlyGivenNames x; clear_value x)
    | refine ite_closed ?_ ?_
    | split

theorem beginRepair_get {s : State} {m : Nat} {row : Nat} {fld0 : Fld} {i0 j0 : Nat} (hK : Foot.beginRepair (notFld fld0) =
    true)  : (beginRepair s m row).get fld0 i0 j0 = s.get fld0 i0 j0 :=
  beginRepair_closed (P := fun x => x.get fld0 i0 j0 = s.get fld0 i0 j0) (field_closed fld0 i0 j0 _) hK  rfl

def Foot.trainingDone (K : Part → Bool) : Bool := K (.fld .RC_CTRL_EN) && (K (.fld .RC_STATUS_NODDR) && (K (.fld
    .D4_STATUS_RDY) && (K (.fld .D4_STATUS_TRAINERR))))

theorem trainingDone_closed {K : Part → Bool} {P : State → Prop} {s : State} {good : Bool} (hP : Closed K P) (hK :
    Foot.trainingDone K = true) (hs_s : P s) :
    P (trainingDone s good) := by
  simp only [Foot.trainingDone, Bool.and_eq_true] at hK
  obtain ⟨hK0, hK1, hK2, hK3⟩ := hK
  unfold trainingDone
  with_reducible repeat' first
    | assumption
    | refine hP.clear ?_ ?_
    | refine hP.raise ?_ ?_
    | refine ite_closed ?_ ?_
    | split

theorem trainingDone_get {s : State} {good : Bool} {fld0 : Fld} {i0 j0 : Nat} (hK : Foot.trainingDone (notFld fld0) = true) 
    : (trainingDone s good).get fld0 i0 j0 = s.get fld0 i0 j0 :=
  trainingDone_closed (P := fun x => x.get fld0 i0 j0 = s.get fld0 i0 j0) (field_closed fld0 i0 j0 _) hK  rfl

def Foot.copyPage (K : Part → Bool) : Bool := K (.fld .memBad) && (Foot.State.storeFresh K)

theorem copyPage_closed {K : Part → Bool} {P : State → Prop} {s : State} {src : Nat} {dst : Nat} {bad : List Nat} (hP :
    Closed K P) (hK : Foot.copyPage K = true) (hs_s : P s) :
    P (copyPage s src dst bad) := by
  simp only [Foot.copyPage, Bool.and_eq_true] at hK
  obtain ⟨hK0, hK1⟩ := hK
  unfold copyPage
  with_reducible repeat' first
    | assumption
    | refine State.storeFresh_closed hP ?_ ?_
    | refine hP.raise ?_ ?_
    | refine Closed.each ?_ _ ?_
    | intro _
    | refine ite_closed ?_ ?_
    | split

theorem copyPage_get {s : State} {src : Nat} {dst : Nat} {bad : List Nat} {fld0 : Fld} {i0 j0 : Nat} (hK : Foot.copyPage
    (notFld fld0) = true)  : (copyPage s src dst bad).get fld0 i0 j0 = s.get fld0 i0 j0 :=
  copyPage_closed (P := fun x => x.get fld0 i0 j0 = s.get fld0 i0 j0) (field_closed fld0 i0 j0 _) hK  rfl

def Foot.errorRetire (K : Part → Bool) : Bool := K (.fld .memBad) && (Foot.countUE K && (Foot.trackCE K))

theorem errorRetire_closed {K : Part → Bool} {P : State → Prop} {s : State} {a : Nat} {unc : Bool} (hP : Closed K P) (hK :
    Foot.errorRetire K = true) (hs_s : P s) :
    P (errorRetire s a unc) := by
  simp only [Foot.errorRetire, Bool.and_eq_true] at hK
  obtain ⟨hK0, hK1, hK2⟩ := hK
  unfold errorRetire
  with_reducible repeat' first
    | assumption
    | refine countUE_closed hP ?_ ?_
    | refine trackCE_closed hP ?_ ?_
    | refine hP.raise ?_ ?_
    | (extract_lets +onlyGivenNames x; apply thenHave (p := P x); (unfold x; clear x); rotate_left 1; (intro hx; clear_value x))
    | (extract_lets +onlyGivenNames x; clear_value x)
    | refine ite_closed ?_ ?_
    | split

theorem errorRetire_get {s : State} {a : Nat} {unc : Bool} {fld0 : Fld} {i0 j0 : Nat} (hK : Foot.errorRetire (notFld fld0) =
    true)  : (errorRetire s a unc).get fld0 i0 j0 = s.get fld0 i0 j0 :=
  errorRetire_closed (P := fun x => x.get fld0 i0 j0 = s.get fld0 i0 j0) (field_closed fld0 i0 j0 _) hK  rfl

def Foot.execDdrLock (K : Part → Bool) : Bool := K (.fld .D4_CTRL_LOCK)

theorem execDdrLock_closed {K : Part → Bool} {P : State → Prop} {s : State} (hP : Closed K P) (hK : Foot.execDdrLock K =
    true) (hs_s : P s) :
    OutAll P (execDdrLock s) := by
  simp only [Foot.execDdrLock, Bool.and_eq_true] at hK
  unfold execDdrLock
  with_reducible repeat' first
    | assumption
    | refine hP.raise ?_ ?_
    | refine OutAll.mk ?_

def Foot.execPageRetire (K : Part → Bool) : Bool := Foot.errorRetire K

theorem execPageRetire_closed {K : Part → Bool} {P : State → Prop} {a : BitVec 31} {unc : Bool} {s : State} (hP : Closed K P)
    (hK : Foot.execPageRetire K = true) (hs_s : P s) :
    OutAll P (execPageRetire a unc s) := by
  simp only [Foot.execPageRetire, Bool.and_eq_true] at hK
  unfold execPageRetire
  with_reducible repeat' first
    | assumption
    | refine errorRetire_closed hP ?_ ?_
    | refine OutAll.mk ?_

def Foot.retireCopyDone (K : Part → Bool) : Bool := K (.fld .D4_STATUS_RETBUSY) && (K (.fld .retCopy) && (Foot.copyPage K))

theorem retireCopyDone_closed {K : Part → Bool} {P : State → Prop} {s : State} {bad : List Nat} (hP : Closed K P) (hK :
    Foot.retireCopyDone K = true) (hs_s : P s) :
    P (retireCopyDone s bad) := by
  simp only [Foot.retireCopyDone, Bool.and_eq_true] at hK
  obtain ⟨hK0, hK1, hK2⟩ := hK
  unfold retireCopyDone
  with_reducible repeat' first
    | assumption
    | refine copyPage_closed hP ?_ ?_
    | refine hP.put _ _ _ _ _ ?_ ?_
    | refine hP.clear ?_ ?_
    | (extract_lets +onlyGivenNames x; apply thenHave (p := P x); (unfold x; clear x); rotate_left 1; (intro hx; clear_value x))
    | (extract_lets +onlyGivenNames x; clear_value x)
    | split

theorem retireCopyDone_get {s : State} {bad : List Nat} {fld0 : Fld} {i0 j0 : Nat} (hK : Foot.retireCopyDone (notFld fld0) =
    true)  : (retireCopyDone s bad).get fld0 i0 j0 = s.get fld0 i0 j0 :=
  retireCopyDone_closed (P := fun x => x.get fld0 i0 j0 = s.get fld0 i0 j0) (field_closed fld0 i0 j0 _) hK  rfl

def Foot.execPageRetireDone (K : Part → Bool) : Bool := Foot.retireCopyDone K

theorem execPageRetireDone_closed {K : Part → Bool} {P : State → Prop} {bad : List (Fin 1024)} {s : State} (hP : Closed K P)
    (hK : Foot.execPageRetireDone K = true) (hs_s : P s) :
    OutAll P (execPageRetireDone bad s) := by
  simp only [Foot.execPageRetireDone, Bool.and_eq_true] at hK
  unfold execPageRetireDone
  with_reducible repeat' first
    | assumption
    | refine retireCopyDone_closed hP ?_ ?_
    | refine OutAll.mk ?_
    | intro _

def Foot.refresh (K : Part → Bool) : Bool := K (.fld .d4Double) && (K (.fld .d4RefAt))

theorem refresh_closed {K : Part → Bool} {P : State → Prop} {s : State} (hP : Closed K P) (hK : Foot.refresh K = true) (hs_s
    : P s) :
    P (refresh s) := by
  simp only [Foot.refresh, Bool.and_eq_true] at hK
  obtain ⟨hK0, hK1⟩ := hK
  unfold refresh
  with_reducible repeat' first
    | assumption
    | refine hP.put _ _ _ _ _ ?_ ?_
    | refine ite_closed ?_ ?_
    | split

theorem refresh_get {s : State} {fld0 : Fld} {i0 j0 : Nat} (hK : Foot.refresh (notFld fld0) = true)  : (refresh s).get fld0
    i0 j0 = s.get fld0 i0 j0 :=
  refresh_closed (P := fun x => x.get fld0 i0 j0 = s.get fld0 i0 j0) (field_closed fld0 i0 j0 _) hK  rfl

def Foot.execRefresh (K : Part → Bool) : Bool := Foot.refresh K

theorem execRefresh_closed {K : Part → Bool} {P : State → Prop} {s : State} (hP : Closed K P) (hK : Foot.execRefresh K =
    true) (hs_s : P s) :
    OutAll P (execRefresh s) := by
  simp only [Foot.execRefresh, Bool.and_eq_true] at hK
  unfold execRefresh
  with_reducible repeat' first
    | assumption
    | refine refresh_closed hP ?_ ?_
    | refine OutAll.mk ?_

def Foot.execRetadd (K : Part → Bool) : Bool := Foot.retAdd K

theorem execRetadd_closed {K : Part → Bool} {P : State → Prop} {pg : BitVec 20} {s : State} (hP : Closed K P) (hK :
    Foot.execRetadd K = true) (hs_s : P s) :
    OutAll P (execRetadd pg s) := by
  simp only [Foot.execRetadd, Bool.and_eq_true] at hK
  unfold execRetadd
  with_reducible repeat' first
    | assumption
    | refine retAdd_closed hP ?_ ?_
    | refine OutAll.mk ?_

def Foot.rowRepair (K : Part → Bool) : Bool := Foot.beginRepair K

theorem rowRepair_closed {K : Part → Bool} {P : State → Prop} {s : State} {m : Nat} {row : Nat} (hP : Closed K P) (hK :
    Foot.rowRepair K = true) (hs_s : P s) :
    P (rowRepair s m row) := by
  simp only [Foot.rowRepair, Bool.and_eq_true] at hK
  unfold rowRepair
  with_reducible repeat' first
    | assumption
    | refine beginRepair_closed hP ?_ ?_
    | refine ite_closed ?_ ?_
    | split

theorem rowRepair_get {s : State} {m : Nat} {row : Nat} {fld0 : Fld} {i0 j0 : Nat} (hK : Foot.rowRepair (notFld fld0) = true)
     : (rowRepair s m row).get fld0 i0 j0 = s.get fld0 i0 j0 :=
  rowRepair_closed (P := fun x => x.get fld0 i0 j0 = s.get fld0 i0 j0) (field_closed fld0 i0 j0 _) hK  rfl

def Foot.execRowRepair (K : Part → Bool) : Bool := Foot.rowRepair K

theorem execRowRepair_closed {K : Part → Bool} {P : State → Prop} {m : Fin 7} {row : Fin 2048} {s : State} (hP : Closed K P)
    (hK : Foot.execRowRepair K = true) (hs_s : P s) :
    OutAll P (execRowRepair m row s) := by
  simp only [Foot.execRowRepair, Bool.and_eq_true] at hK
  unfold execRowRepair
  with_reducible repeat' first
    | assumption
    | refine rowRepair_closed hP ?_ ?_
    | refine OutAll.mk ?_

def Foot.execRowRepairDone (K : Part → Bool) : Bool := Foot.rowRepairDone K

theorem execRowRepairDone_closed {K : Part → Bool} {P : State → Prop} {m : Fin 7} {bad : List (Fin 512)} {s : State} (hP :
    Closed K P) (hK : Foot.execRowRepairDone K = true) (hs_s : P s) :
    OutAll P (execRowRepairDone m bad s) := by
  simp only [Foot.execRowRepairDone, Bool.and_eq_true] at hK
  unfold execRowRepairDone
  with_reducible repeat' first
    | assumption
    | refine rowRepairDone_closed hP ?_ ?_
    | refine OutAll.mk ?_
    | intro _

def Foot.retireCopiesDone (K : Part → Bool) : Bool := Foot.retireCopyDone K

theorem retireCopiesDone_closed {K : Part → Bool} {P : State → Prop} {s : State} (hP : Closed K P) (hK :
    Foot.retireCopiesDone K = true) (hs_s : P s) :
    P (retireCopiesDone s) := by
  simp only [Foot.retireCopiesDone, Bool.and_eq_true] at hK
  unfold retireCopiesDone
  with_reducible repeat' first
    | assumption
    | refine retireCopyDone_closed hP ?_ ?_
    | refine Closed.each ?_ _ ?_
    | intro _

theorem retireCopiesDone_get {s : State} {fld0 : Fld} {i0 j0 : Nat} (hK : Foot.retireCopiesDone (notFld fld0) = true)  :
    (retireCopiesDone s).get fld0 i0 j0 = s.get fld0 i0 j0 :=
  retireCopiesDone_closed (P := fun x => x.get fld0 i0 j0 = s.get fld0 i0 j0) (field_closed fld0 i0 j0 _) hK  rfl

def Foot.execTrainingDone (K : Part → Bool) : Bool := Foot.trainingDone K

theorem execTrainingDone_closed {K : Part → Bool} {P : State → Prop} {good : Bool} {s : State} (hP : Closed K P) (hK :
    Foot.execTrainingDone K = true) (hs_s : P s) :
    OutAll P (execTrainingDone good s) := by
  simp only [Foot.execTrainingDone, Bool.and_eq_true] at hK
  unfold execTrainingDone
  with_reducible repeat' first
    | assumption
    | refine trainingDone_closed hP ?_ ?_
    | refine OutAll.mk ?_

def Foot.zqcs (K : Part → Bool) : Bool := K (.fld .d4ZqAt)

theorem zqcs_closed {K : Part → Bool} {P : State → Prop} {s : State} (hP : Closed K P) (hK : Foot.zqcs K = true) (hs_s : P s)
    :
    P (zqcs s) := by
  simp only [Foot.zqcs, Bool.and_eq_true] at hK
  unfold zqcs
  with_reducible repeat' first
    | assumption
    | refine hP.put _ _ _ _ _ ?_ ?_
    | refine ite_closed ?_ ?_
    | split

theorem zqcs_get {s : State} {fld0 : Fld} {i0 j0 : Nat} (hK : Foot.zqcs (notFld fld0) = true)  : (zqcs s).get fld0 i0 j0 =
    s.get fld0 i0 j0 :=
  zqcs_closed (P := fun x => x.get fld0 i0 j0 = s.get fld0 i0 j0) (field_closed fld0 i0 j0 _) hK  rfl

def Foot.execZqcs (K : Part → Bool) : Bool := Foot.zqcs K

theorem execZqcs_closed {K : Part → Bool} {P : State → Prop} {s : State} (hP : Closed K P) (hK : Foot.execZqcs K = true)
    (hs_s : P s) :
    OutAll P (execZqcs s) := by
  simp only [Foot.execZqcs, Bool.and_eq_true] at hK
  unfold execZqcs
  with_reducible repeat' first
    | assumption
    | refine zqcs_closed hP ?_ ?_
    | refine OutAll.mk ?_

end Sys2Proof.Machine
end

