-- ==== Sys2Proof/Laws/ClosedDma.lean ====
section
/-! SUPPORT. What the functions of Machine/Dma.lean can write, and that they keep every closed property (Laws/Closed.lean). -/
namespace Sys2Proof.Machine

set_option Elab.async false
set_option linter.all false

def Foot.dmaRefuse (K : Part → Bool) : Bool := K (.fld .DMA_STAT_ERR)

theorem dmaRefuse_closed {K : Part → Bool} {P : State → Prop} {s : State} {c : Nat} (hP : Closed K P) (hK : Foot.dmaRefuse K
    = true) (hs_s : P s) :
    P (dmaRefuse s c) := by
  simp only [Foot.dmaRefuse, Bool.and_eq_true] at hK
  unfold dmaRefuse
  with_reducible repeat' first
    | assumption
    | refine hP.put _ _ _ _ _ ?_ ?_

theorem dmaRefuse_get {s : State} {c : Nat} {fld0 : Fld} {i0 j0 : Nat} (hK : Foot.dmaRefuse (notFld fld0) = true)  :
    (dmaRefuse s c).get fld0 i0 j0 = s.get fld0 i0 j0 :=
  dmaRefuse_closed (P := fun x => x.get fld0 i0 j0 = s.get fld0 i0 j0) (field_closed fld0 i0 j0 _) hK  rfl

def Foot.dmaCfgWrite (K : Part → Bool) : Bool := K (.fld .DMA_CFG_RETRY) && (K (.fld .DMA_CFG_TRGEN) && (K (.fld .DMA_CFG_EN)
    && (K (.fld .DMA_CFG_WRAPSEL) && (K (.fld .DMA_CFG_WRAP)))))

theorem dmaCfgWrite_closed {K : Part → Bool} {P : State → Prop} {s : State} {c : Nat} {v : Int} (hP : Closed K P) (hK :
    Foot.dmaCfgWrite K = true) (hs_s : P s) :
    P (dmaCfgWrite s c v) := by
  simp only [Foot.dmaCfgWrite, Bool.and_eq_true] at hK
  obtain ⟨hK0, hK1, hK2, hK3, hK4⟩ := hK
  unfold dmaCfgWrite
  with_reducible repeat' first
    | assumption
    | refine hP.put _ _ _ _ _ ?_ ?_
    | (extract_lets +onlyGivenNames x; apply thenHave (p := P x); (unfold x; clear x); rotate_left 1; (intro hx; clear_value x))
    | (extract_lets +onlyGivenNames x; clear_value x)
    | refine ite_closed ?_ ?_
    | split

theorem dmaCfgWrite_get {s : State} {c : Nat} {v : Int} {fld0 : Fld} {i0 j0 : Nat} (hK : Foot.dmaCfgWrite (notFld fld0) =
    true)  : (dmaCfgWrite s c v).get fld0 i0 j0 = s.get fld0 i0 j0 :=
  dmaCfgWrite_closed (P := fun x => x.get fld0 i0 j0 = s.get fld0 i0 j0) (field_closed fld0 i0 j0 _) hK  rfl

def Foot.dmaAbort (K : Part → Bool) : Bool := K (.fld .dmaRaised) && (K (.fld .DMA_STAT_HALT) && (K (.fld .DMA_STAT_BUSY) &&
    (K (.fld .DMA_STAT_PEND) && (K (.fld .dmaTries) && (K (.fld .dmaFail) && (K (.fld .dmaNeed) && (K (.fld .dmaLeft))))))))

theorem dmaAbort_closed {K : Part → Bool} {P : State → Prop} {s : State} {c : Nat} (hP : Closed K P) (hK : Foot.dmaAbort K =
    true) (hs_s : P s) :
    P (dmaAbort s c) := by
  simp only [Foot.dmaAbort, Bool.and_eq_true] at hK
  obtain ⟨hK0, hK1, hK2, hK3, hK4, hK5, hK6, hK7⟩ := hK
  unfold dmaAbort
  with_reducible repeat' first
    | assumption
    | refine hP.clear ?_ ?_
    | (extract_lets +onlyGivenNames x; apply thenHave (p := P x); (unfold x; clear x); rotate_left 1; (intro hx; clear_value x))
    | (extract_lets +onlyGivenNames x; clear_value x)

theorem dmaAbort_get {s : State} {c : Nat} {fld0 : Fld} {i0 j0 : Nat} (hK : Foot.dmaAbort (notFld fld0) = true)  : (dmaAbort
    s c).get fld0 i0 j0 = s.get fld0 i0 j0 :=
  dmaAbort_closed (P := fun x => x.get fld0 i0 j0 = s.get fld0 i0 j0) (field_closed fld0 i0 j0 _) hK  rfl

def Foot.dmaResume (K : Part → Bool) : Bool := K (.fld .dmaRaised) && (K (.fld .dmaTries) && (K (.fld .dmaFail) && (K (.fld
    .DMA_STAT_HALT))))

theorem dmaResume_closed {K : Part → Bool} {P : State → Prop} {s : State} {c : Nat} (hP : Closed K P) (hK : Foot.dmaResume K
    = true) (hs_s : P s) :
    P (dmaResume s c) := by
  simp only [Foot.dmaResume, Bool.and_eq_true] at hK
  obtain ⟨hK0, hK1, hK2, hK3⟩ := hK
  unfold dmaResume
  with_reducible repeat' first
    | assumption
    | refine hP.clear ?_ ?_
    | refine ite_closed ?_ ?_
    | split

theorem dmaResume_get {s : State} {c : Nat} {fld0 : Fld} {i0 j0 : Nat} (hK : Foot.dmaResume (notFld fld0) = true)  :
    (dmaResume s c).get fld0 i0 j0 = s.get fld0 i0 j0 :=
  dmaResume_closed (P := fun x => x.get fld0 i0 j0 = s.get fld0 i0 j0) (field_closed fld0 i0 j0 _) hK  rfl

def Foot.dmaStart (K : Part → Bool) : Bool := K (.fld .DMA_STAT_BUSY) && (K (.fld .dmaNext) && (K (.fld .dmaNeed) && (K (.fld
    .dmaLeft))))

theorem dmaStart_closed {K : Part → Bool} {P : State → Prop} {s : State} {c : Nat} (hP : Closed K P) (hK : Foot.dmaStart K =
    true) (hs_s : P s) :
    P (dmaStart s c) := by
  simp only [Foot.dmaStart, Bool.and_eq_true] at hK
  obtain ⟨hK0, hK1, hK2, hK3⟩ := hK
  unfold dmaStart
  with_reducible repeat' first
    | assumption
    | refine hP.put _ _ _ _ _ ?_ ?_
    | refine hP.raise ?_ ?_
    | (extract_lets +onlyGivenNames x; apply thenHave (p := P x); (unfold x; clear x); rotate_left 1; (intro hx; clear_value x))
    | (extract_lets +onlyGivenNames x; clear_value x)
    | refine ite_closed ?_ ?_
    | split

theorem dmaStart_get {s : State} {c : Nat} {fld0 : Fld} {i0 j0 : Nat} (hK : Foot.dmaStart (notFld fld0) = true)  : (dmaStart
    s c).get fld0 i0 j0 = s.get fld0 i0 j0 :=
  dmaStart_closed (P := fun x => x.get fld0 i0 j0 = s.get fld0 i0 j0) (field_closed fld0 i0 j0 _) hK  rfl

def Foot.dmaTrigger (K : Part → Bool) : Bool := K (.fld .DMA_STAT_PEND) && (K (.fld .DMA_STAT_OVR) && (Foot.dmaStart K))

theorem dmaTrigger_closed {K : Part → Bool} {P : State → Prop} {s : State} {c : Nat} (hP : Closed K P) (hK : Foot.dmaTrigger
    K = true) (hs_s : P s) :
    P (dmaTrigger s c) := by
  simp only [Foot.dmaTrigger, Bool.and_eq_true] at hK
  obtain ⟨hK0, hK1, hK2⟩ := hK
  unfold dmaTrigger
  with_reducible repeat' first
    | assumption
    | refine dmaStart_closed hP ?_ ?_
    | refine hP.put _ _ _ _ _ ?_ ?_
    | refine hP.raise ?_ ?_
    | refine ite_closed ?_ ?_
    | split

theorem dmaTrigger_get {s : State} {c : Nat} {fld0 : Fld} {i0 j0 : Nat} (hK : Foot.dmaTrigger (notFld fld0) = true)  :
    (dmaTrigger s c).get fld0 i0 j0 = s.get fld0 i0 j0 :=
  dmaTrigger_closed (P := fun x => x.get fld0 i0 j0 = s.get fld0 i0 j0) (field_closed fld0 i0 j0 _) hK  rfl

def Foot.dmaCtlWrite (K : Part → Bool) : Bool := K (.fld .DMA_STAT_PEND) && (Foot.dmaAbort K && (Foot.dmaResume K &&
    (Foot.dmaTrigger K)))

theorem dmaCtlWrite_closed {K : Part → Bool} {P : State → Prop} {s : State} {c : Nat} {v : Int} (hP : Closed K P) (hK :
    Foot.dmaCtlWrite K = true) (hs_s : P s) :
    P (dmaCtlWrite s c v) := by
  simp only [Foot.dmaCtlWrite, Bool.and_eq_true] at hK
  obtain ⟨hK0, hK1, hK2, hK3⟩ := hK
  unfold dmaCtlWrite
  with_reducible repeat' first
    | assumption
    | refine dmaAbort_closed hP ?_ ?_
    | refine dmaResume_closed hP ?_ ?_
    | refine dmaTrigger_closed hP ?_ ?_
    | refine hP.put _ _ _ _ _ ?_ ?_
    | (extract_lets +onlyGivenNames x; apply thenHave (p := P x); (unfold x; clear x); rotate_left 1; (intro hx; clear_value x))
    | (extract_lets +onlyGivenNames x; clear_value x)
    | refine ite_closed ?_ ?_
    | split

theorem dmaCtlWrite_get {s : State} {c : Nat} {v : Int} {fld0 : Fld} {i0 j0 : Nat} (hK : Foot.dmaCtlWrite (notFld fld0) =
    true)  : (dmaCtlWrite s c v).get fld0 i0 j0 = s.get fld0 i0 j0 :=
  dmaCtlWrite_closed (P := fun x => x.get fld0 i0 j0 = s.get fld0 i0 j0) (field_closed fld0 i0 j0 _) hK  rfl

def Foot.dmaAddrWrite (K : Part → Bool) : Bool := Foot.dmaRefuse K

theorem dmaAddrWrite_closed {K : Part → Bool} {P : State → Prop} {s : State} {f : Fld} {c : Nat} {v : Int} (hP : Closed K P)
    (hK : Foot.dmaAddrWrite K = true) (hK_f : K (.fld f) = true) (hs_s : P s) :
    P (dmaAddrWrite s f c v) := by
  simp only [Foot.dmaAddrWrite, Bool.and_eq_true] at hK
  unfold dmaAddrWrite
  with_reducible repeat' first
    | assumption
    | refine dmaRefuse_closed hP ?_ ?_
    | refine hP.put _ _ _ _ _ ?_ ?_
    | refine ite_closed ?_ ?_
    | split

theorem dmaAddrWrite_get {s : State} {f : Fld} {c : Nat} {v : Int} {fld0 : Fld} {i0 j0 : Nat} (hK : Foot.dmaAddrWrite (notFld
    fld0) = true) (hg_f : (decide (f = fld0)) = false) : (dmaAddrWrite s f c v).get fld0 i0 j0 = s.get fld0 i0 j0 :=
  dmaAddrWrite_closed (P := fun x => x.get fld0 i0 j0 = s.get fld0 i0 j0) (field_closed fld0 i0 j0 _) hK (notFld_true hg_f) rfl

def Foot.dmaCntWrite (K : Part → Bool) : Bool := K (.fld .DMA_CNT_BURST) && (Foot.dmaRefuse K)

theorem dmaCntWrite_closed {K : Part → Bool} {P : State → Prop} {s : State} {c : Nat} {v : Int} (hP : Closed K P) (hK :
    Foot.dmaCntWrite K = true) (hs_s : P s) :
    P (dmaCntWrite s c v) := by
  simp only [Foot.dmaCntWrite, Bool.and_eq_true] at hK
  obtain ⟨hK0, hK1⟩ := hK
  unfold dmaCntWrite
  with_reducible repeat' first
    | assumption
    | refine dmaRefuse_closed hP ?_ ?_
    | refine hP.put _ _ _ _ _ ?_ ?_
    | refine ite_closed ?_ ?_
    | split

theorem dmaCntWrite_get {s : State} {c : Nat} {v : Int} {fld0 : Fld} {i0 j0 : Nat} (hK : Foot.dmaCntWrite (notFld fld0) =
    true)  : (dmaCntWrite s c v).get fld0 i0 j0 = s.get fld0 i0 j0 :=
  dmaCntWrite_closed (P := fun x => x.get fld0 i0 j0 = s.get fld0 i0 j0) (field_closed fld0 i0 j0 _) hK  rfl

def Foot.dmaRaise (K : Part → Bool) : Bool := K (.fld .dmaRaised)

theorem dmaRaise_closed {K : Part → Bool} {P : State → Prop} {s : State} {c : Nat} (hP : Closed K P) (hK : Foot.dmaRaise K =
    true) (hs_s : P s) :
    P (dmaRaise s c) := by
  simp only [Foot.dmaRaise, Bool.and_eq_true] at hK
  unfold dmaRaise
  with_reducible repeat' first
    | assumption
    | refine hP.raise ?_ ?_

theorem dmaRaise_get {s : State} {c : Nat} {fld0 : Fld} {i0 j0 : Nat} (hK : Foot.dmaRaise (notFld fld0) = true)  : (dmaRaise
    s c).get fld0 i0 j0 = s.get fld0 i0 j0 :=
  dmaRaise_closed (P := fun x => x.get fld0 i0 j0 = s.get fld0 i0 j0) (field_closed fld0 i0 j0 _) hK  rfl

def Foot.dmaEnd (K : Part → Bool) : Bool := K (.fld .DMA_STAT_BUSY) && (K (.fld .DMA_STAT_DONE) && (K (.fld .DMA_STAT_PEND)
    && (Foot.dmaRaise K && (Foot.hwPublish K && (Foot.dmaStart K)))))

theorem dmaEnd_closed {K : Part → Bool} {P : State → Prop} {s : State} {c : Nat} (hP : Closed K P) (hK : Foot.dmaEnd K =
    true) (hs_s : P s) :
    P (dmaEnd s c) := by
  simp only [Foot.dmaEnd, Bool.and_eq_true] at hK
  obtain ⟨hK0, hK1, hK2, hK3, hK4, hK5⟩ := hK
  unfold dmaEnd
  with_reducible repeat' first
    | assumption
    | refine dmaRaise_closed hP ?_ ?_
    | refine hwPublish_closed hP ?_ ?_
    | refine dmaStart_closed hP ?_ ?_
    | refine hP.put _ _ _ _ _ ?_ ?_
    | refine hP.clear ?_ ?_
    | refine hP.raise ?_ ?_
    | (extract_lets +onlyGivenNames x; apply thenHave (p := P x); (unfold x; clear x); rotate_left 1; (intro hx; clear_value x))
    | (extract_lets +onlyGivenNames x; clear_value x)
    | refine ite_closed ?_ ?_
    | split

theorem dmaEnd_get {s : State} {c : Nat} {fld0 : Fld} {i0 j0 : Nat} (hK : Foot.dmaEnd (notFld fld0) = true)  : (dmaEnd s
    c).get fld0 i0 j0 = s.get fld0 i0 j0 :=
  dmaEnd_closed (P := fun x => x.get fld0 i0 j0 = s.get fld0 i0 j0) (field_closed fld0 i0 j0 _) hK  rfl

def Foot.dmaHalt (K : Part → Bool) : Bool := K (.fld .dmaFail) && (K (.fld .DMA_STAT_ERR) && (K (.fld .DMA_STAT_HALT)))

theorem dmaHalt_closed {K : Part → Bool} {P : State → Prop} {s : State} {c : Nat} {err : Int} (hP : Closed K P) (hK :
    Foot.dmaHalt K = true) (hs_s : P s) :
    P (dmaHalt s c err) := by
  simp only [Foot.dmaHalt, Bool.and_eq_true] at hK
  obtain ⟨hK0, hK1, hK2⟩ := hK
  unfold dmaHalt
  with_reducible repeat' first
    | assumption
    | refine hP.put _ _ _ _ _ ?_ ?_
    | refine hP.clear ?_ ?_
    | refine hP.raise ?_ ?_

theorem dmaHalt_get {s : State} {c : Nat} {err : Int} {fld0 : Fld} {i0 j0 : Nat} (hK : Foot.dmaHalt (notFld fld0) = true)  :
    (dmaHalt s c err).get fld0 i0 j0 = s.get fld0 i0 j0 :=
  dmaHalt_closed (P := fun x => x.get fld0 i0 j0 = s.get fld0 i0 j0) (field_closed fld0 i0 j0 _) hK  rfl

def Foot.dmaPending (K : Part → Bool) : Bool := K (.fld .DMA_STAT_PEND) && (Foot.dmaStart K)

theorem dmaPending_closed {K : Part → Bool} {P : State → Prop} {s : State} {c : Nat} (hP : Closed K P) (hK : Foot.dmaPending
    K = true) (hs_s : P s) :
    P (dmaPending s c) := by
  simp only [Foot.dmaPending, Bool.and_eq_true] at hK
  obtain ⟨hK0, hK1⟩ := hK
  unfold dmaPending
  with_reducible repeat' first
    | assumption
    | refine dmaStart_closed hP ?_ ?_
    | refine hP.put _ _ _ _ _ ?_ ?_
    | refine ite_closed ?_ ?_
    | split

theorem dmaPending_get {s : State} {c : Nat} {fld0 : Fld} {i0 j0 : Nat} (hK : Foot.dmaPending (notFld fld0) = true)  :
    (dmaPending s c).get fld0 i0 j0 = s.get fld0 i0 j0 :=
  dmaPending_closed (P := fun x => x.get fld0 i0 j0 = s.get fld0 i0 j0) (field_closed fld0 i0 j0 _) hK  rfl

def Foot.execAbort (K : Part → Bool) : Bool := Foot.dmaAbort K && (Foot.dmaRefuse K)

theorem execAbort_closed {K : Part → Bool} {P : State → Prop} {by_ : Agent} {c : DmaCh} {s : State} (hP : Closed K P) (hK :
    Foot.execAbort K = true) (hs_s : P s) :
    OutAll P (execAbort by_ c s) := by
  simp only [Foot.execAbort, Bool.and_eq_true] at hK
  obtain ⟨hK0, hK1⟩ := hK
  unfold execAbort
  with_reducible repeat' first
    | assumption
    | refine dmaAbort_closed hP ?_ ?_
    | refine dmaRefuse_closed hP ?_ ?_
    | refine OutAll.mk ?_
    | refine ite_closed ?_ ?_
    | split

def Foot.execDmaTrigger (K : Part → Bool) : Bool := Foot.dmaTrigger K && (Foot.dmaRefuse K)

theorem execDmaTrigger_closed {K : Part → Bool} {P : State → Prop} {by_ : Agent} {c : DmaCh} {s : State} (hP : Closed K P)
    (hK : Foot.execDmaTrigger K = true) (hs_s : P s) :
    OutAll P (execDmaTrigger by_ c s) := by
  simp only [Foot.execDmaTrigger, Bool.and_eq_true] at hK
  obtain ⟨hK0, hK1⟩ := hK
  unfold execDmaTrigger
  with_reducible repeat' first
    | assumption
    | refine dmaTrigger_closed hP ?_ ?_
    | refine dmaRefuse_closed hP ?_ ?_
    | refine OutAll.mk ?_
    | refine ite_closed ?_ ?_
    | split

def Foot.execResume (K : Part → Bool) : Bool := Foot.dmaResume K && (Foot.dmaRefuse K)

theorem execResume_closed {K : Part → Bool} {P : State → Prop} {by_ : Agent} {c : DmaCh} {s : State} (hP : Closed K P) (hK :
    Foot.execResume K = true) (hs_s : P s) :
    OutAll P (execResume by_ c s) := by
  simp only [Foot.execResume, Bool.and_eq_true] at hK
  obtain ⟨hK0, hK1⟩ := hK
  unfold execResume
  with_reducible repeat' first
    | assumption
    | refine dmaResume_closed hP ?_ ?_
    | refine dmaRefuse_closed hP ?_ ?_
    | refine OutAll.mk ?_
    | refine ite_closed ?_ ?_
    | split

end Sys2Proof.Machine
end

