-- ==== Sys2Proof/Laws/ClosedEvents.lean ====
section
/-! SUPPORT. What the functions of Machine/Events.lean can write, and that they keep every closed property (Laws/Closed.lean). -/
namespace Sys2Proof.Machine

set_option Elab.async false
set_option linter.all false

def Foot.rearm (K : Part → Bool) : Bool := K (.fld .sgCount) && (K (.fld .sgOpen) && (K (.fld .EV_TRIP)))

theorem rearm_closed {K : Part → Bool} {P : State → Prop} {s : State} {c : Nat} (hP : Closed K P) (hK : Foot.rearm K = true)
    (hs_s : P s) :
    P (rearm s c) := by
  simp only [Foot.rearm, Bool.and_eq_true] at hK
  obtain ⟨hK0, hK1, hK2⟩ := hK
  unfold rearm
  with_reducible repeat' first
    | assumption
    | refine hP.clear ?_ ?_
    | refine hP.clrBits ?_ ?_

theorem rearm_get {s : State} {c : Nat} {fld0 : Fld} {i0 j0 : Nat} (hK : Foot.rearm (notFld fld0) = true)  : (rearm s c).get
    fld0 i0 j0 = s.get fld0 i0 j0 :=
  rearm_closed (P := fun x => x.get fld0 i0 j0 = s.get fld0 i0 j0) (field_closed fld0 i0 j0 _) hK  rfl

def Foot.tripWrite (K : Part → Bool) : Bool := Foot.rearm K

theorem tripWrite_closed {K : Part → Bool} {P : State → Prop} {s : State} {m : Int} (hP : Closed K P) (hK : Foot.tripWrite K
    = true) (hs_s : P s) :
    P (tripWrite s m) := by
  simp only [Foot.tripWrite, Bool.and_eq_true] at hK
  unfold tripWrite
  with_reducible repeat' first
    | assumption
    | refine rearm_closed hP ?_ ?_
    | refine Closed.each ?_ _ ?_
    | intro _

theorem tripWrite_get {s : State} {m : Int} {fld0 : Fld} {i0 j0 : Nat} (hK : Foot.tripWrite (notFld fld0) = true)  :
    (tripWrite s m).get fld0 i0 j0 = s.get fld0 i0 j0 :=
  tripWrite_closed (P := fun x => x.get fld0 i0 j0 = s.get fld0 i0 j0) (field_closed fld0 i0 j0 _) hK  rfl

def Foot.maskWrite (K : Part → Bool) : Bool := K (.fld .EV_STATUS_LOCKERR)

theorem maskWrite_closed {K : Part → Bool} {P : State → Prop} {s : State} {f : Fld} {i : Nat} {v : Int} (hP : Closed K P) (hK
    : Foot.maskWrite K = true) (hK_f : K (.fld f) = true) (hs_s : P s) :
    P (maskWrite s f i v) := by
  simp only [Foot.maskWrite, Bool.and_eq_true] at hK
  unfold maskWrite
  with_reducible repeat' first
    | assumption
    | refine hP.put _ _ _ _ _ ?_ ?_
    | refine hP.clear ?_ ?_
    | refine hP.raise ?_ ?_
    | refine hP.bump ?_ ?_
    | refine hP.setBits ?_ ?_
    | refine hP.clrBits ?_ ?_
    | refine Closed.when ?_ ?_
    | intro _
    | (extract_lets +onlyGivenNames x; apply thenHave (p := P x); (unfold x; clear x); rotate_left 1; (intro hx; clear_value x))
    | (extract_lets +onlyGivenNames x; clear_value x)
    | (extract_lets +onlyGivenNames x)
    | refine ite_closed ?_ ?_
    | split

theorem maskWrite_get {s : State} {f : Fld} {i : Nat} {v : Int} {fld0 : Fld} {i0 j0 : Nat} (hK : Foot.maskWrite (notFld fld0)
    = true) (hg_f : (decide (f = fld0)) = false) : (maskWrite s f i v).get fld0 i0 j0 = s.get fld0 i0 j0 :=
  maskWrite_closed (P := fun x => x.get fld0 i0 j0 = s.get fld0 i0 j0) (field_closed fld0 i0 j0 _) hK (notFld_true hg_f) rfl

def Foot.chCfgWrite (K : Part → Bool) : Bool := K (.fld .EV_STATUS_LOCKERR) && (K (.fld .EV_CHCFG_SEC) && (K (.fld
    .EV_STATUS_CFGERR) && (K (.fld .EV_CHCFG_OWNER))))

theorem chCfgWrite_closed {K : Part → Bool} {P : State → Prop} {s : State} {c : Nat} {v : Int} (hP : Closed K P) (hK :
    Foot.chCfgWrite K = true) (hs_s : P s) :
    P (chCfgWrite s c v) := by
  simp only [Foot.chCfgWrite, Bool.and_eq_true] at hK
  obtain ⟨hK0, hK1, hK2, hK3⟩ := hK
  unfold chCfgWrite
  with_reducible repeat' first
    | assumption
    | refine hP.put _ _ _ _ _ ?_ ?_
    | refine hP.raise ?_ ?_
    | (extract_lets +onlyGivenNames x; apply thenHave (p := P x); (unfold x; clear x); rotate_left 1; (intro hx; clear_value x))
    | (extract_lets +onlyGivenNames x; clear_value x)
    | refine ite_closed ?_ ?_
    | split

theorem chCfgWrite_get {s : State} {c : Nat} {v : Int} {fld0 : Fld} {i0 j0 : Nat} (hK : Foot.chCfgWrite (notFld fld0) = true)
     : (chCfgWrite s c v).get fld0 i0 j0 = s.get fld0 i0 j0 :=
  chCfgWrite_closed (P := fun x => x.get fld0 i0 j0 = s.get fld0 i0 j0) (field_closed fld0 i0 j0 _) hK  rfl

def Foot.chSgWrite (K : Part → Bool) : Bool := K (.fld .EV_STATUS_LOCKERR) && (K (.fld .EV_CHSG_SGMAX) && (K (.fld
    .EV_STATUS_CFGERR) && (K (.fld .EV_CHSG_SGWIN))))

theorem chSgWrite_closed {K : Part → Bool} {P : State → Prop} {s : State} {c : Nat} {v : Int} (hP : Closed K P) (hK :
    Foot.chSgWrite K = true) (hs_s : P s) :
    P (chSgWrite s c v) := by
  simp only [Foot.chSgWrite, Bool.and_eq_true] at hK
  obtain ⟨hK0, hK1, hK2, hK3⟩ := hK
  unfold chSgWrite
  with_reducible repeat' first
    | assumption
    | refine hP.put _ _ _ _ _ ?_ ?_
    | refine hP.raise ?_ ?_
    | (extract_lets +onlyGivenNames x; apply thenHave (p := P x); (unfold x; clear x); rotate_left 1; (intro hx; clear_value x))
    | (extract_lets +onlyGivenNames x; clear_value x)
    | refine ite_closed ?_ ?_
    | split

theorem chSgWrite_get {s : State} {c : Nat} {v : Int} {fld0 : Fld} {i0 j0 : Nat} (hK : Foot.chSgWrite (notFld fld0) = true) 
    : (chSgWrite s c v).get fld0 i0 j0 = s.get fld0 i0 j0 :=
  chSgWrite_closed (P := fun x => x.get fld0 i0 j0 = s.get fld0 i0 j0) (field_closed fld0 i0 j0 _) hK  rfl

def Foot.turnoutWrite (K : Part → Bool) : Bool := K (.fld .EV_STATUS_SECERR) && (K (.fld .EV_STATUS_LOCKERR) && (K (.fld
    .EV_TOCFG_EN) && (K (.fld .EV_TOCFG_CH))))

theorem turnoutWrite_closed {K : Part → Bool} {P : State → Prop} {s : State} {k : Nat} {sup : Bool} {t : Nat} {c : Nat} {en :
    Bool} (hP : Closed K P) (hK : Foot.turnoutWrite K = true) (hs_s : P s) :
    P (turnoutWrite s k sup t c en) := by
  simp only [Foot.turnoutWrite, Bool.and_eq_true] at hK
  obtain ⟨hK0, hK1, hK2, hK3⟩ := hK
  unfold turnoutWrite
  with_reducible repeat' first
    | assumption
    | refine hP.put _ _ _ _ _ ?_ ?_
    | refine hP.raise ?_ ?_
    | refine ite_closed ?_ ?_
    | split

theorem turnoutWrite_get {s : State} {k : Nat} {sup : Bool} {t : Nat} {c : Nat} {en : Bool} {fld0 : Fld} {i0 j0 : Nat} (hK :
    Foot.turnoutWrite (notFld fld0) = true)  : (turnoutWrite s k sup t c en).get fld0 i0 j0 = s.get fld0 i0 j0 :=
  turnoutWrite_closed (P := fun x => x.get fld0 i0 j0 = s.get fld0 i0 j0) (field_closed fld0 i0 j0 _) hK  rfl

def Foot.captureTask (K : Part → Bool) : Bool := K (.fld .CT_LOST) && (K (.fld .CT_STAT_OVR) && (K (.fld .CT_SUB) && (K (.fld
    .CT_CAP) && (K (.fld .CT_STAT_CAPV)))))

theorem captureTask_closed {K : Part → Bool} {P : State → Prop} {s : State} {u : Nat} {t : Int} {sub : Int} (hP : Closed K P)
    (hK : Foot.captureTask K = true) (hs_s : P s) :
    P (captureTask s u t sub) := by
  simp only [Foot.captureTask, Bool.and_eq_true] at hK
  obtain ⟨hK0, hK1, hK2, hK3, hK4⟩ := hK
  unfold captureTask
  with_reducible repeat' first
    | assumption
    | refine hP.put _ _ _ _ _ ?_ ?_
    | refine hP.raise ?_ ?_
    | refine hP.bump ?_ ?_
    | refine ite_closed ?_ ?_
    | split

theorem captureTask_get {s : State} {u : Nat} {t : Int} {sub : Int} {fld0 : Fld} {i0 j0 : Nat} (hK : Foot.captureTask (notFld
    fld0) = true)  : (captureTask s u t sub).get fld0 i0 j0 = s.get fld0 i0 j0 :=
  captureTask_closed (P := fun x => x.get fld0 i0 j0 = s.get fld0 i0 j0) (field_closed fld0 i0 j0 _) hK  rfl

def Foot.judgeLate (K : Part → Bool) : Bool := K (.fld .cmpFrom) && (K (.fld .CT_STAT_LATE))

theorem judgeLate_closed {K : Part → Bool} {P : State → Prop} {s : State} {u : Nat} (hP : Closed K P) (hK : Foot.judgeLate K
    = true) (hs_s : P s) :
    P (judgeLate s u) := by
  simp only [Foot.judgeLate, Bool.and_eq_true] at hK
  obtain ⟨hK0, hK1⟩ := hK
  unfold judgeLate
  with_reducible repeat' first
    | assumption
    | refine hP.put _ _ _ _ _ ?_ ?_
    | refine hP.raise ?_ ?_
    | refine ite_closed ?_ ?_
    | split

theorem judgeLate_get {s : State} {u : Nat} {fld0 : Fld} {i0 j0 : Nat} (hK : Foot.judgeLate (notFld fld0) = true)  :
    (judgeLate s u).get fld0 i0 j0 = s.get fld0 i0 j0 :=
  judgeLate_closed (P := fun x => x.get fld0 i0 j0 = s.get fld0 i0 j0) (field_closed fld0 i0 j0 _) hK  rfl

def Foot.compareBoundary (K : Part → Bool) : Bool := K (.fld .startPend) && (K (.fld .CT_CFG_CMPEN) && (K (.fld .CT_CMP) &&
    (Foot.judgeLate K)))

theorem compareBoundary_closed {K : Part → Bool} {P : State → Prop} {s : State} {wrote : List Nat} (hP : Closed K P) (hK :
    Foot.compareBoundary K = true) (hs_s : P s) :
    P (compareBoundary s wrote) := by
  simp only [Foot.compareBoundary, Bool.and_eq_true] at hK
  obtain ⟨hK0, hK1, hK2, hK3⟩ := hK
  unfold compareBoundary
  with_reducible repeat' first
    | assumption
    | refine judgeLate_closed hP ?_ ?_
    | refine hP.put _ _ _ _ _ ?_ ?_
    | refine hP.clear ?_ ?_
    | refine hP.raise ?_ ?_
    | refine Closed.each ?_ _ ?_
    | intro _
    | refine ite_closed ?_ ?_
    | split

theorem compareBoundary_get {s : State} {wrote : List Nat} {fld0 : Fld} {i0 j0 : Nat} (hK : Foot.compareBoundary (notFld
    fld0) = true)  : (compareBoundary s wrote).get fld0 i0 j0 = s.get fld0 i0 j0 :=
  compareBoundary_closed (P := fun x => x.get fld0 i0 j0 = s.get fld0 i0 j0) (field_closed fld0 i0 j0 _) hK  rfl

def Foot.compareMatch (K : Part → Bool) : Bool := K (.fld .CT_STAT_MATCH) && (K (.fld .CT_CMP) && (K (.fld .CT_CFG_CMPEN) &&
    (Foot.publish K && (Foot.judgeLate K))))

theorem compareMatch_closed {K : Part → Bool} {P : State → Prop} {s : State} {u : Nat} (hP : Closed K P) (hK :
    Foot.compareMatch K = true) (hs_s : P s) :
    P (compareMatch s u) := by
  simp only [Foot.compareMatch, Bool.and_eq_true] at hK
  obtain ⟨hK0, hK1, hK2, hK3, hK4⟩ := hK
  unfold compareMatch
  with_reducible repeat' first
    | assumption
    | refine publish_closed hP ?_ ?_
    | refine judgeLate_closed hP ?_ ?_
    | refine hP.put _ _ _ _ _ ?_ ?_
    | refine hP.clear ?_ ?_
    | refine hP.raise ?_ ?_
    | (extract_lets +onlyGivenNames x; apply thenHave (p := P x); (unfold x; clear x); rotate_left 1; (intro hx; clear_value x))
    | (extract_lets +onlyGivenNames x; clear_value x)
    | refine ite_closed ?_ ?_
    | split

theorem compareMatch_get {s : State} {u : Nat} {fld0 : Fld} {i0 j0 : Nat} (hK : Foot.compareMatch (notFld fld0) = true)  :
    (compareMatch s u).get fld0 i0 j0 = s.get fld0 i0 j0 :=
  compareMatch_closed (P := fun x => x.get fld0 i0 j0 = s.get fld0 i0 j0) (field_closed fld0 i0 j0 _) hK  rfl

def Foot.compareResume (K : Part → Bool) : Bool := Foot.judgeLate K

theorem compareResume_closed {K : Part → Bool} {P : State → Prop} {s : State} (hP : Closed K P) (hK : Foot.compareResume K =
    true) (hs_s : P s) :
    P (compareResume s) := by
  simp only [Foot.compareResume, Bool.and_eq_true] at hK
  unfold compareResume
  with_reducible repeat' first
    | assumption
    | refine judgeLate_closed hP ?_ ?_
    | refine Closed.each ?_ _ ?_
    | intro _

theorem compareResume_get {s : State} {fld0 : Fld} {i0 j0 : Nat} (hK : Foot.compareResume (notFld fld0) = true)  :
    (compareResume s).get fld0 i0 j0 = s.get fld0 i0 j0 :=
  compareResume_closed (P := fun x => x.get fld0 i0 j0 = s.get fld0 i0 j0) (field_closed fld0 i0 j0 _) hK  rfl

def Foot.startTask (K : Part → Bool) : Bool := K (.fld .startPend) && (K (.fld .startCmp))

theorem startTask_closed {K : Part → Bool} {P : State → Prop} {s : State} {u : Nat} {t : Int} (hP : Closed K P) (hK :
    Foot.startTask K = true) (hs_s : P s) :
    P (startTask s u t) := by
  simp only [Foot.startTask, Bool.and_eq_true] at hK
  obtain ⟨hK0, hK1⟩ := hK
  unfold startTask
  with_reducible repeat' first
    | assumption
    | refine hP.put _ _ _ _ _ ?_ ?_
    | refine hP.raise ?_ ?_

theorem startTask_get {s : State} {u : Nat} {t : Int} {fld0 : Fld} {i0 j0 : Nat} (hK : Foot.startTask (notFld fld0) = true) 
    : (startTask s u t).get fld0 i0 j0 = s.get fld0 i0 j0 :=
  startTask_closed (P := fun x => x.get fld0 i0 j0 = s.get fld0 i0 j0) (field_closed fld0 i0 j0 _) hK  rfl

def Foot.insertTask (K : Part → Bool) : Bool := K (.fld .insAllReq)

theorem insertTask_closed {K : Part → Bool} {P : State → Prop} {s : State} {r : Nat} (hP : Closed K P) (hK : Foot.insertTask
    K = true) (hs_s : P s) :
    P (insertTask s r) := by
  simp only [Foot.insertTask, Bool.and_eq_true] at hK
  unfold insertTask
  with_reducible repeat' first
    | assumption
    | refine hP.raise ?_ ?_

theorem insertTask_get {s : State} {r : Nat} {fld0 : Fld} {i0 j0 : Nat} (hK : Foot.insertTask (notFld fld0) = true)  :
    (insertTask s r).get fld0 i0 j0 = s.get fld0 i0 j0 :=
  insertTask_closed (P := fun x => x.get fld0 i0 j0 = s.get fld0 i0 j0) (field_closed fld0 i0 j0 _) hK  rfl

def Foot.turnoutTask (K : Part → Bool) : Bool := Foot.captureTask K && (Foot.startTask K && (Foot.dmaTrigger K &&
    (Foot.commitBank K && (Foot.insertTask K && (Foot.eviPulse K)))))

theorem turnoutTask_closed {K : Part → Bool} {P : State → Prop} {s : State} {t : Nat} {at_ : Int} {sub : Int} (hP : Closed K
    P) (hK : Foot.turnoutTask K = true) (hs_s : P s) :
    P (turnoutTask s t at_ sub) := by
  simp only [Foot.turnoutTask, Bool.and_eq_true] at hK
  obtain ⟨hK0, hK1, hK2, hK3, hK4, hK5⟩ := hK
  unfold turnoutTask
  with_reducible repeat' first
    | assumption
    | refine captureTask_closed hP ?_ ?_
    | refine startTask_closed hP ?_ ?_
    | refine dmaTrigger_closed hP ?_ ?_
    | refine commitBank_closed hP ?_ ?_
    | refine insertTask_closed hP ?_ ?_
    | refine eviPulse_closed hP ?_ ?_
    | refine ite_closed ?_ ?_
    | split

theorem turnoutTask_get {s : State} {t : Nat} {at_ : Int} {sub : Int} {fld0 : Fld} {i0 j0 : Nat} (hK : Foot.turnoutTask
    (notFld fld0) = true)  : (turnoutTask s t at_ sub).get fld0 i0 j0 = s.get fld0 i0 j0 :=
  turnoutTask_closed (P := fun x => x.get fld0 i0 j0 = s.get fld0 i0 j0) (field_closed fld0 i0 j0 _) hK  rfl

def Foot.deliver (K : Part → Bool) : Bool := K .arrivals && (K (.fld .EV_TOCOAL) && (Foot.turnoutTask K))

theorem deliver_closed {K : Part → Bool} {P : State → Prop} {s : State} {t : Nat} {more : Nat} {sub : Int} (hP : Closed K P)
    (hK : Foot.deliver K = true) (hs_s : P s) :
    P (deliver s t more sub) := by
  simp only [Foot.deliver, Bool.and_eq_true] at hK
  obtain ⟨hK0, hK1, hK2⟩ := hK
  unfold deliver
  with_reducible repeat' first
    | assumption
    | refine turnoutTask_closed hP ?_ ?_
    | refine hP.bump ?_ ?_
    | intro _
    | (extract_lets +onlyGivenNames x; apply thenHave (p := P x); (unfold x; clear x); rotate_left 1; (intro hx; clear_value x))
    | (extract_lets +onlyGivenNames x; clear_value x)
    | refine hP.remake _ _ _ _ _ _ _ _ _ _ _ _ _ _ _ _ _ _ _ _ _ _ _ (hs := ?_); first | assumption | (with_reducible refine turnoutTask_closed hP ?_ ?_) | (with_reducible refine hP.put _ _ _ _ _ ?_ ?_) | (with_reducible refine hP.clear ?_ ?_) | (with_reducible refine hP.raise ?_ ?_) | (with_reducible refine hP.bump ?_ ?_) | (with_reducible refine hP.setBits ?_ ?_) | (with_reducible refine hP.clrBits ?_ ?_)
    | refine ite_closed ?_ ?_
    | split

theorem deliver_get {s : State} {t : Nat} {more : Nat} {sub : Int} {fld0 : Fld} {i0 j0 : Nat} (hK : Foot.deliver (notFld
    fld0) = true)  : (deliver s t more sub).get fld0 i0 j0 = s.get fld0 i0 j0 :=
  deliver_closed (P := fun x => x.get fld0 i0 j0 = s.get fld0 i0 j0) (field_closed fld0 i0 j0 _) hK  rfl

def Foot.execCapture (K : Part → Bool) : Bool := Foot.deliver K

theorem execCapture_closed {K : Part → Bool} {P : State → Prop} {u : Timer} {sub : Fin 20} {s : State} (hP : Closed K P) (hK
    : Foot.execCapture K = true) (hs_s : P s) :
    OutAll P (execCapture u sub s) := by
  simp only [Foot.execCapture, Bool.and_eq_true] at hK
  unfold execCapture
  with_reducible repeat' first
    | assumption
    | refine deliver_closed hP ?_ ?_
    | refine OutAll.mk ?_

def Foot.execCaptureRelease (K : Part → Bool) : Bool := K (.fld .CT_STAT_CAPV)

theorem execCaptureRelease_closed {K : Part → Bool} {P : State → Prop} {u : Timer} {s : State} (hP : Closed K P) (hK :
    Foot.execCaptureRelease K = true) (hs_s : P s) :
    OutAll P (execCaptureRelease u s) := by
  simp only [Foot.execCaptureRelease, Bool.and_eq_true] at hK
  unfold execCaptureRelease
  with_reducible repeat' first
    | assumption
    | refine hP.clear ?_ ?_
    | refine OutAll.mk ?_

def Foot.execChannelLock (K : Part → Bool) : Bool := K (.fld .EV_LOCK)

theorem execChannelLock_closed {K : Part → Bool} {P : State → Prop} {ch : Channel} {s : State} (hP : Closed K P) (hK :
    Foot.execChannelLock K = true) (hs_s : P s) :
    OutAll P (execChannelLock ch s) := by
  simp only [Foot.execChannelLock, Bool.and_eq_true] at hK
  unfold execChannelLock
  with_reducible repeat' first
    | assumption
    | refine hP.setBits ?_ ?_
    | refine OutAll.mk ?_

def Foot.execCompareMatch (K : Part → Bool) : Bool := Foot.compareMatch K

theorem execCompareMatch_closed {K : Part → Bool} {P : State → Prop} {u : Timer} {s : State} (hP : Closed K P) (hK :
    Foot.execCompareMatch K = true) (hs_s : P s) :
    OutAll P (execCompareMatch u s) := by
  simp only [Foot.execCompareMatch, Bool.and_eq_true] at hK
  unfold execCompareMatch
  with_reducible repeat' first
    | assumption
    | refine compareMatch_closed hP ?_ ?_
    | refine OutAll.mk ?_

def Foot.execCompareStart (K : Part → Bool) : Bool := Foot.deliver K

theorem execCompareStart_closed {K : Part → Bool} {P : State → Prop} {u : Timer} {s : State} (hP : Closed K P) (hK :
    Foot.execCompareStart K = true) (hs_s : P s) :
    OutAll P (execCompareStart u s) := by
  simp only [Foot.execCompareStart, Bool.and_eq_true] at hK
  unfold execCompareStart
  with_reducible repeat' first
    | assumption
    | refine deliver_closed hP ?_ ?_
    | refine OutAll.mk ?_

def Foot.execEvProxypub (K : Part → Bool) : Bool := Foot.proxyPublish K

theorem execEvProxypub_closed {K : Part → Bool} {P : State → Prop} {k : CoreId} {ch : Channel} {s : State} (hP : Closed K P)
    (hK : Foot.execEvProxypub K = true) (hs_s : P s) :
    OutAll P (execEvProxypub k ch s) := by
  simp only [Foot.execEvProxypub, Bool.and_eq_true] at hK
  unfold execEvProxypub
  with_reducible repeat' first
    | assumption
    | refine proxyPublish_closed hP ?_ ?_
    | refine OutAll.mk ?_

def Foot.execEvPub (K : Part → Bool) : Bool := Foot.corePublish K

theorem execEvPub_closed {K : Part → Bool} {P : State → Prop} {k : CoreId} {ch : Channel} {s : State} (hP : Closed K P) (hK :
    Foot.execEvPub K = true) (hs_s : P s) :
    OutAll P (execEvPub k ch s) := by
  simp only [Foot.execEvPub, Bool.and_eq_true] at hK
  unfold execEvPub
  with_reducible repeat' first
    | assumption
    | refine corePublish_closed hP ?_ ?_
    | refine OutAll.mk ?_

def Foot.execEvUpub (K : Part → Bool) : Bool := Foot.userPublish K

theorem execEvUpub_closed {K : Part → Bool} {P : State → Prop} {k : CoreId} {ch : Channel} {s : State} (hP : Closed K P) (hK
    : Foot.execEvUpub K = true) (hs_s : P s) :
    OutAll P (execEvUpub k ch s) := by
  simp only [Foot.execEvUpub, Bool.and_eq_true] at hK
  unfold execEvUpub
  with_reducible repeat' first
    | assumption
    | refine userPublish_closed hP ?_ ?_
    | refine OutAll.mk ?_

def Foot.execStormRearm (K : Part → Bool) : Bool := Foot.rearm K

theorem execStormRearm_closed {K : Part → Bool} {P : State → Prop} {ch : Channel} {s : State} (hP : Closed K P) (hK :
    Foot.execStormRearm K = true) (hs_s : P s) :
    OutAll P (execStormRearm ch s) := by
  simp only [Foot.execStormRearm, Bool.and_eq_true] at hK
  unfold execStormRearm
  with_reducible repeat' first
    | assumption
    | refine rearm_closed hP ?_ ?_
    | refine OutAll.mk ?_

def Foot.execTurnoutConfig (K : Part → Bool) : Bool := Foot.turnoutWrite K

theorem execTurnoutConfig_closed {K : Part → Bool} {P : State → Prop} {k : CoreId} {t : Turnout} {ch : Channel} {en : Bool}
    {s : State} (hP : Closed K P) (hK : Foot.execTurnoutConfig K = true) (hs_s : P s) :
    OutAll P (execTurnoutConfig k t ch en s) := by
  simp only [Foot.execTurnoutConfig, Bool.and_eq_true] at hK
  unfold execTurnoutConfig
  with_reducible repeat' first
    | assumption
    | refine turnoutWrite_closed hP ?_ ?_
    | refine OutAll.mk ?_
    | intro _
    | (extract_lets +onlyGivenNames x; apply thenHave (p := P x); (unfold x; clear x); rotate_left 1; (intro hx; clear_value x))
    | (extract_lets +onlyGivenNames x; clear_value x)
    | (extract_lets +onlyGivenNames x)
    | refine ite_closed ?_ ?_
    | split

def Foot.execTurnoutDelivery (K : Part → Bool) : Bool := Foot.deliver K

theorem execTurnoutDelivery_closed {K : Part → Bool} {P : State → Prop} {t : Turnout} {more : Fin 16} {sub : Fin 20} {s :
    State} (hP : Closed K P) (hK : Foot.execTurnoutDelivery K = true) (hs_s : P s) :
    OutAll P (execTurnoutDelivery t more sub s) := by
  simp only [Foot.execTurnoutDelivery, Bool.and_eq_true] at hK
  unfold execTurnoutDelivery
  with_reducible repeat' first
    | assumption
    | refine deliver_closed hP ?_ ?_
    | refine OutAll.mk ?_

end Sys2Proof.Machine
end

