-- ==== Sys2Proof/Laws/ClosedRails.lean ====
section
/-! SUPPORT. What the functions of Machine/Rails.lean can write, and that they keep every closed property (Laws/Closed.lean). -/
namespace Sys2Proof.Machine

set_option Elab.async false
set_option linter.all false

def Foot.fclrWrite (K : Part → Bool) : Bool := K (.fld .fclrReq)

theorem fclrWrite_closed {K : Part → Bool} {P : State → Prop} {s : State} {r : Nat} (hP : Closed K P) (hK : Foot.fclrWrite K
    = true) (hs_s : P s) :
    P (fclrWrite s r) := by
  simp only [Foot.fclrWrite, Bool.and_eq_true] at hK
  unfold fclrWrite
  with_reducible repeat' first
    | assumption
    | refine hP.raise ?_ ?_
    | refine ite_closed ?_ ?_
    | split

theorem fclrWrite_get {s : State} {r : Nat} {fld0 : Fld} {i0 j0 : Nat} (hK : Foot.fclrWrite (notFld fld0) = true)  :
    (fclrWrite s r).get fld0 i0 j0 = s.get fld0 i0 j0 :=
  fclrWrite_closed (P := fun x => x.get fld0 i0 j0 = s.get fld0 i0 j0) (field_closed fld0 i0 j0 _) hK  rfl

def Foot.rsreqWrite (K : Part → Bool) : Bool := K (.fld .rsReq) && (K (.fld .DM_STATUS_REQERR))

theorem rsreqWrite_closed {K : Part → Bool} {P : State → Prop} {s : State} {r : Nat} (hP : Closed K P) (hK : Foot.rsreqWrite
    K = true) (hs_s : P s) :
    P (rsreqWrite s r) := by
  simp only [Foot.rsreqWrite, Bool.and_eq_true] at hK
  obtain ⟨hK0, hK1⟩ := hK
  unfold rsreqWrite
  with_reducible repeat' first
    | assumption
    | refine hP.raise ?_ ?_
    | refine ite_closed ?_ ?_
    | split

theorem rsreqWrite_get {s : State} {r : Nat} {fld0 : Fld} {i0 j0 : Nat} (hK : Foot.rsreqWrite (notFld fld0) = true)  :
    (rsreqWrite s r).get fld0 i0 j0 = s.get fld0 i0 j0 :=
  rsreqWrite_closed (P := fun x => x.get fld0 i0 j0 = s.get fld0 i0 j0) (field_closed fld0 i0 j0 _) hK  rfl

def Foot.stopDependents (K : Part → Bool) : Bool := K (.fld .stopNext)

theorem stopDependents_closed {K : Part → Bool} {P : State → Prop} {s : State} {r : Nat} (hP : Closed K P) (hK :
    Foot.stopDependents K = true) (hs_s : P s) :
    P (stopDependents s r) := by
  simp only [Foot.stopDependents, Bool.and_eq_true] at hK
  unfold stopDependents
  with_reducible repeat' first
    | assumption
    | refine hP.raise ?_ ?_
    | refine Closed.each ?_ _ ?_
    | intro _

theorem stopDependents_get {s : State} {r : Nat} {fld0 : Fld} {i0 j0 : Nat} (hK : Foot.stopDependents (notFld fld0) = true) 
    : (stopDependents s r).get fld0 i0 j0 = s.get fld0 i0 j0 :=
  stopDependents_closed (P := fun x => x.get fld0 i0 j0 = s.get fld0 i0 j0) (field_closed fld0 i0 j0 _) hK  rfl

def Foot.rampEntry (K : Part → Bool) : Bool := K (.fld .rampSince) && (K (.fld .lnBalFrom) && (K (.fld .SL_PTEST_FORCE) &&
    (Foot.countStarts K)))

theorem rampEntry_closed {K : Part → Bool} {P : State → Prop} {s : State} {r : Nat} {t : Int} (hP : Closed K P) (hK :
    Foot.rampEntry K = true) (hs_s : P s) :
    P (rampEntry s r t) := by
  simp only [Foot.rampEntry, Bool.and_eq_true] at hK
  obtain ⟨hK0, hK1, hK2, hK3⟩ := hK
  unfold rampEntry
  with_reducible repeat' first
    | assumption
    | refine countStarts_closed hP ?_ ?_
    | refine hP.put _ _ _ _ _ ?_ ?_
    | refine hP.clear ?_ ?_
    | refine Closed.each ?_ _ ?_
    | intro _
    | (extract_lets +onlyGivenNames x; apply thenHave (p := P x); (unfold x; clear x); rotate_left 1; (intro hx; clear_value x))
    | (extract_lets +onlyGivenNames x; clear_value x)

theorem rampEntry_get {s : State} {r : Nat} {t : Int} {fld0 : Fld} {i0 j0 : Nat} (hK : Foot.rampEntry (notFld fld0) = true) 
    : (rampEntry s r t).get fld0 i0 j0 = s.get fld0 i0 j0 :=
  rampEntry_closed (P := fun x => x.get fld0 i0 j0 = s.get fld0 i0 j0) (field_closed fld0 i0 j0 _) hK  rfl

def Foot.extendScope (K : Part → Bool) : Bool := K (.fld .scopeByNext) && (K (.fld .scopeNext))

theorem extendScope_closed {K : Part → Bool} {P : State → Prop} {s : State} {r : Nat} (hP : Closed K P) (hK :
    Foot.extendScope K = true) (hs_s : P s) :
    P (extendScope s r) := by
  simp only [Foot.extendScope, Bool.and_eq_true] at hK
  obtain ⟨hK0, hK1⟩ := hK
  unfold extendScope
  with_reducible repeat' first
    | assumption
    | refine hP.put _ _ _ _ _ ?_ ?_
    | refine hP.raise ?_ ?_
    | refine Closed.each ?_ _ ?_
    | intro _
    | (extract_lets +onlyGivenNames x; apply thenHave (p := P x); (unfold x; clear x); rotate_left 1; (intro hx; clear_value x))
    | (extract_lets +onlyGivenNames x; clear_value x)
    | refine ite_closed ?_ ?_
    | split

theorem extendScope_get {s : State} {r : Nat} {fld0 : Fld} {i0 j0 : Nat} (hK : Foot.extendScope (notFld fld0) = true)  :
    (extendScope s r).get fld0 i0 j0 = s.get fld0 i0 j0 :=
  extendScope_closed (P := fun x => x.get fld0 i0 j0 = s.get fld0 i0 j0) (field_closed fld0 i0 j0 _) hK  rfl

def Foot.faultEntry (K : Part → Bool) : Bool := K (.fld .DM_RAILSTAT_STARTTMO) && (K (.fld .scopeFrom) && (K (.fld .auxReq)
    && (K (.fld .faultLatchReq) && (K (.fld .faultCodes) && (Foot.enterFault K && (Foot.extendScope K))))))

theorem faultEntry_closed {K : Part → Bool} {P : State → Prop} {s : State} {r : Nat} {cause : Int} {t : Int} (hP : Closed K
    P) (hK : Foot.faultEntry K = true) (hs_s : P s) :
    P (faultEntry s r cause t) := by
  simp only [Foot.faultEntry, Bool.and_eq_true] at hK
  obtain ⟨hK0, hK1, hK2, hK3, hK4, hK5, hK6⟩ := hK
  unfold faultEntry
  with_reducible repeat' first
    | assumption
    | refine enterFault_closed hP ?_ ?_
    | refine extendScope_closed hP ?_ ?_
    | refine hP.put _ _ _ _ _ ?_ ?_
    | refine hP.clear ?_ ?_
    | refine hP.raise ?_ ?_
    | (extract_lets +onlyGivenNames x; apply thenHave (p := P x); (unfold x; clear x); rotate_left 1; (intro hx; clear_value x))
    | (extract_lets +onlyGivenNames x; clear_value x)
    | refine ite_closed ?_ ?_
    | split

theorem faultEntry_get {s : State} {r : Nat} {cause : Int} {t : Int} {fld0 : Fld} {i0 j0 : Nat} (hK : Foot.faultEntry (notFld
    fld0) = true)  : (faultEntry s r cause t).get fld0 i0 j0 = s.get fld0 i0 j0 :=
  faultEntry_closed (P := fun x => x.get fld0 i0 j0 = s.get fld0 i0 j0) (field_closed fld0 i0 j0 _) hK  rfl

def Foot.moveRail (K : Part → Bool) : Bool := K (.fld .railMoved) && (K (.fld .prevPg) && (K (.fld .prevState) && (K (.fld
    .DM_RAILSTAT_CAUSE) && (K (.fld .DM_RAILSTAT_STATE) && (K (.fld .regMt) && (K (.fld .pgOut) && (K (.fld .pgIn) && (K
    (.fld .DM_RAILSTAT_PGOOD) && (K (.fld .downAt) && (K (.fld .offSince) && (Foot.stopDependents K && (Foot.leaveFault K &&
    (Foot.activeChanged K && (Foot.rampEntry K && (Foot.faultEntry K)))))))))))))))

theorem moveRail_closed {K : Part → Bool} {P : State → Prop} {s : State} {r : Nat} {dest : Int} {cause : Int} {t : Int} (hP :
    Closed K P) (hK : Foot.moveRail K = true) (hs_s : P s) :
    P (moveRail s r dest cause t) := by
  simp only [Foot.moveRail, Bool.and_eq_true] at hK
  obtain ⟨hK0, hK1, hK2, hK3, hK4, hK5, hK6, hK7, hK8, hK9, hK10, hK11, hK12, hK13, hK14, hK15⟩ := hK
  unfold moveRail
  with_reducible repeat' first
    | assumption
    | refine stopDependents_closed hP ?_ ?_
    | refine leaveFault_closed hP ?_ ?_
    | refine activeChanged_closed hP ?_ ?_
    | refine rampEntry_closed hP ?_ ?_
    | refine faultEntry_closed hP ?_ ?_
    | refine hP.put _ _ _ _ _ ?_ ?_
    | refine hP.clear ?_ ?_
    | refine hP.raise ?_ ?_
    | intro _
    | (extract_lets +onlyGivenNames x; apply thenHave (p := P x); (unfold x; clear x); rotate_left 1; (intro hx; clear_value x))
    | (extract_lets +onlyGivenNames x; clear_value x)
    | refine ite_closed ?_ ?_
    | split

theorem moveRail_get {s : State} {r : Nat} {dest : Int} {cause : Int} {t : Int} {fld0 : Fld} {i0 j0 : Nat} (hK :
    Foot.moveRail (notFld fld0) = true)  : (moveRail s r dest cause t).get fld0 i0 j0 = s.get fld0 i0 j0 :=
  moveRail_closed (P := fun x => x.get fld0 i0 j0 = s.get fld0 i0 j0) (field_closed fld0 i0 j0 _) hK  rfl

def Foot.takeRow (K : Part → Bool) : Bool := Foot.moveRail K

theorem takeRow_closed {K : Part → Bool} {P : State → Prop} {s : State} {r : Nat} {dest : Int} {cause : Int} (hP : Closed K
    P) (hK : Foot.takeRow K = true) (hs_s : P s) :
    P (takeRow s r dest cause) := by
  simp only [Foot.takeRow, Bool.and_eq_true] at hK
  unfold takeRow
  with_reducible repeat' first
    | assumption
    | refine moveRail_closed hP ?_ ?_
    | refine ite_closed ?_ ?_
    | split

theorem takeRow_get {s : State} {r : Nat} {dest : Int} {cause : Int} {fld0 : Fld} {i0 j0 : Nat} (hK : Foot.takeRow (notFld
    fld0) = true)  : (takeRow s r dest cause).get fld0 i0 j0 = s.get fld0 i0 j0 :=
  takeRow_closed (P := fun x => x.get fld0 i0 j0 = s.get fld0 i0 j0) (field_closed fld0 i0 j0 _) hK  rfl

def Foot.auxFaultClear (K : Part → Bool) : Bool := Foot.takeRow K

theorem auxFaultClear_closed {K : Part → Bool} {P : State → Prop} {s : State} {r : Nat} (hP : Closed K P) (hK :
    Foot.auxFaultClear K = true) (hs_s : P s) :
    P (auxFaultClear s r) := by
  simp only [Foot.auxFaultClear, Bool.and_eq_true] at hK
  unfold auxFaultClear
  with_reducible repeat' first
    | assumption
    | refine takeRow_closed hP ?_ ?_
    | refine ite_closed ?_ ?_
    | split

theorem auxFaultClear_get {s : State} {r : Nat} {fld0 : Fld} {i0 j0 : Nat} (hK : Foot.auxFaultClear (notFld fld0) = true)  :
    (auxFaultClear s r).get fld0 i0 j0 = s.get fld0 i0 j0 :=
  auxFaultClear_closed (P := fun x => x.get fld0 i0 j0 = s.get fld0 i0 j0) (field_closed fld0 i0 j0 _) hK  rfl

def Foot.clearRequests (K : Part → Bool) : Bool := K (.fld .auxReq) && (K (.fld .faultLatchReq) && (K (.fld .faultCodes) &&
    (K (.fld .rsDone) && (K (.fld .rsReq) && (K (.fld .fclrReq) && (K (.fld .stopNext) && (K (.fld .stopReq) && (K (.fld
    .scopeNext) && (K (.fld .scopeReq) && (K (.fld .railMoved) && (K (.fld .scopeBy))))))))))))

theorem clearRequests_closed {K : Part → Bool} {P : State → Prop} {s : State} {r : Nat} (hP : Closed K P) (hK :
    Foot.clearRequests K = true) (hs_s : P s) :
    P (clearRequests s r) := by
  simp only [Foot.clearRequests, Bool.and_eq_true] at hK
  obtain ⟨hK0, hK1, hK2, hK3, hK4, hK5, hK6, hK7, hK8, hK9, hK10, hK11⟩ := hK
  unfold clearRequests
  with_reducible repeat' first
    | assumption
    | refine hP.put _ _ _ _ _ ?_ ?_
    | refine hP.clear ?_ ?_
    | (extract_lets +onlyGivenNames x; apply thenHave (p := P x); (unfold x; clear x); rotate_left 1; (intro hx; clear_value x))
    | (extract_lets +onlyGivenNames x; clear_value x)
    | refine ite_closed ?_ ?_
    | split

theorem clearRequests_get {s : State} {r : Nat} {fld0 : Fld} {i0 j0 : Nat} (hK : Foot.clearRequests (notFld fld0) = true)  :
    (clearRequests s r).get fld0 i0 j0 = s.get fld0 i0 j0 :=
  clearRequests_closed (P := fun x => x.get fld0 i0 j0 = s.get fld0 i0 j0) (field_closed fld0 i0 j0 _) hK  rfl

def Foot.judgeEnable (K : Part → Bool) : Bool := K (.fld .enOff) && (K (.fld .enOffAt) && (Foot.stopDependents K))

theorem judgeEnable_closed {K : Part → Bool} {P : State → Prop} {s : State} {r : Nat} {t : Int} (hP : Closed K P) (hK :
    Foot.judgeEnable K = true) (hs_s : P s) :
    P (judgeEnable s r t) := by
  simp only [Foot.judgeEnable, Bool.and_eq_true] at hK
  obtain ⟨hK0, hK1, hK2⟩ := hK
  unfold judgeEnable
  with_reducible repeat' first
    | assumption
    | refine stopDependents_closed hP ?_ ?_
    | refine hP.put _ _ _ _ _ ?_ ?_
    | refine hP.clear ?_ ?_
    | refine hP.raise ?_ ?_
    | (extract_lets +onlyGivenNames x; apply thenHave (p := P x); (unfold x; clear x); rotate_left 1; (intro hx; clear_value x))
    | (extract_lets +onlyGivenNames x; clear_value x)
    | refine ite_closed ?_ ?_
    | split

theorem judgeEnable_get {s : State} {r : Nat} {t : Int} {fld0 : Fld} {i0 j0 : Nat} (hK : Foot.judgeEnable (notFld fld0) =
    true)  : (judgeEnable s r t).get fld0 i0 j0 = s.get fld0 i0 j0 :=
  judgeEnable_closed (P := fun x => x.get fld0 i0 j0 = s.get fld0 i0 j0) (field_closed fld0 i0 j0 _) hK  rfl

def Foot.railBoundary (K : Part → Bool) : Bool := K (.fld .DM_RAILSTAT_PREDOK) && (Foot.judgeEnable K && (Foot.moveRail K &&
    (Foot.clearRequests K)))

theorem railBoundary_closed {K : Part → Bool} {P : State → Prop} {s : State} {t : Int} (hP : Closed K P) (hK :
    Foot.railBoundary K = true) (hs_s : P s) :
    P (railBoundary s t) := by
  simp only [Foot.railBoundary, Bool.and_eq_true] at hK
  obtain ⟨hK0, hK1, hK2, hK3⟩ := hK
  unfold railBoundary
  with_reducible repeat' first
    | assumption
    | refine judgeEnable_closed hP ?_ ?_
    | refine moveRail_closed hP ?_ ?_
    | refine clearRequests_closed hP ?_ ?_
    | refine hP.put _ _ _ _ _ ?_ ?_
    | refine Closed.each ?_ _ ?_
    | intro _
    | (extract_lets +onlyGivenNames x; apply thenHave (p := P x); (unfold x; clear x); rotate_left 1; (intro hx; clear_value x))
    | (extract_lets +onlyGivenNames x; clear_value x)
    | refine ite_closed ?_ ?_
    | split

theorem railBoundary_get {s : State} {t : Int} {fld0 : Fld} {i0 j0 : Nat} (hK : Foot.railBoundary (notFld fld0) = true)  :
    (railBoundary s t).get fld0 i0 j0 = s.get fld0 i0 j0 :=
  railBoundary_closed (P := fun x => x.get fld0 i0 j0 = s.get fld0 i0 j0) (field_closed fld0 i0 j0 _) hK  rfl

def Foot.execAuxFaultClear (K : Part → Bool) : Bool := Foot.auxFaultClear K

theorem execAuxFaultClear_closed {K : Part → Bool} {P : State → Prop} {r : Rail} {s : State} (hP : Closed K P) (hK :
    Foot.execAuxFaultClear K = true) (hs_s : P s) :
    OutAll P (execAuxFaultClear r s) := by
  simp only [Foot.execAuxFaultClear, Bool.and_eq_true] at hK
  unfold execAuxFaultClear
  with_reducible repeat' first
    | assumption
    | refine auxFaultClear_closed hP ?_ ?_
    | refine OutAll.mk ?_

def Foot.execFclr (K : Part → Bool) : Bool := Foot.fclrWrite K

theorem execFclr_closed {K : Part → Bool} {P : State → Prop} {r : Rail} {s : State} (hP : Closed K P) (hK : Foot.execFclr K =
    true) (hs_s : P s) :
    OutAll P (execFclr r s) := by
  simp only [Foot.execFclr, Bool.and_eq_true] at hK
  unfold execFclr
  with_reducible repeat' first
    | assumption
    | refine fclrWrite_closed hP ?_ ?_
    | refine OutAll.mk ?_
    | intro _
    | (extract_lets +onlyGivenNames x; apply thenHave (p := P x); (unfold x; clear x); rotate_left 1; (intro hx; clear_value x))
    | (extract_lets +onlyGivenNames x; clear_value x)
    | (extract_lets +onlyGivenNames x)
    | refine ite_closed ?_ ?_
    | split

def Foot.offDwellExpiry (K : Part → Bool) : Bool := Foot.takeRow K

theorem offDwellExpiry_closed {K : Part → Bool} {P : State → Prop} {s : State} {r : Nat} (hP : Closed K P) (hK :
    Foot.offDwellExpiry K = true) (hs_s : P s) :
    P (offDwellExpiry s r) := by
  simp only [Foot.offDwellExpiry, Bool.and_eq_true] at hK
  unfold offDwellExpiry
  with_reducible repeat' first
    | assumption
    | refine takeRow_closed hP ?_ ?_

theorem offDwellExpiry_get {s : State} {r : Nat} {fld0 : Fld} {i0 j0 : Nat} (hK : Foot.offDwellExpiry (notFld fld0) = true) 
    : (offDwellExpiry s r).get fld0 i0 j0 = s.get fld0 i0 j0 :=
  offDwellExpiry_closed (P := fun x => x.get fld0 i0 j0 = s.get fld0 i0 j0) (field_closed fld0 i0 j0 _) hK  rfl

def Foot.execOffDwellExpiry (K : Part → Bool) : Bool := Foot.offDwellExpiry K

theorem execOffDwellExpiry_closed {K : Part → Bool} {P : State → Prop} {r : Rail} {s : State} (hP : Closed K P) (hK :
    Foot.execOffDwellExpiry K = true) (hs_s : P s) :
    OutAll P (execOffDwellExpiry r s) := by
  simp only [Foot.execOffDwellExpiry, Bool.and_eq_true] at hK
  unfold execOffDwellExpiry
  with_reducible repeat' first
    | assumption
    | refine offDwellExpiry_closed hP ?_ ?_
    | refine OutAll.mk ?_

def Foot.retryExpiry (K : Part → Bool) : Bool := Foot.takeRow K

theorem retryExpiry_closed {K : Part → Bool} {P : State → Prop} {s : State} {r : Nat} (hP : Closed K P) (hK :
    Foot.retryExpiry K = true) (hs_s : P s) :
    P (retryExpiry s r) := by
  simp only [Foot.retryExpiry, Bool.and_eq_true] at hK
  unfold retryExpiry
  with_reducible repeat' first
    | assumption
    | refine takeRow_closed hP ?_ ?_
    | refine ite_closed ?_ ?_
    | split

theorem retryExpiry_get {s : State} {r : Nat} {fld0 : Fld} {i0 j0 : Nat} (hK : Foot.retryExpiry (notFld fld0) = true)  :
    (retryExpiry s r).get fld0 i0 j0 = s.get fld0 i0 j0 :=
  retryExpiry_closed (P := fun x => x.get fld0 i0 j0 = s.get fld0 i0 j0) (field_closed fld0 i0 j0 _) hK  rfl

def Foot.execRetryExpiry (K : Part → Bool) : Bool := Foot.retryExpiry K

theorem execRetryExpiry_closed {K : Part → Bool} {P : State → Prop} {r : Rail} {s : State} (hP : Closed K P) (hK :
    Foot.execRetryExpiry K = true) (hs_s : P s) :
    OutAll P (execRetryExpiry r s) := by
  simp only [Foot.execRetryExpiry, Bool.and_eq_true] at hK
  unfold execRetryExpiry
  with_reducible repeat' first
    | assumption
    | refine retryExpiry_closed hP ?_ ?_
    | refine OutAll.mk ?_

def Foot.execRsreq (K : Part → Bool) : Bool := Foot.rsreqWrite K

theorem execRsreq_closed {K : Part → Bool} {P : State → Prop} {r : Rail} {s : State} (hP : Closed K P) (hK : Foot.execRsreq K
    = true) (hs_s : P s) :
    OutAll P (execRsreq r s) := by
  simp only [Foot.execRsreq, Bool.and_eq_true] at hK
  unfold execRsreq
  with_reducible repeat' first
    | assumption
    | refine rsreqWrite_closed hP ?_ ?_
    | refine OutAll.mk ?_
    | intro _
    | (extract_lets +onlyGivenNames x; apply thenHave (p := P x); (unfold x; clear x); rotate_left 1; (intro hx; clear_value x))
    | (extract_lets +onlyGivenNames x; clear_value x)
    | (extract_lets +onlyGivenNames x)
    | refine ite_closed ?_ ?_
    | split

def Foot.startTimeout (K : Part → Bool) : Bool := Foot.takeRow K

theorem startTimeout_closed {K : Part → Bool} {P : State → Prop} {s : State} {r : Nat} (hP : Closed K P) (hK :
    Foot.startTimeout K = true) (hs_s : P s) :
    P (startTimeout s r) := by
  simp only [Foot.startTimeout, Bool.and_eq_true] at hK
  unfold startTimeout
  with_reducible repeat' first
    | assumption
    | refine takeRow_closed hP ?_ ?_

theorem startTimeout_get {s : State} {r : Nat} {fld0 : Fld} {i0 j0 : Nat} (hK : Foot.startTimeout (notFld fld0) = true)  :
    (startTimeout s r).get fld0 i0 j0 = s.get fld0 i0 j0 :=
  startTimeout_closed (P := fun x => x.get fld0 i0 j0 = s.get fld0 i0 j0) (field_closed fld0 i0 j0 _) hK  rfl

def Foot.execStartTimeout (K : Part → Bool) : Bool := Foot.startTimeout K

theorem execStartTimeout_closed {K : Part → Bool} {P : State → Prop} {r : Rail} {s : State} (hP : Closed K P) (hK :
    Foot.execStartTimeout K = true) (hs_s : P s) :
    OutAll P (execStartTimeout r s) := by
  simp only [Foot.execStartTimeout, Bool.and_eq_true] at hK
  unfold execStartTimeout
  with_reducible repeat' first
    | assumption
    | refine startTimeout_closed hP ?_ ?_
    | refine OutAll.mk ?_

def Foot.stopDelayExpiry (K : Part → Bool) : Bool := Foot.takeRow K

theorem stopDelayExpiry_closed {K : Part → Bool} {P : State → Prop} {s : State} {r : Nat} (hP : Closed K P) (hK :
    Foot.stopDelayExpiry K = true) (hs_s : P s) :
    P (stopDelayExpiry s r) := by
  simp only [Foot.stopDelayExpiry, Bool.and_eq_true] at hK
  unfold stopDelayExpiry
  with_reducible repeat' first
    | assumption
    | refine takeRow_closed hP ?_ ?_

theorem stopDelayExpiry_get {s : State} {r : Nat} {fld0 : Fld} {i0 j0 : Nat} (hK : Foot.stopDelayExpiry (notFld fld0) = true)
     : (stopDelayExpiry s r).get fld0 i0 j0 = s.get fld0 i0 j0 :=
  stopDelayExpiry_closed (P := fun x => x.get fld0 i0 j0 = s.get fld0 i0 j0) (field_closed fld0 i0 j0 _) hK  rfl

def Foot.execStopDelayExpiry (K : Part → Bool) : Bool := Foot.stopDelayExpiry K

theorem execStopDelayExpiry_closed {K : Part → Bool} {P : State → Prop} {r : Rail} {s : State} (hP : Closed K P) (hK :
    Foot.execStopDelayExpiry K = true) (hs_s : P s) :
    OutAll P (execStopDelayExpiry r s) := by
  simp only [Foot.execStopDelayExpiry, Bool.and_eq_true] at hK
  unfold execStopDelayExpiry
  with_reducible repeat' first
    | assumption
    | refine stopDelayExpiry_closed hP ?_ ?_
    | refine OutAll.mk ?_

end Sys2Proof.Machine
end

