-- ==== Sys2Proof/Laws/ClosedRecorder.lean ====
section
/-! SUPPORT. What the functions of Machine/Recorder.lean can write, and that they keep every closed property (Laws/Closed.lean). -/
namespace Sys2Proof.Machine

set_option Elab.async false
set_option linter.all false

def Foot.recResume (K : Part → Bool) : Bool := K (.fld .RC_STATUS_FROZEN)

theorem recResume_closed {K : Part → Bool} {P : State → Prop} {s : State} (hP : Closed K P) (hK : Foot.recResume K = true)
    (hs_s : P s) :
    P (recResume s) := by
  simp only [Foot.recResume, Bool.and_eq_true] at hK
  unfold recResume
  with_reducible repeat' first
    | assumption
    | refine hP.clear ?_ ?_
    | refine ite_closed ?_ ?_
    | split

theorem recResume_get {s : State} {fld0 : Fld} {i0 j0 : Nat} (hK : Foot.recResume (notFld fld0) = true)  : (recResume s).get
    fld0 i0 j0 = s.get fld0 i0 j0 :=
  recResume_closed (P := fun x => x.get fld0 i0 j0 = s.get fld0 i0 j0) (field_closed fld0 i0 j0 _) hK  rfl

def Foot.stgTrigger (K : Part → Bool) : Bool := K (.fld .stgLeft) && (K (.fld .stgOn) && (K (.fld .RC_STGTRIG)))

theorem stgTrigger_closed {K : Part → Bool} {P : State → Prop} {s : State} (hP : Closed K P) (hK : Foot.stgTrigger K = true)
    (hs_s : P s) :
    P (stgTrigger s) := by
  simp only [Foot.stgTrigger, Bool.and_eq_true] at hK
  obtain ⟨hK0, hK1, hK2⟩ := hK
  unfold stgTrigger
  with_reducible repeat' first
    | assumption
    | refine hP.put _ _ _ _ _ ?_ ?_
    | refine hP.raise ?_ ?_
    | refine ite_closed ?_ ?_
    | split

theorem stgTrigger_get {s : State} {fld0 : Fld} {i0 j0 : Nat} (hK : Foot.stgTrigger (notFld fld0) = true)  : (stgTrigger
    s).get fld0 i0 j0 = s.get fld0 i0 j0 :=
  stgTrigger_closed (P := fun x => x.get fld0 i0 j0 = s.get fld0 i0 j0) (field_closed fld0 i0 j0 _) hK  rfl

def Foot.startPost (K : Part → Bool) : Bool := K (.fld .recPost) && (K (.fld .recPosting))

theorem startPost_closed {K : Part → Bool} {P : State → Prop} {s : State} (hP : Closed K P) (hK : Foot.startPost K = true)
    (hs_s : P s) :
    P (startPost s) := by
  simp only [Foot.startPost, Bool.and_eq_true] at hK
  obtain ⟨hK0, hK1⟩ := hK
  unfold startPost
  with_reducible repeat' first
    | assumption
    | refine hP.put _ _ _ _ _ ?_ ?_
    | refine hP.raise ?_ ?_
    | refine ite_closed ?_ ?_
    | split

theorem startPost_get {s : State} {fld0 : Fld} {i0 j0 : Nat} (hK : Foot.startPost (notFld fld0) = true)  : (startPost s).get
    fld0 i0 j0 = s.get fld0 i0 j0 :=
  startPost_closed (P := fun x => x.get fld0 i0 j0 = s.get fld0 i0 j0) (field_closed fld0 i0 j0 _) hK  rfl

def Foot.freezeNow (K : Part → Bool) : Bool := K (.fld .recFrzAt) && (Foot.stgTrigger K && (Foot.startPost K))

theorem freezeNow_closed {K : Part → Bool} {P : State → Prop} {s : State} (hP : Closed K P) (hK : Foot.freezeNow K = true)
    (hs_s : P s) :
    P (freezeNow s) := by
  simp only [Foot.freezeNow, Bool.and_eq_true] at hK
  obtain ⟨hK0, hK1, hK2⟩ := hK
  unfold freezeNow
  with_reducible repeat' first
    | assumption
    | refine stgTrigger_closed hP ?_ ?_
    | refine startPost_closed hP ?_ ?_
    | refine hP.put _ _ _ _ _ ?_ ?_
    | refine ite_closed ?_ ?_
    | split

theorem freezeNow_get {s : State} {fld0 : Fld} {i0 j0 : Nat} (hK : Foot.freezeNow (notFld fld0) = true)  : (freezeNow s).get
    fld0 i0 j0 = s.get fld0 i0 j0 :=
  freezeNow_closed (P := fun x => x.get fld0 i0 j0 = s.get fld0 i0 j0) (field_closed fld0 i0 j0 _) hK  rfl

def Foot.stgArm (K : Part → Bool) : Bool := K (.fld .stgOn) && (K (.fld .RC_STATUS_WINV) && (K (.fld .RC_STATUS_STGARMED)))

theorem stgArm_closed {K : Part → Bool} {P : State → Prop} {s : State} (hP : Closed K P) (hK : Foot.stgArm K = true) (hs_s :
    P s) :
    P (stgArm s) := by
  simp only [Foot.stgArm, Bool.and_eq_true] at hK
  obtain ⟨hK0, hK1, hK2⟩ := hK
  unfold stgArm
  with_reducible repeat' first
    | assumption
    | refine hP.clear ?_ ?_
    | refine hP.raise ?_ ?_
    | refine ite_closed ?_ ?_
    | split

theorem stgArm_get {s : State} {fld0 : Fld} {i0 j0 : Nat} (hK : Foot.stgArm (notFld fld0) = true)  : (stgArm s).get fld0 i0
    j0 = s.get fld0 i0 j0 :=
  stgArm_closed (P := fun x => x.get fld0 i0 j0 = s.get fld0 i0 j0) (field_closed fld0 i0 j0 _) hK  rfl

def Foot.recCtrlWrite (K : Part → Bool) : Bool := K (.fld .RC_STATUS_CFGERR) && (K (.fld .RC_CTRL_EN) && (Foot.recResume K &&
    (Foot.freezeNow K && (Foot.stgArm K && (Foot.stgTrigger K)))))

theorem recCtrlWrite_closed {K : Part → Bool} {P : State → Prop} {s : State} {v : Int} (hP : Closed K P) (hK :
    Foot.recCtrlWrite K = true) (hs_s : P s) :
    P (recCtrlWrite s v) := by
  simp only [Foot.recCtrlWrite, Bool.and_eq_true] at hK
  obtain ⟨hK0, hK1, hK2, hK3, hK4, hK5⟩ := hK
  unfold recCtrlWrite
  with_reducible repeat' first
    | assumption
    | refine recResume_closed hP ?_ ?_
    | refine freezeNow_closed hP ?_ ?_
    | refine stgArm_closed hP ?_ ?_
    | refine stgTrigger_closed hP ?_ ?_
    | refine hP.put _ _ _ _ _ ?_ ?_
    | refine hP.clear ?_ ?_
    | refine hP.raise ?_ ?_
    | refine hP.bump ?_ ?_
    | refine hP.setBits ?_ ?_
    | refine hP.clrBits ?_ ?_
    | refine Closed.when ?_ ?_
    | intro _
    | (extract_lets +onlyGivenNames x; apply thenHave (p := P x); (unfold x; clear x); rotate_left 1; (intro hx; clear_value x))
    | (extract_lets +onlyGivenNames x; clear_value x)
    | (extract_lets +onlyGivenNames x)
    | refine ite_closed ?_ ?_
    | split

theorem recCtrlWrite_get {s : State} {v : Int} {fld0 : Fld} {i0 j0 : Nat} (hK : Foot.recCtrlWrite (notFld fld0) = true)  :
    (recCtrlWrite s v).get fld0 i0 j0 = s.get fld0 i0 j0 :=
  recCtrlWrite_closed (P := fun x => x.get fld0 i0 j0 = s.get fld0 i0 j0) (field_closed fld0 i0 j0 _) hK  rfl

def Foot.recBaseWrite (K : Part → Bool) : Bool := K (.fld .RC_STATUS_CFGERR) && (K (.fld .RC_BASE))

theorem recBaseWrite_closed {K : Part → Bool} {P : State → Prop} {s : State} {v : Int} (hP : Closed K P) (hK :
    Foot.recBaseWrite K = true) (hs_s : P s) :
    P (recBaseWrite s v) := by
  simp only [Foot.recBaseWrite, Bool.and_eq_true] at hK
  obtain ⟨hK0, hK1⟩ := hK
  unfold recBaseWrite
  with_reducible repeat' first
    | assumption
    | refine hP.put _ _ _ _ _ ?_ ?_
    | refine hP.raise ?_ ?_
    | (extract_lets +onlyGivenNames x; apply thenHave (p := P x); (unfold x; clear x); rotate_left 1; (intro hx; clear_value x))
    | (extract_lets +onlyGivenNames x; clear_value x)
    | refine ite_closed ?_ ?_
    | split

theorem recBaseWrite_get {s : State} {v : Int} {fld0 : Fld} {i0 j0 : Nat} (hK : Foot.recBaseWrite (notFld fld0) = true)  :
    (recBaseWrite s v).get fld0 i0 j0 = s.get fld0 i0 j0 :=
  recBaseWrite_closed (P := fun x => x.get fld0 i0 j0 = s.get fld0 i0 j0) (field_closed fld0 i0 j0 _) hK  rfl

def Foot.frzPostWrite (K : Part → Bool) : Bool := K (.fld .RC_FRZPOST) && (K (.fld .RC_STATUS_CFGERR))

theorem frzPostWrite_closed {K : Part → Bool} {P : State → Prop} {s : State} {v : Int} (hP : Closed K P) (hK :
    Foot.frzPostWrite K = true) (hs_s : P s) :
    P (frzPostWrite s v) := by
  simp only [Foot.frzPostWrite, Bool.and_eq_true] at hK
  obtain ⟨hK0, hK1⟩ := hK
  unfold frzPostWrite
  with_reducible repeat' first
    | assumption
    | refine hP.put _ _ _ _ _ ?_ ?_
    | refine hP.raise ?_ ?_
    | refine ite_closed ?_ ?_
    | split

theorem frzPostWrite_get {s : State} {v : Int} {fld0 : Fld} {i0 j0 : Nat} (hK : Foot.frzPostWrite (notFld fld0) = true)  :
    (frzPostWrite s v).get fld0 i0 j0 = s.get fld0 i0 j0 :=
  frzPostWrite_closed (P := fun x => x.get fld0 i0 j0 = s.get fld0 i0 j0) (field_closed fld0 i0 j0 _) hK  rfl

def Foot.enqueue (K : Part → Bool) : Bool := K (.fld .recSeq) && (K (.fld .RC_DROP) && (K (.fld .RC_DROPF) && (K .recQueue &&
    (Foot.startPost K))))

theorem enqueue_closed {K : Part → Bool} {P : State → Prop} {s : State} {typ : Nat} {index : Nat} {snap : Bool} {freeze :
    Bool} {body : List W16} (hP : Closed K P) (hK : Foot.enqueue K = true) (hs_s : P s) :
    P (enqueue s typ index snap freeze body) := by
  simp only [Foot.enqueue, Bool.and_eq_true] at hK
  obtain ⟨hK0, hK1, hK2, hK3, hK4⟩ := hK
  unfold enqueue
  with_reducible repeat' first
    | assumption
    | refine startPost_closed hP ?_ ?_
    | refine hP.put _ _ _ _ _ ?_ ?_
    | refine hP.bump ?_ ?_
    | (extract_lets +onlyGivenNames x; apply thenHave (p := P x); (unfold x; clear x); rotate_left 1; (intro hx; clear_value x))
    | (extract_lets +onlyGivenNames x; clear_value x)
    | refine hP.remake _ _ _ _ _ _ _ _ _ _ _ _ _ _ _ _ _ _ _ _ _ _ _ (hs := ?_); first | assumption | (with_reducible refine startPost_closed hP ?_ ?_) | (with_reducible refine hP.put _ _ _ _ _ ?_ ?_) | (with_reducible refine hP.clear ?_ ?_) | (with_reducible refine hP.raise ?_ ?_) | (with_reducible refine hP.bump ?_ ?_) | (with_reducible refine hP.setBits ?_ ?_) | (with_reducible refine hP.clrBits ?_ ?_)
    | refine ite_closed ?_ ?_
    | split

theorem enqueue_get {s : State} {typ : Nat} {index : Nat} {snap : Bool} {freeze : Bool} {body : List W16} {fld0 : Fld} {i0 j0
    : Nat} (hK : Foot.enqueue (notFld fld0) = true)  : (enqueue s typ index snap freeze body).get fld0 i0 j0 = s.get fld0 i0
    j0 :=
  enqueue_closed (P := fun x => x.get fld0 i0 j0 = s.get fld0 i0 j0) (field_closed fld0 i0 j0 _) hK  rfl

def Foot.msgGo (K : Part → Bool) : Bool := K (.fld .RC_STATUS_CFGERR) && (K (.fld .recMsgAt) && (Foot.enqueue K))

theorem msgGo_closed {K : Part → Bool} {P : State → Prop} {s : State} {k : Nat} (hP : Closed K P) (hK : Foot.msgGo K = true)
    (hs_s : P s) :
    P (msgGo s k) := by
  simp only [Foot.msgGo, Bool.and_eq_true] at hK
  obtain ⟨hK0, hK1, hK2⟩ := hK
  unfold msgGo
  with_reducible repeat' first
    | assumption
    | refine enqueue_closed hP ?_ ?_
    | refine hP.put _ _ _ _ _ ?_ ?_
    | refine hP.raise ?_ ?_
    | intro _
    | (extract_lets +onlyGivenNames x; apply thenHave (p := P x); (unfold x; clear x); rotate_left 1; (intro hx; clear_value x))
    | (extract_lets +onlyGivenNames x; clear_value x)
    | refine ite_closed ?_ ?_
    | split

theorem msgGo_get {s : State} {k : Nat} {fld0 : Fld} {i0 j0 : Nat} (hK : Foot.msgGo (notFld fld0) = true)  : (msgGo s k).get
    fld0 i0 j0 = s.get fld0 i0 j0 :=
  msgGo_closed (P := fun x => x.get fld0 i0 j0 = s.get fld0 i0 j0) (field_closed fld0 i0 j0 _) hK  rfl

def Foot.generateRecords (K : Part → Bool) : Bool := K (.fld .recFrzAt) && (K .freeCtr && (Foot.enqueue K))

theorem generateRecords_closed {K : Part → Bool} {P : State → Prop} {s : State} (hP : Closed K P) (hK : Foot.generateRecords
    K = true) (hs_s : P s) :
    P (generateRecords s) := by
  simp only [Foot.generateRecords, Bool.and_eq_true] at hK
  obtain ⟨hK0, hK1, hK2⟩ := hK
  unfold generateRecords
  with_reducible repeat' first
    | assumption
    | refine enqueue_closed hP ?_ ?_
    | refine hP.put _ _ _ _ _ ?_ ?_
    | refine Closed.each ?_ _ ?_
    | refine hP.fresh ?_ ?_
    | intro _
    | (extract_lets +onlyGivenNames x; apply thenHave (p := P x); (unfold x; clear x); rotate_left 1; (intro hx; clear_value x))
    | (extract_lets +onlyGivenNames x; clear_value x)
    | refine ite_closed ?_ ?_
    | split

theorem generateRecords_get {s : State} {fld0 : Fld} {i0 j0 : Nat} (hK : Foot.generateRecords (notFld fld0) = true)  :
    (generateRecords s).get fld0 i0 j0 = s.get fld0 i0 j0 :=
  generateRecords_closed (P := fun x => x.get fld0 i0 j0 = s.get fld0 i0 j0) (field_closed fld0 i0 j0 _) hK  rfl

def Foot.stgRecord (K : Part → Bool) : Bool := K (.fld .stgJ) && (K (.fld .stgLeft) && (Foot.State.storeFresh K))

theorem stgRecord_closed {K : Part → Bool} {P : State → Prop} {s : State} {r : Nat} (hP : Closed K P) (hK : Foot.stgRecord K
    = true) (hs_s : P s) :
    P (stgRecord s r) := by
  simp only [Foot.stgRecord, Bool.and_eq_true] at hK
  obtain ⟨hK0, hK1, hK2⟩ := hK
  unfold stgRecord
  with_reducible repeat' first
    | assumption
    | refine State.storeFresh_closed hP ?_ ?_
    | refine hP.put _ _ _ _ _ ?_ ?_
    | refine Closed.each ?_ _ ?_
    | intro _
    | (extract_lets +onlyGivenNames x; apply thenHave (p := P x); (unfold x; clear x); rotate_left 1; (intro hx; clear_value x))
    | (extract_lets +onlyGivenNames x; clear_value x)
    | refine ite_closed ?_ ?_
    | split

theorem stgRecord_get {s : State} {r : Nat} {fld0 : Fld} {i0 j0 : Nat} (hK : Foot.stgRecord (notFld fld0) = true)  :
    (stgRecord s r).get fld0 i0 j0 = s.get fld0 i0 j0 :=
  stgRecord_closed (P := fun x => x.get fld0 i0 j0 = s.get fld0 i0 j0) (field_closed fld0 i0 j0 _) hK  rfl

def Foot.stgTick (K : Part → Bool) : Bool := Foot.stgTrigger K && (Foot.stgRecord K)

theorem stgTick_closed {K : Part → Bool} {P : State → Prop} {s : State} (hP : Closed K P) (hK : Foot.stgTick K = true) (hs_s
    : P s) :
    P (stgTick s) := by
  simp only [Foot.stgTick, Bool.and_eq_true] at hK
  obtain ⟨hK0, hK1⟩ := hK
  unfold stgTick
  with_reducible repeat' first
    | assumption
    | refine stgTrigger_closed hP ?_ ?_
    | refine stgRecord_closed hP ?_ ?_
    | refine Closed.each ?_ _ ?_
    | intro _
    | (extract_lets +onlyGivenNames x; apply thenHave (p := P x); (unfold x; clear x); rotate_left 1; (intro hx; clear_value x))
    | (extract_lets +onlyGivenNames x; clear_value x)
    | refine ite_closed ?_ ?_
    | split

theorem stgTick_get {s : State} {fld0 : Fld} {i0 j0 : Nat} (hK : Foot.stgTick (notFld fld0) = true)  : (stgTick s).get fld0
    i0 j0 = s.get fld0 i0 j0 :=
  stgTick_closed (P := fun x => x.get fld0 i0 j0 = s.get fld0 i0 j0) (field_closed fld0 i0 j0 _) hK  rfl

def Foot.recorderTick (K : Part → Bool) : Bool := K (.fld .recEnab) && (K (.fld .recEv) && (Foot.generateRecords K &&
    (Foot.stgTick K)))

theorem recorderTick_closed {K : Part → Bool} {P : State → Prop} {s : State} (hP : Closed K P) (hK : Foot.recorderTick K =
    true) (hs_s : P s) :
    P (recorderTick s) := by
  simp only [Foot.recorderTick, Bool.and_eq_true] at hK
  obtain ⟨hK0, hK1, hK2, hK3⟩ := hK
  unfold recorderTick
  with_reducible repeat' first
    | assumption
    | refine generateRecords_closed hP ?_ ?_
    | refine stgTick_closed hP ?_ ?_
    | refine hP.put _ _ _ _ _ ?_ ?_
    | refine hP.clear ?_ ?_
    | refine Closed.each ?_ _ ?_
    | intro _
    | (extract_lets +onlyGivenNames x; apply thenHave (p := P x); (unfold x; clear x); rotate_left 1; (intro hx; clear_value x))
    | (extract_lets +onlyGivenNames x; clear_value x)
    | refine ite_closed ?_ ?_
    | split

theorem recorderTick_get {s : State} {fld0 : Fld} {i0 j0 : Nat} (hK : Foot.recorderTick (notFld fld0) = true)  :
    (recorderTick s).get fld0 i0 j0 = s.get fld0 i0 j0 :=
  recorderTick_closed (P := fun x => x.get fld0 i0 j0 = s.get fld0 i0 j0) (field_closed fld0 i0 j0 _) hK  rfl

def Foot.execFrznow (K : Part → Bool) : Bool := Foot.freezeNow K

theorem execFrznow_closed {K : Part → Bool} {P : State → Prop} {s : State} (hP : Closed K P) (hK : Foot.execFrznow K = true)
    (hs_s : P s) :
    OutAll P (execFrznow s) := by
  simp only [Foot.execFrznow, Bool.and_eq_true] at hK
  unfold execFrznow
  with_reducible repeat' first
    | assumption
    | refine freezeNow_closed hP ?_ ?_
    | refine OutAll.mk ?_

def Foot.execMsggo (K : Part → Bool) : Bool := Foot.msgGo K

theorem execMsggo_closed {K : Part → Bool} {P : State → Prop} {by_ : CoreId} {k : CoreId} {s : State} (hP : Closed K P) (hK :
    Foot.execMsggo K = true) (hs_s : P s) :
    OutAll P (execMsggo by_ k s) := by
  simp only [Foot.execMsggo, Bool.and_eq_true] at hK
  unfold execMsggo
  with_reducible repeat' first
    | assumption
    | refine msgGo_closed hP ?_ ?_
    | refine OutAll.mk ?_
    | refine ite_closed ?_ ?_
    | split

def Foot.execRcResume (K : Part → Bool) : Bool := Foot.recResume K

theorem execRcResume_closed {K : Part → Bool} {P : State → Prop} {s : State} (hP : Closed K P) (hK : Foot.execRcResume K =
    true) (hs_s : P s) :
    OutAll P (execRcResume s) := by
  simp only [Foot.execRcResume, Bool.and_eq_true] at hK
  unfold execRcResume
  with_reducible repeat' first
    | assumption
    | refine recResume_closed hP ?_ ?_
    | refine OutAll.mk ?_

def Foot.recordWrite (K : Part → Bool) : Bool := K .recQueue && (K (.fld .RC_WIDX) && (K (.fld .RC_STATUS_WRAPPED) && (K
    (.fld .RC_FRZIDX) && (K (.fld .recPost) && (Foot.memWrite K && (Foot.startPost K))))))

theorem recordWrite_closed {K : Part → Bool} {P : State → Prop} {s : State} (hP : Closed K P) (hK : Foot.recordWrite K =
    true) (hs_s : P s) :
    P (recordWrite s) := by
  simp only [Foot.recordWrite, Bool.and_eq_true] at hK
  obtain ⟨hK0, hK1, hK2, hK3, hK4, hK5, hK6⟩ := hK
  unfold recordWrite
  with_reducible repeat' first
    | assumption
    | refine memWrite_closed hP ?_ ?_
    | refine startPost_closed hP ?_ ?_
    | refine hP.put _ _ _ _ _ ?_ ?_
    | refine hP.raise ?_ ?_
    | refine Closed.each ?_ _ ?_
    | intro _
    | (extract_lets +onlyGivenNames x; apply thenHave (p := P x); (unfold x; clear x); rotate_left 1; (intro hx; clear_value x))
    | (extract_lets +onlyGivenNames x; clear_value x)
    | refine hP.remake _ _ _ _ _ _ _ _ _ _ _ _ _ _ _ _ _ _ _ _ _ _ _ (hs := ?_); first | assumption | (with_reducible refine memWrite_closed hP ?_ ?_) | (with_reducible refine startPost_closed hP ?_ ?_) | (with_reducible refine hP.put _ _ _ _ _ ?_ ?_) | (with_reducible refine hP.clear ?_ ?_) | (with_reducible refine hP.raise ?_ ?_) | (with_reducible refine hP.bump ?_ ?_) | (with_reducible refine hP.setBits ?_ ?_) | (with_reducible refine hP.clrBits ?_ ?_) | (with_reducible refine Closed.each ?_ _ ?_)
    | refine ite_closed ?_ ?_
    | split

theorem recordWrite_get {s : State} {fld0 : Fld} {i0 j0 : Nat} (hK : Foot.recordWrite (notFld fld0) = true)  : (recordWrite
    s).get fld0 i0 j0 = s.get fld0 i0 j0 :=
  recordWrite_closed (P := fun x => x.get fld0 i0 j0 = s.get fld0 i0 j0) (field_closed fld0 i0 j0 _) hK  rfl

def Foot.execRecordWrite (K : Part → Bool) : Bool := Foot.recordWrite K

theorem execRecordWrite_closed {K : Part → Bool} {P : State → Prop} {s : State} (hP : Closed K P) (hK : Foot.execRecordWrite
    K = true) (hs_s : P s) :
    OutAll P (execRecordWrite s) := by
  simp only [Foot.execRecordWrite, Bool.and_eq_true] at hK
  unfold execRecordWrite
  with_reducible repeat' first
    | assumption
    | refine recordWrite_closed hP ?_ ?_
    | refine OutAll.mk ?_
    | intro _
    | (extract_lets +onlyGivenNames x; apply thenHave (p := P x); (unfold x; clear x); rotate_left 1; (intro hx; clear_value x))
    | (extract_lets +onlyGivenNames x; clear_value x)
    | (extract_lets +onlyGivenNames x)
    | refine ite_closed ?_ ?_
    | split

def Foot.ringFrozen (K : Part → Bool) : Bool := K (.fld .recPosting) && (K (.fld .RC_STATUS_FROZEN))

theorem ringFrozen_closed {K : Part → Bool} {P : State → Prop} {s : State} (hP : Closed K P) (hK : Foot.ringFrozen K = true)
    (hs_s : P s) :
    P (ringFrozen s) := by
  simp only [Foot.ringFrozen, Bool.and_eq_true] at hK
  obtain ⟨hK0, hK1⟩ := hK
  unfold ringFrozen
  with_reducible repeat' first
    | assumption
    | refine hP.clear ?_ ?_
    | refine hP.raise ?_ ?_
    | refine ite_closed ?_ ?_
    | split

theorem ringFrozen_get {s : State} {fld0 : Fld} {i0 j0 : Nat} (hK : Foot.ringFrozen (notFld fld0) = true)  : (ringFrozen
    s).get fld0 i0 j0 = s.get fld0 i0 j0 :=
  ringFrozen_closed (P := fun x => x.get fld0 i0 j0 = s.get fld0 i0 j0) (field_closed fld0 i0 j0 _) hK  rfl

def Foot.execRingFrozen (K : Part → Bool) : Bool := Foot.ringFrozen K

theorem execRingFrozen_closed {K : Part → Bool} {P : State → Prop} {s : State} (hP : Closed K P) (hK : Foot.execRingFrozen K
    = true) (hs_s : P s) :
    OutAll P (execRingFrozen s) := by
  simp only [Foot.execRingFrozen, Bool.and_eq_true] at hK
  unfold execRingFrozen
  with_reducible repeat' first
    | assumption
    | refine ringFrozen_closed hP ?_ ?_
    | refine OutAll.mk ?_

def Foot.stgDone (K : Part → Bool) : Bool := K (.fld .RC_STATUS_WINV) && (K (.fld .stgOn) && (K (.fld .RC_STATUS_STGARMED)))

theorem stgDone_closed {K : Part → Bool} {P : State → Prop} {s : State} (hP : Closed K P) (hK : Foot.stgDone K = true) (hs_s
    : P s) :
    P (stgDone s) := by
  simp only [Foot.stgDone, Bool.and_eq_true] at hK
  obtain ⟨hK0, hK1, hK2⟩ := hK
  unfold stgDone
  with_reducible repeat' first
    | assumption
    | refine hP.clear ?_ ?_
    | refine hP.raise ?_ ?_
    | refine ite_closed ?_ ?_
    | split

theorem stgDone_get {s : State} {fld0 : Fld} {i0 j0 : Nat} (hK : Foot.stgDone (notFld fld0) = true)  : (stgDone s).get fld0
    i0 j0 = s.get fld0 i0 j0 :=
  stgDone_closed (P := fun x => x.get fld0 i0 j0 = s.get fld0 i0 j0) (field_closed fld0 i0 j0 _) hK  rfl

def Foot.execStagingWindowDone (K : Part → Bool) : Bool := Foot.stgDone K

theorem execStagingWindowDone_closed {K : Part → Bool} {P : State → Prop} {s : State} (hP : Closed K P) (hK :
    Foot.execStagingWindowDone K = true) (hs_s : P s) :
    OutAll P (execStagingWindowDone s) := by
  simp only [Foot.execStagingWindowDone, Bool.and_eq_true] at hK
  unfold execStagingWindowDone
  with_reducible repeat' first
    | assumption
    | refine stgDone_closed hP ?_ ?_
    | refine OutAll.mk ?_

def Foot.execStgarm (K : Part → Bool) : Bool := Foot.stgArm K

theorem execStgarm_closed {K : Part → Bool} {P : State → Prop} {s : State} (hP : Closed K P) (hK : Foot.execStgarm K = true)
    (hs_s : P s) :
    OutAll P (execStgarm s) := by
  simp only [Foot.execStgarm, Bool.and_eq_true] at hK
  unfold execStgarm
  with_reducible repeat' first
    | assumption
    | refine stgArm_closed hP ?_ ?_
    | refine OutAll.mk ?_

def Foot.execTrig (K : Part → Bool) : Bool := Foot.stgTrigger K

theorem execTrig_closed {K : Part → Bool} {P : State → Prop} {s : State} (hP : Closed K P) (hK : Foot.execTrig K = true)
    (hs_s : P s) :
    OutAll P (execTrig s) := by
  simp only [Foot.execTrig, Bool.and_eq_true] at hK
  unfold execTrig
  with_reducible repeat' first
    | assumption
    | refine stgTrigger_closed hP ?_ ?_
    | refine OutAll.mk ?_

end Sys2Proof.Machine
end

