-- ==== Sys2Proof/Laws/ClosedHeadgate.lean ====
section
/-! SUPPORT. What the functions of Machine/Headgate.lean can write, and that they keep every closed property (Laws/Closed.lean). -/
namespace Sys2Proof.Machine

set_option Elab.async false
set_option linter.all false

def Foot.dropStale (K : Part → Bool) : Bool := K (.fld .HG_STALE) && (K .hgQueue)

theorem dropStale_closed {K : Part → Bool} {P : State → Prop} {s : State} {due : Nat → Bool} (hP : Closed K P) (hK :
    Foot.dropStale K = true) (hs_s : P s) :
    P (dropStale s due) := by
  simp only [Foot.dropStale, Bool.and_eq_true] at hK
  obtain ⟨hK0, hK1⟩ := hK
  unfold dropStale
  with_reducible repeat' first
    | assumption
    | refine hP.bump ?_ ?_
    | refine Closed.each ?_ _ ?_
    | intro _
    | (extract_lets +onlyGivenNames x; apply thenHave (p := P x); (unfold x; clear x); rotate_left 1; (intro hx; clear_value x))
    | (extract_lets +onlyGivenNames x; clear_value x)
    | refine hP.remake _ _ _ _ _ _ _ _ _ _ _ _ _ _ _ _ _ _ _ _ _ _ _ (hs := ?_); first | assumption | (with_reducible refine hP.put _ _ _ _ _ ?_ ?_) | (with_reducible refine hP.clear ?_ ?_) | (with_reducible refine hP.raise ?_ ?_) | (with_reducible refine hP.bump ?_ ?_) | (with_reducible refine hP.setBits ?_ ?_) | (with_reducible refine hP.clrBits ?_ ?_) | (with_reducible refine Closed.each ?_ _ ?_)

def Foot.dropDue (K : Part → Bool) : Bool := Foot.dropStale K

theorem dropDue_closed {K : Part → Bool} {P : State → Prop} {s : State} (hP : Closed K P) (hK : Foot.dropDue K = true) (hs_s
    : P s) :
    P (dropDue s) := by
  simp only [Foot.dropDue, Bool.and_eq_true] at hK
  unfold dropDue
  with_reducible repeat' first
    | assumption
    | refine dropStale_closed hP ?_ ?_
    | intro _
    | split

theorem dropDue_get {s : State} {fld0 : Fld} {i0 j0 : Nat} (hK : Foot.dropDue (notFld fld0) = true)  : (dropDue s).get fld0
    i0 j0 = s.get fld0 i0 j0 :=
  dropDue_closed (P := fun x => x.get fld0 i0 j0 = s.get fld0 i0 j0) (field_closed fld0 i0 j0 _) hK  rfl

def Foot.hgSync (K : Part → Bool) : Bool := K (.fld .HG_PSTAT_QUSED) && (K (.fld .HG_STATUS_CPLFULL) && (K (.fld
    .HG_STATUS_RQAV)))

theorem hgSync_closed {K : Part → Bool} {P : State → Prop} {s : State} (hP : Closed K P) (hK : Foot.hgSync K = true) (hs_s :
    P s) :
    P (hgSync s) := by
  simp only [Foot.hgSync, Bool.and_eq_true] at hK
  obtain ⟨hK0, hK1, hK2⟩ := hK
  unfold hgSync
  with_reducible repeat' first
    | assumption
    | refine hP.put _ _ _ _ _ ?_ ?_
    | refine Closed.each ?_ _ ?_
    | intro _
    | (extract_lets +onlyGivenNames x; apply thenHave (p := P x); (unfold x; clear x); rotate_left 1; (intro hx; clear_value x))
    | (extract_lets +onlyGivenNames x; clear_value x)

theorem hgSync_get {s : State} {fld0 : Fld} {i0 j0 : Nat} (hK : Foot.hgSync (notFld fld0) = true)  : (hgSync s).get fld0 i0
    j0 = s.get fld0 i0 j0 :=
  hgSync_closed (P := fun x => x.get fld0 i0 j0 = s.get fld0 i0 j0) (field_closed fld0 i0 j0 _) hK  rfl

def Foot.putBuf (K : Part → Bool) : Bool := true

theorem putBuf_closed {K : Part → Bool} {P : State → Prop} {s : State} {f : Fld} {l : List Byte} (hP : Closed K P) (hK :
    Foot.putBuf K = true) (hK_f : K (.fld f) = true) (hs_s : P s) :
    P (putBuf s f l) := by
  unfold putBuf
  with_reducible repeat' first
    | assumption
    | refine hP.put _ _ _ _ _ ?_ ?_
    | refine Closed.each ?_ _ ?_
    | intro _

theorem putBuf_get {s : State} {f : Fld} {l : List Byte} {fld0 : Fld} {i0 j0 : Nat} (hK : Foot.putBuf (notFld fld0) = true)
    (hg_f : (decide (f = fld0)) = false) : (putBuf s f l).get fld0 i0 j0 = s.get fld0 i0 j0 :=
  putBuf_closed (P := fun x => x.get fld0 i0 j0 = s.get fld0 i0 j0) (field_closed fld0 i0 j0 _) hK (notFld_true hg_f) rfl

def Foot.hgAnswer (K : Part → Bool) : Bool := K (.fld .HG_XCLEN_LEN) && (K (.fld .HG_XCTL_STATUS) && (Foot.putBuf K && (K
    (.fld .HG_CBUF))))

theorem hgAnswer_closed {K : Part → Bool} {P : State → Prop} {s : State} {st : Int} {payload : List Byte} (hP : Closed K P)
    (hK : Foot.hgAnswer K = true) (hs_s : P s) :
    P (hgAnswer s st payload) := by
  simp only [Foot.hgAnswer, Bool.and_eq_true] at hK
  obtain ⟨hK0, hK1, hK2, hK3⟩ := hK
  unfold hgAnswer
  with_reducible repeat' first
    | assumption
    | refine putBuf_closed hP ?_ ?_ ?_
    | refine hP.put _ _ _ _ _ ?_ ?_

theorem hgAnswer_get {s : State} {st : Int} {payload : List Byte} {fld0 : Fld} {i0 j0 : Nat} (hK : Foot.hgAnswer (notFld
    fld0) = true)  : (hgAnswer s st payload).get fld0 i0 j0 = s.get fld0 i0 j0 :=
  hgAnswer_closed (P := fun x => x.get fld0 i0 j0 = s.get fld0 i0 j0) (field_closed fld0 i0 j0 _) hK  rfl

def Foot.hgTake (K : Part → Bool) : Bool := K .hgQueue && (K .hgTaken && (K (.fld .HG_XHDR0_TAG) && (K (.fld .HG_XHDR0_TYPE)
    && (K (.fld .hgNext) && (K (.fld .HG_XHDR1_XV) && (K (.fld .HG_XHDR1_PORT) && (K (.fld .HG_XHDR1_EPOCH) && (K (.fld
    .hgDead) && (K (.fld .HG_XHDR2_LEN) && (K (.fld .HG_XHDR1_TARGET) && (Foot.dropDue K && (Foot.hgSync K && (Foot.putBuf K
    && (Foot.hgAnswer K && (K (.fld .HG_XBUF))))))))))))))))

theorem hgTake_closed {K : Part → Bool} {P : State → Prop} {s : State} (hP : Closed K P) (hK : Foot.hgTake K = true) (hs_s :
    P s) :
    P (hgTake s) := by
  simp only [Foot.hgTake, Bool.and_eq_true] at hK
  obtain ⟨hK0, hK1, hK2, hK3, hK4, hK5, hK6, hK7, hK8, hK9, hK10, hK11, hK12, hK13, hK14, hK15⟩ := hK
  unfold hgTake
  with_reducible repeat' first
    | assumption
    | refine dropDue_closed hP ?_ ?_
    | refine hgSync_closed hP ?_ ?_
    | refine putBuf_closed hP ?_ ?_ ?_
    | refine hgAnswer_closed hP ?_ ?_
    | refine hP.put _ _ _ _ _ ?_ ?_
    | refine hP.clear ?_ ?_
    | refine hP.raise ?_ ?_
    | intro _
    | (extract_lets +onlyGivenNames x; apply thenHave (p := P x); (unfold x; clear x); rotate_left 1; (intro hx; clear_value x))
    | (extract_lets +onlyGivenNames x; clear_value x)
    | refine hP.remake _ _ _ _ _ _ _ _ _ _ _ _ _ _ _ _ _ _ _ _ _ _ _ (hs := ?_); first | assumption | (with_reducible refine dropDue_closed hP ?_ ?_) | (with_reducible refine hgSync_closed hP ?_ ?_) | (with_reducible refine putBuf_closed hP ?_ ?_ ?_) | (with_reducible refine hgAnswer_closed hP ?_ ?_) | (with_reducible refine hP.put _ _ _ _ _ ?_ ?_) | (with_reducible refine hP.clear ?_ ?_) | (with_reducible refine hP.raise ?_ ?_) | (with_reducible refine hP.bump ?_ ?_) | (with_reducible refine hP.setBits ?_ ?_) | (with_reducible refine hP.clrBits ?_ ?_)
    | refine ite_closed ?_ ?_
    | split

theorem hgTake_get {s : State} {fld0 : Fld} {i0 j0 : Nat} (hK : Foot.hgTake (notFld fld0) = true)  : (hgTake s).get fld0 i0
    j0 = s.get fld0 i0 j0 :=
  hgTake_closed (P := fun x => x.get fld0 i0 j0 = s.get fld0 i0 j0) (field_closed fld0 i0 j0 _) hK  rfl

def Foot.hgDrop (K : Part → Bool) : Bool := K (.fld .hgDead) && (K (.fld .HG_XHDR1_XV) && (K .hgTaken))

theorem hgDrop_closed {K : Part → Bool} {P : State → Prop} {s : State} (hP : Closed K P) (hK : Foot.hgDrop K = true) (hs_s :
    P s) :
    P (hgDrop s) := by
  simp only [Foot.hgDrop, Bool.and_eq_true] at hK
  obtain ⟨hK0, hK1, hK2⟩ := hK
  unfold hgDrop
  with_reducible repeat' first
    | assumption
    | refine hP.clear ?_ ?_
    | refine hP.remake _ _ _ _ _ _ _ _ _ _ _ _ _ _ _ _ _ _ _ _ _ _ _ (hs := ?_); first | assumption | (with_reducible refine hP.put _ _ _ _ _ ?_ ?_) | (with_reducible refine hP.clear ?_ ?_) | (with_reducible refine hP.raise ?_ ?_) | (with_reducible refine hP.bump ?_ ?_) | (with_reducible refine hP.setBits ?_ ?_) | (with_reducible refine hP.clrBits ?_ ?_)

theorem hgDrop_get {s : State} {fld0 : Fld} {i0 j0 : Nat} (hK : Foot.hgDrop (notFld fld0) = true)  : (hgDrop s).get fld0 i0
    j0 = s.get fld0 i0 j0 :=
  hgDrop_closed (P := fun x => x.get fld0 i0 j0 = s.get fld0 i0 j0) (field_closed fld0 i0 j0 _) hK  rfl

def Foot.setCml (K : Part → Bool) : Bool := K (.fld .pmbCml)

theorem setCml_closed {K : Part → Bool} {P : State → Prop} {s : State} {m : Int} (hP : Closed K P) (hK : Foot.setCml K =
    true) (hs_s : P s) :
    P (setCml s m) := by
  simp only [Foot.setCml, Bool.and_eq_true] at hK
  unfold setCml
  with_reducible repeat' first
    | assumption
    | refine hP.setBits ?_ ?_

theorem setCml_get {s : State} {m : Int} {fld0 : Fld} {i0 j0 : Nat} (hK : Foot.setCml (notFld fld0) = true)  : (setCml s
    m).get fld0 i0 j0 = s.get fld0 i0 j0 :=
  setCml_closed (P := fun x => x.get fld0 i0 j0 = s.get fld0 i0 j0) (field_closed fld0 i0 j0 _) hK  rfl

def Foot.hgComplete (K : Part → Bool) : Bool := K (.fld .HG_STALE) && (K (.fld .HG_PSTAT_LAST) && (K .hgCpl && (K (.fld
    .avsAlert) && (K (.fld .vdPend) && (Foot.hgSync K && (Foot.setCml K))))))

theorem hgComplete_closed {K : Part → Bool} {P : State → Prop} {s : State} {m : HgMsg} {st : Int} {payload : List Byte} (hP :
    Closed K P) (hK : Foot.hgComplete K = true) (hs_s : P s) :
    P (hgComplete s m st payload) := by
  simp only [Foot.hgComplete, Bool.and_eq_true] at hK
  obtain ⟨hK0, hK1, hK2, hK3, hK4, hK5, hK6⟩ := hK
  unfold hgComplete
  with_reducible repeat' first
    | assumption
    | refine hgSync_closed hP ?_ ?_
    | refine setCml_closed hP ?_ ?_
    | refine hP.put _ _ _ _ _ ?_ ?_
    | refine hP.raise ?_ ?_
    | refine hP.bump ?_ ?_
    | refine Closed.each ?_ _ ?_
    | refine Closed.when ?_ ?_
    | intro _
    | (extract_lets +onlyGivenNames x; apply thenHave (p := P x); (unfold x; clear x); rotate_left 1; (intro hx; clear_value x))
    | (extract_lets +onlyGivenNames x; clear_value x)
    | refine hP.remake _ _ _ _ _ _ _ _ _ _ _ _ _ _ _ _ _ _ _ _ _ _ _ (hs := ?_); first | assumption | (with_reducible refine hgSync_closed hP ?_ ?_) | (with_reducible refine setCml_closed hP ?_ ?_) | (with_reducible refine hP.put _ _ _ _ _ ?_ ?_) | (with_reducible refine hP.clear ?_ ?_) | (with_reducible refine hP.raise ?_ ?_) | (with_reducible refine hP.bump ?_ ?_) | (with_reducible refine hP.setBits ?_ ?_) | (with_reducible refine hP.clrBits ?_ ?_) | (with_reducible refine Closed.each ?_ _ ?_) | (with_reducible refine Closed.when ?_ ?_)
    | refine ite_closed ?_ ?_
    | split

theorem hgComplete_get {s : State} {m : HgMsg} {st : Int} {payload : List Byte} {fld0 : Fld} {i0 j0 : Nat} (hK :
    Foot.hgComplete (notFld fld0) = true)  : (hgComplete s m st payload).get fld0 i0 j0 = s.get fld0 i0 j0 :=
  hgComplete_closed (P := fun x => x.get fld0 i0 j0 = s.get fld0 i0 j0) (field_closed fld0 i0 j0 _) hK  rfl

def Foot.hgDone (K : Part → Bool) : Bool := Foot.hgDrop K && (Foot.hgComplete K)

theorem hgDone_closed {K : Part → Bool} {P : State → Prop} {s : State} (hP : Closed K P) (hK : Foot.hgDone K = true) (hs_s :
    P s) :
    P (hgDone s) := by
  simp only [Foot.hgDone, Bool.and_eq_true] at hK
  obtain ⟨hK0, hK1⟩ := hK
  unfold hgDone
  with_reducible repeat' first
    | assumption
    | refine hgDrop_closed hP ?_ ?_
    | refine hgComplete_closed hP ?_ ?_
    | (extract_lets +onlyGivenNames x; apply thenHave (p := P x); (unfold x; clear x); rotate_left 1; (intro hx; clear_value x))
    | (extract_lets +onlyGivenNames x; clear_value x)
    | refine ite_closed ?_ ?_
    | split

theorem hgDone_get {s : State} {fld0 : Fld} {i0 j0 : Nat} (hK : Foot.hgDone (notFld fld0) = true)  : (hgDone s).get fld0 i0
    j0 = s.get fld0 i0 j0 :=
  hgDone_closed (P := fun x => x.get fld0 i0 j0 = s.get fld0 i0 j0) (field_closed fld0 i0 j0 _) hK  rfl

def Foot.portReset (K : Part → Bool) : Bool := K .freeCtr && (K (.fld .HG_PARTIAL) && (K (.fld .HG_PSTAT_EPOCH) && (K
    .avsHeld)))

theorem portReset_closed {K : Part → Bool} {P : State → Prop} {s : State} {p : Nat} (hP : Closed K P) (hK : Foot.portReset K
    = true) (hs_s : P s) :
    P (portReset s p) := by
  simp only [Foot.portReset, Bool.and_eq_true] at hK
  obtain ⟨hK0, hK1, hK2, hK3⟩ := hK
  unfold portReset
  with_reducible repeat' first
    | assumption
    | refine hP.put _ _ _ _ _ ?_ ?_
    | refine hP.bump ?_ ?_
    | refine Closed.when ?_ ?_
    | refine hP.fresh ?_ ?_
    | intro _
    | (extract_lets +onlyGivenNames x; apply thenHave (p := P x); (unfold x; clear x); rotate_left 1; (intro hx; clear_value x))
    | (extract_lets +onlyGivenNames x; clear_value x)
    | refine hP.remake _ _ _ _ _ _ _ _ _ _ _ _ _ _ _ _ _ _ _ _ _ _ _ (hs := ?_); first | assumption | (with_reducible refine hP.put _ _ _ _ _ ?_ ?_) | (with_reducible refine hP.clear ?_ ?_) | (with_reducible refine hP.raise ?_ ?_) | (with_reducible refine hP.bump ?_ ?_) | (with_reducible refine hP.setBits ?_ ?_) | (with_reducible refine hP.clrBits ?_ ?_) | (with_reducible refine Closed.when ?_ ?_) | (with_reducible refine hP.fresh ?_ ?_)

theorem portReset_get {s : State} {p : Nat} {fld0 : Fld} {i0 j0 : Nat} (hK : Foot.portReset (notFld fld0) = true)  :
    (portReset s p).get fld0 i0 j0 = s.get fld0 i0 j0 :=
  portReset_closed (P := fun x => x.get fld0 i0 j0 = s.get fld0 i0 j0) (field_closed fld0 i0 j0 _) hK  rfl

def Foot.hgRestart (K : Part → Bool) : Bool := Foot.hgDrop K && (Foot.hgComplete K)

theorem hgRestart_closed {K : Part → Bool} {P : State → Prop} {s : State} (hP : Closed K P) (hK : Foot.hgRestart K = true)
    (hs_s : P s) :
    P (hgRestart s) := by
  simp only [Foot.hgRestart, Bool.and_eq_true] at hK
  obtain ⟨hK0, hK1⟩ := hK
  unfold hgRestart
  with_reducible repeat' first
    | assumption
    | refine hgDrop_closed hP ?_ ?_
    | refine hgComplete_closed hP ?_ ?_
    | (extract_lets +onlyGivenNames x; apply thenHave (p := P x); (unfold x; clear x); rotate_left 1; (intro hx; clear_value x))
    | (extract_lets +onlyGivenNames x; clear_value x)
    | refine ite_closed ?_ ?_
    | split

theorem hgRestart_get {s : State} {fld0 : Fld} {i0 j0 : Nat} (hK : Foot.hgRestart (notFld fld0) = true)  : (hgRestart s).get
    fld0 i0 j0 = s.get fld0 i0 j0 :=
  hgRestart_closed (P := fun x => x.get fld0 i0 j0 = s.get fld0 i0 j0) (field_closed fld0 i0 j0 _) hK  rfl

def Foot.hgPush (K : Part → Bool) : Bool := K .hgQueue && (Foot.hgSync K)

theorem hgPush_closed {K : Part → Bool} {P : State → Prop} {s : State} {m : HgMsg} (hP : Closed K P) (hK : Foot.hgPush K =
    true) (hs_s : P s) :
    P (hgPush s m) := by
  simp only [Foot.hgPush, Bool.and_eq_true] at hK
  obtain ⟨hK0, hK1⟩ := hK
  unfold hgPush
  with_reducible repeat' first
    | assumption
    | refine hgSync_closed hP ?_ ?_
    | refine hP.remake _ _ _ _ _ _ _ _ _ _ _ _ _ _ _ _ _ _ _ _ _ _ _ (hs := ?_); first | assumption | (with_reducible refine hgSync_closed hP ?_ ?_)

theorem hgPush_get {s : State} {m : HgMsg} {fld0 : Fld} {i0 j0 : Nat} (hK : Foot.hgPush (notFld fld0) = true)  : (hgPush s
    m).get fld0 i0 j0 = s.get fld0 i0 j0 :=
  hgPush_closed (P := fun x => x.get fld0 i0 j0 = s.get fld0 i0 j0) (field_closed fld0 i0 j0 _) hK  rfl

def Foot.hgQueueOwn (K : Part → Bool) : Bool := K (.fld .hgTag) && (Foot.hgPush K)

theorem hgQueueOwn_closed {K : Part → Bool} {P : State → Prop} {s : State} {p : Nat} {cmd : Nat} {margin : Nat} {parts : List
    HgPart} (hP : Closed K P) (hK : Foot.hgQueueOwn K = true) (hs_s : P s) :
    P (hgQueueOwn s p cmd margin parts) := by
  simp only [Foot.hgQueueOwn, Bool.and_eq_true] at hK
  obtain ⟨hK0, hK1⟩ := hK
  unfold hgQueueOwn
  with_reducible repeat' first
    | assumption
    | refine hgPush_closed hP ?_ ?_
    | refine hP.put _ _ _ _ _ ?_ ?_
    | (extract_lets +onlyGivenNames x; apply thenHave (p := P x); (unfold x; clear x); rotate_left 1; (intro hx; clear_value x))
    | (extract_lets +onlyGivenNames x; clear_value x)

theorem hgQueueOwn_get {s : State} {p : Nat} {cmd : Nat} {margin : Nat} {parts : List HgPart} {fld0 : Fld} {i0 j0 : Nat} (hK
    : Foot.hgQueueOwn (notFld fld0) = true)  : (hgQueueOwn s p cmd margin parts).get fld0 i0 j0 = s.get fld0 i0 j0 :=
  hgQueueOwn_closed (P := fun x => x.get fld0 i0 j0 = s.get fld0 i0 j0) (field_closed fld0 i0 j0 _) hK  rfl

def Foot.voltageReached (K : Part → Bool) : Bool := K (.fld .vdPend)

theorem voltageReached_closed {K : Part → Bool} {P : State → Prop} {s : State} {r : Nat} (hP : Closed K P) (hK :
    Foot.voltageReached K = true) (hs_s : P s) :
    P (voltageReached s r) := by
  simp only [Foot.voltageReached, Bool.and_eq_true] at hK
  unfold voltageReached
  with_reducible repeat' first
    | assumption
    | refine hP.put _ _ _ _ _ ?_ ?_
    | refine hP.clear ?_ ?_
    | refine hP.raise ?_ ?_
    | refine hP.bump ?_ ?_
    | refine hP.setBits ?_ ?_
    | refine hP.clrBits ?_ ?_
    | refine Closed.when ?_ ?_
    | intro _
    | (extract_lets +onlyGivenNames x; apply thenHave (p := P x); (unfold x; clear x); rotate_left 1; (intro hx; clear_value x))
    | (extract_lets +onlyGivenNames x; clear_value x)
    | (extract_lets +onlyGivenNames x)
    | refine ite_closed ?_ ?_
    | split

theorem voltageReached_get {s : State} {r : Nat} {fld0 : Fld} {i0 j0 : Nat} (hK : Foot.voltageReached (notFld fld0) = true) 
    : (voltageReached s r).get fld0 i0 j0 = s.get fld0 i0 j0 :=
  voltageReached_closed (P := fun x => x.get fld0 i0 j0 = s.get fld0 i0 j0) (field_closed fld0 i0 j0 _) hK  rfl

def Foot.statusUpdate (K : Part → Bool) : Bool := K (.fld .HG_CACHE)

theorem statusUpdate_closed {K : Part → Bool} {P : State → Prop} {s : State} {r : Nat} (hP : Closed K P) (hK :
    Foot.statusUpdate K = true) (hs_s : P s) :
    P (statusUpdate s r) := by
  simp only [Foot.statusUpdate, Bool.and_eq_true] at hK
  unfold statusUpdate
  with_reducible repeat' first
    | assumption
    | refine hP.put _ _ _ _ _ ?_ ?_
    | intro _
    | (extract_lets +onlyGivenNames x; apply thenHave (p := P x); (unfold x; clear x); rotate_left 1; (intro hx; clear_value x))
    | (extract_lets +onlyGivenNames x; clear_value x)
    | refine ite_closed ?_ ?_
    | split

theorem statusUpdate_get {s : State} {r : Nat} {fld0 : Fld} {i0 j0 : Nat} (hK : Foot.statusUpdate (notFld fld0) = true)  :
    (statusUpdate s r).get fld0 i0 j0 = s.get fld0 i0 j0 :=
  statusUpdate_closed (P := fun x => x.get fld0 i0 j0 = s.get fld0 i0 j0) (field_closed fld0 i0 j0 _) hK  rfl

def Foot.doClear (K : Part → Bool) : Bool := Foot.fclrWrite K

theorem doClear_closed {K : Part → Bool} {P : State → Prop} {s : State} {m : HgMsg} {r : Nat} (hP : Closed K P) (hK :
    Foot.doClear K = true) (hs_s : P s) :
    P (doClear s m r).2 := by
  simp only [Foot.doClear, Bool.and_eq_true] at hK
  unfold doClear
  with_reducible repeat' first
    | assumption
    | refine fclrWrite_closed hP ?_ ?_
    | refine ite_closed ?_ ?_
    | split

def Foot.doEnable (K : Part → Bool) : Bool := K .writes && (Foot.setpointWrite K && (Foot.fclrWrite K))

theorem doEnable_closed {K : Part → Bool} {P : State → Prop} {s : State} {m : HgMsg} {r : Nat} {on : Bool} (hP : Closed K P)
    (hK : Foot.doEnable K = true) (hs_s : P s) :
    P (doEnable s m r on).2 := by
  simp only [Foot.doEnable, Bool.and_eq_true] at hK
  obtain ⟨hK0, hK1, hK2⟩ := hK
  unfold doEnable
  with_reducible repeat' first
    | assumption
    | refine setpointWrite_closed hP ?_ ?_
    | refine fclrWrite_closed hP ?_ ?_
    | refine hP.later ?_ ?_
    | (extract_lets +onlyGivenNames x; apply thenHave (p := P x); (unfold x; clear x); rotate_left 1; (intro hx; clear_value x))
    | (extract_lets +onlyGivenNames x; clear_value x)
    | refine ite_closed ?_ ?_
    | split

def Foot.onRails (K : Part → Bool) : Bool := true

theorem onRails_closed {K : Part → Bool} {P : State → Prop} {s : State} {m : HgMsg} {target : Nat} {f : State → Nat → Int ×
    State} (hP : Closed K P) (hK : Foot.onRails K = true) (h_f : ∀ x0 x1, P x0 → P (f x0 x1).2) (hs_s : P s) :
    P (onRails s m target f).2 := by
  unfold onRails
  with_reducible repeat' first
    | assumption
    | apply h_f
    | (dsimp -zeta only)
    | refine of_snd (by assumption) ?_
    | refine of_fst (by assumption) ?_
    | refine of_mid (by assumption) ?_
    | refine of_trd (by assumption) ?_
    | refine of_fth (by assumption) ?_
    | refine foldl_snd ?_ ?_
    | refine foldl_trd ?_ ?_
    | refine foldl_fst ?_ ?_
    | refine foldl_all ?_ ?_
    | intro _
    | (extract_lets +onlyGivenNames x; apply thenHave (p := P x); (unfold x; clear x); rotate_left 1; (intro hx; clear_value x))
    | (extract_lets +onlyGivenNames x; apply thenHave (p := P x.2); (unfold x; clear x); rotate_left 1; (intro hx; clear_value x))
    | (extract_lets +onlyGivenNames x; apply thenHave (p := P x.1); (unfold x; clear x); rotate_left 1; (intro hx; clear_value x))
    | (extract_lets +onlyGivenNames x; apply thenHave (p := P x.2.1); (unfold x; clear x); rotate_left 1; (intro hx; clear_value x))
    | (extract_lets +onlyGivenNames x; apply thenHave (p := P x.2.2); (unfold x; clear x); rotate_left 1; (intro hx; clear_value x))
    | (extract_lets +onlyGivenNames x; clear_value x)
    | (extract_lets +onlyGivenNames x)
    | refine ite_closed ?_ ?_
    | split

def Foot.doLimit (K : Part → Bool) : Bool := Foot.limitWrite K && (Foot.onRails K)

theorem doLimit_closed {K : Part → Bool} {P : State → Prop} {s : State} {m : HgMsg} {kind : Nat} {target : Nat} {v : Int} (hP
    : Closed K P) (hK : Foot.doLimit K = true) (hs_s : P s) :
    P (doLimit s m kind target v).2 := by
  simp only [Foot.doLimit, Bool.and_eq_true] at hK
  obtain ⟨hK0, hK1⟩ := hK
  unfold doLimit
  dsimp only
  with_reducible repeat' first
    | assumption
    | refine limitWrite_closed hP ?_ ?_
    | refine onRails_closed hP ?_ ?_ ?_
    | intro _
    | (extract_lets +onlyGivenNames x; apply thenHave (p := P x); (unfold x; clear x); rotate_left 1; (intro hx; clear_value x))
    | (extract_lets +onlyGivenNames x; clear_value x)
    | refine ite_closed ?_ ?_
    | split

def Foot.doSlew (K : Part → Bool) : Bool := K .writes

theorem doSlew_closed {K : Part → Bool} {P : State → Prop} {s : State} {m : HgMsg} {r : Nat} {up : Int} {dn : Int} (hP :
    Closed K P) (hK : Foot.doSlew K = true) (hs_s : P s) :
    P (doSlew s m r up dn).2 := by
  simp only [Foot.doSlew, Bool.and_eq_true] at hK
  unfold doSlew
  with_reducible repeat' first
    | assumption
    | refine hP.later ?_ ?_
    | refine ite_closed ?_ ?_
    | split

def Foot.doVout (K : Part → Bool) : Bool := Foot.setpointWrite K

theorem doVout_closed {K : Part → Bool} {P : State → Prop} {s : State} {m : HgMsg} {r : Nat} {v : Int} (hP : Closed K P) (hK
    : Foot.doVout K = true) (hs_s : P s) :
    P (doVout s m r v).2 := by
  simp only [Foot.doVout, Bool.and_eq_true] at hK
  unfold doVout
  with_reducible repeat' first
    | assumption
    | refine setpointWrite_closed hP ?_ ?_
    | (dsimp -zeta only)
    | refine of_snd (by assumption) ?_
    | refine of_fst (by assumption) ?_
    | refine of_mid (by assumption) ?_
    | refine of_trd (by assumption) ?_
    | refine of_fth (by assumption) ?_
    | intro _
    | (extract_lets +onlyGivenNames x; apply thenHave (p := P x); (unfold x; clear x); rotate_left 1; (intro hx; clear_value x))
    | (extract_lets +onlyGivenNames x; apply thenHave (p := P x.2); (unfold x; clear x); rotate_left 1; (intro hx; clear_value x))
    | (extract_lets +onlyGivenNames x; apply thenHave (p := P x.1); (unfold x; clear x); rotate_left 1; (intro hx; clear_value x))
    | (extract_lets +onlyGivenNames x; apply thenHave (p := P x.2.1); (unfold x; clear x); rotate_left 1; (intro hx; clear_value x))
    | (extract_lets +onlyGivenNames x; apply thenHave (p := P x.2.2); (unfold x; clear x); rotate_left 1; (intro hx; clear_value x))
    | (extract_lets +onlyGivenNames x; clear_value x)
    | (extract_lets +onlyGivenNames x)
    | refine ite_closed ?_ ?_
    | split

def Foot.readWords (K : Part → Bool) : Bool := K .freeCtr && (Foot.memRead K)

theorem readWords_closed {K : Part → Bool} {P : State → Prop} {s : State} {a : Nat} {n : Nat} (hP : Closed K P) (hK :
    Foot.readWords K = true) (hs_s : P s) :
    P (readWords s a n).2 := by
  simp only [Foot.readWords, Bool.and_eq_true] at hK
  obtain ⟨hK0, hK1⟩ := hK
  unfold readWords
  with_reducible repeat' first
    | assumption
    | refine memRead_closed hP ?_ ?_
    | refine hP.fresh ?_ ?_
    | (dsimp -zeta only)
    | refine of_snd (by assumption) ?_
    | refine of_fst (by assumption) ?_
    | refine of_mid (by assumption) ?_
    | refine of_trd (by assumption) ?_
    | refine of_fth (by assumption) ?_
    | refine foldl_snd ?_ ?_
    | refine foldl_trd ?_ ?_
    | refine foldl_fst ?_ ?_
    | refine foldl_all ?_ ?_
    | intro _
    | (extract_lets +onlyGivenNames x; apply thenHave (p := P x); (unfold x; clear x); rotate_left 1; (intro hx; clear_value x))
    | (extract_lets +onlyGivenNames x; apply thenHave (p := P x.2); (unfold x; clear x); rotate_left 1; (intro hx; clear_value x))
    | (extract_lets +onlyGivenNames x; apply thenHave (p := P x.1); (unfold x; clear x); rotate_left 1; (intro hx; clear_value x))
    | (extract_lets +onlyGivenNames x; apply thenHave (p := P x.2.1); (unfold x; clear x); rotate_left 1; (intro hx; clear_value x))
    | (extract_lets +onlyGivenNames x; apply thenHave (p := P x.2.2); (unfold x; clear x); rotate_left 1; (intro hx; clear_value x))
    | (extract_lets +onlyGivenNames x; clear_value x)
    | (extract_lets +onlyGivenNames x)
    | refine ite_closed ?_ ?_
    | split

def Foot.readRecord (K : Part → Bool) : Bool := Foot.readWords K

theorem readRecord_closed {K : Part → Bool} {P : State → Prop} {s : State} {a : Nat} {staging : Bool} (hP : Closed K P) (hK :
    Foot.readRecord K = true) (hs_s : P s) :
    P (readRecord s a staging).2 := by
  simp only [Foot.readRecord, Bool.and_eq_true] at hK
  unfold readRecord
  with_reducible repeat' first
    | assumption
    | refine readWords_closed hP ?_ ?_
    | intro _
    | (extract_lets +onlyGivenNames x; apply thenHave (p := P x); (unfold x; clear x); rotate_left 1; (intro hx; clear_value x))
    | (extract_lets +onlyGivenNames x; clear_value x)
    | refine ite_closed ?_ ?_
    | split

def Foot.readRecords (K : Part → Bool) : Bool := Foot.readRecord K

theorem readRecords_closed {K : Part → Bool} {P : State → Prop} {s : State} {addr : Nat → Nat} {n : Nat} {staging : Bool} (hP
    : Closed K P) (hK : Foot.readRecords K = true) (hs_s : P s) :
    P (readRecords s addr n staging).2 := by
  simp only [Foot.readRecords, Bool.and_eq_true] at hK
  unfold readRecords
  with_reducible repeat' first
    | assumption
    | refine readRecord_closed hP ?_ ?_
    | (dsimp -zeta only)
    | refine of_snd (by assumption) ?_
    | refine of_fst (by assumption) ?_
    | refine of_mid (by assumption) ?_
    | refine of_trd (by assumption) ?_
    | refine of_fth (by assumption) ?_
    | refine foldl_snd ?_ ?_
    | refine foldl_trd ?_ ?_
    | refine foldl_fst ?_ ?_
    | refine foldl_all ?_ ?_
    | intro _
    | (extract_lets +onlyGivenNames x; apply thenHave (p := P x); (unfold x; clear x); rotate_left 1; (intro hx; clear_value x))
    | (extract_lets +onlyGivenNames x; apply thenHave (p := P x.2); (unfold x; clear x); rotate_left 1; (intro hx; clear_value x))
    | (extract_lets +onlyGivenNames x; apply thenHave (p := P x.1); (unfold x; clear x); rotate_left 1; (intro hx; clear_value x))
    | (extract_lets +onlyGivenNames x; apply thenHave (p := P x.2.1); (unfold x; clear x); rotate_left 1; (intro hx; clear_value x))
    | (extract_lets +onlyGivenNames x; apply thenHave (p := P x.2.2); (unfold x; clear x); rotate_left 1; (intro hx; clear_value x))
    | (extract_lets +onlyGivenNames x; clear_value x)
    | (extract_lets +onlyGivenNames x)
    | refine ite_closed ?_ ?_
    | split

def Foot.runPart (K : Part → Bool) : Bool := Foot.onRails K && (Foot.doVout K && (Foot.doEnable K && (Foot.doClear K &&
    (Foot.doSlew K && (Foot.doLimit K && (Foot.readRecords K && (Foot.freezeNow K && (Foot.recResume K && (Foot.stgArm K &&
    (Foot.stgTrigger K && (Foot.proxyPublish K)))))))))))

theorem runPart_closed {K : Part → Bool} {P : State → Prop} {s : State} {m : HgMsg} {q : HgPart} (hP : Closed K P) (hK :
    Foot.runPart K = true) (hs_s : P s) :
    P (runPart s m q).2.2 := by
  simp only [Foot.runPart, Bool.and_eq_true] at hK
  obtain ⟨hK0, hK1, hK2, hK3, hK4, hK5, hK6, hK7, hK8, hK9, hK10, hK11⟩ := hK
  unfold runPart
  dsimp only
  with_reducible repeat' first
    | assumption
    | refine onRails_closed hP ?_ ?_ ?_
    | refine doVout_closed hP ?_ ?_
    | refine doEnable_closed hP ?_ ?_
    | refine doClear_closed hP ?_ ?_
    | refine doSlew_closed hP ?_ ?_
    | refine doLimit_closed hP ?_ ?_
    | refine readRecords_closed hP ?_ ?_
    | refine freezeNow_closed hP ?_ ?_
    | refine recResume_closed hP ?_ ?_
    | refine stgArm_closed hP ?_ ?_
    | refine stgTrigger_closed hP ?_ ?_
    | refine proxyPublish_closed hP ?_ ?_
    | intro _
    | (extract_lets +onlyGivenNames x; apply thenHave (p := P x); (unfold x; clear x); rotate_left 1; (intro hx; clear_value x))
    | (extract_lets +onlyGivenNames x; clear_value x)
    | refine ite_closed ?_ ?_
    | split

def Foot.hgExecute (K : Part → Bool) : Bool := Foot.runPart K && (Foot.hgAnswer K)

theorem hgExecute_closed {K : Part → Bool} {P : State → Prop} {s : State} {typ : Nat} {kind : Option Nat} (hP : Closed K P)
    (hK : Foot.hgExecute K = true) (hs_s : P s) :
    P (hgExecute s typ kind) := by
  simp only [Foot.hgExecute, Bool.and_eq_true] at hK
  obtain ⟨hK0, hK1⟩ := hK
  unfold hgExecute
  with_reducible repeat' first
    | assumption
    | refine runPart_closed hP ?_ ?_
    | refine hgAnswer_closed hP ?_ ?_
    | (dsimp -zeta only)
    | refine of_snd (by assumption) ?_
    | refine of_fst (by assumption) ?_
    | refine of_mid (by assumption) ?_
    | refine of_trd (by assumption) ?_
    | refine of_fth (by assumption) ?_
    | refine foldl_snd ?_ ?_
    | refine foldl_trd ?_ ?_
    | refine foldl_fst ?_ ?_
    | refine foldl_all ?_ ?_
    | intro _
    | (extract_lets +onlyGivenNames x; apply thenHave (p := P x); (unfold x; clear x); rotate_left 1; (intro hx; clear_value x))
    | (extract_lets +onlyGivenNames x; apply thenHave (p := P x.2); (unfold x; clear x); rotate_left 1; (intro hx; clear_value x))
    | (extract_lets +onlyGivenNames x; apply thenHave (p := P x.1); (unfold x; clear x); rotate_left 1; (intro hx; clear_value x))
    | (extract_lets +onlyGivenNames x; apply thenHave (p := P x.2.1); (unfold x; clear x); rotate_left 1; (intro hx; clear_value x))
    | (extract_lets +onlyGivenNames x; apply thenHave (p := P x.2.2); (unfold x; clear x); rotate_left 1; (intro hx; clear_value x))
    | (extract_lets +onlyGivenNames x; clear_value x)
    | (extract_lets +onlyGivenNames x)
    | refine ite_closed ?_ ?_
    | split

theorem hgExecute_get {s : State} {typ : Nat} {kind : Option Nat} {fld0 : Fld} {i0 j0 : Nat} (hK : Foot.hgExecute (notFld
    fld0) = true)  : (hgExecute s typ kind).get fld0 i0 j0 = s.get fld0 i0 j0 :=
  hgExecute_closed (P := fun x => x.get fld0 i0 j0 = s.get fld0 i0 j0) (field_closed fld0 i0 j0 _) hK  rfl

def Foot.execClearFault (K : Part → Bool) : Bool := Foot.hgExecute K

theorem execClearFault_closed {K : Part → Bool} {P : State → Prop} {s : State} (hP : Closed K P) (hK : Foot.execClearFault K
    = true) (hs_s : P s) :
    OutAll P (execClearFault s) := by
  simp only [Foot.execClearFault, Bool.and_eq_true] at hK
  unfold execClearFault
  with_reducible repeat' first
    | assumption
    | refine hgExecute_closed hP ?_ ?_
    | refine OutAll.mk ?_

def Foot.execEvent (K : Part → Bool) : Bool := Foot.hgExecute K

theorem execEvent_closed {K : Part → Bool} {P : State → Prop} {s : State} (hP : Closed K P) (hK : Foot.execEvent K = true)
    (hs_s : P s) :
    OutAll P (execEvent s) := by
  simp only [Foot.execEvent, Bool.and_eq_true] at hK
  unfold execEvent
  with_reducible repeat' first
    | assumption
    | refine hgExecute_closed hP ?_ ?_
    | refine OutAll.mk ?_

def Foot.execTimeout (K : Part → Bool) : Bool := K (.fld .hgDead) && (K .hgQueue && (Foot.hgComplete K && (Foot.hgSync K)))

theorem execTimeout_closed {K : Part → Bool} {P : State → Prop} {s : State} {p : Nat} (hP : Closed K P) (hK :
    Foot.execTimeout K = true) (hs_s : P s) :
    P (execTimeout s p) := by
  simp only [Foot.execTimeout, Bool.and_eq_true] at hK
  obtain ⟨hK0, hK1, hK2, hK3⟩ := hK
  unfold execTimeout
  with_reducible repeat' first
    | assumption
    | refine hgComplete_closed hP ?_ ?_
    | refine hgSync_closed hP ?_ ?_
    | refine hP.raise ?_ ?_
    | refine hP.remake _ _ _ _ _ _ _ _ _ _ _ _ _ _ _ _ _ _ _ _ _ _ _ (hs := ?_); first | assumption | (with_reducible refine hgComplete_closed hP ?_ ?_) | (with_reducible refine hgSync_closed hP ?_ ?_) | (with_reducible refine hP.put _ _ _ _ _ ?_ ?_) | (with_reducible refine hP.clear ?_ ?_) | (with_reducible refine hP.raise ?_ ?_) | (with_reducible refine hP.bump ?_ ?_) | (with_reducible refine hP.setBits ?_ ?_) | (with_reducible refine hP.clrBits ?_ ?_)
    | refine ite_closed ?_ ?_
    | split

theorem execTimeout_get {s : State} {p : Nat} {fld0 : Fld} {i0 j0 : Nat} (hK : Foot.execTimeout (notFld fld0) = true)  :
    (execTimeout s p).get fld0 i0 j0 = s.get fld0 i0 j0 :=
  execTimeout_closed (P := fun x => x.get fld0 i0 j0 = s.get fld0 i0 j0) (field_closed fld0 i0 j0 _) hK  rfl

def Foot.execExecTimeout (K : Part → Bool) : Bool := Foot.execTimeout K

theorem execExecTimeout_closed {K : Part → Bool} {P : State → Prop} {p : Port} {s : State} (hP : Closed K P) (hK :
    Foot.execExecTimeout K = true) (hs_s : P s) :
    OutAll P (execExecTimeout p s) := by
  simp only [Foot.execExecTimeout, Bool.and_eq_true] at hK
  unfold execExecTimeout
  with_reducible repeat' first
    | assumption
    | refine execTimeout_closed hP ?_ ?_
    | refine OutAll.mk ?_

def Foot.execGetStatus (K : Part → Bool) : Bool := Foot.hgExecute K

theorem execGetStatus_closed {K : Part → Bool} {P : State → Prop} {s : State} (hP : Closed K P) (hK : Foot.execGetStatus K =
    true) (hs_s : P s) :
    OutAll P (execGetStatus s) := by
  simp only [Foot.execGetStatus, Bool.and_eq_true] at hK
  unfold execGetStatus
  with_reducible repeat' first
    | assumption
    | refine hgExecute_closed hP ?_ ?_
    | refine OutAll.mk ?_

def Foot.execGetTelem (K : Part → Bool) : Bool := Foot.hgExecute K

theorem execGetTelem_closed {K : Part → Bool} {P : State → Prop} {s : State} (hP : Closed K P) (hK : Foot.execGetTelem K =
    true) (hs_s : P s) :
    OutAll P (execGetTelem s) := by
  simp only [Foot.execGetTelem, Bool.and_eq_true] at hK
  unfold execGetTelem
  with_reducible repeat' first
    | assumption
    | refine hgExecute_closed hP ?_ ?_
    | refine OutAll.mk ?_

def Foot.hgAbort (K : Part → Bool) : Bool := K (.fld .HG_PSTAT_LAST) && (K (.fld .tagUse) && (K .hgCpl && (K (.fld .tagDead)
    && (K (.fld .hgDead) && (K .hgQueue && (Foot.hgSync K))))))

theorem hgAbort_closed {K : Part → Bool} {P : State → Prop} {s : State} {tag : Nat} {epoch : Nat} {t : Nat} (hP : Closed K P)
    (hK : Foot.hgAbort K = true) (hs_s : P s) :
    P (hgAbort s tag epoch t) := by
  simp only [Foot.hgAbort, Bool.and_eq_true] at hK
  obtain ⟨hK0, hK1, hK2, hK3, hK4, hK5, hK6⟩ := hK
  unfold hgAbort
  with_reducible repeat' first
    | assumption
    | refine hgSync_closed hP ?_ ?_
    | refine hP.put _ _ _ _ _ ?_ ?_
    | refine hP.raise ?_ ?_
    | refine Closed.when ?_ ?_
    | intro _
    | (extract_lets +onlyGivenNames x; apply thenHave (p := P x); (unfold x; clear x); rotate_left 1; (intro hx; clear_value x))
    | (extract_lets +onlyGivenNames x; clear_value x)
    | refine hP.remake _ _ _ _ _ _ _ _ _ _ _ _ _ _ _ _ _ _ _ _ _ _ _ (hs := ?_); first | assumption | (with_reducible refine hgSync_closed hP ?_ ?_) | (with_reducible refine hP.put _ _ _ _ _ ?_ ?_) | (with_reducible refine hP.clear ?_ ?_) | (with_reducible refine hP.raise ?_ ?_) | (with_reducible refine hP.bump ?_ ?_) | (with_reducible refine hP.setBits ?_ ?_) | (with_reducible refine hP.clrBits ?_ ?_) | (with_reducible refine Closed.when ?_ ?_)
    | refine ite_closed ?_ ?_
    | split

theorem hgAbort_get {s : State} {tag : Nat} {epoch : Nat} {t : Nat} {fld0 : Fld} {i0 j0 : Nat} (hK : Foot.hgAbort (notFld
    fld0) = true)  : (hgAbort s tag epoch t).get fld0 i0 j0 = s.get fld0 i0 j0 :=
  hgAbort_closed (P := fun x => x.get fld0 i0 j0 = s.get fld0 i0 j0) (field_closed fld0 i0 j0 _) hK  rfl

def Foot.execHgAbort (K : Part → Bool) : Bool := Foot.hgAbort K

theorem execHgAbort_closed {K : Part → Bool} {P : State → Prop} {tag : BitVec 8} {t : BitVec 8} {s : State} (hP : Closed K P)
    (hK : Foot.execHgAbort K = true) (hs_s : P s) :
    OutAll P (execHgAbort tag t s) := by
  simp only [Foot.execHgAbort, Bool.and_eq_true] at hK
  unfold execHgAbort
  with_reducible repeat' first
    | assumption
    | refine hgAbort_closed hP ?_ ?_
    | refine OutAll.mk ?_

def Foot.execHgDone (K : Part → Bool) : Bool := Foot.hgDone K

theorem execHgDone_closed {K : Part → Bool} {P : State → Prop} {s : State} (hP : Closed K P) (hK : Foot.execHgDone K = true)
    (hs_s : P s) :
    OutAll P (execHgDone s) := by
  simp only [Foot.execHgDone, Bool.and_eq_true] at hK
  unfold execHgDone
  with_reducible repeat' first
    | assumption
    | refine hgDone_closed hP ?_ ?_
    | refine OutAll.mk ?_

def Foot.hgOpen (K : Part → Bool) : Bool := K (.fld .tagDead) && (K (.fld .tagUse) && (K (.fld .HG_PSTAT_LAST) && (K (.fld
    .HG_PSTAT_EPOCH) && (K .hgQueue && (K .hgCpl && (Foot.hgSync K))))))

theorem hgOpen_closed {K : Part → Bool} {P : State → Prop} {s : State} {tag : Nat} {epoch : Nat} (hP : Closed K P) (hK :
    Foot.hgOpen K = true) (hs_s : P s) :
    P (hgOpen s tag epoch) := by
  simp only [Foot.hgOpen, Bool.and_eq_true] at hK
  obtain ⟨hK0, hK1, hK2, hK3, hK4, hK5, hK6⟩ := hK
  unfold hgOpen
  with_reducible repeat' first
    | assumption
    | refine hgSync_closed hP ?_ ?_
    | refine hP.put _ _ _ _ _ ?_ ?_
    | refine hP.clear ?_ ?_
    | refine Closed.each ?_ _ ?_
    | intro _
    | (extract_lets +onlyGivenNames x; apply thenHave (p := P x); (unfold x; clear x); rotate_left 1; (intro hx; clear_value x))
    | (extract_lets +onlyGivenNames x; clear_value x)
    | refine hP.remake _ _ _ _ _ _ _ _ _ _ _ _ _ _ _ _ _ _ _ _ _ _ _ (hs := ?_); first | assumption | (with_reducible refine hgSync_closed hP ?_ ?_) | (with_reducible refine hP.put _ _ _ _ _ ?_ ?_) | (with_reducible refine hP.clear ?_ ?_) | (with_reducible refine hP.raise ?_ ?_) | (with_reducible refine hP.bump ?_ ?_) | (with_reducible refine hP.setBits ?_ ?_) | (with_reducible refine hP.clrBits ?_ ?_) | (with_reducible refine Closed.each ?_ _ ?_)
    | refine ite_closed ?_ ?_
    | split

theorem hgOpen_get {s : State} {tag : Nat} {epoch : Nat} {fld0 : Fld} {i0 j0 : Nat} (hK : Foot.hgOpen (notFld fld0) = true) 
    : (hgOpen s tag epoch).get fld0 i0 j0 = s.get fld0 i0 j0 :=
  hgOpen_closed (P := fun x => x.get fld0 i0 j0 = s.get fld0 i0 j0) (field_closed fld0 i0 j0 _) hK  rfl

def Foot.execOpenPort (K : Part → Bool) : Bool := Foot.hgOpen K

theorem execOpenPort_closed {K : Part → Bool} {P : State → Prop} {tag : BitVec 8} {epoch : BitVec 4} {s : State} (hP : Closed
    K P) (hK : Foot.execOpenPort K = true) (hs_s : P s) :
    OutAll P (execOpenPort tag epoch s) := by
  simp only [Foot.execOpenPort, Bool.and_eq_true] at hK
  unfold execOpenPort
  with_reducible repeat' first
    | assumption
    | refine hgOpen_closed hP ?_ ?_
    | refine OutAll.mk ?_

def Foot.execPrst (K : Part → Bool) : Bool := Foot.portReset K

theorem execPrst_closed {K : Part → Bool} {P : State → Prop} {p : Port} {s : State} (hP : Closed K P) (hK : Foot.execPrst K =
    true) (hs_s : P s) :
    OutAll P (execPrst p s) := by
  simp only [Foot.execPrst, Bool.and_eq_true] at hK
  unfold execPrst
  with_reducible repeat' first
    | assumption
    | refine portReset_closed hP ?_ ?_
    | refine OutAll.mk ?_

def Foot.execRecCtrlFrznow (K : Part → Bool) : Bool := Foot.hgExecute K

theorem execRecCtrlFrznow_closed {K : Part → Bool} {P : State → Prop} {s : State} (hP : Closed K P) (hK :
    Foot.execRecCtrlFrznow K = true) (hs_s : P s) :
    OutAll P (execRecCtrlFrznow s) := by
  simp only [Foot.execRecCtrlFrznow, Bool.and_eq_true] at hK
  unfold execRecCtrlFrznow
  with_reducible repeat' first
    | assumption
    | refine hgExecute_closed hP ?_ ?_
    | refine OutAll.mk ?_

def Foot.execRecCtrlResume (K : Part → Bool) : Bool := Foot.hgExecute K

theorem execRecCtrlResume_closed {K : Part → Bool} {P : State → Prop} {s : State} (hP : Closed K P) (hK :
    Foot.execRecCtrlResume K = true) (hs_s : P s) :
    OutAll P (execRecCtrlResume s) := by
  simp only [Foot.execRecCtrlResume, Bool.and_eq_true] at hK
  unfold execRecCtrlResume
  with_reducible repeat' first
    | assumption
    | refine hgExecute_closed hP ?_ ?_
    | refine OutAll.mk ?_

def Foot.execRecCtrlStgarm (K : Part → Bool) : Bool := Foot.hgExecute K

theorem execRecCtrlStgarm_closed {K : Part → Bool} {P : State → Prop} {s : State} (hP : Closed K P) (hK :
    Foot.execRecCtrlStgarm K = true) (hs_s : P s) :
    OutAll P (execRecCtrlStgarm s) := by
  simp only [Foot.execRecCtrlStgarm, Bool.and_eq_true] at hK
  unfold execRecCtrlStgarm
  with_reducible repeat' first
    | assumption
    | refine hgExecute_closed hP ?_ ?_
    | refine OutAll.mk ?_

def Foot.execRecCtrlTrig (K : Part → Bool) : Bool := Foot.hgExecute K

theorem execRecCtrlTrig_closed {K : Part → Bool} {P : State → Prop} {s : State} (hP : Closed K P) (hK : Foot.execRecCtrlTrig
    K = true) (hs_s : P s) :
    OutAll P (execRecCtrlTrig s) := by
  simp only [Foot.execRecCtrlTrig, Bool.and_eq_true] at hK
  unfold execRecCtrlTrig
  with_reducible repeat' first
    | assumption
    | refine hgExecute_closed hP ?_ ?_
    | refine OutAll.mk ?_

def Foot.execRecRead (K : Part → Bool) : Bool := Foot.hgExecute K

theorem execRecRead_closed {K : Part → Bool} {P : State → Prop} {s : State} (hP : Closed K P) (hK : Foot.execRecRead K =
    true) (hs_s : P s) :
    OutAll P (execRecRead s) := by
  simp only [Foot.execRecRead, Bool.and_eq_true] at hK
  unfold execRecRead
  with_reducible repeat' first
    | assumption
    | refine hgExecute_closed hP ?_ ?_
    | refine OutAll.mk ?_

def Foot.execSetEnable (K : Part → Bool) : Bool := Foot.hgExecute K

theorem execSetEnable_closed {K : Part → Bool} {P : State → Prop} {s : State} (hP : Closed K P) (hK : Foot.execSetEnable K =
    true) (hs_s : P s) :
    OutAll P (execSetEnable s) := by
  simp only [Foot.execSetEnable, Bool.and_eq_true] at hK
  unfold execSetEnable
  with_reducible repeat' first
    | assumption
    | refine hgExecute_closed hP ?_ ?_
    | refine OutAll.mk ?_

def Foot.execSetLimitIallot (K : Part → Bool) : Bool := Foot.hgExecute K

theorem execSetLimitIallot_closed {K : Part → Bool} {P : State → Prop} {s : State} (hP : Closed K P) (hK :
    Foot.execSetLimitIallot K = true) (hs_s : P s) :
    OutAll P (execSetLimitIallot s) := by
  simp only [Foot.execSetLimitIallot, Bool.and_eq_true] at hK
  unfold execSetLimitIallot
  with_reducible repeat' first
    | assumption
    | refine hgExecute_closed hP ?_ ?_
    | refine OutAll.mk ?_

def Foot.execSetLimitIlim (K : Part → Bool) : Bool := Foot.hgExecute K

theorem execSetLimitIlim_closed {K : Part → Bool} {P : State → Prop} {s : State} (hP : Closed K P) (hK :
    Foot.execSetLimitIlim K = true) (hs_s : P s) :
    OutAll P (execSetLimitIlim s) := by
  simp only [Foot.execSetLimitIlim, Bool.and_eq_true] at hK
  unfold execSetLimitIlim
  with_reducible repeat' first
    | assumption
    | refine hgExecute_closed hP ?_ ?_
    | refine OutAll.mk ?_

def Foot.execSetLimitPallot (K : Part → Bool) : Bool := Foot.hgExecute K

theorem execSetLimitPallot_closed {K : Part → Bool} {P : State → Prop} {s : State} (hP : Closed K P) (hK :
    Foot.execSetLimitPallot K = true) (hs_s : P s) :
    OutAll P (execSetLimitPallot s) := by
  simp only [Foot.execSetLimitPallot, Bool.and_eq_true] at hK
  unfold execSetLimitPallot
  with_reducible repeat' first
    | assumption
    | refine hgExecute_closed hP ?_ ?_
    | refine OutAll.mk ?_

def Foot.execSetSlew (K : Part → Bool) : Bool := Foot.hgExecute K

theorem execSetSlew_closed {K : Part → Bool} {P : State → Prop} {s : State} (hP : Closed K P) (hK : Foot.execSetSlew K =
    true) (hs_s : P s) :
    OutAll P (execSetSlew s) := by
  simp only [Foot.execSetSlew, Bool.and_eq_true] at hK
  unfold execSetSlew
  with_reducible repeat' first
    | assumption
    | refine hgExecute_closed hP ?_ ?_
    | refine OutAll.mk ?_

def Foot.execSetVout (K : Part → Bool) : Bool := Foot.hgExecute K

theorem execSetVout_closed {K : Part → Bool} {P : State → Prop} {s : State} (hP : Closed K P) (hK : Foot.execSetVout K =
    true) (hs_s : P s) :
    OutAll P (execSetVout s) := by
  simp only [Foot.execSetVout, Bool.and_eq_true] at hK
  unfold execSetVout
  with_reducible repeat' first
    | assumption
    | refine hgExecute_closed hP ?_ ?_
    | refine OutAll.mk ?_

def Foot.execStgRead (K : Part → Bool) : Bool := Foot.hgExecute K

theorem execStgRead_closed {K : Part → Bool} {P : State → Prop} {s : State} (hP : Closed K P) (hK : Foot.execStgRead K =
    true) (hs_s : P s) :
    OutAll P (execStgRead s) := by
  simp only [Foot.execStgRead, Bool.and_eq_true] at hK
  unfold execStgRead
  with_reducible repeat' first
    | assumption
    | refine hgExecute_closed hP ?_ ?_
    | refine OutAll.mk ?_

def Foot.tagQuietEnd (K : Part → Bool) : Bool := K (.fld .tagDead) && (K (.fld .tagUse))

theorem tagQuietEnd_closed {K : Part → Bool} {P : State → Prop} {s : State} {t : Nat} (hP : Closed K P) (hK :
    Foot.tagQuietEnd K = true) (hs_s : P s) :
    P (tagQuietEnd s t) := by
  simp only [Foot.tagQuietEnd, Bool.and_eq_true] at hK
  obtain ⟨hK0, hK1⟩ := hK
  unfold tagQuietEnd
  with_reducible repeat' first
    | assumption
    | refine hP.clear ?_ ?_
    | refine ite_closed ?_ ?_
    | split

theorem tagQuietEnd_get {s : State} {t : Nat} {fld0 : Fld} {i0 j0 : Nat} (hK : Foot.tagQuietEnd (notFld fld0) = true)  :
    (tagQuietEnd s t).get fld0 i0 j0 = s.get fld0 i0 j0 :=
  tagQuietEnd_closed (P := fun x => x.get fld0 i0 j0 = s.get fld0 i0 j0) (field_closed fld0 i0 j0 _) hK  rfl

def Foot.execTagQuietEnd (K : Part → Bool) : Bool := Foot.tagQuietEnd K

theorem execTagQuietEnd_closed {K : Part → Bool} {P : State → Prop} {t : BitVec 8} {s : State} (hP : Closed K P) (hK :
    Foot.execTagQuietEnd K = true) (hs_s : P s) :
    OutAll P (execTagQuietEnd t s) := by
  simp only [Foot.execTagQuietEnd, Bool.and_eq_true] at hK
  unfold execTagQuietEnd
  with_reducible repeat' first
    | assumption
    | refine tagQuietEnd_closed hP ?_ ?_
    | refine OutAll.mk ?_

def Foot.execTake (K : Part → Bool) : Bool := Foot.hgTake K

theorem execTake_closed {K : Part → Bool} {P : State → Prop} {s : State} (hP : Closed K P) (hK : Foot.execTake K = true)
    (hs_s : P s) :
    OutAll P (execTake s) := by
  simp only [Foot.execTake, Bool.and_eq_true] at hK
  unfold execTake
  with_reducible repeat' first
    | assumption
    | refine hgTake_closed hP ?_ ?_
    | refine OutAll.mk ?_

end Sys2Proof.Machine
end

