-- ==== Sys2Proof/Laws/ClosedHostBus.lean ====
section
/-! SUPPORT. What the functions of Machine/HostBus.lean can write, and that they keep every closed property (Laws/Closed.lean). -/
namespace Sys2Proof.Machine

set_option Elab.async false
set_option linter.all false

def Foot.alertResponse (K : Part → Bool) : Bool := K (.fld .hostAck) && (K .hostOut)

theorem alertResponse_closed {K : Part → Bool} {P : State → Prop} {s : State} (hP : Closed K P) (hK : Foot.alertResponse K =
    true) (hs_s : P s) :
    P (alertResponse s) := by
  simp only [Foot.alertResponse, Bool.and_eq_true] at hK
  obtain ⟨hK0, hK1⟩ := hK
  unfold alertResponse
  with_reducible repeat' first
    | assumption
    | refine hP.put _ _ _ _ _ ?_ ?_
    | refine hP.remake _ _ _ _ _ _ _ _ _ _ _ _ _ _ _ _ _ _ _ _ _ _ _ (hs := ?_); first | assumption | (with_reducible refine hP.put _ _ _ _ _ ?_ ?_) | (with_reducible refine hP.clear ?_ ?_) | (with_reducible refine hP.raise ?_ ?_) | (with_reducible refine hP.bump ?_ ?_) | (with_reducible refine hP.setBits ?_ ?_) | (with_reducible refine hP.clrBits ?_ ?_)
    | refine ite_closed ?_ ?_
    | split

theorem alertResponse_get {s : State} {fld0 : Fld} {i0 j0 : Nat} (hK : Foot.alertResponse (notFld fld0) = true)  :
    (alertResponse s).get fld0 i0 j0 = s.get fld0 i0 j0 :=
  alertResponse_closed (P := fun x => x.get fld0 i0 j0 = s.get fld0 i0 j0) (field_closed fld0 i0 j0 _) hK  rfl

def Foot.avsAck (K : Part → Bool) : Bool := K (.fld .hostAck)

theorem avsAck_closed {K : Part → Bool} {P : State → Prop} {s : State} {c : Int} (hP : Closed K P) (hK : Foot.avsAck K =
    true) (hs_s : P s) :
    P (avsAck s c) := by
  simp only [Foot.avsAck, Bool.and_eq_true] at hK
  unfold avsAck
  with_reducible repeat' first
    | assumption
    | refine hP.put _ _ _ _ _ ?_ ?_

theorem avsAck_get {s : State} {c : Int} {fld0 : Fld} {i0 j0 : Nat} (hK : Foot.avsAck (notFld fld0) = true)  : (avsAck s
    c).get fld0 i0 j0 = s.get fld0 i0 j0 :=
  avsAck_closed (P := fun x => x.get fld0 i0 j0 = s.get fld0 i0 j0) (field_closed fld0 i0 j0 _) hK  rfl

def Foot.avsQueue (K : Part → Bool) : Bool := K .avsHeld && (K (.fld .HG_QFULL) && (Foot.avsAck K && (Foot.hgQueueOwn K)))

theorem avsQueue_closed {K : Part → Bool} {P : State → Prop} {s : State} {p : Nat} {hold : Bool} {parts : List HgPart} (hP :
    Closed K P) (hK : Foot.avsQueue K = true) (hs_s : P s) :
    P (avsQueue s p hold parts) := by
  simp only [Foot.avsQueue, Bool.and_eq_true] at hK
  obtain ⟨hK0, hK1, hK2, hK3⟩ := hK
  unfold avsQueue
  with_reducible repeat' first
    | assumption
    | refine avsAck_closed hP ?_ ?_
    | refine hgQueueOwn_closed hP ?_ ?_
    | refine hP.bump ?_ ?_
    | intro _
    | refine hP.remake _ _ _ _ _ _ _ _ _ _ _ _ _ _ _ _ _ _ _ _ _ _ _ (hs := ?_); first | assumption | (with_reducible refine avsAck_closed hP ?_ ?_) | (with_reducible refine hgQueueOwn_closed hP ?_ ?_) | (with_reducible refine hP.put _ _ _ _ _ ?_ ?_) | (with_reducible refine hP.clear ?_ ?_) | (with_reducible refine hP.raise ?_ ?_) | (with_reducible refine hP.bump ?_ ?_) | (with_reducible refine hP.setBits ?_ ?_) | (with_reducible refine hP.clrBits ?_ ?_)
    | refine ite_closed ?_ ?_
    | split

theorem avsQueue_get {s : State} {p : Nat} {hold : Bool} {parts : List HgPart} {fld0 : Fld} {i0 j0 : Nat} (hK : Foot.avsQueue
    (notFld fld0) = true)  : (avsQueue s p hold parts).get fld0 i0 j0 = s.get fld0 i0 j0 :=
  avsQueue_closed (P := fun x => x.get fld0 i0 j0 = s.get fld0 i0 j0) (field_closed fld0 i0 j0 _) hK  rfl

def Foot.avsCommit (K : Part → Bool) : Bool := K .avsHeld && (Foot.avsAck K && (Foot.avsQueue K))

theorem avsCommit_closed {K : Part → Bool} {P : State → Prop} {s : State} {p : Nat} (hP : Closed K P) (hK : Foot.avsCommit K
    = true) (hs_s : P s) :
    P (avsCommit s p) := by
  simp only [Foot.avsCommit, Bool.and_eq_true] at hK
  obtain ⟨hK0, hK1, hK2⟩ := hK
  unfold avsCommit
  with_reducible repeat' first
    | assumption
    | refine avsAck_closed hP ?_ ?_
    | refine avsQueue_closed hP ?_ ?_
    | intro _
    | (extract_lets +onlyGivenNames x; apply thenHave (p := P x); (unfold x; clear x); rotate_left 1; (intro hx; clear_value x))
    | (extract_lets +onlyGivenNames x; clear_value x)
    | refine hP.remake _ _ _ _ _ _ _ _ _ _ _ _ _ _ _ _ _ _ _ _ _ _ _ (hs := ?_); first | assumption | (with_reducible refine avsAck_closed hP ?_ ?_) | (with_reducible refine avsQueue_closed hP ?_ ?_)
    | refine ite_closed ?_ ?_
    | split

theorem avsCommit_get {s : State} {p : Nat} {fld0 : Fld} {i0 j0 : Nat} (hK : Foot.avsCommit (notFld fld0) = true)  :
    (avsCommit s p).get fld0 i0 j0 = s.get fld0 i0 j0 :=
  avsCommit_closed (P := fun x => x.get fld0 i0 j0 = s.get fld0 i0 j0) (field_closed fld0 i0 j0 _) hK  rfl

def Foot.avsRead (K : Part → Bool) : Bool := K .hostOut && (Foot.avsAck K)

theorem avsRead_closed {K : Part → Bool} {P : State → Prop} {s : State} {p : Nat} {sel : Nat} {f : Nat → Int} (hP : Closed K
    P) (hK : Foot.avsRead K = true) (hs_s : P s) :
    P (avsRead s p sel f) := by
  simp only [Foot.avsRead, Bool.and_eq_true] at hK
  obtain ⟨hK0, hK1⟩ := hK
  unfold avsRead
  with_reducible repeat' first
    | assumption
    | refine avsAck_closed hP ?_ ?_
    | refine hP.remake _ _ _ _ _ _ _ _ _ _ _ _ _ _ _ _ _ _ _ _ _ _ _ (hs := ?_); first | assumption | (with_reducible refine avsAck_closed hP ?_ ?_)
    | refine ite_closed ?_ ?_
    | split

def Foot.avsWrite (K : Part → Bool) : Bool := Foot.avsAck K && (Foot.avsQueue K)

theorem avsWrite_closed {K : Part → Bool} {P : State → Prop} {s : State} {p : Nat} {sel : Nat} {hold : Bool} {good : Nat →
    Bool} {part : Nat → HgPart} {mark : State → Nat → State} (hP : Closed K P) (hK : Foot.avsWrite K = true) (h_mark : ∀ x0
    x1, P x0 → P (mark x0 x1)) (hs_s : P s) :
    P (avsWrite s p sel hold good part mark) := by
  simp only [Foot.avsWrite, Bool.and_eq_true] at hK
  obtain ⟨hK0, hK1⟩ := hK
  unfold avsWrite
  with_reducible repeat' first
    | assumption
    | apply h_mark
    | refine avsAck_closed hP ?_ ?_
    | refine avsQueue_closed hP ?_ ?_
    | refine Closed.each ?_ _ ?_
    | intro _
    | (extract_lets +onlyGivenNames x; apply thenHave (p := P x); (unfold x; clear x); rotate_left 1; (intro hx; clear_value x))
    | (extract_lets +onlyGivenNames x; clear_value x)
    | refine ite_closed ?_ ?_
    | split

def Foot.vdStart (K : Part → Bool) : Bool := K (.fld .vdCode) && (K (.fld .vdPend))

theorem vdStart_closed {K : Part → Bool} {P : State → Prop} {s : State} {r : Nat} {v : Int} (hP : Closed K P) (hK :
    Foot.vdStart K = true) (hs_s : P s) :
    P (vdStart s r v) := by
  simp only [Foot.vdStart, Bool.and_eq_true] at hK
  obtain ⟨hK0, hK1⟩ := hK
  unfold vdStart
  with_reducible repeat' first
    | assumption
    | refine hP.put _ _ _ _ _ ?_ ?_
    | refine hP.raise ?_ ?_

theorem vdStart_get {s : State} {r : Nat} {v : Int} {fld0 : Fld} {i0 j0 : Nat} (hK : Foot.vdStart (notFld fld0) = true)  :
    (vdStart s r v).get fld0 i0 j0 = s.get fld0 i0 j0 :=
  vdStart_closed (P := fun x => x.get fld0 i0 j0 = s.get fld0 i0 j0) (field_closed fld0 i0 j0 _) hK  rfl

def Foot.avsVout (K : Part → Bool) : Bool := Foot.avsWrite K && (Foot.vdStart K)

theorem avsVout_closed {K : Part → Bool} {P : State → Prop} {s : State} {p : Nat} {sel : Nat} {hold : Bool} {v : Nat → Int}
    (hP : Closed K P) (hK : Foot.avsVout K = true) (hs_s : P s) :
    P (avsVout s p sel hold v) := by
  simp only [Foot.avsVout, Bool.and_eq_true] at hK
  obtain ⟨hK0, hK1⟩ := hK
  unfold avsVout
  with_reducible repeat' first
    | assumption
    | refine avsWrite_closed hP ?_ ?_ ?_
    | refine vdStart_closed hP ?_ ?_
    | intro _
    | (extract_lets +onlyGivenNames x; apply thenHave (p := P x); (unfold x; clear x); rotate_left 1; (intro hx; clear_value x))
    | (extract_lets +onlyGivenNames x; clear_value x)
    | (extract_lets +onlyGivenNames x)
    | refine ite_closed ?_ ?_
    | split

def Foot.clearFaults (K : Part → Bool) : Bool := K (.fld .HG_CACHE) && (K (.fld .pmbCml))

theorem clearFaults_closed {K : Part → Bool} {P : State → Prop} {s : State} (hP : Closed K P) (hK : Foot.clearFaults K =
    true) (hs_s : P s) :
    P (clearFaults s) := by
  simp only [Foot.clearFaults, Bool.and_eq_true] at hK
  obtain ⟨hK0, hK1⟩ := hK
  unfold clearFaults
  with_reducible repeat' first
    | assumption
    | refine hP.put _ _ _ _ _ ?_ ?_
    | refine hP.clear ?_ ?_
    | refine Closed.each ?_ _ ?_
    | intro _
    | (extract_lets +onlyGivenNames x; apply thenHave (p := P x); (unfold x; clear x); rotate_left 1; (intro hx; clear_value x))
    | (extract_lets +onlyGivenNames x; clear_value x)

theorem clearFaults_get {s : State} {fld0 : Fld} {i0 j0 : Nat} (hK : Foot.clearFaults (notFld fld0) = true)  : (clearFaults
    s).get fld0 i0 j0 = s.get fld0 i0 j0 :=
  clearFaults_closed (P := fun x => x.get fld0 i0 j0 = s.get fld0 i0 j0) (field_closed fld0 i0 j0 _) hK  rfl

def Foot.coefficientsCall (K : Part → Bool) : Bool := K (.fld .hostAck) && (K .hostOut && (Foot.setCml K))

theorem coefficientsCall_closed {K : Part → Bool} {P : State → Prop} {s : State} {code : Nat} (hP : Closed K P) (hK :
    Foot.coefficientsCall K = true) (hs_s : P s) :
    P (coefficientsCall s code) := by
  simp only [Foot.coefficientsCall, Bool.and_eq_true] at hK
  obtain ⟨hK0, hK1, hK2⟩ := hK
  unfold coefficientsCall
  with_reducible repeat' first
    | assumption
    | refine setCml_closed hP ?_ ?_
    | refine hP.put _ _ _ _ _ ?_ ?_
    | refine hP.remake _ _ _ _ _ _ _ _ _ _ _ _ _ _ _ _ _ _ _ _ _ _ _ (hs := ?_); first | assumption | (with_reducible refine setCml_closed hP ?_ ?_) | (with_reducible refine hP.put _ _ _ _ _ ?_ ?_) | (with_reducible refine hP.clear ?_ ?_) | (with_reducible refine hP.raise ?_ ?_) | (with_reducible refine hP.bump ?_ ?_) | (with_reducible refine hP.setBits ?_ ?_) | (with_reducible refine hP.clrBits ?_ ?_)
    | refine ite_closed ?_ ?_
    | split

theorem coefficientsCall_get {s : State} {code : Nat} {fld0 : Fld} {i0 j0 : Nat} (hK : Foot.coefficientsCall (notFld fld0) =
    true)  : (coefficientsCall s code).get fld0 i0 j0 = s.get fld0 i0 j0 :=
  coefficientsCall_closed (P := fun x => x.get fld0 i0 j0 = s.get fld0 i0 j0) (field_closed fld0 i0 j0 _) hK  rfl

def Foot.cplRead (K : Part → Bool) : Bool := K (.fld .tagDead) && (K (.fld .tagUse) && (K (.fld .tagQuiet)))

theorem cplRead_closed {K : Part → Bool} {P : State → Prop} {s : State} {c : HgCpl} (hP : Closed K P) (hK : Foot.cplRead K =
    true) (hs_s : P s) :
    P (cplRead s c) := by
  simp only [Foot.cplRead, Bool.and_eq_true] at hK
  obtain ⟨hK0, hK1, hK2⟩ := hK
  unfold cplRead
  with_reducible repeat' first
    | assumption
    | refine hP.put _ _ _ _ _ ?_ ?_
    | refine hP.clear ?_ ?_
    | (extract_lets +onlyGivenNames x; apply thenHave (p := P x); (unfold x; clear x); rotate_left 1; (intro hx; clear_value x))
    | (extract_lets +onlyGivenNames x; clear_value x)
    | split

theorem cplRead_get {s : State} {c : HgCpl} {fld0 : Fld} {i0 j0 : Nat} (hK : Foot.cplRead (notFld fld0) = true)  : (cplRead s
    c).get fld0 i0 j0 = s.get fld0 i0 j0 :=
  cplRead_closed (P := fun x => x.get fld0 i0 j0 = s.get fld0 i0 j0) (field_closed fld0 i0 j0 _) hK  rfl

def Foot.ctrlChange (K : Part → Bool) : Bool := K (.fld .pmbCtrl) && (Foot.hgQueueOwn K)

theorem ctrlChange_closed {K : Part → Bool} {P : State → Prop} {s : State} {level : Bool} (hP : Closed K P) (hK :
    Foot.ctrlChange K = true) (hs_s : P s) :
    P (ctrlChange s level) := by
  simp only [Foot.ctrlChange, Bool.and_eq_true] at hK
  obtain ⟨hK0, hK1⟩ := hK
  unfold ctrlChange
  with_reducible repeat' first
    | assumption
    | refine hgQueueOwn_closed hP ?_ ?_
    | refine hP.put _ _ _ _ _ ?_ ?_
    | (extract_lets +onlyGivenNames x; apply thenHave (p := P x); (unfold x; clear x); rotate_left 1; (intro hx; clear_value x))
    | (extract_lets +onlyGivenNames x; clear_value x)
    | refine ite_closed ?_ ?_
    | split

theorem ctrlChange_get {s : State} {level : Bool} {fld0 : Fld} {i0 j0 : Nat} (hK : Foot.ctrlChange (notFld fld0) = true)  :
    (ctrlChange s level).get fld0 i0 j0 = s.get fld0 i0 j0 :=
  ctrlChange_closed (P := fun x => x.get fld0 i0 j0 = s.get fld0 i0 j0) (field_closed fld0 i0 j0 _) hK  rfl

def Foot.execAlertResponse (K : Part → Bool) : Bool := Foot.alertResponse K

theorem execAlertResponse_closed {K : Part → Bool} {P : State → Prop} {s : State} (hP : Closed K P) (hK :
    Foot.execAlertResponse K = true) (hs_s : P s) :
    OutAll P (execAlertResponse s) := by
  simp only [Foot.execAlertResponse, Bool.and_eq_true] at hK
  unfold execAlertResponse
  with_reducible repeat' first
    | assumption
    | refine alertResponse_closed hP ?_ ?_
    | refine OutAll.mk ?_

def Foot.execAvsCommit (K : Part → Bool) : Bool := Foot.avsCommit K

theorem execAvsCommit_closed {K : Part → Bool} {P : State → Prop} {p : Fin 4} {s : State} (hP : Closed K P) (hK :
    Foot.execAvsCommit K = true) (hs_s : P s) :
    OutAll P (execAvsCommit p s) := by
  simp only [Foot.execAvsCommit, Bool.and_eq_true] at hK
  unfold execAvsCommit
  with_reducible repeat' first
    | assumption
    | refine avsCommit_closed hP ?_ ?_
    | refine OutAll.mk ?_

def Foot.execAvsCrcError (K : Part → Bool) : Bool := K (.fld .HG_FRAMEERR) && (Foot.avsAck K)

theorem execAvsCrcError_closed {K : Part → Bool} {P : State → Prop} {p : Fin 4} {s : State} (hP : Closed K P) (hK :
    Foot.execAvsCrcError K = true) (hs_s : P s) :
    OutAll P (execAvsCrcError p s) := by
  simp only [Foot.execAvsCrcError, Bool.and_eq_true] at hK
  obtain ⟨hK0, hK1⟩ := hK
  unfold execAvsCrcError
  with_reducible repeat' first
    | assumption
    | refine avsAck_closed hP ?_ ?_
    | refine hP.bump ?_ ?_
    | refine OutAll.mk ?_
    | refine ite_closed ?_ ?_
    | split

def Foot.execAvsCurrent (K : Part → Bool) : Bool := Foot.avsRead K

theorem execAvsCurrent_closed {K : Part → Bool} {P : State → Prop} {p : Fin 4} {sel : Fin 16} {s : State} (hP : Closed K P)
    (hK : Foot.execAvsCurrent K = true) (hs_s : P s) :
    OutAll P (execAvsCurrent p sel s) := by
  simp only [Foot.execAvsCurrent, Bool.and_eq_true] at hK
  unfold execAvsCurrent
  with_reducible repeat' first
    | assumption
    | refine avsRead_closed hP ?_ ?_
    | refine OutAll.mk ?_
    | intro _

def Foot.execAvsResetvoltage (K : Part → Bool) : Bool := Foot.avsVout K

theorem execAvsResetvoltage_closed {K : Part → Bool} {P : State → Prop} {p : Fin 4} {sel : Fin 16} {hold : Bool} {s : State}
    (hP : Closed K P) (hK : Foot.execAvsResetvoltage K = true) (hs_s : P s) :
    OutAll P (execAvsResetvoltage p sel hold s) := by
  simp only [Foot.execAvsResetvoltage, Bool.and_eq_true] at hK
  unfold execAvsResetvoltage
  with_reducible repeat' first
    | assumption
    | refine avsVout_closed hP ?_ ?_
    | refine OutAll.mk ?_
    | intro _

def Foot.execAvsStatusRead (K : Part → Bool) : Bool := Foot.avsRead K

theorem execAvsStatusRead_closed {K : Part → Bool} {P : State → Prop} {p : Fin 4} {sel : Fin 16} {s : State} (hP : Closed K
    P) (hK : Foot.execAvsStatusRead K = true) (hs_s : P s) :
    OutAll P (execAvsStatusRead p sel s) := by
  simp only [Foot.execAvsStatusRead, Bool.and_eq_true] at hK
  unfold execAvsStatusRead
  with_reducible repeat' first
    | assumption
    | refine avsRead_closed hP ?_ ?_
    | refine OutAll.mk ?_
    | intro _

def Foot.execAvsStatusWrite (K : Part → Bool) : Bool := K (.fld .avsAlert) && (Foot.avsAck K)

theorem execAvsStatusWrite_closed {K : Part → Bool} {P : State → Prop} {p : Fin 4} {sel : Fin 16} {one : Bool} {s : State}
    (hP : Closed K P) (hK : Foot.execAvsStatusWrite K = true) (hs_s : P s) :
    OutAll P (execAvsStatusWrite p sel one s) := by
  simp only [Foot.execAvsStatusWrite, Bool.and_eq_true] at hK
  obtain ⟨hK0, hK1⟩ := hK
  unfold execAvsStatusWrite
  with_reducible repeat' first
    | assumption
    | refine avsAck_closed hP ?_ ?_
    | refine hP.clear ?_ ?_
    | refine OutAll.mk ?_
    | refine ite_closed ?_ ?_
    | split

def Foot.execAvsTemperature (K : Part → Bool) : Bool := Foot.avsRead K

theorem execAvsTemperature_closed {K : Part → Bool} {P : State → Prop} {p : Fin 4} {sel : Fin 16} {s : State} (hP : Closed K
    P) (hK : Foot.execAvsTemperature K = true) (hs_s : P s) :
    OutAll P (execAvsTemperature p sel s) := by
  simp only [Foot.execAvsTemperature, Bool.and_eq_true] at hK
  unfold execAvsTemperature
  with_reducible repeat' first
    | assumption
    | refine avsRead_closed hP ?_ ?_
    | refine OutAll.mk ?_
    | intro _

def Foot.execAvsUnsupportedDataType (K : Part → Bool) : Bool := Foot.avsAck K

theorem execAvsUnsupportedDataType_closed {K : Part → Bool} {P : State → Prop} {p : Fin 4} {s : State} (hP : Closed K P) (hK
    : Foot.execAvsUnsupportedDataType K = true) (hs_s : P s) :
    OutAll P (execAvsUnsupportedDataType p s) := by
  simp only [Foot.execAvsUnsupportedDataType, Bool.and_eq_true] at hK
  unfold execAvsUnsupportedDataType
  with_reducible repeat' first
    | assumption
    | refine avsAck_closed hP ?_ ?_
    | refine OutAll.mk ?_
    | refine ite_closed ?_ ?_
    | split

def Foot.execAvsVersion (K : Part → Bool) : Bool := Foot.avsRead K

theorem execAvsVersion_closed {K : Part → Bool} {P : State → Prop} {p : Fin 4} {sel : Fin 16} {s : State} (hP : Closed K P)
    (hK : Foot.execAvsVersion K = true) (hs_s : P s) :
    OutAll P (execAvsVersion p sel s) := by
  simp only [Foot.execAvsVersion, Bool.and_eq_true] at hK
  unfold execAvsVersion
  with_reducible repeat' first
    | assumption
    | refine avsRead_closed hP ?_ ?_
    | refine OutAll.mk ?_
    | intro _

def Foot.execAvsVoltageRead (K : Part → Bool) : Bool := Foot.avsRead K

theorem execAvsVoltageRead_closed {K : Part → Bool} {P : State → Prop} {p : Fin 4} {sel : Fin 16} {s : State} (hP : Closed K
    P) (hK : Foot.execAvsVoltageRead K = true) (hs_s : P s) :
    OutAll P (execAvsVoltageRead p sel s) := by
  simp only [Foot.execAvsVoltageRead, Bool.and_eq_true] at hK
  unfold execAvsVoltageRead
  with_reducible repeat' first
    | assumption
    | refine avsRead_closed hP ?_ ?_
    | refine OutAll.mk ?_
    | intro _

def Foot.execAvsVoltageWrite (K : Part → Bool) : Bool := Foot.avsVout K

theorem execAvsVoltageWrite_closed {K : Part → Bool} {P : State → Prop} {p : Fin 4} {sel : Fin 16} {hold : Bool} {mv : BitVec
    16} {s : State} (hP : Closed K P) (hK : Foot.execAvsVoltageWrite K = true) (hs_s : P s) :
    OutAll P (execAvsVoltageWrite p sel hold mv s) := by
  simp only [Foot.execAvsVoltageWrite, Bool.and_eq_true] at hK
  unfold execAvsVoltageWrite
  with_reducible repeat' first
    | assumption
    | refine avsVout_closed hP ?_ ?_
    | refine OutAll.mk ?_
    | intro _

def Foot.execAvsVouttransrateRead (K : Part → Bool) : Bool := Foot.avsRead K

theorem execAvsVouttransrateRead_closed {K : Part → Bool} {P : State → Prop} {p : Fin 4} {sel : Fin 16} {s : State} (hP :
    Closed K P) (hK : Foot.execAvsVouttransrateRead K = true) (hs_s : P s) :
    OutAll P (execAvsVouttransrateRead p sel s) := by
  simp only [Foot.execAvsVouttransrateRead, Bool.and_eq_true] at hK
  unfold execAvsVouttransrateRead
  with_reducible repeat' first
    | assumption
    | refine avsRead_closed hP ?_ ?_
    | refine OutAll.mk ?_
    | intro _

def Foot.execAvsVouttransrateWrite (K : Part → Bool) : Bool := Foot.avsWrite K

theorem execAvsVouttransrateWrite_closed {K : Part → Bool} {P : State → Prop} {p : Fin 4} {sel : Fin 16} {hold : Bool} {rise
    : BitVec 8} {fall : BitVec 8} {s : State} (hP : Closed K P) (hK : Foot.execAvsVouttransrateWrite K = true) (hs_s : P s) :
    OutAll P (execAvsVouttransrateWrite p sel hold rise fall s) := by
  simp only [Foot.execAvsVouttransrateWrite, Bool.and_eq_true] at hK
  unfold execAvsVouttransrateWrite
  with_reducible repeat' first
    | assumption
    | refine avsWrite_closed hP ?_ ?_ ?_
    | refine OutAll.mk ?_
    | intro _
    | (extract_lets +onlyGivenNames x; apply thenHave (p := P x); (unfold x; clear x); rotate_left 1; (intro hx; clear_value x))
    | (extract_lets +onlyGivenNames x; clear_value x)
    | (extract_lets +onlyGivenNames x)
    | refine ite_closed ?_ ?_
    | split

def Foot.pmbConst (K : Part → Bool) : Bool := K (.fld .hostAck) && (K .hostOut)

theorem pmbConst_closed {K : Part → Bool} {P : State → Prop} {s : State} {l : List Byte} (hP : Closed K P) (hK :
    Foot.pmbConst K = true) (hs_s : P s) :
    P (pmbConst s l) := by
  simp only [Foot.pmbConst, Bool.and_eq_true] at hK
  obtain ⟨hK0, hK1⟩ := hK
  unfold pmbConst
  with_reducible repeat' first
    | assumption
    | refine hP.put _ _ _ _ _ ?_ ?_
    | refine hP.remake _ _ _ _ _ _ _ _ _ _ _ _ _ _ _ _ _ _ _ _ _ _ _ (hs := ?_); first | assumption | (with_reducible refine hP.put _ _ _ _ _ ?_ ?_) | (with_reducible refine hP.clear ?_ ?_) | (with_reducible refine hP.raise ?_ ?_) | (with_reducible refine hP.bump ?_ ?_) | (with_reducible refine hP.setBits ?_ ?_) | (with_reducible refine hP.clrBits ?_ ?_)
    | refine ite_closed ?_ ?_
    | split

theorem pmbConst_get {s : State} {l : List Byte} {fld0 : Fld} {i0 j0 : Nat} (hK : Foot.pmbConst (notFld fld0) = true)  :
    (pmbConst s l).get fld0 i0 j0 = s.get fld0 i0 j0 :=
  pmbConst_closed (P := fun x => x.get fld0 i0 j0 = s.get fld0 i0 j0) (field_closed fld0 i0 j0 _) hK  rfl

def Foot.execCapability (K : Part → Bool) : Bool := Foot.pmbConst K

theorem execCapability_closed {K : Part → Bool} {P : State → Prop} {s : State} (hP : Closed K P) (hK : Foot.execCapability K
    = true) (hs_s : P s) :
    OutAll P (execCapability s) := by
  simp only [Foot.execCapability, Bool.and_eq_true] at hK
  unfold execCapability
  with_reducible repeat' first
    | assumption
    | refine pmbConst_closed hP ?_ ?_
    | refine OutAll.mk ?_

def Foot.pmbWrite (K : Part → Bool) : Bool := K (.fld .hostAck) && (Foot.setCml K)

theorem pmbWrite_closed {K : Part → Bool} {P : State → Prop} {s : State} {pec : Fin 3} {f : State → State} (hP : Closed K P)
    (hK : Foot.pmbWrite K = true) (h_f : ∀ x0, P x0 → P (f x0)) (hs_s : P s) :
    P (pmbWrite s pec f) := by
  simp only [Foot.pmbWrite, Bool.and_eq_true] at hK
  obtain ⟨hK0, hK1⟩ := hK
  unfold pmbWrite
  with_reducible repeat' first
    | assumption
    | apply h_f
    | refine setCml_closed hP ?_ ?_
    | refine hP.put _ _ _ _ _ ?_ ?_
    | (extract_lets +onlyGivenNames x; apply thenHave (p := P x); (unfold x; clear x); rotate_left 1; (intro hx; clear_value x))
    | (extract_lets +onlyGivenNames x; clear_value x)
    | refine ite_closed ?_ ?_
    | split

def Foot.pmbHeld (K : Part → Bool) : Bool := K (.fld .HG_PSTAT_LAST) && (Foot.setCml K)

theorem pmbHeld_closed {K : Part → Bool} {P : State → Prop} {s : State} {cmd : Nat} {f : State → State} (hP : Closed K P) (hK
    : Foot.pmbHeld K = true) (h_f : ∀ x0, P x0 → P (f x0)) (hs_s : P s) :
    P (pmbHeld s cmd f) := by
  simp only [Foot.pmbHeld, Bool.and_eq_true] at hK
  obtain ⟨hK0, hK1⟩ := hK
  unfold pmbHeld
  with_reducible repeat' first
    | assumption
    | apply h_f
    | refine setCml_closed hP ?_ ?_
    | refine hP.put _ _ _ _ _ ?_ ?_
    | refine ite_closed ?_ ?_
    | split

def Foot.execClearFaults (K : Part → Bool) : Bool := Foot.pmbWrite K && (Foot.pmbHeld K && (Foot.clearFaults K))

theorem execClearFaults_closed {K : Part → Bool} {P : State → Prop} {pec : Fin 3} {s : State} (hP : Closed K P) (hK :
    Foot.execClearFaults K = true) (hs_s : P s) :
    OutAll P (execClearFaults pec s) := by
  simp only [Foot.execClearFaults, Bool.and_eq_true] at hK
  obtain ⟨hK0, hK1, hK2⟩ := hK
  unfold execClearFaults
  with_reducible repeat' first
    | assumption
    | refine pmbWrite_closed hP ?_ ?_ ?_
    | refine pmbHeld_closed hP ?_ ?_ ?_
    | refine clearFaults_closed hP ?_ ?_
    | refine OutAll.mk ?_
    | intro _
    | (extract_lets +onlyGivenNames x; apply thenHave (p := P x); (unfold x; clear x); rotate_left 1; (intro hx; clear_value x))
    | (extract_lets +onlyGivenNames x; clear_value x)
    | (extract_lets +onlyGivenNames x)
    | refine ite_closed ?_ ?_
    | split

def Foot.execCoefficients (K : Part → Bool) : Bool := Foot.coefficientsCall K

theorem execCoefficients_closed {K : Part → Bool} {P : State → Prop} {code : BitVec 8} {s : State} (hP : Closed K P) (hK :
    Foot.execCoefficients K = true) (hs_s : P s) :
    OutAll P (execCoefficients code s) := by
  simp only [Foot.execCoefficients, Bool.and_eq_true] at hK
  unfold execCoefficients
  with_reducible repeat' first
    | assumption
    | refine coefficientsCall_closed hP ?_ ?_
    | refine OutAll.mk ?_

def Foot.execFrameTimeout (K : Part → Bool) : Bool := K (.fld .HG_PARTIAL)

theorem execFrameTimeout_closed {K : Part → Bool} {P : State → Prop} {s : State} (hP : Closed K P) (hK :
    Foot.execFrameTimeout K = true) (hs_s : P s) :
    OutAll P (execFrameTimeout s) := by
  simp only [Foot.execFrameTimeout, Bool.and_eq_true] at hK
  unfold execFrameTimeout
  with_reducible repeat' first
    | assumption
    | refine hP.bump ?_ ?_
    | refine Closed.when ?_ ?_
    | refine OutAll.mk ?_
    | intro _

def Foot.pmbRW (K : Part → Bool) : Bool := Foot.pmbWrite K

theorem pmbRW_closed {K : Part → Bool} {P : State → Prop} {s : State} {a : PmbAccess} {rd : State → State} {wr : State → Int
    → State} (hP : Closed K P) (hK : Foot.pmbRW K = true) (h_rd : ∀ x0, P x0 → P (rd x0)) (h_wr : ∀ x0 x1, P x0 → P (wr x0
    x1)) (hs_s : P s) :
    P (pmbRW s a rd wr) := by
  simp only [Foot.pmbRW, Bool.and_eq_true] at hK
  unfold pmbRW
  with_reducible repeat' first
    | assumption
    | apply h_rd
    | apply h_wr
    | refine pmbWrite_closed hP ?_ ?_ ?_
    | intro _
    | (extract_lets +onlyGivenNames x; apply thenHave (p := P x); (unfold x; clear x); rotate_left 1; (intro hx; clear_value x))
    | (extract_lets +onlyGivenNames x; clear_value x)
    | (extract_lets +onlyGivenNames x)
    | refine ite_closed ?_ ?_
    | split

def Foot.pmbRead (K : Part → Bool) : Bool := K (.fld .hostAck) && (K .hostOut && (Foot.setCml K))

theorem pmbRead_closed {K : Part → Bool} {P : State → Prop} {s : State} {n : Nat} {f : State → Nat → List Byte} (hP : Closed
    K P) (hK : Foot.pmbRead K = true) (hs_s : P s) :
    P (pmbRead s n f) := by
  simp only [Foot.pmbRead, Bool.and_eq_true] at hK
  obtain ⟨hK0, hK1, hK2⟩ := hK
  unfold pmbRead
  with_reducible repeat' first
    | assumption
    | refine setCml_closed hP ?_ ?_
    | refine hP.put _ _ _ _ _ ?_ ?_
    | (extract_lets +onlyGivenNames x; apply thenHave (p := P x); (unfold x; clear x); rotate_left 1; (intro hx; clear_value x))
    | (extract_lets +onlyGivenNames x; clear_value x)
    | refine hP.remake _ _ _ _ _ _ _ _ _ _ _ _ _ _ _ _ _ _ _ _ _ _ _ (hs := ?_); first | assumption | (with_reducible refine setCml_closed hP ?_ ?_) | (with_reducible refine hP.put _ _ _ _ _ ?_ ?_) | (with_reducible refine hP.clear ?_ ?_) | (with_reducible refine hP.raise ?_ ?_) | (with_reducible refine hP.bump ?_ ?_) | (with_reducible refine hP.setBits ?_ ?_) | (with_reducible refine hP.clrBits ?_ ?_)
    | refine ite_closed ?_ ?_
    | split

def Foot.pmbKeep (K : Part → Bool) : Bool := true

theorem pmbKeep_closed {K : Part → Bool} {P : State → Prop} {s : State} {cmd : Nat} {f : Fld} {v : Int} (hP : Closed K P) (hK
    : Foot.pmbKeep K = true) (hK_f : K (.fld f) = true) (hs_s : P s) :
    P (pmbKeep s cmd f v) := by
  unfold pmbKeep
  with_reducible repeat' first
    | assumption
    | refine hP.put _ _ _ _ _ ?_ ?_
    | refine Closed.each ?_ _ ?_
    | refine Closed.when ?_ ?_
    | intro _

theorem pmbKeep_get {s : State} {cmd : Nat} {f : Fld} {v : Int} {fld0 : Fld} {i0 j0 : Nat} (hK : Foot.pmbKeep (notFld fld0) =
    true) (hg_f : (decide (f = fld0)) = false) : (pmbKeep s cmd f v).get fld0 i0 j0 = s.get fld0 i0 j0 :=
  pmbKeep_closed (P := fun x => x.get fld0 i0 j0 = s.get fld0 i0 j0) (field_closed fld0 i0 j0 _) hK (notFld_true hg_f) rfl

def Foot.limWrite (K : Part → Bool) : Bool := Foot.hgQueueOwn K && (Foot.pmbKeep K && (K (.fld .pmbLim)))

theorem limWrite_closed {K : Part → Bool} {P : State → Prop} {s : State} {v : Int} (hP : Closed K P) (hK : Foot.limWrite K =
    true) (hs_s : P s) :
    P (limWrite s v) := by
  simp only [Foot.limWrite, Bool.and_eq_true] at hK
  obtain ⟨hK0, hK1, hK2⟩ := hK
  unfold limWrite
  with_reducible repeat' first
    | assumption
    | refine hgQueueOwn_closed hP ?_ ?_
    | refine pmbKeep_closed hP ?_ ?_ ?_
    | intro _
    | (extract_lets +onlyGivenNames x; apply thenHave (p := P x); (unfold x; clear x); rotate_left 1; (intro hx; clear_value x))
    | (extract_lets +onlyGivenNames x; clear_value x)
    | refine ite_closed ?_ ?_
    | split

theorem limWrite_get {s : State} {v : Int} {fld0 : Fld} {i0 j0 : Nat} (hK : Foot.limWrite (notFld fld0) = true)  : (limWrite
    s v).get fld0 i0 j0 = s.get fld0 i0 j0 :=
  limWrite_closed (P := fun x => x.get fld0 i0 j0 = s.get fld0 i0 j0) (field_closed fld0 i0 j0 _) hK  rfl

def Foot.execIoutOcFaultLimit (K : Part → Bool) : Bool := Foot.pmbRW K && (Foot.pmbRead K && (Foot.limWrite K))

theorem execIoutOcFaultLimit_closed {K : Part → Bool} {P : State → Prop} {a : PmbAccess} {s : State} (hP : Closed K P) (hK :
    Foot.execIoutOcFaultLimit K = true) (hs_s : P s) :
    OutAll P (execIoutOcFaultLimit a s) := by
  simp only [Foot.execIoutOcFaultLimit, Bool.and_eq_true] at hK
  obtain ⟨hK0, hK1, hK2⟩ := hK
  unfold execIoutOcFaultLimit
  with_reducible repeat' first
    | assumption
    | refine pmbRW_closed hP ?_ ?_ ?_ ?_
    | refine pmbRead_closed hP ?_ ?_
    | refine limWrite_closed hP ?_ ?_
    | refine OutAll.mk ?_
    | intro _
    | (extract_lets +onlyGivenNames x; apply thenHave (p := P x); (unfold x; clear x); rotate_left 1; (intro hx; clear_value x))
    | (extract_lets +onlyGivenNames x; clear_value x)
    | (extract_lets +onlyGivenNames x)
    | refine ite_closed ?_ ?_
    | split

def Foot.execMfrHgLast (K : Part → Bool) : Bool := Foot.pmbConst K

theorem execMfrHgLast_closed {K : Part → Bool} {P : State → Prop} {s : State} (hP : Closed K P) (hK : Foot.execMfrHgLast K =
    true) (hs_s : P s) :
    OutAll P (execMfrHgLast s) := by
  simp only [Foot.execMfrHgLast, Bool.and_eq_true] at hK
  unfold execMfrHgLast
  with_reducible repeat' first
    | assumption
    | refine pmbConst_closed hP ?_ ?_
    | refine OutAll.mk ?_

def Foot.execMfrId (K : Part → Bool) : Bool := Foot.pmbConst K

theorem execMfrId_closed {K : Part → Bool} {P : State → Prop} {s : State} (hP : Closed K P) (hK : Foot.execMfrId K = true)
    (hs_s : P s) :
    OutAll P (execMfrId s) := by
  simp only [Foot.execMfrId, Bool.and_eq_true] at hK
  unfold execMfrId
  with_reducible repeat' first
    | assumption
    | refine pmbConst_closed hP ?_ ?_
    | refine OutAll.mk ?_

def Foot.execMfrModel (K : Part → Bool) : Bool := Foot.pmbConst K

theorem execMfrModel_closed {K : Part → Bool} {P : State → Prop} {s : State} (hP : Closed K P) (hK : Foot.execMfrModel K =
    true) (hs_s : P s) :
    OutAll P (execMfrModel s) := by
  simp only [Foot.execMfrModel, Bool.and_eq_true] at hK
  unfold execMfrModel
  with_reducible repeat' first
    | assumption
    | refine pmbConst_closed hP ?_ ?_
    | refine OutAll.mk ?_

def Foot.execMspiOtherCommandByte (K : Part → Bool) : Bool := K (.fld .HG_FRAMEERR)

theorem execMspiOtherCommandByte_closed {K : Part → Bool} {P : State → Prop} {s : State} (hP : Closed K P) (hK :
    Foot.execMspiOtherCommandByte K = true) (hs_s : P s) :
    OutAll P (execMspiOtherCommandByte s) := by
  simp only [Foot.execMspiOtherCommandByte, Bool.and_eq_true] at hK
  unfold execMspiOtherCommandByte
  with_reducible repeat' first
    | assumption
    | refine hP.bump ?_ ?_
    | refine Closed.when ?_ ?_
    | refine OutAll.mk ?_
    | intro _

def Foot.mspiRead (K : Part → Bool) : Bool := K .hostOut && (K .hgCpl && (Foot.hgSync K && (Foot.cplRead K)))

theorem mspiRead_closed {K : Part → Bool} {P : State → Prop} {s : State} {whole : Bool} (hP : Closed K P) (hK : Foot.mspiRead
    K = true) (hs_s : P s) :
    P (mspiRead s whole) := by
  simp only [Foot.mspiRead, Bool.and_eq_true] at hK
  obtain ⟨hK0, hK1, hK2, hK3⟩ := hK
  unfold mspiRead
  with_reducible repeat' first
    | assumption
    | refine hgSync_closed hP ?_ ?_
    | refine cplRead_closed hP ?_ ?_
    | (extract_lets +onlyGivenNames x; apply thenHave (p := P x); (unfold x; clear x); rotate_left 1; (intro hx; clear_value x))
    | (extract_lets +onlyGivenNames x; clear_value x)
    | refine hP.remake _ _ _ _ _ _ _ _ _ _ _ _ _ _ _ _ _ _ _ _ _ _ _ (hs := ?_); first | assumption | (with_reducible refine hgSync_closed hP ?_ ?_) | (with_reducible refine cplRead_closed hP ?_ ?_)
    | refine ite_closed ?_ ?_
    | split

theorem mspiRead_get {s : State} {whole : Bool} {fld0 : Fld} {i0 j0 : Nat} (hK : Foot.mspiRead (notFld fld0) = true)  :
    (mspiRead s whole).get fld0 i0 j0 = s.get fld0 i0 j0 :=
  mspiRead_closed (P := fun x => x.get fld0 i0 j0 = s.get fld0 i0 j0) (field_closed fld0 i0 j0 _) hK  rfl

def Foot.execMspiRead (K : Part → Bool) : Bool := Foot.mspiRead K

theorem execMspiRead_closed {K : Part → Bool} {P : State → Prop} {whole : Bool} {s : State} (hP : Closed K P) (hK :
    Foot.execMspiRead K = true) (hs_s : P s) :
    OutAll P (execMspiRead whole s) := by
  simp only [Foot.execMspiRead, Bool.and_eq_true] at hK
  unfold execMspiRead
  with_reducible repeat' first
    | assumption
    | refine mspiRead_closed hP ?_ ?_
    | refine OutAll.mk ?_

def Foot.mspiStat (K : Part → Bool) : Bool := K .hostOut

theorem mspiStat_closed {K : Part → Bool} {P : State → Prop} {s : State} (hP : Closed K P) (hK : Foot.mspiStat K = true)
    (hs_s : P s) :
    P (mspiStat s) := by
  simp only [Foot.mspiStat, Bool.and_eq_true] at hK
  unfold mspiStat
  with_reducible repeat' first
    | assumption
    | refine hP.remake _ _ _ _ _ _ _ _ _ _ _ _ _ _ _ _ _ _ _ _ _ _ _ (hs := ?_); first | assumption
    | refine ite_closed ?_ ?_
    | split

theorem mspiStat_get {s : State} {fld0 : Fld} {i0 j0 : Nat} (hK : Foot.mspiStat (notFld fld0) = true)  : (mspiStat s).get
    fld0 i0 j0 = s.get fld0 i0 j0 :=
  mspiStat_closed (P := fun x => x.get fld0 i0 j0 = s.get fld0 i0 j0) (field_closed fld0 i0 j0 _) hK  rfl

def Foot.execMspiStat (K : Part → Bool) : Bool := Foot.mspiStat K

theorem execMspiStat_closed {K : Part → Bool} {P : State → Prop} {s : State} (hP : Closed K P) (hK : Foot.execMspiStat K =
    true) (hs_s : P s) :
    OutAll P (execMspiStat s) := by
  simp only [Foot.execMspiStat, Bool.and_eq_true] at hK
  unfold execMspiStat
  with_reducible repeat' first
    | assumption
    | refine mspiStat_closed hP ?_ ?_
    | refine OutAll.mk ?_

def Foot.mspiRequest (K : Part → Bool) : Bool := K (.fld .HG_QFULL) && (K (.fld .HG_STALE) && (K (.fld .HG_TAGDUP) && (K
    (.fld .tagUse) && (Foot.hgOpen K && (Foot.hgAbort K && (Foot.hgPush K))))))

theorem mspiRequest_closed {K : Part → Bool} {P : State → Prop} {s : State} {typ : Nat} {tag : Nat} {epoch : Nat} {target :
    Nat} {payload : List Byte} (hP : Closed K P) (hK : Foot.mspiRequest K = true) (hs_s : P s) :
    P (mspiRequest s typ tag epoch target payload) := by
  simp only [Foot.mspiRequest, Bool.and_eq_true] at hK
  obtain ⟨hK0, hK1, hK2, hK3, hK4, hK5, hK6⟩ := hK
  unfold mspiRequest
  with_reducible repeat' first
    | assumption
    | refine hgOpen_closed hP ?_ ?_
    | refine hgAbort_closed hP ?_ ?_
    | refine hgPush_closed hP ?_ ?_
    | refine hP.put _ _ _ _ _ ?_ ?_
    | refine hP.bump ?_ ?_
    | refine ite_closed ?_ ?_
    | split

theorem mspiRequest_get {s : State} {typ : Nat} {tag : Nat} {epoch : Nat} {target : Nat} {payload : List Byte} {fld0 : Fld}
    {i0 j0 : Nat} (hK : Foot.mspiRequest (notFld fld0) = true)  : (mspiRequest s typ tag epoch target payload).get fld0 i0 j0
    = s.get fld0 i0 j0 :=
  mspiRequest_closed (P := fun x => x.get fld0 i0 j0 = s.get fld0 i0 j0) (field_closed fld0 i0 j0 _) hK  rfl

def Foot.mspiWrite (K : Part → Bool) : Bool := K (.fld .HG_FRAMEERR) && (Foot.mspiRequest K)

theorem mspiWrite_closed {K : Part → Bool} {P : State → Prop} {s : State} {l : List Byte} (hP : Closed K P) (hK :
    Foot.mspiWrite K = true) (hs_s : P s) :
    P (mspiWrite s l) := by
  simp only [Foot.mspiWrite, Bool.and_eq_true] at hK
  obtain ⟨hK0, hK1⟩ := hK
  unfold mspiWrite
  with_reducible repeat' first
    | assumption
    | refine mspiRequest_closed hP ?_ ?_
    | refine hP.bump ?_ ?_
    | intro _
    | (extract_lets +onlyGivenNames x; apply thenHave (p := P x); (unfold x; clear x); rotate_left 1; (intro hx; clear_value x))
    | (extract_lets +onlyGivenNames x; clear_value x)
    | refine ite_closed ?_ ?_
    | split

theorem mspiWrite_get {s : State} {l : List Byte} {fld0 : Fld} {i0 j0 : Nat} (hK : Foot.mspiWrite (notFld fld0) = true)  :
    (mspiWrite s l).get fld0 i0 j0 = s.get fld0 i0 j0 :=
  mspiWrite_closed (P := fun x => x.get fld0 i0 j0 = s.get fld0 i0 j0) (field_closed fld0 i0 j0 _) hK  rfl

def Foot.execMspiWrite (K : Part → Bool) : Bool := Foot.mspiWrite K

theorem execMspiWrite_closed {K : Part → Bool} {P : State → Prop} {l : List (BitVec 8)} {s : State} (hP : Closed K P) (hK :
    Foot.execMspiWrite K = true) (hs_s : P s) :
    OutAll P (execMspiWrite l s) := by
  simp only [Foot.execMspiWrite, Bool.and_eq_true] at hK
  unfold execMspiWrite
  with_reducible repeat' first
    | assumption
    | refine mspiWrite_closed hP ?_ ?_
    | refine OutAll.mk ?_
    | intro _
    | (extract_lets +onlyGivenNames x; apply thenHave (p := P x); (unfold x; clear x); rotate_left 1; (intro hx; clear_value x))
    | (extract_lets +onlyGivenNames x; clear_value x)
    | (extract_lets +onlyGivenNames x)
    | refine ite_closed ?_ ?_
    | split

def Foot.onOffWrite (K : Part → Bool) : Bool := K (.fld .pmbOnOff) && (Foot.setCml K)

theorem onOffWrite_closed {K : Part → Bool} {P : State → Prop} {s : State} {v : Nat} (hP : Closed K P) (hK : Foot.onOffWrite
    K = true) (hs_s : P s) :
    P (onOffWrite s v) := by
  simp only [Foot.onOffWrite, Bool.and_eq_true] at hK
  obtain ⟨hK0, hK1⟩ := hK
  unfold onOffWrite
  with_reducible repeat' first
    | assumption
    | refine setCml_closed hP ?_ ?_
    | refine hP.put _ _ _ _ _ ?_ ?_
    | refine Closed.each ?_ _ ?_
    | intro _
    | refine ite_closed ?_ ?_
    | split

theorem onOffWrite_get {s : State} {v : Nat} {fld0 : Fld} {i0 j0 : Nat} (hK : Foot.onOffWrite (notFld fld0) = true)  :
    (onOffWrite s v).get fld0 i0 j0 = s.get fld0 i0 j0 :=
  onOffWrite_closed (P := fun x => x.get fld0 i0 j0 = s.get fld0 i0 j0) (field_closed fld0 i0 j0 _) hK  rfl

def Foot.execOnOffConfig (K : Part → Bool) : Bool := Foot.pmbRW K && (Foot.pmbRead K && (Foot.pmbHeld K && (Foot.onOffWrite
    K)))

theorem execOnOffConfig_closed {K : Part → Bool} {P : State → Prop} {a : PmbAccess} {s : State} (hP : Closed K P) (hK :
    Foot.execOnOffConfig K = true) (hs_s : P s) :
    OutAll P (execOnOffConfig a s) := by
  simp only [Foot.execOnOffConfig, Bool.and_eq_true] at hK
  obtain ⟨hK0, hK1, hK2, hK3⟩ := hK
  unfold execOnOffConfig
  with_reducible repeat' first
    | assumption
    | refine pmbRW_closed hP ?_ ?_ ?_ ?_
    | refine pmbRead_closed hP ?_ ?_
    | refine pmbHeld_closed hP ?_ ?_ ?_
    | refine onOffWrite_closed hP ?_ ?_
    | refine OutAll.mk ?_
    | intro _
    | (extract_lets +onlyGivenNames x; apply thenHave (p := P x); (unfold x; clear x); rotate_left 1; (intro hx; clear_value x))
    | (extract_lets +onlyGivenNames x; clear_value x)
    | (extract_lets +onlyGivenNames x)
    | refine ite_closed ?_ ?_
    | split

def Foot.pmbMessage (K : Part → Bool) : Bool := Foot.hgQueueOwn K

theorem pmbMessage_closed {K : Part → Bool} {P : State → Prop} {s : State} {cmd : Nat} {margin : Nat} {typ : Nat} {payload :
    List Byte} (hP : Closed K P) (hK : Foot.pmbMessage K = true) (hs_s : P s) :
    P (pmbMessage s cmd margin typ payload) := by
  simp only [Foot.pmbMessage, Bool.and_eq_true] at hK
  unfold pmbMessage
  with_reducible repeat' first
    | assumption
    | refine hgQueueOwn_closed hP ?_ ?_

theorem pmbMessage_get {s : State} {cmd : Nat} {margin : Nat} {typ : Nat} {payload : List Byte} {fld0 : Fld} {i0 j0 : Nat}
    (hK : Foot.pmbMessage (notFld fld0) = true)  : (pmbMessage s cmd margin typ payload).get fld0 i0 j0 = s.get fld0 i0 j0 :=
  pmbMessage_closed (P := fun x => x.get fld0 i0 j0 = s.get fld0 i0 j0) (field_closed fld0 i0 j0 _) hK  rfl

def Foot.operationWrite (K : Part → Bool) : Bool := Foot.pmbKeep K && (Foot.pmbMessage K && (Foot.setCml K && (K (.fld
    .pmbOper))))

theorem operationWrite_closed {K : Part → Bool} {P : State → Prop} {s : State} {v : Nat} (hP : Closed K P) (hK :
    Foot.operationWrite K = true) (hs_s : P s) :
    P (operationWrite s v) := by
  simp only [Foot.operationWrite, Bool.and_eq_true] at hK
  obtain ⟨hK0, hK1, hK2, hK3⟩ := hK
  unfold operationWrite
  dsimp only
  with_reducible repeat' first
    | assumption
    | refine pmbKeep_closed hP ?_ ?_ ?_
    | refine pmbMessage_closed hP ?_ ?_
    | refine setCml_closed hP ?_ ?_
    | intro _
    | (extract_lets +onlyGivenNames x; apply thenHave (p := P x); (unfold x; clear x); rotate_left 1; (intro hx; clear_value x))
    | (extract_lets +onlyGivenNames x; clear_value x)
    | refine ite_closed ?_ ?_
    | split

theorem operationWrite_get {s : State} {v : Nat} {fld0 : Fld} {i0 j0 : Nat} (hK : Foot.operationWrite (notFld fld0) = true) 
    : (operationWrite s v).get fld0 i0 j0 = s.get fld0 i0 j0 :=
  operationWrite_closed (P := fun x => x.get fld0 i0 j0 = s.get fld0 i0 j0) (field_closed fld0 i0 j0 _) hK  rfl

def Foot.operationAccess (K : Part → Bool) : Bool := Foot.pmbRW K && (Foot.pmbRead K && (Foot.operationWrite K))

theorem operationAccess_closed {K : Part → Bool} {P : State → Prop} {s : State} {a : PmbAccess} (hP : Closed K P) (hK :
    Foot.operationAccess K = true) (hs_s : P s) :
    P (operationAccess s a) := by
  simp only [Foot.operationAccess, Bool.and_eq_true] at hK
  obtain ⟨hK0, hK1, hK2⟩ := hK
  unfold operationAccess
  with_reducible repeat' first
    | assumption
    | refine pmbRW_closed hP ?_ ?_ ?_ ?_
    | refine pmbRead_closed hP ?_ ?_
    | refine operationWrite_closed hP ?_ ?_
    | intro _
    | (extract_lets +onlyGivenNames x; apply thenHave (p := P x); (unfold x; clear x); rotate_left 1; (intro hx; clear_value x))
    | (extract_lets +onlyGivenNames x; clear_value x)
    | (extract_lets +onlyGivenNames x)
    | refine ite_closed ?_ ?_
    | split

theorem operationAccess_get {s : State} {a : PmbAccess} {fld0 : Fld} {i0 j0 : Nat} (hK : Foot.operationAccess (notFld fld0) =
    true)  : (operationAccess s a).get fld0 i0 j0 = s.get fld0 i0 j0 :=
  operationAccess_closed (P := fun x => x.get fld0 i0 j0 = s.get fld0 i0 j0) (field_closed fld0 i0 j0 _) hK  rfl

def Foot.execOperationMarginHigh (K : Part → Bool) : Bool := Foot.operationAccess K

theorem execOperationMarginHigh_closed {K : Part → Bool} {P : State → Prop} {a : PmbAccess} {s : State} (hP : Closed K P) (hK
    : Foot.execOperationMarginHigh K = true) (hs_s : P s) :
    OutAll P (execOperationMarginHigh a s) := by
  simp only [Foot.execOperationMarginHigh, Bool.and_eq_true] at hK
  unfold execOperationMarginHigh
  with_reducible repeat' first
    | assumption
    | refine operationAccess_closed hP ?_ ?_
    | refine OutAll.mk ?_

def Foot.execOperationMarginLow (K : Part → Bool) : Bool := Foot.operationAccess K

theorem execOperationMarginLow_closed {K : Part → Bool} {P : State → Prop} {a : PmbAccess} {s : State} (hP : Closed K P) (hK
    : Foot.execOperationMarginLow K = true) (hs_s : P s) :
    OutAll P (execOperationMarginLow a s) := by
  simp only [Foot.execOperationMarginLow, Bool.and_eq_true] at hK
  unfold execOperationMarginLow
  with_reducible repeat' first
    | assumption
    | refine operationAccess_closed hP ?_ ?_
    | refine OutAll.mk ?_

def Foot.execOperationOff (K : Part → Bool) : Bool := Foot.operationAccess K

theorem execOperationOff_closed {K : Part → Bool} {P : State → Prop} {a : PmbAccess} {s : State} (hP : Closed K P) (hK :
    Foot.execOperationOff K = true) (hs_s : P s) :
    OutAll P (execOperationOff a s) := by
  simp only [Foot.execOperationOff, Bool.and_eq_true] at hK
  unfold execOperationOff
  with_reducible repeat' first
    | assumption
    | refine operationAccess_closed hP ?_ ?_
    | refine OutAll.mk ?_

def Foot.execOperationOn (K : Part → Bool) : Bool := Foot.operationAccess K

theorem execOperationOn_closed {K : Part → Bool} {P : State → Prop} {a : PmbAccess} {s : State} (hP : Closed K P) (hK :
    Foot.execOperationOn K = true) (hs_s : P s) :
    OutAll P (execOperationOn a s) := by
  simp only [Foot.execOperationOn, Bool.and_eq_true] at hK
  unfold execOperationOn
  with_reducible repeat' first
    | assumption
    | refine operationAccess_closed hP ?_ ?_
    | refine OutAll.mk ?_

def Foot.execPmbCtrlChange (K : Part → Bool) : Bool := Foot.ctrlChange K

theorem execPmbCtrlChange_closed {K : Part → Bool} {P : State → Prop} {level : Bool} {s : State} (hP : Closed K P) (hK :
    Foot.execPmbCtrlChange K = true) (hs_s : P s) :
    OutAll P (execPmbCtrlChange level s) := by
  simp only [Foot.execPmbCtrlChange, Bool.and_eq_true] at hK
  unfold execPmbCtrlChange
  with_reducible repeat' first
    | assumption
    | refine ctrlChange_closed hP ?_ ?_
    | refine OutAll.mk ?_

def Foot.pageWrite (K : Part → Bool) : Bool := K (.fld .pmbPage) && (Foot.setCml K)

theorem pageWrite_closed {K : Part → Bool} {P : State → Prop} {s : State} {v : Nat} (hP : Closed K P) (hK : Foot.pageWrite K
    = true) (hs_s : P s) :
    P (pageWrite s v) := by
  simp only [Foot.pageWrite, Bool.and_eq_true] at hK
  obtain ⟨hK0, hK1⟩ := hK
  unfold pageWrite
  with_reducible repeat' first
    | assumption
    | refine setCml_closed hP ?_ ?_
    | refine hP.put _ _ _ _ _ ?_ ?_
    | refine ite_closed ?_ ?_
    | split

theorem pageWrite_get {s : State} {v : Nat} {fld0 : Fld} {i0 j0 : Nat} (hK : Foot.pageWrite (notFld fld0) = true)  :
    (pageWrite s v).get fld0 i0 j0 = s.get fld0 i0 j0 :=
  pageWrite_closed (P := fun x => x.get fld0 i0 j0 = s.get fld0 i0 j0) (field_closed fld0 i0 j0 _) hK  rfl

def Foot.execPmbPage (K : Part → Bool) : Bool := Foot.pmbRW K && (Foot.pmbConst K && (Foot.pmbHeld K && (Foot.pageWrite K)))

theorem execPmbPage_closed {K : Part → Bool} {P : State → Prop} {a : PmbAccess} {s : State} (hP : Closed K P) (hK :
    Foot.execPmbPage K = true) (hs_s : P s) :
    OutAll P (execPmbPage a s) := by
  simp only [Foot.execPmbPage, Bool.and_eq_true] at hK
  obtain ⟨hK0, hK1, hK2, hK3⟩ := hK
  unfold execPmbPage
  with_reducible repeat' first
    | assumption
    | refine pmbRW_closed hP ?_ ?_ ?_ ?_
    | refine pmbConst_closed hP ?_ ?_
    | refine pmbHeld_closed hP ?_ ?_ ?_
    | refine pageWrite_closed hP ?_ ?_
    | refine OutAll.mk ?_
    | intro _
    | (extract_lets +onlyGivenNames x; apply thenHave (p := P x); (unfold x; clear x); rotate_left 1; (intro hx; clear_value x))
    | (extract_lets +onlyGivenNames x; clear_value x)
    | (extract_lets +onlyGivenNames x)
    | refine ite_closed ?_ ?_
    | split

def Foot.execPmbPhase (K : Part → Bool) : Bool := K (.fld .pmbPhase) && (Foot.pmbRW K && (Foot.pmbConst K && (Foot.pmbHeld
    K)))

theorem execPmbPhase_closed {K : Part → Bool} {P : State → Prop} {a : PmbAccess} {s : State} (hP : Closed K P) (hK :
    Foot.execPmbPhase K = true) (hs_s : P s) :
    OutAll P (execPmbPhase a s) := by
  simp only [Foot.execPmbPhase, Bool.and_eq_true] at hK
  obtain ⟨hK0, hK1, hK2, hK3⟩ := hK
  unfold execPmbPhase
  with_reducible repeat' first
    | assumption
    | refine pmbRW_closed hP ?_ ?_ ?_ ?_
    | refine pmbConst_closed hP ?_ ?_
    | refine pmbHeld_closed hP ?_ ?_ ?_
    | refine hP.put _ _ _ _ _ ?_ ?_
    | refine OutAll.mk ?_
    | intro _

def Foot.execPmbusRevision (K : Part → Bool) : Bool := Foot.pmbConst K

theorem execPmbusRevision_closed {K : Part → Bool} {P : State → Prop} {s : State} (hP : Closed K P) (hK :
    Foot.execPmbusRevision K = true) (hs_s : P s) :
    OutAll P (execPmbusRevision s) := by
  simp only [Foot.execPmbusRevision, Bool.and_eq_true] at hK
  unfold execPmbusRevision
  with_reducible repeat' first
    | assumption
    | refine pmbConst_closed hP ?_ ?_
    | refine OutAll.mk ?_

def Foot.execPmbusUnsupportedCommand (K : Part → Bool) : Bool := K (.fld .hostAck) && (Foot.setCml K)

theorem execPmbusUnsupportedCommand_closed {K : Part → Bool} {P : State → Prop} {s : State} (hP : Closed K P) (hK :
    Foot.execPmbusUnsupportedCommand K = true) (hs_s : P s) :
    OutAll P (execPmbusUnsupportedCommand s) := by
  simp only [Foot.execPmbusUnsupportedCommand, Bool.and_eq_true] at hK
  obtain ⟨hK0, hK1⟩ := hK
  unfold execPmbusUnsupportedCommand
  with_reducible repeat' first
    | assumption
    | refine setCml_closed hP ?_ ?_
    | refine hP.put _ _ _ _ _ ?_ ?_
    | refine OutAll.mk ?_
    | refine ite_closed ?_ ?_
    | split

def Foot.execReadIout (K : Part → Bool) : Bool := Foot.pmbRead K

theorem execReadIout_closed {K : Part → Bool} {P : State → Prop} {s : State} (hP : Closed K P) (hK : Foot.execReadIout K =
    true) (hs_s : P s) :
    OutAll P (execReadIout s) := by
  simp only [Foot.execReadIout, Bool.and_eq_true] at hK
  unfold execReadIout
  with_reducible repeat' first
    | assumption
    | refine pmbRead_closed hP ?_ ?_
    | refine OutAll.mk ?_
    | intro _

def Foot.execReadPout (K : Part → Bool) : Bool := Foot.pmbRead K

theorem execReadPout_closed {K : Part → Bool} {P : State → Prop} {s : State} (hP : Closed K P) (hK : Foot.execReadPout K =
    true) (hs_s : P s) :
    OutAll P (execReadPout s) := by
  simp only [Foot.execReadPout, Bool.and_eq_true] at hK
  unfold execReadPout
  with_reducible repeat' first
    | assumption
    | refine pmbRead_closed hP ?_ ?_
    | refine OutAll.mk ?_
    | intro _

def Foot.execReadTemperature1 (K : Part → Bool) : Bool := Foot.pmbRead K

theorem execReadTemperature1_closed {K : Part → Bool} {P : State → Prop} {s : State} (hP : Closed K P) (hK :
    Foot.execReadTemperature1 K = true) (hs_s : P s) :
    OutAll P (execReadTemperature1 s) := by
  simp only [Foot.execReadTemperature1, Bool.and_eq_true] at hK
  unfold execReadTemperature1
  with_reducible repeat' first
    | assumption
    | refine pmbRead_closed hP ?_ ?_
    | refine OutAll.mk ?_
    | intro _

def Foot.execReadVin (K : Part → Bool) : Bool := Foot.pmbRead K

theorem execReadVin_closed {K : Part → Bool} {P : State → Prop} {s : State} (hP : Closed K P) (hK : Foot.execReadVin K =
    true) (hs_s : P s) :
    OutAll P (execReadVin s) := by
  simp only [Foot.execReadVin, Bool.and_eq_true] at hK
  unfold execReadVin
  with_reducible repeat' first
    | assumption
    | refine pmbRead_closed hP ?_ ?_
    | refine OutAll.mk ?_
    | intro _

def Foot.execReadVout (K : Part → Bool) : Bool := Foot.pmbRead K

theorem execReadVout_closed {K : Part → Bool} {P : State → Prop} {s : State} (hP : Closed K P) (hK : Foot.execReadVout K =
    true) (hs_s : P s) :
    OutAll P (execReadVout s) := by
  simp only [Foot.execReadVout, Bool.and_eq_true] at hK
  unfold execReadVout
  with_reducible repeat' first
    | assumption
    | refine pmbRead_closed hP ?_ ?_
    | refine OutAll.mk ?_
    | intro _

def Foot.smbusReset (K : Part → Bool) : Bool := K (.fld .HG_PARTIAL)

theorem smbusReset_closed {K : Part → Bool} {P : State → Prop} {s : State} (hP : Closed K P) (hK : Foot.smbusReset K = true)
    (hs_s : P s) :
    P (smbusReset s) := by
  simp only [Foot.smbusReset, Bool.and_eq_true] at hK
  unfold smbusReset
  with_reducible repeat' first
    | assumption
    | refine hP.bump ?_ ?_
    | refine Closed.when ?_ ?_
    | intro _

theorem smbusReset_get {s : State} {fld0 : Fld} {i0 j0 : Nat} (hK : Foot.smbusReset (notFld fld0) = true)  : (smbusReset
    s).get fld0 i0 j0 = s.get fld0 i0 j0 :=
  smbusReset_closed (P := fun x => x.get fld0 i0 j0 = s.get fld0 i0 j0) (field_closed fld0 i0 j0 _) hK  rfl

def Foot.execSmbusMidByteStartStop (K : Part → Bool) : Bool := Foot.smbusReset K

theorem execSmbusMidByteStartStop_closed {K : Part → Bool} {P : State → Prop} {s : State} (hP : Closed K P) (hK :
    Foot.execSmbusMidByteStartStop K = true) (hs_s : P s) :
    OutAll P (execSmbusMidByteStartStop s) := by
  simp only [Foot.execSmbusMidByteStartStop, Bool.and_eq_true] at hK
  unfold execSmbusMidByteStartStop
  with_reducible repeat' first
    | assumption
    | refine smbusReset_closed hP ?_ ?_
    | refine OutAll.mk ?_

def Foot.execSmbusTimeout (K : Part → Bool) : Bool := Foot.smbusReset K

theorem execSmbusTimeout_closed {K : Part → Bool} {P : State → Prop} {s : State} (hP : Closed K P) (hK :
    Foot.execSmbusTimeout K = true) (hs_s : P s) :
    OutAll P (execSmbusTimeout s) := by
  simp only [Foot.execSmbusTimeout, Bool.and_eq_true] at hK
  unfold execSmbusTimeout
  with_reducible repeat' first
    | assumption
    | refine smbusReset_closed hP ?_ ?_
    | refine OutAll.mk ?_

def Foot.execStatusByte (K : Part → Bool) : Bool := Foot.pmbRead K

theorem execStatusByte_closed {K : Part → Bool} {P : State → Prop} {s : State} (hP : Closed K P) (hK : Foot.execStatusByte K
    = true) (hs_s : P s) :
    OutAll P (execStatusByte s) := by
  simp only [Foot.execStatusByte, Bool.and_eq_true] at hK
  unfold execStatusByte
  with_reducible repeat' first
    | assumption
    | refine pmbRead_closed hP ?_ ?_
    | refine OutAll.mk ?_
    | intro _

def Foot.execStatusCml (K : Part → Bool) : Bool := Foot.pmbRead K

theorem execStatusCml_closed {K : Part → Bool} {P : State → Prop} {s : State} (hP : Closed K P) (hK : Foot.execStatusCml K =
    true) (hs_s : P s) :
    OutAll P (execStatusCml s) := by
  simp only [Foot.execStatusCml, Bool.and_eq_true] at hK
  unfold execStatusCml
  with_reducible repeat' first
    | assumption
    | refine pmbRead_closed hP ?_ ?_
    | refine OutAll.mk ?_
    | intro _

def Foot.execStatusInput (K : Part → Bool) : Bool := Foot.pmbRead K

theorem execStatusInput_closed {K : Part → Bool} {P : State → Prop} {s : State} (hP : Closed K P) (hK : Foot.execStatusInput
    K = true) (hs_s : P s) :
    OutAll P (execStatusInput s) := by
  simp only [Foot.execStatusInput, Bool.and_eq_true] at hK
  unfold execStatusInput
  with_reducible repeat' first
    | assumption
    | refine pmbRead_closed hP ?_ ?_
    | refine OutAll.mk ?_
    | intro _

def Foot.execStatusIout (K : Part → Bool) : Bool := Foot.pmbRead K

theorem execStatusIout_closed {K : Part → Bool} {P : State → Prop} {s : State} (hP : Closed K P) (hK : Foot.execStatusIout K
    = true) (hs_s : P s) :
    OutAll P (execStatusIout s) := by
  simp only [Foot.execStatusIout, Bool.and_eq_true] at hK
  unfold execStatusIout
  with_reducible repeat' first
    | assumption
    | refine pmbRead_closed hP ?_ ?_
    | refine OutAll.mk ?_
    | intro _

def Foot.execStatusMfrSpecific (K : Part → Bool) : Bool := Foot.pmbRead K

theorem execStatusMfrSpecific_closed {K : Part → Bool} {P : State → Prop} {s : State} (hP : Closed K P) (hK :
    Foot.execStatusMfrSpecific K = true) (hs_s : P s) :
    OutAll P (execStatusMfrSpecific s) := by
  simp only [Foot.execStatusMfrSpecific, Bool.and_eq_true] at hK
  unfold execStatusMfrSpecific
  with_reducible repeat' first
    | assumption
    | refine pmbRead_closed hP ?_ ?_
    | refine OutAll.mk ?_
    | intro _

def Foot.execStatusTemperature (K : Part → Bool) : Bool := Foot.pmbRead K

theorem execStatusTemperature_closed {K : Part → Bool} {P : State → Prop} {s : State} (hP : Closed K P) (hK :
    Foot.execStatusTemperature K = true) (hs_s : P s) :
    OutAll P (execStatusTemperature s) := by
  simp only [Foot.execStatusTemperature, Bool.and_eq_true] at hK
  unfold execStatusTemperature
  with_reducible repeat' first
    | assumption
    | refine pmbRead_closed hP ?_ ?_
    | refine OutAll.mk ?_
    | intro _

def Foot.execStatusVout (K : Part → Bool) : Bool := Foot.pmbRead K

theorem execStatusVout_closed {K : Part → Bool} {P : State → Prop} {s : State} (hP : Closed K P) (hK : Foot.execStatusVout K
    = true) (hs_s : P s) :
    OutAll P (execStatusVout s) := by
  simp only [Foot.execStatusVout, Bool.and_eq_true] at hK
  unfold execStatusVout
  with_reducible repeat' first
    | assumption
    | refine pmbRead_closed hP ?_ ?_
    | refine OutAll.mk ?_
    | intro _

def Foot.execStatusWord (K : Part → Bool) : Bool := Foot.pmbRead K

theorem execStatusWord_closed {K : Part → Bool} {P : State → Prop} {s : State} (hP : Closed K P) (hK : Foot.execStatusWord K
    = true) (hs_s : P s) :
    OutAll P (execStatusWord s) := by
  simp only [Foot.execStatusWord, Bool.and_eq_true] at hK
  unfold execStatusWord
  with_reducible repeat' first
    | assumption
    | refine pmbRead_closed hP ?_ ?_
    | refine OutAll.mk ?_
    | intro _

def Foot.voutCommandWrite (K : Part → Bool) : Bool := Foot.pmbMessage K && (Foot.pmbKeep K && (K (.fld .pmbNom)))

theorem voutCommandWrite_closed {K : Part → Bool} {P : State → Prop} {s : State} {v : Int} (hP : Closed K P) (hK :
    Foot.voutCommandWrite K = true) (hs_s : P s) :
    P (voutCommandWrite s v) := by
  simp only [Foot.voutCommandWrite, Bool.and_eq_true] at hK
  obtain ⟨hK0, hK1, hK2⟩ := hK
  unfold voutCommandWrite
  with_reducible repeat' first
    | assumption
    | refine pmbMessage_closed hP ?_ ?_
    | refine pmbKeep_closed hP ?_ ?_ ?_

theorem voutCommandWrite_get {s : State} {v : Int} {fld0 : Fld} {i0 j0 : Nat} (hK : Foot.voutCommandWrite (notFld fld0) =
    true)  : (voutCommandWrite s v).get fld0 i0 j0 = s.get fld0 i0 j0 :=
  voutCommandWrite_closed (P := fun x => x.get fld0 i0 j0 = s.get fld0 i0 j0) (field_closed fld0 i0 j0 _) hK  rfl

def Foot.execVoutCommand (K : Part → Bool) : Bool := Foot.pmbRW K && (Foot.pmbRead K && (Foot.voutCommandWrite K))

theorem execVoutCommand_closed {K : Part → Bool} {P : State → Prop} {a : PmbAccess} {s : State} (hP : Closed K P) (hK :
    Foot.execVoutCommand K = true) (hs_s : P s) :
    OutAll P (execVoutCommand a s) := by
  simp only [Foot.execVoutCommand, Bool.and_eq_true] at hK
  obtain ⟨hK0, hK1, hK2⟩ := hK
  unfold execVoutCommand
  with_reducible repeat' first
    | assumption
    | refine pmbRW_closed hP ?_ ?_ ?_ ?_
    | refine pmbRead_closed hP ?_ ?_
    | refine voutCommandWrite_closed hP ?_ ?_
    | refine OutAll.mk ?_
    | intro _
    | (extract_lets +onlyGivenNames x; apply thenHave (p := P x); (unfold x; clear x); rotate_left 1; (intro hx; clear_value x))
    | (extract_lets +onlyGivenNames x; clear_value x)
    | (extract_lets +onlyGivenNames x)
    | refine ite_closed ?_ ?_
    | split

def Foot.execVoutMarginHigh (K : Part → Bool) : Bool := K (.fld .pmbHigh) && (Foot.pmbRW K && (Foot.pmbRead K &&
    (Foot.pmbHeld K)))

theorem execVoutMarginHigh_closed {K : Part → Bool} {P : State → Prop} {a : PmbAccess} {s : State} (hP : Closed K P) (hK :
    Foot.execVoutMarginHigh K = true) (hs_s : P s) :
    OutAll P (execVoutMarginHigh a s) := by
  simp only [Foot.execVoutMarginHigh, Bool.and_eq_true] at hK
  obtain ⟨hK0, hK1, hK2, hK3⟩ := hK
  unfold execVoutMarginHigh
  with_reducible repeat' first
    | assumption
    | refine pmbRW_closed hP ?_ ?_ ?_ ?_
    | refine pmbRead_closed hP ?_ ?_
    | refine pmbHeld_closed hP ?_ ?_ ?_
    | refine hP.put _ _ _ _ _ ?_ ?_
    | refine Closed.each ?_ _ ?_
    | refine OutAll.mk ?_
    | intro _

def Foot.execVoutMarginLow (K : Part → Bool) : Bool := K (.fld .pmbLow) && (Foot.pmbRW K && (Foot.pmbRead K && (Foot.pmbHeld
    K)))

theorem execVoutMarginLow_closed {K : Part → Bool} {P : State → Prop} {a : PmbAccess} {s : State} (hP : Closed K P) (hK :
    Foot.execVoutMarginLow K = true) (hs_s : P s) :
    OutAll P (execVoutMarginLow a s) := by
  simp only [Foot.execVoutMarginLow, Bool.and_eq_true] at hK
  obtain ⟨hK0, hK1, hK2, hK3⟩ := hK
  unfold execVoutMarginLow
  with_reducible repeat' first
    | assumption
    | refine pmbRW_closed hP ?_ ?_ ?_ ?_
    | refine pmbRead_closed hP ?_ ?_
    | refine pmbHeld_closed hP ?_ ?_ ?_
    | refine hP.put _ _ _ _ _ ?_ ?_
    | refine Closed.each ?_ _ ?_
    | refine OutAll.mk ?_
    | intro _

def Foot.execVoutMax (K : Part → Bool) : Bool := Foot.pmbRead K

theorem execVoutMax_closed {K : Part → Bool} {P : State → Prop} {s : State} (hP : Closed K P) (hK : Foot.execVoutMax K =
    true) (hs_s : P s) :
    OutAll P (execVoutMax s) := by
  simp only [Foot.execVoutMax, Bool.and_eq_true] at hK
  unfold execVoutMax
  with_reducible repeat' first
    | assumption
    | refine pmbRead_closed hP ?_ ?_
    | refine OutAll.mk ?_
    | intro _

def Foot.execVoutMode (K : Part → Bool) : Bool := Foot.pmbConst K

theorem execVoutMode_closed {K : Part → Bool} {P : State → Prop} {s : State} (hP : Closed K P) (hK : Foot.execVoutMode K =
    true) (hs_s : P s) :
    OutAll P (execVoutMode s) := by
  simp only [Foot.execVoutMode, Bool.and_eq_true] at hK
  unfold execVoutMode
  with_reducible repeat' first
    | assumption
    | refine pmbConst_closed hP ?_ ?_
    | refine OutAll.mk ?_

def Foot.rateWrite (K : Part → Bool) : Bool := Foot.pmbMessage K && (Foot.pmbKeep K && (K (.fld .pmbRate)))

theorem rateWrite_closed {K : Part → Bool} {P : State → Prop} {s : State} {v : Int} (hP : Closed K P) (hK : Foot.rateWrite K
    = true) (hs_s : P s) :
    P (rateWrite s v) := by
  simp only [Foot.rateWrite, Bool.and_eq_true] at hK
  obtain ⟨hK0, hK1, hK2⟩ := hK
  unfold rateWrite
  with_reducible repeat' first
    | assumption
    | refine pmbMessage_closed hP ?_ ?_
    | refine pmbKeep_closed hP ?_ ?_ ?_
    | (extract_lets +onlyGivenNames x; apply thenHave (p := P x); (unfold x; clear x); rotate_left 1; (intro hx; clear_value x))
    | (extract_lets +onlyGivenNames x; clear_value x)

theorem rateWrite_get {s : State} {v : Int} {fld0 : Fld} {i0 j0 : Nat} (hK : Foot.rateWrite (notFld fld0) = true)  :
    (rateWrite s v).get fld0 i0 j0 = s.get fld0 i0 j0 :=
  rateWrite_closed (P := fun x => x.get fld0 i0 j0 = s.get fld0 i0 j0) (field_closed fld0 i0 j0 _) hK  rfl

def Foot.execVoutTransitionRate (K : Part → Bool) : Bool := Foot.pmbRW K && (Foot.pmbRead K && (Foot.rateWrite K))

theorem execVoutTransitionRate_closed {K : Part → Bool} {P : State → Prop} {a : PmbAccess} {s : State} (hP : Closed K P) (hK
    : Foot.execVoutTransitionRate K = true) (hs_s : P s) :
    OutAll P (execVoutTransitionRate a s) := by
  simp only [Foot.execVoutTransitionRate, Bool.and_eq_true] at hK
  obtain ⟨hK0, hK1, hK2⟩ := hK
  unfold execVoutTransitionRate
  with_reducible repeat' first
    | assumption
    | refine pmbRW_closed hP ?_ ?_ ?_ ?_
    | refine pmbRead_closed hP ?_ ?_
    | refine rateWrite_closed hP ?_ ?_
    | refine OutAll.mk ?_
    | intro _
    | (extract_lets +onlyGivenNames x; apply thenHave (p := P x); (unfold x; clear x); rotate_left 1; (intro hx; clear_value x))
    | (extract_lets +onlyGivenNames x; clear_value x)
    | (extract_lets +onlyGivenNames x)
    | refine ite_closed ?_ ?_
    | split

def Foot.wpWrite (K : Part → Bool) : Bool := K (.fld .pmbWp) && (Foot.setCml K)

theorem wpWrite_closed {K : Part → Bool} {P : State → Prop} {s : State} {v : Nat} (hP : Closed K P) (hK : Foot.wpWrite K =
    true) (hs_s : P s) :
    P (wpWrite s v) := by
  simp only [Foot.wpWrite, Bool.and_eq_true] at hK
  obtain ⟨hK0, hK1⟩ := hK
  unfold wpWrite
  with_reducible repeat' first
    | assumption
    | refine setCml_closed hP ?_ ?_
    | refine hP.put _ _ _ _ _ ?_ ?_
    | refine ite_closed ?_ ?_
    | split

theorem wpWrite_get {s : State} {v : Nat} {fld0 : Fld} {i0 j0 : Nat} (hK : Foot.wpWrite (notFld fld0) = true)  : (wpWrite s
    v).get fld0 i0 j0 = s.get fld0 i0 j0 :=
  wpWrite_closed (P := fun x => x.get fld0 i0 j0 = s.get fld0 i0 j0) (field_closed fld0 i0 j0 _) hK  rfl

def Foot.execWriteProtect (K : Part → Bool) : Bool := Foot.pmbRW K && (Foot.pmbConst K && (Foot.wpWrite K))

theorem execWriteProtect_closed {K : Part → Bool} {P : State → Prop} {a : PmbAccess} {s : State} (hP : Closed K P) (hK :
    Foot.execWriteProtect K = true) (hs_s : P s) :
    OutAll P (execWriteProtect a s) := by
  simp only [Foot.execWriteProtect, Bool.and_eq_true] at hK
  obtain ⟨hK0, hK1, hK2⟩ := hK
  unfold execWriteProtect
  with_reducible repeat' first
    | assumption
    | refine pmbRW_closed hP ?_ ?_ ?_ ?_
    | refine pmbConst_closed hP ?_ ?_
    | refine wpWrite_closed hP ?_ ?_
    | refine OutAll.mk ?_
    | intro _
    | (extract_lets +onlyGivenNames x; apply thenHave (p := P x); (unfold x; clear x); rotate_left 1; (intro hx; clear_value x))
    | (extract_lets +onlyGivenNames x; clear_value x)
    | (extract_lets +onlyGivenNames x)
    | refine ite_closed ?_ ?_
    | split

end Sys2Proof.Machine
end

