-- ==== Sys2Proof/Laws/ClosedResets.lean ====
section
/-! SUPPORT. What the functions of Machine/Resets.lean can write, and that they keep every closed property (Laws/Closed.lean). -/
namespace Sys2Proof.Machine

set_option Elab.async false
set_option linter.all false

def Foot.irRestart (K : Part → Bool) : Bool := K (.fld .irStrAt) && (K (.fld .irWinEnd))

theorem irRestart_closed {K : Part → Bool} {P : State → Prop} {s : State} (hP : Closed K P) (hK : Foot.irRestart K = true)
    (hs_s : P s) :
    P (irRestart s) := by
  simp only [Foot.irRestart, Bool.and_eq_true] at hK
  obtain ⟨hK0, hK1⟩ := hK
  unfold irRestart
  with_reducible repeat' first
    | assumption
    | refine hP.put _ _ _ _ _ ?_ ?_
    | refine Closed.each ?_ _ ?_
    | intro _
    | (extract_lets +onlyGivenNames x; apply thenHave (p := P x); (unfold x; clear x); rotate_left 1; (intro hx; clear_value x))
    | (extract_lets +onlyGivenNames x; clear_value x)
    | refine ite_closed ?_ ?_
    | split

theorem irRestart_get {s : State} {fld0 : Fld} {i0 j0 : Nat} (hK : Foot.irRestart (notFld fld0) = true)  : (irRestart s).get
    fld0 i0 j0 = s.get fld0 i0 j0 :=
  irRestart_closed (P := fun x => x.get fld0 i0 j0 = s.get fld0 i0 j0) (field_closed fld0 i0 j0 _) hK  rfl

def Foot.wdRestart (K : Part → Bool) : Bool := K (.fld .wdLeft) && (K (.fld .wdOn))

theorem wdRestart_closed {K : Part → Bool} {P : State → Prop} {s : State} (hP : Closed K P) (hK : Foot.wdRestart K = true)
    (hs_s : P s) :
    P (wdRestart s) := by
  simp only [Foot.wdRestart, Bool.and_eq_true] at hK
  obtain ⟨hK0, hK1⟩ := hK
  unfold wdRestart
  with_reducible repeat' first
    | assumption
    | refine hP.put _ _ _ _ _ ?_ ?_

theorem wdRestart_get {s : State} {fld0 : Fld} {i0 j0 : Nat} (hK : Foot.wdRestart (notFld fld0) = true)  : (wdRestart s).get
    fld0 i0 j0 = s.get fld0 i0 j0 :=
  wdRestart_closed (P := fun x => x.get fld0 i0 j0 = s.get fld0 i0 j0) (field_closed fld0 i0 j0 _) hK  rfl

def Foot.standbyWake (K : Part → Bool) : Bool := K (.fld .PW_CTRL_SLEEP) && (K (.fld .sleepMode) && (K (.fld .PW_WAKEID) &&
    (K (.fld .PW_STATE_WSRC) && (K (.fld .flumeOn) && (K (.fld .D4_STATUS_SREF) && (K (.fld .evLatch) && (K (.fld
    .FL_STATUS_RDY) && (K (.fld .flumeFrom) && (K (.fld .irWakeReq) && (K (.fld .wakeReq) && (K (.fld .evWakeReq) &&
    (Foot.irRestart K && (Foot.sampleSource K && (Foot.wdRestart K && (Foot.laneEnable K)))))))))))))))

theorem standbyWake_closed {K : Part → Bool} {P : State → Prop} {s : State} {wsrc : Int} {id : Int} (hP : Closed K P) (hK :
    Foot.standbyWake K = true) (hs_s : P s) :
    P (standbyWake s wsrc id) := by
  simp only [Foot.standbyWake, Bool.and_eq_true] at hK
  obtain ⟨hK0, hK1, hK2, hK3, hK4, hK5, hK6, hK7, hK8, hK9, hK10, hK11, hK12, hK13, hK14, hK15⟩ := hK
  unfold standbyWake
  with_reducible repeat' first
    | assumption
    | refine irRestart_closed hP ?_ ?_
    | refine sampleSource_closed hP ?_ ?_
    | refine wdRestart_closed hP ?_ ?_
    | refine laneEnable_closed hP ?_ ?_
    | refine hP.put _ _ _ _ _ ?_ ?_
    | refine hP.clear ?_ ?_
    | refine hP.raise ?_ ?_
    | refine hP.bump ?_ ?_
    | refine hP.setBits ?_ ?_
    | refine hP.clrBits ?_ ?_
    | refine Closed.each ?_ _ ?_
    | intro _
    | (extract_lets +onlyGivenNames x; apply thenHave (p := P x); (unfold x; clear x); rotate_left 1; (intro hx; clear_value x))
    | (extract_lets +onlyGivenNames x; clear_value x)
    | (extract_lets +onlyGivenNames x)
    | refine ite_closed ?_ ?_
    | split

theorem standbyWake_get {s : State} {wsrc : Int} {id : Int} {fld0 : Fld} {i0 j0 : Nat} (hK : Foot.standbyWake (notFld fld0) =
    true)  : (standbyWake s wsrc id).get fld0 i0 j0 = s.get fld0 i0 j0 :=
  standbyWake_closed (P := fun x => x.get fld0 i0 j0 = s.get fld0 i0 j0) (field_closed fld0 i0 j0 _) hK  rfl

def Foot.resync (K : Part → Bool) : Bool := K (.fld .LS_PAIR_STATE)

theorem resync_closed {K : Part → Bool} {P : State → Prop} {s : State} {k : Nat} (hP : Closed K P) (hK : Foot.resync K =
    true) (hs_s : P s) :
    P (resync s k) := by
  simp only [Foot.resync, Bool.and_eq_true] at hK
  unfold resync
  with_reducible repeat' first
    | assumption
    | refine hP.put _ _ _ _ _ ?_ ?_
    | refine ite_closed ?_ ?_
    | split

theorem resync_get {s : State} {k : Nat} {fld0 : Fld} {i0 j0 : Nat} (hK : Foot.resync (notFld fld0) = true)  : (resync s
    k).get fld0 i0 j0 = s.get fld0 i0 j0 :=
  resync_closed (P := fun x => x.get fld0 i0 j0 = s.get fld0 i0 j0) (field_closed fld0 i0 j0 _) hK  rfl

def Foot.restoreWindow (K : Part → Bool) : Bool := (allFld fun f => K (.fld f))

theorem restoreWindow_closed {K : Part → Bool} {P : State → Prop} {s : State} {k : Nat} (hP : Closed K P) (hK :
    Foot.restoreWindow K = true) (hs_s : P s) :
    P (restoreWindow s k) := by
  simp only [Foot.restoreWindow, Bool.and_eq_true] at hK
  unfold restoreWindow
  with_reducible repeat' first
    | assumption
    | refine allFld_fld ?_ _
    | refine hP.put _ _ _ _ _ ?_ ?_
    | refine Closed.each ?_ _ ?_
    | intro _
    | (extract_lets +onlyGivenNames x; apply thenHave (p := P x); (unfold x; clear x); rotate_left 1; (intro hx; clear_value x))
    | (extract_lets +onlyGivenNames x; clear_value x)
    | refine ite_closed ?_ ?_
    | split

theorem restoreWindow_get {s : State} {k : Nat} {fld0 : Fld} {i0 j0 : Nat} (hK : Foot.restoreWindow (notFld fld0) = true)  :
    (restoreWindow s k).get fld0 i0 j0 = s.get fld0 i0 j0 :=
  restoreWindow_closed (P := fun x => x.get fld0 i0 j0 = s.get fld0 i0 j0) (field_closed fld0 i0 j0 _) hK  rfl

def Foot.mcReset (K : Part → Bool) : Bool := K (.fld .coreOn) && (K (.fld .ucWait) && (K (.fld .UC_CTRL_LDEN) && (K .logQueue
    && (K (.fld .PW_MCCNT) && (K (.fld .PW_RSTCAUSE_MCCAUSE) && (K (.fld .verDue) && (K (.fld .attPend) && (K (.fld .mcRstAt)
    && (K (.fld .warmDue) && (Foot.standbyWake K && (Foot.resync K && (Foot.clearActive K && (Foot.restoreWindow K &&
    (Foot.resetCore K && (Foot.hgRestart K)))))))))))))))

theorem mcReset_closed {K : Part → Bool} {P : State → Prop} {s : State} {cause : Int} (hP : Closed K P) (hK : Foot.mcReset K
    = true) (hs_s : P s) :
    P (mcReset s cause) := by
  simp only [Foot.mcReset, Bool.and_eq_true] at hK
  obtain ⟨hK0, hK1, hK2, hK3, hK4, hK5, hK6, hK7, hK8, hK9, hK10, hK11, hK12, hK13, hK14, hK15⟩ := hK
  unfold mcReset
  with_reducible repeat' first
    | assumption
    | refine standbyWake_closed hP ?_ ?_
    | refine resync_closed hP ?_ ?_
    | refine clearActive_closed hP ?_ ?_
    | refine restoreWindow_closed hP ?_ ?_
    | refine resetCore_closed hP ?_ ?_
    | refine hgRestart_closed hP ?_ ?_
    | refine hP.put _ _ _ _ _ ?_ ?_
    | refine hP.clear ?_ ?_
    | refine hP.raise ?_ ?_
    | refine hP.bump ?_ ?_
    | (extract_lets +onlyGivenNames x; apply thenHave (p := P x); (unfold x; clear x); rotate_left 1; (intro hx; clear_value x))
    | (extract_lets +onlyGivenNames x; clear_value x)
    | refine hP.remake _ _ _ _ _ _ _ _ _ _ _ _ _ _ _ _ _ _ _ _ _ _ _ (hs := ?_); first | assumption | (with_reducible refine standbyWake_closed hP ?_ ?_) | (with_reducible refine resync_closed hP ?_ ?_) | (with_reducible refine clearActive_closed hP ?_ ?_) | (with_reducible refine restoreWindow_closed hP ?_ ?_) | (with_reducible refine resetCore_closed hP ?_ ?_) | (with_reducible refine hgRestart_closed hP ?_ ?_) | (with_reducible refine hP.put _ _ _ _ _ ?_ ?_) | (with_reducible refine hP.clear ?_ ?_) | (with_reducible refine hP.raise ?_ ?_) | (with_reducible refine hP.bump ?_ ?_) | (with_reducible refine hP.setBits ?_ ?_) | (with_reducible refine hP.clrBits ?_ ?_)
    | refine ite_closed ?_ ?_
    | split

theorem mcReset_get {s : State} {cause : Int} {fld0 : Fld} {i0 j0 : Nat} (hK : Foot.mcReset (notFld fld0) = true)  : (mcReset
    s cause).get fld0 i0 j0 = s.get fld0 i0 j0 :=
  mcReset_closed (P := fun x => x.get fld0 i0 j0 = s.get fld0 i0 j0) (field_closed fld0 i0 j0 _) hK  rfl

def Foot.tickCoreReset (K : Part → Bool) : Bool := K (.fld .evLatch) && (K (.fld .coreOn) && (Foot.resync K &&
    (Foot.clearActive K && (Foot.restoreWindow K && (Foot.resetCore K)))))

theorem tickCoreReset_closed {K : Part → Bool} {P : State → Prop} {s : State} {k : Nat} (hP : Closed K P) (hK :
    Foot.tickCoreReset K = true) (hs_s : P s) :
    P (tickCoreReset s k) := by
  simp only [Foot.tickCoreReset, Bool.and_eq_true] at hK
  obtain ⟨hK0, hK1, hK2, hK3, hK4, hK5⟩ := hK
  unfold tickCoreReset
  with_reducible repeat' first
    | assumption
    | refine resync_closed hP ?_ ?_
    | refine clearActive_closed hP ?_ ?_
    | refine restoreWindow_closed hP ?_ ?_
    | refine resetCore_closed hP ?_ ?_
    | refine hP.clear ?_ ?_
    | (extract_lets +onlyGivenNames x; apply thenHave (p := P x); (unfold x; clear x); rotate_left 1; (intro hx; clear_value x))
    | (extract_lets +onlyGivenNames x; clear_value x)

theorem tickCoreReset_get {s : State} {k : Nat} {fld0 : Fld} {i0 j0 : Nat} (hK : Foot.tickCoreReset (notFld fld0) = true)  :
    (tickCoreReset s k).get fld0 i0 j0 = s.get fld0 i0 j0 :=
  tickCoreReset_closed (P := fun x => x.get fld0 i0 j0 = s.get fld0 i0 j0) (field_closed fld0 i0 j0 _) hK  rfl

def Foot.releaseCore (K : Part → Bool) : Bool := K (.fld .coreOn) && (K (.fld .corePc) && (Foot.resetRegs K))

theorem releaseCore_closed {K : Part → Bool} {P : State → Prop} {s : State} {k : Nat} (hP : Closed K P) (hK :
    Foot.releaseCore K = true) (hs_s : P s) :
    P (releaseCore s k) := by
  simp only [Foot.releaseCore, Bool.and_eq_true] at hK
  obtain ⟨hK0, hK1, hK2⟩ := hK
  unfold releaseCore
  with_reducible repeat' first
    | assumption
    | refine resetRegs_closed hP ?_ ?_
    | refine hP.put _ _ _ _ _ ?_ ?_
    | refine hP.raise ?_ ?_

theorem releaseCore_get {s : State} {k : Nat} {fld0 : Fld} {i0 j0 : Nat} (hK : Foot.releaseCore (notFld fld0) = true)  :
    (releaseCore s k).get fld0 i0 j0 = s.get fld0 i0 j0 :=
  releaseCore_closed (P := fun x => x.get fld0 i0 j0 = s.get fld0 i0 j0) (field_closed fld0 i0 j0 _) hK  rfl

def Foot.coldReset (K : Part → Bool) : Bool := K (.fld .PW_RSTCAUSE_CCAUSE) && (K (.fld .PW_RSTCAUSE_SUPIDX) && ((allFld fun
    f => (otpFld f || tapFld f) || K (.fld f)) && (K .mem && (K .writes && (K .arrivals && (K .bounds && (K .irqLines && (K
    .commits && (K .txFlits && (K .stores && (K .traps && (K .recQueue && (K .hgQueue && (K .hgTaken && (K .hgCpl && (K
    .avsHeld && (K .hostOut && (K .digests && (K .challenge && (K .logQueue && (K .soft && (K .softUc && (K .ceTrack && (K
    .drRoom))))))))))))))))))))))))

theorem coldReset_closed {K : Part → Bool} {P : State → Prop} {s : State} {cause : Int} {idx : Int} (hP : Closed K P) (hK :
    Foot.coldReset K = true) (hs_s : P s) :
    P (coldReset s cause idx) := by
  simp only [Foot.coldReset, Bool.and_eq_true] at hK
  obtain ⟨hK0, hK1, hK2, hK3, hK4, hK5, hK6, hK7, hK8, hK9, hK10, hK11, hK12, hK13, hK14, hK15, hK16, hK17, hK18, hK19, hK20, hK21, hK22, hK23, hK24⟩ := hK
  unfold coldReset
  refine hP.put _ _ _ _ _ hK1 (hP.put _ _ _ _ _ hK0 ?_)
  refine hP.rest ({ s with rf := s.rf.filter fun e => otpFld e.1.fld || tapFld e.1.fld, mem := s.mem.filter fun _ => false })
    _ rfl ?_ rfl rfl
    ⟨.inl hK4, .inl hK5, .inl hK6, .inl hK7, .inl hK8, .inl hK9, .inl hK10, .inl hK11, .inl hK12, .inl hK13, .inl hK14, .inl hK15, .inl hK16, .inl hK17, .inl hK18, .inl hK19, .inr rfl, .inl hK20, .inl hK21, .inl hK22, .inl hK23, .inl hK24, .inr rfl⟩ ?_
  · exact (List.filter_eq_nil_iff.mpr fun _ _ => by simp).symm
  · refine hP.memDrop { s with rf := s.rf.filter fun e => otpFld e.1.fld || tapFld e.1.fld } _ hK3 ?_
    exact hP.drop s _ (fun k hk => allFld_keep (q := fun f => otpFld f || tapFld f) hK2 hk) hs_s

theorem coldReset_get {s : State} {cause : Int} {idx : Int} {fld0 : Fld} {i0 j0 : Nat} (hK : Foot.coldReset (notFld fld0) =
    true)  : (coldReset s cause idx).get fld0 i0 j0 = s.get fld0 i0 j0 :=
  coldReset_closed (P := fun x => x.get fld0 i0 j0 = s.get fld0 i0 j0) (field_closed fld0 i0 j0 _) hK  rfl

def Foot.keepWindow (K : Part → Bool) : Bool := K (.fld .imgWin)

theorem keepWindow_closed {K : Part → Bool} {P : State → Prop} {s : State} {k : Nat} (hP : Closed K P) (hK : Foot.keepWindow
    K = true) (hs_s : P s) :
    P (keepWindow s k) := by
  simp only [Foot.keepWindow, Bool.and_eq_true] at hK
  unfold keepWindow
  with_reducible repeat' first
    | assumption
    | refine hP.put _ _ _ _ _ ?_ ?_
    | refine Closed.each ?_ _ ?_
    | intro _
    | (extract_lets +onlyGivenNames x; apply thenHave (p := P x); (unfold x; clear x); rotate_left 1; (intro hx; clear_value x))
    | (extract_lets +onlyGivenNames x; clear_value x)
    | refine ite_closed ?_ ?_
    | split

theorem keepWindow_get {s : State} {k : Nat} {fld0 : Fld} {i0 j0 : Nat} (hK : Foot.keepWindow (notFld fld0) = true)  :
    (keepWindow s k).get fld0 i0 j0 = s.get fld0 i0 j0 :=
  keepWindow_closed (P := fun x => x.get fld0 i0 j0 = s.get fld0 i0 j0) (field_closed fld0 i0 j0 _) hK  rfl

end Sys2Proof.Machine
end

