-- ==== Sys2Proof/Laws/ClosedMicrocode.lean ====
section
/-! SUPPORT. What the functions of Machine/Microcode.lean can write, and that they keep every closed property (Laws/Closed.lean). -/
namespace Sys2Proof.Machine

set_option Elab.async false
set_option linter.all false

def Foot.storeMicroword (K : Part → Bool) : Bool := K (.fld .UC_MW) && (K (.fld .ucBad) && (K .softUc))

theorem storeMicroword_closed {K : Part → Bool} {P : State → Prop} {s : State} {m : Nat} {w : Int} (hP : Closed K P) (hK :
    Foot.storeMicroword K = true) (hs_s : P s) :
    P (storeMicroword s m w) := by
  simp only [Foot.storeMicroword, Bool.and_eq_true] at hK
  obtain ⟨hK0, hK1, hK2⟩ := hK
  unfold storeMicroword
  with_reducible repeat' first
    | assumption
    | refine hP.put _ _ _ _ _ ?_ ?_
    | refine hP.clear ?_ ?_
    | refine Closed.each ?_ _ ?_
    | intro _
    | (extract_lets +onlyGivenNames x; apply thenHave (p := P x); (unfold x; clear x); rotate_left 1; (intro hx; clear_value x))
    | (extract_lets +onlyGivenNames x; clear_value x)
    | refine hP.remake _ _ _ _ _ _ _ _ _ _ _ _ _ _ _ _ _ _ _ _ _ _ _ (hs := ?_); first | assumption | (with_reducible refine hP.put _ _ _ _ _ ?_ ?_) | (with_reducible refine hP.clear ?_ ?_) | (with_reducible refine hP.raise ?_ ?_) | (with_reducible refine hP.bump ?_ ?_) | (with_reducible refine hP.setBits ?_ ?_) | (with_reducible refine hP.clrBits ?_ ?_) | (with_reducible refine Closed.each ?_ _ ?_)

theorem storeMicroword_get {s : State} {m : Nat} {w : Int} {fld0 : Fld} {i0 j0 : Nat} (hK : Foot.storeMicroword (notFld fld0)
    = true)  : (storeMicroword s m w).get fld0 i0 j0 = s.get fld0 i0 j0 :=
  storeMicroword_closed (P := fun x => x.get fld0 i0 j0 = s.get fld0 i0 j0) (field_closed fld0 i0 j0 _) hK  rfl

def Foot.microwordWrite (K : Part → Bool) : Bool := K (.fld .UC_STATUS_LDERR) && (K (.fld .UC_STATUS_LIVEERR) && (K (.fld
    .UC_STATUS_FMTERR) && (Foot.storeMicroword K)))

theorem microwordWrite_closed {K : Part → Bool} {P : State → Prop} {s : State} {k : Nat} {sup : Bool} {m : Nat} {w : Int} (hP
    : Closed K P) (hK : Foot.microwordWrite K = true) (hs_s : P s) :
    P (microwordWrite s k sup m w) := by
  simp only [Foot.microwordWrite, Bool.and_eq_true] at hK
  obtain ⟨hK0, hK1, hK2, hK3⟩ := hK
  unfold microwordWrite
  with_reducible repeat' first
    | assumption
    | refine storeMicroword_closed hP ?_ ?_
    | refine hP.raise ?_ ?_
    | refine ite_closed ?_ ?_
    | split

theorem microwordWrite_get {s : State} {k : Nat} {sup : Bool} {m : Nat} {w : Int} {fld0 : Fld} {i0 j0 : Nat} (hK :
    Foot.microwordWrite (notFld fld0) = true)  : (microwordWrite s k sup m w).get fld0 i0 j0 = s.get fld0 i0 j0 :=
  microwordWrite_closed (P := fun x => x.get fld0 i0 j0 = s.get fld0 i0 j0) (field_closed fld0 i0 j0 _) hK  rfl

def Foot.takeEntries (K : Part → Bool) : Bool := K (.fld .decPend) && (K (.fld .decCopy) && (K (.fld .ucHeld)))

theorem takeEntries_closed {K : Part → Bool} {P : State → Prop} {s : State} {k : Nat} (hP : Closed K P) (hK :
    Foot.takeEntries K = true) (hs_s : P s) :
    P (takeEntries s k) := by
  simp only [Foot.takeEntries, Bool.and_eq_true] at hK
  obtain ⟨hK0, hK1, hK2⟩ := hK
  unfold takeEntries
  with_reducible repeat' first
    | assumption
    | refine hP.put _ _ _ _ _ ?_ ?_
    | refine hP.clear ?_ ?_
    | refine Closed.each ?_ _ ?_
    | refine Closed.when ?_ ?_
    | intro _
    | (extract_lets +onlyGivenNames x; apply thenHave (p := P x); (unfold x; clear x); rotate_left 1; (intro hx; clear_value x))
    | (extract_lets +onlyGivenNames x; clear_value x)

theorem takeEntries_get {s : State} {k : Nat} {fld0 : Fld} {i0 j0 : Nat} (hK : Foot.takeEntries (notFld fld0) = true)  :
    (takeEntries s k).get fld0 i0 j0 = s.get fld0 i0 j0 :=
  takeEntries_closed (P := fun x => x.get fld0 i0 j0 = s.get fld0 i0 j0) (field_closed fld0 i0 j0 _) hK  rfl

def Foot.decodeEntryWrite (K : Part → Bool) : Bool := K (.fld .UC_STATUS_LDERR) && (K (.fld .ucHeld) && (K (.fld
    .UC_DEC_VALID) && (K (.fld .UC_DEC_PAGE) && (K (.fld .UC_DEC_START) && (K (.fld .UC_DEC_PRIV) && (K (.fld .UC_DEC_MCONLY)
    && (K (.fld .decPend) && (Foot.takeEntries K))))))))

theorem decodeEntryWrite_closed {K : Part → Bool} {P : State → Prop} {s : State} {k : Nat} {sup : Bool} {e : Nat} {v : Int}
    (hP : Closed K P) (hK : Foot.decodeEntryWrite K = true) (hs_s : P s) :
    P (decodeEntryWrite s k sup e v) := by
  simp only [Foot.decodeEntryWrite, Bool.and_eq_true] at hK
  obtain ⟨hK0, hK1, hK2, hK3, hK4, hK5, hK6, hK7, hK8⟩ := hK
  unfold decodeEntryWrite
  with_reducible repeat' first
    | assumption
    | refine takeEntries_closed hP ?_ ?_
    | refine hP.put _ _ _ _ _ ?_ ?_
    | refine hP.raise ?_ ?_
    | refine hP.setBits ?_ ?_
    | refine Closed.each ?_ _ ?_
    | refine Closed.when ?_ ?_
    | intro _
    | (extract_lets +onlyGivenNames x; apply thenHave (p := P x); (unfold x; clear x); rotate_left 1; (intro hx; clear_value x))
    | (extract_lets +onlyGivenNames x; clear_value x)
    | refine ite_closed ?_ ?_
    | split

theorem decodeEntryWrite_get {s : State} {k : Nat} {sup : Bool} {e : Nat} {v : Int} {fld0 : Fld} {i0 j0 : Nat} (hK :
    Foot.decodeEntryWrite (notFld fld0) = true)  : (decodeEntryWrite s k sup e v).get fld0 i0 j0 = s.get fld0 i0 j0 :=
  decodeEntryWrite_closed (P := fun x => x.get fld0 i0 j0 = s.get fld0 i0 j0) (field_closed fld0 i0 j0 _) hK  rfl

def Foot.endLoad (K : Part → Bool) : Bool := K (.fld .UC_CTRL_LDEN) && (K (.fld .ucWait))

theorem endLoad_closed {K : Part → Bool} {P : State → Prop} {s : State} (hP : Closed K P) (hK : Foot.endLoad K = true) (hs_s
    : P s) :
    P (endLoad s) := by
  simp only [Foot.endLoad, Bool.and_eq_true] at hK
  obtain ⟨hK0, hK1⟩ := hK
  unfold endLoad
  with_reducible repeat' first
    | assumption
    | refine hP.clear ?_ ?_
    | refine Closed.when ?_ ?_
    | intro _

theorem endLoad_get {s : State} {fld0 : Fld} {i0 j0 : Nat} (hK : Foot.endLoad (notFld fld0) = true)  : (endLoad s).get fld0
    i0 j0 = s.get fld0 i0 j0 :=
  endLoad_closed (P := fun x => x.get fld0 i0 j0 = s.get fld0 i0 j0) (field_closed fld0 i0 j0 _) hK  rfl

def Foot.microwordError (K : Part → Bool) : Bool := K (.fld .UC_UEADDR_V) && (K (.fld .UC_UEADDR_CORE) && (K (.fld
    .UC_UEADDR_MW) && (K (.fld .ucBad) && (K (.fld .decCopy)))))

theorem microwordError_closed {K : Part → Bool} {P : State → Prop} {s : State} {k : Nat} {m : Nat} (hP : Closed K P) (hK :
    Foot.microwordError K = true) (hs_s : P s) :
    P (microwordError s k m) := by
  simp only [Foot.microwordError, Bool.and_eq_true] at hK
  obtain ⟨hK0, hK1, hK2, hK3, hK4⟩ := hK
  unfold microwordError
  with_reducible repeat' first
    | assumption
    | refine hP.put _ _ _ _ _ ?_ ?_
    | refine hP.raise ?_ ?_
    | refine Closed.each ?_ _ ?_
    | intro _
    | (extract_lets +onlyGivenNames x; apply thenHave (p := P x); (unfold x; clear x); rotate_left 1; (intro hx; clear_value x))
    | (extract_lets +onlyGivenNames x; clear_value x)
    | refine ite_closed ?_ ?_
    | split

theorem microwordError_get {s : State} {k : Nat} {m : Nat} {fld0 : Fld} {i0 j0 : Nat} (hK : Foot.microwordError (notFld fld0)
    = true)  : (microwordError s k m).get fld0 i0 j0 = s.get fld0 i0 j0 :=
  microwordError_closed (P := fun x => x.get fld0 i0 j0 = s.get fld0 i0 j0) (field_closed fld0 i0 j0 _) hK  rfl

def Foot.execDecodeEntryTaken (K : Part → Bool) : Bool := Foot.endLoad K && (Foot.takeEntries K)

theorem execDecodeEntryTaken_closed {K : Part → Bool} {P : State → Prop} {k : CoreId} {s : State} (hP : Closed K P) (hK :
    Foot.execDecodeEntryTaken K = true) (hs_s : P s) :
    OutAll P (execDecodeEntryTaken k s) := by
  simp only [Foot.execDecodeEntryTaken, Bool.and_eq_true] at hK
  obtain ⟨hK0, hK1⟩ := hK
  unfold execDecodeEntryTaken
  with_reducible repeat' first
    | assumption
    | refine endLoad_closed hP ?_ ?_
    | refine takeEntries_closed hP ?_ ?_
    | refine OutAll.mk ?_

def Foot.execDecodeEntryWrite (K : Part → Bool) : Bool := Foot.decodeEntryWrite K

theorem execDecodeEntryWrite_closed {K : Part → Bool} {P : State → Prop} {by_ : Agent} {e : Fin 32} {v : W16} {s : State} (hP
    : Closed K P) (hK : Foot.execDecodeEntryWrite K = true) (hs_s : P s) :
    OutAll P (execDecodeEntryWrite by_ e v s) := by
  simp only [Foot.execDecodeEntryWrite, Bool.and_eq_true] at hK
  unfold execDecodeEntryWrite
  with_reducible repeat' first
    | assumption
    | refine decodeEntryWrite_closed hP ?_ ?_
    | refine OutAll.mk ?_
    | intro _
    | (extract_lets +onlyGivenNames x; apply thenHave (p := P x); (unfold x; clear x); rotate_left 1; (intro hx; clear_value x))
    | (extract_lets +onlyGivenNames x; clear_value x)
    | (extract_lets +onlyGivenNames x)
    | refine ite_closed ?_ ?_
    | split

def Foot.execMicrowordWrite (K : Part → Bool) : Bool := Foot.microwordWrite K

theorem execMicrowordWrite_closed {K : Part → Bool} {P : State → Prop} {by_ : Agent} {m : Fin 1024} {w : BitVec 64} {s :
    State} (hP : Closed K P) (hK : Foot.execMicrowordWrite K = true) (hs_s : P s) :
    OutAll P (execMicrowordWrite by_ m w s) := by
  simp only [Foot.execMicrowordWrite, Bool.and_eq_true] at hK
  unfold execMicrowordWrite
  with_reducible repeat' first
    | assumption
    | refine microwordWrite_closed hP ?_ ?_
    | refine OutAll.mk ?_
    | intro _
    | (extract_lets +onlyGivenNames x; apply thenHave (p := P x); (unfold x; clear x); rotate_left 1; (intro hx; clear_value x))
    | (extract_lets +onlyGivenNames x; clear_value x)
    | (extract_lets +onlyGivenNames x)
    | refine ite_closed ?_ ?_
    | split

def Foot.execVlock (K : Part → Bool) : Bool := K (.fld .UC_CTRL_VLOCK) && (K (.fld .UC_STATUS_LDERR))

theorem execVlock_closed {K : Part → Bool} {P : State → Prop} {by_ : Agent} {s : State} (hP : Closed K P) (hK :
    Foot.execVlock K = true) (hs_s : P s) :
    OutAll P (execVlock by_ s) := by
  simp only [Foot.execVlock, Bool.and_eq_true] at hK
  obtain ⟨hK0, hK1⟩ := hK
  unfold execVlock
  with_reducible repeat' first
    | assumption
    | refine hP.raise ?_ ?_
    | refine OutAll.mk ?_
    | (extract_lets +onlyGivenNames x; apply thenHave (p := P x); (unfold x; clear x); rotate_left 1; (intro hx; clear_value x))
    | (extract_lets +onlyGivenNames x; clear_value x)
    | refine ite_closed ?_ ?_
    | split

end Sys2Proof.Machine
end

