-- ==== Sys2Proof/Laws/ClosedLegal.lean ====
section
/-! SUPPORT. What the functions of Machine/Legal.lean can write, and that they keep every closed property (Laws/Closed.lean). -/
namespace Sys2Proof.Machine

set_option Elab.async false
set_option linter.all false

def Foot.reportIllegal (K : Part → Bool) : Bool := K (.fld .DM_STATUS_CEILERR) && (K (.fld .FL_STATUS_CFGERR) && (K (.fld
    .DL_FLAG_CFGERR) && (K (.fld .DD_GREQ_CFGERR) && (K (.fld .SL_STATUS_CFGERR) && (K (.fld .WP_STATUS_CFGERR) && (K (.fld
    .PH_STATUS_CFGERR) && (K (.fld .EV_STATUS_CFGERR) && (K (.fld .IR_STATUS_CFGERR) && (K (.fld .D4_STATUS_CFGERR) && (K
    (.fld .RC_STATUS_CFGERR) && (K (.fld .HG_STATUS_CFGERR) && (Foot.laneFlag K))))))))))))

theorem reportIllegal_closed {K : Part → Bool} {P : State → Prop} {s : State} {f : Fld} {i : Nat} (hP : Closed K P) (hK :
    Foot.reportIllegal K = true) (hs_s : P s) :
    P (reportIllegal s f i) := by
  simp only [Foot.reportIllegal, Bool.and_eq_true] at hK
  obtain ⟨hK0, hK1, hK2, hK3, hK4, hK5, hK6, hK7, hK8, hK9, hK10, hK11, hK12⟩ := hK
  unfold reportIllegal
  with_reducible repeat' first
    | assumption
    | refine laneFlag_closed hP ?_ ?_
    | refine hP.raise ?_ ?_
    | refine ite_closed ?_ ?_
    | split

theorem reportIllegal_get {s : State} {f : Fld} {i : Nat} {fld0 : Fld} {i0 j0 : Nat} (hK : Foot.reportIllegal (notFld fld0) =
    true)  : (reportIllegal s f i).get fld0 i0 j0 = s.get fld0 i0 j0 :=
  reportIllegal_closed (P := fun x => x.get fld0 i0 j0 = s.get fld0 i0 j0) (field_closed fld0 i0 j0 _) hK  rfl

end Sys2Proof.Machine
end

