-- ==== Sys2Proof/Laws/ClosedLockStep.lean ====
section
/-! SUPPORT. What the functions of Machine/LockStep.lean can write, and that they keep every closed property (Laws/Closed.lean). -/
namespace Sys2Proof.Machine

set_option Elab.async false
set_option linter.all false

def Foot.takeoverDone (K : Part → Bool) : Bool := K (.fld .LS_STATUS_TKOVER)

theorem takeoverDone_closed {K : Part → Bool} {P : State → Prop} {s : State} {k : Nat} (hP : Closed K P) (hK :
    Foot.takeoverDone K = true) (hs_s : P s) :
    P (takeoverDone s k) := by
  simp only [Foot.takeoverDone, Bool.and_eq_true] at hK
  unfold takeoverDone
  with_reducible repeat' first
    | assumption
    | refine hP.clear ?_ ?_
    | refine ite_closed ?_ ?_
    | split

theorem takeoverDone_get {s : State} {k : Nat} {fld0 : Fld} {i0 j0 : Nat} (hK : Foot.takeoverDone (notFld fld0) = true)  :
    (takeoverDone s k).get fld0 i0 j0 = s.get fld0 i0 j0 :=
  takeoverDone_closed (P := fun x => x.get fld0 i0 j0 = s.get fld0 i0 j0) (field_closed fld0 i0 j0 _) hK  rfl

def Foot.injectionTest (K : Part → Bool) : Bool := K (.fld .LS_PAIR_STATE) && (K (.fld .LS_PAIR_COMPFAIL) && (K (.fld
    .LS_STATUS_INJDONE)))

theorem injectionTest_closed {K : Part → Bool} {P : State → Prop} {s : State} {failed : List Nat} (hP : Closed K P) (hK :
    Foot.injectionTest K = true) (hs_s : P s) :
    P (injectionTest s failed) := by
  simp only [Foot.injectionTest, Bool.and_eq_true] at hK
  obtain ⟨hK0, hK1, hK2⟩ := hK
  unfold injectionTest
  with_reducible repeat' first
    | assumption
    | refine hP.put _ _ _ _ _ ?_ ?_
    | refine hP.raise ?_ ?_
    | refine Closed.each ?_ _ ?_
    | intro _
    | (extract_lets +onlyGivenNames x; apply thenHave (p := P x); (unfold x; clear x); rotate_left 1; (intro hx; clear_value x))
    | (extract_lets +onlyGivenNames x; clear_value x)

theorem injectionTest_get {s : State} {failed : List Nat} {fld0 : Fld} {i0 j0 : Nat} (hK : Foot.injectionTest (notFld fld0) =
    true)  : (injectionTest s failed).get fld0 i0 j0 = s.get fld0 i0 j0 :=
  injectionTest_closed (P := fun x => x.get fld0 i0 j0 = s.get fld0 i0 j0) (field_closed fld0 i0 j0 _) hK  rfl

def Foot.copyWindow (K : Part → Bool) : Bool := K (.fld .XC_MPUCTL_EN) && (K (.fld .XC_VBASE) && (K (.fld .XC_CTRL_LOCK) &&
    ((allFld fun f => K (.fld f)))))

theorem copyWindow_closed {K : Part → Bool} {P : State → Prop} {s : State} {q : Nat} {n : Nat} (hP : Closed K P) (hK :
    Foot.copyWindow K = true) (hs_s : P s) :
    P (copyWindow s q n) := by
  simp only [Foot.copyWindow, Bool.and_eq_true] at hK
  obtain ⟨hK0, hK1, hK2, hK3⟩ := hK
  unfold copyWindow
  with_reducible repeat' first
    | assumption
    | refine allFld_fld ?_ _
    | refine hP.put _ _ _ _ _ ?_ ?_
    | refine Closed.each ?_ _ ?_
    | intro _
    | (extract_lets +onlyGivenNames x; apply thenHave (p := P x); (unfold x; clear x); rotate_left 1; (intro hx; clear_value x))
    | (extract_lets +onlyGivenNames x; clear_value x)

theorem copyWindow_get {s : State} {q : Nat} {n : Nat} {fld0 : Fld} {i0 j0 : Nat} (hK : Foot.copyWindow (notFld fld0) = true)
     : (copyWindow s q n).get fld0 i0 j0 = s.get fld0 i0 j0 :=
  copyWindow_closed (P := fun x => x.get fld0 i0 j0 = s.get fld0 i0 j0) (field_closed fld0 i0 j0 _) hK  rfl

def Foot.keepTaken (K : Part → Bool) : Bool := Foot.copyWindow K

theorem keepTaken_closed {K : Part → Bool} {P : State → Prop} {s : State} (hP : Closed K P) (hK : Foot.keepTaken K = true)
    (hs_s : P s) :
    P (keepTaken s) := by
  simp only [Foot.keepTaken, Bool.and_eq_true] at hK
  unfold keepTaken
  with_reducible repeat' first
    | assumption
    | refine copyWindow_closed hP ?_ ?_
    | refine Closed.each ?_ _ ?_
    | intro _

theorem keepTaken_get {s : State} {fld0 : Fld} {i0 j0 : Nat} (hK : Foot.keepTaken (notFld fld0) = true)  : (keepTaken s).get
    fld0 i0 j0 = s.get fld0 i0 j0 :=
  keepTaken_closed (P := fun x => x.get fld0 i0 j0 = s.get fld0 i0 j0) (field_closed fld0 i0 j0 _) hK  rfl

def Foot.takeSet (K : Part → Bool) : Bool := K (.fld .maskOf) && (K (.fld .tcmOf) && (Foot.copyWindow K))

theorem takeSet_closed {K : Part → Bool} {P : State → Prop} {s : State} {n : Nat} {q : Nat} (hP : Closed K P) (hK :
    Foot.takeSet K = true) (hs_s : P s) :
    P (takeSet s n q) := by
  simp only [Foot.takeSet, Bool.and_eq_true] at hK
  obtain ⟨hK0, hK1, hK2⟩ := hK
  unfold takeSet
  with_reducible repeat' first
    | assumption
    | refine copyWindow_closed hP ?_ ?_
    | refine hP.put _ _ _ _ _ ?_ ?_

theorem takeSet_get {s : State} {n : Nat} {q : Nat} {fld0 : Fld} {i0 j0 : Nat} (hK : Foot.takeSet (notFld fld0) = true)  :
    (takeSet s n q).get fld0 i0 j0 = s.get fld0 i0 j0 :=
  takeSet_closed (P := fun x => x.get fld0 i0 j0 = s.get fld0 i0 j0) (field_closed fld0 i0 j0 _) hK  rfl

def Foot.unverifiedDuty (K : Part → Bool) : Bool := K (.fld .LS_PAIR_DUTY) && (K (.fld .dutyPair) && (Foot.takeSet K))

theorem unverifiedDuty_closed {K : Part → Bool} {P : State → Prop} {s : State} {k : Nat} (hP : Closed K P) (hK :
    Foot.unverifiedDuty K = true) (hs_s : P s) :
    P (unverifiedDuty s k) := by
  simp only [Foot.unverifiedDuty, Bool.and_eq_true] at hK
  obtain ⟨hK0, hK1, hK2⟩ := hK
  unfold unverifiedDuty
  with_reducible repeat' first
    | assumption
    | refine takeSet_closed hP ?_ ?_
    | refine hP.put _ _ _ _ _ ?_ ?_
    | (extract_lets +onlyGivenNames x; apply thenHave (p := P x); (unfold x; clear x); rotate_left 1; (intro hx; clear_value x))
    | (extract_lets +onlyGivenNames x; clear_value x)
    | refine ite_closed ?_ ?_
    | split

theorem unverifiedDuty_get {s : State} {k : Nat} {fld0 : Fld} {i0 j0 : Nat} (hK : Foot.unverifiedDuty (notFld fld0) = true) 
    : (unverifiedDuty s k).get fld0 i0 j0 = s.get fld0 i0 j0 :=
  unverifiedDuty_closed (P := fun x => x.get fld0 i0 j0 = s.get fld0 i0 j0) (field_closed fld0 i0 j0 _) hK  rfl

def Foot.unverifiedDuties (K : Part → Bool) : Bool := Foot.unverifiedDuty K

theorem unverifiedDuties_closed {K : Part → Bool} {P : State → Prop} {s : State} (hP : Closed K P) (hK :
    Foot.unverifiedDuties K = true) (hs_s : P s) :
    P (unverifiedDuties s) := by
  simp only [Foot.unverifiedDuties, Bool.and_eq_true] at hK
  unfold unverifiedDuties
  with_reducible repeat' first
    | assumption
    | refine unverifiedDuty_closed hP ?_ ?_
    | refine Closed.each ?_ _ ?_
    | intro _
    | (extract_lets +onlyGivenNames x; apply thenHave (p := P x); (unfold x; clear x); rotate_left 1; (intro hx; clear_value x))
    | (extract_lets +onlyGivenNames x; clear_value x)
    | (extract_lets +onlyGivenNames x)
    | refine ite_closed ?_ ?_
    | split

theorem unverifiedDuties_get {s : State} {fld0 : Fld} {i0 j0 : Nat} (hK : Foot.unverifiedDuties (notFld fld0) = true)  :
    (unverifiedDuties s).get fld0 i0 j0 = s.get fld0 i0 j0 :=
  unverifiedDuties_closed (P := fun x => x.get fld0 i0 j0 = s.get fld0 i0 j0) (field_closed fld0 i0 j0 _) hK  rfl

def Foot.releaseTicks (K : Part → Bool) : Bool := K (.fld .PW_TCCTL_RUN) && (Foot.releaseCore K)

theorem releaseTicks_closed {K : Part → Bool} {P : State → Prop} {s : State} (hP : Closed K P) (hK : Foot.releaseTicks K =
    true) (hs_s : P s) :
    P (releaseTicks s) := by
  simp only [Foot.releaseTicks, Bool.and_eq_true] at hK
  obtain ⟨hK0, hK1⟩ := hK
  unfold releaseTicks
  with_reducible repeat' first
    | assumption
    | refine releaseCore_closed hP ?_ ?_
    | refine hP.raise ?_ ?_
    | refine Closed.each ?_ _ ?_
    | intro _

theorem releaseTicks_get {s : State} {fld0 : Fld} {i0 j0 : Nat} (hK : Foot.releaseTicks (notFld fld0) = true)  :
    (releaseTicks s).get fld0 i0 j0 = s.get fld0 i0 j0 :=
  releaseTicks_closed (P := fun x => x.get fld0 i0 j0 = s.get fld0 i0 j0) (field_closed fld0 i0 j0 _) hK  rfl

def Foot.giveDuties (K : Part → Bool) : Bool := K (.fld .tkHold) && (K (.fld .dutyPair) && (K (.fld .PW_TCCTL_HELD) && (K
    (.fld .tkAt) && (Foot.takeSet K && (Foot.tickCoreReset K)))))

theorem giveDuties_closed {K : Part → Bool} {P : State → Prop} {s : State} {n : Nat} {q : Nat} (hP : Closed K P) (hK :
    Foot.giveDuties K = true) (hs_s : P s) :
    P (giveDuties s n q) := by
  simp only [Foot.giveDuties, Bool.and_eq_true] at hK
  obtain ⟨hK0, hK1, hK2, hK3, hK4, hK5⟩ := hK
  unfold giveDuties
  with_reducible repeat' first
    | assumption
    | refine takeSet_closed hP ?_ ?_
    | refine tickCoreReset_closed hP ?_ ?_
    | refine hP.put _ _ _ _ _ ?_ ?_
    | refine hP.raise ?_ ?_
    | (extract_lets +onlyGivenNames x; apply thenHave (p := P x); (unfold x; clear x); rotate_left 1; (intro hx; clear_value x))
    | (extract_lets +onlyGivenNames x; clear_value x)

theorem giveDuties_get {s : State} {n : Nat} {q : Nat} {fld0 : Fld} {i0 j0 : Nat} (hK : Foot.giveDuties (notFld fld0) = true)
     : (giveDuties s n q).get fld0 i0 j0 = s.get fld0 i0 j0 :=
  giveDuties_closed (P := fun x => x.get fld0 i0 j0 = s.get fld0 i0 j0) (field_closed fld0 i0 j0 _) hK  rfl

def Foot.takeover (K : Part → Bool) : Bool := K (.fld .LS_STATUS_TKFOR) && (K (.fld .LS_STATUS_TKOVER) && (K (.fld .dutyPair)
    && (Foot.timeoutGrants K && (Foot.giveDuties K && (Foot.clearActive K)))))

theorem takeover_closed {K : Part → Bool} {P : State → Prop} {s : State} {k : Nat} {n : Nat} {q : Option Nat} (hP : Closed K
    P) (hK : Foot.takeover K = true) (hs_s : P s) :
    P (takeover s k n q) := by
  simp only [Foot.takeover, Bool.and_eq_true] at hK
  obtain ⟨hK0, hK1, hK2, hK3, hK4, hK5⟩ := hK
  unfold takeover
  with_reducible repeat' first
    | assumption
    | refine timeoutGrants_closed hP ?_ ?_
    | refine giveDuties_closed hP ?_ ?_
    | refine clearActive_closed hP ?_ ?_
    | refine hP.put _ _ _ _ _ ?_ ?_
    | refine hP.raise ?_ ?_
    | refine Closed.each ?_ _ ?_
    | intro _
    | (extract_lets +onlyGivenNames x; apply thenHave (p := P x); (unfold x; clear x); rotate_left 1; (intro hx; clear_value x))
    | (extract_lets +onlyGivenNames x; clear_value x)
    | refine ite_closed ?_ ?_
    | split

theorem takeover_get {s : State} {k : Nat} {n : Nat} {q : Option Nat} {fld0 : Fld} {i0 j0 : Nat} (hK : Foot.takeover (notFld
    fld0) = true)  : (takeover s k n q).get fld0 i0 j0 = s.get fld0 i0 j0 :=
  takeover_closed (P := fun x => x.get fld0 i0 j0 = s.get fld0 i0 j0) (field_closed fld0 i0 j0 _) hK  rfl

def Foot.mismatchFreeze (K : Part → Bool) : Bool := K (.fld .LS_MM_V) && (K (.fld .LS_MM_GROUP) && (K (.fld .LS_PAIR_STATE)
    && (K (.fld .LS_MMT) && (K (.fld .LS_MM_COUNT) && (K (.fld .coreOn) && (K (.fld .lbistAt) && (K (.fld .PW_TCCTL_HELD) &&
    (Foot.hwPublish K && (Foot.resetRegs K && (Foot.takeover K && (Foot.tickCoreReset K)))))))))))

theorem mismatchFreeze_closed {K : Part → Bool} {P : State → Prop} {s : State} {k : Nat} {g : Nat} (hP : Closed K P) (hK :
    Foot.mismatchFreeze K = true) (hs_s : P s) :
    P (mismatchFreeze s k g) := by
  simp only [Foot.mismatchFreeze, Bool.and_eq_true] at hK
  obtain ⟨hK0, hK1, hK2, hK3, hK4, hK5, hK6, hK7, hK8, hK9, hK10, hK11⟩ := hK
  unfold mismatchFreeze
  with_reducible repeat' first
    | assumption
    | refine hwPublish_closed hP ?_ ?_
    | refine resetRegs_closed hP ?_ ?_
    | refine takeover_closed hP ?_ ?_
    | refine tickCoreReset_closed hP ?_ ?_
    | refine hP.put _ _ _ _ _ ?_ ?_
    | refine hP.clear ?_ ?_
    | refine hP.raise ?_ ?_
    | refine hP.bump ?_ ?_
    | (extract_lets +onlyGivenNames x; apply thenHave (p := P x); (unfold x; clear x); rotate_left 1; (intro hx; clear_value x))
    | (extract_lets +onlyGivenNames x; clear_value x)
    | refine ite_closed ?_ ?_
    | split

theorem mismatchFreeze_get {s : State} {k : Nat} {g : Nat} {fld0 : Fld} {i0 j0 : Nat} (hK : Foot.mismatchFreeze (notFld fld0)
    = true)  : (mismatchFreeze s k g).get fld0 i0 j0 = s.get fld0 i0 j0 :=
  mismatchFreeze_closed (P := fun x => x.get fld0 i0 j0 = s.get fld0 i0 j0) (field_closed fld0 i0 j0 _) hK  rfl

def Foot.debugHalt (K : Part → Bool) : Bool := K (.fld .coreDbg) && (K (.fld .LS_STATUS_DBGSPLIT) && (K (.fld
    .LS_PAIR_STATE)))

theorem debugHalt_closed {K : Part → Bool} {P : State → Prop} {s : State} {k : Nat} (hP : Closed K P) (hK : Foot.debugHalt K
    = true) (hs_s : P s) :
    P (debugHalt s k) := by
  simp only [Foot.debugHalt, Bool.and_eq_true] at hK
  obtain ⟨hK0, hK1, hK2⟩ := hK
  unfold debugHalt
  with_reducible repeat' first
    | assumption
    | refine hP.put _ _ _ _ _ ?_ ?_
    | refine hP.raise ?_ ?_
    | (extract_lets +onlyGivenNames x; apply thenHave (p := P x); (unfold x; clear x); rotate_left 1; (intro hx; clear_value x))
    | (extract_lets +onlyGivenNames x; clear_value x)
    | refine ite_closed ?_ ?_
    | split

theorem debugHalt_get {s : State} {k : Nat} {fld0 : Fld} {i0 j0 : Nat} (hK : Foot.debugHalt (notFld fld0) = true)  :
    (debugHalt s k).get fld0 i0 j0 = s.get fld0 i0 j0 :=
  debugHalt_closed (P := fun x => x.get fld0 i0 j0 = s.get fld0 i0 j0) (field_closed fld0 i0 j0 _) hK  rfl

def Foot.execDebugHalt (K : Part → Bool) : Bool := Foot.debugHalt K

theorem execDebugHalt_closed {K : Part → Bool} {P : State → Prop} {k : CoreId} {s : State} (hP : Closed K P) (hK :
    Foot.execDebugHalt K = true) (hs_s : P s) :
    OutAll P (execDebugHalt k s) := by
  simp only [Foot.execDebugHalt, Bool.and_eq_true] at hK
  unfold execDebugHalt
  with_reducible repeat' first
    | assumption
    | refine debugHalt_closed hP ?_ ?_
    | refine OutAll.mk ?_

def Foot.execDone (K : Part → Bool) : Bool := Foot.takeoverDone K

theorem execDone_closed {K : Part → Bool} {P : State → Prop} {k : CoreId} {s : State} (hP : Closed K P) (hK : Foot.execDone K
    = true) (hs_s : P s) :
    OutAll P (execDone k s) := by
  simp only [Foot.execDone, Bool.and_eq_true] at hK
  unfold execDone
  with_reducible repeat' first
    | assumption
    | refine takeoverDone_closed hP ?_ ?_
    | refine OutAll.mk ?_

def Foot.lbistDone (K : Part → Bool) : Bool := K (.fld .LS_PAIR_SURV) && (K (.fld .LS_PAIR_STATE) && (K (.fld .LS_PAIR_LBC)
    && (K (.fld .LS_PAIR_LBP) && (K (.fld .started) && (K (.fld .warmDue) && (K (.fld .PW_TCCTL_HELD) && (K (.fld
    .LS_PAIR_DUTY) && (Foot.mcReset K && (Foot.releaseCore K)))))))))

theorem lbistDone_closed {K : Part → Bool} {P : State → Prop} {s : State} {k : Nat} {p : Bool} {c : Bool} (hP : Closed K P)
    (hK : Foot.lbistDone K = true) (hs_s : P s) :
    P (lbistDone s k p c) := by
  simp only [Foot.lbistDone, Bool.and_eq_true] at hK
  obtain ⟨hK0, hK1, hK2, hK3, hK4, hK5, hK6, hK7, hK8, hK9⟩ := hK
  unfold lbistDone
  with_reducible repeat' first
    | assumption
    | refine mcReset_closed hP ?_ ?_
    | refine releaseCore_closed hP ?_ ?_
    | refine hP.put _ _ _ _ _ ?_ ?_
    | refine hP.clear ?_ ?_
    | (extract_lets +onlyGivenNames x; apply thenHave (p := P x); (unfold x; clear x); rotate_left 1; (intro hx; clear_value x))
    | (extract_lets +onlyGivenNames x; clear_value x)
    | refine ite_closed ?_ ?_
    | split

theorem lbistDone_get {s : State} {k : Nat} {p : Bool} {c : Bool} {fld0 : Fld} {i0 j0 : Nat} (hK : Foot.lbistDone (notFld
    fld0) = true)  : (lbistDone s k p c).get fld0 i0 j0 = s.get fld0 i0 j0 :=
  lbistDone_closed (P := fun x => x.get fld0 i0 j0 = s.get fld0 i0 j0) (field_closed fld0 i0 j0 _) hK  rfl

def Foot.execLbistDone (K : Part → Bool) : Bool := Foot.lbistDone K

theorem execLbistDone_closed {K : Part → Bool} {P : State → Prop} {k : CoreId} {primary : Bool} {checker : Bool} {s : State}
    (hP : Closed K P) (hK : Foot.execLbistDone K = true) (hs_s : P s) :
    OutAll P (execLbistDone k primary checker s) := by
  simp only [Foot.execLbistDone, Bool.and_eq_true] at hK
  unfold execLbistDone
  with_reducible repeat' first
    | assumption
    | refine lbistDone_closed hP ?_ ?_
    | refine OutAll.mk ?_

def Foot.execMismatchFreeze (K : Part → Bool) : Bool := Foot.mismatchFreeze K

theorem execMismatchFreeze_closed {K : Part → Bool} {P : State → Prop} {k : CoreId} {g : Fin 6} {s : State} (hP : Closed K P)
    (hK : Foot.execMismatchFreeze K = true) (hs_s : P s) :
    OutAll P (execMismatchFreeze k g s) := by
  simp only [Foot.execMismatchFreeze, Bool.and_eq_true] at hK
  unfold execMismatchFreeze
  with_reducible repeat' first
    | assumption
    | refine mismatchFreeze_closed hP ?_ ?_
    | refine OutAll.mk ?_

def Foot.takeoverRelease (K : Part → Bool) : Bool := K (.fld .PW_TCCTL_HELD) && (K (.fld .tkHold) && (K (.fld .LS_PAIR_DUTY)
    && (Foot.releaseCore K)))

theorem takeoverRelease_closed {K : Part → Bool} {P : State → Prop} {s : State} {q : Nat} (hP : Closed K P) (hK :
    Foot.takeoverRelease K = true) (hs_s : P s) :
    P (takeoverRelease s q) := by
  simp only [Foot.takeoverRelease, Bool.and_eq_true] at hK
  obtain ⟨hK0, hK1, hK2, hK3⟩ := hK
  unfold takeoverRelease
  with_reducible repeat' first
    | assumption
    | refine releaseCore_closed hP ?_ ?_
    | refine hP.put _ _ _ _ _ ?_ ?_
    | refine hP.clear ?_ ?_
    | (extract_lets +onlyGivenNames x; apply thenHave (p := P x); (unfold x; clear x); rotate_left 1; (intro hx; clear_value x))
    | (extract_lets +onlyGivenNames x; clear_value x)
    | refine ite_closed ?_ ?_
    | split

theorem takeoverRelease_get {s : State} {q : Nat} {fld0 : Fld} {i0 j0 : Nat} (hK : Foot.takeoverRelease (notFld fld0) = true)
     : (takeoverRelease s q).get fld0 i0 j0 = s.get fld0 i0 j0 :=
  takeoverRelease_closed (P := fun x => x.get fld0 i0 j0 = s.get fld0 i0 j0) (field_closed fld0 i0 j0 _) hK  rfl

def Foot.execTakeoverRelease (K : Part → Bool) : Bool := Foot.takeoverRelease K

theorem execTakeoverRelease_closed {K : Part → Bool} {P : State → Prop} {k : CoreId} {s : State} (hP : Closed K P) (hK :
    Foot.execTakeoverRelease K = true) (hs_s : P s) :
    OutAll P (execTakeoverRelease k s) := by
  simp only [Foot.execTakeoverRelease, Bool.and_eq_true] at hK
  unfold execTakeoverRelease
  with_reducible repeat' first
    | assumption
    | refine takeoverRelease_closed hP ?_ ?_
    | refine OutAll.mk ?_

end Sys2Proof.Machine
end

