-- ==== Sys2Proof/Laws/ClosedScrub.lean ====
section
/-! SUPPORT. What the functions of Machine/Scrub.lean can write, and that they keep every closed property (Laws/Closed.lean). -/
namespace Sys2Proof.Machine

set_option Elab.async false
set_option linter.all false

def Foot.scrubGo (K : Part → Bool) : Bool := K (.fld .MS_SCRUBCTL_ERR) && (K (.fld .MS_SCRUBCTL_BUSY))

theorem scrubGo_closed {K : Part → Bool} {P : State → Prop} {s : State} (hP : Closed K P) (hK : Foot.scrubGo K = true) (hs_s
    : P s) :
    P (scrubGo s) := by
  simp only [Foot.scrubGo, Bool.and_eq_true] at hK
  obtain ⟨hK0, hK1⟩ := hK
  unfold scrubGo
  with_reducible repeat' first
    | assumption
    | refine hP.raise ?_ ?_
    | (extract_lets +onlyGivenNames x; apply thenHave (p := P x); (unfold x; clear x); rotate_left 1; (intro hx; clear_value x))
    | (extract_lets +onlyGivenNames x; clear_value x)
    | refine ite_closed ?_ ?_
    | split

theorem scrubGo_get {s : State} {fld0 : Fld} {i0 j0 : Nat} (hK : Foot.scrubGo (notFld fld0) = true)  : (scrubGo s).get fld0
    i0 j0 = s.get fld0 i0 j0 :=
  scrubGo_closed (P := fun x => x.get fld0 i0 j0 = s.get fld0 i0 j0) (field_closed fld0 i0 j0 _) hK  rfl

def Foot.startUnit (K : Part → Bool) : Bool := K (.fld .MS_SCRUBADDR) && (K (.fld .MS_SCRUBCTL_MEM) && (Foot.scrubGo K))

theorem startUnit_closed {K : Part → Bool} {P : State → Prop} {s : State} {m : Nat} {a : Nat} (hP : Closed K P) (hK :
    Foot.startUnit K = true) (hs_s : P s) :
    P (startUnit s m a) := by
  simp only [Foot.startUnit, Bool.and_eq_true] at hK
  obtain ⟨hK0, hK1, hK2⟩ := hK
  unfold startUnit
  with_reducible repeat' first
    | assumption
    | refine scrubGo_closed hP ?_ ?_
    | refine hP.put _ _ _ _ _ ?_ ?_

theorem startUnit_get {s : State} {m : Nat} {a : Nat} {fld0 : Fld} {i0 j0 : Nat} (hK : Foot.startUnit (notFld fld0) = true) 
    : (startUnit s m a).get fld0 i0 j0 = s.get fld0 i0 j0 :=
  startUnit_closed (P := fun x => x.get fld0 i0 j0 = s.get fld0 i0 j0) (field_closed fld0 i0 j0 _) hK  rfl

def Foot.scrubNext (K : Part → Bool) : Bool := K (.fld .scrubU) && (K (.fld .scrubLeftU) && (K (.fld .scrubW) && (K (.fld
    .scrubLeftW) && (K (.fld .scrubP) && (K (.fld .scrubLeftP) && (Foot.startUnit K))))))

theorem scrubNext_closed {K : Part → Bool} {P : State → Prop} {s : State} (hP : Closed K P) (hK : Foot.scrubNext K = true)
    (hs_s : P s) :
    P (scrubNext s) := by
  simp only [Foot.scrubNext, Bool.and_eq_true] at hK
  obtain ⟨hK0, hK1, hK2, hK3, hK4, hK5, hK6⟩ := hK
  unfold scrubNext
  with_reducible repeat' first
    | assumption
    | refine startUnit_closed hP ?_ ?_
    | refine hP.put _ _ _ _ _ ?_ ?_
    | (extract_lets +onlyGivenNames x; apply thenHave (p := P x); (unfold x; clear x); rotate_left 1; (intro hx; clear_value x))
    | (extract_lets +onlyGivenNames x; clear_value x)
    | refine ite_closed ?_ ?_
    | split

theorem scrubNext_get {s : State} {fld0 : Fld} {i0 j0 : Nat} (hK : Foot.scrubNext (notFld fld0) = true)  : (scrubNext s).get
    fld0 i0 j0 = s.get fld0 i0 j0 :=
  scrubNext_closed (P := fun x => x.get fld0 i0 j0 = s.get fld0 i0 j0) (field_closed fld0 i0 j0 _) hK  rfl

def Foot.scrubDone (K : Part → Bool) : Bool := K (.fld .ceMore) && (K (.fld .ceSeen) && (K .soft && (K .softUc && (K (.fld
    .MS_CE) && (K (.fld .memBad) && (K (.fld .UC_ECC) && (K (.fld .MS_SCRUBRES_UE) && (K (.fld .MS_SCRUBRES_CE) && (K (.fld
    .MS_SCRUBCTL_DONE) && (K (.fld .MS_SCRUBCTL_BUSY) && (Foot.countUE K && (Foot.trackCE K && (Foot.errorRetire K &&
    (Foot.microwordError K))))))))))))))

theorem scrubDone_closed {K : Part → Bool} {P : State → Prop} {s : State} {ce : Nat} {bad : List Nat} (hP : Closed K P) (hK :
    Foot.scrubDone K = true) (hs_s : P s) :
    P (scrubDone s ce bad) := by
  simp only [Foot.scrubDone, Bool.and_eq_true] at hK
  obtain ⟨hK0, hK1, hK2, hK3, hK4, hK5, hK6, hK7, hK8, hK9, hK10, hK11, hK12, hK13, hK14⟩ := hK
  unfold scrubDone
  with_reducible repeat' first
    | assumption
    | refine countUE_closed hP ?_ ?_
    | refine trackCE_closed hP ?_ ?_
    | refine errorRetire_closed hP ?_ ?_
    | refine microwordError_closed hP ?_ ?_
    | refine hP.put _ _ _ _ _ ?_ ?_
    | refine hP.clear ?_ ?_
    | refine hP.raise ?_ ?_
    | refine hP.bump ?_ ?_
    | refine Closed.each ?_ _ ?_
    | refine Closed.when ?_ ?_
    | intro _
    | (extract_lets +onlyGivenNames x; apply thenHave (p := P x); (unfold x; clear x); rotate_left 1; (intro hx; clear_value x))
    | (extract_lets +onlyGivenNames x; clear_value x)
    | refine hP.remake _ _ _ _ _ _ _ _ _ _ _ _ _ _ _ _ _ _ _ _ _ _ _ (hs := ?_); first | assumption | (with_reducible refine countUE_closed hP ?_ ?_) | (with_reducible refine trackCE_closed hP ?_ ?_) | (with_reducible refine errorRetire_closed hP ?_ ?_) | (with_reducible refine microwordError_closed hP ?_ ?_) | (with_reducible refine hP.put _ _ _ _ _ ?_ ?_) | (with_reducible refine hP.clear ?_ ?_) | (with_reducible refine hP.raise ?_ ?_) | (with_reducible refine hP.bump ?_ ?_) | (with_reducible refine hP.setBits ?_ ?_) | (with_reducible refine hP.clrBits ?_ ?_) | (with_reducible refine Closed.each ?_ _ ?_) | (with_reducible refine Closed.when ?_ ?_)
    | refine ite_closed ?_ ?_
    | split

theorem scrubDone_get {s : State} {ce : Nat} {bad : List Nat} {fld0 : Fld} {i0 j0 : Nat} (hK : Foot.scrubDone (notFld fld0) =
    true)  : (scrubDone s ce bad).get fld0 i0 j0 = s.get fld0 i0 j0 :=
  scrubDone_closed (P := fun x => x.get fld0 i0 j0 = s.get fld0 i0 j0) (field_closed fld0 i0 j0 _) hK  rfl

def Foot.execScrubDone (K : Part → Bool) : Bool := Foot.scrubNext K && (Foot.scrubDone K)

theorem execScrubDone_closed {K : Part → Bool} {P : State → Prop} {ce : Nat} {bad : List Nat} {s : State} (hP : Closed K P)
    (hK : Foot.execScrubDone K = true) (hs_s : P s) :
    OutAll P (execScrubDone ce bad s) := by
  simp only [Foot.execScrubDone, Bool.and_eq_true] at hK
  obtain ⟨hK0, hK1⟩ := hK
  unfold execScrubDone
  with_reducible repeat' first
    | assumption
    | refine scrubNext_closed hP ?_ ?_
    | refine scrubDone_closed hP ?_ ?_
    | refine OutAll.mk ?_

def Foot.execScrubGo (K : Part → Bool) : Bool := Foot.scrubGo K

theorem execScrubGo_closed {K : Part → Bool} {P : State → Prop} {s : State} (hP : Closed K P) (hK : Foot.execScrubGo K =
    true) (hs_s : P s) :
    OutAll P (execScrubGo s) := by
  simp only [Foot.execScrubGo, Bool.and_eq_true] at hK
  unfold execScrubGo
  with_reducible repeat' first
    | assumption
    | refine scrubGo_closed hP ?_ ?_
    | refine OutAll.mk ?_

end Sys2Proof.Machine
end

