-- ==== Sys2Proof/Laws/ClosedPower.lean ====
section
/-! SUPPORT. What the functions of Machine/Power.lean can write, and that they keep every closed property (Laws/Closed.lean). -/
namespace Sys2Proof.Machine

set_option Elab.async false
set_option linter.all false

def Foot.sleepRequest (K : Part → Bool) : Bool := K (.fld .PW_STATE_REQERR) && (K (.fld .PW_CTRL_SLEEP))

theorem sleepRequest_closed {K : Part → Bool} {P : State → Prop} {s : State} {m : Nat} (hP : Closed K P) (hK :
    Foot.sleepRequest K = true) (hs_s : P s) :
    P (sleepRequest s m) := by
  simp only [Foot.sleepRequest, Bool.and_eq_true] at hK
  obtain ⟨hK0, hK1⟩ := hK
  unfold sleepRequest
  with_reducible repeat' first
    | assumption
    | refine hP.put _ _ _ _ _ ?_ ?_
    | refine hP.raise ?_ ?_
    | refine ite_closed ?_ ?_
    | split

theorem sleepRequest_get {s : State} {m : Nat} {fld0 : Fld} {i0 j0 : Nat} (hK : Foot.sleepRequest (notFld fld0) = true)  :
    (sleepRequest s m).get fld0 i0 j0 = s.get fld0 i0 j0 :=
  sleepRequest_closed (P := fun x => x.get fld0 i0 j0 = s.get fld0 i0 j0) (field_closed fld0 i0 j0 _) hK  rfl

def Foot.watchdogKick (K : Part → Bool) : Bool := Foot.wdRestart K

theorem watchdogKick_closed {K : Part → Bool} {P : State → Prop} {s : State} {v : Int} (hP : Closed K P) (hK :
    Foot.watchdogKick K = true) (hs_s : P s) :
    P (watchdogKick s v) := by
  simp only [Foot.watchdogKick, Bool.and_eq_true] at hK
  unfold watchdogKick
  with_reducible repeat' first
    | assumption
    | refine wdRestart_closed hP ?_ ?_
    | refine ite_closed ?_ ?_
    | split

theorem watchdogKick_get {s : State} {v : Int} {fld0 : Fld} {i0 j0 : Nat} (hK : Foot.watchdogKick (notFld fld0) = true)  :
    (watchdogKick s v).get fld0 i0 j0 = s.get fld0 i0 j0 :=
  watchdogKick_closed (P := fun x => x.get fld0 i0 j0 = s.get fld0 i0 j0) (field_closed fld0 i0 j0 _) hK  rfl

def Foot.tickCoreRun (K : Part → Bool) : Bool := K (.fld .PW_TCCTL_RUN) && (Foot.tickCoreReset K && (Foot.releaseCore K))

theorem tickCoreRun_closed {K : Part → Bool} {P : State → Prop} {s : State} {k : Nat} {run : Bool} (hP : Closed K P) (hK :
    Foot.tickCoreRun K = true) (hs_s : P s) :
    P (tickCoreRun s k run) := by
  simp only [Foot.tickCoreRun, Bool.and_eq_true] at hK
  obtain ⟨hK0, hK1, hK2⟩ := hK
  unfold tickCoreRun
  with_reducible repeat' first
    | assumption
    | refine tickCoreReset_closed hP ?_ ?_
    | refine releaseCore_closed hP ?_ ?_
    | refine hP.put _ _ _ _ _ ?_ ?_
    | (extract_lets +onlyGivenNames x; apply thenHave (p := P x); (unfold x; clear x); rotate_left 1; (intro hx; clear_value x))
    | (extract_lets +onlyGivenNames x; clear_value x)
    | refine ite_closed ?_ ?_
    | split

theorem tickCoreRun_get {s : State} {k : Nat} {run : Bool} {fld0 : Fld} {i0 j0 : Nat} (hK : Foot.tickCoreRun (notFld fld0) =
    true)  : (tickCoreRun s k run).get fld0 i0 j0 = s.get fld0 i0 j0 :=
  tickCoreRun_closed (P := fun x => x.get fld0 i0 j0 = s.get fld0 i0 j0) (field_closed fld0 i0 j0 _) hK  rfl

def Foot.clockFailure (K : Part → Bool) : Bool := Foot.coldReset K

theorem clockFailure_closed {K : Part → Bool} {P : State → Prop} {s : State} (hP : Closed K P) (hK : Foot.clockFailure K =
    true) (hs_s : P s) :
    P (clockFailure s) := by
  simp only [Foot.clockFailure, Bool.and_eq_true] at hK
  unfold clockFailure
  with_reducible repeat' first
    | assumption
    | refine coldReset_closed hP ?_ ?_
    | refine ite_closed ?_ ?_
    | split

theorem clockFailure_get {s : State} {fld0 : Fld} {i0 j0 : Nat} (hK : Foot.clockFailure (notFld fld0) = true)  :
    (clockFailure s).get fld0 i0 j0 = s.get fld0 i0 j0 :=
  clockFailure_closed (P := fun x => x.get fld0 i0 j0 = s.get fld0 i0 j0) (field_closed fld0 i0 j0 _) hK  rfl

def Foot.watchdogTick (K : Part → Bool) : Bool := K (.fld .wdLeft)

theorem watchdogTick_closed {K : Part → Bool} {P : State → Prop} {s : State} (hP : Closed K P) (hK : Foot.watchdogTick K =
    true) (hs_s : P s) :
    P (watchdogTick s) := by
  simp only [Foot.watchdogTick, Bool.and_eq_true] at hK
  unfold watchdogTick
  with_reducible repeat' first
    | assumption
    | refine hP.put _ _ _ _ _ ?_ ?_
    | refine ite_closed ?_ ?_
    | split

theorem watchdogTick_get {s : State} {fld0 : Fld} {i0 j0 : Nat} (hK : Foot.watchdogTick (notFld fld0) = true)  :
    (watchdogTick s).get fld0 i0 j0 = s.get fld0 i0 j0 :=
  watchdogTick_closed (P := fun x => x.get fld0 i0 j0 = s.get fld0 i0 j0) (field_closed fld0 i0 j0 _) hK  rfl

def Foot.ddrPllUnlock (K : Part → Bool) : Bool := K (.fld .D4_STATUS_RDY) && (K (.fld .PW_CLK_DPLOCK) && (Foot.trainingDone
    K))

theorem ddrPllUnlock_closed {K : Part → Bool} {P : State → Prop} {s : State} (hP : Closed K P) (hK : Foot.ddrPllUnlock K =
    true) (hs_s : P s) :
    P (ddrPllUnlock s) := by
  simp only [Foot.ddrPllUnlock, Bool.and_eq_true] at hK
  obtain ⟨hK0, hK1, hK2⟩ := hK
  unfold ddrPllUnlock
  with_reducible repeat' first
    | assumption
    | refine trainingDone_closed hP ?_ ?_
    | refine hP.clear ?_ ?_

theorem ddrPllUnlock_get {s : State} {fld0 : Fld} {i0 j0 : Nat} (hK : Foot.ddrPllUnlock (notFld fld0) = true)  :
    (ddrPllUnlock s).get fld0 i0 j0 = s.get fld0 i0 j0 :=
  ddrPllUnlock_closed (P := fun x => x.get fld0 i0 j0 = s.get fld0 i0 j0) (field_closed fld0 i0 j0 _) hK  rfl

def Foot.deepEntry (K : Part → Bool) : Bool := K (.fld .srefKept) && (K (.fld .sleepMode) && (K (.fld .PW_STATE_LAST) && (K
    (.fld .supen) && ((allFld fun f => (keptAsleep f && f != .memBad) || K (.fld f)) && (K .mem && (K .writes && (K .bounds
    && (K .commits && (K .txFlits && (K .stores && (K .traps && (K .recQueue && (K .hgQueue && (K .hgTaken && (K .hgCpl && (K
    .avsHeld && (K .hostOut && (K .logQueue && (K .soft && (K .softUc && (K .ceTrack && (K .drRoom && (K .arrivals &&
    (Foot.weirBoundary K && (K (.fld .WP_STATUS_RDY))))))))))))))))))))))))))

theorem deepEntry_closed {K : Part → Bool} {P : State → Prop} {s : State} (hP : Closed K P) (hK : Foot.deepEntry K = true)
    (hs_s : P s) :
    P (deepEntry s) := by
  simp only [Foot.deepEntry, Bool.and_eq_true] at hK
  obtain ⟨hK0, hK1, hK2, hK3, hK4, hK5, hK6, hK7, hK8, hK9, hK10, hK11, hK12, hK13, hK14, hK15, hK16, hK17, hK18, hK19, hK20, hK21, hK22,
    hK23, hK24, hK25⟩ := hK
  unfold deepEntry
  have hs : P (((s.put .sleepMode 2).each (List.range 184) weirBoundary).clear .WP_STATUS_RDY) :=
    hP.clear hK25 (Closed.each (fun _ _ h => weirBoundary_closed hP hK24 h) _ (hP.put _ _ _ _ _ hK1 hs_s))
  revert hs
  generalize ((s.put .sleepMode 2).each (List.range 184) weirBoundary).clear .WP_STATUS_RDY = s
  intro hs_s
  refine hP.put _ _ _ _ _ hK3 (hP.put _ _ _ _ _ hK2 (hP.put _ _ _ _ _ hK1 (hP.put _ _ _ _ _ hK0 ?_)))
  refine hP.rest ({ s with rf := s.rf.filter fun e => keptAsleep e.1.fld && !(e.1.fld == Fld.memBad && e.1.i < 0x80000000),
                           mem := s.mem.filter fun c => decide (c.1 ≥ 0x100000000) }) _ rfl rfl rfl rfl
    ⟨.inl hK6, .inl hK23, .inl hK7, .inr rfl, .inl hK8, .inl hK9, .inl hK10, .inl hK11, .inl hK12, .inl hK13, .inl hK14, .inl hK15,
      .inl hK16, .inl hK17, .inr rfl, .inr rfl, .inr rfl, .inl hK18, .inl hK19, .inl hK20, .inl hK21, .inl hK22, .inr rfl⟩ ?_
  refine hP.memDrop { s with rf := s.rf.filter fun e => keptAsleep e.1.fld && !(e.1.fld == Fld.memBad && e.1.i < 0x80000000) } _ hK5 ?_
  refine hP.drop s (fun k => keptAsleep k.fld && !(k.fld == Fld.memBad && k.i < 0x80000000))
    (fun k hk => allFld_keep (q := fun f => keptAsleep f && f != .memBad) hK4 ?_) hs_s
  revert hk
  cases keptAsleep k.fld <;> by_cases h : k.fld = .memBad <;> simp [h]

theorem deepEntry_get {s : State} {fld0 : Fld} {i0 j0 : Nat} (hK : Foot.deepEntry (notFld fld0) = true)  : (deepEntry s).get
    fld0 i0 j0 = s.get fld0 i0 j0 :=
  deepEntry_closed (P := fun x => x.get fld0 i0 j0 = s.get fld0 i0 j0) (field_closed fld0 i0 j0 _) hK  rfl

def Foot.execClockFailure (K : Part → Bool) : Bool := Foot.clockFailure K

theorem execClockFailure_closed {K : Part → Bool} {P : State → Prop} {s : State} (hP : Closed K P) (hK :
    Foot.execClockFailure K = true) (hs_s : P s) :
    OutAll P (execClockFailure s) := by
  simp only [Foot.execClockFailure, Bool.and_eq_true] at hK
  unfold execClockFailure
  with_reducible repeat' first
    | assumption
    | refine clockFailure_closed hP ?_ ?_
    | refine OutAll.mk ?_

def Foot.execDdrPllUnlock (K : Part → Bool) : Bool := Foot.ddrPllUnlock K

theorem execDdrPllUnlock_closed {K : Part → Bool} {P : State → Prop} {s : State} (hP : Closed K P) (hK :
    Foot.execDdrPllUnlock K = true) (hs_s : P s) :
    OutAll P (execDdrPllUnlock s) := by
  simp only [Foot.execDdrPllUnlock, Bool.and_eq_true] at hK
  unfold execDdrPllUnlock
  with_reducible repeat' first
    | assumption
    | refine ddrPllUnlock_closed hP ?_ ?_
    | refine OutAll.mk ?_

def Foot.lanePllUnlock (K : Part → Bool) : Bool := K (.fld .PW_CLK_LPLOCK) && (Foot.blockLockLost K)

theorem lanePllUnlock_closed {K : Part → Bool} {P : State → Prop} {s : State} {j : Nat} (hP : Closed K P) (hK :
    Foot.lanePllUnlock K = true) (hs_s : P s) :
    P (lanePllUnlock s j) := by
  simp only [Foot.lanePllUnlock, Bool.and_eq_true] at hK
  obtain ⟨hK0, hK1⟩ := hK
  unfold lanePllUnlock
  with_reducible repeat' first
    | assumption
    | refine blockLockLost_closed hP ?_ ?_
    | refine hP.clrBits ?_ ?_

theorem lanePllUnlock_get {s : State} {j : Nat} {fld0 : Fld} {i0 j0 : Nat} (hK : Foot.lanePllUnlock (notFld fld0) = true)  :
    (lanePllUnlock s j).get fld0 i0 j0 = s.get fld0 i0 j0 :=
  lanePllUnlock_closed (P := fun x => x.get fld0 i0 j0 = s.get fld0 i0 j0) (field_closed fld0 i0 j0 _) hK  rfl

def Foot.execLanePllUnlock (K : Part → Bool) : Bool := Foot.lanePllUnlock K

theorem execLanePllUnlock_closed {K : Part → Bool} {P : State → Prop} {j : Fin 4} {s : State} (hP : Closed K P) (hK :
    Foot.execLanePllUnlock K = true) (hs_s : P s) :
    OutAll P (execLanePllUnlock j s) := by
  simp only [Foot.execLanePllUnlock, Bool.and_eq_true] at hK
  unfold execLanePllUnlock
  with_reducible repeat' first
    | assumption
    | refine lanePllUnlock_closed hP ?_ ?_
    | refine OutAll.mk ?_

def Foot.execMcrst (K : Part → Bool) : Bool := Foot.mcReset K

theorem execMcrst_closed {K : Part → Bool} {P : State → Prop} {s : State} (hP : Closed K P) (hK : Foot.execMcrst K = true)
    (hs_s : P s) :
    OutAll P (execMcrst s) := by
  simp only [Foot.execMcrst, Bool.and_eq_true] at hK
  unfold execMcrst
  with_reducible repeat' first
    | assumption
    | refine mcReset_closed hP ?_ ?_
    | refine OutAll.mk ?_

def Foot.pllLock (K : Part → Bool) : Bool := K (.fld .PW_CLK_MPLOCK) && (K (.fld .PW_CLK_DPLOCK) && (K (.fld .PW_CLK_LPLOCK)))

theorem pllLock_closed {K : Part → Bool} {P : State → Prop} {s : State} {p : Nat} (hP : Closed K P) (hK : Foot.pllLock K =
    true) (hs_s : P s) :
    P (pllLock s p) := by
  simp only [Foot.pllLock, Bool.and_eq_true] at hK
  obtain ⟨hK0, hK1, hK2⟩ := hK
  unfold pllLock
  with_reducible repeat' first
    | assumption
    | refine hP.raise ?_ ?_
    | refine hP.setBits ?_ ?_
    | refine ite_closed ?_ ?_
    | split

theorem pllLock_get {s : State} {p : Nat} {fld0 : Fld} {i0 j0 : Nat} (hK : Foot.pllLock (notFld fld0) = true)  : (pllLock s
    p).get fld0 i0 j0 = s.get fld0 i0 j0 :=
  pllLock_closed (P := fun x => x.get fld0 i0 j0 = s.get fld0 i0 j0) (field_closed fld0 i0 j0 _) hK  rfl

def Foot.execPllLock (K : Part → Bool) : Bool := Foot.pllLock K

theorem execPllLock_closed {K : Part → Bool} {P : State → Prop} {p : Fin 6} {s : State} (hP : Closed K P) (hK :
    Foot.execPllLock K = true) (hs_s : P s) :
    OutAll P (execPllLock p s) := by
  simp only [Foot.execPllLock, Bool.and_eq_true] at hK
  unfold execPllLock
  with_reducible repeat' first
    | assumption
    | refine pllLock_closed hP ?_ ?_
    | refine OutAll.mk ?_

def Foot.execPorst (K : Part → Bool) : Bool := Foot.coldReset K

theorem execPorst_closed {K : Part → Bool} {P : State → Prop} {s : State} (hP : Closed K P) (hK : Foot.execPorst K = true)
    (hs_s : P s) :
    OutAll P (execPorst s) := by
  simp only [Foot.execPorst, Bool.and_eq_true] at hK
  unfold execPorst
  with_reducible repeat' first
    | assumption
    | refine coldReset_closed hP ?_ ?_
    | refine OutAll.mk ?_

def Foot.sleepUndo (K : Part → Bool) : Bool := K (.fld .evLatch) && (K (.fld .PW_STATE_ABORT) && (K (.fld .PW_CTRL_SLEEP) &&
    (K (.fld .irWakeReq) && (K (.fld .wakeReq) && (K (.fld .evWakeReq))))))

theorem sleepUndo_closed {K : Part → Bool} {P : State → Prop} {s : State} (hP : Closed K P) (hK : Foot.sleepUndo K = true)
    (hs_s : P s) :
    P (sleepUndo s) := by
  simp only [Foot.sleepUndo, Bool.and_eq_true] at hK
  obtain ⟨hK0, hK1, hK2, hK3, hK4, hK5⟩ := hK
  unfold sleepUndo
  with_reducible repeat' first
    | assumption
    | refine hP.put _ _ _ _ _ ?_ ?_
    | refine hP.clear ?_ ?_
    | refine hP.raise ?_ ?_
    | (extract_lets +onlyGivenNames x; apply thenHave (p := P x); (unfold x; clear x); rotate_left 1; (intro hx; clear_value x))
    | (extract_lets +onlyGivenNames x; clear_value x)

theorem sleepUndo_get {s : State} {fld0 : Fld} {i0 j0 : Nat} (hK : Foot.sleepUndo (notFld fld0) = true)  : (sleepUndo s).get
    fld0 i0 j0 = s.get fld0 i0 j0 :=
  sleepUndo_closed (P := fun x => x.get fld0 i0 j0 = s.get fld0 i0 j0) (field_closed fld0 i0 j0 _) hK  rfl

def Foot.standbyEntry (K : Part → Bool) : Bool := K (.fld .D4_STATUS_SREF) && (K (.fld .lossReq) && (K (.fld .lkLock) && (K
    (.fld .DL_STATE_STATE) && (K (.fld .FL_STATUS_RDY) && (K (.fld .flumeOn) && (K (.fld .PW_STATE_LAST) && (K (.fld
    .sleepMode) && (Foot.recordWrite K && (Foot.retireCopiesDone K && (Foot.scrubDone K && (Foot.dropLane K && (Foot.dropStep
    K))))))))))))

theorem standbyEntry_closed {K : Part → Bool} {P : State → Prop} {s : State} (hP : Closed K P) (hK : Foot.standbyEntry K =
    true) (hs_s : P s) :
    P (standbyEntry s) := by
  simp only [Foot.standbyEntry, Bool.and_eq_true] at hK
  obtain ⟨hK0, hK1, hK2, hK3, hK4, hK5, hK6, hK7, hK8, hK9, hK10, hK11, hK12⟩ := hK
  unfold standbyEntry
  with_reducible repeat' first
    | assumption
    | refine recordWrite_closed hP ?_ ?_
    | refine retireCopiesDone_closed hP ?_ ?_
    | refine scrubDone_closed hP ?_ ?_
    | refine dropLane_closed hP ?_ ?_
    | refine dropStep_closed hP ?_ ?_
    | refine hP.put _ _ _ _ _ ?_ ?_
    | refine hP.clear ?_ ?_
    | refine hP.raise ?_ ?_
    | refine Closed.each ?_ _ ?_
    | refine Closed.when ?_ ?_
    | intro _
    | (extract_lets +onlyGivenNames x; apply thenHave (p := P x); (unfold x; clear x); rotate_left 1; (intro hx; clear_value x))
    | (extract_lets +onlyGivenNames x; clear_value x)
    | refine ite_closed ?_ ?_
    | split

theorem standbyEntry_get {s : State} {fld0 : Fld} {i0 j0 : Nat} (hK : Foot.standbyEntry (notFld fld0) = true)  :
    (standbyEntry s).get fld0 i0 j0 = s.get fld0 i0 j0 :=
  standbyEntry_closed (P := fun x => x.get fld0 i0 j0 = s.get fld0 i0 j0) (field_closed fld0 i0 j0 _) hK  rfl

def Foot.sleepEntry (K : Part → Bool) : Bool := Foot.sleepUndo K && (Foot.deepEntry K && (Foot.standbyEntry K))

theorem sleepEntry_closed {K : Part → Bool} {P : State → Prop} {s : State} (hP : Closed K P) (hK : Foot.sleepEntry K = true)
    (hs_s : P s) :
    P (sleepEntry s) := by
  simp only [Foot.sleepEntry, Bool.and_eq_true] at hK
  obtain ⟨hK0, hK1, hK2⟩ := hK
  unfold sleepEntry
  with_reducible repeat' first
    | assumption
    | refine sleepUndo_closed hP ?_ ?_
    | refine deepEntry_closed hP ?_ ?_
    | refine standbyEntry_closed hP ?_ ?_
    | refine ite_closed ?_ ?_
    | split

theorem sleepEntry_get {s : State} {fld0 : Fld} {i0 j0 : Nat} (hK : Foot.sleepEntry (notFld fld0) = true)  : (sleepEntry
    s).get fld0 i0 j0 = s.get fld0 i0 j0 :=
  sleepEntry_closed (P := fun x => x.get fld0 i0 j0 = s.get fld0 i0 j0) (field_closed fld0 i0 j0 _) hK  rfl

def Foot.execSleepEntry (K : Part → Bool) : Bool := Foot.sleepEntry K

theorem execSleepEntry_closed {K : Part → Bool} {P : State → Prop} {s : State} (hP : Closed K P) (hK : Foot.execSleepEntry K
    = true) (hs_s : P s) :
    OutAll P (execSleepEntry s) := by
  simp only [Foot.execSleepEntry, Bool.and_eq_true] at hK
  unfold execSleepEntry
  with_reducible repeat' first
    | assumption
    | refine sleepEntry_closed hP ?_ ?_
    | refine OutAll.mk ?_

def Foot.execSleepRequest (K : Part → Bool) : Bool := Foot.sleepRequest K

theorem execSleepRequest_closed {K : Part → Bool} {P : State → Prop} {m : Fin 4} {s : State} (hP : Closed K P) (hK :
    Foot.execSleepRequest K = true) (hs_s : P s) :
    OutAll P (execSleepRequest m s) := by
  simp only [Foot.execSleepRequest, Bool.and_eq_true] at hK
  unfold execSleepRequest
  with_reducible repeat' first
    | assumption
    | refine sleepRequest_closed hP ?_ ?_
    | refine OutAll.mk ?_

def Foot.supplyReset (K : Part → Bool) : Bool := Foot.coldReset K

theorem supplyReset_closed {K : Part → Bool} {P : State → Prop} {s : State} {i : Nat} (hP : Closed K P) (hK :
    Foot.supplyReset K = true) (hs_s : P s) :
    P (supplyReset s i) := by
  simp only [Foot.supplyReset, Bool.and_eq_true] at hK
  unfold supplyReset
  with_reducible repeat' first
    | assumption
    | refine coldReset_closed hP ?_ ?_
    | refine ite_closed ?_ ?_
    | split

theorem supplyReset_get {s : State} {i : Nat} {fld0 : Fld} {i0 j0 : Nat} (hK : Foot.supplyReset (notFld fld0) = true)  :
    (supplyReset s i).get fld0 i0 j0 = s.get fld0 i0 j0 :=
  supplyReset_closed (P := fun x => x.get fld0 i0 j0 = s.get fld0 i0 j0) (field_closed fld0 i0 j0 _) hK  rfl

def Foot.execSupplyReset (K : Part → Bool) : Bool := Foot.supplyReset K

theorem execSupplyReset_closed {K : Part → Bool} {P : State → Prop} {i : Fin 8} {s : State} (hP : Closed K P) (hK :
    Foot.execSupplyReset K = true) (hs_s : P s) :
    OutAll P (execSupplyReset i s) := by
  simp only [Foot.execSupplyReset, Bool.and_eq_true] at hK
  unfold execSupplyReset
  with_reducible repeat' first
    | assumption
    | refine supplyReset_closed hP ?_ ?_
    | refine OutAll.mk ?_

def Foot.execTickCoreRun (K : Part → Bool) : Bool := Foot.tickCoreRun K

theorem execTickCoreRun_closed {K : Part → Bool} {P : State → Prop} {k : Fin 5} {run : Bool} {s : State} (hP : Closed K P)
    (hK : Foot.execTickCoreRun K = true) (hs_s : P s) :
    OutAll P (execTickCoreRun k run s) := by
  simp only [Foot.execTickCoreRun, Bool.and_eq_true] at hK
  unfold execTickCoreRun
  with_reducible repeat' first
    | assumption
    | refine tickCoreRun_closed hP ?_ ?_
    | refine OutAll.mk ?_

def Foot.wakeUp (K : Part → Bool) : Bool := K (.fld .PW_SLEEPT) && (K (.fld .supen) && (K (.fld .PW_WAKEID) && (K (.fld
    .PW_STATE_WSRC) && (K (.fld .resumeDue) && (K (.fld .irWakeReq) && (K (.fld .wakeReq) && (K (.fld .evWakeReq) &&
    (Foot.standbyWake K))))))))

theorem wakeUp_closed {K : Part → Bool} {P : State → Prop} {s : State} {t : Int} (hP : Closed K P) (hK : Foot.wakeUp K =
    true) (hs_s : P s) :
    P (wakeUp s t) := by
  simp only [Foot.wakeUp, Bool.and_eq_true] at hK
  obtain ⟨hK0, hK1, hK2, hK3, hK4, hK5, hK6, hK7, hK8⟩ := hK
  unfold wakeUp
  with_reducible repeat' first
    | assumption
    | refine standbyWake_closed hP ?_ ?_
    | refine hP.put _ _ _ _ _ ?_ ?_
    | refine hP.clear ?_ ?_
    | refine hP.raise ?_ ?_
    | (extract_lets +onlyGivenNames x; apply thenHave (p := P x); (unfold x; clear x); rotate_left 1; (intro hx; clear_value x))
    | (extract_lets +onlyGivenNames x; clear_value x)
    | refine ite_closed ?_ ?_
    | split

theorem wakeUp_get {s : State} {t : Int} {fld0 : Fld} {i0 j0 : Nat} (hK : Foot.wakeUp (notFld fld0) = true)  : (wakeUp s
    t).get fld0 i0 j0 = s.get fld0 i0 j0 :=
  wakeUp_closed (P := fun x => x.get fld0 i0 j0 = s.get fld0 i0 j0) (field_closed fld0 i0 j0 _) hK  rfl

def Foot.execWake (K : Part → Bool) : Bool := Foot.wakeUp K

theorem execWake_closed {K : Part → Bool} {P : State → Prop} {t : BitVec 32} {s : State} (hP : Closed K P) (hK :
    Foot.execWake K = true) (hs_s : P s) :
    OutAll P (execWake t s) := by
  simp only [Foot.execWake, Bool.and_eq_true] at hK
  unfold execWake
  with_reducible repeat' first
    | assumption
    | refine wakeUp_closed hP ?_ ?_
    | refine OutAll.mk ?_

def Foot.wakeFalling (K : Part → Bool) : Bool := Foot.hwPublish K

theorem wakeFalling_closed {K : Part → Bool} {P : State → Prop} {s : State} (hP : Closed K P) (hK : Foot.wakeFalling K =
    true) (hs_s : P s) :
    P (wakeFalling s) := by
  simp only [Foot.wakeFalling, Bool.and_eq_true] at hK
  unfold wakeFalling
  with_reducible repeat' first
    | assumption
    | refine hwPublish_closed hP ?_ ?_

theorem wakeFalling_get {s : State} {fld0 : Fld} {i0 j0 : Nat} (hK : Foot.wakeFalling (notFld fld0) = true)  : (wakeFalling
    s).get fld0 i0 j0 = s.get fld0 i0 j0 :=
  wakeFalling_closed (P := fun x => x.get fld0 i0 j0 = s.get fld0 i0 j0) (field_closed fld0 i0 j0 _) hK  rfl

def Foot.execWakeFallingEdge (K : Part → Bool) : Bool := Foot.wakeFalling K

theorem execWakeFallingEdge_closed {K : Part → Bool} {P : State → Prop} {s : State} (hP : Closed K P) (hK :
    Foot.execWakeFallingEdge K = true) (hs_s : P s) :
    OutAll P (execWakeFallingEdge s) := by
  simp only [Foot.execWakeFallingEdge, Bool.and_eq_true] at hK
  unfold execWakeFallingEdge
  with_reducible repeat' first
    | assumption
    | refine wakeFalling_closed hP ?_ ?_
    | refine OutAll.mk ?_

def Foot.watchdogExpiry (K : Part → Bool) : Bool := K (.fld .wdOn) && (Foot.mcReset K)

theorem watchdogExpiry_closed {K : Part → Bool} {P : State → Prop} {s : State} (hP : Closed K P) (hK : Foot.watchdogExpiry K
    = true) (hs_s : P s) :
    P (watchdogExpiry s) := by
  simp only [Foot.watchdogExpiry, Bool.and_eq_true] at hK
  obtain ⟨hK0, hK1⟩ := hK
  unfold watchdogExpiry
  with_reducible repeat' first
    | assumption
    | refine mcReset_closed hP ?_ ?_
    | refine hP.clear ?_ ?_
    | refine ite_closed ?_ ?_
    | split

theorem watchdogExpiry_get {s : State} {fld0 : Fld} {i0 j0 : Nat} (hK : Foot.watchdogExpiry (notFld fld0) = true)  :
    (watchdogExpiry s).get fld0 i0 j0 = s.get fld0 i0 j0 :=
  watchdogExpiry_closed (P := fun x => x.get fld0 i0 j0 = s.get fld0 i0 j0) (field_closed fld0 i0 j0 _) hK  rfl

def Foot.execWatchdogExpiry (K : Part → Bool) : Bool := Foot.watchdogExpiry K

theorem execWatchdogExpiry_closed {K : Part → Bool} {P : State → Prop} {s : State} (hP : Closed K P) (hK :
    Foot.execWatchdogExpiry K = true) (hs_s : P s) :
    OutAll P (execWatchdogExpiry s) := by
  simp only [Foot.execWatchdogExpiry, Bool.and_eq_true] at hK
  unfold execWatchdogExpiry
  with_reducible repeat' first
    | assumption
    | refine watchdogExpiry_closed hP ?_ ?_
    | refine OutAll.mk ?_

def Foot.execWatchdogKick (K : Part → Bool) : Bool := Foot.watchdogKick K

theorem execWatchdogKick_closed {K : Part → Bool} {P : State → Prop} {v : W16} {s : State} (hP : Closed K P) (hK :
    Foot.execWatchdogKick K = true) (hs_s : P s) :
    OutAll P (execWatchdogKick v s) := by
  simp only [Foot.execWatchdogKick, Bool.and_eq_true] at hK
  unfold execWatchdogKick
  with_reducible repeat' first
    | assumption
    | refine watchdogKick_closed hP ?_ ?_
    | refine OutAll.mk ?_

end Sys2Proof.Machine
end

