-- ==== Sys2Proof/Laws/ClosedImageForm.lean ====
section
/-! SUPPORT. What the functions of Machine/ImageForm.lean can write, and that they keep every closed property (Laws/Closed.lean). -/
namespace Sys2Proof.Machine

set_option Elab.async false
set_option linter.all false

def Foot.putResult (K : Part → Bool) : Bool := K (.fld .IM_VRES_KIND) && (K (.fld .IM_VRES_CODE))

theorem putResult_closed {K : Part → Bool} {P : State → Prop} {s : State} {code : Int} {k : Nat} (hP : Closed K P) (hK :
    Foot.putResult K = true) (hs_s : P s) :
    P (putResult s code k) := by
  simp only [Foot.putResult, Bool.and_eq_true] at hK
  obtain ⟨hK0, hK1⟩ := hK
  unfold putResult
  with_reducible repeat' first
    | assumption
    | refine hP.put _ _ _ _ _ ?_ ?_

theorem putResult_get {s : State} {code : Int} {k : Nat} {fld0 : Fld} {i0 j0 : Nat} (hK : Foot.putResult (notFld fld0) =
    true)  : (putResult s code k).get fld0 i0 j0 = s.get fld0 i0 j0 :=
  putResult_closed (P := fun x => x.get fld0 i0 j0 = s.get fld0 i0 j0) (field_closed fld0 i0 j0 _) hK  rfl

def Foot.loadFixed (K : Part → Bool) : Bool := K (.fld .DMA_CFG_WRAPSEL) && (K (.fld .DMA_CFG_OWNER) && (K (.fld
    .LS_PAIR_DUTY)))

theorem loadFixed_closed {K : Part → Bool} {P : State → Prop} {s : State} {p : Fld → Bool} (hP : Closed K P) (hK :
    Foot.loadFixed K = true) (hs_s : P s) :
    P (loadFixed s p) := by
  simp only [Foot.loadFixed, Bool.and_eq_true] at hK
  obtain ⟨hK0, hK1, hK2⟩ := hK
  unfold loadFixed
  with_reducible repeat' first
    | assumption
    | refine hP.put _ _ _ _ _ ?_ ?_
    | refine hP.clear ?_ ?_
    | refine Closed.each ?_ _ ?_
    | refine Closed.when ?_ ?_
    | intro _
    | (extract_lets +onlyGivenNames x; apply thenHave (p := P x); (unfold x; clear x); rotate_left 1; (intro hx; clear_value x))
    | (extract_lets +onlyGivenNames x; clear_value x)

def Foot.loadDerived (K : Part → Bool) : Bool := K (.fld .DM_RAILSTAT_STATE) && (K (.fld .PH_RSTAT_NSPAV) && (K (.fld
    .WP_RSTAT_RLEFT) && (K (.fld .EV_HWPUB_EN))))

theorem loadDerived_closed {K : Part → Bool} {P : State → Prop} {s : State} {p : Fld → Bool} (hP : Closed K P) (hK :
    Foot.loadDerived K = true) (hs_s : P s) :
    P (loadDerived s p) := by
  simp only [Foot.loadDerived, Bool.and_eq_true] at hK
  obtain ⟨hK0, hK1, hK2, hK3⟩ := hK
  unfold loadDerived
  with_reducible repeat' first
    | assumption
    | refine hP.put _ _ _ _ _ ?_ ?_
    | refine hP.clear ?_ ?_
    | refine Closed.each ?_ _ ?_
    | refine Closed.when ?_ ?_
    | intro _
    | (extract_lets +onlyGivenNames x; apply thenHave (p := P x); (unfold x; clear x); rotate_left 1; (intro hx; clear_value x))
    | (extract_lets +onlyGivenNames x; clear_value x)

def Foot.loadFields (K : Part → Bool) : Bool := (allFld fun f => K (.fld f)) && (Foot.loadFixed K && (Foot.loadDerived K))

theorem loadFields_closed {K : Part → Bool} {P : State → Prop} {s : State} {l : List ImgField} {p : Fld → Bool} (hP : Closed
    K P) (hK : Foot.loadFields K = true) (hs_s : P s) :
    P (loadFields s l p) := by
  simp only [Foot.loadFields, Bool.and_eq_true] at hK
  obtain ⟨hK0, hK1, hK2⟩ := hK
  unfold loadFields
  with_reducible repeat' first
    | assumption
    | refine allFld_fld ?_ _
    | refine loadFixed_closed hP ?_ ?_
    | refine loadDerived_closed hP ?_ ?_
    | refine hP.put _ _ _ _ _ ?_ ?_
    | refine Closed.each ?_ _ ?_
    | intro _
    | (extract_lets +onlyGivenNames x; apply thenHave (p := P x); (unfold x; clear x); rotate_left 1; (intro hx; clear_value x))
    | (extract_lets +onlyGivenNames x; clear_value x)

def Foot.loadExtra (K : Part → Bool) : Bool := (allFld fun f => K (.fld f))

theorem loadExtra_closed {K : Part → Bool} {P : State → Prop} {s : State} {l : List ImgField} {p : Fld → Bool} (hP : Closed K
    P) (hK : Foot.loadExtra K = true) (hs_s : P s) :
    P (loadExtra s l p) := by
  simp only [Foot.loadExtra, Bool.and_eq_true] at hK
  unfold loadExtra
  with_reducible repeat' first
    | assumption
    | refine allFld_fld ?_ _
    | refine hP.put _ _ _ _ _ ?_ ?_
    | refine Closed.each ?_ _ ?_
    | intro _

def Foot.flashProgram (K : Part → Bool) : Bool := K .flash

theorem flashProgram_closed {K : Part → Bool} {P : State → Prop} {s : State} {a : Nat} {b : Byte} (hP : Closed K P) (hK :
    Foot.flashProgram K = true) (hs_s : P s) :
    P (flashProgram s a b) := by
  exact hP.flash _ _ _ hK hs_s

theorem flashProgram_get {s : State} {a : Nat} {b : Byte} {fld0 : Fld} {i0 j0 : Nat} (hK : Foot.flashProgram (notFld fld0) =
    true)  : (flashProgram s a b).get fld0 i0 j0 = s.get fld0 i0 j0 :=
  flashProgram_closed (P := fun x => x.get fld0 i0 j0 = s.get fld0 i0 j0) (field_closed fld0 i0 j0 _) hK  rfl

def Foot.flashWrite (K : Part → Bool) : Bool := Foot.flashProgram K

theorem flashWrite_closed {K : Part → Bool} {P : State → Prop} {s : State} {a : Nat} {l : List Byte} (hP : Closed K P) (hK :
    Foot.flashWrite K = true) (hs_s : P s) :
    P (flashWrite s a l) := by
  simp only [Foot.flashWrite, Bool.and_eq_true] at hK
  unfold flashWrite
  with_reducible repeat' first
    | assumption
    | refine flashProgram_closed hP ?_ ?_
    | refine Closed.each ?_ _ ?_
    | intro _

theorem flashWrite_get {s : State} {a : Nat} {l : List Byte} {fld0 : Fld} {i0 j0 : Nat} (hK : Foot.flashWrite (notFld fld0) =
    true)  : (flashWrite s a l).get fld0 i0 j0 = s.get fld0 i0 j0 :=
  flashWrite_closed (P := fun x => x.get fld0 i0 j0 = s.get fld0 i0 j0) (field_closed fld0 i0 j0 _) hK  rfl

def Foot.flashErase (K : Part → Bool) : Bool := K .flash

theorem flashErase_closed {K : Part → Bool} {P : State → Prop} {s : State} {a : Nat} {n : Nat} (hP : Closed K P) (hK :
    Foot.flashErase K = true) (hs_s : P s) :
    P (flashErase s a n) := by
  exact hP.flashDrop _ _ hK hs_s

theorem flashErase_get {s : State} {a : Nat} {n : Nat} {fld0 : Fld} {i0 j0 : Nat} (hK : Foot.flashErase (notFld fld0) = true)
     : (flashErase s a n).get fld0 i0 j0 = s.get fld0 i0 j0 :=
  flashErase_closed (P := fun x => x.get fld0 i0 j0 = s.get fld0 i0 j0) (field_closed fld0 i0 j0 _) hK  rfl

def Foot.dirWrite (K : Part → Bool) : Bool := Foot.flashWrite K && (Foot.flashErase K)

theorem dirWrite_closed {K : Part → Bool} {P : State → Prop} {s : State} {base : Nat} {pref : Byte} {trial : Byte} (hP :
    Closed K P) (hK : Foot.dirWrite K = true) (hs_s : P s) :
    P (dirWrite s base pref trial) := by
  simp only [Foot.dirWrite, Bool.and_eq_true] at hK
  obtain ⟨hK0, hK1⟩ := hK
  unfold dirWrite
  with_reducible repeat' first
    | assumption
    | refine flashWrite_closed hP ?_ ?_
    | refine flashErase_closed hP ?_ ?_
    | (extract_lets +onlyGivenNames x; apply thenHave (p := P x); (unfold x; clear x); rotate_left 1; (intro hx; clear_value x))
    | (extract_lets +onlyGivenNames x; clear_value x)
    | refine ite_closed ?_ ?_
    | split

theorem dirWrite_get {s : State} {base : Nat} {pref : Byte} {trial : Byte} {fld0 : Fld} {i0 j0 : Nat} (hK : Foot.dirWrite
    (notFld fld0) = true)  : (dirWrite s base pref trial).get fld0 i0 j0 = s.get fld0 i0 j0 :=
  dirWrite_closed (P := fun x => x.get fld0 i0 j0 = s.get fld0 i0 j0) (field_closed fld0 i0 j0 _) hK  rfl

end Sys2Proof.Machine
end

