-- ==== Sys2Proof/Laws/ClosedFlashLog.lean ====
section
/-! SUPPORT. What the functions of Machine/FlashLog.lean can write, and that they keep every closed property (Laws/Closed.lean). -/
namespace Sys2Proof.Machine

set_option Elab.async false
set_option linter.all false

def Foot.restoreCounts (K : Part → Bool) : Bool := K (.fld .PH_STARTS) && (K (.fld .PH_HCYC) && (K (.fld .chgLow) && (K (.fld
    .PH_CHG))))

theorem restoreCounts_closed {K : Part → Bool} {P : State → Prop} {s : State} {b : List Byte} (hP : Closed K P) (hK :
    Foot.restoreCounts K = true) (hs_s : P s) :
    P (restoreCounts s b) := by
  simp only [Foot.restoreCounts, Bool.and_eq_true] at hK
  obtain ⟨hK0, hK1, hK2, hK3⟩ := hK
  unfold restoreCounts
  with_reducible repeat' first
    | assumption
    | refine hP.put _ _ _ _ _ ?_ ?_
    | refine hP.clear ?_ ?_
    | refine Closed.each ?_ _ ?_
    | intro _
    | (extract_lets +onlyGivenNames x; apply thenHave (p := P x); (unfold x; clear x); rotate_left 1; (intro hx; clear_value x))
    | (extract_lets +onlyGivenNames x; clear_value x)

theorem restoreCounts_get {s : State} {b : List Byte} {fld0 : Fld} {i0 j0 : Nat} (hK : Foot.restoreCounts (notFld fld0) =
    true)  : (restoreCounts s b).get fld0 i0 j0 = s.get fld0 i0 j0 :=
  restoreCounts_closed (P := fun x => x.get fld0 i0 j0 = s.get fld0 i0 j0) (field_closed fld0 i0 j0 _) hK  rfl

def Foot.restoreLog (K : Part → Bool) : Bool := Foot.restoreCounts K && (Foot.retirePhase K && (Foot.retAdd K))

theorem restoreLog_closed {K : Part → Bool} {P : State → Prop} {s : State} (hP : Closed K P) (hK : Foot.restoreLog K = true)
    (hs_s : P s) :
    P (restoreLog s) := by
  simp only [Foot.restoreLog, Bool.and_eq_true] at hK
  obtain ⟨hK0, hK1, hK2⟩ := hK
  unfold restoreLog
  with_reducible repeat' first
    | assumption
    | refine restoreCounts_closed hP ?_ ?_
    | refine retirePhase_closed hP ?_ ?_
    | refine retAdd_closed hP ?_ ?_
    | refine Closed.each ?_ _ ?_
    | intro _
    | (extract_lets +onlyGivenNames x; apply thenHave (p := P x); (unfold x; clear x); rotate_left 1; (intro hx; clear_value x))
    | (extract_lets +onlyGivenNames x; clear_value x)
    | refine ite_closed ?_ ?_
    | split

theorem restoreLog_get {s : State} {fld0 : Fld} {i0 j0 : Nat} (hK : Foot.restoreLog (notFld fld0) = true)  : (restoreLog
    s).get fld0 i0 j0 = s.get fld0 i0 j0 :=
  restoreLog_closed (P := fun x => x.get fld0 i0 j0 = s.get fld0 i0 j0) (field_closed fld0 i0 j0 _) hK  rfl

def Foot.putRecord (K : Part → Bool) : Bool := Foot.flashWrite K

theorem putRecord_closed {K : Part → Bool} {P : State → Prop} {s : State} {i : Nat} {o : Nat} {typ : Nat} {payload : List
    Byte} (hP : Closed K P) (hK : Foot.putRecord K = true) (hs_s : P s) :
    P (putRecord s i o typ payload) := by
  simp only [Foot.putRecord, Bool.and_eq_true] at hK
  unfold putRecord
  with_reducible repeat' first
    | assumption
    | refine flashWrite_closed hP ?_ ?_
    | intro _
    | (extract_lets +onlyGivenNames x; apply thenHave (p := P x); (unfold x; clear x); rotate_left 1; (intro hx; clear_value x))
    | (extract_lets +onlyGivenNames x; clear_value x)
    | (extract_lets +onlyGivenNames x)
    | refine ite_closed ?_ ?_
    | split

theorem putRecord_get {s : State} {i : Nat} {o : Nat} {typ : Nat} {payload : List Byte} {fld0 : Fld} {i0 j0 : Nat} (hK :
    Foot.putRecord (notFld fld0) = true)  : (putRecord s i o typ payload).get fld0 i0 j0 = s.get fld0 i0 j0 :=
  putRecord_closed (P := fun x => x.get fld0 i0 j0 = s.get fld0 i0 j0) (field_closed fld0 i0 j0 _) hK  rfl

def Foot.openSector (K : Part → Bool) : Bool := Foot.putRecord K && (Foot.flashErase K && (Foot.flashWrite K))

theorem openSector_closed {K : Part → Bool} {P : State → Prop} {s : State} {cur : Option Nat} (hP : Closed K P) (hK :
    Foot.openSector K = true) (hs_s : P s) :
    P (openSector s cur).1 := by
  simp only [Foot.openSector, Bool.and_eq_true] at hK
  obtain ⟨hK0, hK1, hK2⟩ := hK
  unfold openSector
  with_reducible repeat' first
    | assumption
    | refine putRecord_closed hP ?_ ?_
    | refine flashErase_closed hP ?_ ?_
    | refine flashWrite_closed hP ?_ ?_
    | intro _
    | (extract_lets +onlyGivenNames x; apply thenHave (p := P x); (unfold x; clear x); rotate_left 1; (intro hx; clear_value x))
    | (extract_lets +onlyGivenNames x; clear_value x)
    | refine ite_closed ?_ ?_
    | split

def Foot.logNext (K : Part → Bool) : Bool := K .logQueue && (K (.fld .flashBusy) && (Foot.putRecord K && (Foot.openSector K)))

theorem logNext_closed {K : Part → Bool} {P : State → Prop} {s : State} (hP : Closed K P) (hK : Foot.logNext K = true) (hs_s
    : P s) :
    P (logNext s) := by
  simp only [Foot.logNext, Bool.and_eq_true] at hK
  obtain ⟨hK0, hK1, hK2, hK3⟩ := hK
  unfold logNext
  with_reducible repeat' first
    | assumption
    | refine putRecord_closed hP ?_ ?_
    | refine openSector_closed hP ?_ ?_
    | refine hP.raise ?_ ?_
    | intro _
    | (extract_lets +onlyGivenNames x; apply thenHave (p := P x); (unfold x; clear x); rotate_left 1; (intro hx; clear_value x))
    | (extract_lets +onlyGivenNames x; clear_value x)
    | refine hP.remake _ _ _ _ _ _ _ _ _ _ _ _ _ _ _ _ _ _ _ _ _ _ _ (hs := ?_); first | assumption | (with_reducible refine putRecord_closed hP ?_ ?_) | (with_reducible refine openSector_closed hP ?_ ?_) | (with_reducible refine hP.put _ _ _ _ _ ?_ ?_) | (with_reducible refine hP.clear ?_ ?_) | (with_reducible refine hP.raise ?_ ?_) | (with_reducible refine hP.bump ?_ ?_) | (with_reducible refine hP.setBits ?_ ?_) | (with_reducible refine hP.clrBits ?_ ?_)
    | refine ite_closed ?_ ?_
    | split

theorem logNext_get {s : State} {fld0 : Fld} {i0 j0 : Nat} (hK : Foot.logNext (notFld fld0) = true)  : (logNext s).get fld0
    i0 j0 = s.get fld0 i0 j0 :=
  logNext_closed (P := fun x => x.get fld0 i0 j0 = s.get fld0 i0 j0) (field_closed fld0 i0 j0 _) hK  rfl

def Foot.logPush (K : Part → Bool) : Bool := K .logQueue

theorem logPush_closed {K : Part → Bool} {P : State → Prop} {s : State} {typ : Nat} {body : List Byte} (hP : Closed K P) (hK
    : Foot.logPush K = true) (hs_s : P s) :
    P (logPush s typ body) := by
  simp only [Foot.logPush, Bool.and_eq_true] at hK
  unfold logPush
  with_reducible repeat' first
    | assumption
    | refine hP.remake _ _ _ _ _ _ _ _ _ _ _ _ _ _ _ _ _ _ _ _ _ _ _ (hs := ?_); first | assumption

theorem logPush_get {s : State} {typ : Nat} {body : List Byte} {fld0 : Fld} {i0 j0 : Nat} (hK : Foot.logPush (notFld fld0) =
    true)  : (logPush s typ body).get fld0 i0 j0 = s.get fld0 i0 j0 :=
  logPush_closed (P := fun x => x.get fld0 i0 j0 = s.get fld0 i0 j0) (field_closed fld0 i0 j0 _) hK  rfl

def Foot.logEvents (K : Part → Bool) : Bool := K (.fld .retLogged) && (K (.fld .nretLogged) && (K (.fld .logAt) &&
    (Foot.logPush K)))

theorem logEvents_closed {K : Part → Bool} {P : State → Prop} {s : State} (hP : Closed K P) (hK : Foot.logEvents K = true)
    (hs_s : P s) :
    P (logEvents s) := by
  simp only [Foot.logEvents, Bool.and_eq_true] at hK
  obtain ⟨hK0, hK1, hK2, hK3⟩ := hK
  unfold logEvents
  with_reducible repeat' first
    | assumption
    | refine logPush_closed hP ?_ ?_
    | refine hP.put _ _ _ _ _ ?_ ?_
    | refine hP.clear ?_ ?_
    | refine hP.raise ?_ ?_
    | refine Closed.each ?_ _ ?_
    | intro _
    | (extract_lets +onlyGivenNames x; apply thenHave (p := P x); (unfold x; clear x); rotate_left 1; (intro hx; clear_value x))
    | (extract_lets +onlyGivenNames x; clear_value x)
    | refine ite_closed ?_ ?_
    | split

theorem logEvents_get {s : State} {fld0 : Fld} {i0 j0 : Nat} (hK : Foot.logEvents (notFld fld0) = true)  : (logEvents s).get
    fld0 i0 j0 = s.get fld0 i0 j0 :=
  logEvents_closed (P := fun x => x.get fld0 i0 j0 = s.get fld0 i0 j0) (field_closed fld0 i0 j0 _) hK  rfl

def Foot.logCheckpoint (K : Part → Bool) : Bool := K (.fld .retLogged) && (K (.fld .ckDue) && (K (.fld .ckAt) && (K (.fld
    .nretLogged) && (Foot.logPush K))))

theorem logCheckpoint_closed {K : Part → Bool} {P : State → Prop} {s : State} (hP : Closed K P) (hK : Foot.logCheckpoint K =
    true) (hs_s : P s) :
    P (logCheckpoint s) := by
  simp only [Foot.logCheckpoint, Bool.and_eq_true] at hK
  obtain ⟨hK0, hK1, hK2, hK3, hK4⟩ := hK
  unfold logCheckpoint
  with_reducible repeat' first
    | assumption
    | refine logPush_closed hP ?_ ?_
    | refine hP.put _ _ _ _ _ ?_ ?_
    | refine hP.clear ?_ ?_
    | refine Closed.each ?_ _ ?_
    | intro _
    | (extract_lets +onlyGivenNames x; apply thenHave (p := P x); (unfold x; clear x); rotate_left 1; (intro hx; clear_value x))
    | (extract_lets +onlyGivenNames x; clear_value x)

theorem logCheckpoint_get {s : State} {fld0 : Fld} {i0 j0 : Nat} (hK : Foot.logCheckpoint (notFld fld0) = true)  :
    (logCheckpoint s).get fld0 i0 j0 = s.get fld0 i0 j0 :=
  logCheckpoint_closed (P := fun x => x.get fld0 i0 j0 = s.get fld0 i0 j0) (field_closed fld0 i0 j0 _) hK  rfl

def Foot.logTask (K : Part → Bool) : Bool := Foot.logNext K && (Foot.logEvents K && (Foot.logCheckpoint K))

theorem logTask_closed {K : Part → Bool} {P : State → Prop} {s : State} (hP : Closed K P) (hK : Foot.logTask K = true) (hs_s
    : P s) :
    P (logTask s) := by
  simp only [Foot.logTask, Bool.and_eq_true] at hK
  obtain ⟨hK0, hK1, hK2⟩ := hK
  unfold logTask
  with_reducible repeat' first
    | assumption
    | refine logNext_closed hP ?_ ?_
    | refine logEvents_closed hP ?_ ?_
    | refine logCheckpoint_closed hP ?_ ?_
    | (extract_lets +onlyGivenNames x; apply thenHave (p := P x); (unfold x; clear x); rotate_left 1; (intro hx; clear_value x))
    | (extract_lets +onlyGivenNames x; clear_value x)
    | refine ite_closed ?_ ?_
    | split

theorem logTask_get {s : State} {fld0 : Fld} {i0 j0 : Nat} (hK : Foot.logTask (notFld fld0) = true)  : (logTask s).get fld0
    i0 j0 = s.get fld0 i0 j0 :=
  logTask_closed (P := fun x => x.get fld0 i0 j0 = s.get fld0 i0 j0) (field_closed fld0 i0 j0 _) hK  rfl

def Foot.flashBusyEnd (K : Part → Bool) : Bool := K (.fld .flashBusy) && (Foot.logNext K)

theorem flashBusyEnd_closed {K : Part → Bool} {P : State → Prop} {s : State} (hP : Closed K P) (hK : Foot.flashBusyEnd K =
    true) (hs_s : P s) :
    P (flashBusyEnd s) := by
  simp only [Foot.flashBusyEnd, Bool.and_eq_true] at hK
  obtain ⟨hK0, hK1⟩ := hK
  unfold flashBusyEnd
  with_reducible repeat' first
    | assumption
    | refine logNext_closed hP ?_ ?_
    | refine hP.clear ?_ ?_
    | refine ite_closed ?_ ?_
    | split

theorem flashBusyEnd_get {s : State} {fld0 : Fld} {i0 j0 : Nat} (hK : Foot.flashBusyEnd (notFld fld0) = true)  :
    (flashBusyEnd s).get fld0 i0 j0 = s.get fld0 i0 j0 :=
  flashBusyEnd_closed (P := fun x => x.get fld0 i0 j0 = s.get fld0 i0 j0) (field_closed fld0 i0 j0 _) hK  rfl

def Foot.execFlashBusyEnd (K : Part → Bool) : Bool := Foot.flashBusyEnd K

theorem execFlashBusyEnd_closed {K : Part → Bool} {P : State → Prop} {s : State} (hP : Closed K P) (hK :
    Foot.execFlashBusyEnd K = true) (hs_s : P s) :
    OutAll P (execFlashBusyEnd s) := by
  simp only [Foot.execFlashBusyEnd, Bool.and_eq_true] at hK
  unfold execFlashBusyEnd
  with_reducible repeat' first
    | assumption
    | refine flashBusyEnd_closed hP ?_ ?_
    | refine OutAll.mk ?_

end Sys2Proof.Machine
end

