-- ==== Sys2Proof/Laws/ClosedIdent.lean ====
section
/-! SUPPORT. What the functions of Machine/Ident.lean can write, and that they keep every closed property (Laws/Closed.lean). -/
namespace Sys2Proof.Machine

set_option Elab.async false
set_option linter.all false

def Foot.commitTune (K : Part → Bool) : Bool := K .writes && (Foot.bankWrite K && (Foot.commitBank K && (K (.fld .LN_GEXP) &&
    ((tuneFields.all fun f => K (.fld f))))))

theorem commitTune_closed {K : Part → Bool} {P : State → Prop} {s : State} {r : Nat} {vals : List Int} {g : Int} {kcap : Int}
    (hP : Closed K P) (hK : Foot.commitTune K = true) (hs_s : P s) :
    P (commitTune s r vals g kcap) := by
  simp only [Foot.commitTune, Bool.and_eq_true] at hK
  obtain ⟨hK0, hK1, hK2, hK3, hK4⟩ := hK
  unfold commitTune
  with_reducible repeat' first
    | assumption
    | refine bankWrite_closed hP ?_ ?_ ?_
    | refine commitBank_closed hP ?_ ?_
    | refine hP.later ?_ ?_
    | refine Closed.eachMem (fun _ _ _ _ => ?_) ?_
    | (exact listK (by assumption) (List.of_mem_zip (by assumption)).1)
    | intro _
    | (extract_lets +onlyGivenNames x; apply thenHave (p := P x); (unfold x; clear x); rotate_left 1; (intro hx; clear_value x))
    | (extract_lets +onlyGivenNames x; clear_value x)
    | (extract_lets +onlyGivenNames x)
    | refine ite_closed ?_ ?_
    | split

theorem commitTune_get {s : State} {r : Nat} {vals : List Int} {g : Int} {kcap : Int} {fld0 : Fld} {i0 j0 : Nat} (hK :
    Foot.commitTune (notFld fld0) = true)  : (commitTune s r vals g kcap).get fld0 i0 j0 = s.get fld0 i0 j0 :=
  commitTune_closed (P := fun x => x.get fld0 i0 j0 = s.get fld0 i0 j0) (field_closed fld0 i0 j0 _) hK  rfl

def Foot.setIdCode (K : Part → Bool) : Bool := K (.fld .DR_IDSTAT_CODE)

theorem setIdCode_closed {K : Part → Bool} {P : State → Prop} {s : State} {r : Nat} {c : Int} (hP : Closed K P) (hK :
    Foot.setIdCode K = true) (hs_s : P s) :
    P (setIdCode s r c) := by
  simp only [Foot.setIdCode, Bool.and_eq_true] at hK
  unfold setIdCode
  with_reducible repeat' first
    | assumption
    | refine hP.put _ _ _ _ _ ?_ ?_

theorem setIdCode_get {s : State} {r : Nat} {c : Int} {fld0 : Fld} {i0 j0 : Nat} (hK : Foot.setIdCode (notFld fld0) = true) 
    : (setIdCode s r c).get fld0 i0 j0 = s.get fld0 i0 j0 :=
  setIdCode_closed (P := fun x => x.get fld0 i0 j0 = s.get fld0 i0 j0) (field_closed fld0 i0 j0 _) hK  rfl

def Foot.idSlews (K : Part → Bool) : Bool := K .writes

theorem idSlews_closed {K : Part → Bool} {P : State → Prop} {s : State} {r : Nat} (hP : Closed K P) (hK : Foot.idSlews K =
    true) (hs_s : P s) :
    P (idSlews s r) := by
  simp only [Foot.idSlews, Bool.and_eq_true] at hK
  unfold idSlews
  with_reducible repeat' first
    | assumption
    | refine hP.later ?_ ?_

theorem idSlews_get {s : State} {r : Nat} {fld0 : Fld} {i0 j0 : Nat} (hK : Foot.idSlews (notFld fld0) = true)  : (idSlews s
    r).get fld0 i0 j0 = s.get fld0 i0 j0 :=
  idSlews_closed (P := fun x => x.get fld0 i0 j0 = s.get fld0 i0 j0) (field_closed fld0 i0 j0 _) hK  rfl

def Foot.idRearm (K : Part → Bool) : Bool := K (.fld .RC_STGPRE) && (K (.fld .RC_STGTRGMASK) && (K (.fld .RC_STGMASK) &&
    (Foot.stgArm K)))

theorem idRearm_closed {K : Part → Bool} {P : State → Prop} {s : State} (hP : Closed K P) (hK : Foot.idRearm K = true) (hs_s
    : P s) :
    P (idRearm s) := by
  simp only [Foot.idRearm, Bool.and_eq_true] at hK
  obtain ⟨hK0, hK1, hK2, hK3⟩ := hK
  unfold idRearm
  with_reducible repeat' first
    | assumption
    | refine stgArm_closed hP ?_ ?_
    | refine hP.put _ _ _ _ _ ?_ ?_

theorem idRearm_get {s : State} {fld0 : Fld} {i0 j0 : Nat} (hK : Foot.idRearm (notFld fld0) = true)  : (idRearm s).get fld0
    i0 j0 = s.get fld0 i0 j0 :=
  idRearm_closed (P := fun x => x.get fld0 i0 j0 = s.get fld0 i0 j0) (field_closed fld0 i0 j0 _) hK  rfl

def Foot.idAbort (K : Part → Bool) : Bool := Foot.setIdCode K && (Foot.idSlews K && (Foot.idRearm K))

theorem idAbort_closed {K : Part → Bool} {P : State → Prop} {s : State} {r : Nat} (hP : Closed K P) (hK : Foot.idAbort K =
    true) (hs_s : P s) :
    P (idAbort s r) := by
  simp only [Foot.idAbort, Bool.and_eq_true] at hK
  obtain ⟨hK0, hK1, hK2⟩ := hK
  unfold idAbort
  with_reducible repeat' first
    | assumption
    | refine setIdCode_closed hP ?_ ?_
    | refine idSlews_closed hP ?_ ?_
    | refine idRearm_closed hP ?_ ?_
    | (extract_lets +onlyGivenNames x; apply thenHave (p := P x); (unfold x; clear x); rotate_left 1; (intro hx; clear_value x))
    | (extract_lets +onlyGivenNames x; clear_value x)
    | refine ite_closed ?_ ?_
    | split

theorem idAbort_get {s : State} {r : Nat} {fld0 : Fld} {i0 j0 : Nat} (hK : Foot.idAbort (notFld fld0) = true)  : (idAbort s
    r).get fld0 i0 j0 = s.get fld0 i0 j0 :=
  idAbort_closed (P := fun x => x.get fld0 i0 j0 = s.get fld0 i0 j0) (field_closed fld0 i0 j0 _) hK  rfl

def Foot.idRetune (K : Part → Bool) : Bool := K (.fld .idStage) && (K (.fld .idOld) && (K (.fld .idCdes) && (K (.fld .idClr)
    && (K (.fld .DR_IDSTAT_WLEFT) && (Foot.setIdCode K && (Foot.copyBank K && (Foot.commitTune K && (Foot.commitBank K &&
    ((bankFields.all fun f => K (.fld f)))))))))))

theorem idRetune_closed {K : Part → Bool} {P : State → Prop} {s : State} {r : Nat} {kn : Int} {kd : Int} (hP : Closed K P)
    (hK : Foot.idRetune K = true) (hs_s : P s) :
    P (idRetune s r kn kd) := by
  simp only [Foot.idRetune, Bool.and_eq_true] at hK
  obtain ⟨hK0, hK1, hK2, hK3, hK4, hK5, hK6, hK7, hK8, hK9⟩ := hK
  unfold idRetune
  with_reducible repeat' first
    | assumption
    | refine setIdCode_closed hP ?_ ?_
    | refine copyBank_closed hP ?_ ?_
    | refine commitTune_closed hP ?_ ?_
    | refine commitBank_closed hP ?_ ?_
    | refine hP.put _ _ _ _ _ ?_ ?_
    | refine hP.clear ?_ ?_
    | refine hP.raise ?_ ?_
    | refine Closed.eachMem (fun _ _ _ _ => ?_) ?_
    | (exact listK (by assumption) (by assumption))
    | (exact listK (by assumption) (List.of_mem_zip (by assumption)).1)
    | intro _
    | (extract_lets +onlyGivenNames x; apply thenHave (p := P x); (unfold x; clear x); rotate_left 1; (intro hx; clear_value x))
    | (extract_lets +onlyGivenNames x; clear_value x)
    | refine ite_closed ?_ ?_
    | split

theorem idRetune_get {s : State} {r : Nat} {kn : Int} {kd : Int} {fld0 : Fld} {i0 j0 : Nat} (hK : Foot.idRetune (notFld fld0)
    = true)  : (idRetune s r kn kd).get fld0 i0 j0 = s.get fld0 i0 j0 :=
  idRetune_closed (P := fun x => x.get fld0 i0 j0 = s.get fld0 i0 j0) (field_closed fld0 i0 j0 _) hK  rfl

def Foot.medianL (K : Part → Bool) : Bool := K .freeCtr

theorem medianL_closed {K : Part → Bool} {P : State → Prop} {s : State} {r : Nat} (hP : Closed K P) (hK : Foot.medianL K =
    true) (hs_s : P s) :
    P (medianL s r).2 := by
  simp only [Foot.medianL, Bool.and_eq_true] at hK
  unfold medianL
  with_reducible repeat' first
    | assumption
    | refine hP.fresh ?_ ?_
    | intro _
    | (extract_lets +onlyGivenNames x; apply thenHave (p := P x); (unfold x; clear x); rotate_left 1; (intro hx; clear_value x))
    | (extract_lets +onlyGivenNames x; clear_value x)
    | split

def Foot.idJudge (K : Part → Bool) : Bool := K (.fld .DR_IDL) && (K (.fld .DR_IDESR) && (K (.fld .DR_IDC) && (Foot.setIdCode
    K && (Foot.medianL K && (Foot.idRetune K)))))

theorem idJudge_closed {K : Part → Bool} {P : State → Prop} {s : State} {r : Nat} (hP : Closed K P) (hK : Foot.idJudge K =
    true) (hs_s : P s) :
    P (idJudge s r) := by
  simp only [Foot.idJudge, Bool.and_eq_true] at hK
  obtain ⟨hK0, hK1, hK2, hK3, hK4, hK5⟩ := hK
  unfold idJudge
  with_reducible repeat' first
    | assumption
    | refine setIdCode_closed hP ?_ ?_
    | refine medianL_closed hP ?_ ?_
    | refine idRetune_closed hP ?_ ?_
    | refine hP.put _ _ _ _ _ ?_ ?_
    | (extract_lets +onlyGivenNames x; apply thenHave (p := P x); (unfold x; clear x); rotate_left 1; (intro hx; clear_value x))
    | (extract_lets +onlyGivenNames x; clear_value x)
    | refine ite_closed ?_ ?_
    | split

theorem idJudge_get {s : State} {r : Nat} {fld0 : Fld} {i0 j0 : Nat} (hK : Foot.idJudge (notFld fld0) = true)  : (idJudge s
    r).get fld0 i0 j0 = s.get fld0 i0 j0 :=
  idJudge_closed (P := fun x => x.get fld0 i0 j0 = s.get fld0 i0 j0) (field_closed fld0 i0 j0 _) hK  rfl

def Foot.idProcessing (K : Part → Bool) : Bool := K (.fld .idStage) && (K .freeCtr && (Foot.setIdCode K && (Foot.idRetune K
    && (Foot.idJudge K))))

theorem idProcessing_closed {K : Part → Bool} {P : State → Prop} {s : State} {r : Nat} (hP : Closed K P) (hK :
    Foot.idProcessing K = true) (hs_s : P s) :
    P (idProcessing s r) := by
  simp only [Foot.idProcessing, Bool.and_eq_true] at hK
  obtain ⟨hK0, hK1, hK2, hK3, hK4⟩ := hK
  unfold idProcessing
  with_reducible repeat' first
    | assumption
    | refine setIdCode_closed hP ?_ ?_
    | refine idRetune_closed hP ?_ ?_
    | refine idJudge_closed hP ?_ ?_
    | refine hP.clear ?_ ?_
    | refine hP.fresh ?_ ?_
    | (extract_lets +onlyGivenNames x; apply thenHave (p := P x); (unfold x; clear x); rotate_left 1; (intro hx; clear_value x))
    | (extract_lets +onlyGivenNames x; clear_value x)
    | refine ite_closed ?_ ?_
    | split

theorem idProcessing_get {s : State} {r : Nat} {fld0 : Fld} {i0 j0 : Nat} (hK : Foot.idProcessing (notFld fld0) = true)  :
    (idProcessing s r).get fld0 i0 j0 = s.get fld0 i0 j0 :=
  idProcessing_closed (P := fun x => x.get fld0 i0 j0 = s.get fld0 i0 j0) (field_closed fld0 i0 j0 _) hK  rfl

def Foot.idWatching (K : Part → Bool) : Bool := K (.fld .DR_IDSTAT_WLEFT) && (K (.fld .DR_IDCDES) && (Foot.setIdCode K &&
    (Foot.commitTune K)))

theorem idWatching_closed {K : Part → Bool} {P : State → Prop} {s : State} {r : Nat} (hP : Closed K P) (hK : Foot.idWatching
    K = true) (hs_s : P s) :
    P (idWatching s r) := by
  simp only [Foot.idWatching, Bool.and_eq_true] at hK
  obtain ⟨hK0, hK1, hK2, hK3⟩ := hK
  unfold idWatching
  with_reducible repeat' first
    | assumption
    | refine setIdCode_closed hP ?_ ?_
    | refine commitTune_closed hP ?_ ?_
    | refine hP.put _ _ _ _ _ ?_ ?_
    | intro _
    | (extract_lets +onlyGivenNames x; apply thenHave (p := P x); (unfold x; clear x); rotate_left 1; (intro hx; clear_value x))
    | (extract_lets +onlyGivenNames x; clear_value x)
    | refine ite_closed ?_ ?_
    | split

theorem idWatching_get {s : State} {r : Nat} {fld0 : Fld} {i0 j0 : Nat} (hK : Foot.idWatching (notFld fld0) = true)  :
    (idWatching s r).get fld0 i0 j0 = s.get fld0 i0 j0 :=
  idWatching_closed (P := fun x => x.get fld0 i0 j0 = s.get fld0 i0 j0) (field_closed fld0 i0 j0 _) hK  rfl

def Foot.idStart (K : Part → Bool) : Bool := K (.fld .DR_IDSLEWDN) && (K (.fld .DR_IDSLEWUP) && (K (.fld .DR_IDBASE) && (K
    .writes && (K (.fld .RC_STGPRE) && (K (.fld .RC_STGTRGMASK) && (K (.fld .RC_STGMASK) && (K (.fld .idLast) && (K (.fld
    .idNext) && (K (.fld .idAt) && (K (.fld .idCount) && (Foot.stgTrigger K && (Foot.stgArm K && (Foot.setIdCode
    K)))))))))))))

theorem idStart_closed {K : Part → Bool} {P : State → Prop} {s : State} {r : Nat} (hP : Closed K P) (hK : Foot.idStart K =
    true) (hs_s : P s) :
    P (idStart s r) := by
  simp only [Foot.idStart, Bool.and_eq_true] at hK
  obtain ⟨hK0, hK1, hK2, hK3, hK4, hK5, hK6, hK7, hK8, hK9, hK10, hK11, hK12, hK13⟩ := hK
  unfold idStart
  with_reducible repeat' first
    | assumption
    | refine stgTrigger_closed hP ?_ ?_
    | refine stgArm_closed hP ?_ ?_
    | refine setIdCode_closed hP ?_ ?_
    | refine hP.put _ _ _ _ _ ?_ ?_
    | refine hP.clear ?_ ?_
    | refine hP.later ?_ ?_
    | (extract_lets +onlyGivenNames x; apply thenHave (p := P x); (unfold x; clear x); rotate_left 1; (intro hx; clear_value x))
    | (extract_lets +onlyGivenNames x; clear_value x)

theorem idStart_get {s : State} {r : Nat} {fld0 : Fld} {i0 j0 : Nat} (hK : Foot.idStart (notFld fld0) = true)  : (idStart s
    r).get fld0 i0 j0 = s.get fld0 i0 j0 :=
  idStart_closed (P := fun x => x.get fld0 i0 j0 = s.get fld0 i0 j0) (field_closed fld0 i0 j0 _) hK  rfl

def Foot.idRound (K : Part → Bool) : Bool := K (.fld .idCount) && (K (.fld .idReg) && (K (.fld .LN_TRFLAG_BURST) &&
    (Foot.idAbort K && (Foot.idProcessing K && (Foot.idWatching K && (Foot.idStart K))))))

theorem idRound_closed {K : Part → Bool} {P : State → Prop} {s : State} {r : Nat} (hP : Closed K P) (hK : Foot.idRound K =
    true) (hs_s : P s) :
    P (idRound s r) := by
  simp only [Foot.idRound, Bool.and_eq_true] at hK
  obtain ⟨hK0, hK1, hK2, hK3, hK4, hK5, hK6⟩ := hK
  unfold idRound
  with_reducible repeat' first
    | assumption
    | refine idAbort_closed hP ?_ ?_
    | refine idProcessing_closed hP ?_ ?_
    | refine idWatching_closed hP ?_ ?_
    | refine idStart_closed hP ?_ ?_
    | refine hP.put _ _ _ _ _ ?_ ?_
    | refine hP.clear ?_ ?_
    | refine hP.bump ?_ ?_
    | (extract_lets +onlyGivenNames x; apply thenHave (p := P x); (unfold x; clear x); rotate_left 1; (intro hx; clear_value x))
    | (extract_lets +onlyGivenNames x; clear_value x)
    | refine ite_closed ?_ ?_
    | split

theorem idRound_get {s : State} {r : Nat} {fld0 : Fld} {i0 j0 : Nat} (hK : Foot.idRound (notFld fld0) = true)  : (idRound s
    r).get fld0 i0 j0 = s.get fld0 i0 j0 :=
  idRound_closed (P := fun x => x.get fld0 i0 j0 = s.get fld0 i0 j0) (field_closed fld0 i0 j0 _) hK  rfl

def Foot.idTask (K : Part → Bool) : Bool := Foot.idRound K

theorem idTask_closed {K : Part → Bool} {P : State → Prop} {s : State} (hP : Closed K P) (hK : Foot.idTask K = true) (hs_s :
    P s) :
    P (idTask s) := by
  simp only [Foot.idTask, Bool.and_eq_true] at hK
  unfold idTask
  with_reducible repeat' first
    | assumption
    | refine idRound_closed hP ?_ ?_
    | refine Closed.each ?_ _ ?_
    | intro _

theorem idTask_get {s : State} {fld0 : Fld} {i0 j0 : Nat} (hK : Foot.idTask (notFld fld0) = true)  : (idTask s).get fld0 i0
    j0 = s.get fld0 i0 j0 :=
  idTask_closed (P := fun x => x.get fld0 i0 j0 = s.get fld0 i0 j0) (field_closed fld0 i0 j0 _) hK  rfl

def Foot.idWarm (K : Part → Bool) : Bool := K (.fld .idStage) && (Foot.idAbort K && (Foot.setpointWrite K && (Foot.setIdCode
    K)))

theorem idWarm_closed {K : Part → Bool} {P : State → Prop} {s : State} (hP : Closed K P) (hK : Foot.idWarm K = true) (hs_s :
    P s) :
    P (idWarm s) := by
  simp only [Foot.idWarm, Bool.and_eq_true] at hK
  obtain ⟨hK0, hK1, hK2, hK3⟩ := hK
  unfold idWarm
  with_reducible repeat' first
    | assumption
    | refine idAbort_closed hP ?_ ?_
    | refine setpointWrite_closed hP ?_ ?_
    | refine setIdCode_closed hP ?_ ?_
    | refine hP.clear ?_ ?_
    | refine Closed.each ?_ _ ?_
    | intro _
    | refine ite_closed ?_ ?_
    | split

theorem idWarm_get {s : State} {fld0 : Fld} {i0 j0 : Nat} (hK : Foot.idWarm (notFld fld0) = true)  : (idWarm s).get fld0 i0
    j0 = s.get fld0 i0 j0 :=
  idWarm_closed (P := fun x => x.get fld0 i0 j0 = s.get fld0 i0 j0) (field_closed fld0 i0 j0 _) hK  rfl

def Foot.idComplete (K : Part → Bool) : Bool := K (.fld .idFit) && (Foot.idAbort K && (Foot.setIdCode K && (Foot.idRearm K &&
    (Foot.idSlews K))))

theorem idComplete_closed {K : Part → Bool} {P : State → Prop} {s : State} {r : Nat} (hP : Closed K P) (hK : Foot.idComplete
    K = true) (hs_s : P s) :
    P (idComplete s r) := by
  simp only [Foot.idComplete, Bool.and_eq_true] at hK
  obtain ⟨hK0, hK1, hK2, hK3, hK4⟩ := hK
  unfold idComplete
  with_reducible repeat' first
    | assumption
    | refine idAbort_closed hP ?_ ?_
    | refine setIdCode_closed hP ?_ ?_
    | refine idRearm_closed hP ?_ ?_
    | refine idSlews_closed hP ?_ ?_
    | refine hP.put _ _ _ _ _ ?_ ?_
    | refine Closed.each ?_ _ ?_
    | intro _
    | (extract_lets +onlyGivenNames x; apply thenHave (p := P x); (unfold x; clear x); rotate_left 1; (intro hx; clear_value x))
    | (extract_lets +onlyGivenNames x; clear_value x)
    | refine ite_closed ?_ ?_
    | split

theorem idComplete_get {s : State} {r : Nat} {fld0 : Fld} {i0 j0 : Nat} (hK : Foot.idComplete (notFld fld0) = true)  :
    (idComplete s r).get fld0 i0 j0 = s.get fld0 i0 j0 :=
  idComplete_closed (P := fun x => x.get fld0 i0 j0 = s.get fld0 i0 j0) (field_closed fld0 i0 j0 _) hK  rfl

def Foot.idStep (K : Part → Bool) : Bool := K (.fld .idLast) && (K (.fld .idNext) && (Foot.idAbort K && (Foot.setpointWrite K
    && (Foot.idComplete K))))

theorem idStep_closed {K : Part → Bool} {P : State → Prop} {s : State} (hP : Closed K P) (hK : Foot.idStep K = true) (hs_s :
    P s) :
    P (idStep s) := by
  simp only [Foot.idStep, Bool.and_eq_true] at hK
  obtain ⟨hK0, hK1, hK2, hK3, hK4⟩ := hK
  unfold idStep
  with_reducible repeat' first
    | assumption
    | refine idAbort_closed hP ?_ ?_
    | refine setpointWrite_closed hP ?_ ?_
    | refine idComplete_closed hP ?_ ?_
    | refine hP.put _ _ _ _ _ ?_ ?_
    | intro _
    | (extract_lets +onlyGivenNames x; apply thenHave (p := P x); (unfold x; clear x); rotate_left 1; (intro hx; clear_value x))
    | (extract_lets +onlyGivenNames x; clear_value x)
    | refine ite_closed ?_ ?_
    | split

theorem idStep_get {s : State} {fld0 : Fld} {i0 j0 : Nat} (hK : Foot.idStep (notFld fld0) = true)  : (idStep s).get fld0 i0
    j0 = s.get fld0 i0 j0 :=
  idStep_closed (P := fun x => x.get fld0 i0 j0 = s.get fld0 i0 j0) (field_closed fld0 i0 j0 _) hK  rfl

end Sys2Proof.Machine
end

