-- ==== Sys2Proof/Laws/ClosedDitchRider.lean ====
section
/-! SUPPORT. What the functions of Machine/DitchRider.lean can write, and that they keep every closed property (Laws/Closed.lean). -/
namespace Sys2Proof.Machine

set_option Elab.async false
set_option linter.all false

def Foot.cachePut (K : Part → Bool) : Bool := K (.fld .HG_CACHE)

theorem cachePut_closed {K : Part → Bool} {P : State → Prop} {s : State} {r : Nat} {w : Nat} {l : List Int} (hP : Closed K P)
    (hK : Foot.cachePut K = true) (hs_s : P s) :
    P (cachePut s r w l) := by
  simp only [Foot.cachePut, Bool.and_eq_true] at hK
  unfold cachePut
  with_reducible repeat' first
    | assumption
    | refine hP.put _ _ _ _ _ ?_ ?_
    | refine Closed.each ?_ _ ?_
    | intro _

theorem cachePut_get {s : State} {r : Nat} {w : Nat} {l : List Int} {fld0 : Fld} {i0 j0 : Nat} (hK : Foot.cachePut (notFld
    fld0) = true)  : (cachePut s r w l).get fld0 i0 j0 = s.get fld0 i0 j0 :=
  cachePut_closed (P := fun x => x.get fld0 i0 j0 = s.get fld0 i0 j0) (field_closed fld0 i0 j0 _) hK  rfl

def Foot.clearTelemetry (K : Part → Bool) : Bool := (allFld fun f => !(fldIn f .telN .telPn || fldIn f .telAct .telPh) || K
    (.fld f))

theorem clearTelemetry_closed {K : Part → Bool} {P : State → Prop} {s : State} (hP : Closed K P) (hK : Foot.clearTelemetry K
    = true) (hs_s : P s) :
    P (clearTelemetry s) := by
  simp only [Foot.clearTelemetry, Bool.and_eq_true] at hK
  have hK0 := hK
  unfold clearTelemetry
  with_reducible repeat' first
    | assumption
    | refine hP.resetKeys (fun k hk => allFld_imp hK0 hk) ?_
    | intro _

theorem clearTelemetry_get {s : State} {fld0 : Fld} {i0 j0 : Nat} (hK : Foot.clearTelemetry (notFld fld0) = true)  :
    (clearTelemetry s).get fld0 i0 j0 = s.get fld0 i0 j0 :=
  clearTelemetry_closed (P := fun x => x.get fld0 i0 j0 = s.get fld0 i0 j0) (field_closed fld0 i0 j0 _) hK  rfl

def Foot.meanOf (K : Part → Bool) : Bool := K .freeCtr

theorem meanOf_closed {K : Part → Bool} {P : State → Prop} {s : State} {sum : Int} {n : Int} (hP : Closed K P) (hK :
    Foot.meanOf K = true) (hs_s : P s) :
    P (meanOf s sum n).2 := by
  simp only [Foot.meanOf, Bool.and_eq_true] at hK
  unfold meanOf
  with_reducible repeat' first
    | assumption
    | refine hP.fresh ?_ ?_
    | (extract_lets +onlyGivenNames x; apply thenHave (p := P x); (unfold x; clear x); rotate_left 1; (intro hx; clear_value x))
    | (extract_lets +onlyGivenNames x; clear_value x)
    | refine ite_closed ?_ ?_
    | split

def Foot.closeRail (K : Part → Bool) : Bool := Foot.meanOf K && (Foot.cachePut K)

theorem closeRail_closed {K : Part → Bool} {P : State → Prop} {s : State} {r : Nat} (hP : Closed K P) (hK : Foot.closeRail K
    = true) (hs_s : P s) :
    P (closeRail s r) := by
  simp only [Foot.closeRail, Bool.and_eq_true] at hK
  obtain ⟨hK0, hK1⟩ := hK
  unfold closeRail
  with_reducible repeat' first
    | assumption
    | refine meanOf_closed hP ?_ ?_
    | refine cachePut_closed hP ?_ ?_
    | refine Closed.each ?_ _ ?_
    | intro _
    | (extract_lets +onlyGivenNames x; apply thenHave (p := P x); (unfold x; clear x); rotate_left 1; (intro hx; clear_value x))
    | (extract_lets +onlyGivenNames x; clear_value x)

theorem closeRail_get {s : State} {r : Nat} {fld0 : Fld} {i0 j0 : Nat} (hK : Foot.closeRail (notFld fld0) = true)  :
    (closeRail s r).get fld0 i0 j0 = s.get fld0 i0 j0 :=
  closeRail_closed (P := fun x => x.get fld0 i0 j0 = s.get fld0 i0 j0) (field_closed fld0 i0 j0 _) hK  rfl

def Foot.telemetryClose (K : Part → Bool) : Bool := Foot.clearTelemetry K && (Foot.statusUpdate K && (Foot.closeRail K))

theorem telemetryClose_closed {K : Part → Bool} {P : State → Prop} {s : State} (hP : Closed K P) (hK : Foot.telemetryClose K
    = true) (hs_s : P s) :
    P (telemetryClose s) := by
  simp only [Foot.telemetryClose, Bool.and_eq_true] at hK
  obtain ⟨hK0, hK1, hK2⟩ := hK
  unfold telemetryClose
  with_reducible repeat' first
    | assumption
    | refine clearTelemetry_closed hP ?_ ?_
    | refine statusUpdate_closed hP ?_ ?_
    | refine closeRail_closed hP ?_ ?_
    | refine Closed.each ?_ _ ?_
    | intro _

theorem telemetryClose_get {s : State} {fld0 : Fld} {i0 j0 : Nat} (hK : Foot.telemetryClose (notFld fld0) = true)  :
    (telemetryClose s).get fld0 i0 j0 = s.get fld0 i0 j0 :=
  telemetryClose_closed (P := fun x => x.get fld0 i0 j0 = s.get fld0 i0 j0) (field_closed fld0 i0 j0 _) hK  rfl

def Foot.scrubTask (K : Part → Bool) : Bool := K (.fld .scrubLeftW) && (K (.fld .scrubLeftU) && (K (.fld .scrubRounds) && (K
    (.fld .scrubLeftP) && (Foot.scrubNext K))))

theorem scrubTask_closed {K : Part → Bool} {P : State → Prop} {s : State} (hP : Closed K P) (hK : Foot.scrubTask K = true)
    (hs_s : P s) :
    P (scrubTask s) := by
  simp only [Foot.scrubTask, Bool.and_eq_true] at hK
  obtain ⟨hK0, hK1, hK2, hK3, hK4⟩ := hK
  unfold scrubTask
  with_reducible repeat' first
    | assumption
    | refine scrubNext_closed hP ?_ ?_
    | refine hP.put _ _ _ _ _ ?_ ?_
    | refine hP.clear ?_ ?_
    | (extract_lets +onlyGivenNames x; apply thenHave (p := P x); (unfold x; clear x); rotate_left 1; (intro hx; clear_value x))
    | (extract_lets +onlyGivenNames x; clear_value x)
    | refine ite_closed ?_ ?_
    | split

theorem scrubTask_get {s : State} {fld0 : Fld} {i0 j0 : Nat} (hK : Foot.scrubTask (notFld fld0) = true)  : (scrubTask s).get
    fld0 i0 j0 = s.get fld0 i0 j0 :=
  scrubTask_closed (P := fun x => x.get fld0 i0 j0 = s.get fld0 i0 j0) (field_closed fld0 i0 j0 _) hK  rfl

def Foot.rotTask (K : Part → Bool) : Bool := K (.fld .rotTurn) && (Foot.rotationStep K)

theorem rotTask_closed {K : Part → Bool} {P : State → Prop} {s : State} (hP : Closed K P) (hK : Foot.rotTask K = true) (hs_s
    : P s) :
    P (rotTask s) := by
  simp only [Foot.rotTask, Bool.and_eq_true] at hK
  obtain ⟨hK0, hK1⟩ := hK
  unfold rotTask
  with_reducible repeat' first
    | assumption
    | refine rotationStep_closed hP ?_ ?_
    | refine hP.put _ _ _ _ _ ?_ ?_
    | intro _
    | refine ite_closed ?_ ?_
    | split

theorem rotTask_get {s : State} {fld0 : Fld} {i0 j0 : Nat} (hK : Foot.rotTask (notFld fld0) = true)  : (rotTask s).get fld0
    i0 j0 = s.get fld0 i0 j0 :=
  rotTask_closed (P := fun x => x.get fld0 i0 j0 = s.get fld0 i0 j0) (field_closed fld0 i0 j0 _) hK  rfl

def Foot.ditchTask (K : Part → Bool) : Bool := Foot.logTask K && (Foot.scrubTask K && (Foot.rotTask K && (Foot.idTask K)))

theorem ditchTask_closed {K : Part → Bool} {P : State → Prop} {s : State} {n : Nat} (hP : Closed K P) (hK : Foot.ditchTask K
    = true) (hs_s : P s) :
    P (ditchTask s n) := by
  simp only [Foot.ditchTask, Bool.and_eq_true] at hK
  obtain ⟨hK0, hK1, hK2, hK3⟩ := hK
  unfold ditchTask
  with_reducible repeat' first
    | assumption
    | refine logTask_closed hP ?_ ?_
    | refine scrubTask_closed hP ?_ ?_
    | refine rotTask_closed hP ?_ ?_
    | refine idTask_closed hP ?_ ?_
    | split

theorem ditchTask_get {s : State} {n : Nat} {fld0 : Fld} {i0 j0 : Nat} (hK : Foot.ditchTask (notFld fld0) = true)  :
    (ditchTask s n).get fld0 i0 j0 = s.get fld0 i0 j0 :=
  ditchTask_closed (P := fun x => x.get fld0 i0 j0 = s.get fld0 i0 j0) (field_closed fld0 i0 j0 _) hK  rfl

def Foot.ditchRound (K : Part → Bool) : Bool := K .freeCtr && (K .drRoom && (K (.fld .DR_STAT_OVR) && (K (.fld .drFrom) &&
    (Foot.telemetryClose K && (Foot.ditchTask K)))))

theorem ditchRound_closed {K : Part → Bool} {P : State → Prop} {s : State} (hP : Closed K P) (hK : Foot.ditchRound K = true)
    (hs_s : P s) :
    P (ditchRound s) := by
  simp only [Foot.ditchRound, Bool.and_eq_true] at hK
  obtain ⟨hK0, hK1, hK2, hK3, hK4, hK5⟩ := hK
  unfold ditchRound
  with_reducible repeat' first
    | assumption
    | refine telemetryClose_closed hP ?_ ?_
    | refine ditchTask_closed hP ?_ ?_
    | refine hP.put _ _ _ _ _ ?_ ?_
    | refine hP.clear ?_ ?_
    | refine hP.bump ?_ ?_
    | refine Closed.each ?_ _ ?_
    | refine hP.fresh ?_ ?_
    | intro _
    | (extract_lets +onlyGivenNames x; apply thenHave (p := P x); (unfold x; clear x); rotate_left 1; (intro hx; clear_value x))
    | (extract_lets +onlyGivenNames x; clear_value x)
    | refine hP.remake _ _ _ _ _ _ _ _ _ _ _ _ _ _ _ _ _ _ _ _ _ _ _ (hs := ?_); first | assumption | (with_reducible refine telemetryClose_closed hP ?_ ?_) | (with_reducible refine ditchTask_closed hP ?_ ?_) | (with_reducible refine hP.put _ _ _ _ _ ?_ ?_) | (with_reducible refine hP.clear ?_ ?_) | (with_reducible refine hP.raise ?_ ?_) | (with_reducible refine hP.bump ?_ ?_) | (with_reducible refine hP.setBits ?_ ?_) | (with_reducible refine hP.clrBits ?_ ?_) | (with_reducible refine Closed.each ?_ _ ?_) | (with_reducible refine hP.fresh ?_ ?_)
    | refine ite_closed ?_ ?_
    | split

theorem ditchRound_get {s : State} {fld0 : Fld} {i0 j0 : Nat} (hK : Foot.ditchRound (notFld fld0) = true)  : (ditchRound
    s).get fld0 i0 j0 = s.get fld0 i0 j0 :=
  ditchRound_closed (P := fun x => x.get fld0 i0 j0 = s.get fld0 i0 j0) (field_closed fld0 i0 j0 _) hK  rfl

def Foot.ditchWarm (K : Part → Bool) : Bool := Foot.idWarm K && (Foot.clearTelemetry K)

theorem ditchWarm_closed {K : Part → Bool} {P : State → Prop} {s : State} (hP : Closed K P) (hK : Foot.ditchWarm K = true)
    (hs_s : P s) :
    P (ditchWarm s) := by
  simp only [Foot.ditchWarm, Bool.and_eq_true] at hK
  obtain ⟨hK0, hK1⟩ := hK
  unfold ditchWarm
  with_reducible repeat' first
    | assumption
    | refine idWarm_closed hP ?_ ?_
    | refine clearTelemetry_closed hP ?_ ?_

theorem ditchWarm_get {s : State} {fld0 : Fld} {i0 j0 : Nat} (hK : Foot.ditchWarm (notFld fld0) = true)  : (ditchWarm s).get
    fld0 i0 j0 = s.get fld0 i0 j0 :=
  ditchWarm_closed (P := fun x => x.get fld0 i0 j0 = s.get fld0 i0 j0) (field_closed fld0 i0 j0 _) hK  rfl

def Foot.sampleRail (K : Part → Bool) : Bool := K (.fld .telI) && (K (.fld .telV) && (K (.fld .telAct) && (K (.fld .telVmax)
    && (K (.fld .telVmin) && (K (.fld .telP) && (K (.fld .telImax) && (K (.fld .idReg))))))))

theorem sampleRail_closed {K : Part → Bool} {P : State → Prop} {s : State} {r : Nat} (hP : Closed K P) (hK : Foot.sampleRail
    K = true) (hs_s : P s) :
    P (sampleRail s r) := by
  simp only [Foot.sampleRail, Bool.and_eq_true] at hK
  obtain ⟨hK0, hK1, hK2, hK3, hK4, hK5, hK6, hK7⟩ := hK
  unfold sampleRail
  with_reducible repeat' first
    | assumption
    | refine hP.put _ _ _ _ _ ?_ ?_
    | refine hP.clear ?_ ?_
    | (extract_lets +onlyGivenNames x; apply thenHave (p := P x); (unfold x; clear x); rotate_left 1; (intro hx; clear_value x))
    | (extract_lets +onlyGivenNames x; clear_value x)
    | refine ite_closed ?_ ?_
    | split

theorem sampleRail_get {s : State} {r : Nat} {fld0 : Fld} {i0 j0 : Nat} (hK : Foot.sampleRail (notFld fld0) = true)  :
    (sampleRail s r).get fld0 i0 j0 = s.get fld0 i0 j0 :=
  sampleRail_closed (P := fun x => x.get fld0 i0 j0 = s.get fld0 i0 j0) (field_closed fld0 i0 j0 _) hK  rfl

def Foot.telemetrySample (K : Part → Bool) : Bool := K (.fld .telAll) && (K (.fld .telN) && (K (.fld .telPh) && (K (.fld
    .telPn) && (Foot.sampleRail K))))

theorem telemetrySample_closed {K : Part → Bool} {P : State → Prop} {s : State} (hP : Closed K P) (hK : Foot.telemetrySample
    K = true) (hs_s : P s) :
    P (telemetrySample s) := by
  simp only [Foot.telemetrySample, Bool.and_eq_true] at hK
  obtain ⟨hK0, hK1, hK2, hK3, hK4⟩ := hK
  unfold telemetrySample
  with_reducible repeat' first
    | assumption
    | refine sampleRail_closed hP ?_ ?_
    | refine hP.put _ _ _ _ _ ?_ ?_
    | refine Closed.each ?_ _ ?_
    | intro _
    | (extract_lets +onlyGivenNames x; apply thenHave (p := P x); (unfold x; clear x); rotate_left 1; (intro hx; clear_value x))
    | (extract_lets +onlyGivenNames x; clear_value x)
    | refine ite_closed ?_ ?_
    | split

theorem telemetrySample_get {s : State} {fld0 : Fld} {i0 j0 : Nat} (hK : Foot.telemetrySample (notFld fld0) = true)  :
    (telemetrySample s).get fld0 i0 j0 = s.get fld0 i0 j0 :=
  telemetrySample_closed (P := fun x => x.get fld0 i0 j0 = s.get fld0 i0 j0) (field_closed fld0 i0 j0 _) hK  rfl

end Sys2Proof.Machine
end

