-- ==== Sys2Proof/Laws/ClosedImages.lean ====
section
/-! SUPPORT. What the functions of Machine/Images.lean can write, and that they keep every closed property (Laws/Closed.lean). -/
namespace Sys2Proof.Machine

set_option Elab.async false
set_option linter.all false

def Foot.goWrite (K : Part → Bool) : Bool := K (.fld .goDue) && (K (.fld .IM_ERR_GOERR))

theorem goWrite_closed {K : Part → Bool} {P : State → Prop} {s : State} (hP : Closed K P) (hK : Foot.goWrite K = true) (hs_s
    : P s) :
    P (goWrite s) := by
  simp only [Foot.goWrite, Bool.and_eq_true] at hK
  obtain ⟨hK0, hK1⟩ := hK
  unfold goWrite
  with_reducible repeat' first
    | assumption
    | refine hP.raise ?_ ?_
    | refine ite_closed ?_ ?_
    | split

theorem goWrite_get {s : State} {fld0 : Fld} {i0 j0 : Nat} (hK : Foot.goWrite (notFld fld0) = true)  : (goWrite s).get fld0
    i0 j0 = s.get fld0 i0 j0 :=
  goWrite_closed (P := fun x => x.get fld0 i0 j0 = s.get fld0 i0 j0) (field_closed fld0 i0 j0 _) hK  rfl

def Foot.slWrite (K : Part → Bool) : Bool := K (.fld .IM_ERR_SLERR) && (K (.fld .perNext) && (K (.fld .WP_RSTAT_RLEFT) && (K
    (.fld .pmbNom) && (K (.fld .imgVset) && (Foot.reportIllegal K && (Foot.rankAll K && ((allFld fun f => K (.fld f)))))))))

theorem slWrite_closed {K : Part → Bool} {P : State → Prop} {s : State} {a : Nat} {v : Int} (hP : Closed K P) (hK :
    Foot.slWrite K = true) (hs_s : P s) :
    P (slWrite s a v) := by
  simp only [Foot.slWrite, Bool.and_eq_true] at hK
  obtain ⟨hK0, hK1, hK2, hK3, hK4, hK5, hK6, hK7⟩ := hK
  unfold slWrite
  with_reducible repeat' first
    | assumption
    | refine allFld_fld ?_ _
    | refine reportIllegal_closed hP ?_ ?_
    | refine rankAll_closed hP ?_ ?_
    | refine hP.put _ _ _ _ _ ?_ ?_
    | refine hP.raise ?_ ?_
    | refine Closed.each ?_ _ ?_
    | refine Closed.when ?_ ?_
    | intro _
    | (extract_lets +onlyGivenNames x; apply thenHave (p := P x); (unfold x; clear x); rotate_left 1; (intro hx; clear_value x))
    | (extract_lets +onlyGivenNames x; clear_value x)
    | refine ite_closed ?_ ?_
    | split

theorem slWrite_get {s : State} {a : Nat} {v : Int} {fld0 : Fld} {i0 j0 : Nat} (hK : Foot.slWrite (notFld fld0) = true)  :
    (slWrite s a v).get fld0 i0 j0 = s.get fld0 i0 j0 :=
  slWrite_closed (P := fun x => x.get fld0 i0 j0 = s.get fld0 i0 j0) (field_closed fld0 i0 j0 _) hK  rfl

def Foot.rsDoneWrite (K : Part → Bool) : Bool := K (.fld .rsDone) && (K (.fld .IM_ERR_RSERR))

theorem rsDoneWrite_closed {K : Part → Bool} {P : State → Prop} {s : State} {mask : Int} (hP : Closed K P) (hK :
    Foot.rsDoneWrite K = true) (hs_s : P s) :
    P (rsDoneWrite s mask) := by
  simp only [Foot.rsDoneWrite, Bool.and_eq_true] at hK
  obtain ⟨hK0, hK1⟩ := hK
  unfold rsDoneWrite
  with_reducible repeat' first
    | assumption
    | refine hP.put _ _ _ _ _ ?_ ?_
    | refine hP.raise ?_ ?_
    | refine Closed.each ?_ _ ?_
    | intro _
    | refine ite_closed ?_ ?_
    | split

theorem rsDoneWrite_get {s : State} {mask : Int} {fld0 : Fld} {i0 j0 : Nat} (hK : Foot.rsDoneWrite (notFld fld0) = true)  :
    (rsDoneWrite s mask).get fld0 i0 j0 = s.get fld0 i0 j0 :=
  rsDoneWrite_closed (P := fun x => x.get fld0 i0 j0 = s.get fld0 i0 j0) (field_closed fld0 i0 j0 _) hK  rfl

def Foot.armTrial (K : Part → Bool) : Bool := K (.fld .trialEnd) && (K (.fld .IM_TRIAL_RUN))

theorem armTrial_closed {K : Part → Bool} {P : State → Prop} {s : State} {base : Nat} {sl : Nat} (hP : Closed K P) (hK :
    Foot.armTrial K = true) (hs_s : P s) :
    P (armTrial s base sl) := by
  simp only [Foot.armTrial, Bool.and_eq_true] at hK
  obtain ⟨hK0, hK1⟩ := hK
  unfold armTrial
  with_reducible repeat' first
    | assumption
    | refine hP.put _ _ _ _ _ ?_ ?_
    | refine hP.raise ?_ ?_
    | (extract_lets +onlyGivenNames x; apply thenHave (p := P x); (unfold x; clear x); rotate_left 1; (intro hx; clear_value x))
    | (extract_lets +onlyGivenNames x; clear_value x)
    | refine ite_closed ?_ ?_
    | split

theorem armTrial_get {s : State} {base : Nat} {sl : Nat} {fld0 : Fld} {i0 j0 : Nat} (hK : Foot.armTrial (notFld fld0) = true)
     : (armTrial s base sl).get fld0 i0 j0 = s.get fld0 i0 j0 :=
  armTrial_closed (P := fun x => x.get fld0 i0 j0 = s.get fld0 i0 j0) (field_closed fld0 i0 j0 _) hK  rfl

def Foot.attest (K : Part → Bool) : Bool := K (.fld .attPend) && (Foot.snapStart K)

theorem attest_closed {K : Part → Bool} {P : State → Prop} {s : State} (hP : Closed K P) (hK : Foot.attest K = true) (hs_s :
    P s) :
    P (attest s) := by
  simp only [Foot.attest, Bool.and_eq_true] at hK
  obtain ⟨hK0, hK1⟩ := hK
  unfold attest
  with_reducible repeat' first
    | assumption
    | refine snapStart_closed hP ?_ ?_
    | refine hP.raise ?_ ?_
    | refine ite_closed ?_ ?_
    | split

theorem attest_get {s : State} {fld0 : Fld} {i0 j0 : Nat} (hK : Foot.attest (notFld fld0) = true)  : (attest s).get fld0 i0
    j0 = s.get fld0 i0 j0 :=
  attest_closed (P := fun x => x.get fld0 i0 j0 = s.get fld0 i0 j0) (field_closed fld0 i0 j0 _) hK  rfl

def Foot.putKindBit (K : Part → Bool) : Bool := true

theorem putKindBit_closed {K : Part → Bool} {P : State → Prop} {s : State} {f : Fld} {k : Nat} {b : Bool} (hP : Closed K P)
    (hK : Foot.putKindBit K = true) (hK_f : K (.fld f) = true) (hs_s : P s) :
    P (putKindBit s f k b) := by
  unfold putKindBit
  with_reducible repeat' first
    | assumption
    | refine hP.setBits ?_ ?_
    | refine hP.clrBits ?_ ?_
    | refine ite_closed ?_ ?_
    | split

theorem putKindBit_get {s : State} {f : Fld} {k : Nat} {b : Bool} {fld0 : Fld} {i0 j0 : Nat} (hK : Foot.putKindBit (notFld
    fld0) = true) (hg_f : (decide (f = fld0)) = false) : (putKindBit s f k b).get fld0 i0 j0 = s.get fld0 i0 j0 :=
  putKindBit_closed (P := fun x => x.get fld0 i0 j0 = s.get fld0 i0 j0) (field_closed fld0 i0 j0 _) hK (notFld_true hg_f) rfl

def Foot.putDigest (K : Part → Bool) : Bool := K .digests

theorem putDigest_closed {K : Part → Bool} {P : State → Prop} {s : State} {n : Nat} {d : List Byte} (hP : Closed K P) (hK :
    Foot.putDigest K = true) (hs_s : P s) :
    P (putDigest s n d) := by
  simp only [Foot.putDigest, Bool.and_eq_true] at hK
  unfold putDigest
  with_reducible repeat' first
    | assumption
    | intro _
    | refine hP.remake _ _ _ _ _ _ _ _ _ _ _ _ _ _ _ _ _ _ _ _ _ _ _ (hs := ?_); first | assumption
    | refine ite_closed ?_ ?_
    | split

theorem putDigest_get {s : State} {n : Nat} {d : List Byte} {fld0 : Fld} {i0 j0 : Nat} (hK : Foot.putDigest (notFld fld0) =
    true)  : (putDigest s n d).get fld0 i0 j0 = s.get fld0 i0 j0 :=
  putDigest_closed (P := fun x => x.get fld0 i0 j0 = s.get fld0 i0 j0) (field_closed fld0 i0 j0 _) hK  rfl

def Foot.bringInForce (K : Part → Bool) : Bool := K (.fld .imgVer) && (Foot.putKindBit K && (Foot.putDigest K && (K (.fld
    .IM_STATE_SLOT) && (K (.fld .IM_STATE_FALLBK)))))

theorem bringInForce_closed {K : Part → Bool} {P : State → Prop} {s : State} {base : Nat} {k : Nat} {sl : Nat} {m : Image}
    (hP : Closed K P) (hK : Foot.bringInForce K = true) (hs_s : P s) :
    P (bringInForce s base k sl m) := by
  simp only [Foot.bringInForce, Bool.and_eq_true] at hK
  obtain ⟨hK0, hK1, hK2, hK3, hK4⟩ := hK
  unfold bringInForce
  with_reducible repeat' first
    | assumption
    | refine putKindBit_closed hP ?_ ?_ ?_
    | refine putDigest_closed hP ?_ ?_
    | refine hP.put _ _ _ _ _ ?_ ?_
    | (extract_lets +onlyGivenNames x; apply thenHave (p := P x); (unfold x; clear x); rotate_left 1; (intro hx; clear_value x))
    | (extract_lets +onlyGivenNames x; clear_value x)

theorem bringInForce_get {s : State} {base : Nat} {k : Nat} {sl : Nat} {m : Image} {fld0 : Fld} {i0 j0 : Nat} (hK :
    Foot.bringInForce (notFld fld0) = true)  : (bringInForce s base k sl m).get fld0 i0 j0 = s.get fld0 i0 j0 :=
  bringInForce_closed (P := fun x => x.get fld0 i0 j0 = s.get fld0 i0 j0) (field_closed fld0 i0 j0 _) hK  rfl

def Foot.fitFlash (K : Part → Bool) : Bool := K (.fld .flashRo) && (K (.fld .flashSize) && (K .flash))

theorem fitFlash_closed {K : Part → Bool} {P : State → Prop} {s : State} {inp : StartInput} (hP : Closed K P) (hK :
    Foot.fitFlash K = true) (hs_s : P s) :
    P (fitFlash s inp) := by
  simp only [Foot.fitFlash, Bool.and_eq_true] at hK
  obtain ⟨hK0, hK1, hK2⟩ := hK
  unfold fitFlash
  with_reducible repeat' first
    | assumption
    | refine hP.put _ _ _ _ _ ?_ ?_
    | refine hP.flashNew _ _ ?_ (fitted_wf _) ?_
    | intro _
    | (extract_lets +onlyGivenNames x; apply thenHave (p := P x); (unfold x; clear x); rotate_left 1; (intro hx; clear_value x))
    | (extract_lets +onlyGivenNames x; clear_value x)
    | refine hP.remake _ _ _ _ _ _ _ _ _ _ _ _ _ _ _ _ _ _ _ _ _ _ _ (hs := ?_); first | assumption | (with_reducible refine hP.put _ _ _ _ _ ?_ ?_) | (with_reducible refine hP.clear ?_ ?_) | (with_reducible refine hP.raise ?_ ?_) | (with_reducible refine hP.bump ?_ ?_) | (with_reducible refine hP.setBits ?_ ?_) | (with_reducible refine hP.clrBits ?_ ?_)
    | split

theorem fitFlash_get {s : State} {inp : StartInput} {fld0 : Fld} {i0 j0 : Nat} (hK : Foot.fitFlash (notFld fld0) = true)  :
    (fitFlash s inp).get fld0 i0 j0 = s.get fld0 i0 j0 :=
  fitFlash_closed (P := fun x => x.get fld0 i0 j0 = s.get fld0 i0 j0) (field_closed fld0 i0 j0 _) hK  rfl

def Foot.tryKind (K : Part → Bool) : Bool := Foot.putResult K

theorem tryKind_closed {K : Part → Bool} {P : State → Prop} {s : State} {base : Nat} {k : Nat} {y3 : List Nat} (hP : Closed K
    P) (hK : Foot.tryKind K = true) (hs_s : P s) :
    P (tryKind s base k y3).1 := by
  simp only [Foot.tryKind, Bool.and_eq_true] at hK
  induction y3 generalizing s with
  | nil =>
    unfold tryKind
    with_reducible repeat' first
      | assumption
      | refine putResult_closed hP ?_ ?_
      | (extract_lets +onlyGivenNames x; apply thenHave (p := P x); (unfold x; clear x); rotate_left 1; (intro hx; clear_value x))
      | (extract_lets +onlyGivenNames x; clear_value x)
      | refine ite_closed ?_ ?_
      | split
  | cons p rest ih =>
    unfold tryKind
    with_reducible repeat' first
      | (with_reducible refine ih ?_)
      | assumption
      | refine putResult_closed hP ?_ ?_
      | (extract_lets +onlyGivenNames x; apply thenHave (p := P x); (unfold x; clear x); rotate_left 1; (intro hx; clear_value x))
      | (extract_lets +onlyGivenNames x; clear_value x)
      | refine ite_closed ?_ ?_
      | split

def Foot.startKind (K : Part → Bool) : Bool := Foot.tryKind K

theorem startKind_closed {K : Part → Bool} {P : State → Prop} {s : State} {base : Nat} {k : Nat} (hP : Closed K P) (hK :
    Foot.startKind K = true) (hs_s : P s) :
    P (startKind s base k).1 := by
  simp only [Foot.startKind, Bool.and_eq_true] at hK
  unfold startKind
  with_reducible repeat' first
    | assumption
    | refine tryKind_closed hP ?_ ?_
    | (extract_lets +onlyGivenNames x; apply thenHave (p := P x); (unfold x; clear x); rotate_left 1; (intro hx; clear_value x))
    | (extract_lets +onlyGivenNames x; clear_value x)

def Foot.loadMicrocode (K : Part → Bool) : Bool := K (.fld .UC_DEC_VALID) && (K (.fld .UC_DEC_PAGE) && (K (.fld
    .UC_DEC_START) && (K (.fld .UC_DEC_PRIV) && (K (.fld .UC_DEC_MCONLY) && (K (.fld .decPend) && (K (.fld .decCopy) &&
    (Foot.storeMicroword K)))))))

theorem loadMicrocode_closed {K : Part → Bool} {P : State → Prop} {s : State} {body : List Byte} (hP : Closed K P) (hK :
    Foot.loadMicrocode K = true) (hs_s : P s) :
    P (loadMicrocode s body) := by
  simp only [Foot.loadMicrocode, Bool.and_eq_true] at hK
  obtain ⟨hK0, hK1, hK2, hK3, hK4, hK5, hK6, hK7⟩ := hK
  unfold loadMicrocode
  with_reducible repeat' first
    | assumption
    | refine storeMicroword_closed hP ?_ ?_
    | refine hP.put _ _ _ _ _ ?_ ?_
    | refine hP.clear ?_ ?_
    | refine Closed.each ?_ _ ?_
    | intro _
    | (extract_lets +onlyGivenNames x; apply thenHave (p := P x); (unfold x; clear x); rotate_left 1; (intro hx; clear_value x))
    | (extract_lets +onlyGivenNames x; clear_value x)

theorem loadMicrocode_get {s : State} {body : List Byte} {fld0 : Fld} {i0 j0 : Nat} (hK : Foot.loadMicrocode (notFld fld0) =
    true)  : (loadMicrocode s body).get fld0 i0 j0 = s.get fld0 i0 j0 :=
  loadMicrocode_closed (P := fun x => x.get fld0 i0 j0 = s.get fld0 i0 j0) (field_closed fld0 i0 j0 _) hK  rfl

def Foot.putWords (K : Part → Bool) : Bool := Foot.State.storeFresh K

theorem putWords_closed {K : Part → Bool} {P : State → Prop} {s : State} {a : Nat} {l : List W16} (hP : Closed K P) (hK :
    Foot.putWords K = true) (hs_s : P s) :
    P (putWords s a l) := by
  simp only [Foot.putWords, Bool.and_eq_true] at hK
  unfold putWords
  with_reducible repeat' first
    | assumption
    | refine State.storeFresh_closed hP ?_ ?_
    | refine Closed.each ?_ _ ?_
    | intro _

theorem putWords_get {s : State} {a : Nat} {l : List W16} {fld0 : Fld} {i0 j0 : Nat} (hK : Foot.putWords (notFld fld0) =
    true)  : (putWords s a l).get fld0 i0 j0 = s.get fld0 i0 j0 :=
  putWords_closed (P := fun x => x.get fld0 i0 j0 = s.get fld0 i0 j0) (field_closed fld0 i0 j0 _) hK  rfl

def Foot.loadFirmware (K : Part → Bool) : Bool := K (.fld .coreOn) && (Foot.putWords K && (Foot.setPc K))

theorem loadFirmware_closed {K : Part → Bool} {P : State → Prop} {s : State} {m : Image} (hP : Closed K P) (hK :
    Foot.loadFirmware K = true) (hs_s : P s) :
    P (loadFirmware s m) := by
  simp only [Foot.loadFirmware, Bool.and_eq_true] at hK
  obtain ⟨hK0, hK1, hK2⟩ := hK
  unfold loadFirmware
  with_reducible repeat' first
    | assumption
    | refine putWords_closed hP ?_ ?_
    | refine setPc_closed hP ?_ ?_
    | refine hP.raise ?_ ?_
    | (extract_lets +onlyGivenNames x; apply thenHave (p := P x); (unfold x; clear x); rotate_left 1; (intro hx; clear_value x))
    | (extract_lets +onlyGivenNames x; clear_value x)

theorem loadFirmware_get {s : State} {m : Image} {fld0 : Fld} {i0 j0 : Nat} (hK : Foot.loadFirmware (notFld fld0) = true)  :
    (loadFirmware s m).get fld0 i0 j0 = s.get fld0 i0 j0 :=
  loadFirmware_closed (P := fun x => x.get fld0 i0 j0 = s.get fld0 i0 j0) (field_closed fld0 i0 j0 _) hK  rfl

def Foot.loadExt (K : Part → Bool) : Bool := Foot.putWords K

theorem loadExt_closed {K : Part → Bool} {P : State → Prop} {s : State} {recs : List ImgRec} (hP : Closed K P) (hK :
    Foot.loadExt K = true) (hs_s : P s) :
    P (loadExt s recs) := by
  simp only [Foot.loadExt, Bool.and_eq_true] at hK
  unfold loadExt
  with_reducible repeat' first
    | assumption
    | refine putWords_closed hP ?_ ?_
    | refine Closed.each ?_ _ ?_
    | intro _

theorem loadExt_get {s : State} {recs : List ImgRec} {fld0 : Fld} {i0 j0 : Nat} (hK : Foot.loadExt (notFld fld0) = true)  :
    (loadExt s recs).get fld0 i0 j0 = s.get fld0 i0 j0 :=
  loadExt_closed (P := fun x => x.get fld0 i0 j0 = s.get fld0 i0 j0) (field_closed fld0 i0 j0 _) hK  rfl

def Foot.loadHidden (K : Part → Bool) : Bool := K (.fld .domSet) && (K (.fld .hgEvents) && (K (.fld .hgRails) && (K (.fld
    .hgClass) && (K (.fld .perNext) && (K (.fld .pmbNom) && (K (.fld .imgVset) && (K (.fld .istart) && (K (.fld .idStg) && (K
    (.fld .sampleTimer) && (K (.fld .pmbWp) && (K (.fld .vinDefault))))))))))))

theorem loadHidden_closed {K : Part → Bool} {P : State → Prop} {s : State} {body : List Byte} (hP : Closed K P) (hK :
    Foot.loadHidden K = true) (hs_s : P s) :
    P (loadHidden s body) := by
  simp only [Foot.loadHidden, Bool.and_eq_true] at hK
  obtain ⟨hK0, hK1, hK2, hK3, hK4, hK5, hK6, hK7, hK8, hK9, hK10, hK11⟩ := hK
  unfold loadHidden
  with_reducible repeat' first
    | assumption
    | refine hP.put _ _ _ _ _ ?_ ?_
    | refine Closed.each ?_ _ ?_
    | intro _
    | (extract_lets +onlyGivenNames x; apply thenHave (p := P x); (unfold x; clear x); rotate_left 1; (intro hx; clear_value x))
    | (extract_lets +onlyGivenNames x; clear_value x)

theorem loadHidden_get {s : State} {body : List Byte} {fld0 : Fld} {i0 j0 : Nat} (hK : Foot.loadHidden (notFld fld0) = true) 
    : (loadHidden s body).get fld0 i0 j0 = s.get fld0 i0 j0 :=
  loadHidden_closed (P := fun x => x.get fld0 i0 j0 = s.get fld0 i0 j0) (field_closed fld0 i0 j0 _) hK  rfl

def Foot.loadDuties (K : Part → Bool) : Bool := K (.fld .dutyPair)

theorem loadDuties_closed {K : Part → Bool} {P : State → Prop} {s : State} (hP : Closed K P) (hK : Foot.loadDuties K = true)
    (hs_s : P s) :
    P (loadDuties s) := by
  simp only [Foot.loadDuties, Bool.and_eq_true] at hK
  unfold loadDuties
  with_reducible repeat' first
    | assumption
    | refine hP.put _ _ _ _ _ ?_ ?_
    | refine Closed.each ?_ _ ?_
    | intro _

theorem loadDuties_get {s : State} {fld0 : Fld} {i0 j0 : Nat} (hK : Foot.loadDuties (notFld fld0) = true)  : (loadDuties
    s).get fld0 i0 j0 = s.get fld0 i0 j0 :=
  loadDuties_closed (P := fun x => x.get fld0 i0 j0 = s.get fld0 i0 j0) (field_closed fld0 i0 j0 _) hK  rfl

def Foot.startStep4 (K : Part → Bool) : Bool := K .bounds && (K .irqLines && (K (.fld .weirsOn) && (K (.fld .sluiceOn) && (K
    (.fld .flumeFrom) && (K (.fld .flumeOn) && (Foot.loadExt K && (Foot.loadFields K && (Foot.loadHidden K &&
    (Foot.keepWindow K && (Foot.loadDuties K && (Foot.trainingDone K)))))))))))

theorem startStep4_closed {K : Part → Bool} {P : State → Prop} {s : State} {m : Image} {p : Fld → Bool} (hP : Closed K P) (hK
    : Foot.startStep4 K = true) (hs_s : P s) :
    P (startStep4 s m p) := by
  simp only [Foot.startStep4, Bool.and_eq_true] at hK
  obtain ⟨hK0, hK1, hK2, hK3, hK4, hK5, hK6, hK7, hK8, hK9, hK10, hK11⟩ := hK
  unfold startStep4
  with_reducible repeat' first
    | assumption
    | refine loadExt_closed hP ?_ ?_
    | refine loadFields_closed hP ?_ ?_
    | refine loadHidden_closed hP ?_ ?_
    | refine keepWindow_closed hP ?_ ?_
    | refine loadDuties_closed hP ?_ ?_
    | refine trainingDone_closed hP ?_ ?_
    | refine hP.put _ _ _ _ _ ?_ ?_
    | refine hP.clear ?_ ?_
    | refine hP.raise ?_ ?_
    | refine hP.bump ?_ ?_
    | refine hP.setBits ?_ ?_
    | refine hP.clrBits ?_ ?_
    | refine Closed.each ?_ _ ?_
    | intro _
    | (extract_lets +onlyGivenNames x; apply thenHave (p := P x); (unfold x; clear x); rotate_left 1; (intro hx; clear_value x))
    | (extract_lets +onlyGivenNames x; clear_value x)
    | (extract_lets +onlyGivenNames x)
    | refine hP.remake _ _ _ _ _ _ _ _ _ _ _ _ _ _ _ _ _ _ _ _ _ _ _ (hs := ?_); first | assumption | (with_reducible refine loadExt_closed hP ?_ ?_) | (with_reducible refine loadFields_closed hP ?_ ?_) | (with_reducible refine loadHidden_closed hP ?_ ?_) | (with_reducible refine keepWindow_closed hP ?_ ?_) | (with_reducible refine loadDuties_closed hP ?_ ?_) | (with_reducible refine trainingDone_closed hP ?_ ?_) | (with_reducible refine hP.put _ _ _ _ _ ?_ ?_) | (with_reducible refine hP.clear ?_ ?_) | (with_reducible refine hP.raise ?_ ?_) | (with_reducible refine hP.bump ?_ ?_) | (with_reducible refine hP.setBits ?_ ?_) | (with_reducible refine hP.clrBits ?_ ?_) | (with_reducible refine Closed.each ?_ _ ?_)
    | refine ite_closed ?_ ?_
    | split

def Foot.startLocks (K : Part → Bool) : Bool := K (.fld .XC_MPUCTL_EN) && (K (.fld .XC_CTRL_LOCK) && (Foot.loadExtra K &&
    (Foot.keepTaken K && (Foot.unverifiedDuties K))))

theorem startLocks_closed {K : Part → Bool} {P : State → Prop} {s : State} {m : Image} {p : Fld → Bool} (hP : Closed K P) (hK
    : Foot.startLocks K = true) (hs_s : P s) :
    P (startLocks s m p) := by
  simp only [Foot.startLocks, Bool.and_eq_true] at hK
  obtain ⟨hK0, hK1, hK2, hK3, hK4⟩ := hK
  unfold startLocks
  with_reducible repeat' first
    | assumption
    | refine loadExtra_closed hP ?_ ?_
    | refine keepTaken_closed hP ?_ ?_
    | refine unverifiedDuties_closed hP ?_ ?_
    | refine hP.raise ?_ ?_
    | refine Closed.each ?_ _ ?_
    | refine Closed.when ?_ ?_
    | intro _
    | (extract_lets +onlyGivenNames x; apply thenHave (p := P x); (unfold x; clear x); rotate_left 1; (intro hx; clear_value x))
    | (extract_lets +onlyGivenNames x; clear_value x)

def Foot.logLocks (K : Part → Bool) : Bool := K (.fld .D4_CTRL_LOCK) && (K (.fld .PH_CTRL_LOCK))

theorem logLocks_closed {K : Part → Bool} {P : State → Prop} {s : State} (hP : Closed K P) (hK : Foot.logLocks K = true)
    (hs_s : P s) :
    P (logLocks s) := by
  simp only [Foot.logLocks, Bool.and_eq_true] at hK
  obtain ⟨hK0, hK1⟩ := hK
  unfold logLocks
  with_reducible repeat' first
    | assumption
    | refine hP.raise ?_ ?_

theorem logLocks_get {s : State} {fld0 : Fld} {i0 j0 : Nat} (hK : Foot.logLocks (notFld fld0) = true)  : (logLocks s).get
    fld0 i0 j0 = s.get fld0 i0 j0 :=
  logLocks_closed (P := fun x => x.get fld0 i0 j0 = s.get fld0 i0 j0) (field_closed fld0 i0 j0 _) hK  rfl

def Foot.loadPrograms (K : Part → Bool) : Bool := K (.fld .PW_TCSTART) && (Foot.putWords K)

theorem loadPrograms_closed {K : Part → Bool} {P : State → Prop} {s : State} {m : Image} (hP : Closed K P) (hK :
    Foot.loadPrograms K = true) (hs_s : P s) :
    P (loadPrograms s m) := by
  simp only [Foot.loadPrograms, Bool.and_eq_true] at hK
  obtain ⟨hK0, hK1⟩ := hK
  unfold loadPrograms
  with_reducible repeat' first
    | assumption
    | refine putWords_closed hP ?_ ?_
    | refine hP.put _ _ _ _ _ ?_ ?_
    | refine Closed.each ?_ _ ?_
    | intro _

theorem loadPrograms_get {s : State} {m : Image} {fld0 : Fld} {i0 j0 : Nat} (hK : Foot.loadPrograms (notFld fld0) = true)  :
    (loadPrograms s m).get fld0 i0 j0 = s.get fld0 i0 j0 :=
  loadPrograms_closed (P := fun x => x.get fld0 i0 j0 = s.get fld0 i0 j0) (field_closed fld0 i0 j0 _) hK  rfl

def Foot.runStart (K : Part → Bool) : Bool := K .digests && (K (.fld .IM_STATE_PROV) && (K (.fld .IM_STATE_STEP) && (K (.fld
    .IM_STATE_NOFW) && (K (.fld .UC_CTRL_VLOCK) && (K (.fld .IM_STATE_NOCM) && (K (.fld .IM_STATE_NOSI) && (K (.fld .ckDue)
    && (Foot.startKind K && (Foot.bringInForce K && (Foot.loadMicrocode K && (Foot.armTrial K && (Foot.loadFirmware K &&
    (Foot.startStep4 K && (Foot.startLocks K && (Foot.logLocks K && (Foot.restoreLog K && (Foot.releaseTicks K &&
    (Foot.loadPrograms K))))))))))))))))))

theorem runStart_closed {K : Part → Bool} {P : State → Prop} {s : State} {p : Fld → Bool} {restore : Bool} (hP : Closed K P)
    (hK : Foot.runStart K = true) (hs_s : P s) :
    P (runStart s p restore) := by
  simp only [Foot.runStart, Bool.and_eq_true] at hK
  obtain ⟨hK0, hK1, hK2, hK3, hK4, hK5, hK6, hK7, hK8, hK9, hK10, hK11, hK12, hK13, hK14, hK15, hK16, hK17, hK18⟩ := hK
  unfold runStart
  with_reducible repeat' first
    | assumption
    | refine startKind_closed hP ?_ ?_
    | refine bringInForce_closed hP ?_ ?_
    | refine loadMicrocode_closed hP ?_ ?_
    | refine armTrial_closed hP ?_ ?_
    | refine loadFirmware_closed hP ?_ ?_
    | refine startStep4_closed hP ?_ ?_
    | refine startLocks_closed hP ?_ ?_
    | refine logLocks_closed hP ?_ ?_
    | refine restoreLog_closed hP ?_ ?_
    | refine releaseTicks_closed hP ?_ ?_
    | refine loadPrograms_closed hP ?_ ?_
    | refine hP.put _ _ _ _ _ ?_ ?_
    | refine hP.clear ?_ ?_
    | refine hP.raise ?_ ?_
    | refine hP.bump ?_ ?_
    | refine hP.setBits ?_ ?_
    | refine hP.clrBits ?_ ?_
    | (dsimp -zeta only)
    | refine of_snd (by assumption) ?_
    | refine of_fst (by assumption) ?_
    | refine of_mid (by assumption) ?_
    | refine of_trd (by assumption) ?_
    | refine of_fth (by assumption) ?_
    | intro _
    | (extract_lets +onlyGivenNames x; apply thenHave (p := P x); (unfold x; clear x); rotate_left 1; (intro hx; clear_value x))
    | (extract_lets +onlyGivenNames x; apply thenHave (p := P x.2); (unfold x; clear x); rotate_left 1; (intro hx; clear_value x))
    | (extract_lets +onlyGivenNames x; apply thenHave (p := P x.1); (unfold x; clear x); rotate_left 1; (intro hx; clear_value x))
    | (extract_lets +onlyGivenNames x; apply thenHave (p := P x.2.1); (unfold x; clear x); rotate_left 1; (intro hx; clear_value x))
    | (extract_lets +onlyGivenNames x; apply thenHave (p := P x.2.2); (unfold x; clear x); rotate_left 1; (intro hx; clear_value x))
    | (extract_lets +onlyGivenNames x; clear_value x)
    | (extract_lets +onlyGivenNames x)
    | refine hP.remake _ _ _ _ _ _ _ _ _ _ _ _ _ _ _ _ _ _ _ _ _ _ _ (hs := ?_); first | assumption | (with_reducible refine startKind_closed hP ?_ ?_) | (with_reducible refine bringInForce_closed hP ?_ ?_) | (with_reducible refine loadMicrocode_closed hP ?_ ?_) | (with_reducible refine armTrial_closed hP ?_ ?_) | (with_reducible refine loadFirmware_closed hP ?_ ?_) | (with_reducible refine startStep4_closed hP ?_ ?_) | (with_reducible refine startLocks_closed hP ?_ ?_) | (with_reducible refine logLocks_closed hP ?_ ?_) | (with_reducible refine restoreLog_closed hP ?_ ?_) | (with_reducible refine releaseTicks_closed hP ?_ ?_) | (with_reducible refine loadPrograms_closed hP ?_ ?_) | (with_reducible refine hP.put _ _ _ _ _ ?_ ?_) | (with_reducible refine hP.clear ?_ ?_) | (with_reducible refine hP.raise ?_ ?_) | (with_reducible refine hP.bump ?_ ?_) | (with_reducible refine hP.setBits ?_ ?_) | (with_reducible refine hP.clrBits ?_ ?_)
    | refine ite_closed ?_ ?_
    | split

def Foot.enterRom (K : Part → Bool) : Bool := K (.fld .coreOn) && (Foot.resetRegs K)

theorem enterRom_closed {K : Part → Bool} {P : State → Prop} {s : State} (hP : Closed K P) (hK : Foot.enterRom K = true)
    (hs_s : P s) :
    P (enterRom s) := by
  simp only [Foot.enterRom, Bool.and_eq_true] at hK
  obtain ⟨hK0, hK1⟩ := hK
  unfold enterRom
  with_reducible repeat' first
    | assumption
    | refine resetRegs_closed hP ?_ ?_
    | refine hP.raise ?_ ?_
    | refine ite_closed ?_ ?_
    | split

theorem enterRom_get {s : State} {fld0 : Fld} {i0 j0 : Nat} (hK : Foot.enterRom (notFld fld0) = true)  : (enterRom s).get
    fld0 i0 j0 = s.get fld0 i0 j0 :=
  enterRom_closed (P := fun x => x.get fld0 i0 j0 = s.get fld0 i0 j0) (field_closed fld0 i0 j0 _) hK  rfl

def Foot.putTimes (K : Part → Bool) : Bool := K (.fld .IM_STEPT)

theorem putTimes_closed {K : Part → Bool} {P : State → Prop} {s : State} {l : List Nat} (hP : Closed K P) (hK : Foot.putTimes
    K = true) (hs_s : P s) :
    P (putTimes s l) := by
  simp only [Foot.putTimes, Bool.and_eq_true] at hK
  unfold putTimes
  with_reducible repeat' first
    | assumption
    | refine hP.put _ _ _ _ _ ?_ ?_
    | refine Closed.each ?_ _ ?_
    | intro _

theorem putTimes_get {s : State} {l : List Nat} {fld0 : Fld} {i0 j0 : Nat} (hK : Foot.putTimes (notFld fld0) = true)  :
    (putTimes s l).get fld0 i0 j0 = s.get fld0 i0 j0 :=
  putTimes_closed (P := fun x => x.get fld0 i0 j0 = s.get fld0 i0 j0) (field_closed fld0 i0 j0 _) hK  rfl

def Foot.coldStart (K : Part → Bool) : Bool := K (.fld .started) && (K (.fld .PW_CLK_CLKSEL) && (K (.fld .pmbAdr) && (K (.fld
    .stepAt) && (Foot.fitFlash K && (Foot.rowRepairDone K && (Foot.beginRepair K && (Foot.injectionTest K && (Foot.runStart K
    && (Foot.enterRom K && (Foot.wdRestart K && (Foot.putTimes K)))))))))))

theorem coldStart_closed {K : Part → Bool} {P : State → Prop} {s : State} {inp : StartInput} (hP : Closed K P) (hK :
    Foot.coldStart K = true) (hs_s : P s) :
    P (coldStart s inp) := by
  simp only [Foot.coldStart, Bool.and_eq_true] at hK
  obtain ⟨hK0, hK1, hK2, hK3, hK4, hK5, hK6, hK7, hK8, hK9, hK10, hK11⟩ := hK
  unfold coldStart
  with_reducible repeat' first
    | assumption
    | refine fitFlash_closed hP ?_ ?_
    | refine rowRepairDone_closed hP ?_ ?_
    | refine beginRepair_closed hP ?_ ?_
    | refine injectionTest_closed hP ?_ ?_
    | refine runStart_closed hP ?_ ?_
    | refine enterRom_closed hP ?_ ?_
    | refine wdRestart_closed hP ?_ ?_
    | refine putTimes_closed hP ?_ ?_
    | refine hP.put _ _ _ _ _ ?_ ?_
    | refine hP.raise ?_ ?_
    | refine Closed.each ?_ _ ?_
    | intro _
    | (extract_lets +onlyGivenNames x; apply thenHave (p := P x); (unfold x; clear x); rotate_left 1; (intro hx; clear_value x))
    | (extract_lets +onlyGivenNames x; clear_value x)
    | refine ite_closed ?_ ?_
    | split

theorem coldStart_get {s : State} {inp : StartInput} {fld0 : Fld} {i0 j0 : Nat} (hK : Foot.coldStart (notFld fld0) = true)  :
    (coldStart s inp).get fld0 i0 j0 = s.get fld0 i0 j0 :=
  coldStart_closed (P := fun x => x.get fld0 i0 j0 = s.get fld0 i0 j0) (field_closed fld0 i0 j0 _) hK  rfl

def Foot.goBoundary (K : Part → Bool) : Bool := K (.fld .IM_STEPT) && (K (.fld .fabricOn) && (K (.fld .IM_STATE_STEP) && (K
    (.fld .goDue))))

theorem goBoundary_closed {K : Part → Bool} {P : State → Prop} {s : State} (hP : Closed K P) (hK : Foot.goBoundary K = true)
    (hs_s : P s) :
    P (goBoundary s) := by
  simp only [Foot.goBoundary, Bool.and_eq_true] at hK
  obtain ⟨hK0, hK1, hK2, hK3⟩ := hK
  unfold goBoundary
  with_reducible repeat' first
    | assumption
    | refine hP.put _ _ _ _ _ ?_ ?_
    | refine hP.clear ?_ ?_
    | refine hP.raise ?_ ?_
    | (extract_lets +onlyGivenNames x; apply thenHave (p := P x); (unfold x; clear x); rotate_left 1; (intro hx; clear_value x))
    | (extract_lets +onlyGivenNames x; clear_value x)
    | refine ite_closed ?_ ?_
    | split

theorem goBoundary_get {s : State} {fld0 : Fld} {i0 j0 : Nat} (hK : Foot.goBoundary (notFld fld0) = true)  : (goBoundary
    s).get fld0 i0 j0 = s.get fld0 i0 j0 :=
  goBoundary_closed (P := fun x => x.get fld0 i0 j0 = s.get fld0 i0 j0) (field_closed fld0 i0 j0 _) hK  rfl

def Foot.newChallenge (K : Part → Bool) : Bool := K .freeCtr && (K .challenge)

theorem newChallenge_closed {K : Part → Bool} {P : State → Prop} {s : State} (hP : Closed K P) (hK : Foot.newChallenge K =
    true) (hs_s : P s) :
    P (newChallenge s) := by
  simp only [Foot.newChallenge, Bool.and_eq_true] at hK
  obtain ⟨hK0, hK1⟩ := hK
  unfold newChallenge
  with_reducible repeat' first
    | assumption
    | refine hP.fresh ?_ ?_
    | (extract_lets +onlyGivenNames x; apply thenHave (p := P x); (unfold x; clear x); rotate_left 1; (intro hx; clear_value x))
    | (extract_lets +onlyGivenNames x; clear_value x)
    | refine hP.remake _ _ _ _ _ _ _ _ _ _ _ _ _ _ _ _ _ _ _ _ _ _ _ (hs := ?_); first | assumption | (with_reducible refine hP.fresh ?_ ?_)

theorem newChallenge_get {s : State} {fld0 : Fld} {i0 j0 : Nat} (hK : Foot.newChallenge (notFld fld0) = true)  :
    (newChallenge s).get fld0 i0 j0 = s.get fld0 i0 j0 :=
  newChallenge_closed (P := fun x => x.get fld0 i0 j0 = s.get fld0 i0 j0) (field_closed fld0 i0 j0 _) hK  rfl

def Foot.dbgLock (K : Part → Bool) : Bool := K (.fld .OT_STATUS_DBGLOCK) && (Foot.newChallenge K && (Foot.hgAnswer K))

theorem dbgLock_closed {K : Part → Bool} {P : State → Prop} {s : State} {l : List Byte} (hP : Closed K P) (hK : Foot.dbgLock
    K = true) (hs_s : P s) :
    P (dbgLock s l) := by
  simp only [Foot.dbgLock, Bool.and_eq_true] at hK
  obtain ⟨hK0, hK1, hK2⟩ := hK
  unfold dbgLock
  with_reducible repeat' first
    | assumption
    | refine newChallenge_closed hP ?_ ?_
    | refine hgAnswer_closed hP ?_ ?_
    | refine hP.raise ?_ ?_
    | (extract_lets +onlyGivenNames x; apply thenHave (p := P x); (unfold x; clear x); rotate_left 1; (intro hx; clear_value x))
    | (extract_lets +onlyGivenNames x; clear_value x)
    | refine ite_closed ?_ ?_
    | split

theorem dbgLock_get {s : State} {l : List Byte} {fld0 : Fld} {i0 j0 : Nat} (hK : Foot.dbgLock (notFld fld0) = true)  :
    (dbgLock s l).get fld0 i0 j0 = s.get fld0 i0 j0 :=
  dbgLock_closed (P := fun x => x.get fld0 i0 j0 = s.get fld0 i0 j0) (field_closed fld0 i0 j0 _) hK  rfl

def Foot.imgMessage (K : Part → Bool) : Bool := Foot.hgAnswer K

theorem imgMessage_closed {K : Part → Bool} {P : State → Prop} {s : State} {typ : Nat} {ok : List Byte → Bool} {f : State →
    List Byte → State} (hP : Closed K P) (hK : Foot.imgMessage K = true) (h_f : ∀ x0 x1, P x0 → P (f x0 x1)) (hs_s : P s) :
    P (imgMessage s typ ok f) := by
  simp only [Foot.imgMessage, Bool.and_eq_true] at hK
  unfold imgMessage
  with_reducible repeat' first
    | assumption
    | apply h_f
    | refine hgAnswer_closed hP ?_ ?_
    | (extract_lets +onlyGivenNames x; apply thenHave (p := P x); (unfold x; clear x); rotate_left 1; (intro hx; clear_value x))
    | (extract_lets +onlyGivenNames x; clear_value x)
    | refine ite_closed ?_ ?_
    | split

def Foot.execAttest (K : Part → Bool) : Bool := Foot.imgMessage K && (Foot.attest K)

theorem execAttest_closed {K : Part → Bool} {P : State → Prop} {s : State} (hP : Closed K P) (hK : Foot.execAttest K = true)
    (hs_s : P s) :
    OutAll P (execAttest s) := by
  simp only [Foot.execAttest, Bool.and_eq_true] at hK
  obtain ⟨hK0, hK1⟩ := hK
  unfold execAttest
  with_reducible repeat' first
    | assumption
    | refine imgMessage_closed hP ?_ ?_ ?_
    | refine attest_closed hP ?_ ?_
    | refine OutAll.mk ?_
    | intro _

def Foot.execColdStart (K : Part → Bool) : Bool := Foot.coldStart K

theorem execColdStart_closed {K : Part → Bool} {P : State → Prop} {inp : StartInput} {s : State} (hP : Closed K P) (hK :
    Foot.execColdStart K = true) (hs_s : P s) :
    OutAll P (execColdStart inp s) := by
  simp only [Foot.execColdStart, Bool.and_eq_true] at hK
  unfold execColdStart
  with_reducible repeat' first
    | assumption
    | refine coldStart_closed hP ?_ ?_
    | refine OutAll.mk ?_

def Foot.execDbgLock (K : Part → Bool) : Bool := Foot.imgMessage K && (Foot.dbgLock K)

theorem execDbgLock_closed {K : Part → Bool} {P : State → Prop} {s : State} (hP : Closed K P) (hK : Foot.execDbgLock K =
    true) (hs_s : P s) :
    OutAll P (execDbgLock s) := by
  simp only [Foot.execDbgLock, Bool.and_eq_true] at hK
  obtain ⟨hK0, hK1⟩ := hK
  unfold execDbgLock
  with_reducible repeat' first
    | assumption
    | refine imgMessage_closed hP ?_ ?_ ?_
    | refine dbgLock_closed hP ?_ ?_
    | refine OutAll.mk ?_
    | intro _
    | (extract_lets +onlyGivenNames x; apply thenHave (p := P x); (unfold x; clear x); rotate_left 1; (intro hx; clear_value x))
    | (extract_lets +onlyGivenNames x; clear_value x)
    | (extract_lets +onlyGivenNames x)
    | refine ite_closed ?_ ?_
    | split

def Foot.getChallenge (K : Part → Bool) : Bool := Foot.newChallenge K && (Foot.hgAnswer K)

theorem getChallenge_closed {K : Part → Bool} {P : State → Prop} {s : State} (hP : Closed K P) (hK : Foot.getChallenge K =
    true) (hs_s : P s) :
    P (getChallenge s) := by
  simp only [Foot.getChallenge, Bool.and_eq_true] at hK
  obtain ⟨hK0, hK1⟩ := hK
  unfold getChallenge
  with_reducible repeat' first
    | assumption
    | refine newChallenge_closed hP ?_ ?_
    | refine hgAnswer_closed hP ?_ ?_
    | (extract_lets +onlyGivenNames x; apply thenHave (p := P x); (unfold x; clear x); rotate_left 1; (intro hx; clear_value x))
    | (extract_lets +onlyGivenNames x; clear_value x)

theorem getChallenge_get {s : State} {fld0 : Fld} {i0 j0 : Nat} (hK : Foot.getChallenge (notFld fld0) = true)  :
    (getChallenge s).get fld0 i0 j0 = s.get fld0 i0 j0 :=
  getChallenge_closed (P := fun x => x.get fld0 i0 j0 = s.get fld0 i0 j0) (field_closed fld0 i0 j0 _) hK  rfl

def Foot.execGetChallenge (K : Part → Bool) : Bool := Foot.imgMessage K && (Foot.getChallenge K)

theorem execGetChallenge_closed {K : Part → Bool} {P : State → Prop} {s : State} (hP : Closed K P) (hK :
    Foot.execGetChallenge K = true) (hs_s : P s) :
    OutAll P (execGetChallenge s) := by
  simp only [Foot.execGetChallenge, Bool.and_eq_true] at hK
  obtain ⟨hK0, hK1⟩ := hK
  unfold execGetChallenge
  with_reducible repeat' first
    | assumption
    | refine imgMessage_closed hP ?_ ?_ ?_
    | refine getChallenge_closed hP ?_ ?_
    | refine OutAll.mk ?_
    | intro _

def Foot.getIdentity (K : Part → Bool) : Bool := Foot.hgAnswer K

theorem getIdentity_closed {K : Part → Bool} {P : State → Prop} {s : State} (hP : Closed K P) (hK : Foot.getIdentity K =
    true) (hs_s : P s) :
    P (getIdentity s) := by
  simp only [Foot.getIdentity, Bool.and_eq_true] at hK
  unfold getIdentity
  with_reducible repeat' first
    | assumption
    | refine hgAnswer_closed hP ?_ ?_
    | (extract_lets +onlyGivenNames x; apply thenHave (p := P x); (unfold x; clear x); rotate_left 1; (intro hx; clear_value x))
    | (extract_lets +onlyGivenNames x; clear_value x)
    | split

theorem getIdentity_get {s : State} {fld0 : Fld} {i0 j0 : Nat} (hK : Foot.getIdentity (notFld fld0) = true)  : (getIdentity
    s).get fld0 i0 j0 = s.get fld0 i0 j0 :=
  getIdentity_closed (P := fun x => x.get fld0 i0 j0 = s.get fld0 i0 j0) (field_closed fld0 i0 j0 _) hK  rfl

def Foot.execGetIdentity (K : Part → Bool) : Bool := Foot.imgMessage K && (Foot.getIdentity K)

theorem execGetIdentity_closed {K : Part → Bool} {P : State → Prop} {s : State} (hP : Closed K P) (hK : Foot.execGetIdentity
    K = true) (hs_s : P s) :
    OutAll P (execGetIdentity s) := by
  simp only [Foot.execGetIdentity, Bool.and_eq_true] at hK
  obtain ⟨hK0, hK1⟩ := hK
  unfold execGetIdentity
  with_reducible repeat' first
    | assumption
    | refine imgMessage_closed hP ?_ ?_ ?_
    | refine getIdentity_closed hP ?_ ?_
    | refine OutAll.mk ?_
    | intro _

def Foot.execGo (K : Part → Bool) : Bool := Foot.goWrite K

theorem execGo_closed {K : Part → Bool} {P : State → Prop} {s : State} (hP : Closed K P) (hK : Foot.execGo K = true) (hs_s :
    P s) :
    OutAll P (execGo s) := by
  simp only [Foot.execGo, Bool.and_eq_true] at hK
  unfold execGo
  with_reducible repeat' first
    | assumption
    | refine goWrite_closed hP ?_ ?_
    | refine OutAll.mk ?_
    | intro _
    | (extract_lets +onlyGivenNames x; apply thenHave (p := P x); (unfold x; clear x); rotate_left 1; (intro hx; clear_value x))
    | (extract_lets +onlyGivenNames x; clear_value x)
    | (extract_lets +onlyGivenNames x)
    | refine ite_closed ?_ ?_
    | split

def Foot.execImRsdone (K : Part → Bool) : Bool := Foot.rsDoneWrite K

theorem execImRsdone_closed {K : Part → Bool} {P : State → Prop} {rails : W16} {s : State} (hP : Closed K P) (hK :
    Foot.execImRsdone K = true) (hs_s : P s) :
    OutAll P (execImRsdone rails s) := by
  simp only [Foot.execImRsdone, Bool.and_eq_true] at hK
  unfold execImRsdone
  with_reducible repeat' first
    | assumption
    | refine rsDoneWrite_closed hP ?_ ?_
    | refine OutAll.mk ?_
    | intro _
    | (extract_lets +onlyGivenNames x; apply thenHave (p := P x); (unfold x; clear x); rotate_left 1; (intro hx; clear_value x))
    | (extract_lets +onlyGivenNames x; clear_value x)
    | (extract_lets +onlyGivenNames x)
    | refine ite_closed ?_ ?_
    | split

def Foot.execImSldata (K : Part → Bool) : Bool := Foot.slWrite K

theorem execImSldata_closed {K : Part → Bool} {P : State → Prop} {v : W16} {s : State} (hP : Closed K P) (hK :
    Foot.execImSldata K = true) (hs_s : P s) :
    OutAll P (execImSldata v s) := by
  simp only [Foot.execImSldata, Bool.and_eq_true] at hK
  unfold execImSldata
  with_reducible repeat' first
    | assumption
    | refine slWrite_closed hP ?_ ?_
    | refine OutAll.mk ?_
    | intro _
    | (extract_lets +onlyGivenNames x; apply thenHave (p := P x); (unfold x; clear x); rotate_left 1; (intro hx; clear_value x))
    | (extract_lets +onlyGivenNames x; clear_value x)
    | (extract_lets +onlyGivenNames x)
    | refine ite_closed ?_ ?_
    | split

def Foot.imageVerified (K : Part → Bool) : Bool := K (.fld .verDue) && (K (.fld .verSlot) && (K (.fld .verOk) && (K (.fld
    .verKey) && (K (.fld .verVer) && (Foot.putResult K && (Foot.hgAnswer K))))))

theorem imageVerified_closed {K : Part → Bool} {P : State → Prop} {s : State} (hP : Closed K P) (hK : Foot.imageVerified K =
    true) (hs_s : P s) :
    P (imageVerified s) := by
  simp only [Foot.imageVerified, Bool.and_eq_true] at hK
  obtain ⟨hK0, hK1, hK2, hK3, hK4, hK5, hK6⟩ := hK
  unfold imageVerified
  with_reducible repeat' first
    | assumption
    | refine putResult_closed hP ?_ ?_
    | refine hgAnswer_closed hP ?_ ?_
    | refine hP.put _ _ _ _ _ ?_ ?_
    | refine hP.clear ?_ ?_
    | (extract_lets +onlyGivenNames x; apply thenHave (p := P x); (unfold x; clear x); rotate_left 1; (intro hx; clear_value x))
    | (extract_lets +onlyGivenNames x; clear_value x)
    | refine ite_closed ?_ ?_
    | split

theorem imageVerified_get {s : State} {fld0 : Fld} {i0 j0 : Nat} (hK : Foot.imageVerified (notFld fld0) = true)  :
    (imageVerified s).get fld0 i0 j0 = s.get fld0 i0 j0 :=
  imageVerified_closed (P := fun x => x.get fld0 i0 j0 = s.get fld0 i0 j0) (field_closed fld0 i0 j0 _) hK  rfl

def Foot.execImageVerified (K : Part → Bool) : Bool := Foot.imageVerified K

theorem execImageVerified_closed {K : Part → Bool} {P : State → Prop} {s : State} (hP : Closed K P) (hK :
    Foot.execImageVerified K = true) (hs_s : P s) :
    OutAll P (execImageVerified s) := by
  simp only [Foot.execImageVerified, Bool.and_eq_true] at hK
  unfold execImageVerified
  with_reducible repeat' first
    | assumption
    | refine imageVerified_closed hP ?_ ?_
    | refine OutAll.mk ?_

def Foot.trialExpiry (K : Part → Bool) : Bool := K (.fld .IM_TRIAL_FAIL) && (K (.fld .IM_TRIAL_RUN) && (Foot.mcReset K))

theorem trialExpiry_closed {K : Part → Bool} {P : State → Prop} {s : State} (hP : Closed K P) (hK : Foot.trialExpiry K =
    true) (hs_s : P s) :
    P (trialExpiry s) := by
  simp only [Foot.trialExpiry, Bool.and_eq_true] at hK
  obtain ⟨hK0, hK1, hK2⟩ := hK
  unfold trialExpiry
  with_reducible repeat' first
    | assumption
    | refine mcReset_closed hP ?_ ?_
    | refine hP.clear ?_ ?_
    | refine hP.raise ?_ ?_
    | refine ite_closed ?_ ?_
    | split

theorem trialExpiry_get {s : State} {fld0 : Fld} {i0 j0 : Nat} (hK : Foot.trialExpiry (notFld fld0) = true)  : (trialExpiry
    s).get fld0 i0 j0 = s.get fld0 i0 j0 :=
  trialExpiry_closed (P := fun x => x.get fld0 i0 j0 = s.get fld0 i0 j0) (field_closed fld0 i0 j0 _) hK  rfl

def Foot.raiseCounter (K : Part → Bool) : Bool := K (.fld .otpPos) && (K (.fld .OT_CNT_B1) && (K (.fld .OT_CNT_VAL) && (K
    (.fld .OT_CNT_EXH))))

theorem raiseCounter_closed {K : Part → Bool} {P : State → Prop} {s : State} {k : Nat} {target : Int} {failed : List Nat} (hP
    : Closed K P) (hK : Foot.raiseCounter K = true) (hs_s : P s) :
    P (raiseCounter s k target failed) := by
  simp only [Foot.raiseCounter, Bool.and_eq_true] at hK
  obtain ⟨hK0, hK1, hK2, hK3⟩ := hK
  unfold raiseCounter
  with_reducible repeat' first
    | assumption
    | refine hP.put _ _ _ _ _ ?_ ?_
    | refine hP.clear ?_ ?_
    | refine hP.raise ?_ ?_
    | refine hP.bump ?_ ?_
    | refine hP.setBits ?_ ?_
    | refine hP.clrBits ?_ ?_
    | (dsimp -zeta only)
    | refine of_snd (by assumption) ?_
    | refine of_fst (by assumption) ?_
    | refine of_mid (by assumption) ?_
    | refine of_trd (by assumption) ?_
    | refine of_fth (by assumption) ?_
    | refine foldl_snd ?_ ?_
    | refine foldl_trd ?_ ?_
    | refine foldl_fst ?_ ?_
    | refine foldl_all ?_ ?_
    | intro _
    | (extract_lets +onlyGivenNames x; apply thenHave (p := P x); (unfold x; clear x); rotate_left 1; (intro hx; clear_value x))
    | (extract_lets +onlyGivenNames x; apply thenHave (p := P x.2); (unfold x; clear x); rotate_left 1; (intro hx; clear_value x))
    | (extract_lets +onlyGivenNames x; apply thenHave (p := P x.1); (unfold x; clear x); rotate_left 1; (intro hx; clear_value x))
    | (extract_lets +onlyGivenNames x; apply thenHave (p := P x.2.1); (unfold x; clear x); rotate_left 1; (intro hx; clear_value x))
    | (extract_lets +onlyGivenNames x; apply thenHave (p := P x.2.2); (unfold x; clear x); rotate_left 1; (intro hx; clear_value x))
    | (extract_lets +onlyGivenNames x; clear_value x)
    | (extract_lets +onlyGivenNames x)
    | refine ite_closed ?_ ?_
    | split

theorem raiseCounter_get {s : State} {k : Nat} {target : Int} {failed : List Nat} {fld0 : Fld} {i0 j0 : Nat} (hK :
    Foot.raiseCounter (notFld fld0) = true)  : (raiseCounter s k target failed).get fld0 i0 j0 = s.get fld0 i0 j0 :=
  raiseCounter_closed (P := fun x => x.get fld0 i0 j0 = s.get fld0 i0 j0) (field_closed fld0 i0 j0 _) hK  rfl

def Foot.imgAccept (K : Part → Bool) : Bool := K (.fld .IM_TRIAL_RUN) && (Foot.trialExpiry K && (Foot.hgAnswer K &&
    (Foot.raiseCounter K)))

theorem imgAccept_closed {K : Part → Bool} {P : State → Prop} {s : State} {k : Nat} {failed : List Nat} (hP : Closed K P) (hK
    : Foot.imgAccept K = true) (hs_s : P s) :
    P (imgAccept s k failed) := by
  simp only [Foot.imgAccept, Bool.and_eq_true] at hK
  obtain ⟨hK0, hK1, hK2, hK3⟩ := hK
  unfold imgAccept
  with_reducible repeat' first
    | assumption
    | refine trialExpiry_closed hP ?_ ?_
    | refine hgAnswer_closed hP ?_ ?_
    | refine raiseCounter_closed hP ?_ ?_
    | refine hP.clear ?_ ?_
    | (extract_lets +onlyGivenNames x; apply thenHave (p := P x); (unfold x; clear x); rotate_left 1; (intro hx; clear_value x))
    | (extract_lets +onlyGivenNames x; clear_value x)
    | refine ite_closed ?_ ?_
    | split

theorem imgAccept_get {s : State} {k : Nat} {failed : List Nat} {fld0 : Fld} {i0 j0 : Nat} (hK : Foot.imgAccept (notFld fld0)
    = true)  : (imgAccept s k failed).get fld0 i0 j0 = s.get fld0 i0 j0 :=
  imgAccept_closed (P := fun x => x.get fld0 i0 j0 = s.get fld0 i0 j0) (field_closed fld0 i0 j0 _) hK  rfl

def Foot.execImgAccept (K : Part → Bool) : Bool := Foot.imgMessage K && (Foot.imgAccept K)

theorem execImgAccept_closed {K : Part → Bool} {P : State → Prop} {failed : List (Fin 128)} {s : State} (hP : Closed K P) (hK
    : Foot.execImgAccept K = true) (hs_s : P s) :
    OutAll P (execImgAccept failed s) := by
  simp only [Foot.execImgAccept, Bool.and_eq_true] at hK
  obtain ⟨hK0, hK1⟩ := hK
  unfold execImgAccept
  with_reducible repeat' first
    | assumption
    | refine imgMessage_closed hP ?_ ?_ ?_
    | refine imgAccept_closed hP ?_ ?_
    | refine OutAll.mk ?_
    | intro _

def Foot.liveMicrocode (K : Part → Bool) : Bool := K (.fld .ucWait) && (K (.fld .UC_CTRL_LDEN) && (Foot.microwordWrite K &&
    (Foot.endLoad K && (Foot.decodeEntryWrite K))))

theorem liveMicrocode_closed {K : Part → Bool} {P : State → Prop} {s : State} {body : List Byte} (hP : Closed K P) (hK :
    Foot.liveMicrocode K = true) (hs_s : P s) :
    P (liveMicrocode s body) := by
  simp only [Foot.liveMicrocode, Bool.and_eq_true] at hK
  obtain ⟨hK0, hK1, hK2, hK3, hK4⟩ := hK
  unfold liveMicrocode
  with_reducible repeat' first
    | assumption
    | refine microwordWrite_closed hP ?_ ?_
    | refine endLoad_closed hP ?_ ?_
    | refine decodeEntryWrite_closed hP ?_ ?_
    | refine hP.put _ _ _ _ _ ?_ ?_
    | refine hP.clear ?_ ?_
    | refine hP.raise ?_ ?_
    | refine hP.bump ?_ ?_
    | refine hP.setBits ?_ ?_
    | refine hP.clrBits ?_ ?_
    | refine Closed.each ?_ _ ?_
    | intro _
    | (extract_lets +onlyGivenNames x; apply thenHave (p := P x); (unfold x; clear x); rotate_left 1; (intro hx; clear_value x))
    | (extract_lets +onlyGivenNames x; clear_value x)
    | (extract_lets +onlyGivenNames x)
    | refine ite_closed ?_ ?_
    | split

theorem liveMicrocode_get {s : State} {body : List Byte} {fld0 : Fld} {i0 j0 : Nat} (hK : Foot.liveMicrocode (notFld fld0) =
    true)  : (liveMicrocode s body).get fld0 i0 j0 = s.get fld0 i0 j0 :=
  liveMicrocode_closed (P := fun x => x.get fld0 i0 j0 = s.get fld0 i0 j0) (field_closed fld0 i0 j0 _) hK  rfl

def Foot.imgActivate (K : Part → Bool) : Bool := K (.fld .verOk) && (K (.fld .flashBusy) && (K (.fld .imgVer) && (K (.fld
    .IM_STATE_NOCM) && (Foot.hgAnswer K && (Foot.dirWrite K && (Foot.mcReset K && (Foot.hgDone K && (Foot.putDigest K &&
    (Foot.liveMicrocode K && (Foot.putKindBit K && (K (.fld .IM_STATE_SLOT))))))))))))

theorem imgActivate_closed {K : Part → Bool} {P : State → Prop} {s : State} {k : Nat} (hP : Closed K P) (hK :
    Foot.imgActivate K = true) (hs_s : P s) :
    P (imgActivate s k) := by
  simp only [Foot.imgActivate, Bool.and_eq_true] at hK
  obtain ⟨hK0, hK1, hK2, hK3, hK4, hK5, hK6, hK7, hK8, hK9, hK10, hK11⟩ := hK
  unfold imgActivate
  with_reducible repeat' first
    | assumption
    | refine hgAnswer_closed hP ?_ ?_
    | refine dirWrite_closed hP ?_ ?_
    | refine mcReset_closed hP ?_ ?_
    | refine hgDone_closed hP ?_ ?_
    | refine putDigest_closed hP ?_ ?_
    | refine liveMicrocode_closed hP ?_ ?_
    | refine putKindBit_closed hP ?_ ?_ ?_
    | refine hP.put _ _ _ _ _ ?_ ?_
    | refine hP.clear ?_ ?_
    | refine hP.raise ?_ ?_
    | (extract_lets +onlyGivenNames x; apply thenHave (p := P x); (unfold x; clear x); rotate_left 1; (intro hx; clear_value x))
    | (extract_lets +onlyGivenNames x; clear_value x)
    | refine ite_closed ?_ ?_
    | split

theorem imgActivate_get {s : State} {k : Nat} {fld0 : Fld} {i0 j0 : Nat} (hK : Foot.imgActivate (notFld fld0) = true)  :
    (imgActivate s k).get fld0 i0 j0 = s.get fld0 i0 j0 :=
  imgActivate_closed (P := fun x => x.get fld0 i0 j0 = s.get fld0 i0 j0) (field_closed fld0 i0 j0 _) hK  rfl

def Foot.execImgActivate (K : Part → Bool) : Bool := Foot.imgMessage K && (Foot.imgActivate K)

theorem execImgActivate_closed {K : Part → Bool} {P : State → Prop} {s : State} (hP : Closed K P) (hK : Foot.execImgActivate
    K = true) (hs_s : P s) :
    OutAll P (execImgActivate s) := by
  simp only [Foot.execImgActivate, Bool.and_eq_true] at hK
  obtain ⟨hK0, hK1⟩ := hK
  unfold execImgActivate
  with_reducible repeat' first
    | assumption
    | refine imgMessage_closed hP ?_ ?_ ?_
    | refine imgActivate_closed hP ?_ ?_
    | refine OutAll.mk ?_
    | intro _

def Foot.imgBegin (K : Part → Bool) : Bool := K (.fld .flashBusy) && (K (.fld .IM_UPD_SLOT) && (K (.fld .IM_UPD_KIND) && (K
    (.fld .IM_UPD_OFS) && (Foot.hgAnswer K && (Foot.flashErase K)))))

theorem imgBegin_closed {K : Part → Bool} {P : State → Prop} {s : State} {k : Nat} (hP : Closed K P) (hK : Foot.imgBegin K =
    true) (hs_s : P s) :
    P (imgBegin s k) := by
  simp only [Foot.imgBegin, Bool.and_eq_true] at hK
  obtain ⟨hK0, hK1, hK2, hK3, hK4, hK5⟩ := hK
  unfold imgBegin
  with_reducible repeat' first
    | assumption
    | refine hgAnswer_closed hP ?_ ?_
    | refine flashErase_closed hP ?_ ?_
    | refine hP.put _ _ _ _ _ ?_ ?_
    | refine hP.raise ?_ ?_
    | (extract_lets +onlyGivenNames x; apply thenHave (p := P x); (unfold x; clear x); rotate_left 1; (intro hx; clear_value x))
    | (extract_lets +onlyGivenNames x; clear_value x)
    | refine ite_closed ?_ ?_
    | split

theorem imgBegin_get {s : State} {k : Nat} {fld0 : Fld} {i0 j0 : Nat} (hK : Foot.imgBegin (notFld fld0) = true)  : (imgBegin
    s k).get fld0 i0 j0 = s.get fld0 i0 j0 :=
  imgBegin_closed (P := fun x => x.get fld0 i0 j0 = s.get fld0 i0 j0) (field_closed fld0 i0 j0 _) hK  rfl

def Foot.execImgBegin (K : Part → Bool) : Bool := Foot.imgMessage K && (Foot.imgBegin K)

theorem execImgBegin_closed {K : Part → Bool} {P : State → Prop} {s : State} (hP : Closed K P) (hK : Foot.execImgBegin K =
    true) (hs_s : P s) :
    OutAll P (execImgBegin s) := by
  simp only [Foot.execImgBegin, Bool.and_eq_true] at hK
  obtain ⟨hK0, hK1⟩ := hK
  unfold execImgBegin
  with_reducible repeat' first
    | assumption
    | refine imgMessage_closed hP ?_ ?_ ?_
    | refine imgBegin_closed hP ?_ ?_
    | refine OutAll.mk ?_
    | intro _

def Foot.imgStatus (K : Part → Bool) : Bool := Foot.hgAnswer K

theorem imgStatus_closed {K : Part → Bool} {P : State → Prop} {s : State} (hP : Closed K P) (hK : Foot.imgStatus K = true)
    (hs_s : P s) :
    P (imgStatus s) := by
  simp only [Foot.imgStatus, Bool.and_eq_true] at hK
  unfold imgStatus
  with_reducible repeat' first
    | assumption
    | refine hgAnswer_closed hP ?_ ?_
    | intro _
    | (extract_lets +onlyGivenNames x; apply thenHave (p := P x); (unfold x; clear x); rotate_left 1; (intro hx; clear_value x))
    | (extract_lets +onlyGivenNames x; clear_value x)

theorem imgStatus_get {s : State} {fld0 : Fld} {i0 j0 : Nat} (hK : Foot.imgStatus (notFld fld0) = true)  : (imgStatus s).get
    fld0 i0 j0 = s.get fld0 i0 j0 :=
  imgStatus_closed (P := fun x => x.get fld0 i0 j0 = s.get fld0 i0 j0) (field_closed fld0 i0 j0 _) hK  rfl

def Foot.execImgStatus (K : Part → Bool) : Bool := Foot.imgMessage K && (Foot.imgStatus K)

theorem execImgStatus_closed {K : Part → Bool} {P : State → Prop} {s : State} (hP : Closed K P) (hK : Foot.execImgStatus K =
    true) (hs_s : P s) :
    OutAll P (execImgStatus s) := by
  simp only [Foot.execImgStatus, Bool.and_eq_true] at hK
  obtain ⟨hK0, hK1⟩ := hK
  unfold execImgStatus
  with_reducible repeat' first
    | assumption
    | refine imgMessage_closed hP ?_ ?_ ?_
    | refine imgStatus_closed hP ?_ ?_
    | refine OutAll.mk ?_
    | intro _

def Foot.imgVerify (K : Part → Bool) : Bool := K (.fld .verDue) && (Foot.hgAnswer K)

theorem imgVerify_closed {K : Part → Bool} {P : State → Prop} {s : State} (hP : Closed K P) (hK : Foot.imgVerify K = true)
    (hs_s : P s) :
    P (imgVerify s) := by
  simp only [Foot.imgVerify, Bool.and_eq_true] at hK
  obtain ⟨hK0, hK1⟩ := hK
  unfold imgVerify
  with_reducible repeat' first
    | assumption
    | refine hgAnswer_closed hP ?_ ?_
    | refine hP.put _ _ _ _ _ ?_ ?_
    | refine ite_closed ?_ ?_
    | split

theorem imgVerify_get {s : State} {fld0 : Fld} {i0 j0 : Nat} (hK : Foot.imgVerify (notFld fld0) = true)  : (imgVerify s).get
    fld0 i0 j0 = s.get fld0 i0 j0 :=
  imgVerify_closed (P := fun x => x.get fld0 i0 j0 = s.get fld0 i0 j0) (field_closed fld0 i0 j0 _) hK  rfl

def Foot.execImgVerify (K : Part → Bool) : Bool := Foot.imgMessage K && (Foot.imgVerify K)

theorem execImgVerify_closed {K : Part → Bool} {P : State → Prop} {s : State} (hP : Closed K P) (hK : Foot.execImgVerify K =
    true) (hs_s : P s) :
    OutAll P (execImgVerify s) := by
  simp only [Foot.execImgVerify, Bool.and_eq_true] at hK
  obtain ⟨hK0, hK1⟩ := hK
  unfold execImgVerify
  with_reducible repeat' first
    | assumption
    | refine imgMessage_closed hP ?_ ?_ ?_
    | refine imgVerify_closed hP ?_ ?_
    | refine OutAll.mk ?_
    | intro _

def Foot.imgWrite (K : Part → Bool) : Bool := K (.fld .flashBusy) && (K (.fld .IM_UPD_OFS) && (Foot.hgAnswer K &&
    (Foot.flashWrite K)))

theorem imgWrite_closed {K : Part → Bool} {P : State → Prop} {s : State} {l : List Byte} (hP : Closed K P) (hK :
    Foot.imgWrite K = true) (hs_s : P s) :
    P (imgWrite s l) := by
  simp only [Foot.imgWrite, Bool.and_eq_true] at hK
  obtain ⟨hK0, hK1, hK2, hK3⟩ := hK
  unfold imgWrite
  with_reducible repeat' first
    | assumption
    | refine hgAnswer_closed hP ?_ ?_
    | refine flashWrite_closed hP ?_ ?_
    | refine hP.put _ _ _ _ _ ?_ ?_
    | refine hP.raise ?_ ?_
    | (extract_lets +onlyGivenNames x; apply thenHave (p := P x); (unfold x; clear x); rotate_left 1; (intro hx; clear_value x))
    | (extract_lets +onlyGivenNames x; clear_value x)
    | refine ite_closed ?_ ?_
    | split

theorem imgWrite_get {s : State} {l : List Byte} {fld0 : Fld} {i0 j0 : Nat} (hK : Foot.imgWrite (notFld fld0) = true)  :
    (imgWrite s l).get fld0 i0 j0 = s.get fld0 i0 j0 :=
  imgWrite_closed (P := fun x => x.get fld0 i0 j0 = s.get fld0 i0 j0) (field_closed fld0 i0 j0 _) hK  rfl

def Foot.execImgWrite (K : Part → Bool) : Bool := Foot.imgMessage K && (Foot.imgWrite K)

theorem execImgWrite_closed {K : Part → Bool} {P : State → Prop} {s : State} (hP : Closed K P) (hK : Foot.execImgWrite K =
    true) (hs_s : P s) :
    OutAll P (execImgWrite s) := by
  simp only [Foot.execImgWrite, Bool.and_eq_true] at hK
  obtain ⟨hK0, hK1⟩ := hK
  unfold execImgWrite
  with_reducible repeat' first
    | assumption
    | refine imgMessage_closed hP ?_ ?_ ?_
    | refine imgWrite_closed hP ?_ ?_
    | refine OutAll.mk ?_
    | intro _
    | (extract_lets +onlyGivenNames x; apply thenHave (p := P x); (unfold x; clear x); rotate_left 1; (intro hx; clear_value x))
    | (extract_lets +onlyGivenNames x; clear_value x)
    | (extract_lets +onlyGivenNames x)
    | refine ite_closed ?_ ?_
    | split

def Foot.keySync (K : Part → Bool) : Bool := K (.fld .IM_STATE_PROV) && (K (.fld .OT_STATUS_KSACT))

theorem keySync_closed {K : Part → Bool} {P : State → Prop} {s : State} (hP : Closed K P) (hK : Foot.keySync K = true) (hs_s
    : P s) :
    P (keySync s) := by
  simp only [Foot.keySync, Bool.and_eq_true] at hK
  obtain ⟨hK0, hK1⟩ := hK
  unfold keySync
  with_reducible repeat' first
    | assumption
    | refine hP.put _ _ _ _ _ ?_ ?_

theorem keySync_get {s : State} {fld0 : Fld} {i0 j0 : Nat} (hK : Foot.keySync (notFld fld0) = true)  : (keySync s).get fld0
    i0 j0 = s.get fld0 i0 j0 :=
  keySync_closed (P := fun x => x.get fld0 i0 j0 = s.get fld0 i0 j0) (field_closed fld0 i0 j0 _) hK  rfl

def Foot.keyProgram (K : Part → Bool) : Bool := K .keyHashes && (K (.fld .OT_STATUS_KSPROG) && (Foot.hgAnswer K &&
    (Foot.newChallenge K && (Foot.keySync K))))

theorem keyProgram_closed {K : Part → Bool} {P : State → Prop} {s : State} {l : List Byte} (hP : Closed K P) (hK :
    Foot.keyProgram K = true) (hs_s : P s) :
    P (keyProgram s l) := by
  simp only [Foot.keyProgram, Bool.and_eq_true] at hK
  obtain ⟨hK0, hK1, hK2, hK3, hK4⟩ := hK
  unfold keyProgram
  with_reducible repeat' first
    | assumption
    | refine hgAnswer_closed hP ?_ ?_
    | refine newChallenge_closed hP ?_ ?_
    | refine keySync_closed hP ?_ ?_
    | refine hP.setBits ?_ ?_
    | intro _
    | (extract_lets +onlyGivenNames x; apply thenHave (p := P x); (unfold x; clear x); rotate_left 1; (intro hx; clear_value x))
    | (extract_lets +onlyGivenNames x; clear_value x)
    | refine hP.remake _ _ _ _ _ _ _ _ _ _ _ _ _ _ _ _ _ _ _ _ _ _ _ (hs := ?_); first | assumption | (with_reducible refine hgAnswer_closed hP ?_ ?_) | (with_reducible refine newChallenge_closed hP ?_ ?_) | (with_reducible refine keySync_closed hP ?_ ?_) | (with_reducible refine hP.put _ _ _ _ _ ?_ ?_) | (with_reducible refine hP.clear ?_ ?_) | (with_reducible refine hP.raise ?_ ?_) | (with_reducible refine hP.bump ?_ ?_) | (with_reducible refine hP.setBits ?_ ?_) | (with_reducible refine hP.clrBits ?_ ?_)
    | refine ite_closed ?_ ?_
    | split

theorem keyProgram_get {s : State} {l : List Byte} {fld0 : Fld} {i0 j0 : Nat} (hK : Foot.keyProgram (notFld fld0) = true)  :
    (keyProgram s l).get fld0 i0 j0 = s.get fld0 i0 j0 :=
  keyProgram_closed (P := fun x => x.get fld0 i0 j0 = s.get fld0 i0 j0) (field_closed fld0 i0 j0 _) hK  rfl

def Foot.execKeyProgram (K : Part → Bool) : Bool := Foot.imgMessage K && (Foot.keyProgram K)

theorem execKeyProgram_closed {K : Part → Bool} {P : State → Prop} {s : State} (hP : Closed K P) (hK : Foot.execKeyProgram K
    = true) (hs_s : P s) :
    OutAll P (execKeyProgram s) := by
  simp only [Foot.execKeyProgram, Bool.and_eq_true] at hK
  obtain ⟨hK0, hK1⟩ := hK
  unfold execKeyProgram
  with_reducible repeat' first
    | assumption
    | refine imgMessage_closed hP ?_ ?_ ?_
    | refine keyProgram_closed hP ?_ ?_
    | refine OutAll.mk ?_
    | intro _
    | (extract_lets +onlyGivenNames x; apply thenHave (p := P x); (unfold x; clear x); rotate_left 1; (intro hx; clear_value x))
    | (extract_lets +onlyGivenNames x; clear_value x)
    | (extract_lets +onlyGivenNames x)
    | refine ite_closed ?_ ?_
    | split

def Foot.keyRevoke (K : Part → Bool) : Bool := K (.fld .OT_STATUS_KSREV) && (K (.fld .verOk) && (Foot.hgAnswer K &&
    (Foot.newChallenge K && (Foot.keySync K))))

theorem keyRevoke_closed {K : Part → Bool} {P : State → Prop} {s : State} {l : List Byte} (hP : Closed K P) (hK :
    Foot.keyRevoke K = true) (hs_s : P s) :
    P (keyRevoke s l) := by
  simp only [Foot.keyRevoke, Bool.and_eq_true] at hK
  obtain ⟨hK0, hK1, hK2, hK3, hK4⟩ := hK
  unfold keyRevoke
  with_reducible repeat' first
    | assumption
    | refine hgAnswer_closed hP ?_ ?_
    | refine newChallenge_closed hP ?_ ?_
    | refine keySync_closed hP ?_ ?_
    | refine hP.clear ?_ ?_
    | refine hP.setBits ?_ ?_
    | refine Closed.each ?_ _ ?_
    | intro _
    | (extract_lets +onlyGivenNames x; apply thenHave (p := P x); (unfold x; clear x); rotate_left 1; (intro hx; clear_value x))
    | (extract_lets +onlyGivenNames x; clear_value x)
    | refine ite_closed ?_ ?_
    | split

theorem keyRevoke_get {s : State} {l : List Byte} {fld0 : Fld} {i0 j0 : Nat} (hK : Foot.keyRevoke (notFld fld0) = true)  :
    (keyRevoke s l).get fld0 i0 j0 = s.get fld0 i0 j0 :=
  keyRevoke_closed (P := fun x => x.get fld0 i0 j0 = s.get fld0 i0 j0) (field_closed fld0 i0 j0 _) hK  rfl

def Foot.execKeyRevoke (K : Part → Bool) : Bool := Foot.imgMessage K && (Foot.keyRevoke K)

theorem execKeyRevoke_closed {K : Part → Bool} {P : State → Prop} {s : State} (hP : Closed K P) (hK : Foot.execKeyRevoke K =
    true) (hs_s : P s) :
    OutAll P (execKeyRevoke s) := by
  simp only [Foot.execKeyRevoke, Bool.and_eq_true] at hK
  obtain ⟨hK0, hK1⟩ := hK
  unfold execKeyRevoke
  with_reducible repeat' first
    | assumption
    | refine imgMessage_closed hP ?_ ?_ ?_
    | refine keyRevoke_closed hP ?_ ?_
    | refine OutAll.mk ?_
    | intro _

def Foot.restructure (K : Part → Bool) : Bool := K (.fld .IM_SLADDR) && (K .bounds && (K (.fld .imgVer) && (K (.fld .verOk)
    && (K (.fld .flashBusy) && (Foot.hgAnswer K && (Foot.slWrite K && (Foot.rsDoneWrite K && (Foot.putDigest K &&
    (Foot.putKindBit K && (Foot.dirWrite K && (K (.fld .IM_STATE_SLOT))))))))))))

theorem restructure_closed {K : Part → Bool} {P : State → Prop} {s : State} {mask : Nat} (hP : Closed K P) (hK :
    Foot.restructure K = true) (hs_s : P s) :
    P (restructure s mask) := by
  simp only [Foot.restructure, Bool.and_eq_true] at hK
  obtain ⟨hK0, hK1, hK2, hK3, hK4, hK5, hK6, hK7, hK8, hK9, hK10, hK11⟩ := hK
  unfold restructure
  with_reducible repeat' first
    | assumption
    | refine hgAnswer_closed hP ?_ ?_
    | refine slWrite_closed hP ?_ ?_
    | refine rsDoneWrite_closed hP ?_ ?_
    | refine putDigest_closed hP ?_ ?_
    | refine putKindBit_closed hP ?_ ?_ ?_
    | refine dirWrite_closed hP ?_ ?_
    | refine hP.put _ _ _ _ _ ?_ ?_
    | refine hP.clear ?_ ?_
    | refine hP.raise ?_ ?_
    | refine Closed.each ?_ _ ?_
    | intro _
    | (extract_lets +onlyGivenNames x; apply thenHave (p := P x); (unfold x; clear x); rotate_left 1; (intro hx; clear_value x))
    | (extract_lets +onlyGivenNames x; clear_value x)
    | refine hP.remake _ _ _ _ _ _ _ _ _ _ _ _ _ _ _ _ _ _ _ _ _ _ _ (hs := ?_); first | assumption | (with_reducible refine hgAnswer_closed hP ?_ ?_) | (with_reducible refine slWrite_closed hP ?_ ?_) | (with_reducible refine rsDoneWrite_closed hP ?_ ?_) | (with_reducible refine putDigest_closed hP ?_ ?_) | (with_reducible refine putKindBit_closed hP ?_ ?_ ?_) | (with_reducible refine dirWrite_closed hP ?_ ?_) | (with_reducible refine hP.put _ _ _ _ _ ?_ ?_) | (with_reducible refine hP.clear ?_ ?_) | (with_reducible refine hP.raise ?_ ?_) | (with_reducible refine hP.bump ?_ ?_) | (with_reducible refine hP.setBits ?_ ?_) | (with_reducible refine hP.clrBits ?_ ?_) | (with_reducible refine Closed.each ?_ _ ?_)
    | refine ite_closed ?_ ?_
    | split

theorem restructure_get {s : State} {mask : Nat} {fld0 : Fld} {i0 j0 : Nat} (hK : Foot.restructure (notFld fld0) = true)  :
    (restructure s mask).get fld0 i0 j0 = s.get fld0 i0 j0 :=
  restructure_closed (P := fun x => x.get fld0 i0 j0 = s.get fld0 i0 j0) (field_closed fld0 i0 j0 _) hK  rfl

def Foot.execRestructure (K : Part → Bool) : Bool := Foot.imgMessage K && (Foot.restructure K)

theorem execRestructure_closed {K : Part → Bool} {P : State → Prop} {s : State} (hP : Closed K P) (hK : Foot.execRestructure
    K = true) (hs_s : P s) :
    OutAll P (execRestructure s) := by
  simp only [Foot.execRestructure, Bool.and_eq_true] at hK
  obtain ⟨hK0, hK1⟩ := hK
  unfold execRestructure
  with_reducible repeat' first
    | assumption
    | refine imgMessage_closed hP ?_ ?_ ?_
    | refine restructure_closed hP ?_ ?_
    | refine OutAll.mk ?_
    | intro _

def Foot.resumeStart (K : Part → Bool) : Bool := K (.fld .PW_RSTCAUSE_CCAUSE) && (K (.fld .sleepMode) && (K (.fld .resumeDue)
    && (K (.fld .srefKept) && (K (.fld .started) && (K .soft && (K (.fld .IM_STATE_WARM) && (K (.fld .D4_STATUS_RDY) && (K
    (.fld .sgCount) && (K (.fld .sgOpen) && (K (.fld .stepAt) && (Foot.runStart K && (Foot.enterRom K && (Foot.irRestart K &&
    (Foot.compareResume K && (Foot.sampleSource K && (Foot.wdRestart K && (Foot.putTimes K && (K (.fld .memBad) && (K
    .mem)))))))))))))))))))

theorem resumeStart_closed {K : Part → Bool} {P : State → Prop} {s : State} {kept : Bool} {times : List Nat} (hP : Closed K
    P) (hK : Foot.resumeStart K = true) (hs_s : P s) :
    P (resumeStart s kept times) := by
  simp only [Foot.resumeStart, Bool.and_eq_true] at hK
  obtain ⟨hK0, hK1, hK2, hK3, hK4, hK5, hK6, hK7, hK8, hK9, hK10, hK11, hK12, hK13, hK14, hK15, hK16, hK17, hK18, hK19⟩ := hK
  unfold resumeStart
  with_reducible repeat' first
    | assumption
    | refine runStart_closed hP ?_ ?_
    | refine enterRom_closed hP ?_ ?_
    | refine irRestart_closed hP ?_ ?_
    | refine compareResume_closed hP ?_ ?_
    | refine sampleSource_closed hP ?_ ?_
    | refine wdRestart_closed hP ?_ ?_
    | refine putTimes_closed hP ?_ ?_
    | refine hP.put _ _ _ _ _ ?_ ?_
    | refine hP.clear ?_ ?_
    | refine hP.raise ?_ ?_
    | refine Closed.each ?_ _ ?_
    | refine hP.resetKeys (fun k hk => by (simp only [Bool.and_eq_true, beq_iff_eq] at hk; rw [hk.1]; assumption)) ?_
    | refine hP.memDrop _ _ ?_ ?_
    | intro _
    | (extract_lets +onlyGivenNames x; apply thenHave (p := P x); (unfold x; clear x); rotate_left 1; (intro hx; clear_value x))
    | (extract_lets +onlyGivenNames x; clear_value x)
    | refine hP.remake _ _ _ _ _ _ _ _ _ _ _ _ _ _ _ _ _ _ _ _ _ _ _ (hs := ?_); first | assumption | (with_reducible refine runStart_closed hP ?_ ?_) | (with_reducible refine enterRom_closed hP ?_ ?_) | (with_reducible refine irRestart_closed hP ?_ ?_) | (with_reducible refine compareResume_closed hP ?_ ?_) | (with_reducible refine sampleSource_closed hP ?_ ?_) | (with_reducible refine wdRestart_closed hP ?_ ?_) | (with_reducible refine putTimes_closed hP ?_ ?_) | (with_reducible refine hP.put _ _ _ _ _ ?_ ?_) | (with_reducible refine hP.clear ?_ ?_) | (with_reducible refine hP.raise ?_ ?_) | (with_reducible refine hP.bump ?_ ?_) | (with_reducible refine hP.setBits ?_ ?_) | (with_reducible refine hP.clrBits ?_ ?_) | (with_reducible refine Closed.each ?_ _ ?_)
    | refine ite_closed ?_ ?_
    | split

theorem resumeStart_get {s : State} {kept : Bool} {times : List Nat} {fld0 : Fld} {i0 j0 : Nat} (hK : Foot.resumeStart
    (notFld fld0) = true)  : (resumeStart s kept times).get fld0 i0 j0 = s.get fld0 i0 j0 :=
  resumeStart_closed (P := fun x => x.get fld0 i0 j0 = s.get fld0 i0 j0) (field_closed fld0 i0 j0 _) hK  rfl

def Foot.execResumeStart (K : Part → Bool) : Bool := Foot.resumeStart K

theorem execResumeStart_closed {K : Part → Bool} {P : State → Prop} {kept : Bool} {times : List Nat} {s : State} (hP : Closed
    K P) (hK : Foot.execResumeStart K = true) (hs_s : P s) :
    OutAll P (execResumeStart kept times s) := by
  simp only [Foot.execResumeStart, Bool.and_eq_true] at hK
  unfold execResumeStart
  with_reducible repeat' first
    | assumption
    | refine resumeStart_closed hP ?_ ?_
    | refine OutAll.mk ?_

def Foot.reportDigests (K : Part → Bool) : Bool := K .freeCtr

theorem reportDigests_closed {K : Part → Bool} {P : State → Prop} {s : State} (hP : Closed K P) (hK : Foot.reportDigests K =
    true) (hs_s : P s) :
    P (reportDigests s).2 := by
  simp only [Foot.reportDigests, Bool.and_eq_true] at hK
  unfold reportDigests
  with_reducible repeat' first
    | assumption
    | refine hP.fresh ?_ ?_
    | (dsimp -zeta only)
    | refine of_snd (by assumption) ?_
    | refine of_fst (by assumption) ?_
    | refine of_mid (by assumption) ?_
    | refine of_trd (by assumption) ?_
    | refine of_fth (by assumption) ?_
    | refine foldl_snd ?_ ?_
    | refine foldl_trd ?_ ?_
    | refine foldl_fst ?_ ?_
    | refine foldl_all ?_ ?_
    | intro _
    | (extract_lets +onlyGivenNames x; apply thenHave (p := P x); (unfold x; clear x); rotate_left 1; (intro hx; clear_value x))
    | (extract_lets +onlyGivenNames x; apply thenHave (p := P x.2); (unfold x; clear x); rotate_left 1; (intro hx; clear_value x))
    | (extract_lets +onlyGivenNames x; apply thenHave (p := P x.1); (unfold x; clear x); rotate_left 1; (intro hx; clear_value x))
    | (extract_lets +onlyGivenNames x; apply thenHave (p := P x.2.1); (unfold x; clear x); rotate_left 1; (intro hx; clear_value x))
    | (extract_lets +onlyGivenNames x; apply thenHave (p := P x.2.2); (unfold x; clear x); rotate_left 1; (intro hx; clear_value x))
    | (extract_lets +onlyGivenNames x; clear_value x)
    | (extract_lets +onlyGivenNames x)
    | refine ite_closed ?_ ?_
    | split

def Foot.signingDone (K : Part → Bool) : Bool := K (.fld .attPend) && (K (.fld .sigNo) && (Foot.reportDigests K &&
    (Foot.hgAnswer K)))

theorem signingDone_closed {K : Part → Bool} {P : State → Prop} {s : State} (hP : Closed K P) (hK : Foot.signingDone K =
    true) (hs_s : P s) :
    P (signingDone s) := by
  simp only [Foot.signingDone, Bool.and_eq_true] at hK
  obtain ⟨hK0, hK1, hK2, hK3⟩ := hK
  unfold signingDone
  with_reducible repeat' first
    | assumption
    | refine reportDigests_closed hP ?_ ?_
    | refine hgAnswer_closed hP ?_ ?_
    | refine hP.put _ _ _ _ _ ?_ ?_
    | refine hP.clear ?_ ?_
    | (extract_lets +onlyGivenNames x; apply thenHave (p := P x); (unfold x; clear x); rotate_left 1; (intro hx; clear_value x))
    | (extract_lets +onlyGivenNames x; clear_value x)
    | refine ite_closed ?_ ?_
    | split

theorem signingDone_get {s : State} {fld0 : Fld} {i0 j0 : Nat} (hK : Foot.signingDone (notFld fld0) = true)  : (signingDone
    s).get fld0 i0 j0 = s.get fld0 i0 j0 :=
  signingDone_closed (P := fun x => x.get fld0 i0 j0 = s.get fld0 i0 j0) (field_closed fld0 i0 j0 _) hK  rfl

def Foot.execSigningDone (K : Part → Bool) : Bool := Foot.signingDone K

theorem execSigningDone_closed {K : Part → Bool} {P : State → Prop} {s : State} (hP : Closed K P) (hK : Foot.execSigningDone
    K = true) (hs_s : P s) :
    OutAll P (execSigningDone s) := by
  simp only [Foot.execSigningDone, Bool.and_eq_true] at hK
  unfold execSigningDone
  with_reducible repeat' first
    | assumption
    | refine signingDone_closed hP ?_ ?_
    | refine OutAll.mk ?_

def Foot.execTrialExpiry (K : Part → Bool) : Bool := Foot.trialExpiry K

theorem execTrialExpiry_closed {K : Part → Bool} {P : State → Prop} {s : State} (hP : Closed K P) (hK : Foot.execTrialExpiry
    K = true) (hs_s : P s) :
    OutAll P (execTrialExpiry s) := by
  simp only [Foot.execTrialExpiry, Bool.and_eq_true] at hK
  unfold execTrialExpiry
  with_reducible repeat' first
    | assumption
    | refine trialExpiry_closed hP ?_ ?_
    | refine OutAll.mk ?_

def Foot.failedTrial (K : Part → Bool) : Bool := K (.fld .IM_TRIAL_FAIL) && (Foot.dirWrite K)

theorem failedTrial_closed {K : Part → Bool} {P : State → Prop} {s : State} {base : Nat} (hP : Closed K P) (hK :
    Foot.failedTrial K = true) (hs_s : P s) :
    P (failedTrial s base) := by
  simp only [Foot.failedTrial, Bool.and_eq_true] at hK
  obtain ⟨hK0, hK1⟩ := hK
  unfold failedTrial
  with_reducible repeat' first
    | assumption
    | refine dirWrite_closed hP ?_ ?_
    | refine hP.clear ?_ ?_
    | (extract_lets +onlyGivenNames x; apply thenHave (p := P x); (unfold x; clear x); rotate_left 1; (intro hx; clear_value x))
    | (extract_lets +onlyGivenNames x; clear_value x)
    | refine ite_closed ?_ ?_
    | split

theorem failedTrial_get {s : State} {base : Nat} {fld0 : Fld} {i0 j0 : Nat} (hK : Foot.failedTrial (notFld fld0) = true)  :
    (failedTrial s base).get fld0 i0 j0 = s.get fld0 i0 j0 :=
  failedTrial_closed (P := fun x => x.get fld0 i0 j0 = s.get fld0 i0 j0) (field_closed fld0 i0 j0 _) hK  rfl

def Foot.warmStart (K : Part → Bool) : Bool := K (.fld .warmDue) && (K (.fld .IM_STATE_NOFW) && (K (.fld .IM_STATE_WARM) &&
    (K .logQueue && (K (.fld .ckDue) && (Foot.putDigest K && (Foot.wdRestart K && (Foot.enterRom K && (Foot.ditchWarm K &&
    (Foot.putTimes K && (Foot.failedTrial K && (Foot.startKind K && (Foot.armTrial K && (Foot.loadFirmware K &&
    (Foot.bringInForce K))))))))))))))

theorem warmStart_closed {K : Part → Bool} {P : State → Prop} {s : State} {times : List Nat} (hP : Closed K P) (hK :
    Foot.warmStart K = true) (hs_s : P s) :
    P (warmStart s times) := by
  simp only [Foot.warmStart, Bool.and_eq_true] at hK
  obtain ⟨hK0, hK1, hK2, hK3, hK4, hK5, hK6, hK7, hK8, hK9, hK10, hK11, hK12, hK13, hK14⟩ := hK
  unfold warmStart
  with_reducible repeat' first
    | assumption
    | refine putDigest_closed hP ?_ ?_
    | refine wdRestart_closed hP ?_ ?_
    | refine enterRom_closed hP ?_ ?_
    | refine ditchWarm_closed hP ?_ ?_
    | refine putTimes_closed hP ?_ ?_
    | refine failedTrial_closed hP ?_ ?_
    | refine startKind_closed hP ?_ ?_
    | refine armTrial_closed hP ?_ ?_
    | refine loadFirmware_closed hP ?_ ?_
    | refine bringInForce_closed hP ?_ ?_
    | refine hP.put _ _ _ _ _ ?_ ?_
    | refine hP.clear ?_ ?_
    | refine hP.raise ?_ ?_
    | refine hP.bump ?_ ?_
    | refine hP.setBits ?_ ?_
    | refine hP.clrBits ?_ ?_
    | (dsimp -zeta only)
    | refine of_snd (by assumption) ?_
    | refine of_fst (by assumption) ?_
    | refine of_mid (by assumption) ?_
    | refine of_trd (by assumption) ?_
    | refine of_fth (by assumption) ?_
    | intro _
    | (extract_lets +onlyGivenNames x; apply thenHave (p := P x); (unfold x; clear x); rotate_left 1; (intro hx; clear_value x))
    | (extract_lets +onlyGivenNames x; apply thenHave (p := P x.2); (unfold x; clear x); rotate_left 1; (intro hx; clear_value x))
    | (extract_lets +onlyGivenNames x; apply thenHave (p := P x.1); (unfold x; clear x); rotate_left 1; (intro hx; clear_value x))
    | (extract_lets +onlyGivenNames x; apply thenHave (p := P x.2.1); (unfold x; clear x); rotate_left 1; (intro hx; clear_value x))
    | (extract_lets +onlyGivenNames x; apply thenHave (p := P x.2.2); (unfold x; clear x); rotate_left 1; (intro hx; clear_value x))
    | (extract_lets +onlyGivenNames x; clear_value x)
    | (extract_lets +onlyGivenNames x)
    | refine hP.remake _ _ _ _ _ _ _ _ _ _ _ _ _ _ _ _ _ _ _ _ _ _ _ (hs := ?_); first | assumption | (with_reducible refine putDigest_closed hP ?_ ?_) | (with_reducible refine wdRestart_closed hP ?_ ?_) | (with_reducible refine enterRom_closed hP ?_ ?_) | (with_reducible refine ditchWarm_closed hP ?_ ?_) | (with_reducible refine putTimes_closed hP ?_ ?_) | (with_reducible refine failedTrial_closed hP ?_ ?_) | (with_reducible refine startKind_closed hP ?_ ?_) | (with_reducible refine armTrial_closed hP ?_ ?_) | (with_reducible refine loadFirmware_closed hP ?_ ?_) | (with_reducible refine bringInForce_closed hP ?_ ?_) | (with_reducible refine hP.put _ _ _ _ _ ?_ ?_) | (with_reducible refine hP.clear ?_ ?_) | (with_reducible refine hP.raise ?_ ?_) | (with_reducible refine hP.bump ?_ ?_) | (with_reducible refine hP.setBits ?_ ?_) | (with_reducible refine hP.clrBits ?_ ?_)
    | refine ite_closed ?_ ?_
    | split

theorem warmStart_get {s : State} {times : List Nat} {fld0 : Fld} {i0 j0 : Nat} (hK : Foot.warmStart (notFld fld0) = true)  :
    (warmStart s times).get fld0 i0 j0 = s.get fld0 i0 j0 :=
  warmStart_closed (P := fun x => x.get fld0 i0 j0 = s.get fld0 i0 j0) (field_closed fld0 i0 j0 _) hK  rfl

def Foot.execWarmStart (K : Part → Bool) : Bool := Foot.warmStart K

theorem execWarmStart_closed {K : Part → Bool} {P : State → Prop} {times : List Nat} {s : State} (hP : Closed K P) (hK :
    Foot.execWarmStart K = true) (hs_s : P s) :
    OutAll P (execWarmStart times s) := by
  simp only [Foot.execWarmStart, Bool.and_eq_true] at hK
  unfold execWarmStart
  with_reducible repeat' first
    | assumption
    | refine warmStart_closed hP ?_ ?_
    | refine OutAll.mk ?_

end Sys2Proof.Machine
end

