-- ==== Sys2Proof/Laws/ClosedTlb.lean ====
section
/-! SUPPORT. What the functions of Machine/Tlb.lean can write, and that they keep every closed property (Laws/Closed.lean). -/
namespace Sys2Proof.Machine

set_option Elab.async false
set_option linter.all false

def Foot.asidWrite (K : Part → Bool) : Bool := K (.fld .XC_ASID_ASID) && (K (.fld .tlbV))

theorem asidWrite_closed {K : Part → Bool} {P : State → Prop} {s : State} {v : Int} (hP : Closed K P) (hK : Foot.asidWrite K
    = true) (hs_s : P s) :
    P (asidWrite s v) := by
  simp only [Foot.asidWrite, Bool.and_eq_true] at hK
  obtain ⟨hK0, hK1⟩ := hK
  unfold asidWrite
  with_reducible repeat' first
    | assumption
    | refine hP.put _ _ _ _ _ ?_ ?_
    | refine hP.clear ?_ ?_
    | refine Closed.each ?_ _ ?_
    | intro _
    | (extract_lets +onlyGivenNames x; apply thenHave (p := P x); (unfold x; clear x); rotate_left 1; (intro hx; clear_value x))
    | (extract_lets +onlyGivenNames x; clear_value x)
    | refine ite_closed ?_ ?_
    | split

theorem asidWrite_get {s : State} {v : Int} {fld0 : Fld} {i0 j0 : Nat} (hK : Foot.asidWrite (notFld fld0) = true)  :
    (asidWrite s v).get fld0 i0 j0 = s.get fld0 i0 j0 :=
  asidWrite_closed (P := fun x => x.get fld0 i0 j0 = s.get fld0 i0 j0) (field_closed fld0 i0 j0 _) hK  rfl

def Foot.tlbPut (K : Part → Bool) : Bool := K (.fld .tlbAsid) && (K (.fld .tlbVpn) && (K (.fld .tlbV) && (K (.fld .tlbPte) &&
    (K (.fld .tlbG) && (K (.fld .tlbSz))))))

theorem tlbPut_closed {K : Part → Bool} {P : State → Prop} {s : State} {i : Nat} {vpn : Int} {asid : Int} {sz : Int} {g :
    Bool} {v : Bool} {pte : Int} (hP : Closed K P) (hK : Foot.tlbPut K = true) (hs_s : P s) :
    P (tlbPut s i vpn asid sz g v pte) := by
  simp only [Foot.tlbPut, Bool.and_eq_true] at hK
  obtain ⟨hK0, hK1, hK2, hK3, hK4, hK5⟩ := hK
  unfold tlbPut
  with_reducible repeat' first
    | assumption
    | refine hP.put _ _ _ _ _ ?_ ?_
    | (extract_lets +onlyGivenNames x; apply thenHave (p := P x); (unfold x; clear x); rotate_left 1; (intro hx; clear_value x))
    | (extract_lets +onlyGivenNames x; clear_value x)

theorem tlbPut_get {s : State} {i : Nat} {vpn : Int} {asid : Int} {sz : Int} {g : Bool} {v : Bool} {pte : Int} {fld0 : Fld}
    {i0 j0 : Nat} (hK : Foot.tlbPut (notFld fld0) = true)  : (tlbPut s i vpn asid sz g v pte).get fld0 i0 j0 = s.get fld0 i0
    j0 :=
  tlbPut_closed (P := fun x => x.get fld0 i0 j0 = s.get fld0 i0 j0) (field_closed fld0 i0 j0 _) hK  rfl

def Foot.tlbOp (K : Part → Bool) : Bool := K (.fld .XC_TLBTAG_SZ) && (K (.fld .XC_TLBTAG_ASID) && (K (.fld .XC_TLBTAG_VPN) &&
    (K (.fld .XC_TLBPTE) && (K (.fld .XC_TLBTAG_V) && (K (.fld .XC_TLBTAG_G) && (Foot.tlbPut K))))))

theorem tlbOp_closed {K : Part → Bool} {P : State → Prop} {s : State} {rd : Bool} {wr : Bool} (hP : Closed K P) (hK :
    Foot.tlbOp K = true) (hs_s : P s) :
    P (tlbOp s rd wr) := by
  simp only [Foot.tlbOp, Bool.and_eq_true] at hK
  obtain ⟨hK0, hK1, hK2, hK3, hK4, hK5, hK6⟩ := hK
  unfold tlbOp
  with_reducible repeat' first
    | assumption
    | refine tlbPut_closed hP ?_ ?_
    | refine hP.put _ _ _ _ _ ?_ ?_
    | (extract_lets +onlyGivenNames x; apply thenHave (p := P x); (unfold x; clear x); rotate_left 1; (intro hx; clear_value x))
    | (extract_lets +onlyGivenNames x; clear_value x)
    | refine ite_closed ?_ ?_
    | split

theorem tlbOp_get {s : State} {rd : Bool} {wr : Bool} {fld0 : Fld} {i0 j0 : Nat} (hK : Foot.tlbOp (notFld fld0) = true)  :
    (tlbOp s rd wr).get fld0 i0 j0 = s.get fld0 i0 j0 :=
  tlbOp_closed (P := fun x => x.get fld0 i0 j0 = s.get fld0 i0 j0) (field_closed fld0 i0 j0 _) hK  rfl

def Foot.translate (K : Part → Bool) : Bool := K (.fld .XC_MMU_MULTI)

theorem translate_closed {K : Part → Bool} {P : State → Prop} {s : State} {va : Int} {sup : Bool} {x : Access} (hP : Closed K
    P) (hK : Foot.translate K = true) (hs_s : P s) :
    P (translate s va sup x).2 := by
  simp only [Foot.translate, Bool.and_eq_true] at hK
  unfold translate
  with_reducible repeat' first
    | assumption
    | refine hP.raise ?_ ?_
    | (extract_lets +onlyGivenNames x; apply thenHave (p := P x); (unfold x; clear x); rotate_left 1; (intro hx; clear_value x))
    | (extract_lets +onlyGivenNames x; clear_value x)
    | refine ite_closed ?_ ?_
    | split

def Foot.tlbwr (K : Part → Bool) : Bool := K (.fld .tlbV) && (K (.fld .XC_MMU_RP) && (Foot.tlbPut K))

theorem tlbwr_closed {K : Part → Bool} {P : State → Prop} {s : State} {pte : Int} {sz : Int} (hP : Closed K P) (hK :
    Foot.tlbwr K = true) (hs_s : P s) :
    P (tlbwr s pte sz) := by
  simp only [Foot.tlbwr, Bool.and_eq_true] at hK
  obtain ⟨hK0, hK1, hK2⟩ := hK
  unfold tlbwr
  with_reducible repeat' first
    | assumption
    | refine tlbPut_closed hP ?_ ?_
    | refine hP.put _ _ _ _ _ ?_ ?_
    | refine hP.clear ?_ ?_
    | refine Closed.each ?_ _ ?_
    | intro _
    | (extract_lets +onlyGivenNames x; apply thenHave (p := P x); (unfold x; clear x); rotate_left 1; (intro hx; clear_value x))
    | (extract_lets +onlyGivenNames x; clear_value x)
    | refine ite_closed ?_ ?_
    | split

theorem tlbwr_get {s : State} {pte : Int} {sz : Int} {fld0 : Fld} {i0 j0 : Nat} (hK : Foot.tlbwr (notFld fld0) = true)  :
    (tlbwr s pte sz).get fld0 i0 j0 = s.get fld0 i0 j0 :=
  tlbwr_closed (P := fun x => x.get fld0 i0 j0 = s.get fld0 i0 j0) (field_closed fld0 i0 j0 _) hK  rfl

def Foot.tlbinvAll (K : Part → Bool) : Bool := K (.fld .tlbV)

theorem tlbinvAll_closed {K : Part → Bool} {P : State → Prop} {s : State} (hP : Closed K P) (hK : Foot.tlbinvAll K = true)
    (hs_s : P s) :
    P (tlbinvAll s) := by
  simp only [Foot.tlbinvAll, Bool.and_eq_true] at hK
  unfold tlbinvAll
  with_reducible repeat' first
    | assumption
    | refine hP.clear ?_ ?_
    | refine Closed.each ?_ _ ?_
    | intro _

theorem tlbinvAll_get {s : State} {fld0 : Fld} {i0 j0 : Nat} (hK : Foot.tlbinvAll (notFld fld0) = true)  : (tlbinvAll s).get
    fld0 i0 j0 = s.get fld0 i0 j0 :=
  tlbinvAll_closed (P := fun x => x.get fld0 i0 j0 = s.get fld0 i0 j0) (field_closed fld0 i0 j0 _) hK  rfl

def Foot.tlbinvAsid (K : Part → Bool) : Bool := K (.fld .tlbV)

theorem tlbinvAsid_closed {K : Part → Bool} {P : State → Prop} {s : State} {asid : Int} (hP : Closed K P) (hK :
    Foot.tlbinvAsid K = true) (hs_s : P s) :
    P (tlbinvAsid s asid) := by
  simp only [Foot.tlbinvAsid, Bool.and_eq_true] at hK
  unfold tlbinvAsid
  with_reducible repeat' first
    | assumption
    | refine hP.clear ?_ ?_
    | refine Closed.each ?_ _ ?_
    | intro _

theorem tlbinvAsid_get {s : State} {asid : Int} {fld0 : Fld} {i0 j0 : Nat} (hK : Foot.tlbinvAsid (notFld fld0) = true)  :
    (tlbinvAsid s asid).get fld0 i0 j0 = s.get fld0 i0 j0 :=
  tlbinvAsid_closed (P := fun x => x.get fld0 i0 j0 = s.get fld0 i0 j0) (field_closed fld0 i0 j0 _) hK  rfl

def Foot.tlbinvVa (K : Part → Bool) : Bool := K (.fld .tlbV)

theorem tlbinvVa_closed {K : Part → Bool} {P : State → Prop} {s : State} {va : Int} (hP : Closed K P) (hK : Foot.tlbinvVa K =
    true) (hs_s : P s) :
    P (tlbinvVa s va) := by
  simp only [Foot.tlbinvVa, Bool.and_eq_true] at hK
  unfold tlbinvVa
  with_reducible repeat' first
    | assumption
    | refine hP.clear ?_ ?_
    | refine Closed.each ?_ _ ?_
    | intro _

theorem tlbinvVa_get {s : State} {va : Int} {fld0 : Fld} {i0 j0 : Nat} (hK : Foot.tlbinvVa (notFld fld0) = true)  : (tlbinvVa
    s va).get fld0 i0 j0 = s.get fld0 i0 j0 :=
  tlbinvVa_closed (P := fun x => x.get fld0 i0 j0 = s.get fld0 i0 j0) (field_closed fld0 i0 j0 _) hK  rfl

end Sys2Proof.Machine
end

