-- ==== Sys2Proof/Laws/ClosedAccess.lean ====
section
/-! SUPPORT. What the functions of Machine/Access.lean can write, and that they keep every closed property (Laws/Closed.lean). -/
namespace Sys2Proof.Machine

set_option Elab.async false
set_option linter.all false

def Foot.reservedWrite (K : Part → Bool) : Bool := Foot.irRefuse K

theorem reservedWrite_closed {K : Part → Bool} {P : State → Prop} {s : State} {ag : Agent} {a : Nat} (hP : Closed K P) (hK :
    Foot.reservedWrite K = true) (hs_s : P s) :
    P (reservedWrite s ag a) := by
  simp only [Foot.reservedWrite, Bool.and_eq_true] at hK
  unfold reservedWrite
  with_reducible repeat' first
    | assumption
    | refine irRefuse_closed hP ?_ ?_
    | refine ite_closed ?_ ?_
    | split

theorem reservedWrite_get {s : State} {ag : Agent} {a : Nat} {fld0 : Fld} {i0 j0 : Nat} (hK : Foot.reservedWrite (notFld
    fld0) = true)  : (reservedWrite s ag a).get fld0 i0 j0 = s.get fld0 i0 j0 :=
  reservedWrite_closed (P := fun x => x.get fld0 i0 j0 = s.get fld0 i0 j0) (field_closed fld0 i0 j0 _) hK  rfl

def Foot.storeField (K : Part → Bool) : Bool := K .writes && (Foot.reportIllegal K && ((allFld fun f => K (.fld f))))

theorem storeField_closed {K : Part → Bool} {P : State → Prop} {s : State} {a : Nat} {f : FieldRow} {i : Nat} {j : Nat} {w :
    Option Nat} {v : Int} (hP : Closed K P) (hK : Foot.storeField K = true) (hs_s : P s) :
    P (storeField s a f i j w v) := by
  simp only [Foot.storeField, Bool.and_eq_true] at hK
  obtain ⟨hK0, hK1, hK2⟩ := hK
  unfold storeField
  with_reducible repeat' first
    | assumption
    | refine allFld_fld ?_ _
    | refine reportIllegal_closed hP ?_ ?_
    | refine hP.put _ _ _ _ _ ?_ ?_
    | refine hP.setBits ?_ ?_
    | refine hP.clrBits ?_ ?_
    | refine hP.later ?_ ?_
    | (extract_lets +onlyGivenNames x; apply thenHave (p := P x); (unfold x; clear x); rotate_left 1; (intro hx; clear_value x))
    | (extract_lets +onlyGivenNames x; clear_value x)
    | refine ite_closed ?_ ?_
    | split

theorem storeField_get {s : State} {a : Nat} {f : FieldRow} {i : Nat} {j : Nat} {w : Option Nat} {v : Int} {fld0 : Fld} {i0
    j0 : Nat} (hK : Foot.storeField (notFld fld0) = true)  : (storeField s a f i j w v).get fld0 i0 j0 = s.get fld0 i0 j0 :=
  storeField_closed (P := fun x => x.get fld0 i0 j0 = s.get fld0 i0 j0) (field_closed fld0 i0 j0 _) hK  rfl

def Foot.storeFields (K : Part → Bool) : Bool := Foot.storeField K

theorem storeFields_closed {K : Part → Bool} {P : State → Prop} {s : State} {reg : RegRow} {i : Nat} {j : Nat} {w : Option
    Nat} {v : Int} (hP : Closed K P) (hK : Foot.storeFields K = true) (hs_s : P s) :
    P (storeFields s reg i j w v) := by
  simp only [Foot.storeFields, Bool.and_eq_true] at hK
  unfold storeFields
  with_reducible repeat' first
    | assumption
    | refine storeField_closed hP ?_ ?_
    | refine Closed.each ?_ _ ?_
    | intro _

theorem storeFields_get {s : State} {reg : RegRow} {i : Nat} {j : Nat} {w : Option Nat} {v : Int} {fld0 : Fld} {i0 j0 : Nat}
    (hK : Foot.storeFields (notFld fld0) = true)  : (storeFields s reg i j w v).get fld0 i0 j0 = s.get fld0 i0 j0 :=
  storeFields_closed (P := fun x => x.get fld0 i0 j0 = s.get fld0 i0 j0) (field_closed fld0 i0 j0 _) hK  rfl

def Foot.ucWrite (K : Part → Bool) : Bool := K (.fld .UC_STATUS_LDERR) && (Foot.microwordWrite K && (Foot.decodeEntryWrite K
    && (Foot.storeFields K)))

theorem ucWrite_closed {K : Part → Bool} {P : State → Prop} {s : State} {ag : Agent} {base : Nat} {i : Nat} {reg : RegRow} {w
    : Option Nat} {v : Int} (hP : Closed K P) (hK : Foot.ucWrite K = true) (hs_s : P s) :
    P (ucWrite s ag base i reg w v) := by
  simp only [Foot.ucWrite, Bool.and_eq_true] at hK
  obtain ⟨hK0, hK1, hK2, hK3⟩ := hK
  unfold ucWrite
  with_reducible repeat' first
    | assumption
    | refine microwordWrite_closed hP ?_ ?_
    | refine decodeEntryWrite_closed hP ?_ ?_
    | refine storeFields_closed hP ?_ ?_
    | refine hP.raise ?_ ?_
    | (extract_lets +onlyGivenNames x; apply thenHave (p := P x); (unfold x; clear x); rotate_left 1; (intro hx; clear_value x))
    | (extract_lets +onlyGivenNames x; clear_value x)
    | refine ite_closed ?_ ?_
    | split

theorem ucWrite_get {s : State} {ag : Agent} {base : Nat} {i : Nat} {reg : RegRow} {w : Option Nat} {v : Int} {fld0 : Fld}
    {i0 j0 : Nat} (hK : Foot.ucWrite (notFld fld0) = true)  : (ucWrite s ag base i reg w v).get fld0 i0 j0 = s.get fld0 i0 j0
    :=
  ucWrite_closed (P := fun x => x.get fld0 i0 j0 = s.get fld0 i0 j0) (field_closed fld0 i0 j0 _) hK  rfl

def Foot.irWrite (K : Part → Bool) : Bool := K (.fld .IR_SRCST_RLIM) && (K (.fld .IR_SRCST_STRAND) && (Foot.irCfgWrite K &&
    (Foot.irRefuse K && (Foot.irRlWrite K && (Foot.spend K && (Foot.clearPending K && (Foot.storeFields K)))))))

theorem irWrite_closed {K : Part → Bool} {P : State → Prop} {s : State} {ag : Agent} {base : Nat} {i : Nat} {reg : RegRow} {w
    : Option Nat} {v : Int} (hP : Closed K P) (hK : Foot.irWrite K = true) (hs_s : P s) :
    P (irWrite s ag base i reg w v) := by
  simp only [Foot.irWrite, Bool.and_eq_true] at hK
  obtain ⟨hK0, hK1, hK2, hK3, hK4, hK5, hK6, hK7⟩ := hK
  unfold irWrite
  with_reducible repeat' first
    | assumption
    | refine irCfgWrite_closed hP ?_ ?_
    | refine irRefuse_closed hP ?_ ?_
    | refine irRlWrite_closed hP ?_ ?_
    | refine spend_closed hP ?_ ?_
    | refine clearPending_closed hP ?_ ?_
    | refine storeFields_closed hP ?_ ?_
    | refine hP.clear ?_ ?_
    | refine Closed.when ?_ ?_
    | intro _
    | (extract_lets +onlyGivenNames x; apply thenHave (p := P x); (unfold x; clear x); rotate_left 1; (intro hx; clear_value x))
    | (extract_lets +onlyGivenNames x; clear_value x)
    | refine ite_closed ?_ ?_
    | split

theorem irWrite_get {s : State} {ag : Agent} {base : Nat} {i : Nat} {reg : RegRow} {w : Option Nat} {v : Int} {fld0 : Fld}
    {i0 j0 : Nat} (hK : Foot.irWrite (notFld fld0) = true)  : (irWrite s ag base i reg w v).get fld0 i0 j0 = s.get fld0 i0 j0
    :=
  irWrite_closed (P := fun x => x.get fld0 i0 j0 = s.get fld0 i0 j0) (field_closed fld0 i0 j0 _) hK  rfl

def Foot.dmaWrite (K : Part → Bool) : Bool := K (.fld .dmaRaised) && (Foot.dmaRefuse K && (Foot.dmaCfgWrite K &&
    (Foot.storeFields K && (Foot.dmaCtlWrite K && (Foot.dmaAddrWrite K && (Foot.dmaCntWrite K && (K (.fld .DMA_SRC) && (K
    (.fld .DMA_DST)))))))))

theorem dmaWrite_closed {K : Part → Bool} {P : State → Prop} {s : State} {ag : Agent} {base : Nat} {c : Nat} {reg : RegRow}
    {w : Option Nat} {v : Int} (hP : Closed K P) (hK : Foot.dmaWrite K = true) (hs_s : P s) :
    P (dmaWrite s ag base c reg w v) := by
  simp only [Foot.dmaWrite, Bool.and_eq_true] at hK
  obtain ⟨hK0, hK1, hK2, hK3, hK4, hK5, hK6, hK7, hK8⟩ := hK
  unfold dmaWrite
  with_reducible repeat' first
    | assumption
    | refine dmaRefuse_closed hP ?_ ?_
    | refine dmaCfgWrite_closed hP ?_ ?_
    | refine storeFields_closed hP ?_ ?_
    | refine dmaCtlWrite_closed hP ?_ ?_
    | refine dmaAddrWrite_closed hP ?_ ?_ ?_
    | refine dmaCntWrite_closed hP ?_ ?_
    | refine hP.clear ?_ ?_
    | refine Closed.when ?_ ?_
    | intro _
    | (extract_lets +onlyGivenNames x; apply thenHave (p := P x); (unfold x; clear x); rotate_left 1; (intro hx; clear_value x))
    | (extract_lets +onlyGivenNames x; clear_value x)
    | refine ite_closed ?_ ?_
    | split

theorem dmaWrite_get {s : State} {ag : Agent} {base : Nat} {c : Nat} {reg : RegRow} {w : Option Nat} {v : Int} {fld0 : Fld}
    {i0 j0 : Nat} (hK : Foot.dmaWrite (notFld fld0) = true)  : (dmaWrite s ag base c reg w v).get fld0 i0 j0 = s.get fld0 i0
    j0 :=
  dmaWrite_closed (P := fun x => x.get fld0 i0 j0 = s.get fld0 i0 j0) (field_closed fld0 i0 j0 _) hK  rfl

def Foot.eventWrite (K : Part → Bool) : Bool := Foot.corePublish K && (Foot.proxyPublish K && (Foot.userPublish K &&
    (Foot.tripWrite K && (Foot.maskWrite K && (Foot.chCfgWrite K && (Foot.chSgWrite K && (Foot.turnoutWrite K && (K (.fld
    .EV_WAKE) && (K (.fld .EV_WFEMASK))))))))))

theorem eventWrite_closed {K : Part → Bool} {P : State → Prop} {s : State} {ag : Agent} {base : Nat} {i : Nat} {reg : RegRow}
    {w : Option Nat} {v : Int} (hP : Closed K P) (hK : Foot.eventWrite K = true) (hs_s : P s) :
    OptAll P (eventWrite s ag base i reg w v) := by
  simp only [Foot.eventWrite, Bool.and_eq_true] at hK
  obtain ⟨hK0, hK1, hK2, hK3, hK4, hK5, hK6, hK7, hK8, hK9⟩ := hK
  unfold eventWrite
  with_reducible repeat' first
    | assumption
    | refine corePublish_closed hP ?_ ?_
    | refine proxyPublish_closed hP ?_ ?_
    | refine userPublish_closed hP ?_ ?_
    | refine tripWrite_closed hP ?_ ?_
    | refine maskWrite_closed hP ?_ ?_ ?_
    | refine chCfgWrite_closed hP ?_ ?_
    | refine chSgWrite_closed hP ?_ ?_
    | refine turnoutWrite_closed hP ?_ ?_
    | refine OptAll.mk ?_
    | exact OptAll.none
    | intro _
    | (extract_lets +onlyGivenNames x; apply thenHave (p := P x); (unfold x; clear x); rotate_left 1; (intro hx; clear_value x))
    | (extract_lets +onlyGivenNames x; clear_value x)
    | refine ite_closed ?_ ?_
    | split

def Foot.tempLimitWrite (K : Part → Bool) : Bool := K .writes && (K (.fld .FL_STATUS_CFGERR))

theorem tempLimitWrite_closed {K : Part → Bool} {P : State → Prop} {s : State} {f : Fld} {c : Nat} {v : Int} (hP : Closed K
    P) (hK : Foot.tempLimitWrite K = true) (hs_s : P s) :
    P (tempLimitWrite s f c v) := by
  simp only [Foot.tempLimitWrite, Bool.and_eq_true] at hK
  obtain ⟨hK0, hK1⟩ := hK
  unfold tempLimitWrite
  with_reducible repeat' first
    | assumption
    | refine hP.raise ?_ ?_
    | refine hP.later ?_ ?_
    | (extract_lets +onlyGivenNames x; apply thenHave (p := P x); (unfold x; clear x); rotate_left 1; (intro hx; clear_value x))
    | (extract_lets +onlyGivenNames x; clear_value x)
    | refine ite_closed ?_ ?_
    | split

theorem tempLimitWrite_get {s : State} {f : Fld} {c : Nat} {v : Int} {fld0 : Fld} {i0 j0 : Nat} (hK : Foot.tempLimitWrite
    (notFld fld0) = true)  : (tempLimitWrite s f c v).get fld0 i0 j0 = s.get fld0 i0 j0 :=
  tempLimitWrite_closed (P := fun x => x.get fld0 i0 j0 = s.get fld0 i0 j0) (field_closed fld0 i0 j0 _) hK  rfl

def Foot.forceWrite (K : Part → Bool) : Bool := K (.fld .SL_STATUS_CFGERR) && (K .writes)

theorem forceWrite_closed {K : Part → Bool} {P : State → Prop} {s : State} {p : Nat} {v : Int} (hP : Closed K P) (hK :
    Foot.forceWrite K = true) (hs_s : P s) :
    P (forceWrite s p v) := by
  simp only [Foot.forceWrite, Bool.and_eq_true] at hK
  obtain ⟨hK0, hK1⟩ := hK
  unfold forceWrite
  with_reducible repeat' first
    | assumption
    | refine hP.raise ?_ ?_
    | refine hP.later ?_ ?_
    | (extract_lets +onlyGivenNames x; apply thenHave (p := P x); (unfold x; clear x); rotate_left 1; (intro hx; clear_value x))
    | (extract_lets +onlyGivenNames x; clear_value x)
    | refine ite_closed ?_ ?_
    | split

theorem forceWrite_get {s : State} {p : Nat} {v : Int} {fld0 : Fld} {i0 j0 : Nat} (hK : Foot.forceWrite (notFld fld0) = true)
     : (forceWrite s p v).get fld0 i0 j0 = s.get fld0 i0 j0 :=
  forceWrite_closed (P := fun x => x.get fld0 i0 j0 = s.get fld0 i0 j0) (field_closed fld0 i0 j0 _) hK  rfl

def Foot.thresholdWrite (K : Part → Bool) : Bool := K .writes && (K (.fld .WP_STATUS_CFGERR))

theorem thresholdWrite_closed {K : Part → Bool} {P : State → Prop} {s : State} {f : Fld} {w : Nat} {v : Int} (hP : Closed K
    P) (hK : Foot.thresholdWrite K = true) (hs_s : P s) :
    P (thresholdWrite s f w v) := by
  simp only [Foot.thresholdWrite, Bool.and_eq_true] at hK
  obtain ⟨hK0, hK1⟩ := hK
  unfold thresholdWrite
  with_reducible repeat' first
    | assumption
    | refine hP.raise ?_ ?_
    | refine hP.later ?_ ?_
    | (extract_lets +onlyGivenNames x; apply thenHave (p := P x); (unfold x; clear x); rotate_left 1; (intro hx; clear_value x))
    | (extract_lets +onlyGivenNames x; clear_value x)
    | refine ite_closed ?_ ?_
    | split

theorem thresholdWrite_get {s : State} {f : Fld} {w : Nat} {v : Int} {fld0 : Fld} {i0 j0 : Nat} (hK : Foot.thresholdWrite
    (notFld fld0) = true)  : (thresholdWrite s f w v).get fld0 i0 j0 = s.get fld0 i0 j0 :=
  thresholdWrite_closed (P := fun x => x.get fld0 i0 j0 = s.get fld0 i0 j0) (field_closed fld0 i0 j0 _) hK  rfl

def Foot.shedWrite (K : Part → Bool) : Bool := K .writes && (K (.fld .PH_STATUS_CFGERR))

theorem shedWrite_closed {K : Part → Bool} {P : State → Prop} {s : State} {f : Fld} {r : Nat} {v : Int} (hP : Closed K P) (hK
    : Foot.shedWrite K = true) (hs_s : P s) :
    P (shedWrite s f r v) := by
  simp only [Foot.shedWrite, Bool.and_eq_true] at hK
  obtain ⟨hK0, hK1⟩ := hK
  unfold shedWrite
  with_reducible repeat' first
    | assumption
    | refine hP.raise ?_ ?_
    | refine hP.later ?_ ?_
    | (extract_lets +onlyGivenNames x; apply thenHave (p := P x); (unfold x; clear x); rotate_left 1; (intro hx; clear_value x))
    | (extract_lets +onlyGivenNames x; clear_value x)
    | refine ite_closed ?_ ?_
    | split

theorem shedWrite_get {s : State} {f : Fld} {r : Nat} {v : Int} {fld0 : Fld} {i0 j0 : Nat} (hK : Foot.shedWrite (notFld fld0)
    = true)  : (shedWrite s f r v).get fld0 i0 j0 = s.get fld0 i0 j0 :=
  shedWrite_closed (P := fun x => x.get fld0 i0 j0 = s.get fld0 i0 j0) (field_closed fld0 i0 j0 _) hK  rfl

def Foot.dataWrite (K : Part → Bool) : Bool := K (.fld .insReq) && (K .writes && (K (.fld .SL_STATUS_CFGERR) && (K (.fld
    .addReq) && (K (.fld .dropReq) && (K (.fld .insAllReq) && (Foot.storeFields K && (Foot.rotationStep K &&
    (Foot.declareConverter K && (Foot.tempLimitWrite K && (Foot.commitBank K && (Foot.copyBank K && (Foot.setpointWrite K &&
    (Foot.reportIllegal K && (Foot.fclrWrite K && (Foot.rsreqWrite K && (Foot.forceWrite K && (Foot.csubWrite K &&
    (Foot.thresholdWrite K && (Foot.declareWeir K && (Foot.grantDecide K && (Foot.snapStart K && (Foot.shedWrite K &&
    (Foot.retirePhase K && (Foot.unretPhase K && (Foot.bankWrite K && ((allFld fun f => K (.fld f))))))))))))))))))))))))))))

theorem dataWrite_closed {K : Part → Bool} {P : State → Prop} {s : State} {base : Nat} {i : Nat} {j : Nat} {reg : RegRow} {w
    : Option Nat} {v : Int} (hP : Closed K P) (hK : Foot.dataWrite K = true) (hs_s : P s) :
    OptAll P (dataWrite s base i j reg w v) := by
  simp only [Foot.dataWrite, Bool.and_eq_true] at hK
  obtain ⟨hK0, hK1, hK2, hK3, hK4, hK5, hK6, hK7, hK8, hK9, hK10, hK11, hK12, hK13, hK14, hK15, hK16, hK17, hK18, hK19, hK20, hK21, hK22, hK23, hK24, hK25, hK26⟩ := hK
  unfold dataWrite
  with_reducible repeat' first
    | assumption
    | refine allFld_fld ?_ _
    | refine storeFields_closed hP ?_ ?_
    | refine rotationStep_closed hP ?_ ?_
    | refine declareConverter_closed hP ?_ ?_
    | refine tempLimitWrite_closed hP ?_ ?_
    | refine commitBank_closed hP ?_ ?_
    | refine copyBank_closed hP ?_ ?_
    | refine setpointWrite_closed hP ?_ ?_
    | refine reportIllegal_closed hP ?_ ?_
    | refine fclrWrite_closed hP ?_ ?_
    | refine rsreqWrite_closed hP ?_ ?_
    | refine forceWrite_closed hP ?_ ?_
    | refine csubWrite_closed hP ?_ ?_
    | refine thresholdWrite_closed hP ?_ ?_
    | refine declareWeir_closed hP ?_ ?_
    | refine grantDecide_closed hP ?_ ?_
    | refine snapStart_closed hP ?_ ?_
    | refine shedWrite_closed hP ?_ ?_
    | refine retirePhase_closed hP ?_ ?_
    | refine unretPhase_closed hP ?_ ?_
    | refine bankWrite_closed hP ?_ ?_ ?_
    | refine hP.raise ?_ ?_
    | refine hP.setBits ?_ ?_
    | refine Closed.each ?_ _ ?_
    | refine Closed.when ?_ ?_
    | refine hP.later ?_ ?_
    | refine OptAll.mk ?_
    | exact OptAll.none
    | intro _
    | (extract_lets +onlyGivenNames x; apply thenHave (p := P x); (unfold x; clear x); rotate_left 1; (intro hx; clear_value x))
    | (extract_lets +onlyGivenNames x; clear_value x)
    | refine ite_closed ?_ ?_
    | split

def Foot.systemWrite (K : Part → Bool) : Bool := K (.fld .RC_STATUS_CFGERR) && (K (.fld .IM_TRIAL_RUN) && (Foot.storeFields K
    && (Foot.retAdd K && (Foot.scrubGo K && (Foot.recCtrlWrite K && (Foot.recBaseWrite K && (Foot.frzPostWrite K &&
    (Foot.msgGo K && (Foot.hgTake K && (Foot.hgDone K && (Foot.portReset K && (Foot.goWrite K && (Foot.slWrite K &&
    (Foot.rsDoneWrite K && (Foot.sleepRequest K && (Foot.mcReset K && (Foot.wdRestart K && (Foot.watchdogKick K &&
    (Foot.tickCoreRun K && (Foot.takeoverDone K && (Foot.asidWrite K && (Foot.tlbOp K))))))))))))))))))))))

theorem systemWrite_closed {K : Part → Bool} {P : State → Prop} {s : State} {ag : Agent} {base : Nat} {i : Nat} {reg :
    RegRow} {w : Option Nat} {v : Int} (hP : Closed K P) (hK : Foot.systemWrite K = true) (hs_s : P s) :
    OptAll P (systemWrite s ag base i reg w v) := by
  simp only [Foot.systemWrite, Bool.and_eq_true] at hK
  obtain ⟨hK0, hK1, hK2, hK3, hK4, hK5, hK6, hK7, hK8, hK9, hK10, hK11, hK12, hK13, hK14, hK15, hK16, hK17, hK18, hK19, hK20, hK21, hK22⟩ := hK
  unfold systemWrite
  with_reducible repeat' first
    | assumption
    | refine storeFields_closed hP ?_ ?_
    | refine retAdd_closed hP ?_ ?_
    | refine scrubGo_closed hP ?_ ?_
    | refine recCtrlWrite_closed hP ?_ ?_
    | refine recBaseWrite_closed hP ?_ ?_
    | refine frzPostWrite_closed hP ?_ ?_
    | refine msgGo_closed hP ?_ ?_
    | refine hgTake_closed hP ?_ ?_
    | refine hgDone_closed hP ?_ ?_
    | refine portReset_closed hP ?_ ?_
    | refine goWrite_closed hP ?_ ?_
    | refine slWrite_closed hP ?_ ?_
    | refine rsDoneWrite_closed hP ?_ ?_
    | refine sleepRequest_closed hP ?_ ?_
    | refine mcReset_closed hP ?_ ?_
    | refine wdRestart_closed hP ?_ ?_
    | refine watchdogKick_closed hP ?_ ?_
    | refine tickCoreRun_closed hP ?_ ?_
    | refine takeoverDone_closed hP ?_ ?_
    | refine asidWrite_closed hP ?_ ?_
    | refine tlbOp_closed hP ?_ ?_
    | refine hP.clear ?_ ?_
    | refine hP.raise ?_ ?_
    | refine Closed.when ?_ ?_
    | refine OptAll.mk ?_
    | exact OptAll.none
    | intro _
    | (extract_lets +onlyGivenNames x; apply thenHave (p := P x); (unfold x; clear x); rotate_left 1; (intro hx; clear_value x))
    | (extract_lets +onlyGivenNames x; clear_value x)
    | refine ite_closed ?_ ?_
    | split

def Foot.regStore (K : Part → Bool) : Bool := Foot.ucWrite K && (Foot.irWrite K && (Foot.dmaWrite K && (Foot.eventWrite K &&
    (Foot.dataWrite K && (Foot.systemWrite K && (Foot.storeFields K))))))

theorem regStore_closed {K : Part → Bool} {P : State → Prop} {s : State} {ag : Agent} {reg : RegRow} {i : Nat} {j : Nat} {w :
    Option Nat} {v : Int} (hP : Closed K P) (hK : Foot.regStore K = true) (hs_s : P s) :
    P (regStore s ag reg i j w v) := by
  simp only [Foot.regStore, Bool.and_eq_true] at hK
  obtain ⟨hK0, hK1, hK2, hK3, hK4, hK5, hK6⟩ := hK
  unfold regStore
  with_reducible repeat' first
    | assumption
    | refine ucWrite_closed hP ?_ ?_
    | refine irWrite_closed hP ?_ ?_
    | refine dmaWrite_closed hP ?_ ?_
    | refine eventWrite_closed hP ?_ ?_
    | refine dataWrite_closed hP ?_ ?_
    | refine systemWrite_closed hP ?_ ?_
    | refine storeFields_closed hP ?_ ?_
    | refine of_some (by assumption) ?_
    | refine OptAll.getD ?_ ?_
    | intro _
    | (extract_lets +onlyGivenNames x; apply thenHave (p := P x); (unfold x; clear x); rotate_left 1; (intro hx; clear_value x))
    | (extract_lets +onlyGivenNames x; apply thenHave (p := OptAll P x); (unfold x; clear x); rotate_left 1; (intro hx; clear_value x))
    | (extract_lets +onlyGivenNames x; clear_value x)
    | (extract_lets +onlyGivenNames x)
    | refine ite_closed ?_ ?_
    | split

theorem regStore_get {s : State} {ag : Agent} {reg : RegRow} {i : Nat} {j : Nat} {w : Option Nat} {v : Int} {fld0 : Fld} {i0
    j0 : Nat} (hK : Foot.regStore (notFld fld0) = true)  : (regStore s ag reg i j w v).get fld0 i0 j0 = s.get fld0 i0 j0 :=
  regStore_closed (P := fun x => x.get fld0 i0 j0 = s.get fld0 i0 j0) (field_closed fld0 i0 j0 _) hK  rfl

def Foot.regWrite (K : Part → Bool) : Bool := K (.fld .UC_STATUS_LDERR) && (K (.fld .holdMark) && (K (.fld .holdWord) &&
    (Foot.reservedWrite K && (Foot.regStore K))))

theorem regWrite_closed {K : Part → Bool} {P : State → Prop} {s : State} {ag : Agent} {a : Nat} {v : Int} (hP : Closed K P)
    (hK : Foot.regWrite K = true) (hs_s : P s) :
    P (regWrite s ag a v) := by
  simp only [Foot.regWrite, Bool.and_eq_true] at hK
  obtain ⟨hK0, hK1, hK2, hK3, hK4⟩ := hK
  unfold regWrite
  with_reducible repeat' first
    | assumption
    | refine reservedWrite_closed hP ?_ ?_
    | refine regStore_closed hP ?_ ?_
    | refine hP.put _ _ _ _ _ ?_ ?_
    | refine hP.clear ?_ ?_
    | refine hP.raise ?_ ?_
    | refine Closed.each ?_ _ ?_
    | intro _
    | (extract_lets +onlyGivenNames x; apply thenHave (p := P x); (unfold x; clear x); rotate_left 1; (intro hx; clear_value x))
    | (extract_lets +onlyGivenNames x; clear_value x)
    | refine ite_closed ?_ ?_
    | split

theorem regWrite_get {s : State} {ag : Agent} {a : Nat} {v : Int} {fld0 : Fld} {i0 j0 : Nat} (hK : Foot.regWrite (notFld
    fld0) = true)  : (regWrite s ag a v).get fld0 i0 j0 = s.get fld0 i0 j0 :=
  regWrite_closed (P := fun x => x.get fld0 i0 j0 = s.get fld0 i0 j0) (field_closed fld0 i0 j0 _) hK  rfl

def Foot.busWrite (K : Part → Bool) : Bool := Foot.regWrite K

theorem busWrite_closed {K : Part → Bool} {P : State → Prop} {s : State} {ag : Agent} {a : Nat} {v : Int} (hP : Closed K P)
    (hK : Foot.busWrite K = true) (hs_s : P s) :
    P (busWrite s ag a v).2 := by
  simp only [Foot.busWrite, Bool.and_eq_true] at hK
  unfold busWrite
  with_reducible repeat' first
    | assumption
    | refine regWrite_closed hP ?_ ?_
    | refine ite_closed ?_ ?_
    | split

def Foot.clearOnRead (K : Part → Bool) : Bool := (allFld fun f => K (.fld f))

theorem clearOnRead_closed {K : Part → Bool} {P : State → Prop} {s : State} {a : Nat} (hP : Closed K P) (hK :
    Foot.clearOnRead K = true) (hs_s : P s) :
    P (clearOnRead s a) := by
  simp only [Foot.clearOnRead, Bool.and_eq_true] at hK
  unfold clearOnRead
  with_reducible repeat' first
    | assumption
    | refine allFld_fld ?_ _
    | refine hP.clear ?_ ?_
    | refine Closed.each ?_ _ ?_
    | intro _
    | split

theorem clearOnRead_get {s : State} {a : Nat} {fld0 : Fld} {i0 j0 : Nat} (hK : Foot.clearOnRead (notFld fld0) = true)  :
    (clearOnRead s a).get fld0 i0 j0 = s.get fld0 i0 j0 :=
  clearOnRead_closed (P := fun x => x.get fld0 i0 j0 = s.get fld0 i0 j0) (field_closed fld0 i0 j0 _) hK  rfl

def Foot.regRead (K : Part → Bool) : Bool := (allFld fun f => K (.fld f)) && (Foot.clearOnRead K)

theorem regRead_closed {K : Part → Bool} {P : State → Prop} {s : State} {ag : Agent} {a : Nat} (hP : Closed K P) (hK :
    Foot.regRead K = true) (hs_s : P s) :
    P (regRead s ag a).2 := by
  simp only [Foot.regRead, Bool.and_eq_true] at hK
  obtain ⟨hK0, hK1⟩ := hK
  unfold regRead
  with_reducible repeat' first
    | assumption
    | refine allFld_fld ?_ _
    | refine clearOnRead_closed hP ?_ ?_
    | refine hP.put _ _ _ _ _ ?_ ?_
    | refine Closed.each ?_ _ ?_
    | intro _
    | (extract_lets +onlyGivenNames x; apply thenHave (p := P x); (unfold x; clear x); rotate_left 1; (intro hx; clear_value x))
    | (extract_lets +onlyGivenNames x; clear_value x)
    | refine ite_closed ?_ ?_
    | split

def Foot.busRead (K : Part → Bool) : Bool := Foot.regRead K

theorem busRead_closed {K : Part → Bool} {P : State → Prop} {s : State} {ag : Agent} {a : Nat} (hP : Closed K P) (hK :
    Foot.busRead K = true) (hs_s : P s) :
    P (busRead s ag a).2.2 := by
  simp only [Foot.busRead, Bool.and_eq_true] at hK
  unfold busRead
  with_reducible repeat' first
    | assumption
    | refine regRead_closed hP ?_ ?_
    | (extract_lets +onlyGivenNames x; apply thenHave (p := P x); (unfold x; clear x); rotate_left 1; (intro hx; clear_value x))
    | (extract_lets +onlyGivenNames x; clear_value x)
    | refine ite_closed ?_ ?_
    | split

def Foot.showEnd (K : Part → Bool) : Bool := K (.fld .readError)

theorem showEnd_closed {K : Part → Bool} {P : State → Prop} {s : State} {r : AccRes} (hP : Closed K P) (hK : Foot.showEnd K =
    true) (hs_s : P s) :
    P (showEnd s r) := by
  simp only [Foot.showEnd, Bool.and_eq_true] at hK
  unfold showEnd
  with_reducible repeat' first
    | assumption
    | refine hP.put _ _ _ _ _ ?_ ?_

theorem showEnd_get {s : State} {r : AccRes} {fld0 : Fld} {i0 j0 : Nat} (hK : Foot.showEnd (notFld fld0) = true)  : (showEnd
    s r).get fld0 i0 j0 = s.get fld0 i0 j0 :=
  showEnd_closed (P := fun x => x.get fld0 i0 j0 = s.get fld0 i0 j0) (field_closed fld0 i0 j0 _) hK  rfl

def Foot.writeCommand (K : Part → Bool) : Bool := Foot.busWrite K && (Foot.showEnd K)

theorem writeCommand_closed {K : Part → Bool} {P : State → Prop} {s : State} {ag : Agent} {a : Nat} {v : Int} (hP : Closed K
    P) (hK : Foot.writeCommand K = true) (hs_s : P s) :
    P (writeCommand s ag a v) := by
  simp only [Foot.writeCommand, Bool.and_eq_true] at hK
  obtain ⟨hK0, hK1⟩ := hK
  unfold writeCommand
  with_reducible repeat' first
    | assumption
    | refine busWrite_closed hP ?_ ?_
    | refine showEnd_closed hP ?_ ?_
    | (dsimp -zeta only)
    | refine of_snd (by assumption) ?_
    | refine of_fst (by assumption) ?_
    | refine of_mid (by assumption) ?_
    | refine of_trd (by assumption) ?_
    | refine of_fth (by assumption) ?_
    | intro _
    | (extract_lets +onlyGivenNames x; apply thenHave (p := P x); (unfold x; clear x); rotate_left 1; (intro hx; clear_value x))
    | (extract_lets +onlyGivenNames x; apply thenHave (p := P x.2); (unfold x; clear x); rotate_left 1; (intro hx; clear_value x))
    | (extract_lets +onlyGivenNames x; apply thenHave (p := P x.1); (unfold x; clear x); rotate_left 1; (intro hx; clear_value x))
    | (extract_lets +onlyGivenNames x; apply thenHave (p := P x.2.1); (unfold x; clear x); rotate_left 1; (intro hx; clear_value x))
    | (extract_lets +onlyGivenNames x; apply thenHave (p := P x.2.2); (unfold x; clear x); rotate_left 1; (intro hx; clear_value x))
    | (extract_lets +onlyGivenNames x; clear_value x)
    | (extract_lets +onlyGivenNames x)
    | refine ite_closed ?_ ?_
    | split

theorem writeCommand_get {s : State} {ag : Agent} {a : Nat} {v : Int} {fld0 : Fld} {i0 j0 : Nat} (hK : Foot.writeCommand
    (notFld fld0) = true)  : (writeCommand s ag a v).get fld0 i0 j0 = s.get fld0 i0 j0 :=
  writeCommand_closed (P := fun x => x.get fld0 i0 j0 = s.get fld0 i0 j0) (field_closed fld0 i0 j0 _) hK  rfl

def Foot.execAsidWrite (K : Part → Bool) : Bool := Foot.writeCommand K

theorem execAsidWrite_closed {K : Part → Bool} {P : State → Prop} {by_ : Agent} {asid : BitVec 8} {flush : Bool} {s : State}
    (hP : Closed K P) (hK : Foot.execAsidWrite K = true) (hs_s : P s) :
    OutAll P (execAsidWrite by_ asid flush s) := by
  simp only [Foot.execAsidWrite, Bool.and_eq_true] at hK
  unfold execAsidWrite
  with_reducible repeat' first
    | assumption
    | refine writeCommand_closed hP ?_ ?_
    | refine OutAll.mk ?_
    | refine ite_closed ?_ ?_
    | split

def Foot.execHoldingHighWrite (K : Part → Bool) : Bool := Foot.writeCommand K

theorem execHoldingHighWrite_closed {K : Part → Bool} {P : State → Prop} {by_ : Agent} {a : Addr} {v : W16} {s : State} (hP :
    Closed K P) (hK : Foot.execHoldingHighWrite K = true) (hs_s : P s) :
    OutAll P (execHoldingHighWrite by_ a v s) := by
  simp only [Foot.execHoldingHighWrite, Bool.and_eq_true] at hK
  unfold execHoldingHighWrite
  with_reducible repeat' first
    | assumption
    | refine writeCommand_closed hP ?_ ?_
    | refine OutAll.mk ?_
    | refine ite_closed ?_ ?_
    | split

def Foot.execHoldingLowWrite (K : Part → Bool) : Bool := Foot.writeCommand K

theorem execHoldingLowWrite_closed {K : Part → Bool} {P : State → Prop} {by_ : Agent} {a : Addr} {v : W16} {s : State} (hP :
    Closed K P) (hK : Foot.execHoldingLowWrite K = true) (hs_s : P s) :
    OutAll P (execHoldingLowWrite by_ a v s) := by
  simp only [Foot.execHoldingLowWrite, Bool.and_eq_true] at hK
  unfold execHoldingLowWrite
  with_reducible repeat' first
    | assumption
    | refine writeCommand_closed hP ?_ ?_
    | refine OutAll.mk ?_
    | refine ite_closed ?_ ?_
    | split

def Foot.readCommand (K : Part → Bool) : Bool := K (.fld .readData) && (Foot.busRead K && (Foot.showEnd K))

theorem readCommand_closed {K : Part → Bool} {P : State → Prop} {s : State} {ag : Agent} {a : Nat} (hP : Closed K P) (hK :
    Foot.readCommand K = true) (hs_s : P s) :
    P (readCommand s ag a) := by
  simp only [Foot.readCommand, Bool.and_eq_true] at hK
  obtain ⟨hK0, hK1, hK2⟩ := hK
  unfold readCommand
  with_reducible repeat' first
    | assumption
    | refine busRead_closed hP ?_ ?_
    | refine showEnd_closed hP ?_ ?_
    | refine hP.put _ _ _ _ _ ?_ ?_
    | (extract_lets +onlyGivenNames x; apply thenHave (p := P x); (unfold x; clear x); rotate_left 1; (intro hx; clear_value x))
    | (extract_lets +onlyGivenNames x; clear_value x)
    | refine ite_closed ?_ ?_
    | split

theorem readCommand_get {s : State} {ag : Agent} {a : Nat} {fld0 : Fld} {i0 j0 : Nat} (hK : Foot.readCommand (notFld fld0) =
    true)  : (readCommand s ag a).get fld0 i0 j0 = s.get fld0 i0 j0 :=
  readCommand_closed (P := fun x => x.get fld0 i0 j0 = s.get fld0 i0 j0) (field_closed fld0 i0 j0 _) hK  rfl

def Foot.execJtagDebugRead (K : Part → Bool) : Bool := Foot.showEnd K && (Foot.readCommand K)

theorem execJtagDebugRead_closed {K : Part → Bool} {P : State → Prop} {a : Addr} {s : State} (hP : Closed K P) (hK :
    Foot.execJtagDebugRead K = true) (hs_s : P s) :
    OutAll P (execJtagDebugRead a s) := by
  simp only [Foot.execJtagDebugRead, Bool.and_eq_true] at hK
  obtain ⟨hK0, hK1⟩ := hK
  unfold execJtagDebugRead
  with_reducible repeat' first
    | assumption
    | refine showEnd_closed hP ?_ ?_
    | refine readCommand_closed hP ?_ ?_
    | refine OutAll.mk ?_
    | refine ite_closed ?_ ?_
    | split

def Foot.execLatchingRead (K : Part → Bool) : Bool := Foot.readCommand K

theorem execLatchingRead_closed {K : Part → Bool} {P : State → Prop} {by_ : Agent} {a : Addr} {s : State} (hP : Closed K P)
    (hK : Foot.execLatchingRead K = true) (hs_s : P s) :
    OutAll P (execLatchingRead by_ a s) := by
  simp only [Foot.execLatchingRead, Bool.and_eq_true] at hK
  unfold execLatchingRead
  with_reducible repeat' first
    | assumption
    | refine readCommand_closed hP ?_ ?_
    | refine OutAll.mk ?_
    | refine ite_closed ?_ ?_
    | split

def Foot.execRcRead (K : Part → Bool) : Bool := Foot.readCommand K

theorem execRcRead_closed {K : Part → Bool} {P : State → Prop} {by_ : Agent} {a : Addr} {s : State} (hP : Closed K P) (hK :
    Foot.execRcRead K = true) (hs_s : P s) :
    OutAll P (execRcRead by_ a s) := by
  simp only [Foot.execRcRead, Bool.and_eq_true] at hK
  unfold execRcRead
  with_reducible repeat' first
    | assumption
    | refine readCommand_closed hP ?_ ?_
    | refine OutAll.mk ?_

def Foot.execReductionRead (K : Part → Bool) : Bool := Foot.readCommand K

theorem execReductionRead_closed {K : Part → Bool} {P : State → Prop} {by_ : Agent} {ch : SenseChannel} {s : State} (hP :
    Closed K P) (hK : Foot.execReductionRead K = true) (hs_s : P s) :
    OutAll P (execReductionRead by_ ch s) := by
  simp only [Foot.execReductionRead, Bool.and_eq_true] at hK
  unfold execReductionRead
  with_reducible repeat' first
    | assumption
    | refine readCommand_closed hP ?_ ?_
    | refine OutAll.mk ?_

def Foot.execRegisterWrite (K : Part → Bool) : Bool := Foot.writeCommand K

theorem execRegisterWrite_closed {K : Part → Bool} {P : State → Prop} {by_ : Agent} {a : Addr} {v : W16} {s : State} (hP :
    Closed K P) (hK : Foot.execRegisterWrite K = true) (hs_s : P s) :
    OutAll P (execRegisterWrite by_ a v s) := by
  simp only [Foot.execRegisterWrite, Bool.and_eq_true] at hK
  unfold execRegisterWrite
  with_reducible repeat' first
    | assumption
    | refine writeCommand_closed hP ?_ ?_
    | refine OutAll.mk ?_

def Foot.execTickRead (K : Part → Bool) : Bool := Foot.readCommand K

theorem execTickRead_closed {K : Part → Bool} {P : State → Prop} {by_ : Agent} {s : State} (hP : Closed K P) (hK :
    Foot.execTickRead K = true) (hs_s : P s) :
    OutAll P (execTickRead by_ s) := by
  simp only [Foot.execTickRead, Bool.and_eq_true] at hK
  unfold execTickRead
  with_reducible repeat' first
    | assumption
    | refine readCommand_closed hP ?_ ?_
    | refine OutAll.mk ?_

def Foot.execTlbop (K : Part → Bool) : Bool := Foot.writeCommand K

theorem execTlbop_closed {K : Part → Bool} {P : State → Prop} {by_ : Agent} {rd : Bool} {wr : Bool} {s : State} (hP : Closed
    K P) (hK : Foot.execTlbop K = true) (hs_s : P s) :
    OutAll P (execTlbop by_ rd wr s) := by
  simp only [Foot.execTlbop, Bool.and_eq_true] at hK
  unfold execTlbop
  with_reducible repeat' first
    | assumption
    | refine writeCommand_closed hP ?_ ?_
    | refine OutAll.mk ?_

def Foot.execXcLock (K : Part → Bool) : Bool := Foot.writeCommand K

theorem execXcLock_closed {K : Part → Bool} {P : State → Prop} {by_ : Agent} {k : CoreId} {s : State} (hP : Closed K P) (hK :
    Foot.execXcLock K = true) (hs_s : P s) :
    OutAll P (execXcLock by_ k s) := by
  simp only [Foot.execXcLock, Bool.and_eq_true] at hK
  unfold execXcLock
  with_reducible repeat' first
    | assumption
    | refine writeCommand_closed hP ?_ ?_
    | refine OutAll.mk ?_

end Sys2Proof.Machine
end

