-- ==== Sys2Proof/Laws/ClosedDmaRun.lean ====
section
/-! SUPPORT. What the functions of Machine/DmaRun.lean can write, and that they keep every closed property (Laws/Closed.lean). -/
namespace Sys2Proof.Machine

set_option Elab.async false
set_option linter.all false

def Foot.physWrite (K : Part → Bool) : Bool := Foot.busWrite K && (Foot.memWrite K)

theorem physWrite_closed {K : Part → Bool} {P : State → Prop} {s : State} {ag : Agent} {a : Nat} {v : W16} (hP : Closed K P)
    (hK : Foot.physWrite K = true) (hs_s : P s) :
    P (physWrite s ag a v).2 := by
  simp only [Foot.physWrite, Bool.and_eq_true] at hK
  obtain ⟨hK0, hK1⟩ := hK
  unfold physWrite
  with_reducible repeat' first
    | assumption
    | refine busWrite_closed hP ?_ ?_
    | refine memWrite_closed hP ?_ ?_
    | (dsimp -zeta only)
    | refine of_snd (by assumption) ?_
    | refine of_fst (by assumption) ?_
    | refine of_mid (by assumption) ?_
    | refine of_trd (by assumption) ?_
    | refine of_fth (by assumption) ?_
    | intro _
    | (extract_lets +onlyGivenNames x; apply thenHave (p := P x); (unfold x; clear x); rotate_left 1; (intro hx; clear_value x))
    | (extract_lets +onlyGivenNames x; apply thenHave (p := P x.2); (unfold x; clear x); rotate_left 1; (intro hx; clear_value x))
    | (extract_lets +onlyGivenNames x; apply thenHave (p := P x.1); (unfold x; clear x); rotate_left 1; (intro hx; clear_value x))
    | (extract_lets +onlyGivenNames x; apply thenHave (p := P x.2.1); (unfold x; clear x); rotate_left 1; (intro hx; clear_value x))
    | (extract_lets +onlyGivenNames x; apply thenHave (p := P x.2.2); (unfold x; clear x); rotate_left 1; (intro hx; clear_value x))
    | (extract_lets +onlyGivenNames x; clear_value x)
    | (extract_lets +onlyGivenNames x)
    | refine ite_closed ?_ ?_
    | split

def Foot.physRead (K : Part → Bool) : Bool := Foot.busRead K && (Foot.memRead K)

theorem physRead_closed {K : Part → Bool} {P : State → Prop} {s : State} {ag : Agent} {a : Nat} (hP : Closed K P) (hK :
    Foot.physRead K = true) (hs_s : P s) :
    P (physRead s ag a).2 := by
  simp only [Foot.physRead, Bool.and_eq_true] at hK
  obtain ⟨hK0, hK1⟩ := hK
  unfold physRead
  with_reducible repeat' first
    | assumption
    | refine busRead_closed hP ?_ ?_
    | refine memRead_closed hP ?_ ?_
    | (dsimp -zeta only)
    | refine of_snd (by assumption) ?_
    | refine of_fst (by assumption) ?_
    | refine of_mid (by assumption) ?_
    | refine of_trd (by assumption) ?_
    | refine of_fth (by assumption) ?_
    | intro _
    | (extract_lets +onlyGivenNames x; apply thenHave (p := P x); (unfold x; clear x); rotate_left 1; (intro hx; clear_value x))
    | (extract_lets +onlyGivenNames x; apply thenHave (p := P x.2); (unfold x; clear x); rotate_left 1; (intro hx; clear_value x))
    | (extract_lets +onlyGivenNames x; apply thenHave (p := P x.1); (unfold x; clear x); rotate_left 1; (intro hx; clear_value x))
    | (extract_lets +onlyGivenNames x; apply thenHave (p := P x.2.1); (unfold x; clear x); rotate_left 1; (intro hx; clear_value x))
    | (extract_lets +onlyGivenNames x; apply thenHave (p := P x.2.2); (unfold x; clear x); rotate_left 1; (intro hx; clear_value x))
    | (extract_lets +onlyGivenNames x; clear_value x)
    | (extract_lets +onlyGivenNames x)
    | refine ite_closed ?_ ?_
    | split

def Foot.dmaSpanEnd (K : Part → Bool) : Bool := K (.fld .dmaNeed) && (Foot.dmaEnd K && (Foot.dmaRaise K))

theorem dmaSpanEnd_closed {K : Part → Bool} {P : State → Prop} {s : State} {c : Nat} (hP : Closed K P) (hK : Foot.dmaSpanEnd
    K = true) (hs_s : P s) :
    P (dmaSpanEnd s c) := by
  simp only [Foot.dmaSpanEnd, Bool.and_eq_true] at hK
  obtain ⟨hK0, hK1, hK2⟩ := hK
  unfold dmaSpanEnd
  with_reducible repeat' first
    | assumption
    | refine dmaEnd_closed hP ?_ ?_
    | refine dmaRaise_closed hP ?_ ?_
    | refine hP.raise ?_ ?_
    | (extract_lets +onlyGivenNames x; apply thenHave (p := P x); (unfold x; clear x); rotate_left 1; (intro hx; clear_value x))
    | (extract_lets +onlyGivenNames x; clear_value x)
    | refine ite_closed ?_ ?_
    | split

theorem dmaSpanEnd_get {s : State} {c : Nat} {fld0 : Fld} {i0 j0 : Nat} (hK : Foot.dmaSpanEnd (notFld fld0) = true)  :
    (dmaSpanEnd s c).get fld0 i0 j0 = s.get fld0 i0 j0 :=
  dmaSpanEnd_closed (P := fun x => x.get fld0 i0 j0 = s.get fld0 i0 j0) (field_closed fld0 i0 j0 _) hK  rfl

def Foot.dmaAdvance (K : Part → Bool) : Bool := K (.fld .DMA_DST) && (K (.fld .DMA_SRC) && (K (.fld .dmaTries) && (K (.fld
    .dmaFail) && (K (.fld .dmaLeft) && (Foot.dmaSpanEnd K)))))

theorem dmaAdvance_closed {K : Part → Bool} {P : State → Prop} {s : State} {c : Nat} (hP : Closed K P) (hK : Foot.dmaAdvance
    K = true) (hs_s : P s) :
    P (dmaAdvance s c) := by
  simp only [Foot.dmaAdvance, Bool.and_eq_true] at hK
  obtain ⟨hK0, hK1, hK2, hK3, hK4, hK5⟩ := hK
  unfold dmaAdvance
  with_reducible repeat' first
    | assumption
    | refine dmaSpanEnd_closed hP ?_ ?_
    | refine hP.put _ _ _ _ _ ?_ ?_
    | refine hP.clear ?_ ?_
    | (extract_lets +onlyGivenNames x; apply thenHave (p := P x); (unfold x; clear x); rotate_left 1; (intro hx; clear_value x))
    | (extract_lets +onlyGivenNames x; clear_value x)
    | refine ite_closed ?_ ?_
    | split

theorem dmaAdvance_get {s : State} {c : Nat} {fld0 : Fld} {i0 j0 : Nat} (hK : Foot.dmaAdvance (notFld fld0) = true)  :
    (dmaAdvance s c).get fld0 i0 j0 = s.get fld0 i0 j0 :=
  dmaAdvance_closed (P := fun x => x.get fld0 i0 j0 = s.get fld0 i0 j0) (field_closed fld0 i0 j0 _) hK  rfl

def Foot.dmaFailed (K : Part → Bool) : Bool := K (.fld .dmaTries) && (K (.fld .DMA_ERRADDR) && (K (.fld .dmaFail) &&
    (Foot.dmaRaise K && (Foot.dmaHalt K))))

theorem dmaFailed_closed {K : Part → Bool} {P : State → Prop} {s : State} {c : Nat} {kind : Int} {a : Nat} (hP : Closed K P)
    (hK : Foot.dmaFailed K = true) (hs_s : P s) :
    P (dmaFailed s c kind a) := by
  simp only [Foot.dmaFailed, Bool.and_eq_true] at hK
  obtain ⟨hK0, hK1, hK2, hK3, hK4⟩ := hK
  unfold dmaFailed
  with_reducible repeat' first
    | assumption
    | refine dmaRaise_closed hP ?_ ?_
    | refine dmaHalt_closed hP ?_ ?_
    | refine hP.put _ _ _ _ _ ?_ ?_
    | refine hP.clear ?_ ?_
    | refine ite_closed ?_ ?_
    | split

theorem dmaFailed_get {s : State} {c : Nat} {kind : Int} {a : Nat} {fld0 : Fld} {i0 j0 : Nat} (hK : Foot.dmaFailed (notFld
    fld0) = true)  : (dmaFailed s c kind a).get fld0 i0 j0 = s.get fld0 i0 j0 :=
  dmaFailed_closed (P := fun x => x.get fld0 i0 j0 = s.get fld0 i0 j0) (field_closed fld0 i0 j0 _) hK  rfl

def Foot.dmaStore (K : Part → Bool) : Bool := K (.fld .dmaData) && (Foot.dmaHalt K && (Foot.physWrite K && (Foot.dmaAdvance K
    && (Foot.dmaFailed K))))

theorem dmaStore_closed {K : Part → Bool} {P : State → Prop} {s : State} {c : Nat} {v : W16} (hP : Closed K P) (hK :
    Foot.dmaStore K = true) (hs_s : P s) :
    P (dmaStore s c v) := by
  simp only [Foot.dmaStore, Bool.and_eq_true] at hK
  obtain ⟨hK0, hK1, hK2, hK3, hK4⟩ := hK
  unfold dmaStore
  with_reducible repeat' first
    | assumption
    | refine dmaHalt_closed hP ?_ ?_
    | refine physWrite_closed hP ?_ ?_
    | refine dmaAdvance_closed hP ?_ ?_
    | refine dmaFailed_closed hP ?_ ?_
    | refine hP.put _ _ _ _ _ ?_ ?_
    | refine hP.clear ?_ ?_
    | refine hP.raise ?_ ?_
    | refine hP.bump ?_ ?_
    | refine hP.setBits ?_ ?_
    | refine hP.clrBits ?_ ?_
    | (dsimp -zeta only)
    | refine of_snd (by assumption) ?_
    | refine of_fst (by assumption) ?_
    | refine of_mid (by assumption) ?_
    | refine of_trd (by assumption) ?_
    | refine of_fth (by assumption) ?_
    | intro _
    | (extract_lets +onlyGivenNames x; apply thenHave (p := P x); (unfold x; clear x); rotate_left 1; (intro hx; clear_value x))
    | (extract_lets +onlyGivenNames x; apply thenHave (p := P x.2); (unfold x; clear x); rotate_left 1; (intro hx; clear_value x))
    | (extract_lets +onlyGivenNames x; apply thenHave (p := P x.1); (unfold x; clear x); rotate_left 1; (intro hx; clear_value x))
    | (extract_lets +onlyGivenNames x; apply thenHave (p := P x.2.1); (unfold x; clear x); rotate_left 1; (intro hx; clear_value x))
    | (extract_lets +onlyGivenNames x; apply thenHave (p := P x.2.2); (unfold x; clear x); rotate_left 1; (intro hx; clear_value x))
    | (extract_lets +onlyGivenNames x; clear_value x)
    | (extract_lets +onlyGivenNames x)
    | refine ite_closed ?_ ?_
    | split

theorem dmaStore_get {s : State} {c : Nat} {v : W16} {fld0 : Fld} {i0 j0 : Nat} (hK : Foot.dmaStore (notFld fld0) = true)  :
    (dmaStore s c v).get fld0 i0 j0 = s.get fld0 i0 j0 :=
  dmaStore_closed (P := fun x => x.get fld0 i0 j0 = s.get fld0 i0 j0) (field_closed fld0 i0 j0 _) hK  rfl

def Foot.dmaCopy (K : Part → Bool) : Bool := Foot.dmaHalt K && (Foot.physRead K && (Foot.dmaStore K && (Foot.dmaFailed K)))

theorem dmaCopy_closed {K : Part → Bool} {P : State → Prop} {s : State} {c : Nat} (hP : Closed K P) (hK : Foot.dmaCopy K =
    true) (hs_s : P s) :
    P (dmaCopy s c) := by
  simp only [Foot.dmaCopy, Bool.and_eq_true] at hK
  obtain ⟨hK0, hK1, hK2, hK3⟩ := hK
  unfold dmaCopy
  with_reducible repeat' first
    | assumption
    | refine dmaHalt_closed hP ?_ ?_
    | refine physRead_closed hP ?_ ?_
    | refine dmaStore_closed hP ?_ ?_
    | refine dmaFailed_closed hP ?_ ?_
    | (dsimp -zeta only)
    | refine of_snd (by assumption) ?_
    | refine of_fst (by assumption) ?_
    | refine of_mid (by assumption) ?_
    | refine of_trd (by assumption) ?_
    | refine of_fth (by assumption) ?_
    | intro _
    | (extract_lets +onlyGivenNames x; apply thenHave (p := P x); (unfold x; clear x); rotate_left 1; (intro hx; clear_value x))
    | (extract_lets +onlyGivenNames x; apply thenHave (p := P x.2); (unfold x; clear x); rotate_left 1; (intro hx; clear_value x))
    | (extract_lets +onlyGivenNames x; apply thenHave (p := P x.1); (unfold x; clear x); rotate_left 1; (intro hx; clear_value x))
    | (extract_lets +onlyGivenNames x; apply thenHave (p := P x.2.1); (unfold x; clear x); rotate_left 1; (intro hx; clear_value x))
    | (extract_lets +onlyGivenNames x; apply thenHave (p := P x.2.2); (unfold x; clear x); rotate_left 1; (intro hx; clear_value x))
    | (extract_lets +onlyGivenNames x; clear_value x)
    | (extract_lets +onlyGivenNames x)
    | refine ite_closed ?_ ?_
    | split

theorem dmaCopy_get {s : State} {c : Nat} {fld0 : Fld} {i0 j0 : Nat} (hK : Foot.dmaCopy (notFld fld0) = true)  : (dmaCopy s
    c).get fld0 i0 j0 = s.get fld0 i0 j0 :=
  dmaCopy_closed (P := fun x => x.get fld0 i0 j0 = s.get fld0 i0 j0) (field_closed fld0 i0 j0 _) hK  rfl

def Foot.readDescriptor (K : Part → Bool) : Bool := Foot.memRead K

theorem readDescriptor_closed {K : Part → Bool} {P : State → Prop} {s : State} {a : Nat} (hP : Closed K P) (hK :
    Foot.readDescriptor K = true) (hs_s : P s) :
    P (readDescriptor s a).2 := by
  simp only [Foot.readDescriptor, Bool.and_eq_true] at hK
  unfold readDescriptor
  with_reducible repeat' first
    | assumption
    | refine memRead_closed hP ?_ ?_
    | (dsimp -zeta only)
    | refine of_snd (by assumption) ?_
    | refine of_fst (by assumption) ?_
    | refine of_mid (by assumption) ?_
    | refine of_trd (by assumption) ?_
    | refine of_fth (by assumption) ?_
    | refine foldl_snd ?_ ?_
    | refine foldl_trd ?_ ?_
    | refine foldl_fst ?_ ?_
    | refine foldl_all ?_ ?_
    | intro _
    | (extract_lets +onlyGivenNames x; apply thenHave (p := P x); (unfold x; clear x); rotate_left 1; (intro hx; clear_value x))
    | (extract_lets +onlyGivenNames x; apply thenHave (p := P x.2); (unfold x; clear x); rotate_left 1; (intro hx; clear_value x))
    | (extract_lets +onlyGivenNames x; apply thenHave (p := P x.1); (unfold x; clear x); rotate_left 1; (intro hx; clear_value x))
    | (extract_lets +onlyGivenNames x; apply thenHave (p := P x.2.1); (unfold x; clear x); rotate_left 1; (intro hx; clear_value x))
    | (extract_lets +onlyGivenNames x; apply thenHave (p := P x.2.2); (unfold x; clear x); rotate_left 1; (intro hx; clear_value x))
    | (extract_lets +onlyGivenNames x; clear_value x)
    | (extract_lets +onlyGivenNames x)
    | refine ite_closed ?_ ?_
    | split

def Foot.dmaFetch (K : Part → Bool) : Bool := K (.fld .dmaTries) && (K (.fld .dmaFail) && (K (.fld .dmaLeft) && (K (.fld
    .DMA_DST) && (K (.fld .DMA_SRC) && (K (.fld .dmaIrq) && (K (.fld .dmaLast) && (K (.fld .dmaNeed) && (K (.fld .dmaNext) &&
    (Foot.dmaHalt K && (Foot.readDescriptor K && (Foot.dmaFailed K)))))))))))

theorem dmaFetch_closed {K : Part → Bool} {P : State → Prop} {s : State} {c : Nat} (hP : Closed K P) (hK : Foot.dmaFetch K =
    true) (hs_s : P s) :
    P (dmaFetch s c) := by
  simp only [Foot.dmaFetch, Bool.and_eq_true] at hK
  obtain ⟨hK0, hK1, hK2, hK3, hK4, hK5, hK6, hK7, hK8, hK9, hK10, hK11⟩ := hK
  unfold dmaFetch
  with_reducible repeat' first
    | assumption
    | refine dmaHalt_closed hP ?_ ?_
    | refine readDescriptor_closed hP ?_ ?_
    | refine dmaFailed_closed hP ?_ ?_
    | refine hP.put _ _ _ _ _ ?_ ?_
    | refine hP.clear ?_ ?_
    | refine hP.raise ?_ ?_
    | refine hP.bump ?_ ?_
    | refine hP.setBits ?_ ?_
    | refine hP.clrBits ?_ ?_
    | (dsimp -zeta only)
    | refine of_snd (by assumption) ?_
    | refine of_fst (by assumption) ?_
    | refine of_mid (by assumption) ?_
    | refine of_trd (by assumption) ?_
    | refine of_fth (by assumption) ?_
    | intro _
    | (extract_lets +onlyGivenNames x; apply thenHave (p := P x); (unfold x; clear x); rotate_left 1; (intro hx; clear_value x))
    | (extract_lets +onlyGivenNames x; apply thenHave (p := P x.2); (unfold x; clear x); rotate_left 1; (intro hx; clear_value x))
    | (extract_lets +onlyGivenNames x; apply thenHave (p := P x.1); (unfold x; clear x); rotate_left 1; (intro hx; clear_value x))
    | (extract_lets +onlyGivenNames x; apply thenHave (p := P x.2.1); (unfold x; clear x); rotate_left 1; (intro hx; clear_value x))
    | (extract_lets +onlyGivenNames x; apply thenHave (p := P x.2.2); (unfold x; clear x); rotate_left 1; (intro hx; clear_value x))
    | (extract_lets +onlyGivenNames x; clear_value x)
    | (extract_lets +onlyGivenNames x)
    | refine ite_closed ?_ ?_
    | split

theorem dmaFetch_get {s : State} {c : Nat} {fld0 : Fld} {i0 j0 : Nat} (hK : Foot.dmaFetch (notFld fld0) = true)  : (dmaFetch
    s c).get fld0 i0 j0 = s.get fld0 i0 j0 :=
  dmaFetch_closed (P := fun x => x.get fld0 i0 j0 = s.get fld0 i0 j0) (field_closed fld0 i0 j0 _) hK  rfl

def Foot.dmaDescriptor (K : Part → Bool) : Bool := Foot.dmaPending K && (Foot.dmaFetch K)

theorem dmaDescriptor_closed {K : Part → Bool} {P : State → Prop} {s : State} {c : Nat} (hP : Closed K P) (hK :
    Foot.dmaDescriptor K = true) (hs_s : P s) :
    P (dmaDescriptor s c) := by
  simp only [Foot.dmaDescriptor, Bool.and_eq_true] at hK
  obtain ⟨hK0, hK1⟩ := hK
  unfold dmaDescriptor
  with_reducible repeat' first
    | assumption
    | refine dmaPending_closed hP ?_ ?_
    | refine dmaFetch_closed hP ?_ ?_
    | (extract_lets +onlyGivenNames x; apply thenHave (p := P x); (unfold x; clear x); rotate_left 1; (intro hx; clear_value x))
    | (extract_lets +onlyGivenNames x; clear_value x)
    | refine ite_closed ?_ ?_
    | split

theorem dmaDescriptor_get {s : State} {c : Nat} {fld0 : Fld} {i0 j0 : Nat} (hK : Foot.dmaDescriptor (notFld fld0) = true)  :
    (dmaDescriptor s c).get fld0 i0 j0 = s.get fld0 i0 j0 :=
  dmaDescriptor_closed (P := fun x => x.get fld0 i0 j0 = s.get fld0 i0 j0) (field_closed fld0 i0 j0 _) hK  rfl

def Foot.dmaRetry (K : Part → Bool) : Bool := K (.fld .dmaFail) && (K (.fld .dmaTries) && (Foot.dmaFetch K && (Foot.dmaStore
    K && (Foot.dmaCopy K))))

theorem dmaRetry_closed {K : Part → Bool} {P : State → Prop} {s : State} {c : Nat} (hP : Closed K P) (hK : Foot.dmaRetry K =
    true) (hs_s : P s) :
    P (dmaRetry s c) := by
  simp only [Foot.dmaRetry, Bool.and_eq_true] at hK
  obtain ⟨hK0, hK1, hK2, hK3, hK4⟩ := hK
  unfold dmaRetry
  with_reducible repeat' first
    | assumption
    | refine dmaFetch_closed hP ?_ ?_
    | refine dmaStore_closed hP ?_ ?_
    | refine dmaCopy_closed hP ?_ ?_
    | refine hP.put _ _ _ _ _ ?_ ?_
    | refine hP.clear ?_ ?_
    | (extract_lets +onlyGivenNames x; apply thenHave (p := P x); (unfold x; clear x); rotate_left 1; (intro hx; clear_value x))
    | (extract_lets +onlyGivenNames x; clear_value x)
    | refine ite_closed ?_ ?_
    | split

theorem dmaRetry_get {s : State} {c : Nat} {fld0 : Fld} {i0 j0 : Nat} (hK : Foot.dmaRetry (notFld fld0) = true)  : (dmaRetry
    s c).get fld0 i0 j0 = s.get fld0 i0 j0 :=
  dmaRetry_closed (P := fun x => x.get fld0 i0 j0 = s.get fld0 i0 j0) (field_closed fld0 i0 j0 _) hK  rfl

def Foot.dmaWord (K : Part → Bool) : Bool := Foot.dmaPending K && (Foot.dmaCopy K)

theorem dmaWord_closed {K : Part → Bool} {P : State → Prop} {s : State} {c : Nat} (hP : Closed K P) (hK : Foot.dmaWord K =
    true) (hs_s : P s) :
    P (dmaWord s c) := by
  simp only [Foot.dmaWord, Bool.and_eq_true] at hK
  obtain ⟨hK0, hK1⟩ := hK
  unfold dmaWord
  with_reducible repeat' first
    | assumption
    | refine dmaPending_closed hP ?_ ?_
    | refine dmaCopy_closed hP ?_ ?_
    | (extract_lets +onlyGivenNames x; apply thenHave (p := P x); (unfold x; clear x); rotate_left 1; (intro hx; clear_value x))
    | (extract_lets +onlyGivenNames x; clear_value x)
    | refine ite_closed ?_ ?_
    | split

theorem dmaWord_get {s : State} {c : Nat} {fld0 : Fld} {i0 j0 : Nat} (hK : Foot.dmaWord (notFld fld0) = true)  : (dmaWord s
    c).get fld0 i0 j0 = s.get fld0 i0 j0 :=
  dmaWord_closed (P := fun x => x.get fld0 i0 j0 = s.get fld0 i0 j0) (field_closed fld0 i0 j0 _) hK  rfl

def Foot.execDmaDescriptor (K : Part → Bool) : Bool := Foot.dmaDescriptor K

theorem execDmaDescriptor_closed {K : Part → Bool} {P : State → Prop} {c : DmaCh} {s : State} (hP : Closed K P) (hK :
    Foot.execDmaDescriptor K = true) (hs_s : P s) :
    OutAll P (execDmaDescriptor c s) := by
  simp only [Foot.execDmaDescriptor, Bool.and_eq_true] at hK
  unfold execDmaDescriptor
  with_reducible repeat' first
    | assumption
    | refine dmaDescriptor_closed hP ?_ ?_
    | refine OutAll.mk ?_

def Foot.execDmaRetry (K : Part → Bool) : Bool := Foot.dmaRetry K

theorem execDmaRetry_closed {K : Part → Bool} {P : State → Prop} {c : DmaCh} {s : State} (hP : Closed K P) (hK :
    Foot.execDmaRetry K = true) (hs_s : P s) :
    OutAll P (execDmaRetry c s) := by
  simp only [Foot.execDmaRetry, Bool.and_eq_true] at hK
  unfold execDmaRetry
  with_reducible repeat' first
    | assumption
    | refine dmaRetry_closed hP ?_ ?_
    | refine OutAll.mk ?_

def Foot.execDmaWord (K : Part → Bool) : Bool := Foot.dmaWord K

theorem execDmaWord_closed {K : Part → Bool} {P : State → Prop} {c : DmaCh} {s : State} (hP : Closed K P) (hK :
    Foot.execDmaWord K = true) (hs_s : P s) :
    OutAll P (execDmaWord c s) := by
  simp only [Foot.execDmaWord, Bool.and_eq_true] at hK
  unfold execDmaWord
  with_reducible repeat' first
    | assumption
    | refine dmaWord_closed hP ?_ ?_
    | refine OutAll.mk ?_

end Sys2Proof.Machine
end

