-- ==== Sys2Proof/Laws/ClosedFlags.lean ====
section
/-! SUPPORT. What the functions of Machine/Flags.lean can write, and that they keep every closed property (Laws/Closed.lean). -/
namespace Sys2Proof.Machine

set_option Elab.async false
set_option linter.all false

def Foot.putAcc (K : Part → Bool) : Bool := K (.fld .swZ) && (K (.fld .swN) && (Foot.putVSat K && (Foot.putV K)))

theorem putAcc_closed {K : Part → Bool} {P : State → Prop} {s : State} {k : Nat} {x : AccOut} (hP : Closed K P) (hK :
    Foot.putAcc K = true) (hs_s : P s) :
    P (putAcc s k x) := by
  simp only [Foot.putAcc, Bool.and_eq_true] at hK
  obtain ⟨hK0, hK1, hK2, hK3⟩ := hK
  unfold putAcc
  with_reducible repeat' first
    | assumption
    | refine putVSat_closed hP ?_ ?_
    | refine putV_closed hP ?_ ?_
    | refine hP.put _ _ _ _ _ ?_ ?_
    | (extract_lets +onlyGivenNames x; apply thenHave (p := P x); (unfold x; clear x); rotate_left 1; (intro hx; clear_value x))
    | (extract_lets +onlyGivenNames x; clear_value x)
    | refine ite_closed ?_ ?_
    | split

theorem putAcc_get {s : State} {k : Nat} {x : AccOut} {fld0 : Fld} {i0 j0 : Nat} (hK : Foot.putAcc (notFld fld0) = true)  :
    (putAcc s k x).get fld0 i0 j0 = s.get fld0 i0 j0 :=
  putAcc_closed (P := fun x => x.get fld0 i0 j0 = s.get fld0 i0 j0) (field_closed fld0 i0 j0 _) hK  rfl

def Foot.putFlag (K : Part → Bool) : Bool := true

theorem putFlag_closed {K : Part → Bool} {P : State → Prop} {s : State} {f : Fld} {k : Nat} {b : Option Bool} (hP : Closed K
    P) (hK : Foot.putFlag K = true) (hK_f : K (.fld f) = true) (hs_s : P s) :
    P (putFlag s f k b) := by
  unfold putFlag
  with_reducible repeat' first
    | assumption
    | refine hP.put _ _ _ _ _ ?_ ?_
    | split

theorem putFlag_get {s : State} {f : Fld} {k : Nat} {b : Option Bool} {fld0 : Fld} {i0 j0 : Nat} (hK : Foot.putFlag (notFld
    fld0) = true) (hg_f : (decide (f = fld0)) = false) : (putFlag s f k b).get fld0 i0 j0 = s.get fld0 i0 j0 :=
  putFlag_closed (P := fun x => x.get fld0 i0 j0 = s.get fld0 i0 j0) (field_closed fld0 i0 j0 _) hK (notFld_true hg_f) rfl

def Foot.putAlu (K : Part → Bool) : Bool := K (.fld .swSat) && (Foot.putFlag K && (Foot.putV K && (K (.fld .swC) && (K (.fld
    .swZ) && (K (.fld .swN))))))

theorem putAlu_closed {K : Part → Bool} {P : State → Prop} {s : State} {k : Nat} {a : Alu} (hP : Closed K P) (hK :
    Foot.putAlu K = true) (hs_s : P s) :
    P (putAlu s k a) := by
  simp only [Foot.putAlu, Bool.and_eq_true] at hK
  obtain ⟨hK0, hK1, hK2, hK3, hK4, hK5⟩ := hK
  unfold putAlu
  with_reducible repeat' first
    | assumption
    | refine putFlag_closed hP ?_ ?_ ?_
    | refine putV_closed hP ?_ ?_
    | refine hP.raise ?_ ?_
    | (extract_lets +onlyGivenNames x; apply thenHave (p := P x); (unfold x; clear x); rotate_left 1; (intro hx; clear_value x))
    | (extract_lets +onlyGivenNames x; clear_value x)
    | refine ite_closed ?_ ?_
    | split

theorem putAlu_get {s : State} {k : Nat} {a : Alu} {fld0 : Fld} {i0 j0 : Nat} (hK : Foot.putAlu (notFld fld0) = true)  :
    (putAlu s k a).get fld0 i0 j0 = s.get fld0 i0 j0 :=
  putAlu_closed (P := fun x => x.get fld0 i0 j0 = s.get fld0 i0 j0) (field_closed fld0 i0 j0 _) hK  rfl

end Sys2Proof.Machine
end

