-- ==== Sys2Proof/Laws/ClosedOperands.lean ====
section
/-! SUPPORT. What the functions of Machine/Operands.lean can write, and that they keep every closed property (Laws/Closed.lean). -/
namespace Sys2Proof.Machine

set_option Elab.async false
set_option linter.all false

def Foot.asIssued (K : Part → Bool) : Bool := K (.fld .swPriv)

theorem asIssued_closed {K : Part → Bool} {P : State → Prop} {s : State} {e : StoreEnt} {f : State → Bool × State} (hP :
    Closed K P) (hK : Foot.asIssued K = true) (h_f : ∀ x0, P x0 → P (f x0).2) (hs_s : P s) :
    P (asIssued s e f).2 := by
  simp only [Foot.asIssued, Bool.and_eq_true] at hK
  unfold asIssued
  with_reducible repeat' first
    | assumption
    | apply h_f
    | refine hP.put _ _ _ _ _ ?_ ?_
    | (extract_lets +onlyGivenNames x; apply thenHave (p := P x); (unfold x; clear x); rotate_left 1; (intro hx; clear_value x))
    | (extract_lets +onlyGivenNames x; clear_value x)
    | refine ite_closed ?_ ?_
    | split

def Foot.storeWord (K : Part → Bool) : Bool := K (.fld .dcWord) && (Foot.countUE K && (Foot.physWrite K))

theorem storeWord_closed {K : Part → Bool} {P : State → Prop} {s : State} {k : Nat} {pas : List Nat} {pa : Nat} {v : W16} (hP
    : Closed K P) (hK : Foot.storeWord K = true) (hs_s : P s) :
    P (storeWord s k pas pa v).2 := by
  simp only [Foot.storeWord, Bool.and_eq_true] at hK
  obtain ⟨hK0, hK1, hK2⟩ := hK
  unfold storeWord
  with_reducible repeat' first
    | assumption
    | refine countUE_closed hP ?_ ?_
    | refine physWrite_closed hP ?_ ?_
    | refine hP.put _ _ _ _ _ ?_ ?_
    | refine Closed.when ?_ ?_
    | intro _
    | (extract_lets +onlyGivenNames x; apply thenHave (p := P x); (unfold x; clear x); rotate_left 1; (intro hx; clear_value x))
    | (extract_lets +onlyGivenNames x; clear_value x)
    | refine ite_closed ?_ ?_
    | split

def Foot.writeCells (K : Part → Bool) : Bool := Foot.storeWord K

theorem writeCells_closed {K : Part → Bool} {P : State → Prop} {s : State} {k : Nat} {l : List (Nat × W16)} (hP : Closed K P)
    (hK : Foot.writeCells K = true) (hs_s : P s) :
    P (writeCells s k l).2 := by
  simp only [Foot.writeCells, Bool.and_eq_true] at hK
  unfold writeCells
  with_reducible repeat' first
    | assumption
    | refine storeWord_closed hP ?_ ?_
    | (dsimp -zeta only)
    | refine of_snd (by assumption) ?_
    | refine of_fst (by assumption) ?_
    | refine of_mid (by assumption) ?_
    | refine of_trd (by assumption) ?_
    | refine of_fth (by assumption) ?_
    | refine foldl_snd ?_ ?_
    | refine foldl_trd ?_ ?_
    | refine foldl_fst ?_ ?_
    | refine foldl_all ?_ ?_
    | intro _
    | (extract_lets +onlyGivenNames x; apply thenHave (p := P x); (unfold x; clear x); rotate_left 1; (intro hx; clear_value x))
    | (extract_lets +onlyGivenNames x; apply thenHave (p := P x.2); (unfold x; clear x); rotate_left 1; (intro hx; clear_value x))
    | (extract_lets +onlyGivenNames x; apply thenHave (p := P x.1); (unfold x; clear x); rotate_left 1; (intro hx; clear_value x))
    | (extract_lets +onlyGivenNames x; apply thenHave (p := P x.2.1); (unfold x; clear x); rotate_left 1; (intro hx; clear_value x))
    | (extract_lets +onlyGivenNames x; apply thenHave (p := P x.2.2); (unfold x; clear x); rotate_left 1; (intro hx; clear_value x))
    | (extract_lets +onlyGivenNames x; clear_value x)
    | (extract_lets +onlyGivenNames x)
    | refine ite_closed ?_ ?_
    | split

def Foot.drainEntry (K : Part → Bool) : Bool := K .traps && (Foot.asIssued K && (Foot.writeCells K))

theorem drainEntry_closed {K : Part → Bool} {P : State → Prop} {s : State} {e : StoreEnt} (hP : Closed K P) (hK :
    Foot.drainEntry K = true) (hs_s : P s) :
    P (drainEntry s e) := by
  simp only [Foot.drainEntry, Bool.and_eq_true] at hK
  obtain ⟨hK0, hK1, hK2⟩ := hK
  unfold drainEntry
  with_reducible repeat' first
    | assumption
    | refine asIssued_closed hP ?_ ?_ ?_
    | refine writeCells_closed hP ?_ ?_
    | intro _
    | (extract_lets +onlyGivenNames x; apply thenHave (p := P x); (unfold x; clear x); rotate_left 1; (intro hx; clear_value x))
    | (extract_lets +onlyGivenNames x; clear_value x)
    | refine hP.remake _ _ _ _ _ _ _ _ _ _ _ _ _ _ _ _ _ _ _ _ _ _ _ (hs := ?_); first | assumption | (with_reducible refine asIssued_closed hP ?_ ?_ ?_) | (with_reducible refine writeCells_closed hP ?_ ?_)
    | refine ite_closed ?_ ?_
    | split

theorem drainEntry_get {s : State} {e : StoreEnt} {fld0 : Fld} {i0 j0 : Nat} (hK : Foot.drainEntry (notFld fld0) = true)  :
    (drainEntry s e).get fld0 i0 j0 = s.get fld0 i0 j0 :=
  drainEntry_closed (P := fun x => x.get fld0 i0 j0 = s.get fld0 i0 j0) (field_closed fld0 i0 j0 _) hK  rfl

def Foot.drainOldest (K : Part → Bool) : Bool := K .stores && (Foot.drainEntry K)

theorem drainOldest_closed {K : Part → Bool} {P : State → Prop} {s : State} {k : Nat} (hP : Closed K P) (hK :
    Foot.drainOldest K = true) (hs_s : P s) :
    P (drainOldest s k) := by
  simp only [Foot.drainOldest, Bool.and_eq_true] at hK
  obtain ⟨hK0, hK1⟩ := hK
  unfold drainOldest
  with_reducible repeat' first
    | assumption
    | refine drainEntry_closed hP ?_ ?_
    | intro _
    | refine hP.remake _ _ _ _ _ _ _ _ _ _ _ _ _ _ _ _ _ _ _ _ _ _ _ (hs := ?_); first | assumption | (with_reducible refine drainEntry_closed hP ?_ ?_)
    | split

theorem drainOldest_get {s : State} {k : Nat} {fld0 : Fld} {i0 j0 : Nat} (hK : Foot.drainOldest (notFld fld0) = true)  :
    (drainOldest s k).get fld0 i0 j0 = s.get fld0 i0 j0 :=
  drainOldest_closed (P := fun x => x.get fld0 i0 j0 = s.get fld0 i0 j0) (field_closed fld0 i0 j0 _) hK  rfl

def Foot.drainN (K : Part → Bool) : Bool := Foot.drainOldest K

theorem drainN_closed {K : Part → Bool} {P : State → Prop} {s : State} {k : Nat} {n : Nat} (hP : Closed K P) (hK :
    Foot.drainN K = true) (hs_s : P s) :
    P (drainN s k n) := by
  simp only [Foot.drainN, Bool.and_eq_true] at hK
  unfold drainN
  with_reducible repeat' first
    | assumption
    | refine drainOldest_closed hP ?_ ?_
    | refine Closed.each ?_ _ ?_
    | intro _

theorem drainN_get {s : State} {k : Nat} {n : Nat} {fld0 : Fld} {i0 j0 : Nat} (hK : Foot.drainN (notFld fld0) = true)  :
    (drainN s k n).get fld0 i0 j0 = s.get fld0 i0 j0 :=
  drainN_closed (P := fun x => x.get fld0 i0 j0 = s.get fld0 i0 j0) (field_closed fld0 i0 j0 _) hK  rfl

def Foot.drainAll (K : Part → Bool) : Bool := Foot.drainN K

theorem drainAll_closed {K : Part → Bool} {P : State → Prop} {s : State} {k : Nat} (hP : Closed K P) (hK : Foot.drainAll K =
    true) (hs_s : P s) :
    P (drainAll s k) := by
  simp only [Foot.drainAll, Bool.and_eq_true] at hK
  unfold drainAll
  with_reducible repeat' first
    | assumption
    | refine drainN_closed hP ?_ ?_

theorem drainAll_get {s : State} {k : Nat} {fld0 : Fld} {i0 j0 : Nat} (hK : Foot.drainAll (notFld fld0) = true)  : (drainAll
    s k).get fld0 i0 j0 = s.get fld0 i0 j0 :=
  drainAll_closed (P := fun x => x.get fld0 i0 j0 = s.get fld0 i0 j0) (field_closed fld0 i0 j0 _) hK  rfl

def Foot.retireDiv (K : Part → Bool) : Bool := K (.fld .divOn) && (K (.fld .swV) && (K (.fld .swDz) && (K .traps &&
    (Foot.setD K))))

theorem retireDiv_closed {K : Part → Bool} {P : State → Prop} {s : State} {k : Nat} (hP : Closed K P) (hK : Foot.retireDiv K
    = true) (hs_s : P s) :
    P (retireDiv s k) := by
  simp only [Foot.retireDiv, Bool.and_eq_true] at hK
  obtain ⟨hK0, hK1, hK2, hK3, hK4⟩ := hK
  unfold retireDiv
  with_reducible repeat' first
    | assumption
    | refine setD_closed hP ?_ ?_
    | refine hP.put _ _ _ _ _ ?_ ?_
    | refine hP.clear ?_ ?_
    | refine hP.raise ?_ ?_
    | (extract_lets +onlyGivenNames x; apply thenHave (p := P x); (unfold x; clear x); rotate_left 1; (intro hx; clear_value x))
    | (extract_lets +onlyGivenNames x; clear_value x)
    | refine hP.remake _ _ _ _ _ _ _ _ _ _ _ _ _ _ _ _ _ _ _ _ _ _ _ (hs := ?_); first | assumption | (with_reducible refine setD_closed hP ?_ ?_) | (with_reducible refine hP.put _ _ _ _ _ ?_ ?_) | (with_reducible refine hP.clear ?_ ?_) | (with_reducible refine hP.raise ?_ ?_) | (with_reducible refine hP.bump ?_ ?_) | (with_reducible refine hP.setBits ?_ ?_) | (with_reducible refine hP.clrBits ?_ ?_)
    | refine ite_closed ?_ ?_
    | split

theorem retireDiv_get {s : State} {k : Nat} {fld0 : Fld} {i0 j0 : Nat} (hK : Foot.retireDiv (notFld fld0) = true)  :
    (retireDiv s k).get fld0 i0 j0 = s.get fld0 i0 j0 :=
  retireDiv_closed (P := fun x => x.get fld0 i0 j0 = s.get fld0 i0 j0) (field_closed fld0 i0 j0 _) hK  rfl

def Foot.retireMac (K : Part → Bool) : Bool := K (.fld .macOn) && (K (.fld .swSat) && (Foot.setA K && (Foot.putV K)))

theorem retireMac_closed {K : Part → Bool} {P : State → Prop} {s : State} {k : Nat} (hP : Closed K P) (hK : Foot.retireMac K
    = true) (hs_s : P s) :
    P (retireMac s k) := by
  simp only [Foot.retireMac, Bool.and_eq_true] at hK
  obtain ⟨hK0, hK1, hK2, hK3⟩ := hK
  unfold retireMac
  with_reducible repeat' first
    | assumption
    | refine setA_closed hP ?_ ?_
    | refine putV_closed hP ?_ ?_
    | refine hP.clear ?_ ?_
    | refine hP.raise ?_ ?_
    | (extract_lets +onlyGivenNames x; apply thenHave (p := P x); (unfold x; clear x); rotate_left 1; (intro hx; clear_value x))
    | (extract_lets +onlyGivenNames x; clear_value x)
    | refine ite_closed ?_ ?_
    | split

theorem retireMac_get {s : State} {k : Nat} {fld0 : Fld} {i0 j0 : Nat} (hK : Foot.retireMac (notFld fld0) = true)  :
    (retireMac s k).get fld0 i0 j0 = s.get fld0 i0 j0 :=
  retireMac_closed (P := fun x => x.get fld0 i0 j0 = s.get fld0 i0 j0) (field_closed fld0 i0 j0 _) hK  rfl

def Foot.settle (K : Part → Bool) : Bool := Foot.drainAll K && (Foot.retireDiv K && (Foot.retireMac K))

theorem settle_closed {K : Part → Bool} {P : State → Prop} {s : State} {k : Nat} {u : Use} (hP : Closed K P) (hK :
    Foot.settle K = true) (hs_s : P s) :
    P (settle s k u) := by
  simp only [Foot.settle, Bool.and_eq_true] at hK
  obtain ⟨hK0, hK1, hK2⟩ := hK
  unfold settle
  with_reducible repeat' first
    | assumption
    | refine drainAll_closed hP ?_ ?_
    | refine retireDiv_closed hP ?_ ?_
    | refine retireMac_closed hP ?_ ?_
    | (extract_lets +onlyGivenNames x; apply thenHave (p := P x); (unfold x; clear x); rotate_left 1; (intro hx; clear_value x))
    | (extract_lets +onlyGivenNames x; clear_value x)
    | refine ite_closed ?_ ?_
    | split

theorem settle_get {s : State} {k : Nat} {u : Use} {fld0 : Fld} {i0 j0 : Nat} (hK : Foot.settle (notFld fld0) = true)  :
    (settle s k u).get fld0 i0 j0 = s.get fld0 i0 j0 :=
  settle_closed (P := fun x => x.get fld0 i0 j0 = s.get fld0 i0 j0) (field_closed fld0 i0 j0 _) hK  rfl

def Foot.retireAll (K : Part → Bool) : Bool := Foot.retireMac K && (Foot.retireDiv K)

theorem retireAll_closed {K : Part → Bool} {P : State → Prop} {s : State} {k : Nat} (hP : Closed K P) (hK : Foot.retireAll K
    = true) (hs_s : P s) :
    P (retireAll s k) := by
  simp only [Foot.retireAll, Bool.and_eq_true] at hK
  obtain ⟨hK0, hK1⟩ := hK
  unfold retireAll
  with_reducible repeat' first
    | assumption
    | refine retireMac_closed hP ?_ ?_
    | refine retireDiv_closed hP ?_ ?_

theorem retireAll_get {s : State} {k : Nat} {fld0 : Fld} {i0 j0 : Nat} (hK : Foot.retireAll (notFld fld0) = true)  :
    (retireAll s k).get fld0 i0 j0 = s.get fld0 i0 j0 :=
  retireAll_closed (P := fun x => x.get fld0 i0 j0 = s.get fld0 i0 j0) (field_closed fld0 i0 j0 _) hK  rfl

def Foot.bufferStore (K : Part → Bool) : Bool := K .stores && (Foot.drainOldest K)

theorem bufferStore_closed {K : Part → Bool} {P : State → Prop} {s : State} {e : StoreEnt} (hP : Closed K P) (hK :
    Foot.bufferStore K = true) (hs_s : P s) :
    P (bufferStore s e) := by
  simp only [Foot.bufferStore, Bool.and_eq_true] at hK
  obtain ⟨hK0, hK1⟩ := hK
  unfold bufferStore
  with_reducible repeat' first
    | assumption
    | refine drainOldest_closed hP ?_ ?_
    | (extract_lets +onlyGivenNames x; apply thenHave (p := P x); (unfold x; clear x); rotate_left 1; (intro hx; clear_value x))
    | (extract_lets +onlyGivenNames x; clear_value x)
    | refine hP.remake _ _ _ _ _ _ _ _ _ _ _ _ _ _ _ _ _ _ _ _ _ _ _ (hs := ?_); first | assumption | (with_reducible refine drainOldest_closed hP ?_ ?_)
    | refine ite_closed ?_ ?_
    | split

theorem bufferStore_get {s : State} {e : StoreEnt} {fld0 : Fld} {i0 j0 : Nat} (hK : Foot.bufferStore (notFld fld0) = true)  :
    (bufferStore s e).get fld0 i0 j0 = s.get fld0 i0 j0 :=
  bufferStore_closed (P := fun x => x.get fld0 i0 j0 = s.get fld0 i0 j0) (field_closed fld0 i0 j0 _) hK  rfl

def Foot.place (K : Part → Bool) : Bool := Foot.translate K

theorem place_closed {K : Part → Bool} {P : State → Prop} {s : State} {k : Nat} {sup : Bool} {va : Int} {x : Access} (hP :
    Closed K P) (hK : Foot.place K = true) (hs_s : P s) :
    P (place s k sup va x).2 := by
  simp only [Foot.place, Bool.and_eq_true] at hK
  unfold place
  with_reducible repeat' first
    | assumption
    | refine translate_closed hP ?_ ?_
    | (dsimp -zeta only)
    | refine of_snd (by assumption) ?_
    | refine of_fst (by assumption) ?_
    | refine of_mid (by assumption) ?_
    | refine of_trd (by assumption) ?_
    | refine of_fth (by assumption) ?_
    | intro _
    | (extract_lets +onlyGivenNames x; apply thenHave (p := P x); (unfold x; clear x); rotate_left 1; (intro hx; clear_value x))
    | (extract_lets +onlyGivenNames x; apply thenHave (p := P x.2); (unfold x; clear x); rotate_left 1; (intro hx; clear_value x))
    | (extract_lets +onlyGivenNames x; apply thenHave (p := P x.1); (unfold x; clear x); rotate_left 1; (intro hx; clear_value x))
    | (extract_lets +onlyGivenNames x; apply thenHave (p := P x.2.1); (unfold x; clear x); rotate_left 1; (intro hx; clear_value x))
    | (extract_lets +onlyGivenNames x; apply thenHave (p := P x.2.2); (unfold x; clear x); rotate_left 1; (intro hx; clear_value x))
    | (extract_lets +onlyGivenNames x; clear_value x)
    | (extract_lets +onlyGivenNames x)
    | refine ite_closed ?_ ?_
    | split

def Foot.reach (K : Part → Bool) : Bool := Foot.place K

theorem reach_closed {K : Part → Bool} {P : State → Prop} {s : State} {k : Nat} {sup : Bool} {va : Int} {x : Access} (hP :
    Closed K P) (hK : Foot.reach K = true) (hs_s : P s) :
    P (reach s k sup va x).2 := by
  simp only [Foot.reach, Bool.and_eq_true] at hK
  unfold reach
  with_reducible repeat' first
    | assumption
    | refine place_closed hP ?_ ?_
    | (dsimp -zeta only)
    | refine of_snd (by assumption) ?_
    | refine of_fst (by assumption) ?_
    | refine of_mid (by assumption) ?_
    | refine of_trd (by assumption) ?_
    | refine of_fth (by assumption) ?_
    | intro _
    | (extract_lets +onlyGivenNames x; apply thenHave (p := P x); (unfold x; clear x); rotate_left 1; (intro hx; clear_value x))
    | (extract_lets +onlyGivenNames x; apply thenHave (p := P x.2); (unfold x; clear x); rotate_left 1; (intro hx; clear_value x))
    | (extract_lets +onlyGivenNames x; apply thenHave (p := P x.1); (unfold x; clear x); rotate_left 1; (intro hx; clear_value x))
    | (extract_lets +onlyGivenNames x; apply thenHave (p := P x.2.1); (unfold x; clear x); rotate_left 1; (intro hx; clear_value x))
    | (extract_lets +onlyGivenNames x; apply thenHave (p := P x.2.2); (unfold x; clear x); rotate_left 1; (intro hx; clear_value x))
    | (extract_lets +onlyGivenNames x; clear_value x)
    | (extract_lets +onlyGivenNames x)
    | refine ite_closed ?_ ?_
    | split

def Foot.reachAll (K : Part → Bool) : Bool := Foot.reach K

theorem reachAll_closed {K : Part → Bool} {P : State → Prop} {s : State} {k : Nat} {sup : Bool} {va : Int} {x : Access} {n :
    Nat} (hP : Closed K P) (hK : Foot.reachAll K = true) (hs_s : P s) :
    P (reachAll s k sup va x n).2 := by
  simp only [Foot.reachAll, Bool.and_eq_true] at hK
  unfold reachAll
  with_reducible repeat' first
    | assumption
    | refine reach_closed hP ?_ ?_
    | (dsimp -zeta only)
    | refine of_snd (by assumption) ?_
    | refine of_fst (by assumption) ?_
    | refine of_mid (by assumption) ?_
    | refine of_trd (by assumption) ?_
    | refine of_fth (by assumption) ?_
    | refine foldl_snd ?_ ?_
    | refine foldl_trd ?_ ?_
    | refine foldl_fst ?_ ?_
    | refine foldl_all ?_ ?_
    | intro _
    | (extract_lets +onlyGivenNames x; apply thenHave (p := P x); (unfold x; clear x); rotate_left 1; (intro hx; clear_value x))
    | (extract_lets +onlyGivenNames x; apply thenHave (p := P x.2); (unfold x; clear x); rotate_left 1; (intro hx; clear_value x))
    | (extract_lets +onlyGivenNames x; apply thenHave (p := P x.1); (unfold x; clear x); rotate_left 1; (intro hx; clear_value x))
    | (extract_lets +onlyGivenNames x; apply thenHave (p := P x.2.1); (unfold x; clear x); rotate_left 1; (intro hx; clear_value x))
    | (extract_lets +onlyGivenNames x; apply thenHave (p := P x.2.2); (unfold x; clear x); rotate_left 1; (intro hx; clear_value x))
    | (extract_lets +onlyGivenNames x; clear_value x)
    | (extract_lets +onlyGivenNames x)
    | refine ite_closed ?_ ?_
    | split

def Foot.store (K : Part → Bool) : Bool := Foot.reachAll K && (Foot.writeCells K && (Foot.bufferStore K))

theorem store_closed {K : Part → Bool} {P : State → Prop} {s : State} {k : Nat} {sup : Bool} {va : Int} {vals : List Int}
    {frame : Bool} (hP : Closed K P) (hK : Foot.store K = true) (hs_s : P s) :
    ExcAll P (store s k sup va vals frame) := by
  simp only [Foot.store, Bool.and_eq_true] at hK
  obtain ⟨hK0, hK1, hK2⟩ := hK
  unfold store
  with_reducible repeat' first
    | assumption
    | refine reachAll_closed hP ?_ ?_
    | refine writeCells_closed hP ?_ ?_
    | refine bufferStore_closed hP ?_ ?_
    | (dsimp -zeta only)
    | refine of_snd (by assumption) ?_
    | refine of_fst (by assumption) ?_
    | refine of_mid (by assumption) ?_
    | refine of_trd (by assumption) ?_
    | refine of_fth (by assumption) ?_
    | refine ExcAll.snd ?_
    | refine ExcAll.ok ?_ ?_
    | refine ExcAll.err ?_
    | refine of_ok (by assumption) ?_
    | refine of_okSnd (by assumption) ?_
    | refine of_err (by assumption) ?_
    | intro _
    | (extract_lets +onlyGivenNames x; apply thenHave (p := P x); (unfold x; clear x); rotate_left 1; (intro hx; clear_value x))
    | (extract_lets +onlyGivenNames x; apply thenHave (p := P x.2); (unfold x; clear x); rotate_left 1; (intro hx; clear_value x))
    | (extract_lets +onlyGivenNames x; apply thenHave (p := P x.1); (unfold x; clear x); rotate_left 1; (intro hx; clear_value x))
    | (extract_lets +onlyGivenNames x; apply thenHave (p := P x.2.1); (unfold x; clear x); rotate_left 1; (intro hx; clear_value x))
    | (extract_lets +onlyGivenNames x; apply thenHave (p := P x.2.2); (unfold x; clear x); rotate_left 1; (intro hx; clear_value x))
    | (extract_lets +onlyGivenNames x; clear_value x)
    | (extract_lets +onlyGivenNames x)
    | refine ite_closed ?_ ?_
    | split

def Foot.lineHeld (K : Part → Bool) : Bool := K .freeCtr

theorem lineHeld_closed {K : Part → Bool} {P : State → Prop} {s : State} {on : Fld} {pa : Nat} (hP : Closed K P) (hK :
    Foot.lineHeld K = true) (hK_on : K (.fld on) = true) (hs_s : P s) :
    P (lineHeld s on pa).2 := by
  simp only [Foot.lineHeld, Bool.and_eq_true] at hK
  unfold lineHeld
  with_reducible repeat' first
    | assumption
    | refine hP.put _ _ _ _ _ ?_ ?_
    | refine hP.clear ?_ ?_
    | refine hP.raise ?_ ?_
    | refine hP.bump ?_ ?_
    | refine hP.setBits ?_ ?_
    | refine hP.clrBits ?_ ?_
    | refine Closed.each ?_ _ ?_
    | refine hP.fresh ?_ ?_
    | (dsimp -zeta only)
    | refine of_snd (by assumption) ?_
    | refine of_fst (by assumption) ?_
    | refine of_mid (by assumption) ?_
    | refine of_trd (by assumption) ?_
    | refine of_fth (by assumption) ?_
    | intro _
    | (extract_lets +onlyGivenNames x; apply thenHave (p := P x); (unfold x; clear x); rotate_left 1; (intro hx; clear_value x))
    | (extract_lets +onlyGivenNames x; apply thenHave (p := P x.2); (unfold x; clear x); rotate_left 1; (intro hx; clear_value x))
    | (extract_lets +onlyGivenNames x; apply thenHave (p := P x.1); (unfold x; clear x); rotate_left 1; (intro hx; clear_value x))
    | (extract_lets +onlyGivenNames x; apply thenHave (p := P x.2.1); (unfold x; clear x); rotate_left 1; (intro hx; clear_value x))
    | (extract_lets +onlyGivenNames x; apply thenHave (p := P x.2.2); (unfold x; clear x); rotate_left 1; (intro hx; clear_value x))
    | (extract_lets +onlyGivenNames x; clear_value x)
    | (extract_lets +onlyGivenNames x)
    | refine ite_closed ?_ ?_
    | split

def Foot.fillLine (K : Part → Bool) : Bool := true

theorem fillLine_closed {K : Part → Bool} {P : State → Prop} {s : State} {on : Fld} {word : Fld} {pa : Nat} {view : Nat →
    Option W16} (hP : Closed K P) (hK : Foot.fillLine K = true) (hK_on : K (.fld on) = true) (hK_word : K (.fld word) = true)
    (hs_s : P s) :
    P (fillLine s on word pa view) := by
  unfold fillLine
  with_reducible repeat' first
    | assumption
    | refine hP.put _ _ _ _ _ ?_ ?_
    | refine hP.clear ?_ ?_
    | refine hP.raise ?_ ?_
    | refine Closed.each ?_ _ ?_
    | intro _
    | split

def Foot.cachedRead (K : Part → Bool) : Bool := Foot.lineHeld K && (Foot.memRead K && (Foot.fillLine K && (K (.fld .dcOn) &&
    (K (.fld .dcWord)))))

theorem cachedRead_closed {K : Part → Bool} {P : State → Prop} {s : State} {pa : Nat} (hP : Closed K P) (hK : Foot.cachedRead
    K = true) (hs_s : P s) :
    P (cachedRead s pa).2 := by
  simp only [Foot.cachedRead, Bool.and_eq_true] at hK
  obtain ⟨hK0, hK1, hK2, hK3, hK4⟩ := hK
  unfold cachedRead
  with_reducible repeat' first
    | assumption
    | refine lineHeld_closed hP ?_ ?_ ?_
    | refine memRead_closed hP ?_ ?_
    | refine fillLine_closed hP ?_ ?_ ?_ ?_
    | (dsimp -zeta only)
    | refine of_snd (by assumption) ?_
    | refine of_fst (by assumption) ?_
    | refine of_mid (by assumption) ?_
    | refine of_trd (by assumption) ?_
    | refine of_fth (by assumption) ?_
    | intro _
    | (extract_lets +onlyGivenNames x; apply thenHave (p := P x); (unfold x; clear x); rotate_left 1; (intro hx; clear_value x))
    | (extract_lets +onlyGivenNames x; apply thenHave (p := P x.2); (unfold x; clear x); rotate_left 1; (intro hx; clear_value x))
    | (extract_lets +onlyGivenNames x; apply thenHave (p := P x.1); (unfold x; clear x); rotate_left 1; (intro hx; clear_value x))
    | (extract_lets +onlyGivenNames x; apply thenHave (p := P x.2.1); (unfold x; clear x); rotate_left 1; (intro hx; clear_value x))
    | (extract_lets +onlyGivenNames x; apply thenHave (p := P x.2.2); (unfold x; clear x); rotate_left 1; (intro hx; clear_value x))
    | (extract_lets +onlyGivenNames x; clear_value x)
    | (extract_lets +onlyGivenNames x)
    | refine ite_closed ?_ ?_
    | split

def Foot.loadWord (K : Part → Bool) : Bool := Foot.cachedRead K && (Foot.physRead K)

theorem loadWord_closed {K : Part → Bool} {P : State → Prop} {s : State} {k : Nat} {cached : Bool} {pa : Nat} (hP : Closed K
    P) (hK : Foot.loadWord K = true) (hs_s : P s) :
    P (loadWord s k cached pa).2 := by
  simp only [Foot.loadWord, Bool.and_eq_true] at hK
  obtain ⟨hK0, hK1⟩ := hK
  unfold loadWord
  with_reducible repeat' first
    | assumption
    | refine cachedRead_closed hP ?_ ?_
    | refine physRead_closed hP ?_ ?_
    | refine ite_closed ?_ ?_
    | split

def Foot.loadCells (K : Part → Bool) : Bool := Foot.loadWord K

theorem loadCells_closed {K : Part → Bool} {P : State → Prop} {s : State} {k : Nat} {va : Int} {pas : List Nat} (hP : Closed
    K P) (hK : Foot.loadCells K = true) (hs_s : P s) :
    P (loadCells s k va pas).2 := by
  simp only [Foot.loadCells, Bool.and_eq_true] at hK
  unfold loadCells
  with_reducible repeat' first
    | assumption
    | refine loadWord_closed hP ?_ ?_
    | (dsimp -zeta only)
    | refine of_snd (by assumption) ?_
    | refine of_fst (by assumption) ?_
    | refine of_mid (by assumption) ?_
    | refine of_trd (by assumption) ?_
    | refine of_fth (by assumption) ?_
    | refine foldl_snd ?_ ?_
    | refine foldl_trd ?_ ?_
    | refine foldl_fst ?_ ?_
    | refine foldl_all ?_ ?_
    | intro _
    | (extract_lets +onlyGivenNames x; apply thenHave (p := P x); (unfold x; clear x); rotate_left 1; (intro hx; clear_value x))
    | (extract_lets +onlyGivenNames x; apply thenHave (p := P x.2); (unfold x; clear x); rotate_left 1; (intro hx; clear_value x))
    | (extract_lets +onlyGivenNames x; apply thenHave (p := P x.1); (unfold x; clear x); rotate_left 1; (intro hx; clear_value x))
    | (extract_lets +onlyGivenNames x; apply thenHave (p := P x.2.1); (unfold x; clear x); rotate_left 1; (intro hx; clear_value x))
    | (extract_lets +onlyGivenNames x; apply thenHave (p := P x.2.2); (unfold x; clear x); rotate_left 1; (intro hx; clear_value x))
    | (extract_lets +onlyGivenNames x; clear_value x)
    | (extract_lets +onlyGivenNames x)
    | refine ite_closed ?_ ?_
    | split

def Foot.drainDevice (K : Part → Bool) : Bool := Foot.drainN K

theorem drainDevice_closed {K : Part → Bool} {P : State → Prop} {s : State} {k : Nat} (hP : Closed K P) (hK :
    Foot.drainDevice K = true) (hs_s : P s) :
    P (drainDevice s k) := by
  simp only [Foot.drainDevice, Bool.and_eq_true] at hK
  unfold drainDevice
  with_reducible repeat' first
    | assumption
    | refine drainN_closed hP ?_ ?_
    | intro _
    | (extract_lets +onlyGivenNames x; apply thenHave (p := P x); (unfold x; clear x); rotate_left 1; (intro hx; clear_value x))
    | (extract_lets +onlyGivenNames x; clear_value x)

theorem drainDevice_get {s : State} {k : Nat} {fld0 : Fld} {i0 j0 : Nat} (hK : Foot.drainDevice (notFld fld0) = true)  :
    (drainDevice s k).get fld0 i0 j0 = s.get fld0 i0 j0 :=
  drainDevice_closed (P := fun x => x.get fld0 i0 j0 = s.get fld0 i0 j0) (field_closed fld0 i0 j0 _) hK  rfl

def Foot.load (K : Part → Bool) : Bool := Foot.reachAll K && (Foot.loadCells K && (Foot.drainDevice K))

theorem load_closed {K : Part → Bool} {P : State → Prop} {s : State} {k : Nat} {sup : Bool} {va : Int} {n : Nat} (hP : Closed
    K P) (hK : Foot.load K = true) (hs_s : P s) :
    P (load s k sup va n).2 := by
  simp only [Foot.load, Bool.and_eq_true] at hK
  obtain ⟨hK0, hK1, hK2⟩ := hK
  unfold load
  with_reducible repeat' first
    | assumption
    | refine reachAll_closed hP ?_ ?_
    | refine loadCells_closed hP ?_ ?_
    | refine drainDevice_closed hP ?_ ?_
    | (dsimp -zeta only)
    | refine of_snd (by assumption) ?_
    | refine of_fst (by assumption) ?_
    | refine of_mid (by assumption) ?_
    | refine of_trd (by assumption) ?_
    | refine of_fth (by assumption) ?_
    | intro _
    | (extract_lets +onlyGivenNames x; apply thenHave (p := P x); (unfold x; clear x); rotate_left 1; (intro hx; clear_value x))
    | (extract_lets +onlyGivenNames x; apply thenHave (p := P x.2); (unfold x; clear x); rotate_left 1; (intro hx; clear_value x))
    | (extract_lets +onlyGivenNames x; apply thenHave (p := P x.1); (unfold x; clear x); rotate_left 1; (intro hx; clear_value x))
    | (extract_lets +onlyGivenNames x; apply thenHave (p := P x.2.1); (unfold x; clear x); rotate_left 1; (intro hx; clear_value x))
    | (extract_lets +onlyGivenNames x; apply thenHave (p := P x.2.2); (unfold x; clear x); rotate_left 1; (intro hx; clear_value x))
    | (extract_lets +onlyGivenNames x; clear_value x)
    | (extract_lets +onlyGivenNames x)
    | refine ite_closed ?_ ?_
    | split

def Foot.putPointer (K : Part → Bool) : Bool := Foot.setP K

theorem putPointer_closed {K : Part → Bool} {P : State → Prop} {s : State} {k : Nat} {p : Option (Nat × Int)} (hP : Closed K
    P) (hK : Foot.putPointer K = true) (hs_s : P s) :
    P (putPointer s k p) := by
  simp only [Foot.putPointer, Bool.and_eq_true] at hK
  unfold putPointer
  with_reducible repeat' first
    | assumption
    | refine setP_closed hP ?_ ?_
    | split

theorem putPointer_get {s : State} {k : Nat} {p : Option (Nat × Int)} {fld0 : Fld} {i0 j0 : Nat} (hK : Foot.putPointer
    (notFld fld0) = true)  : (putPointer s k p).get fld0 i0 j0 = s.get fld0 i0 j0 :=
  putPointer_closed (P := fun x => x.get fld0 i0 j0 = s.get fld0 i0 j0) (field_closed fld0 i0 j0 _) hK  rfl

end Sys2Proof.Machine
end

