-- ==== Sys2Proof/Laws/ClosedExceptions.lean ====
section
/-! SUPPORT. What the functions of Machine/Exceptions.lean can write, and that they keep every closed property (Laws/Closed.lean). -/
namespace Sys2Proof.Machine

set_option Elab.async false
set_option linter.all false

def Foot.setSupSp (K : Part → Bool) : Bool := K (.fld .coreP)

theorem setSupSp_closed {K : Part → Bool} {P : State → Prop} {s : State} {v : Int} (hP : Closed K P) (hK : Foot.setSupSp K =
    true) (hs_s : P s) :
    P (setSupSp s v) := by
  simp only [Foot.setSupSp, Bool.and_eq_true] at hK
  unfold setSupSp
  with_reducible repeat' first
    | assumption
    | refine hP.put _ _ _ _ _ ?_ ?_

theorem setSupSp_get {s : State} {v : Int} {fld0 : Fld} {i0 j0 : Nat} (hK : Foot.setSupSp (notFld fld0) = true)  : (setSupSp
    s v).get fld0 i0 j0 = s.get fld0 i0 j0 :=
  setSupSp_closed (P := fun x => x.get fld0 i0 j0 = s.get fld0 i0 j0) (field_closed fld0 i0 j0 _) hK  rfl

def Foot.frameStore (K : Part → Bool) : Bool := Foot.bufferStore K && (Foot.store K)

theorem frameStore_closed {K : Part → Bool} {P : State → Prop} {s : State} {plain : Bool} {va : Int} {l : List Int} (hP :
    Closed K P) (hK : Foot.frameStore K = true) (hs_s : P s) :
    P (frameStore s plain va l) := by
  simp only [Foot.frameStore, Bool.and_eq_true] at hK
  obtain ⟨hK0, hK1⟩ := hK
  unfold frameStore
  with_reducible repeat' first
    | assumption
    | refine bufferStore_closed hP ?_ ?_
    | refine store_closed hP ?_ ?_
    | refine ExcAll.snd ?_
    | refine ExcAll.ok ?_ ?_
    | refine ExcAll.err ?_
    | refine of_ok (by assumption) ?_
    | refine of_okSnd (by assumption) ?_
    | refine of_err (by assumption) ?_
    | intro _
    | (extract_lets +onlyGivenNames x; apply thenHave (p := P x); (unfold x; clear x); rotate_left 1; (intro hx; clear_value x))
    | (extract_lets +onlyGivenNames x; clear_value x)
    | refine ite_closed ?_ ?_
    | split

theorem frameStore_get {s : State} {plain : Bool} {va : Int} {l : List Int} {fld0 : Fld} {i0 j0 : Nat} (hK : Foot.frameStore
    (notFld fld0) = true)  : (frameStore s plain va l).get fld0 i0 j0 = s.get fld0 i0 j0 :=
  frameStore_closed (P := fun x => x.get fld0 i0 j0 = s.get fld0 i0 j0) (field_closed fld0 i0 j0 _) hK  rfl

def Foot.leaveContext (K : Part → Bool) : Bool := K (.fld .repOn) && (K (.fld .loopOn) && (K (.fld .swIe) && (K (.fld
    .corePc) && (K (.fld .irPres) && (K (.fld .coreWait) && (Foot.dropLoopBuffer K && (Foot.dropQueue K)))))))

theorem leaveContext_closed {K : Part → Bool} {P : State → Prop} {s : State} {k : Nat} {off : Int} (hP : Closed K P) (hK :
    Foot.leaveContext K = true) (hs_s : P s) :
    P (leaveContext s k off) := by
  simp only [Foot.leaveContext, Bool.and_eq_true] at hK
  obtain ⟨hK0, hK1, hK2, hK3, hK4, hK5, hK6, hK7⟩ := hK
  unfold leaveContext
  with_reducible repeat' first
    | assumption
    | refine dropLoopBuffer_closed hP ?_ ?_
    | refine dropQueue_closed hP ?_ ?_
    | refine hP.put _ _ _ _ _ ?_ ?_
    | refine hP.clear ?_ ?_
    | (extract_lets +onlyGivenNames x; apply thenHave (p := P x); (unfold x; clear x); rotate_left 1; (intro hx; clear_value x))
    | (extract_lets +onlyGivenNames x; clear_value x)

theorem leaveContext_get {s : State} {k : Nat} {off : Int} {fld0 : Fld} {i0 j0 : Nat} (hK : Foot.leaveContext (notFld fld0) =
    true)  : (leaveContext s k off).get fld0 i0 j0 = s.get fld0 i0 j0 :=
  leaveContext_closed (P := fun x => x.get fld0 i0 j0 = s.get fld0 i0 j0) (field_closed fld0 i0 j0 _) hK  rfl

def Foot.reuseRefill (K : Part → Bool) : Bool := K (.fld .swPriv) && (Foot.setSupSp K && (Foot.frameStore K &&
    (Foot.leaveContext K)))

theorem reuseRefill_closed {K : Part → Bool} {P : State → Prop} {s : State} {cause : Int} {off : Int} (hP : Closed K P) (hK :
    Foot.reuseRefill K = true) (hs_s : P s) :
    P (reuseRefill s cause off) := by
  simp only [Foot.reuseRefill, Bool.and_eq_true] at hK
  obtain ⟨hK0, hK1, hK2, hK3⟩ := hK
  unfold reuseRefill
  with_reducible repeat' first
    | assumption
    | refine setSupSp_closed hP ?_ ?_
    | refine frameStore_closed hP ?_ ?_
    | refine leaveContext_closed hP ?_ ?_
    | refine hP.put _ _ _ _ _ ?_ ?_
    | (extract_lets +onlyGivenNames x; apply thenHave (p := P x); (unfold x; clear x); rotate_left 1; (intro hx; clear_value x))
    | (extract_lets +onlyGivenNames x; clear_value x)

theorem reuseRefill_get {s : State} {cause : Int} {off : Int} {fld0 : Fld} {i0 j0 : Nat} (hK : Foot.reuseRefill (notFld fld0)
    = true)  : (reuseRefill s cause off).get fld0 i0 j0 = s.get fld0 i0 j0 :=
  reuseRefill_closed (P := fun x => x.get fld0 i0 j0 = s.get fld0 i0 j0) (field_closed fld0 i0 j0 _) hK  rfl

def Foot.refillException (K : Part → Bool) : Bool := K (.fld .recRm) && (K (.fld .XC_STATUS_RM) && (K (.fld .XC_STATUS_MCIP)
    && (K (.fld .recMc) && (K (.fld .recKind) && (Foot.reuseRefill K && (Foot.mcReset K))))))

theorem refillException_closed {K : Part → Bool} {P : State → Prop} {s : State} {e : Exc} (hP : Closed K P) (hK :
    Foot.refillException K = true) (hs_s : P s) :
    P (refillException s e) := by
  simp only [Foot.refillException, Bool.and_eq_true] at hK
  obtain ⟨hK0, hK1, hK2, hK3, hK4, hK5, hK6⟩ := hK
  unfold refillException
  with_reducible repeat' first
    | assumption
    | refine reuseRefill_closed hP ?_ ?_
    | refine mcReset_closed hP ?_ ?_
    | refine hP.put _ _ _ _ _ ?_ ?_
    | refine hP.clear ?_ ?_
    | refine hP.raise ?_ ?_
    | (extract_lets +onlyGivenNames x; apply thenHave (p := P x); (unfold x; clear x); rotate_left 1; (intro hx; clear_value x))
    | (extract_lets +onlyGivenNames x; clear_value x)
    | refine ite_closed ?_ ?_
    | split

theorem refillException_get {s : State} {e : Exc} {fld0 : Fld} {i0 j0 : Nat} (hK : Foot.refillException (notFld fld0) = true)
     : (refillException s e).get fld0 i0 j0 = s.get fld0 i0 j0 :=
  refillException_closed (P := fun x => x.get fld0 i0 j0 = s.get fld0 i0 j0) (field_closed fld0 i0 j0 _) hK  rfl

def Foot.storeRefused (K : Part → Bool) : Bool := K .freeCtr

theorem storeRefused_closed {K : Part → Bool} {P : State → Prop} {s : State} {pas : List Nat} (hP : Closed K P) (hK :
    Foot.storeRefused K = true) (hs_s : P s) :
    P (storeRefused s pas).2 := by
  simp only [Foot.storeRefused, Bool.and_eq_true] at hK
  unfold storeRefused
  with_reducible repeat' first
    | assumption
    | refine hP.fresh ?_ ?_
    | (dsimp -zeta only)
    | refine of_snd (by assumption) ?_
    | refine of_fst (by assumption) ?_
    | refine of_mid (by assumption) ?_
    | refine of_trd (by assumption) ?_
    | refine of_fth (by assumption) ?_
    | intro _
    | (extract_lets +onlyGivenNames x; apply thenHave (p := P x); (unfold x; clear x); rotate_left 1; (intro hx; clear_value x))
    | (extract_lets +onlyGivenNames x; apply thenHave (p := P x.2); (unfold x; clear x); rotate_left 1; (intro hx; clear_value x))
    | (extract_lets +onlyGivenNames x; apply thenHave (p := P x.1); (unfold x; clear x); rotate_left 1; (intro hx; clear_value x))
    | (extract_lets +onlyGivenNames x; apply thenHave (p := P x.2.1); (unfold x; clear x); rotate_left 1; (intro hx; clear_value x))
    | (extract_lets +onlyGivenNames x; apply thenHave (p := P x.2.2); (unfold x; clear x); rotate_left 1; (intro hx; clear_value x))
    | (extract_lets +onlyGivenNames x; clear_value x)
    | (extract_lets +onlyGivenNames x)
    | refine ite_closed ?_ ?_
    | split

def Foot.frameFails (K : Part → Bool) : Bool := Foot.reachAll K && (Foot.storeRefused K)

theorem frameFails_closed {K : Part → Bool} {P : State → Prop} {s : State} {sp : Int} (hP : Closed K P) (hK : Foot.frameFails
    K = true) (hs_s : P s) :
    P (frameFails s sp).2 := by
  simp only [Foot.frameFails, Bool.and_eq_true] at hK
  obtain ⟨hK0, hK1⟩ := hK
  unfold frameFails
  with_reducible repeat' first
    | assumption
    | refine reachAll_closed hP ?_ ?_
    | refine storeRefused_closed hP ?_ ?_
    | (dsimp -zeta only)
    | refine of_snd (by assumption) ?_
    | refine of_fst (by assumption) ?_
    | refine of_mid (by assumption) ?_
    | refine of_trd (by assumption) ?_
    | refine of_fth (by assumption) ?_
    | intro _
    | (extract_lets +onlyGivenNames x; apply thenHave (p := P x); (unfold x; clear x); rotate_left 1; (intro hx; clear_value x))
    | (extract_lets +onlyGivenNames x; apply thenHave (p := P x.2); (unfold x; clear x); rotate_left 1; (intro hx; clear_value x))
    | (extract_lets +onlyGivenNames x; apply thenHave (p := P x.1); (unfold x; clear x); rotate_left 1; (intro hx; clear_value x))
    | (extract_lets +onlyGivenNames x; apply thenHave (p := P x.2.1); (unfold x; clear x); rotate_left 1; (intro hx; clear_value x))
    | (extract_lets +onlyGivenNames x; apply thenHave (p := P x.2.2); (unfold x; clear x); rotate_left 1; (intro hx; clear_value x))
    | (extract_lets +onlyGivenNames x; clear_value x)
    | (extract_lets +onlyGivenNames x)
    | refine ite_closed ?_ ?_
    | split

def Foot.pushFrame (K : Part → Bool) : Bool := K (.fld .recClaim) && (K (.fld .recPriv) && (K (.fld .recKind) && (K (.fld
    .XC_STATUS_DEPTH) && (K (.fld .recMc) && (K (.fld .recRm) && (K (.fld .swPriv) && (Foot.frameStore K && (Foot.setSupSp
    K))))))))

theorem pushFrame_closed {K : Part → Bool} {P : State → Prop} {s : State} {plain : Bool} {pc : Int} {cause : Int} {faddr :
    Int} {mc : Bool} {claimed : Bool} (hP : Closed K P) (hK : Foot.pushFrame K = true) (hs_s : P s) :
    P (pushFrame s plain pc cause faddr mc claimed) := by
  simp only [Foot.pushFrame, Bool.and_eq_true] at hK
  obtain ⟨hK0, hK1, hK2, hK3, hK4, hK5, hK6, hK7, hK8⟩ := hK
  unfold pushFrame
  with_reducible repeat' first
    | assumption
    | refine frameStore_closed hP ?_ ?_
    | refine setSupSp_closed hP ?_ ?_
    | refine hP.put _ _ _ _ _ ?_ ?_
    | refine hP.clear ?_ ?_
    | refine Closed.each ?_ _ ?_
    | intro _
    | (extract_lets +onlyGivenNames x; apply thenHave (p := P x); (unfold x; clear x); rotate_left 1; (intro hx; clear_value x))
    | (extract_lets +onlyGivenNames x; clear_value x)

theorem pushFrame_get {s : State} {plain : Bool} {pc : Int} {cause : Int} {faddr : Int} {mc : Bool} {claimed : Bool} {fld0 :
    Fld} {i0 j0 : Nat} (hK : Foot.pushFrame (notFld fld0) = true)  : (pushFrame s plain pc cause faddr mc claimed).get fld0
    i0 j0 = s.get fld0 i0 j0 :=
  pushFrame_closed (P := fun x => x.get fld0 i0 j0 = s.get fld0 i0 j0) (field_closed fld0 i0 j0 _) hK  rfl

def Foot.machineCheck (K : Part → Bool) : Bool := K (.fld .XC_STATUS_MCIP) && (Foot.mcReset K && (Foot.frameFails K &&
    (Foot.pushFrame K && (Foot.leaveContext K))))

theorem machineCheck_closed {K : Part → Bool} {P : State → Prop} {s : State} {pc : Int} {inner : Nat} {faddr : Int} (hP :
    Closed K P) (hK : Foot.machineCheck K = true) (hs_s : P s) :
    P (machineCheck s pc inner faddr) := by
  simp only [Foot.machineCheck, Bool.and_eq_true] at hK
  obtain ⟨hK0, hK1, hK2, hK3, hK4⟩ := hK
  unfold machineCheck
  with_reducible repeat' first
    | assumption
    | refine mcReset_closed hP ?_ ?_
    | refine frameFails_closed hP ?_ ?_
    | refine pushFrame_closed hP ?_ ?_
    | refine leaveContext_closed hP ?_ ?_
    | refine hP.raise ?_ ?_
    | (extract_lets +onlyGivenNames x; apply thenHave (p := P x); (unfold x; clear x); rotate_left 1; (intro hx; clear_value x))
    | (extract_lets +onlyGivenNames x; clear_value x)
    | refine ite_closed ?_ ?_
    | split

theorem machineCheck_get {s : State} {pc : Int} {inner : Nat} {faddr : Int} {fld0 : Fld} {i0 j0 : Nat} (hK :
    Foot.machineCheck (notFld fld0) = true)  : (machineCheck s pc inner faddr).get fld0 i0 j0 = s.get fld0 i0 j0 :=
  machineCheck_closed (P := fun x => x.get fld0 i0 j0 = s.get fld0 i0 j0) (field_closed fld0 i0 j0 _) hK  rfl

def Foot.mcEnter (K : Part → Bool) : Bool := Foot.mcReset K && (Foot.frameFails K && (Foot.machineCheck K &&
    (Foot.leaveContext K && (Foot.pushFrame K))))

theorem mcEnter_closed {K : Part → Bool} {P : State → Prop} {s : State} {pc : Int} {inner : Nat} {faddr : Int} {prep : State
    → Int × Int × Bool × State} (hP : Closed K P) (hK : Foot.mcEnter K = true) (h_prep : ∀ x0, P x0 → P (prep x0).2.2.2)
    (hs_s : P s) :
    P (mcEnter s pc inner faddr prep) := by
  simp only [Foot.mcEnter, Bool.and_eq_true] at hK
  obtain ⟨hK0, hK1, hK2, hK3, hK4⟩ := hK
  unfold mcEnter
  with_reducible repeat' first
    | assumption
    | apply h_prep
    | refine mcReset_closed hP ?_ ?_
    | refine frameFails_closed hP ?_ ?_
    | refine machineCheck_closed hP ?_ ?_
    | refine leaveContext_closed hP ?_ ?_
    | refine pushFrame_closed hP ?_ ?_
    | (dsimp -zeta only)
    | refine of_snd (by assumption) ?_
    | refine of_fst (by assumption) ?_
    | refine of_mid (by assumption) ?_
    | refine of_trd (by assumption) ?_
    | refine of_fth (by assumption) ?_
    | intro _
    | (extract_lets +onlyGivenNames x; apply thenHave (p := P x); (unfold x; clear x); rotate_left 1; (intro hx; clear_value x))
    | (extract_lets +onlyGivenNames x; apply thenHave (p := P x.2); (unfold x; clear x); rotate_left 1; (intro hx; clear_value x))
    | (extract_lets +onlyGivenNames x; apply thenHave (p := P x.1); (unfold x; clear x); rotate_left 1; (intro hx; clear_value x))
    | (extract_lets +onlyGivenNames x; apply thenHave (p := P x.2.1); (unfold x; clear x); rotate_left 1; (intro hx; clear_value x))
    | (extract_lets +onlyGivenNames x; apply thenHave (p := P x.2.2); (unfold x; clear x); rotate_left 1; (intro hx; clear_value x))
    | (extract_lets +onlyGivenNames x; clear_value x)
    | (extract_lets +onlyGivenNames x)
    | refine ite_closed ?_ ?_
    | split

def Foot.refillMode (K : Part → Bool) : Bool := K (.fld .XC_TLBVA_ASID) && (K (.fld .XC_TLBVA_VA) && (K (.fld .missWr) && (K
    (.fld .frameAt) && (K (.fld .XC_STATUS_RM) && (K (.fld .recRm))))))

theorem refillMode_closed {K : Part → Bool} {P : State → Prop} {s : State} {e : Exc} (hP : Closed K P) (hK : Foot.refillMode
    K = true) (hs_s : P s) :
    P (refillMode s e) := by
  simp only [Foot.refillMode, Bool.and_eq_true] at hK
  obtain ⟨hK0, hK1, hK2, hK3, hK4, hK5⟩ := hK
  unfold refillMode
  with_reducible repeat' first
    | assumption
    | refine hP.put _ _ _ _ _ ?_ ?_
    | refine hP.raise ?_ ?_
    | (extract_lets +onlyGivenNames x; apply thenHave (p := P x); (unfold x; clear x); rotate_left 1; (intro hx; clear_value x))
    | (extract_lets +onlyGivenNames x; clear_value x)

theorem refillMode_get {s : State} {e : Exc} {fld0 : Fld} {i0 j0 : Nat} (hK : Foot.refillMode (notFld fld0) = true)  :
    (refillMode s e).get fld0 i0 j0 = s.get fld0 i0 j0 :=
  refillMode_closed (P := fun x => x.get fld0 i0 j0 = s.get fld0 i0 j0) (field_closed fld0 i0 j0 _) hK  rfl

def Foot.mcException (K : Part → Bool) : Bool := Foot.refillException K && (Foot.machineCheck K && (Foot.mcEnter K &&
    (Foot.refillMode K)))

theorem mcException_closed {K : Part → Bool} {P : State → Prop} {s : State} {pc : Int} {e : Exc} (hP : Closed K P) (hK :
    Foot.mcException K = true) (hs_s : P s) :
    P (mcException s pc e) := by
  simp only [Foot.mcException, Bool.and_eq_true] at hK
  obtain ⟨hK0, hK1, hK2, hK3⟩ := hK
  unfold mcException
  with_reducible repeat' first
    | assumption
    | refine refillException_closed hP ?_ ?_
    | refine machineCheck_closed hP ?_ ?_
    | refine mcEnter_closed hP ?_ ?_ ?_
    | refine refillMode_closed hP ?_ ?_
    | intro _
    | (extract_lets +onlyGivenNames x; apply thenHave (p := P x); (unfold x; clear x); rotate_left 1; (intro hx; clear_value x))
    | (extract_lets +onlyGivenNames x; clear_value x)
    | refine ite_closed ?_ ?_
    | split

theorem mcException_get {s : State} {pc : Int} {e : Exc} {fld0 : Fld} {i0 j0 : Nat} (hK : Foot.mcException (notFld fld0) =
    true)  : (mcException s pc e).get fld0 i0 j0 = s.get fld0 i0 j0 :=
  mcException_closed (P := fun x => x.get fld0 i0 j0 = s.get fld0 i0 j0) (field_closed fld0 i0 j0 _) hK  rfl

def Foot.tickEnter (K : Part → Bool) : Bool := K (.fld .XC_XENT_REPV) && (K (.fld .XC_XSW) && (K (.fld .XC_XPC) && (K (.fld
    .XC_XLS) && (K (.fld .XC_XENT_LOOPV) && (K (.fld .XC_XFADDR) && (K (.fld .XC_XCAUSE) && (K (.fld .XC_XLE) && (K (.fld
    .XC_STATUS_SB) && (Foot.leaveContext K)))))))))

theorem tickEnter_closed {K : Part → Bool} {P : State → Prop} {s : State} {k : Nat} {pc : Int} {cause : Int} {faddr : Int}
    {off : Int} (hP : Closed K P) (hK : Foot.tickEnter K = true) (hs_s : P s) :
    P (tickEnter s k pc cause faddr off) := by
  simp only [Foot.tickEnter, Bool.and_eq_true] at hK
  obtain ⟨hK0, hK1, hK2, hK3, hK4, hK5, hK6, hK7, hK8, hK9⟩ := hK
  unfold tickEnter
  with_reducible repeat' first
    | assumption
    | refine leaveContext_closed hP ?_ ?_
    | refine hP.put _ _ _ _ _ ?_ ?_
    | (extract_lets +onlyGivenNames x; apply thenHave (p := P x); (unfold x; clear x); rotate_left 1; (intro hx; clear_value x))
    | (extract_lets +onlyGivenNames x; clear_value x)

theorem tickEnter_get {s : State} {k : Nat} {pc : Int} {cause : Int} {faddr : Int} {off : Int} {fld0 : Fld} {i0 j0 : Nat} (hK
    : Foot.tickEnter (notFld fld0) = true)  : (tickEnter s k pc cause faddr off).get fld0 i0 j0 = s.get fld0 i0 j0 :=
  tickEnter_closed (P := fun x => x.get fld0 i0 j0 = s.get fld0 i0 j0) (field_closed fld0 i0 j0 _) hK  rfl

def Foot.tickException (K : Part → Bool) : Bool := K (.fld .XC_STATUS_DFHALT) && (K (.fld .coreWait) && (K (.fld .coreHalt)
    && (K (.fld .XC_XCAUSE) && (Foot.sampleSource K && (Foot.tickEnter K)))))

theorem tickException_closed {K : Part → Bool} {P : State → Prop} {s : State} {k : Nat} {pc : Int} {e : Exc} (hP : Closed K
    P) (hK : Foot.tickException K = true) (hs_s : P s) :
    P (tickException s k pc e) := by
  simp only [Foot.tickException, Bool.and_eq_true] at hK
  obtain ⟨hK0, hK1, hK2, hK3, hK4, hK5⟩ := hK
  unfold tickException
  with_reducible repeat' first
    | assumption
    | refine sampleSource_closed hP ?_ ?_
    | refine tickEnter_closed hP ?_ ?_
    | refine hP.put _ _ _ _ _ ?_ ?_
    | refine hP.clear ?_ ?_
    | refine hP.raise ?_ ?_
    | (extract_lets +onlyGivenNames x; apply thenHave (p := P x); (unfold x; clear x); rotate_left 1; (intro hx; clear_value x))
    | (extract_lets +onlyGivenNames x; clear_value x)
    | refine ite_closed ?_ ?_
    | split

theorem tickException_get {s : State} {k : Nat} {pc : Int} {e : Exc} {fld0 : Fld} {i0 j0 : Nat} (hK : Foot.tickException
    (notFld fld0) = true)  : (tickException s k pc e).get fld0 i0 j0 = s.get fld0 i0 j0 :=
  tickException_closed (P := fun x => x.get fld0 i0 j0 = s.get fld0 i0 j0) (field_closed fld0 i0 j0 _) hK  rfl

def Foot.enterException (K : Part → Bool) : Bool := Foot.mcException K && (Foot.tickException K)

theorem enterException_closed {K : Part → Bool} {P : State → Prop} {s : State} {k : Nat} {pc : Int} {e : Exc} (hP : Closed K
    P) (hK : Foot.enterException K = true) (hs_s : P s) :
    P (enterException s k pc e) := by
  simp only [Foot.enterException, Bool.and_eq_true] at hK
  obtain ⟨hK0, hK1⟩ := hK
  unfold enterException
  with_reducible repeat' first
    | assumption
    | refine mcException_closed hP ?_ ?_
    | refine tickException_closed hP ?_ ?_
    | refine ite_closed ?_ ?_
    | split

theorem enterException_get {s : State} {k : Nat} {pc : Int} {e : Exc} {fld0 : Fld} {i0 j0 : Nat} (hK : Foot.enterException
    (notFld fld0) = true)  : (enterException s k pc e).get fld0 i0 j0 = s.get fld0 i0 j0 :=
  enterException_closed (P := fun x => x.get fld0 i0 j0 = s.get fld0 i0 j0) (field_closed fld0 i0 j0 _) hK  rfl

def Foot.takeTrap (K : Part → Bool) : Bool := K .traps && (Foot.enterException K)

theorem takeTrap_closed {K : Part → Bool} {P : State → Prop} {s : State} {k : Nat} {t : CoreTrap} (hP : Closed K P) (hK :
    Foot.takeTrap K = true) (hs_s : P s) :
    P (takeTrap s k t) := by
  simp only [Foot.takeTrap, Bool.and_eq_true] at hK
  obtain ⟨hK0, hK1⟩ := hK
  unfold takeTrap
  with_reducible repeat' first
    | assumption
    | refine enterException_closed hP ?_ ?_
    | intro _
    | refine hP.remake _ _ _ _ _ _ _ _ _ _ _ _ _ _ _ _ _ _ _ _ _ _ _ (hs := ?_); first | assumption | (with_reducible refine enterException_closed hP ?_ ?_)
    | refine ite_closed ?_ ?_
    | split

theorem takeTrap_get {s : State} {k : Nat} {t : CoreTrap} {fld0 : Fld} {i0 j0 : Nat} (hK : Foot.takeTrap (notFld fld0) =
    true)  : (takeTrap s k t).get fld0 i0 j0 = s.get fld0 i0 j0 :=
  takeTrap_closed (P := fun x => x.get fld0 i0 j0 = s.get fld0 i0 j0) (field_closed fld0 i0 j0 _) hK  rfl

def Foot.afterTraps (K : Part → Bool) : Bool := Foot.retireAll K && (Foot.takeTrap K)

theorem afterTraps_closed {K : Part → Bool} {P : State → Prop} {s : State} {k : Nat} {enter : State → State} (hP : Closed K
    P) (hK : Foot.afterTraps K = true) (h_enter : ∀ x0, P x0 → P (enter x0)) (hs_s : P s) :
    P (afterTraps s k enter) := by
  simp only [Foot.afterTraps, Bool.and_eq_true] at hK
  obtain ⟨hK0, hK1⟩ := hK
  unfold afterTraps
  with_reducible repeat' first
    | assumption
    | apply h_enter
    | refine retireAll_closed hP ?_ ?_
    | refine takeTrap_closed hP ?_ ?_
    | (extract_lets +onlyGivenNames x; apply thenHave (p := P x); (unfold x; clear x); rotate_left 1; (intro hx; clear_value x))
    | (extract_lets +onlyGivenNames x; clear_value x)
    | split

def Foot.takePending (K : Part → Bool) : Bool := Foot.afterTraps K

theorem takePending_closed {K : Part → Bool} {P : State → Prop} {s : State} {k : Nat} (hP : Closed K P) (hK :
    Foot.takePending K = true) (hs_s : P s) :
    P (takePending s k) := by
  simp only [Foot.takePending, Bool.and_eq_true] at hK
  unfold takePending
  with_reducible repeat' first
    | assumption
    | refine afterTraps_closed hP ?_ ?_ ?_
    | (dsimp only [id])
    | intro _
    | (extract_lets +onlyGivenNames x; apply thenHave (p := P x); (unfold x; clear x); rotate_left 1; (intro hx; clear_value x))
    | (extract_lets +onlyGivenNames x; clear_value x)
    | (extract_lets +onlyGivenNames x)
    | refine ite_closed ?_ ?_
    | split

theorem takePending_get {s : State} {k : Nat} {fld0 : Fld} {i0 j0 : Nat} (hK : Foot.takePending (notFld fld0) = true)  :
    (takePending s k).get fld0 i0 j0 = s.get fld0 i0 j0 :=
  takePending_closed (P := fun x => x.get fld0 i0 j0 = s.get fld0 i0 j0) (field_closed fld0 i0 j0 _) hK  rfl

def Foot.takeException (K : Part → Bool) : Bool := Foot.afterTraps K && (Foot.enterException K)

theorem takeException_closed {K : Part → Bool} {P : State → Prop} {s : State} {k : Nat} {pc : Int} {e : Exc} (hP : Closed K
    P) (hK : Foot.takeException K = true) (hs_s : P s) :
    P (takeException s k pc e) := by
  simp only [Foot.takeException, Bool.and_eq_true] at hK
  obtain ⟨hK0, hK1⟩ := hK
  unfold takeException
  with_reducible repeat' first
    | assumption
    | refine afterTraps_closed hP ?_ ?_ ?_
    | refine enterException_closed hP ?_ ?_
    | intro _

theorem takeException_get {s : State} {k : Nat} {pc : Int} {e : Exc} {fld0 : Fld} {i0 j0 : Nat} (hK : Foot.takeException
    (notFld fld0) = true)  : (takeException s k pc e).get fld0 i0 j0 = s.get fld0 i0 j0 :=
  takeException_closed (P := fun x => x.get fld0 i0 j0 = s.get fld0 i0 j0) (field_closed fld0 i0 j0 _) hK  rfl

def Foot.spanCheck (K : Part → Bool) : Bool := Foot.translate K

theorem spanCheck_closed {K : Part → Bool} {P : State → Prop} {s : State} {sup : Bool} {va : Int} {wr : Bool} (hP : Closed K
    P) (hK : Foot.spanCheck K = true) (hs_s : P s) :
    P (spanCheck s sup va wr).2 := by
  simp only [Foot.spanCheck, Bool.and_eq_true] at hK
  unfold spanCheck
  with_reducible repeat' first
    | assumption
    | refine translate_closed hP ?_ ?_
    | (dsimp -zeta only)
    | refine of_snd (by assumption) ?_
    | refine of_fst (by assumption) ?_
    | refine of_mid (by assumption) ?_
    | refine of_trd (by assumption) ?_
    | refine of_fth (by assumption) ?_
    | intro _
    | (extract_lets +onlyGivenNames x; apply thenHave (p := P x); (unfold x; clear x); rotate_left 1; (intro hx; clear_value x))
    | (extract_lets +onlyGivenNames x; apply thenHave (p := P x.2); (unfold x; clear x); rotate_left 1; (intro hx; clear_value x))
    | (extract_lets +onlyGivenNames x; apply thenHave (p := P x.1); (unfold x; clear x); rotate_left 1; (intro hx; clear_value x))
    | (extract_lets +onlyGivenNames x; apply thenHave (p := P x.2.1); (unfold x; clear x); rotate_left 1; (intro hx; clear_value x))
    | (extract_lets +onlyGivenNames x; apply thenHave (p := P x.2.2); (unfold x; clear x); rotate_left 1; (intro hx; clear_value x))
    | (extract_lets +onlyGivenNames x; clear_value x)
    | (extract_lets +onlyGivenNames x)
    | refine ite_closed ?_ ?_
    | split

def Foot.argCheck (K : Part → Bool) : Bool := Foot.spanCheck K

theorem argCheck_closed {K : Part → Bool} {P : State → Prop} {s : State} {sup : Bool} {g : Nat} {i : Nat} {kind : Int} {wr :
    Bool} {p0 : Int} {p1 : Int} {v : List Int} (hP : Closed K P) (hK : Foot.argCheck K = true) (hs_s : P s) :
    P (argCheck s sup g i kind wr p0 p1 v).2 := by
  simp only [Foot.argCheck, Bool.and_eq_true] at hK
  unfold argCheck
  with_reducible repeat' first
    | assumption
    | refine spanCheck_closed hP ?_ ?_
    | (dsimp -zeta only)
    | refine of_snd (by assumption) ?_
    | refine of_fst (by assumption) ?_
    | refine of_mid (by assumption) ?_
    | refine of_trd (by assumption) ?_
    | refine of_fth (by assumption) ?_
    | intro _
    | (extract_lets +onlyGivenNames x; apply thenHave (p := P x); (unfold x; clear x); rotate_left 1; (intro hx; clear_value x))
    | (extract_lets +onlyGivenNames x; apply thenHave (p := P x.2); (unfold x; clear x); rotate_left 1; (intro hx; clear_value x))
    | (extract_lets +onlyGivenNames x; apply thenHave (p := P x.1); (unfold x; clear x); rotate_left 1; (intro hx; clear_value x))
    | (extract_lets +onlyGivenNames x; apply thenHave (p := P x.2.1); (unfold x; clear x); rotate_left 1; (intro hx; clear_value x))
    | (extract_lets +onlyGivenNames x; apply thenHave (p := P x.2.2); (unfold x; clear x); rotate_left 1; (intro hx; clear_value x))
    | (extract_lets +onlyGivenNames x; clear_value x)
    | (extract_lets +onlyGivenNames x)
    | refine ite_closed ?_ ?_
    | split

def Foot.enterInterrupt (K : Part → Bool) : Bool := Foot.mcEnter K && (Foot.vectorCycle K && (Foot.tickEnter K))

theorem enterInterrupt_closed {K : Part → Bool} {P : State → Prop} {s : State} {k : Nat} (hP : Closed K P) (hK :
    Foot.enterInterrupt K = true) (hs_s : P s) :
    P (enterInterrupt s k) := by
  simp only [Foot.enterInterrupt, Bool.and_eq_true] at hK
  obtain ⟨hK0, hK1, hK2⟩ := hK
  unfold enterInterrupt
  with_reducible repeat' first
    | assumption
    | refine mcEnter_closed hP ?_ ?_ ?_
    | refine vectorCycle_closed hP ?_ ?_
    | refine tickEnter_closed hP ?_ ?_
    | intro _
    | (extract_lets +onlyGivenNames x; apply thenHave (p := P x); (unfold x; clear x); rotate_left 1; (intro hx; clear_value x))
    | (extract_lets +onlyGivenNames x; clear_value x)
    | refine ite_closed ?_ ?_
    | split

theorem enterInterrupt_get {s : State} {k : Nat} {fld0 : Fld} {i0 j0 : Nat} (hK : Foot.enterInterrupt (notFld fld0) = true) 
    : (enterInterrupt s k).get fld0 i0 j0 = s.get fld0 i0 j0 :=
  enterInterrupt_closed (P := fun x => x.get fld0 i0 j0 = s.get fld0 i0 j0) (field_closed fld0 i0 j0 _) hK  rfl

def Foot.interruptEntry (K : Part → Bool) : Bool := Foot.afterTraps K && (Foot.enterInterrupt K)

theorem interruptEntry_closed {K : Part → Bool} {P : State → Prop} {s : State} {k : Nat} (hP : Closed K P) (hK :
    Foot.interruptEntry K = true) (hs_s : P s) :
    P (interruptEntry s k) := by
  simp only [Foot.interruptEntry, Bool.and_eq_true] at hK
  obtain ⟨hK0, hK1⟩ := hK
  unfold interruptEntry
  with_reducible repeat' first
    | assumption
    | refine afterTraps_closed hP ?_ ?_ ?_
    | refine enterInterrupt_closed hP ?_ ?_
    | intro _
    | refine ite_closed ?_ ?_
    | split

theorem interruptEntry_get {s : State} {k : Nat} {fld0 : Fld} {i0 j0 : Nat} (hK : Foot.interruptEntry (notFld fld0) = true) 
    : (interruptEntry s k).get fld0 i0 j0 = s.get fld0 i0 j0 :=
  interruptEntry_closed (P := fun x => x.get fld0 i0 j0 = s.get fld0 i0 j0) (field_closed fld0 i0 j0 _) hK  rfl

def Foot.gateDescriptor (K : Part → Bool) : Bool := Foot.loadWord K

theorem gateDescriptor_closed {K : Part → Bool} {P : State → Prop} {s : State} {g : Nat} (hP : Closed K P) (hK :
    Foot.gateDescriptor K = true) (hs_s : P s) :
    P (gateDescriptor s g).2 := by
  simp only [Foot.gateDescriptor, Bool.and_eq_true] at hK
  unfold gateDescriptor
  with_reducible repeat' first
    | assumption
    | refine loadWord_closed hP ?_ ?_
    | (dsimp -zeta only)
    | refine of_snd (by assumption) ?_
    | refine of_fst (by assumption) ?_
    | refine of_mid (by assumption) ?_
    | refine of_trd (by assumption) ?_
    | refine of_fth (by assumption) ?_
    | refine foldl_snd ?_ ?_
    | refine foldl_trd ?_ ?_
    | refine foldl_fst ?_ ?_
    | refine foldl_all ?_ ?_
    | intro _
    | (extract_lets +onlyGivenNames x; apply thenHave (p := P x); (unfold x; clear x); rotate_left 1; (intro hx; clear_value x))
    | (extract_lets +onlyGivenNames x; apply thenHave (p := P x.2); (unfold x; clear x); rotate_left 1; (intro hx; clear_value x))
    | (extract_lets +onlyGivenNames x; apply thenHave (p := P x.1); (unfold x; clear x); rotate_left 1; (intro hx; clear_value x))
    | (extract_lets +onlyGivenNames x; apply thenHave (p := P x.2.1); (unfold x; clear x); rotate_left 1; (intro hx; clear_value x))
    | (extract_lets +onlyGivenNames x; apply thenHave (p := P x.2.2); (unfold x; clear x); rotate_left 1; (intro hx; clear_value x))
    | (extract_lets +onlyGivenNames x; clear_value x)
    | (extract_lets +onlyGivenNames x)
    | refine ite_closed ?_ ?_
    | split

def Foot.gateArgs (K : Part → Bool) : Bool := Foot.load K && (Foot.argCheck K)

theorem gateArgs_closed {K : Part → Bool} {P : State → Prop} {s : State} {sup : Bool} {g : Nat} {d : List Int} (hP : Closed K
    P) (hK : Foot.gateArgs K = true) (hs_s : P s) :
    P (gateArgs s sup g d).2 := by
  simp only [Foot.gateArgs, Bool.and_eq_true] at hK
  obtain ⟨hK0, hK1⟩ := hK
  unfold gateArgs
  with_reducible repeat' first
    | assumption
    | refine load_closed hP ?_ ?_
    | refine argCheck_closed hP ?_ ?_
    | (dsimp -zeta only)
    | refine of_snd (by assumption) ?_
    | refine of_fst (by assumption) ?_
    | refine of_mid (by assumption) ?_
    | refine of_trd (by assumption) ?_
    | refine of_fth (by assumption) ?_
    | refine foldl_snd ?_ ?_
    | refine foldl_trd ?_ ?_
    | refine foldl_fst ?_ ?_
    | refine foldl_all ?_ ?_
    | intro _
    | (extract_lets +onlyGivenNames x; apply thenHave (p := P x); (unfold x; clear x); rotate_left 1; (intro hx; clear_value x))
    | (extract_lets +onlyGivenNames x; apply thenHave (p := P x.2); (unfold x; clear x); rotate_left 1; (intro hx; clear_value x))
    | (extract_lets +onlyGivenNames x; apply thenHave (p := P x.1); (unfold x; clear x); rotate_left 1; (intro hx; clear_value x))
    | (extract_lets +onlyGivenNames x; apply thenHave (p := P x.2.1); (unfold x; clear x); rotate_left 1; (intro hx; clear_value x))
    | (extract_lets +onlyGivenNames x; apply thenHave (p := P x.2.2); (unfold x; clear x); rotate_left 1; (intro hx; clear_value x))
    | (extract_lets +onlyGivenNames x; clear_value x)
    | (extract_lets +onlyGivenNames x)
    | refine ite_closed ?_ ?_
    | split

def Foot.gateFrame (K : Part → Bool) : Bool := Foot.store K

theorem gateFrame_closed {K : Part → Bool} {P : State → Prop} {s : State} {sp : Int} {w : List Int} (hP : Closed K P) (hK :
    Foot.gateFrame K = true) (hs_s : P s) :
    ExcAll P (gateFrame s sp w) := by
  unfold gateFrame
  refine foldl_exc ?_ (ExcAll.ok hs_s hs_s)
  intro b i hb
  have hk : Foot.store K = true := hK
  obtain ⟨x, s0⟩ := b
  cases x with
  | error e => exact ExcAll.err hb.2
  | ok t =>
    dsimp only
    have h := store_closed (k := 5) (sup := true) (va := a24 (sp + 2 * i)) (vals := [w.getD (2 * i) 0, w.getD (2 * i + 1) 0])
      (frame := false) hP hk (hb.1 t rfl)
    split
    · exact ExcAll.ok (of_ok (by assumption) h) hb.2
    · exact ExcAll.err hb.2

def Foot.gateCall (K : Part → Bool) : Bool := K (.fld .XC_STATUS_DEPTH) && (K (.fld .recPriv) && (K (.fld .recKind) && (K
    (.fld .recClaim) && (K (.fld .recMc) && (K (.fld .recRm) && (K (.fld .swPriv) && (Foot.advance K && (Foot.gateDescriptor
    K && (Foot.gateArgs K && (Foot.mcReset K && (Foot.gateFrame K && (Foot.leaveBody K && (Foot.setPc K && (Foot.setSupSp
    K))))))))))))))

theorem gateCall_closed {K : Part → Bool} {P : State → Prop} {s : State} {g : Nat} (hP : Closed K P) (hK : Foot.gateCall K =
    true) (hs_s : P s) :
    P (gateCall s g).st := by
  simp only [Foot.gateCall, Bool.and_eq_true] at hK
  obtain ⟨hK0, hK1, hK2, hK3, hK4, hK5, hK6, hK7, hK8, hK9, hK10, hK11, hK12, hK13, hK14⟩ := hK
  unfold gateCall
  with_reducible repeat' first
    | assumption
    | refine advance_closed hP ?_ ?_
    | refine gateDescriptor_closed hP ?_ ?_
    | refine gateArgs_closed hP ?_ ?_
    | refine mcReset_closed hP ?_ ?_
    | refine gateFrame_closed hP ?_ ?_
    | refine leaveBody_closed hP ?_ ?_
    | refine setPc_closed hP ?_ ?_
    | refine setSupSp_closed hP ?_ ?_
    | refine hP.put _ _ _ _ _ ?_ ?_
    | refine hP.clear ?_ ?_
    | refine hP.raise ?_ ?_
    | refine hP.bump ?_ ?_
    | refine hP.setBits ?_ ?_
    | refine hP.clrBits ?_ ?_
    | refine res_done ?_
    | refine res_stay ?_
    | refine res_jump ?_
    | refine res_fault ?_
    | (dsimp -zeta only)
    | refine of_snd (by assumption) ?_
    | refine of_fst (by assumption) ?_
    | refine of_mid (by assumption) ?_
    | refine of_trd (by assumption) ?_
    | refine of_fth (by assumption) ?_
    | refine of_done (by assumption) ?_
    | refine of_stay (by assumption) ?_
    | refine of_jump (by assumption) ?_
    | refine of_fault (by assumption) ?_
    | refine ExcAll.snd ?_
    | refine ExcAll.ok ?_ ?_
    | refine ExcAll.err ?_
    | refine of_ok (by assumption) ?_
    | refine of_okSnd (by assumption) ?_
    | refine of_err (by assumption) ?_
    | intro _
    | (extract_lets +onlyGivenNames x; apply thenHave (p := P x); (unfold x; clear x); rotate_left 1; (intro hx; clear_value x))
    | (extract_lets +onlyGivenNames x; apply thenHave (p := P x.st); (unfold x; clear x); rotate_left 1; (intro hx; clear_value x))
    | (extract_lets +onlyGivenNames x; apply thenHave (p := P x.2); (unfold x; clear x); rotate_left 1; (intro hx; clear_value x))
    | (extract_lets +onlyGivenNames x; apply thenHave (p := P x.1); (unfold x; clear x); rotate_left 1; (intro hx; clear_value x))
    | (extract_lets +onlyGivenNames x; apply thenHave (p := P x.2.1); (unfold x; clear x); rotate_left 1; (intro hx; clear_value x))
    | (extract_lets +onlyGivenNames x; apply thenHave (p := P x.2.2); (unfold x; clear x); rotate_left 1; (intro hx; clear_value x))
    | (extract_lets +onlyGivenNames x; clear_value x)
    | (extract_lets +onlyGivenNames x)
    | refine ite_closed ?_ ?_
    | refine res_ite ?_ ?_
    | split

def Foot.popRecord (K : Part → Bool) : Bool := K (.fld .XC_STATUS_RM) && (K (.fld .XC_STATUS_MCIP) && (K (.fld .recClaim) &&
    (K (.fld .recMc) && (K (.fld .recRm) && (K (.fld .XC_STATUS_DEPTH))))))

theorem popRecord_closed {K : Part → Bool} {P : State → Prop} {s : State} (hP : Closed K P) (hK : Foot.popRecord K = true)
    (hs_s : P s) :
    P (popRecord s) := by
  simp only [Foot.popRecord, Bool.and_eq_true] at hK
  obtain ⟨hK0, hK1, hK2, hK3, hK4, hK5⟩ := hK
  unfold popRecord
  with_reducible repeat' first
    | assumption
    | refine hP.put _ _ _ _ _ ?_ ?_
    | refine hP.clear ?_ ?_
    | (extract_lets +onlyGivenNames x; apply thenHave (p := P x); (unfold x; clear x); rotate_left 1; (intro hx; clear_value x))
    | (extract_lets +onlyGivenNames x; clear_value x)
    | refine ite_closed ?_ ?_
    | split

theorem popRecord_get {s : State} {fld0 : Fld} {i0 j0 : Nat} (hK : Foot.popRecord (notFld fld0) = true)  : (popRecord s).get
    fld0 i0 j0 = s.get fld0 i0 j0 :=
  popRecord_closed (P := fun x => x.get fld0 i0 j0 = s.get fld0 i0 j0) (field_closed fld0 i0 j0 _) hK  rfl

def Foot.gateReturn (K : Part → Bool) : Bool := K (.fld .swIe) && (K (.fld .swPriv) && (Foot.load K && (Foot.setSupSp K &&
    (Foot.setPc K && (Foot.dropQueue K && (Foot.popRecord K))))))

theorem gateReturn_closed {K : Part → Bool} {P : State → Prop} {s : State} (hP : Closed K P) (hK : Foot.gateReturn K = true)
    (hs_s : P s) :
    P (gateReturn s).st := by
  simp only [Foot.gateReturn, Bool.and_eq_true] at hK
  obtain ⟨hK0, hK1, hK2, hK3, hK4, hK5, hK6⟩ := hK
  unfold gateReturn
  with_reducible repeat' first
    | assumption
    | refine load_closed hP ?_ ?_
    | refine setSupSp_closed hP ?_ ?_
    | refine setPc_closed hP ?_ ?_
    | refine dropQueue_closed hP ?_ ?_
    | refine popRecord_closed hP ?_ ?_
    | refine hP.put _ _ _ _ _ ?_ ?_
    | refine hP.clear ?_ ?_
    | refine hP.raise ?_ ?_
    | refine hP.bump ?_ ?_
    | refine hP.setBits ?_ ?_
    | refine hP.clrBits ?_ ?_
    | refine res_done ?_
    | refine res_stay ?_
    | refine res_jump ?_
    | refine res_fault ?_
    | (dsimp -zeta only)
    | refine of_snd (by assumption) ?_
    | refine of_fst (by assumption) ?_
    | refine of_mid (by assumption) ?_
    | refine of_trd (by assumption) ?_
    | refine of_fth (by assumption) ?_
    | refine of_done (by assumption) ?_
    | refine of_stay (by assumption) ?_
    | refine of_jump (by assumption) ?_
    | refine of_fault (by assumption) ?_
    | intro _
    | (extract_lets +onlyGivenNames x; apply thenHave (p := P x); (unfold x; clear x); rotate_left 1; (intro hx; clear_value x))
    | (extract_lets +onlyGivenNames x; apply thenHave (p := P x.st); (unfold x; clear x); rotate_left 1; (intro hx; clear_value x))
    | (extract_lets +onlyGivenNames x; apply thenHave (p := P x.2); (unfold x; clear x); rotate_left 1; (intro hx; clear_value x))
    | (extract_lets +onlyGivenNames x; apply thenHave (p := P x.1); (unfold x; clear x); rotate_left 1; (intro hx; clear_value x))
    | (extract_lets +onlyGivenNames x; apply thenHave (p := P x.2.1); (unfold x; clear x); rotate_left 1; (intro hx; clear_value x))
    | (extract_lets +onlyGivenNames x; apply thenHave (p := P x.2.2); (unfold x; clear x); rotate_left 1; (intro hx; clear_value x))
    | (extract_lets +onlyGivenNames x; clear_value x)
    | (extract_lets +onlyGivenNames x)
    | refine ite_closed ?_ ?_
    | refine res_ite ?_ ?_
    | split

def Foot.rewriteFails (K : Part → Bool) : Bool := Foot.reachAll K && (Foot.storeRefused K)

theorem rewriteFails_closed {K : Part → Bool} {P : State → Prop} {s : State} {va : Int} (hP : Closed K P) (hK :
    Foot.rewriteFails K = true) (hs_s : P s) :
    P (rewriteFails s va).2 := by
  simp only [Foot.rewriteFails, Bool.and_eq_true] at hK
  obtain ⟨hK0, hK1⟩ := hK
  unfold rewriteFails
  with_reducible repeat' first
    | assumption
    | refine reachAll_closed hP ?_ ?_
    | refine storeRefused_closed hP ?_ ?_
    | (dsimp -zeta only)
    | refine of_snd (by assumption) ?_
    | refine of_fst (by assumption) ?_
    | refine of_mid (by assumption) ?_
    | refine of_trd (by assumption) ?_
    | refine of_fth (by assumption) ?_
    | intro _
    | (extract_lets +onlyGivenNames x; apply thenHave (p := P x); (unfold x; clear x); rotate_left 1; (intro hx; clear_value x))
    | (extract_lets +onlyGivenNames x; apply thenHave (p := P x.2); (unfold x; clear x); rotate_left 1; (intro hx; clear_value x))
    | (extract_lets +onlyGivenNames x; apply thenHave (p := P x.1); (unfold x; clear x); rotate_left 1; (intro hx; clear_value x))
    | (extract_lets +onlyGivenNames x; apply thenHave (p := P x.2.1); (unfold x; clear x); rotate_left 1; (intro hx; clear_value x))
    | (extract_lets +onlyGivenNames x; apply thenHave (p := P x.2.2); (unfold x; clear x); rotate_left 1; (intro hx; clear_value x))
    | (extract_lets +onlyGivenNames x; clear_value x)
    | (extract_lets +onlyGivenNames x)
    | refine ite_closed ?_ ?_
    | split

def Foot.mcExit (K : Part → Bool) : Bool := K (.fld .XC_STATUS_RM) && (K (.fld .recRm) && (K (.fld .recClaim) && (K (.fld
    .swPriv) && (Foot.rewriteFails K && (Foot.machineCheck K && (Foot.vectorCycle K && (Foot.frameStore K &&
    (Foot.leaveContext K))))))))

theorem mcExit_closed {K : Part → Bool} {P : State → Prop} {s : State} (hP : Closed K P) (hK : Foot.mcExit K = true) (hs_s :
    P s) :
    P (mcExit s) := by
  simp only [Foot.mcExit, Bool.and_eq_true] at hK
  obtain ⟨hK0, hK1, hK2, hK3, hK4, hK5, hK6, hK7, hK8⟩ := hK
  unfold mcExit
  with_reducible repeat' first
    | assumption
    | refine rewriteFails_closed hP ?_ ?_
    | refine machineCheck_closed hP ?_ ?_
    | refine vectorCycle_closed hP ?_ ?_
    | refine frameStore_closed hP ?_ ?_
    | refine leaveContext_closed hP ?_ ?_
    | refine hP.put _ _ _ _ _ ?_ ?_
    | refine hP.clear ?_ ?_
    | refine hP.raise ?_ ?_
    | refine hP.bump ?_ ?_
    | refine hP.setBits ?_ ?_
    | refine hP.clrBits ?_ ?_
    | (dsimp -zeta only)
    | refine of_snd (by assumption) ?_
    | refine of_fst (by assumption) ?_
    | refine of_mid (by assumption) ?_
    | refine of_trd (by assumption) ?_
    | refine of_fth (by assumption) ?_
    | intro _
    | (extract_lets +onlyGivenNames x; apply thenHave (p := P x); (unfold x; clear x); rotate_left 1; (intro hx; clear_value x))
    | (extract_lets +onlyGivenNames x; apply thenHave (p := P x.2); (unfold x; clear x); rotate_left 1; (intro hx; clear_value x))
    | (extract_lets +onlyGivenNames x; apply thenHave (p := P x.1); (unfold x; clear x); rotate_left 1; (intro hx; clear_value x))
    | (extract_lets +onlyGivenNames x; apply thenHave (p := P x.2.1); (unfold x; clear x); rotate_left 1; (intro hx; clear_value x))
    | (extract_lets +onlyGivenNames x; apply thenHave (p := P x.2.2); (unfold x; clear x); rotate_left 1; (intro hx; clear_value x))
    | (extract_lets +onlyGivenNames x; clear_value x)
    | (extract_lets +onlyGivenNames x)
    | refine ite_closed ?_ ?_
    | split

theorem mcExit_get {s : State} {fld0 : Fld} {i0 j0 : Nat} (hK : Foot.mcExit (notFld fld0) = true)  : (mcExit s).get fld0 i0
    j0 = s.get fld0 i0 j0 :=
  mcExit_closed (P := fun x => x.get fld0 i0 j0 = s.get fld0 i0 j0) (field_closed fld0 i0 j0 _) hK  rfl

def Foot.restoreFrame (K : Part → Bool) : Bool := K (.fld .repCnt) && (K (.fld .loopOn) && (K (.fld .repOn) && (K (.fld
    .loopEnd) && (K (.fld .loopStart) && (K (.fld .loopCnt) && (Foot.restoreSw K && (Foot.setPc K && (Foot.dropQueue K &&
    (Foot.dropLoopBuffer K && (Foot.setSupSp K))))))))))

theorem restoreFrame_closed {K : Part → Bool} {P : State → Prop} {s : State} {w : List Int} (hP : Closed K P) (hK :
    Foot.restoreFrame K = true) (hs_s : P s) :
    P (restoreFrame s w) := by
  simp only [Foot.restoreFrame, Bool.and_eq_true] at hK
  obtain ⟨hK0, hK1, hK2, hK3, hK4, hK5, hK6, hK7, hK8, hK9, hK10⟩ := hK
  unfold restoreFrame
  with_reducible repeat' first
    | assumption
    | refine restoreSw_closed hP ?_ ?_
    | refine setPc_closed hP ?_ ?_
    | refine dropQueue_closed hP ?_ ?_
    | refine dropLoopBuffer_closed hP ?_ ?_
    | refine setSupSp_closed hP ?_ ?_
    | refine hP.put _ _ _ _ _ ?_ ?_
    | intro _
    | (extract_lets +onlyGivenNames x; apply thenHave (p := P x); (unfold x; clear x); rotate_left 1; (intro hx; clear_value x))
    | (extract_lets +onlyGivenNames x; clear_value x)

theorem restoreFrame_get {s : State} {w : List Int} {fld0 : Fld} {i0 j0 : Nat} (hK : Foot.restoreFrame (notFld fld0) = true) 
    : (restoreFrame s w).get fld0 i0 j0 = s.get fld0 i0 j0 :=
  restoreFrame_closed (P := fun x => x.get fld0 i0 j0 = s.get fld0 i0 j0) (field_closed fld0 i0 j0 _) hK  rfl

def Foot.mcReti (K : Part → Bool) : Bool := K (.fld .recClaim) && (Foot.load K && (Foot.endService K && (Foot.mcExit K &&
    (Foot.popRecord K && (Foot.restoreFrame K)))))

theorem mcReti_closed {K : Part → Bool} {P : State → Prop} {s : State} (hP : Closed K P) (hK : Foot.mcReti K = true) (hs_s :
    P s) :
    P (mcReti s).st := by
  simp only [Foot.mcReti, Bool.and_eq_true] at hK
  obtain ⟨hK0, hK1, hK2, hK3, hK4, hK5⟩ := hK
  unfold mcReti
  with_reducible repeat' first
    | assumption
    | refine load_closed hP ?_ ?_
    | refine endService_closed hP ?_ ?_
    | refine mcExit_closed hP ?_ ?_
    | refine popRecord_closed hP ?_ ?_
    | refine restoreFrame_closed hP ?_ ?_
    | refine hP.put _ _ _ _ _ ?_ ?_
    | refine hP.clear ?_ ?_
    | refine hP.raise ?_ ?_
    | refine hP.bump ?_ ?_
    | refine hP.setBits ?_ ?_
    | refine hP.clrBits ?_ ?_
    | refine res_done ?_
    | refine res_stay ?_
    | refine res_jump ?_
    | refine res_fault ?_
    | (dsimp -zeta only)
    | refine of_snd (by assumption) ?_
    | refine of_fst (by assumption) ?_
    | refine of_mid (by assumption) ?_
    | refine of_trd (by assumption) ?_
    | refine of_fth (by assumption) ?_
    | refine of_done (by assumption) ?_
    | refine of_stay (by assumption) ?_
    | refine of_jump (by assumption) ?_
    | refine of_fault (by assumption) ?_
    | intro _
    | (extract_lets +onlyGivenNames x; apply thenHave (p := P x); (unfold x; clear x); rotate_left 1; (intro hx; clear_value x))
    | (extract_lets +onlyGivenNames x; apply thenHave (p := P x.st); (unfold x; clear x); rotate_left 1; (intro hx; clear_value x))
    | (extract_lets +onlyGivenNames x; apply thenHave (p := P x.2); (unfold x; clear x); rotate_left 1; (intro hx; clear_value x))
    | (extract_lets +onlyGivenNames x; apply thenHave (p := P x.1); (unfold x; clear x); rotate_left 1; (intro hx; clear_value x))
    | (extract_lets +onlyGivenNames x; apply thenHave (p := P x.2.1); (unfold x; clear x); rotate_left 1; (intro hx; clear_value x))
    | (extract_lets +onlyGivenNames x; apply thenHave (p := P x.2.2); (unfold x; clear x); rotate_left 1; (intro hx; clear_value x))
    | (extract_lets +onlyGivenNames x; clear_value x)
    | (extract_lets +onlyGivenNames x)
    | refine ite_closed ?_ ?_
    | refine res_ite ?_ ?_
    | split

def Foot.tickReti (K : Part → Bool) : Bool := K (.fld .XC_XCAUSE) && (K (.fld .XC_STATUS_SB) && (K (.fld .loopOn) && (K (.fld
    .repOn) && (K (.fld .loopEnd) && (K (.fld .loopStart) && (Foot.endService K && (Foot.vectorCycle K && (Foot.leaveContext
    K && (Foot.restoreSw K && (Foot.setPc K && (Foot.dropQueue K && (Foot.dropLoopBuffer K))))))))))))

theorem tickReti_closed {K : Part → Bool} {P : State → Prop} {s : State} {k : Nat} (hP : Closed K P) (hK : Foot.tickReti K =
    true) (hs_s : P s) :
    P (tickReti s k).st := by
  simp only [Foot.tickReti, Bool.and_eq_true] at hK
  obtain ⟨hK0, hK1, hK2, hK3, hK4, hK5, hK6, hK7, hK8, hK9, hK10, hK11, hK12⟩ := hK
  unfold tickReti
  with_reducible repeat' first
    | assumption
    | refine endService_closed hP ?_ ?_
    | refine vectorCycle_closed hP ?_ ?_
    | refine leaveContext_closed hP ?_ ?_
    | refine restoreSw_closed hP ?_ ?_
    | refine setPc_closed hP ?_ ?_
    | refine dropQueue_closed hP ?_ ?_
    | refine dropLoopBuffer_closed hP ?_ ?_
    | refine hP.put _ _ _ _ _ ?_ ?_
    | refine res_jump ?_
    | refine res_fault ?_
    | (extract_lets +onlyGivenNames x; apply thenHave (p := P x); (unfold x; clear x); rotate_left 1; (intro hx; clear_value x))
    | (extract_lets +onlyGivenNames x; clear_value x)
    | refine ite_closed ?_ ?_
    | refine res_ite ?_ ?_
    | split

end Sys2Proof.Machine
end

