-- ==== Sys2Proof/Laws/ClosedCoreRun.lean ====
section
/-! SUPPORT. What the functions of Machine/CoreRun.lean can write, and that they keep every closed property (Laws/Closed.lean). -/
namespace Sys2Proof.Machine

set_option Elab.async false
set_option linter.all false

def Foot.ifOn (K : Part → Bool) : Bool := Foot.resetRegs K

theorem ifOn_closed {K : Part → Bool} {P : State → Prop} {s : State} {k : Nat} {f : State → State} (hP : Closed K P) (hK :
    Foot.ifOn K = true) (h_f : ∀ x0, P x0 → P (f x0)) (hs_s : P s) :
    P (ifOn s k f) := by
  simp only [Foot.ifOn, Bool.and_eq_true] at hK
  unfold ifOn
  with_reducible repeat' first
    | assumption
    | apply h_f
    | refine resetRegs_closed hP ?_ ?_
    | refine ite_closed ?_ ?_
    | refine res_ite ?_ ?_
    | split

def Foot.fetchPlace (K : Part → Bool) : Bool := Foot.translate K

theorem fetchPlace_closed {K : Part → Bool} {P : State → Prop} {s : State} {k : Nat} {va : Int} (hP : Closed K P) (hK :
    Foot.fetchPlace K = true) (hs_s : P s) :
    P (fetchPlace s k va).2 := by
  simp only [Foot.fetchPlace, Bool.and_eq_true] at hK
  unfold fetchPlace
  with_reducible repeat' first
    | assumption
    | refine translate_closed hP ?_ ?_
    | refine res_done ?_
    | refine res_stay ?_
    | refine res_jump ?_
    | refine res_fault ?_
    | (dsimp -zeta only)
    | refine of_snd (by assumption) ?_
    | refine of_fst (by assumption) ?_
    | refine of_mid (by assumption) ?_
    | refine of_trd (by assumption) ?_
    | refine of_fth (by assumption) ?_
    | refine of_done (by assumption) ?_
    | refine of_stay (by assumption) ?_
    | refine of_jump (by assumption) ?_
    | refine of_fault (by assumption) ?_
    | intro _
    | (extract_lets +onlyGivenNames x; apply thenHave (p := P x); (unfold x; clear x); rotate_left 1; (intro hx; clear_value x))
    | (extract_lets +onlyGivenNames x; apply thenHave (p := P x.st); (unfold x; clear x); rotate_left 1; (intro hx; clear_value x))
    | (extract_lets +onlyGivenNames x; apply thenHave (p := P x.2); (unfold x; clear x); rotate_left 1; (intro hx; clear_value x))
    | (extract_lets +onlyGivenNames x; apply thenHave (p := P x.1); (unfold x; clear x); rotate_left 1; (intro hx; clear_value x))
    | (extract_lets +onlyGivenNames x; apply thenHave (p := P x.2.1); (unfold x; clear x); rotate_left 1; (intro hx; clear_value x))
    | (extract_lets +onlyGivenNames x; apply thenHave (p := P x.2.2); (unfold x; clear x); rotate_left 1; (intro hx; clear_value x))
    | (extract_lets +onlyGivenNames x; clear_value x)
    | (extract_lets +onlyGivenNames x)
    | refine ite_closed ?_ ?_
    | refine res_ite ?_ ?_
    | split

def Foot.fetchView (K : Part → Bool) : Bool := Foot.memRead K

theorem fetchView_closed {K : Part → Bool} {P : State → Prop} {s : State} {k : Nat} {pa : Nat} (hP : Closed K P) (hK :
    Foot.fetchView K = true) (hs_s : P s) :
    P (fetchView s k pa).2 := by
  simp only [Foot.fetchView, Bool.and_eq_true] at hK
  unfold fetchView
  with_reducible repeat' first
    | assumption
    | refine memRead_closed hP ?_ ?_
    | split

def Foot.fetchEnd (K : Part → Bool) : Bool := true

theorem fetchEnd_closed {K : Part → Bool} {P : State → Prop} {s : State} {va : Int} {v : Option W16} (hP : Closed K P) (hK :
    Foot.fetchEnd K = true) (hs_s : P s) :
    P (fetchEnd s va v).2 := by
  unfold fetchEnd
  with_reducible repeat' first
    | assumption
    | split

def Foot.fetchNew (K : Part → Bool) : Bool := Foot.fetchPlace K && (Foot.lineHeld K && (Foot.fetchView K && (Foot.fetchEnd K
    && (Foot.fillLine K && (K (.fld .icOn) && (K (.fld .icWord)))))))

theorem fetchNew_closed {K : Part → Bool} {P : State → Prop} {s : State} {k : Nat} {va : Int} (hP : Closed K P) (hK :
    Foot.fetchNew K = true) (hs_s : P s) :
    P (fetchNew s k va).2 := by
  simp only [Foot.fetchNew, Bool.and_eq_true] at hK
  obtain ⟨hK0, hK1, hK2, hK3, hK4, hK5, hK6⟩ := hK
  unfold fetchNew
  with_reducible repeat' first
    | assumption
    | refine fetchPlace_closed hP ?_ ?_
    | refine lineHeld_closed hP ?_ ?_ ?_
    | refine fetchView_closed hP ?_ ?_
    | refine fetchEnd_closed hP ?_ ?_
    | refine fillLine_closed hP ?_ ?_ ?_ ?_
    | refine res_done ?_
    | refine res_stay ?_
    | refine res_jump ?_
    | refine res_fault ?_
    | (dsimp -zeta only)
    | refine of_snd (by assumption) ?_
    | refine of_fst (by assumption) ?_
    | refine of_mid (by assumption) ?_
    | refine of_trd (by assumption) ?_
    | refine of_fth (by assumption) ?_
    | refine of_done (by assumption) ?_
    | refine of_stay (by assumption) ?_
    | refine of_jump (by assumption) ?_
    | refine of_fault (by assumption) ?_
    | intro _
    | (extract_lets +onlyGivenNames x; apply thenHave (p := P x); (unfold x; clear x); rotate_left 1; (intro hx; clear_value x))
    | (extract_lets +onlyGivenNames x; apply thenHave (p := P x.st); (unfold x; clear x); rotate_left 1; (intro hx; clear_value x))
    | (extract_lets +onlyGivenNames x; apply thenHave (p := P x.2); (unfold x; clear x); rotate_left 1; (intro hx; clear_value x))
    | (extract_lets +onlyGivenNames x; apply thenHave (p := P x.1); (unfold x; clear x); rotate_left 1; (intro hx; clear_value x))
    | (extract_lets +onlyGivenNames x; apply thenHave (p := P x.2.1); (unfold x; clear x); rotate_left 1; (intro hx; clear_value x))
    | (extract_lets +onlyGivenNames x; apply thenHave (p := P x.2.2); (unfold x; clear x); rotate_left 1; (intro hx; clear_value x))
    | (extract_lets +onlyGivenNames x; clear_value x)
    | (extract_lets +onlyGivenNames x)
    | refine ite_closed ?_ ?_
    | refine res_ite ?_ ?_
    | split

def Foot.aheadWord (K : Part → Bool) : Bool := Foot.fetchNew K

theorem aheadWord_closed {K : Part → Bool} {P : State → Prop} {s : State} {k : Nat} {va : Int} (hP : Closed K P) (hK :
    Foot.aheadWord K = true) (hs_s : P s) :
    P (aheadWord s k va).2 := by
  simp only [Foot.aheadWord, Bool.and_eq_true] at hK
  unfold aheadWord
  with_reducible repeat' first
    | assumption
    | refine fetchNew_closed hP ?_ ?_
    | split

def Foot.fetchWord (K : Part → Bool) : Bool := Foot.aheadWord K

theorem fetchWord_closed {K : Part → Bool} {P : State → Prop} {s : State} {k : Nat} {va : Int} (hP : Closed K P) (hK :
    Foot.fetchWord K = true) (hs_s : P s) :
    P (fetchWord s k va).2 := by
  simp only [Foot.fetchWord, Bool.and_eq_true] at hK
  unfold fetchWord
  with_reducible repeat' first
    | assumption
    | refine aheadWord_closed hP ?_ ?_
    | refine res_done ?_
    | refine res_stay ?_
    | refine res_jump ?_
    | refine res_fault ?_
    | (dsimp -zeta only)
    | refine of_snd (by assumption) ?_
    | refine of_fst (by assumption) ?_
    | refine of_mid (by assumption) ?_
    | refine of_trd (by assumption) ?_
    | refine of_fth (by assumption) ?_
    | refine of_done (by assumption) ?_
    | refine of_stay (by assumption) ?_
    | refine of_jump (by assumption) ?_
    | refine of_fault (by assumption) ?_
    | intro _
    | (extract_lets +onlyGivenNames x; apply thenHave (p := P x); (unfold x; clear x); rotate_left 1; (intro hx; clear_value x))
    | (extract_lets +onlyGivenNames x; apply thenHave (p := P x.st); (unfold x; clear x); rotate_left 1; (intro hx; clear_value x))
    | (extract_lets +onlyGivenNames x; apply thenHave (p := P x.2); (unfold x; clear x); rotate_left 1; (intro hx; clear_value x))
    | (extract_lets +onlyGivenNames x; apply thenHave (p := P x.1); (unfold x; clear x); rotate_left 1; (intro hx; clear_value x))
    | (extract_lets +onlyGivenNames x; apply thenHave (p := P x.2.1); (unfold x; clear x); rotate_left 1; (intro hx; clear_value x))
    | (extract_lets +onlyGivenNames x; apply thenHave (p := P x.2.2); (unfold x; clear x); rotate_left 1; (intro hx; clear_value x))
    | (extract_lets +onlyGivenNames x; clear_value x)
    | (extract_lets +onlyGivenNames x)
    | refine ite_closed ?_ ?_
    | refine res_ite ?_ ?_
    | split

def Foot.captureWord (K : Part → Bool) : Bool := K (.fld .lbOn) && (K (.fld .lbWord))

theorem captureWord_closed {K : Part → Bool} {P : State → Prop} {s : State} {k : Nat} {va : Int} {v : Int} (hP : Closed K P)
    (hK : Foot.captureWord K = true) (hs_s : P s) :
    P (captureWord s k va v) := by
  simp only [Foot.captureWord, Bool.and_eq_true] at hK
  obtain ⟨hK0, hK1⟩ := hK
  unfold captureWord
  with_reducible repeat' first
    | assumption
    | refine hP.put _ _ _ _ _ ?_ ?_
    | refine hP.setBits ?_ ?_
    | (extract_lets +onlyGivenNames x; apply thenHave (p := P x); (unfold x; clear x); rotate_left 1; (intro hx; clear_value x))
    | (extract_lets +onlyGivenNames x; clear_value x)
    | refine ite_closed ?_ ?_
    | refine res_ite ?_ ?_
    | split

theorem captureWord_get {s : State} {k : Nat} {va : Int} {v : Int} {fld0 : Fld} {i0 j0 : Nat} (hK : Foot.captureWord (notFld
    fld0) = true)  : (captureWord s k va v).get fld0 i0 j0 = s.get fld0 i0 j0 :=
  captureWord_closed (P := fun x => x.get fld0 i0 j0 = s.get fld0 i0 j0) (field_closed fld0 i0 j0 _) hK  rfl

def Foot.fetchInstr (K : Part → Bool) : Bool := K (.fld .fetched) && (Foot.fetchWord K && (Foot.captureWord K))

theorem fetchInstr_closed {K : Part → Bool} {P : State → Prop} {s : State} {k : Nat} {len : Nat} (hP : Closed K P) (hK :
    Foot.fetchInstr K = true) (hs_s : P s) :
    P (fetchInstr s k len).2 := by
  simp only [Foot.fetchInstr, Bool.and_eq_true] at hK
  obtain ⟨hK0, hK1, hK2⟩ := hK
  unfold fetchInstr
  with_reducible repeat' first
    | assumption
    | refine fetchWord_closed hP ?_ ?_
    | refine captureWord_closed hP ?_ ?_
    | refine hP.put _ _ _ _ _ ?_ ?_
    | refine hP.clear ?_ ?_
    | refine hP.raise ?_ ?_
    | refine hP.bump ?_ ?_
    | refine hP.setBits ?_ ?_
    | refine hP.clrBits ?_ ?_
    | refine res_done ?_
    | refine res_stay ?_
    | refine res_jump ?_
    | refine res_fault ?_
    | (dsimp -zeta only)
    | refine of_snd (by assumption) ?_
    | refine of_fst (by assumption) ?_
    | refine of_mid (by assumption) ?_
    | refine of_trd (by assumption) ?_
    | refine of_fth (by assumption) ?_
    | refine foldl_snd ?_ ?_
    | refine foldl_trd ?_ ?_
    | refine foldl_fst ?_ ?_
    | refine foldl_all ?_ ?_
    | refine of_done (by assumption) ?_
    | refine of_stay (by assumption) ?_
    | refine of_jump (by assumption) ?_
    | refine of_fault (by assumption) ?_
    | intro _
    | (extract_lets +onlyGivenNames x; apply thenHave (p := P x); (unfold x; clear x); rotate_left 1; (intro hx; clear_value x))
    | (extract_lets +onlyGivenNames x; apply thenHave (p := P x.st); (unfold x; clear x); rotate_left 1; (intro hx; clear_value x))
    | (extract_lets +onlyGivenNames x; apply thenHave (p := P x.2); (unfold x; clear x); rotate_left 1; (intro hx; clear_value x))
    | (extract_lets +onlyGivenNames x; apply thenHave (p := P x.1); (unfold x; clear x); rotate_left 1; (intro hx; clear_value x))
    | (extract_lets +onlyGivenNames x; apply thenHave (p := P x.2.1); (unfold x; clear x); rotate_left 1; (intro hx; clear_value x))
    | (extract_lets +onlyGivenNames x; apply thenHave (p := P x.2.2); (unfold x; clear x); rotate_left 1; (intro hx; clear_value x))
    | (extract_lets +onlyGivenNames x; clear_value x)
    | (extract_lets +onlyGivenNames x)
    | refine ite_closed ?_ ?_
    | refine res_ite ?_ ?_
    | split

def Foot.fetchAhead (K : Part → Bool) : Bool := Foot.aheadWord K

theorem fetchAhead_closed {K : Part → Bool} {P : State → Prop} {s : State} {k : Nat} {va : Int} {y3 : Nat} {y4 : List Int}
    (hP : Closed K P) (hK : Foot.fetchAhead K = true) (hs_s : P s) :
    P (fetchAhead s k va y3 y4).2 := by
  have hK0 : Foot.aheadWord K = true := hK
  induction y3 generalizing s va y4 with
  | zero => exact hs_s
  | succ n ih =>
    unfold fetchAhead
    have h := aheadWord_closed (P := P) (k := k) (va := va) hP hK0 hs_s
    split
    · next heq => rw [heq] at h; exact ih h
    · exact hs_s

def Foot.fetch (K : Part → Bool) : Bool := K (.fld .fqWord) && (K (.fld .fqLen) && (K (.fld .fqBase) && (Foot.fetchInstr K &&
    (Foot.fetchAhead K))))

theorem fetch_closed {K : Part → Bool} {P : State → Prop} {s : State} {k : Nat} {len : Nat} (hP : Closed K P) (hK :
    Foot.fetch K = true) (hs_s : P s) :
    P (fetch s k len).2 := by
  simp only [Foot.fetch, Bool.and_eq_true] at hK
  obtain ⟨hK0, hK1, hK2, hK3, hK4⟩ := hK
  unfold fetch
  with_reducible repeat' first
    | assumption
    | refine fetchInstr_closed hP ?_ ?_
    | refine fetchAhead_closed hP ?_ ?_
    | refine hP.put _ _ _ _ _ ?_ ?_
    | refine hP.clear ?_ ?_
    | refine hP.raise ?_ ?_
    | refine hP.bump ?_ ?_
    | refine hP.setBits ?_ ?_
    | refine hP.clrBits ?_ ?_
    | refine Closed.each ?_ _ ?_
    | refine res_done ?_
    | refine res_stay ?_
    | refine res_jump ?_
    | refine res_fault ?_
    | (dsimp -zeta only)
    | refine of_snd (by assumption) ?_
    | refine of_fst (by assumption) ?_
    | refine of_mid (by assumption) ?_
    | refine of_trd (by assumption) ?_
    | refine of_fth (by assumption) ?_
    | refine of_done (by assumption) ?_
    | refine of_stay (by assumption) ?_
    | refine of_jump (by assumption) ?_
    | refine of_fault (by assumption) ?_
    | intro _
    | (extract_lets +onlyGivenNames x; apply thenHave (p := P x); (unfold x; clear x); rotate_left 1; (intro hx; clear_value x))
    | (extract_lets +onlyGivenNames x; apply thenHave (p := P x.st); (unfold x; clear x); rotate_left 1; (intro hx; clear_value x))
    | (extract_lets +onlyGivenNames x; apply thenHave (p := P x.2); (unfold x; clear x); rotate_left 1; (intro hx; clear_value x))
    | (extract_lets +onlyGivenNames x; apply thenHave (p := P x.1); (unfold x; clear x); rotate_left 1; (intro hx; clear_value x))
    | (extract_lets +onlyGivenNames x; apply thenHave (p := P x.2.1); (unfold x; clear x); rotate_left 1; (intro hx; clear_value x))
    | (extract_lets +onlyGivenNames x; apply thenHave (p := P x.2.2); (unfold x; clear x); rotate_left 1; (intro hx; clear_value x))
    | (extract_lets +onlyGivenNames x; clear_value x)
    | (extract_lets +onlyGivenNames x)
    | refine ite_closed ?_ ?_
    | refine res_ite ?_ ?_
    | split

def Foot.endInstr (K : Part → Bool) : Bool := K (.fld .repCnt) && (K (.fld .repOn) && (Foot.advance K))

theorem endInstr_closed {K : Part → Bool} {P : State → Prop} {s : State} {k : Nat} {len : Nat} (hP : Closed K P) (hK :
    Foot.endInstr K = true) (hs_s : P s) :
    P (endInstr s k len) := by
  simp only [Foot.endInstr, Bool.and_eq_true] at hK
  obtain ⟨hK0, hK1, hK2⟩ := hK
  unfold endInstr
  with_reducible repeat' first
    | assumption
    | refine advance_closed hP ?_ ?_
    | refine hP.put _ _ _ _ _ ?_ ?_
    | refine hP.clear ?_ ?_
    | (extract_lets +onlyGivenNames x; apply thenHave (p := P x); (unfold x; clear x); rotate_left 1; (intro hx; clear_value x))
    | (extract_lets +onlyGivenNames x; clear_value x)
    | refine ite_closed ?_ ?_
    | refine res_ite ?_ ?_
    | split

theorem endInstr_get {s : State} {k : Nat} {len : Nat} {fld0 : Fld} {i0 j0 : Nat} (hK : Foot.endInstr (notFld fld0) = true) 
    : (endInstr s k len).get fld0 i0 j0 = s.get fld0 i0 j0 :=
  endInstr_closed (P := fun x => x.get fld0 i0 j0 = s.get fld0 i0 j0) (field_closed fld0 i0 j0 _) hK  rfl

def Foot.execute (K : Part → Bool) : Bool := Foot.ifOn K && (Foot.endInstr K && (Foot.takeException K))

theorem execute_closed {K : Part → Bool} {P : State → Prop} {s : State} {k : Nat} {m : Form} {f : State → Res} (hP : Closed K
    P) (hK : Foot.execute K = true) (h_f : ∀ x0, P x0 → P (f x0).st) (hs_s : P s) :
    P (execute s k m f) := by
  simp only [Foot.execute, Bool.and_eq_true] at hK
  obtain ⟨hK0, hK1, hK2⟩ := hK
  unfold execute
  with_reducible repeat' first
    | assumption
    | apply h_f
    | refine ifOn_closed hP ?_ ?_ ?_
    | refine endInstr_closed hP ?_ ?_
    | refine takeException_closed hP ?_ ?_
    | (dsimp only [id])
    | refine res_done ?_
    | refine res_stay ?_
    | refine res_jump ?_
    | refine res_fault ?_
    | (dsimp -zeta only)
    | refine of_snd (by assumption) ?_
    | refine of_fst (by assumption) ?_
    | refine of_mid (by assumption) ?_
    | refine of_trd (by assumption) ?_
    | refine of_fth (by assumption) ?_
    | refine of_done (by assumption) ?_
    | refine of_stay (by assumption) ?_
    | refine of_jump (by assumption) ?_
    | refine of_fault (by assumption) ?_
    | intro _
    | (extract_lets +onlyGivenNames x; apply thenHave (p := P x); (unfold x; clear x); rotate_left 1; (intro hx; clear_value x))
    | (extract_lets +onlyGivenNames x; apply thenHave (p := P x.st); (unfold x; clear x); rotate_left 1; (intro hx; clear_value x))
    | (extract_lets +onlyGivenNames x; apply thenHave (p := P x.2); (unfold x; clear x); rotate_left 1; (intro hx; clear_value x))
    | (extract_lets +onlyGivenNames x; apply thenHave (p := P x.1); (unfold x; clear x); rotate_left 1; (intro hx; clear_value x))
    | (extract_lets +onlyGivenNames x; apply thenHave (p := P x.2.1); (unfold x; clear x); rotate_left 1; (intro hx; clear_value x))
    | (extract_lets +onlyGivenNames x; apply thenHave (p := P x.2.2); (unfold x; clear x); rotate_left 1; (intro hx; clear_value x))
    | (extract_lets +onlyGivenNames x; clear_value x)
    | (extract_lets +onlyGivenNames x)
    | refine ite_closed ?_ ?_
    | refine res_ite ?_ ?_
    | split

def Foot.decodeAndRun (K : Part → Bool) : Bool := K (.fld .repOn) && (Foot.fetch K && (Foot.takeException K && (Foot.execute
    K)))

theorem decodeAndRun_closed {K : Part → Bool} {P : State → Prop} {s : State} {k : Nat} {m : Form} {f : State → Res} (hP :
    Closed K P) (hK : Foot.decodeAndRun K = true) (h_f : ∀ x0, P x0 → P (f x0).st) (hs_s : P s) :
    P (decodeAndRun s k m f) := by
  simp only [Foot.decodeAndRun, Bool.and_eq_true] at hK
  obtain ⟨hK0, hK1, hK2, hK3⟩ := hK
  unfold decodeAndRun
  with_reducible repeat' first
    | assumption
    | apply h_f
    | refine fetch_closed hP ?_ ?_
    | refine takeException_closed hP ?_ ?_
    | refine execute_closed hP ?_ ?_ ?_
    | refine hP.put _ _ _ _ _ ?_ ?_
    | refine hP.clear ?_ ?_
    | refine hP.raise ?_ ?_
    | refine hP.bump ?_ ?_
    | refine hP.setBits ?_ ?_
    | refine hP.clrBits ?_ ?_
    | refine res_done ?_
    | refine res_stay ?_
    | refine res_jump ?_
    | refine res_fault ?_
    | (dsimp -zeta only)
    | refine of_snd (by assumption) ?_
    | refine of_fst (by assumption) ?_
    | refine of_mid (by assumption) ?_
    | refine of_trd (by assumption) ?_
    | refine of_fth (by assumption) ?_
    | refine of_done (by assumption) ?_
    | refine of_stay (by assumption) ?_
    | refine of_jump (by assumption) ?_
    | refine of_fault (by assumption) ?_
    | intro _
    | (extract_lets +onlyGivenNames x; apply thenHave (p := P x); (unfold x; clear x); rotate_left 1; (intro hx; clear_value x))
    | (extract_lets +onlyGivenNames x; apply thenHave (p := P x.st); (unfold x; clear x); rotate_left 1; (intro hx; clear_value x))
    | (extract_lets +onlyGivenNames x; apply thenHave (p := P x.2); (unfold x; clear x); rotate_left 1; (intro hx; clear_value x))
    | (extract_lets +onlyGivenNames x; apply thenHave (p := P x.1); (unfold x; clear x); rotate_left 1; (intro hx; clear_value x))
    | (extract_lets +onlyGivenNames x; apply thenHave (p := P x.2.1); (unfold x; clear x); rotate_left 1; (intro hx; clear_value x))
    | (extract_lets +onlyGivenNames x; apply thenHave (p := P x.2.2); (unfold x; clear x); rotate_left 1; (intro hx; clear_value x))
    | (extract_lets +onlyGivenNames x; clear_value x)
    | (extract_lets +onlyGivenNames x)
    | refine ite_closed ?_ ?_
    | refine res_ite ?_ ?_
    | split

def Foot.runCore (K : Part → Bool) : Bool := K (.fld .irPres) && (Foot.settle K && (Foot.endLoad K && (Foot.takeEntries K &&
    (Foot.ifOn K && (Foot.takePending K && (Foot.decodeAndRun K))))))

theorem runCore_closed {K : Part → Bool} {P : State → Prop} {s : State} {k : Nat} {m : Form} {f : State → Res} (hP : Closed K
    P) (hK : Foot.runCore K = true) (h_f : ∀ x0, P x0 → P (f x0).st) (hs_s : P s) :
    P (runCore s k m f) := by
  simp only [Foot.runCore, Bool.and_eq_true] at hK
  obtain ⟨hK0, hK1, hK2, hK3, hK4, hK5, hK6⟩ := hK
  unfold runCore
  with_reducible repeat' first
    | assumption
    | apply h_f
    | refine settle_closed hP ?_ ?_
    | refine endLoad_closed hP ?_ ?_
    | refine takeEntries_closed hP ?_ ?_
    | refine ifOn_closed hP ?_ ?_ ?_
    | refine takePending_closed hP ?_ ?_
    | refine decodeAndRun_closed hP ?_ ?_ ?_
    | refine hP.clear ?_ ?_
    | intro _
    | (extract_lets +onlyGivenNames x; apply thenHave (p := P x); (unfold x; clear x); rotate_left 1; (intro hx; clear_value x))
    | (extract_lets +onlyGivenNames x; clear_value x)
    | refine ite_closed ?_ ?_
    | refine res_ite ?_ ?_
    | split

def Foot.coreStep (K : Part → Bool) : Bool := Foot.runCore K

theorem coreStep_closed {K : Part → Bool} {P : State → Prop} {s : State} {k : Nat} {m : Form} {f : State → Res} (hP : Closed
    K P) (hK : Foot.coreStep K = true) (h_f : ∀ x0, P x0 → P (f x0).st) (hs_s : P s) :
    OutAll P (coreStep s k m f) := by
  simp only [Foot.coreStep, Bool.and_eq_true] at hK
  unfold coreStep
  with_reducible repeat' first
    | assumption
    | apply h_f
    | refine runCore_closed hP ?_ ?_ ?_
    | refine OutAll.mk ?_

def Foot.accStep (K : Part → Bool) : Bool := Foot.coreStep K && (Foot.putAcc K && (Foot.setA K))

theorem accStep_closed {K : Part → Bool} {P : State → Prop} {s : State} {k : Nat} {m : Form} {a : Nat} {f : State → AccOut}
    (hP : Closed K P) (hK : Foot.accStep K = true) (hs_s : P s) :
    OutAll P (accStep s k m a f) := by
  simp only [Foot.accStep, Bool.and_eq_true] at hK
  obtain ⟨hK0, hK1, hK2⟩ := hK
  unfold accStep
  with_reducible repeat' first
    | assumption
    | refine coreStep_closed hP ?_ ?_ ?_
    | refine putAcc_closed hP ?_ ?_
    | refine setA_closed hP ?_ ?_
    | refine OutAll.mk ?_
    | refine res_done ?_
    | intro _
    | (extract_lets +onlyGivenNames x; apply thenHave (p := P x); (unfold x; clear x); rotate_left 1; (intro hx; clear_value x))
    | (extract_lets +onlyGivenNames x; clear_value x)

def Foot.aluStep (K : Part → Bool) : Bool := Foot.coreStep K && (Foot.putAlu K && (Foot.setD K))

theorem aluStep_closed {K : Part → Bool} {P : State → Prop} {s : State} {k : Nat} {m : Form} {d : Nat} {write : Bool} {f :
    State → Alu} (hP : Closed K P) (hK : Foot.aluStep K = true) (hs_s : P s) :
    OutAll P (aluStep s k m d write f) := by
  simp only [Foot.aluStep, Bool.and_eq_true] at hK
  obtain ⟨hK0, hK1, hK2⟩ := hK
  unfold aluStep
  with_reducible repeat' first
    | assumption
    | refine coreStep_closed hP ?_ ?_ ?_
    | refine putAlu_closed hP ?_ ?_
    | refine setD_closed hP ?_ ?_
    | refine OutAll.mk ?_
    | refine res_done ?_
    | intro _
    | (extract_lets +onlyGivenNames x; apply thenHave (p := P x); (unfold x; clear x); rotate_left 1; (intro hx; clear_value x))
    | (extract_lets +onlyGivenNames x; clear_value x)
    | refine ite_closed ?_ ?_
    | refine res_ite ?_ ?_
    | split

def Foot.branchTo (K : Part → Bool) : Bool := K (.fld .loopOn) && (Foot.dropLoopBuffer K && (Foot.setPc K && (Foot.dropQueue
    K)))

theorem branchTo_closed {K : Part → Bool} {P : State → Prop} {s : State} {k : Nat} {target : Int} (hP : Closed K P) (hK :
    Foot.branchTo K = true) (hs_s : P s) :
    P (branchTo s k target) := by
  simp only [Foot.branchTo, Bool.and_eq_true] at hK
  obtain ⟨hK0, hK1, hK2, hK3⟩ := hK
  unfold branchTo
  with_reducible repeat' first
    | assumption
    | refine dropLoopBuffer_closed hP ?_ ?_
    | refine setPc_closed hP ?_ ?_
    | refine dropQueue_closed hP ?_ ?_
    | refine hP.clear ?_ ?_
    | (extract_lets +onlyGivenNames x; apply thenHave (p := P x); (unfold x; clear x); rotate_left 1; (intro hx; clear_value x))
    | (extract_lets +onlyGivenNames x; clear_value x)
    | refine ite_closed ?_ ?_
    | refine res_ite ?_ ?_
    | split

theorem branchTo_get {s : State} {k : Nat} {target : Int} {fld0 : Fld} {i0 j0 : Nat} (hK : Foot.branchTo (notFld fld0) =
    true)  : (branchTo s k target).get fld0 i0 j0 = s.get fld0 i0 j0 :=
  branchTo_closed (P := fun x => x.get fld0 i0 j0 = s.get fld0 i0 j0) (field_closed fld0 i0 j0 _) hK  rfl

end Sys2Proof.Machine
end

