-- ==== Sys2Proof/Laws/ClosedCoreArith.lean ====
section
/-! SUPPORT. What the functions of Machine/CoreArith.lean can write, and that they keep every closed property (Laws/Closed.lean). -/
namespace Sys2Proof.Machine

set_option Elab.async false
set_option linter.all false

def Foot.accGroup (K : Part → Bool) : Bool := Foot.accStep K

theorem accGroup_closed {K : Part → Bool} {P : State → Prop} {s : State} {k : Nat} {a : Nat} {f : Int → Int → AccOut} (hP :
    Closed K P) (hK : Foot.accGroup K = true) (hs_s : P s) :
    OutAll P (accGroup s k a f) := by
  simp only [Foot.accGroup, Bool.and_eq_true] at hK
  unfold accGroup
  with_reducible repeat' first
    | assumption
    | refine accStep_closed hP ?_ ?_
    | refine OutAll.mk ?_
    | intro _

def Foot.divide (K : Part → Bool) : Bool := K (.fld .divR) && (K (.fld .divQ) && (K (.fld .divOn) && (K (.fld .divRv) && (K
    (.fld .divQv) && (K (.fld .divOld) && (K (.fld .divDz) && (K (.fld .divV) && (Foot.coreStep K))))))))

theorem divide_closed {K : Part → Bool} {P : State → Prop} {s : State} {k : Nat} {q : Nat} {r : Nat} {n : Nat} {f : Int → Int
    → Int × Int × Bool × Bool} (hP : Closed K P) (hK : Foot.divide K = true) (hs_s : P s) :
    OutAll P (divide s k q r n f) := by
  simp only [Foot.divide, Bool.and_eq_true] at hK
  obtain ⟨hK0, hK1, hK2, hK3, hK4, hK5, hK6, hK7, hK8⟩ := hK
  unfold divide
  with_reducible repeat' first
    | assumption
    | refine coreStep_closed hP ?_ ?_ ?_
    | refine hP.put _ _ _ _ _ ?_ ?_
    | refine hP.clear ?_ ?_
    | refine hP.raise ?_ ?_
    | refine OutAll.mk ?_
    | refine res_done ?_
    | refine res_fault ?_
    | intro _
    | (extract_lets +onlyGivenNames x; apply thenHave (p := P x); (unfold x; clear x); rotate_left 1; (intro hx; clear_value x))
    | (extract_lets +onlyGivenNames x; clear_value x)
    | refine ite_closed ?_ ?_
    | refine res_ite ?_ ?_
    | split

def Foot.regOp (K : Part → Bool) : Bool := Foot.aluStep K

theorem regOp_closed {K : Part → Bool} {P : State → Prop} {s : State} {k : Nat} {d : Nat} {r : Nat} {sw : Bool} {write :
    Bool} {f : State → Int → Int → Alu} (hP : Closed K P) (hK : Foot.regOp K = true) (hs_s : P s) :
    OutAll P (regOp s k d r sw write f) := by
  simp only [Foot.regOp, Bool.and_eq_true] at hK
  unfold regOp
  with_reducible repeat' first
    | assumption
    | refine aluStep_closed hP ?_ ?_
    | refine OutAll.mk ?_
    | intro _

def Foot.execAbs (K : Part → Bool) : Bool := Foot.regOp K

theorem execAbs_closed {K : Part → Bool} {P : State → Prop} {k : CoreId} {d : Fin 8} {r : Fin 8} {s : State} (hP : Closed K
    P) (hK : Foot.execAbs K = true) (hs_s : P s) :
    OutAll P (execAbs k d r s) := by
  simp only [Foot.execAbs, Bool.and_eq_true] at hK
  unfold execAbs
  with_reducible repeat' first
    | assumption
    | refine regOp_closed hP ?_ ?_
    | refine OutAll.mk ?_
    | intro _

def Foot.execAdc (K : Part → Bool) : Bool := Foot.regOp K

theorem execAdc_closed {K : Part → Bool} {P : State → Prop} {k : CoreId} {d : Fin 8} {r : Fin 8} {s : State} (hP : Closed K
    P) (hK : Foot.execAdc K = true) (hs_s : P s) :
    OutAll P (execAdc k d r s) := by
  simp only [Foot.execAdc, Bool.and_eq_true] at hK
  unfold execAdc
  with_reducible repeat' first
    | assumption
    | refine regOp_closed hP ?_ ?_
    | refine OutAll.mk ?_
    | intro _

def Foot.immOp (K : Part → Bool) : Bool := Foot.aluStep K

theorem immOp_closed {K : Part → Bool} {P : State → Prop} {s : State} {k : Nat} {d : Nat} {v : BitVec 16} {sw : Bool} {write
    : Bool} {f : State → Int → Int → Alu} (hP : Closed K P) (hK : Foot.immOp K = true) (hs_s : P s) :
    OutAll P (immOp s k d v sw write f) := by
  simp only [Foot.immOp, Bool.and_eq_true] at hK
  unfold immOp
  with_reducible repeat' first
    | assumption
    | refine aluStep_closed hP ?_ ?_
    | refine OutAll.mk ?_
    | intro _

def Foot.execAdcImm (K : Part → Bool) : Bool := Foot.immOp K

theorem execAdcImm_closed {K : Part → Bool} {P : State → Prop} {k : CoreId} {d : Fin 8} {v : W16} {s : State} (hP : Closed K
    P) (hK : Foot.execAdcImm K = true) (hs_s : P s) :
    OutAll P (execAdcImm k d v s) := by
  simp only [Foot.execAdcImm, Bool.and_eq_true] at hK
  unfold execAdcImm
  with_reducible repeat' first
    | assumption
    | refine immOp_closed hP ?_ ?_
    | refine OutAll.mk ?_
    | intro _

def Foot.execAdd (K : Part → Bool) : Bool := Foot.regOp K

theorem execAdd_closed {K : Part → Bool} {P : State → Prop} {k : CoreId} {d : Fin 8} {r : Fin 8} {s : State} (hP : Closed K
    P) (hK : Foot.execAdd K = true) (hs_s : P s) :
    OutAll P (execAdd k d r s) := by
  simp only [Foot.execAdd, Bool.and_eq_true] at hK
  unfold execAdd
  with_reducible repeat' first
    | assumption
    | refine regOp_closed hP ?_ ?_
    | refine OutAll.mk ?_
    | intro _

def Foot.execAddImm (K : Part → Bool) : Bool := Foot.immOp K

theorem execAddImm_closed {K : Part → Bool} {P : State → Prop} {k : CoreId} {d : Fin 8} {v : W16} {s : State} (hP : Closed K
    P) (hK : Foot.execAddImm K = true) (hs_s : P s) :
    OutAll P (execAddImm k d v s) := by
  simp only [Foot.execAddImm, Bool.and_eq_true] at hK
  unfold execAddImm
  with_reducible repeat' first
    | assumption
    | refine immOp_closed hP ?_ ?_
    | refine OutAll.mk ?_
    | intro _

def Foot.execAdda (K : Part → Bool) : Bool := Foot.accGroup K

theorem execAdda_closed {K : Part → Bool} {P : State → Prop} {k : CoreId} {a : Fin 2} {s : State} (hP : Closed K P) (hK :
    Foot.execAdda K = true) (hs_s : P s) :
    OutAll P (execAdda k a s) := by
  simp only [Foot.execAdda, Bool.and_eq_true] at hK
  unfold execAdda
  with_reducible repeat' first
    | assumption
    | refine accGroup_closed hP ?_ ?_
    | refine OutAll.mk ?_
    | intro _

def Foot.quickOp (K : Part → Bool) : Bool := Foot.aluStep K

theorem quickOp_closed {K : Part → Bool} {P : State → Prop} {s : State} {k : Nat} {d : Nat} {v : Int} {write : Bool} {f : Int
    → Int → Alu} (hP : Closed K P) (hK : Foot.quickOp K = true) (hs_s : P s) :
    OutAll P (quickOp s k d v write f) := by
  simp only [Foot.quickOp, Bool.and_eq_true] at hK
  unfold quickOp
  with_reducible repeat' first
    | assumption
    | refine aluStep_closed hP ?_ ?_
    | refine OutAll.mk ?_
    | intro _

def Foot.execAddq (K : Part → Bool) : Bool := Foot.quickOp K

theorem execAddq_closed {K : Part → Bool} {P : State → Prop} {k : CoreId} {d : Fin 8} {u : BitVec 4} {s : State} (hP : Closed
    K P) (hK : Foot.execAddq K = true) (hs_s : P s) :
    OutAll P (execAddq k d u s) := by
  simp only [Foot.execAddq, Bool.and_eq_true] at hK
  unfold execAddq
  with_reducible repeat' first
    | assumption
    | refine quickOp_closed hP ?_ ?_
    | refine OutAll.mk ?_
    | intro _

def Foot.execAdds (K : Part → Bool) : Bool := Foot.regOp K

theorem execAdds_closed {K : Part → Bool} {P : State → Prop} {k : CoreId} {d : Fin 8} {r : Fin 8} {s : State} (hP : Closed K
    P) (hK : Foot.execAdds K = true) (hs_s : P s) :
    OutAll P (execAdds k d r s) := by
  simp only [Foot.execAdds, Bool.and_eq_true] at hK
  unfold execAdds
  with_reducible repeat' first
    | assumption
    | refine regOp_closed hP ?_ ?_
    | refine OutAll.mk ?_
    | intro _

def Foot.execAddsImm (K : Part → Bool) : Bool := Foot.immOp K

theorem execAddsImm_closed {K : Part → Bool} {P : State → Prop} {k : CoreId} {d : Fin 8} {v : W16} {s : State} (hP : Closed K
    P) (hK : Foot.execAddsImm K = true) (hs_s : P s) :
    OutAll P (execAddsImm k d v s) := by
  simp only [Foot.execAddsImm, Bool.and_eq_true] at hK
  unfold execAddsImm
  with_reducible repeat' first
    | assumption
    | refine immOp_closed hP ?_ ?_
    | refine OutAll.mk ?_
    | intro _

def Foot.execAddsq (K : Part → Bool) : Bool := Foot.quickOp K

theorem execAddsq_closed {K : Part → Bool} {P : State → Prop} {k : CoreId} {d : Fin 8} {u : BitVec 4} {s : State} (hP :
    Closed K P) (hK : Foot.execAddsq K = true) (hs_s : P s) :
    OutAll P (execAddsq k d u s) := by
  simp only [Foot.execAddsq, Bool.and_eq_true] at hK
  unfold execAddsq
  with_reducible repeat' first
    | assumption
    | refine quickOp_closed hP ?_ ?_
    | refine OutAll.mk ?_
    | intro _

def Foot.execAndImm (K : Part → Bool) : Bool := Foot.immOp K

theorem execAndImm_closed {K : Part → Bool} {P : State → Prop} {k : CoreId} {d : Fin 8} {v : W16} {s : State} (hP : Closed K
    P) (hK : Foot.execAndImm K = true) (hs_s : P s) :
    OutAll P (execAndImm k d v s) := by
  simp only [Foot.execAndImm, Bool.and_eq_true] at hK
  unfold execAndImm
  with_reducible repeat' first
    | assumption
    | refine immOp_closed hP ?_ ?_
    | refine OutAll.mk ?_
    | intro _

def Foot.execAndReg (K : Part → Bool) : Bool := Foot.regOp K

theorem execAndReg_closed {K : Part → Bool} {P : State → Prop} {k : CoreId} {d : Fin 8} {r : Fin 8} {s : State} (hP : Closed
    K P) (hK : Foot.execAndReg K = true) (hs_s : P s) :
    OutAll P (execAndReg k d r s) := by
  simp only [Foot.execAndReg, Bool.and_eq_true] at hK
  unfold execAndReg
  with_reducible repeat' first
    | assumption
    | refine regOp_closed hP ?_ ?_
    | refine OutAll.mk ?_
    | intro _

def Foot.shiftImm (K : Part → Bool) : Bool := Foot.aluStep K

theorem shiftImm_closed {K : Part → Bool} {P : State → Prop} {s : State} {k : Nat} {d : Nat} {n : Nat} {write : Bool} {f :
    Int → Nat → Alu} (hP : Closed K P) (hK : Foot.shiftImm K = true) (hs_s : P s) :
    OutAll P (shiftImm s k d n write f) := by
  simp only [Foot.shiftImm, Bool.and_eq_true] at hK
  unfold shiftImm
  with_reducible repeat' first
    | assumption
    | refine aluStep_closed hP ?_ ?_
    | refine OutAll.mk ?_
    | intro _

def Foot.execAsr (K : Part → Bool) : Bool := Foot.shiftImm K

theorem execAsr_closed {K : Part → Bool} {P : State → Prop} {k : CoreId} {d : Fin 8} {n : Fin 16} {s : State} (hP : Closed K
    P) (hK : Foot.execAsr K = true) (hs_s : P s) :
    OutAll P (execAsr k d n s) := by
  simp only [Foot.execAsr, Bool.and_eq_true] at hK
  unfold execAsr
  with_reducible repeat' first
    | assumption
    | refine shiftImm_closed hP ?_ ?_
    | refine OutAll.mk ?_

def Foot.shiftReg (K : Part → Bool) : Bool := Foot.aluStep K

theorem shiftReg_closed {K : Part → Bool} {P : State → Prop} {s : State} {k : Nat} {d : Nat} {r : Nat} {f : Int → Nat → Alu}
    (hP : Closed K P) (hK : Foot.shiftReg K = true) (hs_s : P s) :
    OutAll P (shiftReg s k d r f) := by
  simp only [Foot.shiftReg, Bool.and_eq_true] at hK
  unfold shiftReg
  with_reducible repeat' first
    | assumption
    | refine aluStep_closed hP ?_ ?_
    | refine OutAll.mk ?_
    | intro _

def Foot.execAsrReg (K : Part → Bool) : Bool := Foot.shiftReg K

theorem execAsrReg_closed {K : Part → Bool} {P : State → Prop} {k : CoreId} {d : Fin 8} {r : Fin 8} {s : State} (hP : Closed
    K P) (hK : Foot.execAsrReg K = true) (hs_s : P s) :
    OutAll P (execAsrReg k d r s) := by
  simp only [Foot.execAsrReg, Bool.and_eq_true] at hK
  unfold execAsrReg
  with_reducible repeat' first
    | assumption
    | refine shiftReg_closed hP ?_ ?_
    | refine OutAll.mk ?_

def Foot.execAsra (K : Part → Bool) : Bool := Foot.accGroup K

theorem execAsra_closed {K : Part → Bool} {P : State → Prop} {k : CoreId} {a : Fin 2} {n : Fin 64} {s : State} (hP : Closed K
    P) (hK : Foot.execAsra K = true) (hs_s : P s) :
    OutAll P (execAsra k a n s) := by
  simp only [Foot.execAsra, Bool.and_eq_true] at hK
  unfold execAsra
  with_reducible repeat' first
    | assumption
    | refine accGroup_closed hP ?_ ?_
    | refine OutAll.mk ?_
    | intro _

def Foot.execBclr (K : Part → Bool) : Bool := Foot.shiftImm K

theorem execBclr_closed {K : Part → Bool} {P : State → Prop} {k : CoreId} {d : Fin 8} {b : Fin 16} {s : State} (hP : Closed K
    P) (hK : Foot.execBclr K = true) (hs_s : P s) :
    OutAll P (execBclr k d b s) := by
  simp only [Foot.execBclr, Bool.and_eq_true] at hK
  unfold execBclr
  with_reducible repeat' first
    | assumption
    | refine shiftImm_closed hP ?_ ?_
    | refine OutAll.mk ?_
    | intro _

def Foot.execBset (K : Part → Bool) : Bool := Foot.shiftImm K

theorem execBset_closed {K : Part → Bool} {P : State → Prop} {k : CoreId} {d : Fin 8} {b : Fin 16} {s : State} (hP : Closed K
    P) (hK : Foot.execBset K = true) (hs_s : P s) :
    OutAll P (execBset k d b s) := by
  simp only [Foot.execBset, Bool.and_eq_true] at hK
  unfold execBset
  with_reducible repeat' first
    | assumption
    | refine shiftImm_closed hP ?_ ?_
    | refine OutAll.mk ?_
    | intro _

def Foot.execBtgl (K : Part → Bool) : Bool := Foot.shiftImm K

theorem execBtgl_closed {K : Part → Bool} {P : State → Prop} {k : CoreId} {d : Fin 8} {b : Fin 16} {s : State} (hP : Closed K
    P) (hK : Foot.execBtgl K = true) (hs_s : P s) :
    OutAll P (execBtgl k d b s) := by
  simp only [Foot.execBtgl, Bool.and_eq_true] at hK
  unfold execBtgl
  with_reducible repeat' first
    | assumption
    | refine shiftImm_closed hP ?_ ?_
    | refine OutAll.mk ?_
    | intro _

def Foot.execBtst (K : Part → Bool) : Bool := Foot.shiftImm K

theorem execBtst_closed {K : Part → Bool} {P : State → Prop} {k : CoreId} {d : Fin 8} {b : Fin 16} {s : State} (hP : Closed K
    P) (hK : Foot.execBtst K = true) (hs_s : P s) :
    OutAll P (execBtst k d b s) := by
  simp only [Foot.execBtst, Bool.and_eq_true] at hK
  unfold execBtst
  with_reducible repeat' first
    | assumption
    | refine shiftImm_closed hP ?_ ?_
    | refine OutAll.mk ?_
    | intro _

def Foot.execClra (K : Part → Bool) : Bool := Foot.accGroup K

theorem execClra_closed {K : Part → Bool} {P : State → Prop} {k : CoreId} {a : Fin 2} {s : State} (hP : Closed K P) (hK :
    Foot.execClra K = true) (hs_s : P s) :
    OutAll P (execClra k a s) := by
  simp only [Foot.execClra, Bool.and_eq_true] at hK
  unfold execClra
  with_reducible repeat' first
    | assumption
    | refine accGroup_closed hP ?_ ?_
    | refine OutAll.mk ?_
    | intro _

def Foot.execClz (K : Part → Bool) : Bool := Foot.aluStep K

theorem execClz_closed {K : Part → Bool} {P : State → Prop} {k : CoreId} {d : Fin 8} {r : Fin 8} {s : State} (hP : Closed K
    P) (hK : Foot.execClz K = true) (hs_s : P s) :
    OutAll P (execClz k d r s) := by
  simp only [Foot.execClz, Bool.and_eq_true] at hK
  unfold execClz
  with_reducible repeat' first
    | assumption
    | refine aluStep_closed hP ?_ ?_
    | refine OutAll.mk ?_
    | intro _

def Foot.execCmp (K : Part → Bool) : Bool := Foot.regOp K

theorem execCmp_closed {K : Part → Bool} {P : State → Prop} {k : CoreId} {d : Fin 8} {r : Fin 8} {s : State} (hP : Closed K
    P) (hK : Foot.execCmp K = true) (hs_s : P s) :
    OutAll P (execCmp k d r s) := by
  simp only [Foot.execCmp, Bool.and_eq_true] at hK
  unfold execCmp
  with_reducible repeat' first
    | assumption
    | refine regOp_closed hP ?_ ?_
    | refine OutAll.mk ?_
    | intro _

def Foot.execCmpImm (K : Part → Bool) : Bool := Foot.immOp K

theorem execCmpImm_closed {K : Part → Bool} {P : State → Prop} {k : CoreId} {d : Fin 8} {v : W16} {s : State} (hP : Closed K
    P) (hK : Foot.execCmpImm K = true) (hs_s : P s) :
    OutAll P (execCmpImm k d v s) := by
  simp only [Foot.execCmpImm, Bool.and_eq_true] at hK
  unfold execCmpImm
  with_reducible repeat' first
    | assumption
    | refine immOp_closed hP ?_ ?_
    | refine OutAll.mk ?_
    | intro _

def Foot.execCmpq (K : Part → Bool) : Bool := Foot.quickOp K

theorem execCmpq_closed {K : Part → Bool} {P : State → Prop} {k : CoreId} {d : Fin 8} {u : BitVec 4} {s : State} (hP : Closed
    K P) (hK : Foot.execCmpq K = true) (hs_s : P s) :
    OutAll P (execCmpq k d u s) := by
  simp only [Foot.execCmpq, Bool.and_eq_true] at hK
  unfold execCmpq
  with_reducible repeat' first
    | assumption
    | refine quickOp_closed hP ?_ ?_
    | refine OutAll.mk ?_
    | intro _

def Foot.execDivs (K : Part → Bool) : Bool := Foot.divide K

theorem execDivs_closed {K : Part → Bool} {P : State → Prop} {k : CoreId} {q : Fin 8} {r : Fin 8} {n : Fin 8} {s : State} (hP
    : Closed K P) (hK : Foot.execDivs K = true) (hs_s : P s) :
    OutAll P (execDivs k q r n s) := by
  simp only [Foot.execDivs, Bool.and_eq_true] at hK
  unfold execDivs
  with_reducible repeat' first
    | assumption
    | refine divide_closed hP ?_ ?_
    | refine OutAll.mk ?_

def Foot.execDivu (K : Part → Bool) : Bool := Foot.divide K

theorem execDivu_closed {K : Part → Bool} {P : State → Prop} {k : CoreId} {q : Fin 8} {r : Fin 8} {n : Fin 8} {s : State} (hP
    : Closed K P) (hK : Foot.execDivu K = true) (hs_s : P s) :
    OutAll P (execDivu k q r n s) := by
  simp only [Foot.execDivu, Bool.and_eq_true] at hK
  unfold execDivu
  with_reducible repeat' first
    | assumption
    | refine divide_closed hP ?_ ?_
    | refine OutAll.mk ?_

def Foot.execLongOpRetire (K : Part → Bool) : Bool := Foot.retireDiv K && (Foot.retireMac K)

theorem execLongOpRetire_closed {K : Part → Bool} {P : State → Prop} {k : CoreId} {div : Bool} {s : State} (hP : Closed K P)
    (hK : Foot.execLongOpRetire K = true) (hs_s : P s) :
    OutAll P (execLongOpRetire k div s) := by
  simp only [Foot.execLongOpRetire, Bool.and_eq_true] at hK
  obtain ⟨hK0, hK1⟩ := hK
  unfold execLongOpRetire
  with_reducible repeat' first
    | assumption
    | refine retireDiv_closed hP ?_ ?_
    | refine retireMac_closed hP ?_ ?_
    | refine OutAll.mk ?_
    | refine ite_closed ?_ ?_
    | refine res_ite ?_ ?_
    | split

def Foot.execLsr (K : Part → Bool) : Bool := Foot.shiftImm K

theorem execLsr_closed {K : Part → Bool} {P : State → Prop} {k : CoreId} {d : Fin 8} {n : Fin 16} {s : State} (hP : Closed K
    P) (hK : Foot.execLsr K = true) (hs_s : P s) :
    OutAll P (execLsr k d n s) := by
  simp only [Foot.execLsr, Bool.and_eq_true] at hK
  unfold execLsr
  with_reducible repeat' first
    | assumption
    | refine shiftImm_closed hP ?_ ?_
    | refine OutAll.mk ?_

def Foot.execLsrReg (K : Part → Bool) : Bool := Foot.shiftReg K

theorem execLsrReg_closed {K : Part → Bool} {P : State → Prop} {k : CoreId} {d : Fin 8} {r : Fin 8} {s : State} (hP : Closed
    K P) (hK : Foot.execLsrReg K = true) (hs_s : P s) :
    OutAll P (execLsrReg k d r s) := by
  simp only [Foot.execLsrReg, Bool.and_eq_true] at hK
  unfold execLsrReg
  with_reducible repeat' first
    | assumption
    | refine shiftReg_closed hP ?_ ?_
    | refine OutAll.mk ?_

def Foot.mulOp (K : Part → Bool) : Bool := Foot.accStep K

theorem mulOp_closed {K : Part → Bool} {P : State → Prop} {s : State} {k : Nat} {a : Nat} {x : Nat} {y : Nat} {f : Int → Int
    → Int → AccOut} (hP : Closed K P) (hK : Foot.mulOp K = true) (hs_s : P s) :
    OutAll P (mulOp s k a x y f) := by
  simp only [Foot.mulOp, Bool.and_eq_true] at hK
  unfold mulOp
  with_reducible repeat' first
    | assumption
    | refine accStep_closed hP ?_ ?_
    | refine OutAll.mk ?_
    | intro _

def Foot.execMac (K : Part → Bool) : Bool := Foot.mulOp K

theorem execMac_closed {K : Part → Bool} {P : State → Prop} {k : CoreId} {a : Fin 2} {x : Fin 8} {y : Fin 8} {s : State} (hP
    : Closed K P) (hK : Foot.execMac K = true) (hs_s : P s) :
    OutAll P (execMac k a x y s) := by
  simp only [Foot.execMac, Bool.and_eq_true] at hK
  unfold execMac
  with_reducible repeat' first
    | assumption
    | refine mulOp_closed hP ?_ ?_
    | refine OutAll.mk ?_
    | intro _

def Foot.execMacf (K : Part → Bool) : Bool := Foot.mulOp K

theorem execMacf_closed {K : Part → Bool} {P : State → Prop} {k : CoreId} {a : Fin 2} {x : Fin 8} {y : Fin 8} {s : State} (hP
    : Closed K P) (hK : Foot.execMacf K = true) (hs_s : P s) :
    OutAll P (execMacf k a x y s) := by
  simp only [Foot.execMacf, Bool.and_eq_true] at hK
  unfold execMacf
  with_reducible repeat' first
    | assumption
    | refine mulOp_closed hP ?_ ?_
    | refine OutAll.mk ?_
    | intro _

def Foot.longMac (K : Part → Bool) : Bool := K (.fld .macVal) && (K (.fld .macA) && (K (.fld .macOn) && (K (.fld .macOld) &&
    (K (.fld .macV) && (Foot.coreStep K)))))

theorem longMac_closed {K : Part → Bool} {P : State → Prop} {s : State} {k : Nat} {a : Nat} {x : Nat} {z : Nat} {f : Int →
    Int → AccOut} (hP : Closed K P) (hK : Foot.longMac K = true) (hs_s : P s) :
    OutAll P (longMac s k a x z f) := by
  simp only [Foot.longMac, Bool.and_eq_true] at hK
  obtain ⟨hK0, hK1, hK2, hK3, hK4, hK5⟩ := hK
  unfold longMac
  with_reducible repeat' first
    | assumption
    | refine coreStep_closed hP ?_ ?_ ?_
    | refine hP.put _ _ _ _ _ ?_ ?_
    | refine hP.clear ?_ ?_
    | refine hP.raise ?_ ?_
    | refine OutAll.mk ?_
    | refine res_done ?_
    | refine res_fault ?_
    | intro _
    | (extract_lets +onlyGivenNames x; apply thenHave (p := P x); (unfold x; clear x); rotate_left 1; (intro hx; clear_value x))
    | (extract_lets +onlyGivenNames x; clear_value x)
    | refine ite_closed ?_ ?_
    | refine res_ite ?_ ?_
    | split

def Foot.execMacl (K : Part → Bool) : Bool := Foot.longMac K

theorem execMacl_closed {K : Part → Bool} {P : State → Prop} {k : CoreId} {a : Fin 2} {x : Fin 8} {z : Fin 8} {s : State} (hP
    : Closed K P) (hK : Foot.execMacl K = true) (hs_s : P s) :
    OutAll P (execMacl k a x z s) := by
  simp only [Foot.execMacl, Bool.and_eq_true] at hK
  unfold execMacl
  with_reducible repeat' first
    | assumption
    | refine longMac_closed hP ?_ ?_
    | refine OutAll.mk ?_
    | intro _

def Foot.execMacs (K : Part → Bool) : Bool := Foot.mulOp K

theorem execMacs_closed {K : Part → Bool} {P : State → Prop} {k : CoreId} {a : Fin 2} {x : Fin 8} {y : Fin 8} {s : State} (hP
    : Closed K P) (hK : Foot.execMacs K = true) (hs_s : P s) :
    OutAll P (execMacs k a x y s) := by
  simp only [Foot.execMacs, Bool.and_eq_true] at hK
  unfold execMacs
  with_reducible repeat' first
    | assumption
    | refine mulOp_closed hP ?_ ?_
    | refine OutAll.mk ?_
    | intro _

def Foot.execMaxImm (K : Part → Bool) : Bool := Foot.immOp K

theorem execMaxImm_closed {K : Part → Bool} {P : State → Prop} {k : CoreId} {d : Fin 8} {v : W16} {s : State} (hP : Closed K
    P) (hK : Foot.execMaxImm K = true) (hs_s : P s) :
    OutAll P (execMaxImm k d v s) := by
  simp only [Foot.execMaxImm, Bool.and_eq_true] at hK
  unfold execMaxImm
  with_reducible repeat' first
    | assumption
    | refine immOp_closed hP ?_ ?_
    | refine OutAll.mk ?_
    | intro _

def Foot.execMaxReg (K : Part → Bool) : Bool := Foot.regOp K

theorem execMaxReg_closed {K : Part → Bool} {P : State → Prop} {k : CoreId} {d : Fin 8} {r : Fin 8} {s : State} (hP : Closed
    K P) (hK : Foot.execMaxReg K = true) (hs_s : P s) :
    OutAll P (execMaxReg k d r s) := by
  simp only [Foot.execMaxReg, Bool.and_eq_true] at hK
  unfold execMaxReg
  with_reducible repeat' first
    | assumption
    | refine regOp_closed hP ?_ ?_
    | refine OutAll.mk ?_
    | intro _

def Foot.execMaxu (K : Part → Bool) : Bool := Foot.regOp K

theorem execMaxu_closed {K : Part → Bool} {P : State → Prop} {k : CoreId} {d : Fin 8} {r : Fin 8} {s : State} (hP : Closed K
    P) (hK : Foot.execMaxu K = true) (hs_s : P s) :
    OutAll P (execMaxu k d r s) := by
  simp only [Foot.execMaxu, Bool.and_eq_true] at hK
  unfold execMaxu
  with_reducible repeat' first
    | assumption
    | refine regOp_closed hP ?_ ?_
    | refine OutAll.mk ?_
    | intro _

def Foot.execMaxuImm (K : Part → Bool) : Bool := Foot.immOp K

theorem execMaxuImm_closed {K : Part → Bool} {P : State → Prop} {k : CoreId} {d : Fin 8} {v : W16} {s : State} (hP : Closed K
    P) (hK : Foot.execMaxuImm K = true) (hs_s : P s) :
    OutAll P (execMaxuImm k d v s) := by
  simp only [Foot.execMaxuImm, Bool.and_eq_true] at hK
  unfold execMaxuImm
  with_reducible repeat' first
    | assumption
    | refine immOp_closed hP ?_ ?_
    | refine OutAll.mk ?_
    | intro _

def Foot.execMfa (K : Part → Bool) : Bool := Foot.coreStep K && (Foot.setD K)

theorem execMfa_closed {K : Part → Bool} {P : State → Prop} {k : CoreId} {d : Fin 8} {y : Fin 8} {s : State} (hP : Closed K
    P) (hK : Foot.execMfa K = true) (hs_s : P s) :
    OutAll P (execMfa k d y s) := by
  simp only [Foot.execMfa, Bool.and_eq_true] at hK
  obtain ⟨hK0, hK1⟩ := hK
  unfold execMfa
  with_reducible repeat' first
    | assumption
    | refine coreStep_closed hP ?_ ?_ ?_
    | refine setD_closed hP ?_ ?_
    | refine OutAll.mk ?_
    | refine res_done ?_
    | refine res_fault ?_
    | intro _
    | split

def Foot.execMfs (K : Part → Bool) : Bool := Foot.coreStep K && (Foot.setD K)

theorem execMfs_closed {K : Part → Bool} {P : State → Prop} {k : CoreId} {d : Fin 8} {x : Fin 8} {s : State} (hP : Closed K
    P) (hK : Foot.execMfs K = true) (hs_s : P s) :
    OutAll P (execMfs k d x s) := by
  simp only [Foot.execMfs, Bool.and_eq_true] at hK
  obtain ⟨hK0, hK1⟩ := hK
  unfold execMfs
  with_reducible repeat' first
    | assumption
    | refine coreStep_closed hP ?_ ?_ ?_
    | refine setD_closed hP ?_ ?_
    | refine OutAll.mk ?_
    | refine res_done ?_
    | refine res_fault ?_
    | intro _
    | split

def Foot.execMinImm (K : Part → Bool) : Bool := Foot.immOp K

theorem execMinImm_closed {K : Part → Bool} {P : State → Prop} {k : CoreId} {d : Fin 8} {v : W16} {s : State} (hP : Closed K
    P) (hK : Foot.execMinImm K = true) (hs_s : P s) :
    OutAll P (execMinImm k d v s) := by
  simp only [Foot.execMinImm, Bool.and_eq_true] at hK
  unfold execMinImm
  with_reducible repeat' first
    | assumption
    | refine immOp_closed hP ?_ ?_
    | refine OutAll.mk ?_
    | intro _

def Foot.execMinReg (K : Part → Bool) : Bool := Foot.regOp K

theorem execMinReg_closed {K : Part → Bool} {P : State → Prop} {k : CoreId} {d : Fin 8} {r : Fin 8} {s : State} (hP : Closed
    K P) (hK : Foot.execMinReg K = true) (hs_s : P s) :
    OutAll P (execMinReg k d r s) := by
  simp only [Foot.execMinReg, Bool.and_eq_true] at hK
  unfold execMinReg
  with_reducible repeat' first
    | assumption
    | refine regOp_closed hP ?_ ?_
    | refine OutAll.mk ?_
    | intro _

def Foot.execMinu (K : Part → Bool) : Bool := Foot.regOp K

theorem execMinu_closed {K : Part → Bool} {P : State → Prop} {k : CoreId} {d : Fin 8} {r : Fin 8} {s : State} (hP : Closed K
    P) (hK : Foot.execMinu K = true) (hs_s : P s) :
    OutAll P (execMinu k d r s) := by
  simp only [Foot.execMinu, Bool.and_eq_true] at hK
  unfold execMinu
  with_reducible repeat' first
    | assumption
    | refine regOp_closed hP ?_ ?_
    | refine OutAll.mk ?_
    | intro _

def Foot.execMinuImm (K : Part → Bool) : Bool := Foot.immOp K

theorem execMinuImm_closed {K : Part → Bool} {P : State → Prop} {k : CoreId} {d : Fin 8} {v : W16} {s : State} (hP : Closed K
    P) (hK : Foot.execMinuImm K = true) (hs_s : P s) :
    OutAll P (execMinuImm k d v s) := by
  simp only [Foot.execMinuImm, Bool.and_eq_true] at hK
  unfold execMinuImm
  with_reducible repeat' first
    | assumption
    | refine immOp_closed hP ?_ ?_
    | refine OutAll.mk ?_
    | intro _

def Foot.execMov (K : Part → Bool) : Bool := Foot.regOp K

theorem execMov_closed {K : Part → Bool} {P : State → Prop} {k : CoreId} {d : Fin 8} {r : Fin 8} {s : State} (hP : Closed K
    P) (hK : Foot.execMov K = true) (hs_s : P s) :
    OutAll P (execMov k d r s) := by
  simp only [Foot.execMov, Bool.and_eq_true] at hK
  unfold execMov
  with_reducible repeat' first
    | assumption
    | refine regOp_closed hP ?_ ?_
    | refine OutAll.mk ?_
    | intro _

def Foot.execMovImm (K : Part → Bool) : Bool := Foot.immOp K

theorem execMovImm_closed {K : Part → Bool} {P : State → Prop} {k : CoreId} {d : Fin 8} {v : W16} {s : State} (hP : Closed K
    P) (hK : Foot.execMovImm K = true) (hs_s : P s) :
    OutAll P (execMovImm k d v s) := by
  simp only [Foot.execMovImm, Bool.and_eq_true] at hK
  unfold execMovImm
  with_reducible repeat' first
    | assumption
    | refine immOp_closed hP ?_ ?_
    | refine OutAll.mk ?_
    | intro _

def Foot.execMova (K : Part → Bool) : Bool := Foot.accGroup K

theorem execMova_closed {K : Part → Bool} {P : State → Prop} {k : CoreId} {a : Fin 2} {s : State} (hP : Closed K P) (hK :
    Foot.execMova K = true) (hs_s : P s) :
    OutAll P (execMova k a s) := by
  simp only [Foot.execMova, Bool.and_eq_true] at hK
  unfold execMova
  with_reducible repeat' first
    | assumption
    | refine accGroup_closed hP ?_ ?_
    | refine OutAll.mk ?_
    | intro _

def Foot.execMovn (K : Part → Bool) : Bool := Foot.quickOp K

theorem execMovn_closed {K : Part → Bool} {P : State → Prop} {k : CoreId} {d : Fin 8} {u : BitVec 4} {s : State} (hP : Closed
    K P) (hK : Foot.execMovn K = true) (hs_s : P s) :
    OutAll P (execMovn k d u s) := by
  simp only [Foot.execMovn, Bool.and_eq_true] at hK
  unfold execMovn
  with_reducible repeat' first
    | assumption
    | refine quickOp_closed hP ?_ ?_
    | refine OutAll.mk ?_
    | intro _

def Foot.execMovq (K : Part → Bool) : Bool := Foot.quickOp K

theorem execMovq_closed {K : Part → Bool} {P : State → Prop} {k : CoreId} {d : Fin 8} {u : BitVec 4} {s : State} (hP : Closed
    K P) (hK : Foot.execMovq K = true) (hs_s : P s) :
    OutAll P (execMovq k d u s) := by
  simp only [Foot.execMovq, Bool.and_eq_true] at hK
  unfold execMovq
  with_reducible repeat' first
    | assumption
    | refine quickOp_closed hP ?_ ?_
    | refine OutAll.mk ?_
    | intro _

def Foot.execMpy (K : Part → Bool) : Bool := Foot.mulOp K

theorem execMpy_closed {K : Part → Bool} {P : State → Prop} {k : CoreId} {a : Fin 2} {x : Fin 8} {y : Fin 8} {s : State} (hP
    : Closed K P) (hK : Foot.execMpy K = true) (hs_s : P s) :
    OutAll P (execMpy k a x y s) := by
  simp only [Foot.execMpy, Bool.and_eq_true] at hK
  unfold execMpy
  with_reducible repeat' first
    | assumption
    | refine mulOp_closed hP ?_ ?_
    | refine OutAll.mk ?_
    | intro _

def Foot.execMpyf (K : Part → Bool) : Bool := Foot.mulOp K

theorem execMpyf_closed {K : Part → Bool} {P : State → Prop} {k : CoreId} {a : Fin 2} {x : Fin 8} {y : Fin 8} {s : State} (hP
    : Closed K P) (hK : Foot.execMpyf K = true) (hs_s : P s) :
    OutAll P (execMpyf k a x y s) := by
  simp only [Foot.execMpyf, Bool.and_eq_true] at hK
  unfold execMpyf
  with_reducible repeat' first
    | assumption
    | refine mulOp_closed hP ?_ ?_
    | refine OutAll.mk ?_
    | intro _

def Foot.execMpyl (K : Part → Bool) : Bool := Foot.longMac K

theorem execMpyl_closed {K : Part → Bool} {P : State → Prop} {k : CoreId} {a : Fin 2} {x : Fin 8} {z : Fin 8} {s : State} (hP
    : Closed K P) (hK : Foot.execMpyl K = true) (hs_s : P s) :
    OutAll P (execMpyl k a x z s) := by
  simp only [Foot.execMpyl, Bool.and_eq_true] at hK
  unfold execMpyl
  with_reducible repeat' first
    | assumption
    | refine longMac_closed hP ?_ ?_
    | refine OutAll.mk ?_
    | intro _

def Foot.execMpysu (K : Part → Bool) : Bool := Foot.mulOp K

theorem execMpysu_closed {K : Part → Bool} {P : State → Prop} {k : CoreId} {a : Fin 2} {x : Fin 8} {y : Fin 8} {s : State}
    (hP : Closed K P) (hK : Foot.execMpysu K = true) (hs_s : P s) :
    OutAll P (execMpysu k a x y s) := by
  simp only [Foot.execMpysu, Bool.and_eq_true] at hK
  unfold execMpysu
  with_reducible repeat' first
    | assumption
    | refine mulOp_closed hP ?_ ?_
    | refine OutAll.mk ?_
    | intro _

def Foot.execMpyu (K : Part → Bool) : Bool := Foot.mulOp K

theorem execMpyu_closed {K : Part → Bool} {P : State → Prop} {k : CoreId} {a : Fin 2} {x : Fin 8} {y : Fin 8} {s : State} (hP
    : Closed K P) (hK : Foot.execMpyu K = true) (hs_s : P s) :
    OutAll P (execMpyu k a x y s) := by
  simp only [Foot.execMpyu, Bool.and_eq_true] at hK
  unfold execMpyu
  with_reducible repeat' first
    | assumption
    | refine mulOp_closed hP ?_ ?_
    | refine OutAll.mk ?_
    | intro _

def Foot.execMsu (K : Part → Bool) : Bool := Foot.mulOp K

theorem execMsu_closed {K : Part → Bool} {P : State → Prop} {k : CoreId} {a : Fin 2} {x : Fin 8} {y : Fin 8} {s : State} (hP
    : Closed K P) (hK : Foot.execMsu K = true) (hs_s : P s) :
    OutAll P (execMsu k a x y s) := by
  simp only [Foot.execMsu, Bool.and_eq_true] at hK
  unfold execMsu
  with_reducible repeat' first
    | assumption
    | refine mulOp_closed hP ?_ ?_
    | refine OutAll.mk ?_
    | intro _

def Foot.execMsul (K : Part → Bool) : Bool := Foot.longMac K

theorem execMsul_closed {K : Part → Bool} {P : State → Prop} {k : CoreId} {a : Fin 2} {x : Fin 8} {z : Fin 8} {s : State} (hP
    : Closed K P) (hK : Foot.execMsul K = true) (hs_s : P s) :
    OutAll P (execMsul k a x z s) := by
  simp only [Foot.execMsul, Bool.and_eq_true] at hK
  unfold execMsul
  with_reducible repeat' first
    | assumption
    | refine longMac_closed hP ?_ ?_
    | refine OutAll.mk ?_
    | intro _

def Foot.execMta (K : Part → Bool) : Bool := Foot.coreStep K && (Foot.setA K)

theorem execMta_closed {K : Part → Bool} {P : State → Prop} {k : CoreId} {y : Fin 8} {d : Fin 8} {s : State} (hP : Closed K
    P) (hK : Foot.execMta K = true) (hs_s : P s) :
    OutAll P (execMta k y d s) := by
  simp only [Foot.execMta, Bool.and_eq_true] at hK
  obtain ⟨hK0, hK1⟩ := hK
  unfold execMta
  with_reducible repeat' first
    | assumption
    | refine coreStep_closed hP ?_ ?_ ?_
    | refine setA_closed hP ?_ ?_
    | refine OutAll.mk ?_
    | refine res_done ?_
    | refine res_fault ?_
    | intro _
    | split

def Foot.execMts (K : Part → Bool) : Bool := Foot.coreStep K && (Foot.writeSw K && (Foot.setRc K))

theorem execMts_closed {K : Part → Bool} {P : State → Prop} {k : CoreId} {x : Fin 8} {d : Fin 8} {s : State} (hP : Closed K
    P) (hK : Foot.execMts K = true) (hs_s : P s) :
    OutAll P (execMts k x d s) := by
  simp only [Foot.execMts, Bool.and_eq_true] at hK
  obtain ⟨hK0, hK1, hK2⟩ := hK
  unfold execMts
  with_reducible repeat' first
    | assumption
    | refine coreStep_closed hP ?_ ?_ ?_
    | refine writeSw_closed hP ?_ ?_
    | refine setRc_closed hP ?_ ?_
    | refine OutAll.mk ?_
    | refine res_done ?_
    | refine res_fault ?_
    | intro _
    | split

def Foot.execNeg (K : Part → Bool) : Bool := Foot.regOp K

theorem execNeg_closed {K : Part → Bool} {P : State → Prop} {k : CoreId} {d : Fin 8} {r : Fin 8} {s : State} (hP : Closed K
    P) (hK : Foot.execNeg K = true) (hs_s : P s) :
    OutAll P (execNeg k d r s) := by
  simp only [Foot.execNeg, Bool.and_eq_true] at hK
  unfold execNeg
  with_reducible repeat' first
    | assumption
    | refine regOp_closed hP ?_ ?_
    | refine OutAll.mk ?_
    | intro _

def Foot.execNega (K : Part → Bool) : Bool := Foot.accGroup K

theorem execNega_closed {K : Part → Bool} {P : State → Prop} {k : CoreId} {a : Fin 2} {s : State} (hP : Closed K P) (hK :
    Foot.execNega K = true) (hs_s : P s) :
    OutAll P (execNega k a s) := by
  simp only [Foot.execNega, Bool.and_eq_true] at hK
  unfold execNega
  with_reducible repeat' first
    | assumption
    | refine accGroup_closed hP ?_ ?_
    | refine OutAll.mk ?_
    | intro _

def Foot.execNotReg (K : Part → Bool) : Bool := Foot.regOp K

theorem execNotReg_closed {K : Part → Bool} {P : State → Prop} {k : CoreId} {d : Fin 8} {r : Fin 8} {s : State} (hP : Closed
    K P) (hK : Foot.execNotReg K = true) (hs_s : P s) :
    OutAll P (execNotReg k d r s) := by
  simp only [Foot.execNotReg, Bool.and_eq_true] at hK
  unfold execNotReg
  with_reducible repeat' first
    | assumption
    | refine regOp_closed hP ?_ ?_
    | refine OutAll.mk ?_
    | intro _

def Foot.execOrImm (K : Part → Bool) : Bool := Foot.immOp K

theorem execOrImm_closed {K : Part → Bool} {P : State → Prop} {k : CoreId} {d : Fin 8} {v : W16} {s : State} (hP : Closed K
    P) (hK : Foot.execOrImm K = true) (hs_s : P s) :
    OutAll P (execOrImm k d v s) := by
  simp only [Foot.execOrImm, Bool.and_eq_true] at hK
  unfold execOrImm
  with_reducible repeat' first
    | assumption
    | refine immOp_closed hP ?_ ?_
    | refine OutAll.mk ?_
    | intro _

def Foot.execOrReg (K : Part → Bool) : Bool := Foot.regOp K

theorem execOrReg_closed {K : Part → Bool} {P : State → Prop} {k : CoreId} {d : Fin 8} {r : Fin 8} {s : State} (hP : Closed K
    P) (hK : Foot.execOrReg K = true) (hs_s : P s) :
    OutAll P (execOrReg k d r s) := by
  simp only [Foot.execOrReg, Bool.and_eq_true] at hK
  unfold execOrReg
  with_reducible repeat' first
    | assumption
    | refine regOp_closed hP ?_ ?_
    | refine OutAll.mk ?_
    | intro _

def Foot.execPairedWord (K : Part → Bool) : Bool := Foot.coreStep K && (Foot.setD K && (Foot.putAlu K))

theorem execPairedWord_closed {K : Part → Bool} {P : State → Prop} {k : CoreId} {w : BitVec 15} {s : State} (hP : Closed K P)
    (hK : Foot.execPairedWord K = true) (hs_s : P s) :
    OutAll P (execPairedWord k w s) := by
  simp only [Foot.execPairedWord, Bool.and_eq_true] at hK
  obtain ⟨hK0, hK1, hK2⟩ := hK
  unfold execPairedWord
  with_reducible repeat' first
    | assumption
    | refine coreStep_closed hP ?_ ?_ ?_
    | refine setD_closed hP ?_ ?_
    | refine putAlu_closed hP ?_ ?_
    | refine OutAll.mk ?_
    | refine res_done ?_
    | refine res_fault ?_
    | intro _
    | (extract_lets +onlyGivenNames x; apply thenHave (p := P x); (unfold x; clear x); rotate_left 1; (intro hx; clear_value x))
    | (extract_lets +onlyGivenNames x; clear_value x)
    | refine ite_closed ?_ ?_
    | refine res_ite ?_ ?_
    | split

def Foot.execRnda (K : Part → Bool) : Bool := Foot.accGroup K

theorem execRnda_closed {K : Part → Bool} {P : State → Prop} {k : CoreId} {a : Fin 2} {s : State} (hP : Closed K P) (hK :
    Foot.execRnda K = true) (hs_s : P s) :
    OutAll P (execRnda k a s) := by
  simp only [Foot.execRnda, Bool.and_eq_true] at hK
  unfold execRnda
  with_reducible repeat' first
    | assumption
    | refine accGroup_closed hP ?_ ?_
    | refine OutAll.mk ?_
    | intro _

def Foot.execRol (K : Part → Bool) : Bool := Foot.shiftImm K

theorem execRol_closed {K : Part → Bool} {P : State → Prop} {k : CoreId} {d : Fin 8} {n : Fin 16} {s : State} (hP : Closed K
    P) (hK : Foot.execRol K = true) (hs_s : P s) :
    OutAll P (execRol k d n s) := by
  simp only [Foot.execRol, Bool.and_eq_true] at hK
  unfold execRol
  with_reducible repeat' first
    | assumption
    | refine shiftImm_closed hP ?_ ?_
    | refine OutAll.mk ?_

def Foot.execRolReg (K : Part → Bool) : Bool := Foot.shiftReg K

theorem execRolReg_closed {K : Part → Bool} {P : State → Prop} {k : CoreId} {d : Fin 8} {r : Fin 8} {s : State} (hP : Closed
    K P) (hK : Foot.execRolReg K = true) (hs_s : P s) :
    OutAll P (execRolReg k d r s) := by
  simp only [Foot.execRolReg, Bool.and_eq_true] at hK
  unfold execRolReg
  with_reducible repeat' first
    | assumption
    | refine shiftReg_closed hP ?_ ?_
    | refine OutAll.mk ?_

def Foot.execRor (K : Part → Bool) : Bool := Foot.shiftImm K

theorem execRor_closed {K : Part → Bool} {P : State → Prop} {k : CoreId} {d : Fin 8} {n : Fin 16} {s : State} (hP : Closed K
    P) (hK : Foot.execRor K = true) (hs_s : P s) :
    OutAll P (execRor k d n s) := by
  simp only [Foot.execRor, Bool.and_eq_true] at hK
  unfold execRor
  with_reducible repeat' first
    | assumption
    | refine shiftImm_closed hP ?_ ?_
    | refine OutAll.mk ?_

def Foot.execRorReg (K : Part → Bool) : Bool := Foot.shiftReg K

theorem execRorReg_closed {K : Part → Bool} {P : State → Prop} {k : CoreId} {d : Fin 8} {r : Fin 8} {s : State} (hP : Closed
    K P) (hK : Foot.execRorReg K = true) (hs_s : P s) :
    OutAll P (execRorReg k d r s) := by
  simp only [Foot.execRorReg, Bool.and_eq_true] at hK
  unfold execRorReg
  with_reducible repeat' first
    | assumption
    | refine shiftReg_closed hP ?_ ?_
    | refine OutAll.mk ?_

def Foot.execSat32 (K : Part → Bool) : Bool := Foot.accGroup K

theorem execSat32_closed {K : Part → Bool} {P : State → Prop} {k : CoreId} {a : Fin 2} {s : State} (hP : Closed K P) (hK :
    Foot.execSat32 K = true) (hs_s : P s) :
    OutAll P (execSat32 k a s) := by
  simp only [Foot.execSat32, Bool.and_eq_true] at hK
  unfold execSat32
  with_reducible repeat' first
    | assumption
    | refine accGroup_closed hP ?_ ?_
    | refine OutAll.mk ?_
    | intro _

def Foot.execSbc (K : Part → Bool) : Bool := Foot.regOp K

theorem execSbc_closed {K : Part → Bool} {P : State → Prop} {k : CoreId} {d : Fin 8} {r : Fin 8} {s : State} (hP : Closed K
    P) (hK : Foot.execSbc K = true) (hs_s : P s) :
    OutAll P (execSbc k d r s) := by
  simp only [Foot.execSbc, Bool.and_eq_true] at hK
  unfold execSbc
  with_reducible repeat' first
    | assumption
    | refine regOp_closed hP ?_ ?_
    | refine OutAll.mk ?_
    | intro _

def Foot.execSbcImm (K : Part → Bool) : Bool := Foot.immOp K

theorem execSbcImm_closed {K : Part → Bool} {P : State → Prop} {k : CoreId} {d : Fin 8} {v : W16} {s : State} (hP : Closed K
    P) (hK : Foot.execSbcImm K = true) (hs_s : P s) :
    OutAll P (execSbcImm k d v s) := by
  simp only [Foot.execSbcImm, Bool.and_eq_true] at hK
  unfold execSbcImm
  with_reducible repeat' first
    | assumption
    | refine immOp_closed hP ?_ ?_
    | refine OutAll.mk ?_
    | intro _

def Foot.execShl (K : Part → Bool) : Bool := Foot.shiftImm K

theorem execShl_closed {K : Part → Bool} {P : State → Prop} {k : CoreId} {d : Fin 8} {n : Fin 16} {s : State} (hP : Closed K
    P) (hK : Foot.execShl K = true) (hs_s : P s) :
    OutAll P (execShl k d n s) := by
  simp only [Foot.execShl, Bool.and_eq_true] at hK
  unfold execShl
  with_reducible repeat' first
    | assumption
    | refine shiftImm_closed hP ?_ ?_
    | refine OutAll.mk ?_

def Foot.execShlReg (K : Part → Bool) : Bool := Foot.shiftReg K

theorem execShlReg_closed {K : Part → Bool} {P : State → Prop} {k : CoreId} {d : Fin 8} {r : Fin 8} {s : State} (hP : Closed
    K P) (hK : Foot.execShlReg K = true) (hs_s : P s) :
    OutAll P (execShlReg k d r s) := by
  simp only [Foot.execShlReg, Bool.and_eq_true] at hK
  unfold execShlReg
  with_reducible repeat' first
    | assumption
    | refine shiftReg_closed hP ?_ ?_
    | refine OutAll.mk ?_

def Foot.execShla (K : Part → Bool) : Bool := Foot.accGroup K

theorem execShla_closed {K : Part → Bool} {P : State → Prop} {k : CoreId} {a : Fin 2} {n : Fin 64} {s : State} (hP : Closed K
    P) (hK : Foot.execShla K = true) (hs_s : P s) :
    OutAll P (execShla k a n s) := by
  simp only [Foot.execShla, Bool.and_eq_true] at hK
  unfold execShla
  with_reducible repeat' first
    | assumption
    | refine accGroup_closed hP ?_ ?_
    | refine OutAll.mk ?_
    | intro _

def Foot.execShls (K : Part → Bool) : Bool := Foot.shiftImm K

theorem execShls_closed {K : Part → Bool} {P : State → Prop} {k : CoreId} {d : Fin 8} {n : Fin 16} {s : State} (hP : Closed K
    P) (hK : Foot.execShls K = true) (hs_s : P s) :
    OutAll P (execShls k d n s) := by
  simp only [Foot.execShls, Bool.and_eq_true] at hK
  unfold execShls
  with_reducible repeat' first
    | assumption
    | refine shiftImm_closed hP ?_ ?_
    | refine OutAll.mk ?_

def Foot.execStsat (K : Part → Bool) : Bool := Foot.aluStep K

theorem execStsat_closed {K : Part → Bool} {P : State → Prop} {k : CoreId} {d : Fin 8} {a : Fin 2} {s : State} (hP : Closed K
    P) (hK : Foot.execStsat K = true) (hs_s : P s) :
    OutAll P (execStsat k d a s) := by
  simp only [Foot.execStsat, Bool.and_eq_true] at hK
  unfold execStsat
  with_reducible repeat' first
    | assumption
    | refine aluStep_closed hP ?_ ?_
    | refine OutAll.mk ?_
    | intro _

def Foot.execSub (K : Part → Bool) : Bool := Foot.regOp K

theorem execSub_closed {K : Part → Bool} {P : State → Prop} {k : CoreId} {d : Fin 8} {r : Fin 8} {s : State} (hP : Closed K
    P) (hK : Foot.execSub K = true) (hs_s : P s) :
    OutAll P (execSub k d r s) := by
  simp only [Foot.execSub, Bool.and_eq_true] at hK
  unfold execSub
  with_reducible repeat' first
    | assumption
    | refine regOp_closed hP ?_ ?_
    | refine OutAll.mk ?_
    | intro _

def Foot.execSubImm (K : Part → Bool) : Bool := Foot.immOp K

theorem execSubImm_closed {K : Part → Bool} {P : State → Prop} {k : CoreId} {d : Fin 8} {v : W16} {s : State} (hP : Closed K
    P) (hK : Foot.execSubImm K = true) (hs_s : P s) :
    OutAll P (execSubImm k d v s) := by
  simp only [Foot.execSubImm, Bool.and_eq_true] at hK
  unfold execSubImm
  with_reducible repeat' first
    | assumption
    | refine immOp_closed hP ?_ ?_
    | refine OutAll.mk ?_
    | intro _

def Foot.execSuba (K : Part → Bool) : Bool := Foot.accGroup K

theorem execSuba_closed {K : Part → Bool} {P : State → Prop} {k : CoreId} {a : Fin 2} {s : State} (hP : Closed K P) (hK :
    Foot.execSuba K = true) (hs_s : P s) :
    OutAll P (execSuba k a s) := by
  simp only [Foot.execSuba, Bool.and_eq_true] at hK
  unfold execSuba
  with_reducible repeat' first
    | assumption
    | refine accGroup_closed hP ?_ ?_
    | refine OutAll.mk ?_
    | intro _

def Foot.execSubq (K : Part → Bool) : Bool := Foot.quickOp K

theorem execSubq_closed {K : Part → Bool} {P : State → Prop} {k : CoreId} {d : Fin 8} {u : BitVec 4} {s : State} (hP : Closed
    K P) (hK : Foot.execSubq K = true) (hs_s : P s) :
    OutAll P (execSubq k d u s) := by
  simp only [Foot.execSubq, Bool.and_eq_true] at hK
  unfold execSubq
  with_reducible repeat' first
    | assumption
    | refine quickOp_closed hP ?_ ?_
    | refine OutAll.mk ?_
    | intro _

def Foot.execSubs (K : Part → Bool) : Bool := Foot.regOp K

theorem execSubs_closed {K : Part → Bool} {P : State → Prop} {k : CoreId} {d : Fin 8} {r : Fin 8} {s : State} (hP : Closed K
    P) (hK : Foot.execSubs K = true) (hs_s : P s) :
    OutAll P (execSubs k d r s) := by
  simp only [Foot.execSubs, Bool.and_eq_true] at hK
  unfold execSubs
  with_reducible repeat' first
    | assumption
    | refine regOp_closed hP ?_ ?_
    | refine OutAll.mk ?_
    | intro _

def Foot.execSubsImm (K : Part → Bool) : Bool := Foot.immOp K

theorem execSubsImm_closed {K : Part → Bool} {P : State → Prop} {k : CoreId} {d : Fin 8} {v : W16} {s : State} (hP : Closed K
    P) (hK : Foot.execSubsImm K = true) (hs_s : P s) :
    OutAll P (execSubsImm k d v s) := by
  simp only [Foot.execSubsImm, Bool.and_eq_true] at hK
  unfold execSubsImm
  with_reducible repeat' first
    | assumption
    | refine immOp_closed hP ?_ ?_
    | refine OutAll.mk ?_
    | intro _

def Foot.execSubsq (K : Part → Bool) : Bool := Foot.quickOp K

theorem execSubsq_closed {K : Part → Bool} {P : State → Prop} {k : CoreId} {d : Fin 8} {u : BitVec 4} {s : State} (hP :
    Closed K P) (hK : Foot.execSubsq K = true) (hs_s : P s) :
    OutAll P (execSubsq k d u s) := by
  simp only [Foot.execSubsq, Bool.and_eq_true] at hK
  unfold execSubsq
  with_reducible repeat' first
    | assumption
    | refine quickOp_closed hP ?_ ?_
    | refine OutAll.mk ?_
    | intro _

def Foot.execSwapb (K : Part → Bool) : Bool := Foot.regOp K

theorem execSwapb_closed {K : Part → Bool} {P : State → Prop} {k : CoreId} {d : Fin 8} {r : Fin 8} {s : State} (hP : Closed K
    P) (hK : Foot.execSwapb K = true) (hs_s : P s) :
    OutAll P (execSwapb k d r s) := by
  simp only [Foot.execSwapb, Bool.and_eq_true] at hK
  unfold execSwapb
  with_reducible repeat' first
    | assumption
    | refine regOp_closed hP ?_ ?_
    | refine OutAll.mk ?_
    | intro _

def Foot.execTst (K : Part → Bool) : Bool := Foot.regOp K

theorem execTst_closed {K : Part → Bool} {P : State → Prop} {k : CoreId} {d : Fin 8} {r : Fin 8} {s : State} (hP : Closed K
    P) (hK : Foot.execTst K = true) (hs_s : P s) :
    OutAll P (execTst k d r s) := by
  simp only [Foot.execTst, Bool.and_eq_true] at hK
  unfold execTst
  with_reducible repeat' first
    | assumption
    | refine regOp_closed hP ?_ ?_
    | refine OutAll.mk ?_
    | intro _

def Foot.execTstImm (K : Part → Bool) : Bool := Foot.immOp K

theorem execTstImm_closed {K : Part → Bool} {P : State → Prop} {k : CoreId} {d : Fin 8} {v : W16} {s : State} (hP : Closed K
    P) (hK : Foot.execTstImm K = true) (hs_s : P s) :
    OutAll P (execTstImm k d v s) := by
  simp only [Foot.execTstImm, Bool.and_eq_true] at hK
  unfold execTstImm
  with_reducible repeat' first
    | assumption
    | refine immOp_closed hP ?_ ?_
    | refine OutAll.mk ?_
    | intro _

def Foot.execXorImm (K : Part → Bool) : Bool := Foot.immOp K

theorem execXorImm_closed {K : Part → Bool} {P : State → Prop} {k : CoreId} {d : Fin 8} {v : W16} {s : State} (hP : Closed K
    P) (hK : Foot.execXorImm K = true) (hs_s : P s) :
    OutAll P (execXorImm k d v s) := by
  simp only [Foot.execXorImm, Bool.and_eq_true] at hK
  unfold execXorImm
  with_reducible repeat' first
    | assumption
    | refine immOp_closed hP ?_ ?_
    | refine OutAll.mk ?_
    | intro _

def Foot.execXorReg (K : Part → Bool) : Bool := Foot.regOp K

theorem execXorReg_closed {K : Part → Bool} {P : State → Prop} {k : CoreId} {d : Fin 8} {r : Fin 8} {s : State} (hP : Closed
    K P) (hK : Foot.execXorReg K = true) (hs_s : P s) :
    OutAll P (execXorReg k d r s) := by
  simp only [Foot.execXorReg, Bool.and_eq_true] at hK
  unfold execXorReg
  with_reducible repeat' first
    | assumption
    | refine regOp_closed hP ?_ ?_
    | refine OutAll.mk ?_
    | intro _

end Sys2Proof.Machine
end

