-- ==== Sys2Proof/Laws/ClosedCoreFlow.lean ====
section
/-! SUPPORT. What the functions of Machine/CoreFlow.lean can write, and that they keep every closed property (Laws/Closed.lean). -/
namespace Sys2Proof.Machine

set_option Elab.async false
set_option linter.all false

def Foot.branchIf (K : Part → Bool) : Bool := Foot.branchTo K

theorem branchIf_closed {K : Part → Bool} {P : State → Prop} {s : State} {k : Nat} {len : Nat} {o : Int} {c : Bool} (hP :
    Closed K P) (hK : Foot.branchIf K = true) (hs_s : P s) :
    P (branchIf s k len o c).st := by
  simp only [Foot.branchIf, Bool.and_eq_true] at hK
  unfold branchIf
  with_reducible repeat' first
    | assumption
    | refine branchTo_closed hP ?_ ?_
    | refine res_done ?_
    | refine res_jump ?_
    | refine ite_closed ?_ ?_
    | refine res_ite ?_ ?_
    | split

def Foot.callTo (K : Part → Bool) : Bool := Foot.store K && (Foot.advance K && (Foot.setPc K && (Foot.setP K &&
    (Foot.leaveBody K))))

theorem callTo_closed {K : Part → Bool} {P : State → Prop} {s : State} {k : Nat} {len : Nat} {target : Int} (hP : Closed K P)
    (hK : Foot.callTo K = true) (hs_s : P s) :
    P (callTo s k len target).st := by
  simp only [Foot.callTo, Bool.and_eq_true] at hK
  obtain ⟨hK0, hK1, hK2, hK3, hK4⟩ := hK
  unfold callTo
  with_reducible repeat' first
    | assumption
    | refine store_closed hP ?_ ?_
    | refine advance_closed hP ?_ ?_
    | refine setPc_closed hP ?_ ?_
    | refine setP_closed hP ?_ ?_
    | refine leaveBody_closed hP ?_ ?_
    | refine res_jump ?_
    | refine res_fault ?_
    | refine ExcAll.snd ?_
    | refine ExcAll.ok ?_ ?_
    | refine ExcAll.err ?_
    | refine of_ok (by assumption) ?_
    | refine of_okSnd (by assumption) ?_
    | refine of_err (by assumption) ?_
    | (extract_lets +onlyGivenNames x; apply thenHave (p := P x); (unfold x; clear x); rotate_left 1; (intro hx; clear_value x))
    | (extract_lets +onlyGivenNames x; clear_value x)
    | split

def Foot.execBar (K : Part → Bool) : Bool := Foot.coreStep K

theorem execBar_closed {K : Part → Bool} {P : State → Prop} {k : CoreId} {s : State} (hP : Closed K P) (hK : Foot.execBar K =
    true) (hs_s : P s) :
    OutAll P (execBar k s) := by
  simp only [Foot.execBar, Bool.and_eq_true] at hK
  unfold execBar
  with_reducible repeat' first
    | assumption
    | refine coreStep_closed hP ?_ ?_ ?_
    | refine OutAll.mk ?_
    | refine res_done ?_
    | refine res_stay ?_
    | refine res_jump ?_
    | refine res_fault ?_
    | (dsimp -zeta only)
    | refine of_snd (by assumption) ?_
    | refine of_fst (by assumption) ?_
    | refine of_mid (by assumption) ?_
    | refine of_trd (by assumption) ?_
    | refine of_fth (by assumption) ?_
    | refine of_done (by assumption) ?_
    | refine of_stay (by assumption) ?_
    | refine of_jump (by assumption) ?_
    | refine of_fault (by assumption) ?_
    | intro _
    | (extract_lets +onlyGivenNames x; apply thenHave (p := P x); (unfold x; clear x); rotate_left 1; (intro hx; clear_value x))
    | (extract_lets +onlyGivenNames x; apply thenHave (p := P x.st); (unfold x; clear x); rotate_left 1; (intro hx; clear_value x))
    | (extract_lets +onlyGivenNames x; apply thenHave (p := P x.2); (unfold x; clear x); rotate_left 1; (intro hx; clear_value x))
    | (extract_lets +onlyGivenNames x; apply thenHave (p := P x.1); (unfold x; clear x); rotate_left 1; (intro hx; clear_value x))
    | (extract_lets +onlyGivenNames x; apply thenHave (p := P x.2.1); (unfold x; clear x); rotate_left 1; (intro hx; clear_value x))
    | (extract_lets +onlyGivenNames x; apply thenHave (p := P x.2.2); (unfold x; clear x); rotate_left 1; (intro hx; clear_value x))
    | (extract_lets +onlyGivenNames x; clear_value x)
    | (extract_lets +onlyGivenNames x)
    | refine ite_closed ?_ ?_
    | refine res_ite ?_ ?_
    | split

def Foot.execBcc (K : Part → Bool) : Bool := Foot.coreStep K && (Foot.branchIf K)

theorem execBcc_closed {K : Part → Bool} {P : State → Prop} {k : CoreId} {c : Fin 8} {o : BitVec 8} {s : State} (hP : Closed
    K P) (hK : Foot.execBcc K = true) (hs_s : P s) :
    OutAll P (execBcc k c o s) := by
  simp only [Foot.execBcc, Bool.and_eq_true] at hK
  obtain ⟨hK0, hK1⟩ := hK
  unfold execBcc
  with_reducible repeat' first
    | assumption
    | refine coreStep_closed hP ?_ ?_ ?_
    | refine branchIf_closed hP ?_ ?_
    | refine OutAll.mk ?_
    | intro _

def Foot.execBccL (K : Part → Bool) : Bool := Foot.coreStep K && (Foot.branchIf K)

theorem execBccL_closed {K : Part → Bool} {P : State → Prop} {k : CoreId} {c : Fin 16} {o : BitVec 16} {s : State} (hP :
    Closed K P) (hK : Foot.execBccL K = true) (hs_s : P s) :
    OutAll P (execBccL k c o s) := by
  simp only [Foot.execBccL, Bool.and_eq_true] at hK
  obtain ⟨hK0, hK1⟩ := hK
  unfold execBccL
  with_reducible repeat' first
    | assumption
    | refine coreStep_closed hP ?_ ?_ ?_
    | refine branchIf_closed hP ?_ ?_
    | refine OutAll.mk ?_
    | refine res_fault ?_
    | intro _
    | refine ite_closed ?_ ?_
    | refine res_ite ?_ ?_
    | split

def Foot.execBra (K : Part → Bool) : Bool := Foot.coreStep K && (Foot.branchIf K)

theorem execBra_closed {K : Part → Bool} {P : State → Prop} {k : CoreId} {o : BitVec 8} {s : State} (hP : Closed K P) (hK :
    Foot.execBra K = true) (hs_s : P s) :
    OutAll P (execBra k o s) := by
  simp only [Foot.execBra, Bool.and_eq_true] at hK
  obtain ⟨hK0, hK1⟩ := hK
  unfold execBra
  with_reducible repeat' first
    | assumption
    | refine coreStep_closed hP ?_ ?_ ?_
    | refine branchIf_closed hP ?_ ?_
    | refine OutAll.mk ?_
    | intro _

def Foot.execCall (K : Part → Bool) : Bool := Foot.coreStep K && (Foot.callTo K)

theorem execCall_closed {K : Part → Bool} {P : State → Prop} {k : CoreId} {a : BitVec 24} {s : State} (hP : Closed K P) (hK :
    Foot.execCall K = true) (hs_s : P s) :
    OutAll P (execCall k a s) := by
  simp only [Foot.execCall, Bool.and_eq_true] at hK
  obtain ⟨hK0, hK1⟩ := hK
  unfold execCall
  with_reducible repeat' first
    | assumption
    | refine coreStep_closed hP ?_ ?_ ?_
    | refine callTo_closed hP ?_ ?_
    | refine OutAll.mk ?_
    | intro _

def Foot.execCallInd (K : Part → Bool) : Bool := Foot.coreStep K && (Foot.callTo K)

theorem execCallInd_closed {K : Part → Bool} {P : State → Prop} {k : CoreId} {n : Fin 8} {s : State} (hP : Closed K P) (hK :
    Foot.execCallInd K = true) (hs_s : P s) :
    OutAll P (execCallInd k n s) := by
  simp only [Foot.execCallInd, Bool.and_eq_true] at hK
  obtain ⟨hK0, hK1⟩ := hK
  unfold execCallInd
  with_reducible repeat' first
    | assumption
    | refine coreStep_closed hP ?_ ?_ ?_
    | refine callTo_closed hP ?_ ?_
    | refine OutAll.mk ?_
    | intro _

def Foot.fencei (K : Part → Bool) : Bool := Foot.dropLoopBuffer K && (Foot.dropQueue K && (Foot.drainAll K && ((allFld fun f
    => !(f == .icOn || f == .icWord) || K (.fld f)))))

theorem fencei_closed {K : Part → Bool} {P : State → Prop} {s : State} {k : Nat} (hP : Closed K P) (hK : Foot.fencei K =
    true) (hs_s : P s) :
    P (fencei s k) := by
  simp only [Foot.fencei, Bool.and_eq_true] at hK
  obtain ⟨hK0, hK1, hK2, hK3⟩ := hK
  unfold fencei
  with_reducible repeat' first
    | assumption
    | refine dropLoopBuffer_closed hP ?_ ?_
    | refine dropQueue_closed hP ?_ ?_
    | refine drainAll_closed hP ?_ ?_
    | refine Closed.when ?_ ?_
    | refine hP.resetKeys (fun k hk => allFld_imp hK3 hk) ?_
    | refine res_done ?_
    | refine res_stay ?_
    | refine res_jump ?_
    | refine res_fault ?_
    | (dsimp -zeta only)
    | refine of_snd (by assumption) ?_
    | refine of_fst (by assumption) ?_
    | refine of_mid (by assumption) ?_
    | refine of_trd (by assumption) ?_
    | refine of_fth (by assumption) ?_
    | refine of_done (by assumption) ?_
    | refine of_stay (by assumption) ?_
    | refine of_jump (by assumption) ?_
    | refine of_fault (by assumption) ?_
    | intro _
    | (extract_lets +onlyGivenNames x; apply thenHave (p := P x); (unfold x; clear x); rotate_left 1; (intro hx; clear_value x))
    | (extract_lets +onlyGivenNames x; apply thenHave (p := P x.st); (unfold x; clear x); rotate_left 1; (intro hx; clear_value x))
    | (extract_lets +onlyGivenNames x; apply thenHave (p := P x.2); (unfold x; clear x); rotate_left 1; (intro hx; clear_value x))
    | (extract_lets +onlyGivenNames x; apply thenHave (p := P x.1); (unfold x; clear x); rotate_left 1; (intro hx; clear_value x))
    | (extract_lets +onlyGivenNames x; apply thenHave (p := P x.2.1); (unfold x; clear x); rotate_left 1; (intro hx; clear_value x))
    | (extract_lets +onlyGivenNames x; apply thenHave (p := P x.2.2); (unfold x; clear x); rotate_left 1; (intro hx; clear_value x))
    | (extract_lets +onlyGivenNames x; clear_value x)
    | (extract_lets +onlyGivenNames x)
    | refine ite_closed ?_ ?_
    | refine res_ite ?_ ?_
    | split

theorem fencei_get {s : State} {k : Nat} {fld0 : Fld} {i0 j0 : Nat} (hK : Foot.fencei (notFld fld0) = true)  : (fencei s
    k).get fld0 i0 j0 = s.get fld0 i0 j0 :=
  fencei_closed (P := fun x => x.get fld0 i0 j0 = s.get fld0 i0 j0) (field_closed fld0 i0 j0 _) hK  rfl

def Foot.execFencei (K : Part → Bool) : Bool := Foot.coreStep K && (Foot.fencei K)

theorem execFencei_closed {K : Part → Bool} {P : State → Prop} {k : CoreId} {s : State} (hP : Closed K P) (hK :
    Foot.execFencei K = true) (hs_s : P s) :
    OutAll P (execFencei k s) := by
  simp only [Foot.execFencei, Bool.and_eq_true] at hK
  obtain ⟨hK0, hK1⟩ := hK
  unfold execFencei
  with_reducible repeat' first
    | assumption
    | refine coreStep_closed hP ?_ ?_ ?_
    | refine fencei_closed hP ?_ ?_
    | refine OutAll.mk ?_
    | refine res_done ?_
    | intro _

def Foot.execGate (K : Part → Bool) : Bool := Foot.coreStep K && (Foot.gateCall K)

theorem execGate_closed {K : Part → Bool} {P : State → Prop} {k : CoreId} {g : BitVec 8} {s : State} (hP : Closed K P) (hK :
    Foot.execGate K = true) (hs_s : P s) :
    OutAll P (execGate k g s) := by
  simp only [Foot.execGate, Bool.and_eq_true] at hK
  obtain ⟨hK0, hK1⟩ := hK
  unfold execGate
  with_reducible repeat' first
    | assumption
    | refine coreStep_closed hP ?_ ?_ ?_
    | refine gateCall_closed hP ?_ ?_
    | refine OutAll.mk ?_
    | refine res_fault ?_
    | intro _
    | refine ite_closed ?_ ?_
    | refine res_ite ?_ ?_
    | split

def Foot.execGret (K : Part → Bool) : Bool := Foot.coreStep K && (Foot.gateReturn K)

theorem execGret_closed {K : Part → Bool} {P : State → Prop} {k : CoreId} {s : State} (hP : Closed K P) (hK : Foot.execGret K
    = true) (hs_s : P s) :
    OutAll P (execGret k s) := by
  simp only [Foot.execGret, Bool.and_eq_true] at hK
  obtain ⟨hK0, hK1⟩ := hK
  unfold execGret
  with_reducible repeat' first
    | assumption
    | refine coreStep_closed hP ?_ ?_ ?_
    | refine gateReturn_closed hP ?_ ?_
    | refine OutAll.mk ?_
    | refine res_fault ?_
    | intro _
    | refine ite_closed ?_ ?_
    | refine res_ite ?_ ?_
    | split

def Foot.execHalt (K : Part → Bool) : Bool := K (.fld .coreHalt) && (Foot.coreStep K)

theorem execHalt_closed {K : Part → Bool} {P : State → Prop} {k : CoreId} {s : State} (hP : Closed K P) (hK : Foot.execHalt K
    = true) (hs_s : P s) :
    OutAll P (execHalt k s) := by
  simp only [Foot.execHalt, Bool.and_eq_true] at hK
  obtain ⟨hK0, hK1⟩ := hK
  unfold execHalt
  with_reducible repeat' first
    | assumption
    | refine coreStep_closed hP ?_ ?_ ?_
    | refine hP.raise ?_ ?_
    | refine OutAll.mk ?_
    | refine res_done ?_
    | intro _

def Foot.execJmp (K : Part → Bool) : Bool := Foot.coreStep K && (Foot.branchTo K)

theorem execJmp_closed {K : Part → Bool} {P : State → Prop} {k : CoreId} {a : BitVec 24} {s : State} (hP : Closed K P) (hK :
    Foot.execJmp K = true) (hs_s : P s) :
    OutAll P (execJmp k a s) := by
  simp only [Foot.execJmp, Bool.and_eq_true] at hK
  obtain ⟨hK0, hK1⟩ := hK
  unfold execJmp
  with_reducible repeat' first
    | assumption
    | refine coreStep_closed hP ?_ ?_ ?_
    | refine branchTo_closed hP ?_ ?_
    | refine OutAll.mk ?_
    | refine res_jump ?_
    | intro _

def Foot.execJmpInd (K : Part → Bool) : Bool := Foot.coreStep K && (Foot.branchTo K)

theorem execJmpInd_closed {K : Part → Bool} {P : State → Prop} {k : CoreId} {n : Fin 8} {s : State} (hP : Closed K P) (hK :
    Foot.execJmpInd K = true) (hs_s : P s) :
    OutAll P (execJmpInd k n s) := by
  simp only [Foot.execJmpInd, Bool.and_eq_true] at hK
  obtain ⟨hK0, hK1⟩ := hK
  unfold execJmpInd
  with_reducible repeat' first
    | assumption
    | refine coreStep_closed hP ?_ ?_ ?_
    | refine branchTo_closed hP ?_ ?_
    | refine OutAll.mk ?_
    | refine res_jump ?_
    | intro _

def Foot.execLoop (K : Part → Bool) : Bool := K (.fld .loopEnd) && (K (.fld .loopStart) && (K (.fld .loopOn) && (K (.fld
    .lbOn) && (K (.fld .lbPhase) && (K (.fld .loopCnt) && (Foot.coreStep K && (Foot.setPc K && (Foot.dropQueue K))))))))

theorem execLoop_closed {K : Part → Bool} {P : State → Prop} {k : CoreId} {n : Fin 512 ⊕ Fin 8} {len : BitVec 16} {s : State}
    (hP : Closed K P) (hK : Foot.execLoop K = true) (hs_s : P s) :
    OutAll P (execLoop k n len s) := by
  simp only [Foot.execLoop, Bool.and_eq_true] at hK
  obtain ⟨hK0, hK1, hK2, hK3, hK4, hK5, hK6, hK7, hK8⟩ := hK
  unfold execLoop
  with_reducible repeat' first
    | assumption
    | refine coreStep_closed hP ?_ ?_ ?_
    | refine setPc_closed hP ?_ ?_
    | refine dropQueue_closed hP ?_ ?_
    | refine hP.put _ _ _ _ _ ?_ ?_
    | refine hP.clear ?_ ?_
    | refine hP.raise ?_ ?_
    | refine OutAll.mk ?_
    | refine res_jump ?_
    | refine res_fault ?_
    | intro _
    | (extract_lets +onlyGivenNames x; apply thenHave (p := P x); (unfold x; clear x); rotate_left 1; (intro hx; clear_value x))
    | (extract_lets +onlyGivenNames x; clear_value x)
    | refine ite_closed ?_ ?_
    | refine res_ite ?_ ?_
    | split

def Foot.execNop (K : Part → Bool) : Bool := Foot.coreStep K

theorem execNop_closed {K : Part → Bool} {P : State → Prop} {k : CoreId} {s : State} (hP : Closed K P) (hK : Foot.execNop K =
    true) (hs_s : P s) :
    OutAll P (execNop k s) := by
  simp only [Foot.execNop, Bool.and_eq_true] at hK
  unfold execNop
  with_reducible repeat' first
    | assumption
    | refine coreStep_closed hP ?_ ?_ ?_
    | refine OutAll.mk ?_
    | refine res_done ?_
    | refine res_stay ?_
    | refine res_jump ?_
    | refine res_fault ?_
    | (dsimp -zeta only)
    | refine of_snd (by assumption) ?_
    | refine of_fst (by assumption) ?_
    | refine of_mid (by assumption) ?_
    | refine of_trd (by assumption) ?_
    | refine of_fth (by assumption) ?_
    | refine of_done (by assumption) ?_
    | refine of_stay (by assumption) ?_
    | refine of_jump (by assumption) ?_
    | refine of_fault (by assumption) ?_
    | intro _
    | (extract_lets +onlyGivenNames x; apply thenHave (p := P x); (unfold x; clear x); rotate_left 1; (intro hx; clear_value x))
    | (extract_lets +onlyGivenNames x; apply thenHave (p := P x.st); (unfold x; clear x); rotate_left 1; (intro hx; clear_value x))
    | (extract_lets +onlyGivenNames x; apply thenHave (p := P x.2); (unfold x; clear x); rotate_left 1; (intro hx; clear_value x))
    | (extract_lets +onlyGivenNames x; apply thenHave (p := P x.1); (unfold x; clear x); rotate_left 1; (intro hx; clear_value x))
    | (extract_lets +onlyGivenNames x; apply thenHave (p := P x.2.1); (unfold x; clear x); rotate_left 1; (intro hx; clear_value x))
    | (extract_lets +onlyGivenNames x; apply thenHave (p := P x.2.2); (unfold x; clear x); rotate_left 1; (intro hx; clear_value x))
    | (extract_lets +onlyGivenNames x; clear_value x)
    | (extract_lets +onlyGivenNames x)
    | refine ite_closed ?_ ?_
    | refine res_ite ?_ ?_
    | split

def Foot.execRep (K : Part → Bool) : Bool := K (.fld .repOn) && (K (.fld .repCnt) && (Foot.coreStep K && (Foot.advance K &&
    (Foot.setPc K))))

theorem execRep_closed {K : Part → Bool} {P : State → Prop} {k : CoreId} {n : Option (Fin 512)} {ok : Bool} {s : State} (hP :
    Closed K P) (hK : Foot.execRep K = true) (hs_s : P s) :
    OutAll P (execRep k n ok s) := by
  simp only [Foot.execRep, Bool.and_eq_true] at hK
  obtain ⟨hK0, hK1, hK2, hK3, hK4⟩ := hK
  unfold execRep
  with_reducible repeat' first
    | assumption
    | refine coreStep_closed hP ?_ ?_ ?_
    | refine advance_closed hP ?_ ?_
    | refine setPc_closed hP ?_ ?_
    | refine hP.put _ _ _ _ _ ?_ ?_
    | refine hP.raise ?_ ?_
    | refine OutAll.mk ?_
    | refine res_jump ?_
    | refine res_fault ?_
    | intro _
    | (extract_lets +onlyGivenNames x; apply thenHave (p := P x); (unfold x; clear x); rotate_left 1; (intro hx; clear_value x))
    | (extract_lets +onlyGivenNames x; clear_value x)
    | refine ite_closed ?_ ?_
    | refine res_ite ?_ ?_
    | split

def Foot.execRet (K : Part → Bool) : Bool := Foot.coreStep K && (Foot.load K && (Foot.branchTo K && (Foot.setP K)))

theorem execRet_closed {K : Part → Bool} {P : State → Prop} {k : CoreId} {s : State} (hP : Closed K P) (hK : Foot.execRet K =
    true) (hs_s : P s) :
    OutAll P (execRet k s) := by
  simp only [Foot.execRet, Bool.and_eq_true] at hK
  obtain ⟨hK0, hK1, hK2, hK3⟩ := hK
  unfold execRet
  with_reducible repeat' first
    | assumption
    | refine coreStep_closed hP ?_ ?_ ?_
    | refine load_closed hP ?_ ?_
    | refine branchTo_closed hP ?_ ?_
    | refine setP_closed hP ?_ ?_
    | refine OutAll.mk ?_
    | refine res_done ?_
    | refine res_stay ?_
    | refine res_jump ?_
    | refine res_fault ?_
    | (dsimp -zeta only)
    | refine of_snd (by assumption) ?_
    | refine of_fst (by assumption) ?_
    | refine of_mid (by assumption) ?_
    | refine of_trd (by assumption) ?_
    | refine of_fth (by assumption) ?_
    | refine of_done (by assumption) ?_
    | refine of_stay (by assumption) ?_
    | refine of_jump (by assumption) ?_
    | refine of_fault (by assumption) ?_
    | intro _
    | (extract_lets +onlyGivenNames x; apply thenHave (p := P x); (unfold x; clear x); rotate_left 1; (intro hx; clear_value x))
    | (extract_lets +onlyGivenNames x; apply thenHave (p := P x.st); (unfold x; clear x); rotate_left 1; (intro hx; clear_value x))
    | (extract_lets +onlyGivenNames x; apply thenHave (p := P x.2); (unfold x; clear x); rotate_left 1; (intro hx; clear_value x))
    | (extract_lets +onlyGivenNames x; apply thenHave (p := P x.1); (unfold x; clear x); rotate_left 1; (intro hx; clear_value x))
    | (extract_lets +onlyGivenNames x; apply thenHave (p := P x.2.1); (unfold x; clear x); rotate_left 1; (intro hx; clear_value x))
    | (extract_lets +onlyGivenNames x; apply thenHave (p := P x.2.2); (unfold x; clear x); rotate_left 1; (intro hx; clear_value x))
    | (extract_lets +onlyGivenNames x; clear_value x)
    | (extract_lets +onlyGivenNames x)
    | refine ite_closed ?_ ?_
    | refine res_ite ?_ ?_
    | split

def Foot.execReti (K : Part → Bool) : Bool := Foot.coreStep K && (Foot.mcReti K && (Foot.tickReti K))

theorem execReti_closed {K : Part → Bool} {P : State → Prop} {k : CoreId} {s : State} (hP : Closed K P) (hK : Foot.execReti K
    = true) (hs_s : P s) :
    OutAll P (execReti k s) := by
  simp only [Foot.execReti, Bool.and_eq_true] at hK
  obtain ⟨hK0, hK1, hK2⟩ := hK
  unfold execReti
  with_reducible repeat' first
    | assumption
    | refine coreStep_closed hP ?_ ?_ ?_
    | refine mcReti_closed hP ?_ ?_
    | refine tickReti_closed hP ?_ ?_
    | refine OutAll.mk ?_
    | intro _
    | refine ite_closed ?_ ?_
    | refine res_ite ?_ ?_
    | split

def Foot.execSev (K : Part → Bool) : Bool := Foot.coreStep K && (Foot.corePublish K)

theorem execSev_closed {K : Part → Bool} {P : State → Prop} {k : CoreId} {ch : Channel} {s : State} (hP : Closed K P) (hK :
    Foot.execSev K = true) (hs_s : P s) :
    OutAll P (execSev k ch s) := by
  simp only [Foot.execSev, Bool.and_eq_true] at hK
  obtain ⟨hK0, hK1⟩ := hK
  unfold execSev
  with_reducible repeat' first
    | assumption
    | refine coreStep_closed hP ?_ ?_ ?_
    | refine corePublish_closed hP ?_ ?_
    | refine OutAll.mk ?_
    | refine res_done ?_
    | intro _

def Foot.execSevReg (K : Part → Bool) : Bool := Foot.coreStep K && (Foot.corePublish K)

theorem execSevReg_closed {K : Part → Bool} {P : State → Prop} {k : CoreId} {n : Fin 8} {s : State} (hP : Closed K P) (hK :
    Foot.execSevReg K = true) (hs_s : P s) :
    OutAll P (execSevReg k n s) := by
  simp only [Foot.execSevReg, Bool.and_eq_true] at hK
  obtain ⟨hK0, hK1⟩ := hK
  unfold execSevReg
  with_reducible repeat' first
    | assumption
    | refine coreStep_closed hP ?_ ?_ ?_
    | refine corePublish_closed hP ?_ ?_
    | refine OutAll.mk ?_
    | refine res_done ?_
    | intro _

def Foot.execTrap (K : Part → Bool) : Bool := Foot.coreStep K && (Foot.advance K && (Foot.takeException K))

theorem execTrap_closed {K : Part → Bool} {P : State → Prop} {k : CoreId} {n : Fin 16} {s : State} (hP : Closed K P) (hK :
    Foot.execTrap K = true) (hs_s : P s) :
    OutAll P (execTrap k n s) := by
  simp only [Foot.execTrap, Bool.and_eq_true] at hK
  obtain ⟨hK0, hK1, hK2⟩ := hK
  unfold execTrap
  with_reducible repeat' first
    | assumption
    | refine coreStep_closed hP ?_ ?_ ?_
    | refine advance_closed hP ?_ ?_
    | refine takeException_closed hP ?_ ?_
    | refine OutAll.mk ?_
    | refine res_jump ?_
    | intro _
    | (extract_lets +onlyGivenNames x; apply thenHave (p := P x); (unfold x; clear x); rotate_left 1; (intro hx; clear_value x))
    | (extract_lets +onlyGivenNames x; clear_value x)

def Foot.execWaitu (K : Part → Bool) : Bool := K (.fld .waitReg) && (K (.fld .coreWait) && (Foot.coreStep K))

theorem execWaitu_closed {K : Part → Bool} {P : State → Prop} {k : CoreId} {n : Fin 8} {s : State} (hP : Closed K P) (hK :
    Foot.execWaitu K = true) (hs_s : P s) :
    OutAll P (execWaitu k n s) := by
  simp only [Foot.execWaitu, Bool.and_eq_true] at hK
  obtain ⟨hK0, hK1, hK2⟩ := hK
  unfold execWaitu
  with_reducible repeat' first
    | assumption
    | refine coreStep_closed hP ?_ ?_ ?_
    | refine hP.put _ _ _ _ _ ?_ ?_
    | refine OutAll.mk ?_
    | refine res_done ?_
    | refine res_stay ?_
    | intro _
    | refine ite_closed ?_ ?_
    | refine res_ite ?_ ?_
    | split

def Foot.waituDone (K : Part → Bool) : Bool := K (.fld .coreWait) && (Foot.endInstr K)

theorem waituDone_closed {K : Part → Bool} {P : State → Prop} {s : State} {k : Nat} (hP : Closed K P) (hK : Foot.waituDone K
    = true) (hs_s : P s) :
    P (waituDone s k) := by
  simp only [Foot.waituDone, Bool.and_eq_true] at hK
  obtain ⟨hK0, hK1⟩ := hK
  unfold waituDone
  with_reducible repeat' first
    | assumption
    | refine endInstr_closed hP ?_ ?_
    | refine hP.clear ?_ ?_
    | refine ite_closed ?_ ?_
    | refine res_ite ?_ ?_
    | split

theorem waituDone_get {s : State} {k : Nat} {fld0 : Fld} {i0 j0 : Nat} (hK : Foot.waituDone (notFld fld0) = true)  :
    (waituDone s k).get fld0 i0 j0 = s.get fld0 i0 j0 :=
  waituDone_closed (P := fun x => x.get fld0 i0 j0 = s.get fld0 i0 j0) (field_closed fld0 i0 j0 _) hK  rfl

def Foot.execWfe (K : Part → Bool) : Bool := K (.fld .evLatch) && (K (.fld .coreWait) && (Foot.coreStep K))

theorem execWfe_closed {K : Part → Bool} {P : State → Prop} {k : CoreId} {s : State} (hP : Closed K P) (hK : Foot.execWfe K =
    true) (hs_s : P s) :
    OutAll P (execWfe k s) := by
  simp only [Foot.execWfe, Bool.and_eq_true] at hK
  obtain ⟨hK0, hK1, hK2⟩ := hK
  unfold execWfe
  with_reducible repeat' first
    | assumption
    | refine coreStep_closed hP ?_ ?_ ?_
    | refine hP.put _ _ _ _ _ ?_ ?_
    | refine hP.clear ?_ ?_
    | refine OutAll.mk ?_
    | refine res_done ?_
    | refine res_stay ?_
    | intro _
    | refine ite_closed ?_ ?_
    | refine res_ite ?_ ?_
    | split

def Foot.execWfeWake (K : Part → Bool) : Bool := K (.fld .coreWait) && (K (.fld .evLatch) && (Foot.sleepUndo K &&
    (Foot.endInstr K)))

theorem execWfeWake_closed {K : Part → Bool} {P : State → Prop} {k : CoreId} {s : State} (hP : Closed K P) (hK :
    Foot.execWfeWake K = true) (hs_s : P s) :
    OutAll P (execWfeWake k s) := by
  simp only [Foot.execWfeWake, Bool.and_eq_true] at hK
  obtain ⟨hK0, hK1, hK2, hK3⟩ := hK
  unfold execWfeWake
  with_reducible repeat' first
    | assumption
    | refine sleepUndo_closed hP ?_ ?_
    | refine endInstr_closed hP ?_ ?_
    | refine hP.clear ?_ ?_
    | refine OutAll.mk ?_
    | (extract_lets +onlyGivenNames x; apply thenHave (p := P x); (unfold x; clear x); rotate_left 1; (intro hx; clear_value x))
    | (extract_lets +onlyGivenNames x; clear_value x)
    | refine ite_closed ?_ ?_
    | refine res_ite ?_ ?_
    | split

end Sys2Proof.Machine
end

