-- ==== Sys2Proof/Laws/ClosedTranslation.lean ====
section
/-! SUPPORT. What the functions of Machine/Translation.lean can write, and that they keep every closed property (Laws/Closed.lean). -/
namespace Sys2Proof.Machine

set_option Elab.async false
set_option linter.all false

def Foot.readMicroword (K : Part → Bool) : Bool := K .freeCtr && (K (.fld .UC_ECC) && (Foot.microwordError K))

theorem readMicroword_closed {K : Part → Bool} {P : State → Prop} {s : State} {k : Nat} {i : Nat} (hP : Closed K P) (hK :
    Foot.readMicroword K = true) (hs_s : P s) :
    P (readMicroword s k i).2 := by
  simp only [Foot.readMicroword, Bool.and_eq_true] at hK
  obtain ⟨hK0, hK1, hK2⟩ := hK
  unfold readMicroword
  with_reducible repeat' first
    | assumption
    | refine microwordError_closed hP ?_ ?_
    | refine hP.put _ _ _ _ _ ?_ ?_
    | refine hP.clear ?_ ?_
    | refine hP.raise ?_ ?_
    | refine hP.bump ?_ ?_
    | refine hP.setBits ?_ ?_
    | refine hP.clrBits ?_ ?_
    | refine Closed.when ?_ ?_
    | refine hP.fresh ?_ ?_
    | refine res_done ?_
    | refine res_stay ?_
    | refine res_jump ?_
    | refine res_fault ?_
    | (dsimp -zeta only)
    | refine of_snd (by assumption) ?_
    | refine of_fst (by assumption) ?_
    | refine of_mid (by assumption) ?_
    | refine of_trd (by assumption) ?_
    | refine of_fth (by assumption) ?_
    | refine of_done (by assumption) ?_
    | refine of_stay (by assumption) ?_
    | refine of_jump (by assumption) ?_
    | refine of_fault (by assumption) ?_
    | intro _
    | (extract_lets +onlyGivenNames x; apply thenHave (p := P x); (unfold x; clear x); rotate_left 1; (intro hx; clear_value x))
    | (extract_lets +onlyGivenNames x; apply thenHave (p := P x.st); (unfold x; clear x); rotate_left 1; (intro hx; clear_value x))
    | (extract_lets +onlyGivenNames x; apply thenHave (p := P x.2); (unfold x; clear x); rotate_left 1; (intro hx; clear_value x))
    | (extract_lets +onlyGivenNames x; apply thenHave (p := P x.1); (unfold x; clear x); rotate_left 1; (intro hx; clear_value x))
    | (extract_lets +onlyGivenNames x; apply thenHave (p := P x.2.1); (unfold x; clear x); rotate_left 1; (intro hx; clear_value x))
    | (extract_lets +onlyGivenNames x; apply thenHave (p := P x.2.2); (unfold x; clear x); rotate_left 1; (intro hx; clear_value x))
    | (extract_lets +onlyGivenNames x; clear_value x)
    | (extract_lets +onlyGivenNames x)
    | refine ite_closed ?_ ?_
    | refine res_ite ?_ ?_
    | split

def Foot.ldpt (K : Part → Bool) : Bool := K (.fld .XC_TLBWADDR) && (Foot.reachAll K && (Foot.loadCells K && (Foot.setD K)))

theorem ldpt_closed {K : Part → Bool} {P : State → Prop} {s : State} {n : Nat} {lvl : Nat} {m : Nat} (hP : Closed K P) (hK :
    Foot.ldpt K = true) (hs_s : P s) :
    P (ldpt s n lvl m).st := by
  simp only [Foot.ldpt, Bool.and_eq_true] at hK
  obtain ⟨hK0, hK1, hK2, hK3⟩ := hK
  unfold ldpt
  with_reducible repeat' first
    | assumption
    | refine reachAll_closed hP ?_ ?_
    | refine loadCells_closed hP ?_ ?_
    | refine setD_closed hP ?_ ?_
    | refine hP.put _ _ _ _ _ ?_ ?_
    | refine hP.clear ?_ ?_
    | refine hP.raise ?_ ?_
    | refine hP.bump ?_ ?_
    | refine hP.setBits ?_ ?_
    | refine hP.clrBits ?_ ?_
    | refine res_done ?_
    | refine res_stay ?_
    | refine res_jump ?_
    | refine res_fault ?_
    | (dsimp -zeta only)
    | refine of_snd (by assumption) ?_
    | refine of_fst (by assumption) ?_
    | refine of_mid (by assumption) ?_
    | refine of_trd (by assumption) ?_
    | refine of_fth (by assumption) ?_
    | refine of_done (by assumption) ?_
    | refine of_stay (by assumption) ?_
    | refine of_jump (by assumption) ?_
    | refine of_fault (by assumption) ?_
    | intro _
    | (extract_lets +onlyGivenNames x; apply thenHave (p := P x); (unfold x; clear x); rotate_left 1; (intro hx; clear_value x))
    | (extract_lets +onlyGivenNames x; apply thenHave (p := P x.st); (unfold x; clear x); rotate_left 1; (intro hx; clear_value x))
    | (extract_lets +onlyGivenNames x; apply thenHave (p := P x.2); (unfold x; clear x); rotate_left 1; (intro hx; clear_value x))
    | (extract_lets +onlyGivenNames x; apply thenHave (p := P x.1); (unfold x; clear x); rotate_left 1; (intro hx; clear_value x))
    | (extract_lets +onlyGivenNames x; apply thenHave (p := P x.2.1); (unfold x; clear x); rotate_left 1; (intro hx; clear_value x))
    | (extract_lets +onlyGivenNames x; apply thenHave (p := P x.2.2); (unfold x; clear x); rotate_left 1; (intro hx; clear_value x))
    | (extract_lets +onlyGivenNames x; clear_value x)
    | (extract_lets +onlyGivenNames x)
    | refine ite_closed ?_ ?_
    | refine res_ite ?_ ?_
    | split

def Foot.tlbWrite (K : Part → Bool) : Bool := Foot.tlbwr K

theorem tlbWrite_closed {K : Part → Bool} {P : State → Prop} {s : State} {n : Nat} {sz : Nat} (hP : Closed K P) (hK :
    Foot.tlbWrite K = true) (hs_s : P s) :
    P (tlbWrite s n sz).st := by
  simp only [Foot.tlbWrite, Bool.and_eq_true] at hK
  unfold tlbWrite
  with_reducible repeat' first
    | assumption
    | refine tlbwr_closed hP ?_ ?_
    | refine res_done ?_
    | refine res_fault ?_
    | refine ite_closed ?_ ?_
    | refine res_ite ?_ ?_
    | split

def Foot.vendorStep (K : Part → Bool) : Bool := Foot.coreStep K && (Foot.readMicroword K && (Foot.mismatchFreeze K))

theorem vendorStep_closed {K : Part → Bool} {P : State → Prop} {s : State} {k : Nat} {e : Nat} {d : List Nat} {f : State →
    Res} (hP : Closed K P) (hK : Foot.vendorStep K = true) (h_f : ∀ x0, P x0 → P (f x0).st) (hs_s : P s) :
    OutAll P (vendorStep s k e d f) := by
  simp only [Foot.vendorStep, Bool.and_eq_true] at hK
  obtain ⟨hK0, hK1, hK2⟩ := hK
  unfold vendorStep
  with_reducible repeat' first
    | assumption
    | apply h_f
    | refine coreStep_closed hP ?_ ?_ ?_
    | refine readMicroword_closed hP ?_ ?_
    | refine mismatchFreeze_closed hP ?_ ?_
    | refine OutAll.mk ?_
    | refine res_done ?_
    | refine res_stay ?_
    | refine res_jump ?_
    | refine res_fault ?_
    | (dsimp -zeta only)
    | refine of_snd (by assumption) ?_
    | refine of_fst (by assumption) ?_
    | refine of_mid (by assumption) ?_
    | refine of_trd (by assumption) ?_
    | refine of_fth (by assumption) ?_
    | refine of_done (by assumption) ?_
    | refine of_stay (by assumption) ?_
    | refine of_jump (by assumption) ?_
    | refine of_fault (by assumption) ?_
    | intro _
    | (extract_lets +onlyGivenNames x; apply thenHave (p := P x); (unfold x; clear x); rotate_left 1; (intro hx; clear_value x))
    | (extract_lets +onlyGivenNames x; apply thenHave (p := P x.st); (unfold x; clear x); rotate_left 1; (intro hx; clear_value x))
    | (extract_lets +onlyGivenNames x; apply thenHave (p := P x.2); (unfold x; clear x); rotate_left 1; (intro hx; clear_value x))
    | (extract_lets +onlyGivenNames x; apply thenHave (p := P x.1); (unfold x; clear x); rotate_left 1; (intro hx; clear_value x))
    | (extract_lets +onlyGivenNames x; apply thenHave (p := P x.2.1); (unfold x; clear x); rotate_left 1; (intro hx; clear_value x))
    | (extract_lets +onlyGivenNames x; apply thenHave (p := P x.2.2); (unfold x; clear x); rotate_left 1; (intro hx; clear_value x))
    | (extract_lets +onlyGivenNames x; clear_value x)
    | (extract_lets +onlyGivenNames x)
    | refine ite_closed ?_ ?_
    | refine res_ite ?_ ?_
    | split

def Foot.execLdpt (K : Part → Bool) : Bool := Foot.vendorStep K && (Foot.ldpt K)

theorem execLdpt_closed {K : Part → Bool} {P : State → Prop} {k : CoreId} {n : Fin 4} {lvl : Fin 4} {m : Fin 4} {s : State}
    (hP : Closed K P) (hK : Foot.execLdpt K = true) (hs_s : P s) :
    OutAll P (execLdpt k n lvl m s) := by
  simp only [Foot.execLdpt, Bool.and_eq_true] at hK
  obtain ⟨hK0, hK1⟩ := hK
  unfold execLdpt
  with_reducible repeat' first
    | assumption
    | refine vendorStep_closed hP ?_ ?_ ?_
    | refine ldpt_closed hP ?_ ?_
    | refine OutAll.mk ?_
    | intro _

def Foot.execTlbinvAll (K : Part → Bool) : Bool := Foot.vendorStep K && (Foot.tlbinvAll K)

theorem execTlbinvAll_closed {K : Part → Bool} {P : State → Prop} {k : CoreId} {s : State} (hP : Closed K P) (hK :
    Foot.execTlbinvAll K = true) (hs_s : P s) :
    OutAll P (execTlbinvAll k s) := by
  simp only [Foot.execTlbinvAll, Bool.and_eq_true] at hK
  obtain ⟨hK0, hK1⟩ := hK
  unfold execTlbinvAll
  with_reducible repeat' first
    | assumption
    | refine vendorStep_closed hP ?_ ?_ ?_
    | refine tlbinvAll_closed hP ?_ ?_
    | refine OutAll.mk ?_
    | refine res_done ?_
    | intro _

def Foot.execTlbinvAsid (K : Part → Bool) : Bool := Foot.vendorStep K && (Foot.tlbinvAsid K)

theorem execTlbinvAsid_closed {K : Part → Bool} {P : State → Prop} {k : CoreId} {n : Fin 8} {s : State} (hP : Closed K P) (hK
    : Foot.execTlbinvAsid K = true) (hs_s : P s) :
    OutAll P (execTlbinvAsid k n s) := by
  simp only [Foot.execTlbinvAsid, Bool.and_eq_true] at hK
  obtain ⟨hK0, hK1⟩ := hK
  unfold execTlbinvAsid
  with_reducible repeat' first
    | assumption
    | refine vendorStep_closed hP ?_ ?_ ?_
    | refine tlbinvAsid_closed hP ?_ ?_
    | refine OutAll.mk ?_
    | refine res_done ?_
    | intro _

def Foot.execTlbinvVa (K : Part → Bool) : Bool := Foot.vendorStep K && (Foot.tlbinvVa K)

theorem execTlbinvVa_closed {K : Part → Bool} {P : State → Prop} {k : CoreId} {n : Fin 8} {s : State} (hP : Closed K P) (hK :
    Foot.execTlbinvVa K = true) (hs_s : P s) :
    OutAll P (execTlbinvVa k n s) := by
  simp only [Foot.execTlbinvVa, Bool.and_eq_true] at hK
  obtain ⟨hK0, hK1⟩ := hK
  unfold execTlbinvVa
  with_reducible repeat' first
    | assumption
    | refine vendorStep_closed hP ?_ ?_ ?_
    | refine tlbinvVa_closed hP ?_ ?_
    | refine OutAll.mk ?_
    | refine res_done ?_
    | intro _

def Foot.execTlbwr (K : Part → Bool) : Bool := Foot.vendorStep K && (Foot.tlbWrite K)

theorem execTlbwr_closed {K : Part → Bool} {P : State → Prop} {k : CoreId} {n : Fin 4} {sz : Fin 4} {s : State} (hP : Closed
    K P) (hK : Foot.execTlbwr K = true) (hs_s : P s) :
    OutAll P (execTlbwr k n sz s) := by
  simp only [Foot.execTlbwr, Bool.and_eq_true] at hK
  obtain ⟨hK0, hK1⟩ := hK
  unfold execTlbwr
  with_reducible repeat' first
    | assumption
    | refine vendorStep_closed hP ?_ ?_ ?_
    | refine tlbWrite_closed hP ?_ ?_
    | refine OutAll.mk ?_
    | refine res_done ?_
    | refine res_stay ?_
    | refine res_jump ?_
    | refine res_fault ?_
    | refine of_done (by assumption) ?_
    | refine of_stay (by assumption) ?_
    | refine of_jump (by assumption) ?_
    | refine of_fault (by assumption) ?_
    | intro _
    | (extract_lets +onlyGivenNames x; apply thenHave (p := P x); (unfold x; clear x); rotate_left 1; (intro hx; clear_value x))
    | (extract_lets +onlyGivenNames x; apply thenHave (p := P x.st); (unfold x; clear x); rotate_left 1; (intro hx; clear_value x))
    | (extract_lets +onlyGivenNames x; clear_value x)
    | (extract_lets +onlyGivenNames x)
    | refine ite_closed ?_ ?_
    | refine res_ite ?_ ?_
    | split

end Sys2Proof.Machine
end

