-- ==== Sys2Proof/Laws/ClosedCoreCustom.lean ====
section
/-! SUPPORT. What the functions of Machine/CoreCustom.lean can write, and that they keep every closed property (Laws/Closed.lean). -/
namespace Sys2Proof.Machine

set_option Elab.async false
set_option linter.all false

def Foot.microAlu (K : Part → Bool) : Bool := K .freeCtr

theorem microAlu_closed {K : Part → Bool} {P : State → Prop} {s : State} {code : Nat} {a : Int} {b : Int} {cin : Int} (hP :
    Closed K P) (hK : Foot.microAlu K = true) (hs_s : P s) :
    P (microAlu s code a b cin).2 := by
  simp only [Foot.microAlu, Bool.and_eq_true] at hK
  unfold microAlu
  with_reducible repeat' first
    | assumption
    | refine hP.fresh ?_ ?_
    | (extract_lets +onlyGivenNames x; apply thenHave (p := P x); (unfold x; clear x); rotate_left 1; (intro hx; clear_value x))
    | (extract_lets +onlyGivenNames x; clear_value x)
    | split

def Foot.systemRun (K : Part → Bool) : Bool := Foot.ldpt K && (Foot.tlbWrite K && (Foot.tlbinvAll K && (Foot.tlbinvAsid K &&
    (Foot.tlbinvVa K))))

theorem systemRun_closed {K : Part → Bool} {P : State → Prop} {s : State} {k : Nat} {code : Nat} {op : Nat} (hP : Closed K P)
    (hK : Foot.systemRun K = true) (hs_s : P s) :
    P (systemRun s k code op).st := by
  simp only [Foot.systemRun, Bool.and_eq_true] at hK
  obtain ⟨hK0, hK1, hK2, hK3, hK4⟩ := hK
  unfold systemRun
  with_reducible repeat' first
    | assumption
    | refine ldpt_closed hP ?_ ?_
    | refine tlbWrite_closed hP ?_ ?_
    | refine tlbinvAll_closed hP ?_ ?_
    | refine tlbinvAsid_closed hP ?_ ?_
    | refine tlbinvVa_closed hP ?_ ?_
    | refine res_done ?_
    | refine res_stay ?_
    | refine res_jump ?_
    | refine res_fault ?_
    | (dsimp -zeta only)
    | refine of_snd (by assumption) ?_
    | refine of_fst (by assumption) ?_
    | refine of_mid (by assumption) ?_
    | refine of_trd (by assumption) ?_
    | refine of_fth (by assumption) ?_
    | refine of_done (by assumption) ?_
    | refine of_stay (by assumption) ?_
    | refine of_jump (by assumption) ?_
    | refine of_fault (by assumption) ?_
    | intro _
    | (extract_lets +onlyGivenNames x; apply thenHave (p := P x); (unfold x; clear x); rotate_left 1; (intro hx; clear_value x))
    | (extract_lets +onlyGivenNames x; apply thenHave (p := P x.st); (unfold x; clear x); rotate_left 1; (intro hx; clear_value x))
    | (extract_lets +onlyGivenNames x; apply thenHave (p := P x.2); (unfold x; clear x); rotate_left 1; (intro hx; clear_value x))
    | (extract_lets +onlyGivenNames x; apply thenHave (p := P x.1); (unfold x; clear x); rotate_left 1; (intro hx; clear_value x))
    | (extract_lets +onlyGivenNames x; apply thenHave (p := P x.2.1); (unfold x; clear x); rotate_left 1; (intro hx; clear_value x))
    | (extract_lets +onlyGivenNames x; apply thenHave (p := P x.2.2); (unfold x; clear x); rotate_left 1; (intro hx; clear_value x))
    | (extract_lets +onlyGivenNames x; clear_value x)
    | (extract_lets +onlyGivenNames x)
    | refine ite_closed ?_ ?_
    | refine res_ite ?_ ?_
    | split

def Foot.microWrite (K : Part → Bool) : Bool := Foot.setD K && (Foot.setP K && (Foot.setA K && (Foot.setRc K)))

theorem microWrite_closed {K : Part → Bool} {P : State → Prop} {s : State} {k : Nat} {m : Micro} {c : Nat} {v : Int} (hP :
    Closed K P) (hK : Foot.microWrite K = true) (hs_s : P s) :
    P (microWrite s k m c v).1 := by
  simp only [Foot.microWrite, Bool.and_eq_true] at hK
  obtain ⟨hK0, hK1, hK2, hK3⟩ := hK
  unfold microWrite
  with_reducible repeat' first
    | assumption
    | refine setD_closed hP ?_ ?_
    | refine setP_closed hP ?_ ?_
    | refine setA_closed hP ?_ ?_
    | refine setRc_closed hP ?_ ?_
    | refine ite_closed ?_ ?_
    | refine res_ite ?_ ?_
    | split

def Foot.microMem (K : Part → Bool) : Bool := Foot.place K && (Foot.loadWord K && (Foot.microWrite K))

theorem microMem_closed {K : Part → Bool} {P : State → Prop} {s : State} {k : Nat} {m : Micro} {op : Nat} {w : Int} {va :
    Int} (hP : Closed K P) (hK : Foot.microMem K = true) (hs_s : P s) :
    P (microMem s k m op w va).2.1 := by
  simp only [Foot.microMem, Bool.and_eq_true] at hK
  obtain ⟨hK0, hK1, hK2⟩ := hK
  unfold microMem
  with_reducible repeat' first
    | assumption
    | refine place_closed hP ?_ ?_
    | refine loadWord_closed hP ?_ ?_
    | refine microWrite_closed hP ?_ ?_
    | refine res_done ?_
    | refine res_stay ?_
    | refine res_jump ?_
    | refine res_fault ?_
    | (dsimp -zeta only)
    | refine of_snd (by assumption) ?_
    | refine of_fst (by assumption) ?_
    | refine of_mid (by assumption) ?_
    | refine of_trd (by assumption) ?_
    | refine of_fth (by assumption) ?_
    | refine of_done (by assumption) ?_
    | refine of_stay (by assumption) ?_
    | refine of_jump (by assumption) ?_
    | refine of_fault (by assumption) ?_
    | intro _
    | (extract_lets +onlyGivenNames x; apply thenHave (p := P x); (unfold x; clear x); rotate_left 1; (intro hx; clear_value x))
    | (extract_lets +onlyGivenNames x; apply thenHave (p := P x.st); (unfold x; clear x); rotate_left 1; (intro hx; clear_value x))
    | (extract_lets +onlyGivenNames x; apply thenHave (p := P x.2); (unfold x; clear x); rotate_left 1; (intro hx; clear_value x))
    | (extract_lets +onlyGivenNames x; apply thenHave (p := P x.1); (unfold x; clear x); rotate_left 1; (intro hx; clear_value x))
    | (extract_lets +onlyGivenNames x; apply thenHave (p := P x.2.1); (unfold x; clear x); rotate_left 1; (intro hx; clear_value x))
    | (extract_lets +onlyGivenNames x; apply thenHave (p := P x.2.2); (unfold x; clear x); rotate_left 1; (intro hx; clear_value x))
    | (extract_lets +onlyGivenNames x; clear_value x)
    | (extract_lets +onlyGivenNames x)
    | refine ite_closed ?_ ?_
    | refine res_ite ?_ ?_
    | split

def Foot.microEffect (K : Part → Bool) : Bool := Foot.systemRun K && (Foot.microWrite K && (Foot.microMem K))

theorem microEffect_closed {K : Part → Bool} {P : State → Prop} {s : State} {k : Nat} {m : Micro} {op : Nat} {w : Int} {res :
    Int} (hP : Closed K P) (hK : Foot.microEffect K = true) (hs_s : P s) :
    P (microEffect s k m op w res).2.1 := by
  simp only [Foot.microEffect, Bool.and_eq_true] at hK
  obtain ⟨hK0, hK1, hK2⟩ := hK
  unfold microEffect
  with_reducible repeat' first
    | assumption
    | refine systemRun_closed hP ?_ ?_
    | refine microWrite_closed hP ?_ ?_
    | refine microMem_closed hP ?_ ?_
    | refine res_done ?_
    | refine res_stay ?_
    | refine res_jump ?_
    | refine res_fault ?_
    | (dsimp -zeta only)
    | refine of_snd (by assumption) ?_
    | refine of_fst (by assumption) ?_
    | refine of_mid (by assumption) ?_
    | refine of_trd (by assumption) ?_
    | refine of_fth (by assumption) ?_
    | refine of_done (by assumption) ?_
    | refine of_stay (by assumption) ?_
    | refine of_jump (by assumption) ?_
    | refine of_fault (by assumption) ?_
    | intro _
    | (extract_lets +onlyGivenNames x; apply thenHave (p := P x); (unfold x; clear x); rotate_left 1; (intro hx; clear_value x))
    | (extract_lets +onlyGivenNames x; apply thenHave (p := P x.st); (unfold x; clear x); rotate_left 1; (intro hx; clear_value x))
    | (extract_lets +onlyGivenNames x; apply thenHave (p := P x.2); (unfold x; clear x); rotate_left 1; (intro hx; clear_value x))
    | (extract_lets +onlyGivenNames x; apply thenHave (p := P x.1); (unfold x; clear x); rotate_left 1; (intro hx; clear_value x))
    | (extract_lets +onlyGivenNames x; apply thenHave (p := P x.2.1); (unfold x; clear x); rotate_left 1; (intro hx; clear_value x))
    | (extract_lets +onlyGivenNames x; apply thenHave (p := P x.2.2); (unfold x; clear x); rotate_left 1; (intro hx; clear_value x))
    | (extract_lets +onlyGivenNames x; clear_value x)
    | (extract_lets +onlyGivenNames x)
    | refine ite_closed ?_ ?_
    | refine res_ite ?_ ?_
    | split

def Foot.microStep (K : Part → Bool) : Bool := Foot.microAlu K && (Foot.microEffect K)

theorem microStep_closed {K : Part → Bool} {P : State → Prop} {s : State} {k : Nat} {op : Nat} {w : Int} {m : Micro} (hP :
    Closed K P) (hK : Foot.microStep K = true) (hs_s : P s) :
    P (microStep s k op w m).2.1 := by
  simp only [Foot.microStep, Bool.and_eq_true] at hK
  obtain ⟨hK0, hK1⟩ := hK
  unfold microStep
  with_reducible repeat' first
    | assumption
    | refine microAlu_closed hP ?_ ?_
    | refine microEffect_closed hP ?_ ?_
    | refine res_done ?_
    | refine res_stay ?_
    | refine res_jump ?_
    | refine res_fault ?_
    | (dsimp -zeta only)
    | refine of_snd (by assumption) ?_
    | refine of_fst (by assumption) ?_
    | refine of_mid (by assumption) ?_
    | refine of_trd (by assumption) ?_
    | refine of_fth (by assumption) ?_
    | refine of_done (by assumption) ?_
    | refine of_stay (by assumption) ?_
    | refine of_jump (by assumption) ?_
    | refine of_fault (by assumption) ?_
    | intro _
    | (extract_lets +onlyGivenNames x; apply thenHave (p := P x); (unfold x; clear x); rotate_left 1; (intro hx; clear_value x))
    | (extract_lets +onlyGivenNames x; apply thenHave (p := P x.st); (unfold x; clear x); rotate_left 1; (intro hx; clear_value x))
    | (extract_lets +onlyGivenNames x; apply thenHave (p := P x.2); (unfold x; clear x); rotate_left 1; (intro hx; clear_value x))
    | (extract_lets +onlyGivenNames x; apply thenHave (p := P x.1); (unfold x; clear x); rotate_left 1; (intro hx; clear_value x))
    | (extract_lets +onlyGivenNames x; apply thenHave (p := P x.2.1); (unfold x; clear x); rotate_left 1; (intro hx; clear_value x))
    | (extract_lets +onlyGivenNames x; apply thenHave (p := P x.2.2); (unfold x; clear x); rotate_left 1; (intro hx; clear_value x))
    | (extract_lets +onlyGivenNames x; clear_value x)
    | (extract_lets +onlyGivenNames x)
    | refine ite_closed ?_ ?_
    | refine res_ite ?_ ?_
    | split

def Foot.microRun (K : Part → Bool) : Bool := Foot.readMicroword K && (Foot.microStep K)

theorem microRun_closed {K : Part → Bool} {P : State → Prop} {k : Nat} {op : Nat} {page : Nat} {y3 : Nat} {y4 : Nat} {y5 :
    State} {y6 : Micro} (hP : Closed K P) (hK : Foot.microRun K = true) (hs_y5 : P y5) :
    P (microRun k op page y3 y4 y5 y6).2.1 := by
  simp only [Foot.microRun, Bool.and_eq_true] at hK
  obtain ⟨hK0, hK1⟩ := hK
  induction y3 generalizing y4 y5 y6 with
  | zero =>
    unfold microRun
    with_reducible repeat' first
      | assumption
      | refine readMicroword_closed hP ?_ ?_
      | refine microStep_closed hP ?_ ?_
      | refine res_done ?_
      | refine res_stay ?_
      | refine res_jump ?_
      | refine res_fault ?_
      | (dsimp -zeta only)
      | refine of_snd (by assumption) ?_
      | refine of_fst (by assumption) ?_
      | refine of_mid (by assumption) ?_
      | refine of_trd (by assumption) ?_
      | refine of_fth (by assumption) ?_
      | refine of_done (by assumption) ?_
      | refine of_stay (by assumption) ?_
      | refine of_jump (by assumption) ?_
      | refine of_fault (by assumption) ?_
      | intro _
      | (extract_lets +onlyGivenNames x; apply thenHave (p := P x); (unfold x; clear x); rotate_left 1; (intro hx; clear_value x))
      | (extract_lets +onlyGivenNames x; apply thenHave (p := P x.st); (unfold x; clear x); rotate_left 1; (intro hx; clear_value x))
      | (extract_lets +onlyGivenNames x; apply thenHave (p := P x.2); (unfold x; clear x); rotate_left 1; (intro hx; clear_value x))
      | (extract_lets +onlyGivenNames x; apply thenHave (p := P x.1); (unfold x; clear x); rotate_left 1; (intro hx; clear_value x))
      | (extract_lets +onlyGivenNames x; apply thenHave (p := P x.2.1); (unfold x; clear x); rotate_left 1; (intro hx; clear_value x))
      | (extract_lets +onlyGivenNames x; apply thenHave (p := P x.2.2); (unfold x; clear x); rotate_left 1; (intro hx; clear_value x))
      | (extract_lets +onlyGivenNames x; clear_value x)
      | (extract_lets +onlyGivenNames x)
      | refine ite_closed ?_ ?_
      | refine res_ite ?_ ?_
      | split
  | succ n ih =>
    unfold microRun
    with_reducible repeat' first
      | (with_reducible refine ih ?_)
      | assumption
      | refine readMicroword_closed hP ?_ ?_
      | refine microStep_closed hP ?_ ?_
      | refine res_done ?_
      | refine res_stay ?_
      | refine res_jump ?_
      | refine res_fault ?_
      | (dsimp -zeta only)
      | refine of_snd (by assumption) ?_
      | refine of_fst (by assumption) ?_
      | refine of_mid (by assumption) ?_
      | refine of_trd (by assumption) ?_
      | refine of_fth (by assumption) ?_
      | refine of_done (by assumption) ?_
      | refine of_stay (by assumption) ?_
      | refine of_jump (by assumption) ?_
      | refine of_fault (by assumption) ?_
      | intro _
      | (extract_lets +onlyGivenNames x; apply thenHave (p := P x); (unfold x; clear x); rotate_left 1; (intro hx; clear_value x))
      | (extract_lets +onlyGivenNames x; apply thenHave (p := P x.st); (unfold x; clear x); rotate_left 1; (intro hx; clear_value x))
      | (extract_lets +onlyGivenNames x; apply thenHave (p := P x.2); (unfold x; clear x); rotate_left 1; (intro hx; clear_value x))
      | (extract_lets +onlyGivenNames x; apply thenHave (p := P x.1); (unfold x; clear x); rotate_left 1; (intro hx; clear_value x))
      | (extract_lets +onlyGivenNames x; apply thenHave (p := P x.2.1); (unfold x; clear x); rotate_left 1; (intro hx; clear_value x))
      | (extract_lets +onlyGivenNames x; apply thenHave (p := P x.2.2); (unfold x; clear x); rotate_left 1; (intro hx; clear_value x))
      | (extract_lets +onlyGivenNames x; clear_value x)
      | (extract_lets +onlyGivenNames x)
      | refine ite_closed ?_ ?_
      | refine res_ite ?_ ?_
      | split

def Foot.microCommit (K : Part → Bool) : Bool := K (.fld .swC) && (K (.fld .swZ) && (K (.fld .swN) && (K (.fld .swSat) &&
    (Foot.bufferStore K && (Foot.writeCells K && (Foot.putV K))))))

theorem microCommit_closed {K : Part → Bool} {P : State → Prop} {s : State} {k : Nat} {m : Micro} (hP : Closed K P) (hK :
    Foot.microCommit K = true) (hs_s : P s) :
    P (microCommit s k m) := by
  simp only [Foot.microCommit, Bool.and_eq_true] at hK
  obtain ⟨hK0, hK1, hK2, hK3, hK4, hK5, hK6⟩ := hK
  unfold microCommit
  with_reducible repeat' first
    | assumption
    | refine bufferStore_closed hP ?_ ?_
    | refine writeCells_closed hP ?_ ?_
    | refine putV_closed hP ?_ ?_
    | refine hP.put _ _ _ _ _ ?_ ?_
    | refine hP.raise ?_ ?_
    | refine Closed.each ?_ _ ?_
    | intro _
    | (extract_lets +onlyGivenNames x; apply thenHave (p := P x); (unfold x; clear x); rotate_left 1; (intro hx; clear_value x))
    | (extract_lets +onlyGivenNames x; clear_value x)
    | refine ite_closed ?_ ?_
    | refine res_ite ?_ ?_
    | split

theorem microCommit_get {s : State} {k : Nat} {m : Micro} {fld0 : Fld} {i0 j0 : Nat} (hK : Foot.microCommit (notFld fld0) =
    true)  : (microCommit s k m).get fld0 i0 j0 = s.get fld0 i0 j0 :=
  microCommit_closed (P := fun x => x.get fld0 i0 j0 = s.get fld0 i0 j0) (field_closed fld0 i0 j0 _) hK  rfl

def Foot.undoTlb (K : Part → Bool) : Bool := K (.fld .XC_MMU_RP) && ((allFld fun f => K (.fld f)))

theorem undoTlb_closed {K : Part → Bool} {P : State → Prop} {s : State} {t : State} (hP : Closed K P) (hK : Foot.undoTlb K =
    true) (hs_s : P s) (hs_t : P t) :
    P (undoTlb s t) := by
  simp only [Foot.undoTlb, Bool.and_eq_true] at hK
  obtain ⟨hK0, hK1⟩ := hK
  unfold undoTlb
  with_reducible repeat' first
    | assumption
    | refine allFld_fld ?_ _
    | refine hP.put _ _ _ _ _ ?_ ?_
    | refine Closed.each ?_ _ ?_
    | intro _

def Foot.undoRegs (K : Part → Bool) : Bool := K (.fld .coreP) && (K (.fld .coreD) && (K (.fld .coreA) && (K (.fld .coreUsp)
    && (K (.fld .coreRc) && (Foot.undoTlb K)))))

theorem undoRegs_closed {K : Part → Bool} {P : State → Prop} {s : State} {t : State} {k : Nat} (hP : Closed K P) (hK :
    Foot.undoRegs K = true) (hs_s : P s) (hs_t : P t) :
    P (undoRegs s t k) := by
  simp only [Foot.undoRegs, Bool.and_eq_true] at hK
  obtain ⟨hK0, hK1, hK2, hK3, hK4, hK5⟩ := hK
  unfold undoRegs
  with_reducible repeat' first
    | assumption
    | refine undoTlb_closed hP ?_ ?_ ?_
    | refine hP.put _ _ _ _ _ ?_ ?_
    | refine Closed.each ?_ _ ?_
    | intro _
    | (extract_lets +onlyGivenNames x; apply thenHave (p := P x); (unfold x; clear x); rotate_left 1; (intro hx; clear_value x))
    | (extract_lets +onlyGivenNames x; clear_value x)

def Foot.customRun (K : Part → Bool) : Bool := Foot.microRun K && (Foot.microCommit K && (Foot.undoRegs K &&
    (Foot.mismatchFreeze K)))

theorem customRun_closed {K : Part → Bool} {P : State → Prop} {s : State} {k : Nat} {e : Nat} {op : Nat} (hP : Closed K P)
    (hK : Foot.customRun K = true) (hs_s : P s) :
    P (customRun s k e op).st := by
  simp only [Foot.customRun, Bool.and_eq_true] at hK
  obtain ⟨hK0, hK1, hK2, hK3⟩ := hK
  unfold customRun
  with_reducible repeat' first
    | assumption
    | refine microRun_closed hP ?_ ?_
    | refine microCommit_closed hP ?_ ?_
    | refine undoRegs_closed hP ?_ ?_ ?_
    | refine mismatchFreeze_closed hP ?_ ?_
    | refine res_done ?_
    | refine res_stay ?_
    | refine res_jump ?_
    | refine res_fault ?_
    | (dsimp -zeta only)
    | refine of_snd (by assumption) ?_
    | refine of_fst (by assumption) ?_
    | refine of_mid (by assumption) ?_
    | refine of_trd (by assumption) ?_
    | refine of_fth (by assumption) ?_
    | refine of_done (by assumption) ?_
    | refine of_stay (by assumption) ?_
    | refine of_jump (by assumption) ?_
    | refine of_fault (by assumption) ?_
    | intro _
    | (extract_lets +onlyGivenNames x; apply thenHave (p := P x); (unfold x; clear x); rotate_left 1; (intro hx; clear_value x))
    | (extract_lets +onlyGivenNames x; apply thenHave (p := P x.st); (unfold x; clear x); rotate_left 1; (intro hx; clear_value x))
    | (extract_lets +onlyGivenNames x; apply thenHave (p := P x.2); (unfold x; clear x); rotate_left 1; (intro hx; clear_value x))
    | (extract_lets +onlyGivenNames x; apply thenHave (p := P x.1); (unfold x; clear x); rotate_left 1; (intro hx; clear_value x))
    | (extract_lets +onlyGivenNames x; apply thenHave (p := P x.2.1); (unfold x; clear x); rotate_left 1; (intro hx; clear_value x))
    | (extract_lets +onlyGivenNames x; apply thenHave (p := P x.2.2); (unfold x; clear x); rotate_left 1; (intro hx; clear_value x))
    | (extract_lets +onlyGivenNames x; clear_value x)
    | (extract_lets +onlyGivenNames x)
    | refine ite_closed ?_ ?_
    | refine res_ite ?_ ?_
    | split

def Foot.execCustomInstruction (K : Part → Bool) : Bool := Foot.coreStep K && (Foot.customRun K)

theorem execCustomInstruction_closed {K : Part → Bool} {P : State → Prop} {k : CoreId} {e : Fin 32} {op : BitVec 6} {s :
    State} (hP : Closed K P) (hK : Foot.execCustomInstruction K = true) (hs_s : P s) :
    OutAll P (execCustomInstruction k e op s) := by
  simp only [Foot.execCustomInstruction, Bool.and_eq_true] at hK
  obtain ⟨hK0, hK1⟩ := hK
  unfold execCustomInstruction
  with_reducible repeat' first
    | assumption
    | refine coreStep_closed hP ?_ ?_ ?_
    | refine customRun_closed hP ?_ ?_
    | refine OutAll.mk ?_
    | refine res_fault ?_
    | intro _
    | split

end Sys2Proof.Machine
end

