-- ==== Sys2Proof/Laws/ClosedCoreMem.lean ====
section
/-! SUPPORT. What the functions of Machine/CoreMem.lean can write, and that they keep every closed property (Laws/Closed.lean). -/
namespace Sys2Proof.Machine

set_option Elab.async false
set_option linter.all false

def Foot.elementDone (K : Part → Bool) : Bool := Foot.setD K

theorem elementDone_closed {K : Part → Bool} {P : State → Prop} {s : State} {k : Nat} {c : Nat} (hP : Closed K P) (hK :
    Foot.elementDone K = true) (hs_s : P s) :
    P (elementDone s k c).st := by
  simp only [Foot.elementDone, Bool.and_eq_true] at hK
  unfold elementDone
  with_reducible repeat' first
    | assumption
    | refine setD_closed hP ?_ ?_
    | refine res_done ?_
    | refine res_stay ?_
    | (extract_lets +onlyGivenNames x; apply thenHave (p := P x); (unfold x; clear x); rotate_left 1; (intro hx; clear_value x))
    | (extract_lets +onlyGivenNames x; clear_value x)
    | refine ite_closed ?_ ?_
    | refine res_ite ?_ ?_
    | split

def Foot.pointerOp (K : Part → Bool) : Bool := Foot.coreStep K && (Foot.setP K)

theorem pointerOp_closed {K : Part → Bool} {P : State → Prop} {s : State} {k : Nat} {len : Nat} {d : List Nat} {n : Nat} {f :
    State → Int} (hP : Closed K P) (hK : Foot.pointerOp K = true) (hs_s : P s) :
    OutAll P (pointerOp s k len d n f) := by
  simp only [Foot.pointerOp, Bool.and_eq_true] at hK
  obtain ⟨hK0, hK1⟩ := hK
  unfold pointerOp
  with_reducible repeat' first
    | assumption
    | refine coreStep_closed hP ?_ ?_ ?_
    | refine setP_closed hP ?_ ?_
    | refine OutAll.mk ?_
    | refine res_done ?_
    | intro _

def Foot.execAddp (K : Part → Bool) : Bool := Foot.pointerOp K

theorem execAddp_closed {K : Part → Bool} {P : State → Prop} {k : CoreId} {n : Fin 8} {o : BitVec 16} {s : State} (hP :
    Closed K P) (hK : Foot.execAddp K = true) (hs_s : P s) :
    OutAll P (execAddp k n o s) := by
  simp only [Foot.execAddp, Bool.and_eq_true] at hK
  unfold execAddp
  with_reducible repeat' first
    | assumption
    | refine pointerOp_closed hP ?_ ?_
    | refine OutAll.mk ?_
    | intro _

def Foot.execAddpD (K : Part → Bool) : Bool := Foot.pointerOp K

theorem execAddpD_closed {K : Part → Bool} {P : State → Prop} {k : CoreId} {n : Fin 8} {d : Fin 8} {s : State} (hP : Closed K
    P) (hK : Foot.execAddpD K = true) (hs_s : P s) :
    OutAll P (execAddpD k n d s) := by
  simp only [Foot.execAddpD, Bool.and_eq_true] at hK
  unfold execAddpD
  with_reducible repeat' first
    | assumption
    | refine pointerOp_closed hP ?_ ?_
    | refine OutAll.mk ?_
    | intro _

def Foot.execAddpS5 (K : Part → Bool) : Bool := Foot.pointerOp K

theorem execAddpS5_closed {K : Part → Bool} {P : State → Prop} {k : CoreId} {n : Fin 8} {o : BitVec 5} {s : State} (hP :
    Closed K P) (hK : Foot.execAddpS5 K = true) (hs_s : P s) :
    OutAll P (execAddpS5 k n o s) := by
  simp only [Foot.execAddpS5, Bool.and_eq_true] at hK
  unfold execAddpS5
  with_reducible repeat' first
    | assumption
    | refine pointerOp_closed hP ?_ ?_
    | refine OutAll.mk ?_
    | intro _

def Foot.execCmpp (K : Part → Bool) : Bool := K (.fld .swZ) && (K (.fld .swN) && (K (.fld .swC) && (Foot.coreStep K &&
    (Foot.putV K))))

theorem execCmpp_closed {K : Part → Bool} {P : State → Prop} {k : CoreId} {n : Fin 8} {m : Fin 8} {s : State} (hP : Closed K
    P) (hK : Foot.execCmpp K = true) (hs_s : P s) :
    OutAll P (execCmpp k n m s) := by
  simp only [Foot.execCmpp, Bool.and_eq_true] at hK
  obtain ⟨hK0, hK1, hK2, hK3, hK4⟩ := hK
  unfold execCmpp
  with_reducible repeat' first
    | assumption
    | refine coreStep_closed hP ?_ ?_ ?_
    | refine putV_closed hP ?_ ?_
    | refine hP.put _ _ _ _ _ ?_ ?_
    | refine OutAll.mk ?_
    | refine res_done ?_
    | intro _
    | (extract_lets +onlyGivenNames x; apply thenHave (p := P x); (unfold x; clear x); rotate_left 1; (intro hx; clear_value x))
    | (extract_lets +onlyGivenNames x; clear_value x)

def Foot.execCrcb (K : Part → Bool) : Bool := Foot.coreStep K && (Foot.load K && (Foot.setA K && (Foot.elementDone K &&
    (Foot.setP K))))

theorem execCrcb_closed {K : Part → Bool} {P : State → Prop} {k : CoreId} {ps : Fin 8} {a : Fin 2} {c : Fin 4} {w : Fin 4} {s
    : State} (hP : Closed K P) (hK : Foot.execCrcb K = true) (hs_s : P s) :
    OutAll P (execCrcb k ps a c w s) := by
  simp only [Foot.execCrcb, Bool.and_eq_true] at hK
  obtain ⟨hK0, hK1, hK2, hK3, hK4⟩ := hK
  unfold execCrcb
  with_reducible repeat' first
    | assumption
    | refine coreStep_closed hP ?_ ?_ ?_
    | refine load_closed hP ?_ ?_
    | refine setA_closed hP ?_ ?_
    | refine elementDone_closed hP ?_ ?_
    | refine setP_closed hP ?_ ?_
    | refine OutAll.mk ?_
    | refine res_done ?_
    | refine res_stay ?_
    | refine res_jump ?_
    | refine res_fault ?_
    | (dsimp -zeta only)
    | refine of_snd (by assumption) ?_
    | refine of_fst (by assumption) ?_
    | refine of_mid (by assumption) ?_
    | refine of_trd (by assumption) ?_
    | refine of_fth (by assumption) ?_
    | refine of_done (by assumption) ?_
    | refine of_stay (by assumption) ?_
    | refine of_jump (by assumption) ?_
    | refine of_fault (by assumption) ?_
    | intro _
    | (extract_lets +onlyGivenNames x; apply thenHave (p := P x); (unfold x; clear x); rotate_left 1; (intro hx; clear_value x))
    | (extract_lets +onlyGivenNames x; apply thenHave (p := P x.st); (unfold x; clear x); rotate_left 1; (intro hx; clear_value x))
    | (extract_lets +onlyGivenNames x; apply thenHave (p := P x.2); (unfold x; clear x); rotate_left 1; (intro hx; clear_value x))
    | (extract_lets +onlyGivenNames x; apply thenHave (p := P x.1); (unfold x; clear x); rotate_left 1; (intro hx; clear_value x))
    | (extract_lets +onlyGivenNames x; apply thenHave (p := P x.2.1); (unfold x; clear x); rotate_left 1; (intro hx; clear_value x))
    | (extract_lets +onlyGivenNames x; apply thenHave (p := P x.2.2); (unfold x; clear x); rotate_left 1; (intro hx; clear_value x))
    | (extract_lets +onlyGivenNames x; clear_value x)
    | (extract_lets +onlyGivenNames x)
    | refine ite_closed ?_ ?_
    | refine res_ite ?_ ?_
    | split

def Foot.execFilb (K : Part → Bool) : Bool := Foot.coreStep K && (Foot.store K && (Foot.elementDone K && (Foot.setP K)))

theorem execFilb_closed {K : Part → Bool} {P : State → Prop} {k : CoreId} {pd : Fin 8} {v : Fin 8} {c : Fin 4} {s : State}
    (hP : Closed K P) (hK : Foot.execFilb K = true) (hs_s : P s) :
    OutAll P (execFilb k pd v c s) := by
  simp only [Foot.execFilb, Bool.and_eq_true] at hK
  obtain ⟨hK0, hK1, hK2, hK3⟩ := hK
  unfold execFilb
  with_reducible repeat' first
    | assumption
    | refine coreStep_closed hP ?_ ?_ ?_
    | refine store_closed hP ?_ ?_
    | refine elementDone_closed hP ?_ ?_
    | refine setP_closed hP ?_ ?_
    | refine OutAll.mk ?_
    | refine res_done ?_
    | refine res_fault ?_
    | refine ExcAll.snd ?_
    | refine ExcAll.ok ?_ ?_
    | refine ExcAll.err ?_
    | refine of_ok (by assumption) ?_
    | refine of_okSnd (by assumption) ?_
    | refine of_err (by assumption) ?_
    | intro _
    | refine ite_closed ?_ ?_
    | refine res_ite ?_ ?_
    | split

def Foot.execLd (K : Part → Bool) : Bool := Foot.coreStep K && (Foot.load K && (Foot.setD K && (Foot.putPointer K)))

theorem execLd_closed {K : Part → Bool} {P : State → Prop} {k : CoreId} {d : Fin 8} {m : AddrMode} {s : State} (hP : Closed K
    P) (hK : Foot.execLd K = true) (hs_s : P s) :
    OutAll P (execLd k d m s) := by
  simp only [Foot.execLd, Bool.and_eq_true] at hK
  obtain ⟨hK0, hK1, hK2, hK3⟩ := hK
  unfold execLd
  with_reducible repeat' first
    | assumption
    | refine coreStep_closed hP ?_ ?_ ?_
    | refine load_closed hP ?_ ?_
    | refine setD_closed hP ?_ ?_
    | refine putPointer_closed hP ?_ ?_
    | refine OutAll.mk ?_
    | refine res_done ?_
    | refine res_stay ?_
    | refine res_jump ?_
    | refine res_fault ?_
    | (dsimp -zeta only)
    | refine of_snd (by assumption) ?_
    | refine of_fst (by assumption) ?_
    | refine of_mid (by assumption) ?_
    | refine of_trd (by assumption) ?_
    | refine of_fth (by assumption) ?_
    | refine of_done (by assumption) ?_
    | refine of_stay (by assumption) ?_
    | refine of_jump (by assumption) ?_
    | refine of_fault (by assumption) ?_
    | intro _
    | (extract_lets +onlyGivenNames x; apply thenHave (p := P x); (unfold x; clear x); rotate_left 1; (intro hx; clear_value x))
    | (extract_lets +onlyGivenNames x; apply thenHave (p := P x.st); (unfold x; clear x); rotate_left 1; (intro hx; clear_value x))
    | (extract_lets +onlyGivenNames x; apply thenHave (p := P x.2); (unfold x; clear x); rotate_left 1; (intro hx; clear_value x))
    | (extract_lets +onlyGivenNames x; apply thenHave (p := P x.1); (unfold x; clear x); rotate_left 1; (intro hx; clear_value x))
    | (extract_lets +onlyGivenNames x; apply thenHave (p := P x.2.1); (unfold x; clear x); rotate_left 1; (intro hx; clear_value x))
    | (extract_lets +onlyGivenNames x; apply thenHave (p := P x.2.2); (unfold x; clear x); rotate_left 1; (intro hx; clear_value x))
    | (extract_lets +onlyGivenNames x; clear_value x)
    | (extract_lets +onlyGivenNames x)
    | refine ite_closed ?_ ?_
    | refine res_ite ?_ ?_
    | split

def Foot.pairLoad (K : Part → Bool) : Bool := Foot.coreStep K && (Foot.load K && (Foot.putPointer K))

theorem pairLoad_closed {K : Part → Bool} {P : State → Prop} {s : State} {k : Nat} {m : PairMode} {u : Use} {bad : Bool} {put
    : State → Int → Int → State} (hP : Closed K P) (hK : Foot.pairLoad K = true) (h_put : ∀ x0 x1 x2, P x0 → P (put x0 x1
    x2)) (hs_s : P s) :
    OutAll P (pairLoad s k m u bad put) := by
  simp only [Foot.pairLoad, Bool.and_eq_true] at hK
  obtain ⟨hK0, hK1, hK2⟩ := hK
  unfold pairLoad
  with_reducible repeat' first
    | assumption
    | apply h_put
    | refine coreStep_closed hP ?_ ?_ ?_
    | refine load_closed hP ?_ ?_
    | refine putPointer_closed hP ?_ ?_
    | refine OutAll.mk ?_
    | refine res_done ?_
    | refine res_stay ?_
    | refine res_jump ?_
    | refine res_fault ?_
    | (dsimp -zeta only)
    | refine of_snd (by assumption) ?_
    | refine of_fst (by assumption) ?_
    | refine of_mid (by assumption) ?_
    | refine of_trd (by assumption) ?_
    | refine of_fth (by assumption) ?_
    | refine of_done (by assumption) ?_
    | refine of_stay (by assumption) ?_
    | refine of_jump (by assumption) ?_
    | refine of_fault (by assumption) ?_
    | intro _
    | (extract_lets +onlyGivenNames x; apply thenHave (p := P x); (unfold x; clear x); rotate_left 1; (intro hx; clear_value x))
    | (extract_lets +onlyGivenNames x; apply thenHave (p := P x.st); (unfold x; clear x); rotate_left 1; (intro hx; clear_value x))
    | (extract_lets +onlyGivenNames x; apply thenHave (p := P x.2); (unfold x; clear x); rotate_left 1; (intro hx; clear_value x))
    | (extract_lets +onlyGivenNames x; apply thenHave (p := P x.1); (unfold x; clear x); rotate_left 1; (intro hx; clear_value x))
    | (extract_lets +onlyGivenNames x; apply thenHave (p := P x.2.1); (unfold x; clear x); rotate_left 1; (intro hx; clear_value x))
    | (extract_lets +onlyGivenNames x; apply thenHave (p := P x.2.2); (unfold x; clear x); rotate_left 1; (intro hx; clear_value x))
    | (extract_lets +onlyGivenNames x; clear_value x)
    | (extract_lets +onlyGivenNames x)
    | refine ite_closed ?_ ?_
    | refine res_ite ?_ ?_
    | split

def Foot.execLdAcc (K : Part → Bool) : Bool := Foot.pairLoad K && (Foot.setA K)

theorem execLdAcc_closed {K : Part → Bool} {P : State → Prop} {k : CoreId} {n : Fin 8} {m : PairMode} {s : State} (hP :
    Closed K P) (hK : Foot.execLdAcc K = true) (hs_s : P s) :
    OutAll P (execLdAcc k n m s) := by
  simp only [Foot.execLdAcc, Bool.and_eq_true] at hK
  obtain ⟨hK0, hK1⟩ := hK
  unfold execLdAcc
  with_reducible repeat' first
    | assumption
    | refine pairLoad_closed hP ?_ ?_ ?_
    | refine setA_closed hP ?_ ?_
    | refine OutAll.mk ?_
    | intro _

def Foot.execLdDpair (K : Part → Bool) : Bool := Foot.pairLoad K && (Foot.setD K)

theorem execLdDpair_closed {K : Part → Bool} {P : State → Prop} {k : CoreId} {n : Fin 8} {m : PairMode} {s : State} (hP :
    Closed K P) (hK : Foot.execLdDpair K = true) (hs_s : P s) :
    OutAll P (execLdDpair k n m s) := by
  simp only [Foot.execLdDpair, Bool.and_eq_true] at hK
  obtain ⟨hK0, hK1⟩ := hK
  unfold execLdDpair
  with_reducible repeat' first
    | assumption
    | refine pairLoad_closed hP ?_ ?_ ?_
    | refine setD_closed hP ?_ ?_
    | refine OutAll.mk ?_
    | intro _

def Foot.execLdPreg (K : Part → Bool) : Bool := Foot.pairLoad K && (Foot.setP K)

theorem execLdPreg_closed {K : Part → Bool} {P : State → Prop} {k : CoreId} {n : Fin 8} {m : PairMode} {s : State} (hP :
    Closed K P) (hK : Foot.execLdPreg K = true) (hs_s : P s) :
    OutAll P (execLdPreg k n m s) := by
  simp only [Foot.execLdPreg, Bool.and_eq_true] at hK
  obtain ⟨hK0, hK1⟩ := hK
  unfold execLdPreg
  with_reducible repeat' first
    | assumption
    | refine pairLoad_closed hP ?_ ?_ ?_
    | refine setP_closed hP ?_ ?_
    | refine OutAll.mk ?_
    | intro _

def Foot.execLea (K : Part → Bool) : Bool := Foot.pointerOp K

theorem execLea_closed {K : Part → Bool} {P : State → Prop} {k : CoreId} {n : Fin 8} {o : BitVec 16} {s : State} (hP : Closed
    K P) (hK : Foot.execLea K = true) (hs_s : P s) :
    OutAll P (execLea k n o s) := by
  simp only [Foot.execLea, Bool.and_eq_true] at hK
  unfold execLea
  with_reducible repeat' first
    | assumption
    | refine pointerOp_closed hP ?_ ?_
    | refine OutAll.mk ?_
    | intro _

def Foot.execMovDp (K : Part → Bool) : Bool := Foot.coreStep K && (Foot.setD K)

theorem execMovDp_closed {K : Part → Bool} {P : State → Prop} {k : CoreId} {d : Fin 8} {n : Fin 8} {s : State} (hP : Closed K
    P) (hK : Foot.execMovDp K = true) (hs_s : P s) :
    OutAll P (execMovDp k d n s) := by
  simp only [Foot.execMovDp, Bool.and_eq_true] at hK
  obtain ⟨hK0, hK1⟩ := hK
  unfold execMovDp
  with_reducible repeat' first
    | assumption
    | refine coreStep_closed hP ?_ ?_ ?_
    | refine setD_closed hP ?_ ?_
    | refine OutAll.mk ?_
    | refine res_done ?_
    | intro _

def Foot.execMovb (K : Part → Bool) : Bool := Foot.coreStep K && (Foot.load K && (Foot.store K && (Foot.elementDone K &&
    (Foot.setP K))))

theorem execMovb_closed {K : Part → Bool} {P : State → Prop} {k : CoreId} {pd : Fin 8} {ps : Fin 8} {c : Fin 4} {s : State}
    (hP : Closed K P) (hK : Foot.execMovb K = true) (hs_s : P s) :
    OutAll P (execMovb k pd ps c s) := by
  simp only [Foot.execMovb, Bool.and_eq_true] at hK
  obtain ⟨hK0, hK1, hK2, hK3, hK4⟩ := hK
  unfold execMovb
  with_reducible repeat' first
    | assumption
    | refine coreStep_closed hP ?_ ?_ ?_
    | refine load_closed hP ?_ ?_
    | refine store_closed hP ?_ ?_
    | refine elementDone_closed hP ?_ ?_
    | refine setP_closed hP ?_ ?_
    | refine OutAll.mk ?_
    | refine res_done ?_
    | refine res_stay ?_
    | refine res_jump ?_
    | refine res_fault ?_
    | (dsimp -zeta only)
    | refine of_snd (by assumption) ?_
    | refine of_fst (by assumption) ?_
    | refine of_mid (by assumption) ?_
    | refine of_trd (by assumption) ?_
    | refine of_fth (by assumption) ?_
    | refine of_done (by assumption) ?_
    | refine of_stay (by assumption) ?_
    | refine of_jump (by assumption) ?_
    | refine of_fault (by assumption) ?_
    | refine ExcAll.snd ?_
    | refine ExcAll.ok ?_ ?_
    | refine ExcAll.err ?_
    | refine of_ok (by assumption) ?_
    | refine of_okSnd (by assumption) ?_
    | refine of_err (by assumption) ?_
    | intro _
    | (extract_lets +onlyGivenNames x; apply thenHave (p := P x); (unfold x; clear x); rotate_left 1; (intro hx; clear_value x))
    | (extract_lets +onlyGivenNames x; apply thenHave (p := P x.st); (unfold x; clear x); rotate_left 1; (intro hx; clear_value x))
    | (extract_lets +onlyGivenNames x; apply thenHave (p := P x.2); (unfold x; clear x); rotate_left 1; (intro hx; clear_value x))
    | (extract_lets +onlyGivenNames x; apply thenHave (p := P x.1); (unfold x; clear x); rotate_left 1; (intro hx; clear_value x))
    | (extract_lets +onlyGivenNames x; apply thenHave (p := P x.2.1); (unfold x; clear x); rotate_left 1; (intro hx; clear_value x))
    | (extract_lets +onlyGivenNames x; apply thenHave (p := P x.2.2); (unfold x; clear x); rotate_left 1; (intro hx; clear_value x))
    | (extract_lets +onlyGivenNames x; clear_value x)
    | (extract_lets +onlyGivenNames x)
    | refine ite_closed ?_ ?_
    | refine res_ite ?_ ?_
    | split

def Foot.execMovdh (K : Part → Bool) : Bool := Foot.coreStep K && (Foot.setD K)

theorem execMovdh_closed {K : Part → Bool} {P : State → Prop} {k : CoreId} {d : Fin 8} {n : Fin 8} {s : State} (hP : Closed K
    P) (hK : Foot.execMovdh K = true) (hs_s : P s) :
    OutAll P (execMovdh k d n s) := by
  simp only [Foot.execMovdh, Bool.and_eq_true] at hK
  obtain ⟨hK0, hK1⟩ := hK
  unfold execMovdh
  with_reducible repeat' first
    | assumption
    | refine coreStep_closed hP ?_ ?_ ?_
    | refine setD_closed hP ?_ ?_
    | refine OutAll.mk ?_
    | refine res_done ?_
    | intro _

def Foot.execMovp (K : Part → Bool) : Bool := Foot.pointerOp K

theorem execMovp_closed {K : Part → Bool} {P : State → Prop} {k : CoreId} {n : Fin 8} {v : W16} {s : State} (hP : Closed K P)
    (hK : Foot.execMovp K = true) (hs_s : P s) :
    OutAll P (execMovp k n v s) := by
  simp only [Foot.execMovp, Bool.and_eq_true] at hK
  unfold execMovp
  with_reducible repeat' first
    | assumption
    | refine pointerOp_closed hP ?_ ?_
    | refine OutAll.mk ?_
    | intro _

def Foot.execMovpD (K : Part → Bool) : Bool := Foot.pointerOp K

theorem execMovpD_closed {K : Part → Bool} {P : State → Prop} {k : CoreId} {n : Fin 8} {d : Fin 8} {s : State} (hP : Closed K
    P) (hK : Foot.execMovpD K = true) (hs_s : P s) :
    OutAll P (execMovpD k n d s) := by
  simp only [Foot.execMovpD, Bool.and_eq_true] at hK
  unfold execMovpD
  with_reducible repeat' first
    | assumption
    | refine pointerOp_closed hP ?_ ?_
    | refine OutAll.mk ?_
    | intro _

def Foot.execMovpP (K : Part → Bool) : Bool := Foot.pointerOp K

theorem execMovpP_closed {K : Part → Bool} {P : State → Prop} {k : CoreId} {n : Fin 8} {m : Fin 8} {s : State} (hP : Closed K
    P) (hK : Foot.execMovpP K = true) (hs_s : P s) :
    OutAll P (execMovpP k n m s) := by
  simp only [Foot.execMovpP, Bool.and_eq_true] at hK
  unfold execMovpP
  with_reducible repeat' first
    | assumption
    | refine pointerOp_closed hP ?_ ?_
    | refine OutAll.mk ?_
    | intro _

def Foot.execMovph (K : Part → Bool) : Bool := Foot.pointerOp K

theorem execMovph_closed {K : Part → Bool} {P : State → Prop} {k : CoreId} {n : Fin 8} {v : W16} {s : State} (hP : Closed K
    P) (hK : Foot.execMovph K = true) (hs_s : P s) :
    OutAll P (execMovph k n v s) := by
  simp only [Foot.execMovph, Bool.and_eq_true] at hK
  unfold execMovph
  with_reducible repeat' first
    | assumption
    | refine pointerOp_closed hP ?_ ?_
    | refine OutAll.mk ?_
    | intro _

def Foot.execMovphD (K : Part → Bool) : Bool := Foot.pointerOp K

theorem execMovphD_closed {K : Part → Bool} {P : State → Prop} {k : CoreId} {n : Fin 8} {d : Fin 8} {s : State} (hP : Closed
    K P) (hK : Foot.execMovphD K = true) (hs_s : P s) :
    OutAll P (execMovphD k n d s) := by
  simp only [Foot.execMovphD, Bool.and_eq_true] at hK
  unfold execMovphD
  with_reducible repeat' first
    | assumption
    | refine pointerOp_closed hP ?_ ?_
    | refine OutAll.mk ?_
    | intro _

def Foot.execSt (K : Part → Bool) : Bool := Foot.coreStep K && (Foot.store K && (Foot.putPointer K))

theorem execSt_closed {K : Part → Bool} {P : State → Prop} {k : CoreId} {d : Fin 8} {m : AddrMode} {s : State} (hP : Closed K
    P) (hK : Foot.execSt K = true) (hs_s : P s) :
    OutAll P (execSt k d m s) := by
  simp only [Foot.execSt, Bool.and_eq_true] at hK
  obtain ⟨hK0, hK1, hK2⟩ := hK
  unfold execSt
  with_reducible repeat' first
    | assumption
    | refine coreStep_closed hP ?_ ?_ ?_
    | refine store_closed hP ?_ ?_
    | refine putPointer_closed hP ?_ ?_
    | refine OutAll.mk ?_
    | refine res_done ?_
    | refine res_fault ?_
    | refine ExcAll.snd ?_
    | refine ExcAll.ok ?_ ?_
    | refine ExcAll.err ?_
    | refine of_ok (by assumption) ?_
    | refine of_okSnd (by assumption) ?_
    | refine of_err (by assumption) ?_
    | intro _
    | (extract_lets +onlyGivenNames x; apply thenHave (p := P x); (unfold x; clear x); rotate_left 1; (intro hx; clear_value x))
    | (extract_lets +onlyGivenNames x; clear_value x)
    | split

def Foot.pairStore (K : Part → Bool) : Bool := Foot.coreStep K && (Foot.store K && (Foot.putPointer K))

theorem pairStore_closed {K : Part → Bool} {P : State → Prop} {s : State} {k : Nat} {m : PairMode} {u : Use} {bad : Bool}
    {get : State → List Int} (hP : Closed K P) (hK : Foot.pairStore K = true) (hs_s : P s) :
    OutAll P (pairStore s k m u bad get) := by
  simp only [Foot.pairStore, Bool.and_eq_true] at hK
  obtain ⟨hK0, hK1, hK2⟩ := hK
  unfold pairStore
  with_reducible repeat' first
    | assumption
    | refine coreStep_closed hP ?_ ?_ ?_
    | refine store_closed hP ?_ ?_
    | refine putPointer_closed hP ?_ ?_
    | refine OutAll.mk ?_
    | refine res_done ?_
    | refine res_fault ?_
    | refine ExcAll.snd ?_
    | refine ExcAll.ok ?_ ?_
    | refine ExcAll.err ?_
    | refine of_ok (by assumption) ?_
    | refine of_okSnd (by assumption) ?_
    | refine of_err (by assumption) ?_
    | intro _
    | (extract_lets +onlyGivenNames x; apply thenHave (p := P x); (unfold x; clear x); rotate_left 1; (intro hx; clear_value x))
    | (extract_lets +onlyGivenNames x; clear_value x)
    | refine ite_closed ?_ ?_
    | refine res_ite ?_ ?_
    | split

def Foot.execStAcc (K : Part → Bool) : Bool := Foot.pairStore K

theorem execStAcc_closed {K : Part → Bool} {P : State → Prop} {k : CoreId} {n : Fin 8} {m : PairMode} {s : State} (hP :
    Closed K P) (hK : Foot.execStAcc K = true) (hs_s : P s) :
    OutAll P (execStAcc k n m s) := by
  simp only [Foot.execStAcc, Bool.and_eq_true] at hK
  unfold execStAcc
  with_reducible repeat' first
    | assumption
    | refine pairStore_closed hP ?_ ?_
    | refine OutAll.mk ?_
    | intro _

def Foot.execStDpair (K : Part → Bool) : Bool := Foot.pairStore K

theorem execStDpair_closed {K : Part → Bool} {P : State → Prop} {k : CoreId} {n : Fin 8} {m : PairMode} {s : State} (hP :
    Closed K P) (hK : Foot.execStDpair K = true) (hs_s : P s) :
    OutAll P (execStDpair k n m s) := by
  simp only [Foot.execStDpair, Bool.and_eq_true] at hK
  unfold execStDpair
  with_reducible repeat' first
    | assumption
    | refine pairStore_closed hP ?_ ?_
    | refine OutAll.mk ?_
    | intro _

def Foot.execStPreg (K : Part → Bool) : Bool := Foot.pairStore K

theorem execStPreg_closed {K : Part → Bool} {P : State → Prop} {k : CoreId} {n : Fin 8} {m : PairMode} {s : State} (hP :
    Closed K P) (hK : Foot.execStPreg K = true) (hs_s : P s) :
    OutAll P (execStPreg k n m s) := by
  simp only [Foot.execStPreg, Bool.and_eq_true] at hK
  unfold execStPreg
  with_reducible repeat' first
    | assumption
    | refine pairStore_closed hP ?_ ?_
    | refine OutAll.mk ?_
    | intro _

def Foot.execStoreBufferDrain (K : Part → Bool) : Bool := Foot.drainOldest K

theorem execStoreBufferDrain_closed {K : Part → Bool} {P : State → Prop} {k : CoreId} {s : State} (hP : Closed K P) (hK :
    Foot.execStoreBufferDrain K = true) (hs_s : P s) :
    OutAll P (execStoreBufferDrain k s) := by
  simp only [Foot.execStoreBufferDrain, Bool.and_eq_true] at hK
  unfold execStoreBufferDrain
  with_reducible repeat' first
    | assumption
    | refine drainOldest_closed hP ?_ ?_
    | refine OutAll.mk ?_

end Sys2Proof.Machine
end

