-- ==== Sys2Proof/Laws/ClosedJtag.lean ====
section
/-! SUPPORT. What the functions of Machine/Jtag.lean can write, and that they keep every closed property (Laws/Closed.lean). -/
namespace Sys2Proof.Machine

set_option Elab.async false
set_option linter.all false

def Foot.tapLoad (K : Part → Bool) : Bool := K (.fld .tapOut) && (K (.fld .enableHold) && (K (.fld .tapIr) && (K (.fld
    .tapErr))))

theorem tapLoad_closed {K : Part → Bool} {P : State → Prop} {s : State} {code : Int} {blocked : Bool} {hold : Bool} (hP :
    Closed K P) (hK : Foot.tapLoad K = true) (hs_s : P s) :
    P (tapLoad s code blocked hold) := by
  simp only [Foot.tapLoad, Bool.and_eq_true] at hK
  obtain ⟨hK0, hK1, hK2, hK3⟩ := hK
  unfold tapLoad
  with_reducible repeat' first
    | assumption
    | refine hP.put _ _ _ _ _ ?_ ?_
    | (extract_lets +onlyGivenNames x; apply thenHave (p := P x); (unfold x; clear x); rotate_left 1; (intro hx; clear_value x))
    | (extract_lets +onlyGivenNames x; clear_value x)

theorem tapLoad_get {s : State} {code : Int} {blocked : Bool} {hold : Bool} {fld0 : Fld} {i0 j0 : Nat} (hK : Foot.tapLoad
    (notFld fld0) = true)  : (tapLoad s code blocked hold).get fld0 i0 j0 = s.get fld0 i0 j0 :=
  tapLoad_closed (P := fun x => x.get fld0 i0 j0 = s.get fld0 i0 j0) (field_closed fld0 i0 j0 _) hK  rfl

def Foot.debugAccess (K : Part → Bool) : Bool := K (.fld .coreDbg) && (K (.fld .coreHalt) && (Foot.tapLoad K && (Foot.mcReset
    K)))

theorem debugAccess_closed {K : Part → Bool} {P : State → Prop} {s : State} {code : Nat} {act : DebugAct} (hP : Closed K P)
    (hK : Foot.debugAccess K = true) (hs_s : P s) :
    P (debugAccess s code act) := by
  simp only [Foot.debugAccess, Bool.and_eq_true] at hK
  obtain ⟨hK0, hK1, hK2, hK3⟩ := hK
  unfold debugAccess
  with_reducible repeat' first
    | assumption
    | refine tapLoad_closed hP ?_ ?_
    | refine mcReset_closed hP ?_ ?_
    | refine hP.clear ?_ ?_
    | (extract_lets +onlyGivenNames x; apply thenHave (p := P x); (unfold x; clear x); rotate_left 1; (intro hx; clear_value x))
    | (extract_lets +onlyGivenNames x; clear_value x)
    | refine ite_closed ?_ ?_
    | split

theorem debugAccess_get {s : State} {code : Nat} {act : DebugAct} {fld0 : Fld} {i0 j0 : Nat} (hK : Foot.debugAccess (notFld
    fld0) = true)  : (debugAccess s code act).get fld0 i0 j0 = s.get fld0 i0 j0 :=
  debugAccess_closed (P := fun x => x.get fld0 i0 j0 = s.get fld0 i0 j0) (field_closed fld0 i0 j0 _) hK  rfl

def Foot.execBypass (K : Part → Bool) : Bool := Foot.tapLoad K

theorem execBypass_closed {K : Part → Bool} {P : State → Prop} {s : State} (hP : Closed K P) (hK : Foot.execBypass K = true)
    (hs_s : P s) :
    OutAll P (execBypass s) := by
  simp only [Foot.execBypass, Bool.and_eq_true] at hK
  unfold execBypass
  with_reducible repeat' first
    | assumption
    | refine tapLoad_closed hP ?_ ?_
    | refine OutAll.mk ?_

def Foot.tapDrive (K : Part → Bool) : Bool := K (.fld .tapAt) && (Foot.tapLoad K)

theorem tapDrive_closed {K : Part → Bool} {P : State → Prop} {s : State} {code : Int} (hP : Closed K P) (hK : Foot.tapDrive K
    = true) (hs_s : P s) :
    P (tapDrive s code) := by
  simp only [Foot.tapDrive, Bool.and_eq_true] at hK
  obtain ⟨hK0, hK1⟩ := hK
  unfold tapDrive
  with_reducible repeat' first
    | assumption
    | refine tapLoad_closed hP ?_ ?_
    | refine hP.put _ _ _ _ _ ?_ ?_
    | refine ite_closed ?_ ?_
    | split

theorem tapDrive_get {s : State} {code : Int} {fld0 : Fld} {i0 j0 : Nat} (hK : Foot.tapDrive (notFld fld0) = true)  :
    (tapDrive s code).get fld0 i0 j0 = s.get fld0 i0 j0 :=
  tapDrive_closed (P := fun x => x.get fld0 i0 j0 = s.get fld0 i0 j0) (field_closed fld0 i0 j0 _) hK  rfl

def Foot.execClamp (K : Part → Bool) : Bool := Foot.tapDrive K

theorem execClamp_closed {K : Part → Bool} {P : State → Prop} {s : State} (hP : Closed K P) (hK : Foot.execClamp K = true)
    (hs_s : P s) :
    OutAll P (execClamp s) := by
  simp only [Foot.execClamp, Bool.and_eq_true] at hK
  unfold execClamp
  with_reducible repeat' first
    | assumption
    | refine tapDrive_closed hP ?_ ?_
    | refine OutAll.mk ?_

def Foot.execDebugAccess (K : Part → Bool) : Bool := Foot.debugAccess K

theorem execDebugAccess_closed {K : Part → Bool} {P : State → Prop} {code : Fin 16} {act : DebugAct} {s : State} (hP : Closed
    K P) (hK : Foot.execDebugAccess K = true) (hs_s : P s) :
    OutAll P (execDebugAccess code act s) := by
  simp only [Foot.execDebugAccess, Bool.and_eq_true] at hK
  unfold execDebugAccess
  with_reducible repeat' first
    | assumption
    | refine debugAccess_closed hP ?_ ?_
    | refine OutAll.mk ?_

def Foot.execExtest (K : Part → Bool) : Bool := Foot.tapDrive K

theorem execExtest_closed {K : Part → Bool} {P : State → Prop} {s : State} (hP : Closed K P) (hK : Foot.execExtest K = true)
    (hs_s : P s) :
    OutAll P (execExtest s) := by
  simp only [Foot.execExtest, Bool.and_eq_true] at hK
  unfold execExtest
  with_reducible repeat' first
    | assumption
    | refine tapDrive_closed hP ?_ ?_
    | refine OutAll.mk ?_

def Foot.execHighz (K : Part → Bool) : Bool := Foot.tapDrive K

theorem execHighz_closed {K : Part → Bool} {P : State → Prop} {s : State} (hP : Closed K P) (hK : Foot.execHighz K = true)
    (hs_s : P s) :
    OutAll P (execHighz s) := by
  simp only [Foot.execHighz, Bool.and_eq_true] at hK
  unfold execHighz
  with_reducible repeat' first
    | assumption
    | refine tapDrive_closed hP ?_ ?_
    | refine OutAll.mk ?_

def Foot.execIdcode (K : Part → Bool) : Bool := K (.fld .tapOut) && (Foot.tapLoad K)

theorem execIdcode_closed {K : Part → Bool} {P : State → Prop} {s : State} (hP : Closed K P) (hK : Foot.execIdcode K = true)
    (hs_s : P s) :
    OutAll P (execIdcode s) := by
  simp only [Foot.execIdcode, Bool.and_eq_true] at hK
  obtain ⟨hK0, hK1⟩ := hK
  unfold execIdcode
  with_reducible repeat' first
    | assumption
    | refine tapLoad_closed hP ?_ ?_
    | refine hP.put _ _ _ _ _ ?_ ?_
    | refine OutAll.mk ?_

def Foot.execSamplePreload (K : Part → Bool) : Bool := K (.fld .tapCells) && (Foot.tapLoad K)

theorem execSamplePreload_closed {K : Part → Bool} {P : State → Prop} {cells : BitVec 1024} {s : State} (hP : Closed K P) (hK
    : Foot.execSamplePreload K = true) (hs_s : P s) :
    OutAll P (execSamplePreload cells s) := by
  simp only [Foot.execSamplePreload, Bool.and_eq_true] at hK
  obtain ⟨hK0, hK1⟩ := hK
  unfold execSamplePreload
  with_reducible repeat' first
    | assumption
    | refine tapLoad_closed hP ?_ ?_
    | refine hP.put _ _ _ _ _ ?_ ?_
    | refine OutAll.mk ?_

def Foot.tapReset (K : Part → Bool) : Bool := K (.fld .enableHold) && (K (.fld .tapErr) && (K (.fld .tapIr)))

theorem tapReset_closed {K : Part → Bool} {P : State → Prop} {s : State} (hP : Closed K P) (hK : Foot.tapReset K = true)
    (hs_s : P s) :
    P (tapReset s) := by
  simp only [Foot.tapReset, Bool.and_eq_true] at hK
  obtain ⟨hK0, hK1, hK2⟩ := hK
  unfold tapReset
  with_reducible repeat' first
    | assumption
    | refine hP.put _ _ _ _ _ ?_ ?_
    | refine hP.clear ?_ ?_

theorem tapReset_get {s : State} {fld0 : Fld} {i0 j0 : Nat} (hK : Foot.tapReset (notFld fld0) = true)  : (tapReset s).get
    fld0 i0 j0 = s.get fld0 i0 j0 :=
  tapReset_closed (P := fun x => x.get fld0 i0 j0 = s.get fld0 i0 j0) (field_closed fld0 i0 j0 _) hK  rfl

def Foot.execTapReset (K : Part → Bool) : Bool := Foot.tapReset K

theorem execTapReset_closed {K : Part → Bool} {P : State → Prop} {s : State} (hP : Closed K P) (hK : Foot.execTapReset K =
    true) (hs_s : P s) :
    OutAll P (execTapReset s) := by
  simp only [Foot.execTapReset, Bool.and_eq_true] at hK
  unfold execTapReset
  with_reducible repeat' first
    | assumption
    | refine tapReset_closed hP ?_ ?_
    | refine OutAll.mk ?_

end Sys2Proof.Machine
end

