-- ==== Sys2Proof/Laws/ClosedTick.lean ====
section
/-! SUPPORT. What the functions of Machine/Tick.lean can write, and that they keep every closed property (Laws/Closed.lean). -/
namespace Sys2Proof.Machine

set_option Elab.async false
set_option linter.all false

def Foot.computeStage (K : Part → Bool) : Bool := Foot.totalsUpdate K && (Foot.rocCount K && (Foot.loadEstimate K &&
    (Foot.postStage K && (Foot.stressAccumulate K && (Foot.shedEvaluate K && (Foot.burstCount K))))))

theorem computeStage_closed {K : Part → Bool} {P : State → Prop} {s : State} (hP : Closed K P) (hK : Foot.computeStage K =
    true) (hs_s : P s) :
    P (computeStage s) := by
  simp only [Foot.computeStage, Bool.and_eq_true] at hK
  obtain ⟨hK0, hK1, hK2, hK3, hK4, hK5, hK6⟩ := hK
  unfold computeStage
  with_reducible repeat' first
    | assumption
    | refine totalsUpdate_closed hP ?_ ?_
    | refine rocCount_closed hP ?_ ?_
    | refine loadEstimate_closed hP ?_ ?_
    | refine postStage_closed hP ?_ ?_
    | refine stressAccumulate_closed hP ?_ ?_
    | refine shedEvaluate_closed hP ?_ ?_
    | refine burstCount_closed hP ?_ ?_
    | refine Closed.each ?_ _ ?_
    | intro _
    | (extract_lets +onlyGivenNames x; apply thenHave (p := P x); (unfold x; clear x); rotate_left 1; (intro hx; clear_value x))
    | (extract_lets +onlyGivenNames x; clear_value x)

theorem computeStage_get {s : State} {fld0 : Fld} {i0 j0 : Nat} (hK : Foot.computeStage (notFld fld0) = true)  :
    (computeStage s).get fld0 i0 j0 = s.get fld0 i0 j0 :=
  computeStage_closed (P := fun x => x.get fld0 i0 j0 = s.get fld0 i0 j0) (field_closed fld0 i0 j0 _) hK  rfl

def Foot.noteEnables (K : Part → Bool) : Bool := K (.fld .enWas)

theorem noteEnables_closed {K : Part → Bool} {P : State → Prop} {s : State} (hP : Closed K P) (hK : Foot.noteEnables K =
    true) (hs_s : P s) :
    P (noteEnables s) := by
  simp only [Foot.noteEnables, Bool.and_eq_true] at hK
  unfold noteEnables
  with_reducible repeat' first
    | assumption
    | refine hP.put _ _ _ _ _ ?_ ?_
    | refine Closed.each ?_ _ ?_
    | intro _

theorem noteEnables_get {s : State} {fld0 : Fld} {i0 j0 : Nat} (hK : Foot.noteEnables (notFld fld0) = true)  : (noteEnables
    s).get fld0 i0 j0 = s.get fld0 i0 j0 :=
  noteEnables_closed (P := fun x => x.get fld0 i0 j0 = s.get fld0 i0 j0) (field_closed fld0 i0 j0 _) hK  rfl

def Foot.tickWrites (K : Part → Bool) : Bool := K (.fld .tick) && ((allFld fun f => K (.fld f)) && (K .writes &&
    (Foot.compareBoundary K)))

theorem tickWrites_closed {K : Part → Bool} {P : State → Prop} {s : State} (hP : Closed K P) (hK : Foot.tickWrites K = true)
    (hs_s : P s) :
    P (tickWrites s) := by
  simp only [Foot.tickWrites, Bool.and_eq_true] at hK
  obtain ⟨hK0, hK1, hK2, hK3⟩ := hK
  unfold tickWrites
  with_reducible repeat' first
    | assumption
    | refine allFld_fld ?_ _
    | refine compareBoundary_closed hP ?_ ?_
    | refine hP.put _ _ _ _ _ ?_ ?_
    | refine Closed.each ?_ _ ?_
    | intro _
    | (extract_lets +onlyGivenNames x; apply thenHave (p := P x); (unfold x; clear x); rotate_left 1; (intro hx; clear_value x))
    | (extract_lets +onlyGivenNames x; clear_value x)
    | refine hP.remake _ _ _ _ _ _ _ _ _ _ _ _ _ _ _ _ _ _ _ _ _ _ _ (hs := ?_); first | assumption | (with_reducible refine allFld_fld ?_ _) | (with_reducible refine compareBoundary_closed hP ?_ ?_) | (with_reducible refine hP.put _ _ _ _ _ ?_ ?_) | (with_reducible refine hP.clear ?_ ?_) | (with_reducible refine hP.raise ?_ ?_) | (with_reducible refine hP.bump ?_ ?_) | (with_reducible refine hP.setBits ?_ ?_) | (with_reducible refine hP.clrBits ?_ ?_) | (with_reducible refine Closed.each ?_ _ ?_)

theorem tickWrites_get {s : State} {fld0 : Fld} {i0 j0 : Nat} (hK : Foot.tickWrites (notFld fld0) = true)  : (tickWrites
    s).get fld0 i0 j0 = s.get fld0 i0 j0 :=
  tickWrites_closed (P := fun x => x.get fld0 i0 j0 = s.get fld0 i0 j0) (field_closed fld0 i0 j0 _) hK  rfl

def Foot.sampleEnables (K : Part → Bool) : Bool := Foot.enSample K

theorem sampleEnables_closed {K : Part → Bool} {P : State → Prop} {s : State} {inp : TickInput} (hP : Closed K P) (hK :
    Foot.sampleEnables K = true) (hs_s : P s) :
    P (sampleEnables s inp) := by
  simp only [Foot.sampleEnables, Bool.and_eq_true] at hK
  unfold sampleEnables
  with_reducible repeat' first
    | assumption
    | refine enSample_closed hP ?_ ?_
    | refine Closed.each ?_ _ ?_
    | refine Closed.when ?_ ?_
    | intro _

theorem sampleEnables_get {s : State} {inp : TickInput} {fld0 : Fld} {i0 j0 : Nat} (hK : Foot.sampleEnables (notFld fld0) =
    true)  : (sampleEnables s inp).get fld0 i0 j0 = s.get fld0 i0 j0 :=
  sampleEnables_closed (P := fun x => x.get fld0 i0 j0 = s.get fld0 i0 j0) (field_closed fld0 i0 j0 _) hK  rfl

def Foot.endOfTick (K : Part → Bool) : Bool := K (.fld .telBurst) && (Foot.auxCount K && (Foot.countTickStates K &&
    (Foot.tfltSample K)))

theorem endOfTick_closed {K : Part → Bool} {P : State → Prop} {s : State} {inp : TickInput} (hP : Closed K P) (hK :
    Foot.endOfTick K = true) (hs_s : P s) :
    P (endOfTick s inp) := by
  simp only [Foot.endOfTick, Bool.and_eq_true] at hK
  obtain ⟨hK0, hK1, hK2, hK3⟩ := hK
  unfold endOfTick
  with_reducible repeat' first
    | assumption
    | refine auxCount_closed hP ?_ ?_
    | refine countTickStates_closed hP ?_ ?_
    | refine tfltSample_closed hP ?_ ?_
    | refine hP.raise ?_ ?_
    | refine Closed.each ?_ _ ?_
    | refine Closed.when ?_ ?_
    | intro _
    | (extract_lets +onlyGivenNames x; apply thenHave (p := P x); (unfold x; clear x); rotate_left 1; (intro hx; clear_value x))
    | (extract_lets +onlyGivenNames x; clear_value x)

theorem endOfTick_get {s : State} {inp : TickInput} {fld0 : Fld} {i0 j0 : Nat} (hK : Foot.endOfTick (notFld fld0) = true)  :
    (endOfTick s inp).get fld0 i0 j0 = s.get fld0 i0 j0 :=
  endOfTick_closed (P := fun x => x.get fld0 i0 j0 = s.get fld0 i0 j0) (field_closed fld0 i0 j0 _) hK  rfl

def Foot.lateStage (K : Part → Bool) : Bool := Foot.forecastRun K && (Foot.laneTick K && (Foot.lsatCount K))

theorem lateStage_closed {K : Part → Bool} {P : State → Prop} {s : State} (hP : Closed K P) (hK : Foot.lateStage K = true)
    (hs_s : P s) :
    P (lateStage s) := by
  simp only [Foot.lateStage, Bool.and_eq_true] at hK
  obtain ⟨hK0, hK1, hK2⟩ := hK
  unfold lateStage
  with_reducible repeat' first
    | assumption
    | refine forecastRun_closed hP ?_ ?_
    | refine laneTick_closed hP ?_ ?_
    | refine lsatCount_closed hP ?_ ?_
    | refine Closed.each ?_ _ ?_
    | intro _
    | (extract_lets +onlyGivenNames x; apply thenHave (p := P x); (unfold x; clear x); rotate_left 1; (intro hx; clear_value x))
    | (extract_lets +onlyGivenNames x; clear_value x)
    | (extract_lets +onlyGivenNames x)
    | refine ite_closed ?_ ?_
    | split

theorem lateStage_get {s : State} {fld0 : Fld} {i0 j0 : Nat} (hK : Foot.lateStage (notFld fld0) = true)  : (lateStage s).get
    fld0 i0 j0 = s.get fld0 i0 j0 :=
  lateStage_closed (P := fun x => x.get fld0 i0 j0 = s.get fld0 i0 j0) (field_closed fld0 i0 j0 _) hK  rfl

def Foot.programStage (K : Part → Bool) : Bool := Foot.goBoundary K && (Foot.programRail K)

theorem programStage_closed {K : Part → Bool} {P : State → Prop} {s : State} (hP : Closed K P) (hK : Foot.programStage K =
    true) (hs_s : P s) :
    P (programStage s) := by
  simp only [Foot.programStage, Bool.and_eq_true] at hK
  obtain ⟨hK0, hK1⟩ := hK
  unfold programStage
  with_reducible repeat' first
    | assumption
    | refine goBoundary_closed hP ?_ ?_
    | refine programRail_closed hP ?_ ?_
    | refine Closed.each ?_ _ ?_
    | intro _
    | (extract_lets +onlyGivenNames x; apply thenHave (p := P x); (unfold x; clear x); rotate_left 1; (intro hx; clear_value x))
    | (extract_lets +onlyGivenNames x; clear_value x)
    | (extract_lets +onlyGivenNames x)
    | refine ite_closed ?_ ?_
    | split

theorem programStage_get {s : State} {fld0 : Fld} {i0 j0 : Nat} (hK : Foot.programStage (notFld fld0) = true)  :
    (programStage s).get fld0 i0 j0 = s.get fld0 i0 j0 :=
  programStage_closed (P := fun x => x.get fld0 i0 j0 = s.get fld0 i0 j0) (field_closed fld0 i0 j0 _) hK  rfl

def Foot.serviceStage (K : Part → Bool) : Bool := Foot.recorderTick K && (Foot.strandTick K && (Foot.watchdogTick K &&
    (Foot.pruneCommits K)))

theorem serviceStage_closed {K : Part → Bool} {P : State → Prop} {s : State} (hP : Closed K P) (hK : Foot.serviceStage K =
    true) (hs_s : P s) :
    P (serviceStage s) := by
  simp only [Foot.serviceStage, Bool.and_eq_true] at hK
  obtain ⟨hK0, hK1, hK2, hK3⟩ := hK
  unfold serviceStage
  with_reducible repeat' first
    | assumption
    | refine recorderTick_closed hP ?_ ?_
    | refine strandTick_closed hP ?_ ?_
    | refine watchdogTick_closed hP ?_ ?_
    | refine pruneCommits_closed hP ?_ ?_
    | refine Closed.each ?_ _ ?_
    | intro _
    | (extract_lets +onlyGivenNames x; apply thenHave (p := P x); (unfold x; clear x); rotate_left 1; (intro hx; clear_value x))
    | (extract_lets +onlyGivenNames x; clear_value x)
    | (extract_lets +onlyGivenNames x)
    | refine ite_closed ?_ ?_
    | split

theorem serviceStage_get {s : State} {fld0 : Fld} {i0 j0 : Nat} (hK : Foot.serviceStage (notFld fld0) = true)  :
    (serviceStage s).get fld0 i0 j0 = s.get fld0 i0 j0 :=
  serviceStage_closed (P := fun x => x.get fld0 i0 j0 = s.get fld0 i0 j0) (field_closed fld0 i0 j0 _) hK  rfl

def Foot.outputStage (K : Part → Bool) : Bool := K (.fld .forced) && (Foot.isolateCluster K && (Foot.abandonSteps K &&
    (Foot.retireBoundary K && (Foot.csubBoundary K && (Foot.sluiceBoundary K && (Foot.declaredBoundary K &&
    (Foot.weirBoundary K && (Foot.refreshSpill K && (Foot.allOffBoundary K && (Foot.insertStage K && (Foot.looseStage
    K)))))))))))

theorem outputStage_closed {K : Part → Bool} {P : State → Prop} {s : State} (hP : Closed K P) (hK : Foot.outputStage K =
    true) (hs_s : P s) :
    P (outputStage s) := by
  simp only [Foot.outputStage, Bool.and_eq_true] at hK
  obtain ⟨hK0, hK1, hK2, hK3, hK4, hK5, hK6, hK7, hK8, hK9, hK10, hK11⟩ := hK
  unfold outputStage
  with_reducible repeat' first
    | assumption
    | refine isolateCluster_closed hP ?_ ?_
    | refine abandonSteps_closed hP ?_ ?_
    | refine retireBoundary_closed hP ?_ ?_
    | refine csubBoundary_closed hP ?_ ?_
    | refine sluiceBoundary_closed hP ?_ ?_
    | refine declaredBoundary_closed hP ?_ ?_
    | refine weirBoundary_closed hP ?_ ?_
    | refine refreshSpill_closed hP ?_ ?_
    | refine allOffBoundary_closed hP ?_ ?_
    | refine insertStage_closed hP ?_ ?_
    | refine looseStage_closed hP ?_ ?_
    | refine hP.put _ _ _ _ _ ?_ ?_
    | refine Closed.each ?_ _ ?_
    | intro _
    | (extract_lets +onlyGivenNames x; apply thenHave (p := P x); (unfold x; clear x); rotate_left 1; (intro hx; clear_value x))
    | (extract_lets +onlyGivenNames x; clear_value x)

theorem outputStage_get {s : State} {fld0 : Fld} {i0 j0 : Nat} (hK : Foot.outputStage (notFld fld0) = true)  : (outputStage
    s).get fld0 i0 j0 = s.get fld0 i0 j0 :=
  outputStage_closed (P := fun x => x.get fld0 i0 j0 = s.get fld0 i0 j0) (field_closed fld0 i0 j0 _) hK  rfl

def Foot.railStage (K : Part → Bool) : Bool := Foot.bankBoundary K && (Foot.pgoodCount K && (Foot.railBoundary K &&
    (Foot.voltageReached K && (Foot.refMove K && (Foot.freeStopped K && (Foot.laneGate K && (Foot.laneBoundary K &&
    (Foot.freeWaiting K))))))))

theorem railStage_closed {K : Part → Bool} {P : State → Prop} {s : State} (hP : Closed K P) (hK : Foot.railStage K = true)
    (hs_s : P s) :
    P (railStage s) := by
  simp only [Foot.railStage, Bool.and_eq_true] at hK
  obtain ⟨hK0, hK1, hK2, hK3, hK4, hK5, hK6, hK7, hK8⟩ := hK
  unfold railStage
  with_reducible repeat' first
    | assumption
    | refine bankBoundary_closed hP ?_ ?_
    | refine pgoodCount_closed hP ?_ ?_
    | refine railBoundary_closed hP ?_ ?_
    | refine voltageReached_closed hP ?_ ?_
    | refine refMove_closed hP ?_ ?_
    | refine freeStopped_closed hP ?_ ?_
    | refine laneGate_closed hP ?_ ?_
    | refine laneBoundary_closed hP ?_ ?_
    | refine freeWaiting_closed hP ?_ ?_
    | refine Closed.each ?_ _ ?_
    | intro _
    | (extract_lets +onlyGivenNames x; apply thenHave (p := P x); (unfold x; clear x); rotate_left 1; (intro hx; clear_value x))
    | (extract_lets +onlyGivenNames x; clear_value x)
    | (extract_lets +onlyGivenNames x)
    | refine ite_closed ?_ ?_
    | split

theorem railStage_get {s : State} {fld0 : Fld} {i0 j0 : Nat} (hK : Foot.railStage (notFld fld0) = true)  : (railStage s).get
    fld0 i0 j0 = s.get fld0 i0 j0 :=
  railStage_closed (P := fun x => x.get fld0 i0 j0 = s.get fld0 i0 j0) (field_closed fld0 i0 j0 _) hK  rfl

def Foot.controlTick (K : Part → Bool) : Bool := Foot.noteEnables K && (Foot.tickWrites K && (Foot.sampleEnables K &&
    (Foot.weirBoundary K && (Foot.together K && (Foot.flumeTick K && (Foot.judgeFaults K && (Foot.endOfTick K &&
    (Foot.lateStage K && (Foot.programStage K && (Foot.serviceStage K && (Foot.computeStage K && (Foot.outputStage K &&
    (Foot.railStage K)))))))))))))

theorem controlTick_closed {K : Part → Bool} {P : State → Prop} {s : State} {inp : TickInput} (hP : Closed K P) (hK :
    Foot.controlTick K = true) (hs_s : P s) :
    P (controlTick s inp) := by
  simp only [Foot.controlTick, Bool.and_eq_true] at hK
  obtain ⟨hK0, hK1, hK2, hK3, hK4, hK5, hK6, hK7, hK8, hK9, hK10, hK11, hK12, hK13⟩ := hK
  unfold controlTick
  with_reducible repeat' first
    | assumption
    | refine noteEnables_closed hP ?_ ?_
    | refine tickWrites_closed hP ?_ ?_
    | refine sampleEnables_closed hP ?_ ?_
    | refine weirBoundary_closed hP ?_ ?_
    | refine together_closed hP ?_ ?_ ?_
    | refine flumeTick_closed hP ?_ ?_
    | refine judgeFaults_closed hP ?_ ?_
    | refine endOfTick_closed hP ?_ ?_
    | refine lateStage_closed hP ?_ ?_
    | refine programStage_closed hP ?_ ?_
    | refine serviceStage_closed hP ?_ ?_
    | refine computeStage_closed hP ?_ ?_
    | refine outputStage_closed hP ?_ ?_
    | refine railStage_closed hP ?_ ?_
    | refine Closed.each ?_ _ ?_
    | intro _
    | (extract_lets +onlyGivenNames x; apply thenHave (p := P x); (unfold x; clear x); rotate_left 1; (intro hx; clear_value x))
    | (extract_lets +onlyGivenNames x; clear_value x)
    | (extract_lets +onlyGivenNames x)
    | refine ite_closed ?_ ?_
    | split

theorem controlTick_get {s : State} {inp : TickInput} {fld0 : Fld} {i0 j0 : Nat} (hK : Foot.controlTick (notFld fld0) = true)
     : (controlTick s inp).get fld0 i0 j0 = s.get fld0 i0 j0 :=
  controlTick_closed (P := fun x => x.get fld0 i0 j0 = s.get fld0 i0 j0) (field_closed fld0 i0 j0 _) hK  rfl

def Foot.entryOf (K : Part → Bool) : Bool := Foot.interruptEntry K && (Foot.telemetrySample K)

theorem entryOf_closed {K : Part → Bool} {P : State → Prop} {s : State} {k : Nat} (hP : Closed K P) (hK : Foot.entryOf K =
    true) (hs_s : P s) :
    P (entryOf s k) := by
  simp only [Foot.entryOf, Bool.and_eq_true] at hK
  obtain ⟨hK0, hK1⟩ := hK
  unfold entryOf
  with_reducible repeat' first
    | assumption
    | refine interruptEntry_closed hP ?_ ?_
    | refine telemetrySample_closed hP ?_ ?_
    | intro _
    | (extract_lets +onlyGivenNames x; apply thenHave (p := P x); (unfold x; clear x); rotate_left 1; (intro hx; clear_value x))
    | (extract_lets +onlyGivenNames x; clear_value x)
    | refine ite_closed ?_ ?_
    | split

theorem entryOf_get {s : State} {k : Nat} {fld0 : Fld} {i0 j0 : Nat} (hK : Foot.entryOf (notFld fld0) = true)  : (entryOf s
    k).get fld0 i0 j0 = s.get fld0 i0 j0 :=
  entryOf_closed (P := fun x => x.get fld0 i0 j0 = s.get fld0 i0 j0) (field_closed fld0 i0 j0 _) hK  rfl

def Foot.execControlTick (K : Part → Bool) : Bool := Foot.controlTick K

theorem execControlTick_closed {K : Part → Bool} {P : State → Prop} {inp : TickInput} {s : State} (hP : Closed K P) (hK :
    Foot.execControlTick K = true) (hs_s : P s) :
    OutAll P (execControlTick inp s) := by
  simp only [Foot.execControlTick, Bool.and_eq_true] at hK
  unfold execControlTick
  with_reducible repeat' first
    | assumption
    | refine controlTick_closed hP ?_ ?_
    | refine OutAll.mk ?_

def Foot.execInterruptEntry (K : Part → Bool) : Bool := Foot.entryOf K

theorem execInterruptEntry_closed {K : Part → Bool} {P : State → Prop} {k : CoreId} {s : State} (hP : Closed K P) (hK :
    Foot.execInterruptEntry K = true) (hs_s : P s) :
    OutAll P (execInterruptEntry k s) := by
  simp only [Foot.execInterruptEntry, Bool.and_eq_true] at hK
  unfold execInterruptEntry
  with_reducible repeat' first
    | assumption
    | refine entryOf_closed hP ?_ ?_
    | refine OutAll.mk ?_

def Foot.softErrors (K : Part → Bool) : Bool := K .freeCtr && (K .soft && (K .softUc))

theorem softErrors_closed {K : Part → Bool} {P : State → Prop} {s : State} (hP : Closed K P) (hK : Foot.softErrors K = true)
    (hs_s : P s) :
    P (softErrors s) := by
  simp only [Foot.softErrors, Bool.and_eq_true] at hK
  obtain ⟨hK0, hK1, hK2⟩ := hK
  unfold softErrors
  with_reducible repeat' first
    | assumption
    | refine hP.fresh ?_ ?_
    | (extract_lets +onlyGivenNames x; apply thenHave (p := P x); (unfold x; clear x); rotate_left 1; (intro hx; clear_value x))
    | (extract_lets +onlyGivenNames x; clear_value x)
    | refine hP.remake _ _ _ _ _ _ _ _ _ _ _ _ _ _ _ _ _ _ _ _ _ _ _ (hs := ?_); first | assumption | (with_reducible refine hP.fresh ?_ ?_)

theorem softErrors_get {s : State} {fld0 : Fld} {i0 j0 : Nat} (hK : Foot.softErrors (notFld fld0) = true)  : (softErrors
    s).get fld0 i0 j0 = s.get fld0 i0 j0 :=
  softErrors_closed (P := fun x => x.get fld0 i0 j0 = s.get fld0 i0 j0) (field_closed fld0 i0 j0 _) hK  rfl

def Foot.managementTick (K : Part → Bool) : Bool := K (.fld .DM_MTICK) && (K (.fld .mtAt) && (K (.fld .LN_BUSED) && (K (.fld
    .regMt) && (Foot.hwPublish K && (Foot.stressRank K && (Foot.noidBoundary K && (Foot.ditchRound K &&
    (Foot.automaticRotation K && (Foot.summaryAssemble K && (Foot.softErrors K))))))))))

theorem managementTick_closed {K : Part → Bool} {P : State → Prop} {s : State} (hP : Closed K P) (hK : Foot.managementTick K
    = true) (hs_s : P s) :
    P (managementTick s) := by
  simp only [Foot.managementTick, Bool.and_eq_true] at hK
  obtain ⟨hK0, hK1, hK2, hK3, hK4, hK5, hK6, hK7, hK8, hK9, hK10⟩ := hK
  unfold managementTick
  with_reducible repeat' first
    | assumption
    | refine hwPublish_closed hP ?_ ?_
    | refine stressRank_closed hP ?_ ?_
    | refine noidBoundary_closed hP ?_ ?_
    | refine ditchRound_closed hP ?_ ?_
    | refine automaticRotation_closed hP ?_ ?_
    | refine summaryAssemble_closed hP ?_ ?_
    | refine softErrors_closed hP ?_ ?_
    | refine hP.put _ _ _ _ _ ?_ ?_
    | refine hP.clear ?_ ?_
    | refine hP.bump ?_ ?_
    | refine Closed.each ?_ _ ?_
    | intro _
    | (extract_lets +onlyGivenNames x; apply thenHave (p := P x); (unfold x; clear x); rotate_left 1; (intro hx; clear_value x))
    | (extract_lets +onlyGivenNames x; clear_value x)
    | refine ite_closed ?_ ?_
    | split

theorem managementTick_get {s : State} {fld0 : Fld} {i0 j0 : Nat} (hK : Foot.managementTick (notFld fld0) = true)  :
    (managementTick s).get fld0 i0 j0 = s.get fld0 i0 j0 :=
  managementTick_closed (P := fun x => x.get fld0 i0 j0 = s.get fld0 i0 j0) (field_closed fld0 i0 j0 _) hK  rfl

def Foot.execManagementTickBoundary (K : Part → Bool) : Bool := Foot.managementTick K

theorem execManagementTickBoundary_closed {K : Part → Bool} {P : State → Prop} {s : State} (hP : Closed K P) (hK :
    Foot.execManagementTickBoundary K = true) (hs_s : P s) :
    OutAll P (execManagementTickBoundary s) := by
  simp only [Foot.execManagementTickBoundary, Bool.and_eq_true] at hK
  unfold execManagementTickBoundary
  with_reducible repeat' first
    | assumption
    | refine managementTick_closed hP ?_ ?_
    | refine OutAll.mk ?_

def Foot.waituEnd (K : Part → Bool) : Bool := Foot.waituDone K && (Foot.idStep K)

theorem waituEnd_closed {K : Part → Bool} {P : State → Prop} {s : State} {k : Nat} (hP : Closed K P) (hK : Foot.waituEnd K =
    true) (hs_s : P s) :
    P (waituEnd s k) := by
  simp only [Foot.waituEnd, Bool.and_eq_true] at hK
  obtain ⟨hK0, hK1⟩ := hK
  unfold waituEnd
  with_reducible repeat' first
    | assumption
    | refine waituDone_closed hP ?_ ?_
    | refine idStep_closed hP ?_ ?_
    | (extract_lets +onlyGivenNames x; apply thenHave (p := P x); (unfold x; clear x); rotate_left 1; (intro hx; clear_value x))
    | (extract_lets +onlyGivenNames x; clear_value x)
    | refine ite_closed ?_ ?_
    | split

theorem waituEnd_get {s : State} {k : Nat} {fld0 : Fld} {i0 j0 : Nat} (hK : Foot.waituEnd (notFld fld0) = true)  : (waituEnd
    s k).get fld0 i0 j0 = s.get fld0 i0 j0 :=
  waituEnd_closed (P := fun x => x.get fld0 i0 j0 = s.get fld0 i0 j0) (field_closed fld0 i0 j0 _) hK  rfl

def Foot.execWaituDone (K : Part → Bool) : Bool := Foot.waituEnd K

theorem execWaituDone_closed {K : Part → Bool} {P : State → Prop} {k : CoreId} {s : State} (hP : Closed K P) (hK :
    Foot.execWaituDone K = true) (hs_s : P s) :
    OutAll P (execWaituDone k s) := by
  simp only [Foot.execWaituDone, Bool.and_eq_true] at hK
  unfold execWaituDone
  with_reducible repeat' first
    | assumption
    | refine waituEnd_closed hP ?_ ?_
    | refine OutAll.mk ?_

end Sys2Proof.Machine
end

