-- ==== Sys2Proof/WellFormed.lean ====
section
/-! DEFINITION. Which commands are well formed: the operands that carry inputs stand within what the spec's inputs can be.
The types of the other operands leave nothing to check. No meaning relies on it: `exec` is total. -/
namespace Sys2Proof

/-- A raw code of a 12-bit converter (R39). -/
def codeOk (v : Int) : Bool := decide (-2048 ≤ v ∧ v ≤ 2047)

/-- A voltage in codes of 125 µV over the sensed range of 0 to 16,383 (R44), with the 12-bit deviation's reach. -/
def voltOk (v : Int) : Bool := decide (-2048 ≤ v ∧ v < 16384 + 2048)

/-- The channels of a list lie below `n`, each channel once, with at most `k` samples each that pass `ok`. -/
def channelsOk (n k : Nat) (ok : Int → Bool) (l : List (Nat × List Int)) : Bool :=
  decide (l.map (·.1)).Nodup && l.all fun e => decide (e.1 < n) && decide (e.2.length ≤ k) && e.2.all ok

/-- One tick gives a current input 10 codes, a sense pair 20 samples and a shadow as many as its input (R46, R58). -/
def TickInput.wf (inp : TickInput) : Bool :=
  channelsOk 128 10 codeOk inp.cur && channelsOk 16 20 voltOk inp.volt && channelsOk 18 20 voltOk inp.shadow

/-- The flash's bytes lie within its size, at most 128 Mbit of 24-bit addresses and more by 32-bit ones; five step
durations (R394, R399). -/
def StartInput.wf (inp : StartInput) : Bool :=
  decide (inp.flashSize ≤ 2 ^ 32) && decide (inp.times.length = 5) &&
  (match inp.flash with
   | none => true
   | some l => l.all fun e => decide (e.1 < inp.flashSize))

/-- The command is well formed. -/
def Instr.wf : Instr → Bool
  | .controlTick inp => inp.wf
  | .auxResult _ codes => decide (codes.length ≤ 4096 ∧ codes ≠ [])
  | .voltageOpenTest _ codes => decide (codes.length ≤ 20) && codes.all codeOk
  | .currentInjectionTest _ codes => decide (codes.length ≤ 10) && codes.all codeOk
  | .flumeStartupCal slices convs => slices.all (fun e => decide (e.1 < 16 ∧ e.2 < 9)) && convs.all (fun v => decide (v < 18))
  | .interpolatorSelftest failed => failed.all fun e => decide (e.1 < 16 ∧ e.2 < 9)
  | .weirSelftest failed => failed.all fun w => decide (w < 184)
  | .mspiWrite l => decide (l.length ≤ 4096)
  | .coldStart inp => inp.wf
  | .warmStart times => decide (times.length = 3)
  | .resumeStart _ times => decide (times.length = 5)
  | _ => true

end Sys2Proof
end

