-- ==== Sys2Proof/Tests/Slice0.lean ====
section
/-! SUPPORT. The model's own tests: the spec's worked examples, what is not well formed, and for every statement a state and operands
that meet its hypotheses, clause by clause. -/
namespace Sys2Proof.Tests
set_option Elab.async false
set_option linter.all false
open Sys2Proof Sys2Proof.Machine

/-- The state after reset with some register fields written. -/
def mk (l : List (Fld × Int × Nat × Nat)) : State := l.foldl (fun s e => s.put e.1 e.2.1 e.2.2.1 e.2.2.2) State.reset

/-! A flash with a directory (R395): ten regions of 4,096 bytes, and two structure images without a body. -/

/-- Its bytes, listed as the complement of what erased flash reads. -/
def dirFlash : List Host.Cell :=
  ([(0, 168), (1, 187), (2, 182), (3, 173), (4, 254), (5, 255), (6, 255), (7, 255), (8, 255), (9, 255), (10, 254), (11, 255), (12,
    255), (13, 239), (14, 255), (15, 255), (16, 255), (17, 255), (18, 253), (19, 255), (20, 255), (21, 239), (22, 255), (23, 255),
    (24, 255), (25, 255), (26, 252), (27, 255), (28, 255), (29, 239), (30, 255), (31, 255), (32, 255), (33, 255), (34, 251), (35,
    255), (36, 255), (37, 239), (38, 255), (39, 255), (40, 255), (41, 255), (42, 250), (43, 255), (44, 255), (45, 239), (46, 255),
    (47, 255), (48, 255), (49, 255), (50, 249), (51, 255), (52, 255), (53, 239), (54, 255), (55, 255), (56, 255), (57, 255), (58,
    248), (59, 255), (60, 255), (61, 239), (62, 255), (63, 255), (64, 255), (65, 255), (66, 247), (67, 255), (68, 255), (69, 239),
    (70, 255), (71, 255), (72, 255), (73, 255), (74, 255), (75, 255), (76, 255), (77, 255), (78, 246), (79, 255), (80, 255), (81,
    239), (82, 255), (83, 255), (84, 255), (85, 255), (86, 245), (87, 255), (88, 255), (89, 239), (90, 255), (91, 255), (4092,
    238), (4093, 88), (4094, 194), (4095, 94), (327688, 255), (327689, 255), (327690, 255), (327691, 255), (393224, 255), (393225,
    255), (393226, 255), (393227, 255)] :
    List (Nat × Nat)).map fun e => ⟨e.1, BitVec.ofNat 8 e.2⟩

/-- The bytes of the directory under its CRC. -/
def dirByte (a : Nat) : Nat := if a < 96 then ([87, 68, 73, 82, 1, 0, 0, 0, 0, 0, 1, 0, 0, 16, 0, 0, 0, 0, 2, 0, 0, 16, 0, 0, 0, 0, 3, 0,
  0, 16, 0, 0, 0, 0, 4, 0, 0, 16, 0, 0, 0, 0, 5, 0, 0, 16, 0, 0, 0, 0, 6, 0, 0, 16, 0, 0, 0, 0, 7, 0, 0, 16, 0, 0, 0, 0, 8, 0, 0, 16, 0,
  0, 0, 0, 0, 0, 0, 0, 9, 0, 0, 16, 0, 0, 0, 0, 10, 0, 0, 16, 0, 0, 255, 255, 255, 255 ] : List Nat).getD a 255 else 255

/-- The fold of the CRC-32 on numbers. -/
def crcNat (r x : Nat) : Nat := (List.range 8).foldl (fun r _ => if r % 2 = 1 then (r / 2) ^^^ 0xEDB88320 else r / 2) (r ^^^ x)

theorem crcNat_eq (r : BitVec 32) (x : Byte) : (crc32Byte r x).toNat = crcNat r.toNat x.toNat := by
  have step : ∀ (l : List Nat) (u : BitVec 32),
      (l.foldl (fun r _ => if r.getLsbD 0 then (r >>> 1) ^^^ 0xEDB88320#32 else r >>> 1) u).toNat =
        l.foldl (fun r _ => if r % 2 = 1 then (r / 2) ^^^ 0xEDB88320 else r / 2) u.toNat := by
    intro l
    induction l with
    | nil => intro u; rfl
    | cons a l ih =>
      intro u
      simp only [List.foldl_cons]
      rw [ih]
      congr 1
      by_cases h : u.toNat % 2 = 1 <;>
        simp [BitVec.getLsbD, Nat.testBit_zero, h, BitVec.toNat_xor, BitVec.toNat_ushiftRight, Nat.shiftRight_eq_div_pow]
  rw [crc32Byte, crcNat, step]
  simp only [BitVec.toNat_xor, BitVec.toNat_setWidth]
  rw [Nat.mod_eq_of_lt (by have := x.isLt; omega)]

theorem crcNat_fold (f : Nat → Byte) (l : List Nat) (u : BitVec 32) :
    (l.foldl (fun r k => crc32Byte r (f k)) u).toNat = l.foldl (fun r k => crcNat r (f k).toNat) u.toNat := by
  induction l generalizing u with
  | nil => rfl
  | cons a l ih => simp only [List.foldl_cons, ih, crcNat_eq]

theorem crc_chunks (f : Nat → Nat) (c : List Nat) (m n : Nat)
    (h : ∀ i < n, (List.range m).foldl (fun r j => crcNat r (f (m * i + j))) (c.getD i 0) = c.getD (i + 1) 0) :
    (List.range (m * n)).foldl (fun r k => crcNat r (f k)) (c.getD 0 0) = c.getD n 0 := by
  induction n with
  | zero => rfl
  | succ n ih =>
    rw [Nat.mul_succ, List.range_add, List.foldl_append, ih fun i hi => h i (Nat.lt_succ_of_lt hi), List.foldl_map]
    exact h n (Nat.lt_succ_self n)

/-- The CRC of the directory after every 62 bytes. -/
def dirCrc : List Nat :=
  [4294967295, 2066609192, 114494237, 1011470679, 2832469852, 3888286757, 109695945, 1968693908, 1153213081, 3056247327,
    2206234784, 1108498521, 467904615, 4178246839, 1593228647, 3407295723, 68114743, 1992391321, 1007239253, 923880125,
    1613614206, 1474478354, 2670218368, 1717780527, 3499596197, 3063395471, 3478993790, 545099961, 645920035, 3951619253,
    1065705474, 467210686, 889105247, 193980832, 3418846277, 3451017902, 148266816, 2196784469, 713596047, 2756420598, 1624383381,
    1778256368, 4185850266, 1962812365, 2356808760, 426572826, 488824927, 2123599957, 2425343498, 241161011, 2974347974,
    2708477356, 1348489582, 1610948777, 882414622, 1256885391, 3430552377, 1697208140, 2563339457, 2285370844, 2776529909,
    3124837939, 3631046039, 3553536742, 1531508427, 363196890, 1589795054]

theorem dir_chunks : ∀ i < 66, (List.range 62).foldl (fun r j => crcNat r (dirByte (62 * i + j))) (dirCrc.getD i 0) =
    dirCrc.getD (i + 1) 0 := by decide +kernel

theorem dir_bytes : ∀ a < 96, (0xFF#8 ^^^ cellGet dirFlash a).toNat = dirByte a := by decide +kernel

theorem dir_rest (a : Nat) (h : 96 ≤ a) (h' : a < 4092) : cellGet dirFlash a = 0#8 := by
  have h0 : ∀ l : List Host.Cell, (∀ c ∈ l, c.1 < 96 ∨ 4092 ≤ c.1) → cellGet l a = 0#8 := by
    intro l
    induction l with
    | nil => intro _; rfl
    | cons c l ih =>
      intro hc
      have := hc c (List.mem_cons_self ..)
      rw [cellGet, if_neg (by omega)]
      exact ih fun d hd => hc d (List.mem_cons_of_mem _ hd)
  exact h0 _ (by decide +kernel)

/-- A state whose flash this is uses its first directory. -/
theorem dir_in_use {s : State} (hf : s.flash = dirFlash) (hs : s.get .flashSize 0 0 = 16777216) : dirInUse s = some 0 := by
  have hb : ∀ a, s.flashByte a = 0xFF#8 ^^^ cellGet dirFlash a := fun a => by simp only [State.flashByte, hf]
  have hd : ∀ a, a < 4092 → (s.flashByte a).toNat = dirByte a := by
    intro a h
    rw [hb]
    by_cases h6 : a < 96
    · exact dir_bytes a h6
    · rw [dir_rest a (by omega) h, dirByte, if_neg h6]; rfl
  have hc : crc32 (flashBytes s 0 4092) = BitVec.ofNat 32 (dirCrc.getD 66 0) ^^^ 0xFFFFFFFF#32 := by
    have h := crc_chunks dirByte dirCrc 62 66 dir_chunks
    simp only [crc32, flashBytes, List.foldl_map, Nat.zero_add]
    refine congrArg (· ^^^ 0xFFFFFFFF#32) (BitVec.eq_of_toNat_eq ?_)
    rw [crcNat_fold fun k => s.flashByte k]
    have e : ∀ (l : List Nat) (u : Nat), (∀ k ∈ l, k < 4092) →
        l.foldl (fun r k => crcNat r (s.flashByte k).toNat) u = l.foldl (fun r k => crcNat r (dirByte k)) u := by
      intro l
      induction l with
      | nil => intro u _; rfl
      | cons a l ih =>
        intro u hl
        simp only [List.foldl_cons]
        rw [hd a (hl a (List.mem_cons_self ..)), ih _ fun k hk => hl k (List.mem_cons_of_mem _ hk)]
    rw [e _ _ fun k hk => List.mem_range.1 hk]
    exact h.trans (by decide +kernel)
  have hn : s.nat .flashSize = 16777216 := by simp only [State.nat, hs]; rfl
  have v0 : dirValid s 0 = true := by
    rw [dirValid, hc]
    simp only [hn, dirRegions, dirNat, flashBytes, hb]
    decide +kernel
  have v1 : dirValid s 0x1000 = false := by
    have : (flashBytes s 0x1000 4 == [0x57#8, 0x44#8, 0x49#8, 0x52#8]) = false := by
      simp only [flashBytes, hb]; decide +kernel
    simp only [dirValid, this, Bool.false_and]
  simp only [dirInUse, v0, v1, Bool.and_false, Bool.false_eq_true, if_false, if_true]

theorem dir_log {s : State} (hf : s.flash = dirFlash) (hs : s.get .flashSize 0 0 = 16777216) : (logRegion s).2 ≠ 0 := by
  rw [logRegion, dir_in_use hf hs]
  simp only [dirNat, flashBytes, State.flashByte, hf]
  decide +kernel

/-- A tick core that can issue, with the words ahead in its fetch queue. -/
def tc (l : List (Fld × Int × Nat × Nat)) : State := mk ((.coreOn, 1, 0, 0) :: (.corePc, 0x100, 0, 0) :: (.fqBase, 0x100, 0, 0) ::
  (.fqLen, 8, 0, 0) :: l)

/-- The management core, about to issue, with the words ahead in its fetch queue. -/
def mc (l : List (Fld × Int × Nat × Nat)) : State :=
  mk ((.coreOn, 1, 5, 0) :: (.corePc, 0x100000, 5, 0) :: (.fqBase, 0x100000, 5, 0) :: (.fqLen, 8, 5, 0) :: (.swPriv, 1, 5, 0) :: (.coreP,
    0x100100, 5, 7) :: l)

theorem ok_eq {α : Type} {r : Except Exc α × State} {a : α} {u : State} (h : r.1.toOption = some a) (h' : r.2 = u) : r = (.ok a, u) := by
  obtain ⟨_ | x, v⟩ := r <;> simp_all [Except.toOption]

theorem err_eq {α : Type} {r : Except Exc α × State} {e : Exc} {u : State}
    (h : (match r.1 with | .error x => some x | .ok _ => none) = some e) (h' : r.2 = u) : r = (.error e, u) := by
  obtain ⟨_ | x, v⟩ := r <;> simp_all

theorem fault_eq {r : Res} {e : Exc} {u : State} (h : (match r with | .fault x t => some (x, t) | _ => none) = some (e, u)) :
    r = .fault e u := by
  cases r <;> simp_all

/-- The register row at an address of the table. -/
def regAt (a : Nat) : RegRow × Nat × Nat × Nat := (findReg a).getD (⟨0, 0, 0, 0, 0, 0, false, false, 0, []⟩, 0, 0, 0)

theorem structureChanges_self (l : List ImgRec) : structureChanges l l = [] := by simp [structureChanges]

/-- A headgate request of one part. -/
def part (typ : Nat) (payload : List Byte) (target : Nat := 0) : HgPart := { typ, target, payload }

/-- The message that carries it. -/
def req (typ : Nat) (payload : List Byte) (port : Nat := 5) : HgMsg :=
  { port, tag := 1, epoch := 0, parts := [part typ payload], cmd := 0, margin := 0, at_ := 0 }

/-- A state whose headgate port 5 is served by firmware messages. -/
def servedState (l : List (Fld × Int × Nat × Nat)) : State := mk ((.hgClass, 63, 5, 0) :: l)

/-- The same with a directory in flash. -/
def dirState (l : List (Fld × Int × Nat × Nat)) : State := { mk ((.hgClass, 63, 5, 0) :: (.flashSize, 16777216, 0, 0) :: l)
  with flash := dirFlash }

/-- A state in which a request of port 5 has been taken. -/
def taken (typ : Nat) (payload : List Byte) (s : State) : State := { s with hgTaken := some (req typ payload) }

theorem ready_of {b : State} {k len : Nat} {rep : Bool}
    (h : (canIssue b k && b.get .divOn k == 0 && b.get .macOn k == 0 && b.traps.all (fun x => x.core != k) &&
      (fetch b k len).1.isNone && (b.get .repOn k == 0 || rep)) = true) : b.Ready k len rep := by
  simp only [Bool.and_eq_true, beq_iff_eq, List.all_eq_true, bne_iff_ne, Option.isNone_iff_eq_none, Bool.or_eq_true] at h
  obtain ⟨⟨⟨⟨⟨h1, h2⟩, h3⟩, h4⟩, h5⟩, h6⟩ := h
  exact ⟨h1, h2, h3, h4, h5, h6⟩

/-- A read of a line that the data cache may still hold: whichever the free value says, the word and the state are the same. -/
theorem load_held {s t : State} {pa : Nat} {w : W16} (hf : (forwarded s 5 pa).isNone = true) (hon : s.bit .dcOn pa = true)
    (h1 : BitVec.ofInt 16 (s.fresh.2.get .dcWord pa) = w ∧ s.fresh.2 = t)
    (h2 : memRead (s.fresh.2.each (lineOf pa) fun s a => s.clear .dcOn a) pa =
      (some w, s.fresh.2.each (lineOf pa) fun s a => s.clear .dcOn a) ∧
      fillLine (s.fresh.2.each (lineOf pa) fun s a => s.clear .dcOn a) .dcOn .dcWord pa
        (fun a => (memRead (s.fresh.2.each (lineOf pa) fun s a => s.clear .dcOn a) a).1) = t) :
    loadWord s 5 true pa = (some w, t) := by
  rw [Option.isNone_iff_eq_none] at hf
  simp only [loadWord, hf, decide_true, Bool.and_self, if_true, cachedRead, lineHeld, hon]
  split
  · rename_i h
    split at h
    · cases h; rw [h1.1, h1.2]
    · cases h
  · rename_i h
    split at h
    · cases h
    · cases h; rw [h2.1]; simp only [h2.2]

/-- The management core at a GATE whose descriptor, in MC SRAM, is valid and lets user code in. -/
def gateCore : State := (mc [(.XC_GTBASE, 0x100400, 0, 0)]).setWord 0x100402 3
def gateIn : State := (retireAll (gateCore.atBoundary 5) 5).fetched 5 1
/-- The same when the descriptor's line stands in the data cache and `n` free values have been taken. -/
def gateRead (n : Nat) : State :=
  { fillLine gateIn .dcOn .dcWord 0x100400 (fun a => (memRead gateIn a).1) with freeCtr := n }
def gateWord (i : Nat) : W16 := if i = 2 then 3 else 0

theorem gate_first : loadWord gateIn 5 true 0x100400 = (some (gateWord 0), gateRead 0) := by decide +kernel
theorem gate_word {i : Nat} (h : i ∈ List.range 15) :
    loadWord (gateRead i) 5 true (0x100401 + i) = (some (gateWord (i + 1)), gateRead (i + 1)) := by
  have : ∀ i ∈ List.range 15, (forwarded (gateRead i) 5 (0x100401 + i)).isNone = true ∧ (gateRead i).bit .dcOn (0x100401 + i) = true ∧
      (BitVec.ofInt 16 ((gateRead i).fresh.2.get .dcWord (0x100401 + i)) = gateWord (i + 1) ∧ (gateRead i).fresh.2 = gateRead (i + 1)) ∧
      (memRead ((gateRead i).fresh.2.each (lineOf (0x100401 + i)) fun s a => s.clear .dcOn a) (0x100401 + i) =
        (some (gateWord (i + 1)), (gateRead i).fresh.2.each (lineOf (0x100401 + i)) fun s a => s.clear .dcOn a) ∧
        fillLine ((gateRead i).fresh.2.each (lineOf (0x100401 + i)) fun s a => s.clear .dcOn a) .dcOn .dcWord (0x100401 + i)
          (fun a => (memRead ((gateRead i).fresh.2.each (lineOf (0x100401 + i)) fun s a => s.clear .dcOn a) a).1) =
          gateRead (i + 1)) := by decide +kernel
  exact load_held (this i h).1 (this i h).2.1 (this i h).2.2.1 (this i h).2.2.2

theorem gate_descriptor : gateDescriptor gateIn 0 = (.ok (0 :: 0 :: 3 :: List.replicate 13 0), gateRead 15) := by
  have a : gateIn.nat .XC_GTBASE + 16 * 0 = 0x100400 := by decide +kernel
  have h : ∀ i < 15, loadWord (gateRead i) 5 true (0x100400 + (i + 1)) = (some (gateWord (i + 1)), gateRead (i + 1)) := by
    intro i hi; rw [Nat.add_comm i 1, ← Nat.add_assoc]; rw [Nat.add_comm 1 i]; exact gate_word (List.mem_range.2 hi)
  rw [gateDescriptor, a]
  simp only [show (region 0x100400 != .sram || region (0x100400 + 15) != .sram) = false from by decide +kernel,
    show List.range 16 = [0, 0 + 1, 1 + 1, 2 + 1, 3 + 1, 4 + 1, 5 + 1, 6 + 1, 7 + 1, 8 + 1, 9 + 1, 10 + 1, 11 + 1, 12 + 1, 13 + 1, 14 + 1]
      from rfl,
    List.foldl, Nat.add_zero, gate_first, h 0 (by omega), h 1 (by omega), h 2 (by omega), h 3 (by omega), h 4 (by omega), h 5 (by omega),
    h 6 (by omega), h 7 (by omega), h 8 (by omega), h 9 (by omega), h 10 (by omega), h 11 (by omega), h 12 (by omega), h 13 (by omega),
    h 14 (by omega)]
  rfl

theorem gate_eq {u v : State} {g : Nat} {d : List Int} (hu : u = gateIn) (hg : g = 0) (hd : d = 0 :: 0 :: 3 :: List.replicate 13 0)
    (hv : v = gateRead 15) : gateDescriptor u g = (.ok d, v) := by
  subst hu hg hd hv; exact gate_descriptor

/-! ## The spec's worked examples -/

/-- What a command leaves in one place. -/
def after (o : Host.Outcome State Fault Refusal) (f : State → Int) : Option Int := match o with | .next t => some (f t) | _ => none

/-- The sample board's rails 0 to 2 in domain 0 and their currents, as in the example of R20. -/
def board (l : List (Fld × Int × Nat × Nat)) : State :=
  mk ([(.DM_RAILSTAT_STATE, stREG, 0, 0), (.DM_RAILSTAT_STATE, stREG, 1, 0), (.DM_RAILSTAT_STATE, stREG, 2, 0),
    (.DM_RAILCFG_IQSEL, 1, 0, 0), (.DM_RAILCUR_ICUR, 358400, 0, 0), (.DM_RAILCUR_ICUR, 61440, 1, 0), (.DM_RAILCUR_ICUR, 15360, 2, 0),
    (.LN_REF, 1024 * 6800, 0, 0), (.LN_REF, 1024 * 7200, 1, 0), (.LN_REF, 1024 * 8800, 2, 0), (.LN_VSET, 6800, 0, 0),
    (.DM_RAILPHL_PHIMAX, 880, 0, 0), (.DM_RAILLIM_ILIM, 25600, 0, 0), (.DM_DOM_IALLOT, 12800, 0, 0), (.DM_DEV_PALLOT, 8000, 0, 0)] ++ l)

/-- The example of R20: the domain current, the device power and the fewest phases of rail 0. -/
theorem test_totals : domainTotal (board []) (fun r => (board []).get .DM_RAILCUR_ICUR r) 0 = 12400 ∧
    deviceTotal (board []) (fun r => (board []).get .DM_RAILCUR_ICUR r) = 5199 ∧ nMin (board []) 0 = 26 := by decide +kernel

/-- The same example: a forecast of 80 A is not admissible on rail 0, one of 50 A is. -/
theorem test_admissible : admissible (board []) 0 1280 = false ∧ admissible (board []) 0 800 = true := by decide +kernel

/-- The example of 16_headgate_host.md: 0.875 V plans 659 IQ more, and is stored. -/
theorem test_setpoint_delta : setpointDelta (board []) 0 7000 = 659 ∧ setpointJudge (board []) 0 7000 = .stored := by decide +kernel

/-- The example of R48: the trim of phase 5, and that of the full-scale code at twice the gain. -/
theorem test_current_trim : trim 5460 6 7680 = 10226 ∧ trim 8188 0 15360 = 30705 := by decide

/-- The example of R55: the mean of ten codes of -40 and ten of -80. -/
theorem test_voltage_mean : voltageMean (List.replicate 10 (-40) ++ List.replicate 10 (-80)) = -960 := by decide

/-- The example of R68: a droop of 112 codes at 1,400 A. -/
theorem test_droop : droop (board [(.LN_AVPK, 5243, 0, 0)]) 0 = 1792 := by decide +kernel

/-- Bank B of the example of R79, with rail 0 one millivolt low. -/
def retuned (l : List (Fld × Int × Nat × Nat)) : State :=
  board ([(.LN_STATUS_ACTBANK, 1, 0, 0), (.LN_B0, 78826, 0, 1), (.LN_B1, -72872, 0, 1), (.LN_A1, -95735, 0, 1), (.LN_A2, 69925, 0, 1),
    (.LN_KI, 129, 0, 1), (.LN_GEXP, 9, 0, 1), (.LN_IMAX, 409600, 0, 1), (.LN_IMIN, -51200, 0, 1), (.FL_VMEAN, -128, 0, 0)] ++ l)

/-- The example of R79: bank B is valid, and an error of 8 codes raises the command by 2,467 LSBs. -/
theorem test_compensator : bankValid (retuned []) 0 1 = true ∧ (compensate (retuned []) 0).get .LN_CMD 0 = 2467 := by decide +kernel

/-- The reciprocals and the offsets of the example of R93, where 37 slots stay of 38. -/
theorem test_offsets : recip 38 = 3449 ∧ recip 37 = 3542 ∧ carrierOffset 12800 5 38 = 1684 ∧ carrierOffset 12800 4 37 = 1384 := by
  decide +kernel

/-- The example of R101: an on-time of 907 steps at 12.00 V. -/
theorem test_valley_on_time : (valleyTon (mk [(.SL_RMODE_MODE, 1, 0, 0), (.SL_RPER, 12800, 0, 0), (.wref, 6800, 0, 0), (.vinValid, 1, 0, 0),
    (.vin, 1200, 0, 0)]) 0).get .SL_RTON 0 = 907 := by decide +kernel

/-- The example of 07_phase_health_spares.md: the stress of phases 12 and 30. -/
theorem test_stress :
    let s := mk [(.PH_WCHG, 1, 0, 0), (.PH_WCYC, 4, 0, 0), (.PH_WSTART, 2, 0, 0), (.PH_CHG, 2150400, 12, 0), (.PH_HCYC, 3100, 12, 0),
      (.PH_STARTS, 41000, 12, 0), (.PH_CHG, 2148000, 30, 0), (.PH_HCYC, 3050, 30, 0), (.PH_STARTS, 52500, 30, 0)]
    stressOf s 12 = 2244800 ∧ stressOf s 30 = 2265200 := by decide +kernel

/-- The example of R255: -7 by 2, and 0xFFF9 by 2 without sign. -/
theorem test_divide :
    let s := tc [(.coreD, 0xFFF9, 0, 2), (.coreD, 2, 0, 4)]
    let run (i : Instr) (n : Nat) := after (exec i s) fun t => dReg (retireDiv t 0) 0 n
    run (.divs 0 2 3 4) 2 = some 0xFFFD ∧ run (.divs 0 2 3 4) 3 = some 0xFFFF ∧
    run (.divu 0 2 3 4) 2 = some 0x7FFC ∧ run (.divu 0 2 3 4) 3 = some 1 := by decide +kernel

/-- The example of 10_nerten_instructions.md: divided by 0, d2 becomes 0xFFFF, d3 the dividend, and DZ is set. -/
theorem test_divide_by_zero :
    let s := tc [(.coreD, 7680, 0, 2)]
    let run (f : State → Int) := after (exec (.divu 0 2 3 4) s) fun t => f (retireDiv t 0)
    run (fun t => dReg t 0 2) = some 0xFFFF ∧ run (fun t => dReg t 0 3) = some 7680 ∧ run (fun t => t.get .swDz 0) = some 1 := by
  decide +kernel

/-- The example of R245: the paired word 0x9646 adds d2 to d1, takes d3 from d0, and its flags come from d0 - d3. -/
theorem test_paired_word :
    let s := tc [(.coreD, 5, 0, 0), (.coreD, 6, 0, 1), (.coreD, 7, 0, 2), (.coreD, 9, 0, 3)]
    let run (f : State → Int) := after (exec (.pairedWord 0 0x1646) s) f
    run (fun t => dReg t 0 1) = some 13 ∧ run (fun t => dReg t 0 0) = some 0xFFFC ∧ run (fun t => t.get .swN 0) = some 1 := by
  decide +kernel

/-- The example of R266: with tkl = 0xFFF0, WAITU waits for 0x0010 and completes at once for 0x7FF0. -/
theorem test_waitu :
    let run (d : Int) := after (exec (.waitu 0 1) (tc [(.tick, 0xFFF0, 0, 0), (.coreD, d, 0, 1)])) fun t => t.get .coreWait 0
    run 0x0010 = some 2 ∧ run 0x7FF0 = some 0 := by decide +kernel

/-- The microcode of the example of 12_microcode.md. -/
def lsym (l : List (Fld × Int × Nat × Nat)) : State :=
  tc ([(.decCopy, 0x0400, 0, 4), (.UC_MW, 0x00000903D5000202, 0, 0), (.UC_MW, 0x000009925E000004, 2, 0), (.UC_MW, 0x000009125E000002, 3, 0),
    (.UC_MW, 0x00000A4274000005, 4, 0), (.UC_MW, 0x00004A3E54000040, 5, 0)] ++ l)

/-- The example: `lsym d1, d5` with 400 and -200 leaves 200 and clears N, Z, C and V; with 0x8000 it leaves d1. -/
theorem test_microcode :
    let run (x y : Int) (f : State → Int) := after (exec (.customInstruction 0 4 0x0D) (lsym [(.coreD, x, 0, 1), (.coreD, y, 0, 5),
      (.swN, 1, 0, 0), (.swZ, 1, 0, 0), (.swC, 1, 0, 0), (.swV, 1, 0, 0)])) f
    run 400 0xFF38 (fun t => dReg t 0 1) = some 200 ∧
    run 400 0xFF38 (fun t => t.get .swN 0 + t.get .swZ 0 + t.get .swC 0 + t.get .swV 0) = some 0 ∧
    run 0x8001 0x8000 (fun t => dReg t 0 1) = some 0x8001 := by decide +kernel

/-- The walk of the example of 11_exceptions_translation.md: three levels read at 0x10_8000, 0x10_8424 and 0x10_881A, each through
the pointer of the level before it. The tables stand in the store buffer, from which a load takes its words (R226). -/
theorem test_walk :
    let two (a : Nat) (lo hi : W16) : StoreEnt := ⟨5, [(a, lo), (a + 1, hi)], a, true, false⟩
    let s := { mc [(.decCopy, 0x400, 5, 29), (.XC_TLBVA_VA, 0x123456, 0, 0), (.XC_PTROOT, 0x108000, 0, 0), (.coreP, 0x108403, 5, 0),
      (.coreP, 0x108803, 5, 1)] with
      stores := [two 0x108000 0x8403 0x0010, two 0x108424 0x8803 0x0010, two 0x10881A 0x40AD 0x8000] }
    let run (lvl m : Fin 4) (d : Nat) := after (exec (.ldpt 5 0 lvl m) s) fun t => dReg t 5 d
    run 1 0 0 = some 0x8403 ∧ run 1 0 1 = some 0x0010 ∧ run 2 0 0 = some 0x8803 ∧ run 3 1 0 = some 0x40AD ∧ run 3 1 1 = some 0x8000 := by
  decide +kernel

/-- The example of R426: k = 0.9375 gives B0, B1, B2 and KI, and GEXP stays 9. -/
theorem test_retune : retuneValues (retuned []) 0 15 16 = some ([73899, -68318, 0, 121], 9) := by decide +kernel

/-- The example of R424: 10.0 nH from a ripple of 674 and a gain of 7,680. -/
theorem test_inductance : phaseL (retuned [(.vinValid, 1, 0, 0), (.vin, 1200, 0, 0), (.FL_VWREF, 6800, 0, 0), (.FL_PHRIP, 674, 5, 0),
    (.FL_PHGAIN, 7680, 5, 0), (.SL_RPER, 12800, 0, 0)]) 0 5 = some 1000 := by decide +kernel

/-- The example of R15 of 14_lockstep.md: TC0 single and TC4 in service read 0x0021 in word 23 of the spare-use summary. -/
theorem test_summary_word : summaryWord (mk [(.LS_PAIR_STATE, pairSINGLE, 0, 0), (.tcmOf, 0, 4, 0), (.dutyPair, 4, 0, 0)]) 23 = 0x21 := by
  decide +kernel

/-- The example of R354: a copy of 6 words onto a destination 2 words up repeats the first two. -/
theorem test_dma_overlap :
    let a : Nat := 0x104000
    let s := (List.range 6).foldl (fun s i => s.setWord (a + i) (BitVec.ofNat 16 (10 + i)))
      (mk [(.DMA_STAT_BUSY, 1, 12, 0), (.DMA_SRC, a, 12, 0), (.DMA_DST, a + 2, 12, 0), (.dmaLeft, 6, 12, 0), (.dmaLast, 1, 12, 0)])
    let t := (List.range 6).foldl (fun s _ => dmaWord s 12) s
    (List.range 8).map (fun i => (t.wordAt (a + i)).toNat) = [10, 11, 10, 11, 10, 11, 10, 11] := by decide +kernel

/-! ## The queue, and what is not well formed -/

/-- The front command runs with the queue's rest, an empty queue idles, and no row of the table gives a word bits. -/
theorem test_queue :
    after (step { State.reset with pending := [.alertResponse, .alertResponse] }) (fun t => t.pending.length) = some 1 ∧
    after (step State.reset) (fun t => bit01 (decide (t = State.reset))) = some 1 ∧ decodeTableWord 16 0 = none ∧
    State.reset.withFetchWord 16 0 = State.reset := by
  decide +kernel

/-- A converter's code beyond its 12 bits, more samples than a tick has, a channel twice or past the last. -/
theorem test_ill_formed_inputs :
    (Instr.controlTick { cur := [(0, [2048])], volt := [], shadow := [], en := 0, tflt := 0 }).wf = false ∧
    (Instr.controlTick { cur := [(0, List.replicate 11 0)], volt := [], shadow := [], en := 0, tflt := 0 }).wf = false ∧
    (Instr.controlTick { cur := [(0, []), (0, [])], volt := [], shadow := [], en := 0, tflt := 0 }).wf = false ∧
    (Instr.controlTick { cur := [], volt := [(16, [0])], shadow := [], en := 0, tflt := 0 }).wf = false ∧
    (Instr.controlTick { cur := [], volt := [(0, [18432])], shadow := [], en := 0, tflt := 0 }).wf = false ∧
    (Instr.controlTick { cur := [], volt := [], shadow := [(18, [0])], en := 0, tflt := 0 }).wf = false := by decide

/-- The other commands that carry inputs, each with one that its check refuses. -/
theorem test_ill_formed_others :
    (Instr.auxResult 0 []).wf = false ∧ (Instr.voltageOpenTest 0 [5000]).wf = false ∧
    (Instr.voltageOpenTest 0 (List.replicate 21 0)).wf = false ∧
    (Instr.currentInjectionTest 0 [5000]).wf = false ∧ (Instr.currentInjectionTest 0 (List.replicate 11 0)).wf = false ∧
    (Instr.flumeStartupCal [(16, 0)] []).wf = false ∧
    (Instr.flumeStartupCal [] [18]).wf = false ∧ (Instr.interpolatorSelftest [(0, 9)]).wf = false ∧
    (Instr.weirSelftest [184]).wf = false ∧ (Instr.mspiWrite (List.replicate 4097 0)).wf = false ∧
    (Instr.warmStart [0]).wf = false ∧ (Instr.resumeStart true []).wf = false ∧
    (Instr.coldStart ⟨some [(8, 0)], 8, false, 0, false, [], [], [0, 0, 0, 0, 0]⟩).wf = false := by decide +kernel

/-! ## Witnesses: what the statements suppose can be met -/

theorem witness_StepRunsTheFrontCommand :
    (∃ (c : Instr) (rest : List Instr) (s : State), s.pending = c :: rest) ∧ ∃ s : State, s.pending = [] :=
  ⟨⟨.alertResponse, [], { State.reset with pending := [.alertResponse] }, rfl⟩, State.reset, rfl⟩

theorem witness_StepsKeepTheCanonicalForm : ∃ s : State, s.Canonical :=
  ⟨mk [(.LN_VSET, 6800, 0, 0)], by unfold State.Canonical; decide +kernel⟩

theorem witness_CommandFrames : (∃ l, touches (.fclr 3) = some l) ∧ ∃ l, touches (.pmbPage .read) = some l :=
  ⟨⟨_, rfl⟩, _, rfl⟩

theorem witness_RegisterArithmetic : (∃ (k : CoreId) (s : State), (s.atBoundary k).Ready k 1 true) ∧
    ∃ (k : CoreId) (s : State), (s.atBoundary k).Ready k 2 false :=
  ⟨⟨0, tc [], ready_of (by decide +kernel)⟩, 5, mc [], ready_of (by decide +kernel)⟩

theorem witness_ShiftsAndBits : (∃ (k : CoreId) (s : State), (s.atBoundary k).Ready k 1 true) ∧
    ∃ (k : CoreId) (s : State), (s.atBoundary k).Ready k 1 false :=
  ⟨⟨0, tc [(.repOn, 1, 0, 0)], ready_of (by decide +kernel)⟩, 5, mc [], ready_of (by decide +kernel)⟩


theorem witness_TransfersOfControl_calls :
    (∃ s t v : State, let b0 := s.atBoundary 0
      b0.Ready 0 2 false ∧ store (b0.fetched 0 2) 0 (supervisor b0 0) ((pReg b0 0 7 - 2) % 2 ^ 24) [0x102, 0] = (.ok t, v) ∧
      pcOf (endInstr (b0.fetched 0 2) 0 2) 0 = 0x102 ∧ t.get .coreOn 0 ≠ 0) ∧
    ∃ (e : Exc) (s v : State), let b0 := s.atBoundary 0
      b0.Ready 0 1 false ∧ store (b0.fetched 0 1) 0 (supervisor b0 0) ((pReg b0 0 7 - 2) % 2 ^ 24) [0x101, 0] = (.error e, v) ∧
      pcOf (endInstr (b0.fetched 0 1) 0 1) 0 = 0x101 ∧ v.get .coreOn 0 ≠ 0 := by
  let p : State := (tc [(.coreP, 0x200, 0, 7)]).atBoundary 0
  let q : State := (tc [(.coreP, 0x80000, 0, 7), (.XC_MPUCTL_EN, 1, 0, 0), (.MPU_BASE_EN, 1, 0, 0), (.MPU_LIM, 0x3FF, 0, 0),
    (.MPU_BASE_R, 1, 0, 0), (.MPU_BASE_X, 1, 0, 0)]).atBoundary 0
  let r := store (p.fetched 0 2) 0 true 0x1FE [0x102, 0]
  refine ⟨⟨tc [(.coreP, 0x200, 0, 7)], (match r.1 with | .ok t => t | .error _ => State.reset), r.2, ?_, ok_eq ?_ ?_, ?_, ?_⟩,
    ⟨excProt, 0, true, 0x7FFFE⟩, tc [(.coreP, 0x80000, 0, 7), (.XC_MPUCTL_EN, 1, 0, 0), (.MPU_BASE_EN, 1, 0, 0), (.MPU_LIM, 0x3FF, 0, 0),
    (.MPU_BASE_R, 1, 0, 0), (.MPU_BASE_X, 1, 0, 0)], q.fetched 0 1, ?_, err_eq ?_ ?_, ?_, ?_⟩ <;>
    first | ((with_reducible refine ready_of ?_) <;> decide +kernel) | decide +kernel

theorem witness_StartsAndGo :
  (∃ (s : State),
      (s.get .started ≠ 0)) ∧
  (∃ (s : State),
      (s.get .started = 0)) ∧
  (∃ (s : State),
      (s.get .warmDue ≠ 0) ∧ (s.now ≥ s.get .mcRstAt + 12) ∧ (pairRuns s 5 = true)) ∧
  (∃ (s : State),
      (s.get .warmDue = 0 ∨ s.now < s.get .mcRstAt + 12)) ∧
  (∃ (s : State),
      (s.get .resumeDue ≠ 0)) ∧
  (∃ (s : State),
      (s.get .resumeDue = 0)) ∧
  (∃ (s : State),
      (s.get .FL_STATUS_RDY ≠ 0) ∧ (s.get .SL_STATUS_RDY ≠ 0) ∧ (s.get .WP_STATUS_RDY ≠ 0) ∧ (s.get .D4_STATUS_RDY ≠ 0 ∨ s.get
        .D4_STATUS_TRAINERR ≠ 0 ∨ s.get .D4_CFG_SIZE = 0)) ∧
  (∃ (s : State),
      (s.get .FL_STATUS_RDY = 0 ∨ s.get .SL_STATUS_RDY = 0 ∨ s.get .WP_STATUS_RDY = 0 ∨
    s.get .D4_STATUS_RDY = 0 ∧ s.get .D4_STATUS_TRAINERR = 0 ∧ s.get .D4_CFG_SIZE ≠ 0)) ∧
  (∃ (s : State),
      (s.get .flashBusy ≠ 0) ∧ (s.logQueue = [])) ∧
  (∃ (s : State) (e : Nat × List Byte) (l : List (Nat × List Byte)),
      (s.get .flashBusy ≠ 0) ∧ (s.logQueue = e :: l) ∧ (s.get .flashRo = 0) ∧ ((logRegion s).2 ≠ 0)) ∧
  (∃ (s : State),
      (s.get .flashBusy = 0)) := by
  refine ⟨⟨(mk [(.started, -1, 0, 0)]), ?_⟩,
    ⟨(mk []), ?_⟩,
    ⟨(mk [(.tick, 31, 0, 0), (.warmDue, -1, 0, 0)]), ?_⟩,
    ⟨(mk []), ?_⟩,
    ⟨(mk [(.resumeDue, -1, 0, 0)]), ?_⟩,
    ⟨(mk []), ?_⟩,
    ⟨(mk [(.FL_STATUS_RDY, -1, 0, 0), (.SL_STATUS_RDY, 1, 0, 0), (.WP_STATUS_RDY, 1, 0, 0)]), ?_⟩,
    ⟨(mk []), ?_⟩,
    ⟨(mk [(.flashBusy, -1, 0, 0)]), ?_⟩,
    ⟨{ mk [(.flashSize, 16777216, 0, 0), (.flashBusy, 1, 0, 0)] with flash := dirFlash, logQueue := [(5, [])] }, (5, []), [], ?_⟩,
    ⟨(mk []), ?_⟩⟩ <;>
    (try dsimp only) <;> (repeat' apply And.intro) <;> first
      | ((with_reducible refine dir_log ?_ ?_) <;> decide +kernel)
      | decide +kernel

theorem witness_RepairScrubAndRetirement_ScrubUnits :
  (∃ (s : State),
      let m := s.nat .MS_SCRUBCTL_MEM
      (s.get .MS_SCRUBCTL_BUSY = 0) ∧ (s.nat .MS_SCRUBADDR < scrubSize s m)) ∧
  (∃ (s : State),
      let m := s.nat .MS_SCRUBCTL_MEM
      (s.get .MS_SCRUBCTL_BUSY ≠ 0 ∨ scrubSize s m ≤ s.nat .MS_SCRUBADDR)) ∧
  (∃ (s : State),
      (s.get .MS_SCRUBCTL_BUSY ≠ 0)) := by
  refine ⟨⟨(mk []), ?_⟩,
    ⟨(mk [(.MS_SCRUBCTL_BUSY, -1, 0, 0)]), ?_⟩,
    ⟨(mk [(.MS_SCRUBCTL_BUSY, -1, 0, 0)]), ?_⟩⟩ <;>
    (try dsimp only) <;> decide +kernel

theorem witness_ResetsAndClocks :
  (∃ (p : Fin 6),
      (p = 0)) ∧
  (∃ (p : Fin 6),
      (p = 1)) ∧
  (∃ (p : Fin 6),
      (1 < (p : Nat))) ∧
  (∃ (i : Fin 8) (s : State),
      (s.get .sleepMode ≠ 2 ∨ i = 1)) ∧
  (∃ (i : Fin 8) (s : State),
      (s.get .sleepMode = 2) ∧ (i ≠ 1)) ∧
  (∃ (s : State),
      (s.get .sleepMode ≠ 2)) ∧
  (∃ (s : State),
      (s.get .sleepMode = 2)) ∧
  (∃ (s : State),
      (s.get .D4_CFG_SIZE ≠ 0)) ∧
  (∃ (k : Fin 5) (s : State),
      (s.get .PW_TCCTL_HELD k ≠ 0)) ∧
  (∃ (k : Fin 5) (s : State),
      (s.get .PW_TCCTL_HELD k = 0)) ∧
  (∃ (k : Fin 5) (s : State),
      (s.get .PW_TCCTL_HELD k = 0) ∧ (s.get .coreOn k = 0) ∧ (pairRuns s k = true)) ∧
  (∃ (v : W16) (s : State),
      (v = 0xA5) ∧ (s.get .PW_WDOG_TMO ≠ 0)) ∧
  (∃ (v : W16) (s : State),
      (v ≠ 0xA5 ∨ s.get .PW_WDOG_TMO = 0)) ∧
  (∃ (s : State),
      (s.get .wdOn ≠ 0) ∧ (s.get .wdLeft = 0) ∧ (s.get .coreDbg 5 = 0) ∧ (s.get .sleepMode = 0)) ∧
  (∃ (s : State),
      (s.get .wdOn = 0 ∨ s.get .wdLeft ≠ 0)) := by
  refine ⟨⟨0, ?_⟩,
    ⟨1, ?_⟩,
    ⟨5, ?_⟩,
    ⟨3, (mk []), ?_⟩,
    ⟨3, (mk [(.sleepMode, 2, 0, 0)]), ?_⟩,
    ⟨(mk []), ?_⟩,
    ⟨(mk [(.sleepMode, 2, 0, 0)]), ?_⟩,
    ⟨(mk [(.D4_CFG_SIZE, -1, 0, 0)]), ?_⟩,
    ⟨4, (mk [(.PW_TCCTL_HELD, 1, 4, 0)]), ?_⟩,
    ⟨4, (mk []), ?_⟩,
    ⟨4, (mk []), ?_⟩,
    ⟨0x00a5#16, (mk [(.PW_WDOG_TMO, 1, 0, 0)]), ?_⟩,
    ⟨0x2738#16, (mk []), ?_⟩,
    ⟨(mk [(.wdOn, -1, 0, 0)]), ?_⟩,
    ⟨(mk []), ?_⟩⟩ <;>
    (try dsimp only) <;> decide +kernel

theorem witness_SleepAndWake :
  (∃ (m : Fin 4),
      (m = 3)) ∧
  (∃ (m : Fin 4) (s : State),
      (m = 1 ∨ m = 2) ∧ (sleepOk s = false)) ∧
  (∃ (m : Fin 4) (s : State),
      (m = 0 ∨ (m = 1 ∨ m = 2) ∧ sleepOk s = true)) ∧
  (∃ (s : State),
      let entering := s.get .coreWait 5 = 1 ∧ s.get .sleepMode = 0
      (entering) ∧ (s.get .PW_CTRL_SLEEP = 1) ∧ (sleepOk s = true) ∧ (wakeSource s = none)) ∧
  (∃ (s : State),
      let entering := s.get .coreWait 5 = 1 ∧ s.get .sleepMode = 0
      (entering) ∧ (s.get .PW_CTRL_SLEEP = 2) ∧ (sleepOk s = true) ∧ (wakeSource s = none)) ∧
  (∃ (s : State),
      let entering := s.get .coreWait 5 = 1 ∧ s.get .sleepMode = 0
      (entering) ∧ (s.get .PW_CTRL_SLEEP ≠ 0) ∧ (sleepOk s = false ∨ (wakeSource s).isSome = true)) ∧
  (∃ (s : State),
      let entering := s.get .coreWait 5 = 1 ∧ s.get .sleepMode = 0
      (¬entering ∨ s.get .PW_CTRL_SLEEP = 0)) ∧
  (∃ (src : Int) (id : Int) (s : State),
      (s.get .sleepMode = 1) ∧ (s.get .resumeDue = 0) ∧ (wakeSource s = some (src, id))) ∧
  (∃ (src : Int) (id : Int) (s : State),
      (s.get .sleepMode = 2) ∧ (s.get .resumeDue = 0) ∧ (wakeSource s = some (src, id))) ∧
  (∃ (s : State),
      (s.get .sleepMode = 0 ∨ wakeSource s = none)) ∧
  (∃ (s : State),
      (s.get .EV_HWPUB_EN 92 ≠ 0)) ∧
  (∃ (s : State),
      (s.get .EV_HWPUB_EN 92 = 0)) := by
  refine ⟨⟨3, ?_⟩,
    ⟨2, (mk [(.DM_RAILSTAT_STATE, -15, 0, 0)]), ?_⟩,
    ⟨0, (mk []), ?_⟩,
    ⟨(mk [(.coreWait, 1, 5, 0), (.PW_CTRL_SLEEP, 1, 0, 0)]), ?_⟩,
    ⟨(mk [(.coreWait, 1, 5, 0), (.PW_CTRL_SLEEP, 2, 0, 0)]), ?_⟩,
    ⟨(mk [(.coreWait, 1, 5, 0), (.PW_CTRL_SLEEP, 1, 0, 0), (.wakeReq, 1, 0, 0)]), ?_⟩,
    ⟨(mk []), ?_⟩,
    ⟨1, 1, (mk [(.evWakeReq, 2, 0, 0), (.sleepMode, 1, 0, 0)]), ?_⟩,
    ⟨1, 1, (mk [(.evWakeReq, 2, 0, 0), (.sleepMode, 2, 0, 0)]), ?_⟩,
    ⟨(mk []), ?_⟩,
    ⟨(mk [(.EV_HWPUB_EN, 1, 92, 0)]), ?_⟩,
    ⟨(mk []), ?_⟩⟩ <;>
    (try dsimp only) <;> decide +kernel

theorem witness_JtagPort :
  (∃ (s : State),
      (tapMayDrive s = true)) ∧
  (∃ (s : State),
      (tapMayDrive s = false)) ∧
  (∃ (s : State),
      (s.get .OT_STATUS_DBGLOCK ≠ 0)) ∧
  (∃ (s : State),
      (s.get .OT_STATUS_DBGLOCK = 0)) := by
  refine ⟨⟨(mk []), ?_⟩,
    ⟨(mk [(.DM_RAILSTAT_STATE, stOFF, 3, 0), (.DM_RAILCFG_ENSRC, 1, 3, 0), (.DM_RAILCTL_HOSTEN, 1, 3, 0)]), ?_⟩,
    ⟨(mk [(.OT_STATUS_DBGLOCK, -1, 0, 0)]), ?_⟩,
    ⟨(mk []), ?_⟩⟩ <;>
    (try dsimp only) <;> decide +kernel

theorem witness_TickBoundaries :
  (∃ (s : State),
      (s.get .started ≠ 0) ∧ (s.get .sleepMode ≠ 2) ∧ ((∀ w ∈ s.writes, w.key.fld ≠ .tick))) ∧
  (∃ (s : State),
      (s.get .started = 0 ∨ s.get .sleepMode = 2)) ∧
  (∃ (s : State),
      (mtickDue s = true)) ∧
  (∃ (s : State),
      (mtickDue s = false)) := by
  refine ⟨⟨(mk [(.started, -1, 0, 0)]), ?_⟩,
    ⟨(mk []), ?_⟩,
    ⟨(mk [(.tick, 1000000, 0, 0)]), ?_⟩,
    ⟨(mk []), ?_⟩⟩ <;>
    (try dsimp only) <;> decide +kernel

theorem witness_RegisterAccess :
  (∃ (ag : Agent) (a : Addr) (s : State),
      (noRegister a.toNat = true ∨ mayReach s ag a.toNat true = false)) ∧
  (∃ (ag : Agent) (a : Addr) (s : State),
      (noRegister a.toNat = true ∨ mayReach s ag a.toNat false = false)) ∧
  (∃ (ag : Agent) (r : Rail) (v : W16) (s : State),
      let lane := 0x410000 + 1024 * (r : Nat)
      (mayReach s ag lane true = true) ∧ (s.inBound ⟨.LN_CTRL_FFEN, r, 0⟩ (field v.toNat 2 2) = true)) ∧
  (∃ (ag : Agent) (r : Rail) (s : State),
      let stat := 0x414102 + 16 * (r : Nat)
      (mayReach s ag stat true = true)) ∧
  (∃ (ag : Agent) (v : W16) (s : State),
      (mayReach s ag 0x840000 true = true) ∧ (v.toNat % 256 ≠ 0) ∧ (s.inBound ⟨.HG_CTRL_EXTMO, 0, 0⟩ (field v.toNat 7 0) = true)) ∧
  (∃ (ag : Agent) (v : W16) (s : State),
      (mayReach s ag 0x840000 true = true) ∧ (v.toNat % 256 = 0)) ∧
  (∃ (ag : Agent) (r : Rail) (s : State),
      let ilim := 0x414104 + 16 * (r : Nat)
      (mayReach s ag ilim true = true)) ∧
  (∃ (ag : Agent) (r : Rail) (hi : W16) (s : State),
      let ilim := 0x414104 + 16 * (r : Nat)
      let low := if s.get .holdMark ilim ≠ 0 then s.get .holdWord ilim else s.written ⟨.DM_RAILLIM_ILIM, r, 0⟩ % 65536
      let whole := (low + 65536 * (hi.toNat : Int)) % 2 ^ 18
      (mayReach s ag (ilim + 1) true = true) ∧ (s.inBound ⟨.DM_RAILLIM_ILIM, r, 0⟩ whole = true)) ∧
  (∃ (ag : Agent) (r : Rail) (hi : W16) (s : State),
      let ilim := 0x414104 + 16 * (r : Nat)
      let low := if s.get .holdMark ilim ≠ 0 then s.get .holdWord ilim else s.written ⟨.DM_RAILLIM_ILIM, r, 0⟩ % 65536
      let whole := (low + 65536 * (hi.toNat : Int)) % 2 ^ 18
      (mayReach s ag (ilim + 1) true = true) ∧ (s.inBound ⟨.DM_RAILLIM_ILIM, r, 0⟩ whole = false)) ∧
  (∃ (a : Addr),
      (holdsLow a.toNat = false)) ∧
  (∃ (a : Addr),
      (holdsHigh a.toNat = false)) ∧
  (∃ (ag : Agent) (s : State),
      (ag ≠ .jtag) ∧ (mayReach s ag 0x414000 false = true)) ∧
  (∃ (a : Addr),
      (latchedBy a.toNat = [])) ∧
  (∃ (ag : Agent) (s : State),
      (ag ≠ .jtag) ∧ (mayReach s ag 0x414001 false = true)) ∧
  (∃ (ag : Agent) (p : Phase) (s : State),
      let mean := 0x400403 + 8 * (p : Nat)
      (ag ≠ .jtag) ∧ (mayReach s ag mean false = true)) ∧
  (∃ (ag : Agent) (ch : Channel) (s : State),
      let supp := 0x450103 + 4 * (ch : Nat)
      (ag ≠ .jtag) ∧ (mayReach s ag supp false = true)) ∧
  (∃ (s : State),
      (s.get .OT_STATUS_DBGLOCK = 0)) ∧
  (∃ (s : State),
      (s.get .OT_STATUS_DBGLOCK ≠ 0)) := by
  refine ⟨⟨((Sys2Proof.Agent.core 0)), 0x3bbc0d64#32, (mk []), ?_⟩,
    ⟨((Sys2Proof.Agent.core 0)), 0x3bbc0d64#32, (mk []), ?_⟩,
    ⟨((Sys2Proof.Agent.core 5)), 13, 0x0003#16, (mk []), ?_⟩,
    ⟨((Sys2Proof.Agent.dma 13)), 4, (mk []), ?_⟩,
    ⟨((Sys2Proof.Agent.jtag)), 0x336a#16, (mk []), ?_⟩,
    ⟨((Sys2Proof.Agent.dma 13)), 0x0400#16, (mk []), ?_⟩,
    ⟨((Sys2Proof.Agent.dma 13)), 4, (mk []), ?_⟩,
    ⟨((Sys2Proof.Agent.jtag)), 3, 0x0003#16, (mk []), ?_⟩,
    ⟨(.core 5), 0, 0#16, { mk [] with bounds := [⟨⟨.DM_RAILLIM_ILIM, 0, 0⟩, 1, 2⟩] }, ?_⟩,
    ⟨0xb1bb4fd3#32, ?_⟩,
    ⟨0xb1bb4fd3#32, ?_⟩,
    ⟨((Sys2Proof.Agent.core 5)), (mk []), ?_⟩,
    ⟨0xb1bb4fd3#32, ?_⟩,
    ⟨((Sys2Proof.Agent.core 5)), (mk []), ?_⟩,
    ⟨((Sys2Proof.Agent.dma 13)), 42, (mk []), ?_⟩,
    ⟨((Sys2Proof.Agent.core 0)), 5, (mk []), ?_⟩,
    ⟨(mk []), ?_⟩,
    ⟨(mk [(.OT_STATUS_DBGLOCK, -1, 0, 0)]), ?_⟩⟩ <;>
    (try dsimp only) <;> decide +kernel

theorem witness_SystemRegisterCommands :
  (∃ (ag : Agent) (k : CoreId) (s : State),
      let sup := agentCore s ag = (5, true)
      (sup) ∧ (s.get .XC_CTRL_LOCK k = 0)) ∧
  (∃ (ag : Agent) (s : State),
      (agentCore s ag ≠ (5, true))) ∧
  (∃ (ag : Agent) (s : State),
      let sup := agentCore s ag = (5, true)
      (sup)) ∧
  (∃ (ag : Agent) (s : State),
      let sup := agentCore s ag = (5, true)
      (sup)) ∧
  (∃ (ag : Agent) (s : State),
      (agentCore s ag ≠ (5, true))) ∧
  (∃ (ag : Agent) (m : Fin 1024) (s : State),
      let sup := agentCore s ag = (5, true)
      let open_ (vendor : Prop) := sup ∧ s.get .UC_CTRL_LDEN ≠ 0 ∧ ¬(s.get .UC_CTRL_VLOCK ≠ 0 ∧ vendor)
      (¬open_ (768 ≤ (m : Nat)))) ∧
  (∃ (ag : Agent) (m : Fin 1024) (s : State),
      let sup := agentCore s ag = (5, true)
      let open_ (vendor : Prop) := sup ∧ s.get .UC_CTRL_LDEN ≠ 0 ∧ ¬(s.get .UC_CTRL_VLOCK ≠ 0 ∧ vendor)
      (open_ (768 ≤ (m : Nat))) ∧ (pageLive s (m / 64) = true)) ∧
  (∃ (ag : Agent) (m : Fin 1024) (w : BitVec 64) (s : State),
      let sup := agentCore s ag = (5, true)
      let open_ (vendor : Prop) := sup ∧ s.get .UC_CTRL_LDEN ≠ 0 ∧ ¬(s.get .UC_CTRL_VLOCK ≠ 0 ∧ vendor)
      (open_ (768 ≤ (m : Nat))) ∧ (pageLive s (m / 64) = false) ∧ (microwordLegal m w.toNat = false)) ∧
  (∃ (ag : Agent) (m : Fin 1024) (w : BitVec 64) (s : State),
      let sup := agentCore s ag = (5, true)
      let open_ (vendor : Prop) := sup ∧ s.get .UC_CTRL_LDEN ≠ 0 ∧ ¬(s.get .UC_CTRL_VLOCK ≠ 0 ∧ vendor)
      (open_ (768 ≤ (m : Nat))) ∧ (pageLive s (m / 64) = false) ∧ (microwordLegal m w.toNat = true)) ∧
  (∃ (ag : Agent) (e : Fin 32) (s : State),
      let sup := agentCore s ag = (5, true)
      let open_ (vendor : Prop) := sup ∧ s.get .UC_CTRL_LDEN ≠ 0 ∧ ¬(s.get .UC_CTRL_VLOCK ≠ 0 ∧ vendor)
      (¬open_ (24 ≤ (e : Nat)))) ∧
  (∃ (ag : Agent) (e : Fin 32) (s : State),
      let sup := agentCore s ag = (5, true)
      let open_ (vendor : Prop) := sup ∧ s.get .UC_CTRL_LDEN ≠ 0 ∧ ¬(s.get .UC_CTRL_VLOCK ≠ 0 ∧ vendor)
      (open_ (24 ≤ (e : Nat)))) := by
  refine ⟨⟨((Sys2Proof.Agent.jtag)), 1, (mk []), ?_⟩,
    ⟨((Sys2Proof.Agent.core 0)), (mk []), ?_⟩,
    ⟨((Sys2Proof.Agent.jtag)), (mk []), ?_⟩,
    ⟨((Sys2Proof.Agent.jtag)), (mk []), ?_⟩,
    ⟨((Sys2Proof.Agent.core 0)), (mk []), ?_⟩,
    ⟨((Sys2Proof.Agent.core 0)), 6, (mk []), ?_⟩,
    ⟨((Sys2Proof.Agent.core 5)), 18, (mk [(.UC_DEC_VALID, 769, 1, 0), (.UC_CTRL_LDEN, 3, 0, 0)]), ?_⟩,
    ⟨((Sys2Proof.Agent.core 5)), 31, 0x9db963fdc8339ef7#64, (mk [(.UC_CTRL_LDEN, -1, 0, 0)]), ?_⟩,
    ⟨((Sys2Proof.Agent.core 5)), 31, 0x0000000000000005#64, (mk [(.UC_CTRL_LDEN, -1, 0, 0)]), ?_⟩,
    ⟨((Sys2Proof.Agent.core 0)), 3, (mk []), ?_⟩,
    ⟨((Sys2Proof.Agent.dma 14)), 31, (mk [(.UC_CTRL_LDEN, 2, 0, 0)]), ?_⟩⟩ <;>
    (try dsimp only) <;> decide +kernel

theorem witness_RailTransitionsAndFilters :
  (∃ (r : Rail) (s : State),
      (railState s r = stFAULT)) ∧
  (∃ (r : Rail) (s : State),
      (railState s r ≠ stFAULT)) ∧
  (∃ (r : Rail) (s : State),
      (railState s r = stOFF ∨ railState s r = stUNUSED)) ∧
  (∃ (r : Rail) (s : State),
      (railState s r ≠ stOFF ∧ railState s r ≠ stUNUSED)) ∧
  (∃ (r : Rail) (s : State),
      (s.get .railMoved r = 0) ∧ (railState s r = stRAMPUP) ∧ (s.get .faultCodes r = 0) ∧ (s.get .scopeReq r = 0) ∧ (s.now + 1 ≥ s.get
        .rampSince r + 40000 * s.get .DM_RAILTMO_STMO r)) ∧
  (∃ (r : Rail) (s : State),
      (s.get .railMoved r = 0) ∧ (railState s r = stREG) ∧ (s.get .faultCodes r = 0) ∧ (s.get .scopeReq r = 0) ∧ (s.get .stopReq r = 0) ∧
        (enabled s r = false) ∧ (dependentsDown s r = true) ∧ (s.now + 1 ≥ stopDelayFrom s r (s.now + 1) + 160 * s.get .DM_RAILDLY_PDLY
        r)) ∧
  (∃ (r : Rail) (s : State),
      (s.get .railMoved r = 0) ∧ (railState s r = stOFF) ∧ (s.get .rsReq r = 0) ∧ (enabled s r = true) ∧ (predsSatisfied s r (s.now + 1) =
        true) ∧ (s.now + 1 ≥ s.get .offSince r + 16000) ∧ (fabricReady s = true) ∧ (startBlocked s r = false)) ∧
  (∃ (r : Rail) (s : State),
      (s.get .railMoved r = 0) ∧ (railState s r = stFAULT) ∧ (s.get .fclrReq r = 0) ∧ (usesRetries (s.get .faultIn r) = true) ∧ (retryDue
        s r (s.now + 1) (leavesFault s (s.now + 1)) = true)) ∧
  (∃ (r : Rail) (s : State),
      (s.get .railMoved r = 0) ∧ (railState s r = stFAULT) ∧ (s.get .fclrReq r = 0) ∧ (bitAt (s.get .faultIn r) 6 = true) ∧ (retryDue s r
        (s.now + 1) (leavesFault s (s.now + 1)) = true)) := by
  refine ⟨⟨14, (mk [(.DM_RAILSTAT_STATE, 5, 14, 0)]), ?_⟩,
    ⟨11, (mk []), ?_⟩,
    ⟨11, (mk []), ?_⟩,
    ⟨7, (mk [(.DM_RAILSTAT_STATE, -7, 7, 0)]), ?_⟩,
    ⟨11, (mk [(.DM_RAILSTAT_STATE, 2, 11, 0)]), ?_⟩,
    ⟨9, (mk [(.DM_RAILSTAT_STATE, 3, 9, 0)]), ?_⟩,
    ⟨3, (mk [(.DM_RAILSTAT_STATE, 1, 3, 0), (.DM_RAILSTAT_ENF, 1, 3, 0), (.FL_STATUS_RDY, 1, 0, 0), (.SL_STATUS_RDY, 11, 0, 0),
      (.WP_STATUS_RDY, 1, 0, 0), (.offSince, -16001, 3, 0), (.fabricOn, 2, 0, 0)]), ?_⟩,
    ⟨11, (mk [(.DM_RAILSTAT_STATE, 5, 11, 0), (.WP_RSTAT_RLEFT, 1, 11, 0), (.faultIn, 2, 11, 0)]), ?_⟩,
    ⟨3, (mk [(.DM_RAILSTAT_STATE, stFAULT, 3, 0), (.faultIn, 64, 3, 0)]), ?_⟩⟩ <;>
    (try dsimp only) <;> (repeat' first | decide +kernel | apply And.intro) <;> first
      | ((with_reducible refine ready_of ?_) <;> decide +kernel)
      | decide +kernel

theorem witness_RailTransitionsAndFilters_RailFiltersAndPgood :
  (∃ (r : Rail) (s : State),
      let t := s.put .DM_RAILSTAT_ENF (s.get .enCand r) r
      (s.get .fabricOn = 1) ∧ (s.get .enStable r ≥ 8 * s.get .DM_RAILTMO_ENFILT r) ∧ (s.get .enableHold = 0 ∨ s.get .tapAt ≠ s.now + 1 ∨
        railState s r ≠ stOFF ∨ enableLevel s r = true ∨ enableLevel t r = false)) ∧
  (∃ (r : Rail) (s : State),
      let t := s.put .DM_RAILSTAT_ENF (s.get .enCand r) r
      (s.get .fabricOn = 1) ∧ (s.get .enStable r ≥ 8 * s.get .DM_RAILTMO_ENFILT r) ∧ (s.get .enableHold ≠ 0) ∧ (s.get .tapAt = s.now + 1)
        ∧ (railState s r = stOFF) ∧ (enableLevel s r = false) ∧ (enableLevel t r = true)) ∧
  (∃ (r : Rail) (s : State),
      (s.get .enWait r ≥ 160000)) ∧
  (∃ (r : Rail) (s : State),
      ((∀ q ∈ predecessors s r, oldState s q = stREG ∧ oldPgood s q = true ∧
      s.now + 1 - s.get .predPgAt q ≥ 160 * s.get .DM_RAILDLY_SDLY r))) ∧
  (∃ (r : Rail) (s : State),
      (railState s r = stREG) ∧ (s.get .pgIn r ≥ 16) ∧ (s.get .DM_RAILSTAT_PGOOD r = 0)) ∧
  (∃ (r : Rail) (s : State),
      (s.get .pgOut r ≥ 4 ∨ railState s r ≠ stREG)) ∧
  (∃ (d : Domain) (s : State),
      (0 < s.get .domXCnt d) ∧ (s.get .domXCnt d ≥ s.get .DM_DOMCFG_XPERS d) ∧ (bitAt (s.get .DM_STATUS_DOMX) d = false)) ∧
  (∃ (s : State),
      (s.get .devXCnt ≥ 16) ∧ (s.get .DM_STATUS_DEVX = 0)) := by
  refine ⟨⟨5, (mk [(.fabricOn, 1, 0, 0), (.enCand, 1, 5, 0)]), ?_⟩,
    ⟨5, (mk [(.fabricOn, 1, 0, 0), (.enCand, 1, 5, 0), (.enableHold, 1, 0, 0), (.tapAt, 1, 0, 0), (.DM_RAILSTAT_STATE, stOFF, 5, 0)]),
      ?_⟩,
    ⟨11, (mk [(.enWait, 160000, 11, 0)]), ?_⟩,
    ⟨10, (mk []), ?_⟩,
    ⟨1, (mk [(.DM_RAILSTAT_STATE, 3, 1, 0), (.pgIn, 17, 1, 0)]), ?_⟩,
    ⟨11, (mk []), ?_⟩,
    ⟨3, (mk [(.domXCnt, 3, 3, 0)]), ?_⟩,
    ⟨(mk [(.devXCnt, 17, 0, 0)]), ?_⟩⟩ <;>
    (try dsimp only) <;> decide +kernel

theorem witness_SlowChannelResults :
  (∃ (a : Fin 8) (codes : List (BitVec 12)) (s : State),
      (s.get .flumeOn = 1) ∧ (codes.length = 2 ^ s.nat .FL_AUXCFG_AVG a)) ∧
  (∃ (c : Cluster) (s : State),
      (s.get .flumeOn = 1) ∧ (s.now % 128 = 8 * (c : Int)) ∧ (s.get .tmLast c ≠ s.now)) ∧
  (∃ (s : State) (p : Phase),
      (s.get .phStuckCnt p ≠ 0) ∧ (s.get .phStuckCnt p ≥ s.get .FL_STKCFG_STKT)) ∧
  (∃ (s : State) (r : Rail),
      (s.get .vStuckCnt r ≠ 0) ∧ (s.get .vStuckCnt r ≥ s.get .FL_STKCFG_STKT)) ∧
  (∃ (a : Fin 8) (s : State),
      (s.get .auxStuckCnt a ≥ 4096)) ∧
  (∃ (c : Cluster) (s : State),
      (s.get .tmStuckCnt c ≥ 4096)) := by
  refine ⟨⟨1, ([0x004#12]), (mk [(.flumeOn, 1, 0, 0)]), ?_⟩,
    ⟨0, (mk [(.flumeOn, 1, 0, 0)]), ?_⟩,
    ⟨(mk [(.phStuckCnt, 2, 0, 0)]), 0, ?_⟩,
    ⟨(mk [(.vStuckCnt, 1, 11, 0)]), 11, ?_⟩,
    ⟨3, (mk [(.auxStuckCnt, 4096, 3, 0)]), ?_⟩,
    ⟨11, (mk [(.tmStuckCnt, 4096, 11, 0)]), ?_⟩⟩ <;>
    (try dsimp only) <;> decide +kernel

theorem witness_FlumeTestsAndRotation :
  (∃ (r : Rail) (s : State),
      (s.get .FL_CTRL_OSEN = 1) ∧ (vTestDue s r = true) ∧ (railState s r ≠ stUNUSED) ∧ (s.get .flumeOn = 1) ∧ (s.get .FL_VFLAG_CVFAIL r =
        0) ∧ (s.get .FL_VFLAG_HOLD r = 0) ∧ (underShadow s (16 + r / 8) (r % 8) = false)) ∧
  (∃ (p : Phase) (s : State),
      (s.get .FL_CTRL_OSEN = 1) ∧ (s.now % 256 = 32 + (p : Int)) ∧ ((memberOf s p).isSome) ∧ (s.get .flumeOn = 1) ∧ (s.get
        .FL_PHFLAG_SLFAIL p = 0) ∧ (s.get .pwmHigh p = 0) ∧ (s.get .FL_PHFLAG_HOLD p = 0) ∧ (underShadow s (p / 8) (p % 8) = false)) ∧
  (∃ (r : Rail) (s : State),
      (s.get .FL_CTRL_OSEN = 1) ∧ (vTestDue s r = true) ∧ (railState s r ≠ stUNUSED) ∧ (s.get .flumeOn = 1) ∧ (s.get .FL_VFLAG_CVFAIL r =
        0) ∧ (s.get .FL_VFLAG_HOLD r = 0) ∧ (underShadow s (16 + r / 8) (r % 8) = true)) ∧
  (∃ (p : Phase) (s : State),
      (s.get .FL_CTRL_OSEN = 1) ∧ (s.now % 256 = 32 + (p : Int)) ∧ ((memberOf s p).isSome) ∧ (s.get .flumeOn = 1) ∧ (s.get
        .FL_PHFLAG_SLFAIL p = 0) ∧ (s.get .pwmHigh p = 0) ∧ (s.get .FL_PHFLAG_HOLD p = 0) ∧ (underShadow s (p / 8) (p % 8) = true)) ∧
  (∃ (p : Phase) (s : State),
      (s.now % ripLen s = 0) ∧ (s.now ≠ s.get .ripEnded) ∧ (s.get .flumeOn = 1) ∧ ((memberOf s p).isSome) ∧ (s.get .ripMin p ≤ s.get
        .ripMax p)) ∧
  (∃ (g : Fin 18) (s : State) (k : Nat),
      (rotState s g = 0) ∧ (noSpare s g = false) ∧ (s.get .FL_STATUS_RDY = 1) ∧ (rotTarget s g = some k)) ∧
  (∃ (g : Fin 18) (s : State),
      (rotState s g ≠ 0)) ∧
  (∃ (g : Fin 18) (s : State),
      (rotState s g = 1) ∧ (s.now ≥ s.get .rotT0 g + 2048)) ∧
  (∃ (s : State) (c : Cluster),
      (s.get .FL_CLSTAT_RSTATE c = 2 ∨ s.get .FL_CLSTAT_RSTATE c = 3) ∧ (s.now ≥ s.get .rotT0 c + 2112) ∧ (s.get .rotDis c ≤ 2)) ∧
  (∃ (p : Phase) (s : State),
      (s.get .phStuckCnt p ≠ 0) ∧ (s.get .phStuckCnt p ≥ s.get .FL_STKCFG_STKT) ∧ (shadowAgrees s (p / 8) (p % 8) = true) ∧ (noSpare s (p
        / 8) = false)) ∧
  (∃ (p : Phase) (s : State),
      ((memberOf s p).isSome) ∧ (sliceOf s (p / 8) (p % 8) ≠ 0xF) ∧ (noSpare s (p / 8) = false)) ∧
  (∃ (s : State),
      (s.get .flumeOn = 1) ∧ (s.get .FL_STATUS_RDY = 0) ∧ (s.now ≥ s.get .flumeFrom + 3648)) := by
  refine ⟨⟨1, (mk [(.DM_RAILSTAT_STATE, -2, 1, 0), (.FL_CTRL_OSEN, 1, 0, 0), (.FL_CTRL_VPER, 9, 0, 0), (.tick, 2, 0, 0), (.flumeOn, 1, 0,
    0)]), ?_⟩,
    ⟨1, (mk [(.FL_CTRL_OSEN, 1, 0, 0), (.LN_MAP_PHASE, 1, 3, 0), (.LN_MAP_VALID, 1, 3, 0), (.tick, 33, 0, 0), (.flumeOn, 1, 0, 0)]), ?_⟩,
    ⟨0, (mk [(.DM_RAILSTAT_STATE, -21, 0, 0), (.FL_CTRL_OSEN, 1, 0, 0), (.FL_CTRL_VPER, -4, 0, 0), (.FL_VGSTAT_RSTATE, 3, 0, 0),
      (.flumeOn, 1, 0, 0)]), ?_⟩,
    ⟨1, (mk [(.FL_CTRL_OSEN, 1, 0, 0), (.FL_CLSTAT_POS, 1, 0, 0), (.FL_CLSTAT_RSTATE, 3, 0, 0), (.LN_MAP_PHASE, 1, 3, 0), (.LN_MAP_VALID,
      1, 3, 0), (.tick, 33, 0, 0), (.flumeOn, 1, 0, 0)]), ?_⟩,
    ⟨0, (mk [(.LN_MAP_VALID, 18, 3, 0), (.ripMin, 2, 0, 0), (.ripMax, 5, 0, 0), (.ripEnded, 3, 0, 0), (.flumeOn, 1, 0, 0)]), ?_⟩,
    ⟨2, (mk [(.FL_STATUS_RDY, 1, 0, 0), (.LN_MAP_VALID, 1, 0, 0), (.LN_MAP_PHASE, 17, 0, 0)]), 1, ?_⟩,
    ⟨5, (mk [(.FL_CLSTAT_RSTATE, 1, 5, 0)]), ?_⟩,
    ⟨14, (mk [(.FL_CLSTAT_RSTATE, 1, 14, 0), (.rotT0, -2050, 14, 0)]), ?_⟩,
    ⟨(mk [(.FL_CLSTAT_RSTATE, 2, 12, 0), (.tick, 2112, 0, 0)]), 12, ?_⟩,
    ⟨19, (mk [(.FL_CLSTAT_POS, 3, 2, 0), (.FL_CLSTAT_RSTATE, 2, 2, 0), (.tick, 5000, 0, 0), (.phStuckCnt, 30, 19, 0)]), ?_⟩,
    ⟨0, (mk [(.LN_MAP_VALID, 8, 0, 0)]), ?_⟩,
    ⟨(mk [(.tick, 15, 0, 0), (.flumeOn, 1, 0, 0), (.flumeFrom, -3647, 0, 0)]), ?_⟩⟩ <;>
    (try dsimp only) <;> decide +kernel

theorem witness_SetpointAndBanks :
  (∃ (v : BitVec 14),
      ((v.toNat : Int) < 1600 ∨ 15200 < (v.toNat : Int))) ∧
  (∃ (r : Rail) (v : BitVec 14) (s : State),
      (1600 ≤ (v.toNat : Int)) ∧ ((v.toNat : Int) ≤ 15200) ∧ (s.inBound ⟨.LN_VSET, r, 0⟩ v.toNat = true) ∧ (s.written ⟨.LN_VSET, r, 0⟩ <
        v.toNat) ∧ (admissible s r (setpointDelta s r v.toNat) = false)) ∧
  (∃ (r : Rail) (v : BitVec 14) (s : State),
      (1600 ≤ (v.toNat : Int)) ∧ ((v.toNat : Int) ≤ 15200) ∧ (s.inBound ⟨.LN_VSET, r, 0⟩ v.toNat = true) ∧ (s.written ⟨.LN_VSET, r, 0⟩ <
        v.toNat) ∧ (admissible s r (setpointDelta s r v.toNat) = true)) ∧
  (∃ (r : Rail) (v : BitVec 14) (s : State),
      (1600 ≤ (v.toNat : Int)) ∧ ((v.toNat : Int) ≤ 15200) ∧ (s.inBound ⟨.LN_VSET, r, 0⟩ v.toNat = true) ∧ ((v.toNat : Int) ≤ s.written
        ⟨.LN_VSET, r, 0⟩)) := by
  refine ⟨⟨0x0008#14, ?_⟩,
    ⟨14, 0x224e#14, (mk [(.DM_DOM_IALLOT, -16, 0, 0)]), ?_⟩,
    ⟨5, 0x27f0#14, (mk []), ?_⟩,
    ⟨13, 0x1c29#14, (mk [(.LN_VSET, 65538, 13, 0)]), ?_⟩⟩ <;>
    (try dsimp only) <;> decide +kernel

theorem witness_SetpointAndBanks_BankExchange :
  (∃ (r : Rail) (s : State),
      let act := s.nat .LN_STATUS_ACTBANK r
      (s.get .LN_STATUS_COMMITPEND r = 1) ∧ (bankValid s r (1 - act) = true)) ∧
  (∃ (r : Rail) (s : State),
      let act := s.nat .LN_STATUS_ACTBANK r
      (s.get .LN_STATUS_COMMITPEND r = 1) ∧ (bankValid s r (1 - act) = false)) ∧
  (∃ (r : Rail) (s : State),
      let act := s.nat .LN_STATUS_ACTBANK r
      (s.get .LN_STATUS_COMMITPEND r = 0) ∧ (s.get .copyReq r = 1) ∧ (act ≤ 1)) := by
  refine ⟨⟨11, (mk [(.LN_STATUS_COMMITPEND, 1, 11, 0)]), ?_⟩,
    ⟨11, (mk [(.LN_STATUS_ACTBANK, 4, 11, 0), (.LN_STATUS_COMMITPEND, 1, 11, 0), (.LN_IMIN, 2, 11, 0)]), ?_⟩,
    ⟨11, (mk [(.copyReq, 1, 11, 0)]), ?_⟩⟩ <;>
    (try dsimp only) <;> decide +kernel

theorem witness_CompensatorRun :
  (∃ (r : Rail) (s : State),
      (cmdLo s r ≤ cmdHi s r)) ∧
  (∃ (r : Rail) (s : State),
      (s.get .forced r ≠ 0)) := by
  refine ⟨⟨5, (mk []), ?_⟩,
    ⟨11, (mk [(.forced, 1, 11, 0)]), ?_⟩⟩ <;>
    (try dsimp only) <;> decide +kernel

theorem witness_ModulatorEdgesAndSyncin :
  (∃ (r : Rail) (s : State),
      (s.get .fabricOn = 1) ∧ (s.get .sleepMode = 0) ∧ (0 < s.get .SL_RPER r) ∧ (wrapAt s r < 320 * s.now + 320) ∧ (s.get .SL_RMODE_SYNCEN
        r = 0)) ∧
  (∃ (r : Rail) (p : Phase) (s : State) (j : Nat),
      (memberOf s p = some ((r : Nat), j)) ∧ (s.get .fabricOn = 1) ∧ (s.get .sleepMode = 0) ∧ (s.bitOf .SL_RACT j r = true) ∧ (s.get
        .tbWrap r + s.get .SL_POFS p < 320 * s.now + 320) ∧ (s.get .addFrom p ≤ s.get .tbWrap r + s.get .SL_POFS p) ∧ (s.get .ofsFrom p +
        160 ≤ s.get .tbWrap r + s.get .SL_POFS p) ∧ (s.get .relAt p + 160 ≤ s.get .tbWrap r + s.get .SL_POFS p) ∧ (s.get .cycAny p = 0) ∧
        (s.get .egWait p = 0) ∧ (s.get .blocked p = 0) ∧ (s.get .modHigh p = 0) ∧ (s.get .SL_RMODE_MODE r = 0) ∧ (s.get .offAt p + s.get
        .SL_RTOFFMIN r ≤ s.get .tbWrap r + s.get .SL_POFS p) ∧ (s.get .SL_RTONMIN r ≤ s.get .SL_RPER r - s.get .SL_RDMAXT r)) ∧
  (∃ (r : Rail) (p : Phase) (s : State),
      (railOf s p = some (r : Nat)) ∧ (s.get .modHigh p = 1) ∧ (0 < s.get .offSched p) ∧ (s.get .offSched p - 1 < 320 * s.now + 320)) ∧
  (∃ (r : Rail) (p : Phase) (raw : BitVec 12) (prev : BitVec 12) (x : Fin 320) (s : State),
      let now := 320 * s.now + (x : Int)
      (railOf s p = some (r : Nat)) ∧ (s.get .SL_RMODE_MODE r = 0) ∧ (s.get .modHigh p = 1) ∧ (s.get .cmpUsed p = 0) ∧ (s.get .phHold p =
        0) ∧ (comparedValue s r p raw.toInt prev.toInt x ≥ peakThreshold s r p now) ∧ (now ≥ s.get .onAt p + s.get .SL_RTONMIN r)) ∧
  (∃ (r : Rail) (p : Phase) (raw : BitVec 12) (prev : BitVec 12) (x : Fin 320) (s : State) (j : Nat),
      let now := 320 * s.now + (x : Int)
      (memberOf s p = some ((r : Nat), j)) ∧ (s.get .SL_RMODE_MODE r = 1) ∧ (s.get .modHigh p = 0) ∧ (s.get .blocked p = 0) ∧ (s.get
        .midZc p = 0) ∧ (s.get .phHold p = 0) ∧ (s.bitOf .SL_RACT j r = true) ∧ (s.get .onSched p = 0) ∧ (now ≥ s.get .offAt p + s.get
        .SL_RTOFFMIN r) ∧ (valleyGate s r p now = true) ∧ (comparedValue s r p raw.toInt prev.toInt x ≤ valleyThreshold s r p now) ∧ (now
        + s.get .SL_RTONMIN r ≤ s.get .cycStart p + s.get .SL_RPER r - s.get .SL_RDMAXT r)) ∧
  (∃ (r : Rail) (p : Phase) (raw : BitVec 12) (prev : BitVec 12) (x : Fin 320) (s : State),
      (railOf s p = some (r : Nat)) ∧ (s.get .SL_RMODE_DCMEN r = 1) ∧ (s.get .modHigh p = 0) ∧ (s.get .blocked p = 0) ∧ (s.get .phHold p =
        0) ∧ (s.get .insOn p = 0) ∧ (comparedValue s r p raw.toInt prev.toInt x ≤ s.get .SL_PZCD p)) := by
  refine ⟨⟨9, (mk [(.SL_RPER, 319, 9, 0), (.fabricOn, 1, 0, 0)]), ?_⟩,
    ⟨3, 12, (mk [(.LN_MAP_PHASE, 12, 3, 0), (.LN_MAP_VALID, 1, 3, 0), (.SL_POFS, 200, 12, 0), (.SL_RACT, 1, 3, 0), (.fabricOn, 1, 0, 0)]),
      0, ?_⟩,
    ⟨11, 35, (mk [(.LN_MAP_PHASE, 35, 11, 0), (.LN_MAP_VALID, 1, 11, 0), (.modHigh, 1, 35, 0), (.offSched, 100, 35, 0)]), ?_⟩,
    ⟨11, 35, 0x003#12, 0x020#12, 127, (mk [(.LN_MAP_PHASE, 35, 11, 0), (.LN_MAP_VALID, 1, 11, 0), (.modHigh, 1, 35, 0)]), ?_⟩,
    ⟨14, 2, 0x2ba#12, 0x002#12, 1, (mk [(.LN_MAP_PHASE, 2, 14, 0), (.LN_MAP_VALID, 1, 14, 0), (.SL_RMODE_MODE, 1, 14, 0), (.SL_RPER, 320,
      14, 0), (.SL_RACT, -1001, 14, 0)]), 0, ?_⟩,
    ⟨11, 35, 0x003#12, 0x020#12, 127, (mk [(.LN_MAP_PHASE, 35, 11, 0), (.LN_MAP_VALID, 1, 11, 0), (.SL_RMODE_DCMEN, 1, 11, 0)]), ?_⟩⟩ <;>
    (try dsimp only) <;> decide +kernel

theorem witness_ModulatorEdgesAndSyncin_SyncinTracking :
  (∃ (width : Nat),
      (width < 512)) ∧
  (∃ (width : Nat) (s : State),
      (512 ≤ width) ∧ (s.get .syncAny = 0)) ∧
  (∃ (x : Fin 320) (width : Nat) (s : State),
      let now := 320 * s.now + (x : Int)
      (512 ≤ width) ∧ (s.get .syncAny = 1) ∧ (2134 ≤ now - s.get .syncLast) ∧ (now - s.get .syncLast ≤ 204800)) ∧
  (∃ (s : State),
      (s.get .SL_STATUS_SYNCACT = 1) ∧ (320 * s.now + 320 ≥ s.get .syncLast + 4 * s.get .SL_SYNCPER)) := by
  refine ⟨⟨64, ?_⟩,
    ⟨1000, (mk []), ?_⟩,
    ⟨9, 204800, (mk [(.tick, 320, 0, 0), (.syncAny, 1, 0, 0)]), ?_⟩,
    ⟨(mk [(.SL_STATUS_SYNCACT, 1, 0, 0)]), ?_⟩⟩ <;>
    (try dsimp only) <;> decide +kernel

theorem witness_PhaseRequestsAndGenerators :
  (∃ (r : Rail) (p : Phase) (s : State),
      (railOf s p = some (r : Nat)) ∧ (s.get .dropState p = 2) ∧ ((s.get .FL_PHMEAN p ≤ s.get .SL_PZCD p ∨ s.now ≥ s.get .dropFrom p +
        s.get .SL_RSYNC_DRPT r))) ∧
  (∃ (p : Phase) (s : State) (l : Fin 3),
      (s.get .rbArmed p = 1) ∧ (s.get .egWait p = 0) ∧ (((l : Nat) : Int) = s.get .SL_PSTAT_LEVEL p) ∧ (s.get .SL_PSTAT_EGSP p = 0)) ∧
  (∃ (p : Phase) (s : State) (l : Fin 3),
      (s.get .rbArmed p = 1) ∧ (s.get .egWait p = 0) ∧ (((l : Nat) : Int) ≠ s.get .SL_PSTAT_LEVEL p) ∧ (s.get .rbCnt p < 2)) ∧
  (∃ (p : Phase) (s : State) (l : Fin 3),
      (s.get .rbArmed p = 1) ∧ (s.get .egWait p = 0) ∧ (((l : Nat) : Int) ≠ s.get .SL_PSTAT_LEVEL p) ∧ (s.get .rbCnt p = 2)) ∧
  (∃ (c : Cluster) (k : Fin 8) (s : State),
      (s.get .SL_PSTAT_EGSP (8 * c + k) = 0) ∧ (s.get .egWait (8 * c + k) = 0) ∧ (s.get .SL_CEG_SPUSE c = 0) ∧ (bitAt (orI (s.get
        .SL_CEG_FAIL c) (2 ^ (k : Nat))) 8 = false) ∧ (s.get .csubReq (8 * c + k) = 1) ∧ ((∀ i : Fin 8, i ≠ k → s.get .csubReq (8 * c + i)
        = 0))) ∧
  (∃ (s : State),
      (s.get .sluiceOn = 1) ∧ (s.get .SL_STATUS_RDY = 0)) := by
  refine ⟨⟨11, 35, (mk [(.LN_MAP_PHASE, 35, 11, 0), (.LN_MAP_VALID, 1, 11, 0), (.dropState, 2, 35, 0)]), ?_⟩,
    ⟨66, (mk [(.rbArmed, 1, 66, 0)]), 2, ?_⟩,
    ⟨20, (mk [(.rbArmed, 1, 20, 0)]), 0, ?_⟩,
    ⟨0, (mk [(.rbArmed, 1, 0, 0), (.rbCnt, 2, 0, 0)]), 0, ?_⟩,
    ⟨8, 7, (mk [(.csubReq, 1, 71, 0)]), ?_⟩,
    ⟨(mk [(.sluiceOn, 1, 0, 0)]), ?_⟩⟩ <;>
    (try dsimp only) <;> decide +kernel

theorem witness_BurstAndAllOffEnds :
  (∃ (r : Rail) (p : Phase) (raw : BitVec 12) (prev : BitVec 12) (x : Fin 320) (s : State),
      (railOf s p = some (r : Nat)) ∧ (s.get .inBurst p = 1) ∧ (s.get .phHold p = 0) ∧ (comparedValue s r p raw.toInt prev.toInt x ≥ s.get
        .LN_BILIM r)) ∧
  (∃ (r : Rail) (s : State),
      (s.get .burstOn r = 1) ∧ (s.now ≥ s.get .burstFrom r + s.get .LN_BURST_BLEN r)) ∧
  (∃ (r : Rail) (s : State),
      (s.get .burstOn r = 1) ∧ (burstUsed s r ≥ s.get .LN_BBUDGET r)) ∧
  (∃ (r : Rail) (s : State),
      (s.get .trOff r = 1) ∧ (s.now ≥ s.get .trFrom r + s.get .LN_OFFLEN r)) := by
  refine ⟨⟨11, 35, 0x003#12, 0x020#12, 127, (mk [(.LN_MAP_PHASE, 35, 11, 0), (.LN_MAP_VALID, 1, 11, 0), (.inBurst, 1, 35, 0)]), ?_⟩,
    ⟨5, (mk [(.burstOn, 1, 5, 0)]), ?_⟩,
    ⟨11, (mk [(.burstOn, 1, 11, 0)]), ?_⟩,
    ⟨5, (mk [(.trOff, 1, 5, 0)]), ?_⟩⟩ <;>
    (try dsimp only) <;> decide +kernel

theorem witness_WeirsAndSpares :
  (∃ (w : Weir) (nv : Int) (s : State),
      let c := configWeir s w
      let hi := thresholdCode s w (s.get .WR_HI c) * thresholdLsb s w
      let v := weirInput s w nv
      let compares := s.get .wrRun w = 1 ∧ s.get .WR_STAT_SETTLE w = 0
      (compares) ∧ (s.get .WR_STAT_EFFMODE w = 0) ∧ (hi < v) ∧ (s.get .WR_STAT_OUT w ≠ 2)) ∧
  (∃ (w : Weir) (nv : Int) (s : State),
      let c := configWeir s w
      let hi := thresholdCode s w (s.get .WR_HI c) * thresholdLsb s w
      let lo := thresholdCode s w (s.get .WR_LO c) * thresholdLsb s w
      let v := weirInput s w nv
      let compares := s.get .wrRun w = 1 ∧ s.get .WR_STAT_SETTLE w = 0
      (compares) ∧ (s.get .WR_STAT_EFFMODE w = 0) ∧ (v ≤ hi) ∧ (v < lo) ∧ (s.get .WR_STAT_OUT w ≠ 1)) ∧
  (∃ (w : Weir) (nv : Int) (s : State),
      let c := configWeir s w
      let hi := thresholdCode s w (s.get .WR_HI c) * thresholdLsb s w
      let lo := thresholdCode s w (s.get .WR_LO c) * thresholdLsb s w
      let hys := s.get .WR_CFG_HYS c * thresholdLsb s w
      let v := weirInput s w nv
      let compares := s.get .wrRun w = 1 ∧ s.get .WR_STAT_SETTLE w = 0
      (compares) ∧ (s.get .WR_STAT_EFFMODE w = 0) ∧ (v < hi - hys) ∧ (lo + hys < v) ∧ (0 ≤ hys)) ∧
  (∃ (w : Weir) (s : State),
      let compares := s.get .wrRun w = 1 ∧ s.get .WR_STAT_SETTLE w = 0
      (compares) ∧ (2 ≤ s.get .WR_STAT_EFFMODE w) ∧ (s.get .WR_STAT_EFFMODE w ≤ 4)) ∧
  (∃ (w : Weir) (s : State),
      (s.get .WR_STAT_SETTLE w = 1) ∧ (s.now ≥ s.get .wrSettle w + 2)) ∧
  (∃ (w : Weir) (s : State),
      let c := configWeir s w
      (s.get .WR_CFG_EN c = 1) ∧ (s.get .wrOn w = 0) ∧ (weirActive (s.put .wrOn 1 w) w = true) ∧ (weirMode s w ≠ 5)) ∧
  (∃ (w : Weir) (s : State) (r : Rail),
      let compares := s.get .wrRun w = 1 ∧ s.get .WR_STAT_SETTLE w = 0
      ((w : Nat) = 128 + 2 * r) ∧ (compares) ∧ (s.get .WR_STAT_EFFMODE w = 0) ∧ (railRuns s r = true) ∧ (s.get .ovOff r = 0 ∨ s.get .ovOff
        r = 1) ∧ ((s.get .WR_STAT_OUT w = 0 → s.get .ovOff r = 0)) ∧ ((s.get .WR_STAT_OUT w = 2 → s.get .ovOff r = 1))) := by
  refine ⟨⟨148, 64, (mk [(.wrRun, 1, 148, 0)]), ?_⟩,
    ⟨32, ((-2)), (mk [(.wrRun, 1, 32, 0)]), ?_⟩,
    ⟨169, 7, (mk [(.WR_HI, 32, 169, 0), (.wrRun, 1, 169, 0)]), ?_⟩,
    ⟨0, (mk [(.WR_STAT_EFFMODE, 4, 0, 0), (.wrRun, 1, 0, 0)]), ?_⟩,
    ⟨3, (mk [(.WR_STAT_SETTLE, 1, 3, 0), (.wrSettle, -2, 3, 0)]), ?_⟩,
    ⟨168, (mk [(.WR_CFG_EN, 1, 168, 0)]), ?_⟩,
    ⟨128, (mk [(.DM_RAILSTAT_STATE, 3, 0, 0), (.wrRun, 1, 128, 0)]), 0, ?_⟩⟩ <;>
    (try dsimp only) <;> decide +kernel

theorem witness_WeirsAndSpares_WeirSpares :
  (∃ (w : Weir) (s : State),
      (s.get .WR_STAT_FAIL w = 1) ∧ (s.get .WR_STAT_SUBST w = 0) ∧ (s.get .wrLoss w = 0) ∧ (s.bitOf .WP_STATUS_SPUSE (spareFor w) = false)
        ∧ (s.bitOf .WP_SPFAIL (spareFor w) = false)) ∧
  (∃ (w : Weir),
      ((w : Nat) < 176)) ∧
  (∃ (w : Weir) (s : State),
      ((w : Nat) < 176) ∧ (s.get .declReq w = 1) ∧ ((∀ i < 176, i ≠ (w : Nat) → s.get .declReq i = 0)) ∧ (s.get .WR_STAT_SUBST w = 0)) ∧
  (∃ (w : Weir),
      (176 ≤ (w : Nat))) ∧
  (∃ (s : State),
      (s.get .weirsOn = 1) ∧ (s.get .WP_STATUS_RDY = 0)) := by
  refine ⟨⟨17, (mk [(.WR_STAT_FAIL, 1, 17, 0)]), ?_⟩,
    ⟨3, ?_⟩,
    ⟨107, (mk [(.declReq, 1, 107, 0)]), ?_⟩,
    ⟨177, ?_⟩,
    ⟨(mk [(.weirsOn, 1, 0, 0)]), ?_⟩⟩ <;>
    (try dsimp only) <;> decide +kernel

theorem witness_ProtectionAndStageFaults :
  (∃ (r : Rail) (s : State),
      (0 < s.get .ovCnt r) ∧ (s.get .WP_RPERS_OVPERS r ≤ s.get .ovCnt r) ∧ (s.get .WP_RCFG_OVPOL r = 0)) ∧
  (∃ (r : Rail) (s : State),
      (0 < s.get .ovCnt r) ∧ (s.get .WP_RPERS_OVPERS r ≤ s.get .ovCnt r) ∧ (s.get .WP_RCFG_OVPOL r = 1) ∧ (railRuns s r = true)) ∧
  (∃ (r : Rail) (s : State),
      (0 < s.get .ovCnt r) ∧ (s.get .WP_RPERS_OVPERS r ≤ s.get .ovCnt r) ∧ (s.get .WP_RCFG_OVPOL r = 2) ∧ (railRuns s r = true)) ∧
  (∃ (r : Rail) (s : State),
      (0 < s.get .uvCnt r) ∧ (s.get .WP_RPERS_UVPERS r ≤ s.get .uvCnt r) ∧ (railState s r = stREG) ∧ (s.get .WP_RCFG_UVPOL r = 0)) ∧
  (∃ (r : Rail) (s : State),
      (0 < s.get .uvCnt r) ∧ (s.get .WP_RPERS_UVPERS r ≤ s.get .uvCnt r) ∧ (railState s r = stREG) ∧ (s.get .WP_RCFG_UVPOL r = 1)) ∧
  (∃ (r : Rail) (s : State),
      (0 < s.get .uvCnt r) ∧ (s.get .WP_RPERS_UVPERS r ≤ s.get .uvCnt r) ∧ (railState s r = stREG) ∧ (s.get .WP_RCFG_UVPOL r = 2)) ∧
  (∃ (r : Rail) (s : State),
      (0 < s.get .rocCnt r) ∧ (s.get .WP_RPERS2_ROCPERS r ≤ s.get .rocCnt r) ∧ (railRuns s r = true) ∧ (s.get .WP_RCFG_ROCPOL r = 0)) ∧
  (∃ (r : Rail) (s : State),
      (0 < s.get .rocCnt r) ∧ (s.get .WP_RPERS2_ROCPERS r ≤ s.get .rocCnt r) ∧ (railRuns s r = true) ∧ (s.get .WP_RCFG_ROCPOL r = 1)) ∧
  (∃ (r : Rail) (s : State),
      (0 < s.get .rocCnt r) ∧ (s.get .WP_RPERS2_ROCPERS r ≤ s.get .rocCnt r) ∧ (railRuns s r = true) ∧ (s.get .WP_RCFG_ROCPOL r = 2)) ∧
  (∃ (r : Rail) (s : State),
      (0 < s.get .lsatCnt r) ∧ (s.get .WP_LSAT r ≤ s.get .lsatCnt r) ∧ (railState s r = stREG) ∧ (s.get .WP_RCFG_LSATPOL r = 0)) ∧
  (∃ (r : Rail) (s : State),
      (0 < s.get .lsatCnt r) ∧ (s.get .WP_LSAT r ≤ s.get .lsatCnt r) ∧ (railState s r = stREG) ∧ (s.get .WP_RCFG_LSATPOL r = 1)) ∧
  (∃ (r : Rail) (s : State),
      (0 < s.get .lsatCnt r) ∧ (s.get .WP_LSAT r ≤ s.get .lsatCnt r) ∧ (railState s r = stREG) ∧ (s.get .WP_RCFG_LSATPOL r = 2)) ∧
  (∃ (r : Rail) (p : Phase) (s : State),
      (railOf s p = some (r : Nat)) ∧ (0 < s.get .ocCnt p) ∧ (s.get .WP_RPERS2_OCCNT r ≤ s.get .ocCnt p) ∧ (phaseActive s p = true) ∧
        (s.get .PH_PSTAT_RET p = 0) ∧ (s.get .WP_RCFG2_PHOCPOL r = 1)) ∧
  (∃ (r : Rail) (s : State),
      (s.get .regMt r ≥ 160)) := by
  refine ⟨⟨14, (mk [(.ovCnt, 15, 14, 0)]), ?_⟩,
    ⟨5, (mk [(.DM_RAILSTAT_STATE, 2, 5, 0), (.WP_RCFG_OVPOL, 1, 5, 0), (.ovCnt, 2, 5, 0)]), ?_⟩,
    ⟨5, (mk [(.DM_RAILSTAT_STATE, 2, 5, 0), (.WP_RCFG_OVPOL, 2, 5, 0), (.ovCnt, 3, 5, 0)]), ?_⟩,
    ⟨1, (mk [(.DM_RAILSTAT_STATE, 3, 1, 0), (.uvCnt, 255, 1, 0)]), ?_⟩,
    ⟨0, (mk [(.DM_RAILSTAT_STATE, 3, 0, 0), (.WP_RCFG_UVPOL, 1, 0, 0), (.uvCnt, 1, 0, 0)]), ?_⟩,
    ⟨0, (mk [(.DM_RAILSTAT_STATE, 3, 0, 0), (.WP_RCFG_UVPOL, 2, 0, 0), (.uvCnt, 1, 0, 0)]), ?_⟩,
    ⟨0, (mk [(.DM_RAILSTAT_STATE, 4, 0, 0), (.rocCnt, 2, 0, 0)]), ?_⟩,
    ⟨0, (mk [(.DM_RAILSTAT_STATE, 4, 0, 0), (.WP_RCFG_ROCPOL, 1, 0, 0), (.rocCnt, 2, 0, 0)]), ?_⟩,
    ⟨0, (mk [(.DM_RAILSTAT_STATE, 4, 0, 0), (.WP_RCFG_ROCPOL, 2, 0, 0), (.rocCnt, 2, 0, 0)]), ?_⟩,
    ⟨1, (mk [(.DM_RAILSTAT_STATE, 3, 1, 0), (.lsatCnt, 255, 1, 0)]), ?_⟩,
    ⟨0, (mk [(.DM_RAILSTAT_STATE, 3, 0, 0), (.WP_RCFG_LSATPOL, 1, 0, 0), (.lsatCnt, 1, 0, 0)]), ?_⟩,
    ⟨0, (mk [(.DM_RAILSTAT_STATE, 3, 0, 0), (.WP_RCFG_LSATPOL, 2, 0, 0), (.lsatCnt, 1, 0, 0)]), ?_⟩,
    ⟨11, 35, (mk [(.LN_MAP_PHASE, 35, 11, 0), (.LN_MAP_VALID, 1, 11, 0), (.SL_RACT, -1, 11, 0), (.WP_RCFG2_PHOCPOL, 1, 11, 0), (.ocCnt, 2,
      35, 0)]), ?_⟩,
    ⟨11, (mk [(.regMt, 160, 11, 0)]), ?_⟩⟩ <;>
    (try dsimp only) <;> decide +kernel

theorem witness_ProtectionAndStageFaults_StageFaultInput :
  (∃ (c : Cluster) (s : State),
      (s.get .WP_CCFG_TFEN c = 1) ∧ (s.get .WP_CSTAT_TFACT c = 0) ∧ (s.get .WP_CSTAT_TFRAW c = 1) ∧ (0 < s.get .tfRun c) ∧ (s.get
        .WP_CCFG_TFFILT c ≤ s.get .tfRun c) ∧ (s.get .PH_CSTAT_PSTATE c = 0)) ∧
  (∃ (c : Cluster) (s : State),
      (s.get .WP_CCFG_TFEN c = 1) ∧ (s.get .WP_CSTAT_TFACT c = 0) ∧ (8 ≤ s.get .tfChg c) ∧ (s.get .PH_CSTAT_PSTATE c = 0)) ∧
  (∃ (c : Cluster) (s : State),
      (s.get .WP_CSTAT_TFACT c = 1) ∧ (s.get .WP_CSTAT_TFRAW c = 0) ∧ (0 < s.get .tfRun c) ∧ (s.get .WP_CCFG_TFFILT c ≤ s.get .tfRun c) ∧
        (s.get .isolReq c = 0)) ∧
  (∃ (c : Cluster) (s : State),
      (s.get .WP_CSTAT_TFACT c = 1) ∧ (s.get .tfStkDone c = 0) ∧ (256 * s.get .WP_CTF c ≤ s.get .tfAct c)) := by
  refine ⟨⟨11, (mk [(.WP_CCFG_TFEN, 1, 11, 0), (.WP_CSTAT_TFRAW, 1, 11, 0), (.tfRun, 1, 11, 0)]), ?_⟩,
    ⟨4, (mk [(.WP_CCFG_TFEN, 1, 4, 0), (.tfChg, 65535, 4, 0)]), ?_⟩,
    ⟨5, (mk [(.WP_CSTAT_TFACT, 1, 5, 0), (.tfRun, 5, 5, 0)]), ?_⟩,
    ⟨9, (mk [(.WP_CSTAT_TFACT, 1, 9, 0)]), ?_⟩⟩ <;>
    (try dsimp only) <;> decide +kernel

theorem witness_PhaseRetirementAndShedding :
  (∃ (s : State),
      (s.get .snapReq = 1)) ∧
  (∃ (rcin : BitVec 4) (s : State),
      (s.get .PH_CTRL_LOCK = 0) ∧ (rcin.toNat ≤ 11)) ∧
  (∃ (rcin : BitVec 4),
      (11 < rcin.toNat)) ∧
  (∃ (rcin : BitVec 4) (s : State),
      (s.get .PH_CTRL_LOCK = 1) ∧ (rcin.toNat ≤ 11)) ∧
  (∃ (p : Phase) (r : Rail) (s : State),
      (railOf s p = none ∨ (railOf s p = some (r : Nat) ∧ (railState s r = stUNUSED ∨ railState s r = stOFF ∨ railState s r = stRESTR))))
        ∧
  (∃ (p : Phase) (r : Rail) (s : State),
      (railOf s p = some (r : Nat)) ∧ (railState s r ≠ stUNUSED) ∧ (railState s r ≠ stOFF) ∧ (railState s r ≠ stRESTR)) := by
  refine ⟨⟨(mk [(.snapReq, 1, 0, 0)]), ?_⟩,
    ⟨0x8#4, (mk []), ?_⟩,
    ⟨0xf#4, ?_⟩,
    ⟨0x8#4, (mk [(.PH_CTRL_LOCK, 1, 0, 0)]), ?_⟩,
    ⟨3, 10, (mk []), ?_⟩,
    ⟨3, 10, (mk [(.DM_RAILSTAT_STATE, 3, 10, 0), (.LN_MAP_PHASE, 3, 10, 0), (.LN_MAP_VALID, 1, 10, 0)]), ?_⟩⟩ <;>
    (try dsimp only) <;> decide +kernel

theorem witness_PhaseRetirementAndShedding_SheddingAndProbe :
  (∃ (r : Rail) (j : Nat) (s : State),
      (0 < s.get .shCnt r) ∧ (s.get .PH_SHDWELL r ≤ s.get .shCnt r) ∧ ((dropOrder s r).find? (fun j => !probing s (slotPhase s r j)) =
        some j)) ∧
  (∃ (r : Rail) (c : Cluster) (k : Fin 8) (s : State),
      (s.get .PH_CSTAT_PSTATE c = 1) ∧ (s.get .WP_CSTAT_TFACT c = 0) ∧ (16 ≤ s.get .tfIn c) ∧ ((∀ i < (k : Nat), s.get .probed (8 * c + i)
        = 0)) ∧ (s.get .probed (8 * c + k) = 1) ∧ (s.get .PH_PSTAT_RET (8 * c + k) = 0) ∧ (s.get .retReq (8 * c + k) = 0) ∧ (railOf s (8 *
        c + k) = some (r : Nat)) ∧ (railState s r = stREG ∨ railState s r = stRAMPUP)) ∧
  (∃ (c : Cluster) (s : State),
      (s.get .PH_CSTAT_PSTATE c = 2) ∧ (s.now + 1 ≥ s.get .probeFrom c + 16 * s.get .PH_CPRB c) ∧ ((∀ i < 8, s.get .probed (8 * c + i) =
        0))) := by
  refine ⟨⟨11, 0, (mk [(.LN_MAP_PHASE, 5, 11, 0), (.LN_MAP_VALID, 1, 11, 0), (.SL_RACT, 1, 11, 0), (.PH_RANK, 0, 5, 0), (.shCnt, 2, 11,
    0)]), ?_⟩,
    ⟨11, 8, 3, (mk [(.DM_RAILSTAT_STATE, 3, 11, 0), (.LN_MAP_PHASE, 67, 11, 0), (.LN_MAP_VALID, 1, 11, 0), (.PH_CSTAT_PSTATE, 1, 8, 0),
      (.tfIn, 256, 8, 0), (.probed, 1, 67, 0)]), ?_⟩,
    ⟨11, (mk [(.PH_CSTAT_PSTATE, 2, 11, 0)]), ?_⟩⟩ <;>
    (try dsimp only) <;> decide +kernel

theorem witness_LaneStates :
  (∃ (d : Domain) (s : State),
      (s.get .DL_CTRL_EN d = 0 ∨ laneDomain s d = none)) ∧
  (∃ (d : Domain) (s : State),
      (s.get .DL_CTRL_EN d ≠ 0) ∧ (laneDomain s d ≠ none) ∧ (laneState s d = lnOFF)) ∧
  (∃ (d : Domain) (s : State),
      (s.get .DL_CTRL_EN d ≠ 0) ∧ (laneDomain s d ≠ none) ∧ (laneState s d ≠ lnOFF)) ∧
  (∃ (d : Domain) (s : State),
      (laneState s d = lnTRAIN)) ∧
  (∃ (d : Domain) (s : State),
      (laneState s d = lnACQUIRE)) ∧
  (∃ (d : Domain) (s : State),
      (laneState s d = lnRUN)) ∧
  (∃ (d : Domain) (s : State),
      (laneState s d = lnRUN) ∧ (s.now - s.get .katAt d ≥ 256 * s.get .DL_CTRL_KATMO d)) ∧
  (∃ (d : Domain) (f : BitVec 128) (s : State),
      (flitGood f = true) ∧ (flitType f = 1) ∧ (laneState s d = lnACQUIRE)) ∧
  (∃ (d : Domain) (f : BitVec 128) (s : State),
      (flitGood f = true) ∧ (flitType f = 1) ∧ (laneState s d = lnRUN) ∧ (s.get .DL_STATE_EPOCH d ≠ ((flitEpoch f : Nat) : Int))) ∧
  (∃ (d : Domain) (f : BitVec 128) (s : State),
      (flitGood f = false) ∧ (laneState s d = lnRUN)) ∧
  (∃ (d : Domain) (f : BitVec 128) (s : State),
      (flitGood f = true) ∧ (flitType f = 0 ∨ 4 < flitType f) ∧ (laneState s d = lnRUN) ∧ ((flitEpoch f : Int) = s.get .DL_STATE_EPOCH d))
        ∧
  (∃ (d : Domain) (f : BitVec 128) (s : State),
      (flitGood f = true) ∧ (flitType f = 0 ∨ 4 < flitType f) ∧ (laneState s d = lnACQUIRE ∨
      (laneState s d = lnRUN ∧ (flitEpoch f : Int) ≠ s.get .DL_STATE_EPOCH d))) := by
  refine ⟨⟨3, (mk []), ?_⟩,
    ⟨5, (mk [(.DM_DOMCFG_LANE, 5, 5, 0), (.DM_DOMCFG_LANEV, 127, 5, 0), (.DL_CTRL_EN, -1, 5, 0)]), ?_⟩,
    ⟨3, (mk [(.DM_DOMCFG_LANE, 3, 0, 0), (.DM_DOMCFG_LANEV, 16, 0, 0), (.DL_CTRL_EN, -1, 3, 0), (.DL_STATE_STATE, 19, 3, 0)]), ?_⟩,
    ⟨3, (mk [(.DL_STATE_STATE, 1, 3, 0)]), ?_⟩,
    ⟨1, (mk [(.DL_STATE_STATE, 2, 1, 0)]), ?_⟩,
    ⟨1, (mk [(.DL_STATE_STATE, 3, 1, 0)]), ?_⟩,
    ⟨4, (mk [(.DL_STATE_STATE, 3, 4, 0)]), ?_⟩,
    ⟨3, 0x86d81d347de0989028f7c0285aa55111#128, (mk [(.DL_STATE_STATE, 2, 3, 0)]), ?_⟩,
    ⟨0, 0x5df46f5f0f62ef0e8742655065044111#128, (mk [(.DL_STATE_STATE, 3, 0, 0)]), ?_⟩,
    ⟨3, 0x00000000000000000000000000000003#128, (mk [(.DL_STATE_STATE, 3, 3, 0)]), ?_⟩,
    ⟨3, 0x51fd00000000000000000000000b7e16#128, (mk [(.DL_STATE_STATE, 3, 3, 0), (.DL_STATE_EPOCH, 1, 3, 0)]), ?_⟩,
    ⟨0, 0x0000000000000000000000000000ffff#128, (mk [(.DL_STATE_STATE, 2, 0, 0)]), ?_⟩⟩ <;>
    (try dsimp only) <;> decide +kernel

theorem witness_LaneTransmissionAndFlits :
  (∃ (d : Domain) (e : Nat) (s : State),
      (laneState s d = lnACQUIRE) ∧ (s.now ≥ s.get .helloAt d) ∧ (laneDomain s d = some e) ∧ ((s.txFlits.filter fun t => t.lane = (d :
        Nat)).length < 32)) ∧
  (∃ (d : Domain) (e : Nat) (s : State),
      (laneState s d = lnRUN) ∧ (s.get .DL_TEL_TPER d ≠ 0) ∧ (s.now ≥ s.get .telAt d + s.get .DL_TEL_TPER d) ∧ (laneDomain s d = some e) ∧
        (domainRails s e ≠ []) ∧ ((s.txFlits.filter fun t => t.lane = (d : Nat)).length < 32)) ∧
  (∃ (d : Domain) (x : TxFlit) (s : State),
      (laneState s d = lnRUN) ∧ ((((s.txFlits.filter fun t => t.lane = (d : Nat)).find? fun t => t.typ = 8) <|>
      ((s.txFlits.filter fun t => t.lane = (d : Nat)).find? fun t => t.typ ≠ 11) <|>
      (s.txFlits.filter fun t => t.lane = (d : Nat)).head?) = some x)) := by
  refine ⟨⟨0, 1, (mk [(.DM_DOMCFG_LANEV, 1, 1, 0), (.DL_STATE_STATE, 2, 0, 0)]), ?_⟩,
    ⟨0, 0, (mk [(.DM_DOMCFG_LANEV, 5, 0, 0), (.DM_RAILSTAT_STATE, 31, 6, 0), (.DL_TEL_TPER, -3, 0, 0), (.DL_STATE_STATE, 3, 0, 0)]), ?_⟩,
    ⟨3, (⟨3, 3, 3⟩), { mk [(.DL_STATE_STATE, 3, 3, 0)] with txFlits := [⟨3, 3, 3⟩] }, ?_⟩⟩ <;>
    (try dsimp only) <;> decide +kernel

theorem witness_ReceivedMessages :
  (∃ (l : Domain) (f : BitVec 128) (s : State),
      (laneState s l = lnRUN) ∧ ((flitEpoch f : Int) ≠ s.get .DL_STATE_EPOCH l) ∧ (isForecast f = true)) ∧
  (∃ (l : Domain) (f : BitVec 128) (s : State),
      let dlt := ((flitSeq f : Int) - s.get .DL_STATE_RXSEQ l) % 256
      (laneState s l = lnRUN) ∧ ((flitEpoch f : Int) = s.get .DL_STATE_EPOCH l) ∧ (dlt = 0 ∨ 128 ≤ dlt) ∧ (isForecast f = true)) ∧
  (∃ (l : Domain) (f : BitVec 128) (s : State),
      let dlt := ((flitSeq f : Int) - s.get .DL_STATE_RXSEQ l) % 256
      (laneState s l = lnRUN) ∧ ((flitEpoch f : Int) = s.get .DL_STATE_EPOCH l) ∧ (0 < dlt) ∧ (dlt < 128) ∧ (isForecast f = true)) ∧
  (∃ (l : Domain) (f : BitVec 128) (d : Nat) (s : State),
      let dlt := ((flitSeq f : Int) - s.get .DL_STATE_RXSEQ l) % 256
      (laneState s l = lnRUN) ∧ ((flitEpoch f : Int) = s.get .DL_STATE_EPOCH l) ∧ (0 < dlt) ∧ (dlt < 128) ∧ (laneDomain s l = some d) ∧
        (flitGood f = true) ∧ (flitType f = 3)) ∧
  (∃ (l : Domain) (f : BitVec 128) (d : Nat) (s : State),
      let dlt := ((flitSeq f : Int) - s.get .DL_STATE_RXSEQ l) % 256
      (laneState s l = lnRUN) ∧ ((flitEpoch f : Int) = s.get .DL_STATE_EPOCH l) ∧ (0 < dlt) ∧ (dlt < 128) ∧ (laneDomain s l = some d) ∧
        (flitGood f = true) ∧ (flitType f = 4) ∧ (s.get .DD_CFG_SETEN d = 0)) ∧
  (∃ (l : Domain) (f : BitVec 128) (d : Nat) (s : State),
      let dlt := ((flitSeq f : Int) - s.get .DL_STATE_RXSEQ l) % 256
      let r := flitField f 19 16
      let s' := (acceptFlit s l f).1
      (laneState s l = lnRUN) ∧ ((flitEpoch f : Int) = s.get .DL_STATE_EPOCH l) ∧ (0 < dlt) ∧ (dlt < 128) ∧ (laneDomain s l = some d) ∧
        (flitGood f = true) ∧ (flitType f = 4) ∧ (s.get .DD_CFG_SETEN d ≠ 0) ∧ (railState s r ≠ stUNUSED) ∧ (s.get .DM_RAILCFG_DOMAIN r =
        d) ∧ (setpointJudge s' r (flitField f 33 20 : Nat) = .stored)) ∧
  (∃ (l : Domain) (f : BitVec 128) (cyc : Fin 4) (d : Nat) (s : State),
      let dlt := ((flitSeq f : Int) - s.get .DL_STATE_RXSEQ l) % 256
      (laneState s l = lnRUN) ∧ ((flitEpoch f : Int) = s.get .DL_STATE_EPOCH l) ∧ (0 < dlt) ∧ (dlt < 128) ∧ (laneDomain s l = some d) ∧
        ((cyc : Nat) = 3) ∧ (isForecast f = true)) ∧
  (∃ (l : Domain) (f : BitVec 128) (ago : Fin 4) (cyc : Fin 4) (d : Nat) (s : State) (k : Nat),
      let dlt := ((flitSeq f : Int) - s.get .DL_STATE_RXSEQ l) % 256
      let r := flitField f 19 16
      let want := signed 16 (flitField f 39 24) * 2 ^ quarterShift s r
      (laneState s l = lnRUN) ∧ ((flitEpoch f : Int) = s.get .DL_STATE_EPOCH l) ∧ (0 < dlt) ∧ (dlt < 128) ∧ (laneDomain s l = some d) ∧
        ((cyc : Nat) ≤ 2) ∧ ((List.range 8).find? (fun k => slotState s d k == slFREE) = some k) ∧ (oldState s r = stREG) ∧ (s.get
        .DM_RAILCFG_DOMAIN r = d) ∧ (s.get .LN_CTRL_FFEN r ≠ 0) ∧ (signed 16 (flitField f 39 24) ≠ 0) ∧ (s.now - (ago : Nat) + (flitField
        f 55 40 : Nat) ≥ s.now) ∧ (isForecast f = true) ∧ (want < 0)) ∧
  (∃ (l : Domain) (f : BitVec 128) (ago : Fin 4) (cyc : Fin 4) (d : Nat) (s : State) (k : Nat),
      let dlt := ((flitSeq f : Int) - s.get .DL_STATE_RXSEQ l) % 256
      let r := flitField f 19 16
      let s' := (acceptFlit s l f).1
      let want := signed 16 (flitField f 39 24) * 2 ^ quarterShift s r
      (laneState s l = lnRUN) ∧ ((flitEpoch f : Int) = s.get .DL_STATE_EPOCH l) ∧ (0 < dlt) ∧ (dlt < 128) ∧ (laneDomain s l = some d) ∧
        ((cyc : Nat) ≤ 2) ∧ ((List.range 8).find? (fun k => slotState s d k == slFREE) = some k) ∧ (oldState s r = stREG) ∧ (s.get
        .DM_RAILCFG_DOMAIN r = d) ∧ (s.get .LN_CTRL_FFEN r ≠ 0) ∧ (signed 16 (flitField f 39 24) ≠ 0) ∧ (s.now - (ago : Nat) + (flitField
        f 55 40 : Nat) ≥ s.now) ∧ (isForecast f = true) ∧ (0 < want) ∧ (0 < grantable s' r want)) ∧
  (∃ (l : Domain) (f : BitVec 128) (ago : Fin 4) (cyc : Fin 4) (d : Nat) (s : State) (k : Nat),
      let dlt := ((flitSeq f : Int) - s.get .DL_STATE_RXSEQ l) % 256
      let r := flitField f 19 16
      let want := signed 16 (flitField f 39 24) * 2 ^ quarterShift s r
      (laneState s l = lnRUN) ∧ ((flitEpoch f : Int) = s.get .DL_STATE_EPOCH l) ∧ (0 < dlt) ∧ (dlt < 128) ∧ (laneDomain s l = some d) ∧
        ((cyc : Nat) ≤ 2) ∧ ((List.range 8).find? (fun k => slotState s d k == slFREE) = some k) ∧ (oldState s r = stREG) ∧ (s.get
        .DM_RAILCFG_DOMAIN r = d) ∧ (s.get .LN_CTRL_FFEN r ≠ 0) ∧ (signed 16 (flitField f 39 24) ≠ 0) ∧ (s.now - (ago : Nat) + (flitField
        f 55 40 : Nat) ≥ s.now) ∧ (isGrantRequest f = true) ∧ (0 < want) ∧ (s.get .DD_CFG_GAUTO d = 0) ∧ (noGrants s d = false)) ∧
  (∃ (l : Domain) (f : BitVec 128) (d : Nat) (s : State) (k : Nat),
      let dlt := ((flitSeq f : Int) - s.get .DL_STATE_RXSEQ l) % 256
      (laneState s l = lnRUN) ∧ ((flitEpoch f : Int) = s.get .DL_STATE_EPOCH l) ∧ (0 < dlt) ∧ (dlt < 128) ∧ (laneDomain s l = some d) ∧
        (isCancel f = true) ∧ ((List.range 8).find? (fun k => (slotState s d k == slGPEND || slotState s d k == slWAIT ||
        slotState s d k == slRAMP || slotState s d k == slHOLD) && s.get .DD_SSTAT_SEQ d k == (flitField f 95 88 : Nat)) = some k)) := by
  refine ⟨⟨0, (makeFlit 2 1 1 0), (mk [(.DL_STATE_STATE, 3, 0, 0)]), ?_⟩,
    ⟨0, (makeFlit 2 0 0 0), (mk [(.DL_STATE_STATE, 3, 0, 0)]), ?_⟩,
    ⟨0, (makeFlit 2 0 1 0), (mk [(.DL_STATE_STATE, 3, 0, 0)]), ?_⟩,
    ⟨3, 0x6489b4e84bdae873dac4df9da3d17b03#128, 3, (mk [(.DM_DOMCFG_LANE, 3, 3, 0), (.DM_DOMCFG_LANEV, 1, 3, 0), (.DL_STATE_STATE, 3, 3,
      0)]), ?_⟩,
    ⟨3, 0xbe3a0000000000000000000000034604#128, 3, (mk [(.DM_DOMCFG_LANE, 3, 3, 0), (.DM_DOMCFG_LANEV, 2, 3, 0), (.DL_STATE_STATE, 3, 3,
      0)]), ?_⟩,
    ⟨0, 0xdda700000000000000000001f4006904#128, 3, (mk [(.DM_DOMCFG_LANEV, 1, 3, 0), (.DM_RAILCFG_DOMAIN, 3, 0, 0), (.DM_RAILSTAT_STATE,
      3, 0, 0), (.DL_STATE_STATE, 3, 0, 0), (.DD_CFG_SETEN, 1, 3, 0)]), ?_⟩,
    ⟨1, 0x94e10000000000000000320001011f02#128, 3, 1, (mk [(.DM_DOMCFG_LANE, 1, 1, 0), (.DM_DOMCFG_LANEV, 6, 1, 0), (.DL_STATE_STATE, 3,
      1, 0)]), ?_⟩,
    ⟨3, 0xd1230000000000000000c8fffc005102#128, 2, 1, 3, (mk [(.DM_DOMCFG_LANE, 3, 3, 0), (.DM_DOMCFG_LANEV, 9, 3, 0),
      (.DM_RAILCFG_DOMAIN, 3, 0, 0), (.DM_RAILSTAT_STATE, 3, 0, 0), (.LN_CTRL_FFEN, 1, 0, 0), (.DL_STATE_STATE, 3, 3, 0)]), 0, ?_⟩,
    ⟨3, 0x58ad0000000000000000c80001000402#128, 1, 1, 3, (mk [(.DM_DOM_IALLOT, 65535, 3, 0), (.DM_DOMCFG_LANE, 3, 3, 0),
      (.DM_DOMCFG_LANEV, 40, 3, 0), (.DM_RAILCFG_DOMAIN, 3, 0, 0), (.DM_RAILSTAT_STATE, 3, 0, 0), (.DM_RAILLIM_ILIM, 8191, 0, 0),
      (.LN_CTRL_FFEN, 1, 0, 0), (.DL_STATE_STATE, 3, 3, 0)]), 0, ?_⟩,
    ⟨1, 0x64d20000000000000000640004110002#128, 1, 2, 3, (mk [(.DM_DOMCFG_LANE, 1, 3, 0), (.DM_DOMCFG_LANEV, 1, 3, 0),
      (.DM_RAILCFG_DOMAIN, 3, 1, 0), (.DM_RAILSTAT_STATE, 3, 1, 0), (.LN_CTRL_FFEN, 1, 1, 0), (.DL_STATE_STATE, 3, 1, 0),
      (.DL_STATE_RXSEQ, 4095, 1, 0)]), 0, ?_⟩,
    ⟨0, 0x60710000000000000000000000200302#128, 3, (mk [(.DM_DOMCFG_LANEV, 1, 3, 0), (.DL_STATE_STATE, 3, 0, 0), (.DD_SSTAT_STATE, 3, 3,
      2)]), 2, ?_⟩⟩ <;>
    (try dsimp only) <;> decide +kernel

theorem witness_ForecastSlots :
  (∃ (d : Domain) (k : Fin 8) (s : State),
      (slotState s d k = slWAIT) ∧ (s.get .slS d k ≤ s.now) ∧ (s.now < s.get .slE d k)) ∧
  (∃ (d : Domain) (k : Fin 8) (s : State),
      (slotState s d k = slWAIT ∨ slotState s d k = slRAMP) ∧ (s.get .slS d k ≤ s.now) ∧ (s.get .slE d k ≤ s.now)) ∧
  (∃ (d : Domain) (k : Fin 8) (s : State),
      let r := slotRail s d k
      (metTest s d k = true) ∧ (missTest s d k = false) ∧ (oldState s r = stREG)) ∧
  (∃ (d : Domain) (k : Fin 8) (s : State),
      let r := slotRail s d k
      (slotState s d k ≠ slFREE) ∧ (s.get .slMet d k = 1) ∧ (oldState s r = stREG) ∧ (s.get .forced r = 0)) ∧
  (∃ (d : Domain) (k : Fin 8) (s : State),
      let r := slotRail s d k
      (missTest s d k = true) ∧ (oldState s r = stREG)) ∧
  (∃ (d : Domain) (k : Fin 8) (s : State),
      (slotState s d k = slUNWIND) ∧ (s.get .DD_SCON d k = 0)) ∧
  (∃ (d : Domain) (k : Fin 8) (s : State),
      (slotState s d k = slGPEND) ∧ (s.now - s.get .slPost d k ≥ s.get .DD_CFG_GTMO d)) ∧
  (∃ (amt : BitVec 22),
      (2 ^ 21 ≤ amt.toNat)) ∧
  (∃ (d : Domain) (amt : BitVec 22) (s : State),
      (amt.toNat < 2 ^ 21) ∧ (s.get .DD_GREQ_PEND d = 0)) ∧
  (∃ (d : Domain) (k : Fin 8) (amt : BitVec 22) (s : State),
      (amt.toNat < 2 ^ 21) ∧ (s.get .DD_GREQ_PEND d ≠ 0) ∧ (s.nat .DD_GREQ_SLOT d = k)) := by
  refine ⟨⟨3, 0, (mk [(.DD_SSTAT_STATE, 2, 3, 0), (.slE, 12, 3, 0)]), ?_⟩,
    ⟨3, 0, (mk [(.DD_SSTAT_STATE, 3, 3, 0)]), ?_⟩,
    ⟨6, 7, (mk [(.LN_ILE, 17, 1, 0), (.DD_SSTAT_STATE, 4, 6, 7), (.DD_SSTAT_RAIL, 1, 6, 7), (.railMoved, 127, 1, 0), (.prevState, 3, 1,
      0), (.slE, -5, 6, 7), (.slDi, 3, 6, 7)]), ?_⟩,
    ⟨3, 0, (mk [(.DD_SSTAT_STATE, 4, 3, 0), (.railMoved, 14, 0, 0), (.prevState, 3, 0, 0), (.slMet, 1, 3, 0)]), ?_⟩,
    ⟨0, 5, (mk [(.DM_RAILSTAT_STATE, 3, 1, 0), (.DD_SSTAT_STATE, 4, 0, 5), (.DD_SSTAT_RAIL, 1, 0, 5), (.slE, -5, 0, 5), (.slDl, -5, 0,
      5)]), ?_⟩,
    ⟨3, 0, (mk [(.DD_SSTAT_STATE, 5, 3, 0)]), ?_⟩,
    ⟨5, 0, (mk [(.DD_SSTAT_STATE, 1, 5, 0)]), ?_⟩,
    ⟨0x200000#22, ?_⟩,
    ⟨3, 0x000800#22, (mk []), ?_⟩,
    ⟨2, 0, 0x0c90a7#22, (mk [(.DD_GREQ_PEND, 1, 2, 0)]), ?_⟩⟩ <;>
    (try dsimp only) <;> decide +kernel

theorem witness_EventPublicationAndWrites :
  (∃ (k : CoreId) (ch : Channel) (s : State),
      (coreMayPublish s k (supervisor s k) ch = true)) ∧
  (∃ (k : CoreId) (ch : Channel) (s : State),
      (coreMayPublish s k (supervisor s k) ch = false)) ∧
  (∃ (k : CoreId) (ch : Channel) (s : State),
      (k = 5 ∧ supervisor s k = true ∧ s.nat .EV_CHCFG_OWNER ch = 6)) ∧
  (∃ (k : CoreId) (ch : Channel) (s : State),
      (¬(k = 5 ∧ supervisor s k = true ∧ s.nat .EV_CHCFG_OWNER ch = 6))) ∧
  (∃ (k : CoreId) (ch : Channel) (s : State),
      (k = 5 ∧ s.nat .EV_CHCFG_OWNER ch = 5 ∧ s.get .EV_CHCFG_SEC ch = 0)) ∧
  (∃ (k : CoreId) (ch : Channel) (s : State),
      (¬(k = 5 ∧ s.nat .EV_CHCFG_OWNER ch = 5 ∧ s.get .EV_CHCFG_SEC ch = 0))) ∧
  (∃ (ch : Channel) (s : State),
      (s.get .pubOnce = 0) ∧ (bitAt (s.get .EV_TRIP) ch = true)) ∧
  (∃ (ch : Channel) (s : State),
      (s.get .pubOnce = 0) ∧ (bitAt (s.get .EV_TRIP) ch = false) ∧ (s.get .EV_CHSG_SGMAX ch ≠ 0) ∧ (windowRuns s ch = true) ∧ (s.get
        .EV_CHSG_SGMAX ch ≤ s.get .sgCount ch)) ∧
  (∃ (ch : Channel) (s : State),
      (s.get .pubOnce = 0) ∧ (bitAt (s.get .EV_TRIP) ch = false) ∧ (s.get .EV_CHSG_SGMAX ch = 0)) ∧
  (∃ (ch : Channel) (s : State) (c : Nat),
      (s.get .pubOnce = 0) ∧ (bitAt (s.get .EV_TRIP) ch = false) ∧ (s.get .EV_CHSG_SGMAX ch = 0) ∧ (bitAt (s.get .EV_WFEMASK (s.nat
        .maskOf c)) ch = true) ∧ (c < 6)) ∧
  (∃ (ch : Channel) (s : State),
      (s.get .pubOnce = 0) ∧ (bitAt (s.get .EV_TRIP) ch = false) ∧ (s.get .EV_CHSG_SGMAX ch = 0) ∧ (s.get .sleepMode ≠ 2)) := by
  refine ⟨⟨2, 0, (mk [(.EV_CHCFG_OWNER, 2, 0, 0)]), ?_⟩,
    ⟨5, 35, (mk []), ?_⟩,
    ⟨5, 3, (mk [(.EV_CHCFG_OWNER, 6, 3, 0)]), ?_⟩,
    ⟨5, 35, (mk []), ?_⟩,
    ⟨5, 35, (mk [(.EV_CHCFG_OWNER, 5, 35, 0)]), ?_⟩,
    ⟨5, 35, (mk []), ?_⟩,
    ⟨5, (mk [(.EV_TRIP, -1, 0, 0)]), ?_⟩,
    ⟨9, (mk [(.EV_CHSG_SGMAX, 1, 9, 0), (.EV_CHSG_SGWIN, 14, 9, 0), (.sgCount, 1, 9, 0), (.sgOpen, 1, 9, 0), (.sgEnd, 224, 9, 0)]), ?_⟩,
    ⟨3, (mk []), ?_⟩,
    ⟨8, (mk [(.EV_WFEMASK, -1, 0, 0)]), 0, ?_⟩,
    ⟨3, (mk []), ?_⟩⟩ <;>
    (try dsimp only) <;> decide +kernel

theorem witness_TurnoutsAndTimers :
  (∃ (t : Turnout) (s : State),
      (arrivalsAt s t = [])) ∧
  (∃ (t : Turnout) (a : Arrival) (l : List Arrival) (s : State),
      (arrivalsAt s t = a :: l) ∧ (s.get .sleepMode = 0) ∧ ((∀ e ∈ a :: l, turnoutTakes s t e.chan = true))) ∧
  (∃ (t : Turnout) (a : Arrival) (s : State),
      (arrivalsAt s t = [a]) ∧ (s.get .sleepMode = 0) ∧ (turnoutTakes s t a.chan = false)) ∧
  (∃ (u : Timer) (a : Arrival) (l : List Arrival) (s : State),
      (arrivalsAt s (2 * u) = a :: l) ∧ (turnoutTakes s (2 * u) a.chan = true) ∧ (s.get .CT_CFG_CAPEN u ≠ 0) ∧ (s.get .CT_STAT_CAPV u =
        0)) ∧
  (∃ (u : Timer) (a : Arrival) (l : List Arrival) (s : State),
      (arrivalsAt s (2 * u) = a :: l) ∧ (turnoutTakes s (2 * u) a.chan = true) ∧ (s.get .CT_CFG_CAPEN u ≠ 0) ∧ (s.get .CT_STAT_CAPV u ≠
        0)) ∧
  (∃ (u : Timer) (a : Arrival) (l : List Arrival) (s : State),
      (arrivalsAt s (2 * u + 1) = a :: l) ∧ (turnoutTakes s (2 * u + 1) a.chan = true)) ∧
  (∃ (r : Rail) (a : Arrival) (l : List Arrival) (s : State) (n : Turnout),
      ((n : Nat) = 80 + (r : Nat)) ∧ (arrivalsAt s n = a :: l) ∧ (s.get .sleepMode = 0) ∧ (turnoutTakes s n a.chan = true)) ∧
  (∃ (r : Rail) (a : Arrival) (l : List Arrival) (s : State) (n : Turnout),
      ((n : Nat) = 96 + (r : Nat)) ∧ (arrivalsAt s n = a :: l) ∧ (s.get .sleepMode = 0) ∧ (turnoutTakes s n a.chan = true)) ∧
  (∃ (u : Timer) (s : State),
      (s.get .sleepMode ≠ 2) ∧ (s.get .CT_CFG_CMPEN u ≠ 0) ∧ (s.get .CT_CMP u ≤ s.now) ∧ (s.get .cmpFrom u ≤ s.now) ∧ (s.get .CT_PER u =
        0)) ∧
  (∃ (u : Timer) (s : State),
      (s.get .sleepMode ≠ 2) ∧ (s.get .CT_CFG_CMPEN u ≠ 0) ∧ (s.get .CT_CMP u ≤ s.now) ∧ (s.get .cmpFrom u ≤ s.now) ∧ (s.get .CT_PER u ≠
        0)) ∧
  (∃ (u : Timer) (s : State),
      (s.get .sleepMode ≠ 2) ∧ (s.get .CT_CFG_CMPEN u ≠ 0) ∧ (s.get .CT_CMP u ≤ s.now) ∧ (s.get .cmpFrom u ≤ s.now) ∧ (s.get .CT_CFG_OUTEN
        u ≠ 0)) ∧
  (∃ (u : Timer) (s : State),
      (s.get .CT_CFG_CMPEN u = 0 ∨ s.now < s.get .CT_CMP u)) := by
  refine ⟨⟨3, (mk []), ?_⟩,
    ⟨3, (⟨3, 27, -17⟩), ([]), { mk [(.EV_TOCFG_CH, 27, 3, 0), (.EV_TOCFG_EN, 1, 3, 0)] with arrivals := [⟨3, 27, -17⟩] }, ?_⟩,
    ⟨0, ⟨0, 0, 0⟩, { mk [] with arrivals := [⟨0, 0, 0⟩] }, ?_⟩,
    ⟨27, (⟨54, 42, -4⟩), ([]), { mk [(.EV_TOCFG_CH, 42, 54, 0), (.EV_TOCFG_EN, 1, 54, 0), (.CT_CFG_CAPEN, 1, 27, 0)]
      with arrivals := [⟨54, 42, -4⟩] }, ?_⟩,
    ⟨27, (⟨54, 42, -4⟩), ([]), { mk [(.EV_TOCFG_CH, 42, 54, 0), (.EV_TOCFG_EN, 1, 54, 0), (.CT_CFG_CAPEN, 1, 27, 0), (.CT_STAT_CAPV, 3,
      27, 0)] with arrivals := [⟨54, 42, -4⟩] }, ?_⟩,
    ⟨27, (⟨55, 42, -4⟩), ([]), { mk [(.EV_TOCFG_CH, 42, 55, 0), (.EV_TOCFG_EN, 1, 55, 0)] with arrivals := [⟨55, 42, -4⟩] }, ?_⟩,
    ⟨11, (⟨91, 42, -4⟩), ([]), { mk [(.EV_TOCFG_CH, 42, 91, 0), (.EV_TOCFG_EN, 1, 91, 0)] with arrivals := [⟨91, 42, -4⟩] }, 91, ?_⟩,
    ⟨11, (⟨107, 42, -4⟩), ([]), { mk [(.EV_TOCFG_CH, 42, 107, 0), (.EV_TOCFG_EN, 1, 107, 0)] with arrivals := [⟨107, 42, -4⟩] }, 107, ?_⟩,
    ⟨23, (mk [(.CT_CFG_CMPEN, 1, 23, 0)]), ?_⟩,
    ⟨0, (mk [(.CT_CFG_CMPEN, 2, 0, 0), (.CT_PER, 1, 0, 0)]), ?_⟩,
    ⟨0, (mk [(.CT_CFG_CMPEN, 2, 0, 0), (.CT_CFG_OUTEN, 1, 0, 0)]), ?_⟩,
    ⟨27, (mk []), ?_⟩⟩ <;>
    (try dsimp only) <;> decide +kernel

theorem witness_EventPublicationAndWrites_ChannelAndTurnoutWrites :
  (∃ (k : CoreId) (s : State),
      (k = 5) ∧ (supervisor s k = false)) ∧
  (∃ (k : CoreId) (t : Turnout) (ch : Channel) (s : State),
      ((k = 5 → supervisor s k = true)) ∧ (turnoutAllowed s k (supervisor s k) t ch = false)) ∧
  (∃ (k : CoreId) (t : Turnout) (ch : Channel) (s : State),
      (turnoutAllowed s k (supervisor s k) t ch = true) ∧ (bitAt (s.get .EV_LOCK) ch = true ∨ bitAt (s.get .EV_LOCK) (s.nat .EV_TOCFG_CH
        t) = true)) ∧
  (∃ (k : CoreId) (t : Turnout) (ch : Channel) (s : State),
      (turnoutAllowed s k (supervisor s k) t ch = true) ∧ (bitAt (s.get .EV_LOCK) ch = false) ∧ (bitAt (s.get .EV_LOCK) (s.nat
        .EV_TOCFG_CH t) = false)) := by
  refine ⟨⟨5, (mk [(.swPriv, 0, 5, 0)]), ?_⟩,
    ⟨4, 51, 0, (mk []), ?_⟩,
    ⟨3, 2, 39, (mk [(.EV_LOCK, -1, 0, 0), (.dutyPair, 3, 0, 0)]), ?_⟩,
    ⟨3, 51, 0, (mk [(.dutyPair, 3, 0, 0)]), ?_⟩⟩ <;>
    (try dsimp only) <;> decide +kernel

theorem witness_InterruptSources :
  (∃ (n : Source) (s : State),
      (s.get .sleepMode = 0 ∨ vddaoSource s n = true) ∧ (rawLevel s n = true) ∧ (s.get .irPrev n = 0) ∧ (s.get .IR_SRCCFG_SENSE n = 1 ∨
        s.get .IR_SRCCFG_SENSE n = 3)) ∧
  (∃ (n : Source) (s : State),
      (s.get .sleepMode = 0 ∨ vddaoSource s n = true) ∧ (rawLevel s n = false) ∧ (s.get .irPrev n ≠ 0) ∧ (s.get .IR_SRCCFG_SENSE n = 2 ∨
        s.get .IR_SRCCFG_SENSE n = 3)) ∧
  (∃ (n : Source) (s : State),
      (rawLevel s n = true ∧ s.get .irPrev n ≠ 0 ∨ rawLevel s n = false ∧ s.get .irPrev n = 0)) ∧
  (∃ (k : CoreId) (n : Source) (s : State),
      (supervisor s k = true) ∧ (k = 5 ∨ effTarget s n = k)) ∧
  (∃ (k : CoreId) (n : Source) (s : State),
      (supervisor s k = true) ∧ (¬(k = 5 ∨ effTarget s n = k))) ∧
  (∃ (k : CoreId) (s : State),
      (supervisor s k = false)) ∧
  (∃ (n : Source) (t : Fin 8) (s : State),
      (supervisor s 5 = true) ∧ ((n : Nat) < 252) ∧ ((t : Nat) < 6)) ∧
  (∃ (n : Source) (t : Fin 8) (s : State),
      (supervisor s 5 = true) ∧ ((n : Nat) < 252) ∧ (6 ≤ (t : Nat))) ∧
  (∃ (n : Source),
      (252 ≤ (n : Nat))) ∧
  (∃ (k : CoreId) (s : State),
      (k ≠ 5) ∧ (supervisor s k = true)) ∧
  (∃ (n : Source) (s : State),
      (s.get .sleepMode = 0) ∧ (s.get .irWin n ≠ 0) ∧ (s.now ≥ s.get .irWinEnd n)) ∧
  (∃ (n : Source) (s : State),
      (s.get .sleepMode = 0) ∧ (s.get .irStrOn n ≠ 0) ∧ (irPending s n = true) ∧ (effTarget s n ≠ 5) ∧ (unavailable s (effTarget s n) =
        true) ∧ (s.now ≥ s.get .irStrAt n + 160 * s.get .IR_CTRL_STRTMO)) := by
  refine ⟨⟨253, (mk [(.XC_STATUS_DFHALT, 256, 1, 0), (.IR_SRCCFG_SENSE, 1, 253, 0)]), ?_⟩,
    ⟨2, (mk [(.IR_SRCCFG_SENSE, 3, 2, 0), (.irPrev, 3, 2, 0)]), ?_⟩,
    ⟨3, (mk []), ?_⟩,
    ⟨5, 75, (mk []), ?_⟩,
    ⟨1, 75, (mk []), ?_⟩,
    ⟨5, (mk [(.swPriv, 0, 5, 0)]), ?_⟩,
    ⟨3, 2, (mk []), ?_⟩,
    ⟨227, 7, (mk []), ?_⟩,
    ⟨253, ?_⟩,
    ⟨0, (mk []), ?_⟩,
    ⟨2, (mk [(.irWin, 1, 2, 0)]), ?_⟩,
    ⟨0, (mk [(.IR_SRCCFG_SENSE, 112, 0, 0), (.IR_SRCCFG_TGT, 319, 0, 0), (.IR_CTRL_STRTMO, -4, 0, 0), (.irEdge, 18, 0, 0), (.irStrOn, -1,
      0, 0)]), ?_⟩⟩ <;>
    (try dsimp only) <;> decide +kernel

theorem witness_InterruptSources_BestInterruptWins :
  (∃ (k : Nat) (s : State) (n : Nat),
      (presented s k = some n)) ∧
  (∃ (k : Nat) (s : State) (n : Nat) (m : Nat),
      (presented s k = some n) ∧ (eligible s k m (s.get .IR_CRUN_RUN k) = true) ∧ (m < 254)) ∧
  (∃ (k : Nat) (s : State) (m : Nat),
      (presented s k = none) ∧ (m < 254)) := by
  refine ⟨⟨5, (mk [(.IR_SRCCFG_EN, 1, 40, 0), (.IR_SRCST_SPEND, 1, 40, 0)]), 40, ?_⟩,
    ⟨5, (mk [(.IR_SRCCFG_EN, 1, 40, 0), (.IR_SRCCFG_TGT, 5, 40, 0), (.IR_SRCST_SPEND, 1, 40, 0), (.IR_SRCCFG_PRIO, 3, 40, 0),
      (.IR_CRUN_RUN, 16, 5, 0)]), 40, 40, ?_⟩,
    ⟨64, (mk []), 32, ?_⟩⟩ <;>
    (try dsimp only) <;> decide +kernel

theorem witness_LockStepPairs :
  (∃ (k : CoreId) (s : State),
      (s.get .LS_PAIR_STATE k = pairLOCKSTEP) ∧ (s.get .coreOn k ≠ 0) ∧ (s.get .sleepMode = 0)) ∧
  (∃ (k : CoreId) (s : State) (n : Nat),
      (s.get .LS_PAIR_STATE k = pairLOCKSTEP) ∧ (s.get .coreOn k ≠ 0) ∧ (s.get .sleepMode = 0) ∧ ((k : Nat) < 4) ∧ (spareFree s = true) ∧
        (dutyOf s k = some n)) ∧
  (∃ (k : CoreId) (s : State),
      (s.get .LS_PAIR_STATE k ≠ pairLOCKSTEP)) ∧
  (∃ (k : CoreId) (s : State),
      (s.get .LS_PAIR_STATE k = pairFROZEN) ∧ (s.now ≥ s.get .lbistAt k + 192000)) ∧
  (∃ (k : CoreId) (s : State),
      (s.get .LS_PAIR_STATE k = pairFROZEN) ∧ (s.now < s.get .lbistAt k + 192000)) ∧
  (∃ (k : CoreId) (s : State),
      (s.get .tkHold k ≠ 0) ∧ (s.now ≥ s.get .tkAt k + 12)) ∧
  (∃ (k : CoreId) (s : State),
      (s.get .LS_STATUS_TKOVER ≠ 0) ∧ (s.get .LS_PAIR_DUTY k = s.get .LS_STATUS_TKFOR) ∧ (k ≠ 5)) ∧
  (∃ (k : CoreId) (s : State),
      (s.get .LS_PAIR_DUTY k ≠ s.get .LS_STATUS_TKFOR)) ∧
  (∃ (k : CoreId) (s : State),
      (s.get .OT_STATUS_DBGLOCK = 0) ∧ (s.get .LS_PAIR_STATE k = pairLOCKSTEP)) ∧
  (∃ (k : CoreId) (s : State),
      (s.get .OT_STATUS_DBGLOCK ≠ 0 ∨ s.get .LS_PAIR_STATE k = pairFROZEN)) := by
  refine ⟨⟨5, (mk [(.fqLen, 8, 5, 0), (.coreOn, 1, 5, 0)]), ?_⟩,
    ⟨3, (mk [(.fqLen, 8, 3, 0), (.LS_PAIR_DUTY, 7, 4, 0), (.coreOn, 1, 3, 0)]), 3, ?_⟩,
    ⟨5, (mk [(.LS_PAIR_STATE, 1, 5, 0)]), ?_⟩,
    ⟨0, (mk [(.LS_PAIR_STATE, 1, 0, 0), (.lbistAt, -192000, 0, 0)]), ?_⟩,
    ⟨0, (mk [(.LS_PAIR_STATE, 1, 0, 0)]), ?_⟩,
    ⟨0, (mk [(.tick, 15, 0, 0), (.tkHold, -1, 0, 0)]), ?_⟩,
    ⟨3, (mk [(.LS_STATUS_TKOVER, -1, 0, 0)]), ?_⟩,
    ⟨5, (mk [(.LS_PAIR_DUTY, 1, 5, 0)]), ?_⟩,
    ⟨5, (mk []), ?_⟩,
    ⟨5, (mk [(.LS_PAIR_STATE, 1, 5, 0)]), ?_⟩⟩ <;>
    (try dsimp only) <;> decide +kernel

theorem witness_RepairScrubAndRetirement :
  (∃ (m : Fin 7) (row : Fin 2048) (s : State),
      (rowErrors s m row < 4)) ∧
  (∃ (m : Fin 7) (row : Fin 2048) (s : State),
      (s.get .rrBusy m = 0) ∧ ((row : Nat) < sramRows m) ∧ (4 ≤ rowErrors s m row) ∧ (s.get .MS_REP_REPUSED m < repairRows m)) ∧
  (∃ (m : Fin 7) (row : Fin 2048) (s : State),
      (s.get .rrBusy m = 0) ∧ ((row : Nat) < sramRows m) ∧ (4 ≤ rowErrors s m row) ∧ (s.get .MS_REP_REPUSED m ≥ repairRows m)) ∧
  (∃ (m : Fin 7) (s : State),
      (s.get .rrBusy m ≠ 0)) ∧
  (∃ (a : BitVec 31) (s : State),
      (ddrUsable s (0x80000000 + a.toNat) = true)) ∧
  (∃ (i : Nat) (s : State),
      let page := s.nat .D4_RET_PAGE i
      ((List.range 512).find? (copyPending s) = some i) ∧ (retiredAt s page = some i)) ∧
  (∃ (s : State),
      (s.get .D4_CFG_SIZE ≠ 0) ∧ (s.get .D4_STATUS_TRAINERR = 0)) ∧
  (∃ (s : State),
      (s.get .D4_CFG_SIZE ≠ 0)) ∧
  (∃ (s : State),
      (s.get .D4_CFG_SIZE = 0)) ∧
  (∃ (s : State),
      (ddrReady s = true) ∧ (s.get .D4_STATUS_SREF = 0)) ∧
  (∃ (s : State),
      (ddrReady s = true) ∧ (s.get .D4_STATUS_SREF = 0) ∧ (s.now ≥ s.get .d4ZqAt + 20480000)) := by
  refine ⟨⟨0, 7, (mk [(.ceSeen, 1, 0x100E00, 0)]), ?_⟩,
    ⟨0, 2, (mk [(.ceSeen, 1, 0x100400, 0), (.ceSeen, 1, 0x100401, 0), (.ceSeen, 1, 0x100500, 0), (.ceMore, 1, 0, 2)]), ?_⟩,
    ⟨1, 2, (mk [(.MS_REP_REPUSED, 16, 1, 0), (.ceMore, 4, 1, 2)]), ?_⟩,
    ⟨3, (mk [(.rrBusy, 1, 3, 0)]), ?_⟩,
    ⟨0x00000001#31, (mk [(.D4_CFG_SIZE, 3, 0, 0), (.D4_STATUS_RDY, 100, 0, 0)]), ?_⟩,
    ⟨1, (mk [(.D4_NRET, 18, 0, 0), (.D4_RET_V, 513, 1, 0), (.retCopy, 126, 1, 0)]), ?_⟩,
    ⟨(mk [(.D4_CFG_SIZE, 15, 0, 0)]), ?_⟩,
    ⟨(mk [(.D4_CFG_SIZE, -1, 0, 0)]), ?_⟩,
    ⟨(mk []), ?_⟩,
    ⟨(mk [(.D4_CFG_SIZE, 16, 0, 0), (.D4_STATUS_RDY, 14, 0, 0)]), ?_⟩,
    ⟨(mk [(.D4_CFG_SIZE, -100, 0, 0), (.D4_STATUS_RDY, 2, 0, 0), (.d4ZqAt, -20480000, 0, 0)]), ?_⟩⟩ <;>
    (try dsimp only) <;> (repeat' first | decide +kernel | apply And.intro) <;> first
      | ((with_reducible refine ready_of ?_) <;> decide +kernel)
      | decide +kernel

theorem witness_DmaChannels :
  (∃ (ag : Agent) (c : DmaCh) (s : State),
      (dmaMayWrite s ag c = false)) ∧
  (∃ (ag : Agent) (c : DmaCh) (s : State),
      (dmaMayWrite s ag c = true) ∧ (s.get .DMA_CFG_EN c = 0 ∨ s.get .DMA_CFG_TRGEN c = 0)) ∧
  (∃ (ag : Agent) (c : DmaCh) (s : State),
      (dmaMayWrite s ag c = true) ∧ (s.get .DMA_CFG_EN c ≠ 0) ∧ (s.get .DMA_CFG_TRGEN c ≠ 0) ∧ (s.get .DMA_STAT_BUSY c = 0) ∧ (s.get
        .DMA_STAT_HALT c = 0) ∧ ((c : Nat) < 12)) ∧
  (∃ (ag : Agent) (c : DmaCh) (s : State),
      (dmaMayWrite s ag c = true) ∧ (s.get .DMA_CFG_EN c ≠ 0) ∧ (s.get .DMA_CFG_TRGEN c ≠ 0) ∧ (s.get .DMA_STAT_BUSY c = 0) ∧ (s.get
        .DMA_STAT_HALT c = 0) ∧ (12 ≤ (c : Nat))) ∧
  (∃ (ag : Agent) (c : DmaCh) (s : State),
      (dmaMayWrite s ag c = true) ∧ (s.get .DMA_CFG_EN c ≠ 0) ∧ (s.get .DMA_CFG_TRGEN c ≠ 0) ∧ (s.get .DMA_STAT_BUSY c ≠ 0 ∨ s.get
        .DMA_STAT_HALT c ≠ 0) ∧ (s.get .DMA_STAT_PEND c < 15)) ∧
  (∃ (ag : Agent) (c : DmaCh) (s : State),
      (dmaMayWrite s ag c = true) ∧ (s.get .DMA_CFG_EN c ≠ 0) ∧ (s.get .DMA_CFG_TRGEN c ≠ 0) ∧ (s.get .DMA_STAT_BUSY c ≠ 0 ∨ s.get
        .DMA_STAT_HALT c ≠ 0) ∧ (15 ≤ s.get .DMA_STAT_PEND c)) ∧
  (∃ (ag : Agent) (c : DmaCh) (s : State),
      (dmaMayWrite s ag c = true) ∧ (s.get .DMA_STAT_HALT c ≠ 0)) ∧
  (∃ (ag : Agent) (c : DmaCh) (s : State),
      (dmaMayWrite s ag c = true) ∧ (s.get .DMA_STAT_HALT c = 0)) ∧
  (∃ (ag : Agent) (c : DmaCh) (s : State),
      (dmaMayWrite s ag c = true)) := by
  refine ⟨⟨((Sys2Proof.Agent.core 0)), 1, (mk [(.DMA_CFG_OWNER, 13, 1, 0)]), ?_⟩,
    ⟨((Sys2Proof.Agent.core 5)), 13, (mk []), ?_⟩,
    ⟨((Sys2Proof.Agent.dma 14)), 2, (mk [(.DMA_CFG_EN, -1, 2, 0), (.DMA_CFG_TRGEN, -2, 2, 0)]), ?_⟩,
    ⟨((Sys2Proof.Agent.core 5)), 14, (mk [(.DMA_CFG_EN, 1, 14, 0), (.DMA_CFG_TRGEN, -1, 14, 0)]), ?_⟩,
    ⟨((Sys2Proof.Agent.core 0)), 3, (mk [(.DMA_CFG_EN, -1, 3, 0), (.DMA_CFG_TRGEN, 4095, 3, 0), (.DMA_STAT_HALT, 1, 3, 0)]), ?_⟩,
    ⟨((Sys2Proof.Agent.core 5)), 1, (mk [(.DMA_CFG_EN, 2, 1, 0), (.DMA_CFG_TRGEN, -2, 1, 0), (.DMA_STAT_HALT, 2, 1, 0), (.DMA_STAT_PEND,
      19, 1, 0)]), ?_⟩,
    ⟨((Sys2Proof.Agent.jtag)), 1, (mk [(.DMA_STAT_HALT, 2, 1, 0)]), ?_⟩,
    ⟨((Sys2Proof.Agent.jtag)), 13, (mk []), ?_⟩,
    ⟨((Sys2Proof.Agent.core 0)), 3, (mk []), ?_⟩⟩ <;>
    (try dsimp only) <;> decide +kernel

theorem witness_DmaChannels_DmaTransfers :
  (∃ (c : DmaCh) (s : State),
      let src := s.nat .DMA_SRC c
      let dst := s.nat .DMA_DST c
      (dmaRuns s c = true) ∧ (s.get .dmaNeed c = 0) ∧ (s.get .dmaFail c = 0) ∧ (sramOf src ≠ none) ∧ (sramOf dst ≠ none) ∧ (accessWaits s
        src = false) ∧ (accessWaits s dst = false) ∧ (dmaAllows s c src .read = true) ∧ (dmaAllows s c dst .write = true) ∧ (s.get .memBad
        src = 0)) ∧
  (∃ (c : DmaCh) (s : State),
      let d := s.nat .dmaNext c
      let w := fun i => ((s.wordAt (d + i)).toNat : Int)
      (dmaRuns s c = true) ∧ (12 ≤ (c : Nat)) ∧ (s.get .dmaNeed c ≠ 0) ∧ (s.get .dmaFail c = 0) ∧ (region d = .sram) ∧ (region (d + 7) =
        .sram) ∧ ((∀ i < 8, s.get .memBad (d + i) = 0)) ∧ (w 4 ≠ 0) ∧ (w 5 < 4)) ∧
  (∃ (c : DmaCh) (s : State),
      let d := s.nat .dmaNext c
      let w := fun i => ((s.wordAt (d + i)).toNat : Int)
      (dmaRuns s c = true) ∧ (12 ≤ (c : Nat)) ∧ (s.get .dmaNeed c ≠ 0) ∧ (s.get .dmaFail c = 0) ∧ (region d = .sram) ∧ (region (d + 7) =
        .sram) ∧ ((∀ i < 8, s.get .memBad (d + i) = 0)) ∧ (w 4 = 0 ∨ 4 ≤ w 5)) ∧
  (∃ (c : DmaCh) (s : State),
      (dmaRuns s c = true) ∧ (s.get .dmaFail c ≠ 0) ∧ (s.get .dmaFail c ≠ 2) ∧ (s.get .dmaNeed c = 0)) ∧
  (∃ (c : DmaCh) (s : State),
      (dmaRuns s c = true) ∧ (12 ≤ (c : Nat)) ∧ (s.get .dmaFail c ≠ 0) ∧ (s.get .dmaNeed c ≠ 0)) ∧
  (∃ (c : DmaCh) (s : State),
      let dst := s.nat .DMA_DST c
      (dmaRuns s c = true) ∧ (s.get .dmaFail c = 2) ∧ (s.get .dmaNeed c = 0) ∧ (sramOf dst ≠ none) ∧ (dmaAllows s c dst .write = true)) :=
        by
  refine ⟨⟨4, (mk [(.DMA_STAT_BUSY, 65535, 4, 0), (.DMA_SRC, 1048592, 4, 0), (.DMA_DST, 1048608, 4, 0)]), ?_⟩,
    ⟨14, { mk [(.DMA_STAT_BUSY, 1, 14, 0), (.dmaNext, 1048592, 14, 0), (.dmaNeed, 1, 14, 0)] with mem := [(2097192, 0x03#8)] }, ?_⟩,
    ⟨14, (mk [(.DMA_STAT_BUSY, 1, 14, 0), (.dmaNext, 1048592, 14, 0), (.dmaNeed, 1, 14, 0)]), ?_⟩,
    ⟨11, (mk [(.DMA_STAT_BUSY, 65535, 11, 0), (.dmaFail, 1, 11, 0)]), ?_⟩,
    ⟨12, (mk [(.DMA_STAT_BUSY, 65535, 12, 0), (.dmaNeed, 1, 12, 0), (.dmaFail, 1, 12, 0)]), ?_⟩,
    ⟨11, (mk [(.DMA_STAT_BUSY, 4095, 11, 0), (.DMA_DST, 1048608, 11, 0), (.dmaFail, 2, 11, 0)]), ?_⟩⟩ <;>
    (try dsimp only) <;> decide +kernel

theorem witness_RecorderCommands :
  (∃ (q : QRec) (rest : List QRec) (s : State),
      let at_ := s.nat .RC_BASE + 16 * s.nat .RC_WIDX
      (s.recQueue = q :: rest) ∧ (s.get .RC_STATUS_FROZEN = 0) ∧ (s.get .recPosting = 0 ∨ s.get .recPost ≠ 0) ∧ ((∀ n < q.words.length,
        ddrUsable s (at_ + n) = true)) ∧ (q.words ≠ [])) ∧
  (∃ (s : State),
      (s.recQueue = [] ∨ s.get .RC_STATUS_FROZEN ≠ 0)) ∧
  (∃ (s : State),
      (s.get .recPosting ≠ 0) ∧ (s.get .recPost = 0)) ∧
  (∃ (s : State),
      (s.get .RC_STATUS_NODDR = 0) ∧ (s.get .RC_STATUS_FROZEN = 0) ∧ (s.get .recPosting = 0)) ∧
  (∃ (s : State),
      (s.get .RC_STATUS_NODDR = 0) ∧ (s.get .RC_STATUS_FROZEN ≠ 0 ∨ s.get .recPosting ≠ 0)) ∧
  (∃ (s : State),
      (s.get .recFrzAt ≠ s.now)) ∧
  (∃ (s : State),
      (s.get .recFrzAt = s.now)) ∧
  (∃ (s : State),
      (s.get .RC_STATUS_NODDR = 0)) ∧
  (∃ (s : State),
      (s.get .RC_STATUS_NODDR ≠ 0)) ∧
  (∃ (s : State),
      (s.get .RC_STATUS_STGARMED ≠ 0) ∧ (s.get .stgOn = 0)) ∧
  (∃ (s : State),
      (s.get .RC_STATUS_STGARMED = 0 ∨ s.get .stgOn ≠ 0)) ∧
  (∃ (s : State),
      (s.get .RC_STATUS_STGARMED ≠ 0) ∧ (s.get .stgOn ≠ 0) ∧ (s.get .stgLeft = 0)) ∧
  (∃ (by_ : CoreId) (k : CoreId) (s : State),
      (by_ = 5 ∨ by_ = k) ∧ (s.get .recMsgAt k = s.now)) ∧
  (∃ (by_ : CoreId) (k : CoreId) (s : State),
      (by_ = 5 ∨ by_ = k) ∧ (s.get .recMsgAt k ≠ s.now) ∧ (s.get .recEnab ≠ 0) ∧ (s.get .RC_STATUS_FROZEN = 0) ∧ (s.recQueue.length < 64))
        ∧
  (∃ (by_ : CoreId) (k : CoreId),
      (by_ ≠ 5) ∧ (by_ ≠ k)) := by
  refine ⟨⟨(⟨[0x2738#16, 0x336a#16, 0x0800#16, 0x0002#16, 0x0003#16, 0x9f6b#16, 0x0005#16, 0x0009#16, 0x0004#16, 0x0fff#16, 0x0004#16,
    0x0001#16, 0x000b#16, 0x000f#16, 0x3f17#16, 0x0002#16], true⟩), ([⟨[0x0004#16, 0x0007#16, 0x0008#16, 0x0003#16, 0x0007#16, 0x0400#16,
    0x0005#16, 0x8f50#16, 0x0004#16, 0x0003#16, 0xec06#16, 0x0001#16, 0xd5c2#16, 0x0070#16, 0x0100#16, 0x0002#16], true⟩, ⟨[0x0006#16,
    0x4968#16, 0xb4dd#16, 0x0800#16, 0x0005#16, 0x0002#16, 0x0001#16, 0x0006#16, 0x0002#16, 0x007f#16, 0x03e8#16, 0x8000#16, 0xc184#16,
    0xffff#16, 0x007f#16, 0x2702#16], true⟩, ⟨[0x0004#16, 0x0020#16, 0x0001#16, 0x7b70#16, 0x86db#16, 0x0009#16, 0x0000#16, 0x0001#16,
    0x0080#16, 0x0200#16, 0x0010#16, 0x000b#16, 0x000e#16, 0x0003#16, 0x2a25#16, 0x0007#16], true⟩]), { mk [(.D4_CFG_SIZE, 2, 0, 0),
    (.D4_STATUS_RDY, 1, 0, 0), (.RC_BASE, 2415919104, 0, 0)]
    with recQueue := [⟨[0x2738#16, 0x336a#16, 0x0800#16, 0x0002#16, 0x0003#16, 0x9f6b#16, 0x0005#16, 0x0009#16, 0x0004#16, 0x0fff#16, 0x0004#16, 0x0001#16, 0x000b#16, 0x000f#16, 0x3f17#16, 0x0002#16], true⟩, ⟨[0x0004#16, 0x0007#16, 0x0008#16, 0x0003#16, 0x0007#16, 0x0400#16, 0x0005#16, 0x8f50#16, 0x0004#16, 0x0003#16, 0xec06#16, 0x0001#16, 0xd5c2#16, 0x0070#16, 0x0100#16, 0x0002#16], true⟩, ⟨[0x0006#16, 0x4968#16, 0xb4dd#16, 0x0800#16, 0x0005#16, 0x0002#16, 0x0001#16, 0x0006#16, 0x0002#16, 0x007f#16, 0x03e8#16, 0x8000#16, 0xc184#16, 0xffff#16, 0x007f#16, 0x2702#16], true⟩, ⟨[0x0004#16, 0x0020#16, 0x0001#16, 0x7b70#16, 0x86db#16, 0x0009#16, 0x0000#16, 0x0001#16, 0x0080#16, 0x0200#16, 0x0010#16, 0x000b#16, 0x000e#16, 0x0003#16, 0x2a25#16, 0x0007#16], true⟩] },
    ?_⟩,
    ⟨(mk []), ?_⟩,
    ⟨(mk [(.recPosting, 15, 0, 0)]), ?_⟩,
    ⟨(mk []), ?_⟩,
    ⟨(mk [(.RC_STATUS_FROZEN, -1, 0, 0)]), ?_⟩,
    ⟨(mk []), ?_⟩,
    ⟨(mk [(.tick, 8, 0, 0), (.recFrzAt, 8, 0, 0)]), ?_⟩,
    ⟨(mk []), ?_⟩,
    ⟨(mk [(.RC_STATUS_NODDR, -1, 0, 0)]), ?_⟩,
    ⟨(mk [(.RC_STATUS_STGARMED, 15, 0, 0)]), ?_⟩,
    ⟨(mk []), ?_⟩,
    ⟨(mk [(.RC_STATUS_STGARMED, 1, 0, 0), (.stgOn, -1, 0, 0)]), ?_⟩,
    ⟨5, 1, (mk [(.tick, 2, 0, 0), (.recMsgAt, 2, 1, 0)]), ?_⟩,
    ⟨1, 1, (mk [(.recEnab, 1, 0, 0)]), ?_⟩,
    ⟨4, 0, ?_⟩⟩ <;>
    (try dsimp only) <;> decide +kernel

theorem witness_SpecialRegisterMoves :
  (∃ (k : CoreId) (s : State),
      let b0 := s.atBoundary k
      (b0.Ready k 1 true)) ∧
  (∃ (k : CoreId) (s : State) (x : Fin 8),
      let b0 := s.atBoundary k
      (b0.Ready k 1 true) ∧ (3 ≤ (x : Nat))) ∧
  (∃ (k : CoreId) (s : State) (x : Fin 8),
      let b0 := s.atBoundary k
      (b0.Ready k 1 true) ∧ (2 ≤ (x : Nat))) ∧
  (∃ (k : CoreId) (y : Fin 8) (s : State),
      let b0 := s.atBoundary k
      let part := (y : Nat) % 4
      (b0.Ready k 1 true) ∧ (part ≠ 3)) ∧
  (∃ (k : CoreId) (y : Fin 8) (s : State),
      let b0 := s.atBoundary k
      let part := (y : Nat) % 4
      (b0.Ready k 1 true) ∧ (part = 3)) := by
  refine ⟨⟨5, (mk [(.fqLen, 8, 5, 0), (.coreOn, 1, 5, 0)]), ?_⟩,
    ⟨5, (mk [(.fqLen, 8, 5, 0), (.coreOn, 1, 5, 0)]), 6, ?_⟩,
    ⟨5, (mk [(.fqLen, 8, 5, 0), (.coreOn, 1, 5, 0)]), 2, ?_⟩,
    ⟨4, 1, (mk [(.fqLen, 8, 4, 0), (.coreOn, 1, 4, 0)]), ?_⟩,
    ⟨4, 3, (mk [(.fqLen, 8, 4, 0), (.coreOn, 1, 4, 0)]), ?_⟩⟩ <;>
    (try dsimp only) <;> (repeat' first | decide +kernel | apply And.intro) <;> first
      | ((with_reducible refine ready_of ?_) <;> decide +kernel)
      | decide +kernel

theorem witness_PairedWords :
  (∃ (k : CoreId) (w : BitVec 15) (s : State),
      let b0 := s.atBoundary k
      (b0.Ready k 1 true) ∧ (w.getLsbD 0 = true)) ∧
  (∃ (k : CoreId) (w : BitVec 15) (s : State),
      let b0 := s.atBoundary k
      let writes (op d r : Nat) : Bool := !(op == 7 || (op == 0 && d == r))
      let reads (op d r n : Nat) : Bool := if op == 0 then n == r else if op == 6 then n == d else n == d || n == r
      let opA := w.toNat / 2 ^ 12 % 8
      let dA := w.toNat / 2 ^ 10 % 4
      let rA := w.toNat / 2 ^ 8 % 4
      let opB := w.toNat / 2 ^ 5 % 8
      let dB := w.toNat / 2 ^ 3 % 4
      let rB := w.toNat / 2 % 4
      let clash := writes opA dA rA && ((writes opB dB rB && dA == dB) || reads opB dB rB dA)
      (b0.Ready k 1 true) ∧ (w.getLsbD 0 = false) ∧ (clash = true)) ∧
  (∃ (k : CoreId) (w : BitVec 15) (s : State),
      let b0 := s.atBoundary k
      let writes (op d r : Nat) : Bool := !(op == 7 || (op == 0 && d == r))
      let reads (op d r n : Nat) : Bool := if op == 0 then n == r else if op == 6 then n == d else n == d || n == r
      let opA := w.toNat / 2 ^ 12 % 8
      let dA := w.toNat / 2 ^ 10 % 4
      let rA := w.toNat / 2 ^ 8 % 4
      let opB := w.toNat / 2 ^ 5 % 8
      let dB := w.toNat / 2 ^ 3 % 4
      let rB := w.toNat / 2 % 4
      let clash := writes opA dA rA && ((writes opB dB rB && dA == dB) || reads opB dB rB dA)
      (b0.Ready k 1 true) ∧ (w.getLsbD 0 = false) ∧ (clash = false)) := by
  refine ⟨⟨5, 0x0007#15, (mk [(.fqLen, 8, 5, 0), (.coreOn, 1, 5, 0)]), ?_⟩,
    ⟨0, 0x0200#15, (mk [(.fqLen, 8, 0, 0), (.coreOn, 1, 0, 0)]), ?_⟩,
    ⟨0, 0x0002#15, (mk [(.fqLen, 8, 0, 0), (.coreOn, 1, 0, 0)]), ?_⟩⟩ <;>
    (try dsimp only) <;> (repeat' first | decide +kernel | apply And.intro) <;> first
      | ((with_reducible refine ready_of ?_) <;> decide +kernel)
      | decide +kernel

theorem witness_Accumulators :
  (∃ (k : CoreId) (s : State),
      let b0 := s.atBoundary k
      (b0.Ready k 1 true)) ∧
  (∃ (k : CoreId) (s : State),
      let b0 := s.atBoundary k
      (b0.Ready k 1 true)) := by
  refine ⟨⟨5, (mk [(.fqLen, 8, 5, 0), (.coreOn, 1, 5, 0)]), ?_⟩,
    ⟨5, (mk [(.fqLen, 8, 5, 0), (.coreOn, 1, 5, 0)]), ?_⟩⟩ <;>
    (try dsimp only) <;> (repeat' first | decide +kernel | apply And.intro) <;> first
      | ((with_reducible refine ready_of ?_) <;> decide +kernel)
      | decide +kernel

theorem witness_LongOperations :
  (∃ (k : CoreId) (n : Fin 8) (s : State),
      let b0 := s.atBoundary k
      let b := b0.fetched k 1
      let den := dReg b k n
      (den = 0)) ∧
  (∃ (k : CoreId) (n : Fin 8) (s : State),
      let b0 := s.atBoundary k
      let b := b0.fetched k 1
      let den := dReg b k n
      (den ≠ 0)) ∧
  (∃ (k : CoreId) (n : Fin 8) (s : State),
      let b0 := s.atBoundary k
      let b := b0.fetched k 1
      let den := dReg b k n
      let sd := signed 16 den
      (sd = 0)) ∧
  (∃ (k : CoreId) (q : Fin 8) (n : Fin 8) (s : State),
      let b0 := s.atBoundary k
      let b := b0.fetched k 1
      let num := dReg b k q
      let den := dReg b k n
      let sn := signed 16 num
      let sd := signed 16 den
      (sd = -1) ∧ (sn = -32768)) ∧
  (∃ (k : CoreId) (q : Fin 8) (n : Fin 8) (s : State),
      let b0 := s.atBoundary k
      let b := b0.fetched k 1
      let num := dReg b k q
      let den := dReg b k n
      let sn := signed 16 num
      let sd := signed 16 den
      (sd ≠ 0) ∧ (¬(sd = -1 ∧ sn = -32768))) ∧
  (∃ (k : CoreId) (s : State),
      (s.get .macOn k = 0)) ∧
  (∃ (k : CoreId) (s : State),
      (s.get .divOn k = 0)) ∧
  (∃ (k : CoreId) (s : State),
      (s.get .macOn k ≠ 0)) ∧
  (∃ (k : CoreId) (s : State),
      (s.get .divOn k ≠ 0)) := by
  refine ⟨⟨1, 2, (mk []), ?_⟩,
    ⟨5, 0, (mk [(.fqLen, 8, 5, 0), (.coreD, 65534, 5, 0)]), ?_⟩,
    ⟨1, 2, (mk []), ?_⟩,
    ⟨1, 1, 6, (mk [(.fqLen, 8, 1, 0), (.coreD, 32768, 1, 1), (.coreD, 65535, 1, 6)]), ?_⟩,
    ⟨5, 0, 3, (mk [(.fqLen, 8, 5, 0), (.coreD, 1, 5, 3)]), ?_⟩,
    ⟨5, (mk []), ?_⟩,
    ⟨5, (mk []), ?_⟩,
    ⟨3, (mk [(.macOn, 112, 3, 0)]), ?_⟩,
    ⟨3, (mk [(.divOn, 112, 3, 0)]), ?_⟩⟩ <;>
    (try dsimp only) <;> decide +kernel

theorem witness_LoadsAndStores :
  (∃ (k : CoreId) (n : Fin 8) (m : AddrMode) (w : Int) (s : State) (u : State),
      let a := s.atBoundary k
      let P (n : Fin 8) := pReg a k n
      let wrap (z : Int) := z % 2 ^ 24
      let at1 : Int × Option (Nat × Int) × Nat := match m with
          | .ind p => (P p, none, 1)
          | .post p => (P p, some ((p : Nat), wrap (P p + 1)), 1)
          | .pre p => (wrap (P p - 1), some ((p : Nat), wrap (P p - 1)), 1)
          | .off2 p o => (wrap (P p + o.toNat), none, 1)
          | .off16 p o => (wrap (P p + o.toInt), none, 2)
          | .idx p x => (wrap (P p + signed 16 (dReg a k x)), none, 1)
          | .abs a => (a.toNat, none, 2)
          | .sp o => (wrap (P 7 + o.toNat), none, 1)
      let va := at1.1
      let len := at1.2.2
      let b := a.fetched k len
      let sup := supervisor a k
      (a.Ready k len (len == 1)) ∧ (load b k sup va 1 = (.ok [w], u))) ∧
  (∃ (k : CoreId) (n : Fin 8) (m : AddrMode) (e : Exc) (s : State) (u : State),
      let a := s.atBoundary k
      let P (n : Fin 8) := pReg a k n
      let wrap (z : Int) := z % 2 ^ 24
      let at1 : Int × Option (Nat × Int) × Nat := match m with
          | .ind p => (P p, none, 1)
          | .post p => (P p, some ((p : Nat), wrap (P p + 1)), 1)
          | .pre p => (wrap (P p - 1), some ((p : Nat), wrap (P p - 1)), 1)
          | .off2 p o => (wrap (P p + o.toNat), none, 1)
          | .off16 p o => (wrap (P p + o.toInt), none, 2)
          | .idx p x => (wrap (P p + signed 16 (dReg a k x)), none, 1)
          | .abs a => (a.toNat, none, 2)
          | .sp o => (wrap (P 7 + o.toNat), none, 1)
      let va := at1.1
      let len := at1.2.2
      let b := a.fetched k len
      let sup := supervisor a k
      (a.Ready k len (len == 1)) ∧ (load b k sup va 1 = (.error e, u))) ∧
  (∃ (k : CoreId) (d : Fin 8) (n : Fin 8) (m : AddrMode) (s : State) (u : State) (v : State),
      let a := s.atBoundary k
      let P (n : Fin 8) := pReg a k n
      let wrap (z : Int) := z % 2 ^ 24
      let at1 : Int × Option (Nat × Int) × Nat := match m with
          | .ind p => (P p, none, 1)
          | .post p => (P p, some ((p : Nat), wrap (P p + 1)), 1)
          | .pre p => (wrap (P p - 1), some ((p : Nat), wrap (P p - 1)), 1)
          | .off2 p o => (wrap (P p + o.toNat), none, 1)
          | .off16 p o => (wrap (P p + o.toInt), none, 2)
          | .idx p x => (wrap (P p + signed 16 (dReg a k x)), none, 1)
          | .abs a => (a.toNat, none, 2)
          | .sp o => (wrap (P 7 + o.toNat), none, 1)
      let va := at1.1
      let len := at1.2.2
      let b := a.fetched k len
      let sup := supervisor a k
      (a.Ready k len (len == 1)) ∧ (store b k sup va [dReg a k d] = (.ok u, v))) ∧
  (∃ (k : CoreId) (d : Fin 8) (n : Fin 8) (m : AddrMode) (e : Exc) (s : State) (v : State),
      let a := s.atBoundary k
      let P (n : Fin 8) := pReg a k n
      let wrap (z : Int) := z % 2 ^ 24
      let at1 : Int × Option (Nat × Int) × Nat := match m with
          | .ind p => (P p, none, 1)
          | .post p => (P p, some ((p : Nat), wrap (P p + 1)), 1)
          | .pre p => (wrap (P p - 1), some ((p : Nat), wrap (P p - 1)), 1)
          | .off2 p o => (wrap (P p + o.toNat), none, 1)
          | .off16 p o => (wrap (P p + o.toInt), none, 2)
          | .idx p x => (wrap (P p + signed 16 (dReg a k x)), none, 1)
          | .abs a => (a.toNat, none, 2)
          | .sp o => (wrap (P 7 + o.toNat), none, 1)
      let va := at1.1
      let len := at1.2.2
      let b := a.fetched k len
      let sup := supervisor a k
      (a.Ready k len (len == 1)) ∧ (store b k sup va [dReg a k d] = (.error e, v))) ∧
  (∃ (k : CoreId) (n : Fin 8) (pm : PairMode) (s : State),
      let a := s.atBoundary k
      let P (n : Fin 8) := pReg a k n
      let wrap (z : Int) := z % 2 ^ 24
      let at2 : Int × Option (Nat × Int) × Nat := match pm with
          | .ind p => (P p, none, 1)
          | .post p => (P p, some ((p : Nat), wrap (P p + 2)), 1)
          | .pre p => (wrap (P p - 2), some ((p : Nat), wrap (P p - 2)), 1)
          | .off16 p o => (wrap (P p + o.toInt), none, 2)
      let len2 := at2.2.2
      (a.Ready k len2 (len2 == 1)) ∧ (decide ((n : Nat) % 2 = 1) = true)) ∧
  (∃ (k : CoreId) (n : Fin 8) (pm : PairMode) (lo : Int) (hi : Int) (s : State) (u : State),
      let a := s.atBoundary k
      let P (n : Fin 8) := pReg a k n
      let wrap (z : Int) := z % 2 ^ 24
      let at2 : Int × Option (Nat × Int) × Nat := match pm with
          | .ind p => (P p, none, 1)
          | .post p => (P p, some ((p : Nat), wrap (P p + 2)), 1)
          | .pre p => (wrap (P p - 2), some ((p : Nat), wrap (P p - 2)), 1)
          | .off16 p o => (wrap (P p + o.toInt), none, 2)
      let va2 := at2.1
      let len2 := at2.2.2
      let b2 := a.fetched k len2
      let sup := supervisor a k
      (a.Ready k len2 (len2 == 1)) ∧ (load b2 k sup va2 2 = (.ok [lo, hi], u)) ∧ (decide ((n : Nat) % 2 = 1) = false)) ∧
  (∃ (k : CoreId) (n : Fin 8) (pm : PairMode) (e : Exc) (s : State) (u : State),
      let a := s.atBoundary k
      let P (n : Fin 8) := pReg a k n
      let wrap (z : Int) := z % 2 ^ 24
      let at2 : Int × Option (Nat × Int) × Nat := match pm with
          | .ind p => (P p, none, 1)
          | .post p => (P p, some ((p : Nat), wrap (P p + 2)), 1)
          | .pre p => (wrap (P p - 2), some ((p : Nat), wrap (P p - 2)), 1)
          | .off16 p o => (wrap (P p + o.toInt), none, 2)
      let va2 := at2.1
      let len2 := at2.2.2
      let b2 := a.fetched k len2
      let sup := supervisor a k
      (a.Ready k len2 (len2 == 1)) ∧ (load b2 k sup va2 2 = (.error e, u)) ∧ (decide ((n : Nat) % 2 = 1) = false)) ∧
  (∃ (k : CoreId) (n : Fin 8) (pm : PairMode) (s : State),
      let a := s.atBoundary k
      let P (n : Fin 8) := pReg a k n
      let wrap (z : Int) := z % 2 ^ 24
      let at2 : Int × Option (Nat × Int) × Nat := match pm with
          | .ind p => (P p, none, 1)
          | .post p => (P p, some ((p : Nat), wrap (P p + 2)), 1)
          | .pre p => (wrap (P p - 2), some ((p : Nat), wrap (P p - 2)), 1)
          | .off16 p o => (wrap (P p + o.toInt), none, 2)
      let len2 := at2.2.2
      (a.Ready k len2 (len2 == 1)) ∧ (decide ((n : Nat) % 2 = 1) = true)) ∧
  (∃ (k : CoreId) (n : Fin 8) (pm : PairMode) (s : State) (u : State) (v : State),
      let a := s.atBoundary k
      let P (n : Fin 8) := pReg a k n
      let wrap (z : Int) := z % 2 ^ 24
      let at2 : Int × Option (Nat × Int) × Nat := match pm with
          | .ind p => (P p, none, 1)
          | .post p => (P p, some ((p : Nat), wrap (P p + 2)), 1)
          | .pre p => (wrap (P p - 2), some ((p : Nat), wrap (P p - 2)), 1)
          | .off16 p o => (wrap (P p + o.toInt), none, 2)
      let va2 := at2.1
      let len2 := at2.2.2
      let b2 := a.fetched k len2
      let sup := supervisor a k
      (a.Ready k len2 (len2 == 1)) ∧ (decide ((n : Nat) % 2 = 1) = false) ∧ (store b2 k sup va2 [dReg a k n, dReg a k ((n : Nat) + 1)] =
        (.ok u, v))) ∧
  (∃ (k : CoreId) (n : Fin 8) (pm : PairMode) (e : Exc) (s : State) (v : State),
      let a := s.atBoundary k
      let P (n : Fin 8) := pReg a k n
      let wrap (z : Int) := z % 2 ^ 24
      let at2 : Int × Option (Nat × Int) × Nat := match pm with
          | .ind p => (P p, none, 1)
          | .post p => (P p, some ((p : Nat), wrap (P p + 2)), 1)
          | .pre p => (wrap (P p - 2), some ((p : Nat), wrap (P p - 2)), 1)
          | .off16 p o => (wrap (P p + o.toInt), none, 2)
      let va2 := at2.1
      let len2 := at2.2.2
      let b2 := a.fetched k len2
      let sup := supervisor a k
      (a.Ready k len2 (len2 == 1)) ∧ (decide ((n : Nat) % 2 = 1) = false) ∧ (store b2 k sup va2 [dReg a k n, dReg a k ((n : Nat) + 1)] =
        (.error e, v))) := by
  refine ⟨⟨0, 0, (.abs 0x300), 0, (tc []), (((tc []).atBoundary 0).fetched 0 2), ?_⟩,
    ⟨0, 0, (.ind 0), ⟨6, 0, false, 0x80000⟩, (tc [(.coreP, 0x80000, 0, 0)]), (((tc [(.coreP, 0x80000, 0, 0)]).atBoundary 0).fetched 0 1),
      ?_⟩,
    ⟨0, 0, 0, (.abs 0x300), (tc []), (((tc []).atBoundary 0).fetched 0 2), (((tc []).atBoundary 0).fetched 0 2), ?_⟩,
    ⟨0, 0, 0, (.ind 0), ⟨excProt, 0, true, 0x80000⟩, (tc [(.coreP, 0x80000, 0, 0), (.XC_MPUCTL_EN, 1, 0, 0), (.MPU_BASE_EN, 1, 0, 0),
      (.MPU_LIM, 0x3FF, 0, 0), (.MPU_BASE_R, 1, 0, 0), (.MPU_BASE_X, 1, 0, 0)]), (((tc [(.coreP, 0x80000, 0, 0), (.XC_MPUCTL_EN, 1, 0, 0),
      (.MPU_BASE_EN, 1, 0, 0), (.MPU_LIM, 0x3FF, 0, 0), (.MPU_BASE_R, 1, 0, 0), (.MPU_BASE_X, 1, 0, 0)]).atBoundary 0).fetched 0 1), ?_⟩,
    ⟨0, 1, (.ind 0), (tc []), ?_⟩,
    ⟨0, 0, (.ind 0), 0, 0, (tc [(.coreP, 0x300, 0, 0)]), (((tc [(.coreP, 0x300, 0, 0)]).atBoundary 0).fetched 0 1), ?_⟩,
    ⟨0, 0, (.ind 0), ⟨6, 0, false, 0x80000⟩, (tc [(.coreP, 0x80000, 0, 0)]), (((tc [(.coreP, 0x80000, 0, 0)]).atBoundary 0).fetched 0 1),
      ?_⟩,
    ⟨0, 1, (.ind 0), (tc []), ?_⟩,
    ⟨0, 0, (.ind 0), (tc [(.coreP, 0x300, 0, 0)]), (((tc [(.coreP, 0x300, 0, 0)]).atBoundary 0).fetched 0 1), (((tc [(.coreP, 0x300, 0,
      0)]).atBoundary 0).fetched 0 1), ?_⟩,
    ⟨0, 0, (.ind 0), ⟨excProt, 0, true, 0x80000⟩, (tc [(.coreP, 0x80000, 0, 0), (.XC_MPUCTL_EN, 1, 0, 0), (.MPU_BASE_EN, 1, 0, 0),
      (.MPU_LIM, 0x3FF, 0, 0), (.MPU_BASE_R, 1, 0, 0), (.MPU_BASE_X, 1, 0, 0)]), (((tc [(.coreP, 0x80000, 0, 0), (.XC_MPUCTL_EN, 1, 0, 0),
      (.MPU_BASE_EN, 1, 0, 0), (.MPU_LIM, 0x3FF, 0, 0), (.MPU_BASE_R, 1, 0, 0), (.MPU_BASE_X, 1, 0, 0)]).atBoundary 0).fetched 0 1), ?_⟩⟩
      <;>
    (try dsimp only) <;> (repeat' first | decide +kernel | apply And.intro) <;> first
      | ((with_reducible refine ok_eq ?_ ?_) <;> decide +kernel)
      | ((with_reducible refine err_eq ?_ ?_) <;> decide +kernel)
      | ((with_reducible refine ready_of ?_) <;> decide +kernel)
      | decide +kernel

theorem witness_MemoryAccesses :
  (∃ (k : CoreId) (va : Int) (b : State),
      let tcm := 0x200000 + 0x20000 * b.nat .tcmOf k
      let pa : Nat := if (k : Nat) ≠ 5 ∧ va < 0x10000 then tcm + va.toNat else va.toNat
      let bare := ∀ x ∈ b.stores, x.core = (k : Nat) → ∀ c ∈ x.cells, c.1 ≠ pa
      let uncached := (k : Nat) ≠ 5 ∨ b.get .dcOn pa = 0
      let ram (a : Nat) := (0x100000 ≤ a ∧ a < 0x200000) ∨ (0x200000 ≤ a ∧ a < 0x2A0000 ∧ (a - 0x200000) % 0x20000 < 0x10000)
      (0 ≤ va) ∧ (va < 0x1000000) ∧ (ram pa) ∧ (((k : Nat) = 5 ∨ b.nat .tcmOf k < 5)) ∧ ((if (k : Nat) = 5 then b.get .XC_MMU_TEN = 0 else
        b.get .XC_MPUCTL_EN k = 0)) ∧ (b.get .memBad pa = 0) ∧ (bare) ∧ (uncached)) ∧
  (∃ (k : CoreId) (va : Int) (b : State),
      let tcm := 0x200000 + 0x20000 * b.nat .tcmOf k
      let pa : Nat := if (k : Nat) ≠ 5 ∧ va < 0x10000 then tcm + va.toNat else va.toNat
      let bare := ∀ x ∈ b.stores, x.core = (k : Nat) → ∀ c ∈ x.cells, c.1 ≠ pa
      let uncached := (k : Nat) ≠ 5 ∨ b.get .dcOn pa = 0
      let ram (a : Nat) := (0x100000 ≤ a ∧ a < 0x200000) ∨ (0x200000 ≤ a ∧ a < 0x2A0000 ∧ (a - 0x200000) % 0x20000 < 0x10000)
      (0 ≤ va) ∧ (va < 0x1000000) ∧ (ram pa) ∧ (((k : Nat) = 5 ∨ b.nat .tcmOf k < 5)) ∧ ((if (k : Nat) = 5 then b.get .XC_MMU_TEN = 0 else
        b.get .XC_MPUCTL_EN k = 0)) ∧ (b.get .memBad pa ≠ 0) ∧ (bare) ∧ (uncached)) ∧
  (∃ (k : CoreId) (va : Int) (b : State),
      let tcm := 0x200000 + 0x20000 * b.nat .tcmOf k
      let pa : Nat := if (k : Nat) ≠ 5 ∧ va < 0x10000 then tcm + va.toNat else va.toNat
      let bare := ∀ x ∈ b.stores, x.core = (k : Nat) → ∀ c ∈ x.cells, c.1 ≠ pa
      let uncached := (k : Nat) ≠ 5 ∨ b.get .dcOn pa = 0
      let ram (a : Nat) := (0x100000 ≤ a ∧ a < 0x200000) ∨ (0x200000 ≤ a ∧ a < 0x2A0000 ∧ (a - 0x200000) % 0x20000 < 0x10000)
      (0 ≤ va) ∧ (va < 0x1000000) ∧ (ram pa) ∧ (((k : Nat) = 5 ∨ b.nat .tcmOf k < 5)) ∧ ((if (k : Nat) = 5 then b.get .XC_MMU_TEN = 0 else
        b.get .XC_MPUCTL_EN k = 0)) ∧ (b.get .memBad pa = 0) ∧ (bare) ∧ (¬uncached)) ∧
  (∃ (k : CoreId) (va : Int) (b : State),
      let tcm := 0x200000 + 0x20000 * b.nat .tcmOf k
      let pa : Nat := if (k : Nat) ≠ 5 ∧ va < 0x10000 then tcm + va.toNat else va.toNat
      let ram (a : Nat) := (0x100000 ≤ a ∧ a < 0x200000) ∨ (0x200000 ≤ a ∧ a < 0x2A0000 ∧ (a - 0x200000) % 0x20000 < 0x10000)
      (0 ≤ va) ∧ (va < 0x1000000) ∧ (ram pa) ∧ (((k : Nat) = 5 ∨ b.nat .tcmOf k < 5)) ∧ ((if (k : Nat) = 5 then b.get .XC_MMU_TEN = 0 else
        b.get .XC_MPUCTL_EN k = 0))) ∧
  (∃ (k : CoreId) (va : Int) (v : W16) (l : List StoreEnt) (b : State),
      let tcm := 0x200000 + 0x20000 * b.nat .tcmOf k
      let pa : Nat := if (k : Nat) ≠ 5 ∧ va < 0x10000 then tcm + va.toNat else va.toNat
      let sup := supervisor b k
      let ram (a : Nat) := (0x100000 ≤ a ∧ a < 0x200000) ∨ (0x200000 ≤ a ∧ a < 0x2A0000 ∧ (a - 0x200000) % 0x20000 < 0x10000)
      let entry : StoreEnt := ⟨k, [(pa, v)], va.toNat, sup, false⟩
      (0 ≤ va) ∧ (va < 0x1000000) ∧ (ram pa) ∧ (((k : Nat) = 5 ∨ b.nat .tcmOf k < 5)) ∧ ((if (k : Nat) = 5 then b.get .XC_MMU_TEN = 0 else
        b.get .XC_MPUCTL_EN k = 0)) ∧ (b.stores = l ++ [entry])) ∧
  (∃ (k : CoreId) (va : Int) (b : State),
      let tcm := 0x200000 + 0x20000 * b.nat .tcmOf k
      let pa : Nat := if (k : Nat) ≠ 5 ∧ va < 0x10000 then tcm + va.toNat else va.toNat
      let bare := ∀ x ∈ b.stores, x.core = (k : Nat) → ∀ c ∈ x.cells, c.1 ≠ pa
      let direct := (k : Nat) ≠ 5 ∧ tcm ≤ pa ∧ pa < tcm + 0x10000 ∧ bare
      let ram (a : Nat) := (0x100000 ≤ a ∧ a < 0x200000) ∨ (0x200000 ≤ a ∧ a < 0x2A0000 ∧ (a - 0x200000) % 0x20000 < 0x10000)
      (0 ≤ va) ∧ (va < 0x1000000) ∧ (ram pa) ∧ (((k : Nat) = 5 ∨ b.nat .tcmOf k < 5)) ∧ ((if (k : Nat) = 5 then b.get .XC_MMU_TEN = 0 else
        b.get .XC_MPUCTL_EN k = 0)) ∧ (direct)) ∧
  (∃ (k : CoreId) (va : Int) (b : State),
      let tcm := 0x200000 + 0x20000 * b.nat .tcmOf k
      let pa : Nat := if (k : Nat) ≠ 5 ∧ va < 0x10000 then tcm + va.toNat else va.toNat
      let bare := ∀ x ∈ b.stores, x.core = (k : Nat) → ∀ c ∈ x.cells, c.1 ≠ pa
      let direct := (k : Nat) ≠ 5 ∧ tcm ≤ pa ∧ pa < tcm + 0x10000 ∧ bare
      let ram (a : Nat) := (0x100000 ≤ a ∧ a < 0x200000) ∨ (0x200000 ≤ a ∧ a < 0x2A0000 ∧ (a - 0x200000) % 0x20000 < 0x10000)
      let mine (x : StoreEnt) : Bool := x.core == (k : Nat)
      let size := if (k : Nat) = 5 then 8 else 4
      (0 ≤ va) ∧ (va < 0x1000000) ∧ (ram pa) ∧ (((k : Nat) = 5 ∨ b.nat .tcmOf k < 5)) ∧ ((if (k : Nat) = 5 then b.get .XC_MMU_TEN = 0 else
        b.get .XC_MPUCTL_EN k = 0)) ∧ (¬direct) ∧ ((b.stores.filter mine).length < size)) ∧
  (∃ (k : CoreId) (va : Int) (b : State),
      let tcm := 0x200000 + 0x20000 * b.nat .tcmOf k
      let pa : Nat := if (k : Nat) ≠ 5 ∧ va < 0x10000 then tcm + va.toNat else va.toNat
      let bare := ∀ x ∈ b.stores, x.core = (k : Nat) → ∀ c ∈ x.cells, c.1 ≠ pa
      let direct := (k : Nat) ≠ 5 ∧ tcm ≤ pa ∧ pa < tcm + 0x10000 ∧ bare
      let ram (a : Nat) := (0x100000 ≤ a ∧ a < 0x200000) ∨ (0x200000 ≤ a ∧ a < 0x2A0000 ∧ (a - 0x200000) % 0x20000 < 0x10000)
      let mine (x : StoreEnt) : Bool := x.core == (k : Nat)
      let size := if (k : Nat) = 5 then 8 else 4
      (0 ≤ va) ∧ (va < 0x1000000) ∧ (ram pa) ∧ (((k : Nat) = 5 ∨ b.nat .tcmOf k < 5)) ∧ ((if (k : Nat) = 5 then b.get .XC_MMU_TEN = 0 else
        b.get .XC_MPUCTL_EN k = 0)) ∧ (¬direct) ∧ (size ≤ (b.stores.filter mine).length)) ∧
  (∃ (k : CoreId) (va : Int) (b : State),
      let tcm := 0x200000 + 0x20000 * b.nat .tcmOf k
      let pa : Nat := if (k : Nat) ≠ 5 ∧ va < 0x10000 then tcm + va.toNat else va.toNat
      let ram (a : Nat) := (0x100000 ≤ a ∧ a < 0x200000) ∨ (0x200000 ≤ a ∧ a < 0x2A0000 ∧ (a - 0x200000) % 0x20000 < 0x10000)
      let mine (x : StoreEnt) : Bool := x.core == (k : Nat)
      (0 ≤ va) ∧ (va < 0x1000000) ∧ (ram pa) ∧ (((k : Nat) = 5 ∨ b.nat .tcmOf k < 5)) ∧ ((if (k : Nat) = 5 then b.get .XC_MMU_TEN = 0 else
        b.get .XC_MPUCTL_EN k = 0)) ∧ (b.stores.all (fun x => !mine x) = true)) := by
  refine ⟨⟨0, 0x300, (tc []), ?_⟩,
    ⟨0, 0x300, (tc [(.memBad, 1, 0x200300, 0)]), ?_⟩,
    ⟨5, 0x100010, (mc [(.dcOn, 1, 0x100010, 0)]), ?_⟩,
    ⟨0, 0x300, (tc []), ?_⟩,
    ⟨0, 0x300, 0#16, [], { tc [] with stores := [⟨0, [(0x200300, 0)], 0x300, true, false⟩] }, ?_⟩,
    ⟨0, 0x300, (tc []), ?_⟩,
    ⟨5, 0x100010, (mc []), ?_⟩,
    ⟨5, 0x100010, { mc [] with stores := List.replicate 8 ⟨5, [(0x100020, 0)], 0x100020, true, false⟩ }, ?_⟩,
    ⟨0, 0x300, (tc []), ?_⟩⟩ <;>
    (try dsimp only) <;> decide +kernel

theorem witness_AddressArithmetic :
  (∃ (k : CoreId) (s : State),
      let b := s.atBoundary k
      (b.Ready k 1 true)) := by
  refine ⟨5, (mk [(.fqLen, 8, 5, 0), (.coreOn, 1, 5, 0)]), ?_⟩ <;>
    (try dsimp only) <;> (repeat' first | decide +kernel | apply And.intro) <;> first
      | ((with_reducible refine ready_of ?_) <;> decide +kernel)
      | decide +kernel

theorem witness_TransfersOfControl :
  (∃ (k : CoreId) (s : State),
      let b0 := s.atBoundary k
      let u0 := retireAll b0 k
      (canIssue b0 k = true) ∧ (u0.Ready k 1 false)) ∧
  (∃ (k : CoreId) (c3 : Fin 8) (s : State),
      let b0 := s.atBoundary k
      let u0 := retireAll b0 k
      let flag (f : Fld) : Bool := u0.get f k != 0
      let N := flag .swN
      let Z := flag .swZ
      let C := flag .swC
      let V := flag .swV
      let short : List Bool := [Z, !Z, C, !C, N != V, N == V, Z || N != V, !Z && N == V]
      (canIssue b0 k = true) ∧ (u0.Ready k 1 false) ∧ (short[(c3 : Nat)]? = some true)) ∧
  (∃ (k : CoreId) (c3 : Fin 8) (s : State),
      let b0 := s.atBoundary k
      let u0 := retireAll b0 k
      let flag (f : Fld) : Bool := u0.get f k != 0
      let N := flag .swN
      let Z := flag .swZ
      let C := flag .swC
      let V := flag .swV
      let short : List Bool := [Z, !Z, C, !C, N != V, N == V, Z || N != V, !Z && N == V]
      (canIssue b0 k = true) ∧ (u0.Ready k 1 false) ∧ (short[(c3 : Nat)]? = some false)) ∧
  (∃ (k : CoreId) (c4 : Fin 16) (s : State),
      let b0 := s.atBoundary k
      let u0 := retireAll b0 k
      let flag (f : Fld) : Bool := u0.get f k != 0
      let N := flag .swN
      let Z := flag .swZ
      let C := flag .swC
      let V := flag .swV
      let table : List Bool := [Z, !Z, C, !C, N, !N, V, !V, C && !Z, !C || Z, N == V, N != V, !Z && N == V, Z || N != V, true]
      (canIssue b0 k = true) ∧ (u0.Ready k 2 false) ∧ (table[(c4 : Nat)]? = some true)) ∧
  (∃ (k : CoreId) (c4 : Fin 16) (s : State),
      let b0 := s.atBoundary k
      let u0 := retireAll b0 k
      let flag (f : Fld) : Bool := u0.get f k != 0
      let N := flag .swN
      let Z := flag .swZ
      let C := flag .swC
      let V := flag .swV
      let table : List Bool := [Z, !Z, C, !C, N, !N, V, !V, C && !Z, !C || Z, N == V, N != V, !Z && N == V, Z || N != V, true]
      (canIssue b0 k = true) ∧ (u0.Ready k 2 false) ∧ (table[(c4 : Nat)]? = some false)) ∧
  (∃ (k : CoreId) (c4 : Fin 16) (s : State),
      let b0 := s.atBoundary k
      let u0 := retireAll b0 k
      (canIssue b0 k = true) ∧ (u0.Ready k 2 false) ∧ ((c4 : Nat) = 15)) ∧
  (∃ (k : CoreId) (s : State),
      let b0 := s.atBoundary k
      (b0.Ready k 1 false)) ∧
  (∃ (k : CoreId) (lo : Int) (hi : Int) (s : State) (t : State),
      let b0 := s.atBoundary k
      let fetched (x : State) (len : Nat) : State := x.fetched k len
      let b := fetched b0 1
      let sp := pReg b0 k 7
      let sup := supervisor b0 k
      (b0.Ready k 1 false) ∧ (load b k sup sp 2 = (.ok [lo, hi], t)) ∧ (t.get .coreOn k ≠ 0)) ∧
  (∃ (k : CoreId) (e : Exc) (s : State) (t : State),
      let b0 := s.atBoundary k
      let fetched (x : State) (len : Nat) : State := x.fetched k len
      let b := fetched b0 1
      let sp := pReg b0 k 7
      let sup := supervisor b0 k
      (b0.Ready k 1 false) ∧ (load b k sup sp 2 = (.error e, t)) ∧ (t.get .coreOn k ≠ 0)) ∧
  (∃ (k : CoreId) (s : State),
      let b0 := s.atBoundary k
      (b0.Ready k 2 false)) := by
  refine ⟨⟨5, (mk [(.fqLen, 8, 5, 0), (.coreOn, 1, 5, 0)]), ?_⟩,
    ⟨5, 4, (mk [(.fqLen, 8, 5, 0), (.coreOn, 1, 5, 0), (.divOn, 1, 5, 0), (.divV, 1000, 5, 0)]), ?_⟩,
    ⟨5, 0, (mk [(.fqLen, 8, 5, 0), (.coreOn, 1, 5, 0)]), ?_⟩,
    ⟨5, 10, (mk [(.fqLen, 8, 5, 0), (.coreOn, 1, 5, 0)]), ?_⟩,
    ⟨5, 8, (mk [(.fqLen, 8, 5, 0), (.coreOn, 1, 5, 0)]), ?_⟩,
    ⟨5, 15, (mk [(.fqLen, 8, 5, 0), (.coreOn, 1, 5, 0)]), ?_⟩,
    ⟨5, (mk [(.fqLen, 8, 5, 0), (.coreOn, 1, 5, 0)]), ?_⟩,
    ⟨0, 0, 0, (tc [(.coreP, 0x200, 0, 7)]), (((tc [(.coreP, 0x200, 0, 7)]).atBoundary 0).fetched 0 1), ?_⟩,
    ⟨0, ⟨6, 0, false, 0x80000⟩, (tc [(.coreP, 0x80000, 0, 7)]), (((tc [(.coreP, 0x80000, 0, 7)]).atBoundary 0).fetched 0 1), ?_⟩,
    ⟨5, (mk [(.fqLen, 8, 5, 0), (.coreOn, 1, 5, 0)]), ?_⟩⟩ <;>
    (try dsimp only) <;> (repeat' first | decide +kernel | apply And.intro) <;> first
      | ((with_reducible refine ok_eq ?_ ?_) <;> decide +kernel)
      | ((with_reducible refine err_eq ?_ ?_) <;> decide +kernel)
      | ((with_reducible refine ready_of ?_) <;> decide +kernel)
      | decide +kernel

theorem witness_RepAndLoop :
  (∃ (k : CoreId) (t : State),
      (t.get .repOn k = 0)) ∧
  (∃ (k : CoreId) (t : State),
      (t.get .repOn k ≠ 0) ∧ (1 < t.get .repCnt k (bankOf t k))) ∧
  (∃ (k : CoreId) (t : State),
      (t.get .repOn k ≠ 0) ∧ (t.get .repCnt k (bankOf t k) ≤ 1)) ∧
  (∃ (k : CoreId) (ok : Bool) (s : State),
      let b0 := s.atBoundary k
      let b := b0.fetched k 1
      let last := b.get .loopOn k ≠ 0 ∧ b.get .loopEnd k = pcOf b k
      (b0.Ready k 1 false) ∧ (ok = false ∨ last)) ∧
  (∃ (k : CoreId) (n : Option (Fin 512)) (ok : Bool) (s : State),
      let b0 := s.atBoundary k
      let b := b0.fetched k 1
      let bank := bankOf b k
      let count : Int := match n with
          | some n => (n : Nat) + 1
          | none => b.get .coreRc k bank
      let last := b.get .loopOn k ≠ 0 ∧ b.get .loopEnd k = pcOf b k
      (b0.Ready k 1 false) ∧ (ok = true) ∧ (¬last) ∧ (count = 0)) ∧
  (∃ (k : CoreId) (n : Option (Fin 512)) (ok : Bool) (s : State),
      let b0 := s.atBoundary k
      let b := b0.fetched k 1
      let bank := bankOf b k
      let count : Int := match n with
          | some n => (n : Nat) + 1
          | none => b.get .coreRc k bank
      let last := b.get .loopOn k ≠ 0 ∧ b.get .loopEnd k = pcOf b k
      (b0.Ready k 1 false) ∧ (ok = true) ∧ (¬last) ∧ (count ≠ 0)) ∧
  (∃ (k : CoreId) (w : BitVec 16) (s : State),
      let b0 := s.atBoundary k
      (b0.Ready k 2 false) ∧ (b0.get .loopOn k ≠ 0 ∨ w = 0)) ∧
  (∃ (k : CoreId) (m : Sum (Fin 512) (Fin 8)) (w : BitVec 16) (s : State),
      let b0 := s.atBoundary k
      let b := b0.fetched k 1
      let times : Int := match m with
          | .inl c => (c : Nat) + 1
          | .inr r => dReg b k r
      (b0.Ready k 2 false) ∧ (b0.get .loopOn k = 0) ∧ (w ≠ 0) ∧ (times = 0)) ∧
  (∃ (k : CoreId) (m : Sum (Fin 512) (Fin 8)) (w : BitVec 16) (s : State),
      let b0 := s.atBoundary k
      let b := b0.fetched k 1
      let times : Int := match m with
          | .inl c => (c : Nat) + 1
          | .inr r => dReg b k r
      (b0.Ready k 2 false) ∧ (b0.get .loopOn k = 0) ∧ (w ≠ 0) ∧ (times ≠ 0)) := by
  refine ⟨⟨5, (mk []), ?_⟩,
    ⟨5, (mk [(.repCnt, 3, 5, 0), (.repOn, 1, 5, 0)]), ?_⟩,
    ⟨0, (mk [(.repOn, 1, 0, 0)]), ?_⟩,
    ⟨5, false, (mk [(.fqLen, 8, 5, 0), (.coreOn, 1, 5, 0)]), ?_⟩,
    ⟨5, none, true, (mk [(.fqLen, 8, 5, 0), (.coreOn, 1, 5, 0)]), ?_⟩,
    ⟨5, ((some 209)), true, (mk [(.fqLen, 8, 5, 0), (.coreOn, 1, 5, 0)]), ?_⟩,
    ⟨0, 0x0000#16, (mk [(.fqLen, 8, 0, 0), (.coreOn, 1, 0, 0)]), ?_⟩,
    ⟨5, ((Sum.inr 5)), 0x000c#16, (mk [(.fqLen, 8, 5, 0), (.coreOn, 1, 5, 0)]), ?_⟩,
    ⟨5, ((Sum.inl 64)), 0x000c#16, (mk [(.fqLen, 8, 5, 0), (.coreOn, 1, 5, 0)]), ?_⟩⟩ <;>
    (try dsimp only) <;> (repeat' first | decide +kernel | apply And.intro) <;> first
      | ((with_reducible refine ready_of ?_) <;> decide +kernel)
      | decide +kernel

theorem witness_BlockInstructions :
  (∃ (k : CoreId) (p : Fin 8) (q : Fin 8) (s : State),
      let b0 := s.atBoundary k
      (b0.Ready k 1 false) ∧ (p = q)) ∧
  (∃ (k : CoreId) (v : Fin 8) (c : Fin 4) (s : State),
      let b0 := s.atBoundary k
      (b0.Ready k 1 false) ∧ ((v : Nat) = (c : Nat))) ∧
  (∃ (k : CoreId) (w : Fin 4) (s : State),
      let b0 := s.atBoundary k
      (b0.Ready k 1 false) ∧ (2 ≤ (w : Nat))) ∧
  (∃ (k : CoreId) (p : Fin 8) (q : Fin 8) (c : Fin 4) (s : State),
      let b0 := s.atBoundary k
      let b := b0.fetched k 1
      let n := dReg b k c
      (b0.Ready k 1 false) ∧ (n = 0) ∧ (p ≠ q)) ∧
  (∃ (k : CoreId) (v : Fin 8) (c : Fin 4) (s : State),
      let b0 := s.atBoundary k
      let b := b0.fetched k 1
      let n := dReg b k c
      (b0.Ready k 1 false) ∧ (n = 0) ∧ ((v : Nat) ≠ (c : Nat))) ∧
  (∃ (k : CoreId) (c : Fin 4) (w : Fin 4) (s : State),
      let b0 := s.atBoundary k
      let b := b0.fetched k 1
      let n := dReg b k c
      (b0.Ready k 1 false) ∧ (n = 0) ∧ ((w : Nat) < 2)) ∧
  (∃ (k : CoreId) (p : Fin 8) (q : Fin 8) (c : Fin 4) (e : Exc) (s : State) (u : State),
      let b0 := s.atBoundary k
      let b := b0.fetched k 1
      let n := dReg b k c
      let P (m : Fin 8) := pReg b k m
      let sup := supervisor b k
      let gap := (P p - P q) % 2 ^ 24
      let down := 0 < gap ∧ gap < n
      let off := if down then n - 1 else 0
      let src := (P q + off) % 2 ^ 24
      (b0.Ready k 1 false) ∧ (n ≠ 0) ∧ (p ≠ q) ∧ (load b k sup src 1 = (.error e, u))) ∧
  (∃ (k : CoreId) (p : Fin 8) (q : Fin 8) (c : Fin 4) (x : Int) (e : Exc) (s : State) (t' : State) (u : State),
      let b0 := s.atBoundary k
      let b := b0.fetched k 1
      let n := dReg b k c
      let P (m : Fin 8) := pReg b k m
      let sup := supervisor b k
      let gap := (P p - P q) % 2 ^ 24
      let down := 0 < gap ∧ gap < n
      let off := if down then n - 1 else 0
      let src := (P q + off) % 2 ^ 24
      let dst := (P p + off) % 2 ^ 24
      (b0.Ready k 1 false) ∧ (n ≠ 0) ∧ (p ≠ q) ∧ (load b k sup src 1 = (.ok [x], u)) ∧ (store u k (supervisor u k) dst [x] = (.error e,
        t'))) ∧
  (∃ (k : CoreId) (p : Fin 8) (q : Fin 8) (c : Fin 4) (x : Int) (s : State) (t : State) (t' : State) (u : State),
      let b0 := s.atBoundary k
      let b := b0.fetched k 1
      let n := dReg b k c
      let P (m : Fin 8) := pReg b k m
      let sup := supervisor b k
      let gap := (P p - P q) % 2 ^ 24
      let down := 0 < gap ∧ gap < n
      let off := if down then n - 1 else 0
      let src := (P q + off) % 2 ^ 24
      let dst := (P p + off) % 2 ^ 24
      (b0.Ready k 1 false) ∧ (n ≠ 0) ∧ (p ≠ q) ∧ (load b k sup src 1 = (.ok [x], u)) ∧ (store u k (supervisor u k) dst [x] = (.ok t, t')))
        ∧
  (∃ (k : CoreId) (p : Fin 8) (v : Fin 8) (c : Fin 4) (e : Exc) (s : State) (t' : State),
      let b0 := s.atBoundary k
      let b := b0.fetched k 1
      let n := dReg b k c
      let P (m : Fin 8) := pReg b k m
      let sup := supervisor b k
      (b0.Ready k 1 false) ∧ (n ≠ 0) ∧ ((v : Nat) ≠ (c : Nat)) ∧ (store b k sup (P p) [dReg b k v] = (.error e, t'))) ∧
  (∃ (k : CoreId) (p : Fin 8) (v : Fin 8) (c : Fin 4) (s : State) (t : State) (t' : State),
      let b0 := s.atBoundary k
      let b := b0.fetched k 1
      let n := dReg b k c
      let P (m : Fin 8) := pReg b k m
      let sup := supervisor b k
      (b0.Ready k 1 false) ∧ (n ≠ 0) ∧ ((v : Nat) ≠ (c : Nat)) ∧ (store b k sup (P p) [dReg b k v] = (.ok t, t'))) ∧
  (∃ (k : CoreId) (q : Fin 8) (c : Fin 4) (w : Fin 4) (e : Exc) (s : State) (u' : State),
      let b0 := s.atBoundary k
      let b := b0.fetched k 1
      let n := dReg b k c
      let P (m : Fin 8) := pReg b k m
      let sup := supervisor b k
      (b0.Ready k 1 false) ∧ (n ≠ 0) ∧ ((w : Nat) < 2) ∧ (load b k sup (P q) 1 = (.error e, u'))) ∧
  (∃ (k : CoreId) (q : Fin 8) (c : Fin 4) (w : Fin 4) (x : Int) (s : State) (u' : State),
      let b0 := s.atBoundary k
      let b := b0.fetched k 1
      let n := dReg b k c
      let P (m : Fin 8) := pReg b k m
      let sup := supervisor b k
      (b0.Ready k 1 false) ∧ (n ≠ 0) ∧ ((w : Nat) < 2) ∧ (load b k sup (P q) 1 = (.ok [x], u'))) := by
  refine ⟨⟨4, 3, 3, (mk [(.fqLen, 8, 4, 0), (.coreOn, 1, 4, 0)]), ?_⟩,
    ⟨4, 3, 3, (mk [(.fqLen, 8, 4, 0), (.coreOn, 1, 4, 0)]), ?_⟩,
    ⟨4, 3, (mk [(.fqLen, 8, 4, 0), (.coreOn, 1, 4, 0)]), ?_⟩,
    ⟨5, 0, 3, 2, (mk [(.fqLen, 8, 5, 0), (.coreOn, 1, 5, 0)]), ?_⟩,
    ⟨5, 5, 2, (mk [(.fqLen, 8, 5, 0), (.coreOn, 1, 5, 0)]), ?_⟩,
    ⟨0, 0, 0, (tc []), ?_⟩,
    ⟨0, 0, 1, 0, ⟨6, 0, false, 0x80000⟩, (tc [(.coreD, 1, 0, 0), (.coreP, 0x80000, 0, 1)]), (((tc [(.coreD, 1, 0, 0), (.coreP, 0x80000, 0,
      1)]).atBoundary 0).fetched 0 1), ?_⟩,
    ⟨0, 0, 1, 0, 0, ⟨excProt, 0, true, 0x80000⟩, (tc [(.coreD, 1, 0, 0), (.coreP, 0x80000, 0, 0), (.coreP, 0x300, 0, 1), (.XC_MPUCTL_EN,
      1, 0, 0), (.MPU_BASE_EN, 1, 0, 0), (.MPU_LIM, 0x3FF, 0, 0), (.MPU_BASE_R, 1, 0, 0), (.MPU_BASE_X, 1, 0, 0)]), (((tc [(.coreD, 1, 0,
      0), (.coreP, 0x80000, 0, 0), (.coreP, 0x300, 0, 1), (.XC_MPUCTL_EN, 1, 0, 0), (.MPU_BASE_EN, 1, 0, 0), (.MPU_LIM, 0x3FF, 0, 0),
      (.MPU_BASE_R, 1, 0, 0), (.MPU_BASE_X, 1, 0, 0)]).atBoundary 0).fetched 0 1), (((tc [(.coreD, 1, 0, 0), (.coreP, 0x80000, 0, 0),
      (.coreP, 0x300, 0, 1), (.XC_MPUCTL_EN, 1, 0, 0), (.MPU_BASE_EN, 1, 0, 0), (.MPU_LIM, 0x3FF, 0, 0), (.MPU_BASE_R, 1, 0, 0),
      (.MPU_BASE_X, 1, 0, 0)]).atBoundary 0).fetched 0 1), ?_⟩,
    ⟨0, 0, 1, 0, 0, (tc [(.coreD, 1, 0, 0), (.coreP, 0x310, 0, 0), (.coreP, 0x300, 0, 1)]), (((tc [(.coreD, 1, 0, 0), (.coreP, 0x310, 0,
      0), (.coreP, 0x300, 0, 1)]).atBoundary 0).fetched 0 1), (((tc [(.coreD, 1, 0, 0), (.coreP, 0x310, 0, 0), (.coreP, 0x300, 0,
      1)]).atBoundary 0).fetched 0 1), (((tc [(.coreD, 1, 0, 0), (.coreP, 0x310, 0, 0), (.coreP, 0x300, 0, 1)]).atBoundary 0).fetched 0
      1), ?_⟩,
    ⟨0, 0, 1, 0, ⟨excProt, 0, true, 0x80000⟩, (tc [(.coreD, 1, 0, 0), (.coreP, 0x80000, 0, 0), (.XC_MPUCTL_EN, 1, 0, 0), (.MPU_BASE_EN, 1,
      0, 0), (.MPU_LIM, 0x3FF, 0, 0), (.MPU_BASE_R, 1, 0, 0), (.MPU_BASE_X, 1, 0, 0)]), (((tc [(.coreD, 1, 0, 0), (.coreP, 0x80000, 0, 0),
      (.XC_MPUCTL_EN, 1, 0, 0), (.MPU_BASE_EN, 1, 0, 0), (.MPU_LIM, 0x3FF, 0, 0), (.MPU_BASE_R, 1, 0, 0), (.MPU_BASE_X, 1, 0,
      0)]).atBoundary 0).fetched 0 1), ?_⟩,
    ⟨0, 0, 1, 0, (tc [(.coreD, 1, 0, 0), (.coreP, 0x310, 0, 0)]), (((tc [(.coreD, 1, 0, 0), (.coreP, 0x310, 0, 0)]).atBoundary 0).fetched
      0 1), (((tc [(.coreD, 1, 0, 0), (.coreP, 0x310, 0, 0)]).atBoundary 0).fetched 0 1), ?_⟩,
    ⟨0, 0, 0, 0, ⟨6, 0, false, 0x80000⟩, (tc [(.coreD, 1, 0, 0), (.coreP, 0x80000, 0, 0)]), (((tc [(.coreD, 1, 0, 0), (.coreP, 0x80000, 0,
      0)]).atBoundary 0).fetched 0 1), ?_⟩,
    ⟨0, 0, 0, 0, 0, (tc [(.coreD, 1, 0, 0), (.coreP, 0x310, 0, 0)]), (((tc [(.coreD, 1, 0, 0), (.coreP, 0x310, 0, 0)]).atBoundary
      0).fetched 0 1), ?_⟩⟩ <;>
    (try dsimp only) <;> (repeat' first | decide +kernel | apply And.intro) <;> first
      | ((with_reducible refine ok_eq ?_ ?_) <;> decide +kernel)
      | ((with_reducible refine err_eq ?_ ?_) <;> decide +kernel)
      | ((with_reducible refine ready_of ?_) <;> decide +kernel)
      | decide +kernel

theorem witness_SystemInstructions :
  (∃ (k : CoreId) (s : State),
      let b0 := s.atBoundary k
      let u0 := retireAll (drainAll b0 k) k
      (canIssue b0 k = true) ∧ (u0.Ready k 1 false)) ∧
  (∃ (k : CoreId) (s : State),
      let b0 := s.atBoundary k
      let u0 := retireAll (drainAll b0 k) k
      let u := u0.fetched k 1
      (canIssue b0 k = true) ∧ (u0.Ready k 1 false) ∧ (supervisor u k = true)) ∧
  (∃ (k : CoreId) (s : State),
      let b0 := s.atBoundary k
      let u0 := retireAll (drainAll b0 k) k
      let u := u0.fetched k 1
      (canIssue b0 k = true) ∧ (u0.Ready k 1 false) ∧ (supervisor u k = false)) ∧
  (∃ (k : CoreId) (s : State),
      let b0 := s.atBoundary k
      (b0.Ready k 1 false)) ∧
  (∃ (k : CoreId) (s : State),
      let b0 := s.atBoundary k
      let b := b0.fetched k 1
      (b0.Ready k 1 false) ∧ ((drainAll b k).get .coreOn k ≠ 0) ∧ ((k : Nat) ≠ 5)) ∧
  (∃ (k : CoreId) (s : State),
      let b0 := s.atBoundary k
      let b := b0.fetched k 1
      (b0.Ready k 1 false) ∧ ((drainAll b k).get .coreOn k ≠ 0) ∧ ((k : Nat) = 5)) ∧
  (∃ (k : CoreId) (s : State),
      let b0 := s.atBoundary k
      let b := b0.fetched k 1
      (b0.Ready k 1 false) ∧ (b.get .evLatch k ≠ 0)) ∧
  (∃ (k : CoreId) (s : State),
      let b0 := s.atBoundary k
      let b := b0.fetched k 1
      (b0.Ready k 1 false) ∧ (b.get .evLatch k = 0)) ∧
  (∃ (k : CoreId) (n : Fin 8) (s : State),
      let b0 := s.atBoundary k
      let b := b0.fetched k 1
      let due (x : State) (n : Nat) : Prop := let d := (dReg x k n - x.get .tick) % 65536; d = 0 ∨ 32768 ≤ d
      (b0.Ready k 1 false) ∧ (due b n)) ∧
  (∃ (k : CoreId) (n : Fin 8) (s : State),
      let b0 := s.atBoundary k
      let b := b0.fetched k 1
      let due (x : State) (n : Nat) : Prop := let d := (dReg x k n - x.get .tick) % 65536; d = 0 ∨ 32768 ≤ d
      (b0.Ready k 1 false) ∧ (¬due b n)) ∧
  (∃ (k : CoreId) (n : Fin 8) (ch : Channel) (s : State),
      let b0 := s.atBoundary k
      let b := b0.fetched k 1
      let c := (dReg b k n % 64).toNat
      let may (c : Nat) := coreMayPublish b k (supervisor b k) c = true
      (b0.Ready k 1 false) ∧ (may ch)) ∧
  (∃ (k : CoreId) (n : Fin 8) (ch : Channel) (s : State),
      let b0 := s.atBoundary k
      let b := b0.fetched k 1
      let c := (dReg b k n % 64).toNat
      let may (c : Nat) := coreMayPublish b k (supervisor b k) c = true
      (b0.Ready k 1 false) ∧ (¬may ch)) ∧
  (∃ (k : CoreId) (n : Fin 8) (s : State),
      let b0 := s.atBoundary k
      let b := b0.fetched k 1
      let c := (dReg b k n % 64).toNat
      let may (c : Nat) := coreMayPublish b k (supervisor b k) c = true
      (b0.Ready k 1 false) ∧ (may c)) ∧
  (∃ (k : CoreId) (n : Fin 8) (s : State),
      let b0 := s.atBoundary k
      let b := b0.fetched k 1
      let c := (dReg b k n % 64).toNat
      let may (c : Nat) := coreMayPublish b k (supervisor b k) c = true
      (b0.Ready k 1 false) ∧ (¬may c)) ∧
  (∃ (k : CoreId) (s : State),
      let runs := coreRuns s k = true
      (runs) ∧ (s.get .coreWait k = 1) ∧ (s.get .evLatch k ≠ 0) ∧ (¬((k : Nat) = 5 ∧ s.get .PW_CTRL_SLEEP ≠ 0))) ∧
  (∃ (k : CoreId) (s : State),
      let runs := coreRuns s k = true
      (runs) ∧ (s.get .coreWait k = 1) ∧ (s.get .evLatch k ≠ 0) ∧ ((k : Nat) = 5) ∧ (s.get .PW_CTRL_SLEEP ≠ 0)) ∧
  (∃ (k : CoreId) (s : State),
      let runs := coreRuns s k = true
      (¬runs ∨ s.get .coreWait k ≠ 1 ∨ s.get .evLatch k = 0)) ∧
  (∃ (k : CoreId) (n : Fin 8) (s : State),
      let due (x : State) (n : Nat) : Prop := let d := (dReg x k n - x.get .tick) % 65536; d = 0 ∨ 32768 ≤ d
      let runs := coreRuns s k = true
      (runs) ∧ (s.get .coreWait k = 2) ∧ (due s (s.nat .waitReg k))) ∧
  (∃ (k : CoreId) (n : Fin 8) (s : State),
      let due (x : State) (n : Nat) : Prop := let d := (dReg x k n - x.get .tick) % 65536; d = 0 ∨ 32768 ≤ d
      let runs := coreRuns s k = true
      (¬runs ∨ s.get .coreWait k ≠ 2 ∨ ¬due s (s.nat .waitReg k))) := by
  refine ⟨⟨5, (mk [(.fqLen, 8, 5, 0), (.coreOn, 1, 5, 0)]), ?_⟩,
    ⟨5, (mk [(.fqLen, 8, 5, 0), (.coreOn, 1, 5, 0)]), ?_⟩,
    ⟨5, (mk [(.fqLen, 8, 5, 0), (.swPriv, 0, 5, 0), (.coreOn, 1, 5, 0)]), ?_⟩,
    ⟨5, (mk [(.fqLen, 8, 5, 0), (.coreOn, 1, 5, 0)]), ?_⟩,
    ⟨4, (mk [(.fqLen, 8, 4, 0), (.coreOn, 1, 4, 0)]), ?_⟩,
    ⟨5, (mk [(.fqLen, 8, 5, 0), (.coreOn, 1, 5, 0)]), ?_⟩,
    ⟨5, (mk [(.fqLen, 8, 5, 0), (.evLatch, 1, 5, 0), (.coreOn, 1, 5, 0)]), ?_⟩,
    ⟨5, (mk [(.fqLen, 8, 5, 0), (.coreOn, 1, 5, 0)]), ?_⟩,
    ⟨5, 0, (mk [(.fqLen, 8, 5, 0), (.coreOn, 1, 5, 0)]), ?_⟩,
    ⟨5, 0, (mk [(.fqLen, 8, 5, 0), (.coreD, 5, 5, 0), (.coreOn, 1, 5, 0)]), ?_⟩,
    ⟨5, 0, 1, (mk [(.fqLen, 8, 5, 0), (.EV_CHCFG_OWNER, 5, 1, 0), (.coreOn, 1, 5, 0)]), ?_⟩,
    ⟨5, 0, 1, (mk [(.fqLen, 8, 5, 0), (.coreOn, 1, 5, 0)]), ?_⟩,
    ⟨0, 0, (tc []), ?_⟩,
    ⟨5, 0, (mk [(.fqLen, 8, 5, 0), (.coreOn, 1, 5, 0)]), ?_⟩,
    ⟨0, (mk [(.fqLen, 8, 0, 0), (.evLatch, 65536, 0, 0), (.coreOn, 1, 0, 0), (.coreWait, 1, 0, 0)]), ?_⟩,
    ⟨5, (mk [(.fqLen, 8, 5, 0), (.PW_CTRL_SLEEP, 1, 0, 0), (.evLatch, 1, 5, 0), (.coreOn, 2, 5, 0), (.coreWait, 1, 5, 0)]), ?_⟩,
    ⟨5, (mk []), ?_⟩,
    ⟨4, 5, (mk [(.fqLen, 8, 4, 0), (.coreOn, 1, 4, 0), (.coreWait, 2, 4, 0)]), ?_⟩,
    ⟨5, 0, (mk []), ?_⟩⟩ <;>
    (try dsimp only) <;> (repeat' first | decide +kernel | apply And.intro) <;> first
      | ((with_reducible refine ready_of ?_) <;> decide +kernel)
      | decide +kernel

theorem witness_InstructionBoundary :
  (∃ (k : CoreId) (s : State),
      (s.get .coreOn k = 0 ∨ s.get .coreHalt k ≠ 0 ∨ s.get .coreDbg k ≠ 0 ∨ s.get .coreWait k ≠ 0 ∨ s.get .sleepMode ≠ 0 ∨
    s.get .LS_PAIR_STATE k = 1 ∨ s.get .LS_PAIR_STATE k = 3)) ∧
  (∃ (k : CoreId) (m : Form) (x : CoreTrap) (s : State),
      let b := s.atBoundary k
      let u := settle b k m.use
      let runs := canIssue b k = true ∧ u.get .coreOn k ≠ 0
      (runs) ∧ (firstTrap u k = some x)) ∧
  (∃ (k : CoreId) (m : Form) (e : Exc) (s : State) (v : State),
      let b := s.atBoundary k
      let u := settle b k m.use
      let runs := canIssue b k = true ∧ u.get .coreOn k ≠ 0
      let clear := firstTrap u k = none
      (runs) ∧ (clear) ∧ (fetch u k m.len = (some e, v))) ∧
  (∃ (k : CoreId) (m : Form) (s : State) (v : State),
      let b := s.atBoundary k
      let u := settle b k m.use
      let runs := canIssue b k = true ∧ u.get .coreOn k ≠ 0
      let clear := firstTrap u k = none
      let rep := v.get .repOn k ≠ 0
      let may := m.rep = true ∧ m.len = 1
      (runs) ∧ (clear) ∧ (fetch u k m.len = (none, v)) ∧ (rep) ∧ (¬may)) ∧
  (∃ (k : CoreId) (m : Form) (s : State) (v : State),
      let b := s.atBoundary k
      let u := settle b k m.use
      let runs := canIssue b k = true ∧ u.get .coreOn k ≠ 0
      let clear := firstTrap u k = none
      let rep := v.get .repOn k ≠ 0
      let may := m.rep = true ∧ m.len = 1
      let priv := m.priv = true ∧ (k : Nat) = 5 ∧ v.get .swPriv k = 0
      (runs) ∧ (clear) ∧ (fetch u k m.len = (none, v)) ∧ ((rep → may)) ∧ (priv)) ∧
  (∃ (k : CoreId) (m : Form) (f : State → Res) (s : State) (t : State) (v : State),
      let b := s.atBoundary k
      let u := settle b k m.use
      let runs := canIssue b k = true ∧ u.get .coreOn k ≠ 0
      let clear := firstTrap u k = none
      let rep := v.get .repOn k ≠ 0
      let may := m.rep = true ∧ m.len = 1
      let priv := m.priv = true ∧ (k : Nat) = 5 ∧ v.get .swPriv k = 0
      (runs) ∧ (clear) ∧ (fetch u k m.len = (none, v)) ∧ ((rep → may)) ∧ (¬priv) ∧ (t.get .coreOn k ≠ 0) ∧ (f v = Res.done t)) ∧
  (∃ (k : CoreId) (m : Form) (f : State → Res) (s : State) (t : State) (v : State),
      let b := s.atBoundary k
      let u := settle b k m.use
      let runs := canIssue b k = true ∧ u.get .coreOn k ≠ 0
      let clear := firstTrap u k = none
      let rep := v.get .repOn k ≠ 0
      let may := m.rep = true ∧ m.len = 1
      let priv := m.priv = true ∧ (k : Nat) = 5 ∧ v.get .swPriv k = 0
      (runs) ∧ (clear) ∧ (fetch u k m.len = (none, v)) ∧ ((rep → may)) ∧ (¬priv) ∧ (t.get .coreOn k ≠ 0) ∧ (f v = Res.stay t)) ∧
  (∃ (k : CoreId) (m : Form) (f : State → Res) (s : State) (t : State) (v : State),
      let b := s.atBoundary k
      let u := settle b k m.use
      let runs := canIssue b k = true ∧ u.get .coreOn k ≠ 0
      let clear := firstTrap u k = none
      let rep := v.get .repOn k ≠ 0
      let may := m.rep = true ∧ m.len = 1
      let priv := m.priv = true ∧ (k : Nat) = 5 ∧ v.get .swPriv k = 0
      (runs) ∧ (clear) ∧ (fetch u k m.len = (none, v)) ∧ ((rep → may)) ∧ (¬priv) ∧ (t.get .coreOn k ≠ 0) ∧ (f v = Res.jump t)) ∧
  (∃ (k : CoreId) (m : Form) (f : State → Res) (e : Exc) (s : State) (t : State) (v : State),
      let b := s.atBoundary k
      let u := settle b k m.use
      let runs := canIssue b k = true ∧ u.get .coreOn k ≠ 0
      let clear := firstTrap u k = none
      let rep := v.get .repOn k ≠ 0
      let may := m.rep = true ∧ m.len = 1
      let priv := m.priv = true ∧ (k : Nat) = 5 ∧ v.get .swPriv k = 0
      (runs) ∧ (clear) ∧ (fetch u k m.len = (none, v)) ∧ ((rep → may)) ∧ (¬priv) ∧ (t.get .coreOn k ≠ 0) ∧ (f v = Res.fault e t)) ∧
  (∃ (k : CoreId) (s : State),
      (canIssue s k = false)) ∧
  (∃ (k : CoreId) (m : Form) (x : CoreTrap) (s : State),
      let b := s.atBoundary k
      let u := settle b k m.use
      let runs := canIssue b k = true ∧ u.get .coreOn k ≠ 0
      ((runs ∧ firstTrap u k = some x)) ∧ (m.use = {})) := by
  refine ⟨⟨0, State.reset, ?_⟩,
    ⟨0, {}, ⟨0, 3, false, 0⟩, { tc [] with traps := [⟨0, 3, false, 0⟩] }, ?_⟩,
    ⟨4, (⟨1, false, ⟨[], [], false, false, false, false⟩, true⟩), (⟨5, 0, false, 3145728⟩), (mk [(.coreD, 65534, 0, 0), (.corePc, 3145728,
      1, 0), (.corePc, 3145728, 4, 0), (.swC, 1, 0, 0), (.swN, 1, 0, 0), (.swSat, 100, 1, 0), (.swDzt, 5, 0, 0), (.loopStart, 8, 1, 0),
      (.coreOn, 1, 4, 0), (.divV, 16, 0, 0), (.fqLen, -2, 0, 0)]), (mk [(.coreD, 65534, 0, 0), (.corePc, 3145728, 1, 0), (.corePc,
      3145728, 4, 0), (.swC, 1, 0, 0), (.swN, 1, 0, 0), (.swSat, 100, 1, 0), (.swDzt, 5, 0, 0), (.loopStart, 8, 1, 0), (.coreOn, 1, 4, 0),
      (.divV, 16, 0, 0), (.fqLen, -2, 0, 0)]), ?_⟩,
    ⟨0, {}, (tc [(.repOn, 1, 0, 0)]), (fetch (settle ((tc [(.repOn, 1, 0, 0)]).atBoundary 0) 0 {}) 0 1).2, ?_⟩,
    ⟨5, { (({} : Form)) with priv := true }, (mc [(.swPriv, 0, 5, 0)]), (fetch (settle ((mc [(.swPriv, 0, 5, 0)]).atBoundary 5) 5 {}) 5
      1).2, ?_⟩,
    ⟨0, {}, (fun s => .done s), (tc []), (fetch (settle ((tc []).atBoundary 0) 0 {}) 0 1).2, (fetch (settle ((tc []).atBoundary 0) 0 {}) 0
      1).2, ?_⟩,
    ⟨0, {}, (fun s => .stay s), (tc []), (fetch (settle ((tc []).atBoundary 0) 0 {}) 0 1).2, (fetch (settle ((tc []).atBoundary 0) 0 {}) 0
      1).2, ?_⟩,
    ⟨0, {}, (fun s => .jump s), (tc []), (fetch (settle ((tc []).atBoundary 0) 0 {}) 0 1).2, (fetch (settle ((tc []).atBoundary 0) 0 {}) 0
      1).2, ?_⟩,
    ⟨0, {}, (fun s => .fault ⟨3, 0, false, 0⟩ s), ⟨3, 0, false, 0⟩, (tc []), (fetch (settle ((tc []).atBoundary 0) 0 {}) 0 1).2, (fetch
      (settle ((tc []).atBoundary 0) 0 {}) 0 1).2, ?_⟩,
    ⟨0, State.reset, ?_⟩,
    ⟨0, {}, ⟨0, 3, false, 0⟩, { tc [] with traps := [⟨0, 3, false, 0⟩] }, ?_⟩⟩ <;>
    (try dsimp only) <;> (repeat' apply And.intro) <;> first
      | with_reducible rfl
      | decide +kernel

theorem witness_TickCoreExceptions :
  (∃ (k : CoreId) (s : State),
      let quiet (x : State) : Prop := x.get .divOn k = 0 ∧ x.get .macOn k = 0 ∧ ∀ y ∈ x.traps, y.core ≠ k
      ((k : Nat) ≠ 5) ∧ (quiet s) ∧ (bankOf s k ≠ 2)) ∧
  (∃ (k : CoreId) (s : State),
      let quiet (x : State) : Prop := x.get .divOn k = 0 ∧ x.get .macOn k = 0 ∧ ∀ y ∈ x.traps, y.core ≠ k
      ((k : Nat) ≠ 5) ∧ (quiet s) ∧ (bankOf s k = 2)) ∧
  (∃ (k : CoreId) (s : State),
      let b0 := s.atBoundary k
      ((k : Nat) ≠ 5) ∧ (b0.Ready k 1 false)) ∧
  (∃ (k : CoreId) (s : State),
      ((k : Nat) ≠ 5) ∧ (takesInterrupts s k = false)) ∧
  (∃ (k : CoreId) (s : State),
      ((k : Nat) ≠ 5) ∧ (presented s k = none) ∧ (s.get .irPres k = 0)) ∧
  (∃ (k : CoreId) (src : Nat) (s : State),
      let quiet (x : State) : Prop := x.get .divOn k = 0 ∧ x.get .macOn k = 0 ∧ ∀ y ∈ x.traps, y.core ≠ k
      ((k : Nat) ≠ 5) ∧ (takesInterrupts s k = true) ∧ (quiet s) ∧ (presented s k = some src)) ∧
  (∃ (k : CoreId) (s : State),
      let quiet (x : State) : Prop := x.get .divOn k = 0 ∧ x.get .macOn k = 0 ∧ ∀ y ∈ x.traps, y.core ≠ k
      ((k : Nat) ≠ 5) ∧ (takesInterrupts s k = true) ∧ (quiet s) ∧ (presented s k = none) ∧ (s.get .irPres k ≠ 0)) ∧
  (∃ (k : CoreId) (s : State),
      let b0 := s.atBoundary k
      let u0 := retireAll b0 k
      let u := u0.fetched k 1
      ((k : Nat) ≠ 5) ∧ (canIssue b0 k = true) ∧ (u0.Ready k 1 false) ∧ (bankOf u k = 0)) ∧
  (∃ (k : CoreId) (s : State),
      let b0 := s.atBoundary k
      let u0 := retireAll b0 k
      let u := u0.fetched k 1
      let j := bankOf u k - 1
      let old := u.get .XC_XCAUSE k j
      let v := if bitAt old 7 = true ∧ old / 256 % 256 ≠ 255 then endService u k else u
      let sw := u.get .XC_XSW k j
      let run := v.get .IR_CRUN_RUN k
      ((k : Nat) ≠ 5) ∧ (canIssue b0 k = true) ∧ (u0.Ready k 1 false) ∧ (bankOf u k ≠ 0) ∧ (bitAt sw 7 = false ∨ bestRequest v k run =
        none)) ∧
  (∃ (k : CoreId) (src : Nat) (s : State),
      let b0 := s.atBoundary k
      let u0 := retireAll b0 k
      let u := u0.fetched k 1
      let j := bankOf u k - 1
      let old := u.get .XC_XCAUSE k j
      let v := if bitAt old 7 = true ∧ old / 256 % 256 ≠ 255 then endService u k else u
      let sw := u.get .XC_XSW k j
      let run := v.get .IR_CRUN_RUN k
      ((k : Nat) ≠ 5) ∧ (canIssue b0 k = true) ∧ (u0.Ready k 1 false) ∧ (bankOf u k ≠ 0) ∧ (bitAt sw 7 = true) ∧ (bestRequest v k run =
        some src)) := by
  refine ⟨⟨0, State.reset, ?_⟩,
    ⟨0, (mk [(.XC_STATUS_SB, 2, 0, 0)]), ?_⟩,
    ⟨0, (tc []), ?_⟩,
    ⟨0, State.reset, ?_⟩,
    ⟨0, State.reset, ?_⟩,
    ⟨0, 40, (tc [(.swIe, 1, 0, 0), (.IR_SRCCFG_EN, 1, 40, 0), (.IR_SRCCFG_TGT, 0, 40, 0), (.IR_SRCST_SPEND, 1, 40, 0), (.IR_SRCCFG_PRIO,
      3, 40, 0), (.IR_CRUN_RUN, 16, 0, 0)]), ?_⟩,
    ⟨0, (tc [(.swIe, 1, 0, 0), (.irPres, 1, 0, 0)]), ?_⟩,
    ⟨0, (tc []), ?_⟩,
    ⟨0, (tc [(.XC_STATUS_SB, 1, 0, 0)]), ?_⟩,
    ⟨0, 40, (tc [(.XC_STATUS_SB, 1, 0, 0), (.XC_XSW, 128, 0, 0), (.IR_SRCCFG_EN, 1, 40, 0), (.IR_SRCCFG_TGT, 0, 40, 0), (.IR_SRCST_SPEND,
      1, 40, 0), (.IR_SRCCFG_PRIO, 3, 40, 0), (.IR_CRUN_RUN, 16, 0, 0)]), ?_⟩⟩ <;>
    (try dsimp only) <;> (repeat' first | decide +kernel | apply And.intro) <;> first
      | ((with_reducible refine ready_of ?_) <;> decide +kernel)
      | decide +kernel

theorem witness_ManagementCoreExceptions :
  (∃ (e : Exc) (s : State),
      let sp := s.get .coreP 5 7
      let depth := s.nat .XC_STATUS_DEPTH 5
      let plain (x : State) : Prop := x.get .XC_MMU_TEN = 0 ∧ x.get .XC_STATUS_RM 5 = 0 ∧ x.get .XC_STATUS_MCIP 5 = 0 ∧ x.stores = []
      let quiet (x : State) : Prop := x.get .coreOn 5 ≠ 0 ∧ x.get .divOn 5 = 0 ∧ x.get .macOn 5 = 0 ∧ ∀ y ∈ x.traps, y.core ≠ 5
      let room := 0x10000E ≤ sp ∧ sp ≤ 0x200000
      (quiet s) ∧ (plain s) ∧ (room) ∧ (depth < 32) ∧ (e.vec ≠ 0) ∧ (e.vec ≠ 11)) ∧
  (∃ (e : Exc) (s : State),
      let sp := s.get .coreP 5 7
      let depth := s.nat .XC_STATUS_DEPTH 5
      let plain (x : State) : Prop := x.get .XC_MMU_TEN = 0 ∧ x.get .XC_STATUS_RM 5 = 0 ∧ x.get .XC_STATUS_MCIP 5 = 0 ∧ x.stores = []
      let quiet (x : State) : Prop := x.get .coreOn 5 ≠ 0 ∧ x.get .divOn 5 = 0 ∧ x.get .macOn 5 = 0 ∧ ∀ y ∈ x.traps, y.core ≠ 5
      let room := 0x10000E ≤ sp ∧ sp ≤ 0x200000
      (quiet s) ∧ (plain s) ∧ (room) ∧ (depth < 32) ∧ (e.vec = 11)) ∧
  (∃ (e : Exc) (s : State),
      let depth := s.nat .XC_STATUS_DEPTH 5
      let quiet (x : State) : Prop := x.get .coreOn 5 ≠ 0 ∧ x.get .divOn 5 = 0 ∧ x.get .macOn 5 = 0 ∧ ∀ y ∈ x.traps, y.core ≠ 5
      (quiet s) ∧ (s.get .XC_STATUS_RM 5 = 0) ∧ (32 ≤ depth) ∧ (e.vec ≠ 0)) ∧
  (∃ (s : State),
      let plain (x : State) : Prop := x.get .XC_MMU_TEN = 0 ∧ x.get .XC_STATUS_RM 5 = 0 ∧ x.get .XC_STATUS_MCIP 5 = 0 ∧ x.stores = []
      let b0 := s.atBoundary 5
      let b := b0.fetched 5 1
      (b0.Ready 5 1 false) ∧ (plain b) ∧ (0x10000E ≤ b.get .coreP 5 7) ∧ (b.get .coreP 5 7 ≤ 0x200000) ∧ (b.nat .XC_STATUS_DEPTH 5 < 32))
        ∧
  (∃ (src : Nat) (s : State),
      let sp := s.get .coreP 5 7
      let depth := s.nat .XC_STATUS_DEPTH 5
      let plain (x : State) : Prop := x.get .XC_MMU_TEN = 0 ∧ x.get .XC_STATUS_RM 5 = 0 ∧ x.get .XC_STATUS_MCIP 5 = 0 ∧ x.stores = []
      let quiet (x : State) : Prop := x.get .coreOn 5 ≠ 0 ∧ x.get .divOn 5 = 0 ∧ x.get .macOn 5 = 0 ∧ ∀ y ∈ x.traps, y.core ≠ 5
      let room := 0x10000E ≤ sp ∧ sp ≤ 0x200000
      (takesInterrupts s 5 = true) ∧ (quiet s) ∧ (plain s) ∧ (room) ∧ (depth < 32) ∧ (presented s 5 = some src)) ∧
  (∃ (s : State),
      let b0 := s.atBoundary 5
      let u0 := retireAll b0 5
      let u := u0.fetched 5 1
      let top := u.nat .XC_STATUS_DEPTH 5 - 1
      let deep := u.nat .XC_STATUS_DEPTH 5 ≠ 0
      let kind := u.get .recKind top
      let ready := canIssue b0 5 = true ∧ u0.Ready 5 1 false ∧ u.get .swPriv 5 ≠ 0
      (ready) ∧ (deep) ∧ (kind = 2)) ∧
  (∃ (s : State),
      let b0 := s.atBoundary 5
      let u0 := retireAll b0 5
      let u := u0.fetched 5 1
      let top := u.nat .XC_STATUS_DEPTH 5 - 1
      let deep := u.nat .XC_STATUS_DEPTH 5 ≠ 0
      let kind := u.get .recKind top
      let ready := canIssue b0 5 = true ∧ u0.Ready 5 1 false ∧ u.get .swPriv 5 ≠ 0
      (ready) ∧ (¬deep ∨ kind ≠ 2)) ∧
  (∃ (w : List Int) (s : State) (v : State),
      let b0 := s.atBoundary 5
      let u0 := retireAll b0 5
      let u := u0.fetched 5 1
      let frame := u.get .coreP 5 7
      let top := u.nat .XC_STATUS_DEPTH 5 - 1
      let deep := u.nat .XC_STATUS_DEPTH 5 ≠ 0
      let kind := u.get .recKind top
      let word (i : Nat) := w.getD i 0
      let ready := canIssue b0 5 = true ∧ u0.Ready 5 1 false ∧ u.get .swPriv 5 ≠ 0
      (ready) ∧ (¬deep ∨ kind ≠ 2) ∧ (load u 5 true frame 14 = (.ok w, v)) ∧ (v.get .coreOn 5 ≠ 0) ∧ (w.length = 14) ∧ (deep) ∧ (bitAt
        (word 2) 8 = true) ∧ (v.get .recPriv top = 0)) := by
  refine ⟨⟨⟨3, 0, false, 0⟩, (mc []), ?_⟩,
    ⟨⟨11, 0, false, 0⟩, (mc []), ?_⟩,
    ⟨⟨3, 0, false, 0⟩, (mc [(.XC_STATUS_DEPTH, 32, 5, 0)]), ?_⟩,
    ⟨(mc []), ?_⟩,
    ⟨40, (mc [(.swIe, 1, 5, 0), (.IR_SRCCFG_EN, 1, 40, 0), (.IR_SRCCFG_TGT, 5, 40, 0), (.IR_SRCST_SPEND, 1, 40, 0), (.IR_SRCCFG_PRIO, 3,
      40, 0), (.IR_CRUN_RUN, 16, 5, 0)]), ?_⟩,
    ⟨(mc [(.XC_STATUS_DEPTH, 1, 5, 0), (.recKind, 2, 0, 0)]), ?_⟩,
    ⟨(mc []), ?_⟩,
    ⟨[0, 0, 0x100, 0, 0, 0, 0, 0, 0, 0, 0, 0, 0, 0], { mc [(.XC_STATUS_DEPTH, 1, 5, 0)]
      with stores := [⟨5, ((List.range 14).map (0x100100 + ·)).zip [0, 0, 0x100, 0, 0, 0, 0, 0, 0, 0, 0, 0, 0, 0], 0x100100, true, true⟩] },
      ((retireAll (({ mc [(.XC_STATUS_DEPTH, 1, 5, 0)]
      with stores := [⟨5, ((List.range 14).map (0x100100 + ·)).zip [0, 0, 0x100, 0, 0, 0, 0, 0, 0, 0, 0, 0, 0, 0], 0x100100, true, true⟩] }
      : State).atBoundary 5) 5).fetched 5 1), ?_⟩⟩ <;>
    (try dsimp only) <;> (repeat' first | decide +kernel | apply And.intro) <;> first
      | ((with_reducible refine ok_eq ?_ ?_) <;> decide +kernel)
      | ((with_reducible refine ready_of ?_) <;> decide +kernel)
      | decide +kernel

theorem witness_ManagementCoreExceptions_2 :
  (∃ (w : List Int) (s : State) (v : State),
      let b0 := s.atBoundary 5
      let u0 := retireAll b0 5
      let u := u0.fetched 5 1
      let frame := u.get .coreP 5 7
      let top := u.nat .XC_STATUS_DEPTH 5 - 1
      let deep := u.nat .XC_STATUS_DEPTH 5 ≠ 0
      let kind := u.get .recKind top
      let word (i : Nat) := w.getD i 0
      let ready := canIssue b0 5 = true ∧ u0.Ready 5 1 false ∧ u.get .swPriv 5 ≠ 0
      (ready) ∧ (¬deep ∨ kind ≠ 2) ∧ (load u 5 true frame 14 = (.ok w, v)) ∧ (v.get .coreOn 5 ≠ 0) ∧ (w.length = 14) ∧ (deep) ∧ (v.get
        .recClaim top = 0) ∧ (bitAt (word 2) 8 = false ∨ v.get .recPriv top ≠ 0) ∧ (bitAt (word 2) 7 = false)) ∧
  (∃ (w : List Int) (s : State) (v : State),
      let b0 := s.atBoundary 5
      let u0 := retireAll b0 5
      let u := u0.fetched 5 1
      let frame := u.get .coreP 5 7
      let top := u.nat .XC_STATUS_DEPTH 5 - 1
      let deep := u.nat .XC_STATUS_DEPTH 5 ≠ 0
      let kind := u.get .recKind top
      let word (i : Nat) := w.getD i 0
      let ready := canIssue b0 5 = true ∧ u0.Ready 5 1 false ∧ u.get .swPriv 5 ≠ 0
      (ready) ∧ (deep) ∧ (kind = 2) ∧ (load u 5 true frame 8 = (.ok w, v)) ∧ (v.get .coreOn 5 ≠ 0) ∧ (w.length = 8) ∧ (bitAt (word 6) 8 =
        true) ∧ (v.get .recPriv top = 0)) ∧
  (∃ (w : List Int) (s : State) (v : State),
      let b0 := s.atBoundary 5
      let u0 := retireAll b0 5
      let u := u0.fetched 5 1
      let frame := u.get .coreP 5 7
      let top := u.nat .XC_STATUS_DEPTH 5 - 1
      let deep := u.nat .XC_STATUS_DEPTH 5 ≠ 0
      let kind := u.get .recKind top
      let word (i : Nat) := w.getD i 0
      let ready := canIssue b0 5 = true ∧ u0.Ready 5 1 false ∧ u.get .swPriv 5 ≠ 0
      (ready) ∧ (deep) ∧ (kind = 2) ∧ (load u 5 true frame 8 = (.ok w, v)) ∧ (v.get .coreOn 5 ≠ 0) ∧ (w.length = 8) ∧ (bitAt (word 6) 8 =
        false ∨ v.get .recPriv top ≠ 0)) ∧
  (∃ (s : State) (k : CoreId),
      ((k : Nat) ≠ 5) ∧ (canIssue (s.atBoundary k) k = true) ∧ ((retireAll (s.atBoundary k) k).Ready k 1 false)) ∧
  (∃ (g : BitVec 8) (s : State),
      let b0 := s.atBoundary 5
      let u0 := retireAll b0 5
      let u := u0.fetched 5 1
      (canIssue b0 5 = true) ∧ (u0.Ready 5 1 false) ∧ (¬(0x100000 ≤ u.nat .XC_GTBASE + 16 * g.toNat ∧ u.nat .XC_GTBASE + 16 * g.toNat + 15
        < 0x200000))) ∧
  (∃ (g : BitVec 8) (d : List Int) (s : State) (v : State),
      let b0 := s.atBoundary 5
      let u0 := retireAll b0 5
      let u := u0.fetched 5 1
      (canIssue b0 5 = true) ∧ (u0.Ready 5 1 false) ∧ (gateDescriptor u g.toNat = (.ok d, v)) ∧ (v.get .coreOn 5 ≠ 0) ∧ (bitAt (d.getD 2
        0) 0 = false)) ∧
  (∃ (g : BitVec 8) (d : List Int) (s : State) (v : State),
      let b0 := s.atBoundary 5
      let u0 := retireAll b0 5
      let u := u0.fetched 5 1
      (canIssue b0 5 = true) ∧ (u0.Ready 5 1 false) ∧ (gateDescriptor u g.toNat = (.ok d, v)) ∧ (v.get .coreOn 5 ≠ 0) ∧ (d.getD 2 0 = 1) ∧
        (d.getD 3 0 = 0) ∧ (u.get .swPriv 5 = 0)) ∧
  (∃ (g : BitVec 8) (d : List Int) (s : State) (v : State),
      let plain (x : State) : Prop := x.get .XC_MMU_TEN = 0 ∧ x.get .XC_STATUS_RM 5 = 0 ∧ x.get .XC_STATUS_MCIP 5 = 0 ∧ x.stores = []
      let b0 := s.atBoundary 5
      let u0 := retireAll b0 5
      let u := u0.fetched 5 1
      let frame := u.get .coreP 5 7
      (canIssue b0 5 = true) ∧ (u0.Ready 5 1 false) ∧ (gateDescriptor u g.toNat = (.ok d, v)) ∧ (d.getD 2 0 = 3 ∨ (d.getD 2 0 = 1 ∧ u.get
        .swPriv 5 ≠ 0)) ∧ (d.getD 3 0 = 0) ∧ (plain u) ∧ (u.get .coreOn 5 ≠ 0) ∧ (0x100008 ≤ frame) ∧ (frame ≤ 0x200000) ∧ (u.nat
        .XC_STATUS_DEPTH 5 < 32)) := by
  refine ⟨⟨[0, 0, 0, 0, 0, 0, 0, 0, 0, 0, 0, 0, 0, 0], { mc [(.XC_STATUS_DEPTH, 1, 5, 0)]
    with stores := [⟨5, ((List.range 14).map (0x100100 + ·)).zip [0, 0, 0, 0, 0, 0, 0, 0, 0, 0, 0, 0, 0, 0], 0x100100, true, true⟩] },
    ((retireAll (({ mc [(.XC_STATUS_DEPTH, 1, 5, 0)]
    with stores := [⟨5, ((List.range 14).map (0x100100 + ·)).zip [0, 0, 0, 0, 0, 0, 0, 0, 0, 0, 0, 0, 0, 0], 0x100100, true, true⟩] } :
    State).atBoundary 5) 5).fetched 5 1), ?_⟩,
    ⟨[0, 0, 0, 0, 0, 0, 0x100, 0], { mc [(.XC_STATUS_DEPTH, 1, 5, 0), (.recKind, 2, 0, 0)]
      with stores := [⟨5, ((List.range 8).map (0x100100 + ·)).zip [0, 0, 0, 0, 0, 0, 0x100, 0], 0x100100, true, true⟩] }, ((retireAll (({
      mc [(.XC_STATUS_DEPTH, 1, 5, 0), (.recKind, 2, 0, 0)]
      with stores := [⟨5, ((List.range 8).map (0x100100 + ·)).zip [0, 0, 0, 0, 0, 0, 0x100, 0], 0x100100, true, true⟩] } :
      State).atBoundary 5) 5).fetched 5 1), ?_⟩,
    ⟨[0, 0, 0, 0, 0, 0, 0, 0], { mc [(.XC_STATUS_DEPTH, 1, 5, 0), (.recKind, 2, 0, 0)]
      with stores := [⟨5, ((List.range 8).map (0x100100 + ·)).zip [0, 0, 0, 0, 0, 0, 0, 0], 0x100100, true, true⟩] }, ((retireAll (({ mc
      [(.XC_STATUS_DEPTH, 1, 5, 0), (.recKind, 2, 0, 0)]
      with stores := [⟨5, ((List.range 8).map (0x100100 + ·)).zip [0, 0, 0, 0, 0, 0, 0, 0], 0x100100, true, true⟩] } : State).atBoundary
      5) 5).fetched 5 1), ?_⟩,
    ⟨(tc []), 0, ?_⟩,
    ⟨0, (mc []), ?_⟩,
    ⟨0, (List.replicate 16 0), { mc [(.XC_GTBASE, 0x100400, 0, 0)]
      with stores := [⟨5, ((List.range 16).map (0x100400 + ·)).zip (List.replicate 16 0), 0x100400, true, false⟩] }, ((retireAll (({ mc
      [(.XC_GTBASE, 0x100400, 0, 0)]
      with stores := [⟨5, ((List.range 16).map (0x100400 + ·)).zip (List.replicate 16 0), 0x100400, true, false⟩] } : State).atBoundary 5)
      5).fetched 5 1), ?_⟩,
    ⟨0, (0 :: 0 :: 1 :: List.replicate 13 0), { mc [(.XC_GTBASE, 0x100400, 0, 0), (.swPriv, 0, 5, 0)]
      with stores := [⟨5, ((List.range 16).map (0x100400 + ·)).zip (0 :: 0 :: 1 :: List.replicate 13 0), 0x100400, true, false⟩] },
      ((retireAll (({ mc [(.XC_GTBASE, 0x100400, 0, 0), (.swPriv, 0, 5, 0)]
      with stores := [⟨5, ((List.range 16).map (0x100400 + ·)).zip (0 :: 0 :: 1 :: List.replicate 13 0), 0x100400, true, false⟩] } :
      State).atBoundary 5) 5).fetched 5 1), ?_⟩,
    ⟨0, (0 :: 0 :: 3 :: List.replicate 13 0), gateCore, (gateRead 15), ?_⟩⟩ <;>
    (try dsimp only) <;> (repeat' first | decide +kernel | apply And.intro) <;> first
      | ((with_reducible refine ok_eq ?_ ?_) <;> decide +kernel)
      | ((with_reducible refine gate_eq ?_ ?_ ?_ ?_) <;> decide +kernel)
      | ((with_reducible refine ready_of ?_) <;> decide +kernel)
      | decide +kernel

theorem witness_CustomInstructions :
  (∃ (k : CoreId) (e : Fin 32) (s : State),
      let b0 := s.atBoundary k
      let u0 := retireAll b0 k
      let u := u0.fetched k 1
      let entry := u.get .decCopy k e
      (canIssue b0 k = true) ∧ (u0.Ready k 1 false) ∧ (bitAt entry 10 = false)) ∧
  (∃ (k : CoreId) (e : Fin 32) (s : State),
      let b0 := s.atBoundary k
      let u0 := retireAll b0 k
      let u := u0.fetched k 1
      let entry := u.get .decCopy k e
      (canIssue b0 k = true) ∧ (u0.Ready k 1 false) ∧ (bitAt entry 10 = true) ∧ (bitAt entry 11 = true) ∧ ((k : Nat) ≠ 5)) ∧
  (∃ (k : CoreId) (e : Fin 32) (s : State),
      let b0 := s.atBoundary k
      let u0 := retireAll b0 k
      let u := u0.fetched k 1
      let entry := u.get .decCopy k e
      (canIssue b0 k = true) ∧ (u0.Ready k 1 false) ∧ (bitAt entry 10 = true) ∧ ((bitAt entry 11 = false ∨ (k : Nat) = 5)) ∧ (bitAt entry
        12 = true) ∧ (supervisor u k = false)) ∧
  (∃ (k : CoreId) (e : Fin 32) (x : Fin 8) (y : Fin 8) (z : Fin 8) (s : State),
      let b0 := s.atBoundary k
      let u0 := retireAll b0 k
      let u := u0.fetched k 1
      let entry := u.get .decCopy k e
      let page := (entry / 64 % 16).toNat
      let m := 64 * page + (entry % 64).toNat
      let w := u.get .UC_MW m
      let part (hi lo : Nat) := w / 2 ^ lo % 2 ^ (hi + 1 - lo)
      let allowed := bitAt entry 10 = true ∧ (bitAt entry 11 = false ∨ (k : Nat) = 5) ∧ (bitAt entry 12 = false ∨ supervisor u k = true)
      (canIssue b0 k = true) ∧ (u0.Ready k 1 false) ∧ (allowed) ∧ (u.get .ucBad k m = 0) ∧ (part 28 24 = (x : Nat)) ∧ (part 33 29 = (y :
        Nat)) ∧ (part 38 34 = 2) ∧ (part 43 39 = (z : Nat)) ∧ (part 45 44 = 0) ∧ (bitAt w 47 = false) ∧ (bitAt w 6 = true)) ∧
  (∃ (k : CoreId) (e : Fin 32) (op : BitVec 6) (c : Exc) (s : State) (t : State),
      let b0 := s.atBoundary k
      let u0 := retireAll b0 k
      let u := u0.fetched k 1
      (canIssue b0 k = true) ∧ (u0.Ready k 1 false) ∧ (customRun u k e op.toNat = .fault c t)) ∧
  (∃ (k : CoreId) (e : Fin 32) (op : BitVec 6) (c : Exc) (s : State) (t : State),
      let b0 := s.atBoundary k
      let u0 := retireAll b0 k
      let u := u0.fetched k 1
      (canIssue b0 k = true) ∧ (u0.Ready k 1 false) ∧ (customRun u k e op.toNat = .fault c t)) ∧
  (∃ (k : CoreId) (e : Fin 32) (op : BitVec 6) (c : Exc) (s : State) (t : State),
      let b0 := s.atBoundary k
      let u0 := retireAll b0 k
      let u := u0.fetched k 1
      (canIssue b0 k = true) ∧ (u0.Ready k 1 false) ∧ (customRun u k e op.toNat = .fault c t)) ∧
  (∃ (k : CoreId) (e : Fin 32) (op : BitVec 6) (c : Exc) (s : State) (t : State),
      let b0 := s.atBoundary k
      let u0 := retireAll b0 k
      let u := u0.fetched k 1
      (canIssue b0 k = true) ∧ (u0.Ready k 1 false) ∧ (customRun u k e op.toNat = .fault c t)) := by
  refine ⟨⟨0, 0, (tc []), ?_⟩,
    ⟨0, 0, (tc [(.decCopy, 0xC00, 0, 0)]), ?_⟩,
    ⟨5, 0, (mc [(.swPriv, 0, 5, 0), (.decCopy, 0x1400, 5, 0)]), ?_⟩,
    ⟨0, 0, 0, 0, 0, (tc [(.decCopy, 0x400, 0, 0), (.UC_MW, 2 ^ 35 + 64, 0, 0)]), ?_⟩,
    ⟨0, 0, 0, ⟨6, 0, false, 0x300000⟩, (tc [(.decCopy, 0x400, 0, 0), (.ucBad, 1, 0, 0), (.LS_PAIR_STATE, pairSINGLE, 0, 0)]), (match
      customRun ((retireAll ((tc [(.decCopy, 0x400, 0, 0), (.ucBad, 1, 0, 0), (.LS_PAIR_STATE, pairSINGLE, 0, 0)]).atBoundary 0)
      0).fetched 0 1) 0 0 0 with | .fault _ t => t | _ => State.reset), ?_⟩,
    ⟨0, 0, 0, ⟨6, 0, false, 0x300000⟩, (tc [(.decCopy, 0x400, 0, 0), (.ucBad, 1, 0, 0), (.LS_PAIR_STATE, pairSINGLE, 0, 0)]), (match
      customRun ((retireAll ((tc [(.decCopy, 0x400, 0, 0), (.ucBad, 1, 0, 0), (.LS_PAIR_STATE, pairSINGLE, 0, 0)]).atBoundary 0)
      0).fetched 0 1) 0 0 0 with | .fault _ t => t | _ => State.reset), ?_⟩,
    ⟨0, 0, 0, ⟨6, 0, false, 0x300000⟩, (tc [(.decCopy, 0x400, 0, 0), (.ucBad, 1, 0, 0), (.LS_PAIR_STATE, pairSINGLE, 0, 0)]), (match
      customRun ((retireAll ((tc [(.decCopy, 0x400, 0, 0), (.ucBad, 1, 0, 0), (.LS_PAIR_STATE, pairSINGLE, 0, 0)]).atBoundary 0)
      0).fetched 0 1) 0 0 0 with | .fault _ t => t | _ => State.reset), ?_⟩,
    ⟨0, 0, 0, ⟨6, 0, false, 0x300000⟩, (tc [(.decCopy, 0x400, 0, 0), (.ucBad, 1, 0, 0), (.LS_PAIR_STATE, pairSINGLE, 0, 0)]), (match
      customRun ((retireAll ((tc [(.decCopy, 0x400, 0, 0), (.ucBad, 1, 0, 0), (.LS_PAIR_STATE, pairSINGLE, 0, 0)]).atBoundary 0)
      0).fetched 0 1) 0 0 0 with | .fault _ t => t | _ => State.reset), ?_⟩⟩ <;>
    (try dsimp only) <;> (repeat' first | decide +kernel | apply And.intro) <;> first
      | ((with_reducible refine fault_eq ?_) <;> decide +kernel)
      | ((with_reducible refine ready_of ?_) <;> decide +kernel)
      | decide +kernel

theorem witness_TranslationAndTlb :
  (∃ (s : State),
      let on := s.get .XC_MMU_TEN ≠ 0 ∧ s.get .XC_STATUS_RM 5 = 0
      (¬on)) ∧
  (∃ (va : Int) (i : Nat) (s : State),
      let size (i : Nat) : Nat := if s.get .tlbSz i = 0 then 10 else if s.get .tlbSz i = 1 then 16 else 22
      let hit (i : Nat) : Prop := s.get .tlbV i ≠ 0 ∧ s.get .tlbVpn i / 2 ^ (size i - 10) = va / 2 ^ 10 / 2 ^ (size i - 10) ∧
          (s.get .tlbG i ≠ 0 ∨ s.get .tlbAsid i = s.get .XC_ASID_ASID)
      let on := s.get .XC_MMU_TEN ≠ 0 ∧ s.get .XC_STATUS_RM 5 = 0
      (on) ∧ ((∀ i < 64, ¬hit i))) ∧
  (∃ (va : Int) (i : Nat) (s : State),
      let size (i : Nat) : Nat := if s.get .tlbSz i = 0 then 10 else if s.get .tlbSz i = 1 then 16 else 22
      let hit (i : Nat) : Prop := s.get .tlbV i ≠ 0 ∧ s.get .tlbVpn i / 2 ^ (size i - 10) = va / 2 ^ 10 / 2 ^ (size i - 10) ∧
          (s.get .tlbG i ≠ 0 ∨ s.get .tlbAsid i = s.get .XC_ASID_ASID)
      let on := s.get .XC_MMU_TEN ≠ 0 ∧ s.get .XC_STATUS_RM 5 = 0
      (on) ∧ (i < 64) ∧ (hit i) ∧ ((∀ j < i, ¬hit j))) ∧
  (∃ (va : Int) (i : Nat) (s : State),
      let size (i : Nat) : Nat := if s.get .tlbSz i = 0 then 10 else if s.get .tlbSz i = 1 then 16 else 22
      let hit (i : Nat) : Prop := s.get .tlbV i ≠ 0 ∧ s.get .tlbVpn i / 2 ^ (size i - 10) = va / 2 ^ 10 / 2 ^ (size i - 10) ∧
          (s.get .tlbG i ≠ 0 ∨ s.get .tlbAsid i = s.get .XC_ASID_ASID)
      let on := s.get .XC_MMU_TEN ≠ 0 ∧ s.get .XC_STATUS_RM 5 = 0
      (on) ∧ (i < 64) ∧ (hit i) ∧ ((∀ j < 64, j ≠ i → ¬hit j))) ∧
  (∃ (va : Int) (i : Nat) (s : State),
      let size (i : Nat) : Nat := if s.get .tlbSz i = 0 then 10 else if s.get .tlbSz i = 1 then 16 else 22
      let hit (i : Nat) : Prop := s.get .tlbV i ≠ 0 ∧ s.get .tlbVpn i / 2 ^ (size i - 10) = va / 2 ^ 10 / 2 ^ (size i - 10) ∧
          (s.get .tlbG i ≠ 0 ∨ s.get .tlbAsid i = s.get .XC_ASID_ASID)
      let on := s.get .XC_MMU_TEN ≠ 0 ∧ s.get .XC_STATUS_RM 5 = 0
      (on) ∧ (i < 64) ∧ (hit i) ∧ ((∃ j < 64, j ≠ i ∧ hit j))) ∧
  (∃ (k : CoreId) (s : State),
      ((k : Nat) ≠ 5) ∧ ((s.atBoundary k).Ready k 1 false)) ∧
  (∃ (e : Exc) (s : State),
      let b0 := s.atBoundary 5
      let b := b0.fetched 5 1
      let valid (e : Nat) := bitAt (b.get .decCopy 5 e) 10 = true
      (b0.Ready 5 1 false) ∧ (¬valid 31)) ∧
  (∃ (e : Exc) (s : State),
      let b0 := s.atBoundary 5
      let b := b0.fetched 5 1
      let valid (e : Nat) := bitAt (b.get .decCopy 5 e) 10 = true
      (b0.Ready 5 1 false) ∧ (b.get .swPriv 5 = 0) ∧ (valid 31)) ∧
  (∃ (lvl : Fin 4) (m : Fin 4) (e : Exc) (s : State) (u : State),
      let b0 := s.atBoundary 5
      let b := b0.fetched 5 1
      let valid (e : Nat) := bitAt (b.get .decCopy 5 e) 10 = true
      let word (e : Nat) : Nat := (b.get .decCopy 5 e % 1024 / 64 * 64 + b.get .decCopy 5 e % 64).toNat
      let ok (e : Nat) := valid e ∧ b.get .swPriv 5 ≠ 0 ∧ b0.Ready 5 1 false ∧ b.get .ucBad 5 (word e) = 0 ∧ (5, word e) ∉ b.softUc
      let miss := b.get .XC_TLBVA_VA
      let base := pReg b 5 m / 1024 % 16384 * 1024
      let a : Int := match (lvl : Nat) with
          | 0 => pReg b 5 m
          | 1 => (b.get .XC_PTROOT + 2 * (miss / 2 ^ 22 % 4)) % 2 ^ 24
          | 2 => (base + 2 * (miss / 2 ^ 16 % 64)) % 2 ^ 24
          | _ => (base + 2 * (miss / 2 ^ 10 % 64)) % 2 ^ 24
      (ok 29) ∧ (reachAll b 5 true a .read 2 = (.error e, u))) ∧
  (∃ (lvl : Fin 4) (m : Fin 4) (e : Exc) (s : State),
      let b0 := s.atBoundary 5
      let b := b0.fetched 5 1
      let valid (e : Nat) := bitAt (b.get .decCopy 5 e) 10 = true
      let word (e : Nat) : Nat := (b.get .decCopy 5 e % 1024 / 64 * 64 + b.get .decCopy 5 e % 64).toNat
      let ok (e : Nat) := valid e ∧ b.get .swPriv 5 ≠ 0 ∧ b0.Ready 5 1 false ∧ b.get .ucBad 5 (word e) = 0 ∧ (5, word e) ∉ b.softUc
      let plain := b.get .XC_MMU_TEN = 0 ∨ b.get .XC_STATUS_RM 5 ≠ 0
      let miss := b.get .XC_TLBVA_VA
      let base := pReg b 5 m / 1024 % 16384 * 1024
      let a : Int := match (lvl : Nat) with
          | 0 => pReg b 5 m
          | 1 => (b.get .XC_PTROOT + 2 * (miss / 2 ^ 22 % 4)) % 2 ^ 24
          | 2 => (base + 2 * (miss / 2 ^ 16 % 64)) % 2 ^ 24
          | _ => (base + 2 * (miss / 2 ^ 10 % 64)) % 2 ^ 24
      let next := (a + 1) % 2 ^ 24
      let tables (z : Int) := z.toNat < 0x20000 ∨ (0x100000 ≤ z.toNat ∧ z.toNat < 0x200000)
      (ok 29) ∧ (plain) ∧ (¬(tables a ∧ tables next))) ∧
  (∃ (lvl : Fin 4) (m : Fin 4) (e : Exc) (s : State) (u : State),
      let b0 := s.atBoundary 5
      let b := b0.fetched 5 1
      let valid (e : Nat) := bitAt (b.get .decCopy 5 e) 10 = true
      let word (e : Nat) : Nat := (b.get .decCopy 5 e % 1024 / 64 * 64 + b.get .decCopy 5 e % 64).toNat
      let ok (e : Nat) := valid e ∧ b.get .swPriv 5 ≠ 0 ∧ b0.Ready 5 1 false ∧ b.get .ucBad 5 (word e) = 0 ∧ (5, word e) ∉ b.softUc
      let plain := b.get .XC_MMU_TEN = 0 ∨ b.get .XC_STATUS_RM 5 ≠ 0
      let miss := b.get .XC_TLBVA_VA
      let base := pReg b 5 m / 1024 % 16384 * 1024
      let a : Int := match (lvl : Nat) with
          | 0 => pReg b 5 m
          | 1 => (b.get .XC_PTROOT + 2 * (miss / 2 ^ 22 % 4)) % 2 ^ 24
          | 2 => (base + 2 * (miss / 2 ^ 16 % 64)) % 2 ^ 24
          | _ => (base + 2 * (miss / 2 ^ 10 % 64)) % 2 ^ 24
      let next := (a + 1) % 2 ^ 24
      let tables (z : Int) := z.toNat < 0x20000 ∨ (0x100000 ≤ z.toNat ∧ z.toNat < 0x200000)
      (ok 29) ∧ (plain) ∧ (tables a) ∧ (tables next) ∧ (loadCells b 5 a [a.toNat, next.toNat] = (.error e, u)) ∧ (u.get .coreOn 5 ≠ 0)) ∧
  (∃ (lvl : Fin 4) (m : Fin 4) (lo : Int) (hi : Int) (e : Exc) (s : State) (u : State),
      let b0 := s.atBoundary 5
      let b := b0.fetched 5 1
      let valid (e : Nat) := bitAt (b.get .decCopy 5 e) 10 = true
      let word (e : Nat) : Nat := (b.get .decCopy 5 e % 1024 / 64 * 64 + b.get .decCopy 5 e % 64).toNat
      let ok (e : Nat) := valid e ∧ b.get .swPriv 5 ≠ 0 ∧ b0.Ready 5 1 false ∧ b.get .ucBad 5 (word e) = 0 ∧ (5, word e) ∉ b.softUc
      let plain := b.get .XC_MMU_TEN = 0 ∨ b.get .XC_STATUS_RM 5 ≠ 0
      let miss := b.get .XC_TLBVA_VA
      let base := pReg b 5 m / 1024 % 16384 * 1024
      let a : Int := match (lvl : Nat) with
          | 0 => pReg b 5 m
          | 1 => (b.get .XC_PTROOT + 2 * (miss / 2 ^ 22 % 4)) % 2 ^ 24
          | 2 => (base + 2 * (miss / 2 ^ 16 % 64)) % 2 ^ 24
          | _ => (base + 2 * (miss / 2 ^ 10 % 64)) % 2 ^ 24
      let next := (a + 1) % 2 ^ 24
      let tables (z : Int) := z.toNat < 0x20000 ∨ (0x100000 ≤ z.toNat ∧ z.toNat < 0x200000)
      (ok 29) ∧ (plain) ∧ (tables a) ∧ (tables next) ∧ (loadCells b 5 a [a.toNat, next.toNat] = (.ok [lo, hi], u)) ∧ (u.get .coreOn 5 ≠
        0)) ∧
  (∃ (m : Fin 4) (e : Exc) (s : State),
      let b0 := s.atBoundary 5
      let b := b0.fetched 5 1
      let valid (e : Nat) := bitAt (b.get .decCopy 5 e) 10 = true
      let word (e : Nat) : Nat := (b.get .decCopy 5 e % 1024 / 64 * 64 + b.get .decCopy 5 e % 64).toNat
      let ok (e : Nat) := valid e ∧ b.get .swPriv 5 ≠ 0 ∧ b0.Ready 5 1 false ∧ b.get .ucBad 5 (word e) = 0 ∧ (5, word e) ∉ b.softUc
      (ok 30) ∧ ((m : Nat) = 3)) ∧
  (∃ (m : Fin 4) (e : Exc) (s : State),
      let b0 := s.atBoundary 5
      let b := b0.fetched 5 1
      let valid (e : Nat) := bitAt (b.get .decCopy 5 e) 10 = true
      let word (e : Nat) : Nat := (b.get .decCopy 5 e % 1024 / 64 * 64 + b.get .decCopy 5 e % 64).toNat
      let ok (e : Nat) := valid e ∧ b.get .swPriv 5 ≠ 0 ∧ b0.Ready 5 1 false ∧ b.get .ucBad 5 (word e) = 0 ∧ (5, word e) ∉ b.softUc
      let place := max (b.nat .XC_MMU_RP) (b.nat .XC_MMU_WIRED)
      (ok 30) ∧ ((m : Nat) ≠ 3) ∧ (place < 64)) ∧
  (∃ (e : Exc) (s : State),
      let b0 := s.atBoundary 5
      let b := b0.fetched 5 1
      let valid (e : Nat) := bitAt (b.get .decCopy 5 e) 10 = true
      let word (e : Nat) : Nat := (b.get .decCopy 5 e % 1024 / 64 * 64 + b.get .decCopy 5 e % 64).toNat
      let ok (e : Nat) := valid e ∧ b.get .swPriv 5 ≠ 0 ∧ b0.Ready 5 1 false ∧ b.get .ucBad 5 (word e) = 0 ∧ (5, word e) ∉ b.softUc
      (ok 31)) := by
  refine ⟨⟨State.reset, ?_⟩,
    ⟨1, 4095, (mk [(.XC_MMU_TEN, 2, 0, 0)]), ?_⟩,
    ⟨0, 3, (mk [(.XC_MMU_TEN, 1, 0, 0), (.tlbV, 128, 3, 0)]), ?_⟩,
    ⟨65536, 8, (mk [(.XC_MMU_TEN, 1, 0, 0), (.tlbV, 1, 8, 0), (.tlbVpn, 64, 8, 0)]), ?_⟩,
    ⟨1, 19, (mk [(.XC_MMU_TEN, 1, 0, 0), (.tlbV, 17, 1, 0), (.tlbV, 1, 19, 0)]), ?_⟩,
    ⟨0, (tc []), ?_⟩,
    ⟨⟨3, 0, false, 0⟩, (mc []), ?_⟩,
    ⟨⟨3, 0, false, 0⟩, (mc [(.swPriv, 0, 5, 0), (.decCopy, 0x400, 5, 31)]), ?_⟩,
    ⟨0, 0, ⟨11, 0, false, 0x100200⟩, (mc [(.decCopy, 0x400, 5, 29), (.coreP, 0x100200, 5, 0), (.XC_MMU_TEN, 1, 0, 0)]), (reachAll (((mc
      [(.decCopy, 0x400, 5, 29), (.coreP, 0x100200, 5, 0), (.XC_MMU_TEN, 1, 0, 0)]).atBoundary 5).fetched 5 1) 5 true 0x100200 .read 2).2,
      ?_⟩,
    ⟨0, 0, ⟨3, 0, false, 0⟩, (mc [(.decCopy, 0x400, 5, 29), (.coreP, 0x80000, 5, 0)]), ?_⟩,
    ⟨0, 0, ⟨6, 0, false, 0x100200⟩, (mc [(.decCopy, 0x400, 5, 29), (.coreP, 0x100200, 5, 0), (.memBad, 1, 0x100200, 0)]), (loadCells (((mc
      [(.decCopy, 0x400, 5, 29), (.coreP, 0x100200, 5, 0), (.memBad, 1, 0x100200, 0)]).atBoundary 5).fetched 5 1) 5 0x100200 [0x100200,
      0x100201]).2, ?_⟩,
    ⟨0, 0, 0, 0, ⟨3, 0, false, 0⟩, { mc [(.decCopy, 0x400, 5, 29), (.coreP, 0x100200, 5, 0)]
      with stores := [⟨5, [(0x100200, 0), (0x100201, 0)], 0x100200, true, false⟩] }, ((({ mc [(.decCopy, 0x400, 5, 29), (.coreP, 0x100200,
      5, 0)] with stores := [⟨5, [(0x100200, 0), (0x100201, 0)], 0x100200, true, false⟩] } : State).atBoundary 5).fetched 5 1), ?_⟩,
    ⟨3, ⟨3, 0, false, 0⟩, (mc [(.decCopy, 0x400, 5, 30)]), ?_⟩,
    ⟨0, ⟨3, 0, false, 0⟩, (mc [(.decCopy, 0x400, 5, 30)]), ?_⟩,
    ⟨⟨3, 0, false, 0⟩, (mc [(.decCopy, 0x400, 5, 31)]), ?_⟩⟩ <;>
    (try dsimp only) <;> (repeat' first | decide +kernel | apply And.intro) <;> first
      | ((with_reducible refine ok_eq ?_ ?_) <;> decide +kernel)
      | ((with_reducible refine err_eq ?_ ?_) <;> decide +kernel)
      | ((with_reducible refine ready_of ?_) <;> decide +kernel)
      | decide +kernel

theorem witness_HeadgateQueues :
  (∃ (tag : BitVec 8) (n : BitVec 8) (s : State),
      (n ≠ tag) ∧ (s.get .tagUse n.toNat = 1)) ∧
  (∃ (tag : BitVec 8) (n : BitVec 8) (s : State),
      (n = tag ∨ s.get .tagUse n.toNat ≠ 1)) ∧
  (∃ (n : BitVec 8) (s : State),
      (s.get .tagUse n.toNat = 2) ∧ (s.now ≥ s.get .tagQuiet n.toNat)) ∧
  (∃ (n : BitVec 8) (s : State),
      (s.get .tagUse n.toNat ≠ 2 ∨ s.now < s.get .tagQuiet n.toNat)) ∧
  (∃ (p : Port) (m : HgMsg) (s : State),
      (s.hgTaken = none) ∧ (unmanaged s = false) ∧ ((∀ x ∈ s.hgQueue, x.epoch = s.nat .HG_PSTAT_EPOCH x.port)) ∧ (s.get .IM_STATE_NOFW =
        0) ∧ (s.get .IM_STATE_NOSI = 0) ∧ (s.hgCpl.length < 16) ∧ (((portOrder s).find? fun p => (queuedAt s p) ≠ []) = some p) ∧
        ((queuedAt s p).head? = some m)) ∧
  (∃ (m : HgMsg) (s : State),
      (s.hgTaken = some m)) ∧
  (∃ (m : HgMsg) (s : State),
      (s.hgTaken = some m) ∧ (unmanaged s = false) ∧ (s.get .hgDead = 0) ∧ (m.epoch = s.nat .HG_PSTAT_EPOCH m.port)) ∧
  (∃ (m : HgMsg) (s : State),
      (s.hgTaken = some m) ∧ (unmanaged s = false) ∧ (s.get .hgDead = 0) ∧ (m.epoch ≠ s.nat .HG_PSTAT_EPOCH m.port)) ∧
  (∃ (s : State),
      (s.hgTaken = none)) ∧
  (∃ (p : Port) (m : HgMsg) (s : State),
      (s.hgTaken = none) ∧ ((queuedAt s p).head? = some m) ∧ (overdue s m = true) ∧ (m.epoch = s.nat .HG_PSTAT_EPOCH p)) ∧
  (∃ (p : Port) (m : HgMsg) (s : State),
      (s.hgTaken = some m) ∧ (m.port = p) ∧ (s.get .hgDead = 0) ∧ (overdue s m = true) ∧ (m.epoch = s.nat .HG_PSTAT_EPOCH p)) ∧
  (∃ (s : State),
      (unmanaged s = true)) := by
  refine ⟨⟨0x06#8, 0x08#8, (mk [(.tagUse, 1, 8, 0)]), ?_⟩,
    ⟨0x38#8, 0x6a#8, (mk []), ?_⟩,
    ⟨0x01#8, (mk [(.tagUse, 2, 1, 0)]), ?_⟩,
    ⟨0x38#8, (mk []), ?_⟩,
    ⟨0, (⟨0, 3, 0, [⟨83, 1, []⟩], 1, 1, 0⟩), { mk [] with hgQueue := [⟨0, 3, 0, [⟨83, 1, []⟩], 1, 1, 0⟩, ⟨0, 9, 0, [], 0, 0, 0⟩] }, ?_⟩,
    ⟨(⟨5, 0, 0, [⟨80, 4, [0xd0#8, 0x01#8, 0x1f#8, 0xf9#8, 0x06#8, 0x01#8, 0x04#8, 0xff#8, 0x04#8, 0x01#8, 0x0b#8, 0x00#8, 0x17#8, 0x02#8,
      0x02#8, 0xac#8, 0x07#8, 0x08#8, 0x03#8, 0x07#8, 0x04#8, 0x05#8, 0x50#8, 0x04#8, 0x03#8, 0x06#8, 0x00#8, 0xc2#8, 0x70#8, 0x01#8,
      0x02#8, 0x0a#8]⟩], 0, 0, 0⟩), { mk []
      with hgTaken := some ⟨5, 0, 0, [⟨80, 4, [0xd0#8, 0x01#8, 0x1f#8, 0xf9#8, 0x06#8, 0x01#8, 0x04#8, 0xff#8, 0x04#8, 0x01#8, 0x0b#8, 0x00#8, 0x17#8, 0x02#8, 0x02#8, 0xac#8, 0x07#8, 0x08#8, 0x03#8, 0x07#8, 0x04#8, 0x05#8, 0x50#8, 0x04#8, 0x03#8, 0x06#8, 0x00#8, 0xc2#8, 0x70#8, 0x01#8, 0x02#8, 0x0a#8]⟩], 0, 0, 0⟩ },
      ?_⟩,
    ⟨(⟨5, 0, 0, [⟨80, 4, [0xd0#8, 0x01#8, 0x1f#8, 0xf9#8, 0x06#8, 0x01#8, 0x04#8, 0xff#8, 0x04#8, 0x01#8, 0x0b#8, 0x00#8, 0x17#8, 0x02#8,
      0x02#8, 0xac#8, 0x07#8, 0x08#8, 0x03#8, 0x07#8, 0x04#8, 0x05#8, 0x50#8, 0x04#8, 0x03#8, 0x06#8, 0x01#8, 0xc2#8, 0x70#8, 0x01#8,
      0x02#8, 0x0a#8]⟩], 0, 0, 0⟩), { mk []
      with hgTaken := some ⟨5, 0, 0, [⟨80, 4, [0xd0#8, 0x01#8, 0x1f#8, 0xf9#8, 0x06#8, 0x01#8, 0x04#8, 0xff#8, 0x04#8, 0x01#8, 0x0b#8, 0x00#8, 0x17#8, 0x02#8, 0x02#8, 0xac#8, 0x07#8, 0x08#8, 0x03#8, 0x07#8, 0x04#8, 0x05#8, 0x50#8, 0x04#8, 0x03#8, 0x06#8, 0x01#8, 0xc2#8, 0x70#8, 0x01#8, 0x02#8, 0x0a#8]⟩], 0, 0, 0⟩ },
      ?_⟩,
    ⟨(⟨1, 0, 0, [⟨83, 4, [0x04#8, 0x0d#8]⟩], 2, 1, 0⟩), { mk [(.HG_PSTAT_EPOCH, 254, 1, 0)]
      with hgTaken := some ⟨1, 0, 0, [⟨83, 4, [0x04#8, 0x0d#8]⟩], 2, 1, 0⟩ }, ?_⟩,
    ⟨(mk []), ?_⟩,
    ⟨5, (⟨5, 1, 0, [⟨82, 1, []⟩], 0, 1, 0⟩), { mk [] with hgQueue := [⟨5, 1, 0, [⟨82, 1, []⟩], 0, 1, 0⟩, ⟨5, 9, 0, [], 0, 0, 0⟩] }, ?_⟩,
    ⟨0, (⟨0, 3, 0, [⟨83, 1, []⟩], 1, 1, 0⟩), { mk [] with hgTaken := some ⟨0, 3, 0, [⟨83, 1, []⟩], 1, 1, 0⟩ }, ?_⟩,
    ⟨(mk [(.LS_PAIR_STATE, pairFUSED, 5, 0)]), ?_⟩⟩ <;>
    (try dsimp only) <;> decide +kernel

theorem witness_HeadgateMessages :
  (∃ (m : HgMsg) (q : HgPart) (s : State),
      (s.hgTaken = some m) ∧ (m.parts = [q]) ∧ (unmanaged s = false) ∧ (q.typ ≠ 0x10)) ∧
  (∃ (m : HgMsg) (q : HgPart) (s : State),
      (s.hgTaken = some m) ∧ (m.parts = [q]) ∧ (unmanaged s = false) ∧ (s.get .IM_STATE_NOFW ≠ 0 ∨ payloadGood q = false) ∧ (q.typ =
        0x10)) ∧
  (∃ (m : HgMsg) (q : HgPart) (s : State),
      (s.hgTaken = some m) ∧ (m.parts = [q]) ∧ (unmanaged s = false) ∧ (s.get .IM_STATE_NOFW = 0) ∧ (payloadGood q = true) ∧ (bitAt (s.get
        .hgClass m.port) (classOf q.typ) = false) ∧ (q.typ = 0x11)) ∧
  (∃ (m : HgMsg) (q : HgPart) (s : State),
      let kind := (q.payload.getD 0 0).toNat
      (s.hgTaken = some m) ∧ (m.parts = [q]) ∧ (unmanaged s = false) ∧ (q.typ ≠ 0x24 ∨ kind ≠ 0)) ∧
  (∃ (m : HgMsg) (q : HgPart) (s : State),
      let kind := (q.payload.getD 0 0).toNat
      (s.hgTaken = some m) ∧ (m.parts = [q]) ∧ (unmanaged s = false) ∧ (s.get .IM_STATE_NOFW ≠ 0 ∨ payloadGood q = false) ∧ (q.typ = 0x31)
        ∧ (kind = 0)) ∧
  (∃ (m : HgMsg) (q : HgPart) (s : State),
      let kind := (q.payload.getD 0 0).toNat
      (s.hgTaken = some m) ∧ (m.parts = [q]) ∧ (unmanaged s = false) ∧ (s.get .IM_STATE_NOFW = 0) ∧ (payloadGood q = true) ∧ (bitAt (s.get
        .hgClass m.port) (classOf q.typ) = false) ∧ (q.typ = 0x31) ∧ (kind = 0)) ∧
  (∃ (m : HgMsg) (q : HgPart) (s : State),
      let r := q.target
      (s.hgTaken = some m) ∧ (m.parts = [q]) ∧ (unmanaged s = false) ∧ (s.get .IM_STATE_NOFW = 0) ∧ (payloadGood q = true) ∧ (bitAt (s.get
        .hgClass m.port) (classOf q.typ) = true) ∧ (q.typ = 0x10) ∧ (railExists s r = true)) ∧
  (∃ (m : HgMsg) (q : HgPart) (s : State),
      let r := q.target
      (s.hgTaken = some m) ∧ (m.parts = [q]) ∧ (unmanaged s = false) ∧ (s.get .IM_STATE_NOFW = 0) ∧ (payloadGood q = true) ∧ (bitAt (s.get
        .hgClass m.port) (classOf q.typ) = true) ∧ (q.typ = 0x11) ∧ (railExists s r = true)) ∧
  (∃ (m : HgMsg) (q : HgPart) (s : State),
      let r := q.target
      (s.hgTaken = some m) ∧ (m.parts = [q]) ∧ (unmanaged s = false) ∧ (s.get .IM_STATE_NOFW = 0) ∧ (payloadGood q = true) ∧ (bitAt (s.get
        .hgClass m.port) (classOf q.typ) = true) ∧ (railExists s r = false) ∧ (q.typ = 0x10)) ∧
  (∃ (m : HgMsg) (q : HgPart) (s : State),
      let r := q.target
      (s.hgTaken = some m) ∧ (m.parts = [q]) ∧ (unmanaged s = false) ∧ (s.get .IM_STATE_NOFW = 0) ∧ (payloadGood q = true) ∧ (bitAt (s.get
        .hgClass m.port) (classOf q.typ) = true) ∧ (railExists s r = false) ∧ (q.typ = 0x11)) ∧
  (∃ (m : HgMsg) (q : HgPart) (s : State) (st : Int),
      let r := q.target
      (s.hgTaken = some m) ∧ (m.parts = [q]) ∧ (unmanaged s = false) ∧ (s.get .IM_STATE_NOFW = 0) ∧ (payloadGood q = true) ∧ (bitAt (s.get
        .hgClass m.port) (classOf q.typ) = true) ∧ (r ≠ 0xFF) ∧ (ctlChecks s m r = some st) ∧ (q.typ = 0x20)) ∧
  (∃ (m : HgMsg) (q : HgPart) (s : State) (st : Int),
      let r := q.target
      (s.hgTaken = some m) ∧ (m.parts = [q]) ∧ (unmanaged s = false) ∧ (s.get .IM_STATE_NOFW = 0) ∧ (payloadGood q = true) ∧ (bitAt (s.get
        .hgClass m.port) (classOf q.typ) = true) ∧ (r ≠ 0xFF) ∧ (ctlChecks s m r = some st) ∧ (q.typ = 0x21)) ∧
  (∃ (m : HgMsg) (q : HgPart) (s : State) (st : Int),
      let r := q.target
      (s.hgTaken = some m) ∧ (m.parts = [q]) ∧ (unmanaged s = false) ∧ (s.get .IM_STATE_NOFW = 0) ∧ (payloadGood q = true) ∧ (bitAt (s.get
        .hgClass m.port) (classOf q.typ) = true) ∧ (r ≠ 0xFF) ∧ (ctlChecks s m r = some st) ∧ (q.typ = 0x22)) ∧
  (∃ (m : HgMsg) (q : HgPart) (s : State) (st : Int),
      let r := q.target
      (s.hgTaken = some m) ∧ (m.parts = [q]) ∧ (unmanaged s = false) ∧ (s.get .IM_STATE_NOFW = 0) ∧ (payloadGood q = true) ∧ (bitAt (s.get
        .hgClass m.port) (classOf q.typ) = true) ∧ (r ≠ 0xFF) ∧ (ctlChecks s m r = some st) ∧ (q.typ = 0x23)) ∧
  (∃ (m : HgMsg) (q : HgPart) (s : State),
      let r := q.target
      let v := ((leNat (q.payload.take 2) : Nat) : Int)
      (s.hgTaken = some m) ∧ (m.parts = [q]) ∧ (unmanaged s = false) ∧ (s.get .IM_STATE_NOFW = 0) ∧ (payloadGood q = true) ∧ (bitAt (s.get
        .hgClass m.port) (classOf q.typ) = true) ∧ (r ≠ 0xFF) ∧ (ctlChecks s m r = none) ∧ (q.typ = 0x20) ∧ (setpointJudge s r v =
        .bound)) ∧
  (∃ (m : HgMsg) (q : HgPart) (s : State),
      let r := q.target
      let v := ((leNat (q.payload.take 2) : Nat) : Int)
      (s.hgTaken = some m) ∧ (m.parts = [q]) ∧ (unmanaged s = false) ∧ (s.get .IM_STATE_NOFW = 0) ∧ (payloadGood q = true) ∧ (bitAt (s.get
        .hgClass m.port) (classOf q.typ) = true) ∧ (r ≠ 0xFF) ∧ (ctlChecks s m r = none) ∧ (q.typ = 0x20) ∧ (setpointJudge s r v =
        .refused)) ∧
  (∃ (m : HgMsg) (q : HgPart) (s : State),
      let r := q.target
      let v := ((leNat (q.payload.take 2) : Nat) : Int)
      (s.hgTaken = some m) ∧ (m.parts = [q]) ∧ (unmanaged s = false) ∧ (s.get .IM_STATE_NOFW = 0) ∧ (payloadGood q = true) ∧ (bitAt (s.get
        .hgClass m.port) (classOf q.typ) = true) ∧ (r ≠ 0xFF) ∧ (ctlChecks s m r = none) ∧ (q.typ = 0x20) ∧ (setpointJudge s r v =
        .stored)) ∧
  (∃ (m : HgMsg) (q : HgPart) (s : State),
      let r := q.target
      let kind := (q.payload.getD 0 0).toNat
      (s.hgTaken = some m) ∧ (m.parts = [q]) ∧ (unmanaged s = false) ∧ (s.get .IM_STATE_NOFW = 0) ∧ (payloadGood q = true) ∧ (bitAt (s.get
        .hgClass m.port) (classOf q.typ) = true) ∧ (r ≠ 0xFF) ∧ (ctlChecks s m r = none) ∧ (q.typ = 0x21) ∧ (hostEnables s r = false) ∧
        ((kind = 1 ∨ m.cmd ≠ 1 ∨ railState s r ≠ stFAULT))) ∧
  (∃ (m : HgMsg) (q : HgPart) (s : State),
      let r := q.target
      let kind := (q.payload.getD 0 0).toNat
      (s.hgTaken = some m) ∧ (m.parts = [q]) ∧ (unmanaged s = false) ∧ (s.get .IM_STATE_NOFW = 0) ∧ (payloadGood q = true) ∧ (bitAt (s.get
        .hgClass m.port) (classOf q.typ) = true) ∧ (r ≠ 0xFF) ∧ (ctlChecks s m r = none) ∧ (q.typ = 0x21) ∧ (hostEnables s r = true) ∧
        (kind = 1) ∧ ((marginSet s m.margin r).bind (voutCheck s r) = none) ∧ (admissible s r (s.get .istart r) = false)) ∧
  (∃ (m : HgMsg) (q : HgPart) (s : State),
      let r := q.target
      let kind := (q.payload.getD 0 0).toNat
      (s.hgTaken = some m) ∧ (m.parts = [q]) ∧ (unmanaged s = false) ∧ (s.get .IM_STATE_NOFW = 0) ∧ (payloadGood q = true) ∧ (bitAt (s.get
        .hgClass m.port) (classOf q.typ) = true) ∧ (r ≠ 0xFF) ∧ (ctlChecks s m r = none) ∧ (q.typ = 0x21) ∧ (hostEnables s r = true) ∧
        (kind = 1) ∧ ((marginSet s m.margin r).bind (voutCheck s r) = none) ∧ (admissible s r (s.get .istart r) = true)) ∧
  (∃ (m : HgMsg) (q : HgPart) (s : State),
      let r := q.target
      let kind := (q.payload.getD 0 0).toNat
      (s.hgTaken = some m) ∧ (m.parts = [q]) ∧ (unmanaged s = false) ∧ (s.get .IM_STATE_NOFW = 0) ∧ (payloadGood q = true) ∧ (bitAt (s.get
        .hgClass m.port) (classOf q.typ) = true) ∧ (r ≠ 0xFF) ∧ (ctlChecks s m r = none) ∧ (q.typ = 0x21) ∧ (hostEnables s r = true) ∧
        (kind = 0)) ∧
  (∃ (m : HgMsg) (q : HgPart) (s : State),
      let r := q.target
      (s.hgTaken = some m) ∧ (m.parts = [q]) ∧ (unmanaged s = false) ∧ (s.get .IM_STATE_NOFW = 0) ∧ (payloadGood q = true) ∧ (bitAt (s.get
        .hgClass m.port) (classOf q.typ) = true) ∧ (r ≠ 0xFF) ∧ (ctlChecks s m r = none) ∧ (q.typ = 0x22) ∧ (railState s r = stFAULT)) ∧
  (∃ (m : HgMsg) (q : HgPart) (s : State),
      let r := q.target
      (s.hgTaken = some m) ∧ (m.parts = [q]) ∧ (unmanaged s = false) ∧ (s.get .IM_STATE_NOFW = 0) ∧ (payloadGood q = true) ∧ (bitAt (s.get
        .hgClass m.port) (classOf q.typ) = true) ∧ (r ≠ 0xFF) ∧ (ctlChecks s m r = none) ∧ (q.typ = 0x22) ∧ (railState s r ≠ stFAULT)) ∧
  (∃ (m : HgMsg) (q : HgPart) (s : State),
      let r := q.target
      let v := ((leNat (q.payload.take 2) : Nat) : Int)
      let w := ((leNat ((q.payload.drop 2).take 2) : Nat) : Int)
      (s.hgTaken = some m) ∧ (m.parts = [q]) ∧ (unmanaged s = false) ∧ (s.get .IM_STATE_NOFW = 0) ∧ (payloadGood q = true) ∧ (bitAt (s.get
        .hgClass m.port) (classOf q.typ) = true) ∧ (r ≠ 0xFF) ∧ (ctlChecks s m r = none) ∧ (q.typ = 0x23) ∧ (slopesGood s r v w = true)) ∧
  (∃ (m : HgMsg) (q : HgPart) (s : State),
      let r := q.target
      let v := ((leNat (q.payload.take 2) : Nat) : Int)
      let w := ((leNat ((q.payload.drop 2).take 2) : Nat) : Int)
      (s.hgTaken = some m) ∧ (m.parts = [q]) ∧ (unmanaged s = false) ∧ (s.get .IM_STATE_NOFW = 0) ∧ (payloadGood q = true) ∧ (bitAt (s.get
        .hgClass m.port) (classOf q.typ) = true) ∧ (r ≠ 0xFF) ∧ (ctlChecks s m r = none) ∧ (q.typ = 0x23) ∧ (slopesGood s r v w = false))
        ∧
  (∃ (m : HgMsg) (q : HgPart) (s : State),
      let r := q.target
      let lim := ((leNat ((q.payload.drop 1).take 4) : Nat) : Int)
      let kind := (q.payload.getD 0 0).toNat
      (s.hgTaken = some m) ∧ (m.parts = [q]) ∧ (unmanaged s = false) ∧ (s.get .IM_STATE_NOFW = 0) ∧ (payloadGood q = true) ∧ (bitAt (s.get
        .hgClass m.port) (classOf q.typ) = true) ∧ (r ≠ 0xFF) ∧ (ctlChecks s m r = none) ∧ (q.typ = 0x24) ∧ (kind = 0) ∧ (s.inBound
        ⟨.DM_RAILLIM_ILIM, r, 0⟩ lim = true)) ∧
  (∃ (m : HgMsg) (q : HgPart) (s : State),
      let r := q.target
      let lim := ((leNat ((q.payload.drop 1).take 4) : Nat) : Int)
      let kind := (q.payload.getD 0 0).toNat
      (s.hgTaken = some m) ∧ (m.parts = [q]) ∧ (unmanaged s = false) ∧ (s.get .IM_STATE_NOFW = 0) ∧ (payloadGood q = true) ∧ (bitAt (s.get
        .hgClass m.port) (classOf q.typ) = true) ∧ (r ≠ 0xFF) ∧ (ctlChecks s m r = none) ∧ (q.typ = 0x24) ∧ (kind = 0) ∧ (s.inBound
        ⟨.DM_RAILLIM_ILIM, r, 0⟩ lim = false)) ∧
  (∃ (m : HgMsg) (q : HgPart) (s : State) (x : Nat),
      let r := q.target
      (s.hgTaken = some m) ∧ (m.parts = [q]) ∧ (unmanaged s = false) ∧ (s.get .IM_STATE_NOFW = 0) ∧ (payloadGood q = true) ∧ (bitAt (s.get
        .hgClass m.port) (classOf q.typ) = true) ∧ (q.typ = 0x22) ∧ (r = 0xFF) ∧ (bitAt (s.get .hgRails m.port) x = true) ∧ (railState s x
        = stFAULT) ∧ (m.port ≠ 0 ∨ wpAllows s m.cmd = true) ∧ (x < 16)) ∧
  (∃ (m : HgMsg) (q : HgPart) (s : State),
      let r := q.target
      let lim := ((leNat ((q.payload.drop 1).take 4) : Nat) : Int)
      let kind := (q.payload.getD 0 0).toNat
      (s.hgTaken = some m) ∧ (m.parts = [q]) ∧ (unmanaged s = false) ∧ (s.get .IM_STATE_NOFW = 0) ∧ (payloadGood q = true) ∧ (bitAt (s.get
        .hgClass m.port) (classOf q.typ) = true) ∧ (q.typ = 0x24) ∧ (m.port ≠ 0 ∨ wpAllows s m.cmd = true) ∧ (kind = 1) ∧ (r < 8) ∧ (s.get
        .DM_DOMCFG_USED r ≠ 0) ∧ (covers s m.port (domainRails s r) = true) ∧ (s.inBound ⟨.DM_DOM_IALLOT, r, 0⟩ lim = true)) ∧
  (∃ (m : HgMsg) (q : HgPart) (s : State),
      let r := q.target
      let lim := ((leNat ((q.payload.drop 1).take 4) : Nat) : Int)
      let kind := (q.payload.getD 0 0).toNat
      (s.hgTaken = some m) ∧ (m.parts = [q]) ∧ (unmanaged s = false) ∧ (s.get .IM_STATE_NOFW = 0) ∧ (payloadGood q = true) ∧ (bitAt (s.get
        .hgClass m.port) (classOf q.typ) = true) ∧ (q.typ = 0x24) ∧ (m.port ≠ 0 ∨ wpAllows s m.cmd = true) ∧ (kind = 2) ∧ (r = 0) ∧
        (covers s m.port ((List.range 16).filter fun x => railState s x != stUNUSED) = true) ∧ (s.inBound ⟨.DM_DEV_PALLOT, 0, 0⟩ lim =
        true)) ∧
  (∃ (m : HgMsg) (q : HgPart) (s : State),
      let r := q.target
      (s.hgTaken = some m) ∧ (m.parts = [q]) ∧ (unmanaged s = false) ∧ (s.get .IM_STATE_NOFW = 0) ∧ (payloadGood q = true) ∧ (bitAt (s.get
        .hgClass m.port) (classOf q.typ) = true) ∧ (r = 0) ∧ (q.typ = 0x30)) ∧
  (∃ (m : HgMsg) (q : HgPart) (s : State),
      let r := q.target
      (s.hgTaken = some m) ∧ (m.parts = [q]) ∧ (unmanaged s = false) ∧ (s.get .IM_STATE_NOFW = 0) ∧ (payloadGood q = true) ∧ (bitAt (s.get
        .hgClass m.port) (classOf q.typ) = true) ∧ (r = 0) ∧ (q.typ = 0x32)) ∧
  (∃ (m : HgMsg) (q : HgPart) (s : State),
      let r := q.target
      let kind := (q.payload.getD 0 0).toNat
      (s.hgTaken = some m) ∧ (m.parts = [q]) ∧ (unmanaged s = false) ∧ (s.get .IM_STATE_NOFW = 0) ∧ (payloadGood q = true) ∧ (bitAt (s.get
        .hgClass m.port) (classOf q.typ) = true) ∧ (r = 0) ∧ (q.typ = 0x31) ∧ (kind = 1)) ∧
  (∃ (m : HgMsg) (q : HgPart) (s : State),
      let r := q.target
      (s.hgTaken = some m) ∧ (m.parts = [q]) ∧ (unmanaged s = false) ∧ (s.get .IM_STATE_NOFW = 0) ∧ (payloadGood q = true) ∧ (bitAt (s.get
        .hgClass m.port) (classOf q.typ) = true) ∧ (r ≠ 0) ∧ (q.typ = 0x30)) ∧
  (∃ (m : HgMsg) (q : HgPart) (s : State),
      let r := q.target
      (s.hgTaken = some m) ∧ (m.parts = [q]) ∧ (unmanaged s = false) ∧ (s.get .IM_STATE_NOFW = 0) ∧ (payloadGood q = true) ∧ (bitAt (s.get
        .hgClass m.port) (classOf q.typ) = true) ∧ (r ≠ 0) ∧ (q.typ = 0x32)) ∧
  (∃ (m : HgMsg) (q : HgPart) (s : State),
      let r := q.target
      (s.hgTaken = some m) ∧ (m.parts = [q]) ∧ (unmanaged s = false) ∧ (s.get .IM_STATE_NOFW = 0) ∧ (payloadGood q = true) ∧ (bitAt (s.get
        .hgClass m.port) (classOf q.typ) = true) ∧ (q.typ = 0x40) ∧ (64 ≤ r ∨ bitAt (s.get .hgEvents m.port) r = false)) ∧
  (∃ (m : HgMsg) (q : HgPart) (s : State),
      let r := q.target
      (s.hgTaken = some m) ∧ (m.parts = [q]) ∧ (unmanaged s = false) ∧ (s.get .IM_STATE_NOFW = 0) ∧ (payloadGood q = true) ∧ (bitAt (s.get
        .hgClass m.port) (classOf q.typ) = true) ∧ (q.typ = 0x40) ∧ (r < 64) ∧ (bitAt (s.get .hgEvents m.port) r = true)) := by
  refine ⟨⟨(req 0x11 [] 5), (part 0x11 []), { mk [] with hgTaken := some (req 0x11 [] 5) }, ?_⟩,
    ⟨(req 0x10 [] 5), (part 0x10 []), { mk [(.IM_STATE_NOFW, 1, 0, 0)] with hgTaken := some (req 0x10 [] 5) }, ?_⟩,
    ⟨(req 0x11 [] 2), (part 0x11 []), { mk [] with hgTaken := some (req 0x11 [] 2) }, ?_⟩,
    ⟨(req 0x31 [0] 5), (part 0x31 [0]), { mk [] with hgTaken := some (req 0x31 [0] 5) }, ?_⟩,
    ⟨(req 0x31 [0] 5), (part 0x31 [0]), { mk [(.IM_STATE_NOFW, 1, 0, 0)] with hgTaken := some (req 0x31 [0] 5) }, ?_⟩,
    ⟨(req 0x31 [0] 2), (part 0x31 [0]), { mk [] with hgTaken := some (req 0x31 [0] 2) }, ?_⟩,
    ⟨(⟨5, 0, 0, [⟨16, 1, []⟩], 2, 0, 1⟩), (⟨16, 1, []⟩), { mk [(.DM_RAILSTAT_STATE, 1, 1, 0), (.hgClass, 65535, 5, 0)]
      with hgTaken := some ⟨5, 0, 0, [⟨16, 1, []⟩], 2, 0, 1⟩ }, ?_⟩,
    ⟨(⟨5, 0, 0, [⟨17, 1, []⟩], 2, 0, 1⟩), (⟨17, 1, []⟩), { mk [(.DM_RAILSTAT_STATE, 1, 1, 0), (.hgClass, 65535, 5, 0)]
      with hgTaken := some ⟨5, 0, 0, [⟨17, 1, []⟩], 2, 0, 1⟩ }, ?_⟩,
    ⟨(⟨5, 0, 0, [⟨16, 255, []⟩], 2, 0, 1⟩), (⟨16, 255, []⟩), { mk [(.hgClass, 65535, 5, 0)]
      with hgTaken := some ⟨5, 0, 0, [⟨16, 255, []⟩], 2, 0, 1⟩ }, ?_⟩,
    ⟨(⟨5, 0, 0, [⟨17, 255, []⟩], 2, 0, 1⟩), (⟨17, 255, []⟩), { mk [(.hgClass, 65535, 5, 0)]
      with hgTaken := some ⟨5, 0, 0, [⟨17, 255, []⟩], 2, 0, 1⟩ }, ?_⟩,
    ⟨(⟨5, 0, 0, [⟨32, 5, [0x61#8, 0x3b#8]⟩], 2, 0, 1⟩), (⟨32, 5, [0x61#8, 0x3b#8]⟩), { mk [(.hgClass, 65535, 5, 0)]
      with hgTaken := some ⟨5, 0, 0, [⟨32, 5, [0x61#8, 0x3b#8]⟩], 2, 0, 1⟩ }, 5, ?_⟩,
    ⟨(⟨5, 0, 0, [⟨33, 5, [0x00#8]⟩], 2, 0, 1⟩), (⟨33, 5, [0x00#8]⟩), { mk [(.hgClass, 65535, 5, 0)]
      with hgTaken := some ⟨5, 0, 0, [⟨33, 5, [0x00#8]⟩], 2, 0, 1⟩ }, 5, ?_⟩,
    ⟨(⟨5, 0, 0, [⟨34, 5, []⟩], 2, 0, 1⟩), (⟨34, 5, []⟩), { mk [(.hgClass, 65535, 5, 0)]
      with hgTaken := some ⟨5, 0, 0, [⟨34, 5, []⟩], 2, 0, 1⟩ }, 5, ?_⟩,
    ⟨(⟨5, 0, 0, [⟨35, 5, [0x06#8, 0x00#8, 0x02#8, 0x11#8]⟩], 2, 0, 1⟩), (⟨35, 5, [0x06#8, 0x00#8, 0x02#8, 0x11#8]⟩), { mk [(.hgClass,
      65535, 5, 0)] with hgTaken := some ⟨5, 0, 0, [⟨35, 5, [0x06#8, 0x00#8, 0x02#8, 0x11#8]⟩], 2, 0, 1⟩ }, 5, ?_⟩,
    ⟨(⟨5, 0, 0, [⟨32, 1, [0x64#8, 0x00#8]⟩], 2, 0, 1⟩), (⟨32, 1, [0x64#8, 0x00#8]⟩), { mk [(.DM_RAILSTAT_STATE, 1, 1, 0), (.hgClass,
      65535, 5, 0), (.hgRails, 65535, 5, 0)] with hgTaken := some ⟨5, 0, 0, [⟨32, 1, [0x64#8, 0x00#8]⟩], 2, 0, 1⟩ }, ?_⟩,
    ⟨(⟨5, 0, 0, [⟨32, 0, [0x28#8, 0x23#8]⟩], 2, 0, 1⟩), (⟨32, 0, [0x28#8, 0x23#8]⟩), { mk [(.DM_RAILSTAT_STATE, 3, 0, 0),
      (.DM_RAILCUR_ICUR, 31, 0, 0), (.hgClass, 65535, 5, 0), (.hgRails, 65535, 5, 0)]
      with hgTaken := some ⟨5, 0, 0, [⟨32, 0, [0x28#8, 0x23#8]⟩], 2, 0, 1⟩ }, ?_⟩,
    ⟨(⟨5, 0, 0, [⟨32, 1, [0x40#8, 0x1f#8]⟩], 2, 0, 1⟩), (⟨32, 1, [0x40#8, 0x1f#8]⟩), { mk [(.DM_RAILSTAT_STATE, 1, 1, 0), (.hgClass,
      65535, 5, 0), (.hgRails, 65535, 5, 0)] with hgTaken := some ⟨5, 0, 0, [⟨32, 1, [0x40#8, 0x1f#8]⟩], 2, 0, 1⟩ }, ?_⟩,
    ⟨(⟨5, 0, 0, [⟨33, 1, [0x01#8]⟩], 2, 0, 1⟩), (⟨33, 1, [0x01#8]⟩), { mk [(.DM_RAILSTAT_STATE, 3, 1, 0), (.hgClass, 65535, 5, 0),
      (.hgRails, 65535, 5, 0)] with hgTaken := some ⟨5, 0, 0, [⟨33, 1, [0x01#8]⟩], 2, 0, 1⟩ }, ?_⟩,
    ⟨(⟨5, 0, 0, [⟨33, 0, [0x01#8]⟩], 2, 0, 1⟩), (⟨33, 0, [0x01#8]⟩), { mk [(.DM_RAILCFG_ENSRC, 1, 0, 0), (.DM_RAILSTAT_STATE, 3, 0, 0),
      (.DM_RAILCUR_ICUR, 254, 0, 0), (.hgClass, 65535, 5, 0), (.hgRails, 65535, 5, 0)]
      with hgTaken := some ⟨5, 0, 0, [⟨33, 0, [0x01#8]⟩], 2, 0, 1⟩ }, ?_⟩,
    ⟨(⟨5, 0, 0, [⟨33, 0, [0x01#8]⟩], 2, 0, 1⟩), (⟨33, 0, [0x01#8]⟩), { mk [(.DM_RAILCFG_ENSRC, 1, 0, 0), (.DM_RAILSTAT_STATE, 3, 0, 0),
      (.hgClass, 65535, 5, 0), (.hgRails, 65535, 5, 0)] with hgTaken := some ⟨5, 0, 0, [⟨33, 0, [0x01#8]⟩], 2, 0, 1⟩ }, ?_⟩,
    ⟨(⟨5, 0, 0, [⟨33, 1, [0x00#8]⟩], 2, 0, 1⟩), (⟨33, 1, [0x00#8]⟩), { mk [(.DM_RAILCFG_ENSRC, 2, 1, 0), (.DM_RAILSTAT_STATE, 1, 1, 0),
      (.hgClass, 65535, 5, 0), (.hgRails, 65535, 5, 0)] with hgTaken := some ⟨5, 0, 0, [⟨33, 1, [0x00#8]⟩], 2, 0, 1⟩ }, ?_⟩,
    ⟨(⟨5, 0, 0, [⟨34, 2, []⟩], 2, 0, 1⟩), (⟨34, 2, []⟩), { mk [(.DM_RAILSTAT_STATE, 5, 2, 0), (.hgClass, 65535, 5, 0), (.hgRails, 65535,
      5, 0)] with hgTaken := some ⟨5, 0, 0, [⟨34, 2, []⟩], 2, 0, 1⟩ }, ?_⟩,
    ⟨(⟨5, 0, 0, [⟨34, 0, []⟩], 2, 0, 1⟩), (⟨34, 0, []⟩), { mk [(.DM_RAILSTAT_STATE, 3, 0, 0), (.hgClass, 65535, 5, 0), (.hgRails, 65535,
      5, 0)] with hgTaken := some ⟨5, 0, 0, [⟨34, 0, []⟩], 2, 0, 1⟩ }, ?_⟩,
    ⟨(⟨5, 0, 0, [⟨35, 1, [0x2b#8, 0x66#8, 0x4f#8, 0x00#8]⟩], 2, 0, 1⟩), (⟨35, 1, [0x2b#8, 0x66#8, 0x4f#8, 0x00#8]⟩), { mk
      [(.DM_RAILSTAT_STATE, 1, 1, 0), (.hgClass, 65535, 5, 0), (.hgRails, 65535, 5, 0)]
      with hgTaken := some ⟨5, 0, 0, [⟨35, 1, [0x2b#8, 0x66#8, 0x4f#8, 0x00#8]⟩], 2, 0, 1⟩ }, ?_⟩,
    ⟨(⟨5, 0, 0, [⟨35, 1, [0x2b#8, 0x66#8, 0x4f#8, 0x00#8]⟩], 2, 0, 1⟩), (⟨35, 1, [0x2b#8, 0x66#8, 0x4f#8, 0x00#8]⟩), { mk
      [(.DM_RAILSTAT_STATE, 1, 1, 0), (.hgClass, 65535, 5, 0), (.hgRails, 65535, 5, 0)]
      with bounds := [⟨⟨Sys2Proof.Machine.Fld.LN_SLEWUP, 0, 0⟩, 1, 2⟩, ⟨⟨Sys2Proof.Machine.Fld.LN_SLEWDN, 1, 0⟩, 1, 2⟩], hgTaken := some ⟨5, 0, 0, [⟨35, 1, [0x2b#8, 0x66#8, 0x4f#8, 0x00#8]⟩], 2, 0, 1⟩ },
      ?_⟩,
    ⟨(⟨5, 0, 0, [⟨36, 1, [0x00#8, 0x64#8, 0x00#8, 0x00#8, 0x00#8]⟩], 2, 0, 1⟩), (⟨36, 1, [0x00#8, 0x64#8, 0x00#8, 0x00#8, 0x00#8]⟩), { mk
      [(.DM_RAILSTAT_STATE, 1, 1, 0), (.hgClass, 65535, 5, 0), (.hgRails, 65535, 5, 0)]
      with hgTaken := some ⟨5, 0, 0, [⟨36, 1, [0x00#8, 0x64#8, 0x00#8, 0x00#8, 0x00#8]⟩], 2, 0, 1⟩ }, ?_⟩,
    ⟨(⟨5, 0, 0, [⟨36, 1, [0x00#8, 0x64#8, 0x00#8, 0x00#8, 0x00#8]⟩], 2, 0, 1⟩), (⟨36, 1, [0x00#8, 0x64#8, 0x00#8, 0x00#8, 0x00#8]⟩), { mk
      [(.DM_RAILSTAT_STATE, 1, 1, 0), (.hgClass, 65535, 5, 0), (.hgRails, 65535, 5, 0)]
      with bounds := [⟨⟨Sys2Proof.Machine.Fld.DM_RAILLIM_ILIM, 0, 0⟩, 1, 2⟩, ⟨⟨Sys2Proof.Machine.Fld.DM_RAILLIM_ILIM, 1, 0⟩, 1, 2⟩], hgTaken := some ⟨5, 0, 0, [⟨36, 1, [0x00#8, 0x64#8, 0x00#8, 0x00#8, 0x00#8]⟩], 2, 0, 1⟩ },
      ?_⟩,
    ⟨(⟨2, 2, 2, [⟨34, 255, []⟩], 0, 0, 4095⟩), (⟨34, 255, []⟩), { mk [(.DM_RAILSTAT_STATE, 5, 2, 0), (.hgClass, 65535, 2, 0), (.hgRails,
      65535, 2, 0)] with hgTaken := some ⟨2, 2, 2, [⟨34, 255, []⟩], 0, 0, 4095⟩ }, 2, ?_⟩,
    ⟨(⟨5, 0, 0, [⟨36, 0, [0x01#8, 0x01#8, 0x00#8, 0x00#8, 0x00#8]⟩], 2, 0, 1⟩), (⟨36, 0, [0x01#8, 0x01#8, 0x00#8, 0x00#8, 0x00#8]⟩), { mk
      [(.DM_DOMCFG_USED, 255, 0, 0), (.hgClass, 65535, 5, 0)]
      with hgTaken := some ⟨5, 0, 0, [⟨36, 0, [0x01#8, 0x01#8, 0x00#8, 0x00#8, 0x00#8]⟩], 2, 0, 1⟩ }, ?_⟩,
    ⟨(⟨5, 0, 0, [⟨36, 0, [0x02#8, 0x64#8, 0x00#8, 0x00#8, 0x00#8]⟩], 2, 0, 1⟩), (⟨36, 0, [0x02#8, 0x64#8, 0x00#8, 0x00#8, 0x00#8]⟩), { mk
      [(.hgClass, 65535, 5, 0)] with hgTaken := some ⟨5, 0, 0, [⟨36, 0, [0x02#8, 0x64#8, 0x00#8, 0x00#8, 0x00#8]⟩], 2, 0, 1⟩ }, ?_⟩,
    ⟨(⟨5, 0, 0, [⟨48, 0, [0x01#8, 0x00#8, 0x00#8, 0x00#8, 0x02#8, 0x00#8]⟩], 2, 0, 1⟩), (⟨48, 0, [0x01#8, 0x00#8, 0x00#8, 0x00#8, 0x02#8,
      0x00#8]⟩), { mk [(.hgClass, 65535, 5, 0)]
      with hgTaken := some ⟨5, 0, 0, [⟨48, 0, [0x01#8, 0x00#8, 0x00#8, 0x00#8, 0x02#8, 0x00#8]⟩], 2, 0, 1⟩ }, ?_⟩,
    ⟨(⟨5, 0, 0, [⟨50, 0, [0x01#8, 0x00#8, 0x02#8, 0x00#8]⟩], 2, 0, 1⟩), (⟨50, 0, [0x01#8, 0x00#8, 0x02#8, 0x00#8]⟩), { mk [(.hgClass,
      65535, 5, 0)] with hgTaken := some ⟨5, 0, 0, [⟨50, 0, [0x01#8, 0x00#8, 0x02#8, 0x00#8]⟩], 2, 0, 1⟩ }, ?_⟩,
    ⟨(req 0x31 [1] 5), (part 0x31 [1]), { mk [(.hgClass, 65535, 5, 0)] with hgTaken := some (req 0x31 [1] 5) }, ?_⟩,
    ⟨(⟨5, 0, 0, [⟨48, 255, [0x7f#8, 0x00#8, 0x00#8, 0x00#8, 0x02#8, 0x00#8]⟩], 2, 0, 1⟩), (⟨48, 255, [0x7f#8, 0x00#8, 0x00#8, 0x00#8,
      0x02#8, 0x00#8]⟩), { mk [(.hgClass, 65535, 5, 0)]
      with hgTaken := some ⟨5, 0, 0, [⟨48, 255, [0x7f#8, 0x00#8, 0x00#8, 0x00#8, 0x02#8, 0x00#8]⟩], 2, 0, 1⟩ }, ?_⟩,
    ⟨(⟨5, 0, 0, [⟨50, 255, [0x7f#8, 0x00#8, 0x02#8, 0x00#8]⟩], 2, 0, 1⟩), (⟨50, 255, [0x7f#8, 0x00#8, 0x02#8, 0x00#8]⟩), { mk [(.hgClass,
      65535, 5, 0)] with hgTaken := some ⟨5, 0, 0, [⟨50, 255, [0x7f#8, 0x00#8, 0x02#8, 0x00#8]⟩], 2, 0, 1⟩ }, ?_⟩,
    ⟨(⟨5, 0, 0, [⟨64, 255, []⟩], 2, 0, 1⟩), (⟨64, 255, []⟩), { mk [(.hgClass, 65535, 5, 0)]
      with hgTaken := some ⟨5, 0, 0, [⟨64, 255, []⟩], 2, 0, 1⟩ }, ?_⟩,
    ⟨(⟨1, 3, 1, [⟨64, 0, []⟩], 1, 0, 64⟩), (⟨64, 0, []⟩), { mk [(.hgClass, -4, 1, 0), (.hgEvents, 7, 1, 0)]
      with hgTaken := some ⟨1, 3, 1, [⟨64, 0, []⟩], 1, 0, 64⟩ }, ?_⟩⟩ <;>
    (try dsimp only) <;> decide +kernel

theorem witness_ManagementSpi :
  (∃ (l : List (BitVec 8)) (s : State),
      let live := s.get .HG_PCFG_EN 5 ≠ 0
      (live) ∧ (frameGood l = false)) ∧
  (∃ (l : List (BitVec 8)) (s : State),
      let live := s.get .HG_PCFG_EN 5 ≠ 0
      (live) ∧ (frameGood l = true) ∧ (16 ≤ (queuedAt s 5).length)) ∧
  (∃ (l : List (BitVec 8)) (s : State),
      let typ := (l.getD 1 0).toNat
      let epoch := (l.getD 3 0).toNat % 16
      let live := s.get .HG_PCFG_EN 5 ≠ 0
      (live) ∧ (frameGood l = true) ∧ ((queuedAt s 5).length < 16) ∧ (typ ≠ 1) ∧ (epoch ≠ s.nat .HG_PSTAT_EPOCH 5)) ∧
  (∃ (l : List (BitVec 8)) (s : State),
      let typ := (l.getD 1 0).toNat
      let tag := (l.getD 2 0).toNat
      let epoch := (l.getD 3 0).toNat % 16
      let live := s.get .HG_PCFG_EN 5 ≠ 0
      (live) ∧ (frameGood l = true) ∧ ((queuedAt s 5).length < 16) ∧ (typ = 1 ∨ epoch = s.nat .HG_PSTAT_EPOCH 5) ∧ (s.get .tagUse tag ≠
        0)) ∧
  (∃ (l : List (BitVec 8)) (s : State),
      let typ := (l.getD 1 0).toNat
      let tag := (l.getD 2 0).toNat
      let payload := (l.drop 8).take (leNat ((l.drop 6).take 2))
      let live := s.get .HG_PCFG_EN 5 ≠ 0
      (live) ∧ (frameGood l = true) ∧ ((queuedAt s 5).length < 16) ∧ (typ = 1) ∧ (payload = []) ∧ (s.get .tagUse tag = 0)) ∧
  (∃ (l : List (BitVec 8)) (s : State),
      let typ := (l.getD 1 0).toNat
      let tag := (l.getD 2 0).toNat
      let epoch := (l.getD 3 0).toNat % 16
      let payload := (l.drop 8).take (leNat ((l.drop 6).take 2))
      let live := s.get .HG_PCFG_EN 5 ≠ 0
      (live) ∧ (frameGood l = true) ∧ ((queuedAt s 5).length < 16) ∧ (typ = 2) ∧ (payload.length = 1) ∧ (epoch = s.nat .HG_PSTAT_EPOCH 5)
        ∧ (s.get .tagUse tag = 0)) ∧
  (∃ (l : List (BitVec 8)) (s : State),
      let typ := (l.getD 1 0).toNat
      let tag := (l.getD 2 0).toNat
      let epoch := (l.getD 3 0).toNat % 16
      let payload := (l.drop 8).take (leNat ((l.drop 6).take 2))
      let live := s.get .HG_PCFG_EN 5 ≠ 0
      (live) ∧ (frameGood l = true) ∧ ((queuedAt s 5).length < 16) ∧ (typ ≠ 1 ∨ payload ≠ []) ∧ (typ ≠ 2 ∨ payload.length ≠ 1) ∧ (typ = 1
        ∨ epoch = s.nat .HG_PSTAT_EPOCH 5) ∧ (s.get .tagUse tag = 0)) ∧
  (∃ (s : State),
      let live := s.get .HG_PCFG_EN 5 ≠ 0
      (live) ∧ (s.hgCpl = [])) ∧
  (∃ (c : HgCpl) (rest : List HgCpl) (s : State),
      let live := s.get .HG_PCFG_EN 5 ≠ 0
      (live) ∧ (s.hgCpl = c :: rest)) ∧
  (∃ (s : State),
      let live := s.get .HG_PCFG_EN 5 ≠ 0
      (live)) ∧
  (∃ (s : State),
      let live := s.get .HG_PCFG_EN 5 ≠ 0
      (¬live)) ∧
  (∃ (s : State),
      (s.get .HG_PCFG_EN 0 ≠ 0)) ∧
  (∃ (s : State),
      (s.get .HG_PCFG_EN 0 = 0)) := by
  refine ⟨⟨([0x08#8, 0x03#8, 0x02#8, 0x03#8]), (mk [(.HG_PCFG_EN, 1, 5, 0)]), ?_⟩,
    ⟨([0x5a#8, 0x05#8, 0x00#8, 0x01#8, 0x02#8, 0x00#8, 0x02#8, 0x00#8, 0xd0#8, 0x01#8, 0x05#8, 0xac#8, 0xa2#8, 0xb0#8]), { mk
      [(.HG_PCFG_EN, 1, 5, 0)]
      with hgQueue := [⟨5, 0, 0, [], 0, 0, 0⟩, ⟨5, 1, 0, [], 0, 0, 0⟩, ⟨5, 2, 0, [], 0, 0, 0⟩, ⟨5, 3, 0, [], 0, 0, 0⟩, ⟨5, 4, 0, [], 0, 0, 0⟩, ⟨5, 5, 0, [], 0, 0, 0⟩, ⟨5, 6, 0, [], 0, 0, 0⟩, ⟨5, 7, 0, [], 0, 0, 0⟩, ⟨5, 8, 0, [], 0, 0, 0⟩, ⟨5, 9, 0, [], 0, 0, 0⟩, ⟨5, 10, 0, [], 0, 0, 0⟩, ⟨5, 11, 0, [], 0, 0, 0⟩, ⟨5, 12, 0, [], 0, 0, 0⟩, ⟨5, 13, 0, [], 0, 0, 0⟩, ⟨5, 14, 0, [], 0, 0, 0⟩, ⟨5, 15, 0, [], 0, 0, 0⟩] },
      ?_⟩,
    ⟨([0x5a#8, 0x05#8, 0x00#8, 0x01#8, 0x02#8, 0x00#8, 0x02#8, 0x00#8, 0xd0#8, 0x01#8, 0x05#8, 0xac#8, 0xa2#8, 0xb0#8]), (mk
      [(.HG_PCFG_EN, 1, 5, 0)]), ?_⟩,
    ⟨([0x5a#8, 0x02#8, 0x01#8, 0x00#8, 0x01#8, 0x00#8, 0x01#8, 0x00#8, 0x7f#8, 0xa5#8, 0xfc#8, 0x3f#8, 0x19#8]), (mk [(.HG_PCFG_EN, 1, 5,
      0), (.tagUse, 3, 1, 0)]), ?_⟩,
    ⟨([0x5a#8, 0x01#8, 0x01#8, 0x01#8, 0x01#8, 0x00#8, 0x00#8, 0x00#8, 0xa3#8, 0xa6#8, 0x33#8, 0x49#8]), (mk [(.HG_PCFG_EN, 1, 5, 0)]),
      ?_⟩,
    ⟨([0x5a#8, 0x02#8, 0x03#8, 0x00#8, 0x03#8, 0x00#8, 0x01#8, 0x00#8, 0x03#8, 0xfb#8, 0x83#8, 0xd3#8, 0xad#8]), (mk [(.HG_PCFG_EN, 1, 5,
      0)]), ?_⟩,
    ⟨([0x5a#8, 0x02#8, 0x00#8, 0x00#8, 0x01#8, 0x00#8, 0x00#8, 0x00#8, 0x2b#8, 0x46#8, 0xe7#8, 0x8e#8]), (mk [(.HG_PCFG_EN, 1, 5, 0)]),
      ?_⟩,
    ⟨(mk [(.HG_PCFG_EN, 1, 5, 0)]), ?_⟩,
    ⟨(⟨32, 0, 0, 3, 0, [], some 1⟩), ([⟨32, 3, 1, 4, 1, [], some 9⟩, ⟨2, 0, 1, 3, 0, [], some 0⟩, ⟨1, 2, 2, 2, 2, [], some 7⟩, ⟨32, 1, 0,
      8, 0, [], some 4⟩]), { mk [(.HG_PCFG_EN, 1, 5, 0)]
      with hgCpl := [⟨32, 0, 0, 3, 0, [], some 1⟩, ⟨32, 3, 1, 4, 1, [], some 9⟩, ⟨2, 0, 1, 3, 0, [], some 0⟩, ⟨1, 2, 2, 2, 2, [], some 7⟩, ⟨32, 1, 0, 8, 0, [], some 4⟩] },
      ?_⟩,
    ⟨(mk [(.HG_PCFG_EN, 1, 5, 0)]), ?_⟩,
    ⟨(mk []), ?_⟩,
    ⟨(mk [(.HG_PCFG_EN, -1, 0, 0)]), ?_⟩,
    ⟨(mk []), ?_⟩⟩ <;>
    (try dsimp only) <;> decide +kernel

theorem witness_ManagementSpi_MspiFrames :
  (∃ (payload : List Byte),
      (payload.length ≤ 4096)) := by
  refine ⟨([0x08#8, 0x03#8, 0x02#8, 0x03#8]), ?_⟩ <;>
    (try dsimp only) <;> decide +kernel

theorem witness_PmbusReads :
  (∃ (s : State),
      let live := s.get .HG_PCFG_EN 0 ≠ 0
      (live)) ∧
  (∃ (s : State),
      let live := s.get .HG_PCFG_EN 0 ≠ 0
      (¬live)) ∧
  (∃ (r : Nat) (s : State),
      let live := s.get .HG_PCFG_EN 0 ≠ 0
      (live) ∧ (s.nat .pmbPage = r) ∧ (r ≠ 0xFF)) ∧
  (∃ (s : State),
      let live := s.get .HG_PCFG_EN 0 ≠ 0
      (live) ∧ (s.nat .pmbPage = 0xFF)) ∧
  (∃ (s : State),
      let live := s.get .HG_PCFG_EN 0 ≠ 0
      (¬live)) ∧
  (∃ (code : BitVec 8) (s : State),
      let live := s.get .HG_PCFG_EN 0 ≠ 0
      (live) ∧ (code ∈ [0x21#8, 0x24#8, 0x25#8, 0x26#8, 0x8B#8])) ∧
  (∃ (code : BitVec 8) (s : State),
      let live := s.get .HG_PCFG_EN 0 ≠ 0
      (live) ∧ (code ∉ [0x21#8, 0x24#8, 0x25#8, 0x26#8, 0x8B#8])) ∧
  (∃ (s : State),
      let live := s.get .HG_PCFG_EN 0 ≠ 0
      (live) ∧ (pmbAlert s = true)) ∧
  (∃ (s : State),
      let live := s.get .HG_PCFG_EN 0 ≠ 0
      (live) ∧ (pmbAlert s = false)) ∧
  (∃ (s : State),
      let live := s.get .HG_PCFG_EN 0 ≠ 0
      (live)) := by
  refine ⟨⟨(mk [(.HG_PCFG_EN, 3, 0, 0)]), ?_⟩,
    ⟨(mk []), ?_⟩,
    ⟨0, (mk [(.HG_PCFG_EN, 255, 0, 0)]), ?_⟩,
    ⟨(mk [(.HG_PCFG_EN, 65535, 0, 0), (.pmbPage, 255, 0, 0)]), ?_⟩,
    ⟨(mk []), ?_⟩,
    ⟨0x24#8, (mk [(.HG_PCFG_EN, 139, 0, 0)]), ?_⟩,
    ⟨0x38#8, (mk [(.HG_PCFG_EN, -17, 0, 0)]), ?_⟩,
    ⟨(mk [(.HG_PCFG_EN, 3, 0, 0), (.pmbCml, -2, 0, 0)]), ?_⟩,
    ⟨(mk [(.HG_PCFG_EN, 15, 0, 0)]), ?_⟩,
    ⟨(mk [(.HG_PCFG_EN, 3, 0, 0)]), ?_⟩⟩ <;>
    (try dsimp only) <;> decide +kernel

theorem witness_PmbusWrites :
  (∃ (s : State),
      let live := s.get .HG_PCFG_EN 0 ≠ 0
      (¬live)) ∧
  (∃ (s : State),
      let live := s.get .HG_PCFG_EN 0 ≠ 0
      (live) ∧ (8 ≤ (queuedAt s 0).length)) ∧
  (∃ (pec : Fin 3) (s : State),
      let live := s.get .HG_PCFG_EN 0 ≠ 0
      let sound := pec = 1 ∨ pec = 0 ∧ s.get .HG_PCFG_PECREQ 0 ≠ 1
      (live) ∧ ((queuedAt s 0).length < 8) ∧ (¬sound)) ∧
  (∃ (pec : Fin 3) (s : State),
      let live := s.get .HG_PCFG_EN 0 ≠ 0
      let sound := pec = 1 ∨ pec = 0 ∧ s.get .HG_PCFG_PECREQ 0 ≠ 1
      (live) ∧ ((queuedAt s 0).length < 8) ∧ (sound) ∧ (wpAllows s 0x04 = false)) ∧
  (∃ (v : BitVec 16) (pec : Fin 3) (s : State),
      let b := v.toNat % 256
      let live := s.get .HG_PCFG_EN 0 ≠ 0
      let sound := pec = 1 ∨ pec = 0 ∧ s.get .HG_PCFG_PECREQ 0 ≠ 1
      (live) ∧ ((queuedAt s 0).length < 8) ∧ (sound) ∧ (wpAllows s 0x00 = true) ∧ (b = 0xFF ∨ b < 16 ∧ railState s b ≠ stUNUSED)) ∧
  (∃ (v : BitVec 16) (pec : Fin 3) (s : State),
      let b := v.toNat % 256
      let live := s.get .HG_PCFG_EN 0 ≠ 0
      let sound := pec = 1 ∨ pec = 0 ∧ s.get .HG_PCFG_PECREQ 0 ≠ 1
      (live) ∧ ((queuedAt s 0).length < 8) ∧ (sound) ∧ (wpAllows s 0x00 = true) ∧ (¬(b = 0xFF ∨ b < 16 ∧ railState s b ≠ stUNUSED))) ∧
  (∃ (v : BitVec 16) (pec : Fin 3) (s : State),
      let b := v.toNat % 256
      let live := s.get .HG_PCFG_EN 0 ≠ 0
      let sound := pec = 1 ∨ pec = 0 ∧ s.get .HG_PCFG_PECREQ 0 ≠ 1
      (live) ∧ ((queuedAt s 0).length < 8) ∧ (sound) ∧ (b ∈ [0x80, 0x40, 0x20, 0x00])) ∧
  (∃ (v : BitVec 16) (pec : Fin 3) (s : State),
      let b := v.toNat % 256
      let live := s.get .HG_PCFG_EN 0 ≠ 0
      let sound := pec = 1 ∨ pec = 0 ∧ s.get .HG_PCFG_PECREQ 0 ≠ 1
      (live) ∧ ((queuedAt s 0).length < 8) ∧ (sound) ∧ (b ∉ [0x80, 0x40, 0x20, 0x00])) ∧
  (∃ (v : BitVec 16) (pec : Fin 3) (s : State),
      let b := v.toNat % 256
      let live := s.get .HG_PCFG_EN 0 ≠ 0
      let sound := pec = 1 ∨ pec = 0 ∧ s.get .HG_PCFG_PECREQ 0 ≠ 1
      (live) ∧ ((queuedAt s 0).length < 8) ∧ (sound) ∧ (wpAllows s 0x02 = true) ∧ (b ∈ [0x16, 0x17, 0x1A, 0x1B, 0x1E, 0x1F])) ∧
  (∃ (pec : Fin 3) (s : State),
      let live := s.get .HG_PCFG_EN 0 ≠ 0
      let sound := pec = 1 ∨ pec = 0 ∧ s.get .HG_PCFG_PECREQ 0 ≠ 1
      (live) ∧ ((queuedAt s 0).length < 8) ∧ (sound) ∧ (wpAllows s 0x04 = true)) ∧
  (∃ (pec : Fin 3) (s : State),
      let live := s.get .HG_PCFG_EN 0 ≠ 0
      let sound := pec = 1 ∨ pec = 0 ∧ s.get .HG_PCFG_PECREQ 0 ≠ 1
      (live) ∧ ((queuedAt s 0).length < 8) ∧ (sound) ∧ (wpAllows s 0x25 = true)) ∧
  (∃ (pec : Fin 3) (s : State),
      let live := s.get .HG_PCFG_EN 0 ≠ 0
      let sound := pec = 1 ∨ pec = 0 ∧ s.get .HG_PCFG_PECREQ 0 ≠ 1
      (live) ∧ ((queuedAt s 0).length < 8) ∧ (sound) ∧ (wpAllows s 0x26 = true)) ∧
  (∃ (pec : Fin 3) (s : State),
      let live := s.get .HG_PCFG_EN 0 ≠ 0
      let sound := pec = 1 ∨ pec = 0 ∧ s.get .HG_PCFG_PECREQ 0 ≠ 1
      (live) ∧ ((queuedAt s 0).length < 8) ∧ (sound) ∧ (wpAllows s 0x03 = true)) ∧
  (∃ (v : BitVec 16) (pec : Fin 3) (s : State),
      let b := v.toNat % 256
      let live := s.get .HG_PCFG_EN 0 ≠ 0
      let sound := pec = 1 ∨ pec = 0 ∧ s.get .HG_PCFG_PECREQ 0 ≠ 1
      (live) ∧ ((queuedAt s 0).length < 8) ∧ (sound) ∧ (b = 0x40)) ∧
  (∃ (v : BitVec 16) (pec : Fin 3) (s : State),
      let b := v.toNat % 256
      let live := s.get .HG_PCFG_EN 0 ≠ 0
      let sound := pec = 1 ∨ pec = 0 ∧ s.get .HG_PCFG_PECREQ 0 ≠ 1
      (live) ∧ ((queuedAt s 0).length < 8) ∧ (sound) ∧ (b ∉ [0x00, 0x40, 0x80, 0x94, 0x98, 0xA4, 0xA8])) ∧
  (∃ (pec : Fin 3) (s : State),
      let live := s.get .HG_PCFG_EN 0 ≠ 0
      let sound := pec = 1 ∨ pec = 0 ∧ s.get .HG_PCFG_PECREQ 0 ≠ 1
      (live) ∧ ((queuedAt s 0).length < 8) ∧ (sound)) ∧
  (∃ (level : Bool) (s : State),
      (s.get .pmbCtrl = (if level then 1 else 0))) ∧
  (∃ (level : Bool) (s : State),
      let live := s.get .HG_PCFG_EN 0 ≠ 0
      ((s.get .pmbCtrl ≠ 0 ↔ level = false)) ∧ (live) ∧ ((queuedAt s 0).length < 8)) := by
  refine ⟨⟨(mk []), ?_⟩,
    ⟨{ mk [(.HG_PCFG_EN, 1, 0, 0)] with hgQueue := List.replicate 8 (req 0x10 [] 0) }, ?_⟩,
    ⟨2, (mk [(.HG_PCFG_EN, 10, 0, 0)]), ?_⟩,
    ⟨0, (mk [(.HG_PCFG_EN, 9, 0, 0), (.pmbWp, 0x80, 0, 0)]), ?_⟩,
    ⟨0x0001#16, 1, (mk [(.DM_RAILSTAT_STATE, 1, 1, 0), (.HG_PCFG_EN, 11, 0, 0)]), ?_⟩,
    ⟨0x2738#16, 0, (mk [(.HG_PCFG_EN, -17, 0, 0)]), ?_⟩,
    ⟨0x8000#16, 1, (mk [(.HG_PCFG_EN, 1, 0, 0)]), ?_⟩,
    ⟨0x2738#16, 0, (mk [(.HG_PCFG_EN, -17, 0, 0)]), ?_⟩,
    ⟨0x0017#16, 1, (mk [(.HG_PCFG_EN, 6, 0, 0)]), ?_⟩,
    ⟨0, (mk [(.HG_PCFG_EN, -7, 0, 0)]), ?_⟩,
    ⟨0, (mk [(.HG_PCFG_EN, -7, 0, 0)]), ?_⟩,
    ⟨0, (mk [(.HG_PCFG_EN, -7, 0, 0)]), ?_⟩,
    ⟨0, (mk [(.HG_PCFG_EN, -7, 0, 0)]), ?_⟩,
    ⟨0x40#16, 1, (mk [(.HG_PCFG_EN, 1, 0, 0)]), ?_⟩,
    ⟨0x2738#16, 0, (mk [(.HG_PCFG_EN, -17, 0, 0)]), ?_⟩,
    ⟨0, (mk [(.HG_PCFG_EN, 9, 0, 0)]), ?_⟩,
    ⟨false, (mk []), ?_⟩,
    ⟨false, (mk [(.HG_PCFG_EN, -17, 0, 0), (.pmbCtrl, 1, 0, 0)]), ?_⟩⟩ <;>
    (try dsimp only) <;> decide +kernel

theorem witness_AvsBus :
  (∃ (p : Fin 4) (sel : Fin 16) (s : State),
      let n := 1 + (p : Nat)
      let rails := avsRails s n sel
      let live := s.get .HG_PCFG_EN n ≠ 0
      (live) ∧ (rails = [])) ∧
  (∃ (p : Fin 4) (sel : Fin 16) (hold : Bool) (mv : BitVec 16) (s : State),
      let n := 1 + (p : Nat)
      let rails := avsRails s n sel
      let live := s.get .HG_PCFG_EN n ≠ 0
      (live) ∧ (rails ≠ []) ∧ (hold = true) ∧ ((∀ x ∈ rails, railExists s x = true ∧ avsRange s x (8 * mv.toNat) = true))) ∧
  (∃ (p : Fin 4) (sel : Fin 16) (hold : Bool) (mv : BitVec 16) (s : State),
      let n := 1 + (p : Nat)
      let rails := avsRails s n sel
      let live := s.get .HG_PCFG_EN n ≠ 0
      (live) ∧ (rails ≠ []) ∧ (hold = false) ∧ ((queuedAt s n).length < 4) ∧ ((∀ x ∈ rails, railExists s x = true ∧ avsRange s x (8 *
        mv.toNat) = true))) ∧
  (∃ (p : Fin 4) (sel : Fin 16) (hold : Bool) (mv : BitVec 16) (s : State),
      let n := 1 + (p : Nat)
      let rails := avsRails s n sel
      let live := s.get .HG_PCFG_EN n ≠ 0
      (live) ∧ (rails ≠ []) ∧ (hold = false) ∧ (4 ≤ (queuedAt s n).length) ∧ ((∀ x ∈ rails, railExists s x = true ∧ avsRange s x (8 *
        mv.toNat) = true))) ∧
  (∃ (p : Fin 4) (sel : Fin 16) (mv : BitVec 16) (s : State),
      let n := 1 + (p : Nat)
      let rails := avsRails s n sel
      let live := s.get .HG_PCFG_EN n ≠ 0
      (live) ∧ (rails ≠ []) ∧ ((∀ x ∈ rails, railExists s x = true ∧ avsRange s x (8 * mv.toNat) = true)) ∧ ((queuedAt s n).length < 4)) ∧
  (∃ (p : Fin 4) (sel : Fin 16) (r : Nat) (s : State),
      let n := 1 + (p : Nat)
      let rails := avsRails s n sel
      let live := s.get .HG_PCFG_EN n ≠ 0
      (live) ∧ ((sel : Nat) < 4) ∧ (rails = [r])) ∧
  (∃ (p : Fin 4) (sel : Fin 16) (s : State),
      let n := 1 + (p : Nat)
      let rails := avsRails s n sel
      let live := s.get .HG_PCFG_EN n ≠ 0
      (live) ∧ ((sel : Nat) ≥ 4 ∨ rails = [])) ∧
  (∃ (p : Fin 4) (sel : Fin 16) (s : State),
      let n := 1 + (p : Nat)
      let rails := avsRails s n sel
      let live := s.get .HG_PCFG_EN n ≠ 0
      (live) ∧ (rails ≠ [])) ∧
  (∃ (p : Fin 4) (sel : Fin 16) (s : State),
      let n := 1 + (p : Nat)
      let rails := avsRails s n sel
      let live := s.get .HG_PCFG_EN n ≠ 0
      (live) ∧ (rails = [])) ∧
  (∃ (p : Fin 4) (s : State),
      let n := 1 + (p : Nat)
      let live := s.get .HG_PCFG_EN n ≠ 0
      (live) ∧ (((s.avsHeld.filter fun e => e.1 = n).map (·.2)) ≠ []) ∧ ((queuedAt s n).length < 4)) ∧
  (∃ (p : Fin 4) (s : State),
      let n := 1 + (p : Nat)
      let live := s.get .HG_PCFG_EN n ≠ 0
      (live)) ∧
  (∃ (p : Fin 4) (s : State),
      let n := 1 + (p : Nat)
      let live := s.get .HG_PCFG_EN n ≠ 0
      (¬live)) := by
  refine ⟨⟨0, 0, (mk [(.HG_PCFG_EN, 1, 1, 0)]), ?_⟩,
    ⟨0, 0, true, 0x190#16, (mk [(.HG_PCFG_EN, 1, 1, 0), (.HG_AVSMAP_V0, 1, 1, 0), (.DM_RAILSTAT_STATE, stREG, 0, 0)]), ?_⟩,
    ⟨0, 0, false, 0x190#16, (mk [(.HG_PCFG_EN, 1, 1, 0), (.HG_AVSMAP_V0, 1, 1, 0), (.DM_RAILSTAT_STATE, stREG, 0, 0)]), ?_⟩,
    ⟨0, 0, false, 0x190#16, { mk [(.HG_PCFG_EN, 1, 1, 0), (.HG_AVSMAP_V0, 1, 1, 0), (.DM_RAILSTAT_STATE, stREG, 0, 0)]
      with hgQueue := List.replicate 4 (req 0x10 [] 1) }, ?_⟩,
    ⟨0, 15, 0x00ff#16, (mk [(.DM_RAILSTAT_STATE, 16, 0, 0), (.HG_PCFG_EN, -19, 1, 0), (.HG_AVSMAP_V0, 4, 1, 0)]), ?_⟩,
    ⟨2, 0, 0, (mk [(.HG_PCFG_EN, 13, 3, 0), (.HG_AVSMAP_V0, -1, 3, 0)]), ?_⟩,
    ⟨2, 8, (mk [(.HG_PCFG_EN, -17, 3, 0)]), ?_⟩,
    ⟨2, 1, (mk [(.HG_PCFG_EN, -17, 3, 0), (.HG_AVSMAP_V1, 1, 3, 0)]), ?_⟩,
    ⟨2, 8, (mk [(.HG_PCFG_EN, -17, 3, 0)]), ?_⟩,
    ⟨3, { mk [(.HG_PCFG_EN, 1, 4, 0)] with avsHeld := [(4, ⟨32, 3, []⟩), (7, ⟨32, 3, []⟩)] }, ?_⟩,
    ⟨0, (mk [(.HG_PCFG_EN, 1, 1, 0)]), ?_⟩,
    ⟨3, (mk []), ?_⟩⟩ <;>
    (try dsimp only) <;> decide +kernel

theorem witness_UpdateMessages :
  (∃ (m : HgMsg) (q : HgPart) (s : State),
      (s.hgTaken = some m) ∧ (m.parts = [q]) ∧ (unmanaged s = false) ∧ (q.typ ≠ 0x51)) ∧
  (∃ (m : HgMsg) (q : HgPart) (s : State),
      (s.hgTaken = some m) ∧ (m.parts = [q]) ∧ (unmanaged s = false) ∧ (q.typ = 0x50) ∧ (kindByte q.payload = false)) ∧
  (∃ (m : HgMsg) (q : HgPart) (s : State),
      (s.hgTaken = some m) ∧ (m.parts = [q]) ∧ (unmanaged s = false) ∧ (s.get .IM_STATE_NOFW = 0) ∧ (m.port ≠ 5) ∧ (q.typ = 0x50) ∧
        (kindByte q.payload = true)) ∧
  (∃ (m : HgMsg) (q : HgPart) (base : Nat) (k : Nat) (s : State),
      let served := s.get .IM_STATE_NOFW = 0 ∧ m.port = 5 ∧ bitAt (s.get .hgClass 5) 5 = true
      (s.hgTaken = some m) ∧ (m.parts = [q]) ∧ (unmanaged s = false) ∧ (served) ∧ (dirInUse s = some base) ∧ (s.get .flashBusy = 0) ∧ (1 ≤
        k) ∧ (k ≤ 4) ∧ (q.typ = 0x50) ∧ (q.payload = [BitVec.ofNat 8 k]) ∧ (s.get .flashRo = 0)) ∧
  (∃ (m : HgMsg) (q : HgPart) (base : Nat) (k : Nat) (s : State),
      let served := s.get .IM_STATE_NOFW = 0 ∧ m.port = 5 ∧ bitAt (s.get .hgClass 5) 5 = true
      let d := q.payload.drop 4
      let o := leNat (q.payload.take 4)
      let g := slotRegion s base k (s.nat .IM_UPD_SLOT)
      (s.hgTaken = some m) ∧ (m.parts = [q]) ∧ (unmanaged s = false) ∧ (served) ∧ (dirInUse s = some base) ∧ (s.get .flashBusy = 0) ∧ (1 ≤
        k) ∧ (k ≤ 4) ∧ (q.typ = 0x51) ∧ (5 ≤ q.payload.length) ∧ (q.payload.length ≤ 4092) ∧ (s.nat .IM_UPD_KIND = k) ∧ (s.get .flashRo =
        0) ∧ ((o : Int) = s.get .IM_UPD_OFS) ∧ (o + d.length ≤ g.2)) ∧
  (∃ (m : HgMsg) (q : HgPart) (base : Nat) (k : Nat) (s : State),
      let served := s.get .IM_STATE_NOFW = 0 ∧ m.port = 5 ∧ bitAt (s.get .hgClass 5) 5 = true
      let d := q.payload.drop 4
      let o := leNat (q.payload.take 4)
      let g := slotRegion s base k (s.nat .IM_UPD_SLOT)
      (s.hgTaken = some m) ∧ (m.parts = [q]) ∧ (unmanaged s = false) ∧ (served) ∧ (dirInUse s = some base) ∧ (s.get .flashBusy = 0) ∧ (1 ≤
        k) ∧ (k ≤ 4) ∧ (q.typ = 0x51) ∧ (5 ≤ q.payload.length) ∧ (q.payload.length ≤ 4092) ∧ (s.nat .IM_UPD_KIND = k) ∧ (s.get .flashRo =
        0) ∧ ((o : Int) ≠ s.get .IM_UPD_OFS ∨ g.2 < o + d.length)) ∧
  (∃ (m : HgMsg) (q : HgPart) (base : Nat) (k : Nat) (s : State),
      let served := s.get .IM_STATE_NOFW = 0 ∧ m.port = 5 ∧ bitAt (s.get .hgClass 5) 5 = true
      (s.hgTaken = some m) ∧ (m.parts = [q]) ∧ (unmanaged s = false) ∧ (served) ∧ (dirInUse s = some base) ∧ (s.get .flashBusy = 0) ∧ (1 ≤
        k) ∧ (k ≤ 4) ∧ (q.typ = 0x50) ∧ (q.payload = [BitVec.ofNat 8 k]) ∧ (s.get .flashRo ≠ 0)) ∧
  (∃ (m : HgMsg) (q : HgPart) (base : Nat) (k : Nat) (s : State),
      let served := s.get .IM_STATE_NOFW = 0 ∧ m.port = 5 ∧ bitAt (s.get .hgClass 5) 5 = true
      (s.hgTaken = some m) ∧ (m.parts = [q]) ∧ (unmanaged s = false) ∧ (served) ∧ (dirInUse s = some base) ∧ (s.get .flashBusy = 0) ∧ (1 ≤
        k) ∧ (k ≤ 4) ∧ (q.typ = 0x51) ∧ (5 ≤ q.payload.length) ∧ (q.payload.length ≤ 4092) ∧ (s.get .flashRo ≠ 0)) ∧
  (∃ (m : HgMsg) (q : HgPart) (base : Nat) (k : Nat) (s : State),
      let served := s.get .IM_STATE_NOFW = 0 ∧ m.port = 5 ∧ bitAt (s.get .hgClass 5) 5 = true
      (s.hgTaken = some m) ∧ (m.parts = [q]) ∧ (unmanaged s = false) ∧ (served) ∧ (dirInUse s = some base) ∧ (s.get .flashBusy = 0) ∧ (1 ≤
        k) ∧ (k ≤ 4) ∧ (q.typ = 0x52) ∧ (q.payload = []) ∧ (s.nat .IM_UPD_KIND = k) ∧ (s.get .verDue = 0)) ∧
  (∃ (m : HgMsg) (q : HgPart) (base : Nat) (k : Nat) (s : State),
      let served := s.get .IM_STATE_NOFW = 0 ∧ m.port = 5 ∧ bitAt (s.get .hgClass 5) 5 = true
      let now := slotInForce s k
      (s.hgTaken = some m) ∧ (m.parts = [q]) ∧ (unmanaged s = false) ∧ (served) ∧ (dirInUse s = some base) ∧ (s.get .flashBusy = 0) ∧ (1 ≤
        k) ∧ (k ≤ 4) ∧ (q.typ = 0x53) ∧ (q.payload = [BitVec.ofNat 8 k]) ∧ (s.get .IM_TRIAL_RUN = 0) ∧ (s.get .verOk k ≠ 0) ∧ (s.nat
        .verSlot k ≠ now) ∧ (s.nat .verSlot k ≤ 1)) ∧
  (∃ (m : HgMsg) (q : HgPart) (base : Nat) (k : Nat) (s : State),
      let served := s.get .IM_STATE_NOFW = 0 ∧ m.port = 5 ∧ bitAt (s.get .hgClass 5) 5 = true
      let now := slotInForce s k
      (s.hgTaken = some m) ∧ (m.parts = [q]) ∧ (unmanaged s = false) ∧ (served) ∧ (dirInUse s = some base) ∧ (s.get .flashBusy = 0) ∧ (1 ≤
        k) ∧ (k ≤ 4) ∧ (q.typ = 0x53) ∧ (q.payload = [BitVec.ofNat 8 k]) ∧ (s.get .IM_TRIAL_RUN ≠ 0 ∨ s.get .verOk k = 0 ∨ s.nat .verSlot
        k = now)) ∧
  (∃ (m : HgMsg) (q : HgPart) (k : Nat) (s : State),
      let served := s.get .IM_STATE_NOFW = 0 ∧ m.port = 5 ∧ bitAt (s.get .hgClass 5) 5 = true
      (s.hgTaken = some m) ∧ (m.parts = [q]) ∧ (unmanaged s = false) ∧ (served) ∧ (1 ≤ k) ∧ (k ≤ 4) ∧ (q.typ = 0x54) ∧ (q.payload =
        [BitVec.ofNat 8 k]) ∧ (k ≠ 1 ∨ trialDue s = false)) ∧
  (∃ (m : HgMsg) (q : HgPart) (s : State),
      let served := s.get .IM_STATE_NOFW = 0 ∧ m.port = 5 ∧ bitAt (s.get .hgClass 5) 5 = true
      (s.hgTaken = some m) ∧ (m.parts = [q]) ∧ (unmanaged s = false) ∧ (served) ∧ (q.typ = 0x55) ∧ (q.payload = [])) ∧
  (∃ (m : HgMsg) (q : HgPart) (base : Nat) (k : Nat) (s : State),
      (s.hgTaken = some m) ∧ (m.parts = [q]) ∧ (unmanaged s = false) ∧ (s.nat .verDue = k) ∧ (k ≠ 0) ∧ (dirInUse s = some base)) ∧
  (∃ (m : HgMsg) (q : HgPart) (s : State),
      (s.hgTaken = some m) ∧ (m.parts = [q]) ∧ (unmanaged s = false) ∧ (s.get .verDue = 0)) := by
  refine ⟨⟨(req 0x50 [1]), (part 0x50 [1]), (taken 0x50 [1] (servedState [])), ?_⟩,
    ⟨(req 0x50 [9]), (part 0x50 [9]), (taken 0x50 [9] (servedState [])), ?_⟩,
    ⟨(req 0x50 [1] 1), (part 0x50 [1]), { servedState [] with hgTaken := some (req 0x50 [1] 1) }, ?_⟩,
    ⟨(req 0x50 [1]), (part 0x50 [1]), 0, 1, (taken 0x50 [1] (dirState [])), ?_⟩,
    ⟨(req 0x51 [0, 0, 0, 0, 7]), (part 0x51 [0, 0, 0, 0, 7]), 0, 1, (taken 0x51 [0, 0, 0, 0, 7] (dirState [(.IM_UPD_KIND, 1, 0, 0)])),
      ?_⟩,
    ⟨(req 0x51 [0, 0, 0, 0, 7]), (part 0x51 [0, 0, 0, 0, 7]), 0, 1, (taken 0x51 [0, 0, 0, 0, 7] (dirState [(.IM_UPD_KIND, 1, 0, 0),
      (.IM_UPD_OFS, 1, 0, 0)])), ?_⟩,
    ⟨(req 0x50 [1]), (part 0x50 [1]), 0, 1, (taken 0x50 [1] (dirState [(.flashRo, 1, 0, 0)])), ?_⟩,
    ⟨(req 0x51 [0, 0, 0, 0, 7]), (part 0x51 [0, 0, 0, 0, 7]), 0, 1, (taken 0x51 [0, 0, 0, 0, 7] (dirState [(.flashRo, 1, 0, 0)])), ?_⟩,
    ⟨(req 0x52 []), (part 0x52 []), 0, 1, (taken 0x52 [] (dirState [(.IM_UPD_KIND, 1, 0, 0)])), ?_⟩,
    ⟨(req 0x53 [3]), (part 0x53 [3]), 0, 3, (taken 0x53 [3] (dirState [(.verOk, 1, 3, 0), (.verSlot, 1, 3, 0)])), ?_⟩,
    ⟨(req 0x53 [1]), (part 0x53 [1]), 0, 1, (taken 0x53 [1] (dirState [])), ?_⟩,
    ⟨(req 0x54 [3]), (part 0x54 [3]), 3, (taken 0x54 [3] (servedState [])), ?_⟩,
    ⟨(req 0x55 []), (part 0x55 []), (taken 0x55 [] (servedState [])), ?_⟩,
    ⟨(req 0x50 [1]), (part 0x50 [1]), 0, 3, (taken 0x50 [1] (dirState [(.verDue, 3, 0, 0)])), ?_⟩,
    ⟨(req 0x50 [1]), (part 0x50 [1]), (taken 0x50 [1] (servedState [])), ?_⟩⟩ <;>
    (try dsimp only) <;> (repeat' apply And.intro) <;> first
      | ((with_reducible refine dir_in_use ?_ ?_) <;> decide +kernel)
      | decide +kernel

theorem witness_RestructureAndKeys :
  (∃ (m : HgMsg) (q : HgPart) (base : Nat) (s : State) (ro : List ImgRec) (rn : List ImgRec),
      let served := s.get .IM_STATE_NOFW = 0 ∧ m.port = 5 ∧ bitAt (s.get .hgClass 5) 5 = true
      let sl := s.nat .verSlot 3
      let asked := leNat q.payload
      let fit := s.get .verOk 3 ≠ 0 ∧ sl ≠ slotInForce s 3 ∧ (∀ r < 16, asked.testBit r = true → railState s r = stRESTR) ∧
            restructureGood ro rn asked = true
      (s.hgTaken = some m) ∧ (m.parts = [q]) ∧ (unmanaged s = false) ∧ (served) ∧ (q.typ = 0x56) ∧ (q.payload.length = 2) ∧ (dirInUse s =
        some base) ∧ (imageRecs (readImage s base 3 (slotInForce s 3)).body = some ro) ∧ (imageRecs (readImage s base 3 sl).body = some
        rn) ∧ (¬fit)) ∧
  (∃ (m : HgMsg) (q : HgPart) (base : Nat) (s : State) (ro : List ImgRec) (rn : List ImgRec),
      let served := s.get .IM_STATE_NOFW = 0 ∧ m.port = 5 ∧ bitAt (s.get .hgClass 5) 5 = true
      let sl := s.nat .verSlot 3
      let asked := leNat q.payload
      let fit := s.get .verOk 3 ≠ 0 ∧ sl ≠ slotInForce s 3 ∧ (∀ r < 16, asked.testBit r = true → railState s r = stRESTR) ∧
            restructureGood ro rn asked = true
      let u := s.each (structureChanges ro rn) fun s w => slWrite (s.put .IM_SLADDR w.1) w.1 w.2
      (s.hgTaken = some m) ∧ (m.parts = [q]) ∧ (unmanaged s = false) ∧ (served) ∧ (q.typ = 0x56) ∧ (q.payload.length = 2) ∧ (dirInUse s =
        some base) ∧ (imageRecs (readImage s base 3 (slotInForce s 3)).body = some ro) ∧ (imageRecs (readImage s base 3 sl).body = some
        rn) ∧ (fit) ∧ (s.get .flashBusy = 0) ∧ (rsCheck u = true)) ∧
  (∃ (m : HgMsg) (q : HgPart) (base : Nat) (s : State) (ro : List ImgRec) (rn : List ImgRec),
      let served := s.get .IM_STATE_NOFW = 0 ∧ m.port = 5 ∧ bitAt (s.get .hgClass 5) 5 = true
      let sl := s.nat .verSlot 3
      let asked := leNat q.payload
      let fit := s.get .verOk 3 ≠ 0 ∧ sl ≠ slotInForce s 3 ∧ (∀ r < 16, asked.testBit r = true → railState s r = stRESTR) ∧
            restructureGood ro rn asked = true
      let u := s.each (structureChanges ro rn) fun s w => slWrite (s.put .IM_SLADDR w.1) w.1 w.2
      (s.hgTaken = some m) ∧ (m.parts = [q]) ∧ (unmanaged s = false) ∧ (served) ∧ (q.typ = 0x56) ∧ (q.payload.length = 2) ∧ (dirInUse s =
        some base) ∧ (imageRecs (readImage s base 3 (slotInForce s 3)).body = some ro) ∧ (imageRecs (readImage s base 3 sl).body = some
        rn) ∧ (fit) ∧ (s.get .flashBusy = 0) ∧ (rsCheck u = false)) ∧
  (∃ (m : HgMsg) (q : HgPart) (s : State),
      (s.hgTaken = some m) ∧ (m.parts = [q]) ∧ (unmanaged s = false) ∧ (slAllowed s (s.nat .IM_SLADDR) = false)) ∧
  (∃ (m : HgMsg) (q : HgPart) (s : State) (reg : RegRow) (i : Nat) (j : Nat) (w : Nat),
      (s.hgTaken = some m) ∧ (m.parts = [q]) ∧ (unmanaged s = false) ∧ (slAllowed s (s.nat .IM_SLADDR) = true) ∧ (findReg (s.nat
        .IM_SLADDR) = some (reg, i, j, w))) ∧
  (∃ (m : HgMsg) (q : HgPart) (s : State),
      (s.hgTaken = some m) ∧ (m.parts = [q]) ∧ (unmanaged s = false) ∧ (rsCheck s = true)) ∧
  (∃ (m : HgMsg) (q : HgPart) (s : State),
      (s.hgTaken = some m) ∧ (m.parts = [q]) ∧ (unmanaged s = false) ∧ (rsCheck s = false)) ∧
  (∃ (m : HgMsg) (q : HgPart) (s : State),
      let served := s.get .IM_STATE_NOFW = 0 ∧ m.port = 5 ∧ bitAt (s.get .hgClass 5) 5 = true
      (s.hgTaken = some m) ∧ (m.parts = [q]) ∧ (unmanaged s = false) ∧ (served) ∧ (q.typ = 0x57) ∧ (q.payload.length = 48) ∧ (s.get
        .attPend = 0)) ∧
  (∃ (m : HgMsg) (q : HgPart) (s : State),
      (s.hgTaken = some m) ∧ (m.parts = [q]) ∧ (unmanaged s = false) ∧ (s.get .attPend ≠ 0) ∧ (s.get .PH_STATUS_SUMBUSY = 0)) ∧
  (∃ (m : HgMsg) (q : HgPart) (s : State),
      (s.hgTaken = some m) ∧ (m.parts = [q]) ∧ (unmanaged s = false) ∧ (s.get .attPend = 0 ∨ s.get .PH_STATUS_SUMBUSY ≠ 0)) ∧
  (∃ (m : HgMsg) (q : HgPart) (s : State),
      let served := s.get .IM_STATE_NOFW = 0 ∧ m.port = 5 ∧ bitAt (s.get .hgClass 5) 5 = true
      (s.hgTaken = some m) ∧ (m.parts = [q]) ∧ (unmanaged s = false) ∧ (served) ∧ (q.typ = 0x58) ∧ (q.payload = [])) ∧
  (∃ (m : HgMsg) (q : HgPart) (s : State),
      let served := s.get .IM_STATE_NOFW = 0 ∧ m.port = 5 ∧ bitAt (s.get .hgClass 5) 5 = true
      (s.hgTaken = some m) ∧ (m.parts = [q]) ∧ (unmanaged s = false) ∧ (served) ∧ (q.typ = 0x59) ∧ (q.payload = [])) ∧
  (∃ (m : HgMsg) (q : HgPart) (s : State) (n : Nat),
      let served := s.get .IM_STATE_NOFW = 0 ∧ m.port = 5 ∧ bitAt (s.get .hgClass 5) 5 = true
      (s.hgTaken = some m) ∧ (m.parts = [q]) ∧ (unmanaged s = false) ∧ (served) ∧ (q.typ = 0x5A) ∧ (signedLen s 48 q.payload = true) ∧
        (bitAt (s.get .OT_STATUS_KSPROG) n = false) ∧ ((∀ i < n, bitAt (s.get .OT_STATUS_KSPROG) i = true)) ∧ (provisioning s = true ∨
        signedBy s (activeSlot s) (leBytes 1 n ++ q.payload.take 48) (q.payload.drop 48) = true) ∧ (n < 4)) ∧
  (∃ (m : HgMsg) (q : HgPart) (s : State) (n : Nat),
      let served := s.get .IM_STATE_NOFW = 0 ∧ m.port = 5 ∧ bitAt (s.get .hgClass 5) 5 = true
      (s.hgTaken = some m) ∧ (m.parts = [q]) ∧ (unmanaged s = false) ∧ (served) ∧ (q.typ = 0x5A) ∧ (signedLen s 48 q.payload = true) ∧
        (bitAt (s.get .OT_STATUS_KSPROG) n = false) ∧ ((∀ i < n, bitAt (s.get .OT_STATUS_KSPROG) i = true)) ∧ (provisioning s = false) ∧
        (n < 4)) ∧
  (∃ (m : HgMsg) (q : HgPart) (s : State) (n : Nat),
      let served := s.get .IM_STATE_NOFW = 0 ∧ m.port = 5 ∧ bitAt (s.get .hgClass 5) 5 = true
      (s.hgTaken = some m) ∧ (m.parts = [q]) ∧ (unmanaged s = false) ∧ (served) ∧ (q.typ = 0x5B) ∧ (q.payload.length = 96) ∧ (activeSlot s
        < n) ∧ (bitAt (s.get .OT_STATUS_KSPROG) n = true) ∧ (bitAt (s.get .OT_STATUS_KSREV) n = false) ∧ ((∀ i, activeSlot s < i → i < n →
        ¬(bitAt (s.get .OT_STATUS_KSPROG) i = true ∧ bitAt (s.get .OT_STATUS_KSREV) i = false))) ∧ (n < 4)) ∧
  (∃ (m : HgMsg) (q : HgPart) (s : State) (n : Nat),
      let served := s.get .IM_STATE_NOFW = 0 ∧ m.port = 5 ∧ bitAt (s.get .hgClass 5) 5 = true
      (s.hgTaken = some m) ∧ (m.parts = [q]) ∧ (unmanaged s = false) ∧ (served) ∧ (q.typ = 0x5B) ∧ (q.payload.length = 96) ∧ (activeSlot s
        < n) ∧ (bitAt (s.get .OT_STATUS_KSPROG) n = true) ∧ (bitAt (s.get .OT_STATUS_KSREV) n = false) ∧ ((∀ i, activeSlot s < i → i < n →
        ¬(bitAt (s.get .OT_STATUS_KSPROG) i = true ∧ bitAt (s.get .OT_STATUS_KSREV) i = false))) ∧ (n < 4)) ∧
  (∃ (m : HgMsg) (q : HgPart) (s : State),
      let served := s.get .IM_STATE_NOFW = 0 ∧ m.port = 5 ∧ bitAt (s.get .hgClass 5) 5 = true
      (s.hgTaken = some m) ∧ (m.parts = [q]) ∧ (unmanaged s = false) ∧ (served) ∧ (q.typ = 0x5C) ∧ (signedLen s 0 q.payload = true) ∧
        (provisioning s = true ∨ signedBy s (activeSlot s) [] q.payload = true)) ∧
  (∃ (m : HgMsg) (q : HgPart) (s : State),
      let served := s.get .IM_STATE_NOFW = 0 ∧ m.port = 5 ∧ bitAt (s.get .hgClass 5) 5 = true
      (s.hgTaken = some m) ∧ (m.parts = [q]) ∧ (unmanaged s = false) ∧ (served) ∧ (q.typ = 0x5C) ∧ (signedLen s 0 q.payload = true) ∧
        (provisioning s = false)) ∧
  (∃ (m : HgMsg) (q : HgPart) (s : State),
      (s.hgTaken = some m) ∧ (m.parts = [q]) ∧ (unmanaged s = false) ∧ (trialDue s = true)) ∧
  (∃ (m : HgMsg) (q : HgPart) (s : State),
      (s.hgTaken = some m) ∧ (m.parts = [q]) ∧ (unmanaged s = false) ∧ (trialDue s = false)) := by
  refine ⟨⟨(req 0x56 [0, 0]), (part 0x56 [0, 0]), 0, (taken 0x56 [0, 0] (dirState [])), [], [], ?_⟩,
    ⟨(req 0x56 [0, 0]), (part 0x56 [0, 0]), 0, (taken 0x56 [0, 0] (dirState [(.verOk, 1, 3, 0), (.verSlot, 1, 3, 0)])), [], [], ?_⟩,
    ⟨(req 0x56 [0, 0]), (part 0x56 [0, 0]), 0, (taken 0x56 [0, 0] (dirState [(.verOk, 1, 3, 0), (.verSlot, 1, 3, 0), (.DM_DOMCFG_USED, 1,
      0, 0)])), [], [], ?_⟩,
    ⟨(req 0x50 [1]), (part 0x50 [1]), (taken 0x50 [1] (servedState [])), ?_⟩,
    ⟨(req 0x50 [1]), (part 0x50 [1]), (taken 0x50 [1] (servedState [(.DM_RAILSTAT_STATE, stRESTR, 0, 0), (.IM_SLADDR, 4259844, 0, 0)])),
      (regAt 4259844).1, (regAt 4259844).2.1, (regAt 4259844).2.2.1, (regAt 4259844).2.2.2, ?_⟩,
    ⟨(req 0x50 [1]), (part 0x50 [1]), (taken 0x50 [1] (servedState [])), ?_⟩,
    ⟨(req 0x50 [1]), (part 0x50 [1]), (taken 0x50 [1] (servedState [(.DM_DOMCFG_USED, 1, 0, 0)])), ?_⟩,
    ⟨(req 0x57 (List.replicate 48 0)), (part 0x57 (List.replicate 48 0)), (taken 0x57 (List.replicate 48 0) (servedState [])), ?_⟩,
    ⟨(req 0x50 [1]), (part 0x50 [1]), (taken 0x50 [1] (servedState [(.attPend, 2, 0, 0)])), ?_⟩,
    ⟨(req 0x50 [1]), (part 0x50 [1]), (taken 0x50 [1] (servedState [])), ?_⟩,
    ⟨(req 0x58 []), (part 0x58 []), (taken 0x58 [] (servedState [])), ?_⟩,
    ⟨(req 0x59 []), (part 0x59 []), (taken 0x59 [] (servedState [])), ?_⟩,
    ⟨(req 0x5a (List.replicate 48 0)), (part 0x5a (List.replicate 48 0)), (taken 0x5a (List.replicate 48 0) (servedState [])), 0, ?_⟩,
    ⟨(req 0x5a (List.replicate 144 0)), (part 0x5a (List.replicate 144 0)), (taken 0x5a (List.replicate 144 0) (servedState
      [(.OT_STATUS_KSPROG, 3, 0, 0)])), 2, ?_⟩,
    ⟨(req 0x5b (List.replicate 96 0)), (part 0x5b (List.replicate 96 0)), (taken 0x5b (List.replicate 96 0) (servedState
      [(.OT_STATUS_KSPROG, 3, 0, 0)])), 1, ?_⟩,
    ⟨(req 0x5b (List.replicate 96 0)), (part 0x5b (List.replicate 96 0)), (taken 0x5b (List.replicate 96 0) (servedState
      [(.OT_STATUS_KSPROG, 3, 0, 0)])), 1, ?_⟩,
    ⟨(req 0x5c []), (part 0x5c []), (taken 0x5c [] (servedState [])), ?_⟩,
    ⟨(req 0x5c (List.replicate 96 0)), (part 0x5c (List.replicate 96 0)), (taken 0x5c (List.replicate 96 0) (servedState
      [(.OT_STATUS_KSPROG, 3, 0, 0)])), ?_⟩,
    ⟨(req 0x50 [1]), (part 0x50 [1]), (taken 0x50 [1] (servedState [(.IM_TRIAL_RUN, 16, 0, 0)])), ?_⟩,
    ⟨(req 0x50 [1]), (part 0x50 [1]), (taken 0x50 [1] (servedState [])), ?_⟩⟩ <;>
    (try dsimp only) <;> (repeat' apply And.intro) <;> first
      | ((rw [structureChanges_self]) <;> decide +kernel)
      | (intro i h g; omega)
      | ((with_reducible refine dir_in_use ?_ ?_) <;> decide +kernel)
      | decide +kernel

end Sys2Proof.Tests
end

section
/-! PROOFS. One instruction of a core that is ready for it (R262, R274, R276): nothing else happens at the boundary, so that what follows
is the instruction's meaning on the fetched state. -/
namespace Sys2Proof.Machine

/-! The boundary and the fetch keep the registers that they do not write. -/

def Foot.atBoundary (K : Part → Bool) : Bool := Foot.takeEntries K && (Foot.endLoad K && K (.fld .irPres))

theorem atBoundary_closed {K : Part → Bool} {P : State → Prop} {s : State} {k : Nat} (hP : Closed K P)
    (hK : Foot.atBoundary K = true) (hs : P s) : P (s.atBoundary k) := by
  simp only [Foot.atBoundary, Bool.and_eq_true] at hK
  obtain ⟨hTake, hLoad, hPres⟩ := hK
  exact hP.clear hPres (endLoad_closed hP hLoad (takeEntries_closed hP hTake hs))

theorem atBoundary_get {s : State} {k : Nat} {f : Fld} {i j : Nat} (hK : Foot.atBoundary (notFld f) = true) :
    (s.atBoundary k).get f i j = s.get f i j :=
  atBoundary_closed (field_closed f i j _) hK rfl

theorem fetched_get {s : State} {k len : Nat} {f : Fld} {i j : Nat} (hK : Foot.fetch (notFld f) = true) :
    (s.fetched k len).get f i j = s.get f i j :=
  fetch_closed (field_closed f i j _) hK rfl

theorem canIssue_atBoundary (s : State) (k : Nat) : canIssue (s.atBoundary k) k = canIssue s k := by
  simp (disch := decide) only [canIssue, coreRuns, pairRuns, State.bit, atBoundary_get]

theorem coreOn_of_canIssue {s : State} {k : Nat} (h : canIssue s k = true) : s.bit .coreOn k = true := by
  simp only [canIssue, coreRuns, Bool.and_eq_true] at h
  obtain ⟨⟨⟨⟨⟨hOn, -⟩, -⟩, -⟩, -⟩, -⟩ := h
  exact hOn

/-! What a ready core skips. -/

theorem settle_eq_self {s : State} {k : Nat} {u : Use} (hDrain : u.drain = false) (hDiv : s.get .divOn k = 0)
    (hMac : s.get .macOn k = 0) : settle s k u = s := by
  simp [settle, State.bit, hDrain, hDiv, hMac]

theorem firstTrap_eq_none {s : State} {k : Nat} (h : ∀ x ∈ s.traps, x.core ≠ k) : firstTrap s k = none := by
  have hl : s.traps.filter (fun t => t.core == k) = [] := by simpa [List.filter_eq_nil_iff] using h
  simp [firstTrap, hl]

theorem ifOn_of_on {s : State} {k : Nat} {f : State → State} (h : s.bit .coreOn k = true) : ifOn s k f = f s := if_pos h

/-! The instruction of a ready core. -/

theorem Ends.mono {o : Out} {k len : Nat} {P Q : State → Prop} (h : Ends o k len P) (hPQ : ∀ t, P t → Q t) : Ends o k len Q := by
  obtain ⟨t, hNext, hP⟩ := h
  exact ⟨t, hNext, hPQ t hP⟩

section
variable {s : State} {k : Nat} {m : Form} {f : State → Res} {P : State → Prop}

theorem decodeAndRun_of_ready {b : State} (hReady : b.Ready k m.len (m.rep && m.len == 1)) (hPriv : m.priv = false) :
    decodeAndRun b k m f = execute (b.fetched k m.len) k m f := by
  have hFetch : fetch b k m.len = (none, b.fetched k m.len) := Prod.ext hReady.fetches rfl
  have hRep : ((b.fetched k m.len).bit .repOn k && !(m.rep && m.len == 1)) = false := by
    rw [State.bit, fetched_get rfl]
    obtain h | h := hReady.repeated <;> simp [h]
  simp only [decodeAndRun, hFetch, hRep, hPriv, Bool.false_and, Bool.false_eq_true, if_false]

theorem coreStep_of_ready (hReady : (s.atBoundary k).Ready k m.len (m.rep && m.len == 1)) (hDrain : m.use.drain = false)
    (hPriv : m.priv = false) : coreStep s k m f = .next (execute ((s.atBoundary k).fetched k m.len) k m f) := by
  have hIssue : canIssue s k = true := canIssue_atBoundary s k ▸ hReady.issue
  have hSettle := settle_eq_self hDrain hReady.noDiv hReady.noMac
  have hOn := coreOn_of_canIssue hReady.issue
  have hTrap := firstTrap_eq_none hReady.noTrap
  have hRun := decodeAndRun_of_ready (f := f) hReady hPriv
  unfold State.atBoundary at *
  simp only [coreStep, runCore, hIssue, hSettle, ifOn_of_on hOn, hTrap, hRun, Bool.not_true, Bool.false_eq_true, if_false]

theorem coreOn_fetched_of_ready {b : State} {len : Nat} {rep : Bool} (hReady : b.Ready k len rep) :
    (b.fetched k len).bit .coreOn k = true := by
  rw [State.bit, fetched_get rfl]
  exact coreOn_of_canIssue hReady.issue

/-- A ready core whose instruction is done with state `t` ends it there. -/
theorem coreStep_ends_of_done {t : State} (hReady : (s.atBoundary k).Ready k m.len (m.rep && m.len == 1))
    (hDrain : m.use.drain = false) (hPriv : m.priv = false) (hDone : f ((s.atBoundary k).fetched k m.len) = .done t)
    (hOn : t.get .coreOn k = ((s.atBoundary k).fetched k m.len).get .coreOn k) (hP : P t) :
    Ends (coreStep s k m f) k m.len P := by
  have hRuns : t.bit .coreOn k = true := by rw [State.bit, hOn]; exact coreOn_fetched_of_ready hReady
  refine ⟨t, ?_, hP⟩
  rw [coreStep_of_ready hReady hDrain hPriv, execute, hDone]
  exact congrArg _ (ifOn_of_on hRuns)

/-- A ready core whose instruction faults without an effect takes the exception at the instruction. -/
theorem coreStep_of_fault {e : Exc} (hReady : (s.atBoundary k).Ready k m.len (m.rep && m.len == 1))
    (hDrain : m.use.drain = false) (hPriv : m.priv = false)
    (hFault : f ((s.atBoundary k).fetched k m.len) = .fault e ((s.atBoundary k).fetched k m.len)) :
    coreStep s k m f = .next (takeException ((s.atBoundary k).fetched k m.len) k
      (pcOf ((s.atBoundary k).fetched k m.len) k) e) := by
  rw [coreStep_of_ready hReady hDrain hPriv, execute, hFault]
  exact congrArg _ (ifOn_of_on (coreOn_fetched_of_ready hReady))

end

end Sys2Proof.Machine
end

section
/-! PROOFS. What a write of a data register, an accumulator, rc or sw gives and leaves (R218 to R221). -/
namespace Sys2Proof.Machine

/-! Flags. -/

section
variable {s t : State} {k : Nat} {f g : Fld} {b : Option Bool}

theorem flagAt_none (h : ∀ i j, t.get f i j = s.get f i j) : FlagAt s t k f none := fun i j => by simp [h]

theorem flagAt_put_same {v : Bool} (h : ∀ i j, t.get f i j = s.get f i j) : FlagAt s (t.put f (bit01 v) k) k f (some v) :=
  fun i j => by simp [State.get_put, h]

theorem FlagAt.put {v : Int} {i j : Nat} (h : FlagAt s t k f b) (hne : f ≠ g) : FlagAt s (t.put g v i j) k f b :=
  fun i' j' => by rw [State.get_put_fld _ _ _ _ _ _ _ _ hne]; exact h i' j'

end

/-! Data registers, rc and accumulators. -/

theorem setD_wrote16 {s : State} {k d : Nat} {v r : Int} (h : unsigned 16 v = r % 65536) :
    s.Wrote16 (setD s k d v) k (some d) r none none none none false where
  same := setD_closed (sameBut_closed _ s) (by decide) (SameBut_refl _ s)
  reg i j := by simp [setD, State.get_put, h, eq_comm]
  fn := flagAt_none fun _ _ => setD_get rfl
  fz := flagAt_none fun _ _ => setD_get rfl
  fc := flagAt_none fun _ _ => setD_get rfl
  fv := flagAt_none fun _ _ => setD_get rfl
  fsat := flagAt_none fun _ _ => setD_get rfl

theorem setRc_get_same (s : State) (k : Nat) (v : Int) : (setRc s k v).get .coreRc k (bankOf s k) = v % 65536 :=
  State.get_put_same ..

theorem setRc_get_other {s : State} {k i j : Nat} {v : Int} (h : i ≠ k ∨ j ≠ bankOf s k) :
    (setRc s k v).get .coreRc i j = s.get .coreRc i j := by
  obtain h | h := h
  · exact State.get_put_idx _ _ _ _ _ _ _ _ h
  · exact State.get_put_idx2 _ _ _ _ _ _ _ _ h

theorem aReg_setA_same (s : State) (k a : Nat) (v : Int) : aReg (setA s k a v) k a = signed 40 v := by
  have hBank : bankOf (setA s k a v) k = bankOf s k := congrArg Int.toNat (setA_get rfl)
  rw [aReg, hBank]
  exact State.get_put_same ..

theorem setA_get_other {s : State} {k a i j : Nat} {v : Int} (h : i ≠ k ∨ j ≠ bankOf s k * 2 + a) :
    (setA s k a v).get .coreA i j = s.get .coreA i j := by
  obtain h | h := h
  · exact State.get_put_idx _ _ _ _ _ _ _ _ h
  · exact State.get_put_idx2 _ _ _ _ _ _ _ _ h

/-! The status word (R220, R221). -/

/-- The bits of sw that every write of it gives, with their places. -/
def statusFlags : List (Fld × Nat) := [(.swC, 0), (.swV, 1), (.swZ, 2), (.swN, 3), (.swSat, 4), (.swDz, 5)]

/-- The bits of sw of core `k` that only a write with supervisor privilege gives. -/
def controlFlags (k : Nat) : List (Fld × Nat) := [(.swDzt, 6), (.swIe, 7)] ++ (if k = 5 then [(.swPriv, 8)] else [])

theorem supervisor_bit (s : State) (k : Nat) :
    256 * bit01 (supervisor s k) = if k = 5 ∧ s.get .swPriv k = 0 then 0 else 256 := by
  by_cases hk : k = 5
  · by_cases hPriv : s.get .swPriv k = 0 <;> simp [supervisor, State.bit, bit01, hk, hk ▸ hPriv]
  · simp [supervisor, bit01, hk]

theorem putFlags_flagAt (s : State) (k : Nat) (w : Int) :
    ∀ q ∈ statusFlags, FlagAt s (putFlags s k w) k q.1 (some (bitAt w q.2)) := by
  simp only [statusFlags, List.forall_mem_cons]
  refine ⟨?_, ?_, ?_, ?_, ?_, ?_, by simp⟩ <;> intro i j <;> simp [putFlags, State.get_put]

theorem statusFlags_not_control : ∀ q ∈ statusFlags, q.1 ≠ .swDzt ∧ q.1 ≠ .swIe ∧ q.1 ≠ .swPriv := by decide

theorem writeSw_flagAt_status (s : State) (k : Nat) (w : Int) :
    ∀ q ∈ statusFlags, FlagAt s (writeSw s k w) k q.1 (some (bitAt w q.2)) := by
  intro q hq
  have hFlag := putFlags_flagAt s k w q hq
  obtain ⟨hDzt, hIe, hPriv⟩ := statusFlags_not_control q hq
  unfold writeSw
  dsimp only
  split
  · split
    · exact ((hFlag.put hDzt).put hIe).put hPriv
    · exact (hFlag.put hDzt).put hIe
  · exact hFlag

theorem mem_controlFlags {k : Nat} {q : Fld × Nat} :
    q ∈ controlFlags k ↔ q = (.swDzt, 6) ∨ q = (.swIe, 7) ∨ (k = 5 ∧ q = (.swPriv, 8)) := by
  by_cases hk : k = 5 <;> simp [controlFlags, hk]

theorem writeSw_flagAt_control (s : State) (k : Nat) (w : Int) :
    ∀ q ∈ controlFlags k, FlagAt s (writeSw s k w) k q.1 (if supervisor s k then some (bitAt w q.2) else none) := by
  intro q hq
  by_cases hSup : supervisor s k = true
  · simp only [writeSw, hSup, if_true]
    intro i j
    obtain rfl | rfl | ⟨hk, rfl⟩ := mem_controlFlags.mp hq
    · split <;> simp [putFlags, State.get_put]
    · split <;> simp [putFlags, State.get_put]
    · simp [if_pos hk, State.get_put, putFlags]
  · have hNone : ∀ i j, (writeSw s k w).get q.1 i j = s.get q.1 i j := by
      intro i j
      rw [writeSw, if_neg hSup]
      obtain rfl | rfl | ⟨-, rfl⟩ := mem_controlFlags.mp hq <;> exact putFlags_get rfl
    rw [if_neg hSup]
    exact flagAt_none hNone

theorem writeSw_sameBut (s : State) (k : Nat) (w : Int) :
    s.SameBut (fun p => (statusFlags ++ controlFlags k).any fun q => p == .fld q.1) (writeSw s k w) := by
  have hClosed := sameBut_closed (fun p => (statusFlags ++ controlFlags k).any fun q => p == .fld q.1) s
  have hFlags := putFlags_closed (k := k) (w := w) hClosed rfl (SameBut_refl _ s)
  unfold writeSw
  dsimp only
  split
  · have hControl := hClosed.put _ .swIe (bit01 (bitAt w 7)) k 0 rfl (hClosed.put _ .swDzt (bit01 (bitAt w 6)) k 0 rfl hFlags)
    split
    · next hk => exact hClosed.put _ _ _ _ _ (by simp [controlFlags, hk]) hControl
    · exact hControl
  · exact hFlags

end Sys2Proof.Machine
end

section
/-! PROOFS. The moves between data registers and sw, rc, the tick counter and the parts of an accumulator (R219 to R222, R250). -/
namespace Sys2Proof.Machine

/-! The parts of an accumulator (R219). -/

theorem field_low (x : Int) : field x 15 0 = x % 65536 := by
  simp only [field, Nat.reduceAdd, Nat.reduceSub]
  omega

theorem field_high (x : Int) : field x 31 16 = x / 65536 % 65536 := by
  simp only [field, Nat.reduceAdd, Nat.reduceSub]
  omega

theorem field_word (x : Int) : field x 31 0 = x % 2 ^ 32 := by
  simp only [field, Nat.reduceAdd, Nat.reduceSub]
  omega

theorem field_byte (x : Int) : field x 7 0 = x % 2 ^ 8 := by
  simp only [field, Nat.reduceAdd, Nat.reduceSub]
  omega

theorem readPart_low (a : Int) : readPart a 0 = a % 65536 := field_low a

theorem readPart_high (a : Int) : readPart a 1 = a / 65536 % 65536 := field_high a

theorem readPart_guard (a : Int) : readPart a 2 = unsigned 16 (a / 2 ^ 32) := rfl

theorem unsigned_readPart (a : Int) {p : Nat} (h : p < 3) : unsigned 16 (readPart a p) = a / 65536 ^ p % 65536 := by
  obtain rfl | rfl | rfl : p = 0 ∨ p = 1 ∨ p = 2 := by omega
  · simp only [readPart_low, unsigned]
    omega
  · simp only [readPart_high, unsigned]
    omega
  · simp only [readPart_guard, unsigned]
    omega

/-- A write of the guard part gives the sign of its low byte to the whole accumulator. -/
theorem signed_join_guard (a v : Int) :
    signed 40 (a % 2 ^ 32 + v % 2 ^ 8 * 2 ^ 32) = a % 2 ^ 32 + 2 ^ 32 * signed 8 v := by
  simp only [signed, Nat.reduceSub]
  split <;> split <;> omega

theorem writePart_low (a v : Int) : writePart a 0 v = a - a % 65536 + v :=
  congrArg (fun x => a - x + v) (field_low a)

theorem writePart_high (a v : Int) : writePart a 1 v = a - 65536 * (a / 65536 % 65536) + 65536 * v :=
  congrArg (fun x => a - 65536 * x + 65536 * v) (field_high a)

theorem writePart_guard (a v : Int) {p : Nat} (hLow : p ≠ 0) (hHigh : p ≠ 1) :
    writePart a p v = a % 2 ^ 32 + v % 2 ^ 8 * 2 ^ 32 := by
  rw [writePart, if_neg hLow, if_neg hHigh, field_word, field_byte, shl]

theorem signed_writePart (a v : Int) (p : Nat) : signed 40 (writePart a p v) =
    if p = 0 then signed 40 (a - a % 65536 + v)
    else if p = 1 then signed 40 (a - 65536 * (a / 65536 % 65536) + 65536 * v)
    else a % 2 ^ 32 + 2 ^ 32 * signed 8 v := by
  by_cases hLow : p = 0
  · subst hLow
    rw [if_pos rfl, writePart_low]
  · rw [if_neg hLow]
    by_cases hHigh : p = 1
    · subst hHigh
      rw [if_pos rfl, writePart_high]
    · rw [if_neg hHigh, writePart_guard a v hLow hHigh, signed_join_guard]

theorem accPart_of_ne {y : Nat} (h : y % 4 ≠ 3) : accPart y = some (y / 4, y % 4) := if_neg h

theorem accPart_of_eq {y : Nat} (h : y % 4 = 3) : accPart y = none := if_pos h

/-! What each move gives on a core that is ready for it. -/

section
variable {k : CoreId} {s b : State} (hReady : (s.atBoundary k).Ready k 1 true) (hb : (s.atBoundary k).fetched k 1 = b)
include hReady hb

theorem mfs_sw_ends (d : Fin 8) : Ends (exec (.mfs k d 0) s) k 1 fun t =>
    b.Wrote16 t k (some (d : Nat)) (swWord b k) none none none none false := by
  subst hb
  exact coreStep_ends_of_done hReady rfl rfl rfl (setD_get rfl) (setD_wrote16 rfl)

theorem mfs_rc_ends (d : Fin 8) : Ends (exec (.mfs k d 1) s) k 1 fun t =>
    b.Wrote16 t k (some (d : Nat)) (rcReg b k) none none none none false := by
  subst hb
  exact coreStep_ends_of_done hReady rfl rfl rfl (setD_get rfl) (setD_wrote16 rfl)

theorem mfs_tkl_ends (d : Fin 8) : Ends (exec (.mfs k d 2) s) k 1 fun t =>
    b.Wrote16 t k (some (d : Nat)) (s.get .tick) none none none none false := by
  subst hb
  have hTick : ((s.atBoundary k).fetched k 1).now = s.get .tick := (fetched_get rfl).trans (atBoundary_get rfl)
  exact coreStep_ends_of_done hReady rfl rfl rfl (setD_get rfl) (setD_wrote16 (hTick ▸ rfl))

theorem mts_sw_ends (d : Fin 8) : Ends (exec (.mts k 0 d) s) k 1 (· = writeSw b k (dReg b k d)) := by
  subst hb
  exact coreStep_ends_of_done hReady rfl rfl rfl (writeSw_get rfl) rfl

theorem mts_rc_ends (d : Fin 8) : Ends (exec (.mts k 1 d) s) k 1 (· = setRc b k (dReg b k d)) := by
  subst hb
  exact coreStep_ends_of_done hReady rfl rfl rfl (setRc_get rfl) rfl

theorem mfa_ends (d y : Fin 8) (hy : (y : Nat) % 4 ≠ 3) : Ends (exec (.mfa k d y) s) k 1 fun t =>
    b.Wrote16 t k (some (d : Nat)) (aReg b k ((y : Nat) / 4) / 65536 ^ ((y : Nat) % 4)) none none none none false := by
  subst hb
  refine coreStep_ends_of_done hReady rfl rfl ?_ (setD_get rfl) (setD_wrote16 (unsigned_readPart _ (p := (y : Nat) % 4) (by omega)))
  rw [accPart_of_ne hy]

theorem mta_ends (y d : Fin 8) (hy : (y : Nat) % 4 ≠ 3) : Ends (exec (.mta k y d) s) k 1
    (· = setA b k ((y : Nat) / 4) (writePart (aReg b k ((y : Nat) / 4)) ((y : Nat) % 4) (dReg b k d))) := by
  subst hb
  refine coreStep_ends_of_done hReady rfl rfl ?_ (setA_get rfl) rfl
  rw [accPart_of_ne hy]

theorem mfs_illegal (d x : Fin 8) (hx : 3 ≤ (x : Nat)) : exec (.mfs k d x) s =
    .next (takeException b k (pcOf b k) { vec := excIllegal }) := by
  subst hb
  refine coreStep_of_fault hReady rfl rfl ?_
  dsimp only
  split
  · omega
  · omega
  · omega
  · rfl

theorem mts_illegal (x d : Fin 8) (hx : 2 ≤ (x : Nat)) : exec (.mts k x d) s =
    .next (takeException b k (pcOf b k) { vec := excIllegal }) := by
  subst hb
  refine coreStep_of_fault hReady rfl rfl ?_
  dsimp only
  split
  · omega
  · omega
  · rfl

theorem mfa_illegal (d y : Fin 8) (hy : (y : Nat) % 4 = 3) : exec (.mfa k d y) s =
    .next (takeException b k (pcOf b k) { vec := excIllegal }) := by
  subst hb
  refine coreStep_of_fault hReady rfl rfl ?_
  rw [accPart_of_eq hy]

theorem mta_illegal (y d : Fin 8) (hy : (y : Nat) % 4 = 3) : exec (.mta k y d) s =
    .next (takeException b k (pcOf b k) { vec := excIllegal }) := by
  subst hb
  refine coreStep_of_fault hReady rfl rfl ?_
  rw [accPart_of_eq hy]

end

/-- Settles O34: on a ready core each move is done or faults on the fetched state, and what it writes there is the layout of the
register that it names. -/
theorem specialRegisterMoves : Obligations.SpecialRegisterMoves := by
  unfold Obligations.SpecialRegisterMoves
  intro k d y s b0 b w part a acc illegal loads flags control hReady
  have hSw := mfs_sw_ends hReady rfl d
  simp only [swWord, supervisor_bit] at hSw
  refine ⟨hSw, mfs_rc_ends hReady rfl d, mfs_tkl_ends hReady rfl d, mfs_illegal hReady rfl d,
    fun x => mts_illegal hReady rfl x d, ?mtsRc, ?mtsSw, mfa_ends hReady rfl d y,
    fun h => ⟨mfa_illegal hReady rfl d y h, mta_illegal hReady rfl y d h⟩, fun h => ?mta⟩
  case mtsRc =>
    refine (mts_rc_ends hReady rfl d).mono ?_
    rintro t rfl
    exact ⟨setRc_get_same .., setRc_closed (sameBut_closed _ b) (by decide) (SameBut_refl _ b),
      fun i j hOther => setRc_get_other (hOther.imp_left Fin.val_ne_of_ne)⟩
  case mtsSw =>
    refine (mts_sw_ends hReady rfl d).mono ?_
    rintro t rfl
    exact ⟨writeSw_flagAt_status b k w, writeSw_flagAt_control b k w, writeSw_sameBut b k w⟩
  case mta =>
    refine (mta_ends hReady rfl y d h).mono ?_
    rintro t rfl
    exact ⟨setA_closed (sameBut_closed _ b) (by decide) (SameBut_refl _ b), (aReg_setA_same ..).trans (signed_writePart ..),
      fun i j hOther => setA_get_other (hOther.imp_left Fin.val_ne_of_ne)⟩

end Sys2Proof.Machine
end

section
/-! PROOFS. A paired word (R231, R245, R246): what each slot gives, the pairing rule, and what the two slots leave. -/
namespace Sys2Proof.Machine

/-! The flags of a result, written while no long operation is outstanding (R234, R244). -/

section
variable {s s' t : State} {k : Nat} {f g : Fld} {b c : Option Bool}

theorem FlagAt.of_get (h : FlagAt s t k f b) (hs : ∀ i j, s.get f i j = s'.get f i j) : FlagAt s' t k f b :=
  fun i j => by rw [← hs i j]; exact h i j

theorem putFlag_flagAt (s : State) (k : Nat) (f : Fld) : ∀ b, FlagAt s (putFlag s f k b) k f b
  | none => flagAt_none fun _ _ => rfl
  | some _ => flagAt_put_same fun _ _ => rfl

theorem FlagAt.putFlag (h : FlagAt s t k f b) (hne : f ≠ g) : FlagAt s (putFlag t g k c) k f b := by
  cases c with
  | none => exact h
  | some v => exact h.put hne

end

theorem putV_of_idle {s : State} {k : Nat} (hDiv : s.get .divOn k = 0) (hMac : s.get .macOn k = 0) (v : Bool) :
    putV s k v = s.put .swV (bit01 v) k := by
  simp [putV, State.bit, hDiv, hMac]

/-- The state with the four flags of a result written, each where the result gives it. -/
def putStatus (s : State) (k : Nat) (x : Alu) : State :=
  putFlag (putFlag (putFlag (putFlag s .swN k x.n) .swZ k x.z) .swC k x.c) .swV k x.v

theorem putAlu_eq_putStatus {s : State} {k : Nat} {x : Alu} (hDiv : s.get .divOn k = 0) (hMac : s.get .macOn k = 0)
    (hSat : x.sat = false) : putAlu s k x = putStatus s k x := by
  have hKeep {f : Fld} (hN : f ≠ .swN) (hZ : f ≠ .swZ) (hC : f ≠ .swC) :
      (putFlag (putFlag (putFlag s .swN k x.n) .swZ k x.z) .swC k x.c).get f k = s.get f k := by
    rw [putFlag_get rfl (decide_eq_false hC.symm), putFlag_get rfl (decide_eq_false hZ.symm),
      putFlag_get rfl (decide_eq_false hN.symm)]
  simp only [putAlu, hSat, Bool.false_eq_true, if_false, putStatus]
  cases x.v with
  | none => rfl
  | some v =>
    exact putV_of_idle ((hKeep (by decide) (by decide) (by decide)).trans hDiv)
      ((hKeep (by decide) (by decide) (by decide)).trans hMac) v

theorem putStatus_closed {K : Part → Bool} {P : State → Prop} {s : State} {k : Nat} {x : Alu} (hP : Closed K P)
    (hN : K (.fld .swN) = true) (hZ : K (.fld .swZ) = true) (hC : K (.fld .swC) = true) (hV : K (.fld .swV) = true) (hs : P s) :
    P (putStatus s k x) :=
  putFlag_closed hP rfl hV (putFlag_closed hP rfl hC (putFlag_closed hP rfl hZ (putFlag_closed hP rfl hN hs)))

theorem putStatus_get {s : State} {k : Nat} {x : Alu} {f : Fld} {i j : Nat}
    (hf : f ≠ .swN ∧ f ≠ .swZ ∧ f ≠ .swC ∧ f ≠ .swV) : (putStatus s k x).get f i j = s.get f i j := by
  obtain ⟨hN, hZ, hC, hV⟩ := hf
  exact putStatus_closed (field_closed f i j _) (notFld_true (decide_eq_false hN.symm)) (notFld_true (decide_eq_false hZ.symm))
    (notFld_true (decide_eq_false hC.symm)) (notFld_true (decide_eq_false hV.symm)) rfl

theorem putStatus_flagAt_swN (s : State) (k : Nat) (x : Alu) : FlagAt s (putStatus s k x) k .swN x.n :=
  (((putFlag_flagAt s k .swN x.n).putFlag (by decide)).putFlag (by decide)).putFlag (by decide)

theorem putStatus_flagAt_swZ (s : State) (k : Nat) (x : Alu) : FlagAt s (putStatus s k x) k .swZ x.z :=
  (((putFlag_flagAt _ k .swZ x.z).putFlag (by decide)).putFlag (by decide)).of_get fun _ _ => putFlag_get rfl rfl

theorem putStatus_flagAt_swC (s : State) (k : Nat) (x : Alu) : FlagAt s (putStatus s k x) k .swC x.c :=
  ((putFlag_flagAt _ k .swC x.c).putFlag (by decide)).of_get fun _ _ => (putFlag_get rfl rfl).trans (putFlag_get rfl rfl)

theorem putStatus_flagAt_swV (s : State) (k : Nat) (x : Alu) : FlagAt s (putStatus s k x) k .swV x.v :=
  (putFlag_flagAt _ k .swV x.v).of_get fun _ _ =>
    (putFlag_get rfl rfl).trans ((putFlag_get rfl rfl).trans (putFlag_get rfl rfl))

/-! Data registers. -/

theorem setD_unsigned (s : State) (k n : Nat) (v : Int) : setD s k n (unsigned 16 v) = setD s k n v := by
  simp [setD, unsigned]

theorem bankOf_setD (s : State) (k n : Nat) (v : Int) : bankOf (setD s k n v) k = bankOf s k := congrArg Int.toNat (setD_get rfl)

theorem dReg_setD (s : State) (k n m : Nat) (v : Int) : dReg (setD s k n v) k m = if m = n then v % 65536 else dReg s k m := by
  rw [dReg, bankOf_setD]
  simp only [setD, State.get_put, unsigned]
  by_cases h : m = n
  · simp [h]
  · simp [h, dReg]

/-! One slot (R245): each definition follows the rule's table by the slot's operation `op` and its fields `d` and `r`. -/

/-- The slot writes its destination: not CMP, and not MOV of a register to itself. -/
def slotWrites (op d r : Nat) : Bool := !(op == 7 || (op == 0 && d == r))

/-- The slot reads register `n`. -/
def slotReadsReg (op d r n : Nat) : Bool := if op == 0 then n == r else if op == 6 then n == d else n == d || n == r

/-- The slot's result before it is cut to 16 bits. -/
def slotValue (s : State) (k op d r : Nat) : Int :=
  match op with
  | 0 => dReg s k r
  | 1 => dReg s k d + dReg s k r
  | 2 | 7 => dReg s k d - dReg s k r
  | 3 => andI (dReg s k d) (dReg s k r)
  | 4 => orI (dReg s k d) (dReg s k r)
  | 5 => xorI (dReg s k d) (dReg s k r)
  | _ =>
    if r = 0 then signed 16 (dReg s k d) / 2 else if r = 1 then dReg s k d / 2 else if r = 2 then dReg s k d * 2
    else 0 - dReg s k d

/-- The exact signed result of an arithmetic slot. -/
def slotExact (s : State) (k op d r : Nat) : Option Int :=
  match op with
  | 1 => some (signed 16 (dReg s k d) + signed 16 (dReg s k r))
  | 2 | 7 => some (signed 16 (dReg s k d) - signed 16 (dReg s k r))
  | 6 => if r = 3 then some (0 - signed 16 (dReg s k d)) else none
  | _ => none

/-- C of the slot, where it writes C. -/
def slotCarry (s : State) (k op d r : Nat) : Option Bool :=
  match op with
  | 1 => some (decide (65536 ≤ dReg s k d + dReg s k r))
  | 2 | 7 => some (decide (dReg s k r ≤ dReg s k d))
  | 6 =>
    some (if r = 3 then decide (dReg s k d ≤ 0) else if r = 2 then bitAt (dReg s k d) 15 else bitAt (dReg s k d) 0)
  | _ => none

/-- The slot's result and flags: N and Z of the result, V of the exact result. -/
def slotAlu (s : State) (k op d r : Nat) : Alu where
  r := unsigned 16 (slotValue s k op d r)
  n := some (bitAt (slotValue s k op d r) 15)
  z := some (decide (slotValue s k op d r % 65536 = 0))
  c := slotCarry s k op d r
  v := some ((slotExact s k op d r).any fun z => decide (z < -32768 ∨ 32767 < z))

theorem outOf16_eq (x : Int) : outOf16 x = decide (x < -32768 ∨ 32767 < x) := by
  rw [Bool.eq_iff_iff]
  simp only [outOf16, satS, clampTo, bne_iff_ne, ne_eq, decide_eq_true_eq]
  split
  · omega
  · split <;> omega

theorem isZero_eq (x : Int) : isZero x = decide (x % 65536 = 0) := rfl

theorem slotResult_unary {r : Nat} (hr : r < 4) (s : State) (k d : Nat) : (slotResult s k 6 d r).1 = slotAlu s k 6 d r := by
  obtain rfl | rfl | rfl | rfl : r = 0 ∨ r = 1 ∨ r = 2 ∨ r = 3 := by omega
  · simp [slotResult, slotAlu, slotValue, slotExact, slotCarry, aluAsr, aluShift, shr, topBit, isZero_eq]
  · simp [slotResult, slotAlu, slotValue, slotExact, slotCarry, aluLsr, aluShift, shr, topBit, isZero_eq]
  · simp [slotResult, slotAlu, slotValue, slotExact, slotCarry, aluShl, aluShift, shl, topBit, isZero_eq]
  · simp [slotResult, slotAlu, slotValue, slotExact, slotCarry, aluNeg, aluSub, aluArith, topBit, isZero_eq, outOf16_eq, signed]

theorem slotResult_alu {op r : Nat} (hop : op < 8) (hr : r < 4) (s : State) (k d : Nat) :
    (slotResult s k op d r).1 = slotAlu s k op d r := by
  match op, hop with
  | 0, _ | 3, _ | 4, _ | 5, _ => rfl
  | 1, _ => simp [slotResult, slotAlu, slotValue, slotExact, slotCarry, aluAdd, aluArith, topBit, isZero_eq, outOf16_eq]
  | 2, _ | 7, _ => simp [slotResult, slotAlu, slotValue, slotExact, slotCarry, aluSub, aluArith, topBit, isZero_eq, outOf16_eq]
  | 6, _ => exact slotResult_unary hr s k d

theorem slotResult_writes {op : Nat} (hop : op < 8) (s : State) (k d r : Nat) :
    (slotResult s k op d r).2 = slotWrites op d r := by
  match op, hop with
  | 0, _ => simp [slotResult, slotWrites, bne]
  | 1, _ | 2, _ | 3, _ | 4, _ | 5, _ | 6, _ | 7, _ => rfl

/-! The pairing rule (R231, R246). -/

theorem slotWrites_iff {op d r : Nat} : slotWrites op d r = true ↔ ¬(op = 7 ∨ (op = 0 ∧ d = r)) := by
  simp only [slotWrites, Bool.not_eq_true', ← Bool.not_eq_true, Bool.or_eq_true, Bool.and_eq_true, beq_iff_eq]

theorem slotDest_eq (op d r : Nat) : slotDest (op, d, r) = if slotWrites op d r then some d else none := by
  simp only [slotDest, slotWrites_iff]
  by_cases h : op = 7 ∨ (op = 0 ∧ d = r)
  · rw [if_pos h, if_neg (not_not_intro h)]
  · rw [if_neg h, if_pos h]

theorem slotReads_contains (op d r n : Nat) : (slotReads (op, d, r)).contains n = slotReadsReg op d r n := by
  rw [Bool.eq_iff_iff]
  simp only [slotReads, slotReadsReg, beq_iff_eq, List.contains_iff_mem]
  split
  · simp
  · split <;> simp

theorem pairingFault_eq (opA dA rA opB dB rB : Nat) : pairingFault (opA, dA, rA) (opB, dB, rB) =
    (slotWrites opA dA rA && ((slotWrites opB dB rB && dA == dB) || slotReadsReg opB dB rB dA)) := by
  simp only [pairingFault, slotDest_eq, slotReads_contains]
  cases slotWrites opA dA rA with
  | false => rfl
  | true =>
    cases slotWrites opB dB rB with
    | false => simp
    | true => simp [BEq.comm (a := dA)]

theorem noSharedDest_of_noFault {opA dA rA opB dB rB : Nat} (h : pairingFault (opA, dA, rA) (opB, dB, rB) = false) :
    (slotWrites opA dA rA && slotWrites opB dB rB && dA == dB) = false := by
  rw [pairingFault_eq, Bool.and_or_distrib_left, Bool.or_eq_false_iff, ← Bool.and_assoc] at h
  exact h.1

/-! What both slots leave: each reads the registers as they were in `b`. -/

/-- State `t` with the slot's result, computed from `b`, in its destination. -/
def writeSlot (b t : State) (k op d r : Nat) : State := if slotWrites op d r then setD t k d (slotValue b k op d r) else t

/-- State `b` with the results of slots A and B. -/
def writeSlots (b : State) (k opA dA rA opB dB rB : Nat) : State := writeSlot b (writeSlot b b k opA dA rA) k opB dB rB

theorem writeSlot_closed {K : Part → Bool} {P : State → Prop} {b t : State} {k op d r : Nat} (hP : Closed K P)
    (hK : K (.fld .coreD) = true) (ht : P t) : P (writeSlot b t k op d r) :=
  ite_closed (setD_closed hP hK ht) ht

theorem writeSlots_closed {K : Part → Bool} {P : State → Prop} {b : State} {k opA dA rA opB dB rB : Nat} (hP : Closed K P)
    (hK : K (.fld .coreD) = true) (hb : P b) : P (writeSlots b k opA dA rA opB dB rB) :=
  writeSlot_closed hP hK (writeSlot_closed hP hK hb)

theorem writeSlots_get {b : State} {k opA dA rA opB dB rB : Nat} {f : Fld} {i j : Nat} (hf : f ≠ .coreD) :
    (writeSlots b k opA dA rA opB dB rB).get f i j = b.get f i j :=
  writeSlots_closed (field_closed f i j _) (notFld_true (decide_eq_false hf.symm)) rfl

theorem dReg_writeSlot (b t : State) (k op d r n : Nat) : dReg (writeSlot b t k op d r) k n =
    if slotWrites op d r && n == d then slotValue b k op d r % 65536 else dReg t k n := by
  cases h : slotWrites op d r with
  | false => simp [writeSlot, h]
  | true => simp [writeSlot, h, dReg_setD]

theorem dReg_writeSlots {opA dA rA opB dB rB : Nat}
    (hPair : (slotWrites opA dA rA && slotWrites opB dB rB && dA == dB) = false) (b : State) (k n : Nat) :
    dReg (writeSlots b k opA dA rA opB dB rB) k n =
      if slotWrites opA dA rA && n == dA then slotValue b k opA dA rA % 65536
      else if slotWrites opB dB rB && n == dB then slotValue b k opB dB rB % 65536 else dReg b k n := by
  simp only [writeSlots, dReg_writeSlot]
  by_cases hA : (slotWrites opA dA rA && n == dA) = true
  · have hB : (slotWrites opB dB rB && n == dB) = false := by
      simp only [Bool.and_eq_true, beq_iff_eq] at hA
      obtain ⟨hWrites, rfl⟩ := hA
      simpa [hWrites] using hPair
    simp [hA, hB]
  · simp [hA]

theorem writeSlot_coreD_other {b t : State} {k op d r i j : Nat} (hd : d < 8)
    (hOther : i ≠ k ∨ j < bankOf t k * 8 ∨ bankOf t k * 8 + 8 ≤ j) :
    (writeSlot b t k op d r).get .coreD i j = t.get .coreD i j := by
  unfold writeSlot
  split
  · rw [setD, State.get_put, if_neg]
    grind
  · rfl

theorem bankOf_writeSlot (b t : State) (k op d r : Nat) : bankOf (writeSlot b t k op d r) k = bankOf t k :=
  congrArg Int.toNat (writeSlot_closed (field_closed .XC_STATUS_SB k 0 _) rfl rfl)

theorem writeSlots_coreD_other {b : State} {k opA dA rA opB dB rB i j : Nat} (hA : dA < 8) (hB : dB < 8)
    (hOther : i ≠ k ∨ j < bankOf b k * 8 ∨ bankOf b k * 8 + 8 ≤ j) :
    (writeSlots b k opA dA rA opB dB rB).get .coreD i j = b.get .coreD i j :=
  (writeSlot_coreD_other hB (by rwa [bankOf_writeSlot])).trans (writeSlot_coreD_other hA hOther)

/-- The state that a paired word leaves: both results, and slot B's flags. -/
def pairedState (b : State) (k opA dA rA opB dB rB : Nat) : State :=
  putStatus (writeSlots b k opA dA rA opB dB rB) k (slotAlu b k opB dB rB)

section
variable {b : State} {k opA dA rA opB dB rB : Nat}

theorem pairedState_flagAt_swN : FlagAt b (pairedState b k opA dA rA opB dB rB) k .swN (slotAlu b k opB dB rB).n :=
  (putStatus_flagAt_swN _ k _).of_get fun _ _ => writeSlots_get (by decide)

theorem pairedState_flagAt_swZ : FlagAt b (pairedState b k opA dA rA opB dB rB) k .swZ (slotAlu b k opB dB rB).z :=
  (putStatus_flagAt_swZ _ k _).of_get fun _ _ => writeSlots_get (by decide)

theorem pairedState_flagAt_swC : FlagAt b (pairedState b k opA dA rA opB dB rB) k .swC (slotAlu b k opB dB rB).c :=
  (putStatus_flagAt_swC _ k _).of_get fun _ _ => writeSlots_get (by decide)

theorem pairedState_flagAt_swV : FlagAt b (pairedState b k opA dA rA opB dB rB) k .swV (slotAlu b k opB dB rB).v :=
  (putStatus_flagAt_swV _ k _).of_get fun _ _ => writeSlots_get (by decide)

theorem pairedState_sameBut :
    b.SameBut (fun p => p ∈ [.fld .coreD, .fld .swN, .fld .swZ, .fld .swC, .fld .swV]) (pairedState b k opA dA rA opB dB rB) :=
  putStatus_closed (sameBut_closed _ b) (by decide) (by decide) (by decide) (by decide)
    (writeSlots_closed (sameBut_closed _ b) (by decide) (SameBut_refl _ b))

theorem pairedState_coreD {i j : Nat} : (pairedState b k opA dA rA opB dB rB).get .coreD i j =
    (writeSlots b k opA dA rA opB dB rB).get .coreD i j := putStatus_get (by decide)

theorem dReg_pairedState (n : Nat) : dReg (pairedState b k opA dA rA opB dB rB) k n =
    dReg (writeSlots b k opA dA rA opB dB rB) k n := by
  have hBank : bankOf (pairedState b k opA dA rA opB dB rB) k = bankOf (writeSlots b k opA dA rA opB dB rB) k :=
    congrArg Int.toNat (putStatus_get (by decide))
  rw [dReg, hBank, pairedState_coreD, dReg]

end

/-! The instruction on a core that is ready for it. -/

theorem setD_slotResult {op r : Nat} (hop : op < 8) (hr : r < 4) (b t : State) (k d : Nat) :
    (if (slotResult b k op d r).2 then setD t k d (slotResult b k op d r).1.r else t) = writeSlot b t k op d r := by
  rw [slotResult_writes hop, slotResult_alu hop hr]
  exact congrArg (fun x => if slotWrites op d r then x else t) (setD_unsigned ..)

theorem putAlu_slotResults {b : State} {k opA dA rA opB dB rB : Nat} (hDiv : b.get .divOn k = 0) (hMac : b.get .macOn k = 0)
    (hopA : opA < 8) (hrA : rA < 4) (hopB : opB < 8) (hrB : rB < 4) :
    putAlu (if (slotResult b k opB dB rB).2 then
        setD (if (slotResult b k opA dA rA).2 then setD b k dA (slotResult b k opA dA rA).1.r else b) k dB
          (slotResult b k opB dB rB).1.r
      else if (slotResult b k opA dA rA).2 then setD b k dA (slotResult b k opA dA rA).1.r else b) k
      (slotResult b k opB dB rB).1 = pairedState b k opA dA rA opB dB rB := by
  rw [setD_slotResult hopA hrA, setD_slotResult hopB hrB, slotResult_alu hopB hrB]
  exact putAlu_eq_putStatus ((writeSlots_get (by decide)).trans hDiv) ((writeSlots_get (by decide)).trans hMac) rfl

section
variable {k : CoreId} {w : BitVec 15} {s b : State} (hReady : (s.atBoundary k).Ready k 1 true)
  (hb : (s.atBoundary k).fetched k 1 = b)
include hReady hb

theorem pairedWord_illegal (hLow : w.getLsbD 0 = true) :
    exec (.pairedWord k w) s = .next (takeException b k (pcOf b k) { vec := excIllegal }) := by
  subst hb
  exact coreStep_of_fault hReady rfl rfl (if_pos hLow)

theorem pairedWord_fault (hLow : w.getLsbD 0 = false)
    (hFault : pairingFault (slotFields w.toNat 8) (slotFields w.toNat 1) = true) :
    exec (.pairedWord k w) s = .next (takeException b k (pcOf b k) { vec := excPairing }) := by
  subst hb
  exact coreStep_of_fault hReady rfl rfl ((if_neg (Bool.eq_false_iff.mp hLow)).trans (if_pos hFault))

theorem pairedWord_ends (hLow : w.getLsbD 0 = false)
    (hNoFault : pairingFault (slotFields w.toNat 8) (slotFields w.toNat 1) = false) :
    Ends (exec (.pairedWord k w) s) k 1 (· = pairedState b k (w.toNat / 2 ^ 12 % 8) (w.toNat / 2 ^ 10 % 4) (w.toNat / 2 ^ 8 % 4)
      (w.toNat / 2 ^ 5 % 8) (w.toNat / 2 ^ 3 % 4) (w.toNat / 2 % 4)) := by
  have hDiv : b.get .divOn k = 0 := hb ▸ (fetched_get rfl).trans hReady.noDiv
  have hMac : b.get .macOn k = 0 := hb ▸ (fetched_get rfl).trans hReady.noMac
  subst hb
  refine coreStep_ends_of_done hReady rfl rfl ?done ((putStatus_get (by decide)).trans (writeSlots_get (by decide))) rfl
  refine (if_neg (Bool.eq_false_iff.mp hLow)).trans ((if_neg (Bool.eq_false_iff.mp hNoFault)).trans ?_)
  exact congrArg Res.done (putAlu_slotResults hDiv hMac (Nat.mod_lt _ (by decide)) (Nat.mod_lt _ (by decide))
    (Nat.mod_lt _ (by decide)) (Nat.mod_lt _ (by decide)))

end

/-- Settles O35: on a ready core the word is illegal, breaks the pairing rule, or leaves the paired state of its two slots. -/
theorem pairedWords : Obligations.PairedWords := by
  unfold Obligations.PairedWords
  intro k w s b0 b writes reads x sg value exactOf carry opA dA rA opB dB rB clash hReady
  have hRule : pairingFault (slotFields w.toNat 8) (slotFields w.toNat 1) = clash := pairingFault_eq opA dA rA opB dB rB
  refine ⟨pairedWord_illegal hReady rfl, fun hLow hClash => pairedWord_fault hReady rfl hLow (hRule.trans hClash),
    fun hLow hClash => (pairedWord_ends hReady rfl hLow (hRule.trans hClash)).mono ?_⟩
  rintro t rfl
  have hA : dA < 8 := by omega
  have hB : dB < 8 := by omega
  have hApart := noSharedDest_of_noFault (hRule.trans hClash)
  exact ⟨fun n _ => (dReg_pairedState n).trans (dReg_writeSlots hApart b k n), pairedState_flagAt_swN, pairedState_flagAt_swZ,
    pairedState_flagAt_swC, pairedState_flagAt_swV, pairedState_sameBut,
    fun i j hOther => pairedState_coreD.trans (writeSlots_coreD_other hA hB (hOther.imp_left Fin.val_ne_of_ne))⟩

end Sys2Proof.Machine
end

section
/-! PROOFS. No write access and no store activates REP (R262): the field is none of the register map, and a reset that a write
brings about clears it (R218, R440). -/
namespace Sys2Proof.Machine

/-- No REP is active on core `k`. -/
def RepOff (k : Nat) (s : State) : Prop := s.get .repOn k = 0

theorem repOff_closed (k : Nat) : Closed (notFld .repOn) (RepOff k) := field_closed .repOn k 0 0

section
variable {k : Nat} {s : State}

/-! Resets of cores. -/

theorem resetKeys_repOff {p : Key → Bool} (hs : RepOff k s) : RepOff k (s.resetKeys p) := by
  unfold RepOff State.resetKeys State.get
  rw [regGet_filter s.rf (fun x => !p x)]
  split
  · exact hs
  · rfl

theorem resetRegs_repOff {c : Nat} (hs : RepOff k s) : RepOff k (resetRegs s c) := by
  have hReset := resetKeys_repOff (p := fun x => (coreFld x.fld && x.i == c) || x.fld == .XC_STATUS_SB && x.i == c) hs
  exact hReset

theorem resetCore_repOff {c : Nat} (hs : RepOff k s) : RepOff k (resetCore s c) := resetKeys_repOff (resetRegs_repOff hs)

theorem put_repOff {f : Fld} {v : Int} {i j : Nat} (hf : f ≠ .repOn) (hs : RepOff k s) : RepOff k (s.put f v i j) :=
  (repOff_closed k).put _ _ _ _ _ (notFld_true (decide_eq_false hf)) hs

theorem imageWindow_ne_repOn {c : Nat} : ∀ e ∈ imageWindow c, e.2.1 ≠ .repOn := by
  unfold imageWindow
  split
  · decide
  · decide

theorem restoreWindow_repOff {c : Nat} (hs : RepOff k s) : RepOff k (restoreWindow s c) :=
  Closed.eachMem (fun _ e he => put_repOff (imageWindow_ne_repOn e he)) hs

theorem resetToImage_repOff {c : Nat} (hs : RepOff k s) :
    RepOff k (resync (clearActive (restoreWindow (resetCore s c) c) c) c) :=
  resync_closed (repOff_closed k) rfl (clearActive_closed (repOff_closed k) rfl (restoreWindow_repOff (resetCore_repOff hs)))

theorem tickCoreReset_repOff {c : Nat} (hs : RepOff k s) : RepOff k (tickCoreReset s c) :=
  put_repOff (by decide) (put_repOff (by decide) (resetToImage_repOff hs))

theorem releaseCore_repOff {c : Nat} (hs : RepOff k s) : RepOff k (releaseCore s c) :=
  put_repOff (by decide) (put_repOff (by decide) (resetRegs_repOff hs))

theorem tickCoreRun_repOff {c : Nat} {run : Bool} (hs : RepOff k s) : RepOff k (tickCoreRun s c run) := by
  have hRun : RepOff k (s.put .PW_TCCTL_RUN (bit01 run) c) := put_repOff (by decide) hs
  exact ite_closed hRun (ite_closed (tickCoreReset_repOff hRun) (ite_closed hRun (releaseCore_repOff hRun)))

theorem mcReset_repOff {cause : Int} (hs : RepOff k s) : RepOff k (mcReset s cause) := by
  have hWake : RepOff k (if s.get .sleepMode == 1 then standbyWake s 0 0 else s) :=
    ite_closed (standbyWake_closed (repOff_closed k) rfl hs) hs
  have hOff : ∀ {t}, RepOff k t → RepOff k (((t.clear .UC_CTRL_LDEN).clear .ucWait).clear .coreOn 5) := fun ht =>
    put_repOff (by decide) (put_repOff (by decide) (put_repOff (by decide) ht))
  have hLost : ∀ {t}, RepOff k t → RepOff k { t with logQueue := [] } := fun ht => ht
  have hRestart := hLost (hgRestart_closed (repOff_closed k) rfl (hOff (resetToImage_repOff (c := 5) hWake)))
  exact put_repOff (by decide) (put_repOff (by decide) (put_repOff (by decide) (put_repOff (by decide)
    (put_repOff (by decide) (put_repOff (by decide) hRestart)))))

/-! The fields that a write to a register stores. -/

theorem regTable_ne_repOn : ∀ r ∈ regTable, ∀ f ∈ r.fields, f.fld ≠ .repOn := by decide +kernel

theorem findReg_ne_repOn {a i j w : Nat} {reg : RegRow} (h : findReg a = some (reg, i, j, w)) :
    ∀ f ∈ reg.fields, f.fld ≠ .repOn := by
  obtain ⟨r, hr, hAt⟩ := List.exists_of_findSome?_eq_some h
  obtain ⟨p, -, hp⟩ := Option.map_eq_some_iff.mp hAt
  cases hp
  exact regTable_ne_repOn _ hr

theorem storeField_repOff {a : Nat} {f : FieldRow} {i j : Nat} {w : Option Nat} {v : Int} (hf : f.fld ≠ .repOn)
    (hs : RepOff k s) : RepOff k (storeField s a f i j w v) := by
  have hPut : ∀ x, RepOff k (if !writable s f.fld x i j then reportIllegal s f.fld i
      else if tickTimed a then s.later f.fld x i j else s.put f.fld x i j) := fun x =>
    ite_closed (reportIllegal_closed (repOff_closed k) rfl hs) (ite_closed ((repOff_closed k).later rfl hs) (put_repOff hf hs))
  unfold storeField
  split
  · exact hs
  · exact hs
  · exact hs
  · exact put_repOff hf hs
  · exact put_repOff hf hs
  · exact hPut _
  · exact ite_closed hs (hPut _)

theorem mem_touched {reg : RegRow} {w : Option Nat} {f : FieldRow} (h : f ∈ touched reg w) : f ∈ reg.fields := by
  cases w with
  | none => exact h
  | some w => exact (List.mem_filter.mp h).1

theorem slWrite_repOff {a : Nat} {v : Int} (hs : RepOff k s) : RepOff k (slWrite s a v) := by
  unfold slWrite
  split
  · exact put_repOff (by decide) hs
  split
  · exact hs
  next reg i j w hReg =>
  refine Closed.eachMem (fun t f hf ht => ?_) hs
  have hne := findReg_ne_repOn hReg f (List.mem_filter.mp hf).1
  refine ite_closed (reportIllegal_closed (repOff_closed k) rfl ht) ?_
  refine Closed.when (fun _ hu => put_repOff (by decide) (put_repOff (by decide) hu)) ?_
  refine Closed.when (fun _ hu => rankAll_closed (repOff_closed k) rfl hu) ?_
  refine Closed.when (fun _ hu => put_repOff (by decide) hu) ?_
  exact Closed.when (fun _ hu => put_repOff (by decide) hu) (put_repOff hne ht)

theorem bankFields_ne_repOn {f : Fld} (h : bankFields.contains f = true) : f ≠ .repOn := by
  rintro rfl
  exact absurd h (by decide)

section
variable {reg : RegRow} {i j : Nat} {w : Option Nat} {v : Int} (hReg : ∀ f ∈ reg.fields, f.fld ≠ .repOn) (hs : RepOff k s)
include hReg hs

theorem storeFields_repOff : RepOff k (storeFields s reg i j w v) :=
  Closed.eachMem (fun _ f hf => storeField_repOff (hReg f (mem_touched hf))) hs

theorem ucWrite_repOff {ag : Agent} {base : Nat} : RepOff k (ucWrite s ag base i reg w v) := by
  unfold ucWrite
  dsimp only
  split
  · exact microwordWrite_closed (repOff_closed k) rfl hs
  · exact decodeEntryWrite_closed (repOff_closed k) rfl hs
  · exact ite_closed (storeFields_repOff hReg hs) (put_repOff (by decide) hs)

theorem irWrite_repOff {ag : Agent} {base : Nat} : RepOff k (irWrite s ag base i reg w v) := by
  have hRefuse : RepOff k (irRefuse s) := irRefuse_closed (repOff_closed k) rfl hs
  unfold irWrite
  dsimp only
  split
  · exact ite_closed (irCfgWrite_closed (repOff_closed k) rfl hs) hRefuse
  · exact ite_closed (irRlWrite_closed (repOff_closed k) rfl hs) hRefuse
  · refine ite_closed (Closed.when (fun _ => put_repOff (by decide)) (Closed.when (fun _ => put_repOff (by decide)) ?_)) hRefuse
    exact Closed.when (fun _ ht => spend_closed (repOff_closed k) rfl ht) hs
  · exact ite_closed (Closed.when (fun _ ht => clearPending_closed (repOff_closed k) rfl ht) hs) hRefuse
  · exact ite_closed (storeFields_repOff hReg hs) hRefuse

theorem dmaWrite_repOff {ag : Agent} {base : Nat} : RepOff k (dmaWrite s ag base i reg w v) := by
  have hStored : RepOff k (storeFields s reg i 0 w v) := storeFields_repOff hReg hs
  refine ite_closed (dmaRefuse_closed (repOff_closed k) rfl hs) ?_
  split
  · exact dmaCfgWrite_closed (repOff_closed k) rfl hs
  · exact Closed.when (fun _ => put_repOff (by decide)) hStored
  · exact dmaCtlWrite_closed (repOff_closed k) rfl hs
  · exact dmaAddrWrite_closed (repOff_closed k) rfl rfl hs
  · exact dmaAddrWrite_closed (repOff_closed k) rfl rfl hs
  · exact ite_closed hStored hs
  · exact dmaCntWrite_closed (repOff_closed k) rfl hs
  · exact hStored

theorem dataWrite_repOff {base : Nat} : OptAll (RepOff k) (dataWrite s base i j reg w v) := by
  have hC := repOff_closed k
  have hStored : RepOff k (storeFields s reg i j w v) := storeFields_repOff hReg hs
  unfold dataWrite
  dsimp only
  split
  · exact .mk (ite_closed (rotationStep_closed hC rfl hStored) hStored)
  · exact .mk (ite_closed (declareConverter_closed hC rfl hStored) hStored)
  · exact .mk (tempLimitWrite_closed hC rfl hs)
  · exact .mk (tempLimitWrite_closed hC rfl hs)
  · exact .mk (ite_closed hStored hs)
  · exact .mk (Closed.when (fun _ ht => copyBank_closed hC rfl ht) (Closed.when (fun _ ht => commitBank_closed hC rfl ht) hs))
  · exact .mk (ite_closed (setpointWrite_closed hC rfl hs) (reportIllegal_closed hC rfl hs))
  · exact .mk (Closed.when (fun _ ht => rsreqWrite_closed hC rfl ht)
      (Closed.when (fun _ ht => fclrWrite_closed hC rfl ht) hStored))
  · exact .mk (Closed.when (fun _ => put_repOff (by decide)) hs)
  · exact .mk (forceWrite_closed hC rfl hs)
  · exact .mk (ite_closed (hC.later rfl hs) (put_repOff (by decide) hs))
  · exact .mk (Closed.each (fun _ _ => put_repOff (by decide)) _ hs)
  · exact .mk (Closed.each (fun _ _ => put_repOff (by decide)) _ hs)
  · exact .mk (Closed.when (fun _ => put_repOff (by decide)) hs)
  · exact .mk (ite_closed (csubWrite_closed hC rfl hStored) hStored)
  · exact .mk (thresholdWrite_closed hC rfl hs)
  · exact .mk (thresholdWrite_closed hC rfl hs)
  · exact .mk (ite_closed (declareWeir_closed hC rfl hStored) hStored)
  · exact .mk (ite_closed (grantDecide_closed hC rfl hStored) hStored)
  · exact .mk (Closed.when (fun _ ht => snapStart_closed hC rfl ht) hStored)
  · exact .mk (shedWrite_closed hC rfl hs)
  · exact .mk (shedWrite_closed hC rfl hs)
  · exact .mk (ite_closed hs (hC.later rfl hStored))
  · exact .mk (Closed.when (fun _ ht => unretPhase_closed hC rfl ht) (Closed.when (fun _ ht => retirePhase_closed hC rfl ht) hs))
  · split
    · split
      · next hBank =>
        exact .mk (bankWrite_closed hC rfl (notFld_true (decide_eq_false (bankFields_ne_repOn hBank))) hs)
      · exact .none
    · exact .none

theorem systemWrite_repOff {ag : Agent} {base : Nat} : OptAll (RepOff k) (systemWrite s ag base i reg w v) := by
  have hC := repOff_closed k
  have hStored : RepOff k (storeFields s reg i 0 w v) := storeFields_repOff hReg hs
  unfold systemWrite
  dsimp only
  split
  · exact .mk (retAdd_closed hC rfl hs)
  · exact .mk (Closed.when (fun _ ht => scrubGo_closed hC rfl ht) hStored)
  · exact .mk (recCtrlWrite_closed hC rfl hs)
  · exact .mk (recBaseWrite_closed hC rfl hs)
  · exact .mk (frzPostWrite_closed hC rfl hs)
  · exact .mk (ite_closed hStored (put_repOff (by decide) hs))
  · exact .mk (Closed.when (fun _ ht => msgGo_closed hC rfl ht) hs)
  · exact .mk (Closed.when (fun _ ht => hgDone_closed hC rfl ht) (Closed.when (fun _ ht => hgTake_closed hC rfl ht) hStored))
  · exact .mk (Closed.when (fun _ ht => portReset_closed hC rfl ht) hs)
  · exact .mk (Closed.when (fun _ ht => goWrite_closed hC rfl ht) hs)
  · exact .mk (Closed.when (fun _ => put_repOff (by decide)) hStored)
  · exact .mk (slWrite_repOff hs)
  · exact .mk (rsDoneWrite_closed hC rfl hs)
  · exact .mk (Closed.when (fun _ ht => mcReset_repOff ht) (sleepRequest_closed hC rfl hs))
  · exact .mk (ite_closed hs (wdRestart_closed hC rfl hStored))
  · exact .mk (watchdogKick_closed hC rfl hs)
  · exact .mk (tickCoreRun_repOff hs)
  · exact .mk (Closed.when (fun _ ht => takeoverDone_closed hC rfl ht) hs)
  · exact .mk (asidWrite_closed hC rfl hs)
  · exact .mk (tlbOp_closed hC rfl hs)
  · exact .none

theorem regStore_repOff {ag : Agent} : RepOff k (regStore s ag reg i j w v) := by
  have hSpecial : OptAll (RepOff k) (if 0x450000 ≤ reg.base ∧ reg.base < 0x460000 then eventWrite s ag reg.base i reg w v
      else if reg.base < 0x800000 then dataWrite s reg.base i j reg w v else systemWrite s ag reg.base i reg w v) := by
    split
    · exact eventWrite_closed (repOff_closed k) rfl hs
    split
    · exact dataWrite_repOff hReg hs
    · exact systemWrite_repOff hReg hs
  exact ite_closed (ucWrite_repOff hReg hs) (ite_closed (irWrite_repOff hReg hs) (ite_closed (dmaWrite_repOff hReg hs)
    (ite_closed hs (hSpecial.getD (storeFields_repOff hReg hs)))))

end

/-! Accesses and stores. -/

theorem regWrite_repOff {ag : Agent} {a : Nat} {v : Int} (hs : RepOff k s) : RepOff k (regWrite s ag a v) := by
  unfold regWrite
  split
  · exact reservedWrite_closed (repOff_closed k) rfl hs
  next reg i j w hReg =>
  have hne := findReg_ne_repOn hReg
  have hHeld : RepOff k (s.each (List.range w) fun s x => (s.clear .holdMark (a - w + x)).clear .holdWord (a - w + x)) :=
    Closed.each (fun _ _ ht => put_repOff (by decide) (put_repOff (by decide) ht)) _ hs
  exact ite_closed (put_repOff (by decide) hs) (ite_closed (put_repOff (by decide) (put_repOff (by decide) hs))
    (ite_closed (regStore_repOff hne hHeld) (regStore_repOff hne hs)))

theorem busWrite_repOff {ag : Agent} {a : Nat} {v : Int} (hs : RepOff k s) : RepOff k (busWrite s ag a v).2 := by
  unfold busWrite
  split
  · exact hs
  split
  · exact hs
  · exact regWrite_repOff hs

theorem physWrite_repOff {ag : Agent} {a : Nat} {v : W16} (hs : RepOff k s) : RepOff k (physWrite s ag a v).2 := by
  have hBus : RepOff k (busWrite s ag a v.toNat).2 := busWrite_repOff hs
  have hMem : RepOff k (memWrite s a v).2 := memWrite_closed (repOff_closed k) rfl hs
  unfold physWrite
  split
  · split
    · next h => exact of_snd h hBus
    · next h => exact of_snd h hBus
  · split
    · next h => exact of_snd h hBus
    · next h => exact of_snd h hBus
  · exact hMem

theorem storeWord_repOff {c : Nat} {pas : List Nat} {pa : Nat} {v : W16} (hs : RepOff k s) :
    RepOff k (storeWord s c pas pa v).2 := by
  unfold storeWord
  split
  · exact countUE_closed (repOff_closed k) rfl hs
  · exact Closed.when (fun _ => put_repOff (by decide)) (physWrite_repOff hs)

theorem writeCells_repOff {c : Nat} {l : List (Nat × W16)} (hs : RepOff k s) : RepOff k (writeCells s c l).2 := by
  refine foldl_snd (fun r _ hr => ?_) hs
  split
  · exact storeWord_repOff hr
  · exact hr

theorem drainEntry_repOff {e : StoreEnt} (hs : RepOff k s) : RepOff k (drainEntry s e) := by
  have hIssued : RepOff k (asIssued s e fun t => writeCells t e.core e.cells).2 :=
    asIssued_closed (repOff_closed k) rfl (fun _ => writeCells_repOff) hs
  exact ite_closed hIssued hIssued

theorem drainOldest_repOff {c : Nat} (hs : RepOff k s) : RepOff k (drainOldest s c) := by
  unfold drainOldest
  split
  · exact hs
  · exact drainEntry_repOff hs

theorem bufferStore_repOff {e : StoreEnt} (hs : RepOff k s) : RepOff k (bufferStore s e) :=
  ite_closed (P := RepOff k) (drainOldest_repOff hs) hs

theorem store_repOff {c : Nat} {sup frame : Bool} {va : Int} {vals : List Int} {t u : State} (hs : RepOff k s)
    (h : store s c sup va vals frame = (.ok t, u)) : RepOff k t := by
  have hReach := reachAll_closed (k := c) (sup := sup) (va := va) (x := .write) (n := vals.length) (repOff_closed k) rfl hs
  unfold store at h
  split at h
  · cases h
  next pas b hPas =>
  have hb : RepOff k b := of_snd hPas hReach
  cases h
  exact ite_closed (writeCells_repOff hb) (bufferStore_repOff (writeCells_repOff hb))

end

end Sys2Proof.Machine
end

section
/-! PROOFS. Branches, jumps, calls and returns (R259, R260, R263). -/
namespace Sys2Proof.Machine

/-! The end of an instruction that a core executes after the stalls for older long operations (R228, R234). -/

theorem settle_useAll (s : State) (k : Nat) : settle s k (useAll false) = retireAll s k := by
  have hDiv : (if s.bit .divOn k then retireDiv s k else s) = retireDiv s k := by
    split
    · rfl
    · next h => simp [retireDiv, h]
  have hMac : ∀ t, (if t.bit .macOn k then retireMac t k else t) = retireMac t k := by
    intro t
    split
    · rfl
    · next h => simp [retireMac, h]
  simp [settle, useAll, hDiv, hMac, retireAll]

section
variable {s u : State} {k : Nat} {m : Form} {f : State → Res} {t : State} {e : Exc}

theorem coreStep_of_settled (hIssue : canIssue (s.atBoundary k) k = true) (hSettle : settle (s.atBoundary k) k m.use = u)
    (hReady : u.Ready k m.len (m.rep && m.len == 1)) (hPriv : m.priv = false) :
    coreStep s k m f = .next (execute (u.fetched k m.len) k m f) := by
  have hCan : canIssue s k = true := canIssue_atBoundary s k ▸ hIssue
  have hOn := coreOn_of_canIssue hReady.issue
  have hTrap := firstTrap_eq_none hReady.noTrap
  have hRun := decodeAndRun_of_ready (f := f) hReady hPriv
  unfold State.atBoundary at hSettle
  simp only [coreStep, runCore, hCan, hSettle, ifOn_of_on hOn, hTrap, hRun, Bool.not_true, Bool.false_eq_true, if_false]

section
variable (hIssue : canIssue (s.atBoundary k) k = true) (hSettle : settle (s.atBoundary k) k m.use = u)
  (hReady : u.Ready k m.len (m.rep && m.len == 1)) (hPriv : m.priv = false) (hOn : t.bit .coreOn k = true)
include hIssue hSettle hReady hPriv hOn

theorem coreStep_of_jump (h : f (u.fetched k m.len) = .jump t) : coreStep s k m f = .next t := by
  rw [coreStep_of_settled hIssue hSettle hReady hPriv, execute, h]
  exact congrArg _ (ifOn_of_on hOn)

theorem coreStep_of_done (h : f (u.fetched k m.len) = .done t) : coreStep s k m f = .next (endInstr t k m.len) := by
  rw [coreStep_of_settled hIssue hSettle hReady hPriv, execute, h]
  exact congrArg _ (ifOn_of_on hOn)

theorem coreStep_of_raised (h : f (u.fetched k m.len) = .fault e t) :
    coreStep s k m f = .next (takeException t k (pcOf t k) e) := by
  rw [coreStep_of_settled hIssue hSettle hReady hPriv, execute, h]
  exact congrArg _ (ifOn_of_on hOn)

end

end

/-! What the fetch leaves as it was. -/

section
variable (s : State) (k len : Nat)

theorem pcOf_fetched : pcOf (s.fetched k len) k = pcOf s k := fetched_get rfl

theorem supervisor_fetched : supervisor (s.fetched k len) k = supervisor s k := by
  simp only [supervisor, State.bit, fetched_get (f := .swPriv) rfl]

theorem pReg_fetched (n : Nat) : pReg (s.fetched k len) k n = pReg s k n := by
  simp only [pReg, bankOf, State.nat, fetched_get (f := .swPriv) rfl, fetched_get (f := .coreUsp) rfl,
    fetched_get (f := .coreP) rfl, fetched_get (f := .XC_STATUS_SB) rfl]

theorem condition_fetched (c : Nat) : condition (s.fetched k len) k c = condition s k c := by
  simp only [condition, State.bit, fetched_get (f := .swN) rfl, fetched_get (f := .swZ) rfl, fetched_get (f := .swC) rfl,
    fetched_get (f := .swV) rfl]

end

/-! The conditions (R259): their table is that of the codes in order. -/

theorem eq_of_getElem?_map_range {f : Nat → Bool} {n c : Nat} {v : Bool} (h : ((List.range n).map f)[c]? = some v) :
    c < n ∧ f c = v := by
  obtain ⟨hLt, hv⟩ := List.getElem?_eq_some_iff.mp h
  simp only [List.length_map, List.length_range] at hLt
  simp only [List.getElem_map, List.getElem_range] at hv
  exact ⟨hLt, hv⟩

/-! Where a branch, jump or return goes (R239, R263). -/

/-- Address `z` lies in the body of the loop context of core `k`. -/
def InBody (x : State) (k : Nat) (z : Int) : Prop :=
  (z - x.get .loopStart k) % 2 ^ 24 ≤ (x.get .loopEnd k - x.get .loopStart k) % 2 ^ 24

theorem inBody_iff {x : State} {k : Nat} {z : Int} : inBody x k z = true ↔ InBody x k z := decide_eq_true_iff

theorem branchTo_eq (x : State) (k : Nat) (z : Int) {leaves : Prop} [Decidable leaves]
    (h : leaves ↔ x.get .loopOn k ≠ 0 ∧ InBody x k (pcOf x k) ∧ ¬InBody x k (z % 2 ^ 24)) :
    branchTo x k z = ((if leaves then ((x.put .loopOn 0 k).put .lbPhase 0 k).put .lbOn 0 k else x).put .fqLen 0 k).put .corePc
      (z % 2 ^ 24) k := by
  have hCond : (x.bit .loopOn k && inBody x k (pcOf x k) && !inBody x k (a24 z)) = true ↔ leaves := by
    simp only [h, State.bit, Bool.and_eq_true, Bool.not_eq_true', bne_iff_ne, ne_eq, and_assoc, inBody_iff, ← Bool.not_eq_true]
    rfl
  rw [branchTo]
  exact congrArg (fun y : State => (y.put .fqLen 0 k).put .corePc (z % 2 ^ 24) k) (ite_congr (propext hCond) (fun _ => rfl) fun _ => rfl)

theorem coreOn_branchTo {x : State} {k : Nat} {z : Int} (h : x.bit .coreOn k = true) : (branchTo x k z).bit .coreOn k = true := by
  rw [State.bit, branchTo_get rfl]
  exact h

/-! Calls (R260, R263). -/

theorem State.Ready.repOff {b : State} {k len : Nat} (h : b.Ready k len false) : RepOff k b :=
  h.repeated.resolve_right Bool.false_ne_true

theorem endInstr_of_repOff {s : State} {k len : Nat} (h : RepOff k s) : endInstr s k len = advance s k len := by
  simp [endInstr, State.bit, show s.get .repOn k = 0 from h]

theorem setP_a24 (s : State) (k n : Nat) (v : Int) : setP s k n (a24 v) = setP s k n v := by
  simp [setP, a24, unsigned]

/-- The words that a call at state `b` pushes: the address where its end, with the loop's, leads. -/
def returnWords (b : State) (k len : Nat) : List Int := pWords (pcOf (endInstr b k len) k)

/-- What a call leaves where the push has left state `t`. -/
def calledState (t : State) (k len : Nat) (sp z : Int) : State :=
  (setP ((((endInstr t k len).put .lbPhase 0 k).put .lbOn 0 k).put .fqLen 0 k) k 7 sp).put .corePc (z % 2 ^ 24) k

theorem coreOn_calledState {t : State} {k len : Nat} {sp z : Int} (h : t.bit .coreOn k = true) :
    (calledState t k len sp z).bit .coreOn k = true := by
  rw [State.bit, calledState, State.get_put_fld _ _ _ _ _ _ _ _ (by decide), setP_get rfl,
    State.get_put_fld _ _ _ _ _ _ _ _ (by decide), State.get_put_fld _ _ _ _ _ _ _ _ (by decide),
    State.get_put_fld _ _ _ _ _ _ _ _ (by decide), endInstr_get rfl]
  exact h

section
variable {b t v : State} {k len : Nat} {z : Int} {e : Exc} (hOff : RepOff k b)
include hOff

theorem callTo_of_ok
    (h : store b k (supervisor b k) (a24 (pReg b k 7 - 2)) (returnWords b k len) = (.ok t, v)) :
    callTo b k len z = .jump (calledState t k len (pReg b k 7 - 2) z) := by
  have hPushed := store_repOff hOff h
  rw [returnWords, endInstr_of_repOff hOff] at h
  rw [calledState, endInstr_of_repOff hPushed]
  simp only [callTo, h, setP_a24]
  rfl

theorem callTo_of_error
    (h : store b k (supervisor b k) (a24 (pReg b k 7 - 2)) (returnWords b k len) = (.error e, v)) :
    callTo b k len z = .fault e v := by
  rw [returnWords, endInstr_of_repOff hOff] at h
  simp only [callTo, h]

end

section
variable {k : CoreId} {s b t v : State} {len : Nat} {z : Int} {e : Exc} {f : State → Res}
  (hReady : (s.atBoundary k).Ready k len false) (hb : (s.atBoundary k).fetched k len = b)
  (hf : f b = callTo b k len z)
include hReady hb hf

theorem call_pushes
    (h : store b k (supervisor (s.atBoundary k) k) ((pReg (s.atBoundary k) k 7 - 2) % 2 ^ 24) (returnWords b k len) = (.ok t, v))
    (hOn : t.get .coreOn k ≠ 0) :
    coreStep s k { len := len } f = .next (calledState t k len (pReg (s.atBoundary k) k 7 - 2) z) := by
  subst hb
  rw [← supervisor_fetched, ← pReg_fetched] at h
  have hOff : RepOff k ((s.atBoundary k).fetched k len) := (fetched_get rfl).trans hReady.repOff
  have hCalled := hf.trans (callTo_of_ok hOff h)
  rw [pReg_fetched] at hCalled
  exact coreStep_of_jump hReady.issue (settle_eq_self rfl hReady.noDiv hReady.noMac) hReady rfl
    (coreOn_calledState (bne_iff_ne.mpr hOn)) hCalled

theorem call_faults
    (h : store b k (supervisor (s.atBoundary k) k) ((pReg (s.atBoundary k) k 7 - 2) % 2 ^ 24) (returnWords b k len) =
      (.error e, v)) (hOn : v.get .coreOn k ≠ 0) :
    coreStep s k { len := len } f = .next (takeException v k (pcOf v k) e) := by
  subst hb
  rw [← supervisor_fetched, ← pReg_fetched] at h
  have hOff : RepOff k ((s.atBoundary k).fetched k len) := (fetched_get rfl).trans hReady.repOff
  exact coreStep_of_raised hReady.issue (settle_eq_self rfl hReady.noDiv hReady.noMac) hReady rfl (bne_iff_ne.mpr hOn)
    (hf.trans (callTo_of_error hOff h))

end

/-! Branches on the flags that the older long operations have left (R234, R259). -/

section
variable {k : CoreId} {s u : State} {c3 : Fin 8} {o8 : BitVec 8} (hIssue : canIssue (s.atBoundary k) k = true)
  (hReady : (retireAll (s.atBoundary k) k).Ready k 1 false) (hu : (retireAll (s.atBoundary k) k).fetched k 1 = u)
include hIssue hReady hu

theorem bcc_of_holds (hCond : condition (retireAll (s.atBoundary k) k) k (longCondition c3) = true) :
    exec (.bcc k c3 o8) s = .next (branchTo u k (pcOf u k + 1 + o8.toInt)) := by
  subst hu
  exact coreStep_of_jump hIssue (settle_useAll _ _) hReady rfl (coreOn_branchTo (coreOn_fetched_of_ready hReady))
    (congrArg (branchIf _ k 1 o8.toInt) ((condition_fetched ..).trans hCond))

theorem bcc_of_fails (hCond : condition (retireAll (s.atBoundary k) k) k (longCondition c3) = false) :
    exec (.bcc k c3 o8) s = .next (endInstr u k 1) := by
  subst hu
  exact coreStep_of_done hIssue (settle_useAll _ _) hReady rfl (coreOn_fetched_of_ready hReady)
    (congrArg (branchIf _ k 1 o8.toInt) ((condition_fetched ..).trans hCond))

end

section
variable {k : CoreId} {s u : State} {c4 : Fin 16} {o16 : BitVec 16} (hIssue : canIssue (s.atBoundary k) k = true)
  (hReady : (retireAll (s.atBoundary k) k).Ready k 2 false) (hu : (retireAll (s.atBoundary k) k).fetched k 2 = u)
include hIssue hReady hu

theorem bccL_of_holds (hc : (c4 : Nat) < 15) (hCond : condition (retireAll (s.atBoundary k) k) k c4 = true) :
    exec (.bccL k c4 o16) s = .next (branchTo u k (pcOf (retireAll (s.atBoundary k) k) k + 2 + o16.toInt)) := by
  rw [← pcOf_fetched _ _ 2, hu]
  subst hu
  exact coreStep_of_jump hIssue (settle_useAll _ _) hReady rfl (coreOn_branchTo (coreOn_fetched_of_ready hReady))
    ((if_neg (Nat.ne_of_lt hc)).trans (congrArg (branchIf _ k 2 o16.toInt) ((condition_fetched ..).trans hCond)))

theorem bccL_of_fails (hc : (c4 : Nat) < 15) (hCond : condition (retireAll (s.atBoundary k) k) k c4 = false) :
    exec (.bccL k c4 o16) s = .next (endInstr u k 2) := by
  subst hu
  exact coreStep_of_done hIssue (settle_useAll _ _) hReady rfl (coreOn_fetched_of_ready hReady)
    ((if_neg (Nat.ne_of_lt hc)).trans (congrArg (branchIf _ k 2 o16.toInt) ((condition_fetched ..).trans hCond)))

theorem bccL_illegal (hc : (c4 : Nat) = 15) : exec (.bccL k c4 o16) s =
    .next (takeException u k (pcOf (retireAll (s.atBoundary k) k) k) { vec := excIllegal }) := by
  rw [← pcOf_fetched _ _ 2, hu]
  subst hu
  exact coreStep_of_raised hIssue (settle_useAll _ _) hReady rfl (coreOn_fetched_of_ready hReady) (if_pos hc)

end

/-! Jumps and returns on a core that is ready for them (R260). -/

section
variable {s b : State} {k : Nat} {m : Form} {f : State → Res} {z : Int}
  (hReady : (s.atBoundary k).Ready k m.len (m.rep && m.len == 1)) (hb : (s.atBoundary k).fetched k m.len = b)
  (hDrain : m.use.drain = false) (hPriv : m.priv = false)
include hReady hb hDrain hPriv

theorem coreStep_branchTo (h : f b = .jump (branchTo b k z)) : coreStep s k m f = .next (branchTo b k z) := by
  subst hb
  exact coreStep_of_jump hReady.issue (settle_eq_self hDrain hReady.noDiv hReady.noMac) hReady hPriv
    (coreOn_branchTo (coreOn_fetched_of_ready hReady)) h

end

section
variable {k : CoreId} {s b t : State} {lo hi : Int} {e : Exc}
  (hReady : (s.atBoundary k).Ready k 1 false) (hb : (s.atBoundary k).fetched k 1 = b)
include hReady hb

theorem ret_of_ok (h : load b k (supervisor (s.atBoundary k) k) (pReg (s.atBoundary k) k 7) 2 = (.ok [lo, hi], t))
    (hOn : t.get .coreOn k ≠ 0) :
    exec (.ret k) s = .next (branchTo (setP t k 7 (pReg (s.atBoundary k) k 7 + 2)) k (lo + 65536 * (hi % 256))) := by
  subst hb
  rw [← supervisor_fetched _ _ 1, ← pReg_fetched _ _ 1] at h
  rw [← pReg_fetched _ _ 1]
  have hSet : (setP t k 7 (pReg ((s.atBoundary k).fetched k 1) k 7 + 2)).bit .coreOn k = true := by
    rw [State.bit, setP_get rfl]
    exact bne_iff_ne.mpr hOn
  refine coreStep_of_jump hReady.issue (settle_eq_self rfl hReady.noDiv hReady.noMac) hReady rfl (coreOn_branchTo hSet) ?_
  simp only [h, pOfWords, field_byte]
  rfl

theorem ret_of_error (h : load b k (supervisor (s.atBoundary k) k) (pReg (s.atBoundary k) k 7) 2 = (.error e, t))
    (hOn : t.get .coreOn k ≠ 0) : exec (.ret k) s = .next (takeException t k (pcOf t k) e) := by
  subst hb
  rw [← supervisor_fetched _ _ 1, ← pReg_fetched _ _ 1] at h
  refine coreStep_of_raised hReady.issue (settle_eq_self rfl hReady.noDiv hReady.noMac) hReady rfl (bne_iff_ne.mpr hOn) ?_
  simp only [h]

end

/-- Settles O41: each transfer is the branch, the call or the fault that its rule gives, on the state that its fetch leaves. -/
theorem transfersOfControl : Obligations.TransfersOfControl := by
  unfold Obligations.TransfersOfControl
  intro k c3 n c4 o8 o16 a e lo hi s t v b0 u0 fetched b u u2 flag N Z C V table short inside goes sp sup pushed calls
  have hTable : table = (List.range 15).map (condition u0 k) := rfl
  have hShort : short = (List.range 8).map fun c => condition u0 k (longCondition c) := rfl
  have hGoes : ∀ x z, branchTo x k z = goes x z := fun x z => branchTo_eq x k z Iff.rfl
  simp only [hTable, hShort, ← hGoes]
  refine ⟨fun hIssue hReady => ⟨rfl, fun h => ?bccHolds, fun h => ?bccFails⟩,
    fun hIssue hReady => ⟨fun h => ?bccLHolds, fun h => ?bccLFails, fun h => ?bccLIllegal⟩,
    fun hReady => ⟨?bra, ?jmpInd, fun hLoad hOn => ?retPops, fun hLoad hOn => ?retFaults⟩, fun hReady => ?jmp,
    fun hReady => ⟨fun hStore hOn => ?callPushes, fun hStore hOn => ?callFaults⟩,
    fun hReady => ⟨fun hStore hOn => ?callIndPushes, fun hStore hOn => ?callIndFaults⟩⟩
  case bccHolds => exact bcc_of_holds hIssue hReady rfl (eq_of_getElem?_map_range h).2
  case bccFails => exact bcc_of_fails hIssue hReady rfl (eq_of_getElem?_map_range h).2
  case bccLHolds =>
    obtain ⟨hc, hCond⟩ := eq_of_getElem?_map_range h
    exact bccL_of_holds hIssue hReady rfl hc hCond
  case bccLFails =>
    obtain ⟨hc, hCond⟩ := eq_of_getElem?_map_range h
    exact bccL_of_fails hIssue hReady rfl hc hCond
  case bccLIllegal => exact bccL_illegal hIssue hReady rfl h
  case bra => exact coreStep_branchTo hReady rfl rfl rfl rfl
  case jmpInd => exact coreStep_branchTo hReady rfl rfl rfl rfl
  case retPops => exact ret_of_ok hReady rfl hLoad hOn
  case retFaults => exact ret_of_error hReady rfl hLoad hOn
  case jmp => exact coreStep_branchTo hReady rfl rfl rfl rfl
  case callPushes => exact call_pushes hReady rfl rfl hStore hOn
  case callFaults => exact call_faults hReady rfl rfl hStore hOn
  case callIndPushes => exact call_pushes hReady rfl (congrArg (callTo _ k 1) (pReg_fetched ..)) hStore hOn
  case callIndFaults => exact call_faults hReady rfl (congrArg (callTo _ k 1) (pReg_fetched ..)) hStore hOn

end Sys2Proof.Machine
end

section
/-! PROOFS. Exceptions, interrupts and RETI of a tick core (R276 to R279, R319 to R322). -/
namespace Sys2Proof.Machine

/-! A core on which no long operation is outstanding and no trap waits takes what comes at once (R236, R276). -/

/-- No long operation of core `k` is outstanding, and no trap waits for it. -/
def Quiet (s : State) (k : Nat) : Prop := s.get .divOn k = 0 ∧ s.get .macOn k = 0 ∧ ∀ y ∈ s.traps, y.core ≠ k

section
variable {s : State} {k : Nat}

theorem retireAll_of_idle (hDiv : s.get .divOn k = 0) (hMac : s.get .macOn k = 0) : retireAll s k = s :=
  (settle_useAll s k).symm.trans (settle_eq_self rfl hDiv hMac)

theorem afterTraps_of_quiet {enter : State → State} (h : Quiet s k) : afterTraps s k enter = enter s := by
  obtain ⟨hDiv, hMac, hTraps⟩ := h
  simp only [afterTraps, retireAll_of_idle hDiv hMac, firstTrap_eq_none hTraps]

end

/-! The exception of a tick core (R277, R278). -/

section
variable {s : State} {k : Nat} {pc cause : Int} {e : Exc}

theorem causeOf_eq (e : Exc) : causeOf e =
    (e.vec : Int) + (if e.vec = 7 ∨ e.vec = 8 then 32 else 0) + (if e.wr then 64 else 0) + 256 * e.info := by
  have hScale (c : Prop) [Decidable c] (n : Int) : n * (if c then 1 else 0) = if c then n else 0 := by
    split
    · exact Int.mul_one n
    · exact Int.mul_zero n
  simp only [causeOf, bit01, excLate, excArith, Bool.or_eq_true, beq_iff_eq, hScale]

theorem enterException_of_tick (hk : k ≠ 5) : enterException s k pc e = tickException s k pc e := if_neg hk

theorem takeException_of_quiet (hk : k ≠ 5) (h : Quiet s k) : takeException s k pc e = tickException s k pc e :=
  (afterTraps_of_quiet h).trans (enterException_of_tick hk)

/-- No exception of a tick core resets it, whether a trap goes first or not. -/
theorem takeException_coreOn (hk : k ≠ 5) : (takeException s k pc e).get .coreOn k = s.get .coreOn k := by
  simp only [takeException, afterTraps, takeTrap, enterException_of_tick hk]
  split <;> rw [tickException_get rfl]
  · exact retireAll_get rfl
  · exact retireAll_get rfl

/-- The registers that an entry leaves as they were, beside the banks' records (R277). -/
def entryKeeps : List Fld :=
  [.coreD, .coreP, .coreA, .coreRc, .repCnt, .loopCnt, .swN, .swZ, .swC, .swV, .swSat, .swDz, .swDzt, .loopStart, .loopEnd]

/-- State `t` is that of core `k` after an entry from state `s`: the record of the next bank holds the context of `s`, the bank has
switched, and the core stands at the vector with a clear context (R277). -/
def Entered (s : State) (k : Nat) (pc cause faddr off : Int) (t : State) : Prop :=
  let j := bankOf s k
  t.get .XC_XPC k j = pc % 2 ^ 24 ∧ t.get .XC_XSW k j = swWord s k ∧ t.get .XC_XENT_REPV k j = s.get .repOn k ∧
  t.get .XC_XENT_LOOPV k j = s.get .loopOn k ∧ t.get .XC_XLS k j = s.get .loopStart k ∧ t.get .XC_XLE k j = s.get .loopEnd k ∧
  t.get .XC_XCAUSE k j = cause ∧ t.get .XC_XFADDR k j = faddr % 2 ^ 24 ∧ t.get .XC_STATUS_SB k = j + 1 ∧ t.get .swIe k = 0 ∧
  t.get .loopOn k = 0 ∧ t.get .repOn k = 0 ∧ t.get .coreWait k = 0 ∧ pcOf t k = 2048 * s.get .XC_VBASE k + off ∧
  ∀ f ∈ entryKeeps, ∀ i j, t.get f i j = s.get f i j

theorem leaveContext_clears (s : State) (k : Nat) (off : Int) : (leaveContext s k off).get .swIe k = 0 ∧
    (leaveContext s k off).get .loopOn k = 0 ∧ (leaveContext s k off).get .repOn k = 0 ∧
    (leaveContext s k off).get .coreWait k = 0 := by
  simp [leaveContext, dropLoopBuffer, dropQueue]

theorem pcOf_leaveContext (s : State) (k : Nat) (off : Int) : pcOf (leaveContext s k off) k = 2048 * s.get .XC_VBASE k + off := by
  simp [pcOf, leaveContext, vectorAt, dropLoopBuffer, dropQueue]

/-- The state in which an entry has written its record and switched the bank (R277). -/
def entryRecord (s : State) (k : Nat) (pc cause faddr : Int) : State :=
  let j := bankOf s k
  let s := ((s.put .XC_XPC (a24 pc) k j).put .XC_XSW (swWord s k) k j).put .XC_XENT_REPV (s.get .repOn k) k j
  let s := (s.put .XC_XENT_LOOPV (s.get .loopOn k) k j).put .XC_XLS (s.get .loopStart k) k j
  let s := ((s.put .XC_XLE (s.get .loopEnd k) k j).put .XC_XCAUSE cause k j).put .XC_XFADDR (a24 faddr) k j
  s.put .XC_STATUS_SB (j + 1) k

theorem tickEnter_eq (s : State) (k : Nat) (pc cause faddr off : Int) :
    tickEnter s k pc cause faddr off = leaveContext (entryRecord s k pc cause faddr) k off := rfl

theorem tickEnter_keeps : ∀ f ∈ entryKeeps, Foot.tickEnter (notFld f) = true := by decide

theorem tickEnter_entered (s : State) (k : Nat) (pc cause faddr off : Int) :
    Entered s k pc cause faddr off (tickEnter s k pc cause faddr off) := by
  have hKept : ∀ f ∈ entryKeeps, ∀ i j, (tickEnter s k pc cause faddr off).get f i j = s.get f i j :=
    fun f hf _ _ => tickEnter_get (tickEnter_keeps f hf)
  rw [tickEnter_eq] at *
  obtain ⟨hIe, hLoop, hRep, hWait⟩ := leaveContext_clears (entryRecord s k pc cause faddr) k off
  refine ⟨?_, ?_, ?_, ?_, ?_, ?_, ?_, ?_, ?_, hIe, hLoop, hRep, hWait, ?vector, hKept⟩
  case vector => rw [pcOf_leaveContext]; simp [entryRecord]
  all_goals
    rw [leaveContext_get rfl]
    simp [entryRecord, a24, unsigned]

theorem takeException_entered (hk : k ≠ 5) (hCause : causeOf e = cause) (h : Quiet s k) (hBank : bankOf s k ≠ 2) :
    Entered s k pc cause e.faddr (4 * e.vec) (takeException s k pc e) ∧
    (takeException s k pc e).mem = s.mem ∧ (takeException s k pc e).stores = s.stores := by
  subst hCause
  have hEnter : takeException s k pc e = tickEnter s k pc (causeOf e) e.faddr (excOffset e.vec) :=
    (takeException_of_quiet hk h).trans (if_neg hBank)
  have hSame : s.SameBut (fun p => p != .mem && p != .stores) (tickEnter s k pc (causeOf e) e.faddr (excOffset e.vec)) :=
    tickEnter_closed (sameBut_closed _ s) rfl (SameBut_refl _ s)
  rw [hEnter]
  exact ⟨tickEnter_entered .., hSame.mem rfl, hSame.stores rfl⟩

/-- The double fault is recorded and halts the core, before source 253 is sampled (R278). -/
def doubleFaulted (s : State) (k : Nat) (e : Exc) : State :=
  (((s.raise .coreHalt k).clear .coreWait k).raise .XC_STATUS_DFHALT k).put .XC_XCAUSE (causeOf e) k 1

theorem takeException_doubleFault (hk : k ≠ 5) (hCause : causeOf e = cause) (h : Quiet s k) (hBank : bankOf s k = 2) :
    (takeException s k pc e).get .coreHalt k = 1 ∧ (takeException s k pc e).get .XC_STATUS_DFHALT k = 1 ∧
    (takeException s k pc e).get .XC_XCAUSE k 1 = cause ∧ pcOf (takeException s k pc e) k = pcOf s k ∧
    bankOf (takeException s k pc e) k = 2 ∧ canIssue (takeException s k pc e) k = false := by
  subst hCause
  have hFault : takeException s k pc e = sampleSource (doubleFaulted s k e) 253 :=
    (takeException_of_quiet hk h).trans (if_pos hBank)
  have hHalt : (sampleSource (doubleFaulted s k e) 253).get .coreHalt k = 1 := by
    rw [sampleSource_get rfl]
    simp [doubleFaulted]
  rw [hFault]
  refine ⟨hHalt, ?dfhalt, ?cause, ?pc, ?bank, by simp [canIssue, coreRuns, State.bit, hHalt]⟩
  case dfhalt => rw [sampleSource_get rfl]; simp [doubleFaulted]
  case cause => rw [sampleSource_get rfl]; simp [doubleFaulted]
  case pc => rw [pcOf, sampleSource_get rfl]; simp [doubleFaulted, pcOf]
  case bank =>
    rw [← hBank, bankOf, State.nat, sampleSource_get rfl]
    simp [doubleFaulted, bankOf, State.nat]

end

/-! TRAP (R267, R263). -/

theorem trap_takes {k : CoreId} {n : Fin 16} {s b : State} (hk : (k : Nat) ≠ 5) (hReady : (s.atBoundary k).Ready k 1 false)
    (hb : (s.atBoundary k).fetched k 1 = b) : exec (.trap k n) s =
      .next (takeException (endInstr b k 1) k (pcOf (endInstr b k 1) k) { vec := excTrap + n, info := n }) := by
  subst hb
  rw [endInstr_of_repOff ((fetched_get rfl).trans hReady.repOff)]
  refine coreStep_of_jump hReady.issue (settle_eq_self rfl hReady.noDiv hReady.noMac) hReady rfl ?_ rfl
  rw [State.bit, takeException_coreOn hk, advance_get rfl]
  exact coreOn_fetched_of_ready hReady

/-! The entry of an interrupt (R319, R320). -/

section
variable {s u : State} {k : Nat} {run : Int} {n : Nat}

theorem vectorCycle_of_some (h : bestRequest s k run = some n) : vectorCycle s k run = (n, claim s k n) := by
  simp only [vectorCycle, h]

theorem vectorCycle_of_none (h : bestRequest s k run = none) :
    vectorCycle s k run = (255, (s.bump .IR_CSPUR 0xFFFF k).put .IR_CLAST_SRC 255 k) := by
  simp only [vectorCycle, h]

/-- A claim before its rate limit is counted: the source is in service at the core, at its priority (R319). -/
def inService (s : State) (k n : Nat) : State :=
  let s := (s.clear .irEdge n).clear .IR_SRCST_SPEND n
  let s := ((s.raise .IR_SRCST_ACT n).put .irOwner k n).clear .irStrand n
  let s := (s.put .IR_CRUN_RUN (s.get .IR_SRCCFG_PRIO n) k).put .IR_CRUN_NACT (min 16 (s.get .IR_CRUN_NACT k + 1)) k
  s.put .IR_CLAST_SRC n k

/-- The registers of the rate limit that a claim writes (R323). -/
def rateFlds : List Fld := [.irWin, .irWinEnd, .irCnt, .irHeld, .IR_SRCST_RLIM, .IR_STATUS_RLIM]

theorem claim_get_inService {f : Fld} {i j : Nat} (hf : f ∉ rateFlds) : (claim s k n).get f i j = (inService s k n).get f i j := by
  simp only [rateFlds, List.mem_cons, List.not_mem_nil, or_false, not_or] at hf
  obtain ⟨hWin, hEnd, hCnt, hHeld, hSrc, hStatus⟩ := hf
  unfold claim inService
  dsimp only
  split <;> split <;> simp [hWin, hEnd, hCnt, hHeld, hSrc, hStatus]

theorem claim_serves (s : State) (k n : Nat) : (claim s k n).get .IR_SRCST_ACT n = 1 ∧ (claim s k n).get .IR_SRCST_SPEND n = 0 ∧
    (claim s k n).get .IR_CRUN_RUN k = s.get .IR_SRCCFG_PRIO n ∧ (claim s k n).get .IR_CLAST_SRC k = n := by
  refine ⟨?_, ?_, ?_, ?_⟩ <;> rw [claim_get_inService (by decide)] <;> simp [inService]

/-- The registers of the distributor that a vector cycle may write. -/
def cycleFlds : List Fld := [.irEdge, .IR_SRCST_SPEND, .IR_SRCST_ACT, .irOwner, .irStrand, .IR_CRUN_RUN, .IR_CRUN_NACT, .IR_CLAST_SRC,
  .IR_CSPUR] ++ rateFlds

/-- The parts of the state that a vector cycle may write. -/
def distributor (p : Part) : Bool := p ∈ cycleFlds.map Part.fld

theorem vectorCycle_sameBut (s : State) (k : Nat) (run : Int) : s.SameBut distributor (vectorCycle s k run).2 :=
  vectorCycle_closed (sameBut_closed _ s) (by decide) (SameBut_refl _ s)

theorem entryKeeps_not_distributor : ∀ f ∈ entryKeeps, distributor (.fld f) = false := by decide

/-- An entry after a vector cycle is one from the state before it. -/
theorem Entered.of_sameBut {pc cause faddr off : Int} {t : State} (h : Entered u k pc cause faddr off t)
    (hSame : s.SameBut distributor u) : Entered s k pc cause faddr off t := by
  have hGet {f : Fld} (hf : distributor (.fld f) = false) (i j : Nat) : u.get f i j = s.get f i j := hSame.fld f i j hf
  have hKept : ∀ f ∈ entryKeeps, ∀ i j, t.get f i j = s.get f i j := by
    obtain ⟨-, -, -, -, -, -, -, -, -, -, -, -, -, -, hKeeps⟩ := h
    exact fun f hf i j => (hKeeps f hf i j).trans (hGet (entryKeeps_not_distributor f hf) i j)
  simp (disch := decide) only [Entered, bankOf, State.nat, swWord, supervisor, State.bit, hGet] at h ⊢
  obtain ⟨hPc, hSw, hRepV, hLoopV, hLs, hLe, hCause, hFaddr, hBank, hIe, hLoop, hRep, hWait, hVec, -⟩ := h
  exact ⟨hPc, hSw, hRepV, hLoopV, hLs, hLe, hCause, hFaddr, hBank, hIe, hLoop, hRep, hWait, hVec, hKept⟩

end

section
variable {s u : State} {k : CoreId} {n : Nat}

theorem interruptEntry_of_tick (hk : (k : Nat) ≠ 5) : exec (.interruptEntry k) s = .next (interruptEntry s k) := by
  show Host.Outcome.next (entryOf s k) = _
  simp only [entryOf, hk, decide_false, Bool.false_and, Bool.false_eq_true, if_false]

theorem interruptEntry_untaken (hk : (k : Nat) ≠ 5) (h : takesInterrupts s k = false) :
    exec (.interruptEntry k) s = .next s := by
  rw [interruptEntry_of_tick hk, interruptEntry, h]
  rfl

theorem interruptEntry_unasked (hk : (k : Nat) ≠ 5) (hNone : presented s k = none) (hPres : s.get .irPres k = 0) :
    exec (.interruptEntry k) s = .next s := by
  rw [interruptEntry_of_tick hk]
  simp [interruptEntry, hNone, State.bit, hPres]

/-- A core that takes a request enters it after the vector cycle, whose registers of the distributor stand. -/
theorem interruptEntry_enters (hk : (k : Nat) ≠ 5) (hTakes : takesInterrupts s k = true) (hQuiet : Quiet s k)
    (hAsked : (presented s k).isSome = true ∨ s.get .irPres k ≠ 0)
    (hCycle : vectorCycle s k (s.get .IR_CRUN_RUN k) = (n, u)) :
    Leads (exec (.interruptEntry k) s) fun t => Entered s k (pcOf s k) (128 + 256 * n) 0 (128 + 4 * n) t ∧
      ∀ f, Foot.tickEnter (notFld f) = true → ∀ i j, t.get f i j = u.get f i j := by
  have hSame : s.SameBut distributor u := by
    have hWrites := vectorCycle_sameBut s k (s.get .IR_CRUN_RUN k)
    rwa [hCycle] at hWrites
  have hDue : (!takesInterrupts s k || !((presented s k).isSome || s.bit .irPres k)) = false := by
    obtain h | h := hAsked <;> simp [hTakes, State.bit, h]
  have hPc : pcOf u k = pcOf s k := hSame.fld .corePc k 0 (by decide)
  refine ⟨tickEnter u k (pcOf u k) (causeInt n) 0 (intOffset n), ?_, ?_, fun f hf i j => tickEnter_get hf⟩
  · rw [interruptEntry_of_tick hk, interruptEntry, hDue, afterTraps_of_quiet hQuiet, enterInterrupt, hCycle]
    exact congrArg Host.Outcome.next (if_neg hk)
  · rw [hPc]
    exact (tickEnter_entered ..).of_sameBut hSame

theorem interruptEntry_claims (hk : (k : Nat) ≠ 5) (hTakes : takesInterrupts s k = true) (hQuiet : Quiet s k)
    (hBest : presented s k = some n) : Leads (exec (.interruptEntry k) s) fun t =>
      Entered s k (pcOf s k) (128 + 256 * n) 0 (128 + 4 * n) t ∧ t.get .IR_SRCST_ACT n = 1 ∧ t.get .IR_SRCST_SPEND n = 0 ∧
      t.get .IR_CRUN_RUN k = s.get .IR_SRCCFG_PRIO n ∧ t.get .IR_CLAST_SRC k = n := by
  obtain ⟨t, hNext, hEnters, hStands⟩ := interruptEntry_enters hk hTakes hQuiet (.inl (by rw [hBest]; rfl)) (vectorCycle_of_some hBest)
  obtain ⟨hAct, hSpend, hRun, hLast⟩ := claim_serves s k n
  exact ⟨t, hNext, hEnters, (hStands _ rfl _ _).trans hAct, (hStands _ rfl _ _).trans hSpend, (hStands _ rfl _ _).trans hRun,
    (hStands _ rfl _ _).trans hLast⟩

theorem interruptEntry_spurious (hk : (k : Nat) ≠ 5) (hTakes : takesInterrupts s k = true) (hQuiet : Quiet s k)
    (hNone : presented s k = none) (hPres : s.get .irPres k ≠ 0) : Leads (exec (.interruptEntry k) s) fun t =>
      Entered s k (pcOf s k) (128 + 256 * 255) 0 (128 + 4 * 255) t ∧ t.get .IR_CLAST_SRC k = 255 ∧
      t.get .IR_CSPUR k = min 0xFFFF (s.get .IR_CSPUR k + 1) := by
  obtain ⟨t, hNext, hEnters, hStands⟩ := interruptEntry_enters hk hTakes hQuiet (.inr hPres) (vectorCycle_of_none hNone)
  exact ⟨t, hNext, hEnters, (hStands _ rfl _ _).trans (by simp), (hStands _ rfl _ _).trans (by simp)⟩

end

/-! RETI of a tick core (R279, R321, R322). -/

section
variable {s : State} {k : Nat} {m : Form} {f : State → Res}

/-- The privilege that an instruction asks for is always there on a tick core (R217, R268). -/
theorem coreStep_of_tick (hk : k ≠ 5) : coreStep s k m f = coreStep s k { m with priv := false } f := by
  have hSup (t : State) : supervisor t k = true := by simp [supervisor, hk]
  have hRun (t : State) : decodeAndRun t k m f = decodeAndRun t k { m with priv := false } f := by
    simp only [decodeAndRun, hSup, Bool.not_true, Bool.and_false, Bool.false_eq_true, if_false, execute]
  simp only [coreStep, runCore, hRun]

theorem restoreSw_flagAt {w : Int} (hk : k ≠ 5) : ∀ q ∈ statusFlags ++ [(Fld.swDzt, 6), (.swIe, 7)],
    FlagAt s (restoreSw s k w) k q.1 (some (bitAt w q.2)) := by
  intro q hq
  simp only [restoreSw, hk, if_false]
  obtain hStatus | hControl := List.mem_append.mp hq
  · obtain ⟨hDzt, hIe, -⟩ := statusFlags_not_control q hStatus
    exact ((putFlags_flagAt s k w q hStatus).put hDzt).put hIe
  · simp only [List.mem_cons, List.not_mem_nil, or_false] at hControl
    obtain rfl | rfl := hControl
    · exact (flagAt_put_same fun _ _ => putFlags_get rfl).put (by decide)
    · exact flagAt_put_same fun _ _ => by rw [State.get_put_fld _ _ _ _ _ _ _ _ (by decide)]; exact putFlags_get rfl

/-- The state in which the end of service that a RETI of bank `j + 1` makes is done (R279, R321). -/
def serviced (s : State) (k j : Nat) : State :=
  if bitAt (s.get .XC_XCAUSE k j) 7 = true ∧ s.get .XC_XCAUSE k j / 256 % 256 ≠ 255 then endService s k else s

theorem serviced_get {fl : Fld} {i j j' : Nat} (hK : Foot.endService (notFld fl) = true) :
    (serviced s k j).get fl i j' = s.get fl i j' := by
  unfold serviced
  split
  · exact endService_get hK
  · rfl

/-- The switch to bank `j` and the restore of the pc and of the loop context from its record (R279). -/
def restoreContext (s : State) (k j : Nat) : State :=
  let s := s.put .XC_STATUS_SB j k
  let s := ((s.put .repOn (s.get .XC_XENT_REPV k j) k).put .loopOn (s.get .XC_XENT_LOOPV k j) k)
  let s := (s.put .loopStart (s.get .XC_XLS k j) k).put .loopEnd (s.get .XC_XLE k j) k
  setPc (dropQueue (dropLoopBuffer s k) k) k (s.get .XC_XPC k j)

/-- The registers that the restore of a context writes. -/
def contextFlds : List Fld := [.XC_STATUS_SB, .repOn, .loopOn, .loopStart, .loopEnd, .corePc, .fqLen, .lbPhase, .lbOn]

theorem restoreContext_get_other {fl : Fld} {i j j' : Nat} (h : fl ∉ contextFlds) :
    (restoreContext s k j).get fl i j' = s.get fl i j' := by
  simp only [contextFlds, List.mem_cons, List.not_mem_nil, or_false, not_or] at h
  obtain ⟨hBank, hRep, hLoop, hStart, hEnd, hPc, hQueue, hPhase, hOn⟩ := h
  simp [restoreContext, setPc, dropQueue, dropLoopBuffer, hBank, hRep, hLoop, hStart, hEnd, hPc, hQueue, hPhase, hOn]

theorem restoreContext_restores (s : State) (k j : Nat) :
    pcOf (restoreContext s k j) k = s.get .XC_XPC k j % 2 ^ 24 ∧ bankOf (restoreContext s k j) k = j ∧
    (restoreContext s k j).get .repOn k = s.get .XC_XENT_REPV k j ∧
    (restoreContext s k j).get .loopOn k = s.get .XC_XENT_LOOPV k j ∧
    (restoreContext s k j).get .loopStart k = s.get .XC_XLS k j ∧ (restoreContext s k j).get .loopEnd k = s.get .XC_XLE k j := by
  simp [pcOf, bankOf, State.nat, restoreContext, setPc, dropQueue, dropLoopBuffer, unsigned]

/-- The exit without unstacking: the record stays, with the cause of the interrupt that follows (R322). -/
def exitTo (s : State) (k j n : Nat) : State :=
  leaveContext ((claim s k n).put .XC_XCAUSE (causeInt n) k j) k (intOffset n)

theorem tickReti_of_base (h : bankOf s k = 0) : tickReti s k = .fault { vec := excIllegal } s := if_pos h

section
variable {j n : Nat} (hBank : bankOf s k ≠ 0) (hj : bankOf s k - 1 = j)
include hBank hj

theorem tickReti_above_base : tickReti s k =
    if bitAt (s.get .XC_XSW k j) 7 && (bestRequest (serviced s k j) k ((serviced s k j).get .IR_CRUN_RUN k)).isSome then
      let (n, t) := vectorCycle (serviced s k j) k ((serviced s k j).get .IR_CRUN_RUN k)
      .jump (leaveContext (t.put .XC_XCAUSE (causeInt n) k j) k (intOffset n))
    else .jump (restoreContext (restoreSw (serviced s k j) k (s.get .XC_XSW k j)) k j) := by
  have hEnds (c : Int) : (bitAt c 7 && field c 15 8 != 255) = true ↔ bitAt c 7 = true ∧ c / 256 % 256 ≠ 255 := by
    rw [Bool.and_eq_true, bne_iff_ne]
    rfl
  rw [← serviced_get (s := s) (k := k) (j := j) (fl := .XC_XSW) rfl]
  simp only [tickReti, hBank, hj, if_false, hEnds]
  rfl

theorem tickReti_restores (h : bitAt (s.get .XC_XSW k j) 7 = false ∨
    bestRequest (serviced s k j) k ((serviced s k j).get .IR_CRUN_RUN k) = none) :
    tickReti s k = .jump (restoreContext (restoreSw (serviced s k j) k (s.get .XC_XSW k j)) k j) := by
  rw [tickReti_above_base hBank hj]
  refine if_neg ?_
  obtain h | h := h <;> simp [h]

theorem tickReti_exits (hIe : bitAt (s.get .XC_XSW k j) 7 = true)
    (hBest : bestRequest (serviced s k j) k ((serviced s k j).get .IR_CRUN_RUN k) = some n) :
    tickReti s k = .jump (exitTo (serviced s k j) k j n) := by
  simp only [tickReti_above_base hBank hj, hIe, hBest, Option.isSome_some, Bool.and_self, if_true, vectorCycle_of_some hBest, exitTo]

end

section
variable {j n : Nat}

theorem restored_get {w : Int} {fl : Fld} {i i' : Nat} (hSw : Foot.restoreSw (notFld fl) = true)
    (hService : Foot.endService (notFld fl) = true) : (restoreSw (serviced s k j) k w).get fl i i' = s.get fl i i' :=
  (restoreSw_get hSw).trans (serviced_get hService)

/-- The registers that a RETI with a restore leaves as they were. -/
def retiKeeps : List Fld := [.coreD, .coreP, .coreA, .coreRc, .repCnt, .loopCnt]

theorem retiKeeps_unwritten : ∀ fl ∈ retiKeeps, fl ∉ contextFlds ∧ Foot.restoreSw (notFld fl) = true ∧
    Foot.endService (notFld fl) = true := by decide

theorem flags_unwritten : ∀ q ∈ statusFlags ++ [(Fld.swDzt, 6), (.swIe, 7)],
    q.1 ∉ contextFlds ∧ Foot.endService (notFld q.1) = true := by decide

/-- What a RETI with a restore from state `s` leaves: the context of record `j`, its sw, and the other registers as they were. -/
theorem restored_state (hk : k ≠ 5) (t : State)
    (ht : t = restoreContext (restoreSw (serviced s k j) k (s.get .XC_XSW k j)) k j) :
    pcOf t k = s.get .XC_XPC k j % 2 ^ 24 ∧ bankOf t k = j ∧ t.get .repOn k = s.get .XC_XENT_REPV k j ∧
    t.get .loopOn k = s.get .XC_XENT_LOOPV k j ∧ t.get .loopStart k = s.get .XC_XLS k j ∧ t.get .loopEnd k = s.get .XC_XLE k j ∧
    (∀ q ∈ statusFlags ++ [(Fld.swDzt, 6), (.swIe, 7)], FlagAt s t k q.1 (some (bitAt (s.get .XC_XSW k j) q.2))) ∧
    ∀ fl ∈ retiKeeps, ∀ i i', t.get fl i i' = s.get fl i i' := by
  subst ht
  obtain ⟨hPc, hBank, hRep, hLoop, hStart, hEnd⟩ :=
    restoreContext_restores (restoreSw (serviced s k j) k (s.get .XC_XSW k j)) k j
  rw [restored_get rfl rfl] at hPc hRep hLoop hStart hEnd
  refine ⟨hPc, hBank, hRep, hLoop, hStart, hEnd, fun q hq => ?flags, fun fl hfl i i' => ?kept⟩
  case flags =>
    obtain ⟨hOther, hService⟩ := flags_unwritten q hq
    have hFlag : FlagAt s (restoreSw (serviced s k j) k (s.get .XC_XSW k j)) k q.1 (some (bitAt (s.get .XC_XSW k j) q.2)) :=
      (restoreSw_flagAt hk q hq).of_get fun _ _ => serviced_get hService
    exact fun i i' => (restoreContext_get_other hOther).trans (hFlag i i')
  case kept =>
    obtain ⟨hOther, hSw, hService⟩ := retiKeeps_unwritten fl hfl
    exact (restoreContext_get_other hOther).trans (restored_get hSw hService)

/-- What an exit without unstacking from state `s` leaves: the record with the new cause, the bank, and the core at the vector. -/
theorem exited_state (t : State) (ht : t = exitTo (serviced s k j) k j n) :
    t.get .XC_XCAUSE k j = 128 + 256 * n ∧ pcOf t k = 2048 * s.get .XC_VBASE k + 128 + 4 * n ∧ bankOf t k = bankOf s k ∧
    t.get .swIe k = 0 ∧ t.get .IR_SRCST_ACT n = 1 ∧ t.get .XC_XPC k j = s.get .XC_XPC k j := by
  subst ht
  obtain ⟨hIe, -⟩ := leaveContext_clears ((claim (serviced s k j) k n).put .XC_XCAUSE (causeInt n) k j) k (intOffset n)
  have hClaimed {fl : Fld} {i i' : Nat} (hClaim : Foot.claim (notFld fl) = true) (hService : Foot.endService (notFld fl) = true) :
      (claim (serviced s k j) k n).get fl i i' = s.get fl i i' := (claim_get hClaim).trans (serviced_get hService)
  refine ⟨?cause, ?vector, ?bank, hIe, ?active, ?record⟩
  case cause =>
    rw [exitTo, leaveContext_get rfl]
    exact State.get_put_same ..
  case vector =>
    rw [exitTo, pcOf_leaveContext, State.get_put_fld _ _ _ _ _ _ _ _ (by decide), hClaimed rfl rfl, intOffset, Int.add_assoc]
  case bank =>
    rw [bankOf, State.nat, exitTo, leaveContext_get rfl, State.get_put_fld _ _ _ _ _ _ _ _ (by decide), hClaimed rfl rfl]
    rfl
  case active =>
    rw [exitTo, leaveContext_get rfl, State.get_put_fld _ _ _ _ _ _ _ _ (by decide)]
    exact (claim_serves _ k n).1
  case record => rw [exitTo, leaveContext_get rfl, State.get_put_fld _ _ _ _ _ _ _ _ (by decide), hClaimed rfl rfl]

end
end

section
variable {k : CoreId} {s u : State} (hk : (k : Nat) ≠ 5) (hIssue : canIssue (s.atBoundary k) k = true)
  (hReady : (retireAll (s.atBoundary k) k).Ready k 1 false) (hu : (retireAll (s.atBoundary k) k).fetched k 1 = u)
include hk

theorem reti_eq_coreStep : exec (.reti k) s = coreStep s k { use := useAll false } (tickReti · k) := by
  show coreStep s k _ _ = _
  simp only [coreStep_of_tick hk, hk, if_false]

include hIssue hReady hu

theorem reti_of_jump {t : State} (h : tickReti u k = .jump t) : exec (.reti k) s = .next t := by
  subst hu
  have hOn : (tickReti ((retireAll (s.atBoundary k) k).fetched k 1) k).st.get .coreOn k =
      ((retireAll (s.atBoundary k) k).fetched k 1).get .coreOn k := tickReti_closed (field_closed .coreOn k 0 _) rfl rfl
  rw [h] at hOn
  have hRuns : t.bit .coreOn k = true := (congrArg (· != 0) hOn).trans (coreOn_fetched_of_ready hReady)
  rw [reti_eq_coreStep hk]
  exact coreStep_of_jump hIssue (settle_useAll _ _) hReady rfl hRuns h

theorem reti_illegal (hBank : bankOf u k = 0) : exec (.reti k) s = .next (takeException u k (pcOf u k) { vec := excIllegal }) := by
  subst hu
  rw [reti_eq_coreStep hk]
  exact coreStep_of_raised hIssue (settle_useAll _ _) hReady rfl (coreOn_fetched_of_ready hReady) (tickReti_of_base hBank)

end

/-- Settles O46: an exception or a claimed request enters the next bank or, in bank 2, halts the core; RETI ends the service, and
exits to the next request or restores the record. -/
theorem tickCoreExceptions : Obligations.TickCoreExceptions := by
  unfold Obligations.TickCoreExceptions
  intro k n src e pc s b0 b quiet cause enters doubleFault u0 u next j old v sw run hk
  have hCause : causeOf e = cause := causeOf_eq e
  refine ⟨fun hQuiet hBank => ?enters, fun hQuiet hBank => ?doubleFault, fun hReady => ?trap, fun h => ?untaken,
    fun hNone hPres => ?unasked, fun hTakes hQuiet hBest => ?claims, fun hTakes hQuiet hNone hPres => ?spurious,
    fun hIssue hReady => ⟨fun hBank => ?illegal, fun hBank hStays => ?restores, fun hBank hIe hBest => ?exits⟩⟩
  case enters => exact takeException_entered hk hCause hQuiet hBank
  case doubleFault => exact takeException_doubleFault hk hCause hQuiet hBank
  case trap => exact trap_takes hk hReady rfl
  case untaken => exact interruptEntry_untaken hk h
  case unasked => exact interruptEntry_unasked hk hNone hPres
  case claims => exact interruptEntry_claims hk hTakes hQuiet hBest
  case spurious => exact interruptEntry_spurious hk hTakes hQuiet hNone hPres
  case illegal => exact reti_illegal hk hIssue hReady rfl hBank
  case restores => exact ⟨_, reti_of_jump hk hIssue hReady rfl (tickReti_restores hBank rfl hStays), restored_state hk _ rfl⟩
  case exits => exact ⟨_, reti_of_jump hk hIssue hReady rfl (tickReti_exits hBank rfl hIe hBest), exited_state _ rfl⟩

end Sys2Proof.Machine
end
